-- ==== Sys2Proof/Word.lean ====
section
/-! DEFINITION. The word types of the register space and of the frames (R8 to R10), byte strings with
the most significant byte first (R9), sparse tables with strictly rising keys, and TIME80 (R36). -/

namespace Sys2Proof

/-- One byte of a frame, an image, a record or a register group (R9). -/
abbrev Byte := BitVec 8
/-- One 32-bit register or time-field word (R10). -/
abbrev Word := BitVec 32

/-- A sparse table: pairs of key and value. The machine's operations keep the keys strictly rising. -/
abbrev Tab (α : Type) := List (Nat × α)

/-- The value a table holds for a key, if it lists the key. -/
def Tab.get {α : Type} : Tab α → Nat → Option α
  | [], _ => none
  | (k, v) :: t, i => if k = i then some v else Tab.get t i

/-- The value a table holds for a key, or the given value where the key is not listed. -/
def Tab.getD {α : Type} (t : Tab α) (i : Nat) (d : α) : α := (Tab.get t i).getD d

/-- Set the value of a key, keeping the keys in rising order. -/
def Tab.put {α : Type} : Tab α → Nat → α → Tab α
  | [], i, v => [(i, v)]
  | (k, w) :: t, i, v =>
    if i < k then (i, v) :: (k, w) :: t
    else if k = i then (i, v) :: t
    else (k, w) :: Tab.put t i v

/-- Remove a key. -/
def Tab.del {α : Type} (t : Tab α) (i : Nat) : Tab α := List.filter (fun p => p.1 != i) t

/-- Apply a function to every listed value. -/
def Tab.map {α : Type} (t : Tab α) (f : Nat → α → α) : Tab α := List.map (fun p => (p.1, f p.1 p.2)) t

/-- The keys of a table rise strictly. -/
abbrev Tab.Rising {α : Type} (t : Tab α) : Prop := (List.map Prod.fst t).Pairwise (· < ·)

/-- The keys a table lists. -/
def Tab.keys {α : Type} (t : Tab α) : List Nat := List.map Prod.fst t

/-- The lowest of the keys 0 to `n` - 1 that a table does not list. -/
def Tab.freeKey {α : Type} (t : Tab α) (n : Nat) : Option Nat := (List.range n).find? fun k => (Tab.get t k).isNone

/-- A dyadic number: `num` / 2^`exp`. Means of stamps are held exactly in it (R77, R125). -/
structure Dy where
  num : Int
  exp : Nat
  deriving DecidableEq, Repr

/-- Zero. -/
def Dy.zero : Dy := ⟨0, 0⟩

/-- Round a quotient to the nearest whole number, halves away from zero (R518). -/
def roundAway (a : Int) (b : Nat) : Int :=
  if 0 ≤ a then (2 * a + b) / (2 * b) else - ((2 * (-a) + b) / (2 * b))

/-- Round a quotient to the nearest whole number, ties to even (R79). -/
def roundEven (a : Int) (b : Nat) : Int :=
  let q := a / b
  let r := 2 * (a % b)
  if r < b then q else if r > b then q + 1 else if q % 2 = 0 then q else q + 1

/-- Limit a value to a range. -/
def clampInt (lo hi v : Int) : Int := if v < lo then lo else if v > hi then hi else v

/-- A signed field as a 32-bit word, saturated (R518). -/
def satWord (v : Int) : Word := BitVec.ofInt 32 (clampInt (-2147483648) 2147483647 v)

/-- The signed difference of two numbers modulo 2^`n`, in -2^(n-1) to 2^(n-1) - 1 (R49). -/
def sdiff (n : Nat) (a b : Int) : Int :=
  (a - b + 2 ^ (n - 1)) % 2 ^ n - 2 ^ (n - 1)

/-- A TIME80 instant with the 32 fraction bits the counter holds below the nanosecond (R36, R38). -/
structure Time80 where
  sec  : Nat
  ns   : Nat
  frac : Nat
  deriving DecidableEq, Repr

/-- 0:000000000 with a fraction of 0. -/
def Time80.zero : Time80 := ⟨0, 0, 0⟩

/-- The instant in whole nanoseconds since the epoch. -/
def Time80.toNs (t : Time80) : Int := (t.sec : Int) * 1000000000 + t.ns

/-- The instant in units of 2^-32 ns since the epoch. -/
def Time80.toUnits (t : Time80) : Int := t.toNs * 4294967296 + t.frac

/-- The instant in units of 2^-16 ns, the resolution at which two times are compared (R38). -/
def Time80.toNs16 (t : Time80) : Int := t.toUnits / 65536

/-- The instant that lies `u` units of 2^-32 ns after the epoch; SECONDS keeps 48 bits (R36). -/
def Time80.ofUnits (u : Int) : Time80 :=
  let n := u / 4294967296
  ⟨(n / 1000000000 % 281474976710656).toNat, (n % 1000000000).toNat, (u % 4294967296).toNat⟩

/-- The instant a whole number of nanoseconds after the epoch. -/
def Time80.ofNs (n : Int) : Time80 := Time80.ofUnits (n * 4294967296)

/-- NS32, the nanosecond word of R39. -/
def Time80.ns32 (t : Time80) : Word := BitVec.ofInt 32 t.toNs

/-- The byte at an index of a byte string; bytes beyond its end are 0. -/
def byteAt (l : List Byte) (i : Nat) : Byte := l.getD i 0

/-- The number that `n` bytes from index `i` carry, most significant byte first (R9). -/
def beNat (l : List Byte) (i : Nat) : Nat → Nat
  | 0 => 0
  | n + 1 => 256 ^ n * (byteAt l i).toNat + beNat l (i + 1) n

/-- The `n` bytes that carry a number, most significant byte first (R9). -/
def natBytes (v : Nat) : Nat → List Byte
  | 0 => []
  | n + 1 => BitVec.ofNat 8 (v / 256 ^ n) :: natBytes v n

/-- The bits [hi:lo] of a number. -/
def bitsOf (v hi lo : Nat) : Nat := (v >>> lo) % 2 ^ (hi + 1 - lo)

/-- One bit of a number. -/
def bitOf (v i : Nat) : Bool := v.testBit i

/-- 1 or 0 for a flag. -/
def b2n (b : Bool) : Nat := if b then 1 else 0

/-- Byte strings of a fixed length: cut, or padded with zero bytes. -/
def padTo (n : Nat) (l : List Byte) : List Byte := l.take n ++ List.replicate (n - l.length) 0

end Sys2Proof
end

