-- ==== Sys2Proof/Syntax.lean ====
section
/-! DEFINITION. The commands of the block: one constructor of `Instr` for each row of the table of operations
and events, with the operands the rule of the row gives the event (the table itself gives none), and the
structures those operands are made of. -/

namespace Sys2Proof

/-- The two parts of the family that this model holds: one TSU-A1 and one Gapra distributor. -/
inductive Node where
  | tsu | gd
  deriving DecidableEq, Repr

/-- One end of a sync link: lane 0 or 1 of the TSU, or port page 0 to 67 of the distributor (R472). -/
structure LinkId where
  node : Node
  port : Nat
  deriving DecidableEq, Repr

/-- A 64-byte frame without its check: the header word of R160, the time field, and bytes 12 to 59. -/
structure Frame where
  type   : BitVec 6
  cls    : BitVec 2
  ver    : BitVec 2
  gen    : BitVec 2
  detour : Bool
  more   : Bool
  f49    : Bool
  f48    : Bool
  domain : BitVec 24
  step16 : BitVec 16
  time   : Word
  body   : List Byte
  deriving DecidableEq, Repr

/-- What the comparison with the poison pattern and the RS decoder make of a received slot (R165 to R167). -/
inductive Check where
  | good | corrected | poison | uncorrectable
  deriving DecidableEq, Repr

/-- A received slot: the frame that its sender's check covers, and what the lane or the sender added to the 64 bytes,
as byte indices with the difference of the byte. Without noise the frame arrives as sent. -/
structure Rx where
  sent  : Frame
  noise : List (Nat × Byte)
  deriving DecidableEq, Repr

/-- Which master makes a register access, and whether it is a whole aligned word (R10, R11, R471). -/
structure Access where
  /-- HB_MID of the TSU; of the distributor 0 the lead, 1 the management port, 2 the understudy -/
  master : Nat
  /-- all four bytes, aligned on a word -/
  whole  : Bool
  /-- it falls in the same cycle as the access or event before it, R17 -/
  same   : Bool
  deriving DecidableEq, Repr

/-- An ESMC quality level as R97 and R111 name it. -/
inductive EsmcLevel where
  | prc | eeec | dnu | other
  deriving DecidableEq, Repr

/-- A leap second that a reference input announces to the time root (R85): its sign, the UTC offset from its instant
on, and that instant. -/
structure LeapNews where
  positive : Bool
  utcNext  : BitVec 16
  leapAt   : Time80
  deriving DecidableEq, Repr

/-- What a time-of-day message says of UTC (R95): the offset of the moment, and a leap second it announces. -/
structure UtcNews where
  offset : BitVec 16
  leap   : Option LeapNews
  deriving DecidableEq, Repr

/-- The engine-clock edge that captures a launch at a port (R229): its stamp, and the period then in force (R131). -/
structure CaptureEdge where
  /-- units of 2^-16 ns -/
  stamp  : Int
  /-- units of 2^-16 ns -/
  period : Nat
  deriving DecidableEq, Repr

/-- A PTP message of R96 as an Ethernet time port hears it, with the domain number it carries and the identity of the
master that sent it. -/
inductive PtpMessage where
  /-- a Sync with the latest delay exchange: its departure at the master, its arrival here, the departure here of the
  Delay_Req and its arrival at the master, TAI instants in units of 2^-16 ns (R103) -/
  | sync (domain master : Nat) (t1 t2 t3 t4 : Int)
  | delayReq (domain : Nat)
  /-- an Announce: its clockClass, its rank in the profile's alternate BMCA (the smallest wins), and a leap second it
  announces -/
  | announce (domain master clockClass rank : Nat) (leap : Option LeapNews)
  deriving DecidableEq, Repr

/-- Why a reference entry is lost (R97). -/
inductive RefLoss where
  | edge | clock10M | announce | sync | esmc
  deriving DecidableEq, Repr

/-- What a scrub read of a line finds (R427). -/
inductive LineState where
  | clean | corrected | uncorrectable
  deriving DecidableEq, Repr

/-- A store whose lines are scrubbed (R427, R428). -/
inductive Store where
  | tumbler | sequence | sentence | directory | calendar | scanRow | carry
  | gdSoft | gdImage
  deriving DecidableEq, Repr

/-- How a distributor stage ends, or that it still waits (R414). -/
inductive StageEnd where
  | pass | degraded | waiting | fail
  deriving DecidableEq, Repr

/-- An arrival on the arrival interface of a launch port (R192). -/
structure PortArv where
  port   : Nat
  entry  : Nat
  slot   : Nat
  weight : Nat
  beats  : Nat
  data   : List Byte
  /-- slice generation and slice of the command that makes it (R193) -/
  slice  : Nat
  sgen   : Nat
  deriving DecidableEq, Repr

/-- A read at the result read port with its attributes (R467). -/
structure ResultRead where
  offset : Nat
  length : Nat
  slice  : Nat
  sgen   : Nat
  gen    : BitVec 2
  slot   : Nat
  deriving DecidableEq, Repr

/-- One register access over the management port (R499). -/
inductive SpiOp where
  | read
  | write (data : Word)
  deriving DecidableEq, Repr

/-- The commands: those with operands, chapter by chapter, then those without, so that a constructor with fields stands among
the first 244, which is what Lean's compiler allows. -/
inductive Instr where
  -- The Time Counter
  | timeClockTick (n : Node)
  | tdreset (n : Bool)
  | standaloneWrite (v : Bool)
  | addendCommit (w1 : Word)
  | pllLockLoss (n : Node)
  | pllRelock (n : Node)
  | timeDomainPowerOn (n : Node)
  | restep (acc : Access)
  | qualHoldMet (n : Node)
  | qualDropMet (n : Node)
  | flywheelLimit (n : Node)
  | leapSecondApply (n : Node)
  -- Time Transfer Down the Tree
  | timeFrameSend (l : LinkId) (stamp : Int)
  | timeFrameRx (l : LinkId) (rx : Rx) (stamp : Int)
  | delayMeasurementDone (l : LinkId)
  | delayRestart (l : LinkId)
  | timeLoss (l : LinkId)
  | sourceSwitchBetter (l : LinkId)
  -- References, Selection and Outputs
  | refPpsEdge (n : Nat) (stamp : Int)
  | todMessageRx (n : Nat) (stamp : Int) (second : Nat) (checksumOk : Bool) (utc : UtcNews)
  | ptpMessageRx (n : Nat) (m : PtpMessage)
  | esmcMessageRx (n : Nat) (q : EsmcLevel)
  | refLossTimeout (s : Nat) (why : RefLoss)
  | refQualified (s : Nat)
  | wtrExpiry (i : Nat)
  | forceEntryWrite (acc : Access) (w : Word)
  | ptpMasterSend (n : Nat)
  -- Inside the Die: what the bus changes in the 128 bits of the word that arrives (R123), field by field, `rest` in those that
  -- have no operand of their own, its CRC among them
  | repeaterSyncRx (r : Nat) (ns32 frac : BitVec 32) (rest : BitVec 64)
  | repeaterAddendRx (r : Nat) (seq : BitVec 6) (addend : BitVec 36) (count : BitVec 64) (rest : BitVec 22)
  | repeaterLaunchAtRx (r : Nat) (seq : BitVec 6) (t : BitVec 32) (frac : BitVec 16) (slot : BitVec 4) (fence : BitVec 1) (rest : BitVec 69)
  | repeaterCancelRx (r : Nat) (seq : BitVec 6) (slot : BitVec 4) (rest : BitVec 118)
  | repeaterFchgAtRx (r : Nat) (seq : BitVec 6) (tf : BitVec 32) (code : BitVec 8) (rest : BitVec 82)
  | repeaterCalRx (r : Nat) (roundTripTaps : Nat) (noise : BitVec 128)
  | tbusAckRx (r : Nat) (seq : Nat)
  | tbusResend (r : Nat) (seq : Nat)
  | tbusDeliveryLimit (r : Nat) (seq : Nat)
  | tbusCalDone (r : Nat)
  | launchAtSend (arm : Nat)
  | strobeFire (r : Nat) (slot : Nat)
  | regionWakeRaise (r : Nat) (slot : Nat)
  | pmFchgReq (regions : Byte) (code : Byte)
  | rgSwitch (r : Nat)
  | regionRateWindow (r : Nat) (edges : Nat) (maxPeriod : Nat) (running : Bool)
  | lpFenceDone (port : Nat)
  | fenceHung (port : Nat)
  | regionRst (r : Nat)
  -- Sync Links and Frames
  | trainingAttempt (l : LinkId)
  | attemptFail (l : LinkId)
  | rateSearchSwitch (l : LinkId)
  | rxLock (l : LinkId) (fallback : Bool)
  | pmdConverged (l : LinkId)
  | blockLockAcquired (l : LinkId)
  | frameLockAcquired (l : LinkId)
  | trainFrameRx (l : LinkId) (rx : Rx)
  | blockLockLoss (l : LinkId)
  | frameLockLoss (l : LinkId)
  | linkBerExceeded (l : LinkId)
  | laneEnWrite (en : BitVec 2)
  | retrain (l : LinkId)
  | cntClear (l : LinkId)
  | redundancyLost (n : Node)
  | dieAbsent (port : Nat) (partnerAgrees : Bool)
  | slotTransmit (l : LinkId)
  | uncorrectableSlot (l : LinkId) (timeSlot : Bool)
  | linkctlRx (l : LinkId) (rx : Rx)
  | nakResend (l : LinkId)
  | replayFailure (l : LinkId)
  | creditReturnDue (l : LinkId)
  | linkctlKeepalive (l : LinkId)
  | degradeLimitExceeded (l : LinkId)
  | idleFrameRx (l : LinkId) (rx : Rx)
  | bulkOpenRx (l : LinkId) (rx : Rx)
  | bulkDataRx (l : LinkId) (rx : Rx)
  | bulkCloseRx (l : LinkId) (rx : Rx)
  | bulkChunkDrop (object chunk port : Nat)
  | bulkRxTimeout (n : Node) (object : Nat)
  -- Tumblers
  | tumblerCreate (slice : Nat) (binding : Nat)
  | tumblerClose (slice : Nat) (binding : Nat)
  | tumblerFree (entry : Nat)
  | portArrival (a : PortArv)
  | softwareArrive (slice : Nat)
  | heldArrivalRelease (entry : Nat)
  | readyMarkEnqueue (n : Node) (key : Nat)
  | arriveRx (l : LinkId) (rx : Rx)
  | turnRx (l : LinkId) (rx : Rx)
  | turnForward (l : LinkId) (rx : Rx)
  | waitArm (slice : Nat) (k : Nat)
  | waitTimeout (slice : Nat) (k : Nat)
  | budgetReclaim (port : Nat)
  | tumblerSnapshot (w : Word)
  -- Armed Launch
  | latencyRx (l : LinkId) (rx : Rx)
  | latencySend (l : LinkId) (tag : BitVec 24)
  | launchForward (l : LinkId) (rx : Rx)
  | launchFrameRx (l : LinkId) (rx : Rx)
  | stageResume (ctx : Nat)
  | portCapture (port : Nat) (edge : CaptureEdge) (cmdReady : Bool)
  | sliceAbortGo (w : Word)
  | abortFrameRx (l : LinkId) (rx : Rx)
  | abortDoneRx (l : LinkId) (rx : Rx)
  | abortWaitExpiry (tag : BitVec 24)
  | lpAbortAck (port : Nat)
  | engAbortLimitExpiry (port : Nat)
  -- Combining Arithmetic and the Capacity Allocator
  | resultRead (r : ResultRead)
  | rollcallAskRx (l : LinkId) (rx : Rx)
  | rollcallAnsRx (l : LinkId) (rx : Rx)
  | rollWaitExpiry (key : Nat)
  -- Schedule Images and Tree Images
  | clauseRunaway (ctx : Nat)
  | imageLoad (slice : Nat)
  | imageUnload (slice : Nat)
  | scheduleImageCurrent (slice : Nat)
  | treeImageActivate (n : Node)
  | treeWdataWrite (w : Word)
  | treeLoadCard (data : List Byte)
  -- Deadlines, Radio Slots and Serving
  | rfOffsetWrite (n : Node) (frames : Bool) (w : Word)
  | rfOffsetApply (n : Node)
  | calSelect (slice : Nat) (w : Word)
  | calWrite (slice : Nat)
  | calHold (entry : Nat)
  | calTurn (entry : Nat)
  | calDoneCheck (entry : Nat)
  | calRelease (port : Nat)
  | deadlineMiss (ctx : Nat)
  | clauseTimeout (ctx : Nat)
  | sleepEnd (ctx : Nat)
  | contextSwapDone (ok : Bool) (ns : Nat)
  | seqOrderSubmit (slice : Nat)
  | serveCommit (slice : Nat)
  | listHeaderAck (slice : Nat)
  -- Slices and Tenancy
  | orderAbort (slice : Nat) (page : Bool)
  | orderFence (slice : Nat) (page : Bool)
  | orderStop (slice : Nat) (page : Bool)
  | orderStart (slice : Nat) (page : Bool)
  | orderResume (slice : Nat) (page : Bool)
  | orderFrameRx (l : LinkId) (rx : Rx)
  | domainRequestGo (slice : Nat)
  | fenceComplete (slice : Nat)
  | crTailWrite (slice : Nat) (w : Word)
  | crConfigWrite (slice : Nat) (reg : Nat) (w : Word)
  | grantRetry (resource : Nat)
  -- Faults, Health and Recovery
  | healthRx (l : LinkId) (rx : Rx)
  | expelReqRx (l : LinkId) (rx : Rx)
  | expelGrantRx (l : LinkId) (rx : Rx)
  | expelDenyRx (l : LinkId) (rx : Rx)
  | expelLimitRx (l : LinkId) (rx : Rx)
  | expelNoticeRx (l : LinkId) (rx : Rx)
  | expelReadmitRx (l : LinkId) (rx : Rx)
  | sideWaitExpiry (child : Nat)
  | sideTakeRx (l : LinkId) (rx : Rx)
  | sideReturnDue (child : Nat)
  | sideReturnRx (l : LinkId) (rx : Rx)
  | censusListRx (l : LinkId) (rx : Rx)
  | censusFetchRx (l : LinkId) (rx : Rx)
  | censusResendRx (l : LinkId) (rx : Rx)
  | censusAnsRx (l : LinkId) (rx : Rx)
  | fetchTimeout (tag : BitVec 24) (index : Nat)
  | censusPortTimeout (port : Nat)
  | joinReqRx (l : LinkId) (rx : Rx)
  | joinAckRx (l : LinkId) (rx : Rx)
  | joinAbsentRx (l : LinkId) (rx : Rx)
  | joinRefuseRx (l : LinkId) (rx : Rx)
  | teardownRx (l : LinkId) (rx : Rx)
  | tornSend (tag : BitVec 24)
  | tornRx (l : LinkId) (rx : Rx)
  | tornWaitExpiry (tag : BitVec 24)
  | domainReleaseRx (l : LinkId) (rx : Rx)
  | domainReadyRx (l : LinkId) (rx : Rx)
  | domainOpenRx (l : LinkId) (rx : Rx)
  | domainReserve (tag : BitVec 24)
  | journalFreeze (w : Word)
  | journalRead (w : Word)
  -- Bring-Up, Fuses and Partial Reset
  | bootPhasePass (n : Node)
  | bootPhaseTimeout (n : Node)
  | powerGood (rootSel sideSel : Bool)
  | bootStageEnd (e : StageEnd) (code : Nat) (count : Nat) (detail : Word)
  | portRst (port : Nat)
  | portResetEnd (port : Nat)
  | gdPortRst (port : Nat)
  | domainRst (tag : BitVec 24)
  | rateRetryTimer (port : Nat)
  | rateRetry (port : Nat)
  | portEnWrite (port : Nat) (en : Bool)
  | scrubLine (st : Store) (key : Nat) (found : LineState)
  | rollCallRound (object : Nat)
  | bulkObjectExpiry (n : Node) (object : Nat)
  | chunkCacheExpiry (object : Nat)
  -- Firmware Update and Custody
  | cardDetect (data : List Byte)
  | fwLoadCard (data : List Byte)
  | fwActivate (acc : Access)
  | fwctlRx (l : LinkId) (rx : Rx)
  | fwCommit (acc : Access)
  | fwRevert (acc : Access)
  | keyswChange (isOpen : Bool)
  | ownerLockWrite (acc : Access) (w : Word)
  | fuseBlow (acc : Access)
  -- Register maps and pins
  | errlogPop (n : Node)
  | errlogClear (n : Node)
  | debugSnapshot (slice : Option Nat) (w : Word)
  | lowWordLatchRead (n : Node) (acc : Access) (offset : Nat)
  | registerWrite (n : Node) (acc : Access) (offset : Nat) (w : Word)
  | softSnapshot (w : Word)
  | dlatSnapshot (w : Word)
  | ringBypassWrite (v : Bool)
  | gdAbortGo (w : Word)
  | gdOrderGo (w : Word)
  | mgmtSpiTransaction (offset : Nat) (op : SpiOp)
  | resetNRelease (rootSel sideSel : Bool)
  | thermNAlarm (celsius : Int)
  | nwWriteAck (error : Bool)
  | nwReadResponse (data : List Byte) (error : Bool)
  | lpCmdTaken (port : Nat) (stamp : Int)
  | childPositionAbsent (child : Nat)
  | refPcsLockLoss (n : Nat)
  | refFreqMeasure (s : Nat) (deviationPpb : Int)
  | fwSlotWriteDone (crcOk signatureOk writeOk : Bool)
  -- Commands without operands
  -- The Time Counter
  | setCommit
  -- References, Selection and Outputs
  | takeoverWaitExpiry
  | filteredOffset
  | firstRefWaitExpiry
  | outputFirstAlign
  | outRealign
  | outRealignApply
  | rootClaim
  -- Inside the Die
  | tbusSyncSend
  | recal
  | bgRecal
  -- Tumblers
  | pmLendEvent
  -- Armed Launch
  | marginClear
  -- Combining Arithmetic and the Capacity Allocator
  | resultWaitExpiry
  | policyCommit
  | policyLoad
  -- Schedule Images and Tree Images
  | clauseLaunch
  | clauseArrive
  | clauseWait
  | clauseReduce
  | clauseScan
  | clauseAlloc
  | clauseBranch
  | clauseMark
  | clauseYield
  | clauseAbort
  | clauseEnd
  | loadBuf
  -- Deadlines, Radio Slots and Serving
  | contextSwap
  -- Slices and Tenancy
  | sliceCreate
  | sliceReset
  | sliceDestroy
  | sliceBind
  | sliceUnbind
  | filterClr
  | conflictPop
  -- Faults, Health and Recovery
  | healthDecay
  | expelWindowEnd
  | censusSlow
  | journalTriggerStop
  | journalRetrain
  -- Bring-Up, Fuses and Partial Reset
  | dieResetRelease
  | unitRst
  | chipRst
  | resetNAssert
  | watchdogExpiry
  -- Firmware Update and Custody
  | understudyBooted
  | understudyBootTimeout
  | activateCensusWait
  | commitWaitExpiry
  | heartbeatMiss
  | presencePress
  | tamperLoopBreak
  | tamperClear
  | sealArmedExpiry
  | sealMaxExpiry
  -- Register maps and pins
  | irqEventHandshake
  | healthClear
  | dieResetAssert
  | tdPorAssert
  | powerGoodFall
  deriving DecidableEq, Repr

end Sys2Proof
end

