-- ==== Sys2Proof/Decode.lean ====
section
/-! DEFINITION. The reading of a table word. The table of operations and events gives no row any bits: a
command reaches the block as an event with its operands, never as a word. -/

namespace Sys2Proof

/-- The command that a word of the table spells: none, for no row of the table has bits. -/
def decodeTableWord (_nbits _w : Nat) : Option Instr := none

end Sys2Proof
end

