-- ==== Sys2Proof/Machine/Combine.lean ====
section
/-! DEFINITION. Combining arithmetic: formats, descriptors, the fold of a TSU and of a distributor, compensated
floating sums, SCAN prefixes and the allocator's shares (R249 to R278). -/

namespace Sys2Proof

/-- A binary32 value: NaN, an infinity, or a signed magnitude in units of 2^-149, exact (R250). -/
structure Fp where
  nan : Bool
  inf : Bool
  neg : Bool
  mag : Nat
  deriving DecidableEq, Repr

/-- The canonical NaN (R250). -/
def Fp.nanV : Fp := ⟨true, false, false, 0⟩
/-- +0. -/
def Fp.zero : Fp := ⟨false, false, false, 0⟩

/-- Round a magnitude to 24 significant bits, ties to even, or to infinity (R254). -/
def Fp.round (neg : Bool) (m : Nat) : Fp :=
  let r := if m < 16777216 then m
    else
      let u := 2 ^ (Nat.log2 m - 23)
      (roundEven m u).toNat * u
  if 2 ^ 277 ≤ r then ⟨false, true, neg, 0⟩ else ⟨false, false, neg, r⟩

/-- The signed magnitude of a finite value. -/
def Fp.toInt (a : Fp) : Int := if a.neg then -(a.mag : Int) else a.mag

/-- The negated value. -/
def Fp.negate (a : Fp) : Fp := { a with neg := !a.neg }

/-- binary32 addition, rounded to nearest, ties to even (R254). -/
def Fp.add (a b : Fp) : Fp :=
  if a.nan ∨ b.nan then Fp.nanV
  else if a.inf then (if b.inf ∧ a.neg ≠ b.neg then Fp.nanV else a)
  else if b.inf then b
  else
    let s := a.toInt + b.toInt
    if s = 0 then ⟨false, false, a.neg && b.neg, 0⟩ else Fp.round (decide (s < 0)) s.natAbs

/-- The error of a rounded sum: the two-sum of R258, operation by operation. -/
def Fp.twoSumErr (a b s : Fp) : Fp :=
  let bb := s.add a.negate
  (a.add (s.add bb.negate).negate).add (b.add bb.negate)

/-- One compensated stage over its inputs in combining order, rounded once (R258). -/
def fpStage (xs : List Fp) : Fp :=
  let p := xs.foldl (fun (acc : Fp × Fp) x =>
    let s := acc.1.add x
    (s, acc.2.add (Fp.twoSumErr acc.1 x s))) (Fp.zero, Fp.zero)
  if p.1.nan ∨ p.1.inf then p.1 else p.1.add p.2

/-- The value a binary32 word holds. -/
def Fp.ofBits (v : Nat) : Fp :=
  let neg := bitOf v 31
  let e := bitsOf v 30 23
  let f := bitsOf v 22 0
  if e = 255 then (if f = 0 then ⟨false, true, neg, 0⟩ else Fp.nanV)
  else if e = 0 then ⟨false, false, neg, f⟩ else ⟨false, false, neg, (8388608 + f) * 2 ^ (e - 1)⟩

/-- The binary32 word of a value; a NaN is the canonical one. -/
def Fp.bits (a : Fp) : Nat :=
  let sign := b2n a.neg * 2147483648
  if a.nan then 0x7FC00000
  else if a.inf then sign + 0x7F800000
  else if a.mag < 8388608 then sign + a.mag
  else
    let e := Nat.log2 a.mag - 23
    sign + (e + 1) * 8388608 + (a.mag / 2 ^ e - 8388608)

/-- An order of finite and infinite values as IEEE 754, with -0 below +0 (R256). -/
def Fp.key (a : Fp) : Int :=
  let m : Int := if a.inf then 2 ^ 300 else 2 * a.mag
  if a.neg then -m - 1 else m

/-- FORMAT of an FMT byte (R249). -/
def fmtOf (fmt : Nat) : Nat := fmt % 16
/-- PARAM of an FMT byte (R249). -/
def paramOf (fmt : Nat) : Nat := fmt / 16

/-- Bytes of a lane (R249). -/
def laneBytes (fmt : Nat) : Nat :=
  match fmtOf fmt with
  | 1 => 4 | 2 => 2 | 3 => 4 | 4 => 2 | 5 => 1 | 6 => 1 | _ => 0

/-- The formats of floating values. -/
def isFloat (fmt : Nat) : Bool := 3 ≤ fmtOf fmt && fmtOf fmt ≤ 6

/-- A floating lane as a binary32 value (R250). -/
def toFp (fmt v : Nat) : Fp :=
  match fmtOf fmt with
  | 4 => Fp.ofBits (v * 65536)
  | 5 =>
    let f := v % 8
    let e := bitsOf v 6 3
    if e = 15 ∧ f = 7 then Fp.nanV
    else ⟨false, false, bitOf v 7, if e = 0 then f * 2 ^ 140 else (8 + f) * 2 ^ (e + 139)⟩
  | 6 =>
    let f := v % 4
    let e := bitsOf v 6 2
    if e = 31 then (if f = 0 then ⟨false, true, bitOf v 7, 0⟩ else Fp.nanV)
    else ⟨false, false, bitOf v 7, if e = 0 then f * 2 ^ 133 else (4 + f) * 2 ^ (e + 132)⟩
  | _ => Fp.ofBits v

/-- The canonical NaN of a format (R250). -/
def nanBits (fmt : Nat) : Nat :=
  match fmtOf fmt with
  | 3 => 0x7FC00000 | 4 => 0x7FC0 | 5 => 0x7F | 6 => 0x7E | _ => 0

/-- A lane is NaN. -/
def laneNan (fmt v : Nat) : Bool := isFloat fmt && (toFp fmt v).nan

/-- The order of a lane's values (R256). -/
def laneKey (fmt v : Nat) : Int :=
  if isFloat fmt then (toFp fmt v).key
  else if fmtOf fmt = 1 then sdiff 32 v 0 else v

/-- Result positions: lanes, HIST buckets or TOPK ranks (R251, R280). -/
def positions (op fmt lanes : Nat) : Nat :=
  match op with
  | 0x08 => 4 * (paramOf fmt + 1)
  | 0x0A => paramOf fmt
  | _ => lanes

/-- L: the length of the combined data on the wire (R251). -/
def dataLen (op fmt lanes : Nat) : Nat :=
  match op with
  | 0x00 => 0
  | 0x01 | 0x0B => if fmtOf fmt = 2 then 2 * lanes else 4 * lanes
  | 0x02 | 0x03 | 0x04 | 0x05 | 0x06 => laneBytes fmt * lanes
  | 0x07 => 4 * lanes
  | 0x08 => 16 * (paramOf fmt + 1)
  | 0x09 => 8 * lanes
  | 0x0A => 8 * paramOf fmt
  | 0x0C => 2 * lanes
  | _ => 0

/-- Bytes of the allocator part of an ALLOC result (R276). -/
def allocLen (op lanes : Nat) : Nat := if op = 0x0C then 16 + 2 * lanes else 0

/-- The combine descriptors that R251 allows. -/
def descAllowed (op fmt lanes : Nat) : Bool :=
  let f := fmtOf fmt
  let p := paramOf fmt
  let any := 1 ≤ f && f ≤ 6
  match op with
  | 0x00 => fmt = 0 && lanes = 0
  | 0x01 | 0x0B => any && p = 0 && 1 ≤ lanes && lanes ≤ (if f = 2 then 256 else 128)
  | 0x02 | 0x03 => any && p = 0 && 1 ≤ lanes && lanes ≤ 256 && laneBytes fmt * lanes ≤ 512
  | 0x04 | 0x05 | 0x06 => (f = 1 || f = 2) && p = 0 && 1 ≤ lanes && lanes ≤ 256 && laneBytes fmt * lanes ≤ 512
  | 0x07 => any && p = 0 && 1 ≤ lanes && lanes ≤ 128
  | 0x08 => f = 2 && 1 ≤ lanes && lanes ≤ 256
  | 0x09 => any && p = 0 && 1 ≤ lanes && lanes ≤ 64
  | 0x0A => any && 1 ≤ p && p ≤ 8 && 1 ≤ lanes && lanes ≤ 256
  | 0x0C => f = 2 && 1 ≤ lanes && lanes ≤ 256
  | _ => false

/-- SCAN and ALLOC keep rows and per-port parts. -/
def isScan (op : Nat) : Bool := op = 0x0B || op = 0x0C

/-- The descriptor is allowed for a tumbler of its form (R251, R252). -/
def descOk (op fmt lanes : Nat) (counted : Bool) : Bool := descAllowed op fmt lanes && !(isScan op && counted)

/-- The length an arrival's payload has in bytes, and in 8-byte beats (R253). -/
def arrivalLen (op fmt lanes : Nat) : Nat := if op = 0 then 0 else laneBytes fmt * lanes
/-- Beats of an arrival's payload (R253). -/
def arrivalBeats (op fmt lanes : Nat) : Nat := (arrivalLen op fmt lanes + 7) / 8

/-- `n` lanes of `w` bytes of a byte string (R253). -/
def lanesAt (data : List Byte) (w n : Nat) : List Nat := (List.range n).map fun i => beNat data (w * i) w

/-- Lanes packed into bytes (R253). -/
def packLanes (w : Nat) (vs : List Nat) : List Byte := vs.flatMap fun v => natBytes v w

/-- One contribution to a fold: die, participant slot and lanes. -/
structure Input where
  die   : Nat
  slot  : Nat
  data  : List Byte
  deriving DecidableEq, Repr

/-- The SUM of a lane from inputs of width `w`: wrapping, saturating or one compensated stage (R255, R258). -/
def sumLane (fmt : Nat) (vs : List Nat) : Nat :=
  if fmtOf fmt = 1 then vs.sum % 4294967296
  else if fmtOf fmt = 2 then min 0xFFFF vs.sum
  else (fpStage (vs.map (toFp fmt))).bits

/-- The identity of MIN and MAX (R256). -/
def minMaxId (isMax : Bool) (fmt : Nat) : Nat :=
  match fmtOf fmt, isMax with
  | 1, false => 0x7FFFFFFF | 2, false => 0xFFFF | 3, false => 0x7F800000 | 4, false => 0x7F80 | 5, false => 0x7E
  | 6, false => 0x7C
  | 1, true => 0x80000000 | 2, true => 0 | 3, true => 0xFF800000 | 4, true => 0xFF80 | 5, true => 0xFE
  | 6, true => 0xFC
  | _, _ => 0

/-- MIN or MAX of a lane (R256). -/
def minMaxLane (isMax : Bool) (fmt : Nat) (vs : List Nat) : Nat :=
  if vs.any (laneNan fmt) then nanBits fmt
  else vs.foldl (fun m v => if (if isMax then laneKey fmt m < laneKey fmt v else laneKey fmt v < laneKey fmt m) then v else m)
    (minMaxId isMax fmt)

/-- A bitwise operation over a lane (R256). -/
def bitLane (op : Nat) (w : Nat) (vs : List Nat) : Nat :=
  match op with
  | 0x04 => vs.foldl (· &&& ·) (256 ^ w - 1)
  | 0x05 => vs.foldl (· ||| ·) 0
  | _ => vs.foldl (· ^^^ ·) 0

/-- VALUE of a pair (R251). -/
def pairValue (fmt v : Nat) : Nat := if isFloat fmt then (toFp fmt v).bits else v
/-- The format in which VALUE stands: a binary32 for floating formats. -/
def pairFmt (fmt : Nat) : Nat := if isFloat fmt then 3 else fmtOf fmt
/-- The identity pair (R256). -/
def pairId (fmt : Nat) : Nat × Nat :=
  (if isFloat fmt then 0xFF800000 else if fmtOf fmt = 1 then 0x80000000 else 0, 0xFFFFFFFF)

/-- A pair ranks before another: greater VALUE, or equal and lower INDEX (R257). -/
def pairBefore (fmt : Nat) (a b : Nat × Nat) : Bool :=
  laneKey (pairFmt fmt) b.1 < laneKey (pairFmt fmt) a.1 ||
    (laneKey (pairFmt fmt) a.1 = laneKey (pairFmt fmt) b.1 && a.2 < b.2)

/-- Insert a pair into a ranking. -/
def insertPair (fmt : Nat) (p : Nat × Nat) : List (Nat × Nat) → List (Nat × Nat)
  | [] => [p]
  | q :: t => if pairBefore fmt p q then p :: q :: t else q :: insertPair fmt p t

/-- The first `k` of candidate pairs in rank order, filled with the identity (R257). -/
def rankPairs (fmt k : Nat) (ps : List (Nat × Nat)) : List (Nat × Nat) :=
  let r := (ps.foldl (fun l p => insertPair fmt p l) []).take k
  r ++ List.replicate (k - r.length) (pairId fmt)

/-- Pairs packed into bytes. -/
def packPairs (ps : List (Nat × Nat)) : List Byte := ps.flatMap fun p => natBytes p.1 4 ++ natBytes p.2 4

/-- The pair at an index of packed pairs. -/
def pairAt (data : List Byte) (i : Nat) : Nat × Nat := (beNat data (8 * i) 4, beNat data (8 * i + 4) 4)

/-- The values of lane `i` over inputs whose lanes are `w` bytes wide. -/
def column (w : Nat) (xs : List Input) (i : Nat) : List Nat := xs.map fun x => beNat x.data (w * i) w

/-- The partial a TSU folds from its participants' payloads, in combining order (R251 to R261). Inputs without data
contribute nothing. -/
def foldTsu (op fmt lanes : Nat) (all : List Input) : List Byte :=
  let xs := all.filter fun x => !x.data.isEmpty
  let w := laneBytes fmt
  let n := List.range lanes
  match op with
  | 0x01 | 0x0B => packLanes (if fmtOf fmt = 2 then 2 else 4) (n.map fun i => sumLane fmt (column w xs i))
  | 0x0C => packLanes 2 (n.map fun i => min 0xFFFF (column 2 xs i).sum)
  | 0x02 => packLanes w (n.map fun i => minMaxLane false fmt (column w xs i))
  | 0x03 => packLanes w (n.map fun i => minMaxLane true fmt (column w xs i))
  | 0x04 | 0x05 | 0x06 => packLanes w (n.map fun i => bitLane op w (column w xs i))
  | 0x07 => packLanes 4 (n.map fun i =>
      min 0xFFFFFFFF ((column w xs i).filter fun v => !(if isFloat fmt then (!(toFp fmt v).nan && !(toFp fmt v).inf
        && (toFp fmt v).mag = 0) else v = 0)).length)
  | 0x08 =>
    let b := 4 * (paramOf fmt + 1)
    let samples := (xs.flatMap fun x => lanesAt x.data 2 lanes).filter fun v => v ≠ 0xFFFF
    packLanes 4 ((List.range b).map fun k => min 0xFFFFFFFF (samples.filter fun v => min v (b - 1) = k).length)
  | 0x09 => packPairs (n.flatMap fun i => rankPairs fmt 1 ((xs.filter fun x => !laneNan fmt (beNat x.data (w * i) w)).map
      fun x => (pairValue fmt (beNat x.data (w * i) w), x.die * 64 + x.slot)))
  | 0x0A => packPairs (rankPairs fmt (paramOf fmt) (xs.flatMap fun x => ((n.filter fun i =>
      !laneNan fmt (beNat x.data (w * i) w)).map fun i => (pairValue fmt (beNat x.data (w * i) w),
        (x.die * 64 + x.slot) * 256 + i))))
  | _ => []

/-- The partial a distributor folds from its children's, in combining order (R258, R262). -/
def foldGd (op fmt lanes : Nat) (parts : List (List Byte)) : List Byte :=
  let xs : List Input := parts.map fun d => ⟨0, 0, d⟩
  let w := laneBytes fmt
  let n := List.range lanes
  let addSat : Nat → List Byte := fun k => packLanes 4 ((List.range k).map fun i => min 0xFFFFFFFF (column 4 xs i).sum)
  match op with
  | 0x01 | 0x0B => if fmtOf fmt = 2 then packLanes 2 (n.map fun i => sumLane 2 (column 2 xs i))
      else packLanes 4 (n.map fun i => sumLane (if isFloat fmt then 3 else 1) (column 4 xs i))
  | 0x0C => packLanes 2 (n.map fun i => min 0xFFFF (column 2 xs i).sum)
  | 0x02 => packLanes w (n.map fun i => minMaxLane false fmt (column w xs i))
  | 0x03 => packLanes w (n.map fun i => minMaxLane true fmt (column w xs i))
  | 0x04 | 0x05 | 0x06 => packLanes w (n.map fun i => bitLane op w (column w xs i))
  | 0x07 => addSat lanes
  | 0x08 => addSat (4 * (paramOf fmt + 1))
  | 0x09 => packPairs (n.flatMap fun i => rankPairs fmt 1 (parts.map fun d => pairAt d i))
  | 0x0A => packPairs (rankPairs fmt (paramOf fmt) (parts.flatMap fun d =>
      (List.range (min (paramOf fmt) (d.length / 8))).map (pairAt d)))
  | _ => []

/-- The format in which a SUM result stands on the wire (R251). -/
def sumFmt (fmt : Nat) : Nat := if fmtOf fmt = 2 then 2 else if isFloat fmt then 3 else 1
/-- Bytes of a SUM result lane. -/
def sumBytes (fmt : Nat) : Nat := if fmtOf fmt = 2 then 2 else 4

/-- One addition of two SUM results, lane by lane (R270). -/
def addResults (fmt lanes : Nat) (a b : List Byte) : List Byte :=
  let w := sumBytes fmt
  packLanes w ((List.range lanes).map fun i =>
    let x := beNat a (w * i) w
    let y := beNat b (w * i) w
    if isFloat fmt then ((Fp.ofBits x).add (Fp.ofBits y)).bits else sumLane (sumFmt fmt) [x, y])

/-- Rows sorted by participant slot. -/
def insertSlot (x : Input) : List Input → List Input
  | [] => [x]
  | y :: t => if x.slot < y.slot then x :: y :: t else y :: insertSlot x t

/-- The prefix of participant `slot`: the lower slots' contributions as one stage, combined with the die's base by
one addition (R270). -/
def scanPrefix (op fmt lanes : Nat) (rows : List Input) (base : Option (List Byte)) (slot : Nat) : List Byte :=
  let lower := (rows.filter fun r => r.slot < slot).foldl (fun l r => insertSlot r l) []
  let own := foldTsu (if op = 0x0C then 0x0C else 0x0B) fmt lanes lower
  match base with
  | some b => addResults (if op = 0x0C then 2 else fmt) lanes b own
  | none => own

/-- Accepted counts of a policy over the loads (R275): capacities are 0 where the policy does not fit. -/
def allocAccept (rule experts : Nat) (caps loads : List Nat) (ok : Bool) : List Nat :=
  let cap : Nat → Nat := fun e => if ok then caps.getD e 0 else 0
  if rule = 1 ∧ ok then
    let a1 := (List.range experts).map fun e => min (loads.getD e 0) (cap e)
    a1 ++ (List.range experts).map fun e => min (loads.getD (experts + e) 0) (cap e - a1.getD e 0)
  else (List.range loads.length).map fun e => min (loads.getD e 0) (cap e)

/-- Quota and offset of a participant with count `c` and prefix `p` in lane `j` (R277). -/
def allocShare (rule experts : Nat) (acc : List Nat) (c p j : Nat) : Nat × Nat :=
  let a := acc.getD j 0
  let q := min c (a - p)
  if rule = 1 ∧ experts ≤ j then (q, acc.getD (j - experts) 0 + min p a) else (q, min p a)

end Sys2Proof
end

