-- ==== Sys2Proof/Machine/Rs.lean ====
section
/-! DEFINITION. The check of a frame and of a store line: the shortened RS(255,251) code of R164 with its
decoder (R165), and the poison pattern of R167. -/

namespace Sys2Proof.Machine

open Sys2Proof

/-- Multiply a field element by the generator element 0x02 (R164). -/
def gfDouble (a : Byte) : Byte :=
  if a.getLsbD 7 then (a <<< 1) ^^^ 0x1D#8 else a <<< 1

/-- The product in GF(2^8) modulo x^8 + x^4 + x^3 + x^2 + 1 (R164). -/
def gfMul (a b : Byte) : Byte :=
  (List.range 8).foldr (fun i acc => (if b.getLsbD i then a else 0) ^^^ gfDouble acc) 0

/-- The four check bytes while a byte is shifted in: the remainder modulo g(x) (R164). -/
def rsStep (r : Byte × Byte × Byte × Byte) (d : Byte) : Byte × Byte × Byte × Byte :=
  let f := d ^^^ r.1
  (r.2.1 ^^^ gfMul f 0x0F, r.2.2.1 ^^^ gfMul f 0x36, r.2.2.2 ^^^ gfMul f 0x78, gfMul f 0x40)

/-- Bytes 60 to 63 of a frame or line: the remainder of its 60 bytes times x^4 (R164). -/
def rsCheck (l : List Byte) : List Byte :=
  let r := l.foldl rsStep (0, 0, 0, 0)
  [r.1, r.2.1, r.2.2.1, r.2.2.2]

/-- The 64 bytes of a line with its check (R164). -/
def rsLine (l : List Byte) : List Byte := padTo 60 l ++ rsCheck (padTo 60 l)

/-- The check bytes with the poison pattern of R167. -/
def poisonCheck (l : List Byte) : List Byte := (rsCheck l).map (· ^^^ 0xA5#8)

/-- The field element α^n (R164). -/
def gfPow : Nat → Byte
  | 0 => 1
  | n + 1 => gfDouble (gfPow n)

/-- The inverse of a field element that is not 0: its 254th power. -/
def gfInv (a : Byte) : Byte := (List.range 7).foldr (fun _ acc => gfMul (gfMul acc acc) a) 1 |> fun b => gfMul b b

/-- A syndrome of 64 symbols: their polynomial at α^j (R164). -/
def rsSyndrome (l : List Byte) (j : Nat) : Byte := l.foldl (fun acc b => gfMul acc (gfPow j) ^^^ b) 0

/-- The four syndromes of 64 symbols. -/
def rsSyndromes (l : List Byte) : Byte × Byte × Byte × Byte :=
  (rsSyndrome l 0, rsSyndrome l 1, rsSyndrome l 2, rsSyndrome l 3)

/-- The locator of byte i of a line, α^(63 − i) (R164). -/
def rsLocator (i : Nat) : Byte := gfPow (63 - i)

/-- One error at byte i explains the syndromes. -/
def rsOne (s : Byte × Byte × Byte × Byte) (i : Nat) : Bool :=
  let x := rsLocator i
  s.1 ≠ 0 && s.2.1 = gfMul s.1 x && s.2.2.1 = gfMul s.2.1 x && s.2.2.2 = gfMul s.2.2.1 x

/-- Two errors at bytes i and j explain the syndromes. -/
def rsTwo (s : Byte × Byte × Byte × Byte) (i j : Nat) : Bool :=
  let sum := rsLocator i ^^^ rsLocator j
  let prod := gfMul (rsLocator i) (rsLocator j)
  s.2.2.1 = gfMul s.2.1 sum ^^^ gfMul s.1 prod && s.2.2.2 = gfMul s.2.2.1 sum ^^^ gfMul s.2.1 prod

/-- The errors of at most two symbols, none among the shortened ones, that have given syndromes (R165); none where the
line is uncorrectable. -/
def rsErrors (s : Byte × Byte × Byte × Byte) : Option (List (Nat × Byte)) :=
  if s = (0, 0, 0, 0) then some []
  else match (List.range 64).find? (rsOne s) with
    | some i => some [(i, s.1)]
    | none => match ((List.range 64).flatMap fun j => (List.range j).map fun i => (i, j)).find? fun p => rsTwo s p.1 p.2 with
      | some (i, j) =>
        let e := gfMul (s.2.1 ^^^ gfMul s.1 (rsLocator i)) (gfInv (rsLocator i ^^^ rsLocator j))
        some [(i, s.1 ^^^ e), (j, e)]
      | none => none

/-- The 64 bytes that a list of byte differences stands for. -/
def noiseBytes (l : List (Nat × Byte)) : List Byte :=
  (List.range 64).map fun i => l.foldl (fun acc p => if p.1 = i then acc ^^^ p.2 else acc) 0

/-- The difference that makes a copy poison (R167). -/
def poisonNoise : List (Nat × Byte) := [(60, 0xA5), (61, 0xA5), (62, 0xA5), (63, 0xA5)]

/-- A 64-byte line checks when its last four bytes are the remainder of its first 60. -/
def rsGood (l : List Byte) : Bool := l.length = 64 && rsCheck (l.take 60) = l.drop 60

end Sys2Proof.Machine
end

