-- ==== Sys2Proof/Config.lean ====
section
/-! DEFINITION. What the spec fixes as numbers, the error codes of the shared table (R214, R216 and the
later chapters' tables), and the free values: opaque constants about which nothing can be proved. -/

namespace Sys2Proof

/-- The error codes of R216, R248, R286, R325, R356, R382, R411, R433 and R452. -/
inductive ErrCode where
  | none
  | overflow | underflow | genSkip | noTumbler | notParticipant | arriveInvalid | arriveHeld | nameInUse
  | tumblerClosed | waitFull | waitTimeout | domainStale
  | farTime | timeInvalid | timeOffset | timeStepRefused | timeUnqualified | timeLoss | pathChanged
  | refLost | refFar | refAllLost | outMisaligned | rootTakeover | rootSplit | rootElected
  | tbusLost | tbusCal | repeaterSlip | repeaterFail | fchgRefused | regionGated | fenceMiss | fenceHung
  | rateFallback | archMismatch | linkDown | linkBer | linkDegraded | redundancyLost | frameMalformed
  | stepWindow | lseqWindow | bulkDrop | memberAbsent
  | topologyMismatch
  | noPort | launchLate | launchDropped | stageWait | armFull | queueStall | aborted | abortOverrun | dlatInvalid
  | combineUnsupported | scanStoreFull | combineMismatch | resultIncomplete | allocPolicy | carryFull
  | predNoResult | rollEvict
  | imageRefused | clauseFault | clauseRunaway | roleVariant | imageLate
  | slotMissed | deadlineMiss | radioMiss | calInvalid | calFull | ctxFull | swapFault | seqFull | seqInvalid
  | seqLate | listLate | inherit
  | sliceStale | busy | poolEmpty | sliceState | orderLost | pasidInUse | bindRefused | ringOverflow
  | dlogOverflow | accessDenied
  | expelled | expelLimit | suspect | censusStart | censusSlow | turnFetched | detourUnattributed | topLost
  | joinRefused | domainWait | straggler | sideMoved | journalFault
  | bootFail | stageDegraded | fusedPort | portReset | storeUncorr | bulkIncomplete
  | custodyRequired | fwActivated | fwRollback | settingsReset | tamper | sealTimeout | fwBusy | fwSlotFault
  deriving DecidableEq, Repr

/-- The 16-bit value of a code: group in [15:8], number in [7:0] (R214). -/
def ErrCode.value : ErrCode → Nat
  | .none => 0
  | .overflow => 0x0101 | .underflow => 0x0102 | .genSkip => 0x0103 | .noTumbler => 0x0104
  | .notParticipant => 0x0105 | .arriveInvalid => 0x0106 | .arriveHeld => 0x0107 | .nameInUse => 0x0108
  | .tumblerClosed => 0x0109 | .waitFull => 0x010A | .waitTimeout => 0x010B | .domainStale => 0x010C
  | .farTime => 0x0201 | .timeInvalid => 0x0202 | .timeOffset => 0x0203 | .timeStepRefused => 0x0204
  | .timeUnqualified => 0x0205 | .timeLoss => 0x0206 | .pathChanged => 0x0207
  | .refLost => 0x0301 | .refFar => 0x0302 | .refAllLost => 0x0303 | .outMisaligned => 0x0304
  | .rootTakeover => 0x0305 | .rootSplit => 0x0306 | .rootElected => 0x0307
  | .tbusLost => 0x0401 | .tbusCal => 0x0402 | .repeaterSlip => 0x0403 | .repeaterFail => 0x0404
  | .fchgRefused => 0x0405 | .regionGated => 0x0406 | .fenceMiss => 0x0407 | .fenceHung => 0x0408
  | .rateFallback => 0x0501 | .archMismatch => 0x0502 | .linkDown => 0x0503 | .linkBer => 0x0504
  | .linkDegraded => 0x0505 | .redundancyLost => 0x0506 | .frameMalformed => 0x0507 | .stepWindow => 0x0508
  | .lseqWindow => 0x0509 | .bulkDrop => 0x050A | .memberAbsent => 0x050B
  | .topologyMismatch => 0x0601
  | .noPort => 0x0701 | .launchLate => 0x0702 | .launchDropped => 0x0703 | .stageWait => 0x0704
  | .armFull => 0x0705 | .queueStall => 0x0706 | .aborted => 0x0707 | .abortOverrun => 0x0708
  | .dlatInvalid => 0x0709
  | .combineUnsupported => 0x0801 | .scanStoreFull => 0x0802 | .combineMismatch => 0x0803
  | .resultIncomplete => 0x0804 | .allocPolicy => 0x0805 | .carryFull => 0x0806 | .predNoResult => 0x0807
  | .rollEvict => 0x0808
  | .imageRefused => 0x0901 | .clauseFault => 0x0902 | .clauseRunaway => 0x0903 | .roleVariant => 0x0904
  | .imageLate => 0x0905
  | .slotMissed => 0x0A01 | .deadlineMiss => 0x0A02 | .radioMiss => 0x0A03 | .calInvalid => 0x0A04
  | .calFull => 0x0A05 | .ctxFull => 0x0A06 | .swapFault => 0x0A07 | .seqFull => 0x0A08
  | .seqInvalid => 0x0A09 | .seqLate => 0x0A0A | .listLate => 0x0A0B | .inherit => 0x0A0C
  | .sliceStale => 0x0B01 | .busy => 0x0B02 | .poolEmpty => 0x0B03 | .sliceState => 0x0B04
  | .orderLost => 0x0B05 | .pasidInUse => 0x0B06 | .bindRefused => 0x0B07 | .ringOverflow => 0x0B08
  | .dlogOverflow => 0x0B09 | .accessDenied => 0x0B0A
  | .expelled => 0x0C01 | .expelLimit => 0x0C02 | .suspect => 0x0C03 | .censusStart => 0x0C04
  | .censusSlow => 0x0C05 | .turnFetched => 0x0C06 | .detourUnattributed => 0x0C07 | .topLost => 0x0C08
  | .joinRefused => 0x0C09 | .domainWait => 0x0C0A | .straggler => 0x0C0B | .sideMoved => 0x0C0C
  | .journalFault => 0x0C0D
  | .bootFail => 0x0D01 | .stageDegraded => 0x0D02 | .fusedPort => 0x0D03 | .portReset => 0x0D04
  | .storeUncorr => 0x0D05 | .bulkIncomplete => 0x0D06
  | .custodyRequired => 0x0E01 | .fwActivated => 0x0E02 | .fwRollback => 0x0E03 | .settingsReset => 0x0E04
  | .tamper => 0x0E05 | .sealTimeout => 0x0E06 | .fwBusy => 0x0E07 | .fwSlotFault => 0x0E08

/-- The group of a code (R214). -/
def ErrCode.group (c : ErrCode) : Nat := c.value / 256

/-- The addend's bounds and nominal value in units of 2^-32 ns per tick (R42, R45). -/
def addendMin : Nat := 0x1FFF2E48F
def addendNominal : Nat := 0x200000000
def addendMax : Nat := 0x2000D1B71

/-- Free value: the addend that the PI loop of R104 asks for in LOCKED; the spec gives the loop's time
constant and its clamp, not its gains. -/
opaque Config.rootLoopAddend : Nat → Int
/-- Free value: the addend that the slew of R105, the ramp of R108 and R109, or the frequency steering asks for
on a tick, within the limits those rules state. -/
opaque Config.rootSlewAddend : Nat → Int

/-- Free value: the position, in ps, of the slot boundaries that a distributor with a selected upstream takes from it
(R220), and of the time slot among them; the state holds no phase. -/
opaque Config.slotPhase : Nat → Nat
/-- Free value: CODE of the HEALTH frame that an entry to WITHDRAWN sends (R400); no error code is recorded for it. -/
opaque Config.withdrawnCode : Nat
/-- Free value: JKIND of the journal record of a seal state change (R446); R407 lists none for it. -/
opaque Config.sealKind : Nat
/-- Free value: BODY of the journal record with this RECNO where no frame triggered the record: R407 gives the triggering
frame's bytes alone. -/
opaque Config.noFrameBody : Nat → List Byte
/-- Free value: T_NS32 of the SEQ or SLOT record of a lost store line (R428): no step or slot gives it a T. -/
opaque Config.lostT : Nat → BitVec 32
/-- Free value: DETAIL of the SLOT record of a lost calendar line (R428): no slot gives it SFN, slot and cause. -/
opaque Config.lostDetail : Nat → BitVec 32
/-- Free value: the lane that detail of ONE_RESULT_INCOMPLETE names where the bytes read belong to no lane (R266, R469). -/
opaque Config.noLane : Nat → Nat
/-- Free value: whether the signature over a TSU microcode object is good (R431): the spec gives the scheme, not the key. -/
opaque Config.signatureGood : List Byte → Bool
/-- Free value: SRAM_KIB of a distributor with this many rows beyond the spares (R475): the spec does not give the size of a row. -/
opaque Config.sramKib : Nat → Nat
/-- Free value: which of the 50 slots from the counter's zero is the time slot at a distributor without a selected
upstream (R67, R219). -/
opaque Config.timeSlot : Nat

end Sys2Proof
end

