-- ==== Sys2Proof/Machine/State.lean ====
section
/-! DEFINITION. The machine's state: every register, counter, store, queue and pin the spec gives one TSU-A1
and one Gapra distributor, with the queue of waiting commands, the faults and refusals, and the state after
reset. -/

namespace Sys2Proof.Machine

open Sys2Proof

/-! ## Time -/

/-- The time-quality states of R54. -/
inductive TQ where
  | unset | loc | acquiring | qualified | settling | flywheel | withdrawn
  deriving DecidableEq, Repr

/-- The codes of R54. -/
def TQ.code : TQ → Nat
  | .unset => 0 | .loc => 1 | .acquiring => 2 | .qualified => 3 | .settling => 4 | .flywheel => 5 | .withdrawn => 6

/-- A sender's quality as R69 carries it; `none` is 0b00, which is never sent and is read as UNQUALIFIED. -/
inductive Quality where
  | none | qualified | unqualified | withdrawn
  deriving DecidableEq, Repr

/-- The codes of R65 for UPSTREAM_TQ. -/
def Quality.code : Quality → Nat
  | .none => 0 | .qualified => 1 | .unqualified => 2 | .withdrawn => 3

/-- The rank of R82: 0 is best. -/
def Quality.rank : Quality → Nat
  | .qualified => 0 | .unqualified => 1 | .none => 1 | .withdrawn => 2

/-- MODE of the servo status (R90). -/
inductive ServoMode where
  | idle | slew | track | hold
  deriving DecidableEq, Repr

/-- The codes of R90. -/
def ServoMode.code : ServoMode → Nat
  | .idle => 0 | .slew => 1 | .track => 2 | .hold => 3

/-- The fields a node copies from its selected source into its own time frames (R85). -/
structure TimeInfo where
  traceable : Bool
  leap61    : Bool
  leap59    : Bool
  utcValid  : Bool
  utcOffset : BitVec 16
  utcNext   : BitVec 16
  leapAt    : Time80
  rootId    : Nat
  deriving DecidableEq, Repr

/-- All fields clear. -/
def TimeInfo.zero : TimeInfo := ⟨false, false, false, false, 0, 0, Time80.zero, 0⟩

/-- A time domain: the counter, its servo and its status (R36 to R65, R79 to R85). -/
structure TimeDom where
  /-- the counter, R36 and R38 -/
  counter   : Time80
  /-- units of 2^-32 ns per tick, R42 -/
  addend    : Nat
  /-- the last value written to TSU_TIME_ADDEND w0, R65 -/
  addendW0  : Word
  tq        : TQ
  launchOk  : Bool
  stepped   : Bool
  /-- STANDALONE of TSU_TIME_CFG, R64; always false in a distributor -/
  standalone : Bool
  /-- the selected time source: TSU lane, or port page of the distributor, R82 -/
  sel       : Option Nat
  upTq      : Quality
  epoch     : BitVec 8
  /-- the latest offset in units of 2^-16 ns, R54 -/
  offset    : Int
  /-- the signed size of the last step in units of 2^-32 ns, R44 -/
  lastStep  : Int
  info      : TimeInfo
  /-- the servo's integral in units of 2^-48 ns per period, R79 -/
  integ     : Int
  mode      : ServoMode
  switches  : Nat
  pllLocked : Bool
  /-- the counter at the entry to FLYWHEEL, R58 -/
  flyAt     : Option Time80
  /-- consecutive time frames within, and out of, QUAL_LIMIT, R55 and R56 -/
  inLimit   : Nat
  outLimit  : Nat
  /-- ns counted by the always-on clock, R215 -/
  aon       : Nat
  /-- the lane last selected, which SEL_LANE shows, R65 -/
  selLane   : Nat
  /-- HOPS of the last time frame sent, R90 -/
  hopsSent  : Nat
  /-- a SET_COMMIT written with TDRESET, due on the following tick, R65 -/
  commitDue : Bool
  /-- EPOCH was taken at a lock or raised by RESTEP since power-on, R48, R110 -/
  epochSet  : Bool
  deriving DecidableEq, Repr

/-- The time domain at its power-on (R65). -/
def TimeDom.reset : TimeDom :=
  { counter := Time80.zero, addend := addendNominal, addendW0 := 0, tq := .unset, launchOk := false,
    stepped := false, standalone := false, sel := none, upTq := .none, epoch := 0, offset := 0, lastStep := 0,
    info := TimeInfo.zero, integ := 0, mode := .idle, switches := 0, pllLocked := true,
    flyAt := none, inLimit := 0, outLimit := 0, aon := 0, selLane := 0, hopsSent := 0, commitDue := false,
    epochSet := false }

/-- A received time frame kept for the echo (R74). Stamps are in units of 2^-16 ns. -/
structure EchoRx where
  tseq : BitVec 8
  /-- NS32 and fraction of its departure, modulo 2^48 -/
  tx   : Nat
  /-- its arrival stamp on this end's counter -/
  rx   : Int
  deriving DecidableEq, Repr

/-- A departure stamp of a time frame sent (R75), modulo 2^48. -/
structure SentStamp where
  tseq : BitVec 8
  tx   : Nat
  /-- the always-on instant it left -/
  aon  : Nat
  deriving DecidableEq, Repr

/-- The time-transfer state of one lane or port (R73 to R90). -/
structure TimeSrc where
  timeOk      : Bool
  delayValid  : Bool
  /-- the measurement has completed at least once since the link last trained, R81 -/
  measured    : Bool
  lost        : Bool
  /-- lost for time since the link last trained, and not measured anew: untrained for time, R78 -/
  away        : Bool
  senderTq    : Quality
  senderEpoch : BitVec 8
  senderHops  : Nat
  exchDrop    : Nat
  /-- mean path delay in units of 2^-17 ns, exact, R77 -/
  mean        : Dy
  /-- the mean of the last measurement, kept for the comparison of R88 -/
  oldMean     : Option Dy
  /-- latest offset of this source, units of 2^-16 ns, R76 -/
  theta       : Int
  /-- valid exchanges in the measurement that runs, the sum of their delays in units of 2^-17 ns, and the first
  offset, R77, R79 -/
  count       : Nat
  sum         : Int
  thetaFirst  : Int
  /-- the frequency error over the last measurement, in units of 2^-48 ns per period, R79 -/
  freqErr     : Int
  /-- consecutive exchanges the gate discarded, R77 -/
  gated       : Nat
  /-- consecutive periods of better quality than the current source, R82 -/
  better      : Nat
  /-- always-on instant of the last valid time frame, or of training, R78 -/
  lastValid   : Nat
  /-- the latest time frames received complete and checked, newest first, R74 -/
  rxs         : List EchoRx
  sent        : List SentStamp
  tseq        : BitVec 8
  info        : TimeInfo
  /-- declared asymmetry A in ps, R76 -/
  asym        : Int
  /-- corrections in ps at full and fallback rate: the fused path of a TSU lane, or a port's calibration, R73 -/
  corrTx0 : Nat
  corrRx0 : Nat
  corrTx1 : Nat
  corrRx1 : Nat
  deriving DecidableEq, Repr

/-- A lane or port at power-on of its time domain (R90); the sequence number and the corrections are this
model's choice. -/
def TimeSrc.reset : TimeSrc :=
  { timeOk := false, delayValid := false, measured := false, lost := false, away := false, senderTq := .none, senderEpoch := 0,
    senderHops := 0, exchDrop := 0, mean := Dy.zero, oldMean := none, theta := 0, count := 0, sum := 0,
    thetaFirst := 0, freqErr := 0, gated := 0, better := 0, lastValid := 0, rxs := [], sent := [], tseq := 0,
    info := TimeInfo.zero, asym := 0, corrTx0 := 0, corrRx0 := 0, corrTx1 := 0, corrRx1 := 0 }

/-! ## References and outputs -/

/-- The states of R98. -/
inductive RefState where
  | absent | qualifying | qualified | failed
  deriving DecidableEq, Repr

/-- The codes of R98 in GD_REF_STATUS (R478). -/
def RefState.code : RefState → Nat
  | .absent => 0 | .qualifying => 1 | .qualified => 2 | .failed => 3

/-- A PTP master heard on an Ethernet time port: the clockClass and the rank in the alternate BMCA of its last Announce,
and the always-on instant of that message (R96). -/
structure Master where
  cls  : Nat
  rank : Nat
  seen : Nat
  deriving DecidableEq, Repr

/-- One reference source of R99, 1 to 8. -/
structure RefSrc where
  state     : RefState
  far       : Bool
  /-- always-on instant since which no loss or fault was seen, R98 -/
  okSince   : Nat
  /-- always-on instant at which it last became QUALIFIED, for the WTR of R100 -/
  qualAt    : Nat
  /-- always-on instant of the last edge, message or Sync, and of the last Announce or ESMC, R97 -/
  lastSeen  : Nat
  lastAnn   : Nat
  /-- counter stamps of the last accepted edge and of the last edge of all in units of 2^-16 ns, and the second last
  named, R95, R97 -/
  lastEdge  : Option Int
  lastPulse : Option Int
  lastSec   : Option Nat
  /-- consecutive valid seconds, R110 -/
  goodSecs  : Nat
  /-- offsets of the current second, their number, and the last filtered offset, R103 -/
  sum       : Int
  num       : Nat
  filtered  : Option Int
  /-- measured deviation from the counter rate in ppb, and the addend that matches the entry's rate, R97, R108 -/
  devPpb    : Int
  rate      : Option Nat
  /-- clockClass of the master chosen, R96 -/
  classRx   : Nat
  /-- the masters heard on the port, by identity, and the one the BMCA chose, R96 -/
  masters   : Tab Master
  chosen    : Option Nat
  /-- QL-DNU received last, and PCS lock lost, R97 -/
  dnu       : Bool
  pcsLost   : Bool
  deriving DecidableEq, Repr

/-- A source that nothing has been heard from. -/
def RefSrc.reset : RefSrc :=
  { state := .absent, far := false, okSince := 0, qualAt := 0, lastSeen := 0, lastAnn := 0, lastEdge := none,
    lastPulse := none, lastSec := none, goodSecs := 0, sum := 0, num := 0, filtered := none, devPpb := 0, rate := none, classRx := 0xFF,
    masters := [], chosen := none, dnu := false, pcsLost := false }

/-- RSTATE of R104. -/
inductive RState where
  | start | pulling | locked | freqLock | freeRun | follow
  deriving DecidableEq, Repr

/-- The codes of GD_SEL_STATUS (R478). -/
def RState.code : RState → Nat
  | .start => 0 | .pulling => 1 | .locked => 2 | .freqLock => 3 | .freeRun => 4 | .follow => 5

/-- What the selector and the reference state held when the tick of the always-on clock began, so that events of one
tick are judged together (R101). -/
structure RefHold where
  aon       : Nat
  timeEntry : Option Nat
  freqEntry : Option Nat
  rstate    : RState
  inRow     : Nat
  outRow    : Nat
  tracked   : Nat
  traceAt   : Nat
  allLost   : Bool
  /-- entries whose WTR ended in the tick -/
  wtrs      : List Nat
  deriving DecidableEq, Repr

/-- The reference selector and the time root (R91 to R120). -/
structure RefSel where
  srcs      : Tab RefSrc
  /-- index into the priority table of the current time and frequency entry -/
  timeEntry : Option Nat
  freqEntry : Option Nat
  /-- always-on instant at which an entry's WTR was restarted by a write, R101 -/
  wtrFrom   : Tab Nat
  rstate    : RState
  isRoot    : Bool
  elected   : Bool
  allLost   : Bool
  /-- consecutive filtered offsets within, and out of, 5 ns, R104 -/
  inRow     : Nat
  outRow    : Nat
  offset    : Int
  /-- the addend of the tracked frequency, the ramp's fraction and its target, R105, R108, R109 -/
  tracked   : Nat
  rampAcc   : Nat
  /-- traceable at some time in this lifetime, and the always-on instant at which it was lost, R111 -/
  everTrace : Bool
  traceAt   : Nat
  /-- always-on instants of power-good, of the loss of the partner link, and of the own upstream loss -/
  powerAt   : Nat
  partnerLostAt : Option Nat
  upLostAt  : Option Nat
  /-- clockClass last sent on each Ethernet port (GD_PTP_STATUS) -/
  classTx   : Tab Nat
  /-- the selection at the beginning of the tick, R101 -/
  hold      : Option RefHold
  deriving DecidableEq, Repr

/-- The selector before any reference is seen. -/
def RefSel.reset : RefSel :=
  { srcs := [], timeEntry := none, freqEntry := none, wtrFrom := [], rstate := .start, isRoot := false,
    elected := false, allLost := false, inRow := 0, outRow := 0, offset := 0, tracked := addendNominal,
    rampAcc := 0, everTrace := false, traceAt := 0, powerAt := 0, partnerLostAt := none, upLostAt := none,
    classTx := [], hold := none }

/-- A PTP, Announce and ESMC message set a MASTER port sent, or its answer to a Delay_Req (R96, R111). -/
structure PtpSent where
  port   : Nat
  /-- a Delay_Resp, not Sync, Announce and ESMC -/
  resp   : Bool
  /-- none: no Sync or Announce is sent -/
  class? : Option Nat
  esmc   : EsmcLevel
  time   : Time80
  deriving DecidableEq, Repr

/-- The output timebase and the three timing outputs (R113 to R115, R479). -/
structure Outputs where
  /-- counter minus timebase in units of 2^-32 ns -/
  misalign : Int
  aligned  : Bool
  /-- the counter at the OUT_REALIGN write -/
  orderAt  : Option Time80
  /-- the counter when the first alignment fell due: an output enabled and STEPPED = 1 -/
  firstAt  : Option Time80
  /-- the outputs that run on the timebase, by output, and RFRAME_OUT held until the next radio frame, R114, R115 -/
  live     : Tab Bool
  rfHeld   : Bool
  /-- the levels of PPS_OUT, CLK10M_OUT and RFRAME_OUT, R113, R498 -/
  level    : Tab Bool
  deriving DecidableEq, Repr

/-- The outputs before the first alignment: every pin low. -/
def Outputs.reset : Outputs :=
  { misalign := 0, aligned := false, orderAt := none, firstAt := none, live := [], rfHeld := false, level := [] }

/-! ## Clock regions -/

/-- A slot armed at a repeater (R136). -/
structure ArmedSlot where
  slot  : Nat
  /-- T modulo 2^48 in units of 2^-16 ns -/
  t     : Nat
  fence : Bool
  deriving DecidableEq, Repr

/-- A word of a time bus (R123): SYNC with the core's count at its departure; ADDEND with the addend, the count and the
always-on instant at which it took effect; LAUNCH_AT; CANCEL with its slot and the T of that slot; FCHG_AT; CAL. -/
inductive BusBody where
  | sync (count : Nat)
  | addend (value : Nat) (at64 : Nat) (named : Nat)
  | launchAt (t : Nat) (slot : Nat) (fence : Bool)
  | cancel (slot : Nat) (t : Nat)
  | fchgAt (tf : Word) (code : Byte)
  | cal
  deriving DecidableEq, Repr

/-- A word with its sequence number. -/
structure BusItem where
  seq  : Nat
  body : BusBody
  deriving DecidableEq, Repr

/-- A bus word that awaits its acknowledgement (R124). -/
structure BusWord where
  seq     : Nat
  body    : BusBody
  /-- always-on instant of the last departure, and resends so far -/
  sentAt  : Nat
  resends : Nat
  /-- ONE_TBUS_LOST is recorded for it, and its outcome is still to come -/
  lost    : Bool
  deriving DecidableEq, Repr

/-- One clock region: its repeater, its time bus and its registers (R121 to R146). -/
structure Region where
  present    : Bool
  ready      : Bool
  fail       : Bool
  clkRunning : Bool
  /-- calibrated one-way delay in units of 1/2048 ps, R125 -/
  delay      : Int
  /-- the delay in the repeater's count, slewed toward the calibrated one tap by tap, R126 -/
  applied    : Int
  calibrated : Bool
  /-- calibrated at least once, R146 -/
  everCal    : Bool
  calActive  : Bool
  background : Bool
  /-- CAL round trips measured so far and their sum in taps of 7.8125 ps, R125 -/
  calCount   : Nat
  calSum     : Nat
  /-- CAL words still to leave, R125 -/
  calLeft    : Nat
  /-- the fused turnaround in ps, R125 -/
  turnaround : Nat
  /-- the repeater's count in units of 2^-32 ns modulo 2^64, and its addend, R128 -/
  count      : Nat
  addend     : Nat
  loaded     : Bool
  /-- sequence numbers on which the repeater has acted, latest first, R124 -/
  seen       : List Nat
  txSeq      : Nat
  /-- words that wait to leave, the always-on instant to which the last one occupies the bus, words on the way, and
  acknowledgements on the way back, R123, R124 -/
  queue      : List BusItem
  busyTo     : Nat
  flight     : List BusItem
  acks       : List Nat
  /-- acknowledged words that await their acknowledgement -/
  unacked    : List BusWord
  armed      : List ArmedSlot
  /-- repeater slots taken by staged launches, R227 -/
  taken      : List Nat
  switch     : Option (Word × Byte)
  /-- T_f of an accepted frequency change that it has not reached, R135, R146 -/
  fchg       : Option Word
  /-- the code on RG_CODE of the last RG_SWITCH pulse, R134, R515 -/
  rgCode     : Option Byte
  wake       : Bool
  /-- always-on instants of the slips of the last 1 ms, R128 -/
  slipAt     : List Nat
  edges      : Nat
  maxPeriod  : Nat
  slips      : Nat
  fenceMiss  : Nat
  busRetry   : Nat
  late       : Nat
  lastCal    : Nat
  /-- a region reset of it is in progress, R421, R432 -/
  inReset    : Bool
  deriving DecidableEq, Repr

/-- A region at power-on of the time domain (R146): its calibration has started (R125); its repeater is taken as present, its turnaround as 0. -/
def Region.reset : Region :=
  { present := true, ready := false, fail := false, clkRunning := false, delay := 0, applied := 0,
    calibrated := false, everCal := false, calActive := true, background := false, calCount := 0, calSum := 0, calLeft := 64,
    turnaround := 0, count := 0, addend := addendNominal, loaded := false, seen := [], txSeq := 0, queue := [], busyTo := 0,
    flight := [], acks := [], unacked := [], armed := [], taken := [], switch := none, fchg := none, rgCode := none,
    wake := false, slipAt := [], edges := 0, maxPeriod := 0, slips := 0, fenceMiss := 0, busRetry := 0, late := 0,
    lastCal := 0, inReset := false }

/-- An answer to the power manager (R133, R135). -/
inductive PmAnswer where
  | ack (tf : Word)
  | nak (reason : Nat)
  deriving DecidableEq, Repr

/-! ## Sync links -/

/-- The states of R149. -/
inductive LState where
  | down | pmdTrain | blockLock | frameLock | ident | up
  deriving DecidableEq, Repr

/-- One queued frame with its order of becoming ready; frames of a class keep their order (R176). -/
structure ReplayEntry where
  slot  : Nat
  frame : Frame
  deriving DecidableEq, Repr

/-- The state of one sync link end (R147 to R183). -/
structure Link where
  state     : LState
  fallback  : Bool
  arch      : Nat
  enabled   : Bool
  declared  : Bool
  fused     : Bool
  optical   : Bool
  /-- the port pipeline times in ps, R218, R488 -/
  rxPipe    : Nat
  txPipe    : Nat
  /-- the same at the fallback rate -/
  rxPipeFb  : Nat
  txPipeFb  : Nat
  excluded  : Bool
  absent    : Bool
  lastCause : Nat
  retrains  : Nat
  /-- the attempt of the 120 ms cycle, 0 to 5, and its always-on start, R150 -/
  attempt   : Nat
  attemptAt : Nat
  /-- an attempt of the running cycle has begun -/
  tried     : Bool
  searchFallback : Bool
  /-- always-on instant at which the receiver went to that rate, R150 -/
  searchAt  : Nat
  goodTrain : Nat
  rxOk      : Bool
  archStuck : Bool
  /-- always-on instant since which the link is not UP -/
  downAt    : Nat
  everUp    : Bool
  nbrLoc    : Nat
  nbrPort   : Nat
  nbrValid  : Bool
  assign    : Option Nat
  peerImage : Word
  corrFrames   : Nat
  uncorrFrames : Nat
  naksSent     : Nat
  replaysSent  : Nat
  malformed    : Nat
  poisoned     : Nat
  /-- credits held for classes 1, 2 and 3, R172, R174 -/
  cr1 : Nat
  cr2 : Nat
  cr3 : Nat
  /-- credits owed to the peer, and slots since the oldest of them -/
  owe1 : Nat
  owe2 : Nat
  owe3 : Nat
  oweSlots : Nat
  /-- running totals returned and accepted, modulo 256, R172 -/
  ret1 : Nat
  ret2 : Nat
  ret3 : Nat
  acc1 : Nat
  acc2 : Nat
  acc3 : Nat
  creditNew : Bool
  /-- own and peer slot numbers, R168, and the slots sent since the last time frame, R67 -/
  txSlot : Nat
  rxSlot : Nat
  sinceTime : Nat
  replay : List ReplayEntry
  /-- frames still to be sent again, with the slots that carried them, R170 -/
  resend : List ReplayEntry
  oweNak    : Option Nat
  oweReplay : Option Nat
  /-- the slot a NAK named, NAKs sent for it, and slots since the last, R171 -/
  nakSlot  : Option Nat
  nakCount : Nat
  nakSlots : Nat
  /-- non-time slots since the last LINKCTL frame, and whether it was the last one, R172, R173 -/
  sinceLinkctl : Nat
  lastLinkctl  : Bool
  /-- TRAIN frames still to send, R152, R154 -/
  trainLeft : Nat
  /-- bulk tokens in 1/64, R175 -/
  tokens : Nat
  q1 : List Frame
  q2 : List Frame
  q3 : List Frame
  /-- the first frame of the class-2 message whose frames are leaving, R187, R200 -/
  head2 : Option Frame
  /-- frames of the unfinished message of classes 1 and 2, R207 -/
  chain1 : List Frame
  chain2 : List Frame
  /-- always-on instants of the last uncorrectable slots, and their unbroken run, R154 -/
  uncorrAt  : List Nat
  uncorrRun : Nat
  /-- always-on instants of the corrected frames of the last second, R165 -/
  corrTimes : List Nat
  /-- a LINKCTL frame is owed for a credit return or as the regular one, R172 -/
  oweCtl : Bool
  /-- the frame of the last slot transmitted, R173, and its 64 bytes on the lane, R164 -/
  line : Option Frame
  wire : List Byte
  /-- the copy that leaves next ends with poison parity and is sent again, R167 -/
  poisonNext : Bool
  deriving DecidableEq, Repr

/-! ## Ports, tumblers, contexts and launches -/

/-- A command of a launch port, R232. -/
structure Command where
  work      : Nat
  deadline  : Word
  dclass    : Nat
  slice     : Nat
  sgen      : Nat
  context   : Nat
  fence     : Bool
  arvEntry  : Nat
  arvSlot   : Nat
  arvWeight : Nat
  arvEn     : Bool
  resEntry  : Nat
  resGen    : Nat
  step16    : BitVec 16
  deriving DecidableEq, Repr

/-- A staging entry of a launch port: a command bound to a staged launch, its variant and its repeater slot
(R227). -/
structure Staged where
  launch : Nat
  alt    : Bool
  slot   : Nat
  cmd    : Command
  /-- DL_OFFSET of the command's WORK record, R335 -/
  dl     : Nat
  deriving DecidableEq, Repr

/-- A pending-arrival record (R342). -/
structure PendArv where
  entry    : Nat
  slot     : Nat
  slice    : Nat
  sgen     : Nat
  deadline : Word
  boosted  : Option Word
  stale    : Bool
  deriving DecidableEq, Repr

/-- An arm-table entry (R228, R460). -/
structure Arm where
  /-- the staging it holds -/
  launch : Nat
  slice  : Nat
  sgen   : Nat
  ctx    : Nat
  t      : Time80
  late   : Bool
  far    : Bool
  domain : BitVec 24
  gen    : BitVec 2
  index  : Nat
  c      : Word
  members : Nat
  short  : Bool
  step16 : BitVec 16
  ports  : List Nat
  slots  : List (Nat × Nat)
  /-- regions whose LAUNCH_AT has been sent, and whose strobe has fired or is lost -/
  sent   : List Nat
  fired  : List Nat
  fence  : Bool
  /-- the code of the drop whose CANCEL was sent -/
  cancel : ErrCode
  /-- some code was met, R240 -/
  code   : ErrCode
  /-- the list header of the turn is not acknowledged yet, R353 -/
  listWait : Bool
  dropLate : Bool
  /-- the order of its staging, and that some region fired, R233, R247 -/
  order    : Nat
  struck   : Bool
  deriving DecidableEq, Repr

/-- A command the strobe has fired, waiting for capture or to be taken (R233). -/
structure Fired where
  cmd    : Command
  /-- launch time in units of 2^-16 ns modulo 2^48 -/
  t      : Nat
  gated  : Bool
  late   : Bool
  region : Nat
  /-- the counter when the port first presented it, in units of 2^-16 ns, R233 -/
  shown  : Option Int
  /-- the code of a drop whose CANCEL came too late, R139 -/
  cancel : ErrCode
  /-- the turn it belongs to, for its PORT records, R239 -/
  domain : BitVec 24
  index  : Nat
  gen    : BitVec 2
  c      : Word
  members : Nat
  short  : Bool
  /-- the launch came far ahead of T, R226, R239 -/
  far    : Bool
  /-- when its strobe reaches the port, in units of 2^-16 ns modulo 2^48, R136, R137 -/
  reach  : Nat
  /-- the order in which it was staged, R233 -/
  order  : Nat
  /-- the launch whose LAUNCH record is written only if a port meets a code, R240 -/
  owed   : Option Arm
  deriving DecidableEq, Repr

/-- A launch port (R192, R231 to R234, R421). -/
structure Port where
  staging  : List Staged
  pend     : List PendArv
  fired    : List Fired
  /-- slices of the commands the engine has taken, and generations, R242 -/
  atEngine : List (Nat × Nat)
  /-- an arrival the interface holds, R189 -/
  held     : Option PortArv
  /-- the fenced sub-schedule before has not raised LP_FENCE_DONE; a held fenced launch since, R142 -/
  fenceBusy : Bool
  fenceHeld : List (Fired × Int)
  /-- LP_ABORT with its slice, and the always-on instant it rose, R243 -/
  abort    : Option (Nat × Nat)
  abortDue : List Nat
  /-- LP_PORT_RESET is high since this always-on instant, R421 -/
  resetAt  : Option Nat
  /-- a HOLD of this slice is presented for this T, R340, R341 -/
  hold     : List (Nat × Word)
  /-- direct commands presented in order: HOLD, RELEASE, BOOST, R340 -/
  direct   : List Command
  /-- tumbler entries and generations for which an arrival of this port was counted, R210 -/
  arvAt    : List (Nat × BitVec 2)
  /-- lent until this instant, for this tumbler entry, R210 -/
  lent     : Option (Word × Nat)
  enabled  : Bool
  deriving DecidableEq, Repr

/-- A launch port at reset. -/
def Port.reset : Port :=
  { staging := [], pend := [], fired := [], atEngine := [], held := none, fenceBusy := false, fenceHeld := [],
    abort := none, abortDue := [], resetAt := none, hold := [], direct := [], arvAt := [], lent := none, enabled := true }

/-- A lend or reclaim event to the power manager (R211). -/
structure LendEvent where
  lend  : Bool
  port  : Nat
  til   : Word
  deriving DecidableEq, Repr

/-- One counted contribution: source, slot, weight and payload lanes (R261). -/
structure Contrib where
  source  : Nat
  slot    : Nat
  weight  : Nat
  payload : List Byte
  /-- the always-on instant it was counted, R209 -/
  aon     : Nat
  deriving DecidableEq, Repr

/-- A turned result with what was carried with the turn (R195, R228, R265, R468). -/
structure Result where
  gen      : BitVec 2
  /-- C in units of 2^-16 ns -/
  c        : Int
  members  : Nat
  latestDie : Nat
  latestNs : Word
  short    : Bool
  /-- the launch time kept with the turn, R228 -/
  t        : Option Time80
  far      : Bool
  /-- why T was refused, R37, R51; none: it was not -/
  tRefused : ErrCode
  dropLate : Bool
  /-- the launch belongs to the slot calendar: T of its own, R331 -/
  calendar : Bool
  step16   : BitVec 16
  op       : Nat
  fmt      : Nat
  lanes    : Nat
  /-- the result data, and the allocator part, as far as their frames are held -/
  data     : List Byte
  alloc    : List Byte
  /-- data bytes of the first frame, and the numbers of the frames held, R265 -/
  first    : Nat
  held     : List Nat
  /-- every lane is held without frames: a turn applied at this TSU -/
  whole    : Bool
  /-- contributions of the turned generation of a SCAN or ALLOC share, R261, and the carried counts, R278 -/
  rows     : List Contrib
  carried  : List Nat
  deriving DecidableEq, Repr

/-- ESTATE of R213. -/
inductive EState where
  | free | active | stuck | closing
  deriving DecidableEq, Repr

/-- The codes of R213. -/
def EState.code : EState → Nat
  | .free => 0 | .active => 1 | .stuck => 2 | .closing => 3

/-- MSTATE of TSU_REJOIN_DOMAIN (R410), and of a share. -/
inductive MState where
  | member | shadow | joining | expelled | waiting | tearing
  deriving DecidableEq, Repr

/-- The codes of R410. -/
def MState.code : MState → Nat
  | .member => 0 | .shadow => 1 | .joining => 2 | .expelled => 3 | .waiting => 4 | .tearing => 5

/-- A held arrival of a context or a port (R189). -/
structure HeldArv where
  source  : Nat
  slot    : Nat
  weight  : Nat
  payload : List Byte
  /-- the port that holds LP_ARV_READY low, or the context that stalls -/
  port    : Option Nat
  ctx     : Option Nat
  deriving DecidableEq, Repr

/-- One entry of the tumbler store (R186 to R213). -/
structure Tumbler where
  index     : Nat
  slice     : Nat
  domain    : BitVec 24
  counted   : Bool
  estate    : EState
  mask      : BitVec 64
  target    : Nat
  op        : Nat
  fmt       : Nat
  lanes     : Nat
  gen       : BitVec 2
  arrNow    : BitVec 64
  arrNext   : BitVec 64
  heldArv   : List HeldArv
  /-- a turn was applied: held arrivals are released on the next tick, R195 -/
  release   : Bool
  count     : Nat
  early     : Nat
  shareDone : Bool
  /-- completion of the share for the current generation, NS32 -/
  doneNs    : Word
  short     : Bool
  overflow  : Bool
  stale     : Nat
  nowC      : List Contrib
  nextC     : List Contrib
  /-- first local arrival of the generation, and of the next, in ns, R210 -/
  firstArv  : Option Int
  firstNext : Option Int
  lastSrc   : Nat
  lastSlot  : Nat
  lastGen   : BitVec 2
  lastNs32  : Word
  /-- the always-on instant of the last signaller's arrival, R209 -/
  lastAon   : Nat
  turnNs32  : Word
  est       : Nat
  turns     : Nat
  result    : Option Result
  /-- SHORT is due on the share's next ARRIVE, R422 -/
  shortDue  : Bool
  /-- carry vector of the share, R278 -/
  carry     : Option (List Nat)
  mstate    : MState
  /-- the turn frame's step fell outside the window in SHADOW: no rejoining, R397 -/
  noJoin    : Bool
  /-- the calendar entry bound to this tumbler, R330 -/
  bound     : Option Nat
  /-- created by the slice's current image, R187 -/
  fromImage : Bool
  deriving DecidableEq, Repr

/-- A software wait (R198, R466). -/
structure SoftWait where
  entry    : Nat
  gen      : BitVec 2
  deadline : Option Time80
  order    : Nat
  deriving DecidableEq, Repr

/-- STATE of R344. -/
inductive CtxState where
  | stopped | ready | blocked | sleeping | parked | halted
  deriving DecidableEq, Repr

/-- The codes of R460. -/
def CtxState.code : CtxState → Nat
  | .stopped => 0 | .ready => 1 | .blocked => 2 | .sleeping => 3 | .parked => 4 | .halted => 5

/-- Why a context is blocked (R299, R344). -/
inductive Block where
  | none
  /-- a WAIT, or the wait of a REDUCE, SCAN or ALLOC: entry, generation, DATA_OUT and the participant slot -/
  | turn (entry : Nat) (gen : BitVec 2) (dataOut : Nat) (slot : Nat)
  /-- an arrival that is held -/
  | arrival (entry : Nat)
  /-- a staged launch -/
  | launch (id : Nat)
  /-- no free staging entry or repeater slot, R227 -/
  | staging
  /-- the payload is being read -/
  | payload
  /-- the result is being written to DATA_OUT -/
  | write
  /-- the result to be written needs lanes that are not held, R265 -/
  | lanes (entry : Nat)
  /-- the conjunction needs lanes that are not held, R267 -/
  | conj (entry : Nat)
  deriving DecidableEq, Repr

/-- A context directory entry (R344, R460). -/
structure Ctx where
  slice     : Nat
  /-- the CONTEXTS record number -/
  record    : Nat
  state     : CtxState
  resident  : Option Nat
  sentence  : Nat
  clause    : Nat
  loop1     : Nat
  loop2     : Nat
  loop3     : Nat
  dCtx      : Time80
  missed    : Bool
  block     : Block
  topnd     : Option Time80
  /-- entry and generation of the latest counted arrival, R296 -/
  lastArv   : Option (Nat × BitVec 2)
  /-- the slot of that arrival -/
  lastSlot  : Nat
  /-- the clause that fires in place of the one at `clause`, R301 -/
  altClause : Option Nat
  /-- clauses issued in a row without blocking, R303 -/
  run       : Nat
  /-- its TOPND was refused under R51: the wait is skipped after the arrival, R338 -/
  farRefused : Bool
  yielded   : Bool
  haltCode  : ErrCode
  stageNoted : Bool
  /-- the breakpoint does not fire for the next issue, R461 -/
  skipBrk   : Bool
  /-- order of its wait, for FIRST of R213 -/
  order     : Nat
  deriving DecidableEq, Repr

/-- A staged LAUNCH clause: the clause, its ports with repeater slots, its flags (R227). -/
structure StagedClause where
  clause : Nat
  ports  : List Nat
  /-- region and repeater slot -/
  slots  : List (Nat × Nat)
  fence  : Bool
  deriving DecidableEq, Repr

/-- A staged launch that waits for a turn (R227). -/
structure Launch where
  slice  : Nat
  sgen   : Nat
  ctx    : Nat
  record : Nat
  entry  : Nat
  gen    : BitVec 2
  sentence : Nat
  main   : StagedClause
  alt    : Option StagedClause
  order  : Nat
  /-- its turn has come: it waits for lanes of its conjunction, R267, or for room in the arm table, R367 -/
  turned : Bool
  deriving DecidableEq, Repr

/-- A completion record (R239). -/
structure Record where
  kind    : Nat
  slice   : Nat
  sgen    : Nat
  short   : Bool
  late    : Bool
  dropped : Bool
  far     : Bool
  gated   : Bool
  code    : Nat
  source  : Nat
  gen     : Nat
  domain  : Nat
  index   : Nat
  step16  : Nat
  c       : Word
  t       : Word
  members : Nat
  detail  : Word
  deriving DecidableEq, Repr

/-- Why a write on the on-die network was made; its acknowledgement completes it (R512). -/
inductive NwKind where
  | record (slice : Nat)
  | dataOut (ctx : Nat)
  | list (slice : Nat)
  | header (slice : Nat)
  | swap
  | dlog
  | firmware
  deriving DecidableEq, Repr

/-- An outstanding write of the on-die network port (R512). -/
structure NwWrite where
  kind  : NwKind
  pasid : Nat
  addr  : Nat
  data  : List Byte
  deriving DecidableEq, Repr

/-- Why a read on the on-die network was made. -/
inductive NwRead where
  | arrival (slice : Nat)
  | image (slice : Nat)
  | clauseData (ctx : Nat)
  | swapIn (ctx : Nat)
  deriving DecidableEq, Repr

/-- An outstanding read of the on-die network port (R512). -/
structure NwReadReq where
  kind  : NwRead
  pasid : Nat
  addr  : Nat
  len   : Nat
  deriving DecidableEq, Repr

/-- An error-log entry (R215, R458). -/
structure LogEntry where
  code   : Nat
  source : Nat
  ns32   : Word
  detail : Nat
  rep    : Nat
  slice  : Option Nat
  /-- always-on instant of the first occurrence -/
  aon    : Nat
  deriving DecidableEq, Repr

/-! ## Images -/

/-- A creation descriptor (R186, R292). -/
structure TumbDesc where
  dom     : Bool
  counted : Bool
  index   : Nat
  op      : Nat
  fmt     : Nat
  lanes   : Nat
  target  : Nat
  mask    : BitVec 64
  deriving DecidableEq, Repr

/-- MODE of an arm descriptor (R223). -/
inductive ArmMode where
  | turn | asap | at | offset
  deriving DecidableEq, Repr

/-- An arm descriptor (R223, R293). -/
structure ArmDesc where
  dom   : Bool
  index : Nat
  mode  : ArmMode
  drop  : Bool
  alloc : Bool
  tReq  : Time80
  offset : Nat
  deriving DecidableEq, Repr

/-- A policy set (R274, R294). -/
structure Policy where
  valid   : Bool
  rule    : Nat
  experts : Nat
  caps    : List Nat
  deriving DecidableEq, Repr

/-- A SENTENCES record (R291). -/
structure Sentence where
  first  : Nat
  ccnt   : Nat
  cfirst : Nat
  kcnt   : Nat
  dclass : Nat
  deriving DecidableEq, Repr

/-- A WORK record (R291). -/
structure WorkRec where
  work   : Nat
  dl     : Nat
  dclass : Nat
  tile   : Nat
  deriving DecidableEq, Repr

/-- A schedule image (R290 to R298). Clauses and conjunctions keep their words. -/
structure SchedImage where
  id        : Word
  domain    : BitVec 24
  sentences : List Sentence
  clauses   : List (BitVec 128)
  conjs     : List (BitVec 64)
  portsets  : List (List Nat)
  works     : List WorkRec
  datas     : List Nat
  times     : List Time80
  tumblers  : List TumbDesc
  arms      : List ArmDesc
  policies  : List (Nat × Policy)
  contexts  : List (Nat × Bool)
  pages     : Nat
  deriving DecidableEq, Repr

/-- The pending change of a slice (R308). -/
inductive PendingImage where
  | none | image (i : SchedImage) | removal
  deriving DecidableEq, Repr

/-- A domain record of a tree image (R313); an extract's record has no body. -/
structure DomRec where
  tag         : BitVec 24
  bitmap      : Bool
  sideB       : Bool
  allowAbsent : Bool
  fullRate    : Bool
  topIsDie    : Bool
  stepEn      : Bool
  top         : Nat
  tumblers    : Nat
  scans       : Nat
  stepTumb    : Nat
  members     : Nat
  dBound      : Nat
  body        : List Byte
  deriving DecidableEq, Repr

/-- A position record (R312): asymmetries are words of signed ps. -/
structure PosRec where
  loc      : Nat
  aDecl    : Bool
  bDecl    : Bool
  need     : Nat
  children : Nat
  partnerAsym : Word
  nextAsym : Word
  xchildren : Nat
  asyms    : List (Word × Word × Word × Word)
  deriving DecidableEq, Repr

/-- A tree image, whole or a leaf extract (R310 to R318). -/
structure TreeImage where
  id         : Word
  activateAt : Time80
  prev       : Word
  hall       : List Byte
  positions  : List PosRec
  domains    : List DomRec
  refs       : List (List Byte)
  rootprio   : List Word
  health     : List Byte
  /-- DIE_ID and the two asymmetries of a leaf extract -/
  leaf       : Option (Nat × Word × Word)
  deriving DecidableEq, Repr

/-! ## Serving, calendar, slices -/

/-- A slot-calendar entry (R328) with the slots it waits to check. -/
structure CalEntry where
  slice : Nat
  bytes : List Byte
  /-- slots not fired since the last fired one, R331 -/
  missed : Nat
  /-- boundary of the last slot handled at T − CAL_PREP, and of the last HOLD, in ns -/
  lastB  : Option Int
  lastHold : Option Int
  /-- slots whose completion is to be checked: boundary, T, turns of DONE_TUMB then, R333 -/
  checks : List (Int × Word × Nat)
  /-- the write of the entry, in ns: HOLDs due before it are not sent -/
  wrote  : Int
  deriving DecidableEq, Repr

/-- A sequence-table row (R347); STATE 2 PREFILL, 3 DECODE, 4 PAUSED, 5 DONE. -/
structure SeqRow where
  seqId  : Nat
  state  : Nat
  prio   : Nat
  chunk  : Nat
  prompt : Nat
  pos    : Nat
  genLeft : Nat
  skips  : Nat
  kv     : Nat
  deadline : Word
  pace   : Nat
  /-- the phase a PAUSED row returns to, and whether a PREFILL entry was emitted -/
  phase  : Nat
  begun  : Bool
  deriving DecidableEq, Repr

/-- A sequence-table order (R348). -/
structure SeqOrder where
  slice : Nat
  op    : Nat
  row   : Nat
  eff   : Nat
  image : List Byte
  deriving DecidableEq, Repr

/-- A serving descriptor (R349). -/
structure Serve where
  en      : Bool
  stepDom : Bool
  binding : Nat
  stepTumb : Nat
  finEn   : Bool
  finDom  : Bool
  finTumb : Nat
  maxEntries : Nat
  budget  : Nat
  starve  : Nat
  listBase : Nat
  deriving DecidableEq, Repr

/-- No serving descriptor. -/
def Serve.reset : Serve :=
  { en := false, stepDom := false, binding := 0, stepTumb := 0, finEn := false, finDom := false, finTumb := 0,
    maxEntries := 0, budget := 0, starve := 8, listBase := 0 }

/-- STATE of TSU_SLICE_STATUS (R357). -/
inductive SState where
  | free | active | fencing | fenced | halted | resetting
  deriving DecidableEq, Repr

/-- The codes of R357. -/
def SState.code : SState → Nat
  | .free => 0 | .active => 1 | .fencing => 2 | .fenced => 3 | .halted => 4 | .resetting => 5

/-- A domain binding of a slice with its step number and its membership (R304, R363, R397 to R404). -/
structure Binding where
  tag      : BitVec 24
  mstate   : MState
  step     : Nat
  /-- JOIN_AT of an ACK and AT of a NOTICE, extended as R50 says, in ns -/
  joinAt   : Int
  expelAt  : Option Int
  lag      : Nat
  trim     : Nat
  run      : Nat
  abortId  : Nat
  orderSeq : Nat
  deriving DecidableEq, Repr

/-- An order with its rank and source (R369, R371). -/
structure Order where
  /-- 1 ABORT, 2 FENCE, 3 STOP, 4 START, 5 RESUME -/
  verb  : Nat
  /-- none: ALL -/
  ctx   : Option Nat
  sentence : Nat
  rank  : Nat
  src   : Nat
  seq   : Nat
  /-- its scope is the whole slice, whatever context it names, R369 -/
  whole : Bool := false
  deriving DecidableEq, Repr

/-- A slice abort that waits for its ports (R242), with the domain aborts it answers. -/
structure AbortRun where
  order : Order
  start : Nat
  ports : List Nat
  /-- domain and ABORT_ID of each domain abort in progress -/
  doms  : List (BitVec 24 × Nat)
  /-- a slice reset: no ABORT record, R374 -/
  quiet : Bool
  /-- the reset is part of a DESTROY, R364 -/
  destroy : Bool
  deriving DecidableEq, Repr

/-- A slice (R357 to R366, R462 to R466). -/
structure Slice where
  state    : SState
  sgen     : Nat
  pasid    : Nat
  dlogEn   : Bool
  tumbQ    : Nat
  rowQ     : Nat
  dirQ     : Nat
  calQ     : Nat
  pageQ    : Nat
  scanQ    : Nat
  carryQ   : Nat
  resMax   : Nat
  /-- the launch ports of the mask, ascending -/
  ports    : List Nat
  rowFirst : Nat
  calFirst : Nat
  bindings : List Binding
  ringLost : Bool
  staleDrops : Nat
  errCode  : Nat
  errCount : Nat
  errDetail : Nat
  lendEn   : Bool
  /-- the RW words of the slice page, by offset; a word not listed holds its reset value -/
  page     : Tab Word
  /-- the CODE fields, by offset of their register -/
  codes    : Tab Nat
  crBase   : Nat
  crSize   : Nat
  crHead   : Nat
  crTail   : Nat
  /-- records whose write is not acknowledged, records held while the ring is full, and a run of discards -/
  inFlight : Nat
  held     : List Record
  lostRun  : Bool
  /-- vector 1 + n may be raised again, R456 -/
  irqArmed : Bool
  orderSeq : Nat
  arvBusy  : Bool
  arvEarly : Bool
  arvGen   : BitVec 2
  image    : Option SchedImage
  pending  : PendingImage
  imgBusy  : Bool
  refusal  : Nat
  abort    : Option AbortRun
  fence    : Option Order
  serve    : Serve
  localStep : Nat
  /-- rows of the latest list, whether FIN has turned since, and the turns whose list headers are on their way, oldest first, R353 -/
  lastList : List Nat
  finTurned : Bool
  headers : List (BitVec 24 × Nat × BitVec 2)
  /-- the tumbler view and the debug view of the page: validity, owner and bytes -/
  tumbView : List Word
  view     : Bool × Nat × List Byte
  deriving DecidableEq, Repr

/-- A FREE slice after reset. -/
def Slice.reset : Slice :=
  { state := .free, sgen := 0, pasid := 0, dlogEn := false, tumbQ := 0, rowQ := 0, dirQ := 0, calQ := 0, pageQ := 0,
    scanQ := 0, carryQ := 0, resMax := 1, ports := [], rowFirst := 0, calFirst := 0, bindings := [],
    ringLost := false, staleDrops := 0, errCode := 0, errCount := 0, errDetail := 0, lendEn := true, page := [],
    codes := [], crBase := 0, crSize := 7, crHead := 0, crTail := 0, inFlight := 0, held := [], lostRun := false,
    irqArmed := true, orderSeq := 0, arvBusy := false, arvEarly := false, arvGen := 0, image := none,
    pending := .none, imgBusy := false, refusal := 0, abort := none, fence := none, serve := Serve.reset,
    localStep := 0, lastList := [], finTurned := false, headers := [], tumbView := [],
    view := (false, 0, []) }

/-- An order applied on the current tick, for R372. -/
structure OrderRec where
  slice : Nat
  order : Order
  deriving DecidableEq, Repr

/-- A conflict-log entry (R373). -/
structure Conflict where
  slice : Nat
  winVerb : Nat
  loseVerb : Nat
  winRank : Nat
  loseRank : Nat
  winSrc : Nat
  loseSrc : Nat
  winSeq : Nat
  loseSeq : Nat
  ns32 : Word
  deriving DecidableEq, Repr

/-- A request for a shared store that was not granted (R367): the resource's row, the slice, its context, and the
retries made. -/
structure GrantReq where
  resource : Nat
  slice    : Nat
  ctx      : Nat
  tries    : Nat
  /-- the sequence-table order that waits -/
  order    : Option SeqOrder
  deriving DecidableEq, Repr

/-- A context swap in progress (R346). -/
structure Swap where
  incoming : Nat
  victim   : Option Nat
  slot     : Nat
  deriving DecidableEq, Repr

/-! ## The distributor's soft state -/

/-- What a child reports of a tumbler in a census (R383). -/
structure CensusRec where
  child : Nat
  gen   : BitVec 2
  done  : Bool
  shadow : Bool
  expelled : Bool
  deriving DecidableEq, Repr

/-- Frame `frame` of child `child`'s ARRIVE message came on tick `aon` (R262, R284). -/
structure Came where
  frame : Nat
  child : Nat
  aon   : Nat
  deriving DecidableEq, Repr

/-- A soft entry of a domain tumbler (R203, R204, R262, R269). -/
structure Soft where
  lastGen  : BitVec 2
  marks    : List Nat
  /-- the generation's descriptor, R263 -/
  desc     : Option (Nat × Nat × Nat)
  /-- children's data, R262; of a message under way, as far as its frames have come -/
  parts    : List (Nat × List Byte)
  /-- the frames of those messages in combining order, R262, R284 -/
  came     : List Came
  members  : Nat
  short    : Bool
  latestDie : Nat
  latestNs : Word
  /-- the latest completion time of the generation turned last, once the entry has turned, R482 -/
  turnedNs : Option Word
  step16   : BitVec 16
  /-- NS32 when the current generation opened -/
  opened   : Word
  dup      : Nat
  /-- MARKS covers the member ports: the combined ARRIVE has been made, with its completion -/
  done     : Bool
  doneNs   : Word
  /-- children counted absent from this generation, R263 -/
  absent   : List Nat
  /-- offsets per child of the turned generation, for SCAN and ALLOC, R270 -/
  offsets  : List (Nat × List Byte)
  /-- children that joined or leave from the generation a turn opens, R398, R402 -/
  out      : List Nat
  /-- its generation was opened by a turn whose C reached AT of a RETURN: the declared side serves it, R384 -/
  back     : Bool
  deriving DecidableEq, Repr

/-- An entry at its creation (R203). -/
def Soft.blank (g : BitVec 2) (now : Word) : Soft :=
  { lastGen := g, marks := [], desc := none, parts := [], came := [], members := 0, short := false, latestDie := 0, latestNs := 0,
    turnedNs := none, step16 := 0, opened := now, dup := 0, done := false, doneNs := 0, absent := [], offsets := [], out := [], back := false }

/-- A child's DLAT report (R221). -/
structure DlatIn where
  dlat  : Nat
  valid : Bool
  slow  : Bool
  worst : Nat
  deriving DecidableEq, Repr

/-- A domain at a distributor on its path. -/
structure GdDom where
  dr       : DomRec
  /-- WAITING for entries (R406), OPEN for arrivals, TEARING (R405) -/
  waiting  : Bool
  waitNoted : Bool
  isOpen   : Bool
  tearing  : Bool
  ready    : List Nat
  readySent : Bool
  torn     : List Nat
  tornSent : Bool
  tornAt   : Option Nat
  doneSum  : Nat
  missSum  : Nat
  /-- DLAT per child, R221, the value, VALID and instant last sent by port, and whether ONE_DLAT_INVALID was recorded -/
  dlat     : Tab DlatIn
  /-- the reports as they stood before the tick of the last change, and the always-on instant of that change, R222 -/
  dlatOld  : Tab DlatIn
  dlatAt   : Nat
  sentDlat : Tab (Nat × Bool × Nat)
  dlatNoted : Bool
  /-- the domain abort in progress: ABORT_ID, forwarded at, children done, DONE, MISSING, LAST, R245 -/
  abortOpen : Bool
  abortId  : Nat
  abortAt  : Nat
  abortDone : List Nat
  abDone   : Nat
  abMiss   : Nat
  abLastNs : Word
  abLastDie : Nat
  orderSeq : Nat
  topNoted : Bool
  inCensus : Bool
  /-- JOIN_AT received from the parent, R398; these instants are held extended in ns, R50 -/
  joinAt   : Option Int
  /-- children returning: they count from the turn at this JOIN_AT, R398; leaving: from the turn at AT, R402 -/
  joining  : Tab Int
  leaving  : Tab Int
  /-- children outside the expected set, R395, R402 -/
  out      : List Nat
  expelled : List Nat
  deriving DecidableEq, Repr

/-- A domain entry when its record becomes current. -/
def GdDom.new (r : DomRec) : GdDom :=
  { dr := r, waiting := true, waitNoted := false, isOpen := false, tearing := false, ready := [], readySent := false,
    torn := [], tornSent := false, tornAt := none, doneSum := 0, missSum := 0, dlat := [], dlatOld := [], dlatAt := 0, sentDlat := [], dlatNoted := false, abortOpen := false, abortId := 0, abortAt := 0, abortDone := [], abDone := 0,
    abMiss := 0, abLastNs := 0, abLastDie := 0, orderSeq := 0, topNoted := false, inCensus := false, joinAt := none, joining := [],
    leaving := [], out := [], expelled := [] }

/-- An open FETCH of a census (R392). -/
structure Fetch where
  tag   : BitVec 24
  index : Nat
  gen   : BitVec 2
  port  : Nat
  /-- candidate ports left, and the children to deliver to -/
  next  : List Nat
  deliver : List Nat
  since : Nat
  deriving DecidableEq, Repr

/-- A census in progress (R389 to R394). -/
structure Census where
  id     : Nat
  start  : Nat
  /-- always-on instant of the last ASK -/
  askAt  : Nat
  /-- the ports asked, those whose LIST ended, those whose RESEND ended, and those given up -/
  ports  : List Nat
  listed : List Nat
  resent : List Nat
  resending : Bool
  /-- key 4096 × tag + index -/
  recs   : Tab (List CensusRec)
  fetches : List Fetch
  slowNoted : Bool
  mirror : Bool
  /-- every member port was asked; the entries have been rebuilt -/
  full   : Bool
  built  : Bool
  /-- the domains concerned; none: all -/
  doms   : Option (List (BitVec 24))
  deriving DecidableEq, Repr

/-- An ASK that a distributor forwarded down or holds until its own census ends. -/
structure AskOut where
  frame : Frame
  from_ : Nat
  port  : Nat
  deriving DecidableEq, Repr

/-- A roll-call entry (R283). -/
structure RollEntry where
  origin : Nat
  object : Nat
  window : Nat
  round  : Nat
  up     : Nat
  asked  : List Nat
  answered : List Nat
  responders : Nat
  missing : Nat
  bitmap : List Byte
  incomplete : Bool
  since  : Nat
  domain : BitVec 24
  deriving DecidableEq, Repr

/-- A die's health score at a sled distributor (R400 to R402). -/
structure Health where
  score    : Nat
  suspect  : Bool
  /-- a REQ is outstanding -/
  asked    : Bool
  expelled : Bool
  expelDue : Option Int
  /-- the always-on tick of the last events and what they added: a CLEAR of that tick comes before them, R489 -/
  addAt    : Nat
  added    : Nat
  deriving DecidableEq, Repr

/-- Score 0. -/
def Health.reset : Health := { score := 0, suspect := false, asked := false, expelled := false, expelDue := none, addAt := 0, added := 0 }


/-- A link end at power-on (R183). -/
def Link.reset : Link :=
  { state := .down, fallback := false, arch := 0, enabled := true, declared := true, fused := false,
    optical := false, rxPipe := 0, txPipe := 0, rxPipeFb := 0, txPipeFb := 0, excluded := false, absent := false, lastCause := 0, retrains := 0, attempt := 0,
    attemptAt := 0, tried := false, searchFallback := false, searchAt := 0, goodTrain := 0, rxOk := false, archStuck := false, downAt := 0,
    everUp := false, nbrLoc := 0, nbrPort := 0, nbrValid := false, assign := none, peerImage := 0,
    corrFrames := 0, uncorrFrames := 0, naksSent := 0, replaysSent := 0, malformed := 0, poisoned := 0,
    cr1 := 0, cr2 := 0, cr3 := 0, owe1 := 0, owe2 := 0, owe3 := 0, oweSlots := 0, ret1 := 0, ret2 := 0,
    ret3 := 0, acc1 := 0, acc2 := 0, acc3 := 0, creditNew := false, txSlot := 0, rxSlot := 0, sinceTime := 0, replay := [],
    resend := [], oweNak := none, oweReplay := none, nakSlot := none, nakCount := 0, nakSlots := 0,
    sinceLinkctl := 0, lastLinkctl := false, trainLeft := 0, tokens := 0, q1 := [], q2 := [], q3 := [],
    head2 := none, chain1 := [], chain2 := [], uncorrAt := [], uncorrRun := 0, corrTimes := [], oweCtl := false,
    line := none, wire := [], poisonNext := false }

/-- A message that waits as a ready mark for room in its output queue (R174). -/
structure ReadyMark where
  port   : Nat
  cls    : Nat
  frames : List Frame
  /-- the tumbler or domain entry it belongs to -/
  key    : Nat
  deriving DecidableEq, Repr

/-- A bulk object being received (R178 to R180). -/
structure BulkRx where
  kind   : Nat
  scope  : Nat
  dest   : Nat
  domain : BitVec 24
  length : Nat
  chunks : Nat
  /-- DATA of the frames held, by 32 × chunk + fragment -/
  frags  : Tab (List Byte)
  /-- always-on instant of the last frame -/
  lastAt : Nat
  /-- always-on instant at which each whole chunk was complete -/
  arrived : Tab Nat
  /-- BULK_CLOSE has come; the loader has taken the object -/
  closed : Bool
  loaded : Bool
  /-- the missing-chunk bitmap, once fixed -/
  missing : Option (List Nat)
  deriving DecidableEq, Repr

/-- What a TSU and a distributor hold alike: time, links, registers, error log, interrupts, ready marks, bulk
reception and radio time. -/
structure Common where
  time   : TimeDom
  srcs   : Tab TimeSrc
  links  : Tab Link
  /-- the plain read-write fields, by register offset; a register not listed holds its reset value -/
  rw     : Tab Word
  /-- the write-1-to-clear bits, by register offset -/
  evt    : Tab Word
  /-- the latched upper words of R11, by 2^20 × master + offset -/
  latch  : Tab Word
  /-- offset of the last access that set an access-error flag -/
  accAddr : Nat
  log    : List LogEntry
  logLost : Nat
  /-- interrupt vectors raised and waiting for their handshake, R456, R511 -/
  irq    : List Nat
  marks  : List ReadyMark
  bulk   : Tab BulkRx
  /-- RF_NS and RF_FRAMES in force, and the written values with the counter at the write, R327 -/
  rfNs     : Nat
  rfFrames : Nat
  rfPend   : Option (Nat × Nat × Time80)
  redunLost : Bool
  /-- the data that the last register read returned, R499, R510 -/
  rdata  : Word
  /-- IMAGE_ID of the accepted tree image; 0 if none -/
  treeId   : Word
  /-- the write-1-to-clear bits that events set in the running cycle, and the register and master of the last write,
  R17 -/
  setNow   : Tab Word
  lastWr   : Option (Nat × Nat)
  deriving DecidableEq, Repr

/-- The common part at power-on. -/
def Common.reset : Common :=
  { time := TimeDom.reset, srcs := [], links := [], rw := [], evt := [], latch := [], accAddr := 0, log := [],
    logLost := 0, irq := [], marks := [], bulk := [], rfNs := 0, rfFrames := 0, rfPend := none,
    redunLost := false, rdata := 0, treeId := 0, setNow := [], lastWr := none }

/-- A boot report record (R415). -/
structure Report where
  unit   : Nat
  stage  : Nat
  result : Nat
  code   : Nat
  count  : Nat
  atUs   : Nat
  detail : Word
  deriving DecidableEq, Repr

/-- Bring-up of a unit: its phase (R412) or stage (R414). -/
structure Boot where
  /-- the phase or stage code; 7 at the TSU, 15 at the distributor once all have ended -/
  phase  : Nat
  failed : Bool
  /-- always-on instants of reset release or power-good, and of the start of the phase -/
  startAt : Nat
  phaseAt : Nat
  /-- ms from the start to LAUNCH_CAPABLE, once it was reached -/
  bootMs : Option Nat
  /-- the phases run again after a whole-unit reset, R421 -/
  warm   : Bool
  /-- the distributor is tracking: TIME has ended, R414 -/
  tracking : Bool
  /-- a census of bring-up ran past its limit, R394, R414 -/
  slow   : Bool
  deriving DecidableEq, Repr

/-- Bring-up not begun. -/
def Boot.reset (phase : Nat) : Boot :=
  { phase, failed := false, startAt := 0, phaseAt := 0, bootMs := none, warm := false, tracking := false, slow := false }

/-- A domain the TSU tears down (R405): its side and rate flags outlive its record. -/
structure Torn where
  tag      : BitVec 24
  sideB    : Bool
  fullRate : Bool
  /-- TEARDOWN has been received: TORN is owed -/
  asked    : Bool
  deriving DecidableEq, Repr

/-- The TSU-A1. -/
structure Tsu where
  com     : Common
  regions : Tab Region
  /-- the accepted frequency change and the refusal reason last answered, R133, R135 -/
  fchgAt  : Word
  fchgReason : Nat
  /-- TBUS_LEAD in units of 1/2048 ps, R127, and the always-on instant of the last SYNC, R123 -/
  lead    : Int
  syncAt  : Nat
  pmOut   : List PmAnswer
  dieId   : Option Nat
  nbrMismatch : Bool
  /-- the tumbler store, by entry -/
  tumb    : Tab Tumbler
  /-- software waits, by 4 × slice + k -/
  waits   : Tab SoftWait
  ports   : Tab Port
  launches : Tab Launch
  arms    : Tab Arm
  contexts : Tab Ctx
  slices  : Tab Slice
  /-- number of the next wait, for the order of waits -/
  order   : Nat
  nwWrites : List NwWrite
  nwReads : List NwReadReq
  /-- region of each launch port where it differs from port / 128; ports marked bad; units marked bad per pool -/
  portRegion : Tab Nat
  badPorts : List Nat
  /-- ports that the host does not provide, R22 -/
  noPorts  : List Nat
  badUnits : Tab Nat
  lend    : List LendEvent
  tumbView : List Word
  /-- lane DLAT last sent: value, VALID and the always-on instant, R221, R247 -/
  sentDlat : Tab (Nat × Bool × Nat)
  fired   : Nat
  lateCount : Nat
  lastMargin : Int
  minMargin : Int
  lastAbortSlice : Nat
  lastAbortNs : Nat
  /-- the stalled reads of the result port, oldest first, with the always-on instant each began, and what the last read
  returned: data and error response, R266, R467 to R469, R512 -/
  stalls  : List (ResultRead × Nat)
  readOut : Option (Nat × Bool)
  tree    : Option TreeImage
  treePend : Option TreeImage
  refusal : Nat
  calendar : Tab CalEntry
  /-- calendar turns applied on the current tick -/
  calTick : Bool
  rows    : Tab SeqRow
  orders  : List SeqOrder
  swap    : Option Swap
  evictions : Nat
  swapLast : Nat
  swapMax : Nat
  conflicts : List Conflict
  tickOrders : List OrderRec
  hostSeq : Nat
  dlogHead : Nat
  /-- slice and page pairs logged most recently, newest first, R377 -/
  filter  : List (Nat × Nat)
  grantPtr : Tab Nat
  grants  : List GrantReq
  retries : Nat
  dbg     : Bool × Nat × List Byte
  censusAnswered : Nat
  abortIdNext : Nat
  /-- the die's reset TSU_RST_N is low, and TSU_TD_POR_N holds the time domain, R509 -/
  inReset : Bool
  tdHeld  : Bool
  boot    : Boot
  /-- newest first, at most 16 -/
  reports : List Report
  absorbed : Nat
  scrubCorr : Nat
  lastStore : Nat
  /-- VERSION of the active and of a checked pending microcode, R431 -/
  ucode   : Nat
  ucodePend : Option Nat
  /-- REV, REPAIRS and UNREPAIRED of the fuse map, R417 -/
  fuseRev : Nat
  fuseRepairs : Nat
  fuseUnrepaired : Nat
  /-- domains whose OPEN has been received, R406, and domains in teardown, R405 -/
  opened  : List (BitVec 24)
  tearing : List Torn
  /-- domains whose shares enter SHADOW on binding, R397, R425; an ABSENT for every domain came before an extract -/
  shadowed : List (BitVec 24)
  absentAll : Bool
  deriving DecidableEq, Repr

/-- The journal stack (R407, R408, R485). -/
structure Journal where
  /-- the stack failed at bring-up and is disabled, R414 -/
  failed   : Bool
  /-- RECNO of the next record -/
  recno    : Nat
  /-- the lines held, by RECNO -/
  lines    : Tab (List Byte)
  frozen   : Bool
  /-- records still to be written before the ring stops after a trigger -/
  postLeft : Option Nat
  triggered : Bool
  /-- the interface retrains, and the records that wait meanwhile, by RECNO, R429 -/
  retraining : Bool
  wait     : Tab (List Byte)
  dropped  : Nat
  /-- always-on second of the last record and the records written in it -/
  secAt    : Nat
  inSec    : Nat
  /-- the line that the last read snapshot holds, with its outcome -/
  view     : Option (List Byte)
  viewStat : Nat
  deriving DecidableEq, Repr

/-- An empty journal. -/
def Journal.reset : Journal :=
  { failed := false, recno := 0, lines := [], frozen := false, postLeft := none, triggered := false, retraining := false, wait := [],
    dropped := 0, secAt := 0, inSec := 0, view := none, viewStat := 0 }

/-- SEAL_STATE of R446 (R487). -/
inductive SealState where
  | locked | armed | opened | expired | tampered
  deriving DecidableEq, Repr

/-- The codes of R487. -/
def SealState.code : SealState → Nat
  | .locked => 0 | .armed => 1 | .opened => 2 | .expired => 3 | .tampered => 4

/-- The three variants of R3. -/
inductive Variant where
  | gd64x | gd64s | gd32e
  deriving DecidableEq, Repr

/-- The states of a firmware slot (R434). -/
inductive SlotState where
  | empty | writing | staged | active | trial | failed
  deriving DecidableEq, Repr

/-- The codes of R487. -/
def SlotState.code : SlotState → Nat
  | .empty => 0 | .writing => 1 | .staged => 2 | .active => 3 | .trial => 4 | .failed => 5

/-- A firmware slot with the header fields of its image (R434, R436). -/
structure FwSlot where
  state    : SlotState
  svn      : Nat
  fmt      : Nat
  handover : Nat
  version  : Word
  deriving DecidableEq, Repr

/-- A slot that holds no checked image. -/
def FwSlot.empty : FwSlot := { state := .empty, svn := 0, fmt := 0, handover := 0, version := 0 }

/-- How far an activation has come (R441): an order waits for a census, or the understudy boots. -/
inductive FwAct where
  | idle
  | waiting (since : Nat) (cold : Bool) (version : Option Word)
  | booting (since : Nat)
  deriving DecidableEq, Repr

/-- The firmware slots and the trial (R434 to R445). -/
structure Fw where
  slotA   : FwSlot
  slotB   : FwSlot
  /-- the slot the lead runs: true B -/
  runB    : Bool
  bootOnce : Bool
  floor   : Nat
  refusal : Nat
  /-- an image being written: its header fields, the slot as it was before the load, and whether the CRC over the whole
  image is good -/
  load    : Option (FwSlot × FwSlot × Bool)
  act     : FwAct
  /-- the running trial is cold, and the always-on instant it began, R443 -/
  trialCold : Bool
  trialAt : Nat
  /-- the partner reports an activation or trial, R441 -/
  partnerBusy : Bool
  /-- format version of each stored settings record, R445 -/
  formats : List Nat
  /-- the last commit: its always-on instant, the slots and the floor before it; a REVERT of the same tick wins, R444 -/
  undo    : Option (Nat × FwSlot × FwSlot × Nat)
  deriving DecidableEq, Repr

/-- Slot A holds the running image. -/
def Fw.reset : Fw :=
  { slotA := { FwSlot.empty with state := .active }, slotB := FwSlot.empty, runB := false, bootOnce := false, floor := 0,
    refusal := 0, load := none, act := .idle, trialCold := false, trialAt := 0, partnerBusy := false, formats := [],
    undo := none }

/-- A bulk object that this distributor originated and repairs in rounds (R430). -/
structure Origin where
  object : Nat
  kind   : Nat
  scope  : Nat
  dest   : Nat
  domain : BitVec 24
  data   : List Byte
  /-- the one port it is sent on, where it is for one child -/
  port   : Option Nat
  /-- the round, 0 before the first, and the always-on instant of the last CLOSE -/
  round  : Nat
  since  : Nat
  /-- windows of the round that are not answered yet, chunks set in the combined answers, and an INCOMPLETE one -/
  left   : Nat
  missing : List Nat
  incomplete : Bool
  deriving DecidableEq, Repr

/-- The distributor. -/
structure Gd where
  com     : Common
  variant : Variant
  /-- the locator delivered in training, or of the strap and image at a hall root, R28 -/
  locator : Option Nat
  /-- ROOT_SEL and SIDE_SEL as sampled at the release of chip reset, R493 -/
  rootSel : Bool
  sideSel : Bool
  sealSt  : SealState
  journal : Journal
  ref     : RefSel
  out     : Outputs
  ptpOut  : List PtpSent
  /-- domains on this distributor's path, by tag, and soft entries by 4096 × tag + index -/
  doms    : Tab GdDom
  softs   : Tab Soft
  tree    : Option TreeImage
  treePend : Option TreeImage
  refusal : Nat
  /-- children marked absent, R156, R395, and children returning -/
  absent  : List Nat
  returning : List Nat
  arms    : Tab ArmDesc
  policies : Tab Policy
  /-- the policy sets and arm descriptors as they stood before the writes of tick `heldAt`, which a turn of that tick still uses,
  R274, R309 -/
  heldAt   : Option Nat
  heldPol  : Tab Policy
  heldArms : Tab ArmDesc
  staged  : Policy
  rolls   : List RollEntry
  /-- the side, true B, that acts for every domain since a TAKE, of this position and of child positions; where none,
  each domain's declared side acts, R384 -/
  actingTo : Option Bool
  childMoved : Tab Bool
  /-- AT of the RETURN sent to a child position -/
  childReturn : Tab Int
  /-- always-on instant since which the declared side of a child is UP with its mirror CURRENT -/
  backSince : Tab Nat
  returnAt : Option Int
  mirrorCurrent : Bool
  census  : Option Census
  censusId : Nat
  askHeld : List AskOut
  /-- domains to ask the parent to join once the census is complete, R398 -/
  rejoin  : List (BitVec 24)
  held    : Tab (List Frame)
  health  : Tab Health
  theta   : Nat
  /-- always-on instants of the grants of the last window, and whether a denial fell in it -/
  grantsAt : List Nat
  denied  : Bool
  dlatView : List Word
  softView : List Word
  /-- the last abort completed with this distributor as top node: ABORT_ID, DONE, MISSING and its duration, R481 -/
  abortLast : Nat × Nat × Nat × Nat
  /-- the last census completed and its duration in µs, R484 -/
  censusLast : Nat × Nat
  /-- power is good, and RESET_N is low, R502 -/
  powered : Bool
  resetLow : Bool
  boot    : Boot
  /-- newest first, at most 32 -/
  reports : List Report
  lastCause : Nat
  absorbed : Nat
  scrubCorr : Nat
  /-- RING_BYPASS_N is low, and held low by the register bit, R181, R488 -/
  ringLow : Bool
  ringHeld : Bool
  /-- the fuse map, R418: FABRIC_MAX, POWER_LIMIT, the unit-disable bits, repairs and rows beyond the spares; ports
  marked bad by page, and blows that await the next chip reset -/
  fabricMax : Nat
  powerLimit : Nat
  unitDis : Nat
  repairs : Nat
  unrepaired : Nat
  /-- soft entries and scan blocks that rows beyond the spares hold, R419 -/
  lostSoft : Nat
  lostScan : Nat
  badPorts : List Nat
  blown   : List (Nat × Nat × Nat)
  fw      : Fw
  /-- the inputs KEYSW (OPEN), the tamper loop, since when it is intact, and PRESENCE_N, R446 -/
  keysw   : Bool
  loopOk  : Bool
  loopAt  : Nat
  button  : Bool
  /-- always-on instant of the last state change of the seal -/
  sealAt  : Nat
  ownerLock : Bool
  /-- THERM_N is asserted, R508 -/
  therm   : Bool
  /-- the pending-image buffer, by word, and the write pointer, R480 -/
  treeBuf : Tab Word
  wptr    : Nat
  origins : List Origin
  /-- number of the last object originated -/
  objNo   : Nat
  /-- the bytes of the newest tree image accepted, and the children it, or their extract, was sent to -/
  image   : List Byte
  leafSent : List Nat
  /-- domains whose reset absorbs arrivals until the census has asked for resends, R423 -/
  domRst  : List (BitVec 24)
  /-- the status byte that ended the last transaction of the management port, R499 -/
  spiStat : Nat
  deriving DecidableEq, Repr

/-- The whole machine. -/
structure State where
  tsu     : Tsu
  gd      : Gd
  /-- the model's own counter: the number of free values taken so far -/
  fresh   : Nat
  /-- the commands that wait, first in, first out -/
  pending : List Instr
  deriving DecidableEq, Repr

/-- The form of the pending-image buffer, the one addressed memory that software reaches by address (R480): words by
rising number, none listed that is 0, which an unlisted word reads as. -/
abbrev Memory.wf (m : Tab Word) : Prop := Tab.Rising m ∧ ∀ p ∈ m, p.2 ≠ 0

/-- Why a command stops with a fault. -/
inductive Fault where
  /-- raised by no command: every event the spec describes leaves the machine in a next state. Safe. -/
  | none
  deriving DecidableEq, Repr

/-- Why a command has no meaning. -/
inductive Refusal where
  /-- raised by an arm of `exec` whose meaning has not been written. Safe. -/
  | notModelled (mnemonic : String)
  deriving DecidableEq, Repr

/-- The TSU after power-on and reset. -/
def Tsu.reset : Tsu :=
  { com := Common.reset, regions := [], fchgAt := 0, fchgReason := 0, lead := 0, syncAt := 0, pmOut := [], dieId := none,
    nbrMismatch := false, tumb := [], waits := [], ports := [], launches := [], arms := [], contexts := [],
    slices := [], order := 0, nwWrites := [], nwReads := [], portRegion := [], badPorts := [], noPorts := [], badUnits := [],
    lend := [], tumbView := [], sentDlat := [], fired := 0, lateCount := 0, lastMargin := 0, minMargin := 0x7FFF,
    lastAbortSlice := 0, lastAbortNs := 0, stalls := [], readOut := none, tree := none, treePend := none,
    refusal := 0, calendar := [], calTick := false, rows := [], orders := [], swap := none, evictions := 0,
    swapLast := 0, swapMax := 0, conflicts := [], tickOrders := [], hostSeq := 0, dlogHead := 0, filter := [],
    grantPtr := [], grants := [], retries := 0, dbg := (false, 0, []), censusAnswered := 0, abortIdNext := 0,
    inReset := true, tdHeld := false, boot := Boot.reset 1, reports := [], absorbed := 0, scrubCorr := 0, lastStore := 0, ucode := 0,
    ucodePend := none, fuseRev := 0, fuseRepairs := 0, fuseUnrepaired := 0, opened := [], tearing := [], shadowed := [], absentAll := false }

/-- The distributor after power-on and reset. -/
def Gd.reset : Gd :=
  { com := Common.reset, variant := .gd64x, locator := none, rootSel := false, sideSel := false, sealSt := .locked,
    journal := Journal.reset, ref := RefSel.reset, out := Outputs.reset, ptpOut := [], doms := [], softs := [],
    tree := none, treePend := none, refusal := 0, absent := [], returning := [], arms := [], policies := [], heldAt := none, heldPol := [], heldArms := [],
    staged := ⟨false, 0, 0, []⟩, rolls := [], actingTo := none, childMoved := [], childReturn := [], backSince := [], returnAt := none,
    mirrorCurrent := false, census := none, censusId := 0, askHeld := [], rejoin := [], held := [], health := [], theta := 1000,
    grantsAt := [], denied := false, dlatView := [], softView := [], abortLast := (0, 0, 0, 0), censusLast := (0, 0), powered := false, resetLow := false,
    boot := Boot.reset 0, reports := [], lastCause := 0, absorbed := 0, scrubCorr := 0, ringLow := true, ringHeld := false,
    fabricMax := 15, powerLimit := 62, unitDis := 0, repairs := 0, unrepaired := 0, lostSoft := 0, lostScan := 0, badPorts := [], blown := [],
    fw := Fw.reset, keysw := false, loopOk := true, loopAt := 0, button := false, sealAt := 0, ownerLock := false,
    therm := false, treeBuf := [], wptr := 0, origins := [], objNo := 0, image := [], leafSent := [], domRst := [], spiStat := 0 }

/-- The machine right after reset. -/
def State.reset : State := { tsu := Tsu.reset, gd := Gd.reset, fresh := 0, pending := [] }

end Sys2Proof.Machine
end

