-- ==== Sys2Proof/Machine/Ops.lean ====
section
/-! DEFINITION. The named operations over the parts of the state: reading and updating the common part of a
node, its links, its time sources and its registers; times of both nodes. -/

namespace Sys2Proof

/-- Bytes 0 to 7 of a frame (R160). -/
def Frame.header (f : Frame) : Nat :=
  f.type.toNat * 2 ^ 58 + f.cls.toNat * 2 ^ 56 + f.ver.toNat * 2 ^ 54 + f.gen.toNat * 2 ^ 52
    + b2n f.detour * 2 ^ 51 + b2n f.more * 2 ^ 50 + b2n f.f49 * 2 ^ 49 + b2n f.f48 * 2 ^ 48
    + f.domain.toNat * 2 ^ 24 + f.step16.toNat * 2 ^ 8

/-- The 60 bytes of a frame before its check (R160). -/
def Frame.bytes (f : Frame) : List Byte := natBytes f.header 8 ++ natBytes f.time.toNat 4 ++ padTo 48 f.body

/-- The number in the `n` bytes of a frame from byte `i` of R160; bytes 12 to 59 are its payload. -/
def Frame.nat (f : Frame) (i n : Nat) : Nat := beNat f.body (i - 12) n

/-- One payload byte of a frame, by its number in R160. -/
def Frame.byte (f : Frame) (i : Nat) : Nat := (byteAt f.body (i - 12)).toNat

/-- A frame of a type and class with every other field 0. -/
def Frame.blank (type : BitVec 6) (cls : BitVec 2) : Frame :=
  { type, cls, ver := 0, gen := 0, detour := false, more := false, f49 := false, f48 := false, domain := 0,
    step16 := 0, time := 0, body := [] }

/-- The frame that 60 bytes carry (R160). -/
def Frame.ofBytes (b : List Byte) : Frame :=
  let h := beNat b 0 8
  { type := BitVec.ofNat 6 (bitsOf h 63 58), cls := BitVec.ofNat 2 (bitsOf h 57 56), ver := BitVec.ofNat 2 (bitsOf h 55 54),
    gen := BitVec.ofNat 2 (bitsOf h 53 52), detour := bitOf h 51, more := bitOf h 50, f49 := bitOf h 49, f48 := bitOf h 48,
    domain := BitVec.ofNat 24 (bitsOf h 47 24), step16 := BitVec.ofNat 16 (bitsOf h 23 8), time := BitVec.ofNat 32 (beNat b 8 4),
    body := (b.drop 12).take 48 }

/-- The outcome of the check of a received slot (R165, R167). The code is linear and the line as sent has no syndrome, so
the syndromes are those of the noise. -/
def Rx.check (rx : Rx) : Check :=
  if rx.noise = [] then .good
  else
    let syn := Machine.rsSyndromes (Machine.noiseBytes rx.noise)
    if syn = (0, 0, 0, 0) then .good
    else if syn = Machine.rsSyndromes (Machine.noiseBytes Machine.poisonNoise) then .poison
    else if (Machine.rsErrors syn).isSome then .corrected
    else .uncorrectable

/-- The frame as the decoder gives it: as sent, or, of more than two symbol errors, as miscorrected (R165). -/
def Rx.frame (rx : Rx) : Frame :=
  if rx.noise = [] then rx.sent
  else
    let fix := (Machine.rsErrors (Machine.rsSyndromes (Machine.noiseBytes rx.noise))).getD []
    let diff := Machine.noiseBytes (rx.noise ++ fix)
    if diff = List.replicate 64 0 then rx.sent
    else Frame.ofBytes (List.zipWith (· ^^^ ·) rx.sent.bytes diff)

/-- The IDLE frame of R161. -/
def Frame.idle : Frame := Frame.blank 0x00 0

/-- A TIME80 from its 10 bytes (R36). -/
def time80At (l : List Byte) (i : Nat) : Time80 := ⟨beNat l i 6, beNat l (i + 6) 4, 0⟩

/-- The 10 bytes of a TIME80 (R36). -/
def Time80.bytes (t : Time80) : List Byte := natBytes t.sec 6 ++ natBytes t.ns 4

/-- A TIME80 is invalid when its NANOSECONDS field holds 1,000,000,000 or more (R37). -/
def Time80.valid (t : Time80) : Bool := t.ns < 1000000000

end Sys2Proof

namespace Sys2Proof.Machine

open Sys2Proof

/-- What a command answers. -/
abbrev Outcome := Host.Outcome State Fault Refusal

/-- The common part of a node. -/
def State.com (s : State) : Node → Common
  | .tsu => s.tsu.com
  | .gd => s.gd.com

/-- Update the TSU. -/
def State.updTsu (s : State) (f : Tsu → Tsu) : State := { s with tsu := f s.tsu }

/-- Update the distributor. -/
def State.updGd (s : State) (f : Gd → Gd) : State := { s with gd := f s.gd }

/-- Update the common part of a node. -/
def State.updCom (s : State) (n : Node) (f : Common → Common) : State :=
  match n with
  | .tsu => { s with tsu := { s.tsu with com := f s.tsu.com } }
  | .gd => { s with gd := { s.gd with com := f s.gd.com } }

/-- The time domain of a node. -/
def State.time (s : State) (n : Node) : TimeDom := (s.com n).time

/-- Update the time domain of a node. -/
def State.updTime (s : State) (n : Node) (f : TimeDom → TimeDom) : State :=
  s.updCom n fun c => { c with time := f c.time }

/-- The reading of a node's counter: now. -/
def State.now (s : State) (n : Node) : Time80 := (s.time n).counter

/-- The always-on clock of a node in ns. -/
def State.aon (s : State) (n : Node) : Nat := (s.time n).aon

/-- A link end; one nothing has happened to is as after power-on. -/
def State.link (s : State) (l : LinkId) : Link := Tab.getD (s.com l.node).links l.port Link.reset

/-- Update a link end. -/
def State.updLink (s : State) (l : LinkId) (f : Link → Link) : State :=
  s.updCom l.node fun c => { c with links := Tab.put c.links l.port (f (Tab.getD c.links l.port Link.reset)) }

/-- The time-transfer state of a lane or port. -/
def State.src (s : State) (l : LinkId) : TimeSrc := Tab.getD (s.com l.node).srcs l.port TimeSrc.reset

/-- Update the time-transfer state of a lane or port. -/
def State.updSrc (s : State) (l : LinkId) (f : TimeSrc → TimeSrc) : State :=
  s.updCom l.node fun c => { c with srcs := Tab.put c.srcs l.port (f (Tab.getD c.srcs l.port TimeSrc.reset)) }

/-- A clock region. -/
def State.region (s : State) (r : Nat) : Region := Tab.getD s.tsu.regions r Region.reset

/-- Update a clock region. -/
def State.updRegion (s : State) (r : Nat) (f : Region → Region) : State :=
  s.updTsu fun t => { t with regions := Tab.put t.regions r (f (Tab.getD t.regions r Region.reset)) }

/-- A lane or port is trained while it is UP (R149); one that R30 excludes is used for nothing. -/
def State.trained (s : State) (l : LinkId) : Bool := decide ((s.link l).state = .up) && !(s.link l).excluded

/-- The source identifier of a lane of the TSU (R191). -/
def srcLane (l : Nat) : Nat := 0xC000 + l

end Sys2Proof.Machine

namespace Sys2Proof

/-! ## Fields of a message's first frame -/

/-- INDEX of a descriptor (R207). -/
def Frame.fIndex (f : Frame) : Nat := f.nat 12 2 % 4096
/-- OP of a descriptor (R207). -/
def Frame.fOp (f : Frame) : Nat := f.byte 14 % 32
/-- FMT of a descriptor (R207). -/
def Frame.fFmt (f : Frame) : Nat := f.byte 15
/-- LANES of a descriptor (R207). -/
def Frame.fLanes (f : Frame) : Nat := f.nat 16 2 % 512
/-- MEMBERS of a descriptor (R207). -/
def Frame.fMembers (f : Frame) : Nat := f.nat 18 3 % 524288
/-- LATEST_DIE of a descriptor (R207). -/
def Frame.fDie (f : Frame) : Nat := f.nat 21 3 % 262144
/-- LATEST_NS32 of a descriptor (R207). -/
def Frame.fNs (f : Frame) : Word := BitVec.ofNat 32 (f.nat 24 4)

/-- The descriptor of a message (R207). -/
def Frame.fDesc (f : Frame) : Nat × Nat × Nat := (f.fOp, f.fFmt, f.fLanes)

/-- The source of a link's error-log entries: the lane under R191, or the port (R215). -/
def LinkId.source (l : LinkId) : Nat :=
  match l.node with
  | .tsu => Machine.srcLane l.port
  | .gd => l.port

end Sys2Proof

namespace Sys2Proof.Machine

/-- RX_PIPE of a lane or port at its trained rate (R218). -/
def Link.rxPipeNow (k : Link) : Nat := if k.fallback then k.rxPipeFb else k.rxPipe

/-- TX_PIPE of a lane or port at its trained rate (R218). -/
def Link.txPipeNow (k : Link) : Nat := if k.fallback then k.txPipeFb else k.txPipe

/-- Take the next free value's index. -/
def State.takeFresh (s : State) : State := { s with fresh := s.fresh + 1 }

/-- The instant of NS32 `w` that lies within -2^31 to 2^31 - 1 ns of now (R50), in ns since the epoch: it may
lie before the epoch. -/
def extendNs (now : Time80) (w : Word) : Int := now.toNs + sdiff 32 w.toNat now.ns32.toNat

/-- The instant of NS32 `w` with a ns.16 fraction, extended as in R50, in units of 2^-16 ns. -/
def extendNs16 (now : Time80) (w : Word) (frac : Nat) : Int := extendNs now w * 65536 + frac

/-- R of R326 at an instant in ns, for offsets in force. -/
def radioNs (frames ns : Nat) (at_ : Int) : Int := at_ - 315964819000000000 - frames * 10000000 - ns

/-- NS32 and the ns.16 fraction of an instant in units of 2^-16 ns, as one number modulo 2^48. -/
def stamp48 (t : Int) : Nat := (t % 281474976710656).toNat

end Sys2Proof.Machine
end

