-- ==== Sys2Proof/Machine/Flags.lean ====
section
/-! DEFINITION. Flags: the write-1-to-clear bits, the error log of R215, R458 and R477, the access-error flags of
R457 and R476, the interrupt status of R456 and R476, and the journal record of an error-log entry (R407). -/

namespace Sys2Proof.Machine

open Sys2Proof

/-- The write-1-to-clear bits of a register. -/
def Common.evtWord (c : Common) (off : Nat) : Word := Tab.getD c.evt off 0

/-- Set bits of a write-1-to-clear register; they count as set in the running cycle (R17). -/
def Common.setEvt (c : Common) (off : Nat) (mask : Word) : Common :=
  { c with evt := Tab.put c.evt off (c.evtWord off ||| mask),
           setNow := Tab.put c.setNow off (Tab.getD c.setNow off 0 ||| mask) }

/-- Clear the written bits of a write-1-to-clear register (R15). -/
def Common.clearEvt (c : Common) (off : Nat) (mask : Word) : Common :=
  { c with evt := Tab.put c.evt off (c.evtWord off &&& ~~~ mask) }

/-- Clear the written bits; of a write in the same cycle as the events that set them, those stay set (R17). -/
def Common.clearWritten (c : Common) (same : Bool) (off : Nat) (mask : Word) : Common :=
  c.clearEvt off (if same then mask &&& ~~~ Tab.getD c.setNow off 0 else mask)

/-- The enabled interrupt-status bits (R456, R476). -/
def Common.irqActive (c : Common) : Word := c.evtWord 0x40 &&& Tab.getD c.rw 0x44 0

/-- Queue an interrupt vector's event; one that waits already is merged (R511). -/
def Common.raiseVector (c : Common) (v : Nat) : Common :=
  if v ∈ c.irq then c else { c with irq := c.irq ++ [v] }

/-- Set interrupt-status bits; vector 0 is raised on the change of the enabled status from 0 to non-zero
(R456). -/
def Common.setIrq (c : Common) (mask : Word) : Common :=
  let c' := c.setEvt 0x40 mask
  if c.irqActive = 0 ∧ c'.irqActive ≠ 0 then c'.raiseVector 0 else c'

/-- An access error sets a flag and records the address (R457, R476). -/
def Common.accessErr (c : Common) (bit : Nat) (off : Nat) : Common :=
  let c' := { c.setEvt 0x50 (BitVec.ofNat 32 (2 ^ bit)) with accAddr := off }
  c'.setIrq 0x8000#32

/-- Merge an occurrence into the held entry of its code and source, within 1 ms of that entry's first occurrence
(R458). -/
def mergeLog (code source detail aon : Nat) : List LogEntry → Option (List LogEntry)
  | [] => none
  | e :: t =>
    if e.code = code ∧ e.source = source ∧ aon ≤ e.aon + 1000000 then
      some ({ e with detail := detail, rep := min (e.rep + 1) 0xFFFF } :: t)
    else (mergeLog code source detail aon t).map (e :: ·)

/-- Record a code, by its value, in an error log of `cap` entries whose OVF bit is `ovf` of register `off` (R215, R458,
R477). -/
def Common.record (c : Common) (cap off : Nat) (ovf : Word) (code source detail : Nat) (slice : Option Nat) : Common :=
  let group : Word := BitVec.ofNat 32 (2 ^ (code / 256))
  match mergeLog code source detail c.time.aon c.log with
  | some l => { c with log := l }.setIrq group
  | none =>
    if cap ≤ c.log.length then
      ({ c with logLost := min (c.logLost + 1) 0xFFFF }.setEvt off ovf).setIrq group
    else
      let e : LogEntry := { code := code, source := source, ns32 := c.time.counter.ns32, detail := detail,
                            rep := 0, slice := slice, aon := c.time.aon }
      { c with log := c.log ++ [e] }.setIrq (group ||| 1#32)

/-- The journal stack is present: on a GD-64X whose fuses do not disable it (R3, R407, R474). -/
def Gd.hasJournal (g : Gd) : Bool := g.variant = .gd64x && !bitOf g.unitDis 5

/-- The policy sets are present: not on a GD-32E, nor where the fuses disable the allocator (R3, R418, R474). -/
def Gd.hasAlloc (g : Gd) : Bool := g.variant ≠ .gd32e && !bitOf g.unitDis 1

/-- The lines of the journal ring (R408). -/
def journalRing : Nat := 2000000000

/-- A line is written over the one that the ring held in its place (R408). -/
def journalPut (lines : Tab (List Byte)) (r : Nat) (line : List Byte) : Tab (List Byte) :=
  Tab.put (if journalRing ≤ r then Tab.del lines (r - journalRing) else lines) r line

/-- Write a journal record: kind, code, source, the time quality and BODY (R407), at up to 1,000,000 records per
second; further ones are counted (R408). While the interface retrains, records wait in a FIFO of 4,096 (R429). After a
trigger only the records left over from it are written. -/
def Gd.journalWrite (g : Gd) (kind code source : Nat) (body : List Byte) : Gd :=
  if !g.hasJournal then g else
  let j := g.journal
  let sec := g.com.time.aon / 1000000000
  let n := if j.secAt = sec then j.inSec else 0
  if j.failed ∨ j.frozen ∨ j.postLeft = some 0 then g
  else if 1000000 ≤ n ∨ (j.retraining ∧ 4096 ≤ j.wait.length) then { g with journal := { j with dropped := j.dropped + 1 } }
  else
    let line := rsLine (natBytes kind 2 ++ natBytes 0 2 ++ natBytes j.recno 8 ++ g.com.time.counter.bytes
      ++ natBytes code 2 ++ natBytes (source % 1048576) 3 ++ natBytes g.com.time.tq.code 1 ++ padTo 32 body)
    let post : Option Nat := match j.postLeft with
      | some (k + 1) => some k
      | p => p
    let group := code / 256
    let trig : Bool := 1 ≤ group ∧ group ≤ 14 ∧ bitOf (Tab.getD g.com.rw 0x800 0x10000000#32).toNat group
    let post' := if trig ∧ post = none then some (bitsOf (Tab.getD g.com.rw 0x800 0x10000000#32).toNat 31 16) else post
    let r := j.recno
    let j := { j with recno := r + 1, postLeft := post', secAt := sec, inSec := n + 1 }
    { g with journal := if j.retraining then { j with wait := Tab.put j.wait r line }
                        else { j with lines := journalPut j.lines r line } }

/-- A reference or time-quality change is journaled (R407). -/
def State.noteChange (s : State) (changed : Bool) : State :=
  if changed then s.updGd fun g => g.journalWrite 6 0 (g.locator.getD 0) (Config.noFrameBody g.journal.recno) else s

/-- Update a time domain where its quality may change; a change at the distributor is journaled (R407). -/
def State.updTimeQ (s : State) (n : Node) (f : TimeDom → TimeDom) : State :=
  let s' := s.updTime n f
  s'.noteChange (n = .gd && (s.time n).tq ≠ (s'.time n).tq)

/-- Update the reference selector; a change of RSTATE or of a selected entry is journaled (R407). -/
def State.updRef (s : State) (f : RefSel → RefSel) : State :=
  let s' := s.updGd fun g => { g with ref := f g.ref }
  let key (r : RefSel) : RState × Option Nat × Option Nat := (r.rstate, r.timeEntry, r.freqEntry)
  s'.noteChange (key s.gd.ref ≠ key s'.gd.ref)

/-- Update a reference source; a change of its state is journaled (R407). -/
def State.updRefSrc (s : State) (src : Nat) (f : RefSrc → RefSrc) : State :=
  let old := Tab.getD s.gd.ref.srcs src RefSrc.reset
  (s.updGd fun g => { g with ref := { g.ref with srcs := Tab.put g.ref.srcs src (f old) } }).noteChange
    (old.state ≠ (f old).state)

/-- The 16 bytes of an error-log entry: its register words in order (R458). -/
def LogEntry.bytes (e : LogEntry) : List Byte :=
  natBytes (e.source * 65536 + e.code) 4 ++ natBytes e.ns32.toNat 4 ++ natBytes e.detail 4
    ++ natBytes (e.rep + (e.slice.getD 0) * 65536 + b2n e.slice.isSome * 4194304) 4

/-- The event bit that shows that a code was recorded: its register and its bit (R213, R247, R285, R324, R355, R381,
R410). -/
def codeEvt : ErrCode → Option (Nat × Nat)
  | .overflow => some (0x404, 13) | .underflow => some (0x404, 14) | .genSkip => some (0x404, 15)
  | .launchLate => some (0x504, 9) | .launchDropped => some (0x504, 10) | .stageWait => some (0x504, 11)
  | .queueStall => some (0x504, 12) | .abortOverrun => some (0x504, 13)
  | .combineUnsupported => some (0x584, 13) | .predNoResult => some (0x584, 14)
  | .resultIncomplete => some (0x584, 15) | .carryFull => some (0x584, 16)
  | .clauseRunaway => some (0x604, 6) | .clauseFault => some (0x604, 7) | .imageRefused => some (0x604, 8)
  | .imageLate => some (0x604, 10) | .radioMiss => some (0x650, 10) | .swapFault => some (0x658, 14)
  | .listLate => some (0x664, 14) | .seqLate => some (0x664, 15) | .busy => some (0x6CC, 16)
  | .dlogOverflow => some (0x6C0, 5) | .joinRefused => some (0x780, 5)
  | .portReset => some (0x7C8, 1) | .storeUncorr => some (0x7E8, 16)
  | _ => none

/-- A code recorded for a slice shows in its page (R458, R463). -/
def Slice.noteErr (v : Slice) (code detail : Nat) : Slice :=
  { v with errCode := code, errDetail := detail, errCount := min (v.errCount + 1) 0xFFFF }

/-- Record a code in the TSU's error log, with the source identifier of R191, the detail and the slice (R215). -/
def State.logT (s : State) (code : ErrCode) (source : Nat := 0) (detail : Nat := 0) (slice : Option Nat := none) :
    State :=
  let s := s.updCom .tsu fun c => c.record 64 0x480 0x80#32 code.value source (detail % 4294967296) slice
  let s := match codeEvt code with
    | some (off, bit) => s.updCom .tsu fun c => c.setEvt off (BitVec.ofNat 32 (2 ^ bit))
    | none => s
  match slice with
  | some n => s.updTsu fun t =>
    let v := (Tab.getD t.slices n Slice.reset).noteErr code.value (detail % 4294967296)
    { t with slices := Tab.put t.slices n v }
  | none => s

/-- The event bit of the distributor that shows that a code was recorded (R475, R484 to R487). -/
def codeEvtG : ErrCode → Option (Nat × Nat)
  | .roleVariant => some (0x14, 5) | .expelLimit => some (0x708, 24) | .sideMoved => some (0x718, 4)
  | .censusSlow => some (0x730, 18) | .journalFault => some (0x804, 3) | .storeUncorr => some (0x93C, 8)
  | .tamper => some (0xA1C, 6)
  | _ => none

/-- Record a code, by its value, in the distributor's error log; each entry is journaled too (R477). -/
def State.logRaw (s : State) (code source detail : Nat) : State :=
  let s := s.updCom .gd fun c => c.record 128 0x80 0x100#32 code source (detail % 4294967296) none
  let e : LogEntry := ⟨code, source, s.gd.com.time.counter.ns32, detail % 4294967296, 0, none, s.gd.com.time.aon⟩
  s.updGd fun g => g.journalWrite 1 code source e.bytes

/-- Record a code in the distributor's error log, with the port (R477). -/
def State.logG (s : State) (code : ErrCode) (source : Nat := 0) (detail : Nat := 0) : State :=
  let s := s.logRaw code.value source detail
  match codeEvtG code with
  | some (off, bit) => s.updCom .gd fun c => c.setEvt off (BitVec.ofNat 32 (2 ^ bit))
  | none => s

/-- Record a code at either node. -/
def State.log (s : State) (n : Node) (code : ErrCode) (source : Nat := 0) (detail : Nat := 0) : State :=
  match n with
  | .tsu => s.logT code source detail
  | .gd => s.logG code source detail

/-- A cycle of the register clock ends, which this model counts with the time-clock: what was set or written in it is
past (R17). -/
def State.cycleEnd (s : State) (n : Node) : State := s.updCom n fun c => { c with setNow := [], lastWr := none }

/-- Set bits of a write-1-to-clear register of a node. -/
def State.setEvt (s : State) (n : Node) (off : Nat) (mask : Word) : State := s.updCom n fun c => c.setEvt off mask

/-- A write that needs the key seal, at the distributor, with the seal not open: CUSTODY is set and
ONE_CUSTODY_REQUIRED recorded (R15, R476). -/
def State.custodyRefused (s : State) (off : Nat) : State :=
  (s.updCom .gd fun c => c.accessErr 2 off).logG .custodyRequired

/-- A port page of an absent or fused port (R474). -/
def Gd.portAbsent (g : Gd) (p : Nat) : Bool :=
  68 ≤ p || g.badPorts.contains p || ((g.variant = .gd32e || bitOf g.unitDis 0) && 32 ≤ p && p < 64)

/-- The reference inputs are present: on a GD-64X whose fuses do not disable them (R3, R474). -/
def Gd.hasRef (g : Gd) : Bool := g.variant = .gd64x && !bitOf g.unitDis 3

/-- The Ethernet time ports are present (R3, R474). -/
def Gd.hasPtp (g : Gd) : Bool := g.variant = .gd64x && !bitOf g.unitDis 4

/-- SCAN of every format and width: not on a GD-32E, nor where the fuses narrow it (R3, R474). -/
def Gd.scanFull (g : Gd) : Bool := g.variant ≠ .gd32e && !bitOf g.unitDis 2

/-- A register of the reference inputs and timing outputs, or of the Ethernet time ports, that is not there (R5, R474,
R478). -/
def Gd.refAbsent (g : Gd) (off : Nat) : Bool :=
  let ref : Bool := (0x214 ≤ off && off < 0x238) || (0x2A4 ≤ off && off < 0x2CC)
  let ptp : Bool := (0x238 ≤ off && off < 0x248) || (0x294 ≤ off && off < 0x2A4)
  g.variant ≠ .gd64x || (ref && !g.hasRef) || (ptp && !g.hasPtp)

/-- A register of the TSU that belongs to an absent repeater (R5, R144, R146). -/
def State.tsuAbsent (s : State) (off : Nat) : Bool :=
  0x200 ≤ off && off < 0x300 && !(s.region ((off - 0x200) / 0x20)).present

/-- A register of an absent unit (R5, R474). -/
def State.gdAbsent (s : State) (off : Nat) : Bool :=
  (0x200 ≤ off && off < 0x400 && s.gd.refAbsent off) || (0x800 ≤ off && off < 0x900 && !s.gd.hasJournal)
    || (((0x560 ≤ off && off < 0x56C) || (0xE00 ≤ off && off < 0x1000)) && !s.gd.hasAlloc)
    || (0x10000 ≤ off && off < 0x14400 && s.gd.portAbsent ((off - 0x10000) / 0x100))

/-- A write of a distributor register does not take effect because of another access in its cycle: the lead's, beside
the management port's (R17, R471). -/
def State.collides (s : State) (acc : Access) (off : Nat) : Bool :=
  acc.same && acc.master = 0 && s.gd.com.lastWr = some (off, 1)

/-- The bookkeeping of a write: its register and master; a management-port write in the same cycle as the lead's
write of that register takes its place, and COLLIDE is set (R17, R471). -/
def State.noteWrite (s : State) (acc : Access) (off : Nat) : State :=
  s.updCom .gd fun c =>
    let c := if acc.same ∧ acc.master = 1 ∧ c.lastWr = some (off, 0) then c.accessErr 3 off else c
    { c with lastWr := some (off, acc.master) }

/-- A write in the cycle of CHIP_RST is lost (R489). -/
def State.lostToReset (s : State) (acc : Access) : Bool :=
  acc.same && s.gd.lastCause = 3 && s.gd.boot.phase = 1 && s.gd.boot.startAt = s.gd.com.time.aon

/-- A write of a distributor register with a behaviour of its own: a narrow access sets NARROW, the understudy has read
access only, an absent unit sets ABSENT, the lead's write beside the management port's is discarded, and a custody
operation needs the key seal open (R5, R10, R15, R17, R471, R474). -/
def State.gdWrite (s : State) (acc : Access) (off : Nat) (custody : Bool) (f : State → State) : State :=
  if !acc.whole then s.updCom .gd fun c => c.accessErr 0 off
  else if acc.master = 2 ∨ s.lostToReset acc then s
  else if s.gdAbsent off then s.updCom .gd fun c => c.accessErr 1 off
  else if s.collides acc off then s.updCom .gd fun c => c.accessErr 3 off
  else if custody ∧ s.gd.sealSt ≠ .opened then s.custodyRefused off
  else f (s.noteWrite acc off)

/-- A write to a port page: ABSENT for a port that is not there (R474, R488). -/
def State.portPage (s : State) (p off : Nat) (f : State → State) : State :=
  if s.gd.portAbsent p then s.updCom .gd fun c => c.accessErr 1 (0x10000 + 0x100 * p + off) else f s

end Sys2Proof.Machine
end

