-- ==== Sys2Proof/Machine/Operands.lean ====
section
/-! DEFINITION. The fields of the plain registers as the rules read them, with their reset values and the bounds at
which out-of-range values act. -/

namespace Sys2Proof.Machine

open Sys2Proof

/-- The reset value of a TSU register's read-write fields. -/
def resetTsu : Nat → Nat
  | 0x120 => 0x00644A10
  | 0x140 => 0x00101498
  | 0x1C0 => 0x00006402
  | 0x1CC => 0x000203E8
  | 0x20C => 0x00140000 | 0x22C => 0x00140000 | 0x24C => 0x00140000 | 0x26C => 0x00140000
  | 0x28C => 0x00140000 | 0x2AC => 0x00140000 | 0x2CC => 0x00140000 | 0x2EC => 0x00140000
  | 0x300 => 0x00002003
  | 0x400 => 0x11F407D0
  | 0x500 => 0x18
  | 0x580 => 0x4E20
  | 0x600 => 0x1000
  | 0x64C => 0x1904
  | 0x654 => 0x03E80A64
  | 0x790 => 0x00320508
  | 0x7E8 => 0x64
  | _ => 0

/-- The reset value of a distributor register's read-write fields; image and setting values are the defaults of
R102 and R478 to R488. -/
def resetGd (off : Nat) : Nat :=
  if 0x10000 ≤ off ∧ off < 0x14400 ∧ off % 0x100 = 0 then 0x401
  else if 0x10000 ≤ off ∧ off < 0x14400 ∧ off % 0x100 = 0x1C then 10000
  else match off with
  | 0x120 => 0x00644A10
  | 0x140 => 0x00101498
  | 0x200 => 10 + 60 * 2 ^ 10 + 7 * 2 ^ 17 + 10 * 2 ^ 25
  | 0x204 => 10 + 100 * 2 ^ 5 + 2 * 2 ^ 15 + 20 * 2 ^ 17 + 10 * 2 ^ 24
  | 0x208 => 1000000
  | 0x20C => 900
  | 0x294 => 24 * 256 | 0x298 => 24 * 256
  | 0x2A4 => 0x150
  | 0x2A8 => 100
  | 0x418 => 1 + 60 * 256
  | 0x710 => 1000
  | 0x800 => 4096 * 65536
  | 0xA10 => 60 * 65536
  | 0xA1C => 30 * 65536
  | _ => 0

/-- The reset value of a register's read-write fields at a node. -/
def resetReg : Node → Nat → Nat
  | .tsu => resetTsu
  | .gd => resetGd

/-- The read-write fields of a register of a common part. -/
def Common.reg (c : Common) (n : Node) (off : Nat) : Nat :=
  (Tab.getD c.rw off (BitVec.ofNat 32 (resetReg n off))).toNat

/-- The read-write fields of a register. -/
def State.reg (s : State) (n : Node) (off : Nat) : Nat := (s.com n).reg n off

/-- Set the read-write fields of a register. -/
def State.setReg (s : State) (n : Node) (off : Nat) (w : Word) : State :=
  s.updCom n fun c => { c with rw := Tab.put c.rw off w }

/-- A field as a value with 0 acting as 1. -/
def orOne (v : Nat) : Nat := if v = 0 then 1 else v

/-- A value limited to a range. -/
def clampNat (lo hi v : Nat) : Nat := max lo (min hi v)

/-- QUAL_LIMIT in units of 2^-16 ns (R65). -/
def State.qualLimit (s : State) (n : Node) : Int := orOne (bitsOf (s.reg n 0x120) 7 0) * 8192

/-- The hold of R55 in time frames (R65). -/
def State.qualHold (s : State) (n : Node) : Nat := 2 ^ clampNat 4 14 (bitsOf (s.reg n 0x120) 11 8)

/-- The drop of R56 in time frames (R65). -/
def State.qualDrop (s : State) (n : Node) : Nat := 2 ^ min 10 (bitsOf (s.reg n 0x120) 15 12)

/-- STEP_LIMIT in units of 2^-16 ns (R65). -/
def State.stepLimit (s : State) (n : Node) : Int := orOne (bitsOf (s.reg n 0x120) 23 16) * 65536000000

/-- KP_SHIFT of R90. -/
def State.kpShift (s : State) (n : Node) : Nat := clampNat 4 12 (bitsOf (s.reg n 0x140) 3 0)

/-- KI_SHIFT of R90. -/
def State.kiShift (s : State) (n : Node) : Nat := clampNat 6 14 (bitsOf (s.reg n 0x140) 7 4)

/-- SLEW_ENTRY in units of 2^-16 ns (R90). -/
def State.slewEntry (s : State) (n : Node) : Int := orOne (bitsOf (s.reg n 0x140) 15 8) * 65536

/-- DELAY_GATE in units of 2^-17 ns (R90). -/
def State.delayGate (s : State) (n : Node) : Nat := orOne (bitsOf (s.reg n 0x140) 23 16) * 16384

/-- REF_QUAL_TIME in ns (R102). -/
def State.refQualTime (s : State) : Nat := clampNat 1 600 (bitsOf (s.reg .gd 0x200) 9 0) * 1000000000
/-- REF_FREQ_LIMIT in ppb (R102). -/
def State.refFreqLimit (s : State) : Nat := clampNat 1 100 (bitsOf (s.reg .gd 0x200) 16 10) * 1000
/-- PTP_CLASS_MAX (R102). -/
def State.ptpClassMax (s : State) : Nat := clampNat 6 255 (bitsOf (s.reg .gd 0x200) 24 17)
/-- REF_SLEW in ppm (R102). -/
def State.refSlew (s : State) : Nat := clampNat 1 40 (bitsOf (s.reg .gd 0x200) 30 25)
/-- REF_ACCEL in ppm/s (R102). -/
def State.refAccel (s : State) : Nat := clampNat 1 20 (bitsOf (s.reg .gd 0x204) 4 0)
/-- FIRST_REF_WAIT in ns (R102). -/
def State.firstRefWait (s : State) : Nat := clampNat 1 3 (bitsOf (s.reg .gd 0x204) 16 15) * 1000000000
/-- TAKEOVER_WAIT in ns (R102). -/
def State.takeoverWait (s : State) : Nat := clampNat 5 100 (bitsOf (s.reg .gd 0x204) 23 17) * 1000000
/-- ELECT_WAIT in ns (R102). -/
def State.electWait (s : State) : Nat := clampNat 5 40 (bitsOf (s.reg .gd 0x204) 29 24) * 1000000
/-- REF_ADOPT_LIMIT in ns (R102). -/
def State.refAdoptLimit (s : State) : Nat := clampNat 1000 100000000 (bitsOf (s.reg .gd 0x208) 26 0)
/-- HOLD_SPEC in ns (R102). -/
def State.holdSpec (s : State) : Nat := min 86400 (bitsOf (s.reg .gd 0x20C) 16 0) * 1000000000

/-- The role a distributor holds (R23, R28): 0 sled, 1 rack, 2 pod, 3 hall root. -/
def Gd.role (g : Gd) : Option Nat := g.locator.map fun l => bitsOf l 19 18

/-- The side a distributor holds: false A, true B (R23). -/
def Gd.sideB (g : Gd) : Bool := (g.locator.map fun l => bitOf l 17).getD false

/-- The port page of the partner link: L1 on side A, L0 on side B (R26). -/
def Gd.partnerPort (g : Gd) : Nat := if g.sideB then 66 else 67

/-- The port page of the other ring port. -/
def Gd.ringPort (g : Gd) : Nat := if g.sideB then 67 else 66

/-- The register offset of a lane's or port's time status (R90, R488). -/
def tstatOff (l : LinkId) : Nat :=
  match l.node with
  | .tsu => 0x180 + 0x20 * l.port
  | .gd => 0x10000 + 0x100 * l.port + 0x20

/-- The register offset of a lane's or port's link status (R183, R488). -/
def lstatOff (l : LinkId) : Nat :=
  match l.node with
  | .tsu => 0x320 + 0x20 * l.port
  | .gd => 0x10000 + 0x100 * l.port + 0x04

/-- The two lanes of the TSU, or the distributor's upstream ports (R81). -/
def upPorts : Node → List Nat
  | .tsu => [0, 1]
  | .gd => [64, 65]

/-- Launch-capable: COMPUTE has passed, an extract is current and LAUNCH_OK = 1; a hall root's RSTATE has left START; any
other distributor's CENSUS stage has ended (R413, R414). -/
def State.launchCapable (s : State) : Node → Bool
  | .tsu => s.tsu.boot.phase = 7 && s.tsu.tree.isSome && s.tsu.com.time.launchOk
  | .gd => s.gd.boot.phase = 15 && (!s.gd.rootSel || s.gd.ref.rstate ≠ .start)

/-- BOOT_MS is kept when a unit first becomes launch-capable (R432, R486). -/
def State.bootMsLatch (s : State) (n : Node) : State :=
  let ms (b : Boot) : Boot :=
    if b.bootMs.isNone then { b with bootMs := some (min 0xFFFF (roundAway ((s.com n).time.aon - b.startAt : Nat) 1000000).toNat) } else b
  if !s.launchCapable n then s
  else match n with
    | .tsu => { s with tsu := { s.tsu with boot := ms s.tsu.boot } }
    | .gd => { s with gd := { s.gd with boot := ms s.gd.boot } }

end Sys2Proof.Machine
end

