-- ==== Sys2Proof/Machine/SendOps.lean ====
section
/-! DEFINITION. Sending on the links: output queues and ready marks (R174), chains of frames (R207), detours
(R158), the messages a TSU or a distributor originates, and HEALTH (R400). -/

namespace Sys2Proof.Machine

open Sys2Proof

/-- The room of an output queue (R174). -/
def queueCap (cls : Nat) : Nat := if cls = 3 then 16 else 32

/-- The output queue of a class. -/
def Link.queue (k : Link) (cls : Nat) : List Frame :=
  match cls with
  | 1 => k.q1
  | 2 => k.q2
  | _ => k.q3

/-- Replace the output queue of a class. -/
def Link.setQueue (k : Link) (cls : Nat) (q : List Frame) : Link :=
  match cls with
  | 1 => { k with q1 := q }
  | 2 => { k with q2 := q }
  | _ => { k with q3 := q }

/-- Set MORE on all frames of a message but the last (R160, R207). -/
def chainFrames : List Frame → List Frame
  | [] => []
  | [f] => [{ f with more := false }]
  | f :: t => { f with more := true } :: chainFrames t

/-- A message enters its output queue, or waits as a ready mark behind those of its queue that wait already
(R174). -/
def State.send (s : State) (l : LinkId) (cls key : Nat) (msg : List Frame) : State :=
  let fs := chainFrames msg
  let k := s.link l
  let waits := (s.com l.node).marks.any fun m => m.port = l.port && m.cls = cls
  if !waits ∧ (k.queue cls).length + fs.length ≤ queueCap cls then
    s.updLink l fun k => k.setQueue cls (k.queue cls ++ fs)
  else s.updCom l.node fun c => { c with marks := c.marks ++ [⟨l.port, cls, fs, key⟩] }

/-- Append frames to an output queue in order; those beyond its room, and those behind marks of that queue, wait as
ready marks (R174). -/
def State.sendAll (s : State) (l : LinkId) (cls : Nat) (fs : List Frame) : State :=
  let waits := (s.com l.node).marks.any fun m => m.port = l.port && m.cls = cls
  let room := if waits then 0 else queueCap cls - (s.link l |>.queue cls).length
  let s := s.updLink l fun k => k.setQueue cls (k.queue cls ++ fs.take room)
  s.updCom l.node fun c => { c with marks := c.marks ++ (fs.drop room).map fun f => ⟨l.port, cls, [f], 0⟩ }

/-- A frame of a type and class with its domain, generation, step, time field and payload (R160). -/
def mkFrame (type : BitVec 6) (cls : BitVec 2) (gen : BitVec 2) (domain : BitVec 24) (step : BitVec 16) (time : Word)
    (body : List Byte) : Frame :=
  { Frame.blank type cls with gen, domain, step16 := step, time, body := padTo 48 body }

/-- The frames of a message: the first with its own bytes, the others with 48 data bytes each (R207, R226). -/
def dataFrames (first : Frame) (rest : List Byte) : Nat → List Frame
  | 0 => [first]
  | n + 1 => first :: (List.range (n + 1)).map fun k => { first with body := padTo 48 (rest.drop (48 * k)) }

/-- Continuation frames that L data bytes take after a first frame with room for `room` (R207, R226). -/
def moreFrames (room len : Nat) : Nat := (len - room + 47) / 48

/-- The lane to a domain's active side: lane 0 to side A, lane 1 to side B; the other one, by detour, where it is not
UP and the other is (R158). The domain's frames take a link at fallback as not UP where REQUIRE_FULL_RATE is set
(R157). -/
def State.laneFor (s : State) (sideB fullRate : Bool) : Nat × Bool :=
  let p := if sideB then 1 else 0
  let ok : Nat → Bool := fun l => s.trained ⟨.tsu, l⟩ && !(fullRate && (s.link ⟨.tsu, l⟩).fallback)
  if ok p ∨ !ok (1 - p) then (p, false) else (1 - p, true)

/-- Send a message of a domain up from the TSU. -/
def State.tsuUp (s : State) (sideB fullRate : Bool) (cls key : Nat) (fs : List Frame) : State :=
  let p := s.laneFor sideB fullRate
  s.send ⟨.tsu, p.1⟩ cls key (fs.map fun f => { f with detour := p.2 })

/-- Discard a malformed frame: count it and record ONE_FRAME_MALFORMED (R162). -/
def State.malformed (s : State) (l : LinkId) : State :=
  (s.updLink l fun k => { k with malformed := min (k.malformed + 1) 0xFFFF }).log l.node .frameMalformed l.source

/-! ## Children of a distributor -/

/-- The children below a role (R19, R25). -/
def Gd.fan (g : Gd) : Nat :=
  match g.role with
  | some 0 => 8
  | some 1 => 16
  | some 2 => 32
  | some _ => 64
  | none => 0

/-- The cross port of child `i` (R25). -/
def Gd.crossPort (g : Gd) (i : Nat) : Option Nat :=
  match g.role with
  | some 1 => some (16 + i)
  | some 2 => if g.variant = .gd32e then none else some (32 + i)
  | _ => none

/-- The child of a downstream port: a cross port N + i belongs to child i (R25, R203). -/
def Gd.childOfPort (g : Gd) (p : Nat) : Nat := if g.fan ≤ p then p - g.fan else p

/-- A domain at the distributor. -/
def State.dom? (s : State) (tag : BitVec 24) : Option GdDom := Tab.get s.gd.doms tag.toNat

/-- The acting side of child position `i` for a domain: its declared side, unless TAKE moved it and no RETURN has
reached its AT (R384). -/
def State.childSide (s : State) (i : Nat) (tag : BitVec 24) : Bool :=
  let d := ((s.dom? tag).map (·.dr.sideB)).getD false
  let back : Bool := match Tab.get s.gd.childReturn i with
    | some w => decide (w ≤ (s.now .gd).toNs)
    | none => false
  if back then d else (Tab.get s.gd.childMoved i).getD d

/-- A port of the distributor carries the frames of a domain: it is UP, and at full rate where the domain requires it
(R157). -/
def State.linkCarries (s : State) (tag : BitVec 24) (p : Nat) : Bool :=
  s.trained ⟨.gd, p⟩ && !(((s.dom? tag).map (·.dr.fullRate)).getD false && (s.link ⟨.gd, p⟩).fallback)

/-- The route from a parent to the acting side of child position `i`: its own port, its cross port, or its partner
link unless the frame came on it (R157, R385). -/
def State.childRoute (s : State) (i from_ : Nat) (tag : BitVec 24) : Option Nat :=
  let side := s.childSide i tag
  let cross := (s.gd.crossPort i).getD 0
  if side = s.gd.sideB ∧ s.linkCarries tag i then some i
  else if side ≠ s.gd.sideB ∧ (s.gd.crossPort i).isSome ∧ s.linkCarries tag cross then some cross
  else if from_ ≠ s.gd.partnerPort ∧ s.linkCarries tag s.gd.partnerPort then some s.gd.partnerPort
  else none

/-- Split frames into messages at each clear MORE (R207). -/
def splitMessages : List Frame → List Frame → List (List Frame)
  | acc, [] => if acc = [] then [] else [acc]
  | acc, f :: t => if f.more then splitMessages (acc ++ [f]) t else (acc ++ [f]) :: splitMessages [] t

/-- Route a detoured message to the acting side of a child position, or hold it, up to 64 frames per position
(R385). -/
def State.routeChild (s : State) (i from_ : Nat) (fs : List Frame) : State :=
  match s.childRoute i from_ ((fs.head?.map (·.domain)).getD 0) with
  | some p => s.send ⟨.gd, p⟩ ((fs.head?.map (·.cls.toNat)).getD 2) 0 (fs.map fun f => { f with detour := true })
  | none => s.updGd fun g =>
    let h := Tab.getD g.held i []
    if 64 < h.length + fs.length then g else { g with held := Tab.put g.held i (h ++ fs) }

/-- Held frames try their route again (R385). -/
def State.unhold (s : State) (i : Nat) : State :=
  match Tab.get s.gd.held i with
  | none => s
  | some fs =>
    let s := s.updGd fun g => { g with held := Tab.del g.held i }
    (splitMessages [] fs).foldl (fun s m => s.routeChild i 64 m) s

/-- Every child position's held frames try their route again. -/
def State.unholdAll (s : State) : State := s.gd.held.foldl (fun s p => s.unhold p.1) s

/-- EVENT of a HEALTH frame for a code (R383, R400). -/
def healthEvent : ErrCode → Option Nat
  | .linkDegraded => some 0 | .redundancyLost => some 1 | .straggler => some 2 | .repeaterSlip => some 3
  | .fenceHung => some 4 | .timeLoss => some 5 | .abortOverrun => some 6 | .linkDown => some 7
  | _ => none

/-- Merge a repeat into a HEALTH frame that still waits (R215, R400). -/
def mergeHealth (ev : Nat) : List Frame → Option (List Frame)
  | [] => none
  | f :: t =>
    if f.type = 0x14 ∧ f.byte 12 = ev then
      some ({ f with body := f.body.set 1 (BitVec.ofNat 8 (min 255 (f.byte 13 + 1))) } :: t)
    else (mergeHealth ev t).map (f :: ·)

/-- A TSU sends HEALTH with an EVENT and a CODE on lane 0, or on lane 1 when lane 0 is not UP; a repeat merges
(R400). -/
def State.healthSendEv (s : State) (ev code : Nat) : State :=
  let lane := if s.trained ⟨.tsu, 0⟩ then 0 else 1
  match mergeHealth ev (s.link ⟨.tsu, lane⟩).q2 with
  | some q => s.updLink ⟨.tsu, lane⟩ fun k => { k with q2 := q }
  | none =>
    let die := s.tsu.dieId.getD 0
    s.send ⟨.tsu, lane⟩ 2 0 [mkFrame 0x14 2 0 0 0 (s.now .tsu).ns32
      (natBytes ev 1 ++ natBytes 1 1 ++ natBytes code 2 ++ natBytes die 3)]

/-- A TSU sends HEALTH for a code that has an EVENT (R400). -/
def State.healthSend (s : State) (code : ErrCode) : State :=
  match healthEvent code with
  | none => s
  | some ev => s.healthSendEv ev code.value

end Sys2Proof.Machine
end

