-- ==== Sys2Proof/Machine/SliceOps.lean ====
section
/-! DEFINITION. Shared operations of slices: their parts of the stores, writes on the on-die network with the page
log, and the completion ring (R239, R359, R365, R366, R375, R377, R378). -/

namespace Sys2Proof.Machine

open Sys2Proof

/-- A slice. -/
def State.slice (s : State) (n : Nat) : Slice := Tab.getD s.tsu.slices n Slice.reset

/-- Update a slice. -/
def State.updSlice (s : State) (n : Nat) (f : Slice → Slice) : State :=
  s.updTsu fun t => { t with slices := Tab.put t.slices n (f (Tab.getD t.slices n Slice.reset)) }

/-- A launch port. -/
def State.port (s : State) (p : Nat) : Port := Tab.getD s.tsu.ports p Port.reset

/-- Update a launch port. -/
def State.updPort (s : State) (p : Nat) (f : Port → Port) : State :=
  s.updTsu fun t => { t with ports := Tab.put t.ports p (f (Tab.getD t.ports p Port.reset)) }

/-- Update a context directory entry. -/
def State.updCtx (s : State) (c : Nat) (f : Ctx → Ctx) : State :=
  s.updTsu fun t => { t with contexts := Tab.map t.contexts fun k v => if k = c then f v else v }

/-- Update a tumbler entry. -/
def State.updTumb (s : State) (e : Nat) (f : Tumbler → Tumbler) : State :=
  s.updTsu fun t => { t with tumb := Tab.map t.tumb fun k v => if k = e then f v else v }

/-- Source identifiers of R191 and R371. -/
def srcPort (p : Nat) : Nat := p
def srcCtx (record : Nat) : Nat := 0x4000 + record
def srcSlice (n : Nat) : Nat := 0x8000 + n
def srcHost : Nat := 0xE000

/-- The region of a launch port. -/
def State.regionOf (s : State) (p : Nat) : Nat := Tab.getD s.tsu.portRegion p (p / 128)

/-- A port names no port if it is fused bad, the host does not provide it, or its region's repeater is absent or failed (R22, R144). -/
def State.isPort (s : State) (p : Nat) : Bool :=
  let g := s.region (s.regionOf p)
  p < 1024 && !(s.tsu.badPorts.contains p) && !(s.tsu.noPorts.contains p) && g.present && !g.fail

/-- A slice's word of its page; RW words not written hold their reset values (R462, R463). -/
def Slice.word (v : Slice) (off : Nat) : Nat :=
  (Tab.getD v.page off (match off with
    | 0x034 => 0x100#32
    | 0x208 => 8#32
    | _ => 0)).toNat

/-- Set the CODE of a group of a slice page, and record the code (R463). -/
def State.spCode (s : State) (n off : Nat) (code : ErrCode) (detail : Nat := 0) : State :=
  let s := s.updSlice n fun v => { v with codes := Tab.put v.codes off code.value }
  if code = .none then s else s.logT code (srcSlice n) detail (some n)

/-! ## Memory writes -/

/-- Issue a write on the on-die network (R512). -/
def State.nwWrite (s : State) (kind : NwKind) (pasid addr : Nat) (data : List Byte) : State :=
  s.updTsu fun t => { t with nwWrites := t.nwWrites ++ [⟨kind, pasid, addr, data⟩] }

/-- Log a page of a slice that a write touched (R377, R378). -/
def State.pageLog (s : State) (n addr : Nat) : State :=
  let page := addr / 4096
  if !(s.slice n).dlogEn ∨ (s.tsu.filter.contains (n, page)) ∨
      (s.tsu.com.evtWord 0x6C0).getLsbD 5 then s
  else
    let size := 2 ^ (min 7 (bitsOf (s.reg .tsu 0x6C0) 3 0) + 9)
    let tail := s.reg .tsu 0x6C8
    if (s.tsu.dlogHead + 4294967296 - tail) % 4294967296 = size then s.logT .dlogOverflow
    else
      let base := s.reg .tsu 0x6BC * 4294967296 + bitsOf (s.reg .tsu 0x6B8) 31 12 * 4096
      let s := s.nwWrite .dlog 0 (base + 8 * (s.tsu.dlogHead % size)) (natBytes (page * 4096 + n * 64) 8)
      s.updTsu fun t => { t with dlogHead := (t.dlogHead + 1) % 4294967296, filter := ((n, page) :: t.filter).take 32 }

/-- A write into a slice's memory, under its PASID, with every page it touches logged (R377, R379). -/
def State.sliceWrite (s : State) (n : Nat) (kind : NwKind) (addr : Nat) (data : List Byte) : State :=
  (List.range ((addr + data.length - 1) / 4096 - addr / 4096 + 1)).foldl (fun (s : State) k => s.pageLog n (addr + 4096 * k))
    (s.nwWrite kind (s.slice n).pasid addr data)

/-- Issue a read on the on-die network (R512). -/
def State.nwRead (s : State) (kind : NwRead) (pasid addr len : Nat) : State :=
  s.updTsu fun t => { t with nwReads := t.nwReads ++ [⟨kind, pasid, addr, len⟩] }

/-! ## Completion records -/

/-- The 32 bytes of a completion record (R239). -/
def Record.bytes (r : Record) : List Byte :=
  natBytes r.kind 1 ++ natBytes r.slice 1 ++ natBytes r.sgen 1
    ++ natBytes (b2n r.short + 2 * b2n r.late + 4 * b2n r.dropped + 8 * b2n r.far + 16 * b2n r.gated) 1
    ++ natBytes r.code 2 ++ natBytes r.source 2 ++ natBytes r.gen 1 ++ natBytes r.domain 3 ++ natBytes r.index 2
    ++ natBytes r.step16 2 ++ natBytes r.c.toNat 4 ++ natBytes r.t.toNat 4 ++ natBytes r.members 3 ++ natBytes 0 1
    ++ natBytes r.detail.toNat 4

/-- A record of a kind for a slice, its other fields 0. -/
def State.blankRec (s : State) (kind n : Nat) : Record :=
  { kind, slice := n, sgen := (s.slice n).sgen, short := false, late := false, dropped := false, far := false,
    gated := false, code := 0, source := 0, gen := 0, domain := 0, index := 0, step16 := 0, c := 0, t := 0,
    members := 0, detail := 0 }

/-- Records in the ring or on their way to it (R365). -/
def Slice.ringUsed (v : Slice) : Nat := (v.crHead + v.inFlight + 4294967296 - v.crTail) % 4294967296

/-- log2 of the ring's records: SIZE below 7 acts as 7, above 16 as 16 (R365, R463). -/
def Slice.ringLog (v : Slice) : Nat := min 16 (max 7 v.crSize)

/-- The ring is full (R365). -/
def Slice.ringFull (v : Slice) : Bool := 2 ^ v.ringLog ≤ v.ringUsed

/-- Issue the write of a record at the ring's next place (R365). -/
def State.ringPut (s : State) (n : Nat) (r : Record) : State :=
  let v := s.slice n
  let addr := v.crBase + 32 * ((v.crHead + v.inFlight) % 2 ^ v.ringLog)
  (s.updSlice n fun v => { v with inFlight := v.inFlight + 1, lostRun := false }).sliceWrite n (.record n) addr r.bytes

/-- Write a completion record: into the ring, or held while the ring is full, or lost; work of an older generation
writes none (R365, R366, R375). -/
def State.writeRecord (s : State) (r : Record) : State :=
  let n := r.slice
  let v := s.slice n
  if v.state = .free ∨ v.sgen ≠ r.sgen then s.updSlice n fun v => { v with staleDrops := min (v.staleDrops + 1) 0xFF }
  else if !v.ringFull ∧ v.held = [] then s.ringPut n r
  else if v.held.length < 8 then s.updSlice n fun v => { v with held := v.held ++ [r] }
  else if v.lostRun then s
  else (s.updSlice n fun v => { v with ringLost := true, lostRun := true }).logT .ringOverflow (srcSlice n) 0 (some n)

/-- Records held move into the ring as it gains room, in order (R366). -/
def State.ringFlush (s : State) (n : Nat) : State :=
  ((s.slice n).held).foldl (fun s r =>
    if (s.slice n).ringFull then s
    else (s.updSlice n fun v => { v with held := v.held.drop 1 }).ringPut n r) s

/-- Vector 1 + n is judged on the records not consumed (R456). -/
def State.ringVector (s : State) (n : Nat) : State :=
  let v := s.slice n
  let diff := (v.crHead + 4294967296 - v.crTail) % 4294967296
  let irq := v.word 0x034
  let count := orOne (bitsOf irq 15 8)
  if diff < count then s.updSlice n fun v => { v with irqArmed := true }
  else if bitOf irq 0 ∧ v.irqArmed then
    (s.updSlice n fun v => { v with irqArmed := false }).updCom .tsu fun c => c.raiseVector (1 + n)
  else s

/-- The low 16 bits of the step number of a slice for a domain (R304). -/
def State.stepOf (s : State) (n : Nat) (tag : BitVec 24) : Nat :=
  (((s.slice n).bindings.find? fun b => b.tag = tag).map (·.step)).getD 0

/-- The slice bound to a domain (R185, R363). -/
def State.sliceOf (s : State) (tag : BitVec 24) : Option Nat :=
  ((s.tsu.slices.find? fun p => p.2.bindings.any fun b => b.tag = tag).map (·.1))

/-- The record of a domain in the current leaf extract (R363). -/
def State.domRec (s : State) (tag : BitVec 24) : Option DomRec :=
  s.tsu.tree.bind fun t => t.domains.find? fun d => d.tag = tag

/-- This TSU is the top node of a domain (R314). -/
def State.topHere (s : State) (tag : BitVec 24) : Bool := ((s.domRec tag).map (·.topIsDie)).getD false

/-- Update a binding of a domain. -/
def State.updBinding (s : State) (n : Nat) (tag : BitVec 24) (f : Binding → Binding) : State :=
  s.updSlice n fun v => { v with bindings := v.bindings.map fun b => if b.tag = tag then f b else b }

/-- T of a turn at this node: C + D + 50 ns, with the mode of the descriptor (R217, R223). Instants are in units of
2^-16 ns. -/
def launchT (a : Option ArmDesc) (c d : Int) : Option Int :=
  let base := c + d + 3276800
  match a with
  | none => none
  | some x => match x.mode with
    | .turn => none
    | .asap => some base
    | .at => some (max x.tReq.toNs16 base)
    | .offset => some (base + x.offset * 65536)

end Sys2Proof.Machine
end

