-- ==== Sys2Proof/Machine/LaunchOps.lean ====
section
/-! DEFINITION. Shared operations of armed launches: the arm table, strobes at the ports, CANCEL, drops and their
records (R136 to R142, R227 to R243). -/

namespace Sys2Proof.Machine

open Sys2Proof

/-- Queue an acknowledged word for the time bus of a region (R123, R124). -/
def State.busSend (s : State) (r : Nat) (b : BusBody) : State :=
  s.updRegion r fun g => { g with queue := g.queue ++ [⟨g.txSeq, b⟩], txSeq := (g.txSeq + 1) % 64 }

/-- Free a repeater slot (R227). -/
def State.freeSlot (s : State) (rs : Nat × Nat) : State :=
  s.updRegion rs.1 fun g => { g with taken := g.taken.filter (· ≠ rs.2) }

/-- Free the staging entries of a launch, or only of one of its two clauses, at some ports (R227, R228). -/
def State.freeStaging (s : State) (launch : Nat) (which : Option Bool) (ports : List Nat) (slots : List (Nat × Nat)) :
    State :=
  let s := ports.foldl (fun s p => s.updPort p fun q =>
    { q with staging := q.staging.filter fun e => e.launch ≠ launch ∨ (which.isSome ∧ which ≠ some e.alt) }) s
  slots.foldl State.freeSlot s

/-- The LAUNCH record of an arm-table entry (R239, R240). -/
def State.launchRecord (s : State) (a : Arm) (code : ErrCode) (detail : Nat) (dropped : Bool) : State :=
  s.writeRecord { s.blankRec 1 a.slice with
    sgen := a.sgen, short := a.short, late := a.late, dropped, far := a.far, code := code.value,
    source := srcCtx a.ctx, gen := a.gen.toNat, domain := a.domain.toNat, index := a.index,
    step16 := a.step16.toNat, c := a.c, t := a.t.ns32, members := a.members, detail := BitVec.ofNat 32 detail }

/-- The launch that an arm-table entry stands for, whatever has become of it. -/
def Arm.base (a : Arm) : Arm :=
  { a with sent := [], fired := [], late := false, cancel := .none, code := .none, listWait := false, struck := false }

/-- The LAUNCH record of a launch is written, or never will be: no port owes it any more (R240). -/
def State.recordDone (s : State) (a : Arm) : State :=
  s.updTsu fun t => { t with ports := Tab.map t.ports fun _ q =>
    { q with fired := q.fired.map fun f => if f.owed = some a.base then { f with owed := none } else f,
             fenceHeld := q.fenceHeld.map fun x => if x.1.owed = some a.base then ({ x.1 with owed := none }, x.2) else x } }

/-- An entry whose regions have all fired or are lost leaves the arm table, with what staging is left (R228). -/
def State.armDone (s : State) (id : Nat) : State :=
  match Tab.get s.tsu.arms id with
  | none => s
  | some a =>
    if a.slots.all fun x => a.fired.contains x.1 then
      let s := s.freeStaging a.launch none a.ports []
      let s := s.updTsu fun t => { t with arms := Tab.del t.arms id }
      if a.cancel = .none then
        let s := s.updTsu fun t => { t with fired := min (t.fired + b2n a.struck) 0xFFFF,
                                            lateCount := min (t.lateCount + b2n a.late) 0xFFFF }
        if a.code = .none ∧ !bitOf (s.reg .tsu 0x500) 4 then s
        else (s.launchRecord a a.code 0 false).recordDone a
      else s
    else s

/-- Update an arm-table entry. -/
def State.updArm (s : State) (id : Nat) (f : Arm → Arm) : State :=
  s.updTsu fun t => { t with arms := Tab.map t.arms fun k v => if k = id then f v else v }

/-- The arm-table entry that holds a repeater slot which has not fired. -/
def State.armOf (s : State) (r slot : Nat) : Option (Nat × Arm) :=
  s.tsu.arms.find? fun p => p.2.slots.contains (r, slot) && !p.2.fired.contains r

/-- The queued events, latest first, without the latest lend of a port; none where that lend has left (R211). -/
def dropLend (p : Nat) : List LendEvent → Option (List LendEvent)
  | [] => none
  | e :: t =>
    if e.port = p then (if e.lend then some t else none)
    else (dropLend p t).map (e :: ·)

/-- Reclaim the budget lent at a port; a lend that has not left the queue is removed with it (R210, R211). -/
def State.reclaim (s : State) (p : Nat) : State :=
  match (s.port p).lent with
  | none => s
  | some _ =>
    let s := s.updPort p fun q => { q with lent := none }
    s.updTsu fun t =>
      match dropLend p t.lend.reverse with
      | some l => { t with lend := l.reverse }
      | none => { t with lend := t.lend ++ [⟨false, p, t.com.time.counter.ns32⟩] }

/-- A port receives a command that carries no work, at once; a budget lent there is reclaimed (R210, R340). -/
def State.present (s : State) (p : Nat) (c : Command) : State :=
  (s.reclaim p).updPort p fun q => { q with direct := q.direct ++ [c] }

/-- A fired command takes its place: those of one instant stand in the order of their staging (R233). -/
def insertFired (f : Fired) : List Fired → List Fired
  | [] => [f]
  | g :: l => if g.shown.isNone ∧ g.t = f.t ∧ f.order < g.order then f :: g :: l else g :: insertFired f l

/-- The commands of a fired strobe at one port: they wait for capture, in staging order, or are held behind a fenced
sub-schedule (R142, R233); a pending-arrival record is kept for each that arrives, up to 8 (R342); a HOLD of the slice
ends with the command's capture (R340). -/
def State.firePort (s : State) (a : Arm) (r t reach : Nat) (gated late : Bool) (p : Nat) : State :=
  let q := s.port p
  let mine := q.staging.filter fun e => e.launch = a.launch
  let now := s.now .tsu |>.toNs16
  let resGen : Nat → Nat := fun e =>
    (((Tab.get s.tsu.tumb e).bind (·.result)).map fun r => r.gen.toNat).getD 0
  let s := s.updPort p fun q => { q with staging := q.staging.filter fun e => e.launch ≠ a.launch }
  let s := s.reclaim p
  mine.foldl (fun s e => s.updPort p fun q =>
    let cmd : Command := { e.cmd with resGen := resGen e.cmd.resEntry }
    let f : Fired :=
      { cmd, t, gated, late, region := r, shown := none, cancel := a.cancel, domain := a.domain, index := a.index, gen := a.gen,
        c := a.c, members := a.members, short := a.short, far := a.far, reach, order := a.order,
        owed := if a.cancel = .none then some a.base else none }
    let rec' : PendArv := ⟨e.cmd.arvEntry, e.cmd.arvSlot, e.cmd.slice, e.cmd.sgen, e.cmd.deadline, none, false⟩
    let q := if e.cmd.arvEn ∧ q.pend.length < 8 then { q with pend := q.pend ++ [rec'] } else q
    if e.cmd.fence ∧ (q.fenceBusy ∨ q.fenceHeld ≠ [] ∨ (q.fired.any fun g => g.cmd.fence)) then
      { q with fenceHeld := q.fenceHeld ++ [(f, now)] }
    else { q with fired := insertFired f q.fired }) s

/-- LP_FIRE at a repeater, so that the strobe reaches the ports at `reach`: the ports whose staged commands carry the slot
take the launch (R136 to R138). -/
def State.strobe (s : State) (r slot t reach : Nat) (late : Bool) : State :=
  let s := s.freeSlot (r, slot)
  match s.armOf r slot with
  | none => s
  | some (id, a) =>
    let gated := !(s.region r).clkRunning
    let s := if gated then s.setEvt .tsu (0x200 + 0x20 * r) 0x20 else s
    let s := (a.ports.filter fun p => s.regionOf p = r).foldl (fun s p => s.firePort a r t reach gated late p) s
    let s := s.updArm id fun a =>
      { a with fired := a.fired ++ [r], late := a.late || late, struck := true,
               code := if a.code = .none ∧ gated then .regionGated else a.code }
    s.armDone id

/-- A code that a port of a launch meets: while the launch is in the arm table it stands for its LAUNCH record; after that,
the record is written where it has not been yet (R240). -/
def State.noteCode (s : State) (f : Fired) (code : ErrCode) : State :=
  match f.owed with
  | none => s
  | some a =>
    match s.tsu.arms.find? fun p => p.2.base = a with
    | some (id, b) => if b.code = .none then s.updArm id fun b => { b with code } else s
    | none => (s.launchRecord { a with late := f.late } code 0 false).recordDone a

/-- A PORT record for a port of an armed launch that does not fire there (R124, R145). -/
def State.portLost (s : State) (a : Arm) (code : ErrCode) (p : Nat) : State :=
  s.writeRecord { s.blankRec 2 a.slice with
    sgen := a.sgen, short := a.short, dropped := true, far := a.far, code := code.value, source := srcPort p,
    gen := a.gen.toNat, domain := a.domain.toNat, index := a.index, step16 := a.step16.toNat, c := a.c,
    t := a.t.ns32, members := a.members }

/-- An armed launch is lost at one region: its ports there do not fire, their staging is freed, and each has a PORT
record (R124, R145). -/
def State.slotLost (s : State) (r slot : Nat) (code : ErrCode) : State :=
  let s := s.freeSlot (r, slot)
  match s.armOf r slot with
  | none => s
  | some (id, a) =>
    let ps := a.ports.filter fun p => s.regionOf p = r
    let s := s.freeStaging a.launch none ps []
    let s := ps.foldl (fun s p => s.portLost a code p) s
    let s := s.updArm id fun a => { a with fired := a.fired ++ [r], code := if a.code = .none then code else a.code }
    s.armDone id

/-- Nothing fires any more at a region for a slot whose launch was dropped (R139). -/
def State.slotCancelled (s : State) (r slot : Nat) : State :=
  let s := s.freeSlot (r, slot)
  match s.armOf r slot with
  | none => s
  | some (id, _) => (s.updArm id fun a => { a with fired := a.fired ++ [r] }).armDone id

/-- A LAUNCH_AT of the slot has left the core for a region. -/
def Region.launchLeft (g : Region) (slot : Nat) : Bool :=
  !(g.queue.any fun w => match w.body with
    | .launchAt _ k _ => k = slot && !(g.unacked.any fun v => v.seq = w.seq)
    | _ => false)

/-- No LAUNCH_AT of a slot leaves any more: a word of it that waits, or waits to be resent, is dropped. -/
def Region.dropLaunch (g : Region) (slot : Nat) : Region :=
  let mine : BusBody → Bool := fun b => match b with
    | .launchAt _ k _ => k = slot
    | _ => false
  { g with queue := g.queue.filter fun w => !mine w.body, unacked := g.unacked.filter fun w => !mine w.body }

/-- Drop an armed launch that has not fired: CANCEL to the ready regions to which its LAUNCH_AT has left, and no LAUNCH_AT any
more, the LAUNCH record with the code, and the staging freed where nothing can fire any more (R61, R123, R128, R139, R242). -/
def State.dropArm (s : State) (id : Nat) (code : ErrCode) (detail : Nat := 0) : State :=
  match Tab.get s.tsu.arms id with
  | none => s
  | some a =>
    if a.cancel ≠ .none then s
    else
      let s := (s.launchRecord a code detail true).recordDone a
      let open_ := a.slots.filter fun x => !a.fired.contains x.1
      let left : Nat × Nat → Bool := fun x => a.sent.contains x.1 && (s.region x.1).launchLeft x.2
      let gone := (open_.filter fun x => !left x).map (·.1)
      let s := open_.foldl (fun s x =>
        let s1 := s.updRegion x.1 fun g => g.dropLaunch x.2
        if !gone.contains x.1 then
          if (s.region x.1).ready then s1.busSend x.1 (.cancel x.2 (stamp48 a.t.toNs16)) else s1
        else
          let s := s1.freeSlot x
          s.freeStaging a.launch none (a.ports.filter fun p => s.regionOf p = x.1) []) s
      let s := s.updArm id fun a => { a with cancel := code, fired := a.fired ++ gone }
      s.armDone id

/-- LAUNCH_OK is lost: every armed domain launch whose T lies on a later tick is dropped (R47, R60,
R61, R63). Launches of die-local tumblers stay (R62). -/
def State.dropDomainLaunches (s : State) (code : ErrCode) : State :=
  let now := (s.now .tsu).toNs16
  (s.tsu.arms.filter fun p => p.2.domain ≠ 0 ∧ now < p.2.t.toNs16).foldl (fun s p =>
    (s.dropArm p.1 code).logT code (srcCtx p.2.ctx) 0 (some p.2.slice)) s

/-- The JOIN REQ of a domain in SHADOW (R383, R398). -/
def State.joinReq (s : State) (tag : BitVec 24) : State :=
  let d := s.domRec tag
  s.tsuUp ((d.map (·.sideB)).getD false) ((d.map (·.fullRate)).getD false) 2 0
    [mkFrame 0x18 2 0 tag 0 (s.now .tsu).ns32 (natBytes 1 1 ++ natBytes 0 1 ++ natBytes (s.tsu.dieId.getD 0) 3)]

/-- A domain enters SHADOW: a TSU whose time is QUALIFIED asks to join it at once (R398). -/
def State.joinSoon (s : State) (tag : BitVec 24) : State :=
  if s.tsu.com.time.tq = .qualified then s.joinReq tag else s

/-- A TSU whose time is QUALIFIED asks to join each domain it holds in SHADOW (R398). -/
def State.launchOkGained (s : State) : State :=
  if s.tsu.com.time.tq = .qualified then
    (s.tsu.slices.flatMap fun p => (p.2.bindings.filter fun b => b.mstate = .shadow).map (·.tag)).foldl
      State.joinReq s
  else s

end Sys2Proof.Machine
end

