-- ==== Sys2Proof/Machine/ServeOps.lean ====
section
/-! DEFINITION. The sequence table and the work list built at a step (R347 to R353), and the image checksum
(R287). -/

namespace Sys2Proof

/-- One bit step of the reflected CRC-32C with polynomial 0x1EDC6F41. -/
def crcStep (c : Nat) : Nat := if c % 2 = 1 then (c / 2) ^^^ 0x82F63B78 else c / 2

/-- The register after a byte. -/
def crcByte (c : Nat) (b : Byte) : Nat :=
  crcStep (crcStep (crcStep (crcStep (crcStep (crcStep (crcStep (crcStep (c ^^^ b.toNat))))))))

/-- The register after a byte string; the match evaluates it byte by byte. -/
def crcFrom : List Byte → Nat → Nat
  | [], c => c
  | b :: t, c => match crcByte c b with
    | 0 => crcFrom t 0
    | n + 1 => crcFrom t (n + 1)

/-- CRC-32C of a byte string (R287). -/
def crc32c (l : List Byte) : Nat := crcFrom l 0xFFFFFFFF ^^^ 0xFFFFFFFF

end Sys2Proof

namespace Sys2Proof.Machine

open Sys2Proof

/-- A row from its 32 bytes (R347). -/
def SeqRow.ofBytes (b : List Byte) : SeqRow :=
  { seqId := beNat b 0 4, state := beNat b 4 1 % 8, prio := beNat b 4 1 / 8 % 4, chunk := beNat b 6 2,
    prompt := beNat b 8 4 % 16777216, pos := beNat b 12 4 % 16777216, genLeft := beNat b 16 2, skips := beNat b 18 2,
    kv := beNat b 20 4, deadline := BitVec.ofNat 32 (beNat b 24 4), pace := beNat b 28 2, phase := 0, begun := false }

/-- The 32 bytes of a row (R347). -/
def SeqRow.bytes (r : SeqRow) : List Byte :=
  natBytes r.seqId 4 ++ natBytes (r.state + 8 * r.prio) 1 ++ natBytes 0 1 ++ natBytes r.chunk 2 ++ natBytes r.prompt 4
    ++ natBytes r.pos 4 ++ natBytes r.genLeft 2 ++ natBytes r.skips 2 ++ natBytes r.kv 4
    ++ natBytes r.deadline.toNat 4 ++ natBytes r.pace 2 ++ natBytes 0 2

/-- Set or free a row. -/
def State.setRow (s : State) (r : Nat) (v : Option SeqRow) : State :=
  s.updTsu fun t => { t with rows := match v with
    | some x => Tab.put t.rows r x
    | none => Tab.del t.rows r }

/-- Retire a row with its SEQ record (R350), which carries a code where the row is lost (R428). -/
def State.retireRow (s : State) (n r : Nat) (t : Word) (code : ErrCode := .none) : State :=
  match Tab.get s.tsu.rows r with
  | none => s
  | some v =>
    (s.writeRecord { s.blankRec 0x13 n with
      index := r, detail := BitVec.ofNat 32 v.seqId, c := BitVec.ofNat 32 v.pos, code := code.value, t := t }).setRow r none

/-- Queue an order in the order of EFF_STEP and then of writing (R348). -/
def insertOrder (o : SeqOrder) : List SeqOrder → List SeqOrder
  | [] => [o]
  | x :: t => if o.eff < x.eff then o :: x :: t else x :: insertOrder o t

/-- A row of a slice. -/
def Slice.ownsRow (v : Slice) (r : Nat) : Bool := v.rowFirst ≤ r && r < v.rowFirst + v.rowQ

/-- Apply one order of the sequence table; a refusal is recorded and shows in a SEQ record (R348, R465). -/
def State.applySeq (s : State) (o : SeqOrder) : State :=
  let v := Tab.get s.tsu.rows o.row
  let bad : State :=
    (s.logT .seqInvalid (srcSlice o.slice) 0 (some o.slice)).writeRecord
      { s.blankRec 0x13 o.slice with index := o.row, code := ErrCode.seqInvalid.value }
  if !(s.slice o.slice).ownsRow o.row then bad
  else match o.op, v with
    | 1, none =>
      let r := SeqRow.ofBytes o.image
      s.setRow o.row (some { r with state := if 0 < r.prompt then 2 else 3, skips := 0 })
    | 1, some _ => bad
    | 2, some r => if r.state = 2 ∨ r.state = 3 then s.setRow o.row (some { r with phase := r.state, state := 4 }) else s
    | 3, some r => if r.state = 4 then s.setRow o.row (some { r with state := r.phase }) else s
    | 4, _ => s.setRow o.row none
    | 5, some r =>
      let i := SeqRow.ofBytes o.image
      s.setRow o.row (some { r with chunk := i.chunk, genLeft := i.genLeft, prio := i.prio, deadline := i.deadline,
                                    pace := i.pace })
    | _, _ => s

/-- Row `a` stands before row `b` among the candidates of a pass (R350). -/
def rowBefore (starve : Nat) (a b : Nat × SeqRow) : Bool :=
  let k1 : SeqRow → Nat := fun r => b2n (decide (r.skips < starve))
  if k1 a.2 ≠ k1 b.2 then k1 a.2 < k1 b.2
  else if a.2.prio ≠ b.2.prio then a.2.prio < b.2.prio
  else if a.2.deadline ≠ b.2.deadline then sdiff 32 a.2.deadline.toNat b.2.deadline.toNat < 0
  else a.1 < b.1

/-- Insert a row into the order of a pass. -/
def insertRow (starve : Nat) (x : Nat × SeqRow) : List (Nat × SeqRow) → List (Nat × SeqRow)
  | [] => [x]
  | y :: t => if rowBefore starve x y then x :: y :: t else y :: insertRow starve x t

/-- What a build has made so far: entries, their rows, tokens left and rows left out. -/
structure Build where
  entries  : List (List Byte)
  rows     : List Nat
  budget   : Nat
  tokens   : Nat
  deferred : Nat
  deriving DecidableEq, Repr

/-- One candidate of a pass: skipped, or emitted and advanced (R350, R351). -/
def State.buildRow (s : State) (v : Serve) (t : Word) (decode : Bool) (b : Build) (r : Nat) : State × Build :=
  match Tab.get s.tsu.rows r with
  | none => (s, b)
  | some x =>
    if v.maxEntries ≤ b.rows.length then (s, { b with deferred := b.deferred + 1 })
    else
      let need := if decode then 1 else min b.budget (min x.chunk x.prompt)
      if need = 0 ∨ b.budget < need then
        (s.setRow r (some { x with skips := min (x.skips + 1) 0xFFFF }), { b with deferred := b.deferred + 1 })
      else
        let last := !decode && x.prompt = need
        let entry := natBytes x.seqId 4
          ++ natBytes (r + 8192 * b2n decode + 16384 * b2n (!decode && !x.begun) + 32768 * b2n last) 2
          ++ natBytes need 2 ++ natBytes x.pos 4 ++ natBytes x.kv 4
        let x' := { x with skips := 0, deadline := t + BitVec.ofNat 32 (1000 * x.pace), begun := !decode }
        let x' := if decode then { x' with pos := x.pos + 1, genLeft := x.genLeft - 1 }
          else { x' with pos := x.pos + need, prompt := x.prompt - need, state := if last then 3 else 2,
                         genLeft := if last then x.genLeft - 1 else x.genLeft }
        (s.setRow r (some x'), { b with entries := b.entries ++ [entry], rows := b.rows ++ [r],
                                        budget := b.budget - need, tokens := b.tokens + need })

/-- One pass of a build over the rows of a phase (R350). -/
def State.buildPass (s : State) (n : Nat) (v : Serve) (t : Word) (decode : Bool) (b : Build) : State × Build :=
  let phase := if decode then 3 else 2
  let cands := s.tsu.rows.filter fun p => (s.slice n).ownsRow p.1 && p.2.state = phase
  let order := cands.foldl (fun l x => insertRow v.starve x l) []
  order.foldl (fun (sb : State × Build) x => sb.1.buildRow v t decode sb.2 x.1) (s, b)

/-- The rows that a finished-entry result marks done: bit j of lane j/16 stands for entry j of the last list
(R350). -/
def finRows (last : List Nat) (data : List Byte) : List Nat :=
  (last.zipIdx.filter fun x => bitOf (beNat data (2 * (x.2 / 16)) 2) (x.2 % 16)).map (·.1)

/-- Build the work list of step `step` for a slice, with T or C of the turn `turn`, the result of the finished-entry tumbler
and the domain's trim (R350 to R353, R404). -/
def State.buildList (s : State) (n step : Nat) (t : Word) (fin : List Byte) (trim : Nat) (turn : BitVec 24 × Nat × BitVec 2) : State :=
  let sl := s.slice n
  let v := sl.serve
  let marked := if v.finEn ∧ sl.finTurned then finRows sl.lastList fin else []
  let gone := (s.tsu.rows.filter fun p =>
    sl.ownsRow p.1 && (marked.contains p.1 || p.2.state = 5 || p.2.genLeft = 0)).map (·.1)
  let s := gone.foldl (fun s r => s.retireRow n r t) s
  let due := s.tsu.orders.filter fun o => o.slice = n && o.eff ≤ step
  let s := s.updTsu fun x => { x with orders := x.orders.filter fun o => !(o.slice = n && o.eff ≤ step) }
  let s := due.foldl State.applySeq s
  let budget := max 1 (v.budget * (100 - trim) / 100)
  let r1 := s.buildPass n v t true ⟨[], [], budget, 0, 0⟩
  let r2 := r1.1.buildPass n v t false r1.2
  let b := r2.2
  let bytes := b.entries.flatten
  let base := v.listBase + step % 4 * 16384
  let header := padTo 64 (natBytes step 8 ++ natBytes t.toNat 4 ++ natBytes b.rows.length 2 ++ natBytes 0 2
    ++ natBytes b.tokens 4 ++ natBytes b.deferred 2 ++ natBytes gone.length 2 ++ natBytes (crc32c bytes) 4)
  let s := if bytes = [] then r2.1 else r2.1.sliceWrite n (.list n) (base + 64) bytes
  let s := s.sliceWrite n (.header n) base header
  s.updSlice n fun x => { x with lastList := b.rows, finTurned := false, headers := x.headers ++ [turn] }

end Sys2Proof.Machine
end

