-- ==== Sys2Proof/Machine/Image.lean ====
section
/-! DEFINITION. The image container and its checks: header, directory, the records of schedule images and of tree
images (R287 to R298, R307, R310 to R319). -/

namespace Sys2Proof.Machine

open Sys2Proof

/-- A refusal: REASON and the offset of the first offending item (R289). -/
abbrev Refused := Nat × Nat

/-- Check a condition of a loader. -/
def need (b : Bool) (reason off : Nat) : Except Refused Unit := if b then .ok () else .error (reason, off)

/-- The first offset of a range whose byte is not 0. -/
def nonZeroAt (b : List Byte) (from_ len : Nat) : Option Nat :=
  ((List.range len).find? fun i => byteAt b (from_ + i) ≠ 0).map (from_ + ·)

/-- Reserved bytes are 0 (R14, REASON RESERVED). -/
def reserved (b : List Byte) (from_ len : Nat) : Except Refused Unit :=
  match nonZeroAt b from_ len with
  | some o => .error (0x05, o)
  | none => .ok ()

/-- Run a check over a list. -/
def checkAll {α : Type} (l : List α) (f : α → Except Refused Unit) : Except Refused Unit :=
  l.foldl (fun r x => match r with
    | .ok _ => f x
    | e => e) (.ok ())

/-- A directory entry (R288). -/
structure Section where
  stype : Nat
  off   : Nat
  len   : Nat
  count : Nat
  deriving DecidableEq, Repr

/-- Header checks of steps 1 and 2 of R307 and R319: magic, format, length, CRC, ARCH and directory. -/
def header (b : List Byte) (magic maxLen received : Nat) (part : Nat → Bool) : Except Refused (List Section) := do
  need (beNat b 0 4 = magic) 0x01 0
  need (beNat b 4 1 = 1) 0x02 4
  need (part (beNat b 6 1)) 0x02 6
  let len := beNat b 8 4
  need (len ≤ maxLen && len = received && 64 ≤ len && len % 16 = 0) 0x04 8
  need (beNat b 60 4 = crc32c (b.take 60 ++ [0, 0, 0, 0] ++ b.drop 64)) 0x03 60
  need (beNat b 5 1 / 64 = 0) 0x07 5
  let n := beNat b 20 2
  need (64 + 16 * n ≤ len) 0x06 20
  let secs : List Section := (List.range n).map fun i =>
    let o := 64 + 16 * i
    ⟨beNat b o 2, beNat b (o + 4) 4, beNat b (o + 8) 4, beNat b (o + 12) 4⟩
  checkAll secs.zipIdx fun x =>
    need (x.1.off % 16 = 0 && x.1.len % 16 = 0 && 64 + 16 * n ≤ x.1.off && x.1.off + x.1.len ≤ len &&
      (secs.take x.2).all fun y => y.stype < x.1.stype && (y.off + y.len ≤ x.1.off || x.1.off + x.1.len ≤ y.off))
      0x06 (64 + 16 * x.2)
  reserved b 7 1
  need (beNat b 5 1 % 64 = 0) 0x05 5
  need (beNat b 12 4 ≠ 0) 0x05 12
  reserved b 19 1
  reserved b 22 2
  reserved b 36 24
  checkAll (List.range n) fun i => reserved b (64 + 16 * i + 2) 2
  return secs

/-- A section of a type, empty where it is missing. -/
def sectionOf (secs : List Section) (t : Nat) : Section := (secs.find? fun s => s.stype = t).getD ⟨t, 0, 0, 0⟩

/-- Bytes outside every section, and after the last record of a fixed-size section, are reserved (R288). -/
def gaps (b : List Byte) (n : Nat) (secs : List Section) : Except Refused Unit :=
  let used : Nat → Bool := fun i => i < 64 + 16 * n || secs.any fun s => s.off ≤ i && i < s.off + s.len
  match (List.range b.length).find? fun i => byteAt b i ≠ 0 && !used i with
  | some o => .error (0x05, o)
  | none => .ok ()

/-- The records of a section of fixed size. -/
def records (b : List Byte) (s : Section) (size : Nat) : List (List Byte × Nat) :=
  (List.range s.count).map fun i => ((b.drop (s.off + size * i)).take size, s.off + size * i)

/-- A section of fixed-size records holds COUNT of them, with reserved bytes after the last. -/
def fixedSection (b : List Byte) (s : Section) (size limit : Nat) : Except Refused Unit := do
  need (size * s.count ≤ s.len && s.count ≤ limit) 0x06 s.off
  reserved b (s.off + size * s.count) (s.len - size * s.count)

/-! ## Schedule images -/

/-- A tumbler's creation descriptor in an image (R292), with its reserved bits. -/
def tumbRecord (x : List Byte × Nat) : Except Refused TumbDesc := do
  let b := x.1
  let h := beNat b 0 2
  need (bitsOf h 13 12 = 0) 0x05 x.2
  need (beNat b 2 1 < 32) 0x05 (x.2 + 2)
  need (beNat b 4 2 < 512) 0x05 (x.2 + 4)
  let counted := bitOf h 14
  need (if counted then beNat b 8 8 = 0 else beNat b 6 2 = 0) 0x05 (x.2 + 6)
  return { dom := bitOf h 15, counted, index := h % 4096, op := beNat b 2 1, fmt := beNat b 3 1, lanes := beNat b 4 2,
           target := if counted then beNat b 6 2 else 0, mask := if counted then 0 else BitVec.ofNat 64 (beNat b 8 8) }

/-- An ARM record (R293). -/
def armRecord (x : List Byte × Nat) : Except Refused ArmDesc := do
  let b := x.1
  let h := beNat b 0 2
  let m := beNat b 2 1
  need (bitsOf h 14 12 = 0) 0x05 x.2
  need (bitsOf m 5 4 ≤ 1 && m % 8 = 0) 0x05 (x.2 + 2)
  reserved b 3 3
  let mode := match m / 64 with
    | 0 => ArmMode.turn | 1 => ArmMode.asap | 2 => ArmMode.at | _ => ArmMode.offset
  let t := time80At b 6
  match mode with
  | .turn | .asap => reserved b 6 10
  | .at => need t.valid 0x11 (x.2 + 6)
  | .offset => reserved b 6 6
  return { dom := bitOf h 15, index := h % 4096, mode, drop := bitsOf m 5 4 = 1, alloc := bitOf m 3,
           tReq := t, offset := beNat b 12 4 }

/-- Port sets, of variable length (R291). -/
def portSets (b : List Byte) : Nat → Nat → Nat → Except Refused (List (List Nat))
  | 0, off, lim => do
    reserved b off (lim - off)
    return []
  | n + 1, off, lim => do
    let p := beNat b off 2
    need (1 ≤ p && p ≤ 1024 && off + 4 + 2 * p ≤ lim) 0x06 off
    let ws := (List.range p).map fun k => beNat b (off + 4 + 2 * k) 2
    need (ws.all (· < 1024)) 0x05 (off + 4)
    need ((ws.zip (ws.drop 1)).all fun x => x.1 < x.2) 0x06 (off + 4)
    reserved b (off + 2) 2
    let size := (4 + 2 * p + 15) / 16 * 16
    reserved b (off + 4 + 2 * p) (size - 4 - 2 * p)
    let rest ← portSets b n (off + size) lim
    return ws :: rest

/-- POLICY records, of variable length (R294). -/
def policyRecs (b : List Byte) : Nat → Nat → Nat → Except Refused (List (Nat × Policy))
  | 0, off, lim => do
    reserved b off (lim - off)
    return []
  | n + 1, off, lim => do
    let e := beNat b (off + 2) 2
    need (beNat b off 1 < 16 && beNat b (off + 1) 1 < 8 && bitsOf (beNat b (off + 1) 1) 2 1 ≠ 3 && 1 ≤ e && e ≤ 256) 0x05 off
    need (off + 16 + 2 * e ≤ lim) 0x06 off
    reserved b (off + 4) 12
    let size := (16 + 2 * e + 15) / 16 * 16
    reserved b (off + 16 + 2 * e) (size - 16 - 2 * e)
    let rest ← policyRecs b n (off + size) lim
    let f := beNat b (off + 1) 1
    return (beNat b off 1, ⟨bitOf f 0, bitsOf f 2 1, e, (List.range e).map fun i => beNat b (off + 16 + 2 * i) 2⟩) :: rest

/-- The operand bits of a verb that are not reserved (R296), as ranges. -/
def verbFields (verb : Nat) : List (Nat × Nat) :=
  match verb with
  | 0 => [(95, 88)] | 1 => [(95, 32)] | 2 => [(95, 70)] | 3 => [(95, 46)] | 4 => [(95, 0)] | 5 => [(95, 0)]
  | 6 => [(95, 0)] | 7 => [(95, 70)] | 8 => [(95, 63)] | 9 => [(95, 58)] | 10 => [(95, 95)] | _ => []

/-- The time operand of a verb that has one (R296, R297). -/
def verbTopnd (verb : Nat) (k : Nat) : Option Nat :=
  match verb with
  | 3 => some (bitsOf k 93 58) | 4 => some (bitsOf k 35 0) | 5 => some (bitsOf k 35 0) | 6 => some (bitsOf k 35 0)
  | 9 => some (bitsOf k 93 58) | _ => none

/-- Reserved fields and codes of a clause (R295 to R297). -/
def clauseReserved (k off : Nat) : Except Refused Unit := do
  let verb := bitsOf k 127 124
  need (verb ≤ 10) 0x05 off
  need (bitOf k 123 || bitsOf k 122 109 = 0) 0x05 off
  need (!(verb = 0 || verb = 7 || verb = 8 || verb = 9 || verb = 10) || bitsOf k 108 96 = 0) 0x05 off
  need ((List.range 96).all fun i => !bitOf k i || (verbFields verb).any fun r => r.2 ≤ i && i ≤ r.1) 0x05 off
  need (!(verb = 1 && bitsOf k 33 32 = 3) && !(verb = 3 && bitsOf k 95 94 = 3) && !(verb = 9 && bitsOf k 95 94 = 3)) 0x05 off
  match verbTopnd verb k with
  | some t => need (bitsOf t 33 32 = 0 && (bitsOf t 35 34 ≠ 0 || t = 0) && (bitsOf t 35 34 ≠ 3 || bitsOf t 31 8 = 0)) 0x05 off
  | none => return ()

/-- The tables an image holds, before its references are checked. -/
def schedTables (b : List Byte) (received : Nat) : Except Refused (SchedImage × List Section) := do
  let secs ← header b 0x4B475343 262144 received fun p => p = 0
  need (secs.all fun s => 1 ≤ s.stype && s.stype ≤ 11) 0x06 64
  need ((sectionOf secs 1).count ≠ 0 && (sectionOf secs 2).count ≠ 0) 0x06 64
  let sec := sectionOf secs
  let tables : List (Nat × Nat × Nat) := [(1, 8, 255), (2, 16, 65536), (3, 8, 65536), (5, 16, 4096), (6, 8, 4095),
    (7, 16, 256), (8, 16, 4096), (9, 16, 8192), (11, 8, 32)]
  checkAll tables fun t => fixedSection b (sec t.1) t.2.1 t.2.2
  need ((sec 4).count ≤ 256) 0x06 (sec 4).off
  gaps b secs.length secs
  reserved b 24 10
  let sents := (records b (sec 1) 8).map fun x =>
    (⟨beNat x.1 0 2, beNat x.1 2 2, beNat x.1 4 2, beNat x.1 6 1, beNat x.1 7 1 / 64⟩ : Sentence)
  checkAll (records b (sec 1) 8) fun x => do
    need (beNat x.1 7 1 % 64 = 0 && beNat x.1 7 1 / 64 ≠ 3) 0x05 (x.2 + 7)
    need (1 ≤ beNat x.1 2 2 && beNat x.1 2 2 ≤ 256 && beNat x.1 6 1 ≤ 64) 0x06 (x.2 + 2)
  checkAll (records b (sec 2) 16) fun x => clauseReserved (beNat x.1 0 16) x.2
  checkAll (records b (sec 3) 8) fun x => do
    let q := beNat x.1 0 8
    need (bitsOf q 50 48 ≤ 4 && bitsOf q 35 32 = 0) 0x05 x.2
  let ps ← portSets b (sec 4).count (sec 4).off ((sec 4).off + (sec 4).len)
  checkAll (records b (sec 5) 16) fun x => do
    need (beNat x.1 12 1 < 3 && 1 ≤ beNat x.1 13 1 && beNat x.1 13 1 ≤ 20 && 1 ≤ beNat x.1 8 4) 0x05 (x.2 + 12)
    need (beNat x.1 14 2 = 0) 0x05 (x.2 + 14)
  checkAll (records b (sec 6) 8) fun x => need (beNat x.1 0 8 % 8 = 0) 0x05 x.2
  checkAll (records b (sec 7) 16) fun x => do
    need (time80At x.1 0).valid 0x11 x.2
    need (beNat x.1 10 6 = 0) 0x05 (x.2 + 10)
  let tumbs ← (records b (sec 8) 16).mapM tumbRecord
  let arms ← (records b (sec 9) 16).mapM armRecord
  let pols ← policyRecs b (sec 10).count (sec 10).off ((sec 10).off + (sec 10).len)
  checkAll (records b (sec 11) 8) fun x => do
    need (beNat x.1 1 1 < 2) 0x05 (x.2 + 1)
    need (beNat x.1 2 6 = 0) 0x05 (x.2 + 2)
  return ({ id := BitVec.ofNat 32 (beNat b 12 4), domain := BitVec.ofNat 24 (beNat b 16 3), sentences := sents,
            clauses := (records b (sec 2) 16).map fun x => BitVec.ofNat 128 (beNat x.1 0 16),
            conjs := (records b (sec 3) 8).map fun x => BitVec.ofNat 64 (beNat x.1 0 8), portsets := ps,
            works := (records b (sec 5) 16).map fun x => ⟨beNat x.1 0 8, beNat x.1 8 4, beNat x.1 12 1, beNat x.1 13 1⟩,
            datas := (records b (sec 6) 8).map fun x => beNat x.1 0 8,
            times := (records b (sec 7) 16).map fun x => time80At x.1 0, tumblers := tumbs, arms, policies := pols,
            contexts := (records b (sec 11) 8).map fun x => (beNat x.1 0 1, bitOf (beNat x.1 1 1) 0),
            pages := (b.length + 4095) / 4096 }, secs)

/-! ## Tree images -/

/-- The children of a position by role (R19): 8 dies, 16 sleds, 32 racks, 64 pods. -/
def fanOut (role : Nat) : Nat := match role with
  | 0 => 8 | 1 => 16 | 2 => 32 | _ => 64

/-- ROLE of a locator (R23). -/
def locRole (l : Nat) : Nat := bitsOf l 19 18

/-- POSITION of a locator (R23). -/
def locPos (l : Nat) : Nat := bitsOf l 14 0

/-- The locator of a position with SIDE 0 (R23). -/
def mkLoc (role pos : Nat) : Nat := role * 262144 + pos

/-- A locator with SIDE 0 whose POSITION fits its role (R19, R23). -/
def locOk (l : Nat) : Bool :=
  bitsOf l 17 15 = 0 && locPos l < (match locRole l with
    | 0 => 32768 | 1 => 2048 | 2 => 64 | _ => 1)

/-- The parent of a position and the child's index in it (R20, R23). -/
def locParent (l : Nat) : Option (Nat × Nat) :=
  match locRole l with
  | 0 => some (mkLoc 1 (locPos l / 16), locPos l % 16)
  | 1 => some (mkLoc 2 (locPos l / 32), locPos l % 32)
  | 2 => some (mkLoc 3 0, locPos l)
  | _ => none

/-- The dies of a position's subtree: the lowest identifier and their number (R21, R23). -/
def locDies (l : Nat) : Nat × Nat :=
  match locRole l with
  | 0 => (locPos l * 8, 8)
  | 1 => (locPos l * 128, 128)
  | 2 => (locPos l * 4096, 4096)
  | _ => (0, 262144)

/-- A die lies in a position's subtree. -/
def inSubtree (l die : Nat) : Bool := (locDies l).1 ≤ die && die < (locDies l).1 + (locDies l).2

/-- The locator of the position of a role above a die (R21, R23). -/
def locOfDie (role die : Nat) : Nat :=
  match role with
  | 0 => mkLoc 0 (die / 8)
  | 1 => mkLoc 1 (die / 128)
  | 2 => mkLoc 2 (die / 4096)
  | _ => mkLoc 3 0

/-- POSITIONS records, of variable length (R312). -/
def posRecs (b : List Byte) : Nat → Nat → Nat → Except Refused (List PosRec)
  | 0, off, lim => do
    reserved b off (lim - off)
    return []
  | n + 1, off, lim => do
    need (off + 48 ≤ lim) 0x06 off
    let kids := beNat b (off + 4) 8
    let cnt := ((List.range 64).filter fun i => bitOf kids i).length
    let size := 48 + 16 * cnt
    need (off + size ≤ lim) 0x06 off
    let f := beNat b (off + 3) 1
    need (beNat b off 3 < 1048576) 0x05 off
    need (f < 16 && f / 4 ≠ 3) 0x05 (off + 3)
    reserved b (off + 12) 4
    reserved b (off + 24) 16
    let w : Nat → Word := fun o => BitVec.ofNat 32 (beNat b o 4)
    let rest ← posRecs b n (off + size) lim
    return { loc := beNat b off 3, aDecl := bitOf f 0, bDecl := bitOf f 1, need := f / 4, children := kids,
             partnerAsym := w (off + 16), nextAsym := w (off + 20), xchildren := beNat b (off + 40) 8,
             asyms := (List.range cnt).map fun k =>
               let o := off + 48 + 16 * k
               (w o, w (o + 4), w (o + 8), w (o + 12)) } :: rest

/-- DOMAINS records, of variable length (R313); those of an extract have no body (R318). -/
def domRecs (b : List Byte) (extract : Bool) : Nat → Nat → Nat → Except Refused (List DomRec)
  | 0, off, lim => do
    reserved b off (lim - off)
    return []
  | n + 1, off, lim => do
    need (off + 32 ≤ lim) 0x06 off
    let f := beNat b (off + 3) 1
    let form := bitOf f 0
    let bc := beNat b (off + 24) 4
    let len := if form then bc else 4 * bc
    let size := 32 + (len + 15) / 16 * 16
    need (off + size ≤ lim && !(extract && bc ≠ 0)) 0x06 off
    need (f < 64) 0x05 (off + 3)
    need (beNat b (off + 4) 3 < 1048576) 0x05 (off + 4)
    reserved b (off + 7) 1
    need (beNat b (off + 8) 2 < 8192) 0x05 (off + 8)
    need (beNat b (off + 10) 2 < 256) 0x05 (off + 10)
    need (beNat b (off + 12) 2 < 4096) 0x05 (off + 12)
    reserved b (off + 14) 2
    need (beNat b (off + 16) 4 < 524288) 0x05 (off + 16)
    reserved b (off + 28) 4
    reserved b (off + 32 + len) (size - 32 - len)
    let rest ← domRecs b extract n (off + size) lim
    return { tag := BitVec.ofNat 24 (beNat b off 3), bitmap := form, sideB := bitOf f 1, allowAbsent := bitOf f 2,
             fullRate := bitOf f 3, topIsDie := bitOf f 4, stepEn := bitOf f 5, top := beNat b (off + 4) 3,
             tumblers := beNat b (off + 8) 2, scans := beNat b (off + 10) 2, stepTumb := beNat b (off + 12) 2,
             members := beNat b (off + 16) 4, dBound := beNat b (off + 20) 4,
             body := (b.drop (off + 32)).take len } :: rest

/-- The member dies of a domain record with its body (R314). -/
def DomRec.dies (d : DomRec) : List Nat :=
  let base := if d.topIsDie then d.top / 8 * 8 else (locDies d.top).1
  if d.bitmap then ((List.range (8 * d.body.length)).filter fun i => (byteAt d.body (i / 8)).getLsbD (i % 8)).map (base + ·)
  else (List.range (d.body.length / 4)).flatMap fun k =>
    let w := beNat d.body (4 * k) 4
    if bitOf w 31 then [bitsOf w 17 0]
    else (List.range (locDies (bitsOf w 19 0)).2).map ((locDies (bitsOf w 19 0)).1 + ·)

/-- Entries of a subtree body ascend and none lies inside another (R314); [30:20] are reserved. -/
def DomRec.bodyOk (d : DomRec) : Bool :=
  if d.bitmap then d.topIsDie || d.body.length = (locDies d.top).2 / 8
  else
    let ws := (List.range (d.body.length / 4)).map fun k => beNat d.body (4 * k) 4
    let span : Nat → Nat × Nat := fun w => if bitOf w 31 then (bitsOf w 17 0, 1) else locDies (bitsOf w 19 0)
    ws.all (fun w => bitsOf w 30 20 = 0 && (if bitOf w 31 then bitsOf w 19 18 = 0 else locOk (bitsOf w 19 0))) &&
    ((ws.zip (ws.drop 1)).all fun x => x.1 < x.2) &&
    ws.zipIdx.all fun x => ws.zipIdx.all fun y =>
      x.2 = y.2 || !((span y.1).1 ≤ (span x.1).1 && (span x.1).1 + (span x.1).2 ≤ (span y.1).1 + (span y.1).2)

/-- TOP and TOP_IS_DIE of a set of member dies (R314): the lowest position that holds them all. -/
def topOf (dies : List Nat) : Option (Bool × Nat) :=
  match dies with
  | [] => none
  | [d] => some (true, d)
  | d :: t =>
    ([0, 1, 2, 3].find? fun r => t.all fun x => locOfDie r x = locOfDie r d).map fun r => (false, locOfDie r d)

/-- A die is declared: its sled's record has its child bit (R312). -/
def declaredDie (ps : List PosRec) (die : Nat) : Bool :=
  ps.any fun p => p.loc = mkLoc 0 (die / 8) && bitOf p.children (die % 8)

/-- A domain's path crosses a position: it lies at or below TOP and holds a member (R319). -/
def onPath (d : DomRec) (dies : List Nat) (loc : Nat) : Bool :=
  !d.topIsDie && (locRole loc ≤ locRole d.top) && inSubtree d.top (locDies loc).1 && dies.any (inSubtree loc)

/-- The checks of step 6 of R319 that need no body. -/
def domCheck (cur : Option TreeImage) (all : List DomRec) (d : DomRec) : Except Refused Unit := do
  need (bitsOf d.tag.toNat 23 8 ≠ 0 && (all.filter fun x => x.tag = d.tag).length = 1) 0x0D 0
  need (1 ≤ d.tumblers && d.tumblers ≤ 4096 && d.scans ≤ 128 && d.scans ≤ d.tumblers) 0x0D 0
  need (!d.stepEn || d.stepTumb < d.tumblers) 0x0D 0
  need (100 ≤ d.dBound && d.dBound ≤ 1000000) 0x0D 0
  need (if d.topIsDie then d.top < 262144 else locOk d.top) 0x0D 0
  need (d.topIsDie = decide (d.members = 1)) 0x0D 0
  need (((cur.map (·.domains)).getD []).all fun x => x.tag ≠ d.tag || x = d) 0x0D 0

/-- Steps 3 to 7 of R319 for a full image. -/
def fullCheck (cur : Option TreeImage) (t : TreeImage) : Except Refused Unit := do
  let ps := t.positions
  let rec' : Nat → Option PosRec := fun l => ps.find? fun p => p.loc = l
  checkAll ps fun p => do
    need (locOk p.loc) 0x0E 0
    need (p.children < 2 ^ fanOut (locRole p.loc)) 0x0E 0
    need (p.xchildren = 0 || ((locRole p.loc = 1 || locRole p.loc = 2) && p.xchildren < 2 ^ fanOut (locRole p.loc))) 0x0E 0
    need (!(locRole p.loc = 2 && p.xchildren ≠ 0) || p.need = 1 || p.need = 2) 0x0E 0
    need (locRole p.loc ≠ 3 || p.need = 2) 0x0E 0
    match locParent p.loc with
    | some (q, i) => need (((rec' q).map fun x => bitOf x.children i).getD false) 0x0E 0
    | none => return ()
  need ((ps.zip (ps.drop 1)).all fun x => x.1.loc < x.2.loc) 0x0E 0
  let rp : Nat → Nat := fun i => ((t.rootprio[i]?).getD 0).toNat
  let valid := (List.range 8).filter fun i => bitOf (rp i) 31
  need (valid.contains 0 && valid.contains 1 && bitsOf (rp 0) 19 0 = mkLoc 3 0 && bitsOf (rp 1) 19 0 = mkLoc 3 0 + 131072)
    0x0E 0
  checkAll (valid.filter fun i => 2 ≤ i) fun i => do
    let l := bitsOf (rp i) 19 0
    need (locRole l = 2 && bitsOf l 16 15 = 0 && ((rec' (l - 131072 * b2n (bitOf l 17))).map fun p => decide (p.need = 2)).getD false)
      0x0E 0
  need ((valid.map fun i => bitsOf (rp i) 19 0).Nodup) 0x0E 0
  need (t.refs.length = valid.length && valid.all fun i =>
    (t.refs.filter fun r => beNat r 0 3 = bitsOf (rp i) 19 0).length = 1) 0x06 0
  checkAll t.domains fun d => do
    domCheck cur t.domains d
    need (d.bodyOk && d.dies.length = d.members && d.dies.all (declaredDie ps)) 0x0D 0
    need (topOf d.dies = some (d.topIsDie, d.top)) 0x0D 0
  need ((t.domains.zip (t.domains.drop 1)).all fun x => x.1.tag.toNat < x.2.tag.toNat) 0x0D 0
  checkAll ps fun p => do
    let ds := t.domains.filter fun d => onPath d d.dies p.loc
    need ((ds.map (·.tumblers)).sum ≤ 65536 && (ds.map (·.scans)).sum ≤ 128) 0x0F 0
    need (ds.all fun d => d.scans = 0 || p.need ≠ 0) 0x0F 0

/-- Reserved fields and codes of a REFERENCE record (R315). -/
def refRecord (x : List Byte × Nat) : Except Refused Unit := do
  let b := x.1
  let o := x.2
  need (beNat b 0 3 < 1048576 && beNat b 3 1 = 0) 0x05 o
  checkAll (List.range 8) fun i =>
    let w := beNat b (4 + 4 * i) 4
    need (w % 16 ≤ 8 && bitsOf w 15 10 = 0 && bitsOf w 31 28 = 0) 0x05 (o + 4 + 4 * i)
  checkAll (List.range 4) fun i => need (beNat b (36 + i) 1 < 16 && beNat b (36 + i) 1 % 4 ≠ 3) 0x05 (o + 36 + i)
  checkAll [56, 60] fun i => need (beNat b i 1 < 16 && beNat b (i + 3) 1 = 0) 0x05 (o + i)
  need (beNat b 83 1 = 0 && beNat b 86 10 = 0) 0x05 (o + 83)

/-- The parts of a tree image, after its reserved fields (steps 1 and 2 of R319). `leaf`: an extract, of the die given. -/
def treeParse (b : List Byte) (received : Nat) (leaf : Bool) (cur : Option TreeImage) : Except Refused TreeImage := do
  let secs ← header b 0x4B475452 (if leaf then 65536 else 12582912) received fun p => p = b2n leaf
  let sec := sectionOf secs
  need (beNat b 16 3 = 0) 0x05 16
  let ok : List Nat := if leaf then [0x101, 0x103, 0x107] else [0x101, 0x102, 0x103, 0x104, 0x105, 0x106]
  let must : List Nat := if leaf then [0x101, 0x107] else [0x101, 0x102, 0x104, 0x105, 0x106]
  need (secs.all fun s => ok.contains s.stype) 0x06 64
  need (must.all fun t => secs.any fun s => s.stype = t) 0x06 0
  let one : List (Nat × Nat) := if leaf then [(0x101, 64), (0x107, 16)] else [(0x101, 64), (0x105, 32), (0x106, 32)]
  checkAll one fun t => do
    need ((sec t.1).count = 1) 0x06 (sec t.1).off
    fixedSection b (sec t.1) t.2 1
  fixedSection b (sec 0x104) 96 8
  need (!leaf || (sec 0x103).count ≤ 1024) 0x06 (sec 0x103).off
  gaps b secs.length secs
  reserved b ((sec 0x101).off + 12) 52
  let act := time80At b 24
  need act.valid 0x11 24
  let ps ← if leaf then .ok [] else posRecs b (sec 0x102).count (sec 0x102).off ((sec 0x102).off + (sec 0x102).len)
  let ds ← domRecs b leaf (sec 0x103).count (sec 0x103).off ((sec 0x103).off + (sec 0x103).len)
  checkAll (records b (sec 0x104) 96) refRecord
  let ro := (sec 0x105).off
  let rp := (List.range 8).map fun i => beNat b (ro + 4 * i) 4
  need (leaf || rp.all fun w => bitsOf w 30 20 = 0) 0x05 ro
  need (leaf || beNat b ((sec 0x106).off + 16) 16 = 0) 0x05 ((sec 0x106).off + 16)
  let lo := (sec 0x107).off
  need (!leaf || (bitsOf (beNat b lo 3) 23 18 = 0 && beNat b (lo + 3) 1 = 0 && beNat b (lo + 12) 4 = 0)) 0x05 lo
  let prev := beNat b ((sec 0x101).off + 8) 4
  need ((cur.map fun c => decide (c.id.toNat = prev)).getD true) 0x12 ((sec 0x101).off + 8)
  return { id := BitVec.ofNat 32 (beNat b 12 4), activateAt := act, prev := BitVec.ofNat 32 prev,
           hall := (b.drop (sec 0x101).off).take 64, positions := ps, domains := ds,
           refs := (records b (sec 0x104) 96).map (·.1), rootprio := rp.map (BitVec.ofNat 32 ·),
           health := (b.drop (sec 0x106).off).take 32,
           leaf := if leaf then some (bitsOf (beNat b lo 3) 17 0, BitVec.ofNat 32 (beNat b (lo + 4) 4),
             BitVec.ofNat 32 (beNat b (lo + 8) 4)) else none }

/-- Check a full tree image (steps 1 to 7 of R319). -/
def treeCheck (b : List Byte) (received : Nat) (cur : Option TreeImage) : Except Refused TreeImage := do
  let t ← treeParse b received false cur
  fullCheck cur t
  return t

/-- Check a leaf extract (R318, R319): steps 1, 2 and 6, and its DIE_ID. -/
def extractCheck (b : List Byte) (received : Nat) (cur : Option TreeImage) (die : Option Nat) :
    Except Refused TreeImage := do
  let t ← treeParse b received true cur
  need ((t.leaf.map fun l => decide (some l.1 = die)).getD false) 0x0E 0
  checkAll t.domains fun d => do
    domCheck cur t.domains d
    need ((t.leaf.map fun l => if d.topIsDie then decide (d.top = l.1) else inSubtree d.top l.1).getD false) 0x0D 0
  return t

/-! ## Building a leaf extract -/

/-- A position's record in an image. -/
def TreeImage.pos (t : TreeImage) (loc : Nat) : Option PosRec := t.positions.find? fun p => p.loc = loc

/-- The four asymmetries of a child: DA, DB, XA, XB (R312). -/
def PosRec.childAsym (p : PosRec) (i : Nat) : Word × Word × Word × Word :=
  let k := ((List.range i).filter fun j => bitOf p.children j).length
  (p.asyms[k]?).getD (0, 0, 0, 0)

/-- The 32 bytes of a domain record without its body (R313). -/
def DomRec.headBytes (d : DomRec) : List Byte :=
  natBytes d.tag.toNat 3
    ++ natBytes (b2n d.bitmap + 2 * b2n d.sideB + 4 * b2n d.allowAbsent + 8 * b2n d.fullRate + 16 * b2n d.topIsDie
      + 32 * b2n d.stepEn) 1
    ++ natBytes d.top 3 ++ natBytes 0 1 ++ natBytes d.tumblers 2 ++ natBytes d.scans 2 ++ natBytes d.stepTumb 2
    ++ natBytes 0 2 ++ natBytes d.members 4 ++ natBytes d.dBound 4 ++ natBytes 0 8

/-- The leaf extract of a die (R318). -/
def TreeImage.extract (t : TreeImage) (die : Nat) : List Byte :=
  let a := ((t.pos (mkLoc 0 (die / 8))).map fun p => p.childAsym (die % 8)).getD (0, 0, 0, 0)
  let ds := t.domains.filter fun d => d.dies.contains die
  let n := if ds = [] then 2 else 3
  let dir := 64 + 16 * n
  let hallOff := dir
  let domOff := hallOff + 64
  let leafOff := domOff + 32 * ds.length
  let entry : Nat → Nat → Nat → Nat → List Byte := fun ty off len c =>
    natBytes ty 2 ++ natBytes 0 2 ++ natBytes off 4 ++ natBytes len 4 ++ natBytes c 4
  let body := entry 0x101 hallOff 64 1 ++ (if ds = [] then [] else entry 0x103 domOff (32 * ds.length) ds.length)
    ++ entry 0x107 leafOff 16 1 ++ padTo 64 t.hall ++ ds.flatMap DomRec.headBytes
    ++ natBytes die 3 ++ natBytes 0 1 ++ natBytes a.1.toNat 4 ++ natBytes a.2.1.toNat 4 ++ natBytes 0 4
  let head := natBytes 0x4B475452 4 ++ natBytes 1 1 ++ natBytes 0 1 ++ natBytes 1 1 ++ natBytes 0 1
    ++ natBytes (leafOff + 16) 4 ++ natBytes t.id.toNat 4 ++ natBytes 0 4 ++ natBytes n 2 ++ natBytes 0 2
    ++ t.activateAt.bytes ++ natBytes 0 26
  head ++ natBytes (crc32c (head ++ natBytes 0 4 ++ body)) 4 ++ body

end Sys2Proof.Machine
end

