-- ==== Sys2Proof/Machine/TimeOps.lean ====
section
/-! DEFINITION. The shared operations of a node's time: the tick, the step, the time-domain reset, quality
transitions, source eligibility and selection, and the servo (R42 to R64, R77 to R85, R117 to R119). -/

namespace Sys2Proof.Machine

open Sys2Proof

/-- The addend clamped to the nominal value ±100 ppm (R45). -/
def clampAddend (a : Int) : Nat := (clampInt addendMin addendMax a).toNat

/-- One time-clock tick of a counter: it adds the addend, unless the PLL is out of lock; the always-on clock
advances 2 ns (R42, R47). -/
def TimeDom.tick (t : TimeDom) : TimeDom :=
  { t with counter := if t.pllLocked then Time80.ofUnits (t.counter.toUnits + t.addend) else t.counter,
           aon := t.aon + 2 }

/-- The signed distance between two instants in units of 2^-32 ns, the shorter way round the 48-bit SECONDS (R36). -/
def stepSize (goal old : Time80) : Int :=
  let m : Int := 281474976710656 * 1000000000 * 4294967296
  (goal.toUnits - old.toUnits + m / 2) % m - m / 2

/-- Step the counter: all fields on one tick, with STEPPED and the signed size of the step (R44). -/
def TimeDom.step (t : TimeDom) (goal : Time80) : TimeDom :=
  { t with counter := goal, stepped := true, epochSet := true, lastStep := stepSize goal t.counter }

/-- A link's rate index: 0 full, 1 fallback. -/
def Link.rate (k : Link) : Nat := b2n k.fallback

/-- A candidate is eligible when it is trained, not lost for time, and measured at least once since it last
trained (R81). -/
def State.eligible (s : State) (l : LinkId) : Bool :=
  s.trained l && !(s.src l).lost && (s.src l).measured

/-- The partner is the time root: the partner link is eligible and carries HOPS 0 (R91, R110). -/
def State.partnerIsRoot (s : State) : Bool :=
  s.eligible ⟨.gd, s.gd.partnerPort⟩ && (s.src ⟨.gd, s.gd.partnerPort⟩).senderHops = 0

/-- The ports whose lanes carry time into the node (R81, R119). A time root takes time from none; a hall root that has
not stepped takes it from a partner that is time root, else from its downstream ports (R110). -/
def State.candPorts (s : State) (n : Node) : List Nat :=
  match n with
  | .tsu => if s.tsu.com.time.standalone then [] else [0, 1]
  | .gd =>
    let ok := fun p => s.eligible ⟨.gd, p⟩
    if s.gd.ref.isRoot then []
    else if s.gd.role = some 3 && !s.gd.com.time.stepped && !s.partnerIsRoot then List.range 64
    else if ok 64 || ok 65 then [64, 65]
    else if s.gd.role = some 2 && !ok s.gd.partnerPort then [66, 67]
    else [s.gd.partnerPort]

/-- The root-priority index of a locator: the first valid entry that names it, or 8 (R116). -/
def State.rootIndex (s : State) (loc : Nat) : Nat :=
  ((List.range 8).find? fun i =>
    let e := s.reg .gd (0x274 + 4 * i)
    bitOf e 31 && bitsOf e 19 0 = loc).getD 8

/-- The root-priority index by which R118 compares two sources: that of the root each carries, where both carry root
time. -/
def State.srcRoot (s : State) (n : Node) (p : Nat) : Nat :=
  match n with
  | .tsu => 0
  | .gd => s.rootIndex (s.src ⟨n, p⟩).info.rootId

/-- A source carries root time (R117). -/
def State.carriesRoot (s : State) (n : Node) (p : Nat) : Bool := (s.src ⟨n, p⟩).senderHops < 0xFF

/-- Source p ranks above source q: of two that carry different roots, the one with the lower root-priority index
(R118); then the quality (R82), whether it carries root time (R117), the hops on the ring (R119), and the lower number
(R82, R119). -/
def State.ranksAbove (s : State) (n : Node) (p q : Nat) : Bool :=
  let a := s.src ⟨n, p⟩
  let b := s.src ⟨n, q⟩
  let ring : Bool := (p = 66 || p = 67) && (q = 66 || q = 67)
  if s.carriesRoot n p && s.carriesRoot n q && s.srcRoot n p ≠ s.srcRoot n q then s.srcRoot n p < s.srcRoot n q
  else if a.senderTq.rank ≠ b.senderTq.rank then a.senderTq.rank < b.senderTq.rank
  else if s.carriesRoot n p ≠ s.carriesRoot n q then s.carriesRoot n p
  else if ring && a.senderHops ≠ b.senderHops then a.senderHops < b.senderHops
  else p < q

/-- The first of a list that nothing after it ranks above. -/
def bestBy (above : Nat → Nat → Bool) : List Nat → Option Nat
  | [] => none
  | a :: t => match bestBy above t with
    | none => some a
    | some b => if above b a then some b else some a

/-- The smallest of a list under a key. -/
def minBy (key : Nat → Nat) : List Nat → Option Nat
  | [] => none
  | a :: t => match minBy key t with
    | none => some a
    | some b => if key b < key a then some b else some a

/-- A downstream port keeps the hall's time in the current EPOCH (R110). Before the first lock or RESTEP of a power-on the
distributor knows no EPOCH, and takes any. -/
def State.hallTime (s : State) (p : Nat) : Bool :=
  let v := s.src ⟨.gd, p⟩
  let t := s.gd.com.time
  v.senderHops < 0xFF && (!t.epochSet || v.senderEpoch = t.epoch)

/-- The eligible candidate that selection picks when nothing is selected (R82, R110). -/
def State.bestSource (s : State) (n : Node) : Option Nat :=
  let c := (s.candPorts n).filter fun p => s.eligible ⟨n, p⟩
  if s.candPorts n = List.range 64 then c.find? s.hallTime else bestBy (s.ranksAbove n) c

/-- A candidate that takes over from the current source at once: another root's time with a lower index, or, at
equal quality, root time where the current source carries none (R117, R118). -/
def State.outranks (s : State) (n : Node) (p q : Nat) : Bool :=
  let a := s.src ⟨n, p⟩
  let b := s.src ⟨n, q⟩
  (s.carriesRoot n p && s.carriesRoot n q && s.srcRoot n p < s.srcRoot n q)
    || (a.senderTq.rank = b.senderTq.rank && s.carriesRoot n p && !s.carriesRoot n q)

/-- Start the calibration of a region's bus; its repeater is not READY until it ends (R125, R128). DESIGN CHOICE (log
entry 133): so it is on RECAL too, where the spec states READY cleared only for the resets. -/
def Region.startCal (r : Region) : Region :=
  if r.present then
    { r with calActive := true, background := false, calCount := 0, calSum := 0, calLeft := 64, ready := false, loaded := false }
  else r

/-- The 8 regions. -/
def regionIds : List Nat := [0, 1, 2, 3, 4, 5, 6, 7]

/-- Apply an update to every region. -/
def State.updRegions (s : State) (f : Region → Region) : State :=
  regionIds.foldl (fun s r => s.updRegion r f) s

/-- Restart the delay measurement of a source: it stops using its mean and keeps it for the comparison of R88. -/
def TimeSrc.remeasure (v : TimeSrc) : TimeSrc :=
  { v with delayValid := false, measured := false, count := 0, sum := 0, gated := 0, better := 0,
           oldMean := if v.delayValid then some v.mean else v.oldMean }

/-- A lane or port is trained, and not treated as untrained for time under R78. -/
def State.timeTrained (s : State) (l : LinkId) : Bool := s.trained l && !(s.src l).away

/-- The lanes or ports from which a node takes time in general: both lanes of a TSU; U0, U1, the partner link, and of a
pod distributor the ring ports (R81, R119). -/
def State.feeds (s : State) (n : Node) : List Nat :=
  match n with
  | .tsu => [0, 1]
  | .gd => [64, 65, s.gd.partnerPort] ++ if s.gd.role = some 2 then [66, 67] else []

/-- Some lane or port from which the node takes time is trained for time (R54, R78). -/
def State.anyTrained (s : State) (n : Node) : Bool := (s.feeds n).any fun p => s.timeTrained ⟨n, p⟩

/-- TRACEABLE as a node sends and shows it: of a time root, that it is LOCKED; else the copy from its source (R57, R85,
R104). -/
def State.traceable (s : State) (n : Node) : Bool :=
  if n = .gd ∧ s.gd.ref.isRoot then decide (s.gd.ref.rstate = .locked) else (s.time n).info.traceable

/-- Keep what R111 asks of a distributor: that it was TRACEABLE in this time-domain lifetime, and since when it is not;
`was` is TRACEABLE before. -/
def State.noteTrace (s : State) (was : Bool) : State :=
  s.updGd fun g =>
    let now := s.traceable .gd
    { g with ref := { g.ref with everTrace := g.ref.everTrace || now,
                                 traceAt := if was && !now then g.com.time.aon else g.ref.traceAt } }

/-- Clear LAUNCH_OK; the TSU drops its unfired domain launches and calendar entries (R47, R60, R61). -/
def State.loseLaunchOk (s : State) (n : Node) : State :=
  let s := s.updTime n fun t => { t with launchOk := false }
  match n with
  | .tsu => s.dropDomainLaunches .timeUnqualified
  | .gd => s

/-- The time-domain reset of R47: STEPPED and LAUNCH_OK are cleared, TQ falls back, every source is measured anew
and unfired domain launches are dropped, while the counter runs on. A time root that resets is time root no more until its
next first step (R107, R110). -/
def State.timeDomainReset (s : State) (n : Node) : State :=
  let trained := s.anyTrained n
  let s := s.updCom n fun c => { c with srcs := Tab.map c.srcs fun _ v => v.remeasure }
  let s := s.updTimeQ n fun t =>
    { t with stepped := false, upTq := .none, sel := none, inLimit := 0, outLimit := 0, switches := 0,
             flyAt := none, mode := .idle,
             tq := if t.standalone then .loc else if trained then .acquiring else .unset }
  let s := s.loseLaunchOk n
  match n with
  | .tsu => s.updRegions Region.startCal
  | .gd => s.updRef fun r =>
    { r with rstate := .start, isRoot := false, elected := false, hold := none, everTrace := false, inRow := 0, outRow := 0,
             srcs := Tab.map r.srcs fun _ v => { v with far := false } }

/-- With no eligible source: a QUALIFIED or SETTLING node flywheels on its held addend, a WITHDRAWN one holds, an
ACQUIRING one with no lane left falls back to UNSET (R58, R80). The counts of R55 and R56 begin anew on return. -/
def State.flywheelEntry (s : State) (n : Node) : State :=
  let left := s.anyTrained n
  s.updTimeQ n fun t =>
    let t := { t with upTq := .none, inLimit := 0, outLimit := 0 }
    match t.tq with
    | .qualified => { t with tq := .flywheel, flyAt := some t.counter, mode := .hold }
    | .settling => { t with tq := .flywheel, flyAt := some t.counter, mode := .hold }
    | .withdrawn => { t with mode := .hold }
    | .acquiring => if left then t else { t with tq := .unset, mode := .idle }
    | _ => t

/-- Take a source, counting a switch from another one (R83), or none. DESIGN CHOICE (log entry 129): a source taken
after an interval with none selected is no switch, and SWITCHES does not count it. -/
def State.takeSource (s : State) (n : Node) (p : Option Nat) : State :=
  let old := (s.time n).sel
  match p with
  | none =>
    let s := s.updTime n fun t => { t with sel := none }
    if n = .gd && s.gd.ref.isRoot then s else s.flywheelEntry n
  | some q =>
    let v := s.src ⟨n, q⟩
    if (s.time n).stepped && v.senderEpoch ≠ (s.time n).epoch then s.timeDomainReset n
    else
      let was := s.traceable n
      let s := s.updTime n fun t =>
        { t with sel := some q, selLane := q, upTq := v.senderTq, info := v.info,
                 switches := if old.isSome ∧ old ≠ some q then min (t.switches + 1) 0xFF else t.switches }
      let s := s.updSrc ⟨n, q⟩ fun v => { v with better := 0 }
      match n with
      | .tsu => s
      | .gd =>
        (if q = 64 ∨ q = 65 then s.updGd fun g => { g with ref := { g.ref with upLostAt := none } } else s).noteTrace was

/-- Run the selection of R82: keep an eligible current source, unless another outranks it at once. -/
def State.selectSource (s : State) (n : Node) : State :=
  if n = .gd && s.gd.ref.isRoot then s else
  let cands := (s.candPorts n).filter fun p => s.eligible ⟨n, p⟩
  let best := s.bestSource n
  match (s.time n).sel with
  | some p =>
    if p ∈ cands then
      if cands.any fun q => s.outranks n q p then s.takeSource n best else s
    else s.takeSource n best
  | none => if best.isSome then s.takeSource n best else s

/-- A lane or port stops being trained, or is lost for time: its measurement and offset become invalid, and
selection runs again if it was the selected source (R88). The loss of the partner link, and of both upstream ports, is
timed from its first event (R93, R118). -/
def State.srcInvalid (s : State) (l : LinkId) : State :=
  let s := s.updSrc l fun v => { v.remeasure with timeOk := false }
  let first : Option Nat → Nat → Option Nat := fun o a => if o.isSome then o else some a
  let s := if l.node = .gd ∧ l.port = s.gd.partnerPort then
      s.updGd fun g => { g with ref := { g.ref with partnerLostAt := first g.ref.partnerLostAt g.com.time.aon } }
    else s
  let s := if l.node = .gd ∧ (l.port = 64 ∨ l.port = 65) ∧ !s.eligible ⟨.gd, 64⟩ ∧ !s.eligible ⟨.gd, 65⟩ then
      s.updGd fun g => { g with ref := { g.ref with upLostAt := first g.ref.upLostAt g.com.time.aon } }
    else s
  if (s.time l.node).sel = some l.port then s.selectSource l.node
  else if (s.time l.node).tq = .acquiring ∧ !s.anyTrained l.node then s.flywheelEntry l.node
  else s

/-- A lane or port that gives time is trained for time: an UNSET node becomes ACQUIRING (R54, R78). -/
def State.acquire (s : State) (l : LinkId) : State :=
  let feeds := s.feeds l.node
  s.updTimeQ l.node fun t =>
    if l.port ∈ feeds ∧ t.tq = .unset ∧ !t.standalone then { t with tq := .acquiring } else t

/-- A link trains: the delay measurement starts, and an UNSET node becomes ACQUIRING (R54, R77). -/
def State.srcTrained (s : State) (l : LinkId) : State :=
  let aon := s.aon l.node
  let s := s.updSrc l fun v => { v.remeasure with lost := false, away := false, lastValid := aon }
  s.acquire l

/-- The quality a node sends (R57): no better than that of its selected source. -/
def State.ownQuality (s : State) (n : Node) : Quality :=
  let t := s.time n
  let base : Quality := match t.tq with
    | .qualified => .qualified
    | .withdrawn => .withdrawn
    | _ => .unqualified
  if n = .gd && s.gd.ref.isRoot && t.stepped then .qualified
  else match t.sel with
    | some _ => if base.rank < t.upTq.rank then (if t.upTq = .withdrawn then .withdrawn else .unqualified) else base
    | none => base

/-- The HOPS a node sends (R85, R117). -/
def State.ownHops (s : State) (n : Node) : Nat :=
  let t := s.time n
  if !t.stepped then 0xFF
  else if n = .gd && s.gd.ref.isRoot then 0
  else match t.sel with
    | none => 0xFF
    | some p => let h := (s.src ⟨n, p⟩).senderHops; if 0xFE ≤ h then 0xFF else h + 1

/-- One run of the servo on an offset in units of 2^-16 ns: SLEW beyond SLEW_ENTRY, else TRACK (R79). -/
def TimeDom.servo (t : TimeDom) (slew : Int) (kp ki : Nat) (theta : Int) : TimeDom :=
  if theta.natAbs > slew then
    { t with addend := if theta > 0 then addendMin else addendMax, mode := .slew }
  else
    let next := t.integ + theta * 2 ^ (32 - (kp + ki))
    let corr := theta * 2 ^ (32 - kp) + next
    let a : Int := addendNominal - roundEven corr (512 * 65536)
    { t with integ := if addendMin ≤ a ∧ a ≤ addendMax then next else t.integ, addend := clampAddend a,
             mode := .track }

/-- Some output is enabled (R479). -/
def State.outEnabled (s : State) : Bool := bitsOf (s.reg .gd 0x2A4) 2 0 ≠ 0

/-- The first alignment falls due: an output is enabled and STEPPED = 1 (R114). -/
def State.outputsDue (s : State) : State :=
  if s.outEnabled && s.gd.com.time.stepped && !s.gd.out.aligned && s.gd.out.firstAt.isNone then
    s.updGd fun g => { g with out := { g.out with firstAt := some g.com.time.counter } }
  else s

/-- The output timebase is left on its old phase by a step of the counter (R114). -/
def State.outputsStepped (s : State) (size : Int) : State :=
  if s.gd.out.aligned then
    let s := s.updGd fun g => { g with out := { g.out with misalign := g.out.misalign + size } }
    (s.setEvt .gd 0x2B8 1).logG .outMisaligned
  else
    (s.updGd fun g => { g with out := { g.out with misalign := g.out.misalign + size, firstAt := none } }).outputsDue

/-- What the distributor has measured against its counter moves with a step: the stamps of the references' edges, and the
offsets, which are its counter less the reference (R103). -/
def State.refsStepped (s : State) (size : Int) : State :=
  s.updRef fun r => { r with srcs := Tab.map r.srcs fun _ v =>
    { v with lastEdge := v.lastEdge.map (· + size), lastPulse := v.lastPulse.map (· + size), sum := v.sum + v.num * size,
             filtered := v.filtered.map (· + size) } }

/-- Step a node's counter; the distributor's outputs keep their phase (R44, R114). -/
def State.stepCounter (s : State) (n : Node) (goal : Time80) : State :=
  let s := s.updTime n fun t => t.step goal
  match n with
  | .tsu => s
  | .gd => (s.refsStepped (s.gd.com.time.lastStep / 65536)).outputsStepped s.gd.com.time.lastStep

/-- Enter WITHDRAWN (R56, R58, R60). -/
def State.withdraw (s : State) (n : Node) : State :=
  let old := (s.time n).tq
  let s := (s.updTimeQ n fun t => { t with tq := .withdrawn, inLimit := 0, outLimit := 0 }).loseLaunchOk n
  if n = .tsu ∧ old ≠ .withdrawn then s.healthSendEv 5 Config.withdrawnCode else s

/-- The effect of the quality that the selected source's sender reports: a QUALIFIED node falls to SETTLING or WITHDRAWN
with it, a SETTLING one to WITHDRAWN (R56). -/
def State.judgeSender (s : State) (n : Node) (q : Quality) : State :=
  let s := s.updTime n fun t => { t with upTq := q }
  match (s.time n).tq with
  | .qualified =>
    if q = .withdrawn then s.withdraw n
    else if q ≠ .qualified then s.updTimeQ n fun t => { t with tq := .settling, inLimit := 0, outLimit := 0 }
    else s
  | .settling => if q = .withdrawn then s.withdraw n else s
  | _ => s

/-- The effect of a new offset of the selected source on the quality state: the counts of R55 and R56, the fall to
WITHDRAWN, and the alarm of R59. -/
def State.judgeOffset (s : State) (n : Node) (theta : Int) : State :=
  let lim := s.qualLimit n
  let step := s.stepLimit n
  let inside : Bool := theta.natAbs ≤ lim
  let far : Bool := 65536000 < theta.natAbs
  let s := s.updTime n fun t =>
    { t with offset := theta,
             inLimit := if inside then t.inLimit + 1 else 0, outLimit := if inside then 0 else t.outLimit + 1 }
  let s := match (s.time n).tq with
    | .qualified => if far then s.withdraw n else s
    | .settling => if far then s.withdraw n else s
    | _ => s
  if step < theta.natAbs then (s.setEvt n 0x11C 0x800).log n .timeOffset else s

/-- An offset of the selected source; the first one brings a flywheeling node back to SETTLING, or to WITHDRAWN beyond
1 µs (R59). -/
def State.takeOffset (s : State) (n : Node) (theta : Int) : State :=
  let fly : Bool := (s.time n).tq = .flywheel
  let s := if fly then
      if theta.natAbs ≤ 65536000 then s.updTimeQ n fun t => { t with tq := .settling, flyAt := none }
      else (s.updTime n fun t => { t with flyAt := none }).withdraw n
    else s
  s.judgeOffset n theta

end Sys2Proof.Machine
end

