-- ==== Sys2Proof/Machine/DistOps.lean ====
section
/-! DEFINITION. Shared operations of a distributor: its place in the tree and its domains' paths, sending up, down and
to the partner, the downward latency, soft entries, combining and turns (R18 to R33, R158, R202 to R207, R217 to
R226, R262 to R276, R384 to R388, R399). -/

namespace Sys2Proof.Machine

open Sys2Proof

/-! ## Place in the tree -/

/-- The position's locator with SIDE 0; none without a role (R23, R29). -/
def Gd.posLoc (g : Gd) : Option Nat := g.locator.map fun l => mkLoc (locRole l) (locPos l)

/-- This chip's variant meets NEED (R3, R312). -/
def Variant.meets (v : Variant) (need : Nat) : Bool :=
  match v with
  | .gd64x => true
  | .gd64s => need < 2
  | .gd32e => need = 0

/-- The position's record in a tree image. -/
def Gd.posRec (g : Gd) (t : TreeImage) : Option PosRec := g.posLoc.bind t.pos

/-- The variant may take the position of an image: it meets NEED, and only a GD-64X is a hall root (R4, R320). -/
def Gd.fits (g : Gd) (t : TreeImage) : Bool :=
  ((g.posRec t).map fun p => g.variant.meets p.need).getD false && (g.role ≠ some 3 || g.variant = .gd64x)

/-- A distributor holds a role: its locator and an accepted tree image whose position it fits (R28, R29, R320). -/
def Gd.hasRole (g : Gd) : Bool := g.locator.isSome && (g.tree.map g.fits).getD false

/-- The lowest die and the number of dies below child `i` (R21, R25). -/
def Gd.childSpan (g : Gd) (i : Nat) : Nat × Nat :=
  match g.posLoc with
  | none => (0, 0)
  | some l => match locRole l with
    | 0 => (locPos l * 8 + i, 1)
    | r => locDies (mkLoc (r - 1) (locPos l * fanOut r + i))

/-- The locator, with SIDE 0, of child position `i` (R23). -/
def Gd.childLoc (g : Gd) (i : Nat) : Nat :=
  match g.posLoc with
  | none => 0
  | some l => mkLoc (locRole l - 1) (locPos l * fanOut (locRole l) + i)

/-- The child that a die lies below (R21, R386). -/
def Gd.childOfDie (g : Gd) (die : Nat) : Option Nat :=
  (List.range g.fan).find? fun i => (g.childSpan i).1 ≤ die && die < (g.childSpan i).1 + (g.childSpan i).2

/-- The number of member dies of a domain in a range of dies (R314). -/
def DomRec.count (d : DomRec) (lo n : Nat) : Nat :=
  if d.bitmap then
    let base := if d.topIsDie then d.top / 8 * 8 else (locDies d.top).1
    let a := lo - base
    ((List.range n).filter fun k => base ≤ lo + k && (byteAt d.body ((a + k) / 8)).getLsbD ((a + k) % 8)).length
  else ((List.range (d.body.length / 4)).map fun k =>
    let w := beNat d.body (4 * k) 4
    let span := if bitOf w 31 then (bitsOf w 17 0, 1) else locDies (bitsOf w 19 0)
    min (lo + n) (span.1 + span.2) - max lo span.1).sum

/-- MEMBER_PORTS: the children whose subtree holds a member (R202). -/
def Gd.members (g : Gd) (d : DomRec) : List Nat :=
  (List.range g.fan).filter fun i => 0 < d.count (g.childSpan i).1 (g.childSpan i).2

/-- Update a domain. -/
def State.updDom (s : State) (tag : BitVec 24) (f : GdDom → GdDom) : State :=
  s.updGd fun g => match Tab.get g.doms tag.toNat with
    | some d => { g with doms := Tab.put g.doms tag.toNat (f d) }
    | none => g

/-- An extended instant in ns has been reached (R49, R50). -/
def reachedBy (now at_ : Int) : Bool := decide (at_ ≤ now)

/-- The acting side of this position for a domain: the declared side, unless TAKE moved it and no RETURN has reached
its AT (R384). -/
def State.actingSide (s : State) (d : DomRec) : Bool :=
  match s.gd.actingTo with
  | none => d.sideB
  | some b => if ((s.gd.returnAt.map (reachedBy (s.now .gd).toNs)).getD false) then d.sideB else b

/-- This distributor acts for a domain. -/
def State.acts (s : State) (d : DomRec) : Bool := s.actingSide d = s.gd.sideB

/-- This distributor serves a soft entry: after a RETURN, the declared side serves the generations opened by turns
whose C has reached AT (R384). -/
def State.serves (s : State) (d : DomRec) (e : Soft) : Bool :=
  match s.gd.actingTo with
  | none => d.sideB = s.gd.sideB
  | some b => (if e.back then d.sideB else b) = s.gd.sideB

/-- This position is the domain's top node. -/
def Gd.isTop (g : Gd) (d : DomRec) : Bool := !d.topIsDie && decide (g.posLoc = some d.top)

/-! ## Sending -/

/-- A port carries the frames of a domain: it is UP, and at full rate where the domain requires it (R157). -/
def State.carries (s : State) (d : DomRec) (p : Nat) : Bool :=
  s.trained ⟨.gd, p⟩ && !(d.fullRate && (s.link ⟨.gd, p⟩).fallback)

/-- U1 is declared (R24). -/
def State.u1 (s : State) : Bool := (s.link ⟨.gd, 65⟩).declared

/-- No port leads toward the hall root: a pod of a hall domain records ONE_TOP_LOST once, until a way is found
(R399). -/
def State.topLost (s : State) (d : DomRec) : State :=
  if s.gd.role = some 2 ∧ d.top = mkLoc 3 0 ∧ !((s.dom? d.tag).map (·.topNoted)).getD true then
    (s.updDom d.tag fun x => { x with topNoted := true }).logG .topLost
  else s

/-- Send a message of a domain up: the acting side on U0, else U1, else its partner link; the other side passes on a
DETOUR message over the partner link, U0 or U1. Without a way it waits as a ready mark (R158, R385, R399). -/
def State.gdUp (s : State) (d : DomRec) (cls key : Nat) (fs : List Frame) (relay : Bool) (from_ : Nat) : State :=
  let p := s.gd.partnerPort
  let ways := (if relay then [p, 64, 65] else [64, 65, p]).filter fun w => w ≠ from_ && (w ≠ 65 || s.u1)
  match ways.find? (s.carries d) with
  | some w =>
    let s := s.updDom d.tag fun x => { x with topNoted := false }
    s.send ⟨.gd, w⟩ cls key (fs.map fun f => { f with detour := relay || w ≠ 64 })
  | none =>
    (s.topLost d).updCom .gd fun c => { c with marks := c.marks ++ [⟨64, cls, chainFrames fs, key⟩] }

/-- Send a down message to children: on each one's own port; where that is not UP, the partner delivers, or the cross
port where declared (R158, R205, R388). `raw` is the message as the partner takes it, before the rewrite per port. -/
def State.gdDown (s : State) (d : DomRec) (cls : Nat) (kids : List Nat) (per : Nat → List Frame) (raw : List Frame) :
    State :=
  let p := s.gd.partnerPort
  let mark : List Frame → List Frame := fun fs => fs.map fun f => { f with detour := true }
  let s' := kids.foldl (fun s i =>
    if s.carries d i then s.send ⟨.gd, i⟩ cls 0 (per i)
    else if s.carries d p then s
    else match s.gd.crossPort i with
      | some x => if s.carries d x then s.send ⟨.gd, x⟩ cls 0 (mark (per i)) else s.send ⟨.gd, i⟩ cls 0 (per i)
      | none => s.send ⟨.gd, i⟩ cls 0 (per i)) s
  if kids.any (fun i => !s.carries d i) ∧ s.carries d p then s'.send ⟨.gd, p⟩ cls 0 (mark raw) else s'

/-- Copy a message to the partner, without DETOUR, while the partner link carries its domain (R157, R387). -/
def State.mirror (s : State) (cls : Nat) (fs : List Frame) : State :=
  let p := s.gd.partnerPort
  if s.linkCarries ((fs.head?.map (·.domain)).getD 0) p then
    s.send ⟨.gd, p⟩ cls 0 (fs.map fun f => { f with detour := false })
  else s

/-- What a message that travels up is to this distributor (R202, R203, R385 to R387): child `i`'s, `copy` a mirror copy; to be
routed to the acting side of child `i`, or relayed up; from no member, from no member die, or malformed. -/
inductive UpPlace where
  | child (i : Nat) (copy : Bool)
  | route (i : Nat)
  | relay
  | notMember
  | noDie
  | wrong
  deriving DecidableEq, Repr

/-- Attribute a message to a child by the die it carries (R386). -/
def State.attribute (s : State) (d : DomRec) (die : Option Nat) (copy : Bool) : UpPlace :=
  match die.bind s.gd.childOfDie with
  | some i => if (s.gd.members d).contains i then .child i copy else .noDie
  | none => .noDie

/-- The place of a message of a domain that travels up (R202, R203, R385 to R387). -/
def State.upPlace (s : State) (l : LinkId) (d : DomRec) (detour : Bool) (die : Option Nat) : UpPlace :=
  if l.port < 64 then
    let i := s.gd.childOfPort l.port
    let side := if l.port < s.gd.fan then s.gd.sideB else !s.gd.sideB
    if !(s.gd.members d).contains i then .notMember
    else if detour ∧ s.gd.role ≠ some 0 ∧ side ≠ s.childSide i d.tag then .route i
    else if s.acts d then .child i false
    else .relay
  else if l.port = s.gd.partnerPort then
    if !detour then s.attribute d die true
    else if s.acts d then s.attribute d die false
    else .relay
  else if l.port < 66 ∧ detour then
    if s.acts d then s.attribute d die false else .relay
  else .wrong

/-- Take a message of a domain that travels up to its place: the child it counts as, and whether it is a mirror copy; none
where it has been passed on, held or discarded (R202, R203, R385 to R387). -/
def State.upPart (s : State) (l : LinkId) (d : DomRec) (cls : Nat) (fs : List Frame) (die : Option Nat) :
    State × Option (Nat × Bool) :=
  match s.upPlace l d ((fs.head?.map (·.detour)).getD false) die with
  | .child i copy => (s, some (i, copy))
  | .route i => (s.routeChild i l.port fs, none)
  | .relay => (s.gdUp d cls 0 fs true l.port, none)
  | .notMember => (s.logG .notParticipant l.port, none)
  | .noDie => (s.logG .detourUnattributed l.port, none)
  | .wrong => (s.malformed l, none)

end Sys2Proof.Machine
end

