-- ==== Sys2Proof/Machine/SoftOps.lean ====
section
/-! DEFINITION. Shared operations of a distributor's soft entries: judgement of arrivals, combining, turns at the top
node, and down messages (R202 to R207, R217 to R226, R262 to R276, R387, R395, R398, R402). -/

namespace Sys2Proof.Machine

open Sys2Proof

/-- Bytes of a message after `room` bytes at the end of its first frame (R207, R226). -/
def msgBytes (room : Nat) (fs : List Frame) : List Byte :=
  match fs with
  | [] => []
  | f :: t => (padTo 48 f.body).drop (48 - room) ++ t.flatMap fun g => padTo 48 g.body

/-- The descriptor's 16 bytes (R207). -/
def descBytes (index op fmt lanes members die : Nat) (ns : Word) : List Byte :=
  natBytes index 2 ++ natBytes op 1 ++ natBytes fmt 1 ++ natBytes lanes 2 ++ natBytes members 3 ++ natBytes die 3
    ++ natBytes ns.toNat 4

/-- 48-byte pieces of a byte string. -/
def pieces (l : List Byte) : List (List Byte) := (List.range ((l.length + 47) / 48)).map fun k => (l.drop (48 * k)).take 48

/-- A down message: its first frame up to DATA, the combined data with `room` bytes in the first frame, and the
allocator part in frames of its own (R207, R225, R226, R276). -/
def downMessage (first : Frame) (room : Nat) (data alloc : List Byte) : List Frame :=
  let head := { first with body := padTo 48 (first.body.take (48 - room) ++ data.take room) }
  head :: (pieces (data.drop room) ++ pieces alloc).map fun b => { first with body := padTo 48 b }

/-! ## Policy sets and arm descriptors -/

/-- Keep the policy sets and arm descriptors as they stand before the first write of a tick (R274, R309). -/
def Gd.hold (g : Gd) (aon : Nat) : Gd :=
  if g.heldAt = some aon then g else { g with heldAt := some aon, heldPol := g.policies, heldArms := g.arms }

/-- The policy sets that a turn of a tick uses (R274, R284). -/
def Gd.polAt (g : Gd) (aon : Nat) : Tab Policy := if g.heldAt = some aon then g.heldPol else g.policies

/-- The arm descriptors that a turn of a tick uses (R309). -/
def Gd.armsAt (g : Gd) (aon : Nat) : Tab ArmDesc := if g.heldAt = some aon then g.heldArms else g.arms

/-! ## Entries -/

/-- The key of a soft entry. -/
def softKey (tag : BitVec 24) (index : Nat) : Nat := tag.toNat * 4096 + index

/-- A soft entry. -/
def State.soft? (s : State) (tag : BitVec 24) (index : Nat) : Option Soft := Tab.get s.gd.softs (softKey tag index)

/-- Update a soft entry. -/
def State.updSoft (s : State) (tag : BitVec 24) (index : Nat) (f : Soft → Soft) : State :=
  s.updGd fun g => match Tab.get g.softs (softKey tag index) with
    | some e => { g with softs := Tab.put g.softs (softKey tag index) (f e) }
    | none => g

/-- The children outside the expected set of a new entry: those out of the domain and those whose expulsion has been
reached, but for returning ones whose JOIN_AT has passed (R395, R398, R402). -/
def State.newOut (s : State) (d : GdDom) : List Nat :=
  let now := (s.now .gd).toNs
  let gone := (d.leaving.filter fun p => reachedBy now p.2).map (·.1)
  (d.out ++ gone).filter fun i => !(((Tab.get d.joining i).map (reachedBy now)).getD false && !gone.contains i)

/-- The entry of a domain tumbler, created at the first frame for it with LAST_GEN = GEN − 1 (R203). -/
def State.openSoft (s : State) (d : GdDom) (index : Nat) (gen : BitVec 2) : State × Soft :=
  match s.soft? d.dr.tag index with
  | some e => (s, e)
  | none =>
    let e := { Soft.blank (gen - 1) (s.now .gd).ns32 with
      out := s.newOut d, back := (s.gd.returnAt.map (reachedBy (s.now .gd).toNs)).getD false }
    (s.updGd fun g => { g with softs := Tab.put g.softs (softKey d.dr.tag index) e }, e)

/-- The children that the current generation of an entry waits for (R202, R204, R263, R395). -/
def State.expected (s : State) (d : DomRec) (e : Soft) : List Nat :=
  (s.gd.members d).filter fun i => !e.out.contains i && !e.absent.contains i

/-- The children's messages that have been combined whole (R262). -/
def Soft.whole (e : Soft) : List (Nat × List Byte) := e.parts.filter fun p => e.marks.contains p.1

/-- A frame in combining order: as it comes, those of one tick in ascending port index (R262, R284). -/
def insertCame (c : Came) : List Came → List Came
  | [] => [c]
  | x :: t => if x.aon = c.aon ∧ x.frame = c.frame ∧ c.child < x.child then c :: x :: t else x :: insertCame c t

/-- The combined lanes of frame `k`, folded from the messages whose frame of that number has come, in the order in which it came;
of `whole` ones alone, or of those under way too (R262). -/
def Soft.frameFold (e : Soft) (whole : Bool) (k : Nat) : List Byte :=
  match e.desc with
  | some (op, fmt, lanes) =>
    let xs := (e.came.filter fun c => c.frame = k && (!whole || e.marks.contains c.child)).filterMap fun c => Tab.get e.parts c.child
    let lo := if k = 0 then 0 else 48 * k - 16
    ((foldGd op fmt lanes xs).drop lo).take (32 + 48 * k - lo)
  | none => []

/-- The lanes of every frame of an entry's value (R262). -/
def Soft.fold (e : Soft) (whole : Bool) : List Byte :=
  match e.desc with
  | some (op, fmt, lanes) => (List.range (1 + moreFrames 32 (dataLen op fmt lanes))).flatMap (e.frameFold whole)
  | none => []

/-- The combined value of an entry (R262). -/
def Soft.combined (e : Soft) : List Byte := e.fold true

/-- Frame by frame, the partial combined value (R262, R482). -/
def Soft.partial (e : Soft) : List Byte := e.fold false

/-- An unfinished message of child `i` is discarded (R207). -/
def Soft.undo (e : Soft) (i : Nat) : Soft :=
  if e.marks.contains i then e
  else
    let parts := e.parts.filter fun p => p.1 ≠ i
    { e with parts, came := e.came.filter fun c => c.child ≠ i, desc := if parts = [] ∧ e.marks = [] then none else e.desc }

/-- The data of the `n` frames of child `i` that have come up to tick `aon`; the first ARRIVE fixes the descriptor (R262, R263). -/
def Soft.take (e : Soft) (i : Nat) (desc : Nat × Nat × Nat) (data : List Byte) (n aon : Nat) : Soft :=
  let new := (List.range n).filter fun k => !e.came.any fun c => c.child = i && c.frame = k
  { e with desc := some desc, parts := Tab.put e.parts i data, came := new.foldl (fun l k => insertCame ⟨k, i, aon⟩ l) e.came }

/-- The offset of child `i`: the totals of the children below it, in ascending order, as one stage (R270). -/
def Soft.offset (e : Soft) (i : Nat) : List Byte :=
  match e.desc with
  | some (op, fmt, lanes) =>
    foldGd op fmt lanes ((List.range i).filterMap fun k => (e.whole.find? fun p => p.1 = k).map (·.2))
  | none => []

/-! ## The downward latency -/

/-- One fabric cycle × 12 in ps: FWD (R7, R218). -/
def State.fwdPs (s : State) : Nat := 120000 / orOne s.gd.fabricMax

/-- d_down of a downstream port in ps (R76). -/
def State.dDown (s : State) (p : Nat) : Int :=
  let v := s.src ⟨.gd, p⟩
  roundAway (v.mean.num * 2000 + v.asym * 2 ^ v.mean.exp * 131072) (2 ^ v.mean.exp * 262144)

/-- The rate of the selected upstream; none without one (R219, R220). -/
def State.upSlow (s : State) : Option Bool :=
  match s.gd.com.time.sel with
  | some p => if p = 64 ∨ p = 65 then some (s.link ⟨.gd, p⟩).fallback else none
  | none => none

/-- TX_PIPE + d_down + the child's DLAT, with two slots where a rate changes (R218, R220). -/
def State.portTerm (s : State) (d : GdDom) (i : Nat) : Int :=
  let k := s.link ⟨.gd, i⟩
  let extra := match s.upSlow with
    | some slow => if slow ≠ k.fallback then 2 * (if k.fallback then 51200 else 20480) else 0
    | none => 0
  (k.txPipeNow : Int) + s.dDown i + ((Tab.get d.dlat i).map (·.dlat)).getD 0 + extra

/-- The children that enter the maximum of R218. -/
def State.dlatKids (s : State) (d : GdDom) : List Nat := (s.gd.members d.dr).filter fun i => !s.gd.absent.contains i

/-- The greatest port term of a domain in ps, with the die that sets it (R218, R221). -/
def State.worstTerm (s : State) (d : GdDom) : Int × Nat :=
  (s.dlatKids d).foldl (fun m i =>
    let t := s.portTerm d i
    if m.1 < t then (t, ((Tab.get d.dlat i).map (·.worst)).getD 0) else m) (0, 0)

/-- Every member port has reported a VALID value and has DELAY_VALID set (R222). -/
def State.dlatValid (s : State) (d : GdDom) : Bool :=
  (s.dlatKids d).all fun i => ((Tab.get d.dlat i).map (·.valid)).getD false && (s.src ⟨.gd, i⟩).delayValid

/-- SLOW: some path below runs at fallback or crosses a rate change (R221). -/
def State.dlatSlow (s : State) (d : GdDom) : Bool :=
  (s.dlatKids d).any fun i => ((Tab.get d.dlat i).map (·.slow)).getD false || (s.link ⟨.gd, i⟩).fallback
    || (s.upSlow.map fun u => decide (u ≠ (s.link ⟨.gd, i⟩).fallback)).getD false

/-- DLAT of a distributor for a domain in ps, with the RX_PIPE of upstream port `p` (R218). -/
def State.gdDlat (s : State) (p : Nat) (d : GdDom) : Nat :=
  (((s.link ⟨.gd, p⟩).rxPipeNow : Int) + s.fwdPs + (s.worstTerm d).1).toNat

/-- W for a turn at C, C in units of 2^-16 ns and W in units of 1/65536 ps: from C to the first slot, not a time slot, at least
12 cycles later. Without a selected upstream slots stand on the counter, every 20.480 ns (R219). -/
def State.slotWait (s : State) (c : Int) : State × Int :=
  let lead : Int := (s.fwdPs : Int) * 65536
  match s.upSlow with
  | none =>
    let slot : Int := 20480 * 65536
    let x := c * 1000 + lead
    let k := (x + slot - 1) / slot
    let k := if k % 50 = (Config.timeSlot % 50 : Nat) then k + 1 else k
    (s, k * slot - c * 1000)
  | some slow =>
    let slot : Nat := if slow then 51200 else 20480
    (s.takeFresh, lead + (Config.slotPhase s.fresh % (2 * slot) : Nat) * 65536)

/-- Record once that D of a domain is not VALID at its top node (R222). -/
def State.noteDlat (s : State) (d : GdDom) : State :=
  if s.dlatValid d ∨ d.dlatNoted then s
  else (s.updDom d.dr.tag fun x => { x with dlatNoted := true }).logG .dlatInvalid

/-- The domain with the downward latency that turns of this tick use: a change applies from the next tick on (R222, R238). -/
def GdDom.settled (d : GdDom) (aon : Nat) : GdDom := if d.dlatAt = aon then { d with dlat := d.dlatOld } else d

/-- D of a top node for a turn at C, in units of 2^-16 ns: W and the greatest port term, or D_BOUND (R218, R222). -/
def State.topD (s : State) (d : GdDom) (c : Int) : State × Int :=
  let d := d.settled (s.aon .gd)
  if s.dlatValid d then
    let w := s.slotWait c
    (w.1, roundAway (w.2 + (s.worstTerm d).1 * 65536) 1000)
  else (s.noteDlat d, (d.dr.dBound : Int) * 65536)

/-! ## Down messages -/

/-- The allocator part of a turn at the top node, but for the prefixes (R275, R276). -/
def allocHead (rule set experts accepted overflowed : Nat) : List Byte :=
  natBytes (rule + 16 * set) 1 ++ natBytes 0 1 ++ natBytes experts 2 ++ natBytes (accepted % 4294967296) 4
    ++ natBytes (overflowed % 4294967296) 4 ++ natBytes 0 4

/-- The message for child `i` of a down message: its data and allocator prefixes with the child's offset (R270). -/
def rewriteDown (launch : Bool) (first : Frame) (data alloc off : List Byte) : List Frame :=
  let room := if launch then 12 else 32
  let op := first.fOp
  if op = 0x0B then downMessage first room (if off = [] then data else addResults first.fFmt first.fLanes data off) alloc
  else if op = 0x0C then
    downMessage first room data (alloc.take 16 ++
      (if off = [] then alloc.drop 16 else addResults 2 first.fLanes (alloc.drop 16) off))
  else downMessage first room data alloc

/-- A turn passes an entry: LAST_GEN, MARKS and the partial value, with the boundaries of joins, expulsions and a RETURN
whose instants C has reached (R205, R384, R398, R402). -/
def State.passTurn (s : State) (d : GdDom) (index : Nat) (gen : BitVec 2) (c : Int) : State :=
  let now := (s.now .gd).ns32
  let back := (s.gd.returnAt.map (reachedBy c)).getD false
  s.updSoft d.dr.tag index fun e =>
    let gone := (d.leaving.filter fun p => reachedBy c p.2).map (·.1)
    let came := (d.joining.filter fun p => reachedBy c p.2).map (·.1)
    let out := (e.out ++ gone.filter fun i => !e.out.contains i).filter fun i => !(came.contains i && !gone.contains i)
    { e with lastGen := gen, marks := [], desc := none, parts := [], came := [], members := 0, short := false, latestDie := 0,
             latestNs := 0, turnedNs := some e.latestNs, step16 := 0, opened := now, done := false, absent := [], offsets := [], out,
             back := e.back || back }

/-- A record of a turn of a STEP_TUMB in the journal: the frame header and the first 24 payload bytes (R407). -/
def State.journalTurn (s : State) (d : DomRec) (f : Frame) : State :=
  if d.stepEn ∧ f.fIndex = d.stepTumb then
    s.updGd fun g => g.journalWrite 2 0 (g.locator.getD 0) (natBytes f.header 8 ++ (padTo 48 f.body).take 24)
  else s

/-- Send a down message to the member children that are not absent, mirrored first where this side acts; a detoured one
only on the ports that are UP (R205, R387, R388). -/
def State.spread (s : State) (d : GdDom) (launch : Bool) (first : Frame) (data alloc : List Byte) (e : Soft)
    (copy only : Bool) : State :=
  let room := if launch then 12 else 32
  let cls := if launch then 1 else 2
  let raw := downMessage first room data alloc
  let s := if copy then s.mirror cls raw else s
  let kids := (s.gd.members d.dr).filter fun i => !s.gd.absent.contains i && (!only || s.carries d.dr i)
  s.gdDown d.dr cls kids (fun i => rewriteDown launch first data alloc (if isScan first.fOp then e.offset i else [])) raw

/-! ## The top node -/

/-- What the top node of a turn sends as combined data and allocator part: the prefixes of a SCAN start at the identity,
and an ALLOC sends accepted counts under its policy set (R270, R275, R276). -/
def State.turnData (s : State) (e : Soft) : State × List Byte × List Byte :=
  match e.desc with
  | none => (s, [], [])
  | some (op, fmt, lanes) =>
    if op = 0x0B then (s, foldGd op fmt lanes [], [])
    else if op = 0x0C then
      let set := paramOf fmt
      let p := Tab.getD (s.gd.polAt (s.aon .gd)) set ⟨false, 0, 0, []⟩
      let ok := p.valid && decide (lanes = (if p.rule = 1 then 2 * p.experts else p.experts))
      let loads := lanesAt e.combined 2 lanes
      let acc := allocAccept p.rule p.experts p.caps loads ok
      let excess := ((List.range lanes).map fun j => loads.getD j 0 - acc.getD j 0).sum
      let s := if ok then s else s.logG .allocPolicy
      (s, packLanes 2 acc, allocHead p.rule set p.experts acc.sum excess ++ List.replicate (2 * lanes) 0)
    else (s, e.combined, [])

/-- A tumbler turns at the distributor that is its top node (R204, R205, R217, R223, R225). -/
def State.gdTurn (s : State) (d : GdDom) (index : Nat) (e : Soft) : State :=
  let c := (s.now .gd).toNs16
  let cw := (s.now .gd).ns32
  let gen := e.lastGen + 1
  let x := e.desc.getD (0, 0, 0)
  let arm := Tab.get (s.gd.armsAt (s.aon .gd)) (softKey d.dr.tag index)
  let armed : Bool := match arm with
    | some a => decide (a.mode ≠ .turn)
    | none => false
  let (s, data, alloc) := s.turnData e
  let desc := descBytes index x.1 x.2.1 x.2.2 e.members e.latestDie e.latestNs
  let head : Frame := { mkFrame 0x11 2 gen d.dr.tag e.step16 cw desc with f49 := e.short }
  let (s, first) : State × Frame :=
    if armed then
      let (s, dd) := s.topD d c
      let t := (launchT arm c dd).getD c
      let far := decide (70368744177664 ≤ t - c)
      let tt := Time80.ofUnits (t * 65536)
      let body := desc ++ natBytes (t % 65536).toNat 2
        ++ natBytes (64 * b2n ((arm.map (·.drop)).getD false) + 32 * b2n (decide (x.1 = 0x0C))) 1 ++ natBytes 0 1
        ++ natBytes cw.toNat 4 ++ (if far then tt.bytes else natBytes 0 10) ++ natBytes 0 2
      (s, { mkFrame 0x08 1 gen d.dr.tag e.step16 tt.ns32 body with f49 := e.short, f48 := far })
    else (s, head)
  let s := s.journalTurn d.dr first
  let s := s.spread d armed first data alloc e true false
  s.passTurn d index gen (s.now .gd).toNs

/-! ## Arrivals -/

/-- An entry's combined ARRIVE (R204, R206, R207). -/
def State.combinedArrive (_s : State) (d : GdDom) (index : Nat) (e : Soft) : List Frame :=
  let x := e.desc.getD (0, 0, 0)
  let data := e.combined
  let first := { mkFrame 0x10 2 (e.lastGen + 1) d.dr.tag e.step16 e.doneNs
    (descBytes index x.1 x.2.1 x.2.2 e.members e.latestDie e.latestNs ++ data.take 32) with f49 := e.short }
  dataFrames first (data.drop 32) (moreFrames 32 data.length)

/-- MARKS covers the expected member ports: the combined ARRIVE leaves, or the tumbler turns at its top node. A mirrored
entry only notes it, and an entry in census waits (R204, R205, R387, R389, R395). -/
def State.softCheck (s : State) (tag : BitVec 24) (index : Nat) : State :=
  match s.dom? tag, s.soft? tag index with
  | some d, some e =>
    if e.done ∨ e.marks = [] ∨ !(s.expected d.dr e).all e.marks.contains ∨ d.inCensus then s
    else
      let missing := (s.gd.members d.dr).any fun i => !e.marks.contains i
      let s := s.updSoft tag index fun e =>
        { e with done := true, doneNs := (s.now .gd).ns32, short := e.short || missing,
                 offsets := if isScan ((e.desc.map (·.1)).getD 0) then (s.gd.members d.dr).map fun i => (i, e.offset i) else [] }
      match s.soft? tag index with
      | some e =>
        if !s.serves d.dr e then s
        else if s.gd.isTop d.dr then s.gdTurn d index e
        else s.gdUp d.dr 2 (softKey tag index) (s.combinedArrive d index e) false 99
      | none => s
  | _, _ => s

/-- Count a duplicate (R204). -/
def State.dupArrive (s : State) (tag : BitVec 24) (index : Nat) : State :=
  s.updSoft tag index fun e => { e with dup := min (e.dup + 1) 0xFFFF }

/-- The combined data of the frames of an ARRIVE message that have come (R207). -/
def arriveData (fs : List Frame) : List Byte :=
  match fs with
  | [] => []
  | f :: _ => (msgBytes 32 fs).take (dataLen f.fOp f.fFmt f.fLanes)

/-- Frames of an ARRIVE message of child `i` before its last: they are combined as they come, where the message will be counted
(R204, R262, R263). -/
def State.gdUnderway (s : State) (d : GdDom) (i : Nat) (fs : List Frame) : State :=
  match fs with
  | [] => s
  | f :: _ =>
    if d.dr.tumblers ≤ f.fIndex ∨ d.waiting then s
    else
      let (s, e) := s.openSoft d f.fIndex f.gen
      if e.out.contains i ∨ f.gen ≠ e.lastGen + 1 ∨ e.marks.contains i ∨ (e.desc.isSome ∧ e.desc ≠ some f.fDesc) then s
      else s.updSoft d.dr.tag f.fIndex fun e => e.take i f.fDesc (arriveData fs) fs.length (s.aon .gd)

/-- A child whose ARRIVE has another descriptor counts as absent from the generation: without ALLOW_ABSENT the top node records
ONE_MEMBER_ABSENT (R156, R263). -/
def State.mismatched (s : State) (d : GdDom) (i index : Nat) : State :=
  if d.dr.allowAbsent then
    (s.updSoft d.dr.tag index fun e =>
      { e with absent := if e.absent.contains i then e.absent else e.absent ++ [i], short := true }).softCheck d.dr.tag index
  else if s.gd.isTop d.dr ∧ s.acts d.dr then s.logG .memberAbsent i
  else s

/-- An ARRIVE message of child `i` from port `p` is judged against its entry and combined (R203, R204, R262, R263, R387,
R395). -/
def State.gdArrive (s : State) (d : GdDom) (p i : Nat) (copy : Bool) (fs : List Frame) : State :=
  match fs with
  | [] => s
  | f :: _ =>
    let tag := d.dr.tag
    let index := f.fIndex
    if d.dr.tumblers ≤ index ∨ d.waiting then s.logG .noTumbler p
    else
      let (s, e) := s.openSoft d index f.gen
      if e.out.contains i then s.logG .notParticipant p
      else if f.gen = e.lastGen + 1 then
        if e.marks.contains i then s.dupArrive tag index
        else if e.desc.isSome ∧ e.desc ≠ some f.fDesc then (s.logG .combineMismatch p i).mismatched d i index
        else
          let later : Bool := e.marks = [] || decide (0 < sdiff 32 f.fNs.toNat e.latestNs.toNat)
          let s := s.updSoft tag index fun e =>
            { e.take i f.fDesc (arriveData fs) fs.length (s.aon .gd) with
                     marks := e.marks ++ [i], members := (e.members + f.fMembers) % 524288, short := e.short || f.f49,
                     step16 := f.step16, latestDie := if later then f.fDie else e.latestDie,
                     latestNs := if later then f.fNs else e.latestNs }
          let s := if !copy ∧ s.serves d.dr e then s.mirror 2 fs else s
          s.softCheck tag index
      else if f.gen = e.lastGen + 2 then s.logG .genSkip p
      else s.dupArrive tag index

/-! ## Down messages received -/

/-- A down message from above, or as a copy or a DETOUR of the partner: judged by generation and forwarded (R205, R220,
R270, R387, R388). -/
def State.gdDownRx (s : State) (d : GdDom) (p : Nat) (launch copy : Bool) (fs : List Frame) : State :=
  match fs with
  | [] => s
  | f :: _ =>
    let index := f.fIndex
    if d.dr.tumblers ≤ index ∨ d.waiting then s.logG .noTumbler p
    else
      let (s, e) := s.openSoft d index f.gen
      if f.gen = e.lastGen then s
      else
        let s := if f.gen = e.lastGen + 1 then s else s.logG .genSkip p
        let room := if launch then 12 else 32
        let all := msgBytes room fs
        let n := dataLen f.fOp f.fFmt f.fLanes
        let frames := if n ≤ room then 0 else (n - room + 47) / 48
        let data := all.take n
        let alloc := (all.drop (room + 48 * frames)).take (allocLen f.fOp f.fLanes)
        let gap : Bool := isScan f.fOp && (s.gd.members d.dr).any fun i => !e.marks.contains i
        let first := { f with f49 := f.f49 || gap, detour := false }
        let c : Word := if launch then BitVec.ofNat 32 (f.nat 32 4) else f.time
        let s := s.journalTurn d.dr first
        let s := if copy then s else s.spread d launch first data alloc e (s.serves d.dr e) f.detour
        s.passTurn d index f.gen (extendNs (s.now .gd) c)

end Sys2Proof.Machine
end

