-- ==== Sys2Proof/Machine/BulkOps.lean ====
section
/-! DEFINITION. Shared operations of bulk objects and roll call: the frames of an object, the ports in scope, originating
an object, and the tree image and leaf extracts that a distributor passes down (R29, R178 to R180, R281 to R283, R318,
R414, R430). -/

namespace Sys2Proof.Machine

open Sys2Proof

/-- The BULK_OPEN frame of an object (R178). -/
def openFrame (o : Nat) (x : BulkRx) : Frame :=
  mkFrame 0x20 3 0 x.domain 0 0 (natBytes o 2 ++ natBytes x.kind 1 ++ natBytes x.scope 1 ++ natBytes x.dest 3
    ++ natBytes x.length 5 ++ natBytes x.chunks 3)

/-- One BULK_DATA frame (R178). -/
def dataFrame (o : Nat) (domain : BitVec 24) (c f : Nat) (data : List Byte) : Frame :=
  { mkFrame 0x21 3 0 domain 0 0 (natBytes o 2 ++ natBytes c 3 ++ natBytes f 1 ++ natBytes 0 2 ++ padTo 40 data) with
    more := decide (f < 31) }

/-- The BULK_CLOSE frame of an object (R178). -/
def closeFrame (o : Nat) (x : BulkRx) : Frame := mkFrame 0x22 3 0 x.domain 0 0 (natBytes o 2 ++ natBytes x.chunks 3)

/-- The 32 frames of a chunk (R178). -/
def BulkRx.chunk (x : BulkRx) (o c : Nat) : List Frame :=
  (List.range 32).map fun f => dataFrame o x.domain c f (Tab.getD x.frags (32 * c + f) [])

/-- A chunk is held whole (R282). -/
def BulkRx.whole (x : BulkRx) (c : Nat) : Bool := (Tab.get x.arrived c).isSome

/-- The chunks not held whole. -/
def BulkRx.lacks (x : BulkRx) : List Nat := (List.range x.chunks).filter fun c => !x.whole c

/-- The bytes of an object (R178). -/
def BulkRx.bytes (x : BulkRx) : List Byte :=
  ((List.range (32 * x.chunks)).flatMap fun k => padTo 40 (Tab.getD x.frags k [])).take x.length

/-- An object with nothing received yet (R178). -/
def BulkRx.fresh (kind scope dest : Nat) (domain : BitVec 24) (length aon : Nat) : BulkRx :=
  { kind, scope, dest, domain, length, chunks := (length + 1279) / 1280, frags := [], lastAt := aon, arrived := [],
    closed := false, loaded := false, missing := none }

/-- An object whole at its originator. -/
def BulkRx.ofBytes (kind scope dest : Nat) (domain : BitVec 24) (b : List Byte) (aon : Nat) : BulkRx :=
  let x := BulkRx.fresh kind scope dest domain b.length aon
  { x with frags := (List.range (32 * x.chunks)).map fun k => (k, (b.drop (40 * k)).take 40),
           arrived := (List.range x.chunks).map fun c => (c, aon) }

/-- The object of an originator. -/
def Origin.object' (x : Origin) : BulkRx := BulkRx.ofBytes x.kind x.scope x.dest x.domain x.data x.since

/-- The downstream ports in scope of an object or a roll call that are UP (R178, R283). -/
def State.scopePorts (s : State) (scope dest : Nat) (domain : BitVec 24) : List Nat :=
  (List.range s.gd.fan).filter fun i => s.trained ⟨.gd, i⟩ &&
    match scope with
    | 0 => true
    | 1 => ((s.dom? domain).map fun d => (s.gd.members d.dr).contains i).getD false
    | _ => decide (s.gd.childOfDie dest = some i)

/-- A distributor originates a bulk object to the nodes below it, or to one child (R178, R439). -/
def State.originate (s : State) (kind scope dest : Nat) (domain : BitVec 24) (b : List Byte) (port : Option Nat) : State :=
  let o := (s.gd.objNo + 1) % 65536
  let aon := s.aon .gd
  let x := BulkRx.ofBytes kind scope dest domain b aon
  let r : Origin := ⟨o, kind, scope, dest, domain, b, port, 0, aon, 0, [], false⟩
  let s := s.updGd fun g => { g with objNo := o, origins := g.origins ++ [r] }
  let fs := openFrame o x :: (List.range x.chunks).flatMap (x.chunk o) ++ [closeFrame o x]
  let ports := match port with
    | some p => [p]
    | none => s.scopePorts scope dest domain
  ports.foldl (fun (s : State) p => s.sendAll ⟨.gd, p⟩ 3 fs) s

/-- The newest tree image a distributor holds: the pending one, else the current one. -/
def Gd.newest (g : Gd) : Option TreeImage := g.treePend.or g.tree

/-- Pass the newest tree image to child `i` on its port: the die's leaf extract at a sled, the image itself above (R29,
R318, R321, R414). -/
def State.imageDown (s : State) (i : Nat) : State :=
  match s.gd.newest with
  | none => s
  | some t =>
    let s := s.updGd fun g => { g with leafSent := g.leafSent ++ if g.leafSent.contains i then [] else [i] }
    if s.gd.role = some 0 then
      let die := (s.gd.childSpan i).1
      s.originate 2 2 die 0 (t.extract die) (some i)
    else s.originate 2 0 0 0 s.gd.image (some i)

/-- A child's port comes UP for the first time since the newest image was accepted (R414). -/
def State.imageDownOnce (s : State) (i : Nat) : State :=
  if i < s.gd.fan ∧ !s.gd.leafSent.contains i then s.imageDown i else s

/-- A distributor's loader refuses an object (R289). -/
def State.gdRefuse (s : State) (r : Refused) : State :=
  let w := r.1 * 16777216 + r.2 % 16777216
  (s.updGd fun g => { g with refusal := w }).logG .imageRefused 0 w

/-! ## Roll call -/

/-- The bitmap of a window: bit b of byte j stands for chunk WINDOW + 8j + b (R281). -/
def chunkBitmap (chunks window : Nat) (missing : Nat → Bool) : List Byte :=
  (List.range 512).map fun j => BitVec.ofNat 8 ((List.range 8).map fun b =>
    if window + 8 * j + b < chunks ∧ missing (window + 8 * j + b) then 2 ^ b else 0).sum

/-- The chunks that a bitmap sets. -/
def bitmapChunks (window : Nat) (b : List Byte) : List Nat :=
  ((List.range 4096).filter fun k => (byteAt b (k / 8)).getLsbD (k % 8)).map (window + ·)

/-- The bitmap of a node for an object: every chunk of one it never saw the BULK_OPEN of (R282). -/
def holderBitmap (x : Option BulkRx) (chunks window : Nat) : List Byte :=
  chunkBitmap chunks window fun c => (x.map fun x => !x.whole c).getD true

/-- The frames of a ROLLCALL_ANS: one when EMPTY, else 11 (R281). -/
def ansMessage (now : Word) (domain : BitVec 24) (object round window responders missing : Nat) (incomplete : Bool)
    (bitmap : List Byte) : List Frame :=
  let empty := bitmap.all (· = 0)
  let first := { mkFrame 0x13 2 0 domain 0 now (natBytes object 2 ++ natBytes round 1 ++ natBytes 0 1 ++ natBytes window 3
    ++ natBytes (responders % 1048576) 3 ++ natBytes (min 255 missing) 1 ++ natBytes 0 5 ++ bitmap.take 32) with
    f49 := empty, f48 := incomplete }
  dataFrames first (bitmap.drop 32) (if empty then 0 else 10)

/-- The ROLLCALL_ASK frame of a window (R281). -/
def askRoll (now : Word) (domain : BitVec 24) (object round scope dest window chunks origin : Nat) : Frame :=
  mkFrame 0x12 2 0 domain 0 now (natBytes object 2 ++ natBytes round 1 ++ natBytes scope 1 ++ natBytes dest 3
    ++ natBytes window 3 ++ natBytes chunks 3 ++ natBytes origin 3)

end Sys2Proof.Machine
end

