-- ==== Sys2Proof/Machine/CensusOps.lean ====
section
/-! DEFINITION. Shared operations of a census at a distributor and of a port that returns to UP (R383, R389 to R395,
R398). -/

namespace Sys2Proof.Machine

open Sys2Proof

/-- The marker of an ASK that is held until the distributor's own census ends. -/
def askWaits : Nat := 1000

/-- A JOIN frame (R383). -/
def joinFrame (op reason die : Nat) (tag : BitVec 24) (now joinAt : Word) : Frame :=
  mkFrame 0x18 2 0 tag 0 now (natBytes op 1 ++ natBytes reason 1 ++ natBytes die 3 ++ natBytes 0 3 ++ natBytes joinAt.toNat 4)

/-- A CENSUS_ASK frame (R383). -/
def askFrame (id phase index gen : Nat) (tag : BitVec 24) (now : Word) : Frame :=
  mkFrame 0x16 2 0 tag 0 now (natBytes id 2 ++ natBytes phase 1 ++ natBytes index 2 ++ natBytes gen 1)

/-- Groups of at most ten. -/
def tens (l : List Nat) : List (List Nat) :=
  if l = [] then [[]] else (List.range ((l.length + 9) / 10)).map fun k => (l.drop (10 * k)).take 10

/-- One CENSUS_ANS frame (R383). -/
def ansFrame (id : Nat) (image now : Word) (tag : BitVec 24) (step : BitVec 16) (recs : List Nat) (last : Bool) : Frame :=
  mkFrame 0x17 2 0 tag step now (natBytes id 2 ++ natBytes recs.length 1 ++ natBytes (b2n last) 1
    ++ natBytes image.toNat 4 ++ recs.flatMap fun r => natBytes r 4)

/-- The CENSUS_ANS frames of a LIST answer: records grouped by domain, a domain without records in one frame, LAST in
the final frame (R390). -/
def ansFrames (id : Nat) (image now : Word) (groups : List (BitVec 24 × BitVec 16 × List Nat)) : List Frame :=
  let all := groups.flatMap fun g => (tens g.2.2).map fun rs => (g.1, g.2.1, rs)
  let all := if all = [] then [(0, 0, [])] else all
  all.zipIdx.map fun x => ansFrame id image now x.1.1 x.1.2.1 x.1.2.2 (decide (x.2 + 1 = all.length))

/-- A census record (R383). -/
def censusWord (index : Nat) (gen : BitVec 2) (done result shadow expelled : Bool) : Nat :=
  index * 1048576 + gen.toNat * 262144 + b2n done * 131072 + b2n result * 65536 + b2n shadow * 32768 + b2n expelled * 16384

/-- The ports over which this distributor reaches its member children: the same-side port, or the cross port where that
one is not UP (R389). -/
def State.memberPorts (s : State) : List Nat :=
  ((List.range s.gd.fan).filter fun i => s.gd.doms.any fun p => (s.gd.members p.2.dr).contains i).filterMap fun i =>
    if s.trained ⟨.gd, i⟩ then some i
    else match s.gd.crossPort i with
      | some x => if s.trained ⟨.gd, x⟩ then some x else none
      | none => none

/-- Update the census that runs. -/
def State.updCensus (s : State) (f : Census → Census) : State :=
  s.updGd fun g => { g with census := g.census.map f }

/-- The domains of a census. -/
def Census.covers (c : Census) (tag : BitVec 24) : Bool := (c.doms.map fun l => l.contains tag).getD true

/-! ## Answers from soft entries -/

/-- The LIST answer of a distributor (R390). -/
def State.gdListGroups (s : State) (tag : BitVec 24) : List (BitVec 24 × BitVec 16 × List Nat) :=
  (s.gd.doms.filter fun p => tag = 0 || p.2.dr.tag = tag).map fun p =>
    (p.2.dr.tag, 0, (s.gd.softs.filter fun e => e.1 / 4096 = p.1).map fun e =>
      censusWord (e.1 % 4096) (e.2.lastGen + 1) e.2.done false false false)

/-- A distributor answers an ASK LIST or RESEND on the upstream port it came on (R390, R393). -/
def State.gdAnswer (s : State) (f : Frame) (port : Nat) : State :=
  let l : LinkId := ⟨.gd, port⟩
  let id := f.nat 12 2
  let image := s.gd.com.treeId
  let now := (s.now .gd).ns32
  if f.byte 14 = 0 then
    (ansFrames id image now (s.gdListGroups f.domain)).foldl (fun s x => s.send l 2 0 [x]) s
  else
    let s := s.gd.softs.foldl (fun s p => match Tab.get s.gd.doms (p.1 / 4096) with
      | some d =>
        if p.2.done ∧ (f.domain = 0 ∨ d.dr.tag = f.domain) then s.send l 2 p.1 (s.combinedArrive d (p.1 % 4096) p.2) else s
      | none => s) s
    s.send l 2 0 [ansFrame id image now f.domain 0 [] true]

/-! ## The course of a census -/

/-- A census starts: the domains are marked, ONE_CENSUS_START is recorded, and ASK LIST goes out with a new CENSUS_ID;
a census that runs already is taken up into it (R389, R390). -/
def State.censusStart (s : State) (ports : List Nat) (doms : Option (List (BitVec 24))) (mirror full : Bool) : State :=
  let id := (s.gd.censusId + 1) % 65536
  let aon := s.aon .gd
  let old := s.gd.census
  let oldPorts := (old.map (·.ports)).getD []
  let ports := ports ++ oldPorts.filter fun p => !ports.contains p
  let doms := match old with
    | none => doms
    | some o => match o.doms, doms with
      | some a, some b => some (a ++ b.filter fun t => !a.contains t)
      | _, _ => none
  let c : Census := { id, start := aon, askAt := aon, ports, listed := [], resent := [], resending := false, recs := [],
                      fetches := [], slowNoted := false, mirror, full := full || (old.map (·.full)).getD false,
                      built := false, doms }
  let s := s.updGd fun g => { g with
    census := some c, censusId := id,
    doms := Tab.map g.doms fun _ d => if c.covers d.dr.tag then { d with inCensus := true } else d }
  let n := (s.gd.doms.filter fun p => p.2.inCensus).length
  let s := s.logG .censusStart 0 n
  let s := s.updGd fun g => g.journalWrite 4 (ErrCode.value .censusStart) (g.locator.getD 0)
    (Config.noFrameBody g.journal.recno)
  let tag : BitVec 24 := match doms with
    | some [t] => t
    | _ => 0
  ports.foldl (fun s p => s.send ⟨.gd, p⟩ 2 0 [askFrame id 0 0 0 tag (s.now .gd).ns32]) s

/-- The most frequent of the reported generations; of equally frequent ones the first reported. -/
def mostFrequent (gs : List (BitVec 2)) : BitVec 2 :=
  let n : BitVec 2 → Nat := fun g => (gs.filter (· = g)).length
  gs.foldl (fun m g => if n m < n g then g else m) (gs.headD 0)

/-- One entry is rebuilt from the children's reports; entries of children that were not asked count with what is held
(R391). The fetch it needs, if any, is added. -/
def State.rebuildOne (s : State) (c : Census) (d : GdDom) (index : Nat) (recs : List CensusRec) : State :=
  let tag := d.dr.tag
  let live := recs.filter fun r => !r.shadow && !r.expelled
  let used := if live = [] then recs else live
  let old := if c.full then none else s.soft? tag index
  let others : List CensusRec := match old with
    | some e => ((s.expected d.dr e).filter fun i => !recs.any fun r => r.child = i).map fun i =>
        ⟨i, e.lastGen + 1, e.marks.contains i, false, false⟩
    | none => []
  let all := used ++ others
  let gs := all.map (·.gen)
  let g0 := gs.headD 0
  let out := (recs.filter fun r => r.shadow || r.expelled).map (·.child)
  let put : State → BitVec 2 → State := fun s last =>
    let keep := old.filter fun e => e.lastGen = last
    let e := keep.getD { Soft.blank last (s.now .gd).ns32 with out := s.newOut d }
    let e := { e with out := e.out ++ out.filter fun i => !e.out.contains i }
    s.updGd fun g => { g with softs := Tab.put g.softs (softKey tag index) e }
  if gs.all (· = g0) then put s (g0 - 1)
  else
    let low := if gs.all fun g => g = g0 || g = g0 + 1 then some g0
      else if gs.all fun g => g = g0 || g + 1 = g0 then some (g0 - 1) else none
    match low with
    | some g =>
      let s := put s g
      let ahead := (all.filter fun r => r.gen = g + 1).map (·.child)
      let behind := (all.filter fun r => r.gen = g).map (·.child)
      let port : Nat → Nat := fun i => if s.trained ⟨.gd, i⟩ then i else (s.gd.crossPort i).getD i
      let cand := ((List.range s.gd.fan).filter ahead.contains).map port
      match cand with
      | p :: rest =>
        let x : Fetch := { tag, index, gen := g, port := p, next := rest, deliver := behind, since := s.aon .gd }
        (s.updCensus fun c => { c with fetches := c.fetches ++ [x] }).send ⟨.gd, p⟩ 2 0
          [askFrame c.id 1 index g.toNat tag (s.now .gd).ns32]
      | [] => s
    | none => (put s (mostFrequent gs - 1)).logG .genSkip

/-- The entries are rebuilt from the LIST records; a tumbler that no child reports has none (R391). -/
def State.censusRebuild (s : State) (c : Census) : State :=
  let s := if c.full then s.updGd fun g =>
      { g with softs := g.softs.filter fun p => !((Tab.get g.doms (p.1 / 4096)).map fun d => c.covers d.dr.tag).getD false }
    else s
  let s := s.updCensus fun c => { c with built := true }
  c.recs.foldl (fun s p => match Tab.get s.gd.doms (p.1 / 4096) with
    | some d => if p.1 % 4096 < d.dr.tumblers then s.rebuildOne c d (p.1 % 4096) p.2 else s
    | none => s) s

/-- The die that a distributor names in frames it sends up for its position. -/
def Gd.firstDie (g : Gd) : Nat := ((g.posLoc.map fun l => (locDies l).1)).getD 0

/-- A returning distributor asks its parent to join (R398). -/
def State.gdJoinReqs (s : State) : State :=
  let tags := s.gd.rejoin
  let s := s.updGd fun g => { g with rejoin := [] }
  tags.foldl (fun s t => match s.dom? t with
    | some d => s.gdUp d.dr 2 0 [joinFrame 1 0 s.gd.firstDie t (s.now .gd).ns32 0] false 99
    | none => s) s

/-- The census is complete: the domains leave it, held ASKs are answered, and complete entries go on (R390, R393,
R398). -/
def State.censusEnd (s : State) (c : Census) : State :=
  let us := (roundAway (s.aon .gd - c.start : Nat) 1000).toNat
  let tags := (s.gd.doms.filter fun p => p.2.inCensus).map (·.2.dr.tag)
  let held := s.gd.askHeld.filter fun a => a.port = askWaits
  let s := s.updGd fun g => { g with
    census := none, censusLast := (c.id, min us 0xFFFF), domRst := g.domRst.filter fun t => !c.covers t,
    mirrorCurrent := g.mirrorCurrent || c.full, askHeld := g.askHeld.filter fun a => a.port ≠ askWaits,
    doms := Tab.map g.doms fun _ d => { d with inCensus := false } }
  let s := held.foldl (fun s a => s.gdAnswer a.frame a.from_) s
  let s := s.gdJoinReqs
  let keys := s.gd.softs.keys.filter fun k => tags.any fun t => t.toNat = k / 4096
  keys.foldl (fun s k => s.softCheck (BitVec.ofNat 24 (k / 4096)) (k % 4096)) s

/-- After every asked port's LAST the entries are rebuilt; after every fetch ASK RESEND goes out; after every port's end
of RESEND the census is complete (R390 to R393). -/
def State.censusAdvance (s : State) : State :=
  let s := match s.gd.census with
    | some c => if !c.built ∧ c.ports.all c.listed.contains then s.censusRebuild c else s
    | none => s
  let s := match s.gd.census with
    | some c =>
      if c.built ∧ !c.resending ∧ c.fetches = [] then
        let aon := s.aon .gd
        let tag : BitVec 24 := match c.doms with
          | some [t] => t
          | _ => 0
        let s := s.updCensus fun c => { c with resending := true, askAt := aon }
        let s := s.updGd fun g => { g with domRst := g.domRst.filter fun t => !c.covers t }
        c.ports.foldl (fun (s : State) p => s.send ⟨.gd, p⟩ 2 0 [askFrame c.id 2 0 0 tag (s.now .gd).ns32]) s
      else s
    | none => s
  match s.gd.census with
  | some c => if c.resending ∧ c.ports.all c.resent.contains then s.censusEnd c else s
  | none => s

/-- A census of every member port that is UP (R389). -/
def State.fullCensus (s : State) (doms : Option (List (BitVec 24))) (mirror : Bool) : State :=
  (s.censusStart s.memberPorts doms mirror true).censusAdvance

/-- A downstream port returns to UP: an absent child is told ABSENT and returns, with a port census for the domains that
do not allow absence; any other member port has a port census (R389, R395). The time since which a moved child's
declared side is UP is kept (R384). -/
def State.downPortUp (s : State) (p : Nat) : State :=
  let i := s.gd.childOfPort p
  let aon := s.aon .gd
  let side := if p < s.gd.fan then s.gd.sideB else !s.gd.sideB
  let s := match Tab.get s.gd.childMoved i with
    | some b => if side ≠ b then s.updGd fun g => { g with backSince := Tab.put g.backSince i aon } else s
    | none => s
  if s.gd.absent.contains i then
    let die := if s.gd.role = some 0 then (s.gd.childSpan i).1 else 0
    let s := s.updGd fun g => { g with absent := g.absent.filter (· ≠ i), returning := g.returning ++ [i] }
    let s := s.send ⟨.gd, p⟩ 2 0 [joinFrame 3 0 die 0 (s.now .gd).ns32 0]
    let strict := (s.gd.doms.filter fun x => !x.2.dr.allowAbsent && (s.gd.members x.2.dr).contains i).map (·.2.dr.tag)
    if strict = [] then s else s.censusStart [p] (some strict) false false
  else if s.memberPorts.contains p then s.censusStart [p] none false false
  else s

/-- A port of a distributor with a role returns to UP (R387, R389, R395): its partner link starts a mirror census where
this side mirrors some domain. -/
def State.gdPortUp (s : State) (p : Nat) : State :=
  let s := s.unholdAll
  if !s.gd.hasRole then s
  else if p = s.gd.partnerPort then
    let s := s.updGd fun g => { g with mirrorCurrent := false }
    if s.gd.doms.any fun x => !s.acts x.2.dr then s.fullCensus none true else s
  else if p < 64 then (s.imageDownOnce p).downPortUp p
  else s

end Sys2Proof.Machine
end

