-- ==== Sys2Proof/Machine/HealthOps.lean ====
section
/-! DEFINITION. Shared operations of health scores, expulsion, absent children and their return (R156, R395, R398, R400 to
R402, R425). -/

namespace Sys2Proof.Machine

open Sys2Proof

/-! ## Frames without a domain -/

/-- A stand-in record by which frames with DOMAIN 0 of health and expulsion find their way: every die below this position,
declared on side A, with its top node at the pod (R385, R401). -/
def Gd.expelRec (g : Gd) : DomRec :=
  { tag := 0, bitmap := false, sideB := false, allowAbsent := false, fullRate := false, topIsDie := false, stepEn := false,
    top := 2 * 262144, tumblers := 0, scans := 0, stepTumb := 0, members := 0, dBound := 0,
    body := natBytes (g.posLoc.getD 0) 4 }

/-- An EXPEL frame (R383). -/
def expelFrame (op die threshold : Nat) (now at_ : Word) : Frame :=
  mkFrame 0x15 2 0 0 0 now (natBytes op 1 ++ natBytes 0 1 ++ natBytes die 3 ++ natBytes threshold 2 ++ natBytes 0 1
    ++ natBytes at_.toNat 4)

/-- Send a frame with DOMAIN 0 to a child (R388, R401). -/
def State.toChild (s : State) (i : Nat) (f : Frame) : State := s.gdDown s.gd.expelRec 2 [i] (fun _ => [f]) [f]

/-- Bytes 8 to 39 of the frame that a journal record other than an error or a turn keeps (R407). -/
def journalBody (f : Frame) : List Byte := (f.bytes.drop 8).take 32

/-! ## Absent children -/

/-- A child is treated as outside a domain's member ports: with ALLOW_ABSENT every open generation proceeds without it,
else the top node records ONE_MEMBER_ABSENT (R156, R395, R425). -/
def State.absentFrom (s : State) (tag : BitVec 24) (i : Nat) : State :=
  match s.dom? tag with
  | none => s
  | some d =>
    if !(s.gd.members d.dr).contains i then s
    else if d.dr.allowAbsent then
      let add : List Nat → List Nat := fun l => if l.contains i then l else l ++ [i]
      let s := s.updDom tag fun x => { x with out := add x.out, joining := Tab.del x.joining i }
      let keys := (s.gd.softs.filter fun p => p.1 / 4096 = tag.toNat).map (·.1)
      let s := s.updGd fun g => { g with softs := Tab.map g.softs fun k e =>
        if k / 4096 = tag.toNat then { e with out := add e.out } else e }
      keys.foldl (fun (s : State) k => s.softCheck tag (k % 4096)) s
    else if s.gd.isTop d.dr ∧ s.acts d.dr then s.logG .memberAbsent i
    else s

/-- A child is treated as absent from every domain (R156, R395). -/
def State.absentAll (s : State) (i : Nat) : State :=
  s.gd.doms.foldl (fun (s : State) p => s.absentFrom p.2.dr.tag i) s

/-- Mark a child absent (R156, R395). -/
def State.markAbsent (s : State) (i : Nat) : State :=
  if s.gd.absent.contains i then s
  else
    let s := s.updGd fun g => { g with absent := g.absent ++ [i], returning := g.returning.filter (· ≠ i) }
    (s.updLink ⟨.gd, i⟩ fun k => { k with absent := true }).absentAll i

/-! ## Health scores -/

/-- The health of a die at its sled (R400). -/
def State.healthOf (s : State) (i : Nat) : Health := Tab.getD s.gd.health i Health.reset

/-- Update the health of a die. -/
def State.updHealth (s : State) (i : Nat) (f : Health → Health) : State :=
  s.updGd fun g => { g with health := Tab.put g.health i (f (Tab.getD g.health i Health.reset)) }

/-- The image's HEALTH record (R317). -/
def Gd.healthRec (g : Gd) : List Byte := (g.tree.map (·.health)).getD []

/-- This sled distributor speaks for a die: the acting side of its first member domain, or side A where it has none
(R400). -/
def State.speaksFor (s : State) (i : Nat) : Bool :=
  match s.gd.doms.find? fun p => (s.gd.members p.2.dr).contains i with
  | some p => s.acts p.2.dr
  | none => !s.gd.sideB

/-- The identifier of the die on a sled's port. -/
def Gd.dieAt (g : Gd) (i : Nat) : Nat := (g.childSpan i).1

/-- A request to expel goes to the pod when a die's score reaches θ and none is outstanding (R401, R409). -/
def State.expelAsk (s : State) (i : Nat) (again : Bool) : State :=
  let h := s.healthOf i
  if s.gd.role ≠ some 0 ∨ !s.gd.hasRole ∨ !s.speaksFor i ∨ h.score < s.gd.theta ∨ h.asked ∨ h.expelled ∨ (h.suspect && !again) then s
  else
    let s := s.updHealth i fun h => { h with asked := true }
    s.gdUp s.gd.expelRec 2 0 [expelFrame 1 (s.gd.dieAt i) s.gd.theta (s.now .gd).ns32 0] false 99

/-- A health event of a die: weight × COUNT is added, journaled, and judged against θ (R400, R401, R407). -/
def State.healthEvent (s : State) (i ev count : Nat) (f : Frame) : State :=
  let w := beNat s.gd.healthRec (8 + ev) 1
  let aon := s.aon .gd
  let s := s.updHealth i fun h => { h with
    score := min 65535 (h.score + w * count), addAt := aon, added := (if h.addAt = aon then h.added else 0) + w * count }
  let s := s.updGd fun g => g.journalWrite 3 (f.nat 14 2) (g.dieAt i) (journalBody f)
  s.expelAsk i false

/-- An event that a sled sees on its own port is scored, and mirrored to the partner as HEALTH (R400). -/
def State.healthSeen (s : State) (p ev : Nat) (code : ErrCode) : State :=
  if s.gd.role ≠ some 0 ∨ !s.gd.hasRole ∨ 8 ≤ p then s
  else
    let f := mkFrame 0x14 2 0 0 0 (s.now .gd).ns32
      (natBytes ev 1 ++ natBytes 1 1 ++ natBytes code.value 2 ++ natBytes (s.gd.dieAt p) 3)
    (s.mirror 2 [f]).healthEvent p ev 1 f

/-! ## Readmission -/

/-- A readmitted die's port at a domain it was expelled from. -/
def GdDom.readmit (d : GdDom) (i : Nat) : GdDom :=
  if !d.expelled.contains i then d
  else
    { d with expelled := d.expelled.filter (· ≠ i), leaving := Tab.del d.leaving i,
             out := d.out ++ (if d.out.contains i then [] else [i]) }

/-- A readmitted die: its port stays outside the expected set until it joins (R402). -/
def State.readmitted (s : State) (i : Nat) : State :=
  let s := s.updHealth i fun h => { h with expelled := false, expelDue := none, suspect := false }
  s.updGd fun g => { g with doms := Tab.map g.doms fun _ d => d.readmit i }

/-- An expelled die whose score has decayed below θ / 2, or which the operator clears, is readmitted (R402). -/
def State.readmit (s : State) (i : Nat) : State :=
  let f := expelFrame 6 (s.gd.dieAt i) 0 (s.now .gd).ns32 0
  (s.readmitted i).mirror 2 [f] |>.toChild i f

/-- Every expelled die below θ / 2 is readmitted (R402). -/
def State.readmitDue (s : State) : State :=
  (s.gd.health.filter fun p => p.2.expelled && 2 * p.2.score < s.gd.theta && s.speaksFor p.1).foldl
    (fun (s : State) p => s.readmit p.1) s

end Sys2Proof.Machine
end

