-- ==== Sys2Proof/Machine/LinkOps.lean ====
section
/-! DEFINITION. The shared operations of a sync link: training, reception checks, output queues and ready marks,
link loss with its detours (R147 to R183). -/

namespace Sys2Proof.Machine

open Sys2Proof

/-- The class of a TYPE, for the assigned types (R161 and the chapters it names). -/
def typeClass (t : Nat) : Option Nat :=
  if t ≤ 0x02 then some 0
  else if t = 0x04 then some 1
  else if 0x08 ≤ t ∧ t ≤ 0x0F then some 1
  else if 0x10 ≤ t ∧ t ≤ 0x1F then some 2
  else if 0x20 ≤ t ∧ t ≤ 0x22 then some 3
  else none

/-- Count a slot of the peer (R168). -/
def Link.slotIn (k : Link) : Link := { k with rxSlot := (k.rxSlot + 1) % 4096 }

/-- A slot leaves: its number, the slots since the last time frame, and those that R171 and R172 count (R67, R168). -/
def Link.slotOut (k : Link) : Link :=
  { k with txSlot := (k.txSlot + 1) % 4096, sinceTime := k.sinceTime + 1, oweSlots := k.oweSlots + 1,
           nakSlots := k.nakSlots + 1 }

/-- A time frame takes every 50th slot at full rate and every 20th at fallback (R67). -/
def Link.timeDue (k : Link) : Bool :=
  (k.state = .up || k.state = .ident) && (if k.fallback then 19 else 49) ≤ k.sinceTime

/-- BULK_SHARE of a link in 1/64 tokens per slot; values above 32 act as 32 (R175). -/
def State.bulkShare (s : State) (l : LinkId) : Nat :=
  min 32 (match l.node with
    | .tsu => bitsOf (s.reg .tsu 0x300) 13 8
    | .gd => bitsOf (s.reg .gd (0x10000 + 0x100 * l.port)) 10 5)

/-- Every slot adds BULK_SHARE to the bulk tokens, of which at most 4 are held (R175). -/
def State.addTokens (s : State) (l : LinkId) : State :=
  let share := s.bulkShare l
  s.updLink l fun k => { k with tokens := min 256 (k.tokens + share) }

/-- Count a corrected frame, and keep those of the last second (R165). -/
def Link.corrected (k : Link) (aon : Nat) : Link :=
  { k with corrFrames := min (k.corrFrames + 1) 0xFFFF,
           corrTimes := (k.corrTimes.filter fun t => aon < t + 1000000000) ++ [aon] }

/-- Owe the peer one credit of a class (R172, R174). -/
def Link.owe (k : Link) (cls : Nat) : Link :=
  let k := if k.owe1 + k.owe2 + k.owe3 = 0 then { k with oweSlots := 0 } else k
  let k := match cls with
    | 1 => { k with owe1 := k.owe1 + 1 }
    | 2 => { k with owe2 := k.owe2 + 1 }
    | 3 => { k with owe3 := k.owe3 + 1 }
    | _ => k
  if 8 ≤ k.owe1 ∨ 8 ≤ k.owe2 ∨ 8 ≤ k.owe3 then { k with oweCtl := true } else k

/-- The frames of classes 1 and 2 of a lost link, in the order first sent: what its replay buffer holds, what still waits to
be sent again, then its queues (R159). -/
def Link.unsent (k : Link) (cls : Nat) : List Frame :=
  (((k.replay.filter fun e => !k.resend.contains e) ++ k.resend).map (·.frame)).filter (fun f => f.cls.toNat = cls) ++ k.queue cls

/-- A message of a domain that travels down: a launch, TURN, ROLLCALL_ASK or CENSUS_ASK frame, an ABORT or ORDER without UP, a
JOIN or DOMAIN_CTL of a parent (R206, R225, R244, R281, R370, R392, R395, R405). -/
def downward (f : Frame) : Bool :=
  match f.type.toNat with
  | 0x08 => true
  | 0x11 => true
  | 0x12 => true
  | 0x16 => true
  | 0x09 => !f.f49
  | 0x0C => !f.f49
  | 0x18 => f.byte 12 ≠ 1
  | 0x19 => f.byte 12 % 2 = 1
  | _ => false

/-- The ports that may carry a frame of a lost link of a distributor, in the order of R158. A mirror copy on the partner link
has no other way (R387). -/
def State.reissueWays (s : State) (p : Nat) (f : Frame) : List Nat :=
  let q := s.gd.partnerPort
  let ups := 64 :: (if s.u1 then [65] else [])
  let kids : List Nat := match s.dom? f.domain with
    | some d => s.gd.members d.dr
    | none => []
  let all :=
    if p < 64 then
      let i := s.gd.childOfPort p
      [i, q] ++ (s.gd.crossPort i).toList
    else if p < 66 then
      if ((s.dom? f.domain).map fun d => s.acts d.dr).getD true then ups ++ [q] else q :: ups
    else if p ≠ q ∨ !f.detour then []
    else if downward f then kids.flatMap fun i => (s.gd.crossPort i).toList
    else ups
  all.filter fun w => w ≠ p && s.linkCarries f.domain w

/-- Re-issue one frame of a lost link, marked DETOUR, on the first way of R158; with none it waits as a ready mark of the link
it came from. A mirror copy ceases (R159, R174, R387). -/
def State.reissueOne (s : State) (l : LinkId) (cls : Nat) (f : Frame) : State :=
  let f' := { f with detour := true }
  match l.node with
  | .tsu => s.sendAll ⟨.tsu, 1 - l.port⟩ cls [f']
  | .gd =>
    if 66 ≤ l.port ∧ (l.port ≠ s.gd.partnerPort ∨ !f.detour) then s
    else match s.reissueWays l.port f with
      | w :: _ => s.sendAll ⟨.gd, w⟩ cls [f']
      | [] => s.updCom .gd fun c => { c with marks := c.marks ++ [⟨l.port, cls, [f'], 0⟩] }

/-- Re-issue the class-1 and class-2 frames of a lost link by detour, in order, and after them the messages that wait for it as
ready marks; its class-3 frames are dropped (R158, R159). -/
def State.reissue (s : State) (l : LinkId) : State :=
  let k := s.link l
  let marks := (s.com l.node).marks.filter fun m => m.port = l.port
  let f1 := k.unsent 1 ++ (marks.filter fun m => m.cls = 1).flatMap (·.frames)
  let f2 := k.unsent 2 ++ (marks.filter fun m => m.cls = 2).flatMap (·.frames)
  let s := s.updLink l fun k => { k with replay := [], resend := [], q1 := [], q2 := [], q3 := [], head2 := none }
  let s := s.updCom l.node fun c => { c with marks := c.marks.filter fun m => m.port ≠ l.port }
  let s := f1.foldl (fun (s : State) f => s.reissueOne l 1 f) s
  f2.foldl (fun (s : State) f => s.reissueOne l 2 f) s

/-- The time a link has been out of UP counts, from its enable or from its leaving UP (R155, R156). -/
def State.linkTimed (s : State) (l : LinkId) : Bool := (s.link l).enabled || (s.link l).everUp

/-- The frames held of the unfinished message of a class (R207). -/
def Link.chainOf (k : Link) (cls : Nat) : List Frame := if cls = 1 then k.chain1 else k.chain2

/-- Replace the frames held of the unfinished message of a class. -/
def Link.setChain (k : Link) (cls : Nat) (c : List Frame) : Link := if cls = 1 then { k with chain1 := c } else { k with chain2 := c }

/-- An unfinished message is discarded: what a distributor has combined of an ARRIVE under way goes with it (R207, R262). -/
def State.chainLost (s : State) (l : LinkId) (h : Frame) : State :=
  if l.node = .gd ∧ h.type = 0x10 then
    match if l.port < 64 then some (s.gd.childOfPort l.port) else s.gd.childOfDie h.fDie with
    | some i => s.updSoft h.domain h.fIndex fun e => e.undo i
    | none => s
  else s

/-- A link leaves UP: DOWN with LINK_DOWN and its cause, 16 TRAIN frames unless its transmitter is turned off, its
frames re-issued, its time invalid, and a new training cycle at full rate (R150, R154, R159, R88). -/
def State.linkDown (s : State) (l : LinkId) (cause : Nat) (off : Bool := false) : State :=
  if (s.link l).state = .up then
    let aon := s.aon l.node
    let s := match (s.link l).chain2 with
      | h :: _ => s.chainLost l h
      | [] => s
    let s := s.updLink l fun k =>
      { k with state := .down, lastCause := cause, retrains := min (k.retrains + 1) 0xFF, downAt := aon,
               attempt := 0, attemptAt := aon, tried := false, goodTrain := 0, rxOk := false, archStuck := false,
               trainLeft := if off then 0 else 16, chain1 := [], chain2 := [], nakSlot := none, nakCount := 0,
               oweNak := none, oweReplay := none, oweCtl := false, uncorrAt := [], uncorrRun := 0,
               owe1 := 0, owe2 := 0, owe3 := 0, cr1 := 0, cr2 := 0, cr3 := 0 }
    let s := s.setEvt l.node (lstatOff l) 0x100
    let s := s.log l.node .linkDown l.source
    let s := s.reissue l
    let s := s.srcInvalid l
    match l.node with
    | .tsu => s
    | .gd => s.healthSeen l.port 7 .linkDown
  else s

/-- A training attempt ends: back to DOWN until the next one is due (R149). -/
def State.attemptOver (s : State) (l : LinkId) : State :=
  s.updLink l fun k => { k with state := .down, goodTrain := 0, rxOk := false, archStuck := false }

/-- The highest version both ends advertise, if neither range excludes it (R153); A1 parts advertise A1 only. DESIGN CHOICE (log
entry 136): a peer that advertises the reserved code 0b11 as its highest has no common version with this part. -/
def commonArch (peerMin peerMax : Nat) : Option Nat :=
  let v := min 0 peerMax
  if peerMin ≤ v ∧ peerMax ≠ 3 then some v else none

/-- This end chooses the rate: a distributor's downstream ports, and L1 (R150). -/
def upstreamEnd (l : LinkId) : Bool := decide (l.node = .gd ∧ (l.port < 64 ∨ l.port = 67))

/-- An end enters UP: totals of credits start at 0, 16 TRAIN frames follow, the delay measurement starts, and the
upstream end records a fallback rate (R150, R152, R172, R77). -/
def State.enterUp (s : State) (l : LinkId) : State :=
  let s := s.updLink l fun k =>
    { k with state := .up, everUp := true, trainLeft := 16, ret1 := 0, ret2 := 0, ret3 := 0, acc1 := 0, acc2 := 0,
             acc3 := 0, owe1 := 0, owe2 := 0, owe3 := 0, oweSlots := 0, sinceLinkctl := 0, chain1 := [],
             chain2 := [], uncorrAt := [], uncorrRun := 0, nakSlot := none, replay := [], resend := [],
             oweNak := none, oweReplay := none, oweCtl := false, attempt := 0, absent := false }
  let s := if upstreamEnd l ∧ (s.link l).fallback then
      (s.setEvt l.node (lstatOff l) 0x40).log l.node .rateFallback l.source
    else s
  let s := s.srcTrained l
  let s := if l.node = .gd then s.gdPortUp l.port else s
  let pair := upPorts l.node
  if l.port ∈ pair ∧ pair.all fun p => s.trained ⟨l.node, p⟩ then
    s.updCom l.node fun c => { c with redunLost := false }
  else s

/-- An end in IDENT that has seen RX_OK enters UP on a good frame of any other type (R152). -/
def State.identUp (s : State) (l : LinkId) (rx : Rx) : State :=
  if (s.link l).state = .ident ∧ (s.link l).rxOk ∧ !(s.link l).archStuck ∧ (rx.check = .good ∨ rx.check = .corrected) then
    s.enterUp l
  else s

/-- An uncorrectable slot: counted; a time slot's frame is not received; any other slot of an UP link makes the receiver
send a NAK naming it and discard until the REPLAY (R166, R170). -/
def State.uncorrectableSlot (s : State) (l : LinkId) (timeSlot : Bool) : State :=
  let aon := s.aon l.node
  s.updLink l fun k =>
    if k.state = .up ∨ k.state = .ident then
      let slot := k.rxSlot
      let k1 : Link := { k.slotIn with uncorrFrames := min (k.uncorrFrames + 1) 0xFFFF, uncorrRun := k.uncorrRun + 1,
                                       uncorrAt := (k.uncorrAt.filter fun t => aon < t + 1000000) ++ [aon],
                                       goodTrain := if k.state = LState.ident then 0 else k.goodTrain }
      if k.state = LState.up ∧ timeSlot = false then
        { k1 with nakSlot := some slot, nakCount := 1, nakSlots := 0, oweNak := some slot }
      else k1
    else k

/-- A good or corrected slot of the peer: counted, ending a run of uncorrectable ones (R154, R165, R168). -/
def State.slotTaken (s : State) (l : LinkId) (rx : Rx) : State :=
  let aon := s.aon l.node
  s.updLink l fun k =>
    let k := { k.slotIn with uncorrRun := 0 }
    if rx.check = .corrected then k.corrected aon else k

/-- A poison copy: counted and discarded, without NAK (R167). -/
def State.poisonSlot (s : State) (l : LinkId) : State :=
  s.updLink l fun k => { k.slotIn with poisoned := min (k.poisoned + 1) 0xFFFF, uncorrRun := 0,
                                       goodTrain := if k.state = LState.ident then 0 else k.goodTrain }

/-- Two frames belong to one message: TYPE, GEN, DOMAIN and STEP16 agree (R207). -/
def sameMessage (a b : Frame) : Bool :=
  a.type = b.type && a.gen = b.gen && a.domain = b.domain && a.step16 = b.step16

/-- The next frame of the class differs from the unfinished message: the message is discarded as malformed (R207). -/
def State.breakChain (s : State) (l : LinkId) (f : Frame) : State :=
  let cls := f.cls.toNat
  match (s.link l).chainOf cls with
  | [] => s
  | h :: _ =>
    if (cls ≠ 1 ∧ cls ≠ 2) ∨ sameMessage h f then s
    else ((s.updLink l fun k => k.setChain cls []).malformed l).chainLost l h

/-- A received frame of classes 1 to 3 after the checks of R162, R166, R167 and R170: none when it is discarded. An
excluded port takes LINKCTL alone (R30). DESIGN CHOICE (log entry 137): the credit of a frame discarded under R162 or on an excluded port is
returned, as its buffer is free; one discarded while a REPLAY is awaited returns none, since the replayed copy takes no further
credit. -/
def State.receive (s : State) (l : LinkId) (rx : Rx) (type : Nat) : State × Option Frame :=
  let s := s.identUp l rx
  if (s.link l).state ≠ .up then (s, none)
  else match rx.check with
    | .uncorrectable => (s.uncorrectableSlot l false, none)
    | .poison => (s.poisonSlot l, none)
    | _ =>
      let f := rx.frame
      let s := s.slotTaken l rx
      if f.type.toNat ≠ type ∨ typeClass type ≠ some f.cls.toNat ∨ f.ver.toNat ≠ (s.link l).arch then
        ((s.updLink l fun k => k.owe f.cls.toNat).malformed l, none)
      else if (s.link l).nakSlot.isSome ∧ f.cls ≠ 0 ∧ type ≠ 0x04 then (s, none)
      else if type = 0x04 then (s, some f)
      else
        let s := s.updLink l fun k => k.owe f.cls.toNat
        if (s.link l).excluded then (s, none) else (s.breakChain l f, some f)

/-- A distributor forwards cut-through: where the ingress decoder corrected a frame of which a copy begins to leave on an idle
queue, that copy ends with poison parity and the frame is sent again (R167). `s0` is the state before the frame. -/
def State.cutThrough (s s0 : State) (l : LinkId) (rx : Rx) : State :=
  if l.node = .gd ∧ rx.check = .corrected then
    s.updCom .gd fun c => { c with links := Tab.map c.links fun p k =>
      let k0 := s0.link ⟨.gd, p⟩
      if (k0.q1.isEmpty && !k.q1.isEmpty) || (k0.q2.isEmpty && !k.q2.isEmpty) then { k with poisonNext := true } else k }
  else s

/-- What a frame is of its message (R207): discarded with it, a part before its end with the frames held so far, or the last
one with the whole message. -/
inductive ChainPart where
  | gone
  | part (fs : List Frame)
  | whole (fs : List Frame)
  deriving DecidableEq, Repr

/-- A frame takes its place in a message of `count first` frames: one that breaks the count is discarded with its message as
malformed, and one that `breakChain` let pass continues the message held (R207). DESIGN CHOICE (log entry 148): a message refused at its first
frame, of count 0, is discarded up to a frame with MORE clear. -/
def State.chain (s : State) (l : LinkId) (f : Frame) (count : Frame → Nat) : State × ChainPart :=
  let cls := f.cls.toNat
  let fs := (s.link l).chainOf cls ++ [f]
  let put : List Frame → State := fun c => s.updLink l fun k => k.setChain cls c
  let h := (fs.head?).getD f
  if count h = 0 then (put (if f.more then [h] else []), .gone)
  else if f.more ≠ decide (fs.length < count h) then
    (((put []).malformed l).chainLost l h, .gone)
  else if f.more then (put fs, .part fs)
  else (put [], .whole fs)

end Sys2Proof.Machine
end

