-- ==== Sys2Proof/Machine/CtxOps.lean ====
section
/-! DEFINITION. Contexts and conjunctions: starting and continuing a context, accepted times, tumbler lookup, results
and their lanes, predicates (R50, R51, R265, R279, R280, R297 to R303, R334 to R336). -/

namespace Sys2Proof.Machine

open Sys2Proof

/-- A launch time or deadline after acceptance: more than 2^30 ns before now it is refused with ONE_FAR_TIME; an
instant before the epoch that is accepted as late is held as 0 (R50, R51). Instants are in units of 2^-16 ns. -/
def State.accept (s : State) (t : Int) (slice : Option Nat) : State × Option Time80 :=
  if t < (s.now .tsu).toNs16 - 70368744177664 then
    ((s.setEvt .tsu 0x11C 0x400).logT .farTime 0 0 slice, none)
  else (s, some (Time80.ofUnits (max 0 t * 65536)))

/-- A clause or sentence of a slice's current image. -/
def Slice.sentence (v : Slice) (i : Nat) : Option Sentence := v.image.bind fun m => m.sentences[i]?

/-- A clause of a sentence. -/
def Slice.clause (v : Slice) (sen i : Nat) : Option (BitVec 128) :=
  v.image.bind fun m => m.sentences[sen]?.bind fun x => if i < x.ccnt then m.clauses[x.first + i]? else none

/-- A field of a clause. -/
def clauseBits (k : BitVec 128) (hi lo : Nat) : Nat := bitsOf k.toNat hi lo

/-- The horizon of a deadline class in ns (R334, R355). -/
def State.horizon (s : State) (dclass : Nat) : Int :=
  let w := s.reg .tsu 0x654
  match dclass with
  | 0 => orOne (bitsOf w 7 0) * 1000
  | 1 => orOne (bitsOf w 15 8) * 1000000
  | _ => orOne (bitsOf w 25 16) * 1000000

/-- A context starts a sentence at clause 0; one that gets there by END goes on with its count of clauses in a row (R302, R303,
R336). -/
def State.ctxStart (s : State) (c sentence : Nat) : State :=
  match Tab.get s.tsu.contexts c with
  | none => s
  | some x =>
    let dclass := (((s.slice x.slice).sentence sentence).map (·.dclass)).getD 2
    let d := Time80.ofUnits ((s.now .tsu).toUnits + s.horizon dclass * 4294967296)
    s.updCtx c fun x =>
      { x with state := .ready, sentence, clause := 0, loop1 := 0, loop2 := 0, loop3 := 0, dCtx := d, missed := false,
               block := .none, topnd := none, altClause := none, run := if x.state = .ready then x.run else 0, yielded := false, stageNoted := false,
               farRefused := false }

/-- A context stops (R302). -/
def State.ctxStop (s : State) (c : Nat) : State :=
  s.updCtx c fun x => { x with state := .stopped, block := .none, topnd := none, altClause := none }

/-- A context goes on at a clause of its sentence; past the last one it stops with ONE_CLAUSE_FAULT (R302). -/
def State.ctxGoto (s : State) (c i : Nat) : State :=
  match Tab.get s.tsu.contexts c with
  | none => s
  | some x =>
    let n := (((s.slice x.slice).sentence x.sentence).map (·.ccnt)).getD 0
    if n ≤ i then (s.logT .clauseFault (srcCtx x.record) 1 (some x.slice)).ctxStop c
    else s.updCtx c fun x => { x with clause := i, block := .none, topnd := none, altClause := none, stageNoted := false,
                                      state := if x.state = .halted then .halted else .ready }

/-- A context's clause is complete: it continues at the clause after the one that carries it (R301). -/
def State.ctxNext (s : State) (c : Nat) : State :=
  match Tab.get s.tsu.contexts c with
  | none => s
  | some x => s.ctxGoto c (x.clause + 1)

/-- A context blocks on its clause (R299). -/
def State.ctxBlock (s : State) (c : Nat) (b : Block) (topnd : Option Time80) : State :=
  let o := s.tsu.order
  let s := s.updTsu fun t => { t with order := t.order + 1 }
  s.updCtx c fun x => { x with state := .blocked, block := b, topnd, run := 0, order := o }

/-- A context is halted, as after an abort (R246, R303). -/
def State.ctxHalt (s : State) (c : Nat) (code : ErrCode) : State :=
  s.updCtx c fun x => { x with state := .halted, block := .none, topnd := none, haltCode := code, altClause := none }

/-! ## Tumblers and results -/

/-- The entry of a slice's tumbler, die-local or of a domain (R184, R279). -/
def State.findTumb (s : State) (n : Nat) (tag : BitVec 24) (index : Nat) : Option Nat :=
  (s.tsu.tumb.find? fun p => p.2.slice = n && p.2.domain = tag && p.2.index = index && p.2.estate ≠ .closing).map (·.1)

/-- The domain tag that DOM names in a slice's image (R295). -/
def Slice.imgTag (v : Slice) (dom : Bool) : BitVec 24 :=
  if dom then (v.image.map (·.domain)).getD 0 else 0

/-- The frame that carries a byte of the result data. -/
def Result.frameOf (r : Result) (b : Nat) : Nat := if b < r.first then 0 else 1 + (b - r.first) / 48

/-- Frames that carry the data. -/
def Result.dataFrameCount (r : Result) : Nat := 1 + moreFrames r.first (dataLen r.op r.fmt r.lanes)

/-- Bytes [b, b + n) of the result data are held (R265). -/
def Result.holds (r : Result) (b n : Nat) : Bool :=
  r.whole || (List.range n).all fun i => r.held.contains (r.frameOf (b + i))

def Result.holdsAlloc (r : Result) (b n : Nat) : Bool :=
  r.whole || (List.range n).all fun i => r.held.contains (r.dataFrameCount + (b + i) / 48)

/-- Every lane and every byte of the allocator part is held (R265). -/
def Result.complete (r : Result) : Bool :=
  r.holds 0 (dataLen r.op r.fmt r.lanes) && r.holdsAlloc 0 (allocLen r.op r.lanes)

/-- Fill a result from frame `k` of a copy of its message (R265). -/
def Result.fill (r : Result) (k : Nat) (body : List Byte) : Result :=
  if r.whole ∨ r.held.contains k then r
  else
    let set : List Byte → Nat → List Byte := fun l at_ => padTo l.length (l.take at_ ++ body ++ l.drop (at_ + body.length))
    let r := { r with held := r.held ++ [k] }
    if k = 0 then { r with data := set r.data 0 }
    else if k < r.dataFrameCount then { r with data := set r.data (r.first + 48 * (k - 1)) }
    else { r with alloc := set r.alloc (48 * (k - r.dataFrameCount)) }

/-- The participants' rows as inputs; carried counts act as a participant before slot 0 (R261, R278). -/
def Result.inputs (r : Result) : List Input := r.rows.map fun c => ⟨0, c.slot, c.payload⟩

/-- The prefix lanes of a participant (R268, R270): its lower slots over the die's base, with the carried counts before
slot 0. -/
def Result.prefixOf (r : Result) (slot : Nat) (dom : Bool) : List Byte :=
  let base : Option (List Byte) := if !dom then none else if r.op = 0x0C then some (r.alloc.drop 16) else some r.data
  let base := if r.op = 0x0C ∧ r.carried ≠ [] then
      let c := packLanes 2 r.carried
      some (match base with
        | some b => addResults 2 r.lanes b c
        | none => c)
    else base
  scanPrefix r.op r.fmt r.lanes r.inputs base slot

/-- The counts of a participant in an ALLOC generation. -/
def Result.countsOf (r : Result) (slot : Nat) : List Nat :=
  match r.rows.find? fun c => c.slot = slot with
  | some c => lanesAt c.payload 2 r.lanes
  | none => List.replicate r.lanes 0

def Result.rule (r : Result) : Nat × Nat := (beNat r.alloc 0 1 % 4, beNat r.alloc 2 2)

/-- Quotas and offsets of counts with their prefixes (R277). -/
def Result.shares (r : Result) (counts pre : List Nat) : List (Nat × Nat) :=
  let acc := lanesAt r.data 2 r.lanes
  (List.range r.lanes).map fun j => allocShare r.rule.1 r.rule.2 acc (counts.getD j 0) (pre.getD j 0) j

/-- Quotas and offsets of a participant (R277). -/
def Result.quota (r : Result) (slot : Nat) (dom : Bool) : List (Nat × Nat) :=
  r.shares (r.countsOf slot) (lanesAt (r.prefixOf slot dom) 2 r.lanes)

/-- Two uint16 per lane: quota and offset (R300, R468). -/
def packShares (l : List (Nat × Nat)) : List Byte := l.flatMap fun p => natBytes p.1 2 ++ natBytes p.2 2

/-- What a WAIT, REDUCE, SCAN or ALLOC writes to DATA_OUT (R300). -/
def Result.output (r : Result) (verb slot : Nat) (dom : Bool) : List Byte :=
  r.data ++ (if verb = 5 then r.prefixOf slot dom else if verb = 6 then packShares (r.quota slot dom) else [])

/-! ## Predicates -/

/-- Whether a comparison of R279 holds for unsigned words. -/
def cmpNat (cmp x k : Nat) : Bool :=
  match cmp with
  | 0 => x = k | 1 => x ≠ k | 2 => x < k | 3 => x ≤ k | 4 => k < x | 5 => k ≤ x
  | 6 => x &&& k ≠ 0 | _ => x &&& k = 0

/-- A comparison of values in a format: signed for int32, as IEEE 754 numbers for floating formats (R279, R280). -/
def cmpValue (fmt cmp x k : Nat) : Bool :=
  if 6 ≤ cmp then cmpNat cmp x k
  else if isFloat fmt then
    let a := toFp fmt x
    let b := toFp fmt k
    if a.nan ∨ b.nan then cmp = 1
    else
      let u : Fp → Int := fun v => if !v.inf ∧ v.mag = 0 then 0 else v.key
      cmpNat cmp (if u a = u b then 1 else if u a < u b then 0 else 2) 1
  else if fmtOf fmt = 1 then cmpNat cmp (x + 2147483648 |> (· % 4294967296)) ((k + 2147483648) % 4294967296)
  else cmpNat cmp x k

/-- The format in which VALUE of a result position is read, its width and its place (R251, R279). -/
def valueSpec (op fmt lane : Nat) : Nat × Nat × Nat :=
  match op with
  | 0x01 | 0x0B => (sumFmt fmt, sumBytes fmt, sumBytes fmt * lane)
  | 0x02 | 0x03 | 0x04 | 0x05 | 0x06 => (fmtOf fmt, laneBytes fmt, laneBytes fmt * lane)
  | 0x07 | 0x08 => (0, 4, 4 * lane)
  | 0x09 | 0x0A => (pairFmt fmt, 4, 8 * lane)
  | _ => (2, 2, 2 * lane)

/-- LANE names a position of the result for SRC (R280). -/
def srcLaneOk (src op fmt lanes lane : Nat) : Bool :=
  match src with
  | 0 => lane < positions op fmt lanes
  | 1 => (op = 0x09 || op = 0x0A) && lane < positions op fmt lanes
  | 2 | 3 => true
  | 4 => op = 0x0C && lane < lanes
  | _ => false

/-- Outcome of a predicate: held, not held with the detail to record, or waiting for lanes of an entry (R267, R280). -/
inductive Pred where
  | holds (b : Bool)
  | noResult (detail : Nat)
  | wait (entry : Nat)
  deriving DecidableEq, Repr

/-- Evaluate a conjunction word for a slice; `slot` is the context's slot (R279, R280). -/
def State.pred (s : State) (n slot : Nat) (q : BitVec 64) : Pred :=
  let f : Nat → Nat → Nat := bitsOf q.toNat
  let src := f 50 48
  let lane := f 44 36
  let cmp := f 47 45
  let k := f 31 0
  let tag := (s.slice n).imgTag (bitOf q.toNat 51)
  match s.findTumb n tag (f 63 52) with
  | none => .noResult 0
  | some e =>
    match (Tab.get s.tsu.tumb e).bind (·.result) with
    | none => .noResult 0
    | some r =>
      if !srcLaneOk src r.op r.fmt r.lanes lane then .noResult 1
      else
        let v := valueSpec r.op r.fmt lane
        match src with
        | 0 =>
          if !r.holds v.2.2 v.2.1 then .wait e
          else .holds (cmpValue v.1 cmp (beNat r.data v.2.2 v.2.1) (k % 256 ^ v.2.1))
        | 1 => if !r.holds (8 * lane + 4) 4 then .wait e else .holds (cmpNat cmp (beNat r.data (8 * lane + 4) 4) k)
        | 2 => .holds (cmpNat cmp r.members k)
        | 3 => .holds (cmpNat cmp (b2n r.short) k)
        | _ =>
          if !r.holds (2 * lane) 2 ∨ !r.holdsAlloc (16 + 2 * lane) 2 ∨ !r.holdsAlloc 0 16 then .wait e
          else .holds (cmpNat cmp ((r.quota slot (tag ≠ 0)).getD lane (0, 0)).1 k)

/-- The conjunction word of a clause, if it carries one (R295, R298). -/
def Slice.conjOf (v : Slice) (sen : Nat) (k : BitVec 128) : Option (BitVec 64) :=
  if clauseBits k 123 123 = 0 then none
  else v.image.bind fun m => m.sentences[sen]?.bind fun x => m.conjs[x.cfirst + clauseBits k 122 117]?

/-- Judge the conjunction of a context's clause: fire it, fire the alternate, or wait for lanes (R280, R301). -/
def State.judge (s : State) (n sen slot src : Nat) (k : BitVec 128) : State × Option Bool :=
  match (s.slice n).conjOf sen k with
  | none => (s, some true)
  | some q =>
    match s.pred n slot q with
    | .holds b => (s, some b)
    | .noResult d => (s.logT .predNoResult src d (some n), some false)
    | .wait _ => (s, none)

/-- A MARK record (R300). -/
def State.markRecord (s : State) (x : Ctx) (k : BitVec 128) (i : Nat) : State :=
  let v := s.slice x.slice
  s.writeRecord { s.blankRec 0x10 x.slice with
    source := srcCtx x.record, index := i, c := if clauseBits k 63 63 = 1 then (s.now .tsu).ns32 else 0,
    detail := BitVec.ofNat 32 (clauseBits k 95 64), step16 := s.stepOf x.slice (v.imgTag true) % 65536 }

/-- A loop counter of a context. -/
def Ctx.loop (x : Ctx) : Nat → Nat
  | 1 => x.loop1
  | 2 => x.loop2
  | _ => x.loop3

/-- Set a loop counter. -/
def Ctx.setLoop (x : Ctx) (n v : Nat) : Ctx :=
  match n with
  | 1 => { x with loop1 := v }
  | 2 => { x with loop2 := v }
  | _ => { x with loop3 := v }

/-- A BRANCH of a context (R302). -/
def State.branch (s : State) (c : Nat) (x : Ctx) (k : BitVec 128) : State :=
  let ctr := clauseBits k 87 86
  let target := clauseBits k 95 88
  if ctr = 0 then s.ctxGoto c target
  else
    let v := (if x.loop ctr = 0 then orOne (clauseBits k 85 70) else x.loop ctr) - 1
    let s := s.updCtx c fun x => x.setLoop ctr v
    if v ≠ 0 then s.ctxGoto c target else s.ctxNext c

/-- An END of a context (R302). -/
def State.endClause (s : State) (c : Nat) (k : BitVec 128) : State :=
  let next := clauseBits k 95 88
  if next = 0xFF then s.ctxStop c else s.ctxStart c next

/-- Fire an alternate that is a MARK, BRANCH or END in place of a LAUNCH (R301); an alternate that names the clause
itself fires nothing. -/
def State.fireAlt (s : State) (c : Nat) (x : Ctx) (alt : Nat) : State :=
  if alt = x.clause then s.ctxNext c
  else
    match (s.slice x.slice).clause x.sentence alt with
    | none => s.ctxNext c
    | some k =>
      match clauseBits k 127 124 with
      | 7 => s.branch c x k
      | 8 => (s.markRecord x k alt).ctxNext c
      | 0 => s.endClause c k
      | _ => s.ctxNext c

end Sys2Proof.Machine
end

