-- ==== Sys2Proof/Machine/RegionOps.lean ====
section
/-! DEFINITION. The shared operations of the time buses: delays, TBUS_LEAD, words and their acknowledgements
(R122 to R127). -/

namespace Sys2Proof.Machine

open Sys2Proof

/-- A calibrated delay, in units of 1/2048 ps, in units of 2^-32 ns. -/
def delayUnits (d : Int) : Int := roundAway (d * 2097152) 1000

/-- A calibrated delay in whole ps (R125, R518). -/
def delayPs (d : Int) : Int := roundAway d 2048

/-- After a calibration the core updates TBUS_LEAD: 8 ns for the word, the greatest delay of the ready repeaters, 2 ns of
decode; it keeps the value while none is ready (R127). -/
def State.updateLead (s : State) : State :=
  let ready := [0, 1, 2, 3, 4, 5, 6, 7].filter fun r => (s.region r).ready
  if ready = [] then s
  else s.updTsu fun t => { t with lead := ready.foldl (fun m r => max m (s.region r).delay) 0 + 10000 * 2048 }

/-- TBUS_LEAD in units of 2^-16 ns. -/
def State.tbusLead16 (s : State) : Int := roundAway (s.tsu.lead * 32) 1000

/-- The core's counter as NS32 and 32 fraction bits (R123). -/
def State.count64 (s : State) : Nat := (s.tsu.com.time.counter.toUnits % 18446744073709551616).toNat

/-- Send the addend in force to every repeater that has loaded its count, where it changed (R123, R128). -/
def State.addendWord (s : State) (old : Nat) : State :=
  let a := s.tsu.com.time.addend
  if a = old then s
  else [0, 1, 2, 3, 4, 5, 6, 7].foldl (fun s r =>
    if (s.region r).present ∧ !(s.region r).fail ∧ (s.region r).loaded then s.busSend r (.addend a s.count64 s.tsu.com.time.aon) else s) s

/-- The strobe route mean of a region in units of 2^-16 ns; values above 2,000 ps act as 2,000 (R136, R146). -/
def State.advance16 (s : State) (r : Nat) : Int :=
  roundAway ((min 2000 (bitsOf (s.reg .tsu (0x20C + 0x20 * r)) 11 0) : Nat) * 65536) 1000

/-- The repeater's count in units of 2^-16 ns modulo 2^48. -/
def Region.count48 (g : Region) : Int := g.count / 65536

/-- WAKE_LEAD in units of 2^-16 ns (R146). -/
def State.wakeLead16 (s : State) : Int := orOne (bitsOf (s.reg .tsu 0x1CC) 23 16) * 65536000

/-- The lead of a frequency change in units of 1/2048 ps: FCHG_LEAD, at least TBUS_LEAD + 8 ns (R133). -/
def State.fchgLead (s : State) : Int := max (bitsOf (s.reg .tsu 0x1CC) 15 0 * 2048000) (s.tsu.lead + 8 * 2048000)

/-! ## Words on the bus -/

/-- The place of a word in the queue order (R123). -/
def BusBody.rank : BusBody → Nat
  | .sync _ => 0
  | .cancel _ _ => 1
  | .addend _ _ _ => 2
  | .launchAt _ _ _ | .fchgAt _ _ => 3
  | .cal => 4

/-- A word that a repeater acknowledges (R123). -/
def BusBody.acked : BusBody → Bool
  | .sync _ | .cal => false
  | _ => true

/-- The word that leaves next: by the queue order, and in order of issue (R123). -/
def Region.nextWord (g : Region) : Option BusItem :=
  [0, 1, 2, 3, 4].findSome? fun k => g.queue.find? fun w => w.body.rank = k

/-- A word leaves the core, which takes four ticks of the bus; a SYNC word takes the count of its departure, and an
acknowledged word awaits its acknowledgement from then on (R123, R124). -/
def Region.send (g : Region) (aon count : Nat) (w : BusItem) : Region :=
  let body := match w.body with
    | .sync _ => .sync count
    | b => b
  let unacked :=
    if !w.body.acked then g.unacked
    else if g.unacked.any fun v => v.seq = w.seq then
      g.unacked.map fun v => if v.seq = w.seq then { v with sentAt := aon } else v
    else g.unacked ++ [⟨w.seq, w.body, aon, 0, false⟩]
  { g with flight := g.flight ++ [⟨w.seq, body⟩], busyTo := aon + 8, unacked }

/-- What leaves on a time bus on a tick: the next word of the queue, else a CAL word of a calibration (R123, R125, R126). -/
def Region.depart (g : Region) (aon count : Nat) : Region :=
  if aon < g.busyTo then g
  else match g.nextWord with
    | some w => { g with queue := g.queue.erase w }.send aon count w
    | none => if 0 < g.calLeft then { g with calLeft := g.calLeft - 1 }.send aon count ⟨0, .cal⟩ else g

/-- A tick of TB_CLK: the repeater's count takes its addend, and the bus goes on (R123, R128). -/
def Region.tick (g : Region) (aon count : Nat) : Region :=
  if g.present then { g with count := (g.count + g.addend) % 18446744073709551616 }.depart aon count else g

/-- The remainder of 128 bits of a word under x^8 + x^2 + x + 1 (R123). -/
def crc8 (w : BitVec 128) : Nat :=
  (List.range 128).foldl (fun c i =>
    let c := 2 * c + b2n (w.getMsbD i)
    if 256 ≤ c then c ^^^ 0x107 else c) 0

/-- The CRC of a word that the bus changed in the bits of `noise` still holds: the CRC is linear (R123). -/
def crcOk (noise : BitVec 128) : Bool := crc8 noise = 0

/-- The word at a repeater is gone from the bus. -/
def State.wordTaken (s : State) (r : Nat) : State := s.updRegion r fun g => { g with flight := g.flight.drop 1 }

/-- A repeater acknowledges a good word; it acts on it unless it has acted on that sequence number (R124). -/
def State.wordGood (s : State) (r seq : Nat) (act : State → State) : State :=
  let again := (s.region r).seen.contains seq
  let s := s.updRegion r fun g => { g with acks := g.acks ++ [seq], seen := if again then g.seen else (seq :: g.seen).take 32 }
  if again then s else act s

end Sys2Proof.Machine
end

