-- ==== Sys2Proof/Machine/TumblerOps.lean ====
section
/-! DEFINITION. Shared operations of tumblers at a TSU: arrivals, completion, turns, waits, the arming of launches,
inheritance and lending (R186 to R211, R227 to R229, R265 to R278, R342, R397 to R404). -/

namespace Sys2Proof.Machine

open Sys2Proof

/-- A tumbler entry. -/
def State.tumb? (s : State) (e : Nat) : Option Tumbler := Tab.get s.tsu.tumb e

/-- MASK 0 or TARGET 0: the share is empty (R188, R190). -/
def Tumbler.empty (t : Tumbler) : Bool := if t.counted then t.target = 0 else t.mask = 0

/-- The share is complete (R188, R190). -/
def Tumbler.full (t : Tumbler) : Bool := if t.counted then t.count = t.target else t.arrNow = t.mask

/-- The number of bits set in a slot word. -/
def popCount (m : BitVec 64) : Nat := ((List.range 64).filter fun i => m.getLsbD i).length

/-- The fold inputs of a share's contributions, with the contributor's die (R251, R261). -/
def State.inputsOf (s : State) (l : List Contrib) : List Input :=
  l.map fun c => ⟨s.tsu.dieId.getD 0, c.slot, c.payload⟩

/-- The local combine of a share's current generation, with its carry vector (R194, R278). -/
def State.partialOf (s : State) (t : Tumbler) : List Byte :=
  let d := foldTsu t.op t.fmt t.lanes (s.inputsOf t.nowC)
  match t.carry with
  | some v => if t.op = 0x0C then addResults 2 t.lanes d (packLanes 2 v) else d
  | none => d

/-- The ARRIVE message of a share's current generation (R194, R206, R207). -/
def State.arriveMsg (s : State) (t : Tumbler) : List Frame :=
  let data := s.partialOf t
  let step := BitVec.ofNat 16 (s.stepOf t.slice t.domain)
  let first := { mkFrame 0x10 2 t.gen t.domain step t.doneNs
    (natBytes t.index 2 ++ natBytes t.op 1 ++ natBytes t.fmt 1 ++ natBytes t.lanes 2 ++ natBytes 1 3
      ++ natBytes (s.tsu.dieId.getD 0) 3 ++ natBytes t.doneNs.toNat 4 ++ data.take 32) with f49 := t.shortDue }
  dataFrames first (data.drop 32) (moreFrames 32 data.length)

/-- The side and rate flags of a domain that this TSU holds. -/
def State.domFlags (s : State) (tag : BitVec 24) : Bool × Bool :=
  (((s.domRec tag).map (·.sideB)).getD false, ((s.domRec tag).map (·.fullRate)).getD false)

/-- Mark the ARRIVE message of a complete share ready for the active-side lane (R194). -/
def State.sendArrive (s : State) (e : Nat) : State :=
  match s.tumb? e with
  | none => s
  | some t =>
    let fl := s.domFlags t.domain
    s.tsuUp fl.1 fl.2 2 e (s.arriveMsg t)

/-- The first frame of an ARRIVE of a tumbler. -/
def Tumbler.heads (t : Tumbler) (f : Frame) : Bool := f.type = 0x10 && f.domain = t.domain && f.fIndex = t.index

/-- Some frame of a stream belongs to a message whose first frame satisfies `p`; `cur` says it of the message under way. -/
def streamHas (p : Frame → Bool) : Option Bool → List Frame → Bool
  | _, [] => false
  | cur, f :: t =>
    let m := cur.getD (p f)
    m || streamHas p (if f.more then some m else none) t

/-- What `streamHas` says of the message under way after a stream. -/
def streamEnd (p : Frame → Bool) : Option Bool → List Frame → Option Bool
  | cur, [] => cur
  | cur, f :: t => streamEnd p (if f.more then some (cur.getD (p f)) else none) t

/-- A stream without the messages whose first frame satisfies `p`. -/
def streamDrop (p : Frame → Bool) : Option Bool → List Frame → List Frame
  | _, [] => []
  | cur, f :: t =>
    let m := cur.getD (p f)
    let rest := streamDrop p (if f.more then some m else none) t
    if m then rest else f :: rest

/-- The class-2 ready marks of a port, which continue its stream, without the messages whose first frame satisfies `p`. -/
def marksDrop (p : Frame → Bool) (port : Nat) : Option Bool → List ReadyMark → List ReadyMark
  | _, [] => []
  | cur, m :: t =>
    if m.port = port ∧ m.cls = 2 then
      let fs := streamDrop p cur m.frames
      let rest := marksDrop p port (streamEnd p cur m.frames) t
      if fs = [] then rest else { m with frames := fs } :: rest
    else m :: marksDrop p port cur t

/-- A frame of a message whose first frame satisfies `p` is queued or marked ready in class 2 at a lane (R174, R187). -/
def State.waitsToLeave (s : State) (p : Frame → Bool) (lane : Nat) : Bool :=
  let k := s.link ⟨.tsu, lane⟩
  streamHas p (k.head2.map p)
    (k.q2 ++ (s.tsu.com.marks.filter fun m => m.port = lane && m.cls = 2).flatMap (·.frames))

/-- The ARRIVE of a share's current generation is queued or marked ready. -/
def State.arriveQueued (s : State) (t : Tumbler) : Bool :=
  let p : Frame → Bool := fun f => t.heads f && f.gen = t.gen
  s.waitsToLeave p 0 || s.waitsToLeave p 1

/-- Withdraw the ARRIVE of the current generation at a lane where no frame of it has left (R200). -/
def State.withdrawAt (s : State) (t : Tumbler) (lane : Nat) : State :=
  let p : Frame → Bool := fun f => t.heads f && f.gen = t.gen
  let k := s.link ⟨.tsu, lane⟩
  let cur := k.head2.map fun _ => false
  (s.updLink ⟨.tsu, lane⟩ fun k => { k with q2 := streamDrop p cur k.q2 }).updCom .tsu fun c =>
    { c with marks := marksDrop p lane (streamEnd p cur k.q2) c.marks }

/-- Withdraw the ARRIVE of a generation that has not left (R200). -/
def State.withdrawArrive (s : State) (t : Tumbler) : State := (s.withdrawAt t 0).withdrawAt t 1

/-! ## Waits -/

/-- A WAIT record (R199, R239). -/
def State.waitRecord (s : State) (n src : Nat) (t : Option Tumbler) (r : Option Result) (gen : BitVec 2) (code : ErrCode) :
    State :=
  s.writeRecord { s.blankRec 3 n with
    short := (r.map (·.short)).getD false, code := code.value, source := src, gen := gen.toNat,
    domain := (t.map fun x => x.domain.toNat).getD 0, index := (t.map (·.index)).getD 0,
    step16 := (r.map fun x => x.step16.toNat).getD 0,
    c := BitVec.ofInt 32 (((r.map (·.c)).getD 0) / 65536), members := (r.map (·.members)).getD 0 }

/-- The wait of a context's clause is over with the result: DATA_OUT is written, or waits for lanes (R199, R265,
R300). -/
def State.ctxResult (s : State) (c e : Nat) (dataOut slot : Nat) : State :=
  match Tab.get s.tsu.contexts c, s.tumb? e with
  | some x, some t =>
    let k := ((s.slice x.slice).clause x.sentence (x.altClause.getD x.clause)).getD 0
    match t.result with
    | none => s.ctxNext c
    | some r =>
      if dataOut = 0xFFF then s.ctxNext c
      else if !r.complete then s.ctxBlock c (.lanes e) none
      else
        let addr := ((s.slice x.slice).image.bind fun m => m.datas[dataOut]?).getD 0
        let out := r.output (clauseBits k 127 124) slot (t.domain ≠ 0)
        if out = [] then s.ctxNext c
        else (s.ctxBlock c .write none).sliceWrite x.slice (.dataOut c) addr out
  | _, _ => s.ctxNext c

/-- A context's wait ends with a code: a WAIT record, DATA_OUT unwritten, and the next clause (R187, R198, R338). -/
def State.ctxWaitEnds (s : State) (c e : Nat) (gen : BitVec 2) (code : ErrCode) : State :=
  match Tab.get s.tsu.contexts c with
  | none => s
  | some x =>
    let s := s.logT code (srcCtx x.record) 0 (some x.slice)
    (s.waitRecord x.slice (srcCtx x.record) (s.tumb? e) none gen code).ctxNext c

/-- Contexts blocked on a turn. -/
def State.waitingCtxs (s : State) (e : Nat) (g : Option (BitVec 2)) : List (Nat × BitVec 2 × Nat × Nat) :=
  s.tsu.contexts.filterMap fun p => match p.2.block with
    | .turn e' g' d sl => if e' = e ∧ (g = none ∨ g = some g') then some (p.1, g', d, sl) else none
    | _ => none

/-- Software waits on a turn, with their keys. -/
def State.softWaits (s : State) (e : Nat) (g : Option (BitVec 2)) : List (Nat × BitVec 2) :=
  s.tsu.waits.filterMap fun p => if p.2.entry = e ∧ (g = none ∨ g = some p.2.gen) then some (p.1, p.2.gen) else none

/-- End a software wait (R199, R466). -/
def State.endSoftWait (s : State) (key : Nat) (r : Option Result) (code : ErrCode) : State :=
  match Tab.get s.tsu.waits key with
  | none => s
  | some w =>
    let n := key / 4
    let s := s.updTsu fun t => { t with waits := Tab.del t.waits key }
    let s := if code = .none then s else s.logT code (srcSlice n) 0 (some n)
    s.waitRecord n (srcSlice n) (s.tumb? w.entry) r w.gen code

/-! ## Staged launches -/

/-- Remove a staged launch and free its staging (R228). -/
def State.dropStaged (s : State) (id : Nat) : State :=
  match Tab.get s.tsu.launches id with
  | none => s
  | some l =>
    let all := l.main :: l.alt.toList
    let s := all.foldl (fun s v => s.freeStaging id none v.ports v.slots) s
    s.updTsu fun t => { t with launches := Tab.del t.launches id }

/-- A staged launch is dropped with a code and detail: its LAUNCH record, and the context goes on (R228). -/
def State.launchDropped (s : State) (id : Nat) (code : ErrCode) (detail : Nat) (resume : Bool := true) (late : Bool := false) : State :=
  match Tab.get s.tsu.launches id with
  | none => s
  | some l =>
    let t := s.tumb? l.entry
    let r := t.bind (·.result)
    let s := s.dropStaged id
    let s := s.logT code (srcCtx l.record) detail (some l.slice)
    let s := s.writeRecord { s.blankRec 1 l.slice with
      sgen := l.sgen, dropped := true, short := (r.map (·.short)).getD false, late, far := (r.map (·.far)).getD false,
      code := code.value,
      source := srcCtx l.record, gen := l.gen.toNat, domain := (t.map fun x => x.domain.toNat).getD 0,
      index := (t.map (·.index)).getD 0, step16 := (r.map fun x => x.step16.toNat).getD 0,
      c := BitVec.ofInt 32 ((r.map (·.c)).getD 0 / 65536), t := ((r.bind (·.t)).map (·.ns32)).getD 0,
      members := (r.map (·.members)).getD 0, detail := BitVec.ofNat 32 detail }
    if resume then s.ctxNext l.ctx else s

/-- T − TBUS_LEAD − 2 ns in units of 2^-16 ns (R224). -/
def State.onTimeLimit (s : State) (t : Time80) : Int := t.toNs16 - s.tbusLead16 - 131072

/-- The margin registers of a domain launch, in units of 125 ps, saturating (R247). -/
def State.margin (s : State) (t : Time80) : State :=
  let m := clampInt (-32768) 32767 (roundAway (s.onTimeLimit t - (s.now .tsu).toNs16) 8192)
  s.updTsu fun x => { x with lastMargin := m, minMargin := min x.minMargin m }

/-- Arm one of a staged launch's clauses for the kept T (R228 to R230, R335, R336). `list`: the turn has built the
slice's work list (R353). -/
def State.armLaunch (s : State) (id : Nat) (useAlt : Bool) (r : Result) (t : Time80) : State :=
  match Tab.get s.tsu.launches id with
  | none => s
  | some l =>
    let tm := s.tumb? l.entry
    let dom := (tm.map (·.domain)).getD 0
    let v := if useAlt then l.alt.getD l.main else l.main
    let s := if dom ≠ 0 then s.margin t else s
    let late := s.onTimeLimit t < (s.now .tsu).toNs16
    if dom ≠ 0 ∧ !s.tsu.com.time.launchOk then s.launchDropped id .timeUnqualified 0
    else if (s.slice l.slice).state = .halted then s.launchDropped id .aborted 0
    else if late ∧ r.dropLate then
      (s.updTsu fun x => { x with lateCount := min (x.lateCount + 1) 0xFFFF }).launchDropped id .launchDropped 0 true true
    else if 256 ≤ s.tsu.arms.length then
      s.updTsu fun x => { x with launches := Tab.put x.launches id { l with turned := true },
                                 grants := x.grants ++ [⟨2, l.slice, l.ctx, 0, none⟩] }
    else
      match Tab.freeKey s.tsu.arms 256 with
      | none => s
      | some a =>
        let other := if useAlt then some l.main else l.alt
        let s := match other with
          | some o => s.freeStaging id (some (!useAlt)) o.ports o.slots
          | none => s
        let s := v.ports.foldl (fun s p => s.updPort p fun q => { q with staging := q.staging.map fun e =>
          if e.launch = id then
            { e with cmd := { e.cmd with deadline := BitVec.ofInt 32 (t.toNs + (min e.dl 1073741824 : Nat)),
                                         step16 := r.step16 } }
          else e }) s
        let dl := (v.ports.head?.bind fun p => (s.port p).staging.find? fun e => e.launch = id).map (·.dl) |>.getD 0
        let list := (s.slice l.slice).headers.contains (dom, (tm.map (·.index)).getD 0, r.gen)
        let arm : Arm :=
          { launch := id, slice := l.slice, sgen := l.sgen, ctx := l.record, t, late, far := r.far, domain := dom,
            gen := r.gen, index := (tm.map (·.index)).getD 0, c := BitVec.ofInt 32 (r.c / 65536), members := r.members,
            short := r.short, step16 := r.step16, ports := v.ports, slots := v.slots, sent := [], fired := [],
            fence := v.fence, cancel := .none, code := .none, listWait := list,
            dropLate := r.dropLate, order := l.order, struck := false }
        let s := s.updTsu fun x => { x with arms := Tab.put x.arms a arm, launches := Tab.del x.launches id }
        let s := s.updCtx l.ctx fun x =>
          { x with dCtx := Time80.ofUnits (t.toUnits + (min dl 1073741824 : Nat) * 4294967296), missed := false }
        s.ctxNext l.ctx

/-- A staged launch meets its turn: the conjunction is evaluated, the clause that fires keeps its staging, and a launch
is armed, dropped, or waits for lanes (R228, R267, R301). -/
def State.launchTurn (s : State) (id : Nat) : State :=
  match Tab.get s.tsu.launches id with
  | none => s
  | some l =>
    match Tab.get s.tsu.contexts l.ctx, (s.tumb? l.entry).bind (·.result) with
    | some x, some r =>
      let k := ((s.slice l.slice).clause l.sentence l.main.clause).getD 0
      let j := s.judge l.slice l.sentence x.lastSlot (srcCtx l.record) k
      let s := j.1
      match j.2 with
      | none => s.updTsu fun t => { t with launches := Tab.put t.launches id { l with turned := true } }
      | some fires =>
        let altIdx := clauseBits k 116 109
        if !fires ∧ l.alt = none then (s.dropStaged id).fireAlt l.ctx x altIdx
        else if r.tRefused ≠ .none then s.launchDropped id r.tRefused 0
        else match r.t with
          | some t => s.armLaunch id (!fires) r t
          | none => s.launchDropped id .launchDropped 1
    | some _, none => s.launchDropped id .launchDropped 2
    | none, _ => s.dropStaged id

/-! ## Inheritance and lending -/

/-- BOOST the commands that owe arrivals at a tumbler whose share is not complete (R342). -/
def State.boost (s : State) (n e : Nat) (d : Time80) : State :=
  match s.tumb? e with
  | none => s
  | some t =>
    if t.full then s
    else s.tsu.ports.foldl (fun s p =>
      p.2.pend.zipIdx.foldl (fun s x =>
        let r := x.1
        let done : Bool := match r.boosted with
          | some b => decide (0 ≤ sdiff 32 d.ns32.toNat b.toNat)
          | none => false
        if r.entry ≠ e ∨ sdiff 32 r.deadline.toNat d.ns32.toNat ≤ 0 ∨ done then s
        else
          let cmd : Command := { work := 0x10, deadline := d.ns32, dclass := 0, slice := r.slice, sgen := 0, context := 0,
                                 fence := false, arvEntry := r.entry, arvSlot := r.slot, arvWeight := 0, arvEn := false,
                                 resEntry := 0, resGen := 0, step16 := 0 }
          ((s.present p.1 cmd).updPort p.1 fun q => { q with pend := q.pend.set x.2 { r with boosted := some d.ns32 } }).logT
            .inherit (srcPort p.1) 0 (some n)) s) s

/-- A record ends with its arrival (R342). -/
def dropPend (e slot : Nat) : List PendArv → List PendArv
  | [] => []
  | r :: t => if r.entry = e ∧ r.slot = slot then t else r :: dropPend e slot t

/-- The command queue of a port is empty, as far as the TSU follows it: no fired command is left, and none at the engine owes
an arrival but the one that is held (R210). -/
def Port.idle (q : Port) : Bool :=
  let pend := match q.held with
    | some a => dropPend a.entry a.slot q.pend
    | none => q.pend
  q.fired = [] && q.fenceHeld = [] && pend = []

/-- The tumbler, and the generation of the staged launch, on which a port is waiting (R210). -/
def State.waitingOn (s : State) (p : Nat) : Option (Nat × BitVec 2) :=
  let q := s.port p
  match (q.staging.head?).bind fun g => Tab.get s.tsu.launches g.launch with
  | none => none
  | some l =>
    let arrived : Bool := (q.arvAt.any fun x => x.1 = l.entry) || (q.held.map fun a => decide (a.entry = l.entry)).getD false
    if arrived ∧ q.idle then some (l.entry, l.gen) else none

/-- Lend the budget of a port that starts waiting on a tumbler, for the turn predicted from the first arrival of the
generation (R210, R211). -/
def State.lendPort (s : State) (p e : Nat) (g : BitVec 2) : State :=
  match s.tumb? e with
  | none => s
  | some t =>
    match if g = t.gen then t.firstArv else t.firstNext with
    | none => s
    | some first =>
      let w := s.reg .tsu 0x400
      let at_ := first + t.est
      if (s.port p).lent.isSome ∨ t.turns < 4 ∨ !bitOf w 28 ∨ !(s.slice t.slice).lendEn
          ∨ at_ - (s.now .tsu).toNs ≤ bitsOf w 15 0 ∨ 64 ≤ s.tsu.lend.length then s
      else
        let til : Word := BitVec.ofInt 32 (at_ - bitsOf w 27 16)
        (s.updPort p fun q => { q with lent := some (til, e) }).updTsu fun x =>
          { x with lend := x.lend ++ [⟨true, p, til⟩] }

/-- A port that waits now and did not in `before` starts waiting (R210). -/
def State.startsWaiting (s before : State) (p : Nat) : State :=
  match s.waitingOn p with
  | none => s
  | some x => if (before.waitingOn p).map (·.1) = some x.1 then s else s.lendPort p x.1 x.2

/-- Reclaim every budget lent for a tumbler (R210). -/
def State.reclaimFor (s : State) (e : Nat) : State :=
  (s.tsu.ports.filter fun p => (p.2.lent.map fun l => decide (l.2 = e)).getD false).foldl (fun s p => s.reclaim p.1) s

/-! ## Turns -/

/-- Rejected counts of a CARRY share, once its result is complete (R278). -/
def State.carryUpdate (s : State) (e : Nat) : State :=
  match s.tumb? e with
  | none => s
  | some t =>
    match t.result with
    | none => s
    | some r =>
      if t.op ≠ 0x0C ∨ r.rule.1 ≠ 2 ∨ !r.complete then s
      else
        let dom := decide (t.domain ≠ 0)
        let zero := List.replicate r.lanes 0
        let rej : List Nat → List (Nat × Nat) → List Nat := fun c q => (List.range r.lanes).map fun j =>
          c.getD j 0 - (q.getD j (0, 0)).1
        let add : List Nat → List Nat → List Nat := fun a b => (List.range r.lanes).map fun j =>
          min 0xFFFF (a.getD j 0 + b.getD j 0)
        let own := r.rows.foldl (fun acc c => add acc (rej (r.countsOf c.slot) (r.quota c.slot dom))) zero
        let base := if dom then lanesAt (r.alloc.drop 16) 2 r.lanes else zero
        let all := if r.carried = [] then own else add own (rej r.carried (r.shares r.carried base))
        if all.all (· = 0) then s.updTumb e fun t => { t with carry := none }
        else
          let used := (s.tsu.tumb.filter fun p => p.1 ≠ e && p.2.carry.isSome).length
          let mine := (s.tsu.tumb.filter fun p => p.1 ≠ e && p.2.slice = t.slice && p.2.carry.isSome).length
          if 16 ≤ used ∨ (s.slice t.slice).carryQ ≤ mine then
            (s.updTumb e fun t => { t with carry := none }).logT .carryFull (srcSlice t.slice) 0 (some t.slice)
          else s.updTumb e fun t => { t with carry := some all }

/-- A turn of a domain's STEP_TUMB: the step number, LAG, the straggler run and the trim (R304, R403, R404). -/
def State.stepTurn (s : State) (t : Tumbler) (r : Result) : State :=
  match s.domRec t.domain with
  | none => s
  | some d =>
    if !d.stepEn ∨ d.stepTumb ≠ t.index then s
    else
      let w := s.reg .tsu 0x790
      let isMe := r.latestDie = s.tsu.dieId.getD 0
      let old := ((s.slice t.slice).bindings.find? fun b => b.tag = t.domain).map (·.run) |>.getD 0
      let lag := (max 0 (sdiff 32 r.latestNs.toNat t.doneNs.toNat)).toNat
      let limit := orOne (bitsOf w 7 0)
      let run := if isMe then old + 1 else 0
      let trimStep := min 50 (bitsOf w 15 8)
      let s := s.updBinding t.slice t.domain fun b =>
        { b with step := (b.step + 1) % 18446744073709551616, lag := min lag 0xFFFFFF, run,
                 trim := if isMe ∧ limit ≤ run then min (min 90 (bitsOf w 23 16)) (b.trim + trimStep)
                         else b.trim - trimStep }
      if isMe ∧ run = limit then (s.logT .straggler 0 0 (some t.slice)).healthSend .straggler else s

/-- Serving builds that a turn triggers, and FIN turns noted (R349, R350). -/
def State.serveTurn (s : State) (t : Tumbler) (r : Result) : State :=
  let n := t.slice
  let v := (s.slice n).serve
  let bind : Nat → BitVec 24 := fun b => (((s.slice n).bindings[b]?).map (·.tag)).getD 0
  let named : Bool → Nat → Bool := fun d i =>
    t.index = i && (if d then t.domain ≠ 0 && t.domain = bind v.binding else t.domain = 0)
  let s := if v.finEn ∧ named v.finDom v.finTumb then s.updSlice n fun x => { x with finTurned := true } else s
  if !named v.stepDom v.stepTumb ∨ (s.slice n).state = .free then s
  else
    let s := if v.stepDom then s else s.updSlice n fun x => { x with localStep := x.localStep + 1 }
    if !v.en then s
    else
      let step := if v.stepDom then s.stepOf n t.domain else (s.slice n).localStep
      let trim := ((((s.slice n).bindings.find? fun b => b.tag = t.domain)).map (·.trim)).getD 0
      let fin := ((s.findTumb n (if v.finDom then bind v.binding else 0) v.finTumb).bind fun e =>
        ((s.tumb? e).bind (·.result)).map (·.data)).getD []
      let tt : Word := match r.t with
        | some x => x.ns32
        | none => BitVec.ofInt 32 (r.c / 65536)
      s.buildList n step tt fin (if v.stepDom then trim else 0) (t.domain, t.index, r.gen)

/-- An empty share completes on the tick a generation opens: its ARRIVE leaves where the top node lies above (R188). -/
def State.emptyOpens (s : State) (e : Nat) : State :=
  match s.tumb? e with
  | none => s
  | some t =>
    if t.empty ∧ t.estate = .active ∧ t.mstate = .member then
      let s := s.updTumb e fun t => { t with shareDone := true, doneNs := (s.now .tsu).ns32 }
      if t.domain = 0 ∨ s.topHere t.domain then s else s.sendArrive e
    else s

/-- A turn at a share: the result, the generation, the arrivals of the next one, and the waiters (R195, R198, R199,
R228). `adopt`: a share in SHADOW takes the turn without its waiters' launches (R397). -/
def State.turnApply (s : State) (e : Nat) (r : Result) : State :=
  match s.tumb? e with
  | none => s
  | some t =>
    let now := (s.now .tsu).toNs
    let x := now - t.firstArv.getD now
    let r := if isScan t.op then { r with rows := t.nowC, carried := t.carry.getD [] } else r
    let s := s.reclaimFor e
    let s := s.updTsu fun x => { x with ports := Tab.map x.ports fun _ q =>
      { q with arvAt := q.arvAt.filter fun y => y ≠ (e, r.gen) } }
    let s := s.updTumb e fun t =>
      { t with result := some r, gen := r.gen + 1, arrNow := t.arrNext, arrNext := 0, count := t.early, early := 0,
               nowC := t.nextC, nextC := [], shareDone := false, shortDue := false, short := r.short,
               overflow := false, turnNs32 := BitVec.ofInt 32 (r.c / 65536), turns := t.turns + 1,
               est := if t.firstArv.isSome then ((t.est : Int) + (x - t.est) / 4).toNat else t.est,
               firstArv := t.firstNext, firstNext := none, release := true }
    let s := s.stepTurn t r
    let s := s.carryUpdate e
    let s := s.serveTurn t r
    let s := (s.waitingCtxs e (some r.gen)).foldl (fun s w => s.ctxResult w.1 e w.2.2.1 w.2.2.2) s
    let s := (s.softWaits e (some r.gen)).foldl (fun s w => s.endSoftWait w.1 (some r) .none) s
    let ls := s.tsu.launches.filter fun p => p.2.entry = e && p.2.gen = r.gen && !p.2.turned
    (ls.foldl (fun (s : State) p => s.launchTurn p.1) s).emptyOpens e

/-- The arm descriptor of a tumbler in its slice's image (R223, R293). -/
def State.armDesc (s : State) (t : Tumbler) : Option ArmDesc :=
  (s.slice t.slice).image.bind fun m => m.arms.find? fun a =>
    a.index = t.index && (if a.dom then t.domain ≠ 0 && t.domain = m.domain else t.domain = 0)

/-- A tumbler turns at this TSU as its top node, on completion (R194, R217). -/
def State.turnLocal (s : State) (e : Nat) : State :=
  match s.tumb? e with
  | none => s
  | some t =>
    let c := (s.now .tsu).toNs16
    let a := s.armDesc t
    let tt := (launchT a c 524288).map fun x => Time80.ofUnits (x * 65536)
    let far : Bool := match tt with
      | some x => decide (70368744177664 ≤ x.toNs16 - c)
      | none => false
    let data := if t.op = 0x0C then List.replicate (2 * t.lanes) 0 else s.partialOf t
    let r : Result :=
      { gen := t.gen, c, members := 1, latestDie := s.tsu.dieId.getD 0, latestNs := (s.now .tsu).ns32, short := t.shortDue,
        t := tt, far, tRefused := .none, dropLate := (a.map (·.drop)).getD false, calendar := false,
        step16 := BitVec.ofNat 16 (s.stepOf t.slice ((s.slice t.slice).imgTag true)), op := t.op, fmt := t.fmt,
        lanes := t.lanes, data, alloc := List.replicate (allocLen t.op t.lanes) 0, first := 32, held := [],
        whole := true, rows := [], carried := [] }
    s.turnApply e r

/-- A share that has become complete: a turn here, or one ARRIVE (R188, R194). -/
def State.shareComplete (s : State) (e : Nat) : State :=
  match s.tumb? e with
  | none => s
  | some t =>
    if !t.full ∨ t.shareDone ∨ t.estate ≠ .active ∨ t.empty ∨ t.bound.isSome then s
    else
      let s := s.updTumb e fun t => { t with shareDone := true, doneNs := (s.now .tsu).ns32 }
      if t.domain = 0 ∨ s.topHere t.domain then s.turnLocal e else s.sendArrive e

/-! ## Arrivals -/

/-- What became of an arrival: counted for a generation (early or not), held, or refused. -/
inductive ArvOutcome where
  | counted (gen : BitVec 2) (early : Bool)
  | held
  | refused (code : ErrCode)
  deriving DecidableEq, Repr

/-- Judge an arrival whose entry is known: NAMED by slot, COUNTED by weight; a share in SHADOW or EXPELLED, or a domain
not yet open, holds it (R188 to R190, R193, R330, R397, R406). -/
def State.arvJudge (s : State) (e slot weight len : Nat) (n : Nat) : ArvOutcome :=
  match s.tumb? e with
  | none => .refused .noTumbler
  | some t =>
    if t.estate = .closing ∨ t.slice ≠ n then .refused .noTumbler
    else if (t.counted ∧ weight = 0) ∨ len ≠ arrivalLen t.op t.fmt t.lanes then .refused .arriveInvalid
    else if t.bound.isSome then .refused .notParticipant
    else if t.mstate = .shadow ∨ t.mstate = .expelled ∨ t.mstate = .joining ∨ t.mstate = .waiting
        ∨ (t.domain ≠ 0 ∧ (((s.slice n).bindings.find? fun b => b.tag = t.domain).map fun b => decide (b.mstate = .waiting)).getD true)
      then (if !t.counted ∧ !t.mask.getLsbD slot then .refused .notParticipant else .held)
    else if t.counted then
      (if t.count < t.target then .counted t.gen false
       else if t.early < t.target then .counted (t.gen + 1) true
       else .refused .overflow)
    else if !t.mask.getLsbD slot then .refused .notParticipant
    else if !t.arrNow.getLsbD slot then .counted t.gen false
    else if !t.arrNext.getLsbD slot then .counted (t.gen + 1) true
    else .held

/-- A contribution takes its place: after those of earlier ticks, and among those of its tick in the order of the sources, ports
by index, then contexts, then software (R209, R261). -/
def insertContrib (c : Contrib) : List Contrib → List Contrib
  | [] => [c]
  | x :: t => if x.aon = c.aon ∧ c.source < x.source then c :: x :: t else x :: insertContrib c t

/-- Count an arrival (R188, R190, R201, R209, R261). -/
def State.arvCount (s : State) (e src slot weight : Nat) (payload : List Byte) (early : Bool) : State :=
  match s.tumb? e with
  | none => s
  | some t =>
    let now := (s.now .tsu)
    let bit : BitVec 64 := BitVec.ofNat 64 (2 ^ slot)
    let cur := if early then t.early else t.count
    let excess := cur + weight - t.target
    let aon := s.tsu.com.time.aon
    let c : Contrib := ⟨src, slot, weight, payload, aon⟩
    let s := s.updTumb e fun t =>
      let t := if t.lastAon = aon ∧ src < t.lastSrc then t
        else { t with lastSrc := src, lastSlot := slot, lastGen := if early then t.gen + 1 else t.gen, lastNs32 := now.ns32,
                      lastAon := aon }
      if early then
        { t with arrNext := if t.counted then t.arrNext else t.arrNext ||| bit,
                 early := if t.counted then min t.target (t.early + weight) else t.early,
                 nextC := insertContrib c t.nextC, firstNext := some (t.firstNext.getD now.toNs) }
      else
        { t with arrNow := if t.counted then t.arrNow else t.arrNow ||| bit,
                 count := if t.counted then min t.target (t.count + weight) else t.count,
                 nowC := insertContrib c t.nowC, firstArv := some (t.firstArv.getD now.toNs) }
    let s := if t.counted ∧ 0 < excess then
        (s.updTumb e fun t => { t with overflow := true }).logT .overflow src excess (some t.slice)
      else s
    s.shareComplete e

/-- An arrival of a context or of slice software, or one of a port that is not stale. -/
def State.arrive (s : State) (e src slot weight n : Nat) (payload : List Byte) : State × ArvOutcome :=
  let o := s.arvJudge e slot weight payload.length n
  match o with
  | .counted _ early => (s.arvCount e src slot weight payload early, o)
  | .refused c => (s.logT c src 0 (some n), o)
  | .held => (s, o)

/-- A pending-arrival record of a port that an arrival matches. -/
def State.pendOf (s : State) (p e slot : Nat) : Option PendArv :=
  (s.port p).pend.find? fun r => r.entry = e && r.slot = slot

/-- The pending-arrival record ends (R342). -/
def State.endPend (s : State) (p e slot : Nat) : State := s.updPort p fun q => { q with pend := dropPend e slot q.pend }

/-- A PORT record for a command (R240). -/
def State.portRecord (s : State) (p : Nat) (n sgen : Nat) (e : Nat) (code : ErrCode) (detail : Nat) : State :=
  let t := s.tumb? e
  s.writeRecord { s.blankRec 2 n with sgen, code := code.value, source := srcPort p, detail := BitVec.ofNat 32 detail,
                                      domain := (t.map fun x => x.domain.toNat).getD 0, index := (t.map (·.index)).getD 0 }

/-- The engine has ended the command that made an arrival. -/
def State.engineDone (s : State) (p n sgen : Nat) : State :=
  s.updPort p fun q => { q with atEngine := q.atEngine.erase (n, sgen) }

/-- An arrival on a launch port's interface: stale work refused, a stale record discarded, counted, held or refused
(R189, R192, R193, R197, R242, R375). -/
def State.portArrive (s : State) (a : PortArv) : State :=
  let p := a.port
  let src := srcPort p
  let n := a.slice
  let stale := ((s.pendOf p a.entry a.slot).map (·.stale)).getD false
  let finish : State → State := fun s => (s.endPend p a.entry a.slot).engineDone p n a.sgen
  let refuse : State → ErrCode → State := fun s c =>
    (finish (s.logT c src 0 (some n))).portRecord p n a.sgen a.entry c 0
  if (s.slice n).state = .free ∨ (s.slice n).sgen ≠ a.sgen then refuse s .sliceStale
  else if (s.slice n).state = .halted then refuse s .aborted
  else if stale then
    let short := ((s.tumb? a.entry).map (·.short)).getD false
    let s := s.updTumb a.entry fun t => { t with stale := min (t.stale + 1) 0xFF }
    let s := finish s
    if short then s else (s.logT .genSkip src 0 (some n)).portRecord p n a.sgen a.entry .genSkip 0
  else
    let o := s.tumb? a.entry
    let want := (o.map fun t => arrivalBeats t.op t.fmt t.lanes).getD 0
    let len := (o.map fun t => arrivalLen t.op t.fmt t.lanes).getD 0
    if o.isSome ∧ ((o.map (·.slice)).getD n = n) ∧ a.beats ≠ want ∧ (o.map (·.estate)) ≠ some .closing then
      refuse s .arriveInvalid
    else
      let payload := padTo len a.data
      match s.arrive a.entry src a.slot a.weight n payload with
      | (s, .counted g _) => (finish s).updPort p fun q => { q with arvAt := q.arvAt ++ [(a.entry, g)] }
      | (s, .refused c) => (finish s).portRecord p n a.sgen a.entry c 0
      | (s, .held) =>
        let s := s.updPort p fun q => { q with held := some a }
        s.updTumb a.entry fun t => { t with heldArv := t.heldArv ++ [⟨src, a.slot, a.weight, payload, some p, none⟩] }

/-- Held arrivals in ascending slot order (R195). -/
def insertHeld (x : HeldArv) : List HeldArv → List HeldArv
  | [] => [x]
  | y :: t => if x.slot < y.slot then x :: y :: t else y :: insertHeld x t

/-- The completion record of a clause whose arrival was refused or discarded with a code (R187, R193, R209). DESIGN CHOICE (log
entry 149): it has the KIND of a WAIT record. -/
def State.arriveRecord (s : State) (c e : Nat) (code : ErrCode) : State :=
  match Tab.get s.tsu.contexts c with
  | none => s
  | some x => s.waitRecord x.slice (srcCtx x.record) (s.tumb? e) none 0 code

/-- An arrival of a context is over: its clause continues or waits on the generation counted (R300). -/
def State.ctxArrived (s : State) (c e slot : Nat) (o : ArvOutcome) : State :=
  match Tab.get s.tsu.contexts c with
  | none => s
  | some x =>
    let k := ((s.slice x.slice).clause x.sentence (x.altClause.getD x.clause)).getD 0
    let verb := clauseBits k 127 124
    match o with
    | .held => s.ctxBlock c (.arrival e) x.topnd
    | .refused code => (s.arriveRecord c e code).ctxNext c
    | .counted g _ =>
      let s := s.updCtx c fun x => { x with lastArv := some (e, g), lastSlot := slot }
      if verb = 2 then s.ctxNext c
      else
        let dataOut := clauseBits k 69 58
        let t := s.tumb? e
        if x.farRefused then s.ctxWaitEnds c e g .farTime
        else if (t.map fun t => decide (t.gen = g + 1)).getD false then s.ctxResult c e dataOut slot
        else (s.ctxBlock c (.turn e g dataOut slot) x.topnd).boost x.slice e x.dCtx

/-- On the tick after a turn held arrivals are released in slot order and judged again, and a share that is then
complete completes (R195). -/
def State.releaseHeld (s : State) (e : Nat) : State :=
  match s.tumb? e with
  | none => s
  | some t =>
    let order := t.heldArv.foldl (fun l h => insertHeld h l) []
    let s := s.updTumb e fun t => { t with heldArv := [], release := false }
    let s := order.foldl (fun s h =>
      match s.arrive e h.source h.slot h.weight t.slice h.payload with
      | (s, .held) => s.updTumb e fun t => { t with heldArv := t.heldArv ++ [h] }
      | (s, o) =>
        let s := match h.port with
          | some p =>
            let a := (s.port p).held
            let s := match a with
              | some a => ((s.endPend p e h.slot).engineDone p a.slice a.sgen)
              | none => s
            let s := s.updPort p fun q => { q with held := none }
            match o with
            | .refused c => s.portRecord p t.slice ((a.map (·.sgen)).getD 0) e c 0
            | .counted g _ => s.updPort p fun q => { q with arvAt := q.arvAt ++ [(e, g)] }
            | .held => s
          | none => s
        match h.ctx with
        | some c => s.ctxArrived c e h.slot o
        | none => s) s
    s.shareComplete e

/-! ## Closing -/

/-- Discard held arrivals with a code, which appears in the completion of the command or clause; at a close the contexts go on
(R187, R209, R242). -/
def State.discardHeld (s : State) (e : Nat) (code : ErrCode) : State :=
  match s.tumb? e with
  | none => s
  | some t =>
    let s := s.updTumb e fun t => { t with heldArv := [] }
    t.heldArv.foldl (fun s h =>
      let s := s.logT code h.source 0 (some t.slice)
      let s := match h.port with
        | some p =>
          match (s.port p).held with
          | some a =>
            let s := s.updPort p fun q => { q with held := none }
            ((s.endPend p e h.slot).engineDone p a.slice a.sgen).portRecord p a.slice a.sgen e code 0
          | none => s
        | none => s
      match h.ctx with
      | some c => if code = .tumblerClosed then (s.arriveRecord c e code).ctxNext c else s.arriveRecord c e code
      | none => s) s

/-- Complete the waiters of a tumbler with a code (R187, R196). -/
def State.failWaiters (s : State) (e : Nat) (code : ErrCode) : State :=
  let s := (s.waitingCtxs e none).foldl (fun s w => s.ctxWaitEnds w.1 e w.2.1 code) s
  let s := (s.softWaits e none).foldl (fun s w => s.endSoftWait w.1 none code) s
  (s.tsu.launches.filter fun p => p.2.entry = e && !p.2.turned).foldl (fun s p => s.launchDropped p.1 code 0) s

/-- Some frame of a tumbler is still queued or marked ready (R187). -/
def State.framesOf (s : State) (t : Tumbler) : Bool :=
  t.domain ≠ 0 && (s.waitsToLeave t.heads 0 || s.waitsToLeave t.heads 1)

/-- Free a CLOSING entry once no frame of it remains (R187). -/
def State.freeTumb (s : State) (e : Nat) : State :=
  match s.tumb? e with
  | none => s
  | some t => if t.estate = .closing ∧ !s.framesOf t then s.updTsu fun x => { x with tumb := Tab.del x.tumb e } else s

/-- Close a tumbler (R187). -/
def State.closeTumb (s : State) (e : Nat) : State :=
  let s := s.failWaiters e .tumblerClosed
  let s := s.discardHeld e .tumblerClosed
  let s := s.updTumb e fun t => { t with estate := .closing, carry := none }
  let s := s.updTsu fun x => { x with ports := Tab.map x.ports fun _ q => { q with arvAt := q.arvAt.filter fun y => y.1 ≠ e } }
  let s := match (s.tumb? e).bind (·.bound) with
    | some b => s.updTsu fun t => { t with calendar := Tab.map t.calendar fun k v =>
        if k = b then { v with bytes := v.bytes.set 2 (byteAt v.bytes 2 &&& 0xF7) } else v }
    | none => s
  s.freeTumb e

/-- Scan rows a descriptor takes (R261). -/
def scanRows (d : TumbDesc) : Nat := if isScan d.op then popCount d.mask else 0

/-- Scan rows in use, of a slice or of all (R261). -/
def State.rowsUsed (s : State) (n : Option Nat) : Nat :=
  ((s.tsu.tumb.filter fun p => n = none || n = some p.2.slice).map fun p =>
    if isScan p.2.op then popCount p.2.mask else 0).sum

/-- Why a creation is refused, in the order of R186, R252 and R261. -/
def State.createRefusal (s : State) (n : Nat) (tag : BitVec 24) (d : TumbDesc) : Option ErrCode :=
  let v := s.slice n
  if (s.findTumb n tag d.index).isSome then some .nameInUse
  else if v.tumbQ ≤ (s.tsu.tumb.filter fun p => p.2.slice = n).length then some .noTumbler
  else if tag ≠ 0 ∧ ((s.domRec tag).map (·.tumblers)).getD 0 ≤ d.index then some .noTumbler
  else if !descOk d.op d.fmt d.lanes d.counted then some .combineUnsupported
  else if v.scanQ < s.rowsUsed (some n) + scanRows d then some .scanStoreFull
  else none

/-- Create a tumbler from its descriptor (R186). -/
def State.createTumb (s : State) (n : Nat) (tag : BitVec 24) (d : TumbDesc) (fromImage : Bool) : State :=
  match Tab.freeKey s.tsu.tumb 4096 with
  | none => s
  | some e =>
    let mstate := if tag = 0 then MState.member
      else (((s.slice n).bindings.find? fun b => b.tag = tag).map (·.mstate)).getD .member
    let t : Tumbler :=
      { index := d.index, slice := n, domain := tag, counted := d.counted, estate := .active, mask := d.mask,
        target := d.target, op := d.op, fmt := d.fmt, lanes := d.lanes, gen := 0, arrNow := 0, arrNext := 0,
        heldArv := [], release := false, count := 0, early := 0, shareDone := false, doneNs := 0, short := false,
        overflow := false, stale := 0, nowC := [], nextC := [], firstArv := none, firstNext := none, lastSrc := 0,
        lastSlot := 0, lastGen := 0, lastNs32 := 0, lastAon := 0, turnNs32 := 0, est := 0, turns := 0, result := none,
        shortDue := false, carry := none, mstate := if mstate = .waiting then .member else mstate, noJoin := false,
        bound := none, fromImage }
    let s := s.updTsu fun x => { x with tumb := Tab.put x.tumb e t }
    if mstate = .member then s.emptyOpens e else s

/-! ## Ports -/

/-- A launch-port reset: staging and pending arrivals, LP_PORT_RESET, a PORT record to the slices that held commands
there; a fired command whose arrival is pending is arrived for without payload, and SHORT is due (R421, R422). -/
def State.portReset (s : State) (p : Nat) : State :=
  let q := s.port p
  let slices := ((q.staging.map fun e => (e.cmd.slice, e.cmd.sgen)) ++ (q.fired.map fun f => (f.cmd.slice, f.cmd.sgen))
    ++ q.atEngine).eraseDups
  let owed := q.pend
  let s := s.updTsu fun t => { t with absorbed := min (t.absorbed + q.fired.length) 0xFFFF }
  let s := s.updPort p fun q =>
    { q with staging := [], pend := [], fired := [], atEngine := [], held := none, fenceBusy := false, fenceHeld := [],
             abort := none, abortDue := [], hold := [], direct := [], arvAt := [], resetAt := some s.tsu.com.time.aon }
  let s := owed.foldl (fun s r =>
    match s.tumb? r.entry with
    | none => s
    | some t =>
      if r.stale ∨ (s.slice r.slice).sgen ≠ r.sgen ∨ t.slice ≠ r.slice then s
      else
        match s.arvJudge r.entry r.slot 1 (arrivalLen t.op t.fmt t.lanes) r.slice with
        | .counted _ early =>
          let s := s.updTumb r.entry fun t => { t with shortDue := true }
          s.arvCount r.entry (srcPort p) r.slot 1 [] early
        | _ => s) s
  slices.foldl (fun s x => s.portRecord p x.1 x.2 0 .portReset 0) s

/-- LP_FENCE_DONE, or the 20 µs limit: the first held fenced launch is presented, or dropped with its port reset (R142). -/
def State.fenceTaken (s : State) (p : Nat) (hung : Bool) : State :=
  match (s.port p).fenceHeld with
  | [] => if hung then s else s.updPort p fun q => { q with fenceBusy := false }
  | (f, since) :: rest =>
    let wait := ((s.now .tsu).toNs16 - since) / 65536
    if hung then
      if wait < 20000 then s
      else
        let s := (s.logT .fenceHung (srcPort p) 0 (some f.cmd.slice)).healthSend .fenceHung
        s.portReset p
    else
      let s := s.updRegion f.region fun g => { g with fenceMiss := min (g.fenceMiss + 1) 0xFF }
      let s := s.updPort p fun q => { q with fenceHeld := rest, fenceBusy := false, fired := q.fired ++ [f] }
      let s := s.noteCode f .fenceMiss
      s.writeRecord { s.blankRec 2 f.cmd.slice with
        sgen := f.cmd.sgen, short := f.short, far := f.far, code := ErrCode.fenceMiss.value, source := srcPort p,
        gen := f.gen.toNat, domain := f.domain.toNat, index := f.index, step16 := f.cmd.step16.toNat, c := f.c,
        t := BitVec.ofNat 32 (f.t / 65536), members := f.members, detail := BitVec.ofInt 32 wait }

end Sys2Proof.Machine
end

