-- ==== Sys2Proof/Machine/Tumblers.lean ====
section
/-! DEFINITION. The tumbler commands of a TSU: creation and closing, arrivals, turns received, software waits, lending
and the debugger view (R184 to R216, R465, R466). -/

namespace Sys2Proof.Machine

open Sys2Proof

/-- A slice-page operation of a FREE or RESETTING slice has no effect; it sets STATE and records ONE_SLICE_STATE
(R463). -/
def State.spGuard (s : State) (n off : Nat) (f : State → State) : State :=
  if 64 ≤ n then s
  else match (s.slice n).state with
    | .free | .resetting =>
      (s.updCom .tsu fun c => c.accessErr 2 (0x10000 + 0x1000 * n + off)).logT .sliceState (srcSlice n) 0 (some n)
    | _ => f s

/-- A creation descriptor from its 16 bytes (R292). -/
def TumbDesc.ofBytes (b : List Byte) : TumbDesc :=
  let h := beNat b 0 2
  let counted := bitOf h 14
  { dom := bitOf h 15, counted, index := h % 4096, op := beNat b 2 1 % 32, fmt := beNat b 3 1,
    lanes := beNat b 4 2 % 512, target := if counted then beNat b 6 2 else 0,
    mask := if counted then 0 else BitVec.ofNat 64 (beNat b 8 8) }

/-- The bytes of consecutive words of a slice page. -/
def Slice.pageBytes (v : Slice) (off words : Nat) : List Byte :=
  (List.range words).flatMap fun i => natBytes (v.word (off + 4 * i)) 4

/-- The tag that DOM and BINDING name in a slice page; none without such a binding (R463). -/
def Slice.nameTag (v : Slice) (dom : Bool) (binding : Nat) : Option (BitVec 24) :=
  if dom then (v.bindings[binding]?).map (·.tag) else some 0

/-- The entry that a NAME field of a slice page names (R463). -/
def State.named (s : State) (n w : Nat) : Option Nat :=
  ((s.slice n).nameTag (bitOf w 12) (bitsOf w 16 13)).bind fun tag => s.findTumb n tag (bitsOf w 11 0)

/-- CREATE of a slice page (R186, R463). -/
def State.tumblerCreate (s : State) (n binding : Nat) : State :=
  s.spGuard n 0x0D0 fun s =>
    let v := s.slice n
    let d := TumbDesc.ofBytes (v.pageBytes 0x0C0 4)
    match v.nameTag d.dom binding with
    | none => s.spCode n 0x0D0 .noTumbler
    | some tag =>
      match s.createRefusal n tag d with
      | some c => s.spCode n 0x0D0 c
      | none => (s.createTumb n tag d false).spCode n 0x0D0 .none

/-- TUMBLER_CREATE (R186). -/
def execTumblerCreate (slice binding : Nat) (s : State) : Outcome := .next (s.tumblerCreate slice binding)

/-- CLOSE of a slice page (R187, R463). -/
def State.tumblerClose (s : State) (n binding : Nat) : State :=
  s.spGuard n 0x0D0 fun s =>
    let v := s.slice n
    let d := TumbDesc.ofBytes (v.pageBytes 0x0C0 4)
    match (v.nameTag d.dom binding).bind fun tag => s.findTumb n tag d.index with
    | none => s.spCode n 0x0D0 .noTumbler
    | some e => (s.closeTumb e).spCode n 0x0D0 .none

/-- TUMBLER_CLOSE (R187). -/
def execTumblerClose (slice binding : Nat) (s : State) : Outcome := .next (s.tumblerClose slice binding)

/-- TUMBLER_FREE (R187). -/
def execTumblerFree (entry : Nat) (s : State) : Outcome := .next (s.freeTumb entry)

/-- PORT_ARRIVAL: an arrival at a port whose interface is not held (R189, R192). -/
def execPortArrival (a : PortArv) (s : State) : Outcome :=
  .next (if 1024 ≤ a.port ∨ (s.port a.port).held.isSome ∨ 64 ≤ a.slot then s else (s.portArrive a).startsWaiting s a.port)

/-- A software arrival is accepted or refused (R465). -/
def State.softArrive (s : State) (n e : Nat) (payload : List Byte) : State :=
  let w := (s.slice n).word 0x060
  let s := s.updSlice n fun v => { v with arvBusy := false }
  match s.arrive e (srcSlice n) (bitsOf w 22 17) (bitsOf w 30 23) n payload with
  | (s, .counted g early) =>
    (s.updSlice n fun v => { v with arvGen := g, arvEarly := early }).spCode n 0x06C .none
  | (s, .held) => s.spCode n 0x06C .arriveHeld
  | (s, .refused c) => s.updSlice n fun v => { v with codes := Tab.put v.codes 0x06C c.value }

/-- GO of a software arrival: the payload is read first, unless its address is 0 (R465). -/
def State.softwareArrive (s : State) (n : Nat) : State :=
  s.spGuard n 0x06C fun s =>
    let v := s.slice n
    if v.arvBusy then s
    else match s.named n (v.word 0x060) with
      | none => s.spCode n 0x06C .noTumbler
      | some e =>
        let addr := v.word 0x068 * 4294967296 + bitsOf (v.word 0x064) 31 3 * 8
        let len := ((s.tumb? e).map fun t => arrivalLen t.op t.fmt t.lanes).getD 0
        if addr = 0 ∨ len = 0 then s.softArrive n e []
        else (s.updSlice n fun v => { v with arvBusy := true }).nwRead (.arrival n) v.pasid addr len

/-- SOFTWARE_ARRIVE (R465). -/
def execSoftwareArrive (slice : Nat) (s : State) : Outcome := .next (s.softwareArrive slice)

/-- HELD_ARRIVAL_RELEASE: on the tick after a turn (R195). -/
def execHeldArrivalRelease (entry : Nat) (s : State) : Outcome :=
  .next (if ((s.tumb? entry).map (·.release)).getD false then s.releaseHeld entry else s)

/-! ## Turns received -/

/-- The frames of a down message, from its first frame; none for a descriptor R251 does not allow, or an ALLOC flag
that disagrees with OP (R207, R226, R276). -/
def downCount (launch : Bool) (f : Frame) : Option Nat :=
  if !descAllowed f.fOp f.fFmt f.fLanes ∨ (launch ∧ bitOf (f.byte 30) 5 ≠ decide (f.fOp = 0x0C)) then none
  else some (1 + moreFrames (if launch then 12 else 32) (dataLen f.fOp f.fFmt f.fLanes) + (allocLen f.fOp f.fLanes + 47) / 48)

/-- T of a launch frame is accepted, or refused with a code: an invalid far time, or one too long ago (R37, R51, R225, R226). -/
def State.acceptT (s : State) (far : Bool) (f : Frame) (n src : Nat) : State × Option Time80 × ErrCode :=
  let t := time80At f.body 24
  if far ∧ !t.valid then (s.logT .timeInvalid src 0 (some n), none, .timeInvalid)
  else
    let x := if far then t.toNs16 + f.nat 28 2 else extendNs16 (s.now .tsu) f.time (f.nat 28 2)
    match s.accept x (some n) with
    | (s, some t) => (s, some t, .none)
    | (s, none) => (s, none, .farTime)

/-- The result that the first frame of a down message carries, with T refused or kept (R225, R228). -/
def State.downResult (s : State) (launch short : Bool) (f : Frame) (n src : Nat) : State × Result :=
  let far := launch && f.f48
  let cw : Word := if launch then BitVec.ofNat 32 (f.nat 32 4) else f.time
  let a := if launch then s.acceptT far f n src else (s, none, .none)
  let blank : Result :=
    { gen := f.gen, c := extendNs (s.now .tsu) cw * 65536, members := f.fMembers, latestDie := f.fDie,
      latestNs := f.fNs, short := short || f.f49, t := a.2.1, far,
      tRefused := a.2.2, dropLate := launch && bitsOf (f.byte 30) 7 6 = 1, calendar := false,
      step16 := f.step16, op := f.fOp, fmt := f.fFmt, lanes := f.fLanes,
      data := List.replicate (dataLen f.fOp f.fFmt f.fLanes) 0,
      alloc := List.replicate (allocLen f.fOp f.fLanes) 0, first := if launch then 12 else 32, held := [], whole := false,
      rows := [], carried := [] }
  let body := if launch then f.body.drop 36 else f.body.drop 16
  (a.1, blank.fill 0 (body.take (min blank.first blank.data.length)))

/-- The arrivals missing at a turn, the shortfall of R200. -/
def Tumbler.shortfall (t : Tumbler) : Nat :=
  if t.counted then t.target - t.count else popCount (t.mask &&& ~~~ t.arrNow)

/-- At an underflow, the pending-arrival records owed to the turned generation become STALE (R197). -/
def State.markStale (s : State) (e : Nat) (t : Tumbler) : State :=
  s.updTsu fun x => { x with ports := Tab.map x.ports fun _ q =>
    { q with pend := q.pend.map fun r =>
      if r.entry = e ∧ (t.counted ∨ !t.arrNow.getLsbD r.slot) then { r with stale := true } else r } }

/-- A share and its domain enter SHADOW: counts and marks are cleared (R397). -/
def State.enterShadow (s : State) (e : Nat) (m : MState) : State :=
  s.updTumb e fun t =>
    { t with mstate := m, arrNow := 0, arrNext := 0, count := 0, early := 0, nowC := [], nextC := [],
             shareDone := false, firstArv := none, firstNext := none }

/-- A share outside its domain's rounds adopts a turn: nothing is armed, and the step number is extended from STEP16
(R163, R397). -/
def State.adopt (s : State) (e src : Nat) (t : Tumbler) (r : Result) : State :=
  let l := s.stepOf t.slice t.domain
  let d := sdiff 16 r.step16.toNat (l % 65536 : Nat)
  if d = -32768 then
    (s.updTumb e fun t => { t with noJoin := true }).logT .joinRefused src 1 (some t.slice)
  else
    let s := s.updBinding t.slice t.domain fun b => { b with step := ((l : Int) + d).toNat }
    s.updTumb e fun t => { t with gen := r.gen + 1, result := some { r with t := none }, short := r.short,
                                  turnNs32 := BitVec.ofInt 32 (r.c / 65536), turns := t.turns + 1 }

/-- A turn at or after JOIN_AT makes a share a member; its domain is joined when every share is (R398). -/
def State.joinTurn (s : State) (e n : Nat) (tag : BitVec 24) (r : Result) : State :=
  let l := s.stepOf n tag
  let s := s.updTumb e fun t => { t with mstate := .member, estate := .active }
  let s := s.updBinding n tag fun b => { b with step := ((l : Int) + sdiff 16 r.step16.toNat (l % 65536 : Nat)).toNat }
  let s := s.turnApply e r
  if s.tsu.tumb.any fun p => p.2.slice = n && p.2.domain = tag && p.2.mstate ≠ .member then s
  else (s.updBinding n tag fun b => { b with mstate := .member }).setEvt .tsu 0x780 0x10

/-- A turn two or three generations ahead: the share is STUCK and enters SHADOW (R196, R397). -/
def State.skipTurn (s : State) (e n src : Nat) (tag : BitVec 24) : State :=
  let s := s.logT .genSkip src 0 (some n)
  let s := s.failWaiters e .genSkip
  let s := s.enterShadow e .shadow
  ((s.updTumb e fun t => { t with estate := .stuck }).updBinding n tag fun b => { b with mstate := .shadow }).joinSoon tag

/-- The turn of a member share, with the underflow rule (R196, R200). -/
def State.memberTurn (s : State) (e n src : Nat) (t : Tumbler) (launch : Bool) (f : Frame) : State :=
  let under := !t.shareDone
  let s := if under then ((s.withdrawArrive t).markStale e t).logT .underflow src t.shortfall (some n) else s
  let x := s.downResult launch under f n src
  x.1.turnApply e x.2

/-- The first frame of a down message at a member TSU (R163, R196, R200, R228, R398, R402). -/
def State.downFirst (s : State) (src : Nat) (launch : Bool) (f : Frame) : State :=
  match s.sliceOf f.domain with
  | none => s.logT .domainStale src
  | some n =>
    match (s.findTumb n f.domain f.fIndex).bind fun e => (s.tumb? e).map fun t => (e, t) with
    | none => s.logT .noTumbler src 0 (some n)
    | some (e, t) =>
      let b := (s.slice n).bindings.find? fun b => b.tag = f.domain
      let c := extendNs (s.now .tsu) (if launch then BitVec.ofNat 32 (f.nat 32 4) else f.time)
      let reached : Option Int → Bool := fun w => (w.map fun w => decide (w ≤ c)).getD false
      let outside := sdiff 16 f.step16.toNat (s.stepOf n f.domain % 65536 : Nat) = -32768
      let s := if reached (b.bind (·.expelAt)) ∧ t.mstate ≠ .expelled then
          (s.enterShadow e .expelled).updBinding n f.domain fun b => { b with mstate := .expelled } else s
      let t := (s.tumb? e).getD t
      let joins := t.mstate = .joining ∧ reached (b.map (·.joinAt))
      if t.mstate = .shadow ∨ t.mstate = .expelled ∨ (t.mstate = .joining ∧ !joins) then
        if t.result.isSome ∧ f.gen + 1 = t.gen then s
        else
          let x := s.downResult launch false f n src
          x.1.adopt e src t x.2
      else if outside then s.logT .stepWindow src 0 (some n)
      else if joins then
        let x := s.downResult launch false f n src
        x.1.joinTurn e n f.domain x.2
      else if f.gen + 1 = t.gen then s
      else if f.gen ≠ t.gen then s.skipTurn e n src f.domain
      else s.memberTurn e n src t launch f

/-- Lanes of an entry's result are held now: writes, conjunctions and launches that waited for them run (R265,
R267). -/
def State.lanesFilled (s : State) (e : Nat) : State :=
  let s := s.carryUpdate e
  let s := s.tsu.contexts.foldl (fun s p => match p.2.block with
    | .lanes e' =>
      if e' ≠ e then s
      else
        let k := ((s.slice p.2.slice).clause p.2.sentence (p.2.altClause.getD p.2.clause)).getD 0
        s.ctxResult p.1 e (if clauseBits k 127 124 = 3 then clauseBits k 57 46 else clauseBits k 69 58) p.2.lastSlot
    | .conj e' => if e' ≠ e then s else s.updCtx p.1 fun x => { x with state := .ready, block := .none }
    | _ => s) s
  (s.tsu.launches.filter fun p => p.2.turned).foldl (fun s p => s.launchTurn p.1) s

/-- Frame `k` of a down message fills the result of its generation, whichever copy it is of (R265). -/
def State.downFill (s : State) (launch : Bool) (h f : Frame) (k : Nat) : State :=
  match (s.sliceOf h.domain).bind fun n => s.findTumb n h.domain h.fIndex with
  | none => s
  | some e =>
    match (s.tumb? e).bind (·.result) with
    | none => s
    | some r =>
      if r.gen ≠ h.gen ∨ r.calendar then s
      else
        let body := if k ≠ 0 then f.body else if launch then f.body.drop 36 else f.body.drop 16
        (s.updTumb e fun t => { t with result := some (r.fill k (if k = 0 then body.take r.data.length else body)) }).lanesFilled e

/-- A frame of a down message received at a TSU: the first is judged on its own tick, the others fill the result; a
frame that breaks the count is discarded with its message, and one refused at its first frame up to its last
(R207, R265). -/
def State.downRx (s : State) (l : LinkId) (f : Frame) (launch : Bool) : State :=
  let cls := if launch then 1 else 2
  let held := (s.link l).chainOf cls
  let put : List Frame → State := fun c => s.updLink l fun k => k.setChain cls c
  let h := held.headD f
  match downCount launch h with
  | none => let s := put (if f.more then [h] else []); if held = [] then s.malformed l else s
  | some n =>
    let k := held.length
    if f.more ≠ decide (k + 1 < n) then (put []).malformed l
    else
      let s := put (if f.more then held ++ [f] else [])
      (if k = 0 then s.downFirst (srcLane l.port) launch f else s).downFill launch h f k

/-- TURN_RX at a member TSU (R196). -/
def State.turnRx (s : State) (l : LinkId) (rx : Rx) : State :=
  if l.node = .gd then s
  else match s.receive l rx 0x11 with
    | (s, some f) => s.downRx l f false
    | (s, none) => s

/-- TURN_RX (R196). -/
def execTurnRx (l : LinkId) (rx : Rx) (s : State) : Outcome := .next (s.turnRx l rx)

/-- LAUNCH_FRAME_RX at a member TSU (R228). -/
def State.launchFrameRx (s : State) (l : LinkId) (rx : Rx) : State :=
  if l.node = .gd then s
  else match s.receive l rx 0x08 with
    | (s, some f) => s.downRx l f true
    | (s, none) => s

/-- LAUNCH_FRAME_RX (R228). -/
def execLaunchFrameRx (l : LinkId) (rx : Rx) (s : State) : Outcome := .next (s.launchFrameRx l rx)

/-! ## Software waits -/

/-- The deadline that a wait slot carries (R198, R466). -/
def State.waitDeadline (s : State) (n w1 w2 w3 : Nat) : State × Option (Except ErrCode (Option Time80)) :=
  if !bitOf w3 16 then (s, some (.ok none))
  else if bitOf w3 17 then
    let t : Time80 := ⟨w3 % 65536 * 4294967296 + w2, w1, 0⟩
    if !t.valid then (s, some (.error .timeInvalid))
    else match s.accept t.toNs16 (some n) with
      | (s, some t) => (s, some (.ok (some t)))
      | (s, none) => (s, none)
  else match s.accept (extendNs (s.now .tsu) (BitVec.ofNat 32 w1) * 65536) (some n) with
    | (s, some t) => (s, some (.ok (some t)))
    | (s, none) => (s, none)

/-- A refused ARM: a WAIT record with the code, and no wait (R466). -/
def State.waitRefused (s : State) (n : Nat) (e : Option Nat) (index : Nat) (w : BitVec 2) (code : ErrCode) (logIt : Bool) :
    State :=
  let s := if logIt then s.logT code (srcSlice n) 0 (some n) else s
  s.writeRecord { s.blankRec 3 n with
    code := code.value, source := srcSlice n, gen := w.toNat, index,
    domain := ((e.bind s.tumb?).map fun t => t.domain.toNat).getD 0 }

/-- ARM of a wait slot (R198, R466). -/
def State.waitArm (s : State) (n k : Nat) : State :=
  let off := 0x080 + 0x10 * k
  if 4 ≤ k then s
  else s.spGuard n (off + 12) fun s =>
    let v := s.slice n
    let w0 := v.word off
    let w : BitVec 2 := BitVec.ofNat 2 (bitsOf w0 18 17)
    let e := s.named n w0
    let index := bitsOf w0 11 0
    if (Tab.get s.tsu.waits (4 * n + k)).isSome then s.waitRefused n e index w .waitFull true
    else match e.bind fun e => (s.tumb? e).map fun t => (e, t) with
      | none => s.waitRefused n e index w .noTumbler true
      | some (e, t) =>
        if w = t.gen + 2 then s.waitRefused n (some e) index w .genSkip true
        else match s.waitDeadline n (v.word (off + 4)) (v.word (off + 8)) (v.word (off + 12)) with
          | (s, none) => s.waitRefused n (some e) index w .farTime false
          | (s, some (.error c)) => s.waitRefused n (some e) index w c true
          | (s, some (.ok d)) =>
            if w + 1 = t.gen then s.waitRecord n (srcSlice n) (some t) t.result w .none
            else
              let o := s.tsu.order
              s.updTsu fun x => { x with waits := Tab.put x.waits (4 * n + k) ⟨e, w, d, o⟩, order := o + 1 }

/-- WAIT_ARM (R466). -/
def execWaitArm (slice k : Nat) (s : State) : Outcome := .next (s.waitArm slice k)

/-- A software wait's deadline is reached (R198). -/
def State.waitTimeout (s : State) (n k : Nat) : State :=
  match Tab.get s.tsu.waits (4 * n + k) with
  | some ⟨_, _, some d, _⟩ =>
    if d.toNs16 ≤ (s.now .tsu).toNs16 then s.endSoftWait (4 * n + k) none .waitTimeout else s
  | _ => s

/-- WAIT_TIMEOUT (R198). -/
def execWaitTimeout (slice k : Nat) (s : State) : Outcome := .next (if 4 ≤ k then s else s.waitTimeout slice k)

/-! ## Lending and the debugger view -/

/-- BUDGET_RECLAIM at P − RECLAIM_LEAD (R210). -/
def execBudgetReclaim (port : Nat) (s : State) : Outcome :=
  .next (match (s.port port).lent with
    | some (til, _) => if 0 ≤ sdiff 32 (s.now .tsu).ns32.toNat til.toNat then s.reclaim port else s
    | none => s)

/-- PM_LEND_EVENT: the oldest event passes on the handshake (R211). -/
def execPmLendEvent (s : State) : Outcome := .next (s.updTsu fun t => { t with lend := t.lend.drop 1 })

/-- The waits on a tumbler's generation: software waits, contexts and staged launches (R213). -/
def State.waitCount (s : State) (e : Nat) (g : BitVec 2) : Nat :=
  (s.softWaits e (some g)).length + (s.waitingCtxs e (some g)).length
    + (s.tsu.launches.filter fun p => p.2.entry = e && p.2.gen = g).length

/-- FIRST: the source of the oldest wait (R213). -/
def State.firstWait (s : State) (e : Nat) : Nat :=
  let soft := (s.tsu.waits.filter fun p => p.2.entry = e).map fun p => (p.2.order, srcSlice (p.1 / 4))
  let ctx := s.tsu.contexts.filterMap fun p => match p.2.block with
    | .turn e' _ _ _ => if e' = e then some (p.2.order, srcCtx p.2.record) else none
    | _ => none
  let lau := (s.tsu.launches.filter fun p => p.2.entry = e).map fun p => (p.2.order, srcCtx p.2.record)
  let all := soft ++ ctx ++ lau
  ((all.foldl (fun (m : Option (Nat × Nat)) x => match m with
    | some y => if x.1 < y.1 then some x else some y
    | none => some x) none).map (·.2)).getD 0

/-- The 17 words of the debugger view of an entry (R213). -/
def State.tumbWords (s : State) (e : Nat) : List Word :=
  match s.tumb? e with
  | none => List.replicate 17 0
  | some t =>
    let m64 : BitVec 64 → List Word := fun m => [BitVec.ofNat 32 m.toNat, BitVec.ofNat 32 (m.toNat / 4294967296)]
    let heldMask : BitVec 64 := t.heldArv.foldl (fun m h => m ||| BitVec.ofNat 64 (2 ^ h.slot)) 0
    let sent := t.shareDone && t.domain ≠ 0 && !s.topHere t.domain && !s.arriveQueued t
    let w : Nat → Word := BitVec.ofNat 32
    [ w (t.index + t.slice * 4096 + b2n (t.domain ≠ 0) * 2 ^ 18 + b2n t.counted * 2 ^ 19 + t.estate.code * 2 ^ 20),
      w t.domain.toNat,
      w (t.gen.toNat + 4 * b2n t.shareDone + 8 * b2n sent + 16 * b2n t.short + 32 * b2n t.overflow
        + 64 * b2n (t.heldArv ≠ []) + t.stale * 256 + t.early * 65536),
      w ((if t.counted then t.count else popCount t.arrNow) + (if t.counted then t.target else popCount t.mask) * 65536) ]
      ++ m64 t.mask ++ m64 t.arrNow ++ m64 t.arrNext ++ m64 heldMask
      ++ [ w (min 255 (s.waitCount e t.gen) + 256 * min 255 (s.waitCount e (t.gen + 1)) + 65536 * s.firstWait e),
           w (t.lastSrc + t.lastSlot * 65536 + t.lastGen.toNat * 2 ^ 22), t.lastNs32, t.turnNs32,
           w (t.est % 2 ^ 31 + b2n (decide (4 ≤ t.turns)) * 2 ^ 31) ]

/-- TUMBLER_SNAPSHOT: a write of TSU_TUMB_SEL (R212). -/
def execTumblerSnapshot (w : Word) (s : State) : Outcome :=
  .next ((s.setReg .tsu 0x408 (w &&& 0xFFF#32)).updTsu fun t => { t with tumbView := s.tumbWords (w.toNat % 4096) })

end Sys2Proof.Machine
end

