-- ==== Sys2Proof/Machine/OrderOps.lean ====
section
/-! DEFINITION. Shared operations of orders: slice aborts, fences, stops, starts and resumes, contradictory orders and
their records, and domain requests (R241 to R246, R367 to R376). -/

namespace Sys2Proof.Machine

open Sys2Proof

/-- An ORDER record (R369). -/
def State.orderRecord (s : State) (n : Nat) (o : Order) (code : ErrCode) : State :=
  s.writeRecord { s.blankRec 0x14 n with
    code := code.value, source := o.src,
    detail := BitVec.ofNat 32 (o.verb + 8 * (o.ctx.getD 0 % 32) + 256 * b2n o.ctx.isNone + 65536 * (o.seq % 65536)) }

/-- Log a loss (R373). -/
def State.conflict (s : State) (c : Conflict) : State :=
  if 16 ≤ s.tsu.conflicts.length then s.setEvt .tsu 0x6A4 0x20
  else s.updTsu fun t => { t with conflicts := t.conflicts ++ [c] }

/-- Two scopes overlap (R369, R372): a whole-slice scope overlaps every scope. -/
def overlap (a b : Order) : Bool := a.whole || b.whole || a.ctx.isNone || b.ctx.isNone || a.ctx = b.ctx

/-! ## Abort -/

/-- A port has a command of a slice: fired, held, taken or presented (R242). -/
def Port.hasSlice (q : Port) (n : Nat) : Bool :=
  (q.fired.any fun f => f.cmd.slice = n) || (q.atEngine.any fun x => x.1 = n) ||
    (q.fenceHeld.any fun x => decide (x.1.cmd.slice = n))

/-- The frames ABORT_DONE of a member TSU (R244). -/
def State.abortDoneFrame (s : State) (n : Nat) (tag : BitVec 24) (id done missing : Nat) (ns : Word) (die : Nat) : Frame :=
  mkFrame 0x0A 1 0 tag (BitVec.ofNat 16 (s.stepOf n tag)) (s.now .tsu).ns32
    (natBytes id 2 ++ natBytes done 3 ++ natBytes missing 3 ++ natBytes ns.toNat 4 ++ natBytes die 3)

/-- Mark ABORT_DONE ready for a domain abort (R242, R245); at a TSU that is the top node nothing leaves it. -/
def State.sendAbortDone (s : State) (n : Nat) (x : BitVec 24 × Nat) : State :=
  if s.topHere x.1 then s
  else
    let fl := s.domFlags x.1
    s.tsuUp fl.1 fl.2 1 0 [s.abortDoneFrame n x.1 x.2 1 0 (s.now .tsu).ns32 (s.tsu.dieId.getD 0)]

/-- Present RELEASE for a slice at every port that holds a HOLD of it (R340, R374). -/
def State.releaseAll (s : State) (n : Nat) : State :=
  let cmd : Command := { work := 8, deadline := 0, dclass := 0, slice := n, sgen := 0, context := 0, fence := false,
                         arvEntry := 0, arvSlot := 0, arvWeight := 0, arvEn := false, resEntry := 0, resGen := 0, step16 := 0 }
  (s.tsu.ports.filter fun p => p.2.hold.any fun h => decide (h.1 = n)).foldl (fun (s : State) p =>
    (s.present p.1 cmd).updPort p.1 fun q => { q with hold := q.hold.filter fun h => h.1 ≠ n }) s

/-- A slice gives up a domain: its shares are closed (R363). -/
def State.unbind (s : State) (n : Nat) (tag : BitVec 24) : State :=
  let s := (s.tsu.tumb.filter fun p => p.2.slice = n && p.2.domain = tag && p.2.estate ≠ .closing).foldl
    (fun s p => s.closeTumb p.1) s
  (s.updSlice n fun v => { v with bindings := v.bindings.filter fun b => b.tag ≠ tag }).updTsu fun t =>
    { t with shadowed := if t.opened.contains tag ∧ !t.shadowed.contains tag then tag :: t.shadowed else t.shadowed }

/-- The words of a slice page that slice reset keeps: the driver's window of the slice (R381, R463). -/
def windowKey : Nat := 0x2000

/-- Steps 2 to 5 of a slice reset (R374), and the end of a DESTROY (R364). -/
def State.resetFinish (s : State) (n : Nat) (destroy : Bool) : State :=
  let s := s.releaseAll n
  let own : Slice → Nat → Bool := fun v r => v.rowFirst ≤ r && r < v.rowFirst + v.rowQ
  let v0 := s.slice n
  let s := s.updTsu fun t => { t with
    contexts := t.contexts.filter fun p => p.2.slice ≠ n,
    tumb := (t.tumb.filter fun p => p.2.slice ≠ n || p.2.domain ≠ 0).map fun p =>
      (p.1, if p.2.slice = n then { p.2 with fromImage := false, carry := none } else p.2),
    calendar := t.calendar.filter fun p => p.2.slice ≠ n,
    rows := t.rows.filter fun p => !own v0 p.1,
    orders := t.orders.filter fun o => o.slice ≠ n,
    grants := t.grants.filter fun g => g.slice ≠ n,
    nwReads := t.nwReads.filter fun r => r.kind ≠ .arrival n && r.kind ≠ .image n,
    ports := Tab.map t.ports fun _ q => { q with pend := q.pend.filter fun r => r.slice ≠ n } }
  let s := s.updSlice n fun v => { v with
    sgen := (v.sgen + 1) % 256, page := v.page.filter fun p => windowKey ≤ p.1, codes := [], arvBusy := false,
    arvEarly := false, arvGen := 0, image := none, pending := .none, imgBusy := false, refusal := 0, abort := none,
    fence := none, serve := Serve.reset, localStep := 0, lastList := [], finTurned := false, headers := [],
    held := [], lostRun := false, tumbView := [], view := (false, 0, []), state := .active }
  if destroy then
    let s := v0.bindings.foldl (fun s b => s.unbind n b.tag) s
    s.updSlice n fun v => { v with
      state := .free, pasid := 0, dlogEn := false, tumbQ := 0, rowQ := 0, dirQ := 0, calQ := 0, pageQ := 0,
      scanQ := 0, carryQ := 0, resMax := 1, ports := [], rowFirst := 0, calFirst := 0, bindings := [] }
  else s

/-- A slice abort completes when every port has acknowledged: the ABORT record and ABORT_DONE (R240, R242, R247). -/
def State.abortCheck (s : State) (n : Nat) : State :=
  match (s.slice n).abort with
  | none => s
  | some a =>
    if a.ports ≠ [] then s
    else
      let ns := s.tsu.com.time.aon - a.start
      let s := s.updSlice n fun v => { v with abort := none }
      if a.quiet then a.doms.foldl (fun s x => s.sendAbortDone n x) (s.resetFinish n a.destroy)
      else
        let s := s.updTsu fun t => { t with lastAbortSlice := n, lastAbortNs := min ns 0xFFFFFF }
        let s := s.writeRecord { s.blankRec 4 n with source := a.order.src, detail := BitVec.ofNat 32 ns }
        a.doms.foldl (fun s x => s.sendAbortDone n x) s

/-- Raise LP_ABORT for a slice at a port, or queue it behind another slice's (R231, R242). -/
def State.raiseAbort (s : State) (n p : Nat) : State :=
  let aon := s.tsu.com.time.aon
  (s.updPort p fun q =>
    let q := { q with fired := q.fired.filter fun f => f.cmd.slice ≠ n,
                      pend := q.pend.filter fun r => r.slice ≠ n,
                      fenceHeld := q.fenceHeld.filter fun x => x.1.cmd.slice ≠ n }
    match q.abort with
    | none => { q with abort := some (n, aon) }
    | some x => if x.1 = n ∨ q.abortDue.contains n then q else { q with abortDue := q.abortDue ++ [n] }).startsWaiting s p

/-- Drop the staging of a slice that is not armed (R242, R369). -/
def State.dropSliceStaged (s : State) (n : Nat) (pick : Launch → Bool) (code : Option ErrCode) : State :=
  (s.tsu.launches.filter fun p => p.2.slice = n && pick p.2).foldl (fun s p => match code with
    | some c => s.launchDropped p.1 c 0 false
    | none => s.dropStaged p.1) s

/-- Steps 1 to 3 of a slice abort (R242). -/
def State.abortSteps (s : State) (n : Nat) (o : Order) (doms : List (BitVec 24 × Nat)) (quiet destroy : Bool) : State :=
  let s := (s.tsu.arms.filter fun p => p.2.slice = n).foldl (fun s p => s.dropArm p.1 .aborted) s
  let s := s.dropSliceStaged n (fun _ => true) none
  let s := s.updTsu fun t => { t with grants := t.grants.filter fun g => g.slice ≠ n }
  let s := (s.tsu.contexts.filter fun p => p.2.slice = n && p.2.state ≠ .stopped).foldl (fun s p =>
    s.ctxHalt p.1 .aborted) s
  let s := (s.tsu.waits.filter fun p => p.1 / 4 = n).foldl (fun s p => s.endSoftWait p.1 none .aborted) s
  let s := (s.tsu.tumb.filter fun p => p.2.slice = n).foldl (fun s p => s.discardHeld p.1 (if quiet then .sliceStale else .aborted)) s
  let ports := (s.tsu.ports.filter fun p => p.2.hasSlice n).map (·.1)
  let s := ports.foldl (fun s p => s.raiseAbort n p) s
  let s := s.updTsu fun t => { t with ports := Tab.map t.ports fun _ q => { q with pend := q.pend.filter fun r => r.slice ≠ n } }
  let a : AbortRun := { order := o, start := s.tsu.com.time.aon, ports, doms, quiet, destroy }
  (s.updSlice n fun v => { v with state := if quiet then .resetting else .halted, abort := some a, fence := none }).abortCheck n

/-! ## Orders -/

/-- The directory entry of a slice's CONTEXTS record. -/
def State.ctxOf (s : State) (n rec : Nat) : Option Nat :=
  (s.tsu.contexts.find? fun p => p.2.slice = n && p.2.record = rec).map (·.1)

/-- Resident contexts, of a slice or all. -/
def State.residents (s : State) (n : Option Nat) : List (Nat × Ctx) :=
  s.tsu.contexts.filter fun p => p.2.resident.isSome && (n = none || n = some p.2.slice)

/-- A free resident slot for a context of a slice (R345, R361). -/
def State.residentSlot (s : State) (n : Nat) : Option Nat :=
  if (s.slice n).resMax ≤ (s.residents (some n)).length then none
  else (List.range 32).find? fun k => !((s.residents none).any fun p => p.2.resident = some k)

/-- A context as it starts for the first time. -/
def Ctx.new (slice record : Nat) (resident : Option Nat) : Ctx :=
  { slice, record, state := .stopped, resident, sentence := 0, clause := 0, loop1 := 0, loop2 := 0, loop3 := 0,
    dCtx := Time80.zero, missed := false, block := .none, topnd := none, lastArv := none, lastSlot := 0,
    altClause := none, run := 0, farRefused := false, yielded := false, haltCode := .none, stageNoted := false,
    skipBrk := false, order := 0 }

/-- Start a context at a sentence; it takes a directory entry of the slice, or is refused with ONE_CTX_FULL (R344,
R369). -/
def State.startCtx (s : State) (n rec sentence : Nat) : State :=
  match s.ctxOf n rec with
  | some c => s.ctxStart c sentence
  | none =>
    let used := (s.tsu.contexts.filter fun p => p.2.slice = n).length
    match Tab.freeKey s.tsu.contexts 128 with
    | some c =>
      if (s.slice n).dirQ ≤ used then s.logT .ctxFull (srcCtx rec) 0 (some n)
      else
        let x := Ctx.new n rec (s.residentSlot n)
        (s.updTsu fun t => { t with contexts := Tab.put t.contexts c x }).ctxStart c sentence
    | none => s.logT .ctxFull (srcCtx rec) 0 (some n)

/-- The contexts and sentences a START names (R369). -/
def State.startSet (s : State) (n : Nat) (o : Order) : List (Nat × Nat) :=
  match (s.slice n).image, o.ctx with
  | none, _ => []
  | some _, some r => [(r, o.sentence)]
  | some m, none => ((m.contexts.zipIdx.filter fun x =>
      (((s.ctxOf n x.2).bind fun c => Tab.get s.tsu.contexts c).map fun x => decide (x.state = .stopped)).getD true)).map
        fun x => (x.2, x.1.1)

/-- A START may start a context (R369). -/
def State.canStart (s : State) (n : Nat) (x : Nat × Nat) : Bool :=
  ((s.slice n).sentence x.2).isSome &&
    (((s.ctxOf n x.1).bind fun c => Tab.get s.tsu.contexts c).map fun y => decide (y.state = .stopped)).getD true

/-- An order is in its valid state and meets its conditions (R369). -/
def State.orderValid (s : State) (n : Nat) (o : Order) : Bool :=
  let st := (s.slice n).state
  match o.verb with
  | 1 => st = .active || st = .fencing || st = .fenced || st = .halted
  | 2 => st = .active
  | 3 => st = .active
  | 4 => st = .active && (s.slice n).image.isSome && (s.startSet n o).all (s.canStart n)
  | 5 => st = .halted || st = .fenced ||
      (st = .active && ((o.ctx.bind fun r => (s.ctxOf n r).bind fun c => Tab.get s.tsu.contexts c).map fun x =>
        decide (x.state = .halted)).getD false)
  | _ => false

/-- A halted context issues again the clause at which it halted (R369). -/
def State.resumeCtx (s : State) (c : Nat) : State :=
  s.updCtx c fun x => if x.state = .halted then
    { x with state := .ready, block := .none, haltCode := .none, run := 0, skipBrk := true, altClause := none } else x

/-- The held arrivals of contexts that stop or halt at their clause are withdrawn with it (R369). DESIGN CHOICE (log entry 155): an arrival that
is still held has not been made. -/
def State.withdrawHeld (s : State) (cs : List Nat) : State :=
  let stays : HeldArv → Bool := fun h => (h.ctx.map fun c => !cs.contains c).getD true
  s.updTsu fun t => { t with tumb := Tab.map t.tumb fun _ x => { x with heldArv := x.heldArv.filter stays } }

/-- Carry an order out (R369). -/
def State.orderApply (s : State) (n : Nat) (o : Order) (doms : List (BitVec 24 × Nat)) : State :=
  match o.verb with
  | 1 =>
    if (s.slice n).state = .halted then
      let s := s.orderRecord n o .none
      match (s.slice n).abort with
      | some a => s.updSlice n fun v => { v with abort := some { a with doms := a.doms ++ doms } }
      | none => doms.foldl (fun s x => s.sendAbortDone n x) s
    else s.abortSteps n o doms false false
  | 2 =>
    let cs := (s.tsu.contexts.filter fun p => p.2.slice = n && p.2.state ≠ .stopped && p.2.state ≠ .halted).map (·.1)
    let s := (cs.foldl (fun s c => s.ctxHalt c .none) s).withdrawHeld cs
    let s := s.dropSliceStaged n (fun _ => true) (some .launchDropped)
    let s := s.updTsu fun t => { t with grants := t.grants.filter fun g => g.slice ≠ n }
    s.updSlice n fun v => { v with state := .fencing, fence := some o }
  | 3 =>
    let hit : Ctx → Bool := fun x => x.slice = n && (o.ctx = none || o.ctx = some x.record)
    let cs := (s.tsu.contexts.filter fun p => hit p.2).map (·.1)
    let s := s.dropSliceStaged n (fun l => cs.contains l.ctx) (some .launchDropped)
    let s := s.updTsu fun t => { t with
      grants := t.grants.filter fun g => !cs.contains g.ctx || g.slice ≠ n || g.resource = 3 }
    ((cs.foldl State.ctxStop s).withdrawHeld cs).orderRecord n o .none
  | 4 =>
    let cs := s.startSet n o
    let s := cs.foldl (fun s x => s.startCtx n x.1 x.2) s
    s.orderRecord n o (if cs.all fun x => (s.ctxOf n x.1).isSome then .none else .ctxFull)
  | _ =>
    let whole := (s.slice n).state ≠ .active
    let cs := (s.tsu.contexts.filter fun p => p.2.slice = n && (whole || o.ctx = some p.2.record)).map (·.1)
    let s := cs.foldl State.resumeCtx s
    (s.updSlice n fun v => { v with state := .active, fence := none }).orderRecord n o .none

/-- The scope of an order for R372: ABORT, FENCE and a RESUME of a HALTED or FENCED slice have the whole slice. -/
def State.scoped (s : State) (n : Nat) (o : Order) : Order :=
  if o.verb = 1 ∨ o.verb = 2 ∨ (o.verb = 5 ∧ (s.slice n).state ≠ .active) then { o with whole := true } else o

/-- An order ranks before another of its tick: of one source the later SEQ, else the lower rank, then verb, then source
identifier (R372). -/
def Order.before (a b : Order) : Bool :=
  if a.rank = b.rank ∧ a.src = b.src then 0 < sdiff 16 a.seq b.seq
  else if a.rank ≠ b.rank then a.rank < b.rank
  else if a.verb ≠ b.verb then a.verb < b.verb
  else a.src < b.src

/-- An order of a slice loses to another on one tick: the loss is logged and recorded (R372, R373). -/
def State.orderLoses (s : State) (n : Nat) (w o : Order) : State :=
  let s := s.conflict ⟨n, w.verb, o.verb, w.rank, o.rank, w.src, o.src, w.seq, o.seq, (s.now .tsu).ns32⟩
  (s.logT .orderLost o.src 0 (some n)).orderRecord n o .orderLost

/-- An order reaches a slice: it loses to an order of this tick whose scope overlaps and before which it does not rank, is
refused outside its valid states, or is carried out, and the orders it ranks before lose to it (R369, R372, R373). A
reset, verb 0, loses to none (R380). -/
def State.order (s : State) (n : Nat) (o : Order) (doms : List (BitVec 24 × Nat) := []) : State :=
  let o := s.scoped n o
  let rivals := s.tsu.tickOrders.filter fun r => r.slice = n && overlap r.order o
  match rivals.find? fun r => r.order.verb = 0 || !o.before r.order with
  | some w => doms.foldl (fun s x => s.sendAbortDone n x) (s.orderLoses n w.order o)
  | none =>
    if !s.orderValid n o then (s.logT .sliceState o.src 0 (some n)).orderRecord n o .sliceState
    else
      let s := rivals.foldl (fun (s : State) r => s.orderLoses n o r.order) s
      let s := s.updTsu fun t => { t with
        tickOrders := (t.tickOrders.filter fun r => !(r.slice = n && overlap r.order o)) ++ [⟨n, o⟩] }
      s.orderApply n o doms

/-- A request for a domain's top node: taken here when this TSU is the top node, else sent up (R244, R245, R370,
R464). -/
def State.domainRequest (s : State) (n : Nat) (tag : BitVec 24) (o : Order) (reason : Nat) : State :=
  let step := BitVec.ofNat 16 (s.stepOf n tag)
  if s.topHere tag then
    if o.verb = 1 then
      let id := (((s.slice n).bindings.find? fun b => b.tag = tag).map (·.abortId)).getD 0
      let s := s.updBinding n tag fun b => { b with abortId := (b.abortId + 1) % 65536 }
      s.order n { o with rank := 1, seq := (id + 1) % 65536 } [(tag, (id + 1) % 65536)]
    else
      let q := (((s.slice n).bindings.find? fun b => b.tag = tag).map (·.orderSeq)).getD 0
      let s := s.updBinding n tag fun b => { b with orderSeq := (b.orderSeq + 1) % 65536 }
      s.order n { o with rank := 3, seq := (q + 1) % 65536 }
  else
    let fl := s.domFlags tag
    let origin := natBytes (8388608 + s.tsu.dieId.getD 0) 3
    let f := if o.verb = 1 then
        mkFrame 0x09 1 0 tag step (s.now .tsu).ns32 (natBytes 0 2 ++ origin ++ natBytes reason 1)
      else mkFrame 0x0C 1 0 tag step (s.now .tsu).ns32 (natBytes 0 2 ++ origin ++ natBytes o.verb 1
        ++ natBytes (o.ctx.getD 0 % 32 + 32 * b2n o.ctx.isNone) 1 ++ natBytes o.sentence 1)
    s.tsuUp fl.1 fl.2 1 0 [{ f with f49 := true }]

end Sys2Proof.Machine
end

