-- ==== Sys2Proof/Machine/StageOps.lean ====
section
/-! DEFINITION. Staging a LAUNCH clause, and requests for shared stores (R227, R228, R367, R368). -/

namespace Sys2Proof.Machine

open Sys2Proof

/-- Count an unready request of a context, or of a sequence order, for a shared store (R367). -/
def State.grantAsk (s : State) (resource n c : Nat) (o : Option SeqOrder) : State :=
  if s.tsu.grants.any fun g => g.resource = resource && g.slice = n && g.ctx = c && resource ≠ 3 then s
  else s.updTsu fun t => { t with grants := t.grants ++ [⟨resource, n, c, 0, o⟩] }

/-- The generation that WGEN names (R296, R303). -/
def State.wgen (s : State) (x : Ctx) (e : Nat) (t : Tumbler) (w : Nat) : State × BitVec 2 :=
  match w with
  | 0 => (s, t.gen)
  | 1 => (s, t.gen + 1)
  | _ => match x.lastArv with
    | some (e', g) => if e' = e then (s, g) else (s.logT .clauseFault (srcCtx x.record) 2 (some x.slice), t.gen)
    | none => (s.logT .clauseFault (srcCtx x.record) 2 (some x.slice), t.gen)

/-- The regions of ports, each once, ascending. -/
def State.portRegions (s : State) (ps : List Nat) : List Nat :=
  (List.range 8).filter fun r => ps.any fun p => s.regionOf p = r

/-- The lowest free repeater slots of the regions, `used` of them taken already (R136, R227). -/
def State.pickSlots (s : State) (rs : List Nat) (used : List (Nat × Nat)) : Option (List (Nat × Nat)) :=
  rs.mapM fun r =>
    ((List.range 16).find? fun k => !(s.region r).taken.contains k && !used.contains (r, k)).map fun k => (r, k)

/-- The port set of a LAUNCH clause. -/
def Slice.portSet (v : Slice) (k : BitVec 128) : List Nat :=
  (v.image.bind fun m => m.portsets[clauseBits k 95 88]?).getD []

/-- The command that a LAUNCH clause puts at its `i`-th port (R232, R291, R300). -/
def State.commandOf (s : State) (x : Ctx) (k : BitVec 128) (i : Nat) : Command × Nat :=
  let v := s.slice x.slice
  let w := (v.image.bind fun m => m.works[clauseBits k 87 76]?).getD ⟨0, 0, 0, 0⟩
  let arv := s.findTumb x.slice (v.imgTag (clauseBits k 73 73 = 1)) (clauseBits k 72 61)
  let res := s.findTumb x.slice (v.imgTag (clauseBits k 46 46 = 1)) (clauseBits k 45 34)
  ({ work := w.work, deadline := 0, dclass := w.dclass, slice := x.slice, sgen := v.sgen, context := x.record,
     fence := clauseBits k 75 75 = 1, arvEntry := arv.getD 0, arvSlot := (clauseBits k 60 55 + i) % 64,
     arvWeight := clauseBits k 54 47, arvEn := clauseBits k 74 74 = 1, resEntry := res.getD 0, resGen := 0, step16 := 0 },
    w.dl)

/-- Write the commands of a clause into staging entries (R227). -/
def State.stageClause (s : State) (id : Nat) (alt : Bool) (x : Ctx) (k : BitVec 128) (ports : List Nat)
    (slots : List (Nat × Nat)) : State :=
  let s := slots.foldl (fun s rs => s.updRegion rs.1 fun g => { g with taken := g.taken ++ [rs.2] }) s
  ports.zipIdx.foldl (fun s pi =>
    let c := s.commandOf x k pi.2
    let slot := ((slots.find? fun rs => rs.1 = s.regionOf pi.1).map (·.2)).getD 0
    s.updPort pi.1 fun q => { q with staging := q.staging ++ [⟨id, alt, slot, c.1, c.2⟩] }) s

/-- A LAUNCH clause that is refused as a whole, with its LAUNCH record (R198, R227). -/
def State.launchRefused (s : State) (c : Nat) (x : Ctx) (index : Nat) (code : ErrCode) : State :=
  let s := s.logT code (srcCtx x.record) 0 (some x.slice)
  (s.writeRecord { s.blankRec 1 x.slice with dropped := true, code := code.value, source := srcCtx x.record, index }).ctxNext c

/-- Pre-stage a LAUNCH clause and its alternate and wait for the turn; where a port is no port it is refused, and where
entries or slots are short the context stalls (R227, R228, R362). `i` is the clause's index. -/
def State.stageLaunch (s : State) (c : Nat) (x : Ctx) (k : BitVec 128) (i : Nat) : State :=
  let s0 := s
  let v := s.slice x.slice
  let index := clauseBits k 107 96
  match (s.findTumb x.slice (v.imgTag (clauseBits k 108 108 = 1)) index).bind fun e => (s.tumb? e).map fun t => (e, t) with
  | none => s.launchRefused c x index .noTumbler
  | some (e, t) =>
    let altK := if clauseBits k 123 123 = 1 ∧ clauseBits k 116 109 ≠ i then v.clause x.sentence (clauseBits k 116 109) else none
    let altK := altK.filter fun a => clauseBits a 127 124 = 1
    let ps := v.portSet k
    let aps := (altK.map v.portSet).getD []
    if (ps ++ aps).any fun p => !s.isPort p || !v.ports.contains p then s.launchRefused c x index .noPort
    else
      let w := s.wgen x e t (clauseBits k 33 32)
      let s := w.1
      if w.2 = t.gen + 2 then s.launchRefused c x index .genSkip
      else
        let need : Nat → Nat := fun p => b2n (ps.contains p) + b2n (aps.contains p)
        let room := (ps ++ aps).all fun p => (s.port p).staging.length + need p ≤ 4
        let slots := (s.pickSlots (s.portRegions ps) []).bind fun m =>
          (s.pickSlots (s.portRegions aps) m).map fun a => (m, a)
        match room, slots, Tab.freeKey s.tsu.launches 4096 with
        | true, some (ms, as), some id =>
          let o := s.tsu.order
          let l : Launch :=
            { slice := x.slice, sgen := v.sgen, ctx := c, record := x.record, entry := e, gen := w.2,
              sentence := x.sentence, main := ⟨i, ps, ms, clauseBits k 75 75 = 1⟩,
              alt := altK.map fun a => ⟨clauseBits k 116 109, aps, as, clauseBits a 75 75 = 1⟩, order := o, turned := false }
          let s := s.stageClause id false x k ps ms
          let s := match altK with
            | some a => s.stageClause id true x a aps as
            | none => s
          let s := s.updTsu fun t => { t with launches := Tab.put t.launches id l }
          let s := (ps ++ aps).foldl (fun s p => s.startsWaiting s0 p) s
          let s := s.ctxBlock c (.launch id) none
          if w.2 + 1 = t.gen then s.launchTurn id else s.boost x.slice e x.dCtx
        | ok, _, _ => (s.ctxBlock c .staging none).grantAsk (if ok then 1 else 0) x.slice c none

/-- A context stalled for staging tries again (R227). -/
def State.restage (s : State) (c : Nat) : State :=
  match Tab.get s.tsu.contexts c with
  | none => s
  | some x =>
    if x.block ≠ .staging then s
    else
      let i := x.altClause.getD x.clause
      match (s.slice x.slice).clause x.sentence i with
      | none => s
      | some k => s.stageLaunch c x k i

/-- Try an ungranted request again; true when it is granted (R367). -/
def State.grantTry (s : State) (g : GrantReq) : State × Bool :=
  match g.resource with
  | 2 =>
    if 256 ≤ s.tsu.arms.length then (s, false)
    else
      let ids := s.tsu.launches.filter fun p => p.2.slice = g.slice && p.2.ctx = g.ctx && p.2.turned
      (ids.foldl (fun s p => s.launchTurn p.1) s, true)
  | 3 => match g.order with
    | some o =>
      if 64 ≤ s.tsu.orders.length then (s, false)
      else (s.updTsu fun t => { t with orders := insertOrder o t.orders }, true)
    | none => (s, true)
  | _ =>
    let s := s.restage g.ctx
    (s, ((Tab.get s.tsu.contexts g.ctx).map fun x => decide (x.block ≠ .staging)).getD true)

/-- A request still not granted after its retries follows the rule of its resource for a full store (R227, R228, R348,
R367). -/
def State.grantFail (s : State) (g : GrantReq) : State :=
  let s := s.logT .busy (srcSlice g.slice) g.resource (some g.slice)
  let s := s.updTsu fun t => { t with retries := min (t.retries + 1) 0xFFFF }
  match g.resource with
  | 2 =>
    (s.tsu.launches.filter fun p => p.2.slice = g.slice && p.2.ctx = g.ctx && p.2.turned).foldl
      (fun s p => s.launchDropped p.1 .armFull 0) s
  | 3 => s.spCode g.slice 0x1F0 .seqFull
  | _ =>
    match Tab.get s.tsu.contexts g.ctx with
    | some x =>
      if x.stageNoted then s
      else (s.updCtx g.ctx fun x => { x with stageNoted := true }).logT .stageWait (srcCtx x.record) 0 (some x.slice)
    | none => s

/-- The requests of a resource in the order of its grant pointer (R367). -/
def grantOrder (ptr : Nat) (l : List GrantReq) : List GrantReq :=
  (List.range 64).flatMap fun k => l.filter fun g => g.slice = (ptr + k) % 64

/-- GRANT_RETRY: one tick's retry of every ungranted request of a resource (R367). -/
def State.grantRetry (s : State) (resource : Nat) : State :=
  let mine := s.tsu.grants.filter fun g => g.resource = resource
  let order := grantOrder (Tab.getD s.tsu.grantPtr resource 0) mine
  let s := s.updTsu fun t => { t with grants := t.grants.filter fun g => g.resource ≠ resource }
  order.foldl (fun s g =>
    let r := s.grantTry g
    if r.2 then r.1.updTsu fun t => { t with grantPtr := Tab.put t.grantPtr resource ((g.slice + 1) % 64),
                                              grants := t.grants.filter fun h => !(h.resource = resource && h.slice = g.slice && h.ctx = g.ctx && resource ≠ 3) }
    else
      let s := r.1.updTsu fun t => { t with grants := t.grants.filter fun h => !(h.resource = resource && h.slice = g.slice && h.ctx = g.ctx && resource ≠ 3) }
      if 8 ≤ g.tries + 1 then s.grantFail g
      else s.updTsu fun t => { t with grants := t.grants ++ [{ g with tries := g.tries + 1 }] }) s

end Sys2Proof.Machine
end

