-- ==== Sys2Proof/Machine/Sequencer.lean ====
section
/-! DEFINITION. The step sequencer: the context that issues, and the meaning of each verb (R299 to R305, R336 to R346). -/

namespace Sys2Proof.Machine

open Sys2Proof

/-- Context `a` issues before context `b`: one that has yielded stands behind, then the earlier deadline by R49, then
the lower number (R299, R300). -/
def ctxBefore (a b : Nat × Ctx) : Bool :=
  if a.2.yielded ≠ b.2.yielded then b.2.yielded
  else
    let d := sdiff 32 a.2.dCtx.ns32.toNat b.2.dCtx.ns32.toNat
    if d ≠ 0 then d < 0 else a.1 < b.1

/-- The ready context for which the sequencer issues, once COMPUTE has passed (R299, R412). -/
def State.pickCtx (s : State) : Option (Nat × Ctx) :=
  if s.tsu.boot.phase ≠ 7 then none else
  (s.tsu.contexts.filter fun p => p.2.state = .ready && p.2.resident.isSome && (s.slice p.2.slice).state = .active).foldl
    (fun (m : Option (Nat × Ctx)) x => match m with
      | some y => if ctxBefore x y then some x else some y
      | none => some x) none

/-- A time operand: none, an instant, or refused under R51 (R297, R338). -/
def State.topnd (s : State) (x : Ctx) (w : Nat) : State × Option Time80 × Bool :=
  let v := bitsOf w 31 0
  match bitsOf w 35 34 with
  | 0 => (s, none, false)
  | 1 => (s, some (Time80.ofUnits ((s.now .tsu).toUnits + (v : Int) * 4294967296)), false)
  | 2 => match s.accept (extendNs (s.now .tsu) (BitVec.ofNat 32 v) * 65536) (some x.slice) with
    | (s, some t) => (s, some t, false)
    | (s, none) => (s, none, true)
  | _ =>
    let t := (((s.slice x.slice).image.bind fun m => m.times[v % 256]?)).getD Time80.zero
    match s.accept t.toNs16 (some x.slice) with
    | (s, some t) => (s, some t, false)
    | (s, none) => (s, none, true)

/-- The entry a clause names. -/
def State.clauseTumb (s : State) (x : Ctx) (k : BitVec 128) : Option Nat :=
  s.findTumb x.slice ((s.slice x.slice).imgTag (clauseBits k 108 108 = 1)) (clauseBits k 107 96)

/-- An arrival of a clause, once its payload is at hand (R191, R300). -/
def State.ctxArrive (s : State) (c : Nat) (x : Ctx) (k : BitVec 128) (payload : List Byte) : State :=
  let slot := clauseBits k 95 90
  match s.clauseTumb x k with
  | none =>
    let s := s.logT .noTumbler (srcCtx x.record) 0 (some x.slice)
    (s.waitRecord x.slice (srcCtx x.record) none none 0 .noTumbler).ctxNext c
  | some e =>
    let r := s.arrive e (srcCtx x.record) slot (clauseBits k 89 82) x.slice payload
    let s := match r.2 with
      | .held =>
        let h : HeldArv := ⟨srcCtx x.record, slot, clauseBits k 89 82, payload, none, some c⟩
        r.1.updTumb e fun t => { t with heldArv := t.heldArv ++ [h] }
      | _ => r.1
    s.ctxArrived c e slot r.2

/-- ARRIVE, REDUCE, SCAN and ALLOC: read the payload, then arrive (R300, R338). -/
def State.issueArrive (s : State) (c : Nat) (x : Ctx) (k : BitVec 128) (wait : Bool) : State :=
  let t := if wait then s.topnd x (clauseBits k 35 0) else (s, none, false)
  let s := t.1.updCtx c fun x => { x with topnd := t.2.1, farRefused := t.2.2 }
  let x := { x with topnd := t.2.1, farRefused := t.2.2 }
  let di := clauseBits k 81 70
  let len := (((s.clauseTumb x k).bind s.tumb?).map fun t => arrivalLen t.op t.fmt t.lanes).getD 0
  if di = 0xFFF ∨ len = 0 then s.ctxArrive c x k []
  else
    let addr := ((s.slice x.slice).image.bind fun m => m.datas[di]?).getD 0
    (s.ctxBlock c .payload t.2.1).nwRead (.clauseData c) (s.slice x.slice).pasid addr len

/-- WAIT (R198, R300, R338). -/
def State.issueWait (s : State) (c : Nat) (x : Ctx) (k : BitVec 128) : State :=
  match (s.clauseTumb x k).bind fun e => (s.tumb? e).map fun t => (e, t) with
  | none =>
    let s := s.logT .noTumbler (srcCtx x.record) 0 (some x.slice)
    (s.writeRecord { s.blankRec 3 x.slice with code := ErrCode.noTumbler.value, source := srcCtx x.record,
                                               index := clauseBits k 107 96 }).ctxNext c
  | some (e, t) =>
    let w := s.wgen x e t (clauseBits k 95 94)
    let s := w.1
    if w.2 + 1 = t.gen then s.ctxResult c e (clauseBits k 57 46) x.lastSlot
    else if w.2 = t.gen + 2 then s.ctxWaitEnds c e w.2 .genSkip
    else
      let d := s.topnd x (clauseBits k 93 58)
      if d.2.2 then d.1.ctxWaitEnds c e w.2 .farTime
      else (d.1.ctxBlock c (.turn e w.2 (clauseBits k 57 46) x.lastSlot) d.2.1).boost x.slice e x.dCtx

/-- YIELD (R300, R338). -/
def State.issueYield (s : State) (c : Nat) (x : Ctx) (k : BitVec 128) : State :=
  match clauseBits k 95 94 with
  | 0 => (s.ctxNext c).updCtx c fun x => { x with yielded := true }
  | 1 =>
    let d := s.topnd x (clauseBits k 93 58)
    match d.2.1 with
    | some t => d.1.updCtx c fun x => { x with state := .sleeping, topnd := some t, run := 0 }
    | none => d.1.ctxNext c
  | _ => s.updCtx c fun x => { x with state := .parked, run := 0 }

/-- ABORT (R241, R296, R300, R371). -/
def State.issueAbort (s : State) (_c : Nat) (x : Ctx) (k : BitVec 128) : State :=
  let o : Order := { verb := 1, ctx := some 0, sentence := 0, rank := 1, src := srcCtx x.record, seq := 0 }
  let tag := (s.slice x.slice).imgTag true
  if clauseBits k 95 95 = 0 ∨ tag = 0 then s.order x.slice o
  else
    let s := s.domainRequest x.slice tag o 1
    if s.topHere tag then s else s.order x.slice o

/-- Carry out one clause `k`, the clause of index `i` (R300). -/
def State.doVerb (s : State) (c : Nat) (x : Ctx) (k : BitVec 128) (i : Nat) : State :=
  match clauseBits k 127 124 with
  | 0 => s.endClause c k
  | 1 => s.stageLaunch c x k i
  | 2 => s.issueArrive c x k false
  | 3 => s.issueWait c x k
  | 4 => s.issueArrive c x k true
  | 5 => s.issueArrive c x k true
  | 6 => s.issueArrive c x k true
  | 7 => s.branch c x k
  | 8 => (s.markRecord x k i).ctxNext c
  | 9 => s.issueYield c x k
  | 10 => s.issueAbort c x k
  | _ => s

/-- RUNAWAY_LIMIT clauses in a row without blocking halt a context (R303). -/
def State.runaway (s : State) (c : Nat) : State :=
  match Tab.get s.tsu.contexts c with
  | none => s
  | some x =>
    if orOne (bitsOf (s.reg .tsu 0x600) 15 0) ≤ x.run ∧ x.state = .ready then
      (s.logT .clauseRunaway (srcCtx x.record) x.clause (some x.slice)).ctxHalt c .clauseRunaway
    else s

/-- The breakpoint fires for a context's next clause (R461). -/
def State.breakHit (s : State) (c : Nat) (x : Ctx) : Bool :=
  let w := s.reg .tsu 0x888
  bitOf w 29 && bitsOf w 5 0 = x.slice && bitsOf w 12 6 = c && bitsOf w 20 13 = x.clause && bitsOf w 28 21 = x.sentence
    && !x.skipBrk

/-- The sequencer issues the chosen context's clause, if its verb is `verb`: the breakpoint, the conjunction, the clause
or its alternate, and the runaway count (R299, R301, R303, R461). -/
def State.issue (s : State) (verb : Nat) : State :=
  match s.pickCtx with
  | none => s
  | some (c, x) =>
    match (s.slice x.slice).clause x.sentence x.clause with
    | none => s
    | some k =>
      if clauseBits k 127 124 ≠ verb then s
      else if s.breakHit c x then (s.setEvt .tsu 0x888 0x40000000).ctxHalt c .none
      else
        let s := s.updTsu fun t => { t with contexts := Tab.map t.contexts fun _ y => { y with yielded := false } }
        let s := s.updCtx c fun x => { x with run := x.run + 1, skipBrk := false, altClause := none, farRefused := false }
        let x := { x with run := x.run + 1, skipBrk := false, altClause := none, farRefused := false, yielded := false }
        let s :=
          if verb = 1 then s.doVerb c x k x.clause
          else match (s.slice x.slice).conjOf x.sentence k with
            | none => s.doVerb c x k x.clause
            | some q => match s.pred x.slice x.lastSlot q with
              | .holds true => s.doVerb c x k x.clause
              | .wait e => s.ctxBlock c (.conj e) none
              | p =>
                let s := match p with
                  | .noResult d => s.logT .predNoResult (srcCtx x.record) d (some x.slice)
                  | _ => s
                let alt := clauseBits k 116 109
                if alt = x.clause then s.ctxNext c
                else match (s.slice x.slice).clause x.sentence alt with
                  | none => s.ctxNext c
                  | some ka =>
                    let s := s.updCtx c fun x => { x with altClause := some alt }
                    s.doVerb c { x with altClause := some alt } ka alt
        s.runaway c

/-- CLAUSE_LAUNCH (R227). -/
def execClauseLaunch (s : State) : Outcome := .next (s.issue 1)
/-- CLAUSE_ARRIVE (R300). -/
def execClauseArrive (s : State) : Outcome := .next (s.issue 2)
/-- CLAUSE_WAIT (R300). -/
def execClauseWait (s : State) : Outcome := .next (s.issue 3)
/-- CLAUSE_REDUCE (R300). -/
def execClauseReduce (s : State) : Outcome := .next (s.issue 4)
/-- CLAUSE_SCAN (R268). -/
def execClauseScan (s : State) : Outcome := .next (s.issue 5)
/-- CLAUSE_ALLOC (R273). -/
def execClauseAlloc (s : State) : Outcome := .next (s.issue 6)
/-- CLAUSE_BRANCH (R302). -/
def execClauseBranch (s : State) : Outcome := .next (s.issue 7)
/-- CLAUSE_MARK (R300). -/
def execClauseMark (s : State) : Outcome := .next (s.issue 8)
/-- CLAUSE_YIELD (R300). -/
def execClauseYield (s : State) : Outcome := .next (s.issue 9)
/-- CLAUSE_ABORT (R296). -/
def execClauseAbort (s : State) : Outcome := .next (s.issue 10)
/-- CLAUSE_END (R302). -/
def execClauseEnd (s : State) : Outcome := .next (s.issue 0)
/-- CLAUSE_RUNAWAY (R303). -/
def execClauseRunaway (ctx : Nat) (s : State) : Outcome := .next (s.runaway ctx)
/-- STAGE_RESUME (R227). -/
def execStageResume (ctx : Nat) (s : State) : Outcome := .next (s.restage ctx)
/-- GRANT_RETRY (R367). -/
def execGrantRetry (resource : Nat) (s : State) : Outcome := .next (s.grantRetry resource)

/-! ## Deadlines and residency -/

/-- A MISS record (R333, R337). -/
def State.missRecord (s : State) (n src : Nat) (code : ErrCode) : State :=
  (s.logT code src 0 (some n)).writeRecord { s.blankRec 0x12 n with code := code.value, source := src }

/-- DEADLINE_MISS: a radio or serving context still blocked on a wait at its D_ctx (R337). -/
def State.deadlineMiss (s : State) (c : Nat) : State :=
  match Tab.get s.tsu.contexts c with
  | none => s
  | some x =>
    let dclass := (((s.slice x.slice).sentence x.sentence).map (·.dclass)).getD 2
    let waits : Bool := match x.block with
      | .turn _ _ _ _ => true
      | .arrival _ | .payload | .conj _ => [3, 4, 5, 6].contains (clauseBits
          (((s.slice x.slice).clause x.sentence (x.altClause.getD x.clause)).getD 0) 127 124)
      | _ => false
    if x.missed ∨ x.state ≠ .blocked ∨ !waits ∨ 2 ≤ dclass ∨ (s.now .tsu).toNs16 < x.dCtx.toNs16 then s
    else (s.updCtx c fun x => { x with missed := true }).missRecord x.slice (srcCtx x.record)
      (if dclass = 0 then .radioMiss else .deadlineMiss)

/-- DEADLINE_MISS (R337). -/
def execDeadlineMiss (ctx : Nat) (s : State) : Outcome := .next (s.deadlineMiss ctx)

/-- CLAUSE_TIMEOUT: the counter reaches TOPND before the awaited turn; an arrival of the clause that is still held stands (R338). -/
def State.clauseTimeout (s : State) (c : Nat) : State :=
  match Tab.get s.tsu.contexts c with
  | none => s
  | some x => match x.block, x.topnd with
    | .turn e g _ _, some t =>
      if (s.now .tsu).toNs16 < t.toNs16 ∨ x.state ≠ .blocked then s else s.ctxWaitEnds c e g .waitTimeout
    | .arrival e, some t =>
      if (s.now .tsu).toNs16 < t.toNs16 ∨ x.state ≠ .blocked then s
      else
        let free : HeldArv → HeldArv := fun h => { h with ctx := if h.ctx = some c then none else h.ctx }
        let g := ((s.tumb? e).map (·.gen)).getD 0
        (s.updTumb e fun t => { t with heldArv := t.heldArv.map free }).ctxWaitEnds c e g .waitTimeout
    | _, _ => s

/-- CLAUSE_TIMEOUT (R338). -/
def execClauseTimeout (ctx : Nat) (s : State) : Outcome := .next (s.clauseTimeout ctx)

/-- SLEEP_END: a sleeping context becomes READY at its TOPND (R300, R344). -/
def State.sleepEnd (s : State) (c : Nat) : State :=
  match Tab.get s.tsu.contexts c with
  | none => s
  | some x => match x.topnd with
    | some t => if x.state = .sleeping ∧ t.toNs16 ≤ (s.now .tsu).toNs16 then s.ctxNext c else s
    | none => s

/-- SLEEP_END (R344). -/
def execSleepEnd (ctx : Nat) (s : State) : Outcome := .next (s.sleepEnd ctx)

/-- The classes of victims, in the order of R345. -/
def victimClass (x : Ctx) : Nat :=
  match x.state with
  | .stopped | .halted => 0
  | .parked => 1
  | .blocked | .sleeping => 2
  | .ready => 3

/-- `a` is a better victim than `b` (R345). -/
def victimBefore (a b : Nat × Ctx) : Bool :=
  let ca := victimClass a.2
  let cb := victimClass b.2
  if ca ≠ cb then ca < cb
  else if ca = 0 then a.1 < b.1
  else
    let d := sdiff 32 a.2.dCtx.ns32.toNat b.2.dCtx.ns32.toNat
    if d ≠ 0 then 0 < d else if ca = 2 then b.1 < a.1 else a.1 < b.1

/-- The 256-byte image of a context: its directory bytes, private to this model, then its CRC-32C (R346). -/
def Ctx.saveBytes (x : Ctx) : List Byte :=
  let b := padTo 252 (natBytes x.slice 1 ++ natBytes x.record 1 ++ natBytes x.sentence 1 ++ natBytes x.clause 1
    ++ natBytes x.loop1 2 ++ natBytes x.loop2 2 ++ natBytes x.loop3 2 ++ x.dCtx.bytes)
  b ++ natBytes (crc32c b) 4

/-- The save address of a directory entry (R346). -/
def State.saveAddr (s : State) (n c : Nat) : Nat :=
  (s.slice n).word 0x018 * 4294967296 + bitsOf ((s.slice n).word 0x014) 31 12 * 4096 + 256 * c

/-- CONTEXT_SWAP: the incoming context and its victim are chosen, and the save and the restore begin (R345, R346,
R361). -/
def State.contextSwap (s : State) : State :=
  if s.tsu.swap.isSome then s
  else
    let ready := s.tsu.contexts.filter fun p => p.2.state = .ready && p.2.resident.isNone
    let best : Option (Nat × Ctx) := ready.foldl (fun m x => match m with
      | some y => if ctxBefore { x with snd := { x.2 with yielded := false } } { y with snd := { y.2 with yielded := false } }
          then some x else some y
      | none => some x) none
    match best with
    | none => s
    | some (c, x) =>
      let capped := decide ((s.slice x.slice).resMax ≤ (s.residents (some x.slice)).length)
      let free := (List.range 32).find? fun k => !((s.residents none).any fun p => p.2.resident = some k)
      let start : Option Nat → Nat → State := fun v slot =>
        let s := match v.bind fun v => (Tab.get s.tsu.contexts v).map fun y => (v, y) with
          | some (v, y) =>
            let s := s.updCtx v fun y => { y with resident := none }
            s.sliceWrite y.slice .swap (s.saveAddr y.slice v) y.saveBytes
          | none => s
        let s := s.updTsu fun t => { t with swap := some ⟨c, v, slot⟩ }
        s.nwRead (.swapIn c) (s.slice x.slice).pasid (s.saveAddr x.slice c) 256
      match free with
      | some k =>
        if !capped then start none k
        else pick s c x capped start
      | none => pick s c x capped start
where
  /-- the swap over a victim, where one is found -/
  pick (s : State) (_c : Nat) (x : Ctx) (capped : Bool) (start : Option Nat → Nat → State) : State :=
    let cands := (s.residents none).filter fun p =>
      (!capped || p.2.slice = x.slice) &&
        (p.2.state ≠ .ready || 0 < sdiff 32 p.2.dCtx.ns32.toNat x.dCtx.ns32.toNat)
    match cands.foldl (fun (m : Option (Nat × Ctx)) y => match m with
        | some z => if victimBefore y z then some y else some z
        | none => some y) none with
    | some (v, y) => start (some v) (y.resident.getD 0)
    | none => s

/-- CONTEXT_SWAP (R345). -/
def execContextSwap (s : State) : Outcome := .next s.contextSwap

/-- A swap ends: the incoming context is resident, or halts with ONE_SWAP_FAULT (R346). Class-3 frames of a slice would
be withdrawn when its last resident context leaves (R343); a TSU originates none for a slice. -/
def State.swapDone (s : State) (ok : Bool) (ns : Nat) : State :=
  match s.tsu.swap with
  | none => s
  | some w =>
    let s := s.updTsu fun t =>
      { t with swap := none, evictions := min (t.evictions + 1) 0xFFFF, swapLast := min ns 0xFFFF,
               swapMax := max t.swapMax (min ns 0xFFFF),
               nwReads := t.nwReads.filter fun r => r.kind ≠ .swapIn w.incoming }
    if ok then s.updCtx w.incoming fun x => { x with resident := some w.slot }
    else
      let n := ((Tab.get s.tsu.contexts w.incoming).map (·.slice)).getD 0
      let r := ((Tab.get s.tsu.contexts w.incoming).map (·.record)).getD 0
      (s.logT .swapFault (srcCtx r) 0 (some n)).ctxHalt w.incoming .swapFault

/-- CONTEXT_SWAP_DONE (R346). -/
def execContextSwapDone (ok : Bool) (ns : Nat) (s : State) : Outcome := .next (s.swapDone ok ns)

end Sys2Proof.Machine
end

