-- ==== Sys2Proof/Machine/Launch.lean ====
section
/-! DEFINITION. Launch commands of a TSU: DLAT, LAUNCH_AT, capture at the ports, aborts and the acknowledgements of the
on-die network (R218, R221, R230, R233, R241 to R245, R353, R512). -/

namespace Sys2Proof.Machine

open Sys2Proof

/-- DLAT of a TSU lane in ps: RX_PIPE, which is the fused receive path and PKG_RX, plus one frame slot at the lane's rate
(R218). -/
def State.laneDlat (s : State) (lane : Nat) : Nat :=
  let k := s.link ⟨.tsu, lane⟩
  k.rxPipeNow + bitsOf (s.reg .tsu (0x18C + 0x20 * lane)) 31 16 + (if k.fallback then 51200 else 20480)

/-- A TSU sends LATENCY on a lane that is UP: when the value first becomes valid, rises, falls by more than 1 ns, or
100 ms have passed (R221). -/
def State.tsuLatencySend (s : State) (lane : Nat) : State :=
  if !s.trained ⟨.tsu, lane⟩ ∨ 2 ≤ lane then s
  else
    let d := s.laneDlat lane
    let aon := s.tsu.com.time.aon
    let due : Bool := match Tab.get s.tsu.sentDlat lane with
      | none => true
      | some (v, ok, at_) => !ok || v < d || d + 1000 < v || at_ + 100000000 ≤ aon
    if !due then s
    else
      let slow := (s.link ⟨.tsu, lane⟩).fallback
      let s := s.updTsu fun t => { t with sentDlat := Tab.put t.sentDlat lane (d, true, aon) }
      s.send ⟨.tsu, lane⟩ 1 0 [mkFrame 0x0B 1 0 0 0 0
        (natBytes d 4 ++ natBytes (1 + 2 * b2n slow) 1 ++ natBytes (s.tsu.dieId.getD 0) 3)]

/-- LAUNCH_AT_SEND: the words of an armed launch leave once T is no more than 65.536 µs ahead, to each region of the
launch; one whose list header is not acknowledged waits. It is lost at a region whose repeater is not READY (R128, R136, R228,
R230, R353). -/
def State.launchAtSend (s : State) (id : Nat) : State :=
  match Tab.get s.tsu.arms id with
  | none => s
  | some a =>
    if a.cancel ≠ .none ∨ a.listWait ∨ 65536 * 65536 < a.t.toNs16 - (s.now .tsu).toNs16 then s
    else
      let due := a.slots.filter fun x => !a.sent.contains x.1
      let s := s.updArm id fun a => { a with sent := a.sent ++ due.map (·.1) }
      due.foldl (fun s x =>
        if (s.region x.1).ready then s.busSend x.1 (.launchAt (stamp48 a.t.toNs16) x.2 a.fence)
        else s.slotLost x.1 x.2 .tbusLost) s

/-- LAUNCH_AT_SEND (R136). -/
def execLaunchAtSend (arm : Nat) (s : State) : Outcome := .next (s.launchAtSend arm)

/-! ## Capture -/

/-- A PORT record of a fired command, and the code for its LAUNCH record (R239, R240). -/
def State.firedRecord (s : State) (p : Nat) (f : Fired) (code : ErrCode) (detail : Int) : State :=
  let s := match code with
    | .launchLate | .queueStall => s.logT code (srcPort p) (detail.toNat) (some f.cmd.slice)
    | _ => s
  let s := s.writeRecord { s.blankRec 2 f.cmd.slice with
    sgen := f.cmd.sgen, short := f.short, late := code = .launchLate, far := f.far, gated := f.gated, code := code.value,
    source := srcPort p, gen := f.gen.toNat, domain := f.domain.toNat, index := f.index,
    step16 := f.cmd.step16.toNat, c := f.c, t := BitVec.ofNat 32 (f.t / 65536), members := f.members,
    detail := BitVec.ofInt 32 detail }
  s.noteCode f code

/-- The engine takes the command at the head of a port; LP_ABORT follows a command whose CANCEL for a slice abort came too late
(R139, R141, R233, R242). -/
def State.portTaken (s : State) (p : Nat) (f : Fired) : State :=
  let s := s.updPort p fun q => { q with fired := q.fired.drop 1, atEngine := q.atEngine ++ [(f.cmd.slice, f.cmd.sgen)],
                                         fenceBusy := q.fenceBusy || f.cmd.fence }
  if f.cancel = .aborted then
    let n := f.cmd.slice
    let add : AbortRun → AbortRun := fun a => { a with ports := if a.ports.contains p then a.ports else a.ports ++ [p] }
    (s.raiseAbort n p).updSlice n fun v => { v with abort := v.abort.map add }
  else s

/-- PORT_CAPTURE: on the capture edge, the first after the strobe reaches it, the port presents its oldest fired command, with a
PORT record for each departure from on-time capture; the engine takes it if LP_CMD_READY is high. `period` is the region
clock's period in force at that edge, in units of 2^-16 ns (R131, R136 to R139, R229, R233, R240). -/
def State.portCapture (s : State) (p : Nat) (stamp : Int) (period : Nat) (ready : Bool) : State :=
  match (s.port p).fired with
  | [] => s
  | f :: _ =>
    if f.shown.isSome ∨ (s.port p).resetAt.isSome ∨ sdiff 48 stamp f.reach ≤ 0 then s
    else
      let lateNs := sdiff 48 stamp f.t
      let s := s.updPort p fun q =>
        { q with fired := { f with shown := some stamp } :: q.fired.drop 1, hold := q.hold.filter fun h => h.1 ≠ f.cmd.slice }
      let s := if f.late ∧ (period : Int) < lateNs then s.firedRecord p f .launchLate (lateNs / 65536) else s
      let s := if f.gated then s.firedRecord p f .regionGated (lateNs / 65536) else s
      let s := if f.cancel ≠ .none then s.firedRecord p f f.cancel 0 else s
      if ready then s.portTaken p f else s

/-- PORT_CAPTURE (R233). -/
def execPortCapture (port : Nat) (edge : CaptureEdge) (cmdReady : Bool) (s : State) : Outcome :=
  .next ((s.portCapture port edge.stamp edge.period cmdReady).startsWaiting s port)

/-- LP_CMD_TAKEN: a command that was held is taken; its wait is reported; a direct command is taken in turn (R233,
R340). -/
def State.cmdTaken (s : State) (p : Nat) (stamp : Int) : State :=
  let q := s.port p
  match q.fired with
  | f :: _ => match f.shown with
    | some at_ => (s.firedRecord p f .queueStall ((stamp - at_) / 65536)).portTaken p f
    | none => s.updPort p fun q => { q with direct := q.direct.drop 1 }
  | [] => s.updPort p fun q => { q with direct := q.direct.drop 1 }

/-- LP_CMD_TAKEN (R233). -/
def execLpCmdTaken (port : Nat) (stamp : Int) (s : State) : Outcome := .next ((s.cmdTaken port stamp).startsWaiting s port)

/-! ## Aborts -/

/-- SLICE_ABORT_GO: a write of TSU_ABORT_CTRL; GO orders an abort at rank 2 (R241, R247, R371). -/
def State.sliceAbortGo (s : State) (w : Word) : State :=
  let s := s.setReg .tsu 0x518 (w &&& 0x3F#32)
  let n := bitsOf w.toNat 5 0
  if !bitOf w.toNat 6 then s
  else if (s.slice n).state = .free then s.logT .sliceState srcHost 0 (some n)
  else
    let q := (s.tsu.hostSeq + 1) % 65536
    (s.updTsu fun t => { t with hostSeq := q }).order n
      { verb := 1, ctx := some 0, sentence := 0, rank := 2, src := srcHost, seq := q }

/-- SLICE_ABORT_GO (R242). -/
def execSliceAbortGo (w : Word) (s : State) : Outcome := .next (s.sliceAbortGo w)

/-- An ABORT frame at a TSU: the broadcast is applied to the slice bound to the domain (R245, R371). -/
def State.tsuAbortRx (s : State) (l : LinkId) (f : Frame) : State :=
  match s.sliceOf f.domain with
  | none => s.logT .domainStale (srcLane l.port)
  | some n =>
    if f.f49 then s.malformed l
    else
      let id := f.nat 12 2
      s.order n { verb := 1, ctx := some 0, sentence := 0, rank := 1, src := srcLane l.port, seq := id } [(f.domain, id)]

/-- An ORDER frame at a TSU (R370, R371). -/
def State.tsuOrderRx (s : State) (l : LinkId) (f : Frame) : State :=
  let verb := f.byte 17
  if verb < 2 ∨ 5 < verb ∨ f.f49 then s.malformed l
  else match s.sliceOf f.domain with
    | none => s.logT .domainStale (srcLane l.port)
    | some n =>
      let all := bitOf (f.byte 18) 5
      s.order n { verb, ctx := if all then none else some (f.byte 18 % 32), sentence := f.byte 19,
                  rank := if f.f48 then 2 else 3, src := srcLane l.port, seq := f.nat 12 2 }

/-- A port's acknowledgement counts for the slice whose abort it had (R242, R243). -/
def State.portAcked (s : State) (p n : Nat) : State :=
  let aon := s.tsu.com.time.aon
  let s := s.updPort p fun q => { q with abort := q.abortDue.head?.map fun m => (m, aon), abortDue := q.abortDue.drop 1,
                                         atEngine := q.atEngine.filter fun x => x.1 ≠ n }
  (s.updSlice n fun v => { v with abort := v.abort.map fun a => { a with ports := a.ports.filter (· ≠ p) } }).abortCheck n

/-- LP_ABORT_ACK (R243). -/
def execLpAbortAck (port : Nat) (s : State) : Outcome :=
  .next (match (s.port port).abort with
    | some (n, _) => s.portAcked port n
    | none => s)

/-- ENG_ABORT_LIMIT_EXPIRY: a port that has not acknowledged in time is reset and counted as acknowledged (R243,
R247). -/
def State.engAbortLimit (s : State) (p : Nat) : State :=
  match (s.port p).abort with
  | none => s
  | some (n, at_) =>
    let limit := clampNat 1 8 (bitsOf (s.reg .tsu 0x500) 3 0) * 1000
    if s.tsu.com.time.aon < at_ + limit then s
    else
      let due := (s.port p).abortDue
      let s := (s.logT .abortOverrun (srcPort p) 0 (some n)).healthSend .abortOverrun
      let s := s.portReset p
      (n :: due).foldl (fun s m =>
        (s.updSlice m fun v => { v with abort := v.abort.map fun a => { a with ports := a.ports.filter (· ≠ p) } }).abortCheck m) s

/-- ENG_ABORT_LIMIT_EXPIRY (R243). -/
def execEngAbortLimitExpiry (port : Nat) (s : State) : Outcome := .next (s.engAbortLimit port)

/-- MARGIN_CLEAR (R247). -/
def execMarginClear (s : State) : Outcome := .next (s.updTsu fun t => { t with minMargin := 0x7FFF })

/-! ## The on-die network -/

/-- The oldest list header's write is acknowledged: launches of the same turn may leave; one past its limit is late, with
ONE_LIST_LATE (R353). -/
def State.headerAck (s : State) (n : Nat) : State :=
  let h := (s.slice n).headers.head?
  let s := s.updSlice n fun v => { v with headers := v.headers.drop 1 }
  (s.tsu.arms.filter fun p => p.2.slice = n && p.2.listWait && h = some (p.2.domain, p.2.index, p.2.gen)).foldl (fun s p =>
    let s := s.updArm p.1 fun a => { a with listWait := false }
    if s.onTimeLimit p.2.t < (s.now .tsu).toNs16 then
      let s := s.logT .listLate (srcCtx p.2.ctx) 0 (some n)
      if p.2.dropLate then s.dropArm p.1 .launchDropped
      else s.updArm p.1 fun a => { a with late := true, code := .listLate }
    else s) s

/-- LIST_HEADER_ACK: the acknowledgement of a slice's outstanding header write (R353). -/
def execListHeaderAck (slice : Nat) (s : State) : Outcome :=
  .next (s.headerAck slice)

/-- NW_WRITE_ACK: the oldest outstanding write is acknowledged (R365, R512); a faulted save halts the victim (R346). -/
def State.writeAck (s : State) (error : Bool) : State :=
  match s.tsu.nwWrites with
  | [] => s
  | w :: rest =>
    let s := s.updTsu fun t => { t with nwWrites := rest }
    match w.kind with
    | .record n =>
      (s.updSlice n fun v => { v with crHead := (v.crHead + 1) % 4294967296, inFlight := v.inFlight - 1 }).ringVector n
    | .dataOut c => match Tab.get s.tsu.contexts c with
      | some x => if x.block = .write then s.ctxNext c else s
      | none => s
    | .header n => s.headerAck n
    | .swap => if error then match s.tsu.swap.bind (·.victim) with
        | some v => match Tab.get s.tsu.contexts v with
          | some x => (s.logT .swapFault (srcCtx x.record) 0 (some x.slice)).ctxHalt v .swapFault
          | none => s
        | none => s
      else s
    | .firmware => if error then s else s.setEvt .tsu 0x7EC 0x20000
    | _ => s

/-- NW_WRITE_ACK (R512). -/
def execNwWriteAck (error : Bool) (s : State) : Outcome := .next (s.writeAck error)

end Sys2Proof.Machine
end

