-- ==== Sys2Proof/Machine/Images.lean ====
section
/-! DEFINITION. Schedule images at a TSU: the loader's checks, loading and unloading, the switch to a pending image, and
reads on the on-die network (R289, R306 to R308, R465, R512). -/

namespace Sys2Proof.Machine

open Sys2Proof

/-! ## Refusals -/

/-- REASON and offset of a refusal as a register word and as a detail (R289, R324). -/
def refusalWord (r : Refused) : Nat := r.1 * 16777216 + r.2 % 16777216

/-- A TSU loader refuses an object: TSU_IMAGE_REFUSAL and ONE_IMAGE_REFUSED, and the slice's refusal word (R289). -/
def State.tsuRefuse (s : State) (slice : Option Nat) (r : Refused) : State :=
  let s := s.updTsu fun t => { t with refusal := refusalWord r }
  let s := match slice with
    | some n => s.updSlice n fun v => { v with refusal := refusalWord r }
    | none => s
  s.logT .imageRefused ((slice.map srcSlice).getD 0) (refusalWord r) slice

/-! ## The checks -/

/-- The descriptor of a tumbler that a slice holds. -/
def Tumbler.desc (t : Tumbler) : TumbDesc :=
  { dom := decide (t.domain ≠ 0), counted := t.counted, index := t.index, op := t.op, fmt := t.fmt, lanes := t.lanes,
    target := t.target, mask := t.mask }

/-- Form and combine descriptor of two declarations agree (R308). -/
def TumbDesc.agrees (a b : TumbDesc) : Bool :=
  a.counted = b.counted && a.op = b.op && a.fmt = b.fmt && a.lanes = b.lanes

/-- The tag an image's tumbler belongs to. -/
def SchedImage.tag (m : SchedImage) (dom : Bool) : BitVec 24 := if dom then m.domain else 0

/-- The tumbler that a clause of an image names: declared, or held by the slice (R307). -/
def State.imageTumb (s : State) (n : Nat) (m : SchedImage) (dom : Bool) (index : Nat) : Option TumbDesc :=
  match m.tumblers.find? fun d => d.dom = dom && d.index = index with
  | some d => some d
  | none => ((s.findTumb n (m.tag dom) index).bind s.tumb?).map Tumbler.desc

/-- REASON CLAUSE: a sleep that names no end, a domain abort without a domain, and alternates of R301. -/
def SchedImage.clauseRule (m : SchedImage) (x : Sentence) (k : BitVec 128) (off : Nat) : Except Refused Unit := do
  let f := clauseBits k
  need (!(f 127 124 = 9 && f 95 94 = 1 && f 93 92 = 0)) 0x08 off
  need (!(f 127 124 = 10 && f 95 95 = 1 && m.domain = 0)) 0x08 off
  match if f 123 123 = 1 then m.clauses[x.first + f 116 109]? else none with
  | none => return ()
  | some a =>
    let g := clauseBits a
    need (m.clauses[x.first + f 116 109]? = some k || g 123 123 = 0) 0x08 off
    need (f 127 124 ≠ 1 || [0, 1, 7, 8].contains (g 127 124)) 0x08 off
    need (f 127 124 ≠ 1 || g 127 124 ≠ 1 || (g 107 96 = f 107 96 && g 108 108 = f 108 108 && g 33 32 = f 33 32)) 0x08 off

/-- Check 4 of R307 for one clause: every index it holds lies inside its table. -/
def State.clauseRefs (s : State) (n : Nat) (m : SchedImage) (x : Sentence) (k : BitVec 128) (off : Nat) :
    Except Refused Unit := do
  let f := clauseBits k
  let verb := f 127 124
  need (f 123 123 = 0 || (f 122 117 < x.kcnt && f 116 109 < x.ccnt)) 0x09 off
  need (!(1 ≤ verb && verb ≤ 6) || (s.imageTumb n m (f 108 108 = 1) (f 107 96)).isSome) 0x09 off
  let far : Nat → Bool := fun t => bitsOf t 35 34 ≠ 3 || bitsOf t 7 0 < m.times.length
  need (((verbTopnd verb k.toNat).map far).getD true) 0x09 off
  let data : Nat → Bool := fun d => d < m.datas.length
  match verb with
  | 0 => need (f 95 88 = 0xFF || f 95 88 < m.sentences.length) 0x09 off
  | 1 => do
    need (f 95 88 < m.portsets.length && f 87 76 < m.works.length) 0x09 off
    need (f 74 74 = 0 || ((s.imageTumb n m (f 73 73 = 1) (f 72 61)).map fun d =>
      d.counted || f 60 55 + ((m.portsets[f 95 88]?).getD []).length ≤ 64).getD false) 0x09 off
  | 2 => need (f 81 70 = 0xFFF || data (f 81 70)) 0x09 off
  | 3 => need (f 57 46 = 0xFFF || data (f 57 46)) 0x09 off
  | 4 | 5 | 6 => need (data (f 81 70) && data (f 69 58)) 0x09 off
  | 7 => need (f 95 88 < x.ccnt) 0x09 off
  | _ => return ()

/-- Check 6 of R307 for one clause: OP, FMT and LANES equal the tumbler's, and the operation is one of the verb. -/
def State.clauseCombine (s : State) (n : Nat) (m : SchedImage) (k : BitVec 128) (off : Nat) : Except Refused Unit := do
  let f := clauseBits k
  let verb := f 127 124
  if verb < 4 ∨ 6 < verb then return ()
  else
    let op := f 57 53
    need (match verb with
      | 4 => 1 ≤ op && op ≤ 10
      | 5 => op = 11
      | _ => op = 12) 0x0B off
    need (((s.imageTumb n m (f 108 108 = 1) (f 107 96)).map fun d =>
      decide (d.op = op ∧ d.fmt = f 52 45 ∧ d.lanes = f 44 36)).getD false) 0x0B off

/-- The clauses of an image by sentence, with their offsets. -/
def SchedImage.bySentence (m : SchedImage) (clOff : Nat) : List (Sentence × BitVec 128 × Nat) :=
  m.sentences.flatMap fun x => (List.range x.ccnt).filterMap fun i =>
    (m.clauses[x.first + i]?).map fun k => (x, k, clOff + 16 * (x.first + i))

/-- The tumblers a slice holds once an image is current: those it keeps, and those the image declares anew (R307,
R308). -/
def State.tumblersAfter (s : State) (n : Nat) (m : SchedImage) : List TumbDesc :=
  let held := (s.tsu.tumb.filter fun p => p.2.slice = n && p.2.estate ≠ .closing).map (·.2)
  let keep := held.filter fun t => !t.fromImage || m.tumblers.any fun d => m.tag d.dom = t.domain && d.index = t.index
  let fresh := m.tumblers.filter fun d => !(held.any fun t => m.tag d.dom = t.domain && d.index = t.index)
  keep.map Tumbler.desc ++ fresh

/-- The checks of a schedule image for a slice (R307). -/
def State.schedCheck (s : State) (n : Nat) (b : List Byte) (received : Nat) (inBand : Bool) :
    Except Refused SchedImage := do
  let r ← schedTables b received
  let m := r.1
  let off : Nat → Nat := fun t => (sectionOf r.2 t).off
  let v := s.slice n
  need (!(inBand && m.domain = 0)) 0x0D 16
  let held := m.domain = 0 || v.bindings.any fun x => x.tag = m.domain
  need held 0x0D 16
  checkAll m.sentences.zipIdx fun x =>
    need (x.1.first + x.1.ccnt ≤ m.clauses.length && x.1.cfirst + x.1.kcnt ≤ m.conjs.length) 0x09 (off 1 + 8 * x.2)
  let cs := m.bySentence (off 2)
  checkAll cs fun x => s.clauseRefs n m x.1 x.2.1 x.2.2
  checkAll cs fun x => m.clauseRule x.1 x.2.1 x.2.2
  checkAll m.conjs.zipIdx fun x =>
    need (s.imageTumb n m (bitOf x.1.toNat 51) (bitsOf x.1.toNat 63 52)).isSome 0x09 (off 3 + 8 * x.2)
  checkAll m.contexts.zipIdx fun x => need (x.1.1 < m.sentences.length) 0x09 (off 11 + 8 * x.2)
  checkAll (m.portsets.zip (portOffs m.portsets (off 4))) fun x =>
    checkAll x.1.zipIdx fun p => need (s.isPort p.1 && v.ports.contains p.1) 0x0A (x.2 + 4 + 2 * p.2)
  checkAll m.tumblers.zipIdx fun x => do
    need (descOk x.1.op x.1.fmt x.1.lanes x.1.counted && !(x.1.dom && m.domain = 0)) 0x0B (off 8 + 16 * x.2)
    need ((m.tumblers.filter fun y => y.dom = x.1.dom && y.index = x.1.index).length = 1) 0x0B (off 8 + 16 * x.2)
    need (((s.findTumb n (m.tag x.1.dom) x.1.index).bind s.tumb?).map (fun t => t.desc.agrees x.1) |>.getD true) 0x0B
      (off 8 + 16 * x.2)
  checkAll m.arms.zipIdx fun x =>
    need (((s.imageTumb n m x.1.dom x.1.index).map fun d => decide (x.1.alloc = decide (d.op = 0x0C))).getD true) 0x0B
      (off 9 + 16 * x.2)
  checkAll cs fun x => s.clauseCombine n m x.2.1 x.2.2
  checkAll m.conjs.zipIdx fun x =>
    let q := x.1.toNat
    need (((s.imageTumb n m (bitOf q 51) (bitsOf q 63 52)).map fun d =>
      srcLaneOk (bitsOf q 50 48) d.op d.fmt d.lanes (bitsOf q 44 36)).getD false) 0x0B (off 3 + 8 * x.2)
  let after := s.tumblersAfter n m
  need (((v.image.map (·.pages)).getD 0) + m.pages ≤ v.pageQ) 0x0C 0
  need (after.length ≤ v.tumbQ) 0x0C (off 8)
  need ((after.map scanRows).sum ≤ v.scanQ) 0x0C (off 8)
  need (!(m.policies.any fun p => p.2.rule = 2) || (m.tumblers.filter fun d => d.op = 0x0C).length ≤ v.carryQ) 0x0C (off 10)
  need (m.contexts.length ≤ v.dirQ) 0x0C (off 11)
  return m
where
  /-- the offsets of the port sets (R291) -/
  portOffs : List (List Nat) → Nat → List Nat
    | [], _ => []
    | ps :: t, o => o :: portOffs t (o + (4 + 2 * ps.length + 15) / 16 * 16)

/-! ## Loading and the switch -/

/-- A refusal names a tumbler whose combine descriptor R252 does not allow. -/
def badDescriptor (b : List Byte) (received : Nat) (r : Refused) : Bool :=
  match schedTables b received with
  | .ok (m, secs) => m.tumblers.zipIdx.any fun x =>
      decide (r = (0x0B, (sectionOf secs 8).off + 16 * x.2)) && !descOk x.1.op x.1.fmt x.1.lanes x.1.counted
  | .error _ => false

/-- A received image is judged, and becomes pending; a combine descriptor that is not allowed also has its own code (R252, R307,
R308). -/
def State.schedLoaded (s : State) (n : Nat) (b : List Byte) (received : Nat) (inBand : Bool) : State :=
  if (s.slice n).pending ≠ .none then s.tsuRefuse (some n) (0x13, 0)
  else match s.schedCheck n b received inBand with
    | .error r =>
      let s := if badDescriptor b received r then s.logT .combineUnsupported (srcSlice n) 0 (some n) else s
      s.tsuRefuse (some n) r
    | .ok m => s.updSlice n fun v => { v with pending := .image m }

/-- LOAD of a slice page: the image is read from slice memory (R306, R463). -/
def State.imageLoad (s : State) (n : Nat) : State :=
  s.spGuard n 0x14C fun s =>
    let v := s.slice n
    if v.imgBusy ∨ v.pending ≠ .none then s.tsuRefuse (some n) (0x13, 0)
    else
      let addr := v.word 0x144 * 4294967296 + bitsOf (v.word 0x140) 31 4 * 16
      (s.updSlice n fun v => { v with imgBusy := true }).nwRead (.image n) v.pasid addr (bitsOf (v.word 0x148) 18 0)

/-- IMAGE_LOAD (R307). -/
def execImageLoad (slice : Nat) (s : State) : Outcome := .next (s.imageLoad slice)

/-- UNLOAD of a slice page (R308). -/
def State.imageUnload (s : State) (n : Nat) : State :=
  s.spGuard n 0x14C fun s =>
    if (s.slice n).imgBusy then s.tsuRefuse (some n) (0x13, 0) else s.updSlice n fun v => { v with pending := .removal }

/-- IMAGE_UNLOAD (R308). -/
def execImageUnload (slice : Nat) (s : State) : Outcome := .next (s.imageUnload slice)

/-- The contexts of a slice leave with its image: directory entries are returned. -/
def State.dropContexts (s : State) (n : Nat) : State :=
  s.updTsu fun t => { t with contexts := t.contexts.filter fun p => p.2.slice ≠ n }

/-- A pending image becomes current: tumblers of the old image alone are closed, those of both carry on, those of the
new one are created, and AUTOSTART contexts start (R308). -/
def State.imageSwitch (s : State) (n : Nat) (m : Option SchedImage) : State :=
  let s := s.dropContexts n
  let declared : Tumbler → Bool := fun t => match m with
    | some m => m.tumblers.any fun d => m.tag d.dom = t.domain && d.index = t.index
    | none => false
  let old := s.tsu.tumb.filter fun p => p.2.slice = n && p.2.fromImage && p.2.estate ≠ .closing && !declared p.2
  let s := old.foldl (fun s p => s.closeTumb p.1) s
  let s := s.updSlice n fun v => { v with image := m, pending := .none }
  match m with
  | none => s
  | some m =>
    let s := m.tumblers.foldl (fun s d => match s.findTumb n (m.tag d.dom) d.index with
      | some e => s.updTumb e fun t => { t with fromImage := true }
      | none => match s.createRefusal n (m.tag d.dom) d with
        | some c => s.logT c (srcSlice n) 0 (some n)
        | none => s.createTumb n (m.tag d.dom) d true) s
    m.contexts.zipIdx.foldl (fun s x => if x.1.2 then s.startCtx n x.2 x.1.1 else s) s

/-- No context of the slice runs: every one is stopped or halted (R308). -/
def State.noneRuns (s : State) (n : Nat) : Bool :=
  s.tsu.contexts.all fun p => p.2.slice ≠ n || p.2.state = .stopped || p.2.state = .halted

/-- SCHEDULE_IMAGE_CURRENT (R308). -/
def execScheduleImageCurrent (slice : Nat) (s : State) : Outcome :=
  .next (if !s.noneRuns slice then s
    else match (s.slice slice).pending with
      | .none => s
      | .image m => s.imageSwitch slice (some m)
      | .removal => s.imageSwitch slice none)

/-! ## Reads on the on-die network -/

/-- Read data returns for a software arrival, an image load, or a clause's payload (R465, R512). -/
def State.readResponse (s : State) (data : List Byte) (error : Bool) : State :=
  match s.tsu.nwReads.find? fun r => match r.kind with
    | .swapIn _ => false
    | _ => true with
  | none => s
  | some r =>
    let s := s.updTsu fun t => { t with nwReads := t.nwReads.erase r }
    let data := padTo r.len data
    match r.kind with
    | .arrival n =>
      let s := s.updSlice n fun v => { v with arvBusy := false }
      if error then s.spCode n 0x06C .arriveInvalid 1
      else match s.named n ((s.slice n).word 0x060) with
        | none => s.spCode n 0x06C .noTumbler
        | some e => s.softArrive n e data
    | .image n =>
      let s := s.updSlice n fun v => { v with imgBusy := false }
      if error then s.tsuRefuse (some n) (0x04, 0) else s.schedLoaded n data r.len false
    | .clauseData c => match Tab.get s.tsu.contexts c with
      | none => s
      | some x =>
        if x.block ≠ .payload then s
        else if error then
          let s := s.logT .arriveInvalid (srcCtx x.record) 1 (some x.slice)
          (s.waitRecord x.slice (srcCtx x.record) none none 0 .arriveInvalid).ctxNext c
        else
          let k := ((s.slice x.slice).clause x.sentence (x.altClause.getD x.clause)).getD 0
          s.ctxArrive c x k data
    | .swapIn _ => s

/-- NW_READ_RESPONSE (R512). -/
def execNwReadResponse (data : List Byte) (error : Bool) (s : State) : Outcome := .next (s.readResponse data error)

end Sys2Proof.Machine
end

