-- ==== Sys2Proof/Machine/RefOps.lean ====
section
/-! DEFINITION. The shared operations of the reference selector and of the time root: faults, candidates, selection
and the reference state (R91 to R110). -/

namespace Sys2Proof.Machine

open Sys2Proof

/-- A word of the reference priority table (R99). -/
def State.prioWord (s : State) (i : Nat) : Nat := s.reg .gd (0x248 + 4 * i)
/-- SOURCE of a priority-table entry. -/
def State.prioSource (s : State) (i : Nat) : Nat := bitsOf (s.prioWord i) 3 0
/-- PRIORITY of a priority-table entry. -/
def State.prioRank (s : State) (i : Nat) : Nat := bitsOf (s.prioWord i) 7 4

/-- MODE of reference input n (R94, R478). -/
def State.refMode (s : State) (n : Nat) : Nat := bitsOf (s.reg .gd 0x214) (8 * n + 1) (8 * n)

/-- PTP_ROLE of an Ethernet time port: 0 DISABLED, 1 MASTER, 2 PASSIVE, 3 SLAVE (R315). -/
def State.ptpRole (s : State) (n : Nat) : Nat := bitsOf (s.reg .gd (0x294 + 4 * n)) 1 0

/-- A source is present: its unit is there (R5), and its input is on or its port has the SLAVE role (R98). -/
def State.refPresent (s : State) (src : Nat) : Bool :=
  if 1 ≤ src ∧ src ≤ 4 then s.gd.hasRef && decide (s.refMode (src - 1) = 1 ∨ s.refMode (src - 1) = 2)
  else if src = 5 ∨ src = 6 then s.gd.hasPtp && s.ptpRole (src - 5) = 3
  else if src = 7 ∨ src = 8 then s.gd.hasPtp && s.ptpRole (src - 7) = 3
  else false

/-- A source gives time: a 1PPS input or a PTP port (R94, R96, R99). -/
def State.refIsTime (s : State) (src : Nat) : Bool :=
  if 1 ≤ src ∧ src ≤ 4 then s.refMode (src - 1) = 1 else src = 5 ∨ src = 6

/-- The state of a source. -/
def State.refSrc (s : State) (src : Nat) : RefSrc := Tab.getD s.gd.ref.srcs src RefSrc.reset

/-- A QUALIFIED entry that is present and not locked out is a frequency candidate (R94, R100). -/
def State.freqCand (s : State) (i : Nat) : Bool :=
  s.refPresent (s.prioSource i) && !bitOf (s.prioWord i) 9 && (s.refSrc (s.prioSource i)).state = .qualified

/-- A time candidate is a time entry that is besides not far (R100, R107). -/
def State.timeCand (s : State) (i : Nat) : Bool :=
  s.freqCand i && s.refIsTime (s.prioSource i) && !(s.refSrc (s.prioSource i)).far

/-- The eight indices of the priority table. -/
def prioIds : List Nat := [0, 1, 2, 3, 4, 5, 6, 7]

/-- The candidate of lowest PRIORITY, then lowest index. -/
def State.bestEntry (s : State) (cand : Nat → Bool) : Option Nat :=
  minBy (fun i => s.prioRank i * 8 + i) (prioIds.filter cand)

/-- The entry that selection keeps or takes (R100, steps 2, 4 and 5). -/
def State.pickEntry (s : State) (cand : Nat → Bool) (cur : Option Nat) : Option Nat :=
  let w := s.reg .gd 0x268
  if bitOf w 3 ∧ cand (bitsOf w 2 0) then some (bitsOf w 2 0)
  else match cur with
    | some i => if cand i then some i else s.bestEntry cand
    | none => s.bestEntry cand

/-- LOCKED is left: TRACEABLE is lost from now on (R104, R111). -/
def RefSel.unlocked (r : RefSel) (aon : Nat) : RefSel :=
  { r with traceAt := if r.rstate = .locked then aon else r.traceAt }

/-- The reference state that follows from the selected entries, where `oldT` and `oldF` were selected before (R104, R105,
R108, R109). A switch in the middle of a slew keeps the tracked frequency from which the rate may depart (R105). -/
def State.refStateUpdate (s : State) (oldT oldF : Option Nat) : State :=
  let r := s.gd.ref
  let aon := s.gd.com.time.aon
  let addend := s.gd.com.time.addend
  if !r.isRoot then
    s.updRef fun r => { r with rstate := if s.gd.com.time.stepped then .follow else .start, allLost := false }
  else if !s.gd.com.time.stepped then s
  else match r.timeEntry, r.freqEntry with
    | some e, _ =>
      if oldT = some e ∧ (r.rstate = .pulling ∨ r.rstate = .locked) then s
      else
        let s := s.updRefSrc (s.prioSource e) fun v => { v with filtered := none, sum := 0, num := 0 }
        s.updRef fun r =>
          { r.unlocked aon with rstate := .pulling, inRow := 0, outRow := 0, allLost := false, rampAcc := 0,
                                tracked := if r.rstate = .pulling then r.tracked else addend }
    | none, some e =>
      if oldF = some e ∧ r.rstate = .freqLock then s
      else
        let goal := (s.refSrc (s.prioSource e)).rate.getD addend
        s.updRef fun r => { r.unlocked aon with rstate := .freqLock, allLost := false, tracked := goal }
    | none, none =>
      if r.rstate = .freeRun then s
      else (s.updRef fun r => { r.unlocked aon with rstate := .freeRun, allLost := true }).logG .refAllLost

/-- The selection as it stands, kept at the first event of a tick (R101). -/
def RefSel.keepTick (r : RefSel) (aon : Nat) : RefSel :=
  if r.hold.map (·.aon) = some aon then r
  else { r with hold := some { aon, timeEntry := r.timeEntry, freqEntry := r.freqEntry, rstate := r.rstate, inRow := r.inRow,
                               outRow := r.outRow, tracked := r.tracked, traceAt := r.traceAt, allLost := r.allLost,
                               wtrs := [] } }

/-- The selection with which the tick began (R101). -/
def RefSel.tickStart (r : RefSel) : RefSel :=
  match r.hold with
  | some h => { r with timeEntry := h.timeEntry, freqEntry := h.freqEntry, rstate := h.rstate, inRow := h.inRow,
                       outRow := h.outRow, tracked := h.tracked, traceAt := h.traceAt, allLost := h.allLost }
  | none => r

/-- The always-on instant at which an entry's WTR ends (R99 to R101). -/
def State.wtrEnd (s : State) (i : Nat) : Nat :=
  max (s.refSrc (s.prioSource i)).qualAt (Tab.getD s.gd.ref.wtrFrom i 0) + bitsOf (s.prioWord i) 27 16 * 1000000000

/-- An entry is strictly better than the current one, revertive, and has stayed QUALIFIED for its WTR (R100). -/
def State.mayRevert (s : State) (cand : Nat → Bool) (cur : Option Nat) (i : Nat) : Bool :=
  cand i && bitOf (s.prioWord i) 8 && s.wtrEnd i ≤ s.gd.com.time.aon && match cur with
    | some c => s.prioRank i < s.prioRank c
    | none => true

/-- An entry is forced (R100, step 5). -/
def State.forced (s : State) (cand : Nat → Bool) : Bool :=
  bitOf (s.reg .gd 0x268) 3 && cand (bitsOf (s.reg .gd 0x268) 2 0)

/-- The entry of R100: step 5, else step 2 and the reversions of step 3 to the entries whose WTR ended. -/
def State.selectEntry (s : State) (cand : Nat → Bool) (cur : Option Nat) (wtrs : List Nat) : Option Nat :=
  let e := s.pickEntry cand cur
  if s.forced cand then e else wtrs.foldl (fun e i => if s.mayRevert cand e i then some i else e) e

/-- Run the selector (R100) on what the tick began with, so that all events of one tick are judged together (R101). -/
def State.refSelect (s : State) : State :=
  let r := (s.gd.ref.keepTick s.gd.com.time.aon).tickStart
  let wtrs := (r.hold.map (·.wtrs)).getD []
  let t := s.selectEntry s.timeCand r.timeEntry wtrs
  let f := s.selectEntry s.freqCand r.freqEntry wtrs
  let s := s.updRef fun _ => { r with timeEntry := t, freqEntry := f }
  s.refStateUpdate r.timeEntry r.freqEntry

/-- Become time root: time is taken from no sync link, the counter does not step, and references enter the servo
under R105 (R91, R93, R118). -/
def State.becomeRoot (s : State) : State :=
  let s := s.updRef fun r => { r with isRoot := true, rstate := .start, hold := none, partnerLostAt := none, upLostAt := none,
                                      tracked := s.gd.com.time.addend }
  let s := s.updTimeQ .gd fun t =>
    { t with sel := none, flyAt := none, upTq := .none, tq := if t.stepped then .qualified else t.tq,
             launchOk := t.stepped }
  s.refSelect

/-- The standby root takes over: it becomes time root, and the acting side for every domain (R93, R384). -/
def State.takeOver (s : State) : State :=
  (s.becomeRoot.updGd fun g => { g with actingTo := some g.sideB, returnAt := none }).logG .rootTakeover

/-- A loss or fault of a source moves it to FAILED with its cause bit; a QUALIFIED one records ONE_REF_LOST, and the
selector runs (R97, R98, R100). -/
def State.refFault (s : State) (src : Nat) (bit : Word) : State :=
  if s.refPresent src then
    let was := (s.refSrc src).state
    let s := s.updRefSrc src fun v => { v with state := .failed, goodSecs := 0 }
    let s := s.setEvt .gd (0x228 + 4 * (src - 1)) bit
    let s := if was = .qualified then s.logG .refLost src else s
    s.refSelect
  else s

/-- No loss or fault of a source stands now: of an Ethernet time port its class and its messages, of SyncE the frequency,
the PCS lock and the ESMC messages, of 10 MHz the frequency (R97). A faulty edge or time-of-day message is a fault of the
tick it comes on. -/
def State.refHealthy (s : State) (src : Nat) : Bool :=
  let v := s.refSrc src
  let aon := s.gd.com.time.aon
  let freqOk := v.devPpb.natAbs ≤ s.refFreqLimit
  if src = 5 ∨ src = 6 then v.classRx ≤ s.ptpClassMax && aon < v.lastAnn + 375000000 && aon < v.lastSeen + 187500000
  else if src = 7 ∨ src = 8 then freqOk && !v.dnu && !v.pcsLost && aon < v.lastAnn + 5000000000
  else s.refIsTime src || freqOk

/-- A tick without loss or fault: a FAILED entry returns to QUALIFYING (R98). DESIGN CHOICE (log entry 132): that tick is the
one on which its next good edge, message or measurement comes. -/
def State.refGood (s : State) (src : Nat) : State :=
  let aon := s.gd.com.time.aon
  let ok := s.refHealthy src
  s.updRefSrc src fun v => if v.state = .failed ∧ ok then { v with state := .qualifying, okSince := aon } else v

/-- One source after a change of its MODE or role: switched off it is ABSENT, switched on it is QUALIFYING (R98).
DESIGN CHOICE (log entry 132): its loss limits run from the instant it is switched on. -/
def State.refPresence (s : State) (src : Nat) : State :=
  let on := s.refPresent src
  let aon := s.gd.com.time.aon
  s.updRefSrc src fun v =>
    if on ∧ v.state = .absent then { v with state := .qualifying, okSince := aon, lastSeen := aon, lastAnn := aon }
    else if !on ∧ v.state ≠ .absent then { RefSrc.reset with far := v.far }
    else v

/-- Every source after a change of a MODE or role, and the selector (R98, R100). -/
def State.refsConfig (s : State) : State := ([1, 2, 3, 4, 5, 6, 7, 8].foldl (fun (s : State) src => s.refPresence src) s).refSelect

/-- The frequency of an entry against the counter rate, and the addend that matches it; in FREQ_LOCK the selected entry's
is the rate to steer to (R97, R108). -/
def State.noteRate (s : State) (src : Nat) (dev : Int) : State :=
  let a : Int := s.gd.com.time.addend
  let rate := clampAddend (a + roundAway (a * dev) 1000000000)
  let s := s.updRefSrc src fun v => { v with devPpb := dev, rate := some rate }
  if s.gd.ref.rstate = .freqLock ∧ s.gd.ref.freqEntry.map s.prioSource = some src then
    s.updRef fun r => { r with tracked := rate }
  else s

/-! ## Timing outputs -/

/-- The output timebase in units of 2^-32 ns: it never steps, and OUT_MISALIGN is its difference from the counter
(R114). -/
def State.timebase (s : State) : Int := s.gd.com.time.counter.toUnits - s.gd.out.misalign

/-- OUT_SQUELCH of an output holds it low (R115). -/
def State.squelched (s : State) (k : Nat) : Bool :=
  match bitsOf (s.reg .gd 0x2A4) (2 * k + 5) (2 * k + 4) with
  | 0 => false
  | 2 => !s.traceable .gd
  | _ => s.ownQuality .gd ≠ .qualified

/-- An output may drive: its unit is there, it is enabled, the timebase is aligned, and nothing squelches it (R113 to
R115). -/
def State.outAllowed (s : State) (k : Nat) : Bool :=
  s.gd.hasRef && bitOf (s.reg .gd 0x2A4) k && s.gd.out.aligned && !s.squelched k

/-- R of R326 at an instant of the timebase in units of 2^-32 ns. -/
def State.radioAt (s : State) (x : Int) : Int := radioNs s.gd.com.rfFrames s.gd.com.rfNs (x / 4294967296)

/-- The level an output has at an instant of the timebase, OUT_DELAY moved in: PPS_OUT from each second for its width,
CLK10M_OUT for the first half of each 100 ns (R498), RFRAME_OUT for 1 µs from each radio frame, or from those of number 0
(R113). -/
def State.outWave (s : State) (k : Nat) (x : Int) : Bool :=
  let x := x + (BitVec.ofNat 32 (s.reg .gd (0x2AC + 4 * k))).toInt * 4294967296 / 1000
  match k with
  | 0 => decide (x % 4294967296000000000 < clampNat 1 500000 (s.reg .gd 0x2A8) * 4294967296000)
  | 1 => decide (x % 429496729600 < 214748364800)
  | _ =>
    let r := s.radioAt x
    decide (r % 10000000 < 1000) && (!bitOf (s.reg .gd 0x2A4) 3 || r / 10000000 % 1024 = 0)

/-- The pins at a tick, from the timebase before it: an output that may drive begins at a second boundary, or a radio-frame
boundary where a realignment holds RFRAME_OUT; one that may not is low (R113 to R115, R498). -/
def State.outputsTick (s : State) (before : Int) : State :=
  let now := s.timebase
  let second : Bool := before / 4294967296000000000 < now / 4294967296000000000
  let frame : Bool := s.radioAt before / 10000000 < s.radioAt now / 10000000
  let held := s.gd.out.rfHeld && !frame
  let live : Nat → Bool := fun k => s.outAllowed k && (Tab.getD s.gd.out.live k false || second)
  s.updGd fun g => { g with out := { g.out with
    live := [0, 1, 2].map fun k => (k, live k), rfHeld := held,
    level := [0, 1, 2].map fun k => (k, live k && s.outWave k now && !(k = 2 && held)) } }

/-- The outputs take the counter's phase at a second boundary: those that may drive run from there (R114). -/
def State.outputsAlign (s : State) (realign : Bool) : State :=
  let s := s.updGd fun g => { g with out := { g.out with misalign := 0, aligned := true, orderAt := none, firstAt := none } }
  s.updGd fun g => { g with out := { g.out with
    live := [0, 1, 2].map fun k => (k, s.outAllowed k), rfHeld := realign } }

end Sys2Proof.Machine
end

