-- ==== Sys2Proof/Machine/TimeTransfer.lean ====
section
/-! DEFINITION. The commands of time transfer: sending and receiving time frames, the two-way exchange, the delay
measurement, loss of time and the switch to a better source (R66 to R90), with the split and takeover of the hall
roots that a time frame decides (R93). -/

namespace Sys2Proof.Machine

open Sys2Proof

/-- Correct a stamp in units of 2^-16 ns by a correction in ps, at the 7.8125 ps resolution of R71. -/
def correctStamp (stamp ps : Int) : Int := roundAway (stamp * 1000 + ps * 65536) 512000 * 512

/-- The transmit correction of a lane or port at its rate, in ps (R73). -/
def State.txCorr (s : State) (l : LinkId) : Int :=
  let v := s.src l
  let own := if (s.link l).fallback then v.corrTx1 else v.corrTx0
  match l.node with
  | .tsu => own + bitsOf (s.reg .tsu (0x18C + 0x20 * l.port)) 15 0
  | .gd => own

/-- The receive correction of a lane or port at its rate, in ps (R73). -/
def State.rxCorr (s : State) (l : LinkId) : Int :=
  let v := s.src l
  let own := if (s.link l).fallback then v.corrRx1 else v.corrRx0
  match l.node with
  | .tsu => own + bitsOf (s.reg .tsu (0x18C + 0x20 * l.port)) 31 16
  | .gd => own

/-- The length of a frame slot in units of 2^-16 ns: 20.480 ns, or 51.200 ns at fallback (R147). -/
def slotUnits (fallback : Bool) : Int := if fallback then 3355443 else 1342177

/-- The own locator of a distributor, or 0. -/
def Gd.ownLoc (g : Gd) : Nat := g.locator.getD 0

/-- The time field and payload of a time frame (R69). -/
def State.timeFrame (s : State) (l : LinkId) (dep : Int) (echo : Option EchoRx) (tseq : BitVec 8) : Frame :=
  let t := s.time l.node
  let root : Bool := l.node = .gd ∧ s.gd.ref.isRoot
  let i := t.info
  let trace := s.traceable l.node
  let status := (s.ownQuality l.node).code * 64 + b2n trace * 32 + b2n i.leap61 * 16 + b2n i.leap59 * 8
    + b2n i.utcValid * 4 + b2n echo.isSome * 2
  let d := stamp48 dep
  let e := echo.getD ⟨0, 0, 0⟩
  let body := natBytes (d % 65536) 2 ++ natBytes (dep / 65536000000000).toNat 6 ++ natBytes e.tx 6
    ++ natBytes (stamp48 e.rx) 6 ++ natBytes e.tseq.toNat 1 ++ natBytes tseq.toNat 1 ++ natBytes t.epoch.toNat 1
    ++ natBytes status 1 ++ natBytes i.utcOffset.toNat 2 ++ natBytes i.utcNext.toNat 2 ++ i.leapAt.bytes
    ++ natBytes (s.ownHops l.node) 1 ++ [0] ++ natBytes (if root then s.gd.ownLoc else i.rootId) 3
  { Frame.blank 0x01 0 with ver := BitVec.ofNat 2 (s.link l).arch, time := BitVec.ofNat 32 (d / 65536),
                            body := padTo 48 body }

/-- Send a time frame with its departure stamp taken at the block boundary in units of 2^-16 ns (R67 to R74). It takes
the slot it comes in, and the next one is due 512 ticks on. DESIGN CHOICE (log entry 127): the four periods within which the echoed frame
was received run from the arrival stamp of its first bit; the 100 ns run from its last bit, one slot later. -/
def State.timeFrameSend (s : State) (l : LinkId) (stamp : Int) : State :=
  let k := s.link l
  if k.state = .up ∨ k.state = .ident then
    let v := s.src l
    let dep := correctStamp stamp (s.txCorr l)
    let slot := slotUnits k.fallback
    let echo := v.rxs.find? fun e => e.rx + slot + 6553600 ≤ dep ∧ dep ≤ e.rx + 268435456
    let seq := v.tseq + 1
    let f := s.timeFrame l dep echo seq
    let aon := s.aon l.node
    let hops := s.ownHops l.node
    let s := s.updTime l.node fun t => { t with hopsSent := hops }
    let s := s.updSrc l fun v =>
      { v with tseq := seq, sent := (⟨seq, stamp48 dep, aon⟩ :: v.sent).take 5 }
    (s.addTokens l).updLink l fun k => { k.slotOut with line := some f, wire := rsLine f.bytes, sinceTime := 0 }
  else s

/-- TIME_FRAME_SEND (R67). -/
def execTimeFrameSend (l : LinkId) (stamp : Int) (s : State) : Outcome := .next (s.timeFrameSend l stamp)

/-- The quality a time frame carries; 0b00 is read as UNQUALIFIED (R69). -/
def frameQuality (f : Frame) : Quality :=
  match bitsOf (f.byte 35) 7 6 with
  | 1 => .qualified
  | 3 => .withdrawn
  | _ => .unqualified

/-- The fields of R85 that a time frame carries. -/
def frameInfo (f : Frame) : TimeInfo :=
  let b := f.byte 35
  { traceable := bitOf b 5, leap61 := bitOf b 4, leap59 := bitOf b 3, utcValid := bitOf b 2,
    utcOffset := BitVec.ofNat 16 (f.nat 36 2), utcNext := BitVec.ofNat 16 (f.nat 38 2),
    leapAt := time80At f.body 28, rootId := f.nat 52 3 % 1048576 }

/-- The checks of R70 on a time frame: its departure NANOSECONDS, and LEAP_AT while a leap second is announced. -/
def timeFrameValid (f : Frame) : Bool :=
  let ns := (f.time.toNat + 4294967296 - f.nat 14 6 * 1000000000 % 4294967296) % 4294967296
  let i := frameInfo f
  ns < 1000000000 && (!(i.leap61 || i.leap59) || i.leapAt.valid)

/-- The two-way exchange of a time frame (R75): twice the delay in units of 2^-16 ns, and the offset θ corrected for
asymmetry (R76), where the exchange is valid. -/
def State.exchange (s : State) (l : LinkId) (f : Frame) (arr : Int) : Option (Int × Int) :=
  let v := s.src l
  let t1 : Int := f.nat 20 6
  let t2 : Int := f.nat 26 6
  let t3 : Int := f.time.toNat * 65536 + f.nat 12 2
  let t4 : Int := stamp48 arr
  let hold := sdiff 48 t3 t2
  let known := v.sent.any fun e => e.tseq.toNat = f.byte 32 ∧ s.aon l.node ≤ e.aon + 4096
  if bitOf (f.byte 35) 1 ∧ known ∧ 0 ≤ hold ∧ hold ≤ 134217728 then
    let d2 := sdiff 48 t4 t1 - hold
    let raw2 := sdiff 48 t1 t2 + sdiff 48 t4 t3
    let a := if upstreamEnd l then v.asym else - v.asym
    some (d2, roundAway (raw2 * 1000 + a * 65536) 2000)
  else none

/-- A valid exchange enters the measurement, or is gated against the running mean (R77). True when it is kept. -/
def TimeSrc.take (v : TimeSrc) (gate : Nat) (d2 theta : Int) : TimeSrc × Bool :=
  if v.delayValid then
    let diff := (d2 * 2 ^ v.mean.exp - v.mean.num).natAbs
    if gate * 2 ^ v.mean.exp < diff then
      ({ v with gated := v.gated + 1, exchDrop := min (v.exchDrop + 1) 0xFF }, false)
    else
      ({ v with gated := 0, theta := theta,
                mean := ⟨v.mean.num * 64 + (d2 * 2 ^ v.mean.exp - v.mean.num), v.mean.exp + 6⟩ }, true)
  else if v.count < 64 then
    ({ v with theta := theta, count := v.count + 1, sum := v.sum + d2,
              thetaFirst := if v.count = 0 then theta else v.thetaFirst }, true)
  else ({ v with theta := theta }, true)

/-- The integral loaded at first lock: the frequency error over the 64 exchanges, in units of 2^-48 ns per
period (R79). -/
def firstIntegral (first last : Int) : Int := roundAway ((last - first) * 4294967296) 63

/-- First lock (R44, R54, R79): the counter steps by −θ, the integral is loaded, the epoch of the source is taken,
and the node passes to SETTLING, or to WITHDRAWN under a WITHDRAWN sender. A hall root that steps from its pods
becomes time root; one that steps from its partner follows it (R110, R120). -/
def State.firstLock (s : State) (l : LinkId) (theta : Int) : State :=
  let v := s.src l
  let n := l.node
  let s := s.stepCounter n (Time80.ofUnits ((s.now n).toUnits - theta * 65536))
  let s := s.updTimeQ n fun t =>
    { t with integ := v.freqErr, epoch := v.senderEpoch, offset := theta, upTq := v.senderTq,
             tq := if v.senderTq = .withdrawn then .withdrawn else .settling, inLimit := 0, outLimit := 0 }
  let s := if n = .tsu ∧ v.senderTq = .withdrawn then s.healthSendEv 5 Config.withdrawnCode else s
  if n = .gd then
    if s.gd.role = some 3 ∧ l.port < 64 then s.becomeRoot else s.updRef fun r => { r with rstate := .follow, hold := none }
  else s

/-- A valid exchange on the selected source feeds the servo (R79, R80). -/
def State.servoUpdate (s : State) (l : LinkId) (theta : Int) : State :=
  let n := l.node
  let s := s.takeOffset n theta
  s.updTime n fun t => t.servo (s.slewEntry n) (s.kpShift n) (s.kiShift n) theta

/-- The sources from which a node may take its first step: none that carries no root time (R117). -/
def State.mayLock (s : State) (l : LinkId) : Bool := (s.src l).delayValid && (s.src l).senderHops < 0xFF

/-- What a kept exchange does for the selected source: first lock, or the servo. -/
def State.selectedExchange (s : State) (l : LinkId) (theta : Int) : State :=
  if (s.time l.node).stepped then s.servoUpdate l theta
  else if s.mayLock l then s.firstLock l theta
  else s

/-- The ports on which a time root sees another's claim: of a hall root its partner link (R93), of an elected pod its
upstream ports and its ring (R118). -/
def State.splitPorts (s : State) : List Nat := if s.gd.role = some 3 then [s.gd.partnerPort] else [64, 65, 66, 67]

/-- A root that sees a lower-index ROOT_ID from another root stops being time root and follows it (R93, R118). -/
def State.rootSplit (s : State) (l : LinkId) (f : Frame) : State :=
  let i := frameInfo f
  if l.node = .gd ∧ s.gd.ref.isRoot ∧ l.port ∈ s.splitPorts ∧ f.byte 50 < 0xFF ∧ i.rootId ≠ s.gd.ownLoc
      ∧ s.rootIndex i.rootId < s.rootIndex s.gd.ownLoc then
    let s := s.updRef fun r => { r with isRoot := false, elected := false, rstate := .follow, hold := none }
    let s := if s.gd.role = some 3 then (s.setEvt .gd 0x26C 0x4000).logG .rootSplit l.port else s
    s.selectSource .gd
  else s

/-- Take over as time root from the partner (R93). -/
def State.rootTakeover (s : State) : State := s.takeOver

/-- A standby root that receives its own time frames back on the partner link takes over at once (R93). The echo of
its own frames carries its own sequence and its own locator as the sender's root. -/
def State.loopback (s : State) (l : LinkId) (f : Frame) : Bool :=
  l.node = .gd && s.gd.role = some 3 && !s.gd.ref.isRoot && l.port = s.gd.partnerPort
    && s.gd.com.time.stepped
    && (Tab.getD s.gd.com.srcs (133 - l.port) TimeSrc.reset).sent.any fun e =>
        e.tseq.toNat = f.byte 33 ∧ e.tx = f.time.toNat * 65536 + f.nat 12 2

/-- The fields of a time frame of the selected source are copied, and its sender's quality is judged (R56, R85, R111). -/
def State.takeInfo (s : State) (n : Node) (i : TimeInfo) (q : Quality) : State :=
  let was := s.traceable n
  let s := (s.updTime n fun t => { t with info := i }).judgeSender n q
  match n with
  | .tsu => s
  | .gd => s.noteTrace was

/-- What a valid time frame brings to its source: the sender's information, a loop that ends a root, a higher root, a changed
epoch, and the exchange that its echo completes (R74, R75, R82, R93, R118). -/
def State.timeFrameTake (s : State) (l : LinkId) (f : Frame) (stamp : Int) (up : Bool) : State :=
  let n := l.node
  let aon := s.aon n
  let arr := correctStamp stamp (- s.rxCorr l)
  let v := s.src l
  let curQ := (s.time n).upTq
  let q := frameQuality f
  let echo : EchoRx := ⟨BitVec.ofNat 8 (f.byte 33), f.time.toNat * 65536 + f.nat 12 2, arr⟩
  let better := if (s.time n).sel ≠ some l.port ∧ q.rank < curQ.rank then v.better + 1 else 0
  let s := s.updSrc l fun v =>
    { v with timeOk := true, lost := false, lastValid := aon, rxs := (echo :: v.rxs).take 5, senderTq := q,
             senderEpoch := BitVec.ofNat 8 (f.byte 34), senderHops := f.byte 50, better := better,
             info := frameInfo f }
  let s := if n = .gd ∧ l.port = s.gd.partnerPort then
      s.updGd fun g => { g with ref := { g.ref with partnerLostAt := none } } else s
  if s.loopback l f then s.rootTakeover
  else
    let s := s.rootSplit l f
    let selected : Bool := (s.time n).sel = some l.port
    if selected ∧ (s.time n).stepped ∧ (s.time n).epoch.toNat ≠ f.byte 34 then s.timeDomainReset n
    else
      let s := if selected then s.takeInfo n (frameInfo f) q else s.selectSource n
      match (if up then s.exchange l f arr else none) with
      | none => s
      | some (d2, theta) =>
        let r := (s.src l).take (s.delayGate n) d2 theta
        let s := s.updSrc l fun _ => r.1
        if r.2 ∧ (s.time n).sel = some l.port then s.selectedExchange l theta else s

/-- A received time frame: checked (R70, R162), stamped, turned into an exchange (R75), and applied to its source,
to the selection and, on the selected source, to the epoch, the copied fields and the servo. An end in IDENT that has
seen RX_OK enters UP on it (R152). DESIGN CHOICE (log entry 128): the 16 periods of R82 are counted in frames received, which a missing
frame does not break. -/
def State.timeFrameRx (s : State) (l : LinkId) (rx : Rx) (stamp : Int) : State :=
  let wasUp := (s.link l).state = .up
  let s := s.identUp l rx
  let k := s.link l
  let f := rx.frame
  let n := l.node
  if ¬ (k.state = .up ∨ k.state = .ident) then s
  else
    match rx.check with
    | .uncorrectable => s.uncorrectableSlot l true
    | .poison => s.poisonSlot l
    | _ =>
      let s := s.slotTaken l rx
      if f.type ≠ 0x01 ∨ f.cls ≠ 0 ∨ (wasUp ∧ f.ver.toNat ≠ k.arch) then s.malformed l
      else if k.excluded then s
      else if !timeFrameValid f then s.log n .timeInvalid l.source
      else s.timeFrameTake l f stamp (k.state = .up)

/-- TIME_FRAME_RX (R75). -/
def execTimeFrameRx (l : LinkId) (rx : Rx) (stamp : Int) (s : State) : Outcome :=
  .next ((s.timeFrameRx l rx stamp).addendWord s.tsu.com.time.addend)

/-- Two means differ by more than 10 ns: 1,310,720 units of 2^-17 ns (R88). -/
def meansDiffer (a b : Dy) : Bool :=
  1310720 * 2 ^ (a.exp + b.exp) < (a.num * 2 ^ b.exp - b.num * 2 ^ a.exp).natAbs

/-- After 64 valid exchanges the mean delay is set and the lane becomes eligible; PATH_CHANGED where it moved by more
than 10 ns; a stepped node without a source takes its first offset from it (R59, R77, R81, R88), while one that switches
to it from another goes on with its next exchange (R83). -/
def State.delayMeasurementDone (s : State) (l : LinkId) : State :=
  let v := s.src l
  let n := l.node
  if v.delayValid ∨ v.count < 64 ∨ (s.link l).state ≠ .up then s
  else
    let m : Dy := ⟨v.sum, 6⟩
    let moved : Bool := match v.oldMean with
      | some o => meansDiffer m o
      | none => false
    let s := s.updSrc l fun v =>
      { v with delayValid := true, measured := true, away := false, mean := m, oldMean := none, count := 0, gated := 0,
               freqErr := firstIntegral v.thetaFirst v.theta }
    let s := if moved then (s.setEvt n (tstatOff l) 0x8).log n .pathChanged l.source else s
    let s := s.acquire l
    let before := (s.time n).sel
    let s := s.selectSource n
    if before = none ∧ (s.time n).sel = some l.port ∧ (s.time n).stepped then
      (s.judgeSender n v.senderTq).servoUpdate l v.theta
    else s

/-- DELAY_MEASUREMENT_DONE (R77). -/
def execDelayMeasurementDone (l : LinkId) (s : State) : Outcome :=
  .next ((s.delayMeasurementDone l).addendWord s.tsu.com.time.addend)

/-- Sixteen consecutive gated exchanges restart the measurement (R77): DELAY_VALID is cleared, PATH_CHANGED set. -/
def State.delayRestart (s : State) (l : LinkId) : State :=
  if 16 ≤ (s.src l).gated ∧ (s.src l).delayValid then
    let s := s.updSrc l fun v => { v with delayValid := false, count := 0, sum := 0, gated := 0 }
    (s.setEvt l.node (tstatOff l) 0x8).log l.node .pathChanged l.source
  else s

/-- DELAY_RESTART (R77). -/
def execDelayRestart (l : LinkId) (s : State) : Outcome := .next (s.delayRestart l)

/-- A trained lane with no valid time frame for 16 periods is lost for time (R78, R88). -/
def State.timeLoss (s : State) (l : LinkId) : State :=
  if s.trained l ∧ !(s.src l).lost ∧ (s.src l).lastValid + 16384 ≤ s.aon l.node then
    let s := s.updSrc l fun v => { v with lost := true, away := true }
    let s := (s.setEvt l.node (tstatOff l) 0x4).log l.node .timeLoss l.source
    let s := if l.node = .tsu then s.healthSend .timeLoss else s
    s.srcInvalid l
  else s

/-- TIME_LOSS (R78). -/
def execTimeLoss (l : LinkId) (s : State) : Outcome := .next (s.timeLoss l)

/-- A candidate of better quality for 16 consecutive periods becomes the selected source, without a step (R82,
R83). -/
def State.sourceSwitchBetter (s : State) (l : LinkId) : State :=
  if 16 ≤ (s.src l).better ∧ l.port ∈ s.candPorts l.node ∧ s.eligible l then s.takeSource l.node (some l.port) else s

/-- SOURCE_SWITCH_BETTER (R82). -/
def execSourceSwitchBetter (l : LinkId) (s : State) : Outcome := .next (s.sourceSwitchBetter l)

end Sys2Proof.Machine
end

