-- ==== Sys2Proof/Machine/Links.lean ====
section
/-! DEFINITION. The commands of a sync link: training, link loss, slots, replay, credits and counters (R147 to
R177, R183). -/

namespace Sys2Proof.Machine

open Sys2Proof

/-- The upstream end starts an attempt at the rate due in its cycle: three at full rate, then three at fallback, 20 ms from one
start to the next; the downstream end's receiver starts to search (R149, R150). -/
def State.trainingAttempt (s : State) (l : LinkId) : State :=
  let aon := s.aon l.node
  s.updLink l fun k =>
    if k.state = .down ∧ k.enabled ∧ !k.fused ∧ k.trainLeft = 0 then
      if upstreamEnd l then
        if k.tried ∧ aon < k.attemptAt + 20000000 then k
        else
          let n := if k.tried then (k.attempt + 1) % 6 else 0
          { k with tried := true, attempt := n, attemptAt := aon, fallback := 3 ≤ n,
                   state := if k.optical then .blockLock else .pmdTrain }
      else { k with attemptAt := aon, searchFallback := false, searchAt := aon }
    else k

/-- TRAINING_ATTEMPT (R150). -/
def execTrainingAttempt (l : LinkId) (s : State) : Outcome := .next (s.trainingAttempt l)

/-- An attempt not UP within 20 ms of its start, or in PMD_TRAIN for over 10 ms, fails; the version mismatch of R153
is the exception (R149). -/
def State.attemptFail (s : State) (l : LinkId) : State :=
  let k := s.link l
  let age := s.aon l.node - k.attemptAt
  if k.state ≠ .down ∧ k.state ≠ .up ∧ !k.archStuck
      ∧ (20000000 ≤ age ∨ (k.state = .pmdTrain ∧ 10000000 < age)) then
    s.attemptOver l
  else s

/-- ATTEMPT_FAIL (R149). -/
def execAttemptFail (l : LinkId) (s : State) : Outcome := .next (s.attemptFail l)

/-- The downstream receiver searches the two rates in turn, 2 ms on each (R150). -/
def execRateSearchSwitch (l : LinkId) (s : State) : Outcome :=
  .next (s.updLink l fun k =>
    if k.state = .down ∧ k.enabled ∧ !upstreamEnd l ∧ k.searchAt + 2000000 ≤ s.aon l.node then
      { k with searchFallback := !k.searchFallback, searchAt := s.aon l.node }
    else k)

/-- The downstream receiver locks, and transmits at the rate it receives (R150). -/
def State.rxLock (s : State) (l : LinkId) (fallback : Bool) : State :=
  let aon := s.aon l.node
  s.updLink l fun k =>
    if k.state = .down ∧ k.enabled ∧ !k.fused ∧ !upstreamEnd l ∧ k.trainLeft = 0 then
      { k with fallback := fallback, attemptAt := aon, state := if k.optical then .blockLock else .pmdTrain }
    else k

/-- RX_LOCK (R150). -/
def execRxLock (l : LinkId) (fallback : Bool) (s : State) : Outcome := .next (s.rxLock l fallback)

/-- Clause 72 coefficients converge (R149). -/
def execPmdConverged (l : LinkId) (s : State) : Outcome :=
  .next (s.updLink l fun k => if k.state = .pmdTrain then { k with state := .blockLock } else k)

/-- 64 valid sync headers give block lock (R149). -/
def execBlockLockAcquired (l : LinkId) (s : State) : Outcome :=
  .next (s.updLink l fun k => if k.state = .blockLock then { k with state := .frameLock } else k)

/-- 16 clean slots at one block phase give frame lock, and the lane enters IDENT (R149). -/
def execFrameLockAcquired (l : LinkId) (s : State) : Outcome :=
  .next (s.updLink l fun k =>
    if k.state = .frameLock then { k with state := .ident, goodTrain := 0, rxOk := false } else k)

/-- The locator or die identifier that R19, R23 and R25 give the neighbour of a tree port of a distributor that holds a
locator, and the number of the neighbour's port or lane (R24, R25); none where the position does not fix it. -/
def Gd.expectedNbr (g : Gd) (p : Nat) : Option (Nat × Nat) :=
  match g.locator with
  | none => none
  | some loc =>
    let role := bitsOf loc 19 18
    let side := bitsOf loc 17 17
    let pos := bitsOf loc 14 0
    let child : Nat → Nat → Nat → Nat → Nat := fun r sd fan i => r * 262144 + sd * 131072 + pos * fan + i
    if p = 64 ∨ p = 65 then
      if role = 3 then none
      else
        let fan := fanOut (role + 1)
        let i := if role = 2 then pos else pos % fan
        let sd := if p = 64 then side else 1 - side
        some ((role + 1) * 262144 + sd * 131072 + (if role = 2 then 0 else pos / fan), if p = 64 then i else fan + i)
    else if 66 ≤ p then none
    else if role = 0 then if p < 8 then some (pos * 8 + p, side) else none
    else if role = 1 then
      if p < 16 then some (child 0 side 16 p, 64) else if p < 32 then some (child 0 (1 - side) 16 (p - 16), 65) else none
    else if role = 2 then
      if p < 32 then some (child 1 side 32 p, 64) else some (child 1 (1 - side) 32 (p - 32), 65)
    else some (child 2 side 64 p, 64)

/-- The next distributor round the ring of a position's level, from A to B of one position and from B to A of the next (R26). -/
def ringNext (loc : Nat) : Nat :=
  if bitOf loc 17 then
    let n := if locRole loc = 3 then 1 else fanOut (locRole loc + 1)
    mkLoc (locRole loc) (locPos loc / n * n + (locPos loc % n + 1) % n)
  else loc + 131072

/-- The asymmetry of the ring link at a distributor's L1, in ps, as the image declares it (R182, R312). -/
def TreeImage.ringAsym (t : TreeImage) (loc : Nat) : Int :=
  match t.pos (mkLoc (locRole loc) (locPos loc)) with
  | some r => if bitOf loc 17 then r.nextAsym.toInt else r.partnerAsym.toInt
  | none => 0

/-- The asymmetry of a link that closed relays form from one distributor's L1 to another's L0: the sum over the ring links it
spans, at most once round (R182). -/
def TreeImage.spanAsym (t : TreeImage) (goal : Nat) : Nat → Nat → Int
  | 0, _ => 0
  | n + 1, loc => t.ringAsym loc + if ringNext loc = goal then 0 else t.spanAsym goal n (ringNext loc)

/-- The neighbour of a ring port is one that R182 allows: a distributor of the same level and parent whose position the
image declares, at its L0 for this end's L1 and the other way round. DEDUCED (log entry 139): which positions a bypass skips is not known here,
so every declared one may be the nearest present. -/
def Gd.ringNbrOk (g : Gd) (p loc port : Nat) : Bool :=
  match g.locator with
  | none => true
  | some me =>
    let n := if locRole me = 3 then 1 else fanOut (locRole me + 1)
    locRole loc = locRole me && locPos loc / n = locPos me / n
      && ((g.tree.map fun t => (t.pos (mkLoc (locRole loc) (locPos loc))).isSome).getD true)
      && port % 64 = (133 - p) % 64

/-- A neighbour's report agrees with the tree (R30, R182); SELF_PORT has 6 bits (R151). -/
def Gd.nbrOk (g : Gd) (p loc port : Nat) : Bool :=
  if 66 ≤ p then g.ringNbrOk p loc port
  else match g.expectedNbr p with
    | some e => loc = e.1 && port % 64 = e.2 % 64
    | none => true

/-- A neighbour report that disagrees with the position excludes the port, with NBR_MISMATCH and
ONE_TOPOLOGY_MISMATCH (R30); a ring port takes the asymmetry of the links it spans (R182). -/
def State.neighborCheck (s : State) (l : LinkId) : State :=
  match l.node with
  | .tsu => s
  | .gd =>
    let k := s.link l
    if k.nbrValid ∧ !s.gd.nbrOk l.port k.nbrLoc k.nbrPort then
      if k.excluded then s
      else
        let s := s.updLink l fun k => { k with excluded := true }
        (s.setEvt .gd 0x14 0x10).logG .topologyMismatch l.port
    else
      let s := s.updLink l fun k => { k with excluded := false }
      match s.gd.locator, s.gd.tree with
      | some me, some t =>
        if 66 ≤ l.port ∧ k.nbrValid then
          let a := if l.port = 67 then t.spanAsym k.nbrLoc 256 me else t.spanAsym me 256 k.nbrLoc
          s.updSrc l fun v => { v with asym := a }
        else s
      | _, _ => s

/-- The identifier or locator an upstream end assigns: two lanes or ports must agree, or neither is taken (R28,
R30). A hall root takes its position from its strap and image. -/
def State.takeAssign (s : State) (l : LinkId) : State :=
  let pair := upPorts l.node
  if l.port ∉ pair then s
  else
    let other : LinkId := ⟨l.node, if l.port = pair.getD 0 0 then pair.getD 1 0 else pair.getD 0 0⟩
    let a := (s.link l).assign
    let b := if (s.link other).state = .ident ∨ (s.link other).state = .up then (s.link other).assign else none
    match a with
    | none => s
    | some v =>
      let clash : Bool := match b with
        | some w => w ≠ v
        | none => false
      match l.node with
      | .tsu =>
        if clash then
          if s.tsu.nbrMismatch then s
          else (s.updTsu fun t => { t with dieId := none, nbrMismatch := true }).logT .topologyMismatch l.source
        else s.updTsu fun t => { t with dieId := some (v % 262144), nbrMismatch := false }
      | .gd =>
        if s.gd.rootSel then s
        else if clash then
          ((s.updGd fun g => { g with locator := none }).setEvt .gd 0x14 0x10).logG .topologyMismatch l.port
        else s.updGd fun g => { g with locator := some (v % 1048576) }

/-- A good TRAIN frame in IDENT: its report is kept and checked, and the handshake of R152 and R153 advances. While
UP it brings the link down with cause 0b101, unless it carries RX_OK = 1, as the 16 frames of a peer that has just
entered UP do; its TX_SLOT is taken then too (R151, R152, R154, R168). -/
def State.trainFrameRx (s : State) (l : LinkId) (rx : Rx) : State :=
  let k := s.link l
  let f := rx.frame
  if k.state ≠ .ident ∧ k.state ≠ .up then s
  else
    match rx.check with
    | .uncorrectable => s.uncorrectableSlot l false
    | .poison => s.poisonSlot l
    | _ =>
      let s := s.slotTaken l rx
      let slot := (f.nat 21 2 / 16 + 1) % 4096
      if f.type ≠ 0x02 ∨ f.cls ≠ 0 then s.malformed l
      else if k.state = .up then
        if bitOf (f.byte 12) 3 then s.updLink l fun k => { k with rxSlot := slot } else s.linkDown l 5
      else
        let b := f.byte 12
        let s := s.updLink l fun k =>
          { k with goodTrain := min 8 (k.goodTrain + 1), rxOk := bitOf b 3, nbrLoc := f.nat 13 3 % 1048576,
                   nbrPort := bitsOf (f.byte 16) 5 0, nbrValid := bitOf (f.byte 16) 7,
                   assign := if bitOf (f.byte 20) 7 then some (f.nat 17 3 % 1048576) else k.assign,
                   rxSlot := slot, cr1 := f.byte 23, cr2 := f.byte 24, cr3 := f.byte 25,
                   peerImage := BitVec.ofNat 32 (f.nat 26 4) }
        let s := (s.takeAssign l).neighborCheck l
        if 8 ≤ (s.link l).goodTrain ∧ (s.link l).rxOk then
          match commonArch (bitsOf b 7 6) (bitsOf b 5 4) with
          | some v => (s.updLink l fun k => { k with arch := v, archStuck := false }).enterUp l
          | none =>
            if (s.link l).archStuck then s
            else
              let s := s.updLink l fun k => { k with archStuck := true }
              (s.setEvt l.node (lstatOff l) 0x80).log l.node .archMismatch l.source
        else s

/-- TRAIN_FRAME_RX (R151). -/
def execTrainFrameRx (l : LinkId) (rx : Rx) (s : State) : Outcome := .next (s.trainFrameRx l rx)

/-- Loss of block lock takes an UP link DOWN with cause 0b001, or ends an attempt, but not the IDENT of a version
mismatch (R149, R154). -/
def execBlockLockLoss (l : LinkId) (s : State) : Outcome :=
  .next (if (s.link l).state = .up then s.linkDown l 1
    else if (s.link l).archStuck then s
    else s.attemptOver l)

/-- Eight consecutive uncorrectable slots take the link DOWN with cause 0b010 (R154). -/
def execFrameLockLoss (l : LinkId) (s : State) : Outcome :=
  .next (if 8 ≤ (s.link l).uncorrRun then s.linkDown l 2 else s)

/-- Sixteen uncorrectable slots within 1 ms record ONE_LINK_BER and take the link DOWN with cause 0b011 (R154). -/
def State.linkBerExceeded (s : State) (l : LinkId) : State :=
  let aon := s.aon l.node
  let k := s.link l
  if k.state = .up ∧ 16 ≤ (k.uncorrAt.filter fun t => aon < t + 1000000).length then
    (s.log l.node .linkBer l.source).linkDown l 3
  else s

/-- LINK_BER_EXCEEDED (R154). -/
def execLinkBerExceeded (l : LinkId) (s : State) : Outcome := .next (s.linkBerExceeded l)

/-- Turn a transmitter off: an UP link goes DOWN with cause 0b110 (R154). -/
def State.linkOff (s : State) (l : LinkId) : State :=
  let s := s.linkDown l 6 true
  (s.attemptOver l).updLink l fun k => { k with enabled := false, trainLeft := 0 }

/-- Enable a link: its times count from here (R155, R156). -/
def State.linkOn (s : State) (l : LinkId) : State :=
  let aon := s.aon l.node
  s.updLink l fun k => if k.enabled then k else { k with enabled := true, downAt := aon, everUp := false, attempt := 0,
                                                             tried := false }

/-- A write of LANE_EN (R154, R183). -/
def State.laneEnWrite (s : State) (en : BitVec 2) : State :=
  let s := s.setReg .tsu 0x300 (BitVec.ofNat 32 (s.reg .tsu 0x300 / 4 * 4 + en.toNat))
  [0, 1].foldl (fun s i => if en.getLsbD i then s.linkOn ⟨.tsu, i⟩ else s.linkOff ⟨.tsu, i⟩) s

/-- LANE_EN_WRITE (R154). -/
def execLaneEnWrite (en : BitVec 2) (s : State) : Outcome := .next (s.laneEnWrite en)

/-- A retrain order sends the lane to DOWN with cause 0b110 and starts a new cycle (R149, R150, R183). -/
def State.retrain (s : State) (l : LinkId) : State :=
  if (s.link l).state = .up then s.linkDown l 6
  else (s.attemptOver l).updLink l fun k => { k with attempt := 0, tried := false }

/-- A write to the control register of a lane or of a port page. -/
def State.linkWrite (s : State) (l : LinkId) (f : State → State) : State :=
  match l.node with
  | .tsu => f s
  | .gd => s.portPage l.port 0 f

/-- RETRAIN (R183, R488). -/
def execRetrain (l : LinkId) (s : State) : Outcome := .next (s.linkWrite l fun s => s.retrain l)

/-- CNT_CLEAR clears the counters of the lane or port (R183, R488). -/
def execCntClear (l : LinkId) (s : State) : Outcome :=
  .next (s.linkWrite l fun s => s.updLink l fun k =>
    { k with corrFrames := 0, uncorrFrames := 0, naksSent := 0, replaysSent := 0, malformed := 0, poisoned := 0,
             retrains := 0 })

/-- A declared link of a hinge pair out of UP for 120 ms while the other is UP raises REDUNDANCY_LOST (R155). -/
def State.redundancyLost (s : State) (n : Node) : State :=
  let a : LinkId := ⟨n, (upPorts n).getD 0 0⟩
  let b : LinkId := ⟨n, (upPorts n).getD 1 0⟩
  let late : LinkId → Bool := fun l =>
    (s.link l).declared && s.linkTimed l && (s.link l).state ≠ .up && decide ((s.link l).downAt + 120000000 ≤ s.aon n)
  let up : LinkId → Bool := fun l => (s.link l).state = .up
  if !(s.com n).redunLost ∧ ((up a ∧ late b) ∨ (up b ∧ late a)) then
    let s := s.updCom n fun c => { c with redunLost := true }
    let s := match n with
      | .tsu => s.setEvt .tsu 0x304 0x8
      | .gd => s.setEvt .gd 0x14 0x80
    let s := s.log n .redundancyLost
    if n = .tsu then s.healthSend .redundancyLost else s
  else s

/-- REDUNDANCY_LOST (R155). -/
def execRedundancyLost (n : Node) (s : State) : Outcome := .next (s.redundancyLost n)

/-- Own identity as TRAIN reports it: the locator or die identifier, and whether it is meaningful (R151). -/
def State.selfId (s : State) (n : Node) : Nat × Bool :=
  match n with
  | .tsu => (s.tsu.dieId.getD 0, s.tsu.dieId.isSome)
  | .gd => (s.gd.locator.getD 0, s.gd.locator.isSome)

/-- What an upstream end assigns to its child in TRAIN (R28, R30, R151). -/
def State.assignOf (s : State) (l : LinkId) : Option Nat :=
  match l.node with
  | .tsu => none
  | .gd => if l.port < 64 then (s.gd.expectedNbr l.port).map (·.1) else none

/-- The TRAIN frame this end sends (R151). DESIGN CHOICE (log entry 135): SELF_PORT has 6 bits, and U0, U1, L0 and L1 send the number of their
page modulo 64, 0 to 3. -/
def State.trainFrame (s : State) (l : LinkId) : Frame :=
  let k := s.link l
  let me := s.selfId l.node
  let kind := match l.node with
    | .tsu => 0
    | .gd => if l.port < 64 then 1 else if l.port < 66 then 2 else 3
  let ok := decide (8 ≤ k.goodTrain ∨ k.state = .up)
  let asg := s.assignOf l
  let image := match l.node with
    | .tsu => s.tsu.com.treeId
    | .gd => s.gd.com.treeId
  let body := natBytes (b2n ok * 8 + kind * 2) 1 ++ natBytes me.1 3
    ++ natBytes (b2n me.2 * 128 + l.port % 64) 1 ++ natBytes (asg.getD 0) 3 ++ natBytes (b2n asg.isSome * 128) 1
    ++ natBytes (k.txSlot * 16) 2 ++ [32, 32, 16] ++ natBytes image.toNat 4
  { Frame.blank 0x02 0 with body := padTo 48 body }

/-- The LINKCTL frame that carries everything owed (R172, R173). -/
def Link.linkctlFrame (k : Link) : Frame :=
  let t1 := (k.ret1 + k.owe1) % 256
  let t2 := (k.ret2 + k.owe2) % 256
  let t3 := (k.ret3 + k.owe3) % 256
  let adv := decide (0 < k.owe1 + k.owe2 + k.owe3)
  let body := natBytes (b2n k.oweNak.isSome * 128 + b2n k.oweReplay.isSome * 64 + b2n adv * 32) 1
    ++ natBytes (k.oweNak.getD 0 * 16) 2 ++ natBytes (k.oweReplay.getD 0 * 16) 2 ++ natBytes t1 1 ++ natBytes t2 1
    ++ natBytes t3 1
  { Frame.blank 0x04 1 with ver := BitVec.ofNat 2 k.arch, body := padTo 48 body }

/-- What a slot carries. -/
inductive SlotChoice where
  | train | linkctl | resend | class1 | class2 | class3 | idle
  deriving DecidableEq, Repr

/-- The first frame in the order of R173, with a replay before the queues; no frame is sent again before its REPLAY (R170). -/
def Link.choose (k : Link) : SlotChoice :=
  let ctl := k.oweNak.isSome || k.oweReplay.isSome || k.oweCtl
  let hold := k.lastLinkctl && !k.q1.isEmpty && decide (0 < k.cr1)
  if k.state ≠ .up ∨ 0 < k.trainLeft then .train
  else if ctl ∧ !hold then .linkctl
  else if !k.resend.isEmpty ∧ k.oweReplay.isNone then .resend
  else if !k.q1.isEmpty ∧ 0 < k.cr1 then .class1
  else if !k.q2.isEmpty ∧ 0 < k.cr2 then .class2
  else if !k.q3.isEmpty ∧ 0 < k.cr3 ∧ 64 ≤ k.tokens then .class3
  else .idle

/-- Put a frame on the lane with its check, count the slot, and keep it for replay where R169 says so. -/
def Link.put (k : Link) (f : Frame) (keep : Bool) : Link :=
  let f := { f with ver := if f.type = 0x02 then 0 else BitVec.ofNat 2 k.arch }
  let old := k.replay.filter fun e => decide (sdiff 12 e.slot k.txSlot ≥ -255)
  { k.slotOut with line := some f, wire := rsLine f.bytes, replay := if keep then old ++ [⟨k.txSlot, f⟩] else old,
                   lastLinkctl := false, sinceLinkctl := k.sinceLinkctl + 1 }

/-- The head of a class queue leaves, taking a credit; a copy that R167 poisons ends with poison parity and the frame
stays at the head to be sent again. -/
def Link.sendHead (k : Link) (cls : Nat) : Link :=
  match k.queue cls with
  | [] => k
  | f :: t =>
    if k.poisonNext then
      let k := k.put f false
      { k with poisonNext := false, wire := f.bytes ++ poisonCheck f.bytes }
    else
      let k := (k.setQueue cls t).put f true
      match cls with
      | 1 => { k with cr1 := k.cr1 - 1 }
      | 2 => { k with cr2 := k.cr2 - 1, head2 := if f.more then some (k.head2.getD f) else none }
      | _ => { k with cr3 := k.cr3 - 1, tokens := k.tokens - 64 }

/-- The frames that a REPLAY naming a slot precedes: those of the replay buffer sent in that slot or later, then those of a
replay in progress that were sent before it (R170). -/
def Link.replayFrom (k : Link) (slot : Nat) : List ReplayEntry :=
  let after : ReplayEntry → Bool := fun e => decide (0 ≤ sdiff 12 e.slot slot)
  k.replay.filter after ++ k.resend.filter fun e => !after e

/-- The LINKCTL frame leaves with everything owed; a REPLAY starts the resending (R170, R172, R173). -/
def Link.sendLinkctl (k : Link) : Link :=
  let f := k.linkctlFrame
  { k.put f false with
    lastLinkctl := true, sinceLinkctl := 0, oweCtl := false, oweReplay := none,
    resend := match k.oweReplay with
      | some slot => k.replayFrom slot
      | none => k.resend
    naksSent := if k.oweNak.isSome then min (k.naksSent + 1) 0xFFFF else k.naksSent,
    nakSlots := if k.oweNak.isSome then 0 else k.nakSlots + 1, oweNak := none,
    ret1 := (k.ret1 + k.owe1) % 256, ret2 := (k.ret2 + k.owe2) % 256, ret3 := (k.ret3 + k.owe3) % 256,
    owe1 := 0, owe2 := 0, owe3 := 0, oweSlots := 0 }

/-- The next frame of a replay leaves again: it counts as sent in this slot, and stays in the replay buffer (R169, R170). -/
def Link.sendAgain (k : Link) : Link :=
  match k.resend with
  | [] => k
  | e :: t => { k with resend := t, replay := k.replay.filter fun x => x ≠ e }.put e.frame true

/-- Each slot carries the time frame when it is due, with the counter's reading as its stamp, and else the first frame due
(R67, R173); nothing leaves an end that has not reached IDENT and owes no TRAIN frames. -/
def State.slotTransmit (s : State) (l : LinkId) : State :=
  let k := s.link l
  if !k.enabled ∨ k.fused ∨ (k.state ≠ .up ∧ k.state ≠ .ident ∧ k.trainLeft = 0) then s
  else if k.timeDue then s.timeFrameSend l (s.now l.node).toNs16
  else
    let s := s.addTokens l
    let k := s.link l
    match k.choose with
    | .train =>
      let f := s.trainFrame l
      s.updLink l fun k => { k.put f false with trainLeft := k.trainLeft - 1 }
    | .linkctl => s.updLink l Link.sendLinkctl
    | .resend => s.updLink l Link.sendAgain
    | .class1 => s.updLink l fun k => k.sendHead 1
    | .class2 => s.updLink l fun k => k.sendHead 2
    | .class3 => s.updLink l fun k => k.sendHead 3
    | .idle => s.updLink l fun k => k.put Frame.idle false

/-- SLOT_TRANSMIT (R173). -/
def execSlotTransmit (l : LinkId) (s : State) : Outcome := .next (s.slotTransmit l)

/-- UNCORRECTABLE_SLOT (R170). -/
def execUncorrectableSlot (l : LinkId) (timeSlot : Bool) (s : State) : Outcome :=
  .next (s.uncorrectableSlot l timeSlot)

/-- A NAK in a LINKCTL frame: a REPLAY is owed, with the frames from the named slot after it, or, outside the replay buffer,
the loss of the link with ONE_LSEQ_WINDOW (R170, R171). -/
def State.nakRx (s : State) (l : LinkId) (slot : Nat) : State :=
  let k := s.link l
  let d := sdiff 12 slot k.txSlot
  if d < -256 ∨ -1 < d then (s.log l.node .lseqWindow l.source).linkDown l 4
  else s.updLink l fun k => { k with oweReplay := some slot, replaysSent := min (k.replaysSent + 1) 0xFFFF }

/-- The credits a LINKCTL frame returns: the advance of the running totals modulo 256 (R172). -/
def Link.takeCredits (k : Link) (c1 c2 c3 : Nat) : Link :=
  { k with cr1 := k.cr1 + (c1 + 256 - k.acc1) % 256, cr2 := k.cr2 + (c2 + 256 - k.acc2) % 256,
           cr3 := k.cr3 + (c3 + 256 - k.acc3) % 256, acc1 := c1, acc2 := c2, acc3 := c3 }

/-- A LINKCTL frame delivers credits, a REPLAY and a NAK (R172). -/
def State.linkctlRx (s : State) (l : LinkId) (rx : Rx) : State :=
  let r := s.receive l rx 0x04
  match r.2 with
  | none => r.1
  | some f =>
    let b := f.byte 12
    let s := r.1.updLink l fun k => k.takeCredits (f.byte 17) (f.byte 18) (f.byte 19)
    let s := if bitOf b 6 ∧ (s.link l).nakSlot = some (f.nat 15 2 / 16) then
        s.updLink l fun k => { k with nakSlot := none, nakCount := 0 }
      else s
    if bitOf b 7 then s.nakRx l (f.nat 13 2 / 16) else s

/-- LINKCTL_RX (R172). -/
def execLinkctlRx (l : LinkId) (rx : Rx) (s : State) : Outcome := .next (s.linkctlRx l rx)

/-- A NAK unanswered for 512 slots is sent again, four in all (R171). -/
def execNakResend (l : LinkId) (s : State) : Outcome :=
  .next (s.updLink l fun k =>
    if k.nakSlot.isSome ∧ 512 ≤ k.nakSlots ∧ k.nakCount < 4 then
      { k with oweNak := k.nakSlot, nakCount := k.nakCount + 1, nakSlots := 0 }
    else k)

/-- No REPLAY 512 slots after the fourth NAK takes the link DOWN with cause 0b100 (R171). -/
def execReplayFailure (l : LinkId) (s : State) : Outcome :=
  .next (if (s.link l).nakSlot.isSome ∧ (s.link l).nakCount = 4 ∧ 512 ≤ (s.link l).nakSlots
         then s.linkDown l 4 else s)

/-- Credits owed for 16 slots are returned in a LINKCTL frame (R172). -/
def execCreditReturnDue (l : LinkId) (s : State) : Outcome :=
  .next (s.updLink l fun k =>
    if 0 < k.owe1 + k.owe2 + k.owe3 ∧ 16 ≤ k.oweSlots then { k with oweCtl := true } else k)

/-- While UP a LINKCTL frame is sent at least once in every 256 non-time slots (R172). -/
def execLinkctlKeepalive (l : LinkId) (s : State) : Outcome :=
  .next (s.updLink l fun k => if k.state = .up ∧ 255 ≤ k.sinceLinkctl then { k with oweCtl := true } else k)

/-- DEGRADE_LIMIT of a link in frames per second: fixed at a TSU, set per port at a distributor (R165, R488). -/
def State.degradeLimit (s : State) (l : LinkId) : Nat :=
  match l.node with
  | .tsu => 10000
  | .gd => orOne (bitsOf (s.reg .gd (0x10000 + 0x100 * l.port + 0x1C)) 15 0)

/-- More than DEGRADE_LIMIT corrected frames in 1 s set DEGRADED and record ONE_LINK_DEGRADED, which feeds the health
score (R165, R400). -/
def State.degradeLimitExceeded (s : State) (l : LinkId) : State :=
  let aon := s.aon l.node
  if s.degradeLimit l < ((s.link l).corrTimes.filter fun t => aon < t + 1000000000).length then
    let s := (s.setEvt l.node (lstatOff l) 0x1000).log l.node .linkDegraded l.source
    match l.node with
    | .tsu => s.healthSend .linkDegraded
    | .gd => s.healthSeen l.port 0 .linkDegraded
  else s

/-- DEGRADE_LIMIT_EXCEEDED (R165). -/
def execDegradeLimitExceeded (l : LinkId) (s : State) : Outcome := .next (s.degradeLimitExceeded l)

/-- An IDLE frame is consumed by the link layer (R161). -/
def execIdleFrameRx (l : LinkId) (rx : Rx) (s : State) : Outcome := .next (s.receive l rx 0x00).1

/-- The first ready mark of an entry that stands before the others of its output queue becomes frames once that queue has
room (R174). -/
def Common.enqueueMark (c : Common) (key : Nat) : Common :=
  let goes : ReadyMark → Bool := fun m =>
    m.key = key && (c.marks.find? fun x => x.port = m.port && x.cls = m.cls) = some m &&
      decide (((Tab.getD c.links m.port Link.reset).queue m.cls).length + m.frames.length ≤ queueCap m.cls)
  match c.marks.find? goes with
  | none => c
  | some m =>
    let k := Tab.getD c.links m.port Link.reset
    { c with marks := c.marks.erase m, links := Tab.put c.links m.port (k.setQueue m.cls (k.queue m.cls ++ m.frames)) }

/-- READY_MARK_ENQUEUE (R174). -/
def execReadyMarkEnqueue (n : Node) (key : Nat) (s : State) : Outcome :=
  .next (s.updCom n fun c => c.enqueueMark key)

end Sys2Proof.Machine
end

