-- ==== Sys2Proof/Machine/TreeOps.lean ====
section
/-! DEFINITION. Tree images at both nodes: acceptance, activation, and the start and teardown of domains (R28, R29,
R314 to R322, R363, R405, R406). -/

namespace Sys2Proof.Machine

open Sys2Proof

/-! ## Domains at a distributor -/

/-- A DOMAIN_CTL frame (R383). -/
def domFrame (op done missing : Nat) (tag : BitVec 24) (now : Word) : Frame :=
  mkFrame 0x19 2 0 tag 0 now (natBytes op 1 ++ natBytes 0 1 ++ natBytes done 3 ++ natBytes missing 3)

/-- Send a DOMAIN_CTL frame down a domain, mirrored first where this side acts (R387, R405, R406). -/
def State.domDown (s : State) (d : GdDom) (f : Frame) (only : Bool) : State :=
  let kids := (s.gd.members d.dr).filter fun i => !s.gd.absent.contains i && (!only || s.carries d.dr i)
  let f := { f with detour := false }
  let s := if s.acts d.dr then s.mirror 2 [f] else s
  s.gdDown d.dr 2 kids (fun _ => [f]) [f]

/-- A domain's path crosses this position (R319). -/
def Gd.onPath (g : Gd) (d : DomRec) : Bool :=
  match g.posLoc with
  | none => false
  | some l => !d.topIsDie && locRole l ≤ locRole d.top && inSubtree d.top (locDies l).1 && g.members d ≠ []

/-- The entries and scan blocks that a new domain needs are free (R203, R406). -/
def Gd.roomFor (g : Gd) (d : DomRec) : Bool :=
  let held := (g.doms.filter fun p => !p.2.waiting).map (·.2.dr)
  (held.map (·.tumblers)).sum + d.tumblers ≤ 65536 && (held.map (·.scans)).sum + d.scans ≤ 128

/-- READY goes up, or OPEN down, once the domain is reserved and every member port is ready (R406). -/
def State.readyCheck (s : State) (tag : BitVec 24) : State :=
  match s.dom? tag with
  | none => s
  | some d =>
    if d.waiting ∨ d.tearing ∨ !s.acts d.dr ∨ !(s.gd.members d.dr).all d.ready.contains then s
    else if s.gd.isTop d.dr then
      if d.isOpen then s
      else (s.updDom tag fun x => { x with isOpen := true }).domDown d (domFrame 5 0 0 tag (s.now .gd).ns32) false
    else if d.readySent then s
    else (s.updDom tag fun x => { x with readySent := true }).gdUp d.dr 2 0
      [domFrame 4 0 0 tag (s.now .gd).ns32] false 99

/-- Reserve the entries of a waiting domain, or note once that it waits (R406). -/
def State.reserveDom (s : State) (tag : BitVec 24) : State :=
  match s.dom? tag with
  | none => s
  | some d =>
    if !d.waiting then s
    else if s.gd.roomFor d.dr then (s.updDom tag fun x => { x with waiting := false }).readyCheck tag
    else if d.waitNoted then s
    else (s.updDom tag fun x => { x with waitNoted := true }).logG .domainWait

/-- A domain's teardown begins here or passes here; TEARDOWN goes down from the top node (R405). -/
def State.tearDom (s : State) (d : GdDom) (only : Bool) : State :=
  let aon := s.aon .gd
  let s := s.updDom d.dr.tag fun x => { x with tearing := true, tornAt := some aon }
  s.domDown d (domFrame 1 0 0 d.dr.tag (s.now .gd).ns32) only

/-- Free a domain at this node: its entries and scan blocks go, and waiting domains may be reserved (R405). -/
def State.freeDom (s : State) (tag : BitVec 24) : State :=
  s.updGd fun g => { g with doms := Tab.del g.doms tag.toNat, softs := g.softs.filter fun p => p.1 / 4096 ≠ tag.toNat,
                            arms := g.arms.filter fun p => p.1 / 4096 ≠ tag.toNat,
                            rejoin := g.rejoin.filter (· ≠ tag), domRst := g.domRst.filter (· ≠ tag) }

/-! ## Ports and registers of an image -/

/-- The image declares the side a link of child `i` faces: every die, or the child position's record (R312). -/
def Gd.childDecl (g : Gd) (t : TreeImage) (i : Nat) (sideB : Bool) : Bool :=
  if g.role = some 0 then true
  else ((t.pos (g.childLoc i)).map fun p => if sideB then p.bDecl else p.aDecl).getD false

/-- The image declares U1 of this position: its parent's record declares the cross links (R24, R312). -/
def Gd.declU1 (g : Gd) (t : TreeImage) : Bool :=
  match g.posLoc.bind locParent with
  | some (q, i) => ((t.pos q).map fun p => bitOf p.xchildren i).getD false
  | none => false

/-- A port that the image declares (R24, R25, R29). -/
def Gd.declares (g : Gd) (t : TreeImage) (p : Nat) : Bool :=
  match g.posRec t with
  | none => false
  | some r =>
    if p < 64 then
      !(g.variant = .gd32e && 32 ≤ p) &&
      (if p < g.fan then bitOf r.children p && g.childDecl t p g.sideB
       else (g.crossPort (p - g.fan)) = some p && bitOf r.xchildren (p - g.fan) && g.childDecl t (p - g.fan) (!g.sideB))
    else if p = 64 then g.role ≠ some 3
    else if p = 65 then g.declU1 t
    else true

/-- The declared asymmetry of a port in ps, as the record of the link's upstream end gives it (R76, R182, R312). -/
def Gd.asymOf (g : Gd) (t : TreeImage) (p : Nat) : Word :=
  let side (a : Word × Word × Word × Word) (cross : Bool) (b : Bool) : Word :=
    if cross then (if b then a.2.2.2 else a.2.2.1) else (if b then a.2.1 else a.1)
  match g.posRec t with
  | none => 0
  | some r =>
    if p < 64 then side (r.childAsym (g.childOfPort p)) (g.fan ≤ p) g.sideB
    else if p < 66 then
      match g.posLoc.bind locParent with
      | some (q, i) => ((t.pos q).map fun x => side (x.childAsym i) (p = 65) (if p = 64 then g.sideB else !g.sideB)).getD 0
      | none => 0
    else if p = g.partnerPort then r.partnerAsym
    else if g.sideB then r.nextAsym
    else match g.posLoc with
      | none => 0
      | some l =>
        let n := if locRole l = 3 then 1 else fanOut (locRole l + 1)
        let prev := mkLoc (locRole l) (locPos l / n * n + (locPos l % n + n - 1) % n)
        ((t.pos prev).map (·.nextAsym)).getD 0

/-- The ports of a distributor. -/
def gdPorts : List Nat := List.range 68

/-- Enable the declared ports and disable the others; a port fused bad stays disabled (R25, R322, R419). -/
def State.applyPorts (s : State) (t : TreeImage) : State :=
  gdPorts.foldl (fun s p =>
    let want := s.gd.declares t p
    let l : LinkId := ⟨.gd, p⟩
    let s := s.updLink l fun k => { k with declared := want }
    let s := s.updSrc l fun v => { v with asym := (s.gd.asymOf t p).toInt }
    if p = 64 then s
    else if want ∧ !s.gd.badPorts.contains p then s.linkOn l else s.linkOff l) s

/-- The REFERENCE record of this distributor (R315). -/
def Gd.refRec (g : Gd) (t : TreeImage) : Option (List Byte) :=
  g.locator.bind fun l => t.refs.find? fun r => beNat r 0 3 = l

/-- The registers that a REFERENCE record loads, a setting outside its range at the nearest bound (R102, R315, R478). -/
def refRegs (r : List Byte) : List (Nat × Nat) :=
  let b (i n : Nat) : Nat := beNat r i n
  let ptp (o : Nat) : Nat := b o 1 % 16 + b (o + 1) 1 * 256 + b (o + 2) 1 * 65536
  (List.range 8).map (fun i => (0x248 + 4 * i, b (4 + 4 * i) 4)) ++
  (List.range 4).map (fun n => (0x218 + 4 * n, b (40 + 4 * n) 4)) ++
  [(0x214, b 36 1 + b 37 1 * 256 + b 38 1 * 65536 + b 39 1 * 16777216), (0x294, ptp 56), (0x298, ptp 60),
   (0x200, clampNat 1 600 (b 64 2) + clampNat 1 100 (b 66 1) * 2 ^ 10 + clampNat 6 255 (b 67 1) * 2 ^ 17
     + clampNat 1 40 (b 68 1) * 2 ^ 25),
   (0x204, clampNat 1 20 (b 69 1) + clampNat 10 1000 (b 70 2) * 2 ^ 5 + clampNat 1 3 (b 80 1) * 2 ^ 15
     + clampNat 5 100 (b 81 1) * 2 ^ 17 + clampNat 5 40 (b 82 1) * 2 ^ 24),
   (0x208, clampNat 1000 100000000 (b 72 4)), (0x20C, min 86400 (b 76 4)), (0x210, b 84 2)]

/-- Load registers from an image record. -/
def State.loadRegs (s : State) (l : List (Nat × Nat)) : State :=
  l.foldl (fun s x => s.setReg .gd x.1 (BitVec.ofNat 32 x.2)) s

/-- REFERENCE and ROOTPRIO records that changed are loaded, and a wait to restore in progress restarts (R101, R322,
R473). -/
def State.applyRefs (s : State) (old : Option TreeImage) (t : TreeImage) : State :=
  let was := old.bind s.gd.refRec
  let aon := s.aon .gd
  let s := match s.gd.refRec t with
    | some r => if was = some r then s else
      ((s.loadRegs (refRegs r)).updGd fun g =>
        { g with ref := { g.ref with wtrFrom := (List.range 8).map fun i => (i, aon) } }).refsConfig
    | none => s
  if (old.map (·.rootprio)) = some t.rootprio then s
  else s.loadRegs (t.rootprio.zipIdx.map fun x => (0x274 + 4 * x.2, x.1.toNat))

/-- SCORE_LIMIT of a HEALTH record (R317). -/
def TreeImage.scoreLimit (t : TreeImage) : Nat := beNat t.health 0 2

/-! ## Activation -/

/-- The node's role goes with an image it does not fit: ONE_ROLE_VARIANT, and every downstream and lateral port in
training idle (R320). -/
def State.noRole (s : State) : State :=
  let s := s.logG .roleVariant
  let s := s.updGd fun g => { g with ringLow := true, doms := [], softs := [], arms := [], census := none }
  gdPorts.foldl (fun s p => if p < 64 ∨ 66 ≤ p then s.linkOff ⟨.gd, p⟩ else s) s

/-- Bring-up has reached the stage that enables the ports: LINKS of a hall root, DOWNLINK of any other (R412, R414). -/
def Gd.portsOn (g : Gd) : Bool := if g.rootSel then decide (5 ≤ g.boot.phase) else decide (6 ≤ g.boot.phase)

/-- The ports that the image declares are enabled, and RING_BYPASS_N goes high unless it is held low or a lateral port is
fused bad (R29, R181, R419). -/
def State.openPorts (s : State) (t : TreeImage) : State :=
  let s := s.applyPorts t
  let low := s.gd.ringHeld || s.gd.badPorts.any fun p => 66 ≤ p
  s.updGd fun g => { g with ringLow := low }

/-- An image becomes current at a distributor: its domains continue, are torn down or begin; ports, asymmetries,
references and the health record change; a role newly taken begins with a census. In bring-up the ports wait for their
stage, and the census for its own (R181, R320 to R322, R389, R412, R414, R419). -/
def State.gdActivate (s : State) (t : TreeImage) : State :=
  let old := s.gd.tree
  let had := s.gd.hasRole
  let s := s.updGd fun g => { g with tree := some t, treePend := none, com := { g.com with treeId := t.id } }
  if !s.gd.fits t then s.noRole
  else
    let keep := t.domains.filter s.gd.onPath
    let gone := (s.gd.doms.filter fun p => !p.2.tearing && !keep.any fun d => d.tag = p.2.dr.tag).map (·.2)
    let s := gone.foldl (fun (s : State) d =>
      if s.gd.isTop d.dr ∧ s.acts d.dr then s.tearDom d false
      else s.updDom d.dr.tag fun x => { x with tearing := true }) s
    let fresh := keep.filter fun d => (s.dom? d.tag).isNone
    let s := fresh.foldl (fun (s : State) d =>
      (s.updGd fun g => { g with doms := Tab.put g.doms d.tag.toNat (GdDom.new d) }).reserveDom d.tag) s
    let s := if s.gd.portsOn then s.openPorts t else s
    let s := s.applyRefs old t
    let s := if (old.map (·.health)) = some t.health then s else s.updGd fun g => { g with theta := t.scoreLimit }
    if had ∨ s.gd.boot.phase ≠ 15 then s else s.fullCensus none false

/-- A domain removed from a TSU's extract, or torn down: its shares are closed and it is unbound; TORN is owed once
TEARDOWN has come (R363, R405). -/
def State.tsuTear (s : State) (d : DomRec) (asked : Bool) : State :=
  let old := s.tsu.tearing.find? fun x => x.tag = d.tag
  let x : Torn := { tag := d.tag, sideB := d.sideB, fullRate := d.fullRate,
                    asked := asked || (old.map (·.asked)).getD false }
  let s := match s.sliceOf d.tag with
    | some n => s.unbind n d.tag
    | none => s
  s.updTsu fun t => { t with
    tearing := (if d.topIsDie then [] else [x]) ++ t.tearing.filter fun y => y.tag ≠ d.tag,
    opened := t.opened.filter (· ≠ d.tag), shadowed := t.shadowed.filter (· ≠ d.tag) }

/-- An extract becomes current at a TSU (R322): removed domains are unbound, the lanes' asymmetries change, domains that
an ABSENT for every domain covers enter SHADOW on binding, and READY is sent for every domain (R397, R406). A domain
whose top node is this die is open at once. -/
def State.tsuActivate (s : State) (t : TreeImage) : State :=
  let gone := ((s.tsu.tree.map (·.domains)).getD []).filter fun d => !t.domains.any fun x => x.tag = d.tag
  let s := gone.foldl (fun (s : State) d => s.tsuTear d false) s
  let s := s.updTsu fun x =>
    let loose := (t.domains.filter fun d => d.allowAbsent).map (·.tag)
    let own := (t.domains.filter fun d => d.topIsDie).map (·.tag)
    { x with tree := some t, treePend := none, com := { x.com with treeId := t.id }, absentAll := false,
             shadowed := x.shadowed ++ (if x.absentAll then loose.filter fun g => !x.shadowed.contains g else []),
             opened := x.opened ++ own.filter fun g => !x.opened.contains g }
  let s := match t.leaf with
    | some l => (s.updSrc ⟨.tsu, 0⟩ fun v => { v with asym := l.2.1.toInt }).updSrc ⟨.tsu, 1⟩ fun v => { v with asym := l.2.2.toInt }
    | none => s
  (t.domains.filter fun d => !d.topIsDie).foldl (fun (s : State) d =>
    s.tsuUp d.sideB d.fullRate 2 0 [domFrame 4 0 0 d.tag (s.now .tsu).ns32]) s

/-- ACTIVATE_AT is all zero, or has been reached at a node (R321). -/
def State.activateDue (s : State) (n : Node) (t : TreeImage) : Bool :=
  t.activateAt.toNs ≤ (s.now n).toNs

/-- A validated image becomes pending, and current when ACTIVATE_AT is zero or past; a non-zero one that is past records
ONE_IMAGE_LATE (R321). -/
def State.pendTree (s : State) (n : Node) (t : TreeImage) : State :=
  let s := match n with
    | .tsu => s.updTsu fun x => { x with treePend := some t }
    | .gd => s.updGd fun g => { g with treePend := some t }
  if !s.activateDue n t then s
  else
    let s := if t.activateAt.toNs = 0 then s else s.log n .imageLate
    match n with
    | .tsu => s.tsuActivate t
    | .gd => s.gdActivate t

/-- A pending image of another lineage is held: REASON BUSY (R289, R321). -/
def pendingClash (p : Option TreeImage) (t : TreeImage) : Bool := (p.map fun x => decide (x.prev ≠ t.prev)).getD false

/-- A TSU judges a leaf extract (R318, R319, R321). -/
def State.extractTake (s : State) (b : List Byte) : State :=
  match extractCheck b b.length s.tsu.tree s.tsu.dieId with
  | .error r => s.tsuRefuse none r
  | .ok t => if pendingClash s.tsu.treePend t then s.tsuRefuse none (0x13, 0) else s.pendTree .tsu t

/-- Custody of a tree image at the time root: REFERENCE or ROOTPRIO records change with the seal not open (R319,
R449). -/
def State.treeCustody (s : State) (t : TreeImage) : Bool :=
  s.gd.ref.isRoot && s.gd.sealSt ≠ .opened &&
    (s.gd.tree.map fun c => decide (c.refs ≠ t.refs ∨ c.rootprio ≠ t.rootprio)).getD false

/-- The reservations of the domains whose path crosses this position exceed what rows beyond the spares leave (R419). -/
def State.overHeld (s : State) (t : TreeImage) : Bool :=
  (s.gd.locator.map fun l =>
    let ds := t.domains.filter fun d => onPath d d.dies (mkLoc (locRole l) (locPos l))
    decide (65536 - s.gd.lostSoft < (ds.map (·.tumblers)).sum ∨ 128 - s.gd.lostScan < (ds.map (·.scans)).sum)).getD false

/-- A distributor judges a tree image (R319), which becomes pending (R321); declared ports fused bad are recorded (R419).
The image, or the extracts built from it, go down on the ports that are UP: `fed` when the object it came in has been
forwarded already (R29, R318). -/
def State.treeTake (s : State) (b : List Byte) (fed : Bool) : State :=
  match treeCheck b b.length s.gd.tree with
  | .error r => s.gdRefuse r
  | .ok t =>
    if s.overHeld t then s.gdRefuse (0x0F, 0)
    else if s.treeCustody t then ((s.gdRefuse (0x10, 0)).logG .custodyRequired)
    else if pendingClash s.gd.treePend t then s.gdRefuse (0x13, 0)
    else
      let s := (s.gd.badPorts.filter (s.gd.declares t)).foldl (fun (s : State) p => s.logG .fusedPort p p) s
      let ups := (List.range s.gd.fan).filter fun i => s.trained ⟨.gd, i⟩
      let s := s.updGd fun g => { g with image := b, leafSent := [] }
      let s := s.pendTree .gd t
      if !s.gd.hasRole then s
      else if fed ∧ s.gd.role ≠ some 0 then s.updGd fun g => { g with leafSent := ups }
      else ups.foldl (fun (s : State) i => s.imageDown i) s

end Sys2Proof.Machine
end

