-- ==== Sys2Proof/Machine/BootOps.lean ====
section
/-! DEFINITION. Shared operations of bring-up and reset: report records, the whole-unit reset of the TSU, the chip reset
of the distributor, and stored settings (R412 to R423, R435, R445, R473). -/

namespace Sys2Proof.Machine

open Sys2Proof

/-! ## Reports -/

/-- Write a report record; one whose RESULT is not PASS is recorded in the error log with its CODE (R415). -/
def State.report (s : State) (n : Node) (stage result code count : Nat) (detail : Word) : State :=
  match n with
  | .tsu =>
    let b := s.tsu.boot
    let r : Report := ⟨1, stage, result, code, count, (roundAway (s.tsu.com.time.aon - b.startAt : Nat) 1000).toNat, detail⟩
    let s := s.updTsu fun t => { t with reports := (r :: t.reports).take 16 }
    if result = 0 ∨ code = 0 then s
    else s.updCom .tsu fun c => c.record 64 0x480 0x80#32 code 0 detail.toNat none
  | .gd =>
    let b := s.gd.boot
    let r : Report := ⟨2, stage, result, code, count, (roundAway (s.gd.com.time.aon - b.startAt : Nat) 1000).toNat, detail⟩
    let s := s.updGd fun g => { g with reports := (r :: g.reports).take 32 }
    if result = 0 ∨ code = 0 then s else s.logRaw code 0x8000 detail.toNat

/-- Update the bring-up of a node. -/
def State.updBoot (s : State) (n : Node) (f : Boot → Boot) : State :=
  match n with
  | .tsu => s.updTsu fun t => { t with boot := f t.boot }
  | .gd => s.updGd fun g => { g with boot := f g.boot }

/-! ## Stored settings -/

/-- The stored settings records: the fields each holds, as register and mask (R445, R473, R479 to R488). -/
def settingRecs : List (List (Nat × Word)) :=
  [ [(0x2AC, 0xFFFFFFFF), (0x2B0, 0xFFFFFFFF), (0x2B4, 0xFFFFFFFF)],
    [(0x418, 0xFF00)],
    gdPorts.map fun p => (0x1001C + 0x100 * p, 0xFFFF#32),
    gdPorts.map fun p => (0x10000 + 0x100 * p, 0x7E0#32),
    [(0x418, 0xFF)],
    [(0x800, 0x7FFE)],
    [(0xA10, 0x2)],
    [(0x2A4, 0x3FF)],
    [(0x2A8, 0x7FFFF)],
    [(0x710, 0xFFFF)],
    [(0x800, 0xFFFF0000)],
    [(0xA10, 0xFFFF0000)],
    [(0xA1C, 0xFF0000)] ]

/-- The bits of a register that are stored settings. -/
def settingMask (off : Nat) : Word :=
  settingRecs.foldl (fun m r => r.foldl (fun m x => if x.1 = off then m ||| x.2 else m) m) 0

/-- A record whose format differs from the booting image's is reset to the defaults (R445). -/
def State.settingsFor (s : State) (fmt : Nat) : State :=
  let s := settingRecs.zipIdx.foldl (fun (s : State) x =>
    if s.gd.fw.formats.getD x.2 0 = fmt then s
    else
      let s := x.1.foldl (fun (s : State) f =>
        s.updCom .gd fun c => match Tab.get c.rw f.1 with
          | some w => { c with rw := Tab.put c.rw f.1 ((w &&& ~~~ f.2) ||| (BitVec.ofNat 32 (resetGd f.1) &&& f.2)) }
          | none => c) s
      s.logG .settingsReset 0 x.2) s
  s.updGd fun g => { g with fw := { g.fw with formats := List.replicate settingRecs.length fmt } }

/-! ## Whole-unit reset of the TSU -/

/-- A register that whole-unit reset keeps: of the time domain or of the links (R65, R183, R421). -/
def keptTsu (off : Nat) : Bool := 0x100 ≤ off && off < 0x380

/-- A lane across a whole-unit reset: what its queues and replay buffer hold is drained, unfinished messages and class-3
frames not yet queued go (R422). -/
def Link.overReset (k : Link) : Link := { k with chain1 := [], chain2 := [] }

/-- A region across a whole-unit reset: its armed slots are dropped, with the words of launches on its bus, and a failed repeater
comes back (R144, R421). -/
def Region.overReset (g : Region) : Region :=
  let keep : BusBody → Bool := fun b => match b with
    | .launchAt _ _ _ | .cancel _ _ => false
    | _ => true
  { g with armed := [], taken := [], fail := false, wake := false, queue := g.queue.filter fun w => keep w.body,
           flight := g.flight.filter fun w => keep w.body, unacked := g.unacked.filter fun w => keep w.body }

/-- The items that a whole-unit reset absorbs: ready marks, commands presented but not taken, fired commands whose arrival
is pending, and launch-port resets of its tick (R422, R424). -/
def Tsu.absorbs (t : Tsu) : Nat :=
  t.com.marks.length + ((List.map Prod.snd t.ports).map fun q => q.fired.length + q.pend.length + b2n (decide (q.resetAt = some t.com.time.aon))).sum

/-- The TSU after a whole-unit reset: the time domain, the lanes and the fuse map are kept, every launch port is reset
(R421, R422). -/
def Tsu.unitReset (t : Tsu) : Tsu :=
  let aon := t.com.time.aon
  { Tsu.reset with
    com := { Common.reset with
      time := t.com.time, srcs := t.com.srcs, links := Tab.map t.com.links fun _ k => k.overReset,
      rw := t.com.rw.filter fun p => keptTsu p.1, evt := t.com.evt.filter fun p => keptTsu p.1,
      redunLost := t.com.redunLost },
    regions := Tab.map t.regions fun _ g => g.overReset,
    fchgAt := t.fchgAt, fchgReason := t.fchgReason, lead := t.lead, syncAt := t.syncAt, pmOut := t.pmOut, dieId := t.dieId, nbrMismatch := t.nbrMismatch,
    ports := (List.range 1024).map fun p => (p, { Port.reset with resetAt := some aon }),
    portRegion := t.portRegion, badPorts := t.badPorts, noPorts := t.noPorts, badUnits := t.badUnits, ucode := t.ucode, ucodePend := t.ucodePend,
    fuseRev := t.fuseRev, fuseRepairs := t.fuseRepairs, fuseUnrepaired := t.fuseUnrepaired, inReset := t.inReset,
    tdHeld := t.tdHeld, absorbed := min t.absorbs 0xFFFF,
    boot := { Boot.reset 1 with startAt := aon, phaseAt := aon, warm := true } }

/-- A whole-unit reset is ordered; while one holds the unit already it is absorbed (R421, R424). -/
def State.unitReset (s : State) : State :=
  if s.tsu.inReset then s.updTsu fun t => { t with absorbed := min (t.absorbed + 1) 0xFFFF }
  else s.updTsu Tsu.unitReset

/-! ## Chip reset of the distributor -/

/-- A port across a chip reset: DOWN, nothing queued, its pipeline times and fuses kept; U0 and U1 train (R218, R423). -/
def Link.overChip (k : Link) (p aon : Nat) : Link :=
  { Link.reset with fused := k.fused, optical := k.optical, rxPipe := k.rxPipe, txPipe := k.txPipe, rxPipeFb := k.rxPipeFb, txPipeFb := k.txPipeFb, downAt := aon,
                    attemptAt := aon, enabled := decide (p = 64 ∨ p = 65), declared := decide (p = 64) }

/-- A source across a chip reset: its calibrated corrections are kept (R73, R423). -/
def TimeSrc.overChip (v : TimeSrc) : TimeSrc :=
  { TimeSrc.reset with corrTx0 := v.corrTx0, corrRx0 := v.corrRx0, corrTx1 := v.corrTx1, corrRx1 := v.corrRx1 }

/-- The bad-unit port that a blow names (R418, R486). -/
def blownPort (kind unit : Nat) : Nat := match kind with
  | 0 => unit % 64
  | 1 => 64 + unit % 2
  | _ => 66 + unit % 2

/-- Blows take effect (R418). -/
def Gd.blow (g : Gd) : Gd :=
  let bad := (g.blown.filter fun b => b.1 ≠ 3).map fun b => blownPort b.1 b.2.1
  { g with badPorts := g.badPorts ++ bad.filter fun p => !g.badPorts.contains p,
           repairs := min 256 (g.repairs + (g.blown.filter fun b => b.1 = 3).length), blown := [] }

/-- The locator that a hall root's straps give; none elsewhere, where training delivers it (R28). -/
def strapLoc (rootSel sideSel : Bool) : Option Nat := if rootSel then some (mkLoc 3 0 + 131072 * b2n sideSel) else none

/-- The distributor while chip reset holds it: everything but the fuse map, the firmware slots, the
identity-and-calibration block, the stored settings and the journal's lines is reset, and RING_BYPASS_N is low (R181,
R407, R421, R423, R446, R473). -/
def Gd.chipReset (g0 : Gd) (cause : Nat) : Gd :=
  let g := g0.blow
  let aon := g.com.time.aon
  let kept := (Tab.map g.com.rw fun o w => w &&& settingMask o ||| BitVec.ofNat 32 (resetGd o) &&& ~~~ settingMask o).filter
    fun p => settingMask p.1 ≠ 0
  { Gd.reset with
    com := { Common.reset with
      time := { TimeDom.reset with aon }, srcs := Tab.map g.com.srcs fun _ v => v.overChip,
      links := gdPorts.map fun p => (p, (Tab.getD g.com.links p Link.reset).overChip p aon), rw := kept },
    variant := g.variant, rootSel := g.rootSel, sideSel := g.sideSel,
    locator := strapLoc g.rootSel g.sideSel,
    journal := { Journal.reset with recno := g.journal.recno, lines := g.journal.lines },
    ref := { RefSel.reset with powerAt := aon },
    powered := g.powered, resetLow := g.resetLow, lastCause := cause,
    fabricMax := g.fabricMax, powerLimit := g.powerLimit, unitDis := g.unitDis, repairs := g.repairs,
    unrepaired := g.unrepaired, lostSoft := g.lostSoft, lostScan := g.lostScan, badPorts := g.badPorts, fw := { g.fw with load := none, act := .idle },
    keysw := g.keysw, loopOk := g.loopOk, loopAt := g.loopAt, button := g.button, sealAt := aon, ownerLock := g.ownerLock,
    therm := g.therm, boot := { Boot.reset 0 with startAt := aon, phaseAt := aon } }

/-- Bring-up begins: at power-good, or when a chip reset ends (R412, R414, R502). -/
def State.chipStart (s : State) : State :=
  s.updBoot .gd fun b => { b with phase := 1, failed := false }

/-- A chip reset is ordered, and bring-up begins anew; while the chip is held in reset it is absorbed (R423, R424). -/
def State.chipReset (s : State) (cause : Nat) : State :=
  if !s.gd.powered ∨ s.gd.resetLow then s.updGd fun g => { g with absorbed := min (g.absorbed + 1) 0xFFFF }
  else (s.updGd fun g => g.chipReset cause).chipStart

end Sys2Proof.Machine
end

