-- ==== Sys2Proof/Machine/FwOps.lean ====
section
/-! DEFINITION. Shared operations of distributor firmware: the KGFW header's checks, a load, activation, commit and
revert (R434 to R445). -/

namespace Sys2Proof.Machine

open Sys2Proof

/-- The role a distributor has under its tree image (R438). -/
def Gd.heldRole (g : Gd) : Option Nat := if g.hasRole then g.role else none

/-- Step 7 of R437: OWNER_LOCK binds sleds and racks, FLOOR pods and hall roots, and both bind a distributor without a
role (R438). -/
def Gd.roleRule (g : Gd) (svn : Nat) : Except Refused Unit :=
  let lock : Except Refused Unit := need (!g.ownerLock) 0x15 0
  let floor : Except Refused Unit := need (decide (g.fw.floor ≤ svn)) 0x16 16
  match g.heldRole with
  | some 0 => lock
  | some 1 => lock
  | some _ => floor
  | none => do
    lock
    floor

/-- PRODUCT bit of a variant (R436). -/
def Variant.code : Variant → Nat
  | .gd64x => 0 | .gd64s => 1 | .gd32e => 2

/-- Steps 1 to 7 of R437, over the first 64 bytes of an image. -/
def Gd.fwHeader (g : Gd) (b : List Byte) (inBand : Option Nat) : Except Refused FwSlot := do
  need (beNat b 0 4 = 0x4B474657) 0x01 0
  need (beNat b 4 1 = 1) 0x02 4
  let cls := bitsOf (beNat b 5 1) 5 4
  need (beNat b 5 1 % 16 = 0 && cls ≠ 0) 0x05 5
  need (beNat b 6 2 < 8) 0x05 6
  need (beNat b 16 1 < 64) 0x05 16
  reserved b 19 37
  need (beNat b 56 4 = crc32c (b.take 56)) 0x03 56
  need (bitOf (beNat b 6 2) g.variant.code) 0x17 6
  need (match g.heldRole with
    | some r => bitOf cls (if r < 2 then 0 else 1)
    | none => true) 0x17 5
  need (beNat b 5 1 / 64 = 0) 0x07 5
  let len := beNat b 8 4
  need (len ≤ 16777216 && (inBand.map fun n => decide (n = len)).getD true) 0x04 8
  g.roleRule (beNat b 16 1)
  return { state := .staged, svn := beNat b 16 1, fmt := beNat b 17 1, handover := beNat b 18 1,
           version := BitVec.ofNat 32 (beNat b 12 4) }

/-- A firmware slot: true B. -/
def Fw.slot (f : Fw) (b : Bool) : FwSlot := if b then f.slotB else f.slotA

/-- Replace a firmware slot. -/
def Fw.setSlot (f : Fw) (b : Bool) (v : FwSlot) : Fw := if b then { f with slotB := v } else { f with slotA := v }

/-- The slot that is ACTIVE: true B (R434). -/
def Fw.active (f : Fw) : Bool := decide (f.slotB.state = .active)

/-- The slot that holds a trial (R434). -/
def Fw.trial (f : Fw) : Option Bool :=
  if f.slotA.state = .trial then some false else if f.slotB.state = .trial then some true else none

/-- Update the firmware state. -/
def State.updFw (s : State) (f : Fw → Fw) : State := s.updGd fun g => { g with fw := f g.fw }

/-- A firmware image is refused: GD_FW_STATUS keeps REASON and offset (R289, R437, R487). -/
def State.fwRefuse (s : State) (r : Refused) : State :=
  let w := refusalWord r
  (s.updFw fun f => { f with refusal := w }).logG .imageRefused 0x8000 w

/-- A load or an activation is in progress, a trial included (R439). -/
def Fw.busy (f : Fw) : Bool := f.load.isSome || f.act ≠ .idle || f.trial.isSome

/-- A load starts: its header is checked, then the slot that is not ACTIVE is written (R434, R437, R439). -/
def State.fwLoad (s : State) (b : List Byte) (inBand : Option Nat) : State :=
  if s.gd.fw.busy then s.fwRefuse (0x13, 0)
  else match s.gd.fwHeader b inBand with
    | .error r => s.fwRefuse r
    | .ok v =>
      let image := b.take (beNat b 8 4)
      let crc : Bool := decide (beNat b 60 4 = crc32c (image.take 60 ++ [0, 0, 0, 0] ++ image.drop 64))
      s.updFw fun f =>
        let t := !f.active
        { f.setSlot t { FwSlot.empty with state := .writing } with load := some (v, f.slot t, crc) }

/-- The image has been written and read back: step 8 and step 9 of R437, or ONE_FW_SLOT_FAULT (R439). -/
def State.fwWritten (s : State) (crcOk signatureOk writeOk : Bool) : State :=
  match s.gd.fw.load with
  | none => s
  | some (v, old, crc) =>
    let done : FwSlot → State := fun x => s.updFw fun f => { f.setSlot (!f.active) x with load := none }
    if !writeOk then (done FwSlot.empty).logG .fwSlotFault 0x8000
    else if !(crcOk && crc) then (done old).fwRefuse (0x03, 60)
    else if !signatureOk then (done old).fwRefuse (0x14, 0)
    else done v

/-- An activation, commit or rollback ended (R476). -/
def State.fwEnded (s : State) : State := s.updCom .gd fun c => c.setIrq 0x20000

/-- A rollback with its detail (R441, R443). -/
def State.fwRollback (s : State) (detail : Nat) : State := (s.logG .fwRollback 0x8000 detail).fwEnded

/-- An activation is refused (R441). -/
def State.fwBusyErr (s : State) (detail : Nat) : State := s.logG .fwBusy 0x8000 detail

/-- An activation that nothing holds back: the STAGED slot is judged; then the understudy boots it, or a chip reset does
(R441). -/
def State.fwBegin (s : State) (cold : Bool) (version : Option Word) : State :=
  let f := s.gd.fw
  let t := !f.active
  let s := s.updFw fun f => { f with act := .idle }
  if (f.slot t).state ≠ .staged ∨ ((version.map fun v => decide (v ≠ (f.slot t).version)).getD false) then s.fwBusyErr 3
  else if cold then
    (s.updFw fun f => { f.setSlot t { f.slot t with state := .trial } with bootOnce := true, trialCold := true }).chipReset 3
  else if (f.slot t).handover ≠ (f.slot f.runB).handover then s.fwBusyErr 4
  else
    let aon := s.aon .gd
    s.updFw fun f => { f with act := .booting aon }

/-- ACTIVATE, its custody granted; an order on the tick of a chip reset, or before the firmware runs, is lost (R441, R444). -/
def State.fwActivate (s : State) (cold : Bool) (version : Option Word) : State :=
  let f := s.gd.fw
  if s.gd.boot.phase = 1 then s
  else if f.partnerBusy then s.fwBusyErr 1
  else if f.act ≠ .idle ∨ f.trial.isSome then s.fwBusyErr 5
  else if s.gd.census.isSome then
    if (f.slot (!f.active)).state ≠ .staged then s.fwBusyErr 3
    else
      let aon := s.aon .gd
      s.updFw fun f => { f with act := .waiting aon cold version }
  else s.fwBegin cold version

/-- The trial commits: its slot becomes ACTIVE, the old one STAGED, and FLOOR rises at a pod or hall root (R443). -/
def State.fwCommit (s : State) : State :=
  match s.gd.fw.trial with
  | none => s
  | some t =>
    let high := (s.gd.heldRole.map fun r => decide (2 ≤ r)).getD false
    let aon := s.aon .gd
    let f0 := s.gd.fw
    (s.updFw fun f =>
      let old := { f.slot (!t) with state := if (f.slot (!t)).state = .active then .staged else (f.slot (!t)).state }
      let f := (f.setSlot (!t) old).setSlot t { f.slot t with state := .active }
      { f with undo := some (aon, f0.slotA, f0.slotB, f0.floor), floor := if high then max f.floor (f.slot t).svn else f.floor, act := .idle }).fwEnded

/-- A commit of this tick is undone: REVERT wins (R444). -/
def State.fwUndo (s : State) : State :=
  let aon := s.aon .gd
  s.updFw fun f => match f.undo with
    | some (at_, a, b, floor) => if at_ = aon then { f with slotA := a, slotB := b, floor, undo := none } else f
    | none => f

/-- The trial is reverted: the old image leads again, by a chip reset in a cold trial (R443, R444). -/
def State.fwRevert (s0 : State) (detail : Nat) : State :=
  let s := if s0.gd.fw.trial.isNone then s0.fwUndo else s0
  match s.gd.fw.trial with
  | none => s
  | some t =>
    let s := s.updFw fun f => { f.setSlot t { f.slot t with state := .failed } with runB := f.active, act := .idle }
    if s.gd.fw.trialCold then (s.chipReset 3).fwRollback detail else s.fwRollback detail

/-- An operation of R449 on this distributor's firmware needs custody: in the sled and rack roles. -/
def Gd.fwCustody (g : Gd) : Bool := (g.heldRole.map fun r => decide (r < 2)).getD false

/-- The cores boot at chip reset: the TRIAL slot under BOOT_ONCE, else the ACTIVE one; `other`: the slot to be booted
failed its checks and the other one was taken (R435). -/
def State.fwBoot (s : State) (other : Bool) : State :=
  let f := s.gd.fw
  let aon := s.aon .gd
  let set (t : Bool) (st : SlotState) (s : State) : State := s.updFw fun f => f.setSlot t { f.slot t with state := st }
  let once := f.bootOnce
  let s := s.updFw fun f => { f with bootOnce := false }
  let s := match f.trial with
    | some t =>
      if once ∧ !other then s.updFw fun f => { f with runB := t, trialCold := true, trialAt := aon }
      else (set t .failed (s.updFw fun f => { f with runB := !t })).fwRollback (if once then 1 else 5)
    | none => s
  let s := if other ∧ !once then
      let a := s.gd.fw.active
      set (!a) .active (set a .failed (s.updFw fun f => { f with runB := !a }))
    else if f.trial.isNone then s.updFw fun f => { f with runB := f.active } else s
  s.settingsFor (s.gd.fw.slot s.gd.fw.runB).fmt

end Sys2Proof.Machine
end

