-- ==== Sys2Proof/Machine/Boot.lean ====
section
/-! DEFINITION. The commands of bring-up: power-good, reset release, phases and stages (R412 to R416, R425, R435, R502,
R509). -/

namespace Sys2Proof.Machine

open Sys2Proof

/-! ## Supplies and resets -/

/-- DIE_RESET_ASSERT: TSU_RST_N low orders a whole-unit reset and holds it (R421, R509). -/
def execDieResetAssert (s : State) : Outcome :=
  .next (s.unitReset.updTsu fun t => { t with inReset := true })

/-- DIE_RESET_RELEASE: the rising edge of TSU_RST_N is the reset release; CORE starts (R412, R509). -/
def execDieResetRelease (s : State) : Outcome :=
  .next (
    let aon := s.aon .tsu
    if s.tsu.inReset then s.updTsu fun t => { t with
      inReset := false, boot := { t.boot with phase := 1, failed := false, startAt := aon, phaseAt := aon } }
    else s)

/-- Power-good: the straps are sampled, and bring-up begins (R412, R414, R493, R502). -/
def State.powerGood (s : State) (rootSel sideSel : Bool) : State :=
  let aon := s.aon .gd
  let s := s.updGd fun g => { g with rootSel := rootSel, sideSel := sideSel, locator := strapLoc rootSel sideSel }
  (s.updBoot .gd fun b => { b with startAt := aon, phaseAt := aon }).chipStart

/-- POWER_GOOD: PWR_GOOD rises; while RESET_N is low, its own rise is power-good instead (R502). -/
def execPowerGood (rootSel sideSel : Bool) (s : State) : Outcome :=
  .next (if s.gd.powered then s
    else
      let s := s.updGd fun g => { g.chipReset 0 with powered := true }
      if s.gd.resetLow then s else s.powerGood rootSel sideSel)

/-- POWER_GOOD_FALL: the chip is held in chip reset, with RING_BYPASS_N low (R502). -/
def execPowerGoodFall (s : State) : Outcome :=
  .next (s.updGd fun g => { g.chipReset 0 with powered := false })

/-- RESET_N_ASSERT: the reset pin holds the chip in reset (R423, R502). -/
def execResetNAssert (s : State) : Outcome :=
  .next (s.updGd fun g => { (if g.powered && !g.resetLow then g.chipReset 1 else g) with resetLow := true })

/-- RESET_N_RELEASE: RESET_N rises; while PWR_GOOD is high, that is power-good (R502). -/
def execResetNRelease (rootSel sideSel : Bool) (s : State) : Outcome :=
  .next (
    let was := s.gd.resetLow
    let s := s.updGd fun g => { g with resetLow := false }
    if was && s.gd.powered then s.powerGood rootSel sideSel else s)

/-- CHIP_RST: the management core orders a chip reset (R423, R486). -/
def execChipRst (s : State) : Outcome := .next (s.chipReset 3)

/-- WATCHDOG_EXPIRY: the watchdog orders a chip reset (R423). -/
def execWatchdogExpiry (s : State) : Outcome := .next (s.chipReset 2)

/-! ## Phases -/

/-- The bring-up of a node. -/
def State.boot (s : State) : Node → Boot
  | .tsu => s.tsu.boot
  | .gd => s.gd.boot

/-- The work of the current phase is done (R412); after a whole-unit reset CLOCKS and LINKS pass at once (R421). -/
def State.phaseMet (s : State) (n : Node) : Bool :=
  let b := s.boot n
  !b.failed && match n with
    | .tsu => !s.tsu.inReset && match b.phase with
      | 2 => b.warm || (s.tsu.com.time.pllLocked && (List.range 8).all fun r => !(s.region r).present || (s.region r).calibrated)
      | 5 => b.warm || s.tsu.com.time.standalone || s.reg .tsu 0x300 % 4 = 0 || [0, 1].any fun l => s.trained ⟨.tsu, l⟩
      | p => decide (1 ≤ p ∧ p ≤ 6)
    | .gd => s.gd.rootSel && s.gd.powered && !s.gd.resetLow && match b.phase with
      | 1 => s.gd.image ≠ []
      | 2 => s.gd.com.time.pllLocked
      | p => decide (1 ≤ p ∧ p ≤ 6)

/-- The units that a phase leaves out: their number and the first (R415, R419). -/
def State.phaseOut (s : State) (n : Node) (phase : Nat) : Nat × Nat :=
  let first (l : List Nat) : Nat × Nat := (l.length, l.head?.getD 0)
  match n, phase with
  | .tsu, 2 => first ((List.range 8).filter fun r => !(s.region r).present)
  | .tsu, 4 => (s.tsu.fuseUnrepaired, 0)
  | .tsu, 5 => first ([0, 1].filter fun l => (s.link ⟨.tsu, l⟩).fused)
  | .tsu, 6 => first s.tsu.badPorts
  | .gd, 4 => (s.gd.unrepaired, 0)
  | .gd, 5 => first s.gd.badPorts
  | _, _ => (0, 0)

/-- LINKS passes with a lane fused bad: REDUNDANCY_LOST, recorded once (R419). -/
def State.fusedLane (s : State) : State :=
  if !s.tsu.com.redunLost ∧ ([0, 1].any fun l => (s.link ⟨.tsu, l⟩).fused) then
    let s := s.updCom .tsu fun c => { c with redunLost := true }
    ((s.setEvt .tsu 0x304 0x8).logT .redundancyLost).healthSend .redundancyLost
  else s

/-- The restart notice: JOIN REQ with DOMAIN 0 on each lane that is UP (R425). -/
def State.restartOut (s : State) : State :=
  let f := mkFrame 0x18 2 0 0 0 (s.now .tsu).ns32 (natBytes 1 1 ++ natBytes 0 1 ++ natBytes (s.tsu.dieId.getD 0) 3)
  ([0, 1].filter fun l => s.trained ⟨.tsu, l⟩).foldl (fun (s : State) l => s.send ⟨.tsu, l⟩ 2 0 [f]) s

/-- The current image's ports are enabled, where the node has a role under it (R29, R412, R414). -/
def State.openCurrent (s : State) : State :=
  match s.gd.tree with
  | some t => if s.gd.hasRole then s.openPorts t else s
  | none => s

/-- What the end of a phase brings: the pending microcode is active, the restart notice of a warm start; at a hall root
the booted image, the power-up marker, the ports and the role's census (R389, R407, R412, R419, R425, R431). -/
def State.phaseWork (s : State) (n : Node) (phase : Nat) : State :=
  match n, phase with
  | .tsu, 1 => s.updTsu fun t => { t with ucode := t.ucodePend.getD t.ucode, ucodePend := none }
  | .tsu, 5 => s.fusedLane
  | .tsu, 6 => if s.tsu.boot.warm then s.restartOut else s
  | .gd, 1 => s.fwBoot false
  | .gd, 4 => (s.updGd fun g => g.journalWrite 7 0 (g.locator.getD 0) (Config.noFrameBody g.journal.recno)).openCurrent
  | .gd, 6 => if s.gd.hasRole then s.fullCensus none false else s
  | _, _ => s

/-- The current phase passes: its report, its work, and the next phase (R412, R415). -/
def State.phasePass (s : State) (n : Node) : State :=
  let p := (s.boot n).phase
  let x := s.phaseOut n p
  let aon := s.aon n
  let next := if n = .gd ∧ p = 6 then 15 else p + 1
  let s := s.report n p 0 0 x.1 (BitVec.ofNat 32 x.2)
  ((s.updBoot n fun b => { b with phase := next, phaseAt := aon }).phaseWork n p).bootMsLatch n

/-- A phase ends when its work is done; a phase that then passes at once ends with it (R412, R421). -/
def State.bootPhasePass (s : State) (n : Node) : State :=
  if !s.phaseMet n then s
  else
    let s := s.phasePass n
    if n = .tsu ∧ s.tsu.boot.warm ∧ (s.tsu.boot.phase = 2 ∨ s.tsu.boot.phase = 5) then s.phasePass n else s

/-- BOOT_PHASE_PASS (R412). -/
def execBootPhasePass (n : Node) (s : State) : Outcome := .next (s.bootPhasePass n)

/-- The limit of a phase in ns (R412). -/
def phaseLimit (n : Node) (phase : Nat) : Option Nat :=
  match n, phase with
  | .tsu, 1 => some 2000000 | .tsu, 2 => some 2000000 | .tsu, 3 => some 1000000 | .tsu, 4 => some 4000000
  | .tsu, 6 => some 1000000
  | .gd, 1 => some 2500000000 | .gd, 2 => some 50000000 | .gd, 3 => some 200000000 | .gd, 4 => some 400000000
  | .gd, 5 => some 100000000 | .gd, 6 => some 10000000
  | _, _ => none

/-- A unit is in bring-up by phases: the TSU out of reset, or a hall-root distributor (R412). -/
def State.phased (s : State) : Node → Bool
  | .tsu => !s.tsu.inReset
  | .gd => s.gd.rootSel && s.gd.powered && !s.gd.resetLow

/-- A phase that overruns its limit: the unit stops with FAILED and ONE_BOOT_FAIL, the phase as detail; a hall root keeps
RING_BYPASS_N low (R412). -/
def State.bootPhaseTimeout (s : State) (n : Node) : State :=
  let b := s.boot n
  match phaseLimit n b.phase with
  | none => s
  | some lim =>
    if b.failed ∨ !s.phased n ∨ s.aon n < b.phaseAt + lim then s
    else
      let s := (s.updBoot n fun b => { b with failed := true }).report n b.phase 3 (ErrCode.value .bootFail) 0
        (BitVec.ofNat 32 b.phase)
      match n with
      | .tsu => s
      | .gd => s.updGd fun g => { g with ringLow := true }

/-- BOOT_PHASE_TIMEOUT (R412). -/
def execBootPhaseTimeout (n : Node) (s : State) : Outcome := .next (s.bootPhaseTimeout n)

/-! ## Stages -/

/-- The declared upstream ports that are UP, and those that are declared (R414). -/
def State.uplinks (s : State) : List Nat × List Nat :=
  let want := [64, 65].filter fun p => (s.link ⟨.gd, p⟩).declared
  (want.filter fun p => s.trained ⟨.gd, p⟩, want)

/-- Every declared downstream and lateral port is UP. -/
def State.downlinksUp (s : State) : Bool :=
  gdPorts.all fun p => decide (p = 64 ∨ p = 65) || !(s.link ⟨.gd, p⟩).declared || s.trained ⟨.gd, p⟩

/-- A stage can end in this way: what its row asks for holds (R414). -/
def State.stageMet (s : State) (e : StageEnd) : Bool :=
  let b := s.gd.boot
  let late (ms : Nat) : Bool := decide (b.phaseAt + ms * 1000000 ≤ s.aon .gd)
  let ups := s.uplinks
  let tracks := s.gd.com.time.mode = .track && s.gd.com.time.upTq = .qualified
  let viaPartner := s.gd.com.time.sel = some s.gd.partnerPort
  match b.phase, e with
  | 1, .pass => true
  | 1, .degraded => s.gd.fw.bootOnce || decide ((s.gd.fw.slot !s.gd.fw.active).state = .staged)
  | 1, .fail => true
  | 2, .pass => s.gd.com.time.pllLocked
  | 2, .fail => !s.gd.com.time.pllLocked && late 50
  | 3, .pass => s.gd.unrepaired = 0
  | 3, .degraded => decide (s.gd.unrepaired ≠ 0) || s.gd.hasJournal
  | 3, .fail => true
  | 4, .pass => s.gd.locator.isSome && ups.1 = ups.2
  | 4, .degraded => s.gd.locator.isSome && late 240 && ups.1.length = 1
  | 4, .waiting => late 240 && ups.1 = []
  | 5, .pass => s.gd.hasRole
  | 5, .waiting => !s.gd.hasRole && (late 1000 || s.gd.refusal ≠ 0)
  | 5, .fail => s.gd.tree.isSome && !s.gd.hasRole
  | 6, .pass => s.downlinksUp
  | 6, .degraded => late 240 && !s.downlinksUp
  | 7, .pass => tracks && !viaPartner
  | 7, .degraded => s.gd.com.time.mode = .track && viaPartner
  | 8, .pass => s.gd.census.isNone && !b.slow
  | 8, .degraded => s.gd.census.isNone && b.slow
  | _, _ => false

/-- What the end of a stage brings: the booted image, a journal stack that failed, tracking; and what the next stage begins
with: the ports, the census (R389, R414, R435). MEMORIES that end DEGRADED with no row beyond the spares found the journal
stack failed (log entry 160). -/
def State.stageWork (s : State) (stage : Nat) (degraded : Bool) : State :=
  match stage with
  | 1 => s.fwBoot degraded
  | 3 => s.updGd fun g => { g with journal := { g.journal with failed := degraded && decide (g.unrepaired = 0) } }
  | 5 => s.openCurrent
  | 7 => (s.updBoot .gd fun b => { b with tracking := true }).fullCensus none false
  | _ => s

/-- A stage ends, or reports that it waits: PASS and DEGRADED start the next stage; FAIL stops the unit and reverts a
trial with detail 4 (R414, R415, R443). -/
def State.bootStageEnd (s : State) (e : StageEnd) (code count : Nat) (detail : Word) : State :=
  let b := s.gd.boot
  if s.gd.rootSel ∨ !s.gd.powered ∨ s.gd.resetLow ∨ b.failed ∨ !s.stageMet e then s
  else
    let aon := s.aon .gd
    let next : State → State := fun s =>
      s.updBoot .gd fun b => { b with phase := if b.phase = 8 then 15 else b.phase + 1, phaseAt := aon }
    match e with
    | .pass => ((next (s.report .gd b.phase 0 0 count detail)).stageWork b.phase false).bootMsLatch .gd
    | .degraded =>
      ((next (s.report .gd b.phase 1 (ErrCode.value .stageDegraded) count detail)).stageWork b.phase true).bootMsLatch .gd
    | .waiting => s.report .gd b.phase 2 (code % 65536) count detail
    | .fail =>
      ((s.updBoot .gd fun b => { b with failed := true }).report .gd b.phase 3 (ErrCode.value .bootFail) count
        (BitVec.ofNat 32 b.phase)).fwRevert 4

/-- BOOT_STAGE_END (R414). -/
def execBootStageEnd (e : StageEnd) (code count : Nat) (detail : Word) (s : State) : Outcome :=
  .next (s.bootStageEnd e code count detail)

end Sys2Proof.Machine
end

