-- ==== Sys2Proof/Machine/Bulk.lean ====
section
/-! DEFINITION. The commands of bulk transfer and roll call (R178 to R180, R281 to R283, R309, R430, R431, R439). -/

namespace Sys2Proof.Machine

open Sys2Proof

/-! ## Objects -/

/-- A bulk object at a node. -/
def State.bulk? (s : State) (n : Node) (o : Nat) : Option BulkRx := Tab.get (s.com n).bulk o

/-- Keep a bulk object. -/
def State.setBulk (s : State) (n : Node) (o : Nat) (x : BulkRx) : State :=
  s.updCom n fun c => { c with bulk := Tab.put c.bulk o x }

/-- Drop a bulk object. -/
def State.delBulk (s : State) (n : Node) (o : Nat) : State := s.updCom n fun c => { c with bulk := Tab.del c.bulk o }

/-- The ports on which a distributor feeds an object of a kind: those in scope; a sled feeds no full tree image and no
distributor firmware to its dies (R179, R318, R439). -/
def State.feedPorts (s : State) (kind scope dest : Nat) (domain : BitVec 24) : List Nat :=
  if !s.gd.hasRole ∨ (s.gd.role = some 0 ∧ (kind = 5 ∨ (kind = 2 ∧ scope ≠ 2))) then []
  else s.scopePorts scope dest domain

/-- The ports on which a held object is fed. -/
def State.feed (s : State) (x : BulkRx) : List Nat := s.feedPorts x.kind x.scope x.dest x.domain

/-- Send frames of an object on each of some ports (R179). -/
def State.feedTo (s : State) (ports : List Nat) (fs : List Frame) : State :=
  ports.foldl (fun (s : State) p => s.sendAll ⟨.gd, p⟩ 3 fs) s

/-! ## Loaders -/

/-- The header of TSU microcode or engine firmware (R289, R431). -/
def unitHeader (b : List Byte) (magic limit rev : Nat) : Except Refused Nat := do
  need (beNat b 0 4 = magic) 0x01 0
  need (beNat b 4 1 = 1) 0x02 4
  need (beNat b 8 4 ≤ limit && beNat b 8 4 = b.length && 64 ≤ b.length) 0x04 8
  need (beNat b 60 4 = crc32c (b.take 60 ++ [0, 0, 0, 0] ++ b.drop 64)) 0x03 60
  need (beNat b 5 1 / 64 = 0) 0x07 5
  need (beNat b 5 1 % 64 = 0) 0x05 5
  reserved b 14 46
  need (bitOf (beNat b 6 2) rev) 0x02 6
  return beNat b 12 2

/-- A microcode object at a TSU: checked, it becomes pending (R431). -/
def State.microcodeTake (s : State) (b : List Byte) : State :=
  if s.tsu.ucodePend.isSome then s.tsuRefuse none (0x13, 0)
  else match unitHeader b 0x4B474D43 262144 s.tsu.fuseRev with
    | .error r => s.tsuRefuse none r
    | .ok v => if Config.signatureGood b then s.updTsu fun t => { t with ucodePend := some v } else s.tsuRefuse none (0x14, 0)

/-- An engine firmware object at a TSU: checked, it is written whole to ENGFW_BASE (R431). -/
def State.engineTake (s : State) (b : List Byte) : State :=
  match unitHeader b 0x4B474546 16777216 s.tsu.fuseRev with
  | .error r => s.tsuRefuse none r
  | .ok _ => s.nwWrite .firmware 0 (s.reg .tsu 0x7F4 * 4294967296 + s.reg .tsu 0x7F0 / 4096 * 4096) b

/-- A TSU's loaders (R178, R306, R318, R431). -/
def State.tsuLoad (s : State) (x : BulkRx) : State :=
  let b := x.bytes
  match x.kind with
  | 1 => match s.sliceOf (BitVec.ofNat 24 (beNat b 16 3)) with
    | some n => s.schedLoaded n b b.length true
    | none => s.tsuRefuse none (0x0D, 16)
  | 2 => s.extractTake b
  | 3 => s.microcodeTake b
  | 4 => s.engineTake b
  | _ => s

/-- A distributor that is a domain's top node, on either side, keeps the ARM and POLICY records of a schedule image that
it forwards (R309). -/
def State.schedKeep (s : State) (b : List Byte) : State :=
  let tag : BitVec 24 := BitVec.ofNat 24 (beNat b 16 3)
  match s.dom? tag with
  | none => s
  | some d =>
    if !s.gd.isTop d.dr then s
    else match schedTables b b.length with
      | .error r => s.gdRefuse r
      | .ok (m, _) =>
        let arms := (m.arms.filter fun a => a.dom).map fun a => (softKey tag a.index, a)
        let aon := s.aon .gd
        s.updGd fun g => { g.hold aon with
          arms := arms.foldl (fun t a => Tab.put t a.1 a.2) (g.arms.filter fun p => p.1 / 4096 ≠ tag.toNat),
          policies := m.policies.foldl (fun t p => Tab.put t p.1 p.2) g.policies }

/-- A distributor's loaders (R178, R309, R318, R439). -/
def State.gdLoad (s : State) (x : BulkRx) : State :=
  match x.kind with
  | 1 => s.schedKeep x.bytes
  | 2 => s.treeTake x.bytes true
  | 5 => s.fwLoad x.bytes (some x.length)
  | _ => s

/-- An object that is whole once its bitmap is fixed goes to its loader (R180). -/
def State.bulkTry (s : State) (n : Node) (o : Nat) : State :=
  match s.bulk? n o with
  | none => s
  | some x =>
    if x.missing.isNone ∨ x.loaded ∨ x.lacks ≠ [] then s
    else
      let s := s.setBulk n o { x with loaded := true }
      match n with
      | .tsu => s.tsuLoad x
      | .gd => s.gdLoad x

/-! ## Reception -/

/-- A bulk or roll-call frame comes down: at a distributor only on its upstream ports (R29, R178, R281). -/
def downLink (l : LinkId) : Bool := decide (l.node = .tsu ∨ l.port = 64 ∨ l.port = 65)

/-- A loader at a node refuses an object. -/
def State.bulkRefuse (s : State) (n : Node) (reason : Nat) : State :=
  match n with
  | .tsu => s.tsuRefuse none (reason, 0)
  | .gd => s.gdRefuse (reason, 0)

/-- BULK_OPEN at a node (R178, R439). -/
def State.bulkOpenRx (s : State) (l : LinkId) (rx : Rx) : State :=
  match s.receive l rx 0x20 with
  | (s, none) => s
  | (s, some f) =>
    if !downLink l then s.malformed l
    else
      let kind := f.byte 14
      let scope := f.byte 15
      let dest := f.nat 16 3 % 262144
      let x := BulkRx.fresh kind scope dest f.domain (f.nat 19 5) (s.aon l.node)
      let o := f.nat 12 2
      if 2 < scope then s.bulkRefuse l.node 0x05
      else if x.length = 0 ∨ x.chunks ≠ f.nat 24 3 then s.bulkRefuse l.node 0x04
      else if kind = 0 ∨ 5 < kind then s.bulkRefuse l.node 0x05
      else match l.node with
        | .tsu => if kind = 5 ∨ (scope = 2 ∧ s.tsu.dieId ≠ some dest) then s else s.setBulk .tsu o x
        | .gd => (s.setBulk .gd o x).feedTo (s.feed x) [openFrame o x]

/-- BULK_OPEN_RX (R178). -/
def execBulkOpenRx (l : LinkId) (rx : Rx) (s : State) : Outcome := .next (s.bulkOpenRx l rx)

/-- A frame of a held object: kept unless its chunk is whole; a chunk that a distributor holds whole when its last frame
comes is fed to the ports in scope, a repaired one again (R178, R179, R430). -/
def State.bulkData (s : State) (n : Node) (o : Nat) (x : BulkRx) (c fr : Nat) (data : List Byte) : State :=
  let aon := s.aon n
  let was := x.whole c
  let x := { x with lastAt := aon }
  let x := if was then x else { x with frags := Tab.put x.frags (32 * c + fr) data }
  let now := was || (List.range 32).all fun k => (Tab.get x.frags (32 * c + k)).isSome
  let x := if now ∧ !was then
      { x with arrived := Tab.put x.arrived c aon, missing := x.missing.map fun m => m.filter (· ≠ c) } else x
  let s := s.setBulk n o x
  let s := if n = .gd ∧ now ∧ (!was ∨ fr = 31) then s.feedTo (s.feed x) (x.chunk o c) else s
  if now ∧ !was then s.bulkTry n o else s

/-- BULK_DATA at a node (R178). -/
def State.bulkDataRx (s : State) (l : LinkId) (rx : Rx) : State :=
  match s.receive l rx 0x21 with
  | (s, none) => s
  | (s, some f) =>
    if !downLink l then s.malformed l
    else
      let c := f.nat 14 3
      let fr := f.byte 17 % 32
      match s.bulk? l.node (f.nat 12 2) with
      | none => s
      | some x =>
        if x.chunks ≤ c ∨ f.more ≠ decide (fr < 31) then s.malformed l
        else s.bulkData l.node (f.nat 12 2) x c fr ((padTo 48 f.body).drop 8)

/-- BULK_DATA_RX (R178). -/
def execBulkDataRx (l : LinkId) (rx : Rx) (s : State) : Outcome := .next (s.bulkDataRx l rx)

/-- BULK_CLOSE at a node (R178, R180). -/
def State.bulkCloseRx (s : State) (l : LinkId) (rx : Rx) : State :=
  match s.receive l rx 0x22 with
  | (s, none) => s
  | (s, some f) =>
    if !downLink l then s.malformed l
    else match s.bulk? l.node (f.nat 12 2) with
      | none => s
      | some x =>
        if f.nat 14 3 ≠ x.chunks then s.malformed l
        else
          let o := f.nat 12 2
          let s := s.setBulk l.node o { x with closed := true, lastAt := s.aon l.node, missing := some x.lacks }
          let s := if l.node = .gd then s.feedTo (s.feed x) [closeFrame o x] else s
          s.bulkTry l.node o

/-- BULK_CLOSE_RX (R180). -/
def execBulkCloseRx (l : LinkId) (rx : Rx) (s : State) : Outcome := .next (s.bulkCloseRx l rx)

/-- A frame of a chunk of an object (R178). -/
def isChunk (object chunk : Nat) (f : Frame) : Bool := f.type = 0x21 && f.nat 12 2 = object && f.nat 14 3 = chunk

/-- A chunk that has not left on a port within 100 ms of its arrival is dropped for that port (R179). -/
def State.bulkChunkDrop (s : State) (object chunk port : Nat) : State :=
  let late := ((s.bulk? .gd object).bind fun x => Tab.get x.arrived chunk).any fun t => decide (t + 100000000 ≤ s.aon .gd)
  let here : ReadyMark → Bool := fun m => m.port = port && m.frames.any (isChunk object chunk)
  if late ∧ (((s.link ⟨.gd, port⟩).q3.any (isChunk object chunk)) ∨ s.gd.com.marks.any here) then
    let s := s.updLink ⟨.gd, port⟩ fun k => { k with q3 := k.q3.filter fun f => !isChunk object chunk f }
    (s.updCom .gd fun c => { c with marks := c.marks.filter fun m => !here m }).logG .bulkDrop port
  else s

/-- BULK_CHUNK_DROP (R179). -/
def execBulkChunkDrop (object chunk port : Nat) (s : State) : Outcome := .next (s.bulkChunkDrop object chunk port)

/-- BULK_RX_TIMEOUT: the bitmap is fixed 1 s after the last frame (R180). -/
def execBulkRxTimeout (n : Node) (object : Nat) (s : State) : Outcome :=
  .next (match s.bulk? n object with
    | none => s
    | some x =>
      if x.missing.isSome ∨ s.aon n < x.lastAt + 1000000000 then s
      else (s.setBulk n object { x with missing := some x.lacks }).bulkTry n object)

/-- BULK_OBJECT_EXPIRY: an incomplete object is discarded 10 s after its last frame (R430). -/
def execBulkObjectExpiry (n : Node) (object : Nat) (s : State) : Outcome :=
  .next (match s.bulk? n object with
    | none => s
    | some x =>
      if x.lacks = [] ∨ s.aon n < x.lastAt + 10000000000 then s
      else (s.delBulk n object).log n .bulkIncomplete 0 x.lacks.length)

/-- CHUNK_CACHE_EXPIRY: a distributor keeps a forwarded object's chunks for 60 s (R430). -/
def execChunkCacheExpiry (object : Nat) (s : State) : Outcome :=
  .next (match s.bulk? .gd object with
    | none => s
    | some x => if s.aon .gd < x.lastAt + 60000000000 then s else s.delBulk .gd object)

/-! ## Roll call -/

/-- The entry number that stands for the originator itself as the port an answer goes to. -/
def rollHere : Nat := 999

/-- ROLL_WAIT × k in ns (R283). -/
def State.rollWait (s : State) : Nat := orOne (bitsOf (s.reg .gd 0x418) 7 0) * 1000000 * (s.gd.role.getD 0 + 1)

/-- A distributor counts itself for objects of the kinds it receives: tree images, firmware whose header passes, schedule
images of a domain it is top node of, and an object it has not seen (R282, R309, R440). -/
def State.ownRoll (s : State) (x : Option BulkRx) (scope : Nat) : Bool :=
  decide (scope ≠ 2) && match x with
  | none => true
  | some x => match x.kind with
    | 1 => ((s.dom? x.domain).map fun d => s.gd.isTop d.dr).getD false
    | 2 => true
    | 5 => match s.gd.fwHeader (((List.range 2).flatMap fun k => padTo 40 (Tab.getD x.frags k []))) (some x.length) with
      | .ok _ => true
      | .error _ => false
    | _ => false

/-- Resend chunks on a port from what is held: opened anew for a child that has seen nothing of the object, then closed
(R430). -/
def State.resendOn (s : State) (o : Nat) (x : BulkRx) (p : Nat) (anew : Bool) (chunks : List Nat) : State :=
  let y := if s.gd.role = some 0 then { x with scope := 2, dest := (s.gd.childSpan p).1 } else { x with scope := 0 }
  if chunks = [] then s
  else s.sendAll ⟨.gd, p⟩ 3 ((if anew then [openFrame o y] else []) ++ chunks.flatMap (y.chunk o) ++ [closeFrame o y])

/-- Bytes OR'ed. -/
def orBytes (a b : List Byte) : List Byte := (List.range 512).map fun i => byteAt a i ||| byteAt b i

/-- The originator's object, or the one held. -/
def State.objectOf (s : State) (o : Nat) (own : Bool) : Option BulkRx :=
  if own then (s.gd.origins.find? fun x => x.object = o).map Origin.object' else s.bulk? .gd o

/-- The originator has every window's answer of a round: repair ends, chunks are rebroadcast, or the next round repairs by
unicast; after round 8 it ends incomplete (R430). -/
def State.roundDone (s : State) (x : Origin) : State :=
  let del : State → State := fun s => s.updGd fun g => { g with origins := g.origins.filter fun y => y.object ≠ x.object }
  if x.missing = [] ∧ !x.incomplete then del s
  else if 8 ≤ x.round then (del s).logG .bulkIncomplete 0 x.missing.length
  else
    let aon := s.aon .gd
    let b := x.object'
    let ports := match x.port with
      | some p => [p]
      | none => s.feed b
    let s := if x.round ≤ 4 then s.feedTo ports (x.missing.flatMap (b.chunk x.object) ++ [closeFrame x.object b]) else s
    s.updGd fun g => { g with origins := g.origins.map fun y => if y.object = x.object then { y with since := aon } else y }

/-- A window's answer at its originator (R430). -/
def State.originAnswer (s : State) (e : RollEntry) : State :=
  let s := s.updGd fun g => { g with origins := g.origins.map fun y =>
    if y.object = e.object ∧ y.round = e.round ∧ 0 < y.left then
      { y with left := y.left - 1, missing := y.missing ++ bitmapChunks e.window e.bitmap, incomplete := y.incomplete || e.incomplete }
    else y }
  match s.gd.origins.find? fun y => y.object = e.object && y.round = e.round && y.left = 0 with
  | some x => s.roundDone x
  | none => s

/-- An entry's answer leaves; ports that have not answered are counted (R283). -/
def State.rollAnswer (s : State) (e : RollEntry) : State :=
  let late := (e.asked.filter fun p => !e.answered.contains p).length
  let e' := { e with missing := e.missing + late, incomplete := e.incomplete || decide (0 < late) }
  let s := s.updGd fun g => { g with rolls := g.rolls.erase e }
  if e.up = rollHere then s.originAnswer e'
  else s.send ⟨.gd, e.up⟩ 2 0
    (ansMessage (s.now .gd).ns32 e.domain e.object e.round e.window e'.responders e'.missing e'.incomplete e.bitmap)

/-- Hold a round in an entry, evicting the oldest of 16, forward the ASK, and answer at once where no port is asked
(R283). -/
def State.rollOpen (s : State) (e : RollEntry) (ask : Frame) : State :=
  let same : RollEntry → Bool := fun x => x.origin = e.origin && x.object = e.object && x.window = e.window
  let s := s.updGd fun g => { g with rolls := g.rolls.filter fun x => !same x }
  let s := match s.gd.rolls with
    | x :: _ => if 16 ≤ s.gd.rolls.length then
        (s.rollAnswer { x with incomplete := true }).updGd (fun g => { g with rolls := g.rolls.erase x }) |>.logG .rollEvict
      else s
    | [] => s
  let s := s.updGd fun g => { g with rolls := g.rolls ++ [e] }
  let s := e.asked.foldl (fun (s : State) p => s.send ⟨.gd, p⟩ 2 0 [ask]) s
  if e.asked = [] then s.rollAnswer e else s

/-- ROLLCALL_ASK at a distributor (R29, R282, R283, R430). -/
def State.gdRollAsk (s : State) (l : LinkId) (f : Frame) : State :=
  let o := f.nat 12 2
  let round := f.byte 14
  let scope := f.byte 15
  let dest := f.nat 16 3 % 262144
  let window := f.nat 19 3
  let chunks := f.nat 22 3
  let x := s.bulk? .gd o
  let own := !s.gd.hasRole || s.ownRoll x scope
  let map := if own then holderBitmap x chunks window else List.replicate 512 0
  let ports := s.feedPorts ((x.map (·.kind)).getD 0) scope dest f.domain
  let e : RollEntry := { origin := f.nat 25 3 % 1048576, object := o, window, round, up := l.port, asked := ports,
                         answered := [], responders := b2n own, missing := 0, bitmap := map, incomplete := false,
                         since := s.aon .gd, domain := f.domain }
  if !s.gd.hasRole then s.send l 2 0 (ansMessage (s.now .gd).ns32 f.domain o round window 1 0 false map)
  else s.rollOpen e { f with time := (s.now .gd).ns32 }

/-- ROLLCALL_ASK at a node in scope (R281, R282). -/
def State.rollAskRx (s : State) (l : LinkId) (rx : Rx) : State :=
  match s.receive l rx 0x12 with
  | (s, none) => s
  | (s, some f) =>
    if !downLink l ∨ f.more then s.malformed l
    else match l.node with
      | .gd => s.gdRollAsk l f
      | .tsu =>
        if f.byte 15 = 2 ∧ s.tsu.dieId ≠ some (f.nat 16 3 % 262144) then s
        else s.send l 2 0 (ansMessage (s.now .tsu).ns32 f.domain (f.nat 12 2) (f.byte 14) (f.nat 19 3) 1 0 false
          (holderBitmap (s.bulk? .tsu (f.nat 12 2)) (f.nat 22 3) (f.nat 19 3)))

/-- ROLLCALL_ASK_RX (R282). -/
def execRollcallAskRx (l : LinkId) (rx : Rx) (s : State) : Outcome := .next (s.rollAskRx l rx)

/-- A port's answer is combined into its entry; from round 5 on, chunks held here are resent on that port and not carried
upward (R283, R430). -/
def State.rollCombine (s : State) (e : RollEntry) (p : Nat) (f : Frame) (map : List Byte) : State :=
  let own := decide (e.up = rollHere)
  let x := s.objectOf e.object own
  let set := bitmapChunks e.window map
  let here := if e.round < 5 then [] else set.filter fun c => (x.map (·.whole c)).getD false
  let n := (x.map (·.chunks)).getD 0
  let anew : Bool := e.window = 0 && decide (min n 4096 ≤ set.length)
  let s := match x with
    | some x => s.resendOn e.object x p anew here
    | none => s
  let left := if here = [] then map else chunkBitmap (e.window + 4096) e.window fun c => set.contains c && !here.contains c
  let e' := { e with answered := e.answered ++ [p], responders := e.responders + f.nat 19 3 % 1048576,
                     missing := e.missing + f.byte 22, incomplete := e.incomplete || f.f48, bitmap := orBytes e.bitmap left }
  let s := s.updGd fun g => { g with rolls := g.rolls.map fun y => if y = e then e' else y }
  if e'.asked.all e'.answered.contains then s.rollAnswer e' else s

/-- ROLLCALL_ANS at a distributor (R283). -/
def State.rollAnsRx (s : State) (l : LinkId) (rx : Rx) : State :=
  if l.node = .tsu then s
  else match s.receive l rx 0x13 with
    | (s, none) => s
    | (s, some f) =>
      if 64 ≤ l.port then s.malformed l
      else match s.chain l f fun f => if f.f49 then 1 else 11 with
        | (s, .gone) => s
        | (s, .part _) => s
        | (s, .whole fs) =>
          let h := fs.headD f
          let map := if h.f49 then List.replicate 512 0
            else (padTo 48 h.body).drop 16 ++ (fs.drop 1).flatMap fun g => padTo 48 g.body
          match s.gd.rolls.find? fun e => e.object = h.nat 12 2 && e.window = h.nat 16 3 && e.round = h.byte 14
              && e.asked.contains l.port && !e.answered.contains l.port with
          | some e => s.rollCombine e l.port h map
          | none => s

/-- ROLLCALL_ANS_RX (R283). -/
def execRollcallAnsRx (l : LinkId) (rx : Rx) (s : State) : Outcome := .next (s.rollAnsRx l rx)

/-- ROLL_WAIT_EXPIRY: `key` numbers the entries from the oldest (R283). -/
def execRollWaitExpiry (key : Nat) (s : State) : Outcome :=
  .next (match s.gd.rolls[key]? with
    | some e => if e.since + s.rollWait ≤ s.aon .gd then s.rollAnswer e else s
    | none => s)

/-- A repair round of an originated object begins 2 ms after its last BULK_CLOSE (R430). -/
def State.rollRound (s : State) (object : Nat) : State :=
  match s.gd.origins.find? fun x => x.object = object with
  | none => s
  | some x =>
    if 0 < x.left ∨ s.aon .gd < x.since + 2000000 then s
    else
      let b := x.object'
      let round := x.round + 1
      let n := (b.chunks + 4095) / 4096
      let ports := match x.port with
        | some p => [p]
        | none => s.feed b
      let s := s.updGd fun g => { g with origins := g.origins.map fun y =>
        if y.object = object then { y with round, left := n, missing := [], incomplete := false } else y }
      let loc := s.gd.locator.getD 0
      (List.range n).foldl (fun (s : State) k =>
        let e : RollEntry := { origin := loc, object, window := 4096 * k, round, up := rollHere, asked := ports,
                               answered := [], responders := 0, missing := 0, bitmap := List.replicate 512 0,
                               incomplete := false, since := s.aon .gd, domain := x.domain }
        s.rollOpen e (askRoll (s.now .gd).ns32 x.domain object round x.scope x.dest (4096 * k) b.chunks loc)) s

/-- ROLL_CALL_ROUND (R430). -/
def execRollCallRound (object : Nat) (s : State) : Outcome := .next (s.rollRound object)

end Sys2Proof.Machine
end

