-- ==== Sys2Proof/Machine/Health.lean ====
section
/-! DEFINITION. The commands of absence, health scores and expulsion (R156, R395, R400 to R402, R484). -/

namespace Sys2Proof.Machine

open Sys2Proof

/-- Receive a one-frame message of a type whose payload begins with OP; another OP is malformed (R383). -/
def State.recvOp (s : State) (l : LinkId) (rx : Rx) (type op : Nat) : State × Option Frame :=
  match s.receive l rx type with
  | (s, none) => (s, none)
  | (s, some f) => if f.byte 12 ≠ op ∨ f.more then (s.malformed l, none) else (s, some f)

/-- The die that a frame of EXPEL or JOIN names (R383). -/
def dieField (f : Frame) : Nat := f.nat 14 3 % 262144

/-- How a frame that travels down reaches a distributor with a role: from its parent, as a DETOUR that its partner hands
over, or as a mirror copy (R385, R387, R388). -/
inductive DownPart where
  | parent | detour | copy | wrong
  deriving DecidableEq, Repr

/-- The part of a frame that travels down. -/
def State.downPart (s : State) (l : LinkId) (f : Frame) : DownPart :=
  if l.port = 64 ∨ l.port = 65 then .parent
  else if l.port = s.gd.partnerPort ∧ 64 ≤ l.port then (if f.detour then .detour else .copy)
  else .wrong

/-! ## Absence -/

/-- DIE_ABSENT: a sled's port to a die out of UP for 240 ms since enable, or 120 ms since it left UP, the partner agreeing
or out of reach (R156, R395). -/
def State.dieAbsent (s : State) (p : Nat) (partnerAgrees : Bool) : State :=
  let k := s.link ⟨.gd, p⟩
  let limit := if k.everUp then 120000000 else 240000000
  if s.gd.hasRole ∧ s.gd.role = some 0 ∧ p < 8 ∧ s.linkTimed ⟨.gd, p⟩ ∧ k.state ≠ .up ∧ k.downAt + limit ≤ s.aon .gd
      ∧ (partnerAgrees ∨ !s.trained ⟨.gd, s.gd.partnerPort⟩) then s.markAbsent p
  else s

/-- DIE_ABSENT (R156). -/
def execDieAbsent (port : Nat) (partnerAgrees : Bool) (s : State) : Outcome := .next (s.dieAbsent port partnerAgrees)

/-- CHILD_POSITION_ABSENT: neither side of a child position UP for 240 ms (R395). -/
def State.childAbsent (s : State) (i : Nat) : State :=
  let late : Nat → Bool := fun p =>
    let k := s.link ⟨.gd, p⟩
    k.state ≠ .up && decide (k.downAt + 240000000 ≤ s.aon .gd)
  let cross := ((s.gd.crossPort i).map fun x => !(s.link ⟨.gd, x⟩).declared || late x).getD true
  if s.gd.hasRole ∧ s.gd.role ≠ some 0 ∧ i < s.gd.fan ∧ late i ∧ cross then s.markAbsent i else s

/-- CHILD_POSITION_ABSENT (R395). -/
def execChildPositionAbsent (child : Nat) (s : State) : Outcome := .next (s.childAbsent child)

/-! ## Scores -/

/-- HEALTH at a sled: from a die it is scored and copied to the partner; from the partner it is scored for the die it
names (R386, R387, R400). -/
def State.healthRx (s : State) (l : LinkId) (rx : Rx) : State :=
  if l.node = .tsu then s
  else match s.receive l rx 0x14 with
    | (s, none) => s
    | (s, some f) =>
      if !s.gd.hasRole ∨ s.gd.role ≠ some 0 then s
      else if 7 < f.byte 12 ∨ f.more then s.malformed l
      else if l.port < 8 then (s.mirror 2 [f]).healthEvent l.port (f.byte 12) (f.byte 13) f
      else if l.port = s.gd.partnerPort then
        match s.gd.childOfDie (f.nat 16 3 % 262144) with
        | some i => s.healthEvent i (f.byte 12) (f.byte 13) f
        | none => s.logG .detourUnattributed l.port
      else s.malformed l

/-- HEALTH_RX (R400). -/
def execHealthRx (l : LinkId) (rx : Rx) (s : State) : Outcome := .next (State.cutThrough (s.healthRx l rx) s l rx)

/-- HEALTH_DECAY: each score falls by DECAY, and dies below θ / 2 are readmitted (R400, R402). -/
def execHealthDecay (s : State) : Outcome :=
  .next (
    let decay := beNat s.gd.healthRec 6 2
    (s.updGd fun g => { g with health := Tab.map g.health fun _ h => { h with score := h.score - decay } }).readmitDue)

/-- HEALTH_CLEAR: CLEAR of GD_HEALTH_SCORE at a sled sets the selected die's score to 0 and readmits an expelled one; events of its tick
come after it (R402, R484, R489). The partner is told by a copy of READMIT, be the die expelled or not (log entry 91). -/
def execHealthClear (s : State) : Outcome :=
  .next (
    let i := bitsOf (s.reg .gd 0x700) 2 0
    if !s.gd.hasRole ∨ s.gd.role ≠ some 0 then s
    else
      let aon := s.aon .gd
      let left := if (s.healthOf i).addAt = aon then min 65535 (s.healthOf i).added else 0
      let s := s.updHealth i fun h => { h with score := left, suspect := false }
      let s := if (s.healthOf i).expelled then s.readmit i else s.mirror 2 [expelFrame 6 (s.gd.dieAt i) 0 (s.now .gd).ns32 0]
      if 0 < left then s.expelAsk i false else s)

/-! ## The pod's judgement -/

/-- A new threshold goes to every sled of the pod (R401). -/
def State.limitOut (s : State) : State :=
  let f := expelFrame 4 0 s.gd.theta (s.now .gd).ns32 0
  (List.range s.gd.fan).foldl (fun (s : State) i => if s.gd.absent.contains i then s else s.toChild i f) s

/-- Grants that fall within the last EXPEL_WINDOW (R401). -/
def State.recentGrants (s : State) : List Nat :=
  s.gd.grantsAt.filter fun t => decide (s.aon .gd < t + beNat s.gd.healthRec 3 1 * 60000000000)

/-- A pod grants a request, or denies it and raises θ (R401, R407). -/
def State.expelJudge (s : State) (i : Nat) (f : Frame) : State :=
  let die := (dieField f)
  let ns := (s.now .gd).ns32
  let recent := s.recentGrants
  if recent.length < beNat s.gd.healthRec 2 1 then
    let aon := s.aon .gd
    let s := s.updGd fun g => ({ g with grantsAt := recent ++ [aon] }).journalWrite 5 0 die (journalBody f)
    s.toChild i (expelFrame 2 die s.gd.theta ns 0)
  else
    let s := s.toChild i (expelFrame 3 die s.gd.theta ns 0)
    let s := s.updGd fun g => ({ g with denied := true, theta := min 65535 (g.theta + beNat g.healthRec 4 2) }).journalWrite 5
      ErrCode.expelLimit.value die (journalBody f)
    s.limitOut.logG .expelLimit i

/-- EXPEL REQ: a rack passes it on, the pod's acting side judges it (R385, R386, R401). -/
def State.expelReqRx (s : State) (l : LinkId) (rx : Rx) : State :=
  if l.node = .tsu then s
  else match s.recvOp l rx 0x15 1 with
    | (s, none) => s
    | (s, some f) =>
      if !s.gd.hasRole then s
      else if s.gd.role = some 0 ∧ l.port < 64 then s.malformed l
      else match s.upPart l s.gd.expelRec 2 [f] (some (dieField f)) with
        | (s, some (i, false)) =>
          if s.gd.role = some 2 then s.expelJudge i f else s.gdUp s.gd.expelRec 2 0 [f] false 99
        | (s, _) => s

/-- EXPEL_REQ_RX (R401). -/
def execExpelReqRx (l : LinkId) (rx : Rx) (s : State) : Outcome := .next (State.cutThrough (s.expelReqRx l rx) s l rx)

/-- EXPEL_WINDOW_END: a pod lowers θ after a window without a denial; a sled repeats the requests of SUSPECT dies (R401). -/
def State.expelWindowEnd (s : State) : State :=
  if !s.gd.hasRole then s
  else if s.gd.role = some 2 then
    let floor := beNat s.gd.healthRec 0 2
    let theta := if s.gd.denied then s.gd.theta else max floor (s.gd.theta - beNat s.gd.healthRec 4 2)
    let old := s.gd.theta
    let s := s.updGd fun g => { g with theta, denied := false }
    if theta = old then s else s.limitOut
  else (List.range 8).foldl (fun (s : State) i => if (s.healthOf i).suspect then s.expelAsk i true else s) s

/-- EXPEL_WINDOW_END (R401). -/
def execExpelWindowEnd (s : State) : Outcome := .next s.expelWindowEnd

/-! ## The sled's part -/

/-- A granted expulsion at a sled: from AT the die's port leaves the expected set of its ALLOW_ABSENT domains; a join that
has not reached its boundary is refused (R402, R409). -/
def State.expelApply (s : State) (i : Nat) (at_ : Int) (own : Bool) : State :=
  let now := (s.now .gd).ns32
  let die := s.gd.dieAt i
  let s := s.updHealth i fun h => { h with expelled := true, asked := false, suspect := false, expelDue := some at_ }
  let mine := (s.gd.doms.filter fun p => (s.gd.members p.2.dr).contains i).map (·.2)
  mine.foldl (fun (s : State) d =>
    if d.dr.allowAbsent then
      let due : Bool := ((Tab.get d.joining i).map fun w => !reachedBy (s.now .gd).toNs w).getD false
      let s := s.updDom d.dr.tag fun x =>
        { x with leaving := Tab.put x.leaving i at_, joining := if due then Tab.del x.joining i else x.joining,
                 expelled := if x.expelled.contains i then x.expelled else x.expelled ++ [i] }
      if due ∧ own then s.gdDown d.dr 2 [i] (fun _ => [joinFrame 4 1 die d.dr.tag now 0]) [joinFrame 4 1 die d.dr.tag now 0] else s
    else if own then s.logG .expelled i 1
    else s) s

/-- GRANT at a sled: NOTICE with AT 100 µs ahead, mirrored, and ONE_EXPELLED (R402). -/
def State.expelGranted (s : State) (i : Nat) (f : Frame) : State :=
  let at_ : Int := (s.now .gd).toNs + 100000
  let notice := expelFrame 5 (s.gd.dieAt i) 0 (s.now .gd).ns32 (BitVec.ofInt 32 at_)
  let s := (s.mirror 2 [notice]).toChild i notice
  let s := s.updGd fun g => g.journalWrite 5 ErrCode.expelled.value (g.dieAt i) (journalBody f)
  (s.logG .expelled i).expelApply i at_ true

/-- A frame for one die travels down: a rack passes it on; a sled takes it, unless the partner hands it over for delivery
(R388, R401). -/
def State.expelDown (s : State) (l : LinkId) (f : Frame) (take : State → Nat → State) : State :=
  if !s.gd.hasRole then s
  else match s.downPart l f, s.gd.childOfDie (dieField f) with
    | .wrong, _ => s.malformed l
    | .copy, _ => s
    | _, none => s
    | _, some i => if s.gd.role = some 0 then take s i else s.toChild i { f with detour := false }

/-- EXPEL GRANT at a distributor (R402). -/
def execExpelGrantRx (l : LinkId) (rx : Rx) (s : State) : Outcome :=
  .next (State.cutThrough (if l.node = .tsu then s else match s.recvOp l rx 0x15 2 with
    | (s, none) => s
    | (s, some f) => s.expelDown l f fun s i => s.expelGranted i f) s l rx)

/-- EXPEL DENY at a distributor: the sled marks the die SUSPECT (R401). -/
def execExpelDenyRx (l : LinkId) (rx : Rx) (s : State) : Outcome :=
  .next (State.cutThrough (if l.node = .tsu then s else match s.recvOp l rx 0x15 3 with
    | (s, none) => s
    | (s, some f) => s.expelDown l f fun s i =>
      (s.updHealth i fun h => { h with suspect := true, asked := false }).logG .suspect i) s l rx)

/-- EXPEL LIMIT at a distributor: the new threshold is passed down, and at a sled kept and applied (R401, R409). -/
def State.expelLimitRx (s : State) (l : LinkId) (f : Frame) : State :=
  if !s.gd.hasRole then s
  else match s.downPart l f with
    | .wrong => s.malformed l
    | .copy => s
    | _ =>
      let s := s.updGd fun g => { g with theta := f.nat 17 2 }
      if s.gd.role = some 0 then
        ((List.range 8).foldl (fun (s : State) i => s.expelAsk i false) s).readmitDue
      else s.limitOut

/-- EXPEL_LIMIT_RX (R401). -/
def execExpelLimitRx (l : LinkId) (rx : Rx) (s : State) : Outcome :=
  .next (State.cutThrough (if l.node = .tsu then s else match s.recvOp l rx 0x15 4 with
    | (s, none) => s
    | (s, some f) => s.expelLimitRx l f) s l rx)

/-! ## NOTICE and READMIT -/

/-- The ALLOW_ABSENT domains among the bindings of a slice. -/
def State.looseTags (s : State) : List (BitVec 24) :=
  (((s.tsu.tree.map (·.domains)).getD []).filter fun d => d.allowAbsent).map (·.tag)

/-- NOTICE at a TSU: the die's shares in ALLOW_ABSENT domains become EXPELLED from the turn at AT (R402). -/
def State.noticeTsu (s : State) (at_ : Int) : State :=
  let loose := s.looseTags
  s.updTsu fun t => { t with slices := Tab.map t.slices fun _ v =>
    { v with bindings := v.bindings.map fun b => if loose.contains b.tag then { b with expelAt := some at_ } else b } }

/-- READMIT at a TSU: EXPELLED shares enter SHADOW, and the domains are joined (R398, R402). -/
def State.readmitTsu (s : State) : State :=
  let tags := s.tsu.slices.flatMap fun p => (p.2.bindings.filter fun b => b.mstate = .expelled).map (·.tag)
  let s := s.updTsu fun t => { t with
    slices := Tab.map t.slices fun _ v => { v with bindings := v.bindings.map fun b =>
      { b with expelAt := none, mstate := if b.mstate = .expelled then .shadow else b.mstate } },
    tumb := Tab.map t.tumb fun _ x => { x with mstate := if x.mstate = .expelled then .shadow else x.mstate } }
  tags.foldl (fun (s : State) t => s.joinSoon t) s

/-- EXPEL_NOTICE_RX: at a TSU for its own die; at a sled a copy is applied and a handed-over frame delivered (R387, R388,
R402). -/
def execExpelNoticeRx (l : LinkId) (rx : Rx) (s : State) : Outcome :=
  .next (State.cutThrough (match s.recvOp l rx 0x15 5 with
    | (s, none) => s
    | (s, some f) =>
      let at_ := extendNs (s.now l.node) (BitVec.ofNat 32 (f.nat 20 4))
      match l.node with
      | .tsu => if s.tsu.dieId = some (dieField f) then s.noticeTsu at_ else s
      | .gd =>
        if !s.gd.hasRole ∨ s.gd.role ≠ some 0 then s
        else match s.downPart l f, s.gd.childOfDie (dieField f) with
          | .copy, some i => s.expelApply i at_ false
          | .detour, some i => s.toChild i { f with detour := false }
          | .copy, none => s
          | .detour, none => s
          | _, _ => s.malformed l) s l rx)

/-- EXPEL_READMIT_RX: at a TSU for its own die; at a sled as for NOTICE (R387, R388, R402). -/
def execExpelReadmitRx (l : LinkId) (rx : Rx) (s : State) : Outcome :=
  .next (State.cutThrough (match s.recvOp l rx 0x15 6 with
    | (s, none) => s
    | (s, some f) => match l.node with
      | .tsu => if s.tsu.dieId = some (dieField f) then s.readmitTsu else s
      | .gd =>
        if !s.gd.hasRole ∨ s.gd.role ≠ some 0 then s
        else match s.downPart l f, s.gd.childOfDie (dieField f) with
          | .copy, some i => s.readmitted i
          | .detour, some i => s.toChild i { f with detour := false }
          | .copy, none => s
          | .detour, none => s
          | _, _ => s.malformed l) s l rx)

end Sys2Proof.Machine
end

