-- ==== Sys2Proof/Machine/Census.lean ====
section
/-! DEFINITION. The commands of a census, at the TSUs and distributors that answer and at the one that rebuilds (R389 to
R394). -/

namespace Sys2Proof.Machine

open Sys2Proof

/-! ## Answers of a TSU -/

/-- Count an answered ASK (R410). -/
def State.askCounted (s : State) : State :=
  s.updTsu fun t => { t with censusAnswered := min (t.censusAnswered + 1) 0xFFFF }

/-- The shares of a domain at the TSU (R390). -/
def State.sharesOf (s : State) (tag : BitVec 24) : List (Nat × Tumbler) :=
  s.tsu.tumb.filter fun p => p.2.domain = tag && p.2.estate ≠ .closing

/-- The domains that an ASK names: one, or all that the extract lists (R383, R390). -/
def State.askedTags (s : State) (tag : BitVec 24) : List (BitVec 24) :=
  if tag ≠ 0 then [tag]
  else (((s.tsu.tree.map (·.domains)).getD []).filter fun d => !d.topIsDie).map (·.tag)

/-- A share's census record (R383). -/
def Tumbler.censusWord (t : Tumbler) : Nat :=
  Machine.censusWord t.index t.gen t.shareDone t.result.isSome (decide (t.mstate = .shadow ∨ t.mstate = .joining))
    (decide (t.mstate = .expelled))

/-- The LIST answer of a TSU (R390). -/
def State.tsuListGroups (s : State) (tag : BitVec 24) : List (BitVec 24 × BitVec 16 × List Nat) :=
  (s.askedTags tag).map fun t =>
    (t, BitVec.ofNat 16 (((s.sliceOf t).map fun n => s.stepOf n t).getD 0), (s.sharesOf t).map fun p => p.2.censusWord)

/-- A TSU's kept turn as a FETCH reply: the original C and generation, every per-port part all-ones, SHORT set
(R392). -/
def Tumbler.keptTurn (t : Tumbler) (r : Result) : Bool × List Frame :=
  let c : Word := BitVec.ofInt 32 (r.c / 65536)
  let ones (n : Nat) : List Byte := List.replicate n 255
  let desc := descBytes t.index r.op r.fmt r.lanes r.members r.latestDie r.latestNs
  let data := if r.op = 0x0B then ones r.data.length else r.data
  let alloc := if r.op = 0x0C then r.alloc.take 16 ++ ones (r.alloc.length - 16) else r.alloc
  match r.t with
  | some tt =>
    let body := desc ++ natBytes (tt.toNs16 % 65536).toNat 2 ++ natBytes (64 * b2n r.dropLate + 32 * b2n (decide (r.op = 0x0C))) 1
      ++ natBytes 0 1 ++ natBytes c.toNat 4 ++ (if r.far then tt.bytes else natBytes 0 10) ++ natBytes 0 2
    (true, downMessage { mkFrame 0x08 1 r.gen t.domain r.step16 tt.ns32 body with f49 := true, f48 := r.far } 12 data alloc)
  | none => (false, downMessage { mkFrame 0x11 2 r.gen t.domain r.step16 c desc with f49 := true } 32 data alloc)

/-! ## ASK frames -/

/-- An ASK of a phase as it reaches a node from above; an ASK elsewhere, or of another phase, is malformed (R383,
R390). -/
def State.askRx (s : State) (l : LinkId) (rx : Rx) (phase : Nat) : State × Option Frame :=
  match s.receive l rx 0x16 with
  | (s, none) => (s, none)
  | (s, some f) =>
    if (l.node = .gd ∧ l.port ≠ 64 ∧ l.port ≠ 65) ∨ f.byte 14 ≠ phase ∨ f.more then (s.malformed l, none)
    else if l.node = .gd ∧ !s.gd.hasRole then (s, none)
    else (s, some f)

/-- A distributor answers LIST or RESEND, once a census of its own has completed (R390). -/
def State.gdAsked (s : State) (l : LinkId) (f : Frame) : State :=
  if s.gd.census.isSome then s.updGd fun g => { g with askHeld := g.askHeld ++ [⟨f, l.port, askWaits⟩] }
  else s.gdAnswer f l.port

/-- CENSUS_LIST_RX (R390). -/
def execCensusListRx (l : LinkId) (rx : Rx) (s : State) : Outcome :=
  .next (State.cutThrough (match s.askRx l rx 0 with
    | (s, none) => s
    | (s, some f) => match l.node with
      | .tsu =>
        (ansFrames (f.nat 12 2) s.tsu.com.treeId (s.now .tsu).ns32 (s.tsuListGroups f.domain)).foldl
          (fun (s : State) x => s.send l 2 0 [x]) s.askCounted
      | .gd => s.gdAsked l f) s l rx)

/-- The kept turn of a generation at the TSU goes up on the lane that asked (R392). -/
def State.tsuFetched (s : State) (l : LinkId) (f : Frame) : State :=
  let index := f.nat 15 2 % 4096
  let gen : BitVec 2 := BitVec.ofNat 2 (f.byte 17)
  match (s.sliceOf f.domain).bind fun n => (s.findTumb n f.domain index).bind s.tumb? with
  | none => s
  | some t => match t.result with
    | none => s
    | some r =>
      if r.gen ≠ gen ∨ r.calendar then s
      else
        let m := t.keptTurn r
        s.askCounted.send l (if m.1 then 1 else 2) 0 m.2

/-- A distributor forwards a FETCH on its lowest member port that is UP and carries the reply up (R392). -/
def State.gdFetch (s : State) (l : LinkId) (f : Frame) : State :=
  match s.dom? f.domain with
  | none => s.logG .domainStale l.port
  | some d => match s.memberPorts.find? fun p => (s.gd.members d.dr).contains (s.gd.childOfPort p) with
    | none => s
    | some p => (s.updGd fun g => { g with askHeld := g.askHeld ++ [⟨f, l.port, p⟩] }).send ⟨.gd, p⟩ 2 0 [f]

/-- CENSUS_FETCH_RX (R392). -/
def execCensusFetchRx (l : LinkId) (rx : Rx) (s : State) : Outcome :=
  .next (State.cutThrough (match s.askRx l rx 1 with
    | (s, none) => s
    | (s, some f) => match l.node with
      | .tsu => s.tsuFetched l f
      | .gd => s.gdFetch l f) s l rx)

/-- CENSUS_RESEND_RX: each DONE share's ARRIVE again, then the closing CENSUS_ANS (R393). -/
def execCensusResendRx (l : LinkId) (rx : Rx) (s : State) : Outcome :=
  .next (State.cutThrough (match s.askRx l rx 2 with
    | (s, none) => s
    | (s, some f) => match l.node with
      | .tsu =>
        let done := (s.askedTags f.domain).flatMap fun t => (s.sharesOf t).filter fun p => p.2.shareDone
        let s := done.foldl (fun (s : State) p => s.send l 2 p.1 (s.arriveMsg p.2)) s.askCounted
        s.send l 2 0 [ansFrame (f.nat 12 2) s.tsu.com.treeId (s.now .tsu).ns32 f.domain 0 [] true]
      | .gd => s.gdAsked l f) s l rx)

/-! ## The rebuilder -/

/-- A port leaves the census: it is treated as not UP for the rest of it (R390, R393). -/
def State.censusDrop (s : State) (p : Nat) : State :=
  (s.updCensus fun c => { c with ports := c.ports.filter (· ≠ p) }).censusAdvance

/-- The records of a CENSUS_ANS frame (R383). -/
def ansRecords (f : Frame) : List Nat := (List.range (min 10 (f.byte 14))).map fun k => f.nat (20 + 4 * k) 4

/-- A die that the records show EXPELLED: its score restarts at θ where this sled has lost its scores (R400). -/
def State.expelledSeen (s : State) (tag : BitVec 24) (i : Nat) : State :=
  let add : List Nat → List Nat := fun l => if l.contains i then l else l ++ [i]
  let s := s.updDom tag fun d => { d with expelled := add d.expelled, out := add d.out }
  if s.gd.role = some 0 ∧ !(s.healthOf i).expelled then
    let theta := s.gd.theta
    s.updHealth i fun h => { h with expelled := true, score := theta }
  else s

/-- One record of a child's LIST answer is kept (R391). -/
def State.censusTake (s : State) (tag : BitVec 24) (i : Nat) (w : Nat) : State :=
  let r : CensusRec := { child := i, gen := BitVec.ofNat 2 (bitsOf w 19 18), done := bitOf w 17, shadow := bitOf w 15,
                         expelled := bitOf w 14 }
  let s := s.updCensus fun c =>
    { c with recs := Tab.put c.recs (softKey tag (bitsOf w 31 20)) (Tab.getD c.recs (softKey tag (bitsOf w 31 20)) [] ++ [r]) }
  if r.expelled then s.expelledSeen tag i else s

/-- CENSUS_ANS on an asked port (R390, R391, R393). -/
def State.censusAns (s : State) (l : LinkId) (c : Census) (f : Frame) : State :=
  let i := s.gd.childOfPort l.port
  if !c.ports.contains l.port ∨ c.id ≠ f.nat 12 2 then s
  else if BitVec.ofNat 32 (f.nat 16 4) ≠ s.gd.com.treeId then
    let s := s.updLink l fun k => { k with excluded := true }
    ((s.setEvt .gd 0x14 0x10).logG .topologyMismatch l.port).censusDrop l.port
  else
    let last := bitOf (f.byte 15) 0
    if c.resending then
      if last then (s.updCensus fun c => { c with resent := c.resent ++ [l.port] }).censusAdvance else s
    else
      let s := (ansRecords f).foldl (fun (s : State) w => s.censusTake f.domain i w) s
      if last then (s.updCensus fun c => { c with listed := c.listed ++ [l.port] }).censusAdvance else s

/-- CENSUS_ANS_RX (R391). -/
def execCensusAnsRx (l : LinkId) (rx : Rx) (s : State) : Outcome :=
  .next (State.cutThrough (if l.node = .tsu then s else match s.receive l rx 0x17 with
    | (s, none) => s
    | (s, some f) =>
      if 64 ≤ l.port ∨ f.more ∨ 10 < f.byte 14 then s.malformed l
      else match s.gd.census with
        | some c => s.censusAns l c f
        | none => s) s l rx)

/-- A fetch without a reply in 200 µs: the next candidate is asked; without one the children at g are sent JOIN ABSENT and
are treated as absent from the domain (R392, R395). -/
def State.fetchTimeout (s : State) (tag : BitVec 24) (index : Nat) : State :=
  let key : Fetch → Bool := fun x => x.tag = tag && x.index = index
  match s.gd.census.bind fun c => (c.fetches.find? key).map fun x => (c.id, x) with
  | none => s
  | some (id, x) =>
    let aon := s.aon .gd
    let now := (s.now .gd).ns32
    if aon < x.since + 200000 then s
    else match x.next with
      | p :: rest =>
        let ask : Fetch → Fetch := fun y => if key y then { y with port := p, next := rest, since := aon } else y
        (s.updCensus fun c => { c with fetches := c.fetches.map ask }).send ⟨.gd, p⟩ 2 0
          [askFrame id 1 index x.gen.toNat tag now]
      | [] =>
        let s := s.updCensus fun c => { c with fetches := c.fetches.filter fun y => !key y }
        let f := joinFrame 3 0 0 tag now 0
        let s := match s.dom? tag with
          | some d => s.gdDown d.dr 2 x.deliver (fun _ => [f]) [f]
          | none => s
        (x.deliver.foldl (fun (s : State) i => s.absentFrom tag i) s).censusAdvance

/-- FETCH_TIMEOUT (R392). -/
def execFetchTimeout (tag : BitVec 24) (index : Nat) (s : State) : Outcome := .next (s.fetchTimeout tag index)

/-- CENSUS_PORT_TIMEOUT: an asked port without LAST 500 µs after the ASK (R393). -/
def execCensusPortTimeout (port : Nat) (s : State) : Outcome :=
  .next (match s.gd.census with
    | none => s
    | some c =>
      let ended := if c.resending then c.resent else c.listed
      if !c.ports.contains port ∨ ended.contains port ∨ (c.built ∧ !c.resending) ∨ s.aon .gd < c.askAt + 500000 then s
      else s.censusDrop port)

/-- CENSUS_SLOW: a census that runs past 2 ms is recorded once, with its duration in µs (R394). -/
def execCensusSlow (s : State) : Outcome :=
  .next (match s.gd.census with
    | none => s
    | some c =>
      if c.slowNoted ∨ s.aon .gd ≤ c.start + 2000000 then s
      else ((s.updCensus fun c => { c with slowNoted := true }).updGd fun g => { g with boot := { g.boot with slow := true } }).logG .censusSlow 0 (roundAway (s.aon .gd - c.start : Nat) 1000).toNat)

end Sys2Proof.Machine
end

