-- ==== Sys2Proof/Machine/DistOrders.lean ====
section
/-! DEFINITION. Shared operations of domain aborts and orders at a distributor (R244, R245, R370, R399, R481). -/

namespace Sys2Proof.Machine

open Sys2Proof

/-- ABORT_WAIT of a role in ns (R245). -/
def Gd.abortWait (g : Gd) : Nat :=
  match g.role with
  | some 0 => 25000
  | some 1 => 28000
  | some 2 => 31000
  | _ => 34000

/-- This distributor takes the ABORT and ORDER requests of a domain: it is the top node, or a pod of a hall domain
without a way up (R245, R370, R399). The flag tells the second case. -/
def State.takesRequests (s : State) (d : GdDom) : Option Bool :=
  if s.gd.isTop d.dr then some false
  else if s.gd.role = some 2 ∧ d.dr.top = mkLoc 3 0 ∧
      !([64, 65, s.gd.partnerPort].any fun p => (p ≠ 65 || s.u1) && s.carries d.dr p) then some true
  else none

/-- The next identifier of a domain, with bit 15 set at a pod that stands in for the hall root (R399). -/
def nextId (id : Nat) (pod : Bool) : Nat := if pod then (id + 1) % 32768 + 32768 else (id + 1) % 65536

/-- The member children that take part in an abort (R245, R395). -/
def State.abortKids (s : State) (d : GdDom) : List Nat := (s.gd.members d.dr).filter fun i => !d.out.contains i

/-- Send a class-1 frame down a domain (R245, R370). -/
def State.broadcast (s : State) (d : GdDom) (f : Frame) (only : Bool) : State :=
  let kids := (s.gd.members d.dr).filter fun i => !s.gd.absent.contains i && (!only || s.carries d.dr i)
  let f := { f with detour := false }
  let s := if s.acts d.dr then s.mirror 1 [f] else s
  s.gdDown d.dr 1 kids (fun _ => [f]) [f]

/-- An abort is forwarded or broadcast from here: its ABORT_DONEs are counted (R245). -/
def State.abortStart (s : State) (d : GdDom) (id : Nat) (f : Frame) (only : Bool) : State :=
  let aon := s.aon .gd
  let s := s.updDom d.dr.tag fun x =>
    { x with abortOpen := true, abortId := id, abortAt := aon, abortDone := [], abDone := 0, abMiss := 0, abLastNs := 0,
             abLastDie := 0 }
  s.broadcast d f only

/-- An abort ends here: the dies of children that are not done are MISSING; the top node shows the completion, another
node sends ABORT_DONE up (R245, R481). -/
def State.abortEnd (s : State) (d : GdDom) : State :=
  let lost := (((s.gd.members d.dr).filter fun i => !d.abortDone.contains i).map fun i =>
    d.dr.count (s.gd.childSpan i).1 (s.gd.childSpan i).2).sum
  let miss := d.abMiss + lost
  let s := s.updDom d.dr.tag fun x => { x with abortOpen := false, abMiss := miss }
  if (s.takesRequests d).isSome then
    (s.updGd fun g => { g with abortLast := (d.abortId, d.abDone, miss, min 0xFFFFFFFF (g.com.time.aon - d.abortAt)) }).setEvt
      .gd 0x504 2
  else
    s.gdUp d.dr 1 0 [mkFrame 0x0A 1 0 d.dr.tag 0 (s.now .gd).ns32
      (natBytes d.abortId 2 ++ natBytes d.abDone 3 ++ natBytes miss 3 ++ natBytes d.abLastNs.toNat 4
        ++ natBytes d.abLastDie 3)] false 99

/-- Every member port is done, or ABORT_WAIT has passed (R245). -/
def State.abortProgress (s : State) (tag : BitVec 24) (expired : Bool) : State :=
  match s.dom? tag with
  | none => s
  | some d =>
    if !d.abortOpen then s
    else if (s.abortKids d).all d.abortDone.contains ∨ (expired ∧ d.abortAt + s.gd.abortWait ≤ s.aon .gd) then s.abortEnd d
    else s

/-- An abort request at the node that takes it: the next ABORT_ID and the broadcast; requests while one is open are
absorbed (R245, R399). -/
def State.abortRequest (s : State) (d : GdDom) (pod : Bool) (step : BitVec 16) (origin : List Byte) (reason : Nat) :
    State :=
  if d.abortOpen then s
  else
    let id := nextId d.abortId pod
    let f := mkFrame 0x09 1 0 d.dr.tag step (s.now .gd).ns32 (natBytes id 2 ++ origin ++ natBytes reason 1)
    s.abortStart d id f false

/-- An order request at the node that takes it: the next SEQ and the broadcast; none is absorbed (R370, R399). -/
def State.orderRequest (s : State) (d : GdDom) (pod : Bool) (f : Frame) : State :=
  let q := nextId d.orderSeq pod
  let s := s.updDom d.dr.tag fun x => { x with orderSeq := q }
  s.broadcast d { f with f49 := false, time := (s.now .gd).ns32, body := natBytes q 2 ++ (padTo 48 f.body).drop 2 } false

end Sys2Proof.Machine
end

