-- ==== Sys2Proof/Machine/Domains.lean ====
section
/-! DEFINITION. The commands of a domain's messages: arrivals and down messages at a distributor, downward latency, and
domain aborts and orders (R196 to R207, R217 to R226, R244, R245, R262 to R276, R370, R385 to R392). -/

namespace Sys2Proof.Machine

open Sys2Proof

/-- A distributor combines what a descriptor names: it is allowed, its SCAN unit has the format and the width, and a top node
of an ALLOC has the allocator (R3, R5, R251, R252, R273). -/
def State.gdSupports (s : State) (f : Frame) : Bool :=
  descAllowed f.fOp f.fFmt f.fLanes &&
    (!isScan f.fOp || ((s.gd.scanFull || ((fmtOf f.fFmt = 1 || fmtOf f.fFmt = 2) && f.fLanes ≤ 64)) &&
      (f.fOp = 0x0B || s.gd.hasAlloc || !((s.dom? f.domain).map fun d => s.gd.isTop d.dr).getD false)))

/-- The frames of an ARRIVE message, or 0 for one that is refused (R207, R252). -/
def State.arriveCount (s : State) (f : Frame) : Nat :=
  if s.gdSupports f then 1 + moreFrames 32 (dataLen f.fOp f.fFmt f.fLanes) else 0

/-- Receive a frame of a message of a domain at the distributor: frames in a state without a role are discarded, and a message
whose first frame has count 0 is refused with a code, a malformed one counted (R29, R162, R207, R252). -/
def State.gdFrame (s : State) (l : LinkId) (rx : Rx) (type : Nat) (count : Frame → Nat) (code : ErrCode) : State × ChainPart :=
  match s.receive l rx type with
  | (s, none) => (s, .gone)
  | (s, some f) =>
    if !s.gd.hasRole then (s, .gone)
    else
      let s := if (s.link l).chainOf f.cls.toNat ≠ [] ∨ count f ≠ 0 then s
        else if code = .frameMalformed then s.malformed l
        else s.logG code l.port
      s.chain l f count

/-- Receive a message of a domain at the distributor, whole, with its domain; one of a tag that is not held is stale (R196,
R207, R405). -/
def State.gdMessage (s : State) (l : LinkId) (rx : Rx) (type : Nat) (count : Frame → Nat) (code : ErrCode := .frameMalformed) :
    State × Option (GdDom × List Frame) :=
  match s.gdFrame l rx type count code with
  | (s, .whole fs) => match s.dom? ((fs.head?.map (·.domain)).getD 0) with
    | some d => (s, some (d, fs))
    | none => (s.logG .domainStale l.port, none)
  | (s, _) => (s, none)

/-- An ARRIVE from an asked port is discarded between the ASK and that port's LAST (R390), and every arrival of a domain
that a domain reset holds off (R423). -/
def State.heldOff (s : State) (l : LinkId) (tag : BitVec 24) : Bool :=
  s.gd.domRst.contains tag || ((s.gd.census.map fun c =>
    c.ports.contains l.port && !c.resending && (((s.dom? tag).map (·.inCensus)).getD false)).getD false)

/-- ARRIVE_RX at a distributor: frames of a message that will count here are combined as they come, and the last one counts it
(R204, R262). -/
def State.arriveRx (s : State) (l : LinkId) (rx : Rx) : State :=
  if l.node = .tsu then s
  else match s.gdFrame l rx 0x10 s.arriveCount .combineUnsupported with
    | (s, .gone) => s
    | (s, .part fs) =>
      let h := fs.headD Frame.idle
      match s.dom? h.domain with
      | none => s
      | some d =>
        if s.heldOff l d.dr.tag then s
        else match s.upPlace l d.dr h.detour (some h.fDie) with
          | .child i _ => s.gdUnderway d i fs
          | _ => s
    | (s, .whole fs) =>
      let h := fs.headD Frame.idle
      match s.dom? h.domain with
      | none => s.logG .domainStale l.port
      | some d =>
        if s.heldOff l d.dr.tag then s.updGd fun g => { g with absorbed := min (g.absorbed + b2n (g.domRst.contains d.dr.tag)) 0xFFFF }
        else match s.upPart l d.dr 2 fs (some h.fDie) with
          | (s, some (i, copy)) => s.gdArrive d l.port i copy fs
          | (s, none) => s

/-- ARRIVE_RX (R204). -/
def execArriveRx (l : LinkId) (rx : Rx) (s : State) : Outcome := .next (State.cutThrough (s.arriveRx l rx) s l rx)

/-! ## Down messages -/

/-- The frames of a TURN or launch message, 0 where it is refused (R207, R226, R252, R276). -/
def State.downFrames (s : State) (launch : Bool) (f : Frame) : Nat := if s.gdSupports f then (downCount launch f).getD 0 else 0

/-- The code with which a TURN or launch message of count 0 is refused (R252, R276). -/
def State.downCode (s : State) (rx : Rx) : ErrCode := if s.gdSupports rx.frame then .frameMalformed else .combineUnsupported

/-- A turn that travels up answers an open FETCH on its port, or an ASK FETCH forwarded there; any other is malformed
(R392); after the last fetch ASK RESEND goes out (R393). -/
def State.fetchReply (s : State) (l : LinkId) (d : GdDom) (fs : List Frame) : State :=
  match fs with
  | [] => s
  | f :: _ =>
    let key : Fetch → Bool := fun x => x.tag = d.dr.tag && x.index = f.fIndex && x.gen = f.gen && x.port = l.port
    match (s.gd.census.bind fun c => c.fetches.find? key), s.gd.askHeld.find? fun a =>
        a.port = l.port && a.frame.domain = d.dr.tag && a.frame.nat 15 2 % 4096 = f.fIndex
          && BitVec.ofNat 2 (a.frame.byte 17) = f.gen with
    | some x, _ =>
      let s := s.gdDown d.dr f.cls.toNat x.deliver (fun _ => fs) fs
      let s := s.updGd fun g => { g with census := g.census.map fun c => { c with fetches := c.fetches.filter fun y => !key y } }
      (s.logG .turnFetched l.port).censusAdvance
    | none, some a =>
      let s := s.updGd fun g => { g with askHeld := g.askHeld.filter (· ≠ a) }
      s.send ⟨.gd, a.from_⟩ f.cls.toNat 0 fs
    | none, none => s.malformed l

/-- A TURN or launch message at a distributor (R205, R385, R387, R388, R392). -/
def State.gdDownMsg (s : State) (l : LinkId) (rx : Rx) (launch : Bool) : State :=
  if l.node = .tsu then s
  else match s.gdMessage l rx (if launch then 0x08 else 0x11) (s.downFrames launch) (s.downCode rx) with
    | (s, some (d, fs)) =>
      if l.port < 64 then s.fetchReply l d fs
      else if l.port < 66 then s.gdDownRx d l.port launch false fs
      else if l.port = s.gd.partnerPort then s.gdDownRx d l.port launch (!((fs.head?.map (·.detour)).getD false)) fs
      else s.malformed l
    | (s, none) => s

/-- TURN_FORWARD (R205). -/
def execTurnForward (l : LinkId) (rx : Rx) (s : State) : Outcome := .next (State.cutThrough (s.gdDownMsg l rx false) s l rx)

/-- LAUNCH_FORWARD (R205, R220, R226). -/
def execLaunchForward (l : LinkId) (rx : Rx) (s : State) : Outcome := .next (State.cutThrough (s.gdDownMsg l rx true) s l rx)

/-! ## Downward latency -/

/-- A child's DLAT report is kept for a domain; a top node whose D is not VALID notes it (R218, R221, R222). -/
def State.dlatTake (s : State) (tag : BitVec 24) (i : Nat) (v : DlatIn) : State :=
  match s.dom? tag with
  | none => s
  | some d =>
    if !(s.gd.members d.dr).contains i then s
    else
      let aon := s.aon .gd
      let s := s.updDom tag fun x =>
        { x with dlat := Tab.put x.dlat i v, dlatOld := if x.dlatAt = aon then x.dlatOld else x.dlat, dlatAt := aon }
      match s.dom? tag with
      | some d => if s.gd.isTop d.dr ∧ s.acts d.dr ∧ !v.valid then s.noteDlat d else s
      | none => s

/-- LATENCY_RX at a distributor, from a child on its own port; a TSU's report is for every domain (R221). -/
def State.latencyRx (s : State) (l : LinkId) (rx : Rx) : State :=
  if l.node = .tsu then s
  else match s.receive l rx 0x0B with
    | (s, none) => s
    | (s, some f) =>
      if !s.gd.hasRole ∨ s.gd.fan ≤ l.port then s
      else
        let v : DlatIn := { dlat := f.nat 12 4, valid := bitOf (f.byte 16) 0, slow := bitOf (f.byte 16) 1,
                            worst := f.nat 17 3 % 262144 }
        if f.domain = 0 then s.gd.doms.foldl (fun s p => s.dlatTake p.2.dr.tag l.port v) s
        else s.dlatTake f.domain l.port v

/-- LATENCY_RX (R221). -/
def execLatencyRx (l : LinkId) (rx : Rx) (s : State) : Outcome := .next (State.cutThrough (s.latencyRx l rx) s l rx)

/-- A distributor sends LATENCY for a domain it carries below the top node, on an upstream port that is UP: when the
value first becomes valid, rises, falls by more than 1 ns, or 100 ms have passed (R221). -/
def State.gdLatencySend (s : State) (p : Nat) (tag : BitVec 24) : State :=
  match s.dom? tag with
  | none => s
  | some d =>
    if (p ≠ 64 ∧ p ≠ 65) ∨ !s.trained ⟨.gd, p⟩ ∨ !s.gd.hasRole then s
    else
      let v := s.gdDlat p d
      let ok := s.dlatValid d
      let aon := s.aon .gd
      let due : Bool := match Tab.get d.sentDlat p with
        | none => true
        | some (w, wok, at_) => (ok && !wok) || w < v || v + 1000 < w || at_ + 100000000 ≤ aon
      if !due then s
      else
        let s := s.updDom tag fun x => { x with sentDlat := Tab.put x.sentDlat p (v, ok, aon) }
        s.send ⟨.gd, p⟩ 1 0 [mkFrame 0x0B 1 0 tag 0 0
          (natBytes v 4 ++ natBytes (b2n ok + 2 * b2n (s.dlatSlow d)) 1 ++ natBytes (s.worstTerm d).2 3)]

/-- LATENCY_SEND (R221). -/
def execLatencySend (l : LinkId) (tag : BitVec 24) (s : State) : Outcome :=
  .next (match l.node with
    | .tsu => s.tsuLatencySend l.port
    | .gd => s.gdLatencySend l.port tag)

/-! ## Aborts and orders -/

/-- A request for the top node at a distributor: taken, or passed on (R245, R370, R385). -/
def State.gdRequest (s : State) (l : LinkId) (d : GdDom) (f : Frame) (abort : Bool) : State :=
  match s.upPart l d.dr 1 [f] none with
  | (s, some _) => match s.takesRequests d with
    | some pod =>
      if abort then s.abortRequest d pod f.step16 ((padTo 48 f.body).drop 2 |>.take 3) (f.byte 17)
      else s.orderRequest d pod f
    | none => s.gdUp d.dr 1 0 [f] false l.port
  | (s, none) => s

/-- A broadcast that comes down: from an upstream port, or from the partner as a DETOUR; a mirror copy is counted from
without being sent on (R245, R387, R388). -/
def State.gdBroadcast (s : State) (l : LinkId) (d : GdDom) (f : Frame) (abort : Bool) : State :=
  let id := f.nat 12 2
  if l.port < 64 ∨ (66 ≤ l.port ∧ l.port ≠ s.gd.partnerPort) then s.malformed l
  else if l.port = s.gd.partnerPort ∧ !f.detour then
    let aon := s.aon .gd
    s.updDom d.dr.tag fun x => if abort then { x with abortId := id, abortAt := aon } else { x with orderSeq := id }
  else if abort then
    if d.abortOpen ∧ d.abortId = id then s else s.abortStart d id f f.detour
  else s.broadcast d f f.detour

/-- ABORT_FRAME_RX at a distributor. -/
def State.gdAbortRx (s : State) (l : LinkId) (rx : Rx) : State :=
  match s.gdMessage l rx 0x09 (fun _ => 1) with
  | (s, some (d, [f])) => if f.f49 then s.gdRequest l d f true else s.gdBroadcast l d f true
  | (s, _) => s

/-- ABORT_FRAME_RX (R244, R245). -/
def execAbortFrameRx (l : LinkId) (rx : Rx) (s : State) : Outcome :=
  .next (State.cutThrough (match l.node with
    | .tsu => match s.receive l rx 0x09 with
      | (s, some f) => if f.more then s.malformed l else s.tsuAbortRx l f
      | (s, none) => s
    | .gd => s.gdAbortRx l rx) s l rx)

/-- ABORT_DONE of a child, counted once (R245). -/
def State.gdAbortDone (s : State) (l : LinkId) (rx : Rx) : State :=
  match s.gdMessage l rx 0x0A (fun _ => 1) with
  | (s, some (d, [f])) => match s.upPart l d.dr 1 [f] (some (f.nat 24 3 % 262144)) with
    | (s, some (i, false)) =>
      match s.dom? d.dr.tag with
      | some d =>
        if !d.abortOpen ∨ d.abortId ≠ f.nat 12 2 ∨ d.abortDone.contains i then s
        else
          let ns : Word := BitVec.ofNat 32 (f.nat 20 4)
          let later : Bool := d.abortDone = [] || decide (0 < sdiff 32 ns.toNat d.abLastNs.toNat)
          let s := s.updDom d.dr.tag fun x =>
            { x with abortDone := x.abortDone ++ [i], abDone := (x.abDone + f.nat 14 3 % 524288) % 524288,
                     abMiss := (x.abMiss + f.nat 17 3 % 524288) % 524288,
                     abLastNs := if later then ns else x.abLastNs,
                     abLastDie := if later then f.nat 24 3 % 262144 else x.abLastDie }
          s.abortProgress d.dr.tag false
      | none => s
    | (s, _) => s
  | (s, _) => s

/-- ABORT_DONE_RX (R245). -/
def execAbortDoneRx (l : LinkId) (rx : Rx) (s : State) : Outcome :=
  .next (State.cutThrough (if l.node = .tsu then s else s.gdAbortDone l rx) s l rx)

/-- ABORT_WAIT_EXPIRY (R245). -/
def execAbortWaitExpiry (tag : BitVec 24) (s : State) : Outcome := .next (s.abortProgress tag true)

/-- ORDER_FRAME_RX at a distributor (R370): a VERB outside 0x02 to 0x05 is malformed. -/
def State.gdOrderRx (s : State) (l : LinkId) (rx : Rx) : State :=
  match s.gdMessage l rx 0x0C (fun f => if 2 ≤ f.byte 17 ∧ f.byte 17 ≤ 5 then 1 else 0) with
  | (s, some (d, [f])) => if f.f49 then s.gdRequest l d f false else s.gdBroadcast l d f false
  | (s, _) => s

/-- ORDER_FRAME_RX (R370). -/
def execOrderFrameRx (l : LinkId) (rx : Rx) (s : State) : Outcome :=
  .next (State.cutThrough (match l.node with
    | .tsu => match s.receive l rx 0x0C with
      | (s, some f) => if f.more then s.malformed l else s.tsuOrderRx l f
      | (s, none) => s
    | .gd => s.gdOrderRx l rx) s l rx)

/-- GD_ABORT_GO: a write of GD_ABORT_CTRL; GO asks for an abort of TAG with REASON 0x04 (R481). -/
def State.gdAbortGo (s : State) (w : Word) : State :=
  let s := s.setReg .gd 0x500 (w &&& 0xFFFFFF#32)
  let tag : BitVec 24 := BitVec.ofNat 24 w.toNat
  if !bitOf w.toNat 24 then s
  else match s.dom? tag with
    | none => s
    | some d =>
      let origin := natBytes (s.gd.locator.getD 0) 3
      match s.takesRequests d with
      | some pod => s.abortRequest d pod 0 origin 4
      | none => s.gdUp d.dr 1 0 [{ mkFrame 0x09 1 0 tag 0 (s.now .gd).ns32 (natBytes 0 2 ++ origin ++ natBytes 4 1) with
          f49 := true }] (!s.acts d.dr) 99

/-- GD_ABORT_GO (R481). -/
def execGdAbortGo (w : Word) (s : State) : Outcome := .next (s.gdAbortGo w)

/-- GD_ORDER_GO: a write of GD_ORDER_CTRL; GO sends the order with MGMT = 1 for the TAG of GD_ABORT_CTRL; a VERB outside
0b010 to 0b101 sets STATE (R481). -/
def State.gdOrderGo (s : State) (w : Word) : State :=
  let s := s.setReg .gd 0x514 (w &&& 0xFF01FF#32)
  let tag : BitVec 24 := BitVec.ofNat 24 (s.reg .gd 0x500)
  let verb := bitsOf w.toNat 2 0
  if !bitOf w.toNat 24 then s
  else if verb < 2 ∨ 5 < verb then s.updCom .gd fun c => c.accessErr 4 0x514
  else match s.dom? tag with
    | none => s
    | some d =>
      let f := { mkFrame 0x0C 1 0 tag 0 (s.now .gd).ns32 (natBytes 0 2 ++ natBytes (s.gd.locator.getD 0) 3
        ++ natBytes verb 1 ++ natBytes (bitsOf w.toNat 7 3 + 32 * b2n (bitOf w.toNat 8)) 1
        ++ natBytes (bitsOf w.toNat 23 16) 1) with f49 := true, f48 := true }
      match s.takesRequests d with
      | some pod => s.orderRequest d pod f
      | none => s.gdUp d.dr 1 0 [f] (!s.acts d.dr) 99

/-- GD_ORDER_GO (R481). -/
def execGdOrderGo (w : Word) (s : State) : Outcome := .next (s.gdOrderGo w)

end Sys2Proof.Machine
end

