-- ==== Sys2Proof/Machine/Firmware.lean ====
section
/-! DEFINITION. The commands of firmware update and custody (R434 to R452, R486, R487). -/

namespace Sys2Proof.Machine

open Sys2Proof

/-! ## Loading -/

/-- CARD_DETECT: CARD_DET_N falls, and with CARD_AUTO the card is read (R439). -/
def execCardDetect (data : List Byte) (s : State) : Outcome :=
  .next (if bitOf (s.reg .gd 0xA10) 1 then s.fwLoad data none else s)

/-- FW_LOAD_CARD (R439). -/
def execFwLoadCard (data : List Byte) (s : State) : Outcome := .next (s.fwLoad data none)

/-- FW_SLOT_WRITE_DONE (R437, R439). -/
def execFwSlotWriteDone (crcOk signatureOk writeOk : Bool) (s : State) : Outcome :=
  .next (s.fwWritten crcOk signatureOk writeOk)

/-! ## Activation -/

/-- A firmware control of GD_FW_CTRL, with the custody of R449. -/
def State.fwControl (s : State) (acc : Access) (f : State → State) : State := s.gdWrite acc 0xA10 s.gd.fwCustody f

/-- FW_ACTIVATE: ACTIVATE of GD_FW_CTRL with COLD as set (R441, R487). -/
def execFwActivate (acc : Access) (s : State) : Outcome :=
  .next (s.fwControl acc fun s => s.fwActivate (bitOf (s.reg .gd 0xA10) 3) none)

/-- FW_COMMIT (R443). -/
def execFwCommit (acc : Access) (s : State) : Outcome := .next (s.fwControl acc State.fwCommit)

/-- FW_REVERT (R443). -/
def execFwRevert (acc : Access) (s : State) : Outcome := .next (s.fwControl acc fun s => s.fwRevert 2)

/-- UNDERSTUDY_BOOTED: the hand-over makes the understudy lead on the new slot, which becomes TRIAL (R441, R445). -/
def State.understudyBooted (s : State) : State :=
  match s.gd.fw.act with
  | .booting _ =>
    let aon := s.aon .gd
    let t := !s.gd.fw.active
    let s := s.settingsFor (s.gd.fw.slot t).fmt
    ((s.updFw fun f => { f.setSlot t { f.slot t with state := .trial } with
      runB := t, act := .idle, trialCold := false, trialAt := aon }).logG .fwActivated 0x8000).fwEnded
  | _ => s

/-- UNDERSTUDY_BOOTED (R441). -/
def execUnderstudyBooted (s : State) : Outcome := .next s.understudyBooted

/-- UNDERSTUDY_BOOT_TIMEOUT: no boot within 3 s ends the activation (R441). -/
def execUnderstudyBootTimeout (s : State) : Outcome :=
  .next (match s.gd.fw.act with
    | .booting t =>
      if t + 3000000000 ≤ s.aon .gd then (s.updFw fun f => { f with act := .idle }).fwRollback 1 else s
    | _ => s)

/-- ACTIVATE_CENSUS_WAIT: an activation that waited for a census goes on once it has ended, or is refused after 10 s
(R441). -/
def execActivateCensusWait (s : State) : Outcome :=
  .next (match s.gd.fw.act with
    | .waiting t cold v =>
      if s.gd.census.isNone then s.fwBegin cold v
      else if t + 10000000000 ≤ s.aon .gd then (s.updFw fun f => { f with act := .idle }).fwBusyErr 2
      else s
    | _ => s)

/-- COMMIT_WAIT of GD_FW_CTRL in ns (R443, R487). -/
def State.commitWait (s : State) : Nat := orOne (bitsOf (s.reg .gd 0xA10) 31 16) * 1000000000

/-- COMMIT_WAIT_EXPIRY (R443); commit needs no custody then (R449). -/
def execCommitWaitExpiry (s : State) : Outcome :=
  .next (if s.gd.fw.trialAt + s.commitWait ≤ s.aon .gd then s.fwCommit else s)

/-- HEARTBEAT_MISS: 100 ms without a heartbeat revert a trial (R443). -/
def execHeartbeatMiss (s : State) : Outcome := .next (s.fwRevert 3)

/-! ## FWCTL -/

/-- The port toward a TARGET below this position, on the side on which the frame travels; at TARGET's parent position a
frame for the other side goes to the partner (R440). -/
def State.fwPort (s : State) (target from_ : Nat) : Option Nat :=
  let pos := mkLoc (locRole target) (locPos target)
  match (List.range s.gd.fan).find? fun i =>
      locRole target < s.gd.role.getD 0 && inSubtree (s.gd.childLoc i) (locDies pos).1 with
  | none => none
  | some i =>
    let p := if s.gd.childLoc i = pos ∧ bitOf target 17 ≠ s.gd.sideB then s.gd.partnerPort else i
    if p ≠ from_ ∧ s.gd.role ≠ some 0 ∧ s.trained ⟨.gd, p⟩ then some p else none

/-- GRANT is honoured in the sled and rack roles: ORIGIN is the pod above TARGET or a hall root, the frame came on an
upstream port or the partner link, and it was issued within 10 s before now (R449). -/
def State.grantHonoured (s : State) (l : LinkId) (f : Frame) : Bool :=
  let origin := f.nat 20 3 % 1048576
  let target := f.nat 13 3 % 1048576
  let above := locRole origin = 3 ||
    (locRole origin = 2 && inSubtree (mkLoc 2 (locPos origin)) (locDies (mkLoc (locRole target) (locPos target))).1)
  let age := sdiff 32 (s.now .gd).ns32.toNat f.time.toNat
  f.f49 && above && (l.port = 64 || l.port = 65 || l.port = s.gd.partnerPort) && decide (0 ≤ age ∧ age ≤ 10000000000)

/-- An FWCTL frame at its TARGET (R440, R441, R443, R449). -/
def State.fwctlHere (s : State) (l : LinkId) (f : Frame) : State :=
  if s.gd.fwCustody ∧ s.gd.sealSt ≠ .opened ∧ !s.grantHonoured l f then s.logG .custodyRequired l.port
  else match f.byte 12 with
    | 1 => s.fwActivate (bitOf (f.byte 23) 0) (some (BitVec.ofNat 32 (f.nat 16 4)))
    | 2 => s.fwRevert 2
    | _ => s.fwCommit

/-- FWCTL_RX at a distributor (R440). -/
def State.fwctlRx (s : State) (l : LinkId) (rx : Rx) : State :=
  match s.receive l rx 0x0D with
  | (s, none) => s
  | (s, some f) =>
    if l.node = .tsu ∨ !s.gd.hasRole then s
    else if f.more ∨ f.byte 12 = 0 ∨ 3 < f.byte 12 then s.malformed l
    else if l.port < 64 then s
    else
      let target := f.nat 13 3 % 1048576
      if s.gd.locator = some target then s.fwctlHere l f
      else match s.fwPort target l.port with
        | some p => s.send ⟨.gd, p⟩ 1 0 [f]
        | none => s

/-- FWCTL_RX (R440). -/
def execFwctlRx (l : LinkId) (rx : Rx) (s : State) : Outcome := .next (State.cutThrough (s.fwctlRx l rx) s l rx)

/-! ## The key seal -/

/-- The seal changes state: it is shown to the lead and journaled (R446, R476). -/
def State.sealTo (s : State) (st : SealState) : State :=
  if s.gd.sealSt = st then s
  else
    let s := (s.updGd fun g => { g with sealSt := st, sealAt := g.com.time.aon }).updCom .gd fun c => c.setIrq 0x10000
    s.updGd fun g => g.journalWrite Config.sealKind 0 (g.locator.getD 0)
      (Config.noFrameBody g.journal.recno)

/-- A seal that is TAMPERED returns to LOCKED with KEYSW LOCKED, once the loop has been intact for 10 s (R446). -/
def State.tamperClear (s : State) : State :=
  if s.gd.sealSt = .tampered ∧ s.gd.loopOk ∧ s.gd.loopAt + 10000000000 ≤ s.aon .gd ∧ !s.gd.keysw then s.sealTo .locked else s

/-- KEYSW_CHANGE (R446). -/
def State.keyswChange (s : State) (isOpen : Bool) : State :=
  if s.gd.keysw = isOpen then s
  else
    let s := s.updGd fun g => { g with keysw := isOpen }
    if isOpen then (if s.gd.sealSt = .locked ∧ s.gd.loopOk then s.sealTo .armed else s)
    else if s.gd.sealSt = .tampered then s.tamperClear
    else s.sealTo .locked

/-- KEYSW_CHANGE (R446). -/
def execKeyswChange (isOpen : Bool) (s : State) : Outcome := .next (s.keyswChange isOpen)

/-- PRESENCE_PRESS: a press within 30 s of ARMED opens the seal (R446). -/
def execPresencePress (s : State) : Outcome :=
  .next (if s.gd.sealSt = .armed ∧ s.aon .gd < s.gd.sealAt + 30000000000 then s.sealTo .opened else s)

/-- TAMPER_LOOP_BREAK (R446). -/
def execTamperLoopBreak (s : State) : Outcome :=
  .next (if s.gd.loopOk then
      (((s.updGd fun g => { g with loopOk := false }).sealTo .tampered).logG .tamper 0x8000)
    else s)

/-- TAMPER_CLEAR: the loop is whole again, and its 10 s count from then; a loop that has been intact for 10 s with KEYSW
LOCKED ends TAMPERED (R446). -/
def execTamperClear (s : State) : Outcome :=
  .next (if s.gd.loopOk then s.tamperClear
    else s.updGd fun g => { g with loopOk := true, loopAt := g.com.time.aon })

/-- SEAL_ARMED_EXPIRY: 30 s without a press (R446). -/
def execSealArmedExpiry (s : State) : Outcome :=
  .next (if s.gd.sealSt = .armed ∧ s.gd.sealAt + 30000000000 ≤ s.aon .gd then
      (s.sealTo .expired).logG .sealTimeout 0x8000
    else s)

/-- SEAL_MAX_EXPIRY: SEAL_MAX minutes in OPEN (R446, R487). -/
def execSealMaxExpiry (s : State) : Outcome :=
  .next (if s.gd.sealSt = .opened ∧ s.gd.sealAt + orOne (bitsOf (s.reg .gd 0xA1C) 23 16) * 60000000000 ≤ s.aon .gd then
      s.sealTo .expired
    else s)

/-- OWNER_LOCK_WRITE (R448). -/
def execOwnerLockWrite (acc : Access) (w : Word) (s : State) : Outcome :=
  .next (s.gdWrite acc 0xA20 true fun s => s.updGd fun g => { g with ownerLock := bitOf w.toNat 0 })

/-- FUSE_BLOW: GO of GD_FUSE_BLOW blows what w0 and w1 name; a repair entry needs one of the 256 free (R418, R486). -/
def State.fuseBlow (s : State) : State :=
  let w := s.reg .gd 0x934
  let kind := bitsOf w 1 0
  let held := s.gd.repairs + (s.gd.blown.filter fun b => b.1 = 3).length
  let s := if kind = 3 ∧ 256 ≤ held then s
    else s.updGd fun g => { g with blown := g.blown ++ [(kind, bitsOf w 14 8, bitsOf (s.reg .gd 0x938) 19 0)] }
  s.setEvt .gd 0x934 0x40000000

/-- FUSE_BLOW (R486). -/
def execFuseBlow (acc : Access) (s : State) : Outcome := .next (s.gdWrite acc 0x934 true State.fuseBlow)

end Sys2Proof.Machine
end

