-- ==== Sys2Proof/Machine/Joins.lean ====
section
/-! DEFINITION. The commands of leaving and rejoining (R392, R395 to R398, R402, R425). -/

namespace Sys2Proof.Machine

open Sys2Proof

/-! ## JOIN REQ -/

/-- A restart notice of a die: for every domain of the port it is as if the die had been absent and its port returned to UP,
and it is sent its leaf extract again (R395, R425). -/
def State.restartNotice (s : State) (p : Nat) : State :=
  let i := s.gd.childOfPort p
  let s := s.absentAll i
  let s := s.updGd fun g => { g with absent := if g.absent.contains i then g.absent else g.absent ++ [i] }
  (s.downPortUp p).imageDown i

/-- JOIN_AT of a new acceptance: the one this distributor itself joins at, before that instant, else 100 µs ahead
(R398). -/
def State.joinInstant (s : State) (d : GdDom) : Int :=
  let now := (s.now .gd).toNs
  match d.joinAt with
  | some w => if reachedBy now w then now + 100000 else w
  | none => now + 100000

/-- A request to join a domain is refused or accepted; a die still counted as a member is first treated as absent (R398,
R425). -/
def State.joinAsked (s : State) (d : GdDom) (i die : Nat) : State :=
  let tag := d.dr.tag
  let now := (s.now .gd).ns32
  if d.expelled.contains i then
    s.gdDown d.dr 2 [i] (fun _ => [joinFrame 4 1 die tag now 0]) [joinFrame 4 1 die tag now 0]
  else
    let s := if d.out.contains i then s else s.absentFrom tag i
    let at_ := s.joinInstant d
    let ack := joinFrame 2 0 die tag now (BitVec.ofInt 32 at_)
    let s := s.updDom tag fun x => { x with joining := Tab.put x.joining i at_ }
    (s.mirror 2 [ack]).gdDown d.dr 2 [i] (fun _ => [ack]) [ack]

/-- JOIN REQ at a distributor (R385, R386, R398, R425). -/
def State.joinReqRx (s : State) (l : LinkId) (rx : Rx) : State :=
  if l.node = .tsu then s
  else match s.recvOp l rx 0x18 1 with
    | (s, none) => s
    | (s, some f) =>
      if !s.gd.hasRole then s
      else if f.domain = 0 then
        if s.gd.role = some 0 ∧ l.port < 8 then s.restartNotice l.port else s.malformed l
      else match s.dom? f.domain with
        | none => s.logG .domainStale l.port
        | some d => match s.upPart l d.dr 2 [f] (some (dieField f)) with
          | (s, some (i, false)) => s.joinAsked d i (dieField f)
          | (s, _) => s

/-- JOIN_REQ_RX (R398). -/
def execJoinReqRx (l : LinkId) (rx : Rx) (s : State) : Outcome := .next (State.cutThrough (s.joinReqRx l rx) s l rx)

/-! ## JOIN ACK -/

/-- ACK at a TSU: the domain's shares in SHADOW wait for their boundary turns; a domain without shares has joined (R398,
R410). -/
def State.ackTsu (s : State) (l : LinkId) (tag : BitVec 24) (at_ : Int) : State :=
  match s.sliceOf tag with
  | none => s.logT .domainStale (srcLane l.port)
  | some n =>
    let b := (s.slice n).bindings.find? fun b => b.tag = tag
    if !((b.map fun b => decide (b.mstate = .shadow ∨ b.mstate = .joining)).getD false) then s
    else
      let own : Tumbler → Bool := fun t => t.slice = n && t.domain = tag
      let join : Nat → Tumbler → Tumbler := fun _ x =>
        if own x ∧ x.mstate = .shadow ∧ !x.noJoin then { x with mstate := .joining } else x
      let s := s.updTsu fun t => { t with tumb := Tab.map t.tumb join }
      let none_ : Bool := !(s.tsu.tumb.any fun p => own p.2)
      let s := s.updBinding n tag fun b => { b with joinAt := at_, mstate := if none_ then .member else .joining }
      if none_ then s.setEvt .tsu 0x780 0x10 else s

/-- ACK at a distributor: its own JOIN_AT from its parent, or its partner's acceptance of a child (R387, R398). -/
def State.ackGd (s : State) (l : LinkId) (f : Frame) : State :=
  let at_ := extendNs (s.now .gd) (BitVec.ofNat 32 (f.nat 20 4))
  if !s.gd.hasRole then s
  else match s.downPart l f with
    | .wrong => s.malformed l
    | .copy => match s.gd.childOfDie (dieField f) with
      | some i => s.updDom f.domain fun x => { x with joining := Tab.put x.joining i at_ }
      | none => s
    | _ => s.updDom f.domain fun x => { x with joinAt := some at_ }

/-- JOIN_ACK_RX (R398). -/
def execJoinAckRx (l : LinkId) (rx : Rx) (s : State) : Outcome :=
  .next (State.cutThrough (match s.recvOp l rx 0x18 2 with
    | (s, none) => s
    | (s, some f) => match l.node with
      | .tsu => s.ackTsu l f.domain (extendNs (s.now .tsu) (BitVec.ofNat 32 (f.nat 20 4)))
      | .gd => s.ackGd l f) s l rx)

/-! ## JOIN ABSENT -/

/-- The shares of a domain at a TSU enter SHADOW, and a TSU whose time is QUALIFIED asks to join; EXPELLED ones stay so
(R397, R398). -/
def State.shadowDomain (s : State) (tag : BitVec 24) : State :=
  match s.sliceOf tag with
  | none => s.updTsu fun t => { t with shadowed := if t.shadowed.contains tag then t.shadowed else tag :: t.shadowed }
  | some n =>
    let shares := (s.tsu.tumb.filter fun p => p.2.slice = n && p.2.domain = tag && p.2.estate ≠ .closing
      && p.2.mstate ≠ .expelled).map (·.1)
    let s := shares.foldl (fun (s : State) e => s.enterShadow e .shadow) s
    (s.updBinding n tag fun b => { b with mstate := if b.mstate = .expelled then .expelled else .shadow }).joinSoon tag

/-- ABSENT at a TSU: every ALLOW_ABSENT domain that the notice covers; before an extract is held, a notice for every domain
is kept for its activation (R383, R397). -/
def State.absentTsu (s : State) (tag : BitVec 24) : State :=
  let loose := s.looseTags
  let s := if tag = 0 ∧ s.tsu.tree.isNone then s.updTsu fun t => { t with absentAll := true } else s
  (if tag = 0 then loose else loose.filter (· = tag)).foldl (fun (s : State) t => s.shadowDomain t) s

/-- ABSENT at a returning distributor: its children's shares leave the expected set, it relays the notice on its member
ports, and asks its parent to join once no census runs (R395, R398). -/
def State.absentGd (s : State) (l : LinkId) (f : Frame) : State :=
  if !s.gd.hasRole then s
  else if l.port ≠ 64 ∧ l.port ≠ 65 then s.malformed l
  else
    let tags := (s.gd.doms.filter fun p => p.2.dr.allowAbsent && (f.domain = 0 || p.2.dr.tag = f.domain)).map (·.2.dr.tag)
    let s := tags.foldl (fun (s : State) t => s.updDom t fun d =>
      { d with out := s.gd.members d.dr, joining := [], joinAt := none }) s
    let s := s.updGd fun g => { g with
      softs := Tab.map g.softs fun k e => match Tab.get g.doms (k / 4096) with
        | some d => if tags.contains d.dr.tag then { e with out := g.members d.dr } else e
        | none => e,
      rejoin := g.rejoin ++ tags.filter fun t => !g.rejoin.contains t }
    let s := s.memberPorts.foldl (fun (s : State) p => s.send ⟨.gd, p⟩ 2 0 [{ f with detour := false }]) s
    if s.gd.census.isSome then s else s.gdJoinReqs

/-- JOIN_ABSENT_RX (R397). -/
def execJoinAbsentRx (l : LinkId) (rx : Rx) (s : State) : Outcome :=
  .next (State.cutThrough (match s.recvOp l rx 0x18 3 with
    | (s, none) => s
    | (s, some f) => match l.node with
      | .tsu => s.absentTsu f.domain
      | .gd => s.absentGd l f) s l rx)

/-! ## JOIN REFUSE -/

/-- JOIN_REFUSE_RX: the share stays out (R398, R411). -/
def execJoinRefuseRx (l : LinkId) (rx : Rx) (s : State) : Outcome :=
  .next (State.cutThrough (match s.recvOp l rx 0x18 4 with
    | (s, none) => s
    | (s, some f) => match l.node with
      | .tsu =>
        let back : MState → MState := fun m => if m = .joining then .shadow else m
        let one : Nat → Tumbler → Tumbler := fun _ x => if x.domain = f.domain then { x with mstate := back x.mstate } else x
        let s := match s.sliceOf f.domain with
          | some n => s.updBinding n f.domain fun b => { b with mstate := back b.mstate }
          | none => s
        let s := s.updTsu fun t => { t with tumb := Tab.map t.tumb one }
        s.logT .joinRefused (srcLane l.port) 0 (s.sliceOf f.domain)
      | .gd =>
        if !s.gd.hasRole then s
        else if s.downPart l f = .wrong then s.malformed l
        else s.logG .joinRefused l.port) s l rx)

end Sys2Proof.Machine
end

