-- ==== Sys2Proof/Machine/Journal.lean ====
section
/-! DEFINITION. The commands of the journal stack (R408, R429, R485). -/

namespace Sys2Proof.Machine

open Sys2Proof

/-- A command of the journal stack acts where the stack is present; elsewhere the write sets ABSENT (R474, R485). -/
def State.journalDo (s : State) (off : Nat) (f : Journal → Journal) : State :=
  if s.gd.hasJournal then s.updGd fun g => { g with journal := f g.journal } else s.updCom .gd fun c => c.accessErr 1 off

/-- FREEZE stops the ring; cleared, the ring resumes (R485). -/
def Journal.freeze (j : Journal) (on : Bool) : Journal :=
  if on then { j with frozen := true }
  else { j with frozen := false, triggered := false, postLeft := if j.postLeft = some 0 then none else j.postLeft }

/-- JOURNAL_FREEZE: a write of GD_JOURNAL_CTRL (R485). -/
def execJournalFreeze (w : Word) (s : State) : Outcome :=
  .next (
    let s := if s.gd.hasJournal then s.setReg .gd 0x800 (w &&& 0xFFFF7FFF#32) else s
    s.journalDo 0x800 fun j => j.freeze (bitOf w.toNat 0))

/-- The ring stops once the records after a trigger have been written (R408). -/
def Journal.triggerStop (j : Journal) : Journal :=
  if j.postLeft = some 0 ∧ !j.frozen then { j with frozen := true, triggered := true, postLeft := none } else j

/-- JOURNAL_TRIGGER_STOP (R408). -/
def execJournalTriggerStop (s : State) : Outcome :=
  .next (s.updGd fun g => { g with journal := g.journal.triggerStop })

/-- The snapshot that a read of a record leaves: the line with DONE, with ERROR where its check fails, or zeros with GONE
(R485). -/
def Journal.read (j : Journal) (r : Nat) : Journal :=
  match Tab.get j.lines r with
  | some l => { j with view := some l, viewStat := if l = rsLine (l.take 60) then 1 else 3 }
  | none => { j with view := none, viewStat := 5 }

/-- JOURNAL_READ: a write of GD_JOURNAL_RSEL w1 (R485). -/
def execJournalRead (w : Word) (s : State) : Outcome :=
  .next (
    let s := if s.gd.hasJournal then s.setReg .gd 0x814 w else s
    let r := s.reg .gd 0x814 * 4294967296 + s.reg .gd 0x810
    s.journalDo 0x814 fun j => j.read r)

/-- The interface begins to retrain, or ends: the records that waited are then written in order (R429). -/
def Journal.retrain (j : Journal) : Journal :=
  if j.retraining then
    { j with retraining := false, wait := [], lines := j.wait.foldl (fun t x => journalPut t x.1 x.2) j.lines }
  else { j with retraining := true }

/-- JOURNAL_RETRAIN: the start of the 10 s retrain, and its end (R429). -/
def execJournalRetrain (s : State) : Outcome :=
  .next (if s.gd.hasJournal then s.updGd fun g => { g with journal := g.journal.retrain } else s)

end Sys2Proof.Machine
end

