-- ==== Sys2Proof/Machine/Results.lean ====
section
/-! DEFINITION. The result read port (R265, R266, R467 to R469). -/

namespace Sys2Proof

/-- ENTRY of a read's offset (R467). -/
def ResultRead.entry (q : ResultRead) : Nat := bitsOf q.offset 24 13
/-- PART of a read's offset (R467). -/
def ResultRead.part (q : ResultRead) : Nat := bitsOf q.offset 12 11
/-- The byte within the part (R467). -/
def ResultRead.byte (q : ResultRead) : Nat := bitsOf q.offset 10 0
/-- The length and the alignment of a read (R467). -/
def ResultRead.formed (q : ResultRead) : Bool := [4, 8, 16, 32, 64].contains q.length && q.offset % q.length = 0

end Sys2Proof

namespace Sys2Proof.Machine

open Sys2Proof

/-- Bytes of one lane, pair or bucket of the result data (R251). -/
def resultLane (op fmt lanes : Nat) : Nat := dataLen op fmt lanes / orOne (positions op fmt lanes)

/-- Lane `j` of an ALLOC participant can be told: its accepted count, under SPILL that of its first choice, and its prefix are
held (R265, R277). -/
def Result.shareHeld (r : Result) (dom : Bool) (j : Nat) : Bool :=
  r.holds (2 * j) 2 && r.holdsAlloc 0 4 && (!dom || r.holdsAlloc (16 + 2 * j) 2)
    && (r.rule.1 ≠ 1 || j < r.rule.2 || r.holds (2 * (j - r.rule.2)) 2)

/-- Byte `b` of the layout that part 1 and part 2 share for ALLOC: quota and offset of each lane, then the raw prefix
(R468). -/
def Result.shareByte (r : Result) (dom : Bool) (counts pre : List Nat) (b : Nat) : Option Byte :=
  if b < 4 * r.lanes then
    if r.shareHeld dom (b / 4) then some (byteAt (packShares (r.shares counts pre)) b) else none
  else if 0x400 ≤ b ∧ b < 0x400 + 2 * r.lanes then
    if !dom || r.holdsAlloc (16 + (b - 0x400) / 2 * 2) 2 then some (byteAt (packLanes 2 pre) (b - 0x400)) else none
  else some 0

/-- Bytes 0x400 to 0x411 of part 0 (R468). -/
def Result.trailer (r : Result) (tag : BitVec 24) : List Byte :=
  natBytes (r.gen.toNat + 4 * b2n r.short + 8 * b2n r.complete) 1 ++ natBytes r.members 3
    ++ natBytes (BitVec.ofInt 32 (r.c / 65536)).toNat 4 ++ natBytes ((r.t.map Time80.ns32).getD 0).toNat 4
    ++ natBytes tag.toNat 3 ++ natBytes 0 1 ++ natBytes r.step16.toNat 2

/-- A byte of a part of a result; none where it is not held yet (R265, R268, R468). -/
def Result.portByte (r : Result) (t : Tumbler) (part slot b : Nat) : Option Byte :=
  let dom := decide (t.domain ≠ 0)
  let len := dataLen r.op r.fmt r.lanes
  match part with
  | 0 =>
    if b < len then (if r.holds b 1 then some (byteAt r.data b) else none)
    else if 0x200 ≤ b ∧ b < 0x210 ∧ r.op = 0x0C then
      if r.holdsAlloc (b - 0x200) 1 then some (byteAt r.alloc (b - 0x200)) else none
    else if 0x400 ≤ b then some (byteAt (r.trailer t.domain) (b - 0x400))
    else some 0
  | 1 =>
    if r.op = 0x0B then
      if len ≤ b then some 0
      else if r.holds b 1 then some (byteAt (r.prefixOf slot dom) b) else none
    else if r.op = 0x0C then r.shareByte dom (r.countsOf slot) (lanesAt (r.prefixOf slot dom) 2 r.lanes) b
    else some 0
  | 2 =>
    if r.op = 0x0C ∧ r.carried ≠ [] then
      r.shareByte dom r.carried (if dom then lanesAt (r.alloc.drop 16) 2 r.lanes else List.replicate r.lanes 0) b
    else some 0
  | _ => some 0

/-- The lane that a byte of a part belongs to (R266, R468). -/
def Result.laneOf (r : Result) (part b : Nat) : Option Nat :=
  let w := resultLane r.op r.fmt r.lanes
  match part with
  | 0 => if b < dataLen r.op r.fmt r.lanes then some (b / orOne w) else none
  | 1 =>
    if r.op = 0x0B then (if b < dataLen r.op r.fmt r.lanes then some (b / orOne w) else none)
    else if r.op ≠ 0x0C then none
    else if b < 4 * r.lanes then some (b / 4)
    else if 0x400 ≤ b ∧ b < 0x400 + 2 * r.lanes then some ((b - 0x400) / 2) else none
  | 2 =>
    if r.op ≠ 0x0C then none
    else if b < 4 * r.lanes then some (b / 4)
    else if 0x400 ≤ b ∧ b < 0x400 + 2 * r.lanes then some ((b - 0x400) / 2) else none
  | _ => none

/-- What the port does with a read: an answer, an error response with its code and detail, or a stall with the detail that
its end records. -/
inductive PortReply where
  | data (v : Nat)
  | error (code : ErrCode) (detail : Nat)
  | stall (detail : Nat)
  deriving DecidableEq, Repr

/-- The lane of a read as the detail of ONE_RESULT_INCOMPLETE (R266, R469). -/
def State.laneDetail (s : State) (t : Tumbler) (q : ResultRead) : Nat :=
  let r : Result := match t.result with
    | some r => r
    | none => { gen := 0, c := 0, members := 0, latestDie := 0, latestNs := 0, short := false, t := none, far := false,
                tRefused := .none, dropLate := false, calendar := false, step16 := 0, op := t.op, fmt := t.fmt,
                lanes := t.lanes, data := [], alloc := [], first := 0, held := [], whole := true, rows := [], carried := [] }
  (r.laneOf q.part q.byte).getD (Config.noLane s.fresh)

/-- The checks of R467 and R469 in their order. -/
def State.portReply (s : State) (q : ResultRead) : PortReply :=
  if !q.formed then .error .none 0
  else match s.tumb? q.entry with
    | none => .error .accessDenied 0
    | some t =>
      if t.slice ≠ q.slice then .error .accessDenied 0
      else if (s.slice q.slice).sgen ≠ q.sgen then .error .sliceStale 0
      else if q.gen = t.gen then .stall (0x10000 + s.laneDetail t q)
      else match t.result with
        | none => .error .resultIncomplete (0x10000 + s.laneDetail t q)
        | some r =>
          if q.gen ≠ r.gen then .error .resultIncomplete (0x10000 + s.laneDetail t q)
          else if (q.part = 1 ∨ q.part = 2) ∧ !t.mask.getLsbD q.slot then .error .notParticipant 0
          else
            let bs := (List.range q.length).map fun i => r.portByte t q.part q.slot (q.byte + i)
            if bs.all Option.isSome then .data (beNat (bs.map fun b => b.getD 0) 0 q.length)
            else .stall (s.laneDetail t q)

/-- A read is answered; an error response carries data 0, and its code is recorded for the slice (R266, R467, R469). -/
def State.portAnswer (s : State) (q : ResultRead) (a : PortReply) : State :=
  match a with
  | .data v => s.updTsu fun t => { t with readOut := some (v, false) }
  | .error code detail =>
    let s := s.updTsu fun t => { t with readOut := some (0, true) }
    if code = .none then s else (s.logT code (srcSlice q.slice) detail (some q.slice)).takeFresh
  | .stall _ => s

/-- RESULT_READ: a read is checked and answered, or stalls; the port holds up to 16 (R266, R467, R469, R512). -/
def execResultRead (r : ResultRead) (s : State) : Outcome :=
  .next (match s.portReply r with
    | .stall _ =>
      let aon := s.aon .tsu
      if s.tsu.stalls.length < 16 then s.updTsu fun t => { t with stalls := t.stalls ++ [(r, aon)] } else s
    | a => s.portAnswer r a)

/-- RESULT_WAIT in ns (R285). -/
def State.resultWait (s : State) : Nat := orOne (bitsOf (s.reg .tsu 0x580) 15 0)

/-- The oldest stalled read, once it has waited RESULT_WAIT, returns 0 with its error flag, and ONE_RESULT_INCOMPLETE is
recorded with the lane (R266, R469). -/
def State.resultWaitExpiry (s : State) : State :=
  match s.tsu.stalls with
  | [] => s
  | (q, since) :: rest =>
    if s.aon .tsu < since + s.resultWait then s
    else
      let s := s.updTsu fun t => { t with stalls := rest }
      match s.portReply q with
      | .stall d => s.portAnswer q (.error .resultIncomplete d)
      | a => s.portAnswer q a

/-- RESULT_WAIT_EXPIRY (R266). -/
def execResultWaitExpiry (s : State) : Outcome := .next s.resultWaitExpiry

/-- A stalled read is answered on the tick on which its bytes are held: one on a tick, the oldest first (R266, R469,
R512). -/
def State.stallServe (s : State) : State :=
  match s.tsu.stalls.find? fun x => match s.portReply x.1 with
    | .stall _ => false
    | _ => true with
  | none => s
  | some x => (s.updTsu fun t => { t with stalls := t.stalls.erase x }).portAnswer x.1 (s.portReply x.1)

end Sys2Proof.Machine
end

