-- ==== Sys2Proof/Machine/References.lean ====
section
/-! DEFINITION. The commands of references, root election and timing outputs (R91 to R120). -/

namespace Sys2Proof.Machine

open Sys2Proof

/-- After TAKEOVER_WAIT with the partner link lost for time and no loop-back seen, the standby root takes over
(R93). -/
def State.takeoverWaitExpiry (s : State) : State :=
  match s.gd.ref.partnerLostAt with
  | some t =>
    let p : LinkId := ⟨.gd, s.gd.partnerPort⟩
    if s.gd.role = some 3 ∧ !s.gd.ref.isRoot ∧ s.gd.com.time.stepped ∧ (!s.trained p ∨ (s.src p).lost)
        ∧ t + s.takeoverWait ≤ s.gd.com.time.aon then
      s.takeOver
    else s
  | none => s

/-- TAKEOVER_WAIT_EXPIRY (R93). -/
def execTakeoverWaitExpiry (s : State) : Outcome := .next s.takeoverWaitExpiry

/-- One second of the reference on this counter, in units of 2^-16 ns: while a root slews, its counter runs off the tracked
frequency by the slew (R97, R105). -/
def State.predictedSecond (s : State) : Int :=
  let r := s.gd.ref
  if r.isRoot ∧ r.rstate = .pulling then roundAway (65536000000000 * s.gd.com.time.addend) (max r.tracked 1)
  else 65536000000000

/-- An edge against the last accepted one: the whole seconds between them, at least one, and its distance in units of
2^-16 ns from the instant predicted for it (R97). -/
def State.edgeFrom (s : State) (last at0 : Int) : Int × Int :=
  let sec := s.predictedSecond
  let k := max 1 ((at0 - last + sec / 2) / sec)
  (k, at0 - last - k * sec)

/-- A 1PPS edge, stamped in units of 2^-16 ns and corrected by REF_DELAY (R103), is checked against the instant predicted
from the last accepted edge and the counter's rate (R97): one more than 100 ns off is a PHASE_HIT, and is not accepted.
Two accepted edges give the entry's frequency (R108). -/
def State.refPpsEdge (s : State) (n : Nat) (stamp : Int) : State :=
  if n < 4 ∧ s.refPresent (n + 1) ∧ s.refMode n = 1 then
    let src := n + 1
    let at0 := correctStamp' stamp (- (BitVec.ofNat 32 (s.reg .gd (0x218 + 4 * n))).toInt)
    let aon := s.gd.com.time.aon
    let last := (s.refSrc src).lastEdge
    let off := last.map fun e => s.edgeFrom e at0
    let hit : Bool := match off with
      | some d => 6553600 < d.2.natAbs
      | none => false
    let s := s.updRefSrc src fun v => { v with lastPulse := some at0, lastSeen := aon }
    if hit then s.refFault src 0x10
    else
      let s := match last, off with
        | some e, some d => s.noteRate src (roundAway ((d.1 * 65536000000000 - (at0 - e)) * 1000000000) (d.1 * 65536000000000).toNat)
        | _, _ => s
      (s.updRefSrc src fun v => { v with lastEdge := some at0 }).refGood src
  else s
where
  /-- a stamp corrected by a delay in ps, at 7.8125 ps resolution -/
  correctStamp' (stamp ps : Int) : Int := roundAway (stamp * 1000 + ps * 65536) 512000 * 512

/-- REF_PPS_EDGE (R103). -/
def execRefPpsEdge (n : Nat) (stamp : Int) (s : State) : Outcome := .next (s.refPpsEdge n stamp)

/-- The UTC offset and a leap second that an input gives: taken where hall time starts, at a time root or a distributor not
yet stepped. The announcement stands until its instant (R85, R95). -/
def State.takeUtc (s : State) (utc : Option (BitVec 16)) (leap : Option LeapNews) : State :=
  if s.gd.ref.isRoot ∨ !s.gd.com.time.stepped then
    let s := match utc with
      | some u => s.updTime .gd fun t => { t with info := { t.info with utcValid := true, utcOffset := u } }
      | none => s
    match leap with
    | some w => s.updTime .gd fun t => { t with info :=
        { t.info with leap61 := w.positive, leap59 := !w.positive, utcNext := w.utcNext, leapAt := w.leapAt } }
    | none => s
  else s

/-- A time-of-day message names the edge before it; its arrival stamp, checksum and second are checked (R95), and
with the stamp of an accepted edge it gives this second's offset (R103). ZDA sentences bring no leap-second warning.
DESIGN CHOICE (log entry 130): a message before any edge counts as a time-of-day fault, and after a failed checksum the next message may
name any second. -/
def State.todMessageRx (s : State) (n : Nat) (stamp : Int) (second : Nat) (checksumOk : Bool)
    (utcOffset : BitVec 16) (leap : Option LeapNews) : State :=
  if n < 4 ∧ s.refPresent (n + 1) ∧ s.refMode n = 1 then
    let src := n + 1
    let v := s.refSrc src
    let nmea := bitOf (s.reg .gd 0x214) (8 * n + 2)
    let manual := (BitVec.ofNat 16 (s.reg .gd 0x210)).toInt
    let sec : Int := if nmea then second + manual else second
    match v.lastPulse with
    | none => s.refFault src 0x20
    | some e =>
      let late := stamp - e
      let seqOk : Bool := match v.lastSec with
        | some p => sec = p + 1
        | none => true
      if !checksumOk ∨ late < 655360000000 ∨ 58982400000000 < late ∨ !seqOk ∨ sec < 0 then
        (s.updRefSrc src fun v => { v with lastSec := if checksumOk then some sec.toNat else none }).refFault src 0x20
      else
        let s := s.updRefSrc src fun v =>
          { v with lastSec := some sec.toNat, goodSecs := v.goodSecs + 1, sum := e - sec * 65536000000000,
                   num := if v.lastEdge = v.lastPulse then 1 else 0 }
        let s := if nmea then s.takeUtc (some (BitVec.ofInt 16 manual)) none else s.takeUtc (some utcOffset) leap
        s.refGood src
  else s

/-- TOD_MESSAGE_RX (R95). -/
def execTodMessageRx (n : Nat) (stamp : Int) (second : Nat) (checksumOk : Bool) (utc : UtcNews) (s : State) : Outcome :=
  .next (s.todMessageRx n stamp second checksumOk utc.offset utc.leap)

/-- The domain number of an Ethernet time port: 24 to 43, other values acting as 24 (R96, R478). -/
def State.ptpDomain (s : State) (n : Nat) : Nat :=
  let d := bitsOf (s.reg .gd (0x294 + 4 * n)) 15 8
  if 24 ≤ d ∧ d ≤ 43 then d else 24

/-- The master that the alternate BMCA chooses among those heard within the Announce limit: the best rank, then the lowest
identity (R96, R97). -/
def RefSrc.bestMaster (v : RefSrc) (aon : Nat) : Option Nat :=
  bestBy (fun a b => decide (((Tab.get v.masters a).map (·.rank)).getD 0 < ((Tab.get v.masters b).map (·.rank)).getD 0))
    ((v.masters.filter fun m => aon < m.2.seen + 375000000).map (·.1))

/-- The offset of IEEE 1588 from the four stamps of a Sync and its delay exchange (R103). -/
def ptpOffset (t1 t2 t3 t4 : Int) : Int := roundAway ((t2 - t1) - (t4 - t3)) 2

/-- A PTP message of the port's domain (R96): on a SLAVE port an Announce enters its master into the choice of the BMCA and
gives the chosen one's clockClass (R97), and a Sync of the chosen master gives an offset (R103); on a MASTER port a
Delay_Req is answered. -/
def State.ptpMessageRx (s : State) (n : Nat) (m : PtpMessage) : State :=
  if n < 2 ∧ s.gd.hasPtp then
    let src := n + 5
    let aon := s.gd.com.time.aon
    let dom := s.ptpDomain n
    let slave : Bool := s.ptpRole n = 3
    match m with
    | .sync d id t1 t2 t3 t4 =>
      if d = dom ∧ slave ∧ (s.refSrc src).chosen = some id then
        let s := s.updRefSrc src fun v =>
          { v with lastSeen := aon, lastSec := some (t1 / 65536000000000).toNat, sum := v.sum + ptpOffset t1 t2 t3 t4,
                   num := v.num + 1 }
        s.refGood src
      else s
    | .announce d id c rank leap =>
      if d = dom ∧ slave then
        let s := s.updRefSrc src fun v =>
          let v := { v with masters := Tab.put v.masters id ⟨c, rank, aon⟩ }
          { v with chosen := v.bestMaster aon }
        if (s.refSrc src).chosen = some id then
          let s := (s.updRefSrc src fun v => { v with lastAnn := aon, classRx := c }).takeUtc none leap
          if s.ptpClassMax < c then s.refFault src 0x80 else s.refGood src
        else s
      else s
    | .delayReq d =>
      if d = dom ∧ s.ptpRole n = 1 then
        s.updGd fun g => { g with ptpOut := [⟨n, true, none, .other, g.com.time.counter⟩] }
      else s
  else s

/-- PTP_MESSAGE_RX (R96). -/
def execPtpMessageRx (n : Nat) (m : PtpMessage) (s : State) : Outcome := .next (s.ptpMessageRx n m)

/-- An ESMC message updates the SyncE entry; QL-DNU counts as a loss (R97). -/
def State.esmcMessageRx (s : State) (n : Nat) (q : EsmcLevel) : State :=
  if n < 2 ∧ s.refPresent (n + 7) then
    let src := n + 7
    let aon := s.gd.com.time.aon
    let s := s.updRefSrc src fun v => { v with lastAnn := aon, dnu := q = .dnu, pcsLost := false }
    if q = .dnu then s.refFault src 0x8 else s.refGood src
  else s

/-- ESMC_MESSAGE_RX (R97). -/
def execEsmcMessageRx (n : Nat) (q : EsmcLevel) (s : State) : Outcome := .next (s.esmcMessageRx n q)

/-- The limit of R97 for each kind of loss, in ns, and whether it counts from the last Announce or ESMC message. -/
def lossLimit : RefLoss → Nat × Bool
  | .edge => (1100000000, false)
  | .clock10M => (1000, false)
  | .announce => (375000000, true)
  | .sync => (187500000, false)
  | .esmc => (5000000000, true)

/-- A kind of loss belongs to a source (R97). -/
def State.lossApplies (s : State) (src : Nat) (why : RefLoss) : Bool :=
  match why with
  | .edge => decide (1 ≤ src ∧ src ≤ 4) && s.refMode (src - 1) = 1
  | .clock10M => decide (1 ≤ src ∧ src ≤ 4) && s.refMode (src - 1) = 2
  | .announce | .sync => decide (src = 5 ∨ src = 6)
  | .esmc => decide (src = 7 ∨ src = 8)

/-- A missing edge or message past its limit marks the entry FAILED (R97). DESIGN CHOICE (log entry 131): after a lost edge no instant is
predicted from the edges before it. -/
def State.refLossTimeout (s : State) (src : Nat) (why : RefLoss) : State :=
  let v := s.refSrc src
  let lim := lossLimit why
  if s.lossApplies src why ∧ (v.state = .qualifying ∨ v.state = .qualified)
      ∧ (if lim.2 then v.lastAnn else v.lastSeen) + lim.1 ≤ s.gd.com.time.aon then
    (s.updRefSrc src fun v => { v with lastEdge := none }).refFault src 0x8
  else s

/-- REF_LOSS_TIMEOUT (R97). -/
def execRefLossTimeout (s0 : Nat) (why : RefLoss) (s : State) : Outcome := .next (s.refLossTimeout s0 why)

/-- An entry free of loss or fault for REF_QUAL_TIME becomes QUALIFIED, and the selector runs (R98, R100). -/
def State.refQualified (s : State) (src : Nat) : State :=
  let v := s.refSrc src
  if v.state = .qualifying ∧ v.okSince + s.refQualTime ≤ s.gd.com.time.aon then
    let aon := s.gd.com.time.aon
    (s.updRefSrc src fun v => { v with state := .qualified, qualAt := aon }).refSelect
  else s

/-- REF_QUALIFIED (R98). -/
def execRefQualified (s0 : Nat) (s : State) : Outcome := .next (s.refQualified s0)

/-- A revertive better entry that has completed its WTR is selected (R100), unless another is forced or it fails on the same
tick (R101). -/
def State.wtrExpiry (s : State) (i : Nat) : State :=
  if s.wtrEnd i ≤ s.gd.com.time.aon then
    (s.updRef fun r =>
      let r := r.keepTick s.gd.com.time.aon
      { r with hold := r.hold.map fun h => { h with wtrs := h.wtrs ++ [i] } }).refSelect
  else s

/-- WTR_EXPIRY (R100). -/
def execWtrExpiry (i : Nat) (s : State) : Outcome := .next (s.wtrExpiry i)

/-- FORCE_ENTRY with its enable, an RWK field of GD_SEL_CTRL: it forces an entry while that entry is QUALIFIED
(R100, R478). -/
def State.forceEntryWrite (s : State) (acc : Access) (w : Word) : State :=
  s.gdWrite acc 0x268 true fun s => (s.setReg .gd 0x268 (w &&& 0xF#32)).refSelect

/-- FORCE_ENTRY_WRITE (R100). -/
def execForceEntryWrite (acc : Access) (w : Word) (s : State) : Outcome := .next (s.forceEntryWrite acc w)

/-- The filtered offset of a source for the second that ends (R103), and for PTP its PHASE_HIT check (R97) and the entry's
frequency, which two filtered offsets a second apart give (R108). -/
def State.filterSource (s : State) (src : Nat) : State :=
  let v := s.refSrc src
  if v.num = 0 then s
  else
    let o := roundAway v.sum v.num
    let s := s.updRefSrc src fun v => { v with filtered := some o, sum := 0, num := 0 }
    match v.filtered with
    | none => s
    | some p =>
      if src < 5 then s
      else
        let s := s.noteRate src (roundAway (p - o) 65536)
        if 6553600 < (o - p).natAbs then s.refFault src 0x10 else s

/-- The reference state after this second's filtered offset (R104, R107): far, 16 in a row within 5 ns, 4 in a row
out of it; in LOCKED the loop steers the addend by an amount the spec leaves open, within the clamp and within the limits
of R105, of which a second allows REF_ACCEL. -/
def State.rootOffset (s : State) (e : Nat) (first : Bool) (o : Int) : State :=
  let s := s.updRef fun r => { r with offset := o }
  if first ∧ s.refAdoptLimit * 65536 < o.natAbs then
    let src := s.prioSource e
    ((s.updRefSrc src fun v => { v with far := true }).logG .refFar src).refSelect
  else
    let inside : Bool := o.natAbs ≤ 327680
    let s := s.updRef fun r => { r with inRow := if inside then r.inRow + 1 else 0,
                                        outRow := if inside then 0 else r.outRow + 1 }
    match s.gd.ref.rstate with
    | .pulling =>
      if 16 ≤ s.gd.ref.inRow then
        s.updRef fun r => { r with rstate := .locked, everTrace := true, hold := none }
      else s
    | .locked =>
      if 4 ≤ s.gd.ref.outRow then
        let aon := s.gd.com.time.aon
        s.updRef fun r => { r with rstate := .pulling, inRow := 0, outRow := 0, traceAt := aon, hold := none,
                                   tracked := s.gd.com.time.addend }
      else
        let a : Int := s.gd.com.time.addend
        let t : Int := s.gd.ref.tracked
        let step : Int := s.refAccel * 8589934592 / 1000000
        let slew : Int := s.refSlew * 8589934592 / 1000000
        let goal := clampInt (t - slew) (t + slew) (Config.rootLoopAddend s.fresh)
        let next := clampAddend (clampInt (a - step) (a + step) goal)
        ((s.updTime .gd fun t => { t with addend := next }).updRef fun r => { r with tracked := next }).takeFresh
    | _ => s

/-- A time entry that may give the first step: two valid seconds of 1PPS with time of day, or 2 s of Sync (R110). -/
def State.firstStepEntry (s : State) (i : Nat) : Bool :=
  let src := s.prioSource i
  let v := s.refSrc src
  s.refPresent src && s.refIsTime src && !bitOf (s.prioWord i) 9
    && (v.state = .qualifying || v.state = .qualified)
    && (if src ≤ 4 then decide (2 ≤ v.goodSecs) else decide (v.okSince + 2000000000 ≤ s.gd.com.time.aon) && v.filtered.isSome)

/-- The first step of a hall root from its references (R110, source 3): the counter steps by minus the offset and
the root starts to follow the entry. -/
def State.rootFirstStep (s : State) (i : Nat) (o : Int) : State :=
  let s := s.stepCounter .gd (Time80.ofUnits ((s.now .gd).toUnits - o * 65536))
  let s := s.updRef fun r => { r with timeEntry := some i }
  let s := s.updRefSrc (s.prioSource i) fun v => { v with filtered := none, sum := 0, num := 0 }
  s.becomeRoot

/-- Once per second the time root takes the filtered offset of its selected time entry; a hall root that has not
stepped takes its first step from a reference (R103, R104, R110). -/
def State.filteredOffset (s : State) : State :=
  let firsts := s.gd.ref.timeEntry.bind fun e => (s.refSrc (s.prioSource e)).filtered
  let fresh : Bool := (s.gd.ref.timeEntry.map fun e => decide ((s.refSrc (s.prioSource e)).num ≠ 0)).getD false
  let s := [1, 2, 3, 4, 5, 6].foldl (fun s src => s.filterSource src) s
  if s.gd.ref.isRoot ∧ s.gd.com.time.stepped then
    match s.gd.ref.timeEntry with
    | some e => match (s.refSrc (s.prioSource e)).filtered with
      | some o => if fresh then s.rootOffset e firsts.isNone o else s
      | none => s
    | none => s
  else if s.gd.role = some 3 ∧ !s.gd.com.time.stepped ∧ s.gd.com.time.sel.isNone then
    match s.bestEntry s.firstStepEntry with
    | some i => match (s.refSrc (s.prioSource i)).filtered with
      | some o => s.rootFirstStep i o
      | none => s
    | none => s
  else s

/-- FILTERED_OFFSET (R103). -/
def execFilteredOffset (s : State) : Outcome := .next s.filteredOffset

/-- The TIME80 of the latest journal record, or 0 with none (R110, R407). -/
def Gd.journalTime (g : Gd) : Time80 :=
  match g.journal.lines.getLast? with
  | some (_, line) => time80At line 12
  | none => Time80.zero

/-- With no other source FIRST_REF_WAIT after power-good, a hall root steps to its journal's latest time plus 1 s
(R110, source 4). -/
def State.firstRefWaitExpiry (s : State) : State :=
  if s.gd.role = some 3 ∧ !s.gd.com.time.stepped ∧ s.gd.com.time.sel.isNone
      ∧ (s.bestEntry s.firstStepEntry).isNone ∧ s.gd.ref.powerAt + s.firstRefWait ≤ s.gd.com.time.aon then
    (s.stepCounter .gd (Time80.ofNs (s.gd.journalTime.toNs + 1000000000))).becomeRoot
  else s

/-- FIRST_REF_WAIT_EXPIRY (R110). -/
def execFirstRefWaitExpiry (s : State) : Outcome := .next s.firstRefWaitExpiry

/-- clockClass and ESMC level by the distributor's state (R111); no class where no Sync or Announce is sent. -/
def State.masterClass (s : State) : Option Nat × EsmcLevel :=
  let t := s.gd.com.time
  let r := s.gd.ref
  if t.tq = .withdrawn ∨ t.tq = .unset ∨ t.tq = .acquiring then (none, .dnu)
  else if s.ownQuality .gd = .qualified then
    if s.traceable .gd then (some 6, .prc)
    else if !r.everTrace then (some 248, .eeec)
    else if t.aon ≤ r.traceAt + s.holdSpec then (some (if r.isRoot then 7 else 135), .eeec)
    else (some (if r.isRoot then 140 else 165), .eeec)
  else (some 165, .dnu)

/-- A MASTER port sends Sync, Announce and ESMC messages (R111). -/
def State.ptpMasterSend (s : State) (n : Nat) : State :=
  if n < 2 ∧ s.gd.hasPtp ∧ s.ptpRole n = 1 then
    let m := s.masterClass
    s.updGd fun g => { g with ptpOut := [⟨n, false, m.1, m.2, g.com.time.counter⟩],
                              ref := { g.ref with classTx := Tab.put g.ref.classTx n (m.1.getD 0xFF) } }
  else s

/-- PTP_MASTER_SEND (R111). -/
def execPtpMasterSend (n : Nat) (s : State) : Outcome := .next (s.ptpMasterSend n)

/-- The first second boundary after an instant, in ns (R114). -/
def nextSecond (t : Time80) : Int := (t.toNs / 1000000000 + 1) * 1000000000

/-- A newly enabled output waits for STEPPED, then aligns by itself at the next second boundary (R114). -/
def State.outputFirstAlign (s : State) : State :=
  match s.gd.out.firstAt with
  | some t =>
    if s.outEnabled ∧ s.gd.com.time.stepped ∧ !s.gd.out.aligned ∧ nextSecond t ≤ s.gd.com.time.counter.toNs then
      s.outputsAlign false
    else s
  | none => s

/-- OUTPUT_FIRST_ALIGN (R114). -/
def execOutputFirstAlign (s : State) : Outcome := .next s.outputFirstAlign

/-- OUT_REALIGN (R114): orders a realignment of the one output timebase (R479), where the outputs are there (R5). -/
def State.outRealign (s : State) : State :=
  if s.gdAbsent 0x2A4 then s.updCom .gd fun c => c.accessErr 1 0x2A4
  else s.updGd fun g => { g with out := { g.out with orderAt := some g.com.time.counter } }

/-- OUT_REALIGN (R114). -/
def execOutRealign (s : State) : Outcome := .next s.outRealign

/-- The first second boundary, in ns, that falls at least 2 ms after an order (R114, R327). -/
def boundaryAfter (order : Time80) : Int := (order.toNs + 2000000 + 999999999) / 1000000000 * 1000000000

/-- At that boundary the outputs shift by OUT_MISALIGN, a step since the order included (R114). -/
def State.outRealignApply (s : State) : State :=
  match s.gd.out.orderAt with
  | some o => if boundaryAfter o ≤ s.gd.com.time.counter.toNs then s.outputsAlign true else s
  | none => s

/-- OUT_REALIGN_APPLY (R114). -/
def execOutRealignApply (s : State) : Outcome := .next s.outRealignApply

/-- Some port, partner link or ring port offers a source with HOPS below 0xFF (R118). -/
def State.rootTimeSeen (s : State) : Bool :=
  (List.range 68).any fun p =>
    s.trained ⟨.gd, p⟩ && (s.src ⟨.gd, p⟩).timeOk && (s.src ⟨.gd, p⟩).senderHops < 0xFF

/-- A pod candidate whose election wait ends with no root source claims time root (R118): HOPS 0, its own locator,
QUALIFIED, without a step. -/
def State.rootClaim (s : State) : State :=
  let i := s.rootIndex (s.gd.locator.getD 0)
  match s.gd.ref.upLostAt with
  | some t =>
    if s.gd.role = some 2 ∧ s.gd.variant = .gd64x ∧ 2 ≤ i ∧ i ≤ 7 ∧ !s.gd.ref.isRoot ∧ s.gd.com.time.stepped
        ∧ t + s.electWait + (i - 2) * 5000000 ≤ s.gd.com.time.aon ∧ !s.rootTimeSeen then
      (s.becomeRoot.updRef fun r => { r with elected := true }).logG .rootElected
    else s
  | none => s

/-- ROOT_CLAIM (R118). -/
def execRootClaim (s : State) : Outcome := .next s.rootClaim

/-- Loss of PCS lock at an Ethernet time port is a loss of its SyncE entry (R97). -/
def execRefPcsLockLoss (n : Nat) (s : State) : Outcome := 
  .next (if n < 2 ∧ s.refPresent (n + 7) then
      (s.updRefSrc (n + 7) fun v => { v with pcsLost := true }).refFault (n + 7) 0x8
    else s)

/-- The frequency measured over 1 s against the counter rate (R97): beyond REF_FREQ_LIMIT it is a fault; in FREQ_LOCK
the selected entry's frequency is the rate to steer to (R108). -/
def State.refFreqMeasure (s : State) (src : Nat) (dev : Int) : State :=
  let watched : Bool := (1 ≤ src ∧ src ≤ 4 ∧ s.refMode (src - 1) = 2) ∨ src = 7 ∨ src = 8
  if watched ∧ s.refPresent src then
    let aon := s.gd.com.time.aon
    let s := (s.noteRate src dev).updRefSrc src fun v => { v with lastSeen := aon }
    if s.refFreqLimit < dev.natAbs then s.refFault src 0x40 else s.refGood src
  else s

/-- REF_FREQ_MEASURE (R97). -/
def execRefFreqMeasure (s0 : Nat) (deviationPpb : Int) (s : State) : Outcome :=
  .next (s.refFreqMeasure s0 deviationPpb)

end Sys2Proof.Machine
end

