-- ==== Sys2Proof/Machine/Serving.lean ====
section
/-! DEFINITION. Radio time, the slot calendar, sequence-table orders and the serving descriptor (R326 to R333, R340, R341,
R347 to R349). -/

namespace Sys2Proof.Machine

open Sys2Proof

/-! ## Radio time -/

/-- A write of RF_OFFSET or RF_FRAMES: the written values wait for their second boundary (R327). The distributor holds
them on a GD-64X only. -/
def State.rfOffsetWrite (s : State) (n : Node) (frames : Bool) (w : Word) : State :=
  let off := (match n with
    | .tsu => 0x640
    | .gd => 0x2C0) + (if frames then 4 else 0)
  if n = .gd ∧ s.gdAbsent off then s.updCom .gd fun c => c.accessErr 1 off
  else
    let s := s.setReg n off (w &&& (if frames then 0x3FF#32 else 0xFFFFFF#32))
    let base := off - (if frames then 4 else 0)
    let ns := min 9999999 (bitsOf (s.reg n base) 23 0)
    let fr := bitsOf (s.reg n (base + 4)) 9 0
    let now := s.now n
    s.updCom n fun c => { c with rfPend := some (ns, fr, now) }

/-- RF_OFFSET_WRITE (R327). -/
def execRfOffsetWrite (n : Node) (frames : Bool) (w : Word) (s : State) : Outcome := .next (s.rfOffsetWrite n frames w)

/-! ## The calendar -/

/-- Fields of a calendar entry (R328). -/
def CalEntry.mu (e : CalEntry) : Nat := beNat e.bytes 2 1 % 8
def CalEntry.flag (e : CalEntry) (i : Nat) : Bool := bitOf (beNat e.bytes 2 1) i
def CalEntry.slotNs (e : CalEntry) : Nat := 1000000 / 2 ^ e.mu
def CalEntry.lead (e : CalEntry) : Nat := beNat e.bytes 24 4 % 1048576
def CalEntry.doneDl (e : CalEntry) : Nat := beNat e.bytes 28 4
def CalEntry.tumbIx (e : CalEntry) : Nat := beNat e.bytes 32 2 % 4096
def CalEntry.doneIx (e : CalEntry) : Nat := beNat e.bytes 34 2 % 4096

/-- The slot of a frame fires (R328). -/
def CalEntry.fires (e : CalEntry) (slot : Nat) : Bool :=
  let j := slot % orOne (beNat e.bytes 3 1)
  (byteAt e.bytes (4 + j / 8)).getLsbD (j % 8)

/-- The slot boundary at or before an instant (R326). -/
def State.slotBoundary (s : State) (e : CalEntry) (x : Int) : Int :=
  x - radioNs s.tsu.com.rfFrames s.tsu.com.rfNs x % e.slotNs

/-- SFN and slot within the frame of a boundary (R326). -/
def State.slotName (s : State) (e : CalEntry) (b : Int) : Nat × Nat :=
  let r := radioNs s.tsu.com.rfFrames s.tsu.com.rfNs b
  ((r / 10000000 % 1024).toNat, (r % 10000000 / e.slotNs).toNat)

/-- CAL_PREP in ns (R355). -/
def State.calPrep (s : State) : Nat := clampNat 1 60 (bitsOf (s.reg .tsu 0x64C) 7 0) * 1000
/-- CLEAR_LEAD in ns (R355). -/
def State.clearLead (s : State) : Nat := clampNat 21 100 (bitsOf (s.reg .tsu 0x64C) 15 8) * 1000

/-- Update a calendar entry. -/
def State.updCal (s : State) (k : Nat) (f : CalEntry → CalEntry) : State :=
  s.updTsu fun t => { t with calendar := Tab.map t.calendar fun i v => if i = k then f v else v }

/-- The fields that SLOT and MISS records of a slot share (R332). -/
def State.slotRecord (s : State) (kind : Nat) (e : CalEntry) (b : Int) (code : ErrCode) (cause : Nat) : State :=
  let nm := s.slotName e b
  let s := s.logT code (srcSlice e.slice) 0 (some e.slice)
  s.writeRecord { s.blankRec kind e.slice with
    code := code.value, source := srcSlice e.slice, step16 := beNat e.bytes 0 2, index := e.tumbIx,
    t := BitVec.ofInt 32 (b - e.lead),
    detail := BitVec.ofNat 32 (nm.1 + nm.2 * 1024 + e.mu * 262144 + cause * 536870912) }

/-- A slot is not fired: its SLOT record, and MISSED grows (R332). -/
def State.slotMissed (s : State) (k : Nat) (e : CalEntry) (b : Int) (code : ErrCode) (cause : Nat) : State :=
  let s := (s.slotRecord 0x11 e b code cause).setEvt .tsu 0x650 0x200
  s.updCal k fun e => { e with missed := min (e.missed + 1) 0xFFFF, lastB := some b }

/-- The slot boundary whose calendar turn is due at an entry (R331). -/
def State.calDue (s : State) (e : CalEntry) : Option Int :=
  let b := s.slotBoundary e ((s.now .tsu).toNs + e.lead + s.calPrep)
  if e.flag 3 ∧ e.fires (s.slotName e b).2 ∧ ((e.lastB.map fun l => decide (l < b)).getD true) then some b else none

/-- Apply the calendar turn of a slot (R331). -/
def State.calFire (s : State) (k : Nat) (e : CalEntry) (b : Int) : State :=
  match s.findTumb e.slice 0 e.tumbIx with
  | none => s
  | some i =>
    match s.tumb? i with
    | none => s
    | some t =>
      let nm := s.slotName e b
      let tt := b - e.lead
      let tw := (tt % 4294967296).toNat
      let lanes := [beNat e.bytes 0 2, nm.1, nm.2, e.mu, tw / 65536, tw % 65536, e.missed, 0]
      let turns := (((s.findTumb e.slice 0 e.doneIx).bind s.tumb?).map (·.turns)).getD 0
      let r : Result :=
        { gen := t.gen, c := (s.now .tsu).toNs16, members := 1, latestDie := s.tsu.dieId.getD 0,
          latestNs := (s.now .tsu).ns32, short := false, t := some (Time80.ofNs (max 0 tt)), far := false,
          tRefused := .none, dropLate := ((s.armDesc t).map (·.drop)).getD false, calendar := true,
          step16 := BitVec.ofNat 16 (s.stepOf t.slice ((s.slice t.slice).imgTag true)), op := t.op, fmt := t.fmt,
          lanes := t.lanes, data := packLanes 2 lanes, alloc := [], first := 32, held := [], whole := true, rows := [],
          carried := [] }
      let s := s.updCal k fun e =>
        { e with missed := 0, lastB := some b,
                 checks := if e.flag 6 then e.checks ++ [(b, BitVec.ofInt 32 tt, turns)] else e.checks }
      s.turnApply i r

/-- CAL_TURN at T − CAL_PREP: one turn per tick, in ascending entry number; a slot that may not fire is reported; an
entry never fires twice within one slot length (R327, R331, R332). -/
def State.calTurn (s : State) (k : Nat) : State :=
  match Tab.get s.tsu.calendar k with
  | none => s
  | some e =>
    match s.calDue e with
    | none => s
    | some b =>
      if s.tsu.calTick ∨ s.tsu.calendar.any fun p => p.1 < k && (s.calDue p.2).isSome then s
      else if (e.lastB.map fun l => decide (b < l + e.slotNs)).getD false then s.slotMissed k e b .slotMissed 3
      else if !s.tsu.com.time.launchOk then s.slotMissed k e b .timeUnqualified 0
      else if e.flag 4 ∧ !s.tsu.com.time.info.traceable then s.slotMissed k e b .slotMissed 1
      else if (s.slice e.slice).state = .halted then s.slotMissed k e b .slotMissed 2
      else (s.updTsu fun t => { t with calTick := true }).calFire k e b

/-- CAL_TURN (R331). -/
def execCalTurn (entry : Nat) (s : State) : Outcome := .next (s.calTurn entry)

/-- A command that carries no work (R340). -/
def directCommand (work : Nat) (deadline : Word) (slice sgen : Nat) : Command :=
  { work, deadline, dclass := 0, slice, sgen, context := 0, fence := false, arvEntry := 0, arvSlot := 0, arvWeight := 0,
    arvEn := false, resEntry := 0, resGen := 0, step16 := 0 }

/-- CAL_HOLD at T − CLEAR_LEAD: a HOLD to every port of CLEAR_PORTSET (R331, R340). -/
def State.calHold (s : State) (k : Nat) : State :=
  match Tab.get s.tsu.calendar k with
  | none => s
  | some e =>
    let b := s.slotBoundary e ((s.now .tsu).toNs + e.lead + s.clearLead)
    let due := e.flag 3 && e.flag 5 && s.tsu.com.time.launchOk && e.fires (s.slotName e b).2 &&
      ((e.lastHold.map fun l => decide (l < b)).getD true) && decide (e.wrote ≤ b - e.lead - s.clearLead)
    if !due then s
    else
      let t : Word := BitVec.ofInt 32 (b - e.lead)
      let ports := (((s.slice e.slice).image.bind fun m => m.portsets[beNat e.bytes 36 1]?)).getD []
      let cmd := directCommand 0 t e.slice (s.slice e.slice).sgen
      let s := ports.foldl (fun (s : State) p => (s.present p cmd).updPort p fun q =>
        { q with hold := q.hold ++ [(e.slice, t)] }) s
      s.updCal k fun e => { e with lastHold := some b }

/-- CAL_HOLD (R331). -/
def execCalHold (entry : Nat) (s : State) : Outcome := .next (s.calHold entry)

/-- CAL_DONE_CHECK at B + DONE_DL: a slot whose DONE_TUMB has not turned since its calendar turn is a radio miss
(R333). -/
def State.calDoneCheck (s : State) (k : Nat) : State :=
  match Tab.get s.tsu.calendar k with
  | none => s
  | some e =>
    let now := (s.now .tsu).toNs
    let due := e.checks.filter fun c => decide (c.1 + e.doneDl ≤ now)
    let s := s.updCal k fun e => { e with checks := e.checks.filter fun c => !decide (c.1 + e.doneDl ≤ now) }
    let turns := (((s.findTumb e.slice 0 e.doneIx).bind s.tumb?).map (·.turns)).getD 0
    due.foldl (fun (s : State) (c : Int × Word × Nat) => if c.2.2 = turns then s.slotRecord 0x12 e c.1 .radioMiss 0 else s) s

/-- CAL_DONE_CHECK (R333). -/
def execCalDoneCheck (entry : Nat) (s : State) : Outcome := .next (s.calDoneCheck entry)

/-- Present RELEASE for a slice at a port (R340, R341). -/
def State.release (s : State) (p n : Nat) : State :=
  let cmd := directCommand 8 0 n 0
  (s.present p cmd).updPort p fun q => { q with hold := q.hold.filter fun h => h.1 ≠ n }

/-- CAL_RELEASE: after T, a port with a HOLD at which nothing of the slice has fired is released (R341). -/
def State.calRelease (s : State) (p : Nat) : State :=
  let now := (s.now .tsu).ns32
  ((s.port p).hold.filter fun h => decide (0 ≤ sdiff 32 now.toNat h.2.toNat) &&
      !((s.port p).fired.any fun f => f.cmd.slice = h.1)).foldl (fun s h => s.release p h.1) s

/-- CAL_RELEASE (R341). -/
def execCalRelease (port : Nat) (s : State) : Outcome := .next (s.calRelease port)

/-- Slots that a change of the radio offset skips at an entry: each is reported (R327, R332). -/
def State.rfSkip (s : State) (old : Nat × Nat) (k : Nat) (e : CalEntry) : State :=
  let x := (s.now .tsu).toNs + e.lead + s.calPrep
  let n0 := radioNs old.2 old.1 x / e.slotNs
  let b := s.slotBoundary e x
  let gap := (radioNs s.tsu.com.rfFrames s.tsu.com.rfNs x / e.slotNs - n0).toNat
  if !e.flag 3 then s
  else
    (List.range gap).foldl (fun s i =>
      let bi := b - ((gap - 1 - i : Nat) : Int) * e.slotNs
      if e.fires (s.slotName e bi).2 then
        match Tab.get s.tsu.calendar k with
        | some e => s.slotMissed k e bi .slotMissed 3
        | none => s
      else s) s

/-- RF_OFFSET_APPLY: at the first second boundary at least 2 ms after the write (R327). -/
def State.rfOffsetApply (s : State) (n : Node) : State :=
  match (s.com n).rfPend with
  | none => s
  | some (ns, fr, at_) =>
    if (s.now n).toNs < boundaryAfter at_ then s
    else
      let old := ((s.com n).rfNs, (s.com n).rfFrames)
      let s := s.updCom n fun c => { c with rfNs := ns, rfFrames := fr, rfPend := none }
      match n with
      | .gd => s
      | .tsu => s.tsu.calendar.foldl (fun s p => s.rfSkip old p.1 p.2) s

/-- RF_OFFSET_APPLY (R327). -/
def execRfOffsetApply (n : Node) (s : State) : Outcome := .next (s.rfOffsetApply n)

/-- The words of a byte string. -/
def wordsOf (b : List Byte) (n : Nat) : List Word := (List.range n).map fun i => BitVec.ofNat 32 (beNat b (4 * i) 4)

/-- Set consecutive words of a slice page. -/
def Slice.setWords (v : Slice) (off : Nat) (ws : List Word) : Slice :=
  { v with page := ws.zipIdx.foldl (fun p x => Tab.put p (off + 4 * x.2) x.1) v.page }

/-- A calendar entry of a slice's range (R463). -/
def Slice.ownsCal (v : Slice) (e : Nat) : Bool := v.calFirst ≤ e && e < v.calFirst + v.calQ

/-- A slice page touched another slice's entry (R379, R463). -/
def State.denied (s : State) (n off : Nat) : State :=
  (s.updCom .tsu fun c => c.accessErr 1 (0x10000 + 0x1000 * n + off)).logT .accessDenied (srcSlice n) 0 (some n)

/-- CAL_SELECT: a write of TSU_SP_CAL_SEL copies the entry into DATA; another slice's entry reads 0 (R463). -/
def State.calSelect (s : State) (n : Nat) (w : Word) : State :=
  s.spGuard n 0x180 fun s =>
    let k := w.toNat % 256
    let v := s.slice n
    let bytes := if v.ownsCal k then ((Tab.get s.tsu.calendar k).map (·.bytes)).getD [] else []
    let foreign := !v.ownsCal k && s.tsu.slices.any fun p => p.1 ≠ n && p.2.state ≠ .free && p.2.ownsCal k
    let s := s.updSlice n fun v =>
      { v with page := Tab.put v.page 0x180 (BitVec.ofNat 32 k) }.setWords 0x190 (wordsOf (padTo 48 bytes) 12)
    if foreign then s.denied n 0x180 else s

/-- CAL_SELECT (R463). -/
def execCalSelect (slice : Nat) (w : Word) (s : State) : Outcome := .next (s.calSelect slice w)

/-- The offending field of a calendar entry, if any (R329). -/
def State.calInvalid (s : State) (n k : Nat) (e : CalEntry) : Option Nat :=
  let plen := beNat e.bytes 3 1
  let good : Tumbler → Bool := fun t => !t.counted && t.mask = 0 && t.op = 0x05 && t.fmt = 0x02 && t.lanes = 8 &&
    (t.bound = none || t.bound = some k)
  if 4 < e.mu then some 2
  else if plen = 0 ∨ 10 * 2 ^ e.mu % plen ≠ 0 then some 3
  else if e.slotNs ≤ e.lead then some 24
  else if !((((s.findTumb n 0 e.tumbIx).bind s.tumb?).map good).getD false) then some 32
  else if e.flag 6 ∧ (s.findTumb n 0 e.doneIx).isNone then some 34
  else if e.flag 5 ∧ (((s.slice n).image.map (·.portsets.length)).getD 0) ≤ beNat e.bytes 36 1 then some 36
  else none

/-- WRITE of a calendar entry (R328 to R330). -/
def State.calWrite (s : State) (n : Nat) : State :=
  s.spGuard n 0x184 fun s =>
    let v := s.slice n
    let k := v.word 0x180 % 256
    let old := Tab.get s.tsu.calendar k
    let used := (s.tsu.calendar.filter fun p => p.2.slice = n).length
    let e : CalEntry := { slice := n, bytes := v.pageBytes 0x190 12, missed := 0, lastB := none, lastHold := none,
                          checks := [], wrote := (s.now .tsu).toNs }
    if old.isNone ∧ v.calQ ≤ used then s.spCode n 0x184 .calFull
    else if !v.ownsCal k then (s.denied n 0x184).updSlice n fun v => { v with codes := Tab.put v.codes 0x184 ErrCode.accessDenied.value }
    else match s.calInvalid n k e with
      | some off => s.spCode n 0x184 .calInvalid off
      | none =>
        let e' : CalEntry := match old with
          | some o => { e with missed := o.missed, lastB := o.lastB, lastHold := o.lastHold, checks := o.checks }
          | none => e
        let s := s.updTsu fun t =>
          { t with calendar := Tab.put t.calendar k e',
                   tumb := Tab.map t.tumb fun _ x => if x.bound = some k then { x with bound := none } else x }
        let s := match s.findTumb n 0 e.tumbIx with
          | some i => s.updTumb i fun t => { t with bound := some k }
          | none => s
        s.spCode n 0x184 .none

/-- CAL_WRITE (R329). -/
def execCalWrite (slice : Nat) (s : State) : Outcome := .next (s.calWrite slice)

/-! ## Serving -/

/-- The current step of a slice's serving (R304, R349). -/
def State.serveStep (s : State) (n : Nat) : Nat :=
  let v := s.slice n
  if v.serve.stepDom then ((v.bindings[v.serve.binding]?).map (·.step)).getD 0 else v.localStep

/-- SUBMIT of a sequence-table order (R348). -/
def State.seqOrderSubmit (s : State) (n : Nat) : State :=
  s.spGuard n 0x1F0 fun s =>
    let b := (s.slice n).pageBytes 0x1C0 12
    let o : SeqOrder := { slice := n, op := beNat b 0 1, row := beNat b 2 2 % 8192, eff := beNat b 4 8, image := b.drop 16 }
    let s := if o.eff ≤ s.serveStep n then s.logT .seqLate (srcSlice n) 0 (some n) else s
    if 64 ≤ s.tsu.orders.length then (s.spCode n 0x1F0 .none).grantAsk 3 n 0 (some o)
    else (s.updTsu fun t => { t with orders := insertOrder o t.orders }).spCode n 0x1F0 .none

/-- SEQ_ORDER_SUBMIT (R348). -/
def execSeqOrderSubmit (slice : Nat) (s : State) : Outcome := .next (s.seqOrderSubmit slice)

/-- The serving descriptor of a page (R463). -/
def Slice.serveWords (v : Slice) : Serve :=
  let w0 := v.word 0x200
  let w1 := v.word 0x204
  { en := bitOf w0 0, stepDom := bitOf w0 1, binding := bitsOf w0 5 2, stepTumb := bitsOf w0 17 6, finEn := bitOf w0 18,
    finDom := bitOf w0 19, finTumb := bitsOf w0 31 20, maxEntries := bitsOf w1 9 0, budget := bitsOf w1 31 16,
    starve := bitsOf (v.word 0x208) 7 0,
    listBase := v.word 0x210 * 4294967296 + bitsOf (v.word 0x20C) 31 14 * 16384 }

/-- A serving descriptor keeps the table of R349. -/
def State.serveOk (s : State) (n : Nat) (d : Serve) : Bool :=
  let v := s.slice n
  let tag := (v.bindings[d.binding]?).map (·.tag)
  let step := !d.stepDom || ((tag.bind s.domRec).map fun r => r.stepEn && r.stepTumb = d.stepTumb).getD false
  let fin := !d.finEn || (((v.nameTag d.finDom d.binding).bind fun g => (s.findTumb n g d.finTumb).bind s.tumb?).map fun t =>
    decide (t.op = 0x05 ∧ t.fmt = 0x02 ∧ t.lanes = 32)).getD false
  step && fin && 1 ≤ d.maxEntries && d.maxEntries ≤ 512 && 1 ≤ d.budget && 1 ≤ d.starve

/-- COMMIT of the serving descriptor (R349). -/
def State.serveCommit (s : State) (n : Nat) : State :=
  s.spGuard n 0x214 fun s =>
    let d := (s.slice n).serveWords
    if s.serveOk n d then (s.updSlice n fun v => { v with serve := d }).spCode n 0x214 .none
    else s.spCode n 0x214 .seqInvalid

/-- SERVE_COMMIT (R349). -/
def execServeCommit (slice : Nat) (s : State) : Outcome := .next (s.serveCommit slice)

end Sys2Proof.Machine
end

