-- ==== Sys2Proof/Machine/Slices.lean ====
section
/-! DEFINITION. Slices: creation, reset, destruction, domain bindings, orders through registers, the completion ring's
registers, the page filter and the conflict log (R357 to R378, R464). -/

namespace Sys2Proof.Machine

open Sys2Proof

/-- The slice that TSU_SLICE_SEL selects (R381). -/
def State.selSlice (s : State) : Nat := s.reg .tsu 0x680 % 64

/-- A word of the driver's window of a slice: TSU_SLICE_PASID, QUOTA and PORTS (R381). -/
def Slice.win (v : Slice) (off : Nat) : Nat := v.word (windowKey + off)

/-- The units of a pool of R359 less those the fuse map marks bad. -/
def State.poolSize (s : State) (pool : Nat) : Nat :=
  ([4096, 8192, 128, 256, 128, 128, 16].getD pool 0) - Tab.getD s.tsu.badUnits pool 0

/-- The quota of a pool in a slice. -/
def Slice.quota (v : Slice) (pool : Nat) : Nat :=
  [v.tumbQ, v.rowQ, v.dirQ, v.calQ, v.pageQ, v.scanQ, v.carryQ].getD pool 0

/-- The quotas that the window asks for, by pool (R381). -/
def Slice.wanted (v : Slice) : List Nat :=
  let w0 := v.win 0x690
  let w1 := v.win 0x694
  let w2 := v.win 0x698
  [bitsOf w0 12 0, bitsOf w0 29 16, bitsOf w1 7 0, bitsOf w1 16 8, bitsOf w1 31 24, bitsOf w2 7 0, bitsOf w2 12 8]

/-- The slices that are not FREE. -/
def State.liveSlices (s : State) : List (Nat × Slice) := s.tsu.slices.filter fun p => p.2.state ≠ .free

/-- The lowest unbroken range of `q` numbers below `size` that meets no given range (R463). -/
def freeRange (size q : Nat) (used : List (Nat × Nat)) : Option Nat :=
  ((0 :: used.map fun u => u.1 + u.2).filter fun a => a + q ≤ size &&
    used.all fun u => q = 0 || u.2 = 0 || a + q ≤ u.1 || u.1 + u.2 ≤ a).min?

/-- The ports of a window's mask, ascending (R362). -/
def Slice.maskPorts (v : Slice) : List Nat :=
  (List.range 32).flatMap fun w =>
    let m := v.win (0x700 + 4 * w)
    if m = 0 then [] else ((List.range 32).filter fun b => bitOf m b).map (32 * w + ·)

/-- The first pool a request does not fit into, with the row and calendar ranges it takes otherwise (R358, R359). -/
def State.poolCheck (s : State) (v : Slice) : Except Nat (Nat × Nat) :=
  let live := s.liveSlices.map (·.2)
  let short := (List.range 7).find? fun i => s.poolSize i < (live.map fun x => x.quota i).sum + v.wanted.getD i 0
  match short with
  | some i => .error i
  | none =>
    match freeRange (s.poolSize 1) (v.wanted.getD 1 0) (live.map fun x => (x.rowFirst, x.rowQ)),
        freeRange (s.poolSize 3) (v.wanted.getD 3 0) (live.map fun x => (x.calFirst, x.calQ)) with
    | some a, some b => .ok (a, b)
    | none, _ => .error 1
    | _, none => .error 3

/-- CREATE of the selected slice (R358). -/
def State.sliceCreate (s : State) : State :=
  let n := s.selSlice
  let v := s.slice n
  let pasid := bitsOf (v.win 0x68C) 19 0
  if v.state ≠ .free then s.logT .sliceState (srcSlice n) 0 (some n)
  else if s.liveSlices.any fun p => p.2.pasid = pasid then s.logT .pasidInUse (srcSlice n) 0 (some n)
  else match s.poolCheck v with
    | .error i => s.logT .poolEmpty (srcSlice n) i (some n)
    | .ok (row, cal) =>
      let q := v.wanted
      s.updSlice n fun v => { v with
        state := .active, sgen := (v.sgen + 1) % 256, pasid, dlogEn := bitOf (v.win 0x68C) 20, tumbQ := q.getD 0 0,
        rowQ := q.getD 1 0, dirQ := q.getD 2 0, calQ := q.getD 3 0, pageQ := q.getD 4 0, scanQ := q.getD 5 0,
        carryQ := q.getD 6 0, resMax := clampNat 1 32 (bitsOf (v.win 0x698) 21 16), ports := v.maskPorts,
        rowFirst := row, calFirst := cal, bindings := [], page := v.page.filter fun p => windowKey ≤ p.1, codes := [],
        image := none, pending := .none, imgBusy := false, refusal := 0, serve := Serve.reset, localStep := 0,
        held := [], abort := none, fence := none }

/-- SLICE_CREATE (R358). -/
def execSliceCreate (s : State) : Outcome := .next s.sliceCreate

/-- A slice reset, alone or as part of a DESTROY or of a wider reset (R364, R374, R380, R424). -/
def State.resetSlice (s : State) (n : Nat) (destroy : Bool) : State :=
  let v := s.slice n
  match v.state with
  | .free => s.logT .sliceState (srcSlice n) 0 (some n)
  | .resetting =>
    let s := if destroy then s.updSlice n fun v => { v with abort := v.abort.map fun a => { a with destroy := true } } else s
    s.updTsu fun t => { t with absorbed := min (t.absorbed + 1) 0xFFFF }
  | _ =>
    let o : Order := { verb := 0, ctx := none, sentence := 0, rank := 2, src := srcHost, seq := 0 }
    let losers := (s.tsu.tickOrders.filter fun r => r.slice = n && r.order.verb ≠ 0).map (·.order)
    let s := losers.foldl (fun (s : State) x => s.orderLoses n o x) s
    let doms := (v.abort.map (·.doms)).getD []
    let s := s.updTsu fun t => { t with tickOrders := (t.tickOrders.filter fun r => r.slice ≠ n) ++ [⟨n, o⟩] }
    s.abortSteps n o doms true destroy

/-- SLICE_RESET: a write of 1 to RESET (R374). -/
def execSliceReset (s : State) : Outcome := .next (s.resetSlice s.selSlice false)

/-- SLICE_DESTROY: a write of 1 to DESTROY (R364). -/
def execSliceDestroy (s : State) : Outcome := .next (s.resetSlice s.selSlice true)

/-- BIND of the tag in TSU_SLICE_BIND to the selected slice (R363). A domain that has opened is joined through SHADOW
where its shares were lost (R397, R425); one that has not waits for OPEN (R406). -/
def State.sliceBind (s : State) : State :=
  let n := s.selSlice
  let v := s.slice n
  let tag : BitVec 24 := BitVec.ofNat 24 (bitsOf (s.reg .tsu 0x69C) 23 0)
  let refuse : Nat → State := fun d => s.logT .bindRefused (srcSlice n) d (some n)
  let owner := s.sliceOf tag
  if v.state ≠ .active then refuse 4
  else if owner.isSome ∧ owner ≠ some n then refuse 1
  else if (s.domRec tag).isNone then refuse 2
  else if owner = some n then s
  else if 16 ≤ v.bindings.length then refuse 3
  else
    let m : MState := if s.tsu.shadowed.contains tag then .shadow
      else if s.tsu.opened.contains tag then .member else .waiting
    let b : Binding := { tag, mstate := m, step := 0, joinAt := 0, expelAt := none, lag := 0, trim := 0, run := 0,
                         abortId := 0, orderSeq := 0 }
    let s := s.updSlice n fun v => { v with bindings := v.bindings ++ [b] }
    if m = .shadow then s.joinSoon tag else s

/-- SLICE_BIND (R363). -/
def execSliceBind (s : State) : Outcome := .next s.sliceBind

/-- UNBIND of the tag in TSU_SLICE_BIND (R363); a tag that is not bound has no effect. -/
def State.sliceUnbind (s : State) : State :=
  let n := s.selSlice
  let tag : BitVec 24 := BitVec.ofNat 24 (bitsOf (s.reg .tsu 0x69C) 23 0)
  if (s.slice n).bindings.any fun b => b.tag = tag then s.unbind n tag else s

/-- SLICE_UNBIND (R363). -/
def execSliceUnbind (s : State) : Outcome := .next s.sliceUnbind

/-! ## Orders -/

/-- The order that a control word spells: CONTEXT, ALL and SENTENCE stand alike in TSU_ORDER_CTRL and TSU_SP_ORDER
(R381, R464). -/
def orderOf (verb w rank src seq : Nat) : Order :=
  { verb, ctx := if bitOf w 8 then none else some (bitsOf w 7 3), sentence := bitsOf w 23 16, rank, src, seq }

/-- GO of TSU_ORDER_CTRL for the selected slice, at rank 2 (R371, R381). -/
def State.hostOrder (s : State) (verb : Nat) : State :=
  let n := s.selSlice
  if (s.slice n).state = .free then s.logT .sliceState srcHost 0 (some n)
  else
    let q := (s.tsu.hostSeq + 1) % 65536
    (s.updTsu fun t => { t with hostSeq := q }).order n (orderOf verb (s.reg .tsu 0x6A0) 2 srcHost q)

/-- GO of TSU_SP_ORDER with DOMAIN = 0, at rank 4 (R371, R464). -/
def State.pageOrder (s : State) (n verb : Nat) : State :=
  s.spGuard n 0x040 fun s =>
    let q := ((s.slice n).orderSeq + 1) % 65536
    (s.updSlice n fun v => { v with orderSeq := q }).order n (orderOf verb ((s.slice n).word 0x040) 4 (srcSlice n) q)

/-- GO of an order with a verb: through the slice's page, or through the driver's TSU_ORDER_CTRL for the slice that
TSU_SLICE_SEL selects. -/
def State.regOrder (s : State) (slice : Nat) (page : Bool) (verb : Nat) : State :=
  if page then s.pageOrder slice verb else s.hostOrder verb

/-- ORDER_ABORT (R369). -/
def execOrderAbort (slice : Nat) (page : Bool) (s : State) : Outcome := .next (s.regOrder slice page 1)
/-- ORDER_FENCE (R369). -/
def execOrderFence (slice : Nat) (page : Bool) (s : State) : Outcome := .next (s.regOrder slice page 2)
/-- ORDER_STOP (R369). -/
def execOrderStop (slice : Nat) (page : Bool) (s : State) : Outcome := .next (s.regOrder slice page 3)
/-- ORDER_START (R369). -/
def execOrderStart (slice : Nat) (page : Bool) (s : State) : Outcome := .next (s.regOrder slice page 4)
/-- ORDER_RESUME (R369). -/
def execOrderResume (slice : Nat) (page : Bool) (s : State) : Outcome := .next (s.regOrder slice page 5)

/-- GO of TSU_SP_ORDER with DOMAIN = 1: a request toward the domain's top node (R464). -/
def State.domainRequestGo (s : State) (n : Nat) : State :=
  s.spGuard n 0x040 fun s =>
    let w := (s.slice n).word 0x040
    let verb := bitsOf w 2 0
    let q := ((s.slice n).orderSeq + 1) % 65536
    let s := s.updSlice n fun v => { v with orderSeq := q }
    match (s.slice n).bindings[bitsOf w 28 25]? with
    | some b =>
      if verb = 0 ∨ 5 < verb then s.logT .sliceState (srcSlice n) 0 (some n)
      else s.domainRequest n b.tag (orderOf verb w 4 (srcSlice n) q) 2
    | none => s.logT .sliceState (srcSlice n) 0 (some n)

/-- DOMAIN_REQUEST_GO (R464). -/
def execDomainRequestGo (slice : Nat) (s : State) : Outcome := .next (s.domainRequestGo slice)

/-- A frame that a TSU originates for a slice: ARRIVE, ABORT_DONE, ABORT or ORDER of a domain bound to it (R369). -/
def State.sliceFrame (s : State) (n : Nat) (f : Frame) : Bool :=
  [0x10, 0x0A, 0x09, 0x0C].contains f.type.toNat && (s.slice n).bindings.any fun b => b.tag = f.domain

/-- Nothing of a slice in FENCING is left, and its page log is visible (R369, R377). -/
def State.fenceClear (s : State) (n : Nat) : Bool :=
  s.tsu.arms.all (fun p => p.2.slice ≠ n) && s.tsu.launches.all (fun p => p.2.slice ≠ n) &&
    s.tsu.ports.all (fun p => p.2.staging.all fun e => e.cmd.slice ≠ n) &&
    s.tsu.nwWrites.all (fun w => w.kind ≠ .dlog || bitsOf (beNat w.data 0 8) 11 6 ≠ n) &&
    s.tsu.com.marks.all (fun m => !m.frames.any (s.sliceFrame n)) &&
    [0, 1].all fun l => !((s.link ⟨.tsu, l⟩).q1 ++ (s.link ⟨.tsu, l⟩).q2 ++ (s.link ⟨.tsu, l⟩).q3).any (s.sliceFrame n)

/-- FENCE_COMPLETE: the slice is FENCED, with the ORDER record of its FENCE (R369). -/
def State.fenceComplete (s : State) (n : Nat) : State :=
  match (s.slice n).fence with
  | some o =>
    if (s.slice n).state ≠ .fencing ∨ !s.fenceClear n then s
    else (s.updSlice n fun v => { v with state := .fenced, fence := none }).orderRecord n o .none
  | none => s

/-- FENCE_COMPLETE (R369). -/
def execFenceComplete (slice : Nat) (s : State) : Outcome := .next (s.fenceComplete slice)

/-! ## The completion ring and the logs -/

/-- CR_TAIL_WRITE: records consumed; held records move into the ring, and the vector is judged anew (R365, R366,
R456). -/
def State.crTailWrite (s : State) (n : Nat) (w : Word) : State :=
  s.spGuard n 0x030 fun s => ((s.updSlice n fun v => { v with crTail := w.toNat }).ringFlush n).ringVector n

/-- CR_TAIL_WRITE (R365). -/
def execCrTailWrite (slice : Nat) (w : Word) (s : State) : Outcome := .next (s.crTailWrite slice w)

/-- CR_CONFIG_WRITE: a write of CR_BASE or CR_SIZE takes effect only while CR_HEAD = CR_TAIL (R365). -/
def State.crConfigWrite (s : State) (n reg : Nat) (w : Word) : State :=
  if reg ≠ 0x020 ∧ reg ≠ 0x024 ∧ reg ≠ 0x028 then s
  else s.spGuard n reg fun s =>
    let v := s.slice n
    if v.crHead ≠ v.crTail then s.logT .sliceState (srcSlice n) 0 (some n)
    else s.updSlice n fun v => match reg with
      | 0x020 => { v with crBase := v.crBase / 4294967296 * 4294967296 + bitsOf w.toNat 31 12 * 4096 }
      | 0x024 => { v with crBase := w.toNat * 4294967296 + v.crBase % 4294967296 }
      | _ => { v with crSize := w.toNat % 32 }

/-- CR_CONFIG_WRITE (R365). -/
def execCrConfigWrite (slice reg : Nat) (w : Word) (s : State) : Outcome := .next (s.crConfigWrite slice reg w)

/-- FILTER_CLR (R377). -/
def execFilterClr (s : State) : Outcome := .next (s.updTsu fun t => { t with filter := [] })

/-- CONFLICT_POP (R373). -/
def execConflictPop (s : State) : Outcome := .next (s.updTsu fun t => { t with conflicts := t.conflicts.drop 1 })

end Sys2Proof.Machine
end

