-- ==== Sys2Proof/Machine/RegRead.lean ====
section
/-! DEFINITION. What every register of both register spaces reads as (R10 to R16, R65, R90, R146, R183, R213, R247,
R285, R324, R355, R381, R410, R432, R453 to R469, R471 to R488). A register reads as the sum of its read-only fields, which
the state gives, of its read-write fields and of its write-1-to-clear bits; write-only fields read 0. -/

namespace Sys2Proof.Machine

open Sys2Proof

/-- The codes of TSU_LANE_LSTAT (R183). -/
def LState.code : LState → Nat
  | .down => 0 | .pmdTrain => 1 | .blockLock => 2 | .frameLock => 3 | .ident => 4 | .up => 5

/-- Word `k` of a byte record (R11). -/
def recWord (b : List Byte) (k : Nat) : Nat := beNat b (4 * k) 4

/-- A number with a bit set for each listed index. -/
def bitSet (l : List Nat) : Nat := (l.map fun i => 2 ^ i).sum

/-- An unsigned field saturates at its width (R518). -/
def satNat (bits v : Nat) : Nat := min v (2 ^ bits - 1)

/-- An offset in units of 2^-16 ns as a signed word of 125 ps units (R65, R518). -/
def offsetWord (x : Int) : Nat := (satWord (roundAway x 8192)).toNat

/-! ## Registers that both nodes have -/

/-- SOURCE of GD_SERVO_STATUS (R476). -/
def State.servoSource (s : State) : Nat :=
  if s.gd.ref.isRoot then (if s.gd.ref.timeEntry.isSome || s.gd.ref.freqEntry.isSome then 6 else 0)
  else match s.gd.com.time.sel with
    | none => 0
    | some 64 => 1
    | some 65 => 2
    | some p => if p < 64 then 7 else if p = s.gd.partnerPort then 3 else if p = 66 then 4 else 5

/-- MODE of the servo status: a time root shows its reference state (R476). -/
def State.servoMode (s : State) (n : Node) : Nat :=
  if n = .gd && s.gd.ref.isRoot then
    match s.gd.ref.rstate with
    | .start => 0
    | .pulling => 1
    | .locked | .freqLock => 2
    | .freeRun => 3
    | .follow => (s.time n).mode.code
  else (s.time n).mode.code

/-- The read-only fields of the time counter's and the servo's registers (R65, R90). -/
def State.timeReg (s : State) (n : Node) (off : Nat) : Nat :=
  let t := s.time n
  match off with
  | 0x100 => t.counter.frac / 65536 * 65536
  | 0x104 => t.counter.ns
  | 0x108 => t.counter.sec % 4294967296
  | 0x10C => t.counter.sec / 4294967296
  | 0x110 => t.counter.ns32.toNat
  | 0x114 => t.addend % 4294967296
  | 0x118 => t.addend / 4294967296 % 16
  | 0x11C => t.tq.code + 8 * b2n t.launchOk + 16 * b2n t.stepped + 32 * b2n (n = .tsu && t.selLane = 1)
      + 64 * t.upTq.code + 256 * b2n (s.traceable n) + 65536 * t.epoch.toNat
  | 0x120 => 16777216 * b2n (n = .tsu && t.standalone)
  | 0x134 => t.info.utcOffset.toNat + 65536 * b2n t.info.utcValid + 131072 * b2n t.info.leap61 + 262144 * b2n t.info.leap59
  | 0x138 => offsetWord t.offset
  | 0x13C => (satWord (roundAway t.lastStep 4294967296)).toNat
  | 0x144 => s.servoMode n + 256 * t.switches + 65536 * (if t.stepped then s.ownHops n else t.hopsSent)
      + (if n = .gd then 4 * b2n ((t.sel.map fun p => decide (66 ≤ p)).getD false) + 8 * s.servoSource else 0)
  | 0x148 => (satWord (roundAway (t.integ * 1000000000000) 288230376151711744)).toNat
  | 0x14C => t.info.rootId % 1048576
  | _ => 0

/-- The time words of a lane or port: TSTAT, DELAY, OFFSET (R90). -/
def State.laneTime (s : State) (l : LinkId) (k : Nat) : Nat :=
  let v := s.src l
  match k with
  | 0 => b2n v.timeOk + 2 * b2n v.delayValid + 16 * v.senderTq.code + 64 * b2n (s.link l).fallback
      + 256 * v.senderEpoch.toNat + 65536 * satNat 8 v.senderHops + 16777216 * satNat 8 v.exchDrop
  | 1 => (satWord (roundAway (v.mean.num * 1000) (2 ^ v.mean.exp * 131072))).toNat
  | _ => offsetWord v.theta

/-- The link words of a lane or port: LSTAT, RS, REPLAY, DROP, CREDIT, NBR (R183). -/
def Link.reg (v : Link) (k : Nat) : Nat :=
  match k with
  | 0 => v.state.code + 8 * b2n v.fallback + 16 * (v.arch % 4) + 512 * (v.lastCause % 8) + 65536 * satNat 8 v.retrains
  | 1 => satNat 16 v.corrFrames + 65536 * satNat 16 v.uncorrFrames
  | 2 => satNat 16 v.naksSent + 65536 * satNat 16 v.replaysSent
  | 3 => satNat 16 v.malformed + 65536 * satNat 16 v.poisoned
  | 4 => satNat 8 v.cr1 + 256 * satNat 8 v.cr2 + 65536 * satNat 8 v.cr3
  | 5 => v.nbrLoc % 1048576 + 1048576 * (v.nbrPort % 64) + 2147483648 * b2n v.nbrValid
  | _ => 0

/-- A boot report record as its four register words (R415, R432). -/
def Report.word (r : Report) (k : Nat) : Nat :=
  match k with
  | 0 => r.unit % 256 * 16777216 + r.stage % 256 * 65536 + r.result % 256 * 256
  | 1 => r.code * 65536 + satNat 16 r.count
  | 2 => satNat 32 r.atUs
  | _ => r.detail.toNat

/-- The word of the oldest error-log entry; zeros of an empty log (R458). -/
def Common.logWord (c : Common) (k : Nat) : Nat := ((c.log.head?).map fun e => recWord (LogEntry.bytes e) k).getD 0

/-- SFN, subframe, slot at μ = 4 and RF_PENDING at the moment of the read (R326, R355). -/
def State.rfNow (s : State) (n : Node) : Nat :=
  let c := s.com n
  let r := radioNs c.rfFrames c.rfNs (s.now n).toNs
  (r / 10000000 % 1024).toNat + 1024 * (r % 10000000 / 1000000).toNat + 16384 * (r % 1000000 / 62500).toNat
    + 262144 * b2n c.rfPend.isSome

/-! ## The TSU -/

/-- The condition of vector 1 + n currently holds (R456). -/
def Slice.irqHolds (v : Slice) : Bool :=
  bitOf (v.word 0x034) 0 && decide (orOne (bitsOf (v.word 0x034) 15 8) ≤ (v.crHead + 4294967296 - v.crTail) % 4294967296)

/-- STAGE of R396: a unit whose launches are admitted and whose shares all count has none. -/
def State.rejoinStage (s : State) : Nat :=
  let has : MState → Bool := fun m => s.tsu.tumb.any fun p => decide (p.2.mstate = m)
  if !s.tsu.com.time.launchOk then
    if s.anyTrained .tsu && s.tsu.tree.isSome then 2 else 1
  else if has .joining then 4
  else if has .shadow then 3
  else 0

/-- The binding that TSU_REJOIN_SEL selects (R410). -/
def State.rejoinSel (s : State) : Option Binding :=
  let w := s.reg .tsu 0x784
  (s.slice (bitsOf w 5 0)).bindings[bitsOf w 11 8]?

/-- The fields of one region block (R146). -/
def State.regionReg (s : State) (r k : Nat) : Nat :=
  let g := s.region r
  match k with
  | 0 => b2n g.present + 2 * b2n g.ready + 4 * b2n g.fail + 16 * b2n g.clkRunning + 256 * g.armed.length
  | 1 => satNat 16 (delayPs g.delay).toNat
  | 2 => satNat 16 g.edges + 65536 * satNat 16 g.maxPeriod
  | 4 => satNat 8 g.slips + 256 * satNat 8 g.fenceMiss + 65536 * satNat 8 g.busRetry + 16777216 * satNat 8 g.late
  | _ => 0

/-- The regions of which something holds, as a bit mask. -/
def State.regionMask (s : State) (f : Region → Bool) : Nat := bitSet (regionIds.filter fun r => f (s.region r))

/-- An entry of the conflict log as its four words (R381). -/
def Conflict.word (c : Conflict) (k : Nat) : Nat :=
  match k with
  | 0 => c.slice % 64 + 64 * (c.winVerb % 8) + 512 * (c.loseVerb % 8) + 4096 * ((c.winRank - 1) % 4) + 16384 * ((c.loseRank - 1) % 4)
  | 1 => c.winSrc % 65536 + 65536 * (c.loseSrc % 65536)
  | 2 => c.winSeq % 65536 + 65536 * (c.loseSeq % 65536)
  | _ => c.ns32.toNat

/-- The read-only fields of the TSU's global registers from 0x000 to 0x0FF (R455 to R457). -/
def State.idReg (s : State) (off : Nat) : Nat :=
  match off with
  | 0x00 => 0x4B470A01
  | 0x04 => 0x0100 + s.tsu.fuseRev % 16 * 1048576
  | 0x08 => s.poolSize 0 + 8192 * s.poolSize 1
  | 0x0C => s.poolSize 2 + 256 * s.poolSize 3 + 131072 * s.poolSize 4
  | 0x10 => s.poolSize 5 + 256 * s.poolSize 6 + 8192 * 32 + 524288 * 64
  | 0x14 => (1024 - (s.tsu.badPorts.filter (· < 1024)).length) + 2048 * (regionIds.filter fun r => (s.region r).present).length
  | 0x48 => bitSet ((s.tsu.slices.filter fun p => p.1 < 32 && p.2.irqHolds).map (·.1))
  | 0x4C => bitSet ((s.tsu.slices.filter fun p => 32 ≤ p.1 && p.2.irqHolds).map fun p => p.1 - 32)
  | 0x54 => s.tsu.com.accAddr % 1048576
  | _ => 0

/-- The read-only fields of lanes, time buses, regions and links (R90, R146, R183). -/
def State.laneReg (s : State) (off : Nat) : Nat :=
  if 0x180 ≤ off ∧ off < 0x1C0 then
    let l : LinkId := ⟨.tsu, (off - 0x180) / 0x20⟩
    match off % 0x20 with
    | 0x00 => s.laneTime l 0
    | 0x04 => s.laneTime l 1
    | 0x08 => s.laneTime l 2
    | 0x10 => (BitVec.ofInt 32 (s.src l).asym).toNat
    | _ => 0
  else if 0x200 ≤ off ∧ off < 0x300 then s.regionReg ((off - 0x200) / 0x20) (off % 0x20 / 4)
  else if 0x320 ≤ off ∧ off < 0x360 then (s.link ⟨.tsu, (off - 0x320) / 0x20⟩).reg (off % 0x20 / 4)
  else match off with
    | 0x1C4 => s.regionMask (·.present) + 256 * s.regionMask (·.ready) + 65536 * s.regionMask (·.fail)
        + 16777216 * b2n (regionIds.all fun r => !(s.region r).present || (s.region r).everCal)
    | 0x1C8 => satNat 16 (delayPs s.tsu.lead).toNat
    | 0x1D0 => s.regionMask (fun g => g.fchg.isSome) + 256 * (s.tsu.fchgReason % 8)
    | 0x1D4 => s.tsu.fchgAt.toNat
    | 0x304 => b2n (s.trained ⟨.tsu, 0⟩) + 2 * b2n (s.trained ⟨.tsu, 1⟩) + 4 * b2n s.tsu.com.redunLost + 16 * b2n s.tsu.nbrMismatch
    | 0x308 => s.tsu.dieId.getD 0 % 262144 + 262144 * b2n s.tsu.dieId.isSome
    | _ => 0

/-- A context that holds a wait: on a turn, or for a staged launch (R198, R213). -/
def Block.waits : Block → Bool
  | .turn _ _ _ _ | .launch _ => true
  | _ => false

/-- The read-only fields of tumblers, error log, launches, combining and images (R213, R247, R285, R324, R458). -/
def State.workReg (s : State) (off : Nat) : Nat :=
  let t := s.tsu
  if 0x40C ≤ off ∧ off < 0x450 then (t.tumbView.getD ((off - 0x40C) / 4) 0).toNat
  else if 0x484 ≤ off ∧ off < 0x494 then t.com.logWord ((off - 0x484) / 4)
  else match off with
    | 0x404 => t.tumb.length + 65536 * ((t.contexts.filter fun p => p.2.block.waits).length + t.waits.length)
    | 0x480 => satNat 7 t.com.log.length + 65536 * satNat 16 t.com.logLost
    | 0x504 => t.arms.length
    | 0x508 => ((Tab.get t.sentDlat 0).map fun d => satNat 31 d.1 + 2147483648 * b2n d.2.1).getD 0
    | 0x50C => ((Tab.get t.sentDlat 1).map fun d => satNat 31 d.1 + 2147483648 * b2n d.2.1).getD 0
    | 0x510 => satNat 16 t.fired + 65536 * satNat 16 t.lateCount
    | 0x514 => (BitVec.ofInt 16 t.lastMargin).toNat + 65536 * (BitVec.ofInt 16 t.minMargin).toNat
    | 0x51C => b2n (t.slices.any fun p => p.2.abort.isSome) + 2 * (t.lastAbortSlice % 64) + 256 * satNat 24 t.lastAbortNs
    | 0x584 => (s.poolSize 5 - s.rowsUsed none) + 256 * (s.poolSize 6 - (t.tumb.filter fun p => p.2.carry.isSome).length)
    | 0x604 => (t.contexts.filter fun p => p.2.resident.isSome && decide (p.2.state ≠ .stopped ∧ p.2.state ≠ .halted)).length
        + 512 * b2n t.treePend.isSome
    | 0x608 => t.com.treeId.toNat
    | 0x60C => ((t.treePend.map TreeImage.id).getD 0).toNat
    | 0x610 => t.refusal
    | _ => 0

/-- The read-only fields of radio time, calendar, contexts and the sequence table (R355). -/
def State.serveReg (s : State) (off : Nat) : Nat :=
  let t := s.tsu
  match off with
  | 0x648 => s.rfNow .tsu
  | 0x650 => (t.calendar.filter fun p => p.2.flag 3).length
  | 0x658 => (t.contexts.filter fun p => p.2.resident.isSome).length + 64 * t.contexts.length + 65536 * satNat 16 t.evictions
  | 0x65C => satNat 16 t.swapLast + 65536 * satNat 16 t.swapMax
  | 0x664 => t.rows.length + 65536 * satNat 7 t.orders.length
  | _ => 0

/-- The read-only fields of the registers of slices, orders, logs, rejoining and stragglers, and the driver's window of the
selected slice (R381, R410). -/
def State.sliceReg (s : State) (off : Nat) : Nat :=
  let t := s.tsu
  let v := s.slice s.selSlice
  if 0x68C ≤ off ∧ off < 0x69C then v.win off
  else if 0x700 ≤ off ∧ off < 0x780 then v.win off
  else if 0x6A8 ≤ off ∧ off < 0x6B8 then ((t.conflicts.head?).map fun c => Conflict.word c ((off - 0x6A8) / 4)).getD 0
  else match off with
    | 0x688 => v.state.code + 16 * v.sgen + 4096 * v.bindings.length + 131072 * b2n v.ringLost + 16777216 * satNat 8 v.staleDrops
    | 0x6A4 => satNat 5 t.conflicts.length
    | 0x6C4 => t.dlogHead % 4294967296
    | 0x6CC => satNat 16 t.retries
    | 0x780 => s.rejoinStage + 8 * b2n (t.tumb.any fun p => decide (p.2.mstate = .expelled)) + 65536 * satNat 16 t.censusAnswered
    | 0x788 => (s.rejoinSel.map fun b => b.tag.toNat + 16777216 * b.mstate.code).getD 0
    | 0x78C => ((s.rejoinSel.map Binding.joinAt).getD 0 % 4294967296).toNat
    | 0x794 => (s.rejoinSel.map fun b => satNat 24 b.lag + 16777216 * satNat 8 b.trim).getD 0
    | _ => 0

/-- The read-only fields of boot, reset, reports, fuses, scrub, microcode and the debug window (R432, R459). -/
def State.bootReg (s : State) (off : Nat) : Nat :=
  let t := s.tsu
  let sel := t.reports[s.reg .tsu 0x7CC % 16]?
  if 0x7D0 ≤ off ∧ off < 0x7E0 then (sel.map fun r => Report.word r ((off - 0x7D0) / 4)).getD 0
  else if 0x800 ≤ off ∧ off < 0x880 then
    let w := (off - 0x800) / 4
    bitSet ((t.badPorts.filter fun p => p / 32 = w).map (· % 32))
  else if 0x890 ≤ off ∧ off < 0x8D0 then recWord t.dbg.2.2 ((off - 0x890) / 4)
  else match off with
    | 0x7C0 => t.boot.phase % 8 + 8 * b2n t.boot.failed + 16 * b2n (s.launchCapable .tsu) + 65536 * satNat 16 (t.boot.bootMs.getD 0)
    | 0x7C8 => b2n (t.ports.any (fun p => p.2.resetAt.isSome) || regionIds.any fun r => (s.region r).inReset)
        + 65536 * satNat 16 t.absorbed
    | 0x7CC => 16 * satNat 5 t.reports.length
    | 0x7E0 => s.regionMask (fun g => !g.present) + 256 * bitSet ([0, 1].filter fun l => (s.link ⟨.tsu, l⟩).fused) + 1024 * (t.fuseRev % 16)
    | 0x7E4 => satNat 6 t.fuseRepairs + 64 * satNat 6 t.fuseUnrepaired
    | 0x7E8 => 256 * satNat 8 t.scrubCorr + 131072 * (t.lastStore % 8)
    | 0x7EC => t.ucode % 65536 + 65536 * b2n t.ucodePend.isSome
    | 0x884 => b2n t.dbg.1 + 2 * (t.dbg.2.1 % 64)
    | _ => 0

/-- One byte of the selected result part of a slice page; bytes not held read 0 and a read never stalls (R463, R468). -/
def State.pageResByte (s : State) (n b : Nat) : Byte :=
  let w := (s.slice n).word 0x300
  let part := bitsOf w 18 17
  let slot := bitsOf w 24 19
  match ((s.named n w).bind s.tumb?) with
  | none => 0
  | some t => match t.result with
    | none => 0
    | some r => if (part = 1 ∨ part = 2) ∧ !t.mask.getLsbD slot then 0 else (r.portByte t part slot b).getD 0

/-- The CODE field of a group of a slice page (R463). -/
def Slice.codeField (v : Slice) (off : Nat) : Nat := Tab.getD v.codes off 0 * 65536

/-- The word at an offset of a slice page: the read-only fields with the read-write ones (R462 to R468). -/
def State.pageReg (s : State) (n off : Nat) : Nat :=
  let v := s.slice n
  let id := n % 64 + 64 * v.sgen + 16384 * v.state.code
  if v.state = .free then (if off = 0 then id else 0)
  else if 0x0E4 ≤ off ∧ off < 0x128 then (v.tumbView.getD ((off - 0x0E4) / 4) 0).toNat
  else if 0x250 ≤ off ∧ off < 0x290 then recWord v.view.2.2 ((off - 0x250) / 4)
  else if 0x800 ≤ off then beNat ((List.range 4).map fun i => s.pageResByte n (off - 0x800 + i)) 0 4
  else
    let step := (v.bindings[bitsOf (v.word 0x310) 3 0]?.map fun b => b.step).getD 0
    let active : Nat → Nat := fun k => 33554432 * b2n (Tab.get s.tsu.waits (4 * n + k)).isSome
    let imgId : Nat := ((v.image.map SchedImage.id).getD 0).toNat
    match off with
    | 0x000 => id
    | 0x004 => b2n v.lendEn
    | 0x008 => v.rowFirst % 16384 + 65536 * (v.calFirst % 256)
    | 0x00C => v.errCode + 65536 * satNat 16 v.errCount
    | 0x010 => v.errDetail % 4294967296
    | 0x020 => v.crBase % 4294967296
    | 0x024 => v.crBase / 4294967296
    | 0x028 => v.crSize
    | 0x02C => v.crHead % 4294967296
    | 0x030 => v.crTail % 4294967296
    | 0x044 => v.orderSeq % 65536
    | 0x06C => 2 * b2n v.arvBusy + 4 * b2n v.arvEarly + 8 * v.arvGen.toNat + v.codeField 0x06C
    | 0x08C => v.word off + active 0
    | 0x09C => v.word off + active 1
    | 0x0AC => v.word off + active 2
    | 0x0BC => v.word off + active 3
    | 0x0D0 => v.word off + v.codeField 0x0D0
    | 0x14C => 4 * b2n v.imgBusy + 8 * b2n (v.pending ≠ .none)
    | 0x150 => v.refusal
    | 0x154 => imgId
    | 0x184 => v.codeField 0x184
    | 0x1F0 => v.codeField 0x1F0
    | 0x214 => v.codeField 0x214
    | 0x244 => b2n v.view.1 + 2 * (v.view.2.1 % 64)
    | 0x314 => step % 4294967296
    | 0x318 => step / 4294967296
    | _ => v.word off

/-- The read-only fields of a global register of the TSU, by the block it stands in (R453). -/
def State.roTsu (s : State) (off : Nat) : Nat :=
  if off < 0x100 then s.idReg off
  else if off < 0x150 then s.timeReg .tsu off
  else if off < 0x400 then s.laneReg off
  else if off < 0x640 then s.workReg off
  else if off < 0x680 then s.serveReg off
  else if off < 0x7C0 then s.sliceReg off
  else if off < 0x900 then s.bootReg off
  else 0

/-- A register of the TSU reads as its fields stand (R12, R15, R453). -/
def State.readTsu (s : State) (off : Nat) : Word :=
  if s.tsuAbsent off then 0
  else if 0x10000 ≤ off then
    if off < 0x50000 then BitVec.ofNat 32 (s.pageReg ((off - 0x10000) / 0x1000) (off % 0x1000)) else 0
  else
    BitVec.ofNat 32 (s.roTsu off) ||| BitVec.ofNat 32 (s.reg .tsu off) ||| s.tsu.com.evtWord off

/-! ## The distributor -/

/-- Seconds left of the WTR of the entry that holds a source (R100, R478). -/
def State.wtrLeft (s : State) (src : Nat) : Nat :=
  match prioIds.find? fun i => s.prioSource i = src with
  | none => 0
  | some i =>
    let endAt := max (s.refSrc src).qualAt (Tab.getD s.gd.ref.wtrFrom i 0) + bitsOf (s.prioWord i) 27 16 * 1000000000
    satNat 12 (roundAway (endAt - s.aon .gd : Nat) 1000000000).toNat

/-- PORT_STATE of an Ethernet time port, from its role and its source (R96, R478). -/
def State.ptpState (s : State) (n : Nat) : Nat :=
  match s.ptpRole n with
  | 0 => 0
  | 1 => 2
  | 2 => 3
  | _ => if (s.refSrc (5 + n)).state = .qualified then 5 else if (s.refSrc (5 + n)).classRx = 0xFF then 1 else 4

/-- The read-only fields of the block of references, outputs and radio time; of a distributor outside a root priority table that
has entries the selector reads as in FOLLOW (R478, R479). -/
def State.refReg (s : State) (off : Nat) : Nat :=
  let r := s.gd.ref
  let root := decide (s.rootIndex (s.gd.locator.getD 0) < 8) || !((List.range 8).any fun i => bitOf (s.reg .gd (0x274 + 4 * i)) 31)
  if 0x228 ≤ off ∧ off < 0x248 then
    let x := s.refSrc ((off - 0x228) / 4 + 1)
    x.state.code + 4 * b2n x.far + 65536 * s.wtrLeft ((off - 0x228) / 4 + 1)
  else match off with
    | 0x26C =>
      if root then r.rstate.code + 8 * b2n r.isRoot + 16 * (r.timeEntry.getD 0) + 128 * b2n r.timeEntry.isSome
        + 256 * (r.freqEntry.getD 0) + 2048 * b2n r.freqEntry.isSome + 4096 * b2n r.allLost + 8192 * b2n r.elected
      else RState.code .follow
    | 0x270 => offsetWord r.offset
    | 0x29C => s.ptpState 0 + 256 * (s.refSrc 5).classRx + 65536 * Tab.getD r.classTx 0 0xFF
    | 0x2A0 => s.ptpState 1 + 256 * (s.refSrc 6).classRx + 65536 * Tab.getD r.classTx 1 0xFF
    | 0x2B8 => 2 * b2n s.gd.out.orderAt.isSome + 4 * b2n s.gd.out.aligned
    | 0x2BC => offsetWord (roundAway s.gd.out.misalign 65536)
    | 0x2C8 => s.rfNow .gd
    | _ => 0

/-- Downstream ports that the variant and the fuses leave (R418, R475). -/
def Gd.dportCount (g : Gd) : Nat := ((List.range 64).filter fun p => !g.portAbsent p).length

/-- SRAM_KIB: 32 MiB less the rows beyond the spares, whose size the spec does not give (R419, R475). -/
def Gd.sramKib (g : Gd) : Nat := if g.unrepaired = 0 then 32768 else Config.sramKib g.unrepaired % 65536

/-- The read-only fields of identity, chip status, access errors and error log (R475 to R477). -/
def State.gdIdReg (s : State) (off : Nat) : Nat :=
  let g := s.gd
  if 0x84 ≤ off ∧ off < 0x94 then g.com.logWord ((off - 0x84) / 4)
  else match off with
    | 0x00 => 0x4B470D01
    | 0x04 => 0x0100
    | 0x08 => g.variant.code + 4 * g.dportCount + 512 * (g.fabricMax % 16) + 8192 * b2n g.hasAlloc
        + 16384 * b2n (!bitOf g.unitDis 2 && g.variant ≠ .gd32e) + 32768 * b2n (!bitOf g.unitDis 3 && g.variant = .gd64x)
        + 65536 * b2n (!bitOf g.unitDis 4 && g.variant = .gd64x) + 131072 * b2n (g.hasJournal && !g.journal.failed) + 262144 * satNat 8 g.powerLimit
    | 0x0C => satNat 17 (65536 - g.lostSoft) + 131072 * satNat 8 (128 - g.lostScan)
    | 0x10 => g.sramKib
    | 0x14 => (if g.hasRole then g.role.getD 0 else 0) + 4 * b2n (g.hasRole && g.sideB) + 8 * b2n g.hasRole + 64 * b2n g.com.redunLost
    | 0x18 => g.locator.getD 0 % 1048576 + 1048576 * b2n g.locator.isSome
    | 0x54 => g.com.accAddr % 131072
    | 0x80 => satNat 8 g.com.log.length + 65536 * satNat 16 g.com.logLost
    | _ => 0

/-- The read-only fields of the tree image, abort, latency, soft-state and policy blocks (R480 to R483). -/
def State.gdWorkReg (s : State) (off : Nat) : Nat :=
  let g := s.gd
  if 0x538 ≤ off ∧ off < 0x554 then (g.softView.getD ((off - 0x538) / 4) 0).toNat
  else match off with
    | 0x400 => g.com.treeId.toNat
    | 0x404 => ((g.treePend.map TreeImage.id).getD 0).toNat
    | 0x408 => g.refusal
    | 0x40C => 8 * b2n g.treePend.isSome
    | 0x410 => g.wptr % 16777216
    | 0x504 => b2n (g.doms.any fun p => p.2.abortOpen && g.isTop p.2.dr) + 65536 * (g.abortLast.1 % 65536)
    | 0x508 => satNat 19 g.abortLast.2.1
    | 0x50C => satNat 19 g.abortLast.2.2.1
    | 0x510 => satNat 32 g.abortLast.2.2.2
    | 0x524 => (g.dlatView.getD 0 0).toNat
    | 0x528 => (g.dlatView.getD 1 0).toNat
    | 0x564 => b2n g.staged.valid + 2 * (g.staged.rule % 4) + 256 * (g.staged.experts % 512)
    | _ => 0

/-- The read-only fields of health, sides, census and journal (R484, R485). -/
def State.gdHealthReg (s : State) (off : Nat) : Nat :=
  let g := s.gd
  let h := s.healthOf (bitsOf (s.reg .gd 0x700) 2 0)
  let tag : BitVec 24 := BitVec.ofNat 24 (s.reg .gd 0x714)
  let rn : Nat := g.journal.recno
  if 0x820 ≤ off ∧ off < 0x860 then recWord (g.journal.view.getD []) ((off - 0x820) / 4)
  else match off with
    | 0x704 => if g.hasRole && g.role = some 0 then satNat 16 h.score + 65536 * b2n h.suspect + 131072 * b2n h.expelled else 0
    | 0x708 => if g.hasRole && g.role = some 2 then satNat 16 g.theta + 65536 * satNat 8 g.grantsAt.length else 0
    | 0x718 => ((s.dom? tag).map fun d => b2n (s.acts d.dr) + 2 * b2n (d.dr.sideB = g.sideB)).getD 0
        + 4 * b2n g.mirrorCurrent + 8 * b2n g.returnAt.isSome
    | 0x71C => (g.returnAt.getD 0 % 4294967296).toNat
    | 0x720 => bitSet ((Tab.keys g.childMoved).filter (· < 32))
    | 0x724 => bitSet (((Tab.keys g.childMoved).filter fun i => 32 ≤ i && i < 64).map fun i => i - 32)
    | 0x730 => b2n g.census.isSome + 2 * satNat 17 (g.doms.filter fun p => p.2.inCensus).length
    | 0x734 => g.censusLast.1 % 65536 + 65536 * satNat 16 g.censusLast.2
    | 0x800 => b2n g.journal.frozen
    | 0x804 => b2n g.journal.frozen + 2 * b2n g.journal.triggered + 4 * b2n g.journal.retraining + 65536 * satNat 16 g.journal.dropped
    | 0x808 => rn % 4294967296
    | 0x80C => rn / 4294967296 % 4294967296
    | 0x818 => g.journal.viewStat % 8
    | _ => 0

/-- One word of a firmware slot (R487). -/
def FwSlot.word (v : FwSlot) (k : Nat) : Nat :=
  if k = 0 then v.state.code + 256 * satNat 6 v.svn + 65536 * satNat 8 v.fmt + 16777216 * satNat 8 v.handover
  else if v.state = .empty then 0 else v.version.toNat

/-- Seconds until the running trial commits (R443, R487). -/
def State.trialLeft (s : State) : Nat :=
  if s.gd.fw.trial.isNone then 0
  else satNat 16 (roundAway (s.gd.fw.trialAt + orOne (bitsOf (s.reg .gd 0xA10) 31 16) * 1000000000 - s.aon .gd : Nat) 1000000000).toNat

/-- The read-only fields of boot, reports, reset, fuses, scrub, firmware and custody (R486, R487). -/
def State.gdBootReg (s : State) (off : Nat) : Nat :=
  let g := s.gd
  let bad : Nat → Nat → Nat := fun lo n => bitSet ((g.badPorts.filter fun p => lo ≤ p && p < lo + n).map fun p => p - lo)
  if 0x908 ≤ off ∧ off < 0x918 then
    (g.reports[s.reg .gd 0x904 % 32]?.map fun r => Report.word r ((off - 0x908) / 4)).getD 0
  else match off with
    | 0x900 => g.boot.phase % 16 + 16 * b2n g.boot.failed + 32 * b2n g.boot.tracking + 64 * b2n (s.launchCapable .gd)
        + 65536 * satNat 16 (g.boot.bootMs.getD 0)
    | 0x904 => 32 * satNat 6 g.reports.length
    | 0x920 => b2n (g.domRst ≠ []) + 2 * (g.lastCause % 8) + 65536 * satNat 16 g.absorbed
    | 0x924 => g.variant.code + 4 * (g.fabricMax % 16) + 64 * satNat 8 g.powerLimit + 16384 * (g.unitDis % 64)
        + 1048576 * bad 64 2 + 4194304 * bad 66 2
    | 0x928 => bad 0 32
    | 0x92C => bad 32 32
    | 0x930 => satNat 9 g.repairs + 65536 * satNat 9 g.unrepaired
    | 0x934 => 536870912 * b2n (g.blown ≠ [])
    | 0x93C => satNat 8 g.scrubCorr
    | 0xA00 => g.fw.slotA.word 0
    | 0xA04 => g.fw.slotA.word 1
    | 0xA08 => g.fw.slotB.word 0
    | 0xA0C => g.fw.slotB.word 1
    | 0xA14 => b2n g.fw.runB + 2 * b2n g.fw.trial.isSome + 4 * satNat 7 g.fw.floor + 65536 * s.trialLeft
    | 0xA18 => g.fw.refusal
    | 0xA1C => g.sealSt.code + 8 * b2n g.keysw + 16 * b2n g.loopOk + 32 * b2n g.button
    | 0xA20 => b2n g.ownerLock
    | _ => 0

/-- Two of the staged capacities of a policy set: CAP[2w] in [31:16], CAP[2w + 1] in [15:0] (R483). -/
def Policy.capWord (p : Policy) (w : Nat) : Nat := satNat 16 (p.caps.getD (2 * w) 0) * 65536 + satNat 16 (p.caps.getD (2 * w + 1) 0)

/-- The read-only fields of a port page (R488). -/
def State.portReg (s : State) (p k : Nat) : Nat :=
  let l : LinkId := ⟨.gd, p⟩
  let v := s.link l
  let x := s.src l
  match k with
  | 0x00 => b2n v.enabled + 2048 * b2n (66 ≤ p && s.gd.ringHeld)
  | 0x04 => v.reg 0 + 8192 * b2n v.excluded
      + 16384 * b2n (v.absent || (decide (p < 64) && s.gd.absent.contains (s.gd.childOfPort p))) + 32768 * b2n v.fused
  | 0x08 => v.reg 1
  | 0x0C => v.reg 2
  | 0x10 => v.reg 3
  | 0x14 => v.reg 4
  | 0x18 => v.reg 5
  | 0x20 => s.laneTime l 0
  | 0x24 => s.laneTime l 1
  | 0x28 => s.laneTime l 2
  | 0x2C => satNat 16 x.corrTx0 + 65536 * satNat 16 x.corrRx0
  | 0x30 => satNat 16 x.corrTx1 + 65536 * satNat 16 x.corrRx1
  | 0x34 => (BitVec.ofInt 32 x.asym).toNat
  | 0x38 => satNat 16 v.rxPipeNow + 65536 * satNat 16 v.txPipeNow
  | _ => 0

/-- The read-only fields of a register of the distributor, by the block it stands in (R472). -/
def State.roGd (s : State) (off : Nat) : Nat :=
  if off < 0x100 then s.gdIdReg off
  else if off < 0x150 then s.timeReg .gd off
  else if off < 0x400 then s.refReg off
  else if off < 0x700 then s.gdWorkReg off
  else if off < 0x900 then s.gdHealthReg off
  else if off < 0xC00 then s.gdBootReg off
  else if off < 0xE00 then (s.gd.softView.getD (7 + (off - 0xC00) / 4) 0).toNat
  else if off < 0x1000 then s.gd.staged.capWord ((off - 0xE00) / 4)
  else if 0x10000 ≤ off ∧ off < 0x14400 then s.portReg ((off - 0x10000) / 0x100) (off % 0x100)
  else 0

/-- The read-write bits of a register of the distributor that `rw` holds: of a port's CTRL all but EN, which the link
holds. -/
def State.rwGd (s : State) (off : Nat) : Nat :=
  if 0x10000 ≤ off ∧ off % 0x100 = 0 then bitsOf (s.reg .gd off) 10 5 * 32
  else if off = 0x800 then s.reg .gd off / 2 * 2
  else s.reg .gd off

/-- A register of the distributor reads as its fields stand; one of an absent unit reads 0 (R5, R12, R15, R472). -/
def State.readGd (s : State) (off : Nat) : Word :=
  if s.gdAbsent off then 0
  else BitVec.ofNat 32 (s.roGd off) ||| BitVec.ofNat 32 (s.rwGd off) ||| s.gd.com.evtWord off

/-- What a register of a node reads as. -/
def State.readReg (s : State) : Node → Nat → Word
  | .tsu => s.readTsu
  | .gd => s.readGd

/-! ## Reading a value wider than a word -/

/-- The values wider than 32 bits of the TSU's registers: the offset of the lowest word and the number of words
(R11, R65, R213, R381, R432, R456, R458, R463). -/
def wideTsu : List (Nat × Nat) :=
  [(0x048, 2), (0x100, 4), (0x114, 2), (0x128, 3), (0x41C, 2), (0x424, 2), (0x42C, 2), (0x434, 2), (0x484, 4), (0x6A8, 4),
   (0x6B8, 2), (0x7F0, 2)]

/-- Those of a slice page, by offset from the page (R462, R463). -/
def widePage : List (Nat × Nat) :=
  [(0x014, 2), (0x020, 2), (0x064, 2), (0x0F4, 2), (0x0FC, 2), (0x104, 2), (0x10C, 2), (0x140, 2), (0x20C, 2), (0x314, 2)]

/-- Those of the distributor (R472, R477, R482, R484 to R486). -/
def wideGd : List (Nat × Nat) := [(0x084, 4), (0x100, 4), (0x114, 2), (0x540, 2), (0x720, 2), (0x808, 2), (0x810, 2), (0x928, 2)]

/-- The wide value that a register belongs to: the offset of its lowest word and its words. -/
def wideOf (n : Node) (off : Nat) : Option (Nat × Nat) :=
  let has : Nat → Nat × Nat → Bool := fun o g => decide (g.1 ≤ o ∧ o < g.1 + 4 * g.2)
  match n with
  | .gd => wideGd.find? (has off)
  | .tsu =>
    if 0x10000 ≤ off then (widePage.find? (has (off % 0x1000))).map fun g => (off - off % 0x1000 + g.1, g.2)
    else wideTsu.find? (has off)

/-- The key of a word latched for a master (R11). -/
def latchKey (master off : Nat) : Nat := master * 1048576 + off

/-- A whole aligned read by a master: the low word of a wide value latches its upper words, an upper word returns what is
latched, and the highest one lets go of it (R11). -/
def State.readBy (s : State) (n : Node) (master off : Nat) : State :=
  let key := latchKey master
  let put : State → Word → State := fun s w => s.updCom n fun c => { c with rdata := w }
  match wideOf n off with
  | none => put s (s.readReg n off)
  | some (low, k) =>
    if off = low then
      let v := s.readReg n off
      let s := (List.range (k - 1)).foldl (fun (s : State) i =>
        let o := low + 4 * (i + 1)
        let w := s.readReg n o
        s.updCom n fun c => { c with latch := Tab.put c.latch (key o) w }) s
      put s v
    else
      let v := (Tab.get (s.com n).latch (key off)).getD (s.readReg n off)
      let s := if off = low + 4 * (k - 1) then
          (List.range k).foldl (fun (s : State) i => s.updCom n fun c => { c with latch := Tab.del c.latch (key (low + 4 * i)) }) s
        else s
      put s v

/-- A register read: one that is narrow or misaligned sets NARROW and returns 0 (R10). -/
def State.regRead (s : State) (n : Node) (acc : Access) (off : Nat) : State :=
  if acc.whole ∧ off % 4 = 0 then s.readBy n acc.master off
  else s.updCom n fun c => { c.accessErr 0 off with rdata := 0 }

end Sys2Proof.Machine
end

