-- ==== Sys2Proof/Machine/Registers.lean ====
section
/-! DEFINITION. Writes of register fields without a behaviour of their own, and the register maps' commands: error logs, the
debug window, the views of soft entries and latencies, interrupt vectors, reads (R10 to R17, R453 to R463, R471 to R488,
R511). -/

namespace Sys2Proof.Machine

open Sys2Proof

/-! ## Plain fields of the TSU -/

/-- The read-write bits of a global register of the TSU that have no behaviour of their own (R65, R90, R146, R183, R213, R247,
R285, R324, R355, R381, R410, R432, R456, R459). -/
def rwTsu (off : Nat) : Word :=
  if 0x200 ≤ off ∧ off < 0x300 ∧ off % 0x20 = 0x0C then 0x00FF0FFF
  else match off with
  | 0x044 => 0xFFFF
  | 0x120 => 0xFFFFFF
  | 0x128 => 0x3FFFFFFF
  | 0x12C => 0xFFFFFFFF
  | 0x130 => 0xFFFF
  | 0x140 => 0xFFFFFF
  | 0x18C => 0xFFFFFFFF
  | 0x1AC => 0xFFFFFFFF
  | 0x1C0 => 0xFF02
  | 0x1CC => 0xFFFFFF
  | 0x300 => 0x3F00
  | 0x400 => 0x1FFFFFFF
  | 0x500 => 0x1F
  | 0x518 => 0x3F
  | 0x580 => 0xFFFF
  | 0x600 => 0xFFFF
  | 0x64C => 0xFFFF
  | 0x654 => 0x3FFFFFF
  | 0x660 => 0xFFFF
  | 0x680 => 0x3F
  | 0x69C => 0xFFFFFF
  | 0x6A0 => 0xFF01FF
  | 0x6B8 => 0xFFFFF000
  | 0x6BC => 0xFFFFFFFF
  | 0x6C0 => 0xF
  | 0x6C8 => 0xFFFFFFFF
  | 0x784 => 0xF3F
  | 0x790 => 0xFFFFFF
  | 0x7C4 => 0x3BFF
  | 0x7CC => 0xF
  | 0x7E8 => 0xFF
  | 0x7F0 => 0xFFFFF000
  | 0x7F4 => 0xFFFFFFFF
  | 0x888 => 0x3FFFFFFF
  | _ => 0

/-- The write-1-to-clear bits of a global register of the TSU (the tables of `rwTsu`). -/
def w1cTsu (off : Nat) : Word :=
  if 0x200 ≤ off ∧ off < 0x300 ∧ off % 0x20 = 0 then 0x68
  else match off with
  | 0x040 => 0xFFFF
  | 0x050 => 0x7
  | 0x11C => 0x1E00
  | 0x180 => 0xC
  | 0x1A0 => 0xC
  | 0x1D0 => 0x800
  | 0x304 => 0x8
  | 0x320 => 0x11C0
  | 0x340 => 0x11C0
  | 0x404 => 0xE000
  | 0x480 => 0x80
  | 0x504 => 0x3E00
  | 0x584 => 0x1E000
  | 0x604 => 0x5C0
  | 0x650 => 0x600
  | 0x658 => 0x4000
  | 0x664 => 0xC000
  | 0x6A4 => 0x20
  | 0x6C0 => 0x20
  | 0x6CC => 0x10000
  | 0x780 => 0x30
  | 0x7C8 => 0x2
  | 0x7E8 => 0x10000
  | 0x7EC => 0x20000
  | 0x888 => 0x40000000
  | _ => 0

/-- The read-write bits of a slice page's register that have no behaviour of their own (R463 to R468). -/
def rwPage (off : Nat) : Word :=
  if 0x080 ≤ off ∧ off < 0x0C0 then (match off % 0x10 with
    | 0x0 => 0x7FFFF
    | 0xC => 0x3FFFF
    | _ => 0xFFFFFFFF)
  else if 0x0C0 ≤ off ∧ off < 0x0D0 then 0xFFFFFFFF
  else if 0x190 ≤ off ∧ off < 0x1F0 then 0xFFFFFFFF
  else match off with
  | 0x014 => 0xFFFFF000
  | 0x018 => 0xFFFFFFFF
  | 0x034 => 0xFF01
  | 0x040 => 0x1FFF01FF
  | 0x060 => 0x7FFFFFFF
  | 0x064 => 0xFFFFFFF8
  | 0x068 => 0xFFFFFFFF
  | 0x0D0 => 0xF
  | 0x0E0 => 0x1FFFF
  | 0x140 => 0xFFFFFFF0
  | 0x144 => 0xFFFFFFFF
  | 0x148 => 0x7FFFF
  | 0x200 => 0xFFFFFFFF
  | 0x204 => 0xFFFF03FF
  | 0x208 => 0xFF
  | 0x20C => 0xFFFFC000
  | 0x210 => 0xFFFFFFFF
  | 0x300 => 0x1FFFFFF
  | 0x310 => 0xF
  | _ => 0

/-- Store the read-write bits of a register: the other bits stay (R12, R15). -/
def State.storeBits (s : State) (n : Node) (off : Nat) (mask w : Word) : State :=
  if mask = 0 then s else s.setReg n off ((BitVec.ofNat 32 (s.reg n off) &&& ~~~ mask) ||| (w &&& mask))

/-- Clear the written bits of a register that are cleared by 1; a bit that an event sets in the same cycle stays set (R15,
R17). -/
def State.clearBits (s : State) (n : Node) (off : Nat) (mask w : Word) (same : Bool := false) : State :=
  if mask = 0 then s else s.updCom n fun c => c.clearWritten same off (w &&& mask)

/-- A write of the interrupt enables raises vector 0 where it makes the enabled status non-zero (R456). -/
def State.irqEdge (s0 s : State) (n : Node) : State :=
  if (s0.com n).irqActive = 0 ∧ (s.com n).irqActive ≠ 0 then s.updCom n fun c => c.raiseVector 0 else s

/-- Set a word of the driver's window of the selected slice; PASID and quotas only while it is FREE, page logging at any time
(R377, R381). -/
def State.windowWrite (s : State) (off : Nat) (w : Word) : State :=
  let n := s.selSlice
  let v := s.slice n
  let free := decide (v.state = .free)
  let mask : Word :=
    if 0x700 ≤ off then 0xFFFFFFFF
    else match off with
      | 0x68C => if free then 0x1FFFFF else 0x100000
      | 0x690 => if free then 0x3FFF1FFF else 0
      | 0x694 => if free then 0xFF01FFFF else 0
      | _ => if free then 0x3F1FFF else 0
  let word := (BitVec.ofNat 32 (v.win off) &&& ~~~ mask) ||| (w &&& mask)
  s.updSlice n fun v => { v with
    page := Tab.put v.page (windowKey + off) word, dlogEn := if off = 0x68C then bitOf word.toNat 20 else v.dlogEn }

/-- More than one of the given bits of a word is set. -/
def several (w : Word) (bits : List Nat) : Bool := decide (2 ≤ (bits.filter fun i => w.getLsbD i).length)

/-- A VERB field that is no verb of R369. -/
def noVerb (w : Word) : Bool := let v := w.toNat % 8; v = 0 || 5 < v

/-- A write of a global register of the TSU (R12, R15, R381, R457). -/
def State.tsuWrite (s : State) (off : Nat) (w : Word) (same : Bool := false) : State :=
  if (0x68C ≤ off ∧ off < 0x69C) ∨ (0x700 ≤ off ∧ off < 0x780) then s.windowWrite off w
  else if s.tsuAbsent off then s
  else match off with
    | 0x114 => if s.tsu.com.time.standalone then s.updTime .tsu fun t => { t with addendW0 := w } else s
    | 0x684 => if several w [0, 1, 2] then s.logT .sliceState srcHost 0 (some s.selSlice) else s
    | 0x688 => if bitOf w.toNat 17 then s.updSlice s.selSlice fun v => { v with ringLost := false } else s
    | 0x6A0 =>
      let s := s.storeBits .tsu off (rwTsu off) w
      if bitOf w.toNat 24 ∧ noVerb w then s.logT .sliceState srcHost 0 (some s.selSlice) else s
    | _ => ((s.storeBits .tsu off (rwTsu off) w).clearBits .tsu off (w1cTsu off) w same)

/-- A write of a register of a slice page (R462 to R466). -/
def State.pageWrite (s : State) (n off : Nat) (w : Word) : State :=
  s.spGuard n off fun s =>
    let put : State → State := fun s =>
      if rwPage off = 0 then s
      else s.updSlice n fun v => { v with
        page := Tab.put v.page off ((BitVec.ofNat 32 (v.word off) &&& ~~~ rwPage off) ||| (w &&& rwPage off)) }
    match off with
    | 0x004 => s.updSlice n fun v => { v with lendEn := bitOf w.toNat 0 }
    | 0x034 => (put s).ringVector n
    | 0x040 => if bitOf w.toNat 29 ∧ noVerb w then
        ((put s).updSlice n fun v => { v with orderSeq := (v.orderSeq + 1) % 65536 }).logT .sliceState (srcSlice n) 0 (some n)
      else put s
    | 0x044 => s.updSlice n fun v => { v with orderSeq := w.toNat % 65536 }
    | 0x0D0 => if several w [4, 5] then (put s).spCode n 0x0D0 .sliceState else put s
    | 0x0E0 =>
      let view := match s.named n w.toNat with
        | some e => s.tumbWords e
        | none => List.replicate 17 0
      (put s).updSlice n fun v => { v with tumbView := view }
    | 0x14C => if several w [0, 1] then s.logT .sliceState (srcSlice n) 0 (some n) else s
    | _ => put s

/-! ## Plain fields of the distributor -/

/-- The read-write bits of a register of the distributor that have no behaviour of their own, and those that need the key seal
(R473 to R488). -/
def rwGdMask (off : Nat) : Word × Word :=
  if 0x248 ≤ off ∧ off < 0x268 then (0, 0x0FFF03FF)
  else if 0x274 ≤ off ∧ off < 0x294 then (0, 0x800FFFFF)
  else if 0x218 ≤ off ∧ off < 0x228 then (0xFFFFFFFF, 0)
  else if 0x2AC ≤ off ∧ off < 0x2B8 then (0xFFFFFFFF, 0)
  else if 0x10000 ≤ off ∧ off < 0x14400 then (match off % 0x100 with
    | 0x00 => (0x7E0, 0)
    | 0x1C => (0xFFFF, 0)
    | _ => (0, 0))
  else match off with
  | 0x044 => (0x3FFFF, 0)
  | 0x120 => (0xFFFFFF, 0)
  | 0x140 => (0xFFFFFF, 0)
  | 0x200 => (0x7FFFFFFF, 0)
  | 0x204 => (0x3FFFFFFF, 0)
  | 0x208 => (0x7FFFFFF, 0)
  | 0x20C => (0x1FFFF, 0)
  | 0x210 => (0, 0xFFFF)
  | 0x214 => (0x0F0F0F0F, 0)
  | 0x294 => (0xFFFF0F, 0)
  | 0x298 => (0xFFFF0F, 0)
  | 0x2A4 => (0x3FF, 0)
  | 0x2A8 => (0x7FFFF, 0)
  | 0x418 => (0xFFFF, 0)
  | 0x500 => (0xFFFFFF, 0)
  | 0x514 => (0xFF01FF, 0)
  | 0x530 => (0xFFFFFF, 0)
  | 0x560 => (0xF, 0)
  | 0x700 => (0x7, 0)
  | 0x710 => (0xFFFF, 0)
  | 0x714 => (0xFFFFFF, 0)
  | 0x810 => (0xFFFFFFFF, 0)
  | 0x904 => (0x1F, 0)
  | 0x91C => (0xFFFFFF, 0)
  | 0x934 => (0x7F03, 0)
  | 0x938 => (0xFFFFF, 0)
  | 0xA10 => (0xFFFF000A, 0)
  | 0xA1C => (0, 0xFF0000)
  | _ => (0, 0)

/-- The write-1-to-clear bits of a register of the distributor (R475 to R488). -/
def w1cGd (off : Nat) : Word :=
  if 0x228 ≤ off ∧ off < 0x248 then 0xF8
  else if 0x10000 ≤ off ∧ off < 0x14400 then (match off % 0x100 with
    | 0x04 => 0x11C0
    | 0x20 => 0xC
    | _ => 0)
  else match off with
  | 0x014 => 0xB0
  | 0x040 => 0x3FFFF
  | 0x050 => 0x1F
  | 0x080 => 0x100
  | 0x11C => 0xE00
  | 0x26C => 0x4000
  | 0x2B8 => 0x1
  | 0x504 => 0x2
  | 0x708 => 0x1000000
  | 0x718 => 0x10
  | 0x730 => 0x40000
  | 0x804 => 0x8
  | 0x934 => 0x40000000
  | 0x93C => 0x300
  | 0xA1C => 0x40
  | _ => 0

/-- The staging copy with one word of its capacities replaced (R483). -/
def Policy.setCap (p : Policy) (k : Nat) (w : Word) : Policy :=
  let caps := p.caps ++ List.replicate (256 - p.caps.length) 0
  { p with caps := (caps.set (2 * k) (w.toNat / 65536)).set (2 * k + 1) (w.toNat % 65536) }

/-- A write of the plain fields of a register of the distributor: of an absent unit, ABSENT; of the fields that need the key
seal, only while it is open (R15, R474, R476, R478). -/
def State.gdPlain (s : State) (acc : Access) (off : Nat) (w : Word) : State :=
  if s.gdAbsent off then s.updCom .gd fun c => c.accessErr 1 off
  else if s.collides acc off then
    (s.clearBits .gd off (w1cGd off) w acc.same).updCom .gd fun c =>
      if rwGdMask off = (0, 0) then c else c.accessErr 3 off
  else if 0xE00 ≤ off ∧ off < 0x1000 then s.updGd fun g => { g with staged := g.staged.setCap ((off - 0xE00) / 4) w }
  else if (off = 0x294 ∨ off = 0x298) ∧ w.toNat % 4 = 3 ∧ 8 ≤ s.rootIndex (s.gd.locator.getD 0) then
    s.updCom .gd fun c => c.accessErr 4 off
  else
    let m := rwGdMask off
    let s := if m = (0, 0) then s else s.noteWrite acc off
    let s := ((s.storeBits .gd off m.1 w).clearBits .gd off (w1cGd off) w acc.same)
    let s := match off with
      | 0x410 => s.updGd fun g => { g with wptr := w.toNat % 16777216 / 4 * 4 }
      | 0x564 => s.updGd fun g => { g with staged := { g.staged with
          valid := bitOf w.toNat 0, rule := bitsOf w.toNat 2 1, experts := bitsOf w.toNat 16 8 } }
      | 0x214 => s.refsConfig
      | 0x294 => s.refsConfig
      | 0x298 => s.refsConfig
      | 0x2A4 => s.outputsDue
      | _ => s
    if m.2 = 0 then s
    else if s.gd.sealSt ≠ .opened then s.custodyRefused off
    else
      let s := s.storeBits .gd off m.2 w
      if 0x248 ≤ off ∧ off < 0x268 then
        (s.updRef fun r => { r with wtrFrom := Tab.put r.wtrFrom ((off - 0x248) / 4) s.gd.com.time.aon }).refSelect
      else s

/-- A register write (R10, R12, R15, R471): a narrow or misaligned one sets NARROW; the understudy has read access only. -/
def State.regWrite (s : State) (n : Node) (acc : Access) (off : Nat) (w : Word) : State :=
  if !acc.whole ∨ off % 4 ≠ 0 then s.updCom n fun c => c.accessErr 0 off
  else match n with
    | .tsu =>
      if 0x10000 ≤ off then (if off < 0x50000 then s.pageWrite ((off - 0x10000) / 0x1000) (off % 0x1000) w else s)
      else s.irqEdge (s.tsuWrite off w acc.same) .tsu
    | .gd => if acc.master = 2 ∨ s.lostToReset acc then s else s.irqEdge (s.gdPlain acc off w) .gd

/-- REGISTER_WRITE (R12). -/
def execRegisterWrite (n : Node) (acc : Access) (offset : Nat) (w : Word) (s : State) : Outcome :=
  .next (s.regWrite n acc offset w)

/-- LOW_WORD_LATCH_READ (R11). -/
def execLowWordLatchRead (n : Node) (acc : Access) (offset : Nat) (s : State) : Outcome := .next (s.regRead n acc offset)

/-! ## Error logs and interrupt vectors -/

/-- ERRLOG_POP: the oldest entry leaves the log (R458, R477). -/
def execErrlogPop (n : Node) (s : State) : Outcome := .next (s.updCom n fun c => { c with log := c.log.drop 1 })

/-- ERRLOG_CLEAR (R458, R477). -/
def execErrlogClear (n : Node) (s : State) : Outcome := .next (s.updCom n fun c => { c with log := [] })

/-- IRQ_EVENT_HANDSHAKE: the oldest queued vector of the TSU passes (R511). -/
def execIrqEventHandshake (s : State) : Outcome := .next (s.updCom .tsu fun c => { c with irq := c.irq.drop 1 })

/-! ## The debug window -/

/-- The 32 bytes of a command (R232). -/
def Command.bytes (c : Command) : List Byte :=
  let top : Nat := c.dclass % 4
  let v := ((((((((top * 64 + c.slice % 64) * 256 + c.sgen % 256) * 32 + c.context % 32) * 2 + b2n c.fence) * 4096
    + c.arvEntry % 4096) * 64 + c.arvSlot % 64) * 256 + c.arvWeight % 256) * 2 + b2n c.arvEn) * 4096 + c.resEntry % 4096
  let v := (v * 4 + c.resGen % 4) * 65536 + c.step16.toNat
  natBytes c.work 8 ++ natBytes c.deadline.toNat 4 ++ natBytes (v * 2 ^ 81) 20

/-- WAIT_GEN, WAITING and WAIT_ENTRY of a context (R460). -/
def State.ctxWait (s : State) (x : Ctx) : Nat × Bool × Nat :=
  match x.block with
  | .turn e g _ _ => (g.toNat, true, e)
  | .launch id => ((Tab.get s.tsu.launches id).map fun l => (l.gen.toNat, true, l.entry)).getD (0, false, 0)
  | _ => (0, false, 0)

/-- The 64 bytes of a context directory entry (R460). -/
def State.ctxBytes (s : State) (x : Ctx) : List Byte :=
  let w := s.ctxWait x
  padTo 64 (natBytes (x.state.code + 8 * b2n x.resident.isSome) 1 ++ natBytes x.slice 1 ++ natBytes x.sentence 1 ++ natBytes x.clause 1
    ++ x.dCtx.bytes ++ natBytes (w.1 + 4 * b2n w.2.1) 1 ++ natBytes (x.resident.getD 0) 1 ++ natBytes w.2.2 2
    ++ (x.topnd.getD Time80.zero).bytes ++ natBytes x.loop1 2 ++ natBytes x.loop2 2 ++ natBytes x.loop3 2
    ++ natBytes x.haltCode.value 2)

/-- The 32 bytes of an arm-table entry (R460). -/
def Arm.bytes (a : Arm) : List Byte :=
  padTo 32 (natBytes (1 + 2 * b2n a.late + 4 * b2n a.far) 1 ++ natBytes a.slice 1 ++ natBytes a.sgen 1 ++ natBytes (a.ctx % 32) 1
    ++ a.t.bytes ++ natBytes (a.t.frac / 65536) 2 ++ natBytes a.domain.toNat 3 ++ natBytes a.gen.toNat 1 ++ natBytes a.index 2
    ++ natBytes (bitSet (regionIds.filter fun r => a.slots.any fun x => x.1 = r)) 1 ++ natBytes 0 1 ++ natBytes a.c.toNat 4)

/-- The 16 bytes of a pending-arrival record (R460). -/
def PendArv.bytes (r : PendArv) : List Byte :=
  padTo 16 (natBytes r.entry 2 ++ natBytes r.slot 1 ++ natBytes r.slice 1 ++ natBytes r.deadline.toNat 4 ++ natBytes r.sgen 1
    ++ natBytes (b2n r.boosted.isSome + 2 * b2n r.stale) 1)

/-- The slice whose range holds a sequence row (R360, R463). -/
def State.rowOwner (s : State) (r : Nat) : Nat :=
  ((s.liveSlices.find? fun p => p.2.rowFirst ≤ r && r < p.2.rowFirst + p.2.rowQ).map (·.1)).getD 0

/-- The entry of a store with its owner and its bytes; none where the entry is not in use or there is no such store (R459). -/
def State.dbgEntry (s : State) (store index : Nat) : Option (Nat × List Byte) :=
  let t := s.tsu
  match store with
  | 1 => (Tab.get t.rows index).map fun r => (s.rowOwner index, SeqRow.bytes r)
  | 2 => (Tab.get t.calendar index).map fun e => (e.slice, e.bytes)
  | 3 => (Tab.get t.contexts index).map fun x => (x.slice, s.ctxBytes x)
  | 4 => (Tab.get t.arms index).map fun a => (a.slice, Arm.bytes a)
  | 5 => ((s.port (index / 4)).staging[index % 4]?).map fun g => (g.cmd.slice, Command.bytes g.cmd)
  | 6 => ((s.port (index / 8)).pend[index % 8]?).map fun r => (r.slice, PendArv.bytes r)
  | _ => none

/-- A write of TSU_DBG_SEL or of a page's TSU_SP_VIEW_SEL: the entry is snapshot; a page sees its own entries alone
(R459, R463). -/
def State.debugSnapshot (s : State) (slice : Option Nat) (w : Word) : State :=
  let e := s.dbgEntry (bitsOf w.toNat 2 0) (bitsOf w.toNat 28 16)
  match slice with
  | none =>
    (s.setReg .tsu 0x880 (w &&& 0x1FFF0007#32)).updTsu fun t =>
      { t with dbg := (e.map fun x => (true, x.1, padTo 64 x.2)).getD (false, 0, []) }
  | some n => s.spGuard n 0x240 fun s =>
      let put : (Bool × Nat × List Byte) → State := fun view =>
        s.updSlice n fun v => { v with page := Tab.put v.page 0x240 (w &&& 0x1FFF0007#32), view }
      match e with
      | none => put (false, 0, [])
      | some x => if x.1 = n then put (true, n, padTo 64 x.2) else (put (false, 0, [])).denied n 0x240

/-- DEBUG_SNAPSHOT (R459). -/
def execDebugSnapshot (slice : Option Nat) (w : Word) (s : State) : Outcome := .next (s.debugSnapshot slice w)

/-! ## Views of the distributor -/

/-- The bytes of GD_SOFT_DATA: the partial combined value; DESIGN CHOICE (log entry 116): once the entry has turned and holds no part of the next
generation, the latest completion time of the turned one in bytes 0 to 3 (R482). -/
def Soft.dataBytes (e : Soft) : List Byte :=
  match e.turnedNs with
  | none => e.partial
  | some ns => if e.parts = [] then natBytes ns.toNat 4 else (e.partial)

/-- The words of a soft entry's view, then the 128 of its data; a name with no entry gives zeros (R482). -/
def State.softWords (s : State) (tag : BitVec 24) (index : Nat) : List Word :=
  match s.dom? tag, s.soft? tag index with
  | some d, some e =>
    let w : Nat → Word := BitVec.ofNat 32
    let op : Nat := (e.desc.map fun x => x.1).getD 0
    let fmt : Nat := (e.desc.map fun x => x.2.1).getD 0
    let lanes : Nat := (e.desc.map fun x => x.2.2).getD 0
    [ w (1 + 2 * e.lastGen.toNat + 8 * b2n d.inCensus + 16 * b2n (s.gd.isTop d.dr) + 256 * (op % 256) + 65536 * (fmt % 256)),
      w (lanes % 512 + 65536 * satNat 16 e.dup),
      w (bitSet (e.marks.filter (· < 32))), w (bitSet ((e.marks.filter fun i => 32 ≤ i && i < 64).map fun i => i - 32)),
      w (satNat 19 e.members), w (e.latestDie % 262144), e.opened ] ++ wordsOf (padTo 512 e.dataBytes) 128
  | _, _ => List.replicate 135 0

/-- SOFT_SNAPSHOT: a write of GD_SOFT_SEL w1 (R482). -/
def execSoftSnapshot (w : Word) (s : State) : Outcome :=
  .next ((s.setReg .gd 0x534 (w &&& 0xFFF#32)).updGd fun g =>
    { g with softView := s.softWords (BitVec.ofNat 24 (s.reg .gd 0x530)) (w.toNat % 4096) })

/-- The two words of a domain's latency: D for a turn now at the top node, in ps, else DLAT (R218, R222, R481). -/
def State.dlatWords (s : State) (tag : BitVec 24) : State × List Word :=
  match s.dom? tag with
  | none => (s, [0, 0])
  | some d =>
    let top := s.gd.isTop d.dr
    let valid := s.dlatValid d
    let info : Word := BitVec.ofNat 32 ((s.worstTerm d).2 % 262144 + 262144 * b2n (top && !valid)
      + 524288 * b2n (s.dlatSlow d) + 1048576 * b2n top)
    let word : Nat → Word := fun v => BitVec.ofNat 32 (satNat 31 v + 2147483648 * b2n valid)
    if !top then (s, [word (s.gdDlat 64 d), info])
    else if !valid then (s, [word (d.dr.dBound * 1000), info])
    else
      let x := s.slotWait (s.now .gd).toNs16
      (x.1, [word (roundAway (x.2 + (s.worstTerm d).1 * 65536) 65536).toNat, info])

/-- DLAT_SNAPSHOT: a write of GD_DLAT_SEL (R481). -/
def execDlatSnapshot (w : Word) (s : State) : Outcome :=
  .next (
    let s := s.setReg .gd 0x520 (w &&& 0xFFFFFF#32)
    let x := s.dlatWords (BitVec.ofNat 24 w.toNat)
    x.1.updGd fun g => { g with dlatView := x.2 })

end Sys2Proof.Machine
end

