-- ==== Sys2Proof/Machine/Resets.lean ====
section
/-! DEFINITION. The commands of partial reset, port control, scrubbing and the temperature pin (R181, R419 to R428, R486,
R488, R508). -/

namespace Sys2Proof.Machine

open Sys2Proof

/-! ## The TSU -/

/-- A reset that falls on a unit already in reset at its level or wider is absorbed and counted (R424). -/
def State.absorb (s : State) : Node → State
  | .tsu => s.updTsu fun t => { t with absorbed := min (t.absorbed + 1) 0xFFFF }
  | .gd => s.updGd fun g => { g with absorbed := min (g.absorbed + 1) 0xFFFF }

/-- PORT_RST: a write of TSU_RESET_CTRL with PORT_RST resets a launch port; a port that names none is left (R22, R421,
R424, R432). -/
def State.portRst (s : State) (p : Nat) : State :=
  let s := s.setReg .tsu 0x7C4 (BitVec.ofNat 32 (s.reg .tsu 0x7C4 / 1024 * 1024 + p % 1024))
  if s.tsu.inReset ∨ (s.port p).resetAt.isSome then s.absorb .tsu
  else if s.isPort p then s.portReset p
  else s

/-- PORT_RST (R421). -/
def execPortRst (port : Nat) (s : State) : Outcome := .next (s.portRst port)

/-- PORT_RESET_END: LP_PORT_RESET falls after 64 ticks (R421). -/
def execPortResetEnd (port : Nat) (s : State) : Outcome :=
  .next (match (s.port port).resetAt with
    | some at_ => if at_ + 128 ≤ s.aon .tsu then s.updPort port fun q => { q with resetAt := none } else s
    | none => s)

/-- UNIT_RST (R421). -/
def execUnitRst (s : State) : Outcome := .next s.unitReset

/-! ## The distributor's ports and domains -/

/-- A port reset: the port goes DOWN with cause 0b110 and retrains, its class-3 frames absorbed; a chip held in reset
absorbs it (R423, R424). -/
def State.gdPortRst (s : State) (p : Nat) : State :=
  s.portPage p 0 fun s =>
    if !s.gd.powered ∨ s.gd.resetLow then s.absorb .gd
    else
      let k := s.link ⟨.gd, p⟩
      let lost := k.q3.length + (k.replay.filter fun e => e.frame.cls = 3).length
        + (s.gd.com.marks.filter fun m => m.port = p && m.cls = 3).length
      let s := s.updGd fun g => { g with absorbed := min (g.absorbed + lost) 0xFFFF }
      let s := s.updCom .gd fun c => { c with marks := c.marks.filter fun m => !(m.port = p && m.cls = 3) }
      s.retrain ⟨.gd, p⟩

/-- GD_PORT_RST (R423). -/
def execGdPortRst (port : Nat) (s : State) : Outcome := .next (s.gdPortRst port)

/-- A domain reset: the domain's soft entries, scan blocks and mirror marks go, and a census of the domain starts; arrivals
are absorbed until it has asked for resends (R389, R423, R424). -/
def State.domainRst (s : State) (tag : BitVec 24) : State :=
  let s := s.setReg .gd 0x91C (BitVec.ofNat 32 tag.toNat)
  if !s.gd.powered ∨ s.gd.resetLow ∨ s.gd.domRst.contains tag then s.absorb .gd
  else match s.dom? tag with
    | none => s
    | some _ =>
      (s.updGd fun g => { g with softs := g.softs.filter fun p => p.1 / 4096 ≠ tag.toNat,
                                 domRst := g.domRst ++ [tag] }).fullCensus (some [tag]) false

/-- DOMAIN_RST (R423). -/
def execDomainRst (tag : BitVec 24) (s : State) : Outcome := .next (s.domainRst tag)

/-! ## Port control -/

/-- RATE_RETRY_PERIOD in ns; 0 stops retries (R426, R480). -/
def State.ratePeriod (s : State) : Nat := bitsOf (s.reg .gd 0x418) 15 8 * 60000000000

/-- The child that a downstream port serves has another path UP: its cross or same-side port, or the partner link
(R426). -/
def State.otherPath (s : State) (p : Nat) : Bool :=
  let i := s.gd.childOfPort p
  let other := if p < s.gd.fan then s.gd.crossPort i else some i
  ((other.map fun q => q ≠ p && s.trained ⟨.gd, q⟩).getD false) || s.trained ⟨.gd, s.gd.partnerPort⟩

/-- RATE_RETRY_TIMER: once per RATE_RETRY_PERIOD a downstream port at fallback retries full rate while its child has
another path UP (R426). -/
def execRateRetryTimer (port : Nat) (s : State) : Outcome :=
  .next (
    let l : LinkId := ⟨.gd, port⟩
    if s.ratePeriod ≠ 0 ∧ (s.link l).attemptAt + s.ratePeriod ≤ s.aon .gd ∧ port < 64 ∧ s.trained l ∧ (s.link l).fallback ∧ s.otherPath port then s.retrain l else s)

/-- RATE_RETRY: the port goes DOWN and starts a cycle at full rate (R150, R488). -/
def execRateRetry (port : Nat) (s : State) : Outcome :=
  .next (s.portPage port 0 fun s => s.retrain ⟨.gd, port⟩)

/-- PORT_EN_WRITE: EN enables a declared port, or takes it DOWN; 1 on an undeclared port sets STATE (R154, R488). -/
def execPortEnWrite (port : Nat) (en : Bool) (s : State) : Outcome :=
  .next (s.portPage port 0 fun s =>
    let l : LinkId := ⟨.gd, port⟩
    if !en then s.linkOff l
    else if (s.link l).declared then s.linkOn l
    else s.updCom .gd fun c => c.accessErr 4 (0x10000 + 0x100 * port))

/-- RING_BYPASS_WRITE: the one bit of both lateral pages holds RING_BYPASS_N low; released, the pin goes high where the
lateral ports are enabled and none is fused bad (R181, R419, R488). -/
def execRingBypassWrite (v : Bool) (s : State) : Outcome :=
  .next (s.updGd fun g =>
    { g with ringHeld := v,
             ringLow := v || !g.hasRole || !g.portsOn || g.boot.failed || g.badPorts.any fun p => 66 ≤ p })

/-- THERM_N_ALARM: THERM_N is low from 110 °C, and high again below 105 °C; the distributor does nothing else (R508). -/
def execThermNAlarm (celsius : Int) (s : State) : Outcome :=
  .next (s.updGd fun g => { g with therm := if 110 ≤ celsius then true else if celsius < 105 then false else g.therm })

/-! ## Scrubbing -/

/-- The number of a store: LAST_STORE of TSU_SCRUB, or the detail at the distributor (R427, R432). -/
def storeNo : Store → Nat
  | .tumbler => 0 | .sequence => 1 | .sentence => 2 | .directory => 3 | .calendar => 4 | .scanRow => 5 | .carry => 6
  | .gdSoft => 0 | .gdImage => 1

/-- The node whose store it is. -/
def storeNode : Store → Node
  | .gdSoft => .gd | .gdImage => .gd
  | _ => .tsu

/-- A tumbler or its scan rows are lost: a domain share enters SHADOW and asks to join; a die-local tumbler is closed, its
waiters completing with ONE_STORE_UNCORR (R425, R428). -/
def State.lostTumbler (s : State) (e : Nat) : State :=
  match s.tumb? e with
  | none => s
  | some t =>
    if t.estate = .closing then s
    else if t.domain = 0 then (s.failWaiters e .storeUncorr).closeTumb e
    else if t.mstate = .expelled then s
    else
      let s := s.enterShadow e .shadow
      (s.updBinding t.slice t.domain fun b =>
        { b with mstate := if b.mstate = .expelled then .expelled else .shadow }).joinSoon t.domain

/-- A sequence-table row is lost: it is retired with a SEQ record that carries the code (R428). -/
def State.lostRow (s : State) (r : Nat) : State :=
  match s.tsu.slices.find? fun p => p.2.state ≠ .free && p.2.ownsRow r with
  | some p => (s.retireRow p.1 r (Config.lostT s.fresh) .storeUncorr).takeFresh
  | none => s

/-- A slice's sentence store is lost: its contexts halt, and the image must be reloaded (R428). -/
def State.lostImage (s : State) (n : Nat) : State :=
  let s := (s.tsu.contexts.filter fun p => p.2.slice = n && p.2.state ≠ .stopped).foldl
    (fun (s : State) p => s.ctxHalt p.1 .storeUncorr) s
  s.updSlice n fun v => { v with image := none }

/-- A calendar entry is lost: it is disabled, and a SLOT record carries the code (R428). -/
def State.lostCal (s : State) (k : Nat) : State :=
  match Tab.get s.tsu.calendar k with
  | none => s
  | some e =>
    let s := s.updCal k fun e => { e with bytes := e.bytes.set 2 (byteAt e.bytes 2 &&& 0xF7) }
    (s.writeRecord { s.blankRec 0x11 e.slice with
      code := ErrCode.value .storeUncorr, source := srcSlice e.slice, step16 := beNat e.bytes 0 2, index := e.tumbIx,
      t := Config.lostT s.fresh, detail := Config.lostDetail s.fresh }).takeFresh

/-- What the loss of a line does, by store and key: the entry, the row, the slice of an image, the context; at the
distributor the soft entry, or 0 where the second copy is good (R427, R428). -/
def State.lineLost (s : State) (st : Store) (key : Nat) : State :=
  match st with
  | .tumbler => s.lostTumbler key
  | .scanRow => s.lostTumbler key
  | .sequence => s.lostRow key
  | .sentence => s.lostImage key
  | .directory => s.ctxHalt key .storeUncorr
  | .calendar => s.lostCal key
  | .carry => s.updTumb key fun t => { t with carry := none }
  | .gdSoft =>
    let tag : BitVec 24 := BitVec.ofNat 24 (key / 4096)
    let s := s.updGd fun g => { g with softs := Tab.del g.softs key }
    if (s.dom? tag).isSome then s.fullCensus (some [tag]) false else s
  | .gdImage => if key = 0 then s.setEvt .gd 0x93C 0x200 else s.chipReset 4

/-- A line is scrubbed: a corrected one is counted, an uncorrectable one recorded, with the store as detail (R427,
R428). -/
def State.scrubLine (s : State) (st : Store) (key : Nat) (found : LineState) : State :=
  match found with
  | .clean => s
  | .corrected => match storeNode st with
    | .tsu => s.updTsu fun t => { t with scrubCorr := min (t.scrubCorr + 1) 0xFF }
    | .gd => s.updGd fun g => { g with scrubCorr := min (g.scrubCorr + 1) 0xFF }
  | .uncorrectable =>
    let s := s.log (storeNode st) .storeUncorr 0 (storeNo st)
    let s := match storeNode st with
      | .tsu => s.updTsu fun t => { t with lastStore := storeNo st }
      | .gd => s
    s.lineLost st key

/-- SCRUB_LINE (R427, R428). -/
def execScrubLine (st : Store) (key : Nat) (found : LineState) (s : State) : Outcome :=
  .next (s.scrubLine st key found)

end Sys2Proof.Machine
end

