-- ==== Sys2Proof/Machine/TimeCounter.lean ====
section
/-! DEFINITION. The time counter's commands: tick, step, time-domain reset, standalone operation, addend, PLL,
power-on of the time domain, forced re-step, quality transitions, flywheel limit and leap second (R35 to R65, R85). -/

namespace Sys2Proof.Machine

open Sys2Proof

/-- The addend step that REF_ACCEL allows on this tick, in units of 2^-32 ns per tick, with the fraction carried
on in units of 10^-15 (R105, R109). -/
def State.rampMove (s : State) : Nat × Nat :=
  let acc := s.gd.ref.rampAcc + s.refAccel * 17179869184
  (acc / 1000000000000000, acc % 1000000000000000)

/-- The addend of a time root on a tick: the ramp to nominal of FREE_RUN (R109), the ramp to a frequency entry's
rate (R108), or the slew of R105, which the limits of R102 bound and whose course the spec leaves open. -/
def State.rootTick (s : State) : State :=
  let r := s.gd.ref
  let a : Int := s.gd.com.time.addend
  let m := s.rampMove
  let toward : Int → Int := fun goal => clampInt (a - m.1) (a + m.1) goal
  let put : State → Int → State := fun s v =>
    (s.updTime .gd fun t => { t with addend := clampAddend v }).updGd fun g =>
      { g with ref := { g.ref with rampAcc := m.2 } }
  if r.isRoot then
    match r.rstate with
    | .freeRun => put s (toward addendNominal)
    | .freqLock => put s (toward r.tracked)
    | .pulling =>
      if (r.timeEntry.bind fun e => (Tab.getD r.srcs (bitsOf (s.reg .gd (0x248 + 4 * e)) 3 0) RefSrc.reset).filtered).isSome then
        let w : Int := s.refSlew * 8589934592 / 1000000
        let goal := clampInt (r.tracked - w) (r.tracked + w) (Config.rootSlewAddend s.fresh)
        put s.takeFresh (toward goal)
      else s
    | _ => s
  else s

/-- The TIME80 held in TSU_TIME_SET (R65). -/
def State.timeSet (s : State) : Time80 :=
  ⟨bitsOf (s.reg .tsu 0x130) 15 0 * 4294967296 + s.reg .tsu 0x12C, bitsOf (s.reg .tsu 0x128) 29 0, 0⟩

/-- SET_COMMIT (R44, R64): step a standalone counter to TSU_TIME_SET, or set STEP_REFUSED with the first cause. -/
def State.setCommit (s : State) : State :=
  let refuse : ErrCode → State := fun c => (s.setEvt .tsu 0x11C 0x1000).logT c
  if !s.tsu.com.time.standalone ∨ s.tsu.com.time.stepped then refuse .timeStepRefused
  else if !s.timeSet.valid then refuse .timeInvalid
  else s.stepCounter .tsu s.timeSet

/-- A SET_COMMIT written together with TDRESET steps the counter on the tick that follows (R65). -/
def State.commitTick (s : State) : State :=
  if s.tsu.com.time.commitDue then (s.updTime .tsu fun t => { t with commitDue := false }).setCommit else s

/-- On each time-clock tick the counter adds the addend (R42); the time root's ramps act (R105, R108, R109); every
repeater's count adds its own addend (R128). The timing outputs follow the counter (R113). A stalled result read is answered once it can be (R266). What holds for one tick ends, and BOOT_MS is kept (R331, R372, R432). A time
domain held in power-on reset does not count (R509). -/
def State.timeClockTick (s : State) (n : Node) : State :=
  match n with
  | .tsu =>
    let s := ((s.updTsu fun t => { t with tickOrders := [], calTick := false }).cycleEnd .tsu).bootMsLatch .tsu
    let s := s.stallServe
    let run := s.tsu.com.time.pllLocked && !s.tsu.tdHeld
    let s := if s.tsu.tdHeld then s.updTime .tsu fun t => { t with aon := t.aon + 2 } else s.updTime .tsu TimeDom.tick
    let c := s.count64
    let aon := s.tsu.com.time.aon
    (if run then s.updRegions fun g => g.tick aon c else s).commitTick
  | .gd =>
    let before := s.timebase
    ((((s.cycleEnd .gd).bootMsLatch .gd).updTime .gd TimeDom.tick).rootTick).outputsTick before

/-- TIME_CLOCK_TICK (R42). -/
def execTimeClockTick (n : Node) (s : State) : Outcome := .next (s.timeClockTick n)

/-- SET_COMMIT (R44). -/
def execSetCommit (s : State) : Outcome := .next s.setCommit

/-- TDRESET (R46). A SET_COMMIT written together with it is applied after the reset: while STANDALONE = 1 on the following
tick, else at once, without effect on the counter (R65). -/
def State.tdreset (s : State) (commit : Bool) : State :=
  let s := s.timeDomainReset .tsu
  if !commit then s
  else if s.tsu.com.time.standalone then s.updTime .tsu fun t => { t with commitDue := true }
  else s.setCommit

/-- TDRESET (R46). -/
def execTdreset (n : Bool) (s : State) : Outcome := .next (s.tdreset n)

/-- STANDALONE (R64), accepted only in UNSET or LOCAL: setting it makes TQ LOCAL and takes time from no lane, clearing it
resets the time domain. -/
def State.standaloneWrite (s : State) (v : Bool) : State :=
  let t := s.tsu.com.time
  if t.tq = .unset ∨ t.tq = .loc then
    if v then s.updTimeQ .tsu fun t => { t with standalone := true, tq := .loc, mode := .idle, sel := none, upTq := .none }
    else if t.standalone then (s.updTime .tsu fun t => { t with standalone := false }).timeDomainReset .tsu
    else s
  else s

/-- STANDALONE_WRITE (R64). -/
def execStandaloneWrite (v : Bool) (s : State) : Outcome := .next (s.standaloneWrite v)

/-- ADDEND_COMMIT (R64, R65): a write to w1 commits it with the last w0, clamped, only while STANDALONE = 1. -/
def State.addendCommit (s : State) (w1 : Word) : State :=
  if s.tsu.com.time.standalone then
    s.updTime .tsu fun t =>
      { t with addend := clampAddend ((bitsOf w1.toNat 3 0 : Nat) * 4294967296 + t.addendW0.toNat) }
  else s

/-- ADDEND_COMMIT (R64). -/
def execAddendCommit (w1 : Word) (s : State) : Outcome :=
  .next ((s.addendCommit w1).addendWord s.tsu.com.time.addend)

/-- PLL_LOCK_LOSS (R46, R47): CLK_LOSS is set and the counter stands until the relock. -/
def State.pllLockLoss (s : State) (n : Node) : State :=
  (s.updTime n fun t => { t with pllLocked := false }).setEvt n 0x11C 0x200

/-- PLL_LOCK_LOSS (R46). -/
def execPllLockLoss (n : Node) (s : State) : Outcome := .next (s.pllLockLoss n)

/-- PLL_RELOCK (R47): the pending time-domain reset takes effect. -/
def State.pllRelock (s : State) (n : Node) : State :=
  if (s.time n).pllLocked then s
  else (s.updTime n fun t => { t with pllLocked := true }).timeDomainReset n

/-- PLL_RELOCK (R47). -/
def execPllRelock (n : Node) (s : State) : Outcome := .next (s.pllRelock n)

/-- The registers of the time domain (R65, R90, R146), whose fields only its power-on returns to reset. -/
def powerOnReg (n : Node) (off : Nat) : Bool :=
  match n with
  | .tsu => decide (0x100 ≤ off ∧ off < 0x300)
  | .gd => decide ((0x100 ≤ off ∧ off < 0x200) ∨ (0x10000 ≤ off ∧ 0x20 ≤ off % 0x100 ∧ off % 0x100 < 0x40))

/-- Power-on of the time domain: counter at zero, registers and sources at their reset values; links keep their
state, so a trained lane makes the node ACQUIRING; the buses calibrate (R46, R65, R125). The always-on clock
counts on. -/
def State.timeDomainPowerOn (s : State) (n : Node) : State :=
  let trained := s.anyTrained n
  let old := (s.time n).tq
  let s := if n = .tsu then s.dropDomainLaunches .timeUnqualified else s
  let s := s.updCom n fun c =>
    { c with time := { TimeDom.reset with aon := c.time.aon, tq := if trained then .acquiring else .unset },
             srcs := Tab.map c.srcs fun _ v =>
               { TimeSrc.reset with asym := v.asym, corrTx0 := v.corrTx0, corrRx0 := v.corrRx0,
                                    corrTx1 := v.corrTx1, corrRx1 := v.corrRx1, lastValid := c.time.aon },
             rw := List.filter (fun p => !powerOnReg n p.1) c.rw, evt := List.filter (fun p => !powerOnReg n p.1) c.evt }
  match n with
  | .tsu =>
    let s := s.updTsu fun t => { t with
      fchgAt := 0, fchgReason := 0, lead := 0,
      regions := Tab.map t.regions fun _ r => { Region.reset with present := r.present, turnaround := r.turnaround } }
    s.updRegions Region.startCal
  | .gd => ((s.updGd fun g => { g with out := Outputs.reset }).updRef fun r =>
      { r with rstate := .start, isRoot := false, elected := false, hold := none, everTrace := false }).noteChange (old ≠ s.gd.com.time.tq)

/-- TIME_DOMAIN_POWER_ON (R46): TSU_TD_POR_N no longer holds the TSU's time domain (R509). -/
def execTimeDomainPowerOn (n : Node) (s : State) : Outcome :=
  .next (if n = .tsu then (s.timeDomainPowerOn n).updTsu fun t => { t with tdHeld := false } else s.timeDomainPowerOn n)

/-- TD_POR_ASSERT: TSU_TD_POR_N low holds the time domain at its power-on state (R46, R509). -/
def execTdPorAssert (s : State) : Outcome :=
  .next ((s.timeDomainPowerOn .tsu).updTsu fun t => { t with tdHeld := true })

/-- RESTEP (R48): ordered at a distributor with the key seal open, it resets its time domain and raises its epoch
by one. A write that is not a whole word, or that finds the seal not open, has no such effect (R10, R15). -/
def State.restep (s : State) (acc : Access) : State :=
  s.gdWrite acc 0x124 true fun s =>
    (s.timeDomainReset .gd).updTime .gd fun t => { t with epoch := t.epoch + 1, epochSet := true }

/-- RESTEP (R48). -/
def execRestep (acc : Access) (s : State) : Outcome := .next (s.restep acc)

/-- The conditions of R55. -/
def State.qualMet (s : State) (n : Node) : Bool :=
  let t := s.time n
  t.stepped && (match t.sel with
    | some p => (s.src ⟨n, p⟩).delayValid
    | none => false)
  && t.upTq = .qualified && s.qualHold n ≤ t.inLimit

/-- LAUNCH_OK is set unless the lanes deliver different identifiers (R30, R60). -/
def State.qualify (s : State) (n : Node) : State :=
  let s := s.updTimeQ n fun t => { t with tq := .qualified, outLimit := 0 }
  match n with
  | .tsu => if s.tsu.nbrMismatch then s
            else (s.updTime .tsu fun t => { t with launchOk := true }).launchOkGained
  | .gd => s.updTime .gd fun t => { t with launchOk := true }

/-- QUAL_HOLD_MET (R55): a SETTLING or WITHDRAWN node becomes QUALIFIED and sets LAUNCH_OK. -/
def State.qualHoldMet (s : State) (n : Node) : State :=
  if s.qualMet n ∧ ((s.time n).tq = .settling ∨ (s.time n).tq = .withdrawn) then s.qualify n else s

/-- QUAL_HOLD_MET (R55). -/
def execQualHoldMet (n : Node) (s : State) : Outcome := .next (s.qualHoldMet n)

/-- QUAL_DROP_MET (R56): a QUALIFIED node out of QUAL_LIMIT for the drop falls to SETTLING; LAUNCH_OK stays. -/
def State.qualDropMet (s : State) (n : Node) : State :=
  let t := s.time n
  if t.tq = .qualified ∧ s.qualDrop n ≤ t.outLimit ∧ t.offset.natAbs ≤ 65536000 then
    s.updTimeQ n fun t => { t with tq := .settling, inLimit := 0 }
  else s

/-- QUAL_DROP_MET (R56). -/
def execQualDropMet (n : Node) (s : State) : Outcome := .next (s.qualDropMet n)

/-- FLYWHEEL_LIMIT (R58): after 100,000,000 ns on its own counter a flywheeling node enters WITHDRAWN. -/
def State.flywheelLimit (s : State) (n : Node) : State :=
  let t := s.time n
  match t.tq, t.flyAt with
  | .flywheel, some at0 =>
    if at0.toNs16 + 100000000 * 65536 ≤ t.counter.toNs16 then
      (s.updTime n fun t => { t with flyAt := none }).withdraw n
    else s
  | _, _ => s

/-- FLYWHEEL_LIMIT (R58). -/
def execFlywheelLimit (n : Node) (s : State) : Outcome := .next (s.flywheelLimit n)

/-- LEAP_SECOND_APPLY (R85): at LEAP_AT on its own counter a node takes UTC_NEXT and clears both flags. -/
def State.leapSecondApply (s : State) (n : Node) : State :=
  s.updTime n fun t =>
    if (t.info.leap61 ∨ t.info.leap59) ∧ t.info.leapAt.toNs ≤ t.counter.toNs then
      { t with info := { t.info with utcOffset := t.info.utcNext, leap61 := false, leap59 := false } }
    else t

/-- LEAP_SECOND_APPLY (R85). -/
def execLeapSecondApply (n : Node) (s : State) : Outcome := .next (s.leapSecondApply n)

end Sys2Proof.Machine
end

