-- ==== Sys2Proof/Machine/Trees.lean ====
section
/-! DEFINITION. The commands of tree images and policy sets (R274, R321, R480, R483). -/

namespace Sys2Proof.Machine

open Sys2Proof

/-! ## Policy sets -/

/-- A control of GD_POLICY_CTRL (R474, R483). -/
def State.policyDo (s : State) (f : Nat → Gd → Gd) : State :=
  if s.gd.hasAlloc then s.updGd (f (bitsOf (s.reg .gd 0x560) 3 0)) else s.updCom .gd fun c => c.accessErr 1 0x568

/-- POLICY_COMMIT: the staging copy is written into the live set; RULE 0b11 sets STATE and does nothing (R483). -/
def execPolicyCommit (s : State) : Outcome :=
  .next (if s.gd.hasAlloc ∧ s.gd.staged.rule = 3 then s.updCom .gd fun c => c.accessErr 4 0x568
         else let aon := s.aon .gd; s.policyDo fun n g => { g.hold aon with policies := Tab.put g.policies n g.staged })

/-- POLICY_LOAD: the live set is copied into the staging copy (R483). -/
def execPolicyLoad (s : State) : Outcome :=
  .next (s.policyDo fun n g => { g with staged := Tab.getD g.policies n ⟨false, 0, 0, []⟩ })

/-! ## Tree images -/

/-- TREE_IMAGE_ACTIVATE: a pending image becomes current at ACTIVATE_AT (R321, R322). -/
def execTreeImageActivate (n : Node) (s : State) : Outcome :=
  .next (match n with
    | .tsu => match s.tsu.treePend with
      | some t => if s.activateDue .tsu t then s.tsuActivate t else s
      | none => s
    | .gd => match s.gd.treePend with
      | some t => if s.activateDue .gd t then s.gdActivate t else s
      | none => s)

/-- The bytes that the pending-image buffer holds (R480). -/
def treeBufMax : Nat := 12582912

/-- Write a word of the buffer; 0, which an unlisted word reads as, is not listed. -/
def bufPut (m : Tab Word) (k : Nat) (w : Word) : Tab Word := if w = 0 then Tab.del m k else Tab.put m k w

/-- Read a word of the buffer. -/
def bufGet (m : Tab Word) (k : Nat) : Word := Tab.getD m k 0

/-- TREE_WDATA_WRITE: four image bytes at WPTR; beyond 12 MiB the write has no effect (R480). -/
def execTreeWdataWrite (w : Word) (s : State) : Outcome :=
  .next (s.updGd fun g =>
    if g.wptr + 4 ≤ treeBufMax then { g with treeBuf := bufPut g.treeBuf (g.wptr / 4) w, wptr := g.wptr + 4 } else g)

/-- A load at the hall root; elsewhere it has no effect and sets STATE (R480). -/
def State.rootLoad (s : State) (b : List Byte) : State :=
  if s.gd.rootSel then s.treeTake b false else s.updCom .gd fun c => c.accessErr 4 0x40C

/-- The image in the buffer: the bytes before WPTR (R480). -/
def Gd.bufBytes (g : Gd) : List Byte := (List.range (g.wptr / 4)).flatMap fun k => natBytes (bufGet g.treeBuf k).toNat 4

/-- LOAD_BUF (R480). -/
def execLoadBuf (s : State) : Outcome := .next (s.rootLoad s.gd.bufBytes)

/-- TREE_LOAD_CARD: the image that the flash card holds (R480). -/
def execTreeLoadCard (data : List Byte) (s : State) : Outcome := .next (s.rootLoad data)

end Sys2Proof.Machine
end

