-- ==== Sys2Proof/Machine/Mgmt.lean ====
section
/-! DEFINITION. The board management port: a transaction performs one register access with all that a write to the register
does (R471, R499). -/

namespace Sys2Proof.Machine

open Sys2Proof

/-- The state that an outcome leaves; a command that stops leaves the state as it was. -/
def State.after (s : State) (o : Outcome) : State :=
  match o with
  | .next t => t
  | _ => s

/-- The management port's access: a whole word. -/
def mgmtAcc : Access := ⟨1, true, false⟩

/-- What a written word orders in a port page, beside the fields it stores (R488). -/
def State.mgmtPort (s : State) (p k : Nat) (w : Word) : State :=
  let bit : Nat → Bool := fun i => bitOf w.toNat i
  let l : LinkId := ⟨.gd, p⟩
  if k ≠ 0 ∨ s.gd.portAbsent p then s
  else
    let s := if bit 0 = (s.link l).enabled then s else s.after (execPortEnWrite p (bit 0) s)
    let s := if 66 ≤ p then s.after (execRingBypassWrite (bit 11) s) else s
    let s := if bit 1 then s.after (execRetrain l s) else s
    let s := if bit 2 then s.after (execRateRetry p s) else s
    let s := if bit 3 then s.after (execCntClear l s) else s
    if bit 4 then s.after (execGdPortRst p s) else s

/-- What a written word orders at a register, beside the fields it stores: the behaviours that have commands of their own
(R48, R100, R114, R327, R423, R438 to R449, R480 to R487). The image or firmware that a card holds follows as an event of
its own. -/
def State.mgmtOrder (s : State) (off : Nat) (w : Word) : State :=
  let bit : Nat → Bool := fun i => bitOf w.toNat i
  if 0x10000 ≤ off then s.mgmtPort ((off - 0x10000) / 0x100) (off % 0x100) w
  else if s.gdAbsent off then s
  else match off with
    | 0x080 =>
      let s := if bit 9 then s.after (execErrlogPop .gd s) else s
      if bit 10 then s.after (execErrlogClear .gd s) else s
    | 0x124 => if bit 0 then s.restep mgmtAcc else s
    | 0x268 => s.forceEntryWrite mgmtAcc w
    | 0x2A4 => if bit 10 then s.after (execOutRealign s) else s
    | 0x2C0 => s.rfOffsetWrite .gd false w
    | 0x2C4 => s.rfOffsetWrite .gd true w
    | 0x40C =>
      let s := if bit 0 ∧ !s.gd.rootSel then s.updCom .gd fun c => c.accessErr 4 0x40C else s
      if bit 1 then s.after (execLoadBuf s) else s
    | 0x414 => s.after (execTreeWdataWrite w s)
    | 0x500 => s.gdAbortGo w
    | 0x514 => s.gdOrderGo w
    | 0x520 => s.after (execDlatSnapshot w s)
    | 0x534 => s.after (execSoftSnapshot w s)
    | 0x568 =>
      let s := if bit 0 then s.after (execPolicyCommit s) else s
      if bit 1 then s.after (execPolicyLoad s) else s
    | 0x704 => if bit 18 then s.after (execHealthClear s) else s
    | 0x800 => s.after (execJournalFreeze w s)
    | 0x814 => s.after (execJournalRead w s)
    | 0x918 =>
      let s := if bit 1 then s.domainRst (BitVec.ofNat 24 (s.reg .gd 0x91C)) else s
      if bit 0 then s.after (execChipRst s) else s
    | 0x934 => if bit 31 then s.after (execFuseBlow mgmtAcc s) else s
    | 0xA10 =>
      let s := if bit 2 then s.after (execFwActivate mgmtAcc s) else s
      let s := if bit 4 then s.after (execFwCommit mgmtAcc s) else s
      if bit 5 then s.after (execFwRevert mgmtAcc s) else s
    | 0xA20 => s.after (execOwnerLockWrite mgmtAcc w s)
    | _ => s

/-- A write through the management port: the plain fields, then what the word orders; a chip reset loses the rest of the write
(R489). -/
def State.mgmtWrite (s : State) (off : Nat) (w : Word) : State :=
  if off = 0x918 ∧ bitOf w.toNat 0 then s.mgmtOrder off w else (s.regWrite .gd mgmtAcc off w).mgmtOrder off w

/-- The register access of a transaction. -/
def State.mgmtAccess (s : State) (off : Nat) (op : SpiOp) : State :=
  match op with
  | .read => s.regRead .gd mgmtAcc off
  | .write w => s.mgmtWrite off w

/-- One transaction: the status byte is 0x5A where the access sets a flag of GD_ACCESS_ERR, be it set already, else 0xA5
(R499). -/
def State.mgmtTransaction (s : State) (off : Nat) (op : SpiOp) : State :=
  let probe := (s.updCom .gd fun c => c.clearEvt 0x50 0xFFFFFFFF#32).mgmtAccess off op
  let hit := decide (probe.gd.com.evtWord 0x50 ≠ 0)
  (s.mgmtAccess off op).updGd fun g => { g with spiStat := if hit then 0x5A else 0xA5 }

/-- MGMT_SPI_TRANSACTION: the offset has 17 bits (R499). -/
def execMgmtSpiTransaction (offset : Nat) (op : SpiOp) (s : State) : Outcome := .next (s.mgmtTransaction (offset % 131072) op)

end Sys2Proof.Machine
end

