-- ==== Sys2Proof/Machine/Regions.lean ====
section
/-! DEFINITION. The commands of the time buses, repeaters, frequency changes, strobes and fences (R121 to R146). -/

namespace Sys2Proof.Machine

open Sys2Proof

/-- Every 512 ticks the core sends a SYNC word with its counter on every time bus (R123). -/
def execTbusSyncSend (s : State) : Outcome :=
  let aon := s.tsu.com.time.aon
  .next (if aon < s.tsu.syncAt + 1024 then s
    else (s.updRegions fun g => if g.present then { g with queue := g.queue ++ [⟨0, .sync 0⟩] } else g).updTsu fun t =>
      { t with syncAt := aon })

/-- A slip: the count is reloaded, SLIP set and counted; three within 1 ms fail the repeater (R128, R400). DESIGN CHOICE (log
entry 134): the source of a region's error-log entries is the region number, for which R191 has no identifier. -/
def State.repeaterSlip (s : State) (r : Nat) (count : Nat) : State :=
  let aon := s.tsu.com.time.aon
  let s := s.updRegion r fun g =>
    { g with count := count, slips := min (g.slips + 1) 0xFF,
             slipAt := (g.slipAt.filter fun a => aon < a + 1000000) ++ [aon] }
  let s := (s.setEvt .tsu (0x200 + 0x20 * r) 0x8).logT .repeaterSlip r |>.healthSend .repeaterSlip
  if 3 ≤ (s.region r).slipAt.length then
    (s.updRegion r fun g => { g with fail := true, ready := false, loaded := false }).logT .repeaterFail r
  else s

/-- A good SYNC word at a calibrated repeater: it loads its count, after which the core sends the addend in force; or it slews
the delay in its count by one tap toward a new calibration (R126) and compares (R128). -/
def State.syncTaken (s : State) (r sync : Nat) : State :=
  let g := s.region r
  if !g.loaded then
    let c := (((sync : Int) + delayUnits g.delay) % 18446744073709551616).toNat
    let s := s.updRegion r fun g => { g with count := c, applied := g.delay, loaded := true }
    s.busSend r (.addend s.tsu.com.time.addend s.count64 s.tsu.com.time.aon)
  else
    let d := g.applied + clampInt (-16000) 16000 (g.delay - g.applied)
    let moved := ((g.count + delayUnits d - delayUnits g.applied) % 18446744073709551616).toNat
    let want := (((sync : Int) + delayUnits d) % 18446744073709551616).toNat
    let s := s.updRegion r fun g => { g with applied := d, count := moved }
    if g.ready ∧ 33554432 < (sdiff 64 moved want).natAbs then s.repeaterSlip r want else s

/-- A SYNC word at a repeater (R128). -/
def State.repeaterSyncRx (s : State) (r : Nat) (noise : BitVec 128) : State :=
  let g := s.region r
  match g.flight with
  | ⟨_, .sync c⟩ :: _ =>
    let s := s.wordTaken r
    if !crcOk noise ∨ !g.present ∨ g.fail ∨ !g.calibrated ∨ (g.calActive ∧ !g.background) then s else s.syncTaken r c
  | _ => s

/-- REPEATER_SYNC_RX (R128). -/
def execRepeaterSyncRx (r : Nat) (ns32 frac : BitVec 32) (rest : BitVec 64) (s : State) : Outcome :=
  .next (s.repeaterSyncRx r (ns32 ++ frac ++ rest))

/-- A good ADDEND word: the new addend, with the catch-up of the ticks since the one it names added once; after the load and
calibration the repeater is READY (R128). -/
def State.addendTaken (s : State) (r addend named : Nat) : State :=
  let g := s.region r
  let m := (s.tsu.com.time.aon - named) / 2
  let c : Int := g.count + m * ((addend : Int) - g.addend)
  let ready := g.ready || (g.calibrated && !(g.calActive && !g.background))
  let s := s.updRegion r fun g =>
    { g with count := (c % 18446744073709551616).toNat, addend := addend, ready, inReset := false }
  if ready ∧ !g.ready then s.updateLead else s

/-- An ADDEND word at a repeater (R124, R128). -/
def State.repeaterAddendRx (s : State) (r : Nat) (noise : BitVec 128) : State :=
  let g := s.region r
  match g.flight with
  | ⟨seq, .addend a _ named⟩ :: _ =>
    let s := s.wordTaken r
    if !crcOk noise ∨ !g.present ∨ g.fail ∨ !(g.ready || g.loaded) then s
    else s.wordGood r seq fun s => s.addendTaken r a named
  | _ => s

/-- REPEATER_ADDEND_RX (R128). -/
def execRepeaterAddendRx (r : Nat) (seq : BitVec 6) (addend : BitVec 36) (count : BitVec 64) (rest : BitVec 22) (s : State) : Outcome :=
  .next (s.repeaterAddendRx r (seq ++ addend ++ count ++ rest))

/-- A LAUNCH_AT word arms a slot, or fires it on the next tick where the count has passed T − ADVANCE (R136, R137). -/
def State.launchAtTaken (s : State) (r t slot : Nat) (fence : Bool) : State :=
  let g := s.region r
  if 0 < sdiff 48 g.count48 (t - s.advance16 r) then
    let s := s.updRegion r fun g => { g with late := min (g.late + 1) 0xFF }
    s.strobe r slot t (stamp48 (g.count48 + 131072 + s.advance16 r)) true
  else
    s.updRegion r fun g => { g with armed := (g.armed.filter fun a => a.slot ≠ slot) ++ [⟨slot, t, fence⟩] }

/-- A LAUNCH_AT word at a repeater (R124, R136). -/
def State.repeaterLaunchAtRx (s : State) (r : Nat) (noise : BitVec 128) : State :=
  let g := s.region r
  match g.flight with
  | ⟨seq, .launchAt t slot fence⟩ :: _ =>
    let s := s.wordTaken r
    if !crcOk noise ∨ !g.ready then s else s.wordGood r seq fun s => s.launchAtTaken r t slot fence
  | _ => s

/-- REPEATER_LAUNCH_AT_RX (R136). -/
def execRepeaterLaunchAtRx (r : Nat) (seq : BitVec 6) (t : BitVec 32) (frac : BitVec 16) (slot : BitVec 4) (fence : BitVec 1)
    (rest : BitVec 69) (s : State) : Outcome :=
  .next (s.repeaterLaunchAtRx r (seq ++ t ++ frac ++ slot ++ fence ++ rest))

/-- REGION_WAKE stays raised while some armed slot's T lies within WAKE_LEAD (R138). -/
def State.wakeCheck (s : State) (r : Nat) : State :=
  let lead := s.wakeLead16
  s.updRegion r fun g => { g with wake := g.wake && g.armed.any fun a => decide (sdiff 48 a.t g.count48 ≤ lead) }

/-- A CANCEL word drops a slot whose T the count has not reached (R139). -/
def State.cancelTaken (s : State) (r slot t : Nat) : State :=
  let g := s.region r
  let dropped : Bool := ((s.armOf r slot).map fun x => x.2.cancel ≠ .none && stamp48 x.2.t.toNs16 = t).getD false
  if dropped ∧ sdiff 48 g.count48 t < 0 then
    ((s.updRegion r fun g => { g with armed := g.armed.filter fun a => a.slot ≠ slot }).slotCancelled r slot).wakeCheck r
  else s

/-- A CANCEL word at a repeater (R124, R139). -/
def State.repeaterCancelRx (s : State) (r : Nat) (noise : BitVec 128) : State :=
  let g := s.region r
  match g.flight with
  | ⟨seq, .cancel slot t⟩ :: _ =>
    let s := s.wordTaken r
    if !crcOk noise ∨ !g.ready then s else s.wordGood r seq fun s => s.cancelTaken r slot t
  | _ => s

/-- REPEATER_CANCEL_RX (R139). -/
def execRepeaterCancelRx (r : Nat) (seq : BitVec 6) (slot : BitVec 4) (rest : BitVec 118) (s : State) : Outcome :=
  .next (s.repeaterCancelRx r (seq ++ slot ++ rest))

/-- A good FCHG_AT word arms a frequency switch (R134). -/
def State.repeaterFchgAtRx (s : State) (r : Nat) (noise : BitVec 128) : State :=
  let g := s.region r
  match g.flight with
  | ⟨seq, .fchgAt tf code⟩ :: _ =>
    let s := s.wordTaken r
    if !crcOk noise ∨ !g.ready then s
    else s.wordGood r seq fun s => s.updRegion r fun g => { g with switch := some (tf, code) }
  | _ => s

/-- REPEATER_FCHG_AT_RX (R134). -/
def execRepeaterFchgAtRx (r : Nat) (seq : BitVec 6) (tf : BitVec 32) (code : BitVec 8) (rest : BitVec 82) (s : State) : Outcome :=
  .next (s.repeaterFchgAtRx r (seq ++ tf ++ code ++ rest))

/-- A CAL word is echoed, and the core takes the round trip in taps of 7.8125 ps (R125). DESIGN CHOICE (log entry 145): a word whose CRC fails is
sent once more, since its echo does not come. -/
def State.repeaterCalRx (s : State) (r taps : Nat) (noise : BitVec 128) : State :=
  let g := s.region r
  match g.flight with
  | ⟨_, .cal⟩ :: _ =>
    let s := s.wordTaken r
    if !g.calActive ∨ 64 ≤ g.calCount then s
    else if !crcOk noise then s.updRegion r fun g => { g with calLeft := g.calLeft + 1 }
    else s.updRegion r fun g => { g with calCount := g.calCount + 1, calSum := g.calSum + taps }
  | _ => s

/-- REPEATER_CAL_RX (R125). -/
def execRepeaterCalRx (r roundTripTaps : Nat) (noise : BitVec 128) (s : State) : Outcome :=
  .next (s.repeaterCalRx r roundTripTaps noise)

/-- A repeater's acknowledgement ends the wait for it (R124). -/
def execTbusAckRx (r seq : Nat) (s : State) : Outcome :=
  .next (s.updRegion r fun g =>
    if g.acks.contains seq then { g with acks := g.acks.erase seq, unacked := g.unacked.filter fun w => w.seq ≠ seq } else g)

/-- The time a word names, in units of 2^-16 ns modulo 2^48, where it names one; a CANCEL stands for the T of its
slot (R124). -/
def BusBody.time : BusBody → Option Int
  | .launchAt t _ _ | .cancel _ t => some t
  | .fchgAt tf _ => some (tf.toNat * 65536)
  | _ => none

/-- The instant at which no resend of a word may leave any more is past: TBUS_LEAD before the time it names (R124). -/
def State.timeUp (s : State) (w : BusWord) : Bool :=
  match w.body.time with
  | some t => decide (sdiff 48 (t - s.tbusLead16) (s.tsu.com.time.counter.toNs16) < 0)
  | none => false

/-- A word unacknowledged 12 ticks after departure is resent, up to three times, and counted in BUS_RETRY (R124). -/
def State.tbusResend (s : State) (r seq : Nat) : State :=
  let g := s.region r
  let aon := s.tsu.com.time.aon
  match g.unacked.find? fun w => w.seq = seq with
  | some w =>
    if w.resends < 3 ∧ !w.lost ∧ !s.timeUp w ∧ w.sentAt + 24 ≤ aon ∧ !(g.queue.any fun v => v.seq = seq && v.body.acked) then
      s.updRegion r fun g =>
        { g with busRetry := min (g.busRetry + 1) 0xFF, queue := g.queue ++ [⟨seq, w.body⟩],
                 unacked := g.unacked.map fun v => if v.seq = seq then { v with resends := v.resends + 1 } else v }
    else s
  | none => s

/-- TBUS_RESEND (R124). -/
def execTbusResend (r seq : Nat) (s : State) : Outcome := .next (s.tbusResend r seq)

/-- An answer to the power manager (R133, R135). -/
def State.pmAnswer (s : State) (a : PmAnswer) : State := s.updTsu fun t => { t with pmOut := t.pmOut ++ [a] }

/-- A frequency-change request is refused, or lost, for a reason (R135). -/
def State.fchgNak (s : State) (reason : Nat) : State :=
  let s := s.pmAnswer (.nak reason)
  let s := s.updTsu fun t => { t with fchgReason := reason }
  (s.setEvt .tsu 0x1D0 0x800).logT .fchgRefused

/-- The wait for a word's acknowledgement is over. -/
def State.wordOver (s : State) (r seq : Nat) : State :=
  s.updRegion r fun g => { g with unacked := g.unacked.filter fun v => v.seq ≠ seq,
                                  queue := g.queue.filter fun v => v.seq ≠ seq ∨ !v.body.acked }

/-- The instant T + 4 µs of a slot is past (R124). -/
def State.waitedOut (s : State) (t : Nat) : Bool :=
  decide (0 ≤ sdiff 48 (s.tsu.com.time.counter.toNs16) ((t : Int) + 262144000))

/-- The outcome of a lost word (R124): a slot that has not fired by T + 4 µs does not fire; a frequency change is answered LOST,
and a repeater that has received it still takes it; an addend is loaded again at the next SYNC. -/
def State.lostOutcome (s : State) (r : Nat) (w : BusWord) : State :=
  match w.body with
  | .launchAt t slot _ => if s.waitedOut t then (s.wordOver r w.seq).slotLost r slot .tbusLost else s
  | .cancel slot t =>
    if !s.waitedOut t then s
    else if ((s.armOf r slot).map fun x => decide (stamp48 x.2.t.toNs16 = t)).getD false then (s.wordOver r w.seq).slotCancelled r slot
    else s.wordOver r w.seq
  | .fchgAt tf code =>
    ((s.wordOver r w.seq).updRegion r fun g =>
      if g.switch = some (tf, code) then g else { g with fchg := none }).fchgNak 4
  | _ => (s.wordOver r w.seq).updRegion r fun g => { g with loaded := false }

/-- A word still unacknowledged at its limit records ONE_TBUS_LOST once and takes the outcome of its type (R124). DESIGN CHOICE
(log entry 146): the limit of a word that leaves at or after it is 12 ticks after its departure, and of a word that names no time 12 ticks after
its third resend. -/
def State.tbusDeliveryLimit (s : State) (r seq : Nat) : State :=
  match (s.region r).unacked.find? fun w => w.seq = seq with
  | some w =>
    if w.lost then s.lostOutcome r w
    else if (s.timeUp w ∨ (w.body.time = none ∧ w.resends = 3)) ∧ w.sentAt + 24 ≤ s.tsu.com.time.aon then
      ((s.updRegion r fun g =>
        { g with unacked := g.unacked.map fun v => if v.seq = seq then { v with lost := true } else v }).logT .tbusLost r).lostOutcome
          r w
    else s
  | none => s

/-- TBUS_DELIVERY_LIMIT (R124). -/
def execTbusDeliveryLimit (r seq : Nat) (s : State) : Outcome := .next (s.tbusDeliveryLimit r seq)

/-- RECAL recalibrates every present bus by loopback (R125). -/
def execRecal (s : State) : Outcome := .next (s.updRegions Region.startCal)

/-- After 64 CAL round trips the delay is (mean round trip − turnaround) / 2; out of 0.5 ns to 12 ns it leaves the
repeater not READY with CAL_ERR. A repeater that counts already is slewed to a new delay tap by tap, and a change of more than
100 ps sets CAL_ERR (R125 to R127). -/
def State.tbusCalDone (s : State) (r : Nat) : State :=
  let g := s.region r
  if g.calActive ∧ g.calCount = 64 then
    let d : Int := 125 * g.calSum - 1024 * g.turnaround
    let err : State → State := fun s => (s.setEvt .tsu (0x200 + 0x20 * r) 0x40).logT .tbusCal r
    let aon := s.tsu.com.time.aon
    let bad : Bool := d < 1024000 ∨ 24576000 < d
    let s := s.updRegion r fun g =>
      { g with calActive := false, background := false, calCount := 0, calSum := 0, calLeft := 0, lastCal := aon }
    if bad then
      err (s.updRegion r fun g => { g with ready := false, calibrated := false, loaded := false, inReset := false })
    else
      let s := (s.updRegion r fun g => { g with delay := d, calibrated := true, everCal := true }).updateLead
      if g.calibrated ∧ g.background ∧ 204800 < (d - g.delay).natAbs then err s else s
  else s

/-- TBUS_CAL_DONE (R125). -/
def execTbusCalDone (r : Nat) (s : State) : Outcome := .next (s.tbusCalDone r)

/-- Once per CAL_PERIOD, while BG_CAL_EN = 1, every bus is recalibrated in idle word slots (R126). -/
def State.bgRecal (s : State) : State :=
  let w := s.reg .tsu 0x1C0
  let aon := s.tsu.com.time.aon
  if bitOf w 1 then
    s.updRegions fun g =>
      if g.present ∧ g.calibrated ∧ !g.calActive ∧ g.lastCal + orOne (bitsOf w 15 8) * 1000000 ≤ aon then
        { g with calActive := true, background := true, calCount := 0, calSum := 0, calLeft := 64 }
      else g
  else s

/-- BG_RECAL (R126). -/
def execBgRecal (s : State) : Outcome := .next s.bgRecal

/-- An armed slot whose T lies within WAKE_LEAD raises REGION_WAKE (R138). -/
def State.regionWakeRaise (s : State) (r slot : Nat) : State :=
  let g := s.region r
  match g.armed.find? fun a => a.slot = slot with
  | some a => if sdiff 48 a.t g.count48 ≤ s.wakeLead16 then s.updRegion r fun g => { g with wake := true } else s
  | none => s

/-- REGION_WAKE_RAISE (R138). -/
def execRegionWakeRaise (r slot : Nat) (s : State) : Outcome := .next (s.regionWakeRaise r slot)

/-- At T − ADVANCE the repeater places LP_FIRE on the slot's ports, to reach them at T (R136); REGION_WAKE falls when no armed
slot lies within its lead (R138). -/
def State.strobeFire (s : State) (r slot : Nat) : State :=
  let g := s.region r
  match g.armed.find? fun a => a.slot = slot with
  | some a =>
    if 0 ≤ sdiff 48 g.count48 (a.t - s.advance16 r) then
      let s := s.updRegion r fun g => { g with armed := g.armed.filter fun b => b.slot ≠ slot }
      (s.strobe r slot a.t a.t false).wakeCheck r
    else s
  | none => s

/-- STROBE_FIRE (R136). -/
def execStrobeFire (r slot : Nat) (s : State) : Outcome := .next (s.strobeFire r slot)

/-- The regions a byte of the power manager names. -/
def namedRegions (b : Byte) : List Nat := [0, 1, 2, 3, 4, 5, 6, 7].filter fun i => b.getLsbD i

/-- T_f of a request accepted now: the first multiple of 8 ns at or after now plus the lead (R133). -/
def State.fchgInstant (s : State) : Word :=
  let at_ : Int := s.tsu.com.time.counter.toUnits * 2048000 + s.fchgLead * 4294967296
  BitVec.ofInt 32 ((at_ + (8 * 2048000 * 4294967296 - 1)) / (8 * 2048000 * 4294967296) * 8)

/-- A frequency-change request: refused as EMPTY, PENDING or NO_REPEATER, or accepted with T_f and sent to each named repeater
(R133, R135). -/
def State.pmFchgReq (s : State) (regions code : Byte) : State :=
  let rs := namedRegions regions
  if rs = [] then s.fchgNak 1
  else if rs.any fun r => (s.region r).fchg.isSome then s.fchgNak 2
  else if rs.any fun r => !(s.region r).ready then s.fchgNak 3
  else
    let tf := s.fchgInstant
    let s := s.pmAnswer (.ack tf)
    let s := s.updTsu fun t => { t with fchgAt := tf }
    rs.foldl (fun s r => (s.updRegion r fun g => { g with fchg := some tf }).busSend r (.fchgAt tf code)) s

/-- PM_FCHG_REQ (R133). -/
def execPmFchgReq (regions code : Byte) (s : State) : Outcome := .next (s.pmFchgReq regions code)

/-- At T_f the repeater presents RG_SWITCH with the code to its region generator (R134). -/
def State.rgSwitch (s : State) (r : Nat) : State :=
  let g := s.region r
  match g.switch with
  | some (tf, code) =>
    if 0 ≤ sdiff 48 g.count48 (tf.toNat * 65536) then
      s.updRegion r fun g => { g with switch := none, fchg := none, rgCode := some code }
    else s
  | none => s

/-- RG_SWITCH (R134). -/
def execRgSwitch (r : Nat) (s : State) : Outcome := .next (s.rgSwitch r)

/-- At the end of each window the repeater updates EDGES, MAX_PERIOD and CLK_RUNNING (R132). -/
def execRegionRateWindow (r edges maxPeriod : Nat) (running : Bool) (s : State) : Outcome :=
  .next (s.updRegion r fun g =>
    { g with edges := edges % 65536, maxPeriod := maxPeriod % 65536, clkRunning := running })

/-- An engine's fence-done lets a held fenced launch be taken on the next edge (R142). -/
def execLpFenceDone (port : Nat) (s : State) : Outcome := .next (s.fenceTaken port false)

/-- A fenced wait that reaches 20 µs drops the launch at that port and resets the port (R142). -/
def execFenceHung (port : Nat) (s : State) : Outcome := .next (s.fenceTaken port true)

/-- Region reset: every armed slot and pending switch of the region is dropped, a switch with LOST; READY, FAIL and
the event bits of the region clear, its launch ports are reset, and its repeater calibrates and reloads (R145, R146,
R421). -/
def State.regionRst (s : State) (r : Nat) : State :=
  let w := s.reg .tsu 0x7C4
  let s := s.setReg .tsu 0x7C4 (BitVec.ofNat 32 (w / 16384 * 16384 + r % 8 * 2048 + w % 2048))
  if 8 ≤ r ∨ !(s.region r).present then s
  else
    let slots := (s.region r).taken
    let s := slots.foldl (fun s slot => s.slotLost r slot .portReset) s
    let s := ((List.range 1024).filter fun p => s.regionOf p = r).foldl (fun s p => s.portReset p) s
    let s := if (s.region r).fchg.isSome then s.fchgNak 4 else s
    let s := s.updCom .tsu fun c => c.clearEvt (0x200 + 0x20 * r) 0xFFFFFFFF
    s.updRegion r fun g =>
      { g with armed := [], taken := [], switch := none, fchg := none, queue := [], flight := [], acks := [], seen := [], wake := false, ready := false, fail := false, slipAt := [],
               unacked := [], inReset := true }.startCal

/-- REGION_RST: a write of TSU_RESET_CTRL with REGION_RST (R145, R421, R432). -/
def execRegionRst (r : Nat) (s : State) : Outcome := .next (s.regionRst r)

end Sys2Proof.Machine
end

