-- ==== Sys2Proof/Machine/Sides.lean ====
section
/-! DEFINITION. The commands that move the acting side of a position (R384). -/

namespace Sys2Proof.Machine

open Sys2Proof

/-- A SIDE frame (R383). -/
def sideFrame (op target : Nat) (now at_ : Word) : Frame :=
  mkFrame 0x1A 2 0 0 0 now (natBytes op 1 ++ natBytes target 3 ++ natBytes at_.toNat 4)

/-- The locator of one side of child position `i` (R23). -/
def Gd.childSide (g : Gd) (i : Nat) (sideB : Bool) : Nat := g.childLoc i + 131072 * b2n sideB

/-- Some domain of child position `i` acts on a side there (R384). -/
def State.actsAt (s : State) (i : Nat) (sideB : Bool) : Bool :=
  s.gd.doms.any fun p => (s.gd.members p.2.dr).contains i && s.childSide i p.2.dr.tag = sideB

/-- SIDE_WAIT in ns (R384, R484). -/
def State.sideWait (s : State) : Nat := orOne (bitsOf (s.reg .gd 0x710) 15 0) * 1000

/-- A port has not been UP for SIDE_WAIT (R384). -/
def State.sideLate (s : State) (p : Nat) : Bool :=
  !s.trained ⟨.gd, p⟩ && decide ((s.link ⟨.gd, p⟩).downAt + s.sideWait ≤ s.aon .gd)

/-- Send a SIDE frame toward one side of child position `i`: on the own port if it faces that side, else over the partner
link, else on the cross port; the partner link always carries a copy (R384, R385). -/
def State.sideSend (s : State) (i : Nat) (sideB : Bool) (f : Frame) : State :=
  let p := s.gd.partnerPort
  let s := if s.trained ⟨.gd, p⟩ then s.send ⟨.gd, p⟩ 2 0 [f] else s
  if sideB = s.gd.sideB then s.send ⟨.gd, i⟩ 2 0 [f]
  else if s.trained ⟨.gd, p⟩ then s
  else match s.gd.crossPort i with
    | some x => s.send ⟨.gd, x⟩ 2 0 [f]
    | none => s

/-- The side of child position `i` that a TAKE goes to: the port facing the acting side is not UP for SIDE_WAIT while the
other side can be reached. The distributor that faces the acting side decides; where it is gone, its partner does
(R384). -/
def State.takeSide (s : State) (i : Nat) : Option Bool :=
  let own := s.gd.sideB
  let p := s.gd.partnerPort
  let cross := ((s.gd.crossPort i).map fun x => s.trained ⟨.gd, x⟩).getD false
  if s.actsAt i own ∧ s.sideLate i ∧ (s.trained ⟨.gd, p⟩ ∨ cross) then some (!own)
  else if s.actsAt i (!own) ∧ s.sideLate p ∧ s.trained ⟨.gd, i⟩ then some own
  else none

/-- A parent keeps that a side of a child position acts for every domain; held frames try their new route (R384, R385). -/
def State.childTaken (s : State) (i : Nat) (sideB : Bool) : State :=
  (s.updGd fun g => { g with childMoved := Tab.put g.childMoved i sideB, childReturn := Tab.del g.childReturn i,
                             backSince := Tab.del g.backSince i }).unhold i

/-- SIDE_WAIT_EXPIRY: the decider sends TAKE (R384). -/
def execSideWaitExpiry (child : Nat) (s : State) : Outcome :=
  .next (if !s.gd.hasRole ∨ s.gd.role = some 0 ∨ s.gd.fan ≤ child then s
    else match s.takeSide child with
      | some b => (s.sideSend child b (sideFrame 1 (s.gd.childSide child b) (s.now .gd).ns32 0)).childTaken child b
      | none => s)

/-- The child position and side that a locator names (R23, R25). -/
def State.sideTarget (s : State) (t : Nat) : Option (Nat × Bool) :=
  ((List.range s.gd.fan).find? fun i => s.gd.childLoc i = t % 131072 + t / 262144 * 262144).map fun i => (i, bitOf t 17)

/-- A SIDE frame at a distributor: for itself, or the copy of its partner's for a child, which it delivers where it faces
the side named (R384). -/
def State.sideRx (s : State) (l : LinkId) (rx : Rx) (op : Nat) (mine : State → Frame → State)
    (child : State → Nat → Bool → Frame → State) : State :=
  if l.node = .tsu then s
  else match s.recvOp l rx 0x1A op with
    | (s, none) => s
    | (s, some f) =>
      let t := f.nat 13 3 % 1048576
      if !s.gd.hasRole then s
      else if l.port = 64 ∨ l.port = 65 then (if s.gd.locator = some t then mine s f else s)
      else if l.port = s.gd.partnerPort then match s.sideTarget t with
        | some (i, b) =>
          let s := child s i b f
          if b = s.gd.sideB then s.send ⟨.gd, i⟩ 2 0 [f] else s
        | none => s
      else s.malformed l

/-- TAKE at its target: it acts for every domain, records ONE_SIDE_MOVED and runs a census (R384, R389). -/
def State.sideTaken (s : State) : State :=
  let s := s.updGd fun g => { g with
    actingTo := some g.sideB, returnAt := none, softs := Tab.map g.softs fun _ e => { e with back := false } }
  (s.logG .sideMoved).fullCensus none false

/-- SIDE_TAKE_RX (R384). -/
def execSideTakeRx (l : LinkId) (rx : Rx) (s : State) : Outcome :=
  .next (State.cutThrough (s.sideRx l rx 1 (fun s _ => s.sideTaken) fun s i b _ => s.childTaken i b) s l rx)

/-- SIDE_RETURN_DUE: the declared side of a moved child position has been UP with its mirror CURRENT for 10 s, and the
decider sends RETURN to both sides with AT 100 µs ahead (R384). -/
def State.sideReturnDue (s : State) (i : Nat) : State :=
  match Tab.get s.gd.childMoved i, Tab.get s.gd.backSince i with
  | some b, some t =>
    let own := b = s.gd.sideB
    let decides : Bool := own || !s.trained ⟨.gd, s.gd.partnerPort⟩
    if !s.gd.hasRole ∨ !decides ∨ (Tab.get s.gd.childReturn i).isSome ∨ s.aon .gd < t + 10000000000 then s
    else
      let now := (s.now .gd).ns32
      let at_ : Int := (s.now .gd).toNs + 100000
      let w : Word := BitVec.ofInt 32 at_
      let s := (s.sideSend i false (sideFrame 2 (s.gd.childSide i false) now w)).sideSend i true
        (sideFrame 2 (s.gd.childSide i true) now w)
      (s.updGd fun g => { g with childReturn := Tab.put g.childReturn i at_ }).unhold i
  | _, _ => s

/-- SIDE_RETURN_DUE (R384). -/
def execSideReturnDue (child : Nat) (s : State) : Outcome := .next (s.sideReturnDue child)

/-- SIDE_RETURN_RX: at its target the domains go back to their declared sides from AT; a parent keeps the AT of a child
position (R384, R409). -/
def execSideReturnRx (l : LinkId) (rx : Rx) (s : State) : Outcome :=
  .next (State.cutThrough (s.sideRx l rx 2
    (fun s f => if s.gd.actingTo.isSome then
        s.updGd fun g => { g with returnAt := some (extendNs (s.now .gd) (BitVec.ofNat 32 (f.nat 16 4))) }
      else s)
    fun s i _ f => s.updGd fun g =>
      { g with childReturn := Tab.put g.childReturn i (extendNs (s.now .gd) (BitVec.ofNat 32 (f.nat 16 4))) }) s l rx)

end Sys2Proof.Machine
end

