-- ==== Sys2Proof/Machine/Starts.lean ====
section
/-! DEFINITION. The commands of a domain's teardown and start (R405, R406). -/

namespace Sys2Proof.Machine

open Sys2Proof

/-- A DOMAIN_CTL frame of an OP that comes down to a distributor that holds the domain, with the way it came; a frame of an
old tag is stale (R196, R405). -/
def State.ctlDown (s : State) (l : LinkId) (f : Frame) : State × Option (GdDom × DownPart) :=
  if !s.gd.hasRole then (s, none)
  else match s.downPart l f, s.dom? f.domain with
    | .wrong, _ => (s.malformed l, none)
    | _, none => (s.logG .domainStale l.port, none)
    | p, some d => (s, some (d, p))

/-! ## Teardown -/

/-- TEARDOWN at a TSU: the shares are closed, the domain unbound, and TORN is owed (R405). -/
def State.teardownTsu (s : State) (lane : Nat) (tag : BitVec 24) : State :=
  match s.domRec tag with
  | some d => s.tsuTear d true
  | none =>
    if s.tsu.tearing.any fun x => x.tag = tag then
      s.updTsu fun t => { t with tearing := t.tearing.map fun x => if x.tag = tag then { x with asked := true } else x }
    else s.logT .domainStale (srcLane lane)

/-- TEARDOWN_RX (R405). -/
def execTeardownRx (l : LinkId) (rx : Rx) (s : State) : Outcome :=
  .next (State.cutThrough (match s.recvOp l rx 0x19 1 with
    | (s, none) => s
    | (s, some f) => match l.node with
      | .tsu => s.teardownTsu l.port f.domain
      | .gd => match s.ctlDown l f with
        | (s, none) => s
        | (s, some (d, .copy)) => s.updDom d.dr.tag fun x => { x with tearing := true }
        | (s, some (d, p)) => s.tearDom d (p = .detour)) s l rx)

/-- TORN_SEND: every entry of the domain is FREE at the TSU (R405). -/
def State.tornSend (s : State) (tag : BitVec 24) : State :=
  match s.tsu.tearing.find? fun x => x.tag = tag with
  | none => s
  | some x =>
    if !x.asked ∨ s.tsu.tumb.any fun p => p.2.domain = tag then s
    else
      (s.updTsu fun t => { t with tearing := t.tearing.filter fun y => y.tag ≠ tag }).tsuUp x.sideB x.fullRate 2 0
        [domFrame 2 1 0 tag (s.now .tsu).ns32]

/-- TORN_SEND (R405). -/
def execTornSend (tag : BitVec 24) (s : State) : Outcome := .next (s.tornSend tag)

/-- RELEASE passes a distributor: it goes down, and the domain's entries and scan blocks are freed (R405). -/
def State.domRelease (s : State) (d : GdDom) (only : Bool) : State :=
  (s.domDown d (domFrame 3 0 0 d.dr.tag (s.now .gd).ns32) only).freeDom d.dr.tag

/-- Every member port has sent TORN, or the wait has passed: TORN goes up with the missing dies, or RELEASE down from the
top node (R405). -/
def State.tornCheck (s : State) (tag : BitVec 24) (expired : Bool) : State :=
  match s.dom? tag with
  | none => s
  | some d =>
    let late : Bool := expired && ((d.tornAt.map fun t => decide (t + s.gd.abortWait ≤ s.aon .gd)).getD false)
    let left := (s.gd.members d.dr).filter fun i => !d.torn.contains i
    if !d.tearing ∨ d.tornAt.isNone ∨ d.tornSent ∨ !s.acts d.dr ∨ (left ≠ [] ∧ !late) then s
    else
      let miss := d.missSum + (left.map fun i => d.dr.count (s.gd.childSpan i).1 (s.gd.childSpan i).2).sum
      let s := s.updDom tag fun x => { x with tornSent := true, missSum := miss }
      if s.gd.isTop d.dr then s.domRelease d false
      else s.gdUp d.dr 2 0 [domFrame 2 (d.doneSum % 524288) (miss % 524288) tag (s.now .gd).ns32] false 99

/-- TORN of a child, counted once (R405). -/
def State.tornRx (s : State) (l : LinkId) (f : Frame) : State :=
  match s.dom? f.domain with
  | none => s.logG .domainStale l.port
  | some d => match s.upPart l d.dr 2 [f] none with
    | (s, some (i, false)) =>
      if d.torn.contains i then s
      else
        (s.updDom d.dr.tag fun x =>
          { x with torn := x.torn ++ [i], doneSum := x.doneSum + f.nat 14 3 % 524288,
                   missSum := x.missSum + f.nat 17 3 % 524288 }).tornCheck d.dr.tag false
    | (s, _) => s

/-- TORN_RX (R405). -/
def execTornRx (l : LinkId) (rx : Rx) (s : State) : Outcome :=
  .next (State.cutThrough (if l.node = .tsu then s else match s.recvOp l rx 0x19 2 with
    | (s, none) => s
    | (s, some f) => if s.gd.hasRole then s.tornRx l f else s) s l rx)

/-- TORN_WAIT_EXPIRY: ABORT_WAIT of the role has passed (R245, R405). -/
def execTornWaitExpiry (tag : BitVec 24) (s : State) : Outcome := .next (s.tornCheck tag true)

/-- DOMAIN_RELEASE_RX (R405). -/
def execDomainReleaseRx (l : LinkId) (rx : Rx) (s : State) : Outcome :=
  .next (State.cutThrough (match s.recvOp l rx 0x19 3 with
    | (s, none) => s
    | (s, some f) => match l.node with
      | .tsu => s.updTsu fun t => { t with tearing := t.tearing.filter fun y => y.tag ≠ f.domain }
      | .gd => match s.ctlDown l f with
        | (s, none) => s
        | (s, some (d, .copy)) => s.freeDom d.dr.tag
        | (s, some (d, p)) => s.domRelease d (p = .detour)) s l rx)

/-! ## Start -/

/-- DOMAIN_READY_RX: READY of a child is collected (R406). -/
def execDomainReadyRx (l : LinkId) (rx : Rx) (s : State) : Outcome :=
  .next (State.cutThrough (if l.node = .tsu then s else match s.recvOp l rx 0x19 4 with
    | (s, none) => s
    | (s, some f) =>
      if !s.gd.hasRole then s
      else match s.dom? f.domain with
        | none => s.logG .domainStale l.port
        | some d => match s.upPart l d.dr 2 [f] none with
          | (s, some (i, false)) =>
            (s.updDom d.dr.tag fun x => { x with ready := if x.ready.contains i then x.ready else x.ready ++ [i] }).readyCheck
              d.dr.tag
          | (s, _) => s) s l rx)

/-- A domain opens at a TSU: its binding becomes a member, empty shares complete, and held arrivals flow (R188, R189,
R406). -/
def State.openTsu (s : State) (tag : BitVec 24) : State :=
  let s := s.updTsu fun t => { t with opened := if t.opened.contains tag then t.opened else t.opened ++ [tag] }
  match s.sliceOf tag with
  | none => s
  | some n =>
    let waits := ((s.slice n).bindings.find? fun b => b.tag = tag).any fun b => decide (b.mstate = .waiting)
    if !waits then s
    else
      let s := s.updBinding n tag fun b => { b with mstate := .member }
      let shares := (s.tsu.tumb.filter fun p => p.2.slice = n && p.2.domain = tag && p.2.estate = .active).map (·.1)
      shares.foldl (fun (s : State) e =>
        let s := s.updTumb e fun t => { t with release := true }
        if ((s.tumb? e).map (·.shareDone)).getD true then s else s.emptyOpens e) s

/-- DOMAIN_OPEN_RX (R406). -/
def execDomainOpenRx (l : LinkId) (rx : Rx) (s : State) : Outcome :=
  .next (State.cutThrough (match s.recvOp l rx 0x19 5 with
    | (s, none) => s
    | (s, some f) => match l.node with
      | .tsu => if (s.domRec f.domain).isSome then s.openTsu f.domain else s.logT .domainStale (srcLane l.port)
      | .gd => match s.ctlDown l f with
        | (s, none) => s
        | (s, some (d, .copy)) => s.updDom d.dr.tag fun x => { x with isOpen := true }
        | (s, some (d, p)) =>
          (s.updDom d.dr.tag fun x => { x with isOpen := true }).domDown d (domFrame 5 0 0 d.dr.tag (s.now .gd).ns32) (p = .detour)) s l rx)

/-- DOMAIN_RESERVE (R406). -/
def execDomainReserve (tag : BitVec 24) (s : State) : Outcome := .next (s.reserveDom tag)

end Sys2Proof.Machine
end

