-- ==== Sys2Proof/Machine/Dispatch.lean ====
section
/-! DEFINITION. The dispatch of a command to its meaning: one arm for each row of the table. -/

namespace Sys2Proof.Machine

/-- The effect of a command on everything but the queue of waiting commands. -/
def exec (i : Instr) (s : State) : Host.Outcome State Fault Refusal :=
  match i with
  | .timeClockTick n => Sys2Proof.Machine.execTimeClockTick n s
  | .tdreset n => Sys2Proof.Machine.execTdreset n s
  | .standaloneWrite v => Sys2Proof.Machine.execStandaloneWrite v s
  | .addendCommit w1 => Sys2Proof.Machine.execAddendCommit w1 s
  | .pllLockLoss n => Sys2Proof.Machine.execPllLockLoss n s
  | .pllRelock n => Sys2Proof.Machine.execPllRelock n s
  | .timeDomainPowerOn n => Sys2Proof.Machine.execTimeDomainPowerOn n s
  | .restep acc => Sys2Proof.Machine.execRestep acc s
  | .qualHoldMet n => Sys2Proof.Machine.execQualHoldMet n s
  | .qualDropMet n => Sys2Proof.Machine.execQualDropMet n s
  | .flywheelLimit n => Sys2Proof.Machine.execFlywheelLimit n s
  | .leapSecondApply n => Sys2Proof.Machine.execLeapSecondApply n s
  | .timeFrameSend l stamp => Sys2Proof.Machine.execTimeFrameSend l stamp s
  | .timeFrameRx l rx stamp => Sys2Proof.Machine.execTimeFrameRx l rx stamp s
  | .delayMeasurementDone l => Sys2Proof.Machine.execDelayMeasurementDone l s
  | .delayRestart l => Sys2Proof.Machine.execDelayRestart l s
  | .timeLoss l => Sys2Proof.Machine.execTimeLoss l s
  | .sourceSwitchBetter l => Sys2Proof.Machine.execSourceSwitchBetter l s
  | .refPpsEdge n stamp => Sys2Proof.Machine.execRefPpsEdge n stamp s
  | .todMessageRx n stamp second checksumOk utc => Sys2Proof.Machine.execTodMessageRx n stamp second checksumOk utc s
  | .ptpMessageRx n m => Sys2Proof.Machine.execPtpMessageRx n m s
  | .esmcMessageRx n q => Sys2Proof.Machine.execEsmcMessageRx n q s
  | .refLossTimeout s0 why => Sys2Proof.Machine.execRefLossTimeout s0 why s
  | .refQualified s0 => Sys2Proof.Machine.execRefQualified s0 s
  | .wtrExpiry i0 => Sys2Proof.Machine.execWtrExpiry i0 s
  | .forceEntryWrite acc w => Sys2Proof.Machine.execForceEntryWrite acc w s
  | .ptpMasterSend n => Sys2Proof.Machine.execPtpMasterSend n s
  | .repeaterSyncRx r ns32 frac rest => Sys2Proof.Machine.execRepeaterSyncRx r ns32 frac rest s
  | .repeaterAddendRx r seq addend count rest => Sys2Proof.Machine.execRepeaterAddendRx r seq addend count rest s
  | .repeaterLaunchAtRx r seq t frac slot fence rest => Sys2Proof.Machine.execRepeaterLaunchAtRx r seq t frac slot fence rest s
  | .repeaterCancelRx r seq slot rest => Sys2Proof.Machine.execRepeaterCancelRx r seq slot rest s
  | .repeaterFchgAtRx r seq tf code rest => Sys2Proof.Machine.execRepeaterFchgAtRx r seq tf code rest s
  | .repeaterCalRx r roundTripTaps noise => Sys2Proof.Machine.execRepeaterCalRx r roundTripTaps noise s
  | .tbusAckRx r seq => Sys2Proof.Machine.execTbusAckRx r seq s
  | .tbusResend r seq => Sys2Proof.Machine.execTbusResend r seq s
  | .tbusDeliveryLimit r seq => Sys2Proof.Machine.execTbusDeliveryLimit r seq s
  | .tbusCalDone r => Sys2Proof.Machine.execTbusCalDone r s
  | .launchAtSend arm => Sys2Proof.Machine.execLaunchAtSend arm s
  | .strobeFire r slot => Sys2Proof.Machine.execStrobeFire r slot s
  | .regionWakeRaise r slot => Sys2Proof.Machine.execRegionWakeRaise r slot s
  | .pmFchgReq regions code => Sys2Proof.Machine.execPmFchgReq regions code s
  | .rgSwitch r => Sys2Proof.Machine.execRgSwitch r s
  | .regionRateWindow r edges maxPeriod running => Sys2Proof.Machine.execRegionRateWindow r edges maxPeriod running s
  | .lpFenceDone port => Sys2Proof.Machine.execLpFenceDone port s
  | .fenceHung port => Sys2Proof.Machine.execFenceHung port s
  | .regionRst r => Sys2Proof.Machine.execRegionRst r s
  | .trainingAttempt l => Sys2Proof.Machine.execTrainingAttempt l s
  | .attemptFail l => Sys2Proof.Machine.execAttemptFail l s
  | .rateSearchSwitch l => Sys2Proof.Machine.execRateSearchSwitch l s
  | .rxLock l fallback => Sys2Proof.Machine.execRxLock l fallback s
  | .pmdConverged l => Sys2Proof.Machine.execPmdConverged l s
  | .blockLockAcquired l => Sys2Proof.Machine.execBlockLockAcquired l s
  | .frameLockAcquired l => Sys2Proof.Machine.execFrameLockAcquired l s
  | .trainFrameRx l rx => Sys2Proof.Machine.execTrainFrameRx l rx s
  | .blockLockLoss l => Sys2Proof.Machine.execBlockLockLoss l s
  | .frameLockLoss l => Sys2Proof.Machine.execFrameLockLoss l s
  | .linkBerExceeded l => Sys2Proof.Machine.execLinkBerExceeded l s
  | .laneEnWrite en => Sys2Proof.Machine.execLaneEnWrite en s
  | .retrain l => Sys2Proof.Machine.execRetrain l s
  | .cntClear l => Sys2Proof.Machine.execCntClear l s
  | .redundancyLost n => Sys2Proof.Machine.execRedundancyLost n s
  | .dieAbsent port partnerAgrees => Sys2Proof.Machine.execDieAbsent port partnerAgrees s
  | .slotTransmit l => Sys2Proof.Machine.execSlotTransmit l s
  | .uncorrectableSlot l timeSlot => Sys2Proof.Machine.execUncorrectableSlot l timeSlot s
  | .linkctlRx l rx => Sys2Proof.Machine.execLinkctlRx l rx s
  | .nakResend l => Sys2Proof.Machine.execNakResend l s
  | .replayFailure l => Sys2Proof.Machine.execReplayFailure l s
  | .creditReturnDue l => Sys2Proof.Machine.execCreditReturnDue l s
  | .linkctlKeepalive l => Sys2Proof.Machine.execLinkctlKeepalive l s
  | .degradeLimitExceeded l => Sys2Proof.Machine.execDegradeLimitExceeded l s
  | .idleFrameRx l rx => Sys2Proof.Machine.execIdleFrameRx l rx s
  | .bulkOpenRx l rx => Sys2Proof.Machine.execBulkOpenRx l rx s
  | .bulkDataRx l rx => Sys2Proof.Machine.execBulkDataRx l rx s
  | .bulkCloseRx l rx => Sys2Proof.Machine.execBulkCloseRx l rx s
  | .bulkChunkDrop object chunk port => Sys2Proof.Machine.execBulkChunkDrop object chunk port s
  | .bulkRxTimeout n object => Sys2Proof.Machine.execBulkRxTimeout n object s
  | .tumblerCreate slice binding => Sys2Proof.Machine.execTumblerCreate slice binding s
  | .tumblerClose slice binding => Sys2Proof.Machine.execTumblerClose slice binding s
  | .tumblerFree entry => Sys2Proof.Machine.execTumblerFree entry s
  | .portArrival a => Sys2Proof.Machine.execPortArrival a s
  | .softwareArrive slice => Sys2Proof.Machine.execSoftwareArrive slice s
  | .heldArrivalRelease entry => Sys2Proof.Machine.execHeldArrivalRelease entry s
  | .readyMarkEnqueue n key => Sys2Proof.Machine.execReadyMarkEnqueue n key s
  | .arriveRx l rx => Sys2Proof.Machine.execArriveRx l rx s
  | .turnRx l rx => Sys2Proof.Machine.execTurnRx l rx s
  | .turnForward l rx => Sys2Proof.Machine.execTurnForward l rx s
  | .waitArm slice k => Sys2Proof.Machine.execWaitArm slice k s
  | .waitTimeout slice k => Sys2Proof.Machine.execWaitTimeout slice k s
  | .budgetReclaim port => Sys2Proof.Machine.execBudgetReclaim port s
  | .tumblerSnapshot w => Sys2Proof.Machine.execTumblerSnapshot w s
  | .latencyRx l rx => Sys2Proof.Machine.execLatencyRx l rx s
  | .latencySend l tag => Sys2Proof.Machine.execLatencySend l tag s
  | .launchForward l rx => Sys2Proof.Machine.execLaunchForward l rx s
  | .launchFrameRx l rx => Sys2Proof.Machine.execLaunchFrameRx l rx s
  | .stageResume ctx => Sys2Proof.Machine.execStageResume ctx s
  | .portCapture port edge cmdReady => Sys2Proof.Machine.execPortCapture port edge cmdReady s
  | .sliceAbortGo w => Sys2Proof.Machine.execSliceAbortGo w s
  | .abortFrameRx l rx => Sys2Proof.Machine.execAbortFrameRx l rx s
  | .abortDoneRx l rx => Sys2Proof.Machine.execAbortDoneRx l rx s
  | .abortWaitExpiry tag => Sys2Proof.Machine.execAbortWaitExpiry tag s
  | .lpAbortAck port => Sys2Proof.Machine.execLpAbortAck port s
  | .engAbortLimitExpiry port => Sys2Proof.Machine.execEngAbortLimitExpiry port s
  | .resultRead r => Sys2Proof.Machine.execResultRead r s
  | .rollcallAskRx l rx => Sys2Proof.Machine.execRollcallAskRx l rx s
  | .rollcallAnsRx l rx => Sys2Proof.Machine.execRollcallAnsRx l rx s
  | .rollWaitExpiry key => Sys2Proof.Machine.execRollWaitExpiry key s
  | .clauseRunaway ctx => Sys2Proof.Machine.execClauseRunaway ctx s
  | .imageLoad slice => Sys2Proof.Machine.execImageLoad slice s
  | .imageUnload slice => Sys2Proof.Machine.execImageUnload slice s
  | .scheduleImageCurrent slice => Sys2Proof.Machine.execScheduleImageCurrent slice s
  | .treeImageActivate n => Sys2Proof.Machine.execTreeImageActivate n s
  | .treeWdataWrite w => Sys2Proof.Machine.execTreeWdataWrite w s
  | .treeLoadCard data => Sys2Proof.Machine.execTreeLoadCard data s
  | .rfOffsetWrite n frames w => Sys2Proof.Machine.execRfOffsetWrite n frames w s
  | .rfOffsetApply n => Sys2Proof.Machine.execRfOffsetApply n s
  | .calSelect slice w => Sys2Proof.Machine.execCalSelect slice w s
  | .calWrite slice => Sys2Proof.Machine.execCalWrite slice s
  | .calHold entry => Sys2Proof.Machine.execCalHold entry s
  | .calTurn entry => Sys2Proof.Machine.execCalTurn entry s
  | .calDoneCheck entry => Sys2Proof.Machine.execCalDoneCheck entry s
  | .calRelease port => Sys2Proof.Machine.execCalRelease port s
  | .deadlineMiss ctx => Sys2Proof.Machine.execDeadlineMiss ctx s
  | .clauseTimeout ctx => Sys2Proof.Machine.execClauseTimeout ctx s
  | .sleepEnd ctx => Sys2Proof.Machine.execSleepEnd ctx s
  | .contextSwapDone ok ns => Sys2Proof.Machine.execContextSwapDone ok ns s
  | .seqOrderSubmit slice => Sys2Proof.Machine.execSeqOrderSubmit slice s
  | .serveCommit slice => Sys2Proof.Machine.execServeCommit slice s
  | .listHeaderAck slice => Sys2Proof.Machine.execListHeaderAck slice s
  | .orderAbort slice page => Sys2Proof.Machine.execOrderAbort slice page s
  | .orderFence slice page => Sys2Proof.Machine.execOrderFence slice page s
  | .orderStop slice page => Sys2Proof.Machine.execOrderStop slice page s
  | .orderStart slice page => Sys2Proof.Machine.execOrderStart slice page s
  | .orderResume slice page => Sys2Proof.Machine.execOrderResume slice page s
  | .orderFrameRx l rx => Sys2Proof.Machine.execOrderFrameRx l rx s
  | .domainRequestGo slice => Sys2Proof.Machine.execDomainRequestGo slice s
  | .fenceComplete slice => Sys2Proof.Machine.execFenceComplete slice s
  | .crTailWrite slice w => Sys2Proof.Machine.execCrTailWrite slice w s
  | .crConfigWrite slice reg w => Sys2Proof.Machine.execCrConfigWrite slice reg w s
  | .grantRetry resource => Sys2Proof.Machine.execGrantRetry resource s
  | .healthRx l rx => Sys2Proof.Machine.execHealthRx l rx s
  | .expelReqRx l rx => Sys2Proof.Machine.execExpelReqRx l rx s
  | .expelGrantRx l rx => Sys2Proof.Machine.execExpelGrantRx l rx s
  | .expelDenyRx l rx => Sys2Proof.Machine.execExpelDenyRx l rx s
  | .expelLimitRx l rx => Sys2Proof.Machine.execExpelLimitRx l rx s
  | .expelNoticeRx l rx => Sys2Proof.Machine.execExpelNoticeRx l rx s
  | .expelReadmitRx l rx => Sys2Proof.Machine.execExpelReadmitRx l rx s
  | .sideWaitExpiry child => Sys2Proof.Machine.execSideWaitExpiry child s
  | .sideTakeRx l rx => Sys2Proof.Machine.execSideTakeRx l rx s
  | .sideReturnDue child => Sys2Proof.Machine.execSideReturnDue child s
  | .sideReturnRx l rx => Sys2Proof.Machine.execSideReturnRx l rx s
  | .censusListRx l rx => Sys2Proof.Machine.execCensusListRx l rx s
  | .censusFetchRx l rx => Sys2Proof.Machine.execCensusFetchRx l rx s
  | .censusResendRx l rx => Sys2Proof.Machine.execCensusResendRx l rx s
  | .censusAnsRx l rx => Sys2Proof.Machine.execCensusAnsRx l rx s
  | .fetchTimeout tag index => Sys2Proof.Machine.execFetchTimeout tag index s
  | .censusPortTimeout port => Sys2Proof.Machine.execCensusPortTimeout port s
  | .joinReqRx l rx => Sys2Proof.Machine.execJoinReqRx l rx s
  | .joinAckRx l rx => Sys2Proof.Machine.execJoinAckRx l rx s
  | .joinAbsentRx l rx => Sys2Proof.Machine.execJoinAbsentRx l rx s
  | .joinRefuseRx l rx => Sys2Proof.Machine.execJoinRefuseRx l rx s
  | .teardownRx l rx => Sys2Proof.Machine.execTeardownRx l rx s
  | .tornSend tag => Sys2Proof.Machine.execTornSend tag s
  | .tornRx l rx => Sys2Proof.Machine.execTornRx l rx s
  | .tornWaitExpiry tag => Sys2Proof.Machine.execTornWaitExpiry tag s
  | .domainReleaseRx l rx => Sys2Proof.Machine.execDomainReleaseRx l rx s
  | .domainReadyRx l rx => Sys2Proof.Machine.execDomainReadyRx l rx s
  | .domainOpenRx l rx => Sys2Proof.Machine.execDomainOpenRx l rx s
  | .domainReserve tag => Sys2Proof.Machine.execDomainReserve tag s
  | .journalFreeze w => Sys2Proof.Machine.execJournalFreeze w s
  | .journalRead w => Sys2Proof.Machine.execJournalRead w s
  | .bootPhasePass n => Sys2Proof.Machine.execBootPhasePass n s
  | .bootPhaseTimeout n => Sys2Proof.Machine.execBootPhaseTimeout n s
  | .powerGood rootSel sideSel => Sys2Proof.Machine.execPowerGood rootSel sideSel s
  | .bootStageEnd e code count detail => Sys2Proof.Machine.execBootStageEnd e code count detail s
  | .portRst port => Sys2Proof.Machine.execPortRst port s
  | .portResetEnd port => Sys2Proof.Machine.execPortResetEnd port s
  | .gdPortRst port => Sys2Proof.Machine.execGdPortRst port s
  | .domainRst tag => Sys2Proof.Machine.execDomainRst tag s
  | .rateRetryTimer port => Sys2Proof.Machine.execRateRetryTimer port s
  | .rateRetry port => Sys2Proof.Machine.execRateRetry port s
  | .portEnWrite port en => Sys2Proof.Machine.execPortEnWrite port en s
  | .scrubLine st key found => Sys2Proof.Machine.execScrubLine st key found s
  | .rollCallRound object => Sys2Proof.Machine.execRollCallRound object s
  | .bulkObjectExpiry n object => Sys2Proof.Machine.execBulkObjectExpiry n object s
  | .chunkCacheExpiry object => Sys2Proof.Machine.execChunkCacheExpiry object s
  | .cardDetect data => Sys2Proof.Machine.execCardDetect data s
  | .fwLoadCard data => Sys2Proof.Machine.execFwLoadCard data s
  | .fwActivate acc => Sys2Proof.Machine.execFwActivate acc s
  | .fwctlRx l rx => Sys2Proof.Machine.execFwctlRx l rx s
  | .fwCommit acc => Sys2Proof.Machine.execFwCommit acc s
  | .fwRevert acc => Sys2Proof.Machine.execFwRevert acc s
  | .keyswChange isOpen => Sys2Proof.Machine.execKeyswChange isOpen s
  | .ownerLockWrite acc w => Sys2Proof.Machine.execOwnerLockWrite acc w s
  | .fuseBlow acc => Sys2Proof.Machine.execFuseBlow acc s
  | .errlogPop n => Sys2Proof.Machine.execErrlogPop n s
  | .errlogClear n => Sys2Proof.Machine.execErrlogClear n s
  | .debugSnapshot slice w => Sys2Proof.Machine.execDebugSnapshot slice w s
  | .lowWordLatchRead n acc offset => Sys2Proof.Machine.execLowWordLatchRead n acc offset s
  | .registerWrite n acc offset w => Sys2Proof.Machine.execRegisterWrite n acc offset w s
  | .softSnapshot w => Sys2Proof.Machine.execSoftSnapshot w s
  | .dlatSnapshot w => Sys2Proof.Machine.execDlatSnapshot w s
  | .ringBypassWrite v => Sys2Proof.Machine.execRingBypassWrite v s
  | .gdAbortGo w => Sys2Proof.Machine.execGdAbortGo w s
  | .gdOrderGo w => Sys2Proof.Machine.execGdOrderGo w s
  | .mgmtSpiTransaction offset op => Sys2Proof.Machine.execMgmtSpiTransaction offset op s
  | .resetNRelease rootSel sideSel => Sys2Proof.Machine.execResetNRelease rootSel sideSel s
  | .thermNAlarm celsius => Sys2Proof.Machine.execThermNAlarm celsius s
  | .nwWriteAck error => Sys2Proof.Machine.execNwWriteAck error s
  | .nwReadResponse data error => Sys2Proof.Machine.execNwReadResponse data error s
  | .lpCmdTaken port stamp => Sys2Proof.Machine.execLpCmdTaken port stamp s
  | .childPositionAbsent child => Sys2Proof.Machine.execChildPositionAbsent child s
  | .refPcsLockLoss n => Sys2Proof.Machine.execRefPcsLockLoss n s
  | .refFreqMeasure s0 deviationPpb => Sys2Proof.Machine.execRefFreqMeasure s0 deviationPpb s
  | .fwSlotWriteDone crcOk signatureOk writeOk => Sys2Proof.Machine.execFwSlotWriteDone crcOk signatureOk writeOk s
  | .setCommit => Sys2Proof.Machine.execSetCommit s
  | .takeoverWaitExpiry => Sys2Proof.Machine.execTakeoverWaitExpiry s
  | .filteredOffset => Sys2Proof.Machine.execFilteredOffset s
  | .firstRefWaitExpiry => Sys2Proof.Machine.execFirstRefWaitExpiry s
  | .outputFirstAlign => Sys2Proof.Machine.execOutputFirstAlign s
  | .outRealign => Sys2Proof.Machine.execOutRealign s
  | .outRealignApply => Sys2Proof.Machine.execOutRealignApply s
  | .rootClaim => Sys2Proof.Machine.execRootClaim s
  | .tbusSyncSend => Sys2Proof.Machine.execTbusSyncSend s
  | .recal => Sys2Proof.Machine.execRecal s
  | .bgRecal => Sys2Proof.Machine.execBgRecal s
  | .pmLendEvent => Sys2Proof.Machine.execPmLendEvent s
  | .marginClear => Sys2Proof.Machine.execMarginClear s
  | .resultWaitExpiry => Sys2Proof.Machine.execResultWaitExpiry s
  | .policyCommit => Sys2Proof.Machine.execPolicyCommit s
  | .policyLoad => Sys2Proof.Machine.execPolicyLoad s
  | .clauseLaunch => Sys2Proof.Machine.execClauseLaunch s
  | .clauseArrive => Sys2Proof.Machine.execClauseArrive s
  | .clauseWait => Sys2Proof.Machine.execClauseWait s
  | .clauseReduce => Sys2Proof.Machine.execClauseReduce s
  | .clauseScan => Sys2Proof.Machine.execClauseScan s
  | .clauseAlloc => Sys2Proof.Machine.execClauseAlloc s
  | .clauseBranch => Sys2Proof.Machine.execClauseBranch s
  | .clauseMark => Sys2Proof.Machine.execClauseMark s
  | .clauseYield => Sys2Proof.Machine.execClauseYield s
  | .clauseAbort => Sys2Proof.Machine.execClauseAbort s
  | .clauseEnd => Sys2Proof.Machine.execClauseEnd s
  | .loadBuf => Sys2Proof.Machine.execLoadBuf s
  | .contextSwap => Sys2Proof.Machine.execContextSwap s
  | .sliceCreate => Sys2Proof.Machine.execSliceCreate s
  | .sliceReset => Sys2Proof.Machine.execSliceReset s
  | .sliceDestroy => Sys2Proof.Machine.execSliceDestroy s
  | .sliceBind => Sys2Proof.Machine.execSliceBind s
  | .sliceUnbind => Sys2Proof.Machine.execSliceUnbind s
  | .filterClr => Sys2Proof.Machine.execFilterClr s
  | .conflictPop => Sys2Proof.Machine.execConflictPop s
  | .healthDecay => Sys2Proof.Machine.execHealthDecay s
  | .expelWindowEnd => Sys2Proof.Machine.execExpelWindowEnd s
  | .censusSlow => Sys2Proof.Machine.execCensusSlow s
  | .journalTriggerStop => Sys2Proof.Machine.execJournalTriggerStop s
  | .journalRetrain => Sys2Proof.Machine.execJournalRetrain s
  | .dieResetRelease => Sys2Proof.Machine.execDieResetRelease s
  | .unitRst => Sys2Proof.Machine.execUnitRst s
  | .chipRst => Sys2Proof.Machine.execChipRst s
  | .resetNAssert => Sys2Proof.Machine.execResetNAssert s
  | .watchdogExpiry => Sys2Proof.Machine.execWatchdogExpiry s
  | .understudyBooted => Sys2Proof.Machine.execUnderstudyBooted s
  | .understudyBootTimeout => Sys2Proof.Machine.execUnderstudyBootTimeout s
  | .activateCensusWait => Sys2Proof.Machine.execActivateCensusWait s
  | .commitWaitExpiry => Sys2Proof.Machine.execCommitWaitExpiry s
  | .heartbeatMiss => Sys2Proof.Machine.execHeartbeatMiss s
  | .presencePress => Sys2Proof.Machine.execPresencePress s
  | .tamperLoopBreak => Sys2Proof.Machine.execTamperLoopBreak s
  | .tamperClear => Sys2Proof.Machine.execTamperClear s
  | .sealArmedExpiry => Sys2Proof.Machine.execSealArmedExpiry s
  | .sealMaxExpiry => Sys2Proof.Machine.execSealMaxExpiry s
  | .irqEventHandshake => Sys2Proof.Machine.execIrqEventHandshake s
  | .healthClear => Sys2Proof.Machine.execHealthClear s
  | .dieResetAssert => Sys2Proof.Machine.execDieResetAssert s
  | .tdPorAssert => Sys2Proof.Machine.execTdPorAssert s
  | .powerGoodFall => Sys2Proof.Machine.execPowerGoodFall s

end Sys2Proof.Machine
end

