-- ==== Sys2Proof/WellFormed.lean ====
section
/-! DEFINITION. Well-formed commands: operands within the numbers of lanes, ports, regions, slices, entries and registers that
the spec gives the two parts. A command that is not well-formed names a thing that does not exist. -/

namespace Sys2Proof

/-- A lane of the TSU, or a port page of the distributor (R90, R472). -/
def okLink (l : LinkId) : Bool :=
  match l.node with
  | .tsu => l.port < 2
  | .gd => l.port < 68

/-- Bytes 12 to 59 of a frame are 48 (R160), and a slot has 64 bytes (R164). -/
def okRx (rx : Rx) : Bool := rx.sent.body.length = 48 && rx.noise.all fun p => p.1 < 64

/-- One of 64 slices (R357). -/
def okSlice (n : Nat) : Bool := n < 64

/-- One of 8 clock regions (R122). -/
def okRegion (r : Nat) : Bool := r < 8

/-- One of 16 slots of a repeater (R136). -/
def okRepSlot (k : Nat) : Bool := k < 16

/-- A 6-bit sequence number of a bus word (R123). -/
def okSeq (q : Nat) : Bool := q < 64

/-- One of 1,024 launch ports (R22). -/
def okPort (p : Nat) : Bool := p < 1024

/-- One of 68 port pages (R472). -/
def okPage (p : Nat) : Bool := p < 68

/-- One of 4,096 tumbler entries or indices (R186). -/
def okEntry (e : Nat) : Bool := e < 4096

/-- One of 256 calendar or arm-table entries (R228, R328). -/
def okCal (e : Nat) : Bool := e < 256

/-- One of 128 context directory entries (R344). -/
def okCtx (c : Nat) : Bool := c < 128

/-- One of 64 child positions (R203). -/
def okChild (i : Nat) : Bool := i < 64

/-- One of the four waits of a slice page, or of the four reference inputs (R94, R466). -/
def okWait (k : Nat) : Bool := k < 4

/-- One of 16 bindings of a slice (R363). -/
def okBinding (b : Nat) : Bool := b < 16

/-- One of 8 entries of the reference priority table (R99). -/
def okPrio (i : Nat) : Bool := i < 8

/-- One of the two Ethernet time ports (R96). -/
def okTwo (n : Nat) : Bool := n < 2

/-- One of the 8 reference sources, 1 to 8 (R99). -/
def okSource (s : Nat) : Bool := 1 ≤ s && s ≤ 8

/-- A register of the ring's configuration (R365, R463). -/
def okCr (r : Nat) : Bool := r = 0x020 || r = 0x024 || r = 0x028

/-- A row of the table of shared stores (R367). -/
def okStore (r : Nat) : Bool := r < 4

/-- A 16-bit object or chunk number (R178). -/
def okObject (o : Nat) : Bool := o < 65536

/-- An offset of a register space: 320 KiB of the TSU, 128 KiB of the distributor (R453, R472). -/
def okOffset (n : Node) (off : Nat) : Bool :=
  match n with
  | .tsu => off < 0x50000
  | .gd => off < 0x20000

/-- A read of the result port with its attributes (R467). -/
def okRead (r : ResultRead) : Bool := r.offset < 33554432 && r.slice < 64 && r.sgen < 256 && r.slot < 64

/-- An arrival on a port's interface (R192). -/
def okArv (a : PortArv) : Bool :=
  a.port < 1024 && a.entry < 4096 && a.slot < 64 && a.weight < 256 && a.slice < 64 && a.sgen < 256

/-- Every operand of the command is in its range. -/
def Instr.ok (i : Instr) : Bool :=
  match i with
  | .timeFrameSend l _ => okLink l
  | .timeFrameRx l rx _ => okLink l && okRx rx
  | .delayMeasurementDone l => okLink l
  | .delayRestart l => okLink l
  | .timeLoss l => okLink l
  | .sourceSwitchBetter l => okLink l
  | .refPpsEdge n _ => okWait n
  | .todMessageRx n _ _ _ _ => okWait n
  | .ptpMessageRx n _ => okTwo n
  | .esmcMessageRx n _ => okTwo n
  | .refLossTimeout s _ => okSource s
  | .refQualified s => okSource s
  | .wtrExpiry i => okPrio i
  | .ptpMasterSend n => okTwo n
  | .repeaterSyncRx r _ _ _ => okRegion r
  | .repeaterAddendRx r _ _ _ _ => okRegion r
  | .repeaterLaunchAtRx r _ _ _ _ _ _ => okRegion r
  | .repeaterCancelRx r _ _ _ => okRegion r
  | .repeaterFchgAtRx r _ _ _ _ => okRegion r
  | .repeaterCalRx r _ _ => okRegion r
  | .tbusAckRx r seq => okRegion r && okSeq seq
  | .tbusResend r seq => okRegion r && okSeq seq
  | .tbusDeliveryLimit r seq => okRegion r && okSeq seq
  | .tbusCalDone r => okRegion r
  | .launchAtSend arm => okCal arm
  | .strobeFire r slot => okRegion r && okRepSlot slot
  | .regionWakeRaise r slot => okRegion r && okRepSlot slot
  | .rgSwitch r => okRegion r
  | .regionRateWindow r _ _ _ => okRegion r
  | .lpFenceDone port => okPort port
  | .fenceHung port => okPort port
  | .regionRst r => okRegion r
  | .trainingAttempt l => okLink l
  | .attemptFail l => okLink l
  | .rateSearchSwitch l => okLink l
  | .rxLock l _ => okLink l
  | .pmdConverged l => okLink l
  | .blockLockAcquired l => okLink l
  | .frameLockAcquired l => okLink l
  | .trainFrameRx l rx => okLink l && okRx rx
  | .blockLockLoss l => okLink l
  | .frameLockLoss l => okLink l
  | .linkBerExceeded l => okLink l
  | .retrain l => okLink l
  | .cntClear l => okLink l
  | .dieAbsent port _ => okPage port
  | .slotTransmit l => okLink l
  | .uncorrectableSlot l _ => okLink l
  | .linkctlRx l rx => okLink l && okRx rx
  | .nakResend l => okLink l
  | .replayFailure l => okLink l
  | .creditReturnDue l => okLink l
  | .linkctlKeepalive l => okLink l
  | .degradeLimitExceeded l => okLink l
  | .idleFrameRx l rx => okLink l && okRx rx
  | .bulkOpenRx l rx => okLink l && okRx rx
  | .bulkDataRx l rx => okLink l && okRx rx
  | .bulkCloseRx l rx => okLink l && okRx rx
  | .bulkChunkDrop object chunk port => okObject object && okObject chunk && okPage port
  | .bulkRxTimeout _ object => okObject object
  | .tumblerCreate slice binding => okSlice slice && okBinding binding
  | .tumblerClose slice binding => okSlice slice && okBinding binding
  | .tumblerFree entry => okEntry entry
  | .portArrival a => okArv a
  | .softwareArrive slice => okSlice slice
  | .heldArrivalRelease entry => okEntry entry
  | .arriveRx l rx => okLink l && okRx rx
  | .turnRx l rx => okLink l && okRx rx
  | .turnForward l rx => okLink l && okRx rx
  | .waitArm slice k => okSlice slice && okWait k
  | .waitTimeout slice k => okSlice slice && okWait k
  | .budgetReclaim port => okPort port
  | .latencyRx l rx => okLink l && okRx rx
  | .latencySend l _ => okLink l
  | .launchForward l rx => okLink l && okRx rx
  | .launchFrameRx l rx => okLink l && okRx rx
  | .stageResume ctx => okCtx ctx
  | .portCapture port _ _ => okPort port
  | .abortFrameRx l rx => okLink l && okRx rx
  | .abortDoneRx l rx => okLink l && okRx rx
  | .lpAbortAck port => okPort port
  | .engAbortLimitExpiry port => okPort port
  | .resultRead r => okRead r
  | .rollcallAskRx l rx => okLink l && okRx rx
  | .rollcallAnsRx l rx => okLink l && okRx rx
  | .clauseRunaway ctx => okCtx ctx
  | .imageLoad slice => okSlice slice
  | .imageUnload slice => okSlice slice
  | .scheduleImageCurrent slice => okSlice slice
  | .calSelect slice _ => okSlice slice
  | .calWrite slice => okSlice slice
  | .calHold entry => okCal entry
  | .calTurn entry => okCal entry
  | .calDoneCheck entry => okCal entry
  | .calRelease port => okPort port
  | .deadlineMiss ctx => okCtx ctx
  | .clauseTimeout ctx => okCtx ctx
  | .sleepEnd ctx => okCtx ctx
  | .seqOrderSubmit slice => okSlice slice
  | .serveCommit slice => okSlice slice
  | .listHeaderAck slice => okSlice slice
  | .orderAbort slice _ => okSlice slice
  | .orderFence slice _ => okSlice slice
  | .orderStop slice _ => okSlice slice
  | .orderStart slice _ => okSlice slice
  | .orderResume slice _ => okSlice slice
  | .orderFrameRx l rx => okLink l && okRx rx
  | .domainRequestGo slice => okSlice slice
  | .fenceComplete slice => okSlice slice
  | .crTailWrite slice _ => okSlice slice
  | .crConfigWrite slice reg _ => okSlice slice && okCr reg
  | .grantRetry resource => okStore resource
  | .healthRx l rx => okLink l && okRx rx
  | .expelReqRx l rx => okLink l && okRx rx
  | .expelGrantRx l rx => okLink l && okRx rx
  | .expelDenyRx l rx => okLink l && okRx rx
  | .expelLimitRx l rx => okLink l && okRx rx
  | .expelNoticeRx l rx => okLink l && okRx rx
  | .expelReadmitRx l rx => okLink l && okRx rx
  | .sideWaitExpiry child => okChild child
  | .sideTakeRx l rx => okLink l && okRx rx
  | .sideReturnDue child => okChild child
  | .sideReturnRx l rx => okLink l && okRx rx
  | .censusListRx l rx => okLink l && okRx rx
  | .censusFetchRx l rx => okLink l && okRx rx
  | .censusResendRx l rx => okLink l && okRx rx
  | .censusAnsRx l rx => okLink l && okRx rx
  | .fetchTimeout _ index => okEntry index
  | .censusPortTimeout port => okPage port
  | .joinReqRx l rx => okLink l && okRx rx
  | .joinAckRx l rx => okLink l && okRx rx
  | .joinAbsentRx l rx => okLink l && okRx rx
  | .joinRefuseRx l rx => okLink l && okRx rx
  | .teardownRx l rx => okLink l && okRx rx
  | .tornRx l rx => okLink l && okRx rx
  | .domainReleaseRx l rx => okLink l && okRx rx
  | .domainReadyRx l rx => okLink l && okRx rx
  | .domainOpenRx l rx => okLink l && okRx rx
  | .portRst port => okPort port
  | .portResetEnd port => okPort port
  | .gdPortRst port => okPage port
  | .rateRetryTimer port => okPage port
  | .rateRetry port => okPage port
  | .portEnWrite port _ => okPage port
  | .rollCallRound object => okObject object
  | .bulkObjectExpiry _ object => okObject object
  | .chunkCacheExpiry object => okObject object
  | .fwctlRx l rx => okLink l && okRx rx
  | .debugSnapshot slice _ => (slice.map okSlice).getD true
  | .lowWordLatchRead n _ offset => okOffset n offset
  | .registerWrite n _ offset _ => okOffset n offset
  | .mgmtSpiTransaction offset _ => okOffset .gd offset
  | .lpCmdTaken port _ => okPort port
  | .childPositionAbsent child => okChild child
  | .refPcsLockLoss n => okTwo n
  | .refFreqMeasure s _ => okSource s
  | .timeClockTick _ | .tdreset _ | .standaloneWrite _ | .addendCommit _ | .pllLockLoss _ | .pllRelock _ |
  .timeDomainPowerOn _ | .restep _ | .qualHoldMet _ | .qualDropMet _ | .flywheelLimit _ | .leapSecondApply _ |
  .forceEntryWrite _ _ | .pmFchgReq _ _ | .laneEnWrite _ | .redundancyLost _ | .readyMarkEnqueue _ _ |
  .tumblerSnapshot _ | .sliceAbortGo _ | .abortWaitExpiry _ | .rollWaitExpiry _ | .treeImageActivate _ |
  .treeWdataWrite _ | .treeLoadCard _ | .rfOffsetWrite _ _ _ | .rfOffsetApply _ | .contextSwapDone _ _ |
  .tornSend _ | .tornWaitExpiry _ | .domainReserve _ | .journalFreeze _ | .journalRead _ | .bootPhasePass _ |
  .bootPhaseTimeout _ | .powerGood _ _ | .bootStageEnd _ _ _ _ | .domainRst _ | .scrubLine _ _ _ | .cardDetect _ |
  .fwLoadCard _ | .fwActivate _ | .fwCommit _ | .fwRevert _ | .keyswChange _ | .ownerLockWrite _ _ | .fuseBlow _ |
  .errlogPop _ | .errlogClear _ | .softSnapshot _ | .dlatSnapshot _ | .ringBypassWrite _ | .gdAbortGo _ |
  .gdOrderGo _ | .resetNRelease _ _ | .thermNAlarm _ | .nwWriteAck _ | .nwReadResponse _ _ | .fwSlotWriteDone _ _ _
  | .setCommit | .takeoverWaitExpiry | .filteredOffset | .firstRefWaitExpiry | .outputFirstAlign | .outRealign |
  .outRealignApply | .rootClaim | .tbusSyncSend | .recal | .bgRecal | .pmLendEvent | .marginClear |
  .resultWaitExpiry | .policyCommit | .policyLoad | .clauseLaunch | .clauseArrive | .clauseWait | .clauseReduce |
  .clauseScan | .clauseAlloc | .clauseBranch | .clauseMark | .clauseYield | .clauseAbort | .clauseEnd | .loadBuf |
  .contextSwap | .sliceCreate | .sliceReset | .sliceDestroy | .sliceBind | .sliceUnbind | .filterClr | .conflictPop
  | .healthDecay | .expelWindowEnd | .censusSlow | .journalTriggerStop | .journalRetrain | .dieResetRelease |
  .unitRst | .chipRst | .resetNAssert | .watchdogExpiry | .understudyBooted | .understudyBootTimeout |
  .activateCensusWait | .commitWaitExpiry | .heartbeatMiss | .presencePress | .tamperLoopBreak | .tamperClear |
  .sealArmedExpiry | .sealMaxExpiry | .irqEventHandshake | .healthClear | .dieResetAssert | .tdPorAssert |
  .powerGoodFall => true

/-- A well-formed command. -/
abbrev Instr.WellFormed (i : Instr) : Prop := i.ok = true

end Sys2Proof
end

