-- ==== Sys2Proof/Safety.lean ====
section
/-! DEFINITION. What counts as a safe state and a safe run of the block: the invariants that the statements name. -/

namespace Sys2Proof

/-- The part a command acts at: its operand names it, or its row belongs to one part. -/
def Instr.part (c : Instr) : Node :=
  match c with
  | .timeClockTick n => n
  | .tdreset _ => .tsu
  | .standaloneWrite _ => .tsu
  | .addendCommit _ => .tsu
  | .pllLockLoss n => n
  | .pllRelock n => n
  | .timeDomainPowerOn n => n
  | .restep _ => .gd
  | .qualHoldMet n => n
  | .qualDropMet n => n
  | .flywheelLimit n => n
  | .leapSecondApply n => n
  | .timeFrameSend l _ => l.node
  | .timeFrameRx l _ _ => l.node
  | .delayMeasurementDone l => l.node
  | .delayRestart l => l.node
  | .timeLoss l => l.node
  | .sourceSwitchBetter l => l.node
  | .refPpsEdge _ _ => .gd
  | .todMessageRx _ _ _ _ _ => .gd
  | .ptpMessageRx _ _ => .gd
  | .esmcMessageRx _ _ => .gd
  | .refLossTimeout _ _ => .gd
  | .refQualified _ => .gd
  | .wtrExpiry _ => .gd
  | .forceEntryWrite _ _ => .gd
  | .ptpMasterSend _ => .gd
  | .repeaterSyncRx _ _ _ _ => .tsu
  | .repeaterAddendRx _ _ _ _ _ => .tsu
  | .repeaterLaunchAtRx _ _ _ _ _ _ _ => .tsu
  | .repeaterCancelRx _ _ _ _ => .tsu
  | .repeaterFchgAtRx _ _ _ _ _ => .tsu
  | .repeaterCalRx _ _ _ => .tsu
  | .tbusAckRx _ _ => .tsu
  | .tbusResend _ _ => .tsu
  | .tbusDeliveryLimit _ _ => .tsu
  | .tbusCalDone _ => .tsu
  | .launchAtSend _ => .tsu
  | .strobeFire _ _ => .tsu
  | .regionWakeRaise _ _ => .tsu
  | .pmFchgReq _ _ => .tsu
  | .rgSwitch _ => .tsu
  | .regionRateWindow _ _ _ _ => .tsu
  | .lpFenceDone _ => .tsu
  | .fenceHung _ => .tsu
  | .regionRst _ => .tsu
  | .trainingAttempt l => l.node
  | .attemptFail l => l.node
  | .rateSearchSwitch l => l.node
  | .rxLock l _ => l.node
  | .pmdConverged l => l.node
  | .blockLockAcquired l => l.node
  | .frameLockAcquired l => l.node
  | .trainFrameRx l _ => l.node
  | .blockLockLoss l => l.node
  | .frameLockLoss l => l.node
  | .linkBerExceeded l => l.node
  | .laneEnWrite _ => .tsu
  | .retrain l => l.node
  | .cntClear l => l.node
  | .redundancyLost n => n
  | .dieAbsent _ _ => .gd
  | .slotTransmit l => l.node
  | .uncorrectableSlot l _ => l.node
  | .linkctlRx l _ => l.node
  | .nakResend l => l.node
  | .replayFailure l => l.node
  | .creditReturnDue l => l.node
  | .linkctlKeepalive l => l.node
  | .degradeLimitExceeded l => l.node
  | .idleFrameRx l _ => l.node
  | .bulkOpenRx l _ => l.node
  | .bulkDataRx l _ => l.node
  | .bulkCloseRx l _ => l.node
  | .bulkChunkDrop _ _ _ => .gd
  | .bulkRxTimeout n _ => n
  | .tumblerCreate _ _ => .tsu
  | .tumblerClose _ _ => .tsu
  | .tumblerFree _ => .tsu
  | .portArrival _ => .tsu
  | .softwareArrive _ => .tsu
  | .heldArrivalRelease _ => .tsu
  | .readyMarkEnqueue n _ => n
  | .arriveRx l _ => l.node
  | .turnRx l _ => l.node
  | .turnForward l _ => l.node
  | .waitArm _ _ => .tsu
  | .waitTimeout _ _ => .tsu
  | .budgetReclaim _ => .tsu
  | .tumblerSnapshot _ => .tsu
  | .latencyRx l _ => l.node
  | .latencySend l _ => l.node
  | .launchForward l _ => l.node
  | .launchFrameRx l _ => l.node
  | .stageResume _ => .tsu
  | .portCapture _ _ _ => .tsu
  | .sliceAbortGo _ => .tsu
  | .abortFrameRx l _ => l.node
  | .abortDoneRx l _ => l.node
  | .abortWaitExpiry _ => .gd
  | .lpAbortAck _ => .tsu
  | .engAbortLimitExpiry _ => .tsu
  | .resultRead _ => .tsu
  | .rollcallAskRx l _ => l.node
  | .rollcallAnsRx l _ => l.node
  | .rollWaitExpiry _ => .gd
  | .clauseRunaway _ => .tsu
  | .imageLoad _ => .tsu
  | .imageUnload _ => .tsu
  | .scheduleImageCurrent _ => .tsu
  | .treeImageActivate n => n
  | .treeWdataWrite _ => .gd
  | .treeLoadCard _ => .gd
  | .rfOffsetWrite n _ _ => n
  | .rfOffsetApply n => n
  | .calSelect _ _ => .tsu
  | .calWrite _ => .tsu
  | .calHold _ => .tsu
  | .calTurn _ => .tsu
  | .calDoneCheck _ => .tsu
  | .calRelease _ => .tsu
  | .deadlineMiss _ => .tsu
  | .clauseTimeout _ => .tsu
  | .sleepEnd _ => .tsu
  | .contextSwapDone _ _ => .tsu
  | .seqOrderSubmit _ => .tsu
  | .serveCommit _ => .tsu
  | .listHeaderAck _ => .tsu
  | .orderAbort _ _ => .tsu
  | .orderFence _ _ => .tsu
  | .orderStop _ _ => .tsu
  | .orderStart _ _ => .tsu
  | .orderResume _ _ => .tsu
  | .orderFrameRx l _ => l.node
  | .domainRequestGo _ => .tsu
  | .fenceComplete _ => .tsu
  | .crTailWrite _ _ => .tsu
  | .crConfigWrite _ _ _ => .tsu
  | .grantRetry _ => .tsu
  | .healthRx l _ => l.node
  | .expelReqRx l _ => l.node
  | .expelGrantRx l _ => l.node
  | .expelDenyRx l _ => l.node
  | .expelLimitRx l _ => l.node
  | .expelNoticeRx l _ => l.node
  | .expelReadmitRx l _ => l.node
  | .sideWaitExpiry _ => .gd
  | .sideTakeRx l _ => l.node
  | .sideReturnDue _ => .gd
  | .sideReturnRx l _ => l.node
  | .censusListRx l _ => l.node
  | .censusFetchRx l _ => l.node
  | .censusResendRx l _ => l.node
  | .censusAnsRx l _ => l.node
  | .fetchTimeout _ _ => .gd
  | .censusPortTimeout _ => .gd
  | .joinReqRx l _ => l.node
  | .joinAckRx l _ => l.node
  | .joinAbsentRx l _ => l.node
  | .joinRefuseRx l _ => l.node
  | .teardownRx l _ => l.node
  | .tornSend _ => .tsu
  | .tornRx l _ => l.node
  | .tornWaitExpiry _ => .gd
  | .domainReleaseRx l _ => l.node
  | .domainReadyRx l _ => l.node
  | .domainOpenRx l _ => l.node
  | .domainReserve _ => .gd
  | .journalFreeze _ => .gd
  | .journalRead _ => .gd
  | .bootPhasePass n => n
  | .bootPhaseTimeout n => n
  | .powerGood _ _ => .gd
  | .bootStageEnd _ _ _ _ => .gd
  | .portRst _ => .tsu
  | .portResetEnd _ => .tsu
  | .gdPortRst _ => .gd
  | .domainRst _ => .gd
  | .rateRetryTimer _ => .gd
  | .rateRetry _ => .gd
  | .portEnWrite _ _ => .gd
  | .scrubLine st _ _ => Machine.storeNode st
  | .rollCallRound _ => .gd
  | .bulkObjectExpiry n _ => n
  | .chunkCacheExpiry _ => .gd
  | .cardDetect _ => .gd
  | .fwLoadCard _ => .gd
  | .fwActivate _ => .gd
  | .fwctlRx l _ => l.node
  | .fwCommit _ => .gd
  | .fwRevert _ => .gd
  | .keyswChange _ => .gd
  | .ownerLockWrite _ _ => .gd
  | .fuseBlow _ => .gd
  | .errlogPop n => n
  | .errlogClear n => n
  | .debugSnapshot _ _ => .tsu
  | .lowWordLatchRead n _ _ => n
  | .registerWrite n _ _ _ => n
  | .softSnapshot _ => .gd
  | .dlatSnapshot _ => .gd
  | .ringBypassWrite _ => .gd
  | .gdAbortGo _ => .gd
  | .gdOrderGo _ => .gd
  | .mgmtSpiTransaction _ _ => .gd
  | .resetNRelease _ _ => .gd
  | .thermNAlarm _ => .gd
  | .nwWriteAck _ => .tsu
  | .nwReadResponse _ _ => .tsu
  | .lpCmdTaken _ _ => .tsu
  | .childPositionAbsent _ => .gd
  | .refPcsLockLoss _ => .gd
  | .refFreqMeasure _ _ => .gd
  | .fwSlotWriteDone _ _ _ => .gd
  | .setCommit => .tsu
  | .takeoverWaitExpiry => .gd
  | .filteredOffset => .gd
  | .firstRefWaitExpiry => .gd
  | .outputFirstAlign => .gd
  | .outRealign => .gd
  | .outRealignApply => .gd
  | .rootClaim => .gd
  | .tbusSyncSend => .tsu
  | .recal => .tsu
  | .bgRecal => .tsu
  | .pmLendEvent => .tsu
  | .marginClear => .tsu
  | .resultWaitExpiry => .tsu
  | .policyCommit => .gd
  | .policyLoad => .gd
  | .clauseLaunch => .tsu
  | .clauseArrive => .tsu
  | .clauseWait => .tsu
  | .clauseReduce => .tsu
  | .clauseScan => .tsu
  | .clauseAlloc => .tsu
  | .clauseBranch => .tsu
  | .clauseMark => .tsu
  | .clauseYield => .tsu
  | .clauseAbort => .tsu
  | .clauseEnd => .tsu
  | .loadBuf => .gd
  | .contextSwap => .tsu
  | .sliceCreate => .tsu
  | .sliceReset => .tsu
  | .sliceDestroy => .tsu
  | .sliceBind => .tsu
  | .sliceUnbind => .tsu
  | .filterClr => .tsu
  | .conflictPop => .tsu
  | .healthDecay => .gd
  | .expelWindowEnd => .gd
  | .censusSlow => .gd
  | .journalTriggerStop => .gd
  | .journalRetrain => .gd
  | .dieResetRelease => .tsu
  | .unitRst => .tsu
  | .chipRst => .gd
  | .resetNAssert => .gd
  | .watchdogExpiry => .gd
  | .understudyBooted => .gd
  | .understudyBootTimeout => .gd
  | .activateCensusWait => .gd
  | .commitWaitExpiry => .gd
  | .heartbeatMiss => .gd
  | .presencePress => .gd
  | .tamperLoopBreak => .gd
  | .tamperClear => .gd
  | .sealArmedExpiry => .gd
  | .sealMaxExpiry => .gd
  | .irqEventHandshake => .tsu
  | .healthClear => .gd
  | .dieResetAssert => .tsu
  | .tdPorAssert => .tsu
  | .powerGoodFall => .gd

/-- The commands that may touch a time domain: those of the time rules, those that train or drop a link, send a slot over one
or receive a frame over one, and those that start a part anew. -/
def Instr.timed (c : Instr) : Bool :=
  match c with
  | .timeClockTick _ => true
  | .tdreset _ => true
  | .standaloneWrite _ => true
  | .addendCommit _ => true
  | .pllLockLoss _ => true
  | .pllRelock _ => true
  | .timeDomainPowerOn _ => true
  | .restep _ => true
  | .qualHoldMet _ => true
  | .qualDropMet _ => true
  | .flywheelLimit _ => true
  | .leapSecondApply _ => true
  | .timeFrameSend _ _ => true
  | .timeFrameRx _ _ _ => true
  | .delayMeasurementDone _ => true
  | .timeLoss _ => true
  | .sourceSwitchBetter _ => true
  | .todMessageRx _ _ _ _ _ => true
  | .ptpMessageRx _ _ => true
  | .trainFrameRx _ _ => true
  | .blockLockLoss _ => true
  | .frameLockLoss _ => true
  | .linkBerExceeded _ => true
  | .laneEnWrite _ => true
  | .retrain _ => true
  | .slotTransmit _ => true
  | .linkctlRx _ _ => true
  | .replayFailure _ => true
  | .idleFrameRx _ _ => true
  | .bulkOpenRx _ _ => true
  | .bulkDataRx _ _ => true
  | .bulkCloseRx _ _ => true
  | .bulkRxTimeout _ _ => true
  | .arriveRx _ _ => true
  | .turnRx _ _ => true
  | .turnForward _ _ => true
  | .latencyRx _ _ => true
  | .launchForward _ _ => true
  | .launchFrameRx _ _ => true
  | .abortFrameRx _ _ => true
  | .abortDoneRx _ _ => true
  | .rollcallAskRx _ _ => true
  | .rollcallAnsRx _ _ => true
  | .treeImageActivate _ => true
  | .treeLoadCard _ => true
  | .orderFrameRx _ _ => true
  | .healthRx _ _ => true
  | .expelReqRx _ _ => true
  | .expelGrantRx _ _ => true
  | .expelDenyRx _ _ => true
  | .expelLimitRx _ _ => true
  | .expelNoticeRx _ _ => true
  | .expelReadmitRx _ _ => true
  | .sideTakeRx _ _ => true
  | .sideReturnRx _ _ => true
  | .censusListRx _ _ => true
  | .censusFetchRx _ _ => true
  | .censusResendRx _ _ => true
  | .censusAnsRx _ _ => true
  | .joinReqRx _ _ => true
  | .joinAckRx _ _ => true
  | .joinAbsentRx _ _ => true
  | .joinRefuseRx _ _ => true
  | .teardownRx _ _ => true
  | .tornRx _ _ => true
  | .domainReleaseRx _ _ => true
  | .domainReadyRx _ _ => true
  | .domainOpenRx _ _ => true
  | .bootPhasePass _ => true
  | .powerGood _ _ => true
  | .bootStageEnd _ _ _ _ => true
  | .gdPortRst _ => true
  | .rateRetryTimer _ => true
  | .rateRetry _ => true
  | .portEnWrite _ _ => true
  | .scrubLine _ _ _ => true
  | .fwActivate _ => true
  | .fwctlRx _ _ => true
  | .fwRevert _ => true
  | .registerWrite _ _ _ _ => true
  | .gdOrderGo _ => true
  | .mgmtSpiTransaction _ _ => true
  | .setCommit => true
  | .takeoverWaitExpiry => true
  | .filteredOffset => true
  | .firstRefWaitExpiry => true
  | .rootClaim => true
  | .loadBuf => true
  | .journalRetrain => true
  | .chipRst => true
  | .resetNAssert => true
  | .watchdogExpiry => true
  | .activateCensusWait => true
  | .heartbeatMiss => true
  | .tdPorAssert => true
  | .powerGoodFall => true
  | _ => false

/-- The commands that may move a counter otherwise than by not touching it: the tick, the steps of R44 and R59, the power-on
of a time domain, and a start of the distributor (R46, R47). -/
def Instr.moves (c : Instr) : Bool :=
  match c with
  | .timeClockTick _ => true
  | .tdreset _ => true
  | .standaloneWrite _ => true
  | .pllLockLoss _ => true
  | .pllRelock _ => true
  | .timeDomainPowerOn _ => true
  | .timeFrameRx _ _ _ => true
  | .powerGood _ _ => true
  | .bootStageEnd _ _ _ _ => true
  | .scrubLine _ _ _ => true
  | .fwActivate _ => true
  | .fwctlRx _ _ => true
  | .fwRevert _ => true
  | .mgmtSpiTransaction _ _ => true
  | .setCommit => true
  | .filteredOffset => true
  | .firstRefWaitExpiry => true
  | .chipRst => true
  | .resetNAssert => true
  | .watchdogExpiry => true
  | .activateCensusWait => true
  | .heartbeatMiss => true
  | .tdPorAssert => true
  | .powerGoodFall => true
  | _ => false

/-- The commands that may change the custody state: the key switch, the presence press and the timers of the seal, the
tamper loop, OWNER_LOCK, what can start the distributor anew, and the writes of the pending-image buffer (R445 to R452). -/
def Instr.custodial (c : Instr) : Bool :=
  match c with
  | .treeWdataWrite _ => true
  | .powerGood _ _ => true
  | .bootStageEnd _ _ _ _ => true
  | .scrubLine _ _ _ => true
  | .fwActivate _ => true
  | .fwctlRx _ _ => true
  | .fwRevert _ => true
  | .keyswChange _ => true
  | .ownerLockWrite _ _ => true
  | .mgmtSpiTransaction _ _ => true
  | .chipRst => true
  | .resetNAssert => true
  | .watchdogExpiry => true
  | .activateCensusWait => true
  | .heartbeatMiss => true
  | .presencePress => true
  | .tamperLoopBreak => true
  | .tamperClear => true
  | .sealArmedExpiry => true
  | .sealMaxExpiry => true
  | .powerGoodFall => true
  | _ => false

/-- The commands that write OWNER_LOCK (R448, R499). -/
def Instr.writesOwnerLock (c : Instr) : Bool :=
  match c with
  | .ownerLockWrite _ _ => true
  | .mgmtSpiTransaction _ _ => true
  | _ => false

end Sys2Proof

namespace Sys2Proof.Machine

open Sys2Proof

/-- The addend of a time domain lies within the clamp of R45. -/
def TimeDom.Clamped (t : TimeDom) : Prop := addendMin ≤ t.addend ∧ t.addend ≤ addendMax

/-- Both nodes' addends lie within the clamp of R45. -/
def State.Clamped (s : State) : Prop := s.tsu.com.time.Clamped ∧ s.gd.com.time.Clamped

/-- Every command that waits is well-formed. -/
def State.QueueOk (s : State) : Prop := ∀ c ∈ s.pending, Instr.WellFormed c

/-- The sequencer has begun to issue a clause for context `c`: every context's place behind another of equal deadline is
forgotten, and `c`'s run counts the clause (R299, R303). -/
def State.begun (s : State) (c : Nat) : State :=
  (s.updTsu fun t => { t with contexts := Tab.map t.contexts fun _ y => { y with yielded := false } }).updCtx c fun x =>
    { x with run := x.run + 1, skipBrk := false, altClause := none, farRefused := false }

/-- The directory entry of a context whose clause has begun to issue. -/
def Ctx.begun (x : Ctx) : Ctx :=
  { x with run := x.run + 1, skipBrk := false, altClause := none, farRefused := false, yielded := false }

/-- The chosen context is `c`, its clause is `k` with this verb, no breakpoint is set on it, and the clause has no
conjunction to be judged before it issues (a LAUNCH clause's is judged at its turn). -/
def State.Issues (s : State) (c : Nat) (x : Ctx) (k : BitVec 128) (verb : Nat) : Prop :=
  s.pickCtx = some (c, x) ∧ (s.slice x.slice).clause x.sentence x.clause = some k ∧ clauseBits k 127 124 = verb
    ∧ s.breakHit c x = false ∧ (verb = 1 ∨ (s.slice x.slice).conjOf x.sentence k = none)

/-- A step ends in a next state. -/
def State.Runs (s : State) : Prop := ∃ t, step s = .next t

/-- A run of `k` steps from a state, none of which stops. -/
inductive RunTo : Nat → State → State → Prop where
  | here (s : State) : RunTo 0 s s
  | more {k : Nat} {s t u : State} (h : step s = .next t) (r : RunTo k t u) : RunTo (k + 1) s u

end Sys2Proof.Machine
end

