-- ==== Sys2Proof/Certificates/Slice0/Obligations.lean ====
section
/-! DEFINITION. The sixty statements for the provers, chapter by chapter. Each says what its rules give for the next
state that `exec` or `step` answers, under hypotheses on the state and the operands alone. A clause that ends in
`= .next s` says where a command has no effect; where the spec gives the command no such case in words, it is the model's
choice of log entry 2 (an event that does not hold leaves the state). -/

open Sys2Proof Sys2Proof.Machine

/-- The state after reset: nothing has stepped or trained, every store is empty, both counters stand at zero with the
nominal addend, no command waits, and both invariants below hold (R46, R54, R65, R149, R444; the key seal LOCKED).
Where it rests on choices of the model: log entries 11, 14. -/
def Obligations.ResetState : Prop :=
  (∀ n, State.reset.now n = Time80.zero ∧ (State.reset.time n).addend = 0x200000000 ∧ (State.reset.time n).tq = .unset
    ∧ (State.reset.time n).stepped = false ∧ (State.reset.time n).launchOk = false)
  ∧ (∀ l, (State.reset.link l).state = .down)
  ∧ (∀ e, Tab.get State.reset.tsu.tumb e = none) ∧ State.reset.tsu.arms = [] ∧ State.reset.tsu.contexts = []
  ∧ State.reset.gd.sealSt = .locked ∧ State.reset.gd.ownerLock = false ∧ State.reset.gd.doms = []
  ∧ State.reset.pending = []
  ∧ State.reset.Clamped ∧ Memory.wf State.reset.gd.treeBuf

/-- A step takes the command at the front of the queue and runs it on the state with the rest of the queue; with no
command waiting the block idles (a choice of the model, log entry 1). -/
def Obligations.StepRunsFront : Prop :=
  (∀ (c : Instr) (rest : List Instr) (s : State), step { s with pending := c :: rest } = exec c { s with pending := rest })
  ∧ ∀ s : State, s.pending = [] → step s = .next s

/-- No command ever stops, and none touches the queue: a step from a state where a command waits answers a next state
whose queue is the rest. Where it rests on choices of the model: log entry 3. -/
def Obligations.StepKeepsQueue : Prop :=
  ∀ (c : Instr) (rest : List Instr) (s : State), s.pending = c :: rest →
    ∃ t, step s = .next t ∧ t.pending = rest

/-- The addends of both counters stay within the clamp of R45 over every step, from every state where they are. -/
def Obligations.AddendStaysClamped : Prop :=
  ∀ s t : State, s.Clamped → step s = .next t → t.Clamped

/-- The pending-image buffer keeps its form over every step: its words in rising order, none of them the value an unlisted
word reads as. -/
def Obligations.BufferStaysWellFormed : Prop :=
  ∀ s t : State, Memory.wf s.gd.treeBuf → step s = .next t → Memory.wf t.gd.treeBuf

/-- No command in operation changes the fuse map of the distributor (R3, R418). Where it rests on choices of the model:
log entry 12. -/
def Obligations.FusesNeverChange : Prop :=
  ∀ s t : State, step s = .next t →
    t.gd.variant = s.gd.variant ∧ t.gd.fabricMax = s.gd.fabricMax ∧ t.gd.powerLimit = s.gd.powerLimit
      ∧ t.gd.unitDis = s.gd.unitDis

/-- A command other than those of `Instr.moves` moves neither counter, nor the always-on clocks, the PLL and standalone
bits: nothing else steps a counter (R44), and no launch-port, region, slice or unit reset moves it (R46). -/
def Obligations.CountersMoveOnlyByName : Prop :=
  ∀ (c : Instr) (s t : State), c.moves = false → exec c s = .next t →
    ∀ n, t.now n = s.now n ∧ t.aon n = s.aon n ∧ (t.time n).pllLocked = (s.time n).pllLocked
      ∧ (t.time n).standalone = (s.time n).standalone

/-- A command other than those of `Instr.custodial` leaves the key seal, OWNER_LOCK, the key switch, the tamper loop and
the pending-image buffer as they are (R446 to R448). -/
def Obligations.CustodyMovesOnlyByName : Prop :=
  ∀ (c : Instr) (s t : State), c.custodial = false → exec c s = .next t →
    t.gd.sealSt = s.gd.sealSt ∧ t.gd.ownerLock = s.gd.ownerLock ∧ t.gd.sealAt = s.gd.sealAt ∧ t.gd.keysw = s.gd.keysw
      ∧ t.gd.loopOk = s.gd.loopOk ∧ t.gd.loopAt = s.gd.loopAt ∧ t.gd.treeBuf = s.gd.treeBuf

/-- OWNER_LOCK is set or cleared only while the seal is OPEN, and only by a write of GD_OWNER or a transaction of the
management port that makes one; a chip reset, a firmware activation and a loss of board power leave it (R448). -/
def Obligations.OwnerLockNeedsOpenSeal : Prop :=
  ∀ (c : Instr) (s t : State), exec c s = .next t → t.gd.ownerLock ≠ s.gd.ownerLock →
    s.gd.sealSt = .opened ∧ c.writesOwnerLock = true

/-- A command acts at one of the two parts and leaves the other wholly as it is: every register, queue, counter and store
of it. Where it rests on choices of the model: log entry 6. -/
def Obligations.CommandActsAtOnePart : Prop :=
  ∀ (c : Instr) (s t : State), exec c s = .next t →
    (c.part = .tsu → t.gd = s.gd) ∧ (c.part = .gd → t.tsu = s.tsu)

/-- A command other than those of `Instr.timed` leaves both time domains wholly as they are: counter, addend, quality,
offset, servo and every status field (R46). -/
def Obligations.TimeDomainMovesOnlyByName : Prop :=
  ∀ (c : Instr) (s t : State), c.timed = false → exec c s = .next t →
    t.tsu.com.time = s.tsu.com.time ∧ t.gd.com.time = s.gd.com.time

/-- On every tick the counter adds the addend: a carry out of the fraction raises NANOSECONDS, which rolls into SECONDS,
and NS32 advances by the same whole nanoseconds (R42, with the nominal addend of R45). While the PLL is out of lock
the counter stands (R47), and a TSU time domain held in power-on reset does not count (R509). The tick on which a
SET_COMMIT written with TDRESET is due is the one it steps on (R65), and is not meant here. Where it rests on choices
of the model: log entry 8. -/
def Obligations.TickAddsAddend : Prop :=
  addendNominal = 0x200000000 ∧
  ∀ (n : Node) (s : State), (n = .tsu → s.tsu.com.time.commitDue = false) → ∃ t, exec (.timeClockTick n) s = .next t ∧
    ((s.time n).pllLocked = true → (n = .tsu → s.tsu.tdHeld = false) →
      t.now n = Time80.ofUnits ((s.now n).toUnits + (s.time n).addend)
      ∧ (t.now n).ns32 = BitVec.ofInt 32 (((s.now n).toUnits + (s.time n).addend) / 4294967296))
    ∧ ((s.time n).pllLocked = false ∨ (n = .tsu ∧ s.tsu.tdHeld = true) → t.now n = s.now n)
    ∧ t.aon n = s.aon n + 2

/-- SET_COMMIT, STANDALONE and ADDEND_COMMIT (R44, R64, R65): a standalone counter steps once, to TSU_TIME_SET on one tick
with all its fraction bits, and sets STEPPED and the signed size of the step; a commit that is not carried out leaves
the counter and sets STEP_REFUSED with the first cause that holds. Nothing else of the state moves. Where it rests on
choices of the model: log entries 2, 36, 37. -/
def Obligations.CounterCommands : Prop :=
  (∀ s : State, s.tsu.com.time.standalone = true → s.tsu.com.time.stepped = false → s.timeSet.ns < 1000000000 →
    exec .setCommit s = .next (s.updTime .tsu fun t =>
      { t with counter := s.timeSet, stepped := true, lastStep := stepSize s.timeSet t.counter,
               epochSet := true }))
  ∧ (∀ s : State, s.tsu.com.time.standalone = false ∨ s.tsu.com.time.stepped = true →
    exec .setCommit s = .next ((s.setEvt .tsu 0x11C 0x1000).logT .timeStepRefused))
  ∧ (∀ s : State, s.tsu.com.time.standalone = true → s.tsu.com.time.stepped = false → 1000000000 ≤ s.timeSet.ns →
    exec .setCommit s = .next ((s.setEvt .tsu 0x11C 0x1000).logT .timeInvalid))
  ∧ (∀ s : State, s.tsu.com.time.tq = .unset ∨ s.tsu.com.time.tq = .loc →
    exec (.standaloneWrite true) s = .next (s.updTime .tsu fun t =>
      { t with standalone := true, tq := .loc, mode := .idle, sel := none, upTq := .none }))
  ∧ (∀ s : State, s.tsu.com.time.tq = .unset ∨ s.tsu.com.time.tq = .loc → s.tsu.com.time.standalone = true →
    ∃ t, exec (.standaloneWrite false) s = .next t ∧ t.tsu.com.time.standalone = false ∧ t.tsu.com.time.stepped = false
      ∧ t.now .tsu = s.now .tsu ∧ t.gd = s.gd)
  ∧ (∀ (s : State) (w : Word), s.tsu.com.time.standalone = true → ∃ t, exec (.addendCommit w) s = .next t
    ∧ t.tsu.com.time.addend = clampAddend ((bitsOf w.toNat 3 0 : Nat) * 4294967296 + s.tsu.com.time.addendW0.toNat)
    ∧ t.now .tsu = s.now .tsu ∧ t.gd = s.gd)
  ∧ (∀ (s : State) (w : Word), s.tsu.com.time.standalone = false → exec (.addendCommit w) s = .next s)

/-- A time-domain reset does not move the counter: STEPPED and LAUNCH_OK are cleared, TQ becomes LOCAL with STANDALONE
set, else ACQUIRING where a lane is trained for time and UNSET where none is, and the addend stays (R47). TDRESET
makes it; a SET_COMMIT written with it is applied on the following tick with STANDALONE set, else at once, when it is
refused (R65); the relock of the PLL makes it, its loss setting CLK_LOSS and standing the counter (R46). The power-on
of a time domain starts its counter at zero with the nominal addend, unstepped and without LAUNCH_OK; a trained lane
makes it ACQUIRING; the always-on clock counts on (R46, R65). TSU_TD_POR_N low holds it there and its rise lets it go
(R509). A forced re-step needs the key seal open and a whole word of the lead or the management port: it resets the
time domain and raises the epoch by one, wrapping from 255 to 0 (R48). Where it rests on choices of the model: log
entry 2. -/
def Obligations.TimeDomainRules : Prop :=
  (∀ s : State, ∃ t, exec (.tdreset false) s = .next t
    ∧ t.now .tsu = s.now .tsu ∧ t.tsu.com.time.addend = s.tsu.com.time.addend
    ∧ t.tsu.com.time.stepped = false ∧ t.tsu.com.time.launchOk = false
    ∧ t.tsu.com.time.tq = (if s.tsu.com.time.standalone then .loc else if s.anyTrained .tsu then .acquiring else .unset)
    ∧ (s.tsu.com.time.standalone = true →
      exec (.tdreset true) s = .next (t.updTime .tsu fun t => { t with commitDue := true }))
    ∧ (s.tsu.com.time.standalone = false → exec (.tdreset true) s = exec .setCommit t))
  ∧ (∀ (n : Node) (s : State), exec (.pllLockLoss n) s
      = .next ((s.updTime n fun t => { t with pllLocked := false }).setEvt n 0x11C 0x200))
  ∧ (∀ (n : Node) (s : State), (s.time n).pllLocked = true → exec (.pllRelock n) s = .next s)
  ∧ (∀ (n : Node) (s : State), (s.time n).pllLocked = false → ∃ t, exec (.pllRelock n) s = .next t
    ∧ t.now n = s.now n ∧ (t.time n).addend = (s.time n).addend ∧ (t.time n).pllLocked = true
    ∧ (t.time n).stepped = false ∧ (t.time n).launchOk = false)
  ∧ (∀ (n : Node) (s : State), ∃ t, exec (.timeDomainPowerOn n) s = .next t
    ∧ t.now n = Time80.zero ∧ (t.time n).addend = addendNominal ∧ (t.time n).stepped = false
    ∧ (t.time n).launchOk = false ∧ t.aon n = s.aon n
    ∧ (t.time n).tq = (if s.anyTrained n then .acquiring else .unset) ∧ (n = .tsu → t.tsu.tdHeld = false))
  ∧ (∀ s : State, ∃ t, exec .tdPorAssert s = .next t ∧ t.now .tsu = Time80.zero ∧ t.tsu.tdHeld = true ∧ t.gd = s.gd)
  ∧ (∀ (s : State) (acc : Access), acc.whole = true → acc.master ≠ 2 → acc.same = false → s.gd.sealSt = .opened →
    ∃ t, exec (.restep acc) s = .next t ∧ t.gd.com.time.epoch = s.gd.com.time.epoch + 1
      ∧ t.now .gd = s.now .gd ∧ t.gd.com.time.stepped = false ∧ t.gd.com.time.launchOk = false ∧ t.tsu = s.tsu)
  ∧ (∀ (s : State) (acc : Access), acc.whole = true → acc.master ≠ 2 → acc.same = false → s.gd.sealSt ≠ .opened →
    exec (.restep acc) s = .next (s.custodyRefused 0x124))

/-- The quality transitions (R54 to R58, R85): QUALIFIED with LAUNCH_OK once the conditions of R55 hold; SETTLING, with
LAUNCH_OK kept, once a QUALIFIED node was out of QUAL_LIMIT for the drop and within 1 µs (R56); WITHDRAWN, with
LAUNCH_OK cleared, after 100,000,000 ns of FLYWHEEL on the node's own counter (R58); and at LEAP_AT the node takes
UTC_NEXT and clears both flags, the counter unmoved (R85). Where it rests on choices of the model: log entry 2. -/
def Obligations.QualityRules : Prop :=
  (∀ (n : Node) (s : State), s.qualMet n = true → (s.time n).tq = .settling ∨ (s.time n).tq = .withdrawn →
    (n = .tsu → s.tsu.nbrMismatch = false) → ∃ t, exec (.qualHoldMet n) s = .next t
      ∧ (t.time n).tq = .qualified ∧ (t.time n).launchOk = true ∧ t.now n = s.now n)
  ∧ (∀ (n : Node) (s : State), (s.time n).tq = .qualified → s.qualDrop n ≤ (s.time n).outLimit →
    (s.time n).offset.natAbs ≤ 65536000 → ∃ t, exec (.qualDropMet n) s = .next t
      ∧ (t.time n).tq = .settling ∧ (t.time n).launchOk = (s.time n).launchOk ∧ t.now n = s.now n)
  ∧ (∀ (n : Node) (s : State) (at0 : Time80), (s.time n).tq = .flywheel → (s.time n).flyAt = some at0 →
    at0.toNs16 + 100000000 * 65536 ≤ (s.now n).toNs16 → ∃ t, exec (.flywheelLimit n) s = .next t
      ∧ (t.time n).tq = .withdrawn ∧ (t.time n).launchOk = false ∧ (t.time n).addend = (s.time n).addend
      ∧ t.now n = s.now n)
  ∧ (∀ (n : Node) (s : State) (at0 : Time80), (s.time n).tq = .flywheel → (s.time n).flyAt = some at0 →
    (s.now n).toNs16 < at0.toNs16 + 100000000 * 65536 → exec (.flywheelLimit n) s = .next s)
  ∧ (∀ (n : Node) (s : State), (s.time n).info.leap61 = true ∨ (s.time n).info.leap59 = true →
    (s.time n).info.leapAt.toNs ≤ (s.now n).toNs →
    exec (.leapSecondApply n) s = .next (s.updTime n fun t =>
      { t with info := { t.info with utcOffset := t.info.utcNext, leap61 := false, leap59 := false } }))

/-- A time frame leaves a link that is UP or in IDENT with the next sequence number; its departure stamp, corrected at
7.8125 ps, is kept for the echo, newest first, and its time field is NS32 of that stamp (R67 to R74). On another link
nothing is sent. Where it rests on choices of the model: log entries 2, 30. -/
def Obligations.TimeFrameSendRules : Prop :=
  (∀ (l : LinkId) (stamp : Int) (s : State), (s.link l).state = .up ∨ (s.link l).state = .ident →
    ∃ t f, exec (.timeFrameSend l stamp) s = .next t
      ∧ (t.src l).tseq = (s.src l).tseq + 1
      ∧ (t.src l).sent.head? = some ⟨(s.src l).tseq + 1, stamp48 (correctStamp stamp (s.txCorr l)), s.aon l.node⟩
      ∧ (t.link l).line = some f ∧ (t.link l).wire = rsLine f.bytes ∧ f.type = 0x01 ∧ f.cls = 0
      ∧ f.time = BitVec.ofNat 32 (stamp48 (correctStamp stamp (s.txCorr l)) / 65536)
      ∧ t.time l.node = { s.time l.node with hopsSent := s.ownHops l.node })
  ∧ (∀ (l : LinkId) (stamp : Int) (s : State), (s.link l).state ≠ .up → (s.link l).state ≠ .ident →
    exec (.timeFrameSend l stamp) s = .next s)

/-- A received time frame (R70, R75, R85, R162, R168): on a link that is UP it takes its slot and does what a valid frame
brings; from the selected TSU lane, without an echo, it makes the lane known to time, keeps its stamp for the echo,
and gives the node its sender's quality and fields, and moves no counter. On an excluded link only the slot is
counted; one that is poison is counted and discarded; one of another version is malformed; one with an invalid time is
recorded; and on a link that is down nothing is received. Where it rests on choices of the model: log entries 2, 28. -/
def Obligations.TimeFrameRxRules : Prop :=
  (∀ (p : Nat) (rx : Rx) (stamp : Int) (s : State), (s.link ⟨.tsu, p⟩).state = .up → (s.link ⟨.tsu, p⟩).excluded = false →
    rx.check = .good → rx.frame.type = 0x01 → rx.frame.cls = 0 → rx.frame.ver.toNat = (s.link ⟨.tsu, p⟩).arch →
    timeFrameValid rx.frame = true → s.tsu.com.time.sel = some p →
    s.tsu.com.time.stepped = false ∨ s.tsu.com.time.epoch.toNat = rx.frame.byte 34 →
    frameQuality rx.frame = .qualified → bitOf (rx.frame.byte 35) 1 = false →
    exec (.timeFrameRx ⟨.tsu, p⟩ rx stamp) s = .next (((s.updLink ⟨.tsu, p⟩ fun k => { k.slotIn with uncorrRun := 0 }).updSrc
      ⟨.tsu, p⟩ fun v =>
        { v with timeOk := true, lost := false, lastValid := s.aon .tsu, senderTq := .qualified, better := 0,
                 rxs := (⟨BitVec.ofNat 8 (rx.frame.byte 33), rx.frame.time.toNat * 65536 + rx.frame.nat 12 2,
                   correctStamp stamp (- s.rxCorr ⟨.tsu, p⟩)⟩ :: v.rxs).take 5,
                 senderEpoch := BitVec.ofNat 8 (rx.frame.byte 34), senderHops := rx.frame.byte 50,
                 info := frameInfo rx.frame }).updTime .tsu fun t =>
          { t with info := frameInfo rx.frame, upTq := .qualified }))
  ∧ (∀ (l : LinkId) (rx : Rx) (stamp : Int) (s : State), (s.link l).state = .up → (s.link l).excluded = false →
    rx.check = .good → rx.frame.type = 0x01 → rx.frame.cls = 0 → rx.frame.ver.toNat = (s.link l).arch →
    timeFrameValid rx.frame = true →
    exec (.timeFrameRx l rx stamp) s = .next (((s.updLink l fun k => { k.slotIn with uncorrRun := 0 }).timeFrameTake l rx.frame
      stamp true).addendWord s.tsu.com.time.addend))
  ∧ (∀ (l : LinkId) (rx : Rx) (stamp : Int) (s : State), (s.link l).state = .up → (s.link l).excluded = true →
    rx.check = .good → rx.frame.type = 0x01 → rx.frame.cls = 0 → rx.frame.ver.toNat = (s.link l).arch →
    exec (.timeFrameRx l rx stamp) s = .next (s.updLink l fun k => { k.slotIn with uncorrRun := 0 }))
  ∧ (∀ (l : LinkId) (rx : Rx) (stamp : Int) (s : State), (s.link l).state = .up → rx.check = .good → rx.frame.type = 0x01 →
    rx.frame.ver.toNat ≠ (s.link l).arch →
    exec (.timeFrameRx l rx stamp) s = .next ((s.updLink l fun k => { k.slotIn with uncorrRun := 0 }).malformed l))
  ∧ (∀ (l : LinkId) (rx : Rx) (stamp : Int) (s : State), (s.link l).state = .up → (s.link l).excluded = false →
    rx.check = .good → rx.frame.type = 0x01 → rx.frame.cls = 0 → rx.frame.ver.toNat = (s.link l).arch →
    timeFrameValid rx.frame = false →
    exec (.timeFrameRx l rx stamp) s
      = .next ((s.updLink l fun k => { k.slotIn with uncorrRun := 0 }).log l.node .timeInvalid l.source))
  ∧ (∀ (l : LinkId) (rx : Rx) (stamp : Int) (s : State), (s.link l).state = .up → rx.check = .poison →
    exec (.timeFrameRx l rx stamp) s = .next (s.updLink l fun k =>
      { k.slotIn with poisoned := min (k.poisoned + 1) 0xFFFF, uncorrRun := 0 }))
  ∧ (∀ (l : LinkId) (rx : Rx) (stamp : Int) (s : State), (s.link l).state ≠ .up → (s.link l).state ≠ .ident →
    exec (.timeFrameRx l rx stamp) s = .next s)

/-- The delay measurement and the selection (R77, R78, R82, R83): after 64 exchanges the mean is their sum over 64 and the
source is measured; sixteen gated exchanges in a row restart it, with PATH_CHANGED; a lane silent for 16 periods is
lost for time; and a candidate better for 16 periods becomes the selected source without a step. Where it rests on
choices of the model: log entry 30. -/
def Obligations.SourceRules : Prop :=
  (∀ (l : LinkId) (s : State), (s.src l).delayValid = false → 64 ≤ (s.src l).count → (s.link l).state = .up →
    (s.src l).oldMean = none → (s.time l.node).sel = some l.port →
    exec (.delayMeasurementDone l) s = .next ((((s.updSrc l fun v =>
      { v with delayValid := true, measured := true, away := false, mean := ⟨(s.src l).sum, 6⟩, oldMean := none, count := 0,
               gated := 0, freqErr := firstIntegral v.thetaFirst v.theta }).acquire l).selectSource l.node).addendWord
        s.tsu.com.time.addend))
  ∧ (∀ (l : LinkId) (s : State), 16 ≤ (s.src l).gated → (s.src l).delayValid = true →
    exec (.delayRestart l) s = .next (((s.updSrc l fun v =>
      { v with delayValid := false, count := 0, sum := 0, gated := 0 }).setEvt l.node (tstatOff l) 0x8).log l.node
        .pathChanged l.source))
  ∧ (∀ (l : LinkId) (s u : State), s.trained l = true → (s.src l).lost = false →
    (s.src l).lastValid + 16384 ≤ s.aon l.node →
    u = ((s.updSrc l fun v => { v with lost := true, away := true }).setEvt l.node (tstatOff l) 0x4).log l.node .timeLoss l.source →
    exec (.timeLoss l) s = .next ((if l.node = .tsu then u.healthSend .timeLoss else u).srcInvalid l))
  ∧ (∀ (p : Nat) (s : State), s.trained ⟨.gd, p⟩ = true → (s.src ⟨.gd, p⟩).lost = false →
    (s.src ⟨.gd, p⟩).lastValid + 16384 ≤ s.aon .gd → p ≠ s.gd.partnerPort → p ≠ 64 → p ≠ 65 → s.gd.com.time.sel ≠ some p →
    s.gd.com.time.tq ≠ .acquiring → ∃ t, exec (.timeLoss ⟨.gd, p⟩) s = .next t
      ∧ t.src ⟨.gd, p⟩ = { (s.src ⟨.gd, p⟩).remeasure with lost := true, away := true, timeOk := false }
      ∧ t.gd.com.time = s.gd.com.time ∧ t.tsu = s.tsu)
  ∧ (∀ (l : LinkId) (s : State), 16 ≤ (s.src l).better → l.port ∈ s.candPorts l.node → s.eligible l = true →
    (s.time l.node).stepped = false ∨ (s.src l).senderEpoch = (s.time l.node).epoch →
    ∃ t, exec (.sourceSwitchBetter l) s = .next t ∧ (t.time l.node).sel = some l.port
      ∧ (t.time l.node).upTq = (s.src l).senderTq ∧ t.now l.node = s.now l.node
      ∧ (t.time l.node).addend = (s.time l.node).addend)

/-- The reference inputs (R95 to R98, R103): a 1PPS edge is corrected by REF_DELAY and accepted, and one more than 100 ns
from the instant predicted from the last accepted edge is a PHASE_HIT; a good time-of-day message names its edge and
gives the second's offset and the UTC offset, one without an edge or with a bad checksum is a fault; a Sync of the
chosen master adds its offset to this second's; an Announce above the class limit and an ESMC message of QL-DNU are
faults; so is the loss of PCS lock, a missing edge or message past its limit, and a frequency beyond its limit. -/
def Obligations.ReferenceInputRules : Prop :=
  (∀ (n : Nat) (stamp at0 : Int) (s : State), n < 4 → s.refPresent (n + 1) = true → s.refMode n = 1 →
    (s.refSrc (n + 1)).lastEdge = none →
    at0 = correctStamp stamp (- (BitVec.ofNat 32 (s.reg .gd (0x218 + 4 * n))).toInt) →
    exec (.refPpsEdge n stamp) s = .next (((s.updRefSrc (n + 1) fun v => { v with lastPulse := some at0, lastSeen := s.aon .gd }).updRefSrc
      (n + 1) fun v => { v with lastEdge := some at0 }).refGood (n + 1)))
  ∧ (∀ (n : Nat) (stamp at0 e : Int) (s : State), n < 4 → s.refPresent (n + 1) = true → s.refMode n = 1 →
    (s.refSrc (n + 1)).lastEdge = some e →
    at0 = correctStamp stamp (- (BitVec.ofNat 32 (s.reg .gd (0x218 + 4 * n))).toInt) → 6553600 < (s.edgeFrom e at0).2.natAbs →
    exec (.refPpsEdge n stamp) s = .next ((s.updRefSrc (n + 1) fun v =>
      { v with lastPulse := some at0, lastSeen := s.aon .gd }).refFault (n + 1) 0x10))
  ∧ (∀ (n : Nat) (stamp : Int) (sec : Nat) (ok : Bool) (utc : UtcNews) (s : State), n < 4 →
    s.refPresent (n + 1) = true → s.refMode n = 1 → (s.refSrc (n + 1)).lastPulse = none →
    exec (.todMessageRx n stamp sec ok utc) s = .next (s.refFault (n + 1) 0x20))
  ∧ (∀ (n : Nat) (stamp e : Int) (sec : Nat) (utc : UtcNews) (s : State), n < 4 →
    s.refPresent (n + 1) = true → s.refMode n = 1 → (s.refSrc (n + 1)).lastPulse = some e →
    exec (.todMessageRx n stamp sec false utc) s
      = .next ((s.updRefSrc (n + 1) fun v => { v with lastSec := none }).refFault (n + 1) 0x20))
  ∧ (∀ (n : Nat) (stamp e : Int) (sec : Nat) (utc : UtcNews) (s : State), n < 4 →
    s.refPresent (n + 1) = true → s.refMode n = 1 → (s.refSrc (n + 1)).lastPulse = some e →
    bitOf (s.reg .gd 0x214) (8 * n + 2) = false → 655360000000 ≤ stamp - e → stamp - e ≤ 58982400000000 →
    (s.refSrc (n + 1)).lastSec = none ∨ (s.refSrc (n + 1)).lastSec = some (sec - 1) ∧ 1 ≤ sec →
    exec (.todMessageRx n stamp sec true utc) s = .next (((s.updRefSrc (n + 1) fun v =>
      { v with lastSec := some sec, goodSecs := v.goodSecs + 1, sum := e - (sec : Int) * 65536000000000,
               num := if v.lastEdge = v.lastPulse then 1 else 0 }).takeUtc
        (some utc.offset) utc.leap).refGood (n + 1)))
  ∧ (∀ (n dom id : Nat) (t1 t2 t3 t4 : Int) (s : State), n < 2 → s.gd.hasPtp = true → s.ptpRole n = 3 → dom = s.ptpDomain n →
    (s.refSrc (n + 5)).chosen = some id →
    exec (.ptpMessageRx n (.sync dom id t1 t2 t3 t4)) s = .next ((s.updRefSrc (n + 5) fun v =>
      { v with lastSeen := s.aon .gd, lastSec := some (t1 / 65536000000000).toNat,
               sum := v.sum + roundAway ((t2 - t1) - (t4 - t3)) 2, num := v.num + 1 }).refGood (n + 5)))
  ∧ (∀ (n dom id cls rank : Nat) (leap : Option LeapNews) (s u : State), n < 2 → s.gd.hasPtp = true → s.ptpRole n = 3 →
    dom = s.ptpDomain n → u = (s.updRefSrc (n + 5) fun v =>
      { v with masters := Tab.put v.masters id ⟨cls, rank, s.aon .gd⟩,
               chosen := { v with masters := Tab.put v.masters id ⟨cls, rank, s.aon .gd⟩ : RefSrc }.bestMaster (s.aon .gd) }) →
    ((u.refSrc (n + 5)).chosen ≠ some id → exec (.ptpMessageRx n (.announce dom id cls rank leap)) s = .next u)
    ∧ ((u.refSrc (n + 5)).chosen = some id → s.ptpClassMax < cls →
      exec (.ptpMessageRx n (.announce dom id cls rank leap)) s = .next (((u.updRefSrc (n + 5) fun v =>
        { v with lastAnn := s.aon .gd, classRx := cls }).takeUtc none leap).refFault (n + 5) 0x80)))
  ∧ (∀ (n dom : Nat) (s : State), n < 2 → s.gd.hasPtp = true → s.ptpRole n = 1 → dom = s.ptpDomain n →
    exec (.ptpMessageRx n (.delayReq dom)) s
      = .next (s.updGd fun g => { g with ptpOut := [⟨n, true, none, .other, s.gd.com.time.counter⟩] }))
  ∧ (∀ (n : Nat) (q : EsmcLevel) (s : State), n < 2 → s.refPresent (n + 7) = true →
    exec (.esmcMessageRx n q) s = .next
      (if q = .dnu then (s.updRefSrc (n + 7) fun v => { v with lastAnn := s.aon .gd, dnu := true, pcsLost := false }).refFault (n + 7) 0x8
       else (s.updRefSrc (n + 7) fun v => { v with lastAnn := s.aon .gd, dnu := false, pcsLost := false }).refGood (n + 7)))
  ∧ (∀ (n : Nat) (s : State), n < 2 → s.refPresent (n + 7) = true →
    exec (.refPcsLockLoss n) s = .next ((s.updRefSrc (n + 7) fun v => { v with pcsLost := true }).refFault (n + 7) 0x8))
  ∧ (∀ (src : Nat) (why : RefLoss) (s : State), s.lossApplies src why = true →
    (s.refSrc src).state = .qualifying ∨ (s.refSrc src).state = .qualified →
    (if (lossLimit why).2 then (s.refSrc src).lastAnn else (s.refSrc src).lastSeen) + (lossLimit why).1 ≤ s.aon .gd →
    exec (.refLossTimeout src why) s = .next ((s.updRefSrc src fun v => { v with lastEdge := none }).refFault src 0x8))
  ∧ (∀ (src : Nat) (dev : Int) (s u : State), src = 7 ∨ src = 8 → s.refPresent src = true →
    u = ((s.noteRate src dev).updRefSrc src fun v => { v with lastSeen := s.aon .gd }) →
    exec (.refFreqMeasure src dev) s = .next (if s.refFreqLimit < dev.natAbs then u.refFault src 0x40 else u.refGood src))
  ∧ (∀ (src : Nat) (bit : Word) (s : State), s.refPresent src = true →
    ((s.refFault src bit).refSrc src).state = .failed ∧ (s.refFault src bit).gd.com.time = s.gd.com.time)

/-- The selector and the time root (R93, R98, R100, R103, R110, R118): an entry free of faults for REF_QUAL_TIME becomes
QUALIFIED and the selector runs; a revertive better entry is taken after its WTR; FORCE_ENTRY needs the key seal open;
a standby root takes over after TAKEOVER_WAIT; a hall root with no reference after FIRST_REF_WAIT steps to its
journal's latest time plus 1 s; a pod candidate claims time root at the end of its election wait; and PULLING passes
to LOCKED on the 16th filtered offset in a row within 5 ns (R104). Where it rests on choices of the model: log entry
2. -/
def Obligations.SelectorRules : Prop :=
  (∀ (src : Nat) (s : State), (s.refSrc src).state = .qualifying → (s.refSrc src).okSince + s.refQualTime ≤ s.aon .gd →
    ∃ t, exec (.refQualified src) s = .next t ∧ (t.refSrc src).state = .qualified ∧ (t.refSrc src).qualAt = s.aon .gd
      ∧ t = (s.updRefSrc src fun v => { v with state := .qualified, qualAt := s.aon .gd }).refSelect
      ∧ t.gd.com.time = s.gd.com.time ∧ t.tsu = s.tsu)
  ∧ (∀ (i c d : Nat) (s : State), bitOf (s.reg .gd 0x268) 3 = false → s.gd.ref.hold = none →
    s.gd.ref.timeEntry = some c → s.gd.ref.freqEntry = some d → s.timeCand c = true → s.freqCand d = true →
    s.mayRevert s.timeCand (some c) i = true → s.mayRevert s.freqCand (some d) i = true →
    ∃ t, exec (.wtrExpiry i) s = .next t ∧ t.gd.ref.timeEntry = some i ∧ t.gd.ref.freqEntry = some i
      ∧ t.gd.com.time = s.gd.com.time ∧ t.tsu = s.tsu)
  ∧ (∀ (acc : Access) (w : Word) (s : State), acc.whole = true → acc.master ≠ 2 → acc.same = false →
    s.gdAbsent 0x268 = false → s.gd.sealSt = .opened → ∃ t, exec (.forceEntryWrite acc w) s = .next t
      ∧ t.reg .gd 0x268 = (w &&& 0xF#32).toNat ∧ t = ((s.noteWrite acc 0x268).setReg .gd 0x268 (w &&& 0xF#32)).refSelect
      ∧ (s.gd.ref.hold = none → bitOf w.toNat 3 = true → s.timeCand (bitsOf w.toNat 2 0) = true →
        t.gd.ref.timeEntry = some (bitsOf w.toNat 2 0))
      ∧ t.gd.com.time = s.gd.com.time ∧ t.tsu = s.tsu)
  ∧ (∀ (acc : Access) (w : Word) (s : State), acc.whole = true → acc.master ≠ 2 → acc.same = false →
    s.gdAbsent 0x268 = false → s.gd.sealSt ≠ .opened →
    exec (.forceEntryWrite acc w) s = .next (s.custodyRefused 0x268))
  ∧ (∀ (at0 : Nat) (s : State), s.gd.ref.partnerLostAt = some at0 → s.gd.role = some 3 → s.gd.ref.isRoot = false →
    s.gd.com.time.stepped = true → (s.src ⟨.gd, s.gd.partnerPort⟩).lost = true → at0 + s.takeoverWait ≤ s.aon .gd →
    ∃ t, exec .takeoverWaitExpiry s = .next t ∧ t = s.takeOver ∧ t.gd.ref.isRoot = true ∧ t.gd.com.time.launchOk = true
      ∧ t.gd.com.time.tq = .qualified ∧ t.gd.com.time.sel = none ∧ t.now .gd = s.now .gd
      ∧ t.gd.actingTo = some s.gd.sideB)
  ∧ (∀ s : State, s.gd.ref.partnerLostAt = none → exec .takeoverWaitExpiry s = .next s)
  ∧ (∀ s : State, s.gd.role = some 3 → s.gd.com.time.stepped = false → s.gd.com.time.sel = none →
    s.bestEntry s.firstStepEntry = none → s.gd.ref.powerAt + s.firstRefWait ≤ s.aon .gd →
    ∃ t, exec .firstRefWaitExpiry s = .next t
      ∧ t = (s.stepCounter .gd (Time80.ofNs (s.gd.journalTime.toNs + 1000000000))).becomeRoot
      ∧ t.now .gd = Time80.ofNs (s.gd.journalTime.toNs + 1000000000) ∧ t.gd.com.time.stepped = true ∧ t.gd.ref.isRoot = true)
  ∧ (∀ (at0 : Nat) (s : State), s.gd.ref.upLostAt = some at0 → s.gd.role = some 2 → s.gd.variant = .gd64x →
    2 ≤ s.rootIndex (s.gd.locator.getD 0) → s.rootIndex (s.gd.locator.getD 0) ≤ 7 → s.gd.ref.isRoot = false →
    s.gd.com.time.stepped = true →
    at0 + s.electWait + (s.rootIndex (s.gd.locator.getD 0) - 2) * 5000000 ≤ s.aon .gd → s.rootTimeSeen = false →
    ∃ t, exec .rootClaim s = .next t
      ∧ t = ((s.becomeRoot.updRef fun r => { r with elected := true }).logG .rootElected)
      ∧ t.gd.ref.isRoot = true ∧ t.gd.ref.elected = true ∧ t.gd.com.time.tq = .qualified ∧ t.now .gd = s.now .gd)
  ∧ (∀ (e : Nat) (o : Int) (s u : State), u = [1, 2, 3, 4, 5, 6].foldl (fun x src => x.filterSource src) s →
    u.gd.ref.isRoot = true → u.gd.com.time.stepped = true → s.gd.ref.timeEntry = some e → u.gd.ref.timeEntry = some e →
    (s.refSrc (s.prioSource e)).num ≠ 0 → (s.refSrc (s.prioSource e)).filtered ≠ none →
    (u.refSrc (u.prioSource e)).filtered = some o → u.gd.ref.rstate = .pulling → 15 ≤ u.gd.ref.inRow →
    o.natAbs ≤ 327680 →
    ∃ t, exec .filteredOffset s = .next t ∧ t.gd.ref.rstate = .locked ∧ t.gd.ref.everTrace = true ∧ t.gd.ref.offset = o
      ∧ t.gd.com.time = u.gd.com.time)

/-- The outputs (R96, R111, R114): a MASTER port sends its class and level at the counter; a newly enabled output aligns
at the next second boundary after the node has stepped; OUT_REALIGN keeps the counter it was ordered at, and the shift
is made at the first second boundary at least 2 ms after it, not before. An output is live once it is enabled and not
held low. Where it rests on choices of the model: log entry 2. -/
def Obligations.OutputRules : Prop :=
  (∀ (n : Nat) (s : State), n < 2 → s.gd.hasPtp = true → s.ptpRole n = 1 →
    exec (.ptpMasterSend n) s = .next (s.updGd fun g =>
      { g with ptpOut := [⟨n, false, s.masterClass.1, s.masterClass.2, g.com.time.counter⟩],
               ref := { g.ref with classTx := Tab.put g.ref.classTx n (s.masterClass.1.getD 0xFF) } }))
  ∧ (∀ (t : Time80) (s u : State), s.gd.com.time.stepped = true → s.gd.out.aligned = false → bitsOf (s.reg .gd 0x2A4) 2 0 ≠ 0 →
    s.gd.out.firstAt = some t → nextSecond t ≤ s.gd.com.time.counter.toNs →
    u = (s.updGd fun g => { g with out := { g.out with misalign := 0, aligned := true, orderAt := none, firstAt := none } }) →
    exec .outputFirstAlign s = .next (u.updGd fun g => { g with out := { g.out with
      live := [0, 1, 2].map fun k => (k, u.outAllowed k), rfHeld := false } }))
  ∧ (∀ s : State, s.gdAbsent 0x2A4 = false → exec .outRealign s
      = .next (s.updGd fun g => { g with out := { g.out with orderAt := some s.gd.com.time.counter } }))
  ∧ (∀ s : State, s.gdAbsent 0x2A4 = true → exec .outRealign s = .next (s.updCom .gd fun c => c.accessErr 1 0x2A4))
  ∧ (∀ (o : Time80) (s u : State), s.gd.out.orderAt = some o → boundaryAfter o ≤ s.gd.com.time.counter.toNs →
    u = (s.updGd fun g => { g with out := { g.out with misalign := 0, aligned := true, orderAt := none, firstAt := none } }) →
    exec .outRealignApply s = .next (u.updGd fun g => { g with out := { g.out with
      live := [0, 1, 2].map fun k => (k, u.outAllowed k), rfHeld := true } }))
  ∧ (∀ (o : Time80) (s : State), s.gd.out.orderAt = some o → s.gd.com.time.counter.toNs < boundaryAfter o →
    exec .outRealignApply s = .next s)
  ∧ (∀ o : Time80, o.toNs + 2000000 ≤ boundaryAfter o ∧ boundaryAfter o < o.toNs + 1002000000 ∧ boundaryAfter o % 1000000000 = 0)

/-- The words of the time buses (R123, R124, R128, R134, R136, R139): every 512 ticks a SYNC word is queued on every
present bus; a first SYNC loads the repeater's count with its value and the bus delay, and the addend in force
follows; a good ADDEND, with the catch-up of its ticks, makes a calibrated repeater READY; LAUNCH_AT arms a slot ahead
of T less ADVANCE; CANCEL drops one that T has not reached; FCHG_AT arms a switch. A good word is acknowledged; one
with a bad check is gone without effect. An acknowledgement ends the wait for its word; a word unacknowledged for 24
ns is queued again and counted, and one past its limit is lost. The calibration of a time bus (R125, R126): RECAL
starts it on every present bus; each good CAL word adds its round trip until 64 are in; then the delay is (mean round
trip − turnaround) / 2 within 0.5 ns to 12 ns, and outside it CAL_ERR is set and the repeater is not READY; the
background calibration starts once per CAL_PERIOD, with BG_CAL_EN only. Where it rests on choices of the model: log
entries 2, 30. -/
def Obligations.TimeBusRules : Prop :=
  ((∀ s : State, s.tsu.syncAt + 1024 ≤ s.aon .tsu → exec .tbusSyncSend s = .next ((s.updRegions fun g =>
      if g.present then { g with queue := g.queue ++ [⟨0, .sync 0⟩] } else g).updTsu fun t => { t with syncAt := s.aon .tsu }))
  ∧ (∀ (r c seq : Nat) (rest : List BusItem) (ns frac : BitVec 32) (low : BitVec 64) (s : State),
    (s.region r).flight = ⟨seq, .sync c⟩ :: rest → crcOk (ns ++ frac ++ low) = true → (s.region r).present = true →
    (s.region r).fail = false → (s.region r).calibrated = true → (s.region r).loaded = false → (s.region r).calActive = false →
    exec (.repeaterSyncRx r ns frac low) s = .next (((s.updRegion r fun g => { g with flight := rest }).updRegion r fun g =>
      { g with count := (((c : Int) + delayUnits (s.region r).delay) % 18446744073709551616).toNat,
               applied := g.delay, loaded := true }).busSend r (.addend s.tsu.com.time.addend s.count64 (s.aon .tsu))))
  ∧ (∀ (r seq a b named : Nat) (rest : List BusItem) (sq : BitVec 6) (ad : BitVec 36) (ct : BitVec 64) (low : BitVec 22) (s : State),
    (s.region r).flight = ⟨seq, .addend a b named⟩ :: rest → crcOk (sq ++ ad ++ ct ++ low) = true → (s.region r).present = true →
    (s.region r).fail = false → (s.region r).loaded = true → seq ∉ (s.region r).seen → (s.region r).calibrated = true →
    (s.region r).calActive = false →
    ∃ t, exec (.repeaterAddendRx r sq ad ct low) s = .next t ∧ (t.region r).ready = true ∧ (t.region r).addend = a
      ∧ (t.region r).count = (((s.region r).count + ((s.aon .tsu - named) / 2 : Nat) * ((a : Int) - (s.region r).addend))
          % 18446744073709551616).toNat
      ∧ (t.region r).acks = (s.region r).acks ++ [seq] ∧ (t.region r).flight = rest ∧ t.gd = s.gd ∧ t.tsu.com = s.tsu.com)
  ∧ (∀ (r seq slot t : Nat) (fence : Bool) (rest : List BusItem) (sq : BitVec 6) (ti : BitVec 32) (fr : BitVec 16) (sl : BitVec 4) (fe : BitVec 1) (low : BitVec 69) (s : State),
    (s.region r).flight = ⟨seq, .launchAt t slot fence⟩ :: rest → crcOk (sq ++ ti ++ fr ++ sl ++ fe ++ low) = true → (s.region r).ready = true →
    seq ∉ (s.region r).seen → sdiff 48 (s.region r).count48 (t - s.advance16 r) ≤ 0 →
    exec (.repeaterLaunchAtRx r sq ti fr sl fe low) s = .next (((s.updRegion r fun g => { g with flight := rest }).updRegion r fun g =>
      { g with acks := g.acks ++ [seq], seen := (seq :: g.seen).take 32 }).updRegion r fun g =>
          { g with armed := (g.armed.filter fun a => a.slot ≠ slot) ++ [⟨slot, t, fence⟩] }))
  ∧ (∀ (r seq slot t : Nat) (rest : List BusItem) (sq : BitVec 6) (sl : BitVec 4) (low : BitVec 118) (s u : State) (a : Arm) (i : Nat),
    (s.region r).flight = ⟨seq, .cancel slot t⟩ :: rest → crcOk (sq ++ sl ++ low) = true → (s.region r).ready = true →
    seq ∉ (s.region r).seen → u = ((s.updRegion r fun g => { g with flight := rest }).updRegion r fun g =>
      { g with acks := g.acks ++ [seq], seen := (seq :: g.seen).take 32 }) →
    (u.armOf r slot = some (i, a) → a.cancel ≠ .none → stamp48 a.t.toNs16 = t → sdiff 48 (s.region r).count48 t < 0 →
      exec (.repeaterCancelRx r sq sl low) s = .next (((u.updRegion r fun g =>
        { g with armed := g.armed.filter fun a => a.slot ≠ slot }).slotCancelled r slot).wakeCheck r))
    ∧ (0 ≤ sdiff 48 (s.region r).count48 t → exec (.repeaterCancelRx r sq sl low) s = .next u))
  ∧ (∀ (r seq : Nat) (tf : Word) (code : Byte) (rest : List BusItem) (sq : BitVec 6) (ti : BitVec 32) (co : BitVec 8) (low : BitVec 82) (s : State),
    (s.region r).flight = ⟨seq, .fchgAt tf code⟩ :: rest → crcOk (sq ++ ti ++ co ++ low) = true → (s.region r).ready = true →
    seq ∉ (s.region r).seen →
    exec (.repeaterFchgAtRx r sq ti co low) s = .next (((s.updRegion r fun g => { g with flight := rest }).updRegion r fun g =>
      { g with acks := g.acks ++ [seq], seen := (seq :: g.seen).take 32 }).updRegion r fun g =>
        { g with switch := some (tf, code) }))
  ∧ (∀ (r seq a b c slot t taps : Nat) (tf : Word) (code : Byte) (fence : Bool) (rest : List BusItem) (s u : State),
    u = (s.updRegion r fun g => { g with flight := rest }) →
    (∀ (ns frac : BitVec 32) (low : BitVec 64), (s.region r).flight = ⟨seq, .sync c⟩ :: rest →
      crcOk (ns ++ frac ++ low) = false → exec (.repeaterSyncRx r ns frac low) s = .next u)
    ∧ (∀ (sq : BitVec 6) (ad : BitVec 36) (ct : BitVec 64) (low : BitVec 22), (s.region r).flight = ⟨seq, .addend a b c⟩ :: rest →
      crcOk (sq ++ ad ++ ct ++ low) = false → exec (.repeaterAddendRx r sq ad ct low) s = .next u)
    ∧ (∀ (sq : BitVec 6) (ti : BitVec 32) (fr : BitVec 16) (sl : BitVec 4) (fe : BitVec 1) (low : BitVec 69),
      (s.region r).flight = ⟨seq, .launchAt t slot fence⟩ :: rest → crcOk (sq ++ ti ++ fr ++ sl ++ fe ++ low) = false →
      exec (.repeaterLaunchAtRx r sq ti fr sl fe low) s = .next u)
    ∧ (∀ (sq : BitVec 6) (sl : BitVec 4) (low : BitVec 118), (s.region r).flight = ⟨seq, .cancel slot t⟩ :: rest →
      crcOk (sq ++ sl ++ low) = false → exec (.repeaterCancelRx r sq sl low) s = .next u)
    ∧ (∀ (sq : BitVec 6) (ti : BitVec 32) (co : BitVec 8) (low : BitVec 82), (s.region r).flight = ⟨seq, .fchgAt tf code⟩ :: rest →
      crcOk (sq ++ ti ++ co ++ low) = false → exec (.repeaterFchgAtRx r sq ti co low) s = .next u)
    ∧ (∀ noise : BitVec 128, (s.region r).flight = ⟨seq, .cal⟩ :: rest → (s.region r).calActive = true →
      (s.region r).calCount < 64 → crcOk noise = false →
      exec (.repeaterCalRx r taps noise) s = .next (u.updRegion r fun g => { g with calLeft := g.calLeft + 1 })))
  ∧ (∀ (r seq : Nat) (s : State), seq ∈ (s.region r).acks → exec (.tbusAckRx r seq) s
      = .next (s.updRegion r fun g => { g with acks := (s.region r).acks.erase seq,
                                               unacked := (s.region r).unacked.filter fun w => w.seq ≠ seq }))
  ∧ (∀ (r seq : Nat) (w : BusWord) (s : State), (s.region r).unacked.find? (fun w => w.seq = seq) = some w →
    w.resends < 3 → w.lost = false → s.timeUp w = false → w.sentAt + 24 ≤ s.aon .tsu → (s.region r).queue = [] →
    exec (.tbusResend r seq) s = .next (s.updRegion r fun g =>
      { g with busRetry := min (g.busRetry + 1) 0xFF, queue := [⟨seq, w.body⟩],
               unacked := g.unacked.map fun v => if v.seq = seq then { v with resends := v.resends + 1 } else v }))
  ∧ (∀ (r seq a b c sent : Nat) (s : State), (s.region r).unacked = [⟨seq, .addend a b c, sent, 3, false⟩] →
    sent + 24 ≤ s.aon .tsu → ∃ t, exec (.tbusDeliveryLimit r seq) s = .next t
      ∧ (t.region r).unacked = [] ∧ (t.region r).loaded = false ∧ t.gd = s.gd ∧ t.tsu.com.time = s.tsu.com.time))
  ∧ ((∀ s : State, exec .recal s = .next (s.updRegions Region.startCal))
  ∧ (∀ (r taps seq : Nat) (rest : List BusItem) (noise : BitVec 128) (s : State), (s.region r).flight = ⟨seq, .cal⟩ :: rest →
    crcOk noise = true → (s.region r).calActive = true → (s.region r).calCount < 64 →
    exec (.repeaterCalRx r taps noise) s = .next ((s.updRegion r fun g => { g with flight := rest }).updRegion r fun g =>
      { g with calCount := g.calCount + 1, calSum := g.calSum + taps }))
  ∧ (∀ (r : Nat) (d : Int) (s : State), (s.region r).calActive = true → (s.region r).calCount = 64 →
    (s.region r).background = false → d = 125 * (s.region r).calSum - 1024 * (s.region r).turnaround →
    1024000 ≤ d → d ≤ 24576000 →
    ∃ t, exec (.tbusCalDone r) s = .next t ∧ (t.region r).delay = d ∧ (t.region r).calibrated = true
      ∧ (t.region r).calActive = false ∧ (t.region r).lastCal = s.aon .tsu ∧ t.gd = s.gd ∧ t.tsu.com = s.tsu.com)
  ∧ (∀ (r : Nat) (d : Int) (s : State), (s.region r).calActive = true → (s.region r).calCount = 64 →
    d = 125 * (s.region r).calSum - 1024 * (s.region r).turnaround →
    d < 1024000 ∨ 24576000 < d →
    ∃ t, exec (.tbusCalDone r) s = .next t ∧ (t.region r).ready = false ∧ (t.region r).calibrated = false ∧ t.gd = s.gd)
  ∧ (∀ s : State, bitOf (s.reg .tsu 0x1C0) 1 = true → exec .bgRecal s = .next (s.updRegions fun g =>
      if g.present ∧ g.calibrated ∧ !g.calActive ∧ g.lastCal + orOne (bitsOf (s.reg .tsu 0x1C0) 15 8) * 1000000 ≤ s.aon .tsu then
        { g with calActive := true, background := true, calCount := 0, calSum := 0, calLeft := 64 }
      else g))
  ∧ (∀ s : State, bitOf (s.reg .tsu 0x1C0) 1 = false → exec .bgRecal s = .next s))

/-- Strobes, waking, frequency changes, fences and the region reset (R132 to R145): LP_FIRE comes at T less ADVANCE and
not before; REGION_WAKE rises within WAKE_LEAD of T; a request that names no region is refused as EMPTY, and one whose
repeaters are ready gets T_f, the first multiple of 8 ns at or after now plus FCHG_LEAD; RG_SWITCH comes at T_f; a
window's end updates the rate registers; an engine's fence-done takes the held launch; a held fence times out at 20
µs; a region reset leaves no slot armed, no word pending and the repeater not READY. Where it rests on choices of the
model: log entries 2, 46. -/
def Obligations.RegionRules : Prop :=
  (∀ (r slot : Nat) (a : ArmedSlot) (s : State), (s.region r).armed.find? (fun a => a.slot = slot) = some a →
    0 ≤ sdiff 48 (s.region r).count48 (a.t - s.advance16 r) →
    exec (.strobeFire r slot) s = .next (((s.updRegion r fun g =>
      { g with armed := g.armed.filter fun b => b.slot ≠ slot }).strobe r slot a.t a.t false).wakeCheck r))
  ∧ (∀ (r slot : Nat) (a : ArmedSlot) (s : State), (s.region r).armed.find? (fun a => a.slot = slot) = some a →
    sdiff 48 (s.region r).count48 (a.t - s.advance16 r) < 0 → exec (.strobeFire r slot) s = .next s)
  ∧ (∀ (r slot : Nat) (a : ArmedSlot) (s : State), (s.region r).armed.find? (fun a => a.slot = slot) = some a →
    sdiff 48 a.t (s.region r).count48 ≤ s.wakeLead16 →
    exec (.regionWakeRaise r slot) s = .next (s.updRegion r fun g => { g with wake := true }))
  ∧ (∀ (code : Byte) (s : State), exec (.pmFchgReq 0 code) s = .next (s.fchgNak 1))
  ∧ (∀ (code : Byte) (s : State), (s.region 0).fchg = none → (s.region 0).ready = true →
    exec (.pmFchgReq 1 code) s = .next ((((s.pmAnswer (.ack s.fchgInstant)).updTsu fun t =>
      { t with fchgAt := s.fchgInstant }).updRegion 0 fun g => { g with fchg := some s.fchgInstant }).busSend 0
        (.fchgAt s.fchgInstant code)))
  ∧ (∀ (s : State) (start : Int), start = s.tsu.com.time.counter.toUnits * 2048000 + s.fchgLead * 4294967296 →
    ∃ k : Int, s.fchgInstant = BitVec.ofInt 32 (8 * k) ∧ start ≤ 8 * k * (2048000 * 4294967296)
      ∧ 8 * k * (2048000 * 4294967296) < start + 8 * (2048000 * 4294967296))
  ∧ (∀ (r : Nat) (tf : Word) (code : Byte) (s : State), (s.region r).switch = some (tf, code) →
    0 ≤ sdiff 48 (s.region r).count48 (tf.toNat * 65536 : Nat) →
    exec (.rgSwitch r) s = .next (s.updRegion r fun g => { g with switch := none, fchg := none, rgCode := some code }))
  ∧ (∀ (r e m : Nat) (run : Bool) (s : State), exec (.regionRateWindow r e m run) s = .next (s.updRegion r fun g =>
      { g with edges := e % 65536, maxPeriod := m % 65536, clkRunning := run }))
  ∧ (∀ (p : Nat) (s : State), (s.port p).fenceHeld = [] →
    exec (.lpFenceDone p) s = .next (s.updPort p fun q => { q with fenceBusy := false }))
  ∧ (∀ (p : Nat) (f : Fired) (since : Int) (rest : List (Fired × Int)) (s : State), (s.port p).fenceHeld = (f, since) :: rest →
    ∃ t, exec (.lpFenceDone p) s = .next t ∧ (t.port p).fenceHeld.map (·.1.cmd) = rest.map (·.1.cmd)
      ∧ (t.port p).fenceBusy = false ∧ (t.port p).fired.map (·.cmd) = (s.port p).fired.map (·.cmd) ++ [f.cmd] ∧ (t.region f.region).fenceMiss = min ((s.region f.region).fenceMiss + 1) 0xFF
      ∧ t.gd = s.gd ∧ t.tsu.com.time = s.tsu.com.time)
  ∧ (∀ (p : Nat) (f : Fired) (since : Int) (rest : List (Fired × Int)) (s : State), (s.port p).fenceHeld = (f, since) :: rest →
    20000 ≤ ((s.now .tsu).toNs16 - since) / 65536 → exec (.fenceHung p) s
      = .next (((s.logT .fenceHung (srcPort p) 0 (some f.cmd.slice)).healthSend .fenceHung).portReset p))
  ∧ (∀ (p : Nat) (f : Fired) (since : Int) (rest : List (Fired × Int)) (s : State), (s.port p).fenceHeld = (f, since) :: rest →
    ((s.now .tsu).toNs16 - since) / 65536 < 20000 → exec (.fenceHung p) s = .next s)
  ∧ (∀ (r : Nat) (s : State), r < 8 → (s.region r).present = true →
    ∃ t, exec (.regionRst r) s = .next t ∧ (t.region r).ready = false ∧ (t.region r).taken = []
      ∧ (t.region r).armed = [] ∧ (t.region r).wake = false ∧ (t.region r).unacked = [] ∧ (t.region r).queue = []
      ∧ (t.region r).flight = [] ∧ (t.region r).switch = none ∧ (t.region r).fchg = none ∧ (t.region r).inReset = true
      ∧ t.gd = s.gd ∧ t.tsu.com.time = s.tsu.com.time)

/-- The training of a link (R149, R150, R152): the upstream end starts an attempt at full rate for the first three of its
cycle and at fallback for the next three; the downstream receiver searches both rates and locks at the one it
receives; PMD_TRAIN, BLOCK_LOCK, FRAME_LOCK and IDENT follow in that order, each from the one before only; an attempt
over 20 ms old fails and the next of six follows; and in IDENT a good TRAIN frame is kept. The loss of a link (R154,
R155, R183): block lock lost gives cause 1, eight uncorrectable slots in a row cause 2, sixteen within 1 ms cause 3
with ONE_LINK_BER, no REPLAY 512 slots after the fourth NAK cause 4, a retrain order or a transmitter turned off cause
6; the link goes DOWN with LINK_DOWN and its retrains counted. CNT_CLEAR clears the counters. One link of a hinge pair
out of UP for 120 ms raises REDUNDANCY_LOST. Where it rests on choices of the model: log entry 2. -/
def Obligations.LinkRules : Prop :=
  ((∀ (l : LinkId) (n : Nat) (s : State), (s.link l).state = .down → (s.link l).enabled = true → (s.link l).fused = false →
    (s.link l).trainLeft = 0 → ((s.link l).tried = true → (s.link l).attemptAt + 20000000 ≤ s.aon l.node) →
    n = (if (s.link l).tried = true then ((s.link l).attempt + 1) % 6 else 0) →
    exec (.trainingAttempt l) s = .next (s.updLink l fun k =>
      if upstreamEnd l then { k with tried := true, attempt := n, attemptAt := s.aon l.node, fallback := 3 ≤ n,
                                     state := if k.optical then .blockLock else .pmdTrain }
      else { k with attemptAt := s.aon l.node, searchFallback := false, searchAt := s.aon l.node }))
  ∧ (∀ (l : LinkId) (s : State), upstreamEnd l = true → (s.link l).tried = true →
    s.aon l.node < (s.link l).attemptAt + 20000000 → exec (.trainingAttempt l) s = .next (s.updLink l id))
  ∧ (∀ (l : LinkId) (fb : Bool) (s : State), (s.link l).state = .down → (s.link l).enabled = true → (s.link l).fused = false →
    (s.link l).trainLeft = 0 → upstreamEnd l = false → exec (.rxLock l fb) s = .next (s.updLink l fun k =>
      { k with fallback := fb, attemptAt := s.aon l.node, state := if k.optical then .blockLock else .pmdTrain }))
  ∧ (∀ (l : LinkId) (s : State), (s.link l).state = .down → (s.link l).enabled = true → upstreamEnd l = false →
    (s.link l).searchAt + 2000000 ≤ s.aon l.node → exec (.rateSearchSwitch l) s = .next (s.updLink l fun k =>
      { k with searchFallback := !k.searchFallback, searchAt := s.aon l.node }))
  ∧ (∀ (l : LinkId) (s : State), (s.link l).state = .pmdTrain →
    exec (.pmdConverged l) s = .next (s.updLink l fun k => { k with state := .blockLock }))
  ∧ (∀ (l : LinkId) (s : State), (s.link l).state = .blockLock →
    exec (.blockLockAcquired l) s = .next (s.updLink l fun k => { k with state := .frameLock }))
  ∧ (∀ (l : LinkId) (s : State), (s.link l).state = .frameLock →
    exec (.frameLockAcquired l) s = .next (s.updLink l fun k => { k with state := .ident, goodTrain := 0, rxOk := false }))
  ∧ (∀ (l : LinkId) (s : State), (s.link l).state = .up →
    exec (.pmdConverged l) s = .next (s.updLink l id) ∧ exec (.blockLockAcquired l) s = .next (s.updLink l id)
      ∧ exec (.frameLockAcquired l) s = .next (s.updLink l id) ∧ exec (.attemptFail l) s = .next s)
  ∧ (∀ (l : LinkId) (s : State), (s.link l).state = .ident → (s.link l).archStuck = false →
    (s.link l).attemptAt + 20000000 ≤ s.aon l.node →
    exec (.attemptFail l) s = .next (s.updLink l fun k =>
      { k with state := .down, goodTrain := 0, rxOk := false, archStuck := false }))
  ∧ (∀ (rx : Rx) (p n : Nat) (ok : Bool) (s u : State), (s.link ⟨.tsu, p⟩).state = .ident → rx.check = .good →
    rx.frame.type = 0x02 → rx.frame.cls = 0 → (s.link ⟨.tsu, p⟩).assign = none → bitOf (rx.frame.byte 20) 7 = false →
    n = min 8 ((s.link ⟨.tsu, p⟩).goodTrain + 1) → ok = bitOf (rx.frame.byte 12) 3 →
    u = (s.updLink ⟨.tsu, p⟩ fun k => { k with
      uncorrRun := 0, goodTrain := n, rxOk := ok, nbrLoc := rx.frame.nat 13 3 % 1048576,
      nbrPort := bitsOf (rx.frame.byte 16) 5 0, nbrValid := bitOf (rx.frame.byte 16) 7,
      rxSlot := (rx.frame.nat 21 2 / 16 + 1) % 4096, cr1 := rx.frame.byte 23, cr2 := rx.frame.byte 24,
      cr3 := rx.frame.byte 25, peerImage := BitVec.ofNat 32 (rx.frame.nat 26 4) }) →
    (n < 8 ∨ ok = false → exec (.trainFrameRx ⟨.tsu, p⟩ rx) s = .next u)
    ∧ (n = 8 → ok = true → bitsOf (rx.frame.byte 12) 7 6 = 0 → bitsOf (rx.frame.byte 12) 5 4 < 3 →
      exec (.trainFrameRx ⟨.tsu, p⟩ rx) s = .next ((u.updLink ⟨.tsu, p⟩ fun k => { k with arch := 0, archStuck := false }).enterUp ⟨.tsu, p⟩)))
  ∧ (∀ (l : LinkId) (rx : Rx) (s : State), (s.link l).state = .up → rx.check = .good → rx.frame.type = 0x02 →
    rx.frame.cls = 0 → exec (.trainFrameRx l rx) s = .next (if bitOf (rx.frame.byte 12) 3
      then s.updLink l fun k => { k with rxSlot := (rx.frame.nat 21 2 / 16 + 1) % 4096, uncorrRun := 0 }
      else (s.slotTaken l rx).linkDown l 5)))
  ∧ ((∀ (l : LinkId) (s : State), (s.link l).state = .up → exec (.blockLockLoss l) s = .next (s.linkDown l 1))
  ∧ (∀ (l : LinkId) (s : State), (s.link l).state ≠ .up → exec (.blockLockLoss l) s = .next (if (s.link l).archStuck then s
    else s.updLink l fun k => { k with state := .down, goodTrain := 0, rxOk := false, archStuck := false }))
  ∧ (∀ (l : LinkId) (s : State), 8 ≤ (s.link l).uncorrRun → exec (.frameLockLoss l) s = .next (s.linkDown l 2))
  ∧ (∀ (l : LinkId) (s : State), (s.link l).uncorrRun < 8 → exec (.frameLockLoss l) s = .next s)
  ∧ (∀ (l : LinkId) (s : State), (s.link l).state = .up →
    16 ≤ ((s.link l).uncorrAt.filter fun t => s.aon l.node < t + 1000000).length →
    exec (.linkBerExceeded l) s = .next ((s.log l.node .linkBer l.source).linkDown l 3))
  ∧ (∀ (l : LinkId) (s : State), (s.link l).nakSlot.isSome = true → (s.link l).nakCount = 4 → 512 ≤ (s.link l).nakSlots →
    exec (.replayFailure l) s = .next (s.linkDown l 4))
  ∧ (∀ (p : Nat) (s : State), (s.link ⟨.tsu, p⟩).state = .up →
    exec (.retrain ⟨.tsu, p⟩) s = .next (s.linkDown ⟨.tsu, p⟩ 6))
  ∧ (∀ (p : Nat) (s : State), (s.link ⟨.gd, p⟩).state = .up → s.gd.portAbsent p = false →
    exec (.retrain ⟨.gd, p⟩) s = .next (s.linkDown ⟨.gd, p⟩ 6))
  ∧ (∀ (p : Nat) (s : State), s.gd.portAbsent p = true →
    exec (.retrain ⟨.gd, p⟩) s = .next (s.updCom .gd fun c => c.accessErr 1 (0x10000 + 0x100 * p)))
  ∧ (∀ (p : Nat) (s : State), exec (.cntClear ⟨.tsu, p⟩) s = .next (s.updLink ⟨.tsu, p⟩ fun k =>
      { k with corrFrames := 0, uncorrFrames := 0, naksSent := 0, replaysSent := 0, malformed := 0, poisoned := 0,
               retrains := 0 }))
  ∧ (∀ s : State, exec (.laneEnWrite 3) s = .next (((s.setReg .tsu 0x300 (BitVec.ofNat 32
      (s.reg .tsu 0x300 / 4 * 4 + 3))).linkOn ⟨.tsu, 0⟩).linkOn ⟨.tsu, 1⟩)
      ∧ exec (.laneEnWrite 0) s = .next (((s.setReg .tsu 0x300 (BitVec.ofNat 32
      (s.reg .tsu 0x300 / 4 * 4 + 0))).linkOff ⟨.tsu, 0⟩).linkOff ⟨.tsu, 1⟩))
  ∧ (∀ s : State, s.tsu.com.redunLost = false → (s.link ⟨.tsu, 0⟩).state = .up → (s.link ⟨.tsu, 1⟩).state = .down →
    (s.link ⟨.tsu, 1⟩).declared = true → (s.link ⟨.tsu, 1⟩).enabled = true ∨ (s.link ⟨.tsu, 1⟩).everUp = true →
    (s.link ⟨.tsu, 1⟩).downAt + 120000000 ≤ s.aon .tsu → exec (.redundancyLost .tsu) s
      = .next ((((s.updCom .tsu fun c => { c with redunLost := true }).setEvt .tsu 0x304 0x8).logT .redundancyLost).healthSend
          .redundancyLost)))

/-- Slots, replay and credits (R165, R166, R170 to R174): of an UP link that owes no TRAIN frame, a slot with nothing else
due carries IDLE, and a class-1 frame takes a credit and is kept for replay; an uncorrectable slot of an UP link is
counted and named in a NAK, one that holds a time frame is only counted; a NAK is sent again after 512 slots, four in
all; a LINKCTL frame is owed after 255 slots and for credits owed 16 slots; and more corrected frames than the limit
in a second record ONE_LINK_DEGRADED. Where it rests on choices of the model: log entry 43. -/
def Obligations.SlotRules : Prop :=
  (∀ (p : Nat) (f : Frame) (rest : List Frame) (s : State), (s.link ⟨.tsu, p⟩).state = .up →
    (s.link ⟨.tsu, p⟩).enabled = true → (s.link ⟨.tsu, p⟩).fused = false → (s.link ⟨.tsu, p⟩).trainLeft = 0 →
    (s.link ⟨.tsu, p⟩).timeDue = false → (s.link ⟨.tsu, p⟩).oweNak = none → (s.link ⟨.tsu, p⟩).oweReplay = none → (s.link ⟨.tsu, p⟩).oweCtl = false →
    (s.link ⟨.tsu, p⟩).resend = [] → (s.link ⟨.tsu, p⟩).q1 = f :: rest → 0 < (s.link ⟨.tsu, p⟩).cr1 →
    (s.link ⟨.tsu, p⟩).poisonNext = false → f.type ≠ 0x02 →
    ∃ t, exec (.slotTransmit ⟨.tsu, p⟩) s = .next t ∧ (t.link ⟨.tsu, p⟩).q1 = rest
      ∧ (t.link ⟨.tsu, p⟩).cr1 = (s.link ⟨.tsu, p⟩).cr1 - 1
      ∧ (t.link ⟨.tsu, p⟩).line = some { f with ver := BitVec.ofNat 2 (s.link ⟨.tsu, p⟩).arch }
      ∧ (t.link ⟨.tsu, p⟩).replay.getLast? = some ⟨(s.link ⟨.tsu, p⟩).txSlot, { f with ver := BitVec.ofNat 2 (s.link ⟨.tsu, p⟩).arch }⟩
      ∧ (t.link ⟨.tsu, p⟩).txSlot = ((s.link ⟨.tsu, p⟩).txSlot + 1) % 4096 ∧ t.gd = s.gd)
  ∧ (∀ (l : LinkId) (s : State), (s.link l).state = .up → (s.link l).enabled = true → (s.link l).fused = false →
    (s.link l).timeDue = true → exec (.slotTransmit l) s = .next (s.timeFrameSend l (s.now l.node).toNs16))
  ∧ (∀ (l : LinkId) (s : State), (s.link l).state = .up →
    exec (.uncorrectableSlot l false) s = .next (s.updLink l fun k =>
      { k.slotIn with uncorrFrames := min (k.uncorrFrames + 1) 0xFFFF, uncorrRun := k.uncorrRun + 1,
                      uncorrAt := (k.uncorrAt.filter fun t => s.aon l.node < t + 1000000) ++ [s.aon l.node],
                      nakSlot := some k.rxSlot, nakCount := 1, nakSlots := 0, oweNak := some k.rxSlot }))
  ∧ (∀ (l : LinkId) (s : State), (s.link l).state = .up →
    exec (.uncorrectableSlot l true) s = .next (s.updLink l fun k =>
      { k.slotIn with uncorrFrames := min (k.uncorrFrames + 1) 0xFFFF, uncorrRun := k.uncorrRun + 1,
                      uncorrAt := (k.uncorrAt.filter fun t => s.aon l.node < t + 1000000) ++ [s.aon l.node] }))
  ∧ (∀ (l : LinkId) (s : State), (s.link l).nakSlot.isSome = true → 512 ≤ (s.link l).nakSlots → (s.link l).nakCount < 4 →
    exec (.nakResend l) s = .next (s.updLink l fun k => { k with oweNak := k.nakSlot, nakCount := k.nakCount + 1, nakSlots := 0 }))
  ∧ (∀ (l : LinkId) (s : State), 0 < (s.link l).owe1 + (s.link l).owe2 + (s.link l).owe3 → 16 ≤ (s.link l).oweSlots →
    exec (.creditReturnDue l) s = .next (s.updLink l fun k => { k with oweCtl := true }))
  ∧ (∀ (l : LinkId) (s : State), (s.link l).state = .up → 255 ≤ (s.link l).sinceLinkctl →
    exec (.linkctlKeepalive l) s = .next (s.updLink l fun k => { k with oweCtl := true }))
  ∧ (∀ (p : Nat) (s : State), 10000 < ((s.link ⟨.tsu, p⟩).corrTimes.filter fun t => s.aon .tsu < t + 1000000000).length →
    exec (.degradeLimitExceeded ⟨.tsu, p⟩) s
      = .next (((s.setEvt .tsu (lstatOff ⟨.tsu, p⟩) 0x1000).logT .linkDegraded (srcLane p)).healthSend .linkDegraded))
  ∧ (∀ (key : Nat) (m : ReadyMark) (rest : List ReadyMark) (s : State), s.tsu.com.marks = m :: rest → m.key = key → m.cls = 1 →
    (s.link ⟨.tsu, m.port⟩).q1.length + m.frames.length ≤ queueCap 1 →
    ∃ t, exec (.readyMarkEnqueue .tsu key) s = .next t ∧ t.tsu.com.marks = rest
      ∧ (t.link ⟨.tsu, m.port⟩).q1 = (s.link ⟨.tsu, m.port⟩).q1 ++ m.frames ∧ t.gd = s.gd)
  ∧ (∀ (n : Node) (key : Nat) (s : State), (s.com n).marks = [] → exec (.readyMarkEnqueue n key) s = .next (s.updCom n id))

/-- Reception (R161, R162, R166, R167, R172, R174): on an UP link a good frame of the expected TYPE, class and version is
taken and, if it is not LINKCTL, owes the peer a credit; on an excluded port it owes the credit and goes no further
(model choice, log 137); a poisoned one is counted and discarded; an uncorrectable slot asks for a replay; a frame of
another TYPE is counted as malformed and its credit returned. An IDLE frame is consumed by the link layer, and a
LINKCTL frame without NAK or REPLAY gives the credits its totals return. Where it rests on choices of the model: log
entry 40. -/
def Obligations.ReceptionRules : Prop :=
  (∀ (l : LinkId) (rx : Rx) (type : Nat) (s : State), (s.link l).state = .up → rx.check = .good →
    rx.frame.type.toNat = type → typeClass type = some rx.frame.cls.toNat → rx.frame.ver.toNat = (s.link l).arch →
    (s.link l).nakSlot = none → type ≠ 0x04 →
    (s.link l).chainOf rx.frame.cls.toNat = [] ∨ rx.frame.cls = 0 ∨ rx.frame.cls = 3 →
    s.receive l rx type = ((s.updLink l fun k => { k.slotIn with uncorrRun := 0 }).updLink l fun k => k.owe rx.frame.cls.toNat,
      if (s.link l).excluded then none else some rx.frame))
  ∧ (∀ (l : LinkId) (rx : Rx) (type : Nat) (s : State), (s.link l).state = .up → rx.check = .poison →
    s.receive l rx type = (s.updLink l fun k =>
      { k.slotIn with uncorrRun := 0, poisoned := min (k.poisoned + 1) 0xFFFF }, none))
  ∧ (∀ (l : LinkId) (rx : Rx) (type : Nat) (s : State), (s.link l).state = .up → rx.check = .uncorrectable →
    s.receive l rx type = (s.uncorrectableSlot l false, none))
  ∧ (∀ (l : LinkId) (rx : Rx) (type : Nat) (s : State), (s.link l).state = .up → rx.check = .good →
    rx.frame.type.toNat ≠ type → s.receive l rx type = (((s.updLink l fun k => { k.slotIn with uncorrRun := 0 }).updLink l fun k =>
      k.owe rx.frame.cls.toNat).malformed l, none))
  ∧ (∀ (l : LinkId) (rx : Rx) (s : State), (s.link l).state = .up → rx.check = .good → rx.frame.ver.toNat = (s.link l).arch →
    (rx.frame.type = 0x00 → rx.frame.cls = 0 → (s.link l).nakSlot = none → exec (.idleFrameRx l rx) s
      = .next ((s.updLink l fun k => { k.slotIn with uncorrRun := 0 }).updLink l fun k => k.owe 0))
    ∧ (rx.frame.type = 0x04 → rx.frame.cls = 1 → bitsOf (rx.frame.byte 12) 7 6 = 0 →
      exec (.linkctlRx l rx) s = .next ((s.updLink l fun k => { k.slotIn with uncorrRun := 0 }).updLink l fun k =>
        k.takeCredits (rx.frame.byte 17) (rx.frame.byte 18) (rx.frame.byte 19))))

/-- Bulk objects (R178 to R180, R430, R439): a BULK_OPEN in scope opens an object at a TSU, one of a reserved scope is
refused with RESERVED; a BULK_DATA frame of a held object is kept, of another one discarded; BULK_CLOSE fixes the
bitmap of missing chunks, as 1 s without a frame does; a chunk that has not left a port 100 ms after its arrival
leaves its queue with ONE_BULK_DROP; an incomplete object is discarded 10 s after its last frame and a distributor's
copy 60 s after. Where it rests on choices of the model: log entry 97. -/
def Obligations.BulkObjectRules : Prop :=
  (∀ (l : LinkId) (rx : Rx) (s u : State) (f : Frame), l.node = .tsu → s.receive l rx 0x20 = (u, some f) →
    f.byte 15 = 0 → 0 < f.byte 14 → f.byte 14 < 5 → 0 < f.nat 19 5 → f.nat 24 3 = (f.nat 19 5 + 1279) / 1280 →
    exec (.bulkOpenRx l rx) s = .next (u.setBulk .tsu (f.nat 12 2)
      (BulkRx.fresh (f.byte 14) 0 (f.nat 16 3 % 262144) f.domain (f.nat 19 5) (u.aon .tsu))))
  ∧ (∀ (l : LinkId) (rx : Rx) (s u : State) (f : Frame), l.node = .tsu → s.receive l rx 0x20 = (u, some f) →
    2 < f.byte 15 → exec (.bulkOpenRx l rx) s = .next (u.tsuRefuse none (0x05, 0)))
  ∧ (∀ (l : LinkId) (rx : Rx) (s u : State) (f : Frame), l.node = .gd → l.port < 64 →
    s.receive l rx 0x20 = (u, some f) → exec (.bulkOpenRx l rx) s = .next (u.malformed l))
  ∧ (∀ (l : LinkId) (rx : Rx) (s u : State) (f : Frame) (x : BulkRx), l.node = .tsu → s.receive l rx 0x21 = (u, some f) →
    Tab.get u.tsu.com.bulk (f.nat 12 2) = some x → f.nat 14 3 < x.chunks → f.more = decide (f.byte 17 % 32 < 31) →
    Tab.get x.arrived (f.nat 14 3) = none →
    ((List.range 32).all fun k => (Tab.get (Tab.put x.frags (32 * f.nat 14 3 + f.byte 17 % 32) ((padTo 48 f.body).drop 8))
      (32 * f.nat 14 3 + k)).isSome) = false →
    exec (.bulkDataRx l rx) s = .next (u.setBulk .tsu (f.nat 12 2)
      { x with lastAt := u.aon .tsu,
               frags := Tab.put x.frags (32 * f.nat 14 3 + f.byte 17 % 32) ((padTo 48 f.body).drop 8) }))
  ∧ (∀ (l : LinkId) (rx : Rx) (s u : State) (f : Frame), l.node = .tsu → s.receive l rx 0x21 = (u, some f) →
    Tab.get u.tsu.com.bulk (f.nat 12 2) = none → exec (.bulkDataRx l rx) s = .next u)
  ∧ (∀ (l : LinkId) (rx : Rx) (s u : State) (f : Frame) (x : BulkRx), l.node = .tsu → s.receive l rx 0x22 = (u, some f) →
    Tab.get u.tsu.com.bulk (f.nat 12 2) = some x → f.nat 14 3 = x.chunks → x.lacks ≠ [] →
    exec (.bulkCloseRx l rx) s = .next (u.setBulk .tsu (f.nat 12 2)
      { x with closed := true, lastAt := u.aon .tsu, missing := some x.lacks }))
  ∧ (∀ (o : Nat) (x : BulkRx) (s : State), Tab.get s.tsu.com.bulk o = some x → x.missing = none →
    x.lastAt + 1000000000 ≤ s.aon .tsu → x.lacks ≠ [] →
    exec (.bulkRxTimeout .tsu o) s = .next (s.setBulk .tsu o { x with missing := some x.lacks }))
  ∧ (∀ (o c p : Nat) (x : BulkRx) (at_ : Nat) (s : State), Tab.get s.gd.com.bulk o = some x → Tab.get x.arrived c = some at_ →
    at_ + 100000000 ≤ s.aon .gd → (s.link ⟨.gd, p⟩).q3.any (isChunk o c) = true → s.gd.com.marks = [] →
    exec (.bulkChunkDrop o c p) s = .next ((s.updLink ⟨.gd, p⟩ fun k =>
      { k with q3 := k.q3.filter fun f => !isChunk o c f }).logG .bulkDrop p))
  ∧ (∀ (n : Node) (o : Nat) (x : BulkRx) (s : State), Tab.get (s.com n).bulk o = some x → x.lacks ≠ [] →
    x.lastAt + 10000000000 ≤ s.aon n → exec (.bulkObjectExpiry n o) s
      = .next ((s.updCom n fun c => { c with bulk := Tab.del c.bulk o }).log n .bulkIncomplete 0 x.lacks.length))
  ∧ (∀ (o : Nat) (x : BulkRx) (s : State), Tab.get s.gd.com.bulk o = some x → x.lastAt + 60000000000 ≤ s.aon .gd →
    exec (.chunkCacheExpiry o) s = .next (s.updCom .gd fun c => { c with bulk := Tab.del c.bulk o }))

/-- Roll call (R281 to R283, R430): a TSU in scope answers an ASK with its missing-chunk bitmap, every chunk of an object
it has not seen; a distributor adds an answer to its entry, OR'ing the bitmaps and adding the counts, until every port
asked has answered; after ROLL_WAIT it answers for the ports that have not; and a repair round of an object begins 2
ms after its last BULK_CLOSE, asking the windows of 4,096 chunks. Where it rests on choices of the model: log entries
95, 96. -/
def Obligations.RollCallRules : Prop :=
  (∀ (l : LinkId) (rx : Rx) (s u : State) (f : Frame), l.node = .tsu → s.receive l rx 0x12 = (u, some f) → f.more = false →
    f.byte 15 ≠ 2 ∨ u.tsu.dieId = some (f.nat 16 3 % 262144) →
    exec (.rollcallAskRx l rx) s = .next (u.send l 2 0 (ansMessage (u.now .tsu).ns32 f.domain (f.nat 12 2) (f.byte 14)
      (f.nat 19 3) 1 0 false (chunkBitmap (f.nat 22 3) (f.nat 19 3) fun c =>
        ((Tab.get u.tsu.com.bulk (f.nat 12 2)).map fun x => !x.whole c).getD true))))
  ∧ (∀ (l : LinkId) (rx : Rx) (s u : State) (f : Frame), s.receive l rx 0x12 = (u, some f) → f.more = true →
    exec (.rollcallAskRx l rx) s = .next (u.malformed l))
  ∧ (∀ (l : LinkId) (rx : Rx) (s u v : State) (f : Frame) (e : RollEntry), l.node = .gd → l.port < 64 →
    s.receive l rx 0x13 = (u, some f) → u.chain l f (fun f => if f.f49 then 1 else 11) = (v, .whole [f]) → f.f49 = true →
    v.gd.rolls = [e] → e.object = f.nat 12 2 → e.window = f.nat 16 3 → e.round = f.byte 14 → e.round < 5 →
    e.asked.contains l.port = true → e.answered.contains l.port = false →
    e.asked.all (e.answered ++ [l.port]).contains = false →
    exec (.rollcallAnsRx l rx) s = .next (v.updGd fun g => { g with rolls := [{ e with
      answered := e.answered ++ [l.port], responders := e.responders + f.nat 19 3 % 1048576,
      missing := e.missing + f.byte 22, incomplete := e.incomplete || f.f48,
      bitmap := orBytes e.bitmap (List.replicate 512 0) }] }))
  ∧ (∀ (key : Nat) (e : RollEntry) (s : State), s.gd.rolls[key]? = some e → e.since + s.rollWait ≤ s.aon .gd →
    e.up ≠ rollHere → exec (.rollWaitExpiry key) s = .next ((s.updGd fun g => { g with rolls := g.rolls.erase e }).send ⟨.gd, e.up⟩ 2 0
      (ansMessage (s.now .gd).ns32 e.domain e.object e.round e.window e.responders
        (e.missing + (e.asked.filter fun p => !e.answered.contains p).length)
        (e.incomplete || decide (0 < (e.asked.filter fun p => !e.answered.contains p).length)) e.bitmap)))
  ∧ (∀ (o p : Nat) (x : Origin) (s : State), s.gd.origins = [x] → x.object = o → x.left = 0 →
    x.since + 2000000 ≤ s.aon .gd → 0 < x.data.length → x.data.length ≤ 1280 → x.port = some p → s.gd.rolls = [] →
    exec (.rollCallRound o) s = .next ((s.updGd fun g => { g with
      origins := [{ x with round := x.round + 1, left := 1, missing := [], incomplete := false }],
      rolls := [{ origin := s.gd.locator.getD 0, object := o, window := 0, round := x.round + 1, up := rollHere,
                  asked := [p], answered := [], responders := 0, missing := 0, bitmap := List.replicate 512 0,
                  incomplete := false, since := s.aon .gd, domain := x.domain }] }).send ⟨.gd, p⟩ 2 0
        [askRoll (s.now .gd).ns32 x.domain o (x.round + 1) x.scope x.dest 0 1 (s.gd.locator.getD 0)]))

/-- The tumbler store (R186, R187, R208, R212): CREATE in an ACTIVE slice page creates the entry, or records the code of
the first check that fails and changes no tumbler; CLOSE of a found name closes its entry; a CLOSING entry is freed
once no frame of it remains queued; and a write of TSU_TUMB_SEL takes a snapshot of the entry. A page operation of a
FREE slice only records ONE_SLICE_STATE. Where it rests on choices of the model: log entries 2, 58. -/
def Obligations.TumblerStoreRules : Prop :=
  (∀ (n b : Nat) (tag : BitVec 24) (s : State), n < 64 → (s.slice n).state = .active →
    (s.slice n).nameTag (TumbDesc.ofBytes ((s.slice n).pageBytes 0x0C0 4)).dom b = some tag →
    s.createRefusal n tag (TumbDesc.ofBytes ((s.slice n).pageBytes 0x0C0 4)) = none →
    exec (.tumblerCreate n b) s
      = .next ((s.createTumb n tag (TumbDesc.ofBytes ((s.slice n).pageBytes 0x0C0 4)) false).spCode n 0x0D0 .none))
  ∧ (∀ (n b : Nat) (tag : BitVec 24) (c : ErrCode) (s : State), n < 64 → (s.slice n).state = .active →
    (s.slice n).nameTag (TumbDesc.ofBytes ((s.slice n).pageBytes 0x0C0 4)).dom b = some tag →
    s.createRefusal n tag (TumbDesc.ofBytes ((s.slice n).pageBytes 0x0C0 4)) = some c →
    exec (.tumblerCreate n b) s = .next (s.spCode n 0x0D0 c))
  ∧ (∀ (n b : Nat) (s : State), n < 64 → (s.slice n).state = .free →
    exec (.tumblerCreate n b) s = .next ((s.updCom .tsu fun c => c.accessErr 2 (0x10000 + 0x1000 * n + 0x0D0)).logT
      .sliceState (srcSlice n) 0 (some n)))
  ∧ (∀ (n e : Nat) (d : TumbDesc) (fromImage : Bool) (s : State), Tab.freeKey s.tsu.tumb 4096 = some e →
    ∃ t : Tumbler, (s.createTumb n 0 d fromImage).tumb? e = some t ∧ t.estate = .active ∧ t.gen = 0
      ∧ t.shareDone = (if d.counted then decide (d.target = 0) else decide (d.mask = 0)) ∧ t.arrNow = 0 ∧ t.arrNext = 0 ∧ t.count = 0 ∧ t.result = none ∧ t.heldArv = [] ∧ t.slice = n ∧ t.domain = 0
      ∧ t.index = d.index ∧ t.counted = d.counted ∧ t.mask = d.mask ∧ t.target = d.target ∧ t.op = d.op ∧ t.fmt = d.fmt
      ∧ t.lanes = d.lanes ∧ (s.createTumb n 0 d fromImage).gd = s.gd
      ∧ ∀ x, x ≠ e → (s.createTumb n 0 d fromImage).tumb? x = s.tumb? x)
  ∧ (∀ (n e : Nat) (tag : BitVec 24) (d : TumbDesc) (s : State), s.findTumb n tag d.index = some e →
    s.createRefusal n tag d = some .nameInUse)
  ∧ (∀ (n b e : Nat) (tag : BitVec 24) (s : State), n < 64 → (s.slice n).state = .active →
    (s.slice n).nameTag (TumbDesc.ofBytes ((s.slice n).pageBytes 0x0C0 4)).dom b = some tag →
    s.findTumb n tag (TumbDesc.ofBytes ((s.slice n).pageBytes 0x0C0 4)).index = some e →
    exec (.tumblerClose n b) s = .next ((s.closeTumb e).spCode n 0x0D0 .none))
  ∧ (∀ (n b : Nat) (tag : BitVec 24) (s : State), n < 64 → (s.slice n).state = .active →
    (s.slice n).nameTag (TumbDesc.ofBytes ((s.slice n).pageBytes 0x0C0 4)).dom b = some tag →
    s.findTumb n tag (TumbDesc.ofBytes ((s.slice n).pageBytes 0x0C0 4)).index = none →
    exec (.tumblerClose n b) s = .next (s.spCode n 0x0D0 .noTumbler))
  ∧ (∀ (e : Nat) (t : Tumbler) (s : State), s.tumb? e = some t → t.estate = .closing → s.framesOf t = false →
    exec (.tumblerFree e) s = .next (s.updTsu fun x => { x with tumb := Tab.del x.tumb e }))
  ∧ (∀ (e : Nat) (t : Tumbler) (s : State), s.tumb? e = some t → t.estate ≠ .closing → exec (.tumblerFree e) s = .next s)
  ∧ (∀ (w : Word) (s : State), ∃ t, exec (.tumblerSnapshot w) s = .next t ∧ t.tsu.tumbView = s.tumbWords (w.toNat % 4096)
      ∧ t.reg .tsu 0x408 = w.toNat % 4096 ∧ t.tsu.tumb = s.tsu.tumb ∧ t.gd = s.gd)

/-- Arrivals (R188, R189, R190, R192, R193, R195, R465): at a NAMED tumbler a participant slot that is clear is counted
for the current generation, one that is set for the next generation as early, one that is set in both is held, and a
slot outside the mask is refused with ONE_NOT_PARTICIPANT; at a COUNTED one an arrival is for the current generation
until TARGET is reached and then for the next; weight 0 and a wrong payload length are refused with
ONE_ARRIVE_INVALID. An arrival of a command of a stale slice or of a halted one is refused; a port whose arrival is
held takes no other; and software arrives with no payload when its address is 0. Where it rests on choices of the
model: log entries 2, 63. -/
def Obligations.ArrivalRules : Prop :=
  (∀ (e slot weight n : Nat) (t : Tumbler) (s : State), s.tumb? e = some t → t.estate = .active → t.slice = n →
    t.counted = false → t.domain = 0 → t.mstate = .member → t.bound = none → t.mask.getLsbD slot = true →
    s.arvJudge e slot weight (arrivalLen t.op t.fmt t.lanes) n
      = if !t.arrNow.getLsbD slot then .counted t.gen false
        else if !t.arrNext.getLsbD slot then .counted (t.gen + 1) true else .held)
  ∧ (∀ (e slot weight n : Nat) (t : Tumbler) (s : State), s.tumb? e = some t → t.estate = .active → t.slice = n →
    t.counted = false → t.bound = none → t.mask.getLsbD slot = false →
    s.arvJudge e slot weight (arrivalLen t.op t.fmt t.lanes) n = .refused .notParticipant)
  ∧ (∀ (e slot weight n : Nat) (t : Tumbler) (s : State), s.tumb? e = some t → t.estate = .active → t.slice = n →
    t.counted = true → 0 < weight → t.domain = 0 → t.mstate = .member → t.bound = none →
    s.arvJudge e slot weight (arrivalLen t.op t.fmt t.lanes) n
      = if t.count < t.target then .counted t.gen false
        else if t.early < t.target then .counted (t.gen + 1) true else .refused .overflow)
  ∧ (∀ (e slot weight len n : Nat) (t : Tumbler) (s : State), s.tumb? e = some t → t.estate = .active → t.slice = n →
    (t.counted = true ∧ weight = 0) ∨ len ≠ arrivalLen t.op t.fmt t.lanes →
    s.arvJudge e slot weight len n = .refused .arriveInvalid)
  ∧ (∀ (e slot weight len n : Nat) (s : State), s.tumb? e = none → s.arvJudge e slot weight len n = .refused .noTumbler)
  ∧ (∀ (a : PortArv) (t : Tumbler) (g : BitVec 2) (early : Bool) (s : State), a.port < 1024 → a.slot < 64 →
    (s.port a.port).held = none → (s.slice a.slice).state = .active → (s.slice a.slice).sgen = a.sgen →
    s.pendOf a.port a.entry a.slot = none → s.tumb? a.entry = some t → a.beats = arrivalBeats t.op t.fmt t.lanes →
    s.arvJudge a.entry a.slot a.weight (arrivalLen t.op t.fmt t.lanes) a.slice = .counted g early →
    exec (.portArrival a) s = .next (((((s.arvCount a.entry (srcPort a.port) a.slot a.weight
      (padTo (arrivalLen t.op t.fmt t.lanes) a.data) early).endPend a.port a.entry a.slot).engineDone a.port a.slice
      a.sgen).updPort a.port fun q => { q with arvAt := q.arvAt ++ [(a.entry, g)] }).startsWaiting s a.port))
  ∧ (∀ (a : PortArv) (s : State), a.port < 1024 → a.slot < 64 → (s.port a.port).held = none →
    (s.slice a.slice).state = .free ∨ (s.slice a.slice).sgen ≠ a.sgen →
    exec (.portArrival a) s = .next (((((s.logT .sliceStale (srcPort a.port) 0 (some a.slice)).endPend a.port a.entry
      a.slot).engineDone a.port a.slice a.sgen).portRecord a.port a.slice a.sgen a.entry .sliceStale 0).startsWaiting s a.port))
  ∧ (∀ (a : PortArv) (s : State), (s.port a.port).held.isSome = true → exec (.portArrival a) s = .next s)
  ∧ (∀ (n e : Nat) (g : BitVec 2) (early : Bool) (s : State), n < 64 → (s.slice n).state = .active →
    (s.slice n).arvBusy = false → s.named n ((s.slice n).word 0x060) = some e →
    (s.slice n).word 0x068 * 4294967296 + bitsOf ((s.slice n).word 0x064) 31 3 * 8 = 0 →
    (s.updSlice n fun v => { v with arvBusy := false }).arvJudge e (bitsOf ((s.slice n).word 0x060) 22 17)
      (bitsOf ((s.slice n).word 0x060) 30 23) 0 n = .counted g early →
    exec (.softwareArrive n) s = .next ((((s.updSlice n fun v => { v with arvBusy := false }).arvCount e (srcSlice n)
      (bitsOf ((s.slice n).word 0x060) 22 17) (bitsOf ((s.slice n).word 0x060) 30 23) [] early).updSlice n fun v =>
        { v with arvGen := g, arvEarly := early }).spCode n 0x06C .none))
  ∧ (∀ (n : Nat) (s : State), n < 64 → (s.slice n).state = .active → (s.slice n).arvBusy = true →
    exec (.softwareArrive n) s = .next s)
  ∧ (∀ (e : Nat) (t : Tumbler) (s : State), s.tumb? e = some t → t.release = true → t.heldArv = [] →
    exec (.heldArrivalRelease e) s
      = .next ((s.updTumb e fun t => { t with heldArv := [], release := false }).shareComplete e))
  ∧ (∀ (e : Nat) (t : Tumbler) (s : State), s.tumb? e = some t → t.release = false →
    exec (.heldArrivalRelease e) s = .next s)

/-- Turns received and software waits (R163, R196, R198, R199, R210, R211, R228, R466): a down message of one frame for
the member TSU's current generation turns the share; a frame of a domain this TSU is not bound to is discarded with
ONE_DOMAIN_STALE; a turn with no waiters makes its generation's result, moves the next generation's arrivals to the
current one, and clears the share's completion. ARM waits on the named generation, or is refused with a WAIT record; a
wait whose deadline has come ends with ONE_WAIT_TIMEOUT; a budget is reclaimed at its time; and the power manager
takes lend events oldest first. Where it rests on choices of the model: log entry 52. -/
def Obligations.TurnAndWaitRules : Prop :=
  (∀ (l : LinkId) (rx : Rx) (s u : State) (f : Frame), l.node = .tsu → s.receive l rx 0x11 = (u, some f) →
    (u.link l).chain2 = [] → downCount false f = some 1 → f.more = false →
    exec (.turnRx l rx) s = .next (((u.updLink l fun k => { k with chain2 := [] }).downFirst (srcLane l.port) false f).downFill false f f 0))
  ∧ (∀ (l : LinkId) (rx : Rx) (s u : State) (f : Frame), l.node = .tsu → s.receive l rx 0x08 = (u, some f) →
    (u.link l).chain1 = [] → downCount true f = some 1 → f.more = false →
    exec (.launchFrameRx l rx) s = .next (((u.updLink l fun k => { k with chain1 := [] }).downFirst (srcLane l.port) true f).downFill true f f 0))
  ∧ (∀ (src : Nat) (launch : Bool) (f : Frame) (s : State), s.sliceOf f.domain = none →
    s.downFirst src launch f = s.logT .domainStale src)
  ∧ (∀ (launch : Bool) (f : Frame) (src n e : Nat) (t : Tumbler) (b : Binding) (s : State), s.sliceOf f.domain = some n →
    s.findTumb n f.domain f.fIndex = some e → s.tumb? e = some t → t.mstate = .member →
    (s.slice n).bindings.find? (fun b => b.tag = f.domain) = some b → b.expelAt = none →
    sdiff 16 f.step16.toNat (b.step % 65536 : Nat) ≠ -32768 → f.gen = t.gen → t.shareDone = true →
    s.downFirst src launch f = (s.downResult launch false f n src).1.turnApply e (s.downResult launch false f n src).2)
  ∧ (∀ (e : Nat) (r : Result) (t : Tumbler) (s : State), s.tumb? e = some t → t.op ≠ 0x0B → t.op ≠ 0x0C → t.domain = 0 → t.empty = false →
    s.tsu.tree = none → (s.slice t.slice).state = .free → (s.slice t.slice).serve.finEn = false → s.tsu.contexts = [] →
    s.tsu.waits = [] → s.tsu.launches = [] → s.tsu.ports = [] → ∃ t', (s.turnApply e r).tumb? e = some t'
      ∧ t'.gen = r.gen + 1 ∧ t'.result = some r ∧ t'.arrNow = t.arrNext ∧ t'.arrNext = 0 ∧ t'.count = t.early ∧ t'.early = 0
      ∧ t'.shareDone = false ∧ t'.release = true ∧ t'.short = r.short ∧ t'.overflow = false ∧ t'.mask = t.mask)
  ∧ (∀ (n k e : Nat) (t : Tumbler) (s : State), n < 64 → k < 4 → (s.slice n).state = .active →
    Tab.get s.tsu.waits (4 * n + k) = none → s.named n ((s.slice n).word (0x080 + 0x10 * k)) = some e → s.tumb? e = some t →
    bitOf ((s.slice n).word (0x080 + 0x10 * k + 12)) 16 = false →
    BitVec.ofNat 2 (bitsOf ((s.slice n).word (0x080 + 0x10 * k)) 18 17) = t.gen →
    exec (.waitArm n k) s = .next (s.updTsu fun x => { x with
      waits := Tab.put x.waits (4 * n + k) ⟨e, t.gen, none, s.tsu.order⟩, order := s.tsu.order + 1 }))
  ∧ (∀ (n k : Nat) (w : SoftWait) (s : State), n < 64 → k < 4 → (s.slice n).state = .active →
    Tab.get s.tsu.waits (4 * n + k) = some w → exec (.waitArm n k) s = .next (s.waitRefused n
      (s.named n ((s.slice n).word (0x080 + 0x10 * k))) (bitsOf ((s.slice n).word (0x080 + 0x10 * k)) 11 0)
      (BitVec.ofNat 2 (bitsOf ((s.slice n).word (0x080 + 0x10 * k)) 18 17)) .waitFull true))
  ∧ (∀ (n k e o : Nat) (g : BitVec 2) (d : Time80) (s : State), k < 4 → Tab.get s.tsu.waits (4 * n + k) = some ⟨e, g, some d, o⟩ →
    d.toNs16 ≤ (s.now .tsu).toNs16 → exec (.waitTimeout n k) s
      = .next ((((s.updTsu fun t => { t with waits := Tab.del t.waits (4 * n + k) }).logT .waitTimeout
        (srcSlice ((4 * n + k) / 4)) 0 (some ((4 * n + k) / 4))).waitRecord ((4 * n + k) / 4) (srcSlice ((4 * n + k) / 4))
        (((s.updTsu fun t => { t with waits := Tab.del t.waits (4 * n + k) }).logT .waitTimeout
          (srcSlice ((4 * n + k) / 4)) 0 (some ((4 * n + k) / 4))).tumb? e) none g .waitTimeout)))
  ∧ (∀ (p e : Nat) (til : Word) (s : State), (s.port p).lent = some (til, e) → s.tsu.lend = [] →
    0 ≤ sdiff 32 (s.now .tsu).ns32.toNat til.toNat → ∃ t, exec (.budgetReclaim p) s = .next t ∧ (t.port p).lent = none
      ∧ t.tsu.lend = [⟨false, p, (s.now .tsu).ns32⟩] ∧ t.gd = s.gd)
  ∧ (∀ (v : LendEvent) (rest : List LendEvent) (s : State), s.tsu.lend = v :: rest →
    exec .pmLendEvent s = .next (s.updTsu fun t => { t with lend := rest }))

/-- Launches at the ports (R136, R139, R228, R230, R233, R240, R242, R243, R247): the LAUNCH_AT of an armed launch leaves
to its region once T is at most 65.536 µs ahead; a captured command is presented, and taken by a ready engine, with a
PORT record of its lateness; a command held by the engine is recorded with ONE_QUEUE_STALL when taken; GO orders an
abort of a slice; an acknowledging port leaves the slice's abort, and one past ENG_ABORT_LIMIT is reset with
ONE_ABORT_OVERRUN. Where it rests on choices of the model: log entries 2, 46. -/
def Obligations.LaunchRules : Prop :=
  (∀ (id r slot : Nat) (a : Arm) (s : State), Tab.get s.tsu.arms id = some a → a.cancel = .none → a.listWait = false →
    a.t.toNs16 - (s.now .tsu).toNs16 ≤ 65536 * 65536 → a.slots = [(r, slot)] → a.sent = [] →
    exec (.launchAtSend id) s = .next (if (s.region r).ready
      then (s.updArm id fun a => { a with sent := a.sent ++ [r] }).busSend r (.launchAt (stamp48 a.t.toNs16) slot a.fence)
      else (s.updArm id fun a => { a with sent := a.sent ++ [r] }).slotLost r slot .tbusLost))
  ∧ (∀ (id : Nat) (a : Arm) (s : State), Tab.get s.tsu.arms id = some a →
    65536 * 65536 < a.t.toNs16 - (s.now .tsu).toNs16 → exec (.launchAtSend id) s = .next s)
  ∧ (∀ (p : Nat) (e : CaptureEdge) (ready : Bool) (f : Fired) (rest : List Fired) (s : State), (s.port p).fired = f :: rest →
    f.shown = none → (s.port p).resetAt = none → 0 < sdiff 48 e.stamp f.reach → f.late = false → f.gated = false →
    f.cancel = .none → ∃ t, exec (.portCapture p e ready) s = .next t ∧ (t.port p).hold = (s.port p).hold.filter (fun h => h.1 ≠ f.cmd.slice)
      ∧ (t.port p).fired = (if ready then rest else { f with shown := some e.stamp } :: rest)
      ∧ (t.port p).atEngine = (if ready then (s.port p).atEngine ++ [(f.cmd.slice, f.cmd.sgen)] else (s.port p).atEngine)
      ∧ t.gd = s.gd)
  ∧ (∀ (p : Nat) (e : CaptureEdge) (f : Fired) (rest : List Fired) (s : State), (s.port p).fired = f :: rest → f.shown = none →
    (s.port p).resetAt = none → 0 < sdiff 48 e.stamp f.reach → f.late = true → (e.period : Int) < sdiff 48 e.stamp f.t →
    f.gated = false → f.cancel = .none → exec (.portCapture p e false) s
      = .next (((s.updPort p fun q => { q with
        fired := { f with shown := some e.stamp } :: q.fired.drop 1,
        hold := q.hold.filter fun h => h.1 ≠ f.cmd.slice }).firedRecord p f .launchLate (sdiff 48 e.stamp f.t / 65536)).startsWaiting s p))
  ∧ (∀ (p : Nat) (stamp at_ : Int) (f : Fired) (rest : List Fired) (s : State), (s.port p).fired = f :: rest →
    f.shown = some at_ → f.cancel = .none → exec (.lpCmdTaken p stamp) s
      = .next (((s.firedRecord p f .queueStall ((stamp - at_) / 65536)).updPort p fun q => { q with
        fired := q.fired.drop 1, atEngine := q.atEngine ++ [(f.cmd.slice, f.cmd.sgen)],
        fenceBusy := q.fenceBusy || f.cmd.fence }).startsWaiting s p))
  ∧ (∀ (p : Nat) (stamp : Int) (s : State), (s.port p).fired = [] → exec (.lpCmdTaken p stamp) s
      = .next ((s.updPort p fun q => { q with direct := q.direct.drop 1 }).startsWaiting s p))
  ∧ (∀ (w : Word) (s : State), bitOf w.toNat 6 = false →
    exec (.sliceAbortGo w) s = .next (s.setReg .tsu 0x518 (w &&& 0x3F#32)))
  ∧ (∀ (w : Word) (s : State), bitOf w.toNat 6 = true → (s.slice (bitsOf w.toNat 5 0)).state ≠ .free →
    exec (.sliceAbortGo w) s = .next (((s.setReg .tsu 0x518 (w &&& 0x3F#32)).updTsu fun t =>
      { t with hostSeq := (s.tsu.hostSeq + 1) % 65536 }).order (bitsOf w.toNat 5 0)
        { verb := 1, ctx := some 0, sentence := 0, rank := 2, src := srcHost, seq := (s.tsu.hostSeq + 1) % 65536 }))
  ∧ (∀ (p n at_ m : Nat) (rest : List Nat) (a : AbortRun) (s : State), (s.port p).abort = some (n, at_) →
    (s.slice n).abort = some a → a.ports.filter (· ≠ p) = m :: rest → ∃ t, exec (.lpAbortAck p) s = .next t
      ∧ (t.slice n).abort = some { a with ports := m :: rest } ∧ t.gd = s.gd
      ∧ (t.port p).abort = (s.port p).abortDue.head?.map (fun k => (k, s.aon .tsu))
      ∧ (t.port p).atEngine = (s.port p).atEngine.filter (fun x => x.1 ≠ n))
  ∧ (∀ (p n at_ : Nat) (s : State), (s.port p).abort = some (n, at_) → (s.port p).abortDue = [] →
    at_ + clampNat 1 8 (bitsOf (s.reg .tsu 0x500) 3 0) * 1000 ≤ s.aon .tsu → exec (.engAbortLimitExpiry p) s
      = .next ((((((s.logT .abortOverrun (srcPort p) 0 (some n)).healthSend .abortOverrun).portReset p).updSlice n fun v =>
        { v with abort := v.abort.map fun a => { a with ports := a.ports.filter (· ≠ p) } }).abortCheck n)))
  ∧ (∀ (p n at_ : Nat) (s : State), (s.port p).abort = some (n, at_) →
    s.aon .tsu < at_ + clampNat 1 8 (bitsOf (s.reg .tsu 0x500) 3 0) * 1000 → exec (.engAbortLimitExpiry p) s = .next s)
  ∧ (∀ s : State, exec .marginClear s = .next (s.updTsu fun t => { t with minMargin := 0x7FFF }))

/-- The result read port and the on-die network (R265, R266, R353, R365, R467 to R469, R512): a read of part 0 of the
turned generation answers its data bytes; a read of another slice's entry returns 0 and an error with
ONE_ACCESS_DENIED; a read of the current generation stalls, 16 at most, and after RESULT_WAIT returns 0 with
ONE_RESULT_INCOMPLETE; the acknowledgement of a list header releases it, and that of a record advances the completion
ring's head. Where it rests on choices of the model: log entries 42, 54. -/
def Obligations.ResultPortRules : Prop :=
  (∀ (q : ResultRead) (t : Tumbler) (r : Result) (s : State), q.formed = true → s.tumb? q.entry = some t →
    t.slice = q.slice → (s.slice q.slice).sgen = q.sgen → q.gen ≠ t.gen → t.result = some r → q.gen = r.gen → q.part = 0 →
    q.byte + q.length ≤ dataLen r.op r.fmt r.lanes → r.whole = true →
    exec (.resultRead q) s = .next (s.updTsu fun x => { x with
      readOut := some (beNat ((List.range q.length).map fun i => byteAt r.data (q.byte + i)) 0 q.length, false) }))
  ∧ (∀ (q : ResultRead) (t : Tumbler) (s : State), q.formed = true → s.tumb? q.entry = some t → t.slice ≠ q.slice →
    exec (.resultRead q) s = .next (((s.updTsu fun x => { x with readOut := some (0, true) }).logT .accessDenied
      (srcSlice q.slice) 0 (some q.slice)).takeFresh))
  ∧ (∀ (q : ResultRead) (s : State), q.formed = false →
    exec (.resultRead q) s = .next (s.updTsu fun x => { x with readOut := some (0, true) }))
  ∧ (∀ (q : ResultRead) (t : Tumbler) (s : State), q.formed = true → s.tumb? q.entry = some t → t.slice = q.slice →
    (s.slice q.slice).sgen = q.sgen → q.gen = t.gen → exec (.resultRead q) s = .next
      (if s.tsu.stalls.length < 16 then s.updTsu fun x => { x with stalls := x.stalls ++ [(q, s.aon .tsu)] } else s))
  ∧ (∀ (q : ResultRead) (since d : Nat) (rest : List (ResultRead × Nat)) (s : State), s.tsu.stalls = (q, since) :: rest →
    since + s.resultWait ≤ s.aon .tsu → (s.updTsu fun t => { t with stalls := rest }).portReply q = .stall d →
    exec .resultWaitExpiry s = .next ((((s.updTsu fun t => { t with stalls := rest }).updTsu fun t =>
      { t with readOut := some (0, true) }).logT .resultIncomplete (srcSlice q.slice) d (some q.slice)).takeFresh))
  ∧ (∀ (n : Nat) (s : State), s.tsu.arms.filter (fun p => p.2.slice = n && p.2.listWait) = [] →
    exec (.listHeaderAck n) s = .next (s.updSlice n fun v => { v with headers := v.headers.drop 1 }))
  ∧ (∀ (n id : Nat) (a : Arm) (s : State), s.tsu.arms = [(id, a)] → a.slice = n → a.listWait = true →
    (s.slice n).headers.head? = some (a.domain, a.index, a.gen) → (s.now .tsu).toNs16 ≤ s.onTimeLimit a.t →
    exec (.listHeaderAck n) s = .next ((s.updSlice n fun v => { v with headers := v.headers.drop 1 }).updArm id fun a =>
      { a with listWait := false }))
  ∧ (∀ (e : Bool) (n pasid addr : Nat) (data : List Byte) (rest : List NwWrite) (s : State),
    s.tsu.nwWrites = ⟨.record n, pasid, addr, data⟩ :: rest → exec (.nwWriteAck e) s
      = .next (((s.updTsu fun t => { t with nwWrites := rest }).updSlice n fun v =>
        { v with crHead := (v.crHead + 1) % 4294967296, inFlight := v.inFlight - 1 }).ringVector n))
  ∧ (∀ (pasid addr : Nat) (data : List Byte) (rest : List NwWrite) (s : State),
    s.tsu.nwWrites = ⟨.firmware, pasid, addr, data⟩ :: rest → exec (.nwWriteAck false) s
      = .next ((s.updTsu fun t => { t with nwWrites := rest }).setEvt .tsu 0x7EC 0x20000))

/-- Schedule images (R306 to R308, R465, R512): LOAD of an ACTIVE slice with no pending change reads the image from slice
memory; while one is pending it is refused with BUSY; an image that passes every check becomes pending, one that fails
is refused with its REASON; a pending change becomes current once no context of the slice runs; UNLOAD makes the
removal pending. A read that faults ends a software arrival with ONE_ARRIVE_INVALID and refuses an image with LENGTH.
Where it rests on choices of the model: log entries 2, 63, 76. -/
def Obligations.ScheduleImageRules : Prop :=
  (∀ (n : Nat) (s : State), n < 64 → (s.slice n).state = .active → (s.slice n).imgBusy = false →
    (s.slice n).pending = .none → exec (.imageLoad n) s = .next ((s.updSlice n fun v => { v with imgBusy := true }).nwRead
      (.image n) (s.slice n).pasid ((s.slice n).word 0x144 * 4294967296 + bitsOf ((s.slice n).word 0x140) 31 4 * 16)
      (bitsOf ((s.slice n).word 0x148) 18 0)))
  ∧ (∀ (n : Nat) (s : State), n < 64 → (s.slice n).state = .active → (s.slice n).pending ≠ .none →
    exec (.imageLoad n) s = .next (s.tsuRefuse (some n) (0x13, 0)))
  ∧ (∀ (n : Nat) (s : State), n < 64 → (s.slice n).state = .active → (s.slice n).imgBusy = false →
    exec (.imageUnload n) s = .next (s.updSlice n fun v => { v with pending := .removal }))
  ∧ (∀ (n : Nat) (s : State), n < 64 → (s.slice n).state = .active → (s.slice n).imgBusy = true →
    exec (.imageUnload n) s = .next (s.tsuRefuse (some n) (0x13, 0)))
  ∧ (∀ (n pasid addr len : Nat) (data : List Byte) (m : SchedImage) (s : State), s.tsu.nwReads = [⟨.image n, pasid, addr, len⟩] →
    (s.slice n).pending = .none →
    ((s.updTsu fun t => { t with nwReads := [] }).updSlice n fun v => { v with imgBusy := false }).schedCheck n
      (padTo len data) len false = .ok m → exec (.nwReadResponse data false) s
      = .next (((s.updTsu fun t => { t with nwReads := [] }).updSlice n fun v => { v with imgBusy := false }).updSlice n
        fun v => { v with pending := .image m }))
  ∧ (∀ (n pasid addr len : Nat) (data : List Byte) (r : Refused) (s u : State), s.tsu.nwReads = [⟨.image n, pasid, addr, len⟩] →
    (s.slice n).pending = .none →
    u = ((s.updTsu fun t => { t with nwReads := [] }).updSlice n fun v => { v with imgBusy := false }) →
    u.schedCheck n (padTo len data) len false = .error r → exec (.nwReadResponse data false) s
      = .next ((if badDescriptor (padTo len data) len r then u.logT .combineUnsupported (srcSlice n) 0 (some n) else u).tsuRefuse
        (some n) r))
  ∧ (∀ (n pasid addr len : Nat) (data : List Byte) (s : State), s.tsu.nwReads = [⟨.image n, pasid, addr, len⟩] →
    exec (.nwReadResponse data true) s = .next (((s.updTsu fun t => { t with nwReads := [] }).updSlice n fun v =>
      { v with imgBusy := false }).tsuRefuse (some n) (0x04, 0)))
  ∧ (∀ (n pasid addr len : Nat) (data : List Byte) (s : State), s.tsu.nwReads = [⟨.arrival n, pasid, addr, len⟩] →
    exec (.nwReadResponse data true) s = .next (((s.updTsu fun t => { t with nwReads := [] }).updSlice n fun v =>
      { v with arvBusy := false }).spCode n 0x06C .arriveInvalid 1))
  ∧ (∀ (data : List Byte) (e : Bool) (s : State), s.tsu.nwReads = [] → exec (.nwReadResponse data e) s = .next s)
  ∧ (∀ (n : Nat) (m : SchedImage) (s : State), s.tsu.contexts = [] → s.tsu.tumb = [] → (s.slice n).pending = .image m →
    m.tumblers = [] → m.contexts = [] → ∃ t, exec (.scheduleImageCurrent n) s = .next t
      ∧ (t.slice n).image = some m ∧ (t.slice n).pending = .none ∧ t.gd = s.gd)
  ∧ (∀ (n : Nat) (s : State), s.noneRuns n = true → (s.slice n).pending = .removal →
    exec (.scheduleImageCurrent n) s = .next (s.imageSwitch n none))
  ∧ (∀ (n : Nat) (s : State), s.noneRuns n = false → exec (.scheduleImageCurrent n) s = .next s)

/-- Tree images and policy sets (R274, R318, R319, R321, R322, R480, R483): a word written to GD_TREE_WDATA enters the
buffer at WPTR, which advances by 4, and beyond 12 MiB is dropped; a load away from the hall root only sets STATE, and
at the hall root hands the bytes to the loader, which refuses an image that fails a check; a pending extract becomes
current once ACTIVATE_AT is reached, and not before; COMMIT copies the staging policy into the set PSEL names, unless
RULE is 0b11, and LOAD copies it back; without an allocator both set ABSENT. Where it rests on choices of the model:
log entries 2, 15, 67, 69. -/
def Obligations.TreeImageRules : Prop :=
  (∀ (w : Word) (s : State), s.gd.wptr + 4 ≤ 12582912 → ∃ t, exec (.treeWdataWrite w) s = .next t
      ∧ t.gd.wptr = s.gd.wptr + 4 ∧ bufGet t.gd.treeBuf (s.gd.wptr / 4) = w
      ∧ (∀ k, k ≠ s.gd.wptr / 4 → bufGet t.gd.treeBuf k = bufGet s.gd.treeBuf k) ∧ t.tsu = s.tsu)
  ∧ (∀ (w : Word) (s : State), 12582912 < s.gd.wptr + 4 → exec (.treeWdataWrite w) s = .next s)
  ∧ (∀ (s : State), s.gd.rootSel = false → exec .loadBuf s = .next (s.updCom .gd fun c => c.accessErr 4 0x40C)
      ∧ ∀ d : List Byte, exec (.treeLoadCard d) s = .next (s.updCom .gd fun c => c.accessErr 4 0x40C))
  ∧ (∀ (d : List Byte) (r : Refused) (s : State), s.gd.rootSel = true → treeCheck d d.length s.gd.tree = .error r →
    exec (.treeLoadCard d) s = .next (s.gdRefuse r))
  ∧ (∀ (r : Refused) (s : State), s.gd.rootSel = true →
    treeCheck s.gd.bufBytes s.gd.bufBytes.length s.gd.tree = .error r → exec .loadBuf s = .next (s.gdRefuse r))
  ∧ (∀ (d : List Byte) (x : TreeImage) (s : State), s.gd.rootSel = true → treeCheck d d.length s.gd.tree = .ok x →
    s.overHeld x = false → s.treeCustody x = true → exec (.treeLoadCard d) s = .next ((s.gdRefuse (0x10, 0)).logG .custodyRequired))
  ∧ (∀ (x p : TreeImage) (s : State), s.gd.rootSel = true → treeCheck s.gd.bufBytes s.gd.bufBytes.length s.gd.tree = .ok x →
    s.overHeld x = false → s.treeCustody x = false → s.gd.treePend = some p → p.prev ≠ x.prev → exec .loadBuf s = .next (s.gdRefuse (0x13, 0)))
  ∧ (∀ (d : List Byte) (x : TreeImage) (s : State), s.gd.rootSel = true → treeCheck d d.length s.gd.tree = .ok x →
    s.overHeld x = false → s.treeCustody x = false → s.gd.treePend = none → s.gd.badPorts = [] → s.gd.tree = none →
    (s.now .gd).toNs < x.activateAt.toNs → exec (.treeLoadCard d) s
      = .next (s.updGd fun g => { g with image := d, leafSent := [], treePend := some x }))
  ∧ (∀ (x : TreeImage) (s : State), s.gd.rootSel = true → treeCheck s.gd.bufBytes s.gd.bufBytes.length s.gd.tree = .ok x →
    s.overHeld x = false → s.treeCustody x = false → s.gd.treePend = none → s.gd.badPorts = [] → s.gd.tree = none →
    (s.now .gd).toNs < x.activateAt.toNs → exec .loadBuf s
      = .next (s.updGd fun g => { g with image := s.gd.bufBytes, leafSent := [], treePend := some x }))
  ∧ (∀ (x : TreeImage) (s : State), s.tsu.treePend = some x → (s.now .tsu).toNs < x.activateAt.toNs →
    exec (.treeImageActivate .tsu) s = .next s)
  ∧ (∀ (x : TreeImage) (s : State), s.tsu.treePend = some x → x.activateAt.toNs ≤ (s.now .tsu).toNs → s.tsu.tree = none →
    x.leaf = none → x.domains = [] → ∃ t, exec (.treeImageActivate .tsu) s = .next t ∧ t.tsu.tree = some x
      ∧ t.tsu.treePend = none ∧ t.tsu.com.treeId = x.id ∧ t.tsu.slices = s.tsu.slices ∧ t.gd = s.gd)
  ∧ (∀ (x : TreeImage) (s : State), s.gd.treePend = some x → x.activateAt.toNs ≤ (s.now .gd).toNs →
    exec (.treeImageActivate .gd) s = .next (s.gdActivate x))
  ∧ (∀ s : State, s.gd.hasAlloc = true → s.gd.staged.rule ≠ 3 → exec .policyCommit s = .next (s.updGd fun g =>
      { g.hold (s.aon .gd) with policies := Tab.put g.policies (bitsOf (s.reg .gd 0x560) 3 0) g.staged }))
  ∧ (∀ s : State, s.gd.hasAlloc = true → s.gd.staged.rule = 3 →
    exec .policyCommit s = .next (s.updCom .gd fun c => c.accessErr 4 0x568))
  ∧ (∀ s : State, s.gd.hasAlloc = true → exec .policyLoad s = .next (s.updGd fun g =>
      { g with staged := Tab.getD g.policies (bitsOf (s.reg .gd 0x560) 3 0) ⟨false, 0, 0, []⟩ }))
  ∧ (∀ s : State, s.gd.hasAlloc = false → exec .policyCommit s = .next (s.updCom .gd fun c => c.accessErr 1 0x568)
      ∧ exec .policyLoad s = .next (s.updCom .gd fun c => c.accessErr 1 0x568))

/-- The step sequencer issues (R299, R300, R303, R336): a clause command acts when the chosen context's clause has its
verb, and then carries out that verb, after which a context that has issued RUNAWAY_LIMIT clauses is halted; with no
ready context, or a clause of another verb, it has no effect; a context on whose clause the breakpoint is set is
halted instead. Where it rests on choices of the model: log entry 2. -/
def Obligations.SequencerIssueRules : Prop :=
  (∀ (c : Nat) (x : Ctx) (k : BitVec 128) (s : State),
    (s.Issues c x k 0 → exec .clauseEnd s = .next (((s.begun c).endClause c k).runaway c))
    ∧ (s.Issues c x k 1 → exec .clauseLaunch s = .next (((s.begun c).stageLaunch c x.begun k x.clause).runaway c))
    ∧ (s.Issues c x k 2 → exec .clauseArrive s = .next (((s.begun c).issueArrive c x.begun k false).runaway c))
    ∧ (s.Issues c x k 3 → exec .clauseWait s = .next (((s.begun c).issueWait c x.begun k).runaway c))
    ∧ (s.Issues c x k 4 → exec .clauseReduce s = .next (((s.begun c).issueArrive c x.begun k true).runaway c))
    ∧ (s.Issues c x k 5 → exec .clauseScan s = .next (((s.begun c).issueArrive c x.begun k true).runaway c))
    ∧ (s.Issues c x k 6 → exec .clauseAlloc s = .next (((s.begun c).issueArrive c x.begun k true).runaway c))
    ∧ (s.Issues c x k 7 → exec .clauseBranch s = .next (((s.begun c).branch c x.begun k).runaway c))
    ∧ (s.Issues c x k 8 → exec .clauseMark s = .next ((((s.begun c).markRecord x.begun k x.clause).ctxNext c).runaway c))
    ∧ (s.Issues c x k 9 → exec .clauseYield s = .next (((s.begun c).issueYield c x.begun k).runaway c))
    ∧ (s.Issues c x k 10 → exec .clauseAbort s = .next (((s.begun c).issueAbort c x.begun k).runaway c)))
  ∧ (∀ s : State, s.pickCtx = none → exec .clauseEnd s = .next s ∧ exec .clauseLaunch s = .next s
    ∧ exec .clauseArrive s = .next s ∧ exec .clauseWait s = .next s ∧ exec .clauseBranch s = .next s)
  ∧ (∀ (c : Nat) (x : Ctx) (k : BitVec 128) (s : State), s.pickCtx = some (c, x) →
    (s.slice x.slice).clause x.sentence x.clause = some k → clauseBits k 127 124 ≠ 3 → exec .clauseWait s = .next s)
  ∧ (∀ (c : Nat) (x : Ctx) (k : BitVec 128) (s : State), s.pickCtx = some (c, x) →
    (s.slice x.slice).clause x.sentence x.clause = some k → clauseBits k 127 124 = 0 → s.breakHit c x = true →
    exec .clauseEnd s = .next ((s.setEvt .tsu 0x888 0x40000000).ctxHalt c .none))
  ∧ (∀ (c : Nat) (x : Ctx) (s : State), Tab.get s.tsu.contexts c = some x → x.state = .ready →
    orOne (bitsOf (s.reg .tsu 0x600) 15 0) ≤ x.run → exec (.clauseRunaway c) s
      = .next ((s.logT .clauseRunaway (srcCtx x.record) x.clause (some x.slice)).ctxHalt c .clauseRunaway))
  ∧ (∀ (c : Nat) (x : Ctx) (s : State), Tab.get s.tsu.contexts c = some x →
    x.run < orOne (bitsOf (s.reg .tsu 0x600) 15 0) → exec (.clauseRunaway c) s = .next s)

/-- What a clause does (R227, R238, R300 to R302, R336, R338): END with NEXT 0xFF stops the context and otherwise starts
sentence NEXT at clause 0 with D_ctx one horizon ahead; a BRANCH on no counter goes to its target, one on a counter
loads it and counts down to 0; past a sentence's last clause a context stops with ONE_CLAUSE_FAULT; YIELD goes behind
its equals or parks; a WAIT for a generation that has turned continues, and one for the current generation blocks
until the turn; a payload is read before its arrival; a LAUNCH that names no tumbler or a port outside the slice's
mask is refused with a LAUNCH record, and one that finds room is staged and waits for its turn. Where it rests on
choices of the model: log entry 62. -/
def Obligations.ClauseEffectRules : Prop :=
  (∀ (c : Nat) (k : BitVec 128) (s : State), clauseBits k 95 88 = 0xFF →
    s.endClause c k = s.updCtx c fun x => { x with state := .stopped, block := .none, topnd := none, altClause := none })
  ∧ (∀ (c : Nat) (x : Ctx) (y : Sentence) (k : BitVec 128) (s : State), clauseBits k 95 88 ≠ 0xFF →
    Tab.get s.tsu.contexts c = some x → (s.slice x.slice).sentence (clauseBits k 95 88) = some y →
    ∃ z, Tab.get (s.endClause c k).tsu.contexts c = some z ∧ z.state = .ready ∧ z.sentence = clauseBits k 95 88
      ∧ z.clause = 0 ∧ z.loop1 = 0 ∧ z.loop2 = 0 ∧ z.loop3 = 0
      ∧ z.dCtx = Time80.ofUnits ((s.now .tsu).toUnits + s.horizon y.dclass * 4294967296))
  ∧ (∀ (c : Nat) (x : Ctx) (k : BitVec 128) (s : State), clauseBits k 87 86 = 0 →
    s.branch c x k = s.ctxGoto c (clauseBits k 95 88))
  ∧ (∀ (c : Nat) (x : Ctx) (k : BitVec 128) (s : State), clauseBits k 87 86 = 1 → x.loop1 = 1 →
    s.branch c x k = (s.updCtx c fun x => { x with loop1 := 0 }).ctxNext c)
  ∧ (∀ (c : Nat) (x : Ctx) (k : BitVec 128) (s : State), clauseBits k 87 86 = 1 → x.loop1 = 0 → 1 < clauseBits k 85 70 →
    s.branch c x k = (s.updCtx c fun x => { x with loop1 := clauseBits k 85 70 - 1 }).ctxGoto c (clauseBits k 95 88))
  ∧ (∀ (c i : Nat) (x : Ctx) (y : Sentence) (s : State), Tab.get s.tsu.contexts c = some x →
    (s.slice x.slice).sentence x.sentence = some y → y.ccnt ≤ i →
    s.ctxGoto c i = (s.logT .clauseFault (srcCtx x.record) 1 (some x.slice)).ctxStop c)
  ∧ (∀ (c i : Nat) (x : Ctx) (y : Sentence) (s : State), Tab.get s.tsu.contexts c = some x →
    (s.slice x.slice).sentence x.sentence = some y → i < y.ccnt → x.state ≠ .halted →
    ∃ z, Tab.get (s.ctxGoto c i).tsu.contexts c = some z ∧ z.clause = i ∧ z.state = .ready ∧ z.block = .none
      ∧ z.loop1 = x.loop1 ∧ z.sentence = x.sentence)
  ∧ (∀ (c : Nat) (x : Ctx) (k : BitVec 128) (s : State), clauseBits k 95 94 = 0 →
    s.issueYield c x k = (s.ctxNext c).updCtx c fun x => { x with yielded := true })
  ∧ (∀ (c : Nat) (x : Ctx) (k : BitVec 128) (s : State), clauseBits k 95 94 = 2 →
    s.issueYield c x k = s.updCtx c fun x => { x with state := .parked, run := 0 })
  ∧ (∀ (c : Nat) (x : Ctx) (k : BitVec 128) (s : State), clauseBits k 95 95 = 0 →
    s.issueAbort c x k = s.order x.slice { verb := 1, ctx := some 0, sentence := 0, rank := 1, src := srcCtx x.record, seq := 0 })
  ∧ (∀ (c e : Nat) (t : Tumbler) (x : Ctx) (k : BitVec 128) (s : State), s.clauseTumb x k = some e → s.tumb? e = some t →
    clauseBits k 95 94 = 0 → clauseBits k 93 58 / 17179869184 = 0 →
    s.issueWait c x k = (s.ctxBlock c (.turn e t.gen (clauseBits k 57 46) x.lastSlot) none).boost x.slice e x.dCtx)
  ∧ (∀ (c e : Nat) (t : Tumbler) (x : Ctx) (k : BitVec 128) (s : State), s.clauseTumb x k = some e → s.tumb? e = some t →
    clauseBits k 95 94 = 2 → x.lastArv = some (e, t.gen - 1) →
    s.issueWait c x k = s.ctxResult c e (clauseBits k 57 46) x.lastSlot)
  ∧ (∀ (c : Nat) (x : Ctx) (k : BitVec 128) (s : State), s.clauseTumb x k = none →
    s.issueWait c x k = ((s.logT .noTumbler (srcCtx x.record) 0 (some x.slice)).writeRecord
      { (s.logT .noTumbler (srcCtx x.record) 0 (some x.slice)).blankRec 3 x.slice with
          code := ErrCode.noTumbler.value, source := srcCtx x.record, index := clauseBits k 107 96 }).ctxNext c)
  ∧ (∀ (c i : Nat) (x : Ctx) (k : BitVec 128) (s : State),
    s.findTumb x.slice ((s.slice x.slice).imgTag (clauseBits k 108 108 = 1)) (clauseBits k 107 96) = none →
    s.stageLaunch c x k i = s.launchRefused c x (clauseBits k 107 96) .noTumbler)
  ∧ (∀ (c i e p : Nat) (t : Tumbler) (x : Ctx) (k : BitVec 128) (s : State),
    s.findTumb x.slice ((s.slice x.slice).imgTag (clauseBits k 108 108 = 1)) (clauseBits k 107 96) = some e →
    s.tumb? e = some t → p ∈ (s.slice x.slice).portSet k → p ∉ (s.slice x.slice).ports →
    s.stageLaunch c x k i = s.launchRefused c x (clauseBits k 107 96) .noPort)
  ∧ (∀ (c i e p r slot id : Nat) (t : Tumbler) (x : Ctx) (k : BitVec 128) (s : State),
    s.findTumb x.slice ((s.slice x.slice).imgTag (clauseBits k 108 108 = 1)) (clauseBits k 107 96) = some e →
    s.tumb? e = some t → clauseBits k 123 123 = 0 → (s.slice x.slice).portSet k = [p] → p ∈ (s.slice x.slice).ports →
    s.isPort p = true → clauseBits k 33 32 = 0 → (s.port p).staging.length < 4 →
    s.pickSlots (s.portRegions [p]) [] = some [(r, slot)] → Tab.freeKey s.tsu.launches 4096 = some id →
    s.stageLaunch c x k i = (((((s.stageClause id false x k [p] [(r, slot)]).updTsu fun y => { y with
      launches := Tab.put y.launches id ⟨x.slice, (s.slice x.slice).sgen, c, x.record, e, t.gen, x.sentence,
        ⟨i, [p], [(r, slot)], clauseBits k 75 75 = 1⟩, none, s.tsu.order, false⟩ }).startsWaiting s p).ctxBlock c (.launch id) none).boost x.slice e x.dCtx))

/-- Contexts over time (R227, R337, R338, R344 to R346, R367): a context stalled for staging tries its clause again; a
request waiting for a shared store is granted when the store has room and is refused after eight tries; a radio
context blocked at its deadline is recorded once with ONE_RADIO_MISS; a wait ends at TOPND with ONE_WAIT_TIMEOUT and a
sleep with the next clause; a ready context without a resident slot is swapped in, and a faulted restore halts it with
ONE_SWAP_FAULT. Where it rests on choices of the model: log entries 2, 55. -/
def Obligations.ContextRules : Prop :=
  (∀ (c : Nat) (x : Ctx) (k : BitVec 128) (s : State), Tab.get s.tsu.contexts c = some x → x.block = .staging →
    x.altClause = none → (s.slice x.slice).clause x.sentence x.clause = some k →
    exec (.stageResume c) s = .next (s.stageLaunch c x k x.clause))
  ∧ (∀ (c : Nat) (x : Ctx) (s : State), Tab.get s.tsu.contexts c = some x → x.block ≠ .staging →
    exec (.stageResume c) s = .next s)
  ∧ (∀ (n c tries : Nat) (o : SeqOrder) (s : State), s.tsu.grants = [⟨3, n, c, tries, some o⟩] → n < 64 →
    s.tsu.orders.length < 64 → exec (.grantRetry 3) s = .next (s.updTsu fun t => { t with
      grants := [], orders := insertOrder o t.orders, grantPtr := Tab.put t.grantPtr 3 ((n + 1) % 64) }))
  ∧ (∀ (n c tries : Nat) (o : SeqOrder) (s : State), s.tsu.grants = [⟨3, n, c, tries, some o⟩] → n < 64 →
    64 ≤ s.tsu.orders.length → tries < 7 → exec (.grantRetry 3) s = .next (s.updTsu fun t => { t with
      grants := [⟨3, n, c, tries + 1, some o⟩] }))
  ∧ (∀ (n c : Nat) (o : SeqOrder) (s : State), s.tsu.grants = [⟨3, n, c, 7, some o⟩] → n < 64 →
    64 ≤ s.tsu.orders.length → exec (.grantRetry 3) s = .next (((((s.updTsu fun t => { t with grants := [] }).logT .busy
      (srcSlice n) 3 (some n)).updTsu fun t => { t with retries := min (t.retries + 1) 0xFFFF }).spCode n 0x1F0 .seqFull)))
  ∧ (∀ (c e sl d : Nat) (g : BitVec 2) (x : Ctx) (y : Sentence) (s : State), Tab.get s.tsu.contexts c = some x →
    x.block = .turn e g d sl → x.state = .blocked → x.missed = false → (s.slice x.slice).sentence x.sentence = some y →
    y.dclass = 0 → x.dCtx.toNs16 ≤ (s.now .tsu).toNs16 → exec (.deadlineMiss c) s
      = .next ((s.updCtx c fun x => { x with missed := true }).missRecord x.slice (srcCtx x.record) .radioMiss))
  ∧ (∀ (c : Nat) (x : Ctx) (s : State), Tab.get s.tsu.contexts c = some x → x.missed = true →
    exec (.deadlineMiss c) s = .next s)
  ∧ (∀ (c e sl d : Nat) (g : BitVec 2) (t : Time80) (x : Ctx) (s : State), Tab.get s.tsu.contexts c = some x →
    x.block = .turn e g d sl → x.state = .blocked → x.topnd = some t → t.toNs16 ≤ (s.now .tsu).toNs16 →
    exec (.clauseTimeout c) s = .next (s.ctxWaitEnds c e g .waitTimeout))
  ∧ (∀ (c : Nat) (t : Time80) (x : Ctx) (s : State), Tab.get s.tsu.contexts c = some x → x.topnd = some t →
    (s.now .tsu).toNs16 < t.toNs16 → exec (.clauseTimeout c) s = .next s ∧ exec (.sleepEnd c) s = .next s)
  ∧ (∀ (c : Nat) (t : Time80) (x : Ctx) (s : State), Tab.get s.tsu.contexts c = some x → x.topnd = some t →
    x.state = .sleeping → t.toNs16 ≤ (s.now .tsu).toNs16 → exec (.sleepEnd c) s = .next (s.ctxGoto c (x.clause + 1)))
  ∧ (∀ (c : Nat) (x : Ctx) (s : State), s.tsu.swap = none → s.tsu.contexts = [(c, x)] → x.state = .ready →
    x.resident = none → 0 < (s.slice x.slice).resMax → exec .contextSwap s
      = .next ((s.updTsu fun t => { t with swap := some ⟨c, none, 0⟩ }).nwRead (.swapIn c) (s.slice x.slice).pasid
        (s.saveAddr x.slice c) 256))
  ∧ (∀ (w : Swap) (s : State), s.tsu.swap = some w → exec .contextSwap s = .next s)
  ∧ (∀ (w : Swap) (ns : Nat) (s : State), s.tsu.swap = some w → ∃ t, exec (.contextSwapDone true ns) s = .next t
      ∧ t.tsu.swap = none ∧ t.tsu.swapLast = min ns 0xFFFF ∧ t.tsu.evictions = min (s.tsu.evictions + 1) 0xFFFF
      ∧ (Tab.get t.tsu.contexts w.incoming).map (·.resident)
        = (Tab.get s.tsu.contexts w.incoming).map (fun _ => some w.slot) ∧ t.gd = s.gd)
  ∧ (∀ (w : Swap) (ns : Nat) (x : Ctx) (s : State), s.tsu.swap = some w → Tab.get s.tsu.contexts w.incoming = some x →
    exec (.contextSwapDone false ns) s = .next (((s.updTsu fun t => { t with
      swap := none, evictions := min (t.evictions + 1) 0xFFFF, swapLast := min ns 0xFFFF,
      swapMax := max t.swapMax (min ns 0xFFFF),
      nwReads := t.nwReads.filter fun r => r.kind ≠ .swapIn w.incoming }).logT .swapFault (srcCtx x.record) 0
        (some x.slice)).ctxHalt w.incoming .swapFault))
  ∧ (∀ (ns : Nat) (s : State), s.tsu.swap = none → exec (.contextSwapDone true ns) s = .next s
      ∧ exec (.contextSwapDone false ns) s = .next s)

/-- Radio time and the slot calendar (R326, R327, R331 to R333, R340, R341, R379, R463): a write of RF_OFFSET or RF_FRAMES
is pending until its second boundary and then becomes the offset in force; a calendar entry acts at its instant only.
The first due entry of a tick turns its tumbler with the eight lanes of R331, or, while LAUNCH_OK is 0, the slice is
halted or TRACE_REQ finds TRACEABLE 0, reports the slot; a HOLD goes to every port of CLEAR_PORTSET; an unmet
completion is ONE_RADIO_MISS; a port whose HOLD has passed T with nothing of the slice fired is released. Where it
rests on choices of the model: log entries 2, 38, 73. -/
def Obligations.RadioCalendarRules : Prop :=
  (∀ (w : Word) (s : State), ∃ t, exec (.rfOffsetWrite .tsu false w) s = .next t
    ∧ t.tsu.com.rfPend = some (min 9999999 (w.toNat % 16777216), s.reg .tsu 0x644 % 1024, s.now .tsu)
    ∧ t.tsu.com.rfNs = s.tsu.com.rfNs ∧ t.tsu.com.rfFrames = s.tsu.com.rfFrames ∧ t.gd = s.gd)
  ∧ (∀ (w : Word) (s : State), ∃ t, exec (.rfOffsetWrite .tsu true w) s = .next t
    ∧ t.tsu.com.rfPend = some (min 9999999 (s.reg .tsu 0x640 % 16777216), w.toNat % 1024, s.now .tsu) ∧ t.gd = s.gd)
  ∧ (∀ (w : Word) (s : State), s.gdAbsent 0x2C0 = false → ∃ t, exec (.rfOffsetWrite .gd false w) s = .next t
    ∧ t.gd.com.rfPend = some (min 9999999 (w.toNat % 16777216), s.reg .gd 0x2C4 % 1024, s.now .gd) ∧ t.tsu = s.tsu)
  ∧ (∀ (w : Word) (s : State), s.gd.variant ≠ .gd64x ∨ s.gd.hasRef = false → exec (.rfOffsetWrite .gd false w) s
      = .next (s.updCom .gd fun c => c.accessErr 1 0x2C0))
  ∧ (∀ (n : Node) (s : State), (s.com n).rfPend = none → exec (.rfOffsetApply n) s = .next s)
  ∧ (∀ (n : Node) (ns fr : Nat) (at_ : Time80) (s : State), (s.com n).rfPend = some (ns, fr, at_) →
    (s.now n).toNs < boundaryAfter at_ → exec (.rfOffsetApply n) s = .next s)
  ∧ (∀ (n : Node) (ns fr : Nat) (at_ : Time80) (s : State), (s.com n).rfPend = some (ns, fr, at_) →
    boundaryAfter at_ ≤ (s.now n).toNs → s.tsu.calendar = [] → exec (.rfOffsetApply n) s
      = .next (s.updCom n fun c => { c with rfNs := ns, rfFrames := fr, rfPend := none }))
  ∧ (∀ (k : Nat) (s : State), Tab.get s.tsu.calendar k = none → exec (.calTurn k) s = .next s
      ∧ exec (.calHold k) s = .next s ∧ exec (.calDoneCheck k) s = .next s)
  ∧ (∀ (k : Nat) (e : CalEntry) (s : State), Tab.get s.tsu.calendar k = some e → s.calDue e = none →
    exec (.calTurn k) s = .next s)
  ∧ (∀ (k : Nat) (e : CalEntry) (b : Int) (s : State), s.tsu.calendar = [(k, e)] → s.calDue e = some b → e.lastB = none →
    (s.tsu.calTick = true → exec (.calTurn k) s = .next s)
    ∧ (s.tsu.calTick = false →
      (s.tsu.com.time.launchOk = false → exec (.calTurn k) s = .next (s.slotMissed k e b .timeUnqualified 0))
      ∧ (s.tsu.com.time.launchOk = true → e.flag 4 = true → s.tsu.com.time.info.traceable = false →
        exec (.calTurn k) s = .next (s.slotMissed k e b .slotMissed 1))
      ∧ (s.tsu.com.time.launchOk = true → e.flag 4 = false → (s.slice e.slice).state = .halted →
        exec (.calTurn k) s = .next (s.slotMissed k e b .slotMissed 2))
      ∧ (s.tsu.com.time.launchOk = true → e.flag 4 = false → (s.slice e.slice).state ≠ .halted →
        exec (.calTurn k) s = .next ((s.updTsu fun t => { t with calTick := true }).calFire k e b))))
  ∧ (∀ (k i : Nat) (e : CalEntry) (b : Int) (t : Tumbler) (s : State), s.findTumb e.slice 0 e.tumbIx = some i →
    s.tumb? i = some t → ∃ r f, s.calFire k e b = (s.updCal k f).turnApply i r
      ∧ r.c = (s.now .tsu).toNs16 ∧ r.members = 1 ∧ r.short = false ∧ r.t = some (Time80.ofNs (max 0 (b - e.lead)))
      ∧ r.data = packLanes 2 [beNat e.bytes 0 2, (s.slotName e b).1, (s.slotName e b).2, e.mu,
          ((b - e.lead) % 4294967296).toNat / 65536, ((b - e.lead) % 4294967296).toNat % 65536, e.missed, 0]
      ∧ (f e).missed = 0 ∧ (f e).lastB = some b)
  ∧ (∀ (k : Nat) (e : CalEntry) (s : State), Tab.get s.tsu.calendar k = some e → e.flag 5 = false →
    exec (.calHold k) s = .next s)
  ∧ (∀ (k p : Nat) (e : CalEntry) (m : SchedImage) (b : Int) (s : State), Tab.get s.tsu.calendar k = some e →
    s.slotBoundary e ((s.now .tsu).toNs + e.lead + s.clearLead) = b → e.flag 3 = true → e.flag 5 = true →
    s.tsu.com.time.launchOk = true → e.fires (s.slotName e b).2 = true → e.lastHold = none →
    e.wrote ≤ b - e.lead - s.clearLead → (s.slice e.slice).image = some m → m.portsets[beNat e.bytes 36 1]? = some [p] →
    exec (.calHold k) s = .next (((s.reclaim p).updPort p fun q => { q with
      direct := q.direct ++ [directCommand 0 (BitVec.ofInt 32 (b - e.lead)) e.slice (s.slice e.slice).sgen],
      hold := q.hold ++ [(e.slice, BitVec.ofInt 32 (b - e.lead))] }).updCal k fun e => { e with lastHold := some b }))
  ∧ (∀ (k : Nat) (b : Int) (w : Word) (turns : Nat) (e : CalEntry) (s : State), s.tsu.calendar = [(k, e)] →
    e.checks = [(b, w, turns)] → b + e.doneDl ≤ (s.now .tsu).toNs →
    turns = (((s.findTumb e.slice 0 e.doneIx).bind s.tumb?).map (·.turns)).getD 0 → exec (.calDoneCheck k) s
      = .next ((s.updCal k fun e => { e with checks := [] }).slotRecord 0x12 e b .radioMiss 0))
  ∧ (∀ (k : Nat) (b : Int) (w : Word) (turns : Nat) (e : CalEntry) (s : State), s.tsu.calendar = [(k, e)] →
    e.checks = [(b, w, turns)] → b + e.doneDl ≤ (s.now .tsu).toNs →
    turns ≠ (((s.findTumb e.slice 0 e.doneIx).bind s.tumb?).map (·.turns)).getD 0 → exec (.calDoneCheck k) s
      = .next (s.updCal k fun e => { e with checks := [] }))
  ∧ (∀ (p : Nat) (s : State), (s.port p).hold = [] → exec (.calRelease p) s = .next s)
  ∧ (∀ (p n : Nat) (d : Word) (s : State), (s.port p).hold = [(n, d)] → (s.port p).fired = [] →
    0 ≤ sdiff 32 (s.now .tsu).ns32.toNat d.toNat → exec (.calRelease p) s = .next ((s.reclaim p).updPort p fun q =>
      { q with hold := [], direct := q.direct ++ [directCommand 8 0 n 0] }))
  ∧ (∀ (p n : Nat) (d : Word) (s : State), (s.port p).hold = [(n, d)] →
    sdiff 32 (s.now .tsu).ns32.toNat d.toNat < 0 → exec (.calRelease p) s = .next s)

/-- Calendar entries, sequence-table orders and the serving descriptor (R329, R330, R348 to R350, R463): the page of an
ACTIVE slice selects, writes, submits and commits. A calendar entry that breaks R329 is refused with CAL_INVALID and
the byte offset, one beyond the slice's pool with CAL_FULL, one outside the slice's range with ACCESS_DENIED; an
accepted one is stored. An order is queued where there is room, in the order of EFF_STEP, with ONE_SEQ_LATE for a step
already built. A descriptor that keeps the table of R349 is in force, another is refused. On a FREE slice none of them
has its effect. Where it rests on choices of the model: log entries 74, 75. -/
def Obligations.ServingRules : Prop :=
  (∀ (n : Nat) (w : Word) (e : CalEntry) (s : State), n < 64 → (s.slice n).state = .active →
    (s.slice n).ownsCal (w.toNat % 256) = true → Tab.get s.tsu.calendar (w.toNat % 256) = some e →
    exec (.calSelect n w) s = .next (s.updSlice n fun v =>
      Slice.setWords { v with page := Tab.put v.page 0x180 (BitVec.ofNat 32 (w.toNat % 256)) } 0x190 (wordsOf (padTo 48 e.bytes) 12)))
  ∧ (∀ (n k : Nat) (s : State), n < 64 → (s.slice n).state = .active → (s.slice n).word 0x180 % 256 = k →
    Tab.get s.tsu.calendar k = none → (s.slice n).calQ ≤ (s.tsu.calendar.filter fun p => p.2.slice = n).length →
    exec (.calWrite n) s = .next (s.spCode n 0x184 .calFull))
  ∧ (∀ (n k : Nat) (s : State), n < 64 → (s.slice n).state = .active → (s.slice n).word 0x180 % 256 = k →
    (s.tsu.calendar.filter fun p => p.2.slice = n).length < (s.slice n).calQ → (s.slice n).ownsCal k = false →
    exec (.calWrite n) s = .next ((s.denied n 0x184).updSlice n fun v =>
      { v with codes := Tab.put v.codes 0x184 ErrCode.accessDenied.value }))
  ∧ (∀ (n k off : Nat) (s : State), n < 64 → (s.slice n).state = .active → (s.slice n).word 0x180 % 256 = k →
    (s.tsu.calendar.filter fun p => p.2.slice = n).length < (s.slice n).calQ → (s.slice n).ownsCal k = true →
    s.calInvalid n k ⟨n, (s.slice n).pageBytes 0x190 12, 0, none, none, [], (s.now .tsu).toNs⟩ = some off →
    exec (.calWrite n) s = .next (s.spCode n 0x184 .calInvalid off))
  ∧ (∀ (n k : Nat) (s : State), n < 64 → (s.slice n).state = .active → (s.slice n).word 0x180 % 256 = k →
    (s.tsu.calendar.filter fun p => p.2.slice = n).length < (s.slice n).calQ → (s.slice n).ownsCal k = true →
    Tab.get s.tsu.calendar k = none →
    s.calInvalid n k ⟨n, (s.slice n).pageBytes 0x190 12, 0, none, none, [], (s.now .tsu).toNs⟩ = none →
    ∃ t, exec (.calWrite n) s = .next t ∧ Tab.get t.tsu.calendar k
        = some ⟨n, (s.slice n).pageBytes 0x190 12, 0, none, none, [], (s.now .tsu).toNs⟩
      ∧ Tab.get (t.slice n).codes 0x184 = some ErrCode.none.value ∧ t.gd = s.gd)
  ∧ (∀ (e : CalEntry) (n k : Nat) (s : State), 4 < e.mu → s.calInvalid n k e = some 2)
  ∧ (∀ (e : CalEntry) (n k : Nat) (s : State), e.mu ≤ 4 → beNat e.bytes 3 1 = 0 → s.calInvalid n k e = some 3)
  ∧ (∀ (e : CalEntry) (n k : Nat) (s : State), e.mu ≤ 4 → beNat e.bytes 3 1 ≠ 0 → 10 * 2 ^ e.mu % beNat e.bytes 3 1 = 0 →
    1000000 / 2 ^ e.mu ≤ e.lead → s.calInvalid n k e = some 24)
  ∧ (∀ (n : Nat) (b : List Byte) (o : SeqOrder) (s : State), n < 64 → (s.slice n).state = .active →
    (s.slice n).pageBytes 0x1C0 12 = b → o = ⟨n, beNat b 0 1, beNat b 2 2 % 8192, beNat b 4 8, b.drop 16⟩ →
    (s.tsu.orders.length < 64 → s.serveStep n < o.eff → exec (.seqOrderSubmit n) s
      = .next ((s.updTsu fun t => { t with orders := insertOrder o t.orders }).spCode n 0x1F0 .none))
    ∧ (s.tsu.orders.length < 64 → o.eff ≤ s.serveStep n → exec (.seqOrderSubmit n) s
      = .next (((s.logT .seqLate (srcSlice n) 0 (some n)).updTsu fun t =>
        { t with orders := insertOrder o t.orders }).spCode n 0x1F0 .none))
    ∧ (64 ≤ s.tsu.orders.length → s.serveStep n < o.eff → exec (.seqOrderSubmit n) s
      = .next ((s.spCode n 0x1F0 .none).grantAsk 3 n 0 (some o))))
  ∧ (∀ (o : SeqOrder) (l : List SeqOrder), (∀ x ∈ l, x.eff ≤ o.eff) → insertOrder o l = l ++ [o])
  ∧ (∀ (o : SeqOrder) (l : List SeqOrder), l.Pairwise (fun a b => a.eff ≤ b.eff) →
    (insertOrder o l).Pairwise (fun a b => a.eff ≤ b.eff))
  ∧ (∀ (n : Nat) (s : State), n < 64 → (s.slice n).state = .active → s.serveOk n (s.slice n).serveWords = true →
    exec (.serveCommit n) s = .next ((s.updSlice n fun v => { v with serve := (s.slice n).serveWords }).spCode n 0x214 .none))
  ∧ (∀ (n : Nat) (s : State), n < 64 → (s.slice n).state = .active → s.serveOk n (s.slice n).serveWords = false →
    exec (.serveCommit n) s = .next (s.spCode n 0x214 .seqInvalid))
  ∧ (∀ (n : Nat) (d : Serve) (s : State), d.maxEntries = 0 ∨ 512 < d.maxEntries ∨ d.budget = 0 ∨ d.starve = 0 →
    s.serveOk n d = false)
  ∧ (∀ (n : Nat) (w : Word) (s : State), n < 64 → (s.slice n).state = .free → ∀ c ∈ [Instr.calSelect n w, .calWrite n,
    .seqOrderSubmit n, .serveCommit n], ∃ off t, exec c s = .next t
      ∧ t = ((s.updCom .tsu fun c => c.accessErr 2 (0x10000 + 0x1000 * n + off)).logT .sliceState (srcSlice n) 0 (some n)))

/-- Slices through the driver (R357 to R364, R374, R397, R406): CREATE judges the state, the PASID and the pools in that
order and then makes the slice ACTIVE with SGEN + 1 and nothing in it; RESET and DESTROY of a FREE slice have no
effect but ONE_SLICE_STATE; a reset with nothing at the ports ends at once with SGEN + 1, the bindings and the window
kept, and a DESTROY in FREE; one with a fired command at a port raises LP_ABORT there and stays RESETTING. BIND is
refused by the four causes in the table's order, and a domain it binds waits for OPEN, joins through SHADOW or is a
member; UNBIND drops it. Where it rests on choices of the model: log entries 2, 78, 79, 81, 82, 83. -/
def Obligations.SliceRules : Prop :=
  (∀ (n : Nat) (s : State), s.selSlice = n → (s.slice n).state ≠ .free →
    exec .sliceCreate s = .next (s.logT .sliceState (srcSlice n) 0 (some n)))
  ∧ (∀ (n : Nat) (x : Nat × Slice) (s : State), s.selSlice = n → (s.slice n).state = .free → x ∈ s.tsu.slices →
    x.2.state ≠ .free → x.2.pasid = bitsOf ((s.slice n).win 0x68C) 19 0 →
    exec .sliceCreate s = .next (s.logT .pasidInUse (srcSlice n) 0 (some n)))
  ∧ (∀ (n i : Nat) (s : State), s.selSlice = n → (s.slice n).state = .free →
    (∀ x ∈ s.tsu.slices, x.2.state ≠ .free → x.2.pasid ≠ bitsOf ((s.slice n).win 0x68C) 19 0) →
    s.poolCheck (s.slice n) = .error i → exec .sliceCreate s = .next (s.logT .poolEmpty (srcSlice n) i (some n)))
  ∧ (∀ (n row cal : Nat) (s : State), s.selSlice = n → (s.slice n).state = .free →
    (∀ x ∈ s.tsu.slices, x.2.state ≠ .free → x.2.pasid ≠ bitsOf ((s.slice n).win 0x68C) 19 0) →
    s.poolCheck (s.slice n) = .ok (row, cal) → ∃ t, exec .sliceCreate s = .next t
      ∧ (t.slice n).state = .active ∧ (t.slice n).sgen = ((s.slice n).sgen + 1) % 256
      ∧ (t.slice n).pasid = bitsOf ((s.slice n).win 0x68C) 19 0 ∧ (t.slice n).ports = (s.slice n).maskPorts
      ∧ (t.slice n).tumbQ = bitsOf ((s.slice n).win 0x690) 12 0 ∧ (t.slice n).rowQ = bitsOf ((s.slice n).win 0x690) 29 16
      ∧ (t.slice n).bindings = [] ∧ (t.slice n).image = none ∧ (t.slice n).crHead = (s.slice n).crHead
      ∧ t.tsu.contexts = s.tsu.contexts ∧ t.gd = s.gd)
  ∧ (∀ (n : Nat) (s : State), s.selSlice = n → (s.slice n).state = .free →
    exec .sliceReset s = .next (s.logT .sliceState (srcSlice n) 0 (some n))
    ∧ exec .sliceDestroy s = .next (s.logT .sliceState (srcSlice n) 0 (some n)))
  ∧ (∀ (n : Nat) (s : State), s.selSlice = n → (s.slice n).state = .resetting →
    exec .sliceReset s = .next (s.updTsu fun t => { t with absorbed := min (t.absorbed + 1) 0xFFFF }))
  ∧ (∀ (n : Nat) (s : State), s.selSlice = n → (s.slice n).state = .active → (s.slice n).abort = none → s.tsu.arms = [] →
    s.tsu.launches = [] → s.tsu.contexts = [] → s.tsu.waits = [] → s.tsu.tumb = [] → s.tsu.ports = [] →
    (∃ t, exec .sliceReset s = .next t ∧ (t.slice n).state = .active ∧ (t.slice n).sgen = ((s.slice n).sgen + 1) % 256
      ∧ (t.slice n).pasid = (s.slice n).pasid ∧ (t.slice n).bindings = (s.slice n).bindings ∧ (t.slice n).image = none
      ∧ (t.slice n).serve = Serve.reset ∧ (t.slice n).held = [] ∧ (t.slice n).crHead = (s.slice n).crHead
      ∧ (t.slice n).dlogEn = (s.slice n).dlogEn ∧ t.gd = s.gd)
    ∧ ((s.slice n).bindings = [] → ∃ t, exec .sliceDestroy s = .next t ∧ (t.slice n).state = .free
      ∧ (t.slice n).sgen = ((s.slice n).sgen + 1) % 256 ∧ (t.slice n).pasid = 0 ∧ (t.slice n).bindings = []
      ∧ (t.slice n).tumbQ = 0 ∧ (t.slice n).ports = [] ∧ t.gd = s.gd))
  ∧ (∀ (n p : Nat) (f : Fired) (q : Port) (s : State), s.selSlice = n → (s.slice n).state = .active →
    (s.slice n).abort = none → s.tsu.arms = [] → s.tsu.launches = [] → s.tsu.contexts = [] → s.tsu.waits = [] →
    s.tsu.tumb = [] → s.tsu.ports = [(p, q)] → q.fired = [f] → f.cmd.slice = n → q.abort = none →
    ∃ t, exec .sliceReset s = .next t ∧ (t.slice n).state = .resetting ∧ (t.slice n).sgen = (s.slice n).sgen
      ∧ (t.port p).abort = some (n, s.tsu.com.time.aon) ∧ (t.port p).fired = [] ∧ t.gd = s.gd)
  ∧ (∀ (n : Nat) (s : State), s.selSlice = n → (s.slice n).state ≠ .active →
    exec .sliceBind s = .next (s.logT .bindRefused (srcSlice n) 4 (some n)))
  ∧ (∀ (n m : Nat) (tag : BitVec 24) (s : State), s.selSlice = n → (s.slice n).state = .active →
    BitVec.ofNat 24 (bitsOf (s.reg .tsu 0x69C) 23 0) = tag → s.sliceOf tag = some m → m ≠ n →
    exec .sliceBind s = .next (s.logT .bindRefused (srcSlice n) 1 (some n)))
  ∧ (∀ (n : Nat) (tag : BitVec 24) (s : State), s.selSlice = n → (s.slice n).state = .active →
    BitVec.ofNat 24 (bitsOf (s.reg .tsu 0x69C) 23 0) = tag → s.sliceOf tag = none →
    (s.domRec tag = none → exec .sliceBind s = .next (s.logT .bindRefused (srcSlice n) 2 (some n)))
    ∧ (s.domRec tag ≠ none → 16 ≤ (s.slice n).bindings.length →
      exec .sliceBind s = .next (s.logT .bindRefused (srcSlice n) 3 (some n)))
    ∧ (s.domRec tag ≠ none → (s.slice n).bindings.length < 16 → tag ∉ s.tsu.shadowed →
      exec .sliceBind s = .next (s.updSlice n fun v => { v with bindings := v.bindings
        ++ [⟨tag, if s.tsu.opened.contains tag then .member else .waiting, 0, 0, none, 0, 0, 0, 0, 0⟩] }))
    ∧ (s.domRec tag ≠ none → (s.slice n).bindings.length < 16 → tag ∈ s.tsu.shadowed →
      exec .sliceBind s = .next ((s.updSlice n fun v => { v with bindings := v.bindings
        ++ [⟨tag, .shadow, 0, 0, none, 0, 0, 0, 0, 0⟩] }).joinSoon tag)))
  ∧ (∀ (n : Nat) (tag : BitVec 24) (b : Binding) (s : State), s.selSlice = n →
    BitVec.ofNat 24 (bitsOf (s.reg .tsu 0x69C) 23 0) = tag → b ∈ (s.slice n).bindings → b.tag = tag → s.tsu.tumb = [] →
    ∃ t, exec .sliceUnbind s = .next t ∧ (t.slice n).bindings = (s.slice n).bindings.filter (fun b => b.tag ≠ tag) ∧ t.gd = s.gd)
  ∧ (∀ (n : Nat) (s : State), s.selSlice = n → (s.slice n).bindings = [] → exec .sliceUnbind s = .next s)

/-- Orders, the completion ring's registers and the logs (R365, R369 to R373, R377, R381, R464): GO of a slice's page
gives an order at rank 4 with the next SEQ, which, outside its valid states, is refused with ONE_SLICE_STATE and an
ORDER record, and which loses to an order of this tick before which it does not rank; orders of one source stand by
SEQ, others by rank. ABORT ends in HALTED, FENCE begins FENCING with every context halted, STOP stops, START starts
the image's contexts, RESUME makes the slice ACTIVE; a fence is complete when nothing of the slice is left. GO of the
driver's register addresses the selected slice at rank 2, and a FREE one gets ONE_SLICE_STATE. A domain's order goes
to its top node. CR_TAIL moves; CR_BASE and CR_SIZE only while HEAD = TAIL. Where it rests on choices of the model:
log entries 2, 10, 56, 57. -/
def Obligations.SliceOrderRules : Prop :=
  (∀ (n v : Nat) (c : Instr) (o : Order) (u s : State), (c, v) ∈ [(Instr.orderAbort n true, 1), (.orderFence n true, 2),
    (.orderStop n true, 3), (.orderStart n true, 4), (.orderResume n true, 5)] → n < 64 → (s.slice n).state = .active →
    u = (s.updSlice n fun x => { x with orderSeq := ((s.slice n).orderSeq + 1) % 65536 }) →
    o = u.scoped n (orderOf v ((s.slice n).word 0x040) 4 (srcSlice n) (((s.slice n).orderSeq + 1) % 65536)) →
    (s.tsu.tickOrders = [] → u.orderValid n o = true → exec c s
      = .next ((u.updTsu fun t => { t with tickOrders := [⟨n, o⟩] }).orderApply n o []))
    ∧ (s.tsu.tickOrders = [] → u.orderValid n o = false → exec c s
      = .next ((u.logT .sliceState o.src 0 (some n)).orderRecord n o .sliceState))
    ∧ (∀ w : Order, s.tsu.tickOrders = [⟨n, w⟩] → overlap w o = true → w.verb ≠ 0 → o.before w = false → exec c s
      = .next (u.orderLoses n w o)))
  ∧ (∀ (n w v : Nat) (c : Instr) (s : State), (c, v) ∈ [(Instr.orderAbort n false, 1), (.orderFence n false, 2),
    (.orderStop n false, 3), (.orderStart n false, 4), (.orderResume n false, 5)] → s.selSlice = w →
    ((s.slice w).state = .free → exec c s = .next (s.logT .sliceState srcHost 0 (some w)))
    ∧ ((s.slice w).state ≠ .free → exec c s
      = .next ((s.updTsu fun t => { t with hostSeq := (s.tsu.hostSeq + 1) % 65536 }).order w
        (orderOf v (s.reg .tsu 0x6A0) 2 srcHost ((s.tsu.hostSeq + 1) % 65536)))))
  ∧ (∀ a b : Order, a.rank < b.rank → a.before b = true ∧ b.before a = false)
  ∧ (∀ a b : Order, a.rank = b.rank → a.src ≠ b.src → a.verb < b.verb → a.before b = true ∧ b.before a = false)
  ∧ (∀ (n : Nat) (o : Order) (s : State), o.verb = 1 → s.tsu.arms = [] → s.tsu.launches = [] → s.tsu.contexts = [] →
    s.tsu.waits = [] → s.tsu.tumb = [] → s.tsu.ports = [] → (s.slice n).state = .active →
    ((s.orderApply n o []).slice n).state = .halted ∧ ((s.orderApply n o []).slice n).abort = none)
  ∧ (∀ (n c : Nat) (x : Ctx) (o : Order) (s : State), o.verb = 2 → s.tsu.launches = [] → s.tsu.contexts = [(c, x)] →
    x.slice = n → x.state = .ready → ((s.orderApply n o []).slice n).state = .fencing
      ∧ ((s.orderApply n o []).slice n).fence = some o
      ∧ (Tab.get (s.orderApply n o []).tsu.contexts c).map (·.state) = some .halted)
  ∧ (∀ (n c : Nat) (x : Ctx) (o : Order) (s : State), o.verb = 3 → s.tsu.launches = [] → s.tsu.contexts = [(c, x)] →
    x.slice = n → (o.ctx = none ∨ o.ctx = some x.record) → s.orderApply n o []
      = (((s.updTsu fun t => { t with grants := t.grants.filter fun g => g.ctx ≠ c || g.slice ≠ n || g.resource = 3 }).ctxStop c).withdrawHeld
        [c]).orderRecord n o .none)
  ∧ (∀ (n c rec : Nat) (x : Ctx) (m : SchedImage) (o : Order) (s : State), o.verb = 4 → (s.slice n).image = some m →
    o.ctx = some rec → s.tsu.contexts = [(c, x)] → x.slice = n → x.record = rec → s.orderApply n o []
      = (s.ctxStart c o.sentence).orderRecord n o .none)
  ∧ (∀ (n c : Nat) (x : Ctx) (o : Order) (s : State), o.verb = 5 → (s.slice n).state = .halted → s.tsu.contexts = [(c, x)] →
    x.slice = n → s.orderApply n o [] = ((s.resumeCtx c).updSlice n fun v =>
      { v with state := .active, fence := none }).orderRecord n o .none)
  ∧ (∀ (n : Nat) (o : Order) (s : State), (s.slice n).state = .fencing → (s.slice n).fence = some o →
    s.fenceClear n = true → exec (.fenceComplete n) s = .next ((s.updSlice n fun v =>
      { v with state := .fenced, fence := none }).orderRecord n o .none))
  ∧ (∀ (n : Nat) (s : State), s.fenceClear n = false ∨ (s.slice n).fence = none → exec (.fenceComplete n) s = .next s)
  ∧ (∀ (n w : Nat) (b : Binding) (s : State), n < 64 → (s.slice n).state = .active → (s.slice n).word 0x040 = w →
    (s.slice n).bindings[bitsOf w 28 25]? = some b → 0 < bitsOf w 2 0 → bitsOf w 2 0 ≤ 5 →
    exec (.domainRequestGo n) s = .next ((s.updSlice n fun v => { v with orderSeq := ((s.slice n).orderSeq + 1) % 65536 }).domainRequest
      n b.tag (orderOf (bitsOf w 2 0) w 4 (srcSlice n) (((s.slice n).orderSeq + 1) % 65536)) 2))
  ∧ (∀ (n : Nat) (w : Word) (s : State), n < 64 → (s.slice n).state = .active → exec (.crTailWrite n w) s
      = .next (((s.updSlice n fun v => { v with crTail := w.toNat }).ringFlush n).ringVector n))
  ∧ (∀ (n : Nat) (w : Word) (s : State), n < 64 → (s.slice n).state = .active → (s.slice n).crHead ≠ (s.slice n).crTail →
    exec (.crConfigWrite n 0x028 w) s = .next (s.logT .sliceState (srcSlice n) 0 (some n)))
  ∧ (∀ (n : Nat) (w : Word) (s : State), n < 64 → (s.slice n).state = .active → (s.slice n).crHead = (s.slice n).crTail →
    exec (.crConfigWrite n 0x028 w) s = .next (s.updSlice n fun v => { v with crSize := w.toNat % 32 })
    ∧ exec (.crConfigWrite n 0x024 w) s = .next (s.updSlice n fun v =>
      { v with crBase := w.toNat * 4294967296 + v.crBase % 4294967296 }))
  ∧ (∀ s : State, exec .filterClr s = .next (s.updTsu fun t => { t with filter := [] })
    ∧ exec .conflictPop s = .next (s.updTsu fun t => { t with conflicts := t.conflicts.drop 1 }))

/-- Messages of a domain at a distributor (R29, R196, R202 to R205, R221, R385, R390, R392, R423): a message of one frame
of a domain that is held is taken whole, a longer one frame by frame until its last has come, and one whose MORE
breaks off is malformed; one of a tag that is not held is ONE_DOMAIN_STALE, and without a role none is taken. From a
member child it counts where this side acts, and goes on marked DETOUR where it does not. An ARRIVE for generation
LAST_GEN + 1 of a child whose MARKS bit is 0 is combined, its bit set and its MEMBERS added; a repeated one is a
duplicate, LAST_GEN + 2 is ONE_GEN_SKIP, and one of another descriptor is COMBINE_MISMATCH; the completed tumbler
turns at its top node and is otherwise sent up. A down message with LAST_GEN is a duplicate; the next one sets
LAST_GEN and clears MARKS. LATENCY is kept for a member child and sent when it is due. Where it rests on choices of
the model: log entries 2, 48, 85. -/
def Obligations.DomainMessageRules : Prop :=
  (∀ (l : LinkId) (rx : Rx) (T : Nat) (count : Frame → Nat) (code : ErrCode) (s u : State), s.receive l rx T = (u, none) →
    s.gdMessage l rx T count code = (u, none))
  ∧ (∀ (l : LinkId) (rx : Rx) (T : Nat) (count : Frame → Nat) (code : ErrCode) (f : Frame) (s u : State),
    s.receive l rx T = (u, some f) →
    (u.gd.hasRole = false → s.gdMessage l rx T count code = (u, none))
    ∧ (u.gd.hasRole = true → (u.link l).chainOf f.cls.toNat = [] → f.more = false → count f = 1 →
      (∀ d : GdDom, u.dom? f.domain = some d →
        s.gdMessage l rx T count code = (u.updLink l fun k => k.setChain f.cls.toNat [], some (d, [f])))
      ∧ (u.dom? f.domain = none → s.gdMessage l rx T count code
        = ((u.updLink l fun k => k.setChain f.cls.toNat []).logG .domainStale l.port, none)))
    ∧ (u.gd.hasRole = true → (u.link l).chainOf f.cls.toNat = [] → f.more = false → count f = 0 →
      code = .frameMalformed →
      s.gdMessage l rx T count code = ((u.malformed l).updLink l fun k => k.setChain f.cls.toNat [], none))
    ∧ (∀ (h : Frame) (fs : List Frame), u.gd.hasRole = true → (u.link l).chainOf f.cls.toNat = h :: fs → count h ≠ 0 →
      (f.more = true → fs.length + 2 < count h →
        s.gdFrame l rx T count code = (u.updLink l fun k => k.setChain f.cls.toNat (h :: fs ++ [f]), .part (h :: fs ++ [f])))
      ∧ (f.more = false → count h = fs.length + 2 →
        s.gdFrame l rx T count code = (u.updLink l fun k => k.setChain f.cls.toNat [], .whole (h :: fs ++ [f])))
      ∧ (f.more = true → count h ≤ fs.length + 2 → s.gdMessage l rx T count code
        = ((((u.updLink l fun k => k.setChain f.cls.toNat []).malformed l).chainLost l h), none))))
  ∧ (∀ (l : LinkId) (d : DomRec) (c : Nat) (fs : List Frame) (die : Option Nat) (s : State), l.port < 64 →
    (s.gd.childOfPort l.port ∉ s.gd.members d → s.upPart l d c fs die = (s.logG .notParticipant l.port, none))
    ∧ (s.gd.childOfPort l.port ∈ s.gd.members d → (fs.head?.map (·.detour)).getD false = false →
      (s.acts d = true → s.upPart l d c fs die = (s, some (s.gd.childOfPort l.port, false)))
      ∧ (s.acts d = false → s.upPart l d c fs die = (s.gdUp d c 0 fs true l.port, none))))
  ∧ (∀ (p : Nat) (rx : Rx) (s u : State), s.gdFrame ⟨.gd, p⟩ rx 0x10 s.arriveCount .combineUnsupported = (u, .gone) →
    exec (.arriveRx ⟨.gd, p⟩ rx) s = .next (u.cutThrough s ⟨.gd, p⟩ rx))
  ∧ (∀ (p i : Nat) (copy : Bool) (rx : Rx) (d : GdDom) (f : Frame) (fs : List Frame) (s u : State),
    s.gdFrame ⟨.gd, p⟩ rx 0x10 s.arriveCount .combineUnsupported = (u, .part (f :: fs)) → u.dom? f.domain = some d →
    u.heldOff ⟨.gd, p⟩ d.dr.tag = false → u.upPlace ⟨.gd, p⟩ d.dr f.detour (some f.fDie) = .child i copy →
    exec (.arriveRx ⟨.gd, p⟩ rx) s = .next ((u.gdUnderway d i (f :: fs)).cutThrough s ⟨.gd, p⟩ rx))
  ∧ (∀ (p : Nat) (rx : Rx) (f : Frame) (fs : List Frame) (s u : State),
    s.gdFrame ⟨.gd, p⟩ rx 0x10 s.arriveCount .combineUnsupported = (u, .whole (f :: fs)) →
    (u.dom? f.domain = none → exec (.arriveRx ⟨.gd, p⟩ rx) s = .next ((u.logG .domainStale p).cutThrough s ⟨.gd, p⟩ rx))
    ∧ (∀ d : GdDom, u.dom? f.domain = some d → u.heldOff ⟨.gd, p⟩ d.dr.tag = true →
      exec (.arriveRx ⟨.gd, p⟩ rx) s = .next (State.cutThrough (u.updGd fun g =>
        { g with absorbed := min (g.absorbed + if g.domRst.contains d.dr.tag then 1 else 0) 0xFFFF }) s ⟨.gd, p⟩ rx))
    ∧ (∀ (d : GdDom) (v : State) (i : Nat) (copy : Bool), u.dom? f.domain = some d → u.heldOff ⟨.gd, p⟩ d.dr.tag = false →
      u.upPart ⟨.gd, p⟩ d.dr 2 (f :: fs) (some f.fDie) = (v, some (i, copy)) →
      exec (.arriveRx ⟨.gd, p⟩ rx) s = .next ((v.gdArrive d p i copy (f :: fs)).cutThrough s ⟨.gd, p⟩ rx)))
  ∧ (∀ (d : GdDom) (p i : Nat) (e : Soft) (f : Frame) (copy : Bool) (s : State), f.fIndex < d.dr.tumblers → d.waiting = false →
    s.soft? d.dr.tag f.fIndex = some e → i ∉ e.out →
    (∀ u : State, f.gen = e.lastGen + 1 → i ∉ e.marks → e.desc = none ∨ e.desc = some f.fDesc → e.marks ≠ [] →
      u = (s.updSoft d.dr.tag f.fIndex fun y => { y.take i f.fDesc (arriveData [f]) 1 s.gd.com.time.aon with
        marks := y.marks ++ [i], members := (y.members + f.fMembers) % 524288, short := y.short || f.f49, step16 := f.step16,
        latestDie := if 0 < sdiff 32 f.fNs.toNat e.latestNs.toNat then f.fDie else y.latestDie,
        latestNs := if 0 < sdiff 32 f.fNs.toNat e.latestNs.toNat then f.fNs else y.latestNs }) →
      s.gdArrive d p i copy [f] = (if copy = false ∧ u.serves d.dr e = true then u.mirror 2 [f] else u).softCheck d.dr.tag f.fIndex)
    ∧ (f.gen = e.lastGen + 1 → i ∉ e.marks → e.desc ≠ none → e.desc ≠ some f.fDesc →
      s.gdArrive d p i copy [f] = (s.logG .combineMismatch p i).mismatched d i f.fIndex)
    ∧ (f.gen = e.lastGen + 1 → i ∈ e.marks → s.gdArrive d p i copy [f] = s.dupArrive d.dr.tag f.fIndex)
    ∧ (f.gen = e.lastGen → s.gdArrive d p i copy [f] = s.dupArrive d.dr.tag f.fIndex)
    ∧ (f.gen = e.lastGen + 2 → s.gdArrive d p i copy [f] = s.logG .genSkip p)
    ∧ (f.gen = e.lastGen + 3 → s.gdArrive d p i copy [f] = s.dupArrive d.dr.tag f.fIndex))
  ∧ (∀ (tag : BitVec 24) (index : Nat) (d : GdDom) (e : Soft) (s : State), s.dom? tag = some d → s.soft? tag index = some e →
    (∃ i ∈ s.expected d.dr e, i ∉ e.marks) → s.softCheck tag index = s)
  ∧ (∀ (p : Nat) (rx : Rx) (d : GdDom) (fs : List Frame) (s u : State), p = 64 ∨ p = 65 →
    (s.gdMessage ⟨.gd, p⟩ rx 0x11 (s.downFrames false) (s.downCode rx) = (u, some (d, fs)) →
      exec (.turnForward ⟨.gd, p⟩ rx) s = .next ((u.gdDownRx d p false false fs).cutThrough s ⟨.gd, p⟩ rx))
    ∧ (s.gdMessage ⟨.gd, p⟩ rx 0x08 (s.downFrames true) (s.downCode rx) = (u, some (d, fs)) →
      exec (.launchForward ⟨.gd, p⟩ rx) s = .next ((u.gdDownRx d p true false fs).cutThrough s ⟨.gd, p⟩ rx)))
  ∧ (∀ (d : GdDom) (p : Nat) (e : Soft) (f : Frame) (copy launch : Bool) (s : State), f.fIndex < d.dr.tumblers → d.waiting = false →
    s.soft? d.dr.tag f.fIndex = some e → f.gen = e.lastGen → s.gdDownRx d p launch copy [f] = s)
  ∧ (∀ (d : GdDom) (p : Nat) (e : Soft) (f : Frame) (c : Int) (s : State), f.fIndex < d.dr.tumblers → d.waiting = false →
    d.dr.stepEn = false → s.soft? d.dr.tag f.fIndex = some e → f.gen = e.lastGen + 1 → c = extendNs s.gd.com.time.counter f.time →
    s.gdDownRx d p false true [f] = s.passTurn d f.fIndex f.gen c
      ∧ ∃ e', (s.passTurn d f.fIndex f.gen c).soft? d.dr.tag f.fIndex = some e' ∧ e'.lastGen = f.gen ∧ e'.marks = []
        ∧ e'.parts = [] ∧ e'.came = [] ∧ e'.desc = none ∧ e'.done = false ∧ e'.dup = e.dup)
  ∧ (∀ (p : Nat) (rx : Rx) (f : Frame) (s u : State), s.receive ⟨.gd, p⟩ rx 0x0B = (u, some f) → u.gd.hasRole = true →
    p < u.gd.fan → f.domain ≠ 0 → exec (.latencyRx ⟨.gd, p⟩ rx) s = .next ((u.dlatTake f.domain p
      ⟨f.nat 12 4, bitOf (f.byte 16) 0, bitOf (f.byte 16) 1, f.nat 17 3 % 262144⟩).cutThrough s ⟨.gd, p⟩ rx))
  ∧ (∀ (tag : BitVec 24) (i : Nat) (v : DlatIn) (d : GdDom) (s : State), s.dom? tag = some d → d.dr.tag = tag →
    i ∈ s.gd.members d.dr → v.valid = true → ((s.dlatTake tag i v).dom? tag).bind (fun d => Tab.get d.dlat i) = some v)
  ∧ (∀ (p : Nat) (tag : BitVec 24) (s : State), p < 2 → s.trained ⟨.tsu, p⟩ = true → Tab.get s.tsu.sentDlat p = none →
    exec (.latencySend ⟨.tsu, p⟩ tag) s = .next ((s.updTsu fun t =>
      { t with sentDlat := Tab.put t.sentDlat p (s.laneDlat p, true, s.tsu.com.time.aon) }).send ⟨.tsu, p⟩ 1 0
        [mkFrame 0x0B 1 0 0 0 0 (natBytes (s.laneDlat p) 4 ++ natBytes (1 + 2 * b2n (s.link ⟨.tsu, p⟩).fallback) 1
          ++ natBytes (s.tsu.dieId.getD 0) 3)]))
  ∧ (∀ (p at_ : Nat) (tag : BitVec 24) (s : State), Tab.get s.tsu.sentDlat p = some (s.laneDlat p, true, at_) →
    s.tsu.com.time.aon < at_ + 100000000 → exec (.latencySend ⟨.tsu, p⟩ tag) s = .next s)

/-- Domain aborts and orders (R244, R245, R370, R371, R481): a TSU applies a broadcast ABORT at rank 1 and an ORDER at
rank 2 or 3 to the slice bound to the domain; one of a domain that no slice holds is stale, and a VERB outside 2 to 5
malformed. At a distributor a request is answered with the next ABORT_ID or SEQ where requests are taken, and is
absorbed while an abort is open; ABORT_DONE counts once per child, and the abort ends when every taking part is done
or ABORT_WAIT has passed. GO of GD_ABORT_CTRL and GD_ORDER_CTRL makes such requests, and a VERB outside 2 to 5 sets
STATE. Where it rests on choices of the model: log entries 2, 10, 57. -/
def Obligations.DomainOrderRules : Prop :=
  (∀ (p n : Nat) (rx : Rx) (f : Frame) (s u : State), f.more = false → u.sliceOf f.domain = some n → f.f49 = false →
    (s.receive ⟨.tsu, p⟩ rx 0x09 = (u, some f) → exec (.abortFrameRx ⟨.tsu, p⟩ rx) s = .next (u.order n
      ⟨1, some 0, 0, 1, srcLane p, f.nat 12 2, false⟩ [(f.domain, f.nat 12 2)]))
    ∧ (s.receive ⟨.tsu, p⟩ rx 0x0C = (u, some f) → 2 ≤ f.byte 17 → f.byte 17 ≤ 5 →
      exec (.orderFrameRx ⟨.tsu, p⟩ rx) s = .next (u.order n ⟨f.byte 17, if bitOf (f.byte 18) 5 then none else some (f.byte 18 % 32),
        f.byte 19, if f.f48 then 2 else 3, srcLane p, f.nat 12 2, false⟩)))
  ∧ (∀ (p : Nat) (rx : Rx) (f : Frame) (s u : State), f.more = false → u.sliceOf f.domain = none →
    (s.receive ⟨.tsu, p⟩ rx 0x09 = (u, some f) → exec (.abortFrameRx ⟨.tsu, p⟩ rx) s
      = .next (u.logT .domainStale (srcLane p))))
  ∧ (∀ (p : Nat) (rx : Rx) (f : Frame) (s u : State), f.more = false → f.byte 17 < 2 ∨ 5 < f.byte 17 →
    s.receive ⟨.tsu, p⟩ rx 0x0C = (u, some f) → exec (.orderFrameRx ⟨.tsu, p⟩ rx) s = .next (u.malformed ⟨.tsu, p⟩))
  ∧ (∀ (p i : Nat) (copy pod : Bool) (rx : Rx) (d : GdDom) (f : Frame) (s u v : State), f.f49 = true →
    u.upPart ⟨.gd, p⟩ d.dr 1 [f] none = (v, some (i, copy)) → v.takesRequests d = some pod →
    (s.gdMessage ⟨.gd, p⟩ rx 0x09 (fun _ => 1) = (u, some (d, [f])) → exec (.abortFrameRx ⟨.gd, p⟩ rx) s
      = .next ((v.abortRequest d pod f.step16 (((padTo 48 f.body).drop 2).take 3) (f.byte 17)).cutThrough s ⟨.gd, p⟩ rx))
    ∧ (s.gdMessage ⟨.gd, p⟩ rx 0x0C (fun f => if 2 ≤ f.byte 17 ∧ f.byte 17 ≤ 5 then 1 else 0) = (u, some (d, [f])) →
      exec (.orderFrameRx ⟨.gd, p⟩ rx) s = .next ((v.orderRequest d pod f).cutThrough s ⟨.gd, p⟩ rx)))
  ∧ (∀ (d : GdDom) (pod : Bool) (st : BitVec 16) (o : List Byte) (r : Nat) (s : State), d.abortOpen = true →
    s.abortRequest d pod st o r = s)
  ∧ (∀ (d : GdDom) (st : BitVec 16) (o : List Byte) (r : Nat) (s : State), d.abortOpen = false →
    s.abortRequest d false st o r = s.abortStart d ((d.abortId + 1) % 65536) (mkFrame 0x09 1 0 d.dr.tag st (s.now .gd).ns32
      (natBytes ((d.abortId + 1) % 65536) 2 ++ o ++ natBytes r 1)) false)
  ∧ (∀ (d : GdDom) (f : Frame) (s : State), s.orderRequest d false f = (s.updDom d.dr.tag fun x =>
      { x with orderSeq := (d.orderSeq + 1) % 65536 }).broadcast d { f with
        f49 := false, time := (s.now .gd).ns32, body := natBytes ((d.orderSeq + 1) % 65536) 2 ++ (padTo 48 f.body).drop 2 } false)
  ∧ (∀ (p : Nat) (rx : Rx) (d : GdDom) (f : Frame) (s u : State), s.gdMessage ⟨.gd, p⟩ rx 0x09 (fun _ => 1) = (u, some (d, [f])) →
    f.f49 = false → p = 64 ∨ p = 65 → p ≠ u.gd.partnerPort → ¬(d.abortOpen = true ∧ d.abortId = f.nat 12 2) →
    exec (.abortFrameRx ⟨.gd, p⟩ rx) s = .next ((u.abortStart d (f.nat 12 2) f f.detour).cutThrough s ⟨.gd, p⟩ rx))
  ∧ (∀ (p i : Nat) (rx : Rx) (d x : GdDom) (f : Frame) (s u v : State),
    s.gdMessage ⟨.gd, p⟩ rx 0x0A (fun _ => 1) = (u, some (d, [f])) →
    u.upPart ⟨.gd, p⟩ d.dr 1 [f] (some (f.nat 24 3 % 262144)) = (v, some (i, false)) → v.dom? d.dr.tag = some x →
    (x.abortOpen = false ∨ x.abortId ≠ f.nat 12 2 ∨ i ∈ x.abortDone → exec (.abortDoneRx ⟨.gd, p⟩ rx) s = .next (v.cutThrough s ⟨.gd, p⟩ rx))
    ∧ (x.abortOpen = true → x.abortId = f.nat 12 2 → x.abortDone = [] → exec (.abortDoneRx ⟨.gd, p⟩ rx) s
      = .next (((v.updDom x.dr.tag fun y => { y with
        abortDone := y.abortDone ++ [i], abDone := (y.abDone + f.nat 14 3 % 524288) % 524288,
        abMiss := (y.abMiss + f.nat 17 3 % 524288) % 524288, abLastNs := BitVec.ofNat 32 (f.nat 20 4),
        abLastDie := f.nat 24 3 % 262144 }).abortProgress x.dr.tag false).cutThrough s ⟨.gd, p⟩ rx)))
  ∧ (∀ (tag : BitVec 24) (d : GdDom) (s : State), s.dom? tag = some d →
    (d.abortOpen = false → exec (.abortWaitExpiry tag) s = .next s)
    ∧ (d.abortOpen = true → d.abortAt + s.gd.abortWait ≤ s.gd.com.time.aon → exec (.abortWaitExpiry tag) s
      = .next (s.abortEnd d))
    ∧ (d.abortOpen = true → s.gd.com.time.aon < d.abortAt + s.gd.abortWait → (∃ i ∈ s.abortKids d, i ∉ d.abortDone) →
      exec (.abortWaitExpiry tag) s = .next s))
  ∧ (∀ (w : Word) (s : State), w.toNat.testBit 24 = false → exec (.gdAbortGo w) s = .next (s.setReg .gd 0x500 (w &&& 0xFFFFFF#32)))
  ∧ (∀ (w : Word) (d : GdDom) (s : State), w.toNat.testBit 24 = true → s.dom? (BitVec.ofNat 24 w.toNat) = some d →
    (s.setReg .gd 0x500 (w &&& 0xFFFFFF#32)).takesRequests d = some false → exec (.gdAbortGo w) s
      = .next ((s.setReg .gd 0x500 (w &&& 0xFFFFFF#32)).abortRequest d false 0 (natBytes (s.gd.locator.getD 0) 3) 4))
  ∧ (∀ (w : Word) (s : State), w.toNat.testBit 24 = true → bitsOf w.toNat 2 0 < 2 ∨ 5 < bitsOf w.toNat 2 0 →
    exec (.gdOrderGo w) s = .next ((s.setReg .gd 0x514 (w &&& 0xFF01FF#32)).updCom .gd fun c => c.accessErr 4 0x514))
  ∧ (∀ (w : Word) (d : GdDom) (u s : State), w.toNat.testBit 24 = true → 2 ≤ bitsOf w.toNat 2 0 → bitsOf w.toNat 2 0 ≤ 5 →
    u = s.setReg .gd 0x514 (w &&& 0xFF01FF#32) → u.dom? (BitVec.ofNat 24 (u.reg .gd 0x500)) = some d →
    u.takesRequests d = some false → exec (.gdOrderGo w) s = .next (u.orderRequest d false
      { mkFrame 0x0C 1 0 (BitVec.ofNat 24 (u.reg .gd 0x500)) 0 (u.now .gd).ns32 (natBytes 0 2 ++ natBytes (u.gd.locator.getD 0) 3
        ++ natBytes (bitsOf w.toNat 2 0) 1 ++ natBytes (bitsOf w.toNat 7 3 + 32 * b2n (bitOf w.toNat 8)) 1
        ++ natBytes (bitsOf w.toNat 23 16) 1) with f49 := true, f48 := true }))

/-- A domain's teardown and start (R196, R363, R405, R406): TEARDOWN passes a distributor, which marks the domain and
notes when, and closes and unbinds it at a TSU; the TSU sends TORN once asked and once every entry of the domain is
free; a child's TORN is counted once, and TORN goes up when every member port has sent it or ABORT_WAIT has passed,
not before; RELEASE frees the domain's entries where it passes. A waiting domain is reserved when there is room and
otherwise notes ONE_DOMAIN_WAIT once; READY is collected; OPEN opens the domain at each node, and at a TSU makes a
waiting binding a member. A frame of a tag that is not held is stale. Where it rests on choices of the model: log
entries 2, 83, 84. -/
def Obligations.DomainStartRules : Prop :=
  (∀ (p : Nat) (rx : Rx) (f : Frame) (d : GdDom) (s u : State), p = 64 ∨ p = 65 → u.gd.hasRole = true →
    u.dom? f.domain = some d →
    (s.recvOp ⟨.gd, p⟩ rx 0x19 1 = (u, some f) → exec (.teardownRx ⟨.gd, p⟩ rx) s = .next ((u.tearDom d false).cutThrough s ⟨.gd, p⟩ rx))
    ∧ (s.recvOp ⟨.gd, p⟩ rx 0x19 3 = (u, some f) → exec (.domainReleaseRx ⟨.gd, p⟩ rx) s = .next ((u.domRelease d false).cutThrough s ⟨.gd, p⟩ rx))
    ∧ (s.recvOp ⟨.gd, p⟩ rx 0x19 5 = (u, some f) → exec (.domainOpenRx ⟨.gd, p⟩ rx) s = .next
      (((u.updDom d.dr.tag fun x => { x with isOpen := true }).domDown d (domFrame 5 0 0 d.dr.tag (u.now .gd).ns32) false).cutThrough s ⟨.gd, p⟩ rx)))
  ∧ (∀ (p : Nat) (rx : Rx) (f : Frame) (s u : State), p = 64 ∨ p = 65 → u.gd.hasRole = true → u.dom? f.domain = none →
    (s.recvOp ⟨.gd, p⟩ rx 0x19 1 = (u, some f) → exec (.teardownRx ⟨.gd, p⟩ rx) s
      = .next ((u.logG .domainStale p).cutThrough s ⟨.gd, p⟩ rx))
    ∧ (s.recvOp ⟨.gd, p⟩ rx 0x19 3 = (u, some f) → exec (.domainReleaseRx ⟨.gd, p⟩ rx) s
      = .next ((u.logG .domainStale p).cutThrough s ⟨.gd, p⟩ rx))
    ∧ (s.recvOp ⟨.gd, p⟩ rx 0x19 5 = (u, some f) → exec (.domainOpenRx ⟨.gd, p⟩ rx) s
      = .next ((u.logG .domainStale p).cutThrough s ⟨.gd, p⟩ rx)))
  ∧ (∀ (d x : GdDom) (only : Bool) (s : State), s.dom? d.dr.tag = some x →
    ((s.updDom d.dr.tag fun y => { y with tearing := true, tornAt := some s.gd.com.time.aon }).dom? d.dr.tag)
        = some { x with tearing := true, tornAt := some s.gd.com.time.aon }
    ∧ s.tearDom d only = (s.updDom d.dr.tag fun y => { y with tearing := true, tornAt := some s.gd.com.time.aon }).domDown d
      (domFrame 1 0 0 d.dr.tag (s.now .gd).ns32) only)
  ∧ (∀ (tag : BitVec 24) (s : State), (s.freeDom tag).dom? tag = none
    ∧ (∀ index, index < 4096 → (s.freeDom tag).soft? tag index = none) ∧ (s.freeDom tag).tsu = s.tsu)
  ∧ (∀ (p : Nat) (rx : Rx) (f : Frame) (d : DomRec) (s u : State), s.recvOp ⟨.tsu, p⟩ rx 0x19 1 = (u, some f) →
    u.domRec f.domain = some d → exec (.teardownRx ⟨.tsu, p⟩ rx) s = .next (u.tsuTear d true))
  ∧ (∀ (d : DomRec) (s : State), s.sliceOf d.tag = none → d.topIsDie = false → ∃ x : Torn, x.tag = d.tag ∧ x.asked = true
      ∧ x ∈ (s.tsuTear d true).tsu.tearing ∧ d.tag ∉ (s.tsuTear d true).tsu.opened)
  ∧ (∀ (p : Nat) (rx : Rx) (f : Frame) (s u : State), s.recvOp ⟨.tsu, p⟩ rx 0x19 3 = (u, some f) →
    exec (.domainReleaseRx ⟨.tsu, p⟩ rx) s = .next (u.updTsu fun t =>
      { t with tearing := t.tearing.filter fun y => y.tag ≠ f.domain }))
  ∧ (∀ (tag : BitVec 24) (x : Torn) (s : State), s.tsu.tearing = [x] → x.tag = tag →
    (x.asked = true → (∀ p ∈ s.tsu.tumb, p.2.domain ≠ tag) → exec (.tornSend tag) s
      = .next ((s.updTsu fun t => { t with tearing := [] }).tsuUp x.sideB x.fullRate 2 0 [domFrame 2 1 0 tag (s.now .tsu).ns32]))
    ∧ (x.asked = false → exec (.tornSend tag) s = .next s)
    ∧ ((∃ p ∈ s.tsu.tumb, p.2.domain = tag) → exec (.tornSend tag) s = .next s))
  ∧ (∀ (tag : BitVec 24) (s : State), s.tsu.tearing = [] → exec (.tornSend tag) s = .next s)
  ∧ (∀ (p i : Nat) (rx : Rx) (f : Frame) (d : GdDom) (s u v : State), s.recvOp ⟨.gd, p⟩ rx 0x19 2 = (u, some f) →
    u.gd.hasRole = true → u.dom? f.domain = some d → u.upPart ⟨.gd, p⟩ d.dr 2 [f] none = (v, some (i, false)) →
    (i ∈ d.torn → exec (.tornRx ⟨.gd, p⟩ rx) s = .next (v.cutThrough s ⟨.gd, p⟩ rx))
    ∧ (i ∉ d.torn → exec (.tornRx ⟨.gd, p⟩ rx) s = .next (((v.updDom d.dr.tag fun x => { x with
      torn := x.torn ++ [i], doneSum := x.doneSum + f.nat 14 3 % 524288,
      missSum := x.missSum + f.nat 17 3 % 524288 }).tornCheck d.dr.tag false).cutThrough s ⟨.gd, p⟩ rx)))
  ∧ (∀ (tag : BitVec 24) (d : GdDom) (s : State), s.dom? tag = some d →
    (d.tearing = false ∨ d.tornSent = true ∨ s.acts d.dr = false → exec (.tornWaitExpiry tag) s = .next s)
    ∧ (∀ t, d.tornAt = some t → (∃ i ∈ s.gd.members d.dr, i ∉ d.torn) → s.gd.com.time.aon < t + s.gd.abortWait →
      exec (.tornWaitExpiry tag) s = .next s)
    ∧ (∀ t miss, d.tearing = true → d.tornSent = false → s.acts d.dr = true → d.tornAt = some t →
      t + s.gd.abortWait ≤ s.gd.com.time.aon → s.gd.isTop d.dr = false →
      miss = d.missSum + (((s.gd.members d.dr).filter fun i => !d.torn.contains i).map fun i =>
        d.dr.count (s.gd.childSpan i).1 (s.gd.childSpan i).2).sum →
      exec (.tornWaitExpiry tag) s = .next ((s.updDom tag fun x => { x with tornSent := true, missSum := miss }).gdUp d.dr 2 0
        [domFrame 2 (d.doneSum % 524288) (miss % 524288) tag (s.now .gd).ns32] false 99)))
  ∧ (∀ (p i : Nat) (rx : Rx) (f : Frame) (d : GdDom) (s u v : State), s.recvOp ⟨.gd, p⟩ rx 0x19 4 = (u, some f) →
    u.gd.hasRole = true → u.dom? f.domain = some d → u.upPart ⟨.gd, p⟩ d.dr 2 [f] none = (v, some (i, false)) →
    exec (.domainReadyRx ⟨.gd, p⟩ rx) s = .next (((v.updDom d.dr.tag fun x => { x with
      ready := if x.ready.contains i then x.ready else x.ready ++ [i] }).readyCheck d.dr.tag).cutThrough s ⟨.gd, p⟩ rx))
  ∧ (∀ (tag : BitVec 24) (d : GdDom) (s : State), s.dom? tag = some d →
    (d.waiting = false → exec (.domainReserve tag) s = .next s)
    ∧ (d.waiting = true → s.gd.roomFor d.dr = true → exec (.domainReserve tag) s
      = .next ((s.updDom tag fun x => { x with waiting := false }).readyCheck tag))
    ∧ (d.waiting = true → s.gd.roomFor d.dr = false → d.waitNoted = false → exec (.domainReserve tag) s
      = .next ((s.updDom tag fun x => { x with waitNoted := true }).logG .domainWait))
    ∧ (d.waiting = true → s.gd.roomFor d.dr = false → d.waitNoted = true → exec (.domainReserve tag) s = .next s))
  ∧ (∀ (p : Nat) (rx : Rx) (f : Frame) (s u : State), s.recvOp ⟨.tsu, p⟩ rx 0x19 5 = (u, some f) →
    (u.domRec f.domain ≠ none → exec (.domainOpenRx ⟨.tsu, p⟩ rx) s = .next (u.openTsu f.domain))
    ∧ (u.domRec f.domain = none → exec (.domainOpenRx ⟨.tsu, p⟩ rx) s = .next (u.logT .domainStale (srcLane p))))
  ∧ (∀ (tag : BitVec 24) (n : Nat) (b : Binding) (s : State), s.tsu.tumb = [] → s.sliceOf tag = some n →
    (s.slice n).bindings = [b] → b.tag = tag → b.mstate = .waiting →
    ((s.openTsu tag).slice n).bindings = [{ b with mstate := .member }] ∧ tag ∈ (s.openTsu tag).tsu.opened)

/-- Absence and health scores (R156, R395, R400, R402, R484): a port to a die that has been out of UP for its limit, its
partner agreeing or out of reach, is marked absent, and so is a child position none of whose ports has been UP for 240
ms; before that neither is. An absent child leaves the expected sets of ALLOW_ABSENT domains, and a top node records
ONE_MEMBER_ABSENT for the others. An event of a die adds weight times COUNT to its score, up to 65,535, and a request
to expel goes up at the threshold; scores decay by DECAY, not below 0; CLEAR leaves a score what its tick has added,
and re-admits the die or tells the partner. Where it rests on choices of the model: log entries 2, 89. -/
def Obligations.HealthRules : Prop :=
  (∀ (p : Nat) (agrees : Bool) (k : Link) (s : State), s.link ⟨.gd, p⟩ = k →
    (s.gd.hasRole = true → s.gd.role = some 0 → p < 8 → k.enabled = true ∨ k.everUp = true → k.state ≠ .up →
      k.downAt + (if k.everUp then 120000000 else 240000000) ≤ s.gd.com.time.aon →
      agrees = true ∨ s.trained ⟨.gd, s.gd.partnerPort⟩ = false → exec (.dieAbsent p agrees) s = .next (s.markAbsent p))
    ∧ (s.gd.com.time.aon < k.downAt + (if k.everUp then 120000000 else 240000000) → exec (.dieAbsent p agrees) s = .next s)
    ∧ (k.state = .up → exec (.dieAbsent p agrees) s = .next s)
    ∧ (agrees = false → s.trained ⟨.gd, s.gd.partnerPort⟩ = true → exec (.dieAbsent p agrees) s = .next s))
  ∧ (∀ (i : Nat) (k : Link) (s : State), s.link ⟨.gd, i⟩ = k →
    (s.gd.hasRole = true → s.gd.role ≠ some 0 → i < s.gd.fan → k.state ≠ .up → k.downAt + 240000000 ≤ s.gd.com.time.aon →
      s.gd.crossPort i = none → exec (.childPositionAbsent i) s = .next (s.markAbsent i))
    ∧ (s.gd.com.time.aon < k.downAt + 240000000 ∨ k.state = .up → exec (.childPositionAbsent i) s = .next s))
  ∧ (∀ (i : Nat) (s : State), i ∈ s.gd.absent → s.markAbsent i = s)
  ∧ (∀ (i : Nat) (s : State), i ∉ s.gd.absent → s.gd.doms = [] → i ∈ (s.markAbsent i).gd.absent
      ∧ ((s.markAbsent i).link ⟨.gd, i⟩).absent = true ∧ (s.markAbsent i).tsu = s.tsu)
  ∧ (∀ (tag : BitVec 24) (i : Nat) (d : GdDom) (s : State), s.dom? tag = some d → i ∈ s.gd.members d.dr →
    (d.dr.allowAbsent = true → s.gd.softs = [] → ∃ x, (s.absentFrom tag i).dom? tag = some x ∧ i ∈ x.out)
    ∧ (d.dr.allowAbsent = false → s.gd.isTop d.dr = true → s.acts d.dr = true →
      s.absentFrom tag i = s.logG .memberAbsent i)
    ∧ (d.dr.allowAbsent = false → s.gd.isTop d.dr = false → s.absentFrom tag i = s))
  ∧ (∀ (p : Nat) (rx : Rx) (f : Frame) (s u : State), s.receive ⟨.gd, p⟩ rx 0x14 = (u, some f) → u.gd.hasRole = true →
    u.gd.role = some 0 →
    (7 < f.byte 12 → exec (.healthRx ⟨.gd, p⟩ rx) s = .next ((u.malformed ⟨.gd, p⟩).cutThrough s ⟨.gd, p⟩ rx))
    ∧ (f.byte 12 ≤ 7 → f.more = false → p < 8 → exec (.healthRx ⟨.gd, p⟩ rx) s
      = .next (((u.mirror 2 [f]).healthEvent p (f.byte 12) (f.byte 13) f).cutThrough s ⟨.gd, p⟩ rx)))
  ∧ (∀ (i ev count w : Nat) (f : Frame) (u s : State), w = beNat s.gd.healthRec (8 + ev) 1 * count →
    u = s.updHealth i (fun h =>
      { h with score := min 65535 (h.score + w), addAt := s.gd.com.time.aon,
               added := (if h.addAt = s.gd.com.time.aon then h.added else 0) + w }) → s.healthEvent i ev count f
        = (u.updGd fun g => g.journalWrite 3 (f.nat 14 2) (g.dieAt i) (journalBody f)).expelAsk i false
      ∧ (u.healthOf i).score = min 65535 ((s.healthOf i).score + w))
  ∧ (∀ (i : Nat) (again : Bool) (s : State),
    ((s.healthOf i).score < s.gd.theta ∨ (s.healthOf i).asked = true ∨ (s.healthOf i).expelled = true → s.expelAsk i again = s)
    ∧ (s.gd.role = some 0 → s.gd.hasRole = true → s.speaksFor i = true → s.gd.theta ≤ (s.healthOf i).score →
      (s.healthOf i).asked = false → (s.healthOf i).expelled = false → (s.healthOf i).suspect = false ∨ again = true →
      s.expelAsk i again = (s.updHealth i fun h => { h with asked := true }).gdUp s.gd.expelRec 2 0
        [expelFrame 1 (s.gd.dieAt i) s.gd.theta (s.now .gd).ns32 0] false 99))
  ∧ (∀ s : State, (∀ p ∈ s.gd.health, p.2.expelled = false) → ∃ t, exec .healthDecay s = .next t
      ∧ t.gd.health = Tab.map s.gd.health (fun _ h => { h with score := h.score - beNat s.gd.healthRec 6 2 })
      ∧ t.tsu = s.tsu)
  ∧ (∀ (i left : Nat) (u v s : State), bitsOf (s.reg .gd 0x700) 2 0 = i → s.gd.hasRole = true → s.gd.role = some 0 →
    left = (if (s.healthOf i).addAt = s.gd.com.time.aon then min 65535 (s.healthOf i).added else 0) →
    u = s.updHealth i (fun h => { h with score := left, suspect := false }) →
    v = (if (s.healthOf i).expelled = true then u.readmit i
      else u.mirror 2 [expelFrame 6 (s.gd.dieAt i) 0 (s.now .gd).ns32 0]) →
    (left = 0 → exec .healthClear s = .next v) ∧ (0 < left → exec .healthClear s = .next (v.expelAsk i false)))
  ∧ (∀ s : State, s.gd.hasRole = false → exec .healthClear s = .next s)

/-- Expulsion (R401, R402): a rack passes a request on; a pod grants it while fewer than EXPEL_MAX grants fall within
EXPEL_WINDOW, and otherwise denies it and raises the threshold; a window without a denial lowers it by RAISE_STEP, not
below SCORE_LIMIT; a GRANT at the sled is announced by NOTICE with AT 100 us ahead and applied; a DENY marks the die
SUSPECT; a LIMIT is kept and passed on; a copy of a NOTICE or READMIT for the partner side is applied, one by detour
goes on to the die; NOTICE at a TSU of its own die ends the ALLOW_ABSENT shares at AT, and READMIT brings them back to
SHADOW; a TSU of another die is not concerned. Where it rests on choices of the model: log entries 2, 91. -/
def Obligations.ExpelRules : Prop :=
  (∀ (p i : Nat) (rx : Rx) (f : Frame) (s u v : State), s.recvOp ⟨.gd, p⟩ rx 0x15 1 = (u, some f) → u.gd.hasRole = true →
    u.gd.role ≠ some 0 → u.upPart ⟨.gd, p⟩ u.gd.expelRec 2 [f] (some (f.nat 14 3 % 262144)) = (v, some (i, false)) →
    (v.gd.role = some 2 → exec (.expelReqRx ⟨.gd, p⟩ rx) s = .next ((v.expelJudge i f).cutThrough s ⟨.gd, p⟩ rx))
    ∧ (v.gd.role ≠ some 2 → exec (.expelReqRx ⟨.gd, p⟩ rx) s = .next ((v.gdUp v.gd.expelRec 2 0 [f] false 99).cutThrough s ⟨.gd, p⟩ rx)))
  ∧ (∀ (i : Nat) (f : Frame) (s : State), s.recentGrants.length < beNat s.gd.healthRec 2 1 → s.expelJudge i f
    = (s.updGd fun g => ({ g with grantsAt := s.recentGrants ++ [s.gd.com.time.aon] }).journalWrite 5 0 (f.nat 14 3 % 262144)
        (journalBody f)).toChild i (expelFrame 2 (f.nat 14 3 % 262144)
      (s.updGd fun g => ({ g with grantsAt := s.recentGrants ++ [s.gd.com.time.aon] }).journalWrite 5 0 (f.nat 14 3 % 262144)
        (journalBody f)).gd.theta (s.now .gd).ns32 0))
  ∧ (∀ (i : Nat) (f : Frame) (u s : State), beNat s.gd.healthRec 2 1 ≤ s.recentGrants.length →
    u = s.toChild i (expelFrame 3 (f.nat 14 3 % 262144) s.gd.theta (s.now .gd).ns32 0) → s.expelJudge i f
    = (u.updGd fun g => ({ g with denied := true, theta := min 65535 (g.theta + beNat g.healthRec 4 2) }).journalWrite 5
        ErrCode.expelLimit.value (f.nat 14 3 % 262144) (journalBody f)).limitOut.logG .expelLimit i)
  ∧ (∀ s : State, s.gd.hasRole = true → s.gd.role = some 2 →
    (s.gd.denied = true → exec .expelWindowEnd s = .next (s.updGd fun g => { g with denied := false }))
    ∧ (s.gd.denied = false → beNat s.gd.healthRec 0 2 ≠ s.gd.theta → beNat s.gd.healthRec 4 2 ≠ 0 →
      beNat s.gd.healthRec 0 2 < s.gd.theta → exec .expelWindowEnd s = .next ((s.updGd fun g =>
        { g with theta := max (beNat s.gd.healthRec 0 2) (s.gd.theta - beNat s.gd.healthRec 4 2), denied := false }).limitOut))
    ∧ (s.gd.denied = false → beNat s.gd.healthRec 0 2 = s.gd.theta → exec .expelWindowEnd s
      = .next (s.updGd fun g => { g with denied := false })))
  ∧ (∀ s : State, s.gd.hasRole = false → exec .expelWindowEnd s = .next s)
  ∧ (∀ (p i : Nat) (rx : Rx) (f : Frame) (s u : State), p = 64 ∨ p = 65 → u.gd.hasRole = true → u.gd.role = some 0 →
    u.gd.childOfDie (f.nat 14 3 % 262144) = some i →
    (s.recvOp ⟨.gd, p⟩ rx 0x15 2 = (u, some f) → exec (.expelGrantRx ⟨.gd, p⟩ rx) s = .next ((u.expelGranted i f).cutThrough s ⟨.gd, p⟩ rx))
    ∧ (s.recvOp ⟨.gd, p⟩ rx 0x15 3 = (u, some f) → exec (.expelDenyRx ⟨.gd, p⟩ rx) s
      = .next (((u.updHealth i fun h => { h with suspect := true, asked := false }).logG .suspect i).cutThrough s ⟨.gd, p⟩ rx)))
  ∧ (∀ (p i : Nat) (rx : Rx) (f : Frame) (s u : State), p = 64 ∨ p = 65 → u.gd.hasRole = true → u.gd.role ≠ some 0 →
    u.gd.childOfDie (f.nat 14 3 % 262144) = some i →
    (s.recvOp ⟨.gd, p⟩ rx 0x15 2 = (u, some f) → exec (.expelGrantRx ⟨.gd, p⟩ rx) s
      = .next ((u.toChild i { f with detour := false }).cutThrough s ⟨.gd, p⟩ rx))
    ∧ (s.recvOp ⟨.gd, p⟩ rx 0x15 3 = (u, some f) → exec (.expelDenyRx ⟨.gd, p⟩ rx) s
      = .next ((u.toChild i { f with detour := false }).cutThrough s ⟨.gd, p⟩ rx)))
  ∧ (∀ (i : Nat) (f : Frame) (s : State), ∃ v : State, s.expelGranted i f = v.expelApply i ((s.now .gd).toNs + 100000) true)
  ∧ (∀ (i : Nat) (at_ : Int) (own : Bool) (s : State), s.gd.doms = [] → s.expelApply i at_ own = s.updHealth i fun h =>
      { h with expelled := true, asked := false, suspect := false, expelDue := some at_ })
  ∧ (∀ (p : Nat) (rx : Rx) (f : Frame) (s u : State), p = 64 ∨ p = 65 → u.gd.hasRole = true → u.gd.role ≠ some 0 →
    s.recvOp ⟨.gd, p⟩ rx 0x15 4 = (u, some f) → exec (.expelLimitRx ⟨.gd, p⟩ rx) s
      = .next (((u.updGd fun g => { g with theta := f.nat 17 2 }).limitOut).cutThrough s ⟨.gd, p⟩ rx))
  ∧ (∀ (p : Nat) (rx : Rx) (f : Frame) (s u : State), s.recvOp ⟨.tsu, p⟩ rx 0x15 5 = (u, some f) →
    (u.tsu.dieId = some (f.nat 14 3 % 262144) → exec (.expelNoticeRx ⟨.tsu, p⟩ rx) s
      = .next (u.noticeTsu (extendNs (u.now .tsu) (BitVec.ofNat 32 (f.nat 20 4)))))
    ∧ (u.tsu.dieId ≠ some (f.nat 14 3 % 262144) → exec (.expelNoticeRx ⟨.tsu, p⟩ rx) s = .next u))
  ∧ (∀ (p : Nat) (rx : Rx) (f : Frame) (s u : State), s.recvOp ⟨.tsu, p⟩ rx 0x15 6 = (u, some f) →
    (u.tsu.dieId = some (f.nat 14 3 % 262144) → exec (.expelReadmitRx ⟨.tsu, p⟩ rx) s = .next u.readmitTsu)
    ∧ (u.tsu.dieId ≠ some (f.nat 14 3 % 262144) → exec (.expelReadmitRx ⟨.tsu, p⟩ rx) s = .next u))
  ∧ (∀ (p i : Nat) (rx : Rx) (f : Frame) (s u : State), u.gd.hasRole = true → u.gd.role = some 0 →
    u.gd.childOfDie (f.nat 14 3 % 262144) = some i →
    (s.recvOp ⟨.gd, p⟩ rx 0x15 5 = (u, some f) → (u.downPart ⟨.gd, p⟩ f = .copy → exec (.expelNoticeRx ⟨.gd, p⟩ rx) s
        = .next ((u.expelApply i (extendNs (u.now .gd) (BitVec.ofNat 32 (f.nat 20 4))) false).cutThrough s ⟨.gd, p⟩ rx))
      ∧ (u.downPart ⟨.gd, p⟩ f = .detour → exec (.expelNoticeRx ⟨.gd, p⟩ rx) s
        = .next ((u.toChild i { f with detour := false }).cutThrough s ⟨.gd, p⟩ rx)))
    ∧ (s.recvOp ⟨.gd, p⟩ rx 0x15 6 = (u, some f) → (u.downPart ⟨.gd, p⟩ f = .copy → exec (.expelReadmitRx ⟨.gd, p⟩ rx) s
        = .next ((u.readmitted i).cutThrough s ⟨.gd, p⟩ rx))
      ∧ (u.downPart ⟨.gd, p⟩ f = .detour → exec (.expelReadmitRx ⟨.gd, p⟩ rx) s
        = .next ((u.toChild i { f with detour := false }).cutThrough s ⟨.gd, p⟩ rx))))
  ∧ (∀ (n : Nat) (at_ : Int) (v : Slice) (s : State), s.tsu.slices = [(n, v)] → ((s.noticeTsu at_).slice n).bindings
      = v.bindings.map fun b => if s.looseTags.contains b.tag then { b with expelAt := some at_ } else b)
  ∧ (∀ (n : Nat) (v : Slice) (s : State), s.tsu.slices = [(n, v)] → (∀ b ∈ v.bindings, b.mstate ≠ .expelled) →
    (s.readmitTsu.slice n).bindings = v.bindings.map (fun b => { b with expelAt := none }) ∧ s.readmitTsu.gd = s.gd)

/-- The acting side of a position and rejoining (R384, R385, R397, R398, R402, R425): the decider sends TAKE to the side
that can be reached once the port to the acting side is out of UP for SIDE_WAIT; the receiver of a TAKE addressed to
it acts for every domain, records ONE_SIDE_MOVED and runs a census; RETURN goes to both sides 10 s after the declared
side is back, with AT 100 us ahead, and its receiver keeps AT. A JOIN REQ is refused for an EXPELLED die and otherwise
answered with JOIN_AT, one with DOMAIN 0 is a die's restart notice, a frame for a tag that is not held is stale; an
ACK makes shares in SHADOW joining and a domain without shares a member; ABSENT puts a domain's shares into SHADOW;
REFUSE keeps them out with ONE_JOIN_REFUSED. Where it rests on choices of the model: log entries 2, 90, 93. -/
def Obligations.SideAndJoinRules : Prop :=
  (∀ (i : Nat) (b : Bool) (s : State), s.gd.hasRole = true → s.gd.role ≠ some 0 → i < s.gd.fan →
    (s.takeSide i = some b → exec (.sideWaitExpiry i) s
      = .next ((s.sideSend i b (sideFrame 1 (s.gd.childSide i b) (s.now .gd).ns32 0)).childTaken i b))
    ∧ (s.takeSide i = none → exec (.sideWaitExpiry i) s = .next s))
  ∧ (∀ (i : Nat) (s : State), s.actsAt i s.gd.sideB = true → s.sideLate i = true → s.trained ⟨.gd, s.gd.partnerPort⟩ = true →
    s.takeSide i = some (!s.gd.sideB))
  ∧ (∀ (i : Nat) (s : State), s.trained ⟨.gd, i⟩ = true → s.trained ⟨.gd, s.gd.partnerPort⟩ = true → s.takeSide i = none)
  ∧ (∀ (i : Nat) (b : Bool) (s : State), s.gd.held = [] → ∃ f, s.childTaken i b = (s.updGd f)
      ∧ Tab.get (f s.gd).childMoved i = some b ∧ Tab.get (f s.gd).childReturn i = none)
  ∧ (∀ (p : Nat) (rx : Rx) (f : Frame) (s u : State), p = 64 ∨ p = 65 → u.gd.hasRole = true →
    (s.recvOp ⟨.gd, p⟩ rx 0x1A 1 = (u, some f) → u.gd.locator = some (f.nat 13 3 % 1048576) →
      exec (.sideTakeRx ⟨.gd, p⟩ rx) s = .next ((((u.updGd fun g => { g with
        actingTo := some g.sideB
        returnAt := none
        softs := Tab.map g.softs fun _ e => { e with back := false } }).logG .sideMoved).fullCensus none false).cutThrough s ⟨.gd, p⟩ rx))
    ∧ (s.recvOp ⟨.gd, p⟩ rx 0x1A 1 = (u, some f) → u.gd.locator ≠ some (f.nat 13 3 % 1048576) →
      exec (.sideTakeRx ⟨.gd, p⟩ rx) s = .next (u.cutThrough s ⟨.gd, p⟩ rx))
    ∧ (s.recvOp ⟨.gd, p⟩ rx 0x1A 2 = (u, some f) → u.gd.locator = some (f.nat 13 3 % 1048576) → u.gd.actingTo ≠ none →
      exec (.sideReturnRx ⟨.gd, p⟩ rx) s = .next ((u.updGd fun g => { g with returnAt := some (extendNs (u.now .gd) (BitVec.ofNat 32 (f.nat 16 4))) }).cutThrough s ⟨.gd, p⟩ rx)))
  ∧ (∀ (i t : Nat) (b : Bool) (s : State), Tab.get s.gd.childMoved i = some b → Tab.get s.gd.backSince i = some t →
    (s.gd.com.time.aon < t + 10000000000 → exec (.sideReturnDue i) s = .next s)
    ∧ (∀ (at_ : Int) (w : Word), s.gd.hasRole = true → b = s.gd.sideB → Tab.get s.gd.childReturn i = none →
      t + 10000000000 ≤ s.gd.com.time.aon → at_ = (s.now .gd).toNs + 100000 → w = BitVec.ofInt 32 at_ →
      exec (.sideReturnDue i) s = .next ((((s.sideSend i false (sideFrame 2 (s.gd.childSide i false) (s.now .gd).ns32 w)).sideSend
        i true (sideFrame 2 (s.gd.childSide i true) (s.now .gd).ns32 w)).updGd fun g => { g with
          childReturn := Tab.put g.childReturn i at_ }).unhold i)))
  ∧ (∀ (i : Nat) (s : State), Tab.get s.gd.childMoved i = none → exec (.sideReturnDue i) s = .next s)
  ∧ (∀ (p i : Nat) (rx : Rx) (f : Frame) (d : GdDom) (s u v : State), s.recvOp ⟨.gd, p⟩ rx 0x18 1 = (u, some f) →
    u.gd.hasRole = true → f.domain ≠ 0 → u.dom? f.domain = some d →
    u.upPart ⟨.gd, p⟩ d.dr 2 [f] (some (f.nat 14 3 % 262144)) = (v, some (i, false)) →
    exec (.joinReqRx ⟨.gd, p⟩ rx) s = .next ((v.joinAsked d i (f.nat 14 3 % 262144)).cutThrough s ⟨.gd, p⟩ rx))
  ∧ (∀ (p : Nat) (rx : Rx) (f : Frame) (s u : State), s.recvOp ⟨.gd, p⟩ rx 0x18 1 = (u, some f) → u.gd.hasRole = true →
    f.domain = 0 → (u.gd.role = some 0 → p < 8 → exec (.joinReqRx ⟨.gd, p⟩ rx) s = .next ((u.restartNotice p).cutThrough s ⟨.gd, p⟩ rx))
    ∧ (u.gd.role ≠ some 0 → exec (.joinReqRx ⟨.gd, p⟩ rx) s = .next ((u.malformed ⟨.gd, p⟩).cutThrough s ⟨.gd, p⟩ rx)))
  ∧ (∀ (p : Nat) (rx : Rx) (f : Frame) (s u : State), s.recvOp ⟨.gd, p⟩ rx 0x18 1 = (u, some f) → u.gd.hasRole = true →
    f.domain ≠ 0 → u.dom? f.domain = none → exec (.joinReqRx ⟨.gd, p⟩ rx) s
      = .next ((u.logG .domainStale p).cutThrough s ⟨.gd, p⟩ rx))
  ∧ (∀ (d : GdDom) (i die : Nat) (s : State),
    (i ∈ d.expelled → s.joinAsked d i die = s.gdDown d.dr 2 [i] (fun _ => [joinFrame 4 1 die d.dr.tag (s.now .gd).ns32 0])
      [joinFrame 4 1 die d.dr.tag (s.now .gd).ns32 0])
    ∧ (∀ (at_ : Int) (w : Word), i ∉ d.expelled → i ∈ d.out → d.joinAt = none → at_ = (s.now .gd).toNs + 100000 →
      w = BitVec.ofInt 32 at_ → s.joinAsked d i die = ((s.updDom d.dr.tag fun x => { x with joining := Tab.put x.joining i at_ }).mirror 2
        [joinFrame 2 0 die d.dr.tag (s.now .gd).ns32 w]).gdDown d.dr 2 [i] (fun _ => [joinFrame 2 0 die d.dr.tag (s.now .gd).ns32 w])
          [joinFrame 2 0 die d.dr.tag (s.now .gd).ns32 w]))
  ∧ (∀ (p : Nat) (rx : Rx) (f : Frame) (s u : State), s.recvOp ⟨.tsu, p⟩ rx 0x18 2 = (u, some f) →
    exec (.joinAckRx ⟨.tsu, p⟩ rx) s = .next (u.ackTsu ⟨.tsu, p⟩ f.domain (extendNs (u.now .tsu) (BitVec.ofNat 32 (f.nat 20 4)))))
  ∧ (∀ (p : Nat) (rx : Rx) (f : Frame) (s u : State), p = 64 ∨ p = 65 → u.gd.hasRole = true →
    s.recvOp ⟨.gd, p⟩ rx 0x18 2 = (u, some f) → exec (.joinAckRx ⟨.gd, p⟩ rx) s
      = .next ((u.updDom f.domain fun x => { x with joinAt := some (extendNs (u.now .gd) (BitVec.ofNat 32 (f.nat 20 4))) }).cutThrough s ⟨.gd, p⟩ rx))
  ∧ (∀ (l : LinkId) (tag : BitVec 24) (at_ : Int) (s : State), s.sliceOf tag = none →
    s.ackTsu l tag at_ = s.logT .domainStale (srcLane l.port))
  ∧ (∀ (l : LinkId) (tag : BitVec 24) (n : Nat) (b : Binding) (at_ : Int) (s : State), s.sliceOf tag = some n →
    (s.slice n).bindings = [b] → b.tag = tag → b.mstate = .shadow → s.tsu.tumb = [] →
    ((s.ackTsu l tag at_).slice n).bindings = [{ b with joinAt := at_, mstate := .member }])
  ∧ (∀ (p : Nat) (rx : Rx) (f : Frame) (s u : State), s.recvOp ⟨.tsu, p⟩ rx 0x18 3 = (u, some f) →
    exec (.joinAbsentRx ⟨.tsu, p⟩ rx) s = .next (u.absentTsu f.domain))
  ∧ (∀ (tag : BitVec 24) (s : State), tag ∈ s.looseTags → s.looseTags.filter (· = tag) = [tag] → tag ≠ 0 →
    s.absentTsu tag = s.shadowDomain tag)
  ∧ (∀ (p : Nat) (rx : Rx) (f : Frame) (s u : State), p ≠ 64 → p ≠ 65 → u.gd.hasRole = true →
    s.recvOp ⟨.gd, p⟩ rx 0x18 3 = (u, some f) → exec (.joinAbsentRx ⟨.gd, p⟩ rx) s = .next ((u.malformed ⟨.gd, p⟩).cutThrough s ⟨.gd, p⟩ rx))
  ∧ (∀ (p : Nat) (rx : Rx) (f : Frame) (s u : State), s.recvOp ⟨.tsu, p⟩ rx 0x18 4 = (u, some f) → u.tsu.tumb = [] →
    (u.sliceOf f.domain = none → exec (.joinRefuseRx ⟨.tsu, p⟩ rx) s = .next (u.logT .joinRefused (srcLane p) 0 none))
    ∧ (∀ (n : Nat) (v : State), u.sliceOf f.domain = some n → v = (u.updBinding n f.domain fun b =>
      { b with mstate := if b.mstate = .joining then .shadow else b.mstate }) → exec (.joinRefuseRx ⟨.tsu, p⟩ rx) s
        = .next (v.logT .joinRefused (srcLane p) 0 (v.sliceOf f.domain))))
  ∧ (∀ (p : Nat) (rx : Rx) (f : Frame) (s u : State), p = 64 ∨ p = 65 → u.gd.hasRole = true →
    s.recvOp ⟨.gd, p⟩ rx 0x18 4 = (u, some f) → exec (.joinRefuseRx ⟨.gd, p⟩ rx) s
      = .next ((u.logG .joinRefused p).cutThrough s ⟨.gd, p⟩ rx))

/-- The census (R389 to R394): a TSU answers ASK LIST with its shares' records and ASK FETCH with the kept turn of the
generation asked, on the lane that asked, and ASK RESEND with each DONE share's ARRIVE and a closing frame; a
distributor that runs a census of its own holds the ASK. The rebuilder takes an answer only from an asked port under
its CENSUS_ID, excludes a port whose IMAGE_ID differs with ONE_TOPOLOGY_MISMATCH, asks the next candidate after 200 us
without a reply, drops a port after 500 us without LAST, and records ONE_CENSUS_SLOW once past 2 ms. Where it rests on
choices of the model: log entries 2, 87. -/
def Obligations.CensusRules : Prop :=
  (∀ (p : Nat) (rx : Rx) (f : Frame) (s u : State),
    (s.askRx ⟨.tsu, p⟩ rx 0 = (u, some f) → exec (.censusListRx ⟨.tsu, p⟩ rx) s = .next
      ((ansFrames (f.nat 12 2) u.tsu.com.treeId (u.now .tsu).ns32 (u.tsuListGroups f.domain)).foldl
        (fun (s : State) x => s.send ⟨.tsu, p⟩ 2 0 [x]) u.askCounted))
    ∧ (s.askRx ⟨.tsu, p⟩ rx 1 = (u, some f) → exec (.censusFetchRx ⟨.tsu, p⟩ rx) s = .next (u.tsuFetched ⟨.tsu, p⟩ f))
    ∧ (s.askRx ⟨.tsu, p⟩ rx 2 = (u, some f) → f.domain ≠ 0 → (u.sharesOf f.domain).filter (fun p => p.2.shareDone) = [] →
      exec (.censusResendRx ⟨.tsu, p⟩ rx) s = .next (u.askCounted.send ⟨.tsu, p⟩ 2 0
        [ansFrame (f.nat 12 2) u.tsu.com.treeId (u.now .tsu).ns32 f.domain 0 [] true])))
  ∧ (∀ (p : Nat) (rx : Rx) (f : Frame) (s u : State), u.gd.census = none →
    (s.askRx ⟨.gd, p⟩ rx 0 = (u, some f) → exec (.censusListRx ⟨.gd, p⟩ rx) s = .next ((u.gdAnswer f p).cutThrough s ⟨.gd, p⟩ rx))
    ∧ (s.askRx ⟨.gd, p⟩ rx 2 = (u, some f) → exec (.censusResendRx ⟨.gd, p⟩ rx) s = .next ((u.gdAnswer f p).cutThrough s ⟨.gd, p⟩ rx)))
  ∧ (∀ (p : Nat) (rx : Rx) (c : Census) (f : Frame) (s u : State), u.gd.census = some c →
    (s.askRx ⟨.gd, p⟩ rx 0 = (u, some f) → exec (.censusListRx ⟨.gd, p⟩ rx) s
      = .next ((u.updGd fun g => { g with askHeld := g.askHeld ++ [⟨f, p, 1000⟩] }).cutThrough s ⟨.gd, p⟩ rx)))
  ∧ (∀ (p : Nat) (rx : Rx) (f : Frame) (d : GdDom) (s u : State), s.askRx ⟨.gd, p⟩ rx 1 = (u, some f) →
    u.dom? f.domain = some d →
    (∀ q, u.memberPorts.find? (fun p => (u.gd.members d.dr).contains (u.gd.childOfPort p)) = some q →
      exec (.censusFetchRx ⟨.gd, p⟩ rx) s
        = .next (((u.updGd fun g => { g with askHeld := g.askHeld ++ [⟨f, p, q⟩] }).send ⟨.gd, q⟩ 2 0 [f]).cutThrough s ⟨.gd, p⟩ rx)))
  ∧ (∀ (p n e : Nat) (f : Frame) (t : Tumbler) (r : Result) (s : State), s.sliceOf f.domain = some n →
    s.findTumb n f.domain (f.nat 15 2 % 4096) = some e → s.tumb? e = some t → t.result = some r →
    (r.gen = BitVec.ofNat 2 (f.byte 17) → r.calendar = false → s.tsuFetched ⟨.tsu, p⟩ f
      = s.askCounted.send ⟨.tsu, p⟩ (if (t.keptTurn r).1 then 1 else 2) 0 (t.keptTurn r).2)
    ∧ (r.gen ≠ BitVec.ofNat 2 (f.byte 17) → s.tsuFetched ⟨.tsu, p⟩ f = s))
  ∧ (∀ (p : Nat) (rx : Rx) (f : Frame) (s u : State), s.receive ⟨.gd, p⟩ rx 0x17 = (u, some f) → p < 64 → f.more = false →
    f.byte 14 ≤ 10 →
    (u.gd.census = none → exec (.censusAnsRx ⟨.gd, p⟩ rx) s = .next (u.cutThrough s ⟨.gd, p⟩ rx))
    ∧ (∀ c, u.gd.census = some c → p ∉ c.ports ∨ c.id ≠ f.nat 12 2 → exec (.censusAnsRx ⟨.gd, p⟩ rx) s = .next (u.cutThrough s ⟨.gd, p⟩ rx))
    ∧ (∀ c, u.gd.census = some c → p ∈ c.ports → c.id = f.nat 12 2 → BitVec.ofNat 32 (f.nat 16 4) ≠ u.gd.com.treeId →
      exec (.censusAnsRx ⟨.gd, p⟩ rx) s = .next (((((u.updLink ⟨.gd, p⟩ fun k => { k with excluded := true }).setEvt .gd 0x14
        0x10).logG .topologyMismatch p).censusDrop p).cutThrough s ⟨.gd, p⟩ rx))
    ∧ (∀ c, u.gd.census = some c → p ∈ c.ports → c.id = f.nat 12 2 → BitVec.ofNat 32 (f.nat 16 4) = u.gd.com.treeId →
      c.resending = false → f.byte 14 = 0 → bitOf (f.byte 15) 0 = true → exec (.censusAnsRx ⟨.gd, p⟩ rx) s
        = .next (((u.updCensus fun c => { c with listed := c.listed ++ [p] }).censusAdvance).cutThrough s ⟨.gd, p⟩ rx))
    ∧ (∀ c, u.gd.census = some c → p ∈ c.ports → c.id = f.nat 12 2 → BitVec.ofNat 32 (f.nat 16 4) = u.gd.com.treeId →
      c.resending = true → bitOf (f.byte 15) 0 = true → exec (.censusAnsRx ⟨.gd, p⟩ rx) s
        = .next (((u.updCensus fun c => { c with resent := c.resent ++ [p] }).censusAdvance).cutThrough s ⟨.gd, p⟩ rx)))
  ∧ (∀ (tag : BitVec 24) (index p : Nat) (rest : List Nat) (c : Census) (x : Fetch) (s : State), s.gd.census = some c →
    c.fetches = [x] → x.tag = tag → x.index = index →
    (s.gd.com.time.aon < x.since + 200000 → exec (.fetchTimeout tag index) s = .next s)
    ∧ (x.since + 200000 ≤ s.gd.com.time.aon → x.next = p :: rest → exec (.fetchTimeout tag index) s
      = .next ((s.updGd fun g => { g with census := some { c with fetches := [{ x with
        port := p
        next := rest
        since := s.gd.com.time.aon }] } }).send ⟨.gd, p⟩ 2 0 [askFrame c.id 1 index x.gen.toNat tag (s.now .gd).ns32])))
  ∧ (∀ (tag : BitVec 24) (index : Nat) (s : State), s.gd.census = none → exec (.fetchTimeout tag index) s = .next s
    ∧ exec (.censusPortTimeout index) s = .next s ∧ exec .censusSlow s = .next s)
  ∧ (∀ (p : Nat) (c : Census) (s : State), s.gd.census = some c →
    (p ∈ c.ports → c.resending = false → c.built = false → p ∉ c.listed → c.askAt + 500000 ≤ s.gd.com.time.aon →
      exec (.censusPortTimeout p) s = .next (s.censusDrop p))
    ∧ (p ∈ c.ports → c.resending = true → p ∉ c.resent → c.askAt + 500000 ≤ s.gd.com.time.aon →
      exec (.censusPortTimeout p) s = .next (s.censusDrop p))
    ∧ (s.gd.com.time.aon < c.askAt + 500000 ∨ p ∉ c.ports → exec (.censusPortTimeout p) s = .next s))
  ∧ (∀ (c : Census) (s : State), s.gd.census = some c →
    (c.slowNoted = false → c.start + 2000000 < s.gd.com.time.aon → exec .censusSlow s
      = .next (((s.updCensus fun c => { c with slowNoted := true }).updGd fun g => { g with boot := { g.boot with slow := true } }).logG
        .censusSlow 0 (roundAway (s.gd.com.time.aon - c.start : Nat) 1000).toNat))
    ∧ (c.slowNoted = true ∨ s.gd.com.time.aon ≤ c.start + 2000000 → exec .censusSlow s = .next s))

/-- Supplies and resets (R65, R407, R412, R421 to R424, R473, R502, R509): TSU_RST_N low holds the unit in reset and high
starts CORE; a whole-unit reset keeps the time domain, the lanes' state and the fuse map and clears every slice,
store, image and report; power-good is PWR_GOOD's rise with RESET_N high, or else RESET_N's; a chip reset keeps the
fuse map, the firmware slots and the journal's lines, drops the role's image and holds RING_BYPASS_N low; while a unit
is held in reset, a reset is absorbed and counted. Where it rests on choices of the model: log entries 2, 11, 102,
103. -/
def Obligations.PowerAndResetRules : Prop :=
  (∀ s : State, s.tsu.inReset = false → ∃ t, exec .dieResetAssert s = .next t ∧ t.tsu.inReset = true
      ∧ t.tsu.com.time = s.tsu.com.time ∧ t.tsu.slices = [] ∧ t.tsu.tumb = [] ∧ t.tsu.contexts = [] ∧ t.tsu.tree = none
      ∧ t.tsu.reports = [] ∧ t.tsu.dieId = s.tsu.dieId ∧ t.tsu.badPorts = s.tsu.badPorts
      ∧ t.tsu.fuseRepairs = s.tsu.fuseRepairs ∧ t.tsu.boot.phase = 1 ∧ t.tsu.boot.warm = true ∧ t.gd = s.gd)
  ∧ (∀ s : State, s.tsu.inReset = true → exec .dieResetAssert s
      = .next ((s.updTsu fun t => { t with absorbed := min (t.absorbed + 1) 0xFFFF }).updTsu fun t => { t with inReset := true }))
  ∧ (∀ s : State, s.tsu.inReset = true → ∃ t, exec .dieResetRelease s = .next t ∧ t.tsu.inReset = false
      ∧ t.tsu.boot.phase = 1 ∧ t.tsu.boot.failed = false ∧ t.tsu.boot.startAt = s.tsu.com.time.aon ∧ t.gd = s.gd)
  ∧ (∀ s : State, s.tsu.inReset = false → exec .dieResetRelease s = .next s)
  ∧ (∀ (r v : Bool) (s : State), s.gd.powered = true → exec (.powerGood r v) s = .next s)
  ∧ (∀ (r v : Bool) (s : State), s.gd.powered = false → s.gd.resetLow = false → ∃ t, exec (.powerGood r v) s = .next t
      ∧ t.gd.powered = true ∧ t.gd.rootSel = r ∧ t.gd.sideSel = v ∧ t.gd.boot.phase = 1 ∧ t.gd.boot.failed = false
      ∧ t.gd.boot.startAt = s.gd.com.time.aon ∧ t.gd.locator = (if r then some (mkLoc 3 0 + if v then 131072 else 0) else none)
      ∧ t.tsu = s.tsu)
  ∧ (∀ (r v : Bool) (s : State), s.gd.powered = false → s.gd.resetLow = true → ∃ t, exec (.powerGood r v) s = .next t
      ∧ t.gd.powered = true ∧ t.gd.resetLow = true ∧ t.gd.boot = { Boot.reset 0 with
          startAt := s.gd.com.time.aon, phaseAt := s.gd.com.time.aon } ∧ t.tsu = s.tsu)
  ∧ (∀ s : State, ∃ t, exec .powerGoodFall s = .next t ∧ t.gd.powered = false ∧ t.gd.ringLow = true ∧ t.gd.tree = none
      ∧ t.gd.fw.slotA = s.gd.fw.slotA ∧ t.gd.fw.slotB = s.gd.fw.slotB ∧ t.gd.journal.lines = s.gd.journal.lines
      ∧ t.gd.ownerLock = s.gd.ownerLock ∧ t.tsu = s.tsu)
  ∧ (∀ s : State, ∃ t, exec .resetNAssert s = .next t ∧ t.gd.resetLow = true ∧ t.gd.powered = s.gd.powered
      ∧ t.gd.fw.slotA = s.gd.fw.slotA ∧ t.gd.journal.lines = s.gd.journal.lines ∧ t.tsu = s.tsu
      ∧ (s.gd.powered = true → s.gd.resetLow = false → t.gd.lastCause = 1 ∧ t.gd.tree = none ∧ t.gd.softs = []))
  ∧ (∀ (r v : Bool) (s : State), s.gd.resetLow = true → s.gd.powered = true → ∃ t, exec (.resetNRelease r v) s = .next t
      ∧ t.gd.resetLow = false ∧ t.gd.rootSel = r ∧ t.gd.boot.phase = 1 ∧ t.gd.boot.startAt = s.gd.com.time.aon ∧ t.tsu = s.tsu)
  ∧ (∀ (r v : Bool) (s : State), s.gd.powered = false → exec (.resetNRelease r v) s
      = .next (s.updGd fun g => { g with resetLow := false }))
  ∧ (∀ s : State, s.gd.powered = true → s.gd.resetLow = false →
    (∃ t, exec .chipRst s = .next t ∧ t.gd.lastCause = 3 ∧ t.gd.boot.phase = 1 ∧ t.gd.tree = none ∧ t.gd.softs = []
      ∧ t.gd.doms = [] ∧ t.gd.census = none ∧ t.gd.fw.slotA = s.gd.fw.slotA ∧ t.gd.fw.floor = s.gd.fw.floor
      ∧ t.gd.journal.lines = s.gd.journal.lines ∧ t.gd.journal.recno = s.gd.journal.recno ∧ t.gd.ringLow = true
      ∧ t.gd.sealSt = .locked ∧ t.tsu = s.tsu)
    ∧ ∃ t, exec .watchdogExpiry s = .next t ∧ t.gd.lastCause = 2 ∧ t.gd.boot.phase = 1 ∧ t.gd.tree = none)
  ∧ (∀ s : State, s.gd.powered = false ∨ s.gd.resetLow = true →
    exec .chipRst s = .next (s.updGd fun g => { g with absorbed := min (g.absorbed + 1) 0xFFFF })
    ∧ exec .watchdogExpiry s = .next (s.updGd fun g => { g with absorbed := min (g.absorbed + 1) 0xFFFF }))

/-- Phases, stages and the journal's controls (R408, R412, R414, R415, R429, R474, R485): a phase whose work is done
reports PASS and gives way to the next one, not before; one past its limit fails with ONE_BOOT_FAIL and a hall root
keeps RING_BYPASS_N low; a stage ends only as its row allows, WAITING goes on trying, and FAIL stops the unit and
reverts a trial with detail 4. On a journal stack FREEZE stops and resumes the ring, a trigger stops it after its last
record, a read of a record gives its line or GONE, and records wait during a retrain; without one the controls set
ABSENT. Where it rests on choices of the model: log entries 2, 99, 111. -/
def Obligations.BootAndJournalRules : Prop :=
  (∀ (n : Node) (s : State), s.phaseMet n = false → exec (.bootPhasePass n) s = .next s)
  ∧ (∀ s : State, s.phaseMet .tsu = true → s.tsu.boot.warm = false → s.tsu.boot.phase = 3 → s.tsu.boot.bootMs ≠ none →
    ∃ t r, exec (.bootPhasePass .tsu) s = .next t ∧ t.tsu.boot.phase = 4 ∧ t.tsu.boot.phaseAt = s.tsu.com.time.aon
      ∧ t.tsu.reports = (r :: s.tsu.reports).take 16 ∧ r.unit = 1 ∧ r.stage = 3 ∧ r.result = 0 ∧ r.code = 0 ∧ t.gd = s.gd)
  ∧ (∀ s : State, s.phaseMet .gd = true → s.gd.boot.phase = 3 → s.gd.boot.bootMs ≠ none →
    ∃ t r, exec (.bootPhasePass .gd) s = .next t ∧ t.gd.boot.phase = 4 ∧ t.gd.boot.phaseAt = s.gd.com.time.aon
      ∧ t.gd.reports = (r :: s.gd.reports).take 32 ∧ r.unit = 2 ∧ r.stage = 3 ∧ r.result = 0 ∧ r.code = 0 ∧ t.tsu = s.tsu)
  ∧ (∀ s : State, s.tsu.boot.phase = 2 → s.tsu.boot.warm = false → s.tsu.com.time.pllLocked = false → s.phaseMet .tsu = false)
  ∧ (∀ (n : Node) (lim : Nat) (s : State), phaseLimit n (s.boot n).phase = some lim → s.aon n < (s.boot n).phaseAt + lim →
    exec (.bootPhaseTimeout n) s = .next s)
  ∧ (∀ (n : Node) (s : State), (s.boot n).failed = true → exec (.bootPhaseTimeout n) s = .next s)
  ∧ (∀ (lim : Nat) (s : State), phaseLimit .tsu s.tsu.boot.phase = some lim → s.tsu.boot.failed = false → s.tsu.inReset = false →
    s.tsu.boot.phaseAt + lim ≤ s.tsu.com.time.aon → exec (.bootPhaseTimeout .tsu) s
      = .next ((s.updBoot .tsu fun b => { b with failed := true }).report .tsu s.tsu.boot.phase 3 ErrCode.bootFail.value 0
        (BitVec.ofNat 32 s.tsu.boot.phase)))
  ∧ (∀ (lim : Nat) (s : State), phaseLimit .gd s.gd.boot.phase = some lim → s.gd.boot.failed = false →
    s.gd.rootSel = true → s.gd.powered = true → s.gd.resetLow = false → s.gd.boot.phaseAt + lim ≤ s.gd.com.time.aon →
    ∃ t, exec (.bootPhaseTimeout .gd) s = .next t ∧ t.gd.boot.failed = true ∧ t.gd.ringLow = true ∧ t.tsu = s.tsu)
  ∧ (∀ (e : StageEnd) (code count : Nat) (d : Word) (s : State),
    s.gd.rootSel = true ∨ s.gd.boot.failed = true ∨ s.stageMet e = false → exec (.bootStageEnd e code count d) s = .next s)
  ∧ (∀ (code count : Nat) (d : Word) (s : State), s.gd.rootSel = false → s.gd.powered = true → s.gd.resetLow = false →
    s.gd.boot.failed = false →
    (s.stageMet .waiting = true → exec (.bootStageEnd .waiting code count d) s
      = .next (s.report .gd s.gd.boot.phase 2 (code % 65536) count d))
    ∧ (s.stageMet .fail = true → exec (.bootStageEnd .fail code count d) s
      = .next (((s.updBoot .gd fun b => { b with failed := true }).report .gd s.gd.boot.phase 3 ErrCode.bootFail.value count
        (BitVec.ofNat 32 s.gd.boot.phase)).fwRevert 4))
    ∧ (s.stageMet .pass = true → s.gd.boot.phase = 2 → s.gd.boot.bootMs ≠ none → ∃ t, exec (.bootStageEnd .pass code count d) s
      = .next t ∧ t.gd.boot.phase = 3 ∧ t.gd.boot.phaseAt = s.gd.com.time.aon ∧ t.tsu = s.tsu))
  ∧ (∀ s : State, s.gd.boot.phase = 2 → s.gd.com.time.pllLocked = false → s.stageMet .pass = false)
  ∧ (∀ s : State, s.gd.boot.phase = 7 → s.gd.com.time.mode ≠ .track → s.stageMet .pass = false)
  ∧ (∀ (w : Word) (s : State), s.gd.hasJournal = false →
    exec (.journalFreeze w) s = .next (s.updCom .gd fun c => c.accessErr 1 0x800)
    ∧ exec (.journalRead w) s = .next (s.updCom .gd fun c => c.accessErr 1 0x814)
    ∧ exec .journalRetrain s = .next s)
  ∧ (∀ (w : Word) (s : State), s.gd.hasJournal = true → ∃ t, exec (.journalFreeze w) s = .next t
      ∧ t.gd.journal.frozen = w.toNat.testBit 0 ∧ (w.toNat.testBit 0 = false → t.gd.journal.triggered = false)
      ∧ t.gd.journal.lines = s.gd.journal.lines ∧ t.tsu = s.tsu)
  ∧ (∀ s : State, (s.gd.journal.postLeft = some 0 → s.gd.journal.frozen = false → exec .journalTriggerStop s
      = .next (s.updGd fun g => { g with journal := { g.journal with frozen := true, triggered := true, postLeft := none } }))
    ∧ (s.gd.journal.postLeft ≠ some 0 → exec .journalTriggerStop s = .next s))
  ∧ (∀ (w : Word) (r : Nat) (s : State), s.gd.hasJournal = true → w.toNat * 4294967296 + s.reg .gd 0x810 = r →
    (Tab.get s.gd.journal.lines r = none → ∃ t, exec (.journalRead w) s = .next t ∧ t.gd.journal.view = none
      ∧ t.gd.journal.viewStat = 5 ∧ t.gd.journal.lines = s.gd.journal.lines)
    ∧ (∀ l, Tab.get s.gd.journal.lines r = some l → ∃ t, exec (.journalRead w) s = .next t ∧ t.gd.journal.view = some l
      ∧ t.gd.journal.viewStat = (if l = rsLine (l.take 60) then 1 else 3) ∧ t.gd.journal.lines = s.gd.journal.lines))
  ∧ (∀ s : State, s.gd.hasJournal = true →
    (s.gd.journal.retraining = false → exec .journalRetrain s
      = .next (s.updGd fun g => { g with journal := { g.journal with retraining := true } }))
    ∧ (s.gd.journal.retraining = true → s.gd.journal.wait = [] → exec .journalRetrain s
      = .next (s.updGd fun g => { g with journal := { g.journal with retraining := false } })))

/-- Partial resets, port control, the temperature pin and scrubbing (R150, R154, R181, R389, R421 to R428, R432, R474,
R488, R508): a port reset of a launch port that is not in reset resets it and holds LP_PORT_RESET for 64 ticks; the
whole unit resets once, an absent port page sets ABSENT; a domain reset drops the domain's soft entries and starts its
census; EN of an undeclared port sets STATE; a downstream port at fallback retries, once per period, while its child
has another path; THERM_N has its two thresholds; a corrected line is counted and an uncorrectable one recorded with
the store as detail, and what it held is lost. A reset that falls on a unit in reset is absorbed and counted. Where it
rests on choices of the model: log entries 2, 102, 104, 105. -/
def Obligations.PartialResetRules : Prop :=
  (∀ (p : Nat) (u s : State), u = s.setReg .tsu 0x7C4 (BitVec.ofNat 32 (s.reg .tsu 0x7C4 / 1024 * 1024 + p % 1024)) →
    (s.tsu.inReset = true ∨ (s.port p).resetAt ≠ none → exec (.portRst p) s
      = .next (u.updTsu fun t => { t with absorbed := min (t.absorbed + 1) 0xFFFF }))
    ∧ (s.tsu.inReset = false → (s.port p).resetAt = none → s.isPort p = true → exec (.portRst p) s = .next (u.portReset p))
    ∧ (s.tsu.inReset = false → (s.port p).resetAt = none → s.isPort p = false → exec (.portRst p) s = .next u))
  ∧ (∀ (p at_ : Nat) (s : State), (s.port p).resetAt = some at_ →
    (at_ + 128 ≤ s.tsu.com.time.aon → exec (.portResetEnd p) s = .next (s.updPort p fun q => { q with resetAt := none }))
    ∧ (s.tsu.com.time.aon < at_ + 128 → exec (.portResetEnd p) s = .next s))
  ∧ (∀ s : State, (s.tsu.inReset = false → exec .unitRst s = .next (s.updTsu Tsu.unitReset))
    ∧ (s.tsu.inReset = true → exec .unitRst s = .next (s.updTsu fun t => { t with absorbed := min (t.absorbed + 1) 0xFFFF })))
  ∧ (∀ (p : Nat) (s : State), s.gd.portAbsent p = true →
    exec (.gdPortRst p) s = .next (s.updCom .gd fun c => c.accessErr 1 (0x10000 + 0x100 * p))
    ∧ exec (.rateRetry p) s = .next (s.updCom .gd fun c => c.accessErr 1 (0x10000 + 0x100 * p))
    ∧ ∀ en, exec (.portEnWrite p en) s = .next (s.updCom .gd fun c => c.accessErr 1 (0x10000 + 0x100 * p)))
  ∧ (∀ (p : Nat) (s : State), s.gd.portAbsent p = false →
    (s.gd.powered = false ∨ s.gd.resetLow = true → exec (.gdPortRst p) s
      = .next (s.updGd fun g => { g with absorbed := min (g.absorbed + 1) 0xFFFF }))
    ∧ (s.gd.powered = true → s.gd.resetLow = false → s.gd.com.marks = [] → (s.link ⟨.gd, p⟩).q3 = [] →
      (s.link ⟨.gd, p⟩).replay = [] → s.gd.absorbed ≤ 0xFFFF → exec (.gdPortRst p) s = .next (s.retrain ⟨.gd, p⟩))
    ∧ exec (.rateRetry p) s = .next (s.retrain ⟨.gd, p⟩)
    ∧ exec (.portEnWrite p false) s = .next (s.linkOff ⟨.gd, p⟩)
    ∧ ((s.link ⟨.gd, p⟩).declared = true → exec (.portEnWrite p true) s = .next (s.linkOn ⟨.gd, p⟩))
    ∧ ((s.link ⟨.gd, p⟩).declared = false → exec (.portEnWrite p true) s
      = .next (s.updCom .gd fun c => c.accessErr 4 (0x10000 + 0x100 * p))))
  ∧ (∀ (tag : BitVec 24) (d : GdDom) (u s : State), u = s.setReg .gd 0x91C (BitVec.ofNat 32 tag.toNat) →
    (s.gd.powered = false ∨ s.gd.resetLow = true ∨ tag ∈ s.gd.domRst → exec (.domainRst tag) s
      = .next (u.updGd fun g => { g with absorbed := min (g.absorbed + 1) 0xFFFF }))
    ∧ (s.gd.powered = true → s.gd.resetLow = false → tag ∉ s.gd.domRst →
      (s.dom? tag = none → exec (.domainRst tag) s = .next u)
      ∧ (s.dom? tag = some d → exec (.domainRst tag) s = .next ((u.updGd fun g => { g with
        softs := g.softs.filter fun p => p.1 / 4096 ≠ tag.toNat
        domRst := g.domRst ++ [tag] }).fullCensus (some [tag]) false))))
  ∧ (∀ (p : Nat) (s : State),
    (s.ratePeriod ≠ 0 → (s.link ⟨.gd, p⟩).attemptAt + s.ratePeriod ≤ s.gd.com.time.aon → p < 64 → s.trained ⟨.gd, p⟩ = true → (s.link ⟨.gd, p⟩).fallback = true → s.otherPath p = true →
      exec (.rateRetryTimer p) s = .next (s.retrain ⟨.gd, p⟩))
    ∧ (s.ratePeriod = 0 ∨ s.gd.com.time.aon < (s.link ⟨.gd, p⟩).attemptAt + s.ratePeriod ∨ 64 ≤ p ∨ (s.link ⟨.gd, p⟩).fallback = false ∨ s.otherPath p = false →
      exec (.rateRetryTimer p) s = .next s))
  ∧ (∀ s : State, exec (.ringBypassWrite true) s = .next (s.updGd fun g => { g with ringHeld := true, ringLow := true }))
  ∧ (∀ s : State, s.gd.hasRole = true → s.gd.portsOn = true → s.gd.boot.failed = false → (∀ p ∈ s.gd.badPorts, p < 66) →
    exec (.ringBypassWrite false) s = .next (s.updGd fun g => { g with ringHeld := false, ringLow := false }))
  ∧ (∀ (c : Int) (s : State), (110 ≤ c → exec (.thermNAlarm c) s = .next (s.updGd fun g => { g with therm := true }))
    ∧ (c < 105 → exec (.thermNAlarm c) s = .next (s.updGd fun g => { g with therm := false }))
    ∧ (105 ≤ c → c < 110 → exec (.thermNAlarm c) s = .next s))
  ∧ (∀ (st : Store) (key : Nat) (s : State), exec (.scrubLine st key .clean) s = .next s)
  ∧ (∀ (key : Nat) (s : State), exec (.scrubLine .tumbler key .corrected) s
      = .next (s.updTsu fun t => { t with scrubCorr := min (t.scrubCorr + 1) 0xFF })
    ∧ exec (.scrubLine .gdSoft key .corrected) s = .next (s.updGd fun g => { g with scrubCorr := min (g.scrubCorr + 1) 0xFF }))
  ∧ (∀ (key : Nat) (s : State),
    exec (.scrubLine .directory key .uncorrectable) s = .next (((s.logT .storeUncorr 0 3).updTsu fun t =>
      { t with lastStore := 3 }).ctxHalt key .storeUncorr)
    ∧ exec (.scrubLine .carry key .uncorrectable) s = .next (((s.logT .storeUncorr 0 6).updTsu fun t =>
      { t with lastStore := 6 }).updTumb key fun t => { t with carry := none })
    ∧ exec (.scrubLine .sentence key .uncorrectable) s = .next (((s.logT .storeUncorr 0 2).updTsu fun t =>
      { t with lastStore := 2 }).lostImage key)
    ∧ exec (.scrubLine .gdImage 0 .uncorrectable) s = .next ((s.logG .storeUncorr 0 1).setEvt .gd 0x93C 0x200)
    ∧ exec (.scrubLine .gdImage 1 .uncorrectable) s = .next ((s.logG .storeUncorr 0 1).chipReset 4))
  ∧ (∀ (e : Nat) (t : Tumbler) (s : State), s.tumb? e = some t →
    (t.estate ≠ .closing → t.domain = 0 → s.lostTumbler e = (s.failWaiters e .storeUncorr).closeTumb e)
    ∧ (t.estate = .closing → s.lostTumbler e = s)
    ∧ (t.estate ≠ .closing → t.domain ≠ 0 → t.mstate ≠ .expelled → s.lostTumbler e
      = ((s.enterShadow e .shadow).updBinding t.slice t.domain fun b =>
        { b with mstate := if b.mstate = .expelled then .expelled else .shadow }).joinSoon t.domain))

/-- Firmware update (R437, R439 to R441, R443, R449, R487): a load during another load, an activation or a trial is
refused with BUSY, one whose header fails a check with that check's REASON, and else the slot that is not ACTIVE turns
WRITING; a write that fails empties it, a wrong checksum or signature restores it, and a whole image is STAGED.
ACTIVATE, COMMIT and REVERT need the key seal in the sled and rack roles. An activation is refused with detail 1 to 4
for its cause, a hitless one boots the understudy and makes its slot the TRIAL, and none has effect in the first stage
of bring-up; COMMIT makes the trial ACTIVE and the old slot STAGED, and FLOOR never falls; REVERT makes it FAILED, and
one of the tick of the COMMIT undoes that first; an FWCTL frame acts at its TARGET alone. Where it rests on choices of
the model: log entries 2, 26, 107, 108. -/
def Obligations.FirmwareRules : Prop :=
  (∀ (d : List Byte) (s : State), s.gd.fw.busy = true → exec (.fwLoadCard d) s = .next (s.fwRefuse (0x13, 0)))
  ∧ (∀ (d : List Byte) (r : Refused) (s : State), s.gd.fw.busy = false → s.gd.fwHeader d none = .error r →
    exec (.fwLoadCard d) s = .next (s.fwRefuse r))
  ∧ (∀ (d : List Byte) (v : FwSlot) (s : State), s.gd.fw.busy = false → s.gd.fwHeader d none = .ok v →
    ∃ t c, exec (.fwLoadCard d) s = .next t ∧ t.gd.fw.load = some (v, s.gd.fw.slot (!s.gd.fw.active), c)
      ∧ (t.gd.fw.slot (!s.gd.fw.active)).state = .writing ∧ t.gd.fw.slot s.gd.fw.active = s.gd.fw.slot s.gd.fw.active
      ∧ t.tsu = s.tsu)
  ∧ (∀ (d : List Byte) (s : State), (s.reg .gd 0xA10).testBit 1 = true → exec (.cardDetect d) s = exec (.fwLoadCard d) s)
  ∧ (∀ (d : List Byte) (s : State), (s.reg .gd 0xA10).testBit 1 = false → exec (.cardDetect d) s = .next s)
  ∧ (∀ (c g w : Bool) (s : State), s.gd.fw.load = none → exec (.fwSlotWriteDone c g w) s = .next s)
  ∧ (∀ (v old : FwSlot) (s : State), s.gd.fw.load = some (v, old, true) →
    exec (.fwSlotWriteDone true true true) s
      = .next (s.updFw fun f => { f.setSlot (!f.active) v with load := none })
    ∧ exec (.fwSlotWriteDone true false true) s
      = .next ((s.updFw fun f => { f.setSlot (!f.active) old with load := none }).fwRefuse (0x14, 0)))
  ∧ (∀ (v old : FwSlot) (c b g : Bool) (s : State), s.gd.fw.load = some (v, old, b) →
    exec (.fwSlotWriteDone c g false) s
      = .next ((s.updFw fun f => { f.setSlot (!f.active) FwSlot.empty with load := none }).logG .fwSlotFault 0x8000)
    ∧ ((c && b) = false → exec (.fwSlotWriteDone c g true) s
      = .next ((s.updFw fun f => { f.setSlot (!f.active) old with load := none }).fwRefuse (0x03, 60))))
  ∧ (∀ (acc : Access) (s : State), acc.whole = true → acc.master ≠ 2 → acc.same = false → s.gd.fwCustody = true → s.gd.sealSt ≠ .opened →
    exec (.fwActivate acc) s = .next (s.custodyRefused 0xA10) ∧ exec (.fwCommit acc) s = .next (s.custodyRefused 0xA10)
    ∧ exec (.fwRevert acc) s = .next (s.custodyRefused 0xA10))
  ∧ (∀ (acc : Access) (s : State), acc.whole = true → acc.master = 2 →
    exec (.fwActivate acc) s = .next s ∧ exec (.fwCommit acc) s = .next s ∧ exec (.fwRevert acc) s = .next s)
  ∧ (∀ (acc : Access) (u s : State), acc.whole = true → acc.master ≠ 2 → acc.same = false →
    s.gd.fwCustody = false ∨ s.gd.sealSt = .opened → u = s.noteWrite acc 0xA10 →
    (s.gd.boot.phase = 1 → exec (.fwActivate acc) s = .next u)
    ∧ (s.gd.boot.phase ≠ 1 → s.gd.fw.partnerBusy = true → exec (.fwActivate acc) s = .next (u.logG .fwBusy 0x8000 1))
    ∧ (s.gd.boot.phase ≠ 1 → s.gd.fw.partnerBusy = false → s.gd.fw.act ≠ .idle ∨ s.gd.fw.trial ≠ none →
      exec (.fwActivate acc) s = .next (u.logG .fwBusy 0x8000 5))
    ∧ (s.gd.boot.phase ≠ 1 → s.gd.fw.partnerBusy = false → s.gd.fw.act = .idle → s.gd.fw.trial = none →
      ((s.gd.fw.slot (!s.gd.fw.active)).state ≠ .staged → exec (.fwActivate acc) s = .next (u.logG .fwBusy 0x8000 3))
      ∧ (s.gd.census = none → (s.gd.fw.slot (!s.gd.fw.active)).state = .staged → (s.reg .gd 0xA10).testBit 3 = false →
        ((s.gd.fw.slot (!s.gd.fw.active)).handover ≠ (s.gd.fw.slot s.gd.fw.runB).handover →
          exec (.fwActivate acc) s = .next (u.logG .fwBusy 0x8000 4))
        ∧ ((s.gd.fw.slot (!s.gd.fw.active)).handover = (s.gd.fw.slot s.gd.fw.runB).handover →
          exec (.fwActivate acc) s = .next (u.updFw fun f => { f with act := .booting (s.aon .gd) })))
      ∧ (s.gd.census ≠ none → (s.gd.fw.slot (!s.gd.fw.active)).state = .staged → exec (.fwActivate acc) s
        = .next (u.updFw fun f => { f with act := .waiting (s.aon .gd) ((s.reg .gd 0xA10).testBit 3) none })))
    ∧ (∀ b, s.gd.fw.trial = some b → ∃ t, exec (.fwCommit acc) s = .next t ∧ (t.gd.fw.slot b).state = .active
      ∧ ((s.gd.fw.slot (!b)).state = .active → (t.gd.fw.slot (!b)).state = .staged) ∧ s.gd.fw.floor ≤ t.gd.fw.floor
      ∧ (s.gd.heldRole = some 2 ∨ s.gd.heldRole = some 3 → (s.gd.fw.slot b).svn ≤ t.gd.fw.floor) ∧ t.tsu = s.tsu)
    ∧ (∀ b, s.gd.fw.trial = some b → s.gd.fw.trialCold = false → ∃ t, exec (.fwRevert acc) s = .next t
      ∧ (t.gd.fw.slot b).state = .failed ∧ t.gd.fw.slot (!b) = s.gd.fw.slot (!b) ∧ t.gd.fw.floor = s.gd.fw.floor
      ∧ t.tsu = s.tsu)
    ∧ (s.gd.fw.trial = none → exec (.fwCommit acc) s = .next u
      ∧ (s.gd.fw.undo = none → exec (.fwRevert acc) s = .next u)
      ∧ (∀ (a c : FwSlot) (n : Nat) (v : Fw) (b : Bool), s.gd.fw.undo = some (s.aon .gd, a, c, n) →
        v = { s.gd.fw with slotA := a, slotB := c, floor := n, undo := none } → v.trial = some b → v.trialCold = false →
        ∃ t, exec (.fwRevert acc) s = .next t ∧ (t.gd.fw.slot b).state = .failed ∧ t.gd.fw.slot (!b) = v.slot (!b)
          ∧ t.gd.fw.floor = n ∧ t.tsu = s.tsu)))
  ∧ (∀ (a : Nat) (s : State), s.gd.fw.act = .booting a → (∃ t, exec .understudyBooted s = .next t
      ∧ t.gd.fw.act = .idle ∧ (t.gd.fw.slot (!s.gd.fw.active)).state = .trial ∧ t.gd.fw.runB = (!s.gd.fw.active)
      ∧ t.gd.fw.trialCold = false ∧ t.gd.fw.trialAt = s.aon .gd ∧ t.tsu = s.tsu)
    ∧ (a + 3000000000 ≤ s.aon .gd → exec .understudyBootTimeout s
      = .next ((s.updFw fun f => { f with act := .idle }).fwRollback 1))
    ∧ (s.aon .gd < a + 3000000000 → exec .understudyBootTimeout s = .next s))
  ∧ (∀ s : State, s.gd.fw.act = .idle → exec .understudyBooted s = .next s ∧ exec .understudyBootTimeout s = .next s
    ∧ exec .activateCensusWait s = .next s)
  ∧ (∀ (a : Nat) (c : Bool) (v : Option Word) (s : State), s.gd.fw.act = .waiting a c v →
    (s.gd.census = none → exec .activateCensusWait s = .next (s.fwBegin c v))
    ∧ (s.gd.census ≠ none → s.aon .gd < a + 10000000000 → exec .activateCensusWait s = .next s)
    ∧ (s.gd.census ≠ none → a + 10000000000 ≤ s.aon .gd → exec .activateCensusWait s
      = .next ((s.updFw fun f => { f with act := .idle }).logG .fwBusy 0x8000 2)))
  ∧ (∀ s : State, s.gd.fw.trialAt + s.commitWait ≤ s.aon .gd → exec .commitWaitExpiry s = .next s.fwCommit)
  ∧ (∀ s : State, s.aon .gd < s.gd.fw.trialAt + s.commitWait → exec .commitWaitExpiry s = .next s)
  ∧ (∀ (b : Bool) (s : State), s.gd.fw.trial = some b → s.gd.fw.trialCold = false → ∃ t, exec .heartbeatMiss s = .next t
      ∧ (t.gd.fw.slot b).state = .failed ∧ t.gd.fw.slot (!b) = s.gd.fw.slot (!b) ∧ t.gd.fw.act = .idle ∧ t.tsu = s.tsu)
  ∧ (∀ s : State, s.gd.fw.trial = none → s.gd.fw.undo = none → exec .heartbeatMiss s = .next s)
  ∧ (∀ (p : Nat) (rx : Rx) (u s : State) (f : Frame), s.receive ⟨.gd, p⟩ rx 0x0D = (u, some f) → u.gd.hasRole = true →
    (f.byte 12 = 0 ∨ 3 < f.byte 12 → exec (.fwctlRx ⟨.gd, p⟩ rx) s = .next ((u.malformed ⟨.gd, p⟩).cutThrough s ⟨.gd, p⟩ rx))
    ∧ (f.more = false → 0 < f.byte 12 → f.byte 12 ≤ 3 → p < 64 → exec (.fwctlRx ⟨.gd, p⟩ rx) s = .next (u.cutThrough s ⟨.gd, p⟩ rx))
    ∧ (f.more = false → 64 ≤ p → u.gd.locator = some (f.nat 13 3 % 1048576) → u.gd.fwCustody = true →
      u.gd.sealSt ≠ .opened → u.grantHonoured ⟨.gd, p⟩ f = false → 0 < f.byte 12 → f.byte 12 ≤ 3 →
      exec (.fwctlRx ⟨.gd, p⟩ rx) s = .next ((u.logG .custodyRequired p).cutThrough s ⟨.gd, p⟩ rx))
    ∧ (f.more = false → 64 ≤ p → u.gd.locator = some (f.nat 13 3 % 1048576) →
      u.gd.fwCustody = false ∨ u.gd.sealSt = .opened ∨ u.grantHonoured ⟨.gd, p⟩ f = true →
      (f.byte 12 = 2 → exec (.fwctlRx ⟨.gd, p⟩ rx) s = .next ((u.fwRevert 2).cutThrough s ⟨.gd, p⟩ rx))
      ∧ (f.byte 12 = 3 → exec (.fwctlRx ⟨.gd, p⟩ rx) s = .next (u.fwCommit.cutThrough s ⟨.gd, p⟩ rx))
      ∧ (f.byte 12 = 1 → exec (.fwctlRx ⟨.gd, p⟩ rx) s
        = .next ((u.fwActivate (bitOf (f.byte 23) 0) (some (BitVec.ofNat 32 (f.nat 16 4)))).cutThrough s ⟨.gd, p⟩ rx))))

/-- Custody (R418, R446, R448, R449, R486): every way into and out of each state of the key seal's table, with the times
it gives; OWNER_LOCK takes bit 0 of a write of GD_OWNER while the seal is OPEN, and the write is refused otherwise; a
blow needs the open seal, names its fuse from GD_FUSE_BLOW, ends with DONE_EVT, and a 257th repair entry is not blown.
Where it rests on choices of the model: log entries 2, 106. -/
def Obligations.CustodyRules : Prop :=
  (∀ s : State, s.gd.keysw = false → s.gd.sealSt = .locked → s.gd.loopOk = true → ∃ t, exec (.keyswChange true) s = .next t
      ∧ t.gd.keysw = true ∧ t.gd.sealSt = .armed ∧ t.gd.sealAt = s.gd.com.time.aon ∧ t.gd.ownerLock = s.gd.ownerLock
      ∧ t.tsu = s.tsu)
  ∧ (∀ s : State, s.gd.keysw = false → s.gd.sealSt ≠ .locked ∨ s.gd.loopOk = false →
    exec (.keyswChange true) s = .next (s.updGd fun g => { g with keysw := true }))
  ∧ (∀ s : State, s.gd.keysw = true → s.gd.sealSt ≠ .tampered → ∃ t, exec (.keyswChange false) s = .next t
      ∧ t.gd.keysw = false ∧ t.gd.sealSt = .locked ∧ t.gd.ownerLock = s.gd.ownerLock ∧ t.tsu = s.tsu)
  ∧ (∀ s : State, s.gd.keysw = true → s.gd.sealSt = .tampered → s.gd.loopOk = true → s.gd.loopAt + 10000000000 ≤ s.aon .gd →
    ∃ t, exec (.keyswChange false) s = .next t ∧ t.gd.keysw = false ∧ t.gd.sealSt = .locked ∧ t.tsu = s.tsu)
  ∧ (∀ s : State, s.gd.keysw = true → s.gd.sealSt = .tampered →
    s.gd.loopOk = false ∨ s.aon .gd < s.gd.loopAt + 10000000000 →
    exec (.keyswChange false) s = .next (s.updGd fun g => { g with keysw := false }))
  ∧ (∀ (b : Bool) (s : State), s.gd.keysw = b → exec (.keyswChange b) s = .next s)
  ∧ (∀ s : State, s.gd.sealSt = .armed → s.aon .gd < s.gd.sealAt + 30000000000 → ∃ t, exec .presencePress s = .next t
      ∧ t.gd.sealSt = .opened ∧ t.gd.sealAt = s.gd.com.time.aon ∧ t.gd.keysw = s.gd.keysw ∧ t.tsu = s.tsu)
  ∧ (∀ s : State, s.gd.sealSt ≠ .armed ∨ s.gd.sealAt + 30000000000 ≤ s.aon .gd → exec .presencePress s = .next s)
  ∧ (∀ s : State, s.gd.sealSt = .armed → s.gd.sealAt + 30000000000 ≤ s.aon .gd → ∃ t, exec .sealArmedExpiry s = .next t
      ∧ t.gd.sealSt = .expired ∧ t.tsu = s.tsu)
  ∧ (∀ s : State, s.gd.sealSt ≠ .armed ∨ s.aon .gd < s.gd.sealAt + 30000000000 → exec .sealArmedExpiry s = .next s)
  ∧ (∀ s : State, s.gd.sealSt = .opened →
    s.gd.sealAt + orOne (s.reg .gd 0xA1C / 65536 % 256) * 60000000000 ≤ s.aon .gd → ∃ t, exec .sealMaxExpiry s = .next t
      ∧ t.gd.sealSt = .expired ∧ t.tsu = s.tsu)
  ∧ (∀ s : State, s.gd.sealSt ≠ .opened
      ∨ s.aon .gd < s.gd.sealAt + orOne (s.reg .gd 0xA1C / 65536 % 256) * 60000000000 →
    exec .sealMaxExpiry s = .next s)
  ∧ (∀ s : State, s.gd.loopOk = true → ∃ t, exec .tamperLoopBreak s = .next t ∧ t.gd.loopOk = false
      ∧ t.gd.sealSt = .tampered ∧ t.gd.keysw = s.gd.keysw ∧ t.tsu = s.tsu)
  ∧ (∀ s : State, s.gd.loopOk = false → exec .tamperLoopBreak s = .next s)
  ∧ (∀ s : State, s.gd.loopOk = false → exec .tamperClear s
      = .next (s.updGd fun g => { g with loopOk := true, loopAt := g.com.time.aon }))
  ∧ (∀ s : State, s.gd.loopOk = true → s.gd.sealSt = .tampered → s.gd.keysw = false → s.gd.loopAt + 10000000000 ≤ s.aon .gd →
    ∃ t, exec .tamperClear s = .next t ∧ t.gd.sealSt = .locked ∧ t.tsu = s.tsu)
  ∧ (∀ s : State, s.gd.loopOk = true →
    s.gd.sealSt ≠ .tampered ∨ s.gd.keysw = true ∨ s.aon .gd < s.gd.loopAt + 10000000000 →
    exec .tamperClear s = .next s)
  ∧ (∀ (acc : Access) (w : Word) (s : State), acc.whole = false →
    exec (.ownerLockWrite acc w) s = .next (s.updCom .gd fun c => c.accessErr 0 0xA20)
    ∧ exec (.fuseBlow acc) s = .next (s.updCom .gd fun c => c.accessErr 0 0x934))
  ∧ (∀ (acc : Access) (w : Word) (s : State), acc.whole = true → acc.master = 2 →
    exec (.ownerLockWrite acc w) s = .next s ∧ exec (.fuseBlow acc) s = .next s)
  ∧ (∀ (acc : Access) (w : Word) (s : State), acc.whole = true → acc.master ≠ 2 → acc.same = false → s.gd.sealSt ≠ .opened →
    exec (.ownerLockWrite acc w) s = .next (s.custodyRefused 0xA20)
    ∧ exec (.fuseBlow acc) s = .next (s.custodyRefused 0x934))
  ∧ (∀ (acc : Access) (w : Word) (s : State), acc.whole = true → acc.master ≠ 2 → acc.same = false → s.gd.sealSt = .opened →
    exec (.ownerLockWrite acc w) s = .next ((s.noteWrite acc 0xA20).updGd fun g => { g with ownerLock := w.toNat.testBit 0 }))
  ∧ (∀ (acc : Access) (s : State), acc.whole = true → acc.master ≠ 2 → acc.same = false → s.gd.sealSt = .opened → s.reg .gd 0x934 % 4 ≠ 3 →
    exec (.fuseBlow acc) s = .next (((s.noteWrite acc 0x934).updGd fun g => { g with blown := g.blown ++
      [(s.reg .gd 0x934 % 4, s.reg .gd 0x934 / 256 % 128, s.reg .gd 0x938 % 1048576)] }).setEvt .gd 0x934 0x40000000))
  ∧ (∀ (acc : Access) (s : State), acc.whole = true → acc.master ≠ 2 → acc.same = false → s.gd.sealSt = .opened → s.reg .gd 0x934 % 4 = 3 →
    256 ≤ s.gd.repairs + (s.gd.blown.filter fun b => b.1 = 3).length →
    exec (.fuseBlow acc) s = .next ((s.noteWrite acc 0x934).setEvt .gd 0x934 0x40000000))

/-- The role rule of R438, step 7 of a firmware image's checks: a sled or rack refuses exactly while OWNER_LOCK is set, a
pod or hall root exactly an SVN below FLOOR, and a distributor without a role where either holds. -/
def Obligations.FirmwareRoleRule : Prop :=
  ∀ (g : Gd) (svn : Nat),
    (g.heldRole = some 0 ∨ g.heldRole = some 1 → (g.roleRule svn = .ok () ↔ g.ownerLock = false))
    ∧ (g.heldRole = some 2 ∨ g.heldRole = some 3 → (g.roleRule svn = .ok () ↔ g.fw.floor ≤ svn))
    ∧ (g.heldRole = none → (g.roleRule svn = .ok () ↔ g.ownerLock = false ∧ g.fw.floor ≤ svn))

/-- A narrow or misaligned access (R10) at either part: a write leaves the state as it is but for the access error, a read
does the same and returns 0; the access error sets bit 0 of the access-error register (NARROW) and names the offset. -/
def Obligations.AccessWidth : Prop :=
  (∀ (n : Node) (acc : Access) (off : Nat) (w : Word) (s : State), acc.whole = false ∨ off % 4 ≠ 0 →
    exec (.registerWrite n acc off w) s = .next (s.updCom n fun c => c.accessErr 0 off)
    ∧ exec (.lowWordLatchRead n acc off) s = .next (s.updCom n fun c => { c.accessErr 0 off with rdata := 0 }))
  ∧ (∀ (c : Common) (off : Nat), (c.accessErr 0 off).evtWord 0x50 = c.evtWord 0x50 ||| 1 ∧ (c.accessErr 0 off).accAddr = off
    ∧ (c.accessErr 0 off).rw = c.rw ∧ (c.accessErr 0 off).latch = c.latch ∧ (c.accessErr 0 off).log = c.log
    ∧ (c.accessErr 0 off).time = c.time ∧ (c.accessErr 0 off).links = c.links ∧ (c.accessErr 0 off).srcs = c.srcs)

/-- The interrupt vectors of the TSU (R511): a handshake passes the oldest queued vector; a raised vector is queued behind
the others, and one that is raised again while its event waits is merged with it. -/
def Obligations.InterruptQueue : Prop :=
  (∀ s : State, exec .irqEventHandshake s = .next (s.updCom .tsu fun c => { c with irq := c.irq.drop 1 }))
  ∧ (∀ (c : Common) (v : Nat), v ∉ c.irq → c.raiseVector v = { c with irq := c.irq ++ [v] })
  ∧ (∀ (c : Common) (v : Nat), v ∈ c.irq → c.raiseVector v = c)

/-- Registers of both parts and the management port (R11, R12, R15, R457 to R459, R471, R474, R477, R481, R482, R499): the
understudy writes nothing; an absent unit sets ABSENT; a write stores the read-write bits of a register, clears those
written 1 of its write-1-to-clear bits, and has no effect where it has neither; a custody field keeps its value unless
the seal is OPEN. Of two writes of a register in one cycle the lead's loses to the management port's, with COLLIDE; an
event of the cycle sets its bit again; a write in the cycle of a chip reset is lost. A read returns the register's
value; the low word of a value of two words latches the upper one, which is returned and let go. Pop takes the oldest
entry of an error log and clear all. The views are snapshots, a page sees no other slice's entry, and a transaction of
the management port shows 0x5A for an access that sets a flag and 0xA5 for one that does not. Where it rests on
choices of the model: log entries 2, 113, 114, 115, 120. -/
def Obligations.RegisterRules : Prop :=
  (∀ (acc : Access) (off : Nat) (w : Word) (s : State), acc.whole = true → off % 4 = 0 → acc.master = 2 →
    exec (.registerWrite .gd acc off w) s = .next s)
  ∧ (∀ (acc : Access) (off : Nat) (w : Word) (s : State), acc.whole = true → off % 4 = 0 → off < 0x680 ∨ 0x780 ≤ off →
    off < 0x10000 → off ≠ 0x114 →
    (s.tsuAbsent off = true ∨ (rwTsu off = 0 ∧ w1cTsu off = 0) → exec (.registerWrite .tsu acc off w) s = .next s)
    ∧ (s.tsuAbsent off = false → ∃ t, exec (.registerWrite .tsu acc off w) s = .next t
      ∧ (rwTsu off ≠ 0 → t.reg .tsu off
          = ((BitVec.ofNat 32 (s.reg .tsu off) &&& ~~~ rwTsu off) ||| (w &&& rwTsu off)).toNat)
      ∧ (∀ o, o ≠ off → t.reg .tsu o = s.reg .tsu o)
      ∧ (acc.same = false → t.tsu.com.evtWord off = s.tsu.com.evtWord off &&& ~~~ (w &&& w1cTsu off))
      ∧ (acc.same = true → t.tsu.com.evtWord off
          = s.tsu.com.evtWord off &&& ~~~ (w &&& w1cTsu off &&& ~~~ Tab.getD s.tsu.com.setNow off 0))
      ∧ (∀ o, o ≠ off → t.tsu.com.evtWord o = s.tsu.com.evtWord o)
      ∧ t.tsu.slices = s.tsu.slices ∧ t.gd = s.gd))
  ∧ (∀ (acc : Access) (off : Nat) (w : Word) (s : State), acc.whole = true → off % 4 = 0 → s.lostToReset acc = true →
    exec (.registerWrite .gd acc off w) s = .next s)
  ∧ (∀ (acc : Access) (off : Nat) (w : Word) (s : State), acc.whole = true → off % 4 = 0 → acc.master ≠ 2 →
    s.lostToReset acc = false → s.gdAbsent off = true → ∃ t, exec (.registerWrite .gd acc off w) s = .next t
      ∧ t.gd.com.accAddr = off ∧ t.gd.com.evtWord 0x50 = s.gd.com.evtWord 0x50 ||| 2 ∧ t.gd.com.rw = s.gd.com.rw ∧ t.tsu = s.tsu)
  ∧ (∀ (acc : Access) (off : Nat) (w : Word) (s : State), acc.whole = true → off % 4 = 0 → off ≠ 0x50 → acc.same = true →
    acc.master = 0 → s.gd.com.lastWr = some (off, 1) → s.lostToReset acc = false → s.gdAbsent off = false →
    rwGdMask off ≠ (0, 0) → ∃ t, exec (.registerWrite .gd acc off w) s = .next t ∧ t.gd.com.rw = s.gd.com.rw
      ∧ t.gd.com.evtWord 0x50 = s.gd.com.evtWord 0x50 ||| 8 ∧ t.tsu = s.tsu)
  ∧ (∀ (w : Word) (s : State), s.gd.com.lastWr = some (0x44, 0) → s.lostToReset ⟨1, true, true⟩ = false →
    ∃ t, exec (.registerWrite .gd ⟨1, true, true⟩ 0x44 w) s = .next t ∧ t.reg .gd 0x44
      = ((BitVec.ofNat 32 (s.reg .gd 0x44) &&& ~~~ 0x3FFFF#32) ||| (w &&& 0x3FFFF#32)).toNat
      ∧ t.gd.com.evtWord 0x50 = s.gd.com.evtWord 0x50 ||| 8 ∧ t.gd.com.lastWr = some (0x44, 1) ∧ t.tsu = s.tsu)
  ∧ (∀ (acc : Access) (w : Word) (s : State), acc.whole = true → acc.master ≠ 2 → acc.same = false → s.gd.variant = .gd64x →
    (s.gd.sealSt ≠ .opened → ∃ t, exec (.registerWrite .gd acc 0x210 w) s = .next t ∧ t.gd.com.rw = s.gd.com.rw ∧ t.tsu = s.tsu)
    ∧ (s.gd.sealSt = .opened → ∃ t, exec (.registerWrite .gd acc 0x210 w) s = .next t
      ∧ t.reg .gd 0x210 = ((BitVec.ofNat 32 (s.reg .gd 0x210) &&& ~~~ 0xFFFF#32) ||| (w &&& 0xFFFF#32)).toNat ∧ t.tsu = s.tsu))
  ∧ (∀ (n : Node) (acc : Access) (off : Nat) (s : State), acc.whole = true → off % 4 = 0 → wideOf n off = none →
    exec (.lowWordLatchRead n acc off) s = .next (s.updCom n fun c => { c with rdata := s.readReg n off }))
  ∧ (∀ (n : Node) (acc : Access) (off : Nat) (s : State), acc.whole = true → off % 4 = 0 → wideOf n off = some (off, 2) →
    exec (.lowWordLatchRead n acc off) s = .next (s.updCom n fun c => { c with
      latch := Tab.put c.latch (latchKey acc.master (off + 4)) (s.readReg n (off + 4)), rdata := s.readReg n off }))
  ∧ (∀ (n : Node) (acc : Access) (low off k : Nat) (s : State), acc.whole = true → off % 4 = 0 → wideOf n off = some (low, k) →
    off ≠ low → off ≠ low + 4 * (k - 1) → exec (.lowWordLatchRead n acc off) s = .next (s.updCom n fun c => { c with
      rdata := (Tab.get (s.com n).latch (latchKey acc.master off)).getD (s.readReg n off) }))
  ∧ (∀ (n : Node) (acc : Access) (low : Nat) (s : State), acc.whole = true → low % 4 = 0 → wideOf n (low + 4) = some (low, 2) →
    exec (.lowWordLatchRead n acc (low + 4)) s = .next (s.updCom n fun c => { c with
      latch := Tab.del (Tab.del c.latch (latchKey acc.master low)) (latchKey acc.master (low + 4))
      rdata := (Tab.get (s.com n).latch (latchKey acc.master (low + 4))).getD (s.readReg n (low + 4)) }))
  ∧ (∀ (n : Node) (s : State), exec (.errlogPop n) s = .next (s.updCom n fun c => { c with log := c.log.drop 1 })
    ∧ exec (.errlogClear n) s = .next (s.updCom n fun c => { c with log := [] }))
  ∧ (∀ (w : Word) (s : State),
    (s.dbgEntry (w.toNat % 8) (w.toNat / 65536 % 8192) = none → exec (.debugSnapshot none w) s
      = .next ((s.setReg .tsu 0x880 (w &&& 0x1FFF0007#32)).updTsu fun t => { t with dbg := (false, 0, []) }))
    ∧ (∀ o b, s.dbgEntry (w.toNat % 8) (w.toNat / 65536 % 8192) = some (o, b) → exec (.debugSnapshot none w) s
      = .next ((s.setReg .tsu 0x880 (w &&& 0x1FFF0007#32)).updTsu fun t => { t with dbg := (true, o, padTo 64 b) })))
  ∧ (∀ (n : Nat) (w : Word) (s : State), n < 64 → (s.slice n).state = .active →
    (∀ b, s.dbgEntry (w.toNat % 8) (w.toNat / 65536 % 8192) = some (n, b) → ∃ t, exec (.debugSnapshot (some n) w) s = .next t
      ∧ (t.slice n).view = (true, n, padTo 64 b) ∧ t.tsu.com = s.tsu.com ∧ t.gd = s.gd)
    ∧ (∀ o b, s.dbgEntry (w.toNat % 8) (w.toNat / 65536 % 8192) = some (o, b) → o ≠ n →
      ∃ t, exec (.debugSnapshot (some n) w) s = .next t ∧ (t.slice n).view = (false, 0, [])
        ∧ t.tsu.com.evtWord 0x50 = s.tsu.com.evtWord 0x50 ||| 2 ∧ t.gd = s.gd))
  ∧ (∀ (w : Word) (s : State), exec (.softSnapshot w) s = .next ((s.setReg .gd 0x534 (w &&& 0xFFF#32)).updGd fun g =>
      { g with softView := (s.setReg .gd 0x534 (w &&& 0xFFF#32)).softWords (BitVec.ofNat 24 (s.reg .gd 0x530)) (w.toNat % 4096) }))
  ∧ (∀ (w : Word) (s : State), s.dom? (BitVec.ofNat 24 w.toNat) = none → exec (.dlatSnapshot w) s
      = .next ((s.setReg .gd 0x520 (w &&& 0xFFFFFF#32)).updGd fun g => { g with dlatView := [0, 0] }))
  ∧ (∀ (off : Nat) (s : State), off < 131072 → off % 4 ≠ 0 →
    (∃ t, exec (.mgmtSpiTransaction off .read) s = .next t ∧ t.gd.spiStat = 0x5A ∧ t.gd.com.rdata = 0
      ∧ t.gd.com.rw = s.gd.com.rw ∧ t.tsu = s.tsu))
  ∧ (∀ (off : Nat) (s : State), off < 131072 → off % 4 = 0 → wideOf .gd off = none →
    ∃ t, exec (.mgmtSpiTransaction off .read) s = .next t ∧ t.gd.spiStat = 0xA5 ∧ t.gd.com.rdata = s.readReg .gd off
      ∧ t.gd.com.rw = s.gd.com.rw ∧ t.tsu = s.tsu)
  ∧ (∀ (w : Word) (s : State), ∃ t, exec (.mgmtSpiTransaction 0x44 (.write w)) s = .next t ∧ t.gd.spiStat = 0xA5
      ∧ t.reg .gd 0x44 = ((BitVec.ofNat 32 (s.reg .gd 0x44) &&& ~~~ 0x3FFFF#32) ||| (w &&& 0x3FFFF#32)).toNat ∧ t.tsu = s.tsu)

/-- Combining is free of order where R260 says so: for every descriptor of R251 but a floating SUM or SCAN, the partial
that a TSU folds from its contributions does not depend on their order (AND, OR, XOR, MIN, MAX, integer sums, counts,
histograms, ARGMAX and TOPK with their ties), nor does the partial that a distributor folds from its children's, whose
pairs hold no NaN; and a floating SUM does depend on it. -/
def Obligations.CombineOrderFree : Prop :=
  (∀ (op fmt lanes : Nat) (xs ys : List Input), descAllowed op fmt lanes = true →
    ¬ (isFloat fmt = true ∧ (op = 0x01 ∨ op = 0x0B)) → xs.Perm ys → foldTsu op fmt lanes xs = foldTsu op fmt lanes ys)
  ∧ (∀ (op fmt lanes : Nat) (ps qs : List (List Byte)), descAllowed op fmt lanes = true →
    ¬ (isFloat fmt = true ∧ (op = 0x01 ∨ op = 0x0B)) → (∀ d ∈ ps, ∀ i, laneNan (pairFmt fmt) (pairAt d i).1 = false) →
    ps.Perm qs → foldGd op fmt lanes ps = foldGd op fmt lanes qs)
  ∧ (∃ xs ys : List Input, xs.Perm ys ∧ foldTsu 0x01 3 1 xs ≠ foldTsu 0x01 3 1 ys)

/-- SCAN and ALLOC (R268, R270, R275, R277): a participant's exclusive prefix is the combination of the lower slots' rows
alone, whatever the order in which the rows came, added once to the die's base where there is one; DROP and CARRY
accept the lesser of load and capacity, SPILL gives second choices what the first leave, and no policy accepts
nothing; quotas and offsets of participants in order tile the accepted count without a gap or an overlap. Where it
rests on choices of the model: log entry 65. -/
def Obligations.AllocRules : Prop :=
  (∀ (fmt lanes slot : Nat) (rows : List Input), isFloat fmt = false → descAllowed 0x0B fmt lanes = true →
    scanPrefix 0x0B fmt lanes rows none slot = foldTsu 0x0B fmt lanes (rows.filter fun r => r.slot < slot)
    ∧ ∀ b, scanPrefix 0x0B fmt lanes rows (some b) slot
      = addResults fmt lanes b (foldTsu 0x0B fmt lanes (rows.filter fun r => r.slot < slot)))
  ∧ (∀ (rule experts e : Nat) (caps loads : List Nat), rule ≠ 1 → e < loads.length →
    (allocAccept rule experts caps loads true).getD e 0 = min (loads.getD e 0) (caps.getD e 0))
  ∧ (∀ (experts e : Nat) (caps loads : List Nat), e < experts →
    (allocAccept 1 experts caps loads true).getD e 0 = min (loads.getD e 0) (caps.getD e 0)
    ∧ (allocAccept 1 experts caps loads true).getD (experts + e) 0
      = min (loads.getD (experts + e) 0) (caps.getD e 0 - min (loads.getD e 0) (caps.getD e 0)))
  ∧ (∀ (rule experts e : Nat) (caps loads : List Nat), (allocAccept rule experts caps loads false).getD e 0 = 0)
  ∧ (∀ (rule experts j : Nat) (acc cs : List Nat), rule ≠ 1 ∨ j < experts →
    (∀ c, (allocShare rule experts acc c 0 j).2 = 0)
    ∧ (∀ c p d, (allocShare rule experts acc d (p + c) j).2
      = (allocShare rule experts acc c p j).2 + (allocShare rule experts acc c p j).1)
    ∧ ((List.range cs.length).map fun k => (allocShare rule experts acc (cs.getD k 0) (cs.take k).sum j).1).sum
      = min cs.sum (acc.getD j 0))
  ∧ (∀ (experts e c p : Nat) (acc : List Nat), allocShare 1 experts acc c p (experts + e)
      = (min c (acc.getD (experts + e) 0 - p), acc.getD e 0 + min p (acc.getD (experts + e) 0)))
end

