-- ==== Sys2Proof/Laws/Tab.lean ====
section
/-! SUPPORT. Laws of the sparse tables: a read after a write, and the rising order of the keys. -/

namespace Sys2Proof

variable {α : Type}

@[simp] theorem Tab.get_nil (i : Nat) : Tab.get ([] : Tab α) i = none := rfl

/-- A read of the key just written gives the value written. -/
@[simp] theorem Tab.get_put_self (t : Tab α) (i : Nat) (v : α) : Tab.get (Tab.put t i v) i = some v := by
  induction t with
  | nil => simp [Tab.put, Tab.get]
  | cons p t ih =>
    obtain ⟨k, w⟩ := p
    simp only [Tab.put]
    split
    · simp [Tab.get]
    · split
      · simp [Tab.get]
      · next h => simp [Tab.get, h, ih]

/-- A write leaves every other key as it was. -/
theorem Tab.get_put_ne (t : Tab α) {i j : Nat} (v : α) (h : i ≠ j) : Tab.get (Tab.put t i v) j = Tab.get t j := by
  induction t with
  | nil => simp [Tab.put, Tab.get, h]
  | cons p t ih =>
    obtain ⟨k, w⟩ := p
    simp only [Tab.put]
    split
    · simp [Tab.get, h]
    · split
      · next e => subst e; simp [Tab.get, h]
      · simp only [Tab.get, ih]

/-- A read after a write, at any key. -/
theorem Tab.get_put (t : Tab α) (i j : Nat) (v : α) :
    Tab.get (Tab.put t i v) j = if i = j then some v else Tab.get t j := by
  split
  · next h => subst h; simp
  · next h => exact Tab.get_put_ne t v h

@[simp] theorem Tab.getD_nil (i : Nat) (d : α) : Tab.getD ([] : Tab α) i d = d := rfl

@[simp] theorem Tab.getD_put_self (t : Tab α) (i : Nat) (v d : α) : Tab.getD (Tab.put t i v) i d = v := by
  simp [Tab.getD]

theorem Tab.getD_put_ne (t : Tab α) {i j : Nat} (v d : α) (h : i ≠ j) :
    Tab.getD (Tab.put t i v) j d = Tab.getD t j d := by
  simp [Tab.getD, Tab.get_put_ne t v h]

theorem Tab.getD_put (t : Tab α) (i j : Nat) (v d : α) :
    Tab.getD (Tab.put t i v) j d = if i = j then v else Tab.getD t j d := by
  unfold Tab.getD; rw [Tab.get_put]; split <;> rfl

/-- A removed key is not listed. -/
theorem Tab.get_del (t : Tab α) (i j : Nat) : Tab.get (Tab.del t i) j = if j = i then none else Tab.get t j := by
  induction t with
  | nil => simp [Tab.del]
  | cons p t ih =>
    obtain ⟨k, w⟩ := p
    simp only [Tab.del] at ih ⊢
    by_cases hk : k = i
    · subst hk
      simp only [List.filter, bne_self_eq_false, ih, Tab.get]
      by_cases hj : j = k
      · subst hj; simp
      · simp [hj, Ne.symm hj]
    · have : (k != i) = true := by simpa using hk
      simp only [List.filter, this, Tab.get, ih]
      by_cases hj : k = j
      · subst hj; simp [hk]
      · simp [hj]

/-- A function applied to every listed value. -/
theorem Tab.get_map (t : Tab α) (f : Nat → α → α) (i : Nat) : Tab.get (Tab.map t f) i = (Tab.get t i).map (f i) := by
  induction t with
  | nil => rfl
  | cons p t ih =>
    obtain ⟨k, w⟩ := p
    simp only [Tab.map, List.map, Tab.get] at ih ⊢
    by_cases h : k = i
    · subst h; simp
    · simp [h, ih]

/-- A written key, and the keys listed before, are the keys listed after. -/
theorem Tab.mem_put {t : Tab α} {i : Nat} {v : α} {p : Nat × α} (h : p ∈ Tab.put t i v) : p = (i, v) ∨ p ∈ t := by
  induction t with
  | nil => simpa [Tab.put] using h
  | cons q t ih =>
    obtain ⟨k, w⟩ := q
    simp only [Tab.put] at h
    split at h
    · simpa using h
    · split at h
      · rcases List.mem_cons.1 h with h | h
        · exact .inl h
        · exact .inr (List.mem_cons_of_mem _ h)
      · rcases List.mem_cons.1 h with h | h
        · exact .inr (h ▸ List.mem_cons_self ..)
        · exact (ih h).imp id (List.mem_cons_of_mem _)

/-- Writing a key keeps the keys rising. -/
theorem Tab.Rising.put {t : Tab α} (h : Tab.Rising t) (i : Nat) (v : α) : Tab.Rising (Tab.put t i v) := by
  induction t with
  | nil => simp [Tab.put, Tab.Rising]
  | cons p t ih =>
    obtain ⟨k, w⟩ := p
    simp only [Tab.Rising, List.map_cons, List.pairwise_cons] at h
    simp only [Tab.put]
    split
    · next hlt =>
      simp only [Tab.Rising, List.map_cons, List.pairwise_cons, List.mem_cons]
      exact ⟨fun a ha => ha.elim (fun e => e ▸ hlt) (fun m => Nat.lt_trans hlt (h.1 a m)), h⟩
    · split
      · next e => subst e; simpa [Tab.Rising] using h
      · next h1 h2 =>
        simp only [Tab.Rising, List.map_cons, List.pairwise_cons]
        refine ⟨fun a ha => ?_, ih h.2⟩
        obtain ⟨q, hq, rfl⟩ := List.mem_map.1 ha
        rcases Tab.mem_put hq with e | m
        · subst e; simp only at *; omega
        · exact h.1 _ (List.mem_map_of_mem m)

/-- Removing a key keeps the keys rising. -/
theorem Tab.Rising.del {t : Tab α} (h : Tab.Rising t) (i : Nat) : Tab.Rising (Tab.del t i) :=
  List.Pairwise.sublist (List.Sublist.map _ List.filter_sublist) h

/-- Applying a function to the values leaves the keys. -/
theorem Tab.Rising.map {t : Tab α} (h : Tab.Rising t) (f : Nat → α → α) : Tab.Rising (Tab.map t f) := by
  have : List.map Prod.fst (Tab.map t f) = List.map Prod.fst t := by simp [Tab.map, Function.comp_def]
  simpa only [Tab.Rising, this] using h

end Sys2Proof
end

