-- ==== Sys2Proof/Laws/State.lean ====
section
/-! SUPPORT. Laws of the named updates of the state: what each reads as after each, so that no proof unfolds a record
update. -/

namespace Sys2Proof.Machine

open Sys2Proof

variable (s : State) (n : Node) (l : LinkId) (r : Nat)

@[simp] theorem State.updTsu_tsu (f : Tsu → Tsu) : (s.updTsu f).tsu = f s.tsu := rfl
@[simp] theorem State.updTsu_gd (f : Tsu → Tsu) : (s.updTsu f).gd = s.gd := rfl
@[simp] theorem State.updTsu_pending (f : Tsu → Tsu) : (s.updTsu f).pending = s.pending := rfl
@[simp] theorem State.updTsu_fresh (f : Tsu → Tsu) : (s.updTsu f).fresh = s.fresh := rfl

@[simp] theorem State.updGd_tsu (f : Gd → Gd) : (s.updGd f).tsu = s.tsu := rfl
@[simp] theorem State.updGd_gd (f : Gd → Gd) : (s.updGd f).gd = f s.gd := rfl
@[simp] theorem State.updGd_pending (f : Gd → Gd) : (s.updGd f).pending = s.pending := rfl
@[simp] theorem State.updGd_fresh (f : Gd → Gd) : (s.updGd f).fresh = s.fresh := rfl

@[simp] theorem State.com_tsu : s.com .tsu = s.tsu.com := rfl
@[simp] theorem State.com_gd : s.com .gd = s.gd.com := rfl

@[simp] theorem State.updCom_tsu_tsu (f : Common → Common) : (s.updCom .tsu f).tsu = { s.tsu with com := f s.tsu.com } := rfl
@[simp] theorem State.updCom_tsu_gd (f : Common → Common) : (s.updCom .tsu f).gd = s.gd := rfl
@[simp] theorem State.updCom_gd_tsu (f : Common → Common) : (s.updCom .gd f).tsu = s.tsu := rfl
@[simp] theorem State.updCom_gd_gd (f : Common → Common) : (s.updCom .gd f).gd = { s.gd with com := f s.gd.com } := rfl
@[simp] theorem State.updCom_pending (f : Common → Common) : (s.updCom n f).pending = s.pending := by cases n <;> rfl
@[simp] theorem State.updCom_fresh (f : Common → Common) : (s.updCom n f).fresh = s.fresh := by cases n <;> rfl
@[simp] theorem State.updCom_com (f : Common → Common) : (s.updCom n f).com n = f (s.com n) := by cases n <;> rfl
@[simp] theorem State.updCom_time (f : Common → Common) : (s.updCom n f).time n = (f (s.com n)).time := by cases n <;> rfl

@[simp] theorem State.updTime_tsu_tsu (f : TimeDom → TimeDom) :
    (s.updTime .tsu f).tsu = { s.tsu with com := { s.tsu.com with time := f s.tsu.com.time } } := rfl
@[simp] theorem State.updTime_tsu_gd (f : TimeDom → TimeDom) : (s.updTime .tsu f).gd = s.gd := rfl
@[simp] theorem State.updTime_gd_tsu (f : TimeDom → TimeDom) : (s.updTime .gd f).tsu = s.tsu := rfl
@[simp] theorem State.updTime_gd_gd (f : TimeDom → TimeDom) :
    (s.updTime .gd f).gd = { s.gd with com := { s.gd.com with time := f s.gd.com.time } } := rfl
@[simp] theorem State.updTime_time (f : TimeDom → TimeDom) : (s.updTime n f).time n = f (s.time n) := by cases n <;> rfl
@[simp] theorem State.updTime_src (f : TimeDom → TimeDom) : (s.updTime n f).src l = s.src l := by
  cases n <;> obtain ⟨m, p⟩ := l <;> cases m <;> rfl
@[simp] theorem State.updTime_link (f : TimeDom → TimeDom) : (s.updTime n f).link l = s.link l := by
  cases n <;> obtain ⟨m, p⟩ := l <;> cases m <;> rfl
@[simp] theorem State.updTime_pending (f : TimeDom → TimeDom) : (s.updTime n f).pending = s.pending := by cases n <;> rfl

@[simp] theorem State.updLink_time (f : Link → Link) : (s.updLink l f).time n = s.time n := by
  cases n <;> obtain ⟨m, p⟩ := l <;> cases m <;> rfl
@[simp] theorem State.updLink_src (f : Link → Link) (k : LinkId) : (s.updLink l f).src k = s.src k := by
  obtain ⟨m, p⟩ := l; obtain ⟨m', q⟩ := k; cases m <;> cases m' <;> rfl
@[simp] theorem State.updLink_pending (f : Link → Link) : (s.updLink l f).pending = s.pending := by
  obtain ⟨m, p⟩ := l; cases m <;> rfl
/-- A link end just updated. -/
@[simp] theorem State.updLink_link (f : Link → Link) : (s.updLink l f).link l = f (s.link l) := by
  obtain ⟨m, p⟩ := l; cases m <;> simp [State.updLink, State.link, State.updCom, State.com]
/-- Every other link end is as before. -/
theorem State.updLink_link_ne {k : LinkId} (f : Link → Link) (h : l ≠ k) : (s.updLink l f).link k = s.link k := by
  obtain ⟨m, p⟩ := l; obtain ⟨m', q⟩ := k
  cases m <;> cases m' <;> simp [State.updLink, State.link, State.updCom, State.com] <;>
    exact Tab.getD_put_ne _ _ _ (fun e => h (by rw [e]))

@[simp] theorem State.updSrc_time (f : TimeSrc → TimeSrc) : (s.updSrc l f).time n = s.time n := by
  cases n <;> obtain ⟨m, p⟩ := l <;> cases m <;> rfl
@[simp] theorem State.updSrc_link (f : TimeSrc → TimeSrc) (k : LinkId) : (s.updSrc l f).link k = s.link k := by
  obtain ⟨m, p⟩ := l; obtain ⟨m', q⟩ := k; cases m <;> cases m' <;> rfl
@[simp] theorem State.updSrc_pending (f : TimeSrc → TimeSrc) : (s.updSrc l f).pending = s.pending := by
  obtain ⟨m, p⟩ := l; cases m <;> rfl
/-- A time source just updated. -/
@[simp] theorem State.updSrc_src (f : TimeSrc → TimeSrc) : (s.updSrc l f).src l = f (s.src l) := by
  obtain ⟨m, p⟩ := l; cases m <;> simp [State.updSrc, State.src, State.updCom, State.com]
/-- Every other time source is as before. -/
theorem State.updSrc_src_ne {k : LinkId} (f : TimeSrc → TimeSrc) (h : l ≠ k) : (s.updSrc l f).src k = s.src k := by
  obtain ⟨m, p⟩ := l; obtain ⟨m', q⟩ := k
  cases m <;> cases m' <;> simp [State.updSrc, State.src, State.updCom, State.com] <;>
    exact Tab.getD_put_ne _ _ _ (fun e => h (by rw [e]))

@[simp] theorem State.updRegion_gd (f : Region → Region) : (s.updRegion r f).gd = s.gd := rfl
@[simp] theorem State.updRegion_pending (f : Region → Region) : (s.updRegion r f).pending = s.pending := rfl
@[simp] theorem State.updRegion_com (f : Region → Region) : (s.updRegion r f).tsu.com = s.tsu.com := rfl
@[simp] theorem State.updRegion_time (f : Region → Region) : (s.updRegion r f).time n = s.time n := by cases n <;> rfl
/-- A region just updated. -/
@[simp] theorem State.updRegion_region (f : Region → Region) : (s.updRegion r f).region r = f (s.region r) := by
  simp [State.updRegion, State.region]
/-- Every other region is as before. -/
theorem State.updRegion_region_ne {q : Nat} (f : Region → Region) (h : r ≠ q) : (s.updRegion r f).region q = s.region q := by
  simp [State.updRegion, State.region]
  exact Tab.getD_put_ne _ _ _ h

@[simp] theorem State.takeFresh_tsu : s.takeFresh.tsu = s.tsu := rfl
@[simp] theorem State.takeFresh_gd : s.takeFresh.gd = s.gd := rfl
@[simp] theorem State.takeFresh_pending : s.takeFresh.pending = s.pending := rfl
@[simp] theorem State.takeFresh_fresh : s.takeFresh.fresh = s.fresh + 1 := rfl

/-- A write-1-to-clear register after bits of it are set. -/
@[simp] theorem Common.setEvt_evtWord (c : Common) (off : Nat) (m : Word) :
    (c.setEvt off m).evtWord off = c.evtWord off ||| m := by simp [Common.setEvt, Common.evtWord]
/-- Every other write-1-to-clear register is as before. -/
theorem Common.setEvt_evtWord_ne (c : Common) {off o : Nat} (m : Word) (h : off ≠ o) :
    (c.setEvt off m).evtWord o = c.evtWord o := by
  simp only [Common.setEvt, Common.evtWord]; exact Tab.getD_put_ne _ _ _ h
/-- A write-1-to-clear register after a write of 1s (R15). -/
@[simp] theorem Common.clearEvt_evtWord (c : Common) (off : Nat) (m : Word) :
    (c.clearEvt off m).evtWord off = c.evtWord off &&& ~~~ m := by simp [Common.clearEvt, Common.evtWord]
@[simp] theorem Common.setEvt_time (c : Common) (off : Nat) (m : Word) : (c.setEvt off m).time = c.time := rfl
@[simp] theorem Common.clearEvt_time (c : Common) (off : Nat) (m : Word) : (c.clearEvt off m).time = c.time := rfl
@[simp] theorem State.setEvt_time (off : Nat) (m : Word) (k : Node) : (s.setEvt n off m).time k = s.time k := by
  cases n <;> cases k <;> rfl
@[simp] theorem State.setEvt_pending (off : Nat) (m : Word) : (s.setEvt n off m).pending = s.pending := by cases n <;> rfl

end Sys2Proof.Machine
end

