-- ==== Sys2Proof/Laws/Frame.lean ====
section
/-! SUPPORT. What the shared operations leave alone: the queue, the custody state, the fuse map, the pending-image
buffer, the standalone and PLL bits, and the clamp of the addends. -/

set_option linter.all false
set_option Elab.async false

namespace Sys2Proof.Machine

open Sys2Proof

/-- A time domain keeps its counter, its standalone and PLL bits and its always-on clock, and its addend stays within
the clamp of R45. -/
def TimeDom.Steady (t u : TimeDom) : Prop :=
  (u.counter, u.standalone, u.pllLocked, u.aon) = (t.counter, t.standalone, t.pllLocked, t.aon) ∧ (t.Clamped → u.Clamped)

/-- The TSU keeps its time domain steady. -/
def Tsu.Steady (t u : Tsu) : Prop := TimeDom.Steady t.com.time u.com.time ∧ u.tdHeld = t.tdHeld

/-- The custody state, the fuse map and the pending-image buffer of a distributor. -/
def Gd.kept (g : Gd) : (SealState × Bool × Nat × Bool × Bool × Nat) × (Variant × Nat × Nat × Nat) × Tab Word × Bool :=
  ((g.sealSt, g.ownerLock, g.sealAt, g.keysw, g.loopOk, g.loopAt), (g.variant, g.fabricMax, g.powerLimit, g.unitDis),
    g.treeBuf, g.powered)

/-- The distributor keeps its time domain steady, and what `Gd.kept` names. -/
def Gd.Steady (g h : Gd) : Prop := TimeDom.Steady g.com.time h.com.time ∧ h.kept = g.kept

/-- The operation from `s` to `t` leaves alone what these relations name. -/
structure Keeps (s t : State) : Prop where
  tsu : Tsu.Steady s.tsu t.tsu
  gd : Gd.Steady s.gd t.gd
  pending : t.pending = s.pending

/-- As `Keeps`, but for the counters, which may be stepped. -/
structure Guards (s t : State) : Prop where
  tsu : (t.tsu.com.time.standalone, t.tsu.com.time.pllLocked, t.tsu.com.time.aon, t.tsu.tdHeld)
    = (s.tsu.com.time.standalone, s.tsu.com.time.pllLocked, s.tsu.com.time.aon, s.tsu.tdHeld)
  gd : (t.gd.com.time.standalone, t.gd.com.time.pllLocked, t.gd.com.time.aon, t.gd.kept)
    = (s.gd.com.time.standalone, s.gd.com.time.pllLocked, s.gd.com.time.aon, s.gd.kept)
  clamped : s.Clamped → t.Clamped
  pending : t.pending = s.pending

/-- The fields of the fuse map that nothing in operation changes (R3, R418). -/
def Gd.fuses (g : Gd) : Variant × Nat × Nat × Nat := (g.variant, g.fabricMax, g.powerLimit, g.unitDis)

/-- What a chip reset and a change of the seal leave alone: the TSU, OWNER_LOCK, the fuse map, the queue, the clamp of
the addend and the form of the pending-image buffer. -/
structure Sound (s t : State) : Prop where
  tsu : Tsu.Steady s.tsu t.tsu
  clamped : s.gd.com.time.Clamped → t.gd.com.time.Clamped
  buf : Memory.wf s.gd.treeBuf → Memory.wf t.gd.treeBuf
  ownerLock : t.gd.ownerLock = s.gd.ownerLock
  fuses : t.gd.fuses = s.gd.fuses
  pending : t.pending = s.pending

/-- What every command leaves alone. -/
structure Formed (s t : State) : Prop where
  clamped : s.Clamped → t.Clamped
  buf : Memory.wf s.gd.treeBuf → Memory.wf t.gd.treeBuf
  fuses : t.gd.fuses = s.gd.fuses
  pending : t.pending = s.pending

theorem TimeDom.Steady.refl (t : TimeDom) : TimeDom.Steady t t := ⟨rfl, id⟩
theorem TimeDom.Steady.trans {t u v : TimeDom} (h : TimeDom.Steady t u) (k : TimeDom.Steady u v) : TimeDom.Steady t v :=
  ⟨k.1.trans h.1, k.2 ∘ h.2⟩

theorem Tsu.Steady.trans {t u v : Tsu} (h : Tsu.Steady t u) (k : Tsu.Steady u v) : Tsu.Steady t v :=
  ⟨h.1.trans k.1, k.2.trans h.2⟩
theorem Gd.Steady.refl (g : Gd) : Gd.Steady g g := ⟨.refl _, rfl⟩
theorem Gd.Steady.trans {t u v : Gd} (h : Gd.Steady t u) (k : Gd.Steady u v) : Gd.Steady t v :=
  ⟨h.1.trans k.1, k.2.trans h.2⟩

theorem Keeps.refl (s : State) : Keeps s s := ⟨⟨.refl _, rfl⟩, ⟨.refl _, rfl⟩, rfl⟩
theorem Keeps.trans {s t u : State} (h : Keeps s t) (k : Keeps t u) : Keeps s u :=
  ⟨⟨h.tsu.1.trans k.tsu.1, k.tsu.2.trans h.tsu.2⟩, ⟨h.gd.1.trans k.gd.1, k.gd.2.trans h.gd.2⟩, k.pending.trans h.pending⟩
theorem Guards.refl (s : State) : Guards s s := ⟨rfl, rfl, id, rfl⟩
theorem Guards.trans {s t u : State} (h : Guards s t) (k : Guards t u) : Guards s u :=
  ⟨k.tsu.trans h.tsu, k.gd.trans h.gd, k.clamped ∘ h.clamped, k.pending.trans h.pending⟩
theorem Guards.step {s t u : State} (k : Keeps t u) (h : Guards s t) : Guards s u := by
  obtain ⟨⟨a, c⟩, ⟨d, e⟩, f⟩ := k
  simp only [TimeDom.Steady, Prod.mk.injEq] at a d
  refine h.trans ⟨?_, ?_, fun hc => ⟨a.2 hc.1, d.2 hc.2⟩, f⟩ <;> simp [a, d, c, e]
theorem Guards.use {s t x : State} (h : Guards s x) (k : Guards s x → Guards s t) : Guards s t := k h
theorem Guards.ite {s a b : State} {c : Prop} [Decidable c] (h : Guards s a) (k : Guards s b) : Guards s (if c then a else b) := by
  split <;> assumption
theorem Guards.foldl {β : Type} {f : State → β → State} {l : List β} {s a : State}
    (h : ∀ x b, Guards x (f x b)) (ha : Guards s a) : Guards s (l.foldl f a) := by
  induction l generalizing a with
  | nil => exact ha
  | cons b l ih => exact ih (ha.trans (h _ _))
theorem Sound.refl (s : State) : Sound s s := ⟨⟨.refl _, rfl⟩, id, id, rfl, rfl, rfl⟩
theorem Sound.trans {s t u : State} (h : Sound s t) (k : Sound t u) : Sound s u :=
  ⟨h.tsu.trans k.tsu, k.clamped ∘ h.clamped, k.buf ∘ h.buf, k.ownerLock.trans h.ownerLock, k.fuses.trans h.fuses,
    k.pending.trans h.pending⟩
theorem Keeps.sound {s t : State} (h : Keeps s t) : Sound s t := by
  have hk := h.gd.2
  simp only [Gd.kept, Prod.mk.injEq] at hk
  refine ⟨h.tsu, h.gd.1.2, fun hw => ?_, ?_, ?_, h.pending⟩ <;> simp [Gd.fuses, hk]
  exact hw
theorem Sound.step {s t u : State} (k : Keeps t u) (h : Sound s t) : Sound s u := h.trans k.sound
theorem Sound.use {s t x : State} (h : Sound s x) (k : Sound s x → Sound s t) : Sound s t := k h
theorem Sound.ite {s a b : State} {c : Prop} [Decidable c] (h : Sound s a) (k : Sound s b) : Sound s (if c then a else b) := by
  split <;> assumption
theorem Sound.foldl {β : Type} {f : State → β → State} {l : List β} {s a : State}
    (h : ∀ x b, Sound x (f x b)) (ha : Sound s a) : Sound s (l.foldl f a) := by
  induction l generalizing a with
  | nil => exact ha
  | cons b l ih => exact ih (ha.trans (h _ _))
theorem Formed.refl (s : State) : Formed s s := ⟨id, id, rfl, rfl⟩
theorem Formed.trans {s t u : State} (h : Formed s t) (k : Formed t u) : Formed s u :=
  ⟨k.clamped ∘ h.clamped, k.buf ∘ h.buf, k.fuses.trans h.fuses, k.pending.trans h.pending⟩
theorem Sound.formed {s t : State} (h : Sound s t) : Formed s t :=
  ⟨fun c => ⟨h.tsu.1.2 c.1, h.clamped c.2⟩, h.buf, h.fuses, h.pending⟩
theorem Guards.formed {s t : State} (h : Guards s t) : Formed s t := by
  have hk := h.gd
  simp only [Gd.kept, Prod.mk.injEq] at hk
  refine ⟨h.clamped, fun hw => ?_, ?_, h.pending⟩ <;> simp [Gd.fuses, hk]
  exact hw
theorem Formed.step {s t u : State} (k : Formed t u) (h : Formed s t) : Formed s u := h.trans k
theorem Formed.use {s t x : State} (h : Formed s x) (k : Formed s x → Formed s t) : Formed s t := k h
theorem Formed.ite {s a b : State} {c : Prop} [Decidable c] (h : Formed s a) (k : Formed s b) : Formed s (if c then a else b) := by
  split <;> assumption
theorem Keeps.use {s t x : State} (h : Keeps s x) (k : Keeps s x → Keeps s t) : Keeps s t := k h
theorem Keeps.ite {s a b : State} {c : Prop} [Decidable c] (h : Keeps s a) (k : Keeps s b) : Keeps s (if c then a else b) := by
  split <;> assumption
theorem Keeps.ofPair {α : Type} {s a : State} {b : α} {p : State × α} (h : p = (a, b)) (k : Keeps s p.1) : Keeps s a := by
  subst h; exact k
theorem Keeps.foldl {β : Type} {f : State → β → State} {l : List β} {s a : State}
    (h : ∀ x b, Keeps x (f x b)) (ha : Keeps s a) : Keeps s (l.foldl f a) := by
  induction l generalizing a with
  | nil => exact ha
  | cons b l ih => exact ih (ha.trans (h _ _))


theorem Keeps.foldlFst {α β : Type} {f : State × α → β → State × α} {l : List β} {s : State} {a : State × α}
    (h : ∀ x b, Keeps x.1 (f x b).1) (ha : Keeps s a.1) : Keeps s (l.foldl f a).1 := by
  induction l generalizing a with
  | nil => exact ha
  | cons b l ih => exact ih (ha.trans (h _ _))

theorem State.updTsu_keeps {u s : State} {f : Tsu → Tsu} (h : ∀ t, Tsu.Steady t (f t)) (hs : Keeps u s) :
    Keeps u (s.updTsu f) := hs.trans ⟨h _, ⟨.refl _, rfl⟩, rfl⟩
theorem State.updGd_keeps {u s : State} {f : Gd → Gd} (h : ∀ g, Gd.Steady g (f g)) (hs : Keeps u s) :
    Keeps u (s.updGd f) := hs.trans ⟨⟨.refl _, rfl⟩, h _, rfl⟩
theorem State.updCom_keeps {u s : State} {n : Node} {f : Common → Common}
    (h : ∀ c, TimeDom.Steady c.time (f c).time) (hs : Keeps u s) : Keeps u (s.updCom n f) := by
  refine hs.trans ?_
  cases n
  · exact ⟨⟨h _, rfl⟩, ⟨.refl _, rfl⟩, rfl⟩
  · exact ⟨⟨.refl _, rfl⟩, ⟨h _, rfl⟩, rfl⟩
theorem State.updTime_keeps {u s : State} {n : Node} {f : TimeDom → TimeDom} (h : ∀ t, TimeDom.Steady t (f t))
    (hs : Keeps u s) : Keeps u (s.updTime n f) := State.updCom_keeps (fun c => h c.time) hs
theorem State.updLink_keeps {u s : State} {l : LinkId} {f : Link → Link} (hs : Keeps u s) : Keeps u (s.updLink l f) :=
  State.updCom_keeps (fun _ => .refl _) hs
theorem State.updSrc_keeps {u s : State} {l : LinkId} {f : TimeSrc → TimeSrc} (hs : Keeps u s) :
    Keeps u (s.updSrc l f) := State.updCom_keeps (fun _ => .refl _) hs
theorem State.updRegion_keeps {u s : State} {r : Nat} {f : Region → Region} (hs : Keeps u s) :
    Keeps u (s.updRegion r f) := State.updTsu_keeps (fun _ => ⟨.refl _, rfl⟩) hs
theorem State.takeFresh_keeps {u s : State} (hs : Keeps u s) : Keeps u s.takeFresh :=
  hs.trans ⟨⟨.refl _, rfl⟩, ⟨.refl _, rfl⟩, rfl⟩

theorem State.updTsu_guards {u s : State} {f : Tsu → Tsu} (h : ∀ t, Tsu.Steady t (f t)) (hs : Guards u s) :
    Guards u (s.updTsu f) := Guards.step (State.updTsu_keeps h (Keeps.refl _)) hs
theorem State.updGd_guards {u s : State} {f : Gd → Gd} (h : ∀ g, Gd.Steady g (f g)) (hs : Guards u s) :
    Guards u (s.updGd f) := Guards.step (State.updGd_keeps h (Keeps.refl _)) hs
theorem State.updCom_guards {u s : State} {n : Node} {f : Common → Common}
    (h : ∀ c, TimeDom.Steady c.time (f c).time) (hs : Guards u s) : Guards u (s.updCom n f) :=
  Guards.step (State.updCom_keeps h (Keeps.refl _)) hs
theorem State.updTime_guards {u s : State} {n : Node} {f : TimeDom → TimeDom} (h : ∀ t, TimeDom.Steady t (f t))
    (hs : Guards u s) : Guards u (s.updTime n f) := Guards.step (State.updTime_keeps h (Keeps.refl _)) hs
theorem State.updLink_guards {u s : State} {l : LinkId} {f : Link → Link} (hs : Guards u s) : Guards u (s.updLink l f) :=
  Guards.step (State.updLink_keeps (Keeps.refl _)) hs
theorem State.updSrc_guards {u s : State} {l : LinkId} {f : TimeSrc → TimeSrc} (hs : Guards u s) :
    Guards u (s.updSrc l f) := Guards.step (State.updSrc_keeps (Keeps.refl _)) hs

theorem Common.setEvt_steady (c : Common) (o : Nat) (m : Word) : TimeDom.Steady c.time (c.setEvt o m).time := .refl _
theorem Common.clearEvt_steady (c : Common) (o : Nat) (m : Word) : TimeDom.Steady c.time (c.clearEvt o m).time := .refl _
theorem Common.raiseVector_time (c : Common) (v : Nat) : (c.raiseVector v).time = c.time := by
  unfold Common.raiseVector; split <;> rfl
theorem Common.setIrq_time (c : Common) (m : Word) : (c.setIrq m).time = c.time := by
  unfold Common.setIrq; simp only []; split
  · rw [Common.raiseVector_time]; rfl
  · rfl
theorem Common.accessErr_time (c : Common) (b o : Nat) : (c.accessErr b o).time = c.time := by
  unfold Common.accessErr; rw [Common.setIrq_time]; rfl
theorem Common.record_time (c : Common) (cap off : Nat) (ovf : Word) (code source detail : Nat) (slice : Option Nat) :
    (c.record cap off ovf code source detail slice).time = c.time := by
  unfold Common.record
  split
  · rw [Common.setIrq_time]
  · split
    · rw [Common.setIrq_time]; rfl
    · rw [Common.setIrq_time]
theorem Common.raiseVector_steady (c : Common) (v : Nat) : TimeDom.Steady c.time (c.raiseVector v).time := by
  rw [Common.raiseVector_time]; exact .refl _
theorem Common.setIrq_steady (c : Common) (m : Word) : TimeDom.Steady c.time (c.setIrq m).time := by
  rw [Common.setIrq_time]; exact .refl _
theorem Common.accessErr_steady (c : Common) (b o : Nat) : TimeDom.Steady c.time (c.accessErr b o).time := by
  rw [Common.accessErr_time]; exact .refl _
theorem Common.record_steady (c : Common) (cap off : Nat) (ovf : Word) (code source detail : Nat) (slice : Option Nat) :
    TimeDom.Steady c.time (c.record cap off ovf code source detail slice).time := by
  rw [Common.record_time]; exact .refl _

theorem Gd.journalWrite_steady (g : Gd) (k c s : Nat) (b : List Byte) : Gd.Steady g (g.journalWrite k c s b) := by
  unfold Gd.journalWrite; simp only []; repeat' split
  all_goals exact ⟨.refl _, rfl⟩

theorem Gd.hold_steady (g : Gd) (aon : Nat) : Gd.Steady g (g.hold aon) := by
  unfold Gd.hold; split <;> exact ⟨.refl _, rfl⟩

theorem State.noteChange_keeps {u s : State} {c : Bool} (hs : Keeps u s) : Keeps u (s.noteChange c) := by
  unfold State.noteChange
  split
  · exact State.updGd_keeps (fun g => Gd.journalWrite_steady ..) hs
  · exact hs
theorem State.updTimeQ_keeps {u s : State} {n : Node} {f : TimeDom → TimeDom} (h : ∀ t, TimeDom.Steady t (f t))
    (hs : Keeps u s) : Keeps u (s.updTimeQ n f) := State.noteChange_keeps (State.updTime_keeps h hs)
theorem State.updRef_keeps {u s : State} {f : RefSel → RefSel} (hs : Keeps u s) : Keeps u (s.updRef f) := by
  unfold State.updRef
  exact State.noteChange_keeps (State.updGd_keeps (fun _ => ⟨.refl _, rfl⟩) hs)
theorem State.updRefSrc_keeps {u s : State} {src : Nat} {f : RefSrc → RefSrc} (hs : Keeps u s) :
    Keeps u (s.updRefSrc src f) := by
  unfold State.updRefSrc
  exact State.noteChange_keeps (State.updGd_keeps (fun _ => ⟨.refl _, rfl⟩) hs)
theorem State.updTimeQ_guards {u s : State} {n : Node} {f : TimeDom → TimeDom} (h : ∀ t, TimeDom.Steady t (f t))
    (hs : Guards u s) : Guards u (s.updTimeQ n f) := Guards.step (State.updTimeQ_keeps h (Keeps.refl _)) hs
theorem State.updRef_guards {u s : State} {f : RefSel → RefSel} (hs : Guards u s) : Guards u (s.updRef f) :=
  Guards.step (State.updRef_keeps (Keeps.refl _)) hs
theorem State.updRefSrc_guards {u s : State} {src : Nat} {f : RefSrc → RefSrc} (hs : Guards u s) :
    Guards u (s.updRefSrc src f) := Guards.step (State.updRefSrc_keeps (Keeps.refl _)) hs
theorem State.updTsu_sound {u s : State} {f : Tsu → Tsu} (h : ∀ t, Tsu.Steady t (f t)) (hs : Sound u s) : Sound u (s.updTsu f) :=
  Sound.step (State.updTsu_keeps h (Keeps.refl _)) hs
theorem State.updGd_sound {u s : State} {f : Gd → Gd} (h : ∀ g, Gd.Steady g (f g)) (hs : Sound u s) : Sound u (s.updGd f) :=
  Sound.step (State.updGd_keeps h (Keeps.refl _)) hs
theorem State.updCom_sound {u s : State} {n : Node} {f : Common → Common} (h : ∀ c, TimeDom.Steady c.time (f c).time) (hs : Sound u s) : Sound u (s.updCom n f) :=
  Sound.step (State.updCom_keeps h (Keeps.refl _)) hs
theorem State.updTime_sound {u s : State} {n : Node} {f : TimeDom → TimeDom} (h : ∀ t, TimeDom.Steady t (f t)) (hs : Sound u s) : Sound u (s.updTime n f) :=
  Sound.step (State.updTime_keeps h (Keeps.refl _)) hs
theorem State.updTimeQ_sound {u s : State} {n : Node} {f : TimeDom → TimeDom} (h : ∀ t, TimeDom.Steady t (f t)) (hs : Sound u s) : Sound u (s.updTimeQ n f) :=
  Sound.step (State.updTimeQ_keeps h (Keeps.refl _)) hs
theorem State.updLink_sound {u s : State} {l : LinkId} {f : Link → Link} (hs : Sound u s) : Sound u (s.updLink l f) :=
  Sound.step (State.updLink_keeps (Keeps.refl _)) hs
theorem State.updSrc_sound {u s : State} {l : LinkId} {f : TimeSrc → TimeSrc} (hs : Sound u s) : Sound u (s.updSrc l f) :=
  Sound.step (State.updSrc_keeps (Keeps.refl _)) hs
theorem State.updRegion_sound {u s : State} {r : Nat} {f : Region → Region} (hs : Sound u s) : Sound u (s.updRegion r f) :=
  Sound.step (State.updRegion_keeps (Keeps.refl _)) hs
theorem State.takeFresh_sound {u s : State}  (hs : Sound u s) : Sound u (s.takeFresh ) :=
  Sound.step (State.takeFresh_keeps (Keeps.refl _)) hs
theorem State.updRef_sound {u s : State} {f : RefSel → RefSel} (hs : Sound u s) : Sound u (s.updRef f) :=
  Sound.step (State.updRef_keeps (Keeps.refl _)) hs
theorem State.updRefSrc_sound {u s : State} {src : Nat} {f : RefSrc → RefSrc} (hs : Sound u s) : Sound u (s.updRefSrc src f) :=
  Sound.step (State.updRefSrc_keeps (Keeps.refl _)) hs
theorem State.updTsu_formed {u s : State} {f : Tsu → Tsu} (h : ∀ t, Tsu.Steady t (f t)) (hs : Formed u s) : Formed u (s.updTsu f) :=
  Formed.step (State.updTsu_keeps h (Keeps.refl _)).sound.formed hs
theorem State.updGd_formed {u s : State} {f : Gd → Gd} (h : ∀ g, Gd.Steady g (f g)) (hs : Formed u s) : Formed u (s.updGd f) :=
  Formed.step (State.updGd_keeps h (Keeps.refl _)).sound.formed hs
theorem State.updCom_formed {u s : State} {n : Node} {f : Common → Common} (h : ∀ c, TimeDom.Steady c.time (f c).time)
    (hs : Formed u s) : Formed u (s.updCom n f) := Formed.step (State.updCom_keeps h (Keeps.refl _)).sound.formed hs

/-- The addend asked for is clamped (R45). -/
theorem clampAddend_clamped (a : Int) : addendMin ≤ clampAddend a ∧ clampAddend a ≤ addendMax := by
  have h1 : addendMin = 0x1FFF2E48F := rfl
  have h2 : addendMax = 0x2000D1B71 := rfl
  unfold clampAddend clampInt
  split
  · omega
  · split <;> omega

theorem addendNominal_clamped : addendMin ≤ addendNominal ∧ addendNominal ≤ addendMax := by decide

theorem State.after_next (s t : State) : s.after (.next t) = t := rfl

theorem TimeDom.addend_steady (t : TimeDom) (a : Int) : TimeDom.Steady t { t with addend := clampAddend a } :=
  ⟨rfl, fun _ => clampAddend_clamped a⟩

/-- The servo's corrections stay within the clamp (R45, R79). -/
theorem TimeDom.servo_steady (t : TimeDom) (slew : Int) (kp ki : Nat) (theta : Int) :
    TimeDom.Steady t (t.servo slew kp ki theta) := by
  unfold TimeDom.servo
  split
  · refine ⟨rfl, fun _ => ?_⟩
    simp only [TimeDom.Clamped]; split <;> decide
  · exact ⟨rfl, fun _ => clampAddend_clamped _⟩

theorem State.bootMsLatch_keeps {u s : State} {n : Node} (hs : Keeps u s) : Keeps u (s.bootMsLatch n) := by
  refine hs.trans ?_
  unfold State.bootMsLatch
  simp only []
  split
  · exact .refl _
  · cases n
    · exact ⟨⟨.refl _, rfl⟩, ⟨.refl _, rfl⟩, rfl⟩
    · exact ⟨⟨.refl _, rfl⟩, ⟨.refl _, rfl⟩, rfl⟩

theorem State.policyDo_keeps {u s : State} {f : Nat → Gd → Gd} (h : ∀ n g, Gd.Steady g (f n g)) (hs : Keeps u s) :
    Keeps u (s.policyDo f) := by
  unfold State.policyDo
  split
  · exact State.updGd_keeps (h _) hs
  · exact State.updCom_keeps (fun c => Common.accessErr_steady ..) hs

theorem State.irqEdge_keeps {u s0 s : State} {n : Node} (hs : Keeps u s) : Keeps u (State.irqEdge s0 s n) := by
  unfold State.irqEdge
  split
  · exact State.updCom_keeps (fun c => Common.raiseVector_steady ..) hs
  · exact hs

end Sys2Proof.Machine
end

