-- ==== Sys2Proof/Laws/Apart.lean ====
section
/-! SUPPORT. What the shared operations of one part leave alone: the other part, and that part's time domain. -/

namespace Sys2Proof.Machine

open Sys2Proof

/-- The part that is not the named one. -/
def State.away (s : State) : Node → Tsu ⊕ Gd
  | .tsu => .inr s.gd
  | .gd => .inl s.tsu

/-- The operation from `s` to `t` acts at the part `n` only. -/
structure Apart (n : Node) (s t : State) : Prop where
  away : t.away n = s.away n

/-- The operation from `s` to `t` acts at the part `n` only, and leaves its time domain alone. -/
structure Quiet (n : Node) (s t : State) : Prop where
  away : t.away n = s.away n
  time : t.time n = s.time n

theorem Apart.gd {s t : State} (h : Apart .tsu s t) : t.gd = s.gd := Sum.inr.inj h.away
theorem Apart.tsu {s t : State} (h : Apart .gd s t) : t.tsu = s.tsu := Sum.inl.inj h.away
theorem Quiet.apart {n : Node} {s t : State} (h : Quiet n s t) : Apart n s t := ⟨h.away⟩
theorem Quiet.refl {n : Node} (s : State) : Quiet n s s := ⟨rfl, rfl⟩
theorem Apart.refl {n : Node} (s : State) : Apart n s s := ⟨rfl⟩
theorem Quiet.trans {n : Node} {s t u : State} (h : Quiet n s t) (k : Quiet n t u) : Quiet n s u :=
  ⟨k.away.trans h.away, k.time.trans h.time⟩
theorem Apart.trans {n : Node} {s t u : State} (h : Apart n s t) (k : Apart n t u) : Apart n s u :=
  ⟨k.away.trans h.away⟩
theorem Apart.step {n : Node} {s t u : State} (k : Quiet n t u) (h : Apart n s t) : Apart n s u := h.trans k.apart
theorem Quiet.use {n : Node} {s t x : State} (h : Quiet n s x) (k : Quiet n s x → Quiet n s t) : Quiet n s t := k h
theorem Apart.use {n : Node} {s t x : State} (h : Apart n s x) (k : Apart n s x → Apart n s t) : Apart n s t := k h
theorem Quiet.ite {n : Node} {s a b : State} {c : Prop} [Decidable c] (h : c → Quiet n s a) (k : ¬ c → Quiet n s b) :
    Quiet n s (if c then a else b) := by
  split
  · exact h ‹_›
  · exact k ‹_›
theorem Apart.ite {n : Node} {s a b : State} {c : Prop} [Decidable c] (h : c → Apart n s a) (k : ¬ c → Apart n s b) :
    Apart n s (if c then a else b) := by
  split
  · exact h ‹_›
  · exact k ‹_›
theorem Quiet.ofPair {n : Node} {α : Type} {s a : State} {b : α} {p : State × α} (h : p = (a, b)) (k : Quiet n s p.1) :
    Quiet n s a := by
  subst h; exact k
theorem Apart.ofPair {n : Node} {α : Type} {s a : State} {b : α} {p : State × α} (h : p = (a, b)) (k : Apart n s p.1) :
    Apart n s a := by
  subst h; exact k
theorem Quiet.foldl {n : Node} {β : Type} {f : State → β → State} {l : List β} {s a : State}
    (h : ∀ x b, Quiet n x (f x b)) (ha : Quiet n s a) : Quiet n s (l.foldl f a) := by
  induction l generalizing a with
  | nil => exact ha
  | cons b l ih => exact ih (ha.trans (h _ _))
theorem Apart.foldl {n : Node} {β : Type} {f : State → β → State} {l : List β} {s a : State}
    (h : ∀ x b, Apart n x (f x b)) (ha : Apart n s a) : Apart n s (l.foldl f a) := by
  induction l generalizing a with
  | nil => exact ha
  | cons b l ih => exact ih (ha.trans (h _ _))
theorem Quiet.foldlFst {n : Node} {α β : Type} {f : State × α → β → State × α} {l : List β} {s : State} {a : State × α}
    (h : ∀ x b, Quiet n x.1 (f x b).1) (ha : Quiet n s a.1) : Quiet n s (l.foldl f a).1 := by
  induction l generalizing a with
  | nil => exact ha
  | cons b l ih => exact ih (ha.trans (h _ _))
theorem Apart.foldlFst {n : Node} {α β : Type} {f : State × α → β → State × α} {l : List β} {s : State} {a : State × α}
    (h : ∀ x b, Apart n x.1 (f x b).1) (ha : Apart n s a.1) : Apart n s (l.foldl f a).1 := by
  induction l generalizing a with
  | nil => exact ha
  | cons b l ih => exact ih (ha.trans (h _ _))

theorem State.updTsu_quiet {n : Node} {u s : State} {f : Tsu → Tsu} (hn : n = .tsu) (h : ∀ t, (f t).com.time = t.com.time)
    (hs : Quiet n u s) : Quiet n u (s.updTsu f) := by
  subst hn; exact hs.trans ⟨rfl, h _⟩
theorem State.updGd_quiet {n : Node} {u s : State} {f : Gd → Gd} (hn : n = .gd) (h : ∀ g, (f g).com.time = g.com.time)
    (hs : Quiet n u s) : Quiet n u (s.updGd f) := by
  subst hn; exact hs.trans ⟨rfl, h _⟩
theorem State.updCom_quiet {n m : Node} {u s : State} {f : Common → Common} (hn : m = n) (h : ∀ c, (f c).time = c.time)
    (hs : Quiet n u s) : Quiet n u (s.updCom m f) := by
  subst hn; cases m <;> exact hs.trans ⟨rfl, h _⟩
theorem State.updLink_quiet {n : Node} {u s : State} {l : LinkId} {f : Link → Link} (hn : l.node = n) (hs : Quiet n u s) :
    Quiet n u (s.updLink l f) := State.updCom_quiet hn (fun _ => rfl) hs
theorem State.updSrc_quiet {n : Node} {u s : State} {l : LinkId} {f : TimeSrc → TimeSrc} (hn : l.node = n) (hs : Quiet n u s) :
    Quiet n u (s.updSrc l f) := State.updCom_quiet hn (fun _ => rfl) hs
theorem State.updRegion_quiet {n : Node} {u s : State} {r : Nat} {f : Region → Region} (hn : n = .tsu) (hs : Quiet n u s) :
    Quiet n u (s.updRegion r f) := State.updTsu_quiet hn (fun _ => rfl) hs
theorem State.takeFresh_quiet {n : Node} {u s : State} (hs : Quiet n u s) : Quiet n u s.takeFresh := by
  cases n <;> exact hs.trans ⟨rfl, rfl⟩

theorem State.updTsu_apart {n : Node} {u s : State} {f : Tsu → Tsu} (hn : n = .tsu)
    (hs : Apart n u s) : Apart n u (s.updTsu f) := by
  subst hn; exact hs.trans ⟨rfl⟩
theorem State.updGd_apart {n : Node} {u s : State} {f : Gd → Gd} (hn : n = .gd)
    (hs : Apart n u s) : Apart n u (s.updGd f) := by
  subst hn; exact hs.trans ⟨rfl⟩
theorem State.updCom_apart {n m : Node} {u s : State} {f : Common → Common} (hn : m = n)
    (hs : Apart n u s) : Apart n u (s.updCom m f) := by
  subst hn; cases m <;> exact hs.trans ⟨rfl⟩
theorem State.updTime_apart {n m : Node} {u s : State} {f : TimeDom → TimeDom} (hn : m = n)
    (hs : Apart n u s) : Apart n u (s.updTime m f) := State.updCom_apart hn hs
theorem State.updLink_apart {n : Node} {u s : State} {l : LinkId} {f : Link → Link} (hn : l.node = n) (hs : Apart n u s) :
    Apart n u (s.updLink l f) := State.updCom_apart hn hs
theorem State.updSrc_apart {n : Node} {u s : State} {l : LinkId} {f : TimeSrc → TimeSrc} (hn : l.node = n) (hs : Apart n u s) :
    Apart n u (s.updSrc l f) := State.updCom_apart hn hs
theorem State.updRegion_apart {n : Node} {u s : State} {r : Nat} {f : Region → Region} (hn : n = .tsu) (hs : Apart n u s) :
    Apart n u (s.updRegion r f) := State.updTsu_apart hn hs
theorem State.takeFresh_apart {n : Node} {u s : State} (hs : Apart n u s) : Apart n u s.takeFresh := by
  cases n <;> exact hs.trans ⟨rfl⟩

theorem Gd.journalWrite_time (g : Gd) (k c s : Nat) (b : List Byte) : (g.journalWrite k c s b).com.time = g.com.time := by
  unfold Gd.journalWrite; simp only []; repeat' split
  all_goals rfl
theorem Gd.hold_time (g : Gd) (aon : Nat) : (g.hold aon).com.time = g.com.time := by
  unfold Gd.hold; split <;> rfl
theorem State.noteChange_quiet {n : Node} {u s : State} {c : Bool} (hn : c = true → n = .gd) (hs : Quiet n u s) :
    Quiet n u (s.noteChange c) := by
  unfold State.noteChange
  exact Quiet.ite (fun h => State.updGd_quiet (hn h) (fun g => Gd.journalWrite_time ..) hs) (fun _ => hs)
theorem State.updTimeQ_apart {n m : Node} {u s : State} {f : TimeDom → TimeDom} (hn : m = n)
    (hs : Apart n u s) : Apart n u (s.updTimeQ m f) := by
  subst hn
  refine Apart.step (State.noteChange_quiet ?_ (.refl _)) (State.updTime_apart rfl hs)
  intro h; simp at h; exact h.1
theorem State.updRef_quiet {n : Node} {u s : State} {f : RefSel → RefSel} (hn : n = .gd) (hs : Quiet n u s) :
    Quiet n u (s.updRef f) := State.noteChange_quiet (fun _ => hn) (State.updGd_quiet hn (fun _ => rfl) hs)
theorem State.updRefSrc_quiet {n : Node} {u s : State} {src : Nat} {f : RefSrc → RefSrc} (hn : n = .gd) (hs : Quiet n u s) :
    Quiet n u (s.updRefSrc src f) := State.noteChange_quiet (fun _ => hn) (State.updGd_quiet hn (fun _ => rfl) hs)
theorem State.updRef_apart {n : Node} {u s : State} {f : RefSel → RefSel} (hn : n = .gd) (hs : Apart n u s) :
    Apart n u (s.updRef f) := Apart.step (State.updRef_quiet hn (.refl _)) hs
theorem State.updRefSrc_apart {n : Node} {u s : State} {src : Nat} {f : RefSrc → RefSrc} (hn : n = .gd) (hs : Apart n u s) :
    Apart n u (s.updRefSrc src f) := Apart.step (State.updRefSrc_quiet hn (.refl _)) hs
theorem State.bootMsLatch_quiet {n m : Node} {u s : State} (hn : m = n) (hs : Quiet n u s) : Quiet n u (s.bootMsLatch m) := by
  subst hn
  refine hs.trans ?_
  unfold State.bootMsLatch
  simp only []
  split
  · exact .refl _
  · cases m <;> exact ⟨rfl, rfl⟩
theorem State.policyDo_quiet {n : Node} {u s : State} {f : Nat → Gd → Gd} (hn : n = .gd) (h : ∀ n g, (f n g).com.time = g.com.time)
    (hs : Quiet n u s) : Quiet n u (s.policyDo f) := by
  unfold State.policyDo
  split
  · exact State.updGd_quiet hn (h _) hs
  · exact State.updCom_quiet hn.symm (fun c => Common.accessErr_time ..) hs
theorem State.irqEdge_quiet {n m : Node} {u s0 s : State} (hn : m = n) (hs : Quiet n u s) : Quiet n u (State.irqEdge s0 s m) := by
  unfold State.irqEdge
  split
  · exact State.updCom_quiet hn (fun c => Common.raiseVector_time ..) hs
  · exact hs

end Sys2Proof.Machine
end

