-- ==== Sys2Proof/Laws/ApartOps.lean ====
section
/-! SUPPORT. Which part the operations of `Sys2Proof.Machine.Ops` act at, and whether they leave its time alone. -/

namespace Sys2Proof.Machine

open Sys2Proof

set_option linter.unusedVariables false

end Sys2Proof.Machine
end

