-- ==== Sys2Proof/Laws/ApartFlags.lean ====
section
/-! SUPPORT. Which part the operations of `Sys2Proof.Machine.Flags` act at, and whether they leave its time alone. -/

namespace Sys2Proof.Machine

open Sys2Proof

set_option linter.unusedVariables false

theorem State.logT_quiet {nd : Node} {u : State} {s : State} {code : ErrCode} {source : Nat} {detail : Nat} {slice : Option Nat} (hn : nd = .tsu) (hs : Quiet nd u s) : Quiet nd u ((State.logT (s) (code) (source) (detail) (slice))) := by
  subst hn
  refine Quiet.trans hs ?_
  unfold State.logT
  repeat' first
    | with_reducible exact Quiet.refl _
    | with_reducible assumption
    | with_reducible rfl
    | (intro x; (refine Quiet.use (x := x) ?_ (fun hx => ?_); rotate_left; clear_value x; rotate_right; subst x))
    | lift_lets -underBinder
    | ((with_reducible apply State.updTsu_quiet); rotate_left; focus (intro t; rfl))
    | ((with_reducible apply State.updCom_quiet); rotate_left; focus (intro t; first | rfl | exact Common.record_time ..))
    | split

theorem State.logRaw_quiet {nd : Node} {u : State} {s : State} {code source detail : Nat} (hn : nd = .gd) (hs : Quiet nd u s) : Quiet nd u ((State.logRaw (s) (code) (source) (detail))) := by
  subst hn
  refine Quiet.trans hs ?_
  unfold State.logRaw
  repeat' first
    | with_reducible exact Quiet.refl _
    | with_reducible assumption
    | with_reducible rfl
    | (intro x; (refine Quiet.use (x := x) ?_ (fun hx => ?_); rotate_left; clear_value x; rotate_right; subst x))
    | lift_lets -underBinder
    | ((with_reducible apply State.updGd_quiet); rotate_left; focus (intro t; exact Gd.journalWrite_time ..))
    | ((with_reducible apply State.updCom_quiet); rotate_left; focus (intro t; exact Common.record_time ..))

theorem State.logG_quiet {nd : Node} {u : State} {s : State} {code : ErrCode} {source : Nat} {detail : Nat} (hn : nd = .gd) (hs : Quiet nd u s) : Quiet nd u ((State.logG (s) (code) (source) (detail))) := by
  subst hn
  refine Quiet.trans hs ?_
  unfold State.logG
  repeat' first
    | with_reducible exact Quiet.refl _
    | with_reducible assumption
    | with_reducible rfl
    | (intro x; (refine Quiet.use (x := x) ?_ (fun hx => ?_); rotate_left; clear_value x; rotate_right; subst x))
    | lift_lets -underBinder
    | with_reducible apply State.logRaw_quiet
    | ((with_reducible apply State.updCom_quiet); rotate_left; focus (intro t; rfl))
    | split

theorem State.log_quiet {nd : Node} {u : State} {s : State} {n : Node} {code : ErrCode} {source : Nat} {detail : Nat} (h_n : n = nd) (hs : Quiet nd u s) : Quiet nd u ((State.log (s) (n) (code) (source) (detail))) := by
  refine Quiet.trans hs ?_
  unfold State.log
  repeat' first
    | with_reducible exact Quiet.refl _
    | (with_reducible refine (?_ : (_ : Node) = _); first | rfl | assumption | (simp_all only []; done) | (simp_all; done) | (cases nd <;> simp_all; done))
    | with_reducible apply State.logG_quiet
    | with_reducible apply State.logT_quiet
    | split

theorem State.cycleEnd_quiet {nd : Node} {u : State} {s : State} {n : Node} (h_n : n = nd) (hs : Quiet nd u s) : Quiet nd u ((State.cycleEnd (s) (n))) := by
  refine Quiet.trans hs ?_
  unfold State.cycleEnd
  repeat' first
    | with_reducible exact Quiet.refl _
    | with_reducible assumption
    | ((with_reducible apply State.updCom_quiet); rotate_left; focus (intro t; rfl))

theorem State.setEvt_quiet {nd : Node} {u : State} {s : State} {n : Node} {off : Nat} {mask : Word} (h_n : n = nd) (hs : Quiet nd u s) : Quiet nd u ((State.setEvt (s) (n) (off) (mask))) := by
  refine Quiet.trans hs ?_
  unfold State.setEvt
  repeat' first
    | with_reducible exact Quiet.refl _
    | with_reducible assumption
    | ((with_reducible apply State.updCom_quiet); rotate_left; focus (intro t; rfl))

theorem State.custodyRefused_quiet {nd : Node} {u : State} {s : State} {off : Nat} (hn : nd = .gd) (hs : Quiet nd u s) : Quiet nd u ((State.custodyRefused (s) (off))) := by
  subst hn
  refine Quiet.trans hs ?_
  unfold State.custodyRefused
  repeat' first
    | with_reducible exact Quiet.refl _
    | with_reducible rfl
    | lift_lets -underBinder
    | with_reducible apply State.logG_quiet
    | ((with_reducible apply State.updCom_quiet); rotate_left; focus (intro t; exact Common.accessErr_time ..))

theorem State.noteWrite_quiet {nd : Node} {u s : State} {acc : Access} {off : Nat} (hn : nd = .gd) (hs : Quiet nd u s) :
    Quiet nd u (s.noteWrite acc off) := by
  unfold State.noteWrite
  refine State.updCom_quiet hn.symm (fun c => ?_) hs
  by_cases h : acc.same ∧ acc.master = 1 ∧ c.lastWr = some (off, 0)
  · simp only [h, if_true, and_self]; exact Common.accessErr_time ..
  · rw [if_neg h]

theorem State.gdWrite_quiet {nd : Node} {u : State} {s : State} {acc : Access} {off : Nat} {custody : Bool} {f : State → State} (k_f : ∀ x, Quiet nd x (f x)) (hn : nd = .gd) (hs : Quiet nd u s) : Quiet nd u ((State.gdWrite (s) (acc) (off) (custody) (f))) := by
  subst hn
  refine Quiet.trans hs ?_
  unfold State.gdWrite
  repeat' first
    | with_reducible exact Quiet.refl _
    | with_reducible rfl
    | intro x
    | lift_lets -underBinder
    | with_reducible apply Quiet.ite
    | with_reducible apply State.custodyRefused_quiet
    | with_reducible apply State.noteWrite_quiet
    | with_reducible refine Quiet.trans ?_ (k_f _)
    | ((with_reducible apply State.updCom_quiet); rotate_left; focus (intro t; first | rfl | exact Common.accessErr_time ..))

theorem State.gdWrite_apart {nd : Node} {u : State} {s : State} {acc : Access} {off : Nat} {custody : Bool} {f : State → State} (k_f : ∀ x, Apart nd x (f x)) (hn : nd = .gd) (hs : Apart nd u s) : Apart nd u ((State.gdWrite (s) (acc) (off) (custody) (f))) := by
  subst hn
  refine Apart.trans hs ?_
  unfold State.gdWrite
  repeat' first
    | with_reducible exact Apart.refl _
    | with_reducible rfl
    | intro x
    | lift_lets -underBinder
    | with_reducible apply Apart.ite
    | with_reducible apply Apart.step (State.custodyRefused_quiet ?_ (Quiet.refl _))
    | with_reducible apply Apart.step (State.noteWrite_quiet ?_ (Quiet.refl _))
    | with_reducible refine Apart.trans ?_ (k_f _)
    | with_reducible apply State.updCom_apart
    | split

theorem State.portPage_quiet {nd : Node} {u : State} {s : State} {p off : Nat} {f : State → State} (k_f : ∀ x, Quiet nd x (f x)) (hn : nd = .gd) (hs : Quiet nd u s) : Quiet nd u ((State.portPage (s) (p) (off) (f))) := by
  subst hn
  refine Quiet.trans hs ?_
  unfold State.portPage
  repeat' first
    | with_reducible exact Quiet.refl _
    | with_reducible rfl
    | intro x
    | lift_lets -underBinder
    | with_reducible apply Quiet.ite
    | with_reducible refine Quiet.trans ?_ (k_f _)
    | ((with_reducible apply State.updCom_quiet); rotate_left; focus (intro t; first | rfl | exact Common.accessErr_time ..))

theorem State.portPage_apart {nd : Node} {u : State} {s : State} {p off : Nat} {f : State → State} (k_f : ∀ x, Apart nd x (f x)) (hn : nd = .gd) (hs : Apart nd u s) : Apart nd u ((State.portPage (s) (p) (off) (f))) := by
  subst hn
  refine Apart.trans hs ?_
  unfold State.portPage
  repeat' first
    | with_reducible exact Apart.refl _
    | with_reducible rfl
    | intro x
    | lift_lets -underBinder
    | with_reducible apply Apart.ite
    | with_reducible refine Apart.trans ?_ (k_f _)
    | with_reducible apply State.updCom_apart
    | split

end Sys2Proof.Machine
end

