-- ==== Sys2Proof/Laws/ApartOperands.lean ====
section
/-! SUPPORT. Which part the operations of `Sys2Proof.Machine.Operands` act at, and whether they leave its time alone. -/

namespace Sys2Proof.Machine

open Sys2Proof

set_option linter.unusedVariables false

theorem State.setReg_quiet {nd : Node} {u : State} {s : State} {n : Node} {off : Nat} {w : Word} (h_n : n = nd) (hs : Quiet nd u s) : Quiet nd u ((State.setReg (s) (n) (off) (w))) := by
  refine Quiet.trans hs ?_
  unfold State.setReg
  repeat' first
    | with_reducible exact Quiet.refl _
    | with_reducible assumption
    | ((with_reducible apply State.updCom_quiet); rotate_left; focus (intro t; rfl))

end Sys2Proof.Machine
end

