-- ==== Sys2Proof/Laws/ApartSendOps.lean ====
section
/-! SUPPORT. Which part the operations of `Sys2Proof.Machine.SendOps` act at, and whether they leave its time alone. -/

namespace Sys2Proof.Machine

open Sys2Proof

set_option linter.unusedVariables false

theorem State.send_quiet {nd : Node} {u : State} {s : State} {l : LinkId} {cls key : Nat} {msg : List Frame} (h_l : l.node = nd) (hs : Quiet nd u s) : Quiet nd u ((State.send (s) (l) (cls) (key) (msg))) := by
  refine Quiet.trans hs ?_
  unfold State.send
  repeat' first
    | with_reducible exact Quiet.refl _
    | with_reducible assumption
    | (intro x; first | clear_value x | skip)
    | lift_lets -underBinder
    | with_reducible apply Quiet.ite
    | ((with_reducible apply State.updCom_quiet); rotate_left; focus (intro t; rfl))
    | with_reducible apply State.updLink_quiet

theorem State.sendAll_quiet {nd : Node} {u : State} {s : State} {l : LinkId} {cls : Nat} {fs : List Frame} (h_l : l.node = nd) (hs : Quiet nd u s) : Quiet nd u ((State.sendAll (s) (l) (cls) (fs))) := by
  refine Quiet.trans hs ?_
  unfold State.sendAll
  repeat' first
    | with_reducible exact Quiet.refl _
    | with_reducible assumption
    | (intro x; first | (refine Quiet.use (x := x) ?_ (fun hx => ?_); rotate_left; clear_value x; rotate_right; subst x) | clear_value x)
    | lift_lets -underBinder
    | ((with_reducible apply State.updCom_quiet); rotate_left; focus (intro t; rfl))
    | with_reducible apply State.updLink_quiet

theorem State.tsuUp_quiet {nd : Node} {u : State} {s : State} {sideB fullRate : Bool} {cls key : Nat} {fs : List Frame} (hn : nd = .tsu) (hs : Quiet nd u s) : Quiet nd u ((State.tsuUp (s) (sideB) (fullRate) (cls) (key) (fs))) := by
  subst hn
  refine Quiet.trans hs ?_
  unfold State.tsuUp
  repeat' first
    | with_reducible exact Quiet.refl _
    | with_reducible rfl
    | (intro x; clear_value x)
    | lift_lets -underBinder
    | with_reducible apply State.send_quiet

theorem State.malformed_quiet {nd : Node} {u : State} {s : State} {l : LinkId} (h_l : l.node = nd) (hs : Quiet nd u s) : Quiet nd u ((State.malformed (s) (l))) := by
  refine Quiet.trans hs ?_
  unfold State.malformed
  repeat' first
    | with_reducible exact Quiet.refl _
    | with_reducible assumption
    | lift_lets -underBinder
    | with_reducible apply State.log_quiet
    | with_reducible apply State.updLink_quiet

theorem State.routeChild_quiet {nd : Node} {u : State} {s : State} {i from_ : Nat} {fs : List Frame} (hn : nd = .gd) (hs : Quiet nd u s) : Quiet nd u ((State.routeChild (s) (i) (from_) (fs))) := by
  subst hn
  refine Quiet.trans hs ?_
  unfold State.routeChild
  repeat' first
    | with_reducible exact Quiet.refl _
    | with_reducible rfl
    | with_reducible apply State.send_quiet
    | ((with_reducible apply State.updGd_quiet); rotate_left; focus (intro t; (lift_lets; intros; (repeat' split) <;> rfl)))
    | split

theorem State.unhold_quiet {nd : Node} {u : State} {s : State} {i : Nat} (hn : nd = .gd) (hs : Quiet nd u s) : Quiet nd u ((State.unhold (s) (i))) := by
  subst hn
  refine Quiet.trans hs ?_
  unfold State.unhold
  repeat' first
    | with_reducible exact Quiet.refl _
    | with_reducible assumption
    | with_reducible rfl
    | (intro x; first | (refine Quiet.use (x := x) ?_ (fun hx => ?_); rotate_left; clear_value x; rotate_right; subst x) | skip)
    | lift_lets -underBinder
    | with_reducible apply State.routeChild_quiet
    | ((with_reducible apply State.updGd_quiet); rotate_left; focus (intro t; rfl))
    | with_reducible apply Quiet.foldl
    | split

theorem State.unholdAll_quiet {nd : Node} {u : State} {s : State} (hn : nd = .gd) (hs : Quiet nd u s) : Quiet nd u ((State.unholdAll (s))) := by
  subst hn
  refine Quiet.trans hs ?_
  unfold State.unholdAll
  repeat' first
    | with_reducible exact Quiet.refl _
    | with_reducible rfl
    | intro x
    | lift_lets -underBinder
    | with_reducible apply State.unhold_quiet
    | with_reducible apply Quiet.foldl

theorem State.healthSendEv_quiet {nd : Node} {u : State} {s : State} {ev code : Nat} (hn : nd = .tsu) (hs : Quiet nd u s) : Quiet nd u ((State.healthSendEv (s) (ev) (code))) := by
  subst hn
  refine Quiet.trans hs ?_
  unfold State.healthSendEv
  repeat' first
    | with_reducible exact Quiet.refl _
    | with_reducible rfl
    | (intro x; clear_value x)
    | lift_lets -underBinder
    | with_reducible apply State.send_quiet
    | with_reducible apply State.updLink_quiet
    | split

theorem State.healthSend_quiet {nd : Node} {u : State} {s : State} {code : ErrCode} (hn : nd = .tsu) (hs : Quiet nd u s) : Quiet nd u ((State.healthSend (s) (code))) := by
  subst hn
  refine Quiet.trans hs ?_
  unfold State.healthSend
  repeat' first
    | with_reducible exact Quiet.refl _
    | with_reducible rfl
    | with_reducible apply State.healthSendEv_quiet
    | split

end Sys2Proof.Machine
end

