-- ==== Sys2Proof/Laws/ApartSliceOps.lean ====
section
/-! SUPPORT. Which part the operations of `Sys2Proof.Machine.SliceOps` act at, and whether they leave its time alone. -/

namespace Sys2Proof.Machine

open Sys2Proof

set_option linter.unusedVariables false

theorem State.updSlice_quiet {nd : Node} {u : State} {s : State} {n : Nat} {f : Slice → Slice} (hn : nd = .tsu) (hs : Quiet nd u s) : Quiet nd u ((State.updSlice (s) (n) (f))) := by
  subst hn
  refine Quiet.trans hs ?_
  unfold State.updSlice
  repeat' first
    | with_reducible exact Quiet.refl _
    | with_reducible rfl
    | ((with_reducible apply State.updTsu_quiet); rotate_left; focus (intro t; rfl))

theorem State.updPort_quiet {nd : Node} {u : State} {s : State} {p : Nat} {f : Port → Port} (hn : nd = .tsu) (hs : Quiet nd u s) : Quiet nd u ((State.updPort (s) (p) (f))) := by
  subst hn
  refine Quiet.trans hs ?_
  unfold State.updPort
  repeat' first
    | with_reducible exact Quiet.refl _
    | with_reducible rfl
    | ((with_reducible apply State.updTsu_quiet); rotate_left; focus (intro t; rfl))

theorem State.updCtx_quiet {nd : Node} {u : State} {s : State} {c : Nat} {f : Ctx → Ctx} (hn : nd = .tsu) (hs : Quiet nd u s) : Quiet nd u ((State.updCtx (s) (c) (f))) := by
  subst hn
  refine Quiet.trans hs ?_
  unfold State.updCtx
  repeat' first
    | with_reducible exact Quiet.refl _
    | with_reducible rfl
    | ((with_reducible apply State.updTsu_quiet); rotate_left; focus (intro t; rfl))

theorem State.updTumb_quiet {nd : Node} {u : State} {s : State} {e : Nat} {f : Tumbler → Tumbler} (hn : nd = .tsu) (hs : Quiet nd u s) : Quiet nd u ((State.updTumb (s) (e) (f))) := by
  subst hn
  refine Quiet.trans hs ?_
  unfold State.updTumb
  repeat' first
    | with_reducible exact Quiet.refl _
    | with_reducible rfl
    | ((with_reducible apply State.updTsu_quiet); rotate_left; focus (intro t; rfl))

theorem State.spCode_quiet {nd : Node} {u : State} {s : State} {n off : Nat} {code : ErrCode} {detail : Nat} (hn : nd = .tsu) (hs : Quiet nd u s) : Quiet nd u ((State.spCode (s) (n) (off) (code) (detail))) := by
  subst hn
  refine Quiet.trans hs ?_
  unfold State.spCode
  repeat' first
    | with_reducible exact Quiet.refl _
    | with_reducible assumption
    | with_reducible rfl
    | (intro x; first | (refine Quiet.use (x := x) ?_ (fun hx => ?_); rotate_left; clear_value x; rotate_right; subst x) | skip)
    | lift_lets -underBinder
    | with_reducible apply Quiet.ite
    | with_reducible apply State.logT_quiet
    | with_reducible apply State.updSlice_quiet

theorem State.nwWrite_quiet {nd : Node} {u : State} {s : State} {kind : NwKind} {pasid addr : Nat} {data : List Byte} (hn : nd = .tsu) (hs : Quiet nd u s) : Quiet nd u ((State.nwWrite (s) (kind) (pasid) (addr) (data))) := by
  subst hn
  refine Quiet.trans hs ?_
  unfold State.nwWrite
  repeat' first
    | with_reducible exact Quiet.refl _
    | with_reducible rfl
    | ((with_reducible apply State.updTsu_quiet); rotate_left; focus (intro t; rfl))

theorem State.pageLog_quiet {nd : Node} {u : State} {s : State} {n addr : Nat} (hn : nd = .tsu) (hs : Quiet nd u s) : Quiet nd u ((State.pageLog (s) (n) (addr))) := by
  subst hn
  refine Quiet.trans hs ?_
  unfold State.pageLog
  repeat' first
    | with_reducible exact Quiet.refl _
    | with_reducible assumption
    | with_reducible rfl
    | (intro x; first | (refine Quiet.use (x := x) ?_ (fun hx => ?_); rotate_left; clear_value x; rotate_right; subst x) | clear_value x | skip)
    | lift_lets -underBinder
    | with_reducible apply Quiet.ite
    | with_reducible apply State.logT_quiet
    | with_reducible apply State.nwWrite_quiet
    | ((with_reducible apply State.updTsu_quiet); rotate_left; focus (intro t; rfl))

theorem State.sliceWrite_quiet {nd : Node} {u : State} {s : State} {n : Nat} {kind : NwKind} {addr : Nat} {data : List Byte} (hn : nd = .tsu) (hs : Quiet nd u s) : Quiet nd u ((State.sliceWrite (s) (n) (kind) (addr) (data))) := by
  subst hn
  refine Quiet.trans hs ?_
  unfold State.sliceWrite
  repeat' first
    | with_reducible exact Quiet.refl _
    | with_reducible rfl
    | intro x
    | lift_lets -underBinder
    | with_reducible apply State.nwWrite_quiet
    | with_reducible apply State.pageLog_quiet
    | with_reducible apply Quiet.foldl

theorem State.nwRead_quiet {nd : Node} {u : State} {s : State} {kind : NwRead} {pasid addr len : Nat} (hn : nd = .tsu) (hs : Quiet nd u s) : Quiet nd u ((State.nwRead (s) (kind) (pasid) (addr) (len))) := by
  subst hn
  refine Quiet.trans hs ?_
  unfold State.nwRead
  repeat' first
    | with_reducible exact Quiet.refl _
    | with_reducible rfl
    | ((with_reducible apply State.updTsu_quiet); rotate_left; focus (intro t; rfl))

theorem State.ringPut_quiet {nd : Node} {u : State} {s : State} {n : Nat} {r : Record} (hn : nd = .tsu) (hs : Quiet nd u s) : Quiet nd u ((State.ringPut (s) (n) (r))) := by
  subst hn
  refine Quiet.trans hs ?_
  unfold State.ringPut
  repeat' first
    | with_reducible exact Quiet.refl _
    | with_reducible rfl
    | (intro x; clear_value x)
    | lift_lets -underBinder
    | with_reducible apply State.sliceWrite_quiet
    | with_reducible apply State.updSlice_quiet

theorem State.writeRecord_quiet {nd : Node} {u : State} {s : State} {r : Record} (hn : nd = .tsu) (hs : Quiet nd u s) : Quiet nd u ((State.writeRecord (s) (r))) := by
  subst hn
  refine Quiet.trans hs ?_
  unfold State.writeRecord
  repeat' first
    | with_reducible exact Quiet.refl _
    | with_reducible rfl
    | (intro x; first | clear_value x | skip)
    | lift_lets -underBinder
    | with_reducible apply Quiet.ite
    | with_reducible apply State.logT_quiet
    | with_reducible apply State.ringPut_quiet
    | with_reducible apply State.updSlice_quiet

theorem State.ringFlush_quiet {nd : Node} {u : State} {s : State} {n : Nat} (hn : nd = .tsu) (hs : Quiet nd u s) : Quiet nd u ((State.ringFlush (s) (n))) := by
  subst hn
  refine Quiet.trans hs ?_
  unfold State.ringFlush
  repeat' first
    | with_reducible exact Quiet.refl _
    | with_reducible rfl
    | intro x
    | lift_lets -underBinder
    | with_reducible apply Quiet.ite
    | with_reducible apply State.ringPut_quiet
    | with_reducible apply State.updSlice_quiet
    | with_reducible apply Quiet.foldl

theorem State.ringVector_quiet {nd : Node} {u : State} {s : State} {n : Nat} (hn : nd = .tsu) (hs : Quiet nd u s) : Quiet nd u ((State.ringVector (s) (n))) := by
  subst hn
  refine Quiet.trans hs ?_
  unfold State.ringVector
  repeat' first
    | with_reducible exact Quiet.refl _
    | with_reducible rfl
    | (intro x; first | clear_value x | skip)
    | lift_lets -underBinder
    | with_reducible apply Quiet.ite
    | with_reducible apply State.updSlice_quiet
    | ((with_reducible apply State.updCom_quiet); rotate_left; focus (intro t; exact Common.raiseVector_time ..))

theorem State.updBinding_quiet {nd : Node} {u : State} {s : State} {n : Nat} {tag : BitVec 24} {f : Binding → Binding} (hn : nd = .tsu) (hs : Quiet nd u s) : Quiet nd u ((State.updBinding (s) (n) (tag) (f))) := by
  subst hn
  refine Quiet.trans hs ?_
  unfold State.updBinding
  repeat' first
    | with_reducible exact Quiet.refl _
    | with_reducible rfl
    | with_reducible apply State.updSlice_quiet

end Sys2Proof.Machine
end

