-- ==== Sys2Proof/Laws/ApartLaunchOps.lean ====
section
/-! SUPPORT. Which part the operations of `Sys2Proof.Machine.LaunchOps` act at, and whether they leave its time alone. -/

namespace Sys2Proof.Machine

open Sys2Proof

set_option linter.unusedVariables false

theorem State.busSend_quiet {nd : Node} {u : State} {s : State} {r : Nat} {b : BusBody} (hn : nd = .tsu) (hs : Quiet nd u s) : Quiet nd u ((State.busSend (s) (r) (b))) := by
  subst hn
  refine Quiet.trans hs ?_
  unfold State.busSend
  repeat' first
    | with_reducible exact Quiet.refl _
    | with_reducible rfl
    | with_reducible apply State.updRegion_quiet

theorem State.freeSlot_quiet {nd : Node} {u : State} {s : State} {rs : Nat × Nat} (hn : nd = .tsu) (hs : Quiet nd u s) : Quiet nd u ((State.freeSlot (s) (rs))) := by
  subst hn
  refine Quiet.trans hs ?_
  unfold State.freeSlot
  repeat' first
    | with_reducible exact Quiet.refl _
    | with_reducible rfl
    | with_reducible apply State.updRegion_quiet

theorem State.freeStaging_quiet {nd : Node} {u : State} {s : State} {launch : Nat} {which : Option Bool} {ports : List Nat} {slots : List (Nat × Nat)} (hn : nd = .tsu) (hs : Quiet nd u s) : Quiet nd u ((State.freeStaging (s) (launch) (which) (ports) (slots))) := by
  subst hn
  refine Quiet.trans hs ?_
  unfold State.freeStaging
  repeat' first
    | with_reducible exact Quiet.refl _
    | with_reducible assumption
    | with_reducible rfl
    | (intro x; first | (refine Quiet.use (x := x) ?_ (fun hx => ?_); rotate_left; clear_value x; rotate_right; subst x) | skip)
    | lift_lets -underBinder
    | with_reducible apply State.freeSlot_quiet
    | with_reducible apply State.updPort_quiet
    | with_reducible apply Quiet.foldl

theorem State.launchRecord_quiet {nd : Node} {u : State} {s : State} {a : Arm} {code : ErrCode} {detail : Nat} {dropped : Bool} (hn : nd = .tsu) (hs : Quiet nd u s) : Quiet nd u ((State.launchRecord (s) (a) (code) (detail) (dropped))) := by
  subst hn
  refine Quiet.trans hs ?_
  unfold State.launchRecord
  repeat' first
    | with_reducible exact Quiet.refl _
    | with_reducible rfl
    | with_reducible apply State.writeRecord_quiet

theorem State.recordDone_quiet {nd : Node} {u : State} {s : State} {a : Arm} (hn : nd = .tsu) (hs : Quiet nd u s) : Quiet nd u ((State.recordDone (s) (a))) := by
  subst hn
  refine Quiet.trans hs ?_
  unfold State.recordDone
  repeat' first
    | with_reducible exact Quiet.refl _
    | with_reducible rfl
    | ((with_reducible apply State.updTsu_quiet); rotate_left; focus (intro t; rfl))

theorem State.armDone_quiet {nd : Node} {u : State} {s : State} {id : Nat} (hn : nd = .tsu) (hs : Quiet nd u s) : Quiet nd u ((State.armDone (s) (id))) := by
  subst hn
  refine Quiet.trans hs ?_
  unfold State.armDone
  repeat' first
    | with_reducible exact Quiet.refl _
    | with_reducible assumption
    | with_reducible rfl
    | (intro x; first | (refine Quiet.use (x := x) ?_ (fun hx => ?_); rotate_left; clear_value x; rotate_right; subst x) | skip)
    | lift_lets -underBinder
    | with_reducible apply Quiet.ite
    | with_reducible apply State.freeStaging_quiet
    | with_reducible apply State.launchRecord_quiet
    | with_reducible apply State.recordDone_quiet
    | ((with_reducible apply State.updTsu_quiet); rotate_left; focus (intro t; rfl))
    | split

theorem State.updArm_quiet {nd : Node} {u : State} {s : State} {id : Nat} {f : Arm → Arm} (hn : nd = .tsu) (hs : Quiet nd u s) : Quiet nd u ((State.updArm (s) (id) (f))) := by
  subst hn
  refine Quiet.trans hs ?_
  unfold State.updArm
  repeat' first
    | with_reducible exact Quiet.refl _
    | with_reducible rfl
    | ((with_reducible apply State.updTsu_quiet); rotate_left; focus (intro t; rfl))

theorem State.reclaim_quiet {nd : Node} {u : State} {s : State} {p : Nat} (hn : nd = .tsu) (hs : Quiet nd u s) : Quiet nd u ((State.reclaim (s) (p))) := by
  subst hn
  refine Quiet.trans hs ?_
  unfold State.reclaim
  repeat' first
    | with_reducible exact Quiet.refl _
    | with_reducible assumption
    | with_reducible rfl
    | (intro x; (refine Quiet.use (x := x) ?_ (fun hx => ?_); rotate_left; clear_value x; rotate_right; subst x))
    | lift_lets -underBinder
    | with_reducible apply State.updPort_quiet
    | ((with_reducible apply State.updTsu_quiet); rotate_left; focus (intro t; ((repeat' split) <;> rfl)))
    | split

theorem State.present_quiet {nd : Node} {u : State} {s : State} {p : Nat} {c : Command} (hn : nd = .tsu) (hs : Quiet nd u s) : Quiet nd u ((State.present (s) (p) (c))) := by
  subst hn
  refine Quiet.trans hs ?_
  unfold State.present
  repeat' first
    | with_reducible exact Quiet.refl _
    | with_reducible rfl
    | lift_lets -underBinder
    | with_reducible apply State.reclaim_quiet
    | with_reducible apply State.updPort_quiet

theorem State.firePort_quiet {nd : Node} {u : State} {s : State} {a : Arm} {r t reach : Nat} {gated late : Bool} {p : Nat} (hn : nd = .tsu) (hs : Quiet nd u s) : Quiet nd u ((State.firePort (s) (a) (r) (t) (reach) (gated) (late) (p))) := by
  subst hn
  refine Quiet.trans hs ?_
  unfold State.firePort
  repeat' first
    | with_reducible exact Quiet.refl _
    | with_reducible assumption
    | with_reducible rfl
    | (intro x; first | (refine Quiet.use (x := x) ?_ (fun hx => ?_); rotate_left; clear_value x; rotate_right; subst x) | (have hf := funext (f := x) (g := x) (fun _ => rfl); clear hf; subst x) | clear_value x | skip)
    | lift_lets -underBinder
    | with_reducible apply State.reclaim_quiet
    | with_reducible apply State.updPort_quiet
    | with_reducible apply Quiet.foldl

theorem State.strobe_quiet {nd : Node} {u : State} {s : State} {r slot t reach : Nat} {late : Bool} (hn : nd = .tsu) (hs : Quiet nd u s) : Quiet nd u ((State.strobe (s) (r) (slot) (t) (reach) (late))) := by
  subst hn
  refine Quiet.trans hs ?_
  unfold State.strobe
  repeat' first
    | with_reducible exact Quiet.refl _
    | with_reducible assumption
    | with_reducible rfl
    | (intro x; first | (refine Quiet.use (x := x) ?_ (fun hx => ?_); rotate_left; clear_value x; rotate_right; subst x) | clear_value x | skip)
    | lift_lets -underBinder
    | with_reducible apply Quiet.ite
    | with_reducible apply State.armDone_quiet
    | with_reducible apply State.firePort_quiet
    | with_reducible apply State.freeSlot_quiet
    | with_reducible apply State.setEvt_quiet
    | with_reducible apply State.updArm_quiet
    | with_reducible apply Quiet.foldl
    | split

theorem State.noteCode_quiet {nd : Node} {u : State} {s : State} {f : Fired} {code : ErrCode} (hn : nd = .tsu) (hs : Quiet nd u s) : Quiet nd u ((State.noteCode (s) (f) (code))) := by
  subst hn
  refine Quiet.trans hs ?_
  unfold State.noteCode
  repeat' first
    | with_reducible exact Quiet.refl _
    | with_reducible rfl
    | intro x
    | lift_lets -underBinder
    | with_reducible apply Quiet.ite
    | with_reducible apply State.launchRecord_quiet
    | with_reducible apply State.recordDone_quiet
    | with_reducible apply State.updArm_quiet
    | split

theorem State.portLost_quiet {nd : Node} {u : State} {s : State} {a : Arm} {code : ErrCode} {p : Nat} (hn : nd = .tsu) (hs : Quiet nd u s) : Quiet nd u ((State.portLost (s) (a) (code) (p))) := by
  subst hn
  refine Quiet.trans hs ?_
  unfold State.portLost
  repeat' first
    | with_reducible exact Quiet.refl _
    | with_reducible rfl
    | with_reducible apply State.writeRecord_quiet

theorem State.slotLost_quiet {nd : Node} {u : State} {s : State} {r slot : Nat} {code : ErrCode} (hn : nd = .tsu) (hs : Quiet nd u s) : Quiet nd u ((State.slotLost (s) (r) (slot) (code))) := by
  subst hn
  refine Quiet.trans hs ?_
  unfold State.slotLost
  repeat' first
    | with_reducible exact Quiet.refl _
    | with_reducible assumption
    | with_reducible rfl
    | (intro x; first | (refine Quiet.use (x := x) ?_ (fun hx => ?_); rotate_left; clear_value x; rotate_right; subst x) | clear_value x | skip)
    | lift_lets -underBinder
    | with_reducible apply State.armDone_quiet
    | with_reducible apply State.freeSlot_quiet
    | with_reducible apply State.freeStaging_quiet
    | with_reducible apply State.portLost_quiet
    | with_reducible apply State.updArm_quiet
    | with_reducible apply Quiet.foldl
    | split

theorem State.slotCancelled_quiet {nd : Node} {u : State} {s : State} {r slot : Nat} (hn : nd = .tsu) (hs : Quiet nd u s) : Quiet nd u ((State.slotCancelled (s) (r) (slot))) := by
  subst hn
  refine Quiet.trans hs ?_
  unfold State.slotCancelled
  repeat' first
    | with_reducible exact Quiet.refl _
    | with_reducible assumption
    | with_reducible rfl
    | (intro x; (refine Quiet.use (x := x) ?_ (fun hx => ?_); rotate_left; clear_value x; rotate_right; subst x))
    | lift_lets -underBinder
    | with_reducible apply State.armDone_quiet
    | with_reducible apply State.freeSlot_quiet
    | with_reducible apply State.updArm_quiet
    | split

theorem State.dropArm_quiet {nd : Node} {u : State} {s : State} {id : Nat} {code : ErrCode} {detail : Nat} (hn : nd = .tsu) (hs : Quiet nd u s) : Quiet nd u ((State.dropArm (s) (id) (code) (detail))) := by
  subst hn
  refine Quiet.trans hs ?_
  unfold State.dropArm
  repeat' first
    | with_reducible exact Quiet.refl _
    | with_reducible assumption
    | with_reducible rfl
    | (intro x; first | (refine Quiet.use (x := x) ?_ (fun hx => ?_); rotate_left; clear_value x; rotate_right; subst x) | skip)
    | lift_lets -underBinder
    | with_reducible apply Quiet.ite
    | with_reducible apply State.armDone_quiet
    | with_reducible apply State.busSend_quiet
    | with_reducible apply State.freeSlot_quiet
    | with_reducible apply State.freeStaging_quiet
    | with_reducible apply State.launchRecord_quiet
    | with_reducible apply State.recordDone_quiet
    | with_reducible apply State.updArm_quiet
    | with_reducible apply State.updRegion_quiet
    | with_reducible apply Quiet.foldl
    | split

theorem State.dropDomainLaunches_quiet {nd : Node} {u : State} {s : State} {code : ErrCode} (hn : nd = .tsu) (hs : Quiet nd u s) : Quiet nd u ((State.dropDomainLaunches (s) (code))) := by
  subst hn
  refine Quiet.trans hs ?_
  unfold State.dropDomainLaunches
  repeat' first
    | with_reducible exact Quiet.refl _
    | with_reducible rfl
    | (intro x; first | clear_value x | skip)
    | lift_lets -underBinder
    | with_reducible apply State.dropArm_quiet
    | with_reducible apply State.logT_quiet
    | with_reducible apply Quiet.foldl

theorem State.joinReq_quiet {nd : Node} {u : State} {s : State} {tag : BitVec 24} (hn : nd = .tsu) (hs : Quiet nd u s) : Quiet nd u ((State.joinReq (s) (tag))) := by
  subst hn
  refine Quiet.trans hs ?_
  unfold State.joinReq
  repeat' first
    | with_reducible exact Quiet.refl _
    | with_reducible rfl
    | (intro x; clear_value x)
    | lift_lets -underBinder
    | with_reducible apply State.tsuUp_quiet

theorem State.joinSoon_quiet {nd : Node} {u : State} {s : State} {tag : BitVec 24} (hn : nd = .tsu) (hs : Quiet nd u s) : Quiet nd u ((State.joinSoon (s) (tag))) := by
  subst hn
  refine Quiet.trans hs ?_
  unfold State.joinSoon
  repeat' first
    | with_reducible exact Quiet.refl _
    | with_reducible rfl
    | with_reducible apply Quiet.ite
    | with_reducible apply State.joinReq_quiet
    | intro x

theorem State.launchOkGained_quiet {nd : Node} {u : State} {s : State} (hn : nd = .tsu) (hs : Quiet nd u s) : Quiet nd u ((State.launchOkGained (s))) := by
  subst hn
  refine Quiet.trans hs ?_
  unfold State.launchOkGained
  repeat' first
    | with_reducible exact Quiet.refl _
    | with_reducible rfl
    | intro x
    | lift_lets -underBinder
    | with_reducible apply Quiet.ite
    | with_reducible apply State.joinReq_quiet
    | with_reducible apply Quiet.foldl

end Sys2Proof.Machine
end

