-- ==== Sys2Proof/Laws/ApartTimeOps.lean ====
section
/-! SUPPORT. Which part the operations of `Sys2Proof.Machine.TimeOps` act at, and whether they leave its time alone. -/

namespace Sys2Proof.Machine

open Sys2Proof

set_option linter.unusedVariables false

theorem State.updRegions_quiet {nd : Node} {u : State} {s : State} {f : Region → Region} (hn : nd = .tsu) (hs : Quiet nd u s) : Quiet nd u ((State.updRegions (s) (f))) := by
  subst hn
  refine Quiet.trans hs ?_
  unfold State.updRegions
  repeat' first
    | with_reducible exact Quiet.refl _
    | with_reducible rfl
    | intro x
    | lift_lets -underBinder
    | with_reducible apply State.updRegion_quiet
    | with_reducible apply Quiet.foldl

theorem State.noteTrace_quiet {nd : Node} {u : State} {s : State} {was : Bool} (hn : nd = .gd) (hs : Quiet nd u s) : Quiet nd u ((State.noteTrace (s) (was))) := by
  subst hn
  refine Quiet.trans hs ?_
  unfold State.noteTrace
  repeat' first
    | with_reducible exact Quiet.refl _
    | with_reducible rfl
    | ((with_reducible apply State.updGd_quiet); rotate_left; focus (intro t; rfl))

theorem State.loseLaunchOk_apart {nd : Node} {u : State} {s : State} {n : Node} (h_n : n = nd) (hs : Apart nd u s) : Apart nd u ((State.loseLaunchOk (s) (n))) := by
  refine Apart.trans hs ?_
  unfold State.loseLaunchOk
  repeat' first
    | with_reducible exact Apart.refl _
    | with_reducible assumption
    | (with_reducible refine (?_ : (_ : Node) = _); first | rfl | assumption | (simp_all only []; done) | (simp_all; done) | (cases nd <;> simp_all; done))
    | (intro x; (refine Apart.use (x := x) ?_ (fun hx => ?_); rotate_left; clear_value x; rotate_right; subst x))
    | lift_lets -underBinder
    | with_reducible apply Apart.step (State.dropDomainLaunches_quiet ?_ (Quiet.refl _))
    | with_reducible apply State.updTime_apart
    | split

theorem State.timeDomainReset_apart {nd : Node} {u : State} {s : State} {n : Node} (h_n : n = nd) (hs : Apart nd u s) : Apart nd u ((State.timeDomainReset (s) (n))) := by
  refine Apart.trans hs ?_
  unfold State.timeDomainReset
  repeat' first
    | with_reducible exact Apart.refl _
    | with_reducible assumption
    | (with_reducible refine (?_ : (_ : Node) = _); first | rfl | assumption | (simp_all only []; done) | (simp_all; done) | (cases nd <;> simp_all; done))
    | (intro x; first | (refine Apart.use (x := x) ?_ (fun hx => ?_); rotate_left; clear_value x; rotate_right; subst x) | clear_value x)
    | lift_lets -underBinder
    | with_reducible apply State.loseLaunchOk_apart
    | with_reducible apply Apart.step (State.updRegions_quiet ?_ (Quiet.refl _))
    | with_reducible apply State.updCom_apart
    | with_reducible apply State.updTimeQ_apart
    | with_reducible apply State.updRef_apart
    | split

theorem State.flywheelEntry_apart {nd : Node} {u : State} {s : State} {n : Node} (h_n : n = nd) (hs : Apart nd u s) : Apart nd u ((State.flywheelEntry (s) (n))) := by
  refine Apart.trans hs ?_
  unfold State.flywheelEntry
  repeat' first
    | with_reducible exact Apart.refl _
    | with_reducible assumption
    | (intro x; clear_value x)
    | lift_lets -underBinder
    | with_reducible apply State.updTimeQ_apart

theorem State.takeSource_apart {nd : Node} {u : State} {s : State} {n : Node} {p : Option Nat} (h_n : n = nd) (hs : Apart nd u s) : Apart nd u ((State.takeSource (s) (n) (p))) := by
  refine Apart.trans hs ?_
  unfold State.takeSource
  repeat' first
    | with_reducible exact Apart.refl _
    | with_reducible assumption
    | (with_reducible refine (?_ : (_ : Node) = _); first | rfl | assumption | (simp_all only []; done) | (simp_all; done) | (cases nd <;> simp_all; done))
    | (intro x; first | (refine Apart.use (x := x) ?_ (fun hx => ?_); rotate_left; clear_value x; rotate_right; subst x) | clear_value x | skip)
    | lift_lets -underBinder
    | with_reducible apply Apart.ite
    | with_reducible apply State.flywheelEntry_apart
    | with_reducible apply Apart.step (State.noteTrace_quiet ?_ (Quiet.refl _))
    | with_reducible apply State.timeDomainReset_apart
    | with_reducible apply State.updGd_apart
    | with_reducible apply State.updTime_apart
    | with_reducible apply State.updSrc_apart
    | split

theorem State.selectSource_apart {nd : Node} {u : State} {s : State} {n : Node} (h_n : n = nd) (hs : Apart nd u s) : Apart nd u ((State.selectSource (s) (n))) := by
  refine Apart.trans hs ?_
  unfold State.selectSource
  repeat' first
    | with_reducible exact Apart.refl _
    | with_reducible assumption
    | (intro x; first | clear_value x | skip)
    | lift_lets -underBinder
    | with_reducible apply Apart.ite
    | with_reducible apply State.takeSource_apart
    | split

theorem State.srcInvalid_apart {nd : Node} {u : State} {s : State} {l : LinkId} (h_l : l.node = nd) (hs : Apart nd u s) : Apart nd u ((State.srcInvalid (s) (l))) := by
  refine Apart.trans hs ?_
  unfold State.srcInvalid
  repeat' first
    | with_reducible exact Apart.refl _
    | with_reducible assumption
    | (with_reducible refine (?_ : (_ : Node) = _); first | rfl | assumption | (simp_all only []; done) | (simp_all; done) | (cases nd <;> simp_all; done))
    | (intro x; first | (refine Apart.use (x := x) ?_ (fun hx => ?_); rotate_left; clear_value x; rotate_right; subst x) | skip)
    | lift_lets -underBinder
    | with_reducible apply Apart.ite
    | with_reducible apply State.flywheelEntry_apart
    | with_reducible apply State.selectSource_apart
    | with_reducible apply State.updGd_apart
    | with_reducible apply State.updSrc_apart

theorem State.acquire_apart {nd : Node} {u : State} {s : State} {l : LinkId} (h_l : l.node = nd) (hs : Apart nd u s) : Apart nd u ((State.acquire (s) (l))) := by
  refine Apart.trans hs ?_
  unfold State.acquire
  repeat' first
    | with_reducible exact Apart.refl _
    | with_reducible assumption
    | (intro x; clear_value x)
    | lift_lets -underBinder
    | with_reducible apply State.updTimeQ_apart

theorem State.srcTrained_apart {nd : Node} {u : State} {s : State} {l : LinkId} (h_l : l.node = nd) (hs : Apart nd u s) : Apart nd u ((State.srcTrained (s) (l))) := by
  refine Apart.trans hs ?_
  unfold State.srcTrained
  repeat' first
    | with_reducible exact Apart.refl _
    | with_reducible assumption
    | (intro x; first | (refine Apart.use (x := x) ?_ (fun hx => ?_); rotate_left; clear_value x; rotate_right; subst x) | clear_value x)
    | lift_lets -underBinder
    | with_reducible apply State.acquire_apart
    | with_reducible apply State.updSrc_apart

theorem State.outputsDue_quiet {nd : Node} {u : State} {s : State} (hn : nd = .gd) (hs : Quiet nd u s) : Quiet nd u ((State.outputsDue (s))) := by
  subst hn
  refine Quiet.trans hs ?_
  unfold State.outputsDue
  repeat' first
    | with_reducible exact Quiet.refl _
    | with_reducible rfl
    | intro x
    | lift_lets -underBinder
    | with_reducible apply Quiet.ite
    | ((with_reducible apply State.updGd_quiet); rotate_left; focus (intro t; rfl))

theorem State.outputsStepped_quiet {nd : Node} {u : State} {s : State} {size : Int} (hn : nd = .gd) (hs : Quiet nd u s) : Quiet nd u ((State.outputsStepped (s) (size))) := by
  subst hn
  refine Quiet.trans hs ?_
  unfold State.outputsStepped
  repeat' first
    | with_reducible exact Quiet.refl _
    | with_reducible assumption
    | with_reducible rfl
    | (intro x; first | (refine Quiet.use (x := x) ?_ (fun hx => ?_); rotate_left; clear_value x; rotate_right; subst x) | skip)
    | lift_lets -underBinder
    | with_reducible apply Quiet.ite
    | with_reducible apply State.logG_quiet
    | with_reducible apply State.outputsDue_quiet
    | with_reducible apply State.setEvt_quiet
    | ((with_reducible apply State.updGd_quiet); rotate_left; focus (intro t; rfl))

theorem State.refsStepped_quiet {nd : Node} {u : State} {s : State} {size : Int} (hn : nd = .gd) (hs : Quiet nd u s) : Quiet nd u ((State.refsStepped (s) (size))) := by
  subst hn
  refine Quiet.trans hs ?_
  unfold State.refsStepped
  repeat' first
    | with_reducible exact Quiet.refl _
    | with_reducible rfl
    | with_reducible apply State.updRef_quiet

theorem State.stepCounter_apart {nd : Node} {u : State} {s : State} {n : Node} {goal : Time80} (h_n : n = nd) (hs : Apart nd u s) : Apart nd u ((State.stepCounter (s) (n) (goal))) := by
  refine Apart.trans hs ?_
  unfold State.stepCounter
  repeat' first
    | with_reducible exact Apart.refl _
    | with_reducible assumption
    | (with_reducible refine (?_ : (_ : Node) = _); first | rfl | assumption | (simp_all only []; done) | (simp_all; done) | (cases nd <;> simp_all; done))
    | (intro x; (refine Apart.use (x := x) ?_ (fun hx => ?_); rotate_left; clear_value x; rotate_right; subst x))
    | lift_lets -underBinder
    | with_reducible apply Apart.step (State.outputsStepped_quiet ?_ (Quiet.refl _))
    | with_reducible apply Apart.step (State.refsStepped_quiet ?_ (Quiet.refl _))
    | with_reducible apply State.updTime_apart
    | split

theorem State.withdraw_apart {nd : Node} {u : State} {s : State} {n : Node} (h_n : n = nd) (hs : Apart nd u s) : Apart nd u ((State.withdraw (s) (n))) := by
  refine Apart.trans hs ?_
  unfold State.withdraw
  repeat' first
    | with_reducible exact Apart.refl _
    | with_reducible assumption
    | (with_reducible refine (?_ : (_ : Node) = _); first | rfl | assumption | (simp_all only []; done) | (simp_all; done) | (cases nd <;> simp_all; done))
    | (intro x; first | (refine Apart.use (x := x) ?_ (fun hx => ?_); rotate_left; clear_value x; rotate_right; subst x) | clear_value x | skip)
    | lift_lets -underBinder
    | with_reducible apply Apart.ite
    | with_reducible apply Apart.step (State.healthSendEv_quiet ?_ (Quiet.refl _))
    | with_reducible apply State.loseLaunchOk_apart
    | with_reducible apply State.updTimeQ_apart

theorem State.judgeSender_apart {nd : Node} {u : State} {s : State} {n : Node} {q : Quality} (h_n : n = nd) (hs : Apart nd u s) : Apart nd u ((State.judgeSender (s) (n) (q))) := by
  refine Apart.trans hs ?_
  unfold State.judgeSender
  repeat' first
    | with_reducible exact Apart.refl _
    | with_reducible assumption
    | (intro x; first | (refine Apart.use (x := x) ?_ (fun hx => ?_); rotate_left; clear_value x; rotate_right; subst x) | skip)
    | lift_lets -underBinder
    | with_reducible apply Apart.ite
    | with_reducible apply State.withdraw_apart
    | with_reducible apply State.updTime_apart
    | with_reducible apply State.updTimeQ_apart
    | split

theorem State.judgeOffset_apart {nd : Node} {u : State} {s : State} {n : Node} {theta : Int} (h_n : n = nd) (hs : Apart nd u s) : Apart nd u ((State.judgeOffset (s) (n) (theta))) := by
  refine Apart.trans hs ?_
  unfold State.judgeOffset
  repeat' first
    | with_reducible exact Apart.refl _
    | with_reducible assumption
    | (intro x; first | (refine Apart.use (x := x) ?_ (fun hx => ?_); rotate_left; clear_value x; rotate_right; subst x) | clear_value x | skip)
    | lift_lets -underBinder
    | with_reducible apply Apart.ite
    | with_reducible apply Apart.step (State.log_quiet ?_ (Quiet.refl _))
    | with_reducible apply Apart.step (State.setEvt_quiet ?_ (Quiet.refl _))
    | with_reducible apply State.withdraw_apart
    | with_reducible apply State.updTime_apart
    | split

theorem State.takeOffset_apart {nd : Node} {u : State} {s : State} {n : Node} {theta : Int} (h_n : n = nd) (hs : Apart nd u s) : Apart nd u ((State.takeOffset (s) (n) (theta))) := by
  refine Apart.trans hs ?_
  unfold State.takeOffset
  repeat' first
    | with_reducible exact Apart.refl _
    | with_reducible assumption
    | (intro x; first | (refine Apart.use (x := x) ?_ (fun hx => ?_); rotate_left; clear_value x; rotate_right; subst x) | clear_value x | skip)
    | lift_lets -underBinder
    | with_reducible apply Apart.ite
    | with_reducible apply State.judgeOffset_apart
    | with_reducible apply State.withdraw_apart
    | with_reducible apply State.updTime_apart
    | with_reducible apply State.updTimeQ_apart

end Sys2Proof.Machine
end

