-- ==== Sys2Proof/Laws/ApartDistOps.lean ====
section
/-! SUPPORT. Which part the operations of `Sys2Proof.Machine.DistOps` act at, and whether they leave its time alone. -/

namespace Sys2Proof.Machine

open Sys2Proof

set_option linter.unusedVariables false

theorem State.updDom_quiet {nd : Node} {u : State} {s : State} {tag : BitVec 24} {f : GdDom → GdDom} (hn : nd = .gd) (hs : Quiet nd u s) : Quiet nd u ((State.updDom (s) (tag) (f))) := by
  subst hn
  refine Quiet.trans hs ?_
  unfold State.updDom
  repeat' first
    | with_reducible exact Quiet.refl _
    | with_reducible rfl
    | ((with_reducible apply State.updGd_quiet); rotate_left; focus (intro t; ((repeat' split) <;> rfl)))

theorem State.topLost_quiet {nd : Node} {u : State} {s : State} {d : DomRec} (hn : nd = .gd) (hs : Quiet nd u s) : Quiet nd u ((State.topLost (s) (d))) := by
  subst hn
  refine Quiet.trans hs ?_
  unfold State.topLost
  repeat' first
    | with_reducible exact Quiet.refl _
    | with_reducible rfl
    | intro x
    | lift_lets -underBinder
    | with_reducible apply Quiet.ite
    | with_reducible apply State.logG_quiet
    | with_reducible apply State.updDom_quiet

theorem State.gdUp_quiet {nd : Node} {u : State} {s : State} {d : DomRec} {cls key : Nat} {fs : List Frame} {relay : Bool} {from_ : Nat} (hn : nd = .gd) (hs : Quiet nd u s) : Quiet nd u ((State.gdUp (s) (d) (cls) (key) (fs) (relay) (from_))) := by
  subst hn
  refine Quiet.trans hs ?_
  unfold State.gdUp
  repeat' first
    | with_reducible exact Quiet.refl _
    | with_reducible assumption
    | with_reducible rfl
    | (intro x; first | (refine Quiet.use (x := x) ?_ (fun hx => ?_); rotate_left; clear_value x; rotate_right; subst x) | clear_value x)
    | lift_lets -underBinder
    | with_reducible apply State.send_quiet
    | with_reducible apply State.topLost_quiet
    | with_reducible apply State.updDom_quiet
    | ((with_reducible apply State.updCom_quiet); rotate_left; focus (intro t; rfl))
    | split

theorem State.gdDown_quiet {nd : Node} {u : State} {s : State} {d : DomRec} {cls : Nat} {kids : List Nat} {per : Nat → List Frame} {raw : List Frame} (hn : nd = .gd) (hs : Quiet nd u s) : Quiet nd u ((State.gdDown (s) (d) (cls) (kids) (per) (raw))) := by
  subst hn
  refine Quiet.trans hs ?_
  unfold State.gdDown
  repeat' first
    | with_reducible exact Quiet.refl _
    | with_reducible assumption
    | with_reducible rfl
    | (intro x; first | (refine Quiet.use (x := x) ?_ (fun hx => ?_); rotate_left; clear_value x; rotate_right; subst x) | (have hf := funext (f := x) (g := x) (fun _ => rfl); clear hf; subst x) | clear_value x | skip)
    | lift_lets -underBinder
    | with_reducible apply Quiet.ite
    | with_reducible apply State.send_quiet
    | with_reducible apply Quiet.foldl
    | split

theorem State.mirror_quiet {nd : Node} {u : State} {s : State} {cls : Nat} {fs : List Frame} (hn : nd = .gd) (hs : Quiet nd u s) : Quiet nd u ((State.mirror (s) (cls) (fs))) := by
  subst hn
  refine Quiet.trans hs ?_
  unfold State.mirror
  repeat' first
    | with_reducible exact Quiet.refl _
    | with_reducible rfl
    | (intro x; first | clear_value x | skip)
    | lift_lets -underBinder
    | with_reducible apply Quiet.ite
    | with_reducible apply State.send_quiet

theorem State.upPart_quiet {nd : Node} {u : State} {s : State} {l : LinkId} {d : DomRec} {cls : Nat} {fs : List Frame} {die : Option Nat} (h_l : l.node = nd) (hn : nd = .gd) (hs : Quiet nd u s) : Quiet nd u ((State.upPart (s) (l) (d) (cls) (fs) (die)).1) := by
  subst hn
  refine Quiet.trans hs ?_
  unfold State.upPart
  repeat' first
    | with_reducible exact Quiet.refl _
    | with_reducible assumption
    | with_reducible rfl
    | with_reducible apply State.gdUp_quiet
    | with_reducible apply State.logG_quiet
    | with_reducible apply State.malformed_quiet
    | with_reducible apply State.routeChild_quiet
    | split

end Sys2Proof.Machine
end

