-- ==== Sys2Proof/Laws/ApartSoftOps.lean ====
section
/-! SUPPORT. Which part the operations of `Sys2Proof.Machine.SoftOps` act at, and whether they leave its time alone. -/

namespace Sys2Proof.Machine

open Sys2Proof

set_option linter.unusedVariables false

theorem State.updSoft_quiet {nd : Node} {u : State} {s : State} {tag : BitVec 24} {index : Nat} {f : Soft → Soft} (hn : nd = .gd) (hs : Quiet nd u s) : Quiet nd u ((State.updSoft (s) (tag) (index) (f))) := by
  subst hn
  refine Quiet.trans hs ?_
  unfold State.updSoft
  repeat' first
    | with_reducible exact Quiet.refl _
    | with_reducible rfl
    | ((with_reducible apply State.updGd_quiet); rotate_left; focus (intro t; ((repeat' split) <;> rfl)))

theorem State.openSoft_quiet {nd : Node} {u : State} {s : State} {d : GdDom} {index : Nat} {gen : BitVec 2} (hn : nd = .gd) (hs : Quiet nd u s) : Quiet nd u ((State.openSoft (s) (d) (index) (gen)).1) := by
  subst hn
  refine Quiet.trans hs ?_
  unfold State.openSoft
  repeat' first
    | with_reducible exact Quiet.refl _
    | with_reducible rfl
    | (intro x; clear_value x)
    | lift_lets -underBinder
    | ((with_reducible apply State.updGd_quiet); rotate_left; focus (intro t; rfl))
    | split

theorem State.slotWait_quiet {nd : Node} {u : State} {s : State} {c : Int}  (hs : Quiet nd u s) : Quiet nd u ((State.slotWait (s) (c)).1) := by
  refine Quiet.trans hs ?_
  unfold State.slotWait
  repeat' first
    | with_reducible exact Quiet.refl _
    | (intro x; clear_value x)
    | lift_lets -underBinder
    | with_reducible apply State.takeFresh_quiet
    | split

theorem State.noteDlat_quiet {nd : Node} {u : State} {s : State} {d : GdDom} (hn : nd = .gd) (hs : Quiet nd u s) : Quiet nd u ((State.noteDlat (s) (d))) := by
  subst hn
  refine Quiet.trans hs ?_
  unfold State.noteDlat
  repeat' first
    | with_reducible exact Quiet.refl _
    | with_reducible rfl
    | intro x
    | lift_lets -underBinder
    | with_reducible apply Quiet.ite
    | with_reducible apply State.logG_quiet
    | with_reducible apply State.updDom_quiet

theorem State.topD_quiet {nd : Node} {u : State} {s : State} {d : GdDom} {c : Int} (hn : nd = .gd) (hs : Quiet nd u s) : Quiet nd u ((State.topD (s) (d) (c)).1) := by
  subst hn
  refine Quiet.trans hs ?_
  unfold State.topD
  repeat' first
    | with_reducible exact Quiet.refl _
    | with_reducible assumption
    | with_reducible rfl
    | (intro x; first | (refine Quiet.use (x := x.1) ?_ (fun hx => ?_); rotate_left; clear_value x; rotate_right; subst x) | clear_value x)
    | lift_lets -underBinder
    | with_reducible apply State.noteDlat_quiet
    | with_reducible apply State.slotWait_quiet
    | split

theorem State.passTurn_quiet {nd : Node} {u : State} {s : State} {d : GdDom} {index : Nat} {gen : BitVec 2} {c : Int} (hn : nd = .gd) (hs : Quiet nd u s) : Quiet nd u ((State.passTurn (s) (d) (index) (gen) (c))) := by
  subst hn
  refine Quiet.trans hs ?_
  unfold State.passTurn
  repeat' first
    | with_reducible exact Quiet.refl _
    | with_reducible rfl
    | (intro x; clear_value x)
    | lift_lets -underBinder
    | with_reducible apply State.updSoft_quiet

theorem State.journalTurn_quiet {nd : Node} {u : State} {s : State} {d : DomRec} {f : Frame} (hn : nd = .gd) (hs : Quiet nd u s) : Quiet nd u ((State.journalTurn (s) (d) (f))) := by
  subst hn
  refine Quiet.trans hs ?_
  unfold State.journalTurn
  repeat' first
    | with_reducible exact Quiet.refl _
    | with_reducible rfl
    | intro x
    | lift_lets -underBinder
    | with_reducible apply Quiet.ite
    | ((with_reducible apply State.updGd_quiet); rotate_left; focus (intro t; exact Gd.journalWrite_time ..))

theorem State.spread_quiet {nd : Node} {u : State} {s : State} {d : GdDom} {launch : Bool} {first : Frame} {data alloc : List Byte} {e : Soft} {copy only : Bool} (hn : nd = .gd) (hs : Quiet nd u s) : Quiet nd u ((State.spread (s) (d) (launch) (first) (data) (alloc) (e) (copy) (only))) := by
  subst hn
  refine Quiet.trans hs ?_
  unfold State.spread
  repeat' first
    | with_reducible exact Quiet.refl _
    | with_reducible assumption
    | with_reducible rfl
    | (intro x; first | (refine Quiet.use (x := x) ?_ (fun hx => ?_); rotate_left; clear_value x; rotate_right; subst x) | clear_value x | skip)
    | lift_lets -underBinder
    | with_reducible apply Quiet.ite
    | with_reducible apply State.gdDown_quiet
    | with_reducible apply State.mirror_quiet

theorem State.turnData_quiet {nd : Node} {u : State} {s : State} {e : Soft} (hn : nd = .gd) (hs : Quiet nd u s) : Quiet nd u ((State.turnData (s) (e)).1) := by
  subst hn
  refine Quiet.trans hs ?_
  unfold State.turnData
  repeat' first
    | with_reducible exact Quiet.refl _
    | with_reducible assumption
    | with_reducible rfl
    | (intro x; first | (refine Quiet.use (x := x) ?_ (fun hx => ?_); rotate_left; clear_value x; rotate_right; subst x) | clear_value x | skip)
    | lift_lets -underBinder
    | with_reducible apply Quiet.ite
    | with_reducible apply State.logG_quiet
    | split

theorem State.gdTurn_quiet {nd : Node} {u : State} {s : State} {d : GdDom} {index : Nat} {e : Soft} (hn : nd = .gd) (hs : Quiet nd u s) : Quiet nd u ((State.gdTurn (s) (d) (index) (e))) := by
  subst hn
  refine Quiet.trans hs ?_
  unfold State.gdTurn
  repeat' first
    | with_reducible exact Quiet.refl _
    | with_reducible rfl
    | (intro x; clear_value x)
    | lift_lets -underBinder
    | with_reducible apply State.journalTurn_quiet
    | with_reducible apply State.passTurn_quiet
    | with_reducible apply State.spread_quiet
    | with_reducible apply State.topD_quiet
    | with_reducible apply State.turnData_quiet
    | split

theorem State.softCheck_quiet {nd : Node} {u : State} {s : State} {tag : BitVec 24} {index : Nat} (hn : nd = .gd) (hs : Quiet nd u s) : Quiet nd u ((State.softCheck (s) (tag) (index))) := by
  subst hn
  refine Quiet.trans hs ?_
  unfold State.softCheck
  repeat' first
    | with_reducible exact Quiet.refl _
    | with_reducible assumption
    | with_reducible rfl
    | (intro x; first | (refine Quiet.use (x := x) ?_ (fun hx => ?_); rotate_left; clear_value x; rotate_right; subst x) | clear_value x | skip)
    | lift_lets -underBinder
    | with_reducible apply Quiet.ite
    | with_reducible apply State.gdTurn_quiet
    | with_reducible apply State.gdUp_quiet
    | with_reducible apply State.updSoft_quiet
    | split

theorem State.dupArrive_quiet {nd : Node} {u : State} {s : State} {tag : BitVec 24} {index : Nat} (hn : nd = .gd) (hs : Quiet nd u s) : Quiet nd u ((State.dupArrive (s) (tag) (index))) := by
  subst hn
  refine Quiet.trans hs ?_
  unfold State.dupArrive
  repeat' first
    | with_reducible exact Quiet.refl _
    | with_reducible rfl
    | with_reducible apply State.updSoft_quiet

theorem State.gdUnderway_quiet {nd : Node} {u : State} {s : State} {d : GdDom} {i : Nat} {fs : List Frame} (hn : nd = .gd) (hs : Quiet nd u s) : Quiet nd u ((State.gdUnderway (s) (d) (i) (fs))) := by
  subst hn
  refine Quiet.trans hs ?_
  unfold State.gdUnderway
  repeat' first
    | with_reducible exact Quiet.refl _
    | with_reducible rfl
    | intro x
    | lift_lets -underBinder
    | with_reducible apply Quiet.ite
    | with_reducible apply State.openSoft_quiet
    | with_reducible apply State.updSoft_quiet
    | split

theorem State.mismatched_quiet {nd : Node} {u : State} {s : State} {d : GdDom} {i index : Nat} (hn : nd = .gd) (hs : Quiet nd u s) : Quiet nd u ((State.mismatched (s) (d) (i) (index))) := by
  subst hn
  refine Quiet.trans hs ?_
  unfold State.mismatched
  repeat' first
    | with_reducible exact Quiet.refl _
    | with_reducible rfl
    | intro x
    | lift_lets -underBinder
    | with_reducible apply Quiet.ite
    | with_reducible apply State.logG_quiet
    | with_reducible apply State.softCheck_quiet
    | with_reducible apply State.updSoft_quiet

theorem State.gdArrive_quiet {nd : Node} {u : State} {s : State} {d : GdDom} {p i : Nat} {copy : Bool} {fs : List Frame} (hn : nd = .gd) (hs : Quiet nd u s) : Quiet nd u ((State.gdArrive (s) (d) (p) (i) (copy) (fs))) := by
  subst hn
  refine Quiet.trans hs ?_
  unfold State.gdArrive
  repeat' first
    | with_reducible exact Quiet.refl _
    | with_reducible assumption
    | with_reducible rfl
    | (intro x; first | (refine Quiet.use (x := x) ?_ (fun hx => ?_); rotate_left; clear_value x; rotate_right; subst x) | clear_value x | skip)
    | lift_lets -underBinder
    | with_reducible apply Quiet.ite
    | with_reducible apply State.dupArrive_quiet
    | with_reducible apply State.logG_quiet
    | with_reducible apply State.mirror_quiet
    | with_reducible apply State.mismatched_quiet
    | with_reducible apply State.openSoft_quiet
    | with_reducible apply State.softCheck_quiet
    | with_reducible apply State.updSoft_quiet
    | split

theorem State.gdDownRx_quiet {nd : Node} {u : State} {s : State} {d : GdDom} {p : Nat} {launch copy : Bool} {fs : List Frame} (hn : nd = .gd) (hs : Quiet nd u s) : Quiet nd u ((State.gdDownRx (s) (d) (p) (launch) (copy) (fs))) := by
  subst hn
  refine Quiet.trans hs ?_
  unfold State.gdDownRx
  repeat' first
    | with_reducible exact Quiet.refl _
    | with_reducible assumption
    | with_reducible rfl
    | (intro x; first | (refine Quiet.use (x := x) ?_ (fun hx => ?_); rotate_left; clear_value x; rotate_right; subst x) | clear_value x | skip)
    | lift_lets -underBinder
    | with_reducible apply Quiet.ite
    | with_reducible apply State.journalTurn_quiet
    | with_reducible apply State.logG_quiet
    | with_reducible apply State.openSoft_quiet
    | with_reducible apply State.passTurn_quiet
    | with_reducible apply State.spread_quiet
    | split

end Sys2Proof.Machine
end

