-- ==== Sys2Proof/Laws/ApartBulkOps.lean ====
section
/-! SUPPORT. Which part the operations of `Sys2Proof.Machine.BulkOps` act at, and whether they leave its time alone. -/

namespace Sys2Proof.Machine

open Sys2Proof

set_option linter.unusedVariables false

theorem State.originate_quiet {nd : Node} {u : State} {s : State} {kind scope dest : Nat} {domain : BitVec 24} {b : List Byte} {port : Option Nat} (hn : nd = .gd) (hs : Quiet nd u s) : Quiet nd u ((State.originate (s) (kind) (scope) (dest) (domain) (b) (port))) := by
  subst hn
  refine Quiet.trans hs ?_
  unfold State.originate
  repeat' first
    | with_reducible exact Quiet.refl _
    | with_reducible assumption
    | with_reducible rfl
    | (intro x; first | (refine Quiet.use (x := x) ?_ (fun hx => ?_); rotate_left; clear_value x; rotate_right; subst x) | clear_value x | skip)
    | lift_lets -underBinder
    | with_reducible apply State.sendAll_quiet
    | ((with_reducible apply State.updGd_quiet); rotate_left; focus (intro t; rfl))
    | with_reducible apply Quiet.foldl

theorem State.imageDown_quiet {nd : Node} {u : State} {s : State} {i : Nat} (hn : nd = .gd) (hs : Quiet nd u s) : Quiet nd u ((State.imageDown (s) (i))) := by
  subst hn
  refine Quiet.trans hs ?_
  unfold State.imageDown
  repeat' first
    | with_reducible exact Quiet.refl _
    | with_reducible assumption
    | with_reducible rfl
    | (intro x; first | (refine Quiet.use (x := x) ?_ (fun hx => ?_); rotate_left; clear_value x; rotate_right; subst x) | skip)
    | lift_lets -underBinder
    | with_reducible apply Quiet.ite
    | with_reducible apply State.originate_quiet
    | ((with_reducible apply State.updGd_quiet); rotate_left; focus (intro t; rfl))
    | split

theorem State.imageDownOnce_quiet {nd : Node} {u : State} {s : State} {i : Nat} (hn : nd = .gd) (hs : Quiet nd u s) : Quiet nd u ((State.imageDownOnce (s) (i))) := by
  subst hn
  refine Quiet.trans hs ?_
  unfold State.imageDownOnce
  repeat' first
    | with_reducible exact Quiet.refl _
    | with_reducible rfl
    | with_reducible apply Quiet.ite
    | with_reducible apply State.imageDown_quiet
    | intro x

theorem State.gdRefuse_quiet {nd : Node} {u : State} {s : State} {r : Refused} (hn : nd = .gd) (hs : Quiet nd u s) : Quiet nd u ((State.gdRefuse (s) (r))) := by
  subst hn
  refine Quiet.trans hs ?_
  unfold State.gdRefuse
  repeat' first
    | with_reducible exact Quiet.refl _
    | with_reducible rfl
    | (intro x; clear_value x)
    | lift_lets -underBinder
    | with_reducible apply State.logG_quiet
    | ((with_reducible apply State.updGd_quiet); rotate_left; focus (intro t; rfl))

end Sys2Proof.Machine
end

