-- ==== Sys2Proof/Laws/ApartCensusOps.lean ====
section
/-! SUPPORT. Which part the operations of `Sys2Proof.Machine.CensusOps` act at, and whether they leave its time alone. -/

namespace Sys2Proof.Machine

open Sys2Proof

set_option linter.unusedVariables false

theorem State.updCensus_quiet {nd : Node} {u : State} {s : State} {f : Census → Census} (hn : nd = .gd) (hs : Quiet nd u s) : Quiet nd u ((State.updCensus (s) (f))) := by
  subst hn
  refine Quiet.trans hs ?_
  unfold State.updCensus
  repeat' first
    | with_reducible exact Quiet.refl _
    | with_reducible rfl
    | ((with_reducible apply State.updGd_quiet); rotate_left; focus (intro t; rfl))

theorem State.gdAnswer_quiet {nd : Node} {u : State} {s : State} {f : Frame} {port : Nat} (hn : nd = .gd) (hs : Quiet nd u s) : Quiet nd u ((State.gdAnswer (s) (f) (port))) := by
  subst hn
  refine Quiet.trans hs ?_
  unfold State.gdAnswer
  repeat' first
    | with_reducible exact Quiet.refl _
    | with_reducible assumption
    | with_reducible rfl
    | (intro x; first | (refine Quiet.use (x := x) ?_ (fun hx => ?_); rotate_left; clear_value x; rotate_right; subst x) | (have hf : (x : LinkId) = x := rfl; clear hf; subst x) | clear_value x | skip)
    | lift_lets -underBinder
    | with_reducible apply Quiet.ite
    | with_reducible apply State.send_quiet
    | with_reducible apply Quiet.foldl
    | split

theorem State.censusStart_quiet {nd : Node} {u : State} {s : State} {ports : List Nat} {doms : Option (List (BitVec 24))} {mirror full : Bool} (hn : nd = .gd) (hs : Quiet nd u s) : Quiet nd u ((State.censusStart (s) (ports) (doms) (mirror) (full))) := by
  subst hn
  refine Quiet.trans hs ?_
  unfold State.censusStart
  repeat' first
    | with_reducible exact Quiet.refl _
    | with_reducible assumption
    | with_reducible rfl
    | (intro x; first | (refine Quiet.use (x := x) ?_ (fun hx => ?_); rotate_left; clear_value x; rotate_right; subst x) | clear_value x | skip)
    | lift_lets -underBinder
    | with_reducible apply State.logG_quiet
    | with_reducible apply State.send_quiet
    | ((with_reducible apply State.updGd_quiet); rotate_left; focus (intro t; first | rfl | exact Gd.journalWrite_time ..))
    | with_reducible apply Quiet.foldl

theorem State.rebuildOne_quiet {nd : Node} {u : State} {s : State} {c : Census} {d : GdDom} {index : Nat} {recs : List CensusRec} (hn : nd = .gd) (hs : Quiet nd u s) : Quiet nd u ((State.rebuildOne (s) (c) (d) (index) (recs))) := by
  subst hn
  refine Quiet.trans hs ?_
  unfold State.rebuildOne
  repeat' first
    | with_reducible exact Quiet.refl _
    | with_reducible assumption
    | with_reducible rfl
    | (intro x; first | (refine Quiet.use (x := x) ?_ (fun hx => ?_); rotate_left; clear_value x; rotate_right; subst x) | (have hf := funext (f := x) (g := x) (fun _ => rfl); clear hf; subst x) | clear_value x | skip)
    | lift_lets -underBinder
    | with_reducible apply Quiet.ite
    | with_reducible apply State.logG_quiet
    | with_reducible apply State.send_quiet
    | with_reducible apply State.updCensus_quiet
    | ((with_reducible apply State.updGd_quiet); rotate_left; focus (intro t; rfl))
    | split

theorem State.censusRebuild_quiet {nd : Node} {u : State} {s : State} {c : Census} (hn : nd = .gd) (hs : Quiet nd u s) : Quiet nd u ((State.censusRebuild (s) (c))) := by
  subst hn
  refine Quiet.trans hs ?_
  unfold State.censusRebuild
  repeat' first
    | with_reducible exact Quiet.refl _
    | with_reducible assumption
    | with_reducible rfl
    | (intro x; first | (refine Quiet.use (x := x) ?_ (fun hx => ?_); rotate_left; clear_value x; rotate_right; subst x) | skip)
    | lift_lets -underBinder
    | with_reducible apply Quiet.ite
    | with_reducible apply State.rebuildOne_quiet
    | with_reducible apply State.updCensus_quiet
    | ((with_reducible apply State.updGd_quiet); rotate_left; focus (intro t; rfl))
    | with_reducible apply Quiet.foldl
    | split

theorem State.gdJoinReqs_quiet {nd : Node} {u : State} {s : State} (hn : nd = .gd) (hs : Quiet nd u s) : Quiet nd u ((State.gdJoinReqs (s))) := by
  subst hn
  refine Quiet.trans hs ?_
  unfold State.gdJoinReqs
  repeat' first
    | with_reducible exact Quiet.refl _
    | with_reducible assumption
    | with_reducible rfl
    | (intro x; first | (refine Quiet.use (x := x) ?_ (fun hx => ?_); rotate_left; clear_value x; rotate_right; subst x) | clear_value x | skip)
    | lift_lets -underBinder
    | with_reducible apply State.gdUp_quiet
    | ((with_reducible apply State.updGd_quiet); rotate_left; focus (intro t; rfl))
    | with_reducible apply Quiet.foldl
    | split

theorem State.censusEnd_quiet {nd : Node} {u : State} {s : State} {c : Census} (hn : nd = .gd) (hs : Quiet nd u s) : Quiet nd u ((State.censusEnd (s) (c))) := by
  subst hn
  refine Quiet.trans hs ?_
  unfold State.censusEnd
  repeat' first
    | with_reducible exact Quiet.refl _
    | with_reducible assumption
    | with_reducible rfl
    | (intro x; first | (refine Quiet.use (x := x) ?_ (fun hx => ?_); rotate_left; clear_value x; rotate_right; subst x) | clear_value x | skip)
    | lift_lets -underBinder
    | with_reducible apply State.gdAnswer_quiet
    | with_reducible apply State.gdJoinReqs_quiet
    | with_reducible apply State.softCheck_quiet
    | ((with_reducible apply State.updGd_quiet); rotate_left; focus (intro t; rfl))
    | with_reducible apply Quiet.foldl

theorem State.censusAdvance_quiet {nd : Node} {u : State} {s : State} (hn : nd = .gd) (hs : Quiet nd u s) : Quiet nd u ((State.censusAdvance (s))) := by
  subst hn
  refine Quiet.trans hs ?_
  unfold State.censusAdvance
  repeat' first
    | with_reducible exact Quiet.refl _
    | with_reducible assumption
    | with_reducible rfl
    | (intro x; first | (refine Quiet.use (x := x) ?_ (fun hx => ?_); rotate_left; clear_value x; rotate_right; subst x) | clear_value x | skip)
    | lift_lets -underBinder
    | with_reducible apply Quiet.ite
    | with_reducible apply State.censusEnd_quiet
    | with_reducible apply State.censusRebuild_quiet
    | with_reducible apply State.send_quiet
    | with_reducible apply State.updCensus_quiet
    | ((with_reducible apply State.updGd_quiet); rotate_left; focus (intro t; rfl))
    | with_reducible apply Quiet.foldl
    | split

theorem State.fullCensus_quiet {nd : Node} {u : State} {s : State} {doms : Option (List (BitVec 24))} {mirror : Bool} (hn : nd = .gd) (hs : Quiet nd u s) : Quiet nd u ((State.fullCensus (s) (doms) (mirror))) := by
  subst hn
  refine Quiet.trans hs ?_
  unfold State.fullCensus
  repeat' first
    | with_reducible exact Quiet.refl _
    | with_reducible rfl
    | with_reducible apply State.censusAdvance_quiet
    | with_reducible apply State.censusStart_quiet

theorem State.downPortUp_quiet {nd : Node} {u : State} {s : State} {p : Nat} (hn : nd = .gd) (hs : Quiet nd u s) : Quiet nd u ((State.downPortUp (s) (p))) := by
  subst hn
  refine Quiet.trans hs ?_
  unfold State.downPortUp
  repeat' first
    | with_reducible exact Quiet.refl _
    | with_reducible assumption
    | with_reducible rfl
    | (intro x; first | (refine Quiet.use (x := x) ?_ (fun hx => ?_); rotate_left; clear_value x; rotate_right; subst x) | clear_value x | skip)
    | lift_lets -underBinder
    | with_reducible apply Quiet.ite
    | with_reducible apply State.censusStart_quiet
    | with_reducible apply State.send_quiet
    | ((with_reducible apply State.updGd_quiet); rotate_left; focus (intro t; rfl))
    | split

theorem State.gdPortUp_quiet {nd : Node} {u : State} {s : State} {p : Nat} (hn : nd = .gd) (hs : Quiet nd u s) : Quiet nd u ((State.gdPortUp (s) (p))) := by
  subst hn
  refine Quiet.trans hs ?_
  unfold State.gdPortUp
  repeat' first
    | with_reducible exact Quiet.refl _
    | with_reducible assumption
    | with_reducible rfl
    | (intro x; first | (refine Quiet.use (x := x) ?_ (fun hx => ?_); rotate_left; clear_value x; rotate_right; subst x) | skip)
    | lift_lets -underBinder
    | with_reducible apply Quiet.ite
    | with_reducible apply State.downPortUp_quiet
    | with_reducible apply State.fullCensus_quiet
    | with_reducible apply State.imageDownOnce_quiet
    | with_reducible apply State.unholdAll_quiet
    | ((with_reducible apply State.updGd_quiet); rotate_left; focus (intro t; rfl))

end Sys2Proof.Machine
end

