-- ==== Sys2Proof/Laws/ApartHealthOps.lean ====
section
/-! SUPPORT. Which part the operations of `Sys2Proof.Machine.HealthOps` act at, and whether they leave its time alone. -/

namespace Sys2Proof.Machine

open Sys2Proof

set_option linter.unusedVariables false

theorem State.toChild_quiet {nd : Node} {u : State} {s : State} {i : Nat} {f : Frame} (hn : nd = .gd) (hs : Quiet nd u s) : Quiet nd u ((State.toChild (s) (i) (f))) := by
  subst hn
  refine Quiet.trans hs ?_
  unfold State.toChild
  repeat' first
    | with_reducible exact Quiet.refl _
    | with_reducible rfl
    | with_reducible apply State.gdDown_quiet

theorem State.absentFrom_quiet {nd : Node} {u : State} {s : State} {tag : BitVec 24} {i : Nat} (hn : nd = .gd) (hs : Quiet nd u s) : Quiet nd u ((State.absentFrom (s) (tag) (i))) := by
  subst hn
  refine Quiet.trans hs ?_
  unfold State.absentFrom
  repeat' first
    | with_reducible exact Quiet.refl _
    | with_reducible assumption
    | with_reducible rfl
    | (intro x; first | (refine Quiet.use (x := x) ?_ (fun hx => ?_); rotate_left; clear_value x; rotate_right; subst x) | (have hf := funext (f := x) (g := x) (fun _ => rfl); clear hf; subst x) | skip)
    | lift_lets -underBinder
    | with_reducible apply Quiet.ite
    | with_reducible apply State.logG_quiet
    | with_reducible apply State.softCheck_quiet
    | with_reducible apply State.updDom_quiet
    | ((with_reducible apply State.updGd_quiet); rotate_left; focus (intro t; rfl))
    | with_reducible apply Quiet.foldl
    | split

theorem State.absentAll_quiet {nd : Node} {u : State} {s : State} {i : Nat} (hn : nd = .gd) (hs : Quiet nd u s) : Quiet nd u ((State.absentAll (s) (i))) := by
  subst hn
  refine Quiet.trans hs ?_
  unfold State.absentAll
  repeat' first
    | with_reducible exact Quiet.refl _
    | with_reducible rfl
    | intro x
    | lift_lets -underBinder
    | with_reducible apply State.absentFrom_quiet
    | with_reducible apply Quiet.foldl

theorem State.markAbsent_quiet {nd : Node} {u : State} {s : State} {i : Nat} (hn : nd = .gd) (hs : Quiet nd u s) : Quiet nd u ((State.markAbsent (s) (i))) := by
  subst hn
  refine Quiet.trans hs ?_
  unfold State.markAbsent
  repeat' first
    | with_reducible exact Quiet.refl _
    | with_reducible assumption
    | with_reducible rfl
    | (intro x; first | (refine Quiet.use (x := x) ?_ (fun hx => ?_); rotate_left; clear_value x; rotate_right; subst x) | skip)
    | lift_lets -underBinder
    | with_reducible apply Quiet.ite
    | with_reducible apply State.absentAll_quiet
    | ((with_reducible apply State.updGd_quiet); rotate_left; focus (intro t; rfl))
    | with_reducible apply State.updLink_quiet

theorem State.updHealth_quiet {nd : Node} {u : State} {s : State} {i : Nat} {f : Health → Health} (hn : nd = .gd) (hs : Quiet nd u s) : Quiet nd u ((State.updHealth (s) (i) (f))) := by
  subst hn
  refine Quiet.trans hs ?_
  unfold State.updHealth
  repeat' first
    | with_reducible exact Quiet.refl _
    | with_reducible rfl
    | ((with_reducible apply State.updGd_quiet); rotate_left; focus (intro t; rfl))

theorem State.expelAsk_quiet {nd : Node} {u : State} {s : State} {i : Nat} {again : Bool} (hn : nd = .gd) (hs : Quiet nd u s) : Quiet nd u ((State.expelAsk (s) (i) (again))) := by
  subst hn
  refine Quiet.trans hs ?_
  unfold State.expelAsk
  repeat' first
    | with_reducible exact Quiet.refl _
    | with_reducible assumption
    | with_reducible rfl
    | (intro x; first | (refine Quiet.use (x := x) ?_ (fun hx => ?_); rotate_left; clear_value x; rotate_right; subst x) | clear_value x | skip)
    | lift_lets -underBinder
    | with_reducible apply Quiet.ite
    | with_reducible apply State.gdUp_quiet
    | with_reducible apply State.updHealth_quiet

theorem State.healthEvent_quiet {nd : Node} {u : State} {s : State} {i ev count : Nat} {f : Frame} (hn : nd = .gd) (hs : Quiet nd u s) : Quiet nd u ((State.healthEvent (s) (i) (ev) (count) (f))) := by
  subst hn
  refine Quiet.trans hs ?_
  unfold State.healthEvent
  repeat' first
    | with_reducible exact Quiet.refl _
    | with_reducible assumption
    | with_reducible rfl
    | (intro x; first | (refine Quiet.use (x := x) ?_ (fun hx => ?_); rotate_left; clear_value x; rotate_right; subst x) | clear_value x)
    | lift_lets -underBinder
    | with_reducible apply State.expelAsk_quiet
    | with_reducible apply State.updHealth_quiet
    | ((with_reducible apply State.updGd_quiet); rotate_left; focus (intro t; exact Gd.journalWrite_time ..))

theorem State.healthSeen_quiet {nd : Node} {u : State} {s : State} {p ev : Nat} {code : ErrCode} (hn : nd = .gd) (hs : Quiet nd u s) : Quiet nd u ((State.healthSeen (s) (p) (ev) (code))) := by
  subst hn
  refine Quiet.trans hs ?_
  unfold State.healthSeen
  repeat' first
    | with_reducible exact Quiet.refl _
    | with_reducible rfl
    | (intro x; first | clear_value x | skip)
    | lift_lets -underBinder
    | with_reducible apply Quiet.ite
    | with_reducible apply State.healthEvent_quiet
    | with_reducible apply State.mirror_quiet

theorem State.readmitted_quiet {nd : Node} {u : State} {s : State} {i : Nat} (hn : nd = .gd) (hs : Quiet nd u s) : Quiet nd u ((State.readmitted (s) (i))) := by
  subst hn
  refine Quiet.trans hs ?_
  unfold State.readmitted
  repeat' first
    | with_reducible exact Quiet.refl _
    | with_reducible assumption
    | with_reducible rfl
    | (intro x; (refine Quiet.use (x := x) ?_ (fun hx => ?_); rotate_left; clear_value x; rotate_right; subst x))
    | lift_lets -underBinder
    | with_reducible apply State.updHealth_quiet
    | ((with_reducible apply State.updGd_quiet); rotate_left; focus (intro t; rfl))

theorem State.readmit_quiet {nd : Node} {u : State} {s : State} {i : Nat} (hn : nd = .gd) (hs : Quiet nd u s) : Quiet nd u ((State.readmit (s) (i))) := by
  subst hn
  refine Quiet.trans hs ?_
  unfold State.readmit
  repeat' first
    | with_reducible exact Quiet.refl _
    | with_reducible rfl
    | (intro x; clear_value x)
    | lift_lets -underBinder
    | with_reducible apply State.mirror_quiet
    | with_reducible apply State.readmitted_quiet
    | with_reducible apply State.toChild_quiet

theorem State.readmitDue_quiet {nd : Node} {u : State} {s : State} (hn : nd = .gd) (hs : Quiet nd u s) : Quiet nd u ((State.readmitDue (s))) := by
  subst hn
  refine Quiet.trans hs ?_
  unfold State.readmitDue
  repeat' first
    | with_reducible exact Quiet.refl _
    | with_reducible rfl
    | intro x
    | lift_lets -underBinder
    | with_reducible apply State.readmit_quiet
    | with_reducible apply Quiet.foldl

end Sys2Proof.Machine
end

