-- ==== Sys2Proof/Laws/ApartLinkOps.lean ====
section
/-! SUPPORT. Which part the operations of `Sys2Proof.Machine.LinkOps` act at, and whether they leave its time alone. -/

namespace Sys2Proof.Machine

open Sys2Proof

set_option linter.unusedVariables false

theorem State.addTokens_quiet {nd : Node} {u : State} {s : State} {l : LinkId} (h_l : l.node = nd) (hs : Quiet nd u s) : Quiet nd u ((State.addTokens (s) (l))) := by
  refine Quiet.trans hs ?_
  unfold State.addTokens
  repeat' first
    | with_reducible exact Quiet.refl _
    | with_reducible assumption
    | (intro x; clear_value x)
    | lift_lets -underBinder
    | with_reducible apply State.updLink_quiet

theorem State.reissueOne_quiet {nd : Node} {u : State} {s : State} {l : LinkId} {cls : Nat} {f : Frame} (h_l : l.node = nd) (hs : Quiet nd u s) : Quiet nd u ((State.reissueOne (s) (l) (cls) (f))) := by
  refine Quiet.trans hs ?_
  unfold State.reissueOne
  repeat' first
    | with_reducible exact Quiet.refl _
    | (with_reducible refine (?_ : (_ : Node) = _); first | rfl | assumption | (simp_all only []; done) | (simp_all; done) | (cases nd <;> simp_all; done))
    | (intro x; first | clear_value x | skip)
    | lift_lets -underBinder
    | with_reducible apply Quiet.ite
    | with_reducible apply State.sendAll_quiet
    | ((with_reducible apply State.updCom_quiet); rotate_left; focus (intro t; rfl))
    | split

theorem State.reissue_quiet {nd : Node} {u : State} {s : State} {l : LinkId} (h_l : l.node = nd) (hs : Quiet nd u s) : Quiet nd u ((State.reissue (s) (l))) := by
  refine Quiet.trans hs ?_
  unfold State.reissue
  repeat' first
    | with_reducible exact Quiet.refl _
    | with_reducible assumption
    | (intro x; first | (refine Quiet.use (x := x) ?_ (fun hx => ?_); rotate_left; clear_value x; rotate_right; subst x) | clear_value x | skip)
    | lift_lets -underBinder
    | with_reducible apply State.reissueOne_quiet
    | ((with_reducible apply State.updCom_quiet); rotate_left; focus (intro t; rfl))
    | with_reducible apply State.updLink_quiet
    | with_reducible apply Quiet.foldl

theorem State.chainLost_quiet {nd : Node} {u : State} {s : State} {l : LinkId} {h : Frame} (h_l : l.node = nd) (hs : Quiet nd u s) : Quiet nd u ((State.chainLost (s) (l) (h))) := by
  refine Quiet.trans hs ?_
  unfold State.chainLost
  repeat' first
    | with_reducible exact Quiet.refl _
    | (with_reducible refine (?_ : (_ : Node) = _); first | rfl | assumption | (simp_all only []; done) | (simp_all; done) | (cases nd <;> simp_all; done))
    | intro x
    | lift_lets -underBinder
    | with_reducible apply Quiet.ite
    | with_reducible apply State.updSoft_quiet
    | split

theorem State.linkDown_apart {nd : Node} {u : State} {s : State} {l : LinkId} {cause : Nat} {off : Bool} (h_l : l.node = nd) (hs : Apart nd u s) : Apart nd u ((State.linkDown (s) (l) (cause) (off))) := by
  refine Apart.trans hs ?_
  unfold State.linkDown
  repeat' first
    | with_reducible exact Apart.refl _
    | with_reducible assumption
    | (with_reducible refine (?_ : (_ : Node) = _); first | rfl | assumption | (simp_all only []; done) | (simp_all; done) | (cases nd <;> simp_all; done))
    | (intro x; first | (refine Apart.use (x := x) ?_ (fun hx => ?_); rotate_left; clear_value x; rotate_right; subst x) | clear_value x | skip)
    | lift_lets -underBinder
    | with_reducible apply Apart.ite
    | with_reducible apply Apart.step (State.chainLost_quiet ?_ (Quiet.refl _))
    | with_reducible apply Apart.step (State.healthSeen_quiet ?_ (Quiet.refl _))
    | with_reducible apply Apart.step (State.log_quiet ?_ (Quiet.refl _))
    | with_reducible apply Apart.step (State.reissue_quiet ?_ (Quiet.refl _))
    | with_reducible apply Apart.step (State.setEvt_quiet ?_ (Quiet.refl _))
    | with_reducible apply State.srcInvalid_apart
    | with_reducible apply State.updLink_apart
    | split

theorem State.attemptOver_quiet {nd : Node} {u : State} {s : State} {l : LinkId} (h_l : l.node = nd) (hs : Quiet nd u s) : Quiet nd u ((State.attemptOver (s) (l))) := by
  refine Quiet.trans hs ?_
  unfold State.attemptOver
  repeat' first
    | with_reducible exact Quiet.refl _
    | with_reducible assumption
    | with_reducible apply State.updLink_quiet

theorem State.enterUp_apart {nd : Node} {u : State} {s : State} {l : LinkId} (h_l : l.node = nd) (hs : Apart nd u s) : Apart nd u ((State.enterUp (s) (l))) := by
  refine Apart.trans hs ?_
  unfold State.enterUp
  repeat' first
    | with_reducible exact Apart.refl _
    | with_reducible assumption
    | (with_reducible refine (?_ : (_ : Node) = _); first | rfl | assumption | (simp_all only []; done) | (simp_all; done) | (cases nd <;> simp_all; done))
    | (intro x; first | (refine Apart.use (x := x) ?_ (fun hx => ?_); rotate_left; clear_value x; rotate_right; subst x) | skip)
    | lift_lets -underBinder
    | with_reducible apply Apart.ite
    | with_reducible apply Apart.step (State.gdPortUp_quiet ?_ (Quiet.refl _))
    | with_reducible apply Apart.step (State.log_quiet ?_ (Quiet.refl _))
    | with_reducible apply Apart.step (State.setEvt_quiet ?_ (Quiet.refl _))
    | with_reducible apply State.srcTrained_apart
    | with_reducible apply State.updCom_apart
    | with_reducible apply State.updLink_apart

theorem State.identUp_apart {nd : Node} {u : State} {s : State} {l : LinkId} {rx : Rx} (h_l : l.node = nd) (hs : Apart nd u s) : Apart nd u ((State.identUp (s) (l) (rx))) := by
  refine Apart.trans hs ?_
  unfold State.identUp
  repeat' first
    | with_reducible exact Apart.refl _
    | with_reducible assumption
    | with_reducible apply Apart.ite
    | with_reducible apply State.enterUp_apart
    | intro x

theorem State.uncorrectableSlot_quiet {nd : Node} {u : State} {s : State} {l : LinkId} {timeSlot : Bool} (h_l : l.node = nd) (hs : Quiet nd u s) : Quiet nd u ((State.uncorrectableSlot (s) (l) (timeSlot))) := by
  refine Quiet.trans hs ?_
  unfold State.uncorrectableSlot
  repeat' first
    | with_reducible exact Quiet.refl _
    | with_reducible assumption
    | (intro x; clear_value x)
    | lift_lets -underBinder
    | with_reducible apply State.updLink_quiet

theorem State.slotTaken_quiet {nd : Node} {u : State} {s : State} {l : LinkId} {rx : Rx} (h_l : l.node = nd) (hs : Quiet nd u s) : Quiet nd u ((State.slotTaken (s) (l) (rx))) := by
  refine Quiet.trans hs ?_
  unfold State.slotTaken
  repeat' first
    | with_reducible exact Quiet.refl _
    | with_reducible assumption
    | (intro x; clear_value x)
    | lift_lets -underBinder
    | with_reducible apply State.updLink_quiet

theorem State.poisonSlot_quiet {nd : Node} {u : State} {s : State} {l : LinkId} (h_l : l.node = nd) (hs : Quiet nd u s) : Quiet nd u ((State.poisonSlot (s) (l))) := by
  refine Quiet.trans hs ?_
  unfold State.poisonSlot
  repeat' first
    | with_reducible exact Quiet.refl _
    | with_reducible assumption
    | with_reducible apply State.updLink_quiet

theorem State.breakChain_quiet {nd : Node} {u : State} {s : State} {l : LinkId} {f : Frame} (h_l : l.node = nd) (hs : Quiet nd u s) : Quiet nd u ((State.breakChain (s) (l) (f))) := by
  refine Quiet.trans hs ?_
  unfold State.breakChain
  repeat' first
    | with_reducible exact Quiet.refl _
    | with_reducible assumption
    | (intro x; first | clear_value x | skip)
    | lift_lets -underBinder
    | with_reducible apply Quiet.ite
    | with_reducible apply State.chainLost_quiet
    | with_reducible apply State.malformed_quiet
    | with_reducible apply State.updLink_quiet
    | split

theorem State.receive_apart {nd : Node} {u : State} {s : State} {l : LinkId} {rx : Rx} {type : Nat} (h_l : l.node = nd) (hs : Apart nd u s) : Apart nd u ((State.receive (s) (l) (rx) (type)).1) := by
  refine Apart.trans hs ?_
  unfold State.receive
  repeat' first
    | with_reducible exact Apart.refl _
    | with_reducible assumption
    | (intro x; first | (refine Apart.use (x := x) ?_ (fun hx => ?_); rotate_left; clear_value x; rotate_right; subst x) | clear_value x)
    | lift_lets -underBinder
    | with_reducible apply Apart.step (State.breakChain_quiet ?_ (Quiet.refl _))
    | with_reducible apply State.identUp_apart
    | with_reducible apply Apart.step (State.malformed_quiet ?_ (Quiet.refl _))
    | with_reducible apply Apart.step (State.poisonSlot_quiet ?_ (Quiet.refl _))
    | with_reducible apply Apart.step (State.slotTaken_quiet ?_ (Quiet.refl _))
    | with_reducible apply Apart.step (State.uncorrectableSlot_quiet ?_ (Quiet.refl _))
    | with_reducible apply State.updLink_apart
    | split

theorem State.cutThrough_quiet {nd : Node} {u : State} {s s0 : State} {l : LinkId} {rx : Rx} (h_l : l.node = nd) (hs : Quiet nd u s) : Quiet nd u ((State.cutThrough (s) (s0) (l) (rx))) := by
  refine Quiet.trans hs ?_
  unfold State.cutThrough
  repeat' first
    | with_reducible exact Quiet.refl _
    | (with_reducible refine (?_ : (_ : Node) = _); first | rfl | assumption | (simp_all only []; done) | (simp_all; done) | (cases nd <;> simp_all; done))
    | intro x
    | lift_lets -underBinder
    | with_reducible apply Quiet.ite
    | ((with_reducible apply State.updCom_quiet); rotate_left; focus (intro t; rfl))

theorem State.chain_quiet {nd : Node} {u : State} {s : State} {l : LinkId} {f : Frame} {count : Frame → Nat} (h_l : l.node = nd) (hs : Quiet nd u s) : Quiet nd u ((State.chain (s) (l) (f) (count)).1) := by
  refine Quiet.trans hs ?_
  unfold State.chain
  repeat' first
    | with_reducible exact Quiet.refl _
    | with_reducible assumption
    | (intro x; first | (have hf := funext (f := x) (g := x) (fun _ => rfl); clear hf; subst x) | clear_value x)
    | lift_lets -underBinder
    | with_reducible apply State.chainLost_quiet
    | with_reducible apply State.malformed_quiet
    | with_reducible apply State.updLink_quiet
    | split

end Sys2Proof.Machine
end

