-- ==== Sys2Proof/Laws/ApartServeOps.lean ====
section
/-! SUPPORT. Which part the operations of `Sys2Proof.Machine.ServeOps` act at, and whether they leave its time alone. -/

namespace Sys2Proof.Machine

open Sys2Proof

set_option linter.unusedVariables false

theorem State.setRow_quiet {nd : Node} {u : State} {s : State} {r : Nat} {v : Option SeqRow} (hn : nd = .tsu) (hs : Quiet nd u s) : Quiet nd u ((State.setRow (s) (r) (v))) := by
  subst hn
  refine Quiet.trans hs ?_
  unfold State.setRow
  repeat' first
    | with_reducible exact Quiet.refl _
    | with_reducible rfl
    | ((with_reducible apply State.updTsu_quiet); rotate_left; focus (intro t; rfl))

theorem State.retireRow_quiet {nd : Node} {u : State} {s : State} {n r : Nat} {t : Word} {code : ErrCode} (hn : nd = .tsu) (hs : Quiet nd u s) : Quiet nd u ((State.retireRow (s) (n) (r) (t) (code))) := by
  subst hn
  refine Quiet.trans hs ?_
  unfold State.retireRow
  repeat' first
    | with_reducible exact Quiet.refl _
    | with_reducible rfl
    | with_reducible apply State.setRow_quiet
    | with_reducible apply State.writeRecord_quiet
    | split

theorem State.applySeq_quiet {nd : Node} {u : State} {s : State} {o : SeqOrder} (hn : nd = .tsu) (hs : Quiet nd u s) : Quiet nd u ((State.applySeq (s) (o))) := by
  subst hn
  refine Quiet.trans hs ?_
  unfold State.applySeq
  repeat' first
    | with_reducible exact Quiet.refl _
    | with_reducible assumption
    | with_reducible rfl
    | (intro x; first | (refine Quiet.use (x := x) ?_ (fun hx => ?_); rotate_left; clear_value x; rotate_right; subst x) | clear_value x | skip)
    | lift_lets -underBinder
    | with_reducible apply Quiet.ite
    | with_reducible apply State.logT_quiet
    | with_reducible apply State.setRow_quiet
    | with_reducible apply State.writeRecord_quiet
    | split

theorem State.buildRow_quiet {nd : Node} {u : State} {s : State} {v : Serve} {t : Word} {decode : Bool} {b : Build} {r : Nat} (hn : nd = .tsu) (hs : Quiet nd u s) : Quiet nd u ((State.buildRow (s) (v) (t) (decode) (b) (r)).1) := by
  subst hn
  refine Quiet.trans hs ?_
  unfold State.buildRow
  repeat' first
    | with_reducible exact Quiet.refl _
    | with_reducible rfl
    | (intro x; clear_value x)
    | lift_lets -underBinder
    | with_reducible apply State.setRow_quiet
    | split

theorem State.buildPass_quiet {nd : Node} {u : State} {s : State} {n : Nat} {v : Serve} {t : Word} {decode : Bool} {b : Build} (hn : nd = .tsu) (hs : Quiet nd u s) : Quiet nd u ((State.buildPass (s) (n) (v) (t) (decode) (b)).1) := by
  subst hn
  refine Quiet.trans hs ?_
  unfold State.buildPass
  repeat' first
    | with_reducible exact Quiet.refl _
    | with_reducible rfl
    | (intro x; first | clear_value x | skip)
    | lift_lets -underBinder
    | with_reducible apply State.buildRow_quiet
    | with_reducible apply Quiet.foldlFst

theorem State.buildList_quiet {nd : Node} {u : State} {s : State} {n step : Nat} {t : Word} {fin : List Byte} {trim : Nat} {turn : BitVec 24 × Nat × BitVec 2} (hn : nd = .tsu) (hs : Quiet nd u s) : Quiet nd u ((State.buildList (s) (n) (step) (t) (fin) (trim) (turn))) := by
  subst hn
  refine Quiet.trans hs ?_
  unfold State.buildList
  repeat' first
    | with_reducible exact Quiet.refl _
    | with_reducible assumption
    | with_reducible rfl
    | (intro x; first | (refine Quiet.use (x := x) ?_ (fun hx => ?_); rotate_left; clear_value x; rotate_right; subst x) | clear_value x | skip)
    | lift_lets -underBinder
    | with_reducible apply Quiet.ite
    | with_reducible apply State.applySeq_quiet
    | with_reducible apply State.buildPass_quiet
    | with_reducible apply State.retireRow_quiet
    | with_reducible apply State.sliceWrite_quiet
    | with_reducible apply State.updSlice_quiet
    | ((with_reducible apply State.updTsu_quiet); rotate_left; focus (intro t; rfl))
    | with_reducible apply Quiet.foldl

end Sys2Proof.Machine
end

