-- ==== Sys2Proof/Laws/ApartCtxOps.lean ====
section
/-! SUPPORT. Which part the operations of `Sys2Proof.Machine.CtxOps` act at, and whether they leave its time alone. -/

namespace Sys2Proof.Machine

open Sys2Proof

set_option linter.unusedVariables false

theorem State.accept_quiet {nd : Node} {u : State} {s : State} {t : Int} {slice : Option Nat} (hn : nd = .tsu) (hs : Quiet nd u s) : Quiet nd u ((State.accept (s) (t) (slice)).1) := by
  subst hn
  refine Quiet.trans hs ?_
  unfold State.accept
  repeat' first
    | with_reducible exact Quiet.refl _
    | with_reducible rfl
    | with_reducible apply State.logT_quiet
    | with_reducible apply State.setEvt_quiet
    | split

theorem State.ctxStart_quiet {nd : Node} {u : State} {s : State} {c sentence : Nat} (hn : nd = .tsu) (hs : Quiet nd u s) : Quiet nd u ((State.ctxStart (s) (c) (sentence))) := by
  subst hn
  refine Quiet.trans hs ?_
  unfold State.ctxStart
  repeat' first
    | with_reducible exact Quiet.refl _
    | with_reducible rfl
    | (intro x; clear_value x)
    | lift_lets -underBinder
    | with_reducible apply State.updCtx_quiet
    | split

theorem State.ctxStop_quiet {nd : Node} {u : State} {s : State} {c : Nat} (hn : nd = .tsu) (hs : Quiet nd u s) : Quiet nd u ((State.ctxStop (s) (c))) := by
  subst hn
  refine Quiet.trans hs ?_
  unfold State.ctxStop
  repeat' first
    | with_reducible exact Quiet.refl _
    | with_reducible rfl
    | with_reducible apply State.updCtx_quiet

theorem State.ctxGoto_quiet {nd : Node} {u : State} {s : State} {c i : Nat} (hn : nd = .tsu) (hs : Quiet nd u s) : Quiet nd u ((State.ctxGoto (s) (c) (i))) := by
  subst hn
  refine Quiet.trans hs ?_
  unfold State.ctxGoto
  repeat' first
    | with_reducible exact Quiet.refl _
    | with_reducible rfl
    | (intro x; first | clear_value x | skip)
    | lift_lets -underBinder
    | with_reducible apply Quiet.ite
    | with_reducible apply State.ctxStop_quiet
    | with_reducible apply State.logT_quiet
    | with_reducible apply State.updCtx_quiet
    | split

theorem State.ctxNext_quiet {nd : Node} {u : State} {s : State} {c : Nat} (hn : nd = .tsu) (hs : Quiet nd u s) : Quiet nd u ((State.ctxNext (s) (c))) := by
  subst hn
  refine Quiet.trans hs ?_
  unfold State.ctxNext
  repeat' first
    | with_reducible exact Quiet.refl _
    | with_reducible rfl
    | with_reducible apply State.ctxGoto_quiet
    | split

theorem State.ctxBlock_quiet {nd : Node} {u : State} {s : State} {c : Nat} {b : Block} {topnd : Option Time80} (hn : nd = .tsu) (hs : Quiet nd u s) : Quiet nd u ((State.ctxBlock (s) (c) (b) (topnd))) := by
  subst hn
  refine Quiet.trans hs ?_
  unfold State.ctxBlock
  repeat' first
    | with_reducible exact Quiet.refl _
    | with_reducible assumption
    | with_reducible rfl
    | (intro x; first | (refine Quiet.use (x := x) ?_ (fun hx => ?_); rotate_left; clear_value x; rotate_right; subst x) | clear_value x)
    | lift_lets -underBinder
    | with_reducible apply State.updCtx_quiet
    | ((with_reducible apply State.updTsu_quiet); rotate_left; focus (intro t; rfl))

theorem State.ctxHalt_quiet {nd : Node} {u : State} {s : State} {c : Nat} {code : ErrCode} (hn : nd = .tsu) (hs : Quiet nd u s) : Quiet nd u ((State.ctxHalt (s) (c) (code))) := by
  subst hn
  refine Quiet.trans hs ?_
  unfold State.ctxHalt
  repeat' first
    | with_reducible exact Quiet.refl _
    | with_reducible rfl
    | with_reducible apply State.updCtx_quiet

theorem State.judge_quiet {nd : Node} {u : State} {s : State} {n sen slot src : Nat} {k : BitVec 128} (hn : nd = .tsu) (hs : Quiet nd u s) : Quiet nd u ((State.judge (s) (n) (sen) (slot) (src) (k)).1) := by
  subst hn
  refine Quiet.trans hs ?_
  unfold State.judge
  repeat' first
    | with_reducible exact Quiet.refl _
    | with_reducible rfl
    | with_reducible apply State.logT_quiet
    | split

theorem State.markRecord_quiet {nd : Node} {u : State} {s : State} {x : Ctx} {k : BitVec 128} {i : Nat} (hn : nd = .tsu) (hs : Quiet nd u s) : Quiet nd u ((State.markRecord (s) (x) (k) (i))) := by
  subst hn
  refine Quiet.trans hs ?_
  unfold State.markRecord
  repeat' first
    | with_reducible exact Quiet.refl _
    | with_reducible rfl
    | (intro x; clear_value x)
    | lift_lets -underBinder
    | with_reducible apply State.writeRecord_quiet

theorem State.branch_quiet {nd : Node} {u : State} {s : State} {c : Nat} {x : Ctx} {k : BitVec 128} (hn : nd = .tsu) (hs : Quiet nd u s) : Quiet nd u ((State.branch (s) (c) (x) (k))) := by
  subst hn
  refine Quiet.trans hs ?_
  unfold State.branch
  repeat' first
    | with_reducible exact Quiet.refl _
    | with_reducible assumption
    | with_reducible rfl
    | (intro x; first | (refine Quiet.use (x := x) ?_ (fun hx => ?_); rotate_left; clear_value x; rotate_right; subst x) | clear_value x | skip)
    | lift_lets -underBinder
    | with_reducible apply Quiet.ite
    | with_reducible apply State.ctxGoto_quiet
    | with_reducible apply State.ctxNext_quiet
    | with_reducible apply State.updCtx_quiet

theorem State.endClause_quiet {nd : Node} {u : State} {s : State} {c : Nat} {k : BitVec 128} (hn : nd = .tsu) (hs : Quiet nd u s) : Quiet nd u ((State.endClause (s) (c) (k))) := by
  subst hn
  refine Quiet.trans hs ?_
  unfold State.endClause
  repeat' first
    | with_reducible exact Quiet.refl _
    | with_reducible rfl
    | (intro x; first | clear_value x | skip)
    | lift_lets -underBinder
    | with_reducible apply Quiet.ite
    | with_reducible apply State.ctxStart_quiet
    | with_reducible apply State.ctxStop_quiet

theorem State.fireAlt_quiet {nd : Node} {u : State} {s : State} {c : Nat} {x : Ctx} {alt : Nat} (hn : nd = .tsu) (hs : Quiet nd u s) : Quiet nd u ((State.fireAlt (s) (c) (x) (alt))) := by
  subst hn
  refine Quiet.trans hs ?_
  unfold State.fireAlt
  repeat' first
    | with_reducible exact Quiet.refl _
    | with_reducible rfl
    | with_reducible apply Quiet.ite
    | with_reducible apply State.branch_quiet
    | with_reducible apply State.ctxNext_quiet
    | with_reducible apply State.endClause_quiet
    | with_reducible apply State.markRecord_quiet
    | split
    | intro x

end Sys2Proof.Machine
end

