-- ==== Sys2Proof/Laws/ApartRegionOps.lean ====
section
/-! SUPPORT. Which part the operations of `Sys2Proof.Machine.RegionOps` act at, and whether they leave its time alone. -/

namespace Sys2Proof.Machine

open Sys2Proof

set_option linter.unusedVariables false

theorem State.updateLead_quiet {nd : Node} {u : State} {s : State} (hn : nd = .tsu) (hs : Quiet nd u s) : Quiet nd u ((State.updateLead (s))) := by
  subst hn
  refine Quiet.trans hs ?_
  unfold State.updateLead
  repeat' first
    | with_reducible exact Quiet.refl _
    | with_reducible rfl
    | (intro x; first | clear_value x | skip)
    | lift_lets -underBinder
    | with_reducible apply Quiet.ite
    | ((with_reducible apply State.updTsu_quiet); rotate_left; focus (intro t; rfl))

theorem State.addendWord_quiet {nd : Node} {u : State} {s : State} {old : Nat} (hn : nd = .tsu) (hs : Quiet nd u s) : Quiet nd u ((State.addendWord (s) (old))) := by
  subst hn
  refine Quiet.trans hs ?_
  unfold State.addendWord
  repeat' first
    | with_reducible exact Quiet.refl _
    | with_reducible rfl
    | (intro x; first | clear_value x | skip)
    | lift_lets -underBinder
    | with_reducible apply Quiet.ite
    | with_reducible apply State.busSend_quiet
    | with_reducible apply Quiet.foldl

theorem State.wordTaken_quiet {nd : Node} {u : State} {s : State} {r : Nat} (hn : nd = .tsu) (hs : Quiet nd u s) : Quiet nd u ((State.wordTaken (s) (r))) := by
  subst hn
  refine Quiet.trans hs ?_
  unfold State.wordTaken
  repeat' first
    | with_reducible exact Quiet.refl _
    | with_reducible rfl
    | with_reducible apply State.updRegion_quiet

theorem State.wordGood_quiet {nd : Node} {u : State} {s : State} {r seq : Nat} {act : State → State} (k_act : ∀ x, Quiet nd x (act x)) (hn : nd = .tsu) (hs : Quiet nd u s) : Quiet nd u ((State.wordGood (s) (r) (seq) (act))) := by
  subst hn
  refine Quiet.trans hs ?_
  unfold State.wordGood
  repeat' first
    | with_reducible exact Quiet.refl _
    | with_reducible assumption
    | with_reducible rfl
    | (intro x; first | (refine Quiet.use (x := x) ?_ (fun hx => ?_); rotate_left; clear_value x; rotate_right; subst x) | clear_value x | skip)
    | lift_lets -underBinder
    | with_reducible apply Quiet.ite
    | with_reducible refine Quiet.trans ?_ (k_act _)
    | with_reducible apply State.updRegion_quiet

theorem State.wordGood_apart {nd : Node} {u : State} {s : State} {r seq : Nat} {act : State → State} (k_act : ∀ x, Apart nd x (act x)) (hn : nd = .tsu) (hs : Apart nd u s) : Apart nd u ((State.wordGood (s) (r) (seq) (act))) := by
  subst hn
  refine Apart.trans hs ?_
  unfold State.wordGood
  repeat' first
    | with_reducible exact Apart.refl _
    | with_reducible assumption
    | with_reducible rfl
    | (intro x; first | (refine Apart.use (x := x) ?_ (fun hx => ?_); rotate_left; clear_value x; rotate_right; subst x) | clear_value x | skip)
    | lift_lets -underBinder
    | with_reducible apply Apart.ite
    | with_reducible refine Apart.trans ?_ (k_act _)
    | with_reducible apply State.updRegion_apart

end Sys2Proof.Machine
end

