-- ==== Sys2Proof/Laws/ApartTumblerOps.lean ====
section
/-! SUPPORT. Which part the operations of `Sys2Proof.Machine.TumblerOps` act at, and whether they leave its time alone. -/

namespace Sys2Proof.Machine

open Sys2Proof

set_option linter.unusedVariables false

theorem State.sendArrive_quiet {nd : Node} {u : State} {s : State} {e : Nat} (hn : nd = .tsu) (hs : Quiet nd u s) : Quiet nd u ((State.sendArrive (s) (e))) := by
  subst hn
  refine Quiet.trans hs ?_
  unfold State.sendArrive
  repeat' first
    | with_reducible exact Quiet.refl _
    | with_reducible rfl
    | (intro x; clear_value x)
    | lift_lets -underBinder
    | with_reducible apply State.tsuUp_quiet
    | split

theorem State.withdrawAt_quiet {nd : Node} {u : State} {s : State} {t : Tumbler} {lane : Nat} (hn : nd = .tsu) (hs : Quiet nd u s) : Quiet nd u ((State.withdrawAt (s) (t) (lane))) := by
  subst hn
  refine Quiet.trans hs ?_
  unfold State.withdrawAt
  repeat' first
    | with_reducible exact Quiet.refl _
    | with_reducible rfl
    | (intro x; first | (have hf := funext (f := x) (g := x) (fun _ => rfl); clear hf; subst x) | clear_value x)
    | lift_lets -underBinder
    | ((with_reducible apply State.updCom_quiet); rotate_left; focus (intro t; rfl))
    | with_reducible apply State.updLink_quiet

theorem State.withdrawArrive_quiet {nd : Node} {u : State} {s : State} {t : Tumbler} (hn : nd = .tsu) (hs : Quiet nd u s) : Quiet nd u ((State.withdrawArrive (s) (t))) := by
  subst hn
  refine Quiet.trans hs ?_
  unfold State.withdrawArrive
  repeat' first
    | with_reducible exact Quiet.refl _
    | with_reducible rfl
    | with_reducible apply State.withdrawAt_quiet

theorem State.waitRecord_quiet {nd : Node} {u : State} {s : State} {n src : Nat} {t : Option Tumbler} {r : Option Result} {gen : BitVec 2} {code : ErrCode} (hn : nd = .tsu) (hs : Quiet nd u s) : Quiet nd u ((State.waitRecord (s) (n) (src) (t) (r) (gen) (code))) := by
  subst hn
  refine Quiet.trans hs ?_
  unfold State.waitRecord
  repeat' first
    | with_reducible exact Quiet.refl _
    | with_reducible rfl
    | (intro x; clear_value x)
    | lift_lets -underBinder
    | with_reducible apply State.writeRecord_quiet

theorem State.ctxResult_quiet {nd : Node} {u : State} {s : State} {c e : Nat} {dataOut slot : Nat} (hn : nd = .tsu) (hs : Quiet nd u s) : Quiet nd u ((State.ctxResult (s) (c) (e) (dataOut) (slot))) := by
  subst hn
  refine Quiet.trans hs ?_
  unfold State.ctxResult
  repeat' first
    | with_reducible exact Quiet.refl _
    | with_reducible rfl
    | (intro x; first | clear_value x | skip)
    | lift_lets -underBinder
    | with_reducible apply Quiet.ite
    | with_reducible apply State.ctxBlock_quiet
    | with_reducible apply State.ctxNext_quiet
    | with_reducible apply State.sliceWrite_quiet
    | split

theorem State.ctxWaitEnds_quiet {nd : Node} {u : State} {s : State} {c e : Nat} {gen : BitVec 2} {code : ErrCode} (hn : nd = .tsu) (hs : Quiet nd u s) : Quiet nd u ((State.ctxWaitEnds (s) (c) (e) (gen) (code))) := by
  subst hn
  refine Quiet.trans hs ?_
  unfold State.ctxWaitEnds
  repeat' first
    | with_reducible exact Quiet.refl _
    | with_reducible assumption
    | with_reducible rfl
    | (intro x; (refine Quiet.use (x := x) ?_ (fun hx => ?_); rotate_left; clear_value x; rotate_right; subst x))
    | lift_lets -underBinder
    | with_reducible apply State.ctxNext_quiet
    | with_reducible apply State.logT_quiet
    | with_reducible apply State.waitRecord_quiet
    | split

theorem State.endSoftWait_quiet {nd : Node} {u : State} {s : State} {key : Nat} {r : Option Result} {code : ErrCode} (hn : nd = .tsu) (hs : Quiet nd u s) : Quiet nd u ((State.endSoftWait (s) (key) (r) (code))) := by
  subst hn
  refine Quiet.trans hs ?_
  unfold State.endSoftWait
  repeat' first
    | with_reducible exact Quiet.refl _
    | with_reducible assumption
    | with_reducible rfl
    | (intro x; first | (refine Quiet.use (x := x) ?_ (fun hx => ?_); rotate_left; clear_value x; rotate_right; subst x) | clear_value x | skip)
    | lift_lets -underBinder
    | with_reducible apply Quiet.ite
    | with_reducible apply State.logT_quiet
    | with_reducible apply State.waitRecord_quiet
    | ((with_reducible apply State.updTsu_quiet); rotate_left; focus (intro t; rfl))
    | split

theorem State.dropStaged_quiet {nd : Node} {u : State} {s : State} {id : Nat} (hn : nd = .tsu) (hs : Quiet nd u s) : Quiet nd u ((State.dropStaged (s) (id))) := by
  subst hn
  refine Quiet.trans hs ?_
  unfold State.dropStaged
  repeat' first
    | with_reducible exact Quiet.refl _
    | with_reducible assumption
    | with_reducible rfl
    | (intro x; first | (refine Quiet.use (x := x) ?_ (fun hx => ?_); rotate_left; clear_value x; rotate_right; subst x) | clear_value x | skip)
    | lift_lets -underBinder
    | with_reducible apply State.freeStaging_quiet
    | ((with_reducible apply State.updTsu_quiet); rotate_left; focus (intro t; rfl))
    | with_reducible apply Quiet.foldl
    | split

theorem State.launchDropped_quiet {nd : Node} {u : State} {s : State} {id : Nat} {code : ErrCode} {detail : Nat} {resume : Bool} {late : Bool} (hn : nd = .tsu) (hs : Quiet nd u s) : Quiet nd u ((State.launchDropped (s) (id) (code) (detail) (resume) (late))) := by
  subst hn
  refine Quiet.trans hs ?_
  unfold State.launchDropped
  repeat' first
    | with_reducible exact Quiet.refl _
    | with_reducible assumption
    | with_reducible rfl
    | (intro x; first | (refine Quiet.use (x := x) ?_ (fun hx => ?_); rotate_left; clear_value x; rotate_right; subst x) | clear_value x | skip)
    | lift_lets -underBinder
    | with_reducible apply Quiet.ite
    | with_reducible apply State.ctxNext_quiet
    | with_reducible apply State.dropStaged_quiet
    | with_reducible apply State.logT_quiet
    | with_reducible apply State.writeRecord_quiet
    | split

theorem State.margin_quiet {nd : Node} {u : State} {s : State} {t : Time80} (hn : nd = .tsu) (hs : Quiet nd u s) : Quiet nd u ((State.margin (s) (t))) := by
  subst hn
  refine Quiet.trans hs ?_
  unfold State.margin
  repeat' first
    | with_reducible exact Quiet.refl _
    | with_reducible rfl
    | (intro x; clear_value x)
    | lift_lets -underBinder
    | ((with_reducible apply State.updTsu_quiet); rotate_left; focus (intro t; rfl))

theorem State.armLaunch_quiet {nd : Node} {u : State} {s : State} {id : Nat} {useAlt : Bool} {r : Result} {t : Time80} (hn : nd = .tsu) (hs : Quiet nd u s) : Quiet nd u ((State.armLaunch (s) (id) (useAlt) (r) (t))) := by
  subst hn
  refine Quiet.trans hs ?_
  unfold State.armLaunch
  repeat' first
    | with_reducible exact Quiet.refl _
    | with_reducible assumption
    | with_reducible rfl
    | (intro x; first | (refine Quiet.use (x := x) ?_ (fun hx => ?_); rotate_left; clear_value x; rotate_right; subst x) | clear_value x | skip)
    | lift_lets -underBinder
    | with_reducible apply Quiet.ite
    | with_reducible apply State.ctxNext_quiet
    | with_reducible apply State.freeStaging_quiet
    | with_reducible apply State.launchDropped_quiet
    | with_reducible apply State.margin_quiet
    | with_reducible apply State.updCtx_quiet
    | with_reducible apply State.updPort_quiet
    | ((with_reducible apply State.updTsu_quiet); rotate_left; focus (intro t; rfl))
    | with_reducible apply Quiet.foldl
    | split

theorem State.launchTurn_quiet {nd : Node} {u : State} {s : State} {id : Nat} (hn : nd = .tsu) (hs : Quiet nd u s) : Quiet nd u ((State.launchTurn (s) (id))) := by
  subst hn
  refine Quiet.trans hs ?_
  unfold State.launchTurn
  repeat' first
    | with_reducible exact Quiet.refl _
    | with_reducible assumption
    | with_reducible rfl
    | (intro x; first | (refine Quiet.use (x := x.1) ?_ (fun hx => ?_); rotate_left; clear_value x; rotate_right; subst x) | clear_value x | skip)
    | lift_lets -underBinder
    | with_reducible apply Quiet.ite
    | with_reducible apply State.armLaunch_quiet
    | with_reducible apply State.dropStaged_quiet
    | with_reducible apply State.fireAlt_quiet
    | with_reducible apply State.judge_quiet
    | with_reducible apply State.launchDropped_quiet
    | ((with_reducible apply State.updTsu_quiet); rotate_left; focus (intro t; rfl))
    | split

theorem State.boost_quiet {nd : Node} {u : State} {s : State} {n e : Nat} {d : Time80} (hn : nd = .tsu) (hs : Quiet nd u s) : Quiet nd u ((State.boost (s) (n) (e) (d))) := by
  subst hn
  refine Quiet.trans hs ?_
  unfold State.boost
  repeat' first
    | with_reducible exact Quiet.refl _
    | with_reducible rfl
    | (intro x; first | clear_value x | skip)
    | lift_lets -underBinder
    | with_reducible apply Quiet.ite
    | with_reducible apply State.logT_quiet
    | with_reducible apply State.present_quiet
    | with_reducible apply State.updPort_quiet
    | with_reducible apply Quiet.foldl
    | split

theorem State.lendPort_quiet {nd : Node} {u : State} {s : State} {p e : Nat} {g : BitVec 2} (hn : nd = .tsu) (hs : Quiet nd u s) : Quiet nd u ((State.lendPort (s) (p) (e) (g))) := by
  subst hn
  refine Quiet.trans hs ?_
  unfold State.lendPort
  repeat' first
    | with_reducible exact Quiet.refl _
    | with_reducible rfl
    | (intro x; first | clear_value x | skip)
    | lift_lets -underBinder
    | with_reducible apply Quiet.ite
    | with_reducible apply State.updPort_quiet
    | ((with_reducible apply State.updTsu_quiet); rotate_left; focus (intro t; rfl))
    | split

theorem State.startsWaiting_quiet {nd : Node} {u : State} {s before : State} {p : Nat} (hn : nd = .tsu) (hs : Quiet nd u s) : Quiet nd u ((State.startsWaiting (s) (before) (p))) := by
  subst hn
  refine Quiet.trans hs ?_
  unfold State.startsWaiting
  repeat' first
    | with_reducible exact Quiet.refl _
    | with_reducible rfl
    | with_reducible apply Quiet.ite
    | with_reducible apply State.lendPort_quiet
    | split
    | intro x

theorem State.reclaimFor_quiet {nd : Node} {u : State} {s : State} {e : Nat} (hn : nd = .tsu) (hs : Quiet nd u s) : Quiet nd u ((State.reclaimFor (s) (e))) := by
  subst hn
  refine Quiet.trans hs ?_
  unfold State.reclaimFor
  repeat' first
    | with_reducible exact Quiet.refl _
    | with_reducible rfl
    | intro x
    | lift_lets -underBinder
    | with_reducible apply State.reclaim_quiet
    | with_reducible apply Quiet.foldl

theorem State.carryUpdate_quiet {nd : Node} {u : State} {s : State} {e : Nat} (hn : nd = .tsu) (hs : Quiet nd u s) : Quiet nd u ((State.carryUpdate (s) (e))) := by
  subst hn
  refine Quiet.trans hs ?_
  unfold State.carryUpdate
  repeat' first
    | with_reducible exact Quiet.refl _
    | with_reducible rfl
    | (intro x; first | (have hf := funext (f := x) (g := x) (fun _ => rfl); clear hf; subst x) | clear_value x | skip)
    | lift_lets -underBinder
    | with_reducible apply Quiet.ite
    | with_reducible apply State.logT_quiet
    | with_reducible apply State.updTumb_quiet
    | split

theorem State.stepTurn_quiet {nd : Node} {u : State} {s : State} {t : Tumbler} {r : Result} (hn : nd = .tsu) (hs : Quiet nd u s) : Quiet nd u ((State.stepTurn (s) (t) (r))) := by
  subst hn
  refine Quiet.trans hs ?_
  unfold State.stepTurn
  repeat' first
    | with_reducible exact Quiet.refl _
    | with_reducible assumption
    | with_reducible rfl
    | (intro x; first | (refine Quiet.use (x := x) ?_ (fun hx => ?_); rotate_left; clear_value x; rotate_right; subst x) | clear_value x | skip)
    | lift_lets -underBinder
    | with_reducible apply Quiet.ite
    | with_reducible apply State.healthSend_quiet
    | with_reducible apply State.logT_quiet
    | with_reducible apply State.updBinding_quiet
    | split

theorem State.serveTurn_quiet {nd : Node} {u : State} {s : State} {t : Tumbler} {r : Result} (hn : nd = .tsu) (hs : Quiet nd u s) : Quiet nd u ((State.serveTurn (s) (t) (r))) := by
  subst hn
  refine Quiet.trans hs ?_
  unfold State.serveTurn
  repeat' first
    | with_reducible exact Quiet.refl _
    | with_reducible assumption
    | with_reducible rfl
    | (intro x; first | (refine Quiet.use (x := x) ?_ (fun hx => ?_); rotate_left; clear_value x; rotate_right; subst x) | (have hf := funext (f := x) (g := x) (fun _ => rfl); clear hf; subst x) | clear_value x | skip)
    | lift_lets -underBinder
    | with_reducible apply Quiet.ite
    | with_reducible apply State.buildList_quiet
    | with_reducible apply State.updSlice_quiet

theorem State.emptyOpens_quiet {nd : Node} {u : State} {s : State} {e : Nat} (hn : nd = .tsu) (hs : Quiet nd u s) : Quiet nd u ((State.emptyOpens (s) (e))) := by
  subst hn
  refine Quiet.trans hs ?_
  unfold State.emptyOpens
  repeat' first
    | with_reducible exact Quiet.refl _
    | with_reducible assumption
    | with_reducible rfl
    | (intro x; first | (refine Quiet.use (x := x) ?_ (fun hx => ?_); rotate_left; clear_value x; rotate_right; subst x) | skip)
    | lift_lets -underBinder
    | with_reducible apply Quiet.ite
    | with_reducible apply State.sendArrive_quiet
    | with_reducible apply State.updTumb_quiet
    | split

theorem State.turnApply_quiet {nd : Node} {u : State} {s : State} {e : Nat} {r : Result} (hn : nd = .tsu) (hs : Quiet nd u s) : Quiet nd u ((State.turnApply (s) (e) (r))) := by
  subst hn
  refine Quiet.trans hs ?_
  unfold State.turnApply
  repeat' first
    | with_reducible exact Quiet.refl _
    | with_reducible assumption
    | with_reducible rfl
    | (intro x; first | (refine Quiet.use (x := x) ?_ (fun hx => ?_); rotate_left; clear_value x; rotate_right; subst x) | clear_value x | skip)
    | lift_lets -underBinder
    | with_reducible apply State.carryUpdate_quiet
    | with_reducible apply State.ctxResult_quiet
    | with_reducible apply State.emptyOpens_quiet
    | with_reducible apply State.endSoftWait_quiet
    | with_reducible apply State.launchTurn_quiet
    | with_reducible apply State.reclaimFor_quiet
    | with_reducible apply State.serveTurn_quiet
    | with_reducible apply State.stepTurn_quiet
    | with_reducible apply State.updTumb_quiet
    | ((with_reducible apply State.updTsu_quiet); rotate_left; focus (intro t; rfl))
    | with_reducible apply Quiet.foldl
    | split

theorem State.turnLocal_quiet {nd : Node} {u : State} {s : State} {e : Nat} (hn : nd = .tsu) (hs : Quiet nd u s) : Quiet nd u ((State.turnLocal (s) (e))) := by
  subst hn
  refine Quiet.trans hs ?_
  unfold State.turnLocal
  repeat' first
    | with_reducible exact Quiet.refl _
    | with_reducible rfl
    | (intro x; clear_value x)
    | lift_lets -underBinder
    | with_reducible apply State.turnApply_quiet
    | split

theorem State.shareComplete_quiet {nd : Node} {u : State} {s : State} {e : Nat} (hn : nd = .tsu) (hs : Quiet nd u s) : Quiet nd u ((State.shareComplete (s) (e))) := by
  subst hn
  refine Quiet.trans hs ?_
  unfold State.shareComplete
  repeat' first
    | with_reducible exact Quiet.refl _
    | with_reducible assumption
    | with_reducible rfl
    | (intro x; first | (refine Quiet.use (x := x) ?_ (fun hx => ?_); rotate_left; clear_value x; rotate_right; subst x) | skip)
    | lift_lets -underBinder
    | with_reducible apply Quiet.ite
    | with_reducible apply State.sendArrive_quiet
    | with_reducible apply State.turnLocal_quiet
    | with_reducible apply State.updTumb_quiet
    | split

theorem State.arvCount_quiet {nd : Node} {u : State} {s : State} {e src slot weight : Nat} {payload : List Byte} {early : Bool} (hn : nd = .tsu) (hs : Quiet nd u s) : Quiet nd u ((State.arvCount (s) (e) (src) (slot) (weight) (payload) (early))) := by
  subst hn
  refine Quiet.trans hs ?_
  unfold State.arvCount
  repeat' first
    | with_reducible exact Quiet.refl _
    | with_reducible assumption
    | with_reducible rfl
    | (intro x; first | (refine Quiet.use (x := x) ?_ (fun hx => ?_); rotate_left; clear_value x; rotate_right; subst x) | clear_value x | skip)
    | lift_lets -underBinder
    | with_reducible apply Quiet.ite
    | with_reducible apply State.logT_quiet
    | with_reducible apply State.shareComplete_quiet
    | with_reducible apply State.updTumb_quiet
    | split

theorem State.arrive_quiet {nd : Node} {u : State} {s : State} {e src slot weight n : Nat} {payload : List Byte} (hn : nd = .tsu) (hs : Quiet nd u s) : Quiet nd u ((State.arrive (s) (e) (src) (slot) (weight) (n) (payload)).1) := by
  subst hn
  refine Quiet.trans hs ?_
  unfold State.arrive
  repeat' first
    | with_reducible exact Quiet.refl _
    | with_reducible rfl
    | (intro x; clear_value x)
    | lift_lets -underBinder
    | with_reducible apply State.arvCount_quiet
    | with_reducible apply State.logT_quiet
    | split

theorem State.endPend_quiet {nd : Node} {u : State} {s : State} {p e slot : Nat} (hn : nd = .tsu) (hs : Quiet nd u s) : Quiet nd u ((State.endPend (s) (p) (e) (slot))) := by
  subst hn
  refine Quiet.trans hs ?_
  unfold State.endPend
  repeat' first
    | with_reducible exact Quiet.refl _
    | with_reducible rfl
    | with_reducible apply State.updPort_quiet

theorem State.portRecord_quiet {nd : Node} {u : State} {s : State} {p : Nat} {n sgen : Nat} {e : Nat} {code : ErrCode} {detail : Nat} (hn : nd = .tsu) (hs : Quiet nd u s) : Quiet nd u ((State.portRecord (s) (p) (n) (sgen) (e) (code) (detail))) := by
  subst hn
  refine Quiet.trans hs ?_
  unfold State.portRecord
  repeat' first
    | with_reducible exact Quiet.refl _
    | with_reducible rfl
    | (intro x; clear_value x)
    | lift_lets -underBinder
    | with_reducible apply State.writeRecord_quiet

theorem State.engineDone_quiet {nd : Node} {u : State} {s : State} {p n sgen : Nat} (hn : nd = .tsu) (hs : Quiet nd u s) : Quiet nd u ((State.engineDone (s) (p) (n) (sgen))) := by
  subst hn
  refine Quiet.trans hs ?_
  unfold State.engineDone
  repeat' first
    | with_reducible exact Quiet.refl _
    | with_reducible rfl
    | with_reducible apply State.updPort_quiet

theorem State.portArrive_quiet {nd : Node} {u : State} {s : State} {a : PortArv} (hn : nd = .tsu) (hs : Quiet nd u s) : Quiet nd u ((State.portArrive (s) (a))) := by
  subst hn
  refine Quiet.trans hs ?_
  unfold State.portArrive
  repeat' first
    | with_reducible exact Quiet.refl _
    | with_reducible assumption
    | with_reducible rfl
    | (intro x; first | (refine Quiet.use (x := x) ?_ (fun hx => ?_); rotate_left; clear_value x; rotate_right; subst x) | (have hf := funext (f := x) (g := x) (fun _ => rfl); clear hf; subst x) | clear_value x | skip)
    | lift_lets -underBinder
    | with_reducible apply Quiet.ite
    | with_reducible apply State.arrive_quiet
    | with_reducible apply State.endPend_quiet
    | with_reducible apply State.engineDone_quiet
    | with_reducible apply State.logT_quiet
    | with_reducible apply State.portRecord_quiet
    | with_reducible apply State.updPort_quiet
    | with_reducible apply State.updTumb_quiet
    | split
    | with_reducible refine Quiet.ofPair (by with_reducible assumption) ?_

theorem State.arriveRecord_quiet {nd : Node} {u : State} {s : State} {c e : Nat} {code : ErrCode} (hn : nd = .tsu) (hs : Quiet nd u s) : Quiet nd u ((State.arriveRecord (s) (c) (e) (code))) := by
  subst hn
  refine Quiet.trans hs ?_
  unfold State.arriveRecord
  repeat' first
    | with_reducible exact Quiet.refl _
    | with_reducible rfl
    | with_reducible apply State.waitRecord_quiet
    | split

theorem State.ctxArrived_quiet {nd : Node} {u : State} {s : State} {c e slot : Nat} {o : ArvOutcome} (hn : nd = .tsu) (hs : Quiet nd u s) : Quiet nd u ((State.ctxArrived (s) (c) (e) (slot) (o))) := by
  subst hn
  refine Quiet.trans hs ?_
  unfold State.ctxArrived
  repeat' first
    | with_reducible exact Quiet.refl _
    | with_reducible assumption
    | with_reducible rfl
    | (intro x; first | (refine Quiet.use (x := x) ?_ (fun hx => ?_); rotate_left; clear_value x; rotate_right; subst x) | clear_value x | skip)
    | lift_lets -underBinder
    | with_reducible apply Quiet.ite
    | with_reducible apply State.arriveRecord_quiet
    | with_reducible apply State.boost_quiet
    | with_reducible apply State.ctxBlock_quiet
    | with_reducible apply State.ctxNext_quiet
    | with_reducible apply State.ctxResult_quiet
    | with_reducible apply State.ctxWaitEnds_quiet
    | with_reducible apply State.updCtx_quiet
    | split

theorem State.releaseHeld_quiet {nd : Node} {u : State} {s : State} {e : Nat} (hn : nd = .tsu) (hs : Quiet nd u s) : Quiet nd u ((State.releaseHeld (s) (e))) := by
  subst hn
  refine Quiet.trans hs ?_
  unfold State.releaseHeld
  repeat' first
    | with_reducible exact Quiet.refl _
    | with_reducible assumption
    | with_reducible rfl
    | (intro x; first | (refine Quiet.use (x := x) ?_ (fun hx => ?_); rotate_left; clear_value x; rotate_right; subst x) | clear_value x | skip)
    | lift_lets -underBinder
    | with_reducible apply State.arrive_quiet
    | with_reducible apply State.ctxArrived_quiet
    | with_reducible apply State.endPend_quiet
    | with_reducible apply State.engineDone_quiet
    | with_reducible apply State.portRecord_quiet
    | with_reducible apply State.shareComplete_quiet
    | with_reducible apply State.updPort_quiet
    | with_reducible apply State.updTumb_quiet
    | with_reducible apply Quiet.foldl
    | split
    | with_reducible refine Quiet.ofPair (by with_reducible assumption) ?_

theorem State.discardHeld_quiet {nd : Node} {u : State} {s : State} {e : Nat} {code : ErrCode} (hn : nd = .tsu) (hs : Quiet nd u s) : Quiet nd u ((State.discardHeld (s) (e) (code))) := by
  subst hn
  refine Quiet.trans hs ?_
  unfold State.discardHeld
  repeat' first
    | with_reducible exact Quiet.refl _
    | with_reducible assumption
    | with_reducible rfl
    | (intro x; first | (refine Quiet.use (x := x) ?_ (fun hx => ?_); rotate_left; clear_value x; rotate_right; subst x) | skip)
    | lift_lets -underBinder
    | with_reducible apply Quiet.ite
    | with_reducible apply State.arriveRecord_quiet
    | with_reducible apply State.ctxNext_quiet
    | with_reducible apply State.endPend_quiet
    | with_reducible apply State.engineDone_quiet
    | with_reducible apply State.logT_quiet
    | with_reducible apply State.portRecord_quiet
    | with_reducible apply State.updPort_quiet
    | with_reducible apply State.updTumb_quiet
    | with_reducible apply Quiet.foldl
    | split

theorem State.failWaiters_quiet {nd : Node} {u : State} {s : State} {e : Nat} {code : ErrCode} (hn : nd = .tsu) (hs : Quiet nd u s) : Quiet nd u ((State.failWaiters (s) (e) (code))) := by
  subst hn
  refine Quiet.trans hs ?_
  unfold State.failWaiters
  repeat' first
    | with_reducible exact Quiet.refl _
    | with_reducible assumption
    | with_reducible rfl
    | (intro x; first | (refine Quiet.use (x := x) ?_ (fun hx => ?_); rotate_left; clear_value x; rotate_right; subst x) | skip)
    | lift_lets -underBinder
    | with_reducible apply State.ctxWaitEnds_quiet
    | with_reducible apply State.endSoftWait_quiet
    | with_reducible apply State.launchDropped_quiet
    | with_reducible apply Quiet.foldl

theorem State.freeTumb_quiet {nd : Node} {u : State} {s : State} {e : Nat} (hn : nd = .tsu) (hs : Quiet nd u s) : Quiet nd u ((State.freeTumb (s) (e))) := by
  subst hn
  refine Quiet.trans hs ?_
  unfold State.freeTumb
  repeat' first
    | with_reducible exact Quiet.refl _
    | with_reducible rfl
    | intro x
    | lift_lets -underBinder
    | with_reducible apply Quiet.ite
    | ((with_reducible apply State.updTsu_quiet); rotate_left; focus (intro t; rfl))
    | split

theorem State.closeTumb_quiet {nd : Node} {u : State} {s : State} {e : Nat} (hn : nd = .tsu) (hs : Quiet nd u s) : Quiet nd u ((State.closeTumb (s) (e))) := by
  subst hn
  refine Quiet.trans hs ?_
  unfold State.closeTumb
  repeat' first
    | with_reducible exact Quiet.refl _
    | with_reducible assumption
    | with_reducible rfl
    | (intro x; (refine Quiet.use (x := x) ?_ (fun hx => ?_); rotate_left; clear_value x; rotate_right; subst x))
    | lift_lets -underBinder
    | with_reducible apply State.discardHeld_quiet
    | with_reducible apply State.failWaiters_quiet
    | with_reducible apply State.freeTumb_quiet
    | with_reducible apply State.updTumb_quiet
    | ((with_reducible apply State.updTsu_quiet); rotate_left; focus (intro t; rfl))
    | split

theorem State.createTumb_quiet {nd : Node} {u : State} {s : State} {n : Nat} {tag : BitVec 24} {d : TumbDesc} {fromImage : Bool} (hn : nd = .tsu) (hs : Quiet nd u s) : Quiet nd u ((State.createTumb (s) (n) (tag) (d) (fromImage))) := by
  subst hn
  refine Quiet.trans hs ?_
  unfold State.createTumb
  repeat' first
    | with_reducible exact Quiet.refl _
    | with_reducible assumption
    | with_reducible rfl
    | (intro x; first | (refine Quiet.use (x := x) ?_ (fun hx => ?_); rotate_left; clear_value x; rotate_right; subst x) | clear_value x | skip)
    | lift_lets -underBinder
    | with_reducible apply Quiet.ite
    | with_reducible apply State.emptyOpens_quiet
    | ((with_reducible apply State.updTsu_quiet); rotate_left; focus (intro t; rfl))
    | split

theorem State.portReset_quiet {nd : Node} {u : State} {s : State} {p : Nat} (hn : nd = .tsu) (hs : Quiet nd u s) : Quiet nd u ((State.portReset (s) (p))) := by
  subst hn
  refine Quiet.trans hs ?_
  unfold State.portReset
  repeat' first
    | with_reducible exact Quiet.refl _
    | with_reducible assumption
    | with_reducible rfl
    | (intro x; first | (refine Quiet.use (x := x) ?_ (fun hx => ?_); rotate_left; clear_value x; rotate_right; subst x) | clear_value x | skip)
    | lift_lets -underBinder
    | with_reducible apply Quiet.ite
    | with_reducible apply State.arvCount_quiet
    | with_reducible apply State.portRecord_quiet
    | with_reducible apply State.updPort_quiet
    | with_reducible apply State.updTumb_quiet
    | ((with_reducible apply State.updTsu_quiet); rotate_left; focus (intro t; rfl))
    | with_reducible apply Quiet.foldl
    | split

theorem State.fenceTaken_quiet {nd : Node} {u : State} {s : State} {p : Nat} {hung : Bool} (hn : nd = .tsu) (hs : Quiet nd u s) : Quiet nd u ((State.fenceTaken (s) (p) (hung))) := by
  subst hn
  refine Quiet.trans hs ?_
  unfold State.fenceTaken
  repeat' first
    | with_reducible exact Quiet.refl _
    | with_reducible assumption
    | with_reducible rfl
    | (intro x; first | (refine Quiet.use (x := x) ?_ (fun hx => ?_); rotate_left; clear_value x; rotate_right; subst x) | clear_value x | skip)
    | lift_lets -underBinder
    | with_reducible apply Quiet.ite
    | with_reducible apply State.healthSend_quiet
    | with_reducible apply State.logT_quiet
    | with_reducible apply State.noteCode_quiet
    | with_reducible apply State.portReset_quiet
    | with_reducible apply State.updPort_quiet
    | with_reducible apply State.writeRecord_quiet
    | with_reducible apply State.updRegion_quiet
    | split

end Sys2Proof.Machine
end

