-- ==== Sys2Proof/Laws/ApartTumblers.lean ====
section
/-! SUPPORT. Which part the operations of `Sys2Proof.Machine.Tumblers` act at, and whether they leave its time alone. -/

namespace Sys2Proof.Machine

open Sys2Proof

set_option linter.unusedVariables false

theorem State.spGuard_quiet {nd : Node} {u : State} {s : State} {n off : Nat} {f : State → State} (k_f : ∀ x, Quiet nd x (f x)) (hn : nd = .tsu) (hs : Quiet nd u s) : Quiet nd u ((State.spGuard (s) (n) (off) (f))) := by
  subst hn
  refine Quiet.trans hs ?_
  unfold State.spGuard
  repeat' first
    | with_reducible exact Quiet.refl _
    | with_reducible rfl
    | intro x
    | lift_lets -underBinder
    | with_reducible apply Quiet.ite
    | with_reducible apply State.logT_quiet
    | with_reducible refine Quiet.trans ?_ (k_f _)
    | ((with_reducible apply State.updCom_quiet); rotate_left; focus (intro t; first | rfl | exact Common.accessErr_time ..))
    | split

theorem State.spGuard_apart {nd : Node} {u : State} {s : State} {n off : Nat} {f : State → State} (k_f : ∀ x, Apart nd x (f x)) (hn : nd = .tsu) (hs : Apart nd u s) : Apart nd u ((State.spGuard (s) (n) (off) (f))) := by
  subst hn
  refine Apart.trans hs ?_
  unfold State.spGuard
  repeat' first
    | with_reducible exact Apart.refl _
    | with_reducible rfl
    | intro x
    | lift_lets -underBinder
    | with_reducible apply Apart.ite
    | with_reducible apply Apart.step (State.logT_quiet ?_ (Quiet.refl _))
    | with_reducible refine Apart.trans ?_ (k_f _)
    | with_reducible apply State.updCom_apart
    | split

theorem State.tumblerCreate_quiet {nd : Node} {u : State} {s : State} {n binding : Nat} (hn : nd = .tsu) (hs : Quiet nd u s) : Quiet nd u ((State.tumblerCreate (s) (n) (binding))) := by
  subst hn
  refine Quiet.trans hs ?_
  unfold State.tumblerCreate
  repeat' first
    | with_reducible exact Quiet.refl _
    | with_reducible rfl
    | (intro x; first | clear_value x | skip)
    | lift_lets -underBinder
    | with_reducible apply State.createTumb_quiet
    | with_reducible apply State.spCode_quiet
    | with_reducible apply State.spGuard_quiet
    | split

theorem execTumblerCreate_quiet {nd : Node} {u : State} {slice binding : Nat} {s : State} (hn : nd = .tsu) (hs : Quiet nd u s) : Quiet nd u ((State.after (s) (execTumblerCreate (slice) (binding) (s)))) := by
  subst hn
  refine Quiet.trans hs ?_
  unfold execTumblerCreate
  rw [State.after_next]
  repeat' first
    | with_reducible exact Quiet.refl _
    | with_reducible rfl
    | with_reducible apply State.tumblerCreate_quiet

theorem State.tumblerClose_quiet {nd : Node} {u : State} {s : State} {n binding : Nat} (hn : nd = .tsu) (hs : Quiet nd u s) : Quiet nd u ((State.tumblerClose (s) (n) (binding))) := by
  subst hn
  refine Quiet.trans hs ?_
  unfold State.tumblerClose
  repeat' first
    | with_reducible exact Quiet.refl _
    | with_reducible rfl
    | (intro x; first | clear_value x | skip)
    | lift_lets -underBinder
    | with_reducible apply State.closeTumb_quiet
    | with_reducible apply State.spCode_quiet
    | with_reducible apply State.spGuard_quiet
    | split

theorem execTumblerClose_quiet {nd : Node} {u : State} {slice binding : Nat} {s : State} (hn : nd = .tsu) (hs : Quiet nd u s) : Quiet nd u ((State.after (s) (execTumblerClose (slice) (binding) (s)))) := by
  subst hn
  refine Quiet.trans hs ?_
  unfold execTumblerClose
  rw [State.after_next]
  repeat' first
    | with_reducible exact Quiet.refl _
    | with_reducible rfl
    | with_reducible apply State.tumblerClose_quiet

theorem execTumblerFree_quiet {nd : Node} {u : State} {entry : Nat} {s : State} (hn : nd = .tsu) (hs : Quiet nd u s) : Quiet nd u ((State.after (s) (execTumblerFree (entry) (s)))) := by
  subst hn
  refine Quiet.trans hs ?_
  unfold execTumblerFree
  rw [State.after_next]
  repeat' first
    | with_reducible exact Quiet.refl _
    | with_reducible rfl
    | with_reducible apply State.freeTumb_quiet

theorem execPortArrival_quiet {nd : Node} {u : State} {a : PortArv} {s : State} (hn : nd = .tsu) (hs : Quiet nd u s) : Quiet nd u ((State.after (s) (execPortArrival (a) (s)))) := by
  subst hn
  refine Quiet.trans hs ?_
  unfold execPortArrival
  rw [State.after_next]
  repeat' first
    | with_reducible exact Quiet.refl _
    | with_reducible rfl
    | with_reducible apply Quiet.ite
    | with_reducible apply State.portArrive_quiet
    | with_reducible apply State.startsWaiting_quiet
    | intro x

theorem State.softArrive_quiet {nd : Node} {u : State} {s : State} {n e : Nat} {payload : List Byte} (hn : nd = .tsu) (hs : Quiet nd u s) : Quiet nd u ((State.softArrive (s) (n) (e) (payload))) := by
  subst hn
  refine Quiet.trans hs ?_
  unfold State.softArrive
  repeat' first
    | with_reducible exact Quiet.refl _
    | with_reducible assumption
    | with_reducible rfl
    | (intro x; first | (refine Quiet.use (x := x) ?_ (fun hx => ?_); rotate_left; clear_value x; rotate_right; subst x) | clear_value x)
    | lift_lets -underBinder
    | with_reducible apply State.arrive_quiet
    | with_reducible apply State.spCode_quiet
    | with_reducible apply State.updSlice_quiet
    | split
    | with_reducible refine Quiet.ofPair (by with_reducible assumption) ?_

theorem State.softwareArrive_quiet {nd : Node} {u : State} {s : State} {n : Nat} (hn : nd = .tsu) (hs : Quiet nd u s) : Quiet nd u ((State.softwareArrive (s) (n))) := by
  subst hn
  refine Quiet.trans hs ?_
  unfold State.softwareArrive
  repeat' first
    | with_reducible exact Quiet.refl _
    | with_reducible rfl
    | (intro x; first | clear_value x | skip)
    | lift_lets -underBinder
    | with_reducible apply Quiet.ite
    | with_reducible apply State.nwRead_quiet
    | with_reducible apply State.softArrive_quiet
    | with_reducible apply State.spCode_quiet
    | with_reducible apply State.spGuard_quiet
    | with_reducible apply State.updSlice_quiet
    | split

theorem execSoftwareArrive_quiet {nd : Node} {u : State} {slice : Nat} {s : State} (hn : nd = .tsu) (hs : Quiet nd u s) : Quiet nd u ((State.after (s) (execSoftwareArrive (slice) (s)))) := by
  subst hn
  refine Quiet.trans hs ?_
  unfold execSoftwareArrive
  rw [State.after_next]
  repeat' first
    | with_reducible exact Quiet.refl _
    | with_reducible rfl
    | with_reducible apply State.softwareArrive_quiet

theorem execHeldArrivalRelease_quiet {nd : Node} {u : State} {entry : Nat} {s : State} (hn : nd = .tsu) (hs : Quiet nd u s) : Quiet nd u ((State.after (s) (execHeldArrivalRelease (entry) (s)))) := by
  subst hn
  refine Quiet.trans hs ?_
  unfold execHeldArrivalRelease
  rw [State.after_next]
  repeat' first
    | with_reducible exact Quiet.refl _
    | with_reducible rfl
    | with_reducible apply Quiet.ite
    | with_reducible apply State.releaseHeld_quiet
    | intro x

theorem State.acceptT_quiet {nd : Node} {u : State} {s : State} {far : Bool} {f : Frame} {n src : Nat} (hn : nd = .tsu) (hs : Quiet nd u s) : Quiet nd u ((State.acceptT (s) (far) (f) (n) (src)).1) := by
  subst hn
  refine Quiet.trans hs ?_
  unfold State.acceptT
  repeat' first
    | with_reducible exact Quiet.refl _
    | with_reducible rfl
    | (intro x; clear_value x)
    | lift_lets -underBinder
    | with_reducible apply State.accept_quiet
    | with_reducible apply State.logT_quiet
    | split
    | with_reducible refine Quiet.ofPair (by with_reducible assumption) ?_

theorem State.downResult_quiet {nd : Node} {u : State} {s : State} {launch short : Bool} {f : Frame} {n src : Nat} (hn : nd = .tsu) (hs : Quiet nd u s) : Quiet nd u ((State.downResult (s) (launch) (short) (f) (n) (src)).1) := by
  subst hn
  refine Quiet.trans hs ?_
  unfold State.downResult
  repeat' first
    | with_reducible exact Quiet.refl _
    | with_reducible assumption
    | with_reducible rfl
    | (intro x; first | (refine Quiet.use (x := x.1) ?_ (fun hx => ?_); rotate_left; clear_value x; rotate_right; subst x) | clear_value x)
    | lift_lets -underBinder
    | with_reducible apply State.acceptT_quiet
    | split

theorem State.markStale_quiet {nd : Node} {u : State} {s : State} {e : Nat} {t : Tumbler} (hn : nd = .tsu) (hs : Quiet nd u s) : Quiet nd u ((State.markStale (s) (e) (t))) := by
  subst hn
  refine Quiet.trans hs ?_
  unfold State.markStale
  repeat' first
    | with_reducible exact Quiet.refl _
    | with_reducible rfl
    | ((with_reducible apply State.updTsu_quiet); rotate_left; focus (intro t; rfl))

theorem State.enterShadow_quiet {nd : Node} {u : State} {s : State} {e : Nat} {m : MState} (hn : nd = .tsu) (hs : Quiet nd u s) : Quiet nd u ((State.enterShadow (s) (e) (m))) := by
  subst hn
  refine Quiet.trans hs ?_
  unfold State.enterShadow
  repeat' first
    | with_reducible exact Quiet.refl _
    | with_reducible rfl
    | with_reducible apply State.updTumb_quiet

theorem State.adopt_quiet {nd : Node} {u : State} {s : State} {e src : Nat} {t : Tumbler} {r : Result} (hn : nd = .tsu) (hs : Quiet nd u s) : Quiet nd u ((State.adopt (s) (e) (src) (t) (r))) := by
  subst hn
  refine Quiet.trans hs ?_
  unfold State.adopt
  repeat' first
    | with_reducible exact Quiet.refl _
    | with_reducible assumption
    | with_reducible rfl
    | (intro x; first | (refine Quiet.use (x := x) ?_ (fun hx => ?_); rotate_left; clear_value x; rotate_right; subst x) | clear_value x | skip)
    | lift_lets -underBinder
    | with_reducible apply Quiet.ite
    | with_reducible apply State.logT_quiet
    | with_reducible apply State.updBinding_quiet
    | with_reducible apply State.updTumb_quiet

theorem State.joinTurn_quiet {nd : Node} {u : State} {s : State} {e n : Nat} {tag : BitVec 24} {r : Result} (hn : nd = .tsu) (hs : Quiet nd u s) : Quiet nd u ((State.joinTurn (s) (e) (n) (tag) (r))) := by
  subst hn
  refine Quiet.trans hs ?_
  unfold State.joinTurn
  repeat' first
    | with_reducible exact Quiet.refl _
    | with_reducible assumption
    | with_reducible rfl
    | (intro x; first | (refine Quiet.use (x := x) ?_ (fun hx => ?_); rotate_left; clear_value x; rotate_right; subst x) | clear_value x | skip)
    | lift_lets -underBinder
    | with_reducible apply Quiet.ite
    | with_reducible apply State.setEvt_quiet
    | with_reducible apply State.turnApply_quiet
    | with_reducible apply State.updBinding_quiet
    | with_reducible apply State.updTumb_quiet

theorem State.skipTurn_quiet {nd : Node} {u : State} {s : State} {e n src : Nat} {tag : BitVec 24} (hn : nd = .tsu) (hs : Quiet nd u s) : Quiet nd u ((State.skipTurn (s) (e) (n) (src) (tag))) := by
  subst hn
  refine Quiet.trans hs ?_
  unfold State.skipTurn
  repeat' first
    | with_reducible exact Quiet.refl _
    | with_reducible assumption
    | with_reducible rfl
    | (intro x; (refine Quiet.use (x := x) ?_ (fun hx => ?_); rotate_left; clear_value x; rotate_right; subst x))
    | lift_lets -underBinder
    | with_reducible apply State.enterShadow_quiet
    | with_reducible apply State.failWaiters_quiet
    | with_reducible apply State.joinSoon_quiet
    | with_reducible apply State.logT_quiet
    | with_reducible apply State.updBinding_quiet
    | with_reducible apply State.updTumb_quiet

theorem State.memberTurn_quiet {nd : Node} {u : State} {s : State} {e n src : Nat} {t : Tumbler} {launch : Bool} {f : Frame} (hn : nd = .tsu) (hs : Quiet nd u s) : Quiet nd u ((State.memberTurn (s) (e) (n) (src) (t) (launch) (f))) := by
  subst hn
  refine Quiet.trans hs ?_
  unfold State.memberTurn
  repeat' first
    | with_reducible exact Quiet.refl _
    | with_reducible assumption
    | with_reducible rfl
    | (intro x; first | (refine Quiet.use (x := x) ?_ (fun hx => ?_); rotate_left; clear_value x; rotate_right; subst x) | clear_value x | skip)
    | lift_lets -underBinder
    | with_reducible apply Quiet.ite
    | with_reducible apply State.downResult_quiet
    | with_reducible apply State.logT_quiet
    | with_reducible apply State.markStale_quiet
    | with_reducible apply State.turnApply_quiet
    | with_reducible apply State.withdrawArrive_quiet

theorem State.downFirst_quiet {nd : Node} {u : State} {s : State} {src : Nat} {launch : Bool} {f : Frame} (hn : nd = .tsu) (hs : Quiet nd u s) : Quiet nd u ((State.downFirst (s) (src) (launch) (f))) := by
  subst hn
  refine Quiet.trans hs ?_
  unfold State.downFirst
  repeat' first
    | with_reducible exact Quiet.refl _
    | with_reducible assumption
    | with_reducible rfl
    | (intro x; first | (refine Quiet.use (x := x) ?_ (fun hx => ?_); rotate_left; clear_value x; rotate_right; subst x) | (have hf := funext (f := x) (g := x) (fun _ => rfl); clear hf; subst x) | clear_value x | skip)
    | lift_lets -underBinder
    | with_reducible apply Quiet.ite
    | with_reducible apply State.adopt_quiet
    | with_reducible apply State.downResult_quiet
    | with_reducible apply State.enterShadow_quiet
    | with_reducible apply State.joinTurn_quiet
    | with_reducible apply State.logT_quiet
    | with_reducible apply State.memberTurn_quiet
    | with_reducible apply State.skipTurn_quiet
    | with_reducible apply State.updBinding_quiet
    | split

theorem State.lanesFilled_quiet {nd : Node} {u : State} {s : State} {e : Nat} (hn : nd = .tsu) (hs : Quiet nd u s) : Quiet nd u ((State.lanesFilled (s) (e))) := by
  subst hn
  refine Quiet.trans hs ?_
  unfold State.lanesFilled
  repeat' first
    | with_reducible exact Quiet.refl _
    | with_reducible assumption
    | with_reducible rfl
    | (intro x; first | (refine Quiet.use (x := x) ?_ (fun hx => ?_); rotate_left; clear_value x; rotate_right; subst x) | clear_value x | skip)
    | lift_lets -underBinder
    | with_reducible apply Quiet.ite
    | with_reducible apply State.carryUpdate_quiet
    | with_reducible apply State.ctxResult_quiet
    | with_reducible apply State.launchTurn_quiet
    | with_reducible apply State.updCtx_quiet
    | with_reducible apply Quiet.foldl
    | split

theorem State.downFill_quiet {nd : Node} {u : State} {s : State} {launch : Bool} {h f : Frame} {k : Nat} (hn : nd = .tsu) (hs : Quiet nd u s) : Quiet nd u ((State.downFill (s) (launch) (h) (f) (k))) := by
  subst hn
  refine Quiet.trans hs ?_
  unfold State.downFill
  repeat' first
    | with_reducible exact Quiet.refl _
    | with_reducible rfl
    | (intro x; first | clear_value x | skip)
    | lift_lets -underBinder
    | with_reducible apply Quiet.ite
    | with_reducible apply State.lanesFilled_quiet
    | with_reducible apply State.updTumb_quiet
    | split

theorem State.downRx_quiet {nd : Node} {u : State} {s : State} {l : LinkId} {f : Frame} {launch : Bool} (h_l : l.node = nd) (hn : nd = .tsu) (hs : Quiet nd u s) : Quiet nd u ((State.downRx (s) (l) (f) (launch))) := by
  subst hn
  refine Quiet.trans hs ?_
  unfold State.downRx
  repeat' first
    | with_reducible exact Quiet.refl _
    | with_reducible assumption
    | with_reducible rfl
    | (intro x; first | (refine Quiet.use (x := x) ?_ (fun hx => ?_); rotate_left; clear_value x; rotate_right; subst x) | (have hf := funext (f := x) (g := x) (fun _ => rfl); clear hf; subst x) | clear_value x | skip)
    | lift_lets -underBinder
    | with_reducible apply Quiet.ite
    | with_reducible apply State.downFill_quiet
    | with_reducible apply State.downFirst_quiet
    | with_reducible apply State.malformed_quiet
    | with_reducible apply State.updLink_quiet
    | split

theorem State.turnRx_apart {nd : Node} {u : State} {s : State} {l : LinkId} {rx : Rx} (h_l : l.node = nd) (hs : Apart nd u s) : Apart nd u ((State.turnRx (s) (l) (rx))) := by
  refine Apart.trans hs ?_
  unfold State.turnRx
  repeat' first
    | with_reducible exact Apart.refl _
    | with_reducible assumption
    | (with_reducible refine (?_ : (_ : Node) = _); first | rfl | assumption | (simp_all only []; done) | (simp_all; done) | (cases nd <;> simp_all; done))
    | with_reducible apply Apart.ite
    | with_reducible apply Apart.step (State.downRx_quiet ?_ ?_ (Quiet.refl _))
    | with_reducible apply State.receive_apart
    | split
    | with_reducible refine Apart.ofPair (by with_reducible assumption) ?_
    | intro x

theorem execTurnRx_apart {nd : Node} {u : State} {l : LinkId} {rx : Rx} {s : State} (h_l : l.node = nd) (hs : Apart nd u s) : Apart nd u ((State.after (s) (execTurnRx (l) (rx) (s)))) := by
  refine Apart.trans hs ?_
  unfold execTurnRx
  rw [State.after_next]
  repeat' first
    | with_reducible exact Apart.refl _
    | with_reducible assumption
    | with_reducible apply State.turnRx_apart

theorem State.launchFrameRx_apart {nd : Node} {u : State} {s : State} {l : LinkId} {rx : Rx} (h_l : l.node = nd) (hs : Apart nd u s) : Apart nd u ((State.launchFrameRx (s) (l) (rx))) := by
  refine Apart.trans hs ?_
  unfold State.launchFrameRx
  repeat' first
    | with_reducible exact Apart.refl _
    | with_reducible assumption
    | (with_reducible refine (?_ : (_ : Node) = _); first | rfl | assumption | (simp_all only []; done) | (simp_all; done) | (cases nd <;> simp_all; done))
    | with_reducible apply Apart.ite
    | with_reducible apply Apart.step (State.downRx_quiet ?_ ?_ (Quiet.refl _))
    | with_reducible apply State.receive_apart
    | split
    | with_reducible refine Apart.ofPair (by with_reducible assumption) ?_
    | intro x

theorem execLaunchFrameRx_apart {nd : Node} {u : State} {l : LinkId} {rx : Rx} {s : State} (h_l : l.node = nd) (hs : Apart nd u s) : Apart nd u ((State.after (s) (execLaunchFrameRx (l) (rx) (s)))) := by
  refine Apart.trans hs ?_
  unfold execLaunchFrameRx
  rw [State.after_next]
  repeat' first
    | with_reducible exact Apart.refl _
    | with_reducible assumption
    | with_reducible apply State.launchFrameRx_apart

theorem State.waitDeadline_quiet {nd : Node} {u : State} {s : State} {n w1 w2 w3 : Nat} (hn : nd = .tsu) (hs : Quiet nd u s) : Quiet nd u ((State.waitDeadline (s) (n) (w1) (w2) (w3)).1) := by
  subst hn
  refine Quiet.trans hs ?_
  unfold State.waitDeadline
  repeat' first
    | with_reducible exact Quiet.refl _
    | with_reducible rfl
    | (intro x; clear_value x)
    | lift_lets -underBinder
    | with_reducible apply State.accept_quiet
    | split
    | with_reducible refine Quiet.ofPair (by with_reducible assumption) ?_

theorem State.waitRefused_quiet {nd : Node} {u : State} {s : State} {n : Nat} {e : Option Nat} {index : Nat} {w : BitVec 2} {code : ErrCode} {logIt : Bool} (hn : nd = .tsu) (hs : Quiet nd u s) : Quiet nd u ((State.waitRefused (s) (n) (e) (index) (w) (code) (logIt))) := by
  subst hn
  refine Quiet.trans hs ?_
  unfold State.waitRefused
  repeat' first
    | with_reducible exact Quiet.refl _
    | with_reducible assumption
    | with_reducible rfl
    | (intro x; first | (refine Quiet.use (x := x) ?_ (fun hx => ?_); rotate_left; clear_value x; rotate_right; subst x) | skip)
    | lift_lets -underBinder
    | with_reducible apply Quiet.ite
    | with_reducible apply State.logT_quiet
    | with_reducible apply State.writeRecord_quiet

theorem State.waitArm_quiet {nd : Node} {u : State} {s : State} {n k : Nat} (hn : nd = .tsu) (hs : Quiet nd u s) : Quiet nd u ((State.waitArm (s) (n) (k))) := by
  subst hn
  refine Quiet.trans hs ?_
  unfold State.waitArm
  repeat' first
    | with_reducible exact Quiet.refl _
    | with_reducible rfl
    | (intro x; first | clear_value x | skip)
    | lift_lets -underBinder
    | with_reducible apply Quiet.ite
    | with_reducible apply State.spGuard_quiet
    | with_reducible apply State.waitDeadline_quiet
    | with_reducible apply State.waitRecord_quiet
    | with_reducible apply State.waitRefused_quiet
    | ((with_reducible apply State.updTsu_quiet); rotate_left; focus (intro t; rfl))
    | split
    | with_reducible refine Quiet.ofPair (by with_reducible assumption) ?_

theorem execWaitArm_quiet {nd : Node} {u : State} {slice k : Nat} {s : State} (hn : nd = .tsu) (hs : Quiet nd u s) : Quiet nd u ((State.after (s) (execWaitArm (slice) (k) (s)))) := by
  subst hn
  refine Quiet.trans hs ?_
  unfold execWaitArm
  rw [State.after_next]
  repeat' first
    | with_reducible exact Quiet.refl _
    | with_reducible rfl
    | with_reducible apply State.waitArm_quiet

theorem State.waitTimeout_quiet {nd : Node} {u : State} {s : State} {n k : Nat} (hn : nd = .tsu) (hs : Quiet nd u s) : Quiet nd u ((State.waitTimeout (s) (n) (k))) := by
  subst hn
  refine Quiet.trans hs ?_
  unfold State.waitTimeout
  repeat' first
    | with_reducible exact Quiet.refl _
    | with_reducible rfl
    | with_reducible apply Quiet.ite
    | with_reducible apply State.endSoftWait_quiet
    | split
    | intro x

theorem execWaitTimeout_quiet {nd : Node} {u : State} {slice k : Nat} {s : State} (hn : nd = .tsu) (hs : Quiet nd u s) : Quiet nd u ((State.after (s) (execWaitTimeout (slice) (k) (s)))) := by
  subst hn
  refine Quiet.trans hs ?_
  unfold execWaitTimeout
  rw [State.after_next]
  repeat' first
    | with_reducible exact Quiet.refl _
    | with_reducible rfl
    | with_reducible apply Quiet.ite
    | with_reducible apply State.waitTimeout_quiet
    | intro x

theorem execBudgetReclaim_quiet {nd : Node} {u : State} {port : Nat} {s : State} (hn : nd = .tsu) (hs : Quiet nd u s) : Quiet nd u ((State.after (s) (execBudgetReclaim (port) (s)))) := by
  subst hn
  refine Quiet.trans hs ?_
  unfold execBudgetReclaim
  rw [State.after_next]
  repeat' first
    | with_reducible exact Quiet.refl _
    | with_reducible rfl
    | with_reducible apply Quiet.ite
    | with_reducible apply State.reclaim_quiet
    | split
    | intro x

theorem execPmLendEvent_quiet {nd : Node} {u : State} {s : State} (hn : nd = .tsu) (hs : Quiet nd u s) : Quiet nd u ((State.after (s) (execPmLendEvent (s)))) := by
  subst hn
  refine Quiet.trans hs ?_
  unfold execPmLendEvent
  rw [State.after_next]
  repeat' first
    | with_reducible exact Quiet.refl _
    | with_reducible rfl
    | ((with_reducible apply State.updTsu_quiet); rotate_left; focus (intro t; rfl))

theorem execTumblerSnapshot_quiet {nd : Node} {u : State} {w : Word} {s : State} (hn : nd = .tsu) (hs : Quiet nd u s) : Quiet nd u ((State.after (s) (execTumblerSnapshot (w) (s)))) := by
  subst hn
  refine Quiet.trans hs ?_
  unfold execTumblerSnapshot
  rw [State.after_next]
  repeat' first
    | with_reducible exact Quiet.refl _
    | with_reducible rfl
    | lift_lets -underBinder
    | with_reducible apply State.setReg_quiet
    | ((with_reducible apply State.updTsu_quiet); rotate_left; focus (intro t; rfl))

end Sys2Proof.Machine
end

