-- ==== Sys2Proof/Laws/ApartOrderOps.lean ====
section
/-! SUPPORT. Which part the operations of `Sys2Proof.Machine.OrderOps` act at, and whether they leave its time alone. -/

namespace Sys2Proof.Machine

open Sys2Proof

set_option linter.unusedVariables false

theorem State.orderRecord_quiet {nd : Node} {u : State} {s : State} {n : Nat} {o : Order} {code : ErrCode} (hn : nd = .tsu) (hs : Quiet nd u s) : Quiet nd u ((State.orderRecord (s) (n) (o) (code))) := by
  subst hn
  refine Quiet.trans hs ?_
  unfold State.orderRecord
  repeat' first
    | with_reducible exact Quiet.refl _
    | with_reducible rfl
    | with_reducible apply State.writeRecord_quiet

theorem State.conflict_quiet {nd : Node} {u : State} {s : State} {c : Conflict} (hn : nd = .tsu) (hs : Quiet nd u s) : Quiet nd u ((State.conflict (s) (c))) := by
  subst hn
  refine Quiet.trans hs ?_
  unfold State.conflict
  repeat' first
    | with_reducible exact Quiet.refl _
    | with_reducible rfl
    | intro x
    | lift_lets -underBinder
    | with_reducible apply Quiet.ite
    | with_reducible apply State.setEvt_quiet
    | ((with_reducible apply State.updTsu_quiet); rotate_left; focus (intro t; rfl))

theorem State.sendAbortDone_quiet {nd : Node} {u : State} {s : State} {n : Nat} {x : BitVec 24 × Nat} (hn : nd = .tsu) (hs : Quiet nd u s) : Quiet nd u ((State.sendAbortDone (s) (n) (x))) := by
  subst hn
  refine Quiet.trans hs ?_
  unfold State.sendAbortDone
  repeat' first
    | with_reducible exact Quiet.refl _
    | with_reducible rfl
    | (intro x; first | clear_value x | skip)
    | lift_lets -underBinder
    | with_reducible apply Quiet.ite
    | with_reducible apply State.tsuUp_quiet

theorem State.releaseAll_quiet {nd : Node} {u : State} {s : State} {n : Nat} (hn : nd = .tsu) (hs : Quiet nd u s) : Quiet nd u ((State.releaseAll (s) (n))) := by
  subst hn
  refine Quiet.trans hs ?_
  unfold State.releaseAll
  repeat' first
    | with_reducible exact Quiet.refl _
    | with_reducible rfl
    | (intro x; first | clear_value x | skip)
    | lift_lets -underBinder
    | with_reducible apply State.present_quiet
    | with_reducible apply State.updPort_quiet
    | with_reducible apply Quiet.foldl

theorem State.unbind_quiet {nd : Node} {u : State} {s : State} {n : Nat} {tag : BitVec 24} (hn : nd = .tsu) (hs : Quiet nd u s) : Quiet nd u ((State.unbind (s) (n) (tag))) := by
  subst hn
  refine Quiet.trans hs ?_
  unfold State.unbind
  repeat' first
    | with_reducible exact Quiet.refl _
    | with_reducible assumption
    | with_reducible rfl
    | (intro x; first | (refine Quiet.use (x := x) ?_ (fun hx => ?_); rotate_left; clear_value x; rotate_right; subst x) | skip)
    | lift_lets -underBinder
    | with_reducible apply State.closeTumb_quiet
    | with_reducible apply State.updSlice_quiet
    | ((with_reducible apply State.updTsu_quiet); rotate_left; focus (intro t; rfl))
    | with_reducible apply Quiet.foldl

theorem State.resetFinish_quiet {nd : Node} {u : State} {s : State} {n : Nat} {destroy : Bool} (hn : nd = .tsu) (hs : Quiet nd u s) : Quiet nd u ((State.resetFinish (s) (n) (destroy))) := by
  subst hn
  refine Quiet.trans hs ?_
  unfold State.resetFinish
  repeat' first
    | with_reducible exact Quiet.refl _
    | with_reducible assumption
    | with_reducible rfl
    | (intro x; first | (refine Quiet.use (x := x) ?_ (fun hx => ?_); rotate_left; clear_value x; rotate_right; subst x) | skip)
    | lift_lets -underBinder
    | with_reducible apply Quiet.ite
    | with_reducible apply State.releaseAll_quiet
    | with_reducible apply State.unbind_quiet
    | with_reducible apply State.updSlice_quiet
    | ((with_reducible apply State.updTsu_quiet); rotate_left; focus (intro t; rfl))
    | with_reducible apply Quiet.foldl

theorem State.abortCheck_quiet {nd : Node} {u : State} {s : State} {n : Nat} (hn : nd = .tsu) (hs : Quiet nd u s) : Quiet nd u ((State.abortCheck (s) (n))) := by
  subst hn
  refine Quiet.trans hs ?_
  unfold State.abortCheck
  repeat' first
    | with_reducible exact Quiet.refl _
    | with_reducible assumption
    | with_reducible rfl
    | (intro x; first | (refine Quiet.use (x := x) ?_ (fun hx => ?_); rotate_left; clear_value x; rotate_right; subst x) | clear_value x | skip)
    | lift_lets -underBinder
    | with_reducible apply Quiet.ite
    | with_reducible apply State.resetFinish_quiet
    | with_reducible apply State.sendAbortDone_quiet
    | with_reducible apply State.updSlice_quiet
    | with_reducible apply State.writeRecord_quiet
    | ((with_reducible apply State.updTsu_quiet); rotate_left; focus (intro t; rfl))
    | with_reducible apply Quiet.foldl
    | split

theorem State.raiseAbort_quiet {nd : Node} {u : State} {s : State} {n p : Nat} (hn : nd = .tsu) (hs : Quiet nd u s) : Quiet nd u ((State.raiseAbort (s) (n) (p))) := by
  subst hn
  refine Quiet.trans hs ?_
  unfold State.raiseAbort
  repeat' first
    | with_reducible exact Quiet.refl _
    | with_reducible rfl
    | (intro x; clear_value x)
    | lift_lets -underBinder
    | with_reducible apply State.startsWaiting_quiet
    | with_reducible apply State.updPort_quiet

theorem State.dropSliceStaged_quiet {nd : Node} {u : State} {s : State} {n : Nat} {pick : Launch → Bool} {code : Option ErrCode} (hn : nd = .tsu) (hs : Quiet nd u s) : Quiet nd u ((State.dropSliceStaged (s) (n) (pick) (code))) := by
  subst hn
  refine Quiet.trans hs ?_
  unfold State.dropSliceStaged
  repeat' first
    | with_reducible exact Quiet.refl _
    | with_reducible rfl
    | intro x
    | lift_lets -underBinder
    | with_reducible apply State.dropStaged_quiet
    | with_reducible apply State.launchDropped_quiet
    | with_reducible apply Quiet.foldl
    | split

theorem State.abortSteps_quiet {nd : Node} {u : State} {s : State} {n : Nat} {o : Order} {doms : List (BitVec 24 × Nat)} {quiet destroy : Bool} (hn : nd = .tsu) (hs : Quiet nd u s) : Quiet nd u ((State.abortSteps (s) (n) (o) (doms) (quiet) (destroy))) := by
  subst hn
  refine Quiet.trans hs ?_
  unfold State.abortSteps
  repeat' first
    | with_reducible exact Quiet.refl _
    | with_reducible assumption
    | with_reducible rfl
    | (intro x; first | (refine Quiet.use (x := x) ?_ (fun hx => ?_); rotate_left; clear_value x; rotate_right; subst x) | skip)
    | lift_lets -underBinder
    | with_reducible apply State.abortCheck_quiet
    | with_reducible apply State.ctxHalt_quiet
    | with_reducible apply State.discardHeld_quiet
    | with_reducible apply State.dropArm_quiet
    | with_reducible apply State.dropSliceStaged_quiet
    | with_reducible apply State.endSoftWait_quiet
    | with_reducible apply State.raiseAbort_quiet
    | with_reducible apply State.updSlice_quiet
    | ((with_reducible apply State.updTsu_quiet); rotate_left; focus (intro t; rfl))
    | with_reducible apply Quiet.foldl

theorem State.startCtx_quiet {nd : Node} {u : State} {s : State} {n rec sentence : Nat} (hn : nd = .tsu) (hs : Quiet nd u s) : Quiet nd u ((State.startCtx (s) (n) (rec) (sentence))) := by
  subst hn
  refine Quiet.trans hs ?_
  unfold State.startCtx
  repeat' first
    | with_reducible exact Quiet.refl _
    | with_reducible rfl
    | (intro x; first | clear_value x | skip)
    | lift_lets -underBinder
    | with_reducible apply Quiet.ite
    | with_reducible apply State.ctxStart_quiet
    | with_reducible apply State.logT_quiet
    | ((with_reducible apply State.updTsu_quiet); rotate_left; focus (intro t; rfl))
    | split

theorem State.resumeCtx_quiet {nd : Node} {u : State} {s : State} {c : Nat} (hn : nd = .tsu) (hs : Quiet nd u s) : Quiet nd u ((State.resumeCtx (s) (c))) := by
  subst hn
  refine Quiet.trans hs ?_
  unfold State.resumeCtx
  repeat' first
    | with_reducible exact Quiet.refl _
    | with_reducible rfl
    | with_reducible apply State.updCtx_quiet

theorem State.withdrawHeld_quiet {nd : Node} {u : State} {s : State} {cs : List Nat} (hn : nd = .tsu) (hs : Quiet nd u s) : Quiet nd u ((State.withdrawHeld (s) (cs))) := by
  subst hn
  refine Quiet.trans hs ?_
  unfold State.withdrawHeld
  repeat' first
    | with_reducible exact Quiet.refl _
    | with_reducible rfl
    | (intro x; (have hf := funext (f := x) (g := x) (fun _ => rfl); clear hf; subst x))
    | lift_lets -underBinder
    | ((with_reducible apply State.updTsu_quiet); rotate_left; focus (intro t; rfl))

theorem State.orderApply_quiet {nd : Node} {u : State} {s : State} {n : Nat} {o : Order} {doms : List (BitVec 24 × Nat)} (hn : nd = .tsu) (hs : Quiet nd u s) : Quiet nd u ((State.orderApply (s) (n) (o) (doms))) := by
  subst hn
  refine Quiet.trans hs ?_
  unfold State.orderApply
  repeat' first
    | with_reducible exact Quiet.refl _
    | with_reducible assumption
    | with_reducible rfl
    | (intro x; first | (refine Quiet.use (x := x) ?_ (fun hx => ?_); rotate_left; clear_value x; rotate_right; subst x) | (have hf := funext (f := x) (g := x) (fun _ => rfl); clear hf; subst x) | clear_value x | skip)
    | lift_lets -underBinder
    | with_reducible apply Quiet.ite
    | with_reducible apply State.abortSteps_quiet
    | with_reducible apply State.ctxHalt_quiet
    | with_reducible apply State.ctxStop_quiet
    | with_reducible apply State.dropSliceStaged_quiet
    | with_reducible apply State.orderRecord_quiet
    | with_reducible apply State.resumeCtx_quiet
    | with_reducible apply State.sendAbortDone_quiet
    | with_reducible apply State.startCtx_quiet
    | with_reducible apply State.updSlice_quiet
    | with_reducible apply State.withdrawHeld_quiet
    | ((with_reducible apply State.updTsu_quiet); rotate_left; focus (intro t; rfl))
    | with_reducible apply Quiet.foldl
    | split

theorem State.orderLoses_quiet {nd : Node} {u : State} {s : State} {n : Nat} {w o : Order} (hn : nd = .tsu) (hs : Quiet nd u s) : Quiet nd u ((State.orderLoses (s) (n) (w) (o))) := by
  subst hn
  refine Quiet.trans hs ?_
  unfold State.orderLoses
  repeat' first
    | with_reducible exact Quiet.refl _
    | with_reducible assumption
    | with_reducible rfl
    | (intro x; (refine Quiet.use (x := x) ?_ (fun hx => ?_); rotate_left; clear_value x; rotate_right; subst x))
    | lift_lets -underBinder
    | with_reducible apply State.conflict_quiet
    | with_reducible apply State.logT_quiet
    | with_reducible apply State.orderRecord_quiet

theorem State.order_quiet {nd : Node} {u : State} {s : State} {n : Nat} {o : Order} {doms : List (BitVec 24 × Nat)} (hn : nd = .tsu) (hs : Quiet nd u s) : Quiet nd u ((State.order (s) (n) (o) (doms))) := by
  subst hn
  refine Quiet.trans hs ?_
  unfold State.order
  repeat' first
    | with_reducible exact Quiet.refl _
    | with_reducible assumption
    | with_reducible rfl
    | (intro x; first | (refine Quiet.use (x := x) ?_ (fun hx => ?_); rotate_left; clear_value x; rotate_right; subst x) | clear_value x | skip)
    | lift_lets -underBinder
    | with_reducible apply Quiet.ite
    | with_reducible apply State.logT_quiet
    | with_reducible apply State.orderApply_quiet
    | with_reducible apply State.orderLoses_quiet
    | with_reducible apply State.orderRecord_quiet
    | with_reducible apply State.sendAbortDone_quiet
    | ((with_reducible apply State.updTsu_quiet); rotate_left; focus (intro t; rfl))
    | with_reducible apply Quiet.foldl
    | split

theorem State.domainRequest_quiet {nd : Node} {u : State} {s : State} {n : Nat} {tag : BitVec 24} {o : Order} {reason : Nat} (hn : nd = .tsu) (hs : Quiet nd u s) : Quiet nd u ((State.domainRequest (s) (n) (tag) (o) (reason))) := by
  subst hn
  refine Quiet.trans hs ?_
  unfold State.domainRequest
  repeat' first
    | with_reducible exact Quiet.refl _
    | with_reducible assumption
    | with_reducible rfl
    | (intro x; first | (refine Quiet.use (x := x) ?_ (fun hx => ?_); rotate_left; clear_value x; rotate_right; subst x) | clear_value x | skip)
    | lift_lets -underBinder
    | with_reducible apply Quiet.ite
    | with_reducible apply State.order_quiet
    | with_reducible apply State.tsuUp_quiet
    | with_reducible apply State.updBinding_quiet

end Sys2Proof.Machine
end

