-- ==== Sys2Proof/Laws/ApartStageOps.lean ====
section
/-! SUPPORT. Which part the operations of `Sys2Proof.Machine.StageOps` act at, and whether they leave its time alone. -/

namespace Sys2Proof.Machine

open Sys2Proof

set_option linter.unusedVariables false

theorem State.grantAsk_quiet {nd : Node} {u : State} {s : State} {resource n c : Nat} {o : Option SeqOrder} (hn : nd = .tsu) (hs : Quiet nd u s) : Quiet nd u ((State.grantAsk (s) (resource) (n) (c) (o))) := by
  subst hn
  refine Quiet.trans hs ?_
  unfold State.grantAsk
  repeat' first
    | with_reducible exact Quiet.refl _
    | with_reducible rfl
    | intro x
    | lift_lets -underBinder
    | with_reducible apply Quiet.ite
    | ((with_reducible apply State.updTsu_quiet); rotate_left; focus (intro t; rfl))

theorem State.wgen_quiet {nd : Node} {u : State} {s : State} {x : Ctx} {e : Nat} {t : Tumbler} {w : Nat} (hn : nd = .tsu) (hs : Quiet nd u s) : Quiet nd u ((State.wgen (s) (x) (e) (t) (w)).1) := by
  subst hn
  refine Quiet.trans hs ?_
  unfold State.wgen
  repeat' first
    | with_reducible exact Quiet.refl _
    | with_reducible rfl
    | with_reducible apply State.logT_quiet
    | split

theorem State.stageClause_quiet {nd : Node} {u : State} {s : State} {id : Nat} {alt : Bool} {x : Ctx} {k : BitVec 128} {ports : List Nat} {slots : List (Nat × Nat)} (hn : nd = .tsu) (hs : Quiet nd u s) : Quiet nd u ((State.stageClause (s) (id) (alt) (x) (k) (ports) (slots))) := by
  subst hn
  refine Quiet.trans hs ?_
  unfold State.stageClause
  repeat' first
    | with_reducible exact Quiet.refl _
    | with_reducible assumption
    | with_reducible rfl
    | (intro x; first | (refine Quiet.use (x := x) ?_ (fun hx => ?_); rotate_left; clear_value x; rotate_right; subst x) | clear_value x | skip)
    | lift_lets -underBinder
    | with_reducible apply State.updPort_quiet
    | with_reducible apply State.updRegion_quiet
    | with_reducible apply Quiet.foldl

theorem State.launchRefused_quiet {nd : Node} {u : State} {s : State} {c : Nat} {x : Ctx} {index : Nat} {code : ErrCode} (hn : nd = .tsu) (hs : Quiet nd u s) : Quiet nd u ((State.launchRefused (s) (c) (x) (index) (code))) := by
  subst hn
  refine Quiet.trans hs ?_
  unfold State.launchRefused
  repeat' first
    | with_reducible exact Quiet.refl _
    | with_reducible assumption
    | with_reducible rfl
    | (intro x; (refine Quiet.use (x := x) ?_ (fun hx => ?_); rotate_left; clear_value x; rotate_right; subst x))
    | lift_lets -underBinder
    | with_reducible apply State.ctxNext_quiet
    | with_reducible apply State.logT_quiet
    | with_reducible apply State.writeRecord_quiet

theorem State.stageLaunch_quiet {nd : Node} {u : State} {s : State} {c : Nat} {x : Ctx} {k : BitVec 128} {i : Nat} (hn : nd = .tsu) (hs : Quiet nd u s) : Quiet nd u ((State.stageLaunch (s) (c) (x) (k) (i))) := by
  subst hn
  refine Quiet.trans hs ?_
  unfold State.stageLaunch
  repeat' first
    | with_reducible exact Quiet.refl _
    | with_reducible assumption
    | with_reducible rfl
    | (intro x; first | (refine Quiet.use (x := x) ?_ (fun hx => ?_); rotate_left; clear_value x; rotate_right; subst x) | (refine Quiet.use (x := x.1) ?_ (fun hx => ?_); rotate_left; clear_value x; rotate_right; subst x) | clear_value x | skip)
    | lift_lets -underBinder
    | with_reducible apply Quiet.ite
    | with_reducible apply State.boost_quiet
    | with_reducible apply State.ctxBlock_quiet
    | with_reducible apply State.grantAsk_quiet
    | with_reducible apply State.launchRefused_quiet
    | with_reducible apply State.launchTurn_quiet
    | with_reducible apply State.stageClause_quiet
    | with_reducible apply State.startsWaiting_quiet
    | with_reducible apply State.wgen_quiet
    | ((with_reducible apply State.updTsu_quiet); rotate_left; focus (intro t; rfl))
    | with_reducible apply Quiet.foldl
    | split

theorem State.restage_quiet {nd : Node} {u : State} {s : State} {c : Nat} (hn : nd = .tsu) (hs : Quiet nd u s) : Quiet nd u ((State.restage (s) (c))) := by
  subst hn
  refine Quiet.trans hs ?_
  unfold State.restage
  repeat' first
    | with_reducible exact Quiet.refl _
    | with_reducible rfl
    | (intro x; first | clear_value x | skip)
    | lift_lets -underBinder
    | with_reducible apply Quiet.ite
    | with_reducible apply State.stageLaunch_quiet
    | split

theorem State.grantTry_quiet {nd : Node} {u : State} {s : State} {g : GrantReq} (hn : nd = .tsu) (hs : Quiet nd u s) : Quiet nd u ((State.grantTry (s) (g)).1) := by
  subst hn
  refine Quiet.trans hs ?_
  unfold State.grantTry
  repeat' first
    | with_reducible exact Quiet.refl _
    | with_reducible assumption
    | with_reducible rfl
    | (intro x; first | (refine Quiet.use (x := x) ?_ (fun hx => ?_); rotate_left; clear_value x; rotate_right; subst x) | clear_value x | skip)
    | lift_lets -underBinder
    | with_reducible apply State.launchTurn_quiet
    | with_reducible apply State.restage_quiet
    | ((with_reducible apply State.updTsu_quiet); rotate_left; focus (intro t; rfl))
    | with_reducible apply Quiet.foldl
    | split

theorem State.grantFail_quiet {nd : Node} {u : State} {s : State} {g : GrantReq} (hn : nd = .tsu) (hs : Quiet nd u s) : Quiet nd u ((State.grantFail (s) (g))) := by
  subst hn
  refine Quiet.trans hs ?_
  unfold State.grantFail
  repeat' first
    | with_reducible exact Quiet.refl _
    | with_reducible assumption
    | with_reducible rfl
    | (intro x; first | (refine Quiet.use (x := x) ?_ (fun hx => ?_); rotate_left; clear_value x; rotate_right; subst x) | skip)
    | lift_lets -underBinder
    | with_reducible apply Quiet.ite
    | with_reducible apply State.launchDropped_quiet
    | with_reducible apply State.logT_quiet
    | with_reducible apply State.spCode_quiet
    | with_reducible apply State.updCtx_quiet
    | ((with_reducible apply State.updTsu_quiet); rotate_left; focus (intro t; rfl))
    | with_reducible apply Quiet.foldl
    | split

theorem State.grantRetry_quiet {nd : Node} {u : State} {s : State} {resource : Nat} (hn : nd = .tsu) (hs : Quiet nd u s) : Quiet nd u ((State.grantRetry (s) (resource))) := by
  subst hn
  refine Quiet.trans hs ?_
  unfold State.grantRetry
  repeat' first
    | with_reducible exact Quiet.refl _
    | with_reducible assumption
    | with_reducible rfl
    | (intro x; first | (refine Quiet.use (x := x) ?_ (fun hx => ?_); rotate_left; clear_value x; rotate_right; subst x) | (refine Quiet.use (x := x.1) ?_ (fun hx => ?_); rotate_left; clear_value x; rotate_right; subst x) | clear_value x | skip)
    | lift_lets -underBinder
    | with_reducible apply Quiet.ite
    | with_reducible apply State.grantFail_quiet
    | with_reducible apply State.grantTry_quiet
    | ((with_reducible apply State.updTsu_quiet); rotate_left; focus (intro t; rfl))
    | with_reducible apply Quiet.foldl

end Sys2Proof.Machine
end

