-- ==== Sys2Proof/Laws/ApartSequencer.lean ====
section
/-! SUPPORT. Which part the operations of `Sys2Proof.Machine.Sequencer` act at, and whether they leave its time alone. -/

namespace Sys2Proof.Machine

open Sys2Proof

set_option linter.unusedVariables false

theorem State.topnd_quiet {nd : Node} {u s : State} {x : Ctx} {w : Nat} (hn : nd = .tsu) (hs : Quiet nd u s) :
    Quiet nd u (s.topnd x w).1 := by
  unfold State.topnd
  simp only []
  generalize bitsOf w 35 34 = k
  match k with
  | 0 => exact hs
  | 1 => exact hs
  | 2 =>
    have h := State.accept_quiet (t := extendNs (s.now .tsu) (BitVec.ofNat 32 (bitsOf w 31 0)) * 65536)
      (slice := some x.slice) hn hs
    revert h
    generalize s.accept (extendNs (s.now .tsu) (BitVec.ofNat 32 (bitsOf w 31 0)) * 65536) (some x.slice) = p
    intro h
    obtain ⟨a, _ | t⟩ := p <;> exact h
  | _ + 3 =>
    generalize (((s.slice x.slice).image.bind fun m => m.times[bitsOf w 31 0 % 256]?).getD Time80.zero).toNs16 = i
    have h := State.accept_quiet (t := i) (slice := some x.slice) hn hs
    revert h
    generalize s.accept i (some x.slice) = p
    intro h
    obtain ⟨a, _ | t⟩ := p <;> exact h

theorem State.ctxArrive_quiet {nd : Node} {u : State} {s : State} {c : Nat} {x : Ctx} {k : BitVec 128} {payload : List Byte} (hn : nd = .tsu) (hs : Quiet nd u s) : Quiet nd u ((State.ctxArrive (s) (c) (x) (k) (payload))) := by
  subst hn
  refine Quiet.trans hs ?_
  unfold State.ctxArrive
  repeat' first
    | with_reducible exact Quiet.refl _
    | with_reducible assumption
    | with_reducible rfl
    | (intro x; first | (refine Quiet.use (x := x) ?_ (fun hx => ?_); rotate_left; clear_value x; rotate_right; subst x) | (refine Quiet.use (x := x.1) ?_ (fun hx => ?_); rotate_left; clear_value x; rotate_right; subst x) | clear_value x)
    | lift_lets -underBinder
    | with_reducible apply State.arrive_quiet
    | with_reducible apply State.ctxArrived_quiet
    | with_reducible apply State.ctxNext_quiet
    | with_reducible apply State.logT_quiet
    | with_reducible apply State.updTumb_quiet
    | with_reducible apply State.waitRecord_quiet
    | split

theorem State.issueArrive_quiet {nd : Node} {u : State} {s : State} {c : Nat} {x : Ctx} {k : BitVec 128} {wait : Bool} (hn : nd = .tsu) (hs : Quiet nd u s) : Quiet nd u ((State.issueArrive (s) (c) (x) (k) (wait))) := by
  subst hn
  refine Quiet.trans hs ?_
  unfold State.issueArrive
  repeat' first
    | with_reducible exact Quiet.refl _
    | with_reducible assumption
    | with_reducible rfl
    | (intro x; first | (refine Quiet.use (x := x.1) ?_ (fun hx => ?_); rotate_left; clear_value x; rotate_right; subst x) | skip)
    | lift_lets -underBinder
    | with_reducible apply Quiet.ite
    | with_reducible apply State.ctxArrive_quiet
    | with_reducible apply State.ctxBlock_quiet
    | with_reducible apply State.nwRead_quiet
    | with_reducible apply State.topnd_quiet
    | with_reducible apply State.updCtx_quiet
    | split

theorem State.issueWait_quiet {nd : Node} {u : State} {s : State} {c : Nat} {x : Ctx} {k : BitVec 128} (hn : nd = .tsu) (hs : Quiet nd u s) : Quiet nd u ((State.issueWait (s) (c) (x) (k))) := by
  subst hn
  refine Quiet.trans hs ?_
  unfold State.issueWait
  repeat' first
    | with_reducible exact Quiet.refl _
    | with_reducible assumption
    | with_reducible rfl
    | (intro x; first | (refine Quiet.use (x := x) ?_ (fun hx => ?_); rotate_left; clear_value x; rotate_right; subst x) | (refine Quiet.use (x := x.1) ?_ (fun hx => ?_); rotate_left; clear_value x; rotate_right; subst x) | skip)
    | lift_lets -underBinder
    | with_reducible apply Quiet.ite
    | with_reducible apply State.boost_quiet
    | with_reducible apply State.ctxBlock_quiet
    | with_reducible apply State.ctxNext_quiet
    | with_reducible apply State.ctxResult_quiet
    | with_reducible apply State.ctxWaitEnds_quiet
    | with_reducible apply State.logT_quiet
    | with_reducible apply State.topnd_quiet
    | with_reducible apply State.wgen_quiet
    | with_reducible apply State.writeRecord_quiet
    | split

theorem State.issueYield_quiet {nd : Node} {u : State} {s : State} {c : Nat} {x : Ctx} {k : BitVec 128} (hn : nd = .tsu) (hs : Quiet nd u s) : Quiet nd u ((State.issueYield (s) (c) (x) (k))) := by
  subst hn
  refine Quiet.trans hs ?_
  unfold State.issueYield
  repeat' first
    | with_reducible exact Quiet.refl _
    | with_reducible assumption
    | with_reducible rfl
    | (intro x; (refine Quiet.use (x := x.1) ?_ (fun hx => ?_); rotate_left; clear_value x; rotate_right; subst x))
    | lift_lets -underBinder
    | with_reducible apply State.ctxNext_quiet
    | with_reducible apply State.topnd_quiet
    | with_reducible apply State.updCtx_quiet
    | split

theorem State.issueAbort_quiet {nd : Node} {u : State} {s : State} {_c : Nat} {x : Ctx} {k : BitVec 128} (hn : nd = .tsu) (hs : Quiet nd u s) : Quiet nd u ((State.issueAbort (s) _c (x) (k))) := by
  subst hn
  refine Quiet.trans hs ?_
  unfold State.issueAbort
  repeat' first
    | with_reducible exact Quiet.refl _
    | with_reducible assumption
    | with_reducible rfl
    | (intro x; first | (refine Quiet.use (x := x) ?_ (fun hx => ?_); rotate_left; clear_value x; rotate_right; subst x) | clear_value x | skip)
    | lift_lets -underBinder
    | with_reducible apply Quiet.ite
    | with_reducible apply State.domainRequest_quiet
    | with_reducible apply State.order_quiet

theorem State.doVerb_quiet {nd : Node} {u : State} {s : State} {c : Nat} {x : Ctx} {k : BitVec 128} {i : Nat} (hn : nd = .tsu) (hs : Quiet nd u s) : Quiet nd u ((State.doVerb (s) (c) (x) (k) (i))) := by
  subst hn
  refine Quiet.trans hs ?_
  unfold State.doVerb
  repeat' first
    | with_reducible exact Quiet.refl _
    | with_reducible rfl
    | with_reducible apply State.branch_quiet
    | with_reducible apply State.ctxNext_quiet
    | with_reducible apply State.endClause_quiet
    | with_reducible apply State.issueAbort_quiet
    | with_reducible apply State.issueArrive_quiet
    | with_reducible apply State.issueWait_quiet
    | with_reducible apply State.issueYield_quiet
    | with_reducible apply State.markRecord_quiet
    | with_reducible apply State.stageLaunch_quiet
    | split

theorem State.runaway_quiet {nd : Node} {u : State} {s : State} {c : Nat} (hn : nd = .tsu) (hs : Quiet nd u s) : Quiet nd u ((State.runaway (s) (c))) := by
  subst hn
  refine Quiet.trans hs ?_
  unfold State.runaway
  repeat' first
    | with_reducible exact Quiet.refl _
    | with_reducible rfl
    | with_reducible apply Quiet.ite
    | with_reducible apply State.ctxHalt_quiet
    | with_reducible apply State.logT_quiet
    | split
    | intro x

theorem State.issue_quiet {nd : Node} {u : State} {s : State} {verb : Nat} (hn : nd = .tsu) (hs : Quiet nd u s) : Quiet nd u ((State.issue (s) (verb))) := by
  subst hn
  refine Quiet.trans hs ?_
  unfold State.issue
  repeat' first
    | with_reducible exact Quiet.refl _
    | with_reducible assumption
    | with_reducible rfl
    | (intro x; first | (refine Quiet.use (x := x) ?_ (fun hx => ?_); rotate_left; clear_value x; rotate_right; subst x) | skip)
    | lift_lets -underBinder
    | with_reducible apply Quiet.ite
    | with_reducible apply State.ctxBlock_quiet
    | with_reducible apply State.ctxHalt_quiet
    | with_reducible apply State.ctxNext_quiet
    | with_reducible apply State.doVerb_quiet
    | with_reducible apply State.logT_quiet
    | with_reducible apply State.runaway_quiet
    | with_reducible apply State.setEvt_quiet
    | with_reducible apply State.updCtx_quiet
    | ((with_reducible apply State.updTsu_quiet); rotate_left; focus (intro t; rfl))
    | split

theorem execClauseLaunch_quiet {nd : Node} {u : State} {s : State} (hn : nd = .tsu) (hs : Quiet nd u s) : Quiet nd u ((State.after (s) (execClauseLaunch (s)))) := by
  subst hn
  refine Quiet.trans hs ?_
  unfold execClauseLaunch
  rw [State.after_next]
  repeat' first
    | with_reducible exact Quiet.refl _
    | with_reducible rfl
    | with_reducible apply State.issue_quiet

theorem execClauseArrive_quiet {nd : Node} {u : State} {s : State} (hn : nd = .tsu) (hs : Quiet nd u s) : Quiet nd u ((State.after (s) (execClauseArrive (s)))) := by
  subst hn
  refine Quiet.trans hs ?_
  unfold execClauseArrive
  rw [State.after_next]
  repeat' first
    | with_reducible exact Quiet.refl _
    | with_reducible rfl
    | with_reducible apply State.issue_quiet

theorem execClauseWait_quiet {nd : Node} {u : State} {s : State} (hn : nd = .tsu) (hs : Quiet nd u s) : Quiet nd u ((State.after (s) (execClauseWait (s)))) := by
  subst hn
  refine Quiet.trans hs ?_
  unfold execClauseWait
  rw [State.after_next]
  repeat' first
    | with_reducible exact Quiet.refl _
    | with_reducible rfl
    | with_reducible apply State.issue_quiet

theorem execClauseReduce_quiet {nd : Node} {u : State} {s : State} (hn : nd = .tsu) (hs : Quiet nd u s) : Quiet nd u ((State.after (s) (execClauseReduce (s)))) := by
  subst hn
  refine Quiet.trans hs ?_
  unfold execClauseReduce
  rw [State.after_next]
  repeat' first
    | with_reducible exact Quiet.refl _
    | with_reducible rfl
    | with_reducible apply State.issue_quiet

theorem execClauseScan_quiet {nd : Node} {u : State} {s : State} (hn : nd = .tsu) (hs : Quiet nd u s) : Quiet nd u ((State.after (s) (execClauseScan (s)))) := by
  subst hn
  refine Quiet.trans hs ?_
  unfold execClauseScan
  rw [State.after_next]
  repeat' first
    | with_reducible exact Quiet.refl _
    | with_reducible rfl
    | with_reducible apply State.issue_quiet

theorem execClauseAlloc_quiet {nd : Node} {u : State} {s : State} (hn : nd = .tsu) (hs : Quiet nd u s) : Quiet nd u ((State.after (s) (execClauseAlloc (s)))) := by
  subst hn
  refine Quiet.trans hs ?_
  unfold execClauseAlloc
  rw [State.after_next]
  repeat' first
    | with_reducible exact Quiet.refl _
    | with_reducible rfl
    | with_reducible apply State.issue_quiet

theorem execClauseBranch_quiet {nd : Node} {u : State} {s : State} (hn : nd = .tsu) (hs : Quiet nd u s) : Quiet nd u ((State.after (s) (execClauseBranch (s)))) := by
  subst hn
  refine Quiet.trans hs ?_
  unfold execClauseBranch
  rw [State.after_next]
  repeat' first
    | with_reducible exact Quiet.refl _
    | with_reducible rfl
    | with_reducible apply State.issue_quiet

theorem execClauseMark_quiet {nd : Node} {u : State} {s : State} (hn : nd = .tsu) (hs : Quiet nd u s) : Quiet nd u ((State.after (s) (execClauseMark (s)))) := by
  subst hn
  refine Quiet.trans hs ?_
  unfold execClauseMark
  rw [State.after_next]
  repeat' first
    | with_reducible exact Quiet.refl _
    | with_reducible rfl
    | with_reducible apply State.issue_quiet

theorem execClauseYield_quiet {nd : Node} {u : State} {s : State} (hn : nd = .tsu) (hs : Quiet nd u s) : Quiet nd u ((State.after (s) (execClauseYield (s)))) := by
  subst hn
  refine Quiet.trans hs ?_
  unfold execClauseYield
  rw [State.after_next]
  repeat' first
    | with_reducible exact Quiet.refl _
    | with_reducible rfl
    | with_reducible apply State.issue_quiet

theorem execClauseAbort_quiet {nd : Node} {u : State} {s : State} (hn : nd = .tsu) (hs : Quiet nd u s) : Quiet nd u ((State.after (s) (execClauseAbort (s)))) := by
  subst hn
  refine Quiet.trans hs ?_
  unfold execClauseAbort
  rw [State.after_next]
  repeat' first
    | with_reducible exact Quiet.refl _
    | with_reducible rfl
    | with_reducible apply State.issue_quiet

theorem execClauseEnd_quiet {nd : Node} {u : State} {s : State} (hn : nd = .tsu) (hs : Quiet nd u s) : Quiet nd u ((State.after (s) (execClauseEnd (s)))) := by
  subst hn
  refine Quiet.trans hs ?_
  unfold execClauseEnd
  rw [State.after_next]
  repeat' first
    | with_reducible exact Quiet.refl _
    | with_reducible rfl
    | with_reducible apply State.issue_quiet

theorem execClauseRunaway_quiet {nd : Node} {u : State} {ctx : Nat} {s : State} (hn : nd = .tsu) (hs : Quiet nd u s) : Quiet nd u ((State.after (s) (execClauseRunaway (ctx) (s)))) := by
  subst hn
  refine Quiet.trans hs ?_
  unfold execClauseRunaway
  rw [State.after_next]
  repeat' first
    | with_reducible exact Quiet.refl _
    | with_reducible rfl
    | with_reducible apply State.runaway_quiet

theorem execStageResume_quiet {nd : Node} {u : State} {ctx : Nat} {s : State} (hn : nd = .tsu) (hs : Quiet nd u s) : Quiet nd u ((State.after (s) (execStageResume (ctx) (s)))) := by
  subst hn
  refine Quiet.trans hs ?_
  unfold execStageResume
  rw [State.after_next]
  repeat' first
    | with_reducible exact Quiet.refl _
    | with_reducible rfl
    | with_reducible apply State.restage_quiet

theorem execGrantRetry_quiet {nd : Node} {u : State} {resource : Nat} {s : State} (hn : nd = .tsu) (hs : Quiet nd u s) : Quiet nd u ((State.after (s) (execGrantRetry (resource) (s)))) := by
  subst hn
  refine Quiet.trans hs ?_
  unfold execGrantRetry
  rw [State.after_next]
  repeat' first
    | with_reducible exact Quiet.refl _
    | with_reducible rfl
    | with_reducible apply State.grantRetry_quiet

theorem State.missRecord_quiet {nd : Node} {u : State} {s : State} {n src : Nat} {code : ErrCode} (hn : nd = .tsu) (hs : Quiet nd u s) : Quiet nd u ((State.missRecord (s) (n) (src) (code))) := by
  subst hn
  refine Quiet.trans hs ?_
  unfold State.missRecord
  repeat' first
    | with_reducible exact Quiet.refl _
    | with_reducible rfl
    | with_reducible apply State.logT_quiet
    | with_reducible apply State.writeRecord_quiet

theorem State.deadlineMiss_quiet {nd : Node} {u : State} {s : State} {c : Nat} (hn : nd = .tsu) (hs : Quiet nd u s) : Quiet nd u ((State.deadlineMiss (s) (c))) := by
  subst hn
  refine Quiet.trans hs ?_
  unfold State.deadlineMiss
  repeat' first
    | with_reducible exact Quiet.refl _
    | with_reducible rfl
    | (intro x; first | clear_value x | skip)
    | lift_lets -underBinder
    | with_reducible apply Quiet.ite
    | with_reducible apply State.missRecord_quiet
    | with_reducible apply State.updCtx_quiet
    | split

theorem execDeadlineMiss_quiet {nd : Node} {u : State} {ctx : Nat} {s : State} (hn : nd = .tsu) (hs : Quiet nd u s) : Quiet nd u ((State.after (s) (execDeadlineMiss (ctx) (s)))) := by
  subst hn
  refine Quiet.trans hs ?_
  unfold execDeadlineMiss
  rw [State.after_next]
  repeat' first
    | with_reducible exact Quiet.refl _
    | with_reducible rfl
    | with_reducible apply State.deadlineMiss_quiet

theorem State.clauseTimeout_quiet {nd : Node} {u : State} {s : State} {c : Nat} (hn : nd = .tsu) (hs : Quiet nd u s) : Quiet nd u ((State.clauseTimeout (s) (c))) := by
  subst hn
  refine Quiet.trans hs ?_
  unfold State.clauseTimeout
  repeat' first
    | with_reducible exact Quiet.refl _
    | with_reducible rfl
    | (intro x; first | (have hf := funext (f := x) (g := x) (fun _ => rfl); clear hf; subst x) | clear_value x | skip)
    | lift_lets -underBinder
    | with_reducible apply Quiet.ite
    | with_reducible apply State.ctxWaitEnds_quiet
    | with_reducible apply State.updTumb_quiet
    | split

theorem execClauseTimeout_quiet {nd : Node} {u : State} {ctx : Nat} {s : State} (hn : nd = .tsu) (hs : Quiet nd u s) : Quiet nd u ((State.after (s) (execClauseTimeout (ctx) (s)))) := by
  subst hn
  refine Quiet.trans hs ?_
  unfold execClauseTimeout
  rw [State.after_next]
  repeat' first
    | with_reducible exact Quiet.refl _
    | with_reducible rfl
    | with_reducible apply State.clauseTimeout_quiet

theorem State.sleepEnd_quiet {nd : Node} {u : State} {s : State} {c : Nat} (hn : nd = .tsu) (hs : Quiet nd u s) : Quiet nd u ((State.sleepEnd (s) (c))) := by
  subst hn
  refine Quiet.trans hs ?_
  unfold State.sleepEnd
  repeat' first
    | with_reducible exact Quiet.refl _
    | with_reducible rfl
    | with_reducible apply Quiet.ite
    | with_reducible apply State.ctxNext_quiet
    | split
    | intro x

theorem execSleepEnd_quiet {nd : Node} {u : State} {ctx : Nat} {s : State} (hn : nd = .tsu) (hs : Quiet nd u s) : Quiet nd u ((State.after (s) (execSleepEnd (ctx) (s)))) := by
  subst hn
  refine Quiet.trans hs ?_
  unfold execSleepEnd
  rw [State.after_next]
  repeat' first
    | with_reducible exact Quiet.refl _
    | with_reducible rfl
    | with_reducible apply State.sleepEnd_quiet

theorem State.contextSwap_pick_quiet {u s : State} {c : Nat} {x : Ctx} {capped : Bool} {start : Option Nat → Nat → State}
    (k : ∀ v j, Quiet .tsu u (start v j)) (hs : Quiet .tsu u s) : Quiet .tsu u (State.contextSwap.pick s c x capped start) := by
  unfold State.contextSwap.pick
  simp only []
  split
  · exact k _ _
  · exact hs

theorem State.contextSwap_quiet {nd : Node} {u s : State} (hn : nd = .tsu) (hs : Quiet nd u s) : Quiet nd u s.contextSwap := by
  subst hn
  unfold State.contextSwap
  refine Quiet.ite (fun _ => hs) (fun _ => ?_)
  lift_lets -underBinder
  intro ready best
  clear_value best
  rcases best with _ | ⟨c, x⟩
  · exact hs
  · dsimp -zeta only
    lift_lets -underBinder
    intro capped free start
    have hk : ∀ v j, Quiet .tsu u (start v j) := by
      intro v j
      refine State.nwRead_quiet rfl (State.updTsu_quiet rfl (fun _ => rfl) ?_)
      split
      · exact State.sliceWrite_quiet rfl (State.updCtx_quiet rfl hs)
      · exact hs
    clear_value start free
    rcases free with _ | k
    rotate_left
    · exact Quiet.ite (fun _ => hk _ _) (fun _ => State.contextSwap_pick_quiet hk hs)
    · exact State.contextSwap_pick_quiet hk hs

theorem execContextSwap_quiet {nd : Node} {u : State} {s : State} (hn : nd = .tsu) (hs : Quiet nd u s) : Quiet nd u ((State.after (s) (execContextSwap (s)))) := by
  subst hn
  refine Quiet.trans hs ?_
  unfold execContextSwap
  rw [State.after_next]
  repeat' first
    | with_reducible exact Quiet.refl _
    | with_reducible rfl
    | with_reducible apply State.contextSwap_quiet

theorem State.swapDone_quiet {nd : Node} {u : State} {s : State} {ok : Bool} {ns : Nat} (hn : nd = .tsu) (hs : Quiet nd u s) : Quiet nd u ((State.swapDone (s) (ok) (ns))) := by
  subst hn
  refine Quiet.trans hs ?_
  unfold State.swapDone
  repeat' first
    | with_reducible exact Quiet.refl _
    | with_reducible assumption
    | with_reducible rfl
    | (intro x; first | (refine Quiet.use (x := x) ?_ (fun hx => ?_); rotate_left; clear_value x; rotate_right; subst x) | skip)
    | lift_lets -underBinder
    | with_reducible apply Quiet.ite
    | with_reducible apply State.ctxHalt_quiet
    | with_reducible apply State.logT_quiet
    | with_reducible apply State.updCtx_quiet
    | ((with_reducible apply State.updTsu_quiet); rotate_left; focus (intro t; rfl))
    | split

theorem execContextSwapDone_quiet {nd : Node} {u : State} {ok : Bool} {ns : Nat} {s : State} (hn : nd = .tsu) (hs : Quiet nd u s) : Quiet nd u ((State.after (s) (execContextSwapDone (ok) (ns) (s)))) := by
  subst hn
  refine Quiet.trans hs ?_
  unfold execContextSwapDone
  rw [State.after_next]
  repeat' first
    | with_reducible exact Quiet.refl _
    | with_reducible rfl
    | with_reducible apply State.swapDone_quiet

end Sys2Proof.Machine
end

