-- ==== Sys2Proof/Laws/ApartLaunch.lean ====
section
/-! SUPPORT. Which part the operations of `Sys2Proof.Machine.Launch` act at, and whether they leave its time alone. -/

namespace Sys2Proof.Machine

open Sys2Proof

set_option linter.unusedVariables false

theorem State.tsuLatencySend_quiet {nd : Node} {u : State} {s : State} {lane : Nat} (hn : nd = .tsu) (hs : Quiet nd u s) : Quiet nd u ((State.tsuLatencySend (s) (lane))) := by
  subst hn
  refine Quiet.trans hs ?_
  unfold State.tsuLatencySend
  repeat' first
    | with_reducible exact Quiet.refl _
    | with_reducible assumption
    | with_reducible rfl
    | (intro x; first | (refine Quiet.use (x := x) ?_ (fun hx => ?_); rotate_left; clear_value x; rotate_right; subst x) | clear_value x | skip)
    | lift_lets -underBinder
    | with_reducible apply Quiet.ite
    | with_reducible apply State.send_quiet
    | ((with_reducible apply State.updTsu_quiet); rotate_left; focus (intro t; rfl))

theorem State.launchAtSend_quiet {nd : Node} {u : State} {s : State} {id : Nat} (hn : nd = .tsu) (hs : Quiet nd u s) : Quiet nd u ((State.launchAtSend (s) (id))) := by
  subst hn
  refine Quiet.trans hs ?_
  unfold State.launchAtSend
  repeat' first
    | with_reducible exact Quiet.refl _
    | with_reducible assumption
    | with_reducible rfl
    | (intro x; first | (refine Quiet.use (x := x) ?_ (fun hx => ?_); rotate_left; clear_value x; rotate_right; subst x) | clear_value x | skip)
    | lift_lets -underBinder
    | with_reducible apply Quiet.ite
    | with_reducible apply State.busSend_quiet
    | with_reducible apply State.slotLost_quiet
    | with_reducible apply State.updArm_quiet
    | with_reducible apply Quiet.foldl
    | split

theorem execLaunchAtSend_quiet {nd : Node} {u : State} {arm : Nat} {s : State} (hn : nd = .tsu) (hs : Quiet nd u s) : Quiet nd u ((State.after (s) (execLaunchAtSend (arm) (s)))) := by
  subst hn
  refine Quiet.trans hs ?_
  unfold execLaunchAtSend
  rw [State.after_next]
  repeat' first
    | with_reducible exact Quiet.refl _
    | with_reducible rfl
    | with_reducible apply State.launchAtSend_quiet

theorem State.firedRecord_quiet {nd : Node} {u : State} {s : State} {p : Nat} {f : Fired} {code : ErrCode} {detail : Int} (hn : nd = .tsu) (hs : Quiet nd u s) : Quiet nd u ((State.firedRecord (s) (p) (f) (code) (detail))) := by
  subst hn
  refine Quiet.trans hs ?_
  unfold State.firedRecord
  repeat' first
    | with_reducible exact Quiet.refl _
    | with_reducible assumption
    | with_reducible rfl
    | (intro x; (refine Quiet.use (x := x) ?_ (fun hx => ?_); rotate_left; clear_value x; rotate_right; subst x))
    | lift_lets -underBinder
    | with_reducible apply State.logT_quiet
    | with_reducible apply State.noteCode_quiet
    | with_reducible apply State.writeRecord_quiet
    | split

theorem State.portTaken_quiet {nd : Node} {u : State} {s : State} {p : Nat} {f : Fired} (hn : nd = .tsu) (hs : Quiet nd u s) : Quiet nd u ((State.portTaken (s) (p) (f))) := by
  subst hn
  refine Quiet.trans hs ?_
  unfold State.portTaken
  repeat' first
    | with_reducible exact Quiet.refl _
    | with_reducible assumption
    | with_reducible rfl
    | (intro x; first | (refine Quiet.use (x := x) ?_ (fun hx => ?_); rotate_left; clear_value x; rotate_right; subst x) | skip)
    | lift_lets -underBinder
    | with_reducible apply Quiet.ite
    | with_reducible apply State.raiseAbort_quiet
    | with_reducible apply State.updPort_quiet
    | with_reducible apply State.updSlice_quiet

theorem State.portCapture_quiet {nd : Node} {u : State} {s : State} {p : Nat} {stamp : Int} {period : Nat} {ready : Bool} (hn : nd = .tsu) (hs : Quiet nd u s) : Quiet nd u ((State.portCapture (s) (p) (stamp) (period) (ready))) := by
  subst hn
  refine Quiet.trans hs ?_
  unfold State.portCapture
  repeat' first
    | with_reducible exact Quiet.refl _
    | with_reducible assumption
    | with_reducible rfl
    | (intro x; first | (refine Quiet.use (x := x) ?_ (fun hx => ?_); rotate_left; clear_value x; rotate_right; subst x) | clear_value x | skip)
    | lift_lets -underBinder
    | with_reducible apply Quiet.ite
    | with_reducible apply State.firedRecord_quiet
    | with_reducible apply State.portTaken_quiet
    | with_reducible apply State.updPort_quiet
    | split

theorem execPortCapture_quiet {nd : Node} {u : State} {port : Nat} {edge : CaptureEdge} {cmdReady : Bool} {s : State} (hn : nd = .tsu) (hs : Quiet nd u s) : Quiet nd u ((State.after (s) (execPortCapture (port) (edge) (cmdReady) (s)))) := by
  subst hn
  refine Quiet.trans hs ?_
  unfold execPortCapture
  rw [State.after_next]
  repeat' first
    | with_reducible exact Quiet.refl _
    | with_reducible rfl
    | with_reducible apply State.portCapture_quiet
    | with_reducible apply State.startsWaiting_quiet

theorem State.cmdTaken_quiet {nd : Node} {u : State} {s : State} {p : Nat} {stamp : Int} (hn : nd = .tsu) (hs : Quiet nd u s) : Quiet nd u ((State.cmdTaken (s) (p) (stamp))) := by
  subst hn
  refine Quiet.trans hs ?_
  unfold State.cmdTaken
  repeat' first
    | with_reducible exact Quiet.refl _
    | with_reducible rfl
    | (intro x; clear_value x)
    | lift_lets -underBinder
    | with_reducible apply State.firedRecord_quiet
    | with_reducible apply State.portTaken_quiet
    | with_reducible apply State.updPort_quiet
    | split

theorem execLpCmdTaken_quiet {nd : Node} {u : State} {port : Nat} {stamp : Int} {s : State} (hn : nd = .tsu) (hs : Quiet nd u s) : Quiet nd u ((State.after (s) (execLpCmdTaken (port) (stamp) (s)))) := by
  subst hn
  refine Quiet.trans hs ?_
  unfold execLpCmdTaken
  rw [State.after_next]
  repeat' first
    | with_reducible exact Quiet.refl _
    | with_reducible rfl
    | with_reducible apply State.cmdTaken_quiet
    | with_reducible apply State.startsWaiting_quiet

theorem State.sliceAbortGo_quiet {nd : Node} {u : State} {s : State} {w : Word} (hn : nd = .tsu) (hs : Quiet nd u s) : Quiet nd u ((State.sliceAbortGo (s) (w))) := by
  subst hn
  refine Quiet.trans hs ?_
  unfold State.sliceAbortGo
  repeat' first
    | with_reducible exact Quiet.refl _
    | with_reducible assumption
    | with_reducible rfl
    | (intro x; first | (refine Quiet.use (x := x) ?_ (fun hx => ?_); rotate_left; clear_value x; rotate_right; subst x) | skip)
    | lift_lets -underBinder
    | with_reducible apply Quiet.ite
    | with_reducible apply State.logT_quiet
    | with_reducible apply State.order_quiet
    | with_reducible apply State.setReg_quiet
    | ((with_reducible apply State.updTsu_quiet); rotate_left; focus (intro t; rfl))

theorem execSliceAbortGo_quiet {nd : Node} {u : State} {w : Word} {s : State} (hn : nd = .tsu) (hs : Quiet nd u s) : Quiet nd u ((State.after (s) (execSliceAbortGo (w) (s)))) := by
  subst hn
  refine Quiet.trans hs ?_
  unfold execSliceAbortGo
  rw [State.after_next]
  repeat' first
    | with_reducible exact Quiet.refl _
    | with_reducible rfl
    | with_reducible apply State.sliceAbortGo_quiet

theorem State.tsuAbortRx_quiet {nd : Node} {u : State} {s : State} {l : LinkId} {f : Frame} (h_l : l.node = nd) (hn : nd = .tsu) (hs : Quiet nd u s) : Quiet nd u ((State.tsuAbortRx (s) (l) (f))) := by
  subst hn
  refine Quiet.trans hs ?_
  unfold State.tsuAbortRx
  repeat' first
    | with_reducible exact Quiet.refl _
    | with_reducible assumption
    | with_reducible rfl
    | (intro x; first | clear_value x | skip)
    | lift_lets -underBinder
    | with_reducible apply Quiet.ite
    | with_reducible apply State.logT_quiet
    | with_reducible apply State.malformed_quiet
    | with_reducible apply State.order_quiet
    | split

theorem State.tsuOrderRx_quiet {nd : Node} {u : State} {s : State} {l : LinkId} {f : Frame} (h_l : l.node = nd) (hn : nd = .tsu) (hs : Quiet nd u s) : Quiet nd u ((State.tsuOrderRx (s) (l) (f))) := by
  subst hn
  refine Quiet.trans hs ?_
  unfold State.tsuOrderRx
  repeat' first
    | with_reducible exact Quiet.refl _
    | with_reducible assumption
    | with_reducible rfl
    | (intro x; first | clear_value x | skip)
    | lift_lets -underBinder
    | with_reducible apply Quiet.ite
    | with_reducible apply State.logT_quiet
    | with_reducible apply State.malformed_quiet
    | with_reducible apply State.order_quiet
    | split

theorem State.portAcked_quiet {nd : Node} {u : State} {s : State} {p n : Nat} (hn : nd = .tsu) (hs : Quiet nd u s) : Quiet nd u ((State.portAcked (s) (p) (n))) := by
  subst hn
  refine Quiet.trans hs ?_
  unfold State.portAcked
  repeat' first
    | with_reducible exact Quiet.refl _
    | with_reducible assumption
    | with_reducible rfl
    | (intro x; first | (refine Quiet.use (x := x) ?_ (fun hx => ?_); rotate_left; clear_value x; rotate_right; subst x) | clear_value x)
    | lift_lets -underBinder
    | with_reducible apply State.abortCheck_quiet
    | with_reducible apply State.updPort_quiet
    | with_reducible apply State.updSlice_quiet

theorem execLpAbortAck_quiet {nd : Node} {u : State} {port : Nat} {s : State} (hn : nd = .tsu) (hs : Quiet nd u s) : Quiet nd u ((State.after (s) (execLpAbortAck (port) (s)))) := by
  subst hn
  refine Quiet.trans hs ?_
  unfold execLpAbortAck
  rw [State.after_next]
  repeat' first
    | with_reducible exact Quiet.refl _
    | with_reducible rfl
    | with_reducible apply State.portAcked_quiet
    | split

theorem State.engAbortLimit_quiet {nd : Node} {u : State} {s : State} {p : Nat} (hn : nd = .tsu) (hs : Quiet nd u s) : Quiet nd u ((State.engAbortLimit (s) (p))) := by
  subst hn
  refine Quiet.trans hs ?_
  unfold State.engAbortLimit
  repeat' first
    | with_reducible exact Quiet.refl _
    | with_reducible assumption
    | with_reducible rfl
    | (intro x; first | (refine Quiet.use (x := x) ?_ (fun hx => ?_); rotate_left; clear_value x; rotate_right; subst x) | clear_value x | skip)
    | lift_lets -underBinder
    | with_reducible apply Quiet.ite
    | with_reducible apply State.abortCheck_quiet
    | with_reducible apply State.healthSend_quiet
    | with_reducible apply State.logT_quiet
    | with_reducible apply State.portReset_quiet
    | with_reducible apply State.updSlice_quiet
    | with_reducible apply Quiet.foldl
    | split

theorem execEngAbortLimitExpiry_quiet {nd : Node} {u : State} {port : Nat} {s : State} (hn : nd = .tsu) (hs : Quiet nd u s) : Quiet nd u ((State.after (s) (execEngAbortLimitExpiry (port) (s)))) := by
  subst hn
  refine Quiet.trans hs ?_
  unfold execEngAbortLimitExpiry
  rw [State.after_next]
  repeat' first
    | with_reducible exact Quiet.refl _
    | with_reducible rfl
    | with_reducible apply State.engAbortLimit_quiet

theorem execMarginClear_quiet {nd : Node} {u : State} {s : State} (hn : nd = .tsu) (hs : Quiet nd u s) : Quiet nd u ((State.after (s) (execMarginClear (s)))) := by
  subst hn
  refine Quiet.trans hs ?_
  unfold execMarginClear
  rw [State.after_next]
  repeat' first
    | with_reducible exact Quiet.refl _
    | with_reducible rfl
    | ((with_reducible apply State.updTsu_quiet); rotate_left; focus (intro t; rfl))

theorem State.headerAck_quiet {nd : Node} {u : State} {s : State} {n : Nat} (hn : nd = .tsu) (hs : Quiet nd u s) : Quiet nd u ((State.headerAck (s) (n))) := by
  subst hn
  refine Quiet.trans hs ?_
  unfold State.headerAck
  repeat' first
    | with_reducible exact Quiet.refl _
    | with_reducible assumption
    | with_reducible rfl
    | (intro x; first | (refine Quiet.use (x := x) ?_ (fun hx => ?_); rotate_left; clear_value x; rotate_right; subst x) | clear_value x | skip)
    | lift_lets -underBinder
    | with_reducible apply Quiet.ite
    | with_reducible apply State.dropArm_quiet
    | with_reducible apply State.logT_quiet
    | with_reducible apply State.updArm_quiet
    | with_reducible apply State.updSlice_quiet
    | with_reducible apply Quiet.foldl

theorem execListHeaderAck_quiet {nd : Node} {u : State} {slice : Nat} {s : State} (hn : nd = .tsu) (hs : Quiet nd u s) : Quiet nd u ((State.after (s) (execListHeaderAck (slice) (s)))) := by
  subst hn
  refine Quiet.trans hs ?_
  unfold execListHeaderAck
  rw [State.after_next]
  repeat' first
    | with_reducible exact Quiet.refl _
    | with_reducible rfl
    | with_reducible apply State.headerAck_quiet

theorem State.writeAck_quiet {nd : Node} {u : State} {s : State} {error : Bool} (hn : nd = .tsu) (hs : Quiet nd u s) : Quiet nd u ((State.writeAck (s) (error))) := by
  subst hn
  refine Quiet.trans hs ?_
  unfold State.writeAck
  repeat' first
    | with_reducible exact Quiet.refl _
    | with_reducible assumption
    | with_reducible rfl
    | (intro x; first | (refine Quiet.use (x := x) ?_ (fun hx => ?_); rotate_left; clear_value x; rotate_right; subst x) | skip)
    | lift_lets -underBinder
    | with_reducible apply Quiet.ite
    | with_reducible apply State.ctxHalt_quiet
    | with_reducible apply State.ctxNext_quiet
    | with_reducible apply State.headerAck_quiet
    | with_reducible apply State.logT_quiet
    | with_reducible apply State.ringVector_quiet
    | with_reducible apply State.setEvt_quiet
    | with_reducible apply State.updSlice_quiet
    | ((with_reducible apply State.updTsu_quiet); rotate_left; focus (intro t; rfl))
    | split

theorem execNwWriteAck_quiet {nd : Node} {u : State} {error : Bool} {s : State} (hn : nd = .tsu) (hs : Quiet nd u s) : Quiet nd u ((State.after (s) (execNwWriteAck (error) (s)))) := by
  subst hn
  refine Quiet.trans hs ?_
  unfold execNwWriteAck
  rw [State.after_next]
  repeat' first
    | with_reducible exact Quiet.refl _
    | with_reducible rfl
    | with_reducible apply State.writeAck_quiet

end Sys2Proof.Machine
end

