-- ==== Sys2Proof/Laws/ApartImages.lean ====
section
/-! SUPPORT. Which part the operations of `Sys2Proof.Machine.Images` act at, and whether they leave its time alone. -/

namespace Sys2Proof.Machine

open Sys2Proof

set_option linter.unusedVariables false

theorem State.tsuRefuse_quiet {nd : Node} {u : State} {s : State} {slice : Option Nat} {r : Refused} (hn : nd = .tsu) (hs : Quiet nd u s) : Quiet nd u ((State.tsuRefuse (s) (slice) (r))) := by
  subst hn
  refine Quiet.trans hs ?_
  unfold State.tsuRefuse
  repeat' first
    | with_reducible exact Quiet.refl _
    | with_reducible assumption
    | with_reducible rfl
    | (intro x; (refine Quiet.use (x := x) ?_ (fun hx => ?_); rotate_left; clear_value x; rotate_right; subst x))
    | lift_lets -underBinder
    | with_reducible apply State.logT_quiet
    | with_reducible apply State.updSlice_quiet
    | ((with_reducible apply State.updTsu_quiet); rotate_left; focus (intro t; rfl))
    | split

theorem State.schedLoaded_quiet {nd : Node} {u : State} {s : State} {n : Nat} {b : List Byte} {received : Nat} {inBand : Bool} (hn : nd = .tsu) (hs : Quiet nd u s) : Quiet nd u ((State.schedLoaded (s) (n) (b) (received) (inBand))) := by
  subst hn
  refine Quiet.trans hs ?_
  unfold State.schedLoaded
  repeat' first
    | with_reducible exact Quiet.refl _
    | with_reducible assumption
    | with_reducible rfl
    | (intro x; first | (refine Quiet.use (x := x) ?_ (fun hx => ?_); rotate_left; clear_value x; rotate_right; subst x) | skip)
    | lift_lets -underBinder
    | with_reducible apply Quiet.ite
    | with_reducible apply State.logT_quiet
    | with_reducible apply State.tsuRefuse_quiet
    | with_reducible apply State.updSlice_quiet
    | split

theorem State.imageLoad_quiet {nd : Node} {u : State} {s : State} {n : Nat} (hn : nd = .tsu) (hs : Quiet nd u s) : Quiet nd u ((State.imageLoad (s) (n))) := by
  subst hn
  refine Quiet.trans hs ?_
  unfold State.imageLoad
  repeat' first
    | with_reducible exact Quiet.refl _
    | with_reducible rfl
    | (intro x; first | clear_value x | skip)
    | lift_lets -underBinder
    | with_reducible apply Quiet.ite
    | with_reducible apply State.nwRead_quiet
    | with_reducible apply State.spGuard_quiet
    | with_reducible apply State.tsuRefuse_quiet
    | with_reducible apply State.updSlice_quiet

theorem execImageLoad_quiet {nd : Node} {u : State} {slice : Nat} {s : State} (hn : nd = .tsu) (hs : Quiet nd u s) : Quiet nd u ((State.after (s) (execImageLoad (slice) (s)))) := by
  subst hn
  refine Quiet.trans hs ?_
  unfold execImageLoad
  rw [State.after_next]
  repeat' first
    | with_reducible exact Quiet.refl _
    | with_reducible rfl
    | with_reducible apply State.imageLoad_quiet

theorem State.imageUnload_quiet {nd : Node} {u : State} {s : State} {n : Nat} (hn : nd = .tsu) (hs : Quiet nd u s) : Quiet nd u ((State.imageUnload (s) (n))) := by
  subst hn
  refine Quiet.trans hs ?_
  unfold State.imageUnload
  repeat' first
    | with_reducible exact Quiet.refl _
    | with_reducible rfl
    | intro x
    | lift_lets -underBinder
    | with_reducible apply Quiet.ite
    | with_reducible apply State.spGuard_quiet
    | with_reducible apply State.tsuRefuse_quiet
    | with_reducible apply State.updSlice_quiet

theorem execImageUnload_quiet {nd : Node} {u : State} {slice : Nat} {s : State} (hn : nd = .tsu) (hs : Quiet nd u s) : Quiet nd u ((State.after (s) (execImageUnload (slice) (s)))) := by
  subst hn
  refine Quiet.trans hs ?_
  unfold execImageUnload
  rw [State.after_next]
  repeat' first
    | with_reducible exact Quiet.refl _
    | with_reducible rfl
    | with_reducible apply State.imageUnload_quiet

theorem State.dropContexts_quiet {nd : Node} {u : State} {s : State} {n : Nat} (hn : nd = .tsu) (hs : Quiet nd u s) : Quiet nd u ((State.dropContexts (s) (n))) := by
  subst hn
  refine Quiet.trans hs ?_
  unfold State.dropContexts
  repeat' first
    | with_reducible exact Quiet.refl _
    | with_reducible rfl
    | ((with_reducible apply State.updTsu_quiet); rotate_left; focus (intro t; rfl))

theorem State.imageSwitch_quiet {nd : Node} {u : State} {s : State} {n : Nat} {m : Option SchedImage} (hn : nd = .tsu) (hs : Quiet nd u s) : Quiet nd u ((State.imageSwitch (s) (n) (m))) := by
  subst hn
  refine Quiet.trans hs ?_
  unfold State.imageSwitch
  repeat' first
    | with_reducible exact Quiet.refl _
    | with_reducible assumption
    | with_reducible rfl
    | (intro x; first | (refine Quiet.use (x := x) ?_ (fun hx => ?_); rotate_left; clear_value x; rotate_right; subst x) | skip)
    | lift_lets -underBinder
    | with_reducible apply Quiet.ite
    | with_reducible apply State.closeTumb_quiet
    | with_reducible apply State.createTumb_quiet
    | with_reducible apply State.dropContexts_quiet
    | with_reducible apply State.logT_quiet
    | with_reducible apply State.startCtx_quiet
    | with_reducible apply State.updSlice_quiet
    | with_reducible apply State.updTumb_quiet
    | with_reducible apply Quiet.foldl
    | split

theorem execScheduleImageCurrent_quiet {nd : Node} {u : State} {slice : Nat} {s : State} (hn : nd = .tsu) (hs : Quiet nd u s) : Quiet nd u ((State.after (s) (execScheduleImageCurrent (slice) (s)))) := by
  subst hn
  refine Quiet.trans hs ?_
  unfold execScheduleImageCurrent
  rw [State.after_next]
  repeat' first
    | with_reducible exact Quiet.refl _
    | with_reducible rfl
    | with_reducible apply Quiet.ite
    | with_reducible apply State.imageSwitch_quiet
    | split
    | intro x

theorem State.readResponse_quiet {nd : Node} {u : State} {s : State} {data : List Byte} {error : Bool} (hn : nd = .tsu) (hs : Quiet nd u s) : Quiet nd u ((State.readResponse (s) (data) (error))) := by
  subst hn
  refine Quiet.trans hs ?_
  unfold State.readResponse
  repeat' first
    | with_reducible exact Quiet.refl _
    | with_reducible assumption
    | with_reducible rfl
    | (intro x; first | (refine Quiet.use (x := x) ?_ (fun hx => ?_); rotate_left; clear_value x; rotate_right; subst x) | skip)
    | lift_lets -underBinder
    | with_reducible apply Quiet.ite
    | with_reducible apply State.ctxArrive_quiet
    | with_reducible apply State.ctxNext_quiet
    | with_reducible apply State.logT_quiet
    | with_reducible apply State.schedLoaded_quiet
    | with_reducible apply State.softArrive_quiet
    | with_reducible apply State.spCode_quiet
    | with_reducible apply State.tsuRefuse_quiet
    | with_reducible apply State.updSlice_quiet
    | with_reducible apply State.waitRecord_quiet
    | ((with_reducible apply State.updTsu_quiet); rotate_left; focus (intro t; rfl))
    | split

theorem execNwReadResponse_quiet {nd : Node} {u : State} {data : List Byte} {error : Bool} {s : State} (hn : nd = .tsu) (hs : Quiet nd u s) : Quiet nd u ((State.after (s) (execNwReadResponse (data) (error) (s)))) := by
  subst hn
  refine Quiet.trans hs ?_
  unfold execNwReadResponse
  rw [State.after_next]
  repeat' first
    | with_reducible exact Quiet.refl _
    | with_reducible rfl
    | with_reducible apply State.readResponse_quiet

end Sys2Proof.Machine
end

