-- ==== Sys2Proof/Laws/ApartRefOps.lean ====
section
/-! SUPPORT. Which part the operations of `Sys2Proof.Machine.RefOps` act at, and whether they leave its time alone. -/

namespace Sys2Proof.Machine

open Sys2Proof

set_option linter.unusedVariables false

theorem State.refStateUpdate_quiet {nd : Node} {u : State} {s : State} {oldT oldF : Option Nat} (hn : nd = .gd) (hs : Quiet nd u s) : Quiet nd u ((State.refStateUpdate (s) (oldT) (oldF))) := by
  subst hn
  refine Quiet.trans hs ?_
  unfold State.refStateUpdate
  repeat' first
    | with_reducible exact Quiet.refl _
    | with_reducible assumption
    | with_reducible rfl
    | (intro x; first | (refine Quiet.use (x := x) ?_ (fun hx => ?_); rotate_left; clear_value x; rotate_right; subst x) | clear_value x | skip)
    | lift_lets -underBinder
    | with_reducible apply Quiet.ite
    | with_reducible apply State.logG_quiet
    | with_reducible apply State.updRef_quiet
    | with_reducible apply State.updRefSrc_quiet
    | split

theorem State.refSelect_quiet {nd : Node} {u : State} {s : State} (hn : nd = .gd) (hs : Quiet nd u s) : Quiet nd u ((State.refSelect (s))) := by
  subst hn
  refine Quiet.trans hs ?_
  unfold State.refSelect
  repeat' first
    | with_reducible exact Quiet.refl _
    | with_reducible assumption
    | with_reducible rfl
    | (intro x; first | (refine Quiet.use (x := x) ?_ (fun hx => ?_); rotate_left; clear_value x; rotate_right; subst x) | clear_value x)
    | lift_lets -underBinder
    | with_reducible apply State.refStateUpdate_quiet
    | with_reducible apply State.updRef_quiet

theorem State.becomeRoot_apart {nd : Node} {u : State} {s : State} (hn : nd = .gd) (hs : Apart nd u s) : Apart nd u ((State.becomeRoot (s))) := by
  subst hn
  refine Apart.trans hs ?_
  unfold State.becomeRoot
  repeat' first
    | with_reducible exact Apart.refl _
    | with_reducible assumption
    | with_reducible rfl
    | (intro x; (refine Apart.use (x := x) ?_ (fun hx => ?_); rotate_left; clear_value x; rotate_right; subst x))
    | lift_lets -underBinder
    | with_reducible apply Apart.step (State.refSelect_quiet ?_ (Quiet.refl _))
    | with_reducible apply State.updTimeQ_apart
    | with_reducible apply State.updRef_apart

theorem State.takeOver_apart {nd : Node} {u : State} {s : State} (hn : nd = .gd) (hs : Apart nd u s) : Apart nd u ((State.takeOver (s))) := by
  subst hn
  refine Apart.trans hs ?_
  unfold State.takeOver
  repeat' first
    | with_reducible exact Apart.refl _
    | with_reducible rfl
    | lift_lets -underBinder
    | with_reducible apply State.becomeRoot_apart
    | with_reducible apply Apart.step (State.logG_quiet ?_ (Quiet.refl _))
    | with_reducible apply State.updGd_apart

theorem State.refFault_quiet {nd : Node} {u : State} {s : State} {src : Nat} {bit : Word} (hn : nd = .gd) (hs : Quiet nd u s) : Quiet nd u ((State.refFault (s) (src) (bit))) := by
  subst hn
  refine Quiet.trans hs ?_
  unfold State.refFault
  repeat' first
    | with_reducible exact Quiet.refl _
    | with_reducible assumption
    | with_reducible rfl
    | (intro x; first | (refine Quiet.use (x := x) ?_ (fun hx => ?_); rotate_left; clear_value x; rotate_right; subst x) | clear_value x | skip)
    | lift_lets -underBinder
    | with_reducible apply Quiet.ite
    | with_reducible apply State.logG_quiet
    | with_reducible apply State.refSelect_quiet
    | with_reducible apply State.setEvt_quiet
    | with_reducible apply State.updRefSrc_quiet

theorem State.refGood_quiet {nd : Node} {u : State} {s : State} {src : Nat} (hn : nd = .gd) (hs : Quiet nd u s) : Quiet nd u ((State.refGood (s) (src))) := by
  subst hn
  refine Quiet.trans hs ?_
  unfold State.refGood
  repeat' first
    | with_reducible exact Quiet.refl _
    | with_reducible rfl
    | (intro x; clear_value x)
    | lift_lets -underBinder
    | with_reducible apply State.updRefSrc_quiet

theorem State.refPresence_quiet {nd : Node} {u : State} {s : State} {src : Nat} (hn : nd = .gd) (hs : Quiet nd u s) : Quiet nd u ((State.refPresence (s) (src))) := by
  subst hn
  refine Quiet.trans hs ?_
  unfold State.refPresence
  repeat' first
    | with_reducible exact Quiet.refl _
    | with_reducible rfl
    | (intro x; clear_value x)
    | lift_lets -underBinder
    | with_reducible apply State.updRefSrc_quiet

theorem State.refsConfig_quiet {nd : Node} {u : State} {s : State} (hn : nd = .gd) (hs : Quiet nd u s) : Quiet nd u ((State.refsConfig (s))) := by
  subst hn
  refine Quiet.trans hs ?_
  unfold State.refsConfig
  repeat' first
    | with_reducible exact Quiet.refl _
    | with_reducible rfl
    | intro x
    | lift_lets -underBinder
    | with_reducible apply State.refPresence_quiet
    | with_reducible apply State.refSelect_quiet
    | with_reducible apply Quiet.foldl

theorem State.noteRate_quiet {nd : Node} {u : State} {s : State} {src : Nat} {dev : Int} (hn : nd = .gd) (hs : Quiet nd u s) : Quiet nd u ((State.noteRate (s) (src) (dev))) := by
  subst hn
  refine Quiet.trans hs ?_
  unfold State.noteRate
  repeat' first
    | with_reducible exact Quiet.refl _
    | with_reducible assumption
    | with_reducible rfl
    | (intro x; first | (refine Quiet.use (x := x) ?_ (fun hx => ?_); rotate_left; clear_value x; rotate_right; subst x) | clear_value x | skip)
    | lift_lets -underBinder
    | with_reducible apply Quiet.ite
    | with_reducible apply State.updRef_quiet
    | with_reducible apply State.updRefSrc_quiet

theorem State.outputsTick_quiet {nd : Node} {u : State} {s : State} {before : Int} (hn : nd = .gd) (hs : Quiet nd u s) : Quiet nd u ((State.outputsTick (s) (before))) := by
  subst hn
  refine Quiet.trans hs ?_
  unfold State.outputsTick
  repeat' first
    | with_reducible exact Quiet.refl _
    | with_reducible rfl
    | (intro x; first | (have hf := funext (f := x) (g := x) (fun _ => rfl); clear hf; subst x) | clear_value x)
    | lift_lets -underBinder
    | ((with_reducible apply State.updGd_quiet); rotate_left; focus (intro t; rfl))

theorem State.outputsAlign_quiet {nd : Node} {u : State} {s : State} {realign : Bool} (hn : nd = .gd) (hs : Quiet nd u s) : Quiet nd u ((State.outputsAlign (s) (realign))) := by
  subst hn
  refine Quiet.trans hs ?_
  unfold State.outputsAlign
  repeat' first
    | with_reducible exact Quiet.refl _
    | with_reducible assumption
    | with_reducible rfl
    | (intro x; (refine Quiet.use (x := x) ?_ (fun hx => ?_); rotate_left; clear_value x; rotate_right; subst x))
    | lift_lets -underBinder
    | ((with_reducible apply State.updGd_quiet); rotate_left; focus (intro t; rfl))

end Sys2Proof.Machine
end

