-- ==== Sys2Proof/Laws/ApartTimeTransfer.lean ====
section
/-! SUPPORT. Which part the operations of `Sys2Proof.Machine.TimeTransfer` act at, and whether they leave its time alone. -/

namespace Sys2Proof.Machine

open Sys2Proof

set_option linter.unusedVariables false

theorem State.timeFrameSend_apart {nd : Node} {u : State} {s : State} {l : LinkId} {stamp : Int} (h_l : l.node = nd) (hs : Apart nd u s) : Apart nd u ((State.timeFrameSend (s) (l) (stamp))) := by
  refine Apart.trans hs ?_
  unfold State.timeFrameSend
  repeat' first
    | with_reducible exact Apart.refl _
    | with_reducible assumption
    | (intro x; first | (refine Apart.use (x := x) ?_ (fun hx => ?_); rotate_left; clear_value x; rotate_right; subst x) | clear_value x | skip)
    | lift_lets -underBinder
    | with_reducible apply Apart.ite
    | with_reducible apply Apart.step (State.addTokens_quiet ?_ (Quiet.refl _))
    | with_reducible apply State.updTime_apart
    | with_reducible apply State.updLink_apart
    | with_reducible apply State.updSrc_apart

theorem execTimeFrameSend_apart {nd : Node} {u : State} {l : LinkId} {stamp : Int} {s : State} (h_l : l.node = nd) (hs : Apart nd u s) : Apart nd u ((State.after (s) (execTimeFrameSend (l) (stamp) (s)))) := by
  refine Apart.trans hs ?_
  unfold execTimeFrameSend
  rw [State.after_next]
  repeat' first
    | with_reducible exact Apart.refl _
    | with_reducible assumption
    | with_reducible apply State.timeFrameSend_apart

theorem State.firstLock_apart {nd : Node} {u : State} {s : State} {l : LinkId} {theta : Int} (h_l : l.node = nd) (hs : Apart nd u s) : Apart nd u ((State.firstLock (s) (l) (theta))) := by
  refine Apart.trans hs ?_
  unfold State.firstLock
  repeat' first
    | with_reducible exact Apart.refl _
    | with_reducible assumption
    | (with_reducible refine (?_ : (_ : Node) = _); first | rfl | assumption | (simp_all only []; done) | (simp_all; done) | (cases nd <;> simp_all; done))
    | (intro x; first | (refine Apart.use (x := x) ?_ (fun hx => ?_); rotate_left; clear_value x; rotate_right; subst x) | (have hf : (x : Node) = x := rfl; clear hf; subst x) | clear_value x | skip)
    | lift_lets -underBinder
    | with_reducible apply Apart.ite
    | with_reducible apply State.becomeRoot_apart
    | with_reducible apply Apart.step (State.healthSendEv_quiet ?_ (Quiet.refl _))
    | with_reducible apply State.stepCounter_apart
    | with_reducible apply State.updTimeQ_apart
    | with_reducible apply State.updRef_apart

theorem State.servoUpdate_apart {nd : Node} {u : State} {s : State} {l : LinkId} {theta : Int} (h_l : l.node = nd) (hs : Apart nd u s) : Apart nd u ((State.servoUpdate (s) (l) (theta))) := by
  refine Apart.trans hs ?_
  unfold State.servoUpdate
  repeat' first
    | with_reducible exact Apart.refl _
    | with_reducible assumption
    | (intro x; first | (refine Apart.use (x := x) ?_ (fun hx => ?_); rotate_left; clear_value x; rotate_right; subst x) | (have hf : (x : Node) = x := rfl; clear hf; subst x))
    | lift_lets -underBinder
    | with_reducible apply State.takeOffset_apart
    | with_reducible apply State.updTime_apart

theorem State.selectedExchange_apart {nd : Node} {u : State} {s : State} {l : LinkId} {theta : Int} (h_l : l.node = nd) (hs : Apart nd u s) : Apart nd u ((State.selectedExchange (s) (l) (theta))) := by
  refine Apart.trans hs ?_
  unfold State.selectedExchange
  repeat' first
    | with_reducible exact Apart.refl _
    | with_reducible assumption
    | with_reducible apply Apart.ite
    | with_reducible apply State.firstLock_apart
    | with_reducible apply State.servoUpdate_apart
    | split
    | intro x

theorem State.rootSplit_apart {nd : Node} {u s : State} {l : LinkId} {f : Frame} (h_l : l.node = nd) (hs : Apart nd u s) :
    Apart nd u (s.rootSplit l f) := by
  unfold State.rootSplit
  refine Apart.ite (fun hc => ?_) (fun _ => hs)
  obtain rfl : nd = .gd := h_l.symm.trans hc.1
  refine State.selectSource_apart rfl ?_
  have h : Apart .gd u (s.updRef fun r => { r with isRoot := false, elected := false, rstate := .follow, hold := none }) :=
    State.updRef_apart rfl hs
  exact Apart.ite (fun _ => Apart.step (State.logG_quiet rfl (State.setEvt_quiet rfl (.refl _))) h) (fun _ => h)

theorem State.loopback_node {s : State} {l : LinkId} {f : Frame} (h : s.loopback l f = true) : l.node = .gd := by
  simp only [State.loopback, Bool.and_eq_true, decide_eq_true_eq] at h
  exact h.1.1.1.1.1

theorem State.rootTakeover_apart {nd : Node} {u : State} {s : State} (hn : nd = .gd) (hs : Apart nd u s) : Apart nd u ((State.rootTakeover (s))) := by
  subst hn
  refine Apart.trans hs ?_
  unfold State.rootTakeover
  repeat' first
    | with_reducible exact Apart.refl _
    | with_reducible rfl
    | with_reducible apply State.takeOver_apart

theorem State.takeInfo_apart {nd : Node} {u : State} {s : State} {n : Node} {i : TimeInfo} {q : Quality} (h_n : n = nd) (hs : Apart nd u s) : Apart nd u ((State.takeInfo (s) (n) (i) (q))) := by
  refine Apart.trans hs ?_
  unfold State.takeInfo
  repeat' first
    | with_reducible exact Apart.refl _
    | with_reducible assumption
    | (with_reducible refine (?_ : (_ : Node) = _); first | rfl | assumption | (simp_all only []; done) | (simp_all; done) | (cases nd <;> simp_all; done))
    | (intro x; first | (refine Apart.use (x := x) ?_ (fun hx => ?_); rotate_left; clear_value x; rotate_right; subst x) | clear_value x)
    | lift_lets -underBinder
    | with_reducible apply State.judgeSender_apart
    | with_reducible apply Apart.step (State.noteTrace_quiet ?_ (Quiet.refl _))
    | with_reducible apply State.updTime_apart
    | split

theorem State.timeFrameTake_apart {nd : Node} {u : State} {s : State} {l : LinkId} {f : Frame} {stamp : Int} {up : Bool} (h_l : l.node = nd) (hs : Apart nd u s) : Apart nd u ((State.timeFrameTake (s) (l) (f) (stamp) (up))) := by
  refine Apart.trans hs ?_
  unfold State.timeFrameTake
  repeat' first
    | with_reducible exact Apart.refl _
    | with_reducible assumption
    | (with_reducible refine (?_ : (_ : Node) = _); first | rfl | assumption | (simp_all only []; done) | (simp_all; done) | (cases nd <;> simp_all; done))
    | exact h_l.symm.trans (State.loopback_node (by assumption))
    | (intro x; first | (refine Apart.use (x := x) ?_ (fun hx => ?_); rotate_left; clear_value x; rotate_right; subst x) | (have hf : (x : Node) = x := rfl; clear hf; subst x) | clear_value x | skip)
    | lift_lets -underBinder
    | with_reducible apply Apart.ite
    | with_reducible apply State.rootSplit_apart
    | with_reducible apply State.rootTakeover_apart
    | with_reducible apply State.selectSource_apart
    | with_reducible apply State.selectedExchange_apart
    | with_reducible apply State.takeInfo_apart
    | with_reducible apply State.timeDomainReset_apart
    | with_reducible apply State.updGd_apart
    | with_reducible apply State.updSrc_apart
    | split

theorem State.timeFrameRx_apart {nd : Node} {u : State} {s : State} {l : LinkId} {rx : Rx} {stamp : Int} (h_l : l.node = nd) (hs : Apart nd u s) : Apart nd u ((State.timeFrameRx (s) (l) (rx) (stamp))) := by
  refine Apart.trans hs ?_
  unfold State.timeFrameRx
  repeat' first
    | with_reducible exact Apart.refl _
    | with_reducible assumption
    | (intro x; first | (refine Apart.use (x := x) ?_ (fun hx => ?_); rotate_left; clear_value x; rotate_right; subst x) | skip)
    | lift_lets -underBinder
    | with_reducible apply Apart.ite
    | with_reducible apply State.identUp_apart
    | with_reducible apply Apart.step (State.log_quiet ?_ (Quiet.refl _))
    | with_reducible apply Apart.step (State.malformed_quiet ?_ (Quiet.refl _))
    | with_reducible apply Apart.step (State.poisonSlot_quiet ?_ (Quiet.refl _))
    | with_reducible apply Apart.step (State.slotTaken_quiet ?_ (Quiet.refl _))
    | with_reducible apply State.timeFrameTake_apart
    | with_reducible apply Apart.step (State.uncorrectableSlot_quiet ?_ (Quiet.refl _))
    | split
/-- The words of an addend that changed go to the TSU's regions only (R129). -/
theorem State.addendWord_only {nd : Node} {s t : State} (h : Apart nd s t) : Apart nd s (t.addendWord s.tsu.com.time.addend) := by
  cases nd
  · exact Apart.step (State.addendWord_quiet rfl (.refl _)) h
  · have e : t.tsu.com.time.addend = s.tsu.com.time.addend := by rw [h.tsu]
    unfold State.addendWord
    rw [if_pos e]
    exact h

theorem execTimeFrameRx_apart {nd : Node} {u s : State} {l : LinkId} {rx : Rx} {stamp : Int} (h_l : l.node = nd) (hs : Apart nd u s) :
    Apart nd u (s.after (execTimeFrameRx l rx stamp s)) := by
  refine hs.trans (State.addendWord_only ?_)
  exact State.timeFrameRx_apart h_l (.refl _)

theorem State.delayMeasurementDone_apart {nd : Node} {u : State} {s : State} {l : LinkId} (h_l : l.node = nd) (hs : Apart nd u s) : Apart nd u ((State.delayMeasurementDone (s) (l))) := by
  refine Apart.trans hs ?_
  unfold State.delayMeasurementDone
  repeat' first
    | with_reducible exact Apart.refl _
    | with_reducible assumption
    | (intro x; first | (refine Apart.use (x := x) ?_ (fun hx => ?_); rotate_left; clear_value x; rotate_right; subst x) | (have hf : (x : Node) = x := rfl; clear hf; subst x) | clear_value x | skip)
    | lift_lets -underBinder
    | with_reducible apply Apart.ite
    | with_reducible apply State.acquire_apart
    | with_reducible apply State.judgeSender_apart
    | with_reducible apply Apart.step (State.log_quiet ?_ (Quiet.refl _))
    | with_reducible apply State.selectSource_apart
    | with_reducible apply State.servoUpdate_apart
    | with_reducible apply Apart.step (State.setEvt_quiet ?_ (Quiet.refl _))
    | with_reducible apply State.updSrc_apart

theorem execDelayMeasurementDone_apart {nd : Node} {u s : State} {l : LinkId} (h_l : l.node = nd) (hs : Apart nd u s) :
    Apart nd u (s.after (execDelayMeasurementDone l s)) := by
  refine hs.trans (State.addendWord_only ?_)
  exact State.delayMeasurementDone_apart h_l (.refl _)

theorem State.delayRestart_quiet {nd : Node} {u : State} {s : State} {l : LinkId} (h_l : l.node = nd) (hs : Quiet nd u s) : Quiet nd u ((State.delayRestart (s) (l))) := by
  refine Quiet.trans hs ?_
  unfold State.delayRestart
  repeat' first
    | with_reducible exact Quiet.refl _
    | with_reducible assumption
    | (intro x; first | (refine Quiet.use (x := x) ?_ (fun hx => ?_); rotate_left; clear_value x; rotate_right; subst x) | skip)
    | lift_lets -underBinder
    | with_reducible apply Quiet.ite
    | with_reducible apply State.log_quiet
    | with_reducible apply State.setEvt_quiet
    | with_reducible apply State.updSrc_quiet

theorem execDelayRestart_quiet {nd : Node} {u : State} {l : LinkId} {s : State} (h_l : l.node = nd) (hs : Quiet nd u s) : Quiet nd u ((State.after (s) (execDelayRestart (l) (s)))) := by
  refine Quiet.trans hs ?_
  unfold execDelayRestart
  rw [State.after_next]
  repeat' first
    | with_reducible exact Quiet.refl _
    | with_reducible assumption
    | with_reducible apply State.delayRestart_quiet

theorem State.timeLoss_apart {nd : Node} {u : State} {s : State} {l : LinkId} (h_l : l.node = nd) (hs : Apart nd u s) : Apart nd u ((State.timeLoss (s) (l))) := by
  refine Apart.trans hs ?_
  unfold State.timeLoss
  repeat' first
    | with_reducible exact Apart.refl _
    | with_reducible assumption
    | (with_reducible refine (?_ : (_ : Node) = _); first | rfl | assumption | (simp_all only []; done) | (simp_all; done) | (cases nd <;> simp_all; done))
    | (intro x; first | (refine Apart.use (x := x) ?_ (fun hx => ?_); rotate_left; clear_value x; rotate_right; subst x) | skip)
    | lift_lets -underBinder
    | with_reducible apply Apart.ite
    | with_reducible apply Apart.step (State.healthSend_quiet ?_ (Quiet.refl _))
    | with_reducible apply Apart.step (State.log_quiet ?_ (Quiet.refl _))
    | with_reducible apply Apart.step (State.setEvt_quiet ?_ (Quiet.refl _))
    | with_reducible apply State.srcInvalid_apart
    | with_reducible apply State.updSrc_apart

theorem execTimeLoss_apart {nd : Node} {u : State} {l : LinkId} {s : State} (h_l : l.node = nd) (hs : Apart nd u s) : Apart nd u ((State.after (s) (execTimeLoss (l) (s)))) := by
  refine Apart.trans hs ?_
  unfold execTimeLoss
  rw [State.after_next]
  repeat' first
    | with_reducible exact Apart.refl _
    | with_reducible assumption
    | with_reducible apply State.timeLoss_apart

theorem State.sourceSwitchBetter_apart {nd : Node} {u : State} {s : State} {l : LinkId} (h_l : l.node = nd) (hs : Apart nd u s) : Apart nd u ((State.sourceSwitchBetter (s) (l))) := by
  refine Apart.trans hs ?_
  unfold State.sourceSwitchBetter
  repeat' first
    | with_reducible exact Apart.refl _
    | with_reducible assumption
    | with_reducible apply Apart.ite
    | with_reducible apply State.takeSource_apart
    | intro x

theorem execSourceSwitchBetter_apart {nd : Node} {u : State} {l : LinkId} {s : State} (h_l : l.node = nd) (hs : Apart nd u s) : Apart nd u ((State.after (s) (execSourceSwitchBetter (l) (s)))) := by
  refine Apart.trans hs ?_
  unfold execSourceSwitchBetter
  rw [State.after_next]
  repeat' first
    | with_reducible exact Apart.refl _
    | with_reducible assumption
    | with_reducible apply State.sourceSwitchBetter_apart

end Sys2Proof.Machine
end

