-- ==== Sys2Proof/Laws/ApartLinks.lean ====
section
/-! SUPPORT. Which part the operations of `Sys2Proof.Machine.Links` act at, and whether they leave its time alone. -/

namespace Sys2Proof.Machine

open Sys2Proof

set_option linter.unusedVariables false

theorem State.trainingAttempt_quiet {nd : Node} {u : State} {s : State} {l : LinkId} (h_l : l.node = nd) (hs : Quiet nd u s) : Quiet nd u ((State.trainingAttempt (s) (l))) := by
  refine Quiet.trans hs ?_
  unfold State.trainingAttempt
  repeat' first
    | with_reducible exact Quiet.refl _
    | with_reducible assumption
    | (intro x; clear_value x)
    | lift_lets -underBinder
    | with_reducible apply State.updLink_quiet

theorem execTrainingAttempt_quiet {nd : Node} {u : State} {l : LinkId} {s : State} (h_l : l.node = nd) (hs : Quiet nd u s) : Quiet nd u ((State.after (s) (execTrainingAttempt (l) (s)))) := by
  refine Quiet.trans hs ?_
  unfold execTrainingAttempt
  rw [State.after_next]
  repeat' first
    | with_reducible exact Quiet.refl _
    | with_reducible assumption
    | with_reducible apply State.trainingAttempt_quiet

theorem State.attemptFail_quiet {nd : Node} {u : State} {s : State} {l : LinkId} (h_l : l.node = nd) (hs : Quiet nd u s) : Quiet nd u ((State.attemptFail (s) (l))) := by
  refine Quiet.trans hs ?_
  unfold State.attemptFail
  repeat' first
    | with_reducible exact Quiet.refl _
    | with_reducible assumption
    | (intro x; first | clear_value x | skip)
    | lift_lets -underBinder
    | with_reducible apply Quiet.ite
    | with_reducible apply State.attemptOver_quiet

theorem execAttemptFail_quiet {nd : Node} {u : State} {l : LinkId} {s : State} (h_l : l.node = nd) (hs : Quiet nd u s) : Quiet nd u ((State.after (s) (execAttemptFail (l) (s)))) := by
  refine Quiet.trans hs ?_
  unfold execAttemptFail
  rw [State.after_next]
  repeat' first
    | with_reducible exact Quiet.refl _
    | with_reducible assumption
    | with_reducible apply State.attemptFail_quiet

theorem execRateSearchSwitch_quiet {nd : Node} {u : State} {l : LinkId} {s : State} (h_l : l.node = nd) (hs : Quiet nd u s) : Quiet nd u ((State.after (s) (execRateSearchSwitch (l) (s)))) := by
  refine Quiet.trans hs ?_
  unfold execRateSearchSwitch
  rw [State.after_next]
  repeat' first
    | with_reducible exact Quiet.refl _
    | with_reducible assumption
    | with_reducible apply State.updLink_quiet

theorem State.rxLock_quiet {nd : Node} {u : State} {s : State} {l : LinkId} {fallback : Bool} (h_l : l.node = nd) (hs : Quiet nd u s) : Quiet nd u ((State.rxLock (s) (l) (fallback))) := by
  refine Quiet.trans hs ?_
  unfold State.rxLock
  repeat' first
    | with_reducible exact Quiet.refl _
    | with_reducible assumption
    | (intro x; clear_value x)
    | lift_lets -underBinder
    | with_reducible apply State.updLink_quiet

theorem execRxLock_quiet {nd : Node} {u : State} {l : LinkId} {fallback : Bool} {s : State} (h_l : l.node = nd) (hs : Quiet nd u s) : Quiet nd u ((State.after (s) (execRxLock (l) (fallback) (s)))) := by
  refine Quiet.trans hs ?_
  unfold execRxLock
  rw [State.after_next]
  repeat' first
    | with_reducible exact Quiet.refl _
    | with_reducible assumption
    | with_reducible apply State.rxLock_quiet

theorem execPmdConverged_quiet {nd : Node} {u : State} {l : LinkId} {s : State} (h_l : l.node = nd) (hs : Quiet nd u s) : Quiet nd u ((State.after (s) (execPmdConverged (l) (s)))) := by
  refine Quiet.trans hs ?_
  unfold execPmdConverged
  rw [State.after_next]
  repeat' first
    | with_reducible exact Quiet.refl _
    | with_reducible assumption
    | with_reducible apply State.updLink_quiet

theorem execBlockLockAcquired_quiet {nd : Node} {u : State} {l : LinkId} {s : State} (h_l : l.node = nd) (hs : Quiet nd u s) : Quiet nd u ((State.after (s) (execBlockLockAcquired (l) (s)))) := by
  refine Quiet.trans hs ?_
  unfold execBlockLockAcquired
  rw [State.after_next]
  repeat' first
    | with_reducible exact Quiet.refl _
    | with_reducible assumption
    | with_reducible apply State.updLink_quiet

theorem execFrameLockAcquired_quiet {nd : Node} {u : State} {l : LinkId} {s : State} (h_l : l.node = nd) (hs : Quiet nd u s) : Quiet nd u ((State.after (s) (execFrameLockAcquired (l) (s)))) := by
  refine Quiet.trans hs ?_
  unfold execFrameLockAcquired
  rw [State.after_next]
  repeat' first
    | with_reducible exact Quiet.refl _
    | with_reducible assumption
    | with_reducible apply State.updLink_quiet

theorem State.neighborCheck_quiet {nd : Node} {u : State} {s : State} {l : LinkId} (h_l : l.node = nd) (hs : Quiet nd u s) : Quiet nd u ((State.neighborCheck (s) (l))) := by
  refine Quiet.trans hs ?_
  unfold State.neighborCheck
  repeat' first
    | with_reducible exact Quiet.refl _
    | with_reducible assumption
    | (with_reducible refine (?_ : (_ : Node) = _); first | rfl | assumption | (simp_all only []; done) | (simp_all; done) | (cases nd <;> simp_all; done))
    | (intro x; first | (refine Quiet.use (x := x) ?_ (fun hx => ?_); rotate_left; clear_value x; rotate_right; subst x) | clear_value x | skip)
    | lift_lets -underBinder
    | with_reducible apply Quiet.ite
    | with_reducible apply State.logG_quiet
    | with_reducible apply State.setEvt_quiet
    | with_reducible apply State.updLink_quiet
    | with_reducible apply State.updSrc_quiet
    | split

theorem State.takeAssign_quiet {nd : Node} {u : State} {s : State} {l : LinkId} (h_l : l.node = nd) (hs : Quiet nd u s) : Quiet nd u ((State.takeAssign (s) (l))) := by
  refine Quiet.trans hs ?_
  unfold State.takeAssign
  repeat' first
    | with_reducible exact Quiet.refl _
    | (with_reducible refine (?_ : (_ : Node) = _); first | rfl | assumption | (simp_all only []; done) | (simp_all; done) | (cases nd <;> simp_all; done))
    | (intro x; first | (have hf : (x : LinkId) = x := rfl; clear hf; subst x) | clear_value x | skip)
    | lift_lets -underBinder
    | with_reducible apply Quiet.ite
    | with_reducible apply State.logG_quiet
    | with_reducible apply State.logT_quiet
    | with_reducible apply State.setEvt_quiet
    | ((with_reducible apply State.updTsu_quiet); rotate_left; focus (intro t; rfl))
    | ((with_reducible apply State.updGd_quiet); rotate_left; focus (intro t; rfl))
    | split

theorem State.trainFrameRx_apart {nd : Node} {u : State} {s : State} {l : LinkId} {rx : Rx} (h_l : l.node = nd) (hs : Apart nd u s) : Apart nd u ((State.trainFrameRx (s) (l) (rx))) := by
  refine Apart.trans hs ?_
  unfold State.trainFrameRx
  repeat' first
    | with_reducible exact Apart.refl _
    | with_reducible assumption
    | (intro x; first | (refine Apart.use (x := x) ?_ (fun hx => ?_); rotate_left; clear_value x; rotate_right; subst x) | clear_value x | skip)
    | lift_lets -underBinder
    | with_reducible apply Apart.ite
    | with_reducible apply State.enterUp_apart
    | with_reducible apply State.linkDown_apart
    | with_reducible apply Apart.step (State.log_quiet ?_ (Quiet.refl _))
    | with_reducible apply Apart.step (State.malformed_quiet ?_ (Quiet.refl _))
    | with_reducible apply Apart.step (State.neighborCheck_quiet ?_ (Quiet.refl _))
    | with_reducible apply Apart.step (State.poisonSlot_quiet ?_ (Quiet.refl _))
    | with_reducible apply Apart.step (State.setEvt_quiet ?_ (Quiet.refl _))
    | with_reducible apply Apart.step (State.slotTaken_quiet ?_ (Quiet.refl _))
    | with_reducible apply Apart.step (State.takeAssign_quiet ?_ (Quiet.refl _))
    | with_reducible apply Apart.step (State.uncorrectableSlot_quiet ?_ (Quiet.refl _))
    | with_reducible apply State.updLink_apart
    | split

theorem execTrainFrameRx_apart {nd : Node} {u : State} {l : LinkId} {rx : Rx} {s : State} (h_l : l.node = nd) (hs : Apart nd u s) : Apart nd u ((State.after (s) (execTrainFrameRx (l) (rx) (s)))) := by
  refine Apart.trans hs ?_
  unfold execTrainFrameRx
  rw [State.after_next]
  repeat' first
    | with_reducible exact Apart.refl _
    | with_reducible assumption
    | with_reducible apply State.trainFrameRx_apart

theorem execBlockLockLoss_apart {nd : Node} {u : State} {l : LinkId} {s : State} (h_l : l.node = nd) (hs : Apart nd u s) : Apart nd u ((State.after (s) (execBlockLockLoss (l) (s)))) := by
  refine Apart.trans hs ?_
  unfold execBlockLockLoss
  rw [State.after_next]
  repeat' first
    | with_reducible exact Apart.refl _
    | with_reducible assumption
    | with_reducible apply Apart.ite
    | with_reducible apply Apart.step (State.attemptOver_quiet ?_ (Quiet.refl _))
    | with_reducible apply State.linkDown_apart
    | split
    | intro x

theorem execFrameLockLoss_apart {nd : Node} {u : State} {l : LinkId} {s : State} (h_l : l.node = nd) (hs : Apart nd u s) : Apart nd u ((State.after (s) (execFrameLockLoss (l) (s)))) := by
  refine Apart.trans hs ?_
  unfold execFrameLockLoss
  rw [State.after_next]
  repeat' first
    | with_reducible exact Apart.refl _
    | with_reducible assumption
    | with_reducible apply Apart.ite
    | with_reducible apply State.linkDown_apart
    | intro x

theorem State.linkBerExceeded_apart {nd : Node} {u : State} {s : State} {l : LinkId} (h_l : l.node = nd) (hs : Apart nd u s) : Apart nd u ((State.linkBerExceeded (s) (l))) := by
  refine Apart.trans hs ?_
  unfold State.linkBerExceeded
  repeat' first
    | with_reducible exact Apart.refl _
    | with_reducible assumption
    | (intro x; first | clear_value x | skip)
    | lift_lets -underBinder
    | with_reducible apply Apart.ite
    | with_reducible apply State.linkDown_apart
    | with_reducible apply Apart.step (State.log_quiet ?_ (Quiet.refl _))

theorem execLinkBerExceeded_apart {nd : Node} {u : State} {l : LinkId} {s : State} (h_l : l.node = nd) (hs : Apart nd u s) : Apart nd u ((State.after (s) (execLinkBerExceeded (l) (s)))) := by
  refine Apart.trans hs ?_
  unfold execLinkBerExceeded
  rw [State.after_next]
  repeat' first
    | with_reducible exact Apart.refl _
    | with_reducible assumption
    | with_reducible apply State.linkBerExceeded_apart

theorem State.linkOff_apart {nd : Node} {u : State} {s : State} {l : LinkId} (h_l : l.node = nd) (hs : Apart nd u s) : Apart nd u ((State.linkOff (s) (l))) := by
  refine Apart.trans hs ?_
  unfold State.linkOff
  repeat' first
    | with_reducible exact Apart.refl _
    | with_reducible assumption
    | (intro x; (refine Apart.use (x := x) ?_ (fun hx => ?_); rotate_left; clear_value x; rotate_right; subst x))
    | lift_lets -underBinder
    | with_reducible apply Apart.step (State.attemptOver_quiet ?_ (Quiet.refl _))
    | with_reducible apply State.linkDown_apart
    | with_reducible apply State.updLink_apart

theorem State.linkOn_quiet {nd : Node} {u : State} {s : State} {l : LinkId} (h_l : l.node = nd) (hs : Quiet nd u s) : Quiet nd u ((State.linkOn (s) (l))) := by
  refine Quiet.trans hs ?_
  unfold State.linkOn
  repeat' first
    | with_reducible exact Quiet.refl _
    | with_reducible assumption
    | (intro x; clear_value x)
    | lift_lets -underBinder
    | with_reducible apply State.updLink_quiet

theorem State.laneEnWrite_apart {nd : Node} {u : State} {s : State} {en : BitVec 2} (hn : nd = .tsu) (hs : Apart nd u s) : Apart nd u ((State.laneEnWrite (s) (en))) := by
  subst hn
  refine Apart.trans hs ?_
  unfold State.laneEnWrite
  repeat' first
    | with_reducible exact Apart.refl _
    | with_reducible assumption
    | with_reducible rfl
    | (intro x; first | (refine Apart.use (x := x) ?_ (fun hx => ?_); rotate_left; clear_value x; rotate_right; subst x) | skip)
    | lift_lets -underBinder
    | with_reducible apply Apart.ite
    | with_reducible apply State.linkOff_apart
    | with_reducible apply Apart.step (State.linkOn_quiet ?_ (Quiet.refl _))
    | with_reducible apply Apart.step (State.setReg_quiet ?_ (Quiet.refl _))
    | with_reducible apply Apart.foldl

theorem execLaneEnWrite_apart {nd : Node} {u : State} {en : BitVec 2} {s : State} (hn : nd = .tsu) (hs : Apart nd u s) : Apart nd u ((State.after (s) (execLaneEnWrite (en) (s)))) := by
  subst hn
  refine Apart.trans hs ?_
  unfold execLaneEnWrite
  rw [State.after_next]
  repeat' first
    | with_reducible exact Apart.refl _
    | with_reducible rfl
    | with_reducible apply State.laneEnWrite_apart

theorem State.retrain_apart {nd : Node} {u : State} {s : State} {l : LinkId} (h_l : l.node = nd) (hs : Apart nd u s) : Apart nd u ((State.retrain (s) (l))) := by
  refine Apart.trans hs ?_
  unfold State.retrain
  repeat' first
    | with_reducible exact Apart.refl _
    | with_reducible assumption
    | intro x
    | lift_lets -underBinder
    | with_reducible apply Apart.ite
    | with_reducible apply Apart.step (State.attemptOver_quiet ?_ (Quiet.refl _))
    | with_reducible apply State.linkDown_apart
    | with_reducible apply State.updLink_apart

theorem State.linkWrite_quiet {nd : Node} {u : State} {s : State} {l : LinkId} {f : State → State} (k_f : ∀ x, Quiet nd x (f x)) (h_l : l.node = nd) (hs : Quiet nd u s) : Quiet nd u ((State.linkWrite (s) (l) (f))) := by
  refine Quiet.trans hs ?_
  unfold State.linkWrite
  repeat' first
    | with_reducible exact Quiet.refl _
    | with_reducible assumption
    | (with_reducible refine (?_ : (_ : Node) = _); first | rfl | assumption | (simp_all only []; done) | (simp_all; done) | (cases nd <;> simp_all; done))
    | with_reducible apply State.portPage_quiet
    | with_reducible refine Quiet.trans ?_ (k_f _)
    | split

theorem State.linkWrite_apart {nd : Node} {u : State} {s : State} {l : LinkId} {f : State → State} (k_f : ∀ x, Apart nd x (f x)) (h_l : l.node = nd) (hs : Apart nd u s) : Apart nd u ((State.linkWrite (s) (l) (f))) := by
  refine Apart.trans hs ?_
  unfold State.linkWrite
  repeat' first
    | with_reducible exact Apart.refl _
    | with_reducible assumption
    | (with_reducible refine (?_ : (_ : Node) = _); first | rfl | assumption | (simp_all only []; done) | (simp_all; done) | (cases nd <;> simp_all; done))
    | with_reducible apply State.portPage_apart
    | with_reducible refine Apart.trans ?_ (k_f _)
    | split

theorem execRetrain_apart {nd : Node} {u : State} {l : LinkId} {s : State} (h_l : l.node = nd) (hs : Apart nd u s) : Apart nd u ((State.after (s) (execRetrain (l) (s)))) := by
  refine Apart.trans hs ?_
  unfold execRetrain
  rw [State.after_next]
  repeat' first
    | with_reducible exact Apart.refl _
    | with_reducible assumption
    | intro x
    | lift_lets -underBinder
    | with_reducible apply State.linkWrite_apart
    | with_reducible apply State.retrain_apart

theorem execCntClear_quiet {nd : Node} {u : State} {l : LinkId} {s : State} (h_l : l.node = nd) (hs : Quiet nd u s) : Quiet nd u ((State.after (s) (execCntClear (l) (s)))) := by
  refine Quiet.trans hs ?_
  unfold execCntClear
  rw [State.after_next]
  repeat' first
    | with_reducible exact Quiet.refl _
    | with_reducible assumption
    | intro x
    | lift_lets -underBinder
    | with_reducible apply State.linkWrite_quiet
    | with_reducible apply State.updLink_quiet

theorem State.redundancyLost_quiet {nd : Node} {u : State} {s : State} {n : Node} (h_n : n = nd) (hs : Quiet nd u s) : Quiet nd u ((State.redundancyLost (s) (n))) := by
  refine Quiet.trans hs ?_
  unfold State.redundancyLost
  repeat' first
    | with_reducible exact Quiet.refl _
    | with_reducible assumption
    | (with_reducible refine (?_ : (_ : Node) = _); first | rfl | assumption | (simp_all only []; done) | (simp_all; done) | (cases nd <;> simp_all; done))
    | (intro x; first | (refine Quiet.use (x := x) ?_ (fun hx => ?_); rotate_left; clear_value x; rotate_right; subst x) | (have hf := funext (f := x) (g := x) (fun _ => rfl); clear hf; subst x) | (have hf : (x : LinkId) = x := rfl; clear hf; subst x) | skip)
    | lift_lets -underBinder
    | with_reducible apply Quiet.ite
    | with_reducible apply State.healthSend_quiet
    | with_reducible apply State.log_quiet
    | with_reducible apply State.setEvt_quiet
    | ((with_reducible apply State.updCom_quiet); rotate_left; focus (intro t; rfl))
    | split

theorem execRedundancyLost_quiet {nd : Node} {u : State} {n : Node} {s : State} (h_n : n = nd) (hs : Quiet nd u s) : Quiet nd u ((State.after (s) (execRedundancyLost (n) (s)))) := by
  refine Quiet.trans hs ?_
  unfold execRedundancyLost
  rw [State.after_next]
  repeat' first
    | with_reducible exact Quiet.refl _
    | with_reducible assumption
    | with_reducible apply State.redundancyLost_quiet

theorem State.slotTransmit_apart {nd : Node} {u : State} {s : State} {l : LinkId} (h_l : l.node = nd) (hs : Apart nd u s) : Apart nd u ((State.slotTransmit (s) (l))) := by
  refine Apart.trans hs ?_
  unfold State.slotTransmit
  repeat' first
    | with_reducible exact Apart.refl _
    | with_reducible assumption
    | (intro x; first | (refine Apart.use (x := x) ?_ (fun hx => ?_); rotate_left; clear_value x; rotate_right; subst x) | clear_value x | skip)
    | lift_lets -underBinder
    | with_reducible apply Apart.ite
    | with_reducible apply Apart.step (State.addTokens_quiet ?_ (Quiet.refl _))
    | with_reducible apply State.timeFrameSend_apart
    | with_reducible apply State.updLink_apart
    | split

theorem execSlotTransmit_apart {nd : Node} {u : State} {l : LinkId} {s : State} (h_l : l.node = nd) (hs : Apart nd u s) : Apart nd u ((State.after (s) (execSlotTransmit (l) (s)))) := by
  refine Apart.trans hs ?_
  unfold execSlotTransmit
  rw [State.after_next]
  repeat' first
    | with_reducible exact Apart.refl _
    | with_reducible assumption
    | with_reducible apply State.slotTransmit_apart

theorem execUncorrectableSlot_quiet {nd : Node} {u : State} {l : LinkId} {timeSlot : Bool} {s : State} (h_l : l.node = nd) (hs : Quiet nd u s) : Quiet nd u ((State.after (s) (execUncorrectableSlot (l) (timeSlot) (s)))) := by
  refine Quiet.trans hs ?_
  unfold execUncorrectableSlot
  rw [State.after_next]
  repeat' first
    | with_reducible exact Quiet.refl _
    | with_reducible assumption
    | with_reducible apply State.uncorrectableSlot_quiet

theorem State.nakRx_apart {nd : Node} {u : State} {s : State} {l : LinkId} {slot : Nat} (h_l : l.node = nd) (hs : Apart nd u s) : Apart nd u ((State.nakRx (s) (l) (slot))) := by
  refine Apart.trans hs ?_
  unfold State.nakRx
  repeat' first
    | with_reducible exact Apart.refl _
    | with_reducible assumption
    | (intro x; first | clear_value x | skip)
    | lift_lets -underBinder
    | with_reducible apply Apart.ite
    | with_reducible apply State.linkDown_apart
    | with_reducible apply Apart.step (State.log_quiet ?_ (Quiet.refl _))
    | with_reducible apply State.updLink_apart

theorem State.linkctlRx_apart {nd : Node} {u : State} {s : State} {l : LinkId} {rx : Rx} (h_l : l.node = nd) (hs : Apart nd u s) : Apart nd u ((State.linkctlRx (s) (l) (rx))) := by
  refine Apart.trans hs ?_
  unfold State.linkctlRx
  repeat' first
    | with_reducible exact Apart.refl _
    | with_reducible assumption
    | (intro x; first | (refine Apart.use (x := x) ?_ (fun hx => ?_); rotate_left; clear_value x; rotate_right; subst x) | (refine Apart.use (x := x.1) ?_ (fun hx => ?_); rotate_left; clear_value x; rotate_right; subst x) | clear_value x | skip)
    | lift_lets -underBinder
    | with_reducible apply Apart.ite
    | with_reducible apply State.nakRx_apart
    | with_reducible apply State.receive_apart
    | with_reducible apply State.updLink_apart
    | split

theorem execLinkctlRx_apart {nd : Node} {u : State} {l : LinkId} {rx : Rx} {s : State} (h_l : l.node = nd) (hs : Apart nd u s) : Apart nd u ((State.after (s) (execLinkctlRx (l) (rx) (s)))) := by
  refine Apart.trans hs ?_
  unfold execLinkctlRx
  rw [State.after_next]
  repeat' first
    | with_reducible exact Apart.refl _
    | with_reducible assumption
    | with_reducible apply State.linkctlRx_apart

theorem execNakResend_quiet {nd : Node} {u : State} {l : LinkId} {s : State} (h_l : l.node = nd) (hs : Quiet nd u s) : Quiet nd u ((State.after (s) (execNakResend (l) (s)))) := by
  refine Quiet.trans hs ?_
  unfold execNakResend
  rw [State.after_next]
  repeat' first
    | with_reducible exact Quiet.refl _
    | with_reducible assumption
    | with_reducible apply State.updLink_quiet

theorem execReplayFailure_apart {nd : Node} {u : State} {l : LinkId} {s : State} (h_l : l.node = nd) (hs : Apart nd u s) : Apart nd u ((State.after (s) (execReplayFailure (l) (s)))) := by
  refine Apart.trans hs ?_
  unfold execReplayFailure
  rw [State.after_next]
  repeat' first
    | with_reducible exact Apart.refl _
    | with_reducible assumption
    | with_reducible apply Apart.ite
    | with_reducible apply State.linkDown_apart
    | intro x

theorem execCreditReturnDue_quiet {nd : Node} {u : State} {l : LinkId} {s : State} (h_l : l.node = nd) (hs : Quiet nd u s) : Quiet nd u ((State.after (s) (execCreditReturnDue (l) (s)))) := by
  refine Quiet.trans hs ?_
  unfold execCreditReturnDue
  rw [State.after_next]
  repeat' first
    | with_reducible exact Quiet.refl _
    | with_reducible assumption
    | with_reducible apply State.updLink_quiet

theorem execLinkctlKeepalive_quiet {nd : Node} {u : State} {l : LinkId} {s : State} (h_l : l.node = nd) (hs : Quiet nd u s) : Quiet nd u ((State.after (s) (execLinkctlKeepalive (l) (s)))) := by
  refine Quiet.trans hs ?_
  unfold execLinkctlKeepalive
  rw [State.after_next]
  repeat' first
    | with_reducible exact Quiet.refl _
    | with_reducible assumption
    | with_reducible apply State.updLink_quiet

theorem State.degradeLimitExceeded_quiet {nd : Node} {u : State} {s : State} {l : LinkId} (h_l : l.node = nd) (hs : Quiet nd u s) : Quiet nd u ((State.degradeLimitExceeded (s) (l))) := by
  refine Quiet.trans hs ?_
  unfold State.degradeLimitExceeded
  repeat' first
    | with_reducible exact Quiet.refl _
    | with_reducible assumption
    | (with_reducible refine (?_ : (_ : Node) = _); first | rfl | assumption | (simp_all only []; done) | (simp_all; done) | (cases nd <;> simp_all; done))
    | (intro x; first | (refine Quiet.use (x := x) ?_ (fun hx => ?_); rotate_left; clear_value x; rotate_right; subst x) | clear_value x | skip)
    | lift_lets -underBinder
    | with_reducible apply Quiet.ite
    | with_reducible apply State.healthSeen_quiet
    | with_reducible apply State.healthSend_quiet
    | with_reducible apply State.log_quiet
    | with_reducible apply State.setEvt_quiet
    | split

theorem execDegradeLimitExceeded_quiet {nd : Node} {u : State} {l : LinkId} {s : State} (h_l : l.node = nd) (hs : Quiet nd u s) : Quiet nd u ((State.after (s) (execDegradeLimitExceeded (l) (s)))) := by
  refine Quiet.trans hs ?_
  unfold execDegradeLimitExceeded
  rw [State.after_next]
  repeat' first
    | with_reducible exact Quiet.refl _
    | with_reducible assumption
    | with_reducible apply State.degradeLimitExceeded_quiet

theorem execIdleFrameRx_apart {nd : Node} {u : State} {l : LinkId} {rx : Rx} {s : State} (h_l : l.node = nd) (hs : Apart nd u s) : Apart nd u ((State.after (s) (execIdleFrameRx (l) (rx) (s)))) := by
  refine Apart.trans hs ?_
  unfold execIdleFrameRx
  rw [State.after_next]
  repeat' first
    | with_reducible exact Apart.refl _
    | with_reducible assumption
    | with_reducible apply State.receive_apart

theorem Common.enqueueMark_time (c : Common) (key : Nat) : (c.enqueueMark key).time = c.time := by
  unfold Common.enqueueMark
  simp only []
  split <;> rfl

theorem execReadyMarkEnqueue_quiet {nd : Node} {u s : State} {n : Node} {key : Nat} (h_n : n = nd) (hs : Quiet nd u s) :
    Quiet nd u (s.after (execReadyMarkEnqueue n key s)) := State.updCom_quiet h_n (fun c => Common.enqueueMark_time ..) hs


end Sys2Proof.Machine
end

