-- ==== Sys2Proof/Laws/ApartTreeOps.lean ====
section
/-! SUPPORT. Which part the operations of `Sys2Proof.Machine.TreeOps` act at, and whether they leave its time alone. -/

namespace Sys2Proof.Machine

open Sys2Proof

set_option linter.unusedVariables false

theorem State.domDown_quiet {nd : Node} {u : State} {s : State} {d : GdDom} {f : Frame} {only : Bool} (hn : nd = .gd) (hs : Quiet nd u s) : Quiet nd u ((State.domDown (s) (d) (f) (only))) := by
  subst hn
  refine Quiet.trans hs ?_
  unfold State.domDown
  repeat' first
    | with_reducible exact Quiet.refl _
    | with_reducible assumption
    | with_reducible rfl
    | (intro x; first | (refine Quiet.use (x := x) ?_ (fun hx => ?_); rotate_left; clear_value x; rotate_right; subst x) | clear_value x | skip)
    | lift_lets -underBinder
    | with_reducible apply Quiet.ite
    | with_reducible apply State.gdDown_quiet
    | with_reducible apply State.mirror_quiet

theorem State.readyCheck_quiet {nd : Node} {u : State} {s : State} {tag : BitVec 24} (hn : nd = .gd) (hs : Quiet nd u s) : Quiet nd u ((State.readyCheck (s) (tag))) := by
  subst hn
  refine Quiet.trans hs ?_
  unfold State.readyCheck
  repeat' first
    | with_reducible exact Quiet.refl _
    | with_reducible rfl
    | intro x
    | lift_lets -underBinder
    | with_reducible apply Quiet.ite
    | with_reducible apply State.domDown_quiet
    | with_reducible apply State.gdUp_quiet
    | with_reducible apply State.updDom_quiet
    | split

theorem State.reserveDom_quiet {nd : Node} {u : State} {s : State} {tag : BitVec 24} (hn : nd = .gd) (hs : Quiet nd u s) : Quiet nd u ((State.reserveDom (s) (tag))) := by
  subst hn
  refine Quiet.trans hs ?_
  unfold State.reserveDom
  repeat' first
    | with_reducible exact Quiet.refl _
    | with_reducible rfl
    | intro x
    | lift_lets -underBinder
    | with_reducible apply Quiet.ite
    | with_reducible apply State.logG_quiet
    | with_reducible apply State.readyCheck_quiet
    | with_reducible apply State.updDom_quiet
    | split

theorem State.tearDom_quiet {nd : Node} {u : State} {s : State} {d : GdDom} {only : Bool} (hn : nd = .gd) (hs : Quiet nd u s) : Quiet nd u ((State.tearDom (s) (d) (only))) := by
  subst hn
  refine Quiet.trans hs ?_
  unfold State.tearDom
  repeat' first
    | with_reducible exact Quiet.refl _
    | with_reducible assumption
    | with_reducible rfl
    | (intro x; first | (refine Quiet.use (x := x) ?_ (fun hx => ?_); rotate_left; clear_value x; rotate_right; subst x) | clear_value x)
    | lift_lets -underBinder
    | with_reducible apply State.domDown_quiet
    | with_reducible apply State.updDom_quiet

theorem State.freeDom_quiet {nd : Node} {u : State} {s : State} {tag : BitVec 24} (hn : nd = .gd) (hs : Quiet nd u s) : Quiet nd u ((State.freeDom (s) (tag))) := by
  subst hn
  refine Quiet.trans hs ?_
  unfold State.freeDom
  repeat' first
    | with_reducible exact Quiet.refl _
    | with_reducible rfl
    | ((with_reducible apply State.updGd_quiet); rotate_left; focus (intro t; rfl))

theorem State.applyPorts_apart {nd : Node} {u : State} {s : State} {t : TreeImage} (hn : nd = .gd) (hs : Apart nd u s) : Apart nd u ((State.applyPorts (s) (t))) := by
  subst hn
  refine Apart.trans hs ?_
  unfold State.applyPorts
  repeat' first
    | with_reducible exact Apart.refl _
    | with_reducible assumption
    | with_reducible rfl
    | (intro x; first | (refine Apart.use (x := x) ?_ (fun hx => ?_); rotate_left; clear_value x; rotate_right; subst x) | (have hf : (x : LinkId) = x := rfl; clear hf; subst x) | clear_value x | skip)
    | lift_lets -underBinder
    | with_reducible apply Apart.ite
    | with_reducible apply State.linkOff_apart
    | with_reducible apply Apart.step (State.linkOn_quiet ?_ (Quiet.refl _))
    | with_reducible apply State.updLink_apart
    | with_reducible apply State.updSrc_apart
    | with_reducible apply Apart.foldl

theorem State.loadRegs_quiet {nd : Node} {u : State} {s : State} {l : List (Nat × Nat)} (hn : nd = .gd) (hs : Quiet nd u s) : Quiet nd u ((State.loadRegs (s) (l))) := by
  subst hn
  refine Quiet.trans hs ?_
  unfold State.loadRegs
  repeat' first
    | with_reducible exact Quiet.refl _
    | with_reducible rfl
    | intro x
    | lift_lets -underBinder
    | with_reducible apply State.setReg_quiet
    | with_reducible apply Quiet.foldl

theorem State.applyRefs_quiet {nd : Node} {u : State} {s : State} {old : Option TreeImage} {t : TreeImage} (hn : nd = .gd) (hs : Quiet nd u s) : Quiet nd u ((State.applyRefs (s) (old) (t))) := by
  subst hn
  refine Quiet.trans hs ?_
  unfold State.applyRefs
  repeat' first
    | with_reducible exact Quiet.refl _
    | with_reducible assumption
    | with_reducible rfl
    | (intro x; first | (refine Quiet.use (x := x) ?_ (fun hx => ?_); rotate_left; clear_value x; rotate_right; subst x) | clear_value x | skip)
    | lift_lets -underBinder
    | with_reducible apply Quiet.ite
    | with_reducible apply State.loadRegs_quiet
    | with_reducible apply State.refsConfig_quiet
    | ((with_reducible apply State.updGd_quiet); rotate_left; focus (intro t; rfl))
    | split

theorem State.noRole_apart {nd : Node} {u : State} {s : State} (hn : nd = .gd) (hs : Apart nd u s) : Apart nd u ((State.noRole (s))) := by
  subst hn
  refine Apart.trans hs ?_
  unfold State.noRole
  repeat' first
    | with_reducible exact Apart.refl _
    | with_reducible assumption
    | with_reducible rfl
    | (intro x; first | (refine Apart.use (x := x) ?_ (fun hx => ?_); rotate_left; clear_value x; rotate_right; subst x) | skip)
    | lift_lets -underBinder
    | with_reducible apply Apart.ite
    | with_reducible apply State.linkOff_apart
    | with_reducible apply Apart.step (State.logG_quiet ?_ (Quiet.refl _))
    | with_reducible apply State.updGd_apart
    | with_reducible apply Apart.foldl

theorem State.openPorts_apart {nd : Node} {u : State} {s : State} {t : TreeImage} (hn : nd = .gd) (hs : Apart nd u s) : Apart nd u ((State.openPorts (s) (t))) := by
  subst hn
  refine Apart.trans hs ?_
  unfold State.openPorts
  repeat' first
    | with_reducible exact Apart.refl _
    | with_reducible assumption
    | with_reducible rfl
    | (intro x; (refine Apart.use (x := x) ?_ (fun hx => ?_); rotate_left; clear_value x; rotate_right; subst x))
    | lift_lets -underBinder
    | with_reducible apply State.applyPorts_apart
    | with_reducible apply State.updGd_apart

theorem State.gdActivate_apart {nd : Node} {u : State} {s : State} {t : TreeImage} (hn : nd = .gd) (hs : Apart nd u s) : Apart nd u ((State.gdActivate (s) (t))) := by
  subst hn
  refine Apart.trans hs ?_
  unfold State.gdActivate
  repeat' first
    | with_reducible exact Apart.refl _
    | with_reducible assumption
    | with_reducible rfl
    | (intro x; first | (refine Apart.use (x := x) ?_ (fun hx => ?_); rotate_left; clear_value x; rotate_right; subst x) | clear_value x | skip)
    | lift_lets -underBinder
    | with_reducible apply Apart.ite
    | with_reducible apply Apart.step (State.applyRefs_quiet ?_ (Quiet.refl _))
    | with_reducible apply Apart.step (State.fullCensus_quiet ?_ (Quiet.refl _))
    | with_reducible apply State.noRole_apart
    | with_reducible apply State.openPorts_apart
    | with_reducible apply Apart.step (State.reserveDom_quiet ?_ (Quiet.refl _))
    | with_reducible apply Apart.step (State.tearDom_quiet ?_ (Quiet.refl _))
    | with_reducible apply Apart.step (State.updDom_quiet ?_ (Quiet.refl _))
    | with_reducible apply State.updGd_apart
    | with_reducible apply Apart.foldl

theorem State.tsuTear_quiet {nd : Node} {u : State} {s : State} {d : DomRec} {asked : Bool} (hn : nd = .tsu) (hs : Quiet nd u s) : Quiet nd u ((State.tsuTear (s) (d) (asked))) := by
  subst hn
  refine Quiet.trans hs ?_
  unfold State.tsuTear
  repeat' first
    | with_reducible exact Quiet.refl _
    | with_reducible assumption
    | with_reducible rfl
    | (intro x; first | (refine Quiet.use (x := x) ?_ (fun hx => ?_); rotate_left; clear_value x; rotate_right; subst x) | clear_value x)
    | lift_lets -underBinder
    | with_reducible apply State.unbind_quiet
    | ((with_reducible apply State.updTsu_quiet); rotate_left; focus (intro t; rfl))
    | split

theorem State.tsuActivate_quiet {nd : Node} {u : State} {s : State} {t : TreeImage} (hn : nd = .tsu) (hs : Quiet nd u s) : Quiet nd u ((State.tsuActivate (s) (t))) := by
  subst hn
  refine Quiet.trans hs ?_
  unfold State.tsuActivate
  repeat' first
    | with_reducible exact Quiet.refl _
    | with_reducible assumption
    | with_reducible rfl
    | (intro x; first | (refine Quiet.use (x := x) ?_ (fun hx => ?_); rotate_left; clear_value x; rotate_right; subst x) | clear_value x | skip)
    | lift_lets -underBinder
    | with_reducible apply State.tsuTear_quiet
    | with_reducible apply State.tsuUp_quiet
    | ((with_reducible apply State.updTsu_quiet); rotate_left; focus (intro t; rfl))
    | with_reducible apply State.updSrc_quiet
    | with_reducible apply Quiet.foldl
    | split

theorem State.pendTree_apart {nd : Node} {u : State} {s : State} {n : Node} {t : TreeImage} (h_n : n = nd) (hs : Apart nd u s) : Apart nd u ((State.pendTree (s) (n) (t))) := by
  refine Apart.trans hs ?_
  unfold State.pendTree
  repeat' first
    | with_reducible exact Apart.refl _
    | with_reducible assumption
    | (with_reducible refine (?_ : (_ : Node) = _); first | rfl | assumption | (simp_all only []; done) | (simp_all; done) | (cases nd <;> simp_all; done))
    | (intro x; first | (refine Apart.use (x := x) ?_ (fun hx => ?_); rotate_left; clear_value x; rotate_right; subst x) | skip)
    | lift_lets -underBinder
    | with_reducible apply Apart.ite
    | with_reducible apply State.gdActivate_apart
    | with_reducible apply Apart.step (State.log_quiet ?_ (Quiet.refl _))
    | with_reducible apply Apart.step (State.tsuActivate_quiet ?_ (Quiet.refl _))
    | with_reducible apply State.updTsu_apart
    | with_reducible apply State.updGd_apart
    | split

theorem State.extractTake_apart {nd : Node} {u : State} {s : State} {b : List Byte} (hn : nd = .tsu) (hs : Apart nd u s) : Apart nd u ((State.extractTake (s) (b))) := by
  subst hn
  refine Apart.trans hs ?_
  unfold State.extractTake
  repeat' first
    | with_reducible exact Apart.refl _
    | with_reducible rfl
    | with_reducible apply Apart.ite
    | with_reducible apply State.pendTree_apart
    | with_reducible apply Apart.step (State.tsuRefuse_quiet ?_ (Quiet.refl _))
    | split
    | intro x

theorem State.treeTake_apart {nd : Node} {u : State} {s : State} {b : List Byte} {fed : Bool} (hn : nd = .gd) (hs : Apart nd u s) : Apart nd u ((State.treeTake (s) (b) (fed))) := by
  subst hn
  refine Apart.trans hs ?_
  unfold State.treeTake
  repeat' first
    | with_reducible exact Apart.refl _
    | with_reducible assumption
    | with_reducible rfl
    | (intro x; first | (refine Apart.use (x := x) ?_ (fun hx => ?_); rotate_left; clear_value x; rotate_right; subst x) | skip)
    | lift_lets -underBinder
    | with_reducible apply Apart.ite
    | with_reducible apply Apart.step (State.gdRefuse_quiet ?_ (Quiet.refl _))
    | with_reducible apply Apart.step (State.imageDown_quiet ?_ (Quiet.refl _))
    | with_reducible apply Apart.step (State.logG_quiet ?_ (Quiet.refl _))
    | with_reducible apply State.pendTree_apart
    | with_reducible apply State.updGd_apart
    | with_reducible apply Apart.foldl
    | split

end Sys2Proof.Machine
end

