-- ==== Sys2Proof/Laws/ApartBootOps.lean ====
section
/-! SUPPORT. Which part the operations of `Sys2Proof.Machine.BootOps` act at, and whether they leave its time alone. -/

namespace Sys2Proof.Machine

open Sys2Proof

set_option linter.unusedVariables false

theorem State.report_quiet {nd : Node} {u : State} {s : State} {n : Node} {stage result code count : Nat} {detail : Word} (h_n : n = nd) (hs : Quiet nd u s) : Quiet nd u ((State.report (s) (n) (stage) (result) (code) (count) (detail))) := by
  refine Quiet.trans hs ?_
  unfold State.report
  repeat' first
    | with_reducible exact Quiet.refl _
    | with_reducible assumption
    | (with_reducible refine (?_ : (_ : Node) = _); first | rfl | assumption | (simp_all only []; done) | (simp_all; done) | (cases nd <;> simp_all; done))
    | (intro x; first | (refine Quiet.use (x := x) ?_ (fun hx => ?_); rotate_left; clear_value x; rotate_right; subst x) | clear_value x | skip)
    | lift_lets -underBinder
    | with_reducible apply Quiet.ite
    | with_reducible apply State.logRaw_quiet
    | ((with_reducible apply State.updTsu_quiet); rotate_left; focus (intro t; rfl))
    | ((with_reducible apply State.updGd_quiet); rotate_left; focus (intro t; rfl))
    | ((with_reducible apply State.updCom_quiet); rotate_left; focus (intro t; exact Common.record_time ..))
    | split

theorem State.updBoot_quiet {nd : Node} {u : State} {s : State} {n : Node} {f : Boot → Boot} (h_n : n = nd) (hs : Quiet nd u s) : Quiet nd u ((State.updBoot (s) (n) (f))) := by
  refine Quiet.trans hs ?_
  unfold State.updBoot
  repeat' first
    | with_reducible exact Quiet.refl _
    | (with_reducible refine (?_ : (_ : Node) = _); first | rfl | assumption | (simp_all only []; done) | (simp_all; done) | (cases nd <;> simp_all; done))
    | ((with_reducible apply State.updTsu_quiet); rotate_left; focus (intro t; rfl))
    | ((with_reducible apply State.updGd_quiet); rotate_left; focus (intro t; rfl))
    | split

theorem State.settingsFor_quiet {nd : Node} {u : State} {s : State} {fmt : Nat} (hn : nd = .gd) (hs : Quiet nd u s) : Quiet nd u ((State.settingsFor (s) (fmt))) := by
  subst hn
  refine Quiet.trans hs ?_
  unfold State.settingsFor
  repeat' first
    | with_reducible exact Quiet.refl _
    | with_reducible assumption
    | with_reducible rfl
    | (intro x; first | (refine Quiet.use (x := x) ?_ (fun hx => ?_); rotate_left; clear_value x; rotate_right; subst x) | skip)
    | lift_lets -underBinder
    | with_reducible apply Quiet.ite
    | with_reducible apply State.logG_quiet
    | ((with_reducible apply State.updGd_quiet); rotate_left; focus (intro t; rfl))
    | ((with_reducible apply State.updCom_quiet); rotate_left; focus (intro t; ((repeat' split) <;> rfl)))
    | with_reducible apply Quiet.foldl

theorem State.unitReset_quiet {nd : Node} {u : State} {s : State} (hn : nd = .tsu) (hs : Quiet nd u s) : Quiet nd u ((State.unitReset (s))) := by
  subst hn
  refine Quiet.trans hs ?_
  unfold State.unitReset
  repeat' first
    | with_reducible exact Quiet.refl _
    | with_reducible rfl
    | intro x
    | lift_lets -underBinder
    | with_reducible apply Quiet.ite
    | ((with_reducible apply State.updTsu_quiet); rotate_left; focus (intro t; rfl))

theorem State.chipStart_quiet {nd : Node} {u : State} {s : State} (hn : nd = .gd) (hs : Quiet nd u s) : Quiet nd u ((State.chipStart (s))) := by
  subst hn
  refine Quiet.trans hs ?_
  unfold State.chipStart
  repeat' first
    | with_reducible exact Quiet.refl _
    | with_reducible rfl
    | with_reducible apply State.updBoot_quiet

theorem State.chipReset_apart {nd : Node} {u : State} {s : State} {cause : Nat} (hn : nd = .gd) (hs : Apart nd u s) : Apart nd u ((State.chipReset (s) (cause))) := by
  subst hn
  refine Apart.trans hs ?_
  unfold State.chipReset
  repeat' first
    | with_reducible exact Apart.refl _
    | with_reducible rfl
    | intro x
    | lift_lets -underBinder
    | with_reducible apply Apart.ite
    | with_reducible apply Apart.step (State.chipStart_quiet ?_ (Quiet.refl _))
    | with_reducible apply State.updGd_apart

end Sys2Proof.Machine
end

