-- ==== Sys2Proof/Laws/ApartFwOps.lean ====
section
/-! SUPPORT. Which part the operations of `Sys2Proof.Machine.FwOps` act at, and whether they leave its time alone. -/

namespace Sys2Proof.Machine

open Sys2Proof

set_option linter.unusedVariables false

theorem State.updFw_quiet {nd : Node} {u : State} {s : State} {f : Fw → Fw} (hn : nd = .gd) (hs : Quiet nd u s) : Quiet nd u ((State.updFw (s) (f))) := by
  subst hn
  refine Quiet.trans hs ?_
  unfold State.updFw
  repeat' first
    | with_reducible exact Quiet.refl _
    | with_reducible rfl
    | ((with_reducible apply State.updGd_quiet); rotate_left; focus (intro t; rfl))

theorem State.fwRefuse_quiet {nd : Node} {u : State} {s : State} {r : Refused} (hn : nd = .gd) (hs : Quiet nd u s) : Quiet nd u ((State.fwRefuse (s) (r))) := by
  subst hn
  refine Quiet.trans hs ?_
  unfold State.fwRefuse
  repeat' first
    | with_reducible exact Quiet.refl _
    | with_reducible rfl
    | (intro x; clear_value x)
    | lift_lets -underBinder
    | with_reducible apply State.logG_quiet
    | with_reducible apply State.updFw_quiet

theorem State.fwLoad_quiet {nd : Node} {u : State} {s : State} {b : List Byte} {inBand : Option Nat} (hn : nd = .gd) (hs : Quiet nd u s) : Quiet nd u ((State.fwLoad (s) (b) (inBand))) := by
  subst hn
  refine Quiet.trans hs ?_
  unfold State.fwLoad
  repeat' first
    | with_reducible exact Quiet.refl _
    | with_reducible rfl
    | (intro x; first | clear_value x | skip)
    | lift_lets -underBinder
    | with_reducible apply Quiet.ite
    | with_reducible apply State.fwRefuse_quiet
    | with_reducible apply State.updFw_quiet
    | split

theorem State.fwWritten_quiet {nd : Node} {u : State} {s : State} {crcOk signatureOk writeOk : Bool} (hn : nd = .gd) (hs : Quiet nd u s) : Quiet nd u ((State.fwWritten (s) (crcOk) (signatureOk) (writeOk))) := by
  subst hn
  refine Quiet.trans hs ?_
  unfold State.fwWritten
  repeat' first
    | with_reducible exact Quiet.refl _
    | with_reducible rfl
    | (intro x; first | (have hf := funext (f := x) (g := x) (fun _ => rfl); clear hf; subst x) | skip)
    | lift_lets -underBinder
    | with_reducible apply Quiet.ite
    | with_reducible apply State.fwRefuse_quiet
    | with_reducible apply State.logG_quiet
    | with_reducible apply State.updFw_quiet
    | split

theorem State.fwEnded_quiet {nd : Node} {u : State} {s : State} (hn : nd = .gd) (hs : Quiet nd u s) : Quiet nd u ((State.fwEnded (s))) := by
  subst hn
  refine Quiet.trans hs ?_
  unfold State.fwEnded
  repeat' first
    | with_reducible exact Quiet.refl _
    | with_reducible rfl
    | ((with_reducible apply State.updCom_quiet); rotate_left; focus (intro t; exact Common.setIrq_time ..))

theorem State.fwRollback_quiet {nd : Node} {u : State} {s : State} {detail : Nat} (hn : nd = .gd) (hs : Quiet nd u s) : Quiet nd u ((State.fwRollback (s) (detail))) := by
  subst hn
  refine Quiet.trans hs ?_
  unfold State.fwRollback
  repeat' first
    | with_reducible exact Quiet.refl _
    | with_reducible rfl
    | with_reducible apply State.fwEnded_quiet
    | with_reducible apply State.logG_quiet

theorem State.fwBusyErr_quiet {nd : Node} {u : State} {s : State} {detail : Nat} (hn : nd = .gd) (hs : Quiet nd u s) : Quiet nd u ((State.fwBusyErr (s) (detail))) := by
  subst hn
  refine Quiet.trans hs ?_
  unfold State.fwBusyErr
  repeat' first
    | with_reducible exact Quiet.refl _
    | with_reducible rfl
    | with_reducible apply State.logG_quiet

theorem State.fwBegin_apart {nd : Node} {u : State} {s : State} {cold : Bool} {version : Option Word} (hn : nd = .gd) (hs : Apart nd u s) : Apart nd u ((State.fwBegin (s) (cold) (version))) := by
  subst hn
  refine Apart.trans hs ?_
  unfold State.fwBegin
  repeat' first
    | with_reducible exact Apart.refl _
    | with_reducible assumption
    | with_reducible rfl
    | (intro x; first | (refine Apart.use (x := x) ?_ (fun hx => ?_); rotate_left; clear_value x; rotate_right; subst x) | clear_value x | skip)
    | lift_lets -underBinder
    | with_reducible apply Apart.ite
    | with_reducible apply State.chipReset_apart
    | with_reducible apply Apart.step (State.fwBusyErr_quiet ?_ (Quiet.refl _))
    | with_reducible apply Apart.step (State.updFw_quiet ?_ (Quiet.refl _))

theorem State.fwActivate_apart {nd : Node} {u : State} {s : State} {cold : Bool} {version : Option Word} (hn : nd = .gd) (hs : Apart nd u s) : Apart nd u ((State.fwActivate (s) (cold) (version))) := by
  subst hn
  refine Apart.trans hs ?_
  unfold State.fwActivate
  repeat' first
    | with_reducible exact Apart.refl _
    | with_reducible rfl
    | (intro x; first | clear_value x | skip)
    | lift_lets -underBinder
    | with_reducible apply Apart.ite
    | with_reducible apply State.fwBegin_apart
    | with_reducible apply Apart.step (State.fwBusyErr_quiet ?_ (Quiet.refl _))
    | with_reducible apply Apart.step (State.updFw_quiet ?_ (Quiet.refl _))

theorem State.fwCommit_quiet {nd : Node} {u : State} {s : State} (hn : nd = .gd) (hs : Quiet nd u s) : Quiet nd u ((State.fwCommit (s))) := by
  subst hn
  refine Quiet.trans hs ?_
  unfold State.fwCommit
  repeat' first
    | with_reducible exact Quiet.refl _
    | with_reducible rfl
    | (intro x; clear_value x)
    | lift_lets -underBinder
    | with_reducible apply State.fwEnded_quiet
    | with_reducible apply State.updFw_quiet
    | split

theorem State.fwUndo_quiet {nd : Node} {u : State} {s : State} (hn : nd = .gd) (hs : Quiet nd u s) : Quiet nd u ((State.fwUndo (s))) := by
  subst hn
  refine Quiet.trans hs ?_
  unfold State.fwUndo
  repeat' first
    | with_reducible exact Quiet.refl _
    | with_reducible rfl
    | (intro x; clear_value x)
    | lift_lets -underBinder
    | with_reducible apply State.updFw_quiet

theorem State.fwRevert_apart {nd : Node} {u : State} {s0 : State} {detail : Nat} (hn : nd = .gd) (hs : Apart nd u s0) : Apart nd u ((State.fwRevert (s0) (detail))) := by
  subst hn
  refine Apart.trans hs ?_
  unfold State.fwRevert
  repeat' first
    | with_reducible exact Apart.refl _
    | with_reducible assumption
    | with_reducible rfl
    | (intro x; first | (refine Apart.use (x := x) ?_ (fun hx => ?_); rotate_left; clear_value x; rotate_right; subst x) | skip)
    | lift_lets -underBinder
    | with_reducible apply Apart.ite
    | with_reducible apply State.chipReset_apart
    | with_reducible apply Apart.step (State.fwRollback_quiet ?_ (Quiet.refl _))
    | with_reducible apply Apart.step (State.fwUndo_quiet ?_ (Quiet.refl _))
    | with_reducible apply Apart.step (State.updFw_quiet ?_ (Quiet.refl _))
    | split

theorem State.fwBoot_quiet {nd : Node} {u : State} {s : State} {other : Bool} (hn : nd = .gd) (hs : Quiet nd u s) : Quiet nd u ((State.fwBoot (s) (other))) := by
  subst hn
  refine Quiet.trans hs ?_
  unfold State.fwBoot
  repeat' first
    | with_reducible exact Quiet.refl _
    | with_reducible assumption
    | with_reducible rfl
    | (intro x; first | (refine Quiet.use (x := x) ?_ (fun hx => ?_); rotate_left; clear_value x; rotate_right; subst x) | (have hf := funext (f := x) (g := x) (fun _ => rfl); clear hf; subst x) | clear_value x | skip)
    | lift_lets -underBinder
    | with_reducible apply Quiet.ite
    | with_reducible apply State.fwRollback_quiet
    | with_reducible apply State.settingsFor_quiet
    | with_reducible apply State.updFw_quiet
    | split

end Sys2Proof.Machine
end

