-- ==== Sys2Proof/Laws/ApartBoot.lean ====
section
/-! SUPPORT. Which part the operations of `Sys2Proof.Machine.Boot` act at, and whether they leave its time alone. -/

namespace Sys2Proof.Machine

open Sys2Proof

set_option linter.unusedVariables false

theorem execDieResetAssert_quiet {nd : Node} {u : State} {s : State} (hn : nd = .tsu) (hs : Quiet nd u s) : Quiet nd u ((State.after (s) (execDieResetAssert (s)))) := by
  subst hn
  refine Quiet.trans hs ?_
  unfold execDieResetAssert
  rw [State.after_next]
  repeat' first
    | with_reducible exact Quiet.refl _
    | with_reducible rfl
    | lift_lets -underBinder
    | with_reducible apply State.unitReset_quiet
    | ((with_reducible apply State.updTsu_quiet); rotate_left; focus (intro t; rfl))

theorem execDieResetRelease_quiet {nd : Node} {u : State} {s : State} (hn : nd = .tsu) (hs : Quiet nd u s) : Quiet nd u ((State.after (s) (execDieResetRelease (s)))) := by
  subst hn
  refine Quiet.trans hs ?_
  unfold execDieResetRelease
  rw [State.after_next]
  repeat' first
    | with_reducible exact Quiet.refl _
    | with_reducible rfl
    | (intro x; first | clear_value x | skip)
    | lift_lets -underBinder
    | with_reducible apply Quiet.ite
    | ((with_reducible apply State.updTsu_quiet); rotate_left; focus (intro t; rfl))

theorem State.powerGood_quiet {nd : Node} {u : State} {s : State} {rootSel sideSel : Bool} (hn : nd = .gd) (hs : Quiet nd u s) : Quiet nd u ((State.powerGood (s) (rootSel) (sideSel))) := by
  subst hn
  refine Quiet.trans hs ?_
  unfold State.powerGood
  repeat' first
    | with_reducible exact Quiet.refl _
    | with_reducible assumption
    | with_reducible rfl
    | (intro x; first | (refine Quiet.use (x := x) ?_ (fun hx => ?_); rotate_left; clear_value x; rotate_right; subst x) | clear_value x)
    | lift_lets -underBinder
    | with_reducible apply State.chipStart_quiet
    | with_reducible apply State.updBoot_quiet
    | ((with_reducible apply State.updGd_quiet); rotate_left; focus (intro t; rfl))

theorem execPowerGood_apart {nd : Node} {u : State} {rootSel sideSel : Bool} {s : State} (hn : nd = .gd) (hs : Apart nd u s) : Apart nd u ((State.after (s) (execPowerGood (rootSel) (sideSel) (s)))) := by
  subst hn
  refine Apart.trans hs ?_
  unfold execPowerGood
  rw [State.after_next]
  repeat' first
    | with_reducible exact Apart.refl _
    | with_reducible assumption
    | with_reducible rfl
    | (intro x; first | (refine Apart.use (x := x) ?_ (fun hx => ?_); rotate_left; clear_value x; rotate_right; subst x) | skip)
    | lift_lets -underBinder
    | with_reducible apply Apart.ite
    | with_reducible apply Apart.step (State.powerGood_quiet ?_ (Quiet.refl _))
    | with_reducible apply State.updGd_apart

theorem execPowerGoodFall_apart {nd : Node} {u : State} {s : State} (hn : nd = .gd) (hs : Apart nd u s) : Apart nd u ((State.after (s) (execPowerGoodFall (s)))) := by
  subst hn
  refine Apart.trans hs ?_
  unfold execPowerGoodFall
  rw [State.after_next]
  repeat' first
    | with_reducible exact Apart.refl _
    | with_reducible rfl
    | with_reducible apply State.updGd_apart

theorem execResetNAssert_apart {nd : Node} {u : State} {s : State} (hn : nd = .gd) (hs : Apart nd u s) : Apart nd u ((State.after (s) (execResetNAssert (s)))) := by
  subst hn
  refine Apart.trans hs ?_
  unfold execResetNAssert
  rw [State.after_next]
  repeat' first
    | with_reducible exact Apart.refl _
    | with_reducible rfl
    | with_reducible apply State.updGd_apart

theorem execResetNRelease_quiet {nd : Node} {u : State} {rootSel sideSel : Bool} {s : State} (hn : nd = .gd) (hs : Quiet nd u s) : Quiet nd u ((State.after (s) (execResetNRelease (rootSel) (sideSel) (s)))) := by
  subst hn
  refine Quiet.trans hs ?_
  unfold execResetNRelease
  rw [State.after_next]
  repeat' first
    | with_reducible exact Quiet.refl _
    | with_reducible assumption
    | with_reducible rfl
    | (intro x; first | (refine Quiet.use (x := x) ?_ (fun hx => ?_); rotate_left; clear_value x; rotate_right; subst x) | clear_value x | skip)
    | lift_lets -underBinder
    | with_reducible apply Quiet.ite
    | with_reducible apply State.powerGood_quiet
    | ((with_reducible apply State.updGd_quiet); rotate_left; focus (intro t; rfl))

theorem execChipRst_apart {nd : Node} {u : State} {s : State} (hn : nd = .gd) (hs : Apart nd u s) : Apart nd u ((State.after (s) (execChipRst (s)))) := by
  subst hn
  refine Apart.trans hs ?_
  unfold execChipRst
  rw [State.after_next]
  repeat' first
    | with_reducible exact Apart.refl _
    | with_reducible rfl
    | with_reducible apply State.chipReset_apart

theorem execWatchdogExpiry_apart {nd : Node} {u : State} {s : State} (hn : nd = .gd) (hs : Apart nd u s) : Apart nd u ((State.after (s) (execWatchdogExpiry (s)))) := by
  subst hn
  refine Apart.trans hs ?_
  unfold execWatchdogExpiry
  rw [State.after_next]
  repeat' first
    | with_reducible exact Apart.refl _
    | with_reducible rfl
    | with_reducible apply State.chipReset_apart

theorem State.fusedLane_quiet {nd : Node} {u : State} {s : State} (hn : nd = .tsu) (hs : Quiet nd u s) : Quiet nd u ((State.fusedLane (s))) := by
  subst hn
  refine Quiet.trans hs ?_
  unfold State.fusedLane
  repeat' first
    | with_reducible exact Quiet.refl _
    | with_reducible assumption
    | with_reducible rfl
    | (intro x; first | (refine Quiet.use (x := x) ?_ (fun hx => ?_); rotate_left; clear_value x; rotate_right; subst x) | skip)
    | lift_lets -underBinder
    | with_reducible apply Quiet.ite
    | with_reducible apply State.healthSend_quiet
    | with_reducible apply State.logT_quiet
    | with_reducible apply State.setEvt_quiet
    | ((with_reducible apply State.updCom_quiet); rotate_left; focus (intro t; rfl))

theorem State.restartOut_quiet {nd : Node} {u : State} {s : State} (hn : nd = .tsu) (hs : Quiet nd u s) : Quiet nd u ((State.restartOut (s))) := by
  subst hn
  refine Quiet.trans hs ?_
  unfold State.restartOut
  repeat' first
    | with_reducible exact Quiet.refl _
    | with_reducible rfl
    | (intro x; first | clear_value x | skip)
    | lift_lets -underBinder
    | with_reducible apply State.send_quiet
    | with_reducible apply Quiet.foldl

theorem State.openCurrent_apart {nd : Node} {u : State} {s : State} (hn : nd = .gd) (hs : Apart nd u s) : Apart nd u ((State.openCurrent (s))) := by
  subst hn
  refine Apart.trans hs ?_
  unfold State.openCurrent
  repeat' first
    | with_reducible exact Apart.refl _
    | with_reducible rfl
    | with_reducible apply Apart.ite
    | with_reducible apply State.openPorts_apart
    | split
    | intro x

theorem State.phaseWork_apart {nd : Node} {u : State} {s : State} {n : Node} {phase : Nat} (h_n : n = nd) (hs : Apart nd u s) : Apart nd u ((State.phaseWork (s) (n) (phase))) := by
  refine Apart.trans hs ?_
  unfold State.phaseWork
  repeat' first
    | with_reducible exact Apart.refl _
    | (with_reducible refine (?_ : (_ : Node) = _); first | rfl | assumption | (simp_all only []; done) | (simp_all; done) | (cases nd <;> simp_all; done))
    | intro x
    | lift_lets -underBinder
    | with_reducible apply Apart.ite
    | with_reducible apply Apart.step (State.fullCensus_quiet ?_ (Quiet.refl _))
    | with_reducible apply Apart.step (State.fusedLane_quiet ?_ (Quiet.refl _))
    | with_reducible apply Apart.step (State.fwBoot_quiet ?_ (Quiet.refl _))
    | with_reducible apply State.openCurrent_apart
    | with_reducible apply Apart.step (State.restartOut_quiet ?_ (Quiet.refl _))
    | with_reducible apply State.updTsu_apart
    | with_reducible apply State.updGd_apart
    | split

theorem State.phasePass_apart {nd : Node} {u : State} {s : State} {n : Node} (h_n : n = nd) (hs : Apart nd u s) : Apart nd u ((State.phasePass (s) (n))) := by
  refine Apart.trans hs ?_
  unfold State.phasePass
  repeat' first
    | with_reducible exact Apart.refl _
    | with_reducible assumption
    | (intro x; first | (refine Apart.use (x := x) ?_ (fun hx => ?_); rotate_left; clear_value x; rotate_right; subst x) | clear_value x)
    | lift_lets -underBinder
    | with_reducible apply Apart.step (State.bootMsLatch_quiet ?_ (Quiet.refl _))
    | with_reducible apply State.phaseWork_apart
    | with_reducible apply Apart.step (State.report_quiet ?_ (Quiet.refl _))
    | with_reducible apply Apart.step (State.updBoot_quiet ?_ (Quiet.refl _))

theorem State.bootPhasePass_apart {nd : Node} {u : State} {s : State} {n : Node} (h_n : n = nd) (hs : Apart nd u s) : Apart nd u ((State.bootPhasePass (s) (n))) := by
  refine Apart.trans hs ?_
  unfold State.bootPhasePass
  repeat' first
    | with_reducible exact Apart.refl _
    | with_reducible assumption
    | (intro x; first | (refine Apart.use (x := x) ?_ (fun hx => ?_); rotate_left; clear_value x; rotate_right; subst x) | skip)
    | lift_lets -underBinder
    | with_reducible apply Apart.ite
    | with_reducible apply State.phasePass_apart

theorem execBootPhasePass_apart {nd : Node} {u : State} {n : Node} {s : State} (h_n : n = nd) (hs : Apart nd u s) : Apart nd u ((State.after (s) (execBootPhasePass (n) (s)))) := by
  refine Apart.trans hs ?_
  unfold execBootPhasePass
  rw [State.after_next]
  repeat' first
    | with_reducible exact Apart.refl _
    | with_reducible assumption
    | with_reducible apply State.bootPhasePass_apart

theorem State.bootPhaseTimeout_quiet {nd : Node} {u : State} {s : State} {n : Node} (h_n : n = nd) (hs : Quiet nd u s) : Quiet nd u ((State.bootPhaseTimeout (s) (n))) := by
  refine Quiet.trans hs ?_
  unfold State.bootPhaseTimeout
  repeat' first
    | with_reducible exact Quiet.refl _
    | with_reducible assumption
    | (with_reducible refine (?_ : (_ : Node) = _); first | rfl | assumption | (simp_all only []; done) | (simp_all; done) | (cases nd <;> simp_all; done))
    | (intro x; first | (refine Quiet.use (x := x) ?_ (fun hx => ?_); rotate_left; clear_value x; rotate_right; subst x) | clear_value x | skip)
    | lift_lets -underBinder
    | with_reducible apply Quiet.ite
    | with_reducible apply State.report_quiet
    | with_reducible apply State.updBoot_quiet
    | ((with_reducible apply State.updGd_quiet); rotate_left; focus (intro t; rfl))
    | split

theorem execBootPhaseTimeout_quiet {nd : Node} {u : State} {n : Node} {s : State} (h_n : n = nd) (hs : Quiet nd u s) : Quiet nd u ((State.after (s) (execBootPhaseTimeout (n) (s)))) := by
  refine Quiet.trans hs ?_
  unfold execBootPhaseTimeout
  rw [State.after_next]
  repeat' first
    | with_reducible exact Quiet.refl _
    | with_reducible assumption
    | with_reducible apply State.bootPhaseTimeout_quiet

theorem State.stageWork_apart {nd : Node} {u : State} {s : State} {stage : Nat} {degraded : Bool} (hn : nd = .gd) (hs : Apart nd u s) : Apart nd u ((State.stageWork (s) (stage) (degraded))) := by
  subst hn
  refine Apart.trans hs ?_
  unfold State.stageWork
  repeat' first
    | with_reducible exact Apart.refl _
    | with_reducible rfl
    | lift_lets -underBinder
    | with_reducible apply Apart.step (State.fullCensus_quiet ?_ (Quiet.refl _))
    | with_reducible apply Apart.step (State.fwBoot_quiet ?_ (Quiet.refl _))
    | with_reducible apply State.openCurrent_apart
    | with_reducible apply Apart.step (State.updBoot_quiet ?_ (Quiet.refl _))
    | with_reducible apply State.updGd_apart
    | split

theorem State.bootStageEnd_apart {nd : Node} {u : State} {s : State} {e : StageEnd} {code count : Nat} {detail : Word} (hn : nd = .gd) (hs : Apart nd u s) : Apart nd u ((State.bootStageEnd (s) (e) (code) (count) (detail))) := by
  subst hn
  refine Apart.trans hs ?_
  unfold State.bootStageEnd
  repeat' first
    | with_reducible exact Apart.refl _
    | with_reducible rfl
    | (intro x; first | (have hf := funext (f := x) (g := x) (fun _ => rfl); clear hf; subst x) | clear_value x | skip)
    | lift_lets -underBinder
    | with_reducible apply Apart.ite
    | with_reducible apply Apart.step (State.bootMsLatch_quiet ?_ (Quiet.refl _))
    | with_reducible apply State.fwRevert_apart
    | with_reducible apply Apart.step (State.report_quiet ?_ (Quiet.refl _))
    | with_reducible apply State.stageWork_apart
    | with_reducible apply Apart.step (State.updBoot_quiet ?_ (Quiet.refl _))
    | split

theorem execBootStageEnd_apart {nd : Node} {u : State} {e : StageEnd} {code count : Nat} {detail : Word} {s : State} (hn : nd = .gd) (hs : Apart nd u s) : Apart nd u ((State.after (s) (execBootStageEnd (e) (code) (count) (detail) (s)))) := by
  subst hn
  refine Apart.trans hs ?_
  unfold execBootStageEnd
  rw [State.after_next]
  repeat' first
    | with_reducible exact Apart.refl _
    | with_reducible rfl
    | with_reducible apply State.bootStageEnd_apart

end Sys2Proof.Machine
end

