-- ==== Sys2Proof/Laws/ApartBulk.lean ====
section
/-! SUPPORT. Which part the operations of `Sys2Proof.Machine.Bulk` act at, and whether they leave its time alone. -/

namespace Sys2Proof.Machine

open Sys2Proof

set_option linter.unusedVariables false

theorem State.setBulk_quiet {nd : Node} {u : State} {s : State} {n : Node} {o : Nat} {x : BulkRx} (h_n : n = nd) (hs : Quiet nd u s) : Quiet nd u ((State.setBulk (s) (n) (o) (x))) := by
  refine Quiet.trans hs ?_
  unfold State.setBulk
  repeat' first
    | with_reducible exact Quiet.refl _
    | with_reducible assumption
    | ((with_reducible apply State.updCom_quiet); rotate_left; focus (intro t; rfl))

theorem State.delBulk_quiet {nd : Node} {u : State} {s : State} {n : Node} {o : Nat} (h_n : n = nd) (hs : Quiet nd u s) : Quiet nd u ((State.delBulk (s) (n) (o))) := by
  refine Quiet.trans hs ?_
  unfold State.delBulk
  repeat' first
    | with_reducible exact Quiet.refl _
    | with_reducible assumption
    | ((with_reducible apply State.updCom_quiet); rotate_left; focus (intro t; rfl))

theorem State.feedTo_quiet {nd : Node} {u : State} {s : State} {ports : List Nat} {fs : List Frame} (hn : nd = .gd) (hs : Quiet nd u s) : Quiet nd u ((State.feedTo (s) (ports) (fs))) := by
  subst hn
  refine Quiet.trans hs ?_
  unfold State.feedTo
  repeat' first
    | with_reducible exact Quiet.refl _
    | with_reducible rfl
    | intro x
    | lift_lets -underBinder
    | with_reducible apply State.sendAll_quiet
    | with_reducible apply Quiet.foldl

theorem State.microcodeTake_quiet {nd : Node} {u : State} {s : State} {b : List Byte} (hn : nd = .tsu) (hs : Quiet nd u s) : Quiet nd u ((State.microcodeTake (s) (b))) := by
  subst hn
  refine Quiet.trans hs ?_
  unfold State.microcodeTake
  repeat' first
    | with_reducible exact Quiet.refl _
    | with_reducible rfl
    | intro x
    | lift_lets -underBinder
    | with_reducible apply Quiet.ite
    | with_reducible apply State.tsuRefuse_quiet
    | ((with_reducible apply State.updTsu_quiet); rotate_left; focus (intro t; rfl))
    | split

theorem State.engineTake_quiet {nd : Node} {u : State} {s : State} {b : List Byte} (hn : nd = .tsu) (hs : Quiet nd u s) : Quiet nd u ((State.engineTake (s) (b))) := by
  subst hn
  refine Quiet.trans hs ?_
  unfold State.engineTake
  repeat' first
    | with_reducible exact Quiet.refl _
    | with_reducible rfl
    | with_reducible apply State.nwWrite_quiet
    | with_reducible apply State.tsuRefuse_quiet
    | split

theorem State.tsuLoad_apart {nd : Node} {u : State} {s : State} {x : BulkRx} (hn : nd = .tsu) (hs : Apart nd u s) : Apart nd u ((State.tsuLoad (s) (x))) := by
  subst hn
  refine Apart.trans hs ?_
  unfold State.tsuLoad
  repeat' first
    | with_reducible exact Apart.refl _
    | with_reducible rfl
    | (intro x; clear_value x)
    | lift_lets -underBinder
    | with_reducible apply Apart.step (State.engineTake_quiet ?_ (Quiet.refl _))
    | with_reducible apply State.extractTake_apart
    | with_reducible apply Apart.step (State.microcodeTake_quiet ?_ (Quiet.refl _))
    | with_reducible apply Apart.step (State.schedLoaded_quiet ?_ (Quiet.refl _))
    | with_reducible apply Apart.step (State.tsuRefuse_quiet ?_ (Quiet.refl _))
    | split

theorem State.schedKeep_quiet {nd : Node} {u : State} {s : State} {b : List Byte} (hn : nd = .gd) (hs : Quiet nd u s) : Quiet nd u ((State.schedKeep (s) (b))) := by
  subst hn
  refine Quiet.trans hs ?_
  unfold State.schedKeep
  repeat' first
    | with_reducible exact Quiet.refl _
    | with_reducible rfl
    | (intro x; first | clear_value x | skip)
    | lift_lets -underBinder
    | with_reducible apply Quiet.ite
    | with_reducible apply State.gdRefuse_quiet
    | ((with_reducible apply State.updGd_quiet); rotate_left; focus (intro t; exact Gd.hold_time ..))
    | split

theorem State.gdLoad_apart {nd : Node} {u : State} {s : State} {x : BulkRx} (hn : nd = .gd) (hs : Apart nd u s) : Apart nd u ((State.gdLoad (s) (x))) := by
  subst hn
  refine Apart.trans hs ?_
  unfold State.gdLoad
  repeat' first
    | with_reducible exact Apart.refl _
    | with_reducible rfl
    | with_reducible apply Apart.step (State.fwLoad_quiet ?_ (Quiet.refl _))
    | with_reducible apply Apart.step (State.schedKeep_quiet ?_ (Quiet.refl _))
    | with_reducible apply State.treeTake_apart
    | split

theorem State.bulkTry_apart {nd : Node} {u : State} {s : State} {n : Node} {o : Nat} (h_n : n = nd) (hs : Apart nd u s) : Apart nd u ((State.bulkTry (s) (n) (o))) := by
  refine Apart.trans hs ?_
  unfold State.bulkTry
  repeat' first
    | with_reducible exact Apart.refl _
    | with_reducible assumption
    | (with_reducible refine (?_ : (_ : Node) = _); first | rfl | assumption | (simp_all only []; done) | (simp_all; done) | (cases nd <;> simp_all; done))
    | (intro x; first | (refine Apart.use (x := x) ?_ (fun hx => ?_); rotate_left; clear_value x; rotate_right; subst x) | skip)
    | lift_lets -underBinder
    | with_reducible apply Apart.ite
    | with_reducible apply State.gdLoad_apart
    | with_reducible apply Apart.step (State.setBulk_quiet ?_ (Quiet.refl _))
    | with_reducible apply State.tsuLoad_apart
    | split

theorem State.bulkRefuse_quiet {nd : Node} {u : State} {s : State} {n : Node} {reason : Nat} (h_n : n = nd) (hs : Quiet nd u s) : Quiet nd u ((State.bulkRefuse (s) (n) (reason))) := by
  refine Quiet.trans hs ?_
  unfold State.bulkRefuse
  repeat' first
    | with_reducible exact Quiet.refl _
    | (with_reducible refine (?_ : (_ : Node) = _); first | rfl | assumption | (simp_all only []; done) | (simp_all; done) | (cases nd <;> simp_all; done))
    | with_reducible apply State.gdRefuse_quiet
    | with_reducible apply State.tsuRefuse_quiet
    | split

theorem State.bulkOpenRx_apart {nd : Node} {u : State} {s : State} {l : LinkId} {rx : Rx} (h_l : l.node = nd) (hs : Apart nd u s) : Apart nd u ((State.bulkOpenRx (s) (l) (rx))) := by
  refine Apart.trans hs ?_
  unfold State.bulkOpenRx
  repeat' first
    | with_reducible exact Apart.refl _
    | with_reducible assumption
    | (with_reducible refine (?_ : (_ : Node) = _); first | rfl | assumption | (simp_all only []; done) | (simp_all; done) | (cases nd <;> simp_all; done))
    | (intro x; first | clear_value x | skip)
    | lift_lets -underBinder
    | with_reducible apply Apart.ite
    | with_reducible apply Apart.step (State.bulkRefuse_quiet ?_ (Quiet.refl _))
    | with_reducible apply Apart.step (State.feedTo_quiet ?_ (Quiet.refl _))
    | with_reducible apply Apart.step (State.malformed_quiet ?_ (Quiet.refl _))
    | with_reducible apply State.receive_apart
    | with_reducible apply Apart.step (State.setBulk_quiet ?_ (Quiet.refl _))
    | split
    | with_reducible refine Apart.ofPair (by with_reducible assumption) ?_

theorem execBulkOpenRx_apart {nd : Node} {u : State} {l : LinkId} {rx : Rx} {s : State} (h_l : l.node = nd) (hs : Apart nd u s) : Apart nd u ((State.after (s) (execBulkOpenRx (l) (rx) (s)))) := by
  refine Apart.trans hs ?_
  unfold execBulkOpenRx
  rw [State.after_next]
  repeat' first
    | with_reducible exact Apart.refl _
    | with_reducible assumption
    | with_reducible apply State.bulkOpenRx_apart

theorem State.bulkData_apart {nd : Node} {u : State} {s : State} {n : Node} {o : Nat} {x : BulkRx} {c fr : Nat} {data : List Byte} (h_n : n = nd) (hs : Apart nd u s) : Apart nd u ((State.bulkData (s) (n) (o) (x) (c) (fr) (data))) := by
  refine Apart.trans hs ?_
  unfold State.bulkData
  repeat' first
    | with_reducible exact Apart.refl _
    | with_reducible assumption
    | (with_reducible refine (?_ : (_ : Node) = _); first | rfl | assumption | (simp_all only []; done) | (simp_all; done) | (cases nd <;> simp_all; done))
    | (intro x; first | (refine Apart.use (x := x) ?_ (fun hx => ?_); rotate_left; clear_value x; rotate_right; subst x) | clear_value x | skip)
    | lift_lets -underBinder
    | with_reducible apply Apart.ite
    | with_reducible apply State.bulkTry_apart
    | with_reducible apply Apart.step (State.feedTo_quiet ?_ (Quiet.refl _))
    | with_reducible apply Apart.step (State.setBulk_quiet ?_ (Quiet.refl _))

theorem State.bulkDataRx_apart {nd : Node} {u : State} {s : State} {l : LinkId} {rx : Rx} (h_l : l.node = nd) (hs : Apart nd u s) : Apart nd u ((State.bulkDataRx (s) (l) (rx))) := by
  refine Apart.trans hs ?_
  unfold State.bulkDataRx
  repeat' first
    | with_reducible exact Apart.refl _
    | with_reducible assumption
    | (intro x; first | clear_value x | skip)
    | lift_lets -underBinder
    | with_reducible apply Apart.ite
    | with_reducible apply State.bulkData_apart
    | with_reducible apply Apart.step (State.malformed_quiet ?_ (Quiet.refl _))
    | with_reducible apply State.receive_apart
    | split
    | with_reducible refine Apart.ofPair (by with_reducible assumption) ?_

theorem execBulkDataRx_apart {nd : Node} {u : State} {l : LinkId} {rx : Rx} {s : State} (h_l : l.node = nd) (hs : Apart nd u s) : Apart nd u ((State.after (s) (execBulkDataRx (l) (rx) (s)))) := by
  refine Apart.trans hs ?_
  unfold execBulkDataRx
  rw [State.after_next]
  repeat' first
    | with_reducible exact Apart.refl _
    | with_reducible assumption
    | with_reducible apply State.bulkDataRx_apart

theorem State.bulkCloseRx_apart {nd : Node} {u : State} {s : State} {l : LinkId} {rx : Rx} (h_l : l.node = nd) (hs : Apart nd u s) : Apart nd u ((State.bulkCloseRx (s) (l) (rx))) := by
  refine Apart.trans hs ?_
  unfold State.bulkCloseRx
  repeat' first
    | with_reducible exact Apart.refl _
    | with_reducible assumption
    | (with_reducible refine (?_ : (_ : Node) = _); first | rfl | assumption | (simp_all only []; done) | (simp_all; done) | (cases nd <;> simp_all; done))
    | (intro x; first | (refine Apart.use (x := x) ?_ (fun hx => ?_); rotate_left; clear_value x; rotate_right; subst x) | clear_value x | skip)
    | lift_lets -underBinder
    | with_reducible apply Apart.ite
    | with_reducible apply State.bulkTry_apart
    | with_reducible apply Apart.step (State.feedTo_quiet ?_ (Quiet.refl _))
    | with_reducible apply Apart.step (State.malformed_quiet ?_ (Quiet.refl _))
    | with_reducible apply State.receive_apart
    | with_reducible apply Apart.step (State.setBulk_quiet ?_ (Quiet.refl _))
    | split
    | with_reducible refine Apart.ofPair (by with_reducible assumption) ?_

theorem execBulkCloseRx_apart {nd : Node} {u : State} {l : LinkId} {rx : Rx} {s : State} (h_l : l.node = nd) (hs : Apart nd u s) : Apart nd u ((State.after (s) (execBulkCloseRx (l) (rx) (s)))) := by
  refine Apart.trans hs ?_
  unfold execBulkCloseRx
  rw [State.after_next]
  repeat' first
    | with_reducible exact Apart.refl _
    | with_reducible assumption
    | with_reducible apply State.bulkCloseRx_apart

theorem State.bulkChunkDrop_quiet {nd : Node} {u : State} {s : State} {object chunk port : Nat} (hn : nd = .gd) (hs : Quiet nd u s) : Quiet nd u ((State.bulkChunkDrop (s) (object) (chunk) (port))) := by
  subst hn
  refine Quiet.trans hs ?_
  unfold State.bulkChunkDrop
  repeat' first
    | with_reducible exact Quiet.refl _
    | with_reducible assumption
    | with_reducible rfl
    | (intro x; first | (refine Quiet.use (x := x) ?_ (fun hx => ?_); rotate_left; clear_value x; rotate_right; subst x) | (have hf := funext (f := x) (g := x) (fun _ => rfl); clear hf; subst x) | clear_value x | skip)
    | lift_lets -underBinder
    | with_reducible apply Quiet.ite
    | with_reducible apply State.logG_quiet
    | ((with_reducible apply State.updCom_quiet); rotate_left; focus (intro t; rfl))
    | with_reducible apply State.updLink_quiet

theorem execBulkChunkDrop_quiet {nd : Node} {u : State} {object chunk port : Nat} {s : State} (hn : nd = .gd) (hs : Quiet nd u s) : Quiet nd u ((State.after (s) (execBulkChunkDrop (object) (chunk) (port) (s)))) := by
  subst hn
  refine Quiet.trans hs ?_
  unfold execBulkChunkDrop
  rw [State.after_next]
  repeat' first
    | with_reducible exact Quiet.refl _
    | with_reducible rfl
    | with_reducible apply State.bulkChunkDrop_quiet

theorem execBulkRxTimeout_apart {nd : Node} {u : State} {n : Node} {object : Nat} {s : State} (h_n : n = nd) (hs : Apart nd u s) : Apart nd u ((State.after (s) (execBulkRxTimeout (n) (object) (s)))) := by
  refine Apart.trans hs ?_
  unfold execBulkRxTimeout
  rw [State.after_next]
  repeat' first
    | with_reducible exact Apart.refl _
    | with_reducible assumption
    | with_reducible apply Apart.ite
    | with_reducible apply State.bulkTry_apart
    | with_reducible apply Apart.step (State.setBulk_quiet ?_ (Quiet.refl _))
    | split
    | intro x

theorem execBulkObjectExpiry_quiet {nd : Node} {u : State} {n : Node} {object : Nat} {s : State} (h_n : n = nd) (hs : Quiet nd u s) : Quiet nd u ((State.after (s) (execBulkObjectExpiry (n) (object) (s)))) := by
  refine Quiet.trans hs ?_
  unfold execBulkObjectExpiry
  rw [State.after_next]
  repeat' first
    | with_reducible exact Quiet.refl _
    | with_reducible assumption
    | with_reducible apply Quiet.ite
    | with_reducible apply State.delBulk_quiet
    | with_reducible apply State.log_quiet
    | split
    | intro x

theorem execChunkCacheExpiry_quiet {nd : Node} {u : State} {object : Nat} {s : State} (hn : nd = .gd) (hs : Quiet nd u s) : Quiet nd u ((State.after (s) (execChunkCacheExpiry (object) (s)))) := by
  subst hn
  refine Quiet.trans hs ?_
  unfold execChunkCacheExpiry
  rw [State.after_next]
  repeat' first
    | with_reducible exact Quiet.refl _
    | with_reducible rfl
    | with_reducible apply Quiet.ite
    | with_reducible apply State.delBulk_quiet
    | split
    | intro x

theorem State.resendOn_quiet {nd : Node} {u : State} {s : State} {o : Nat} {x : BulkRx} {p : Nat} {anew : Bool} {chunks : List Nat} (hn : nd = .gd) (hs : Quiet nd u s) : Quiet nd u ((State.resendOn (s) (o) (x) (p) (anew) (chunks))) := by
  subst hn
  refine Quiet.trans hs ?_
  unfold State.resendOn
  repeat' first
    | with_reducible exact Quiet.refl _
    | with_reducible rfl
    | (intro x; first | clear_value x | skip)
    | lift_lets -underBinder
    | with_reducible apply Quiet.ite
    | with_reducible apply State.sendAll_quiet

theorem State.roundDone_quiet {nd : Node} {u : State} {s : State} {x : Origin} (hn : nd = .gd) (hs : Quiet nd u s) : Quiet nd u ((State.roundDone (s) (x))) := by
  subst hn
  refine Quiet.trans hs ?_
  unfold State.roundDone
  repeat' first
    | with_reducible exact Quiet.refl _
    | with_reducible assumption
    | with_reducible rfl
    | (intro x; first | (refine Quiet.use (x := x) ?_ (fun hx => ?_); rotate_left; clear_value x; rotate_right; subst x) | (have hf := funext (f := x) (g := x) (fun _ => rfl); clear hf; subst x) | clear_value x | skip)
    | lift_lets -underBinder
    | with_reducible apply Quiet.ite
    | with_reducible apply State.feedTo_quiet
    | with_reducible apply State.logG_quiet
    | ((with_reducible apply State.updGd_quiet); rotate_left; focus (intro t; rfl))

theorem State.originAnswer_quiet {nd : Node} {u : State} {s : State} {e : RollEntry} (hn : nd = .gd) (hs : Quiet nd u s) : Quiet nd u ((State.originAnswer (s) (e))) := by
  subst hn
  refine Quiet.trans hs ?_
  unfold State.originAnswer
  repeat' first
    | with_reducible exact Quiet.refl _
    | with_reducible assumption
    | with_reducible rfl
    | (intro x; (refine Quiet.use (x := x) ?_ (fun hx => ?_); rotate_left; clear_value x; rotate_right; subst x))
    | lift_lets -underBinder
    | with_reducible apply State.roundDone_quiet
    | ((with_reducible apply State.updGd_quiet); rotate_left; focus (intro t; rfl))
    | split

theorem State.rollAnswer_quiet {nd : Node} {u : State} {s : State} {e : RollEntry} (hn : nd = .gd) (hs : Quiet nd u s) : Quiet nd u ((State.rollAnswer (s) (e))) := by
  subst hn
  refine Quiet.trans hs ?_
  unfold State.rollAnswer
  repeat' first
    | with_reducible exact Quiet.refl _
    | with_reducible assumption
    | with_reducible rfl
    | (intro x; first | (refine Quiet.use (x := x) ?_ (fun hx => ?_); rotate_left; clear_value x; rotate_right; subst x) | clear_value x | skip)
    | lift_lets -underBinder
    | with_reducible apply Quiet.ite
    | with_reducible apply State.originAnswer_quiet
    | with_reducible apply State.send_quiet
    | ((with_reducible apply State.updGd_quiet); rotate_left; focus (intro t; rfl))

theorem State.rollOpen_quiet {nd : Node} {u : State} {s : State} {e : RollEntry} {ask : Frame} (hn : nd = .gd) (hs : Quiet nd u s) : Quiet nd u ((State.rollOpen (s) (e) (ask))) := by
  subst hn
  refine Quiet.trans hs ?_
  unfold State.rollOpen
  repeat' first
    | with_reducible exact Quiet.refl _
    | with_reducible assumption
    | with_reducible rfl
    | (intro x; first | (refine Quiet.use (x := x) ?_ (fun hx => ?_); rotate_left; clear_value x; rotate_right; subst x) | (have hf := funext (f := x) (g := x) (fun _ => rfl); clear hf; subst x) | skip)
    | lift_lets -underBinder
    | with_reducible apply Quiet.ite
    | with_reducible apply State.logG_quiet
    | with_reducible apply State.rollAnswer_quiet
    | with_reducible apply State.send_quiet
    | ((with_reducible apply State.updGd_quiet); rotate_left; focus (intro t; rfl))
    | with_reducible apply Quiet.foldl
    | split

theorem State.gdRollAsk_apart {nd : Node} {u : State} {s : State} {l : LinkId} {f : Frame} (h_l : l.node = nd) (hn : nd = .gd) (hs : Apart nd u s) : Apart nd u ((State.gdRollAsk (s) (l) (f))) := by
  subst hn
  refine Apart.trans hs ?_
  unfold State.gdRollAsk
  repeat' first
    | with_reducible exact Apart.refl _
    | with_reducible assumption
    | with_reducible rfl
    | (intro x; first | clear_value x | skip)
    | lift_lets -underBinder
    | with_reducible apply Apart.ite
    | with_reducible apply Apart.step (State.rollOpen_quiet ?_ (Quiet.refl _))
    | with_reducible apply Apart.step (State.send_quiet ?_ (Quiet.refl _))

theorem State.rollAskRx_apart {nd : Node} {u : State} {s : State} {l : LinkId} {rx : Rx} (h_l : l.node = nd) (hs : Apart nd u s) : Apart nd u ((State.rollAskRx (s) (l) (rx))) := by
  refine Apart.trans hs ?_
  unfold State.rollAskRx
  repeat' first
    | with_reducible exact Apart.refl _
    | with_reducible assumption
    | (with_reducible refine (?_ : (_ : Node) = _); first | rfl | assumption | (simp_all only []; done) | (simp_all; done) | (cases nd <;> simp_all; done))
    | with_reducible apply Apart.ite
    | with_reducible apply State.gdRollAsk_apart
    | with_reducible apply Apart.step (State.malformed_quiet ?_ (Quiet.refl _))
    | with_reducible apply State.receive_apart
    | with_reducible apply Apart.step (State.send_quiet ?_ (Quiet.refl _))
    | split
    | with_reducible refine Apart.ofPair (by with_reducible assumption) ?_
    | intro x

theorem execRollcallAskRx_apart {nd : Node} {u : State} {l : LinkId} {rx : Rx} {s : State} (h_l : l.node = nd) (hs : Apart nd u s) : Apart nd u ((State.after (s) (execRollcallAskRx (l) (rx) (s)))) := by
  refine Apart.trans hs ?_
  unfold execRollcallAskRx
  rw [State.after_next]
  repeat' first
    | with_reducible exact Apart.refl _
    | with_reducible assumption
    | with_reducible apply State.rollAskRx_apart

theorem State.rollCombine_quiet {nd : Node} {u : State} {s : State} {e : RollEntry} {p : Nat} {f : Frame} {map : List Byte} (hn : nd = .gd) (hs : Quiet nd u s) : Quiet nd u ((State.rollCombine (s) (e) (p) (f) (map))) := by
  subst hn
  refine Quiet.trans hs ?_
  unfold State.rollCombine
  repeat' first
    | with_reducible exact Quiet.refl _
    | with_reducible assumption
    | with_reducible rfl
    | (intro x; first | (refine Quiet.use (x := x) ?_ (fun hx => ?_); rotate_left; clear_value x; rotate_right; subst x) | clear_value x | skip)
    | lift_lets -underBinder
    | with_reducible apply Quiet.ite
    | with_reducible apply State.resendOn_quiet
    | with_reducible apply State.rollAnswer_quiet
    | ((with_reducible apply State.updGd_quiet); rotate_left; focus (intro t; rfl))
    | split

theorem State.rollAnsRx_apart {nd : Node} {u : State} {s : State} {l : LinkId} {rx : Rx} (h_l : l.node = nd) (hs : Apart nd u s) : Apart nd u ((State.rollAnsRx (s) (l) (rx))) := by
  refine Apart.trans hs ?_
  unfold State.rollAnsRx
  repeat' first
    | with_reducible exact Apart.refl _
    | with_reducible assumption
    | (with_reducible refine (?_ : (_ : Node) = _); first | rfl | assumption | (simp_all only []; done) | (simp_all; done) | (cases nd <;> simp_all; done))
    | (intro x; first | clear_value x | skip)
    | lift_lets -underBinder
    | with_reducible apply Apart.ite
    | with_reducible apply Apart.step (State.chain_quiet ?_ (Quiet.refl _))
    | with_reducible apply Apart.step (State.malformed_quiet ?_ (Quiet.refl _))
    | with_reducible apply State.receive_apart
    | with_reducible apply Apart.step (State.rollCombine_quiet ?_ (Quiet.refl _))
    | split
    | with_reducible refine Apart.ofPair (by with_reducible assumption) ?_

theorem execRollcallAnsRx_apart {nd : Node} {u : State} {l : LinkId} {rx : Rx} {s : State} (h_l : l.node = nd) (hs : Apart nd u s) : Apart nd u ((State.after (s) (execRollcallAnsRx (l) (rx) (s)))) := by
  refine Apart.trans hs ?_
  unfold execRollcallAnsRx
  rw [State.after_next]
  repeat' first
    | with_reducible exact Apart.refl _
    | with_reducible assumption
    | with_reducible apply State.rollAnsRx_apart

theorem execRollWaitExpiry_quiet {nd : Node} {u : State} {key : Nat} {s : State} (hn : nd = .gd) (hs : Quiet nd u s) : Quiet nd u ((State.after (s) (execRollWaitExpiry (key) (s)))) := by
  subst hn
  refine Quiet.trans hs ?_
  unfold execRollWaitExpiry
  rw [State.after_next]
  repeat' first
    | with_reducible exact Quiet.refl _
    | with_reducible rfl
    | with_reducible apply Quiet.ite
    | with_reducible apply State.rollAnswer_quiet
    | split
    | intro x

theorem State.rollRound_quiet {nd : Node} {u : State} {s : State} {object : Nat} (hn : nd = .gd) (hs : Quiet nd u s) : Quiet nd u ((State.rollRound (s) (object))) := by
  subst hn
  refine Quiet.trans hs ?_
  unfold State.rollRound
  repeat' first
    | with_reducible exact Quiet.refl _
    | with_reducible assumption
    | with_reducible rfl
    | (intro x; first | (refine Quiet.use (x := x) ?_ (fun hx => ?_); rotate_left; clear_value x; rotate_right; subst x) | clear_value x | skip)
    | lift_lets -underBinder
    | with_reducible apply Quiet.ite
    | with_reducible apply State.rollOpen_quiet
    | ((with_reducible apply State.updGd_quiet); rotate_left; focus (intro t; rfl))
    | with_reducible apply Quiet.foldl
    | split

theorem execRollCallRound_quiet {nd : Node} {u : State} {object : Nat} {s : State} (hn : nd = .gd) (hs : Quiet nd u s) : Quiet nd u ((State.after (s) (execRollCallRound (object) (s)))) := by
  subst hn
  refine Quiet.trans hs ?_
  unfold execRollCallRound
  rw [State.after_next]
  repeat' first
    | with_reducible exact Quiet.refl _
    | with_reducible rfl
    | with_reducible apply State.rollRound_quiet

end Sys2Proof.Machine
end

