-- ==== Sys2Proof/Laws/ApartHealth.lean ====
section
/-! SUPPORT. Which part the operations of `Sys2Proof.Machine.Health` act at, and whether they leave its time alone. -/

namespace Sys2Proof.Machine

open Sys2Proof

set_option linter.unusedVariables false

theorem State.recvOp_apart {nd : Node} {u : State} {s : State} {l : LinkId} {rx : Rx} {type op : Nat} (h_l : l.node = nd) (hs : Apart nd u s) : Apart nd u ((State.recvOp (s) (l) (rx) (type) (op)).1) := by
  refine Apart.trans hs ?_
  unfold State.recvOp
  repeat' first
    | with_reducible exact Apart.refl _
    | with_reducible assumption
    | with_reducible apply Apart.step (State.malformed_quiet ?_ (Quiet.refl _))
    | with_reducible apply State.receive_apart
    | split
    | with_reducible refine Apart.ofPair (by with_reducible assumption) ?_

theorem State.dieAbsent_quiet {nd : Node} {u : State} {s : State} {p : Nat} {partnerAgrees : Bool} (hn : nd = .gd) (hs : Quiet nd u s) : Quiet nd u ((State.dieAbsent (s) (p) (partnerAgrees))) := by
  subst hn
  refine Quiet.trans hs ?_
  unfold State.dieAbsent
  repeat' first
    | with_reducible exact Quiet.refl _
    | with_reducible rfl
    | (intro x; first | clear_value x | skip)
    | lift_lets -underBinder
    | with_reducible apply Quiet.ite
    | with_reducible apply State.markAbsent_quiet

theorem execDieAbsent_quiet {nd : Node} {u : State} {port : Nat} {partnerAgrees : Bool} {s : State} (hn : nd = .gd) (hs : Quiet nd u s) : Quiet nd u ((State.after (s) (execDieAbsent (port) (partnerAgrees) (s)))) := by
  subst hn
  refine Quiet.trans hs ?_
  unfold execDieAbsent
  rw [State.after_next]
  repeat' first
    | with_reducible exact Quiet.refl _
    | with_reducible rfl
    | with_reducible apply State.dieAbsent_quiet

theorem State.childAbsent_quiet {nd : Node} {u : State} {s : State} {i : Nat} (hn : nd = .gd) (hs : Quiet nd u s) : Quiet nd u ((State.childAbsent (s) (i))) := by
  subst hn
  refine Quiet.trans hs ?_
  unfold State.childAbsent
  repeat' first
    | with_reducible exact Quiet.refl _
    | with_reducible rfl
    | (intro x; first | (have hf := funext (f := x) (g := x) (fun _ => rfl); clear hf; subst x) | clear_value x | skip)
    | lift_lets -underBinder
    | with_reducible apply Quiet.ite
    | with_reducible apply State.markAbsent_quiet

theorem execChildPositionAbsent_quiet {nd : Node} {u : State} {child : Nat} {s : State} (hn : nd = .gd) (hs : Quiet nd u s) : Quiet nd u ((State.after (s) (execChildPositionAbsent (child) (s)))) := by
  subst hn
  refine Quiet.trans hs ?_
  unfold execChildPositionAbsent
  rw [State.after_next]
  repeat' first
    | with_reducible exact Quiet.refl _
    | with_reducible rfl
    | with_reducible apply State.childAbsent_quiet

theorem State.healthRx_apart {nd : Node} {u : State} {s : State} {l : LinkId} {rx : Rx} (h_l : l.node = nd) (hs : Apart nd u s) : Apart nd u ((State.healthRx (s) (l) (rx))) := by
  refine Apart.trans hs ?_
  unfold State.healthRx
  repeat' first
    | with_reducible exact Apart.refl _
    | with_reducible assumption
    | (with_reducible refine (?_ : (_ : Node) = _); first | rfl | assumption | (simp_all only []; done) | (simp_all; done) | (cases nd <;> simp_all; done))
    | with_reducible apply Apart.ite
    | with_reducible apply Apart.step (State.healthEvent_quiet ?_ (Quiet.refl _))
    | with_reducible apply Apart.step (State.logG_quiet ?_ (Quiet.refl _))
    | with_reducible apply Apart.step (State.malformed_quiet ?_ (Quiet.refl _))
    | with_reducible apply Apart.step (State.mirror_quiet ?_ (Quiet.refl _))
    | with_reducible apply State.receive_apart
    | split
    | with_reducible refine Apart.ofPair (by with_reducible assumption) ?_
    | intro x

theorem execHealthRx_apart {nd : Node} {u : State} {l : LinkId} {rx : Rx} {s : State} (h_l : l.node = nd) (hs : Apart nd u s) : Apart nd u ((State.after (s) (execHealthRx (l) (rx) (s)))) := by
  refine Apart.trans hs ?_
  unfold execHealthRx
  rw [State.after_next]
  repeat' first
    | with_reducible exact Apart.refl _
    | with_reducible assumption
    | with_reducible apply Apart.step (State.cutThrough_quiet ?_ (Quiet.refl _))
    | with_reducible apply State.healthRx_apart

theorem execHealthDecay_quiet {nd : Node} {u : State} {s : State} (hn : nd = .gd) (hs : Quiet nd u s) : Quiet nd u ((State.after (s) (execHealthDecay (s)))) := by
  subst hn
  refine Quiet.trans hs ?_
  unfold execHealthDecay
  rw [State.after_next]
  repeat' first
    | with_reducible exact Quiet.refl _
    | with_reducible rfl
    | (intro x; clear_value x)
    | lift_lets -underBinder
    | with_reducible apply State.readmitDue_quiet
    | ((with_reducible apply State.updGd_quiet); rotate_left; focus (intro t; rfl))

theorem execHealthClear_quiet {nd : Node} {u : State} {s : State} (hn : nd = .gd) (hs : Quiet nd u s) : Quiet nd u ((State.after (s) (execHealthClear (s)))) := by
  subst hn
  refine Quiet.trans hs ?_
  unfold execHealthClear
  rw [State.after_next]
  repeat' first
    | with_reducible exact Quiet.refl _
    | with_reducible assumption
    | with_reducible rfl
    | (intro x; first | (refine Quiet.use (x := x) ?_ (fun hx => ?_); rotate_left; clear_value x; rotate_right; subst x) | clear_value x | skip)
    | lift_lets -underBinder
    | with_reducible apply Quiet.ite
    | with_reducible apply State.expelAsk_quiet
    | with_reducible apply State.mirror_quiet
    | with_reducible apply State.readmit_quiet
    | with_reducible apply State.updHealth_quiet

theorem State.limitOut_quiet {nd : Node} {u : State} {s : State} (hn : nd = .gd) (hs : Quiet nd u s) : Quiet nd u ((State.limitOut (s))) := by
  subst hn
  refine Quiet.trans hs ?_
  unfold State.limitOut
  repeat' first
    | with_reducible exact Quiet.refl _
    | with_reducible rfl
    | (intro x; first | clear_value x | skip)
    | lift_lets -underBinder
    | with_reducible apply Quiet.ite
    | with_reducible apply State.toChild_quiet
    | with_reducible apply Quiet.foldl

theorem State.expelJudge_quiet {nd : Node} {u : State} {s : State} {i : Nat} {f : Frame} (hn : nd = .gd) (hs : Quiet nd u s) : Quiet nd u ((State.expelJudge (s) (i) (f))) := by
  subst hn
  refine Quiet.trans hs ?_
  unfold State.expelJudge
  repeat' first
    | with_reducible exact Quiet.refl _
    | with_reducible assumption
    | with_reducible rfl
    | (intro x; first | (refine Quiet.use (x := x) ?_ (fun hx => ?_); rotate_left; clear_value x; rotate_right; subst x) | clear_value x | skip)
    | lift_lets -underBinder
    | with_reducible apply Quiet.ite
    | with_reducible apply State.limitOut_quiet
    | with_reducible apply State.logG_quiet
    | with_reducible apply State.toChild_quiet
    | ((with_reducible apply State.updGd_quiet); rotate_left; focus (intro t; exact Gd.journalWrite_time ..))

theorem State.expelReqRx_apart {nd : Node} {u : State} {s : State} {l : LinkId} {rx : Rx} (h_l : l.node = nd) (hs : Apart nd u s) : Apart nd u ((State.expelReqRx (s) (l) (rx))) := by
  refine Apart.trans hs ?_
  unfold State.expelReqRx
  repeat' first
    | with_reducible exact Apart.refl _
    | with_reducible assumption
    | (with_reducible refine (?_ : (_ : Node) = _); first | rfl | assumption | (simp_all only []; done) | (simp_all; done) | (cases nd <;> simp_all; done))
    | with_reducible apply Apart.ite
    | with_reducible apply Apart.step (State.expelJudge_quiet ?_ (Quiet.refl _))
    | with_reducible apply Apart.step (State.gdUp_quiet ?_ (Quiet.refl _))
    | with_reducible apply Apart.step (State.malformed_quiet ?_ (Quiet.refl _))
    | with_reducible apply State.recvOp_apart
    | with_reducible apply Apart.step (State.upPart_quiet ?_ ?_ (Quiet.refl _))
    | split
    | with_reducible refine Apart.ofPair (by with_reducible assumption) ?_
    | intro x

theorem execExpelReqRx_apart {nd : Node} {u : State} {l : LinkId} {rx : Rx} {s : State} (h_l : l.node = nd) (hs : Apart nd u s) : Apart nd u ((State.after (s) (execExpelReqRx (l) (rx) (s)))) := by
  refine Apart.trans hs ?_
  unfold execExpelReqRx
  rw [State.after_next]
  repeat' first
    | with_reducible exact Apart.refl _
    | with_reducible assumption
    | with_reducible apply Apart.step (State.cutThrough_quiet ?_ (Quiet.refl _))
    | with_reducible apply State.expelReqRx_apart

theorem State.expelWindowEnd_quiet {nd : Node} {u : State} {s : State} (hn : nd = .gd) (hs : Quiet nd u s) : Quiet nd u ((State.expelWindowEnd (s))) := by
  subst hn
  refine Quiet.trans hs ?_
  unfold State.expelWindowEnd
  repeat' first
    | with_reducible exact Quiet.refl _
    | with_reducible assumption
    | with_reducible rfl
    | (intro x; first | (refine Quiet.use (x := x) ?_ (fun hx => ?_); rotate_left; clear_value x; rotate_right; subst x) | clear_value x | skip)
    | lift_lets -underBinder
    | with_reducible apply Quiet.ite
    | with_reducible apply State.expelAsk_quiet
    | with_reducible apply State.limitOut_quiet
    | ((with_reducible apply State.updGd_quiet); rotate_left; focus (intro t; rfl))
    | with_reducible apply Quiet.foldl

theorem execExpelWindowEnd_quiet {nd : Node} {u : State} {s : State} (hn : nd = .gd) (hs : Quiet nd u s) : Quiet nd u ((State.after (s) (execExpelWindowEnd (s)))) := by
  subst hn
  refine Quiet.trans hs ?_
  unfold execExpelWindowEnd
  rw [State.after_next]
  repeat' first
    | with_reducible exact Quiet.refl _
    | with_reducible rfl
    | with_reducible apply State.expelWindowEnd_quiet

theorem State.expelApply_quiet {nd : Node} {u : State} {s : State} {i : Nat} {at_ : Int} {own : Bool} (hn : nd = .gd) (hs : Quiet nd u s) : Quiet nd u ((State.expelApply (s) (i) (at_) (own))) := by
  subst hn
  refine Quiet.trans hs ?_
  unfold State.expelApply
  repeat' first
    | with_reducible exact Quiet.refl _
    | with_reducible assumption
    | with_reducible rfl
    | (intro x; first | (refine Quiet.use (x := x) ?_ (fun hx => ?_); rotate_left; clear_value x; rotate_right; subst x) | clear_value x | skip)
    | lift_lets -underBinder
    | with_reducible apply Quiet.ite
    | with_reducible apply State.gdDown_quiet
    | with_reducible apply State.logG_quiet
    | with_reducible apply State.updDom_quiet
    | with_reducible apply State.updHealth_quiet
    | with_reducible apply Quiet.foldl

theorem State.expelGranted_quiet {nd : Node} {u : State} {s : State} {i : Nat} {f : Frame} (hn : nd = .gd) (hs : Quiet nd u s) : Quiet nd u ((State.expelGranted (s) (i) (f))) := by
  subst hn
  refine Quiet.trans hs ?_
  unfold State.expelGranted
  repeat' first
    | with_reducible exact Quiet.refl _
    | with_reducible assumption
    | with_reducible rfl
    | (intro x; first | (refine Quiet.use (x := x) ?_ (fun hx => ?_); rotate_left; clear_value x; rotate_right; subst x) | clear_value x)
    | lift_lets -underBinder
    | with_reducible apply State.expelApply_quiet
    | with_reducible apply State.logG_quiet
    | with_reducible apply State.mirror_quiet
    | with_reducible apply State.toChild_quiet
    | ((with_reducible apply State.updGd_quiet); rotate_left; focus (intro t; exact Gd.journalWrite_time ..))

theorem State.expelDown_quiet {nd : Node} {u s : State} {l : LinkId} {f : Frame} {take : State → Nat → State}
    (k_take : ∀ x i, Quiet nd x (take x i)) (h_l : l.node = nd) (hn : nd = .gd) (hs : Quiet nd u s) :
    Quiet nd u (s.expelDown l f take) := by
  unfold State.expelDown
  split
  · exact hs
  · split
    · exact State.malformed_quiet h_l hs
    · exact hs
    · exact hs
    · exact Quiet.ite (fun _ => hs.trans (k_take _ _)) (fun _ => State.toChild_quiet hn hs)

theorem execExpelGrantRx_apart {nd : Node} {u s : State} {l : LinkId} {rx : Rx} (h_l : l.node = nd) (hs : Apart nd u s) :
    Apart nd u (s.after (execExpelGrantRx l rx s)) := by
  unfold execExpelGrantRx
  rw [State.after_next]
  refine Apart.step (State.cutThrough_quiet h_l (.refl _)) (Apart.ite (fun _ => hs) (fun hl => ?_))
  have hg : l.node = .gd := by cases h : l.node <;> simp_all
  have hn : nd = .gd := h_l.symm.trans hg
  have h := State.recvOp_apart (l := l) (rx := rx) (type := 0x15) (op := 2) h_l hs
  revert h
  generalize s.recvOp l rx 0x15 2 = p
  intro h
  obtain ⟨x, _ | f⟩ := p
  · exact h
  · exact Apart.step (State.expelDown_quiet (fun x i => State.expelGranted_quiet hn (.refl _)) h_l hn (.refl _)) h

theorem execExpelDenyRx_apart {nd : Node} {u s : State} {l : LinkId} {rx : Rx} (h_l : l.node = nd) (hs : Apart nd u s) :
    Apart nd u (s.after (execExpelDenyRx l rx s)) := by
  unfold execExpelDenyRx
  rw [State.after_next]
  refine Apart.step (State.cutThrough_quiet h_l (.refl _)) (Apart.ite (fun _ => hs) (fun hl => ?_))
  have hg : l.node = .gd := by cases h : l.node <;> simp_all
  have hn : nd = .gd := h_l.symm.trans hg
  have h := State.recvOp_apart (l := l) (rx := rx) (type := 0x15) (op := 3) h_l hs
  revert h
  generalize s.recvOp l rx 0x15 3 = p
  intro h
  obtain ⟨x, _ | f⟩ := p
  · exact h
  · exact Apart.step (State.expelDown_quiet (fun x i => State.logG_quiet hn (State.updHealth_quiet hn (.refl _))) h_l hn (.refl _)) h

theorem State.expelLimitRx_quiet {nd : Node} {u : State} {s : State} {l : LinkId} {f : Frame} (h_l : l.node = nd) (hn : nd = .gd) (hs : Quiet nd u s) : Quiet nd u ((State.expelLimitRx (s) (l) (f))) := by
  subst hn
  refine Quiet.trans hs ?_
  unfold State.expelLimitRx
  repeat' first
    | with_reducible exact Quiet.refl _
    | with_reducible assumption
    | with_reducible rfl
    | (intro x; first | (refine Quiet.use (x := x) ?_ (fun hx => ?_); rotate_left; clear_value x; rotate_right; subst x) | skip)
    | lift_lets -underBinder
    | with_reducible apply Quiet.ite
    | with_reducible apply State.expelAsk_quiet
    | with_reducible apply State.limitOut_quiet
    | with_reducible apply State.malformed_quiet
    | with_reducible apply State.readmitDue_quiet
    | ((with_reducible apply State.updGd_quiet); rotate_left; focus (intro t; rfl))
    | with_reducible apply Quiet.foldl
    | split

theorem execExpelLimitRx_apart {nd : Node} {u : State} {l : LinkId} {rx : Rx} {s : State} (h_l : l.node = nd) (hs : Apart nd u s) : Apart nd u ((State.after (s) (execExpelLimitRx (l) (rx) (s)))) := by
  refine Apart.trans hs ?_
  unfold execExpelLimitRx
  rw [State.after_next]
  repeat' first
    | with_reducible exact Apart.refl _
    | with_reducible assumption
    | (with_reducible refine (?_ : (_ : Node) = _); first | rfl | assumption | (simp_all only []; done) | (simp_all; done) | (cases nd <;> simp_all; done))
    | with_reducible apply Apart.ite
    | with_reducible apply Apart.step (State.cutThrough_quiet ?_ (Quiet.refl _))
    | with_reducible apply Apart.step (State.expelLimitRx_quiet ?_ ?_ (Quiet.refl _))
    | with_reducible apply State.recvOp_apart
    | split
    | with_reducible refine Apart.ofPair (by with_reducible assumption) ?_
    | intro x

theorem State.noticeTsu_quiet {nd : Node} {u : State} {s : State} {at_ : Int} (hn : nd = .tsu) (hs : Quiet nd u s) : Quiet nd u ((State.noticeTsu (s) (at_))) := by
  subst hn
  refine Quiet.trans hs ?_
  unfold State.noticeTsu
  repeat' first
    | with_reducible exact Quiet.refl _
    | with_reducible rfl
    | (intro x; clear_value x)
    | lift_lets -underBinder
    | ((with_reducible apply State.updTsu_quiet); rotate_left; focus (intro t; rfl))

theorem State.readmitTsu_quiet {nd : Node} {u : State} {s : State} (hn : nd = .tsu) (hs : Quiet nd u s) : Quiet nd u ((State.readmitTsu (s))) := by
  subst hn
  refine Quiet.trans hs ?_
  unfold State.readmitTsu
  repeat' first
    | with_reducible exact Quiet.refl _
    | with_reducible assumption
    | with_reducible rfl
    | (intro x; first | (refine Quiet.use (x := x) ?_ (fun hx => ?_); rotate_left; clear_value x; rotate_right; subst x) | clear_value x | skip)
    | lift_lets -underBinder
    | with_reducible apply State.joinSoon_quiet
    | ((with_reducible apply State.updTsu_quiet); rotate_left; focus (intro t; rfl))
    | with_reducible apply Quiet.foldl

theorem execExpelNoticeRx_apart {nd : Node} {u : State} {l : LinkId} {rx : Rx} {s : State} (h_l : l.node = nd) (hs : Apart nd u s) : Apart nd u ((State.after (s) (execExpelNoticeRx (l) (rx) (s)))) := by
  refine Apart.trans hs ?_
  unfold execExpelNoticeRx
  rw [State.after_next]
  repeat' first
    | with_reducible exact Apart.refl _
    | with_reducible assumption
    | (with_reducible refine (?_ : (_ : Node) = _); first | rfl | assumption | (simp_all only []; done) | (simp_all; done) | (cases nd <;> simp_all; done))
    | (intro x; first | clear_value x | skip)
    | lift_lets -underBinder
    | with_reducible apply Apart.ite
    | with_reducible apply Apart.step (State.cutThrough_quiet ?_ (Quiet.refl _))
    | with_reducible apply Apart.step (State.expelApply_quiet ?_ (Quiet.refl _))
    | with_reducible apply Apart.step (State.malformed_quiet ?_ (Quiet.refl _))
    | with_reducible apply Apart.step (State.noticeTsu_quiet ?_ (Quiet.refl _))
    | with_reducible apply State.recvOp_apart
    | with_reducible apply Apart.step (State.toChild_quiet ?_ (Quiet.refl _))
    | split
    | with_reducible refine Apart.ofPair (by with_reducible assumption) ?_

theorem execExpelReadmitRx_apart {nd : Node} {u : State} {l : LinkId} {rx : Rx} {s : State} (h_l : l.node = nd) (hs : Apart nd u s) : Apart nd u ((State.after (s) (execExpelReadmitRx (l) (rx) (s)))) := by
  refine Apart.trans hs ?_
  unfold execExpelReadmitRx
  rw [State.after_next]
  repeat' first
    | with_reducible exact Apart.refl _
    | with_reducible assumption
    | (with_reducible refine (?_ : (_ : Node) = _); first | rfl | assumption | (simp_all only []; done) | (simp_all; done) | (cases nd <;> simp_all; done))
    | with_reducible apply Apart.ite
    | with_reducible apply Apart.step (State.cutThrough_quiet ?_ (Quiet.refl _))
    | with_reducible apply Apart.step (State.malformed_quiet ?_ (Quiet.refl _))
    | with_reducible apply Apart.step (State.readmitTsu_quiet ?_ (Quiet.refl _))
    | with_reducible apply Apart.step (State.readmitted_quiet ?_ (Quiet.refl _))
    | with_reducible apply State.recvOp_apart
    | with_reducible apply Apart.step (State.toChild_quiet ?_ (Quiet.refl _))
    | split
    | with_reducible refine Apart.ofPair (by with_reducible assumption) ?_
    | intro x

end Sys2Proof.Machine
end

