-- ==== Sys2Proof/Laws/ApartCensus.lean ====
section
/-! SUPPORT. Which part the operations of `Sys2Proof.Machine.Census` act at, and whether they leave its time alone. -/

namespace Sys2Proof.Machine

open Sys2Proof

set_option linter.unusedVariables false

theorem State.askCounted_quiet {nd : Node} {u : State} {s : State} (hn : nd = .tsu) (hs : Quiet nd u s) : Quiet nd u ((State.askCounted (s))) := by
  subst hn
  refine Quiet.trans hs ?_
  unfold State.askCounted
  repeat' first
    | with_reducible exact Quiet.refl _
    | with_reducible rfl
    | ((with_reducible apply State.updTsu_quiet); rotate_left; focus (intro t; rfl))

theorem State.askRx_apart {nd : Node} {u : State} {s : State} {l : LinkId} {rx : Rx} {phase : Nat} (h_l : l.node = nd) (hs : Apart nd u s) : Apart nd u ((State.askRx (s) (l) (rx) (phase)).1) := by
  refine Apart.trans hs ?_
  unfold State.askRx
  repeat' first
    | with_reducible exact Apart.refl _
    | with_reducible assumption
    | with_reducible apply Apart.step (State.malformed_quiet ?_ (Quiet.refl _))
    | with_reducible apply State.receive_apart
    | split
    | with_reducible refine Apart.ofPair (by with_reducible assumption) ?_

theorem State.gdAsked_quiet {nd : Node} {u : State} {s : State} {l : LinkId} {f : Frame} (h_l : l.node = nd) (hn : nd = .gd) (hs : Quiet nd u s) : Quiet nd u ((State.gdAsked (s) (l) (f))) := by
  subst hn
  refine Quiet.trans hs ?_
  unfold State.gdAsked
  repeat' first
    | with_reducible exact Quiet.refl _
    | with_reducible rfl
    | intro x
    | lift_lets -underBinder
    | with_reducible apply Quiet.ite
    | with_reducible apply State.gdAnswer_quiet
    | ((with_reducible apply State.updGd_quiet); rotate_left; focus (intro t; rfl))

theorem execCensusListRx_apart {nd : Node} {u : State} {l : LinkId} {rx : Rx} {s : State} (h_l : l.node = nd) (hs : Apart nd u s) : Apart nd u ((State.after (s) (execCensusListRx (l) (rx) (s)))) := by
  refine Apart.trans hs ?_
  unfold execCensusListRx
  rw [State.after_next]
  repeat' first
    | with_reducible exact Apart.refl _
    | with_reducible assumption
    | (with_reducible refine (?_ : (_ : Node) = _); first | rfl | assumption | (simp_all only []; done) | (simp_all; done) | (cases nd <;> simp_all; done))
    | intro x
    | lift_lets -underBinder
    | with_reducible apply Apart.step (State.askCounted_quiet ?_ (Quiet.refl _))
    | with_reducible apply State.askRx_apart
    | with_reducible apply Apart.step (State.cutThrough_quiet ?_ (Quiet.refl _))
    | with_reducible apply Apart.step (State.gdAsked_quiet ?_ ?_ (Quiet.refl _))
    | with_reducible apply Apart.step (State.send_quiet ?_ (Quiet.refl _))
    | with_reducible apply Apart.foldl
    | split
    | with_reducible refine Apart.ofPair (by with_reducible assumption) ?_

theorem State.tsuFetched_quiet {nd : Node} {u : State} {s : State} {l : LinkId} {f : Frame} (h_l : l.node = nd) (hn : nd = .tsu) (hs : Quiet nd u s) : Quiet nd u ((State.tsuFetched (s) (l) (f))) := by
  subst hn
  refine Quiet.trans hs ?_
  unfold State.tsuFetched
  repeat' first
    | with_reducible exact Quiet.refl _
    | with_reducible assumption
    | with_reducible rfl
    | (intro x; first | clear_value x | skip)
    | lift_lets -underBinder
    | with_reducible apply Quiet.ite
    | with_reducible apply State.askCounted_quiet
    | with_reducible apply State.send_quiet
    | split

theorem State.gdFetch_quiet {nd : Node} {u : State} {s : State} {l : LinkId} {f : Frame} (h_l : l.node = nd) (hn : nd = .gd) (hs : Quiet nd u s) : Quiet nd u ((State.gdFetch (s) (l) (f))) := by
  subst hn
  refine Quiet.trans hs ?_
  unfold State.gdFetch
  repeat' first
    | with_reducible exact Quiet.refl _
    | with_reducible rfl
    | lift_lets -underBinder
    | with_reducible apply State.logG_quiet
    | with_reducible apply State.send_quiet
    | ((with_reducible apply State.updGd_quiet); rotate_left; focus (intro t; rfl))
    | split

theorem execCensusFetchRx_apart {nd : Node} {u : State} {l : LinkId} {rx : Rx} {s : State} (h_l : l.node = nd) (hs : Apart nd u s) : Apart nd u ((State.after (s) (execCensusFetchRx (l) (rx) (s)))) := by
  refine Apart.trans hs ?_
  unfold execCensusFetchRx
  rw [State.after_next]
  repeat' first
    | with_reducible exact Apart.refl _
    | with_reducible assumption
    | (with_reducible refine (?_ : (_ : Node) = _); first | rfl | assumption | (simp_all only []; done) | (simp_all; done) | (cases nd <;> simp_all; done))
    | with_reducible apply State.askRx_apart
    | with_reducible apply Apart.step (State.cutThrough_quiet ?_ (Quiet.refl _))
    | with_reducible apply Apart.step (State.gdFetch_quiet ?_ ?_ (Quiet.refl _))
    | with_reducible apply Apart.step (State.tsuFetched_quiet ?_ ?_ (Quiet.refl _))
    | split
    | with_reducible refine Apart.ofPair (by with_reducible assumption) ?_

theorem execCensusResendRx_apart {nd : Node} {u : State} {l : LinkId} {rx : Rx} {s : State} (h_l : l.node = nd) (hs : Apart nd u s) : Apart nd u ((State.after (s) (execCensusResendRx (l) (rx) (s)))) := by
  refine Apart.trans hs ?_
  unfold execCensusResendRx
  rw [State.after_next]
  repeat' first
    | with_reducible exact Apart.refl _
    | with_reducible assumption
    | (with_reducible refine (?_ : (_ : Node) = _); first | rfl | assumption | (simp_all only []; done) | (simp_all; done) | (cases nd <;> simp_all; done))
    | (intro x; first | (refine Apart.use (x := x) ?_ (fun hx => ?_); rotate_left; clear_value x; rotate_right; subst x) | clear_value x | skip)
    | lift_lets -underBinder
    | with_reducible apply Apart.step (State.askCounted_quiet ?_ (Quiet.refl _))
    | with_reducible apply State.askRx_apart
    | with_reducible apply Apart.step (State.cutThrough_quiet ?_ (Quiet.refl _))
    | with_reducible apply Apart.step (State.gdAsked_quiet ?_ ?_ (Quiet.refl _))
    | with_reducible apply Apart.step (State.send_quiet ?_ (Quiet.refl _))
    | with_reducible apply Apart.foldl
    | split
    | with_reducible refine Apart.ofPair (by with_reducible assumption) ?_

theorem State.censusDrop_quiet {nd : Node} {u : State} {s : State} {p : Nat} (hn : nd = .gd) (hs : Quiet nd u s) : Quiet nd u ((State.censusDrop (s) (p))) := by
  subst hn
  refine Quiet.trans hs ?_
  unfold State.censusDrop
  repeat' first
    | with_reducible exact Quiet.refl _
    | with_reducible rfl
    | lift_lets -underBinder
    | with_reducible apply State.censusAdvance_quiet
    | with_reducible apply State.updCensus_quiet

theorem State.expelledSeen_quiet {nd : Node} {u : State} {s : State} {tag : BitVec 24} {i : Nat} (hn : nd = .gd) (hs : Quiet nd u s) : Quiet nd u ((State.expelledSeen (s) (tag) (i))) := by
  subst hn
  refine Quiet.trans hs ?_
  unfold State.expelledSeen
  repeat' first
    | with_reducible exact Quiet.refl _
    | with_reducible assumption
    | with_reducible rfl
    | (intro x; first | (refine Quiet.use (x := x) ?_ (fun hx => ?_); rotate_left; clear_value x; rotate_right; subst x) | (have hf := funext (f := x) (g := x) (fun _ => rfl); clear hf; subst x) | skip)
    | lift_lets -underBinder
    | with_reducible apply Quiet.ite
    | with_reducible apply State.updDom_quiet
    | with_reducible apply State.updHealth_quiet

theorem State.censusTake_quiet {nd : Node} {u : State} {s : State} {tag : BitVec 24} {i : Nat} {w : Nat} (hn : nd = .gd) (hs : Quiet nd u s) : Quiet nd u ((State.censusTake (s) (tag) (i) (w))) := by
  subst hn
  refine Quiet.trans hs ?_
  unfold State.censusTake
  repeat' first
    | with_reducible exact Quiet.refl _
    | with_reducible assumption
    | with_reducible rfl
    | (intro x; first | (refine Quiet.use (x := x) ?_ (fun hx => ?_); rotate_left; clear_value x; rotate_right; subst x) | clear_value x | skip)
    | lift_lets -underBinder
    | with_reducible apply Quiet.ite
    | with_reducible apply State.expelledSeen_quiet
    | with_reducible apply State.updCensus_quiet

theorem State.censusAns_quiet {nd : Node} {u : State} {s : State} {l : LinkId} {c : Census} {f : Frame} (h_l : l.node = nd) (hn : nd = .gd) (hs : Quiet nd u s) : Quiet nd u ((State.censusAns (s) (l) (c) (f))) := by
  subst hn
  refine Quiet.trans hs ?_
  unfold State.censusAns
  repeat' first
    | with_reducible exact Quiet.refl _
    | with_reducible assumption
    | with_reducible rfl
    | (intro x; first | (refine Quiet.use (x := x) ?_ (fun hx => ?_); rotate_left; clear_value x; rotate_right; subst x) | clear_value x | skip)
    | lift_lets -underBinder
    | with_reducible apply Quiet.ite
    | with_reducible apply State.censusAdvance_quiet
    | with_reducible apply State.censusDrop_quiet
    | with_reducible apply State.censusTake_quiet
    | with_reducible apply State.logG_quiet
    | with_reducible apply State.setEvt_quiet
    | with_reducible apply State.updCensus_quiet
    | with_reducible apply State.updLink_quiet
    | with_reducible apply Quiet.foldl

theorem execCensusAnsRx_apart {nd : Node} {u : State} {l : LinkId} {rx : Rx} {s : State} (h_l : l.node = nd) (hs : Apart nd u s) : Apart nd u ((State.after (s) (execCensusAnsRx (l) (rx) (s)))) := by
  refine Apart.trans hs ?_
  unfold execCensusAnsRx
  rw [State.after_next]
  repeat' first
    | with_reducible exact Apart.refl _
    | with_reducible assumption
    | (with_reducible refine (?_ : (_ : Node) = _); first | rfl | assumption | (simp_all only []; done) | (simp_all; done) | (cases nd <;> simp_all; done))
    | with_reducible apply Apart.ite
    | with_reducible apply Apart.step (State.censusAns_quiet ?_ ?_ (Quiet.refl _))
    | with_reducible apply Apart.step (State.cutThrough_quiet ?_ (Quiet.refl _))
    | with_reducible apply Apart.step (State.malformed_quiet ?_ (Quiet.refl _))
    | with_reducible apply State.receive_apart
    | split
    | with_reducible refine Apart.ofPair (by with_reducible assumption) ?_
    | intro x

theorem State.fetchTimeout_quiet {nd : Node} {u : State} {s : State} {tag : BitVec 24} {index : Nat} (hn : nd = .gd) (hs : Quiet nd u s) : Quiet nd u ((State.fetchTimeout (s) (tag) (index))) := by
  subst hn
  refine Quiet.trans hs ?_
  unfold State.fetchTimeout
  repeat' first
    | with_reducible exact Quiet.refl _
    | with_reducible assumption
    | with_reducible rfl
    | (intro x; first | (refine Quiet.use (x := x) ?_ (fun hx => ?_); rotate_left; clear_value x; rotate_right; subst x) | (have hf := funext (f := x) (g := x) (fun _ => rfl); clear hf; subst x) | clear_value x | skip)
    | lift_lets -underBinder
    | with_reducible apply Quiet.ite
    | with_reducible apply State.absentFrom_quiet
    | with_reducible apply State.censusAdvance_quiet
    | with_reducible apply State.gdDown_quiet
    | with_reducible apply State.send_quiet
    | with_reducible apply State.updCensus_quiet
    | with_reducible apply Quiet.foldl
    | split

theorem execFetchTimeout_quiet {nd : Node} {u : State} {tag : BitVec 24} {index : Nat} {s : State} (hn : nd = .gd) (hs : Quiet nd u s) : Quiet nd u ((State.after (s) (execFetchTimeout (tag) (index) (s)))) := by
  subst hn
  refine Quiet.trans hs ?_
  unfold execFetchTimeout
  rw [State.after_next]
  repeat' first
    | with_reducible exact Quiet.refl _
    | with_reducible rfl
    | with_reducible apply State.fetchTimeout_quiet

theorem execCensusPortTimeout_quiet {nd : Node} {u : State} {port : Nat} {s : State} (hn : nd = .gd) (hs : Quiet nd u s) : Quiet nd u ((State.after (s) (execCensusPortTimeout (port) (s)))) := by
  subst hn
  refine Quiet.trans hs ?_
  unfold execCensusPortTimeout
  rw [State.after_next]
  repeat' first
    | with_reducible exact Quiet.refl _
    | with_reducible rfl
    | (intro x; first | clear_value x | skip)
    | lift_lets -underBinder
    | with_reducible apply Quiet.ite
    | with_reducible apply State.censusDrop_quiet
    | split

theorem execCensusSlow_quiet {nd : Node} {u : State} {s : State} (hn : nd = .gd) (hs : Quiet nd u s) : Quiet nd u ((State.after (s) (execCensusSlow (s)))) := by
  subst hn
  refine Quiet.trans hs ?_
  unfold execCensusSlow
  rw [State.after_next]
  repeat' first
    | with_reducible exact Quiet.refl _
    | with_reducible rfl
    | intro x
    | lift_lets -underBinder
    | with_reducible apply Quiet.ite
    | with_reducible apply State.logG_quiet
    | with_reducible apply State.updCensus_quiet
    | ((with_reducible apply State.updGd_quiet); rotate_left; focus (intro t; rfl))
    | split

end Sys2Proof.Machine
end

