-- ==== Sys2Proof/Laws/ApartDistOrders.lean ====
section
/-! SUPPORT. Which part the operations of `Sys2Proof.Machine.DistOrders` act at, and whether they leave its time alone. -/

namespace Sys2Proof.Machine

open Sys2Proof

set_option linter.unusedVariables false

theorem State.broadcast_quiet {nd : Node} {u : State} {s : State} {d : GdDom} {f : Frame} {only : Bool} (hn : nd = .gd) (hs : Quiet nd u s) : Quiet nd u ((State.broadcast (s) (d) (f) (only))) := by
  subst hn
  refine Quiet.trans hs ?_
  unfold State.broadcast
  repeat' first
    | with_reducible exact Quiet.refl _
    | with_reducible assumption
    | with_reducible rfl
    | (intro x; first | (refine Quiet.use (x := x) ?_ (fun hx => ?_); rotate_left; clear_value x; rotate_right; subst x) | clear_value x | skip)
    | lift_lets -underBinder
    | with_reducible apply Quiet.ite
    | with_reducible apply State.gdDown_quiet
    | with_reducible apply State.mirror_quiet

theorem State.abortStart_quiet {nd : Node} {u : State} {s : State} {d : GdDom} {id : Nat} {f : Frame} {only : Bool} (hn : nd = .gd) (hs : Quiet nd u s) : Quiet nd u ((State.abortStart (s) (d) (id) (f) (only))) := by
  subst hn
  refine Quiet.trans hs ?_
  unfold State.abortStart
  repeat' first
    | with_reducible exact Quiet.refl _
    | with_reducible assumption
    | with_reducible rfl
    | (intro x; first | (refine Quiet.use (x := x) ?_ (fun hx => ?_); rotate_left; clear_value x; rotate_right; subst x) | clear_value x)
    | lift_lets -underBinder
    | with_reducible apply State.broadcast_quiet
    | with_reducible apply State.updDom_quiet

theorem State.abortEnd_quiet {nd : Node} {u : State} {s : State} {d : GdDom} (hn : nd = .gd) (hs : Quiet nd u s) : Quiet nd u ((State.abortEnd (s) (d))) := by
  subst hn
  refine Quiet.trans hs ?_
  unfold State.abortEnd
  repeat' first
    | with_reducible exact Quiet.refl _
    | with_reducible assumption
    | with_reducible rfl
    | (intro x; first | (refine Quiet.use (x := x) ?_ (fun hx => ?_); rotate_left; clear_value x; rotate_right; subst x) | clear_value x | skip)
    | lift_lets -underBinder
    | with_reducible apply Quiet.ite
    | with_reducible apply State.gdUp_quiet
    | with_reducible apply State.setEvt_quiet
    | with_reducible apply State.updDom_quiet
    | ((with_reducible apply State.updGd_quiet); rotate_left; focus (intro t; rfl))

theorem State.abortProgress_quiet {nd : Node} {u : State} {s : State} {tag : BitVec 24} {expired : Bool} (hn : nd = .gd) (hs : Quiet nd u s) : Quiet nd u ((State.abortProgress (s) (tag) (expired))) := by
  subst hn
  refine Quiet.trans hs ?_
  unfold State.abortProgress
  repeat' first
    | with_reducible exact Quiet.refl _
    | with_reducible rfl
    | with_reducible apply Quiet.ite
    | with_reducible apply State.abortEnd_quiet
    | split
    | intro x

theorem State.abortRequest_quiet {nd : Node} {u : State} {s : State} {d : GdDom} {pod : Bool} {step : BitVec 16} {origin : List Byte} {reason : Nat} (hn : nd = .gd) (hs : Quiet nd u s) : Quiet nd u ((State.abortRequest (s) (d) (pod) (step) (origin) (reason))) := by
  subst hn
  refine Quiet.trans hs ?_
  unfold State.abortRequest
  repeat' first
    | with_reducible exact Quiet.refl _
    | with_reducible rfl
    | (intro x; first | clear_value x | skip)
    | lift_lets -underBinder
    | with_reducible apply Quiet.ite
    | with_reducible apply State.abortStart_quiet

theorem State.orderRequest_apart {nd : Node} {u : State} {s : State} {d : GdDom} {pod : Bool} {f : Frame} (hn : nd = .gd) (hs : Apart nd u s) : Apart nd u ((State.orderRequest (s) (d) (pod) (f))) := by
  subst hn
  refine Apart.trans hs ?_
  unfold State.orderRequest
  repeat' first
    | with_reducible exact Apart.refl _
    | with_reducible assumption
    | with_reducible rfl
    | (intro x; first | (refine Apart.use (x := x) ?_ (fun hx => ?_); rotate_left; clear_value x; rotate_right; subst x) | clear_value x)
    | lift_lets -underBinder
    | with_reducible apply Apart.step (State.broadcast_quiet ?_ (Quiet.refl _))
    | with_reducible apply Apart.step (State.updDom_quiet ?_ (Quiet.refl _))

end Sys2Proof.Machine
end

