-- ==== Sys2Proof/Laws/ApartDomains.lean ====
section
/-! SUPPORT. Which part the operations of `Sys2Proof.Machine.Domains` act at, and whether they leave its time alone. -/

namespace Sys2Proof.Machine

open Sys2Proof

set_option linter.unusedVariables false

theorem State.gdFrame_apart {nd : Node} {u : State} {s : State} {l : LinkId} {rx : Rx} {type : Nat} {count : Frame → Nat} {code : ErrCode} (h_l : l.node = nd) (hn : nd = .gd) (hs : Apart nd u s) : Apart nd u ((State.gdFrame (s) (l) (rx) (type) (count) (code)).1) := by
  subst hn
  refine Apart.trans hs ?_
  unfold State.gdFrame
  repeat' first
    | with_reducible exact Apart.refl _
    | with_reducible assumption
    | with_reducible rfl
    | (intro x; first | (refine Apart.use (x := x) ?_ (fun hx => ?_); rotate_left; clear_value x; rotate_right; subst x) | skip)
    | lift_lets -underBinder
    | with_reducible apply Apart.ite
    | with_reducible apply Apart.step (State.chain_quiet ?_ (Quiet.refl _))
    | with_reducible apply Apart.step (State.logG_quiet ?_ (Quiet.refl _))
    | with_reducible apply Apart.step (State.malformed_quiet ?_ (Quiet.refl _))
    | with_reducible apply State.receive_apart
    | split
    | with_reducible refine Apart.ofPair (by with_reducible assumption) ?_

theorem State.gdMessage_apart {nd : Node} {u : State} {s : State} {l : LinkId} {rx : Rx} {type : Nat} {count : Frame → Nat} {code : ErrCode} (h_l : l.node = nd) (hn : nd = .gd) (hs : Apart nd u s) : Apart nd u ((State.gdMessage (s) (l) (rx) (type) (count) (code)).1) := by
  subst hn
  refine Apart.trans hs ?_
  unfold State.gdMessage
  repeat' first
    | with_reducible exact Apart.refl _
    | with_reducible assumption
    | with_reducible rfl
    | with_reducible apply State.gdFrame_apart
    | with_reducible apply Apart.step (State.logG_quiet ?_ (Quiet.refl _))
    | split
    | with_reducible refine Apart.ofPair (by with_reducible assumption) ?_

theorem State.arriveRx_apart {nd : Node} {u : State} {s : State} {l : LinkId} {rx : Rx} (h_l : l.node = nd) (hs : Apart nd u s) : Apart nd u ((State.arriveRx (s) (l) (rx))) := by
  refine Apart.trans hs ?_
  unfold State.arriveRx
  repeat' first
    | with_reducible exact Apart.refl _
    | with_reducible assumption
    | (with_reducible refine (?_ : (_ : Node) = _); first | rfl | assumption | (simp_all only []; done) | (simp_all; done) | (cases nd <;> simp_all; done))
    | (intro x; first | clear_value x | skip)
    | lift_lets -underBinder
    | with_reducible apply Apart.ite
    | with_reducible apply Apart.step (State.gdArrive_quiet ?_ (Quiet.refl _))
    | with_reducible apply State.gdFrame_apart
    | with_reducible apply Apart.step (State.gdUnderway_quiet ?_ (Quiet.refl _))
    | with_reducible apply Apart.step (State.logG_quiet ?_ (Quiet.refl _))
    | with_reducible apply Apart.step (State.upPart_quiet ?_ ?_ (Quiet.refl _))
    | with_reducible apply State.updGd_apart
    | split
    | with_reducible refine Apart.ofPair (by with_reducible assumption) ?_

theorem execArriveRx_apart {nd : Node} {u : State} {l : LinkId} {rx : Rx} {s : State} (h_l : l.node = nd) (hs : Apart nd u s) : Apart nd u ((State.after (s) (execArriveRx (l) (rx) (s)))) := by
  refine Apart.trans hs ?_
  unfold execArriveRx
  rw [State.after_next]
  repeat' first
    | with_reducible exact Apart.refl _
    | with_reducible assumption
    | with_reducible apply State.arriveRx_apart
    | with_reducible apply Apart.step (State.cutThrough_quiet ?_ (Quiet.refl _))

theorem State.fetchReply_quiet {nd : Node} {u : State} {s : State} {l : LinkId} {d : GdDom} {fs : List Frame} (h_l : l.node = nd) (hn : nd = .gd) (hs : Quiet nd u s) : Quiet nd u ((State.fetchReply (s) (l) (d) (fs))) := by
  subst hn
  refine Quiet.trans hs ?_
  unfold State.fetchReply
  repeat' first
    | with_reducible exact Quiet.refl _
    | with_reducible assumption
    | with_reducible rfl
    | (intro x; first | (refine Quiet.use (x := x) ?_ (fun hx => ?_); rotate_left; clear_value x; rotate_right; subst x) | (have hf := funext (f := x) (g := x) (fun _ => rfl); clear hf; subst x))
    | lift_lets -underBinder
    | with_reducible apply State.censusAdvance_quiet
    | with_reducible apply State.gdDown_quiet
    | with_reducible apply State.logG_quiet
    | with_reducible apply State.malformed_quiet
    | with_reducible apply State.send_quiet
    | ((with_reducible apply State.updGd_quiet); rotate_left; focus (intro t; rfl))
    | split

theorem State.gdDownMsg_apart {nd : Node} {u : State} {s : State} {l : LinkId} {rx : Rx} {launch : Bool} (h_l : l.node = nd) (hs : Apart nd u s) : Apart nd u ((State.gdDownMsg (s) (l) (rx) (launch))) := by
  refine Apart.trans hs ?_
  unfold State.gdDownMsg
  repeat' first
    | with_reducible exact Apart.refl _
    | with_reducible assumption
    | (with_reducible refine (?_ : (_ : Node) = _); first | rfl | assumption | (simp_all only []; done) | (simp_all; done) | (cases nd <;> simp_all; done))
    | with_reducible apply Apart.ite
    | with_reducible apply Apart.step (State.fetchReply_quiet ?_ ?_ (Quiet.refl _))
    | with_reducible apply Apart.step (State.gdDownRx_quiet ?_ (Quiet.refl _))
    | with_reducible apply State.gdMessage_apart
    | with_reducible apply Apart.step (State.malformed_quiet ?_ (Quiet.refl _))
    | split
    | with_reducible refine Apart.ofPair (by with_reducible assumption) ?_
    | intro x

theorem execTurnForward_apart {nd : Node} {u : State} {l : LinkId} {rx : Rx} {s : State} (h_l : l.node = nd) (hs : Apart nd u s) : Apart nd u ((State.after (s) (execTurnForward (l) (rx) (s)))) := by
  refine Apart.trans hs ?_
  unfold execTurnForward
  rw [State.after_next]
  repeat' first
    | with_reducible exact Apart.refl _
    | with_reducible assumption
    | with_reducible apply Apart.step (State.cutThrough_quiet ?_ (Quiet.refl _))
    | with_reducible apply State.gdDownMsg_apart

theorem execLaunchForward_apart {nd : Node} {u : State} {l : LinkId} {rx : Rx} {s : State} (h_l : l.node = nd) (hs : Apart nd u s) : Apart nd u ((State.after (s) (execLaunchForward (l) (rx) (s)))) := by
  refine Apart.trans hs ?_
  unfold execLaunchForward
  rw [State.after_next]
  repeat' first
    | with_reducible exact Apart.refl _
    | with_reducible assumption
    | with_reducible apply Apart.step (State.cutThrough_quiet ?_ (Quiet.refl _))
    | with_reducible apply State.gdDownMsg_apart

theorem State.dlatTake_quiet {nd : Node} {u : State} {s : State} {tag : BitVec 24} {i : Nat} {v : DlatIn} (hn : nd = .gd) (hs : Quiet nd u s) : Quiet nd u ((State.dlatTake (s) (tag) (i) (v))) := by
  subst hn
  refine Quiet.trans hs ?_
  unfold State.dlatTake
  repeat' first
    | with_reducible exact Quiet.refl _
    | with_reducible assumption
    | with_reducible rfl
    | (intro x; first | (refine Quiet.use (x := x) ?_ (fun hx => ?_); rotate_left; clear_value x; rotate_right; subst x) | clear_value x | skip)
    | lift_lets -underBinder
    | with_reducible apply Quiet.ite
    | with_reducible apply State.noteDlat_quiet
    | with_reducible apply State.updDom_quiet
    | split

theorem State.latencyRx_apart {nd : Node} {u : State} {s : State} {l : LinkId} {rx : Rx} (h_l : l.node = nd) (hs : Apart nd u s) : Apart nd u ((State.latencyRx (s) (l) (rx))) := by
  refine Apart.trans hs ?_
  unfold State.latencyRx
  repeat' first
    | with_reducible exact Apart.refl _
    | with_reducible assumption
    | (with_reducible refine (?_ : (_ : Node) = _); first | rfl | assumption | (simp_all only []; done) | (simp_all; done) | (cases nd <;> simp_all; done))
    | (intro x; first | clear_value x | skip)
    | lift_lets -underBinder
    | with_reducible apply Apart.ite
    | with_reducible apply Apart.step (State.dlatTake_quiet ?_ (Quiet.refl _))
    | with_reducible apply State.receive_apart
    | with_reducible apply Apart.foldl
    | split
    | with_reducible refine Apart.ofPair (by with_reducible assumption) ?_

theorem execLatencyRx_apart {nd : Node} {u : State} {l : LinkId} {rx : Rx} {s : State} (h_l : l.node = nd) (hs : Apart nd u s) : Apart nd u ((State.after (s) (execLatencyRx (l) (rx) (s)))) := by
  refine Apart.trans hs ?_
  unfold execLatencyRx
  rw [State.after_next]
  repeat' first
    | with_reducible exact Apart.refl _
    | with_reducible assumption
    | with_reducible apply Apart.step (State.cutThrough_quiet ?_ (Quiet.refl _))
    | with_reducible apply State.latencyRx_apart

theorem State.gdLatencySend_quiet {nd : Node} {u : State} {s : State} {p : Nat} {tag : BitVec 24} (hn : nd = .gd) (hs : Quiet nd u s) : Quiet nd u ((State.gdLatencySend (s) (p) (tag))) := by
  subst hn
  refine Quiet.trans hs ?_
  unfold State.gdLatencySend
  repeat' first
    | with_reducible exact Quiet.refl _
    | with_reducible assumption
    | with_reducible rfl
    | (intro x; first | (refine Quiet.use (x := x) ?_ (fun hx => ?_); rotate_left; clear_value x; rotate_right; subst x) | clear_value x | skip)
    | lift_lets -underBinder
    | with_reducible apply Quiet.ite
    | with_reducible apply State.send_quiet
    | with_reducible apply State.updDom_quiet
    | split

theorem execLatencySend_quiet {nd : Node} {u : State} {l : LinkId} {tag : BitVec 24} {s : State} (h_l : l.node = nd) (hs : Quiet nd u s) : Quiet nd u ((State.after (s) (execLatencySend (l) (tag) (s)))) := by
  refine Quiet.trans hs ?_
  unfold execLatencySend
  rw [State.after_next]
  repeat' first
    | with_reducible exact Quiet.refl _
    | (with_reducible refine (?_ : (_ : Node) = _); first | rfl | assumption | (simp_all only []; done) | (simp_all; done) | (cases nd <;> simp_all; done))
    | with_reducible apply State.gdLatencySend_quiet
    | with_reducible apply State.tsuLatencySend_quiet
    | split

theorem State.gdRequest_apart {nd : Node} {u : State} {s : State} {l : LinkId} {d : GdDom} {f : Frame} {abort : Bool} (h_l : l.node = nd) (hn : nd = .gd) (hs : Apart nd u s) : Apart nd u ((State.gdRequest (s) (l) (d) (f) (abort))) := by
  subst hn
  refine Apart.trans hs ?_
  unfold State.gdRequest
  repeat' first
    | with_reducible exact Apart.refl _
    | with_reducible assumption
    | with_reducible rfl
    | with_reducible apply Apart.ite
    | with_reducible apply Apart.step (State.abortRequest_quiet ?_ (Quiet.refl _))
    | with_reducible apply Apart.step (State.gdUp_quiet ?_ (Quiet.refl _))
    | with_reducible apply State.orderRequest_apart
    | with_reducible apply Apart.step (State.upPart_quiet ?_ ?_ (Quiet.refl _))
    | split
    | with_reducible refine Apart.ofPair (by with_reducible assumption) ?_
    | intro x

theorem State.gdBroadcast_quiet {nd : Node} {u : State} {s : State} {l : LinkId} {d : GdDom} {f : Frame} {abort : Bool} (h_l : l.node = nd) (hn : nd = .gd) (hs : Quiet nd u s) : Quiet nd u ((State.gdBroadcast (s) (l) (d) (f) (abort))) := by
  subst hn
  refine Quiet.trans hs ?_
  unfold State.gdBroadcast
  repeat' first
    | with_reducible exact Quiet.refl _
    | with_reducible assumption
    | with_reducible rfl
    | (intro x; first | clear_value x | skip)
    | lift_lets -underBinder
    | with_reducible apply Quiet.ite
    | with_reducible apply State.abortStart_quiet
    | with_reducible apply State.broadcast_quiet
    | with_reducible apply State.malformed_quiet
    | with_reducible apply State.updDom_quiet

theorem State.gdAbortRx_apart {nd : Node} {u : State} {s : State} {l : LinkId} {rx : Rx} (h_l : l.node = nd) (hn : nd = .gd) (hs : Apart nd u s) : Apart nd u ((State.gdAbortRx (s) (l) (rx))) := by
  subst hn
  refine Apart.trans hs ?_
  unfold State.gdAbortRx
  repeat' first
    | with_reducible exact Apart.refl _
    | with_reducible assumption
    | with_reducible rfl
    | intro x
    | lift_lets -underBinder
    | with_reducible apply Apart.ite
    | with_reducible apply Apart.step (State.gdBroadcast_quiet ?_ ?_ (Quiet.refl _))
    | with_reducible apply State.gdMessage_apart
    | with_reducible apply State.gdRequest_apart
    | split
    | with_reducible refine Apart.ofPair (by with_reducible assumption) ?_

theorem execAbortFrameRx_apart {nd : Node} {u : State} {l : LinkId} {rx : Rx} {s : State} (h_l : l.node = nd) (hs : Apart nd u s) : Apart nd u ((State.after (s) (execAbortFrameRx (l) (rx) (s)))) := by
  refine Apart.trans hs ?_
  unfold execAbortFrameRx
  rw [State.after_next]
  repeat' first
    | with_reducible exact Apart.refl _
    | with_reducible assumption
    | (with_reducible refine (?_ : (_ : Node) = _); first | rfl | assumption | (simp_all only []; done) | (simp_all; done) | (cases nd <;> simp_all; done))
    | with_reducible apply Apart.ite
    | with_reducible apply Apart.step (State.cutThrough_quiet ?_ (Quiet.refl _))
    | with_reducible apply State.gdAbortRx_apart
    | with_reducible apply Apart.step (State.malformed_quiet ?_ (Quiet.refl _))
    | with_reducible apply State.receive_apart
    | with_reducible apply Apart.step (State.tsuAbortRx_quiet ?_ ?_ (Quiet.refl _))
    | split
    | with_reducible refine Apart.ofPair (by with_reducible assumption) ?_
    | intro x

theorem State.gdAbortDone_apart {nd : Node} {u : State} {s : State} {l : LinkId} {rx : Rx} (h_l : l.node = nd) (hn : nd = .gd) (hs : Apart nd u s) : Apart nd u ((State.gdAbortDone (s) (l) (rx))) := by
  subst hn
  refine Apart.trans hs ?_
  unfold State.gdAbortDone
  repeat' first
    | with_reducible exact Apart.refl _
    | with_reducible assumption
    | with_reducible rfl
    | (intro x; first | (refine Apart.use (x := x) ?_ (fun hx => ?_); rotate_left; clear_value x; rotate_right; subst x) | clear_value x | skip)
    | lift_lets -underBinder
    | with_reducible apply Apart.ite
    | with_reducible apply Apart.step (State.abortProgress_quiet ?_ (Quiet.refl _))
    | with_reducible apply State.gdMessage_apart
    | with_reducible apply Apart.step (State.upPart_quiet ?_ ?_ (Quiet.refl _))
    | with_reducible apply Apart.step (State.updDom_quiet ?_ (Quiet.refl _))
    | split
    | with_reducible refine Apart.ofPair (by with_reducible assumption) ?_

theorem execAbortDoneRx_apart {nd : Node} {u : State} {l : LinkId} {rx : Rx} {s : State} (h_l : l.node = nd) (hs : Apart nd u s) : Apart nd u ((State.after (s) (execAbortDoneRx (l) (rx) (s)))) := by
  refine Apart.trans hs ?_
  unfold execAbortDoneRx
  rw [State.after_next]
  repeat' first
    | with_reducible exact Apart.refl _
    | with_reducible assumption
    | (with_reducible refine (?_ : (_ : Node) = _); first | rfl | assumption | (simp_all only []; done) | (simp_all; done) | (cases nd <;> simp_all; done))
    | with_reducible apply Apart.ite
    | with_reducible apply Apart.step (State.cutThrough_quiet ?_ (Quiet.refl _))
    | with_reducible apply State.gdAbortDone_apart
    | intro x

theorem execAbortWaitExpiry_quiet {nd : Node} {u : State} {tag : BitVec 24} {s : State} (hn : nd = .gd) (hs : Quiet nd u s) : Quiet nd u ((State.after (s) (execAbortWaitExpiry (tag) (s)))) := by
  subst hn
  refine Quiet.trans hs ?_
  unfold execAbortWaitExpiry
  rw [State.after_next]
  repeat' first
    | with_reducible exact Quiet.refl _
    | with_reducible rfl
    | with_reducible apply State.abortProgress_quiet

theorem State.gdOrderRx_apart {nd : Node} {u : State} {s : State} {l : LinkId} {rx : Rx} (h_l : l.node = nd) (hn : nd = .gd) (hs : Apart nd u s) : Apart nd u ((State.gdOrderRx (s) (l) (rx))) := by
  subst hn
  refine Apart.trans hs ?_
  unfold State.gdOrderRx
  repeat' first
    | with_reducible exact Apart.refl _
    | with_reducible assumption
    | with_reducible rfl
    | intro x
    | lift_lets -underBinder
    | with_reducible apply Apart.ite
    | with_reducible apply Apart.step (State.gdBroadcast_quiet ?_ ?_ (Quiet.refl _))
    | with_reducible apply State.gdMessage_apart
    | with_reducible apply State.gdRequest_apart
    | split
    | with_reducible refine Apart.ofPair (by with_reducible assumption) ?_

theorem execOrderFrameRx_apart {nd : Node} {u : State} {l : LinkId} {rx : Rx} {s : State} (h_l : l.node = nd) (hs : Apart nd u s) : Apart nd u ((State.after (s) (execOrderFrameRx (l) (rx) (s)))) := by
  refine Apart.trans hs ?_
  unfold execOrderFrameRx
  rw [State.after_next]
  repeat' first
    | with_reducible exact Apart.refl _
    | with_reducible assumption
    | (with_reducible refine (?_ : (_ : Node) = _); first | rfl | assumption | (simp_all only []; done) | (simp_all; done) | (cases nd <;> simp_all; done))
    | with_reducible apply Apart.ite
    | with_reducible apply Apart.step (State.cutThrough_quiet ?_ (Quiet.refl _))
    | with_reducible apply State.gdOrderRx_apart
    | with_reducible apply Apart.step (State.malformed_quiet ?_ (Quiet.refl _))
    | with_reducible apply State.receive_apart
    | with_reducible apply Apart.step (State.tsuOrderRx_quiet ?_ ?_ (Quiet.refl _))
    | split
    | with_reducible refine Apart.ofPair (by with_reducible assumption) ?_
    | intro x

theorem State.gdAbortGo_quiet {nd : Node} {u : State} {s : State} {w : Word} (hn : nd = .gd) (hs : Quiet nd u s) : Quiet nd u ((State.gdAbortGo (s) (w))) := by
  subst hn
  refine Quiet.trans hs ?_
  unfold State.gdAbortGo
  repeat' first
    | with_reducible exact Quiet.refl _
    | with_reducible assumption
    | with_reducible rfl
    | (intro x; first | (refine Quiet.use (x := x) ?_ (fun hx => ?_); rotate_left; clear_value x; rotate_right; subst x) | clear_value x | skip)
    | lift_lets -underBinder
    | with_reducible apply Quiet.ite
    | with_reducible apply State.abortRequest_quiet
    | with_reducible apply State.gdUp_quiet
    | with_reducible apply State.setReg_quiet
    | split

theorem execGdAbortGo_quiet {nd : Node} {u : State} {w : Word} {s : State} (hn : nd = .gd) (hs : Quiet nd u s) : Quiet nd u ((State.after (s) (execGdAbortGo (w) (s)))) := by
  subst hn
  refine Quiet.trans hs ?_
  unfold execGdAbortGo
  rw [State.after_next]
  repeat' first
    | with_reducible exact Quiet.refl _
    | with_reducible rfl
    | with_reducible apply State.gdAbortGo_quiet

theorem State.gdOrderGo_apart {nd : Node} {u : State} {s : State} {w : Word} (hn : nd = .gd) (hs : Apart nd u s) : Apart nd u ((State.gdOrderGo (s) (w))) := by
  subst hn
  refine Apart.trans hs ?_
  unfold State.gdOrderGo
  repeat' first
    | with_reducible exact Apart.refl _
    | with_reducible assumption
    | with_reducible rfl
    | (intro x; first | (refine Apart.use (x := x) ?_ (fun hx => ?_); rotate_left; clear_value x; rotate_right; subst x) | clear_value x | skip)
    | lift_lets -underBinder
    | with_reducible apply Apart.ite
    | with_reducible apply Apart.step (State.gdUp_quiet ?_ (Quiet.refl _))
    | with_reducible apply State.orderRequest_apart
    | with_reducible apply Apart.step (State.setReg_quiet ?_ (Quiet.refl _))
    | with_reducible apply State.updCom_apart
    | split

theorem execGdOrderGo_apart {nd : Node} {u : State} {w : Word} {s : State} (hn : nd = .gd) (hs : Apart nd u s) : Apart nd u ((State.after (s) (execGdOrderGo (w) (s)))) := by
  subst hn
  refine Apart.trans hs ?_
  unfold execGdOrderGo
  rw [State.after_next]
  repeat' first
    | with_reducible exact Apart.refl _
    | with_reducible rfl
    | with_reducible apply State.gdOrderGo_apart

end Sys2Proof.Machine
end

