-- ==== Sys2Proof/Laws/ApartFirmware.lean ====
section
/-! SUPPORT. Which part the operations of `Sys2Proof.Machine.Firmware` act at, and whether they leave its time alone. -/

namespace Sys2Proof.Machine

open Sys2Proof

set_option linter.unusedVariables false

theorem execCardDetect_quiet {nd : Node} {u : State} {data : List Byte} {s : State} (hn : nd = .gd) (hs : Quiet nd u s) : Quiet nd u ((State.after (s) (execCardDetect (data) (s)))) := by
  subst hn
  refine Quiet.trans hs ?_
  unfold execCardDetect
  rw [State.after_next]
  repeat' first
    | with_reducible exact Quiet.refl _
    | with_reducible rfl
    | with_reducible apply Quiet.ite
    | with_reducible apply State.fwLoad_quiet
    | intro x

theorem execFwLoadCard_quiet {nd : Node} {u : State} {data : List Byte} {s : State} (hn : nd = .gd) (hs : Quiet nd u s) : Quiet nd u ((State.after (s) (execFwLoadCard (data) (s)))) := by
  subst hn
  refine Quiet.trans hs ?_
  unfold execFwLoadCard
  rw [State.after_next]
  repeat' first
    | with_reducible exact Quiet.refl _
    | with_reducible rfl
    | with_reducible apply State.fwLoad_quiet

theorem execFwSlotWriteDone_quiet {nd : Node} {u : State} {crcOk signatureOk writeOk : Bool} {s : State} (hn : nd = .gd) (hs : Quiet nd u s) : Quiet nd u ((State.after (s) (execFwSlotWriteDone (crcOk) (signatureOk) (writeOk) (s)))) := by
  subst hn
  refine Quiet.trans hs ?_
  unfold execFwSlotWriteDone
  rw [State.after_next]
  repeat' first
    | with_reducible exact Quiet.refl _
    | with_reducible rfl
    | with_reducible apply State.fwWritten_quiet

theorem State.fwControl_quiet {nd : Node} {u : State} {s : State} {acc : Access} {f : State → State} (k_f : ∀ x, Quiet nd x (f x)) (hn : nd = .gd) (hs : Quiet nd u s) : Quiet nd u ((State.fwControl (s) (acc) (f))) := by
  subst hn
  refine Quiet.trans hs ?_
  unfold State.fwControl
  repeat' first
    | with_reducible exact Quiet.refl _
    | with_reducible assumption
    | with_reducible rfl
    | with_reducible apply State.gdWrite_quiet

theorem State.fwControl_apart {nd : Node} {u : State} {s : State} {acc : Access} {f : State → State} (k_f : ∀ x, Apart nd x (f x)) (hn : nd = .gd) (hs : Apart nd u s) : Apart nd u ((State.fwControl (s) (acc) (f))) := by
  subst hn
  refine Apart.trans hs ?_
  unfold State.fwControl
  repeat' first
    | with_reducible exact Apart.refl _
    | with_reducible assumption
    | with_reducible rfl
    | with_reducible apply State.gdWrite_apart

theorem execFwActivate_apart {nd : Node} {u : State} {acc : Access} {s : State} (hn : nd = .gd) (hs : Apart nd u s) : Apart nd u ((State.after (s) (execFwActivate (acc) (s)))) := by
  subst hn
  refine Apart.trans hs ?_
  unfold execFwActivate
  rw [State.after_next]
  repeat' first
    | with_reducible exact Apart.refl _
    | with_reducible rfl
    | intro x
    | lift_lets -underBinder
    | with_reducible apply State.fwActivate_apart
    | with_reducible apply State.fwControl_apart

theorem execFwCommit_quiet {nd : Node} {u : State} {acc : Access} {s : State} (hn : nd = .gd) (hs : Quiet nd u s) : Quiet nd u ((State.after (s) (execFwCommit (acc) (s)))) := by
  subst hn
  refine Quiet.trans hs ?_
  unfold execFwCommit
  rw [State.after_next]
  repeat' first
    | with_reducible exact Quiet.refl _
    | with_reducible rfl
    | with_reducible apply State.fwCommit_quiet
    | with_reducible apply State.fwControl_quiet
    | intro x

theorem execFwRevert_apart {nd : Node} {u : State} {acc : Access} {s : State} (hn : nd = .gd) (hs : Apart nd u s) : Apart nd u ((State.after (s) (execFwRevert (acc) (s)))) := by
  subst hn
  refine Apart.trans hs ?_
  unfold execFwRevert
  rw [State.after_next]
  repeat' first
    | with_reducible exact Apart.refl _
    | with_reducible rfl
    | intro x
    | lift_lets -underBinder
    | with_reducible apply State.fwControl_apart
    | with_reducible apply State.fwRevert_apart

theorem State.understudyBooted_quiet {nd : Node} {u : State} {s : State} (hn : nd = .gd) (hs : Quiet nd u s) : Quiet nd u ((State.understudyBooted (s))) := by
  subst hn
  refine Quiet.trans hs ?_
  unfold State.understudyBooted
  repeat' first
    | with_reducible exact Quiet.refl _
    | with_reducible assumption
    | with_reducible rfl
    | (intro x; first | (refine Quiet.use (x := x) ?_ (fun hx => ?_); rotate_left; clear_value x; rotate_right; subst x) | clear_value x)
    | lift_lets -underBinder
    | with_reducible apply State.fwEnded_quiet
    | with_reducible apply State.logG_quiet
    | with_reducible apply State.settingsFor_quiet
    | with_reducible apply State.updFw_quiet
    | split

theorem execUnderstudyBooted_quiet {nd : Node} {u : State} {s : State} (hn : nd = .gd) (hs : Quiet nd u s) : Quiet nd u ((State.after (s) (execUnderstudyBooted (s)))) := by
  subst hn
  refine Quiet.trans hs ?_
  unfold execUnderstudyBooted
  rw [State.after_next]
  repeat' first
    | with_reducible exact Quiet.refl _
    | with_reducible rfl
    | with_reducible apply State.understudyBooted_quiet

theorem execUnderstudyBootTimeout_quiet {nd : Node} {u : State} {s : State} (hn : nd = .gd) (hs : Quiet nd u s) : Quiet nd u ((State.after (s) (execUnderstudyBootTimeout (s)))) := by
  subst hn
  refine Quiet.trans hs ?_
  unfold execUnderstudyBootTimeout
  rw [State.after_next]
  repeat' first
    | with_reducible exact Quiet.refl _
    | with_reducible rfl
    | intro x
    | lift_lets -underBinder
    | with_reducible apply Quiet.ite
    | with_reducible apply State.fwRollback_quiet
    | with_reducible apply State.updFw_quiet
    | split

theorem execActivateCensusWait_apart {nd : Node} {u : State} {s : State} (hn : nd = .gd) (hs : Apart nd u s) : Apart nd u ((State.after (s) (execActivateCensusWait (s)))) := by
  subst hn
  refine Apart.trans hs ?_
  unfold execActivateCensusWait
  rw [State.after_next]
  repeat' first
    | with_reducible exact Apart.refl _
    | with_reducible rfl
    | intro x
    | lift_lets -underBinder
    | with_reducible apply Apart.ite
    | with_reducible apply State.fwBegin_apart
    | with_reducible apply Apart.step (State.fwBusyErr_quiet ?_ (Quiet.refl _))
    | with_reducible apply Apart.step (State.updFw_quiet ?_ (Quiet.refl _))
    | split

theorem execCommitWaitExpiry_quiet {nd : Node} {u : State} {s : State} (hn : nd = .gd) (hs : Quiet nd u s) : Quiet nd u ((State.after (s) (execCommitWaitExpiry (s)))) := by
  subst hn
  refine Quiet.trans hs ?_
  unfold execCommitWaitExpiry
  rw [State.after_next]
  repeat' first
    | with_reducible exact Quiet.refl _
    | with_reducible rfl
    | with_reducible apply Quiet.ite
    | with_reducible apply State.fwCommit_quiet
    | intro x

theorem execHeartbeatMiss_apart {nd : Node} {u : State} {s : State} (hn : nd = .gd) (hs : Apart nd u s) : Apart nd u ((State.after (s) (execHeartbeatMiss (s)))) := by
  subst hn
  refine Apart.trans hs ?_
  unfold execHeartbeatMiss
  rw [State.after_next]
  repeat' first
    | with_reducible exact Apart.refl _
    | with_reducible rfl
    | with_reducible apply State.fwRevert_apart

theorem State.fwctlHere_apart {nd : Node} {u : State} {s : State} {l : LinkId} {f : Frame} (h_l : l.node = nd) (hn : nd = .gd) (hs : Apart nd u s) : Apart nd u ((State.fwctlHere (s) (l) (f))) := by
  subst hn
  refine Apart.trans hs ?_
  unfold State.fwctlHere
  repeat' first
    | with_reducible exact Apart.refl _
    | with_reducible rfl
    | with_reducible apply Apart.ite
    | with_reducible apply State.fwActivate_apart
    | with_reducible apply Apart.step (State.fwCommit_quiet ?_ (Quiet.refl _))
    | with_reducible apply State.fwRevert_apart
    | with_reducible apply Apart.step (State.logG_quiet ?_ (Quiet.refl _))
    | split
    | intro x

theorem State.fwctlRx_apart {nd : Node} {u : State} {s : State} {l : LinkId} {rx : Rx} (h_l : l.node = nd) (hs : Apart nd u s) : Apart nd u ((State.fwctlRx (s) (l) (rx))) := by
  refine Apart.trans hs ?_
  unfold State.fwctlRx
  repeat' first
    | with_reducible exact Apart.refl _
    | with_reducible assumption
    | (with_reducible refine (?_ : (_ : Node) = _); first | rfl | assumption | (simp_all only []; done) | (simp_all; done) | (cases nd <;> simp_all; done))
    | (intro x; first | clear_value x | skip)
    | lift_lets -underBinder
    | with_reducible apply Apart.ite
    | with_reducible apply State.fwctlHere_apart
    | with_reducible apply Apart.step (State.malformed_quiet ?_ (Quiet.refl _))
    | with_reducible apply State.receive_apart
    | with_reducible apply Apart.step (State.send_quiet ?_ (Quiet.refl _))
    | split
    | with_reducible refine Apart.ofPair (by with_reducible assumption) ?_

theorem execFwctlRx_apart {nd : Node} {u : State} {l : LinkId} {rx : Rx} {s : State} (h_l : l.node = nd) (hs : Apart nd u s) : Apart nd u ((State.after (s) (execFwctlRx (l) (rx) (s)))) := by
  refine Apart.trans hs ?_
  unfold execFwctlRx
  rw [State.after_next]
  repeat' first
    | with_reducible exact Apart.refl _
    | with_reducible assumption
    | with_reducible apply Apart.step (State.cutThrough_quiet ?_ (Quiet.refl _))
    | with_reducible apply State.fwctlRx_apart

theorem State.sealTo_quiet {nd : Node} {u : State} {s : State} {st : SealState} (hn : nd = .gd) (hs : Quiet nd u s) : Quiet nd u ((State.sealTo (s) (st))) := by
  subst hn
  refine Quiet.trans hs ?_
  unfold State.sealTo
  repeat' first
    | with_reducible exact Quiet.refl _
    | with_reducible assumption
    | with_reducible rfl
    | (intro x; first | (refine Quiet.use (x := x) ?_ (fun hx => ?_); rotate_left; clear_value x; rotate_right; subst x) | skip)
    | lift_lets -underBinder
    | with_reducible apply Quiet.ite
    | ((with_reducible apply State.updGd_quiet); rotate_left; focus (intro t; first | rfl | exact Gd.journalWrite_time ..))
    | ((with_reducible apply State.updCom_quiet); rotate_left; focus (intro t; exact Common.setIrq_time ..))

theorem State.tamperClear_quiet {nd : Node} {u : State} {s : State} (hn : nd = .gd) (hs : Quiet nd u s) : Quiet nd u ((State.tamperClear (s))) := by
  subst hn
  refine Quiet.trans hs ?_
  unfold State.tamperClear
  repeat' first
    | with_reducible exact Quiet.refl _
    | with_reducible rfl
    | with_reducible apply Quiet.ite
    | with_reducible apply State.sealTo_quiet
    | intro x

theorem State.keyswChange_quiet {nd : Node} {u : State} {s : State} {isOpen : Bool} (hn : nd = .gd) (hs : Quiet nd u s) : Quiet nd u ((State.keyswChange (s) (isOpen))) := by
  subst hn
  refine Quiet.trans hs ?_
  unfold State.keyswChange
  repeat' first
    | with_reducible exact Quiet.refl _
    | with_reducible assumption
    | with_reducible rfl
    | (intro x; first | (refine Quiet.use (x := x) ?_ (fun hx => ?_); rotate_left; clear_value x; rotate_right; subst x) | skip)
    | lift_lets -underBinder
    | with_reducible apply Quiet.ite
    | with_reducible apply State.sealTo_quiet
    | with_reducible apply State.tamperClear_quiet
    | ((with_reducible apply State.updGd_quiet); rotate_left; focus (intro t; rfl))

theorem execKeyswChange_quiet {nd : Node} {u : State} {isOpen : Bool} {s : State} (hn : nd = .gd) (hs : Quiet nd u s) : Quiet nd u ((State.after (s) (execKeyswChange (isOpen) (s)))) := by
  subst hn
  refine Quiet.trans hs ?_
  unfold execKeyswChange
  rw [State.after_next]
  repeat' first
    | with_reducible exact Quiet.refl _
    | with_reducible rfl
    | with_reducible apply State.keyswChange_quiet

theorem execPresencePress_quiet {nd : Node} {u : State} {s : State} (hn : nd = .gd) (hs : Quiet nd u s) : Quiet nd u ((State.after (s) (execPresencePress (s)))) := by
  subst hn
  refine Quiet.trans hs ?_
  unfold execPresencePress
  rw [State.after_next]
  repeat' first
    | with_reducible exact Quiet.refl _
    | with_reducible rfl
    | with_reducible apply Quiet.ite
    | with_reducible apply State.sealTo_quiet
    | intro x

theorem execTamperLoopBreak_quiet {nd : Node} {u : State} {s : State} (hn : nd = .gd) (hs : Quiet nd u s) : Quiet nd u ((State.after (s) (execTamperLoopBreak (s)))) := by
  subst hn
  refine Quiet.trans hs ?_
  unfold execTamperLoopBreak
  rw [State.after_next]
  repeat' first
    | with_reducible exact Quiet.refl _
    | with_reducible rfl
    | intro x
    | lift_lets -underBinder
    | with_reducible apply Quiet.ite
    | with_reducible apply State.logG_quiet
    | with_reducible apply State.sealTo_quiet
    | ((with_reducible apply State.updGd_quiet); rotate_left; focus (intro t; rfl))

theorem execTamperClear_quiet {nd : Node} {u : State} {s : State} (hn : nd = .gd) (hs : Quiet nd u s) : Quiet nd u ((State.after (s) (execTamperClear (s)))) := by
  subst hn
  refine Quiet.trans hs ?_
  unfold execTamperClear
  rw [State.after_next]
  repeat' first
    | with_reducible exact Quiet.refl _
    | with_reducible rfl
    | intro x
    | lift_lets -underBinder
    | with_reducible apply Quiet.ite
    | with_reducible apply State.tamperClear_quiet
    | ((with_reducible apply State.updGd_quiet); rotate_left; focus (intro t; rfl))

theorem execSealArmedExpiry_quiet {nd : Node} {u : State} {s : State} (hn : nd = .gd) (hs : Quiet nd u s) : Quiet nd u ((State.after (s) (execSealArmedExpiry (s)))) := by
  subst hn
  refine Quiet.trans hs ?_
  unfold execSealArmedExpiry
  rw [State.after_next]
  repeat' first
    | with_reducible exact Quiet.refl _
    | with_reducible rfl
    | with_reducible apply Quiet.ite
    | with_reducible apply State.logG_quiet
    | with_reducible apply State.sealTo_quiet
    | intro x

theorem execSealMaxExpiry_quiet {nd : Node} {u : State} {s : State} (hn : nd = .gd) (hs : Quiet nd u s) : Quiet nd u ((State.after (s) (execSealMaxExpiry (s)))) := by
  subst hn
  refine Quiet.trans hs ?_
  unfold execSealMaxExpiry
  rw [State.after_next]
  repeat' first
    | with_reducible exact Quiet.refl _
    | with_reducible rfl
    | with_reducible apply Quiet.ite
    | with_reducible apply State.sealTo_quiet
    | intro x

theorem execOwnerLockWrite_quiet {nd : Node} {u : State} {acc : Access} {w : Word} {s : State} (hn : nd = .gd) (hs : Quiet nd u s) : Quiet nd u ((State.after (s) (execOwnerLockWrite (acc) (w) (s)))) := by
  subst hn
  refine Quiet.trans hs ?_
  unfold execOwnerLockWrite
  rw [State.after_next]
  repeat' first
    | with_reducible exact Quiet.refl _
    | with_reducible rfl
    | intro x
    | lift_lets -underBinder
    | with_reducible apply State.gdWrite_quiet
    | ((with_reducible apply State.updGd_quiet); rotate_left; focus (intro t; rfl))

theorem State.fuseBlow_quiet {nd : Node} {u : State} {s : State} (hn : nd = .gd) (hs : Quiet nd u s) : Quiet nd u ((State.fuseBlow (s))) := by
  subst hn
  refine Quiet.trans hs ?_
  unfold State.fuseBlow
  repeat' first
    | with_reducible exact Quiet.refl _
    | with_reducible assumption
    | with_reducible rfl
    | (intro x; first | (refine Quiet.use (x := x) ?_ (fun hx => ?_); rotate_left; clear_value x; rotate_right; subst x) | clear_value x | skip)
    | lift_lets -underBinder
    | with_reducible apply Quiet.ite
    | with_reducible apply State.setEvt_quiet
    | ((with_reducible apply State.updGd_quiet); rotate_left; focus (intro t; rfl))

theorem execFuseBlow_quiet {nd : Node} {u : State} {acc : Access} {s : State} (hn : nd = .gd) (hs : Quiet nd u s) : Quiet nd u ((State.after (s) (execFuseBlow (acc) (s)))) := by
  subst hn
  refine Quiet.trans hs ?_
  unfold execFuseBlow
  rw [State.after_next]
  repeat' first
    | with_reducible exact Quiet.refl _
    | with_reducible rfl
    | with_reducible apply State.fuseBlow_quiet
    | with_reducible apply State.gdWrite_quiet
    | intro x

end Sys2Proof.Machine
end

