-- ==== Sys2Proof/Laws/ApartJoins.lean ====
section
/-! SUPPORT. Which part the operations of `Sys2Proof.Machine.Joins` act at, and whether they leave its time alone. -/

namespace Sys2Proof.Machine

open Sys2Proof

set_option linter.unusedVariables false

theorem State.restartNotice_quiet {nd : Node} {u : State} {s : State} {p : Nat} (hn : nd = .gd) (hs : Quiet nd u s) : Quiet nd u ((State.restartNotice (s) (p))) := by
  subst hn
  refine Quiet.trans hs ?_
  unfold State.restartNotice
  repeat' first
    | with_reducible exact Quiet.refl _
    | with_reducible assumption
    | with_reducible rfl
    | (intro x; first | (refine Quiet.use (x := x) ?_ (fun hx => ?_); rotate_left; clear_value x; rotate_right; subst x) | clear_value x)
    | lift_lets -underBinder
    | with_reducible apply State.absentAll_quiet
    | with_reducible apply State.downPortUp_quiet
    | with_reducible apply State.imageDown_quiet
    | ((with_reducible apply State.updGd_quiet); rotate_left; focus (intro t; rfl))

theorem State.joinAsked_quiet {nd : Node} {u : State} {s : State} {d : GdDom} {i die : Nat} (hn : nd = .gd) (hs : Quiet nd u s) : Quiet nd u ((State.joinAsked (s) (d) (i) (die))) := by
  subst hn
  refine Quiet.trans hs ?_
  unfold State.joinAsked
  repeat' first
    | with_reducible exact Quiet.refl _
    | with_reducible assumption
    | with_reducible rfl
    | (intro x; first | (refine Quiet.use (x := x) ?_ (fun hx => ?_); rotate_left; clear_value x; rotate_right; subst x) | clear_value x | skip)
    | lift_lets -underBinder
    | with_reducible apply Quiet.ite
    | with_reducible apply State.absentFrom_quiet
    | with_reducible apply State.gdDown_quiet
    | with_reducible apply State.mirror_quiet
    | with_reducible apply State.updDom_quiet

theorem State.joinReqRx_apart {nd : Node} {u : State} {s : State} {l : LinkId} {rx : Rx} (h_l : l.node = nd) (hs : Apart nd u s) : Apart nd u ((State.joinReqRx (s) (l) (rx))) := by
  refine Apart.trans hs ?_
  unfold State.joinReqRx
  repeat' first
    | with_reducible exact Apart.refl _
    | with_reducible assumption
    | (with_reducible refine (?_ : (_ : Node) = _); first | rfl | assumption | (simp_all only []; done) | (simp_all; done) | (cases nd <;> simp_all; done))
    | with_reducible apply Apart.ite
    | with_reducible apply Apart.step (State.joinAsked_quiet ?_ (Quiet.refl _))
    | with_reducible apply Apart.step (State.logG_quiet ?_ (Quiet.refl _))
    | with_reducible apply Apart.step (State.malformed_quiet ?_ (Quiet.refl _))
    | with_reducible apply State.recvOp_apart
    | with_reducible apply Apart.step (State.restartNotice_quiet ?_ (Quiet.refl _))
    | with_reducible apply Apart.step (State.upPart_quiet ?_ ?_ (Quiet.refl _))
    | split
    | with_reducible refine Apart.ofPair (by with_reducible assumption) ?_
    | intro x

theorem execJoinReqRx_apart {nd : Node} {u : State} {l : LinkId} {rx : Rx} {s : State} (h_l : l.node = nd) (hs : Apart nd u s) : Apart nd u ((State.after (s) (execJoinReqRx (l) (rx) (s)))) := by
  refine Apart.trans hs ?_
  unfold execJoinReqRx
  rw [State.after_next]
  repeat' first
    | with_reducible exact Apart.refl _
    | with_reducible assumption
    | with_reducible apply Apart.step (State.cutThrough_quiet ?_ (Quiet.refl _))
    | with_reducible apply State.joinReqRx_apart

theorem State.ackTsu_quiet {nd : Node} {u : State} {s : State} {l : LinkId} {tag : BitVec 24} {at_ : Int} (h_l : l.node = nd) (hn : nd = .tsu) (hs : Quiet nd u s) : Quiet nd u ((State.ackTsu (s) (l) (tag) (at_))) := by
  subst hn
  refine Quiet.trans hs ?_
  unfold State.ackTsu
  repeat' first
    | with_reducible exact Quiet.refl _
    | with_reducible assumption
    | with_reducible rfl
    | (intro x; first | (refine Quiet.use (x := x) ?_ (fun hx => ?_); rotate_left; clear_value x; rotate_right; subst x) | (have hf := funext (f := x) (g := x) (fun _ => rfl); clear hf; subst x) | skip)
    | lift_lets -underBinder
    | with_reducible apply Quiet.ite
    | with_reducible apply State.logT_quiet
    | with_reducible apply State.setEvt_quiet
    | with_reducible apply State.updBinding_quiet
    | ((with_reducible apply State.updTsu_quiet); rotate_left; focus (intro t; rfl))
    | split

theorem State.ackGd_quiet {nd : Node} {u : State} {s : State} {l : LinkId} {f : Frame} (h_l : l.node = nd) (hn : nd = .gd) (hs : Quiet nd u s) : Quiet nd u ((State.ackGd (s) (l) (f))) := by
  subst hn
  refine Quiet.trans hs ?_
  unfold State.ackGd
  repeat' first
    | with_reducible exact Quiet.refl _
    | with_reducible assumption
    | with_reducible rfl
    | (intro x; first | clear_value x | skip)
    | lift_lets -underBinder
    | with_reducible apply Quiet.ite
    | with_reducible apply State.malformed_quiet
    | with_reducible apply State.updDom_quiet
    | split

theorem execJoinAckRx_apart {nd : Node} {u : State} {l : LinkId} {rx : Rx} {s : State} (h_l : l.node = nd) (hs : Apart nd u s) : Apart nd u ((State.after (s) (execJoinAckRx (l) (rx) (s)))) := by
  refine Apart.trans hs ?_
  unfold execJoinAckRx
  rw [State.after_next]
  repeat' first
    | with_reducible exact Apart.refl _
    | with_reducible assumption
    | (with_reducible refine (?_ : (_ : Node) = _); first | rfl | assumption | (simp_all only []; done) | (simp_all; done) | (cases nd <;> simp_all; done))
    | with_reducible apply Apart.step (State.ackGd_quiet ?_ ?_ (Quiet.refl _))
    | with_reducible apply Apart.step (State.ackTsu_quiet ?_ ?_ (Quiet.refl _))
    | with_reducible apply Apart.step (State.cutThrough_quiet ?_ (Quiet.refl _))
    | with_reducible apply State.recvOp_apart
    | split
    | with_reducible refine Apart.ofPair (by with_reducible assumption) ?_

theorem State.shadowDomain_quiet {nd : Node} {u : State} {s : State} {tag : BitVec 24} (hn : nd = .tsu) (hs : Quiet nd u s) : Quiet nd u ((State.shadowDomain (s) (tag))) := by
  subst hn
  refine Quiet.trans hs ?_
  unfold State.shadowDomain
  repeat' first
    | with_reducible exact Quiet.refl _
    | with_reducible assumption
    | with_reducible rfl
    | (intro x; first | (refine Quiet.use (x := x) ?_ (fun hx => ?_); rotate_left; clear_value x; rotate_right; subst x) | clear_value x | skip)
    | lift_lets -underBinder
    | with_reducible apply State.enterShadow_quiet
    | with_reducible apply State.joinSoon_quiet
    | with_reducible apply State.updBinding_quiet
    | ((with_reducible apply State.updTsu_quiet); rotate_left; focus (intro t; rfl))
    | with_reducible apply Quiet.foldl
    | split

theorem State.absentTsu_quiet {nd : Node} {u : State} {s : State} {tag : BitVec 24} (hn : nd = .tsu) (hs : Quiet nd u s) : Quiet nd u ((State.absentTsu (s) (tag))) := by
  subst hn
  refine Quiet.trans hs ?_
  unfold State.absentTsu
  repeat' first
    | with_reducible exact Quiet.refl _
    | with_reducible assumption
    | with_reducible rfl
    | (intro x; first | (refine Quiet.use (x := x) ?_ (fun hx => ?_); rotate_left; clear_value x; rotate_right; subst x) | clear_value x | skip)
    | lift_lets -underBinder
    | with_reducible apply Quiet.ite
    | with_reducible apply State.shadowDomain_quiet
    | ((with_reducible apply State.updTsu_quiet); rotate_left; focus (intro t; rfl))
    | with_reducible apply Quiet.foldl

theorem State.absentGd_quiet {nd : Node} {u : State} {s : State} {l : LinkId} {f : Frame} (h_l : l.node = nd) (hn : nd = .gd) (hs : Quiet nd u s) : Quiet nd u ((State.absentGd (s) (l) (f))) := by
  subst hn
  refine Quiet.trans hs ?_
  unfold State.absentGd
  repeat' first
    | with_reducible exact Quiet.refl _
    | with_reducible assumption
    | with_reducible rfl
    | (intro x; first | (refine Quiet.use (x := x) ?_ (fun hx => ?_); rotate_left; clear_value x; rotate_right; subst x) | clear_value x | skip)
    | lift_lets -underBinder
    | with_reducible apply Quiet.ite
    | with_reducible apply State.gdJoinReqs_quiet
    | with_reducible apply State.malformed_quiet
    | with_reducible apply State.send_quiet
    | with_reducible apply State.updDom_quiet
    | ((with_reducible apply State.updGd_quiet); rotate_left; focus (intro t; rfl))
    | with_reducible apply Quiet.foldl

theorem execJoinAbsentRx_apart {nd : Node} {u : State} {l : LinkId} {rx : Rx} {s : State} (h_l : l.node = nd) (hs : Apart nd u s) : Apart nd u ((State.after (s) (execJoinAbsentRx (l) (rx) (s)))) := by
  refine Apart.trans hs ?_
  unfold execJoinAbsentRx
  rw [State.after_next]
  repeat' first
    | with_reducible exact Apart.refl _
    | with_reducible assumption
    | (with_reducible refine (?_ : (_ : Node) = _); first | rfl | assumption | (simp_all only []; done) | (simp_all; done) | (cases nd <;> simp_all; done))
    | with_reducible apply Apart.step (State.absentGd_quiet ?_ ?_ (Quiet.refl _))
    | with_reducible apply Apart.step (State.absentTsu_quiet ?_ (Quiet.refl _))
    | with_reducible apply Apart.step (State.cutThrough_quiet ?_ (Quiet.refl _))
    | with_reducible apply State.recvOp_apart
    | split
    | with_reducible refine Apart.ofPair (by with_reducible assumption) ?_

theorem execJoinRefuseRx_apart {nd : Node} {u : State} {l : LinkId} {rx : Rx} {s : State} (h_l : l.node = nd) (hs : Apart nd u s) : Apart nd u ((State.after (s) (execJoinRefuseRx (l) (rx) (s)))) := by
  refine Apart.trans hs ?_
  unfold execJoinRefuseRx
  rw [State.after_next]
  repeat' first
    | with_reducible exact Apart.refl _
    | with_reducible assumption
    | (with_reducible refine (?_ : (_ : Node) = _); first | rfl | assumption | (simp_all only []; done) | (simp_all; done) | (cases nd <;> simp_all; done))
    | (intro x; first | (refine Apart.use (x := x) ?_ (fun hx => ?_); rotate_left; clear_value x; rotate_right; subst x) | (have hf := funext (f := x) (g := x) (fun _ => rfl); clear hf; subst x) | skip)
    | lift_lets -underBinder
    | with_reducible apply Apart.ite
    | with_reducible apply Apart.step (State.cutThrough_quiet ?_ (Quiet.refl _))
    | with_reducible apply Apart.step (State.logG_quiet ?_ (Quiet.refl _))
    | with_reducible apply Apart.step (State.logT_quiet ?_ (Quiet.refl _))
    | with_reducible apply Apart.step (State.malformed_quiet ?_ (Quiet.refl _))
    | with_reducible apply State.recvOp_apart
    | with_reducible apply Apart.step (State.updBinding_quiet ?_ (Quiet.refl _))
    | with_reducible apply State.updTsu_apart
    | split
    | with_reducible refine Apart.ofPair (by with_reducible assumption) ?_

end Sys2Proof.Machine
end

