-- ==== Sys2Proof/Laws/ApartJournal.lean ====
section
/-! SUPPORT. Which part the operations of `Sys2Proof.Machine.Journal` act at, and whether they leave its time alone. -/

namespace Sys2Proof.Machine

open Sys2Proof

set_option linter.unusedVariables false

theorem State.journalDo_quiet {nd : Node} {u : State} {s : State} {off : Nat} {f : Journal → Journal} (hn : nd = .gd) (hs : Quiet nd u s) : Quiet nd u ((State.journalDo (s) (off) (f))) := by
  subst hn
  refine Quiet.trans hs ?_
  unfold State.journalDo
  repeat' first
    | with_reducible exact Quiet.refl _
    | with_reducible rfl
    | intro x
    | lift_lets -underBinder
    | with_reducible apply Quiet.ite
    | ((with_reducible apply State.updGd_quiet); rotate_left; focus (intro t; rfl))
    | ((with_reducible apply State.updCom_quiet); rotate_left; focus (intro t; exact Common.accessErr_time ..))

theorem execJournalFreeze_quiet {nd : Node} {u : State} {w : Word} {s : State} (hn : nd = .gd) (hs : Quiet nd u s) : Quiet nd u ((State.after (s) (execJournalFreeze (w) (s)))) := by
  subst hn
  refine Quiet.trans hs ?_
  unfold execJournalFreeze
  rw [State.after_next]
  repeat' first
    | with_reducible exact Quiet.refl _
    | with_reducible assumption
    | with_reducible rfl
    | (intro x; first | (refine Quiet.use (x := x) ?_ (fun hx => ?_); rotate_left; clear_value x; rotate_right; subst x) | skip)
    | lift_lets -underBinder
    | with_reducible apply Quiet.ite
    | with_reducible apply State.journalDo_quiet
    | with_reducible apply State.setReg_quiet

theorem execJournalTriggerStop_quiet {nd : Node} {u : State} {s : State} (hn : nd = .gd) (hs : Quiet nd u s) : Quiet nd u ((State.after (s) (execJournalTriggerStop (s)))) := by
  subst hn
  refine Quiet.trans hs ?_
  unfold execJournalTriggerStop
  rw [State.after_next]
  repeat' first
    | with_reducible exact Quiet.refl _
    | with_reducible rfl
    | ((with_reducible apply State.updGd_quiet); rotate_left; focus (intro t; rfl))

theorem execJournalRead_quiet {nd : Node} {u : State} {w : Word} {s : State} (hn : nd = .gd) (hs : Quiet nd u s) : Quiet nd u ((State.after (s) (execJournalRead (w) (s)))) := by
  subst hn
  refine Quiet.trans hs ?_
  unfold execJournalRead
  rw [State.after_next]
  repeat' first
    | with_reducible exact Quiet.refl _
    | with_reducible assumption
    | with_reducible rfl
    | (intro x; first | (refine Quiet.use (x := x) ?_ (fun hx => ?_); rotate_left; clear_value x; rotate_right; subst x) | skip)
    | lift_lets -underBinder
    | with_reducible apply Quiet.ite
    | with_reducible apply State.journalDo_quiet
    | with_reducible apply State.setReg_quiet

theorem execJournalRetrain_apart {nd : Node} {u : State} {s : State} (hn : nd = .gd) (hs : Apart nd u s) : Apart nd u ((State.after (s) (execJournalRetrain (s)))) := by
  subst hn
  refine Apart.trans hs ?_
  unfold execJournalRetrain
  rw [State.after_next]
  repeat' first
    | with_reducible exact Apart.refl _
    | with_reducible rfl
    | intro x
    | lift_lets -underBinder
    | with_reducible apply Apart.ite
    | with_reducible apply State.updGd_apart

end Sys2Proof.Machine
end

