-- ==== Sys2Proof/Laws/ApartResults.lean ====
section
/-! SUPPORT. Which part the operations of `Sys2Proof.Machine.Results` act at, and whether they leave its time alone. -/

namespace Sys2Proof.Machine

open Sys2Proof

set_option linter.unusedVariables false

theorem State.portAnswer_quiet {nd : Node} {u : State} {s : State} {q : ResultRead} {a : PortReply} (hn : nd = .tsu) (hs : Quiet nd u s) : Quiet nd u ((State.portAnswer (s) (q) (a))) := by
  subst hn
  refine Quiet.trans hs ?_
  unfold State.portAnswer
  repeat' first
    | with_reducible exact Quiet.refl _
    | with_reducible assumption
    | with_reducible rfl
    | (intro x; first | (refine Quiet.use (x := x) ?_ (fun hx => ?_); rotate_left; clear_value x; rotate_right; subst x) | skip)
    | lift_lets -underBinder
    | with_reducible apply Quiet.ite
    | with_reducible apply State.logT_quiet
    | ((with_reducible apply State.updTsu_quiet); rotate_left; focus (intro t; rfl))
    | with_reducible apply State.takeFresh_quiet
    | split

theorem execResultRead_quiet {nd : Node} {u : State} {r : ResultRead} {s : State} (hn : nd = .tsu) (hs : Quiet nd u s) : Quiet nd u ((State.after (s) (execResultRead (r) (s)))) := by
  subst hn
  refine Quiet.trans hs ?_
  unfold execResultRead
  rw [State.after_next]
  repeat' first
    | with_reducible exact Quiet.refl _
    | with_reducible rfl
    | (intro x; first | clear_value x | skip)
    | lift_lets -underBinder
    | with_reducible apply Quiet.ite
    | with_reducible apply State.portAnswer_quiet
    | ((with_reducible apply State.updTsu_quiet); rotate_left; focus (intro t; rfl))
    | split

theorem State.resultWaitExpiry_quiet {nd : Node} {u : State} {s : State} (hn : nd = .tsu) (hs : Quiet nd u s) : Quiet nd u ((State.resultWaitExpiry (s))) := by
  subst hn
  refine Quiet.trans hs ?_
  unfold State.resultWaitExpiry
  repeat' first
    | with_reducible exact Quiet.refl _
    | with_reducible assumption
    | with_reducible rfl
    | (intro x; first | (refine Quiet.use (x := x) ?_ (fun hx => ?_); rotate_left; clear_value x; rotate_right; subst x) | skip)
    | lift_lets -underBinder
    | with_reducible apply Quiet.ite
    | with_reducible apply State.portAnswer_quiet
    | ((with_reducible apply State.updTsu_quiet); rotate_left; focus (intro t; rfl))
    | split

theorem execResultWaitExpiry_quiet {nd : Node} {u : State} {s : State} (hn : nd = .tsu) (hs : Quiet nd u s) : Quiet nd u ((State.after (s) (execResultWaitExpiry (s)))) := by
  subst hn
  refine Quiet.trans hs ?_
  unfold execResultWaitExpiry
  rw [State.after_next]
  repeat' first
    | with_reducible exact Quiet.refl _
    | with_reducible rfl
    | with_reducible apply State.resultWaitExpiry_quiet

theorem State.stallServe_quiet {nd : Node} {u : State} {s : State} (hn : nd = .tsu) (hs : Quiet nd u s) : Quiet nd u ((State.stallServe (s))) := by
  subst hn
  refine Quiet.trans hs ?_
  unfold State.stallServe
  repeat' first
    | with_reducible exact Quiet.refl _
    | with_reducible rfl
    | lift_lets -underBinder
    | with_reducible apply State.portAnswer_quiet
    | ((with_reducible apply State.updTsu_quiet); rotate_left; focus (intro t; rfl))
    | split

end Sys2Proof.Machine
end

