-- ==== Sys2Proof/Laws/ApartReferences.lean ====
section
/-! SUPPORT. Which part the operations of `Sys2Proof.Machine.References` act at, and whether they leave its time alone. -/

namespace Sys2Proof.Machine

open Sys2Proof

set_option linter.unusedVariables false

theorem State.takeoverWaitExpiry_apart {nd : Node} {u : State} {s : State} (hn : nd = .gd) (hs : Apart nd u s) : Apart nd u ((State.takeoverWaitExpiry (s))) := by
  subst hn
  refine Apart.trans hs ?_
  unfold State.takeoverWaitExpiry
  repeat' first
    | with_reducible exact Apart.refl _
    | with_reducible rfl
    | (intro x; first | (have hf : (x : LinkId) = x := rfl; clear hf; subst x) | skip)
    | lift_lets -underBinder
    | with_reducible apply Apart.ite
    | with_reducible apply State.takeOver_apart
    | split

theorem execTakeoverWaitExpiry_apart {nd : Node} {u : State} {s : State} (hn : nd = .gd) (hs : Apart nd u s) : Apart nd u ((State.after (s) (execTakeoverWaitExpiry (s)))) := by
  subst hn
  refine Apart.trans hs ?_
  unfold execTakeoverWaitExpiry
  rw [State.after_next]
  repeat' first
    | with_reducible exact Apart.refl _
    | with_reducible rfl
    | with_reducible apply State.takeoverWaitExpiry_apart

theorem State.refPpsEdge_quiet {nd : Node} {u : State} {s : State} {n : Nat} {stamp : Int} (hn : nd = .gd) (hs : Quiet nd u s) : Quiet nd u ((State.refPpsEdge (s) (n) (stamp))) := by
  subst hn
  refine Quiet.trans hs ?_
  unfold State.refPpsEdge
  repeat' first
    | with_reducible exact Quiet.refl _
    | with_reducible assumption
    | with_reducible rfl
    | (intro x; first | (refine Quiet.use (x := x) ?_ (fun hx => ?_); rotate_left; clear_value x; rotate_right; subst x) | clear_value x | skip)
    | lift_lets -underBinder
    | with_reducible apply Quiet.ite
    | with_reducible apply State.noteRate_quiet
    | with_reducible apply State.refFault_quiet
    | with_reducible apply State.refGood_quiet
    | with_reducible apply State.updRefSrc_quiet
    | split

theorem execRefPpsEdge_quiet {nd : Node} {u : State} {n : Nat} {stamp : Int} {s : State} (hn : nd = .gd) (hs : Quiet nd u s) : Quiet nd u ((State.after (s) (execRefPpsEdge (n) (stamp) (s)))) := by
  subst hn
  refine Quiet.trans hs ?_
  unfold execRefPpsEdge
  rw [State.after_next]
  repeat' first
    | with_reducible exact Quiet.refl _
    | with_reducible rfl
    | with_reducible apply State.refPpsEdge_quiet

theorem State.takeUtc_apart {nd : Node} {u : State} {s : State} {utc : Option (BitVec 16)} {leap : Option LeapNews} (hn : nd = .gd) (hs : Apart nd u s) : Apart nd u ((State.takeUtc (s) (utc) (leap))) := by
  subst hn
  refine Apart.trans hs ?_
  unfold State.takeUtc
  repeat' first
    | with_reducible exact Apart.refl _
    | with_reducible assumption
    | with_reducible rfl
    | (intro x; first | (refine Apart.use (x := x) ?_ (fun hx => ?_); rotate_left; clear_value x; rotate_right; subst x) | skip)
    | lift_lets -underBinder
    | with_reducible apply Apart.ite
    | with_reducible apply State.updTime_apart
    | split

theorem State.todMessageRx_apart {nd : Node} {u : State} {s : State} {n : Nat} {stamp : Int} {second : Nat} {checksumOk : Bool} {utcOffset : BitVec 16} {leap : Option LeapNews} (hn : nd = .gd) (hs : Apart nd u s) : Apart nd u ((State.todMessageRx (s) (n) (stamp) (second) (checksumOk) (utcOffset) (leap))) := by
  subst hn
  refine Apart.trans hs ?_
  unfold State.todMessageRx
  repeat' first
    | with_reducible exact Apart.refl _
    | with_reducible assumption
    | with_reducible rfl
    | (intro x; first | (refine Apart.use (x := x) ?_ (fun hx => ?_); rotate_left; clear_value x; rotate_right; subst x) | clear_value x | skip)
    | lift_lets -underBinder
    | with_reducible apply Apart.ite
    | with_reducible apply Apart.step (State.refFault_quiet ?_ (Quiet.refl _))
    | with_reducible apply Apart.step (State.refGood_quiet ?_ (Quiet.refl _))
    | with_reducible apply State.takeUtc_apart
    | with_reducible apply State.updRefSrc_apart
    | split

theorem execTodMessageRx_apart {nd : Node} {u : State} {n : Nat} {stamp : Int} {second : Nat} {checksumOk : Bool} {utc : UtcNews} {s : State} (hn : nd = .gd) (hs : Apart nd u s) : Apart nd u ((State.after (s) (execTodMessageRx (n) (stamp) (second) (checksumOk) (utc) (s)))) := by
  subst hn
  refine Apart.trans hs ?_
  unfold execTodMessageRx
  rw [State.after_next]
  repeat' first
    | with_reducible exact Apart.refl _
    | with_reducible rfl
    | with_reducible apply State.todMessageRx_apart

theorem State.ptpMessageRx_apart {nd : Node} {u : State} {s : State} {n : Nat} {m : PtpMessage} (hn : nd = .gd) (hs : Apart nd u s) : Apart nd u ((State.ptpMessageRx (s) (n) (m))) := by
  subst hn
  refine Apart.trans hs ?_
  unfold State.ptpMessageRx
  repeat' first
    | with_reducible exact Apart.refl _
    | with_reducible assumption
    | with_reducible rfl
    | (intro x; first | (refine Apart.use (x := x) ?_ (fun hx => ?_); rotate_left; clear_value x; rotate_right; subst x) | clear_value x | skip)
    | lift_lets -underBinder
    | with_reducible apply Apart.ite
    | with_reducible apply Apart.step (State.refFault_quiet ?_ (Quiet.refl _))
    | with_reducible apply Apart.step (State.refGood_quiet ?_ (Quiet.refl _))
    | with_reducible apply State.takeUtc_apart
    | with_reducible apply State.updGd_apart
    | with_reducible apply State.updRefSrc_apart
    | split

theorem execPtpMessageRx_apart {nd : Node} {u : State} {n : Nat} {m : PtpMessage} {s : State} (hn : nd = .gd) (hs : Apart nd u s) : Apart nd u ((State.after (s) (execPtpMessageRx (n) (m) (s)))) := by
  subst hn
  refine Apart.trans hs ?_
  unfold execPtpMessageRx
  rw [State.after_next]
  repeat' first
    | with_reducible exact Apart.refl _
    | with_reducible rfl
    | with_reducible apply State.ptpMessageRx_apart

theorem State.esmcMessageRx_quiet {nd : Node} {u : State} {s : State} {n : Nat} {q : EsmcLevel} (hn : nd = .gd) (hs : Quiet nd u s) : Quiet nd u ((State.esmcMessageRx (s) (n) (q))) := by
  subst hn
  refine Quiet.trans hs ?_
  unfold State.esmcMessageRx
  repeat' first
    | with_reducible exact Quiet.refl _
    | with_reducible assumption
    | with_reducible rfl
    | (intro x; first | (refine Quiet.use (x := x) ?_ (fun hx => ?_); rotate_left; clear_value x; rotate_right; subst x) | clear_value x | skip)
    | lift_lets -underBinder
    | with_reducible apply Quiet.ite
    | with_reducible apply State.refFault_quiet
    | with_reducible apply State.refGood_quiet
    | with_reducible apply State.updRefSrc_quiet

theorem execEsmcMessageRx_quiet {nd : Node} {u : State} {n : Nat} {q : EsmcLevel} {s : State} (hn : nd = .gd) (hs : Quiet nd u s) : Quiet nd u ((State.after (s) (execEsmcMessageRx (n) (q) (s)))) := by
  subst hn
  refine Quiet.trans hs ?_
  unfold execEsmcMessageRx
  rw [State.after_next]
  repeat' first
    | with_reducible exact Quiet.refl _
    | with_reducible rfl
    | with_reducible apply State.esmcMessageRx_quiet

theorem State.refLossTimeout_quiet {nd : Node} {u : State} {s : State} {src : Nat} {why : RefLoss} (hn : nd = .gd) (hs : Quiet nd u s) : Quiet nd u ((State.refLossTimeout (s) (src) (why))) := by
  subst hn
  refine Quiet.trans hs ?_
  unfold State.refLossTimeout
  repeat' first
    | with_reducible exact Quiet.refl _
    | with_reducible rfl
    | (intro x; first | clear_value x | skip)
    | lift_lets -underBinder
    | with_reducible apply Quiet.ite
    | with_reducible apply State.refFault_quiet
    | with_reducible apply State.updRefSrc_quiet

theorem execRefLossTimeout_quiet {nd : Node} {u : State} {s0 : Nat} {why : RefLoss} {s : State} (hn : nd = .gd) (hs : Quiet nd u s) : Quiet nd u ((State.after (s) (execRefLossTimeout (s0) (why) (s)))) := by
  subst hn
  refine Quiet.trans hs ?_
  unfold execRefLossTimeout
  rw [State.after_next]
  repeat' first
    | with_reducible exact Quiet.refl _
    | with_reducible rfl
    | with_reducible apply State.refLossTimeout_quiet

theorem State.refQualified_quiet {nd : Node} {u : State} {s : State} {src : Nat} (hn : nd = .gd) (hs : Quiet nd u s) : Quiet nd u ((State.refQualified (s) (src))) := by
  subst hn
  refine Quiet.trans hs ?_
  unfold State.refQualified
  repeat' first
    | with_reducible exact Quiet.refl _
    | with_reducible rfl
    | (intro x; first | clear_value x | skip)
    | lift_lets -underBinder
    | with_reducible apply Quiet.ite
    | with_reducible apply State.refSelect_quiet
    | with_reducible apply State.updRefSrc_quiet

theorem execRefQualified_quiet {nd : Node} {u : State} {s0 : Nat} {s : State} (hn : nd = .gd) (hs : Quiet nd u s) : Quiet nd u ((State.after (s) (execRefQualified (s0) (s)))) := by
  subst hn
  refine Quiet.trans hs ?_
  unfold execRefQualified
  rw [State.after_next]
  repeat' first
    | with_reducible exact Quiet.refl _
    | with_reducible rfl
    | with_reducible apply State.refQualified_quiet

theorem State.wtrExpiry_quiet {nd : Node} {u : State} {s : State} {i : Nat} (hn : nd = .gd) (hs : Quiet nd u s) : Quiet nd u ((State.wtrExpiry (s) (i))) := by
  subst hn
  refine Quiet.trans hs ?_
  unfold State.wtrExpiry
  repeat' first
    | with_reducible exact Quiet.refl _
    | with_reducible rfl
    | intro x
    | lift_lets -underBinder
    | with_reducible apply Quiet.ite
    | with_reducible apply State.refSelect_quiet
    | with_reducible apply State.updRef_quiet

theorem execWtrExpiry_quiet {nd : Node} {u : State} {i : Nat} {s : State} (hn : nd = .gd) (hs : Quiet nd u s) : Quiet nd u ((State.after (s) (execWtrExpiry (i) (s)))) := by
  subst hn
  refine Quiet.trans hs ?_
  unfold execWtrExpiry
  rw [State.after_next]
  repeat' first
    | with_reducible exact Quiet.refl _
    | with_reducible rfl
    | with_reducible apply State.wtrExpiry_quiet

theorem State.forceEntryWrite_quiet {nd : Node} {u : State} {s : State} {acc : Access} {w : Word} (hn : nd = .gd) (hs : Quiet nd u s) : Quiet nd u ((State.forceEntryWrite (s) (acc) (w))) := by
  subst hn
  refine Quiet.trans hs ?_
  unfold State.forceEntryWrite
  repeat' first
    | with_reducible exact Quiet.refl _
    | with_reducible rfl
    | intro x
    | lift_lets -underBinder
    | with_reducible apply State.gdWrite_quiet
    | with_reducible apply State.refSelect_quiet
    | with_reducible apply State.setReg_quiet

theorem execForceEntryWrite_quiet {nd : Node} {u : State} {acc : Access} {w : Word} {s : State} (hn : nd = .gd) (hs : Quiet nd u s) : Quiet nd u ((State.after (s) (execForceEntryWrite (acc) (w) (s)))) := by
  subst hn
  refine Quiet.trans hs ?_
  unfold execForceEntryWrite
  rw [State.after_next]
  repeat' first
    | with_reducible exact Quiet.refl _
    | with_reducible rfl
    | with_reducible apply State.forceEntryWrite_quiet

theorem State.filterSource_quiet {nd : Node} {u : State} {s : State} {src : Nat} (hn : nd = .gd) (hs : Quiet nd u s) : Quiet nd u ((State.filterSource (s) (src))) := by
  subst hn
  refine Quiet.trans hs ?_
  unfold State.filterSource
  repeat' first
    | with_reducible exact Quiet.refl _
    | with_reducible assumption
    | with_reducible rfl
    | (intro x; first | (refine Quiet.use (x := x) ?_ (fun hx => ?_); rotate_left; clear_value x; rotate_right; subst x) | clear_value x | skip)
    | lift_lets -underBinder
    | with_reducible apply Quiet.ite
    | with_reducible apply State.noteRate_quiet
    | with_reducible apply State.refFault_quiet
    | with_reducible apply State.updRefSrc_quiet
    | split

theorem State.rootOffset_apart {nd : Node} {u : State} {s : State} {e : Nat} {first : Bool} {o : Int} (hn : nd = .gd) (hs : Apart nd u s) : Apart nd u ((State.rootOffset (s) (e) (first) (o))) := by
  subst hn
  refine Apart.trans hs ?_
  unfold State.rootOffset
  repeat' first
    | with_reducible exact Apart.refl _
    | with_reducible assumption
    | with_reducible rfl
    | (intro x; first | (refine Apart.use (x := x) ?_ (fun hx => ?_); rotate_left; clear_value x; rotate_right; subst x) | clear_value x | skip)
    | lift_lets -underBinder
    | with_reducible apply Apart.ite
    | with_reducible apply Apart.step (State.logG_quiet ?_ (Quiet.refl _))
    | with_reducible apply Apart.step (State.refSelect_quiet ?_ (Quiet.refl _))
    | with_reducible apply State.updTime_apart
    | with_reducible apply State.takeFresh_apart
    | with_reducible apply State.updRef_apart
    | with_reducible apply State.updRefSrc_apart
    | split

theorem State.rootFirstStep_apart {nd : Node} {u : State} {s : State} {i : Nat} {o : Int} (hn : nd = .gd) (hs : Apart nd u s) : Apart nd u ((State.rootFirstStep (s) (i) (o))) := by
  subst hn
  refine Apart.trans hs ?_
  unfold State.rootFirstStep
  repeat' first
    | with_reducible exact Apart.refl _
    | with_reducible assumption
    | with_reducible rfl
    | (intro x; (refine Apart.use (x := x) ?_ (fun hx => ?_); rotate_left; clear_value x; rotate_right; subst x))
    | lift_lets -underBinder
    | with_reducible apply State.becomeRoot_apart
    | with_reducible apply State.stepCounter_apart
    | with_reducible apply State.updRef_apart
    | with_reducible apply State.updRefSrc_apart

theorem State.filteredOffset_apart {nd : Node} {u : State} {s : State} (hn : nd = .gd) (hs : Apart nd u s) : Apart nd u ((State.filteredOffset (s))) := by
  subst hn
  refine Apart.trans hs ?_
  unfold State.filteredOffset
  repeat' first
    | with_reducible exact Apart.refl _
    | with_reducible assumption
    | with_reducible rfl
    | (intro x; first | (refine Apart.use (x := x) ?_ (fun hx => ?_); rotate_left; clear_value x; rotate_right; subst x) | clear_value x | skip)
    | lift_lets -underBinder
    | with_reducible apply Apart.ite
    | with_reducible apply Apart.step (State.filterSource_quiet ?_ (Quiet.refl _))
    | with_reducible apply State.rootFirstStep_apart
    | with_reducible apply State.rootOffset_apart
    | with_reducible apply Apart.foldl
    | split

theorem execFilteredOffset_apart {nd : Node} {u : State} {s : State} (hn : nd = .gd) (hs : Apart nd u s) : Apart nd u ((State.after (s) (execFilteredOffset (s)))) := by
  subst hn
  refine Apart.trans hs ?_
  unfold execFilteredOffset
  rw [State.after_next]
  repeat' first
    | with_reducible exact Apart.refl _
    | with_reducible rfl
    | with_reducible apply State.filteredOffset_apart

theorem State.firstRefWaitExpiry_apart {nd : Node} {u : State} {s : State} (hn : nd = .gd) (hs : Apart nd u s) : Apart nd u ((State.firstRefWaitExpiry (s))) := by
  subst hn
  refine Apart.trans hs ?_
  unfold State.firstRefWaitExpiry
  repeat' first
    | with_reducible exact Apart.refl _
    | with_reducible rfl
    | with_reducible apply Apart.ite
    | with_reducible apply State.becomeRoot_apart
    | with_reducible apply State.stepCounter_apart
    | intro x

theorem execFirstRefWaitExpiry_apart {nd : Node} {u : State} {s : State} (hn : nd = .gd) (hs : Apart nd u s) : Apart nd u ((State.after (s) (execFirstRefWaitExpiry (s)))) := by
  subst hn
  refine Apart.trans hs ?_
  unfold execFirstRefWaitExpiry
  rw [State.after_next]
  repeat' first
    | with_reducible exact Apart.refl _
    | with_reducible rfl
    | with_reducible apply State.firstRefWaitExpiry_apart

theorem State.ptpMasterSend_quiet {nd : Node} {u : State} {s : State} {n : Nat} (hn : nd = .gd) (hs : Quiet nd u s) : Quiet nd u ((State.ptpMasterSend (s) (n))) := by
  subst hn
  refine Quiet.trans hs ?_
  unfold State.ptpMasterSend
  repeat' first
    | with_reducible exact Quiet.refl _
    | with_reducible rfl
    | (intro x; first | clear_value x | skip)
    | lift_lets -underBinder
    | with_reducible apply Quiet.ite
    | ((with_reducible apply State.updGd_quiet); rotate_left; focus (intro t; rfl))

theorem execPtpMasterSend_quiet {nd : Node} {u : State} {n : Nat} {s : State} (hn : nd = .gd) (hs : Quiet nd u s) : Quiet nd u ((State.after (s) (execPtpMasterSend (n) (s)))) := by
  subst hn
  refine Quiet.trans hs ?_
  unfold execPtpMasterSend
  rw [State.after_next]
  repeat' first
    | with_reducible exact Quiet.refl _
    | with_reducible rfl
    | with_reducible apply State.ptpMasterSend_quiet

theorem State.outputFirstAlign_quiet {nd : Node} {u : State} {s : State} (hn : nd = .gd) (hs : Quiet nd u s) : Quiet nd u ((State.outputFirstAlign (s))) := by
  subst hn
  refine Quiet.trans hs ?_
  unfold State.outputFirstAlign
  repeat' first
    | with_reducible exact Quiet.refl _
    | with_reducible rfl
    | with_reducible apply Quiet.ite
    | with_reducible apply State.outputsAlign_quiet
    | split
    | intro x

theorem execOutputFirstAlign_quiet {nd : Node} {u : State} {s : State} (hn : nd = .gd) (hs : Quiet nd u s) : Quiet nd u ((State.after (s) (execOutputFirstAlign (s)))) := by
  subst hn
  refine Quiet.trans hs ?_
  unfold execOutputFirstAlign
  rw [State.after_next]
  repeat' first
    | with_reducible exact Quiet.refl _
    | with_reducible rfl
    | with_reducible apply State.outputFirstAlign_quiet

theorem State.outRealign_quiet {nd : Node} {u : State} {s : State} (hn : nd = .gd) (hs : Quiet nd u s) : Quiet nd u ((State.outRealign (s))) := by
  subst hn
  refine Quiet.trans hs ?_
  unfold State.outRealign
  repeat' first
    | with_reducible exact Quiet.refl _
    | with_reducible rfl
    | intro x
    | lift_lets -underBinder
    | with_reducible apply Quiet.ite
    | ((with_reducible apply State.updGd_quiet); rotate_left; focus (intro t; rfl))
    | ((with_reducible apply State.updCom_quiet); rotate_left; focus (intro t; exact Common.accessErr_time ..))

theorem execOutRealign_quiet {nd : Node} {u : State} {s : State} (hn : nd = .gd) (hs : Quiet nd u s) : Quiet nd u ((State.after (s) (execOutRealign (s)))) := by
  subst hn
  refine Quiet.trans hs ?_
  unfold execOutRealign
  rw [State.after_next]
  repeat' first
    | with_reducible exact Quiet.refl _
    | with_reducible rfl
    | with_reducible apply State.outRealign_quiet

theorem State.outRealignApply_quiet {nd : Node} {u : State} {s : State} (hn : nd = .gd) (hs : Quiet nd u s) : Quiet nd u ((State.outRealignApply (s))) := by
  subst hn
  refine Quiet.trans hs ?_
  unfold State.outRealignApply
  repeat' first
    | with_reducible exact Quiet.refl _
    | with_reducible rfl
    | with_reducible apply Quiet.ite
    | with_reducible apply State.outputsAlign_quiet
    | split
    | intro x

theorem execOutRealignApply_quiet {nd : Node} {u : State} {s : State} (hn : nd = .gd) (hs : Quiet nd u s) : Quiet nd u ((State.after (s) (execOutRealignApply (s)))) := by
  subst hn
  refine Quiet.trans hs ?_
  unfold execOutRealignApply
  rw [State.after_next]
  repeat' first
    | with_reducible exact Quiet.refl _
    | with_reducible rfl
    | with_reducible apply State.outRealignApply_quiet

theorem State.rootClaim_apart {nd : Node} {u : State} {s : State} (hn : nd = .gd) (hs : Apart nd u s) : Apart nd u ((State.rootClaim (s))) := by
  subst hn
  refine Apart.trans hs ?_
  unfold State.rootClaim
  repeat' first
    | with_reducible exact Apart.refl _
    | with_reducible rfl
    | (intro x; first | clear_value x | skip)
    | lift_lets -underBinder
    | with_reducible apply Apart.ite
    | with_reducible apply State.becomeRoot_apart
    | with_reducible apply Apart.step (State.logG_quiet ?_ (Quiet.refl _))
    | with_reducible apply State.updRef_apart
    | split

theorem execRootClaim_apart {nd : Node} {u : State} {s : State} (hn : nd = .gd) (hs : Apart nd u s) : Apart nd u ((State.after (s) (execRootClaim (s)))) := by
  subst hn
  refine Apart.trans hs ?_
  unfold execRootClaim
  rw [State.after_next]
  repeat' first
    | with_reducible exact Apart.refl _
    | with_reducible rfl
    | with_reducible apply State.rootClaim_apart

theorem execRefPcsLockLoss_quiet {nd : Node} {u : State} {n : Nat} {s : State} (hn : nd = .gd) (hs : Quiet nd u s) : Quiet nd u ((State.after (s) (execRefPcsLockLoss (n) (s)))) := by
  subst hn
  refine Quiet.trans hs ?_
  unfold execRefPcsLockLoss
  rw [State.after_next]
  repeat' first
    | with_reducible exact Quiet.refl _
    | with_reducible rfl
    | intro x
    | lift_lets -underBinder
    | with_reducible apply Quiet.ite
    | with_reducible apply State.refFault_quiet
    | with_reducible apply State.updRefSrc_quiet

theorem State.refFreqMeasure_quiet {nd : Node} {u : State} {s : State} {src : Nat} {dev : Int} (hn : nd = .gd) (hs : Quiet nd u s) : Quiet nd u ((State.refFreqMeasure (s) (src) (dev))) := by
  subst hn
  refine Quiet.trans hs ?_
  unfold State.refFreqMeasure
  repeat' first
    | with_reducible exact Quiet.refl _
    | with_reducible assumption
    | with_reducible rfl
    | (intro x; first | (refine Quiet.use (x := x) ?_ (fun hx => ?_); rotate_left; clear_value x; rotate_right; subst x) | clear_value x | skip)
    | lift_lets -underBinder
    | with_reducible apply Quiet.ite
    | with_reducible apply State.noteRate_quiet
    | with_reducible apply State.refFault_quiet
    | with_reducible apply State.refGood_quiet
    | with_reducible apply State.updRefSrc_quiet

theorem execRefFreqMeasure_quiet {nd : Node} {u : State} {s0 : Nat} {deviationPpb : Int} {s : State} (hn : nd = .gd) (hs : Quiet nd u s) : Quiet nd u ((State.after (s) (execRefFreqMeasure (s0) (deviationPpb) (s)))) := by
  subst hn
  refine Quiet.trans hs ?_
  unfold execRefFreqMeasure
  rw [State.after_next]
  repeat' first
    | with_reducible exact Quiet.refl _
    | with_reducible rfl
    | with_reducible apply State.refFreqMeasure_quiet

end Sys2Proof.Machine
end

