-- ==== Sys2Proof/Laws/ApartServing.lean ====
section
/-! SUPPORT. Which part the operations of `Sys2Proof.Machine.Serving` act at, and whether they leave its time alone. -/

namespace Sys2Proof.Machine

open Sys2Proof

set_option linter.unusedVariables false

theorem State.rfOffsetWrite_quiet {nd : Node} {u : State} {s : State} {n : Node} {frames : Bool} {w : Word} (h_n : n = nd) (hs : Quiet nd u s) : Quiet nd u ((State.rfOffsetWrite (s) (n) (frames) (w))) := by
  refine Quiet.trans hs ?_
  unfold State.rfOffsetWrite
  repeat' first
    | with_reducible exact Quiet.refl _
    | with_reducible assumption
    | (with_reducible refine (?_ : (_ : Node) = _); first | rfl | assumption | (simp_all only []; done) | (simp_all; done) | (cases nd <;> simp_all; done))
    | (intro x; first | (refine Quiet.use (x := x) ?_ (fun hx => ?_); rotate_left; clear_value x; rotate_right; subst x) | clear_value x | skip)
    | lift_lets -underBinder
    | with_reducible apply Quiet.ite
    | with_reducible apply State.setReg_quiet
    | ((with_reducible apply State.updCom_quiet); rotate_left; focus (intro t; first | rfl | exact Common.accessErr_time ..))

theorem execRfOffsetWrite_quiet {nd : Node} {u : State} {n : Node} {frames : Bool} {w : Word} {s : State} (h_n : n = nd) (hs : Quiet nd u s) : Quiet nd u ((State.after (s) (execRfOffsetWrite (n) (frames) (w) (s)))) := by
  refine Quiet.trans hs ?_
  unfold execRfOffsetWrite
  rw [State.after_next]
  repeat' first
    | with_reducible exact Quiet.refl _
    | with_reducible assumption
    | with_reducible apply State.rfOffsetWrite_quiet

theorem State.updCal_quiet {nd : Node} {u : State} {s : State} {k : Nat} {f : CalEntry → CalEntry} (hn : nd = .tsu) (hs : Quiet nd u s) : Quiet nd u ((State.updCal (s) (k) (f))) := by
  subst hn
  refine Quiet.trans hs ?_
  unfold State.updCal
  repeat' first
    | with_reducible exact Quiet.refl _
    | with_reducible rfl
    | ((with_reducible apply State.updTsu_quiet); rotate_left; focus (intro t; rfl))

theorem State.slotRecord_quiet {nd : Node} {u : State} {s : State} {kind : Nat} {e : CalEntry} {b : Int} {code : ErrCode} {cause : Nat} (hn : nd = .tsu) (hs : Quiet nd u s) : Quiet nd u ((State.slotRecord (s) (kind) (e) (b) (code) (cause))) := by
  subst hn
  refine Quiet.trans hs ?_
  unfold State.slotRecord
  repeat' first
    | with_reducible exact Quiet.refl _
    | with_reducible assumption
    | with_reducible rfl
    | (intro x; first | (refine Quiet.use (x := x) ?_ (fun hx => ?_); rotate_left; clear_value x; rotate_right; subst x) | clear_value x)
    | lift_lets -underBinder
    | with_reducible apply State.logT_quiet
    | with_reducible apply State.writeRecord_quiet

theorem State.slotMissed_quiet {nd : Node} {u : State} {s : State} {k : Nat} {e : CalEntry} {b : Int} {code : ErrCode} {cause : Nat} (hn : nd = .tsu) (hs : Quiet nd u s) : Quiet nd u ((State.slotMissed (s) (k) (e) (b) (code) (cause))) := by
  subst hn
  refine Quiet.trans hs ?_
  unfold State.slotMissed
  repeat' first
    | with_reducible exact Quiet.refl _
    | with_reducible assumption
    | with_reducible rfl
    | (intro x; (refine Quiet.use (x := x) ?_ (fun hx => ?_); rotate_left; clear_value x; rotate_right; subst x))
    | lift_lets -underBinder
    | with_reducible apply State.setEvt_quiet
    | with_reducible apply State.slotRecord_quiet
    | with_reducible apply State.updCal_quiet

theorem State.calFire_quiet {nd : Node} {u : State} {s : State} {k : Nat} {e : CalEntry} {b : Int} (hn : nd = .tsu) (hs : Quiet nd u s) : Quiet nd u ((State.calFire (s) (k) (e) (b))) := by
  subst hn
  refine Quiet.trans hs ?_
  unfold State.calFire
  repeat' first
    | with_reducible exact Quiet.refl _
    | with_reducible assumption
    | with_reducible rfl
    | (intro x; first | (refine Quiet.use (x := x) ?_ (fun hx => ?_); rotate_left; clear_value x; rotate_right; subst x) | clear_value x)
    | lift_lets -underBinder
    | with_reducible apply State.turnApply_quiet
    | with_reducible apply State.updCal_quiet
    | split

theorem State.calTurn_quiet {nd : Node} {u : State} {s : State} {k : Nat} (hn : nd = .tsu) (hs : Quiet nd u s) : Quiet nd u ((State.calTurn (s) (k))) := by
  subst hn
  refine Quiet.trans hs ?_
  unfold State.calTurn
  repeat' first
    | with_reducible exact Quiet.refl _
    | with_reducible rfl
    | intro x
    | lift_lets -underBinder
    | with_reducible apply Quiet.ite
    | with_reducible apply State.calFire_quiet
    | with_reducible apply State.slotMissed_quiet
    | ((with_reducible apply State.updTsu_quiet); rotate_left; focus (intro t; rfl))
    | split

theorem execCalTurn_quiet {nd : Node} {u : State} {entry : Nat} {s : State} (hn : nd = .tsu) (hs : Quiet nd u s) : Quiet nd u ((State.after (s) (execCalTurn (entry) (s)))) := by
  subst hn
  refine Quiet.trans hs ?_
  unfold execCalTurn
  rw [State.after_next]
  repeat' first
    | with_reducible exact Quiet.refl _
    | with_reducible rfl
    | with_reducible apply State.calTurn_quiet

theorem State.calHold_quiet {nd : Node} {u : State} {s : State} {k : Nat} (hn : nd = .tsu) (hs : Quiet nd u s) : Quiet nd u ((State.calHold (s) (k))) := by
  subst hn
  refine Quiet.trans hs ?_
  unfold State.calHold
  repeat' first
    | with_reducible exact Quiet.refl _
    | with_reducible assumption
    | with_reducible rfl
    | (intro x; first | (refine Quiet.use (x := x) ?_ (fun hx => ?_); rotate_left; clear_value x; rotate_right; subst x) | clear_value x | skip)
    | lift_lets -underBinder
    | with_reducible apply Quiet.ite
    | with_reducible apply State.present_quiet
    | with_reducible apply State.updCal_quiet
    | with_reducible apply State.updPort_quiet
    | with_reducible apply Quiet.foldl
    | split

theorem execCalHold_quiet {nd : Node} {u : State} {entry : Nat} {s : State} (hn : nd = .tsu) (hs : Quiet nd u s) : Quiet nd u ((State.after (s) (execCalHold (entry) (s)))) := by
  subst hn
  refine Quiet.trans hs ?_
  unfold execCalHold
  rw [State.after_next]
  repeat' first
    | with_reducible exact Quiet.refl _
    | with_reducible rfl
    | with_reducible apply State.calHold_quiet

theorem State.calDoneCheck_quiet {nd : Node} {u : State} {s : State} {k : Nat} (hn : nd = .tsu) (hs : Quiet nd u s) : Quiet nd u ((State.calDoneCheck (s) (k))) := by
  subst hn
  refine Quiet.trans hs ?_
  unfold State.calDoneCheck
  repeat' first
    | with_reducible exact Quiet.refl _
    | with_reducible assumption
    | with_reducible rfl
    | (intro x; first | (refine Quiet.use (x := x) ?_ (fun hx => ?_); rotate_left; clear_value x; rotate_right; subst x) | clear_value x | skip)
    | lift_lets -underBinder
    | with_reducible apply Quiet.ite
    | with_reducible apply State.slotRecord_quiet
    | with_reducible apply State.updCal_quiet
    | with_reducible apply Quiet.foldl
    | split

theorem execCalDoneCheck_quiet {nd : Node} {u : State} {entry : Nat} {s : State} (hn : nd = .tsu) (hs : Quiet nd u s) : Quiet nd u ((State.after (s) (execCalDoneCheck (entry) (s)))) := by
  subst hn
  refine Quiet.trans hs ?_
  unfold execCalDoneCheck
  rw [State.after_next]
  repeat' first
    | with_reducible exact Quiet.refl _
    | with_reducible rfl
    | with_reducible apply State.calDoneCheck_quiet

theorem State.release_quiet {nd : Node} {u : State} {s : State} {p n : Nat} (hn : nd = .tsu) (hs : Quiet nd u s) : Quiet nd u ((State.release (s) (p) (n))) := by
  subst hn
  refine Quiet.trans hs ?_
  unfold State.release
  repeat' first
    | with_reducible exact Quiet.refl _
    | with_reducible rfl
    | (intro x; clear_value x)
    | lift_lets -underBinder
    | with_reducible apply State.present_quiet
    | with_reducible apply State.updPort_quiet

theorem State.calRelease_quiet {nd : Node} {u : State} {s : State} {p : Nat} (hn : nd = .tsu) (hs : Quiet nd u s) : Quiet nd u ((State.calRelease (s) (p))) := by
  subst hn
  refine Quiet.trans hs ?_
  unfold State.calRelease
  repeat' first
    | with_reducible exact Quiet.refl _
    | with_reducible rfl
    | (intro x; first | clear_value x | skip)
    | lift_lets -underBinder
    | with_reducible apply State.release_quiet
    | with_reducible apply Quiet.foldl

theorem execCalRelease_quiet {nd : Node} {u : State} {port : Nat} {s : State} (hn : nd = .tsu) (hs : Quiet nd u s) : Quiet nd u ((State.after (s) (execCalRelease (port) (s)))) := by
  subst hn
  refine Quiet.trans hs ?_
  unfold execCalRelease
  rw [State.after_next]
  repeat' first
    | with_reducible exact Quiet.refl _
    | with_reducible rfl
    | with_reducible apply State.calRelease_quiet

theorem State.rfSkip_quiet {nd : Node} {u : State} {s : State} {old : Nat × Nat} {k : Nat} {e : CalEntry} (hn : nd = .tsu) (hs : Quiet nd u s) : Quiet nd u ((State.rfSkip (s) (old) (k) (e))) := by
  subst hn
  refine Quiet.trans hs ?_
  unfold State.rfSkip
  repeat' first
    | with_reducible exact Quiet.refl _
    | with_reducible rfl
    | (intro x; first | clear_value x | skip)
    | lift_lets -underBinder
    | with_reducible apply Quiet.ite
    | with_reducible apply State.slotMissed_quiet
    | with_reducible apply Quiet.foldl
    | split

theorem State.rfOffsetApply_quiet {nd : Node} {u : State} {s : State} {n : Node} (h_n : n = nd) (hs : Quiet nd u s) : Quiet nd u ((State.rfOffsetApply (s) (n))) := by
  refine Quiet.trans hs ?_
  unfold State.rfOffsetApply
  repeat' first
    | with_reducible exact Quiet.refl _
    | with_reducible assumption
    | (with_reducible refine (?_ : (_ : Node) = _); first | rfl | assumption | (simp_all only []; done) | (simp_all; done) | (cases nd <;> simp_all; done))
    | (intro x; first | (refine Quiet.use (x := x) ?_ (fun hx => ?_); rotate_left; clear_value x; rotate_right; subst x) | clear_value x | skip)
    | lift_lets -underBinder
    | with_reducible apply Quiet.ite
    | with_reducible apply State.rfSkip_quiet
    | ((with_reducible apply State.updCom_quiet); rotate_left; focus (intro t; rfl))
    | with_reducible apply Quiet.foldl
    | split

theorem execRfOffsetApply_quiet {nd : Node} {u : State} {n : Node} {s : State} (h_n : n = nd) (hs : Quiet nd u s) : Quiet nd u ((State.after (s) (execRfOffsetApply (n) (s)))) := by
  refine Quiet.trans hs ?_
  unfold execRfOffsetApply
  rw [State.after_next]
  repeat' first
    | with_reducible exact Quiet.refl _
    | with_reducible assumption
    | with_reducible apply State.rfOffsetApply_quiet

theorem State.denied_quiet {nd : Node} {u : State} {s : State} {n off : Nat} (hn : nd = .tsu) (hs : Quiet nd u s) : Quiet nd u ((State.denied (s) (n) (off))) := by
  subst hn
  refine Quiet.trans hs ?_
  unfold State.denied
  repeat' first
    | with_reducible exact Quiet.refl _
    | with_reducible rfl
    | lift_lets -underBinder
    | with_reducible apply State.logT_quiet
    | ((with_reducible apply State.updCom_quiet); rotate_left; focus (intro t; exact Common.accessErr_time ..))

theorem State.calSelect_quiet {nd : Node} {u : State} {s : State} {n : Nat} {w : Word} (hn : nd = .tsu) (hs : Quiet nd u s) : Quiet nd u ((State.calSelect (s) (n) (w))) := by
  subst hn
  refine Quiet.trans hs ?_
  unfold State.calSelect
  repeat' first
    | with_reducible exact Quiet.refl _
    | with_reducible assumption
    | with_reducible rfl
    | (intro x; first | (refine Quiet.use (x := x) ?_ (fun hx => ?_); rotate_left; clear_value x; rotate_right; subst x) | clear_value x | skip)
    | lift_lets -underBinder
    | with_reducible apply Quiet.ite
    | with_reducible apply State.denied_quiet
    | with_reducible apply State.spGuard_quiet
    | with_reducible apply State.updSlice_quiet

theorem execCalSelect_quiet {nd : Node} {u : State} {slice : Nat} {w : Word} {s : State} (hn : nd = .tsu) (hs : Quiet nd u s) : Quiet nd u ((State.after (s) (execCalSelect (slice) (w) (s)))) := by
  subst hn
  refine Quiet.trans hs ?_
  unfold execCalSelect
  rw [State.after_next]
  repeat' first
    | with_reducible exact Quiet.refl _
    | with_reducible rfl
    | with_reducible apply State.calSelect_quiet

theorem State.calWrite_quiet {nd : Node} {u : State} {s : State} {n : Nat} (hn : nd = .tsu) (hs : Quiet nd u s) : Quiet nd u ((State.calWrite (s) (n))) := by
  subst hn
  refine Quiet.trans hs ?_
  unfold State.calWrite
  repeat' first
    | with_reducible exact Quiet.refl _
    | with_reducible assumption
    | with_reducible rfl
    | (intro x; first | (refine Quiet.use (x := x) ?_ (fun hx => ?_); rotate_left; clear_value x; rotate_right; subst x) | clear_value x | skip)
    | lift_lets -underBinder
    | with_reducible apply Quiet.ite
    | with_reducible apply State.denied_quiet
    | with_reducible apply State.spCode_quiet
    | with_reducible apply State.spGuard_quiet
    | with_reducible apply State.updSlice_quiet
    | with_reducible apply State.updTumb_quiet
    | ((with_reducible apply State.updTsu_quiet); rotate_left; focus (intro t; rfl))
    | split

theorem execCalWrite_quiet {nd : Node} {u : State} {slice : Nat} {s : State} (hn : nd = .tsu) (hs : Quiet nd u s) : Quiet nd u ((State.after (s) (execCalWrite (slice) (s)))) := by
  subst hn
  refine Quiet.trans hs ?_
  unfold execCalWrite
  rw [State.after_next]
  repeat' first
    | with_reducible exact Quiet.refl _
    | with_reducible rfl
    | with_reducible apply State.calWrite_quiet

theorem State.seqOrderSubmit_quiet {nd : Node} {u : State} {s : State} {n : Nat} (hn : nd = .tsu) (hs : Quiet nd u s) : Quiet nd u ((State.seqOrderSubmit (s) (n))) := by
  subst hn
  refine Quiet.trans hs ?_
  unfold State.seqOrderSubmit
  repeat' first
    | with_reducible exact Quiet.refl _
    | with_reducible assumption
    | with_reducible rfl
    | (intro x; first | (refine Quiet.use (x := x) ?_ (fun hx => ?_); rotate_left; clear_value x; rotate_right; subst x) | clear_value x | skip)
    | lift_lets -underBinder
    | with_reducible apply Quiet.ite
    | with_reducible apply State.grantAsk_quiet
    | with_reducible apply State.logT_quiet
    | with_reducible apply State.spCode_quiet
    | with_reducible apply State.spGuard_quiet
    | ((with_reducible apply State.updTsu_quiet); rotate_left; focus (intro t; rfl))

theorem execSeqOrderSubmit_quiet {nd : Node} {u : State} {slice : Nat} {s : State} (hn : nd = .tsu) (hs : Quiet nd u s) : Quiet nd u ((State.after (s) (execSeqOrderSubmit (slice) (s)))) := by
  subst hn
  refine Quiet.trans hs ?_
  unfold execSeqOrderSubmit
  rw [State.after_next]
  repeat' first
    | with_reducible exact Quiet.refl _
    | with_reducible rfl
    | with_reducible apply State.seqOrderSubmit_quiet

theorem State.serveCommit_quiet {nd : Node} {u : State} {s : State} {n : Nat} (hn : nd = .tsu) (hs : Quiet nd u s) : Quiet nd u ((State.serveCommit (s) (n))) := by
  subst hn
  refine Quiet.trans hs ?_
  unfold State.serveCommit
  repeat' first
    | with_reducible exact Quiet.refl _
    | with_reducible rfl
    | (intro x; first | clear_value x | skip)
    | lift_lets -underBinder
    | with_reducible apply Quiet.ite
    | with_reducible apply State.spCode_quiet
    | with_reducible apply State.spGuard_quiet
    | with_reducible apply State.updSlice_quiet

theorem execServeCommit_quiet {nd : Node} {u : State} {slice : Nat} {s : State} (hn : nd = .tsu) (hs : Quiet nd u s) : Quiet nd u ((State.after (s) (execServeCommit (slice) (s)))) := by
  subst hn
  refine Quiet.trans hs ?_
  unfold execServeCommit
  rw [State.after_next]
  repeat' first
    | with_reducible exact Quiet.refl _
    | with_reducible rfl
    | with_reducible apply State.serveCommit_quiet

end Sys2Proof.Machine
end

