-- ==== Sys2Proof/Laws/ApartSlices.lean ====
section
/-! SUPPORT. Which part the operations of `Sys2Proof.Machine.Slices` act at, and whether they leave its time alone. -/

namespace Sys2Proof.Machine

open Sys2Proof

set_option linter.unusedVariables false

theorem State.sliceCreate_quiet {nd : Node} {u : State} {s : State} (hn : nd = .tsu) (hs : Quiet nd u s) : Quiet nd u ((State.sliceCreate (s))) := by
  subst hn
  refine Quiet.trans hs ?_
  unfold State.sliceCreate
  repeat' first
    | with_reducible exact Quiet.refl _
    | with_reducible rfl
    | (intro x; first | clear_value x | skip)
    | lift_lets -underBinder
    | with_reducible apply Quiet.ite
    | with_reducible apply State.logT_quiet
    | with_reducible apply State.updSlice_quiet
    | split

theorem execSliceCreate_quiet {nd : Node} {u : State} {s : State} (hn : nd = .tsu) (hs : Quiet nd u s) : Quiet nd u ((State.after (s) (execSliceCreate (s)))) := by
  subst hn
  refine Quiet.trans hs ?_
  unfold execSliceCreate
  rw [State.after_next]
  repeat' first
    | with_reducible exact Quiet.refl _
    | with_reducible rfl
    | with_reducible apply State.sliceCreate_quiet

theorem State.resetSlice_quiet {nd : Node} {u : State} {s : State} {n : Nat} {destroy : Bool} (hn : nd = .tsu) (hs : Quiet nd u s) : Quiet nd u ((State.resetSlice (s) (n) (destroy))) := by
  subst hn
  refine Quiet.trans hs ?_
  unfold State.resetSlice
  repeat' first
    | with_reducible exact Quiet.refl _
    | with_reducible assumption
    | with_reducible rfl
    | (intro x; first | (refine Quiet.use (x := x) ?_ (fun hx => ?_); rotate_left; clear_value x; rotate_right; subst x) | clear_value x | skip)
    | lift_lets -underBinder
    | with_reducible apply Quiet.ite
    | with_reducible apply State.abortSteps_quiet
    | with_reducible apply State.logT_quiet
    | with_reducible apply State.orderLoses_quiet
    | with_reducible apply State.updSlice_quiet
    | ((with_reducible apply State.updTsu_quiet); rotate_left; focus (intro t; rfl))
    | with_reducible apply Quiet.foldl
    | split

theorem execSliceReset_quiet {nd : Node} {u : State} {s : State} (hn : nd = .tsu) (hs : Quiet nd u s) : Quiet nd u ((State.after (s) (execSliceReset (s)))) := by
  subst hn
  refine Quiet.trans hs ?_
  unfold execSliceReset
  rw [State.after_next]
  repeat' first
    | with_reducible exact Quiet.refl _
    | with_reducible rfl
    | with_reducible apply State.resetSlice_quiet

theorem execSliceDestroy_quiet {nd : Node} {u : State} {s : State} (hn : nd = .tsu) (hs : Quiet nd u s) : Quiet nd u ((State.after (s) (execSliceDestroy (s)))) := by
  subst hn
  refine Quiet.trans hs ?_
  unfold execSliceDestroy
  rw [State.after_next]
  repeat' first
    | with_reducible exact Quiet.refl _
    | with_reducible rfl
    | with_reducible apply State.resetSlice_quiet

theorem State.sliceBind_quiet {nd : Node} {u : State} {s : State} (hn : nd = .tsu) (hs : Quiet nd u s) : Quiet nd u ((State.sliceBind (s))) := by
  subst hn
  refine Quiet.trans hs ?_
  unfold State.sliceBind
  repeat' first
    | with_reducible exact Quiet.refl _
    | with_reducible assumption
    | with_reducible rfl
    | (intro x; first | (refine Quiet.use (x := x) ?_ (fun hx => ?_); rotate_left; clear_value x; rotate_right; subst x) | (have hf := funext (f := x) (g := x) (fun _ => rfl); clear hf; subst x) | clear_value x | skip)
    | lift_lets -underBinder
    | with_reducible apply Quiet.ite
    | with_reducible apply State.joinSoon_quiet
    | with_reducible apply State.logT_quiet
    | with_reducible apply State.updSlice_quiet

theorem execSliceBind_quiet {nd : Node} {u : State} {s : State} (hn : nd = .tsu) (hs : Quiet nd u s) : Quiet nd u ((State.after (s) (execSliceBind (s)))) := by
  subst hn
  refine Quiet.trans hs ?_
  unfold execSliceBind
  rw [State.after_next]
  repeat' first
    | with_reducible exact Quiet.refl _
    | with_reducible rfl
    | with_reducible apply State.sliceBind_quiet

theorem State.sliceUnbind_quiet {nd : Node} {u : State} {s : State} (hn : nd = .tsu) (hs : Quiet nd u s) : Quiet nd u ((State.sliceUnbind (s))) := by
  subst hn
  refine Quiet.trans hs ?_
  unfold State.sliceUnbind
  repeat' first
    | with_reducible exact Quiet.refl _
    | with_reducible rfl
    | (intro x; first | clear_value x | skip)
    | lift_lets -underBinder
    | with_reducible apply Quiet.ite
    | with_reducible apply State.unbind_quiet

theorem execSliceUnbind_quiet {nd : Node} {u : State} {s : State} (hn : nd = .tsu) (hs : Quiet nd u s) : Quiet nd u ((State.after (s) (execSliceUnbind (s)))) := by
  subst hn
  refine Quiet.trans hs ?_
  unfold execSliceUnbind
  rw [State.after_next]
  repeat' first
    | with_reducible exact Quiet.refl _
    | with_reducible rfl
    | with_reducible apply State.sliceUnbind_quiet

theorem State.hostOrder_quiet {nd : Node} {u : State} {s : State} {verb : Nat} (hn : nd = .tsu) (hs : Quiet nd u s) : Quiet nd u ((State.hostOrder (s) (verb))) := by
  subst hn
  refine Quiet.trans hs ?_
  unfold State.hostOrder
  repeat' first
    | with_reducible exact Quiet.refl _
    | with_reducible rfl
    | (intro x; first | clear_value x | skip)
    | lift_lets -underBinder
    | with_reducible apply Quiet.ite
    | with_reducible apply State.logT_quiet
    | with_reducible apply State.order_quiet
    | ((with_reducible apply State.updTsu_quiet); rotate_left; focus (intro t; rfl))

theorem State.pageOrder_quiet {nd : Node} {u : State} {s : State} {n verb : Nat} (hn : nd = .tsu) (hs : Quiet nd u s) : Quiet nd u ((State.pageOrder (s) (n) (verb))) := by
  subst hn
  refine Quiet.trans hs ?_
  unfold State.pageOrder
  repeat' first
    | with_reducible exact Quiet.refl _
    | with_reducible rfl
    | (intro x; first | clear_value x | skip)
    | lift_lets -underBinder
    | with_reducible apply State.order_quiet
    | with_reducible apply State.spGuard_quiet
    | with_reducible apply State.updSlice_quiet

theorem State.regOrder_quiet {nd : Node} {u : State} {s : State} {slice : Nat} {page : Bool} {verb : Nat} (hn : nd = .tsu) (hs : Quiet nd u s) : Quiet nd u ((State.regOrder (s) (slice) (page) (verb))) := by
  subst hn
  refine Quiet.trans hs ?_
  unfold State.regOrder
  repeat' first
    | with_reducible exact Quiet.refl _
    | with_reducible rfl
    | with_reducible apply Quiet.ite
    | with_reducible apply State.hostOrder_quiet
    | with_reducible apply State.pageOrder_quiet
    | intro x

theorem execOrderAbort_quiet {nd : Node} {u : State} {slice : Nat} {page : Bool} {s : State} (hn : nd = .tsu) (hs : Quiet nd u s) : Quiet nd u ((State.after (s) (execOrderAbort (slice) (page) (s)))) := by
  subst hn
  refine Quiet.trans hs ?_
  unfold execOrderAbort
  rw [State.after_next]
  repeat' first
    | with_reducible exact Quiet.refl _
    | with_reducible rfl
    | with_reducible apply State.regOrder_quiet

theorem execOrderFence_quiet {nd : Node} {u : State} {slice : Nat} {page : Bool} {s : State} (hn : nd = .tsu) (hs : Quiet nd u s) : Quiet nd u ((State.after (s) (execOrderFence (slice) (page) (s)))) := by
  subst hn
  refine Quiet.trans hs ?_
  unfold execOrderFence
  rw [State.after_next]
  repeat' first
    | with_reducible exact Quiet.refl _
    | with_reducible rfl
    | with_reducible apply State.regOrder_quiet

theorem execOrderStop_quiet {nd : Node} {u : State} {slice : Nat} {page : Bool} {s : State} (hn : nd = .tsu) (hs : Quiet nd u s) : Quiet nd u ((State.after (s) (execOrderStop (slice) (page) (s)))) := by
  subst hn
  refine Quiet.trans hs ?_
  unfold execOrderStop
  rw [State.after_next]
  repeat' first
    | with_reducible exact Quiet.refl _
    | with_reducible rfl
    | with_reducible apply State.regOrder_quiet

theorem execOrderStart_quiet {nd : Node} {u : State} {slice : Nat} {page : Bool} {s : State} (hn : nd = .tsu) (hs : Quiet nd u s) : Quiet nd u ((State.after (s) (execOrderStart (slice) (page) (s)))) := by
  subst hn
  refine Quiet.trans hs ?_
  unfold execOrderStart
  rw [State.after_next]
  repeat' first
    | with_reducible exact Quiet.refl _
    | with_reducible rfl
    | with_reducible apply State.regOrder_quiet

theorem execOrderResume_quiet {nd : Node} {u : State} {slice : Nat} {page : Bool} {s : State} (hn : nd = .tsu) (hs : Quiet nd u s) : Quiet nd u ((State.after (s) (execOrderResume (slice) (page) (s)))) := by
  subst hn
  refine Quiet.trans hs ?_
  unfold execOrderResume
  rw [State.after_next]
  repeat' first
    | with_reducible exact Quiet.refl _
    | with_reducible rfl
    | with_reducible apply State.regOrder_quiet

theorem State.domainRequestGo_quiet {nd : Node} {u : State} {s : State} {n : Nat} (hn : nd = .tsu) (hs : Quiet nd u s) : Quiet nd u ((State.domainRequestGo (s) (n))) := by
  subst hn
  refine Quiet.trans hs ?_
  unfold State.domainRequestGo
  repeat' first
    | with_reducible exact Quiet.refl _
    | with_reducible assumption
    | with_reducible rfl
    | (intro x; first | (refine Quiet.use (x := x) ?_ (fun hx => ?_); rotate_left; clear_value x; rotate_right; subst x) | clear_value x | skip)
    | lift_lets -underBinder
    | with_reducible apply Quiet.ite
    | with_reducible apply State.domainRequest_quiet
    | with_reducible apply State.logT_quiet
    | with_reducible apply State.spGuard_quiet
    | with_reducible apply State.updSlice_quiet
    | split

theorem execDomainRequestGo_quiet {nd : Node} {u : State} {slice : Nat} {s : State} (hn : nd = .tsu) (hs : Quiet nd u s) : Quiet nd u ((State.after (s) (execDomainRequestGo (slice) (s)))) := by
  subst hn
  refine Quiet.trans hs ?_
  unfold execDomainRequestGo
  rw [State.after_next]
  repeat' first
    | with_reducible exact Quiet.refl _
    | with_reducible rfl
    | with_reducible apply State.domainRequestGo_quiet

theorem State.fenceComplete_quiet {nd : Node} {u : State} {s : State} {n : Nat} (hn : nd = .tsu) (hs : Quiet nd u s) : Quiet nd u ((State.fenceComplete (s) (n))) := by
  subst hn
  refine Quiet.trans hs ?_
  unfold State.fenceComplete
  repeat' first
    | with_reducible exact Quiet.refl _
    | with_reducible rfl
    | intro x
    | lift_lets -underBinder
    | with_reducible apply Quiet.ite
    | with_reducible apply State.orderRecord_quiet
    | with_reducible apply State.updSlice_quiet
    | split

theorem execFenceComplete_quiet {nd : Node} {u : State} {slice : Nat} {s : State} (hn : nd = .tsu) (hs : Quiet nd u s) : Quiet nd u ((State.after (s) (execFenceComplete (slice) (s)))) := by
  subst hn
  refine Quiet.trans hs ?_
  unfold execFenceComplete
  rw [State.after_next]
  repeat' first
    | with_reducible exact Quiet.refl _
    | with_reducible rfl
    | with_reducible apply State.fenceComplete_quiet

theorem State.crTailWrite_quiet {nd : Node} {u : State} {s : State} {n : Nat} {w : Word} (hn : nd = .tsu) (hs : Quiet nd u s) : Quiet nd u ((State.crTailWrite (s) (n) (w))) := by
  subst hn
  refine Quiet.trans hs ?_
  unfold State.crTailWrite
  repeat' first
    | with_reducible exact Quiet.refl _
    | with_reducible rfl
    | intro x
    | lift_lets -underBinder
    | with_reducible apply State.ringFlush_quiet
    | with_reducible apply State.ringVector_quiet
    | with_reducible apply State.spGuard_quiet
    | with_reducible apply State.updSlice_quiet

theorem execCrTailWrite_quiet {nd : Node} {u : State} {slice : Nat} {w : Word} {s : State} (hn : nd = .tsu) (hs : Quiet nd u s) : Quiet nd u ((State.after (s) (execCrTailWrite (slice) (w) (s)))) := by
  subst hn
  refine Quiet.trans hs ?_
  unfold execCrTailWrite
  rw [State.after_next]
  repeat' first
    | with_reducible exact Quiet.refl _
    | with_reducible rfl
    | with_reducible apply State.crTailWrite_quiet

theorem State.crConfigWrite_quiet {nd : Node} {u : State} {s : State} {n reg : Nat} {w : Word} (hn : nd = .tsu) (hs : Quiet nd u s) : Quiet nd u ((State.crConfigWrite (s) (n) (reg) (w))) := by
  subst hn
  refine Quiet.trans hs ?_
  unfold State.crConfigWrite
  repeat' first
    | with_reducible exact Quiet.refl _
    | with_reducible rfl
    | (intro x; first | clear_value x | skip)
    | lift_lets -underBinder
    | with_reducible apply Quiet.ite
    | with_reducible apply State.logT_quiet
    | with_reducible apply State.spGuard_quiet
    | with_reducible apply State.updSlice_quiet

theorem execCrConfigWrite_quiet {nd : Node} {u : State} {slice reg : Nat} {w : Word} {s : State} (hn : nd = .tsu) (hs : Quiet nd u s) : Quiet nd u ((State.after (s) (execCrConfigWrite (slice) (reg) (w) (s)))) := by
  subst hn
  refine Quiet.trans hs ?_
  unfold execCrConfigWrite
  rw [State.after_next]
  repeat' first
    | with_reducible exact Quiet.refl _
    | with_reducible rfl
    | with_reducible apply State.crConfigWrite_quiet

theorem execFilterClr_quiet {nd : Node} {u : State} {s : State} (hn : nd = .tsu) (hs : Quiet nd u s) : Quiet nd u ((State.after (s) (execFilterClr (s)))) := by
  subst hn
  refine Quiet.trans hs ?_
  unfold execFilterClr
  rw [State.after_next]
  repeat' first
    | with_reducible exact Quiet.refl _
    | with_reducible rfl
    | ((with_reducible apply State.updTsu_quiet); rotate_left; focus (intro t; rfl))

theorem execConflictPop_quiet {nd : Node} {u : State} {s : State} (hn : nd = .tsu) (hs : Quiet nd u s) : Quiet nd u ((State.after (s) (execConflictPop (s)))) := by
  subst hn
  refine Quiet.trans hs ?_
  unfold execConflictPop
  rw [State.after_next]
  repeat' first
    | with_reducible exact Quiet.refl _
    | with_reducible rfl
    | ((with_reducible apply State.updTsu_quiet); rotate_left; focus (intro t; rfl))

end Sys2Proof.Machine
end

