-- ==== Sys2Proof/Laws/ApartRegRead.lean ====
section
/-! SUPPORT. Which part the operations of `Sys2Proof.Machine.RegRead` act at, and whether they leave its time alone. -/

namespace Sys2Proof.Machine

open Sys2Proof

set_option linter.unusedVariables false

theorem State.readBy_quiet {nd : Node} {u : State} {s : State} {n : Node} {master off : Nat} (h_n : n = nd) (hs : Quiet nd u s) : Quiet nd u ((State.readBy (s) (n) (master) (off))) := by
  refine Quiet.trans hs ?_
  unfold State.readBy
  repeat' first
    | with_reducible exact Quiet.refl _
    | with_reducible assumption
    | (intro x; first | (refine Quiet.use (x := x) ?_ (fun hx => ?_); rotate_left; clear_value x; rotate_right; subst x) | (have hf := funext (f := x) (g := x) (fun _ => rfl); clear hf; subst x) | clear_value x | skip)
    | lift_lets -underBinder
    | with_reducible apply Quiet.ite
    | ((with_reducible apply State.updCom_quiet); rotate_left; focus (intro t; rfl))
    | with_reducible apply Quiet.foldl
    | split

theorem State.regRead_quiet {nd : Node} {u : State} {s : State} {n : Node} {acc : Access} {off : Nat} (h_n : n = nd) (hs : Quiet nd u s) : Quiet nd u ((State.regRead (s) (n) (acc) (off))) := by
  refine Quiet.trans hs ?_
  unfold State.regRead
  repeat' first
    | with_reducible exact Quiet.refl _
    | with_reducible assumption
    | intro x
    | lift_lets -underBinder
    | with_reducible apply Quiet.ite
    | with_reducible apply State.readBy_quiet
    | ((with_reducible apply State.updCom_quiet); rotate_left; focus (intro t; exact Common.accessErr_time ..))

end Sys2Proof.Machine
end

