-- ==== Sys2Proof/Laws/ApartRegisters.lean ====
section
/-! SUPPORT. Which part the operations of `Sys2Proof.Machine.Registers` act at, and whether they leave its time alone. -/

namespace Sys2Proof.Machine

open Sys2Proof

set_option linter.unusedVariables false

theorem State.storeBits_quiet {nd : Node} {u : State} {s : State} {n : Node} {off : Nat} {mask w : Word} (h_n : n = nd) (hs : Quiet nd u s) : Quiet nd u ((State.storeBits (s) (n) (off) (mask) (w))) := by
  refine Quiet.trans hs ?_
  unfold State.storeBits
  repeat' first
    | with_reducible exact Quiet.refl _
    | with_reducible assumption
    | with_reducible apply Quiet.ite
    | with_reducible apply State.setReg_quiet
    | intro x

theorem State.clearBits_quiet {nd : Node} {u : State} {s : State} {n : Node} {off : Nat} {mask w : Word} {same : Bool} (h_n : n = nd) (hs : Quiet nd u s) : Quiet nd u ((State.clearBits (s) (n) (off) (mask) (w) (same))) := by
  refine Quiet.trans hs ?_
  unfold State.clearBits
  repeat' first
    | with_reducible exact Quiet.refl _
    | with_reducible assumption
    | intro x
    | lift_lets -underBinder
    | with_reducible apply Quiet.ite
    | ((with_reducible apply State.updCom_quiet); rotate_left; focus (intro t; rfl))

theorem State.windowWrite_quiet {nd : Node} {u : State} {s : State} {off : Nat} {w : Word} (hn : nd = .tsu) (hs : Quiet nd u s) : Quiet nd u ((State.windowWrite (s) (off) (w))) := by
  subst hn
  refine Quiet.trans hs ?_
  unfold State.windowWrite
  repeat' first
    | with_reducible exact Quiet.refl _
    | with_reducible rfl
    | (intro x; clear_value x)
    | lift_lets -underBinder
    | with_reducible apply State.updSlice_quiet

theorem State.tsuWrite_apart {nd : Node} {u : State} {s : State} {off : Nat} {w : Word} {same : Bool} (hn : nd = .tsu) (hs : Apart nd u s) : Apart nd u ((State.tsuWrite (s) (off) (w) (same))) := by
  subst hn
  refine Apart.trans hs ?_
  unfold State.tsuWrite
  repeat' first
    | with_reducible exact Apart.refl _
    | with_reducible assumption
    | with_reducible rfl
    | (intro x; first | (refine Apart.use (x := x) ?_ (fun hx => ?_); rotate_left; clear_value x; rotate_right; subst x) | skip)
    | lift_lets -underBinder
    | with_reducible apply Apart.ite
    | with_reducible apply Apart.step (State.clearBits_quiet ?_ (Quiet.refl _))
    | with_reducible apply Apart.step (State.logT_quiet ?_ (Quiet.refl _))
    | with_reducible apply Apart.step (State.storeBits_quiet ?_ (Quiet.refl _))
    | with_reducible apply Apart.step (State.updSlice_quiet ?_ (Quiet.refl _))
    | with_reducible apply Apart.step (State.windowWrite_quiet ?_ (Quiet.refl _))
    | with_reducible apply State.updTime_apart
    | split

theorem State.pageWrite_quiet {nd : Node} {u : State} {s : State} {n off : Nat} {w : Word} (hn : nd = .tsu) (hs : Quiet nd u s) : Quiet nd u ((State.pageWrite (s) (n) (off) (w))) := by
  subst hn
  refine Quiet.trans hs ?_
  unfold State.pageWrite
  repeat' first
    | with_reducible exact Quiet.refl _
    | with_reducible rfl
    | (intro x; first | (have hf := funext (f := x) (g := x) (fun _ => rfl); clear hf; subst x) | clear_value x | skip)
    | lift_lets -underBinder
    | with_reducible apply Quiet.ite
    | with_reducible apply State.logT_quiet
    | with_reducible apply State.ringVector_quiet
    | with_reducible apply State.spCode_quiet
    | with_reducible apply State.spGuard_quiet
    | with_reducible apply State.updSlice_quiet
    | split

theorem State.gdPlain_quiet {nd : Node} {u : State} {s : State} {acc : Access} {off : Nat} {w : Word} (hn : nd = .gd) (hs : Quiet nd u s) : Quiet nd u ((State.gdPlain (s) (acc) (off) (w))) := by
  subst hn
  refine Quiet.trans hs ?_
  unfold State.gdPlain
  repeat' first
    | with_reducible exact Quiet.refl _
    | with_reducible assumption
    | with_reducible rfl
    | (intro x; first | (refine Quiet.use (x := x) ?_ (fun hx => ?_); rotate_left; clear_value x; rotate_right; subst x) | clear_value x | skip)
    | lift_lets -underBinder
    | with_reducible apply Quiet.ite
    | with_reducible apply State.clearBits_quiet
    | with_reducible apply State.custodyRefused_quiet
    | with_reducible apply State.noteWrite_quiet
    | with_reducible apply State.outputsDue_quiet
    | with_reducible apply State.refSelect_quiet
    | with_reducible apply State.refsConfig_quiet
    | with_reducible apply State.storeBits_quiet
    | ((with_reducible apply State.updGd_quiet); rotate_left; focus (intro t; rfl))
    | ((with_reducible apply State.updCom_quiet); rotate_left; focus (intro t; first | rfl | exact Common.accessErr_time ..))
    | with_reducible apply State.updRef_quiet
    | split

theorem State.regWrite_apart {nd : Node} {u : State} {s : State} {n : Node} {acc : Access} {off : Nat} {w : Word} (h_n : n = nd) (hs : Apart nd u s) : Apart nd u ((State.regWrite (s) (n) (acc) (off) (w))) := by
  refine Apart.trans hs ?_
  unfold State.regWrite
  repeat' first
    | with_reducible exact Apart.refl _
    | with_reducible assumption
    | (with_reducible refine (?_ : (_ : Node) = _); first | rfl | assumption | (simp_all only []; done) | (simp_all; done) | (cases nd <;> simp_all; done))
    | intro x
    | lift_lets -underBinder
    | with_reducible apply Apart.ite
    | with_reducible apply Apart.step (State.gdPlain_quiet ?_ (Quiet.refl _))
    | with_reducible apply Apart.step (State.irqEdge_quiet ?_ (Quiet.refl _))
    | with_reducible apply Apart.step (State.pageWrite_quiet ?_ (Quiet.refl _))
    | with_reducible apply State.tsuWrite_apart
    | with_reducible apply State.updCom_apart
    | split

theorem execRegisterWrite_apart {nd : Node} {u : State} {n : Node} {acc : Access} {offset : Nat} {w : Word} {s : State} (h_n : n = nd) (hs : Apart nd u s) : Apart nd u ((State.after (s) (execRegisterWrite (n) (acc) (offset) (w) (s)))) := by
  refine Apart.trans hs ?_
  unfold execRegisterWrite
  rw [State.after_next]
  repeat' first
    | with_reducible exact Apart.refl _
    | with_reducible assumption
    | with_reducible apply State.regWrite_apart

theorem execLowWordLatchRead_quiet {nd : Node} {u : State} {n : Node} {acc : Access} {offset : Nat} {s : State} (h_n : n = nd) (hs : Quiet nd u s) : Quiet nd u ((State.after (s) (execLowWordLatchRead (n) (acc) (offset) (s)))) := by
  refine Quiet.trans hs ?_
  unfold execLowWordLatchRead
  rw [State.after_next]
  repeat' first
    | with_reducible exact Quiet.refl _
    | with_reducible assumption
    | with_reducible apply State.regRead_quiet

theorem execErrlogPop_quiet {nd : Node} {u : State} {n : Node} {s : State} (h_n : n = nd) (hs : Quiet nd u s) : Quiet nd u ((State.after (s) (execErrlogPop (n) (s)))) := by
  refine Quiet.trans hs ?_
  unfold execErrlogPop
  rw [State.after_next]
  repeat' first
    | with_reducible exact Quiet.refl _
    | with_reducible assumption
    | ((with_reducible apply State.updCom_quiet); rotate_left; focus (intro t; rfl))

theorem execErrlogClear_quiet {nd : Node} {u : State} {n : Node} {s : State} (h_n : n = nd) (hs : Quiet nd u s) : Quiet nd u ((State.after (s) (execErrlogClear (n) (s)))) := by
  refine Quiet.trans hs ?_
  unfold execErrlogClear
  rw [State.after_next]
  repeat' first
    | with_reducible exact Quiet.refl _
    | with_reducible assumption
    | ((with_reducible apply State.updCom_quiet); rotate_left; focus (intro t; rfl))

theorem execIrqEventHandshake_quiet {nd : Node} {u : State} {s : State} (hn : nd = .tsu) (hs : Quiet nd u s) : Quiet nd u ((State.after (s) (execIrqEventHandshake (s)))) := by
  subst hn
  refine Quiet.trans hs ?_
  unfold execIrqEventHandshake
  rw [State.after_next]
  repeat' first
    | with_reducible exact Quiet.refl _
    | with_reducible rfl
    | ((with_reducible apply State.updCom_quiet); rotate_left; focus (intro t; rfl))

theorem State.debugSnapshot_quiet {nd : Node} {u : State} {s : State} {slice : Option Nat} {w : Word} (hn : nd = .tsu) (hs : Quiet nd u s) : Quiet nd u ((State.debugSnapshot (s) (slice) (w))) := by
  subst hn
  refine Quiet.trans hs ?_
  unfold State.debugSnapshot
  repeat' first
    | with_reducible exact Quiet.refl _
    | with_reducible rfl
    | (intro x; first | (have hf := funext (f := x) (g := x) (fun _ => rfl); clear hf; subst x) | clear_value x | skip)
    | lift_lets -underBinder
    | with_reducible apply Quiet.ite
    | with_reducible apply State.denied_quiet
    | with_reducible apply State.setReg_quiet
    | with_reducible apply State.spGuard_quiet
    | with_reducible apply State.updSlice_quiet
    | ((with_reducible apply State.updTsu_quiet); rotate_left; focus (intro t; rfl))
    | split

theorem execDebugSnapshot_quiet {nd : Node} {u : State} {slice : Option Nat} {w : Word} {s : State} (hn : nd = .tsu) (hs : Quiet nd u s) : Quiet nd u ((State.after (s) (execDebugSnapshot (slice) (w) (s)))) := by
  subst hn
  refine Quiet.trans hs ?_
  unfold execDebugSnapshot
  rw [State.after_next]
  repeat' first
    | with_reducible exact Quiet.refl _
    | with_reducible rfl
    | with_reducible apply State.debugSnapshot_quiet

theorem execSoftSnapshot_quiet {nd : Node} {u : State} {w : Word} {s : State} (hn : nd = .gd) (hs : Quiet nd u s) : Quiet nd u ((State.after (s) (execSoftSnapshot (w) (s)))) := by
  subst hn
  refine Quiet.trans hs ?_
  unfold execSoftSnapshot
  rw [State.after_next]
  repeat' first
    | with_reducible exact Quiet.refl _
    | with_reducible rfl
    | lift_lets -underBinder
    | with_reducible apply State.setReg_quiet
    | ((with_reducible apply State.updGd_quiet); rotate_left; focus (intro t; rfl))

theorem State.dlatWords_quiet {nd : Node} {u : State} {s : State} {tag : BitVec 24} (hn : nd = .gd) (hs : Quiet nd u s) : Quiet nd u ((State.dlatWords (s) (tag)).1) := by
  subst hn
  refine Quiet.trans hs ?_
  unfold State.dlatWords
  repeat' first
    | with_reducible exact Quiet.refl _
    | with_reducible assumption
    | (intro x; first | (refine Quiet.use (x := x.1) ?_ (fun hx => ?_); rotate_left; clear_value x; rotate_right; subst x) | (have hf := funext (f := x) (g := x) (fun _ => rfl); clear hf; subst x) | clear_value x)
    | lift_lets -underBinder
    | with_reducible apply State.slotWait_quiet
    | split

theorem execDlatSnapshot_quiet {nd : Node} {u : State} {w : Word} {s : State} (hn : nd = .gd) (hs : Quiet nd u s) : Quiet nd u ((State.after (s) (execDlatSnapshot (w) (s)))) := by
  subst hn
  refine Quiet.trans hs ?_
  unfold execDlatSnapshot
  rw [State.after_next]
  repeat' first
    | with_reducible exact Quiet.refl _
    | with_reducible assumption
    | with_reducible rfl
    | (intro x; (refine Quiet.use (x := x) ?_ (fun hx => ?_); rotate_left; clear_value x; rotate_right; subst x))
    | lift_lets -underBinder
    | with_reducible apply State.dlatWords_quiet
    | with_reducible apply State.setReg_quiet
    | ((with_reducible apply State.updGd_quiet); rotate_left; focus (intro t; rfl))

end Sys2Proof.Machine
end

