-- ==== Sys2Proof/Laws/ApartResets.lean ====
section
/-! SUPPORT. Which part the operations of `Sys2Proof.Machine.Resets` act at, and whether they leave its time alone. -/

namespace Sys2Proof.Machine

open Sys2Proof

set_option linter.unusedVariables false

theorem State.absorb_quiet {nd : Node} {u : State} {s : State} {n : Node} (h_n : n = nd) (hs : Quiet nd u s) : Quiet nd u ((State.absorb (s) (n))) := by
  refine Quiet.trans hs ?_
  unfold State.absorb
  repeat' first
    | with_reducible exact Quiet.refl _
    | (with_reducible refine (?_ : (_ : Node) = _); first | rfl | assumption | (simp_all only []; done) | (simp_all; done) | (cases nd <;> simp_all; done))
    | ((with_reducible apply State.updTsu_quiet); rotate_left; focus (intro t; rfl))
    | ((with_reducible apply State.updGd_quiet); rotate_left; focus (intro t; rfl))
    | split

theorem State.portRst_quiet {nd : Node} {u : State} {s : State} {p : Nat} (hn : nd = .tsu) (hs : Quiet nd u s) : Quiet nd u ((State.portRst (s) (p))) := by
  subst hn
  refine Quiet.trans hs ?_
  unfold State.portRst
  repeat' first
    | with_reducible exact Quiet.refl _
    | with_reducible assumption
    | with_reducible rfl
    | (intro x; first | (refine Quiet.use (x := x) ?_ (fun hx => ?_); rotate_left; clear_value x; rotate_right; subst x) | skip)
    | lift_lets -underBinder
    | with_reducible apply Quiet.ite
    | with_reducible apply State.absorb_quiet
    | with_reducible apply State.portReset_quiet
    | with_reducible apply State.setReg_quiet

theorem execPortRst_quiet {nd : Node} {u : State} {port : Nat} {s : State} (hn : nd = .tsu) (hs : Quiet nd u s) : Quiet nd u ((State.after (s) (execPortRst (port) (s)))) := by
  subst hn
  refine Quiet.trans hs ?_
  unfold execPortRst
  rw [State.after_next]
  repeat' first
    | with_reducible exact Quiet.refl _
    | with_reducible rfl
    | with_reducible apply State.portRst_quiet

theorem execPortResetEnd_quiet {nd : Node} {u : State} {port : Nat} {s : State} (hn : nd = .tsu) (hs : Quiet nd u s) : Quiet nd u ((State.after (s) (execPortResetEnd (port) (s)))) := by
  subst hn
  refine Quiet.trans hs ?_
  unfold execPortResetEnd
  rw [State.after_next]
  repeat' first
    | with_reducible exact Quiet.refl _
    | with_reducible rfl
    | intro x
    | lift_lets -underBinder
    | with_reducible apply Quiet.ite
    | with_reducible apply State.updPort_quiet
    | split

theorem execUnitRst_quiet {nd : Node} {u : State} {s : State} (hn : nd = .tsu) (hs : Quiet nd u s) : Quiet nd u ((State.after (s) (execUnitRst (s)))) := by
  subst hn
  refine Quiet.trans hs ?_
  unfold execUnitRst
  rw [State.after_next]
  repeat' first
    | with_reducible exact Quiet.refl _
    | with_reducible rfl
    | with_reducible apply State.unitReset_quiet

theorem State.gdPortRst_apart {nd : Node} {u : State} {s : State} {p : Nat} (hn : nd = .gd) (hs : Apart nd u s) : Apart nd u ((State.gdPortRst (s) (p))) := by
  subst hn
  refine Apart.trans hs ?_
  unfold State.gdPortRst
  repeat' first
    | with_reducible exact Apart.refl _
    | with_reducible assumption
    | with_reducible rfl
    | (intro x; first | (refine Apart.use (x := x) ?_ (fun hx => ?_); rotate_left; clear_value x; rotate_right; subst x) | clear_value x | skip)
    | lift_lets -underBinder
    | with_reducible apply Apart.ite
    | with_reducible apply Apart.step (State.absorb_quiet ?_ (Quiet.refl _))
    | with_reducible apply State.portPage_apart
    | with_reducible apply State.retrain_apart
    | with_reducible apply State.updGd_apart
    | with_reducible apply State.updCom_apart

theorem execGdPortRst_apart {nd : Node} {u : State} {port : Nat} {s : State} (hn : nd = .gd) (hs : Apart nd u s) : Apart nd u ((State.after (s) (execGdPortRst (port) (s)))) := by
  subst hn
  refine Apart.trans hs ?_
  unfold execGdPortRst
  rw [State.after_next]
  repeat' first
    | with_reducible exact Apart.refl _
    | with_reducible rfl
    | with_reducible apply State.gdPortRst_apart

theorem State.domainRst_quiet {nd : Node} {u : State} {s : State} {tag : BitVec 24} (hn : nd = .gd) (hs : Quiet nd u s) : Quiet nd u ((State.domainRst (s) (tag))) := by
  subst hn
  refine Quiet.trans hs ?_
  unfold State.domainRst
  repeat' first
    | with_reducible exact Quiet.refl _
    | with_reducible assumption
    | with_reducible rfl
    | (intro x; first | (refine Quiet.use (x := x) ?_ (fun hx => ?_); rotate_left; clear_value x; rotate_right; subst x) | skip)
    | lift_lets -underBinder
    | with_reducible apply Quiet.ite
    | with_reducible apply State.absorb_quiet
    | with_reducible apply State.fullCensus_quiet
    | with_reducible apply State.setReg_quiet
    | ((with_reducible apply State.updGd_quiet); rotate_left; focus (intro t; rfl))
    | split

theorem execDomainRst_quiet {nd : Node} {u : State} {tag : BitVec 24} {s : State} (hn : nd = .gd) (hs : Quiet nd u s) : Quiet nd u ((State.after (s) (execDomainRst (tag) (s)))) := by
  subst hn
  refine Quiet.trans hs ?_
  unfold execDomainRst
  rw [State.after_next]
  repeat' first
    | with_reducible exact Quiet.refl _
    | with_reducible rfl
    | with_reducible apply State.domainRst_quiet

theorem execRateRetryTimer_apart {nd : Node} {u : State} {port : Nat} {s : State} (hn : nd = .gd) (hs : Apart nd u s) : Apart nd u ((State.after (s) (execRateRetryTimer (port) (s)))) := by
  subst hn
  refine Apart.trans hs ?_
  unfold execRateRetryTimer
  rw [State.after_next]
  repeat' first
    | with_reducible exact Apart.refl _
    | with_reducible rfl
    | (intro x; first | (have hf : (x : LinkId) = x := rfl; clear hf; subst x) | skip)
    | lift_lets -underBinder
    | with_reducible apply Apart.ite
    | with_reducible apply State.retrain_apart

theorem execRateRetry_apart {nd : Node} {u : State} {port : Nat} {s : State} (hn : nd = .gd) (hs : Apart nd u s) : Apart nd u ((State.after (s) (execRateRetry (port) (s)))) := by
  subst hn
  refine Apart.trans hs ?_
  unfold execRateRetry
  rw [State.after_next]
  repeat' first
    | with_reducible exact Apart.refl _
    | with_reducible rfl
    | intro x
    | lift_lets -underBinder
    | with_reducible apply State.portPage_apart
    | with_reducible apply State.retrain_apart

theorem execPortEnWrite_apart {nd : Node} {u : State} {port : Nat} {en : Bool} {s : State} (hn : nd = .gd) (hs : Apart nd u s) : Apart nd u ((State.after (s) (execPortEnWrite (port) (en) (s)))) := by
  subst hn
  refine Apart.trans hs ?_
  unfold execPortEnWrite
  rw [State.after_next]
  repeat' first
    | with_reducible exact Apart.refl _
    | with_reducible rfl
    | (intro x; first | (have hf : (x : LinkId) = x := rfl; clear hf; subst x) | skip)
    | lift_lets -underBinder
    | with_reducible apply Apart.ite
    | with_reducible apply State.linkOff_apart
    | with_reducible apply Apart.step (State.linkOn_quiet ?_ (Quiet.refl _))
    | with_reducible apply State.portPage_apart
    | with_reducible apply State.updCom_apart

theorem execRingBypassWrite_quiet {nd : Node} {u : State} {v : Bool} {s : State} (hn : nd = .gd) (hs : Quiet nd u s) : Quiet nd u ((State.after (s) (execRingBypassWrite (v) (s)))) := by
  subst hn
  refine Quiet.trans hs ?_
  unfold execRingBypassWrite
  rw [State.after_next]
  repeat' first
    | with_reducible exact Quiet.refl _
    | with_reducible rfl
    | ((with_reducible apply State.updGd_quiet); rotate_left; focus (intro t; rfl))

theorem execThermNAlarm_quiet {nd : Node} {u : State} {celsius : Int} {s : State} (hn : nd = .gd) (hs : Quiet nd u s) : Quiet nd u ((State.after (s) (execThermNAlarm (celsius) (s)))) := by
  subst hn
  refine Quiet.trans hs ?_
  unfold execThermNAlarm
  rw [State.after_next]
  repeat' first
    | with_reducible exact Quiet.refl _
    | with_reducible rfl
    | ((with_reducible apply State.updGd_quiet); rotate_left; focus (intro t; rfl))

theorem State.lostTumbler_quiet {nd : Node} {u : State} {s : State} {e : Nat} (hn : nd = .tsu) (hs : Quiet nd u s) : Quiet nd u ((State.lostTumbler (s) (e))) := by
  subst hn
  refine Quiet.trans hs ?_
  unfold State.lostTumbler
  repeat' first
    | with_reducible exact Quiet.refl _
    | with_reducible assumption
    | with_reducible rfl
    | (intro x; first | (refine Quiet.use (x := x) ?_ (fun hx => ?_); rotate_left; clear_value x; rotate_right; subst x) | skip)
    | lift_lets -underBinder
    | with_reducible apply Quiet.ite
    | with_reducible apply State.closeTumb_quiet
    | with_reducible apply State.enterShadow_quiet
    | with_reducible apply State.failWaiters_quiet
    | with_reducible apply State.joinSoon_quiet
    | with_reducible apply State.updBinding_quiet
    | split

theorem State.lostRow_quiet {nd : Node} {u : State} {s : State} {r : Nat} (hn : nd = .tsu) (hs : Quiet nd u s) : Quiet nd u ((State.lostRow (s) (r))) := by
  subst hn
  refine Quiet.trans hs ?_
  unfold State.lostRow
  repeat' first
    | with_reducible exact Quiet.refl _
    | with_reducible rfl
    | lift_lets -underBinder
    | with_reducible apply State.retireRow_quiet
    | with_reducible apply State.takeFresh_quiet
    | split

theorem State.lostImage_quiet {nd : Node} {u : State} {s : State} {n : Nat} (hn : nd = .tsu) (hs : Quiet nd u s) : Quiet nd u ((State.lostImage (s) (n))) := by
  subst hn
  refine Quiet.trans hs ?_
  unfold State.lostImage
  repeat' first
    | with_reducible exact Quiet.refl _
    | with_reducible assumption
    | with_reducible rfl
    | (intro x; first | (refine Quiet.use (x := x) ?_ (fun hx => ?_); rotate_left; clear_value x; rotate_right; subst x) | skip)
    | lift_lets -underBinder
    | with_reducible apply State.ctxHalt_quiet
    | with_reducible apply State.updSlice_quiet
    | with_reducible apply Quiet.foldl

theorem State.lostCal_quiet {nd : Node} {u : State} {s : State} {k : Nat} (hn : nd = .tsu) (hs : Quiet nd u s) : Quiet nd u ((State.lostCal (s) (k))) := by
  subst hn
  refine Quiet.trans hs ?_
  unfold State.lostCal
  repeat' first
    | with_reducible exact Quiet.refl _
    | with_reducible assumption
    | with_reducible rfl
    | (intro x; (refine Quiet.use (x := x) ?_ (fun hx => ?_); rotate_left; clear_value x; rotate_right; subst x))
    | lift_lets -underBinder
    | with_reducible apply State.updCal_quiet
    | with_reducible apply State.writeRecord_quiet
    | with_reducible apply State.takeFresh_quiet
    | split

theorem State.lineLost_apart {nd : Node} {u s : State} {st : Store} {key : Nat} (hn : storeNode st = nd) (hs : Apart nd u s) :
    Apart nd u (s.lineLost st key) := by
  subst hn
  unfold State.lineLost
  split
  case h_9 => exact Apart.ite (fun _ => Apart.step (State.setEvt_quiet rfl (.refl _)) hs) (fun _ => State.chipReset_apart rfl hs)
  case h_1 => exact Apart.step (State.lostTumbler_quiet rfl (.refl _)) hs
  case h_2 => exact Apart.step (State.lostTumbler_quiet rfl (.refl _)) hs
  case h_3 => exact Apart.step (State.lostRow_quiet rfl (.refl _)) hs
  case h_4 => exact Apart.step (State.lostImage_quiet rfl (.refl _)) hs
  case h_5 => exact Apart.step (State.ctxHalt_quiet rfl (.refl _)) hs
  case h_6 => exact Apart.step (State.lostCal_quiet rfl (.refl _)) hs
  case h_7 => exact Apart.step (State.updTumb_quiet rfl (.refl _)) hs
  case h_8 =>
    have h : Apart .gd u (s.updGd fun g => { g with softs := Tab.del g.softs key }) := State.updGd_apart rfl hs
    exact Apart.ite (fun _ => Apart.step (State.fullCensus_quiet rfl (.refl _)) h) (fun _ => h)

theorem State.scrubLine_apart {nd : Node} {u s : State} {st : Store} {key : Nat} {found : LineState} (hn : storeNode st = nd)
    (hs : Apart nd u s) : Apart nd u (s.scrubLine st key found) := by
  unfold State.scrubLine
  split
  · exact hs
  · split
    · exact State.updTsu_apart (by simp_all) hs
    · exact State.updGd_apart (by simp_all) hs
  · refine State.lineLost_apart hn ?_
    have h := Apart.step (State.log_quiet (code := .storeUncorr) (source := 0) (detail := storeNo st) hn (.refl _)) hs
    split
    · exact State.updTsu_apart (by simp_all) h
    · exact h

theorem execScrubLine_apart {nd : Node} {u s : State} {st : Store} {key : Nat} {found : LineState} (hn : storeNode st = nd)
    (hs : Apart nd u s) : Apart nd u (s.after (execScrubLine st key found s)) := State.scrubLine_apart hn hs


end Sys2Proof.Machine
end

