-- ==== Sys2Proof/Laws/ApartTimeCounter.lean ====
section
/-! SUPPORT. Which part the operations of `Sys2Proof.Machine.TimeCounter` act at, and whether they leave its time alone. -/

namespace Sys2Proof.Machine

open Sys2Proof

set_option linter.unusedVariables false

theorem State.rootTick_apart {nd : Node} {u : State} {s : State} (hn : nd = .gd) (hs : Apart nd u s) : Apart nd u ((State.rootTick (s))) := by
  subst hn
  refine Apart.trans hs ?_
  unfold State.rootTick
  repeat' first
    | with_reducible exact Apart.refl _
    | with_reducible rfl
    | (intro x; first | (have hf := funext (f := x) (g := x) (fun _ => rfl); clear hf; subst x) | clear_value x | skip)
    | lift_lets -underBinder
    | with_reducible apply Apart.ite
    | with_reducible apply State.updGd_apart
    | with_reducible apply State.updTime_apart
    | with_reducible apply State.takeFresh_apart
    | split

theorem State.setCommit_apart {nd : Node} {u : State} {s : State} (hn : nd = .tsu) (hs : Apart nd u s) : Apart nd u ((State.setCommit (s))) := by
  subst hn
  refine Apart.trans hs ?_
  unfold State.setCommit
  repeat' first
    | with_reducible exact Apart.refl _
    | with_reducible rfl
    | (intro x; first | (have hf := funext (f := x) (g := x) (fun _ => rfl); clear hf; subst x) | skip)
    | lift_lets -underBinder
    | with_reducible apply Apart.ite
    | with_reducible apply Apart.step (State.logT_quiet ?_ (Quiet.refl _))
    | with_reducible apply Apart.step (State.setEvt_quiet ?_ (Quiet.refl _))
    | with_reducible apply State.stepCounter_apart

theorem State.commitTick_apart {nd : Node} {u : State} {s : State} (hn : nd = .tsu) (hs : Apart nd u s) : Apart nd u ((State.commitTick (s))) := by
  subst hn
  refine Apart.trans hs ?_
  unfold State.commitTick
  repeat' first
    | with_reducible exact Apart.refl _
    | with_reducible rfl
    | intro x
    | lift_lets -underBinder
    | with_reducible apply Apart.ite
    | with_reducible apply State.setCommit_apart
    | with_reducible apply State.updTime_apart

theorem State.timeClockTick_apart {nd : Node} {u : State} {s : State} {n : Node} (h_n : n = nd) (hs : Apart nd u s) : Apart nd u ((State.timeClockTick (s) (n))) := by
  refine Apart.trans hs ?_
  unfold State.timeClockTick
  repeat' first
    | with_reducible exact Apart.refl _
    | with_reducible assumption
    | (with_reducible refine (?_ : (_ : Node) = _); first | rfl | assumption | (simp_all only []; done) | (simp_all; done) | (cases nd <;> simp_all; done))
    | (intro x; first | (refine Apart.use (x := x) ?_ (fun hx => ?_); rotate_left; clear_value x; rotate_right; subst x) | clear_value x | skip)
    | lift_lets -underBinder
    | with_reducible apply Apart.ite
    | with_reducible apply Apart.step (State.bootMsLatch_quiet ?_ (Quiet.refl _))
    | with_reducible apply State.commitTick_apart
    | with_reducible apply Apart.step (State.cycleEnd_quiet ?_ (Quiet.refl _))
    | with_reducible apply Apart.step (State.outputsTick_quiet ?_ (Quiet.refl _))
    | with_reducible apply State.rootTick_apart
    | with_reducible apply Apart.step (State.stallServe_quiet ?_ (Quiet.refl _))
    | with_reducible apply Apart.step (State.updRegions_quiet ?_ (Quiet.refl _))
    | with_reducible apply State.updTsu_apart
    | with_reducible apply State.updTime_apart
    | split

theorem execTimeClockTick_apart {nd : Node} {u : State} {n : Node} {s : State} (h_n : n = nd) (hs : Apart nd u s) : Apart nd u ((State.after (s) (execTimeClockTick (n) (s)))) := by
  refine Apart.trans hs ?_
  unfold execTimeClockTick
  rw [State.after_next]
  repeat' first
    | with_reducible exact Apart.refl _
    | with_reducible assumption
    | with_reducible apply State.timeClockTick_apart

theorem execSetCommit_apart {nd : Node} {u : State} {s : State} (hn : nd = .tsu) (hs : Apart nd u s) : Apart nd u ((State.after (s) (execSetCommit (s)))) := by
  subst hn
  refine Apart.trans hs ?_
  unfold execSetCommit
  rw [State.after_next]
  repeat' first
    | with_reducible exact Apart.refl _
    | with_reducible rfl
    | with_reducible apply State.setCommit_apart

theorem State.tdreset_apart {nd : Node} {u : State} {s : State} {commit : Bool} (hn : nd = .tsu) (hs : Apart nd u s) : Apart nd u ((State.tdreset (s) (commit))) := by
  subst hn
  refine Apart.trans hs ?_
  unfold State.tdreset
  repeat' first
    | with_reducible exact Apart.refl _
    | with_reducible assumption
    | with_reducible rfl
    | (intro x; first | (refine Apart.use (x := x) ?_ (fun hx => ?_); rotate_left; clear_value x; rotate_right; subst x) | skip)
    | lift_lets -underBinder
    | with_reducible apply Apart.ite
    | with_reducible apply State.setCommit_apart
    | with_reducible apply State.timeDomainReset_apart
    | with_reducible apply State.updTime_apart

theorem execTdreset_apart {nd : Node} {u : State} {n : Bool} {s : State} (hn : nd = .tsu) (hs : Apart nd u s) : Apart nd u ((State.after (s) (execTdreset (n) (s)))) := by
  subst hn
  refine Apart.trans hs ?_
  unfold execTdreset
  rw [State.after_next]
  repeat' first
    | with_reducible exact Apart.refl _
    | with_reducible rfl
    | with_reducible apply State.tdreset_apart

theorem State.standaloneWrite_apart {nd : Node} {u : State} {s : State} {v : Bool} (hn : nd = .tsu) (hs : Apart nd u s) : Apart nd u ((State.standaloneWrite (s) (v))) := by
  subst hn
  refine Apart.trans hs ?_
  unfold State.standaloneWrite
  repeat' first
    | with_reducible exact Apart.refl _
    | with_reducible rfl
    | (intro x; first | clear_value x | skip)
    | lift_lets -underBinder
    | with_reducible apply Apart.ite
    | with_reducible apply State.timeDomainReset_apart
    | with_reducible apply State.updTime_apart
    | with_reducible apply State.updTimeQ_apart

theorem execStandaloneWrite_apart {nd : Node} {u : State} {v : Bool} {s : State} (hn : nd = .tsu) (hs : Apart nd u s) : Apart nd u ((State.after (s) (execStandaloneWrite (v) (s)))) := by
  subst hn
  refine Apart.trans hs ?_
  unfold execStandaloneWrite
  rw [State.after_next]
  repeat' first
    | with_reducible exact Apart.refl _
    | with_reducible rfl
    | with_reducible apply State.standaloneWrite_apart

theorem State.addendCommit_apart {nd : Node} {u : State} {s : State} {w1 : Word} (hn : nd = .tsu) (hs : Apart nd u s) : Apart nd u ((State.addendCommit (s) (w1))) := by
  subst hn
  refine Apart.trans hs ?_
  unfold State.addendCommit
  repeat' first
    | with_reducible exact Apart.refl _
    | with_reducible rfl
    | intro x
    | lift_lets -underBinder
    | with_reducible apply Apart.ite
    | with_reducible apply State.updTime_apart

theorem execAddendCommit_apart {nd : Node} {u : State} {w1 : Word} {s : State} (hn : nd = .tsu) (hs : Apart nd u s) : Apart nd u ((State.after (s) (execAddendCommit (w1) (s)))) := by
  subst hn
  refine Apart.trans hs ?_
  unfold execAddendCommit
  rw [State.after_next]
  repeat' first
    | with_reducible exact Apart.refl _
    | with_reducible rfl
    | with_reducible apply State.addendCommit_apart
    | with_reducible apply Apart.step (State.addendWord_quiet ?_ (Quiet.refl _))

theorem State.pllLockLoss_apart {nd : Node} {u : State} {s : State} {n : Node} (h_n : n = nd) (hs : Apart nd u s) : Apart nd u ((State.pllLockLoss (s) (n))) := by
  refine Apart.trans hs ?_
  unfold State.pllLockLoss
  repeat' first
    | with_reducible exact Apart.refl _
    | with_reducible assumption
    | lift_lets -underBinder
    | with_reducible apply Apart.step (State.setEvt_quiet ?_ (Quiet.refl _))
    | with_reducible apply State.updTime_apart

theorem execPllLockLoss_apart {nd : Node} {u : State} {n : Node} {s : State} (h_n : n = nd) (hs : Apart nd u s) : Apart nd u ((State.after (s) (execPllLockLoss (n) (s)))) := by
  refine Apart.trans hs ?_
  unfold execPllLockLoss
  rw [State.after_next]
  repeat' first
    | with_reducible exact Apart.refl _
    | with_reducible assumption
    | with_reducible apply State.pllLockLoss_apart

theorem State.pllRelock_apart {nd : Node} {u : State} {s : State} {n : Node} (h_n : n = nd) (hs : Apart nd u s) : Apart nd u ((State.pllRelock (s) (n))) := by
  refine Apart.trans hs ?_
  unfold State.pllRelock
  repeat' first
    | with_reducible exact Apart.refl _
    | with_reducible assumption
    | intro x
    | lift_lets -underBinder
    | with_reducible apply Apart.ite
    | with_reducible apply State.timeDomainReset_apart
    | with_reducible apply State.updTime_apart

theorem execPllRelock_apart {nd : Node} {u : State} {n : Node} {s : State} (h_n : n = nd) (hs : Apart nd u s) : Apart nd u ((State.after (s) (execPllRelock (n) (s)))) := by
  refine Apart.trans hs ?_
  unfold execPllRelock
  rw [State.after_next]
  repeat' first
    | with_reducible exact Apart.refl _
    | with_reducible assumption
    | with_reducible apply State.pllRelock_apart

theorem State.timeDomainPowerOn_apart {nd : Node} {u s : State} {n : Node} (h_n : n = nd) (hs : Apart nd u s) :
    Apart nd u (s.timeDomainPowerOn n) := by
  subst h_n
  unfold State.timeDomainPowerOn
  cases n
  · simp only [if_true]
    exact Apart.step (State.updRegions_quiet rfl (.refl _)) (State.updTsu_apart rfl (State.updCom_apart rfl
      (Apart.step (State.dropDomainLaunches_quiet rfl (.refl _)) hs)))
  · simp only [reduceCtorEq, if_false]
    exact Apart.step (State.noteChange_quiet (fun _ => rfl) (.refl _)) (State.updRef_apart rfl (State.updGd_apart rfl
      (State.updCom_apart rfl hs)))

theorem execTimeDomainPowerOn_apart {nd : Node} {u : State} {n : Node} {s : State} (h_n : n = nd) (hs : Apart nd u s) : Apart nd u ((State.after (s) (execTimeDomainPowerOn (n) (s)))) := by
  refine Apart.trans hs ?_
  unfold execTimeDomainPowerOn
  rw [State.after_next]
  repeat' first
    | with_reducible exact Apart.refl _
    | with_reducible assumption
    | (with_reducible refine (?_ : (_ : Node) = _); first | rfl | assumption | (simp_all only []; done) | (simp_all; done) | (cases nd <;> simp_all; done))
    | intro x
    | lift_lets -underBinder
    | with_reducible apply Apart.ite
    | with_reducible apply State.timeDomainPowerOn_apart
    | with_reducible apply State.updTsu_apart

theorem execTdPorAssert_apart {nd : Node} {u : State} {s : State} (hn : nd = .tsu) (hs : Apart nd u s) : Apart nd u ((State.after (s) (execTdPorAssert (s)))) := by
  subst hn
  refine Apart.trans hs ?_
  unfold execTdPorAssert
  rw [State.after_next]
  repeat' first
    | with_reducible exact Apart.refl _
    | with_reducible rfl
    | lift_lets -underBinder
    | with_reducible apply State.timeDomainPowerOn_apart
    | with_reducible apply State.updTsu_apart

theorem State.restep_apart {nd : Node} {u : State} {s : State} {acc : Access} (hn : nd = .gd) (hs : Apart nd u s) : Apart nd u ((State.restep (s) (acc))) := by
  subst hn
  refine Apart.trans hs ?_
  unfold State.restep
  repeat' first
    | with_reducible exact Apart.refl _
    | with_reducible rfl
    | intro x
    | lift_lets -underBinder
    | with_reducible apply State.gdWrite_apart
    | with_reducible apply State.timeDomainReset_apart
    | with_reducible apply State.updTime_apart

theorem execRestep_apart {nd : Node} {u : State} {acc : Access} {s : State} (hn : nd = .gd) (hs : Apart nd u s) : Apart nd u ((State.after (s) (execRestep (acc) (s)))) := by
  subst hn
  refine Apart.trans hs ?_
  unfold execRestep
  rw [State.after_next]
  repeat' first
    | with_reducible exact Apart.refl _
    | with_reducible rfl
    | with_reducible apply State.restep_apart

theorem State.qualify_apart {nd : Node} {u : State} {s : State} {n : Node} (h_n : n = nd) (hs : Apart nd u s) : Apart nd u ((State.qualify (s) (n))) := by
  refine Apart.trans hs ?_
  unfold State.qualify
  repeat' first
    | with_reducible exact Apart.refl _
    | with_reducible assumption
    | (with_reducible refine (?_ : (_ : Node) = _); first | rfl | assumption | (simp_all only []; done) | (simp_all; done) | (cases nd <;> simp_all; done))
    | (intro x; first | (refine Apart.use (x := x) ?_ (fun hx => ?_); rotate_left; clear_value x; rotate_right; subst x) | skip)
    | lift_lets -underBinder
    | with_reducible apply Apart.ite
    | with_reducible apply Apart.step (State.launchOkGained_quiet ?_ (Quiet.refl _))
    | with_reducible apply State.updTime_apart
    | with_reducible apply State.updTimeQ_apart
    | split

theorem State.qualHoldMet_apart {nd : Node} {u : State} {s : State} {n : Node} (h_n : n = nd) (hs : Apart nd u s) : Apart nd u ((State.qualHoldMet (s) (n))) := by
  refine Apart.trans hs ?_
  unfold State.qualHoldMet
  repeat' first
    | with_reducible exact Apart.refl _
    | with_reducible assumption
    | with_reducible apply Apart.ite
    | with_reducible apply State.qualify_apart
    | intro x

theorem execQualHoldMet_apart {nd : Node} {u : State} {n : Node} {s : State} (h_n : n = nd) (hs : Apart nd u s) : Apart nd u ((State.after (s) (execQualHoldMet (n) (s)))) := by
  refine Apart.trans hs ?_
  unfold execQualHoldMet
  rw [State.after_next]
  repeat' first
    | with_reducible exact Apart.refl _
    | with_reducible assumption
    | with_reducible apply State.qualHoldMet_apart

theorem State.qualDropMet_apart {nd : Node} {u : State} {s : State} {n : Node} (h_n : n = nd) (hs : Apart nd u s) : Apart nd u ((State.qualDropMet (s) (n))) := by
  refine Apart.trans hs ?_
  unfold State.qualDropMet
  repeat' first
    | with_reducible exact Apart.refl _
    | with_reducible assumption
    | (intro x; first | clear_value x | skip)
    | lift_lets -underBinder
    | with_reducible apply Apart.ite
    | with_reducible apply State.updTimeQ_apart

theorem execQualDropMet_apart {nd : Node} {u : State} {n : Node} {s : State} (h_n : n = nd) (hs : Apart nd u s) : Apart nd u ((State.after (s) (execQualDropMet (n) (s)))) := by
  refine Apart.trans hs ?_
  unfold execQualDropMet
  rw [State.after_next]
  repeat' first
    | with_reducible exact Apart.refl _
    | with_reducible assumption
    | with_reducible apply State.qualDropMet_apart

theorem State.flywheelLimit_apart {nd : Node} {u : State} {s : State} {n : Node} (h_n : n = nd) (hs : Apart nd u s) : Apart nd u ((State.flywheelLimit (s) (n))) := by
  refine Apart.trans hs ?_
  unfold State.flywheelLimit
  repeat' first
    | with_reducible exact Apart.refl _
    | with_reducible assumption
    | (intro x; first | clear_value x | skip)
    | lift_lets -underBinder
    | with_reducible apply Apart.ite
    | with_reducible apply State.withdraw_apart
    | with_reducible apply State.updTime_apart
    | split

theorem execFlywheelLimit_apart {nd : Node} {u : State} {n : Node} {s : State} (h_n : n = nd) (hs : Apart nd u s) : Apart nd u ((State.after (s) (execFlywheelLimit (n) (s)))) := by
  refine Apart.trans hs ?_
  unfold execFlywheelLimit
  rw [State.after_next]
  repeat' first
    | with_reducible exact Apart.refl _
    | with_reducible assumption
    | with_reducible apply State.flywheelLimit_apart

theorem State.leapSecondApply_apart {nd : Node} {u : State} {s : State} {n : Node} (h_n : n = nd) (hs : Apart nd u s) : Apart nd u ((State.leapSecondApply (s) (n))) := by
  refine Apart.trans hs ?_
  unfold State.leapSecondApply
  repeat' first
    | with_reducible exact Apart.refl _
    | with_reducible assumption
    | with_reducible apply State.updTime_apart

theorem execLeapSecondApply_apart {nd : Node} {u : State} {n : Node} {s : State} (h_n : n = nd) (hs : Apart nd u s) : Apart nd u ((State.after (s) (execLeapSecondApply (n) (s)))) := by
  refine Apart.trans hs ?_
  unfold execLeapSecondApply
  rw [State.after_next]
  repeat' first
    | with_reducible exact Apart.refl _
    | with_reducible assumption
    | with_reducible apply State.leapSecondApply_apart

end Sys2Proof.Machine
end

