-- ==== Sys2Proof/Laws/ApartTrees.lean ====
section
/-! SUPPORT. Which part the operations of `Sys2Proof.Machine.Trees` act at, and whether they leave its time alone. -/

namespace Sys2Proof.Machine

open Sys2Proof

set_option linter.unusedVariables false

theorem execPolicyCommit_quiet {nd : Node} {u s : State} (hn : nd = .gd) (hs : Quiet nd u s) :
    Quiet nd u (s.after (execPolicyCommit s)) := by
  unfold execPolicyCommit
  rw [State.after_next]
  exact Quiet.ite (fun _ => State.updCom_quiet hn.symm (fun c => Common.accessErr_time ..) hs)
    (fun _ => State.policyDo_quiet hn (fun n g => Gd.hold_time g _) hs)

theorem execPolicyLoad_quiet {nd : Node} {u : State} {s : State} (hn : nd = .gd) (hs : Quiet nd u s) : Quiet nd u ((State.after (s) (execPolicyLoad (s)))) := by
  subst hn
  refine Quiet.trans hs ?_
  unfold execPolicyLoad
  rw [State.after_next]
  repeat' first
    | with_reducible exact Quiet.refl _
    | with_reducible rfl
    | intro x
    | with_reducible apply State.policyDo_quiet

theorem execTreeImageActivate_apart {nd : Node} {u : State} {n : Node} {s : State} (h_n : n = nd) (hs : Apart nd u s) : Apart nd u ((State.after (s) (execTreeImageActivate (n) (s)))) := by
  refine Apart.trans hs ?_
  unfold execTreeImageActivate
  rw [State.after_next]
  repeat' first
    | with_reducible exact Apart.refl _
    | (with_reducible refine (?_ : (_ : Node) = _); first | rfl | assumption | (simp_all only []; done) | (simp_all; done) | (cases nd <;> simp_all; done))
    | with_reducible apply Apart.ite
    | with_reducible apply State.gdActivate_apart
    | with_reducible apply Apart.step (State.tsuActivate_quiet ?_ (Quiet.refl _))
    | split
    | intro x

theorem execTreeWdataWrite_quiet {nd : Node} {u : State} {w : Word} {s : State} (hn : nd = .gd) (hs : Quiet nd u s) : Quiet nd u ((State.after (s) (execTreeWdataWrite (w) (s)))) := by
  subst hn
  refine Quiet.trans hs ?_
  unfold execTreeWdataWrite
  rw [State.after_next]
  repeat' first
    | with_reducible exact Quiet.refl _
    | with_reducible rfl
    | ((with_reducible apply State.updGd_quiet); rotate_left; focus (intro t; ((repeat' split) <;> rfl)))

theorem State.rootLoad_apart {nd : Node} {u : State} {s : State} {b : List Byte} (hn : nd = .gd) (hs : Apart nd u s) : Apart nd u ((State.rootLoad (s) (b))) := by
  subst hn
  refine Apart.trans hs ?_
  unfold State.rootLoad
  repeat' first
    | with_reducible exact Apart.refl _
    | with_reducible rfl
    | intro x
    | lift_lets -underBinder
    | with_reducible apply Apart.ite
    | with_reducible apply State.treeTake_apart
    | with_reducible apply State.updCom_apart

theorem execLoadBuf_apart {nd : Node} {u : State} {s : State} (hn : nd = .gd) (hs : Apart nd u s) : Apart nd u ((State.after (s) (execLoadBuf (s)))) := by
  subst hn
  refine Apart.trans hs ?_
  unfold execLoadBuf
  rw [State.after_next]
  repeat' first
    | with_reducible exact Apart.refl _
    | with_reducible rfl
    | with_reducible apply State.rootLoad_apart

theorem execTreeLoadCard_apart {nd : Node} {u : State} {data : List Byte} {s : State} (hn : nd = .gd) (hs : Apart nd u s) : Apart nd u ((State.after (s) (execTreeLoadCard (data) (s)))) := by
  subst hn
  refine Apart.trans hs ?_
  unfold execTreeLoadCard
  rw [State.after_next]
  repeat' first
    | with_reducible exact Apart.refl _
    | with_reducible rfl
    | with_reducible apply State.rootLoad_apart

end Sys2Proof.Machine
end

