-- ==== Sys2Proof/Laws/ApartMgmt.lean ====
section
/-! SUPPORT. Which part the operations of `Sys2Proof.Machine.Mgmt` act at, and whether they leave its time alone. -/

namespace Sys2Proof.Machine

open Sys2Proof

set_option linter.unusedVariables false

theorem State.mgmtPort_apart {nd : Node} {u : State} {s : State} {p k : Nat} {w : Word} (hn : nd = .gd) (hs : Apart nd u s) : Apart nd u ((State.mgmtPort (s) (p) (k) (w))) := by
  subst hn
  refine Apart.trans hs ?_
  unfold State.mgmtPort
  repeat' first
    | with_reducible exact Apart.refl _
    | with_reducible assumption
    | with_reducible rfl
    | (intro x; first | (refine Apart.use (x := x) ?_ (fun hx => ?_); rotate_left; clear_value x; rotate_right; subst x) | (have hf := funext (f := x) (g := x) (fun _ => rfl); clear hf; subst x) | (have hf : (x : LinkId) = x := rfl; clear hf; subst x) | skip)
    | lift_lets -underBinder
    | with_reducible apply Apart.ite
    | with_reducible apply Apart.step (execCntClear_quiet ?_ (Quiet.refl _))
    | with_reducible apply execGdPortRst_apart
    | with_reducible apply execPortEnWrite_apart
    | with_reducible apply execRateRetry_apart
    | with_reducible apply execRetrain_apart
    | with_reducible apply Apart.step (execRingBypassWrite_quiet ?_ (Quiet.refl _))

theorem State.mgmtOrder_apart {nd : Node} {u : State} {s : State} {off : Nat} {w : Word} (hn : nd = .gd) (hs : Apart nd u s) : Apart nd u ((State.mgmtOrder (s) (off) (w))) := by
  subst hn
  refine Apart.trans hs ?_
  unfold State.mgmtOrder
  repeat' first
    | with_reducible exact Apart.refl _
    | with_reducible assumption
    | with_reducible rfl
    | (intro x; first | (refine Apart.use (x := x) ?_ (fun hx => ?_); rotate_left; clear_value x; rotate_right; subst x) | (have hf := funext (f := x) (g := x) (fun _ => rfl); clear hf; subst x) | skip)
    | lift_lets -underBinder
    | with_reducible apply Apart.ite
    | with_reducible apply Apart.step (State.domainRst_quiet ?_ (Quiet.refl _))
    | with_reducible apply Apart.step (State.forceEntryWrite_quiet ?_ (Quiet.refl _))
    | with_reducible apply Apart.step (State.gdAbortGo_quiet ?_ (Quiet.refl _))
    | with_reducible apply State.gdOrderGo_apart
    | with_reducible apply State.mgmtPort_apart
    | with_reducible apply State.restep_apart
    | with_reducible apply Apart.step (State.rfOffsetWrite_quiet ?_ (Quiet.refl _))
    | with_reducible apply execChipRst_apart
    | with_reducible apply Apart.step (execDlatSnapshot_quiet ?_ (Quiet.refl _))
    | with_reducible apply Apart.step (execErrlogClear_quiet ?_ (Quiet.refl _))
    | with_reducible apply Apart.step (execErrlogPop_quiet ?_ (Quiet.refl _))
    | with_reducible apply Apart.step (execFuseBlow_quiet ?_ (Quiet.refl _))
    | with_reducible apply execFwActivate_apart
    | with_reducible apply Apart.step (execFwCommit_quiet ?_ (Quiet.refl _))
    | with_reducible apply execFwRevert_apart
    | with_reducible apply Apart.step (execHealthClear_quiet ?_ (Quiet.refl _))
    | with_reducible apply Apart.step (execJournalFreeze_quiet ?_ (Quiet.refl _))
    | with_reducible apply Apart.step (execJournalRead_quiet ?_ (Quiet.refl _))
    | with_reducible apply execLoadBuf_apart
    | with_reducible apply Apart.step (execOutRealign_quiet ?_ (Quiet.refl _))
    | with_reducible apply Apart.step (execOwnerLockWrite_quiet ?_ (Quiet.refl _))
    | with_reducible apply Apart.step (execPolicyCommit_quiet ?_ (Quiet.refl _))
    | with_reducible apply Apart.step (execPolicyLoad_quiet ?_ (Quiet.refl _))
    | with_reducible apply Apart.step (execSoftSnapshot_quiet ?_ (Quiet.refl _))
    | with_reducible apply Apart.step (execTreeWdataWrite_quiet ?_ (Quiet.refl _))
    | with_reducible apply State.updCom_apart
    | split

theorem State.mgmtWrite_apart {nd : Node} {u : State} {s : State} {off : Nat} {w : Word} (hn : nd = .gd) (hs : Apart nd u s) : Apart nd u ((State.mgmtWrite (s) (off) (w))) := by
  subst hn
  refine Apart.trans hs ?_
  unfold State.mgmtWrite
  repeat' first
    | with_reducible exact Apart.refl _
    | with_reducible rfl
    | with_reducible apply Apart.ite
    | with_reducible apply State.mgmtOrder_apart
    | with_reducible apply State.regWrite_apart
    | intro x

theorem State.mgmtAccess_apart {nd : Node} {u : State} {s : State} {off : Nat} {op : SpiOp} (hn : nd = .gd) (hs : Apart nd u s) : Apart nd u ((State.mgmtAccess (s) (off) (op))) := by
  subst hn
  refine Apart.trans hs ?_
  unfold State.mgmtAccess
  repeat' first
    | with_reducible exact Apart.refl _
    | with_reducible rfl
    | with_reducible apply State.mgmtWrite_apart
    | with_reducible apply Apart.step (State.regRead_quiet ?_ (Quiet.refl _))
    | split

theorem State.mgmtTransaction_apart {nd : Node} {u : State} {s : State} {off : Nat} {op : SpiOp} (hn : nd = .gd) (hs : Apart nd u s) : Apart nd u ((State.mgmtTransaction (s) (off) (op))) := by
  subst hn
  refine Apart.trans hs ?_
  unfold State.mgmtTransaction
  repeat' first
    | with_reducible exact Apart.refl _
    | with_reducible rfl
    | (intro x; (refine Apart.use (x := x) ?_ (fun hx => ?_); rotate_left; clear_value x; rotate_right; subst x))
    | lift_lets -underBinder
    | with_reducible apply State.mgmtAccess_apart
    | with_reducible apply State.updGd_apart
    | with_reducible apply State.updCom_apart

theorem execMgmtSpiTransaction_apart {nd : Node} {u : State} {offset : Nat} {op : SpiOp} {s : State} (hn : nd = .gd) (hs : Apart nd u s) : Apart nd u ((State.after (s) (execMgmtSpiTransaction (offset) (op) (s)))) := by
  subst hn
  refine Apart.trans hs ?_
  unfold execMgmtSpiTransaction
  rw [State.after_next]
  repeat' first
    | with_reducible exact Apart.refl _
    | with_reducible rfl
    | with_reducible apply State.mgmtTransaction_apart

end Sys2Proof.Machine
end

