-- ==== Sys2Proof/Laws/ApartRegions.lean ====
section
/-! SUPPORT. Which part the operations of `Sys2Proof.Machine.Regions` act at, and whether they leave its time alone. -/

namespace Sys2Proof.Machine

open Sys2Proof

set_option linter.unusedVariables false

theorem execTbusSyncSend_quiet {nd : Node} {u : State} {s : State} (hn : nd = .tsu) (hs : Quiet nd u s) : Quiet nd u ((State.after (s) (execTbusSyncSend (s)))) := by
  subst hn
  refine Quiet.trans hs ?_
  unfold execTbusSyncSend
  rw [State.after_next]
  repeat' first
    | with_reducible exact Quiet.refl _
    | with_reducible rfl
    | intro x
    | lift_lets -underBinder
    | with_reducible apply Quiet.ite
    | with_reducible apply State.updRegions_quiet
    | ((with_reducible apply State.updTsu_quiet); rotate_left; focus (intro t; rfl))

theorem State.repeaterSlip_quiet {nd : Node} {u : State} {s : State} {r : Nat} {count : Nat} (hn : nd = .tsu) (hs : Quiet nd u s) : Quiet nd u ((State.repeaterSlip (s) (r) (count))) := by
  subst hn
  refine Quiet.trans hs ?_
  unfold State.repeaterSlip
  repeat' first
    | with_reducible exact Quiet.refl _
    | with_reducible assumption
    | with_reducible rfl
    | (intro x; first | (refine Quiet.use (x := x) ?_ (fun hx => ?_); rotate_left; clear_value x; rotate_right; subst x) | clear_value x | skip)
    | lift_lets -underBinder
    | with_reducible apply Quiet.ite
    | with_reducible apply State.healthSend_quiet
    | with_reducible apply State.logT_quiet
    | with_reducible apply State.setEvt_quiet
    | with_reducible apply State.updRegion_quiet

theorem State.syncTaken_quiet {nd : Node} {u : State} {s : State} {r sync : Nat} (hn : nd = .tsu) (hs : Quiet nd u s) : Quiet nd u ((State.syncTaken (s) (r) (sync))) := by
  subst hn
  refine Quiet.trans hs ?_
  unfold State.syncTaken
  repeat' first
    | with_reducible exact Quiet.refl _
    | with_reducible assumption
    | with_reducible rfl
    | (intro x; first | (refine Quiet.use (x := x) ?_ (fun hx => ?_); rotate_left; clear_value x; rotate_right; subst x) | clear_value x | skip)
    | lift_lets -underBinder
    | with_reducible apply Quiet.ite
    | with_reducible apply State.busSend_quiet
    | with_reducible apply State.repeaterSlip_quiet
    | with_reducible apply State.updRegion_quiet

theorem State.repeaterSyncRx_quiet {nd : Node} {u : State} {s : State} {r : Nat} {noise : BitVec 128} (hn : nd = .tsu) (hs : Quiet nd u s) : Quiet nd u ((State.repeaterSyncRx (s) (r) (noise))) := by
  subst hn
  refine Quiet.trans hs ?_
  unfold State.repeaterSyncRx
  repeat' first
    | with_reducible exact Quiet.refl _
    | with_reducible assumption
    | with_reducible rfl
    | (intro x; first | (refine Quiet.use (x := x) ?_ (fun hx => ?_); rotate_left; clear_value x; rotate_right; subst x) | clear_value x | skip)
    | lift_lets -underBinder
    | with_reducible apply Quiet.ite
    | with_reducible apply State.syncTaken_quiet
    | with_reducible apply State.wordTaken_quiet
    | split

theorem execRepeaterSyncRx_quiet {nd : Node} {u : State} {r : Nat} {ns32 frac : BitVec 32} {rest : BitVec 64} {s : State} (hn : nd = .tsu) (hs : Quiet nd u s) : Quiet nd u ((State.after (s) (execRepeaterSyncRx (r) (ns32) (frac) (rest) (s)))) := by
  subst hn
  refine Quiet.trans hs ?_
  unfold execRepeaterSyncRx
  rw [State.after_next]
  repeat' first
    | with_reducible exact Quiet.refl _
    | with_reducible rfl
    | with_reducible apply State.repeaterSyncRx_quiet

theorem State.addendTaken_quiet {nd : Node} {u : State} {s : State} {r addend named : Nat} (hn : nd = .tsu) (hs : Quiet nd u s) : Quiet nd u ((State.addendTaken (s) (r) (addend) (named))) := by
  subst hn
  refine Quiet.trans hs ?_
  unfold State.addendTaken
  repeat' first
    | with_reducible exact Quiet.refl _
    | with_reducible assumption
    | with_reducible rfl
    | (intro x; first | (refine Quiet.use (x := x) ?_ (fun hx => ?_); rotate_left; clear_value x; rotate_right; subst x) | clear_value x | skip)
    | lift_lets -underBinder
    | with_reducible apply Quiet.ite
    | with_reducible apply State.updateLead_quiet
    | with_reducible apply State.updRegion_quiet

theorem State.repeaterAddendRx_quiet {nd : Node} {u : State} {s : State} {r : Nat} {noise : BitVec 128} (hn : nd = .tsu) (hs : Quiet nd u s) : Quiet nd u ((State.repeaterAddendRx (s) (r) (noise))) := by
  subst hn
  refine Quiet.trans hs ?_
  unfold State.repeaterAddendRx
  repeat' first
    | with_reducible exact Quiet.refl _
    | with_reducible assumption
    | with_reducible rfl
    | (intro x; first | (refine Quiet.use (x := x) ?_ (fun hx => ?_); rotate_left; clear_value x; rotate_right; subst x) | clear_value x | skip)
    | lift_lets -underBinder
    | with_reducible apply Quiet.ite
    | with_reducible apply State.addendTaken_quiet
    | with_reducible apply State.wordGood_quiet
    | with_reducible apply State.wordTaken_quiet
    | split

theorem execRepeaterAddendRx_quiet {nd : Node} {u : State} {r : Nat} {seq : BitVec 6} {addend : BitVec 36} {count : BitVec 64} {rest : BitVec 22} {s : State} (hn : nd = .tsu) (hs : Quiet nd u s) : Quiet nd u ((State.after (s) (execRepeaterAddendRx (r) (seq) (addend) (count) (rest) (s)))) := by
  subst hn
  refine Quiet.trans hs ?_
  unfold execRepeaterAddendRx
  rw [State.after_next]
  repeat' first
    | with_reducible exact Quiet.refl _
    | with_reducible rfl
    | with_reducible apply State.repeaterAddendRx_quiet

theorem State.launchAtTaken_quiet {nd : Node} {u : State} {s : State} {r t slot : Nat} {fence : Bool} (hn : nd = .tsu) (hs : Quiet nd u s) : Quiet nd u ((State.launchAtTaken (s) (r) (t) (slot) (fence))) := by
  subst hn
  refine Quiet.trans hs ?_
  unfold State.launchAtTaken
  repeat' first
    | with_reducible exact Quiet.refl _
    | with_reducible assumption
    | with_reducible rfl
    | (intro x; first | (refine Quiet.use (x := x) ?_ (fun hx => ?_); rotate_left; clear_value x; rotate_right; subst x) | clear_value x | skip)
    | lift_lets -underBinder
    | with_reducible apply Quiet.ite
    | with_reducible apply State.strobe_quiet
    | with_reducible apply State.updRegion_quiet

theorem State.repeaterLaunchAtRx_quiet {nd : Node} {u : State} {s : State} {r : Nat} {noise : BitVec 128} (hn : nd = .tsu) (hs : Quiet nd u s) : Quiet nd u ((State.repeaterLaunchAtRx (s) (r) (noise))) := by
  subst hn
  refine Quiet.trans hs ?_
  unfold State.repeaterLaunchAtRx
  repeat' first
    | with_reducible exact Quiet.refl _
    | with_reducible assumption
    | with_reducible rfl
    | (intro x; first | (refine Quiet.use (x := x) ?_ (fun hx => ?_); rotate_left; clear_value x; rotate_right; subst x) | clear_value x | skip)
    | lift_lets -underBinder
    | with_reducible apply Quiet.ite
    | with_reducible apply State.launchAtTaken_quiet
    | with_reducible apply State.wordGood_quiet
    | with_reducible apply State.wordTaken_quiet
    | split

theorem execRepeaterLaunchAtRx_quiet {nd : Node} {u : State} {r : Nat} {seq : BitVec 6} {t : BitVec 32} {frac : BitVec 16} {slot : BitVec 4} {fence : BitVec 1} {rest : BitVec 69} {s : State} (hn : nd = .tsu) (hs : Quiet nd u s) : Quiet nd u ((State.after (s) (execRepeaterLaunchAtRx (r) (seq) (t) (frac) (slot) (fence) (rest) (s)))) := by
  subst hn
  refine Quiet.trans hs ?_
  unfold execRepeaterLaunchAtRx
  rw [State.after_next]
  repeat' first
    | with_reducible exact Quiet.refl _
    | with_reducible rfl
    | with_reducible apply State.repeaterLaunchAtRx_quiet

theorem State.wakeCheck_quiet {nd : Node} {u : State} {s : State} {r : Nat} (hn : nd = .tsu) (hs : Quiet nd u s) : Quiet nd u ((State.wakeCheck (s) (r))) := by
  subst hn
  refine Quiet.trans hs ?_
  unfold State.wakeCheck
  repeat' first
    | with_reducible exact Quiet.refl _
    | with_reducible rfl
    | (intro x; clear_value x)
    | lift_lets -underBinder
    | with_reducible apply State.updRegion_quiet

theorem State.cancelTaken_quiet {nd : Node} {u : State} {s : State} {r slot t : Nat} (hn : nd = .tsu) (hs : Quiet nd u s) : Quiet nd u ((State.cancelTaken (s) (r) (slot) (t))) := by
  subst hn
  refine Quiet.trans hs ?_
  unfold State.cancelTaken
  repeat' first
    | with_reducible exact Quiet.refl _
    | with_reducible rfl
    | (intro x; first | clear_value x | skip)
    | lift_lets -underBinder
    | with_reducible apply Quiet.ite
    | with_reducible apply State.slotCancelled_quiet
    | with_reducible apply State.wakeCheck_quiet
    | with_reducible apply State.updRegion_quiet

theorem State.repeaterCancelRx_quiet {nd : Node} {u : State} {s : State} {r : Nat} {noise : BitVec 128} (hn : nd = .tsu) (hs : Quiet nd u s) : Quiet nd u ((State.repeaterCancelRx (s) (r) (noise))) := by
  subst hn
  refine Quiet.trans hs ?_
  unfold State.repeaterCancelRx
  repeat' first
    | with_reducible exact Quiet.refl _
    | with_reducible assumption
    | with_reducible rfl
    | (intro x; first | (refine Quiet.use (x := x) ?_ (fun hx => ?_); rotate_left; clear_value x; rotate_right; subst x) | clear_value x | skip)
    | lift_lets -underBinder
    | with_reducible apply Quiet.ite
    | with_reducible apply State.cancelTaken_quiet
    | with_reducible apply State.wordGood_quiet
    | with_reducible apply State.wordTaken_quiet
    | split

theorem execRepeaterCancelRx_quiet {nd : Node} {u : State} {r : Nat} {seq : BitVec 6} {slot : BitVec 4} {rest : BitVec 118} {s : State} (hn : nd = .tsu) (hs : Quiet nd u s) : Quiet nd u ((State.after (s) (execRepeaterCancelRx (r) (seq) (slot) (rest) (s)))) := by
  subst hn
  refine Quiet.trans hs ?_
  unfold execRepeaterCancelRx
  rw [State.after_next]
  repeat' first
    | with_reducible exact Quiet.refl _
    | with_reducible rfl
    | with_reducible apply State.repeaterCancelRx_quiet

theorem State.repeaterFchgAtRx_quiet {nd : Node} {u : State} {s : State} {r : Nat} {noise : BitVec 128} (hn : nd = .tsu) (hs : Quiet nd u s) : Quiet nd u ((State.repeaterFchgAtRx (s) (r) (noise))) := by
  subst hn
  refine Quiet.trans hs ?_
  unfold State.repeaterFchgAtRx
  repeat' first
    | with_reducible exact Quiet.refl _
    | with_reducible assumption
    | with_reducible rfl
    | (intro x; first | (refine Quiet.use (x := x) ?_ (fun hx => ?_); rotate_left; clear_value x; rotate_right; subst x) | clear_value x | skip)
    | lift_lets -underBinder
    | with_reducible apply Quiet.ite
    | with_reducible apply State.wordGood_quiet
    | with_reducible apply State.wordTaken_quiet
    | with_reducible apply State.updRegion_quiet
    | split

theorem execRepeaterFchgAtRx_quiet {nd : Node} {u : State} {r : Nat} {seq : BitVec 6} {tf : BitVec 32} {code : BitVec 8} {rest : BitVec 82} {s : State} (hn : nd = .tsu) (hs : Quiet nd u s) : Quiet nd u ((State.after (s) (execRepeaterFchgAtRx (r) (seq) (tf) (code) (rest) (s)))) := by
  subst hn
  refine Quiet.trans hs ?_
  unfold execRepeaterFchgAtRx
  rw [State.after_next]
  repeat' first
    | with_reducible exact Quiet.refl _
    | with_reducible rfl
    | with_reducible apply State.repeaterFchgAtRx_quiet

theorem State.repeaterCalRx_quiet {nd : Node} {u : State} {s : State} {r taps : Nat} {noise : BitVec 128} (hn : nd = .tsu) (hs : Quiet nd u s) : Quiet nd u ((State.repeaterCalRx (s) (r) (taps) (noise))) := by
  subst hn
  refine Quiet.trans hs ?_
  unfold State.repeaterCalRx
  repeat' first
    | with_reducible exact Quiet.refl _
    | with_reducible assumption
    | with_reducible rfl
    | (intro x; first | (refine Quiet.use (x := x) ?_ (fun hx => ?_); rotate_left; clear_value x; rotate_right; subst x) | clear_value x | skip)
    | lift_lets -underBinder
    | with_reducible apply Quiet.ite
    | with_reducible apply State.wordTaken_quiet
    | with_reducible apply State.updRegion_quiet
    | split

theorem execRepeaterCalRx_quiet {nd : Node} {u : State} {r roundTripTaps : Nat} {noise : BitVec 128} {s : State} (hn : nd = .tsu) (hs : Quiet nd u s) : Quiet nd u ((State.after (s) (execRepeaterCalRx (r) (roundTripTaps) (noise) (s)))) := by
  subst hn
  refine Quiet.trans hs ?_
  unfold execRepeaterCalRx
  rw [State.after_next]
  repeat' first
    | with_reducible exact Quiet.refl _
    | with_reducible rfl
    | with_reducible apply State.repeaterCalRx_quiet

theorem execTbusAckRx_quiet {nd : Node} {u : State} {r seq : Nat} {s : State} (hn : nd = .tsu) (hs : Quiet nd u s) : Quiet nd u ((State.after (s) (execTbusAckRx (r) (seq) (s)))) := by
  subst hn
  refine Quiet.trans hs ?_
  unfold execTbusAckRx
  rw [State.after_next]
  repeat' first
    | with_reducible exact Quiet.refl _
    | with_reducible rfl
    | with_reducible apply State.updRegion_quiet

theorem State.tbusResend_quiet {nd : Node} {u : State} {s : State} {r seq : Nat} (hn : nd = .tsu) (hs : Quiet nd u s) : Quiet nd u ((State.tbusResend (s) (r) (seq))) := by
  subst hn
  refine Quiet.trans hs ?_
  unfold State.tbusResend
  repeat' first
    | with_reducible exact Quiet.refl _
    | with_reducible rfl
    | (intro x; first | clear_value x | skip)
    | lift_lets -underBinder
    | with_reducible apply Quiet.ite
    | with_reducible apply State.updRegion_quiet
    | split

theorem execTbusResend_quiet {nd : Node} {u : State} {r seq : Nat} {s : State} (hn : nd = .tsu) (hs : Quiet nd u s) : Quiet nd u ((State.after (s) (execTbusResend (r) (seq) (s)))) := by
  subst hn
  refine Quiet.trans hs ?_
  unfold execTbusResend
  rw [State.after_next]
  repeat' first
    | with_reducible exact Quiet.refl _
    | with_reducible rfl
    | with_reducible apply State.tbusResend_quiet

theorem State.pmAnswer_quiet {nd : Node} {u : State} {s : State} {a : PmAnswer} (hn : nd = .tsu) (hs : Quiet nd u s) : Quiet nd u ((State.pmAnswer (s) (a))) := by
  subst hn
  refine Quiet.trans hs ?_
  unfold State.pmAnswer
  repeat' first
    | with_reducible exact Quiet.refl _
    | with_reducible rfl
    | ((with_reducible apply State.updTsu_quiet); rotate_left; focus (intro t; rfl))

theorem State.fchgNak_quiet {nd : Node} {u : State} {s : State} {reason : Nat} (hn : nd = .tsu) (hs : Quiet nd u s) : Quiet nd u ((State.fchgNak (s) (reason))) := by
  subst hn
  refine Quiet.trans hs ?_
  unfold State.fchgNak
  repeat' first
    | with_reducible exact Quiet.refl _
    | with_reducible assumption
    | with_reducible rfl
    | (intro x; (refine Quiet.use (x := x) ?_ (fun hx => ?_); rotate_left; clear_value x; rotate_right; subst x))
    | lift_lets -underBinder
    | with_reducible apply State.logT_quiet
    | with_reducible apply State.pmAnswer_quiet
    | with_reducible apply State.setEvt_quiet
    | ((with_reducible apply State.updTsu_quiet); rotate_left; focus (intro t; rfl))

theorem State.wordOver_quiet {nd : Node} {u : State} {s : State} {r seq : Nat} (hn : nd = .tsu) (hs : Quiet nd u s) : Quiet nd u ((State.wordOver (s) (r) (seq))) := by
  subst hn
  refine Quiet.trans hs ?_
  unfold State.wordOver
  repeat' first
    | with_reducible exact Quiet.refl _
    | with_reducible rfl
    | with_reducible apply State.updRegion_quiet

theorem State.lostOutcome_quiet {nd : Node} {u : State} {s : State} {r : Nat} {w : BusWord} (hn : nd = .tsu) (hs : Quiet nd u s) : Quiet nd u ((State.lostOutcome (s) (r) (w))) := by
  subst hn
  refine Quiet.trans hs ?_
  unfold State.lostOutcome
  repeat' first
    | with_reducible exact Quiet.refl _
    | with_reducible rfl
    | intro x
    | lift_lets -underBinder
    | with_reducible apply Quiet.ite
    | with_reducible apply State.fchgNak_quiet
    | with_reducible apply State.slotCancelled_quiet
    | with_reducible apply State.slotLost_quiet
    | with_reducible apply State.wordOver_quiet
    | with_reducible apply State.updRegion_quiet
    | split

theorem State.tbusDeliveryLimit_quiet {nd : Node} {u : State} {s : State} {r seq : Nat} (hn : nd = .tsu) (hs : Quiet nd u s) : Quiet nd u ((State.tbusDeliveryLimit (s) (r) (seq))) := by
  subst hn
  refine Quiet.trans hs ?_
  unfold State.tbusDeliveryLimit
  repeat' first
    | with_reducible exact Quiet.refl _
    | with_reducible rfl
    | intro x
    | lift_lets -underBinder
    | with_reducible apply Quiet.ite
    | with_reducible apply State.logT_quiet
    | with_reducible apply State.lostOutcome_quiet
    | with_reducible apply State.updRegion_quiet
    | split

theorem execTbusDeliveryLimit_quiet {nd : Node} {u : State} {r seq : Nat} {s : State} (hn : nd = .tsu) (hs : Quiet nd u s) : Quiet nd u ((State.after (s) (execTbusDeliveryLimit (r) (seq) (s)))) := by
  subst hn
  refine Quiet.trans hs ?_
  unfold execTbusDeliveryLimit
  rw [State.after_next]
  repeat' first
    | with_reducible exact Quiet.refl _
    | with_reducible rfl
    | with_reducible apply State.tbusDeliveryLimit_quiet

theorem execRecal_quiet {nd : Node} {u : State} {s : State} (hn : nd = .tsu) (hs : Quiet nd u s) : Quiet nd u ((State.after (s) (execRecal (s)))) := by
  subst hn
  refine Quiet.trans hs ?_
  unfold execRecal
  rw [State.after_next]
  repeat' first
    | with_reducible exact Quiet.refl _
    | with_reducible rfl
    | with_reducible apply State.updRegions_quiet

theorem State.tbusCalDone_quiet {nd : Node} {u : State} {s : State} {r : Nat} (hn : nd = .tsu) (hs : Quiet nd u s) : Quiet nd u ((State.tbusCalDone (s) (r))) := by
  subst hn
  refine Quiet.trans hs ?_
  unfold State.tbusCalDone
  repeat' first
    | with_reducible exact Quiet.refl _
    | with_reducible assumption
    | with_reducible rfl
    | (intro x; first | (refine Quiet.use (x := x) ?_ (fun hx => ?_); rotate_left; clear_value x; rotate_right; subst x) | (have hf := funext (f := x) (g := x) (fun _ => rfl); clear hf; subst x) | clear_value x | skip)
    | lift_lets -underBinder
    | with_reducible apply Quiet.ite
    | with_reducible apply State.logT_quiet
    | with_reducible apply State.setEvt_quiet
    | with_reducible apply State.updateLead_quiet
    | with_reducible apply State.updRegion_quiet

theorem execTbusCalDone_quiet {nd : Node} {u : State} {r : Nat} {s : State} (hn : nd = .tsu) (hs : Quiet nd u s) : Quiet nd u ((State.after (s) (execTbusCalDone (r) (s)))) := by
  subst hn
  refine Quiet.trans hs ?_
  unfold execTbusCalDone
  rw [State.after_next]
  repeat' first
    | with_reducible exact Quiet.refl _
    | with_reducible rfl
    | with_reducible apply State.tbusCalDone_quiet

theorem State.bgRecal_quiet {nd : Node} {u : State} {s : State} (hn : nd = .tsu) (hs : Quiet nd u s) : Quiet nd u ((State.bgRecal (s))) := by
  subst hn
  refine Quiet.trans hs ?_
  unfold State.bgRecal
  repeat' first
    | with_reducible exact Quiet.refl _
    | with_reducible rfl
    | (intro x; first | clear_value x | skip)
    | lift_lets -underBinder
    | with_reducible apply Quiet.ite
    | with_reducible apply State.updRegions_quiet

theorem execBgRecal_quiet {nd : Node} {u : State} {s : State} (hn : nd = .tsu) (hs : Quiet nd u s) : Quiet nd u ((State.after (s) (execBgRecal (s)))) := by
  subst hn
  refine Quiet.trans hs ?_
  unfold execBgRecal
  rw [State.after_next]
  repeat' first
    | with_reducible exact Quiet.refl _
    | with_reducible rfl
    | with_reducible apply State.bgRecal_quiet

theorem State.regionWakeRaise_quiet {nd : Node} {u : State} {s : State} {r slot : Nat} (hn : nd = .tsu) (hs : Quiet nd u s) : Quiet nd u ((State.regionWakeRaise (s) (r) (slot))) := by
  subst hn
  refine Quiet.trans hs ?_
  unfold State.regionWakeRaise
  repeat' first
    | with_reducible exact Quiet.refl _
    | with_reducible rfl
    | (intro x; first | clear_value x | skip)
    | lift_lets -underBinder
    | with_reducible apply Quiet.ite
    | with_reducible apply State.updRegion_quiet
    | split

theorem execRegionWakeRaise_quiet {nd : Node} {u : State} {r slot : Nat} {s : State} (hn : nd = .tsu) (hs : Quiet nd u s) : Quiet nd u ((State.after (s) (execRegionWakeRaise (r) (slot) (s)))) := by
  subst hn
  refine Quiet.trans hs ?_
  unfold execRegionWakeRaise
  rw [State.after_next]
  repeat' first
    | with_reducible exact Quiet.refl _
    | with_reducible rfl
    | with_reducible apply State.regionWakeRaise_quiet

theorem State.strobeFire_quiet {nd : Node} {u : State} {s : State} {r slot : Nat} (hn : nd = .tsu) (hs : Quiet nd u s) : Quiet nd u ((State.strobeFire (s) (r) (slot))) := by
  subst hn
  refine Quiet.trans hs ?_
  unfold State.strobeFire
  repeat' first
    | with_reducible exact Quiet.refl _
    | with_reducible assumption
    | with_reducible rfl
    | (intro x; first | (refine Quiet.use (x := x) ?_ (fun hx => ?_); rotate_left; clear_value x; rotate_right; subst x) | clear_value x | skip)
    | lift_lets -underBinder
    | with_reducible apply Quiet.ite
    | with_reducible apply State.strobe_quiet
    | with_reducible apply State.wakeCheck_quiet
    | with_reducible apply State.updRegion_quiet
    | split

theorem execStrobeFire_quiet {nd : Node} {u : State} {r slot : Nat} {s : State} (hn : nd = .tsu) (hs : Quiet nd u s) : Quiet nd u ((State.after (s) (execStrobeFire (r) (slot) (s)))) := by
  subst hn
  refine Quiet.trans hs ?_
  unfold execStrobeFire
  rw [State.after_next]
  repeat' first
    | with_reducible exact Quiet.refl _
    | with_reducible rfl
    | with_reducible apply State.strobeFire_quiet

theorem State.pmFchgReq_quiet {nd : Node} {u : State} {s : State} {regions code : Byte} (hn : nd = .tsu) (hs : Quiet nd u s) : Quiet nd u ((State.pmFchgReq (s) (regions) (code))) := by
  subst hn
  refine Quiet.trans hs ?_
  unfold State.pmFchgReq
  repeat' first
    | with_reducible exact Quiet.refl _
    | with_reducible assumption
    | with_reducible rfl
    | (intro x; first | (refine Quiet.use (x := x) ?_ (fun hx => ?_); rotate_left; clear_value x; rotate_right; subst x) | clear_value x | skip)
    | lift_lets -underBinder
    | with_reducible apply Quiet.ite
    | with_reducible apply State.busSend_quiet
    | with_reducible apply State.fchgNak_quiet
    | with_reducible apply State.pmAnswer_quiet
    | ((with_reducible apply State.updTsu_quiet); rotate_left; focus (intro t; rfl))
    | with_reducible apply State.updRegion_quiet
    | with_reducible apply Quiet.foldl

theorem execPmFchgReq_quiet {nd : Node} {u : State} {regions code : Byte} {s : State} (hn : nd = .tsu) (hs : Quiet nd u s) : Quiet nd u ((State.after (s) (execPmFchgReq (regions) (code) (s)))) := by
  subst hn
  refine Quiet.trans hs ?_
  unfold execPmFchgReq
  rw [State.after_next]
  repeat' first
    | with_reducible exact Quiet.refl _
    | with_reducible rfl
    | with_reducible apply State.pmFchgReq_quiet

theorem State.rgSwitch_quiet {nd : Node} {u : State} {s : State} {r : Nat} (hn : nd = .tsu) (hs : Quiet nd u s) : Quiet nd u ((State.rgSwitch (s) (r))) := by
  subst hn
  refine Quiet.trans hs ?_
  unfold State.rgSwitch
  repeat' first
    | with_reducible exact Quiet.refl _
    | with_reducible rfl
    | (intro x; first | clear_value x | skip)
    | lift_lets -underBinder
    | with_reducible apply Quiet.ite
    | with_reducible apply State.updRegion_quiet
    | split

theorem execRgSwitch_quiet {nd : Node} {u : State} {r : Nat} {s : State} (hn : nd = .tsu) (hs : Quiet nd u s) : Quiet nd u ((State.after (s) (execRgSwitch (r) (s)))) := by
  subst hn
  refine Quiet.trans hs ?_
  unfold execRgSwitch
  rw [State.after_next]
  repeat' first
    | with_reducible exact Quiet.refl _
    | with_reducible rfl
    | with_reducible apply State.rgSwitch_quiet

theorem execRegionRateWindow_quiet {nd : Node} {u : State} {r edges maxPeriod : Nat} {running : Bool} {s : State} (hn : nd = .tsu) (hs : Quiet nd u s) : Quiet nd u ((State.after (s) (execRegionRateWindow (r) (edges) (maxPeriod) (running) (s)))) := by
  subst hn
  refine Quiet.trans hs ?_
  unfold execRegionRateWindow
  rw [State.after_next]
  repeat' first
    | with_reducible exact Quiet.refl _
    | with_reducible rfl
    | with_reducible apply State.updRegion_quiet

theorem execLpFenceDone_quiet {nd : Node} {u : State} {port : Nat} {s : State} (hn : nd = .tsu) (hs : Quiet nd u s) : Quiet nd u ((State.after (s) (execLpFenceDone (port) (s)))) := by
  subst hn
  refine Quiet.trans hs ?_
  unfold execLpFenceDone
  rw [State.after_next]
  repeat' first
    | with_reducible exact Quiet.refl _
    | with_reducible rfl
    | with_reducible apply State.fenceTaken_quiet

theorem execFenceHung_quiet {nd : Node} {u : State} {port : Nat} {s : State} (hn : nd = .tsu) (hs : Quiet nd u s) : Quiet nd u ((State.after (s) (execFenceHung (port) (s)))) := by
  subst hn
  refine Quiet.trans hs ?_
  unfold execFenceHung
  rw [State.after_next]
  repeat' first
    | with_reducible exact Quiet.refl _
    | with_reducible rfl
    | with_reducible apply State.fenceTaken_quiet

theorem State.regionRst_quiet {nd : Node} {u : State} {s : State} {r : Nat} (hn : nd = .tsu) (hs : Quiet nd u s) : Quiet nd u ((State.regionRst (s) (r))) := by
  subst hn
  refine Quiet.trans hs ?_
  unfold State.regionRst
  repeat' first
    | with_reducible exact Quiet.refl _
    | with_reducible assumption
    | with_reducible rfl
    | (intro x; first | (refine Quiet.use (x := x) ?_ (fun hx => ?_); rotate_left; clear_value x; rotate_right; subst x) | clear_value x | skip)
    | lift_lets -underBinder
    | with_reducible apply Quiet.ite
    | with_reducible apply State.fchgNak_quiet
    | with_reducible apply State.portReset_quiet
    | with_reducible apply State.setReg_quiet
    | with_reducible apply State.slotLost_quiet
    | ((with_reducible apply State.updCom_quiet); rotate_left; focus (intro t; rfl))
    | with_reducible apply State.updRegion_quiet
    | with_reducible apply Quiet.foldl

theorem execRegionRst_quiet {nd : Node} {u : State} {r : Nat} {s : State} (hn : nd = .tsu) (hs : Quiet nd u s) : Quiet nd u ((State.after (s) (execRegionRst (r) (s)))) := by
  subst hn
  refine Quiet.trans hs ?_
  unfold execRegionRst
  rw [State.after_next]
  repeat' first
    | with_reducible exact Quiet.refl _
    | with_reducible rfl
    | with_reducible apply State.regionRst_quiet

end Sys2Proof.Machine
end

