-- ==== Sys2Proof/Laws/ApartSides.lean ====
section
/-! SUPPORT. Which part the operations of `Sys2Proof.Machine.Sides` act at, and whether they leave its time alone. -/

namespace Sys2Proof.Machine

open Sys2Proof

set_option linter.unusedVariables false

theorem State.sideSend_quiet {nd : Node} {u : State} {s : State} {i : Nat} {sideB : Bool} {f : Frame} (hn : nd = .gd) (hs : Quiet nd u s) : Quiet nd u ((State.sideSend (s) (i) (sideB) (f))) := by
  subst hn
  refine Quiet.trans hs ?_
  unfold State.sideSend
  repeat' first
    | with_reducible exact Quiet.refl _
    | with_reducible assumption
    | with_reducible rfl
    | (intro x; first | (refine Quiet.use (x := x) ?_ (fun hx => ?_); rotate_left; clear_value x; rotate_right; subst x) | clear_value x | skip)
    | lift_lets -underBinder
    | with_reducible apply Quiet.ite
    | with_reducible apply State.send_quiet
    | split

theorem State.childTaken_quiet {nd : Node} {u : State} {s : State} {i : Nat} {sideB : Bool} (hn : nd = .gd) (hs : Quiet nd u s) : Quiet nd u ((State.childTaken (s) (i) (sideB))) := by
  subst hn
  refine Quiet.trans hs ?_
  unfold State.childTaken
  repeat' first
    | with_reducible exact Quiet.refl _
    | with_reducible rfl
    | lift_lets -underBinder
    | with_reducible apply State.unhold_quiet
    | ((with_reducible apply State.updGd_quiet); rotate_left; focus (intro t; rfl))

theorem execSideWaitExpiry_quiet {nd : Node} {u : State} {child : Nat} {s : State} (hn : nd = .gd) (hs : Quiet nd u s) : Quiet nd u ((State.after (s) (execSideWaitExpiry (child) (s)))) := by
  subst hn
  refine Quiet.trans hs ?_
  unfold execSideWaitExpiry
  rw [State.after_next]
  repeat' first
    | with_reducible exact Quiet.refl _
    | with_reducible rfl
    | with_reducible apply Quiet.ite
    | with_reducible apply State.childTaken_quiet
    | with_reducible apply State.sideSend_quiet
    | split
    | intro x

theorem State.sideRx_apart {nd : Node} {u s : State} {l : LinkId} {rx : Rx} {op : Nat} {mine : State → Frame → State}
    {child : State → Nat → Bool → Frame → State} (k_mine : ∀ x f, l.node = .gd → Apart nd x (mine x f))
    (k_child : ∀ x i b f, l.node = .gd → Apart nd x (child x i b f)) (h_l : l.node = nd) (hs : Apart nd u s) :
    Apart nd u (s.sideRx l rx op mine child) := by
  unfold State.sideRx
  split
  · exact hs
  · rename_i hl
    have hg : l.node = .gd := by cases h : l.node <;> simp_all
    have hn : nd = .gd := h_l.symm.trans hg
    have h := State.recvOp_apart (l := l) (rx := rx) (type := 0x1A) (op := op) h_l hs
    revert h
    generalize s.recvOp l rx 0x1A op = p
    intro h
    obtain ⟨x, _ | f⟩ := p
    · exact h
    · simp only []
      refine Apart.ite (fun _ => h) (fun _ => Apart.ite (fun _ => Apart.ite (fun _ => h.trans (k_mine _ _ hg)) (fun _ => h)) (fun _ =>
        Apart.ite (fun _ => ?_) (fun _ => Apart.step (State.malformed_quiet h_l (.refl _)) h)))
      split
      · exact Apart.ite (fun _ => Apart.step (State.send_quiet hn.symm (.refl _)) (h.trans (k_child _ _ _ _ hg))) (fun _ => h.trans (k_child _ _ _ _ hg))
      · exact h

theorem State.sideTaken_quiet {nd : Node} {u : State} {s : State} (hn : nd = .gd) (hs : Quiet nd u s) : Quiet nd u ((State.sideTaken (s))) := by
  subst hn
  refine Quiet.trans hs ?_
  unfold State.sideTaken
  repeat' first
    | with_reducible exact Quiet.refl _
    | with_reducible assumption
    | with_reducible rfl
    | (intro x; (refine Quiet.use (x := x) ?_ (fun hx => ?_); rotate_left; clear_value x; rotate_right; subst x))
    | lift_lets -underBinder
    | with_reducible apply State.fullCensus_quiet
    | with_reducible apply State.logG_quiet
    | ((with_reducible apply State.updGd_quiet); rotate_left; focus (intro t; rfl))

theorem execSideTakeRx_apart {nd : Node} {u : State} {l : LinkId} {rx : Rx} {s : State} (h_l : l.node = nd) (hs : Apart nd u s) : Apart nd u ((State.after (s) (execSideTakeRx (l) (rx) (s)))) := by
  refine Apart.trans hs ?_
  unfold execSideTakeRx
  rw [State.after_next]
  repeat' first
    | with_reducible exact Apart.refl _
    | with_reducible assumption
    | (with_reducible refine (?_ : (_ : Node) = _); first | rfl | assumption | (simp_all only []; done) | (simp_all; done) | (cases nd <;> simp_all; done))
    | intro x
    | lift_lets -underBinder
    | with_reducible apply Apart.step (State.childTaken_quiet ?_ (Quiet.refl _))
    | with_reducible apply Apart.step (State.cutThrough_quiet ?_ (Quiet.refl _))
    | with_reducible apply State.sideRx_apart
    | with_reducible apply Apart.step (State.sideTaken_quiet ?_ (Quiet.refl _))

theorem State.sideReturnDue_quiet {nd : Node} {u : State} {s : State} {i : Nat} (hn : nd = .gd) (hs : Quiet nd u s) : Quiet nd u ((State.sideReturnDue (s) (i))) := by
  subst hn
  refine Quiet.trans hs ?_
  unfold State.sideReturnDue
  repeat' first
    | with_reducible exact Quiet.refl _
    | with_reducible assumption
    | with_reducible rfl
    | (intro x; first | (refine Quiet.use (x := x) ?_ (fun hx => ?_); rotate_left; clear_value x; rotate_right; subst x) | clear_value x | skip)
    | lift_lets -underBinder
    | with_reducible apply Quiet.ite
    | with_reducible apply State.sideSend_quiet
    | with_reducible apply State.unhold_quiet
    | ((with_reducible apply State.updGd_quiet); rotate_left; focus (intro t; rfl))
    | split

theorem execSideReturnDue_quiet {nd : Node} {u : State} {child : Nat} {s : State} (hn : nd = .gd) (hs : Quiet nd u s) : Quiet nd u ((State.after (s) (execSideReturnDue (child) (s)))) := by
  subst hn
  refine Quiet.trans hs ?_
  unfold execSideReturnDue
  rw [State.after_next]
  repeat' first
    | with_reducible exact Quiet.refl _
    | with_reducible rfl
    | with_reducible apply State.sideReturnDue_quiet

theorem execSideReturnRx_apart {nd : Node} {u : State} {l : LinkId} {rx : Rx} {s : State} (h_l : l.node = nd) (hs : Apart nd u s) : Apart nd u ((State.after (s) (execSideReturnRx (l) (rx) (s)))) := by
  refine Apart.trans hs ?_
  unfold execSideReturnRx
  rw [State.after_next]
  repeat' first
    | with_reducible exact Apart.refl _
    | with_reducible assumption
    | (with_reducible refine (?_ : (_ : Node) = _); first | rfl | assumption | (simp_all only []; done) | (simp_all; done) | (cases nd <;> simp_all; done))
    | intro x
    | lift_lets -underBinder
    | with_reducible apply Apart.ite
    | with_reducible apply Apart.step (State.cutThrough_quiet ?_ (Quiet.refl _))
    | with_reducible apply State.sideRx_apart
    | with_reducible apply State.updGd_apart

end Sys2Proof.Machine
end

