-- ==== Sys2Proof/Laws/ApartStarts.lean ====
section
/-! SUPPORT. Which part the operations of `Sys2Proof.Machine.Starts` act at, and whether they leave its time alone. -/

namespace Sys2Proof.Machine

open Sys2Proof

set_option linter.unusedVariables false

theorem State.ctlDown_quiet {nd : Node} {u : State} {s : State} {l : LinkId} {f : Frame} (h_l : l.node = nd) (hn : nd = .gd) (hs : Quiet nd u s) : Quiet nd u ((State.ctlDown (s) (l) (f)).1) := by
  subst hn
  refine Quiet.trans hs ?_
  unfold State.ctlDown
  repeat' first
    | with_reducible exact Quiet.refl _
    | with_reducible assumption
    | with_reducible rfl
    | with_reducible apply State.logG_quiet
    | with_reducible apply State.malformed_quiet
    | split

theorem State.teardownTsu_quiet {nd : Node} {u : State} {s : State} {lane : Nat} {tag : BitVec 24} (hn : nd = .tsu) (hs : Quiet nd u s) : Quiet nd u ((State.teardownTsu (s) (lane) (tag))) := by
  subst hn
  refine Quiet.trans hs ?_
  unfold State.teardownTsu
  repeat' first
    | with_reducible exact Quiet.refl _
    | with_reducible rfl
    | intro x
    | lift_lets -underBinder
    | with_reducible apply Quiet.ite
    | with_reducible apply State.logT_quiet
    | with_reducible apply State.tsuTear_quiet
    | ((with_reducible apply State.updTsu_quiet); rotate_left; focus (intro t; rfl))
    | split

theorem execTeardownRx_apart {nd : Node} {u : State} {l : LinkId} {rx : Rx} {s : State} (h_l : l.node = nd) (hs : Apart nd u s) : Apart nd u ((State.after (s) (execTeardownRx (l) (rx) (s)))) := by
  refine Apart.trans hs ?_
  unfold execTeardownRx
  rw [State.after_next]
  repeat' first
    | with_reducible exact Apart.refl _
    | with_reducible assumption
    | (with_reducible refine (?_ : (_ : Node) = _); first | rfl | assumption | (simp_all only []; done) | (simp_all; done) | (cases nd <;> simp_all; done))
    | lift_lets -underBinder
    | with_reducible apply Apart.step (State.ctlDown_quiet ?_ ?_ (Quiet.refl _))
    | with_reducible apply Apart.step (State.cutThrough_quiet ?_ (Quiet.refl _))
    | with_reducible apply State.recvOp_apart
    | with_reducible apply Apart.step (State.tearDom_quiet ?_ (Quiet.refl _))
    | with_reducible apply Apart.step (State.teardownTsu_quiet ?_ (Quiet.refl _))
    | with_reducible apply Apart.step (State.updDom_quiet ?_ (Quiet.refl _))
    | split
    | with_reducible refine Apart.ofPair (by with_reducible assumption) ?_

theorem State.tornSend_quiet {nd : Node} {u : State} {s : State} {tag : BitVec 24} (hn : nd = .tsu) (hs : Quiet nd u s) : Quiet nd u ((State.tornSend (s) (tag))) := by
  subst hn
  refine Quiet.trans hs ?_
  unfold State.tornSend
  repeat' first
    | with_reducible exact Quiet.refl _
    | with_reducible rfl
    | intro x
    | lift_lets -underBinder
    | with_reducible apply Quiet.ite
    | with_reducible apply State.tsuUp_quiet
    | ((with_reducible apply State.updTsu_quiet); rotate_left; focus (intro t; rfl))
    | split

theorem execTornSend_quiet {nd : Node} {u : State} {tag : BitVec 24} {s : State} (hn : nd = .tsu) (hs : Quiet nd u s) : Quiet nd u ((State.after (s) (execTornSend (tag) (s)))) := by
  subst hn
  refine Quiet.trans hs ?_
  unfold execTornSend
  rw [State.after_next]
  repeat' first
    | with_reducible exact Quiet.refl _
    | with_reducible rfl
    | with_reducible apply State.tornSend_quiet

theorem State.domRelease_quiet {nd : Node} {u : State} {s : State} {d : GdDom} {only : Bool} (hn : nd = .gd) (hs : Quiet nd u s) : Quiet nd u ((State.domRelease (s) (d) (only))) := by
  subst hn
  refine Quiet.trans hs ?_
  unfold State.domRelease
  repeat' first
    | with_reducible exact Quiet.refl _
    | with_reducible rfl
    | with_reducible apply State.domDown_quiet
    | with_reducible apply State.freeDom_quiet

theorem State.tornCheck_quiet {nd : Node} {u : State} {s : State} {tag : BitVec 24} {expired : Bool} (hn : nd = .gd) (hs : Quiet nd u s) : Quiet nd u ((State.tornCheck (s) (tag) (expired))) := by
  subst hn
  refine Quiet.trans hs ?_
  unfold State.tornCheck
  repeat' first
    | with_reducible exact Quiet.refl _
    | with_reducible assumption
    | with_reducible rfl
    | (intro x; first | (refine Quiet.use (x := x) ?_ (fun hx => ?_); rotate_left; clear_value x; rotate_right; subst x) | clear_value x | skip)
    | lift_lets -underBinder
    | with_reducible apply Quiet.ite
    | with_reducible apply State.domRelease_quiet
    | with_reducible apply State.gdUp_quiet
    | with_reducible apply State.updDom_quiet
    | split

theorem State.tornRx_quiet {nd : Node} {u : State} {s : State} {l : LinkId} {f : Frame} (h_l : l.node = nd) (hn : nd = .gd) (hs : Quiet nd u s) : Quiet nd u ((State.tornRx (s) (l) (f))) := by
  subst hn
  refine Quiet.trans hs ?_
  unfold State.tornRx
  repeat' first
    | with_reducible exact Quiet.refl _
    | with_reducible assumption
    | with_reducible rfl
    | intro x
    | lift_lets -underBinder
    | with_reducible apply Quiet.ite
    | with_reducible apply State.logG_quiet
    | with_reducible apply State.tornCheck_quiet
    | with_reducible apply State.upPart_quiet
    | with_reducible apply State.updDom_quiet
    | split
    | with_reducible refine Quiet.ofPair (by with_reducible assumption) ?_

theorem execTornRx_apart {nd : Node} {u : State} {l : LinkId} {rx : Rx} {s : State} (h_l : l.node = nd) (hs : Apart nd u s) : Apart nd u ((State.after (s) (execTornRx (l) (rx) (s)))) := by
  refine Apart.trans hs ?_
  unfold execTornRx
  rw [State.after_next]
  repeat' first
    | with_reducible exact Apart.refl _
    | with_reducible assumption
    | (with_reducible refine (?_ : (_ : Node) = _); first | rfl | assumption | (simp_all only []; done) | (simp_all; done) | (cases nd <;> simp_all; done))
    | with_reducible apply Apart.ite
    | with_reducible apply Apart.step (State.cutThrough_quiet ?_ (Quiet.refl _))
    | with_reducible apply State.recvOp_apart
    | with_reducible apply Apart.step (State.tornRx_quiet ?_ ?_ (Quiet.refl _))
    | split
    | with_reducible refine Apart.ofPair (by with_reducible assumption) ?_
    | intro x

theorem execTornWaitExpiry_quiet {nd : Node} {u : State} {tag : BitVec 24} {s : State} (hn : nd = .gd) (hs : Quiet nd u s) : Quiet nd u ((State.after (s) (execTornWaitExpiry (tag) (s)))) := by
  subst hn
  refine Quiet.trans hs ?_
  unfold execTornWaitExpiry
  rw [State.after_next]
  repeat' first
    | with_reducible exact Quiet.refl _
    | with_reducible rfl
    | with_reducible apply State.tornCheck_quiet

theorem execDomainReleaseRx_apart {nd : Node} {u : State} {l : LinkId} {rx : Rx} {s : State} (h_l : l.node = nd) (hs : Apart nd u s) : Apart nd u ((State.after (s) (execDomainReleaseRx (l) (rx) (s)))) := by
  refine Apart.trans hs ?_
  unfold execDomainReleaseRx
  rw [State.after_next]
  repeat' first
    | with_reducible exact Apart.refl _
    | with_reducible assumption
    | (with_reducible refine (?_ : (_ : Node) = _); first | rfl | assumption | (simp_all only []; done) | (simp_all; done) | (cases nd <;> simp_all; done))
    | lift_lets -underBinder
    | with_reducible apply Apart.step (State.ctlDown_quiet ?_ ?_ (Quiet.refl _))
    | with_reducible apply Apart.step (State.cutThrough_quiet ?_ (Quiet.refl _))
    | with_reducible apply Apart.step (State.domRelease_quiet ?_ (Quiet.refl _))
    | with_reducible apply Apart.step (State.freeDom_quiet ?_ (Quiet.refl _))
    | with_reducible apply State.recvOp_apart
    | with_reducible apply State.updTsu_apart
    | split
    | with_reducible refine Apart.ofPair (by with_reducible assumption) ?_

theorem execDomainReadyRx_apart {nd : Node} {u : State} {l : LinkId} {rx : Rx} {s : State} (h_l : l.node = nd) (hs : Apart nd u s) : Apart nd u ((State.after (s) (execDomainReadyRx (l) (rx) (s)))) := by
  refine Apart.trans hs ?_
  unfold execDomainReadyRx
  rw [State.after_next]
  repeat' first
    | with_reducible exact Apart.refl _
    | with_reducible assumption
    | (with_reducible refine (?_ : (_ : Node) = _); first | rfl | assumption | (simp_all only []; done) | (simp_all; done) | (cases nd <;> simp_all; done))
    | intro x
    | lift_lets -underBinder
    | with_reducible apply Apart.ite
    | with_reducible apply Apart.step (State.cutThrough_quiet ?_ (Quiet.refl _))
    | with_reducible apply Apart.step (State.logG_quiet ?_ (Quiet.refl _))
    | with_reducible apply Apart.step (State.readyCheck_quiet ?_ (Quiet.refl _))
    | with_reducible apply State.recvOp_apart
    | with_reducible apply Apart.step (State.upPart_quiet ?_ ?_ (Quiet.refl _))
    | with_reducible apply Apart.step (State.updDom_quiet ?_ (Quiet.refl _))
    | split
    | with_reducible refine Apart.ofPair (by with_reducible assumption) ?_

theorem State.openTsu_quiet {nd : Node} {u : State} {s : State} {tag : BitVec 24} (hn : nd = .tsu) (hs : Quiet nd u s) : Quiet nd u ((State.openTsu (s) (tag))) := by
  subst hn
  refine Quiet.trans hs ?_
  unfold State.openTsu
  repeat' first
    | with_reducible exact Quiet.refl _
    | with_reducible assumption
    | with_reducible rfl
    | (intro x; first | (refine Quiet.use (x := x) ?_ (fun hx => ?_); rotate_left; clear_value x; rotate_right; subst x) | clear_value x | skip)
    | lift_lets -underBinder
    | with_reducible apply Quiet.ite
    | with_reducible apply State.emptyOpens_quiet
    | with_reducible apply State.updBinding_quiet
    | with_reducible apply State.updTumb_quiet
    | ((with_reducible apply State.updTsu_quiet); rotate_left; focus (intro t; rfl))
    | with_reducible apply Quiet.foldl
    | split

theorem execDomainOpenRx_apart {nd : Node} {u : State} {l : LinkId} {rx : Rx} {s : State} (h_l : l.node = nd) (hs : Apart nd u s) : Apart nd u ((State.after (s) (execDomainOpenRx (l) (rx) (s)))) := by
  refine Apart.trans hs ?_
  unfold execDomainOpenRx
  rw [State.after_next]
  repeat' first
    | with_reducible exact Apart.refl _
    | with_reducible assumption
    | (with_reducible refine (?_ : (_ : Node) = _); first | rfl | assumption | (simp_all only []; done) | (simp_all; done) | (cases nd <;> simp_all; done))
    | intro x
    | lift_lets -underBinder
    | with_reducible apply Apart.ite
    | with_reducible apply Apart.step (State.ctlDown_quiet ?_ ?_ (Quiet.refl _))
    | with_reducible apply Apart.step (State.cutThrough_quiet ?_ (Quiet.refl _))
    | with_reducible apply Apart.step (State.domDown_quiet ?_ (Quiet.refl _))
    | with_reducible apply Apart.step (State.logT_quiet ?_ (Quiet.refl _))
    | with_reducible apply Apart.step (State.openTsu_quiet ?_ (Quiet.refl _))
    | with_reducible apply State.recvOp_apart
    | with_reducible apply Apart.step (State.updDom_quiet ?_ (Quiet.refl _))
    | split
    | with_reducible refine Apart.ofPair (by with_reducible assumption) ?_

theorem execDomainReserve_quiet {nd : Node} {u : State} {tag : BitVec 24} {s : State} (hn : nd = .gd) (hs : Quiet nd u s) : Quiet nd u ((State.after (s) (execDomainReserve (tag) (s)))) := by
  subst hn
  refine Quiet.trans hs ?_
  unfold execDomainReserve
  rw [State.after_next]
  repeat' first
    | with_reducible exact Quiet.refl _
    | with_reducible rfl
    | with_reducible apply State.reserveDom_quiet

end Sys2Proof.Machine
end

