-- ==== Sys2Proof/Laws/FrameOps.lean ====
section
/-! SUPPORT. What the operations of `Sys2Proof.Machine.Ops` leave alone, one lemma per operation. -/

namespace Sys2Proof.Machine

open Sys2Proof

set_option linter.unusedVariables false

end Sys2Proof.Machine
end

