-- ==== Sys2Proof/Laws/FrameFlags.lean ====
section
/-! SUPPORT. What the operations of `Sys2Proof.Machine.Flags` leave alone, one lemma per operation. -/

namespace Sys2Proof.Machine

open Sys2Proof

set_option linter.unusedVariables false

theorem State.logT_keeps {u : State} {s : State} {code : ErrCode} {source : Nat} {detail : Nat} {slice : Option Nat} (hs : Keeps u s) : Keeps u ((State.logT (s) (code) (source) (detail) (slice))) := by
  refine Keeps.trans hs ?_
  unfold State.logT
  repeat' first
    | with_reducible exact Keeps.refl _
    | with_reducible assumption
    | (intro x; (refine Keeps.use (x := x) ?_ (fun hx => ?_); rotate_left; clear_value x; rotate_right; subst x))
    | lift_lets -underBinder
    | ((with_reducible apply State.updTsu_keeps); focus (intro t; exact ⟨⟨rfl, fun h => h⟩, rfl⟩))
    | ((with_reducible apply State.updCom_keeps); focus (intro t; first | exact ⟨rfl, fun h => h⟩ | exact Common.record_steady ..))
    | split

theorem State.logRaw_keeps {u : State} {s : State} {code source detail : Nat} (hs : Keeps u s) : Keeps u ((State.logRaw (s) (code) (source) (detail))) := by
  refine Keeps.trans hs ?_
  unfold State.logRaw
  repeat' first
    | with_reducible exact Keeps.refl _
    | with_reducible assumption
    | (intro x; (refine Keeps.use (x := x) ?_ (fun hx => ?_); rotate_left; clear_value x; rotate_right; subst x))
    | lift_lets -underBinder
    | ((with_reducible apply State.updGd_keeps); focus (intro t; exact Gd.journalWrite_steady ..))
    | ((with_reducible apply State.updCom_keeps); focus (intro t; exact Common.record_steady ..))

theorem State.logG_keeps {u : State} {s : State} {code : ErrCode} {source : Nat} {detail : Nat} (hs : Keeps u s) : Keeps u ((State.logG (s) (code) (source) (detail))) := by
  refine Keeps.trans hs ?_
  unfold State.logG
  repeat' first
    | with_reducible exact Keeps.refl _
    | with_reducible assumption
    | (intro x; (refine Keeps.use (x := x) ?_ (fun hx => ?_); rotate_left; clear_value x; rotate_right; subst x))
    | lift_lets -underBinder
    | with_reducible apply State.logRaw_keeps
    | ((with_reducible apply State.updCom_keeps); focus (intro t; exact ⟨rfl, fun h => h⟩))
    | split

theorem State.log_keeps {u : State} {s : State} {n : Node} {code : ErrCode} {source : Nat} {detail : Nat} (hs : Keeps u s) : Keeps u ((State.log (s) (n) (code) (source) (detail))) := by
  refine Keeps.trans hs ?_
  unfold State.log
  repeat' first
    | with_reducible exact Keeps.refl _
    | with_reducible apply State.logG_keeps
    | with_reducible apply State.logT_keeps
    | split

theorem State.cycleEnd_keeps {u : State} {s : State} {n : Node} (hs : Keeps u s) : Keeps u ((State.cycleEnd (s) (n))) := by
  refine Keeps.trans hs ?_
  unfold State.cycleEnd
  repeat' first
    | with_reducible exact Keeps.refl _
    | ((with_reducible apply State.updCom_keeps); focus (intro t; exact ⟨rfl, fun h => h⟩))

theorem State.setEvt_keeps {u : State} {s : State} {n : Node} {off : Nat} {mask : Word} (hs : Keeps u s) : Keeps u ((State.setEvt (s) (n) (off) (mask))) := by
  refine Keeps.trans hs ?_
  unfold State.setEvt
  repeat' first
    | with_reducible exact Keeps.refl _
    | ((with_reducible apply State.updCom_keeps); focus (intro t; exact ⟨rfl, fun h => h⟩))

theorem State.custodyRefused_keeps {u : State} {s : State} {off : Nat} (hs : Keeps u s) : Keeps u ((State.custodyRefused (s) (off))) := by
  refine Keeps.trans hs ?_
  unfold State.custodyRefused
  repeat' first
    | with_reducible exact Keeps.refl _
    | lift_lets -underBinder
    | with_reducible apply State.logG_keeps
    | ((with_reducible apply State.updCom_keeps); focus (intro t; exact Common.accessErr_steady ..))

theorem State.noteWrite_keeps {u s : State} {acc : Access} {off : Nat} (hs : Keeps u s) : Keeps u (s.noteWrite acc off) := by
  unfold State.noteWrite
  refine State.updCom_keeps (fun c => ?_) hs
  by_cases h : acc.same ∧ acc.master = 1 ∧ c.lastWr = some (off, 0)
  · simp only [h, if_true, and_self]; exact Common.accessErr_steady ..
  · rw [if_neg h]; exact .refl _

theorem State.gdWrite_keeps {u : State} {s : State} {acc : Access} {off : Nat} {custody : Bool} {f : State → State} (k_f : ∀ x, Keeps x (f x)) (hs : Keeps u s) : Keeps u ((State.gdWrite (s) (acc) (off) (custody) (f))) := by
  refine Keeps.trans hs ?_
  unfold State.gdWrite
  repeat' first
    | with_reducible exact Keeps.refl _
    | lift_lets -underBinder
    | with_reducible apply Keeps.ite
    | with_reducible apply State.custodyRefused_keeps
    | with_reducible apply State.noteWrite_keeps
    | with_reducible refine Keeps.trans ?_ (k_f _)
    | ((with_reducible apply State.updCom_keeps); focus (intro t; exact Common.accessErr_steady ..))

theorem State.portPage_keeps {u : State} {s : State} {p off : Nat} {f : State → State} (k_f : ∀ x, Keeps x (f x)) (hs : Keeps u s) : Keeps u ((State.portPage (s) (p) (off) (f))) := by
  refine Keeps.trans hs ?_
  unfold State.portPage
  repeat' first
    | with_reducible exact Keeps.refl _
    | lift_lets -underBinder
    | with_reducible apply Keeps.ite
    | with_reducible refine Keeps.trans ?_ (k_f _)
    | ((with_reducible apply State.updCom_keeps); focus (intro t; exact Common.accessErr_steady ..))

end Sys2Proof.Machine
end

