-- ==== Sys2Proof/Laws/FrameOperands.lean ====
section
/-! SUPPORT. What the operations of `Sys2Proof.Machine.Operands` leave alone, one lemma per operation. -/

namespace Sys2Proof.Machine

open Sys2Proof

set_option linter.unusedVariables false

theorem State.setReg_keeps {u : State} {s : State} {n : Node} {off : Nat} {w : Word} (hs : Keeps u s) : Keeps u ((State.setReg (s) (n) (off) (w))) := by
  refine Keeps.trans hs ?_
  unfold State.setReg
  repeat' first
    | with_reducible exact Keeps.refl _
    | ((with_reducible apply State.updCom_keeps); focus (intro t; exact ⟨rfl, fun h => h⟩))

end Sys2Proof.Machine
end

