-- ==== Sys2Proof/Laws/FrameSendOps.lean ====
section
/-! SUPPORT. What the operations of `Sys2Proof.Machine.SendOps` leave alone, one lemma per operation. -/

namespace Sys2Proof.Machine

open Sys2Proof

set_option linter.unusedVariables false

theorem State.send_keeps {u : State} {s : State} {l : LinkId} {cls key : Nat} {msg : List Frame} (hs : Keeps u s) : Keeps u ((State.send (s) (l) (cls) (key) (msg))) := by
  refine Keeps.trans hs ?_
  unfold State.send
  repeat' first
    | with_reducible exact Keeps.refl _
    | (intro x; clear_value x)
    | lift_lets -underBinder
    | with_reducible apply Keeps.ite
    | ((with_reducible apply State.updCom_keeps); focus (intro t; exact ⟨rfl, fun h => h⟩))
    | with_reducible apply State.updLink_keeps

theorem State.sendAll_keeps {u : State} {s : State} {l : LinkId} {cls : Nat} {fs : List Frame} (hs : Keeps u s) : Keeps u ((State.sendAll (s) (l) (cls) (fs))) := by
  refine Keeps.trans hs ?_
  unfold State.sendAll
  repeat' first
    | with_reducible exact Keeps.refl _
    | with_reducible assumption
    | (intro x; first | (refine Keeps.use (x := x) ?_ (fun hx => ?_); rotate_left; clear_value x; rotate_right; subst x) | clear_value x)
    | lift_lets -underBinder
    | ((with_reducible apply State.updCom_keeps); focus (intro t; exact ⟨rfl, fun h => h⟩))
    | with_reducible apply State.updLink_keeps

theorem State.tsuUp_keeps {u : State} {s : State} {sideB fullRate : Bool} {cls key : Nat} {fs : List Frame} (hs : Keeps u s) : Keeps u ((State.tsuUp (s) (sideB) (fullRate) (cls) (key) (fs))) := by
  refine Keeps.trans hs ?_
  unfold State.tsuUp
  repeat' first
    | with_reducible exact Keeps.refl _
    | (intro x; clear_value x)
    | lift_lets -underBinder
    | with_reducible apply State.send_keeps

theorem State.malformed_keeps {u : State} {s : State} {l : LinkId} (hs : Keeps u s) : Keeps u ((State.malformed (s) (l))) := by
  refine Keeps.trans hs ?_
  unfold State.malformed
  repeat' first
    | with_reducible exact Keeps.refl _
    | lift_lets -underBinder
    | with_reducible apply State.log_keeps
    | with_reducible apply State.updLink_keeps

theorem State.routeChild_keeps {u : State} {s : State} {i from_ : Nat} {fs : List Frame} (hs : Keeps u s) : Keeps u ((State.routeChild (s) (i) (from_) (fs))) := by
  refine Keeps.trans hs ?_
  unfold State.routeChild
  repeat' first
    | with_reducible exact Keeps.refl _
    | with_reducible apply State.send_keeps
    | ((with_reducible apply State.updGd_keeps); focus (intro t; (lift_lets; intros; (repeat' split) <;> exact ⟨⟨rfl, fun h => h⟩, rfl⟩)))
    | split

theorem State.unhold_keeps {u : State} {s : State} {i : Nat} (hs : Keeps u s) : Keeps u ((State.unhold (s) (i))) := by
  refine Keeps.trans hs ?_
  unfold State.unhold
  repeat' first
    | with_reducible exact Keeps.refl _
    | with_reducible assumption
    | (intro x; first | (refine Keeps.use (x := x) ?_ (fun hx => ?_); rotate_left; clear_value x; rotate_right; subst x) | skip)
    | lift_lets -underBinder
    | with_reducible apply State.routeChild_keeps
    | ((with_reducible apply State.updGd_keeps); focus (intro t; exact ⟨⟨rfl, fun h => h⟩, rfl⟩))
    | with_reducible apply Keeps.foldl
    | split

theorem State.unholdAll_keeps {u : State} {s : State} (hs : Keeps u s) : Keeps u ((State.unholdAll (s))) := by
  refine Keeps.trans hs ?_
  unfold State.unholdAll
  repeat' first
    | with_reducible exact Keeps.refl _
    | intro x
    | lift_lets -underBinder
    | with_reducible apply State.unhold_keeps
    | with_reducible apply Keeps.foldl

theorem State.healthSendEv_keeps {u : State} {s : State} {ev code : Nat} (hs : Keeps u s) : Keeps u ((State.healthSendEv (s) (ev) (code))) := by
  refine Keeps.trans hs ?_
  unfold State.healthSendEv
  repeat' first
    | with_reducible exact Keeps.refl _
    | (intro x; clear_value x)
    | lift_lets -underBinder
    | with_reducible apply State.send_keeps
    | with_reducible apply State.updLink_keeps
    | split

theorem State.healthSend_keeps {u : State} {s : State} {code : ErrCode} (hs : Keeps u s) : Keeps u ((State.healthSend (s) (code))) := by
  refine Keeps.trans hs ?_
  unfold State.healthSend
  repeat' first
    | with_reducible exact Keeps.refl _
    | with_reducible apply State.healthSendEv_keeps
    | split

end Sys2Proof.Machine
end

