-- ==== Sys2Proof/Laws/FrameSliceOps.lean ====
section
/-! SUPPORT. What the operations of `Sys2Proof.Machine.SliceOps` leave alone, one lemma per operation. -/

namespace Sys2Proof.Machine

open Sys2Proof

set_option linter.unusedVariables false

theorem State.updSlice_keeps {u : State} {s : State} {n : Nat} {f : Slice → Slice} (hs : Keeps u s) : Keeps u ((State.updSlice (s) (n) (f))) := by
  refine Keeps.trans hs ?_
  unfold State.updSlice
  repeat' first
    | with_reducible exact Keeps.refl _
    | ((with_reducible apply State.updTsu_keeps); focus (intro t; exact ⟨⟨rfl, fun h => h⟩, rfl⟩))

theorem State.updPort_keeps {u : State} {s : State} {p : Nat} {f : Port → Port} (hs : Keeps u s) : Keeps u ((State.updPort (s) (p) (f))) := by
  refine Keeps.trans hs ?_
  unfold State.updPort
  repeat' first
    | with_reducible exact Keeps.refl _
    | ((with_reducible apply State.updTsu_keeps); focus (intro t; exact ⟨⟨rfl, fun h => h⟩, rfl⟩))

theorem State.updCtx_keeps {u : State} {s : State} {c : Nat} {f : Ctx → Ctx} (hs : Keeps u s) : Keeps u ((State.updCtx (s) (c) (f))) := by
  refine Keeps.trans hs ?_
  unfold State.updCtx
  repeat' first
    | with_reducible exact Keeps.refl _
    | ((with_reducible apply State.updTsu_keeps); focus (intro t; exact ⟨⟨rfl, fun h => h⟩, rfl⟩))

theorem State.updTumb_keeps {u : State} {s : State} {e : Nat} {f : Tumbler → Tumbler} (hs : Keeps u s) : Keeps u ((State.updTumb (s) (e) (f))) := by
  refine Keeps.trans hs ?_
  unfold State.updTumb
  repeat' first
    | with_reducible exact Keeps.refl _
    | ((with_reducible apply State.updTsu_keeps); focus (intro t; exact ⟨⟨rfl, fun h => h⟩, rfl⟩))

theorem State.spCode_keeps {u : State} {s : State} {n off : Nat} {code : ErrCode} {detail : Nat} (hs : Keeps u s) : Keeps u ((State.spCode (s) (n) (off) (code) (detail))) := by
  refine Keeps.trans hs ?_
  unfold State.spCode
  repeat' first
    | with_reducible exact Keeps.refl _
    | with_reducible assumption
    | (intro x; (refine Keeps.use (x := x) ?_ (fun hx => ?_); rotate_left; clear_value x; rotate_right; subst x))
    | lift_lets -underBinder
    | with_reducible apply Keeps.ite
    | with_reducible apply State.logT_keeps
    | with_reducible apply State.updSlice_keeps

theorem State.nwWrite_keeps {u : State} {s : State} {kind : NwKind} {pasid addr : Nat} {data : List Byte} (hs : Keeps u s) : Keeps u ((State.nwWrite (s) (kind) (pasid) (addr) (data))) := by
  refine Keeps.trans hs ?_
  unfold State.nwWrite
  repeat' first
    | with_reducible exact Keeps.refl _
    | ((with_reducible apply State.updTsu_keeps); focus (intro t; exact ⟨⟨rfl, fun h => h⟩, rfl⟩))

theorem State.pageLog_keeps {u : State} {s : State} {n addr : Nat} (hs : Keeps u s) : Keeps u ((State.pageLog (s) (n) (addr))) := by
  refine Keeps.trans hs ?_
  unfold State.pageLog
  repeat' first
    | with_reducible exact Keeps.refl _
    | with_reducible assumption
    | (intro x; first | (refine Keeps.use (x := x) ?_ (fun hx => ?_); rotate_left; clear_value x; rotate_right; subst x) | clear_value x)
    | lift_lets -underBinder
    | with_reducible apply Keeps.ite
    | with_reducible apply State.logT_keeps
    | with_reducible apply State.nwWrite_keeps
    | ((with_reducible apply State.updTsu_keeps); focus (intro t; exact ⟨⟨rfl, fun h => h⟩, rfl⟩))

theorem State.sliceWrite_keeps {u : State} {s : State} {n : Nat} {kind : NwKind} {addr : Nat} {data : List Byte} (hs : Keeps u s) : Keeps u ((State.sliceWrite (s) (n) (kind) (addr) (data))) := by
  refine Keeps.trans hs ?_
  unfold State.sliceWrite
  repeat' first
    | with_reducible exact Keeps.refl _
    | intro x
    | lift_lets -underBinder
    | with_reducible apply State.nwWrite_keeps
    | with_reducible apply State.pageLog_keeps
    | with_reducible apply Keeps.foldl

theorem State.nwRead_keeps {u : State} {s : State} {kind : NwRead} {pasid addr len : Nat} (hs : Keeps u s) : Keeps u ((State.nwRead (s) (kind) (pasid) (addr) (len))) := by
  refine Keeps.trans hs ?_
  unfold State.nwRead
  repeat' first
    | with_reducible exact Keeps.refl _
    | ((with_reducible apply State.updTsu_keeps); focus (intro t; exact ⟨⟨rfl, fun h => h⟩, rfl⟩))

theorem State.ringPut_keeps {u : State} {s : State} {n : Nat} {r : Record} (hs : Keeps u s) : Keeps u ((State.ringPut (s) (n) (r))) := by
  refine Keeps.trans hs ?_
  unfold State.ringPut
  repeat' first
    | with_reducible exact Keeps.refl _
    | (intro x; clear_value x)
    | lift_lets -underBinder
    | with_reducible apply State.sliceWrite_keeps
    | with_reducible apply State.updSlice_keeps

theorem State.writeRecord_keeps {u : State} {s : State} {r : Record} (hs : Keeps u s) : Keeps u ((State.writeRecord (s) (r))) := by
  refine Keeps.trans hs ?_
  unfold State.writeRecord
  repeat' first
    | with_reducible exact Keeps.refl _
    | (intro x; clear_value x)
    | lift_lets -underBinder
    | with_reducible apply Keeps.ite
    | with_reducible apply State.logT_keeps
    | with_reducible apply State.ringPut_keeps
    | with_reducible apply State.updSlice_keeps

theorem State.ringFlush_keeps {u : State} {s : State} {n : Nat} (hs : Keeps u s) : Keeps u ((State.ringFlush (s) (n))) := by
  refine Keeps.trans hs ?_
  unfold State.ringFlush
  repeat' first
    | with_reducible exact Keeps.refl _
    | intro x
    | lift_lets -underBinder
    | with_reducible apply Keeps.ite
    | with_reducible apply State.ringPut_keeps
    | with_reducible apply State.updSlice_keeps
    | with_reducible apply Keeps.foldl

theorem State.ringVector_keeps {u : State} {s : State} {n : Nat} (hs : Keeps u s) : Keeps u ((State.ringVector (s) (n))) := by
  refine Keeps.trans hs ?_
  unfold State.ringVector
  repeat' first
    | with_reducible exact Keeps.refl _
    | (intro x; clear_value x)
    | lift_lets -underBinder
    | with_reducible apply Keeps.ite
    | with_reducible apply State.updSlice_keeps
    | ((with_reducible apply State.updCom_keeps); focus (intro t; exact Common.raiseVector_steady ..))

theorem State.updBinding_keeps {u : State} {s : State} {n : Nat} {tag : BitVec 24} {f : Binding → Binding} (hs : Keeps u s) : Keeps u ((State.updBinding (s) (n) (tag) (f))) := by
  refine Keeps.trans hs ?_
  unfold State.updBinding
  repeat' first
    | with_reducible exact Keeps.refl _
    | with_reducible apply State.updSlice_keeps

end Sys2Proof.Machine
end

