-- ==== Sys2Proof/Laws/FrameLaunchOps.lean ====
section
/-! SUPPORT. What the operations of `Sys2Proof.Machine.LaunchOps` leave alone, one lemma per operation. -/

namespace Sys2Proof.Machine

open Sys2Proof

set_option linter.unusedVariables false

theorem State.busSend_keeps {u : State} {s : State} {r : Nat} {b : BusBody} (hs : Keeps u s) : Keeps u ((State.busSend (s) (r) (b))) := by
  refine Keeps.trans hs ?_
  unfold State.busSend
  repeat' first
    | with_reducible exact Keeps.refl _
    | with_reducible apply State.updRegion_keeps

theorem State.freeSlot_keeps {u : State} {s : State} {rs : Nat × Nat} (hs : Keeps u s) : Keeps u ((State.freeSlot (s) (rs))) := by
  refine Keeps.trans hs ?_
  unfold State.freeSlot
  repeat' first
    | with_reducible exact Keeps.refl _
    | with_reducible apply State.updRegion_keeps

theorem State.freeStaging_keeps {u : State} {s : State} {launch : Nat} {which : Option Bool} {ports : List Nat} {slots : List (Nat × Nat)} (hs : Keeps u s) : Keeps u ((State.freeStaging (s) (launch) (which) (ports) (slots))) := by
  refine Keeps.trans hs ?_
  unfold State.freeStaging
  repeat' first
    | with_reducible exact Keeps.refl _
    | with_reducible assumption
    | (intro x; first | (refine Keeps.use (x := x) ?_ (fun hx => ?_); rotate_left; clear_value x; rotate_right; subst x) | skip)
    | lift_lets -underBinder
    | with_reducible apply State.freeSlot_keeps
    | with_reducible apply State.updPort_keeps
    | with_reducible apply Keeps.foldl

theorem State.launchRecord_keeps {u : State} {s : State} {a : Arm} {code : ErrCode} {detail : Nat} {dropped : Bool} (hs : Keeps u s) : Keeps u ((State.launchRecord (s) (a) (code) (detail) (dropped))) := by
  refine Keeps.trans hs ?_
  unfold State.launchRecord
  repeat' first
    | with_reducible exact Keeps.refl _
    | with_reducible apply State.writeRecord_keeps

theorem State.recordDone_keeps {u : State} {s : State} {a : Arm} (hs : Keeps u s) : Keeps u ((State.recordDone (s) (a))) := by
  refine Keeps.trans hs ?_
  unfold State.recordDone
  repeat' first
    | with_reducible exact Keeps.refl _
    | ((with_reducible apply State.updTsu_keeps); focus (intro t; exact ⟨⟨rfl, fun h => h⟩, rfl⟩))

theorem State.armDone_keeps {u : State} {s : State} {id : Nat} (hs : Keeps u s) : Keeps u ((State.armDone (s) (id))) := by
  refine Keeps.trans hs ?_
  unfold State.armDone
  repeat' first
    | with_reducible exact Keeps.refl _
    | with_reducible assumption
    | (intro x; (refine Keeps.use (x := x) ?_ (fun hx => ?_); rotate_left; clear_value x; rotate_right; subst x))
    | lift_lets -underBinder
    | with_reducible apply Keeps.ite
    | with_reducible apply State.freeStaging_keeps
    | with_reducible apply State.launchRecord_keeps
    | with_reducible apply State.recordDone_keeps
    | ((with_reducible apply State.updTsu_keeps); focus (intro t; exact ⟨⟨rfl, fun h => h⟩, rfl⟩))
    | split

theorem State.updArm_keeps {u : State} {s : State} {id : Nat} {f : Arm → Arm} (hs : Keeps u s) : Keeps u ((State.updArm (s) (id) (f))) := by
  refine Keeps.trans hs ?_
  unfold State.updArm
  repeat' first
    | with_reducible exact Keeps.refl _
    | ((with_reducible apply State.updTsu_keeps); focus (intro t; exact ⟨⟨rfl, fun h => h⟩, rfl⟩))

theorem State.reclaim_keeps {u : State} {s : State} {p : Nat} (hs : Keeps u s) : Keeps u ((State.reclaim (s) (p))) := by
  refine Keeps.trans hs ?_
  unfold State.reclaim
  repeat' first
    | with_reducible exact Keeps.refl _
    | with_reducible assumption
    | (intro x; (refine Keeps.use (x := x) ?_ (fun hx => ?_); rotate_left; clear_value x; rotate_right; subst x))
    | lift_lets -underBinder
    | with_reducible apply State.updPort_keeps
    | ((with_reducible apply State.updTsu_keeps); focus (intro t; ((repeat' split) <;> exact ⟨⟨rfl, fun h => h⟩, rfl⟩)))
    | split

theorem State.present_keeps {u : State} {s : State} {p : Nat} {c : Command} (hs : Keeps u s) : Keeps u ((State.present (s) (p) (c))) := by
  refine Keeps.trans hs ?_
  unfold State.present
  repeat' first
    | with_reducible exact Keeps.refl _
    | lift_lets -underBinder
    | with_reducible apply State.reclaim_keeps
    | with_reducible apply State.updPort_keeps

theorem State.firePort_keeps {u : State} {s : State} {a : Arm} {r t reach : Nat} {gated late : Bool} {p : Nat} (hs : Keeps u s) : Keeps u ((State.firePort (s) (a) (r) (t) (reach) (gated) (late) (p))) := by
  refine Keeps.trans hs ?_
  unfold State.firePort
  repeat' first
    | with_reducible exact Keeps.refl _
    | with_reducible assumption
    | (intro x; first | (refine Keeps.use (x := x) ?_ (fun hx => ?_); rotate_left; clear_value x; rotate_right; subst x) | (have hf := funext (f := x) (g := x) (fun _ => rfl); clear hf; subst x) | clear_value x | skip)
    | lift_lets -underBinder
    | with_reducible apply State.reclaim_keeps
    | with_reducible apply State.updPort_keeps
    | with_reducible apply Keeps.foldl

theorem State.strobe_keeps {u : State} {s : State} {r slot t reach : Nat} {late : Bool} (hs : Keeps u s) : Keeps u ((State.strobe (s) (r) (slot) (t) (reach) (late))) := by
  refine Keeps.trans hs ?_
  unfold State.strobe
  repeat' first
    | with_reducible exact Keeps.refl _
    | with_reducible assumption
    | (intro x; first | (refine Keeps.use (x := x) ?_ (fun hx => ?_); rotate_left; clear_value x; rotate_right; subst x) | clear_value x | skip)
    | lift_lets -underBinder
    | with_reducible apply Keeps.ite
    | with_reducible apply State.armDone_keeps
    | with_reducible apply State.firePort_keeps
    | with_reducible apply State.freeSlot_keeps
    | with_reducible apply State.setEvt_keeps
    | with_reducible apply State.updArm_keeps
    | with_reducible apply Keeps.foldl
    | split

theorem State.noteCode_keeps {u : State} {s : State} {f : Fired} {code : ErrCode} (hs : Keeps u s) : Keeps u ((State.noteCode (s) (f) (code))) := by
  refine Keeps.trans hs ?_
  unfold State.noteCode
  repeat' first
    | with_reducible exact Keeps.refl _
    | lift_lets -underBinder
    | with_reducible apply Keeps.ite
    | with_reducible apply State.launchRecord_keeps
    | with_reducible apply State.recordDone_keeps
    | with_reducible apply State.updArm_keeps
    | split

theorem State.portLost_keeps {u : State} {s : State} {a : Arm} {code : ErrCode} {p : Nat} (hs : Keeps u s) : Keeps u ((State.portLost (s) (a) (code) (p))) := by
  refine Keeps.trans hs ?_
  unfold State.portLost
  repeat' first
    | with_reducible exact Keeps.refl _
    | with_reducible apply State.writeRecord_keeps

theorem State.slotLost_keeps {u : State} {s : State} {r slot : Nat} {code : ErrCode} (hs : Keeps u s) : Keeps u ((State.slotLost (s) (r) (slot) (code))) := by
  refine Keeps.trans hs ?_
  unfold State.slotLost
  repeat' first
    | with_reducible exact Keeps.refl _
    | with_reducible assumption
    | (intro x; first | (refine Keeps.use (x := x) ?_ (fun hx => ?_); rotate_left; clear_value x; rotate_right; subst x) | clear_value x | skip)
    | lift_lets -underBinder
    | with_reducible apply State.armDone_keeps
    | with_reducible apply State.freeSlot_keeps
    | with_reducible apply State.freeStaging_keeps
    | with_reducible apply State.portLost_keeps
    | with_reducible apply State.updArm_keeps
    | with_reducible apply Keeps.foldl
    | split

theorem State.slotCancelled_keeps {u : State} {s : State} {r slot : Nat} (hs : Keeps u s) : Keeps u ((State.slotCancelled (s) (r) (slot))) := by
  refine Keeps.trans hs ?_
  unfold State.slotCancelled
  repeat' first
    | with_reducible exact Keeps.refl _
    | with_reducible assumption
    | (intro x; (refine Keeps.use (x := x) ?_ (fun hx => ?_); rotate_left; clear_value x; rotate_right; subst x))
    | lift_lets -underBinder
    | with_reducible apply State.armDone_keeps
    | with_reducible apply State.freeSlot_keeps
    | with_reducible apply State.updArm_keeps
    | split

theorem State.dropArm_keeps {u : State} {s : State} {id : Nat} {code : ErrCode} {detail : Nat} (hs : Keeps u s) : Keeps u ((State.dropArm (s) (id) (code) (detail))) := by
  refine Keeps.trans hs ?_
  unfold State.dropArm
  repeat' first
    | with_reducible exact Keeps.refl _
    | with_reducible assumption
    | (intro x; first | (refine Keeps.use (x := x) ?_ (fun hx => ?_); rotate_left; clear_value x; rotate_right; subst x) | skip)
    | lift_lets -underBinder
    | with_reducible apply Keeps.ite
    | with_reducible apply State.armDone_keeps
    | with_reducible apply State.busSend_keeps
    | with_reducible apply State.freeSlot_keeps
    | with_reducible apply State.freeStaging_keeps
    | with_reducible apply State.launchRecord_keeps
    | with_reducible apply State.recordDone_keeps
    | with_reducible apply State.updArm_keeps
    | with_reducible apply State.updRegion_keeps
    | with_reducible apply Keeps.foldl
    | split

theorem State.dropDomainLaunches_keeps {u : State} {s : State} {code : ErrCode} (hs : Keeps u s) : Keeps u ((State.dropDomainLaunches (s) (code))) := by
  refine Keeps.trans hs ?_
  unfold State.dropDomainLaunches
  repeat' first
    | with_reducible exact Keeps.refl _
    | (intro x; first | clear_value x | skip)
    | lift_lets -underBinder
    | with_reducible apply State.dropArm_keeps
    | with_reducible apply State.logT_keeps
    | with_reducible apply Keeps.foldl

theorem State.joinReq_keeps {u : State} {s : State} {tag : BitVec 24} (hs : Keeps u s) : Keeps u ((State.joinReq (s) (tag))) := by
  refine Keeps.trans hs ?_
  unfold State.joinReq
  repeat' first
    | with_reducible exact Keeps.refl _
    | (intro x; clear_value x)
    | lift_lets -underBinder
    | with_reducible apply State.tsuUp_keeps

theorem State.joinSoon_keeps {u : State} {s : State} {tag : BitVec 24} (hs : Keeps u s) : Keeps u ((State.joinSoon (s) (tag))) := by
  refine Keeps.trans hs ?_
  unfold State.joinSoon
  repeat' first
    | with_reducible exact Keeps.refl _
    | with_reducible apply Keeps.ite
    | with_reducible apply State.joinReq_keeps

theorem State.launchOkGained_keeps {u : State} {s : State} (hs : Keeps u s) : Keeps u ((State.launchOkGained (s))) := by
  refine Keeps.trans hs ?_
  unfold State.launchOkGained
  repeat' first
    | with_reducible exact Keeps.refl _
    | intro x
    | lift_lets -underBinder
    | with_reducible apply Keeps.ite
    | with_reducible apply State.joinReq_keeps
    | with_reducible apply Keeps.foldl

end Sys2Proof.Machine
end

