-- ==== Sys2Proof/Laws/FrameTimeOps.lean ====
section
/-! SUPPORT. What the operations of `Sys2Proof.Machine.TimeOps` leave alone, one lemma per operation. -/

namespace Sys2Proof.Machine

open Sys2Proof

set_option linter.unusedVariables false

theorem State.updRegions_keeps {u : State} {s : State} {f : Region → Region} (hs : Keeps u s) : Keeps u ((State.updRegions (s) (f))) := by
  refine Keeps.trans hs ?_
  unfold State.updRegions
  repeat' first
    | with_reducible exact Keeps.refl _
    | intro x
    | lift_lets -underBinder
    | with_reducible apply State.updRegion_keeps
    | with_reducible apply Keeps.foldl

theorem State.noteTrace_keeps {u : State} {s : State} {was : Bool} (hs : Keeps u s) : Keeps u ((State.noteTrace (s) (was))) := by
  refine Keeps.trans hs ?_
  unfold State.noteTrace
  repeat' first
    | with_reducible exact Keeps.refl _
    | ((with_reducible apply State.updGd_keeps); focus (intro t; exact ⟨⟨rfl, fun h => h⟩, rfl⟩))

theorem State.loseLaunchOk_keeps {u : State} {s : State} {n : Node} (hs : Keeps u s) : Keeps u ((State.loseLaunchOk (s) (n))) := by
  refine Keeps.trans hs ?_
  unfold State.loseLaunchOk
  repeat' first
    | with_reducible exact Keeps.refl _
    | with_reducible assumption
    | (intro x; (refine Keeps.use (x := x) ?_ (fun hx => ?_); rotate_left; clear_value x; rotate_right; subst x))
    | lift_lets -underBinder
    | with_reducible apply State.dropDomainLaunches_keeps
    | ((with_reducible apply State.updTime_keeps); focus (intro t; exact ⟨rfl, fun h => h⟩))
    | split

theorem State.timeDomainReset_keeps {u : State} {s : State} {n : Node} (hs : Keeps u s) : Keeps u ((State.timeDomainReset (s) (n))) := by
  refine Keeps.trans hs ?_
  unfold State.timeDomainReset
  repeat' first
    | with_reducible exact Keeps.refl _
    | with_reducible assumption
    | (intro x; first | (refine Keeps.use (x := x) ?_ (fun hx => ?_); rotate_left; clear_value x; rotate_right; subst x) | clear_value x)
    | lift_lets -underBinder
    | with_reducible apply State.loseLaunchOk_keeps
    | with_reducible apply State.updRegions_keeps
    | ((with_reducible apply State.updCom_keeps); focus (intro t; exact ⟨rfl, fun h => h⟩))
    | ((with_reducible apply State.updTimeQ_keeps); focus (intro t; exact ⟨rfl, fun h => h⟩))
    | with_reducible apply State.updRef_keeps
    | split

theorem State.flywheelEntry_keeps {u : State} {s : State} {n : Node} (hs : Keeps u s) : Keeps u ((State.flywheelEntry (s) (n))) := by
  refine Keeps.trans hs ?_
  unfold State.flywheelEntry
  repeat' first
    | with_reducible exact Keeps.refl _
    | (intro x; clear_value x)
    | lift_lets -underBinder
    | ((with_reducible apply State.updTimeQ_keeps); focus (intro t; (lift_lets; intros; (repeat' split) <;> exact ⟨rfl, fun h => h⟩)))

theorem State.takeSource_keeps {u : State} {s : State} {n : Node} {p : Option Nat} (hs : Keeps u s) : Keeps u ((State.takeSource (s) (n) (p))) := by
  refine Keeps.trans hs ?_
  unfold State.takeSource
  repeat' first
    | with_reducible exact Keeps.refl _
    | with_reducible assumption
    | (intro x; first | (refine Keeps.use (x := x) ?_ (fun hx => ?_); rotate_left; clear_value x; rotate_right; subst x) | clear_value x)
    | lift_lets -underBinder
    | with_reducible apply Keeps.ite
    | with_reducible apply State.flywheelEntry_keeps
    | with_reducible apply State.noteTrace_keeps
    | with_reducible apply State.timeDomainReset_keeps
    | ((with_reducible apply State.updGd_keeps); focus (intro t; exact ⟨⟨rfl, fun h => h⟩, rfl⟩))
    | ((with_reducible apply State.updTime_keeps); focus (intro t; exact ⟨rfl, fun h => h⟩))
    | with_reducible apply State.updSrc_keeps
    | split

theorem State.selectSource_keeps {u : State} {s : State} {n : Node} (hs : Keeps u s) : Keeps u ((State.selectSource (s) (n))) := by
  refine Keeps.trans hs ?_
  unfold State.selectSource
  repeat' first
    | with_reducible exact Keeps.refl _
    | (intro x; clear_value x)
    | lift_lets -underBinder
    | with_reducible apply Keeps.ite
    | with_reducible apply State.takeSource_keeps
    | split

theorem State.srcInvalid_keeps {u : State} {s : State} {l : LinkId} (hs : Keeps u s) : Keeps u ((State.srcInvalid (s) (l))) := by
  refine Keeps.trans hs ?_
  unfold State.srcInvalid
  repeat' first
    | with_reducible exact Keeps.refl _
    | with_reducible assumption
    | (intro x; (refine Keeps.use (x := x) ?_ (fun hx => ?_); rotate_left; clear_value x; rotate_right; subst x))
    | lift_lets -underBinder
    | with_reducible apply Keeps.ite
    | with_reducible apply State.flywheelEntry_keeps
    | with_reducible apply State.selectSource_keeps
    | ((with_reducible apply State.updGd_keeps); focus (intro t; exact ⟨⟨rfl, fun h => h⟩, rfl⟩))
    | with_reducible apply State.updSrc_keeps

theorem State.acquire_keeps {u : State} {s : State} {l : LinkId} (hs : Keeps u s) : Keeps u ((State.acquire (s) (l))) := by
  refine Keeps.trans hs ?_
  unfold State.acquire
  repeat' first
    | with_reducible exact Keeps.refl _
    | (intro x; clear_value x)
    | lift_lets -underBinder
    | ((with_reducible apply State.updTimeQ_keeps); focus (intro t; ((repeat' split) <;> exact ⟨rfl, fun h => h⟩)))

theorem State.srcTrained_keeps {u : State} {s : State} {l : LinkId} (hs : Keeps u s) : Keeps u ((State.srcTrained (s) (l))) := by
  refine Keeps.trans hs ?_
  unfold State.srcTrained
  repeat' first
    | with_reducible exact Keeps.refl _
    | with_reducible assumption
    | (intro x; first | (refine Keeps.use (x := x) ?_ (fun hx => ?_); rotate_left; clear_value x; rotate_right; subst x) | clear_value x)
    | lift_lets -underBinder
    | with_reducible apply State.acquire_keeps
    | with_reducible apply State.updSrc_keeps

theorem State.outputsDue_keeps {u : State} {s : State} (hs : Keeps u s) : Keeps u ((State.outputsDue (s))) := by
  refine Keeps.trans hs ?_
  unfold State.outputsDue
  repeat' first
    | with_reducible exact Keeps.refl _
    | lift_lets -underBinder
    | with_reducible apply Keeps.ite
    | ((with_reducible apply State.updGd_keeps); focus (intro t; exact ⟨⟨rfl, fun h => h⟩, rfl⟩))

theorem State.outputsStepped_keeps {u : State} {s : State} {size : Int} (hs : Keeps u s) : Keeps u ((State.outputsStepped (s) (size))) := by
  refine Keeps.trans hs ?_
  unfold State.outputsStepped
  repeat' first
    | with_reducible exact Keeps.refl _
    | with_reducible assumption
    | (intro x; (refine Keeps.use (x := x) ?_ (fun hx => ?_); rotate_left; clear_value x; rotate_right; subst x))
    | lift_lets -underBinder
    | with_reducible apply Keeps.ite
    | with_reducible apply State.logG_keeps
    | with_reducible apply State.outputsDue_keeps
    | with_reducible apply State.setEvt_keeps
    | ((with_reducible apply State.updGd_keeps); focus (intro t; exact ⟨⟨rfl, fun h => h⟩, rfl⟩))

theorem State.refsStepped_keeps {u : State} {s : State} {size : Int} (hs : Keeps u s) : Keeps u ((State.refsStepped (s) (size))) := by
  refine Keeps.trans hs ?_
  unfold State.refsStepped
  repeat' first
    | with_reducible exact Keeps.refl _
    | with_reducible apply State.updRef_keeps

theorem State.stepCounter_guards {u s : State} {n : Node} {goal : Time80} (hs : Guards u s) : Guards u (s.stepCounter n goal) := by
  have h : Guards s (s.updTime n fun t => t.step goal) := by
    cases n <;> exact ⟨rfl, rfl, fun h => h, rfl⟩
  unfold State.stepCounter
  cases n
  · exact hs.trans h
  · exact Guards.step (State.outputsStepped_keeps (State.refsStepped_keeps (Keeps.refl _))) (hs.trans h)

theorem State.withdraw_keeps {u : State} {s : State} {n : Node} (hs : Keeps u s) : Keeps u ((State.withdraw (s) (n))) := by
  refine Keeps.trans hs ?_
  unfold State.withdraw
  repeat' first
    | with_reducible exact Keeps.refl _
    | with_reducible assumption
    | (intro x; first | (refine Keeps.use (x := x) ?_ (fun hx => ?_); rotate_left; clear_value x; rotate_right; subst x) | clear_value x)
    | lift_lets -underBinder
    | with_reducible apply Keeps.ite
    | with_reducible apply State.healthSendEv_keeps
    | with_reducible apply State.loseLaunchOk_keeps
    | ((with_reducible apply State.updTimeQ_keeps); focus (intro t; exact ⟨rfl, fun h => h⟩))

theorem State.judgeSender_keeps {u : State} {s : State} {n : Node} {q : Quality} (hs : Keeps u s) : Keeps u ((State.judgeSender (s) (n) (q))) := by
  refine Keeps.trans hs ?_
  unfold State.judgeSender
  repeat' first
    | with_reducible exact Keeps.refl _
    | with_reducible assumption
    | (intro x; (refine Keeps.use (x := x) ?_ (fun hx => ?_); rotate_left; clear_value x; rotate_right; subst x))
    | lift_lets -underBinder
    | with_reducible apply Keeps.ite
    | with_reducible apply State.withdraw_keeps
    | ((with_reducible apply State.updTime_keeps); focus (intro t; exact ⟨rfl, fun h => h⟩))
    | ((with_reducible apply State.updTimeQ_keeps); focus (intro t; exact ⟨rfl, fun h => h⟩))
    | split

theorem State.judgeOffset_keeps {u : State} {s : State} {n : Node} {theta : Int} (hs : Keeps u s) : Keeps u ((State.judgeOffset (s) (n) (theta))) := by
  refine Keeps.trans hs ?_
  unfold State.judgeOffset
  repeat' first
    | with_reducible exact Keeps.refl _
    | with_reducible assumption
    | (intro x; first | (refine Keeps.use (x := x) ?_ (fun hx => ?_); rotate_left; clear_value x; rotate_right; subst x) | clear_value x)
    | lift_lets -underBinder
    | with_reducible apply Keeps.ite
    | with_reducible apply State.log_keeps
    | with_reducible apply State.setEvt_keeps
    | with_reducible apply State.withdraw_keeps
    | ((with_reducible apply State.updTime_keeps); focus (intro t; exact ⟨rfl, fun h => h⟩))
    | split

theorem State.takeOffset_keeps {u : State} {s : State} {n : Node} {theta : Int} (hs : Keeps u s) : Keeps u ((State.takeOffset (s) (n) (theta))) := by
  refine Keeps.trans hs ?_
  unfold State.takeOffset
  repeat' first
    | with_reducible exact Keeps.refl _
    | with_reducible assumption
    | (intro x; first | (refine Keeps.use (x := x) ?_ (fun hx => ?_); rotate_left; clear_value x; rotate_right; subst x) | clear_value x)
    | lift_lets -underBinder
    | with_reducible apply Keeps.ite
    | with_reducible apply State.judgeOffset_keeps
    | with_reducible apply State.withdraw_keeps
    | ((with_reducible apply State.updTime_keeps); focus (intro t; exact ⟨rfl, fun h => h⟩))
    | ((with_reducible apply State.updTimeQ_keeps); focus (intro t; exact ⟨rfl, fun h => h⟩))

end Sys2Proof.Machine
end

