-- ==== Sys2Proof/Laws/FrameDistOps.lean ====
section
/-! SUPPORT. What the operations of `Sys2Proof.Machine.DistOps` leave alone, one lemma per operation. -/

namespace Sys2Proof.Machine

open Sys2Proof

set_option linter.unusedVariables false

theorem State.updDom_keeps {u : State} {s : State} {tag : BitVec 24} {f : GdDom → GdDom} (hs : Keeps u s) : Keeps u ((State.updDom (s) (tag) (f))) := by
  refine Keeps.trans hs ?_
  unfold State.updDom
  repeat' first
    | with_reducible exact Keeps.refl _
    | ((with_reducible apply State.updGd_keeps); focus (intro t; ((repeat' split) <;> exact ⟨⟨rfl, fun h => h⟩, rfl⟩)))

theorem State.topLost_keeps {u : State} {s : State} {d : DomRec} (hs : Keeps u s) : Keeps u ((State.topLost (s) (d))) := by
  refine Keeps.trans hs ?_
  unfold State.topLost
  repeat' first
    | with_reducible exact Keeps.refl _
    | lift_lets -underBinder
    | with_reducible apply Keeps.ite
    | with_reducible apply State.logG_keeps
    | with_reducible apply State.updDom_keeps

theorem State.gdUp_keeps {u : State} {s : State} {d : DomRec} {cls key : Nat} {fs : List Frame} {relay : Bool} {from_ : Nat} (hs : Keeps u s) : Keeps u ((State.gdUp (s) (d) (cls) (key) (fs) (relay) (from_))) := by
  refine Keeps.trans hs ?_
  unfold State.gdUp
  repeat' first
    | with_reducible exact Keeps.refl _
    | with_reducible assumption
    | (intro x; first | (refine Keeps.use (x := x) ?_ (fun hx => ?_); rotate_left; clear_value x; rotate_right; subst x) | clear_value x)
    | lift_lets -underBinder
    | with_reducible apply State.send_keeps
    | with_reducible apply State.topLost_keeps
    | with_reducible apply State.updDom_keeps
    | ((with_reducible apply State.updCom_keeps); focus (intro t; exact ⟨rfl, fun h => h⟩))
    | split

theorem State.gdDown_keeps {u : State} {s : State} {d : DomRec} {cls : Nat} {kids : List Nat} {per : Nat → List Frame} {raw : List Frame} (hs : Keeps u s) : Keeps u ((State.gdDown (s) (d) (cls) (kids) (per) (raw))) := by
  refine Keeps.trans hs ?_
  unfold State.gdDown
  repeat' first
    | with_reducible exact Keeps.refl _
    | with_reducible assumption
    | (intro x; first | (refine Keeps.use (x := x) ?_ (fun hx => ?_); rotate_left; clear_value x; rotate_right; subst x) | (have hf := funext (f := x) (g := x) (fun _ => rfl); clear hf; subst x) | clear_value x | skip)
    | lift_lets -underBinder
    | with_reducible apply Keeps.ite
    | with_reducible apply State.send_keeps
    | with_reducible apply Keeps.foldl
    | split

theorem State.mirror_keeps {u : State} {s : State} {cls : Nat} {fs : List Frame} (hs : Keeps u s) : Keeps u ((State.mirror (s) (cls) (fs))) := by
  refine Keeps.trans hs ?_
  unfold State.mirror
  repeat' first
    | with_reducible exact Keeps.refl _
    | (intro x; clear_value x)
    | lift_lets -underBinder
    | with_reducible apply Keeps.ite
    | with_reducible apply State.send_keeps

theorem State.upPart_keeps {u : State} {s : State} {l : LinkId} {d : DomRec} {cls : Nat} {fs : List Frame} {die : Option Nat} (hs : Keeps u s) : Keeps u ((State.upPart (s) (l) (d) (cls) (fs) (die)).1) := by
  refine Keeps.trans hs ?_
  unfold State.upPart
  repeat' first
    | with_reducible exact Keeps.refl _
    | with_reducible apply State.gdUp_keeps
    | with_reducible apply State.logG_keeps
    | with_reducible apply State.malformed_keeps
    | with_reducible apply State.routeChild_keeps
    | split

end Sys2Proof.Machine
end

