-- ==== Sys2Proof/Laws/FrameSoftOps.lean ====
section
/-! SUPPORT. What the operations of `Sys2Proof.Machine.SoftOps` leave alone, one lemma per operation. -/

namespace Sys2Proof.Machine

open Sys2Proof

set_option linter.unusedVariables false

theorem State.updSoft_keeps {u : State} {s : State} {tag : BitVec 24} {index : Nat} {f : Soft → Soft} (hs : Keeps u s) : Keeps u ((State.updSoft (s) (tag) (index) (f))) := by
  refine Keeps.trans hs ?_
  unfold State.updSoft
  repeat' first
    | with_reducible exact Keeps.refl _
    | ((with_reducible apply State.updGd_keeps); focus (intro t; ((repeat' split) <;> exact ⟨⟨rfl, fun h => h⟩, rfl⟩)))

theorem State.openSoft_keeps {u : State} {s : State} {d : GdDom} {index : Nat} {gen : BitVec 2} (hs : Keeps u s) : Keeps u ((State.openSoft (s) (d) (index) (gen)).1) := by
  refine Keeps.trans hs ?_
  unfold State.openSoft
  repeat' first
    | with_reducible exact Keeps.refl _
    | (intro x; clear_value x)
    | lift_lets -underBinder
    | ((with_reducible apply State.updGd_keeps); focus (intro t; exact ⟨⟨rfl, fun h => h⟩, rfl⟩))
    | split

theorem State.slotWait_keeps {u : State} {s : State} {c : Int} (hs : Keeps u s) : Keeps u ((State.slotWait (s) (c)).1) := by
  refine Keeps.trans hs ?_
  unfold State.slotWait
  repeat' first
    | with_reducible exact Keeps.refl _
    | (intro x; clear_value x)
    | lift_lets -underBinder
    | with_reducible apply State.takeFresh_keeps
    | split

theorem State.noteDlat_keeps {u : State} {s : State} {d : GdDom} (hs : Keeps u s) : Keeps u ((State.noteDlat (s) (d))) := by
  refine Keeps.trans hs ?_
  unfold State.noteDlat
  repeat' first
    | with_reducible exact Keeps.refl _
    | lift_lets -underBinder
    | with_reducible apply Keeps.ite
    | with_reducible apply State.logG_keeps
    | with_reducible apply State.updDom_keeps

theorem State.topD_keeps {u : State} {s : State} {d : GdDom} {c : Int} (hs : Keeps u s) : Keeps u ((State.topD (s) (d) (c)).1) := by
  refine Keeps.trans hs ?_
  unfold State.topD
  repeat' first
    | with_reducible exact Keeps.refl _
    | with_reducible assumption
    | (intro x; first | (refine Keeps.use (x := x.1) ?_ (fun hx => ?_); rotate_left; clear_value x; rotate_right; subst x) | clear_value x)
    | lift_lets -underBinder
    | with_reducible apply State.noteDlat_keeps
    | with_reducible apply State.slotWait_keeps
    | split

theorem State.passTurn_keeps {u : State} {s : State} {d : GdDom} {index : Nat} {gen : BitVec 2} {c : Int} (hs : Keeps u s) : Keeps u ((State.passTurn (s) (d) (index) (gen) (c))) := by
  refine Keeps.trans hs ?_
  unfold State.passTurn
  repeat' first
    | with_reducible exact Keeps.refl _
    | (intro x; clear_value x)
    | lift_lets -underBinder
    | with_reducible apply State.updSoft_keeps

theorem State.journalTurn_keeps {u : State} {s : State} {d : DomRec} {f : Frame} (hs : Keeps u s) : Keeps u ((State.journalTurn (s) (d) (f))) := by
  refine Keeps.trans hs ?_
  unfold State.journalTurn
  repeat' first
    | with_reducible exact Keeps.refl _
    | lift_lets -underBinder
    | with_reducible apply Keeps.ite
    | ((with_reducible apply State.updGd_keeps); focus (intro t; exact Gd.journalWrite_steady ..))

theorem State.spread_keeps {u : State} {s : State} {d : GdDom} {launch : Bool} {first : Frame} {data alloc : List Byte} {e : Soft} {copy only : Bool} (hs : Keeps u s) : Keeps u ((State.spread (s) (d) (launch) (first) (data) (alloc) (e) (copy) (only))) := by
  refine Keeps.trans hs ?_
  unfold State.spread
  repeat' first
    | with_reducible exact Keeps.refl _
    | with_reducible assumption
    | (intro x; first | (refine Keeps.use (x := x) ?_ (fun hx => ?_); rotate_left; clear_value x; rotate_right; subst x) | clear_value x)
    | lift_lets -underBinder
    | with_reducible apply Keeps.ite
    | with_reducible apply State.gdDown_keeps
    | with_reducible apply State.mirror_keeps

theorem State.turnData_keeps {u : State} {s : State} {e : Soft} (hs : Keeps u s) : Keeps u ((State.turnData (s) (e)).1) := by
  refine Keeps.trans hs ?_
  unfold State.turnData
  repeat' first
    | with_reducible exact Keeps.refl _
    | with_reducible assumption
    | (intro x; first | (refine Keeps.use (x := x) ?_ (fun hx => ?_); rotate_left; clear_value x; rotate_right; subst x) | clear_value x)
    | lift_lets -underBinder
    | with_reducible apply Keeps.ite
    | with_reducible apply State.logG_keeps
    | split

theorem State.gdTurn_keeps {u : State} {s : State} {d : GdDom} {index : Nat} {e : Soft} (hs : Keeps u s) : Keeps u ((State.gdTurn (s) (d) (index) (e))) := by
  refine Keeps.trans hs ?_
  unfold State.gdTurn
  repeat' first
    | with_reducible exact Keeps.refl _
    | (intro x; clear_value x)
    | lift_lets -underBinder
    | with_reducible apply State.journalTurn_keeps
    | with_reducible apply State.passTurn_keeps
    | with_reducible apply State.spread_keeps
    | with_reducible apply State.topD_keeps
    | with_reducible apply State.turnData_keeps
    | split

theorem State.softCheck_keeps {u : State} {s : State} {tag : BitVec 24} {index : Nat} (hs : Keeps u s) : Keeps u ((State.softCheck (s) (tag) (index))) := by
  refine Keeps.trans hs ?_
  unfold State.softCheck
  repeat' first
    | with_reducible exact Keeps.refl _
    | with_reducible assumption
    | (intro x; first | (refine Keeps.use (x := x) ?_ (fun hx => ?_); rotate_left; clear_value x; rotate_right; subst x) | clear_value x)
    | lift_lets -underBinder
    | with_reducible apply Keeps.ite
    | with_reducible apply State.gdTurn_keeps
    | with_reducible apply State.gdUp_keeps
    | with_reducible apply State.updSoft_keeps
    | split

theorem State.dupArrive_keeps {u : State} {s : State} {tag : BitVec 24} {index : Nat} (hs : Keeps u s) : Keeps u ((State.dupArrive (s) (tag) (index))) := by
  refine Keeps.trans hs ?_
  unfold State.dupArrive
  repeat' first
    | with_reducible exact Keeps.refl _
    | with_reducible apply State.updSoft_keeps

theorem State.gdUnderway_keeps {u : State} {s : State} {d : GdDom} {i : Nat} {fs : List Frame} (hs : Keeps u s) : Keeps u ((State.gdUnderway (s) (d) (i) (fs))) := by
  refine Keeps.trans hs ?_
  unfold State.gdUnderway
  repeat' first
    | with_reducible exact Keeps.refl _
    | lift_lets -underBinder
    | with_reducible apply Keeps.ite
    | with_reducible apply State.openSoft_keeps
    | with_reducible apply State.updSoft_keeps
    | split

theorem State.mismatched_keeps {u : State} {s : State} {d : GdDom} {i index : Nat} (hs : Keeps u s) : Keeps u ((State.mismatched (s) (d) (i) (index))) := by
  refine Keeps.trans hs ?_
  unfold State.mismatched
  repeat' first
    | with_reducible exact Keeps.refl _
    | lift_lets -underBinder
    | with_reducible apply Keeps.ite
    | with_reducible apply State.logG_keeps
    | with_reducible apply State.softCheck_keeps
    | with_reducible apply State.updSoft_keeps

theorem State.gdArrive_keeps {u : State} {s : State} {d : GdDom} {p i : Nat} {copy : Bool} {fs : List Frame} (hs : Keeps u s) : Keeps u ((State.gdArrive (s) (d) (p) (i) (copy) (fs))) := by
  refine Keeps.trans hs ?_
  unfold State.gdArrive
  repeat' first
    | with_reducible exact Keeps.refl _
    | with_reducible assumption
    | (intro x; first | (refine Keeps.use (x := x) ?_ (fun hx => ?_); rotate_left; clear_value x; rotate_right; subst x) | clear_value x)
    | lift_lets -underBinder
    | with_reducible apply Keeps.ite
    | with_reducible apply State.dupArrive_keeps
    | with_reducible apply State.logG_keeps
    | with_reducible apply State.mirror_keeps
    | with_reducible apply State.mismatched_keeps
    | with_reducible apply State.openSoft_keeps
    | with_reducible apply State.softCheck_keeps
    | with_reducible apply State.updSoft_keeps
    | split

theorem State.gdDownRx_keeps {u : State} {s : State} {d : GdDom} {p : Nat} {launch copy : Bool} {fs : List Frame} (hs : Keeps u s) : Keeps u ((State.gdDownRx (s) (d) (p) (launch) (copy) (fs))) := by
  refine Keeps.trans hs ?_
  unfold State.gdDownRx
  repeat' first
    | with_reducible exact Keeps.refl _
    | with_reducible assumption
    | (intro x; first | (refine Keeps.use (x := x) ?_ (fun hx => ?_); rotate_left; clear_value x; rotate_right; subst x) | clear_value x)
    | lift_lets -underBinder
    | with_reducible apply Keeps.ite
    | with_reducible apply State.journalTurn_keeps
    | with_reducible apply State.logG_keeps
    | with_reducible apply State.openSoft_keeps
    | with_reducible apply State.passTurn_keeps
    | with_reducible apply State.spread_keeps
    | split

end Sys2Proof.Machine
end

