-- ==== Sys2Proof/Laws/FrameBulkOps.lean ====
section
/-! SUPPORT. What the operations of `Sys2Proof.Machine.BulkOps` leave alone, one lemma per operation. -/

namespace Sys2Proof.Machine

open Sys2Proof

set_option linter.unusedVariables false

theorem State.originate_keeps {u : State} {s : State} {kind scope dest : Nat} {domain : BitVec 24} {b : List Byte} {port : Option Nat} (hs : Keeps u s) : Keeps u ((State.originate (s) (kind) (scope) (dest) (domain) (b) (port))) := by
  refine Keeps.trans hs ?_
  unfold State.originate
  repeat' first
    | with_reducible exact Keeps.refl _
    | with_reducible assumption
    | (intro x; first | (refine Keeps.use (x := x) ?_ (fun hx => ?_); rotate_left; clear_value x; rotate_right; subst x) | clear_value x | skip)
    | lift_lets -underBinder
    | with_reducible apply State.sendAll_keeps
    | ((with_reducible apply State.updGd_keeps); focus (intro t; exact ⟨⟨rfl, fun h => h⟩, rfl⟩))
    | with_reducible apply Keeps.foldl

theorem State.imageDown_keeps {u : State} {s : State} {i : Nat} (hs : Keeps u s) : Keeps u ((State.imageDown (s) (i))) := by
  refine Keeps.trans hs ?_
  unfold State.imageDown
  repeat' first
    | with_reducible exact Keeps.refl _
    | with_reducible assumption
    | (intro x; (refine Keeps.use (x := x) ?_ (fun hx => ?_); rotate_left; clear_value x; rotate_right; subst x))
    | lift_lets -underBinder
    | with_reducible apply Keeps.ite
    | with_reducible apply State.originate_keeps
    | ((with_reducible apply State.updGd_keeps); focus (intro t; exact ⟨⟨rfl, fun h => h⟩, rfl⟩))
    | split

theorem State.imageDownOnce_keeps {u : State} {s : State} {i : Nat} (hs : Keeps u s) : Keeps u ((State.imageDownOnce (s) (i))) := by
  refine Keeps.trans hs ?_
  unfold State.imageDownOnce
  repeat' first
    | with_reducible exact Keeps.refl _
    | with_reducible apply Keeps.ite
    | with_reducible apply State.imageDown_keeps

theorem State.gdRefuse_keeps {u : State} {s : State} {r : Refused} (hs : Keeps u s) : Keeps u ((State.gdRefuse (s) (r))) := by
  refine Keeps.trans hs ?_
  unfold State.gdRefuse
  repeat' first
    | with_reducible exact Keeps.refl _
    | (intro x; clear_value x)
    | lift_lets -underBinder
    | with_reducible apply State.logG_keeps
    | ((with_reducible apply State.updGd_keeps); focus (intro t; exact ⟨⟨rfl, fun h => h⟩, rfl⟩))

end Sys2Proof.Machine
end

