-- ==== Sys2Proof/Laws/FrameCensusOps.lean ====
section
/-! SUPPORT. What the operations of `Sys2Proof.Machine.CensusOps` leave alone, one lemma per operation. -/

namespace Sys2Proof.Machine

open Sys2Proof

set_option linter.unusedVariables false

theorem State.updCensus_keeps {u : State} {s : State} {f : Census → Census} (hs : Keeps u s) : Keeps u ((State.updCensus (s) (f))) := by
  refine Keeps.trans hs ?_
  unfold State.updCensus
  repeat' first
    | with_reducible exact Keeps.refl _
    | ((with_reducible apply State.updGd_keeps); focus (intro t; exact ⟨⟨rfl, fun h => h⟩, rfl⟩))

theorem State.gdAnswer_keeps {u : State} {s : State} {f : Frame} {port : Nat} (hs : Keeps u s) : Keeps u ((State.gdAnswer (s) (f) (port))) := by
  refine Keeps.trans hs ?_
  unfold State.gdAnswer
  repeat' first
    | with_reducible exact Keeps.refl _
    | with_reducible assumption
    | (intro x; first | (refine Keeps.use (x := x) ?_ (fun hx => ?_); rotate_left; clear_value x; rotate_right; subst x) | clear_value x | skip)
    | lift_lets -underBinder
    | with_reducible apply Keeps.ite
    | with_reducible apply State.send_keeps
    | with_reducible apply Keeps.foldl
    | split

theorem State.censusStart_keeps {u : State} {s : State} {ports : List Nat} {doms : Option (List (BitVec 24))} {mirror full : Bool} (hs : Keeps u s) : Keeps u ((State.censusStart (s) (ports) (doms) (mirror) (full))) := by
  refine Keeps.trans hs ?_
  unfold State.censusStart
  repeat' first
    | with_reducible exact Keeps.refl _
    | with_reducible assumption
    | (intro x; first | (refine Keeps.use (x := x) ?_ (fun hx => ?_); rotate_left; clear_value x; rotate_right; subst x) | clear_value x | skip)
    | lift_lets -underBinder
    | with_reducible apply State.logG_keeps
    | with_reducible apply State.send_keeps
    | ((with_reducible apply State.updGd_keeps); focus (intro t; first | exact ⟨⟨rfl, fun h => h⟩, rfl⟩ | exact Gd.journalWrite_steady ..))
    | with_reducible apply Keeps.foldl

theorem State.rebuildOne_keeps {u : State} {s : State} {c : Census} {d : GdDom} {index : Nat} {recs : List CensusRec} (hs : Keeps u s) : Keeps u ((State.rebuildOne (s) (c) (d) (index) (recs))) := by
  refine Keeps.trans hs ?_
  unfold State.rebuildOne
  repeat' first
    | with_reducible exact Keeps.refl _
    | with_reducible assumption
    | (intro x; first | (refine Keeps.use (x := x) ?_ (fun hx => ?_); rotate_left; clear_value x; rotate_right; subst x) | (have hf := funext (f := x) (g := x) (fun _ => rfl); clear hf; subst x) | clear_value x)
    | lift_lets -underBinder
    | with_reducible apply Keeps.ite
    | with_reducible apply State.logG_keeps
    | with_reducible apply State.send_keeps
    | with_reducible apply State.updCensus_keeps
    | ((with_reducible apply State.updGd_keeps); focus (intro t; exact ⟨⟨rfl, fun h => h⟩, rfl⟩))
    | split

theorem State.censusRebuild_keeps {u : State} {s : State} {c : Census} (hs : Keeps u s) : Keeps u ((State.censusRebuild (s) (c))) := by
  refine Keeps.trans hs ?_
  unfold State.censusRebuild
  repeat' first
    | with_reducible exact Keeps.refl _
    | with_reducible assumption
    | (intro x; first | (refine Keeps.use (x := x) ?_ (fun hx => ?_); rotate_left; clear_value x; rotate_right; subst x) | skip)
    | lift_lets -underBinder
    | with_reducible apply Keeps.ite
    | with_reducible apply State.rebuildOne_keeps
    | with_reducible apply State.updCensus_keeps
    | ((with_reducible apply State.updGd_keeps); focus (intro t; exact ⟨⟨rfl, fun h => h⟩, rfl⟩))
    | with_reducible apply Keeps.foldl
    | split

theorem State.gdJoinReqs_keeps {u : State} {s : State} (hs : Keeps u s) : Keeps u ((State.gdJoinReqs (s))) := by
  refine Keeps.trans hs ?_
  unfold State.gdJoinReqs
  repeat' first
    | with_reducible exact Keeps.refl _
    | with_reducible assumption
    | (intro x; first | (refine Keeps.use (x := x) ?_ (fun hx => ?_); rotate_left; clear_value x; rotate_right; subst x) | clear_value x | skip)
    | lift_lets -underBinder
    | with_reducible apply State.gdUp_keeps
    | ((with_reducible apply State.updGd_keeps); focus (intro t; exact ⟨⟨rfl, fun h => h⟩, rfl⟩))
    | with_reducible apply Keeps.foldl
    | split

theorem State.censusEnd_keeps {u : State} {s : State} {c : Census} (hs : Keeps u s) : Keeps u ((State.censusEnd (s) (c))) := by
  refine Keeps.trans hs ?_
  unfold State.censusEnd
  repeat' first
    | with_reducible exact Keeps.refl _
    | with_reducible assumption
    | (intro x; first | (refine Keeps.use (x := x) ?_ (fun hx => ?_); rotate_left; clear_value x; rotate_right; subst x) | clear_value x | skip)
    | lift_lets -underBinder
    | with_reducible apply State.gdAnswer_keeps
    | with_reducible apply State.gdJoinReqs_keeps
    | with_reducible apply State.softCheck_keeps
    | ((with_reducible apply State.updGd_keeps); focus (intro t; exact ⟨⟨rfl, fun h => h⟩, rfl⟩))
    | with_reducible apply Keeps.foldl

theorem State.censusAdvance_keeps {u : State} {s : State} (hs : Keeps u s) : Keeps u ((State.censusAdvance (s))) := by
  refine Keeps.trans hs ?_
  unfold State.censusAdvance
  repeat' first
    | with_reducible exact Keeps.refl _
    | with_reducible assumption
    | (intro x; first | (refine Keeps.use (x := x) ?_ (fun hx => ?_); rotate_left; clear_value x; rotate_right; subst x) | clear_value x | skip)
    | lift_lets -underBinder
    | with_reducible apply Keeps.ite
    | with_reducible apply State.censusEnd_keeps
    | with_reducible apply State.censusRebuild_keeps
    | with_reducible apply State.send_keeps
    | with_reducible apply State.updCensus_keeps
    | ((with_reducible apply State.updGd_keeps); focus (intro t; exact ⟨⟨rfl, fun h => h⟩, rfl⟩))
    | with_reducible apply Keeps.foldl
    | split

theorem State.fullCensus_keeps {u : State} {s : State} {doms : Option (List (BitVec 24))} {mirror : Bool} (hs : Keeps u s) : Keeps u ((State.fullCensus (s) (doms) (mirror))) := by
  refine Keeps.trans hs ?_
  unfold State.fullCensus
  repeat' first
    | with_reducible exact Keeps.refl _
    | with_reducible apply State.censusAdvance_keeps
    | with_reducible apply State.censusStart_keeps

theorem State.downPortUp_keeps {u : State} {s : State} {p : Nat} (hs : Keeps u s) : Keeps u ((State.downPortUp (s) (p))) := by
  refine Keeps.trans hs ?_
  unfold State.downPortUp
  repeat' first
    | with_reducible exact Keeps.refl _
    | with_reducible assumption
    | (intro x; first | (refine Keeps.use (x := x) ?_ (fun hx => ?_); rotate_left; clear_value x; rotate_right; subst x) | clear_value x)
    | lift_lets -underBinder
    | with_reducible apply Keeps.ite
    | with_reducible apply State.censusStart_keeps
    | with_reducible apply State.send_keeps
    | ((with_reducible apply State.updGd_keeps); focus (intro t; exact ⟨⟨rfl, fun h => h⟩, rfl⟩))
    | split

theorem State.gdPortUp_keeps {u : State} {s : State} {p : Nat} (hs : Keeps u s) : Keeps u ((State.gdPortUp (s) (p))) := by
  refine Keeps.trans hs ?_
  unfold State.gdPortUp
  repeat' first
    | with_reducible exact Keeps.refl _
    | with_reducible assumption
    | (intro x; (refine Keeps.use (x := x) ?_ (fun hx => ?_); rotate_left; clear_value x; rotate_right; subst x))
    | lift_lets -underBinder
    | with_reducible apply Keeps.ite
    | with_reducible apply State.downPortUp_keeps
    | with_reducible apply State.fullCensus_keeps
    | with_reducible apply State.imageDownOnce_keeps
    | with_reducible apply State.unholdAll_keeps
    | ((with_reducible apply State.updGd_keeps); focus (intro t; exact ⟨⟨rfl, fun h => h⟩, rfl⟩))

end Sys2Proof.Machine
end

