-- ==== Sys2Proof/Laws/FrameHealthOps.lean ====
section
/-! SUPPORT. What the operations of `Sys2Proof.Machine.HealthOps` leave alone, one lemma per operation. -/

namespace Sys2Proof.Machine

open Sys2Proof

set_option linter.unusedVariables false

theorem State.toChild_keeps {u : State} {s : State} {i : Nat} {f : Frame} (hs : Keeps u s) : Keeps u ((State.toChild (s) (i) (f))) := by
  refine Keeps.trans hs ?_
  unfold State.toChild
  repeat' first
    | with_reducible exact Keeps.refl _
    | with_reducible apply State.gdDown_keeps

theorem State.absentFrom_keeps {u : State} {s : State} {tag : BitVec 24} {i : Nat} (hs : Keeps u s) : Keeps u ((State.absentFrom (s) (tag) (i))) := by
  refine Keeps.trans hs ?_
  unfold State.absentFrom
  repeat' first
    | with_reducible exact Keeps.refl _
    | with_reducible assumption
    | (intro x; first | (refine Keeps.use (x := x) ?_ (fun hx => ?_); rotate_left; clear_value x; rotate_right; subst x) | (have hf := funext (f := x) (g := x) (fun _ => rfl); clear hf; subst x) | skip)
    | lift_lets -underBinder
    | with_reducible apply Keeps.ite
    | with_reducible apply State.logG_keeps
    | with_reducible apply State.softCheck_keeps
    | with_reducible apply State.updDom_keeps
    | ((with_reducible apply State.updGd_keeps); focus (intro t; exact ⟨⟨rfl, fun h => h⟩, rfl⟩))
    | with_reducible apply Keeps.foldl
    | split

theorem State.absentAll_keeps {u : State} {s : State} {i : Nat} (hs : Keeps u s) : Keeps u ((State.absentAll (s) (i))) := by
  refine Keeps.trans hs ?_
  unfold State.absentAll
  repeat' first
    | with_reducible exact Keeps.refl _
    | intro x
    | lift_lets -underBinder
    | with_reducible apply State.absentFrom_keeps
    | with_reducible apply Keeps.foldl

theorem State.markAbsent_keeps {u : State} {s : State} {i : Nat} (hs : Keeps u s) : Keeps u ((State.markAbsent (s) (i))) := by
  refine Keeps.trans hs ?_
  unfold State.markAbsent
  repeat' first
    | with_reducible exact Keeps.refl _
    | with_reducible assumption
    | (intro x; (refine Keeps.use (x := x) ?_ (fun hx => ?_); rotate_left; clear_value x; rotate_right; subst x))
    | lift_lets -underBinder
    | with_reducible apply Keeps.ite
    | with_reducible apply State.absentAll_keeps
    | ((with_reducible apply State.updGd_keeps); focus (intro t; exact ⟨⟨rfl, fun h => h⟩, rfl⟩))
    | with_reducible apply State.updLink_keeps

theorem State.updHealth_keeps {u : State} {s : State} {i : Nat} {f : Health → Health} (hs : Keeps u s) : Keeps u ((State.updHealth (s) (i) (f))) := by
  refine Keeps.trans hs ?_
  unfold State.updHealth
  repeat' first
    | with_reducible exact Keeps.refl _
    | ((with_reducible apply State.updGd_keeps); focus (intro t; exact ⟨⟨rfl, fun h => h⟩, rfl⟩))

theorem State.expelAsk_keeps {u : State} {s : State} {i : Nat} {again : Bool} (hs : Keeps u s) : Keeps u ((State.expelAsk (s) (i) (again))) := by
  refine Keeps.trans hs ?_
  unfold State.expelAsk
  repeat' first
    | with_reducible exact Keeps.refl _
    | with_reducible assumption
    | (intro x; first | (refine Keeps.use (x := x) ?_ (fun hx => ?_); rotate_left; clear_value x; rotate_right; subst x) | clear_value x)
    | lift_lets -underBinder
    | with_reducible apply Keeps.ite
    | with_reducible apply State.gdUp_keeps
    | with_reducible apply State.updHealth_keeps

theorem State.healthEvent_keeps {u : State} {s : State} {i ev count : Nat} {f : Frame} (hs : Keeps u s) : Keeps u ((State.healthEvent (s) (i) (ev) (count) (f))) := by
  refine Keeps.trans hs ?_
  unfold State.healthEvent
  repeat' first
    | with_reducible exact Keeps.refl _
    | with_reducible assumption
    | (intro x; first | (refine Keeps.use (x := x) ?_ (fun hx => ?_); rotate_left; clear_value x; rotate_right; subst x) | clear_value x)
    | lift_lets -underBinder
    | with_reducible apply State.expelAsk_keeps
    | with_reducible apply State.updHealth_keeps
    | ((with_reducible apply State.updGd_keeps); focus (intro t; exact Gd.journalWrite_steady ..))

theorem State.healthSeen_keeps {u : State} {s : State} {p ev : Nat} {code : ErrCode} (hs : Keeps u s) : Keeps u ((State.healthSeen (s) (p) (ev) (code))) := by
  refine Keeps.trans hs ?_
  unfold State.healthSeen
  repeat' first
    | with_reducible exact Keeps.refl _
    | (intro x; clear_value x)
    | lift_lets -underBinder
    | with_reducible apply Keeps.ite
    | with_reducible apply State.healthEvent_keeps
    | with_reducible apply State.mirror_keeps

theorem State.readmitted_keeps {u : State} {s : State} {i : Nat} (hs : Keeps u s) : Keeps u ((State.readmitted (s) (i))) := by
  refine Keeps.trans hs ?_
  unfold State.readmitted
  repeat' first
    | with_reducible exact Keeps.refl _
    | with_reducible assumption
    | (intro x; (refine Keeps.use (x := x) ?_ (fun hx => ?_); rotate_left; clear_value x; rotate_right; subst x))
    | lift_lets -underBinder
    | with_reducible apply State.updHealth_keeps
    | ((with_reducible apply State.updGd_keeps); focus (intro t; exact ⟨⟨rfl, fun h => h⟩, rfl⟩))

theorem State.readmit_keeps {u : State} {s : State} {i : Nat} (hs : Keeps u s) : Keeps u ((State.readmit (s) (i))) := by
  refine Keeps.trans hs ?_
  unfold State.readmit
  repeat' first
    | with_reducible exact Keeps.refl _
    | (intro x; clear_value x)
    | lift_lets -underBinder
    | with_reducible apply State.mirror_keeps
    | with_reducible apply State.readmitted_keeps
    | with_reducible apply State.toChild_keeps

theorem State.readmitDue_keeps {u : State} {s : State} (hs : Keeps u s) : Keeps u ((State.readmitDue (s))) := by
  refine Keeps.trans hs ?_
  unfold State.readmitDue
  repeat' first
    | with_reducible exact Keeps.refl _
    | intro x
    | lift_lets -underBinder
    | with_reducible apply State.readmit_keeps
    | with_reducible apply Keeps.foldl

end Sys2Proof.Machine
end

