-- ==== Sys2Proof/Laws/FrameLinkOps.lean ====
section
/-! SUPPORT. What the operations of `Sys2Proof.Machine.LinkOps` leave alone, one lemma per operation. -/

namespace Sys2Proof.Machine

open Sys2Proof

set_option linter.unusedVariables false

theorem State.addTokens_keeps {u : State} {s : State} {l : LinkId} (hs : Keeps u s) : Keeps u ((State.addTokens (s) (l))) := by
  refine Keeps.trans hs ?_
  unfold State.addTokens
  repeat' first
    | with_reducible exact Keeps.refl _
    | (intro x; clear_value x)
    | lift_lets -underBinder
    | with_reducible apply State.updLink_keeps

theorem State.reissueOne_keeps {u : State} {s : State} {l : LinkId} {cls : Nat} {f : Frame} (hs : Keeps u s) : Keeps u ((State.reissueOne (s) (l) (cls) (f))) := by
  refine Keeps.trans hs ?_
  unfold State.reissueOne
  repeat' first
    | with_reducible exact Keeps.refl _
    | (intro x; clear_value x)
    | lift_lets -underBinder
    | with_reducible apply Keeps.ite
    | with_reducible apply State.sendAll_keeps
    | ((with_reducible apply State.updCom_keeps); focus (intro t; exact ⟨rfl, fun h => h⟩))
    | split

theorem State.reissue_keeps {u : State} {s : State} {l : LinkId} (hs : Keeps u s) : Keeps u ((State.reissue (s) (l))) := by
  refine Keeps.trans hs ?_
  unfold State.reissue
  repeat' first
    | with_reducible exact Keeps.refl _
    | with_reducible assumption
    | (intro x; first | (refine Keeps.use (x := x) ?_ (fun hx => ?_); rotate_left; clear_value x; rotate_right; subst x) | clear_value x | skip)
    | lift_lets -underBinder
    | with_reducible apply State.reissueOne_keeps
    | ((with_reducible apply State.updCom_keeps); focus (intro t; exact ⟨rfl, fun h => h⟩))
    | with_reducible apply State.updLink_keeps
    | with_reducible apply Keeps.foldl

theorem State.chainLost_keeps {u : State} {s : State} {l : LinkId} {h : Frame} (hs : Keeps u s) : Keeps u ((State.chainLost (s) (l) (h))) := by
  refine Keeps.trans hs ?_
  unfold State.chainLost
  repeat' first
    | with_reducible exact Keeps.refl _
    | lift_lets -underBinder
    | with_reducible apply Keeps.ite
    | with_reducible apply State.updSoft_keeps
    | split

theorem State.linkDown_keeps {u : State} {s : State} {l : LinkId} {cause : Nat} {off : Bool} (hs : Keeps u s) : Keeps u ((State.linkDown (s) (l) (cause) (off))) := by
  refine Keeps.trans hs ?_
  unfold State.linkDown
  repeat' first
    | with_reducible exact Keeps.refl _
    | with_reducible assumption
    | (intro x; first | (refine Keeps.use (x := x) ?_ (fun hx => ?_); rotate_left; clear_value x; rotate_right; subst x) | clear_value x)
    | lift_lets -underBinder
    | with_reducible apply Keeps.ite
    | with_reducible apply State.chainLost_keeps
    | with_reducible apply State.healthSeen_keeps
    | with_reducible apply State.log_keeps
    | with_reducible apply State.reissue_keeps
    | with_reducible apply State.setEvt_keeps
    | with_reducible apply State.srcInvalid_keeps
    | with_reducible apply State.updLink_keeps
    | split

theorem State.attemptOver_keeps {u : State} {s : State} {l : LinkId} (hs : Keeps u s) : Keeps u ((State.attemptOver (s) (l))) := by
  refine Keeps.trans hs ?_
  unfold State.attemptOver
  repeat' first
    | with_reducible exact Keeps.refl _
    | with_reducible apply State.updLink_keeps

theorem State.enterUp_keeps {u : State} {s : State} {l : LinkId} (hs : Keeps u s) : Keeps u ((State.enterUp (s) (l))) := by
  refine Keeps.trans hs ?_
  unfold State.enterUp
  repeat' first
    | with_reducible exact Keeps.refl _
    | with_reducible assumption
    | (intro x; (refine Keeps.use (x := x) ?_ (fun hx => ?_); rotate_left; clear_value x; rotate_right; subst x))
    | lift_lets -underBinder
    | with_reducible apply Keeps.ite
    | with_reducible apply State.gdPortUp_keeps
    | with_reducible apply State.log_keeps
    | with_reducible apply State.setEvt_keeps
    | with_reducible apply State.srcTrained_keeps
    | ((with_reducible apply State.updCom_keeps); focus (intro t; exact ⟨rfl, fun h => h⟩))
    | with_reducible apply State.updLink_keeps

theorem State.identUp_keeps {u : State} {s : State} {l : LinkId} {rx : Rx} (hs : Keeps u s) : Keeps u ((State.identUp (s) (l) (rx))) := by
  refine Keeps.trans hs ?_
  unfold State.identUp
  repeat' first
    | with_reducible exact Keeps.refl _
    | with_reducible apply Keeps.ite
    | with_reducible apply State.enterUp_keeps

theorem State.uncorrectableSlot_keeps {u : State} {s : State} {l : LinkId} {timeSlot : Bool} (hs : Keeps u s) : Keeps u ((State.uncorrectableSlot (s) (l) (timeSlot))) := by
  refine Keeps.trans hs ?_
  unfold State.uncorrectableSlot
  repeat' first
    | with_reducible exact Keeps.refl _
    | (intro x; clear_value x)
    | lift_lets -underBinder
    | with_reducible apply State.updLink_keeps

theorem State.slotTaken_keeps {u : State} {s : State} {l : LinkId} {rx : Rx} (hs : Keeps u s) : Keeps u ((State.slotTaken (s) (l) (rx))) := by
  refine Keeps.trans hs ?_
  unfold State.slotTaken
  repeat' first
    | with_reducible exact Keeps.refl _
    | (intro x; clear_value x)
    | lift_lets -underBinder
    | with_reducible apply State.updLink_keeps

theorem State.poisonSlot_keeps {u : State} {s : State} {l : LinkId} (hs : Keeps u s) : Keeps u ((State.poisonSlot (s) (l))) := by
  refine Keeps.trans hs ?_
  unfold State.poisonSlot
  repeat' first
    | with_reducible exact Keeps.refl _
    | with_reducible apply State.updLink_keeps

theorem State.breakChain_keeps {u : State} {s : State} {l : LinkId} {f : Frame} (hs : Keeps u s) : Keeps u ((State.breakChain (s) (l) (f))) := by
  refine Keeps.trans hs ?_
  unfold State.breakChain
  repeat' first
    | with_reducible exact Keeps.refl _
    | (intro x; clear_value x)
    | lift_lets -underBinder
    | with_reducible apply Keeps.ite
    | with_reducible apply State.chainLost_keeps
    | with_reducible apply State.malformed_keeps
    | with_reducible apply State.updLink_keeps
    | split

theorem State.receive_keeps {u : State} {s : State} {l : LinkId} {rx : Rx} {type : Nat} (hs : Keeps u s) : Keeps u ((State.receive (s) (l) (rx) (type)).1) := by
  refine Keeps.trans hs ?_
  unfold State.receive
  repeat' first
    | with_reducible exact Keeps.refl _
    | with_reducible assumption
    | (intro x; first | (refine Keeps.use (x := x) ?_ (fun hx => ?_); rotate_left; clear_value x; rotate_right; subst x) | clear_value x)
    | lift_lets -underBinder
    | with_reducible apply State.breakChain_keeps
    | with_reducible apply State.identUp_keeps
    | with_reducible apply State.malformed_keeps
    | with_reducible apply State.poisonSlot_keeps
    | with_reducible apply State.slotTaken_keeps
    | with_reducible apply State.uncorrectableSlot_keeps
    | with_reducible apply State.updLink_keeps
    | split

theorem State.cutThrough_keeps {u : State} {s s0 : State} {l : LinkId} {rx : Rx} (hs : Keeps u s) : Keeps u ((State.cutThrough (s) (s0) (l) (rx))) := by
  refine Keeps.trans hs ?_
  unfold State.cutThrough
  repeat' first
    | with_reducible exact Keeps.refl _
    | lift_lets -underBinder
    | with_reducible apply Keeps.ite
    | ((with_reducible apply State.updCom_keeps); focus (intro t; exact ⟨rfl, fun h => h⟩))

theorem State.chain_keeps {u : State} {s : State} {l : LinkId} {f : Frame} {count : Frame → Nat} (hs : Keeps u s) : Keeps u ((State.chain (s) (l) (f) (count)).1) := by
  refine Keeps.trans hs ?_
  unfold State.chain
  repeat' first
    | with_reducible exact Keeps.refl _
    | (intro x; first | (have hf := funext (f := x) (g := x) (fun _ => rfl); clear hf; subst x) | clear_value x)
    | lift_lets -underBinder
    | with_reducible apply State.chainLost_keeps
    | with_reducible apply State.malformed_keeps
    | with_reducible apply State.updLink_keeps
    | split

end Sys2Proof.Machine
end

