-- ==== Sys2Proof/Laws/FrameServeOps.lean ====
section
/-! SUPPORT. What the operations of `Sys2Proof.Machine.ServeOps` leave alone, one lemma per operation. -/

namespace Sys2Proof.Machine

open Sys2Proof

set_option linter.unusedVariables false

theorem State.setRow_keeps {u : State} {s : State} {r : Nat} {v : Option SeqRow} (hs : Keeps u s) : Keeps u ((State.setRow (s) (r) (v))) := by
  refine Keeps.trans hs ?_
  unfold State.setRow
  repeat' first
    | with_reducible exact Keeps.refl _
    | ((with_reducible apply State.updTsu_keeps); focus (intro t; exact ⟨⟨rfl, fun h => h⟩, rfl⟩))

theorem State.retireRow_keeps {u : State} {s : State} {n r : Nat} {t : Word} {code : ErrCode} (hs : Keeps u s) : Keeps u ((State.retireRow (s) (n) (r) (t) (code))) := by
  refine Keeps.trans hs ?_
  unfold State.retireRow
  repeat' first
    | with_reducible exact Keeps.refl _
    | with_reducible apply State.setRow_keeps
    | with_reducible apply State.writeRecord_keeps
    | split

theorem State.applySeq_keeps {u : State} {s : State} {o : SeqOrder} (hs : Keeps u s) : Keeps u ((State.applySeq (s) (o))) := by
  refine Keeps.trans hs ?_
  unfold State.applySeq
  repeat' first
    | with_reducible exact Keeps.refl _
    | with_reducible assumption
    | (intro x; first | (refine Keeps.use (x := x) ?_ (fun hx => ?_); rotate_left; clear_value x; rotate_right; subst x) | clear_value x)
    | lift_lets -underBinder
    | with_reducible apply Keeps.ite
    | with_reducible apply State.logT_keeps
    | with_reducible apply State.setRow_keeps
    | with_reducible apply State.writeRecord_keeps
    | split

theorem State.buildRow_keeps {u : State} {s : State} {v : Serve} {t : Word} {decode : Bool} {b : Build} {r : Nat} (hs : Keeps u s) : Keeps u ((State.buildRow (s) (v) (t) (decode) (b) (r)).1) := by
  refine Keeps.trans hs ?_
  unfold State.buildRow
  repeat' first
    | with_reducible exact Keeps.refl _
    | (intro x; clear_value x)
    | lift_lets -underBinder
    | with_reducible apply State.setRow_keeps
    | split

theorem State.buildPass_keeps {u : State} {s : State} {n : Nat} {v : Serve} {t : Word} {decode : Bool} {b : Build} (hs : Keeps u s) : Keeps u ((State.buildPass (s) (n) (v) (t) (decode) (b)).1) := by
  refine Keeps.trans hs ?_
  unfold State.buildPass
  repeat' first
    | with_reducible exact Keeps.refl _
    | (intro x; first | clear_value x | skip)
    | lift_lets -underBinder
    | with_reducible apply State.buildRow_keeps
    | with_reducible apply Keeps.foldlFst

theorem State.buildList_keeps {u : State} {s : State} {n step : Nat} {t : Word} {fin : List Byte} {trim : Nat} {turn : BitVec 24 × Nat × BitVec 2} (hs : Keeps u s) : Keeps u ((State.buildList (s) (n) (step) (t) (fin) (trim) (turn))) := by
  refine Keeps.trans hs ?_
  unfold State.buildList
  repeat' first
    | with_reducible exact Keeps.refl _
    | with_reducible assumption
    | (intro x; first | (refine Keeps.use (x := x) ?_ (fun hx => ?_); rotate_left; clear_value x; rotate_right; subst x) | clear_value x | skip)
    | lift_lets -underBinder
    | with_reducible apply Keeps.ite
    | with_reducible apply State.applySeq_keeps
    | with_reducible apply State.buildPass_keeps
    | with_reducible apply State.retireRow_keeps
    | with_reducible apply State.sliceWrite_keeps
    | with_reducible apply State.updSlice_keeps
    | ((with_reducible apply State.updTsu_keeps); focus (intro t; exact ⟨⟨rfl, fun h => h⟩, rfl⟩))
    | with_reducible apply Keeps.foldl

end Sys2Proof.Machine
end

