-- ==== Sys2Proof/Laws/FrameCtxOps.lean ====
section
/-! SUPPORT. What the operations of `Sys2Proof.Machine.CtxOps` leave alone, one lemma per operation. -/

namespace Sys2Proof.Machine

open Sys2Proof

set_option linter.unusedVariables false

theorem State.accept_keeps {u : State} {s : State} {t : Int} {slice : Option Nat} (hs : Keeps u s) : Keeps u ((State.accept (s) (t) (slice)).1) := by
  refine Keeps.trans hs ?_
  unfold State.accept
  repeat' first
    | with_reducible exact Keeps.refl _
    | with_reducible apply State.logT_keeps
    | with_reducible apply State.setEvt_keeps
    | split

theorem State.ctxStart_keeps {u : State} {s : State} {c sentence : Nat} (hs : Keeps u s) : Keeps u ((State.ctxStart (s) (c) (sentence))) := by
  refine Keeps.trans hs ?_
  unfold State.ctxStart
  repeat' first
    | with_reducible exact Keeps.refl _
    | (intro x; clear_value x)
    | lift_lets -underBinder
    | with_reducible apply State.updCtx_keeps
    | split

theorem State.ctxStop_keeps {u : State} {s : State} {c : Nat} (hs : Keeps u s) : Keeps u ((State.ctxStop (s) (c))) := by
  refine Keeps.trans hs ?_
  unfold State.ctxStop
  repeat' first
    | with_reducible exact Keeps.refl _
    | with_reducible apply State.updCtx_keeps

theorem State.ctxGoto_keeps {u : State} {s : State} {c i : Nat} (hs : Keeps u s) : Keeps u ((State.ctxGoto (s) (c) (i))) := by
  refine Keeps.trans hs ?_
  unfold State.ctxGoto
  repeat' first
    | with_reducible exact Keeps.refl _
    | (intro x; clear_value x)
    | lift_lets -underBinder
    | with_reducible apply Keeps.ite
    | with_reducible apply State.ctxStop_keeps
    | with_reducible apply State.logT_keeps
    | with_reducible apply State.updCtx_keeps
    | split

theorem State.ctxNext_keeps {u : State} {s : State} {c : Nat} (hs : Keeps u s) : Keeps u ((State.ctxNext (s) (c))) := by
  refine Keeps.trans hs ?_
  unfold State.ctxNext
  repeat' first
    | with_reducible exact Keeps.refl _
    | with_reducible apply State.ctxGoto_keeps
    | split

theorem State.ctxBlock_keeps {u : State} {s : State} {c : Nat} {b : Block} {topnd : Option Time80} (hs : Keeps u s) : Keeps u ((State.ctxBlock (s) (c) (b) (topnd))) := by
  refine Keeps.trans hs ?_
  unfold State.ctxBlock
  repeat' first
    | with_reducible exact Keeps.refl _
    | with_reducible assumption
    | (intro x; first | (refine Keeps.use (x := x) ?_ (fun hx => ?_); rotate_left; clear_value x; rotate_right; subst x) | clear_value x)
    | lift_lets -underBinder
    | with_reducible apply State.updCtx_keeps
    | ((with_reducible apply State.updTsu_keeps); focus (intro t; exact ⟨⟨rfl, fun h => h⟩, rfl⟩))

theorem State.ctxHalt_keeps {u : State} {s : State} {c : Nat} {code : ErrCode} (hs : Keeps u s) : Keeps u ((State.ctxHalt (s) (c) (code))) := by
  refine Keeps.trans hs ?_
  unfold State.ctxHalt
  repeat' first
    | with_reducible exact Keeps.refl _
    | with_reducible apply State.updCtx_keeps

theorem State.judge_keeps {u : State} {s : State} {n sen slot src : Nat} {k : BitVec 128} (hs : Keeps u s) : Keeps u ((State.judge (s) (n) (sen) (slot) (src) (k)).1) := by
  refine Keeps.trans hs ?_
  unfold State.judge
  repeat' first
    | with_reducible exact Keeps.refl _
    | with_reducible apply State.logT_keeps
    | split

theorem State.markRecord_keeps {u : State} {s : State} {x : Ctx} {k : BitVec 128} {i : Nat} (hs : Keeps u s) : Keeps u ((State.markRecord (s) (x) (k) (i))) := by
  refine Keeps.trans hs ?_
  unfold State.markRecord
  repeat' first
    | with_reducible exact Keeps.refl _
    | (intro x; clear_value x)
    | lift_lets -underBinder
    | with_reducible apply State.writeRecord_keeps

theorem State.branch_keeps {u : State} {s : State} {c : Nat} {x : Ctx} {k : BitVec 128} (hs : Keeps u s) : Keeps u ((State.branch (s) (c) (x) (k))) := by
  refine Keeps.trans hs ?_
  unfold State.branch
  repeat' first
    | with_reducible exact Keeps.refl _
    | with_reducible assumption
    | (intro x; first | (refine Keeps.use (x := x) ?_ (fun hx => ?_); rotate_left; clear_value x; rotate_right; subst x) | clear_value x)
    | lift_lets -underBinder
    | with_reducible apply Keeps.ite
    | with_reducible apply State.ctxGoto_keeps
    | with_reducible apply State.ctxNext_keeps
    | with_reducible apply State.updCtx_keeps

theorem State.endClause_keeps {u : State} {s : State} {c : Nat} {k : BitVec 128} (hs : Keeps u s) : Keeps u ((State.endClause (s) (c) (k))) := by
  refine Keeps.trans hs ?_
  unfold State.endClause
  repeat' first
    | with_reducible exact Keeps.refl _
    | (intro x; clear_value x)
    | lift_lets -underBinder
    | with_reducible apply Keeps.ite
    | with_reducible apply State.ctxStart_keeps
    | with_reducible apply State.ctxStop_keeps

theorem State.fireAlt_keeps {u : State} {s : State} {c : Nat} {x : Ctx} {alt : Nat} (hs : Keeps u s) : Keeps u ((State.fireAlt (s) (c) (x) (alt))) := by
  refine Keeps.trans hs ?_
  unfold State.fireAlt
  repeat' first
    | with_reducible exact Keeps.refl _
    | with_reducible apply Keeps.ite
    | with_reducible apply State.branch_keeps
    | with_reducible apply State.ctxNext_keeps
    | with_reducible apply State.endClause_keeps
    | with_reducible apply State.markRecord_keeps
    | split

end Sys2Proof.Machine
end

