-- ==== Sys2Proof/Laws/FrameRegionOps.lean ====
section
/-! SUPPORT. What the operations of `Sys2Proof.Machine.RegionOps` leave alone, one lemma per operation. -/

namespace Sys2Proof.Machine

open Sys2Proof

set_option linter.unusedVariables false

theorem State.updateLead_keeps {u : State} {s : State} (hs : Keeps u s) : Keeps u ((State.updateLead (s))) := by
  refine Keeps.trans hs ?_
  unfold State.updateLead
  repeat' first
    | with_reducible exact Keeps.refl _
    | (intro x; clear_value x)
    | lift_lets -underBinder
    | with_reducible apply Keeps.ite
    | ((with_reducible apply State.updTsu_keeps); focus (intro t; exact ⟨⟨rfl, fun h => h⟩, rfl⟩))

theorem State.addendWord_keeps {u : State} {s : State} {old : Nat} (hs : Keeps u s) : Keeps u ((State.addendWord (s) (old))) := by
  refine Keeps.trans hs ?_
  unfold State.addendWord
  repeat' first
    | with_reducible exact Keeps.refl _
    | (intro x; first | clear_value x | skip)
    | lift_lets -underBinder
    | with_reducible apply Keeps.ite
    | with_reducible apply State.busSend_keeps
    | with_reducible apply Keeps.foldl

theorem State.wordTaken_keeps {u : State} {s : State} {r : Nat} (hs : Keeps u s) : Keeps u ((State.wordTaken (s) (r))) := by
  refine Keeps.trans hs ?_
  unfold State.wordTaken
  repeat' first
    | with_reducible exact Keeps.refl _
    | with_reducible apply State.updRegion_keeps

theorem State.wordGood_keeps {u : State} {s : State} {r seq : Nat} {act : State → State} (k_act : ∀ x, Keeps x (act x)) (hs : Keeps u s) : Keeps u ((State.wordGood (s) (r) (seq) (act))) := by
  refine Keeps.trans hs ?_
  unfold State.wordGood
  repeat' first
    | with_reducible exact Keeps.refl _
    | with_reducible assumption
    | (intro x; first | (refine Keeps.use (x := x) ?_ (fun hx => ?_); rotate_left; clear_value x; rotate_right; subst x) | clear_value x)
    | lift_lets -underBinder
    | with_reducible apply Keeps.ite
    | with_reducible refine Keeps.trans ?_ (k_act _)
    | with_reducible apply State.updRegion_keeps

end Sys2Proof.Machine
end

