-- ==== Sys2Proof/Laws/FrameTumblerOps.lean ====
section
/-! SUPPORT. What the operations of `Sys2Proof.Machine.TumblerOps` leave alone, one lemma per operation. -/

namespace Sys2Proof.Machine

open Sys2Proof

set_option linter.unusedVariables false

theorem State.sendArrive_keeps {u : State} {s : State} {e : Nat} (hs : Keeps u s) : Keeps u ((State.sendArrive (s) (e))) := by
  refine Keeps.trans hs ?_
  unfold State.sendArrive
  repeat' first
    | with_reducible exact Keeps.refl _
    | (intro x; clear_value x)
    | lift_lets -underBinder
    | with_reducible apply State.tsuUp_keeps
    | split

theorem State.withdrawAt_keeps {u : State} {s : State} {t : Tumbler} {lane : Nat} (hs : Keeps u s) : Keeps u ((State.withdrawAt (s) (t) (lane))) := by
  refine Keeps.trans hs ?_
  unfold State.withdrawAt
  repeat' first
    | with_reducible exact Keeps.refl _
    | (intro x; first | (have hf := funext (f := x) (g := x) (fun _ => rfl); clear hf; subst x) | clear_value x)
    | lift_lets -underBinder
    | ((with_reducible apply State.updCom_keeps); focus (intro t; exact ⟨rfl, fun h => h⟩))
    | with_reducible apply State.updLink_keeps

theorem State.withdrawArrive_keeps {u : State} {s : State} {t : Tumbler} (hs : Keeps u s) : Keeps u ((State.withdrawArrive (s) (t))) := by
  refine Keeps.trans hs ?_
  unfold State.withdrawArrive
  repeat' first
    | with_reducible exact Keeps.refl _
    | with_reducible apply State.withdrawAt_keeps

theorem State.waitRecord_keeps {u : State} {s : State} {n src : Nat} {t : Option Tumbler} {r : Option Result} {gen : BitVec 2} {code : ErrCode} (hs : Keeps u s) : Keeps u ((State.waitRecord (s) (n) (src) (t) (r) (gen) (code))) := by
  refine Keeps.trans hs ?_
  unfold State.waitRecord
  repeat' first
    | with_reducible exact Keeps.refl _
    | (intro x; clear_value x)
    | lift_lets -underBinder
    | with_reducible apply State.writeRecord_keeps

theorem State.ctxResult_keeps {u : State} {s : State} {c e : Nat} {dataOut slot : Nat} (hs : Keeps u s) : Keeps u ((State.ctxResult (s) (c) (e) (dataOut) (slot))) := by
  refine Keeps.trans hs ?_
  unfold State.ctxResult
  repeat' first
    | with_reducible exact Keeps.refl _
    | (intro x; clear_value x)
    | lift_lets -underBinder
    | with_reducible apply Keeps.ite
    | with_reducible apply State.ctxBlock_keeps
    | with_reducible apply State.ctxNext_keeps
    | with_reducible apply State.sliceWrite_keeps
    | split

theorem State.ctxWaitEnds_keeps {u : State} {s : State} {c e : Nat} {gen : BitVec 2} {code : ErrCode} (hs : Keeps u s) : Keeps u ((State.ctxWaitEnds (s) (c) (e) (gen) (code))) := by
  refine Keeps.trans hs ?_
  unfold State.ctxWaitEnds
  repeat' first
    | with_reducible exact Keeps.refl _
    | with_reducible assumption
    | (intro x; (refine Keeps.use (x := x) ?_ (fun hx => ?_); rotate_left; clear_value x; rotate_right; subst x))
    | lift_lets -underBinder
    | with_reducible apply State.ctxNext_keeps
    | with_reducible apply State.logT_keeps
    | with_reducible apply State.waitRecord_keeps
    | split

theorem State.endSoftWait_keeps {u : State} {s : State} {key : Nat} {r : Option Result} {code : ErrCode} (hs : Keeps u s) : Keeps u ((State.endSoftWait (s) (key) (r) (code))) := by
  refine Keeps.trans hs ?_
  unfold State.endSoftWait
  repeat' first
    | with_reducible exact Keeps.refl _
    | with_reducible assumption
    | (intro x; first | (refine Keeps.use (x := x) ?_ (fun hx => ?_); rotate_left; clear_value x; rotate_right; subst x) | clear_value x)
    | lift_lets -underBinder
    | with_reducible apply Keeps.ite
    | with_reducible apply State.logT_keeps
    | with_reducible apply State.waitRecord_keeps
    | ((with_reducible apply State.updTsu_keeps); focus (intro t; exact ⟨⟨rfl, fun h => h⟩, rfl⟩))
    | split

theorem State.dropStaged_keeps {u : State} {s : State} {id : Nat} (hs : Keeps u s) : Keeps u ((State.dropStaged (s) (id))) := by
  refine Keeps.trans hs ?_
  unfold State.dropStaged
  repeat' first
    | with_reducible exact Keeps.refl _
    | with_reducible assumption
    | (intro x; first | (refine Keeps.use (x := x) ?_ (fun hx => ?_); rotate_left; clear_value x; rotate_right; subst x) | clear_value x | skip)
    | lift_lets -underBinder
    | with_reducible apply State.freeStaging_keeps
    | ((with_reducible apply State.updTsu_keeps); focus (intro t; exact ⟨⟨rfl, fun h => h⟩, rfl⟩))
    | with_reducible apply Keeps.foldl
    | split

theorem State.launchDropped_keeps {u : State} {s : State} {id : Nat} {code : ErrCode} {detail : Nat} {resume : Bool} {late : Bool} (hs : Keeps u s) : Keeps u ((State.launchDropped (s) (id) (code) (detail) (resume) (late))) := by
  refine Keeps.trans hs ?_
  unfold State.launchDropped
  repeat' first
    | with_reducible exact Keeps.refl _
    | with_reducible assumption
    | (intro x; first | (refine Keeps.use (x := x) ?_ (fun hx => ?_); rotate_left; clear_value x; rotate_right; subst x) | clear_value x)
    | lift_lets -underBinder
    | with_reducible apply Keeps.ite
    | with_reducible apply State.ctxNext_keeps
    | with_reducible apply State.dropStaged_keeps
    | with_reducible apply State.logT_keeps
    | with_reducible apply State.writeRecord_keeps
    | split

theorem State.margin_keeps {u : State} {s : State} {t : Time80} (hs : Keeps u s) : Keeps u ((State.margin (s) (t))) := by
  refine Keeps.trans hs ?_
  unfold State.margin
  repeat' first
    | with_reducible exact Keeps.refl _
    | (intro x; clear_value x)
    | lift_lets -underBinder
    | ((with_reducible apply State.updTsu_keeps); focus (intro t; exact ⟨⟨rfl, fun h => h⟩, rfl⟩))

theorem State.armLaunch_keeps {u : State} {s : State} {id : Nat} {useAlt : Bool} {r : Result} {t : Time80} (hs : Keeps u s) : Keeps u ((State.armLaunch (s) (id) (useAlt) (r) (t))) := by
  refine Keeps.trans hs ?_
  unfold State.armLaunch
  repeat' first
    | with_reducible exact Keeps.refl _
    | with_reducible assumption
    | (intro x; first | (refine Keeps.use (x := x) ?_ (fun hx => ?_); rotate_left; clear_value x; rotate_right; subst x) | clear_value x | skip)
    | lift_lets -underBinder
    | with_reducible apply Keeps.ite
    | with_reducible apply State.ctxNext_keeps
    | with_reducible apply State.freeStaging_keeps
    | with_reducible apply State.launchDropped_keeps
    | with_reducible apply State.margin_keeps
    | with_reducible apply State.updCtx_keeps
    | with_reducible apply State.updPort_keeps
    | ((with_reducible apply State.updTsu_keeps); focus (intro t; exact ⟨⟨rfl, fun h => h⟩, rfl⟩))
    | with_reducible apply Keeps.foldl
    | split

theorem State.launchTurn_keeps {u : State} {s : State} {id : Nat} (hs : Keeps u s) : Keeps u ((State.launchTurn (s) (id))) := by
  refine Keeps.trans hs ?_
  unfold State.launchTurn
  repeat' first
    | with_reducible exact Keeps.refl _
    | with_reducible assumption
    | (intro x; first | (refine Keeps.use (x := x.1) ?_ (fun hx => ?_); rotate_left; clear_value x; rotate_right; subst x) | clear_value x)
    | lift_lets -underBinder
    | with_reducible apply Keeps.ite
    | with_reducible apply State.armLaunch_keeps
    | with_reducible apply State.dropStaged_keeps
    | with_reducible apply State.fireAlt_keeps
    | with_reducible apply State.judge_keeps
    | with_reducible apply State.launchDropped_keeps
    | ((with_reducible apply State.updTsu_keeps); focus (intro t; exact ⟨⟨rfl, fun h => h⟩, rfl⟩))
    | split

theorem State.boost_keeps {u : State} {s : State} {n e : Nat} {d : Time80} (hs : Keeps u s) : Keeps u ((State.boost (s) (n) (e) (d))) := by
  refine Keeps.trans hs ?_
  unfold State.boost
  repeat' first
    | with_reducible exact Keeps.refl _
    | (intro x; first | clear_value x | skip)
    | lift_lets -underBinder
    | with_reducible apply Keeps.ite
    | with_reducible apply State.logT_keeps
    | with_reducible apply State.present_keeps
    | with_reducible apply State.updPort_keeps
    | with_reducible apply Keeps.foldl
    | split

theorem State.lendPort_keeps {u : State} {s : State} {p e : Nat} {g : BitVec 2} (hs : Keeps u s) : Keeps u ((State.lendPort (s) (p) (e) (g))) := by
  refine Keeps.trans hs ?_
  unfold State.lendPort
  repeat' first
    | with_reducible exact Keeps.refl _
    | (intro x; clear_value x)
    | lift_lets -underBinder
    | with_reducible apply Keeps.ite
    | with_reducible apply State.updPort_keeps
    | ((with_reducible apply State.updTsu_keeps); focus (intro t; exact ⟨⟨rfl, fun h => h⟩, rfl⟩))
    | split

theorem State.startsWaiting_keeps {u s before : State} {p : Nat} (hs : Keeps u s) : Keeps u (s.startsWaiting before p) := by
  unfold State.startsWaiting
  split
  · exact hs
  · exact Keeps.ite hs (State.lendPort_keeps hs)

theorem State.reclaimFor_keeps {u : State} {s : State} {e : Nat} (hs : Keeps u s) : Keeps u ((State.reclaimFor (s) (e))) := by
  refine Keeps.trans hs ?_
  unfold State.reclaimFor
  repeat' first
    | with_reducible exact Keeps.refl _
    | intro x
    | lift_lets -underBinder
    | with_reducible apply State.reclaim_keeps
    | with_reducible apply Keeps.foldl

theorem State.carryUpdate_keeps {u : State} {s : State} {e : Nat} (hs : Keeps u s) : Keeps u ((State.carryUpdate (s) (e))) := by
  refine Keeps.trans hs ?_
  unfold State.carryUpdate
  repeat' first
    | with_reducible exact Keeps.refl _
    | (intro x; first | (have hf := funext (f := x) (g := x) (fun _ => rfl); clear hf; subst x) | clear_value x)
    | lift_lets -underBinder
    | with_reducible apply Keeps.ite
    | with_reducible apply State.logT_keeps
    | with_reducible apply State.updTumb_keeps
    | split

theorem State.stepTurn_keeps {u : State} {s : State} {t : Tumbler} {r : Result} (hs : Keeps u s) : Keeps u ((State.stepTurn (s) (t) (r))) := by
  refine Keeps.trans hs ?_
  unfold State.stepTurn
  repeat' first
    | with_reducible exact Keeps.refl _
    | with_reducible assumption
    | (intro x; first | (refine Keeps.use (x := x) ?_ (fun hx => ?_); rotate_left; clear_value x; rotate_right; subst x) | clear_value x | skip)
    | lift_lets -underBinder
    | with_reducible apply Keeps.ite
    | with_reducible apply State.healthSend_keeps
    | with_reducible apply State.logT_keeps
    | with_reducible apply State.updBinding_keeps
    | split

theorem State.serveTurn_keeps {u : State} {s : State} {t : Tumbler} {r : Result} (hs : Keeps u s) : Keeps u ((State.serveTurn (s) (t) (r))) := by
  refine Keeps.trans hs ?_
  unfold State.serveTurn
  repeat' first
    | with_reducible exact Keeps.refl _
    | with_reducible assumption
    | (intro x; first | (refine Keeps.use (x := x) ?_ (fun hx => ?_); rotate_left; clear_value x; rotate_right; subst x) | (have hf := funext (f := x) (g := x) (fun _ => rfl); clear hf; subst x) | clear_value x)
    | lift_lets -underBinder
    | with_reducible apply Keeps.ite
    | with_reducible apply State.buildList_keeps
    | with_reducible apply State.updSlice_keeps

theorem State.emptyOpens_keeps {u : State} {s : State} {e : Nat} (hs : Keeps u s) : Keeps u ((State.emptyOpens (s) (e))) := by
  refine Keeps.trans hs ?_
  unfold State.emptyOpens
  repeat' first
    | with_reducible exact Keeps.refl _
    | with_reducible assumption
    | (intro x; (refine Keeps.use (x := x) ?_ (fun hx => ?_); rotate_left; clear_value x; rotate_right; subst x))
    | lift_lets -underBinder
    | with_reducible apply Keeps.ite
    | with_reducible apply State.sendArrive_keeps
    | with_reducible apply State.updTumb_keeps
    | split

theorem State.turnApply_keeps {u : State} {s : State} {e : Nat} {r : Result} (hs : Keeps u s) : Keeps u ((State.turnApply (s) (e) (r))) := by
  refine Keeps.trans hs ?_
  unfold State.turnApply
  repeat' first
    | with_reducible exact Keeps.refl _
    | with_reducible assumption
    | (intro x; first | (refine Keeps.use (x := x) ?_ (fun hx => ?_); rotate_left; clear_value x; rotate_right; subst x) | clear_value x | skip)
    | lift_lets -underBinder
    | with_reducible apply State.carryUpdate_keeps
    | with_reducible apply State.ctxResult_keeps
    | with_reducible apply State.emptyOpens_keeps
    | with_reducible apply State.endSoftWait_keeps
    | with_reducible apply State.launchTurn_keeps
    | with_reducible apply State.reclaimFor_keeps
    | with_reducible apply State.serveTurn_keeps
    | with_reducible apply State.stepTurn_keeps
    | with_reducible apply State.updTumb_keeps
    | ((with_reducible apply State.updTsu_keeps); focus (intro t; exact ⟨⟨rfl, fun h => h⟩, rfl⟩))
    | with_reducible apply Keeps.foldl
    | split

theorem State.turnLocal_keeps {u : State} {s : State} {e : Nat} (hs : Keeps u s) : Keeps u ((State.turnLocal (s) (e))) := by
  refine Keeps.trans hs ?_
  unfold State.turnLocal
  repeat' first
    | with_reducible exact Keeps.refl _
    | (intro x; clear_value x)
    | lift_lets -underBinder
    | with_reducible apply State.turnApply_keeps
    | split

theorem State.shareComplete_keeps {u : State} {s : State} {e : Nat} (hs : Keeps u s) : Keeps u ((State.shareComplete (s) (e))) := by
  refine Keeps.trans hs ?_
  unfold State.shareComplete
  repeat' first
    | with_reducible exact Keeps.refl _
    | with_reducible assumption
    | (intro x; (refine Keeps.use (x := x) ?_ (fun hx => ?_); rotate_left; clear_value x; rotate_right; subst x))
    | lift_lets -underBinder
    | with_reducible apply Keeps.ite
    | with_reducible apply State.sendArrive_keeps
    | with_reducible apply State.turnLocal_keeps
    | with_reducible apply State.updTumb_keeps
    | split

theorem State.arvCount_keeps {u : State} {s : State} {e src slot weight : Nat} {payload : List Byte} {early : Bool} (hs : Keeps u s) : Keeps u ((State.arvCount (s) (e) (src) (slot) (weight) (payload) (early))) := by
  refine Keeps.trans hs ?_
  unfold State.arvCount
  repeat' first
    | with_reducible exact Keeps.refl _
    | with_reducible assumption
    | (intro x; first | (refine Keeps.use (x := x) ?_ (fun hx => ?_); rotate_left; clear_value x; rotate_right; subst x) | clear_value x)
    | lift_lets -underBinder
    | with_reducible apply Keeps.ite
    | with_reducible apply State.logT_keeps
    | with_reducible apply State.shareComplete_keeps
    | with_reducible apply State.updTumb_keeps
    | split

theorem State.arrive_keeps {u : State} {s : State} {e src slot weight n : Nat} {payload : List Byte} (hs : Keeps u s) : Keeps u ((State.arrive (s) (e) (src) (slot) (weight) (n) (payload)).1) := by
  refine Keeps.trans hs ?_
  unfold State.arrive
  repeat' first
    | with_reducible exact Keeps.refl _
    | (intro x; clear_value x)
    | lift_lets -underBinder
    | with_reducible apply State.arvCount_keeps
    | with_reducible apply State.logT_keeps
    | split

theorem State.endPend_keeps {u : State} {s : State} {p e slot : Nat} (hs : Keeps u s) : Keeps u ((State.endPend (s) (p) (e) (slot))) := by
  refine Keeps.trans hs ?_
  unfold State.endPend
  repeat' first
    | with_reducible exact Keeps.refl _
    | with_reducible apply State.updPort_keeps

theorem State.portRecord_keeps {u : State} {s : State} {p : Nat} {n sgen : Nat} {e : Nat} {code : ErrCode} {detail : Nat} (hs : Keeps u s) : Keeps u ((State.portRecord (s) (p) (n) (sgen) (e) (code) (detail))) := by
  refine Keeps.trans hs ?_
  unfold State.portRecord
  repeat' first
    | with_reducible exact Keeps.refl _
    | (intro x; clear_value x)
    | lift_lets -underBinder
    | with_reducible apply State.writeRecord_keeps

theorem State.engineDone_keeps {u : State} {s : State} {p n sgen : Nat} (hs : Keeps u s) : Keeps u ((State.engineDone (s) (p) (n) (sgen))) := by
  refine Keeps.trans hs ?_
  unfold State.engineDone
  repeat' first
    | with_reducible exact Keeps.refl _
    | with_reducible apply State.updPort_keeps

theorem State.portArrive_keeps {u : State} {s : State} {a : PortArv} (hs : Keeps u s) : Keeps u ((State.portArrive (s) (a))) := by
  refine Keeps.trans hs ?_
  unfold State.portArrive
  repeat' first
    | with_reducible exact Keeps.refl _
    | with_reducible assumption
    | (intro x; first | (refine Keeps.use (x := x) ?_ (fun hx => ?_); rotate_left; clear_value x; rotate_right; subst x) | (have hf := funext (f := x) (g := x) (fun _ => rfl); clear hf; subst x) | clear_value x)
    | lift_lets -underBinder
    | with_reducible apply Keeps.ite
    | with_reducible apply State.arrive_keeps
    | with_reducible apply State.endPend_keeps
    | with_reducible apply State.engineDone_keeps
    | with_reducible apply State.logT_keeps
    | with_reducible apply State.portRecord_keeps
    | with_reducible apply State.updPort_keeps
    | with_reducible apply State.updTumb_keeps
    | split
    | with_reducible refine Keeps.ofPair (by with_reducible assumption) ?_

theorem State.arriveRecord_keeps {u : State} {s : State} {c e : Nat} {code : ErrCode} (hs : Keeps u s) : Keeps u ((State.arriveRecord (s) (c) (e) (code))) := by
  refine Keeps.trans hs ?_
  unfold State.arriveRecord
  repeat' first
    | with_reducible exact Keeps.refl _
    | with_reducible apply State.waitRecord_keeps
    | split

theorem State.ctxArrived_keeps {u : State} {s : State} {c e slot : Nat} {o : ArvOutcome} (hs : Keeps u s) : Keeps u ((State.ctxArrived (s) (c) (e) (slot) (o))) := by
  refine Keeps.trans hs ?_
  unfold State.ctxArrived
  repeat' first
    | with_reducible exact Keeps.refl _
    | with_reducible assumption
    | (intro x; first | (refine Keeps.use (x := x) ?_ (fun hx => ?_); rotate_left; clear_value x; rotate_right; subst x) | clear_value x)
    | lift_lets -underBinder
    | with_reducible apply Keeps.ite
    | with_reducible apply State.arriveRecord_keeps
    | with_reducible apply State.boost_keeps
    | with_reducible apply State.ctxBlock_keeps
    | with_reducible apply State.ctxNext_keeps
    | with_reducible apply State.ctxResult_keeps
    | with_reducible apply State.ctxWaitEnds_keeps
    | with_reducible apply State.updCtx_keeps
    | split

theorem State.releaseHeld_keeps {u : State} {s : State} {e : Nat} (hs : Keeps u s) : Keeps u ((State.releaseHeld (s) (e))) := by
  refine Keeps.trans hs ?_
  unfold State.releaseHeld
  repeat' first
    | with_reducible exact Keeps.refl _
    | with_reducible assumption
    | (intro x; first | (refine Keeps.use (x := x) ?_ (fun hx => ?_); rotate_left; clear_value x; rotate_right; subst x) | clear_value x | skip)
    | lift_lets -underBinder
    | with_reducible apply State.arrive_keeps
    | with_reducible apply State.ctxArrived_keeps
    | with_reducible apply State.endPend_keeps
    | with_reducible apply State.engineDone_keeps
    | with_reducible apply State.portRecord_keeps
    | with_reducible apply State.shareComplete_keeps
    | with_reducible apply State.updPort_keeps
    | with_reducible apply State.updTumb_keeps
    | with_reducible apply Keeps.foldl
    | split
    | with_reducible refine Keeps.ofPair (by with_reducible assumption) ?_

theorem State.discardHeld_keeps {u : State} {s : State} {e : Nat} {code : ErrCode} (hs : Keeps u s) : Keeps u ((State.discardHeld (s) (e) (code))) := by
  refine Keeps.trans hs ?_
  unfold State.discardHeld
  repeat' first
    | with_reducible exact Keeps.refl _
    | with_reducible assumption
    | (intro x; first | (refine Keeps.use (x := x) ?_ (fun hx => ?_); rotate_left; clear_value x; rotate_right; subst x) | skip)
    | lift_lets -underBinder
    | with_reducible apply Keeps.ite
    | with_reducible apply State.arriveRecord_keeps
    | with_reducible apply State.ctxNext_keeps
    | with_reducible apply State.endPend_keeps
    | with_reducible apply State.engineDone_keeps
    | with_reducible apply State.logT_keeps
    | with_reducible apply State.portRecord_keeps
    | with_reducible apply State.updPort_keeps
    | with_reducible apply State.updTumb_keeps
    | with_reducible apply Keeps.foldl
    | split

theorem State.failWaiters_keeps {u : State} {s : State} {e : Nat} {code : ErrCode} (hs : Keeps u s) : Keeps u ((State.failWaiters (s) (e) (code))) := by
  refine Keeps.trans hs ?_
  unfold State.failWaiters
  repeat' first
    | with_reducible exact Keeps.refl _
    | with_reducible assumption
    | (intro x; first | (refine Keeps.use (x := x) ?_ (fun hx => ?_); rotate_left; clear_value x; rotate_right; subst x) | skip)
    | lift_lets -underBinder
    | with_reducible apply State.ctxWaitEnds_keeps
    | with_reducible apply State.endSoftWait_keeps
    | with_reducible apply State.launchDropped_keeps
    | with_reducible apply Keeps.foldl

theorem State.freeTumb_keeps {u : State} {s : State} {e : Nat} (hs : Keeps u s) : Keeps u ((State.freeTumb (s) (e))) := by
  refine Keeps.trans hs ?_
  unfold State.freeTumb
  repeat' first
    | with_reducible exact Keeps.refl _
    | lift_lets -underBinder
    | with_reducible apply Keeps.ite
    | ((with_reducible apply State.updTsu_keeps); focus (intro t; exact ⟨⟨rfl, fun h => h⟩, rfl⟩))
    | split

theorem State.closeTumb_keeps {u : State} {s : State} {e : Nat} (hs : Keeps u s) : Keeps u ((State.closeTumb (s) (e))) := by
  refine Keeps.trans hs ?_
  unfold State.closeTumb
  repeat' first
    | with_reducible exact Keeps.refl _
    | with_reducible assumption
    | (intro x; (refine Keeps.use (x := x) ?_ (fun hx => ?_); rotate_left; clear_value x; rotate_right; subst x))
    | lift_lets -underBinder
    | with_reducible apply State.discardHeld_keeps
    | with_reducible apply State.failWaiters_keeps
    | with_reducible apply State.freeTumb_keeps
    | with_reducible apply State.updTumb_keeps
    | ((with_reducible apply State.updTsu_keeps); focus (intro t; exact ⟨⟨rfl, fun h => h⟩, rfl⟩))
    | split

theorem State.createTumb_keeps {u : State} {s : State} {n : Nat} {tag : BitVec 24} {d : TumbDesc} {fromImage : Bool} (hs : Keeps u s) : Keeps u ((State.createTumb (s) (n) (tag) (d) (fromImage))) := by
  refine Keeps.trans hs ?_
  unfold State.createTumb
  repeat' first
    | with_reducible exact Keeps.refl _
    | with_reducible assumption
    | (intro x; first | (refine Keeps.use (x := x) ?_ (fun hx => ?_); rotate_left; clear_value x; rotate_right; subst x) | clear_value x)
    | lift_lets -underBinder
    | with_reducible apply Keeps.ite
    | with_reducible apply State.emptyOpens_keeps
    | ((with_reducible apply State.updTsu_keeps); focus (intro t; exact ⟨⟨rfl, fun h => h⟩, rfl⟩))
    | split

theorem State.portReset_keeps {u : State} {s : State} {p : Nat} (hs : Keeps u s) : Keeps u ((State.portReset (s) (p))) := by
  refine Keeps.trans hs ?_
  unfold State.portReset
  repeat' first
    | with_reducible exact Keeps.refl _
    | with_reducible assumption
    | (intro x; first | (refine Keeps.use (x := x) ?_ (fun hx => ?_); rotate_left; clear_value x; rotate_right; subst x) | clear_value x | skip)
    | lift_lets -underBinder
    | with_reducible apply Keeps.ite
    | with_reducible apply State.arvCount_keeps
    | with_reducible apply State.portRecord_keeps
    | with_reducible apply State.updPort_keeps
    | with_reducible apply State.updTumb_keeps
    | ((with_reducible apply State.updTsu_keeps); focus (intro t; exact ⟨⟨rfl, fun h => h⟩, rfl⟩))
    | with_reducible apply Keeps.foldl
    | split

theorem State.fenceTaken_keeps {u : State} {s : State} {p : Nat} {hung : Bool} (hs : Keeps u s) : Keeps u ((State.fenceTaken (s) (p) (hung))) := by
  refine Keeps.trans hs ?_
  unfold State.fenceTaken
  repeat' first
    | with_reducible exact Keeps.refl _
    | with_reducible assumption
    | (intro x; first | (refine Keeps.use (x := x) ?_ (fun hx => ?_); rotate_left; clear_value x; rotate_right; subst x) | clear_value x)
    | lift_lets -underBinder
    | with_reducible apply Keeps.ite
    | with_reducible apply State.healthSend_keeps
    | with_reducible apply State.logT_keeps
    | with_reducible apply State.noteCode_keeps
    | with_reducible apply State.portReset_keeps
    | with_reducible apply State.updPort_keeps
    | with_reducible apply State.writeRecord_keeps
    | with_reducible apply State.updRegion_keeps
    | split

end Sys2Proof.Machine
end

