-- ==== Sys2Proof/Laws/FrameTumblers.lean ====
section
/-! SUPPORT. What the operations of `Sys2Proof.Machine.Tumblers` leave alone, one lemma per operation. -/

namespace Sys2Proof.Machine

open Sys2Proof

set_option linter.unusedVariables false

theorem State.spGuard_keeps {u : State} {s : State} {n off : Nat} {f : State → State} (k_f : ∀ x, Keeps x (f x)) (hs : Keeps u s) : Keeps u ((State.spGuard (s) (n) (off) (f))) := by
  refine Keeps.trans hs ?_
  unfold State.spGuard
  repeat' first
    | with_reducible exact Keeps.refl _
    | lift_lets -underBinder
    | with_reducible apply Keeps.ite
    | with_reducible apply State.logT_keeps
    | with_reducible refine Keeps.trans ?_ (k_f _)
    | ((with_reducible apply State.updCom_keeps); focus (intro t; exact Common.accessErr_steady ..))
    | split

theorem State.tumblerCreate_keeps {u : State} {s : State} {n binding : Nat} (hs : Keeps u s) : Keeps u ((State.tumblerCreate (s) (n) (binding))) := by
  refine Keeps.trans hs ?_
  unfold State.tumblerCreate
  repeat' first
    | with_reducible exact Keeps.refl _
    | (intro x; first | clear_value x | skip)
    | lift_lets -underBinder
    | with_reducible apply State.createTumb_keeps
    | with_reducible apply State.spCode_keeps
    | with_reducible apply State.spGuard_keeps
    | split

theorem execTumblerCreate_keeps {u : State} {slice binding : Nat} {s : State} (hs : Keeps u s) : Keeps u ((State.after (s) (execTumblerCreate (slice) (binding) (s)))) := by
  refine Keeps.trans hs ?_
  unfold execTumblerCreate
  rw [State.after_next]
  repeat' first
    | with_reducible exact Keeps.refl _
    | with_reducible apply State.tumblerCreate_keeps

theorem State.tumblerClose_keeps {u : State} {s : State} {n binding : Nat} (hs : Keeps u s) : Keeps u ((State.tumblerClose (s) (n) (binding))) := by
  refine Keeps.trans hs ?_
  unfold State.tumblerClose
  repeat' first
    | with_reducible exact Keeps.refl _
    | (intro x; first | clear_value x | skip)
    | lift_lets -underBinder
    | with_reducible apply State.closeTumb_keeps
    | with_reducible apply State.spCode_keeps
    | with_reducible apply State.spGuard_keeps
    | split

theorem execTumblerClose_keeps {u : State} {slice binding : Nat} {s : State} (hs : Keeps u s) : Keeps u ((State.after (s) (execTumblerClose (slice) (binding) (s)))) := by
  refine Keeps.trans hs ?_
  unfold execTumblerClose
  rw [State.after_next]
  repeat' first
    | with_reducible exact Keeps.refl _
    | with_reducible apply State.tumblerClose_keeps

theorem execTumblerFree_keeps {u : State} {entry : Nat} {s : State} (hs : Keeps u s) : Keeps u ((State.after (s) (execTumblerFree (entry) (s)))) := by
  refine Keeps.trans hs ?_
  unfold execTumblerFree
  rw [State.after_next]
  repeat' first
    | with_reducible exact Keeps.refl _
    | with_reducible apply State.freeTumb_keeps

theorem execPortArrival_keeps {u : State} {a : PortArv} {s : State} (hs : Keeps u s) : Keeps u ((State.after (s) (execPortArrival (a) (s)))) := by
  refine Keeps.trans hs ?_
  unfold execPortArrival
  rw [State.after_next]
  repeat' first
    | with_reducible exact Keeps.refl _
    | with_reducible apply Keeps.ite
    | with_reducible apply State.portArrive_keeps
    | with_reducible apply State.startsWaiting_keeps

theorem State.softArrive_keeps {u : State} {s : State} {n e : Nat} {payload : List Byte} (hs : Keeps u s) : Keeps u ((State.softArrive (s) (n) (e) (payload))) := by
  refine Keeps.trans hs ?_
  unfold State.softArrive
  repeat' first
    | with_reducible exact Keeps.refl _
    | with_reducible assumption
    | (intro x; first | (refine Keeps.use (x := x) ?_ (fun hx => ?_); rotate_left; clear_value x; rotate_right; subst x) | clear_value x)
    | lift_lets -underBinder
    | with_reducible apply State.arrive_keeps
    | with_reducible apply State.spCode_keeps
    | with_reducible apply State.updSlice_keeps
    | split
    | with_reducible refine Keeps.ofPair (by with_reducible assumption) ?_

theorem State.softwareArrive_keeps {u : State} {s : State} {n : Nat} (hs : Keeps u s) : Keeps u ((State.softwareArrive (s) (n))) := by
  refine Keeps.trans hs ?_
  unfold State.softwareArrive
  repeat' first
    | with_reducible exact Keeps.refl _
    | (intro x; first | clear_value x | skip)
    | lift_lets -underBinder
    | with_reducible apply Keeps.ite
    | with_reducible apply State.nwRead_keeps
    | with_reducible apply State.softArrive_keeps
    | with_reducible apply State.spCode_keeps
    | with_reducible apply State.spGuard_keeps
    | with_reducible apply State.updSlice_keeps
    | split

theorem execSoftwareArrive_keeps {u : State} {slice : Nat} {s : State} (hs : Keeps u s) : Keeps u ((State.after (s) (execSoftwareArrive (slice) (s)))) := by
  refine Keeps.trans hs ?_
  unfold execSoftwareArrive
  rw [State.after_next]
  repeat' first
    | with_reducible exact Keeps.refl _
    | with_reducible apply State.softwareArrive_keeps

theorem execHeldArrivalRelease_keeps {u : State} {entry : Nat} {s : State} (hs : Keeps u s) : Keeps u ((State.after (s) (execHeldArrivalRelease (entry) (s)))) := by
  refine Keeps.trans hs ?_
  unfold execHeldArrivalRelease
  rw [State.after_next]
  repeat' first
    | with_reducible exact Keeps.refl _
    | with_reducible apply Keeps.ite
    | with_reducible apply State.releaseHeld_keeps

theorem State.acceptT_keeps {u : State} {s : State} {far : Bool} {f : Frame} {n src : Nat} (hs : Keeps u s) : Keeps u ((State.acceptT (s) (far) (f) (n) (src)).1) := by
  refine Keeps.trans hs ?_
  unfold State.acceptT
  repeat' first
    | with_reducible exact Keeps.refl _
    | (intro x; clear_value x)
    | lift_lets -underBinder
    | with_reducible apply State.accept_keeps
    | with_reducible apply State.logT_keeps
    | split
    | with_reducible refine Keeps.ofPair (by with_reducible assumption) ?_

theorem State.downResult_keeps {u : State} {s : State} {launch short : Bool} {f : Frame} {n src : Nat} (hs : Keeps u s) : Keeps u ((State.downResult (s) (launch) (short) (f) (n) (src)).1) := by
  refine Keeps.trans hs ?_
  unfold State.downResult
  repeat' first
    | with_reducible exact Keeps.refl _
    | with_reducible assumption
    | (intro x; first | (refine Keeps.use (x := x.1) ?_ (fun hx => ?_); rotate_left; clear_value x; rotate_right; subst x) | clear_value x)
    | lift_lets -underBinder
    | with_reducible apply State.acceptT_keeps
    | split

theorem State.markStale_keeps {u : State} {s : State} {e : Nat} {t : Tumbler} (hs : Keeps u s) : Keeps u ((State.markStale (s) (e) (t))) := by
  refine Keeps.trans hs ?_
  unfold State.markStale
  repeat' first
    | with_reducible exact Keeps.refl _
    | ((with_reducible apply State.updTsu_keeps); focus (intro t; exact ⟨⟨rfl, fun h => h⟩, rfl⟩))

theorem State.enterShadow_keeps {u : State} {s : State} {e : Nat} {m : MState} (hs : Keeps u s) : Keeps u ((State.enterShadow (s) (e) (m))) := by
  refine Keeps.trans hs ?_
  unfold State.enterShadow
  repeat' first
    | with_reducible exact Keeps.refl _
    | with_reducible apply State.updTumb_keeps

theorem State.adopt_keeps {u : State} {s : State} {e src : Nat} {t : Tumbler} {r : Result} (hs : Keeps u s) : Keeps u ((State.adopt (s) (e) (src) (t) (r))) := by
  refine Keeps.trans hs ?_
  unfold State.adopt
  repeat' first
    | with_reducible exact Keeps.refl _
    | with_reducible assumption
    | (intro x; first | (refine Keeps.use (x := x) ?_ (fun hx => ?_); rotate_left; clear_value x; rotate_right; subst x) | clear_value x)
    | lift_lets -underBinder
    | with_reducible apply Keeps.ite
    | with_reducible apply State.logT_keeps
    | with_reducible apply State.updBinding_keeps
    | with_reducible apply State.updTumb_keeps

theorem State.joinTurn_keeps {u : State} {s : State} {e n : Nat} {tag : BitVec 24} {r : Result} (hs : Keeps u s) : Keeps u ((State.joinTurn (s) (e) (n) (tag) (r))) := by
  refine Keeps.trans hs ?_
  unfold State.joinTurn
  repeat' first
    | with_reducible exact Keeps.refl _
    | with_reducible assumption
    | (intro x; first | (refine Keeps.use (x := x) ?_ (fun hx => ?_); rotate_left; clear_value x; rotate_right; subst x) | clear_value x)
    | lift_lets -underBinder
    | with_reducible apply Keeps.ite
    | with_reducible apply State.setEvt_keeps
    | with_reducible apply State.turnApply_keeps
    | with_reducible apply State.updBinding_keeps
    | with_reducible apply State.updTumb_keeps

theorem State.skipTurn_keeps {u : State} {s : State} {e n src : Nat} {tag : BitVec 24} (hs : Keeps u s) : Keeps u ((State.skipTurn (s) (e) (n) (src) (tag))) := by
  refine Keeps.trans hs ?_
  unfold State.skipTurn
  repeat' first
    | with_reducible exact Keeps.refl _
    | with_reducible assumption
    | (intro x; (refine Keeps.use (x := x) ?_ (fun hx => ?_); rotate_left; clear_value x; rotate_right; subst x))
    | lift_lets -underBinder
    | with_reducible apply State.enterShadow_keeps
    | with_reducible apply State.failWaiters_keeps
    | with_reducible apply State.joinSoon_keeps
    | with_reducible apply State.logT_keeps
    | with_reducible apply State.updBinding_keeps
    | with_reducible apply State.updTumb_keeps

theorem State.memberTurn_keeps {u : State} {s : State} {e n src : Nat} {t : Tumbler} {launch : Bool} {f : Frame} (hs : Keeps u s) : Keeps u ((State.memberTurn (s) (e) (n) (src) (t) (launch) (f))) := by
  refine Keeps.trans hs ?_
  unfold State.memberTurn
  repeat' first
    | with_reducible exact Keeps.refl _
    | with_reducible assumption
    | (intro x; first | (refine Keeps.use (x := x) ?_ (fun hx => ?_); rotate_left; clear_value x; rotate_right; subst x) | clear_value x)
    | lift_lets -underBinder
    | with_reducible apply Keeps.ite
    | with_reducible apply State.downResult_keeps
    | with_reducible apply State.logT_keeps
    | with_reducible apply State.markStale_keeps
    | with_reducible apply State.turnApply_keeps
    | with_reducible apply State.withdrawArrive_keeps

theorem State.downFirst_keeps {u : State} {s : State} {src : Nat} {launch : Bool} {f : Frame} (hs : Keeps u s) : Keeps u ((State.downFirst (s) (src) (launch) (f))) := by
  refine Keeps.trans hs ?_
  unfold State.downFirst
  repeat' first
    | with_reducible exact Keeps.refl _
    | with_reducible assumption
    | (intro x; first | (refine Keeps.use (x := x) ?_ (fun hx => ?_); rotate_left; clear_value x; rotate_right; subst x) | (have hf := funext (f := x) (g := x) (fun _ => rfl); clear hf; subst x) | clear_value x | skip)
    | lift_lets -underBinder
    | with_reducible apply Keeps.ite
    | with_reducible apply State.adopt_keeps
    | with_reducible apply State.downResult_keeps
    | with_reducible apply State.enterShadow_keeps
    | with_reducible apply State.joinTurn_keeps
    | with_reducible apply State.logT_keeps
    | with_reducible apply State.memberTurn_keeps
    | with_reducible apply State.skipTurn_keeps
    | with_reducible apply State.updBinding_keeps
    | split

theorem State.lanesFilled_keeps {u : State} {s : State} {e : Nat} (hs : Keeps u s) : Keeps u ((State.lanesFilled (s) (e))) := by
  refine Keeps.trans hs ?_
  unfold State.lanesFilled
  repeat' first
    | with_reducible exact Keeps.refl _
    | with_reducible assumption
    | (intro x; first | (refine Keeps.use (x := x) ?_ (fun hx => ?_); rotate_left; clear_value x; rotate_right; subst x) | clear_value x | skip)
    | lift_lets -underBinder
    | with_reducible apply Keeps.ite
    | with_reducible apply State.carryUpdate_keeps
    | with_reducible apply State.ctxResult_keeps
    | with_reducible apply State.launchTurn_keeps
    | with_reducible apply State.updCtx_keeps
    | with_reducible apply Keeps.foldl
    | split

theorem State.downFill_keeps {u : State} {s : State} {launch : Bool} {h f : Frame} {k : Nat} (hs : Keeps u s) : Keeps u ((State.downFill (s) (launch) (h) (f) (k))) := by
  refine Keeps.trans hs ?_
  unfold State.downFill
  repeat' first
    | with_reducible exact Keeps.refl _
    | (intro x; clear_value x)
    | lift_lets -underBinder
    | with_reducible apply Keeps.ite
    | with_reducible apply State.lanesFilled_keeps
    | with_reducible apply State.updTumb_keeps
    | split

theorem State.downRx_keeps {u : State} {s : State} {l : LinkId} {f : Frame} {launch : Bool} (hs : Keeps u s) : Keeps u ((State.downRx (s) (l) (f) (launch))) := by
  refine Keeps.trans hs ?_
  unfold State.downRx
  repeat' first
    | with_reducible exact Keeps.refl _
    | with_reducible assumption
    | (intro x; first | (refine Keeps.use (x := x) ?_ (fun hx => ?_); rotate_left; clear_value x; rotate_right; subst x) | (have hf := funext (f := x) (g := x) (fun _ => rfl); clear hf; subst x) | clear_value x)
    | lift_lets -underBinder
    | with_reducible apply Keeps.ite
    | with_reducible apply State.downFill_keeps
    | with_reducible apply State.downFirst_keeps
    | with_reducible apply State.malformed_keeps
    | with_reducible apply State.updLink_keeps
    | split

theorem State.turnRx_keeps {u : State} {s : State} {l : LinkId} {rx : Rx} (hs : Keeps u s) : Keeps u ((State.turnRx (s) (l) (rx))) := by
  refine Keeps.trans hs ?_
  unfold State.turnRx
  repeat' first
    | with_reducible exact Keeps.refl _
    | with_reducible apply Keeps.ite
    | with_reducible apply State.downRx_keeps
    | with_reducible apply State.receive_keeps
    | split
    | with_reducible refine Keeps.ofPair (by with_reducible assumption) ?_

theorem execTurnRx_keeps {u : State} {l : LinkId} {rx : Rx} {s : State} (hs : Keeps u s) : Keeps u ((State.after (s) (execTurnRx (l) (rx) (s)))) := by
  refine Keeps.trans hs ?_
  unfold execTurnRx
  rw [State.after_next]
  repeat' first
    | with_reducible exact Keeps.refl _
    | with_reducible apply State.turnRx_keeps

theorem State.launchFrameRx_keeps {u : State} {s : State} {l : LinkId} {rx : Rx} (hs : Keeps u s) : Keeps u ((State.launchFrameRx (s) (l) (rx))) := by
  refine Keeps.trans hs ?_
  unfold State.launchFrameRx
  repeat' first
    | with_reducible exact Keeps.refl _
    | with_reducible apply Keeps.ite
    | with_reducible apply State.downRx_keeps
    | with_reducible apply State.receive_keeps
    | split
    | with_reducible refine Keeps.ofPair (by with_reducible assumption) ?_

theorem execLaunchFrameRx_keeps {u : State} {l : LinkId} {rx : Rx} {s : State} (hs : Keeps u s) : Keeps u ((State.after (s) (execLaunchFrameRx (l) (rx) (s)))) := by
  refine Keeps.trans hs ?_
  unfold execLaunchFrameRx
  rw [State.after_next]
  repeat' first
    | with_reducible exact Keeps.refl _
    | with_reducible apply State.launchFrameRx_keeps

theorem State.waitDeadline_keeps {u : State} {s : State} {n w1 w2 w3 : Nat} (hs : Keeps u s) : Keeps u ((State.waitDeadline (s) (n) (w1) (w2) (w3)).1) := by
  refine Keeps.trans hs ?_
  unfold State.waitDeadline
  repeat' first
    | with_reducible exact Keeps.refl _
    | (intro x; clear_value x)
    | lift_lets -underBinder
    | with_reducible apply State.accept_keeps
    | split
    | with_reducible refine Keeps.ofPair (by with_reducible assumption) ?_

theorem State.waitRefused_keeps {u : State} {s : State} {n : Nat} {e : Option Nat} {index : Nat} {w : BitVec 2} {code : ErrCode} {logIt : Bool} (hs : Keeps u s) : Keeps u ((State.waitRefused (s) (n) (e) (index) (w) (code) (logIt))) := by
  refine Keeps.trans hs ?_
  unfold State.waitRefused
  repeat' first
    | with_reducible exact Keeps.refl _
    | with_reducible assumption
    | (intro x; (refine Keeps.use (x := x) ?_ (fun hx => ?_); rotate_left; clear_value x; rotate_right; subst x))
    | lift_lets -underBinder
    | with_reducible apply Keeps.ite
    | with_reducible apply State.logT_keeps
    | with_reducible apply State.writeRecord_keeps

theorem State.waitArm_keeps {u : State} {s : State} {n k : Nat} (hs : Keeps u s) : Keeps u ((State.waitArm (s) (n) (k))) := by
  refine Keeps.trans hs ?_
  unfold State.waitArm
  repeat' first
    | with_reducible exact Keeps.refl _
    | (intro x; first | clear_value x | skip)
    | lift_lets -underBinder
    | with_reducible apply Keeps.ite
    | with_reducible apply State.spGuard_keeps
    | with_reducible apply State.waitDeadline_keeps
    | with_reducible apply State.waitRecord_keeps
    | with_reducible apply State.waitRefused_keeps
    | ((with_reducible apply State.updTsu_keeps); focus (intro t; exact ⟨⟨rfl, fun h => h⟩, rfl⟩))
    | split
    | with_reducible refine Keeps.ofPair (by with_reducible assumption) ?_

theorem execWaitArm_keeps {u : State} {slice k : Nat} {s : State} (hs : Keeps u s) : Keeps u ((State.after (s) (execWaitArm (slice) (k) (s)))) := by
  refine Keeps.trans hs ?_
  unfold execWaitArm
  rw [State.after_next]
  repeat' first
    | with_reducible exact Keeps.refl _
    | with_reducible apply State.waitArm_keeps

theorem State.waitTimeout_keeps {u : State} {s : State} {n k : Nat} (hs : Keeps u s) : Keeps u ((State.waitTimeout (s) (n) (k))) := by
  refine Keeps.trans hs ?_
  unfold State.waitTimeout
  repeat' first
    | with_reducible exact Keeps.refl _
    | with_reducible apply Keeps.ite
    | with_reducible apply State.endSoftWait_keeps
    | split

theorem execWaitTimeout_keeps {u : State} {slice k : Nat} {s : State} (hs : Keeps u s) : Keeps u ((State.after (s) (execWaitTimeout (slice) (k) (s)))) := by
  refine Keeps.trans hs ?_
  unfold execWaitTimeout
  rw [State.after_next]
  repeat' first
    | with_reducible exact Keeps.refl _
    | with_reducible apply Keeps.ite
    | with_reducible apply State.waitTimeout_keeps

theorem execBudgetReclaim_keeps {u : State} {port : Nat} {s : State} (hs : Keeps u s) : Keeps u ((State.after (s) (execBudgetReclaim (port) (s)))) := by
  refine Keeps.trans hs ?_
  unfold execBudgetReclaim
  rw [State.after_next]
  repeat' first
    | with_reducible exact Keeps.refl _
    | with_reducible apply Keeps.ite
    | with_reducible apply State.reclaim_keeps
    | split

theorem execPmLendEvent_keeps {u : State} {s : State} (hs : Keeps u s) : Keeps u ((State.after (s) (execPmLendEvent (s)))) := by
  refine Keeps.trans hs ?_
  unfold execPmLendEvent
  rw [State.after_next]
  repeat' first
    | with_reducible exact Keeps.refl _
    | ((with_reducible apply State.updTsu_keeps); focus (intro t; exact ⟨⟨rfl, fun h => h⟩, rfl⟩))

theorem execTumblerSnapshot_keeps {u : State} {w : Word} {s : State} (hs : Keeps u s) : Keeps u ((State.after (s) (execTumblerSnapshot (w) (s)))) := by
  refine Keeps.trans hs ?_
  unfold execTumblerSnapshot
  rw [State.after_next]
  repeat' first
    | with_reducible exact Keeps.refl _
    | lift_lets -underBinder
    | with_reducible apply State.setReg_keeps
    | ((with_reducible apply State.updTsu_keeps); focus (intro t; exact ⟨⟨rfl, fun h => h⟩, rfl⟩))

end Sys2Proof.Machine
end

