-- ==== Sys2Proof/Laws/FrameOrderOps.lean ====
section
/-! SUPPORT. What the operations of `Sys2Proof.Machine.OrderOps` leave alone, one lemma per operation. -/

namespace Sys2Proof.Machine

open Sys2Proof

set_option linter.unusedVariables false

theorem State.orderRecord_keeps {u : State} {s : State} {n : Nat} {o : Order} {code : ErrCode} (hs : Keeps u s) : Keeps u ((State.orderRecord (s) (n) (o) (code))) := by
  refine Keeps.trans hs ?_
  unfold State.orderRecord
  repeat' first
    | with_reducible exact Keeps.refl _
    | with_reducible apply State.writeRecord_keeps

theorem State.conflict_keeps {u : State} {s : State} {c : Conflict} (hs : Keeps u s) : Keeps u ((State.conflict (s) (c))) := by
  refine Keeps.trans hs ?_
  unfold State.conflict
  repeat' first
    | with_reducible exact Keeps.refl _
    | lift_lets -underBinder
    | with_reducible apply Keeps.ite
    | with_reducible apply State.setEvt_keeps
    | ((with_reducible apply State.updTsu_keeps); focus (intro t; exact ⟨⟨rfl, fun h => h⟩, rfl⟩))

theorem State.sendAbortDone_keeps {u : State} {s : State} {n : Nat} {x : BitVec 24 × Nat} (hs : Keeps u s) : Keeps u ((State.sendAbortDone (s) (n) (x))) := by
  refine Keeps.trans hs ?_
  unfold State.sendAbortDone
  repeat' first
    | with_reducible exact Keeps.refl _
    | (intro x; clear_value x)
    | lift_lets -underBinder
    | with_reducible apply Keeps.ite
    | with_reducible apply State.tsuUp_keeps

theorem State.releaseAll_keeps {u : State} {s : State} {n : Nat} (hs : Keeps u s) : Keeps u ((State.releaseAll (s) (n))) := by
  refine Keeps.trans hs ?_
  unfold State.releaseAll
  repeat' first
    | with_reducible exact Keeps.refl _
    | (intro x; first | clear_value x | skip)
    | lift_lets -underBinder
    | with_reducible apply State.present_keeps
    | with_reducible apply State.updPort_keeps
    | with_reducible apply Keeps.foldl

theorem State.unbind_keeps {u : State} {s : State} {n : Nat} {tag : BitVec 24} (hs : Keeps u s) : Keeps u ((State.unbind (s) (n) (tag))) := by
  refine Keeps.trans hs ?_
  unfold State.unbind
  repeat' first
    | with_reducible exact Keeps.refl _
    | with_reducible assumption
    | (intro x; first | (refine Keeps.use (x := x) ?_ (fun hx => ?_); rotate_left; clear_value x; rotate_right; subst x) | skip)
    | lift_lets -underBinder
    | with_reducible apply State.closeTumb_keeps
    | with_reducible apply State.updSlice_keeps
    | ((with_reducible apply State.updTsu_keeps); focus (intro t; exact ⟨⟨rfl, fun h => h⟩, rfl⟩))
    | with_reducible apply Keeps.foldl

theorem State.resetFinish_keeps {u : State} {s : State} {n : Nat} {destroy : Bool} (hs : Keeps u s) : Keeps u ((State.resetFinish (s) (n) (destroy))) := by
  refine Keeps.trans hs ?_
  unfold State.resetFinish
  repeat' first
    | with_reducible exact Keeps.refl _
    | with_reducible assumption
    | (intro x; first | (refine Keeps.use (x := x) ?_ (fun hx => ?_); rotate_left; clear_value x; rotate_right; subst x) | skip)
    | lift_lets -underBinder
    | with_reducible apply Keeps.ite
    | with_reducible apply State.releaseAll_keeps
    | with_reducible apply State.unbind_keeps
    | with_reducible apply State.updSlice_keeps
    | ((with_reducible apply State.updTsu_keeps); focus (intro t; exact ⟨⟨rfl, fun h => h⟩, rfl⟩))
    | with_reducible apply Keeps.foldl

theorem State.abortCheck_keeps {u : State} {s : State} {n : Nat} (hs : Keeps u s) : Keeps u ((State.abortCheck (s) (n))) := by
  refine Keeps.trans hs ?_
  unfold State.abortCheck
  repeat' first
    | with_reducible exact Keeps.refl _
    | with_reducible assumption
    | (intro x; first | (refine Keeps.use (x := x) ?_ (fun hx => ?_); rotate_left; clear_value x; rotate_right; subst x) | clear_value x | skip)
    | lift_lets -underBinder
    | with_reducible apply Keeps.ite
    | with_reducible apply State.resetFinish_keeps
    | with_reducible apply State.sendAbortDone_keeps
    | with_reducible apply State.updSlice_keeps
    | with_reducible apply State.writeRecord_keeps
    | ((with_reducible apply State.updTsu_keeps); focus (intro t; exact ⟨⟨rfl, fun h => h⟩, rfl⟩))
    | with_reducible apply Keeps.foldl
    | split

theorem State.raiseAbort_keeps {u : State} {s : State} {n p : Nat} (hs : Keeps u s) : Keeps u ((State.raiseAbort (s) (n) (p))) := by
  refine Keeps.trans hs ?_
  unfold State.raiseAbort
  repeat' first
    | with_reducible exact Keeps.refl _
    | (intro x; clear_value x)
    | lift_lets -underBinder
    | with_reducible apply State.startsWaiting_keeps
    | with_reducible apply State.updPort_keeps

theorem State.dropSliceStaged_keeps {u : State} {s : State} {n : Nat} {pick : Launch → Bool} {code : Option ErrCode} (hs : Keeps u s) : Keeps u ((State.dropSliceStaged (s) (n) (pick) (code))) := by
  refine Keeps.trans hs ?_
  unfold State.dropSliceStaged
  repeat' first
    | with_reducible exact Keeps.refl _
    | intro x
    | lift_lets -underBinder
    | with_reducible apply State.dropStaged_keeps
    | with_reducible apply State.launchDropped_keeps
    | with_reducible apply Keeps.foldl
    | split

theorem State.abortSteps_keeps {u : State} {s : State} {n : Nat} {o : Order} {doms : List (BitVec 24 × Nat)} {quiet destroy : Bool} (hs : Keeps u s) : Keeps u ((State.abortSteps (s) (n) (o) (doms) (quiet) (destroy))) := by
  refine Keeps.trans hs ?_
  unfold State.abortSteps
  repeat' first
    | with_reducible exact Keeps.refl _
    | with_reducible assumption
    | (intro x; first | (refine Keeps.use (x := x) ?_ (fun hx => ?_); rotate_left; clear_value x; rotate_right; subst x) | skip)
    | lift_lets -underBinder
    | with_reducible apply State.abortCheck_keeps
    | with_reducible apply State.ctxHalt_keeps
    | with_reducible apply State.discardHeld_keeps
    | with_reducible apply State.dropArm_keeps
    | with_reducible apply State.dropSliceStaged_keeps
    | with_reducible apply State.endSoftWait_keeps
    | with_reducible apply State.raiseAbort_keeps
    | with_reducible apply State.updSlice_keeps
    | ((with_reducible apply State.updTsu_keeps); focus (intro t; exact ⟨⟨rfl, fun h => h⟩, rfl⟩))
    | with_reducible apply Keeps.foldl

theorem State.startCtx_keeps {u : State} {s : State} {n rec sentence : Nat} (hs : Keeps u s) : Keeps u ((State.startCtx (s) (n) (rec) (sentence))) := by
  refine Keeps.trans hs ?_
  unfold State.startCtx
  repeat' first
    | with_reducible exact Keeps.refl _
    | (intro x; clear_value x)
    | lift_lets -underBinder
    | with_reducible apply Keeps.ite
    | with_reducible apply State.ctxStart_keeps
    | with_reducible apply State.logT_keeps
    | ((with_reducible apply State.updTsu_keeps); focus (intro t; exact ⟨⟨rfl, fun h => h⟩, rfl⟩))
    | split

theorem State.resumeCtx_keeps {u : State} {s : State} {c : Nat} (hs : Keeps u s) : Keeps u ((State.resumeCtx (s) (c))) := by
  refine Keeps.trans hs ?_
  unfold State.resumeCtx
  repeat' first
    | with_reducible exact Keeps.refl _
    | with_reducible apply State.updCtx_keeps

theorem State.withdrawHeld_keeps {u : State} {s : State} {cs : List Nat} (hs : Keeps u s) : Keeps u ((State.withdrawHeld (s) (cs))) := by
  refine Keeps.trans hs ?_
  unfold State.withdrawHeld
  repeat' first
    | with_reducible exact Keeps.refl _
    | (intro x; (have hf := funext (f := x) (g := x) (fun _ => rfl); clear hf; subst x))
    | lift_lets -underBinder
    | ((with_reducible apply State.updTsu_keeps); focus (intro t; exact ⟨⟨rfl, fun h => h⟩, rfl⟩))

theorem State.orderApply_keeps {u : State} {s : State} {n : Nat} {o : Order} {doms : List (BitVec 24 × Nat)} (hs : Keeps u s) : Keeps u ((State.orderApply (s) (n) (o) (doms))) := by
  refine Keeps.trans hs ?_
  unfold State.orderApply
  repeat' first
    | with_reducible exact Keeps.refl _
    | with_reducible assumption
    | (intro x; first | (refine Keeps.use (x := x) ?_ (fun hx => ?_); rotate_left; clear_value x; rotate_right; subst x) | (have hf := funext (f := x) (g := x) (fun _ => rfl); clear hf; subst x) | clear_value x | skip)
    | lift_lets -underBinder
    | with_reducible apply Keeps.ite
    | with_reducible apply State.abortSteps_keeps
    | with_reducible apply State.ctxHalt_keeps
    | with_reducible apply State.ctxStop_keeps
    | with_reducible apply State.dropSliceStaged_keeps
    | with_reducible apply State.orderRecord_keeps
    | with_reducible apply State.resumeCtx_keeps
    | with_reducible apply State.sendAbortDone_keeps
    | with_reducible apply State.startCtx_keeps
    | with_reducible apply State.updSlice_keeps
    | with_reducible apply State.withdrawHeld_keeps
    | ((with_reducible apply State.updTsu_keeps); focus (intro t; exact ⟨⟨rfl, fun h => h⟩, rfl⟩))
    | with_reducible apply Keeps.foldl
    | split

theorem State.orderLoses_keeps {u : State} {s : State} {n : Nat} {w o : Order} (hs : Keeps u s) : Keeps u ((State.orderLoses (s) (n) (w) (o))) := by
  refine Keeps.trans hs ?_
  unfold State.orderLoses
  repeat' first
    | with_reducible exact Keeps.refl _
    | with_reducible assumption
    | (intro x; (refine Keeps.use (x := x) ?_ (fun hx => ?_); rotate_left; clear_value x; rotate_right; subst x))
    | lift_lets -underBinder
    | with_reducible apply State.conflict_keeps
    | with_reducible apply State.logT_keeps
    | with_reducible apply State.orderRecord_keeps

theorem State.order_keeps {u : State} {s : State} {n : Nat} {o : Order} {doms : List (BitVec 24 × Nat)} (hs : Keeps u s) : Keeps u ((State.order (s) (n) (o) (doms))) := by
  refine Keeps.trans hs ?_
  unfold State.order
  repeat' first
    | with_reducible exact Keeps.refl _
    | with_reducible assumption
    | (intro x; first | (refine Keeps.use (x := x) ?_ (fun hx => ?_); rotate_left; clear_value x; rotate_right; subst x) | clear_value x | skip)
    | lift_lets -underBinder
    | with_reducible apply Keeps.ite
    | with_reducible apply State.logT_keeps
    | with_reducible apply State.orderApply_keeps
    | with_reducible apply State.orderLoses_keeps
    | with_reducible apply State.orderRecord_keeps
    | with_reducible apply State.sendAbortDone_keeps
    | ((with_reducible apply State.updTsu_keeps); focus (intro t; exact ⟨⟨rfl, fun h => h⟩, rfl⟩))
    | with_reducible apply Keeps.foldl
    | split

theorem State.domainRequest_keeps {u : State} {s : State} {n : Nat} {tag : BitVec 24} {o : Order} {reason : Nat} (hs : Keeps u s) : Keeps u ((State.domainRequest (s) (n) (tag) (o) (reason))) := by
  refine Keeps.trans hs ?_
  unfold State.domainRequest
  repeat' first
    | with_reducible exact Keeps.refl _
    | with_reducible assumption
    | (intro x; first | (refine Keeps.use (x := x) ?_ (fun hx => ?_); rotate_left; clear_value x; rotate_right; subst x) | clear_value x)
    | lift_lets -underBinder
    | with_reducible apply Keeps.ite
    | with_reducible apply State.order_keeps
    | with_reducible apply State.tsuUp_keeps
    | with_reducible apply State.updBinding_keeps

end Sys2Proof.Machine
end

