-- ==== Sys2Proof/Laws/FrameStageOps.lean ====
section
/-! SUPPORT. What the operations of `Sys2Proof.Machine.StageOps` leave alone, one lemma per operation. -/

namespace Sys2Proof.Machine

open Sys2Proof

set_option linter.unusedVariables false

theorem State.grantAsk_keeps {u : State} {s : State} {resource n c : Nat} {o : Option SeqOrder} (hs : Keeps u s) : Keeps u ((State.grantAsk (s) (resource) (n) (c) (o))) := by
  refine Keeps.trans hs ?_
  unfold State.grantAsk
  repeat' first
    | with_reducible exact Keeps.refl _
    | lift_lets -underBinder
    | with_reducible apply Keeps.ite
    | ((with_reducible apply State.updTsu_keeps); focus (intro t; exact ⟨⟨rfl, fun h => h⟩, rfl⟩))

theorem State.wgen_keeps {u : State} {s : State} {x : Ctx} {e : Nat} {t : Tumbler} {w : Nat} (hs : Keeps u s) : Keeps u ((State.wgen (s) (x) (e) (t) (w)).1) := by
  refine Keeps.trans hs ?_
  unfold State.wgen
  repeat' first
    | with_reducible exact Keeps.refl _
    | with_reducible apply State.logT_keeps
    | split

theorem State.stageClause_keeps {u : State} {s : State} {id : Nat} {alt : Bool} {x : Ctx} {k : BitVec 128} {ports : List Nat} {slots : List (Nat × Nat)} (hs : Keeps u s) : Keeps u ((State.stageClause (s) (id) (alt) (x) (k) (ports) (slots))) := by
  refine Keeps.trans hs ?_
  unfold State.stageClause
  repeat' first
    | with_reducible exact Keeps.refl _
    | with_reducible assumption
    | (intro x; first | (refine Keeps.use (x := x) ?_ (fun hx => ?_); rotate_left; clear_value x; rotate_right; subst x) | clear_value x | skip)
    | lift_lets -underBinder
    | with_reducible apply State.updPort_keeps
    | with_reducible apply State.updRegion_keeps
    | with_reducible apply Keeps.foldl

theorem State.launchRefused_keeps {u : State} {s : State} {c : Nat} {x : Ctx} {index : Nat} {code : ErrCode} (hs : Keeps u s) : Keeps u ((State.launchRefused (s) (c) (x) (index) (code))) := by
  refine Keeps.trans hs ?_
  unfold State.launchRefused
  repeat' first
    | with_reducible exact Keeps.refl _
    | with_reducible assumption
    | (intro x; (refine Keeps.use (x := x) ?_ (fun hx => ?_); rotate_left; clear_value x; rotate_right; subst x))
    | lift_lets -underBinder
    | with_reducible apply State.ctxNext_keeps
    | with_reducible apply State.logT_keeps
    | with_reducible apply State.writeRecord_keeps

theorem State.stageLaunch_keeps {u : State} {s : State} {c : Nat} {x : Ctx} {k : BitVec 128} {i : Nat} (hs : Keeps u s) : Keeps u ((State.stageLaunch (s) (c) (x) (k) (i))) := by
  refine Keeps.trans hs ?_
  unfold State.stageLaunch
  repeat' first
    | with_reducible exact Keeps.refl _
    | with_reducible assumption
    | (intro x; first | (refine Keeps.use (x := x) ?_ (fun hx => ?_); rotate_left; clear_value x; rotate_right; subst x) | (refine Keeps.use (x := x.1) ?_ (fun hx => ?_); rotate_left; clear_value x; rotate_right; subst x) | clear_value x | skip)
    | lift_lets -underBinder
    | with_reducible apply Keeps.ite
    | with_reducible apply State.boost_keeps
    | with_reducible apply State.ctxBlock_keeps
    | with_reducible apply State.grantAsk_keeps
    | with_reducible apply State.launchRefused_keeps
    | with_reducible apply State.launchTurn_keeps
    | with_reducible apply State.stageClause_keeps
    | with_reducible apply State.startsWaiting_keeps
    | with_reducible apply State.wgen_keeps
    | ((with_reducible apply State.updTsu_keeps); focus (intro t; exact ⟨⟨rfl, fun h => h⟩, rfl⟩))
    | with_reducible apply Keeps.foldl
    | split

theorem State.restage_keeps {u : State} {s : State} {c : Nat} (hs : Keeps u s) : Keeps u ((State.restage (s) (c))) := by
  refine Keeps.trans hs ?_
  unfold State.restage
  repeat' first
    | with_reducible exact Keeps.refl _
    | (intro x; clear_value x)
    | lift_lets -underBinder
    | with_reducible apply Keeps.ite
    | with_reducible apply State.stageLaunch_keeps
    | split

theorem State.grantTry_keeps {u : State} {s : State} {g : GrantReq} (hs : Keeps u s) : Keeps u ((State.grantTry (s) (g)).1) := by
  refine Keeps.trans hs ?_
  unfold State.grantTry
  repeat' first
    | with_reducible exact Keeps.refl _
    | with_reducible assumption
    | (intro x; first | (refine Keeps.use (x := x) ?_ (fun hx => ?_); rotate_left; clear_value x; rotate_right; subst x) | clear_value x | skip)
    | lift_lets -underBinder
    | with_reducible apply State.launchTurn_keeps
    | with_reducible apply State.restage_keeps
    | ((with_reducible apply State.updTsu_keeps); focus (intro t; exact ⟨⟨rfl, fun h => h⟩, rfl⟩))
    | with_reducible apply Keeps.foldl
    | split

theorem State.grantFail_keeps {u : State} {s : State} {g : GrantReq} (hs : Keeps u s) : Keeps u ((State.grantFail (s) (g))) := by
  refine Keeps.trans hs ?_
  unfold State.grantFail
  repeat' first
    | with_reducible exact Keeps.refl _
    | with_reducible assumption
    | (intro x; first | (refine Keeps.use (x := x) ?_ (fun hx => ?_); rotate_left; clear_value x; rotate_right; subst x) | skip)
    | lift_lets -underBinder
    | with_reducible apply Keeps.ite
    | with_reducible apply State.launchDropped_keeps
    | with_reducible apply State.logT_keeps
    | with_reducible apply State.spCode_keeps
    | with_reducible apply State.updCtx_keeps
    | ((with_reducible apply State.updTsu_keeps); focus (intro t; exact ⟨⟨rfl, fun h => h⟩, rfl⟩))
    | with_reducible apply Keeps.foldl
    | split

theorem State.grantRetry_keeps {u : State} {s : State} {resource : Nat} (hs : Keeps u s) : Keeps u ((State.grantRetry (s) (resource))) := by
  refine Keeps.trans hs ?_
  unfold State.grantRetry
  repeat' first
    | with_reducible exact Keeps.refl _
    | with_reducible assumption
    | (intro x; first | (refine Keeps.use (x := x) ?_ (fun hx => ?_); rotate_left; clear_value x; rotate_right; subst x) | (refine Keeps.use (x := x.1) ?_ (fun hx => ?_); rotate_left; clear_value x; rotate_right; subst x) | clear_value x | skip)
    | lift_lets -underBinder
    | with_reducible apply Keeps.ite
    | with_reducible apply State.grantFail_keeps
    | with_reducible apply State.grantTry_keeps
    | ((with_reducible apply State.updTsu_keeps); focus (intro t; exact ⟨⟨rfl, fun h => h⟩, rfl⟩))
    | with_reducible apply Keeps.foldl

end Sys2Proof.Machine
end

