-- ==== Sys2Proof/Laws/FrameSequencer.lean ====
section
/-! SUPPORT. What the operations of `Sys2Proof.Machine.Sequencer` leave alone, one lemma per operation. -/

namespace Sys2Proof.Machine

open Sys2Proof

set_option linter.unusedVariables false

theorem State.topnd_keeps {u s : State} {x : Ctx} {w : Nat} (hs : Keeps u s) : Keeps u (s.topnd x w).1 := by
  unfold State.topnd
  simp only []
  generalize bitsOf w 35 34 = k
  match k with
  | 0 => exact hs
  | 1 => exact hs
  | 2 =>
    have h := State.accept_keeps (t := extendNs (s.now .tsu) (BitVec.ofNat 32 (bitsOf w 31 0)) * 65536)
      (slice := some x.slice) hs
    revert h
    generalize s.accept (extendNs (s.now .tsu) (BitVec.ofNat 32 (bitsOf w 31 0)) * 65536) (some x.slice) = p
    intro h
    obtain ⟨a, _ | t⟩ := p <;> exact h
  | _ + 3 =>
    generalize (((s.slice x.slice).image.bind fun m => m.times[bitsOf w 31 0 % 256]?).getD Time80.zero).toNs16 = i
    have h := State.accept_keeps (t := i) (slice := some x.slice) hs
    revert h
    generalize s.accept i (some x.slice) = p
    intro h
    obtain ⟨a, _ | t⟩ := p <;> exact h

theorem State.ctxArrive_keeps {u : State} {s : State} {c : Nat} {x : Ctx} {k : BitVec 128} {payload : List Byte} (hs : Keeps u s) : Keeps u ((State.ctxArrive (s) (c) (x) (k) (payload))) := by
  refine Keeps.trans hs ?_
  unfold State.ctxArrive
  repeat' first
    | with_reducible exact Keeps.refl _
    | with_reducible assumption
    | (intro x; first | (refine Keeps.use (x := x) ?_ (fun hx => ?_); rotate_left; clear_value x; rotate_right; subst x) | (refine Keeps.use (x := x.1) ?_ (fun hx => ?_); rotate_left; clear_value x; rotate_right; subst x) | clear_value x)
    | lift_lets -underBinder
    | with_reducible apply State.arrive_keeps
    | with_reducible apply State.ctxArrived_keeps
    | with_reducible apply State.ctxNext_keeps
    | with_reducible apply State.logT_keeps
    | with_reducible apply State.updTumb_keeps
    | with_reducible apply State.waitRecord_keeps
    | split

theorem State.issueArrive_keeps {u : State} {s : State} {c : Nat} {x : Ctx} {k : BitVec 128} {wait : Bool} (hs : Keeps u s) : Keeps u ((State.issueArrive (s) (c) (x) (k) (wait))) := by
  refine Keeps.trans hs ?_
  unfold State.issueArrive
  repeat' first
    | with_reducible exact Keeps.refl _
    | with_reducible assumption
    | (intro x; (refine Keeps.use (x := x.1) ?_ (fun hx => ?_); rotate_left; clear_value x; rotate_right; subst x))
    | lift_lets -underBinder
    | with_reducible apply Keeps.ite
    | with_reducible apply State.ctxArrive_keeps
    | with_reducible apply State.ctxBlock_keeps
    | with_reducible apply State.nwRead_keeps
    | with_reducible apply State.topnd_keeps
    | with_reducible apply State.updCtx_keeps
    | split

theorem State.issueWait_keeps {u : State} {s : State} {c : Nat} {x : Ctx} {k : BitVec 128} (hs : Keeps u s) : Keeps u ((State.issueWait (s) (c) (x) (k))) := by
  refine Keeps.trans hs ?_
  unfold State.issueWait
  repeat' first
    | with_reducible exact Keeps.refl _
    | with_reducible assumption
    | (intro x; first | (refine Keeps.use (x := x) ?_ (fun hx => ?_); rotate_left; clear_value x; rotate_right; subst x) | (refine Keeps.use (x := x.1) ?_ (fun hx => ?_); rotate_left; clear_value x; rotate_right; subst x))
    | lift_lets -underBinder
    | with_reducible apply Keeps.ite
    | with_reducible apply State.boost_keeps
    | with_reducible apply State.ctxBlock_keeps
    | with_reducible apply State.ctxNext_keeps
    | with_reducible apply State.ctxResult_keeps
    | with_reducible apply State.ctxWaitEnds_keeps
    | with_reducible apply State.logT_keeps
    | with_reducible apply State.topnd_keeps
    | with_reducible apply State.wgen_keeps
    | with_reducible apply State.writeRecord_keeps
    | split

theorem State.issueYield_keeps {u : State} {s : State} {c : Nat} {x : Ctx} {k : BitVec 128} (hs : Keeps u s) : Keeps u ((State.issueYield (s) (c) (x) (k))) := by
  refine Keeps.trans hs ?_
  unfold State.issueYield
  repeat' first
    | with_reducible exact Keeps.refl _
    | with_reducible assumption
    | (intro x; (refine Keeps.use (x := x.1) ?_ (fun hx => ?_); rotate_left; clear_value x; rotate_right; subst x))
    | lift_lets -underBinder
    | with_reducible apply State.ctxNext_keeps
    | with_reducible apply State.topnd_keeps
    | with_reducible apply State.updCtx_keeps
    | split

theorem State.issueAbort_keeps {u : State} {s : State} {_c : Nat} {x : Ctx} {k : BitVec 128} (hs : Keeps u s) : Keeps u ((State.issueAbort (s) _c (x) (k))) := by
  refine Keeps.trans hs ?_
  unfold State.issueAbort
  repeat' first
    | with_reducible exact Keeps.refl _
    | with_reducible assumption
    | (intro x; first | (refine Keeps.use (x := x) ?_ (fun hx => ?_); rotate_left; clear_value x; rotate_right; subst x) | clear_value x)
    | lift_lets -underBinder
    | with_reducible apply Keeps.ite
    | with_reducible apply State.domainRequest_keeps
    | with_reducible apply State.order_keeps

theorem State.doVerb_keeps {u : State} {s : State} {c : Nat} {x : Ctx} {k : BitVec 128} {i : Nat} (hs : Keeps u s) : Keeps u ((State.doVerb (s) (c) (x) (k) (i))) := by
  refine Keeps.trans hs ?_
  unfold State.doVerb
  repeat' first
    | with_reducible exact Keeps.refl _
    | with_reducible apply State.branch_keeps
    | with_reducible apply State.ctxNext_keeps
    | with_reducible apply State.endClause_keeps
    | with_reducible apply State.issueAbort_keeps
    | with_reducible apply State.issueArrive_keeps
    | with_reducible apply State.issueWait_keeps
    | with_reducible apply State.issueYield_keeps
    | with_reducible apply State.markRecord_keeps
    | with_reducible apply State.stageLaunch_keeps
    | split

theorem State.runaway_keeps {u : State} {s : State} {c : Nat} (hs : Keeps u s) : Keeps u ((State.runaway (s) (c))) := by
  refine Keeps.trans hs ?_
  unfold State.runaway
  repeat' first
    | with_reducible exact Keeps.refl _
    | with_reducible apply Keeps.ite
    | with_reducible apply State.ctxHalt_keeps
    | with_reducible apply State.logT_keeps
    | split

theorem State.issue_keeps {u : State} {s : State} {verb : Nat} (hs : Keeps u s) : Keeps u ((State.issue (s) (verb))) := by
  refine Keeps.trans hs ?_
  unfold State.issue
  repeat' first
    | with_reducible exact Keeps.refl _
    | with_reducible assumption
    | (intro x; (refine Keeps.use (x := x) ?_ (fun hx => ?_); rotate_left; clear_value x; rotate_right; subst x))
    | lift_lets -underBinder
    | with_reducible apply Keeps.ite
    | with_reducible apply State.ctxBlock_keeps
    | with_reducible apply State.ctxHalt_keeps
    | with_reducible apply State.ctxNext_keeps
    | with_reducible apply State.doVerb_keeps
    | with_reducible apply State.logT_keeps
    | with_reducible apply State.runaway_keeps
    | with_reducible apply State.setEvt_keeps
    | with_reducible apply State.updCtx_keeps
    | ((with_reducible apply State.updTsu_keeps); focus (intro t; exact ⟨⟨rfl, fun h => h⟩, rfl⟩))
    | split

theorem execClauseLaunch_keeps {u : State} {s : State} (hs : Keeps u s) : Keeps u ((State.after (s) (execClauseLaunch (s)))) := by
  refine Keeps.trans hs ?_
  unfold execClauseLaunch
  rw [State.after_next]
  repeat' first
    | with_reducible exact Keeps.refl _
    | with_reducible apply State.issue_keeps

theorem execClauseArrive_keeps {u : State} {s : State} (hs : Keeps u s) : Keeps u ((State.after (s) (execClauseArrive (s)))) := by
  refine Keeps.trans hs ?_
  unfold execClauseArrive
  rw [State.after_next]
  repeat' first
    | with_reducible exact Keeps.refl _
    | with_reducible apply State.issue_keeps

theorem execClauseWait_keeps {u : State} {s : State} (hs : Keeps u s) : Keeps u ((State.after (s) (execClauseWait (s)))) := by
  refine Keeps.trans hs ?_
  unfold execClauseWait
  rw [State.after_next]
  repeat' first
    | with_reducible exact Keeps.refl _
    | with_reducible apply State.issue_keeps

theorem execClauseReduce_keeps {u : State} {s : State} (hs : Keeps u s) : Keeps u ((State.after (s) (execClauseReduce (s)))) := by
  refine Keeps.trans hs ?_
  unfold execClauseReduce
  rw [State.after_next]
  repeat' first
    | with_reducible exact Keeps.refl _
    | with_reducible apply State.issue_keeps

theorem execClauseScan_keeps {u : State} {s : State} (hs : Keeps u s) : Keeps u ((State.after (s) (execClauseScan (s)))) := by
  refine Keeps.trans hs ?_
  unfold execClauseScan
  rw [State.after_next]
  repeat' first
    | with_reducible exact Keeps.refl _
    | with_reducible apply State.issue_keeps

theorem execClauseAlloc_keeps {u : State} {s : State} (hs : Keeps u s) : Keeps u ((State.after (s) (execClauseAlloc (s)))) := by
  refine Keeps.trans hs ?_
  unfold execClauseAlloc
  rw [State.after_next]
  repeat' first
    | with_reducible exact Keeps.refl _
    | with_reducible apply State.issue_keeps

theorem execClauseBranch_keeps {u : State} {s : State} (hs : Keeps u s) : Keeps u ((State.after (s) (execClauseBranch (s)))) := by
  refine Keeps.trans hs ?_
  unfold execClauseBranch
  rw [State.after_next]
  repeat' first
    | with_reducible exact Keeps.refl _
    | with_reducible apply State.issue_keeps

theorem execClauseMark_keeps {u : State} {s : State} (hs : Keeps u s) : Keeps u ((State.after (s) (execClauseMark (s)))) := by
  refine Keeps.trans hs ?_
  unfold execClauseMark
  rw [State.after_next]
  repeat' first
    | with_reducible exact Keeps.refl _
    | with_reducible apply State.issue_keeps

theorem execClauseYield_keeps {u : State} {s : State} (hs : Keeps u s) : Keeps u ((State.after (s) (execClauseYield (s)))) := by
  refine Keeps.trans hs ?_
  unfold execClauseYield
  rw [State.after_next]
  repeat' first
    | with_reducible exact Keeps.refl _
    | with_reducible apply State.issue_keeps

theorem execClauseAbort_keeps {u : State} {s : State} (hs : Keeps u s) : Keeps u ((State.after (s) (execClauseAbort (s)))) := by
  refine Keeps.trans hs ?_
  unfold execClauseAbort
  rw [State.after_next]
  repeat' first
    | with_reducible exact Keeps.refl _
    | with_reducible apply State.issue_keeps

theorem execClauseEnd_keeps {u : State} {s : State} (hs : Keeps u s) : Keeps u ((State.after (s) (execClauseEnd (s)))) := by
  refine Keeps.trans hs ?_
  unfold execClauseEnd
  rw [State.after_next]
  repeat' first
    | with_reducible exact Keeps.refl _
    | with_reducible apply State.issue_keeps

theorem execClauseRunaway_keeps {u : State} {ctx : Nat} {s : State} (hs : Keeps u s) : Keeps u ((State.after (s) (execClauseRunaway (ctx) (s)))) := by
  refine Keeps.trans hs ?_
  unfold execClauseRunaway
  rw [State.after_next]
  repeat' first
    | with_reducible exact Keeps.refl _
    | with_reducible apply State.runaway_keeps

theorem execStageResume_keeps {u : State} {ctx : Nat} {s : State} (hs : Keeps u s) : Keeps u ((State.after (s) (execStageResume (ctx) (s)))) := by
  refine Keeps.trans hs ?_
  unfold execStageResume
  rw [State.after_next]
  repeat' first
    | with_reducible exact Keeps.refl _
    | with_reducible apply State.restage_keeps

theorem execGrantRetry_keeps {u : State} {resource : Nat} {s : State} (hs : Keeps u s) : Keeps u ((State.after (s) (execGrantRetry (resource) (s)))) := by
  refine Keeps.trans hs ?_
  unfold execGrantRetry
  rw [State.after_next]
  repeat' first
    | with_reducible exact Keeps.refl _
    | with_reducible apply State.grantRetry_keeps

theorem State.missRecord_keeps {u : State} {s : State} {n src : Nat} {code : ErrCode} (hs : Keeps u s) : Keeps u ((State.missRecord (s) (n) (src) (code))) := by
  refine Keeps.trans hs ?_
  unfold State.missRecord
  repeat' first
    | with_reducible exact Keeps.refl _
    | with_reducible apply State.logT_keeps
    | with_reducible apply State.writeRecord_keeps

theorem State.deadlineMiss_keeps {u : State} {s : State} {c : Nat} (hs : Keeps u s) : Keeps u ((State.deadlineMiss (s) (c))) := by
  refine Keeps.trans hs ?_
  unfold State.deadlineMiss
  repeat' first
    | with_reducible exact Keeps.refl _
    | (intro x; clear_value x)
    | lift_lets -underBinder
    | with_reducible apply Keeps.ite
    | with_reducible apply State.missRecord_keeps
    | with_reducible apply State.updCtx_keeps
    | split

theorem execDeadlineMiss_keeps {u : State} {ctx : Nat} {s : State} (hs : Keeps u s) : Keeps u ((State.after (s) (execDeadlineMiss (ctx) (s)))) := by
  refine Keeps.trans hs ?_
  unfold execDeadlineMiss
  rw [State.after_next]
  repeat' first
    | with_reducible exact Keeps.refl _
    | with_reducible apply State.deadlineMiss_keeps

theorem State.clauseTimeout_keeps {u : State} {s : State} {c : Nat} (hs : Keeps u s) : Keeps u ((State.clauseTimeout (s) (c))) := by
  refine Keeps.trans hs ?_
  unfold State.clauseTimeout
  repeat' first
    | with_reducible exact Keeps.refl _
    | (intro x; first | (have hf := funext (f := x) (g := x) (fun _ => rfl); clear hf; subst x) | clear_value x)
    | lift_lets -underBinder
    | with_reducible apply Keeps.ite
    | with_reducible apply State.ctxWaitEnds_keeps
    | with_reducible apply State.updTumb_keeps
    | split

theorem execClauseTimeout_keeps {u : State} {ctx : Nat} {s : State} (hs : Keeps u s) : Keeps u ((State.after (s) (execClauseTimeout (ctx) (s)))) := by
  refine Keeps.trans hs ?_
  unfold execClauseTimeout
  rw [State.after_next]
  repeat' first
    | with_reducible exact Keeps.refl _
    | with_reducible apply State.clauseTimeout_keeps

theorem State.sleepEnd_keeps {u : State} {s : State} {c : Nat} (hs : Keeps u s) : Keeps u ((State.sleepEnd (s) (c))) := by
  refine Keeps.trans hs ?_
  unfold State.sleepEnd
  repeat' first
    | with_reducible exact Keeps.refl _
    | with_reducible apply Keeps.ite
    | with_reducible apply State.ctxNext_keeps
    | split

theorem execSleepEnd_keeps {u : State} {ctx : Nat} {s : State} (hs : Keeps u s) : Keeps u ((State.after (s) (execSleepEnd (ctx) (s)))) := by
  refine Keeps.trans hs ?_
  unfold execSleepEnd
  rw [State.after_next]
  repeat' first
    | with_reducible exact Keeps.refl _
    | with_reducible apply State.sleepEnd_keeps

theorem State.contextSwap_pick_keeps {u s : State} {c : Nat} {x : Ctx} {capped : Bool} {start : Option Nat → Nat → State}
    (k : ∀ v j, Keeps u (start v j)) (hs : Keeps u s) : Keeps u (State.contextSwap.pick s c x capped start) := by
  unfold State.contextSwap.pick
  simp only []
  split
  · exact k _ _
  · exact hs

theorem State.contextSwap_keeps {u s : State} (hs : Keeps u s) : Keeps u s.contextSwap := by
  unfold State.contextSwap
  refine Keeps.ite hs ?_
  lift_lets -underBinder
  intro ready best
  clear_value best
  rcases best with _ | ⟨c, x⟩
  · exact hs
  · dsimp -zeta only
    lift_lets -underBinder
    intro capped free start
    have hk : ∀ v j, Keeps u (start v j) := by
      intro v j
      refine State.nwRead_keeps (State.updTsu_keeps (fun _ => ⟨⟨rfl, fun h => h⟩, rfl⟩) ?_)
      split
      · exact State.sliceWrite_keeps (State.updCtx_keeps hs)
      · exact hs
    clear_value start free
    rcases free with _ | k
    rotate_left
    · exact Keeps.ite (hk _ _) (State.contextSwap_pick_keeps hk hs)
    · exact State.contextSwap_pick_keeps hk hs

theorem execContextSwap_keeps {u : State} {s : State} (hs : Keeps u s) : Keeps u ((State.after (s) (execContextSwap (s)))) := by
  refine Keeps.trans hs ?_
  unfold execContextSwap
  rw [State.after_next]
  repeat' first
    | with_reducible exact Keeps.refl _
    | with_reducible apply State.contextSwap_keeps

theorem State.swapDone_keeps {u : State} {s : State} {ok : Bool} {ns : Nat} (hs : Keeps u s) : Keeps u ((State.swapDone (s) (ok) (ns))) := by
  refine Keeps.trans hs ?_
  unfold State.swapDone
  repeat' first
    | with_reducible exact Keeps.refl _
    | with_reducible assumption
    | (intro x; (refine Keeps.use (x := x) ?_ (fun hx => ?_); rotate_left; clear_value x; rotate_right; subst x))
    | lift_lets -underBinder
    | with_reducible apply Keeps.ite
    | with_reducible apply State.ctxHalt_keeps
    | with_reducible apply State.logT_keeps
    | with_reducible apply State.updCtx_keeps
    | ((with_reducible apply State.updTsu_keeps); focus (intro t; exact ⟨⟨rfl, fun h => h⟩, rfl⟩))
    | split

theorem execContextSwapDone_keeps {u : State} {ok : Bool} {ns : Nat} {s : State} (hs : Keeps u s) : Keeps u ((State.after (s) (execContextSwapDone (ok) (ns) (s)))) := by
  refine Keeps.trans hs ?_
  unfold execContextSwapDone
  rw [State.after_next]
  repeat' first
    | with_reducible exact Keeps.refl _
    | with_reducible apply State.swapDone_keeps

end Sys2Proof.Machine
end

