-- ==== Sys2Proof/Laws/FrameLaunch.lean ====
section
/-! SUPPORT. What the operations of `Sys2Proof.Machine.Launch` leave alone, one lemma per operation. -/

namespace Sys2Proof.Machine

open Sys2Proof

set_option linter.unusedVariables false

theorem State.tsuLatencySend_keeps {u : State} {s : State} {lane : Nat} (hs : Keeps u s) : Keeps u ((State.tsuLatencySend (s) (lane))) := by
  refine Keeps.trans hs ?_
  unfold State.tsuLatencySend
  repeat' first
    | with_reducible exact Keeps.refl _
    | with_reducible assumption
    | (intro x; first | (refine Keeps.use (x := x) ?_ (fun hx => ?_); rotate_left; clear_value x; rotate_right; subst x) | clear_value x)
    | lift_lets -underBinder
    | with_reducible apply Keeps.ite
    | with_reducible apply State.send_keeps
    | ((with_reducible apply State.updTsu_keeps); focus (intro t; exact ⟨⟨rfl, fun h => h⟩, rfl⟩))

theorem State.launchAtSend_keeps {u : State} {s : State} {id : Nat} (hs : Keeps u s) : Keeps u ((State.launchAtSend (s) (id))) := by
  refine Keeps.trans hs ?_
  unfold State.launchAtSend
  repeat' first
    | with_reducible exact Keeps.refl _
    | with_reducible assumption
    | (intro x; first | (refine Keeps.use (x := x) ?_ (fun hx => ?_); rotate_left; clear_value x; rotate_right; subst x) | clear_value x | skip)
    | lift_lets -underBinder
    | with_reducible apply Keeps.ite
    | with_reducible apply State.busSend_keeps
    | with_reducible apply State.slotLost_keeps
    | with_reducible apply State.updArm_keeps
    | with_reducible apply Keeps.foldl
    | split

theorem execLaunchAtSend_keeps {u : State} {arm : Nat} {s : State} (hs : Keeps u s) : Keeps u ((State.after (s) (execLaunchAtSend (arm) (s)))) := by
  refine Keeps.trans hs ?_
  unfold execLaunchAtSend
  rw [State.after_next]
  repeat' first
    | with_reducible exact Keeps.refl _
    | with_reducible apply State.launchAtSend_keeps

theorem State.firedRecord_keeps {u : State} {s : State} {p : Nat} {f : Fired} {code : ErrCode} {detail : Int} (hs : Keeps u s) : Keeps u ((State.firedRecord (s) (p) (f) (code) (detail))) := by
  refine Keeps.trans hs ?_
  unfold State.firedRecord
  repeat' first
    | with_reducible exact Keeps.refl _
    | with_reducible assumption
    | (intro x; (refine Keeps.use (x := x) ?_ (fun hx => ?_); rotate_left; clear_value x; rotate_right; subst x))
    | lift_lets -underBinder
    | with_reducible apply State.logT_keeps
    | with_reducible apply State.noteCode_keeps
    | with_reducible apply State.writeRecord_keeps
    | split

theorem State.portTaken_keeps {u : State} {s : State} {p : Nat} {f : Fired} (hs : Keeps u s) : Keeps u ((State.portTaken (s) (p) (f))) := by
  refine Keeps.trans hs ?_
  unfold State.portTaken
  repeat' first
    | with_reducible exact Keeps.refl _
    | with_reducible assumption
    | (intro x; (refine Keeps.use (x := x) ?_ (fun hx => ?_); rotate_left; clear_value x; rotate_right; subst x))
    | lift_lets -underBinder
    | with_reducible apply Keeps.ite
    | with_reducible apply State.raiseAbort_keeps
    | with_reducible apply State.updPort_keeps
    | with_reducible apply State.updSlice_keeps

theorem State.portCapture_keeps {u : State} {s : State} {p : Nat} {stamp : Int} {period : Nat} {ready : Bool} (hs : Keeps u s) : Keeps u ((State.portCapture (s) (p) (stamp) (period) (ready))) := by
  refine Keeps.trans hs ?_
  unfold State.portCapture
  repeat' first
    | with_reducible exact Keeps.refl _
    | with_reducible assumption
    | (intro x; first | (refine Keeps.use (x := x) ?_ (fun hx => ?_); rotate_left; clear_value x; rotate_right; subst x) | clear_value x)
    | lift_lets -underBinder
    | with_reducible apply Keeps.ite
    | with_reducible apply State.firedRecord_keeps
    | with_reducible apply State.portTaken_keeps
    | with_reducible apply State.updPort_keeps
    | split

theorem execPortCapture_keeps {u : State} {port : Nat} {edge : CaptureEdge} {cmdReady : Bool} {s : State} (hs : Keeps u s) : Keeps u ((State.after (s) (execPortCapture (port) (edge) (cmdReady) (s)))) := by
  refine Keeps.trans hs ?_
  unfold execPortCapture
  rw [State.after_next]
  repeat' first
    | with_reducible exact Keeps.refl _
    | with_reducible apply State.portCapture_keeps
    | with_reducible apply State.startsWaiting_keeps

theorem State.cmdTaken_keeps {u : State} {s : State} {p : Nat} {stamp : Int} (hs : Keeps u s) : Keeps u ((State.cmdTaken (s) (p) (stamp))) := by
  refine Keeps.trans hs ?_
  unfold State.cmdTaken
  repeat' first
    | with_reducible exact Keeps.refl _
    | (intro x; clear_value x)
    | lift_lets -underBinder
    | with_reducible apply State.firedRecord_keeps
    | with_reducible apply State.portTaken_keeps
    | with_reducible apply State.updPort_keeps
    | split

theorem execLpCmdTaken_keeps {u : State} {port : Nat} {stamp : Int} {s : State} (hs : Keeps u s) : Keeps u ((State.after (s) (execLpCmdTaken (port) (stamp) (s)))) := by
  refine Keeps.trans hs ?_
  unfold execLpCmdTaken
  rw [State.after_next]
  repeat' first
    | with_reducible exact Keeps.refl _
    | with_reducible apply State.cmdTaken_keeps
    | with_reducible apply State.startsWaiting_keeps

theorem State.sliceAbortGo_keeps {u : State} {s : State} {w : Word} (hs : Keeps u s) : Keeps u ((State.sliceAbortGo (s) (w))) := by
  refine Keeps.trans hs ?_
  unfold State.sliceAbortGo
  repeat' first
    | with_reducible exact Keeps.refl _
    | with_reducible assumption
    | (intro x; (refine Keeps.use (x := x) ?_ (fun hx => ?_); rotate_left; clear_value x; rotate_right; subst x))
    | lift_lets -underBinder
    | with_reducible apply Keeps.ite
    | with_reducible apply State.logT_keeps
    | with_reducible apply State.order_keeps
    | with_reducible apply State.setReg_keeps
    | ((with_reducible apply State.updTsu_keeps); focus (intro t; exact ⟨⟨rfl, fun h => h⟩, rfl⟩))

theorem execSliceAbortGo_keeps {u : State} {w : Word} {s : State} (hs : Keeps u s) : Keeps u ((State.after (s) (execSliceAbortGo (w) (s)))) := by
  refine Keeps.trans hs ?_
  unfold execSliceAbortGo
  rw [State.after_next]
  repeat' first
    | with_reducible exact Keeps.refl _
    | with_reducible apply State.sliceAbortGo_keeps

theorem State.tsuAbortRx_keeps {u : State} {s : State} {l : LinkId} {f : Frame} (hs : Keeps u s) : Keeps u ((State.tsuAbortRx (s) (l) (f))) := by
  refine Keeps.trans hs ?_
  unfold State.tsuAbortRx
  repeat' first
    | with_reducible exact Keeps.refl _
    | (intro x; clear_value x)
    | lift_lets -underBinder
    | with_reducible apply Keeps.ite
    | with_reducible apply State.logT_keeps
    | with_reducible apply State.malformed_keeps
    | with_reducible apply State.order_keeps
    | split

theorem State.tsuOrderRx_keeps {u : State} {s : State} {l : LinkId} {f : Frame} (hs : Keeps u s) : Keeps u ((State.tsuOrderRx (s) (l) (f))) := by
  refine Keeps.trans hs ?_
  unfold State.tsuOrderRx
  repeat' first
    | with_reducible exact Keeps.refl _
    | (intro x; clear_value x)
    | lift_lets -underBinder
    | with_reducible apply Keeps.ite
    | with_reducible apply State.logT_keeps
    | with_reducible apply State.malformed_keeps
    | with_reducible apply State.order_keeps
    | split

theorem State.portAcked_keeps {u : State} {s : State} {p n : Nat} (hs : Keeps u s) : Keeps u ((State.portAcked (s) (p) (n))) := by
  refine Keeps.trans hs ?_
  unfold State.portAcked
  repeat' first
    | with_reducible exact Keeps.refl _
    | with_reducible assumption
    | (intro x; first | (refine Keeps.use (x := x) ?_ (fun hx => ?_); rotate_left; clear_value x; rotate_right; subst x) | clear_value x)
    | lift_lets -underBinder
    | with_reducible apply State.abortCheck_keeps
    | with_reducible apply State.updPort_keeps
    | with_reducible apply State.updSlice_keeps

theorem execLpAbortAck_keeps {u : State} {port : Nat} {s : State} (hs : Keeps u s) : Keeps u ((State.after (s) (execLpAbortAck (port) (s)))) := by
  refine Keeps.trans hs ?_
  unfold execLpAbortAck
  rw [State.after_next]
  repeat' first
    | with_reducible exact Keeps.refl _
    | with_reducible apply State.portAcked_keeps
    | split

theorem State.engAbortLimit_keeps {u : State} {s : State} {p : Nat} (hs : Keeps u s) : Keeps u ((State.engAbortLimit (s) (p))) := by
  refine Keeps.trans hs ?_
  unfold State.engAbortLimit
  repeat' first
    | with_reducible exact Keeps.refl _
    | with_reducible assumption
    | (intro x; first | (refine Keeps.use (x := x) ?_ (fun hx => ?_); rotate_left; clear_value x; rotate_right; subst x) | clear_value x | skip)
    | lift_lets -underBinder
    | with_reducible apply Keeps.ite
    | with_reducible apply State.abortCheck_keeps
    | with_reducible apply State.healthSend_keeps
    | with_reducible apply State.logT_keeps
    | with_reducible apply State.portReset_keeps
    | with_reducible apply State.updSlice_keeps
    | with_reducible apply Keeps.foldl
    | split

theorem execEngAbortLimitExpiry_keeps {u : State} {port : Nat} {s : State} (hs : Keeps u s) : Keeps u ((State.after (s) (execEngAbortLimitExpiry (port) (s)))) := by
  refine Keeps.trans hs ?_
  unfold execEngAbortLimitExpiry
  rw [State.after_next]
  repeat' first
    | with_reducible exact Keeps.refl _
    | with_reducible apply State.engAbortLimit_keeps

theorem execMarginClear_keeps {u : State} {s : State} (hs : Keeps u s) : Keeps u ((State.after (s) (execMarginClear (s)))) := by
  refine Keeps.trans hs ?_
  unfold execMarginClear
  rw [State.after_next]
  repeat' first
    | with_reducible exact Keeps.refl _
    | ((with_reducible apply State.updTsu_keeps); focus (intro t; exact ⟨⟨rfl, fun h => h⟩, rfl⟩))

theorem State.headerAck_keeps {u : State} {s : State} {n : Nat} (hs : Keeps u s) : Keeps u ((State.headerAck (s) (n))) := by
  refine Keeps.trans hs ?_
  unfold State.headerAck
  repeat' first
    | with_reducible exact Keeps.refl _
    | with_reducible assumption
    | (intro x; first | (refine Keeps.use (x := x) ?_ (fun hx => ?_); rotate_left; clear_value x; rotate_right; subst x) | clear_value x | skip)
    | lift_lets -underBinder
    | with_reducible apply Keeps.ite
    | with_reducible apply State.dropArm_keeps
    | with_reducible apply State.logT_keeps
    | with_reducible apply State.updArm_keeps
    | with_reducible apply State.updSlice_keeps
    | with_reducible apply Keeps.foldl

theorem execListHeaderAck_keeps {u : State} {slice : Nat} {s : State} (hs : Keeps u s) : Keeps u ((State.after (s) (execListHeaderAck (slice) (s)))) := by
  refine Keeps.trans hs ?_
  unfold execListHeaderAck
  rw [State.after_next]
  repeat' first
    | with_reducible exact Keeps.refl _
    | with_reducible apply State.headerAck_keeps

theorem State.writeAck_keeps {u : State} {s : State} {error : Bool} (hs : Keeps u s) : Keeps u ((State.writeAck (s) (error))) := by
  refine Keeps.trans hs ?_
  unfold State.writeAck
  repeat' first
    | with_reducible exact Keeps.refl _
    | with_reducible assumption
    | (intro x; (refine Keeps.use (x := x) ?_ (fun hx => ?_); rotate_left; clear_value x; rotate_right; subst x))
    | lift_lets -underBinder
    | with_reducible apply Keeps.ite
    | with_reducible apply State.ctxHalt_keeps
    | with_reducible apply State.ctxNext_keeps
    | with_reducible apply State.headerAck_keeps
    | with_reducible apply State.logT_keeps
    | with_reducible apply State.ringVector_keeps
    | with_reducible apply State.setEvt_keeps
    | with_reducible apply State.updSlice_keeps
    | ((with_reducible apply State.updTsu_keeps); focus (intro t; exact ⟨⟨rfl, fun h => h⟩, rfl⟩))
    | split

theorem execNwWriteAck_keeps {u : State} {error : Bool} {s : State} (hs : Keeps u s) : Keeps u ((State.after (s) (execNwWriteAck (error) (s)))) := by
  refine Keeps.trans hs ?_
  unfold execNwWriteAck
  rw [State.after_next]
  repeat' first
    | with_reducible exact Keeps.refl _
    | with_reducible apply State.writeAck_keeps

end Sys2Proof.Machine
end

