-- ==== Sys2Proof/Laws/FrameImages.lean ====
section
/-! SUPPORT. What the operations of `Sys2Proof.Machine.Images` leave alone, one lemma per operation. -/

namespace Sys2Proof.Machine

open Sys2Proof

set_option linter.unusedVariables false

theorem State.tsuRefuse_keeps {u : State} {s : State} {slice : Option Nat} {r : Refused} (hs : Keeps u s) : Keeps u ((State.tsuRefuse (s) (slice) (r))) := by
  refine Keeps.trans hs ?_
  unfold State.tsuRefuse
  repeat' first
    | with_reducible exact Keeps.refl _
    | with_reducible assumption
    | (intro x; (refine Keeps.use (x := x) ?_ (fun hx => ?_); rotate_left; clear_value x; rotate_right; subst x))
    | lift_lets -underBinder
    | with_reducible apply State.logT_keeps
    | with_reducible apply State.updSlice_keeps
    | ((with_reducible apply State.updTsu_keeps); focus (intro t; exact ⟨⟨rfl, fun h => h⟩, rfl⟩))
    | split

theorem State.schedLoaded_keeps {u : State} {s : State} {n : Nat} {b : List Byte} {received : Nat} {inBand : Bool} (hs : Keeps u s) : Keeps u ((State.schedLoaded (s) (n) (b) (received) (inBand))) := by
  refine Keeps.trans hs ?_
  unfold State.schedLoaded
  repeat' first
    | with_reducible exact Keeps.refl _
    | with_reducible assumption
    | (intro x; (refine Keeps.use (x := x) ?_ (fun hx => ?_); rotate_left; clear_value x; rotate_right; subst x))
    | lift_lets -underBinder
    | with_reducible apply Keeps.ite
    | with_reducible apply State.logT_keeps
    | with_reducible apply State.tsuRefuse_keeps
    | with_reducible apply State.updSlice_keeps
    | split

theorem State.imageLoad_keeps {u : State} {s : State} {n : Nat} (hs : Keeps u s) : Keeps u ((State.imageLoad (s) (n))) := by
  refine Keeps.trans hs ?_
  unfold State.imageLoad
  repeat' first
    | with_reducible exact Keeps.refl _
    | (intro x; first | clear_value x | skip)
    | lift_lets -underBinder
    | with_reducible apply Keeps.ite
    | with_reducible apply State.nwRead_keeps
    | with_reducible apply State.spGuard_keeps
    | with_reducible apply State.tsuRefuse_keeps
    | with_reducible apply State.updSlice_keeps

theorem execImageLoad_keeps {u : State} {slice : Nat} {s : State} (hs : Keeps u s) : Keeps u ((State.after (s) (execImageLoad (slice) (s)))) := by
  refine Keeps.trans hs ?_
  unfold execImageLoad
  rw [State.after_next]
  repeat' first
    | with_reducible exact Keeps.refl _
    | with_reducible apply State.imageLoad_keeps

theorem State.imageUnload_keeps {u : State} {s : State} {n : Nat} (hs : Keeps u s) : Keeps u ((State.imageUnload (s) (n))) := by
  refine Keeps.trans hs ?_
  unfold State.imageUnload
  repeat' first
    | with_reducible exact Keeps.refl _
    | intro x
    | lift_lets -underBinder
    | with_reducible apply Keeps.ite
    | with_reducible apply State.spGuard_keeps
    | with_reducible apply State.tsuRefuse_keeps
    | with_reducible apply State.updSlice_keeps

theorem execImageUnload_keeps {u : State} {slice : Nat} {s : State} (hs : Keeps u s) : Keeps u ((State.after (s) (execImageUnload (slice) (s)))) := by
  refine Keeps.trans hs ?_
  unfold execImageUnload
  rw [State.after_next]
  repeat' first
    | with_reducible exact Keeps.refl _
    | with_reducible apply State.imageUnload_keeps

theorem State.dropContexts_keeps {u : State} {s : State} {n : Nat} (hs : Keeps u s) : Keeps u ((State.dropContexts (s) (n))) := by
  refine Keeps.trans hs ?_
  unfold State.dropContexts
  repeat' first
    | with_reducible exact Keeps.refl _
    | ((with_reducible apply State.updTsu_keeps); focus (intro t; exact ⟨⟨rfl, fun h => h⟩, rfl⟩))

theorem State.imageSwitch_keeps {u : State} {s : State} {n : Nat} {m : Option SchedImage} (hs : Keeps u s) : Keeps u ((State.imageSwitch (s) (n) (m))) := by
  refine Keeps.trans hs ?_
  unfold State.imageSwitch
  repeat' first
    | with_reducible exact Keeps.refl _
    | with_reducible assumption
    | (intro x; first | (refine Keeps.use (x := x) ?_ (fun hx => ?_); rotate_left; clear_value x; rotate_right; subst x) | skip)
    | lift_lets -underBinder
    | with_reducible apply Keeps.ite
    | with_reducible apply State.closeTumb_keeps
    | with_reducible apply State.createTumb_keeps
    | with_reducible apply State.dropContexts_keeps
    | with_reducible apply State.logT_keeps
    | with_reducible apply State.startCtx_keeps
    | with_reducible apply State.updSlice_keeps
    | with_reducible apply State.updTumb_keeps
    | with_reducible apply Keeps.foldl
    | split

theorem execScheduleImageCurrent_keeps {u : State} {slice : Nat} {s : State} (hs : Keeps u s) : Keeps u ((State.after (s) (execScheduleImageCurrent (slice) (s)))) := by
  refine Keeps.trans hs ?_
  unfold execScheduleImageCurrent
  rw [State.after_next]
  repeat' first
    | with_reducible exact Keeps.refl _
    | with_reducible apply Keeps.ite
    | with_reducible apply State.imageSwitch_keeps
    | split

theorem State.readResponse_keeps {u : State} {s : State} {data : List Byte} {error : Bool} (hs : Keeps u s) : Keeps u ((State.readResponse (s) (data) (error))) := by
  refine Keeps.trans hs ?_
  unfold State.readResponse
  repeat' first
    | with_reducible exact Keeps.refl _
    | with_reducible assumption
    | (intro x; (refine Keeps.use (x := x) ?_ (fun hx => ?_); rotate_left; clear_value x; rotate_right; subst x))
    | lift_lets -underBinder
    | with_reducible apply Keeps.ite
    | with_reducible apply State.ctxArrive_keeps
    | with_reducible apply State.ctxNext_keeps
    | with_reducible apply State.logT_keeps
    | with_reducible apply State.schedLoaded_keeps
    | with_reducible apply State.softArrive_keeps
    | with_reducible apply State.spCode_keeps
    | with_reducible apply State.tsuRefuse_keeps
    | with_reducible apply State.updSlice_keeps
    | with_reducible apply State.waitRecord_keeps
    | ((with_reducible apply State.updTsu_keeps); focus (intro t; exact ⟨⟨rfl, fun h => h⟩, rfl⟩))
    | split

theorem execNwReadResponse_keeps {u : State} {data : List Byte} {error : Bool} {s : State} (hs : Keeps u s) : Keeps u ((State.after (s) (execNwReadResponse (data) (error) (s)))) := by
  refine Keeps.trans hs ?_
  unfold execNwReadResponse
  rw [State.after_next]
  repeat' first
    | with_reducible exact Keeps.refl _
    | with_reducible apply State.readResponse_keeps

end Sys2Proof.Machine
end

