-- ==== Sys2Proof/Laws/FrameRefOps.lean ====
section
/-! SUPPORT. What the operations of `Sys2Proof.Machine.RefOps` leave alone, one lemma per operation. -/

namespace Sys2Proof.Machine

open Sys2Proof

set_option linter.unusedVariables false

theorem State.refStateUpdate_keeps {u : State} {s : State} {oldT oldF : Option Nat} (hs : Keeps u s) : Keeps u ((State.refStateUpdate (s) (oldT) (oldF))) := by
  refine Keeps.trans hs ?_
  unfold State.refStateUpdate
  repeat' first
    | with_reducible exact Keeps.refl _
    | with_reducible assumption
    | (intro x; first | (refine Keeps.use (x := x) ?_ (fun hx => ?_); rotate_left; clear_value x; rotate_right; subst x) | clear_value x)
    | lift_lets -underBinder
    | with_reducible apply Keeps.ite
    | with_reducible apply State.logG_keeps
    | with_reducible apply State.updRef_keeps
    | with_reducible apply State.updRefSrc_keeps
    | split

theorem State.refSelect_keeps {u : State} {s : State} (hs : Keeps u s) : Keeps u ((State.refSelect (s))) := by
  refine Keeps.trans hs ?_
  unfold State.refSelect
  repeat' first
    | with_reducible exact Keeps.refl _
    | with_reducible assumption
    | (intro x; first | (refine Keeps.use (x := x) ?_ (fun hx => ?_); rotate_left; clear_value x; rotate_right; subst x) | clear_value x)
    | lift_lets -underBinder
    | with_reducible apply State.refStateUpdate_keeps
    | with_reducible apply State.updRef_keeps

theorem State.becomeRoot_keeps {u : State} {s : State} (hs : Keeps u s) : Keeps u ((State.becomeRoot (s))) := by
  refine Keeps.trans hs ?_
  unfold State.becomeRoot
  repeat' first
    | with_reducible exact Keeps.refl _
    | with_reducible assumption
    | (intro x; (refine Keeps.use (x := x) ?_ (fun hx => ?_); rotate_left; clear_value x; rotate_right; subst x))
    | lift_lets -underBinder
    | with_reducible apply State.refSelect_keeps
    | ((with_reducible apply State.updTimeQ_keeps); focus (intro t; exact ⟨rfl, fun h => h⟩))
    | with_reducible apply State.updRef_keeps

theorem State.takeOver_keeps {u : State} {s : State} (hs : Keeps u s) : Keeps u ((State.takeOver (s))) := by
  refine Keeps.trans hs ?_
  unfold State.takeOver
  repeat' first
    | with_reducible exact Keeps.refl _
    | lift_lets -underBinder
    | with_reducible apply State.becomeRoot_keeps
    | with_reducible apply State.logG_keeps
    | ((with_reducible apply State.updGd_keeps); focus (intro t; exact ⟨⟨rfl, fun h => h⟩, rfl⟩))

theorem State.refFault_keeps {u : State} {s : State} {src : Nat} {bit : Word} (hs : Keeps u s) : Keeps u ((State.refFault (s) (src) (bit))) := by
  refine Keeps.trans hs ?_
  unfold State.refFault
  repeat' first
    | with_reducible exact Keeps.refl _
    | with_reducible assumption
    | (intro x; first | (refine Keeps.use (x := x) ?_ (fun hx => ?_); rotate_left; clear_value x; rotate_right; subst x) | clear_value x)
    | lift_lets -underBinder
    | with_reducible apply Keeps.ite
    | with_reducible apply State.logG_keeps
    | with_reducible apply State.refSelect_keeps
    | with_reducible apply State.setEvt_keeps
    | with_reducible apply State.updRefSrc_keeps

theorem State.refGood_keeps {u : State} {s : State} {src : Nat} (hs : Keeps u s) : Keeps u ((State.refGood (s) (src))) := by
  refine Keeps.trans hs ?_
  unfold State.refGood
  repeat' first
    | with_reducible exact Keeps.refl _
    | (intro x; clear_value x)
    | lift_lets -underBinder
    | with_reducible apply State.updRefSrc_keeps

theorem State.refPresence_keeps {u : State} {s : State} {src : Nat} (hs : Keeps u s) : Keeps u ((State.refPresence (s) (src))) := by
  refine Keeps.trans hs ?_
  unfold State.refPresence
  repeat' first
    | with_reducible exact Keeps.refl _
    | (intro x; clear_value x)
    | lift_lets -underBinder
    | with_reducible apply State.updRefSrc_keeps

theorem State.refsConfig_keeps {u : State} {s : State} (hs : Keeps u s) : Keeps u ((State.refsConfig (s))) := by
  refine Keeps.trans hs ?_
  unfold State.refsConfig
  repeat' first
    | with_reducible exact Keeps.refl _
    | intro x
    | lift_lets -underBinder
    | with_reducible apply State.refPresence_keeps
    | with_reducible apply State.refSelect_keeps
    | with_reducible apply Keeps.foldl

theorem State.noteRate_keeps {u : State} {s : State} {src : Nat} {dev : Int} (hs : Keeps u s) : Keeps u ((State.noteRate (s) (src) (dev))) := by
  refine Keeps.trans hs ?_
  unfold State.noteRate
  repeat' first
    | with_reducible exact Keeps.refl _
    | with_reducible assumption
    | (intro x; first | (refine Keeps.use (x := x) ?_ (fun hx => ?_); rotate_left; clear_value x; rotate_right; subst x) | clear_value x)
    | lift_lets -underBinder
    | with_reducible apply Keeps.ite
    | with_reducible apply State.updRef_keeps
    | with_reducible apply State.updRefSrc_keeps

theorem State.outputsTick_keeps {u : State} {s : State} {before : Int} (hs : Keeps u s) : Keeps u ((State.outputsTick (s) (before))) := by
  refine Keeps.trans hs ?_
  unfold State.outputsTick
  repeat' first
    | with_reducible exact Keeps.refl _
    | (intro x; first | (have hf := funext (f := x) (g := x) (fun _ => rfl); clear hf; subst x) | clear_value x)
    | lift_lets -underBinder
    | ((with_reducible apply State.updGd_keeps); focus (intro t; exact ⟨⟨rfl, fun h => h⟩, rfl⟩))

theorem State.outputsAlign_keeps {u : State} {s : State} {realign : Bool} (hs : Keeps u s) : Keeps u ((State.outputsAlign (s) (realign))) := by
  refine Keeps.trans hs ?_
  unfold State.outputsAlign
  repeat' first
    | with_reducible exact Keeps.refl _
    | with_reducible assumption
    | (intro x; (refine Keeps.use (x := x) ?_ (fun hx => ?_); rotate_left; clear_value x; rotate_right; subst x))
    | lift_lets -underBinder
    | ((with_reducible apply State.updGd_keeps); focus (intro t; exact ⟨⟨rfl, fun h => h⟩, rfl⟩))

end Sys2Proof.Machine
end

