-- ==== Sys2Proof/Laws/FrameTimeTransfer.lean ====
section
/-! SUPPORT. What the operations of `Sys2Proof.Machine.TimeTransfer` leave alone, one lemma per operation. -/

namespace Sys2Proof.Machine

open Sys2Proof

set_option linter.unusedVariables false

theorem State.timeFrameSend_keeps {u : State} {s : State} {l : LinkId} {stamp : Int} (hs : Keeps u s) : Keeps u ((State.timeFrameSend (s) (l) (stamp))) := by
  refine Keeps.trans hs ?_
  unfold State.timeFrameSend
  repeat' first
    | with_reducible exact Keeps.refl _
    | with_reducible assumption
    | (intro x; first | (refine Keeps.use (x := x) ?_ (fun hx => ?_); rotate_left; clear_value x; rotate_right; subst x) | clear_value x)
    | lift_lets -underBinder
    | with_reducible apply Keeps.ite
    | with_reducible apply State.addTokens_keeps
    | ((with_reducible apply State.updTime_keeps); focus (intro t; exact ⟨rfl, fun h => h⟩))
    | with_reducible apply State.updLink_keeps
    | with_reducible apply State.updSrc_keeps

theorem execTimeFrameSend_keeps {u : State} {l : LinkId} {stamp : Int} {s : State} (hs : Keeps u s) : Keeps u ((State.after (s) (execTimeFrameSend (l) (stamp) (s)))) := by
  refine Keeps.trans hs ?_
  unfold execTimeFrameSend
  rw [State.after_next]
  repeat' first
    | with_reducible exact Keeps.refl _
    | with_reducible apply State.timeFrameSend_keeps

theorem State.firstLock_guards {u : State} {s : State} {l : LinkId} {theta : Int} (hs : Guards u s) : Guards u ((State.firstLock (s) (l) (theta))) := by
  refine Guards.trans hs ?_
  unfold State.firstLock
  repeat' first
    | with_reducible exact Guards.refl _
    | with_reducible assumption
    | (intro x; first | (refine Guards.use (x := x) ?_ (fun hx => ?_); rotate_left; clear_value x; rotate_right; subst x) | clear_value x)
    | lift_lets -underBinder
    | with_reducible apply Guards.ite
    | with_reducible apply Guards.step (State.becomeRoot_keeps (Keeps.refl _))
    | with_reducible apply Guards.step (State.healthSendEv_keeps (Keeps.refl _))
    | with_reducible apply State.stepCounter_guards
    | ((with_reducible apply State.updTimeQ_guards); focus (intro t; exact ⟨rfl, fun h => h⟩))
    | with_reducible apply State.updRef_guards

theorem State.servoUpdate_keeps {u s : State} {l : LinkId} {theta : Int} (hs : Keeps u s) : Keeps u (s.servoUpdate l theta) := by
  unfold State.servoUpdate
  exact State.updTime_keeps (fun t => TimeDom.servo_steady ..) (State.takeOffset_keeps hs)

theorem State.selectedExchange_guards {u : State} {s : State} {l : LinkId} {theta : Int} (hs : Guards u s) : Guards u ((State.selectedExchange (s) (l) (theta))) := by
  refine Guards.trans hs ?_
  unfold State.selectedExchange
  repeat' first
    | with_reducible exact Guards.refl _
    | with_reducible apply Guards.ite
    | with_reducible apply State.firstLock_guards
    | with_reducible apply Guards.step (State.servoUpdate_keeps (Keeps.refl _))

theorem State.rootSplit_keeps {u : State} {s : State} {l : LinkId} {f : Frame} (hs : Keeps u s) : Keeps u ((State.rootSplit (s) (l) (f))) := by
  refine Keeps.trans hs ?_
  unfold State.rootSplit
  repeat' first
    | with_reducible exact Keeps.refl _
    | with_reducible assumption
    | (intro x; first | (refine Keeps.use (x := x) ?_ (fun hx => ?_); rotate_left; clear_value x; rotate_right; subst x) | clear_value x)
    | lift_lets -underBinder
    | with_reducible apply Keeps.ite
    | with_reducible apply State.logG_keeps
    | with_reducible apply State.selectSource_keeps
    | with_reducible apply State.setEvt_keeps
    | with_reducible apply State.updRef_keeps

theorem State.rootTakeover_keeps {u : State} {s : State} (hs : Keeps u s) : Keeps u ((State.rootTakeover (s))) := by
  refine Keeps.trans hs ?_
  unfold State.rootTakeover
  repeat' first
    | with_reducible exact Keeps.refl _
    | with_reducible apply State.takeOver_keeps

theorem State.takeInfo_keeps {u : State} {s : State} {n : Node} {i : TimeInfo} {q : Quality} (hs : Keeps u s) : Keeps u ((State.takeInfo (s) (n) (i) (q))) := by
  refine Keeps.trans hs ?_
  unfold State.takeInfo
  repeat' first
    | with_reducible exact Keeps.refl _
    | with_reducible assumption
    | (intro x; first | (refine Keeps.use (x := x) ?_ (fun hx => ?_); rotate_left; clear_value x; rotate_right; subst x) | clear_value x)
    | lift_lets -underBinder
    | with_reducible apply State.judgeSender_keeps
    | with_reducible apply State.noteTrace_keeps
    | ((with_reducible apply State.updTime_keeps); focus (intro t; exact ⟨rfl, fun h => h⟩))
    | split

theorem State.timeFrameTake_guards {u : State} {s : State} {l : LinkId} {f : Frame} {stamp : Int} {up : Bool} (hs : Guards u s) : Guards u ((State.timeFrameTake (s) (l) (f) (stamp) (up))) := by
  refine Guards.trans hs ?_
  unfold State.timeFrameTake
  repeat' first
    | with_reducible exact Guards.refl _
    | with_reducible assumption
    | (intro x; first | (refine Guards.use (x := x) ?_ (fun hx => ?_); rotate_left; clear_value x; rotate_right; subst x) | clear_value x)
    | lift_lets -underBinder
    | with_reducible apply Guards.ite
    | with_reducible apply Guards.step (State.rootSplit_keeps (Keeps.refl _))
    | with_reducible apply Guards.step (State.rootTakeover_keeps (Keeps.refl _))
    | with_reducible apply Guards.step (State.selectSource_keeps (Keeps.refl _))
    | with_reducible apply State.selectedExchange_guards
    | with_reducible apply Guards.step (State.takeInfo_keeps (Keeps.refl _))
    | with_reducible apply Guards.step (State.timeDomainReset_keeps (Keeps.refl _))
    | ((with_reducible apply State.updGd_guards); focus (intro t; exact ⟨⟨rfl, fun h => h⟩, rfl⟩))
    | with_reducible apply State.updSrc_guards
    | split

theorem State.timeFrameRx_guards {u : State} {s : State} {l : LinkId} {rx : Rx} {stamp : Int} (hs : Guards u s) : Guards u ((State.timeFrameRx (s) (l) (rx) (stamp))) := by
  refine Guards.trans hs ?_
  unfold State.timeFrameRx
  repeat' first
    | with_reducible exact Guards.refl _
    | with_reducible assumption
    | (intro x; first | (refine Guards.use (x := x) ?_ (fun hx => ?_); rotate_left; clear_value x; rotate_right; subst x) | skip)
    | lift_lets -underBinder
    | with_reducible apply Guards.ite
    | with_reducible apply Guards.step (State.identUp_keeps (Keeps.refl _))
    | with_reducible apply Guards.step (State.log_keeps (Keeps.refl _))
    | with_reducible apply Guards.step (State.malformed_keeps (Keeps.refl _))
    | with_reducible apply Guards.step (State.poisonSlot_keeps (Keeps.refl _))
    | with_reducible apply Guards.step (State.slotTaken_keeps (Keeps.refl _))
    | with_reducible apply State.timeFrameTake_guards
    | with_reducible apply Guards.step (State.uncorrectableSlot_keeps (Keeps.refl _))
    | split

theorem execTimeFrameRx_guards {u : State} {l : LinkId} {rx : Rx} {stamp : Int} {s : State} (hs : Guards u s) : Guards u ((State.after (s) (execTimeFrameRx (l) (rx) (stamp) (s)))) := by
  refine Guards.trans hs ?_
  unfold execTimeFrameRx
  rw [State.after_next]
  repeat' first
    | with_reducible exact Guards.refl _
    | with_reducible apply Guards.step (State.addendWord_keeps (Keeps.refl _))
    | with_reducible apply State.timeFrameRx_guards

theorem State.delayMeasurementDone_keeps {u : State} {s : State} {l : LinkId} (hs : Keeps u s) : Keeps u ((State.delayMeasurementDone (s) (l))) := by
  refine Keeps.trans hs ?_
  unfold State.delayMeasurementDone
  repeat' first
    | with_reducible exact Keeps.refl _
    | with_reducible assumption
    | (intro x; first | (refine Keeps.use (x := x) ?_ (fun hx => ?_); rotate_left; clear_value x; rotate_right; subst x) | clear_value x)
    | lift_lets -underBinder
    | with_reducible apply Keeps.ite
    | with_reducible apply State.acquire_keeps
    | with_reducible apply State.judgeSender_keeps
    | with_reducible apply State.log_keeps
    | with_reducible apply State.selectSource_keeps
    | with_reducible apply State.servoUpdate_keeps
    | with_reducible apply State.setEvt_keeps
    | with_reducible apply State.updSrc_keeps

theorem execDelayMeasurementDone_keeps {u : State} {l : LinkId} {s : State} (hs : Keeps u s) : Keeps u ((State.after (s) (execDelayMeasurementDone (l) (s)))) := by
  refine Keeps.trans hs ?_
  unfold execDelayMeasurementDone
  rw [State.after_next]
  repeat' first
    | with_reducible exact Keeps.refl _
    | with_reducible apply State.addendWord_keeps
    | with_reducible apply State.delayMeasurementDone_keeps

theorem State.delayRestart_keeps {u : State} {s : State} {l : LinkId} (hs : Keeps u s) : Keeps u ((State.delayRestart (s) (l))) := by
  refine Keeps.trans hs ?_
  unfold State.delayRestart
  repeat' first
    | with_reducible exact Keeps.refl _
    | with_reducible assumption
    | (intro x; (refine Keeps.use (x := x) ?_ (fun hx => ?_); rotate_left; clear_value x; rotate_right; subst x))
    | lift_lets -underBinder
    | with_reducible apply Keeps.ite
    | with_reducible apply State.log_keeps
    | with_reducible apply State.setEvt_keeps
    | with_reducible apply State.updSrc_keeps

theorem execDelayRestart_keeps {u : State} {l : LinkId} {s : State} (hs : Keeps u s) : Keeps u ((State.after (s) (execDelayRestart (l) (s)))) := by
  refine Keeps.trans hs ?_
  unfold execDelayRestart
  rw [State.after_next]
  repeat' first
    | with_reducible exact Keeps.refl _
    | with_reducible apply State.delayRestart_keeps

theorem State.timeLoss_keeps {u : State} {s : State} {l : LinkId} (hs : Keeps u s) : Keeps u ((State.timeLoss (s) (l))) := by
  refine Keeps.trans hs ?_
  unfold State.timeLoss
  repeat' first
    | with_reducible exact Keeps.refl _
    | with_reducible assumption
    | (intro x; (refine Keeps.use (x := x) ?_ (fun hx => ?_); rotate_left; clear_value x; rotate_right; subst x))
    | lift_lets -underBinder
    | with_reducible apply Keeps.ite
    | with_reducible apply State.healthSend_keeps
    | with_reducible apply State.log_keeps
    | with_reducible apply State.setEvt_keeps
    | with_reducible apply State.srcInvalid_keeps
    | with_reducible apply State.updSrc_keeps

theorem execTimeLoss_keeps {u : State} {l : LinkId} {s : State} (hs : Keeps u s) : Keeps u ((State.after (s) (execTimeLoss (l) (s)))) := by
  refine Keeps.trans hs ?_
  unfold execTimeLoss
  rw [State.after_next]
  repeat' first
    | with_reducible exact Keeps.refl _
    | with_reducible apply State.timeLoss_keeps

theorem State.sourceSwitchBetter_keeps {u : State} {s : State} {l : LinkId} (hs : Keeps u s) : Keeps u ((State.sourceSwitchBetter (s) (l))) := by
  refine Keeps.trans hs ?_
  unfold State.sourceSwitchBetter
  repeat' first
    | with_reducible exact Keeps.refl _
    | with_reducible apply Keeps.ite
    | with_reducible apply State.takeSource_keeps

theorem execSourceSwitchBetter_keeps {u : State} {l : LinkId} {s : State} (hs : Keeps u s) : Keeps u ((State.after (s) (execSourceSwitchBetter (l) (s)))) := by
  refine Keeps.trans hs ?_
  unfold execSourceSwitchBetter
  rw [State.after_next]
  repeat' first
    | with_reducible exact Keeps.refl _
    | with_reducible apply State.sourceSwitchBetter_keeps

end Sys2Proof.Machine
end

