-- ==== Sys2Proof/Laws/FrameLinks.lean ====
section
/-! SUPPORT. What the operations of `Sys2Proof.Machine.Links` leave alone, one lemma per operation. -/

namespace Sys2Proof.Machine

open Sys2Proof

set_option linter.unusedVariables false

theorem State.trainingAttempt_keeps {u : State} {s : State} {l : LinkId} (hs : Keeps u s) : Keeps u ((State.trainingAttempt (s) (l))) := by
  refine Keeps.trans hs ?_
  unfold State.trainingAttempt
  repeat' first
    | with_reducible exact Keeps.refl _
    | (intro x; clear_value x)
    | lift_lets -underBinder
    | with_reducible apply State.updLink_keeps

theorem execTrainingAttempt_keeps {u : State} {l : LinkId} {s : State} (hs : Keeps u s) : Keeps u ((State.after (s) (execTrainingAttempt (l) (s)))) := by
  refine Keeps.trans hs ?_
  unfold execTrainingAttempt
  rw [State.after_next]
  repeat' first
    | with_reducible exact Keeps.refl _
    | with_reducible apply State.trainingAttempt_keeps

theorem State.attemptFail_keeps {u : State} {s : State} {l : LinkId} (hs : Keeps u s) : Keeps u ((State.attemptFail (s) (l))) := by
  refine Keeps.trans hs ?_
  unfold State.attemptFail
  repeat' first
    | with_reducible exact Keeps.refl _
    | (intro x; clear_value x)
    | lift_lets -underBinder
    | with_reducible apply Keeps.ite
    | with_reducible apply State.attemptOver_keeps

theorem execAttemptFail_keeps {u : State} {l : LinkId} {s : State} (hs : Keeps u s) : Keeps u ((State.after (s) (execAttemptFail (l) (s)))) := by
  refine Keeps.trans hs ?_
  unfold execAttemptFail
  rw [State.after_next]
  repeat' first
    | with_reducible exact Keeps.refl _
    | with_reducible apply State.attemptFail_keeps

theorem execRateSearchSwitch_keeps {u : State} {l : LinkId} {s : State} (hs : Keeps u s) : Keeps u ((State.after (s) (execRateSearchSwitch (l) (s)))) := by
  refine Keeps.trans hs ?_
  unfold execRateSearchSwitch
  rw [State.after_next]
  repeat' first
    | with_reducible exact Keeps.refl _
    | with_reducible apply State.updLink_keeps

theorem State.rxLock_keeps {u : State} {s : State} {l : LinkId} {fallback : Bool} (hs : Keeps u s) : Keeps u ((State.rxLock (s) (l) (fallback))) := by
  refine Keeps.trans hs ?_
  unfold State.rxLock
  repeat' first
    | with_reducible exact Keeps.refl _
    | (intro x; clear_value x)
    | lift_lets -underBinder
    | with_reducible apply State.updLink_keeps

theorem execRxLock_keeps {u : State} {l : LinkId} {fallback : Bool} {s : State} (hs : Keeps u s) : Keeps u ((State.after (s) (execRxLock (l) (fallback) (s)))) := by
  refine Keeps.trans hs ?_
  unfold execRxLock
  rw [State.after_next]
  repeat' first
    | with_reducible exact Keeps.refl _
    | with_reducible apply State.rxLock_keeps

theorem execPmdConverged_keeps {u : State} {l : LinkId} {s : State} (hs : Keeps u s) : Keeps u ((State.after (s) (execPmdConverged (l) (s)))) := by
  refine Keeps.trans hs ?_
  unfold execPmdConverged
  rw [State.after_next]
  repeat' first
    | with_reducible exact Keeps.refl _
    | with_reducible apply State.updLink_keeps

theorem execBlockLockAcquired_keeps {u : State} {l : LinkId} {s : State} (hs : Keeps u s) : Keeps u ((State.after (s) (execBlockLockAcquired (l) (s)))) := by
  refine Keeps.trans hs ?_
  unfold execBlockLockAcquired
  rw [State.after_next]
  repeat' first
    | with_reducible exact Keeps.refl _
    | with_reducible apply State.updLink_keeps

theorem execFrameLockAcquired_keeps {u : State} {l : LinkId} {s : State} (hs : Keeps u s) : Keeps u ((State.after (s) (execFrameLockAcquired (l) (s)))) := by
  refine Keeps.trans hs ?_
  unfold execFrameLockAcquired
  rw [State.after_next]
  repeat' first
    | with_reducible exact Keeps.refl _
    | with_reducible apply State.updLink_keeps

theorem State.neighborCheck_keeps {u : State} {s : State} {l : LinkId} (hs : Keeps u s) : Keeps u ((State.neighborCheck (s) (l))) := by
  refine Keeps.trans hs ?_
  unfold State.neighborCheck
  repeat' first
    | with_reducible exact Keeps.refl _
    | with_reducible assumption
    | (intro x; first | (refine Keeps.use (x := x) ?_ (fun hx => ?_); rotate_left; clear_value x; rotate_right; subst x) | clear_value x)
    | lift_lets -underBinder
    | with_reducible apply Keeps.ite
    | with_reducible apply State.logG_keeps
    | with_reducible apply State.setEvt_keeps
    | with_reducible apply State.updLink_keeps
    | with_reducible apply State.updSrc_keeps
    | split

theorem State.takeAssign_keeps {u : State} {s : State} {l : LinkId} (hs : Keeps u s) : Keeps u ((State.takeAssign (s) (l))) := by
  refine Keeps.trans hs ?_
  unfold State.takeAssign
  repeat' first
    | with_reducible exact Keeps.refl _
    | (intro x; clear_value x)
    | lift_lets -underBinder
    | with_reducible apply Keeps.ite
    | with_reducible apply State.logG_keeps
    | with_reducible apply State.logT_keeps
    | with_reducible apply State.setEvt_keeps
    | ((with_reducible apply State.updTsu_keeps); focus (intro t; exact ⟨⟨rfl, fun h => h⟩, rfl⟩))
    | ((with_reducible apply State.updGd_keeps); focus (intro t; exact ⟨⟨rfl, fun h => h⟩, rfl⟩))
    | split

theorem State.trainFrameRx_keeps {u : State} {s : State} {l : LinkId} {rx : Rx} (hs : Keeps u s) : Keeps u ((State.trainFrameRx (s) (l) (rx))) := by
  refine Keeps.trans hs ?_
  unfold State.trainFrameRx
  repeat' first
    | with_reducible exact Keeps.refl _
    | with_reducible assumption
    | (intro x; first | (refine Keeps.use (x := x) ?_ (fun hx => ?_); rotate_left; clear_value x; rotate_right; subst x) | clear_value x)
    | lift_lets -underBinder
    | with_reducible apply Keeps.ite
    | with_reducible apply State.enterUp_keeps
    | with_reducible apply State.linkDown_keeps
    | with_reducible apply State.log_keeps
    | with_reducible apply State.malformed_keeps
    | with_reducible apply State.neighborCheck_keeps
    | with_reducible apply State.poisonSlot_keeps
    | with_reducible apply State.setEvt_keeps
    | with_reducible apply State.slotTaken_keeps
    | with_reducible apply State.takeAssign_keeps
    | with_reducible apply State.uncorrectableSlot_keeps
    | with_reducible apply State.updLink_keeps
    | split

theorem execTrainFrameRx_keeps {u : State} {l : LinkId} {rx : Rx} {s : State} (hs : Keeps u s) : Keeps u ((State.after (s) (execTrainFrameRx (l) (rx) (s)))) := by
  refine Keeps.trans hs ?_
  unfold execTrainFrameRx
  rw [State.after_next]
  repeat' first
    | with_reducible exact Keeps.refl _
    | with_reducible apply State.trainFrameRx_keeps

theorem execBlockLockLoss_keeps {u : State} {l : LinkId} {s : State} (hs : Keeps u s) : Keeps u ((State.after (s) (execBlockLockLoss (l) (s)))) := by
  refine Keeps.trans hs ?_
  unfold execBlockLockLoss
  rw [State.after_next]
  repeat' first
    | with_reducible exact Keeps.refl _
    | with_reducible apply Keeps.ite
    | with_reducible apply State.attemptOver_keeps
    | with_reducible apply State.linkDown_keeps

theorem execFrameLockLoss_keeps {u : State} {l : LinkId} {s : State} (hs : Keeps u s) : Keeps u ((State.after (s) (execFrameLockLoss (l) (s)))) := by
  refine Keeps.trans hs ?_
  unfold execFrameLockLoss
  rw [State.after_next]
  repeat' first
    | with_reducible exact Keeps.refl _
    | with_reducible apply Keeps.ite
    | with_reducible apply State.linkDown_keeps

theorem State.linkBerExceeded_keeps {u : State} {s : State} {l : LinkId} (hs : Keeps u s) : Keeps u ((State.linkBerExceeded (s) (l))) := by
  refine Keeps.trans hs ?_
  unfold State.linkBerExceeded
  repeat' first
    | with_reducible exact Keeps.refl _
    | (intro x; clear_value x)
    | lift_lets -underBinder
    | with_reducible apply Keeps.ite
    | with_reducible apply State.linkDown_keeps
    | with_reducible apply State.log_keeps

theorem execLinkBerExceeded_keeps {u : State} {l : LinkId} {s : State} (hs : Keeps u s) : Keeps u ((State.after (s) (execLinkBerExceeded (l) (s)))) := by
  refine Keeps.trans hs ?_
  unfold execLinkBerExceeded
  rw [State.after_next]
  repeat' first
    | with_reducible exact Keeps.refl _
    | with_reducible apply State.linkBerExceeded_keeps

theorem State.linkOff_keeps {u : State} {s : State} {l : LinkId} (hs : Keeps u s) : Keeps u ((State.linkOff (s) (l))) := by
  refine Keeps.trans hs ?_
  unfold State.linkOff
  repeat' first
    | with_reducible exact Keeps.refl _
    | with_reducible assumption
    | (intro x; (refine Keeps.use (x := x) ?_ (fun hx => ?_); rotate_left; clear_value x; rotate_right; subst x))
    | lift_lets -underBinder
    | with_reducible apply State.attemptOver_keeps
    | with_reducible apply State.linkDown_keeps
    | with_reducible apply State.updLink_keeps

theorem State.linkOn_keeps {u : State} {s : State} {l : LinkId} (hs : Keeps u s) : Keeps u ((State.linkOn (s) (l))) := by
  refine Keeps.trans hs ?_
  unfold State.linkOn
  repeat' first
    | with_reducible exact Keeps.refl _
    | (intro x; clear_value x)
    | lift_lets -underBinder
    | with_reducible apply State.updLink_keeps

theorem State.laneEnWrite_keeps {u : State} {s : State} {en : BitVec 2} (hs : Keeps u s) : Keeps u ((State.laneEnWrite (s) (en))) := by
  refine Keeps.trans hs ?_
  unfold State.laneEnWrite
  repeat' first
    | with_reducible exact Keeps.refl _
    | with_reducible assumption
    | (intro x; first | (refine Keeps.use (x := x) ?_ (fun hx => ?_); rotate_left; clear_value x; rotate_right; subst x) | skip)
    | lift_lets -underBinder
    | with_reducible apply Keeps.ite
    | with_reducible apply State.linkOff_keeps
    | with_reducible apply State.linkOn_keeps
    | with_reducible apply State.setReg_keeps
    | with_reducible apply Keeps.foldl

theorem execLaneEnWrite_keeps {u : State} {en : BitVec 2} {s : State} (hs : Keeps u s) : Keeps u ((State.after (s) (execLaneEnWrite (en) (s)))) := by
  refine Keeps.trans hs ?_
  unfold execLaneEnWrite
  rw [State.after_next]
  repeat' first
    | with_reducible exact Keeps.refl _
    | with_reducible apply State.laneEnWrite_keeps

theorem State.retrain_keeps {u : State} {s : State} {l : LinkId} (hs : Keeps u s) : Keeps u ((State.retrain (s) (l))) := by
  refine Keeps.trans hs ?_
  unfold State.retrain
  repeat' first
    | with_reducible exact Keeps.refl _
    | lift_lets -underBinder
    | with_reducible apply Keeps.ite
    | with_reducible apply State.attemptOver_keeps
    | with_reducible apply State.linkDown_keeps
    | with_reducible apply State.updLink_keeps

theorem State.linkWrite_keeps {u : State} {s : State} {l : LinkId} {f : State → State} (k_f : ∀ x, Keeps x (f x)) (hs : Keeps u s) : Keeps u ((State.linkWrite (s) (l) (f))) := by
  refine Keeps.trans hs ?_
  unfold State.linkWrite
  repeat' first
    | with_reducible exact Keeps.refl _
    | with_reducible assumption
    | with_reducible apply State.portPage_keeps
    | with_reducible refine Keeps.trans ?_ (k_f _)
    | split

theorem execRetrain_keeps {u : State} {l : LinkId} {s : State} (hs : Keeps u s) : Keeps u ((State.after (s) (execRetrain (l) (s)))) := by
  refine Keeps.trans hs ?_
  unfold execRetrain
  rw [State.after_next]
  repeat' first
    | with_reducible exact Keeps.refl _
    | intro x
    | lift_lets -underBinder
    | with_reducible apply State.linkWrite_keeps
    | with_reducible apply State.retrain_keeps

theorem execCntClear_keeps {u : State} {l : LinkId} {s : State} (hs : Keeps u s) : Keeps u ((State.after (s) (execCntClear (l) (s)))) := by
  refine Keeps.trans hs ?_
  unfold execCntClear
  rw [State.after_next]
  repeat' first
    | with_reducible exact Keeps.refl _
    | intro x
    | lift_lets -underBinder
    | with_reducible apply State.linkWrite_keeps
    | with_reducible apply State.updLink_keeps

theorem State.redundancyLost_keeps {u : State} {s : State} {n : Node} (hs : Keeps u s) : Keeps u ((State.redundancyLost (s) (n))) := by
  refine Keeps.trans hs ?_
  unfold State.redundancyLost
  repeat' first
    | with_reducible exact Keeps.refl _
    | with_reducible assumption
    | (intro x; first | (refine Keeps.use (x := x) ?_ (fun hx => ?_); rotate_left; clear_value x; rotate_right; subst x) | (have hf := funext (f := x) (g := x) (fun _ => rfl); clear hf; subst x) | clear_value x)
    | lift_lets -underBinder
    | with_reducible apply Keeps.ite
    | with_reducible apply State.healthSend_keeps
    | with_reducible apply State.log_keeps
    | with_reducible apply State.setEvt_keeps
    | ((with_reducible apply State.updCom_keeps); focus (intro t; exact ⟨rfl, fun h => h⟩))
    | split

theorem execRedundancyLost_keeps {u : State} {n : Node} {s : State} (hs : Keeps u s) : Keeps u ((State.after (s) (execRedundancyLost (n) (s)))) := by
  refine Keeps.trans hs ?_
  unfold execRedundancyLost
  rw [State.after_next]
  repeat' first
    | with_reducible exact Keeps.refl _
    | with_reducible apply State.redundancyLost_keeps

theorem State.slotTransmit_keeps {u : State} {s : State} {l : LinkId} (hs : Keeps u s) : Keeps u ((State.slotTransmit (s) (l))) := by
  refine Keeps.trans hs ?_
  unfold State.slotTransmit
  repeat' first
    | with_reducible exact Keeps.refl _
    | with_reducible assumption
    | (intro x; first | (refine Keeps.use (x := x) ?_ (fun hx => ?_); rotate_left; clear_value x; rotate_right; subst x) | clear_value x)
    | lift_lets -underBinder
    | with_reducible apply Keeps.ite
    | with_reducible apply State.addTokens_keeps
    | with_reducible apply State.timeFrameSend_keeps
    | with_reducible apply State.updLink_keeps
    | split

theorem execSlotTransmit_keeps {u : State} {l : LinkId} {s : State} (hs : Keeps u s) : Keeps u ((State.after (s) (execSlotTransmit (l) (s)))) := by
  refine Keeps.trans hs ?_
  unfold execSlotTransmit
  rw [State.after_next]
  repeat' first
    | with_reducible exact Keeps.refl _
    | with_reducible apply State.slotTransmit_keeps

theorem execUncorrectableSlot_keeps {u : State} {l : LinkId} {timeSlot : Bool} {s : State} (hs : Keeps u s) : Keeps u ((State.after (s) (execUncorrectableSlot (l) (timeSlot) (s)))) := by
  refine Keeps.trans hs ?_
  unfold execUncorrectableSlot
  rw [State.after_next]
  repeat' first
    | with_reducible exact Keeps.refl _
    | with_reducible apply State.uncorrectableSlot_keeps

theorem State.nakRx_keeps {u : State} {s : State} {l : LinkId} {slot : Nat} (hs : Keeps u s) : Keeps u ((State.nakRx (s) (l) (slot))) := by
  refine Keeps.trans hs ?_
  unfold State.nakRx
  repeat' first
    | with_reducible exact Keeps.refl _
    | (intro x; clear_value x)
    | lift_lets -underBinder
    | with_reducible apply Keeps.ite
    | with_reducible apply State.linkDown_keeps
    | with_reducible apply State.log_keeps
    | with_reducible apply State.updLink_keeps

theorem State.linkctlRx_keeps {u : State} {s : State} {l : LinkId} {rx : Rx} (hs : Keeps u s) : Keeps u ((State.linkctlRx (s) (l) (rx))) := by
  refine Keeps.trans hs ?_
  unfold State.linkctlRx
  repeat' first
    | with_reducible exact Keeps.refl _
    | with_reducible assumption
    | (intro x; first | (refine Keeps.use (x := x) ?_ (fun hx => ?_); rotate_left; clear_value x; rotate_right; subst x) | (refine Keeps.use (x := x.1) ?_ (fun hx => ?_); rotate_left; clear_value x; rotate_right; subst x) | clear_value x)
    | lift_lets -underBinder
    | with_reducible apply Keeps.ite
    | with_reducible apply State.nakRx_keeps
    | with_reducible apply State.receive_keeps
    | with_reducible apply State.updLink_keeps
    | split

theorem execLinkctlRx_keeps {u : State} {l : LinkId} {rx : Rx} {s : State} (hs : Keeps u s) : Keeps u ((State.after (s) (execLinkctlRx (l) (rx) (s)))) := by
  refine Keeps.trans hs ?_
  unfold execLinkctlRx
  rw [State.after_next]
  repeat' first
    | with_reducible exact Keeps.refl _
    | with_reducible apply State.linkctlRx_keeps

theorem execNakResend_keeps {u : State} {l : LinkId} {s : State} (hs : Keeps u s) : Keeps u ((State.after (s) (execNakResend (l) (s)))) := by
  refine Keeps.trans hs ?_
  unfold execNakResend
  rw [State.after_next]
  repeat' first
    | with_reducible exact Keeps.refl _
    | with_reducible apply State.updLink_keeps

theorem execReplayFailure_keeps {u : State} {l : LinkId} {s : State} (hs : Keeps u s) : Keeps u ((State.after (s) (execReplayFailure (l) (s)))) := by
  refine Keeps.trans hs ?_
  unfold execReplayFailure
  rw [State.after_next]
  repeat' first
    | with_reducible exact Keeps.refl _
    | with_reducible apply Keeps.ite
    | with_reducible apply State.linkDown_keeps

theorem execCreditReturnDue_keeps {u : State} {l : LinkId} {s : State} (hs : Keeps u s) : Keeps u ((State.after (s) (execCreditReturnDue (l) (s)))) := by
  refine Keeps.trans hs ?_
  unfold execCreditReturnDue
  rw [State.after_next]
  repeat' first
    | with_reducible exact Keeps.refl _
    | with_reducible apply State.updLink_keeps

theorem execLinkctlKeepalive_keeps {u : State} {l : LinkId} {s : State} (hs : Keeps u s) : Keeps u ((State.after (s) (execLinkctlKeepalive (l) (s)))) := by
  refine Keeps.trans hs ?_
  unfold execLinkctlKeepalive
  rw [State.after_next]
  repeat' first
    | with_reducible exact Keeps.refl _
    | with_reducible apply State.updLink_keeps

theorem State.degradeLimitExceeded_keeps {u : State} {s : State} {l : LinkId} (hs : Keeps u s) : Keeps u ((State.degradeLimitExceeded (s) (l))) := by
  refine Keeps.trans hs ?_
  unfold State.degradeLimitExceeded
  repeat' first
    | with_reducible exact Keeps.refl _
    | with_reducible assumption
    | (intro x; first | (refine Keeps.use (x := x) ?_ (fun hx => ?_); rotate_left; clear_value x; rotate_right; subst x) | clear_value x)
    | lift_lets -underBinder
    | with_reducible apply Keeps.ite
    | with_reducible apply State.healthSeen_keeps
    | with_reducible apply State.healthSend_keeps
    | with_reducible apply State.log_keeps
    | with_reducible apply State.setEvt_keeps
    | split

theorem execDegradeLimitExceeded_keeps {u : State} {l : LinkId} {s : State} (hs : Keeps u s) : Keeps u ((State.after (s) (execDegradeLimitExceeded (l) (s)))) := by
  refine Keeps.trans hs ?_
  unfold execDegradeLimitExceeded
  rw [State.after_next]
  repeat' first
    | with_reducible exact Keeps.refl _
    | with_reducible apply State.degradeLimitExceeded_keeps

theorem execIdleFrameRx_keeps {u : State} {l : LinkId} {rx : Rx} {s : State} (hs : Keeps u s) : Keeps u ((State.after (s) (execIdleFrameRx (l) (rx) (s)))) := by
  refine Keeps.trans hs ?_
  unfold execIdleFrameRx
  rw [State.after_next]
  repeat' first
    | with_reducible exact Keeps.refl _
    | with_reducible apply State.receive_keeps

theorem Common.enqueueMark_steady (c : Common) (key : Nat) : TimeDom.Steady c.time (c.enqueueMark key).time := by
  unfold Common.enqueueMark
  simp only []
  split <;> exact .refl _

theorem execReadyMarkEnqueue_keeps {u s : State} {n : Node} {key : Nat} (hs : Keeps u s) :
    Keeps u (s.after (execReadyMarkEnqueue n key s)) := State.updCom_keeps (fun c => Common.enqueueMark_steady ..) hs


end Sys2Proof.Machine
end

