-- ==== Sys2Proof/Laws/FrameTreeOps.lean ====
section
/-! SUPPORT. What the operations of `Sys2Proof.Machine.TreeOps` leave alone, one lemma per operation. -/

namespace Sys2Proof.Machine

open Sys2Proof

set_option linter.unusedVariables false

theorem State.domDown_keeps {u : State} {s : State} {d : GdDom} {f : Frame} {only : Bool} (hs : Keeps u s) : Keeps u ((State.domDown (s) (d) (f) (only))) := by
  refine Keeps.trans hs ?_
  unfold State.domDown
  repeat' first
    | with_reducible exact Keeps.refl _
    | with_reducible assumption
    | (intro x; first | (refine Keeps.use (x := x) ?_ (fun hx => ?_); rotate_left; clear_value x; rotate_right; subst x) | clear_value x)
    | lift_lets -underBinder
    | with_reducible apply Keeps.ite
    | with_reducible apply State.gdDown_keeps
    | with_reducible apply State.mirror_keeps

theorem State.readyCheck_keeps {u : State} {s : State} {tag : BitVec 24} (hs : Keeps u s) : Keeps u ((State.readyCheck (s) (tag))) := by
  refine Keeps.trans hs ?_
  unfold State.readyCheck
  repeat' first
    | with_reducible exact Keeps.refl _
    | lift_lets -underBinder
    | with_reducible apply Keeps.ite
    | with_reducible apply State.domDown_keeps
    | with_reducible apply State.gdUp_keeps
    | with_reducible apply State.updDom_keeps
    | split

theorem State.reserveDom_keeps {u : State} {s : State} {tag : BitVec 24} (hs : Keeps u s) : Keeps u ((State.reserveDom (s) (tag))) := by
  refine Keeps.trans hs ?_
  unfold State.reserveDom
  repeat' first
    | with_reducible exact Keeps.refl _
    | lift_lets -underBinder
    | with_reducible apply Keeps.ite
    | with_reducible apply State.logG_keeps
    | with_reducible apply State.readyCheck_keeps
    | with_reducible apply State.updDom_keeps
    | split

theorem State.tearDom_keeps {u : State} {s : State} {d : GdDom} {only : Bool} (hs : Keeps u s) : Keeps u ((State.tearDom (s) (d) (only))) := by
  refine Keeps.trans hs ?_
  unfold State.tearDom
  repeat' first
    | with_reducible exact Keeps.refl _
    | with_reducible assumption
    | (intro x; first | (refine Keeps.use (x := x) ?_ (fun hx => ?_); rotate_left; clear_value x; rotate_right; subst x) | clear_value x)
    | lift_lets -underBinder
    | with_reducible apply State.domDown_keeps
    | with_reducible apply State.updDom_keeps

theorem State.freeDom_keeps {u : State} {s : State} {tag : BitVec 24} (hs : Keeps u s) : Keeps u ((State.freeDom (s) (tag))) := by
  refine Keeps.trans hs ?_
  unfold State.freeDom
  repeat' first
    | with_reducible exact Keeps.refl _
    | ((with_reducible apply State.updGd_keeps); focus (intro t; exact ⟨⟨rfl, fun h => h⟩, rfl⟩))

theorem State.applyPorts_keeps {u : State} {s : State} {t : TreeImage} (hs : Keeps u s) : Keeps u ((State.applyPorts (s) (t))) := by
  refine Keeps.trans hs ?_
  unfold State.applyPorts
  repeat' first
    | with_reducible exact Keeps.refl _
    | with_reducible assumption
    | (intro x; first | (refine Keeps.use (x := x) ?_ (fun hx => ?_); rotate_left; clear_value x; rotate_right; subst x) | clear_value x | skip)
    | lift_lets -underBinder
    | with_reducible apply Keeps.ite
    | with_reducible apply State.linkOff_keeps
    | with_reducible apply State.linkOn_keeps
    | with_reducible apply State.updLink_keeps
    | with_reducible apply State.updSrc_keeps
    | with_reducible apply Keeps.foldl

theorem State.loadRegs_keeps {u : State} {s : State} {l : List (Nat × Nat)} (hs : Keeps u s) : Keeps u ((State.loadRegs (s) (l))) := by
  refine Keeps.trans hs ?_
  unfold State.loadRegs
  repeat' first
    | with_reducible exact Keeps.refl _
    | intro x
    | lift_lets -underBinder
    | with_reducible apply State.setReg_keeps
    | with_reducible apply Keeps.foldl

theorem State.applyRefs_keeps {u : State} {s : State} {old : Option TreeImage} {t : TreeImage} (hs : Keeps u s) : Keeps u ((State.applyRefs (s) (old) (t))) := by
  refine Keeps.trans hs ?_
  unfold State.applyRefs
  repeat' first
    | with_reducible exact Keeps.refl _
    | with_reducible assumption
    | (intro x; first | (refine Keeps.use (x := x) ?_ (fun hx => ?_); rotate_left; clear_value x; rotate_right; subst x) | clear_value x)
    | lift_lets -underBinder
    | with_reducible apply Keeps.ite
    | with_reducible apply State.loadRegs_keeps
    | with_reducible apply State.refsConfig_keeps
    | ((with_reducible apply State.updGd_keeps); focus (intro t; exact ⟨⟨rfl, fun h => h⟩, rfl⟩))
    | split

theorem State.noRole_keeps {u : State} {s : State} (hs : Keeps u s) : Keeps u ((State.noRole (s))) := by
  refine Keeps.trans hs ?_
  unfold State.noRole
  repeat' first
    | with_reducible exact Keeps.refl _
    | with_reducible assumption
    | (intro x; first | (refine Keeps.use (x := x) ?_ (fun hx => ?_); rotate_left; clear_value x; rotate_right; subst x) | skip)
    | lift_lets -underBinder
    | with_reducible apply Keeps.ite
    | with_reducible apply State.linkOff_keeps
    | with_reducible apply State.logG_keeps
    | ((with_reducible apply State.updGd_keeps); focus (intro t; exact ⟨⟨rfl, fun h => h⟩, rfl⟩))
    | with_reducible apply Keeps.foldl

theorem State.openPorts_keeps {u : State} {s : State} {t : TreeImage} (hs : Keeps u s) : Keeps u ((State.openPorts (s) (t))) := by
  refine Keeps.trans hs ?_
  unfold State.openPorts
  repeat' first
    | with_reducible exact Keeps.refl _
    | with_reducible assumption
    | (intro x; (refine Keeps.use (x := x) ?_ (fun hx => ?_); rotate_left; clear_value x; rotate_right; subst x))
    | lift_lets -underBinder
    | with_reducible apply State.applyPorts_keeps
    | ((with_reducible apply State.updGd_keeps); focus (intro t; exact ⟨⟨rfl, fun h => h⟩, rfl⟩))

theorem State.gdActivate_keeps {u : State} {s : State} {t : TreeImage} (hs : Keeps u s) : Keeps u ((State.gdActivate (s) (t))) := by
  refine Keeps.trans hs ?_
  unfold State.gdActivate
  repeat' first
    | with_reducible exact Keeps.refl _
    | with_reducible assumption
    | (intro x; first | (refine Keeps.use (x := x) ?_ (fun hx => ?_); rotate_left; clear_value x; rotate_right; subst x) | clear_value x | skip)
    | lift_lets -underBinder
    | with_reducible apply Keeps.ite
    | with_reducible apply State.applyRefs_keeps
    | with_reducible apply State.fullCensus_keeps
    | with_reducible apply State.noRole_keeps
    | with_reducible apply State.openPorts_keeps
    | with_reducible apply State.reserveDom_keeps
    | with_reducible apply State.tearDom_keeps
    | with_reducible apply State.updDom_keeps
    | ((with_reducible apply State.updGd_keeps); focus (intro t; exact ⟨⟨rfl, fun h => h⟩, rfl⟩))
    | with_reducible apply Keeps.foldl

theorem State.tsuTear_keeps {u : State} {s : State} {d : DomRec} {asked : Bool} (hs : Keeps u s) : Keeps u ((State.tsuTear (s) (d) (asked))) := by
  refine Keeps.trans hs ?_
  unfold State.tsuTear
  repeat' first
    | with_reducible exact Keeps.refl _
    | with_reducible assumption
    | (intro x; first | (refine Keeps.use (x := x) ?_ (fun hx => ?_); rotate_left; clear_value x; rotate_right; subst x) | clear_value x)
    | lift_lets -underBinder
    | with_reducible apply State.unbind_keeps
    | ((with_reducible apply State.updTsu_keeps); focus (intro t; exact ⟨⟨rfl, fun h => h⟩, rfl⟩))
    | split

theorem State.tsuActivate_keeps {u : State} {s : State} {t : TreeImage} (hs : Keeps u s) : Keeps u ((State.tsuActivate (s) (t))) := by
  refine Keeps.trans hs ?_
  unfold State.tsuActivate
  repeat' first
    | with_reducible exact Keeps.refl _
    | with_reducible assumption
    | (intro x; first | (refine Keeps.use (x := x) ?_ (fun hx => ?_); rotate_left; clear_value x; rotate_right; subst x) | clear_value x | skip)
    | lift_lets -underBinder
    | with_reducible apply State.tsuTear_keeps
    | with_reducible apply State.tsuUp_keeps
    | ((with_reducible apply State.updTsu_keeps); focus (intro t; exact ⟨⟨rfl, fun h => h⟩, rfl⟩))
    | with_reducible apply State.updSrc_keeps
    | with_reducible apply Keeps.foldl
    | split

theorem State.pendTree_keeps {u : State} {s : State} {n : Node} {t : TreeImage} (hs : Keeps u s) : Keeps u ((State.pendTree (s) (n) (t))) := by
  refine Keeps.trans hs ?_
  unfold State.pendTree
  repeat' first
    | with_reducible exact Keeps.refl _
    | with_reducible assumption
    | (intro x; (refine Keeps.use (x := x) ?_ (fun hx => ?_); rotate_left; clear_value x; rotate_right; subst x))
    | lift_lets -underBinder
    | with_reducible apply Keeps.ite
    | with_reducible apply State.gdActivate_keeps
    | with_reducible apply State.log_keeps
    | with_reducible apply State.tsuActivate_keeps
    | ((with_reducible apply State.updTsu_keeps); focus (intro t; exact ⟨⟨rfl, fun h => h⟩, rfl⟩))
    | ((with_reducible apply State.updGd_keeps); focus (intro t; exact ⟨⟨rfl, fun h => h⟩, rfl⟩))
    | split

theorem State.extractTake_keeps {u : State} {s : State} {b : List Byte} (hs : Keeps u s) : Keeps u ((State.extractTake (s) (b))) := by
  refine Keeps.trans hs ?_
  unfold State.extractTake
  repeat' first
    | with_reducible exact Keeps.refl _
    | with_reducible apply Keeps.ite
    | with_reducible apply State.pendTree_keeps
    | with_reducible apply State.tsuRefuse_keeps
    | split

theorem State.treeTake_keeps {u : State} {s : State} {b : List Byte} {fed : Bool} (hs : Keeps u s) : Keeps u ((State.treeTake (s) (b) (fed))) := by
  refine Keeps.trans hs ?_
  unfold State.treeTake
  repeat' first
    | with_reducible exact Keeps.refl _
    | with_reducible assumption
    | (intro x; first | (refine Keeps.use (x := x) ?_ (fun hx => ?_); rotate_left; clear_value x; rotate_right; subst x) | skip)
    | lift_lets -underBinder
    | with_reducible apply Keeps.ite
    | with_reducible apply State.gdRefuse_keeps
    | with_reducible apply State.imageDown_keeps
    | with_reducible apply State.logG_keeps
    | with_reducible apply State.pendTree_keeps
    | ((with_reducible apply State.updGd_keeps); focus (intro t; exact ⟨⟨rfl, fun h => h⟩, rfl⟩))
    | with_reducible apply Keeps.foldl
    | split

end Sys2Proof.Machine
end

