-- ==== Sys2Proof/Laws/FrameBootOps.lean ====
section
/-! SUPPORT. What the operations of `Sys2Proof.Machine.BootOps` leave alone, one lemma per operation. -/

namespace Sys2Proof.Machine

open Sys2Proof

set_option linter.unusedVariables false

theorem State.report_keeps {u : State} {s : State} {n : Node} {stage result code count : Nat} {detail : Word} (hs : Keeps u s) : Keeps u ((State.report (s) (n) (stage) (result) (code) (count) (detail))) := by
  refine Keeps.trans hs ?_
  unfold State.report
  repeat' first
    | with_reducible exact Keeps.refl _
    | with_reducible assumption
    | (intro x; first | (refine Keeps.use (x := x) ?_ (fun hx => ?_); rotate_left; clear_value x; rotate_right; subst x) | clear_value x)
    | lift_lets -underBinder
    | with_reducible apply Keeps.ite
    | with_reducible apply State.logRaw_keeps
    | ((with_reducible apply State.updTsu_keeps); focus (intro t; exact ⟨⟨rfl, fun h => h⟩, rfl⟩))
    | ((with_reducible apply State.updGd_keeps); focus (intro t; exact ⟨⟨rfl, fun h => h⟩, rfl⟩))
    | ((with_reducible apply State.updCom_keeps); focus (intro t; exact Common.record_steady ..))
    | split

theorem State.updBoot_keeps {u : State} {s : State} {n : Node} {f : Boot → Boot} (hs : Keeps u s) : Keeps u ((State.updBoot (s) (n) (f))) := by
  refine Keeps.trans hs ?_
  unfold State.updBoot
  repeat' first
    | with_reducible exact Keeps.refl _
    | ((with_reducible apply State.updTsu_keeps); focus (intro t; exact ⟨⟨rfl, fun h => h⟩, rfl⟩))
    | ((with_reducible apply State.updGd_keeps); focus (intro t; exact ⟨⟨rfl, fun h => h⟩, rfl⟩))
    | split

theorem State.settingsFor_keeps {u : State} {s : State} {fmt : Nat} (hs : Keeps u s) : Keeps u ((State.settingsFor (s) (fmt))) := by
  refine Keeps.trans hs ?_
  unfold State.settingsFor
  repeat' first
    | with_reducible exact Keeps.refl _
    | with_reducible assumption
    | (intro x; first | (refine Keeps.use (x := x) ?_ (fun hx => ?_); rotate_left; clear_value x; rotate_right; subst x) | skip)
    | lift_lets -underBinder
    | with_reducible apply Keeps.ite
    | with_reducible apply State.logG_keeps
    | ((with_reducible apply State.updGd_keeps); focus (intro t; exact ⟨⟨rfl, fun h => h⟩, rfl⟩))
    | ((with_reducible apply State.updCom_keeps); focus (intro t; ((repeat' split) <;> exact ⟨rfl, fun h => h⟩)))
    | with_reducible apply Keeps.foldl

theorem State.unitReset_keeps {u : State} {s : State} (hs : Keeps u s) : Keeps u ((State.unitReset (s))) := by
  refine Keeps.trans hs ?_
  unfold State.unitReset
  repeat' first
    | with_reducible exact Keeps.refl _
    | lift_lets -underBinder
    | with_reducible apply Keeps.ite
    | ((with_reducible apply State.updTsu_keeps); focus (intro t; exact ⟨⟨rfl, fun h => h⟩, rfl⟩))

theorem State.chipStart_keeps {u : State} {s : State} (hs : Keeps u s) : Keeps u ((State.chipStart (s))) := by
  refine Keeps.trans hs ?_
  unfold State.chipStart
  repeat' first
    | with_reducible exact Keeps.refl _
    | with_reducible apply State.updBoot_keeps

theorem Gd.chipReset_clamped (g : Gd) (cause : Nat) : (g.chipReset cause).com.time.Clamped := addendNominal_clamped

theorem Gd.chipReset_wf (g : Gd) (cause : Nat) : Memory.wf (g.chipReset cause).treeBuf :=
  ⟨List.Pairwise.nil, fun _ h => absurd h (List.not_mem_nil)⟩

theorem Gd.chipReset_ownerLock (g : Gd) (cause : Nat) : (g.chipReset cause).ownerLock = g.ownerLock := rfl

theorem Gd.chipReset_fuses (g : Gd) (cause : Nat) : (g.chipReset cause).fuses = g.fuses := rfl

theorem State.chipReset_sound {u s : State} {cause : Nat} (hs : Sound u s) : Sound u (s.chipReset cause) := by
  unfold State.chipReset
  refine Sound.ite (State.updGd_sound (fun g => ⟨⟨rfl, fun h => h⟩, rfl⟩) hs) ?_
  refine Sound.step (State.chipStart_keeps (.refl _)) (hs.trans ?_)
  exact ⟨⟨.refl _, rfl⟩, fun _ => Gd.chipReset_clamped .., fun _ => Gd.chipReset_wf .., Gd.chipReset_ownerLock .., Gd.chipReset_fuses .., rfl⟩


end Sys2Proof.Machine
end

