-- ==== Sys2Proof/Laws/FrameFwOps.lean ====
section
/-! SUPPORT. What the operations of `Sys2Proof.Machine.FwOps` leave alone, one lemma per operation. -/

namespace Sys2Proof.Machine

open Sys2Proof

set_option linter.unusedVariables false

theorem State.updFw_keeps {u : State} {s : State} {f : Fw → Fw} (hs : Keeps u s) : Keeps u ((State.updFw (s) (f))) := by
  refine Keeps.trans hs ?_
  unfold State.updFw
  repeat' first
    | with_reducible exact Keeps.refl _
    | ((with_reducible apply State.updGd_keeps); focus (intro t; exact ⟨⟨rfl, fun h => h⟩, rfl⟩))

theorem State.fwRefuse_keeps {u : State} {s : State} {r : Refused} (hs : Keeps u s) : Keeps u ((State.fwRefuse (s) (r))) := by
  refine Keeps.trans hs ?_
  unfold State.fwRefuse
  repeat' first
    | with_reducible exact Keeps.refl _
    | (intro x; clear_value x)
    | lift_lets -underBinder
    | with_reducible apply State.logG_keeps
    | with_reducible apply State.updFw_keeps

theorem State.fwLoad_keeps {u : State} {s : State} {b : List Byte} {inBand : Option Nat} (hs : Keeps u s) : Keeps u ((State.fwLoad (s) (b) (inBand))) := by
  refine Keeps.trans hs ?_
  unfold State.fwLoad
  repeat' first
    | with_reducible exact Keeps.refl _
    | (intro x; clear_value x)
    | lift_lets -underBinder
    | with_reducible apply Keeps.ite
    | with_reducible apply State.fwRefuse_keeps
    | with_reducible apply State.updFw_keeps
    | split

theorem State.fwWritten_keeps {u : State} {s : State} {crcOk signatureOk writeOk : Bool} (hs : Keeps u s) : Keeps u ((State.fwWritten (s) (crcOk) (signatureOk) (writeOk))) := by
  refine Keeps.trans hs ?_
  unfold State.fwWritten
  repeat' first
    | with_reducible exact Keeps.refl _
    | (intro x; (have hf := funext (f := x) (g := x) (fun _ => rfl); clear hf; subst x))
    | lift_lets -underBinder
    | with_reducible apply Keeps.ite
    | with_reducible apply State.fwRefuse_keeps
    | with_reducible apply State.logG_keeps
    | with_reducible apply State.updFw_keeps
    | split

theorem State.fwEnded_keeps {u : State} {s : State} (hs : Keeps u s) : Keeps u ((State.fwEnded (s))) := by
  refine Keeps.trans hs ?_
  unfold State.fwEnded
  repeat' first
    | with_reducible exact Keeps.refl _
    | ((with_reducible apply State.updCom_keeps); focus (intro t; exact Common.setIrq_steady ..))

theorem State.fwRollback_keeps {u : State} {s : State} {detail : Nat} (hs : Keeps u s) : Keeps u ((State.fwRollback (s) (detail))) := by
  refine Keeps.trans hs ?_
  unfold State.fwRollback
  repeat' first
    | with_reducible exact Keeps.refl _
    | with_reducible apply State.fwEnded_keeps
    | with_reducible apply State.logG_keeps

theorem State.fwBusyErr_keeps {u : State} {s : State} {detail : Nat} (hs : Keeps u s) : Keeps u ((State.fwBusyErr (s) (detail))) := by
  refine Keeps.trans hs ?_
  unfold State.fwBusyErr
  repeat' first
    | with_reducible exact Keeps.refl _
    | with_reducible apply State.logG_keeps

theorem State.fwBegin_sound {u : State} {s : State} {cold : Bool} {version : Option Word} (hs : Sound u s) : Sound u ((State.fwBegin (s) (cold) (version))) := by
  refine Sound.trans hs ?_
  unfold State.fwBegin
  repeat' first
    | with_reducible exact Sound.refl _
    | with_reducible assumption
    | (intro x; first | (refine Sound.use (x := x) ?_ (fun hx => ?_); rotate_left; clear_value x; rotate_right; subst x) | clear_value x)
    | lift_lets -underBinder
    | with_reducible apply Sound.ite
    | with_reducible apply State.chipReset_sound
    | with_reducible apply Sound.step (State.fwBusyErr_keeps (Keeps.refl _))
    | with_reducible apply Sound.step (State.updFw_keeps (Keeps.refl _))

theorem State.fwActivate_sound {u : State} {s : State} {cold : Bool} {version : Option Word} (hs : Sound u s) : Sound u ((State.fwActivate (s) (cold) (version))) := by
  refine Sound.trans hs ?_
  unfold State.fwActivate
  repeat' first
    | with_reducible exact Sound.refl _
    | (intro x; clear_value x)
    | lift_lets -underBinder
    | with_reducible apply Sound.ite
    | with_reducible apply State.fwBegin_sound
    | with_reducible apply Sound.step (State.fwBusyErr_keeps (Keeps.refl _))
    | with_reducible apply Sound.step (State.updFw_keeps (Keeps.refl _))

theorem State.fwCommit_keeps {u : State} {s : State} (hs : Keeps u s) : Keeps u ((State.fwCommit (s))) := by
  refine Keeps.trans hs ?_
  unfold State.fwCommit
  repeat' first
    | with_reducible exact Keeps.refl _
    | (intro x; clear_value x)
    | lift_lets -underBinder
    | with_reducible apply State.fwEnded_keeps
    | with_reducible apply State.updFw_keeps
    | split

theorem State.fwUndo_keeps {u : State} {s : State} (hs : Keeps u s) : Keeps u ((State.fwUndo (s))) := by
  refine Keeps.trans hs ?_
  unfold State.fwUndo
  repeat' first
    | with_reducible exact Keeps.refl _
    | (intro x; clear_value x)
    | lift_lets -underBinder
    | with_reducible apply State.updFw_keeps

theorem State.fwRevert_sound {u : State} {s0 : State} {detail : Nat} (hs : Sound u s0) : Sound u ((State.fwRevert (s0) (detail))) := by
  refine Sound.trans hs ?_
  unfold State.fwRevert
  repeat' first
    | with_reducible exact Sound.refl _
    | with_reducible assumption
    | (intro x; (refine Sound.use (x := x) ?_ (fun hx => ?_); rotate_left; clear_value x; rotate_right; subst x))
    | lift_lets -underBinder
    | with_reducible apply Sound.ite
    | with_reducible apply State.chipReset_sound
    | with_reducible apply Sound.step (State.fwRollback_keeps (Keeps.refl _))
    | with_reducible apply Sound.step (State.fwUndo_keeps (Keeps.refl _))
    | with_reducible apply Sound.step (State.updFw_keeps (Keeps.refl _))
    | split

theorem State.fwBoot_keeps {u : State} {s : State} {other : Bool} (hs : Keeps u s) : Keeps u ((State.fwBoot (s) (other))) := by
  refine Keeps.trans hs ?_
  unfold State.fwBoot
  repeat' first
    | with_reducible exact Keeps.refl _
    | with_reducible assumption
    | (intro x; first | (refine Keeps.use (x := x) ?_ (fun hx => ?_); rotate_left; clear_value x; rotate_right; subst x) | (have hf := funext (f := x) (g := x) (fun _ => rfl); clear hf; subst x) | clear_value x)
    | lift_lets -underBinder
    | with_reducible apply Keeps.ite
    | with_reducible apply State.fwRollback_keeps
    | with_reducible apply State.settingsFor_keeps
    | with_reducible apply State.updFw_keeps
    | split

end Sys2Proof.Machine
end

