-- ==== Sys2Proof/Laws/FrameBoot.lean ====
section
/-! SUPPORT. What the operations of `Sys2Proof.Machine.Boot` leave alone, one lemma per operation. -/

namespace Sys2Proof.Machine

open Sys2Proof

set_option linter.unusedVariables false

theorem execDieResetAssert_keeps {u : State} {s : State} (hs : Keeps u s) : Keeps u ((State.after (s) (execDieResetAssert (s)))) := by
  refine Keeps.trans hs ?_
  unfold execDieResetAssert
  rw [State.after_next]
  repeat' first
    | with_reducible exact Keeps.refl _
    | lift_lets -underBinder
    | with_reducible apply State.unitReset_keeps
    | ((with_reducible apply State.updTsu_keeps); focus (intro t; exact ⟨⟨rfl, fun h => h⟩, rfl⟩))

theorem execDieResetRelease_keeps {u : State} {s : State} (hs : Keeps u s) : Keeps u ((State.after (s) (execDieResetRelease (s)))) := by
  refine Keeps.trans hs ?_
  unfold execDieResetRelease
  rw [State.after_next]
  repeat' first
    | with_reducible exact Keeps.refl _
    | (intro x; clear_value x)
    | lift_lets -underBinder
    | with_reducible apply Keeps.ite
    | ((with_reducible apply State.updTsu_keeps); focus (intro t; exact ⟨⟨rfl, fun h => h⟩, rfl⟩))

theorem State.powerGood_keeps {u : State} {s : State} {rootSel sideSel : Bool} (hs : Keeps u s) : Keeps u ((State.powerGood (s) (rootSel) (sideSel))) := by
  refine Keeps.trans hs ?_
  unfold State.powerGood
  repeat' first
    | with_reducible exact Keeps.refl _
    | with_reducible assumption
    | (intro x; first | (refine Keeps.use (x := x) ?_ (fun hx => ?_); rotate_left; clear_value x; rotate_right; subst x) | clear_value x)
    | lift_lets -underBinder
    | with_reducible apply State.chipStart_keeps
    | with_reducible apply State.updBoot_keeps
    | ((with_reducible apply State.updGd_keeps); focus (intro t; exact ⟨⟨rfl, fun h => h⟩, rfl⟩))

theorem execPowerGood_sound {u s : State} {rootSel sideSel : Bool} (hs : Sound u s) :
    Sound u (s.after (execPowerGood rootSel sideSel s)) := by
  unfold execPowerGood
  rw [State.after_next]
  refine Sound.ite hs ?_
  have h : Sound u (s.updGd fun g => { g.chipReset 0 with powered := true }) :=
    hs.trans ⟨⟨.refl _, rfl⟩, fun _ => Gd.chipReset_clamped s.gd 0, fun _ => Gd.chipReset_wf s.gd 0, rfl, rfl, rfl⟩
  exact Sound.ite h (Sound.step (State.powerGood_keeps (.refl _)) h)

theorem execPowerGoodFall_sound {u s : State} (hs : Sound u s) : Sound u (s.after (execPowerGoodFall s)) :=
  hs.trans ⟨⟨.refl _, rfl⟩, fun _ => Gd.chipReset_clamped s.gd 0, fun _ => Gd.chipReset_wf s.gd 0, rfl, rfl, rfl⟩

theorem execResetNAssert_sound {u s : State} (hs : Sound u s) : Sound u (s.after (execResetNAssert s)) := by
  unfold execResetNAssert
  rw [State.after_next]
  refine hs.trans ⟨⟨.refl _, rfl⟩, fun c => ?_, fun c => ?_, ?_, ?_, rfl⟩ <;> simp only [State.updGd_gd] <;> split
  · exact Gd.chipReset_clamped ..
  · exact c
  · exact Gd.chipReset_wf ..
  · exact c
  · rfl
  · rfl
  · rfl
  · rfl

theorem execResetNRelease_keeps {u : State} {rootSel sideSel : Bool} {s : State} (hs : Keeps u s) : Keeps u ((State.after (s) (execResetNRelease (rootSel) (sideSel) (s)))) := by
  refine Keeps.trans hs ?_
  unfold execResetNRelease
  rw [State.after_next]
  repeat' first
    | with_reducible exact Keeps.refl _
    | with_reducible assumption
    | (intro x; first | (refine Keeps.use (x := x) ?_ (fun hx => ?_); rotate_left; clear_value x; rotate_right; subst x) | clear_value x)
    | lift_lets -underBinder
    | with_reducible apply Keeps.ite
    | with_reducible apply State.powerGood_keeps
    | ((with_reducible apply State.updGd_keeps); focus (intro t; exact ⟨⟨rfl, fun h => h⟩, rfl⟩))

theorem execChipRst_sound {u : State} {s : State} (hs : Sound u s) : Sound u ((State.after (s) (execChipRst (s)))) := by
  refine Sound.trans hs ?_
  unfold execChipRst
  rw [State.after_next]
  repeat' first
    | with_reducible exact Sound.refl _
    | with_reducible apply State.chipReset_sound

theorem execWatchdogExpiry_sound {u : State} {s : State} (hs : Sound u s) : Sound u ((State.after (s) (execWatchdogExpiry (s)))) := by
  refine Sound.trans hs ?_
  unfold execWatchdogExpiry
  rw [State.after_next]
  repeat' first
    | with_reducible exact Sound.refl _
    | with_reducible apply State.chipReset_sound

theorem State.fusedLane_keeps {u : State} {s : State} (hs : Keeps u s) : Keeps u ((State.fusedLane (s))) := by
  refine Keeps.trans hs ?_
  unfold State.fusedLane
  repeat' first
    | with_reducible exact Keeps.refl _
    | with_reducible assumption
    | (intro x; (refine Keeps.use (x := x) ?_ (fun hx => ?_); rotate_left; clear_value x; rotate_right; subst x))
    | lift_lets -underBinder
    | with_reducible apply Keeps.ite
    | with_reducible apply State.healthSend_keeps
    | with_reducible apply State.logT_keeps
    | with_reducible apply State.setEvt_keeps
    | ((with_reducible apply State.updCom_keeps); focus (intro t; exact ⟨rfl, fun h => h⟩))

theorem State.restartOut_keeps {u : State} {s : State} (hs : Keeps u s) : Keeps u ((State.restartOut (s))) := by
  refine Keeps.trans hs ?_
  unfold State.restartOut
  repeat' first
    | with_reducible exact Keeps.refl _
    | (intro x; first | clear_value x | skip)
    | lift_lets -underBinder
    | with_reducible apply State.send_keeps
    | with_reducible apply Keeps.foldl

theorem State.openCurrent_keeps {u : State} {s : State} (hs : Keeps u s) : Keeps u ((State.openCurrent (s))) := by
  refine Keeps.trans hs ?_
  unfold State.openCurrent
  repeat' first
    | with_reducible exact Keeps.refl _
    | with_reducible apply Keeps.ite
    | with_reducible apply State.openPorts_keeps
    | split

theorem State.phaseWork_keeps {u : State} {s : State} {n : Node} {phase : Nat} (hs : Keeps u s) : Keeps u ((State.phaseWork (s) (n) (phase))) := by
  refine Keeps.trans hs ?_
  unfold State.phaseWork
  repeat' first
    | with_reducible exact Keeps.refl _
    | lift_lets -underBinder
    | with_reducible apply Keeps.ite
    | with_reducible apply State.fullCensus_keeps
    | with_reducible apply State.fusedLane_keeps
    | with_reducible apply State.fwBoot_keeps
    | with_reducible apply State.openCurrent_keeps
    | with_reducible apply State.restartOut_keeps
    | ((with_reducible apply State.updTsu_keeps); focus (intro t; exact ⟨⟨rfl, fun h => h⟩, rfl⟩))
    | ((with_reducible apply State.updGd_keeps); focus (intro t; exact Gd.journalWrite_steady ..))
    | split

theorem State.phasePass_keeps {u : State} {s : State} {n : Node} (hs : Keeps u s) : Keeps u ((State.phasePass (s) (n))) := by
  refine Keeps.trans hs ?_
  unfold State.phasePass
  repeat' first
    | with_reducible exact Keeps.refl _
    | with_reducible assumption
    | (intro x; first | (refine Keeps.use (x := x) ?_ (fun hx => ?_); rotate_left; clear_value x; rotate_right; subst x) | clear_value x)
    | lift_lets -underBinder
    | with_reducible apply State.bootMsLatch_keeps
    | with_reducible apply State.phaseWork_keeps
    | with_reducible apply State.report_keeps
    | with_reducible apply State.updBoot_keeps

theorem State.bootPhasePass_keeps {u : State} {s : State} {n : Node} (hs : Keeps u s) : Keeps u ((State.bootPhasePass (s) (n))) := by
  refine Keeps.trans hs ?_
  unfold State.bootPhasePass
  repeat' first
    | with_reducible exact Keeps.refl _
    | with_reducible assumption
    | (intro x; (refine Keeps.use (x := x) ?_ (fun hx => ?_); rotate_left; clear_value x; rotate_right; subst x))
    | lift_lets -underBinder
    | with_reducible apply Keeps.ite
    | with_reducible apply State.phasePass_keeps

theorem execBootPhasePass_keeps {u : State} {n : Node} {s : State} (hs : Keeps u s) : Keeps u ((State.after (s) (execBootPhasePass (n) (s)))) := by
  refine Keeps.trans hs ?_
  unfold execBootPhasePass
  rw [State.after_next]
  repeat' first
    | with_reducible exact Keeps.refl _
    | with_reducible apply State.bootPhasePass_keeps

theorem State.bootPhaseTimeout_keeps {u : State} {s : State} {n : Node} (hs : Keeps u s) : Keeps u ((State.bootPhaseTimeout (s) (n))) := by
  refine Keeps.trans hs ?_
  unfold State.bootPhaseTimeout
  repeat' first
    | with_reducible exact Keeps.refl _
    | with_reducible assumption
    | (intro x; first | (refine Keeps.use (x := x) ?_ (fun hx => ?_); rotate_left; clear_value x; rotate_right; subst x) | clear_value x)
    | lift_lets -underBinder
    | with_reducible apply Keeps.ite
    | with_reducible apply State.report_keeps
    | with_reducible apply State.updBoot_keeps
    | ((with_reducible apply State.updGd_keeps); focus (intro t; exact ⟨⟨rfl, fun h => h⟩, rfl⟩))
    | split

theorem execBootPhaseTimeout_keeps {u : State} {n : Node} {s : State} (hs : Keeps u s) : Keeps u ((State.after (s) (execBootPhaseTimeout (n) (s)))) := by
  refine Keeps.trans hs ?_
  unfold execBootPhaseTimeout
  rw [State.after_next]
  repeat' first
    | with_reducible exact Keeps.refl _
    | with_reducible apply State.bootPhaseTimeout_keeps

theorem State.stageWork_keeps {u : State} {s : State} {stage : Nat} {degraded : Bool} (hs : Keeps u s) : Keeps u ((State.stageWork (s) (stage) (degraded))) := by
  refine Keeps.trans hs ?_
  unfold State.stageWork
  repeat' first
    | with_reducible exact Keeps.refl _
    | lift_lets -underBinder
    | with_reducible apply State.fullCensus_keeps
    | with_reducible apply State.fwBoot_keeps
    | with_reducible apply State.openCurrent_keeps
    | with_reducible apply State.updBoot_keeps
    | ((with_reducible apply State.updGd_keeps); focus (intro t; exact ⟨⟨rfl, fun h => h⟩, rfl⟩))
    | split

theorem State.bootStageEnd_sound {u : State} {s : State} {e : StageEnd} {code count : Nat} {detail : Word} (hs : Sound u s) : Sound u ((State.bootStageEnd (s) (e) (code) (count) (detail))) := by
  refine Sound.trans hs ?_
  unfold State.bootStageEnd
  repeat' first
    | with_reducible exact Sound.refl _
    | (intro x; first | (have hf := funext (f := x) (g := x) (fun _ => rfl); clear hf; subst x) | clear_value x)
    | lift_lets -underBinder
    | with_reducible apply Sound.ite
    | with_reducible apply Sound.step (State.bootMsLatch_keeps (Keeps.refl _))
    | with_reducible apply State.fwRevert_sound
    | with_reducible apply Sound.step (State.report_keeps (Keeps.refl _))
    | with_reducible apply Sound.step (State.stageWork_keeps (Keeps.refl _))
    | with_reducible apply Sound.step (State.updBoot_keeps (Keeps.refl _))
    | split

theorem execBootStageEnd_sound {u : State} {e : StageEnd} {code count : Nat} {detail : Word} {s : State} (hs : Sound u s) : Sound u ((State.after (s) (execBootStageEnd (e) (code) (count) (detail) (s)))) := by
  refine Sound.trans hs ?_
  unfold execBootStageEnd
  rw [State.after_next]
  repeat' first
    | with_reducible exact Sound.refl _
    | with_reducible apply State.bootStageEnd_sound

end Sys2Proof.Machine
end

