-- ==== Sys2Proof/Laws/FrameBulk.lean ====
section
/-! SUPPORT. What the operations of `Sys2Proof.Machine.Bulk` leave alone, one lemma per operation. -/

namespace Sys2Proof.Machine

open Sys2Proof

set_option linter.unusedVariables false

theorem State.setBulk_keeps {u : State} {s : State} {n : Node} {o : Nat} {x : BulkRx} (hs : Keeps u s) : Keeps u ((State.setBulk (s) (n) (o) (x))) := by
  refine Keeps.trans hs ?_
  unfold State.setBulk
  repeat' first
    | with_reducible exact Keeps.refl _
    | ((with_reducible apply State.updCom_keeps); focus (intro t; exact ⟨rfl, fun h => h⟩))

theorem State.delBulk_keeps {u : State} {s : State} {n : Node} {o : Nat} (hs : Keeps u s) : Keeps u ((State.delBulk (s) (n) (o))) := by
  refine Keeps.trans hs ?_
  unfold State.delBulk
  repeat' first
    | with_reducible exact Keeps.refl _
    | ((with_reducible apply State.updCom_keeps); focus (intro t; exact ⟨rfl, fun h => h⟩))

theorem State.feedTo_keeps {u : State} {s : State} {ports : List Nat} {fs : List Frame} (hs : Keeps u s) : Keeps u ((State.feedTo (s) (ports) (fs))) := by
  refine Keeps.trans hs ?_
  unfold State.feedTo
  repeat' first
    | with_reducible exact Keeps.refl _
    | intro x
    | lift_lets -underBinder
    | with_reducible apply State.sendAll_keeps
    | with_reducible apply Keeps.foldl

theorem State.microcodeTake_keeps {u : State} {s : State} {b : List Byte} (hs : Keeps u s) : Keeps u ((State.microcodeTake (s) (b))) := by
  refine Keeps.trans hs ?_
  unfold State.microcodeTake
  repeat' first
    | with_reducible exact Keeps.refl _
    | lift_lets -underBinder
    | with_reducible apply Keeps.ite
    | with_reducible apply State.tsuRefuse_keeps
    | ((with_reducible apply State.updTsu_keeps); focus (intro t; exact ⟨⟨rfl, fun h => h⟩, rfl⟩))
    | split

theorem State.engineTake_keeps {u : State} {s : State} {b : List Byte} (hs : Keeps u s) : Keeps u ((State.engineTake (s) (b))) := by
  refine Keeps.trans hs ?_
  unfold State.engineTake
  repeat' first
    | with_reducible exact Keeps.refl _
    | with_reducible apply State.nwWrite_keeps
    | with_reducible apply State.tsuRefuse_keeps
    | split

theorem State.tsuLoad_keeps {u : State} {s : State} {x : BulkRx} (hs : Keeps u s) : Keeps u ((State.tsuLoad (s) (x))) := by
  refine Keeps.trans hs ?_
  unfold State.tsuLoad
  repeat' first
    | with_reducible exact Keeps.refl _
    | (intro x; clear_value x)
    | lift_lets -underBinder
    | with_reducible apply State.engineTake_keeps
    | with_reducible apply State.extractTake_keeps
    | with_reducible apply State.microcodeTake_keeps
    | with_reducible apply State.schedLoaded_keeps
    | with_reducible apply State.tsuRefuse_keeps
    | split

theorem State.schedKeep_keeps {u : State} {s : State} {b : List Byte} (hs : Keeps u s) : Keeps u ((State.schedKeep (s) (b))) := by
  refine Keeps.trans hs ?_
  unfold State.schedKeep
  repeat' first
    | with_reducible exact Keeps.refl _
    | (intro x; clear_value x)
    | lift_lets -underBinder
    | with_reducible apply Keeps.ite
    | with_reducible apply State.gdRefuse_keeps
    | ((with_reducible apply State.updGd_keeps); focus (intro t; exact Gd.hold_steady ..))
    | split

theorem State.gdLoad_keeps {u : State} {s : State} {x : BulkRx} (hs : Keeps u s) : Keeps u ((State.gdLoad (s) (x))) := by
  refine Keeps.trans hs ?_
  unfold State.gdLoad
  repeat' first
    | with_reducible exact Keeps.refl _
    | with_reducible apply State.fwLoad_keeps
    | with_reducible apply State.schedKeep_keeps
    | with_reducible apply State.treeTake_keeps
    | split

theorem State.bulkTry_keeps {u : State} {s : State} {n : Node} {o : Nat} (hs : Keeps u s) : Keeps u ((State.bulkTry (s) (n) (o))) := by
  refine Keeps.trans hs ?_
  unfold State.bulkTry
  repeat' first
    | with_reducible exact Keeps.refl _
    | with_reducible assumption
    | (intro x; (refine Keeps.use (x := x) ?_ (fun hx => ?_); rotate_left; clear_value x; rotate_right; subst x))
    | lift_lets -underBinder
    | with_reducible apply Keeps.ite
    | with_reducible apply State.gdLoad_keeps
    | with_reducible apply State.setBulk_keeps
    | with_reducible apply State.tsuLoad_keeps
    | split

theorem State.bulkRefuse_keeps {u : State} {s : State} {n : Node} {reason : Nat} (hs : Keeps u s) : Keeps u ((State.bulkRefuse (s) (n) (reason))) := by
  refine Keeps.trans hs ?_
  unfold State.bulkRefuse
  repeat' first
    | with_reducible exact Keeps.refl _
    | with_reducible apply State.gdRefuse_keeps
    | with_reducible apply State.tsuRefuse_keeps
    | split

theorem State.bulkOpenRx_keeps {u : State} {s : State} {l : LinkId} {rx : Rx} (hs : Keeps u s) : Keeps u ((State.bulkOpenRx (s) (l) (rx))) := by
  refine Keeps.trans hs ?_
  unfold State.bulkOpenRx
  repeat' first
    | with_reducible exact Keeps.refl _
    | (intro x; clear_value x)
    | lift_lets -underBinder
    | with_reducible apply Keeps.ite
    | with_reducible apply State.bulkRefuse_keeps
    | with_reducible apply State.feedTo_keeps
    | with_reducible apply State.malformed_keeps
    | with_reducible apply State.receive_keeps
    | with_reducible apply State.setBulk_keeps
    | split
    | with_reducible refine Keeps.ofPair (by with_reducible assumption) ?_

theorem execBulkOpenRx_keeps {u : State} {l : LinkId} {rx : Rx} {s : State} (hs : Keeps u s) : Keeps u ((State.after (s) (execBulkOpenRx (l) (rx) (s)))) := by
  refine Keeps.trans hs ?_
  unfold execBulkOpenRx
  rw [State.after_next]
  repeat' first
    | with_reducible exact Keeps.refl _
    | with_reducible apply State.bulkOpenRx_keeps

theorem State.bulkData_keeps {u : State} {s : State} {n : Node} {o : Nat} {x : BulkRx} {c fr : Nat} {data : List Byte} (hs : Keeps u s) : Keeps u ((State.bulkData (s) (n) (o) (x) (c) (fr) (data))) := by
  refine Keeps.trans hs ?_
  unfold State.bulkData
  repeat' first
    | with_reducible exact Keeps.refl _
    | with_reducible assumption
    | (intro x; first | (refine Keeps.use (x := x) ?_ (fun hx => ?_); rotate_left; clear_value x; rotate_right; subst x) | clear_value x)
    | lift_lets -underBinder
    | with_reducible apply Keeps.ite
    | with_reducible apply State.bulkTry_keeps
    | with_reducible apply State.feedTo_keeps
    | with_reducible apply State.setBulk_keeps

theorem State.bulkDataRx_keeps {u : State} {s : State} {l : LinkId} {rx : Rx} (hs : Keeps u s) : Keeps u ((State.bulkDataRx (s) (l) (rx))) := by
  refine Keeps.trans hs ?_
  unfold State.bulkDataRx
  repeat' first
    | with_reducible exact Keeps.refl _
    | (intro x; clear_value x)
    | lift_lets -underBinder
    | with_reducible apply Keeps.ite
    | with_reducible apply State.bulkData_keeps
    | with_reducible apply State.malformed_keeps
    | with_reducible apply State.receive_keeps
    | split
    | with_reducible refine Keeps.ofPair (by with_reducible assumption) ?_

theorem execBulkDataRx_keeps {u : State} {l : LinkId} {rx : Rx} {s : State} (hs : Keeps u s) : Keeps u ((State.after (s) (execBulkDataRx (l) (rx) (s)))) := by
  refine Keeps.trans hs ?_
  unfold execBulkDataRx
  rw [State.after_next]
  repeat' first
    | with_reducible exact Keeps.refl _
    | with_reducible apply State.bulkDataRx_keeps

theorem State.bulkCloseRx_keeps {u : State} {s : State} {l : LinkId} {rx : Rx} (hs : Keeps u s) : Keeps u ((State.bulkCloseRx (s) (l) (rx))) := by
  refine Keeps.trans hs ?_
  unfold State.bulkCloseRx
  repeat' first
    | with_reducible exact Keeps.refl _
    | with_reducible assumption
    | (intro x; first | (refine Keeps.use (x := x) ?_ (fun hx => ?_); rotate_left; clear_value x; rotate_right; subst x) | clear_value x)
    | lift_lets -underBinder
    | with_reducible apply Keeps.ite
    | with_reducible apply State.bulkTry_keeps
    | with_reducible apply State.feedTo_keeps
    | with_reducible apply State.malformed_keeps
    | with_reducible apply State.receive_keeps
    | with_reducible apply State.setBulk_keeps
    | split
    | with_reducible refine Keeps.ofPair (by with_reducible assumption) ?_

theorem execBulkCloseRx_keeps {u : State} {l : LinkId} {rx : Rx} {s : State} (hs : Keeps u s) : Keeps u ((State.after (s) (execBulkCloseRx (l) (rx) (s)))) := by
  refine Keeps.trans hs ?_
  unfold execBulkCloseRx
  rw [State.after_next]
  repeat' first
    | with_reducible exact Keeps.refl _
    | with_reducible apply State.bulkCloseRx_keeps

theorem State.bulkChunkDrop_keeps {u : State} {s : State} {object chunk port : Nat} (hs : Keeps u s) : Keeps u ((State.bulkChunkDrop (s) (object) (chunk) (port))) := by
  refine Keeps.trans hs ?_
  unfold State.bulkChunkDrop
  repeat' first
    | with_reducible exact Keeps.refl _
    | with_reducible assumption
    | (intro x; first | (refine Keeps.use (x := x) ?_ (fun hx => ?_); rotate_left; clear_value x; rotate_right; subst x) | (have hf := funext (f := x) (g := x) (fun _ => rfl); clear hf; subst x) | clear_value x)
    | lift_lets -underBinder
    | with_reducible apply Keeps.ite
    | with_reducible apply State.logG_keeps
    | ((with_reducible apply State.updCom_keeps); focus (intro t; exact ⟨rfl, fun h => h⟩))
    | with_reducible apply State.updLink_keeps

theorem execBulkChunkDrop_keeps {u : State} {object chunk port : Nat} {s : State} (hs : Keeps u s) : Keeps u ((State.after (s) (execBulkChunkDrop (object) (chunk) (port) (s)))) := by
  refine Keeps.trans hs ?_
  unfold execBulkChunkDrop
  rw [State.after_next]
  repeat' first
    | with_reducible exact Keeps.refl _
    | with_reducible apply State.bulkChunkDrop_keeps

theorem execBulkRxTimeout_keeps {u : State} {n : Node} {object : Nat} {s : State} (hs : Keeps u s) : Keeps u ((State.after (s) (execBulkRxTimeout (n) (object) (s)))) := by
  refine Keeps.trans hs ?_
  unfold execBulkRxTimeout
  rw [State.after_next]
  repeat' first
    | with_reducible exact Keeps.refl _
    | with_reducible apply Keeps.ite
    | with_reducible apply State.bulkTry_keeps
    | with_reducible apply State.setBulk_keeps
    | split

theorem execBulkObjectExpiry_keeps {u : State} {n : Node} {object : Nat} {s : State} (hs : Keeps u s) : Keeps u ((State.after (s) (execBulkObjectExpiry (n) (object) (s)))) := by
  refine Keeps.trans hs ?_
  unfold execBulkObjectExpiry
  rw [State.after_next]
  repeat' first
    | with_reducible exact Keeps.refl _
    | with_reducible apply Keeps.ite
    | with_reducible apply State.delBulk_keeps
    | with_reducible apply State.log_keeps
    | split

theorem execChunkCacheExpiry_keeps {u : State} {object : Nat} {s : State} (hs : Keeps u s) : Keeps u ((State.after (s) (execChunkCacheExpiry (object) (s)))) := by
  refine Keeps.trans hs ?_
  unfold execChunkCacheExpiry
  rw [State.after_next]
  repeat' first
    | with_reducible exact Keeps.refl _
    | with_reducible apply Keeps.ite
    | with_reducible apply State.delBulk_keeps
    | split

theorem State.resendOn_keeps {u : State} {s : State} {o : Nat} {x : BulkRx} {p : Nat} {anew : Bool} {chunks : List Nat} (hs : Keeps u s) : Keeps u ((State.resendOn (s) (o) (x) (p) (anew) (chunks))) := by
  refine Keeps.trans hs ?_
  unfold State.resendOn
  repeat' first
    | with_reducible exact Keeps.refl _
    | (intro x; clear_value x)
    | lift_lets -underBinder
    | with_reducible apply Keeps.ite
    | with_reducible apply State.sendAll_keeps

theorem State.roundDone_keeps {u : State} {s : State} {x : Origin} (hs : Keeps u s) : Keeps u ((State.roundDone (s) (x))) := by
  refine Keeps.trans hs ?_
  unfold State.roundDone
  repeat' first
    | with_reducible exact Keeps.refl _
    | with_reducible assumption
    | (intro x; first | (refine Keeps.use (x := x) ?_ (fun hx => ?_); rotate_left; clear_value x; rotate_right; subst x) | (have hf := funext (f := x) (g := x) (fun _ => rfl); clear hf; subst x) | clear_value x)
    | lift_lets -underBinder
    | with_reducible apply Keeps.ite
    | with_reducible apply State.feedTo_keeps
    | with_reducible apply State.logG_keeps
    | ((with_reducible apply State.updGd_keeps); focus (intro t; exact ⟨⟨rfl, fun h => h⟩, rfl⟩))

theorem State.originAnswer_keeps {u : State} {s : State} {e : RollEntry} (hs : Keeps u s) : Keeps u ((State.originAnswer (s) (e))) := by
  refine Keeps.trans hs ?_
  unfold State.originAnswer
  repeat' first
    | with_reducible exact Keeps.refl _
    | with_reducible assumption
    | (intro x; (refine Keeps.use (x := x) ?_ (fun hx => ?_); rotate_left; clear_value x; rotate_right; subst x))
    | lift_lets -underBinder
    | with_reducible apply State.roundDone_keeps
    | ((with_reducible apply State.updGd_keeps); focus (intro t; exact ⟨⟨rfl, fun h => h⟩, rfl⟩))
    | split

theorem State.rollAnswer_keeps {u : State} {s : State} {e : RollEntry} (hs : Keeps u s) : Keeps u ((State.rollAnswer (s) (e))) := by
  refine Keeps.trans hs ?_
  unfold State.rollAnswer
  repeat' first
    | with_reducible exact Keeps.refl _
    | with_reducible assumption
    | (intro x; first | (refine Keeps.use (x := x) ?_ (fun hx => ?_); rotate_left; clear_value x; rotate_right; subst x) | clear_value x)
    | lift_lets -underBinder
    | with_reducible apply Keeps.ite
    | with_reducible apply State.originAnswer_keeps
    | with_reducible apply State.send_keeps
    | ((with_reducible apply State.updGd_keeps); focus (intro t; exact ⟨⟨rfl, fun h => h⟩, rfl⟩))

theorem State.rollOpen_keeps {u : State} {s : State} {e : RollEntry} {ask : Frame} (hs : Keeps u s) : Keeps u ((State.rollOpen (s) (e) (ask))) := by
  refine Keeps.trans hs ?_
  unfold State.rollOpen
  repeat' first
    | with_reducible exact Keeps.refl _
    | with_reducible assumption
    | (intro x; first | (refine Keeps.use (x := x) ?_ (fun hx => ?_); rotate_left; clear_value x; rotate_right; subst x) | (have hf := funext (f := x) (g := x) (fun _ => rfl); clear hf; subst x) | skip)
    | lift_lets -underBinder
    | with_reducible apply Keeps.ite
    | with_reducible apply State.logG_keeps
    | with_reducible apply State.rollAnswer_keeps
    | with_reducible apply State.send_keeps
    | ((with_reducible apply State.updGd_keeps); focus (intro t; exact ⟨⟨rfl, fun h => h⟩, rfl⟩))
    | with_reducible apply Keeps.foldl
    | split

theorem State.gdRollAsk_keeps {u : State} {s : State} {l : LinkId} {f : Frame} (hs : Keeps u s) : Keeps u ((State.gdRollAsk (s) (l) (f))) := by
  refine Keeps.trans hs ?_
  unfold State.gdRollAsk
  repeat' first
    | with_reducible exact Keeps.refl _
    | (intro x; clear_value x)
    | lift_lets -underBinder
    | with_reducible apply Keeps.ite
    | with_reducible apply State.rollOpen_keeps
    | with_reducible apply State.send_keeps

theorem State.rollAskRx_keeps {u : State} {s : State} {l : LinkId} {rx : Rx} (hs : Keeps u s) : Keeps u ((State.rollAskRx (s) (l) (rx))) := by
  refine Keeps.trans hs ?_
  unfold State.rollAskRx
  repeat' first
    | with_reducible exact Keeps.refl _
    | with_reducible apply Keeps.ite
    | with_reducible apply State.gdRollAsk_keeps
    | with_reducible apply State.malformed_keeps
    | with_reducible apply State.receive_keeps
    | with_reducible apply State.send_keeps
    | split
    | with_reducible refine Keeps.ofPair (by with_reducible assumption) ?_

theorem execRollcallAskRx_keeps {u : State} {l : LinkId} {rx : Rx} {s : State} (hs : Keeps u s) : Keeps u ((State.after (s) (execRollcallAskRx (l) (rx) (s)))) := by
  refine Keeps.trans hs ?_
  unfold execRollcallAskRx
  rw [State.after_next]
  repeat' first
    | with_reducible exact Keeps.refl _
    | with_reducible apply State.rollAskRx_keeps

theorem State.rollCombine_keeps {u : State} {s : State} {e : RollEntry} {p : Nat} {f : Frame} {map : List Byte} (hs : Keeps u s) : Keeps u ((State.rollCombine (s) (e) (p) (f) (map))) := by
  refine Keeps.trans hs ?_
  unfold State.rollCombine
  repeat' first
    | with_reducible exact Keeps.refl _
    | with_reducible assumption
    | (intro x; first | (refine Keeps.use (x := x) ?_ (fun hx => ?_); rotate_left; clear_value x; rotate_right; subst x) | clear_value x)
    | lift_lets -underBinder
    | with_reducible apply Keeps.ite
    | with_reducible apply State.resendOn_keeps
    | with_reducible apply State.rollAnswer_keeps
    | ((with_reducible apply State.updGd_keeps); focus (intro t; exact ⟨⟨rfl, fun h => h⟩, rfl⟩))
    | split

theorem State.rollAnsRx_keeps {u : State} {s : State} {l : LinkId} {rx : Rx} (hs : Keeps u s) : Keeps u ((State.rollAnsRx (s) (l) (rx))) := by
  refine Keeps.trans hs ?_
  unfold State.rollAnsRx
  repeat' first
    | with_reducible exact Keeps.refl _
    | (intro x; clear_value x)
    | lift_lets -underBinder
    | with_reducible apply Keeps.ite
    | with_reducible apply State.chain_keeps
    | with_reducible apply State.malformed_keeps
    | with_reducible apply State.receive_keeps
    | with_reducible apply State.rollCombine_keeps
    | split
    | with_reducible refine Keeps.ofPair (by with_reducible assumption) ?_

theorem execRollcallAnsRx_keeps {u : State} {l : LinkId} {rx : Rx} {s : State} (hs : Keeps u s) : Keeps u ((State.after (s) (execRollcallAnsRx (l) (rx) (s)))) := by
  refine Keeps.trans hs ?_
  unfold execRollcallAnsRx
  rw [State.after_next]
  repeat' first
    | with_reducible exact Keeps.refl _
    | with_reducible apply State.rollAnsRx_keeps

theorem execRollWaitExpiry_keeps {u : State} {key : Nat} {s : State} (hs : Keeps u s) : Keeps u ((State.after (s) (execRollWaitExpiry (key) (s)))) := by
  refine Keeps.trans hs ?_
  unfold execRollWaitExpiry
  rw [State.after_next]
  repeat' first
    | with_reducible exact Keeps.refl _
    | with_reducible apply Keeps.ite
    | with_reducible apply State.rollAnswer_keeps
    | split

theorem State.rollRound_keeps {u : State} {s : State} {object : Nat} (hs : Keeps u s) : Keeps u ((State.rollRound (s) (object))) := by
  refine Keeps.trans hs ?_
  unfold State.rollRound
  repeat' first
    | with_reducible exact Keeps.refl _
    | with_reducible assumption
    | (intro x; first | (refine Keeps.use (x := x) ?_ (fun hx => ?_); rotate_left; clear_value x; rotate_right; subst x) | clear_value x | skip)
    | lift_lets -underBinder
    | with_reducible apply Keeps.ite
    | with_reducible apply State.rollOpen_keeps
    | ((with_reducible apply State.updGd_keeps); focus (intro t; exact ⟨⟨rfl, fun h => h⟩, rfl⟩))
    | with_reducible apply Keeps.foldl
    | split

theorem execRollCallRound_keeps {u : State} {object : Nat} {s : State} (hs : Keeps u s) : Keeps u ((State.after (s) (execRollCallRound (object) (s)))) := by
  refine Keeps.trans hs ?_
  unfold execRollCallRound
  rw [State.after_next]
  repeat' first
    | with_reducible exact Keeps.refl _
    | with_reducible apply State.rollRound_keeps

end Sys2Proof.Machine
end

