-- ==== Sys2Proof/Laws/FrameHealth.lean ====
section
/-! SUPPORT. What the operations of `Sys2Proof.Machine.Health` leave alone, one lemma per operation. -/

namespace Sys2Proof.Machine

open Sys2Proof

set_option linter.unusedVariables false

theorem State.recvOp_keeps {u : State} {s : State} {l : LinkId} {rx : Rx} {type op : Nat} (hs : Keeps u s) : Keeps u ((State.recvOp (s) (l) (rx) (type) (op)).1) := by
  refine Keeps.trans hs ?_
  unfold State.recvOp
  repeat' first
    | with_reducible exact Keeps.refl _
    | with_reducible apply State.malformed_keeps
    | with_reducible apply State.receive_keeps
    | split
    | with_reducible refine Keeps.ofPair (by with_reducible assumption) ?_

theorem State.dieAbsent_keeps {u : State} {s : State} {p : Nat} {partnerAgrees : Bool} (hs : Keeps u s) : Keeps u ((State.dieAbsent (s) (p) (partnerAgrees))) := by
  refine Keeps.trans hs ?_
  unfold State.dieAbsent
  repeat' first
    | with_reducible exact Keeps.refl _
    | (intro x; clear_value x)
    | lift_lets -underBinder
    | with_reducible apply Keeps.ite
    | with_reducible apply State.markAbsent_keeps

theorem execDieAbsent_keeps {u : State} {port : Nat} {partnerAgrees : Bool} {s : State} (hs : Keeps u s) : Keeps u ((State.after (s) (execDieAbsent (port) (partnerAgrees) (s)))) := by
  refine Keeps.trans hs ?_
  unfold execDieAbsent
  rw [State.after_next]
  repeat' first
    | with_reducible exact Keeps.refl _
    | with_reducible apply State.dieAbsent_keeps

theorem State.childAbsent_keeps {u : State} {s : State} {i : Nat} (hs : Keeps u s) : Keeps u ((State.childAbsent (s) (i))) := by
  refine Keeps.trans hs ?_
  unfold State.childAbsent
  repeat' first
    | with_reducible exact Keeps.refl _
    | (intro x; first | (have hf := funext (f := x) (g := x) (fun _ => rfl); clear hf; subst x) | clear_value x)
    | lift_lets -underBinder
    | with_reducible apply Keeps.ite
    | with_reducible apply State.markAbsent_keeps

theorem execChildPositionAbsent_keeps {u : State} {child : Nat} {s : State} (hs : Keeps u s) : Keeps u ((State.after (s) (execChildPositionAbsent (child) (s)))) := by
  refine Keeps.trans hs ?_
  unfold execChildPositionAbsent
  rw [State.after_next]
  repeat' first
    | with_reducible exact Keeps.refl _
    | with_reducible apply State.childAbsent_keeps

theorem State.healthRx_keeps {u : State} {s : State} {l : LinkId} {rx : Rx} (hs : Keeps u s) : Keeps u ((State.healthRx (s) (l) (rx))) := by
  refine Keeps.trans hs ?_
  unfold State.healthRx
  repeat' first
    | with_reducible exact Keeps.refl _
    | with_reducible apply Keeps.ite
    | with_reducible apply State.healthEvent_keeps
    | with_reducible apply State.logG_keeps
    | with_reducible apply State.malformed_keeps
    | with_reducible apply State.mirror_keeps
    | with_reducible apply State.receive_keeps
    | split
    | with_reducible refine Keeps.ofPair (by with_reducible assumption) ?_

theorem execHealthRx_keeps {u : State} {l : LinkId} {rx : Rx} {s : State} (hs : Keeps u s) : Keeps u ((State.after (s) (execHealthRx (l) (rx) (s)))) := by
  refine Keeps.trans hs ?_
  unfold execHealthRx
  rw [State.after_next]
  repeat' first
    | with_reducible exact Keeps.refl _
    | with_reducible apply State.cutThrough_keeps
    | with_reducible apply State.healthRx_keeps

theorem execHealthDecay_keeps {u : State} {s : State} (hs : Keeps u s) : Keeps u ((State.after (s) (execHealthDecay (s)))) := by
  refine Keeps.trans hs ?_
  unfold execHealthDecay
  rw [State.after_next]
  repeat' first
    | with_reducible exact Keeps.refl _
    | (intro x; clear_value x)
    | lift_lets -underBinder
    | with_reducible apply State.readmitDue_keeps
    | ((with_reducible apply State.updGd_keeps); focus (intro t; exact ⟨⟨rfl, fun h => h⟩, rfl⟩))

theorem execHealthClear_keeps {u : State} {s : State} (hs : Keeps u s) : Keeps u ((State.after (s) (execHealthClear (s)))) := by
  refine Keeps.trans hs ?_
  unfold execHealthClear
  rw [State.after_next]
  repeat' first
    | with_reducible exact Keeps.refl _
    | with_reducible assumption
    | (intro x; first | (refine Keeps.use (x := x) ?_ (fun hx => ?_); rotate_left; clear_value x; rotate_right; subst x) | clear_value x)
    | lift_lets -underBinder
    | with_reducible apply Keeps.ite
    | with_reducible apply State.expelAsk_keeps
    | with_reducible apply State.mirror_keeps
    | with_reducible apply State.readmit_keeps
    | with_reducible apply State.updHealth_keeps

theorem State.limitOut_keeps {u : State} {s : State} (hs : Keeps u s) : Keeps u ((State.limitOut (s))) := by
  refine Keeps.trans hs ?_
  unfold State.limitOut
  repeat' first
    | with_reducible exact Keeps.refl _
    | (intro x; first | clear_value x | skip)
    | lift_lets -underBinder
    | with_reducible apply Keeps.ite
    | with_reducible apply State.toChild_keeps
    | with_reducible apply Keeps.foldl

theorem State.expelJudge_keeps {u s : State} {i : Nat} {f : Frame} (hs : Keeps u s) : Keeps u (s.expelJudge i f) := by
  unfold State.expelJudge
  simp only []
  refine Keeps.ite (State.toChild_keeps (State.updGd_keeps (fun g => ?_) hs))
    (State.logG_keeps (State.limitOut_keeps (State.updGd_keeps (fun g => ?_) (State.toChild_keeps hs))))
  · exact Gd.Steady.trans ⟨⟨rfl, fun h => h⟩, rfl⟩ (Gd.journalWrite_steady ..)
  · exact Gd.Steady.trans ⟨⟨rfl, fun h => h⟩, rfl⟩ (Gd.journalWrite_steady ..)

theorem State.expelReqRx_keeps {u : State} {s : State} {l : LinkId} {rx : Rx} (hs : Keeps u s) : Keeps u ((State.expelReqRx (s) (l) (rx))) := by
  refine Keeps.trans hs ?_
  unfold State.expelReqRx
  repeat' first
    | with_reducible exact Keeps.refl _
    | with_reducible apply Keeps.ite
    | with_reducible apply State.expelJudge_keeps
    | with_reducible apply State.gdUp_keeps
    | with_reducible apply State.malformed_keeps
    | with_reducible apply State.recvOp_keeps
    | with_reducible apply State.upPart_keeps
    | split
    | with_reducible refine Keeps.ofPair (by with_reducible assumption) ?_

theorem execExpelReqRx_keeps {u : State} {l : LinkId} {rx : Rx} {s : State} (hs : Keeps u s) : Keeps u ((State.after (s) (execExpelReqRx (l) (rx) (s)))) := by
  refine Keeps.trans hs ?_
  unfold execExpelReqRx
  rw [State.after_next]
  repeat' first
    | with_reducible exact Keeps.refl _
    | with_reducible apply State.cutThrough_keeps
    | with_reducible apply State.expelReqRx_keeps

theorem State.expelWindowEnd_keeps {u : State} {s : State} (hs : Keeps u s) : Keeps u ((State.expelWindowEnd (s))) := by
  refine Keeps.trans hs ?_
  unfold State.expelWindowEnd
  repeat' first
    | with_reducible exact Keeps.refl _
    | with_reducible assumption
    | (intro x; first | (refine Keeps.use (x := x) ?_ (fun hx => ?_); rotate_left; clear_value x; rotate_right; subst x) | clear_value x | skip)
    | lift_lets -underBinder
    | with_reducible apply Keeps.ite
    | with_reducible apply State.expelAsk_keeps
    | with_reducible apply State.limitOut_keeps
    | ((with_reducible apply State.updGd_keeps); focus (intro t; exact ⟨⟨rfl, fun h => h⟩, rfl⟩))
    | with_reducible apply Keeps.foldl

theorem execExpelWindowEnd_keeps {u : State} {s : State} (hs : Keeps u s) : Keeps u ((State.after (s) (execExpelWindowEnd (s)))) := by
  refine Keeps.trans hs ?_
  unfold execExpelWindowEnd
  rw [State.after_next]
  repeat' first
    | with_reducible exact Keeps.refl _
    | with_reducible apply State.expelWindowEnd_keeps

theorem State.expelApply_keeps {u : State} {s : State} {i : Nat} {at_ : Int} {own : Bool} (hs : Keeps u s) : Keeps u ((State.expelApply (s) (i) (at_) (own))) := by
  refine Keeps.trans hs ?_
  unfold State.expelApply
  repeat' first
    | with_reducible exact Keeps.refl _
    | with_reducible assumption
    | (intro x; first | (refine Keeps.use (x := x) ?_ (fun hx => ?_); rotate_left; clear_value x; rotate_right; subst x) | clear_value x | skip)
    | lift_lets -underBinder
    | with_reducible apply Keeps.ite
    | with_reducible apply State.gdDown_keeps
    | with_reducible apply State.logG_keeps
    | with_reducible apply State.updDom_keeps
    | with_reducible apply State.updHealth_keeps
    | with_reducible apply Keeps.foldl

theorem State.expelGranted_keeps {u : State} {s : State} {i : Nat} {f : Frame} (hs : Keeps u s) : Keeps u ((State.expelGranted (s) (i) (f))) := by
  refine Keeps.trans hs ?_
  unfold State.expelGranted
  repeat' first
    | with_reducible exact Keeps.refl _
    | with_reducible assumption
    | (intro x; first | (refine Keeps.use (x := x) ?_ (fun hx => ?_); rotate_left; clear_value x; rotate_right; subst x) | clear_value x)
    | lift_lets -underBinder
    | with_reducible apply State.expelApply_keeps
    | with_reducible apply State.logG_keeps
    | with_reducible apply State.mirror_keeps
    | with_reducible apply State.toChild_keeps
    | ((with_reducible apply State.updGd_keeps); focus (intro t; exact Gd.journalWrite_steady ..))

theorem State.expelDown_keeps {u s : State} {l : LinkId} {f : Frame} {take : State → Nat → State}
    (k_take : ∀ x i, Keeps x (take x i)) (hs : Keeps u s) : Keeps u (s.expelDown l f take) := by
  unfold State.expelDown
  split
  · exact hs
  · split
    · exact State.malformed_keeps hs
    · exact hs
    · exact hs
    · exact Keeps.ite (hs.trans (k_take _ _)) (State.toChild_keeps hs)

theorem execExpelGrantRx_keeps {u : State} {l : LinkId} {rx : Rx} {s : State} (hs : Keeps u s) : Keeps u ((State.after (s) (execExpelGrantRx (l) (rx) (s)))) := by
  refine Keeps.trans hs ?_
  unfold execExpelGrantRx
  rw [State.after_next]
  repeat' first
    | with_reducible exact Keeps.refl _
    | intro x
    | lift_lets -underBinder
    | with_reducible apply Keeps.ite
    | with_reducible apply State.cutThrough_keeps
    | with_reducible apply State.expelDown_keeps
    | with_reducible apply State.expelGranted_keeps
    | with_reducible apply State.recvOp_keeps
    | split
    | with_reducible refine Keeps.ofPair (by with_reducible assumption) ?_

theorem execExpelDenyRx_keeps {u : State} {l : LinkId} {rx : Rx} {s : State} (hs : Keeps u s) : Keeps u ((State.after (s) (execExpelDenyRx (l) (rx) (s)))) := by
  refine Keeps.trans hs ?_
  unfold execExpelDenyRx
  rw [State.after_next]
  repeat' first
    | with_reducible exact Keeps.refl _
    | intro x
    | lift_lets -underBinder
    | with_reducible apply Keeps.ite
    | with_reducible apply State.cutThrough_keeps
    | with_reducible apply State.expelDown_keeps
    | with_reducible apply State.logG_keeps
    | with_reducible apply State.recvOp_keeps
    | with_reducible apply State.updHealth_keeps
    | split
    | with_reducible refine Keeps.ofPair (by with_reducible assumption) ?_

theorem State.expelLimitRx_keeps {u : State} {s : State} {l : LinkId} {f : Frame} (hs : Keeps u s) : Keeps u ((State.expelLimitRx (s) (l) (f))) := by
  refine Keeps.trans hs ?_
  unfold State.expelLimitRx
  repeat' first
    | with_reducible exact Keeps.refl _
    | with_reducible assumption
    | (intro x; first | (refine Keeps.use (x := x) ?_ (fun hx => ?_); rotate_left; clear_value x; rotate_right; subst x) | skip)
    | lift_lets -underBinder
    | with_reducible apply Keeps.ite
    | with_reducible apply State.expelAsk_keeps
    | with_reducible apply State.limitOut_keeps
    | with_reducible apply State.malformed_keeps
    | with_reducible apply State.readmitDue_keeps
    | ((with_reducible apply State.updGd_keeps); focus (intro t; exact ⟨⟨rfl, fun h => h⟩, rfl⟩))
    | with_reducible apply Keeps.foldl
    | split

theorem execExpelLimitRx_keeps {u : State} {l : LinkId} {rx : Rx} {s : State} (hs : Keeps u s) : Keeps u ((State.after (s) (execExpelLimitRx (l) (rx) (s)))) := by
  refine Keeps.trans hs ?_
  unfold execExpelLimitRx
  rw [State.after_next]
  repeat' first
    | with_reducible exact Keeps.refl _
    | with_reducible apply Keeps.ite
    | with_reducible apply State.cutThrough_keeps
    | with_reducible apply State.expelLimitRx_keeps
    | with_reducible apply State.recvOp_keeps
    | split
    | with_reducible refine Keeps.ofPair (by with_reducible assumption) ?_

theorem State.noticeTsu_keeps {u : State} {s : State} {at_ : Int} (hs : Keeps u s) : Keeps u ((State.noticeTsu (s) (at_))) := by
  refine Keeps.trans hs ?_
  unfold State.noticeTsu
  repeat' first
    | with_reducible exact Keeps.refl _
    | (intro x; clear_value x)
    | lift_lets -underBinder
    | ((with_reducible apply State.updTsu_keeps); focus (intro t; exact ⟨⟨rfl, fun h => h⟩, rfl⟩))

theorem State.readmitTsu_keeps {u : State} {s : State} (hs : Keeps u s) : Keeps u ((State.readmitTsu (s))) := by
  refine Keeps.trans hs ?_
  unfold State.readmitTsu
  repeat' first
    | with_reducible exact Keeps.refl _
    | with_reducible assumption
    | (intro x; first | (refine Keeps.use (x := x) ?_ (fun hx => ?_); rotate_left; clear_value x; rotate_right; subst x) | clear_value x | skip)
    | lift_lets -underBinder
    | with_reducible apply State.joinSoon_keeps
    | ((with_reducible apply State.updTsu_keeps); focus (intro t; exact ⟨⟨rfl, fun h => h⟩, rfl⟩))
    | with_reducible apply Keeps.foldl

theorem execExpelNoticeRx_keeps {u : State} {l : LinkId} {rx : Rx} {s : State} (hs : Keeps u s) : Keeps u ((State.after (s) (execExpelNoticeRx (l) (rx) (s)))) := by
  refine Keeps.trans hs ?_
  unfold execExpelNoticeRx
  rw [State.after_next]
  repeat' first
    | with_reducible exact Keeps.refl _
    | (intro x; clear_value x)
    | lift_lets -underBinder
    | with_reducible apply Keeps.ite
    | with_reducible apply State.cutThrough_keeps
    | with_reducible apply State.expelApply_keeps
    | with_reducible apply State.malformed_keeps
    | with_reducible apply State.noticeTsu_keeps
    | with_reducible apply State.recvOp_keeps
    | with_reducible apply State.toChild_keeps
    | split
    | with_reducible refine Keeps.ofPair (by with_reducible assumption) ?_

theorem execExpelReadmitRx_keeps {u : State} {l : LinkId} {rx : Rx} {s : State} (hs : Keeps u s) : Keeps u ((State.after (s) (execExpelReadmitRx (l) (rx) (s)))) := by
  refine Keeps.trans hs ?_
  unfold execExpelReadmitRx
  rw [State.after_next]
  repeat' first
    | with_reducible exact Keeps.refl _
    | with_reducible apply Keeps.ite
    | with_reducible apply State.cutThrough_keeps
    | with_reducible apply State.malformed_keeps
    | with_reducible apply State.readmitTsu_keeps
    | with_reducible apply State.readmitted_keeps
    | with_reducible apply State.recvOp_keeps
    | with_reducible apply State.toChild_keeps
    | split
    | with_reducible refine Keeps.ofPair (by with_reducible assumption) ?_

end Sys2Proof.Machine
end

