-- ==== Sys2Proof/Laws/FrameCensus.lean ====
section
/-! SUPPORT. What the operations of `Sys2Proof.Machine.Census` leave alone, one lemma per operation. -/

namespace Sys2Proof.Machine

open Sys2Proof

set_option linter.unusedVariables false

theorem State.askCounted_keeps {u : State} {s : State} (hs : Keeps u s) : Keeps u ((State.askCounted (s))) := by
  refine Keeps.trans hs ?_
  unfold State.askCounted
  repeat' first
    | with_reducible exact Keeps.refl _
    | ((with_reducible apply State.updTsu_keeps); focus (intro t; exact ⟨⟨rfl, fun h => h⟩, rfl⟩))

theorem State.askRx_keeps {u : State} {s : State} {l : LinkId} {rx : Rx} {phase : Nat} (hs : Keeps u s) : Keeps u ((State.askRx (s) (l) (rx) (phase)).1) := by
  refine Keeps.trans hs ?_
  unfold State.askRx
  repeat' first
    | with_reducible exact Keeps.refl _
    | with_reducible apply State.malformed_keeps
    | with_reducible apply State.receive_keeps
    | split
    | with_reducible refine Keeps.ofPair (by with_reducible assumption) ?_

theorem State.gdAsked_keeps {u : State} {s : State} {l : LinkId} {f : Frame} (hs : Keeps u s) : Keeps u ((State.gdAsked (s) (l) (f))) := by
  refine Keeps.trans hs ?_
  unfold State.gdAsked
  repeat' first
    | with_reducible exact Keeps.refl _
    | lift_lets -underBinder
    | with_reducible apply Keeps.ite
    | with_reducible apply State.gdAnswer_keeps
    | ((with_reducible apply State.updGd_keeps); focus (intro t; exact ⟨⟨rfl, fun h => h⟩, rfl⟩))

theorem execCensusListRx_keeps {u : State} {l : LinkId} {rx : Rx} {s : State} (hs : Keeps u s) : Keeps u ((State.after (s) (execCensusListRx (l) (rx) (s)))) := by
  refine Keeps.trans hs ?_
  unfold execCensusListRx
  rw [State.after_next]
  repeat' first
    | with_reducible exact Keeps.refl _
    | intro x
    | lift_lets -underBinder
    | with_reducible apply State.askCounted_keeps
    | with_reducible apply State.askRx_keeps
    | with_reducible apply State.cutThrough_keeps
    | with_reducible apply State.gdAsked_keeps
    | with_reducible apply State.send_keeps
    | with_reducible apply Keeps.foldl
    | split
    | with_reducible refine Keeps.ofPair (by with_reducible assumption) ?_

theorem State.tsuFetched_keeps {u : State} {s : State} {l : LinkId} {f : Frame} (hs : Keeps u s) : Keeps u ((State.tsuFetched (s) (l) (f))) := by
  refine Keeps.trans hs ?_
  unfold State.tsuFetched
  repeat' first
    | with_reducible exact Keeps.refl _
    | (intro x; clear_value x)
    | lift_lets -underBinder
    | with_reducible apply Keeps.ite
    | with_reducible apply State.askCounted_keeps
    | with_reducible apply State.send_keeps
    | split

theorem State.gdFetch_keeps {u : State} {s : State} {l : LinkId} {f : Frame} (hs : Keeps u s) : Keeps u ((State.gdFetch (s) (l) (f))) := by
  refine Keeps.trans hs ?_
  unfold State.gdFetch
  repeat' first
    | with_reducible exact Keeps.refl _
    | lift_lets -underBinder
    | with_reducible apply State.logG_keeps
    | with_reducible apply State.send_keeps
    | ((with_reducible apply State.updGd_keeps); focus (intro t; exact ⟨⟨rfl, fun h => h⟩, rfl⟩))
    | split

theorem execCensusFetchRx_keeps {u : State} {l : LinkId} {rx : Rx} {s : State} (hs : Keeps u s) : Keeps u ((State.after (s) (execCensusFetchRx (l) (rx) (s)))) := by
  refine Keeps.trans hs ?_
  unfold execCensusFetchRx
  rw [State.after_next]
  repeat' first
    | with_reducible exact Keeps.refl _
    | with_reducible apply State.askRx_keeps
    | with_reducible apply State.cutThrough_keeps
    | with_reducible apply State.gdFetch_keeps
    | with_reducible apply State.tsuFetched_keeps
    | split
    | with_reducible refine Keeps.ofPair (by with_reducible assumption) ?_

theorem execCensusResendRx_keeps {u : State} {l : LinkId} {rx : Rx} {s : State} (hs : Keeps u s) : Keeps u ((State.after (s) (execCensusResendRx (l) (rx) (s)))) := by
  refine Keeps.trans hs ?_
  unfold execCensusResendRx
  rw [State.after_next]
  repeat' first
    | with_reducible exact Keeps.refl _
    | with_reducible assumption
    | (intro x; first | (refine Keeps.use (x := x) ?_ (fun hx => ?_); rotate_left; clear_value x; rotate_right; subst x) | clear_value x | skip)
    | lift_lets -underBinder
    | with_reducible apply State.askCounted_keeps
    | with_reducible apply State.askRx_keeps
    | with_reducible apply State.cutThrough_keeps
    | with_reducible apply State.gdAsked_keeps
    | with_reducible apply State.send_keeps
    | with_reducible apply Keeps.foldl
    | split
    | with_reducible refine Keeps.ofPair (by with_reducible assumption) ?_

theorem State.censusDrop_keeps {u : State} {s : State} {p : Nat} (hs : Keeps u s) : Keeps u ((State.censusDrop (s) (p))) := by
  refine Keeps.trans hs ?_
  unfold State.censusDrop
  repeat' first
    | with_reducible exact Keeps.refl _
    | lift_lets -underBinder
    | with_reducible apply State.censusAdvance_keeps
    | with_reducible apply State.updCensus_keeps

theorem State.expelledSeen_keeps {u : State} {s : State} {tag : BitVec 24} {i : Nat} (hs : Keeps u s) : Keeps u ((State.expelledSeen (s) (tag) (i))) := by
  refine Keeps.trans hs ?_
  unfold State.expelledSeen
  repeat' first
    | with_reducible exact Keeps.refl _
    | with_reducible assumption
    | (intro x; first | (refine Keeps.use (x := x) ?_ (fun hx => ?_); rotate_left; clear_value x; rotate_right; subst x) | (have hf := funext (f := x) (g := x) (fun _ => rfl); clear hf; subst x))
    | lift_lets -underBinder
    | with_reducible apply Keeps.ite
    | with_reducible apply State.updDom_keeps
    | with_reducible apply State.updHealth_keeps

theorem State.censusTake_keeps {u : State} {s : State} {tag : BitVec 24} {i : Nat} {w : Nat} (hs : Keeps u s) : Keeps u ((State.censusTake (s) (tag) (i) (w))) := by
  refine Keeps.trans hs ?_
  unfold State.censusTake
  repeat' first
    | with_reducible exact Keeps.refl _
    | with_reducible assumption
    | (intro x; first | (refine Keeps.use (x := x) ?_ (fun hx => ?_); rotate_left; clear_value x; rotate_right; subst x) | clear_value x)
    | lift_lets -underBinder
    | with_reducible apply Keeps.ite
    | with_reducible apply State.expelledSeen_keeps
    | with_reducible apply State.updCensus_keeps

theorem State.censusAns_keeps {u : State} {s : State} {l : LinkId} {c : Census} {f : Frame} (hs : Keeps u s) : Keeps u ((State.censusAns (s) (l) (c) (f))) := by
  refine Keeps.trans hs ?_
  unfold State.censusAns
  repeat' first
    | with_reducible exact Keeps.refl _
    | with_reducible assumption
    | (intro x; first | (refine Keeps.use (x := x) ?_ (fun hx => ?_); rotate_left; clear_value x; rotate_right; subst x) | clear_value x | skip)
    | lift_lets -underBinder
    | with_reducible apply Keeps.ite
    | with_reducible apply State.censusAdvance_keeps
    | with_reducible apply State.censusDrop_keeps
    | with_reducible apply State.censusTake_keeps
    | with_reducible apply State.logG_keeps
    | with_reducible apply State.setEvt_keeps
    | with_reducible apply State.updCensus_keeps
    | with_reducible apply State.updLink_keeps
    | with_reducible apply Keeps.foldl

theorem execCensusAnsRx_keeps {u : State} {l : LinkId} {rx : Rx} {s : State} (hs : Keeps u s) : Keeps u ((State.after (s) (execCensusAnsRx (l) (rx) (s)))) := by
  refine Keeps.trans hs ?_
  unfold execCensusAnsRx
  rw [State.after_next]
  repeat' first
    | with_reducible exact Keeps.refl _
    | with_reducible apply Keeps.ite
    | with_reducible apply State.censusAns_keeps
    | with_reducible apply State.cutThrough_keeps
    | with_reducible apply State.malformed_keeps
    | with_reducible apply State.receive_keeps
    | split
    | with_reducible refine Keeps.ofPair (by with_reducible assumption) ?_

theorem State.fetchTimeout_keeps {u : State} {s : State} {tag : BitVec 24} {index : Nat} (hs : Keeps u s) : Keeps u ((State.fetchTimeout (s) (tag) (index))) := by
  refine Keeps.trans hs ?_
  unfold State.fetchTimeout
  repeat' first
    | with_reducible exact Keeps.refl _
    | with_reducible assumption
    | (intro x; first | (refine Keeps.use (x := x) ?_ (fun hx => ?_); rotate_left; clear_value x; rotate_right; subst x) | (have hf := funext (f := x) (g := x) (fun _ => rfl); clear hf; subst x) | clear_value x | skip)
    | lift_lets -underBinder
    | with_reducible apply Keeps.ite
    | with_reducible apply State.absentFrom_keeps
    | with_reducible apply State.censusAdvance_keeps
    | with_reducible apply State.gdDown_keeps
    | with_reducible apply State.send_keeps
    | with_reducible apply State.updCensus_keeps
    | with_reducible apply Keeps.foldl
    | split

theorem execFetchTimeout_keeps {u : State} {tag : BitVec 24} {index : Nat} {s : State} (hs : Keeps u s) : Keeps u ((State.after (s) (execFetchTimeout (tag) (index) (s)))) := by
  refine Keeps.trans hs ?_
  unfold execFetchTimeout
  rw [State.after_next]
  repeat' first
    | with_reducible exact Keeps.refl _
    | with_reducible apply State.fetchTimeout_keeps

theorem execCensusPortTimeout_keeps {u : State} {port : Nat} {s : State} (hs : Keeps u s) : Keeps u ((State.after (s) (execCensusPortTimeout (port) (s)))) := by
  refine Keeps.trans hs ?_
  unfold execCensusPortTimeout
  rw [State.after_next]
  repeat' first
    | with_reducible exact Keeps.refl _
    | (intro x; clear_value x)
    | lift_lets -underBinder
    | with_reducible apply Keeps.ite
    | with_reducible apply State.censusDrop_keeps
    | split

theorem execCensusSlow_keeps {u : State} {s : State} (hs : Keeps u s) : Keeps u ((State.after (s) (execCensusSlow (s)))) := by
  refine Keeps.trans hs ?_
  unfold execCensusSlow
  rw [State.after_next]
  repeat' first
    | with_reducible exact Keeps.refl _
    | lift_lets -underBinder
    | with_reducible apply Keeps.ite
    | with_reducible apply State.logG_keeps
    | with_reducible apply State.updCensus_keeps
    | ((with_reducible apply State.updGd_keeps); focus (intro t; exact ⟨⟨rfl, fun h => h⟩, rfl⟩))
    | split

end Sys2Proof.Machine
end

