-- ==== Sys2Proof/Laws/FrameDistOrders.lean ====
section
/-! SUPPORT. What the operations of `Sys2Proof.Machine.DistOrders` leave alone, one lemma per operation. -/

namespace Sys2Proof.Machine

open Sys2Proof

set_option linter.unusedVariables false

theorem State.broadcast_keeps {u : State} {s : State} {d : GdDom} {f : Frame} {only : Bool} (hs : Keeps u s) : Keeps u ((State.broadcast (s) (d) (f) (only))) := by
  refine Keeps.trans hs ?_
  unfold State.broadcast
  repeat' first
    | with_reducible exact Keeps.refl _
    | with_reducible assumption
    | (intro x; first | (refine Keeps.use (x := x) ?_ (fun hx => ?_); rotate_left; clear_value x; rotate_right; subst x) | clear_value x)
    | lift_lets -underBinder
    | with_reducible apply Keeps.ite
    | with_reducible apply State.gdDown_keeps
    | with_reducible apply State.mirror_keeps

theorem State.abortStart_keeps {u : State} {s : State} {d : GdDom} {id : Nat} {f : Frame} {only : Bool} (hs : Keeps u s) : Keeps u ((State.abortStart (s) (d) (id) (f) (only))) := by
  refine Keeps.trans hs ?_
  unfold State.abortStart
  repeat' first
    | with_reducible exact Keeps.refl _
    | with_reducible assumption
    | (intro x; first | (refine Keeps.use (x := x) ?_ (fun hx => ?_); rotate_left; clear_value x; rotate_right; subst x) | clear_value x)
    | lift_lets -underBinder
    | with_reducible apply State.broadcast_keeps
    | with_reducible apply State.updDom_keeps

theorem State.abortEnd_keeps {u : State} {s : State} {d : GdDom} (hs : Keeps u s) : Keeps u ((State.abortEnd (s) (d))) := by
  refine Keeps.trans hs ?_
  unfold State.abortEnd
  repeat' first
    | with_reducible exact Keeps.refl _
    | with_reducible assumption
    | (intro x; first | (refine Keeps.use (x := x) ?_ (fun hx => ?_); rotate_left; clear_value x; rotate_right; subst x) | clear_value x)
    | lift_lets -underBinder
    | with_reducible apply Keeps.ite
    | with_reducible apply State.gdUp_keeps
    | with_reducible apply State.setEvt_keeps
    | with_reducible apply State.updDom_keeps
    | ((with_reducible apply State.updGd_keeps); focus (intro t; exact ⟨⟨rfl, fun h => h⟩, rfl⟩))

theorem State.abortProgress_keeps {u : State} {s : State} {tag : BitVec 24} {expired : Bool} (hs : Keeps u s) : Keeps u ((State.abortProgress (s) (tag) (expired))) := by
  refine Keeps.trans hs ?_
  unfold State.abortProgress
  repeat' first
    | with_reducible exact Keeps.refl _
    | with_reducible apply Keeps.ite
    | with_reducible apply State.abortEnd_keeps
    | split

theorem State.abortRequest_keeps {u : State} {s : State} {d : GdDom} {pod : Bool} {step : BitVec 16} {origin : List Byte} {reason : Nat} (hs : Keeps u s) : Keeps u ((State.abortRequest (s) (d) (pod) (step) (origin) (reason))) := by
  refine Keeps.trans hs ?_
  unfold State.abortRequest
  repeat' first
    | with_reducible exact Keeps.refl _
    | (intro x; clear_value x)
    | lift_lets -underBinder
    | with_reducible apply Keeps.ite
    | with_reducible apply State.abortStart_keeps

theorem State.orderRequest_keeps {u : State} {s : State} {d : GdDom} {pod : Bool} {f : Frame} (hs : Keeps u s) : Keeps u ((State.orderRequest (s) (d) (pod) (f))) := by
  refine Keeps.trans hs ?_
  unfold State.orderRequest
  repeat' first
    | with_reducible exact Keeps.refl _
    | with_reducible assumption
    | (intro x; first | (refine Keeps.use (x := x) ?_ (fun hx => ?_); rotate_left; clear_value x; rotate_right; subst x) | clear_value x)
    | lift_lets -underBinder
    | with_reducible apply State.broadcast_keeps
    | with_reducible apply State.updDom_keeps

end Sys2Proof.Machine
end

