-- ==== Sys2Proof/Laws/FrameDomains.lean ====
section
/-! SUPPORT. What the operations of `Sys2Proof.Machine.Domains` leave alone, one lemma per operation. -/

namespace Sys2Proof.Machine

open Sys2Proof

set_option linter.unusedVariables false

theorem State.gdFrame_keeps {u : State} {s : State} {l : LinkId} {rx : Rx} {type : Nat} {count : Frame → Nat} {code : ErrCode} (hs : Keeps u s) : Keeps u ((State.gdFrame (s) (l) (rx) (type) (count) (code)).1) := by
  refine Keeps.trans hs ?_
  unfold State.gdFrame
  repeat' first
    | with_reducible exact Keeps.refl _
    | with_reducible assumption
    | (intro x; (refine Keeps.use (x := x) ?_ (fun hx => ?_); rotate_left; clear_value x; rotate_right; subst x))
    | lift_lets -underBinder
    | with_reducible apply Keeps.ite
    | with_reducible apply State.chain_keeps
    | with_reducible apply State.logG_keeps
    | with_reducible apply State.malformed_keeps
    | with_reducible apply State.receive_keeps
    | split
    | with_reducible refine Keeps.ofPair (by with_reducible assumption) ?_

theorem State.gdMessage_keeps {u : State} {s : State} {l : LinkId} {rx : Rx} {type : Nat} {count : Frame → Nat} {code : ErrCode} (hs : Keeps u s) : Keeps u ((State.gdMessage (s) (l) (rx) (type) (count) (code)).1) := by
  refine Keeps.trans hs ?_
  unfold State.gdMessage
  repeat' first
    | with_reducible exact Keeps.refl _
    | with_reducible apply State.gdFrame_keeps
    | with_reducible apply State.logG_keeps
    | split
    | with_reducible refine Keeps.ofPair (by with_reducible assumption) ?_

theorem State.arriveRx_keeps {u : State} {s : State} {l : LinkId} {rx : Rx} (hs : Keeps u s) : Keeps u ((State.arriveRx (s) (l) (rx))) := by
  refine Keeps.trans hs ?_
  unfold State.arriveRx
  repeat' first
    | with_reducible exact Keeps.refl _
    | (intro x; clear_value x)
    | lift_lets -underBinder
    | with_reducible apply Keeps.ite
    | with_reducible apply State.gdArrive_keeps
    | with_reducible apply State.gdFrame_keeps
    | with_reducible apply State.gdUnderway_keeps
    | with_reducible apply State.logG_keeps
    | with_reducible apply State.upPart_keeps
    | ((with_reducible apply State.updGd_keeps); focus (intro t; exact ⟨⟨rfl, fun h => h⟩, rfl⟩))
    | split
    | with_reducible refine Keeps.ofPair (by with_reducible assumption) ?_

theorem execArriveRx_keeps {u : State} {l : LinkId} {rx : Rx} {s : State} (hs : Keeps u s) : Keeps u ((State.after (s) (execArriveRx (l) (rx) (s)))) := by
  refine Keeps.trans hs ?_
  unfold execArriveRx
  rw [State.after_next]
  repeat' first
    | with_reducible exact Keeps.refl _
    | with_reducible apply State.arriveRx_keeps
    | with_reducible apply State.cutThrough_keeps

theorem State.fetchReply_keeps {u : State} {s : State} {l : LinkId} {d : GdDom} {fs : List Frame} (hs : Keeps u s) : Keeps u ((State.fetchReply (s) (l) (d) (fs))) := by
  refine Keeps.trans hs ?_
  unfold State.fetchReply
  repeat' first
    | with_reducible exact Keeps.refl _
    | with_reducible assumption
    | (intro x; first | (refine Keeps.use (x := x) ?_ (fun hx => ?_); rotate_left; clear_value x; rotate_right; subst x) | (have hf := funext (f := x) (g := x) (fun _ => rfl); clear hf; subst x))
    | lift_lets -underBinder
    | with_reducible apply State.censusAdvance_keeps
    | with_reducible apply State.gdDown_keeps
    | with_reducible apply State.logG_keeps
    | with_reducible apply State.malformed_keeps
    | with_reducible apply State.send_keeps
    | ((with_reducible apply State.updGd_keeps); focus (intro t; exact ⟨⟨rfl, fun h => h⟩, rfl⟩))
    | split

theorem State.gdDownMsg_keeps {u : State} {s : State} {l : LinkId} {rx : Rx} {launch : Bool} (hs : Keeps u s) : Keeps u ((State.gdDownMsg (s) (l) (rx) (launch))) := by
  refine Keeps.trans hs ?_
  unfold State.gdDownMsg
  repeat' first
    | with_reducible exact Keeps.refl _
    | with_reducible apply Keeps.ite
    | with_reducible apply State.fetchReply_keeps
    | with_reducible apply State.gdDownRx_keeps
    | with_reducible apply State.gdMessage_keeps
    | with_reducible apply State.malformed_keeps
    | split
    | with_reducible refine Keeps.ofPair (by with_reducible assumption) ?_

theorem execTurnForward_keeps {u : State} {l : LinkId} {rx : Rx} {s : State} (hs : Keeps u s) : Keeps u ((State.after (s) (execTurnForward (l) (rx) (s)))) := by
  refine Keeps.trans hs ?_
  unfold execTurnForward
  rw [State.after_next]
  repeat' first
    | with_reducible exact Keeps.refl _
    | with_reducible apply State.cutThrough_keeps
    | with_reducible apply State.gdDownMsg_keeps

theorem execLaunchForward_keeps {u : State} {l : LinkId} {rx : Rx} {s : State} (hs : Keeps u s) : Keeps u ((State.after (s) (execLaunchForward (l) (rx) (s)))) := by
  refine Keeps.trans hs ?_
  unfold execLaunchForward
  rw [State.after_next]
  repeat' first
    | with_reducible exact Keeps.refl _
    | with_reducible apply State.cutThrough_keeps
    | with_reducible apply State.gdDownMsg_keeps

theorem State.dlatTake_keeps {u : State} {s : State} {tag : BitVec 24} {i : Nat} {v : DlatIn} (hs : Keeps u s) : Keeps u ((State.dlatTake (s) (tag) (i) (v))) := by
  refine Keeps.trans hs ?_
  unfold State.dlatTake
  repeat' first
    | with_reducible exact Keeps.refl _
    | with_reducible assumption
    | (intro x; first | (refine Keeps.use (x := x) ?_ (fun hx => ?_); rotate_left; clear_value x; rotate_right; subst x) | clear_value x)
    | lift_lets -underBinder
    | with_reducible apply Keeps.ite
    | with_reducible apply State.noteDlat_keeps
    | with_reducible apply State.updDom_keeps
    | split

theorem State.latencyRx_keeps {u : State} {s : State} {l : LinkId} {rx : Rx} (hs : Keeps u s) : Keeps u ((State.latencyRx (s) (l) (rx))) := by
  refine Keeps.trans hs ?_
  unfold State.latencyRx
  repeat' first
    | with_reducible exact Keeps.refl _
    | (intro x; first | clear_value x | skip)
    | lift_lets -underBinder
    | with_reducible apply Keeps.ite
    | with_reducible apply State.dlatTake_keeps
    | with_reducible apply State.receive_keeps
    | with_reducible apply Keeps.foldl
    | split
    | with_reducible refine Keeps.ofPair (by with_reducible assumption) ?_

theorem execLatencyRx_keeps {u : State} {l : LinkId} {rx : Rx} {s : State} (hs : Keeps u s) : Keeps u ((State.after (s) (execLatencyRx (l) (rx) (s)))) := by
  refine Keeps.trans hs ?_
  unfold execLatencyRx
  rw [State.after_next]
  repeat' first
    | with_reducible exact Keeps.refl _
    | with_reducible apply State.cutThrough_keeps
    | with_reducible apply State.latencyRx_keeps

theorem State.gdLatencySend_keeps {u : State} {s : State} {p : Nat} {tag : BitVec 24} (hs : Keeps u s) : Keeps u ((State.gdLatencySend (s) (p) (tag))) := by
  refine Keeps.trans hs ?_
  unfold State.gdLatencySend
  repeat' first
    | with_reducible exact Keeps.refl _
    | with_reducible assumption
    | (intro x; first | (refine Keeps.use (x := x) ?_ (fun hx => ?_); rotate_left; clear_value x; rotate_right; subst x) | clear_value x)
    | lift_lets -underBinder
    | with_reducible apply Keeps.ite
    | with_reducible apply State.send_keeps
    | with_reducible apply State.updDom_keeps
    | split

theorem execLatencySend_keeps {u : State} {l : LinkId} {tag : BitVec 24} {s : State} (hs : Keeps u s) : Keeps u ((State.after (s) (execLatencySend (l) (tag) (s)))) := by
  refine Keeps.trans hs ?_
  unfold execLatencySend
  rw [State.after_next]
  repeat' first
    | with_reducible exact Keeps.refl _
    | with_reducible apply State.gdLatencySend_keeps
    | with_reducible apply State.tsuLatencySend_keeps
    | split

theorem State.gdRequest_keeps {u : State} {s : State} {l : LinkId} {d : GdDom} {f : Frame} {abort : Bool} (hs : Keeps u s) : Keeps u ((State.gdRequest (s) (l) (d) (f) (abort))) := by
  refine Keeps.trans hs ?_
  unfold State.gdRequest
  repeat' first
    | with_reducible exact Keeps.refl _
    | with_reducible apply Keeps.ite
    | with_reducible apply State.abortRequest_keeps
    | with_reducible apply State.gdUp_keeps
    | with_reducible apply State.orderRequest_keeps
    | with_reducible apply State.upPart_keeps
    | split
    | with_reducible refine Keeps.ofPair (by with_reducible assumption) ?_

theorem State.gdBroadcast_keeps {u : State} {s : State} {l : LinkId} {d : GdDom} {f : Frame} {abort : Bool} (hs : Keeps u s) : Keeps u ((State.gdBroadcast (s) (l) (d) (f) (abort))) := by
  refine Keeps.trans hs ?_
  unfold State.gdBroadcast
  repeat' first
    | with_reducible exact Keeps.refl _
    | (intro x; clear_value x)
    | lift_lets -underBinder
    | with_reducible apply Keeps.ite
    | with_reducible apply State.abortStart_keeps
    | with_reducible apply State.broadcast_keeps
    | with_reducible apply State.malformed_keeps
    | with_reducible apply State.updDom_keeps

theorem State.gdAbortRx_keeps {u : State} {s : State} {l : LinkId} {rx : Rx} (hs : Keeps u s) : Keeps u ((State.gdAbortRx (s) (l) (rx))) := by
  refine Keeps.trans hs ?_
  unfold State.gdAbortRx
  repeat' first
    | with_reducible exact Keeps.refl _
    | lift_lets -underBinder
    | with_reducible apply Keeps.ite
    | with_reducible apply State.gdBroadcast_keeps
    | with_reducible apply State.gdMessage_keeps
    | with_reducible apply State.gdRequest_keeps
    | split
    | with_reducible refine Keeps.ofPair (by with_reducible assumption) ?_

theorem execAbortFrameRx_keeps {u : State} {l : LinkId} {rx : Rx} {s : State} (hs : Keeps u s) : Keeps u ((State.after (s) (execAbortFrameRx (l) (rx) (s)))) := by
  refine Keeps.trans hs ?_
  unfold execAbortFrameRx
  rw [State.after_next]
  repeat' first
    | with_reducible exact Keeps.refl _
    | with_reducible apply Keeps.ite
    | with_reducible apply State.cutThrough_keeps
    | with_reducible apply State.gdAbortRx_keeps
    | with_reducible apply State.malformed_keeps
    | with_reducible apply State.receive_keeps
    | with_reducible apply State.tsuAbortRx_keeps
    | split
    | with_reducible refine Keeps.ofPair (by with_reducible assumption) ?_

theorem State.gdAbortDone_keeps {u : State} {s : State} {l : LinkId} {rx : Rx} (hs : Keeps u s) : Keeps u ((State.gdAbortDone (s) (l) (rx))) := by
  refine Keeps.trans hs ?_
  unfold State.gdAbortDone
  repeat' first
    | with_reducible exact Keeps.refl _
    | with_reducible assumption
    | (intro x; first | (refine Keeps.use (x := x) ?_ (fun hx => ?_); rotate_left; clear_value x; rotate_right; subst x) | clear_value x)
    | lift_lets -underBinder
    | with_reducible apply Keeps.ite
    | with_reducible apply State.abortProgress_keeps
    | with_reducible apply State.gdMessage_keeps
    | with_reducible apply State.upPart_keeps
    | with_reducible apply State.updDom_keeps
    | split
    | with_reducible refine Keeps.ofPair (by with_reducible assumption) ?_

theorem execAbortDoneRx_keeps {u : State} {l : LinkId} {rx : Rx} {s : State} (hs : Keeps u s) : Keeps u ((State.after (s) (execAbortDoneRx (l) (rx) (s)))) := by
  refine Keeps.trans hs ?_
  unfold execAbortDoneRx
  rw [State.after_next]
  repeat' first
    | with_reducible exact Keeps.refl _
    | with_reducible apply Keeps.ite
    | with_reducible apply State.cutThrough_keeps
    | with_reducible apply State.gdAbortDone_keeps

theorem execAbortWaitExpiry_keeps {u : State} {tag : BitVec 24} {s : State} (hs : Keeps u s) : Keeps u ((State.after (s) (execAbortWaitExpiry (tag) (s)))) := by
  refine Keeps.trans hs ?_
  unfold execAbortWaitExpiry
  rw [State.after_next]
  repeat' first
    | with_reducible exact Keeps.refl _
    | with_reducible apply State.abortProgress_keeps

theorem State.gdOrderRx_keeps {u : State} {s : State} {l : LinkId} {rx : Rx} (hs : Keeps u s) : Keeps u ((State.gdOrderRx (s) (l) (rx))) := by
  refine Keeps.trans hs ?_
  unfold State.gdOrderRx
  repeat' first
    | with_reducible exact Keeps.refl _
    | lift_lets -underBinder
    | with_reducible apply Keeps.ite
    | with_reducible apply State.gdBroadcast_keeps
    | with_reducible apply State.gdMessage_keeps
    | with_reducible apply State.gdRequest_keeps
    | split
    | with_reducible refine Keeps.ofPair (by with_reducible assumption) ?_

theorem execOrderFrameRx_keeps {u : State} {l : LinkId} {rx : Rx} {s : State} (hs : Keeps u s) : Keeps u ((State.after (s) (execOrderFrameRx (l) (rx) (s)))) := by
  refine Keeps.trans hs ?_
  unfold execOrderFrameRx
  rw [State.after_next]
  repeat' first
    | with_reducible exact Keeps.refl _
    | with_reducible apply Keeps.ite
    | with_reducible apply State.cutThrough_keeps
    | with_reducible apply State.gdOrderRx_keeps
    | with_reducible apply State.malformed_keeps
    | with_reducible apply State.receive_keeps
    | with_reducible apply State.tsuOrderRx_keeps
    | split
    | with_reducible refine Keeps.ofPair (by with_reducible assumption) ?_

theorem State.gdAbortGo_keeps {u : State} {s : State} {w : Word} (hs : Keeps u s) : Keeps u ((State.gdAbortGo (s) (w))) := by
  refine Keeps.trans hs ?_
  unfold State.gdAbortGo
  repeat' first
    | with_reducible exact Keeps.refl _
    | with_reducible assumption
    | (intro x; first | (refine Keeps.use (x := x) ?_ (fun hx => ?_); rotate_left; clear_value x; rotate_right; subst x) | clear_value x)
    | lift_lets -underBinder
    | with_reducible apply Keeps.ite
    | with_reducible apply State.abortRequest_keeps
    | with_reducible apply State.gdUp_keeps
    | with_reducible apply State.setReg_keeps
    | split

theorem execGdAbortGo_keeps {u : State} {w : Word} {s : State} (hs : Keeps u s) : Keeps u ((State.after (s) (execGdAbortGo (w) (s)))) := by
  refine Keeps.trans hs ?_
  unfold execGdAbortGo
  rw [State.after_next]
  repeat' first
    | with_reducible exact Keeps.refl _
    | with_reducible apply State.gdAbortGo_keeps

theorem State.gdOrderGo_keeps {u : State} {s : State} {w : Word} (hs : Keeps u s) : Keeps u ((State.gdOrderGo (s) (w))) := by
  refine Keeps.trans hs ?_
  unfold State.gdOrderGo
  repeat' first
    | with_reducible exact Keeps.refl _
    | with_reducible assumption
    | (intro x; first | (refine Keeps.use (x := x) ?_ (fun hx => ?_); rotate_left; clear_value x; rotate_right; subst x) | clear_value x)
    | lift_lets -underBinder
    | with_reducible apply Keeps.ite
    | with_reducible apply State.gdUp_keeps
    | with_reducible apply State.orderRequest_keeps
    | with_reducible apply State.setReg_keeps
    | ((with_reducible apply State.updCom_keeps); focus (intro t; exact Common.accessErr_steady ..))
    | split

theorem execGdOrderGo_keeps {u : State} {w : Word} {s : State} (hs : Keeps u s) : Keeps u ((State.after (s) (execGdOrderGo (w) (s)))) := by
  refine Keeps.trans hs ?_
  unfold execGdOrderGo
  rw [State.after_next]
  repeat' first
    | with_reducible exact Keeps.refl _
    | with_reducible apply State.gdOrderGo_keeps

end Sys2Proof.Machine
end

