-- ==== Sys2Proof/Laws/FrameFirmware.lean ====
section
/-! SUPPORT. What the operations of `Sys2Proof.Machine.Firmware` leave alone, one lemma per operation. -/

namespace Sys2Proof.Machine

open Sys2Proof

set_option linter.unusedVariables false

theorem execCardDetect_keeps {u : State} {data : List Byte} {s : State} (hs : Keeps u s) : Keeps u ((State.after (s) (execCardDetect (data) (s)))) := by
  refine Keeps.trans hs ?_
  unfold execCardDetect
  rw [State.after_next]
  repeat' first
    | with_reducible exact Keeps.refl _
    | with_reducible apply Keeps.ite
    | with_reducible apply State.fwLoad_keeps

theorem execFwLoadCard_keeps {u : State} {data : List Byte} {s : State} (hs : Keeps u s) : Keeps u ((State.after (s) (execFwLoadCard (data) (s)))) := by
  refine Keeps.trans hs ?_
  unfold execFwLoadCard
  rw [State.after_next]
  repeat' first
    | with_reducible exact Keeps.refl _
    | with_reducible apply State.fwLoad_keeps

theorem execFwSlotWriteDone_keeps {u : State} {crcOk signatureOk writeOk : Bool} {s : State} (hs : Keeps u s) : Keeps u ((State.after (s) (execFwSlotWriteDone (crcOk) (signatureOk) (writeOk) (s)))) := by
  refine Keeps.trans hs ?_
  unfold execFwSlotWriteDone
  rw [State.after_next]
  repeat' first
    | with_reducible exact Keeps.refl _
    | with_reducible apply State.fwWritten_keeps

theorem State.fwControl_keeps {u : State} {s : State} {acc : Access} {f : State → State} (k_f : ∀ x, Keeps x (f x)) (hs : Keeps u s) : Keeps u ((State.fwControl (s) (acc) (f))) := by
  refine Keeps.trans hs ?_
  unfold State.fwControl
  repeat' first
    | with_reducible exact Keeps.refl _
    | with_reducible assumption
    | with_reducible apply State.gdWrite_keeps

theorem State.gdWrite_sound {u s : State} {acc : Access} {off : Nat} {custody : Bool} {f : State → State}
    (k_f : ∀ x, Sound x (f x)) (hs : Sound u s) : Sound u (s.gdWrite acc off custody f) := by
  unfold State.gdWrite
  have he : ∀ b, Sound u (s.updCom .gd fun c => c.accessErr b off) := fun b =>
    State.updCom_sound (fun c => Common.accessErr_steady ..) hs
  exact Sound.ite (he _) (Sound.ite hs (Sound.ite (he _) (Sound.ite (he _) (Sound.ite (Sound.step (State.custodyRefused_keeps (.refl _)) hs)
    ((hs.trans (State.noteWrite_keeps (.refl _)).sound).trans (k_f _))))))

theorem execFwActivate_sound {u s : State} {acc : Access} (hs : Sound u s) : Sound u (s.after (execFwActivate acc s)) :=
  State.gdWrite_sound (fun _ => State.fwActivate_sound (.refl _)) hs

theorem execFwCommit_keeps {u : State} {acc : Access} {s : State} (hs : Keeps u s) : Keeps u ((State.after (s) (execFwCommit (acc) (s)))) := by
  refine Keeps.trans hs ?_
  unfold execFwCommit
  rw [State.after_next]
  repeat' first
    | with_reducible exact Keeps.refl _
    | with_reducible apply State.fwCommit_keeps
    | with_reducible apply State.fwControl_keeps
    | intro x

theorem execFwRevert_sound {u s : State} {acc : Access} (hs : Sound u s) : Sound u (s.after (execFwRevert acc s)) :=
  State.gdWrite_sound (fun _ => State.fwRevert_sound (.refl _)) hs

theorem State.understudyBooted_keeps {u : State} {s : State} (hs : Keeps u s) : Keeps u ((State.understudyBooted (s))) := by
  refine Keeps.trans hs ?_
  unfold State.understudyBooted
  repeat' first
    | with_reducible exact Keeps.refl _
    | with_reducible assumption
    | (intro x; first | (refine Keeps.use (x := x) ?_ (fun hx => ?_); rotate_left; clear_value x; rotate_right; subst x) | clear_value x)
    | lift_lets -underBinder
    | with_reducible apply State.fwEnded_keeps
    | with_reducible apply State.logG_keeps
    | with_reducible apply State.settingsFor_keeps
    | with_reducible apply State.updFw_keeps
    | split

theorem execUnderstudyBooted_keeps {u : State} {s : State} (hs : Keeps u s) : Keeps u ((State.after (s) (execUnderstudyBooted (s)))) := by
  refine Keeps.trans hs ?_
  unfold execUnderstudyBooted
  rw [State.after_next]
  repeat' first
    | with_reducible exact Keeps.refl _
    | with_reducible apply State.understudyBooted_keeps

theorem execUnderstudyBootTimeout_keeps {u : State} {s : State} (hs : Keeps u s) : Keeps u ((State.after (s) (execUnderstudyBootTimeout (s)))) := by
  refine Keeps.trans hs ?_
  unfold execUnderstudyBootTimeout
  rw [State.after_next]
  repeat' first
    | with_reducible exact Keeps.refl _
    | lift_lets -underBinder
    | with_reducible apply Keeps.ite
    | with_reducible apply State.fwRollback_keeps
    | with_reducible apply State.updFw_keeps
    | split

theorem execActivateCensusWait_sound {u : State} {s : State} (hs : Sound u s) : Sound u ((State.after (s) (execActivateCensusWait (s)))) := by
  refine Sound.trans hs ?_
  unfold execActivateCensusWait
  rw [State.after_next]
  repeat' first
    | with_reducible exact Sound.refl _
    | lift_lets -underBinder
    | with_reducible apply Sound.ite
    | with_reducible apply State.fwBegin_sound
    | with_reducible apply Sound.step (State.fwBusyErr_keeps (Keeps.refl _))
    | with_reducible apply Sound.step (State.updFw_keeps (Keeps.refl _))
    | split

theorem execCommitWaitExpiry_keeps {u : State} {s : State} (hs : Keeps u s) : Keeps u ((State.after (s) (execCommitWaitExpiry (s)))) := by
  refine Keeps.trans hs ?_
  unfold execCommitWaitExpiry
  rw [State.after_next]
  repeat' first
    | with_reducible exact Keeps.refl _
    | with_reducible apply Keeps.ite
    | with_reducible apply State.fwCommit_keeps

theorem execHeartbeatMiss_sound {u : State} {s : State} (hs : Sound u s) : Sound u ((State.after (s) (execHeartbeatMiss (s)))) := by
  refine Sound.trans hs ?_
  unfold execHeartbeatMiss
  rw [State.after_next]
  repeat' first
    | with_reducible exact Sound.refl _
    | with_reducible apply State.fwRevert_sound

theorem State.fwctlHere_sound {u : State} {s : State} {l : LinkId} {f : Frame} (hs : Sound u s) : Sound u ((State.fwctlHere (s) (l) (f))) := by
  refine Sound.trans hs ?_
  unfold State.fwctlHere
  repeat' first
    | with_reducible exact Sound.refl _
    | with_reducible apply Sound.ite
    | with_reducible apply State.fwActivate_sound
    | with_reducible apply Sound.step (State.fwCommit_keeps (Keeps.refl _))
    | with_reducible apply State.fwRevert_sound
    | with_reducible apply Sound.step (State.logG_keeps (Keeps.refl _))
    | split

theorem State.fwctlRx_sound {u s : State} {l : LinkId} {rx : Rx} (hs : Sound u s) : Sound u (s.fwctlRx l rx) := by
  unfold State.fwctlRx
  have h : Sound u (s.receive l rx 0x0D).1 := Sound.step (State.receive_keeps (.refl _)) hs
  revert h
  generalize s.receive l rx 0x0D = p
  intro h
  obtain ⟨x, _ | f⟩ := p
  · exact h
  · simp only []
    refine Sound.ite h (Sound.ite (Sound.step (State.malformed_keeps (.refl _)) h) (Sound.ite h (Sound.ite ?_ ?_)))
    · exact State.fwctlHere_sound h
    · split
      · exact Sound.step (State.send_keeps (.refl _)) h
      · exact h

theorem execFwctlRx_sound {u : State} {l : LinkId} {rx : Rx} {s : State} (hs : Sound u s) : Sound u ((State.after (s) (execFwctlRx (l) (rx) (s)))) := by
  refine Sound.trans hs ?_
  unfold execFwctlRx
  rw [State.after_next]
  repeat' first
    | with_reducible exact Sound.refl _
    | with_reducible apply Sound.step (State.cutThrough_keeps (Keeps.refl _))
    | with_reducible apply State.fwctlRx_sound

theorem State.sealTo_sound {u s : State} {st : SealState} (hs : Sound u s) : Sound u (s.sealTo st) := by
  unfold State.sealTo
  simp only []
  refine Sound.ite hs (State.updGd_sound (fun g => Gd.journalWrite_steady ..) (State.updCom_sound (fun c => Common.setIrq_steady ..) ?_))
  exact hs.trans ⟨⟨.refl _, rfl⟩, fun c => c, fun c => c, rfl, rfl, rfl⟩

theorem State.tamperClear_sound {u : State} {s : State} (hs : Sound u s) : Sound u ((State.tamperClear (s))) := by
  refine Sound.trans hs ?_
  unfold State.tamperClear
  repeat' first
    | with_reducible exact Sound.refl _
    | with_reducible apply Sound.ite
    | with_reducible apply State.sealTo_sound

theorem State.keyswChange_sound {u s : State} {isOpen : Bool} (hs : Sound u s) : Sound u (s.keyswChange isOpen) := by
  have h : Sound u (s.updGd fun g => { g with keysw := isOpen }) := hs.trans ⟨⟨.refl _, rfl⟩, fun c => c, fun c => c, rfl, rfl, rfl⟩
  unfold State.keyswChange
  exact Sound.ite hs (Sound.ite (Sound.ite (State.sealTo_sound h) h)
    (Sound.ite (State.tamperClear_sound h) (State.sealTo_sound h)))

theorem execKeyswChange_sound {u : State} {isOpen : Bool} {s : State} (hs : Sound u s) : Sound u ((State.after (s) (execKeyswChange (isOpen) (s)))) := by
  refine Sound.trans hs ?_
  unfold execKeyswChange
  rw [State.after_next]
  repeat' first
    | with_reducible exact Sound.refl _
    | with_reducible apply State.keyswChange_sound

theorem execPresencePress_sound {u : State} {s : State} (hs : Sound u s) : Sound u ((State.after (s) (execPresencePress (s)))) := by
  refine Sound.trans hs ?_
  unfold execPresencePress
  rw [State.after_next]
  repeat' first
    | with_reducible exact Sound.refl _
    | with_reducible apply Sound.ite
    | with_reducible apply State.sealTo_sound

theorem execTamperLoopBreak_sound {u s : State} (hs : Sound u s) : Sound u (s.after (execTamperLoopBreak s)) := by
  have h : Sound u (s.updGd fun g => { g with loopOk := false }) := hs.trans ⟨⟨.refl _, rfl⟩, fun c => c, fun c => c, rfl, rfl, rfl⟩
  exact Sound.ite (Sound.step (State.logG_keeps (.refl _)) (State.sealTo_sound h)) hs

theorem execTamperClear_sound {u s : State} (hs : Sound u s) : Sound u (s.after (execTamperClear s)) := by
  have h : Sound u (s.updGd fun g => { g with loopOk := true, loopAt := g.com.time.aon }) :=
    hs.trans ⟨⟨.refl _, rfl⟩, fun c => c, fun c => c, rfl, rfl, rfl⟩
  exact Sound.ite (State.tamperClear_sound hs) h

theorem execSealArmedExpiry_sound {u : State} {s : State} (hs : Sound u s) : Sound u ((State.after (s) (execSealArmedExpiry (s)))) := by
  refine Sound.trans hs ?_
  unfold execSealArmedExpiry
  rw [State.after_next]
  repeat' first
    | with_reducible exact Sound.refl _
    | with_reducible apply Sound.ite
    | with_reducible apply Sound.step (State.logG_keeps (Keeps.refl _))
    | with_reducible apply State.sealTo_sound

theorem execSealMaxExpiry_sound {u : State} {s : State} (hs : Sound u s) : Sound u ((State.after (s) (execSealMaxExpiry (s)))) := by
  refine Sound.trans hs ?_
  unfold execSealMaxExpiry
  rw [State.after_next]
  repeat' first
    | with_reducible exact Sound.refl _
    | with_reducible apply Sound.ite
    | with_reducible apply State.sealTo_sound

theorem execOwnerLockWrite_formed {u s : State} {acc : Access} {w : Word} (hs : Formed u s) :
    Formed u (s.after (execOwnerLockWrite acc w s)) := by
  unfold execOwnerLockWrite
  rw [State.after_next]
  unfold State.gdWrite
  have he : ∀ b, Formed u (s.updCom .gd fun c => c.accessErr b 0xA20) := fun b =>
    State.updCom_formed (fun c => Common.accessErr_steady ..) hs
  refine Formed.ite (he _) (Formed.ite hs (Formed.ite (he _) (Formed.ite (he _) (Formed.ite ?_ ?_))))
  · exact Formed.step (State.custodyRefused_keeps (.refl _)).sound.formed hs
  · exact (Formed.step (State.noteWrite_keeps (.refl _)).sound.formed hs).trans ⟨fun c => c, fun c => c, rfl, rfl⟩

theorem State.fuseBlow_keeps {u : State} {s : State} (hs : Keeps u s) : Keeps u ((State.fuseBlow (s))) := by
  refine Keeps.trans hs ?_
  unfold State.fuseBlow
  repeat' first
    | with_reducible exact Keeps.refl _
    | with_reducible assumption
    | (intro x; first | (refine Keeps.use (x := x) ?_ (fun hx => ?_); rotate_left; clear_value x; rotate_right; subst x) | clear_value x)
    | lift_lets -underBinder
    | with_reducible apply Keeps.ite
    | with_reducible apply State.setEvt_keeps
    | ((with_reducible apply State.updGd_keeps); focus (intro t; exact ⟨⟨rfl, fun h => h⟩, rfl⟩))

theorem execFuseBlow_keeps {u : State} {acc : Access} {s : State} (hs : Keeps u s) : Keeps u ((State.after (s) (execFuseBlow (acc) (s)))) := by
  refine Keeps.trans hs ?_
  unfold execFuseBlow
  rw [State.after_next]
  repeat' first
    | with_reducible exact Keeps.refl _
    | with_reducible apply State.fuseBlow_keeps
    | with_reducible apply State.gdWrite_keeps
    | intro x

end Sys2Proof.Machine
end

