-- ==== Sys2Proof/Laws/FrameJoins.lean ====
section
/-! SUPPORT. What the operations of `Sys2Proof.Machine.Joins` leave alone, one lemma per operation. -/

namespace Sys2Proof.Machine

open Sys2Proof

set_option linter.unusedVariables false

theorem State.restartNotice_keeps {u : State} {s : State} {p : Nat} (hs : Keeps u s) : Keeps u ((State.restartNotice (s) (p))) := by
  refine Keeps.trans hs ?_
  unfold State.restartNotice
  repeat' first
    | with_reducible exact Keeps.refl _
    | with_reducible assumption
    | (intro x; first | (refine Keeps.use (x := x) ?_ (fun hx => ?_); rotate_left; clear_value x; rotate_right; subst x) | clear_value x)
    | lift_lets -underBinder
    | with_reducible apply State.absentAll_keeps
    | with_reducible apply State.downPortUp_keeps
    | with_reducible apply State.imageDown_keeps
    | ((with_reducible apply State.updGd_keeps); focus (intro t; exact ⟨⟨rfl, fun h => h⟩, rfl⟩))

theorem State.joinAsked_keeps {u : State} {s : State} {d : GdDom} {i die : Nat} (hs : Keeps u s) : Keeps u ((State.joinAsked (s) (d) (i) (die))) := by
  refine Keeps.trans hs ?_
  unfold State.joinAsked
  repeat' first
    | with_reducible exact Keeps.refl _
    | with_reducible assumption
    | (intro x; first | (refine Keeps.use (x := x) ?_ (fun hx => ?_); rotate_left; clear_value x; rotate_right; subst x) | clear_value x)
    | lift_lets -underBinder
    | with_reducible apply Keeps.ite
    | with_reducible apply State.absentFrom_keeps
    | with_reducible apply State.gdDown_keeps
    | with_reducible apply State.mirror_keeps
    | with_reducible apply State.updDom_keeps

theorem State.joinReqRx_keeps {u : State} {s : State} {l : LinkId} {rx : Rx} (hs : Keeps u s) : Keeps u ((State.joinReqRx (s) (l) (rx))) := by
  refine Keeps.trans hs ?_
  unfold State.joinReqRx
  repeat' first
    | with_reducible exact Keeps.refl _
    | with_reducible apply Keeps.ite
    | with_reducible apply State.joinAsked_keeps
    | with_reducible apply State.logG_keeps
    | with_reducible apply State.malformed_keeps
    | with_reducible apply State.recvOp_keeps
    | with_reducible apply State.restartNotice_keeps
    | with_reducible apply State.upPart_keeps
    | split
    | with_reducible refine Keeps.ofPair (by with_reducible assumption) ?_

theorem execJoinReqRx_keeps {u : State} {l : LinkId} {rx : Rx} {s : State} (hs : Keeps u s) : Keeps u ((State.after (s) (execJoinReqRx (l) (rx) (s)))) := by
  refine Keeps.trans hs ?_
  unfold execJoinReqRx
  rw [State.after_next]
  repeat' first
    | with_reducible exact Keeps.refl _
    | with_reducible apply State.cutThrough_keeps
    | with_reducible apply State.joinReqRx_keeps

theorem State.ackTsu_keeps {u : State} {s : State} {l : LinkId} {tag : BitVec 24} {at_ : Int} (hs : Keeps u s) : Keeps u ((State.ackTsu (s) (l) (tag) (at_))) := by
  refine Keeps.trans hs ?_
  unfold State.ackTsu
  repeat' first
    | with_reducible exact Keeps.refl _
    | with_reducible assumption
    | (intro x; first | (refine Keeps.use (x := x) ?_ (fun hx => ?_); rotate_left; clear_value x; rotate_right; subst x) | (have hf := funext (f := x) (g := x) (fun _ => rfl); clear hf; subst x) | skip)
    | lift_lets -underBinder
    | with_reducible apply Keeps.ite
    | with_reducible apply State.logT_keeps
    | with_reducible apply State.setEvt_keeps
    | with_reducible apply State.updBinding_keeps
    | ((with_reducible apply State.updTsu_keeps); focus (intro t; exact ⟨⟨rfl, fun h => h⟩, rfl⟩))
    | split

theorem State.ackGd_keeps {u : State} {s : State} {l : LinkId} {f : Frame} (hs : Keeps u s) : Keeps u ((State.ackGd (s) (l) (f))) := by
  refine Keeps.trans hs ?_
  unfold State.ackGd
  repeat' first
    | with_reducible exact Keeps.refl _
    | (intro x; clear_value x)
    | lift_lets -underBinder
    | with_reducible apply Keeps.ite
    | with_reducible apply State.malformed_keeps
    | with_reducible apply State.updDom_keeps
    | split

theorem execJoinAckRx_keeps {u : State} {l : LinkId} {rx : Rx} {s : State} (hs : Keeps u s) : Keeps u ((State.after (s) (execJoinAckRx (l) (rx) (s)))) := by
  refine Keeps.trans hs ?_
  unfold execJoinAckRx
  rw [State.after_next]
  repeat' first
    | with_reducible exact Keeps.refl _
    | with_reducible apply State.ackGd_keeps
    | with_reducible apply State.ackTsu_keeps
    | with_reducible apply State.cutThrough_keeps
    | with_reducible apply State.recvOp_keeps
    | split
    | with_reducible refine Keeps.ofPair (by with_reducible assumption) ?_

theorem State.shadowDomain_keeps {u : State} {s : State} {tag : BitVec 24} (hs : Keeps u s) : Keeps u ((State.shadowDomain (s) (tag))) := by
  refine Keeps.trans hs ?_
  unfold State.shadowDomain
  repeat' first
    | with_reducible exact Keeps.refl _
    | with_reducible assumption
    | (intro x; first | (refine Keeps.use (x := x) ?_ (fun hx => ?_); rotate_left; clear_value x; rotate_right; subst x) | clear_value x | skip)
    | lift_lets -underBinder
    | with_reducible apply State.enterShadow_keeps
    | with_reducible apply State.joinSoon_keeps
    | with_reducible apply State.updBinding_keeps
    | ((with_reducible apply State.updTsu_keeps); focus (intro t; exact ⟨⟨rfl, fun h => h⟩, rfl⟩))
    | with_reducible apply Keeps.foldl
    | split

theorem State.absentTsu_keeps {u : State} {s : State} {tag : BitVec 24} (hs : Keeps u s) : Keeps u ((State.absentTsu (s) (tag))) := by
  refine Keeps.trans hs ?_
  unfold State.absentTsu
  repeat' first
    | with_reducible exact Keeps.refl _
    | with_reducible assumption
    | (intro x; first | (refine Keeps.use (x := x) ?_ (fun hx => ?_); rotate_left; clear_value x; rotate_right; subst x) | clear_value x | skip)
    | lift_lets -underBinder
    | with_reducible apply Keeps.ite
    | with_reducible apply State.shadowDomain_keeps
    | ((with_reducible apply State.updTsu_keeps); focus (intro t; exact ⟨⟨rfl, fun h => h⟩, rfl⟩))
    | with_reducible apply Keeps.foldl

theorem State.absentGd_keeps {u : State} {s : State} {l : LinkId} {f : Frame} (hs : Keeps u s) : Keeps u ((State.absentGd (s) (l) (f))) := by
  refine Keeps.trans hs ?_
  unfold State.absentGd
  repeat' first
    | with_reducible exact Keeps.refl _
    | with_reducible assumption
    | (intro x; first | (refine Keeps.use (x := x) ?_ (fun hx => ?_); rotate_left; clear_value x; rotate_right; subst x) | clear_value x | skip)
    | lift_lets -underBinder
    | with_reducible apply Keeps.ite
    | with_reducible apply State.gdJoinReqs_keeps
    | with_reducible apply State.malformed_keeps
    | with_reducible apply State.send_keeps
    | with_reducible apply State.updDom_keeps
    | ((with_reducible apply State.updGd_keeps); focus (intro t; exact ⟨⟨rfl, fun h => h⟩, rfl⟩))
    | with_reducible apply Keeps.foldl

theorem execJoinAbsentRx_keeps {u : State} {l : LinkId} {rx : Rx} {s : State} (hs : Keeps u s) : Keeps u ((State.after (s) (execJoinAbsentRx (l) (rx) (s)))) := by
  refine Keeps.trans hs ?_
  unfold execJoinAbsentRx
  rw [State.after_next]
  repeat' first
    | with_reducible exact Keeps.refl _
    | with_reducible apply State.absentGd_keeps
    | with_reducible apply State.absentTsu_keeps
    | with_reducible apply State.cutThrough_keeps
    | with_reducible apply State.recvOp_keeps
    | split
    | with_reducible refine Keeps.ofPair (by with_reducible assumption) ?_

theorem execJoinRefuseRx_keeps {u : State} {l : LinkId} {rx : Rx} {s : State} (hs : Keeps u s) : Keeps u ((State.after (s) (execJoinRefuseRx (l) (rx) (s)))) := by
  refine Keeps.trans hs ?_
  unfold execJoinRefuseRx
  rw [State.after_next]
  repeat' first
    | with_reducible exact Keeps.refl _
    | with_reducible assumption
    | (intro x; first | (refine Keeps.use (x := x) ?_ (fun hx => ?_); rotate_left; clear_value x; rotate_right; subst x) | (have hf := funext (f := x) (g := x) (fun _ => rfl); clear hf; subst x))
    | lift_lets -underBinder
    | with_reducible apply Keeps.ite
    | with_reducible apply State.cutThrough_keeps
    | with_reducible apply State.logG_keeps
    | with_reducible apply State.logT_keeps
    | with_reducible apply State.malformed_keeps
    | with_reducible apply State.recvOp_keeps
    | with_reducible apply State.updBinding_keeps
    | ((with_reducible apply State.updTsu_keeps); focus (intro t; exact ⟨⟨rfl, fun h => h⟩, rfl⟩))
    | split
    | with_reducible refine Keeps.ofPair (by with_reducible assumption) ?_

end Sys2Proof.Machine
end

