-- ==== Sys2Proof/Laws/FrameJournal.lean ====
section
/-! SUPPORT. What the operations of `Sys2Proof.Machine.Journal` leave alone, one lemma per operation. -/

namespace Sys2Proof.Machine

open Sys2Proof

set_option linter.unusedVariables false

theorem State.journalDo_keeps {u : State} {s : State} {off : Nat} {f : Journal → Journal} (hs : Keeps u s) : Keeps u ((State.journalDo (s) (off) (f))) := by
  refine Keeps.trans hs ?_
  unfold State.journalDo
  repeat' first
    | with_reducible exact Keeps.refl _
    | lift_lets -underBinder
    | with_reducible apply Keeps.ite
    | ((with_reducible apply State.updGd_keeps); focus (intro t; exact ⟨⟨rfl, fun h => h⟩, rfl⟩))
    | ((with_reducible apply State.updCom_keeps); focus (intro t; exact Common.accessErr_steady ..))

theorem execJournalFreeze_keeps {u : State} {w : Word} {s : State} (hs : Keeps u s) : Keeps u ((State.after (s) (execJournalFreeze (w) (s)))) := by
  refine Keeps.trans hs ?_
  unfold execJournalFreeze
  rw [State.after_next]
  repeat' first
    | with_reducible exact Keeps.refl _
    | with_reducible assumption
    | (intro x; (refine Keeps.use (x := x) ?_ (fun hx => ?_); rotate_left; clear_value x; rotate_right; subst x))
    | lift_lets -underBinder
    | with_reducible apply Keeps.ite
    | with_reducible apply State.journalDo_keeps
    | with_reducible apply State.setReg_keeps

theorem execJournalTriggerStop_keeps {u : State} {s : State} (hs : Keeps u s) : Keeps u ((State.after (s) (execJournalTriggerStop (s)))) := by
  refine Keeps.trans hs ?_
  unfold execJournalTriggerStop
  rw [State.after_next]
  repeat' first
    | with_reducible exact Keeps.refl _
    | ((with_reducible apply State.updGd_keeps); focus (intro t; exact ⟨⟨rfl, fun h => h⟩, rfl⟩))

theorem execJournalRead_keeps {u : State} {w : Word} {s : State} (hs : Keeps u s) : Keeps u ((State.after (s) (execJournalRead (w) (s)))) := by
  refine Keeps.trans hs ?_
  unfold execJournalRead
  rw [State.after_next]
  repeat' first
    | with_reducible exact Keeps.refl _
    | with_reducible assumption
    | (intro x; (refine Keeps.use (x := x) ?_ (fun hx => ?_); rotate_left; clear_value x; rotate_right; subst x))
    | lift_lets -underBinder
    | with_reducible apply Keeps.ite
    | with_reducible apply State.journalDo_keeps
    | with_reducible apply State.setReg_keeps

theorem execJournalRetrain_keeps {u : State} {s : State} (hs : Keeps u s) : Keeps u ((State.after (s) (execJournalRetrain (s)))) := by
  refine Keeps.trans hs ?_
  unfold execJournalRetrain
  rw [State.after_next]
  repeat' first
    | with_reducible exact Keeps.refl _
    | lift_lets -underBinder
    | with_reducible apply Keeps.ite
    | ((with_reducible apply State.updGd_keeps); focus (intro t; exact ⟨⟨rfl, fun h => h⟩, rfl⟩))

end Sys2Proof.Machine
end

