-- ==== Sys2Proof/Laws/FrameResults.lean ====
section
/-! SUPPORT. What the operations of `Sys2Proof.Machine.Results` leave alone, one lemma per operation. -/

namespace Sys2Proof.Machine

open Sys2Proof

set_option linter.unusedVariables false

theorem State.portAnswer_keeps {u : State} {s : State} {q : ResultRead} {a : PortReply} (hs : Keeps u s) : Keeps u ((State.portAnswer (s) (q) (a))) := by
  refine Keeps.trans hs ?_
  unfold State.portAnswer
  repeat' first
    | with_reducible exact Keeps.refl _
    | with_reducible assumption
    | (intro x; (refine Keeps.use (x := x) ?_ (fun hx => ?_); rotate_left; clear_value x; rotate_right; subst x))
    | lift_lets -underBinder
    | with_reducible apply Keeps.ite
    | with_reducible apply State.logT_keeps
    | ((with_reducible apply State.updTsu_keeps); focus (intro t; exact ⟨⟨rfl, fun h => h⟩, rfl⟩))
    | with_reducible apply State.takeFresh_keeps
    | split

theorem execResultRead_keeps {u : State} {r : ResultRead} {s : State} (hs : Keeps u s) : Keeps u ((State.after (s) (execResultRead (r) (s)))) := by
  refine Keeps.trans hs ?_
  unfold execResultRead
  rw [State.after_next]
  repeat' first
    | with_reducible exact Keeps.refl _
    | (intro x; clear_value x)
    | lift_lets -underBinder
    | with_reducible apply Keeps.ite
    | with_reducible apply State.portAnswer_keeps
    | ((with_reducible apply State.updTsu_keeps); focus (intro t; exact ⟨⟨rfl, fun h => h⟩, rfl⟩))
    | split

theorem State.resultWaitExpiry_keeps {u : State} {s : State} (hs : Keeps u s) : Keeps u ((State.resultWaitExpiry (s))) := by
  refine Keeps.trans hs ?_
  unfold State.resultWaitExpiry
  repeat' first
    | with_reducible exact Keeps.refl _
    | with_reducible assumption
    | (intro x; (refine Keeps.use (x := x) ?_ (fun hx => ?_); rotate_left; clear_value x; rotate_right; subst x))
    | lift_lets -underBinder
    | with_reducible apply Keeps.ite
    | with_reducible apply State.portAnswer_keeps
    | ((with_reducible apply State.updTsu_keeps); focus (intro t; exact ⟨⟨rfl, fun h => h⟩, rfl⟩))
    | split

theorem execResultWaitExpiry_keeps {u : State} {s : State} (hs : Keeps u s) : Keeps u ((State.after (s) (execResultWaitExpiry (s)))) := by
  refine Keeps.trans hs ?_
  unfold execResultWaitExpiry
  rw [State.after_next]
  repeat' first
    | with_reducible exact Keeps.refl _
    | with_reducible apply State.resultWaitExpiry_keeps

theorem State.stallServe_keeps {u : State} {s : State} (hs : Keeps u s) : Keeps u ((State.stallServe (s))) := by
  refine Keeps.trans hs ?_
  unfold State.stallServe
  repeat' first
    | with_reducible exact Keeps.refl _
    | lift_lets -underBinder
    | with_reducible apply State.portAnswer_keeps
    | ((with_reducible apply State.updTsu_keeps); focus (intro t; exact ⟨⟨rfl, fun h => h⟩, rfl⟩))
    | split

end Sys2Proof.Machine
end

