-- ==== Sys2Proof/Laws/FrameReferences.lean ====
section
/-! SUPPORT. What the operations of `Sys2Proof.Machine.References` leave alone, one lemma per operation. -/

namespace Sys2Proof.Machine

open Sys2Proof

set_option linter.unusedVariables false

theorem State.takeoverWaitExpiry_keeps {u : State} {s : State} (hs : Keeps u s) : Keeps u ((State.takeoverWaitExpiry (s))) := by
  refine Keeps.trans hs ?_
  unfold State.takeoverWaitExpiry
  repeat' first
    | with_reducible exact Keeps.refl _
    | (intro x; clear_value x)
    | lift_lets -underBinder
    | with_reducible apply Keeps.ite
    | with_reducible apply State.takeOver_keeps
    | split

theorem execTakeoverWaitExpiry_keeps {u : State} {s : State} (hs : Keeps u s) : Keeps u ((State.after (s) (execTakeoverWaitExpiry (s)))) := by
  refine Keeps.trans hs ?_
  unfold execTakeoverWaitExpiry
  rw [State.after_next]
  repeat' first
    | with_reducible exact Keeps.refl _
    | with_reducible apply State.takeoverWaitExpiry_keeps

theorem State.refPpsEdge_keeps {u : State} {s : State} {n : Nat} {stamp : Int} (hs : Keeps u s) : Keeps u ((State.refPpsEdge (s) (n) (stamp))) := by
  refine Keeps.trans hs ?_
  unfold State.refPpsEdge
  repeat' first
    | with_reducible exact Keeps.refl _
    | with_reducible assumption
    | (intro x; first | (refine Keeps.use (x := x) ?_ (fun hx => ?_); rotate_left; clear_value x; rotate_right; subst x) | clear_value x)
    | lift_lets -underBinder
    | with_reducible apply Keeps.ite
    | with_reducible apply State.noteRate_keeps
    | with_reducible apply State.refFault_keeps
    | with_reducible apply State.refGood_keeps
    | with_reducible apply State.updRefSrc_keeps
    | split

theorem execRefPpsEdge_keeps {u : State} {n : Nat} {stamp : Int} {s : State} (hs : Keeps u s) : Keeps u ((State.after (s) (execRefPpsEdge (n) (stamp) (s)))) := by
  refine Keeps.trans hs ?_
  unfold execRefPpsEdge
  rw [State.after_next]
  repeat' first
    | with_reducible exact Keeps.refl _
    | with_reducible apply State.refPpsEdge_keeps

theorem State.takeUtc_keeps {u : State} {s : State} {utc : Option (BitVec 16)} {leap : Option LeapNews} (hs : Keeps u s) : Keeps u ((State.takeUtc (s) (utc) (leap))) := by
  refine Keeps.trans hs ?_
  unfold State.takeUtc
  repeat' first
    | with_reducible exact Keeps.refl _
    | with_reducible assumption
    | (intro x; (refine Keeps.use (x := x) ?_ (fun hx => ?_); rotate_left; clear_value x; rotate_right; subst x))
    | lift_lets -underBinder
    | with_reducible apply Keeps.ite
    | ((with_reducible apply State.updTime_keeps); focus (intro t; exact ⟨rfl, fun h => h⟩))
    | split

theorem State.todMessageRx_keeps {u : State} {s : State} {n : Nat} {stamp : Int} {second : Nat} {checksumOk : Bool} {utcOffset : BitVec 16} {leap : Option LeapNews} (hs : Keeps u s) : Keeps u ((State.todMessageRx (s) (n) (stamp) (second) (checksumOk) (utcOffset) (leap))) := by
  refine Keeps.trans hs ?_
  unfold State.todMessageRx
  repeat' first
    | with_reducible exact Keeps.refl _
    | with_reducible assumption
    | (intro x; first | (refine Keeps.use (x := x) ?_ (fun hx => ?_); rotate_left; clear_value x; rotate_right; subst x) | clear_value x)
    | lift_lets -underBinder
    | with_reducible apply Keeps.ite
    | with_reducible apply State.refFault_keeps
    | with_reducible apply State.refGood_keeps
    | with_reducible apply State.takeUtc_keeps
    | with_reducible apply State.updRefSrc_keeps
    | split

theorem execTodMessageRx_keeps {u : State} {n : Nat} {stamp : Int} {second : Nat} {checksumOk : Bool} {utc : UtcNews} {s : State} (hs : Keeps u s) : Keeps u ((State.after (s) (execTodMessageRx (n) (stamp) (second) (checksumOk) (utc) (s)))) := by
  refine Keeps.trans hs ?_
  unfold execTodMessageRx
  rw [State.after_next]
  repeat' first
    | with_reducible exact Keeps.refl _
    | with_reducible apply State.todMessageRx_keeps

theorem State.ptpMessageRx_keeps {u : State} {s : State} {n : Nat} {m : PtpMessage} (hs : Keeps u s) : Keeps u ((State.ptpMessageRx (s) (n) (m))) := by
  refine Keeps.trans hs ?_
  unfold State.ptpMessageRx
  repeat' first
    | with_reducible exact Keeps.refl _
    | with_reducible assumption
    | (intro x; first | (refine Keeps.use (x := x) ?_ (fun hx => ?_); rotate_left; clear_value x; rotate_right; subst x) | clear_value x)
    | lift_lets -underBinder
    | with_reducible apply Keeps.ite
    | with_reducible apply State.refFault_keeps
    | with_reducible apply State.refGood_keeps
    | with_reducible apply State.takeUtc_keeps
    | ((with_reducible apply State.updGd_keeps); focus (intro t; exact ⟨⟨rfl, fun h => h⟩, rfl⟩))
    | with_reducible apply State.updRefSrc_keeps
    | split

theorem execPtpMessageRx_keeps {u : State} {n : Nat} {m : PtpMessage} {s : State} (hs : Keeps u s) : Keeps u ((State.after (s) (execPtpMessageRx (n) (m) (s)))) := by
  refine Keeps.trans hs ?_
  unfold execPtpMessageRx
  rw [State.after_next]
  repeat' first
    | with_reducible exact Keeps.refl _
    | with_reducible apply State.ptpMessageRx_keeps

theorem State.esmcMessageRx_keeps {u : State} {s : State} {n : Nat} {q : EsmcLevel} (hs : Keeps u s) : Keeps u ((State.esmcMessageRx (s) (n) (q))) := by
  refine Keeps.trans hs ?_
  unfold State.esmcMessageRx
  repeat' first
    | with_reducible exact Keeps.refl _
    | with_reducible assumption
    | (intro x; first | (refine Keeps.use (x := x) ?_ (fun hx => ?_); rotate_left; clear_value x; rotate_right; subst x) | clear_value x)
    | lift_lets -underBinder
    | with_reducible apply Keeps.ite
    | with_reducible apply State.refFault_keeps
    | with_reducible apply State.refGood_keeps
    | with_reducible apply State.updRefSrc_keeps

theorem execEsmcMessageRx_keeps {u : State} {n : Nat} {q : EsmcLevel} {s : State} (hs : Keeps u s) : Keeps u ((State.after (s) (execEsmcMessageRx (n) (q) (s)))) := by
  refine Keeps.trans hs ?_
  unfold execEsmcMessageRx
  rw [State.after_next]
  repeat' first
    | with_reducible exact Keeps.refl _
    | with_reducible apply State.esmcMessageRx_keeps

theorem State.refLossTimeout_keeps {u : State} {s : State} {src : Nat} {why : RefLoss} (hs : Keeps u s) : Keeps u ((State.refLossTimeout (s) (src) (why))) := by
  refine Keeps.trans hs ?_
  unfold State.refLossTimeout
  repeat' first
    | with_reducible exact Keeps.refl _
    | (intro x; clear_value x)
    | lift_lets -underBinder
    | with_reducible apply Keeps.ite
    | with_reducible apply State.refFault_keeps
    | with_reducible apply State.updRefSrc_keeps

theorem execRefLossTimeout_keeps {u : State} {s0 : Nat} {why : RefLoss} {s : State} (hs : Keeps u s) : Keeps u ((State.after (s) (execRefLossTimeout (s0) (why) (s)))) := by
  refine Keeps.trans hs ?_
  unfold execRefLossTimeout
  rw [State.after_next]
  repeat' first
    | with_reducible exact Keeps.refl _
    | with_reducible apply State.refLossTimeout_keeps

theorem State.refQualified_keeps {u : State} {s : State} {src : Nat} (hs : Keeps u s) : Keeps u ((State.refQualified (s) (src))) := by
  refine Keeps.trans hs ?_
  unfold State.refQualified
  repeat' first
    | with_reducible exact Keeps.refl _
    | (intro x; clear_value x)
    | lift_lets -underBinder
    | with_reducible apply Keeps.ite
    | with_reducible apply State.refSelect_keeps
    | with_reducible apply State.updRefSrc_keeps

theorem execRefQualified_keeps {u : State} {s0 : Nat} {s : State} (hs : Keeps u s) : Keeps u ((State.after (s) (execRefQualified (s0) (s)))) := by
  refine Keeps.trans hs ?_
  unfold execRefQualified
  rw [State.after_next]
  repeat' first
    | with_reducible exact Keeps.refl _
    | with_reducible apply State.refQualified_keeps

theorem State.wtrExpiry_keeps {u : State} {s : State} {i : Nat} (hs : Keeps u s) : Keeps u ((State.wtrExpiry (s) (i))) := by
  refine Keeps.trans hs ?_
  unfold State.wtrExpiry
  repeat' first
    | with_reducible exact Keeps.refl _
    | lift_lets -underBinder
    | with_reducible apply Keeps.ite
    | with_reducible apply State.refSelect_keeps
    | with_reducible apply State.updRef_keeps

theorem execWtrExpiry_keeps {u : State} {i : Nat} {s : State} (hs : Keeps u s) : Keeps u ((State.after (s) (execWtrExpiry (i) (s)))) := by
  refine Keeps.trans hs ?_
  unfold execWtrExpiry
  rw [State.after_next]
  repeat' first
    | with_reducible exact Keeps.refl _
    | with_reducible apply State.wtrExpiry_keeps

theorem State.forceEntryWrite_keeps {u : State} {s : State} {acc : Access} {w : Word} (hs : Keeps u s) : Keeps u ((State.forceEntryWrite (s) (acc) (w))) := by
  refine Keeps.trans hs ?_
  unfold State.forceEntryWrite
  repeat' first
    | with_reducible exact Keeps.refl _
    | intro x
    | lift_lets -underBinder
    | with_reducible apply State.gdWrite_keeps
    | with_reducible apply State.refSelect_keeps
    | with_reducible apply State.setReg_keeps

theorem execForceEntryWrite_keeps {u : State} {acc : Access} {w : Word} {s : State} (hs : Keeps u s) : Keeps u ((State.after (s) (execForceEntryWrite (acc) (w) (s)))) := by
  refine Keeps.trans hs ?_
  unfold execForceEntryWrite
  rw [State.after_next]
  repeat' first
    | with_reducible exact Keeps.refl _
    | with_reducible apply State.forceEntryWrite_keeps

theorem State.filterSource_keeps {u : State} {s : State} {src : Nat} (hs : Keeps u s) : Keeps u ((State.filterSource (s) (src))) := by
  refine Keeps.trans hs ?_
  unfold State.filterSource
  repeat' first
    | with_reducible exact Keeps.refl _
    | with_reducible assumption
    | (intro x; first | (refine Keeps.use (x := x) ?_ (fun hx => ?_); rotate_left; clear_value x; rotate_right; subst x) | clear_value x)
    | lift_lets -underBinder
    | with_reducible apply Keeps.ite
    | with_reducible apply State.noteRate_keeps
    | with_reducible apply State.refFault_keeps
    | with_reducible apply State.updRefSrc_keeps
    | split

theorem State.rootOffset_keeps {u s : State} {e : Nat} {first : Bool} {o : Int} (hs : Keeps u s) :
    Keeps u (s.rootOffset e first o) := by
  unfold State.rootOffset
  have h : Keeps u (s.updRef fun r => { r with offset := o }) := State.updRef_keeps hs
  refine Keeps.ite (State.refSelect_keeps (State.logG_keeps (State.updRefSrc_keeps h))) ?_
  simp only []
  generalize hx : (s.updRef fun r => { r with offset := o }).updRef _ = x
  have hk : Keeps u x := hx ▸ State.updRef_keeps h
  split
  · exact Keeps.ite (State.updRef_keeps hk) hk
  · exact Keeps.ite (State.updRef_keeps hk)
      (State.takeFresh_keeps (State.updRef_keeps (State.updTime_keeps (fun t => TimeDom.addend_steady ..) hk)))
  · exact hk

theorem State.rootFirstStep_guards {u : State} {s : State} {i : Nat} {o : Int} (hs : Guards u s) : Guards u ((State.rootFirstStep (s) (i) (o))) := by
  refine Guards.trans hs ?_
  unfold State.rootFirstStep
  repeat' first
    | with_reducible exact Guards.refl _
    | with_reducible assumption
    | (intro x; (refine Guards.use (x := x) ?_ (fun hx => ?_); rotate_left; clear_value x; rotate_right; subst x))
    | lift_lets -underBinder
    | with_reducible apply Guards.step (State.becomeRoot_keeps (Keeps.refl _))
    | with_reducible apply State.stepCounter_guards
    | with_reducible apply State.updRef_guards
    | with_reducible apply State.updRefSrc_guards

theorem State.filteredOffset_guards {u : State} {s : State} (hs : Guards u s) : Guards u ((State.filteredOffset (s))) := by
  refine Guards.trans hs ?_
  unfold State.filteredOffset
  repeat' first
    | with_reducible exact Guards.refl _
    | with_reducible assumption
    | (intro x; first | (refine Guards.use (x := x) ?_ (fun hx => ?_); rotate_left; clear_value x; rotate_right; subst x) | clear_value x | skip)
    | lift_lets -underBinder
    | with_reducible apply Guards.ite
    | with_reducible apply Guards.step (State.filterSource_keeps (Keeps.refl _))
    | with_reducible apply State.rootFirstStep_guards
    | with_reducible apply Guards.step (State.rootOffset_keeps (Keeps.refl _))
    | with_reducible apply Guards.foldl
    | split

theorem execFilteredOffset_guards {u : State} {s : State} (hs : Guards u s) : Guards u ((State.after (s) (execFilteredOffset (s)))) := by
  refine Guards.trans hs ?_
  unfold execFilteredOffset
  rw [State.after_next]
  repeat' first
    | with_reducible exact Guards.refl _
    | with_reducible apply State.filteredOffset_guards

theorem State.firstRefWaitExpiry_guards {u : State} {s : State} (hs : Guards u s) : Guards u ((State.firstRefWaitExpiry (s))) := by
  refine Guards.trans hs ?_
  unfold State.firstRefWaitExpiry
  repeat' first
    | with_reducible exact Guards.refl _
    | with_reducible apply Guards.ite
    | with_reducible apply Guards.step (State.becomeRoot_keeps (Keeps.refl _))
    | with_reducible apply State.stepCounter_guards

theorem execFirstRefWaitExpiry_guards {u : State} {s : State} (hs : Guards u s) : Guards u ((State.after (s) (execFirstRefWaitExpiry (s)))) := by
  refine Guards.trans hs ?_
  unfold execFirstRefWaitExpiry
  rw [State.after_next]
  repeat' first
    | with_reducible exact Guards.refl _
    | with_reducible apply State.firstRefWaitExpiry_guards

theorem State.ptpMasterSend_keeps {u : State} {s : State} {n : Nat} (hs : Keeps u s) : Keeps u ((State.ptpMasterSend (s) (n))) := by
  refine Keeps.trans hs ?_
  unfold State.ptpMasterSend
  repeat' first
    | with_reducible exact Keeps.refl _
    | (intro x; clear_value x)
    | lift_lets -underBinder
    | with_reducible apply Keeps.ite
    | ((with_reducible apply State.updGd_keeps); focus (intro t; exact ⟨⟨rfl, fun h => h⟩, rfl⟩))

theorem execPtpMasterSend_keeps {u : State} {n : Nat} {s : State} (hs : Keeps u s) : Keeps u ((State.after (s) (execPtpMasterSend (n) (s)))) := by
  refine Keeps.trans hs ?_
  unfold execPtpMasterSend
  rw [State.after_next]
  repeat' first
    | with_reducible exact Keeps.refl _
    | with_reducible apply State.ptpMasterSend_keeps

theorem State.outputFirstAlign_keeps {u : State} {s : State} (hs : Keeps u s) : Keeps u ((State.outputFirstAlign (s))) := by
  refine Keeps.trans hs ?_
  unfold State.outputFirstAlign
  repeat' first
    | with_reducible exact Keeps.refl _
    | with_reducible apply Keeps.ite
    | with_reducible apply State.outputsAlign_keeps
    | split

theorem execOutputFirstAlign_keeps {u : State} {s : State} (hs : Keeps u s) : Keeps u ((State.after (s) (execOutputFirstAlign (s)))) := by
  refine Keeps.trans hs ?_
  unfold execOutputFirstAlign
  rw [State.after_next]
  repeat' first
    | with_reducible exact Keeps.refl _
    | with_reducible apply State.outputFirstAlign_keeps

theorem State.outRealign_keeps {u : State} {s : State} (hs : Keeps u s) : Keeps u ((State.outRealign (s))) := by
  refine Keeps.trans hs ?_
  unfold State.outRealign
  repeat' first
    | with_reducible exact Keeps.refl _
    | lift_lets -underBinder
    | with_reducible apply Keeps.ite
    | ((with_reducible apply State.updGd_keeps); focus (intro t; exact ⟨⟨rfl, fun h => h⟩, rfl⟩))
    | ((with_reducible apply State.updCom_keeps); focus (intro t; exact Common.accessErr_steady ..))

theorem execOutRealign_keeps {u : State} {s : State} (hs : Keeps u s) : Keeps u ((State.after (s) (execOutRealign (s)))) := by
  refine Keeps.trans hs ?_
  unfold execOutRealign
  rw [State.after_next]
  repeat' first
    | with_reducible exact Keeps.refl _
    | with_reducible apply State.outRealign_keeps

theorem State.outRealignApply_keeps {u : State} {s : State} (hs : Keeps u s) : Keeps u ((State.outRealignApply (s))) := by
  refine Keeps.trans hs ?_
  unfold State.outRealignApply
  repeat' first
    | with_reducible exact Keeps.refl _
    | with_reducible apply Keeps.ite
    | with_reducible apply State.outputsAlign_keeps
    | split

theorem execOutRealignApply_keeps {u : State} {s : State} (hs : Keeps u s) : Keeps u ((State.after (s) (execOutRealignApply (s)))) := by
  refine Keeps.trans hs ?_
  unfold execOutRealignApply
  rw [State.after_next]
  repeat' first
    | with_reducible exact Keeps.refl _
    | with_reducible apply State.outRealignApply_keeps

theorem State.rootClaim_keeps {u : State} {s : State} (hs : Keeps u s) : Keeps u ((State.rootClaim (s))) := by
  refine Keeps.trans hs ?_
  unfold State.rootClaim
  repeat' first
    | with_reducible exact Keeps.refl _
    | (intro x; clear_value x)
    | lift_lets -underBinder
    | with_reducible apply Keeps.ite
    | with_reducible apply State.becomeRoot_keeps
    | with_reducible apply State.logG_keeps
    | with_reducible apply State.updRef_keeps
    | split

theorem execRootClaim_keeps {u : State} {s : State} (hs : Keeps u s) : Keeps u ((State.after (s) (execRootClaim (s)))) := by
  refine Keeps.trans hs ?_
  unfold execRootClaim
  rw [State.after_next]
  repeat' first
    | with_reducible exact Keeps.refl _
    | with_reducible apply State.rootClaim_keeps

theorem execRefPcsLockLoss_keeps {u : State} {n : Nat} {s : State} (hs : Keeps u s) : Keeps u ((State.after (s) (execRefPcsLockLoss (n) (s)))) := by
  refine Keeps.trans hs ?_
  unfold execRefPcsLockLoss
  rw [State.after_next]
  repeat' first
    | with_reducible exact Keeps.refl _
    | lift_lets -underBinder
    | with_reducible apply Keeps.ite
    | with_reducible apply State.refFault_keeps
    | with_reducible apply State.updRefSrc_keeps

theorem State.refFreqMeasure_keeps {u : State} {s : State} {src : Nat} {dev : Int} (hs : Keeps u s) : Keeps u ((State.refFreqMeasure (s) (src) (dev))) := by
  refine Keeps.trans hs ?_
  unfold State.refFreqMeasure
  repeat' first
    | with_reducible exact Keeps.refl _
    | with_reducible assumption
    | (intro x; first | (refine Keeps.use (x := x) ?_ (fun hx => ?_); rotate_left; clear_value x; rotate_right; subst x) | clear_value x)
    | lift_lets -underBinder
    | with_reducible apply Keeps.ite
    | with_reducible apply State.noteRate_keeps
    | with_reducible apply State.refFault_keeps
    | with_reducible apply State.refGood_keeps
    | with_reducible apply State.updRefSrc_keeps

theorem execRefFreqMeasure_keeps {u : State} {s0 : Nat} {deviationPpb : Int} {s : State} (hs : Keeps u s) : Keeps u ((State.after (s) (execRefFreqMeasure (s0) (deviationPpb) (s)))) := by
  refine Keeps.trans hs ?_
  unfold execRefFreqMeasure
  rw [State.after_next]
  repeat' first
    | with_reducible exact Keeps.refl _
    | with_reducible apply State.refFreqMeasure_keeps

end Sys2Proof.Machine
end

