-- ==== Sys2Proof/Laws/FrameServing.lean ====
section
/-! SUPPORT. What the operations of `Sys2Proof.Machine.Serving` leave alone, one lemma per operation. -/

namespace Sys2Proof.Machine

open Sys2Proof

set_option linter.unusedVariables false

theorem State.rfOffsetWrite_keeps {u : State} {s : State} {n : Node} {frames : Bool} {w : Word} (hs : Keeps u s) : Keeps u ((State.rfOffsetWrite (s) (n) (frames) (w))) := by
  refine Keeps.trans hs ?_
  unfold State.rfOffsetWrite
  repeat' first
    | with_reducible exact Keeps.refl _
    | with_reducible assumption
    | (intro x; first | (refine Keeps.use (x := x) ?_ (fun hx => ?_); rotate_left; clear_value x; rotate_right; subst x) | clear_value x)
    | lift_lets -underBinder
    | with_reducible apply Keeps.ite
    | with_reducible apply State.setReg_keeps
    | ((with_reducible apply State.updCom_keeps); focus (intro t; first | exact ⟨rfl, fun h => h⟩ | exact Common.accessErr_steady ..))

theorem execRfOffsetWrite_keeps {u : State} {n : Node} {frames : Bool} {w : Word} {s : State} (hs : Keeps u s) : Keeps u ((State.after (s) (execRfOffsetWrite (n) (frames) (w) (s)))) := by
  refine Keeps.trans hs ?_
  unfold execRfOffsetWrite
  rw [State.after_next]
  repeat' first
    | with_reducible exact Keeps.refl _
    | with_reducible apply State.rfOffsetWrite_keeps

theorem State.updCal_keeps {u : State} {s : State} {k : Nat} {f : CalEntry → CalEntry} (hs : Keeps u s) : Keeps u ((State.updCal (s) (k) (f))) := by
  refine Keeps.trans hs ?_
  unfold State.updCal
  repeat' first
    | with_reducible exact Keeps.refl _
    | ((with_reducible apply State.updTsu_keeps); focus (intro t; exact ⟨⟨rfl, fun h => h⟩, rfl⟩))

theorem State.slotRecord_keeps {u : State} {s : State} {kind : Nat} {e : CalEntry} {b : Int} {code : ErrCode} {cause : Nat} (hs : Keeps u s) : Keeps u ((State.slotRecord (s) (kind) (e) (b) (code) (cause))) := by
  refine Keeps.trans hs ?_
  unfold State.slotRecord
  repeat' first
    | with_reducible exact Keeps.refl _
    | with_reducible assumption
    | (intro x; first | (refine Keeps.use (x := x) ?_ (fun hx => ?_); rotate_left; clear_value x; rotate_right; subst x) | clear_value x)
    | lift_lets -underBinder
    | with_reducible apply State.logT_keeps
    | with_reducible apply State.writeRecord_keeps

theorem State.slotMissed_keeps {u : State} {s : State} {k : Nat} {e : CalEntry} {b : Int} {code : ErrCode} {cause : Nat} (hs : Keeps u s) : Keeps u ((State.slotMissed (s) (k) (e) (b) (code) (cause))) := by
  refine Keeps.trans hs ?_
  unfold State.slotMissed
  repeat' first
    | with_reducible exact Keeps.refl _
    | with_reducible assumption
    | (intro x; (refine Keeps.use (x := x) ?_ (fun hx => ?_); rotate_left; clear_value x; rotate_right; subst x))
    | lift_lets -underBinder
    | with_reducible apply State.setEvt_keeps
    | with_reducible apply State.slotRecord_keeps
    | with_reducible apply State.updCal_keeps

theorem State.calFire_keeps {u : State} {s : State} {k : Nat} {e : CalEntry} {b : Int} (hs : Keeps u s) : Keeps u ((State.calFire (s) (k) (e) (b))) := by
  refine Keeps.trans hs ?_
  unfold State.calFire
  repeat' first
    | with_reducible exact Keeps.refl _
    | with_reducible assumption
    | (intro x; first | (refine Keeps.use (x := x) ?_ (fun hx => ?_); rotate_left; clear_value x; rotate_right; subst x) | clear_value x)
    | lift_lets -underBinder
    | with_reducible apply State.turnApply_keeps
    | with_reducible apply State.updCal_keeps
    | split

theorem State.calTurn_keeps {u : State} {s : State} {k : Nat} (hs : Keeps u s) : Keeps u ((State.calTurn (s) (k))) := by
  refine Keeps.trans hs ?_
  unfold State.calTurn
  repeat' first
    | with_reducible exact Keeps.refl _
    | lift_lets -underBinder
    | with_reducible apply Keeps.ite
    | with_reducible apply State.calFire_keeps
    | with_reducible apply State.slotMissed_keeps
    | ((with_reducible apply State.updTsu_keeps); focus (intro t; exact ⟨⟨rfl, fun h => h⟩, rfl⟩))
    | split

theorem execCalTurn_keeps {u : State} {entry : Nat} {s : State} (hs : Keeps u s) : Keeps u ((State.after (s) (execCalTurn (entry) (s)))) := by
  refine Keeps.trans hs ?_
  unfold execCalTurn
  rw [State.after_next]
  repeat' first
    | with_reducible exact Keeps.refl _
    | with_reducible apply State.calTurn_keeps

theorem State.calHold_keeps {u : State} {s : State} {k : Nat} (hs : Keeps u s) : Keeps u ((State.calHold (s) (k))) := by
  refine Keeps.trans hs ?_
  unfold State.calHold
  repeat' first
    | with_reducible exact Keeps.refl _
    | with_reducible assumption
    | (intro x; first | (refine Keeps.use (x := x) ?_ (fun hx => ?_); rotate_left; clear_value x; rotate_right; subst x) | clear_value x | skip)
    | lift_lets -underBinder
    | with_reducible apply Keeps.ite
    | with_reducible apply State.present_keeps
    | with_reducible apply State.updCal_keeps
    | with_reducible apply State.updPort_keeps
    | with_reducible apply Keeps.foldl
    | split

theorem execCalHold_keeps {u : State} {entry : Nat} {s : State} (hs : Keeps u s) : Keeps u ((State.after (s) (execCalHold (entry) (s)))) := by
  refine Keeps.trans hs ?_
  unfold execCalHold
  rw [State.after_next]
  repeat' first
    | with_reducible exact Keeps.refl _
    | with_reducible apply State.calHold_keeps

theorem State.calDoneCheck_keeps {u : State} {s : State} {k : Nat} (hs : Keeps u s) : Keeps u ((State.calDoneCheck (s) (k))) := by
  refine Keeps.trans hs ?_
  unfold State.calDoneCheck
  repeat' first
    | with_reducible exact Keeps.refl _
    | with_reducible assumption
    | (intro x; first | (refine Keeps.use (x := x) ?_ (fun hx => ?_); rotate_left; clear_value x; rotate_right; subst x) | clear_value x | skip)
    | lift_lets -underBinder
    | with_reducible apply Keeps.ite
    | with_reducible apply State.slotRecord_keeps
    | with_reducible apply State.updCal_keeps
    | with_reducible apply Keeps.foldl
    | split

theorem execCalDoneCheck_keeps {u : State} {entry : Nat} {s : State} (hs : Keeps u s) : Keeps u ((State.after (s) (execCalDoneCheck (entry) (s)))) := by
  refine Keeps.trans hs ?_
  unfold execCalDoneCheck
  rw [State.after_next]
  repeat' first
    | with_reducible exact Keeps.refl _
    | with_reducible apply State.calDoneCheck_keeps

theorem State.release_keeps {u : State} {s : State} {p n : Nat} (hs : Keeps u s) : Keeps u ((State.release (s) (p) (n))) := by
  refine Keeps.trans hs ?_
  unfold State.release
  repeat' first
    | with_reducible exact Keeps.refl _
    | (intro x; clear_value x)
    | lift_lets -underBinder
    | with_reducible apply State.present_keeps
    | with_reducible apply State.updPort_keeps

theorem State.calRelease_keeps {u : State} {s : State} {p : Nat} (hs : Keeps u s) : Keeps u ((State.calRelease (s) (p))) := by
  refine Keeps.trans hs ?_
  unfold State.calRelease
  repeat' first
    | with_reducible exact Keeps.refl _
    | (intro x; first | clear_value x | skip)
    | lift_lets -underBinder
    | with_reducible apply State.release_keeps
    | with_reducible apply Keeps.foldl

theorem execCalRelease_keeps {u : State} {port : Nat} {s : State} (hs : Keeps u s) : Keeps u ((State.after (s) (execCalRelease (port) (s)))) := by
  refine Keeps.trans hs ?_
  unfold execCalRelease
  rw [State.after_next]
  repeat' first
    | with_reducible exact Keeps.refl _
    | with_reducible apply State.calRelease_keeps

theorem State.rfSkip_keeps {u : State} {s : State} {old : Nat × Nat} {k : Nat} {e : CalEntry} (hs : Keeps u s) : Keeps u ((State.rfSkip (s) (old) (k) (e))) := by
  refine Keeps.trans hs ?_
  unfold State.rfSkip
  repeat' first
    | with_reducible exact Keeps.refl _
    | (intro x; first | clear_value x | skip)
    | lift_lets -underBinder
    | with_reducible apply Keeps.ite
    | with_reducible apply State.slotMissed_keeps
    | with_reducible apply Keeps.foldl
    | split

theorem State.rfOffsetApply_keeps {u : State} {s : State} {n : Node} (hs : Keeps u s) : Keeps u ((State.rfOffsetApply (s) (n))) := by
  refine Keeps.trans hs ?_
  unfold State.rfOffsetApply
  repeat' first
    | with_reducible exact Keeps.refl _
    | with_reducible assumption
    | (intro x; first | (refine Keeps.use (x := x) ?_ (fun hx => ?_); rotate_left; clear_value x; rotate_right; subst x) | clear_value x | skip)
    | lift_lets -underBinder
    | with_reducible apply Keeps.ite
    | with_reducible apply State.rfSkip_keeps
    | ((with_reducible apply State.updCom_keeps); focus (intro t; exact ⟨rfl, fun h => h⟩))
    | with_reducible apply Keeps.foldl
    | split

theorem execRfOffsetApply_keeps {u : State} {n : Node} {s : State} (hs : Keeps u s) : Keeps u ((State.after (s) (execRfOffsetApply (n) (s)))) := by
  refine Keeps.trans hs ?_
  unfold execRfOffsetApply
  rw [State.after_next]
  repeat' first
    | with_reducible exact Keeps.refl _
    | with_reducible apply State.rfOffsetApply_keeps

theorem State.denied_keeps {u : State} {s : State} {n off : Nat} (hs : Keeps u s) : Keeps u ((State.denied (s) (n) (off))) := by
  refine Keeps.trans hs ?_
  unfold State.denied
  repeat' first
    | with_reducible exact Keeps.refl _
    | lift_lets -underBinder
    | with_reducible apply State.logT_keeps
    | ((with_reducible apply State.updCom_keeps); focus (intro t; exact Common.accessErr_steady ..))

theorem State.calSelect_keeps {u : State} {s : State} {n : Nat} {w : Word} (hs : Keeps u s) : Keeps u ((State.calSelect (s) (n) (w))) := by
  refine Keeps.trans hs ?_
  unfold State.calSelect
  repeat' first
    | with_reducible exact Keeps.refl _
    | with_reducible assumption
    | (intro x; first | (refine Keeps.use (x := x) ?_ (fun hx => ?_); rotate_left; clear_value x; rotate_right; subst x) | clear_value x | skip)
    | lift_lets -underBinder
    | with_reducible apply Keeps.ite
    | with_reducible apply State.denied_keeps
    | with_reducible apply State.spGuard_keeps
    | with_reducible apply State.updSlice_keeps

theorem execCalSelect_keeps {u : State} {slice : Nat} {w : Word} {s : State} (hs : Keeps u s) : Keeps u ((State.after (s) (execCalSelect (slice) (w) (s)))) := by
  refine Keeps.trans hs ?_
  unfold execCalSelect
  rw [State.after_next]
  repeat' first
    | with_reducible exact Keeps.refl _
    | with_reducible apply State.calSelect_keeps

theorem State.calWrite_keeps {u : State} {s : State} {n : Nat} (hs : Keeps u s) : Keeps u ((State.calWrite (s) (n))) := by
  refine Keeps.trans hs ?_
  unfold State.calWrite
  repeat' first
    | with_reducible exact Keeps.refl _
    | with_reducible assumption
    | (intro x; first | (refine Keeps.use (x := x) ?_ (fun hx => ?_); rotate_left; clear_value x; rotate_right; subst x) | clear_value x | skip)
    | lift_lets -underBinder
    | with_reducible apply Keeps.ite
    | with_reducible apply State.denied_keeps
    | with_reducible apply State.spCode_keeps
    | with_reducible apply State.spGuard_keeps
    | with_reducible apply State.updSlice_keeps
    | with_reducible apply State.updTumb_keeps
    | ((with_reducible apply State.updTsu_keeps); focus (intro t; exact ⟨⟨rfl, fun h => h⟩, rfl⟩))
    | split

theorem execCalWrite_keeps {u : State} {slice : Nat} {s : State} (hs : Keeps u s) : Keeps u ((State.after (s) (execCalWrite (slice) (s)))) := by
  refine Keeps.trans hs ?_
  unfold execCalWrite
  rw [State.after_next]
  repeat' first
    | with_reducible exact Keeps.refl _
    | with_reducible apply State.calWrite_keeps

theorem State.seqOrderSubmit_keeps {u : State} {s : State} {n : Nat} (hs : Keeps u s) : Keeps u ((State.seqOrderSubmit (s) (n))) := by
  refine Keeps.trans hs ?_
  unfold State.seqOrderSubmit
  repeat' first
    | with_reducible exact Keeps.refl _
    | with_reducible assumption
    | (intro x; first | (refine Keeps.use (x := x) ?_ (fun hx => ?_); rotate_left; clear_value x; rotate_right; subst x) | clear_value x | skip)
    | lift_lets -underBinder
    | with_reducible apply Keeps.ite
    | with_reducible apply State.grantAsk_keeps
    | with_reducible apply State.logT_keeps
    | with_reducible apply State.spCode_keeps
    | with_reducible apply State.spGuard_keeps
    | ((with_reducible apply State.updTsu_keeps); focus (intro t; exact ⟨⟨rfl, fun h => h⟩, rfl⟩))

theorem execSeqOrderSubmit_keeps {u : State} {slice : Nat} {s : State} (hs : Keeps u s) : Keeps u ((State.after (s) (execSeqOrderSubmit (slice) (s)))) := by
  refine Keeps.trans hs ?_
  unfold execSeqOrderSubmit
  rw [State.after_next]
  repeat' first
    | with_reducible exact Keeps.refl _
    | with_reducible apply State.seqOrderSubmit_keeps

theorem State.serveCommit_keeps {u : State} {s : State} {n : Nat} (hs : Keeps u s) : Keeps u ((State.serveCommit (s) (n))) := by
  refine Keeps.trans hs ?_
  unfold State.serveCommit
  repeat' first
    | with_reducible exact Keeps.refl _
    | (intro x; first | clear_value x | skip)
    | lift_lets -underBinder
    | with_reducible apply Keeps.ite
    | with_reducible apply State.spCode_keeps
    | with_reducible apply State.spGuard_keeps
    | with_reducible apply State.updSlice_keeps

theorem execServeCommit_keeps {u : State} {slice : Nat} {s : State} (hs : Keeps u s) : Keeps u ((State.after (s) (execServeCommit (slice) (s)))) := by
  refine Keeps.trans hs ?_
  unfold execServeCommit
  rw [State.after_next]
  repeat' first
    | with_reducible exact Keeps.refl _
    | with_reducible apply State.serveCommit_keeps

end Sys2Proof.Machine
end

