-- ==== Sys2Proof/Laws/FrameSlices.lean ====
section
/-! SUPPORT. What the operations of `Sys2Proof.Machine.Slices` leave alone, one lemma per operation. -/

namespace Sys2Proof.Machine

open Sys2Proof

set_option linter.unusedVariables false

theorem State.sliceCreate_keeps {u : State} {s : State} (hs : Keeps u s) : Keeps u ((State.sliceCreate (s))) := by
  refine Keeps.trans hs ?_
  unfold State.sliceCreate
  repeat' first
    | with_reducible exact Keeps.refl _
    | (intro x; clear_value x)
    | lift_lets -underBinder
    | with_reducible apply Keeps.ite
    | with_reducible apply State.logT_keeps
    | with_reducible apply State.updSlice_keeps
    | split

theorem execSliceCreate_keeps {u : State} {s : State} (hs : Keeps u s) : Keeps u ((State.after (s) (execSliceCreate (s)))) := by
  refine Keeps.trans hs ?_
  unfold execSliceCreate
  rw [State.after_next]
  repeat' first
    | with_reducible exact Keeps.refl _
    | with_reducible apply State.sliceCreate_keeps

theorem State.resetSlice_keeps {u : State} {s : State} {n : Nat} {destroy : Bool} (hs : Keeps u s) : Keeps u ((State.resetSlice (s) (n) (destroy))) := by
  refine Keeps.trans hs ?_
  unfold State.resetSlice
  repeat' first
    | with_reducible exact Keeps.refl _
    | with_reducible assumption
    | (intro x; first | (refine Keeps.use (x := x) ?_ (fun hx => ?_); rotate_left; clear_value x; rotate_right; subst x) | clear_value x | skip)
    | lift_lets -underBinder
    | with_reducible apply Keeps.ite
    | with_reducible apply State.abortSteps_keeps
    | with_reducible apply State.logT_keeps
    | with_reducible apply State.orderLoses_keeps
    | with_reducible apply State.updSlice_keeps
    | ((with_reducible apply State.updTsu_keeps); focus (intro t; exact ⟨⟨rfl, fun h => h⟩, rfl⟩))
    | with_reducible apply Keeps.foldl
    | split

theorem execSliceReset_keeps {u : State} {s : State} (hs : Keeps u s) : Keeps u ((State.after (s) (execSliceReset (s)))) := by
  refine Keeps.trans hs ?_
  unfold execSliceReset
  rw [State.after_next]
  repeat' first
    | with_reducible exact Keeps.refl _
    | with_reducible apply State.resetSlice_keeps

theorem execSliceDestroy_keeps {u : State} {s : State} (hs : Keeps u s) : Keeps u ((State.after (s) (execSliceDestroy (s)))) := by
  refine Keeps.trans hs ?_
  unfold execSliceDestroy
  rw [State.after_next]
  repeat' first
    | with_reducible exact Keeps.refl _
    | with_reducible apply State.resetSlice_keeps

theorem State.sliceBind_keeps {u : State} {s : State} (hs : Keeps u s) : Keeps u ((State.sliceBind (s))) := by
  refine Keeps.trans hs ?_
  unfold State.sliceBind
  repeat' first
    | with_reducible exact Keeps.refl _
    | with_reducible assumption
    | (intro x; first | (refine Keeps.use (x := x) ?_ (fun hx => ?_); rotate_left; clear_value x; rotate_right; subst x) | (have hf := funext (f := x) (g := x) (fun _ => rfl); clear hf; subst x) | clear_value x)
    | lift_lets -underBinder
    | with_reducible apply Keeps.ite
    | with_reducible apply State.joinSoon_keeps
    | with_reducible apply State.logT_keeps
    | with_reducible apply State.updSlice_keeps

theorem execSliceBind_keeps {u : State} {s : State} (hs : Keeps u s) : Keeps u ((State.after (s) (execSliceBind (s)))) := by
  refine Keeps.trans hs ?_
  unfold execSliceBind
  rw [State.after_next]
  repeat' first
    | with_reducible exact Keeps.refl _
    | with_reducible apply State.sliceBind_keeps

theorem State.sliceUnbind_keeps {u : State} {s : State} (hs : Keeps u s) : Keeps u ((State.sliceUnbind (s))) := by
  refine Keeps.trans hs ?_
  unfold State.sliceUnbind
  repeat' first
    | with_reducible exact Keeps.refl _
    | (intro x; clear_value x)
    | lift_lets -underBinder
    | with_reducible apply Keeps.ite
    | with_reducible apply State.unbind_keeps

theorem execSliceUnbind_keeps {u : State} {s : State} (hs : Keeps u s) : Keeps u ((State.after (s) (execSliceUnbind (s)))) := by
  refine Keeps.trans hs ?_
  unfold execSliceUnbind
  rw [State.after_next]
  repeat' first
    | with_reducible exact Keeps.refl _
    | with_reducible apply State.sliceUnbind_keeps

theorem State.hostOrder_keeps {u : State} {s : State} {verb : Nat} (hs : Keeps u s) : Keeps u ((State.hostOrder (s) (verb))) := by
  refine Keeps.trans hs ?_
  unfold State.hostOrder
  repeat' first
    | with_reducible exact Keeps.refl _
    | (intro x; clear_value x)
    | lift_lets -underBinder
    | with_reducible apply Keeps.ite
    | with_reducible apply State.logT_keeps
    | with_reducible apply State.order_keeps
    | ((with_reducible apply State.updTsu_keeps); focus (intro t; exact ⟨⟨rfl, fun h => h⟩, rfl⟩))

theorem State.pageOrder_keeps {u : State} {s : State} {n verb : Nat} (hs : Keeps u s) : Keeps u ((State.pageOrder (s) (n) (verb))) := by
  refine Keeps.trans hs ?_
  unfold State.pageOrder
  repeat' first
    | with_reducible exact Keeps.refl _
    | (intro x; first | clear_value x | skip)
    | lift_lets -underBinder
    | with_reducible apply State.order_keeps
    | with_reducible apply State.spGuard_keeps
    | with_reducible apply State.updSlice_keeps

theorem State.regOrder_keeps {u : State} {s : State} {slice : Nat} {page : Bool} {verb : Nat} (hs : Keeps u s) : Keeps u ((State.regOrder (s) (slice) (page) (verb))) := by
  refine Keeps.trans hs ?_
  unfold State.regOrder
  repeat' first
    | with_reducible exact Keeps.refl _
    | with_reducible apply Keeps.ite
    | with_reducible apply State.hostOrder_keeps
    | with_reducible apply State.pageOrder_keeps

theorem execOrderAbort_keeps {u : State} {slice : Nat} {page : Bool} {s : State} (hs : Keeps u s) : Keeps u ((State.after (s) (execOrderAbort (slice) (page) (s)))) := by
  refine Keeps.trans hs ?_
  unfold execOrderAbort
  rw [State.after_next]
  repeat' first
    | with_reducible exact Keeps.refl _
    | with_reducible apply State.regOrder_keeps

theorem execOrderFence_keeps {u : State} {slice : Nat} {page : Bool} {s : State} (hs : Keeps u s) : Keeps u ((State.after (s) (execOrderFence (slice) (page) (s)))) := by
  refine Keeps.trans hs ?_
  unfold execOrderFence
  rw [State.after_next]
  repeat' first
    | with_reducible exact Keeps.refl _
    | with_reducible apply State.regOrder_keeps

theorem execOrderStop_keeps {u : State} {slice : Nat} {page : Bool} {s : State} (hs : Keeps u s) : Keeps u ((State.after (s) (execOrderStop (slice) (page) (s)))) := by
  refine Keeps.trans hs ?_
  unfold execOrderStop
  rw [State.after_next]
  repeat' first
    | with_reducible exact Keeps.refl _
    | with_reducible apply State.regOrder_keeps

theorem execOrderStart_keeps {u : State} {slice : Nat} {page : Bool} {s : State} (hs : Keeps u s) : Keeps u ((State.after (s) (execOrderStart (slice) (page) (s)))) := by
  refine Keeps.trans hs ?_
  unfold execOrderStart
  rw [State.after_next]
  repeat' first
    | with_reducible exact Keeps.refl _
    | with_reducible apply State.regOrder_keeps

theorem execOrderResume_keeps {u : State} {slice : Nat} {page : Bool} {s : State} (hs : Keeps u s) : Keeps u ((State.after (s) (execOrderResume (slice) (page) (s)))) := by
  refine Keeps.trans hs ?_
  unfold execOrderResume
  rw [State.after_next]
  repeat' first
    | with_reducible exact Keeps.refl _
    | with_reducible apply State.regOrder_keeps

theorem State.domainRequestGo_keeps {u : State} {s : State} {n : Nat} (hs : Keeps u s) : Keeps u ((State.domainRequestGo (s) (n))) := by
  refine Keeps.trans hs ?_
  unfold State.domainRequestGo
  repeat' first
    | with_reducible exact Keeps.refl _
    | with_reducible assumption
    | (intro x; first | (refine Keeps.use (x := x) ?_ (fun hx => ?_); rotate_left; clear_value x; rotate_right; subst x) | clear_value x | skip)
    | lift_lets -underBinder
    | with_reducible apply Keeps.ite
    | with_reducible apply State.domainRequest_keeps
    | with_reducible apply State.logT_keeps
    | with_reducible apply State.spGuard_keeps
    | with_reducible apply State.updSlice_keeps
    | split

theorem execDomainRequestGo_keeps {u : State} {slice : Nat} {s : State} (hs : Keeps u s) : Keeps u ((State.after (s) (execDomainRequestGo (slice) (s)))) := by
  refine Keeps.trans hs ?_
  unfold execDomainRequestGo
  rw [State.after_next]
  repeat' first
    | with_reducible exact Keeps.refl _
    | with_reducible apply State.domainRequestGo_keeps

theorem State.fenceComplete_keeps {u : State} {s : State} {n : Nat} (hs : Keeps u s) : Keeps u ((State.fenceComplete (s) (n))) := by
  refine Keeps.trans hs ?_
  unfold State.fenceComplete
  repeat' first
    | with_reducible exact Keeps.refl _
    | lift_lets -underBinder
    | with_reducible apply Keeps.ite
    | with_reducible apply State.orderRecord_keeps
    | with_reducible apply State.updSlice_keeps
    | split

theorem execFenceComplete_keeps {u : State} {slice : Nat} {s : State} (hs : Keeps u s) : Keeps u ((State.after (s) (execFenceComplete (slice) (s)))) := by
  refine Keeps.trans hs ?_
  unfold execFenceComplete
  rw [State.after_next]
  repeat' first
    | with_reducible exact Keeps.refl _
    | with_reducible apply State.fenceComplete_keeps

theorem State.crTailWrite_keeps {u : State} {s : State} {n : Nat} {w : Word} (hs : Keeps u s) : Keeps u ((State.crTailWrite (s) (n) (w))) := by
  refine Keeps.trans hs ?_
  unfold State.crTailWrite
  repeat' first
    | with_reducible exact Keeps.refl _
    | intro x
    | lift_lets -underBinder
    | with_reducible apply State.ringFlush_keeps
    | with_reducible apply State.ringVector_keeps
    | with_reducible apply State.spGuard_keeps
    | with_reducible apply State.updSlice_keeps

theorem execCrTailWrite_keeps {u : State} {slice : Nat} {w : Word} {s : State} (hs : Keeps u s) : Keeps u ((State.after (s) (execCrTailWrite (slice) (w) (s)))) := by
  refine Keeps.trans hs ?_
  unfold execCrTailWrite
  rw [State.after_next]
  repeat' first
    | with_reducible exact Keeps.refl _
    | with_reducible apply State.crTailWrite_keeps

theorem State.crConfigWrite_keeps {u : State} {s : State} {n reg : Nat} {w : Word} (hs : Keeps u s) : Keeps u ((State.crConfigWrite (s) (n) (reg) (w))) := by
  refine Keeps.trans hs ?_
  unfold State.crConfigWrite
  repeat' first
    | with_reducible exact Keeps.refl _
    | (intro x; first | clear_value x | skip)
    | lift_lets -underBinder
    | with_reducible apply Keeps.ite
    | with_reducible apply State.logT_keeps
    | with_reducible apply State.spGuard_keeps
    | with_reducible apply State.updSlice_keeps

theorem execCrConfigWrite_keeps {u : State} {slice reg : Nat} {w : Word} {s : State} (hs : Keeps u s) : Keeps u ((State.after (s) (execCrConfigWrite (slice) (reg) (w) (s)))) := by
  refine Keeps.trans hs ?_
  unfold execCrConfigWrite
  rw [State.after_next]
  repeat' first
    | with_reducible exact Keeps.refl _
    | with_reducible apply State.crConfigWrite_keeps

theorem execFilterClr_keeps {u : State} {s : State} (hs : Keeps u s) : Keeps u ((State.after (s) (execFilterClr (s)))) := by
  refine Keeps.trans hs ?_
  unfold execFilterClr
  rw [State.after_next]
  repeat' first
    | with_reducible exact Keeps.refl _
    | ((with_reducible apply State.updTsu_keeps); focus (intro t; exact ⟨⟨rfl, fun h => h⟩, rfl⟩))

theorem execConflictPop_keeps {u : State} {s : State} (hs : Keeps u s) : Keeps u ((State.after (s) (execConflictPop (s)))) := by
  refine Keeps.trans hs ?_
  unfold execConflictPop
  rw [State.after_next]
  repeat' first
    | with_reducible exact Keeps.refl _
    | ((with_reducible apply State.updTsu_keeps); focus (intro t; exact ⟨⟨rfl, fun h => h⟩, rfl⟩))

end Sys2Proof.Machine
end

