-- ==== Sys2Proof/Laws/FrameRegRead.lean ====
section
/-! SUPPORT. What the operations of `Sys2Proof.Machine.RegRead` leave alone, one lemma per operation. -/

namespace Sys2Proof.Machine

open Sys2Proof

set_option linter.unusedVariables false

theorem State.readBy_keeps {u : State} {s : State} {n : Node} {master off : Nat} (hs : Keeps u s) : Keeps u ((State.readBy (s) (n) (master) (off))) := by
  refine Keeps.trans hs ?_
  unfold State.readBy
  repeat' first
    | with_reducible exact Keeps.refl _
    | with_reducible assumption
    | (intro x; first | (refine Keeps.use (x := x) ?_ (fun hx => ?_); rotate_left; clear_value x; rotate_right; subst x) | (have hf := funext (f := x) (g := x) (fun _ => rfl); clear hf; subst x) | clear_value x | skip)
    | lift_lets -underBinder
    | with_reducible apply Keeps.ite
    | ((with_reducible apply State.updCom_keeps); focus (intro t; exact ⟨rfl, fun h => h⟩))
    | with_reducible apply Keeps.foldl
    | split

theorem State.regRead_keeps {u : State} {s : State} {n : Node} {acc : Access} {off : Nat} (hs : Keeps u s) : Keeps u ((State.regRead (s) (n) (acc) (off))) := by
  refine Keeps.trans hs ?_
  unfold State.regRead
  repeat' first
    | with_reducible exact Keeps.refl _
    | lift_lets -underBinder
    | with_reducible apply Keeps.ite
    | with_reducible apply State.readBy_keeps
    | ((with_reducible apply State.updCom_keeps); focus (intro t; exact Common.accessErr_steady ..))

end Sys2Proof.Machine
end

