-- ==== Sys2Proof/Laws/FrameRegisters.lean ====
section
/-! SUPPORT. What the operations of `Sys2Proof.Machine.Registers` leave alone, one lemma per operation. -/

namespace Sys2Proof.Machine

open Sys2Proof

set_option linter.unusedVariables false

theorem State.storeBits_keeps {u : State} {s : State} {n : Node} {off : Nat} {mask w : Word} (hs : Keeps u s) : Keeps u ((State.storeBits (s) (n) (off) (mask) (w))) := by
  refine Keeps.trans hs ?_
  unfold State.storeBits
  repeat' first
    | with_reducible exact Keeps.refl _
    | with_reducible apply Keeps.ite
    | with_reducible apply State.setReg_keeps

theorem State.clearBits_keeps {u : State} {s : State} {n : Node} {off : Nat} {mask w : Word} {same : Bool} (hs : Keeps u s) : Keeps u ((State.clearBits (s) (n) (off) (mask) (w) (same))) := by
  refine Keeps.trans hs ?_
  unfold State.clearBits
  repeat' first
    | with_reducible exact Keeps.refl _
    | lift_lets -underBinder
    | with_reducible apply Keeps.ite
    | ((with_reducible apply State.updCom_keeps); focus (intro t; exact ⟨rfl, fun h => h⟩))

theorem State.windowWrite_keeps {u : State} {s : State} {off : Nat} {w : Word} (hs : Keeps u s) : Keeps u ((State.windowWrite (s) (off) (w))) := by
  refine Keeps.trans hs ?_
  unfold State.windowWrite
  repeat' first
    | with_reducible exact Keeps.refl _
    | (intro x; clear_value x)
    | lift_lets -underBinder
    | with_reducible apply State.updSlice_keeps

theorem State.tsuWrite_keeps {u : State} {s : State} {off : Nat} {w : Word} {same : Bool} (hs : Keeps u s) : Keeps u ((State.tsuWrite (s) (off) (w) (same))) := by
  refine Keeps.trans hs ?_
  unfold State.tsuWrite
  repeat' first
    | with_reducible exact Keeps.refl _
    | with_reducible assumption
    | (intro x; (refine Keeps.use (x := x) ?_ (fun hx => ?_); rotate_left; clear_value x; rotate_right; subst x))
    | lift_lets -underBinder
    | with_reducible apply Keeps.ite
    | with_reducible apply State.clearBits_keeps
    | with_reducible apply State.logT_keeps
    | with_reducible apply State.storeBits_keeps
    | with_reducible apply State.updSlice_keeps
    | with_reducible apply State.windowWrite_keeps
    | ((with_reducible apply State.updTime_keeps); focus (intro t; exact ⟨rfl, fun h => h⟩))
    | split

theorem State.pageWrite_keeps {u : State} {s : State} {n off : Nat} {w : Word} (hs : Keeps u s) : Keeps u ((State.pageWrite (s) (n) (off) (w))) := by
  refine Keeps.trans hs ?_
  unfold State.pageWrite
  repeat' first
    | with_reducible exact Keeps.refl _
    | (intro x; first | (have hf := funext (f := x) (g := x) (fun _ => rfl); clear hf; subst x) | clear_value x | skip)
    | lift_lets -underBinder
    | with_reducible apply Keeps.ite
    | with_reducible apply State.logT_keeps
    | with_reducible apply State.ringVector_keeps
    | with_reducible apply State.spCode_keeps
    | with_reducible apply State.spGuard_keeps
    | with_reducible apply State.updSlice_keeps
    | split

theorem State.gdPlain_keeps {u : State} {s : State} {acc : Access} {off : Nat} {w : Word} (hs : Keeps u s) : Keeps u ((State.gdPlain (s) (acc) (off) (w))) := by
  refine Keeps.trans hs ?_
  unfold State.gdPlain
  repeat' first
    | with_reducible exact Keeps.refl _
    | with_reducible assumption
    | (intro x; first | (refine Keeps.use (x := x) ?_ (fun hx => ?_); rotate_left; clear_value x; rotate_right; subst x) | clear_value x)
    | lift_lets -underBinder
    | with_reducible apply Keeps.ite
    | with_reducible apply State.clearBits_keeps
    | with_reducible apply State.custodyRefused_keeps
    | with_reducible apply State.noteWrite_keeps
    | with_reducible apply State.outputsDue_keeps
    | with_reducible apply State.refSelect_keeps
    | with_reducible apply State.refsConfig_keeps
    | with_reducible apply State.storeBits_keeps
    | ((with_reducible apply State.updGd_keeps); focus (intro t; exact ⟨⟨rfl, fun h => h⟩, rfl⟩))
    | ((with_reducible apply State.updCom_keeps); focus (intro t; first | exact ⟨rfl, fun h => h⟩ | exact Common.accessErr_steady ..))
    | with_reducible apply State.updRef_keeps
    | split

theorem State.regWrite_keeps {u : State} {s : State} {n : Node} {acc : Access} {off : Nat} {w : Word} (hs : Keeps u s) : Keeps u ((State.regWrite (s) (n) (acc) (off) (w))) := by
  refine Keeps.trans hs ?_
  unfold State.regWrite
  repeat' first
    | with_reducible exact Keeps.refl _
    | lift_lets -underBinder
    | with_reducible apply Keeps.ite
    | with_reducible apply State.gdPlain_keeps
    | with_reducible apply State.irqEdge_keeps
    | with_reducible apply State.pageWrite_keeps
    | with_reducible apply State.tsuWrite_keeps
    | ((with_reducible apply State.updCom_keeps); focus (intro t; exact Common.accessErr_steady ..))
    | split

theorem execRegisterWrite_keeps {u : State} {n : Node} {acc : Access} {offset : Nat} {w : Word} {s : State} (hs : Keeps u s) : Keeps u ((State.after (s) (execRegisterWrite (n) (acc) (offset) (w) (s)))) := by
  refine Keeps.trans hs ?_
  unfold execRegisterWrite
  rw [State.after_next]
  repeat' first
    | with_reducible exact Keeps.refl _
    | with_reducible apply State.regWrite_keeps

theorem execLowWordLatchRead_keeps {u : State} {n : Node} {acc : Access} {offset : Nat} {s : State} (hs : Keeps u s) : Keeps u ((State.after (s) (execLowWordLatchRead (n) (acc) (offset) (s)))) := by
  refine Keeps.trans hs ?_
  unfold execLowWordLatchRead
  rw [State.after_next]
  repeat' first
    | with_reducible exact Keeps.refl _
    | with_reducible apply State.regRead_keeps

theorem execErrlogPop_keeps {u : State} {n : Node} {s : State} (hs : Keeps u s) : Keeps u ((State.after (s) (execErrlogPop (n) (s)))) := by
  refine Keeps.trans hs ?_
  unfold execErrlogPop
  rw [State.after_next]
  repeat' first
    | with_reducible exact Keeps.refl _
    | ((with_reducible apply State.updCom_keeps); focus (intro t; exact ⟨rfl, fun h => h⟩))

theorem execErrlogClear_keeps {u : State} {n : Node} {s : State} (hs : Keeps u s) : Keeps u ((State.after (s) (execErrlogClear (n) (s)))) := by
  refine Keeps.trans hs ?_
  unfold execErrlogClear
  rw [State.after_next]
  repeat' first
    | with_reducible exact Keeps.refl _
    | ((with_reducible apply State.updCom_keeps); focus (intro t; exact ⟨rfl, fun h => h⟩))

theorem execIrqEventHandshake_keeps {u : State} {s : State} (hs : Keeps u s) : Keeps u ((State.after (s) (execIrqEventHandshake (s)))) := by
  refine Keeps.trans hs ?_
  unfold execIrqEventHandshake
  rw [State.after_next]
  repeat' first
    | with_reducible exact Keeps.refl _
    | ((with_reducible apply State.updCom_keeps); focus (intro t; exact ⟨rfl, fun h => h⟩))

theorem State.debugSnapshot_keeps {u : State} {s : State} {slice : Option Nat} {w : Word} (hs : Keeps u s) : Keeps u ((State.debugSnapshot (s) (slice) (w))) := by
  refine Keeps.trans hs ?_
  unfold State.debugSnapshot
  repeat' first
    | with_reducible exact Keeps.refl _
    | (intro x; first | (have hf := funext (f := x) (g := x) (fun _ => rfl); clear hf; subst x) | clear_value x | skip)
    | lift_lets -underBinder
    | with_reducible apply Keeps.ite
    | with_reducible apply State.denied_keeps
    | with_reducible apply State.setReg_keeps
    | with_reducible apply State.spGuard_keeps
    | with_reducible apply State.updSlice_keeps
    | ((with_reducible apply State.updTsu_keeps); focus (intro t; exact ⟨⟨rfl, fun h => h⟩, rfl⟩))
    | split

theorem execDebugSnapshot_keeps {u : State} {slice : Option Nat} {w : Word} {s : State} (hs : Keeps u s) : Keeps u ((State.after (s) (execDebugSnapshot (slice) (w) (s)))) := by
  refine Keeps.trans hs ?_
  unfold execDebugSnapshot
  rw [State.after_next]
  repeat' first
    | with_reducible exact Keeps.refl _
    | with_reducible apply State.debugSnapshot_keeps

theorem execSoftSnapshot_keeps {u : State} {w : Word} {s : State} (hs : Keeps u s) : Keeps u ((State.after (s) (execSoftSnapshot (w) (s)))) := by
  refine Keeps.trans hs ?_
  unfold execSoftSnapshot
  rw [State.after_next]
  repeat' first
    | with_reducible exact Keeps.refl _
    | lift_lets -underBinder
    | with_reducible apply State.setReg_keeps
    | ((with_reducible apply State.updGd_keeps); focus (intro t; exact ⟨⟨rfl, fun h => h⟩, rfl⟩))

theorem State.dlatWords_keeps {u : State} {s : State} {tag : BitVec 24} (hs : Keeps u s) : Keeps u ((State.dlatWords (s) (tag)).1) := by
  refine Keeps.trans hs ?_
  unfold State.dlatWords
  repeat' first
    | with_reducible exact Keeps.refl _
    | with_reducible assumption
    | (intro x; first | (refine Keeps.use (x := x.1) ?_ (fun hx => ?_); rotate_left; clear_value x; rotate_right; subst x) | (have hf := funext (f := x) (g := x) (fun _ => rfl); clear hf; subst x) | clear_value x)
    | lift_lets -underBinder
    | with_reducible apply State.slotWait_keeps
    | split

theorem execDlatSnapshot_keeps {u : State} {w : Word} {s : State} (hs : Keeps u s) : Keeps u ((State.after (s) (execDlatSnapshot (w) (s)))) := by
  refine Keeps.trans hs ?_
  unfold execDlatSnapshot
  rw [State.after_next]
  repeat' first
    | with_reducible exact Keeps.refl _
    | with_reducible assumption
    | (intro x; (refine Keeps.use (x := x) ?_ (fun hx => ?_); rotate_left; clear_value x; rotate_right; subst x))
    | lift_lets -underBinder
    | with_reducible apply State.dlatWords_keeps
    | with_reducible apply State.setReg_keeps
    | ((with_reducible apply State.updGd_keeps); focus (intro t; exact ⟨⟨rfl, fun h => h⟩, rfl⟩))

end Sys2Proof.Machine
end

