-- ==== Sys2Proof/Laws/FrameResets.lean ====
section
/-! SUPPORT. What the operations of `Sys2Proof.Machine.Resets` leave alone, one lemma per operation. -/

namespace Sys2Proof.Machine

open Sys2Proof

set_option linter.unusedVariables false

theorem State.absorb_keeps {u : State} {s : State} {n : Node} (hs : Keeps u s) : Keeps u ((State.absorb (s) (n))) := by
  refine Keeps.trans hs ?_
  unfold State.absorb
  repeat' first
    | with_reducible exact Keeps.refl _
    | ((with_reducible apply State.updTsu_keeps); focus (intro t; exact ⟨⟨rfl, fun h => h⟩, rfl⟩))
    | ((with_reducible apply State.updGd_keeps); focus (intro t; exact ⟨⟨rfl, fun h => h⟩, rfl⟩))
    | split

theorem State.portRst_keeps {u : State} {s : State} {p : Nat} (hs : Keeps u s) : Keeps u ((State.portRst (s) (p))) := by
  refine Keeps.trans hs ?_
  unfold State.portRst
  repeat' first
    | with_reducible exact Keeps.refl _
    | with_reducible assumption
    | (intro x; (refine Keeps.use (x := x) ?_ (fun hx => ?_); rotate_left; clear_value x; rotate_right; subst x))
    | lift_lets -underBinder
    | with_reducible apply Keeps.ite
    | with_reducible apply State.absorb_keeps
    | with_reducible apply State.portReset_keeps
    | with_reducible apply State.setReg_keeps

theorem execPortRst_keeps {u : State} {port : Nat} {s : State} (hs : Keeps u s) : Keeps u ((State.after (s) (execPortRst (port) (s)))) := by
  refine Keeps.trans hs ?_
  unfold execPortRst
  rw [State.after_next]
  repeat' first
    | with_reducible exact Keeps.refl _
    | with_reducible apply State.portRst_keeps

theorem execPortResetEnd_keeps {u : State} {port : Nat} {s : State} (hs : Keeps u s) : Keeps u ((State.after (s) (execPortResetEnd (port) (s)))) := by
  refine Keeps.trans hs ?_
  unfold execPortResetEnd
  rw [State.after_next]
  repeat' first
    | with_reducible exact Keeps.refl _
    | lift_lets -underBinder
    | with_reducible apply Keeps.ite
    | with_reducible apply State.updPort_keeps
    | split

theorem execUnitRst_keeps {u : State} {s : State} (hs : Keeps u s) : Keeps u ((State.after (s) (execUnitRst (s)))) := by
  refine Keeps.trans hs ?_
  unfold execUnitRst
  rw [State.after_next]
  repeat' first
    | with_reducible exact Keeps.refl _
    | with_reducible apply State.unitReset_keeps

theorem State.gdPortRst_keeps {u : State} {s : State} {p : Nat} (hs : Keeps u s) : Keeps u ((State.gdPortRst (s) (p))) := by
  refine Keeps.trans hs ?_
  unfold State.gdPortRst
  repeat' first
    | with_reducible exact Keeps.refl _
    | with_reducible assumption
    | (intro x; first | (refine Keeps.use (x := x) ?_ (fun hx => ?_); rotate_left; clear_value x; rotate_right; subst x) | clear_value x | skip)
    | lift_lets -underBinder
    | with_reducible apply Keeps.ite
    | with_reducible apply State.absorb_keeps
    | with_reducible apply State.portPage_keeps
    | with_reducible apply State.retrain_keeps
    | ((with_reducible apply State.updGd_keeps); focus (intro t; exact ⟨⟨rfl, fun h => h⟩, rfl⟩))
    | ((with_reducible apply State.updCom_keeps); focus (intro t; exact ⟨rfl, fun h => h⟩))

theorem execGdPortRst_keeps {u : State} {port : Nat} {s : State} (hs : Keeps u s) : Keeps u ((State.after (s) (execGdPortRst (port) (s)))) := by
  refine Keeps.trans hs ?_
  unfold execGdPortRst
  rw [State.after_next]
  repeat' first
    | with_reducible exact Keeps.refl _
    | with_reducible apply State.gdPortRst_keeps

theorem State.domainRst_keeps {u : State} {s : State} {tag : BitVec 24} (hs : Keeps u s) : Keeps u ((State.domainRst (s) (tag))) := by
  refine Keeps.trans hs ?_
  unfold State.domainRst
  repeat' first
    | with_reducible exact Keeps.refl _
    | with_reducible assumption
    | (intro x; (refine Keeps.use (x := x) ?_ (fun hx => ?_); rotate_left; clear_value x; rotate_right; subst x))
    | lift_lets -underBinder
    | with_reducible apply Keeps.ite
    | with_reducible apply State.absorb_keeps
    | with_reducible apply State.fullCensus_keeps
    | with_reducible apply State.setReg_keeps
    | ((with_reducible apply State.updGd_keeps); focus (intro t; exact ⟨⟨rfl, fun h => h⟩, rfl⟩))
    | split

theorem execDomainRst_keeps {u : State} {tag : BitVec 24} {s : State} (hs : Keeps u s) : Keeps u ((State.after (s) (execDomainRst (tag) (s)))) := by
  refine Keeps.trans hs ?_
  unfold execDomainRst
  rw [State.after_next]
  repeat' first
    | with_reducible exact Keeps.refl _
    | with_reducible apply State.domainRst_keeps

theorem execRateRetryTimer_keeps {u : State} {port : Nat} {s : State} (hs : Keeps u s) : Keeps u ((State.after (s) (execRateRetryTimer (port) (s)))) := by
  refine Keeps.trans hs ?_
  unfold execRateRetryTimer
  rw [State.after_next]
  repeat' first
    | with_reducible exact Keeps.refl _
    | (intro x; clear_value x)
    | lift_lets -underBinder
    | with_reducible apply Keeps.ite
    | with_reducible apply State.retrain_keeps

theorem execRateRetry_keeps {u : State} {port : Nat} {s : State} (hs : Keeps u s) : Keeps u ((State.after (s) (execRateRetry (port) (s)))) := by
  refine Keeps.trans hs ?_
  unfold execRateRetry
  rw [State.after_next]
  repeat' first
    | with_reducible exact Keeps.refl _
    | intro x
    | lift_lets -underBinder
    | with_reducible apply State.portPage_keeps
    | with_reducible apply State.retrain_keeps

theorem execPortEnWrite_keeps {u : State} {port : Nat} {en : Bool} {s : State} (hs : Keeps u s) : Keeps u ((State.after (s) (execPortEnWrite (port) (en) (s)))) := by
  refine Keeps.trans hs ?_
  unfold execPortEnWrite
  rw [State.after_next]
  repeat' first
    | with_reducible exact Keeps.refl _
    | (intro x; first | clear_value x | skip)
    | lift_lets -underBinder
    | with_reducible apply Keeps.ite
    | with_reducible apply State.linkOff_keeps
    | with_reducible apply State.linkOn_keeps
    | with_reducible apply State.portPage_keeps
    | ((with_reducible apply State.updCom_keeps); focus (intro t; exact Common.accessErr_steady ..))

theorem execRingBypassWrite_keeps {u : State} {v : Bool} {s : State} (hs : Keeps u s) : Keeps u ((State.after (s) (execRingBypassWrite (v) (s)))) := by
  refine Keeps.trans hs ?_
  unfold execRingBypassWrite
  rw [State.after_next]
  repeat' first
    | with_reducible exact Keeps.refl _
    | ((with_reducible apply State.updGd_keeps); focus (intro t; exact ⟨⟨rfl, fun h => h⟩, rfl⟩))

theorem execThermNAlarm_keeps {u : State} {celsius : Int} {s : State} (hs : Keeps u s) : Keeps u ((State.after (s) (execThermNAlarm (celsius) (s)))) := by
  refine Keeps.trans hs ?_
  unfold execThermNAlarm
  rw [State.after_next]
  repeat' first
    | with_reducible exact Keeps.refl _
    | ((with_reducible apply State.updGd_keeps); focus (intro t; exact ⟨⟨rfl, fun h => h⟩, rfl⟩))

theorem State.lostTumbler_keeps {u : State} {s : State} {e : Nat} (hs : Keeps u s) : Keeps u ((State.lostTumbler (s) (e))) := by
  refine Keeps.trans hs ?_
  unfold State.lostTumbler
  repeat' first
    | with_reducible exact Keeps.refl _
    | with_reducible assumption
    | (intro x; (refine Keeps.use (x := x) ?_ (fun hx => ?_); rotate_left; clear_value x; rotate_right; subst x))
    | lift_lets -underBinder
    | with_reducible apply Keeps.ite
    | with_reducible apply State.closeTumb_keeps
    | with_reducible apply State.enterShadow_keeps
    | with_reducible apply State.failWaiters_keeps
    | with_reducible apply State.joinSoon_keeps
    | with_reducible apply State.updBinding_keeps
    | split

theorem State.lostRow_keeps {u : State} {s : State} {r : Nat} (hs : Keeps u s) : Keeps u ((State.lostRow (s) (r))) := by
  refine Keeps.trans hs ?_
  unfold State.lostRow
  repeat' first
    | with_reducible exact Keeps.refl _
    | lift_lets -underBinder
    | with_reducible apply State.retireRow_keeps
    | with_reducible apply State.takeFresh_keeps
    | split

theorem State.lostImage_keeps {u : State} {s : State} {n : Nat} (hs : Keeps u s) : Keeps u ((State.lostImage (s) (n))) := by
  refine Keeps.trans hs ?_
  unfold State.lostImage
  repeat' first
    | with_reducible exact Keeps.refl _
    | with_reducible assumption
    | (intro x; first | (refine Keeps.use (x := x) ?_ (fun hx => ?_); rotate_left; clear_value x; rotate_right; subst x) | skip)
    | lift_lets -underBinder
    | with_reducible apply State.ctxHalt_keeps
    | with_reducible apply State.updSlice_keeps
    | with_reducible apply Keeps.foldl

theorem State.lostCal_keeps {u : State} {s : State} {k : Nat} (hs : Keeps u s) : Keeps u ((State.lostCal (s) (k))) := by
  refine Keeps.trans hs ?_
  unfold State.lostCal
  repeat' first
    | with_reducible exact Keeps.refl _
    | with_reducible assumption
    | (intro x; (refine Keeps.use (x := x) ?_ (fun hx => ?_); rotate_left; clear_value x; rotate_right; subst x))
    | lift_lets -underBinder
    | with_reducible apply State.updCal_keeps
    | with_reducible apply State.writeRecord_keeps
    | with_reducible apply State.takeFresh_keeps
    | split

theorem State.lineLost_sound {u s : State} {st : Store} {key : Nat} (hs : Sound u s) : Sound u (s.lineLost st key) := by
  unfold State.lineLost
  split
  case h_9 => exact Sound.ite (Sound.step (State.setEvt_keeps (.refl _)) hs) (State.chipReset_sound hs)
  case h_1 => exact Sound.step (State.lostTumbler_keeps (.refl _)) hs
  case h_2 => exact Sound.step (State.lostTumbler_keeps (.refl _)) hs
  case h_3 => exact Sound.step (State.lostRow_keeps (.refl _)) hs
  case h_4 => exact Sound.step (State.lostImage_keeps (.refl _)) hs
  case h_5 => exact Sound.step (State.ctxHalt_keeps (.refl _)) hs
  case h_6 => exact Sound.step (State.lostCal_keeps (.refl _)) hs
  case h_7 => exact Sound.step (State.updTumb_keeps (.refl _)) hs
  case h_8 =>
    have h : Sound u (s.updGd fun g => { g with softs := Tab.del g.softs key }) :=
      State.updGd_sound (fun g => ⟨⟨rfl, fun h => h⟩, rfl⟩) hs
    exact Sound.ite (Sound.step (State.fullCensus_keeps (.refl _)) h) h

theorem State.scrubLine_sound {u : State} {s : State} {st : Store} {key : Nat} {found : LineState} (hs : Sound u s) : Sound u ((State.scrubLine (s) (st) (key) (found))) := by
  refine Sound.trans hs ?_
  unfold State.scrubLine
  repeat' first
    | with_reducible exact Sound.refl _
    | with_reducible assumption
    | (intro x; (refine Sound.use (x := x) ?_ (fun hx => ?_); rotate_left; clear_value x; rotate_right; subst x))
    | lift_lets -underBinder
    | with_reducible apply State.lineLost_sound
    | with_reducible apply Sound.step (State.log_keeps (Keeps.refl _))
    | ((with_reducible apply State.updTsu_sound); focus (intro t; exact ⟨⟨rfl, fun h => h⟩, rfl⟩))
    | ((with_reducible apply State.updGd_sound); focus (intro t; exact ⟨⟨rfl, fun h => h⟩, rfl⟩))
    | split

theorem execScrubLine_sound {u : State} {st : Store} {key : Nat} {found : LineState} {s : State} (hs : Sound u s) : Sound u ((State.after (s) (execScrubLine (st) (key) (found) (s)))) := by
  refine Sound.trans hs ?_
  unfold execScrubLine
  rw [State.after_next]
  repeat' first
    | with_reducible exact Sound.refl _
    | with_reducible apply State.scrubLine_sound

end Sys2Proof.Machine
end

