-- ==== Sys2Proof/Laws/FrameTimeCounter.lean ====
section
/-! SUPPORT. What the operations of `Sys2Proof.Machine.TimeCounter` leave alone, one lemma per operation. -/

namespace Sys2Proof.Machine

open Sys2Proof

set_option linter.unusedVariables false

theorem State.rootTick_keeps {u s : State} (hs : Keeps u s) : Keeps u s.rootTick := by
  have put : ∀ (x : State) (v : Int) (m : Nat), Keeps u x → Keeps u ((x.updTime .gd fun t => { t with addend := clampAddend v }).updGd
      fun g => { g with ref := { g.ref with rampAcc := m } }) := fun x v m h =>
    State.updGd_keeps (fun g => ⟨⟨rfl, fun h => h⟩, rfl⟩) (State.updTime_keeps (fun t => TimeDom.addend_steady ..) h)
  unfold State.rootTick
  simp only []
  refine Keeps.ite ?_ hs
  split
  · exact put _ _ _ hs
  · exact put _ _ _ hs
  · exact Keeps.ite (put _ _ _ (State.takeFresh_keeps hs)) hs
  · exact hs

theorem State.setCommit_guards {u : State} {s : State} (hs : Guards u s) : Guards u ((State.setCommit (s))) := by
  refine Guards.trans hs ?_
  unfold State.setCommit
  repeat' first
    | with_reducible exact Guards.refl _
    | (intro x; (have hf := funext (f := x) (g := x) (fun _ => rfl); clear hf; subst x))
    | lift_lets -underBinder
    | with_reducible apply Guards.ite
    | with_reducible apply Guards.step (State.logT_keeps (Keeps.refl _))
    | with_reducible apply Guards.step (State.setEvt_keeps (Keeps.refl _))
    | with_reducible apply State.stepCounter_guards

theorem State.commitTick_guards {u : State} {s : State} (hs : Guards u s) : Guards u ((State.commitTick (s))) := by
  refine Guards.trans hs ?_
  unfold State.commitTick
  repeat' first
    | with_reducible exact Guards.refl _
    | lift_lets -underBinder
    | with_reducible apply Guards.ite
    | with_reducible apply State.setCommit_guards
    | ((with_reducible apply State.updTime_guards); focus (intro t; exact ⟨rfl, fun h => h⟩))

theorem TimeDom.tick_clamped (t : TimeDom) (h : t.Clamped) : t.tick.Clamped := h

theorem State.timeClockTick_formed {u s : State} {n : Node} (hs : Formed u s) : Formed u (s.timeClockTick n) := by
  unfold State.timeClockTick
  cases n
  · simp only []
    generalize hx : (((s.updTsu fun t => { t with tickOrders := [], calTick := false }).cycleEnd .tsu).bootMsLatch .tsu).stallServe = x
    have h : Formed u x := by
      refine Formed.step (t := s) ?_ hs
      subst hx
      have h0 : Keeps s (s.updTsu fun t => { t with tickOrders := [], calTick := false }) :=
        State.updTsu_keeps (fun _ => ⟨⟨rfl, fun h => h⟩, rfl⟩) (.refl _)
      have h1 := State.bootMsLatch_keeps (n := .tsu) (State.cycleEnd_keeps (n := .tsu) h0)
      have h2 := State.stallServe_keeps h1
      exact h2.sound.formed
    have h2 : Formed u (if x.tsu.tdHeld then x.updTime .tsu fun t => { t with aon := t.aon + 2 } else x.updTime .tsu TimeDom.tick) := by
      refine Formed.ite ?_ ?_
      · exact h.trans ⟨fun c => c, fun c => c, rfl, rfl⟩
      · exact h.trans ⟨fun c => ⟨TimeDom.tick_clamped _ c.1, c.2⟩, fun c => c, rfl, rfl⟩
    refine Formed.step (State.commitTick_guards (.refl _)).formed (Formed.ite ?_ h2)
    exact Formed.step (State.updRegions_keeps (.refl _)).sound.formed h2
  · refine Formed.step (State.outputsTick_keeps (State.rootTick_keeps (.refl _))).sound.formed ?_
    have h : Formed u ((s.cycleEnd .gd).bootMsLatch .gd) :=
      Formed.step (State.bootMsLatch_keeps (State.cycleEnd_keeps (.refl _))).sound.formed hs
    exact h.trans ⟨fun c => ⟨c.1, TimeDom.tick_clamped _ c.2⟩, fun c => c, rfl, rfl⟩

theorem execTimeClockTick_formed {u : State} {n : Node} {s : State} (hs : Formed u s) : Formed u ((State.after (s) (execTimeClockTick (n) (s)))) := by
  refine Formed.trans hs ?_
  unfold execTimeClockTick
  rw [State.after_next]
  repeat' first
    | with_reducible exact Formed.refl _
    | with_reducible apply State.timeClockTick_formed

theorem execSetCommit_guards {u : State} {s : State} (hs : Guards u s) : Guards u ((State.after (s) (execSetCommit (s)))) := by
  refine Guards.trans hs ?_
  unfold execSetCommit
  rw [State.after_next]
  repeat' first
    | with_reducible exact Guards.refl _
    | with_reducible apply State.setCommit_guards

theorem State.tdreset_guards {u : State} {s : State} {commit : Bool} (hs : Guards u s) : Guards u ((State.tdreset (s) (commit))) := by
  refine Guards.trans hs ?_
  unfold State.tdreset
  repeat' first
    | with_reducible exact Guards.refl _
    | with_reducible assumption
    | (intro x; (refine Guards.use (x := x) ?_ (fun hx => ?_); rotate_left; clear_value x; rotate_right; subst x))
    | lift_lets -underBinder
    | with_reducible apply Guards.ite
    | with_reducible apply State.setCommit_guards
    | with_reducible apply Guards.step (State.timeDomainReset_keeps (Keeps.refl _))
    | ((with_reducible apply State.updTime_guards); focus (intro t; exact ⟨rfl, fun h => h⟩))

theorem execTdreset_guards {u : State} {n : Bool} {s : State} (hs : Guards u s) : Guards u ((State.after (s) (execTdreset (n) (s)))) := by
  refine Guards.trans hs ?_
  unfold execTdreset
  rw [State.after_next]
  repeat' first
    | with_reducible exact Guards.refl _
    | with_reducible apply State.tdreset_guards

theorem State.standaloneWrite_formed {u s : State} {v : Bool} (hs : Formed u s) : Formed u (s.standaloneWrite v) := by
  unfold State.standaloneWrite
  simp only []
  refine Formed.ite (Formed.ite ?_ (Formed.ite ?_ hs)) hs
  · unfold State.updTimeQ
    exact Formed.step (State.noteChange_keeps (.refl _)).sound.formed (hs.trans ⟨fun c => c, fun c => c, rfl, rfl⟩)
  · exact Formed.step (State.timeDomainReset_keeps (.refl _)).sound.formed (hs.trans ⟨fun c => c, fun c => c, rfl, rfl⟩)

theorem execStandaloneWrite_formed {u : State} {v : Bool} {s : State} (hs : Formed u s) : Formed u ((State.after (s) (execStandaloneWrite (v) (s)))) := by
  refine Formed.trans hs ?_
  unfold execStandaloneWrite
  rw [State.after_next]
  repeat' first
    | with_reducible exact Formed.refl _
    | with_reducible apply State.standaloneWrite_formed

theorem State.addendCommit_keeps {u s : State} {w1 : Word} (hs : Keeps u s) : Keeps u (s.addendCommit w1) := by
  unfold State.addendCommit
  exact Keeps.ite (State.updTime_keeps (fun t => TimeDom.addend_steady ..) hs) hs

theorem execAddendCommit_keeps {u : State} {w1 : Word} {s : State} (hs : Keeps u s) : Keeps u ((State.after (s) (execAddendCommit (w1) (s)))) := by
  refine Keeps.trans hs ?_
  unfold execAddendCommit
  rw [State.after_next]
  repeat' first
    | with_reducible exact Keeps.refl _
    | with_reducible apply State.addendCommit_keeps
    | with_reducible apply State.addendWord_keeps

theorem State.pllLockLoss_formed {u s : State} {n : Node} (hs : Formed u s) : Formed u (s.pllLockLoss n) := by
  unfold State.pllLockLoss
  refine Formed.step (State.setEvt_keeps (.refl _)).sound.formed (hs.trans ?_)
  cases n <;> exact ⟨fun c => c, fun c => c, rfl, rfl⟩

theorem execPllLockLoss_formed {u : State} {n : Node} {s : State} (hs : Formed u s) : Formed u ((State.after (s) (execPllLockLoss (n) (s)))) := by
  refine Formed.trans hs ?_
  unfold execPllLockLoss
  rw [State.after_next]
  repeat' first
    | with_reducible exact Formed.refl _
    | with_reducible apply State.pllLockLoss_formed

theorem State.pllRelock_formed {u s : State} {n : Node} (hs : Formed u s) : Formed u (s.pllRelock n) := by
  unfold State.pllRelock
  refine Formed.ite hs (Formed.step (State.timeDomainReset_keeps (.refl _)).sound.formed (hs.trans ?_))
  cases n <;> exact ⟨fun c => c, fun c => c, rfl, rfl⟩

theorem execPllRelock_formed {u : State} {n : Node} {s : State} (hs : Formed u s) : Formed u ((State.after (s) (execPllRelock (n) (s)))) := by
  refine Formed.trans hs ?_
  unfold execPllRelock
  rw [State.after_next]
  repeat' first
    | with_reducible exact Formed.refl _
    | with_reducible apply State.pllRelock_formed

theorem State.timeDomainPowerOn_formed {u s : State} {n : Node} (hs : Formed u s) : Formed u (s.timeDomainPowerOn n) := by
  unfold State.timeDomainPowerOn
  cases n
  · simp only [if_true]
    refine Formed.step (State.updRegions_keeps (.refl _)).sound.formed (State.updTsu_formed (fun t => ⟨⟨rfl, fun h => h⟩, rfl⟩) ?_)
    have h : Formed u (s.dropDomainLaunches .timeUnqualified) := Formed.step (State.dropDomainLaunches_keeps (.refl _)).sound.formed hs
    exact h.trans ⟨fun c => ⟨addendNominal_clamped, c.2⟩, fun c => c, rfl, rfl⟩
  · simp only [reduceCtorEq, if_false]
    refine Formed.step (State.noteChange_keeps (.refl _)).sound.formed (Formed.step (State.updRef_keeps (.refl _)).sound.formed (State.updGd_formed (fun t => ⟨⟨rfl, fun h => h⟩, rfl⟩) ?_))
    exact hs.trans ⟨fun c => ⟨c.1, addendNominal_clamped⟩, fun c => c, rfl, rfl⟩

theorem execTimeDomainPowerOn_formed {u s : State} {n : Node} (hs : Formed u s) : Formed u (s.after (execTimeDomainPowerOn n s)) := by
  unfold execTimeDomainPowerOn
  rw [State.after_next]
  refine Formed.ite (Formed.trans (t := s.timeDomainPowerOn n) (State.timeDomainPowerOn_formed hs) ?_) (State.timeDomainPowerOn_formed hs)
  exact ⟨fun c => c, fun c => c, rfl, rfl⟩

theorem execTdPorAssert_formed {u s : State} (hs : Formed u s) : Formed u (s.after (execTdPorAssert s)) :=
  (State.timeDomainPowerOn_formed hs).trans ⟨fun c => c, fun c => c, rfl, rfl⟩

theorem State.restep_keeps {u : State} {s : State} {acc : Access} (hs : Keeps u s) : Keeps u ((State.restep (s) (acc))) := by
  refine Keeps.trans hs ?_
  unfold State.restep
  repeat' first
    | with_reducible exact Keeps.refl _
    | intro x
    | lift_lets -underBinder
    | with_reducible apply State.gdWrite_keeps
    | with_reducible apply State.timeDomainReset_keeps
    | ((with_reducible apply State.updTime_keeps); focus (intro t; exact ⟨rfl, fun h => h⟩))

theorem execRestep_keeps {u : State} {acc : Access} {s : State} (hs : Keeps u s) : Keeps u ((State.after (s) (execRestep (acc) (s)))) := by
  refine Keeps.trans hs ?_
  unfold execRestep
  rw [State.after_next]
  repeat' first
    | with_reducible exact Keeps.refl _
    | with_reducible apply State.restep_keeps

theorem State.qualify_keeps {u : State} {s : State} {n : Node} (hs : Keeps u s) : Keeps u ((State.qualify (s) (n))) := by
  refine Keeps.trans hs ?_
  unfold State.qualify
  repeat' first
    | with_reducible exact Keeps.refl _
    | with_reducible assumption
    | (intro x; (refine Keeps.use (x := x) ?_ (fun hx => ?_); rotate_left; clear_value x; rotate_right; subst x))
    | lift_lets -underBinder
    | with_reducible apply Keeps.ite
    | with_reducible apply State.launchOkGained_keeps
    | ((with_reducible apply State.updTime_keeps); focus (intro t; exact ⟨rfl, fun h => h⟩))
    | ((with_reducible apply State.updTimeQ_keeps); focus (intro t; exact ⟨rfl, fun h => h⟩))
    | split

theorem State.qualHoldMet_keeps {u : State} {s : State} {n : Node} (hs : Keeps u s) : Keeps u ((State.qualHoldMet (s) (n))) := by
  refine Keeps.trans hs ?_
  unfold State.qualHoldMet
  repeat' first
    | with_reducible exact Keeps.refl _
    | with_reducible apply Keeps.ite
    | with_reducible apply State.qualify_keeps

theorem execQualHoldMet_keeps {u : State} {n : Node} {s : State} (hs : Keeps u s) : Keeps u ((State.after (s) (execQualHoldMet (n) (s)))) := by
  refine Keeps.trans hs ?_
  unfold execQualHoldMet
  rw [State.after_next]
  repeat' first
    | with_reducible exact Keeps.refl _
    | with_reducible apply State.qualHoldMet_keeps

theorem State.qualDropMet_keeps {u : State} {s : State} {n : Node} (hs : Keeps u s) : Keeps u ((State.qualDropMet (s) (n))) := by
  refine Keeps.trans hs ?_
  unfold State.qualDropMet
  repeat' first
    | with_reducible exact Keeps.refl _
    | (intro x; clear_value x)
    | lift_lets -underBinder
    | with_reducible apply Keeps.ite
    | ((with_reducible apply State.updTimeQ_keeps); focus (intro t; exact ⟨rfl, fun h => h⟩))

theorem execQualDropMet_keeps {u : State} {n : Node} {s : State} (hs : Keeps u s) : Keeps u ((State.after (s) (execQualDropMet (n) (s)))) := by
  refine Keeps.trans hs ?_
  unfold execQualDropMet
  rw [State.after_next]
  repeat' first
    | with_reducible exact Keeps.refl _
    | with_reducible apply State.qualDropMet_keeps

theorem State.flywheelLimit_keeps {u : State} {s : State} {n : Node} (hs : Keeps u s) : Keeps u ((State.flywheelLimit (s) (n))) := by
  refine Keeps.trans hs ?_
  unfold State.flywheelLimit
  repeat' first
    | with_reducible exact Keeps.refl _
    | (intro x; clear_value x)
    | lift_lets -underBinder
    | with_reducible apply Keeps.ite
    | with_reducible apply State.withdraw_keeps
    | ((with_reducible apply State.updTime_keeps); focus (intro t; exact ⟨rfl, fun h => h⟩))
    | split

theorem execFlywheelLimit_keeps {u : State} {n : Node} {s : State} (hs : Keeps u s) : Keeps u ((State.after (s) (execFlywheelLimit (n) (s)))) := by
  refine Keeps.trans hs ?_
  unfold execFlywheelLimit
  rw [State.after_next]
  repeat' first
    | with_reducible exact Keeps.refl _
    | with_reducible apply State.flywheelLimit_keeps

theorem State.leapSecondApply_keeps {u : State} {s : State} {n : Node} (hs : Keeps u s) : Keeps u ((State.leapSecondApply (s) (n))) := by
  refine Keeps.trans hs ?_
  unfold State.leapSecondApply
  repeat' first
    | with_reducible exact Keeps.refl _
    | ((with_reducible apply State.updTime_keeps); focus (intro t; ((repeat' split) <;> exact ⟨rfl, fun h => h⟩)))

theorem execLeapSecondApply_keeps {u : State} {n : Node} {s : State} (hs : Keeps u s) : Keeps u ((State.after (s) (execLeapSecondApply (n) (s)))) := by
  refine Keeps.trans hs ?_
  unfold execLeapSecondApply
  rw [State.after_next]
  repeat' first
    | with_reducible exact Keeps.refl _
    | with_reducible apply State.leapSecondApply_keeps

end Sys2Proof.Machine
end

