-- ==== Sys2Proof/Laws/FrameTrees.lean ====
section
/-! SUPPORT. What the operations of `Sys2Proof.Machine.Trees` leave alone, one lemma per operation. -/

namespace Sys2Proof.Machine

open Sys2Proof

set_option linter.unusedVariables false

theorem execPolicyCommit_keeps {u s : State} (hs : Keeps u s) : Keeps u (s.after (execPolicyCommit s)) := by
  unfold execPolicyCommit
  rw [State.after_next]
  exact Keeps.ite (State.updCom_keeps (fun c => Common.accessErr_steady ..) hs)
    (State.policyDo_keeps (fun n g => Gd.hold_steady g _) hs)

theorem execPolicyLoad_keeps {u s : State} (hs : Keeps u s) : Keeps u (s.after (execPolicyLoad s)) := by
  unfold execPolicyLoad
  rw [State.after_next]
  exact State.policyDo_keeps (fun n g => ⟨⟨rfl, fun h => h⟩, rfl⟩) hs

theorem execTreeImageActivate_keeps {u : State} {n : Node} {s : State} (hs : Keeps u s) : Keeps u ((State.after (s) (execTreeImageActivate (n) (s)))) := by
  refine Keeps.trans hs ?_
  unfold execTreeImageActivate
  rw [State.after_next]
  repeat' first
    | with_reducible exact Keeps.refl _
    | with_reducible apply Keeps.ite
    | with_reducible apply State.gdActivate_keeps
    | with_reducible apply State.tsuActivate_keeps
    | split
/-- A write of the pending-image buffer keeps its form. -/
theorem bufPut_wf {m : Tab Word} (h : Memory.wf m) (k : Nat) (w : Word) : Memory.wf (bufPut m k w) := by
  unfold bufPut
  split
  · exact ⟨Tab.Rising.del h.1 k, fun p hp => h.2 p (List.mem_filter.1 hp).1⟩
  · next hw => exact ⟨Tab.Rising.put h.1 k w, fun p hp => (Tab.mem_put hp).elim (fun e => e ▸ hw) (h.2 p)⟩

theorem execTreeWdataWrite_formed {u s : State} {w : Word} (hs : Formed u s) : Formed u (s.after (execTreeWdataWrite w s)) := by
  refine hs.trans ?_
  unfold execTreeWdataWrite
  rw [State.after_next]
  refine ⟨fun c => ⟨c.1, ?_⟩, fun c => ?_, ?_, rfl⟩
  · simp only [State.updGd_gd]; split <;> exact c.2
  · simp only [State.updGd_gd]
    split
    · exact bufPut_wf c _ _
    · exact c
  · simp only [State.updGd_gd]; split <;> rfl

theorem State.rootLoad_keeps {u : State} {s : State} {b : List Byte} (hs : Keeps u s) : Keeps u ((State.rootLoad (s) (b))) := by
  refine Keeps.trans hs ?_
  unfold State.rootLoad
  repeat' first
    | with_reducible exact Keeps.refl _
    | lift_lets -underBinder
    | with_reducible apply Keeps.ite
    | with_reducible apply State.treeTake_keeps
    | ((with_reducible apply State.updCom_keeps); focus (intro t; exact Common.accessErr_steady ..))

theorem execLoadBuf_keeps {u : State} {s : State} (hs : Keeps u s) : Keeps u ((State.after (s) (execLoadBuf (s)))) := by
  refine Keeps.trans hs ?_
  unfold execLoadBuf
  rw [State.after_next]
  repeat' first
    | with_reducible exact Keeps.refl _
    | with_reducible apply State.rootLoad_keeps

theorem execTreeLoadCard_keeps {u : State} {data : List Byte} {s : State} (hs : Keeps u s) : Keeps u ((State.after (s) (execTreeLoadCard (data) (s)))) := by
  refine Keeps.trans hs ?_
  unfold execTreeLoadCard
  rw [State.after_next]
  repeat' first
    | with_reducible exact Keeps.refl _
    | with_reducible apply State.rootLoad_keeps

end Sys2Proof.Machine
end

