-- ==== Sys2Proof/Laws/FrameMgmt.lean ====
section
/-! SUPPORT. What the operations of `Sys2Proof.Machine.Mgmt` leave alone, one lemma per operation. -/

namespace Sys2Proof.Machine

open Sys2Proof

set_option linter.unusedVariables false

theorem State.mgmtPort_keeps {u : State} {s : State} {p k : Nat} {w : Word} (hs : Keeps u s) : Keeps u ((State.mgmtPort (s) (p) (k) (w))) := by
  refine Keeps.trans hs ?_
  unfold State.mgmtPort
  repeat' first
    | with_reducible exact Keeps.refl _
    | with_reducible assumption
    | (intro x; first | (refine Keeps.use (x := x) ?_ (fun hx => ?_); rotate_left; clear_value x; rotate_right; subst x) | (have hf := funext (f := x) (g := x) (fun _ => rfl); clear hf; subst x) | clear_value x)
    | lift_lets -underBinder
    | with_reducible apply Keeps.ite
    | with_reducible apply execCntClear_keeps
    | with_reducible apply execGdPortRst_keeps
    | with_reducible apply execPortEnWrite_keeps
    | with_reducible apply execRateRetry_keeps
    | with_reducible apply execRetrain_keeps
    | with_reducible apply execRingBypassWrite_keeps

theorem State.mgmtOrder_formed {u : State} {s : State} {off : Nat} {w : Word} (hs : Formed u s) : Formed u ((State.mgmtOrder (s) (off) (w))) := by
  refine Formed.trans hs ?_
  unfold State.mgmtOrder
  repeat' first
    | with_reducible exact Formed.refl _
    | with_reducible assumption
    | (intro x; first | (refine Formed.use (x := x) ?_ (fun hx => ?_); rotate_left; clear_value x; rotate_right; subst x) | (have hf := funext (f := x) (g := x) (fun _ => rfl); clear hf; subst x))
    | lift_lets -underBinder
    | with_reducible apply Formed.ite
    | with_reducible apply Formed.step (State.domainRst_keeps (Keeps.refl _)).sound.formed
    | with_reducible apply Formed.step (State.forceEntryWrite_keeps (Keeps.refl _)).sound.formed
    | with_reducible apply Formed.step (State.gdAbortGo_keeps (Keeps.refl _)).sound.formed
    | with_reducible apply Formed.step (State.gdOrderGo_keeps (Keeps.refl _)).sound.formed
    | with_reducible apply Formed.step (State.mgmtPort_keeps (Keeps.refl _)).sound.formed
    | with_reducible apply Formed.step (State.restep_keeps (Keeps.refl _)).sound.formed
    | with_reducible apply Formed.step (State.rfOffsetWrite_keeps (Keeps.refl _)).sound.formed
    | with_reducible apply Formed.step (execChipRst_sound (Sound.refl _)).formed
    | with_reducible apply Formed.step (execDlatSnapshot_keeps (Keeps.refl _)).sound.formed
    | with_reducible apply Formed.step (execErrlogClear_keeps (Keeps.refl _)).sound.formed
    | with_reducible apply Formed.step (execErrlogPop_keeps (Keeps.refl _)).sound.formed
    | with_reducible apply Formed.step (execFuseBlow_keeps (Keeps.refl _)).sound.formed
    | with_reducible apply Formed.step (execFwActivate_sound (Sound.refl _)).formed
    | with_reducible apply Formed.step (execFwCommit_keeps (Keeps.refl _)).sound.formed
    | with_reducible apply Formed.step (execFwRevert_sound (Sound.refl _)).formed
    | with_reducible apply Formed.step (execHealthClear_keeps (Keeps.refl _)).sound.formed
    | with_reducible apply Formed.step (execJournalFreeze_keeps (Keeps.refl _)).sound.formed
    | with_reducible apply Formed.step (execJournalRead_keeps (Keeps.refl _)).sound.formed
    | with_reducible apply Formed.step (execLoadBuf_keeps (Keeps.refl _)).sound.formed
    | with_reducible apply Formed.step (execOutRealign_keeps (Keeps.refl _)).sound.formed
    | with_reducible apply execOwnerLockWrite_formed
    | with_reducible apply Formed.step (execPolicyCommit_keeps (Keeps.refl _)).sound.formed
    | with_reducible apply Formed.step (execPolicyLoad_keeps (Keeps.refl _)).sound.formed
    | with_reducible apply Formed.step (execSoftSnapshot_keeps (Keeps.refl _)).sound.formed
    | with_reducible apply execTreeWdataWrite_formed
    | ((with_reducible apply State.updCom_formed); focus (intro t; exact Common.accessErr_steady ..))
    | split

theorem State.mgmtWrite_formed {u : State} {s : State} {off : Nat} {w : Word} (hs : Formed u s) : Formed u ((State.mgmtWrite (s) (off) (w))) := by
  refine Formed.trans hs ?_
  unfold State.mgmtWrite
  repeat' first
    | with_reducible exact Formed.refl _
    | with_reducible apply Formed.ite
    | with_reducible apply State.mgmtOrder_formed
    | with_reducible apply Formed.step (State.regWrite_keeps (Keeps.refl _)).sound.formed

theorem State.mgmtAccess_formed {u : State} {s : State} {off : Nat} {op : SpiOp} (hs : Formed u s) : Formed u ((State.mgmtAccess (s) (off) (op))) := by
  refine Formed.trans hs ?_
  unfold State.mgmtAccess
  repeat' first
    | with_reducible exact Formed.refl _
    | with_reducible apply State.mgmtWrite_formed
    | with_reducible apply Formed.step (State.regRead_keeps (Keeps.refl _)).sound.formed
    | split

theorem State.mgmtTransaction_formed {u : State} {s : State} {off : Nat} {op : SpiOp} (hs : Formed u s) : Formed u ((State.mgmtTransaction (s) (off) (op))) := by
  refine Formed.trans hs ?_
  unfold State.mgmtTransaction
  repeat' first
    | with_reducible exact Formed.refl _
    | (intro x; (refine Formed.use (x := x) ?_ (fun hx => ?_); rotate_left; clear_value x; rotate_right; subst x))
    | lift_lets -underBinder
    | with_reducible apply State.mgmtAccess_formed
    | ((with_reducible apply State.updGd_formed); focus (intro t; exact ⟨⟨rfl, fun h => h⟩, rfl⟩))
    | ((with_reducible apply State.updCom_formed); focus (intro t; exact ⟨rfl, fun h => h⟩))

theorem execMgmtSpiTransaction_formed {u : State} {offset : Nat} {op : SpiOp} {s : State} (hs : Formed u s) : Formed u ((State.after (s) (execMgmtSpiTransaction (offset) (op) (s)))) := by
  refine Formed.trans hs ?_
  unfold execMgmtSpiTransaction
  rw [State.after_next]
  repeat' first
    | with_reducible exact Formed.refl _
    | with_reducible apply State.mgmtTransaction_formed

end Sys2Proof.Machine
end

