-- ==== Sys2Proof/Laws/FrameRegions.lean ====
section
/-! SUPPORT. What the operations of `Sys2Proof.Machine.Regions` leave alone, one lemma per operation. -/

namespace Sys2Proof.Machine

open Sys2Proof

set_option linter.unusedVariables false

theorem execTbusSyncSend_keeps {u : State} {s : State} (hs : Keeps u s) : Keeps u ((State.after (s) (execTbusSyncSend (s)))) := by
  refine Keeps.trans hs ?_
  unfold execTbusSyncSend
  rw [State.after_next]
  repeat' first
    | with_reducible exact Keeps.refl _
    | lift_lets -underBinder
    | with_reducible apply Keeps.ite
    | with_reducible apply State.updRegions_keeps
    | ((with_reducible apply State.updTsu_keeps); focus (intro t; exact ⟨⟨rfl, fun h => h⟩, rfl⟩))

theorem State.repeaterSlip_keeps {u : State} {s : State} {r : Nat} {count : Nat} (hs : Keeps u s) : Keeps u ((State.repeaterSlip (s) (r) (count))) := by
  refine Keeps.trans hs ?_
  unfold State.repeaterSlip
  repeat' first
    | with_reducible exact Keeps.refl _
    | with_reducible assumption
    | (intro x; first | (refine Keeps.use (x := x) ?_ (fun hx => ?_); rotate_left; clear_value x; rotate_right; subst x) | clear_value x)
    | lift_lets -underBinder
    | with_reducible apply Keeps.ite
    | with_reducible apply State.healthSend_keeps
    | with_reducible apply State.logT_keeps
    | with_reducible apply State.setEvt_keeps
    | with_reducible apply State.updRegion_keeps

theorem State.syncTaken_keeps {u : State} {s : State} {r sync : Nat} (hs : Keeps u s) : Keeps u ((State.syncTaken (s) (r) (sync))) := by
  refine Keeps.trans hs ?_
  unfold State.syncTaken
  repeat' first
    | with_reducible exact Keeps.refl _
    | with_reducible assumption
    | (intro x; first | (refine Keeps.use (x := x) ?_ (fun hx => ?_); rotate_left; clear_value x; rotate_right; subst x) | clear_value x)
    | lift_lets -underBinder
    | with_reducible apply Keeps.ite
    | with_reducible apply State.busSend_keeps
    | with_reducible apply State.repeaterSlip_keeps
    | with_reducible apply State.updRegion_keeps

theorem State.repeaterSyncRx_keeps {u : State} {s : State} {r : Nat} {noise : BitVec 128} (hs : Keeps u s) : Keeps u ((State.repeaterSyncRx (s) (r) (noise))) := by
  refine Keeps.trans hs ?_
  unfold State.repeaterSyncRx
  repeat' first
    | with_reducible exact Keeps.refl _
    | with_reducible assumption
    | (intro x; first | (refine Keeps.use (x := x) ?_ (fun hx => ?_); rotate_left; clear_value x; rotate_right; subst x) | clear_value x)
    | lift_lets -underBinder
    | with_reducible apply Keeps.ite
    | with_reducible apply State.syncTaken_keeps
    | with_reducible apply State.wordTaken_keeps
    | split

theorem execRepeaterSyncRx_keeps {u : State} {r : Nat} {ns32 frac : BitVec 32} {rest : BitVec 64} {s : State} (hs : Keeps u s) : Keeps u ((State.after (s) (execRepeaterSyncRx (r) (ns32) (frac) (rest) (s)))) := by
  refine Keeps.trans hs ?_
  unfold execRepeaterSyncRx
  rw [State.after_next]
  repeat' first
    | with_reducible exact Keeps.refl _
    | with_reducible apply State.repeaterSyncRx_keeps

theorem State.addendTaken_keeps {u : State} {s : State} {r addend named : Nat} (hs : Keeps u s) : Keeps u ((State.addendTaken (s) (r) (addend) (named))) := by
  refine Keeps.trans hs ?_
  unfold State.addendTaken
  repeat' first
    | with_reducible exact Keeps.refl _
    | with_reducible assumption
    | (intro x; first | (refine Keeps.use (x := x) ?_ (fun hx => ?_); rotate_left; clear_value x; rotate_right; subst x) | clear_value x)
    | lift_lets -underBinder
    | with_reducible apply Keeps.ite
    | with_reducible apply State.updateLead_keeps
    | with_reducible apply State.updRegion_keeps

theorem State.repeaterAddendRx_keeps {u : State} {s : State} {r : Nat} {noise : BitVec 128} (hs : Keeps u s) : Keeps u ((State.repeaterAddendRx (s) (r) (noise))) := by
  refine Keeps.trans hs ?_
  unfold State.repeaterAddendRx
  repeat' first
    | with_reducible exact Keeps.refl _
    | with_reducible assumption
    | (intro x; first | (refine Keeps.use (x := x) ?_ (fun hx => ?_); rotate_left; clear_value x; rotate_right; subst x) | clear_value x | skip)
    | lift_lets -underBinder
    | with_reducible apply Keeps.ite
    | with_reducible apply State.addendTaken_keeps
    | with_reducible apply State.wordGood_keeps
    | with_reducible apply State.wordTaken_keeps
    | split

theorem execRepeaterAddendRx_keeps {u : State} {r : Nat} {seq : BitVec 6} {addend : BitVec 36} {count : BitVec 64} {rest : BitVec 22} {s : State} (hs : Keeps u s) : Keeps u ((State.after (s) (execRepeaterAddendRx (r) (seq) (addend) (count) (rest) (s)))) := by
  refine Keeps.trans hs ?_
  unfold execRepeaterAddendRx
  rw [State.after_next]
  repeat' first
    | with_reducible exact Keeps.refl _
    | with_reducible apply State.repeaterAddendRx_keeps

theorem State.launchAtTaken_keeps {u : State} {s : State} {r t slot : Nat} {fence : Bool} (hs : Keeps u s) : Keeps u ((State.launchAtTaken (s) (r) (t) (slot) (fence))) := by
  refine Keeps.trans hs ?_
  unfold State.launchAtTaken
  repeat' first
    | with_reducible exact Keeps.refl _
    | with_reducible assumption
    | (intro x; first | (refine Keeps.use (x := x) ?_ (fun hx => ?_); rotate_left; clear_value x; rotate_right; subst x) | clear_value x)
    | lift_lets -underBinder
    | with_reducible apply Keeps.ite
    | with_reducible apply State.strobe_keeps
    | with_reducible apply State.updRegion_keeps

theorem State.repeaterLaunchAtRx_keeps {u : State} {s : State} {r : Nat} {noise : BitVec 128} (hs : Keeps u s) : Keeps u ((State.repeaterLaunchAtRx (s) (r) (noise))) := by
  refine Keeps.trans hs ?_
  unfold State.repeaterLaunchAtRx
  repeat' first
    | with_reducible exact Keeps.refl _
    | with_reducible assumption
    | (intro x; first | (refine Keeps.use (x := x) ?_ (fun hx => ?_); rotate_left; clear_value x; rotate_right; subst x) | clear_value x | skip)
    | lift_lets -underBinder
    | with_reducible apply Keeps.ite
    | with_reducible apply State.launchAtTaken_keeps
    | with_reducible apply State.wordGood_keeps
    | with_reducible apply State.wordTaken_keeps
    | split

theorem execRepeaterLaunchAtRx_keeps {u : State} {r : Nat} {seq : BitVec 6} {t : BitVec 32} {frac : BitVec 16} {slot : BitVec 4} {fence : BitVec 1} {rest : BitVec 69} {s : State} (hs : Keeps u s) : Keeps u ((State.after (s) (execRepeaterLaunchAtRx (r) (seq) (t) (frac) (slot) (fence) (rest) (s)))) := by
  refine Keeps.trans hs ?_
  unfold execRepeaterLaunchAtRx
  rw [State.after_next]
  repeat' first
    | with_reducible exact Keeps.refl _
    | with_reducible apply State.repeaterLaunchAtRx_keeps

theorem State.wakeCheck_keeps {u : State} {s : State} {r : Nat} (hs : Keeps u s) : Keeps u ((State.wakeCheck (s) (r))) := by
  refine Keeps.trans hs ?_
  unfold State.wakeCheck
  repeat' first
    | with_reducible exact Keeps.refl _
    | (intro x; clear_value x)
    | lift_lets -underBinder
    | with_reducible apply State.updRegion_keeps

theorem State.cancelTaken_keeps {u : State} {s : State} {r slot t : Nat} (hs : Keeps u s) : Keeps u ((State.cancelTaken (s) (r) (slot) (t))) := by
  refine Keeps.trans hs ?_
  unfold State.cancelTaken
  repeat' first
    | with_reducible exact Keeps.refl _
    | (intro x; clear_value x)
    | lift_lets -underBinder
    | with_reducible apply Keeps.ite
    | with_reducible apply State.slotCancelled_keeps
    | with_reducible apply State.wakeCheck_keeps
    | with_reducible apply State.updRegion_keeps

theorem State.repeaterCancelRx_keeps {u : State} {s : State} {r : Nat} {noise : BitVec 128} (hs : Keeps u s) : Keeps u ((State.repeaterCancelRx (s) (r) (noise))) := by
  refine Keeps.trans hs ?_
  unfold State.repeaterCancelRx
  repeat' first
    | with_reducible exact Keeps.refl _
    | with_reducible assumption
    | (intro x; first | (refine Keeps.use (x := x) ?_ (fun hx => ?_); rotate_left; clear_value x; rotate_right; subst x) | clear_value x | skip)
    | lift_lets -underBinder
    | with_reducible apply Keeps.ite
    | with_reducible apply State.cancelTaken_keeps
    | with_reducible apply State.wordGood_keeps
    | with_reducible apply State.wordTaken_keeps
    | split

theorem execRepeaterCancelRx_keeps {u : State} {r : Nat} {seq : BitVec 6} {slot : BitVec 4} {rest : BitVec 118} {s : State} (hs : Keeps u s) : Keeps u ((State.after (s) (execRepeaterCancelRx (r) (seq) (slot) (rest) (s)))) := by
  refine Keeps.trans hs ?_
  unfold execRepeaterCancelRx
  rw [State.after_next]
  repeat' first
    | with_reducible exact Keeps.refl _
    | with_reducible apply State.repeaterCancelRx_keeps

theorem State.repeaterFchgAtRx_keeps {u : State} {s : State} {r : Nat} {noise : BitVec 128} (hs : Keeps u s) : Keeps u ((State.repeaterFchgAtRx (s) (r) (noise))) := by
  refine Keeps.trans hs ?_
  unfold State.repeaterFchgAtRx
  repeat' first
    | with_reducible exact Keeps.refl _
    | with_reducible assumption
    | (intro x; first | (refine Keeps.use (x := x) ?_ (fun hx => ?_); rotate_left; clear_value x; rotate_right; subst x) | clear_value x | skip)
    | lift_lets -underBinder
    | with_reducible apply Keeps.ite
    | with_reducible apply State.wordGood_keeps
    | with_reducible apply State.wordTaken_keeps
    | with_reducible apply State.updRegion_keeps
    | split

theorem execRepeaterFchgAtRx_keeps {u : State} {r : Nat} {seq : BitVec 6} {tf : BitVec 32} {code : BitVec 8} {rest : BitVec 82} {s : State} (hs : Keeps u s) : Keeps u ((State.after (s) (execRepeaterFchgAtRx (r) (seq) (tf) (code) (rest) (s)))) := by
  refine Keeps.trans hs ?_
  unfold execRepeaterFchgAtRx
  rw [State.after_next]
  repeat' first
    | with_reducible exact Keeps.refl _
    | with_reducible apply State.repeaterFchgAtRx_keeps

theorem State.repeaterCalRx_keeps {u : State} {s : State} {r taps : Nat} {noise : BitVec 128} (hs : Keeps u s) : Keeps u ((State.repeaterCalRx (s) (r) (taps) (noise))) := by
  refine Keeps.trans hs ?_
  unfold State.repeaterCalRx
  repeat' first
    | with_reducible exact Keeps.refl _
    | with_reducible assumption
    | (intro x; first | (refine Keeps.use (x := x) ?_ (fun hx => ?_); rotate_left; clear_value x; rotate_right; subst x) | clear_value x)
    | lift_lets -underBinder
    | with_reducible apply Keeps.ite
    | with_reducible apply State.wordTaken_keeps
    | with_reducible apply State.updRegion_keeps
    | split

theorem execRepeaterCalRx_keeps {u : State} {r roundTripTaps : Nat} {noise : BitVec 128} {s : State} (hs : Keeps u s) : Keeps u ((State.after (s) (execRepeaterCalRx (r) (roundTripTaps) (noise) (s)))) := by
  refine Keeps.trans hs ?_
  unfold execRepeaterCalRx
  rw [State.after_next]
  repeat' first
    | with_reducible exact Keeps.refl _
    | with_reducible apply State.repeaterCalRx_keeps

theorem execTbusAckRx_keeps {u : State} {r seq : Nat} {s : State} (hs : Keeps u s) : Keeps u ((State.after (s) (execTbusAckRx (r) (seq) (s)))) := by
  refine Keeps.trans hs ?_
  unfold execTbusAckRx
  rw [State.after_next]
  repeat' first
    | with_reducible exact Keeps.refl _
    | with_reducible apply State.updRegion_keeps

theorem State.tbusResend_keeps {u : State} {s : State} {r seq : Nat} (hs : Keeps u s) : Keeps u ((State.tbusResend (s) (r) (seq))) := by
  refine Keeps.trans hs ?_
  unfold State.tbusResend
  repeat' first
    | with_reducible exact Keeps.refl _
    | (intro x; clear_value x)
    | lift_lets -underBinder
    | with_reducible apply Keeps.ite
    | with_reducible apply State.updRegion_keeps
    | split

theorem execTbusResend_keeps {u : State} {r seq : Nat} {s : State} (hs : Keeps u s) : Keeps u ((State.after (s) (execTbusResend (r) (seq) (s)))) := by
  refine Keeps.trans hs ?_
  unfold execTbusResend
  rw [State.after_next]
  repeat' first
    | with_reducible exact Keeps.refl _
    | with_reducible apply State.tbusResend_keeps

theorem State.pmAnswer_keeps {u : State} {s : State} {a : PmAnswer} (hs : Keeps u s) : Keeps u ((State.pmAnswer (s) (a))) := by
  refine Keeps.trans hs ?_
  unfold State.pmAnswer
  repeat' first
    | with_reducible exact Keeps.refl _
    | ((with_reducible apply State.updTsu_keeps); focus (intro t; exact ⟨⟨rfl, fun h => h⟩, rfl⟩))

theorem State.fchgNak_keeps {u : State} {s : State} {reason : Nat} (hs : Keeps u s) : Keeps u ((State.fchgNak (s) (reason))) := by
  refine Keeps.trans hs ?_
  unfold State.fchgNak
  repeat' first
    | with_reducible exact Keeps.refl _
    | with_reducible assumption
    | (intro x; (refine Keeps.use (x := x) ?_ (fun hx => ?_); rotate_left; clear_value x; rotate_right; subst x))
    | lift_lets -underBinder
    | with_reducible apply State.logT_keeps
    | with_reducible apply State.pmAnswer_keeps
    | with_reducible apply State.setEvt_keeps
    | ((with_reducible apply State.updTsu_keeps); focus (intro t; exact ⟨⟨rfl, fun h => h⟩, rfl⟩))

theorem State.wordOver_keeps {u : State} {s : State} {r seq : Nat} (hs : Keeps u s) : Keeps u ((State.wordOver (s) (r) (seq))) := by
  refine Keeps.trans hs ?_
  unfold State.wordOver
  repeat' first
    | with_reducible exact Keeps.refl _
    | with_reducible apply State.updRegion_keeps

theorem State.lostOutcome_keeps {u : State} {s : State} {r : Nat} {w : BusWord} (hs : Keeps u s) : Keeps u ((State.lostOutcome (s) (r) (w))) := by
  refine Keeps.trans hs ?_
  unfold State.lostOutcome
  repeat' first
    | with_reducible exact Keeps.refl _
    | lift_lets -underBinder
    | with_reducible apply Keeps.ite
    | with_reducible apply State.fchgNak_keeps
    | with_reducible apply State.slotCancelled_keeps
    | with_reducible apply State.slotLost_keeps
    | with_reducible apply State.wordOver_keeps
    | with_reducible apply State.updRegion_keeps
    | split

theorem State.tbusDeliveryLimit_keeps {u : State} {s : State} {r seq : Nat} (hs : Keeps u s) : Keeps u ((State.tbusDeliveryLimit (s) (r) (seq))) := by
  refine Keeps.trans hs ?_
  unfold State.tbusDeliveryLimit
  repeat' first
    | with_reducible exact Keeps.refl _
    | lift_lets -underBinder
    | with_reducible apply Keeps.ite
    | with_reducible apply State.logT_keeps
    | with_reducible apply State.lostOutcome_keeps
    | with_reducible apply State.updRegion_keeps
    | split

theorem execTbusDeliveryLimit_keeps {u : State} {r seq : Nat} {s : State} (hs : Keeps u s) : Keeps u ((State.after (s) (execTbusDeliveryLimit (r) (seq) (s)))) := by
  refine Keeps.trans hs ?_
  unfold execTbusDeliveryLimit
  rw [State.after_next]
  repeat' first
    | with_reducible exact Keeps.refl _
    | with_reducible apply State.tbusDeliveryLimit_keeps

theorem execRecal_keeps {u : State} {s : State} (hs : Keeps u s) : Keeps u ((State.after (s) (execRecal (s)))) := by
  refine Keeps.trans hs ?_
  unfold execRecal
  rw [State.after_next]
  repeat' first
    | with_reducible exact Keeps.refl _
    | with_reducible apply State.updRegions_keeps

theorem State.tbusCalDone_keeps {u : State} {s : State} {r : Nat} (hs : Keeps u s) : Keeps u ((State.tbusCalDone (s) (r))) := by
  refine Keeps.trans hs ?_
  unfold State.tbusCalDone
  repeat' first
    | with_reducible exact Keeps.refl _
    | with_reducible assumption
    | (intro x; first | (refine Keeps.use (x := x) ?_ (fun hx => ?_); rotate_left; clear_value x; rotate_right; subst x) | (have hf := funext (f := x) (g := x) (fun _ => rfl); clear hf; subst x) | clear_value x)
    | lift_lets -underBinder
    | with_reducible apply Keeps.ite
    | with_reducible apply State.logT_keeps
    | with_reducible apply State.setEvt_keeps
    | with_reducible apply State.updateLead_keeps
    | with_reducible apply State.updRegion_keeps

theorem execTbusCalDone_keeps {u : State} {r : Nat} {s : State} (hs : Keeps u s) : Keeps u ((State.after (s) (execTbusCalDone (r) (s)))) := by
  refine Keeps.trans hs ?_
  unfold execTbusCalDone
  rw [State.after_next]
  repeat' first
    | with_reducible exact Keeps.refl _
    | with_reducible apply State.tbusCalDone_keeps

theorem State.bgRecal_keeps {u : State} {s : State} (hs : Keeps u s) : Keeps u ((State.bgRecal (s))) := by
  refine Keeps.trans hs ?_
  unfold State.bgRecal
  repeat' first
    | with_reducible exact Keeps.refl _
    | (intro x; clear_value x)
    | lift_lets -underBinder
    | with_reducible apply Keeps.ite
    | with_reducible apply State.updRegions_keeps

theorem execBgRecal_keeps {u : State} {s : State} (hs : Keeps u s) : Keeps u ((State.after (s) (execBgRecal (s)))) := by
  refine Keeps.trans hs ?_
  unfold execBgRecal
  rw [State.after_next]
  repeat' first
    | with_reducible exact Keeps.refl _
    | with_reducible apply State.bgRecal_keeps

theorem State.regionWakeRaise_keeps {u : State} {s : State} {r slot : Nat} (hs : Keeps u s) : Keeps u ((State.regionWakeRaise (s) (r) (slot))) := by
  refine Keeps.trans hs ?_
  unfold State.regionWakeRaise
  repeat' first
    | with_reducible exact Keeps.refl _
    | (intro x; clear_value x)
    | lift_lets -underBinder
    | with_reducible apply Keeps.ite
    | with_reducible apply State.updRegion_keeps
    | split

theorem execRegionWakeRaise_keeps {u : State} {r slot : Nat} {s : State} (hs : Keeps u s) : Keeps u ((State.after (s) (execRegionWakeRaise (r) (slot) (s)))) := by
  refine Keeps.trans hs ?_
  unfold execRegionWakeRaise
  rw [State.after_next]
  repeat' first
    | with_reducible exact Keeps.refl _
    | with_reducible apply State.regionWakeRaise_keeps

theorem State.strobeFire_keeps {u : State} {s : State} {r slot : Nat} (hs : Keeps u s) : Keeps u ((State.strobeFire (s) (r) (slot))) := by
  refine Keeps.trans hs ?_
  unfold State.strobeFire
  repeat' first
    | with_reducible exact Keeps.refl _
    | with_reducible assumption
    | (intro x; first | (refine Keeps.use (x := x) ?_ (fun hx => ?_); rotate_left; clear_value x; rotate_right; subst x) | clear_value x)
    | lift_lets -underBinder
    | with_reducible apply Keeps.ite
    | with_reducible apply State.strobe_keeps
    | with_reducible apply State.wakeCheck_keeps
    | with_reducible apply State.updRegion_keeps
    | split

theorem execStrobeFire_keeps {u : State} {r slot : Nat} {s : State} (hs : Keeps u s) : Keeps u ((State.after (s) (execStrobeFire (r) (slot) (s)))) := by
  refine Keeps.trans hs ?_
  unfold execStrobeFire
  rw [State.after_next]
  repeat' first
    | with_reducible exact Keeps.refl _
    | with_reducible apply State.strobeFire_keeps

theorem State.pmFchgReq_keeps {u : State} {s : State} {regions code : Byte} (hs : Keeps u s) : Keeps u ((State.pmFchgReq (s) (regions) (code))) := by
  refine Keeps.trans hs ?_
  unfold State.pmFchgReq
  repeat' first
    | with_reducible exact Keeps.refl _
    | with_reducible assumption
    | (intro x; first | (refine Keeps.use (x := x) ?_ (fun hx => ?_); rotate_left; clear_value x; rotate_right; subst x) | clear_value x | skip)
    | lift_lets -underBinder
    | with_reducible apply Keeps.ite
    | with_reducible apply State.busSend_keeps
    | with_reducible apply State.fchgNak_keeps
    | with_reducible apply State.pmAnswer_keeps
    | ((with_reducible apply State.updTsu_keeps); focus (intro t; exact ⟨⟨rfl, fun h => h⟩, rfl⟩))
    | with_reducible apply State.updRegion_keeps
    | with_reducible apply Keeps.foldl

theorem execPmFchgReq_keeps {u : State} {regions code : Byte} {s : State} (hs : Keeps u s) : Keeps u ((State.after (s) (execPmFchgReq (regions) (code) (s)))) := by
  refine Keeps.trans hs ?_
  unfold execPmFchgReq
  rw [State.after_next]
  repeat' first
    | with_reducible exact Keeps.refl _
    | with_reducible apply State.pmFchgReq_keeps

theorem State.rgSwitch_keeps {u : State} {s : State} {r : Nat} (hs : Keeps u s) : Keeps u ((State.rgSwitch (s) (r))) := by
  refine Keeps.trans hs ?_
  unfold State.rgSwitch
  repeat' first
    | with_reducible exact Keeps.refl _
    | (intro x; clear_value x)
    | lift_lets -underBinder
    | with_reducible apply Keeps.ite
    | with_reducible apply State.updRegion_keeps
    | split

theorem execRgSwitch_keeps {u : State} {r : Nat} {s : State} (hs : Keeps u s) : Keeps u ((State.after (s) (execRgSwitch (r) (s)))) := by
  refine Keeps.trans hs ?_
  unfold execRgSwitch
  rw [State.after_next]
  repeat' first
    | with_reducible exact Keeps.refl _
    | with_reducible apply State.rgSwitch_keeps

theorem execRegionRateWindow_keeps {u : State} {r edges maxPeriod : Nat} {running : Bool} {s : State} (hs : Keeps u s) : Keeps u ((State.after (s) (execRegionRateWindow (r) (edges) (maxPeriod) (running) (s)))) := by
  refine Keeps.trans hs ?_
  unfold execRegionRateWindow
  rw [State.after_next]
  repeat' first
    | with_reducible exact Keeps.refl _
    | with_reducible apply State.updRegion_keeps

theorem execLpFenceDone_keeps {u : State} {port : Nat} {s : State} (hs : Keeps u s) : Keeps u ((State.after (s) (execLpFenceDone (port) (s)))) := by
  refine Keeps.trans hs ?_
  unfold execLpFenceDone
  rw [State.after_next]
  repeat' first
    | with_reducible exact Keeps.refl _
    | with_reducible apply State.fenceTaken_keeps

theorem execFenceHung_keeps {u : State} {port : Nat} {s : State} (hs : Keeps u s) : Keeps u ((State.after (s) (execFenceHung (port) (s)))) := by
  refine Keeps.trans hs ?_
  unfold execFenceHung
  rw [State.after_next]
  repeat' first
    | with_reducible exact Keeps.refl _
    | with_reducible apply State.fenceTaken_keeps

theorem State.regionRst_keeps {u : State} {s : State} {r : Nat} (hs : Keeps u s) : Keeps u ((State.regionRst (s) (r))) := by
  refine Keeps.trans hs ?_
  unfold State.regionRst
  repeat' first
    | with_reducible exact Keeps.refl _
    | with_reducible assumption
    | (intro x; first | (refine Keeps.use (x := x) ?_ (fun hx => ?_); rotate_left; clear_value x; rotate_right; subst x) | clear_value x | skip)
    | lift_lets -underBinder
    | with_reducible apply Keeps.ite
    | with_reducible apply State.fchgNak_keeps
    | with_reducible apply State.portReset_keeps
    | with_reducible apply State.setReg_keeps
    | with_reducible apply State.slotLost_keeps
    | ((with_reducible apply State.updCom_keeps); focus (intro t; exact ⟨rfl, fun h => h⟩))
    | with_reducible apply State.updRegion_keeps
    | with_reducible apply Keeps.foldl

theorem execRegionRst_keeps {u : State} {r : Nat} {s : State} (hs : Keeps u s) : Keeps u ((State.after (s) (execRegionRst (r) (s)))) := by
  refine Keeps.trans hs ?_
  unfold execRegionRst
  rw [State.after_next]
  repeat' first
    | with_reducible exact Keeps.refl _
    | with_reducible apply State.regionRst_keeps

end Sys2Proof.Machine
end

