-- ==== Sys2Proof/Laws/FrameSides.lean ====
section
/-! SUPPORT. What the operations of `Sys2Proof.Machine.Sides` leave alone, one lemma per operation. -/

namespace Sys2Proof.Machine

open Sys2Proof

set_option linter.unusedVariables false

theorem State.sideSend_keeps {u : State} {s : State} {i : Nat} {sideB : Bool} {f : Frame} (hs : Keeps u s) : Keeps u ((State.sideSend (s) (i) (sideB) (f))) := by
  refine Keeps.trans hs ?_
  unfold State.sideSend
  repeat' first
    | with_reducible exact Keeps.refl _
    | with_reducible assumption
    | (intro x; first | (refine Keeps.use (x := x) ?_ (fun hx => ?_); rotate_left; clear_value x; rotate_right; subst x) | clear_value x)
    | lift_lets -underBinder
    | with_reducible apply Keeps.ite
    | with_reducible apply State.send_keeps
    | split

theorem State.childTaken_keeps {u : State} {s : State} {i : Nat} {sideB : Bool} (hs : Keeps u s) : Keeps u ((State.childTaken (s) (i) (sideB))) := by
  refine Keeps.trans hs ?_
  unfold State.childTaken
  repeat' first
    | with_reducible exact Keeps.refl _
    | lift_lets -underBinder
    | with_reducible apply State.unhold_keeps
    | ((with_reducible apply State.updGd_keeps); focus (intro t; exact ⟨⟨rfl, fun h => h⟩, rfl⟩))

theorem execSideWaitExpiry_keeps {u : State} {child : Nat} {s : State} (hs : Keeps u s) : Keeps u ((State.after (s) (execSideWaitExpiry (child) (s)))) := by
  refine Keeps.trans hs ?_
  unfold execSideWaitExpiry
  rw [State.after_next]
  repeat' first
    | with_reducible exact Keeps.refl _
    | with_reducible apply Keeps.ite
    | with_reducible apply State.childTaken_keeps
    | with_reducible apply State.sideSend_keeps
    | split

theorem State.sideRx_keeps {u s : State} {l : LinkId} {rx : Rx} {op : Nat} {mine : State → Frame → State}
    {child : State → Nat → Bool → Frame → State} (k_mine : ∀ x f, Keeps x (mine x f))
    (k_child : ∀ x i b f, Keeps x (child x i b f)) (hs : Keeps u s) : Keeps u (s.sideRx l rx op mine child) := by
  unfold State.sideRx
  have h := State.recvOp_keeps (l := l) (rx := rx) (type := 0x1A) (op := op) hs
  split
  · exact hs
  · revert h
    generalize s.recvOp l rx 0x1A op = p
    intro h
    obtain ⟨x, _ | f⟩ := p
    · exact h
    · simp only []
      refine Keeps.ite h (Keeps.ite (Keeps.ite (h.trans (k_mine _ _)) h) (Keeps.ite ?_ (State.malformed_keeps h)))
      split
      · exact Keeps.ite (State.send_keeps (h.trans (k_child ..))) (h.trans (k_child ..))
      · exact h

theorem State.sideTaken_keeps {u : State} {s : State} (hs : Keeps u s) : Keeps u ((State.sideTaken (s))) := by
  refine Keeps.trans hs ?_
  unfold State.sideTaken
  repeat' first
    | with_reducible exact Keeps.refl _
    | with_reducible assumption
    | (intro x; (refine Keeps.use (x := x) ?_ (fun hx => ?_); rotate_left; clear_value x; rotate_right; subst x))
    | lift_lets -underBinder
    | with_reducible apply State.fullCensus_keeps
    | with_reducible apply State.logG_keeps
    | ((with_reducible apply State.updGd_keeps); focus (intro t; exact ⟨⟨rfl, fun h => h⟩, rfl⟩))

theorem execSideTakeRx_keeps {u : State} {l : LinkId} {rx : Rx} {s : State} (hs : Keeps u s) : Keeps u ((State.after (s) (execSideTakeRx (l) (rx) (s)))) := by
  refine Keeps.trans hs ?_
  unfold execSideTakeRx
  rw [State.after_next]
  repeat' first
    | with_reducible exact Keeps.refl _
    | intro x
    | lift_lets -underBinder
    | with_reducible apply State.childTaken_keeps
    | with_reducible apply State.cutThrough_keeps
    | with_reducible apply State.sideRx_keeps
    | with_reducible apply State.sideTaken_keeps

theorem State.sideReturnDue_keeps {u : State} {s : State} {i : Nat} (hs : Keeps u s) : Keeps u ((State.sideReturnDue (s) (i))) := by
  refine Keeps.trans hs ?_
  unfold State.sideReturnDue
  repeat' first
    | with_reducible exact Keeps.refl _
    | with_reducible assumption
    | (intro x; first | (refine Keeps.use (x := x) ?_ (fun hx => ?_); rotate_left; clear_value x; rotate_right; subst x) | clear_value x | skip)
    | lift_lets -underBinder
    | with_reducible apply Keeps.ite
    | with_reducible apply State.sideSend_keeps
    | with_reducible apply State.unhold_keeps
    | ((with_reducible apply State.updGd_keeps); focus (intro t; exact ⟨⟨rfl, fun h => h⟩, rfl⟩))
    | split

theorem execSideReturnDue_keeps {u : State} {child : Nat} {s : State} (hs : Keeps u s) : Keeps u ((State.after (s) (execSideReturnDue (child) (s)))) := by
  refine Keeps.trans hs ?_
  unfold execSideReturnDue
  rw [State.after_next]
  repeat' first
    | with_reducible exact Keeps.refl _
    | with_reducible apply State.sideReturnDue_keeps

theorem execSideReturnRx_keeps {u : State} {l : LinkId} {rx : Rx} {s : State} (hs : Keeps u s) : Keeps u ((State.after (s) (execSideReturnRx (l) (rx) (s)))) := by
  refine Keeps.trans hs ?_
  unfold execSideReturnRx
  rw [State.after_next]
  repeat' first
    | with_reducible exact Keeps.refl _
    | intro x
    | lift_lets -underBinder
    | with_reducible apply Keeps.ite
    | with_reducible apply State.cutThrough_keeps
    | with_reducible apply State.sideRx_keeps
    | ((with_reducible apply State.updGd_keeps); focus (intro t; exact ⟨⟨rfl, fun h => h⟩, rfl⟩))

end Sys2Proof.Machine
end

