-- ==== Sys2Proof/Laws/FrameStarts.lean ====
section
/-! SUPPORT. What the operations of `Sys2Proof.Machine.Starts` leave alone, one lemma per operation. -/

namespace Sys2Proof.Machine

open Sys2Proof

set_option linter.unusedVariables false

theorem State.ctlDown_keeps {u : State} {s : State} {l : LinkId} {f : Frame} (hs : Keeps u s) : Keeps u ((State.ctlDown (s) (l) (f)).1) := by
  refine Keeps.trans hs ?_
  unfold State.ctlDown
  repeat' first
    | with_reducible exact Keeps.refl _
    | with_reducible apply State.logG_keeps
    | with_reducible apply State.malformed_keeps
    | split

theorem State.teardownTsu_keeps {u : State} {s : State} {lane : Nat} {tag : BitVec 24} (hs : Keeps u s) : Keeps u ((State.teardownTsu (s) (lane) (tag))) := by
  refine Keeps.trans hs ?_
  unfold State.teardownTsu
  repeat' first
    | with_reducible exact Keeps.refl _
    | lift_lets -underBinder
    | with_reducible apply Keeps.ite
    | with_reducible apply State.logT_keeps
    | with_reducible apply State.tsuTear_keeps
    | ((with_reducible apply State.updTsu_keeps); focus (intro t; exact ⟨⟨rfl, fun h => h⟩, rfl⟩))
    | split

theorem execTeardownRx_keeps {u : State} {l : LinkId} {rx : Rx} {s : State} (hs : Keeps u s) : Keeps u ((State.after (s) (execTeardownRx (l) (rx) (s)))) := by
  refine Keeps.trans hs ?_
  unfold execTeardownRx
  rw [State.after_next]
  repeat' first
    | with_reducible exact Keeps.refl _
    | lift_lets -underBinder
    | with_reducible apply State.ctlDown_keeps
    | with_reducible apply State.cutThrough_keeps
    | with_reducible apply State.recvOp_keeps
    | with_reducible apply State.tearDom_keeps
    | with_reducible apply State.teardownTsu_keeps
    | with_reducible apply State.updDom_keeps
    | split
    | with_reducible refine Keeps.ofPair (by with_reducible assumption) ?_

theorem State.tornSend_keeps {u : State} {s : State} {tag : BitVec 24} (hs : Keeps u s) : Keeps u ((State.tornSend (s) (tag))) := by
  refine Keeps.trans hs ?_
  unfold State.tornSend
  repeat' first
    | with_reducible exact Keeps.refl _
    | lift_lets -underBinder
    | with_reducible apply Keeps.ite
    | with_reducible apply State.tsuUp_keeps
    | ((with_reducible apply State.updTsu_keeps); focus (intro t; exact ⟨⟨rfl, fun h => h⟩, rfl⟩))
    | split

theorem execTornSend_keeps {u : State} {tag : BitVec 24} {s : State} (hs : Keeps u s) : Keeps u ((State.after (s) (execTornSend (tag) (s)))) := by
  refine Keeps.trans hs ?_
  unfold execTornSend
  rw [State.after_next]
  repeat' first
    | with_reducible exact Keeps.refl _
    | with_reducible apply State.tornSend_keeps

theorem State.domRelease_keeps {u : State} {s : State} {d : GdDom} {only : Bool} (hs : Keeps u s) : Keeps u ((State.domRelease (s) (d) (only))) := by
  refine Keeps.trans hs ?_
  unfold State.domRelease
  repeat' first
    | with_reducible exact Keeps.refl _
    | with_reducible apply State.domDown_keeps
    | with_reducible apply State.freeDom_keeps

theorem State.tornCheck_keeps {u : State} {s : State} {tag : BitVec 24} {expired : Bool} (hs : Keeps u s) : Keeps u ((State.tornCheck (s) (tag) (expired))) := by
  refine Keeps.trans hs ?_
  unfold State.tornCheck
  repeat' first
    | with_reducible exact Keeps.refl _
    | with_reducible assumption
    | (intro x; first | (refine Keeps.use (x := x) ?_ (fun hx => ?_); rotate_left; clear_value x; rotate_right; subst x) | clear_value x)
    | lift_lets -underBinder
    | with_reducible apply Keeps.ite
    | with_reducible apply State.domRelease_keeps
    | with_reducible apply State.gdUp_keeps
    | with_reducible apply State.updDom_keeps
    | split

theorem State.tornRx_keeps {u : State} {s : State} {l : LinkId} {f : Frame} (hs : Keeps u s) : Keeps u ((State.tornRx (s) (l) (f))) := by
  refine Keeps.trans hs ?_
  unfold State.tornRx
  repeat' first
    | with_reducible exact Keeps.refl _
    | lift_lets -underBinder
    | with_reducible apply Keeps.ite
    | with_reducible apply State.logG_keeps
    | with_reducible apply State.tornCheck_keeps
    | with_reducible apply State.upPart_keeps
    | with_reducible apply State.updDom_keeps
    | split
    | with_reducible refine Keeps.ofPair (by with_reducible assumption) ?_

theorem execTornRx_keeps {u : State} {l : LinkId} {rx : Rx} {s : State} (hs : Keeps u s) : Keeps u ((State.after (s) (execTornRx (l) (rx) (s)))) := by
  refine Keeps.trans hs ?_
  unfold execTornRx
  rw [State.after_next]
  repeat' first
    | with_reducible exact Keeps.refl _
    | with_reducible apply Keeps.ite
    | with_reducible apply State.cutThrough_keeps
    | with_reducible apply State.recvOp_keeps
    | with_reducible apply State.tornRx_keeps
    | split
    | with_reducible refine Keeps.ofPair (by with_reducible assumption) ?_

theorem execTornWaitExpiry_keeps {u : State} {tag : BitVec 24} {s : State} (hs : Keeps u s) : Keeps u ((State.after (s) (execTornWaitExpiry (tag) (s)))) := by
  refine Keeps.trans hs ?_
  unfold execTornWaitExpiry
  rw [State.after_next]
  repeat' first
    | with_reducible exact Keeps.refl _
    | with_reducible apply State.tornCheck_keeps

theorem execDomainReleaseRx_keeps {u : State} {l : LinkId} {rx : Rx} {s : State} (hs : Keeps u s) : Keeps u ((State.after (s) (execDomainReleaseRx (l) (rx) (s)))) := by
  refine Keeps.trans hs ?_
  unfold execDomainReleaseRx
  rw [State.after_next]
  repeat' first
    | with_reducible exact Keeps.refl _
    | lift_lets -underBinder
    | with_reducible apply State.ctlDown_keeps
    | with_reducible apply State.cutThrough_keeps
    | with_reducible apply State.domRelease_keeps
    | with_reducible apply State.freeDom_keeps
    | with_reducible apply State.recvOp_keeps
    | ((with_reducible apply State.updTsu_keeps); focus (intro t; exact ⟨⟨rfl, fun h => h⟩, rfl⟩))
    | split
    | with_reducible refine Keeps.ofPair (by with_reducible assumption) ?_

theorem execDomainReadyRx_keeps {u : State} {l : LinkId} {rx : Rx} {s : State} (hs : Keeps u s) : Keeps u ((State.after (s) (execDomainReadyRx (l) (rx) (s)))) := by
  refine Keeps.trans hs ?_
  unfold execDomainReadyRx
  rw [State.after_next]
  repeat' first
    | with_reducible exact Keeps.refl _
    | lift_lets -underBinder
    | with_reducible apply Keeps.ite
    | with_reducible apply State.cutThrough_keeps
    | with_reducible apply State.logG_keeps
    | with_reducible apply State.readyCheck_keeps
    | with_reducible apply State.recvOp_keeps
    | with_reducible apply State.upPart_keeps
    | with_reducible apply State.updDom_keeps
    | split
    | with_reducible refine Keeps.ofPair (by with_reducible assumption) ?_

theorem State.openTsu_keeps {u : State} {s : State} {tag : BitVec 24} (hs : Keeps u s) : Keeps u ((State.openTsu (s) (tag))) := by
  refine Keeps.trans hs ?_
  unfold State.openTsu
  repeat' first
    | with_reducible exact Keeps.refl _
    | with_reducible assumption
    | (intro x; first | (refine Keeps.use (x := x) ?_ (fun hx => ?_); rotate_left; clear_value x; rotate_right; subst x) | clear_value x | skip)
    | lift_lets -underBinder
    | with_reducible apply Keeps.ite
    | with_reducible apply State.emptyOpens_keeps
    | with_reducible apply State.updBinding_keeps
    | with_reducible apply State.updTumb_keeps
    | ((with_reducible apply State.updTsu_keeps); focus (intro t; exact ⟨⟨rfl, fun h => h⟩, rfl⟩))
    | with_reducible apply Keeps.foldl
    | split

theorem execDomainOpenRx_keeps {u : State} {l : LinkId} {rx : Rx} {s : State} (hs : Keeps u s) : Keeps u ((State.after (s) (execDomainOpenRx (l) (rx) (s)))) := by
  refine Keeps.trans hs ?_
  unfold execDomainOpenRx
  rw [State.after_next]
  repeat' first
    | with_reducible exact Keeps.refl _
    | lift_lets -underBinder
    | with_reducible apply Keeps.ite
    | with_reducible apply State.ctlDown_keeps
    | with_reducible apply State.cutThrough_keeps
    | with_reducible apply State.domDown_keeps
    | with_reducible apply State.logT_keeps
    | with_reducible apply State.openTsu_keeps
    | with_reducible apply State.recvOp_keeps
    | with_reducible apply State.updDom_keeps
    | split
    | with_reducible refine Keeps.ofPair (by with_reducible assumption) ?_

theorem execDomainReserve_keeps {u : State} {tag : BitVec 24} {s : State} (hs : Keeps u s) : Keeps u ((State.after (s) (execDomainReserve (tag) (s)))) := by
  refine Keeps.trans hs ?_
  unfold execDomainReserve
  rw [State.after_next]
  repeat' first
    | with_reducible exact Keeps.refl _
    | with_reducible apply State.reserveDom_keeps

end Sys2Proof.Machine
end

