-- ==== Sys2Proof/Laws/PerInstr.lean ====
section
/-! SUPPORT. What holds of each command as syntax: how the lists of commands of the safety file lie within one another. The
host splits a statement about every command by these lemmas. -/

namespace Sys2Proof.Laws.Listed

open Sys2Proof

/-- A command that may write OWNER_LOCK is one that may move custody, and a
command that may move a counter is one that may change a time domain. -/
def Statement (c : Instr) : Prop :=
  (c.writesOwnerLock = true → c.custodial = true) ∧ (c.moves = true → c.timed = true)

theorem timeClockTick (x0 : Node) : Statement (.timeClockTick x0) := ⟨nofun, fun _ => rfl⟩
theorem tdreset (x0 : Bool) : Statement (.tdreset x0) := ⟨nofun, fun _ => rfl⟩
theorem standaloneWrite (x0 : Bool) : Statement (.standaloneWrite x0) := ⟨nofun, fun _ => rfl⟩
theorem addendCommit (x0 : Word) : Statement (.addendCommit x0) := ⟨nofun, nofun⟩
theorem pllLockLoss (x0 : Node) : Statement (.pllLockLoss x0) := ⟨nofun, fun _ => rfl⟩
theorem pllRelock (x0 : Node) : Statement (.pllRelock x0) := ⟨nofun, fun _ => rfl⟩
theorem timeDomainPowerOn (x0 : Node) : Statement (.timeDomainPowerOn x0) := ⟨nofun, fun _ => rfl⟩
theorem restep (x0 : Access) : Statement (.restep x0) := ⟨nofun, nofun⟩
theorem qualHoldMet (x0 : Node) : Statement (.qualHoldMet x0) := ⟨nofun, nofun⟩
theorem qualDropMet (x0 : Node) : Statement (.qualDropMet x0) := ⟨nofun, nofun⟩
theorem flywheelLimit (x0 : Node) : Statement (.flywheelLimit x0) := ⟨nofun, nofun⟩
theorem leapSecondApply (x0 : Node) : Statement (.leapSecondApply x0) := ⟨nofun, nofun⟩
theorem timeFrameSend (x0 : LinkId) (x1 : Int) : Statement (.timeFrameSend x0 x1) := ⟨nofun, nofun⟩
theorem timeFrameRx (x0 : LinkId) (x1 : Rx) (x2 : Int) : Statement (.timeFrameRx x0 x1 x2) := ⟨nofun, fun _ => rfl⟩
theorem delayMeasurementDone (x0 : LinkId) : Statement (.delayMeasurementDone x0) := ⟨nofun, nofun⟩
theorem delayRestart (x0 : LinkId) : Statement (.delayRestart x0) := ⟨nofun, nofun⟩
theorem timeLoss (x0 : LinkId) : Statement (.timeLoss x0) := ⟨nofun, nofun⟩
theorem sourceSwitchBetter (x0 : LinkId) : Statement (.sourceSwitchBetter x0) := ⟨nofun, nofun⟩
theorem refPpsEdge (x0 : Nat) (x1 : Int) : Statement (.refPpsEdge x0 x1) := ⟨nofun, nofun⟩
theorem todMessageRx (x0 : Nat) (x1 : Int) (x2 : Nat) (x3 : Bool) (x4 : UtcNews) : Statement (.todMessageRx x0 x1 x2 x3 x4) := ⟨nofun, nofun⟩
theorem ptpMessageRx (x0 : Nat) (x1 : PtpMessage) : Statement (.ptpMessageRx x0 x1) := ⟨nofun, nofun⟩
theorem esmcMessageRx (x0 : Nat) (x1 : EsmcLevel) : Statement (.esmcMessageRx x0 x1) := ⟨nofun, nofun⟩
theorem refLossTimeout (x0 : Nat) (x1 : RefLoss) : Statement (.refLossTimeout x0 x1) := ⟨nofun, nofun⟩
theorem refQualified (x0 : Nat) : Statement (.refQualified x0) := ⟨nofun, nofun⟩
theorem wtrExpiry (x0 : Nat) : Statement (.wtrExpiry x0) := ⟨nofun, nofun⟩
theorem forceEntryWrite (x0 : Access) (x1 : Word) : Statement (.forceEntryWrite x0 x1) := ⟨nofun, nofun⟩
theorem ptpMasterSend (x0 : Nat) : Statement (.ptpMasterSend x0) := ⟨nofun, nofun⟩
theorem repeaterSyncRx (x0 : Nat) (x1 : BitVec 32) (x2 : BitVec 32) (x3 : BitVec 64) : Statement (.repeaterSyncRx x0 x1 x2 x3) := ⟨nofun, nofun⟩
theorem repeaterAddendRx (x0 : Nat) (x1 : BitVec 6) (x2 : BitVec 36) (x3 : BitVec 64) (x4 : BitVec 22) : Statement (.repeaterAddendRx x0 x1 x2 x3 x4) := ⟨nofun, nofun⟩
theorem repeaterLaunchAtRx (x0 : Nat) (x1 : BitVec 6) (x2 : BitVec 32) (x3 : BitVec 16) (x4 : BitVec 4) (x5 : BitVec 1) (x6 : BitVec 69) : Statement (.repeaterLaunchAtRx x0 x1 x2 x3 x4 x5 x6) := ⟨nofun, nofun⟩
theorem repeaterCancelRx (x0 : Nat) (x1 : BitVec 6) (x2 : BitVec 4) (x3 : BitVec 118) : Statement (.repeaterCancelRx x0 x1 x2 x3) := ⟨nofun, nofun⟩
theorem repeaterFchgAtRx (x0 : Nat) (x1 : BitVec 6) (x2 : BitVec 32) (x3 : BitVec 8) (x4 : BitVec 82) : Statement (.repeaterFchgAtRx x0 x1 x2 x3 x4) := ⟨nofun, nofun⟩
theorem repeaterCalRx (x0 : Nat) (x1 : Nat) (x2 : BitVec 128) : Statement (.repeaterCalRx x0 x1 x2) := ⟨nofun, nofun⟩
theorem tbusAckRx (x0 : Nat) (x1 : Nat) : Statement (.tbusAckRx x0 x1) := ⟨nofun, nofun⟩
theorem tbusResend (x0 : Nat) (x1 : Nat) : Statement (.tbusResend x0 x1) := ⟨nofun, nofun⟩
theorem tbusDeliveryLimit (x0 : Nat) (x1 : Nat) : Statement (.tbusDeliveryLimit x0 x1) := ⟨nofun, nofun⟩
theorem tbusCalDone (x0 : Nat) : Statement (.tbusCalDone x0) := ⟨nofun, nofun⟩
theorem launchAtSend (x0 : Nat) : Statement (.launchAtSend x0) := ⟨nofun, nofun⟩
theorem strobeFire (x0 : Nat) (x1 : Nat) : Statement (.strobeFire x0 x1) := ⟨nofun, nofun⟩
theorem regionWakeRaise (x0 : Nat) (x1 : Nat) : Statement (.regionWakeRaise x0 x1) := ⟨nofun, nofun⟩
theorem pmFchgReq (x0 : Byte) (x1 : Byte) : Statement (.pmFchgReq x0 x1) := ⟨nofun, nofun⟩
theorem rgSwitch (x0 : Nat) : Statement (.rgSwitch x0) := ⟨nofun, nofun⟩
theorem regionRateWindow (x0 : Nat) (x1 : Nat) (x2 : Nat) (x3 : Bool) : Statement (.regionRateWindow x0 x1 x2 x3) := ⟨nofun, nofun⟩
theorem lpFenceDone (x0 : Nat) : Statement (.lpFenceDone x0) := ⟨nofun, nofun⟩
theorem fenceHung (x0 : Nat) : Statement (.fenceHung x0) := ⟨nofun, nofun⟩
theorem regionRst (x0 : Nat) : Statement (.regionRst x0) := ⟨nofun, nofun⟩
theorem trainingAttempt (x0 : LinkId) : Statement (.trainingAttempt x0) := ⟨nofun, nofun⟩
theorem attemptFail (x0 : LinkId) : Statement (.attemptFail x0) := ⟨nofun, nofun⟩
theorem rateSearchSwitch (x0 : LinkId) : Statement (.rateSearchSwitch x0) := ⟨nofun, nofun⟩
theorem rxLock (x0 : LinkId) (x1 : Bool) : Statement (.rxLock x0 x1) := ⟨nofun, nofun⟩
theorem pmdConverged (x0 : LinkId) : Statement (.pmdConverged x0) := ⟨nofun, nofun⟩
theorem blockLockAcquired (x0 : LinkId) : Statement (.blockLockAcquired x0) := ⟨nofun, nofun⟩
theorem frameLockAcquired (x0 : LinkId) : Statement (.frameLockAcquired x0) := ⟨nofun, nofun⟩
theorem trainFrameRx (x0 : LinkId) (x1 : Rx) : Statement (.trainFrameRx x0 x1) := ⟨nofun, nofun⟩
theorem blockLockLoss (x0 : LinkId) : Statement (.blockLockLoss x0) := ⟨nofun, nofun⟩
theorem frameLockLoss (x0 : LinkId) : Statement (.frameLockLoss x0) := ⟨nofun, nofun⟩
theorem linkBerExceeded (x0 : LinkId) : Statement (.linkBerExceeded x0) := ⟨nofun, nofun⟩
theorem laneEnWrite (x0 : BitVec 2) : Statement (.laneEnWrite x0) := ⟨nofun, nofun⟩
theorem retrain (x0 : LinkId) : Statement (.retrain x0) := ⟨nofun, nofun⟩
theorem cntClear (x0 : LinkId) : Statement (.cntClear x0) := ⟨nofun, nofun⟩
theorem redundancyLost (x0 : Node) : Statement (.redundancyLost x0) := ⟨nofun, nofun⟩
theorem dieAbsent (x0 : Nat) (x1 : Bool) : Statement (.dieAbsent x0 x1) := ⟨nofun, nofun⟩
theorem slotTransmit (x0 : LinkId) : Statement (.slotTransmit x0) := ⟨nofun, nofun⟩
theorem uncorrectableSlot (x0 : LinkId) (x1 : Bool) : Statement (.uncorrectableSlot x0 x1) := ⟨nofun, nofun⟩
theorem linkctlRx (x0 : LinkId) (x1 : Rx) : Statement (.linkctlRx x0 x1) := ⟨nofun, nofun⟩
theorem nakResend (x0 : LinkId) : Statement (.nakResend x0) := ⟨nofun, nofun⟩
theorem replayFailure (x0 : LinkId) : Statement (.replayFailure x0) := ⟨nofun, nofun⟩
theorem creditReturnDue (x0 : LinkId) : Statement (.creditReturnDue x0) := ⟨nofun, nofun⟩
theorem linkctlKeepalive (x0 : LinkId) : Statement (.linkctlKeepalive x0) := ⟨nofun, nofun⟩
theorem degradeLimitExceeded (x0 : LinkId) : Statement (.degradeLimitExceeded x0) := ⟨nofun, nofun⟩
theorem idleFrameRx (x0 : LinkId) (x1 : Rx) : Statement (.idleFrameRx x0 x1) := ⟨nofun, nofun⟩
theorem bulkOpenRx (x0 : LinkId) (x1 : Rx) : Statement (.bulkOpenRx x0 x1) := ⟨nofun, nofun⟩
theorem bulkDataRx (x0 : LinkId) (x1 : Rx) : Statement (.bulkDataRx x0 x1) := ⟨nofun, nofun⟩
theorem bulkCloseRx (x0 : LinkId) (x1 : Rx) : Statement (.bulkCloseRx x0 x1) := ⟨nofun, nofun⟩
theorem bulkChunkDrop (x0 : Nat) (x1 : Nat) (x2 : Nat) : Statement (.bulkChunkDrop x0 x1 x2) := ⟨nofun, nofun⟩
theorem bulkRxTimeout (x0 : Node) (x1 : Nat) : Statement (.bulkRxTimeout x0 x1) := ⟨nofun, nofun⟩
theorem tumblerCreate (x0 : Nat) (x1 : Nat) : Statement (.tumblerCreate x0 x1) := ⟨nofun, nofun⟩
theorem tumblerClose (x0 : Nat) (x1 : Nat) : Statement (.tumblerClose x0 x1) := ⟨nofun, nofun⟩
theorem tumblerFree (x0 : Nat) : Statement (.tumblerFree x0) := ⟨nofun, nofun⟩
theorem portArrival (x0 : PortArv) : Statement (.portArrival x0) := ⟨nofun, nofun⟩
theorem softwareArrive (x0 : Nat) : Statement (.softwareArrive x0) := ⟨nofun, nofun⟩
theorem heldArrivalRelease (x0 : Nat) : Statement (.heldArrivalRelease x0) := ⟨nofun, nofun⟩
theorem readyMarkEnqueue (x0 : Node) (x1 : Nat) : Statement (.readyMarkEnqueue x0 x1) := ⟨nofun, nofun⟩
theorem arriveRx (x0 : LinkId) (x1 : Rx) : Statement (.arriveRx x0 x1) := ⟨nofun, nofun⟩
theorem turnRx (x0 : LinkId) (x1 : Rx) : Statement (.turnRx x0 x1) := ⟨nofun, nofun⟩
theorem turnForward (x0 : LinkId) (x1 : Rx) : Statement (.turnForward x0 x1) := ⟨nofun, nofun⟩
theorem waitArm (x0 : Nat) (x1 : Nat) : Statement (.waitArm x0 x1) := ⟨nofun, nofun⟩
theorem waitTimeout (x0 : Nat) (x1 : Nat) : Statement (.waitTimeout x0 x1) := ⟨nofun, nofun⟩
theorem budgetReclaim (x0 : Nat) : Statement (.budgetReclaim x0) := ⟨nofun, nofun⟩
theorem tumblerSnapshot (x0 : Word) : Statement (.tumblerSnapshot x0) := ⟨nofun, nofun⟩
theorem latencyRx (x0 : LinkId) (x1 : Rx) : Statement (.latencyRx x0 x1) := ⟨nofun, nofun⟩
theorem latencySend (x0 : LinkId) (x1 : BitVec 24) : Statement (.latencySend x0 x1) := ⟨nofun, nofun⟩
theorem launchForward (x0 : LinkId) (x1 : Rx) : Statement (.launchForward x0 x1) := ⟨nofun, nofun⟩
theorem launchFrameRx (x0 : LinkId) (x1 : Rx) : Statement (.launchFrameRx x0 x1) := ⟨nofun, nofun⟩
theorem stageResume (x0 : Nat) : Statement (.stageResume x0) := ⟨nofun, nofun⟩
theorem portCapture (x0 : Nat) (x1 : CaptureEdge) (x2 : Bool) : Statement (.portCapture x0 x1 x2) := ⟨nofun, nofun⟩
theorem sliceAbortGo (x0 : Word) : Statement (.sliceAbortGo x0) := ⟨nofun, nofun⟩
theorem abortFrameRx (x0 : LinkId) (x1 : Rx) : Statement (.abortFrameRx x0 x1) := ⟨nofun, nofun⟩
theorem abortDoneRx (x0 : LinkId) (x1 : Rx) : Statement (.abortDoneRx x0 x1) := ⟨nofun, nofun⟩
theorem abortWaitExpiry (x0 : BitVec 24) : Statement (.abortWaitExpiry x0) := ⟨nofun, nofun⟩
theorem lpAbortAck (x0 : Nat) : Statement (.lpAbortAck x0) := ⟨nofun, nofun⟩
theorem engAbortLimitExpiry (x0 : Nat) : Statement (.engAbortLimitExpiry x0) := ⟨nofun, nofun⟩
theorem resultRead (x0 : ResultRead) : Statement (.resultRead x0) := ⟨nofun, nofun⟩
theorem rollcallAskRx (x0 : LinkId) (x1 : Rx) : Statement (.rollcallAskRx x0 x1) := ⟨nofun, nofun⟩
theorem rollcallAnsRx (x0 : LinkId) (x1 : Rx) : Statement (.rollcallAnsRx x0 x1) := ⟨nofun, nofun⟩
theorem rollWaitExpiry (x0 : Nat) : Statement (.rollWaitExpiry x0) := ⟨nofun, nofun⟩
theorem clauseRunaway (x0 : Nat) : Statement (.clauseRunaway x0) := ⟨nofun, nofun⟩
theorem imageLoad (x0 : Nat) : Statement (.imageLoad x0) := ⟨nofun, nofun⟩
theorem imageUnload (x0 : Nat) : Statement (.imageUnload x0) := ⟨nofun, nofun⟩
theorem scheduleImageCurrent (x0 : Nat) : Statement (.scheduleImageCurrent x0) := ⟨nofun, nofun⟩
theorem treeImageActivate (x0 : Node) : Statement (.treeImageActivate x0) := ⟨nofun, nofun⟩
theorem treeWdataWrite (x0 : Word) : Statement (.treeWdataWrite x0) := ⟨nofun, nofun⟩
theorem treeLoadCard (x0 : List Byte) : Statement (.treeLoadCard x0) := ⟨nofun, nofun⟩
theorem rfOffsetWrite (x0 : Node) (x1 : Bool) (x2 : Word) : Statement (.rfOffsetWrite x0 x1 x2) := ⟨nofun, nofun⟩
theorem rfOffsetApply (x0 : Node) : Statement (.rfOffsetApply x0) := ⟨nofun, nofun⟩
theorem calSelect (x0 : Nat) (x1 : Word) : Statement (.calSelect x0 x1) := ⟨nofun, nofun⟩
theorem calWrite (x0 : Nat) : Statement (.calWrite x0) := ⟨nofun, nofun⟩
theorem calHold (x0 : Nat) : Statement (.calHold x0) := ⟨nofun, nofun⟩
theorem calTurn (x0 : Nat) : Statement (.calTurn x0) := ⟨nofun, nofun⟩
theorem calDoneCheck (x0 : Nat) : Statement (.calDoneCheck x0) := ⟨nofun, nofun⟩
theorem calRelease (x0 : Nat) : Statement (.calRelease x0) := ⟨nofun, nofun⟩
theorem deadlineMiss (x0 : Nat) : Statement (.deadlineMiss x0) := ⟨nofun, nofun⟩
theorem clauseTimeout (x0 : Nat) : Statement (.clauseTimeout x0) := ⟨nofun, nofun⟩
theorem sleepEnd (x0 : Nat) : Statement (.sleepEnd x0) := ⟨nofun, nofun⟩
theorem contextSwapDone (x0 : Bool) (x1 : Nat) : Statement (.contextSwapDone x0 x1) := ⟨nofun, nofun⟩
theorem seqOrderSubmit (x0 : Nat) : Statement (.seqOrderSubmit x0) := ⟨nofun, nofun⟩
theorem serveCommit (x0 : Nat) : Statement (.serveCommit x0) := ⟨nofun, nofun⟩
theorem listHeaderAck (x0 : Nat) : Statement (.listHeaderAck x0) := ⟨nofun, nofun⟩
theorem orderAbort (x0 : Nat) (x1 : Bool) : Statement (.orderAbort x0 x1) := ⟨nofun, nofun⟩
theorem orderFence (x0 : Nat) (x1 : Bool) : Statement (.orderFence x0 x1) := ⟨nofun, nofun⟩
theorem orderStop (x0 : Nat) (x1 : Bool) : Statement (.orderStop x0 x1) := ⟨nofun, nofun⟩
theorem orderStart (x0 : Nat) (x1 : Bool) : Statement (.orderStart x0 x1) := ⟨nofun, nofun⟩
theorem orderResume (x0 : Nat) (x1 : Bool) : Statement (.orderResume x0 x1) := ⟨nofun, nofun⟩
theorem orderFrameRx (x0 : LinkId) (x1 : Rx) : Statement (.orderFrameRx x0 x1) := ⟨nofun, nofun⟩
theorem domainRequestGo (x0 : Nat) : Statement (.domainRequestGo x0) := ⟨nofun, nofun⟩
theorem fenceComplete (x0 : Nat) : Statement (.fenceComplete x0) := ⟨nofun, nofun⟩
theorem crTailWrite (x0 : Nat) (x1 : Word) : Statement (.crTailWrite x0 x1) := ⟨nofun, nofun⟩
theorem crConfigWrite (x0 : Nat) (x1 : Nat) (x2 : Word) : Statement (.crConfigWrite x0 x1 x2) := ⟨nofun, nofun⟩
theorem grantRetry (x0 : Nat) : Statement (.grantRetry x0) := ⟨nofun, nofun⟩
theorem healthRx (x0 : LinkId) (x1 : Rx) : Statement (.healthRx x0 x1) := ⟨nofun, nofun⟩
theorem expelReqRx (x0 : LinkId) (x1 : Rx) : Statement (.expelReqRx x0 x1) := ⟨nofun, nofun⟩
theorem expelGrantRx (x0 : LinkId) (x1 : Rx) : Statement (.expelGrantRx x0 x1) := ⟨nofun, nofun⟩
theorem expelDenyRx (x0 : LinkId) (x1 : Rx) : Statement (.expelDenyRx x0 x1) := ⟨nofun, nofun⟩
theorem expelLimitRx (x0 : LinkId) (x1 : Rx) : Statement (.expelLimitRx x0 x1) := ⟨nofun, nofun⟩
theorem expelNoticeRx (x0 : LinkId) (x1 : Rx) : Statement (.expelNoticeRx x0 x1) := ⟨nofun, nofun⟩
theorem expelReadmitRx (x0 : LinkId) (x1 : Rx) : Statement (.expelReadmitRx x0 x1) := ⟨nofun, nofun⟩
theorem sideWaitExpiry (x0 : Nat) : Statement (.sideWaitExpiry x0) := ⟨nofun, nofun⟩
theorem sideTakeRx (x0 : LinkId) (x1 : Rx) : Statement (.sideTakeRx x0 x1) := ⟨nofun, nofun⟩
theorem sideReturnDue (x0 : Nat) : Statement (.sideReturnDue x0) := ⟨nofun, nofun⟩
theorem sideReturnRx (x0 : LinkId) (x1 : Rx) : Statement (.sideReturnRx x0 x1) := ⟨nofun, nofun⟩
theorem censusListRx (x0 : LinkId) (x1 : Rx) : Statement (.censusListRx x0 x1) := ⟨nofun, nofun⟩
theorem censusFetchRx (x0 : LinkId) (x1 : Rx) : Statement (.censusFetchRx x0 x1) := ⟨nofun, nofun⟩
theorem censusResendRx (x0 : LinkId) (x1 : Rx) : Statement (.censusResendRx x0 x1) := ⟨nofun, nofun⟩
theorem censusAnsRx (x0 : LinkId) (x1 : Rx) : Statement (.censusAnsRx x0 x1) := ⟨nofun, nofun⟩
theorem fetchTimeout (x0 : BitVec 24) (x1 : Nat) : Statement (.fetchTimeout x0 x1) := ⟨nofun, nofun⟩
theorem censusPortTimeout (x0 : Nat) : Statement (.censusPortTimeout x0) := ⟨nofun, nofun⟩
theorem joinReqRx (x0 : LinkId) (x1 : Rx) : Statement (.joinReqRx x0 x1) := ⟨nofun, nofun⟩
theorem joinAckRx (x0 : LinkId) (x1 : Rx) : Statement (.joinAckRx x0 x1) := ⟨nofun, nofun⟩
theorem joinAbsentRx (x0 : LinkId) (x1 : Rx) : Statement (.joinAbsentRx x0 x1) := ⟨nofun, nofun⟩
theorem joinRefuseRx (x0 : LinkId) (x1 : Rx) : Statement (.joinRefuseRx x0 x1) := ⟨nofun, nofun⟩
theorem teardownRx (x0 : LinkId) (x1 : Rx) : Statement (.teardownRx x0 x1) := ⟨nofun, nofun⟩
theorem tornSend (x0 : BitVec 24) : Statement (.tornSend x0) := ⟨nofun, nofun⟩
theorem tornRx (x0 : LinkId) (x1 : Rx) : Statement (.tornRx x0 x1) := ⟨nofun, nofun⟩
theorem tornWaitExpiry (x0 : BitVec 24) : Statement (.tornWaitExpiry x0) := ⟨nofun, nofun⟩
theorem domainReleaseRx (x0 : LinkId) (x1 : Rx) : Statement (.domainReleaseRx x0 x1) := ⟨nofun, nofun⟩
theorem domainReadyRx (x0 : LinkId) (x1 : Rx) : Statement (.domainReadyRx x0 x1) := ⟨nofun, nofun⟩
theorem domainOpenRx (x0 : LinkId) (x1 : Rx) : Statement (.domainOpenRx x0 x1) := ⟨nofun, nofun⟩
theorem domainReserve (x0 : BitVec 24) : Statement (.domainReserve x0) := ⟨nofun, nofun⟩
theorem journalFreeze (x0 : Word) : Statement (.journalFreeze x0) := ⟨nofun, nofun⟩
theorem journalRead (x0 : Word) : Statement (.journalRead x0) := ⟨nofun, nofun⟩
theorem bootPhasePass (x0 : Node) : Statement (.bootPhasePass x0) := ⟨nofun, nofun⟩
theorem bootPhaseTimeout (x0 : Node) : Statement (.bootPhaseTimeout x0) := ⟨nofun, nofun⟩
theorem powerGood (x0 : Bool) (x1 : Bool) : Statement (.powerGood x0 x1) := ⟨nofun, fun _ => rfl⟩
theorem bootStageEnd (x0 : StageEnd) (x1 : Nat) (x2 : Nat) (x3 : Word) : Statement (.bootStageEnd x0 x1 x2 x3) := ⟨nofun, fun _ => rfl⟩
theorem portRst (x0 : Nat) : Statement (.portRst x0) := ⟨nofun, nofun⟩
theorem portResetEnd (x0 : Nat) : Statement (.portResetEnd x0) := ⟨nofun, nofun⟩
theorem gdPortRst (x0 : Nat) : Statement (.gdPortRst x0) := ⟨nofun, nofun⟩
theorem domainRst (x0 : BitVec 24) : Statement (.domainRst x0) := ⟨nofun, nofun⟩
theorem rateRetryTimer (x0 : Nat) : Statement (.rateRetryTimer x0) := ⟨nofun, nofun⟩
theorem rateRetry (x0 : Nat) : Statement (.rateRetry x0) := ⟨nofun, nofun⟩
theorem portEnWrite (x0 : Nat) (x1 : Bool) : Statement (.portEnWrite x0 x1) := ⟨nofun, nofun⟩
theorem scrubLine (x0 : Store) (x1 : Nat) (x2 : LineState) : Statement (.scrubLine x0 x1 x2) := ⟨nofun, fun _ => rfl⟩
theorem rollCallRound (x0 : Nat) : Statement (.rollCallRound x0) := ⟨nofun, nofun⟩
theorem bulkObjectExpiry (x0 : Node) (x1 : Nat) : Statement (.bulkObjectExpiry x0 x1) := ⟨nofun, nofun⟩
theorem chunkCacheExpiry (x0 : Nat) : Statement (.chunkCacheExpiry x0) := ⟨nofun, nofun⟩
theorem cardDetect (x0 : List Byte) : Statement (.cardDetect x0) := ⟨nofun, nofun⟩
theorem fwLoadCard (x0 : List Byte) : Statement (.fwLoadCard x0) := ⟨nofun, nofun⟩
theorem fwActivate (x0 : Access) : Statement (.fwActivate x0) := ⟨nofun, fun _ => rfl⟩
theorem fwctlRx (x0 : LinkId) (x1 : Rx) : Statement (.fwctlRx x0 x1) := ⟨nofun, fun _ => rfl⟩
theorem fwCommit (x0 : Access) : Statement (.fwCommit x0) := ⟨nofun, nofun⟩
theorem fwRevert (x0 : Access) : Statement (.fwRevert x0) := ⟨nofun, fun _ => rfl⟩
theorem keyswChange (x0 : Bool) : Statement (.keyswChange x0) := ⟨nofun, nofun⟩
theorem ownerLockWrite (x0 : Access) (x1 : Word) : Statement (.ownerLockWrite x0 x1) := ⟨fun _ => rfl, nofun⟩
theorem fuseBlow (x0 : Access) : Statement (.fuseBlow x0) := ⟨nofun, nofun⟩
theorem errlogPop (x0 : Node) : Statement (.errlogPop x0) := ⟨nofun, nofun⟩
theorem errlogClear (x0 : Node) : Statement (.errlogClear x0) := ⟨nofun, nofun⟩
theorem debugSnapshot (x0 : Option Nat) (x1 : Word) : Statement (.debugSnapshot x0 x1) := ⟨nofun, nofun⟩
theorem lowWordLatchRead (x0 : Node) (x1 : Access) (x2 : Nat) : Statement (.lowWordLatchRead x0 x1 x2) := ⟨nofun, nofun⟩
theorem registerWrite (x0 : Node) (x1 : Access) (x2 : Nat) (x3 : Word) : Statement (.registerWrite x0 x1 x2 x3) := ⟨nofun, nofun⟩
theorem softSnapshot (x0 : Word) : Statement (.softSnapshot x0) := ⟨nofun, nofun⟩
theorem dlatSnapshot (x0 : Word) : Statement (.dlatSnapshot x0) := ⟨nofun, nofun⟩
theorem ringBypassWrite (x0 : Bool) : Statement (.ringBypassWrite x0) := ⟨nofun, nofun⟩
theorem gdAbortGo (x0 : Word) : Statement (.gdAbortGo x0) := ⟨nofun, nofun⟩
theorem gdOrderGo (x0 : Word) : Statement (.gdOrderGo x0) := ⟨nofun, nofun⟩
theorem mgmtSpiTransaction (x0 : Nat) (x1 : SpiOp) : Statement (.mgmtSpiTransaction x0 x1) := ⟨fun _ => rfl, fun _ => rfl⟩
theorem resetNRelease (x0 : Bool) (x1 : Bool) : Statement (.resetNRelease x0 x1) := ⟨nofun, nofun⟩
theorem thermNAlarm (x0 : Int) : Statement (.thermNAlarm x0) := ⟨nofun, nofun⟩
theorem nwWriteAck (x0 : Bool) : Statement (.nwWriteAck x0) := ⟨nofun, nofun⟩
theorem nwReadResponse (x0 : List Byte) (x1 : Bool) : Statement (.nwReadResponse x0 x1) := ⟨nofun, nofun⟩
theorem lpCmdTaken (x0 : Nat) (x1 : Int) : Statement (.lpCmdTaken x0 x1) := ⟨nofun, nofun⟩
theorem childPositionAbsent (x0 : Nat) : Statement (.childPositionAbsent x0) := ⟨nofun, nofun⟩
theorem refPcsLockLoss (x0 : Nat) : Statement (.refPcsLockLoss x0) := ⟨nofun, nofun⟩
theorem refFreqMeasure (x0 : Nat) (x1 : Int) : Statement (.refFreqMeasure x0 x1) := ⟨nofun, nofun⟩
theorem fwSlotWriteDone (x0 : Bool) (x1 : Bool) (x2 : Bool) : Statement (.fwSlotWriteDone x0 x1 x2) := ⟨nofun, nofun⟩
theorem setCommit : Statement (.setCommit) := ⟨nofun, fun _ => rfl⟩
theorem takeoverWaitExpiry : Statement (.takeoverWaitExpiry) := ⟨nofun, nofun⟩
theorem filteredOffset : Statement (.filteredOffset) := ⟨nofun, fun _ => rfl⟩
theorem firstRefWaitExpiry : Statement (.firstRefWaitExpiry) := ⟨nofun, fun _ => rfl⟩
theorem outputFirstAlign : Statement (.outputFirstAlign) := ⟨nofun, nofun⟩
theorem outRealign : Statement (.outRealign) := ⟨nofun, nofun⟩
theorem outRealignApply : Statement (.outRealignApply) := ⟨nofun, nofun⟩
theorem rootClaim : Statement (.rootClaim) := ⟨nofun, nofun⟩
theorem tbusSyncSend : Statement (.tbusSyncSend) := ⟨nofun, nofun⟩
theorem recal : Statement (.recal) := ⟨nofun, nofun⟩
theorem bgRecal : Statement (.bgRecal) := ⟨nofun, nofun⟩
theorem pmLendEvent : Statement (.pmLendEvent) := ⟨nofun, nofun⟩
theorem marginClear : Statement (.marginClear) := ⟨nofun, nofun⟩
theorem resultWaitExpiry : Statement (.resultWaitExpiry) := ⟨nofun, nofun⟩
theorem policyCommit : Statement (.policyCommit) := ⟨nofun, nofun⟩
theorem policyLoad : Statement (.policyLoad) := ⟨nofun, nofun⟩
theorem clauseLaunch : Statement (.clauseLaunch) := ⟨nofun, nofun⟩
theorem clauseArrive : Statement (.clauseArrive) := ⟨nofun, nofun⟩
theorem clauseWait : Statement (.clauseWait) := ⟨nofun, nofun⟩
theorem clauseReduce : Statement (.clauseReduce) := ⟨nofun, nofun⟩
theorem clauseScan : Statement (.clauseScan) := ⟨nofun, nofun⟩
theorem clauseAlloc : Statement (.clauseAlloc) := ⟨nofun, nofun⟩
theorem clauseBranch : Statement (.clauseBranch) := ⟨nofun, nofun⟩
theorem clauseMark : Statement (.clauseMark) := ⟨nofun, nofun⟩
theorem clauseYield : Statement (.clauseYield) := ⟨nofun, nofun⟩
theorem clauseAbort : Statement (.clauseAbort) := ⟨nofun, nofun⟩
theorem clauseEnd : Statement (.clauseEnd) := ⟨nofun, nofun⟩
theorem loadBuf : Statement (.loadBuf) := ⟨nofun, nofun⟩
theorem contextSwap : Statement (.contextSwap) := ⟨nofun, nofun⟩
theorem sliceCreate : Statement (.sliceCreate) := ⟨nofun, nofun⟩
theorem sliceReset : Statement (.sliceReset) := ⟨nofun, nofun⟩
theorem sliceDestroy : Statement (.sliceDestroy) := ⟨nofun, nofun⟩
theorem sliceBind : Statement (.sliceBind) := ⟨nofun, nofun⟩
theorem sliceUnbind : Statement (.sliceUnbind) := ⟨nofun, nofun⟩
theorem filterClr : Statement (.filterClr) := ⟨nofun, nofun⟩
theorem conflictPop : Statement (.conflictPop) := ⟨nofun, nofun⟩
theorem healthDecay : Statement (.healthDecay) := ⟨nofun, nofun⟩
theorem expelWindowEnd : Statement (.expelWindowEnd) := ⟨nofun, nofun⟩
theorem censusSlow : Statement (.censusSlow) := ⟨nofun, nofun⟩
theorem journalTriggerStop : Statement (.journalTriggerStop) := ⟨nofun, nofun⟩
theorem journalRetrain : Statement (.journalRetrain) := ⟨nofun, nofun⟩
theorem dieResetRelease : Statement (.dieResetRelease) := ⟨nofun, nofun⟩
theorem unitRst : Statement (.unitRst) := ⟨nofun, nofun⟩
theorem chipRst : Statement (.chipRst) := ⟨nofun, fun _ => rfl⟩
theorem resetNAssert : Statement (.resetNAssert) := ⟨nofun, fun _ => rfl⟩
theorem watchdogExpiry : Statement (.watchdogExpiry) := ⟨nofun, fun _ => rfl⟩
theorem understudyBooted : Statement (.understudyBooted) := ⟨nofun, nofun⟩
theorem understudyBootTimeout : Statement (.understudyBootTimeout) := ⟨nofun, nofun⟩
theorem activateCensusWait : Statement (.activateCensusWait) := ⟨nofun, fun _ => rfl⟩
theorem commitWaitExpiry : Statement (.commitWaitExpiry) := ⟨nofun, nofun⟩
theorem heartbeatMiss : Statement (.heartbeatMiss) := ⟨nofun, fun _ => rfl⟩
theorem presencePress : Statement (.presencePress) := ⟨nofun, nofun⟩
theorem tamperLoopBreak : Statement (.tamperLoopBreak) := ⟨nofun, nofun⟩
theorem tamperClear : Statement (.tamperClear) := ⟨nofun, nofun⟩
theorem sealArmedExpiry : Statement (.sealArmedExpiry) := ⟨nofun, nofun⟩
theorem sealMaxExpiry : Statement (.sealMaxExpiry) := ⟨nofun, nofun⟩
theorem irqEventHandshake : Statement (.irqEventHandshake) := ⟨nofun, nofun⟩
theorem healthClear : Statement (.healthClear) := ⟨nofun, nofun⟩
theorem dieResetAssert : Statement (.dieResetAssert) := ⟨nofun, nofun⟩
theorem tdPorAssert : Statement (.tdPorAssert) := ⟨nofun, fun _ => rfl⟩
theorem powerGoodFall : Statement (.powerGoodFall) := ⟨nofun, fun _ => rfl⟩

end Sys2Proof.Laws.Listed
end

