-- ==== Sys2Proof/Tests/Slice0.lean ====
section
/-! SUPPORT. Tests: ill-formed commands that the checks of WellFormed refuse, the spec's own worked examples, and for every
statement with hypotheses a state and operands that meet them, case by case. -/

open Sys2Proof Sys2Proof.Machine

set_option linter.unusedVariables false
set_option Elab.async false

namespace Sys2Proof.Tests

/-- A state after reset with the TSU changed. -/
def tsuS (f : Tsu → Tsu) : State := State.reset.updTsu f
/-- A state after reset with the distributor changed. -/
def gdS (f : Gd → Gd) : State := State.reset.updGd f
/-- A state after reset with a time domain changed. -/
def tmS (n : Node) (f : TimeDom → TimeDom) : State := State.reset.updTime n f
/-- A state after reset with one command waiting. -/
def waitS (c : Instr) : State := { State.reset with pending := [c] }
/-- A whole access of the lead. -/
def lead : Access := ⟨0, true, false⟩
/-- A whole access of the understudy. -/
def under : Access := ⟨2, true, false⟩
/-- A narrow access. -/
def narrow : Access := ⟨0, false, false⟩
/-- A state after reset with a link of a node changed. -/
def linkS (l : LinkId) (f : Link → Link) : State := State.reset.updLink l f
/-- A state after reset with a reference source changed. -/
def refS (src : Nat) (f : RefSrc → RefSrc) : State := State.reset.updRefSrc src f
/-- A state after reset with a region's bus end and repeater changed. -/
def regionS (r : Nat) (f : Region → Region) : State := State.reset.updRegion r f
/-- A frame of a type and class with the given bytes from byte 12 on. -/
def frame (type cls : Nat) (body : List Byte) : Frame :=
  ⟨BitVec.ofNat 6 type, BitVec.ofNat 2 cls, 0, 0, false, false, false, false, 0, 0, 0, body⟩
/-- A frame received with a good check. -/
def good (f : Frame) : Rx := ⟨f, []⟩
/-- A command with every field 0. -/
def cmd0 : Command := ⟨0, 0, 0, 0, 0, 0, false, 0, 0, 0, false, 0, 0, 0⟩
/-- A fired slot that holds it. -/
def fired0 : Fired :=
  { cmd := cmd0, t := 0, gated := false, late := false, region := 0, shown := none, cancel := .none, domain := 0, index := 0,
    gen := 0, c := 0, members := 0, short := false, far := false, reach := 0, order := 0, owed := none }
/-- A state after reset with a link UP. -/
def upS (l : LinkId) : State := linkS l fun k => { k with state := .up }
/-- A fresh entry of the tumbler store: a NAMED tumbler of slice 0 with participant slot 0. -/
def tumb0 : Tumbler :=
  { index := 0, slice := 0, domain := 0, counted := false, estate := .active, mask := 1, target := 0, op := 0, fmt := 0, lanes := 0,
    gen := 0, arrNow := 0, arrNext := 0, heldArv := [], release := false, count := 0, early := 0, shareDone := false, doneNs := 0,
    short := false, overflow := false, stale := 0, nowC := [], nextC := [], firstArv := none, firstNext := none, lastSrc := 0,
    lastSlot := 0, lastGen := 0, lastNs32 := 0, lastAon := 0, turnNs32 := 0, est := 0, turns := 0, result := none, shortDue := false,
    carry := none, mstate := .member, noJoin := false, bound := none, fromImage := false }
/-- A state after reset with that entry changed and in place 0 of the store. -/
def tumbS (f : Tumbler → Tumbler) : State := tsuS fun t => { t with tumb := [(0, f tumb0)] }
/-- A state after reset with slice 0 ACTIVE, and changed. -/
def sliceS (f : Slice → Slice) : State := State.reset.updSlice 0 fun v => f { v with state := .active }
/-- A turned result without data. -/
def result0 : Result :=
  { gen := 0, c := 0, members := 0, latestDie := 0, latestNs := 0, short := false, t := none, far := false, tRefused := .none,
    dropLate := false, calendar := false, step16 := 0, op := 0, fmt := 0, lanes := 0, data := [], alloc := [], first := 0, held := [],
    whole := true, rows := [], carried := [] }
/-- A bulk object of one chunk without a fragment. -/
def bulk0 : BulkRx := ⟨1, 0, 0, 0, 1280, 1, [], 0, [], false, false, none⟩
/-- A roll call that asks port 0. -/
def roll0 : RollEntry := ⟨0, 0, 0, 0, 64, [0], [], 0, 0, [], false, 0, 0⟩
/-- An armed launch of slice 0. -/
def arm0 : Arm :=
  { launch := 0, slice := 0, sgen := 0, ctx := 0, t := Time80.zero, late := false, far := false, domain := 0, gen := 0, index := 0,
    c := 0, members := 0, short := false, step16 := 0, ports := [], slots := [(0, 0)], sent := [], fired := [], fence := false,
    cancel := .none, code := .none, listWait := false, dropLate := false, order := 0, struck := false }
/-- Slice 0 bound to domain 5 as a member. -/
def bind0 : Binding := ⟨5, .member, 0, 0, none, 0, 0, 0, 0, 0⟩
/-- Bytes of value 0. -/
def zeros (n : Nat) : List Byte := List.replicate n 0
/-- A schedule image whose one sentence ends at once. -/
def imgEnd : List Byte :=
  [75, 71, 83, 67, 1, 0, 0, 0, 0, 0, 0, 128, 0, 0, 0, 66, 0, 0, 0, 0, 0, 2] ++ zeros 38 ++ [74, 165, 169, 81, 0, 1, 0, 0,
   0, 0, 0, 96, 0, 0, 0, 16, 0, 0, 0, 1, 0, 2, 0, 0, 0, 0, 0, 112, 0, 0, 0, 16, 0, 0, 0, 1, 0, 0, 0, 1] ++ zeros 16 ++
   [255, 0, 0, 0, 0, 0, 0, 0, 0, 0, 0, 0]
/-- The schedule image of the bytes above. -/
def endImage : SchedImage := ⟨0x42, 0, [⟨0, 1, 0, 0, 0⟩], [0xff0000000000000000000000], [], [], [], [], [], [], [], [], [], 1⟩
/-- An answer that is there. -/
theorem isOk {α β : Type} [DecidableEq β] {e : Except α β} {y : β}
    (h : (match e with | .ok x => decide (x = y) | .error _ => false) = true) : e = .ok y := by
  cases e <;> simp_all
/-- A refusal. -/
theorem isError {α β : Type} [DecidableEq α] {e : Except α β} {y : α}
    (h : (match e with | .ok _ => false | .error x => decide (x = y)) = true) : e = .error y := by
  cases e <;> simp_all
/-- A running context of slice 0. -/
def ctx0 : Ctx := { Ctx.new 0 0 none with state := .ready }
/-- A slice 0 whose image read is under way. -/
def readS (k : NwRead) (f : Slice → Slice) : State :=
  (sliceS f).updTsu fun t => { t with nwReads := [⟨k, 0, 0, 128⟩] }
/-- A clause of a verb with its low 124 bits. -/
def word (verb low : Nat) : BitVec 128 := BitVec.ofNat 128 (verb * 2 ^ 124 + low)
/-- Slice 0 with a one-clause image whose port set is [0]. -/
def clauseS (k : BitVec 128) : State :=
  sliceS fun v => { v with ports := [0], image := some { endImage with clauses := [k], portsets := [[0]] } }
/-- That slice with a resident, ready context 0, changed, and the die in service. -/
def senS (k : BitVec 128) (f : Ctx → Ctx) : State :=
  (clauseS k).updTsu fun t => { t with boot := { t.boot with phase := 7 }, contexts := [(0, f { ctx0 with resident := some 0 })] }
/-- Slice 0 with that image and the tumbler in its store. -/
def stageS (k : BitVec 128) (f : Tsu → Tsu) : State :=
  (clauseS k).updTsu fun t => f { t with tumb := [(0, tumb0)] }
/-- A one-word order of slice 0 for the sequence table. -/
def seq0 : SeqOrder := ⟨0, 0, 0, 0, []⟩
/-- A calendar entry of slice 0 with these flags that fires in every slot. -/
def cal0 (flags : Nat) : CalEntry := ⟨0, [0, 0, BitVec.ofNat 8 flags, 1, 1] ++ zeros 43, 0, none, none, [], 0⟩
/-- Slice 0 with that entry in place 0 of the calendar. -/
def calS (e : CalEntry) (f : Tsu → Tsu) : State := (sliceS id).updTsu fun t => f { t with calendar := [(0, e)] }
/-- The time status of a die that may launch. -/
def launchT (t : Tsu) : Tsu := { t with com := { t.com with time := { t.com.time with launchOk := true } } }
/-- Slice 0 with calendar entry 0, a pool of one and words of its page. -/
def pageS (ws : Tab Word) : State := sliceS fun v => { v with calQ := 1, page := ws }
/-- An order of a verb for every context, at rank 4 of slice 0. -/
def order0 (verb : Nat) : Order := ⟨verb, none, 0, 4, 0, 0, false⟩
/-- A state after reset with slice 1 ACTIVE. -/
def slice1 : Slice := { Slice.reset with state := .active }
/-- A domain of tag 5 whose top node is die 0. -/
def dom5 : DomRec := ⟨5, false, false, true, true, true, false, 0, 16, 0, 0, 1, 1000, []⟩
/-- A tree image with that domain. -/
def domTree : TreeImage := ⟨1, Time80.zero, 0, zeros 64, [], [dom5], [], [], [], some (0, 0, 0)⟩
/-- Slice 0 ACTIVE and BIND_TAG 5, below that tree. -/
def bindS (v : Slice → Slice) (f : Tsu → Tsu) : State :=
  ((sliceS v).setReg .tsu 0x69C 5).updTsu fun t => f { t with tree := some domTree }
/-- Slice 0 with context 0. -/
def ctxS (v : Slice → Slice) (x : Ctx) : State := (sliceS v).updTsu fun t => { t with contexts := [(0, x)] }
/-- A domain of tag 7 over the eight dies below board position 0, its top node. -/
def dom7 : DomRec := ⟨7, false, false, true, true, false, false, 0, 16, 0, 0, 8, 1000, [0, 0, 0, 0]⟩
/-- That board's position. -/
def pos0 : PosRec := ⟨0, true, false, 0, 0xFF, 0, 0, 0, []⟩
/-- Its tree image. -/
def boardTree : TreeImage := ⟨1, Time80.zero, 0, zeros 64, [pos0], [dom7], [], [], zeros 32, none⟩
/-- Domain 7 at the distributor, open. -/
def gdom7 : GdDom := { GdDom.new dom7 with waiting := false, isOpen := true }
/-- A fresh soft entry. -/
def soft0 : Soft := Soft.blank 0 0
/-- The distributor of that board with domain 7 and its tumbler 0, and its ports 0 and 64 UP. -/
def boardS (d : GdDom) (e : Soft) (f : Gd → Gd) : State :=
  ((gdS fun g => f { g with locator := some 0, tree := some boardTree, doms := [(7, d)], softs := [(softKey 7 0, e)] }).updLink
    ⟨.gd, 0⟩ fun k => { k with state := .up }).updLink ⟨.gd, 64⟩ fun k => { k with state := .up }
/-- A frame of domain 7. -/
def dframe (type cls : Nat) (gen : BitVec 2) (body : List Byte) : Frame := { frame type cls body with domain := 7, gen := gen }
/-- That board's domain with a record changed. -/
def gdom (r : DomRec → DomRec) (f : GdDom → GdDom) : GdDom := f { GdDom.new (r dom7) with waiting := false, isOpen := true }
/-- A tree image with position 0 of a role and a HEALTH record. -/
def roleTree (role : Nat) (health : List Byte) : TreeImage :=
  ⟨1, Time80.zero, 0, zeros 64, [{ pos0 with loc := mkLoc role 0 }], [], [], [], health, none⟩
/-- The distributor of position 0 of a role, with a HEALTH record and ports 0 and 64 UP. -/
def roleS (role : Nat) (health : List Byte) (f : Gd → Gd) : State :=
  ((gdS fun g => f { g with locator := some (mkLoc role 0), tree := some (roleTree role health) }).updLink
    ⟨.gd, 0⟩ fun k => { k with state := .up }).updLink ⟨.gd, 64⟩ fun k => { k with state := .up }
/-- The board's distributor with one waiting port 1 s after power-on. -/
def lateS (role : Nat) : State := (roleS role (zeros 32) id).updTime .gd fun t => { t with aon := 1000000000 }
/-- An EXPEL frame's payload: OP and die. -/
def expelBody (op die : Nat) : List Byte := natBytes op 1 ++ natBytes 0 1 ++ natBytes die 3 ++ zeros 43
/-- The rack of position 0 with domain 7 below its child 0, whose port is down while the partner link is UP. -/
def rackS (f : Gd → Gd) : State :=
  ((((roleS 1 (zeros 32) fun g => f { g with doms := [(7, gdom7)] }).updLink ⟨.gd, 0⟩ fun k => { k with state := .down }).updLink
    ⟨.gd, 67⟩ fun k => { k with state := .up }).updTime .gd fun t => { t with aon := 100000000 })
/-- A census of CENSUS_ID 0 of port 0. -/
def census0 : Census := ⟨0, 0, 0, [0], [], [], false, [], [], false, false, true, false, none⟩
/-- The board with a census. -/
def censusS (c : Census) : State := (boardS gdom7 soft0 id).updGd fun g => { g with census := some c }
/-- That board 3 ms after power-on. -/
def censusLate (c : Census) : State := (censusS c).updTime .gd fun t => { t with aon := 3000000 }
/-- The distributor powered and out of reset, at a stage, changed. -/
def stageBootS (phase : Nat) (f : Gd → Gd) : State :=
  gdS fun g => f { g with powered := true, boot := { g.boot with phase := phase, bootMs := some 0 } }
/-- The TSU out of reset at a phase. -/
def phaseS (phase : Nat) : State := tsuS fun t => { t with inReset := false, boot := { t.boot with phase := phase, bootMs := some 0 } }
/-- A firmware image that is its header alone. -/
def fwImage : List Byte := [75, 71, 70, 87, 1, 16, 0, 1, 0, 0, 0, 64, 0, 0, 0, 1] ++ zeros 40 ++ [73, 3, 242, 138] ++ zeros 4
/-- The slot that it describes. -/
def fwSlot : FwSlot := ⟨.staged, 0, 0, 0, 1⟩
/-- A distributor with its firmware changed. -/
def fwS (f : Fw → Fw) : State := gdS fun g => { g with fw := f g.fw }
/-- Slot B with a state. -/
def slotB (st : SlotState) (f : Fw) : Fw := { f with slotB := { f.slotB with state := st } }
/-- The seal in a state, the key switch and the loop, 10 s after power-on. -/
def sealS (st : SealState) (key loop : Bool) : State :=
  (gdS fun g => { g with sealSt := st, keysw := key, loopOk := loop }).updTime .gd fun t => { t with aon := 100000000000 }
/-- The same at power-on. -/
def sealNow (st : SealState) (key loop : Bool) : State := (sealS st key loop).updTime .gd fun t => { t with aon := 0 }
/-- A poison copy of a frame. -/
def poison (f : Frame) : Rx := ⟨f, poisonNoise⟩
/-- A slot with more symbol errors than the code corrects. -/
def broken (f : Frame) : Rx := ⟨f, [(0, 1), (1, 1), (2, 1)]⟩
/-- A slot with one symbol error. -/
def mended (f : Frame) : Rx := ⟨f, [(20, 1)]⟩
/-- That distributor with its partner link UP. -/
def upRole (role : Nat) : State := (roleS role (zeros 32) id).updLink ⟨.gd, 67⟩ fun k => { k with state := .up }
/-- A distributor at a stage with its firmware changed. -/
def fwBoot (phase : Nat) (f : Fw → Fw) : State := stageBootS phase fun g => { g with fw := f g.fw }
/-- A slot with the poison pattern is a poison copy, whatever it carries. -/
theorem poison_check (f : Frame) : (poison f).check = .poison := by
  have h : ∀ g, (poison f).check = (poison g).check := fun _ => rfl
  rw [h Frame.idle]; decide +kernel
/-- Three symbol errors are not corrected. -/
theorem broken_check (f : Frame) : (broken f).check = .uncorrectable := by
  have h : ∀ g, (broken f).check = (broken g).check := fun _ => rfl
  rw [h Frame.idle]; decide +kernel
/-- A bus word without noise passes its CRC. -/
theorem crc_good : crcOk 0 = true := by decide +kernel
/-- A word with its last bit flipped does not. -/
theorem crc_bad : crcOk 1 = false := by decide +kernel

/-- Refused: outside the numbers that the check of WellFormed allows. -/
theorem test_ill_lane : ¬ Instr.WellFormed (.cntClear ⟨.tsu, 2⟩) := by decide
/-- Refused: outside the numbers that the check of WellFormed allows. -/
theorem test_ill_port_page : ¬ Instr.WellFormed (.cntClear ⟨.gd, 68⟩) := by decide
/-- Refused: outside the numbers that the check of WellFormed allows. -/
theorem test_ill_frame_body : ¬ Instr.WellFormed (.idleFrameRx ⟨.tsu, 0⟩ ⟨frame 0 0 [], []⟩) := by decide
/-- Refused: outside the numbers that the check of WellFormed allows. -/
theorem test_ill_slice : ¬ Instr.WellFormed (.waitArm 64 0) := by decide
/-- Refused: outside the numbers that the check of WellFormed allows. -/
theorem test_ill_region : ¬ Instr.WellFormed (.regionRst 8) := by decide
/-- Refused: outside the numbers that the check of WellFormed allows. -/
theorem test_ill_repeater_slot : ¬ Instr.WellFormed (.strobeFire 0 16) := by decide
/-- Refused: outside the numbers that the check of WellFormed allows. -/
theorem test_ill_bus_sequence : ¬ Instr.WellFormed (.tbusAckRx 0 64) := by decide
/-- Refused: outside the numbers that the check of WellFormed allows. -/
theorem test_ill_launch_port : ¬ Instr.WellFormed (.portRst 1024) := by decide
/-- Refused: outside the numbers that the check of WellFormed allows. -/
theorem test_ill_page : ¬ Instr.WellFormed (.gdPortRst 68) := by decide
/-- Refused: outside the numbers that the check of WellFormed allows. -/
theorem test_ill_entry : ¬ Instr.WellFormed (.tumblerFree 4096) := by decide
/-- Refused: outside the numbers that the check of WellFormed allows. -/
theorem test_ill_calendar_entry : ¬ Instr.WellFormed (.calTurn 256) := by decide
/-- Refused: outside the numbers that the check of WellFormed allows. -/
theorem test_ill_context : ¬ Instr.WellFormed (.clauseTimeout 128) := by decide
/-- Refused: outside the numbers that the check of WellFormed allows. -/
theorem test_ill_child : ¬ Instr.WellFormed (.sideWaitExpiry 64) := by decide
/-- Refused: outside the numbers that the check of WellFormed allows. -/
theorem test_ill_wait : ¬ Instr.WellFormed (.waitArm 0 4) := by decide
/-- Refused: outside the numbers that the check of WellFormed allows. -/
theorem test_ill_binding : ¬ Instr.WellFormed (.tumblerCreate 0 16) := by decide
/-- Refused: outside the numbers that the check of WellFormed allows. -/
theorem test_ill_priority : ¬ Instr.WellFormed (.wtrExpiry 8) := by decide
/-- Refused: outside the numbers that the check of WellFormed allows. -/
theorem test_ill_time_port : ¬ Instr.WellFormed (.ptpMasterSend 2) := by decide
/-- Refused: outside the numbers that the check of WellFormed allows. -/
theorem test_ill_source : ¬ Instr.WellFormed (.refQualified 0) := by decide
/-- Refused: outside the numbers that the check of WellFormed allows. -/
theorem test_ill_ring_register : ¬ Instr.WellFormed (.crConfigWrite 0 0x02C 0) := by decide
/-- Refused: outside the numbers that the check of WellFormed allows. -/
theorem test_ill_store : ¬ Instr.WellFormed (.grantRetry 4) := by decide
/-- Refused: outside the numbers that the check of WellFormed allows. -/
theorem test_ill_object : ¬ Instr.WellFormed (.rollCallRound 65536) := by decide
/-- Refused: outside the numbers that the check of WellFormed allows. -/
theorem test_ill_offset : ¬ Instr.WellFormed (.lowWordLatchRead .gd ⟨0, true, false⟩ 0x20000) := by decide
/-- Refused: outside the numbers that the check of WellFormed allows. -/
theorem test_ill_result_read : ¬ Instr.WellFormed (.resultRead ⟨33554432, 4, 0, 0, 0, 0⟩) := by decide
/-- Refused: outside the numbers that the check of WellFormed allows. -/
theorem test_ill_arrival : ¬ Instr.WellFormed (.portArrival ⟨1024, 0, 0, 0, 0, [], 0, 0⟩) := by decide
/-- A command whose operands are in range is well-formed. -/
theorem test_well_formed : Instr.WellFormed (.waitArm 63 3) := by decide

/-- The example of the counter chapter: NS32 of 1742000123:000250000 is 0xE21D_DE90. -/
theorem test_ns32 : (⟨1742000123, 250000, 0⟩ : Time80).ns32 = 0xE21DDE90#32 := by decide
/-- The example of R50: 0x05E1_2490 is 600 ms ahead of it (its last line prints another instant: log entry 126). -/
theorem test_extend : Time80.ofNs (extendNs ⟨1742000123, 250000, 0⟩ 0x05E12490) = ⟨1742000123, 600250000, 0⟩ := by decide
/-- R42: a carry out of the fraction and NANOSECONDS' roll into SECONDS. -/
theorem test_tick_carry : Time80.ofUnits ((⟨5, 999999998, 0xFFFFFFFF⟩ : Time80).toUnits + 0x200000001) = ⟨6, 1, 0⟩ := by decide
/-- R45: the clamp's bounds. -/
theorem test_clamp : clampAddend 0 = 0x1FFF2E48F ∧ clampAddend 0x300000000 = 0x2000D1B71 := by decide
/-- The rack's exchange in the example of the time-transfer chapter: 0.250 ns, shown as 2 units of 125 ps. -/
theorem test_exchange :
    ((gdS fun g => { g with com := { g.com with srcs := [(64, { TimeSrc.reset with asym := 100, sent := [⟨7, 0, 0⟩] })] } }).exchange
      ⟨.gd, 64⟩ { frame 0x01 0 (zeros 8 ++ natBytes (7200000 * 65536) 6 ++ natBytes 471885407846 6 ++ [7, 0, 0, 2]) with
        time := 7200900 } 471944429568).map (fun x => offsetWord x.2) = some 2 := by decide
/-- The header bytes of the ARRIVE frame in the tenancy chapter's example: 42 14 01 23 05 4A 7C 00. -/
theorem test_header : natBytes (Frame.header { dframe 0x10 2 1 [] with domain := 0x012305, step16 := 0x4A7C, more := true }) 8
    = [0x42, 0x14, 0x01, 0x23, 0x05, 0x4A, 0x7C, 0x00] := by decide
/-- The generator of R164: the check of a lone 1 in the last byte is g's lower coefficients. -/
theorem test_rs : rsCheck (zeros 59 ++ [1]) = [0x0F, 0x36, 0x78, 0x40] := by decide +kernel
/-- CRC-32C by the parameters of R288, on the digits 1 to 9. -/
theorem test_crc : crc32c [0x31, 0x32, 0x33, 0x34, 0x35, 0x36, 0x37, 0x38, 0x39] = 0xE3069283 := by decide +kernel
/-- The region chapter's example (R125): 6,409.375 ps, and TBUS_LEAD shown as 16,409 ps. -/
theorem test_tbus_delay :
    ((regionS 5 fun g => { g with calActive := true, calCount := 64, calSum := 64 * 1692, turnaround := 400 }).tbusCalDone 5
      |>.region 5).delay = 13126400 := by decide
theorem test_tbus_lead : delayPs (regionS 5 fun g => { g with ready := true, delay := 13126400 }).updateLead.tsu.lead = 16409 := by decide
/-- The example of R327: SFN 160, subframe 2. -/
theorem test_sfn : (tmS .tsu fun t => { t with counter := ⟨1742000123, 2000000, 0⟩ }).rfNow .tsu = 160 + 1024 * 2 := by decide
/-- The routing example of the combining chapter (R277): experts 17 and 42 of die 0x0_9293. -/
theorem test_share : allocShare 0 2 [640, 300] 3 638 0 = (2, 638) ∧ allocShare 0 2 [640, 300] 1 97 1 = (1, 97) := by decide
/-- DROP accepts the lesser of load and capacity: 640 of 1,984 and all 300. -/
theorem test_accept : allocAccept 0 2 [640, 640] [1984, 300] true = [640, 300] := by decide
/-- The example of the tenancy chapter: log entry 1's words. -/
theorem test_conflict_word :
    (List.range 3).map (Conflict.word ⟨12, 2, 4, 2, 4, 0xE000, 0x800C, 7, 0x112, 0⟩) = [0xD88C, 0x800CE000, 0x01120007] := by decide
/-- R216's layout: the code of ONE_TUMBLER_CLOSED has group 1, number 9. -/
theorem test_code : ErrCode.tumblerClosed.value = 0x0109 ∧ ErrCode.tumblerClosed.group = 1 := by decide

/-- Every case of StepRunsFront is met by some state and operands. -/
theorem witness_StepRunsFront :
    ∃ s : State, s.pending = [] :=
  ⟨State.reset, rfl⟩

/-- Every case of StepKeepsQueue is met by some state and operands. -/
theorem witness_StepKeepsQueue :
    ∃ (c : Instr) (rest : List Instr) (s : State), s.pending = c :: rest :=
  ⟨.recal, [], waitS .recal, rfl⟩

/-- Every case of AddendStaysClamped is met by some state and operands. -/
theorem witness_AddendStaysClamped :
    ∃ s t : State, s.Clamped ∧ step s = .next t :=
  ⟨waitS .recal, _, ⟨addendNominal_clamped, addendNominal_clamped⟩, rfl⟩

/-- Every case of BufferStaysWellFormed is met by some state and operands. -/
theorem witness_BufferStaysWellFormed :
    ∃ s t : State, Memory.wf s.gd.treeBuf ∧ step s = .next t :=
  ⟨waitS .recal, _, by decide, rfl⟩

/-- Every case of FusesNeverChange is met by some state and operands. -/
theorem witness_FusesNeverChange :
    ∃ s t : State, step s = .next t :=
  ⟨waitS .recal, _, rfl⟩

/-- Every case of CountersMoveOnlyByName is met by some state and operands. -/
theorem witness_CountersMoveOnlyByName :
    ∃ (c : Instr) (s t : State), c.moves = false ∧ exec c s = .next t :=
  ⟨.recal, State.reset, _, rfl, rfl⟩

/-- Every case of CustodyMovesOnlyByName is met by some state and operands. -/
theorem witness_CustodyMovesOnlyByName :
    ∃ (c : Instr) (s t : State), c.custodial = false ∧ exec c s = .next t :=
  ⟨.recal, State.reset, _, rfl, rfl⟩

/-- Every case of OwnerLockNeedsOpenSeal is met by some state and operands. -/
theorem witness_OwnerLockNeedsOpenSeal :
    ∃ (c : Instr) (s t : State), exec c s = .next t ∧ t.gd.ownerLock ≠ s.gd.ownerLock :=
  ⟨.ownerLockWrite lead 1, gdS fun g => { g with sealSt := .opened }, _, rfl, by decide⟩

/-- Every case of CommandActsAtOnePart is met by some state and operands. -/
theorem witness_CommandActsAtOnePart :
    (∃ (c : Instr) (s t : State), exec c s = .next t ∧ c.part = .tsu)
    ∧ (∃ (c : Instr) (s t : State), exec c s = .next t ∧ c.part = .gd) :=
  ⟨⟨.recal, State.reset, _, rfl, rfl⟩,
   ⟨.fwCommit lead, State.reset, _, rfl, rfl⟩⟩

/-- Every case of TimeDomainMovesOnlyByName is met by some state and operands. -/
theorem witness_TimeDomainMovesOnlyByName :
    ∃ (c : Instr) (s t : State), c.timed = false ∧ exec c s = .next t :=
  ⟨.recal, State.reset, _, rfl, rfl⟩

/-- Every case of TickAddsAddend is met by some state and operands. -/
theorem witness_TickAddsAddend :
    (∃ (n : Node) (s : State), (n = .tsu → s.tsu.com.time.commitDue = false) ∧ (s.time n).pllLocked = true ∧ (n = .tsu → s.tsu.tdHeld = false))
    ∧ (∃ (n : Node) (s : State), (n = .tsu → s.tsu.com.time.commitDue = false) ∧ ((s.time n).pllLocked = false ∨ (n = .tsu ∧ s.tsu.tdHeld = true))) :=
  ⟨⟨.tsu, State.reset, by decide⟩,
   ⟨.gd, tmS .gd fun t => { t with pllLocked := false }, by decide⟩⟩

/-- Every case of CounterCommands is met by some state and operands. -/
theorem witness_CounterCommands :
    (∃ s : State, s.tsu.com.time.standalone = true ∧ s.tsu.com.time.stepped = false ∧ s.timeSet.ns < 1000000000)
    ∧ (∃ s : State, (s.tsu.com.time.standalone = false ∨ s.tsu.com.time.stepped = true))
    ∧ (∃ s : State, s.tsu.com.time.standalone = true ∧ s.tsu.com.time.stepped = false ∧ 1000000000 ≤ s.timeSet.ns)
    ∧ (∃ s : State, (s.tsu.com.time.tq = .unset ∨ s.tsu.com.time.tq = .loc) ∧ s.tsu.com.time.standalone = true)
    ∧ (∃ (s : State) (w : Word), s.tsu.com.time.standalone = true)
    ∧ (∃ (s : State) (w : Word), s.tsu.com.time.standalone = false) :=
  ⟨⟨tmS .tsu fun t => { t with standalone := true }, by decide⟩,
   ⟨State.reset, by decide⟩,
   ⟨((tmS .tsu fun t => { t with standalone := true }).setReg .tsu 0x128 1000000000#32), by decide⟩,
   ⟨tmS .tsu fun t => { t with standalone := true }, by decide⟩,
   ⟨tmS .tsu (fun t => { t with standalone := true }), 0, by decide⟩,
   ⟨State.reset, 0, by decide⟩⟩

/-- Every case of TimeDomainRules is met by some state and operands. -/
theorem witness_TimeDomainRules :
    (∃ s : State, s.tsu.com.time.standalone = true)
    ∧ (∃ s : State, s.tsu.com.time.standalone = false)
    ∧ (∃ (n : Node) (s : State), (s.time n).pllLocked = true)
    ∧ (∃ (n : Node) (s : State), (s.time n).pllLocked = false)
    ∧ (∃ (n : Node) (s : State), n = .tsu)
    ∧ (∃ (s : State) (acc : Access), acc.whole = true ∧ acc.master ≠ 2 ∧ acc.same = false ∧ s.gd.sealSt = .opened)
    ∧ (∃ (s : State) (acc : Access), acc.whole = true ∧ acc.master ≠ 2 ∧ acc.same = false ∧ s.gd.sealSt ≠ .opened) :=
  ⟨⟨tmS .tsu fun t => { t with standalone := true }, by decide⟩,
   ⟨State.reset, by decide⟩,
   ⟨.gd, State.reset, by decide⟩,
   ⟨.gd, tmS .gd fun t => { t with pllLocked := false }, by decide⟩,
   ⟨.tsu, State.reset, by decide⟩,
   ⟨gdS (fun g => { g with sealSt := .opened }), lead, by decide⟩,
   ⟨State.reset, lead, by decide⟩⟩

/-- Every case of QualityRules is met by some state and operands. -/
theorem witness_QualityRules :
    (∃ (n : Node) (s : State), s.qualMet n = true ∧ ((s.time n).tq = .settling ∨ (s.time n).tq = .withdrawn) ∧ (n = .tsu → s.tsu.nbrMismatch = false))
    ∧ (∃ (n : Node) (s : State), (s.time n).tq = .qualified ∧ s.qualDrop n ≤ (s.time n).outLimit ∧ (s.time n).offset.natAbs ≤ 65536000)
    ∧ (∃ (n : Node) (s : State) (at0 : Time80), (s.time n).tq = .flywheel ∧ (s.time n).flyAt = some at0 ∧ at0.toNs16 + 100000000 * 65536 ≤ (s.now n).toNs16)
    ∧ (∃ (n : Node) (s : State) (at0 : Time80), (s.time n).tq = .flywheel ∧ (s.time n).flyAt = some at0 ∧ (s.now n).toNs16 < at0.toNs16 + 100000000 * 65536)
    ∧ (∃ (n : Node) (s : State), ((s.time n).info.leap61 = true ∨ (s.time n).info.leap59 = true) ∧ (s.time n).info.leapAt.toNs ≤ (s.now n).toNs) :=
  ⟨⟨.tsu, ((tmS .tsu fun t => { t with tq := .settling, stepped := true, sel := some 0, upTq := .qualified, inLimit := 4096 }).updSrc ⟨.tsu, 0⟩ fun x => { x with delayValid := true }), by decide⟩,
   ⟨.tsu, tmS .tsu fun t => { t with tq := .qualified, outLimit := 100000, offset := -65536000 }, by decide⟩,
   ⟨.tsu, tmS .tsu (fun t => { t with tq := .flywheel, flyAt := some Time80.zero, counter := ⟨0, 100000000, 0⟩ }), Time80.zero, by decide⟩,
   ⟨.tsu, tmS .tsu (fun t => { t with tq := .flywheel, flyAt := some Time80.zero, counter := ⟨0, 99999999, 4294967295⟩ }), Time80.zero, by decide⟩,
   ⟨.gd, tmS .gd fun t => { t with info := { t.info with leap61 := true, leapAt := Time80.zero } }, by decide⟩⟩

/-- Every case of TimeFrameSendRules is met by some state and operands. -/
theorem witness_TimeFrameSendRules :
    (∃ (l : LinkId) (stamp : Int) (s : State), ((s.link l).state = .up ∨ (s.link l).state = .ident))
    ∧ (∃ (l : LinkId) (stamp : Int) (s : State), (s.link l).state ≠ .up ∧ (s.link l).state ≠ .ident) :=
  ⟨⟨⟨.tsu, 0⟩, 0, linkS ⟨.tsu, 0⟩ fun k => { k with state := .up }, by decide⟩,
   ⟨⟨.tsu, 0⟩, 0, State.reset, by decide⟩⟩

/-- Every case of TimeFrameRxRules is met by some state and operands. -/
theorem witness_TimeFrameRxRules :
    (∃ (p : Nat) (rx : Rx) (stamp : Int) (s : State), (s.link ⟨.tsu, p⟩).state = .up ∧ (s.link ⟨.tsu, p⟩).excluded = false ∧ rx.check = .good ∧ rx.frame.type = 0x01 ∧ rx.frame.cls = 0 ∧ rx.frame.ver.toNat = (s.link ⟨.tsu, p⟩).arch ∧ timeFrameValid rx.frame = true ∧ s.tsu.com.time.sel = some p ∧ (s.tsu.com.time.stepped = false ∨ s.tsu.com.time.epoch.toNat = rx.frame.byte 34) ∧ frameQuality rx.frame = .qualified ∧ bitOf (rx.frame.byte 35) 1 = false)
    ∧ (∃ (l : LinkId) (rx : Rx) (stamp : Int) (s : State), (s.link l).state = .up ∧ (s.link l).excluded = false ∧ rx.check = .good ∧ rx.frame.type = 0x01 ∧ rx.frame.cls = 0 ∧ rx.frame.ver.toNat = (s.link l).arch ∧ timeFrameValid rx.frame = true)
    ∧ (∃ (l : LinkId) (rx : Rx) (stamp : Int) (s : State), (s.link l).state = .up ∧ (s.link l).excluded = true ∧ rx.check = .good ∧ rx.frame.type = 0x01 ∧ rx.frame.cls = 0 ∧ rx.frame.ver.toNat = (s.link l).arch)
    ∧ (∃ (l : LinkId) (rx : Rx) (stamp : Int) (s : State), (s.link l).state = .up ∧ rx.check = .good ∧ rx.frame.type = 0x01 ∧ rx.frame.ver.toNat ≠ (s.link l).arch)
    ∧ (∃ (l : LinkId) (rx : Rx) (stamp : Int) (s : State), (s.link l).state = .up ∧ (s.link l).excluded = false ∧ rx.check = .good ∧ rx.frame.type = 0x01 ∧ rx.frame.cls = 0 ∧ rx.frame.ver.toNat = (s.link l).arch ∧ timeFrameValid rx.frame = false)
    ∧ (∃ (l : LinkId) (rx : Rx) (stamp : Int) (s : State), (s.link l).state = .up ∧ rx.check = .poison)
    ∧ (∃ (l : LinkId) (rx : Rx) (stamp : Int) (s : State), (s.link l).state ≠ .up ∧ (s.link l).state ≠ .ident) :=
  ⟨⟨0, good (frame 1 0 (zeros 23 ++ [0x40])), 0, (upS ⟨.tsu, 0⟩).updTime .tsu fun t => { t with sel := some 0 }, by decide⟩,
   ⟨⟨.gd, 0⟩, good (frame 1 0 []), 0, upS ⟨.gd, 0⟩, by decide⟩,
   ⟨⟨.gd, 0⟩, good (frame 1 0 []), 0, linkS ⟨.gd, 0⟩ fun k => { k with state := .up, excluded := true }, by decide⟩,
   ⟨⟨.gd, 0⟩, good { frame 1 0 [] with ver := 1 }, 0, upS ⟨.gd, 0⟩, by decide⟩,
   ⟨⟨.gd, 0⟩, good { frame 1 0 [] with time := 1000000000 }, 0, upS ⟨.gd, 0⟩, by decide⟩,
   ⟨⟨.gd, 0⟩, poison (frame 1 0 []), 0, upS ⟨.gd, 0⟩, by decide, poison_check _⟩,
   ⟨⟨.gd, 0⟩, good (frame 1 0 []), 0, State.reset, by decide⟩⟩

/-- Every case of SourceRules is met by some state and operands. -/
theorem witness_SourceRules :
    (∃ (l : LinkId) (s : State), (s.src l).delayValid = false ∧ 64 ≤ (s.src l).count ∧ (s.link l).state = .up ∧ (s.src l).oldMean = none ∧ (s.time l.node).sel = some l.port)
    ∧ (∃ (l : LinkId) (s : State), 16 ≤ (s.src l).gated ∧ (s.src l).delayValid = true)
    ∧ (∃ (l : LinkId) (s u : State), s.trained l = true ∧ (s.src l).lost = false ∧ (s.src l).lastValid + 16384 ≤ s.aon l.node ∧ u = ((s.updSrc l fun v => { v with lost := true, away := true }).setEvt l.node (tstatOff l) 0x4).log l.node .timeLoss l.source)
    ∧ (∃ (p : Nat) (s : State), s.trained ⟨.gd, p⟩ = true ∧ (s.src ⟨.gd, p⟩).lost = false ∧ (s.src ⟨.gd, p⟩).lastValid + 16384 ≤ s.aon .gd ∧ p ≠ s.gd.partnerPort ∧ p ≠ 64 ∧ p ≠ 65 ∧ s.gd.com.time.sel ≠ some p ∧ s.gd.com.time.tq ≠ .acquiring)
    ∧ (∃ (l : LinkId) (s : State), 16 ≤ (s.src l).better ∧ l.port ∈ s.candPorts l.node ∧ s.eligible l = true ∧ ((s.time l.node).stepped = false ∨ (s.src l).senderEpoch = (s.time l.node).epoch)) :=
  ⟨⟨⟨.tsu, 0⟩, (((linkS ⟨.tsu, 0⟩ fun k => { k with state := .up }).updTime .tsu fun t => { t with sel := some 0 }).updSrc ⟨.tsu, 0⟩ fun x => { x with count := 64 }), by decide⟩,
   ⟨⟨.tsu, 0⟩, (State.reset.updSrc ⟨.tsu, 0⟩ fun x => { x with gated := 16, delayValid := true }), by decide⟩,
   ⟨⟨.gd, 3⟩, ((upS ⟨.gd, 3⟩).updTime .gd fun t => { t with aon := 16384 }), _, by decide, by decide, by decide, rfl⟩,
   ⟨3, ((upS ⟨.gd, 3⟩).updTime .gd fun t => { t with aon := 16384 }), by decide⟩,
   ⟨⟨.tsu, 1⟩, (((linkS ⟨.tsu, 1⟩ fun k => { k with state := .up }).updSrc ⟨.tsu, 1⟩ fun x => { x with lost := false, measured := true, better := 16 })), by decide⟩⟩

/-- Every case of ReferenceInputRules is met by some state and operands. -/
theorem witness_ReferenceInputRules :
    (∃ (n : Nat) (stamp at0 : Int) (s : State), n < 4 ∧ s.refPresent (n + 1) = true ∧ s.refMode n = 1 ∧ (s.refSrc (n + 1)).lastEdge = none ∧ at0 = correctStamp stamp (- (BitVec.ofNat 32 (s.reg .gd (0x218 + 4 * n))).toInt))
    ∧ (∃ (n : Nat) (stamp at0 e : Int) (s : State), n < 4 ∧ s.refPresent (n + 1) = true ∧ s.refMode n = 1 ∧ (s.refSrc (n + 1)).lastEdge = some e ∧ at0 = correctStamp stamp (- (BitVec.ofNat 32 (s.reg .gd (0x218 + 4 * n))).toInt) ∧ 6553600 < (s.edgeFrom e at0).2.natAbs)
    ∧ (∃ (n : Nat) (stamp : Int) (sec : Nat) (ok : Bool) (utc : UtcNews) (s : State), n < 4 ∧ s.refPresent (n + 1) = true ∧ s.refMode n = 1 ∧ (s.refSrc (n + 1)).lastPulse = none)
    ∧ (∃ (n : Nat) (stamp e : Int) (sec : Nat) (utc : UtcNews) (s : State), n < 4 ∧ s.refPresent (n + 1) = true ∧ s.refMode n = 1 ∧ (s.refSrc (n + 1)).lastPulse = some e ∧ bitOf (s.reg .gd 0x214) (8 * n + 2) = false ∧ 655360000000 ≤ stamp - e ∧ stamp - e ≤ 58982400000000 ∧ ((s.refSrc (n + 1)).lastSec = none ∨ (s.refSrc (n + 1)).lastSec = some (sec - 1) ∧ 1 ≤ sec))
    ∧ (∃ (n dom id : Nat) (t1 t2 t3 t4 : Int) (s : State), n < 2 ∧ s.gd.hasPtp = true ∧ s.ptpRole n = 3 ∧ dom = s.ptpDomain n ∧ (s.refSrc (n + 5)).chosen = some id)
    ∧ (∃ (n dom id cls rank : Nat) (leap : Option LeapNews) (s u : State), n < 2 ∧ s.gd.hasPtp = true ∧ s.ptpRole n = 3 ∧ dom = s.ptpDomain n ∧ u = (s.updRefSrc (n + 5) fun v => { v with masters := Tab.put v.masters id ⟨cls, rank, s.aon .gd⟩, chosen := { v with masters := Tab.put v.masters id ⟨cls, rank, s.aon .gd⟩ : RefSrc }.bestMaster (s.aon .gd) }) ∧ (u.refSrc (n + 5)).chosen ≠ some id)
    ∧ (∃ (n dom id cls rank : Nat) (leap : Option LeapNews) (s u : State), n < 2 ∧ s.gd.hasPtp = true ∧ s.ptpRole n = 3 ∧ dom = s.ptpDomain n ∧ u = (s.updRefSrc (n + 5) fun v => { v with masters := Tab.put v.masters id ⟨cls, rank, s.aon .gd⟩, chosen := { v with masters := Tab.put v.masters id ⟨cls, rank, s.aon .gd⟩ : RefSrc }.bestMaster (s.aon .gd) }) ∧ (u.refSrc (n + 5)).chosen = some id ∧ s.ptpClassMax < cls)
    ∧ (∃ (n dom : Nat) (s : State), n < 2 ∧ s.gd.hasPtp = true ∧ s.ptpRole n = 1 ∧ dom = s.ptpDomain n)
    ∧ (∃ (n : Nat) (q : EsmcLevel) (s : State), n < 2 ∧ s.refPresent (n + 7) = true)
    ∧ (∃ (n : Nat) (s : State), n < 2 ∧ s.refPresent (n + 7) = true)
    ∧ (∃ (src : Nat) (why : RefLoss) (s : State), s.lossApplies src why = true ∧ ((s.refSrc src).state = .qualifying ∨ (s.refSrc src).state = .qualified) ∧ (if (lossLimit why).2 then (s.refSrc src).lastAnn else (s.refSrc src).lastSeen) + (lossLimit why).1 ≤ s.aon .gd)
    ∧ (∃ (src : Nat) (dev : Int) (s u : State), (src = 7 ∨ src = 8) ∧ s.refPresent src = true ∧ u = ((s.noteRate src dev).updRefSrc src fun v => { v with lastSeen := s.aon .gd }))
    ∧ (∃ (src : Nat) (bit : Word) (s : State), s.refPresent src = true) :=
  ⟨⟨3, 0, _, State.reset.setReg .gd 0x214 0x01000000, by decide, by decide, by decide, by decide, rfl⟩,
   ⟨3, 2000000000000, _, 0, (refS 4 fun v => { v with lastEdge := some 0 }).setReg .gd 0x214 0x01000000, by decide, by decide, by decide, by decide, rfl, by decide⟩,
   ⟨3, 0, 0, true, ⟨0, none⟩, State.reset.setReg .gd 0x214 0x01000000, by decide⟩,
   ⟨3, 655360000000, 0, 5, ⟨0, none⟩, ((refS 4 fun v => { v with lastPulse := some 0, lastSec := some 4 }).setReg .gd 0x214 0x01000000), by decide⟩,
   ⟨1, 24, 0, 0, 0, 0, 0, (refS 6 fun v => { v with chosen := some 0 }).setReg .gd 0x298 3, by decide⟩,
   ⟨1, 24, 0, 6, 5, none, (refS 6 fun v => { v with masters := [(1, ⟨6, 0, 0⟩)] }).setReg .gd 0x298 3, _, by decide, by decide, by decide, by decide, rfl, by decide⟩,
   ⟨1, 24, 0, 8, 0, none, State.reset.setReg .gd 0x298 3, _, by decide, by decide, by decide, by decide, rfl, by decide⟩,
   ⟨1, 24, State.reset.setReg .gd 0x298 1, by decide⟩,
   ⟨0, .prc, State.reset.setReg .gd 0x294 3, by decide⟩,
   ⟨1, State.reset.setReg .gd 0x298 3, by decide⟩,
   ⟨1, .edge, (((refS 1 fun v => { v with state := .qualified }).setReg .gd 0x214 1).updTime .gd fun t => { t with aon := 1100000000 }), by decide⟩,
   ⟨7, -60001, State.reset.setReg .gd 0x294 3, _, by decide, by decide, rfl⟩,
   ⟨7, 0x10, State.reset.setReg .gd 0x294 3, by decide⟩⟩

/-- Every case of SelectorRules is met by some state and operands. -/
theorem witness_SelectorRules :
    (∃ (src : Nat) (s : State), (s.refSrc src).state = .qualifying ∧ (s.refSrc src).okSince + s.refQualTime ≤ s.aon .gd)
    ∧ (∃ (i c d : Nat) (s : State), bitOf (s.reg .gd 0x268) 3 = false ∧ s.gd.ref.hold = none ∧ s.gd.ref.timeEntry = some c ∧ s.gd.ref.freqEntry = some d ∧ s.timeCand c = true ∧ s.freqCand d = true ∧ s.mayRevert s.timeCand (some c) i = true ∧ s.mayRevert s.freqCand (some d) i = true)
    ∧ (∃ (acc : Access) (w : Word) (s : State), acc.whole = true ∧ acc.master ≠ 2 ∧ acc.same = false ∧ s.gdAbsent 0x268 = false ∧ s.gd.sealSt = .opened ∧ s.gd.ref.hold = none ∧ bitOf w.toNat 3 = true ∧ s.timeCand (bitsOf w.toNat 2 0) = true)
    ∧ (∃ (acc : Access) (w : Word) (s : State), acc.whole = true ∧ acc.master ≠ 2 ∧ acc.same = false ∧ s.gdAbsent 0x268 = false ∧ s.gd.sealSt ≠ .opened)
    ∧ (∃ (at0 : Nat) (s : State), s.gd.ref.partnerLostAt = some at0 ∧ s.gd.role = some 3 ∧ s.gd.ref.isRoot = false ∧ s.gd.com.time.stepped = true ∧ (s.src ⟨.gd, s.gd.partnerPort⟩).lost = true ∧ at0 + s.takeoverWait ≤ s.aon .gd)
    ∧ (∃ s : State, s.gd.ref.partnerLostAt = none)
    ∧ (∃ s : State, s.gd.role = some 3 ∧ s.gd.com.time.stepped = false ∧ s.gd.com.time.sel = none ∧ s.bestEntry s.firstStepEntry = none ∧ s.gd.ref.powerAt + s.firstRefWait ≤ s.aon .gd)
    ∧ (∃ (at0 : Nat) (s : State), s.gd.ref.upLostAt = some at0 ∧ s.gd.role = some 2 ∧ s.gd.variant = .gd64x ∧ 2 ≤ s.rootIndex (s.gd.locator.getD 0) ∧ s.rootIndex (s.gd.locator.getD 0) ≤ 7 ∧ s.gd.ref.isRoot = false ∧ s.gd.com.time.stepped = true ∧ at0 + s.electWait + (s.rootIndex (s.gd.locator.getD 0) - 2) * 5000000 ≤ s.aon .gd ∧ s.rootTimeSeen = false)
    ∧ (∃ (e : Nat) (o : Int) (s u : State), u = [1, 2, 3, 4, 5, 6].foldl (fun x src => x.filterSource src) s ∧ u.gd.ref.isRoot = true ∧ u.gd.com.time.stepped = true ∧ s.gd.ref.timeEntry = some e ∧ u.gd.ref.timeEntry = some e ∧ (s.refSrc (s.prioSource e)).num ≠ 0 ∧ (s.refSrc (s.prioSource e)).filtered ≠ none ∧ (u.refSrc (u.prioSource e)).filtered = some o ∧ u.gd.ref.rstate = .pulling ∧ 15 ≤ u.gd.ref.inRow ∧ o.natAbs ≤ 327680) :=
  ⟨⟨1, ((refS 1 fun v => { v with state := .qualifying }).updTime .gd fun t => { t with aon := 10000000000 }), by decide⟩,
   ⟨0, 1, 1, (((((refS 1 fun v => { v with state := .qualified }).updRefSrc 2 fun v => { v with state := .qualified }).setReg .gd 0x214 0x101).setReg .gd 0x248 0x101).setReg .gd 0x24C 0x12).updGd fun g => { g with ref := { g.ref with timeEntry := some 1, freqEntry := some 1 } }, by decide⟩,
   ⟨lead, 8, ((refS 1 fun v => { v with state := .qualified }).setReg .gd 0x214 1).setReg .gd 0x248 0x101 |>.updGd fun g => { g with sealSt := .opened }, by decide⟩,
   ⟨lead, 0, State.reset, by decide⟩,
   ⟨0, (((gdS fun g => { g with locator := some (mkLoc 3 0), ref := { g.ref with partnerLostAt := some 0 } }).updTime .gd fun t => { t with stepped := true, aon := 20000000 }).updSrc ⟨.gd, 67⟩ fun x => { x with lost := true }), by decide⟩,
   ⟨State.reset, by decide⟩,
   ⟨(gdS fun g => { g with locator := some (mkLoc 3 0) }).updTime .gd fun t => { t with aon := 2000000000 }, by decide⟩,
   ⟨0, (((gdS fun g => { g with variant := .gd64x, locator := some (mkLoc 2 0), ref := { g.ref with upLostAt := some 0 } }).setReg .gd 0x290 (BitVec.ofNat 32 (0x80000000 + mkLoc 2 0))).updTime .gd fun t => { t with stepped := true, aon := 35000000 }), by decide⟩,
   ⟨0, 327680, (((refS 1 fun v => { v with state := .qualified, filtered := some 0, sum := 327680, num := 1 }).setReg .gd 0x248 0x101).updGd fun g => { g with ref := { g.ref with isRoot := true, timeEntry := some 0, rstate := .pulling, inRow := 15 } }).updTime .gd (fun t => { t with stepped := true }), _, rfl, by decide⟩⟩

/-- Every case of OutputRules is met by some state and operands. -/
theorem witness_OutputRules :
    (∃ (n : Nat) (s : State), n < 2 ∧ s.gd.hasPtp = true ∧ s.ptpRole n = 1)
    ∧ (∃ (t : Time80) (s u : State), s.gd.com.time.stepped = true ∧ s.gd.out.aligned = false ∧ bitsOf (s.reg .gd 0x2A4) 2 0 ≠ 0 ∧ s.gd.out.firstAt = some t ∧ nextSecond t ≤ s.gd.com.time.counter.toNs ∧ u = (s.updGd fun g => { g with out := { g.out with misalign := 0, aligned := true, orderAt := none, firstAt := none } }))
    ∧ (∃ s : State, s.gdAbsent 0x2A4 = false)
    ∧ (∃ s : State, s.gdAbsent 0x2A4 = true)
    ∧ (∃ (o : Time80) (s u : State), s.gd.out.orderAt = some o ∧ boundaryAfter o ≤ s.gd.com.time.counter.toNs ∧ u = (s.updGd fun g => { g with out := { g.out with misalign := 0, aligned := true, orderAt := none, firstAt := none } }))
    ∧ (∃ (o : Time80) (s : State), s.gd.out.orderAt = some o ∧ s.gd.com.time.counter.toNs < boundaryAfter o) :=
  ⟨⟨1, State.reset.setReg .gd 0x298 1, by decide⟩,
   ⟨Time80.zero, (((tmS .gd fun t => { t with stepped := true, counter := ⟨1, 0, 0⟩ }).setReg .gd 0x2A4 1).updGd fun g => { g with out := { g.out with firstAt := some Time80.zero } }), _, by decide, by decide, by decide, by decide, by decide, rfl⟩,
   ⟨State.reset, by decide⟩,
   ⟨gdS fun g => { g with variant := .gd32e }, by decide⟩,
   ⟨Time80.zero, ((gdS fun g => { g with out := { g.out with orderAt := some Time80.zero } }).updTime .gd fun t => { t with counter := ⟨1, 0, 0⟩ }), _, by decide, by decide, rfl⟩,
   ⟨Time80.zero, (gdS fun g => { g with out := { g.out with orderAt := some Time80.zero } }).updTime .gd fun t => { t with counter := ⟨0, 999999999, 0⟩ }, by decide⟩⟩

/-- Every case of TimeBusRules is met by some state and operands. -/
theorem witness_TimeBusRules :
    (∃ s : State, s.tsu.syncAt + 1024 ≤ s.aon .tsu)
    ∧ (∃ (r c seq : Nat) (rest : List BusItem) (ns frac : BitVec 32) (low : BitVec 64) (s : State), (s.region r).flight = ⟨seq, .sync c⟩ :: rest ∧ crcOk (ns ++ frac ++ low) = true ∧ (s.region r).present = true ∧ (s.region r).fail = false ∧ (s.region r).calibrated = true ∧ (s.region r).loaded = false ∧ (s.region r).calActive = false)
    ∧ (∃ (r seq a b named : Nat) (rest : List BusItem) (sq : BitVec 6) (ad : BitVec 36) (ct : BitVec 64) (low : BitVec 22) (s : State), (s.region r).flight = ⟨seq, .addend a b named⟩ :: rest ∧ crcOk (sq ++ ad ++ ct ++ low) = true ∧ (s.region r).present = true ∧ (s.region r).fail = false ∧ (s.region r).loaded = true ∧ seq ∉ (s.region r).seen ∧ (s.region r).calibrated = true ∧ (s.region r).calActive = false)
    ∧ (∃ (r seq slot t : Nat) (fence : Bool) (rest : List BusItem) (sq : BitVec 6) (ti : BitVec 32) (fr : BitVec 16) (sl : BitVec 4) (fe : BitVec 1) (low : BitVec 69) (s : State), (s.region r).flight = ⟨seq, .launchAt t slot fence⟩ :: rest ∧ crcOk (sq ++ ti ++ fr ++ sl ++ fe ++ low) = true ∧ (s.region r).ready = true ∧ seq ∉ (s.region r).seen ∧ sdiff 48 (s.region r).count48 (t - s.advance16 r) ≤ 0)
    ∧ (∃ (r seq slot t : Nat) (rest : List BusItem) (sq : BitVec 6) (sl : BitVec 4) (low : BitVec 118) (s u : State) (a : Arm) (i : Nat), (s.region r).flight = ⟨seq, .cancel slot t⟩ :: rest ∧ crcOk (sq ++ sl ++ low) = true ∧ (s.region r).ready = true ∧ seq ∉ (s.region r).seen ∧ u = ((s.updRegion r fun g => { g with flight := rest }).updRegion r fun g => { g with acks := g.acks ++ [seq], seen := (seq :: g.seen).take 32 }) ∧ u.armOf r slot = some (i, a) ∧ a.cancel ≠ .none ∧ stamp48 a.t.toNs16 = t ∧ sdiff 48 (s.region r).count48 t < 0)
    ∧ (∃ (r seq slot t : Nat) (rest : List BusItem) (sq : BitVec 6) (sl : BitVec 4) (low : BitVec 118) (s u : State) (a : Arm) (i : Nat), (s.region r).flight = ⟨seq, .cancel slot t⟩ :: rest ∧ crcOk (sq ++ sl ++ low) = true ∧ (s.region r).ready = true ∧ seq ∉ (s.region r).seen ∧ u = ((s.updRegion r fun g => { g with flight := rest }).updRegion r fun g => { g with acks := g.acks ++ [seq], seen := (seq :: g.seen).take 32 }) ∧ 0 ≤ sdiff 48 (s.region r).count48 t)
    ∧ (∃ (r seq : Nat) (tf : Word) (code : Byte) (rest : List BusItem) (sq : BitVec 6) (ti : BitVec 32) (co : BitVec 8) (low : BitVec 82) (s : State), (s.region r).flight = ⟨seq, .fchgAt tf code⟩ :: rest ∧ crcOk (sq ++ ti ++ co ++ low) = true ∧ (s.region r).ready = true ∧ seq ∉ (s.region r).seen)
    ∧ (∃ (r seq a b c slot t taps : Nat) (tf : Word) (code : Byte) (fence : Bool) (rest : List BusItem) (s u : State), ∃ (ns frac : BitVec 32) (low : BitVec 64), u = (s.updRegion r fun g => { g with flight := rest }) ∧ (s.region r).flight = ⟨seq, .sync c⟩ :: rest ∧ crcOk (ns ++ frac ++ low) = false)
    ∧ (∃ (r seq a b c slot t taps : Nat) (tf : Word) (code : Byte) (fence : Bool) (rest : List BusItem) (s u : State), ∃ (sq : BitVec 6) (ad : BitVec 36) (ct : BitVec 64) (low : BitVec 22), u = (s.updRegion r fun g => { g with flight := rest }) ∧ (s.region r).flight = ⟨seq, .addend a b c⟩ :: rest ∧ crcOk (sq ++ ad ++ ct ++ low) = false)
    ∧ (∃ (r seq a b c slot t taps : Nat) (tf : Word) (code : Byte) (fence : Bool) (rest : List BusItem) (s u : State), ∃ (sq : BitVec 6) (ti : BitVec 32) (fr : BitVec 16) (sl : BitVec 4) (fe : BitVec 1) (low : BitVec 69), u = (s.updRegion r fun g => { g with flight := rest }) ∧ (s.region r).flight = ⟨seq, .launchAt t slot fence⟩ :: rest ∧ crcOk (sq ++ ti ++ fr ++ sl ++ fe ++ low) = false)
    ∧ (∃ (r seq a b c slot t taps : Nat) (tf : Word) (code : Byte) (fence : Bool) (rest : List BusItem) (s u : State), ∃ (sq : BitVec 6) (sl : BitVec 4) (low : BitVec 118), u = (s.updRegion r fun g => { g with flight := rest }) ∧ (s.region r).flight = ⟨seq, .cancel slot t⟩ :: rest ∧ crcOk (sq ++ sl ++ low) = false)
    ∧ (∃ (r seq a b c slot t taps : Nat) (tf : Word) (code : Byte) (fence : Bool) (rest : List BusItem) (s u : State), ∃ (sq : BitVec 6) (ti : BitVec 32) (co : BitVec 8) (low : BitVec 82), u = (s.updRegion r fun g => { g with flight := rest }) ∧ (s.region r).flight = ⟨seq, .fchgAt tf code⟩ :: rest ∧ crcOk (sq ++ ti ++ co ++ low) = false)
    ∧ (∃ (r seq a b c slot t taps : Nat) (tf : Word) (code : Byte) (fence : Bool) (rest : List BusItem) (s u : State), ∃ noise : BitVec 128, u = (s.updRegion r fun g => { g with flight := rest }) ∧ (s.region r).flight = ⟨seq, .cal⟩ :: rest ∧ (s.region r).calActive = true ∧ (s.region r).calCount < 64 ∧ crcOk noise = false)
    ∧ (∃ (r seq : Nat) (s : State), seq ∈ (s.region r).acks)
    ∧ (∃ (r seq : Nat) (w : BusWord) (s : State), (s.region r).unacked.find? (fun w => w.seq = seq) = some w ∧ w.resends < 3 ∧ w.lost = false ∧ s.timeUp w = false ∧ w.sentAt + 24 ≤ s.aon .tsu ∧ (s.region r).queue = [])
    ∧ (∃ (r seq a b c sent : Nat) (s : State), (s.region r).unacked = [⟨seq, .addend a b c, sent, 3, false⟩] ∧ sent + 24 ≤ s.aon .tsu)
    ∧ (∃ (r taps seq : Nat) (rest : List BusItem) (noise : BitVec 128) (s : State), (s.region r).flight = ⟨seq, .cal⟩ :: rest ∧ crcOk noise = true ∧ (s.region r).calActive = true ∧ (s.region r).calCount < 64)
    ∧ (∃ (r : Nat) (d : Int) (s : State), (s.region r).calActive = true ∧ (s.region r).calCount = 64 ∧ (s.region r).background = false ∧ d = 125 * (s.region r).calSum - 1024 * (s.region r).turnaround ∧ 1024000 ≤ d ∧ d ≤ 24576000)
    ∧ (∃ (r : Nat) (d : Int) (s : State), (s.region r).calActive = true ∧ (s.region r).calCount = 64 ∧ d = 125 * (s.region r).calSum - 1024 * (s.region r).turnaround ∧ (d < 1024000 ∨ 24576000 < d))
    ∧ (∃ s : State, bitOf (s.reg .tsu 0x1C0) 1 = true)
    ∧ (∃ s : State, bitOf (s.reg .tsu 0x1C0) 1 = false) :=
  ⟨⟨tmS .tsu fun t => { t with aon := 1024 }, by decide⟩,
   ⟨0, 7, 1, [], 0, 0, 0, regionS 0 fun g => { g with flight := [⟨1, .sync 7⟩], calActive := false, calibrated := true }, by decide, crc_good, by decide⟩,
   ⟨0, 1, 0x200000000, 0, 0, [], 0, 0, 0, 0, regionS 0 fun g => { g with flight := [⟨1, .addend 0x200000000 0 0⟩], calActive := false, loaded := true, calibrated := true }, by decide, crc_good, by decide⟩,
   ⟨0, 1, 15, 1000, true, [], 0, 0, 0, 0, 0, 0, regionS 0 fun g => { g with flight := [⟨1, .launchAt 1000 15 true⟩], ready := true }, by decide, crc_good, by decide⟩,
   ⟨0, 1, 3, 65536, [], 0, 0, 0, (regionS 0 fun g => { g with flight := [⟨1, .cancel 3 65536⟩], ready := true }).updTsu (fun x => { x with arms := [(0, { arm0 with slots := [(0, 3)], t := ⟨0, 1, 0⟩, cancel := .aborted })] }), _, { arm0 with slots := [(0, 3)], t := ⟨0, 1, 0⟩, cancel := .aborted }, 0, by decide, crc_good, by decide, by decide, rfl, by decide⟩,
   ⟨0, 1, 15, 0, [], 0, 0, 0, regionS 0 (fun g => { g with flight := [⟨1, .cancel 15 0⟩], ready := true }), _, arm0, 0, by decide, crc_good, by decide, by decide, rfl, by decide⟩,
   ⟨0, 1, 5, 0, [], 0, 0, 0, 0, regionS 0 fun g => { g with flight := [⟨1, .fchgAt 5 0⟩], ready := true }, by decide, crc_good, by decide⟩,
   ⟨0, 1, 0, 0, 0, 0, 0, 0, 0, 0, false, [], regionS 0 (fun g => { g with flight := [⟨1, .sync 0⟩] }), _, 0, 0, 1, rfl, by decide, crc_bad⟩,
   ⟨0, 1, 0, 0, 0, 0, 0, 0, 0, 0, false, [], regionS 0 (fun g => { g with flight := [⟨1, .addend 0 0 0⟩] }), _, 0, 0, 0, 1, rfl, by decide, crc_bad⟩,
   ⟨0, 1, 0, 0, 0, 0, 0, 0, 0, 0, false, [], regionS 0 (fun g => { g with flight := [⟨1, .launchAt 0 0 false⟩] }), _, 0, 0, 0, 0, 0, 1, rfl, by decide, crc_bad⟩,
   ⟨0, 1, 0, 0, 0, 0, 0, 0, 0, 0, false, [], regionS 0 (fun g => { g with flight := [⟨1, .cancel 0 0⟩] }), _, 0, 0, 1, rfl, by decide, crc_bad⟩,
   ⟨0, 1, 0, 0, 0, 0, 0, 0, 0, 0, false, [], regionS 0 (fun g => { g with flight := [⟨1, .fchgAt 0 0⟩] }), _, 0, 0, 0, 1, rfl, by decide, crc_bad⟩,
   ⟨0, 1, 0, 0, 0, 0, 0, 0, 0, 0, false, [], regionS 0 (fun g => { g with flight := [⟨1, .cal⟩] }), _, 1, rfl, by decide, by decide, by decide, crc_bad⟩,
   ⟨0, 1, regionS 0 fun g => { g with acks := [1] }, by decide⟩,
   ⟨0, 1, ⟨1, .cancel 0 0, 0, 2, false⟩, ((regionS 0 fun g => { g with unacked := [⟨1, .cancel 0 0, 0, 2, false⟩] }).updTime .tsu fun t => { t with aon := 24 }), by decide⟩,
   ⟨0, 1, 0, 0, 0, 0, ((regionS 0 fun g => { g with unacked := [⟨1, .addend 0 0 0, 0, 3, false⟩] }).updTime .tsu fun t => { t with aon := 24 }), by decide⟩,
   ⟨0, 0, 1, [], 0, regionS 0 fun g => { g with flight := [⟨1, .cal⟩], calActive := true, calCount := 63 }, by decide, crc_good, by decide⟩,
   ⟨0, 1024000, regionS 0 fun g => { g with calActive := true, calCount := 64, calSum := 8192, turnaround := 0 }, by decide⟩,
   ⟨0, 1023875, regionS 0 fun g => { g with calActive := true, calCount := 64, calSum := 8191, turnaround := 0 }, by decide⟩,
   ⟨State.reset.setReg .tsu 0x1C0 2, by decide⟩,
   ⟨State.reset.setReg .tsu 0x1C0 0, by decide⟩⟩

/-- Every case of RegionRules is met by some state and operands. -/
theorem witness_RegionRules :
    (∃ (r slot : Nat) (a : ArmedSlot) (s : State), (s.region r).armed.find? (fun a => a.slot = slot) = some a ∧ 0 ≤ sdiff 48 (s.region r).count48 (a.t - s.advance16 r))
    ∧ (∃ (r slot : Nat) (a : ArmedSlot) (s : State), (s.region r).armed.find? (fun a => a.slot = slot) = some a ∧ sdiff 48 (s.region r).count48 (a.t - s.advance16 r) < 0)
    ∧ (∃ (r slot : Nat) (a : ArmedSlot) (s : State), (s.region r).armed.find? (fun a => a.slot = slot) = some a ∧ sdiff 48 a.t (s.region r).count48 ≤ s.wakeLead16)
    ∧ (∃ (code : Byte) (s : State), (s.region 0).fchg = none ∧ (s.region 0).ready = true)
    ∧ (∃ (s : State) (start : Int), start = s.tsu.com.time.counter.toUnits * 2048000 + s.fchgLead * 4294967296)
    ∧ (∃ (r : Nat) (tf : Word) (code : Byte) (s : State), (s.region r).switch = some (tf, code) ∧ 0 ≤ sdiff 48 (s.region r).count48 (tf.toNat * 65536 : Nat))
    ∧ (∃ (p : Nat) (s : State), (s.port p).fenceHeld = [])
    ∧ (∃ (p : Nat) (f : Fired) (since : Int) (rest : List (Fired × Int)) (s : State), (s.port p).fenceHeld = (f, since) :: rest ∧ 20000 ≤ ((s.now .tsu).toNs16 - since) / 65536)
    ∧ (∃ (p : Nat) (f : Fired) (since : Int) (rest : List (Fired × Int)) (s : State), (s.port p).fenceHeld = (f, since) :: rest ∧ ((s.now .tsu).toNs16 - since) / 65536 < 20000)
    ∧ (∃ (r : Nat) (s : State), r < 8 ∧ (s.region r).present = true) :=
  ⟨⟨0, 0, ⟨0, 0, false⟩, regionS 0 fun g => { g with armed := [⟨0, 0, false⟩] }, by decide⟩,
   ⟨0, 0, ⟨0, 65536, false⟩, regionS 0 fun g => { g with armed := [⟨0, 65536, false⟩] }, by decide⟩,
   ⟨0, 0, ⟨0, 65536000, false⟩, (regionS 0 fun g => { g with armed := [⟨0, 65536000, false⟩] }), by decide⟩,
   ⟨0, regionS 0 fun g => { g with ready := true }, by decide⟩,
   ⟨State.reset, _, rfl⟩,
   ⟨0, 0, 0, regionS 0 fun g => { g with switch := some (0, 0) }, by decide⟩,
   ⟨0, State.reset, by decide⟩,
   ⟨0, fired0, 0, [], ((State.reset.updPort 0 fun p => { p with fenceHeld := [(fired0, 0)] }).updTime .tsu fun t => { t with counter := ⟨0, 20000, 0⟩ }), by decide⟩,
   ⟨0, fired0, 0, [], ((State.reset.updPort 0 fun p => { p with fenceHeld := [(fired0, 0)] }).updTime .tsu fun t => { t with counter := ⟨0, 19999, 4294967295⟩ }), by decide⟩,
   ⟨7, State.reset, by decide⟩⟩

/-- Every case of LinkRules is met by some state and operands. -/
theorem witness_LinkRules :
    (∃ (l : LinkId) (n : Nat) (s : State), (s.link l).state = .down ∧ (s.link l).enabled = true ∧ (s.link l).fused = false ∧ (s.link l).trainLeft = 0 ∧ ((s.link l).tried = true → (s.link l).attemptAt + 20000000 ≤ s.aon l.node) ∧ n = (if (s.link l).tried = true then ((s.link l).attempt + 1) % 6 else 0))
    ∧ (∃ (l : LinkId) (s : State), upstreamEnd l = true ∧ (s.link l).tried = true ∧ s.aon l.node < (s.link l).attemptAt + 20000000)
    ∧ (∃ (l : LinkId) (fb : Bool) (s : State), (s.link l).state = .down ∧ (s.link l).enabled = true ∧ (s.link l).fused = false ∧ (s.link l).trainLeft = 0 ∧ upstreamEnd l = false)
    ∧ (∃ (l : LinkId) (s : State), (s.link l).state = .down ∧ (s.link l).enabled = true ∧ upstreamEnd l = false ∧ (s.link l).searchAt + 2000000 ≤ s.aon l.node)
    ∧ (∃ (l : LinkId) (s : State), (s.link l).state = .pmdTrain)
    ∧ (∃ (l : LinkId) (s : State), (s.link l).state = .blockLock)
    ∧ (∃ (l : LinkId) (s : State), (s.link l).state = .frameLock)
    ∧ (∃ (l : LinkId) (s : State), (s.link l).state = .ident ∧ (s.link l).archStuck = false ∧ (s.link l).attemptAt + 20000000 ≤ s.aon l.node)
    ∧ (∃ (rx : Rx) (p n : Nat) (ok : Bool) (s u : State), (s.link ⟨.tsu, p⟩).state = .ident ∧ rx.check = .good ∧ rx.frame.type = 0x02 ∧ rx.frame.cls = 0 ∧ (s.link ⟨.tsu, p⟩).assign = none ∧ bitOf (rx.frame.byte 20) 7 = false ∧ n = min 8 ((s.link ⟨.tsu, p⟩).goodTrain + 1) ∧ ok = bitOf (rx.frame.byte 12) 3 ∧ u = (s.updLink ⟨.tsu, p⟩ fun k => { k with uncorrRun := 0, goodTrain := n, rxOk := ok, nbrLoc := rx.frame.nat 13 3 % 1048576, nbrPort := bitsOf (rx.frame.byte 16) 5 0, nbrValid := bitOf (rx.frame.byte 16) 7, rxSlot := (rx.frame.nat 21 2 / 16 + 1) % 4096, cr1 := rx.frame.byte 23, cr2 := rx.frame.byte 24, cr3 := rx.frame.byte 25, peerImage := BitVec.ofNat 32 (rx.frame.nat 26 4) }) ∧ (n < 8 ∨ ok = false))
    ∧ (∃ (rx : Rx) (p n : Nat) (ok : Bool) (s u : State), (s.link ⟨.tsu, p⟩).state = .ident ∧ rx.check = .good ∧ rx.frame.type = 0x02 ∧ rx.frame.cls = 0 ∧ (s.link ⟨.tsu, p⟩).assign = none ∧ bitOf (rx.frame.byte 20) 7 = false ∧ n = min 8 ((s.link ⟨.tsu, p⟩).goodTrain + 1) ∧ ok = bitOf (rx.frame.byte 12) 3 ∧ u = (s.updLink ⟨.tsu, p⟩ fun k => { k with uncorrRun := 0, goodTrain := n, rxOk := ok, nbrLoc := rx.frame.nat 13 3 % 1048576, nbrPort := bitsOf (rx.frame.byte 16) 5 0, nbrValid := bitOf (rx.frame.byte 16) 7, rxSlot := (rx.frame.nat 21 2 / 16 + 1) % 4096, cr1 := rx.frame.byte 23, cr2 := rx.frame.byte 24, cr3 := rx.frame.byte 25, peerImage := BitVec.ofNat 32 (rx.frame.nat 26 4) }) ∧ n = 8 ∧ ok = true ∧ bitsOf (rx.frame.byte 12) 7 6 = 0 ∧ bitsOf (rx.frame.byte 12) 5 4 < 3)
    ∧ (∃ (l : LinkId) (rx : Rx) (s : State), (s.link l).state = .up ∧ rx.check = .good ∧ rx.frame.type = 0x02 ∧ rx.frame.cls = 0)
    ∧ (∃ (l : LinkId) (s : State), (s.link l).state ≠ .up)
    ∧ (∃ (l : LinkId) (s : State), 8 ≤ (s.link l).uncorrRun)
    ∧ (∃ (l : LinkId) (s : State), (s.link l).uncorrRun < 8)
    ∧ (∃ (l : LinkId) (s : State), (s.link l).state = .up ∧ 16 ≤ ((s.link l).uncorrAt.filter fun t => s.aon l.node < t + 1000000).length)
    ∧ (∃ (l : LinkId) (s : State), (s.link l).nakSlot.isSome = true ∧ (s.link l).nakCount = 4 ∧ 512 ≤ (s.link l).nakSlots)
    ∧ (∃ (p : Nat) (s : State), (s.link ⟨.tsu, p⟩).state = .up)
    ∧ (∃ (p : Nat) (s : State), (s.link ⟨.gd, p⟩).state = .up ∧ s.gd.portAbsent p = false)
    ∧ (∃ (p : Nat) (s : State), s.gd.portAbsent p = true)
    ∧ (∃ s : State, s.tsu.com.redunLost = false ∧ (s.link ⟨.tsu, 0⟩).state = .up ∧ (s.link ⟨.tsu, 1⟩).state = .down ∧ (s.link ⟨.tsu, 1⟩).declared = true ∧ ((s.link ⟨.tsu, 1⟩).enabled = true ∨ (s.link ⟨.tsu, 1⟩).everUp = true) ∧ (s.link ⟨.tsu, 1⟩).downAt + 120000000 ≤ s.aon .tsu) :=
  ⟨⟨⟨.gd, 0⟩, 0, linkS ⟨.gd, 0⟩ fun k => { k with enabled := true }, by decide⟩,
   ⟨⟨.gd, 0⟩, linkS ⟨.gd, 0⟩ fun k => { k with tried := true, attemptAt := 1 }, by decide⟩,
   ⟨⟨.tsu, 0⟩, true, State.reset, by decide⟩,
   ⟨⟨.tsu, 0⟩, (tmS .tsu fun t => { t with aon := 2000000 }), by decide⟩,
   ⟨⟨.tsu, 0⟩, linkS ⟨.tsu, 0⟩ fun k => { k with state := .pmdTrain }, by decide⟩,
   ⟨⟨.gd, 0⟩, linkS ⟨.gd, 0⟩ fun k => { k with state := .blockLock }, by decide⟩,
   ⟨⟨.gd, 0⟩, linkS ⟨.gd, 0⟩ fun k => { k with state := .frameLock }, by decide⟩,
   ⟨⟨.tsu, 0⟩, ((linkS ⟨.tsu, 0⟩ fun k => { k with state := .ident }).updTime .tsu fun t => { t with aon := 20000000 }), by decide⟩,
   ⟨good (frame 2 0 []), 1, 7, false, linkS ⟨.tsu, 1⟩ (fun k => { k with state := .ident, goodTrain := 6 }), _, by decide, by decide, by decide, by decide, by decide, by decide, by decide, by decide, rfl, by decide⟩,
   ⟨good (frame 2 0 [8]), 1, 8, true, linkS ⟨.tsu, 1⟩ (fun k => { k with state := .ident, goodTrain := 7 }), _, by decide, by decide, by decide, by decide, by decide, by decide, by decide, by decide, rfl, by decide⟩,
   ⟨⟨.gd, 0⟩, good (frame 2 0 []), upS ⟨.gd, 0⟩, by decide⟩,
   ⟨⟨.gd, 0⟩, State.reset, by decide⟩,
   ⟨⟨.tsu, 0⟩, linkS ⟨.tsu, 0⟩ fun k => { k with uncorrRun := 8 }, by decide⟩,
   ⟨⟨.tsu, 0⟩, linkS ⟨.tsu, 0⟩ fun k => { k with uncorrRun := 7 }, by decide⟩,
   ⟨⟨.tsu, 0⟩, linkS ⟨.tsu, 0⟩ fun k => { k with state := .up, uncorrAt := List.replicate 16 0 }, by decide⟩,
   ⟨⟨.tsu, 0⟩, linkS ⟨.tsu, 0⟩ fun k => { k with nakSlot := some 0, nakCount := 4, nakSlots := 512 }, by decide⟩,
   ⟨0, upS ⟨.tsu, 0⟩, by decide⟩,
   ⟨63, upS ⟨.gd, 63⟩, by decide⟩,
   ⟨68, State.reset, by decide⟩,
   ⟨((upS ⟨.tsu, 0⟩).updTime .tsu fun t => { t with aon := 120000000 }), by decide⟩⟩

/-- Every case of SlotRules is met by some state and operands. -/
theorem witness_SlotRules :
    (∃ (p : Nat) (f : Frame) (rest : List Frame) (s : State), (s.link ⟨.tsu, p⟩).state = .up ∧ (s.link ⟨.tsu, p⟩).enabled = true ∧ (s.link ⟨.tsu, p⟩).fused = false ∧ (s.link ⟨.tsu, p⟩).trainLeft = 0 ∧ (s.link ⟨.tsu, p⟩).timeDue = false ∧ (s.link ⟨.tsu, p⟩).oweNak = none ∧ (s.link ⟨.tsu, p⟩).oweReplay = none ∧ (s.link ⟨.tsu, p⟩).oweCtl = false ∧ (s.link ⟨.tsu, p⟩).resend = [] ∧ (s.link ⟨.tsu, p⟩).q1 = f :: rest ∧ 0 < (s.link ⟨.tsu, p⟩).cr1 ∧ (s.link ⟨.tsu, p⟩).poisonNext = false ∧ f.type ≠ 0x02)
    ∧ (∃ (l : LinkId) (s : State), (s.link l).state = .up ∧ (s.link l).enabled = true ∧ (s.link l).fused = false ∧ (s.link l).timeDue = true)
    ∧ (∃ (l : LinkId) (s : State), (s.link l).nakSlot.isSome = true ∧ 512 ≤ (s.link l).nakSlots ∧ (s.link l).nakCount < 4)
    ∧ (∃ (l : LinkId) (s : State), 0 < (s.link l).owe1 + (s.link l).owe2 + (s.link l).owe3 ∧ 16 ≤ (s.link l).oweSlots)
    ∧ (∃ (l : LinkId) (s : State), (s.link l).state = .up ∧ 255 ≤ (s.link l).sinceLinkctl)
    ∧ (∃ (p : Nat) (s : State), 10000 < ((s.link ⟨.tsu, p⟩).corrTimes.filter fun t => s.aon .tsu < t + 1000000000).length)
    ∧ (∃ (key : Nat) (m : ReadyMark) (rest : List ReadyMark) (s : State), s.tsu.com.marks = m :: rest ∧ m.key = key ∧ m.cls = 1 ∧ (s.link ⟨.tsu, m.port⟩).q1.length + m.frames.length ≤ queueCap 1)
    ∧ (∃ (n : Node) (key : Nat) (s : State), (s.com n).marks = []) :=
  ⟨⟨0, frame 8 1 [], [], linkS ⟨.tsu, 0⟩ fun k => { k with state := .up, q1 := [frame 8 1 []], cr1 := 1 }, by decide⟩,
   ⟨⟨.gd, 0⟩, linkS ⟨.gd, 0⟩ fun k => { k with state := .up, enabled := true, sinceTime := 4000 }, by decide⟩,
   ⟨⟨.gd, 0⟩, linkS ⟨.gd, 0⟩ fun k => { k with nakSlot := some 0, nakSlots := 512, nakCount := 3 }, by decide⟩,
   ⟨⟨.gd, 0⟩, linkS ⟨.gd, 0⟩ fun k => { k with owe3 := 1, oweSlots := 16 }, by decide⟩,
   ⟨⟨.gd, 0⟩, linkS ⟨.gd, 0⟩ fun k => { k with state := .up, sinceLinkctl := 255 }, by decide⟩,
   ⟨1, linkS ⟨.tsu, 1⟩ fun k => { k with corrTimes := List.replicate 10001 0 }, by decide +kernel⟩,
   ⟨5, ⟨0, 1, [frame 8 1 []], 5⟩, [], tsuS fun t => { t with com := { t.com with marks := [⟨0, 1, [frame 8 1 []], 5⟩] } }, by decide⟩,
   ⟨.gd, 0, State.reset, by decide⟩⟩

/-- Every case of ReceptionRules is met by some state and operands. -/
theorem witness_ReceptionRules :
    (∃ (l : LinkId) (rx : Rx) (type : Nat) (s : State), (s.link l).state = .up ∧ rx.check = .good ∧ rx.frame.type.toNat = type ∧ typeClass type = some rx.frame.cls.toNat ∧ rx.frame.ver.toNat = (s.link l).arch ∧ (s.link l).nakSlot = none ∧ type ≠ 0x04 ∧ ((s.link l).chainOf rx.frame.cls.toNat = [] ∨ rx.frame.cls = 0 ∨ rx.frame.cls = 3))
    ∧ (∃ (l : LinkId) (rx : Rx) (type : Nat) (s : State), (s.link l).state = .up ∧ rx.check = .poison)
    ∧ (∃ (l : LinkId) (rx : Rx) (type : Nat) (s : State), (s.link l).state = .up ∧ rx.check = .uncorrectable)
    ∧ (∃ (l : LinkId) (rx : Rx) (type : Nat) (s : State), (s.link l).state = .up ∧ rx.check = .good ∧ rx.frame.type.toNat ≠ type)
    ∧ (∃ (l : LinkId) (rx : Rx) (s : State), (s.link l).state = .up ∧ rx.check = .good ∧ rx.frame.ver.toNat = (s.link l).arch ∧ rx.frame.type = 0x00 ∧ rx.frame.cls = 0 ∧ (s.link l).nakSlot = none)
    ∧ (∃ (l : LinkId) (rx : Rx) (s : State), (s.link l).state = .up ∧ rx.check = .good ∧ rx.frame.ver.toNat = (s.link l).arch ∧ rx.frame.type = 0x04 ∧ rx.frame.cls = 1 ∧ bitsOf (rx.frame.byte 12) 7 6 = 0) :=
  ⟨⟨⟨.gd, 0⟩, good (frame 8 1 []), 8, upS ⟨.gd, 0⟩, by decide⟩,
   ⟨⟨.gd, 0⟩, poison (frame 8 1 []), 8, upS ⟨.gd, 0⟩, by decide, poison_check _⟩,
   ⟨⟨.gd, 0⟩, broken (frame 8 1 []), 8, upS ⟨.gd, 0⟩, by decide, broken_check _⟩,
   ⟨⟨.gd, 0⟩, good (frame 8 1 []), 9, upS ⟨.gd, 0⟩, by decide⟩,
   ⟨⟨.gd, 0⟩, good (frame 0 0 []), upS ⟨.gd, 0⟩, by decide⟩,
   ⟨⟨.gd, 0⟩, good (frame 4 1 []), upS ⟨.gd, 0⟩, by decide⟩⟩

/-- Every case of BulkObjectRules is met by some state and operands. -/
theorem witness_BulkObjectRules :
    (∃ (l : LinkId) (rx : Rx) (s u : State) (f : Frame), l.node = .tsu ∧ s.receive l rx 0x20 = (u, some f) ∧ f.byte 15 = 0 ∧ 0 < f.byte 14 ∧ f.byte 14 < 5 ∧ 0 < f.nat 19 5 ∧ f.nat 24 3 = (f.nat 19 5 + 1279) / 1280)
    ∧ (∃ (l : LinkId) (rx : Rx) (s u : State) (f : Frame), l.node = .tsu ∧ s.receive l rx 0x20 = (u, some f) ∧ 2 < f.byte 15)
    ∧ (∃ (l : LinkId) (rx : Rx) (s u : State) (f : Frame), l.node = .gd ∧ l.port < 64 ∧ s.receive l rx 0x20 = (u, some f))
    ∧ (∃ (l : LinkId) (rx : Rx) (s u : State) (f : Frame) (x : BulkRx), l.node = .tsu ∧ s.receive l rx 0x21 = (u, some f) ∧ Tab.get u.tsu.com.bulk (f.nat 12 2) = some x ∧ f.nat 14 3 < x.chunks ∧ f.more = decide (f.byte 17 % 32 < 31) ∧ Tab.get x.arrived (f.nat 14 3) = none ∧ ((List.range 32).all fun k => (Tab.get (Tab.put x.frags (32 * f.nat 14 3 + f.byte 17 % 32) ((padTo 48 f.body).drop 8)) (32 * f.nat 14 3 + k)).isSome) = false)
    ∧ (∃ (l : LinkId) (rx : Rx) (s u : State) (f : Frame), l.node = .tsu ∧ s.receive l rx 0x21 = (u, some f) ∧ Tab.get u.tsu.com.bulk (f.nat 12 2) = none)
    ∧ (∃ (l : LinkId) (rx : Rx) (s u : State) (f : Frame) (x : BulkRx), l.node = .tsu ∧ s.receive l rx 0x22 = (u, some f) ∧ Tab.get u.tsu.com.bulk (f.nat 12 2) = some x ∧ f.nat 14 3 = x.chunks ∧ x.lacks ≠ [])
    ∧ (∃ (o : Nat) (x : BulkRx) (s : State), Tab.get s.tsu.com.bulk o = some x ∧ x.missing = none ∧ x.lastAt + 1000000000 ≤ s.aon .tsu ∧ x.lacks ≠ [])
    ∧ (∃ (o c p : Nat) (x : BulkRx) (at_ : Nat) (s : State), Tab.get s.gd.com.bulk o = some x ∧ Tab.get x.arrived c = some at_ ∧ at_ + 100000000 ≤ s.aon .gd ∧ (s.link ⟨.gd, p⟩).q3.any (isChunk o c) = true ∧ s.gd.com.marks = [])
    ∧ (∃ (n : Node) (o : Nat) (x : BulkRx) (s : State), Tab.get (s.com n).bulk o = some x ∧ x.lacks ≠ [] ∧ x.lastAt + 10000000000 ≤ s.aon n)
    ∧ (∃ (o : Nat) (x : BulkRx) (s : State), Tab.get s.gd.com.bulk o = some x ∧ x.lastAt + 60000000000 ≤ s.aon .gd) :=
  ⟨⟨⟨.tsu, 0⟩, good (frame 0x20 3 [0, 0, 1, 0, 0, 0, 0, 0, 0, 0, 0, 1, 0, 0, 1]), upS ⟨.tsu, 0⟩, _, _, rfl, rfl, by decide⟩,
   ⟨⟨.tsu, 0⟩, good (frame 0x20 3 [0, 0, 1, 3]), upS ⟨.tsu, 0⟩, _, _, rfl, rfl, by decide⟩,
   ⟨⟨.gd, 63⟩, good (frame 0x20 3 []), upS ⟨.gd, 63⟩, _, _, rfl, by decide, rfl⟩,
   ⟨⟨.tsu, 0⟩, good { frame 0x21 3 [] with more := true }, ((upS ⟨.tsu, 0⟩).updTsu fun t => { t with com := { t.com with bulk := [(0, bulk0)] } }), _, _, bulk0, rfl, rfl, by decide⟩,
   ⟨⟨.tsu, 0⟩, good (frame 0x21 3 []), upS ⟨.tsu, 0⟩, _, _, rfl, rfl, by decide⟩,
   ⟨⟨.tsu, 0⟩, good (frame 0x22 3 [0, 0, 0, 0, 1]), ((upS ⟨.tsu, 0⟩).updTsu fun t => { t with com := { t.com with bulk := [(0, bulk0)] } }), _, _, bulk0, rfl, rfl, by decide⟩,
   ⟨0, bulk0, ((tsuS fun t => { t with com := { t.com with bulk := [(0, bulk0)] } }).updTime .tsu fun t => { t with aon := 1000000000 }), by decide⟩,
   ⟨0, 0, 0, { bulk0 with arrived := [(0, 0)] }, 0, (((linkS ⟨.gd, 0⟩ fun k => { k with q3 := [frame 0x21 3 []] }).updGd fun g => { g with com := { g.com with bulk := [(0, { bulk0 with arrived := [(0, 0)] })] } }).updTime .gd fun t => { t with aon := 100000000 }), by decide⟩,
   ⟨.tsu, 0, bulk0, ((tsuS fun t => { t with com := { t.com with bulk := [(0, bulk0)] } }).updTime .tsu fun t => { t with aon := 10000000000 }), by decide⟩,
   ⟨0, bulk0, ((gdS fun g => { g with com := { g.com with bulk := [(0, bulk0)] } }).updTime .gd fun t => { t with aon := 60000000000 }), by decide⟩⟩

/-- Every case of RollCallRules is met by some state and operands. -/
theorem witness_RollCallRules :
    (∃ (l : LinkId) (rx : Rx) (s u : State) (f : Frame), l.node = .tsu ∧ s.receive l rx 0x12 = (u, some f) ∧ f.more = false ∧ (f.byte 15 ≠ 2 ∨ u.tsu.dieId = some (f.nat 16 3 % 262144)))
    ∧ (∃ (l : LinkId) (rx : Rx) (s u : State) (f : Frame), s.receive l rx 0x12 = (u, some f) ∧ f.more = true)
    ∧ (∃ (l : LinkId) (rx : Rx) (s u v : State) (f : Frame) (e : RollEntry), l.node = .gd ∧ l.port < 64 ∧ s.receive l rx 0x13 = (u, some f) ∧ u.chain l f (fun f => if f.f49 then 1 else 11) = (v, .whole [f]) ∧ f.f49 = true ∧ v.gd.rolls = [e] ∧ e.object = f.nat 12 2 ∧ e.window = f.nat 16 3 ∧ e.round = f.byte 14 ∧ e.round < 5 ∧ e.asked.contains l.port = true ∧ e.answered.contains l.port = false ∧ e.asked.all (e.answered ++ [l.port]).contains = false)
    ∧ (∃ (key : Nat) (e : RollEntry) (s : State), s.gd.rolls[key]? = some e ∧ e.since + s.rollWait ≤ s.aon .gd ∧ e.up ≠ rollHere)
    ∧ (∃ (o p : Nat) (x : Origin) (s : State), s.gd.origins = [x] ∧ x.object = o ∧ x.left = 0 ∧ x.since + 2000000 ≤ s.aon .gd ∧ 0 < x.data.length ∧ x.data.length ≤ 1280 ∧ x.port = some p ∧ s.gd.rolls = []) :=
  ⟨⟨⟨.tsu, 0⟩, good (frame 0x12 2 []), upS ⟨.tsu, 0⟩, _, _, rfl, rfl, by decide⟩,
   ⟨⟨.tsu, 0⟩, good { frame 0x12 2 [] with more := true }, upS ⟨.tsu, 0⟩, _, _, rfl, by decide⟩,
   ⟨⟨.gd, 0⟩, good { frame 0x13 2 [] with f49 := true }, ((upS ⟨.gd, 0⟩).updGd fun g => { g with rolls := [{ roll0 with asked := [0, 1] }] }), _, _, _, { roll0 with asked := [0, 1] }, rfl, by decide, rfl, rfl, by decide⟩,
   ⟨0, roll0, ((gdS fun g => { g with rolls := [roll0] }).updTime .gd fun t => { t with aon := 1000000000 }), by decide⟩,
   ⟨0, 0, ⟨0, 1, 0, 0, 0, [0], some 0, 0, 0, 0, [], false⟩, ((gdS fun g => { g with origins := [⟨0, 1, 0, 0, 0, [0], some 0, 0, 0, 0, [], false⟩] }).updTime .gd fun t => { t with aon := 2000000 }), by decide⟩⟩

/-- Every case of TumblerStoreRules is met by some state and operands. -/
theorem witness_TumblerStoreRules :
    (∃ (n b : Nat) (tag : BitVec 24) (s : State), n < 64 ∧ (s.slice n).state = .active ∧ (s.slice n).nameTag (TumbDesc.ofBytes ((s.slice n).pageBytes 0x0C0 4)).dom b = some tag ∧ s.createRefusal n tag (TumbDesc.ofBytes ((s.slice n).pageBytes 0x0C0 4)) = none)
    ∧ (∃ (n b : Nat) (tag : BitVec 24) (c : ErrCode) (s : State), n < 64 ∧ (s.slice n).state = .active ∧ (s.slice n).nameTag (TumbDesc.ofBytes ((s.slice n).pageBytes 0x0C0 4)).dom b = some tag ∧ s.createRefusal n tag (TumbDesc.ofBytes ((s.slice n).pageBytes 0x0C0 4)) = some c)
    ∧ (∃ (n b : Nat) (s : State), n < 64 ∧ (s.slice n).state = .free)
    ∧ (∃ (n e : Nat) (d : TumbDesc) (fromImage : Bool) (s : State), ∃ x, Tab.freeKey s.tsu.tumb 4096 = some e ∧ x ≠ e)
    ∧ (∃ (n e : Nat) (tag : BitVec 24) (d : TumbDesc) (s : State), s.findTumb n tag d.index = some e)
    ∧ (∃ (n b e : Nat) (tag : BitVec 24) (s : State), n < 64 ∧ (s.slice n).state = .active ∧ (s.slice n).nameTag (TumbDesc.ofBytes ((s.slice n).pageBytes 0x0C0 4)).dom b = some tag ∧ s.findTumb n tag (TumbDesc.ofBytes ((s.slice n).pageBytes 0x0C0 4)).index = some e)
    ∧ (∃ (n b : Nat) (tag : BitVec 24) (s : State), n < 64 ∧ (s.slice n).state = .active ∧ (s.slice n).nameTag (TumbDesc.ofBytes ((s.slice n).pageBytes 0x0C0 4)).dom b = some tag ∧ s.findTumb n tag (TumbDesc.ofBytes ((s.slice n).pageBytes 0x0C0 4)).index = none)
    ∧ (∃ (e : Nat) (t : Tumbler) (s : State), s.tumb? e = some t ∧ t.estate = .closing ∧ s.framesOf t = false)
    ∧ (∃ (e : Nat) (t : Tumbler) (s : State), s.tumb? e = some t ∧ t.estate ≠ .closing) :=
  ⟨⟨0, 0, 0, sliceS fun v => { v with tumbQ := 1 }, by decide⟩,
   ⟨0, 0, 0, .noTumbler, sliceS id, by decide⟩,
   ⟨63, 0, State.reset, by decide⟩,
   ⟨0, 0, ⟨false, false, 0, 0, 0, 0, 0, 0⟩, false, State.reset, 1, by decide +kernel⟩,
   ⟨0, 0, 0, ⟨false, false, 0, 0, 0, 0, 0, 0⟩, tumbS id, by decide⟩,
   ⟨0, 0, 0, 0, (sliceS id).updTsu fun t => { t with tumb := [(0, tumb0)] }, by decide⟩,
   ⟨0, 0, 0, sliceS id, by decide⟩,
   ⟨0, { tumb0 with estate := .closing }, tumbS fun t => { t with estate := .closing }, by decide⟩,
   ⟨0, tumb0, tumbS id, by decide⟩⟩

/-- Every case of ArrivalRules is met by some state and operands. -/
theorem witness_ArrivalRules :
    (∃ (e slot weight n : Nat) (t : Tumbler) (s : State), s.tumb? e = some t ∧ t.estate = .active ∧ t.slice = n ∧ t.counted = false ∧ t.domain = 0 ∧ t.mstate = .member ∧ t.bound = none ∧ t.mask.getLsbD slot = true)
    ∧ (∃ (e slot weight n : Nat) (t : Tumbler) (s : State), s.tumb? e = some t ∧ t.estate = .active ∧ t.slice = n ∧ t.counted = false ∧ t.bound = none ∧ t.mask.getLsbD slot = false)
    ∧ (∃ (e slot weight n : Nat) (t : Tumbler) (s : State), s.tumb? e = some t ∧ t.estate = .active ∧ t.slice = n ∧ t.counted = true ∧ 0 < weight ∧ t.domain = 0 ∧ t.mstate = .member ∧ t.bound = none)
    ∧ (∃ (e slot weight len n : Nat) (t : Tumbler) (s : State), s.tumb? e = some t ∧ t.estate = .active ∧ t.slice = n ∧ ((t.counted = true ∧ weight = 0) ∨ len ≠ arrivalLen t.op t.fmt t.lanes))
    ∧ (∃ (e slot weight len n : Nat) (s : State), s.tumb? e = none)
    ∧ (∃ (a : PortArv) (t : Tumbler) (g : BitVec 2) (early : Bool) (s : State), a.port < 1024 ∧ a.slot < 64 ∧ (s.port a.port).held = none ∧ (s.slice a.slice).state = .active ∧ (s.slice a.slice).sgen = a.sgen ∧ s.pendOf a.port a.entry a.slot = none ∧ s.tumb? a.entry = some t ∧ a.beats = arrivalBeats t.op t.fmt t.lanes ∧ s.arvJudge a.entry a.slot a.weight (arrivalLen t.op t.fmt t.lanes) a.slice = .counted g early)
    ∧ (∃ (a : PortArv) (s : State), a.port < 1024 ∧ a.slot < 64 ∧ (s.port a.port).held = none ∧ ((s.slice a.slice).state = .free ∨ (s.slice a.slice).sgen ≠ a.sgen))
    ∧ (∃ (a : PortArv) (s : State), (s.port a.port).held.isSome = true)
    ∧ (∃ (n e : Nat) (g : BitVec 2) (early : Bool) (s : State), n < 64 ∧ (s.slice n).state = .active ∧ (s.slice n).arvBusy = false ∧ s.named n ((s.slice n).word 0x060) = some e ∧ (s.slice n).word 0x068 * 4294967296 + bitsOf ((s.slice n).word 0x064) 31 3 * 8 = 0 ∧ (s.updSlice n fun v => { v with arvBusy := false }).arvJudge e (bitsOf ((s.slice n).word 0x060) 22 17) (bitsOf ((s.slice n).word 0x060) 30 23) 0 n = .counted g early)
    ∧ (∃ (n : Nat) (s : State), n < 64 ∧ (s.slice n).state = .active ∧ (s.slice n).arvBusy = true)
    ∧ (∃ (e : Nat) (t : Tumbler) (s : State), s.tumb? e = some t ∧ t.release = true ∧ t.heldArv = [])
    ∧ (∃ (e : Nat) (t : Tumbler) (s : State), s.tumb? e = some t ∧ t.release = false) :=
  ⟨⟨0, 63, 0, 0, { tumb0 with mask := 0x8000000000000000 }, tumbS fun t => { t with mask := 0x8000000000000000 }, by decide⟩,
   ⟨0, 1, 0, 0, tumb0, tumbS id, by decide⟩,
   ⟨0, 0, 1, 0, { tumb0 with counted := true, target := 1 }, tumbS fun t => { t with counted := true, target := 1 }, by decide⟩,
   ⟨0, 0, 0, 0, 0, { tumb0 with counted := true }, tumbS fun t => { t with counted := true }, by decide⟩,
   ⟨4095, 0, 0, 0, 0, State.reset, by decide⟩,
   ⟨⟨1023, 0, 0, 0, 0, [], 0, 0⟩, tumb0, 0, false, (sliceS id).updTsu fun t => { t with tumb := [(0, tumb0)] }, by decide⟩,
   ⟨⟨1023, 0, 63, 0, 0, [], 0, 0⟩, State.reset, by decide⟩,
   ⟨⟨0, 0, 0, 0, 0, [], 0, 0⟩, State.reset.updPort 0 fun p => { p with held := some ⟨0, 0, 0, 0, 0, [], 0, 0⟩ }, by decide⟩,
   ⟨0, 0, 0, false, (sliceS id).updTsu fun t => { t with tumb := [(0, tumb0)] }, by decide⟩,
   ⟨63, State.reset.updSlice 63 fun v => { v with state := .active, arvBusy := true }, by decide⟩,
   ⟨0, { tumb0 with release := true }, tumbS fun t => { t with release := true }, by decide⟩,
   ⟨0, tumb0, tumbS id, by decide⟩⟩

/-- Every case of TurnAndWaitRules is met by some state and operands. -/
theorem witness_TurnAndWaitRules :
    (∃ (l : LinkId) (rx : Rx) (s u : State) (f : Frame), l.node = .tsu ∧ s.receive l rx 0x11 = (u, some f) ∧ (u.link l).chain2 = [] ∧ downCount false f = some 1 ∧ f.more = false)
    ∧ (∃ (l : LinkId) (rx : Rx) (s u : State) (f : Frame), l.node = .tsu ∧ s.receive l rx 0x08 = (u, some f) ∧ (u.link l).chain1 = [] ∧ downCount true f = some 1 ∧ f.more = false)
    ∧ (∃ (src : Nat) (launch : Bool) (f : Frame) (s : State), s.sliceOf f.domain = none)
    ∧ (∃ (launch : Bool) (f : Frame) (src n e : Nat) (t : Tumbler) (b : Binding) (s : State), s.sliceOf f.domain = some n ∧ s.findTumb n f.domain f.fIndex = some e ∧ s.tumb? e = some t ∧ t.mstate = .member ∧ (s.slice n).bindings.find? (fun b => b.tag = f.domain) = some b ∧ b.expelAt = none ∧ sdiff 16 f.step16.toNat (b.step % 65536 : Nat) ≠ -32768 ∧ f.gen = t.gen ∧ t.shareDone = true)
    ∧ (∃ (e : Nat) (r : Result) (t : Tumbler) (s : State), s.tumb? e = some t ∧ t.op ≠ 0x0B ∧ t.op ≠ 0x0C ∧ t.domain = 0 ∧ t.empty = false ∧ s.tsu.tree = none ∧ (s.slice t.slice).state = .free ∧ (s.slice t.slice).serve.finEn = false ∧ s.tsu.contexts = [] ∧ s.tsu.waits = [] ∧ s.tsu.launches = [] ∧ s.tsu.ports = [])
    ∧ (∃ (n k e : Nat) (t : Tumbler) (s : State), n < 64 ∧ k < 4 ∧ (s.slice n).state = .active ∧ Tab.get s.tsu.waits (4 * n + k) = none ∧ s.named n ((s.slice n).word (0x080 + 0x10 * k)) = some e ∧ s.tumb? e = some t ∧ bitOf ((s.slice n).word (0x080 + 0x10 * k + 12)) 16 = false ∧ BitVec.ofNat 2 (bitsOf ((s.slice n).word (0x080 + 0x10 * k)) 18 17) = t.gen)
    ∧ (∃ (n k : Nat) (w : SoftWait) (s : State), n < 64 ∧ k < 4 ∧ (s.slice n).state = .active ∧ Tab.get s.tsu.waits (4 * n + k) = some w)
    ∧ (∃ (n k e o : Nat) (g : BitVec 2) (d : Time80) (s : State), k < 4 ∧ Tab.get s.tsu.waits (4 * n + k) = some ⟨e, g, some d, o⟩ ∧ d.toNs16 ≤ (s.now .tsu).toNs16)
    ∧ (∃ (p e : Nat) (til : Word) (s : State), (s.port p).lent = some (til, e) ∧ s.tsu.lend = [] ∧ 0 ≤ sdiff 32 (s.now .tsu).ns32.toNat til.toNat)
    ∧ (∃ (v : LendEvent) (rest : List LendEvent) (s : State), s.tsu.lend = v :: rest) :=
  ⟨⟨⟨.tsu, 0⟩, good (frame 0x11 2 []), upS ⟨.tsu, 0⟩, _, _, rfl, rfl, by decide⟩,
   ⟨⟨.tsu, 1⟩, good (frame 0x08 1 []), upS ⟨.tsu, 1⟩, _, _, rfl, rfl, by decide⟩,
   ⟨0, false, frame 0x11 2 [], State.reset, by decide⟩,
   ⟨false, { frame 0x11 2 [] with domain := 5 }, 0, 0, 0, { tumb0 with domain := 5, shareDone := true }, bind0, (sliceS fun v => { v with bindings := [bind0] }).updTsu fun t => { t with tumb := [(0, { tumb0 with domain := 5, shareDone := true })] }, by decide⟩,
   ⟨0, result0, tumb0, tumbS id, by decide⟩,
   ⟨0, 3, 0, tumb0, (sliceS id).updTsu fun t => { t with tumb := [(0, tumb0)] }, by decide⟩,
   ⟨0, 3, ⟨0, 0, none, 0⟩, (sliceS id).updTsu fun t => { t with waits := [(3, ⟨0, 0, none, 0⟩)] }, by decide⟩,
   ⟨0, 3, 0, 0, 0, Time80.zero, tsuS fun t => { t with waits := [(3, ⟨0, 0, some Time80.zero, 0⟩)] }, by decide⟩,
   ⟨1023, 0, 0, State.reset.updPort 1023 fun p => { p with lent := some (0, 0) }, by decide⟩,
   ⟨⟨true, 0, 0⟩, [], tsuS fun t => { t with lend := [⟨true, 0, 0⟩] }, by decide⟩⟩

/-- Every case of LaunchRules is met by some state and operands. -/
theorem witness_LaunchRules :
    (∃ (id r slot : Nat) (a : Arm) (s : State), Tab.get s.tsu.arms id = some a ∧ a.cancel = .none ∧ a.listWait = false ∧ a.t.toNs16 - (s.now .tsu).toNs16 ≤ 65536 * 65536 ∧ a.slots = [(r, slot)] ∧ a.sent = [])
    ∧ (∃ (id : Nat) (a : Arm) (s : State), Tab.get s.tsu.arms id = some a ∧ 65536 * 65536 < a.t.toNs16 - (s.now .tsu).toNs16)
    ∧ (∃ (p : Nat) (e : CaptureEdge) (ready : Bool) (f : Fired) (rest : List Fired) (s : State), (s.port p).fired = f :: rest ∧ f.shown = none ∧ (s.port p).resetAt = none ∧ 0 < sdiff 48 e.stamp f.reach ∧ f.late = false ∧ f.gated = false ∧ f.cancel = .none)
    ∧ (∃ (p : Nat) (e : CaptureEdge) (f : Fired) (rest : List Fired) (s : State), (s.port p).fired = f :: rest ∧ f.shown = none ∧ (s.port p).resetAt = none ∧ 0 < sdiff 48 e.stamp f.reach ∧ f.late = true ∧ (e.period : Int) < sdiff 48 e.stamp f.t ∧ f.gated = false ∧ f.cancel = .none)
    ∧ (∃ (p : Nat) (stamp at_ : Int) (f : Fired) (rest : List Fired) (s : State), (s.port p).fired = f :: rest ∧ f.shown = some at_ ∧ f.cancel = .none)
    ∧ (∃ (p : Nat) (stamp : Int) (s : State), (s.port p).fired = [])
    ∧ (∃ (w : Word) (s : State), bitOf w.toNat 6 = false)
    ∧ (∃ (w : Word) (s : State), bitOf w.toNat 6 = true ∧ (s.slice (bitsOf w.toNat 5 0)).state ≠ .free)
    ∧ (∃ (p n at_ m : Nat) (rest : List Nat) (a : AbortRun) (s : State), (s.port p).abort = some (n, at_) ∧ (s.slice n).abort = some a ∧ a.ports.filter (· ≠ p) = m :: rest)
    ∧ (∃ (p n at_ : Nat) (s : State), (s.port p).abort = some (n, at_) ∧ (s.port p).abortDue = [] ∧ at_ + clampNat 1 8 (bitsOf (s.reg .tsu 0x500) 3 0) * 1000 ≤ s.aon .tsu)
    ∧ (∃ (p n at_ : Nat) (s : State), (s.port p).abort = some (n, at_) ∧ s.aon .tsu < at_ + clampNat 1 8 (bitsOf (s.reg .tsu 0x500) 3 0) * 1000) :=
  ⟨⟨0, 0, 0, { arm0 with t := ⟨0, 65536, 0⟩ }, tsuS fun t => { t with arms := [(0, { arm0 with t := ⟨0, 65536, 0⟩ })] }, by decide⟩,
   ⟨0, { arm0 with t := ⟨0, 65536, 65536⟩ }, tsuS fun t => { t with arms := [(0, { arm0 with t := ⟨0, 65536, 65536⟩ })] }, by decide⟩,
   ⟨0, ⟨1, 0⟩, true, fired0, [], State.reset.updPort 0 fun p => { p with fired := [fired0] }, by decide⟩,
   ⟨0, ⟨1, 0⟩, { fired0 with late := true }, [], State.reset.updPort 0 fun p => { p with fired := [{ fired0 with late := true }] }, by decide⟩,
   ⟨0, 0, 0, { fired0 with shown := some 0 }, [], State.reset.updPort 0 fun p => { p with fired := [{ fired0 with shown := some 0 }] }, by decide⟩,
   ⟨1023, 0, State.reset, by decide⟩,
   ⟨0, State.reset, by decide⟩,
   ⟨0x40, sliceS id, by decide⟩,
   ⟨0, 0, 0, 1, [], ⟨⟨1, none, 0, 0, 0, 0, false⟩, 0, [0, 1], [], false, false⟩, (sliceS fun v => { v with abort := some ⟨⟨1, none, 0, 0, 0, 0, false⟩, 0, [0, 1], [], false, false⟩ }).updPort 0 fun p => { p with abort := some (0, 0) }, by decide⟩,
   ⟨0, 0, 0, (State.reset.updPort 0 fun p => { p with abort := some (0, 0) }).updTime .tsu fun t => { t with aon := 8000 }, by decide⟩,
   ⟨0, 0, 0, State.reset.updPort 0 fun p => { p with abort := some (0, 0) }, by decide⟩⟩

/-- Every case of ResultPortRules is met by some state and operands. -/
theorem witness_ResultPortRules :
    (∃ (q : ResultRead) (t : Tumbler) (r : Result) (s : State), q.formed = true ∧ s.tumb? q.entry = some t ∧ t.slice = q.slice ∧ (s.slice q.slice).sgen = q.sgen ∧ q.gen ≠ t.gen ∧ t.result = some r ∧ q.gen = r.gen ∧ q.part = 0 ∧ q.byte + q.length ≤ dataLen r.op r.fmt r.lanes ∧ r.whole = true)
    ∧ (∃ (q : ResultRead) (t : Tumbler) (s : State), q.formed = true ∧ s.tumb? q.entry = some t ∧ t.slice ≠ q.slice)
    ∧ (∃ (q : ResultRead) (s : State), q.formed = false)
    ∧ (∃ (q : ResultRead) (t : Tumbler) (s : State), q.formed = true ∧ s.tumb? q.entry = some t ∧ t.slice = q.slice ∧ (s.slice q.slice).sgen = q.sgen ∧ q.gen = t.gen)
    ∧ (∃ (q : ResultRead) (since d : Nat) (rest : List (ResultRead × Nat)) (s : State), s.tsu.stalls = (q, since) :: rest ∧ since + s.resultWait ≤ s.aon .tsu ∧ (s.updTsu fun t => { t with stalls := rest }).portReply q = .stall d)
    ∧ (∃ (n : Nat) (s : State), s.tsu.arms.filter (fun p => p.2.slice = n && p.2.listWait) = [])
    ∧ (∃ (n id : Nat) (a : Arm) (s : State), s.tsu.arms = [(id, a)] ∧ a.slice = n ∧ a.listWait = true ∧ (s.slice n).headers.head? = some (a.domain, a.index, a.gen) ∧ (s.now .tsu).toNs16 ≤ s.onTimeLimit a.t)
    ∧ (∃ (e : Bool) (n pasid addr : Nat) (data : List Byte) (rest : List NwWrite) (s : State), s.tsu.nwWrites = ⟨.record n, pasid, addr, data⟩ :: rest)
    ∧ (∃ (pasid addr : Nat) (data : List Byte) (rest : List NwWrite) (s : State), s.tsu.nwWrites = ⟨.firmware, pasid, addr, data⟩ :: rest) :=
  ⟨⟨⟨0, 4, 0, 0, 0, 0⟩, { tumb0 with gen := 1, result := some { result0 with op := 1, fmt := 1, lanes := 1 } }, { result0 with op := 1, fmt := 1, lanes := 1 }, tumbS fun t => { t with gen := 1, result := some { result0 with op := 1, fmt := 1, lanes := 1 } }, by decide⟩,
   ⟨⟨0, 4, 1, 0, 0, 0⟩, tumb0, tumbS id, by decide⟩,
   ⟨⟨2, 4, 0, 0, 0, 0⟩, State.reset, by decide⟩,
   ⟨⟨0, 4, 0, 0, 0, 0⟩, tumb0, tumbS id, by decide⟩,
   ⟨⟨0, 4, 0, 0, 0, 0⟩, 0, _, [], ((tumbS id).updTsu fun t => { t with stalls := [(⟨0, 4, 0, 0, 0, 0⟩, 0)] }).updTime .tsu (fun t => { t with aon := 20000 }), rfl, by decide, rfl⟩,
   ⟨0, State.reset, by decide⟩,
   ⟨0, 0, { arm0 with listWait := true, t := ⟨0, 10000, 0⟩ }, (sliceS fun v => { v with headers := [(0, 0, 0)] }).updTsu fun t => { t with arms := [(0, { arm0 with listWait := true, t := ⟨0, 10000, 0⟩ })] }, by decide⟩,
   ⟨false, 0, 0, 0, [], [], tsuS fun t => { t with nwWrites := [⟨.record 0, 0, 0, []⟩] }, by decide⟩,
   ⟨0, 0, [], [], tsuS fun t => { t with nwWrites := [⟨.firmware, 0, 0, []⟩] }, by decide⟩⟩

/-- Every case of ScheduleImageRules is met by some state and operands. -/
theorem witness_ScheduleImageRules :
    (∃ (n : Nat) (s : State), n < 64 ∧ (s.slice n).state = .active ∧ (s.slice n).imgBusy = false ∧ (s.slice n).pending = .none)
    ∧ (∃ (n : Nat) (s : State), n < 64 ∧ (s.slice n).state = .active ∧ (s.slice n).pending ≠ .none)
    ∧ (∃ (n : Nat) (s : State), n < 64 ∧ (s.slice n).state = .active ∧ (s.slice n).imgBusy = true)
    ∧ (∃ (n pasid addr len : Nat) (data : List Byte) (m : SchedImage) (s : State), s.tsu.nwReads = [⟨.image n, pasid, addr, len⟩] ∧ (s.slice n).pending = .none ∧ ((s.updTsu fun t => { t with nwReads := [] }).updSlice n fun v => { v with imgBusy := false }).schedCheck n (padTo len data) len false = .ok m)
    ∧ (∃ (n pasid addr len : Nat) (data : List Byte) (r : Refused) (s u : State), s.tsu.nwReads = [⟨.image n, pasid, addr, len⟩] ∧ (s.slice n).pending = .none ∧ u = ((s.updTsu fun t => { t with nwReads := [] }).updSlice n fun v => { v with imgBusy := false }) ∧ u.schedCheck n (padTo len data) len false = .error r)
    ∧ (∃ (n pasid addr len : Nat) (data : List Byte) (s : State), s.tsu.nwReads = [⟨.image n, pasid, addr, len⟩])
    ∧ (∃ (n pasid addr len : Nat) (data : List Byte) (s : State), s.tsu.nwReads = [⟨.arrival n, pasid, addr, len⟩])
    ∧ (∃ (data : List Byte) (e : Bool) (s : State), s.tsu.nwReads = [])
    ∧ (∃ (n : Nat) (m : SchedImage) (s : State), s.tsu.contexts = [] ∧ s.tsu.tumb = [] ∧ (s.slice n).pending = .image m ∧ m.tumblers = [] ∧ m.contexts = [])
    ∧ (∃ (n : Nat) (s : State), s.noneRuns n = true ∧ (s.slice n).pending = .removal)
    ∧ (∃ (n : Nat) (s : State), s.noneRuns n = false) :=
  ⟨⟨0, sliceS id, by decide⟩,
   ⟨0, sliceS fun v => { v with pending := .removal }, by decide⟩,
   ⟨0, sliceS fun v => { v with imgBusy := true }, by decide⟩,
   ⟨0, 0, 0, 128, imgEnd, endImage, readS (.image 0) fun v => { v with pageQ := 9, imgBusy := true }, rfl, rfl, isOk (by decide +kernel)⟩,
   ⟨0, 0, 0, 128, imgEnd, (12, 0), readS (.image 0) (fun v => { v with imgBusy := true }), _, rfl, rfl, rfl, isError (by decide +kernel)⟩,
   ⟨0, 0, 0, 128, [], readS (.image 0) id, by decide⟩,
   ⟨0, 0, 0, 128, [], readS (.arrival 0) id, by decide⟩,
   ⟨[], true, State.reset, by decide⟩,
   ⟨0, endImage, sliceS fun v => { v with pending := .image endImage }, by decide⟩,
   ⟨0, sliceS fun v => { v with pending := .removal }, by decide⟩,
   ⟨0, tsuS fun t => { t with contexts := [(0, ctx0)] }, by decide⟩⟩
/-- A tree image of the hall root alone that activates at second 9. -/
@[irreducible] def treeLater : List Byte :=
  [75, 71, 84, 82, 1, 0, 0, 0, 0, 0, 2, 0, 0, 0, 0, 119, 0, 0, 0, 0, 0, 5, 0, 0, 0, 0, 0, 0, 0, 9] ++ zeros 30 ++ [163,
   16, 232, 91, 1, 1, 0, 0, 0, 0, 0, 144, 0, 0, 0, 64, 0, 0, 0, 1, 1, 2, 0, 0, 0, 0, 0, 208, 0, 0, 0, 48, 0, 0, 0, 1, 1,
   4, 0, 0, 0, 0, 1, 0, 0, 0, 0, 192, 0, 0, 0, 2, 1, 5, 0, 0, 0, 0, 1, 192, 0, 0, 0, 32, 0, 0, 0, 1, 1, 6, 0, 0, 0, 0, 1,
   224, 0, 0, 0, 32, 0, 0, 0, 1, 0, 0, 0, 0, 0, 0, 2] ++ zeros 57 ++ [12, 0, 0, 11] ++ zeros 44 ++ [12] ++ zeros 95 ++
   [14] ++ zeros 95 ++ [128, 12, 0, 0, 128, 14] ++ zeros 26 ++ [3, 232, 1, 10, 0, 100, 0, 10, 50, 100, 20, 10, 200, 100,
   200, 150] ++ zeros 16
/-- The tree image of those bytes, activating at a time. -/
def hallTree (t : Time80) : TreeImage :=
  ⟨0x77, t, 0, zeros 6 ++ [2] ++ zeros 57, [⟨786432, true, true, 2, 0, 0, 0, 0, []⟩], [], [[12] ++ zeros 95, [14] ++ zeros 95],
   [0x800c0000, 0x800e0000, 0, 0, 0, 0, 0, 0], [3, 232, 1, 10, 0, 100, 0, 10, 50, 100, 20, 10, 200, 100, 200, 150] ++ zeros 16, none⟩
theorem check_later : treeCheck treeLater treeLater.length none = .ok (hallTree ⟨9, 0, 0⟩) := isOk (by decide +kernel)
theorem check_later_again : treeCheck treeLater treeLater.length (some { hallTree ⟨9, 0, 0⟩ with id := 0, refs := [] })
    = .ok (hallTree ⟨9, 0, 0⟩) := isOk (by decide +kernel)
/-- A buffer that holds these bytes from byte 0 on. -/
@[irreducible] def bufOf (b : List Byte) : Tab Word :=
  (List.range (b.length / 4)).foldl (fun m k => bufPut m k (BitVec.ofNat 32 (beNat b (4 * k) 4))) []
/-- The hall root after reset, changed, with bytes in its buffer. -/
def bufS (b : List Byte) (f : Gd → Gd) : State :=
  gdS fun g => f { g with rootSel := true, treeBuf := bufOf b, wptr := b.length }
theorem bytes_later : ((List.range (512 / 4)).flatMap fun k => natBytes (bufGet (bufOf treeLater) k).toNat 4) = treeLater := by
  decide +kernel
/-- The hall root with the image in its buffer, and another one pending. -/
def laterS (p : Option TreeImage) : State := bufS treeLater fun g => { g with treePend := p }
theorem check_laterS (p : Option TreeImage) : treeCheck (laterS p).gd.bufBytes (laterS p).gd.bufBytes.length (laterS p).gd.tree
    = .ok (hallTree ⟨9, 0, 0⟩) := by
  have w : (laterS p).gd.wptr = treeLater.length := rfl
  have n : treeLater.length = 512 := by decide +kernel
  have t : (laterS p).gd.treeBuf = bufOf treeLater := rfl
  have b : (laterS p).gd.bufBytes = treeLater := 
    by rw [Gd.bufBytes, w, n, t]; exact bytes_later
  rw [b]; exact check_later

/-- Every case of TreeImageRules is met by some state and operands. -/
theorem witness_TreeImageRules :
    (∃ (w : Word) (s : State), ∃ k, s.gd.wptr + 4 ≤ 12582912 ∧ k ≠ s.gd.wptr / 4)
    ∧ (∃ (w : Word) (s : State), 12582912 < s.gd.wptr + 4)
    ∧ (∃ (s : State), ∃ d : List Byte, s.gd.rootSel = false)
    ∧ (∃ (d : List Byte) (r : Refused) (s : State), s.gd.rootSel = true ∧ treeCheck d d.length s.gd.tree = .error r)
    ∧ (∃ (r : Refused) (s : State), s.gd.rootSel = true ∧ treeCheck s.gd.bufBytes s.gd.bufBytes.length s.gd.tree = .error r)
    ∧ (∃ (d : List Byte) (x : TreeImage) (s : State), s.gd.rootSel = true ∧ treeCheck d d.length s.gd.tree = .ok x ∧ s.overHeld x = false ∧ s.treeCustody x = true)
    ∧ (∃ (x p : TreeImage) (s : State), s.gd.rootSel = true ∧ treeCheck s.gd.bufBytes s.gd.bufBytes.length s.gd.tree = .ok x ∧ s.overHeld x = false ∧ s.treeCustody x = false ∧ s.gd.treePend = some p ∧ p.prev ≠ x.prev)
    ∧ (∃ (d : List Byte) (x : TreeImage) (s : State), s.gd.rootSel = true ∧ treeCheck d d.length s.gd.tree = .ok x ∧ s.overHeld x = false ∧ s.treeCustody x = false ∧ s.gd.treePend = none ∧ s.gd.badPorts = [] ∧ s.gd.tree = none ∧ (s.now .gd).toNs < x.activateAt.toNs)
    ∧ (∃ (x : TreeImage) (s : State), s.gd.rootSel = true ∧ treeCheck s.gd.bufBytes s.gd.bufBytes.length s.gd.tree = .ok x ∧ s.overHeld x = false ∧ s.treeCustody x = false ∧ s.gd.treePend = none ∧ s.gd.badPorts = [] ∧ s.gd.tree = none ∧ (s.now .gd).toNs < x.activateAt.toNs)
    ∧ (∃ (x : TreeImage) (s : State), s.tsu.treePend = some x ∧ (s.now .tsu).toNs < x.activateAt.toNs)
    ∧ (∃ (x : TreeImage) (s : State), s.tsu.treePend = some x ∧ x.activateAt.toNs ≤ (s.now .tsu).toNs ∧ s.tsu.tree = none ∧ x.leaf = none ∧ x.domains = [])
    ∧ (∃ (x : TreeImage) (s : State), s.gd.treePend = some x ∧ x.activateAt.toNs ≤ (s.now .gd).toNs)
    ∧ (∃ s : State, s.gd.hasAlloc = true ∧ s.gd.staged.rule ≠ 3)
    ∧ (∃ s : State, s.gd.hasAlloc = true ∧ s.gd.staged.rule = 3)
    ∧ (∃ s : State, s.gd.hasAlloc = false) :=
  ⟨⟨0, State.reset, 1, by decide⟩,
   ⟨0, gdS fun g => { g with wptr := 12582912 }, by decide⟩,
   ⟨State.reset, [], by decide⟩,
   ⟨[], (1, 0), bufS [] id, rfl, isError (by decide +kernel)⟩,
   ⟨(1, 0), bufS (zeros 4) id, rfl, isError (by decide +kernel)⟩,
   ⟨treeLater, hallTree ⟨9, 0, 0⟩, bufS [] fun g => { g with sealSt := .locked, ref := { g.ref with isRoot := true }, tree := some { hallTree ⟨9, 0, 0⟩ with id := 0, refs := [] } }, rfl, check_later_again, by decide⟩,
   ⟨hallTree ⟨9, 0, 0⟩, { hallTree ⟨9, 0, 0⟩ with prev := 5 }, laterS (some { hallTree ⟨9, 0, 0⟩ with prev := 5 }), rfl, check_laterS _, by decide, rfl, by decide⟩,
   ⟨treeLater, hallTree ⟨9, 0, 0⟩, bufS [] id, rfl, check_later, rfl, rfl, by decide, rfl, by decide⟩,
   ⟨hallTree ⟨9, 0, 0⟩, laterS none, rfl, check_laterS _, by decide, rfl, by decide, rfl, by decide⟩,
   ⟨hallTree ⟨9, 0, 0⟩, tsuS fun t => { t with treePend := some (hallTree ⟨9, 0, 0⟩) }, by decide⟩,
   ⟨hallTree ⟨0, 0, 0⟩, tsuS fun t => { t with treePend := some (hallTree ⟨0, 0, 0⟩) }, by decide⟩,
   ⟨hallTree ⟨0, 0, 0⟩, gdS fun g => { g with treePend := some (hallTree ⟨0, 0, 0⟩) }, by decide⟩,
   ⟨gdS fun g => { g with variant := .gd64x, unitDis := 0 }, by decide⟩,
   ⟨gdS fun g => { g with variant := .gd64x, unitDis := 0, staged := { g.staged with rule := 3 } }, by decide⟩,
   ⟨gdS fun g => { g with unitDis := 2 }, by decide⟩⟩

/-- Every case of SequencerIssueRules is met by some state and operands. -/
theorem witness_SequencerIssueRules :
    (∃ (c : Nat) (x : Ctx) (k : BitVec 128) (s : State), s.Issues c x k 0)
    ∧ (∃ (c : Nat) (x : Ctx) (k : BitVec 128) (s : State), s.Issues c x k 1)
    ∧ (∃ (c : Nat) (x : Ctx) (k : BitVec 128) (s : State), s.Issues c x k 2)
    ∧ (∃ (c : Nat) (x : Ctx) (k : BitVec 128) (s : State), s.Issues c x k 3)
    ∧ (∃ (c : Nat) (x : Ctx) (k : BitVec 128) (s : State), s.Issues c x k 4)
    ∧ (∃ (c : Nat) (x : Ctx) (k : BitVec 128) (s : State), s.Issues c x k 5)
    ∧ (∃ (c : Nat) (x : Ctx) (k : BitVec 128) (s : State), s.Issues c x k 6)
    ∧ (∃ (c : Nat) (x : Ctx) (k : BitVec 128) (s : State), s.Issues c x k 7)
    ∧ (∃ (c : Nat) (x : Ctx) (k : BitVec 128) (s : State), s.Issues c x k 8)
    ∧ (∃ (c : Nat) (x : Ctx) (k : BitVec 128) (s : State), s.Issues c x k 9)
    ∧ (∃ (c : Nat) (x : Ctx) (k : BitVec 128) (s : State), s.Issues c x k 10)
    ∧ (∃ s : State, s.pickCtx = none)
    ∧ (∃ (c : Nat) (x : Ctx) (k : BitVec 128) (s : State), s.pickCtx = some (c, x) ∧ (s.slice x.slice).clause x.sentence x.clause = some k ∧ clauseBits k 127 124 ≠ 3)
    ∧ (∃ (c : Nat) (x : Ctx) (k : BitVec 128) (s : State), s.pickCtx = some (c, x) ∧ (s.slice x.slice).clause x.sentence x.clause = some k ∧ clauseBits k 127 124 = 0 ∧ s.breakHit c x = true)
    ∧ (∃ (c : Nat) (x : Ctx) (s : State), Tab.get s.tsu.contexts c = some x ∧ x.state = .ready ∧ orOne (bitsOf (s.reg .tsu 0x600) 15 0) ≤ x.run)
    ∧ (∃ (c : Nat) (x : Ctx) (s : State), Tab.get s.tsu.contexts c = some x ∧ x.run < orOne (bitsOf (s.reg .tsu 0x600) 15 0)) :=
  ⟨⟨0, { ctx0 with resident := some 0 }, word 0 0, senS (word 0 0) id, by unfold State.Issues; decide⟩,
   ⟨0, { ctx0 with resident := some 0 }, word 1 0, senS (word 1 0) id, by unfold State.Issues; decide⟩,
   ⟨0, { ctx0 with resident := some 0 }, word 2 0, senS (word 2 0) id, by unfold State.Issues; decide⟩,
   ⟨0, { ctx0 with resident := some 0 }, word 3 0, senS (word 3 0) id, by unfold State.Issues; decide⟩,
   ⟨0, { ctx0 with resident := some 0 }, word 4 0, senS (word 4 0) id, by unfold State.Issues; decide⟩,
   ⟨0, { ctx0 with resident := some 0 }, word 5 0, senS (word 5 0) id, by unfold State.Issues; decide⟩,
   ⟨0, { ctx0 with resident := some 0 }, word 6 0, senS (word 6 0) id, by unfold State.Issues; decide⟩,
   ⟨0, { ctx0 with resident := some 0 }, word 7 0, senS (word 7 0) id, by unfold State.Issues; decide⟩,
   ⟨0, { ctx0 with resident := some 0 }, word 8 0, senS (word 8 0) id, by unfold State.Issues; decide⟩,
   ⟨0, { ctx0 with resident := some 0 }, word 9 0, senS (word 9 0) id, by unfold State.Issues; decide⟩,
   ⟨0, { ctx0 with resident := some 0 }, word 10 0, senS (word 10 0) id, by unfold State.Issues; decide⟩,
   ⟨State.reset, by decide⟩,
   ⟨0, { ctx0 with resident := some 0 }, word 0 0, senS (word 0 0) id, by decide⟩,
   ⟨0, { ctx0 with resident := some 0 }, word 0 0, (senS (word 0 0) id).setReg .tsu 0x888 0x20000000, by decide⟩,
   ⟨0, { { ctx0 with resident := some 0 } with run := 1024 }, (senS (word 0 0) fun x => { x with run := 1024 }).setReg .tsu 0x600 1024, by decide⟩,
   ⟨0, { ctx0 with resident := some 0 }, senS (word 0 0) id, by decide⟩⟩

/-- Every case of ClauseEffectRules is met by some state and operands. -/
theorem witness_ClauseEffectRules :
    (∃ (c : Nat) (k : BitVec 128) (s : State), clauseBits k 95 88 = 0xFF)
    ∧ (∃ (c : Nat) (x : Ctx) (y : Sentence) (k : BitVec 128) (s : State), clauseBits k 95 88 ≠ 0xFF ∧ Tab.get s.tsu.contexts c = some x ∧ (s.slice x.slice).sentence (clauseBits k 95 88) = some y)
    ∧ (∃ (c : Nat) (x : Ctx) (k : BitVec 128) (s : State), clauseBits k 87 86 = 0)
    ∧ (∃ (c : Nat) (x : Ctx) (k : BitVec 128) (s : State), clauseBits k 87 86 = 1 ∧ x.loop1 = 1)
    ∧ (∃ (c : Nat) (x : Ctx) (k : BitVec 128) (s : State), clauseBits k 87 86 = 1 ∧ x.loop1 = 0 ∧ 1 < clauseBits k 85 70)
    ∧ (∃ (c i : Nat) (x : Ctx) (y : Sentence) (s : State), Tab.get s.tsu.contexts c = some x ∧ (s.slice x.slice).sentence x.sentence = some y ∧ y.ccnt ≤ i)
    ∧ (∃ (c i : Nat) (x : Ctx) (y : Sentence) (s : State), Tab.get s.tsu.contexts c = some x ∧ (s.slice x.slice).sentence x.sentence = some y ∧ i < y.ccnt ∧ x.state ≠ .halted)
    ∧ (∃ (c : Nat) (x : Ctx) (k : BitVec 128) (s : State), clauseBits k 95 94 = 0)
    ∧ (∃ (c : Nat) (x : Ctx) (k : BitVec 128) (s : State), clauseBits k 95 94 = 2)
    ∧ (∃ (c : Nat) (x : Ctx) (k : BitVec 128) (s : State), clauseBits k 95 95 = 0)
    ∧ (∃ (c e : Nat) (t : Tumbler) (x : Ctx) (k : BitVec 128) (s : State), s.clauseTumb x k = some e ∧ s.tumb? e = some t ∧ clauseBits k 95 94 = 0 ∧ clauseBits k 93 58 / 17179869184 = 0)
    ∧ (∃ (c e : Nat) (t : Tumbler) (x : Ctx) (k : BitVec 128) (s : State), s.clauseTumb x k = some e ∧ s.tumb? e = some t ∧ clauseBits k 95 94 = 2 ∧ x.lastArv = some (e, t.gen - 1))
    ∧ (∃ (c : Nat) (x : Ctx) (k : BitVec 128) (s : State), s.clauseTumb x k = none)
    ∧ (∃ (c i : Nat) (x : Ctx) (k : BitVec 128) (s : State), s.findTumb x.slice ((s.slice x.slice).imgTag (clauseBits k 108 108 = 1)) (clauseBits k 107 96) = none)
    ∧ (∃ (c i e p : Nat) (t : Tumbler) (x : Ctx) (k : BitVec 128) (s : State), s.findTumb x.slice ((s.slice x.slice).imgTag (clauseBits k 108 108 = 1)) (clauseBits k 107 96) = some e ∧ s.tumb? e = some t ∧ p ∈ (s.slice x.slice).portSet k ∧ p ∉ (s.slice x.slice).ports)
    ∧ (∃ (c i e p r slot id : Nat) (t : Tumbler) (x : Ctx) (k : BitVec 128) (s : State), s.findTumb x.slice ((s.slice x.slice).imgTag (clauseBits k 108 108 = 1)) (clauseBits k 107 96) = some e ∧ s.tumb? e = some t ∧ clauseBits k 123 123 = 0 ∧ (s.slice x.slice).portSet k = [p] ∧ p ∈ (s.slice x.slice).ports ∧ s.isPort p = true ∧ clauseBits k 33 32 = 0 ∧ (s.port p).staging.length < 4 ∧ s.pickSlots (s.portRegions [p]) [] = some [(r, slot)] ∧ Tab.freeKey s.tsu.launches 4096 = some id) :=
  ⟨⟨0, word 0 (0xFF * 2 ^ 88), State.reset, by decide⟩,
   ⟨0, { ctx0 with resident := some 0 }, ⟨0, 1, 0, 0, 0⟩, word 0 0, senS (word 0 0) id, by decide⟩,
   ⟨0, ctx0, word 7 0, State.reset, by decide⟩,
   ⟨0, { ctx0 with loop1 := 1 }, word 7 (2 ^ 86), State.reset, by decide⟩,
   ⟨0, ctx0, word 7 (2 ^ 86 + 2 ^ 71), State.reset, by decide⟩,
   ⟨0, 1, { ctx0 with resident := some 0 }, ⟨0, 1, 0, 0, 0⟩, senS (word 0 0) id, by decide⟩,
   ⟨0, 0, { ctx0 with resident := some 0 }, ⟨0, 1, 0, 0, 0⟩, senS (word 0 0) id, by decide⟩,
   ⟨0, ctx0, word 9 0, State.reset, by decide⟩,
   ⟨0, ctx0, word 9 (2 ^ 95), State.reset, by decide⟩,
   ⟨0, ctx0, word 10 0, State.reset, by decide⟩,
   ⟨0, 0, tumb0, ctx0, word 3 0, stageS (word 3 0) id, by decide⟩,
   ⟨0, 0, tumb0, { ctx0 with lastArv := some (0, 3) }, word 3 (2 ^ 95), tumbS id, by decide⟩,
   ⟨0, ctx0, word 3 0, State.reset, by decide⟩,
   ⟨0, 0, ctx0, word 1 0, State.reset, by decide⟩,
   ⟨0, 0, 0, 0, tumb0, ctx0, word 1 0, (stageS (word 1 0) id).updSlice 0 fun v => { v with ports := [] }, by decide⟩,
   ⟨0, 0, 0, 0, 0, 0, 0, tumb0, ctx0, word 1 0, (stageS (word 1 0) id).updRegion 0 fun g => { g with present := true }, by decide +kernel⟩⟩

/-- Every case of ContextRules is met by some state and operands. -/
theorem witness_ContextRules :
    (∃ (c : Nat) (x : Ctx) (k : BitVec 128) (s : State), Tab.get s.tsu.contexts c = some x ∧ x.block = .staging ∧ x.altClause = none ∧ (s.slice x.slice).clause x.sentence x.clause = some k)
    ∧ (∃ (c : Nat) (x : Ctx) (s : State), Tab.get s.tsu.contexts c = some x ∧ x.block ≠ .staging)
    ∧ (∃ (n c tries : Nat) (o : SeqOrder) (s : State), s.tsu.grants = [⟨3, n, c, tries, some o⟩] ∧ n < 64 ∧ s.tsu.orders.length < 64)
    ∧ (∃ (n c tries : Nat) (o : SeqOrder) (s : State), s.tsu.grants = [⟨3, n, c, tries, some o⟩] ∧ n < 64 ∧ 64 ≤ s.tsu.orders.length ∧ tries < 7)
    ∧ (∃ (n c : Nat) (o : SeqOrder) (s : State), s.tsu.grants = [⟨3, n, c, 7, some o⟩] ∧ n < 64 ∧ 64 ≤ s.tsu.orders.length)
    ∧ (∃ (c e sl d : Nat) (g : BitVec 2) (x : Ctx) (y : Sentence) (s : State), Tab.get s.tsu.contexts c = some x ∧ x.block = .turn e g d sl ∧ x.state = .blocked ∧ x.missed = false ∧ (s.slice x.slice).sentence x.sentence = some y ∧ y.dclass = 0 ∧ x.dCtx.toNs16 ≤ (s.now .tsu).toNs16)
    ∧ (∃ (c : Nat) (x : Ctx) (s : State), Tab.get s.tsu.contexts c = some x ∧ x.missed = true)
    ∧ (∃ (c e sl d : Nat) (g : BitVec 2) (t : Time80) (x : Ctx) (s : State), Tab.get s.tsu.contexts c = some x ∧ x.block = .turn e g d sl ∧ x.state = .blocked ∧ x.topnd = some t ∧ t.toNs16 ≤ (s.now .tsu).toNs16)
    ∧ (∃ (c : Nat) (t : Time80) (x : Ctx) (s : State), Tab.get s.tsu.contexts c = some x ∧ x.topnd = some t ∧ (s.now .tsu).toNs16 < t.toNs16)
    ∧ (∃ (c : Nat) (t : Time80) (x : Ctx) (s : State), Tab.get s.tsu.contexts c = some x ∧ x.topnd = some t ∧ x.state = .sleeping ∧ t.toNs16 ≤ (s.now .tsu).toNs16)
    ∧ (∃ (c : Nat) (x : Ctx) (s : State), s.tsu.swap = none ∧ s.tsu.contexts = [(c, x)] ∧ x.state = .ready ∧ x.resident = none ∧ 0 < (s.slice x.slice).resMax)
    ∧ (∃ (w : Swap) (s : State), s.tsu.swap = some w)
    ∧ (∃ (w : Swap) (ns : Nat) (s : State), s.tsu.swap = some w)
    ∧ (∃ (w : Swap) (ns : Nat) (x : Ctx) (s : State), s.tsu.swap = some w ∧ Tab.get s.tsu.contexts w.incoming = some x)
    ∧ (∃ (ns : Nat) (s : State), s.tsu.swap = none) :=
  ⟨⟨0, { ctx0 with block := .staging }, word 1 0, (clauseS (word 1 0)).updTsu fun t => { t with contexts := [(0, { ctx0 with block := .staging })] }, by decide⟩,
   ⟨0, ctx0, tsuS fun t => { t with contexts := [(0, ctx0)] }, by decide⟩,
   ⟨63, 0, 0, seq0, tsuS fun t => { t with grants := [⟨3, 63, 0, 0, some seq0⟩] }, by decide⟩,
   ⟨0, 0, 6, seq0, tsuS fun t => { t with grants := [⟨3, 0, 0, 6, some seq0⟩], orders := List.replicate 64 seq0 }, by decide +kernel⟩,
   ⟨0, 0, seq0, tsuS fun t => { t with grants := [⟨3, 0, 0, 7, some seq0⟩], orders := List.replicate 64 seq0 }, by decide +kernel⟩,
   ⟨0, 0, 0, 0, 0, { { ctx0 with resident := some 0 } with block := .turn 0 0 0 0, state := .blocked }, ⟨0, 1, 0, 0, 0⟩, senS (word 3 0) fun x => { x with block := .turn 0 0 0 0, state := .blocked }, by decide⟩,
   ⟨0, { ctx0 with missed := true }, tsuS fun t => { t with contexts := [(0, { ctx0 with missed := true })] }, by decide⟩,
   ⟨0, 0, 0, 0, 0, Time80.zero, { ctx0 with block := .turn 0 0 0 0, state := .blocked, topnd := some Time80.zero }, tsuS fun t => { t with contexts := [(0, { ctx0 with block := .turn 0 0 0 0, state := .blocked, topnd := some Time80.zero })] }, by decide⟩,
   ⟨0, ⟨9, 0, 0⟩, { ctx0 with topnd := some ⟨9, 0, 0⟩ }, tsuS fun t => { t with contexts := [(0, { ctx0 with topnd := some ⟨9, 0, 0⟩ })] }, by decide⟩,
   ⟨0, Time80.zero, { ctx0 with topnd := some Time80.zero, state := .sleeping }, tsuS fun t => { t with contexts := [(0, { ctx0 with topnd := some Time80.zero, state := .sleeping })] }, by decide⟩,
   ⟨0, ctx0, (sliceS fun v => { v with resMax := 1 }).updTsu fun t => { t with contexts := [(0, ctx0)] }, by decide⟩,
   ⟨⟨0, none, 0⟩, tsuS fun t => { t with swap := some ⟨0, none, 0⟩ }, by decide⟩,
   ⟨⟨0, none, 0⟩, 0, tsuS fun t => { t with swap := some ⟨0, none, 0⟩ }, by decide⟩,
   ⟨⟨0, none, 0⟩, 0, ctx0, tsuS fun t => { t with swap := some ⟨0, none, 0⟩, contexts := [(0, ctx0)] }, by decide⟩,
   ⟨0, State.reset, by decide⟩⟩

/-- Every case of RadioCalendarRules is met by some state and operands. -/
theorem witness_RadioCalendarRules :
    (∃ (w : Word) (s : State), s.gdAbsent 0x2C0 = false)
    ∧ (∃ (w : Word) (s : State), (s.gd.variant ≠ .gd64x ∨ s.gd.hasRef = false))
    ∧ (∃ (n : Node) (s : State), (s.com n).rfPend = none)
    ∧ (∃ (n : Node) (ns fr : Nat) (at_ : Time80) (s : State), (s.com n).rfPend = some (ns, fr, at_) ∧ (s.now n).toNs < boundaryAfter at_)
    ∧ (∃ (n : Node) (ns fr : Nat) (at_ : Time80) (s : State), (s.com n).rfPend = some (ns, fr, at_) ∧ boundaryAfter at_ ≤ (s.now n).toNs ∧ s.tsu.calendar = [])
    ∧ (∃ (k : Nat) (s : State), Tab.get s.tsu.calendar k = none)
    ∧ (∃ (k : Nat) (e : CalEntry) (s : State), Tab.get s.tsu.calendar k = some e ∧ s.calDue e = none)
    ∧ (∃ (k : Nat) (e : CalEntry) (b : Int) (s : State), s.tsu.calendar = [(k, e)] ∧ s.calDue e = some b ∧ e.lastB = none ∧ s.tsu.calTick = true)
    ∧ (∃ (k : Nat) (e : CalEntry) (b : Int) (s : State), s.tsu.calendar = [(k, e)] ∧ s.calDue e = some b ∧ e.lastB = none ∧ s.tsu.calTick = false ∧ s.tsu.com.time.launchOk = false)
    ∧ (∃ (k : Nat) (e : CalEntry) (b : Int) (s : State), s.tsu.calendar = [(k, e)] ∧ s.calDue e = some b ∧ e.lastB = none ∧ s.tsu.calTick = false ∧ s.tsu.com.time.launchOk = true ∧ e.flag 4 = true ∧ s.tsu.com.time.info.traceable = false)
    ∧ (∃ (k : Nat) (e : CalEntry) (b : Int) (s : State), s.tsu.calendar = [(k, e)] ∧ s.calDue e = some b ∧ e.lastB = none ∧ s.tsu.calTick = false ∧ s.tsu.com.time.launchOk = true ∧ e.flag 4 = false ∧ (s.slice e.slice).state = .halted)
    ∧ (∃ (k : Nat) (e : CalEntry) (b : Int) (s : State), s.tsu.calendar = [(k, e)] ∧ s.calDue e = some b ∧ e.lastB = none ∧ s.tsu.calTick = false ∧ s.tsu.com.time.launchOk = true ∧ e.flag 4 = false ∧ (s.slice e.slice).state ≠ .halted)
    ∧ (∃ (k i : Nat) (e : CalEntry) (b : Int) (t : Tumbler) (s : State), s.findTumb e.slice 0 e.tumbIx = some i ∧ s.tumb? i = some t)
    ∧ (∃ (k : Nat) (e : CalEntry) (s : State), Tab.get s.tsu.calendar k = some e ∧ e.flag 5 = false)
    ∧ (∃ (k p : Nat) (e : CalEntry) (m : SchedImage) (b : Int) (s : State), Tab.get s.tsu.calendar k = some e ∧ s.slotBoundary e ((s.now .tsu).toNs + e.lead + s.clearLead) = b ∧ e.flag 3 = true ∧ e.flag 5 = true ∧ s.tsu.com.time.launchOk = true ∧ e.fires (s.slotName e b).2 = true ∧ e.lastHold = none ∧ e.wrote ≤ b - e.lead - s.clearLead ∧ (s.slice e.slice).image = some m ∧ m.portsets[beNat e.bytes 36 1]? = some [p])
    ∧ (∃ (k : Nat) (b : Int) (w : Word) (turns : Nat) (e : CalEntry) (s : State), s.tsu.calendar = [(k, e)] ∧ e.checks = [(b, w, turns)] ∧ b + e.doneDl ≤ (s.now .tsu).toNs ∧ turns = (((s.findTumb e.slice 0 e.doneIx).bind s.tumb?).map (·.turns)).getD 0)
    ∧ (∃ (k : Nat) (b : Int) (w : Word) (turns : Nat) (e : CalEntry) (s : State), s.tsu.calendar = [(k, e)] ∧ e.checks = [(b, w, turns)] ∧ b + e.doneDl ≤ (s.now .tsu).toNs ∧ turns ≠ (((s.findTumb e.slice 0 e.doneIx).bind s.tumb?).map (·.turns)).getD 0)
    ∧ (∃ (p : Nat) (s : State), (s.port p).hold = [])
    ∧ (∃ (p n : Nat) (d : Word) (s : State), (s.port p).hold = [(n, d)] ∧ (s.port p).fired = [] ∧ 0 ≤ sdiff 32 (s.now .tsu).ns32.toNat d.toNat)
    ∧ (∃ (p n : Nat) (d : Word) (s : State), (s.port p).hold = [(n, d)] ∧ sdiff 32 (s.now .tsu).ns32.toNat d.toNat < 0) :=
  ⟨⟨0, State.reset, by decide⟩,
   ⟨0, gdS fun g => { g with variant := .gd32e }, by decide⟩,
   ⟨.tsu, State.reset, by decide⟩,
   ⟨.tsu, 0, 0, Time80.zero, State.reset.updCom .tsu fun c => { c with rfPend := some (0, 0, Time80.zero) }, by decide⟩,
   ⟨.tsu, 0, 0, Time80.zero, (State.reset.updCom .tsu fun c => { c with rfPend := some (0, 0, Time80.zero) }).updTime .tsu fun t => { t with counter := ⟨9, 0, 0⟩ }, by decide⟩,
   ⟨0, State.reset, by decide⟩,
   ⟨0, cal0 0, calS (cal0 0) id, by decide⟩,
   ⟨0, cal0 8, 0, calS (cal0 8) fun t => { t with calTick := true }, by decide⟩,
   ⟨0, cal0 8, 0, calS (cal0 8) id, by decide⟩,
   ⟨0, cal0 24, 0, calS (cal0 24) launchT, by decide⟩,
   ⟨0, cal0 8, 0, (calS (cal0 8) launchT).updSlice 0 fun v => { v with state := .halted }, by decide⟩,
   ⟨0, cal0 8, 0, calS (cal0 8) launchT, by decide⟩,
   ⟨0, 0, cal0 0, 0, tumb0, tumbS id, by decide⟩,
   ⟨0, cal0 0, calS (cal0 0) id, by decide⟩,
   ⟨0, 0, cal0 40, { endImage with portsets := [[0]] }, 1000000, ((calS (cal0 40) launchT).updTime .tsu fun t => { t with counter := ⟨0, 990000, 0⟩ }).updSlice 0 fun v => { v with image := some { endImage with portsets := [[0]] } }, by decide⟩,
   ⟨0, 0, 0, 0, { cal0 0 with checks := [(0, 0, 0)] }, calS { cal0 0 with checks := [(0, 0, 0)] } id, by decide⟩,
   ⟨0, 0, 0, 1, { cal0 0 with checks := [(0, 0, 1)] }, calS { cal0 0 with checks := [(0, 0, 1)] } id, by decide⟩,
   ⟨0, State.reset, by decide⟩,
   ⟨0, 0, 0, State.reset.updPort 0 fun p => { p with hold := [(0, 0)] }, by decide⟩,
   ⟨0, 0, 1, State.reset.updPort 0 fun p => { p with hold := [(0, 1)] }, by decide⟩⟩

/-- Every case of ServingRules is met by some state and operands. -/
theorem witness_ServingRules :
    (∃ (n : Nat) (w : Word) (e : CalEntry) (s : State), n < 64 ∧ (s.slice n).state = .active ∧ (s.slice n).ownsCal (w.toNat % 256) = true ∧ Tab.get s.tsu.calendar (w.toNat % 256) = some e)
    ∧ (∃ (n k : Nat) (s : State), n < 64 ∧ (s.slice n).state = .active ∧ (s.slice n).word 0x180 % 256 = k ∧ Tab.get s.tsu.calendar k = none ∧ (s.slice n).calQ ≤ (s.tsu.calendar.filter fun p => p.2.slice = n).length)
    ∧ (∃ (n k : Nat) (s : State), n < 64 ∧ (s.slice n).state = .active ∧ (s.slice n).word 0x180 % 256 = k ∧ (s.tsu.calendar.filter fun p => p.2.slice = n).length < (s.slice n).calQ ∧ (s.slice n).ownsCal k = false)
    ∧ (∃ (n k off : Nat) (s : State), n < 64 ∧ (s.slice n).state = .active ∧ (s.slice n).word 0x180 % 256 = k ∧ (s.tsu.calendar.filter fun p => p.2.slice = n).length < (s.slice n).calQ ∧ (s.slice n).ownsCal k = true ∧ s.calInvalid n k ⟨n, (s.slice n).pageBytes 0x190 12, 0, none, none, [], (s.now .tsu).toNs⟩ = some off)
    ∧ (∃ (n k : Nat) (s : State), n < 64 ∧ (s.slice n).state = .active ∧ (s.slice n).word 0x180 % 256 = k ∧ (s.tsu.calendar.filter fun p => p.2.slice = n).length < (s.slice n).calQ ∧ (s.slice n).ownsCal k = true ∧ Tab.get s.tsu.calendar k = none ∧ s.calInvalid n k ⟨n, (s.slice n).pageBytes 0x190 12, 0, none, none, [], (s.now .tsu).toNs⟩ = none)
    ∧ (∃ (e : CalEntry) (n k : Nat) (s : State), 4 < e.mu)
    ∧ (∃ (e : CalEntry) (n k : Nat) (s : State), e.mu ≤ 4 ∧ beNat e.bytes 3 1 = 0)
    ∧ (∃ (e : CalEntry) (n k : Nat) (s : State), e.mu ≤ 4 ∧ beNat e.bytes 3 1 ≠ 0 ∧ 10 * 2 ^ e.mu % beNat e.bytes 3 1 = 0 ∧ 1000000 / 2 ^ e.mu ≤ e.lead)
    ∧ (∃ (n : Nat) (b : List Byte) (o : SeqOrder) (s : State), n < 64 ∧ (s.slice n).state = .active ∧ (s.slice n).pageBytes 0x1C0 12 = b ∧ o = ⟨n, beNat b 0 1, beNat b 2 2 % 8192, beNat b 4 8, b.drop 16⟩ ∧ s.tsu.orders.length < 64 ∧ s.serveStep n < o.eff)
    ∧ (∃ (n : Nat) (b : List Byte) (o : SeqOrder) (s : State), n < 64 ∧ (s.slice n).state = .active ∧ (s.slice n).pageBytes 0x1C0 12 = b ∧ o = ⟨n, beNat b 0 1, beNat b 2 2 % 8192, beNat b 4 8, b.drop 16⟩ ∧ s.tsu.orders.length < 64 ∧ o.eff ≤ s.serveStep n)
    ∧ (∃ (n : Nat) (b : List Byte) (o : SeqOrder) (s : State), n < 64 ∧ (s.slice n).state = .active ∧ (s.slice n).pageBytes 0x1C0 12 = b ∧ o = ⟨n, beNat b 0 1, beNat b 2 2 % 8192, beNat b 4 8, b.drop 16⟩ ∧ 64 ≤ s.tsu.orders.length ∧ s.serveStep n < o.eff)
    ∧ (∃ (o : SeqOrder) (l : List SeqOrder), ((∀ x ∈ l, x.eff ≤ o.eff)))
    ∧ (∃ (o : SeqOrder) (l : List SeqOrder), l.Pairwise (fun a b => a.eff ≤ b.eff))
    ∧ (∃ (n : Nat) (s : State), n < 64 ∧ (s.slice n).state = .active ∧ s.serveOk n (s.slice n).serveWords = true)
    ∧ (∃ (n : Nat) (s : State), n < 64 ∧ (s.slice n).state = .active ∧ s.serveOk n (s.slice n).serveWords = false)
    ∧ (∃ (n : Nat) (d : Serve) (s : State), (d.maxEntries = 0 ∨ 512 < d.maxEntries ∨ d.budget = 0 ∨ d.starve = 0))
    ∧ (∃ (n : Nat) (w : Word) (s : State), ∃ c ∈ [Instr.calSelect n w, .calWrite n, .seqOrderSubmit n, .serveCommit n], n < 64 ∧ (s.slice n).state = .free) :=
  ⟨⟨0, 0, cal0 8, (calS (cal0 8) id).updSlice 0 fun v => { v with calQ := 1 }, by decide⟩,
   ⟨0, 0, sliceS id, by decide⟩,
   ⟨0, 1, pageS [(0x180, 1)], by decide⟩,
   ⟨0, 0, 3, pageS [], by decide⟩,
   ⟨0, 0, (pageS [(0x190, 0x801), (0x194, 0x1000000)]).updTsu fun t => { t with tumb := [(0, { tumb0 with mask := 0, op := 5, fmt := 2, lanes := 8 })] }, by decide⟩,
   ⟨{ cal0 8 with bytes := [0, 0, 5] }, 0, 0, State.reset, by decide⟩,
   ⟨{ cal0 8 with bytes := [0, 0, 4] }, 0, 0, State.reset, by decide⟩,
   ⟨{ cal0 8 with bytes := [0, 0, 0, 1] ++ zeros 20 ++ natBytes 1000000 4 }, 0, 0, State.reset, by decide⟩,
   ⟨0, _, _, pageS [(0x1C8, 1)], by decide, by decide, rfl, rfl, by decide, by decide⟩,
   ⟨0, _, _, pageS [], by decide, by decide, rfl, rfl, by decide, by decide⟩,
   ⟨0, _, _, (pageS [(0x1C8, 1)]).updTsu fun t => { t with orders := List.replicate 64 seq0 }, by decide, by decide, rfl, rfl, by decide +kernel, by decide⟩,
   ⟨seq0, [seq0], by decide⟩,
   ⟨seq0, [seq0], by decide⟩,
   ⟨0, sliceS fun v => { v with page := [(0x204, 0x10001), (0x208, 1)] }, by decide⟩,
   ⟨0, sliceS id, by decide⟩,
   ⟨0, ⟨false, false, 0, 0, false, false, 0, 0, 1, 1, 0⟩, State.reset, by decide⟩,
   ⟨0, 0, State.reset, .calWrite 0, by decide⟩⟩

/-- Every case of SliceRules is met by some state and operands. -/
theorem witness_SliceRules :
    (∃ (n : Nat) (s : State), s.selSlice = n ∧ (s.slice n).state ≠ .free)
    ∧ (∃ (n : Nat) (x : Nat × Slice) (s : State), s.selSlice = n ∧ (s.slice n).state = .free ∧ x ∈ s.tsu.slices ∧ x.2.state ≠ .free ∧ x.2.pasid = bitsOf ((s.slice n).win 0x68C) 19 0)
    ∧ (∃ (n i : Nat) (s : State), s.selSlice = n ∧ (s.slice n).state = .free ∧ ((∀ x ∈ s.tsu.slices, x.2.state ≠ .free → x.2.pasid ≠ bitsOf ((s.slice n).win 0x68C) 19 0)) ∧ s.poolCheck (s.slice n) = .error i)
    ∧ (∃ (n row cal : Nat) (s : State), s.selSlice = n ∧ (s.slice n).state = .free ∧ ((∀ x ∈ s.tsu.slices, x.2.state ≠ .free → x.2.pasid ≠ bitsOf ((s.slice n).win 0x68C) 19 0)) ∧ s.poolCheck (s.slice n) = .ok (row, cal))
    ∧ (∃ (n : Nat) (s : State), s.selSlice = n ∧ (s.slice n).state = .free)
    ∧ (∃ (n : Nat) (s : State), s.selSlice = n ∧ (s.slice n).state = .resetting)
    ∧ (∃ (n : Nat) (s : State), s.selSlice = n ∧ (s.slice n).state = .active ∧ (s.slice n).abort = none ∧ s.tsu.arms = [] ∧ s.tsu.launches = [] ∧ s.tsu.contexts = [] ∧ s.tsu.waits = [] ∧ s.tsu.tumb = [] ∧ s.tsu.ports = [] ∧ (s.slice n).bindings = [])
    ∧ (∃ (n p : Nat) (f : Fired) (q : Port) (s : State), s.selSlice = n ∧ (s.slice n).state = .active ∧ (s.slice n).abort = none ∧ s.tsu.arms = [] ∧ s.tsu.launches = [] ∧ s.tsu.contexts = [] ∧ s.tsu.waits = [] ∧ s.tsu.tumb = [] ∧ s.tsu.ports = [(p, q)] ∧ q.fired = [f] ∧ f.cmd.slice = n ∧ q.abort = none)
    ∧ (∃ (n : Nat) (s : State), s.selSlice = n ∧ (s.slice n).state ≠ .active)
    ∧ (∃ (n m : Nat) (tag : BitVec 24) (s : State), s.selSlice = n ∧ (s.slice n).state = .active ∧ BitVec.ofNat 24 (bitsOf (s.reg .tsu 0x69C) 23 0) = tag ∧ s.sliceOf tag = some m ∧ m ≠ n)
    ∧ (∃ (n : Nat) (tag : BitVec 24) (s : State), s.selSlice = n ∧ (s.slice n).state = .active ∧ BitVec.ofNat 24 (bitsOf (s.reg .tsu 0x69C) 23 0) = tag ∧ s.sliceOf tag = none ∧ s.domRec tag = none)
    ∧ (∃ (n : Nat) (tag : BitVec 24) (s : State), s.selSlice = n ∧ (s.slice n).state = .active ∧ BitVec.ofNat 24 (bitsOf (s.reg .tsu 0x69C) 23 0) = tag ∧ s.sliceOf tag = none ∧ s.domRec tag ≠ none ∧ 16 ≤ (s.slice n).bindings.length)
    ∧ (∃ (n : Nat) (tag : BitVec 24) (s : State), s.selSlice = n ∧ (s.slice n).state = .active ∧ BitVec.ofNat 24 (bitsOf (s.reg .tsu 0x69C) 23 0) = tag ∧ s.sliceOf tag = none ∧ s.domRec tag ≠ none ∧ (s.slice n).bindings.length < 16 ∧ tag ∉ s.tsu.shadowed)
    ∧ (∃ (n : Nat) (tag : BitVec 24) (s : State), s.selSlice = n ∧ (s.slice n).state = .active ∧ BitVec.ofNat 24 (bitsOf (s.reg .tsu 0x69C) 23 0) = tag ∧ s.sliceOf tag = none ∧ s.domRec tag ≠ none ∧ (s.slice n).bindings.length < 16 ∧ tag ∈ s.tsu.shadowed)
    ∧ (∃ (n : Nat) (tag : BitVec 24) (b : Binding) (s : State), s.selSlice = n ∧ BitVec.ofNat 24 (bitsOf (s.reg .tsu 0x69C) 23 0) = tag ∧ b ∈ (s.slice n).bindings ∧ b.tag = tag ∧ s.tsu.tumb = [])
    ∧ (∃ (n : Nat) (s : State), s.selSlice = n ∧ (s.slice n).bindings = []) :=
  ⟨⟨0, sliceS id, by decide⟩,
   ⟨0, (1, slice1), tsuS fun t => { t with slices := [(1, slice1)] }, by decide⟩,
   ⟨0, 0, State.reset.updSlice 0 fun v => { v with page := [(windowKey + 0x690, 0x1FFF)] }, by decide, by decide, by decide, isError (by decide +kernel)⟩,
   ⟨0, 0, 0, State.reset, by decide, by decide, by decide, isOk (by decide +kernel)⟩,
   ⟨0, State.reset, by decide⟩,
   ⟨0, sliceS fun v => { v with state := .resetting }, by decide⟩,
   ⟨0, sliceS id, by decide⟩,
   ⟨0, 0, fired0, { (sliceS id).port 0 with fired := [fired0] }, (sliceS id).updTsu fun t => { t with ports := [(0, { (sliceS id).port 0 with fired := [fired0] })] }, by decide⟩,
   ⟨0, State.reset, by decide⟩,
   ⟨0, 1, 5, (bindS id id).updTsu fun t => { t with slices := t.slices ++ [(1, { slice1 with bindings := [bind0] })] }, by decide⟩,
   ⟨0, 0, sliceS id, by decide⟩,
   ⟨0, 5, bindS (fun v => { v with bindings := List.replicate 16 { bind0 with tag := 6 } }) id, by decide⟩,
   ⟨0, 5, bindS id id, by decide⟩,
   ⟨0, 5, bindS id fun t => { t with shadowed := [5] }, by decide⟩,
   ⟨0, 5, bind0, bindS (fun v => { v with bindings := [bind0] }) id, by decide⟩,
   ⟨0, State.reset, by decide⟩⟩

/-- Every case of SliceOrderRules is met by some state and operands. -/
theorem witness_SliceOrderRules :
    (∃ (n v : Nat) (c : Instr) (o : Order) (u s : State), (c, v) ∈ [(Instr.orderAbort n true, 1), (.orderFence n true, 2), (.orderStop n true, 3), (.orderStart n true, 4), (.orderResume n true, 5)] ∧ n < 64 ∧ (s.slice n).state = .active ∧ u = (s.updSlice n fun x => { x with orderSeq := ((s.slice n).orderSeq + 1) % 65536 }) ∧ o = u.scoped n (orderOf v ((s.slice n).word 0x040) 4 (srcSlice n) (((s.slice n).orderSeq + 1) % 65536)) ∧ s.tsu.tickOrders = [] ∧ u.orderValid n o = true)
    ∧ (∃ (n v : Nat) (c : Instr) (o : Order) (u s : State), (c, v) ∈ [(Instr.orderAbort n true, 1), (.orderFence n true, 2), (.orderStop n true, 3), (.orderStart n true, 4), (.orderResume n true, 5)] ∧ n < 64 ∧ (s.slice n).state = .active ∧ u = (s.updSlice n fun x => { x with orderSeq := ((s.slice n).orderSeq + 1) % 65536 }) ∧ o = u.scoped n (orderOf v ((s.slice n).word 0x040) 4 (srcSlice n) (((s.slice n).orderSeq + 1) % 65536)) ∧ s.tsu.tickOrders = [] ∧ u.orderValid n o = false)
    ∧ (∃ (n v : Nat) (c : Instr) (o : Order) (u s : State), ∃ w : Order, (c, v) ∈ [(Instr.orderAbort n true, 1), (.orderFence n true, 2), (.orderStop n true, 3), (.orderStart n true, 4), (.orderResume n true, 5)] ∧ n < 64 ∧ (s.slice n).state = .active ∧ u = (s.updSlice n fun x => { x with orderSeq := ((s.slice n).orderSeq + 1) % 65536 }) ∧ o = u.scoped n (orderOf v ((s.slice n).word 0x040) 4 (srcSlice n) (((s.slice n).orderSeq + 1) % 65536)) ∧ s.tsu.tickOrders = [⟨n, w⟩] ∧ overlap w o = true ∧ w.verb ≠ 0 ∧ o.before w = false)
    ∧ (∃ (n w v : Nat) (c : Instr) (s : State), (c, v) ∈ [(Instr.orderAbort n false, 1), (.orderFence n false, 2), (.orderStop n false, 3), (.orderStart n false, 4), (.orderResume n false, 5)] ∧ s.selSlice = w ∧ (s.slice w).state = .free)
    ∧ (∃ (n w v : Nat) (c : Instr) (s : State), (c, v) ∈ [(Instr.orderAbort n false, 1), (.orderFence n false, 2), (.orderStop n false, 3), (.orderStart n false, 4), (.orderResume n false, 5)] ∧ s.selSlice = w ∧ (s.slice w).state ≠ .free)
    ∧ (∃ a b : Order, a.rank < b.rank)
    ∧ (∃ a b : Order, a.rank = b.rank ∧ a.src ≠ b.src ∧ a.verb < b.verb)
    ∧ (∃ (n : Nat) (o : Order) (s : State), o.verb = 1 ∧ s.tsu.arms = [] ∧ s.tsu.launches = [] ∧ s.tsu.contexts = [] ∧ s.tsu.waits = [] ∧ s.tsu.tumb = [] ∧ s.tsu.ports = [] ∧ (s.slice n).state = .active)
    ∧ (∃ (n c : Nat) (x : Ctx) (o : Order) (s : State), o.verb = 2 ∧ s.tsu.launches = [] ∧ s.tsu.contexts = [(c, x)] ∧ x.slice = n ∧ x.state = .ready)
    ∧ (∃ (n c : Nat) (x : Ctx) (o : Order) (s : State), o.verb = 3 ∧ s.tsu.launches = [] ∧ s.tsu.contexts = [(c, x)] ∧ x.slice = n ∧ ((o.ctx = none ∨ o.ctx = some x.record)))
    ∧ (∃ (n c rec : Nat) (x : Ctx) (m : SchedImage) (o : Order) (s : State), o.verb = 4 ∧ (s.slice n).image = some m ∧ o.ctx = some rec ∧ s.tsu.contexts = [(c, x)] ∧ x.slice = n ∧ x.record = rec)
    ∧ (∃ (n c : Nat) (x : Ctx) (o : Order) (s : State), o.verb = 5 ∧ (s.slice n).state = .halted ∧ s.tsu.contexts = [(c, x)] ∧ x.slice = n)
    ∧ (∃ (n : Nat) (o : Order) (s : State), (s.slice n).state = .fencing ∧ (s.slice n).fence = some o ∧ s.fenceClear n = true)
    ∧ (∃ (n : Nat) (s : State), (s.fenceClear n = false ∨ (s.slice n).fence = none))
    ∧ (∃ (n w : Nat) (b : Binding) (s : State), n < 64 ∧ (s.slice n).state = .active ∧ (s.slice n).word 0x040 = w ∧ (s.slice n).bindings[bitsOf w 28 25]? = some b ∧ 0 < bitsOf w 2 0 ∧ bitsOf w 2 0 ≤ 5)
    ∧ (∃ (n : Nat) (w : Word) (s : State), n < 64 ∧ (s.slice n).state = .active ∧ (s.slice n).crHead ≠ (s.slice n).crTail)
    ∧ (∃ (n : Nat) (w : Word) (s : State), n < 64 ∧ (s.slice n).state = .active ∧ (s.slice n).crHead = (s.slice n).crTail) :=
  ⟨⟨0, 1, .orderAbort 0 true, _, _, sliceS id, by decide, by decide, by decide, rfl, rfl, rfl, by decide⟩,
   ⟨0, 4, .orderStart 0 true, _, _, sliceS id, by decide, by decide, by decide, rfl, rfl, rfl, by decide⟩,
   ⟨0, 2, .orderFence 0 true, _, _, (sliceS id).updTsu (fun t => { t with tickOrders := [⟨0, { order0 1 with rank := 0 }⟩] }), { order0 1 with rank := 0 }, by decide, by decide, by decide, rfl, rfl, rfl, by decide, by decide, by decide⟩,
   ⟨0, 0, 1, .orderAbort 0 false, State.reset, by decide⟩,
   ⟨0, 0, 5, .orderResume 0 false, sliceS id, by decide⟩,
   ⟨{ order0 1 with rank := 2 }, order0 1, by decide⟩,
   ⟨order0 1, { order0 2 with src := 1 }, by decide⟩,
   ⟨0, order0 1, sliceS id, by decide⟩,
   ⟨0, 0, ctx0, order0 2, ctxS id ctx0, by decide⟩,
   ⟨0, 0, ctx0, order0 3, ctxS id ctx0, by decide⟩,
   ⟨0, 0, 0, ctx0, endImage, { order0 4 with ctx := some 0 }, ctxS (fun v => { v with image := some endImage }) ctx0, by decide⟩,
   ⟨0, 0, ctx0, order0 5, (ctxS id ctx0).updSlice 0 fun v => { v with state := .halted }, by decide⟩,
   ⟨0, order0 2, (sliceS fun v => { v with fence := some (order0 2) }).updSlice 0 fun v => { v with state := .fencing }, by decide⟩,
   ⟨0, State.reset, by decide⟩,
   ⟨0, 1, bind0, sliceS fun v => { v with bindings := [bind0], page := [(0x040, 1)] }, by decide⟩,
   ⟨0, 0, sliceS fun v => { v with crHead := 1 }, by decide⟩,
   ⟨0, 0, sliceS id, by decide⟩⟩

/-- Every case of DomainMessageRules is met by some state and operands. -/
theorem witness_DomainMessageRules :
    (∃ (l : LinkId) (rx : Rx) (T : Nat) (count : Frame → Nat) (code : ErrCode) (s u : State), s.receive l rx T = (u, none))
    ∧ (∃ (l : LinkId) (rx : Rx) (T : Nat) (count : Frame → Nat) (code : ErrCode) (f : Frame) (s u : State), s.receive l rx T = (u, some f) ∧ u.gd.hasRole = false)
    ∧ (∃ (l : LinkId) (rx : Rx) (T : Nat) (count : Frame → Nat) (code : ErrCode) (f : Frame) (s u : State), ∃ d : GdDom, s.receive l rx T = (u, some f) ∧ u.gd.hasRole = true ∧ (u.link l).chainOf f.cls.toNat = [] ∧ f.more = false ∧ count f = 1 ∧ u.dom? f.domain = some d)
    ∧ (∃ (l : LinkId) (rx : Rx) (T : Nat) (count : Frame → Nat) (code : ErrCode) (f : Frame) (s u : State), s.receive l rx T = (u, some f) ∧ u.gd.hasRole = true ∧ (u.link l).chainOf f.cls.toNat = [] ∧ f.more = false ∧ count f = 1 ∧ u.dom? f.domain = none)
    ∧ (∃ (l : LinkId) (rx : Rx) (T : Nat) (count : Frame → Nat) (code : ErrCode) (f : Frame) (s u : State), s.receive l rx T = (u, some f) ∧ u.gd.hasRole = true ∧ (u.link l).chainOf f.cls.toNat = [] ∧ f.more = false ∧ count f = 0 ∧ code = .frameMalformed)
    ∧ (∃ (l : LinkId) (rx : Rx) (T : Nat) (count : Frame → Nat) (code : ErrCode) (f : Frame) (s u : State), ∃ (h : Frame) (fs : List Frame), s.receive l rx T = (u, some f) ∧ u.gd.hasRole = true ∧ (u.link l).chainOf f.cls.toNat = h :: fs ∧ count h ≠ 0 ∧ f.more = true ∧ fs.length + 2 < count h)
    ∧ (∃ (l : LinkId) (rx : Rx) (T : Nat) (count : Frame → Nat) (code : ErrCode) (f : Frame) (s u : State), ∃ (h : Frame) (fs : List Frame), s.receive l rx T = (u, some f) ∧ u.gd.hasRole = true ∧ (u.link l).chainOf f.cls.toNat = h :: fs ∧ count h ≠ 0 ∧ f.more = false ∧ count h = fs.length + 2)
    ∧ (∃ (l : LinkId) (rx : Rx) (T : Nat) (count : Frame → Nat) (code : ErrCode) (f : Frame) (s u : State), ∃ (h : Frame) (fs : List Frame), s.receive l rx T = (u, some f) ∧ u.gd.hasRole = true ∧ (u.link l).chainOf f.cls.toNat = h :: fs ∧ count h ≠ 0 ∧ f.more = true ∧ count h ≤ fs.length + 2)
    ∧ (∃ (l : LinkId) (d : DomRec) (c : Nat) (fs : List Frame) (die : Option Nat) (s : State), l.port < 64 ∧ s.gd.childOfPort l.port ∉ s.gd.members d)
    ∧ (∃ (l : LinkId) (d : DomRec) (c : Nat) (fs : List Frame) (die : Option Nat) (s : State), l.port < 64 ∧ s.gd.childOfPort l.port ∈ s.gd.members d ∧ (fs.head?.map (·.detour)).getD false = false ∧ s.acts d = true)
    ∧ (∃ (l : LinkId) (d : DomRec) (c : Nat) (fs : List Frame) (die : Option Nat) (s : State), l.port < 64 ∧ s.gd.childOfPort l.port ∈ s.gd.members d ∧ (fs.head?.map (·.detour)).getD false = false ∧ s.acts d = false)
    ∧ (∃ (p : Nat) (rx : Rx) (s u : State), s.gdFrame ⟨.gd, p⟩ rx 0x10 s.arriveCount .combineUnsupported = (u, .gone))
    ∧ (∃ (p i : Nat) (copy : Bool) (rx : Rx) (d : GdDom) (f : Frame) (fs : List Frame) (s u : State), s.gdFrame ⟨.gd, p⟩ rx 0x10 s.arriveCount .combineUnsupported = (u, .part (f :: fs)) ∧ u.dom? f.domain = some d ∧ u.heldOff ⟨.gd, p⟩ d.dr.tag = false ∧ u.upPlace ⟨.gd, p⟩ d.dr f.detour (some f.fDie) = .child i copy)
    ∧ (∃ (p : Nat) (rx : Rx) (f : Frame) (fs : List Frame) (s u : State), s.gdFrame ⟨.gd, p⟩ rx 0x10 s.arriveCount .combineUnsupported = (u, .whole (f :: fs)) ∧ u.dom? f.domain = none)
    ∧ (∃ (p : Nat) (rx : Rx) (f : Frame) (fs : List Frame) (s u : State), ∃ d : GdDom, s.gdFrame ⟨.gd, p⟩ rx 0x10 s.arriveCount .combineUnsupported = (u, .whole (f :: fs)) ∧ u.dom? f.domain = some d ∧ u.heldOff ⟨.gd, p⟩ d.dr.tag = true)
    ∧ (∃ (p : Nat) (rx : Rx) (f : Frame) (fs : List Frame) (s u : State), ∃ (d : GdDom) (v : State) (i : Nat) (copy : Bool), s.gdFrame ⟨.gd, p⟩ rx 0x10 s.arriveCount .combineUnsupported = (u, .whole (f :: fs)) ∧ u.dom? f.domain = some d ∧ u.heldOff ⟨.gd, p⟩ d.dr.tag = false ∧ u.upPart ⟨.gd, p⟩ d.dr 2 (f :: fs) (some f.fDie) = (v, some (i, copy)))
    ∧ (∃ (d : GdDom) (p i : Nat) (e : Soft) (f : Frame) (copy : Bool) (s : State), ∃ u : State, f.fIndex < d.dr.tumblers ∧ d.waiting = false ∧ s.soft? d.dr.tag f.fIndex = some e ∧ i ∉ e.out ∧ f.gen = e.lastGen + 1 ∧ i ∉ e.marks ∧ (e.desc = none ∨ e.desc = some f.fDesc) ∧ e.marks ≠ [] ∧ u = (s.updSoft d.dr.tag f.fIndex fun y => { y.take i f.fDesc (arriveData [f]) 1 s.gd.com.time.aon with marks := y.marks ++ [i], members := (y.members + f.fMembers) % 524288, short := y.short || f.f49, step16 := f.step16, latestDie := if 0 < sdiff 32 f.fNs.toNat e.latestNs.toNat then f.fDie else y.latestDie, latestNs := if 0 < sdiff 32 f.fNs.toNat e.latestNs.toNat then f.fNs else y.latestNs }))
    ∧ (∃ (d : GdDom) (p i : Nat) (e : Soft) (f : Frame) (copy : Bool) (s : State), f.fIndex < d.dr.tumblers ∧ d.waiting = false ∧ s.soft? d.dr.tag f.fIndex = some e ∧ i ∉ e.out ∧ f.gen = e.lastGen + 1 ∧ i ∉ e.marks ∧ e.desc ≠ none ∧ e.desc ≠ some f.fDesc)
    ∧ (∃ (d : GdDom) (p i : Nat) (e : Soft) (f : Frame) (copy : Bool) (s : State), f.fIndex < d.dr.tumblers ∧ d.waiting = false ∧ s.soft? d.dr.tag f.fIndex = some e ∧ i ∉ e.out ∧ f.gen = e.lastGen + 1 ∧ i ∈ e.marks)
    ∧ (∃ (d : GdDom) (p i : Nat) (e : Soft) (f : Frame) (copy : Bool) (s : State), f.fIndex < d.dr.tumblers ∧ d.waiting = false ∧ s.soft? d.dr.tag f.fIndex = some e ∧ i ∉ e.out ∧ f.gen = e.lastGen)
    ∧ (∃ (d : GdDom) (p i : Nat) (e : Soft) (f : Frame) (copy : Bool) (s : State), f.fIndex < d.dr.tumblers ∧ d.waiting = false ∧ s.soft? d.dr.tag f.fIndex = some e ∧ i ∉ e.out ∧ f.gen = e.lastGen + 2)
    ∧ (∃ (d : GdDom) (p i : Nat) (e : Soft) (f : Frame) (copy : Bool) (s : State), f.fIndex < d.dr.tumblers ∧ d.waiting = false ∧ s.soft? d.dr.tag f.fIndex = some e ∧ i ∉ e.out ∧ f.gen = e.lastGen + 3)
    ∧ (∃ (tag : BitVec 24) (index : Nat) (d : GdDom) (e : Soft) (s : State), s.dom? tag = some d ∧ s.soft? tag index = some e ∧ ((∃ i ∈ s.expected d.dr e, i ∉ e.marks)))
    ∧ (∃ (p : Nat) (rx : Rx) (d : GdDom) (fs : List Frame) (s u : State), (p = 64 ∨ p = 65) ∧ s.gdMessage ⟨.gd, p⟩ rx 0x11 (s.downFrames false) (s.downCode rx) = (u, some (d, fs)))
    ∧ (∃ (p : Nat) (rx : Rx) (d : GdDom) (fs : List Frame) (s u : State), (p = 64 ∨ p = 65) ∧ s.gdMessage ⟨.gd, p⟩ rx 0x08 (s.downFrames true) (s.downCode rx) = (u, some (d, fs)))
    ∧ (∃ (d : GdDom) (p : Nat) (e : Soft) (f : Frame) (copy launch : Bool) (s : State), f.fIndex < d.dr.tumblers ∧ d.waiting = false ∧ s.soft? d.dr.tag f.fIndex = some e ∧ f.gen = e.lastGen)
    ∧ (∃ (d : GdDom) (p : Nat) (e : Soft) (f : Frame) (c : Int) (s : State), f.fIndex < d.dr.tumblers ∧ d.waiting = false ∧ d.dr.stepEn = false ∧ s.soft? d.dr.tag f.fIndex = some e ∧ f.gen = e.lastGen + 1 ∧ c = extendNs s.gd.com.time.counter f.time)
    ∧ (∃ (p : Nat) (rx : Rx) (f : Frame) (s u : State), s.receive ⟨.gd, p⟩ rx 0x0B = (u, some f) ∧ u.gd.hasRole = true ∧ p < u.gd.fan ∧ f.domain ≠ 0)
    ∧ (∃ (tag : BitVec 24) (i : Nat) (v : DlatIn) (d : GdDom) (s : State), s.dom? tag = some d ∧ d.dr.tag = tag ∧ i ∈ s.gd.members d.dr ∧ v.valid = true)
    ∧ (∃ (p : Nat) (tag : BitVec 24) (s : State), p < 2 ∧ s.trained ⟨.tsu, p⟩ = true ∧ Tab.get s.tsu.sentDlat p = none)
    ∧ (∃ (p at_ : Nat) (tag : BitVec 24) (s : State), Tab.get s.tsu.sentDlat p = some (s.laneDlat p, true, at_) ∧ s.tsu.com.time.aon < at_ + 100000000) :=
  ⟨⟨⟨.gd, 0⟩, good (frame 8 1 []), 9, fun _ => 1, .frameMalformed, State.reset, _, rfl⟩,
   ⟨⟨.gd, 0⟩, good (frame 8 1 []), 8, fun _ => 1, .frameMalformed, _, upS ⟨.gd, 0⟩, _, rfl, by decide⟩,
   ⟨⟨.gd, 0⟩, good (dframe 8 1 0 []), 8, fun _ => 1, .frameMalformed, _, boardS gdom7 soft0 id, _, gdom7, rfl, by decide, by decide, by decide, rfl, by decide⟩,
   ⟨⟨.gd, 0⟩, good (frame 8 1 []), 8, fun _ => 1, .frameMalformed, _, boardS gdom7 soft0 id, _, rfl, by decide, by decide, by decide, rfl, by decide⟩,
   ⟨⟨.gd, 0⟩, good (frame 8 1 []), 8, fun _ => 0, .frameMalformed, _, boardS gdom7 soft0 id, _, rfl, by decide, by decide, by decide, rfl, rfl⟩,
   ⟨⟨.gd, 0⟩, good { dframe 8 1 0 [] with more := true }, 8, fun _ => 4, .frameMalformed, _, (boardS gdom7 soft0 id).updLink ⟨.gd, 0⟩ (fun k => { k with chain1 := [dframe 8 1 0 []] }), _, _, _, rfl, by decide, rfl, by decide, by decide, by decide⟩,
   ⟨⟨.gd, 0⟩, good (dframe 8 1 0 []), 8, fun _ => 2, .frameMalformed, _, (boardS gdom7 soft0 id).updLink ⟨.gd, 0⟩ (fun k => { k with chain1 := [dframe 8 1 0 []] }), _, _, _, rfl, by decide, rfl, by decide, by decide, by decide⟩,
   ⟨⟨.gd, 0⟩, good { dframe 8 1 0 [] with more := true }, 8, fun _ => 2, .frameMalformed, _, (boardS gdom7 soft0 id).updLink ⟨.gd, 0⟩ (fun k => { k with chain1 := [dframe 8 1 0 []] }), _, _, _, rfl, by decide, rfl, by decide, by decide, by decide⟩,
   ⟨⟨.gd, 0⟩, dom7, 1, [], none, State.reset, by decide⟩,
   ⟨⟨.gd, 0⟩, dom7, 1, [], none, boardS gdom7 soft0 id, by decide⟩,
   ⟨⟨.gd, 0⟩, dom7, 1, [], none, boardS gdom7 soft0 fun g => { g with sideSel := true, locator := some 131072 }, by decide⟩,
   ⟨0, good (frame 16 2 []), State.reset, _, rfl⟩,
   ⟨0, 0, false, good { dframe 16 2 1 [0, 0, 1, 1, 0, 64] with more := true }, gdom7, _, _, boardS gdom7 soft0 id, _, rfl, by decide, by decide, by decide⟩,
   ⟨0, good (frame 16 2 []), _, _, boardS gdom7 soft0 id, _, rfl, by decide⟩,
   ⟨0, good (dframe 16 2 1 []), _, _, boardS gdom7 soft0 (fun g => { g with domRst := [7] }), _, gdom7, rfl, by decide, by decide⟩,
   ⟨0, good (dframe 16 2 1 []), _, _, boardS gdom7 soft0 id, _, gdom7, _, 0, false, rfl, by decide, by decide, rfl⟩,
   ⟨gdom7, 0, 0, { soft0 with marks := [1] }, dframe 16 2 1 [], false, boardS gdom7 { soft0 with marks := [1] } id, _, by decide, by decide, by decide, by decide, by decide, by decide, by decide, by decide, rfl⟩,
   ⟨gdom7, 0, 0, { soft0 with desc := some (1, 1, 1) }, dframe 16 2 1 [], false, boardS gdom7 { soft0 with desc := some (1, 1, 1) } id, by decide⟩,
   ⟨gdom7, 0, 0, { soft0 with marks := [0] }, dframe 16 2 1 [], false, boardS gdom7 { soft0 with marks := [0] } id, by decide⟩,
   ⟨gdom7, 0, 0, soft0, dframe 16 2 0 [], false, boardS gdom7 soft0 id, by decide⟩,
   ⟨gdom7, 0, 0, soft0, dframe 16 2 2 [], false, boardS gdom7 soft0 id, by decide⟩,
   ⟨gdom7, 0, 0, soft0, dframe 16 2 3 [], false, boardS gdom7 soft0 id, by decide⟩,
   ⟨7, 0, gdom7, soft0, boardS gdom7 soft0 id, by decide⟩,
   ⟨64, good (dframe 17 2 1 []), _, _, boardS gdom7 soft0 id, _, by decide, rfl⟩,
   ⟨64, good (dframe 8 1 1 []), _, _, boardS gdom7 soft0 id, _, by decide, rfl⟩,
   ⟨gdom7, 64, soft0, dframe 17 2 0 [], false, false, boardS gdom7 soft0 id, by decide⟩,
   ⟨gdom7, 64, soft0, dframe 17 2 1 [], _, boardS gdom7 soft0 id, by decide, by decide, by decide, by decide, by decide, rfl⟩,
   ⟨0, good (dframe 11 1 0 []), _, boardS gdom7 soft0 id, _, rfl, by decide, by decide, by decide⟩,
   ⟨7, 0, ⟨0, true, false, 0⟩, gdom7, boardS gdom7 soft0 id, by decide⟩,
   ⟨0, 0, upS ⟨.tsu, 0⟩, by decide⟩,
   ⟨0, 0, 0, tsuS fun t => { t with sentDlat := [(0, (State.reset.laneDlat 0, true, 0))] }, by decide⟩⟩

/-- Every case of DomainOrderRules is met by some state and operands. -/
theorem witness_DomainOrderRules :
    (∃ (p n : Nat) (rx : Rx) (f : Frame) (s u : State), f.more = false ∧ u.sliceOf f.domain = some n ∧ f.f49 = false ∧ s.receive ⟨.tsu, p⟩ rx 0x09 = (u, some f))
    ∧ (∃ (p n : Nat) (rx : Rx) (f : Frame) (s u : State), f.more = false ∧ u.sliceOf f.domain = some n ∧ f.f49 = false ∧ s.receive ⟨.tsu, p⟩ rx 0x0C = (u, some f) ∧ 2 ≤ f.byte 17 ∧ f.byte 17 ≤ 5)
    ∧ (∃ (p : Nat) (rx : Rx) (f : Frame) (s u : State), f.more = false ∧ u.sliceOf f.domain = none ∧ s.receive ⟨.tsu, p⟩ rx 0x09 = (u, some f))
    ∧ (∃ (p : Nat) (rx : Rx) (f : Frame) (s u : State), f.more = false ∧ (f.byte 17 < 2 ∨ 5 < f.byte 17) ∧ s.receive ⟨.tsu, p⟩ rx 0x0C = (u, some f))
    ∧ (∃ (p i : Nat) (copy pod : Bool) (rx : Rx) (d : GdDom) (f : Frame) (s u v : State), f.f49 = true ∧ u.upPart ⟨.gd, p⟩ d.dr 1 [f] none = (v, some (i, copy)) ∧ v.takesRequests d = some pod ∧ s.gdMessage ⟨.gd, p⟩ rx 0x09 (fun _ => 1) = (u, some (d, [f])))
    ∧ (∃ (p i : Nat) (copy pod : Bool) (rx : Rx) (d : GdDom) (f : Frame) (s u v : State), f.f49 = true ∧ u.upPart ⟨.gd, p⟩ d.dr 1 [f] none = (v, some (i, copy)) ∧ v.takesRequests d = some pod ∧ s.gdMessage ⟨.gd, p⟩ rx 0x0C (fun f => if 2 ≤ f.byte 17 ∧ f.byte 17 ≤ 5 then 1 else 0) = (u, some (d, [f])))
    ∧ (∃ (d : GdDom) (pod : Bool) (st : BitVec 16) (o : List Byte) (r : Nat) (s : State), d.abortOpen = true)
    ∧ (∃ (d : GdDom) (st : BitVec 16) (o : List Byte) (r : Nat) (s : State), d.abortOpen = false)
    ∧ (∃ (p : Nat) (rx : Rx) (d : GdDom) (f : Frame) (s u : State), s.gdMessage ⟨.gd, p⟩ rx 0x09 (fun _ => 1) = (u, some (d, [f])) ∧ f.f49 = false ∧ (p = 64 ∨ p = 65) ∧ p ≠ u.gd.partnerPort ∧ ¬(d.abortOpen = true ∧ d.abortId = f.nat 12 2))
    ∧ (∃ (p i : Nat) (rx : Rx) (d x : GdDom) (f : Frame) (s u v : State), s.gdMessage ⟨.gd, p⟩ rx 0x0A (fun _ => 1) = (u, some (d, [f])) ∧ u.upPart ⟨.gd, p⟩ d.dr 1 [f] (some (f.nat 24 3 % 262144)) = (v, some (i, false)) ∧ v.dom? d.dr.tag = some x ∧ (x.abortOpen = false ∨ x.abortId ≠ f.nat 12 2 ∨ i ∈ x.abortDone))
    ∧ (∃ (p i : Nat) (rx : Rx) (d x : GdDom) (f : Frame) (s u v : State), s.gdMessage ⟨.gd, p⟩ rx 0x0A (fun _ => 1) = (u, some (d, [f])) ∧ u.upPart ⟨.gd, p⟩ d.dr 1 [f] (some (f.nat 24 3 % 262144)) = (v, some (i, false)) ∧ v.dom? d.dr.tag = some x ∧ x.abortOpen = true ∧ x.abortId = f.nat 12 2 ∧ x.abortDone = [])
    ∧ (∃ (tag : BitVec 24) (d : GdDom) (s : State), s.dom? tag = some d ∧ d.abortOpen = false)
    ∧ (∃ (tag : BitVec 24) (d : GdDom) (s : State), s.dom? tag = some d ∧ d.abortOpen = true ∧ d.abortAt + s.gd.abortWait ≤ s.gd.com.time.aon)
    ∧ (∃ (tag : BitVec 24) (d : GdDom) (s : State), s.dom? tag = some d ∧ d.abortOpen = true ∧ s.gd.com.time.aon < d.abortAt + s.gd.abortWait ∧ ((∃ i ∈ s.abortKids d, i ∉ d.abortDone)))
    ∧ (∃ (w : Word) (s : State), w.toNat.testBit 24 = false)
    ∧ (∃ (w : Word) (d : GdDom) (s : State), w.toNat.testBit 24 = true ∧ s.dom? (BitVec.ofNat 24 w.toNat) = some d ∧ (s.setReg .gd 0x500 (w &&& 0xFFFFFF#32)).takesRequests d = some false)
    ∧ (∃ (w : Word) (s : State), w.toNat.testBit 24 = true ∧ (bitsOf w.toNat 2 0 < 2 ∨ 5 < bitsOf w.toNat 2 0))
    ∧ (∃ (w : Word) (d : GdDom) (u s : State), w.toNat.testBit 24 = true ∧ 2 ≤ bitsOf w.toNat 2 0 ∧ bitsOf w.toNat 2 0 ≤ 5 ∧ u = s.setReg .gd 0x514 (w &&& 0xFF01FF#32) ∧ u.dom? (BitVec.ofNat 24 (u.reg .gd 0x500)) = some d ∧ u.takesRequests d = some false) :=
  ⟨⟨0, 0, good (dframe 9 1 0 []), _, ((sliceS fun v => { v with bindings := [{ bind0 with tag := 7 }] }).updLink ⟨.tsu, 0⟩ fun k => { k with state := .up }), _, by decide, by decide, by decide, rfl⟩,
   ⟨0, 0, good (dframe 12 1 0 (zeros 5 ++ [2])), _, ((sliceS fun v => { v with bindings := [{ bind0 with tag := 7 }] }).updLink ⟨.tsu, 0⟩ fun k => { k with state := .up }), _, by decide, by decide, by decide, rfl, by decide, by decide⟩,
   ⟨0, good (dframe 9 1 0 []), _, upS ⟨.tsu, 0⟩, _, by decide, by decide, rfl⟩,
   ⟨0, good (dframe 12 1 0 []), _, upS ⟨.tsu, 0⟩, _, by decide, by decide, rfl⟩,
   ⟨0, 0, false, false, good { dframe 9 1 0 [] with f49 := true }, gdom7, { dframe 9 1 0 [] with f49 := true }, boardS gdom7 soft0 id, _, _, by decide, rfl, by decide, rfl⟩,
   ⟨0, 0, false, false, good { dframe 12 1 0 (zeros 5 ++ [5]) with f49 := true }, gdom7, { dframe 12 1 0 (zeros 5 ++ [5]) with f49 := true }, boardS gdom7 soft0 id, _, _, by decide, rfl, by decide, rfl⟩,
   ⟨{ gdom7 with abortOpen := true }, false, 0, [], 0, State.reset, by decide⟩,
   ⟨gdom7, 0, [], 0, State.reset, by decide⟩,
   ⟨64, good (dframe 9 1 0 []), gdom7, dframe 9 1 0 [], boardS gdom7 soft0 id, _, rfl, by decide, by decide, by decide, by decide⟩,
   ⟨0, 0, good (dframe 10 1 0 []), gdom7, gdom7, dframe 10 1 0 [], boardS gdom7 soft0 id, _, _, rfl, rfl, by decide, by decide⟩,
   ⟨0, 0, good (dframe 10 1 0 []), { gdom7 with abortOpen := true }, { gdom7 with abortOpen := true }, dframe 10 1 0 [], boardS { gdom7 with abortOpen := true } soft0 id, _, _, rfl, rfl, by decide, by decide, by decide, by decide⟩,
   ⟨7, gdom7, boardS gdom7 soft0 id, by decide⟩,
   ⟨7, { gdom7 with abortOpen := true }, ((boardS { gdom7 with abortOpen := true } soft0 id).updTime .gd fun t => { t with aon := 25000 }), by decide⟩,
   ⟨7, { gdom7 with abortOpen := true }, boardS { gdom7 with abortOpen := true } soft0 id, by decide⟩,
   ⟨0, State.reset, by decide⟩,
   ⟨0x1000007, gdom7, boardS gdom7 soft0 id, by decide⟩,
   ⟨0x1000001, State.reset, by decide⟩,
   ⟨0x1000005, gdom7, _, (boardS gdom7 soft0 id).setReg .gd 0x500 7, by decide, by decide, by decide, rfl, by decide, by decide⟩⟩

/-- Every case of DomainStartRules is met by some state and operands. -/
theorem witness_DomainStartRules :
    (∃ (p : Nat) (rx : Rx) (f : Frame) (d : GdDom) (s u : State), (p = 64 ∨ p = 65) ∧ u.gd.hasRole = true ∧ u.dom? f.domain = some d ∧ s.recvOp ⟨.gd, p⟩ rx 0x19 1 = (u, some f))
    ∧ (∃ (p : Nat) (rx : Rx) (f : Frame) (d : GdDom) (s u : State), (p = 64 ∨ p = 65) ∧ u.gd.hasRole = true ∧ u.dom? f.domain = some d ∧ s.recvOp ⟨.gd, p⟩ rx 0x19 3 = (u, some f))
    ∧ (∃ (p : Nat) (rx : Rx) (f : Frame) (d : GdDom) (s u : State), (p = 64 ∨ p = 65) ∧ u.gd.hasRole = true ∧ u.dom? f.domain = some d ∧ s.recvOp ⟨.gd, p⟩ rx 0x19 5 = (u, some f))
    ∧ (∃ (p : Nat) (rx : Rx) (f : Frame) (s u : State), (p = 64 ∨ p = 65) ∧ u.gd.hasRole = true ∧ u.dom? f.domain = none ∧ s.recvOp ⟨.gd, p⟩ rx 0x19 1 = (u, some f))
    ∧ (∃ (p : Nat) (rx : Rx) (f : Frame) (s u : State), (p = 64 ∨ p = 65) ∧ u.gd.hasRole = true ∧ u.dom? f.domain = none ∧ s.recvOp ⟨.gd, p⟩ rx 0x19 3 = (u, some f))
    ∧ (∃ (p : Nat) (rx : Rx) (f : Frame) (s u : State), (p = 64 ∨ p = 65) ∧ u.gd.hasRole = true ∧ u.dom? f.domain = none ∧ s.recvOp ⟨.gd, p⟩ rx 0x19 5 = (u, some f))
    ∧ (∃ (d x : GdDom) (only : Bool) (s : State), s.dom? d.dr.tag = some x)
    ∧ (∃ (tag : BitVec 24) (s : State), ∃ index, index < 4096)
    ∧ (∃ (p : Nat) (rx : Rx) (f : Frame) (d : DomRec) (s u : State), s.recvOp ⟨.tsu, p⟩ rx 0x19 1 = (u, some f) ∧ u.domRec f.domain = some d)
    ∧ (∃ (d : DomRec) (s : State), s.sliceOf d.tag = none ∧ d.topIsDie = false)
    ∧ (∃ (p : Nat) (rx : Rx) (f : Frame) (s u : State), s.recvOp ⟨.tsu, p⟩ rx 0x19 3 = (u, some f))
    ∧ (∃ (tag : BitVec 24) (x : Torn) (s : State), s.tsu.tearing = [x] ∧ x.tag = tag ∧ x.asked = true ∧ ((∀ p ∈ s.tsu.tumb, p.2.domain ≠ tag)))
    ∧ (∃ (tag : BitVec 24) (x : Torn) (s : State), s.tsu.tearing = [x] ∧ x.tag = tag ∧ x.asked = false)
    ∧ (∃ (tag : BitVec 24) (x : Torn) (s : State), s.tsu.tearing = [x] ∧ x.tag = tag ∧ ((∃ p ∈ s.tsu.tumb, p.2.domain = tag)))
    ∧ (∃ (tag : BitVec 24) (s : State), s.tsu.tearing = [])
    ∧ (∃ (p i : Nat) (rx : Rx) (f : Frame) (d : GdDom) (s u v : State), s.recvOp ⟨.gd, p⟩ rx 0x19 2 = (u, some f) ∧ u.gd.hasRole = true ∧ u.dom? f.domain = some d ∧ u.upPart ⟨.gd, p⟩ d.dr 2 [f] none = (v, some (i, false)) ∧ i ∈ d.torn)
    ∧ (∃ (p i : Nat) (rx : Rx) (f : Frame) (d : GdDom) (s u v : State), s.recvOp ⟨.gd, p⟩ rx 0x19 2 = (u, some f) ∧ u.gd.hasRole = true ∧ u.dom? f.domain = some d ∧ u.upPart ⟨.gd, p⟩ d.dr 2 [f] none = (v, some (i, false)) ∧ i ∉ d.torn)
    ∧ (∃ (tag : BitVec 24) (d : GdDom) (s : State), s.dom? tag = some d ∧ (d.tearing = false ∨ d.tornSent = true ∨ s.acts d.dr = false))
    ∧ (∃ (tag : BitVec 24) (d : GdDom) (s : State), ∃ t, s.dom? tag = some d ∧ d.tornAt = some t ∧ ((∃ i ∈ s.gd.members d.dr, i ∉ d.torn)) ∧ s.gd.com.time.aon < t + s.gd.abortWait)
    ∧ (∃ (tag : BitVec 24) (d : GdDom) (s : State), ∃ t miss, s.dom? tag = some d ∧ d.tearing = true ∧ d.tornSent = false ∧ s.acts d.dr = true ∧ d.tornAt = some t ∧ t + s.gd.abortWait ≤ s.gd.com.time.aon ∧ s.gd.isTop d.dr = false ∧ miss = d.missSum + (((s.gd.members d.dr).filter fun i => !d.torn.contains i).map fun i => d.dr.count (s.gd.childSpan i).1 (s.gd.childSpan i).2).sum)
    ∧ (∃ (p i : Nat) (rx : Rx) (f : Frame) (d : GdDom) (s u v : State), s.recvOp ⟨.gd, p⟩ rx 0x19 4 = (u, some f) ∧ u.gd.hasRole = true ∧ u.dom? f.domain = some d ∧ u.upPart ⟨.gd, p⟩ d.dr 2 [f] none = (v, some (i, false)))
    ∧ (∃ (tag : BitVec 24) (d : GdDom) (s : State), s.dom? tag = some d ∧ d.waiting = false)
    ∧ (∃ (tag : BitVec 24) (d : GdDom) (s : State), s.dom? tag = some d ∧ d.waiting = true ∧ s.gd.roomFor d.dr = true)
    ∧ (∃ (tag : BitVec 24) (d : GdDom) (s : State), s.dom? tag = some d ∧ d.waiting = true ∧ s.gd.roomFor d.dr = false ∧ d.waitNoted = false)
    ∧ (∃ (tag : BitVec 24) (d : GdDom) (s : State), s.dom? tag = some d ∧ d.waiting = true ∧ s.gd.roomFor d.dr = false ∧ d.waitNoted = true)
    ∧ (∃ (p : Nat) (rx : Rx) (f : Frame) (s u : State), s.recvOp ⟨.tsu, p⟩ rx 0x19 5 = (u, some f) ∧ u.domRec f.domain ≠ none)
    ∧ (∃ (p : Nat) (rx : Rx) (f : Frame) (s u : State), s.recvOp ⟨.tsu, p⟩ rx 0x19 5 = (u, some f) ∧ u.domRec f.domain = none)
    ∧ (∃ (tag : BitVec 24) (n : Nat) (b : Binding) (s : State), s.tsu.tumb = [] ∧ s.sliceOf tag = some n ∧ (s.slice n).bindings = [b] ∧ b.tag = tag ∧ b.mstate = .waiting) :=
  ⟨⟨64, good (dframe 25 2 0 [1]), _, gdom7, boardS gdom7 soft0 id, _, by decide, by decide, by decide, rfl⟩,
   ⟨64, good (dframe 25 2 0 [3]), _, gdom7, boardS gdom7 soft0 id, _, by decide, by decide, by decide, rfl⟩,
   ⟨64, good (dframe 25 2 0 [5]), _, gdom7, boardS gdom7 soft0 id, _, by decide, by decide, by decide, rfl⟩,
   ⟨64, good (frame 25 2 [1]), _, boardS gdom7 soft0 id, _, by decide, by decide, by decide, rfl⟩,
   ⟨64, good (frame 25 2 [3]), _, boardS gdom7 soft0 id, _, by decide, by decide, by decide, rfl⟩,
   ⟨64, good (frame 25 2 [5]), _, boardS gdom7 soft0 id, _, by decide, by decide, by decide, rfl⟩,
   ⟨gdom7, gdom7, false, boardS gdom7 soft0 id, by decide⟩,
   ⟨7, State.reset, 4095, by decide⟩,
   ⟨0, good { frame 25 2 [1] with domain := 5 }, _, dom5, (bindS id id).updLink ⟨.tsu, 0⟩ fun k => { k with state := .up }, _, rfl, by decide⟩,
   ⟨dom7, State.reset, by decide⟩,
   ⟨0, good (dframe 25 2 0 [3]), _, upS ⟨.tsu, 0⟩, _, rfl⟩,
   ⟨7, ⟨7, false, true, true⟩, tsuS fun t => { t with tearing := [⟨7, false, true, true⟩] }, by decide⟩,
   ⟨7, ⟨7, false, true, false⟩, tsuS fun t => { t with tearing := [⟨7, false, true, false⟩] }, by decide⟩,
   ⟨7, ⟨7, false, true, true⟩, tsuS fun t => { t with tearing := [⟨7, false, true, true⟩], tumb := [(0, { tumb0 with domain := 7 })] }, by decide⟩,
   ⟨7, State.reset, by decide⟩,
   ⟨0, 0, good (dframe 25 2 0 [2]), _, gdom id (fun d => { d with torn := [0] }), boardS (gdom id fun d => { d with torn := [0] }) soft0 id, _, _, rfl, by decide, by decide, rfl, by decide⟩,
   ⟨0, 0, good (dframe 25 2 0 [2]), _, gdom7, boardS gdom7 soft0 id, _, _, rfl, by decide, by decide, rfl, by decide⟩,
   ⟨7, gdom7, boardS gdom7 soft0 id, by decide⟩,
   ⟨7, gdom id (fun d => { d with tornAt := some 0 }), boardS (gdom id fun d => { d with tornAt := some 0 }) soft0 id, 0, by decide⟩,
   ⟨7, gdom (fun r => { r with top := 262144 }) (fun d => { d with tearing := true, tornAt := some 0 }), (boardS (gdom (fun r => { r with top := 262144 }) fun d => { d with tearing := true, tornAt := some 0 }) soft0 id).updTime .gd (fun t => { t with aon := 30000 }), 0, 8, by decide⟩,
   ⟨0, 0, good (dframe 25 2 0 [4]), _, gdom7, boardS gdom7 soft0 id, _, _, rfl, by decide, by decide, rfl⟩,
   ⟨7, gdom7, boardS gdom7 soft0 id, by decide⟩,
   ⟨7, gdom id (fun d => { d with waiting := true }), boardS (gdom id fun d => { d with waiting := true }) soft0 id, by decide⟩,
   ⟨7, gdom (fun r => { r with tumblers := 65537 }) (fun d => { d with waiting := true }), boardS (gdom (fun r => { r with tumblers := 65537 }) fun d => { d with waiting := true }) soft0 id, by decide⟩,
   ⟨7, gdom (fun r => { r with tumblers := 65537 }) (fun d => { d with waiting := true, waitNoted := true }), boardS (gdom (fun r => { r with tumblers := 65537 }) fun d => { d with waiting := true, waitNoted := true }) soft0 id, by decide⟩,
   ⟨0, good { frame 25 2 [5] with domain := 5 }, _, (bindS id id).updLink ⟨.tsu, 0⟩ (fun k => { k with state := .up }), _, rfl, by decide⟩,
   ⟨0, good { frame 25 2 [5] with domain := 5 }, _, upS ⟨.tsu, 0⟩, _, rfl, by decide⟩,
   ⟨5, 0, { bind0 with mstate := .waiting }, sliceS fun v => { v with bindings := [{ bind0 with mstate := .waiting }] }, by decide⟩⟩

/-- Every case of HealthRules is met by some state and operands. -/
theorem witness_HealthRules :
    (∃ (p : Nat) (agrees : Bool) (k : Link) (s : State), s.link ⟨.gd, p⟩ = k ∧ s.gd.hasRole = true ∧ s.gd.role = some 0 ∧ p < 8 ∧ (k.enabled = true ∨ k.everUp = true) ∧ k.state ≠ .up ∧ k.downAt + (if k.everUp then 120000000 else 240000000) ≤ s.gd.com.time.aon ∧ (agrees = true ∨ s.trained ⟨.gd, s.gd.partnerPort⟩ = false))
    ∧ (∃ (p : Nat) (agrees : Bool) (k : Link) (s : State), s.link ⟨.gd, p⟩ = k ∧ s.gd.com.time.aon < k.downAt + (if k.everUp then 120000000 else 240000000))
    ∧ (∃ (p : Nat) (agrees : Bool) (k : Link) (s : State), s.link ⟨.gd, p⟩ = k ∧ k.state = .up)
    ∧ (∃ (p : Nat) (agrees : Bool) (k : Link) (s : State), s.link ⟨.gd, p⟩ = k ∧ agrees = false ∧ s.trained ⟨.gd, s.gd.partnerPort⟩ = true)
    ∧ (∃ (i : Nat) (k : Link) (s : State), s.link ⟨.gd, i⟩ = k ∧ s.gd.hasRole = true ∧ s.gd.role ≠ some 0 ∧ i < s.gd.fan ∧ k.state ≠ .up ∧ k.downAt + 240000000 ≤ s.gd.com.time.aon ∧ s.gd.crossPort i = none)
    ∧ (∃ (i : Nat) (k : Link) (s : State), s.link ⟨.gd, i⟩ = k ∧ (s.gd.com.time.aon < k.downAt + 240000000 ∨ k.state = .up))
    ∧ (∃ (i : Nat) (s : State), i ∈ s.gd.absent)
    ∧ (∃ (i : Nat) (s : State), i ∉ s.gd.absent ∧ s.gd.doms = [])
    ∧ (∃ (tag : BitVec 24) (i : Nat) (d : GdDom) (s : State), s.dom? tag = some d ∧ i ∈ s.gd.members d.dr ∧ d.dr.allowAbsent = true ∧ s.gd.softs = [])
    ∧ (∃ (tag : BitVec 24) (i : Nat) (d : GdDom) (s : State), s.dom? tag = some d ∧ i ∈ s.gd.members d.dr ∧ d.dr.allowAbsent = false ∧ s.gd.isTop d.dr = true ∧ s.acts d.dr = true)
    ∧ (∃ (tag : BitVec 24) (i : Nat) (d : GdDom) (s : State), s.dom? tag = some d ∧ i ∈ s.gd.members d.dr ∧ d.dr.allowAbsent = false ∧ s.gd.isTop d.dr = false)
    ∧ (∃ (p : Nat) (rx : Rx) (f : Frame) (s u : State), s.receive ⟨.gd, p⟩ rx 0x14 = (u, some f) ∧ u.gd.hasRole = true ∧ u.gd.role = some 0 ∧ 7 < f.byte 12)
    ∧ (∃ (p : Nat) (rx : Rx) (f : Frame) (s u : State), s.receive ⟨.gd, p⟩ rx 0x14 = (u, some f) ∧ u.gd.hasRole = true ∧ u.gd.role = some 0 ∧ f.byte 12 ≤ 7 ∧ f.more = false ∧ p < 8)
    ∧ (∃ (i ev count w : Nat) (f : Frame) (u s : State), w = beNat s.gd.healthRec (8 + ev) 1 * count ∧ u = s.updHealth i (fun h => { h with score := min 65535 (h.score + w), addAt := s.gd.com.time.aon, added := (if h.addAt = s.gd.com.time.aon then h.added else 0) + w }))
    ∧ (∃ (i : Nat) (again : Bool) (s : State), ((s.healthOf i).score < s.gd.theta ∨ (s.healthOf i).asked = true ∨ (s.healthOf i).expelled = true))
    ∧ (∃ (i : Nat) (again : Bool) (s : State), s.gd.role = some 0 ∧ s.gd.hasRole = true ∧ s.speaksFor i = true ∧ s.gd.theta ≤ (s.healthOf i).score ∧ (s.healthOf i).asked = false ∧ (s.healthOf i).expelled = false ∧ ((s.healthOf i).suspect = false ∨ again = true))
    ∧ (∃ s : State, ((∀ p ∈ s.gd.health, p.2.expelled = false)))
    ∧ (∃ (i left : Nat) (u v s : State), bitsOf (s.reg .gd 0x700) 2 0 = i ∧ s.gd.hasRole = true ∧ s.gd.role = some 0 ∧ left = (if (s.healthOf i).addAt = s.gd.com.time.aon then min 65535 (s.healthOf i).added else 0) ∧ u = s.updHealth i (fun h => { h with score := left, suspect := false }) ∧ v = (if (s.healthOf i).expelled = true then u.readmit i else u.mirror 2 [expelFrame 6 (s.gd.dieAt i) 0 (s.now .gd).ns32 0]) ∧ left = 0)
    ∧ (∃ (i left : Nat) (u v s : State), bitsOf (s.reg .gd 0x700) 2 0 = i ∧ s.gd.hasRole = true ∧ s.gd.role = some 0 ∧ left = (if (s.healthOf i).addAt = s.gd.com.time.aon then min 65535 (s.healthOf i).added else 0) ∧ u = s.updHealth i (fun h => { h with score := left, suspect := false }) ∧ v = (if (s.healthOf i).expelled = true then u.readmit i else u.mirror 2 [expelFrame 6 (s.gd.dieAt i) 0 (s.now .gd).ns32 0]) ∧ 0 < left)
    ∧ (∃ s : State, s.gd.hasRole = false) :=
  ⟨⟨1, true, _, lateS 0, rfl, by decide, by decide, by decide, by decide, by decide, by decide, by decide⟩,
   ⟨1, true, _, State.reset, rfl, by decide⟩,
   ⟨0, true, _, upS ⟨.gd, 0⟩, rfl, by decide⟩,
   ⟨1, false, _, upS ⟨.gd, State.reset.gd.partnerPort⟩, rfl, by decide, by decide⟩,
   ⟨1, _, (lateS 2).updGd fun g => { g with variant := .gd32e }, rfl, by decide, by decide, by decide, by decide, by decide, by decide⟩,
   ⟨1, _, State.reset, rfl, by decide⟩,
   ⟨1, gdS fun g => { g with absent := [1] }, by decide⟩,
   ⟨1, State.reset, by decide⟩,
   ⟨7, 0, gdom7, (boardS gdom7 soft0 id).updGd fun g => { g with softs := [] }, by decide⟩,
   ⟨7, 0, gdom (fun r => { r with allowAbsent := false }) id, boardS (gdom (fun r => { r with allowAbsent := false }) id) soft0 id, by decide⟩,
   ⟨7, 0, gdom (fun r => { r with allowAbsent := false, top := 262144 }) id, boardS (gdom (fun r => { r with allowAbsent := false, top := 262144 }) id) soft0 id, by decide⟩,
   ⟨0, good (frame 20 2 [8]), _, boardS gdom7 soft0 id, _, rfl, by decide, by decide, by decide⟩,
   ⟨0, good (frame 20 2 [7]), _, boardS gdom7 soft0 id, _, rfl, by decide, by decide, by decide, by decide, by decide⟩,
   ⟨0, 0, 1, _, frame 20 2 [], _, State.reset, rfl, rfl⟩,
   ⟨0, false, State.reset, by decide⟩,
   ⟨0, false, roleS 0 (zeros 32) fun g => { g with theta := 0 }, by decide⟩,
   ⟨State.reset, by decide⟩,
   ⟨0, 0, _, _, roleS 0 (zeros 32) id, by decide, by decide, by decide, by decide, rfl, rfl, rfl⟩,
   ⟨0, 5, _, _, roleS 0 (zeros 32) (fun g => { g with health := [(0, { Health.reset with added := 5, expelled := true })] }), by decide, by decide, by decide, by decide, rfl, rfl, by decide⟩,
   ⟨State.reset, by decide⟩⟩

/-- Every case of ExpelRules is met by some state and operands. -/
theorem witness_ExpelRules :
    (∃ (p i : Nat) (rx : Rx) (f : Frame) (s u v : State), s.recvOp ⟨.gd, p⟩ rx 0x15 1 = (u, some f) ∧ u.gd.hasRole = true ∧ u.gd.role ≠ some 0 ∧ u.upPart ⟨.gd, p⟩ u.gd.expelRec 2 [f] (some (f.nat 14 3 % 262144)) = (v, some (i, false)) ∧ v.gd.role = some 2)
    ∧ (∃ (p i : Nat) (rx : Rx) (f : Frame) (s u v : State), s.recvOp ⟨.gd, p⟩ rx 0x15 1 = (u, some f) ∧ u.gd.hasRole = true ∧ u.gd.role ≠ some 0 ∧ u.upPart ⟨.gd, p⟩ u.gd.expelRec 2 [f] (some (f.nat 14 3 % 262144)) = (v, some (i, false)) ∧ v.gd.role ≠ some 2)
    ∧ (∃ (i : Nat) (f : Frame) (s : State), s.recentGrants.length < beNat s.gd.healthRec 2 1)
    ∧ (∃ (i : Nat) (f : Frame) (u s : State), beNat s.gd.healthRec 2 1 ≤ s.recentGrants.length ∧ u = s.toChild i (expelFrame 3 (f.nat 14 3 % 262144) s.gd.theta (s.now .gd).ns32 0))
    ∧ (∃ s : State, s.gd.hasRole = true ∧ s.gd.role = some 2 ∧ s.gd.denied = true)
    ∧ (∃ s : State, s.gd.hasRole = true ∧ s.gd.role = some 2 ∧ s.gd.denied = false ∧ beNat s.gd.healthRec 0 2 ≠ s.gd.theta ∧ beNat s.gd.healthRec 4 2 ≠ 0 ∧ beNat s.gd.healthRec 0 2 < s.gd.theta)
    ∧ (∃ s : State, s.gd.hasRole = true ∧ s.gd.role = some 2 ∧ s.gd.denied = false ∧ beNat s.gd.healthRec 0 2 = s.gd.theta)
    ∧ (∃ s : State, s.gd.hasRole = false)
    ∧ (∃ (p i : Nat) (rx : Rx) (f : Frame) (s u : State), (p = 64 ∨ p = 65) ∧ u.gd.hasRole = true ∧ u.gd.role = some 0 ∧ u.gd.childOfDie (f.nat 14 3 % 262144) = some i ∧ s.recvOp ⟨.gd, p⟩ rx 0x15 2 = (u, some f))
    ∧ (∃ (p i : Nat) (rx : Rx) (f : Frame) (s u : State), (p = 64 ∨ p = 65) ∧ u.gd.hasRole = true ∧ u.gd.role = some 0 ∧ u.gd.childOfDie (f.nat 14 3 % 262144) = some i ∧ s.recvOp ⟨.gd, p⟩ rx 0x15 3 = (u, some f))
    ∧ (∃ (p i : Nat) (rx : Rx) (f : Frame) (s u : State), (p = 64 ∨ p = 65) ∧ u.gd.hasRole = true ∧ u.gd.role ≠ some 0 ∧ u.gd.childOfDie (f.nat 14 3 % 262144) = some i ∧ s.recvOp ⟨.gd, p⟩ rx 0x15 2 = (u, some f))
    ∧ (∃ (p i : Nat) (rx : Rx) (f : Frame) (s u : State), (p = 64 ∨ p = 65) ∧ u.gd.hasRole = true ∧ u.gd.role ≠ some 0 ∧ u.gd.childOfDie (f.nat 14 3 % 262144) = some i ∧ s.recvOp ⟨.gd, p⟩ rx 0x15 3 = (u, some f))
    ∧ (∃ (i : Nat) (at_ : Int) (own : Bool) (s : State), s.gd.doms = [])
    ∧ (∃ (p : Nat) (rx : Rx) (f : Frame) (s u : State), (p = 64 ∨ p = 65) ∧ u.gd.hasRole = true ∧ u.gd.role ≠ some 0 ∧ s.recvOp ⟨.gd, p⟩ rx 0x15 4 = (u, some f))
    ∧ (∃ (p : Nat) (rx : Rx) (f : Frame) (s u : State), s.recvOp ⟨.tsu, p⟩ rx 0x15 5 = (u, some f) ∧ u.tsu.dieId = some (f.nat 14 3 % 262144))
    ∧ (∃ (p : Nat) (rx : Rx) (f : Frame) (s u : State), s.recvOp ⟨.tsu, p⟩ rx 0x15 5 = (u, some f) ∧ u.tsu.dieId ≠ some (f.nat 14 3 % 262144))
    ∧ (∃ (p : Nat) (rx : Rx) (f : Frame) (s u : State), s.recvOp ⟨.tsu, p⟩ rx 0x15 6 = (u, some f) ∧ u.tsu.dieId = some (f.nat 14 3 % 262144))
    ∧ (∃ (p : Nat) (rx : Rx) (f : Frame) (s u : State), s.recvOp ⟨.tsu, p⟩ rx 0x15 6 = (u, some f) ∧ u.tsu.dieId ≠ some (f.nat 14 3 % 262144))
    ∧ (∃ (p i : Nat) (rx : Rx) (f : Frame) (s u : State), u.gd.hasRole = true ∧ u.gd.role = some 0 ∧ u.gd.childOfDie (f.nat 14 3 % 262144) = some i ∧ s.recvOp ⟨.gd, p⟩ rx 0x15 5 = (u, some f) ∧ u.downPart ⟨.gd, p⟩ f = .copy)
    ∧ (∃ (p i : Nat) (rx : Rx) (f : Frame) (s u : State), u.gd.hasRole = true ∧ u.gd.role = some 0 ∧ u.gd.childOfDie (f.nat 14 3 % 262144) = some i ∧ s.recvOp ⟨.gd, p⟩ rx 0x15 5 = (u, some f) ∧ u.downPart ⟨.gd, p⟩ f = .detour)
    ∧ (∃ (p i : Nat) (rx : Rx) (f : Frame) (s u : State), u.gd.hasRole = true ∧ u.gd.role = some 0 ∧ u.gd.childOfDie (f.nat 14 3 % 262144) = some i ∧ s.recvOp ⟨.gd, p⟩ rx 0x15 6 = (u, some f) ∧ u.downPart ⟨.gd, p⟩ f = .copy)
    ∧ (∃ (p i : Nat) (rx : Rx) (f : Frame) (s u : State), u.gd.hasRole = true ∧ u.gd.role = some 0 ∧ u.gd.childOfDie (f.nat 14 3 % 262144) = some i ∧ s.recvOp ⟨.gd, p⟩ rx 0x15 6 = (u, some f) ∧ u.downPart ⟨.gd, p⟩ f = .detour)
    ∧ (∃ (n : Nat) (at_ : Int) (v : Slice) (s : State), s.tsu.slices = [(n, v)])
    ∧ (∃ (n : Nat) (v : Slice) (s : State), s.tsu.slices = [(n, v)] ∧ ((∀ b ∈ v.bindings, b.mstate ≠ .expelled))) :=
  ⟨⟨0, 0, good (frame 21 2 (expelBody 1 0)), _, roleS 2 (zeros 32) id, _, _, rfl, by decide, by decide, rfl, by decide⟩,
   ⟨0, 0, good (frame 21 2 (expelBody 1 0)), _, roleS 1 (zeros 32) id, _, _, rfl, by decide, by decide, rfl, by decide⟩,
   ⟨0, frame 21 2 (expelBody 1 0), roleS 2 ([0, 0, 1] ++ zeros 29) id, by decide⟩,
   ⟨0, frame 21 2 (expelBody 1 0), _, roleS 2 (zeros 32) id, by decide, rfl⟩,
   ⟨roleS 2 (zeros 32) fun g => { g with denied := true }, by decide⟩,
   ⟨roleS 2 ([0, 0, 0, 0, 0, 1] ++ zeros 26) id, by decide⟩,
   ⟨roleS 2 (zeros 32) fun g => { g with theta := 0 }, by decide⟩,
   ⟨State.reset, by decide⟩,
   ⟨64, 0, good (frame 21 2 (expelBody 2 0)), _, roleS 0 (zeros 32) id, _, by decide, by decide, by decide, by decide, rfl⟩,
   ⟨64, 0, good (frame 21 2 (expelBody 3 0)), _, roleS 0 (zeros 32) id, _, by decide, by decide, by decide, by decide, rfl⟩,
   ⟨64, 0, good (frame 21 2 (expelBody 2 0)), _, roleS 1 (zeros 32) id, _, by decide, by decide, by decide, by decide, rfl⟩,
   ⟨64, 0, good (frame 21 2 (expelBody 3 0)), _, roleS 1 (zeros 32) id, _, by decide, by decide, by decide, by decide, rfl⟩,
   ⟨0, 0, true, State.reset, by decide⟩,
   ⟨64, good (frame 21 2 (expelBody 4 0)), _, roleS 1 (zeros 32) id, _, by decide, by decide, by decide, rfl⟩,
   ⟨0, good (frame 21 2 (expelBody 5 0)), _, (upS ⟨.tsu, 0⟩).updTsu fun t => { t with dieId := some 0 }, _, rfl, by decide⟩,
   ⟨0, good (frame 21 2 (expelBody 5 1)), _, (upS ⟨.tsu, 0⟩).updTsu fun t => { t with dieId := some 0 }, _, rfl, by decide⟩,
   ⟨0, good (frame 21 2 (expelBody 6 0)), _, (upS ⟨.tsu, 0⟩).updTsu fun t => { t with dieId := some 0 }, _, rfl, by decide⟩,
   ⟨0, good (frame 21 2 (expelBody 6 1)), _, (upS ⟨.tsu, 0⟩).updTsu fun t => { t with dieId := some 0 }, _, rfl, by decide⟩,
   ⟨67, 0, good (frame 21 2 (expelBody 5 0)), _, upRole 0, _, by decide, by decide, by decide, rfl, by decide⟩,
   ⟨67, 0, good { (frame 21 2 (expelBody 5 0)) with detour := true }, _, upRole 0, _, by decide, by decide, by decide, rfl, by decide⟩,
   ⟨67, 0, good (frame 21 2 (expelBody 6 0)), _, upRole 0, _, by decide, by decide, by decide, rfl, by decide⟩,
   ⟨67, 0, good { (frame 21 2 (expelBody 6 0)) with detour := true }, _, upRole 0, _, by decide, by decide, by decide, rfl, by decide⟩,
   ⟨0, 0, slice1, tsuS fun t => { t with slices := [(0, slice1)] }, by decide⟩,
   ⟨0, { slice1 with bindings := [bind0] }, tsuS fun t => { t with slices := [(0, { slice1 with bindings := [bind0] })] }, by decide⟩⟩

/-- Every case of SideAndJoinRules is met by some state and operands. -/
theorem witness_SideAndJoinRules :
    (∃ (i : Nat) (b : Bool) (s : State), s.gd.hasRole = true ∧ s.gd.role ≠ some 0 ∧ i < s.gd.fan ∧ s.takeSide i = some b)
    ∧ (∃ (i : Nat) (b : Bool) (s : State), s.gd.hasRole = true ∧ s.gd.role ≠ some 0 ∧ i < s.gd.fan ∧ s.takeSide i = none)
    ∧ (∃ (i : Nat) (s : State), s.actsAt i s.gd.sideB = true ∧ s.sideLate i = true ∧ s.trained ⟨.gd, s.gd.partnerPort⟩ = true)
    ∧ (∃ (i : Nat) (s : State), s.trained ⟨.gd, i⟩ = true ∧ s.trained ⟨.gd, s.gd.partnerPort⟩ = true)
    ∧ (∃ (i : Nat) (b : Bool) (s : State), s.gd.held = [])
    ∧ (∃ (p : Nat) (rx : Rx) (f : Frame) (s u : State), (p = 64 ∨ p = 65) ∧ u.gd.hasRole = true ∧ s.recvOp ⟨.gd, p⟩ rx 0x1A 1 = (u, some f) ∧ u.gd.locator = some (f.nat 13 3 % 1048576))
    ∧ (∃ (p : Nat) (rx : Rx) (f : Frame) (s u : State), (p = 64 ∨ p = 65) ∧ u.gd.hasRole = true ∧ s.recvOp ⟨.gd, p⟩ rx 0x1A 1 = (u, some f) ∧ u.gd.locator ≠ some (f.nat 13 3 % 1048576))
    ∧ (∃ (p : Nat) (rx : Rx) (f : Frame) (s u : State), (p = 64 ∨ p = 65) ∧ u.gd.hasRole = true ∧ s.recvOp ⟨.gd, p⟩ rx 0x1A 2 = (u, some f) ∧ u.gd.locator = some (f.nat 13 3 % 1048576) ∧ u.gd.actingTo ≠ none)
    ∧ (∃ (i t : Nat) (b : Bool) (s : State), Tab.get s.gd.childMoved i = some b ∧ Tab.get s.gd.backSince i = some t ∧ s.gd.com.time.aon < t + 10000000000)
    ∧ (∃ (i t : Nat) (b : Bool) (s : State), ∃ (at_ : Int) (w : Word), Tab.get s.gd.childMoved i = some b ∧ Tab.get s.gd.backSince i = some t ∧ s.gd.hasRole = true ∧ b = s.gd.sideB ∧ Tab.get s.gd.childReturn i = none ∧ t + 10000000000 ≤ s.gd.com.time.aon ∧ at_ = (s.now .gd).toNs + 100000 ∧ w = BitVec.ofInt 32 at_)
    ∧ (∃ (i : Nat) (s : State), Tab.get s.gd.childMoved i = none)
    ∧ (∃ (p i : Nat) (rx : Rx) (f : Frame) (d : GdDom) (s u v : State), s.recvOp ⟨.gd, p⟩ rx 0x18 1 = (u, some f) ∧ u.gd.hasRole = true ∧ f.domain ≠ 0 ∧ u.dom? f.domain = some d ∧ u.upPart ⟨.gd, p⟩ d.dr 2 [f] (some (f.nat 14 3 % 262144)) = (v, some (i, false)))
    ∧ (∃ (p : Nat) (rx : Rx) (f : Frame) (s u : State), s.recvOp ⟨.gd, p⟩ rx 0x18 1 = (u, some f) ∧ u.gd.hasRole = true ∧ f.domain = 0 ∧ u.gd.role = some 0 ∧ p < 8)
    ∧ (∃ (p : Nat) (rx : Rx) (f : Frame) (s u : State), s.recvOp ⟨.gd, p⟩ rx 0x18 1 = (u, some f) ∧ u.gd.hasRole = true ∧ f.domain = 0 ∧ u.gd.role ≠ some 0)
    ∧ (∃ (p : Nat) (rx : Rx) (f : Frame) (s u : State), s.recvOp ⟨.gd, p⟩ rx 0x18 1 = (u, some f) ∧ u.gd.hasRole = true ∧ f.domain ≠ 0 ∧ u.dom? f.domain = none)
    ∧ (∃ (d : GdDom) (i die : Nat) (s : State), i ∈ d.expelled)
    ∧ (∃ (d : GdDom) (i die : Nat) (s : State), ∃ (at_ : Int) (w : Word), i ∉ d.expelled ∧ i ∈ d.out ∧ d.joinAt = none ∧ at_ = (s.now .gd).toNs + 100000 ∧ w = BitVec.ofInt 32 at_)
    ∧ (∃ (p : Nat) (rx : Rx) (f : Frame) (s u : State), s.recvOp ⟨.tsu, p⟩ rx 0x18 2 = (u, some f))
    ∧ (∃ (p : Nat) (rx : Rx) (f : Frame) (s u : State), (p = 64 ∨ p = 65) ∧ u.gd.hasRole = true ∧ s.recvOp ⟨.gd, p⟩ rx 0x18 2 = (u, some f))
    ∧ (∃ (l : LinkId) (tag : BitVec 24) (at_ : Int) (s : State), s.sliceOf tag = none)
    ∧ (∃ (l : LinkId) (tag : BitVec 24) (n : Nat) (b : Binding) (at_ : Int) (s : State), s.sliceOf tag = some n ∧ (s.slice n).bindings = [b] ∧ b.tag = tag ∧ b.mstate = .shadow ∧ s.tsu.tumb = [])
    ∧ (∃ (p : Nat) (rx : Rx) (f : Frame) (s u : State), s.recvOp ⟨.tsu, p⟩ rx 0x18 3 = (u, some f))
    ∧ (∃ (tag : BitVec 24) (s : State), tag ∈ s.looseTags ∧ s.looseTags.filter (· = tag) = [tag] ∧ tag ≠ 0)
    ∧ (∃ (p : Nat) (rx : Rx) (f : Frame) (s u : State), p ≠ 64 ∧ p ≠ 65 ∧ u.gd.hasRole = true ∧ s.recvOp ⟨.gd, p⟩ rx 0x18 3 = (u, some f))
    ∧ (∃ (p : Nat) (rx : Rx) (f : Frame) (s u : State), s.recvOp ⟨.tsu, p⟩ rx 0x18 4 = (u, some f) ∧ u.tsu.tumb = [] ∧ u.sliceOf f.domain = none)
    ∧ (∃ (p : Nat) (rx : Rx) (f : Frame) (s u : State), ∃ (n : Nat) (v : State), s.recvOp ⟨.tsu, p⟩ rx 0x18 4 = (u, some f) ∧ u.tsu.tumb = [] ∧ u.sliceOf f.domain = some n ∧ v = (u.updBinding n f.domain fun b => { b with mstate := if b.mstate = .joining then .shadow else b.mstate }))
    ∧ (∃ (p : Nat) (rx : Rx) (f : Frame) (s u : State), (p = 64 ∨ p = 65) ∧ u.gd.hasRole = true ∧ s.recvOp ⟨.gd, p⟩ rx 0x18 4 = (u, some f)) :=
  ⟨⟨0, true, rackS id, by decide⟩,
   ⟨1, false, rackS id, by decide⟩,
   ⟨0, rackS id, by decide⟩,
   ⟨0, (rackS id).updLink ⟨.gd, 0⟩ fun k => { k with state := .up }, by decide⟩,
   ⟨0, false, State.reset, by decide⟩,
   ⟨64, good (frame 26 2 [1, 0x4, 0, 0]), _, roleS 1 (zeros 32) id, _, by decide, by decide, rfl, by decide⟩,
   ⟨64, good (frame 26 2 [1, 0x4, 0, 1]), _, roleS 1 (zeros 32) id, _, by decide, by decide, rfl, by decide⟩,
   ⟨64, good (frame 26 2 [2, 0x4, 0, 0]), _, roleS 1 (zeros 32) (fun g => { g with actingTo := some false }), _, by decide, by decide, rfl, by decide, by decide⟩,
   ⟨0, 0, true, rackS fun g => { g with childMoved := [(0, true)], backSince := [(0, 0)] }, by decide⟩,
   ⟨0, 0, false, (rackS fun g => { g with childMoved := [(0, false)], backSince := [(0, 0)] }).updTime .gd (fun t => { t with aon := 10000000000 }), _, _, by decide, by decide, by decide, by decide, by decide, by decide, rfl, rfl⟩,
   ⟨0, State.reset, by decide⟩,
   ⟨0, 0, good (dframe 24 2 0 [1]), _, gdom7, boardS gdom7 soft0 id, _, _, rfl, by decide, by decide, by decide, rfl⟩,
   ⟨0, good (frame 24 2 [1]), _, boardS gdom7 soft0 id, _, rfl, by decide, by decide, by decide, by decide⟩,
   ⟨0, good (frame 24 2 [1]), _, roleS 1 (zeros 32) id, _, rfl, by decide, by decide, by decide⟩,
   ⟨0, good (dframe 24 2 0 [1]), _, roleS 0 (zeros 32) id, _, rfl, by decide, by decide, by decide⟩,
   ⟨gdom id (fun d => { d with expelled := [0] }), 0, 0, State.reset, by decide⟩,
   ⟨gdom id (fun d => { d with out := [0] }), 0, 0, State.reset, _, _, by decide, by decide, by decide, rfl, rfl⟩,
   ⟨0, good (dframe 24 2 0 [2]), _, upS ⟨.tsu, 0⟩, _, rfl⟩,
   ⟨64, good (dframe 24 2 0 [2]), _, boardS gdom7 soft0 id, _, by decide, by decide, rfl⟩,
   ⟨⟨.tsu, 0⟩, 5, 0, State.reset, by decide⟩,
   ⟨⟨.tsu, 0⟩, 5, 0, { bind0 with mstate := .shadow }, 0, sliceS fun v => { v with bindings := [{ bind0 with mstate := .shadow }] }, by decide⟩,
   ⟨0, good (dframe 24 2 0 [3]), _, upS ⟨.tsu, 0⟩, _, rfl⟩,
   ⟨5, bindS id id, by decide⟩,
   ⟨0, good (dframe 24 2 0 [3]), _, boardS gdom7 soft0 id, _, by decide, by decide, by decide, rfl⟩,
   ⟨0, good (dframe 24 2 0 [4]), _, upS ⟨.tsu, 0⟩, _, rfl, by decide, by decide⟩,
   ⟨0, good { frame 24 2 [4] with domain := 5 }, _, (bindS (fun v => { v with bindings := [bind0] }) id).updLink ⟨.tsu, 0⟩ (fun k => { k with state := .up }), _, 0, _, rfl, by decide, by decide, rfl⟩,
   ⟨64, good (dframe 24 2 0 [4]), _, boardS gdom7 soft0 id, _, by decide, by decide, rfl⟩⟩

/-- Every case of CensusRules is met by some state and operands. -/
theorem witness_CensusRules :
    (∃ (p : Nat) (rx : Rx) (f : Frame) (s u : State), s.askRx ⟨.tsu, p⟩ rx 0 = (u, some f))
    ∧ (∃ (p : Nat) (rx : Rx) (f : Frame) (s u : State), s.askRx ⟨.tsu, p⟩ rx 1 = (u, some f))
    ∧ (∃ (p : Nat) (rx : Rx) (f : Frame) (s u : State), s.askRx ⟨.tsu, p⟩ rx 2 = (u, some f) ∧ f.domain ≠ 0 ∧ (u.sharesOf f.domain).filter (fun p => p.2.shareDone) = [])
    ∧ (∃ (p : Nat) (rx : Rx) (f : Frame) (s u : State), u.gd.census = none ∧ s.askRx ⟨.gd, p⟩ rx 0 = (u, some f))
    ∧ (∃ (p : Nat) (rx : Rx) (f : Frame) (s u : State), u.gd.census = none ∧ s.askRx ⟨.gd, p⟩ rx 2 = (u, some f))
    ∧ (∃ (p : Nat) (rx : Rx) (c : Census) (f : Frame) (s u : State), u.gd.census = some c ∧ s.askRx ⟨.gd, p⟩ rx 0 = (u, some f))
    ∧ (∃ (p : Nat) (rx : Rx) (f : Frame) (d : GdDom) (s u : State), ∃ q, s.askRx ⟨.gd, p⟩ rx 1 = (u, some f) ∧ u.dom? f.domain = some d ∧ u.memberPorts.find? (fun p => (u.gd.members d.dr).contains (u.gd.childOfPort p)) = some q)
    ∧ (∃ (p n e : Nat) (f : Frame) (t : Tumbler) (r : Result) (s : State), s.sliceOf f.domain = some n ∧ s.findTumb n f.domain (f.nat 15 2 % 4096) = some e ∧ s.tumb? e = some t ∧ t.result = some r ∧ r.gen = BitVec.ofNat 2 (f.byte 17) ∧ r.calendar = false)
    ∧ (∃ (p n e : Nat) (f : Frame) (t : Tumbler) (r : Result) (s : State), s.sliceOf f.domain = some n ∧ s.findTumb n f.domain (f.nat 15 2 % 4096) = some e ∧ s.tumb? e = some t ∧ t.result = some r ∧ r.gen ≠ BitVec.ofNat 2 (f.byte 17))
    ∧ (∃ (p : Nat) (rx : Rx) (f : Frame) (s u : State), s.receive ⟨.gd, p⟩ rx 0x17 = (u, some f) ∧ p < 64 ∧ f.more = false ∧ f.byte 14 ≤ 10 ∧ u.gd.census = none)
    ∧ (∃ (p : Nat) (rx : Rx) (f : Frame) (s u : State), ∃ c, s.receive ⟨.gd, p⟩ rx 0x17 = (u, some f) ∧ p < 64 ∧ f.more = false ∧ f.byte 14 ≤ 10 ∧ u.gd.census = some c ∧ (p ∉ c.ports ∨ c.id ≠ f.nat 12 2))
    ∧ (∃ (p : Nat) (rx : Rx) (f : Frame) (s u : State), ∃ c, s.receive ⟨.gd, p⟩ rx 0x17 = (u, some f) ∧ p < 64 ∧ f.more = false ∧ f.byte 14 ≤ 10 ∧ u.gd.census = some c ∧ p ∈ c.ports ∧ c.id = f.nat 12 2 ∧ BitVec.ofNat 32 (f.nat 16 4) ≠ u.gd.com.treeId)
    ∧ (∃ (p : Nat) (rx : Rx) (f : Frame) (s u : State), ∃ c, s.receive ⟨.gd, p⟩ rx 0x17 = (u, some f) ∧ p < 64 ∧ f.more = false ∧ f.byte 14 ≤ 10 ∧ u.gd.census = some c ∧ p ∈ c.ports ∧ c.id = f.nat 12 2 ∧ BitVec.ofNat 32 (f.nat 16 4) = u.gd.com.treeId ∧ c.resending = false ∧ f.byte 14 = 0 ∧ bitOf (f.byte 15) 0 = true)
    ∧ (∃ (p : Nat) (rx : Rx) (f : Frame) (s u : State), ∃ c, s.receive ⟨.gd, p⟩ rx 0x17 = (u, some f) ∧ p < 64 ∧ f.more = false ∧ f.byte 14 ≤ 10 ∧ u.gd.census = some c ∧ p ∈ c.ports ∧ c.id = f.nat 12 2 ∧ BitVec.ofNat 32 (f.nat 16 4) = u.gd.com.treeId ∧ c.resending = true ∧ bitOf (f.byte 15) 0 = true)
    ∧ (∃ (tag : BitVec 24) (index p : Nat) (rest : List Nat) (c : Census) (x : Fetch) (s : State), s.gd.census = some c ∧ c.fetches = [x] ∧ x.tag = tag ∧ x.index = index ∧ s.gd.com.time.aon < x.since + 200000)
    ∧ (∃ (tag : BitVec 24) (index p : Nat) (rest : List Nat) (c : Census) (x : Fetch) (s : State), s.gd.census = some c ∧ c.fetches = [x] ∧ x.tag = tag ∧ x.index = index ∧ x.since + 200000 ≤ s.gd.com.time.aon ∧ x.next = p :: rest)
    ∧ (∃ (tag : BitVec 24) (index : Nat) (s : State), s.gd.census = none)
    ∧ (∃ (p : Nat) (c : Census) (s : State), s.gd.census = some c ∧ p ∈ c.ports ∧ c.resending = false ∧ c.built = false ∧ p ∉ c.listed ∧ c.askAt + 500000 ≤ s.gd.com.time.aon)
    ∧ (∃ (p : Nat) (c : Census) (s : State), s.gd.census = some c ∧ p ∈ c.ports ∧ c.resending = true ∧ p ∉ c.resent ∧ c.askAt + 500000 ≤ s.gd.com.time.aon)
    ∧ (∃ (p : Nat) (c : Census) (s : State), s.gd.census = some c ∧ (s.gd.com.time.aon < c.askAt + 500000 ∨ p ∉ c.ports))
    ∧ (∃ (c : Census) (s : State), s.gd.census = some c ∧ c.slowNoted = false ∧ c.start + 2000000 < s.gd.com.time.aon)
    ∧ (∃ (c : Census) (s : State), s.gd.census = some c ∧ (c.slowNoted = true ∨ s.gd.com.time.aon ≤ c.start + 2000000)) :=
  ⟨⟨0, good (frame 22 2 []), _, upS ⟨.tsu, 0⟩, _, rfl⟩,
   ⟨0, good (frame 22 2 [0, 0, 1]), _, upS ⟨.tsu, 0⟩, _, rfl⟩,
   ⟨0, good (dframe 22 2 0 [0, 0, 2]), _, upS ⟨.tsu, 0⟩, _, rfl, by decide, by decide⟩,
   ⟨64, good (frame 22 2 []), _, boardS gdom7 soft0 id, _, by decide, rfl⟩,
   ⟨64, good (frame 22 2 [0, 0, 2]), _, boardS gdom7 soft0 id, _, by decide, rfl⟩,
   ⟨64, good (frame 22 2 []), census0, _, censusS census0, _, by decide, rfl⟩,
   ⟨64, good (dframe 22 2 0 [0, 0, 1]), _, gdom7, boardS gdom7 soft0 id, _, 0, rfl, by decide, by decide⟩,
   ⟨0, 0, 0, { frame 22 2 [] with domain := 5 }, { tumb0 with domain := 5, result := some result0 }, result0, bindS (fun v => { v with bindings := [bind0] }) fun t => { t with tumb := [(0, { tumb0 with domain := 5, result := some result0 })] }, by decide⟩,
   ⟨0, 0, 0, { frame 22 2 [0, 0, 1, 0, 0, 1] with domain := 5 }, { tumb0 with domain := 5, result := some result0 }, result0, bindS (fun v => { v with bindings := [bind0] }) fun t => { t with tumb := [(0, { tumb0 with domain := 5, result := some result0 })] }, by decide⟩,
   ⟨0, good (frame 23 2 []), _, boardS gdom7 soft0 id, _, rfl, by decide, by decide, by decide, by decide⟩,
   ⟨0, good (frame 23 2 [0, 1]), _, censusS census0, _, census0, rfl, by decide, by decide, by decide, by decide, by decide⟩,
   ⟨0, good (frame 23 2 [0, 0, 0, 0, 0, 0, 0, 1]), _, censusS census0, _, census0, rfl, by decide, by decide, by decide, by decide, by decide, by decide, by decide⟩,
   ⟨0, good (frame 23 2 [0, 0, 0, 1]), _, censusS census0, _, census0, rfl, by decide, by decide, by decide, by decide, by decide, by decide, by decide, by decide, by decide, by decide⟩,
   ⟨0, good (frame 23 2 [0, 0, 0, 1]), _, censusS { census0 with resending := true }, _, { census0 with resending := true }, rfl, by decide, by decide, by decide, by decide, by decide, by decide, by decide, by decide, by decide⟩,
   ⟨7, 0, 0, [], { census0 with fetches := [⟨7, 0, 0, 0, [0], [], 0⟩] }, ⟨7, 0, 0, 0, [0], [], 0⟩, censusS { census0 with fetches := [⟨7, 0, 0, 0, [0], [], 0⟩] }, by decide⟩,
   ⟨7, 0, 0, [], { census0 with fetches := [⟨7, 0, 0, 0, [0], [], 0⟩] }, ⟨7, 0, 0, 0, [0], [], 0⟩, censusLate { census0 with fetches := [⟨7, 0, 0, 0, [0], [], 0⟩] }, by decide⟩,
   ⟨7, 0, State.reset, by decide⟩,
   ⟨0, census0, censusLate census0, by decide⟩,
   ⟨0, { census0 with resending := true }, censusLate { census0 with resending := true }, by decide⟩,
   ⟨0, census0, censusS census0, by decide⟩,
   ⟨census0, censusLate census0, by decide⟩,
   ⟨census0, censusS census0, by decide⟩⟩

/-- Every case of PowerAndResetRules is met by some state and operands. -/
theorem witness_PowerAndResetRules :
    (∃ s : State, s.tsu.inReset = false)
    ∧ (∃ s : State, s.tsu.inReset = true)
    ∧ (∃ (r v : Bool) (s : State), s.gd.powered = true)
    ∧ (∃ (r v : Bool) (s : State), s.gd.powered = false ∧ s.gd.resetLow = false)
    ∧ (∃ (r v : Bool) (s : State), s.gd.powered = false ∧ s.gd.resetLow = true)
    ∧ (∃ s : State, s.gd.powered = true ∧ s.gd.resetLow = false)
    ∧ (∃ (r v : Bool) (s : State), s.gd.resetLow = true ∧ s.gd.powered = true)
    ∧ (∃ s : State, (s.gd.powered = false ∨ s.gd.resetLow = true)) :=
  ⟨⟨phaseS 7, by decide⟩,
   ⟨State.reset, by decide⟩,
   ⟨true, false, stageBootS 1 id, by decide⟩,
   ⟨true, false, State.reset, by decide⟩,
   ⟨true, false, gdS fun g => { g with resetLow := true }, by decide⟩,
   ⟨stageBootS 7 id, by decide⟩,
   ⟨true, false, stageBootS 1 fun g => { g with resetLow := true }, by decide⟩,
   ⟨State.reset, by decide⟩⟩

/-- Every case of BootAndJournalRules is met by some state and operands. -/
theorem witness_BootAndJournalRules :
    (∃ (n : Node) (s : State), s.phaseMet n = false)
    ∧ (∃ s : State, s.phaseMet .tsu = true ∧ s.tsu.boot.warm = false ∧ s.tsu.boot.phase = 3 ∧ s.tsu.boot.bootMs ≠ none)
    ∧ (∃ s : State, s.phaseMet .gd = true ∧ s.gd.boot.phase = 3 ∧ s.gd.boot.bootMs ≠ none)
    ∧ (∃ s : State, s.tsu.boot.phase = 2 ∧ s.tsu.boot.warm = false ∧ s.tsu.com.time.pllLocked = false)
    ∧ (∃ (n : Node) (lim : Nat) (s : State), phaseLimit n (s.boot n).phase = some lim ∧ s.aon n < (s.boot n).phaseAt + lim)
    ∧ (∃ (n : Node) (s : State), (s.boot n).failed = true)
    ∧ (∃ (lim : Nat) (s : State), phaseLimit .tsu s.tsu.boot.phase = some lim ∧ s.tsu.boot.failed = false ∧ s.tsu.inReset = false ∧ s.tsu.boot.phaseAt + lim ≤ s.tsu.com.time.aon)
    ∧ (∃ (lim : Nat) (s : State), phaseLimit .gd s.gd.boot.phase = some lim ∧ s.gd.boot.failed = false ∧ s.gd.rootSel = true ∧ s.gd.powered = true ∧ s.gd.resetLow = false ∧ s.gd.boot.phaseAt + lim ≤ s.gd.com.time.aon)
    ∧ (∃ (e : StageEnd) (code count : Nat) (d : Word) (s : State), (s.gd.rootSel = true ∨ s.gd.boot.failed = true ∨ s.stageMet e = false))
    ∧ (∃ (code count : Nat) (d : Word) (s : State), s.gd.rootSel = false ∧ s.gd.powered = true ∧ s.gd.resetLow = false ∧ s.gd.boot.failed = false ∧ s.stageMet .waiting = true)
    ∧ (∃ (code count : Nat) (d : Word) (s : State), s.gd.rootSel = false ∧ s.gd.powered = true ∧ s.gd.resetLow = false ∧ s.gd.boot.failed = false ∧ s.stageMet .fail = true)
    ∧ (∃ (code count : Nat) (d : Word) (s : State), s.gd.rootSel = false ∧ s.gd.powered = true ∧ s.gd.resetLow = false ∧ s.gd.boot.failed = false ∧ s.stageMet .pass = true ∧ s.gd.boot.phase = 2 ∧ s.gd.boot.bootMs ≠ none)
    ∧ (∃ s : State, s.gd.boot.phase = 2 ∧ s.gd.com.time.pllLocked = false)
    ∧ (∃ s : State, s.gd.boot.phase = 7 ∧ s.gd.com.time.mode ≠ .track)
    ∧ (∃ (w : Word) (s : State), s.gd.hasJournal = false)
    ∧ (∃ (w : Word) (s : State), s.gd.hasJournal = true ∧ w.toNat.testBit 0 = false)
    ∧ (∃ s : State, s.gd.journal.postLeft = some 0 ∧ s.gd.journal.frozen = false)
    ∧ (∃ s : State, s.gd.journal.postLeft ≠ some 0)
    ∧ (∃ (w : Word) (r : Nat) (s : State), s.gd.hasJournal = true ∧ w.toNat * 4294967296 + s.reg .gd 0x810 = r ∧ Tab.get s.gd.journal.lines r = none)
    ∧ (∃ (w : Word) (r : Nat) (s : State), ∃ l, s.gd.hasJournal = true ∧ w.toNat * 4294967296 + s.reg .gd 0x810 = r ∧ Tab.get s.gd.journal.lines r = some l)
    ∧ (∃ s : State, s.gd.hasJournal = true ∧ s.gd.journal.retraining = false)
    ∧ (∃ s : State, s.gd.hasJournal = true ∧ s.gd.journal.retraining = true ∧ s.gd.journal.wait = []) :=
  ⟨⟨.tsu, State.reset, by decide⟩,
   ⟨phaseS 3, by decide⟩,
   ⟨stageBootS 3 fun g => { g with rootSel := true }, by decide⟩,
   ⟨(phaseS 2).updTime .tsu fun t => { t with pllLocked := false }, by decide⟩,
   ⟨.tsu, 2000000, State.reset, by decide⟩,
   ⟨.gd, stageBootS 1 fun g => { g with boot := { g.boot with failed := true } }, by decide⟩,
   ⟨1000000, (phaseS 3).updTime .tsu fun t => { t with aon := 1000000 }, by decide⟩,
   ⟨2500000000, (stageBootS 1 fun g => { g with rootSel := true }).updTime .gd fun t => { t with aon := 2500000000 }, by decide⟩,
   ⟨.pass, 0, 0, 0, gdS fun g => { g with rootSel := true }, by decide⟩,
   ⟨0, 0, 0, (stageBootS 4 id).updTime .gd fun t => { t with aon := 240000000 }, by decide⟩,
   ⟨0, 0, 0, stageBootS 1 id, by decide⟩,
   ⟨0, 0, 0, (stageBootS 2 id).updTime .gd fun t => { t with pllLocked := true }, by decide⟩,
   ⟨(stageBootS 2 id).updTime .gd fun t => { t with pllLocked := false }, by decide⟩,
   ⟨(stageBootS 7 id).updTime .gd fun t => { t with mode := .hold }, by decide⟩,
   ⟨0, gdS fun g => { g with variant := .gd64s }, by decide⟩,
   ⟨0, State.reset, by decide⟩,
   ⟨gdS fun g => { g with journal := { g.journal with postLeft := some 0 } }, by decide⟩,
   ⟨State.reset, by decide⟩,
   ⟨0, 0, State.reset, by decide⟩,
   ⟨0, 0, (gdS fun g => { g with journal := { g.journal with lines := [(0, [])] } }), [], by decide⟩,
   ⟨State.reset, by decide⟩,
   ⟨gdS fun g => { g with journal := { g.journal with retraining := true } }, by decide⟩⟩

/-- Every case of PartialResetRules is met by some state and operands. -/
theorem witness_PartialResetRules :
    (∃ (p : Nat) (u s : State), u = s.setReg .tsu 0x7C4 (BitVec.ofNat 32 (s.reg .tsu 0x7C4 / 1024 * 1024 + p % 1024)) ∧ (s.tsu.inReset = true ∨ (s.port p).resetAt ≠ none))
    ∧ (∃ (p : Nat) (u s : State), u = s.setReg .tsu 0x7C4 (BitVec.ofNat 32 (s.reg .tsu 0x7C4 / 1024 * 1024 + p % 1024)) ∧ s.tsu.inReset = false ∧ (s.port p).resetAt = none ∧ s.isPort p = true)
    ∧ (∃ (p : Nat) (u s : State), u = s.setReg .tsu 0x7C4 (BitVec.ofNat 32 (s.reg .tsu 0x7C4 / 1024 * 1024 + p % 1024)) ∧ s.tsu.inReset = false ∧ (s.port p).resetAt = none ∧ s.isPort p = false)
    ∧ (∃ (p at_ : Nat) (s : State), (s.port p).resetAt = some at_ ∧ at_ + 128 ≤ s.tsu.com.time.aon)
    ∧ (∃ (p at_ : Nat) (s : State), (s.port p).resetAt = some at_ ∧ s.tsu.com.time.aon < at_ + 128)
    ∧ (∃ s : State, s.tsu.inReset = false)
    ∧ (∃ s : State, s.tsu.inReset = true)
    ∧ (∃ (p : Nat) (s : State), s.gd.portAbsent p = true)
    ∧ (∃ (p : Nat) (s : State), s.gd.portAbsent p = false ∧ (s.gd.powered = false ∨ s.gd.resetLow = true))
    ∧ (∃ (p : Nat) (s : State), s.gd.portAbsent p = false ∧ s.gd.powered = true ∧ s.gd.resetLow = false ∧ s.gd.com.marks = [] ∧ (s.link ⟨.gd, p⟩).q3 = [] ∧ (s.link ⟨.gd, p⟩).replay = [] ∧ s.gd.absorbed ≤ 0xFFFF)
    ∧ (∃ (p : Nat) (s : State), s.gd.portAbsent p = false ∧ (s.link ⟨.gd, p⟩).declared = true)
    ∧ (∃ (p : Nat) (s : State), s.gd.portAbsent p = false ∧ (s.link ⟨.gd, p⟩).declared = false)
    ∧ (∃ (tag : BitVec 24) (d : GdDom) (u s : State), u = s.setReg .gd 0x91C (BitVec.ofNat 32 tag.toNat) ∧ (s.gd.powered = false ∨ s.gd.resetLow = true ∨ tag ∈ s.gd.domRst))
    ∧ (∃ (tag : BitVec 24) (d : GdDom) (u s : State), u = s.setReg .gd 0x91C (BitVec.ofNat 32 tag.toNat) ∧ s.gd.powered = true ∧ s.gd.resetLow = false ∧ tag ∉ s.gd.domRst ∧ s.dom? tag = none)
    ∧ (∃ (tag : BitVec 24) (d : GdDom) (u s : State), u = s.setReg .gd 0x91C (BitVec.ofNat 32 tag.toNat) ∧ s.gd.powered = true ∧ s.gd.resetLow = false ∧ tag ∉ s.gd.domRst ∧ s.dom? tag = some d)
    ∧ (∃ (p : Nat) (s : State), s.ratePeriod ≠ 0 ∧ (s.link ⟨.gd, p⟩).attemptAt + s.ratePeriod ≤ s.gd.com.time.aon ∧ p < 64 ∧ s.trained ⟨.gd, p⟩ = true ∧ (s.link ⟨.gd, p⟩).fallback = true ∧ s.otherPath p = true)
    ∧ (∃ (p : Nat) (s : State), (s.ratePeriod = 0 ∨ s.gd.com.time.aon < (s.link ⟨.gd, p⟩).attemptAt + s.ratePeriod ∨ 64 ≤ p ∨ (s.link ⟨.gd, p⟩).fallback = false ∨ s.otherPath p = false))
    ∧ (∃ s : State, s.gd.hasRole = true ∧ s.gd.portsOn = true ∧ s.gd.boot.failed = false ∧ ((∀ p ∈ s.gd.badPorts, p < 66)))
    ∧ (∃ (c : Int) (s : State), 110 ≤ c)
    ∧ (∃ (c : Int) (s : State), c < 105)
    ∧ (∃ (c : Int) (s : State), 105 ≤ c ∧ c < 110)
    ∧ (∃ (e : Nat) (t : Tumbler) (s : State), s.tumb? e = some t ∧ t.estate ≠ .closing ∧ t.domain = 0)
    ∧ (∃ (e : Nat) (t : Tumbler) (s : State), s.tumb? e = some t ∧ t.estate = .closing)
    ∧ (∃ (e : Nat) (t : Tumbler) (s : State), s.tumb? e = some t ∧ t.estate ≠ .closing ∧ t.domain ≠ 0 ∧ t.mstate ≠ .expelled) :=
  ⟨⟨0, _, State.reset, rfl, by decide⟩,
   ⟨0, _, (phaseS 7).updRegion 0 (fun g => { g with present := true }), rfl, by decide, by decide, by decide⟩,
   ⟨1024, _, phaseS 7, rfl, by decide, by decide, by decide⟩,
   ⟨0, 0, (State.reset.updPort 0 fun p => { p with resetAt := some 0 }).updTime .tsu fun t => { t with aon := 128 }, by decide⟩,
   ⟨0, 0, State.reset.updPort 0 fun p => { p with resetAt := some 0 }, by decide⟩,
   ⟨phaseS 7, by decide⟩,
   ⟨State.reset, by decide⟩,
   ⟨68, State.reset, by decide⟩,
   ⟨67, State.reset, by decide⟩,
   ⟨0, stageBootS 7 id, by decide⟩,
   ⟨0, State.reset, by decide⟩,
   ⟨0, linkS ⟨.gd, 0⟩ fun k => { k with declared := false }, by decide⟩,
   ⟨7, gdom7, _, State.reset, rfl, by decide⟩,
   ⟨7, gdom7, _, stageBootS 7 id, rfl, by decide, by decide, by decide, by decide⟩,
   ⟨7, gdom7, _, (boardS gdom7 soft0 id).updGd (fun g => { g with powered := true }), rfl, by decide, by decide, by decide, by decide⟩,
   ⟨0, ((((linkS ⟨.gd, 0⟩ fun k => { k with state := .up, fallback := true }).updLink ⟨.gd, State.reset.gd.partnerPort⟩ fun k => { k with state := .up }).setReg .gd 0x418 0x100).updTime .gd fun t => { t with aon := 60000000000 }), by decide⟩,
   ⟨64, State.reset, by decide⟩,
   ⟨(roleS 1 (zeros 32) fun g => { g with boot := { g.boot with phase := 6 } }), by decide⟩,
   ⟨110, State.reset, by decide⟩,
   ⟨104, State.reset, by decide⟩,
   ⟨109, State.reset, by decide⟩,
   ⟨0, tumb0, tumbS id, by decide⟩,
   ⟨0, { tumb0 with estate := .closing }, tumbS fun t => { t with estate := .closing }, by decide⟩,
   ⟨0, { tumb0 with domain := 7 }, tumbS fun t => { t with domain := 7 }, by decide⟩⟩

/-- Every case of FirmwareRules is met by some state and operands. -/
theorem witness_FirmwareRules :
    (∃ (d : List Byte) (s : State), s.gd.fw.busy = true)
    ∧ (∃ (d : List Byte) (r : Refused) (s : State), s.gd.fw.busy = false ∧ s.gd.fwHeader d none = .error r)
    ∧ (∃ (d : List Byte) (v : FwSlot) (s : State), s.gd.fw.busy = false ∧ s.gd.fwHeader d none = .ok v)
    ∧ (∃ (d : List Byte) (s : State), (s.reg .gd 0xA10).testBit 1 = true)
    ∧ (∃ (d : List Byte) (s : State), (s.reg .gd 0xA10).testBit 1 = false)
    ∧ (∃ (c g w : Bool) (s : State), s.gd.fw.load = none)
    ∧ (∃ (v old : FwSlot) (s : State), s.gd.fw.load = some (v, old, true))
    ∧ (∃ (v old : FwSlot) (c b g : Bool) (s : State), s.gd.fw.load = some (v, old, b) ∧ (c && b) = false)
    ∧ (∃ (acc : Access) (s : State), acc.whole = true ∧ acc.master ≠ 2 ∧ acc.same = false ∧ s.gd.fwCustody = true ∧ s.gd.sealSt ≠ .opened)
    ∧ (∃ (acc : Access) (s : State), acc.whole = true ∧ acc.master = 2)
    ∧ (∃ (acc : Access) (u s : State), acc.whole = true ∧ acc.master ≠ 2 ∧ acc.same = false ∧ (s.gd.fwCustody = false ∨ s.gd.sealSt = .opened) ∧ u = s.noteWrite acc 0xA10 ∧ s.gd.boot.phase = 1)
    ∧ (∃ (acc : Access) (u s : State), acc.whole = true ∧ acc.master ≠ 2 ∧ acc.same = false ∧ (s.gd.fwCustody = false ∨ s.gd.sealSt = .opened) ∧ u = s.noteWrite acc 0xA10 ∧ s.gd.boot.phase ≠ 1 ∧ s.gd.fw.partnerBusy = true)
    ∧ (∃ (acc : Access) (u s : State), acc.whole = true ∧ acc.master ≠ 2 ∧ acc.same = false ∧ (s.gd.fwCustody = false ∨ s.gd.sealSt = .opened) ∧ u = s.noteWrite acc 0xA10 ∧ s.gd.boot.phase ≠ 1 ∧ s.gd.fw.partnerBusy = false ∧ (s.gd.fw.act ≠ .idle ∨ s.gd.fw.trial ≠ none))
    ∧ (∃ (acc : Access) (u s : State), acc.whole = true ∧ acc.master ≠ 2 ∧ acc.same = false ∧ (s.gd.fwCustody = false ∨ s.gd.sealSt = .opened) ∧ u = s.noteWrite acc 0xA10 ∧ s.gd.boot.phase ≠ 1 ∧ s.gd.fw.partnerBusy = false ∧ s.gd.fw.act = .idle ∧ s.gd.fw.trial = none ∧ (s.gd.fw.slot (!s.gd.fw.active)).state ≠ .staged)
    ∧ (∃ (acc : Access) (u s : State), acc.whole = true ∧ acc.master ≠ 2 ∧ acc.same = false ∧ (s.gd.fwCustody = false ∨ s.gd.sealSt = .opened) ∧ u = s.noteWrite acc 0xA10 ∧ s.gd.boot.phase ≠ 1 ∧ s.gd.fw.partnerBusy = false ∧ s.gd.fw.act = .idle ∧ s.gd.fw.trial = none ∧ s.gd.census = none ∧ (s.gd.fw.slot (!s.gd.fw.active)).state = .staged ∧ (s.reg .gd 0xA10).testBit 3 = false ∧ (s.gd.fw.slot (!s.gd.fw.active)).handover ≠ (s.gd.fw.slot s.gd.fw.runB).handover)
    ∧ (∃ (acc : Access) (u s : State), acc.whole = true ∧ acc.master ≠ 2 ∧ acc.same = false ∧ (s.gd.fwCustody = false ∨ s.gd.sealSt = .opened) ∧ u = s.noteWrite acc 0xA10 ∧ s.gd.boot.phase ≠ 1 ∧ s.gd.fw.partnerBusy = false ∧ s.gd.fw.act = .idle ∧ s.gd.fw.trial = none ∧ s.gd.census = none ∧ (s.gd.fw.slot (!s.gd.fw.active)).state = .staged ∧ (s.reg .gd 0xA10).testBit 3 = false ∧ (s.gd.fw.slot (!s.gd.fw.active)).handover = (s.gd.fw.slot s.gd.fw.runB).handover)
    ∧ (∃ (acc : Access) (u s : State), acc.whole = true ∧ acc.master ≠ 2 ∧ acc.same = false ∧ (s.gd.fwCustody = false ∨ s.gd.sealSt = .opened) ∧ u = s.noteWrite acc 0xA10 ∧ s.gd.boot.phase ≠ 1 ∧ s.gd.fw.partnerBusy = false ∧ s.gd.fw.act = .idle ∧ s.gd.fw.trial = none ∧ s.gd.census ≠ none ∧ (s.gd.fw.slot (!s.gd.fw.active)).state = .staged)
    ∧ (∃ (acc : Access) (u s : State), ∃ b, acc.whole = true ∧ acc.master ≠ 2 ∧ acc.same = false ∧ (s.gd.fwCustody = false ∨ s.gd.sealSt = .opened) ∧ u = s.noteWrite acc 0xA10 ∧ s.gd.fw.trial = some b ∧ (s.gd.fw.slot (!b)).state = .active)
    ∧ (∃ (acc : Access) (u s : State), ∃ b, acc.whole = true ∧ acc.master ≠ 2 ∧ acc.same = false ∧ (s.gd.fwCustody = false ∨ s.gd.sealSt = .opened) ∧ u = s.noteWrite acc 0xA10 ∧ s.gd.fw.trial = some b ∧ (s.gd.heldRole = some 2 ∨ s.gd.heldRole = some 3))
    ∧ (∃ (acc : Access) (u s : State), ∃ b, acc.whole = true ∧ acc.master ≠ 2 ∧ acc.same = false ∧ (s.gd.fwCustody = false ∨ s.gd.sealSt = .opened) ∧ u = s.noteWrite acc 0xA10 ∧ s.gd.fw.trial = some b ∧ s.gd.fw.trialCold = false)
    ∧ (∃ (acc : Access) (u s : State), acc.whole = true ∧ acc.master ≠ 2 ∧ acc.same = false ∧ (s.gd.fwCustody = false ∨ s.gd.sealSt = .opened) ∧ u = s.noteWrite acc 0xA10 ∧ s.gd.fw.trial = none ∧ s.gd.fw.undo = none)
    ∧ (∃ (acc : Access) (u s : State), ∃ (a c : FwSlot) (n : Nat) (v : Fw) (b : Bool), acc.whole = true ∧ acc.master ≠ 2 ∧ acc.same = false ∧ (s.gd.fwCustody = false ∨ s.gd.sealSt = .opened) ∧ u = s.noteWrite acc 0xA10 ∧ s.gd.fw.trial = none ∧ s.gd.fw.undo = some (s.aon .gd, a, c, n) ∧ v = { s.gd.fw with slotA := a, slotB := c, floor := n, undo := none } ∧ v.trial = some b ∧ v.trialCold = false)
    ∧ (∃ (a : Nat) (s : State), s.gd.fw.act = .booting a ∧ a + 3000000000 ≤ s.aon .gd)
    ∧ (∃ (a : Nat) (s : State), s.gd.fw.act = .booting a ∧ s.aon .gd < a + 3000000000)
    ∧ (∃ s : State, s.gd.fw.act = .idle)
    ∧ (∃ (a : Nat) (c : Bool) (v : Option Word) (s : State), s.gd.fw.act = .waiting a c v ∧ s.gd.census = none)
    ∧ (∃ (a : Nat) (c : Bool) (v : Option Word) (s : State), s.gd.fw.act = .waiting a c v ∧ s.gd.census ≠ none ∧ s.aon .gd < a + 10000000000)
    ∧ (∃ (a : Nat) (c : Bool) (v : Option Word) (s : State), s.gd.fw.act = .waiting a c v ∧ s.gd.census ≠ none ∧ a + 10000000000 ≤ s.aon .gd)
    ∧ (∃ s : State, s.gd.fw.trialAt + s.commitWait ≤ s.aon .gd)
    ∧ (∃ s : State, s.aon .gd < s.gd.fw.trialAt + s.commitWait)
    ∧ (∃ (b : Bool) (s : State), s.gd.fw.trial = some b ∧ s.gd.fw.trialCold = false)
    ∧ (∃ s : State, s.gd.fw.trial = none ∧ s.gd.fw.undo = none)
    ∧ (∃ (p : Nat) (rx : Rx) (u s : State) (f : Frame), s.receive ⟨.gd, p⟩ rx 0x0D = (u, some f) ∧ u.gd.hasRole = true ∧ (f.byte 12 = 0 ∨ 3 < f.byte 12))
    ∧ (∃ (p : Nat) (rx : Rx) (u s : State) (f : Frame), s.receive ⟨.gd, p⟩ rx 0x0D = (u, some f) ∧ u.gd.hasRole = true ∧ f.more = false ∧ 0 < f.byte 12 ∧ f.byte 12 ≤ 3 ∧ p < 64)
    ∧ (∃ (p : Nat) (rx : Rx) (u s : State) (f : Frame), s.receive ⟨.gd, p⟩ rx 0x0D = (u, some f) ∧ u.gd.hasRole = true ∧ f.more = false ∧ 64 ≤ p ∧ u.gd.locator = some (f.nat 13 3 % 1048576) ∧ u.gd.fwCustody = true ∧ u.gd.sealSt ≠ .opened ∧ u.grantHonoured ⟨.gd, p⟩ f = false ∧ 0 < f.byte 12 ∧ f.byte 12 ≤ 3)
    ∧ (∃ (p : Nat) (rx : Rx) (u s : State) (f : Frame), s.receive ⟨.gd, p⟩ rx 0x0D = (u, some f) ∧ u.gd.hasRole = true ∧ f.more = false ∧ 64 ≤ p ∧ u.gd.locator = some (f.nat 13 3 % 1048576) ∧ (u.gd.fwCustody = false ∨ u.gd.sealSt = .opened ∨ u.grantHonoured ⟨.gd, p⟩ f = true) ∧ f.byte 12 = 2)
    ∧ (∃ (p : Nat) (rx : Rx) (u s : State) (f : Frame), s.receive ⟨.gd, p⟩ rx 0x0D = (u, some f) ∧ u.gd.hasRole = true ∧ f.more = false ∧ 64 ≤ p ∧ u.gd.locator = some (f.nat 13 3 % 1048576) ∧ (u.gd.fwCustody = false ∨ u.gd.sealSt = .opened ∨ u.grantHonoured ⟨.gd, p⟩ f = true) ∧ f.byte 12 = 3)
    ∧ (∃ (p : Nat) (rx : Rx) (u s : State) (f : Frame), s.receive ⟨.gd, p⟩ rx 0x0D = (u, some f) ∧ u.gd.hasRole = true ∧ f.more = false ∧ 64 ≤ p ∧ u.gd.locator = some (f.nat 13 3 % 1048576) ∧ (u.gd.fwCustody = false ∨ u.gd.sealSt = .opened ∨ u.grantHonoured ⟨.gd, p⟩ f = true) ∧ f.byte 12 = 1) :=
  ⟨⟨[], fwS (slotB .trial), by decide⟩,
   ⟨[], (1, 0), State.reset, rfl, isError (by decide)⟩,
   ⟨fwImage, fwSlot, State.reset, rfl, isOk (by decide)⟩,
   ⟨[], State.reset.setReg .gd 0xA10 2, by decide⟩,
   ⟨[], State.reset, by decide⟩,
   ⟨true, true, true, State.reset, by decide⟩,
   ⟨fwSlot, fwSlot, fwS fun f => { f with load := some (fwSlot, fwSlot, true) }, by decide⟩,
   ⟨fwSlot, fwSlot, true, false, true, fwS fun f => { f with load := some (fwSlot, fwSlot, false) }, by decide⟩,
   ⟨lead, roleS 0 (zeros 32) id, by decide⟩,
   ⟨under, State.reset, by decide⟩,
   ⟨lead, _, fwBoot 1 id, by decide, by decide, by decide, by decide, rfl, by decide⟩,
   ⟨lead, _, fwBoot 15 fun f => { f with partnerBusy := true }, by decide, by decide, by decide, by decide, rfl, by decide⟩,
   ⟨lead, _, fwBoot 15 (slotB .trial), by decide, by decide, by decide, by decide, rfl, by decide⟩,
   ⟨lead, _, fwBoot 15 id, by decide, by decide, by decide, by decide, rfl, by decide⟩,
   ⟨lead, _, fwBoot 15 fun f => { f with slotB := { fwSlot with handover := 1 } }, by decide, by decide, by decide, by decide, rfl, by decide⟩,
   ⟨lead, _, fwBoot 15 fun f => { f with slotB := fwSlot }, by decide, by decide, by decide, by decide, rfl, by decide⟩,
   ⟨lead, _, (fwBoot 15 fun f => { f with slotB := fwSlot }).updGd fun g => { g with census := some census0 }, by decide, by decide, by decide, by decide, rfl, by decide⟩,
   ⟨lead, _, fwS (slotB .trial), true, by decide, by decide, by decide, by decide, rfl, by decide⟩,
   ⟨lead, _, (roleS 2 (zeros 32) fun g => { g with fw := slotB .trial g.fw }), true, by decide, by decide, by decide, by decide, rfl, by decide⟩,
   ⟨lead, _, fwS (slotB .trial), true, by decide, by decide, by decide, by decide, rfl, by decide⟩,
   ⟨lead, _, State.reset, by decide, by decide, by decide, by decide, rfl, by decide⟩,
   ⟨lead, _, fwS (fun f => { f with undo := some (0, f.slotA, (slotB .trial f).slotB, 0) }), _, _, 0, _, true, by decide, by decide, by decide, by decide, rfl, by decide, rfl, rfl, by decide⟩,
   ⟨0, (fwS fun f => { f with act := .booting 0 }).updTime .gd fun t => { t with aon := 3000000000 }, by decide⟩,
   ⟨0, fwS fun f => { f with act := .booting 0 }, by decide⟩,
   ⟨State.reset, by decide⟩,
   ⟨0, false, none, fwS fun f => { f with act := .waiting 0 false none }, by decide⟩,
   ⟨0, false, none, (fwS fun f => { f with act := .waiting 0 false none }).updGd fun g => { g with census := some census0 }, by decide⟩,
   ⟨0, false, none, ((fwS fun f => { f with act := .waiting 0 false none }).updGd fun g => { g with census := some census0 }).updTime .gd fun t => { t with aon := 10000000000 }, by decide⟩,
   ⟨State.reset.updTime .gd fun t => { t with aon := 65535000000000 }, by decide⟩,
   ⟨State.reset, by decide⟩,
   ⟨true, fwS (slotB .trial), by decide⟩,
   ⟨State.reset, by decide⟩,
   ⟨64, good (frame 13 1 []), _, roleS 2 (zeros 32) id, _, rfl, by decide, by decide⟩,
   ⟨0, good (frame 13 1 [3]), _, roleS 2 (zeros 32) id, _, rfl, by decide, by decide, by decide, by decide, by decide⟩,
   ⟨64, good (frame 13 1 [3]), _, roleS 0 (zeros 32) id, _, rfl, by decide, by decide, by decide, by decide, by decide, by decide, by decide, by decide, by decide⟩,
   ⟨64, good (frame 13 1 [2, 8]), _, roleS 2 (zeros 32) id, _, rfl, by decide, by decide, by decide, by decide, by decide, by decide⟩,
   ⟨64, good (frame 13 1 [3, 8]), _, roleS 2 (zeros 32) id, _, rfl, by decide, by decide, by decide, by decide, by decide, by decide⟩,
   ⟨64, good (frame 13 1 [1, 8]), _, roleS 2 (zeros 32) id, _, rfl, by decide, by decide, by decide, by decide, by decide, by decide⟩⟩

/-- Every case of CustodyRules is met by some state and operands. -/
theorem witness_CustodyRules :
    (∃ s : State, s.gd.keysw = false ∧ s.gd.sealSt = .locked ∧ s.gd.loopOk = true)
    ∧ (∃ s : State, s.gd.keysw = false ∧ (s.gd.sealSt ≠ .locked ∨ s.gd.loopOk = false))
    ∧ (∃ s : State, s.gd.keysw = true ∧ s.gd.sealSt ≠ .tampered)
    ∧ (∃ s : State, s.gd.keysw = true ∧ s.gd.sealSt = .tampered ∧ s.gd.loopOk = true ∧ s.gd.loopAt + 10000000000 ≤ s.aon .gd)
    ∧ (∃ s : State, s.gd.keysw = true ∧ s.gd.sealSt = .tampered ∧ (s.gd.loopOk = false ∨ s.aon .gd < s.gd.loopAt + 10000000000))
    ∧ (∃ (b : Bool) (s : State), s.gd.keysw = b)
    ∧ (∃ s : State, s.gd.sealSt = .armed ∧ s.aon .gd < s.gd.sealAt + 30000000000)
    ∧ (∃ s : State, (s.gd.sealSt ≠ .armed ∨ s.gd.sealAt + 30000000000 ≤ s.aon .gd))
    ∧ (∃ s : State, s.gd.sealSt = .armed ∧ s.gd.sealAt + 30000000000 ≤ s.aon .gd)
    ∧ (∃ s : State, (s.gd.sealSt ≠ .armed ∨ s.aon .gd < s.gd.sealAt + 30000000000))
    ∧ (∃ s : State, s.gd.sealSt = .opened ∧ s.gd.sealAt + orOne (s.reg .gd 0xA1C / 65536 % 256) * 60000000000 ≤ s.aon .gd)
    ∧ (∃ s : State, (s.gd.sealSt ≠ .opened ∨ s.aon .gd < s.gd.sealAt + orOne (s.reg .gd 0xA1C / 65536 % 256) * 60000000000))
    ∧ (∃ s : State, s.gd.loopOk = false)
    ∧ (∃ s : State, s.gd.loopOk = true ∧ s.gd.sealSt = .tampered ∧ s.gd.keysw = false ∧ s.gd.loopAt + 10000000000 ≤ s.aon .gd)
    ∧ (∃ s : State, s.gd.loopOk = true ∧ (s.gd.sealSt ≠ .tampered ∨ s.gd.keysw = true ∨ s.aon .gd < s.gd.loopAt + 10000000000))
    ∧ (∃ (acc : Access) (w : Word) (s : State), acc.whole = false)
    ∧ (∃ (acc : Access) (w : Word) (s : State), acc.whole = true ∧ acc.master = 2)
    ∧ (∃ (acc : Access) (w : Word) (s : State), acc.whole = true ∧ acc.master ≠ 2 ∧ acc.same = false ∧ s.gd.sealSt ≠ .opened)
    ∧ (∃ (acc : Access) (w : Word) (s : State), acc.whole = true ∧ acc.master ≠ 2 ∧ acc.same = false ∧ s.gd.sealSt = .opened)
    ∧ (∃ (acc : Access) (s : State), acc.whole = true ∧ acc.master ≠ 2 ∧ acc.same = false ∧ s.gd.sealSt = .opened ∧ s.reg .gd 0x934 % 4 ≠ 3)
    ∧ (∃ (acc : Access) (s : State), acc.whole = true ∧ acc.master ≠ 2 ∧ acc.same = false ∧ s.gd.sealSt = .opened ∧ s.reg .gd 0x934 % 4 = 3 ∧ 256 ≤ s.gd.repairs + (s.gd.blown.filter fun b => b.1 = 3).length) :=
  ⟨⟨sealS .locked false true, by decide⟩,
   ⟨sealS .armed false true, by decide⟩,
   ⟨sealS .armed true true, by decide⟩,
   ⟨sealS .tampered true true, by decide⟩,
   ⟨sealNow .tampered true true, by decide⟩,
   ⟨true, sealS .armed true true, by decide⟩,
   ⟨sealNow .armed true true, by decide⟩,
   ⟨sealS .armed true true, by decide⟩,
   ⟨sealS .armed true true, by decide⟩,
   ⟨sealNow .armed true true, by decide⟩,
   ⟨(sealS .opened true true).updTime .gd fun t => { t with aon := 15300000000000 }, by decide⟩,
   ⟨sealNow .opened true true, by decide⟩,
   ⟨sealS .armed true false, by decide⟩,
   ⟨sealS .tampered false true, by decide⟩,
   ⟨sealNow .tampered false true, by decide⟩,
   ⟨narrow, 0, State.reset, by decide⟩,
   ⟨under, 0, State.reset, by decide⟩,
   ⟨lead, 0, State.reset, by decide⟩,
   ⟨lead, 1, sealS .opened true true, by decide⟩,
   ⟨lead, sealS .opened true true, by decide⟩,
   ⟨lead, ((sealS .opened true true).setReg .gd 0x934 3).updGd fun g => { g with repairs := 256 }, by decide⟩⟩

/-- Every case of FirmwareRoleRule is met by some state and operands. -/
theorem witness_FirmwareRoleRule :
    (∃ (g : Gd) (svn : Nat), (g.heldRole = some 0 ∨ g.heldRole = some 1))
    ∧ (∃ (g : Gd) (svn : Nat), (g.heldRole = some 2 ∨ g.heldRole = some 3))
    ∧ (∃ (g : Gd) (svn : Nat), g.heldRole = none) :=
  ⟨⟨(roleS 0 (zeros 32) id).gd, 0, by decide⟩,
   ⟨(roleS 2 (zeros 32) id).gd, 0, by decide⟩,
   ⟨State.reset.gd, 0, by decide⟩⟩

/-- Every case of AccessWidth is met by some state and operands. -/
theorem witness_AccessWidth :
    ∃ (n : Node) (acc : Access) (off : Nat) (w : Word) (s : State), (acc.whole = false ∨ off % 4 ≠ 0) :=
  ⟨.tsu, narrow, 0, 0, State.reset, by decide⟩

/-- Every case of InterruptQueue is met by some state and operands. -/
theorem witness_InterruptQueue :
    (∃ (c : Common) (v : Nat), v ∉ c.irq)
    ∧ (∃ (c : Common) (v : Nat), v ∈ c.irq) :=
  ⟨⟨State.reset.gd.com, 1, by decide⟩,
   ⟨{ State.reset.gd.com with irq := [1] }, 1, by decide⟩⟩

/-- Every case of RegisterRules is met by some state and operands. -/
theorem witness_RegisterRules :
    (∃ (acc : Access) (off : Nat) (w : Word) (s : State), acc.whole = true ∧ off % 4 = 0 ∧ acc.master = 2)
    ∧ (∃ (acc : Access) (off : Nat) (w : Word) (s : State), acc.whole = true ∧ off % 4 = 0 ∧ (off < 0x680 ∨ 0x780 ≤ off) ∧ off < 0x10000 ∧ off ≠ 0x114 ∧ (s.tsuAbsent off = true ∨ (rwTsu off = 0 ∧ w1cTsu off = 0)))
    ∧ (∃ (acc : Access) (off : Nat) (w : Word) (s : State), acc.whole = true ∧ off % 4 = 0 ∧ (off < 0x680 ∨ 0x780 ≤ off) ∧ off < 0x10000 ∧ off ≠ 0x114 ∧ s.tsuAbsent off = false ∧ rwTsu off ≠ 0)
    ∧ (∃ (acc : Access) (off : Nat) (w : Word) (s : State), ∃ o, acc.whole = true ∧ off % 4 = 0 ∧ (off < 0x680 ∨ 0x780 ≤ off) ∧ off < 0x10000 ∧ off ≠ 0x114 ∧ s.tsuAbsent off = false ∧ o ≠ off)
    ∧ (∃ (acc : Access) (off : Nat) (w : Word) (s : State), acc.whole = true ∧ off % 4 = 0 ∧ (off < 0x680 ∨ 0x780 ≤ off) ∧ off < 0x10000 ∧ off ≠ 0x114 ∧ s.tsuAbsent off = false ∧ acc.same = false)
    ∧ (∃ (acc : Access) (off : Nat) (w : Word) (s : State), acc.whole = true ∧ off % 4 = 0 ∧ (off < 0x680 ∨ 0x780 ≤ off) ∧ off < 0x10000 ∧ off ≠ 0x114 ∧ s.tsuAbsent off = false ∧ acc.same = true)
    ∧ (∃ (acc : Access) (off : Nat) (w : Word) (s : State), acc.whole = true ∧ off % 4 = 0 ∧ s.lostToReset acc = true)
    ∧ (∃ (acc : Access) (off : Nat) (w : Word) (s : State), acc.whole = true ∧ off % 4 = 0 ∧ acc.master ≠ 2 ∧ s.lostToReset acc = false ∧ s.gdAbsent off = true)
    ∧ (∃ (acc : Access) (off : Nat) (w : Word) (s : State), acc.whole = true ∧ off % 4 = 0 ∧ off ≠ 0x50 ∧ acc.same = true ∧ acc.master = 0 ∧ s.gd.com.lastWr = some (off, 1) ∧ s.lostToReset acc = false ∧ s.gdAbsent off = false ∧ rwGdMask off ≠ (0, 0))
    ∧ (∃ (w : Word) (s : State), s.gd.com.lastWr = some (0x44, 0) ∧ s.lostToReset ⟨1, true, true⟩ = false)
    ∧ (∃ (acc : Access) (w : Word) (s : State), acc.whole = true ∧ acc.master ≠ 2 ∧ acc.same = false ∧ s.gd.variant = .gd64x ∧ s.gd.sealSt ≠ .opened)
    ∧ (∃ (acc : Access) (w : Word) (s : State), acc.whole = true ∧ acc.master ≠ 2 ∧ acc.same = false ∧ s.gd.variant = .gd64x ∧ s.gd.sealSt = .opened)
    ∧ (∃ (n : Node) (acc : Access) (off : Nat) (s : State), acc.whole = true ∧ off % 4 = 0 ∧ wideOf n off = none)
    ∧ (∃ (n : Node) (acc : Access) (off : Nat) (s : State), acc.whole = true ∧ off % 4 = 0 ∧ wideOf n off = some (off, 2))
    ∧ (∃ (n : Node) (acc : Access) (low off k : Nat) (s : State), acc.whole = true ∧ off % 4 = 0 ∧ wideOf n off = some (low, k) ∧ off ≠ low ∧ off ≠ low + 4 * (k - 1))
    ∧ (∃ (n : Node) (acc : Access) (low : Nat) (s : State), acc.whole = true ∧ low % 4 = 0 ∧ wideOf n (low + 4) = some (low, 2))
    ∧ (∃ (w : Word) (s : State), s.dbgEntry (w.toNat % 8) (w.toNat / 65536 % 8192) = none)
    ∧ (∃ (w : Word) (s : State), ∃ o b, s.dbgEntry (w.toNat % 8) (w.toNat / 65536 % 8192) = some (o, b))
    ∧ (∃ (n : Nat) (w : Word) (s : State), ∃ b, n < 64 ∧ (s.slice n).state = .active ∧ s.dbgEntry (w.toNat % 8) (w.toNat / 65536 % 8192) = some (n, b))
    ∧ (∃ (n : Nat) (w : Word) (s : State), ∃ o b, n < 64 ∧ (s.slice n).state = .active ∧ s.dbgEntry (w.toNat % 8) (w.toNat / 65536 % 8192) = some (o, b) ∧ o ≠ n)
    ∧ (∃ (w : Word) (s : State), s.dom? (BitVec.ofNat 24 w.toNat) = none)
    ∧ (∃ (off : Nat) (s : State), off < 131072 ∧ off % 4 ≠ 0)
    ∧ (∃ (off : Nat) (s : State), off < 131072 ∧ off % 4 = 0 ∧ wideOf .gd off = none) :=
  ⟨⟨under, 0, 0, State.reset, by decide⟩,
   ⟨lead, 0xC, 0, State.reset, by decide⟩,
   ⟨lead, 0x600, 0, State.reset, by decide⟩,
   ⟨lead, 0x600, 0, State.reset, 0, by decide⟩,
   ⟨lead, 0x600, 0, State.reset, by decide⟩,
   ⟨⟨0, true, true⟩, 0x600, 0, State.reset, by decide⟩,
   ⟨⟨0, true, true⟩, 0, 0, stageBootS 1 fun g => { g with lastCause := 3 }, by decide⟩,
   ⟨lead, 0x560, 0, gdS fun g => { g with variant := .gd32e }, by decide⟩,
   ⟨⟨0, true, true⟩, 0x200, 0, gdS fun g => { g with com := { g.com with lastWr := some (0x200, 1) } }, by decide⟩,
   ⟨0, gdS fun g => { g with com := { g.com with lastWr := some (0x44, 0) } }, by decide⟩,
   ⟨lead, 0, State.reset, by decide⟩,
   ⟨lead, 0, sealS .opened true true, by decide⟩,
   ⟨.tsu, lead, 0x600, State.reset, by decide⟩,
   ⟨.gd, lead, 0x114, State.reset, by decide⟩,
   ⟨.gd, lead, 0x100, 0x104, 4, State.reset, by decide⟩,
   ⟨.gd, lead, 0x114, State.reset, by decide⟩,
   ⟨0, State.reset, by decide⟩,
   ⟨2, calS (cal0 0) id, 0, (cal0 0).bytes, by decide⟩,
   ⟨0, 2, calS (cal0 0) id, (cal0 0).bytes, by decide⟩,
   ⟨1, 2, (calS (cal0 0) id).updSlice 1 (fun v => { v with state := .active }), 0, (cal0 0).bytes, by decide⟩,
   ⟨7, State.reset, by decide⟩,
   ⟨1, State.reset, by decide⟩,
   ⟨0, State.reset, by decide⟩⟩

/-- Every case of CombineOrderFree is met by some state and operands. -/
theorem witness_CombineOrderFree :
    (∃ (op fmt lanes : Nat) (xs ys : List Input), descAllowed op fmt lanes = true ∧ (¬ (isFloat fmt = true ∧ (op = 0x01 ∨ op = 0x0B))) ∧ xs.Perm ys)
    ∧ (∃ (op fmt lanes : Nat) (ps qs : List (List Byte)), descAllowed op fmt lanes = true ∧ (¬ (isFloat fmt = true ∧ (op = 0x01 ∨ op = 0x0B))) ∧ ((∀ d ∈ ps, ∀ i, laneNan (pairFmt fmt) (pairAt d i).1 = false)) ∧ ps.Perm qs) :=
  ⟨⟨5, 2, 1, [⟨0, 0, [0, 0, 0, 1]⟩, ⟨0, 1, [0, 0, 0, 2]⟩], [⟨0, 1, [0, 0, 0, 2]⟩, ⟨0, 0, [0, 0, 0, 1]⟩], by decide, by decide, .swap _ _ _⟩,
   ⟨5, 2, 1, [[0, 0, 0, 1], [0, 0, 0, 2]], [[0, 0, 0, 2], [0, 0, 0, 1]], by decide, by decide, fun _ _ _ => rfl, .swap _ _ _⟩⟩

/-- Every case of AllocRules is met by some state and operands. -/
theorem witness_AllocRules :
    (∃ (fmt lanes slot : Nat) (rows : List Input), isFloat fmt = false ∧ descAllowed 0x0B fmt lanes = true)
    ∧ (∃ (rule experts e : Nat) (caps loads : List Nat), rule ≠ 1 ∧ e < loads.length)
    ∧ (∃ (experts e : Nat) (caps loads : List Nat), e < experts)
    ∧ (∃ (rule experts j : Nat) (acc cs : List Nat), (rule ≠ 1 ∨ j < experts))
    ∧ (∃ (rule experts j : Nat) (acc cs : List Nat), (rule ≠ 1 ∨ j < experts)) :=
  ⟨⟨2, 1, 63, [], by decide⟩,
   ⟨0, 1, 0, [1], [1], by decide⟩,
   ⟨1, 0, [], [], by decide⟩,
   ⟨0, 1, 0, [1], [1], by decide⟩,
   ⟨1, 1, 0, [1], [1], by decide⟩⟩

end Sys2Proof.Tests
end

section
/-! The access error of a narrow or misaligned register access (R10): what setting it moves, and that such an access does
nothing else at either part. -/

namespace Sys2Proof.Machine

open Sys2Proof

/-! ## What an access error moves -/

/-- Raising a vector moves only the queue of vectors (R511). -/
theorem Common.raiseVector_eq (c : Common) (v : Nat) : ∃ q, c.raiseVector v = { c with irq := q } := by
  unfold Common.raiseVector
  split
  · exact ⟨c.irq, rfl⟩
  · exact ⟨_, rfl⟩

/-- Interrupt-status bits are set as those of any write-1-to-clear register; beyond that, only the queue of vectors can
move (R456). -/
theorem Common.setIrq_eq_setEvt (c : Common) (mask : Word) :
    ∃ q, c.setIrq mask = { c.setEvt 0x40 mask with irq := q } := by
  by_cases hrise : c.irqActive = 0 ∧ (c.setEvt 0x40 mask).irqActive ≠ 0
  · have hraise : c.setIrq mask = (c.setEvt 0x40 mask).raiseVector 0 := if_pos hrise
    rw [hraise]
    exact Common.raiseVector_eq ..
  · exact ⟨_, if_neg hrise⟩

/-- An access error sets its flag and its bit of the interrupt status and keeps the offset; beyond that, only the queue
of vectors can move (R457, R476). -/
theorem Common.accessErr_eq (c : Common) (b off : Nat) :
    ∃ q, c.accessErr b off = { (c.setEvt 0x50 (BitVec.ofNat 32 (2 ^ b))).setEvt 0x40 0x8000#32 with
      accAddr := off, irq := q } :=
  Common.setIrq_eq_setEvt { c.setEvt 0x50 (BitVec.ofNat 32 (2 ^ b)) with accAddr := off } 0x8000#32

section
variable (c : Common) (b off : Nat)

@[simp] theorem Common.accessErr_evtWord :
    (c.accessErr b off).evtWord 0x50 = c.evtWord 0x50 ||| BitVec.ofNat 32 (2 ^ b) := by
  obtain ⟨q, hq⟩ := c.accessErr_eq b off
  calc (c.accessErr b off).evtWord 0x50
      = ((c.setEvt 0x50 (BitVec.ofNat 32 (2 ^ b))).setEvt 0x40 0x8000#32).evtWord 0x50 := by rw [hq]; rfl
    _ = (c.setEvt 0x50 (BitVec.ofNat 32 (2 ^ b))).evtWord 0x50 := Common.setEvt_evtWord_ne _ _ (by decide)
    _ = c.evtWord 0x50 ||| BitVec.ofNat 32 (2 ^ b) := Common.setEvt_evtWord ..

@[simp] theorem Common.accessErr_accAddr : (c.accessErr b off).accAddr = off := by
  obtain ⟨q, hq⟩ := c.accessErr_eq b off; rw [hq]

@[simp] theorem Common.accessErr_rw : (c.accessErr b off).rw = c.rw := by
  obtain ⟨q, hq⟩ := c.accessErr_eq b off; rw [hq]; rfl

@[simp] theorem Common.accessErr_latch : (c.accessErr b off).latch = c.latch := by
  obtain ⟨q, hq⟩ := c.accessErr_eq b off; rw [hq]; rfl

@[simp] theorem Common.accessErr_log : (c.accessErr b off).log = c.log := by
  obtain ⟨q, hq⟩ := c.accessErr_eq b off; rw [hq]; rfl

@[simp] theorem Common.accessErr_links : (c.accessErr b off).links = c.links := by
  obtain ⟨q, hq⟩ := c.accessErr_eq b off; rw [hq]; rfl

@[simp] theorem Common.accessErr_srcs : (c.accessErr b off).srcs = c.srcs := by
  obtain ⟨q, hq⟩ := c.accessErr_eq b off; rw [hq]; rfl

end

/-! ## A narrow or misaligned access -/

theorem exec_registerWrite (n : Node) (acc : Access) (off : Nat) (w : Word) (s : State) :
    exec (.registerWrite n acc off w) s = .next (s.regWrite n acc off w) := rfl

theorem exec_lowWordLatchRead (n : Node) (acc : Access) (off : Nat) (s : State) :
    exec (.lowWordLatchRead n acc off) s = .next (s.regRead n acc off) := rfl

section
variable {acc : Access} {off : Nat} (h : acc.whole = false ∨ off % 4 ≠ 0) (s : State) (n : Node)
include h

theorem State.regWrite_of_narrow_or_misaligned (w : Word) :
    s.regWrite n acc off w = s.updCom n fun c => c.accessErr 0 off :=
  if_pos (by simpa using h)

theorem State.regRead_of_narrow_or_misaligned :
    s.regRead n acc off = s.updCom n fun c => { c.accessErr 0 off with rdata := 0 } :=
  if_neg fun ⟨hwhole, haligned⟩ => h.elim (by simp [hwhole]) (absurd haligned)

end

/-- Settles O56: the width test is the first branch of a write and of a read at either part, and the access error
moves the fields that `Common.accessErr_eq` names. -/
theorem accessWidth : Obligations.AccessWidth := by
  unfold Obligations.AccessWidth
  refine ⟨fun n acc off w s h => ⟨?_, ?_⟩, fun c off => ⟨?_, ?_, ?_, ?_, ?_, ?_, ?_, ?_⟩⟩
  · rw [exec_registerWrite, State.regWrite_of_narrow_or_misaligned h]
  · rw [exec_lowWordLatchRead, State.regRead_of_narrow_or_misaligned h]
  · exact c.accessErr_evtWord 0 off
  · exact c.accessErr_accAddr 0 off
  · exact c.accessErr_rw 0 off
  · exact c.accessErr_latch 0 off
  · exact c.accessErr_log 0 off
  · exact c.accessErr_time 0 off
  · exact c.accessErr_links 0 off
  · exact c.accessErr_srcs 0 off

end Sys2Proof.Machine
end

section
/-! The time-clock tick (R42): what it makes of a node's counter, its NS32 and its always-on clock. -/

namespace Sys2Proof

/-! ## NS32 across the roll into SECONDS -/

/-- SECONDS keeps 48 bits (R36). -/
theorem Time80.toNs_ofUnits (u : Int) :
    (Time80.ofUnits u).toNs = u / 4294967296 % (281474976710656 * 1000000000) := by
  simp only [Time80.toNs, Time80.ofUnits]
  omega

/-- NS32 runs on across a roll of NANOSECONDS and of SECONDS: 2^48 seconds are a multiple of 2^32 ns (R39, R42). -/
theorem Time80.ns32_ofUnits (u : Int) : (Time80.ofUnits u).ns32 = BitVec.ofInt 32 (u / 4294967296) := by
  have hroll : (u / 4294967296 % (281474976710656 * 1000000000)) % 2 ^ 32 = u / 4294967296 % 2 ^ 32 :=
    Int.emod_emod_of_dvd _ (by decide)
  apply BitVec.eq_of_toNat_eq
  rw [Time80.ns32, Time80.toNs_ofUnits, BitVec.toNat_ofInt, BitVec.toNat_ofInt]
  exact congrArg Int.toNat hroll

end Sys2Proof

namespace Sys2Proof.Machine

open Sys2Proof

/-! ## The tick of a time domain -/

section
variable (t : TimeDom)

@[simp] theorem TimeDom.tick_aon : t.tick.aon = t.aon + 2 := rfl

theorem TimeDom.tick_counter_of_locked (h : t.pllLocked = true) :
    t.tick.counter = Time80.ofUnits (t.counter.toUnits + t.addend) := if_pos h

theorem TimeDom.tick_counter_of_unlocked (h : t.pllLocked = false) : t.tick.counter = t.counter :=
  if_neg (Bool.eq_false_iff.mp h)

end

/-! ## The tick of a node -/

theorem exec_timeClockTick (n : Node) (s : State) : exec (.timeClockTick n) s = .next (s.timeClockTick n) := rfl

theorem Keeps.tdHeld {s t : State} (h : Keeps s t) : t.tsu.tdHeld = s.tsu.tdHeld := h.tsu.2

/-- The distributor's reading and its always-on clock, of those fields of its time domain that a steady operation
keeps. -/
theorem Keeps.gd_now_aon {s t : State} (h : Keeps s t) : t.now .gd = s.now .gd ∧ t.aon .gd = s.aon .gd := by
  obtain ⟨-, ⟨⟨hsteady, -⟩, -⟩, -⟩ := h
  simp only [Prod.mk.injEq] at hsteady
  obtain ⟨hcounter, -, -, haon⟩ := hsteady
  exact ⟨hcounter, haon⟩

/-- A TSU at the start of a tick, before its counter counts: what holds for one tick ends, BOOT_MS is kept and a
stalled result read is answered (R266, R331, R372, R432). -/
def State.tsuTickStart (s : State) : State :=
  (((s.updTsu fun t => { t with tickOrders := [], calTick := false }).cycleEnd .tsu).bootMsLatch .tsu).stallServe

theorem State.tsuTickStart_quiet (s : State) : Quiet .tsu s s.tsuTickStart :=
  State.stallServe_quiet rfl <| State.bootMsLatch_quiet rfl <| State.cycleEnd_quiet rfl <|
    State.updTsu_quiet rfl (fun _ => rfl) (.refl s)

theorem State.tsuTickStart_keeps (s : State) : Keeps s s.tsuTickStart :=
  State.stallServe_keeps <| State.bootMsLatch_keeps <| State.cycleEnd_keeps <|
    State.updTsu_keeps (fun _ => ⟨.refl _, rfl⟩) (.refl s)

/-- The tick of a TSU's time domain: held in power-on reset, only its always-on clock counts (R509). -/
def State.tsuTimeTick (s : State) : State :=
  if s.tsu.tdHeld then s.updTime .tsu fun t => { t with aon := t.aon + 2 } else s.updTime .tsu TimeDom.tick

theorem State.tsuTimeTick_time (s : State) : s.tsuTimeTick.time .tsu =
    if s.tsu.tdHeld then { s.time .tsu with aon := s.aon .tsu + 2 } else (s.time .tsu).tick := by
  unfold State.tsuTimeTick
  split <;> exact State.updTime_time ..

theorem State.commitTick_of_not_due {s : State} (h : (s.time .tsu).commitDue = false) : s.commitTick = s :=
  if_neg (Bool.eq_false_iff.mp h)

/-- The clock regions tick after the TSU's own time domain and leave it alone; a SET_COMMIT that is due comes last. -/
theorem State.timeClockTick_tsu_eq_commitTick (s : State) :
    ∃ u, Quiet .tsu s.tsuTickStart.tsuTimeTick u ∧ s.timeClockTick .tsu = u.commitTick :=
  ⟨_, Quiet.ite (fun _ => State.updRegions_quiet rfl (.refl _)) (fun _ => .refl _), rfl⟩

theorem State.timeClockTick_tsu_time {s : State} (hdue : (s.time .tsu).commitDue = false) :
    (s.timeClockTick .tsu).time .tsu =
      if s.tsu.tdHeld then { s.time .tsu with aon := s.aon .tsu + 2 } else (s.time .tsu).tick := by
  obtain ⟨u, hquiet, hu⟩ := s.timeClockTick_tsu_eq_commitTick
  have htime : u.time .tsu =
      if s.tsu.tdHeld then { s.time .tsu with aon := s.aon .tsu + 2 } else (s.time .tsu).tick := by
    rw [hquiet.time, State.tsuTimeTick_time, State.aon, s.tsuTickStart_quiet.time,
      s.tsuTickStart_keeps.tdHeld, State.aon]
  have hnotdue : (u.time .tsu).commitDue = false := by
    rw [htime]
    split <;> exact hdue
  rw [hu, State.commitTick_of_not_due hnotdue, htime]

/-- The ramps of a time root move only its addend, and the timing outputs follow the counter (R105, R113). -/
theorem State.timeClockTick_gd_now_aon (s : State) :
    (s.timeClockTick .gd).now .gd = (s.time .gd).tick.counter ∧ (s.timeClockTick .gd).aon .gd = s.aon .gd + 2 := by
  have hstart : ((s.cycleEnd .gd).bootMsLatch .gd).time .gd = s.time .gd :=
    (State.bootMsLatch_quiet rfl (State.cycleEnd_quiet rfl (.refl s))).time
  have hkeeps : Keeps (((s.cycleEnd .gd).bootMsLatch .gd).updTime .gd TimeDom.tick) (s.timeClockTick .gd) :=
    State.outputsTick_keeps (State.rootTick_keeps (.refl _))
  obtain ⟨hnow, haon⟩ := hkeeps.gd_now_aon
  rw [hnow, haon, State.now, State.aon, State.updTime_time, hstart]
  exact ⟨rfl, TimeDom.tick_aon _⟩

section
variable {n : Node} {s : State} (hdue : n = .tsu → s.tsu.com.time.commitDue = false)
include hdue

theorem State.timeClockTick_now :
    (s.timeClockTick n).now n = if n = .tsu ∧ s.tsu.tdHeld = true then s.now n else (s.time n).tick.counter := by
  cases n with
  | tsu =>
    rw [State.now, State.timeClockTick_tsu_time (hdue rfl)]
    simp only [true_and]
    split <;> rfl
  | gd => exact s.timeClockTick_gd_now_aon.1

theorem State.timeClockTick_aon : (s.timeClockTick n).aon n = s.aon n + 2 := by
  cases n with
  | tsu =>
    rw [State.aon, State.timeClockTick_tsu_time (hdue rfl)]
    split <;> rfl
  | gd => exact s.timeClockTick_gd_now_aon.2

end

/-- Settles O12: nothing of a tick but the tick of the node's own time domain moves its counter, and NS32 counts
through the roll of SECONDS. -/
theorem tickAddsAddend : Obligations.TickAddsAddend := by
  unfold Obligations.TickAddsAddend
  refine ⟨rfl, fun n s hdue => ⟨s.timeClockTick n, exec_timeClockTick n s, fun hlocked hfree => ?_, fun hstands => ?_,
    State.timeClockTick_aon hdue⟩⟩
  · have hrun : ¬ (n = .tsu ∧ s.tsu.tdHeld = true) := fun ⟨hn, hheld⟩ =>
      Bool.eq_false_iff.mp (hfree hn) hheld
    have hnow : (s.timeClockTick n).now n = Time80.ofUnits ((s.now n).toUnits + (s.time n).addend) := by
      rw [State.timeClockTick_now hdue, if_neg hrun, TimeDom.tick_counter_of_locked _ hlocked, State.now]
    exact ⟨hnow, by rw [hnow, Time80.ns32_ofUnits]⟩
  · rw [State.timeClockTick_now hdue]
    split
    case isTrue => rfl
    case isFalse hrun => exact TimeDom.tick_counter_of_unlocked _ (hstands.resolve_right hrun)

end Sys2Proof.Machine
end

section
/-! The role rule of a firmware image (R438): which of its two conditions binds a distributor in each role. -/

namespace Sys2Proof.Machine

open Sys2Proof

theorem need_eq_ok_iff {b : Bool} {reason off : Nat} : need b reason off = .ok () ↔ b = true := by
  cases b <;> simp [need]

theorem checks_eq_ok_iff {ε : Type} {first second : Except ε Unit} :
    (do first; second) = .ok () ↔ first = .ok () ∧ second = .ok () := by
  cases first with
  | error e => exact ⟨nofun, nofun⟩
  | ok u => exact ⟨fun h => ⟨rfl, h⟩, And.right⟩

/-- OWNER_LOCK's half of the role rule (R448). -/
theorem need_not_eq_ok_iff {b : Bool} {reason off : Nat} : need (!b) reason off = .ok () ↔ b = false := by
  rw [need_eq_ok_iff, Bool.not_eq_true']

/-- FLOOR's half of the role rule (R443). -/
theorem need_decide_eq_ok_iff {p : Prop} [Decidable p] {reason off : Nat} :
    need (decide p) reason off = .ok () ↔ p :=
  need_eq_ok_iff.trans decide_eq_true_iff

section
variable {g : Gd} (svn : Nat)

theorem Gd.roleRule_of_sled_or_rack (h : g.heldRole = some 0 ∨ g.heldRole = some 1) :
    g.roleRule svn = need (!g.ownerLock) 0x15 0 := by
  rcases h with h | h <;> simp only [Gd.roleRule, h]

theorem Gd.roleRule_of_pod_or_hallRoot (h : g.heldRole = some 2 ∨ g.heldRole = some 3) :
    g.roleRule svn = need (decide (g.fw.floor ≤ svn)) 0x16 16 := by
  rcases h with h | h <;> simp only [Gd.roleRule, h]

theorem Gd.roleRule_of_no_role (h : g.heldRole = none) :
    g.roleRule svn = (do need (!g.ownerLock) 0x15 0; need (decide (g.fw.floor ≤ svn)) 0x16 16) := by
  simp only [Gd.roleRule, h]

end

/-- Settles O55: each class of roles has its own branch of the rule, and a branch passes exactly when its checks do. -/
theorem firmwareRoleRule : Obligations.FirmwareRoleRule := by
  unfold Obligations.FirmwareRoleRule
  refine fun g svn => ⟨fun hlow => ?_, fun hhigh => ?_, fun hnone => ?_⟩
  · rw [Gd.roleRule_of_sled_or_rack svn hlow]
    exact need_not_eq_ok_iff
  · rw [Gd.roleRule_of_pod_or_hallRoot svn hhigh]
    exact need_decide_eq_ok_iff
  · rw [Gd.roleRule_of_no_role svn hnone, checks_eq_ok_iff]
    exact and_congr need_not_eq_ok_iff need_decide_eq_ok_iff

end Sys2Proof.Machine
end

section
/-! The queue of interrupt vectors (R511): its end, where a vector is raised, and its head, which a handshake passes. -/

namespace Sys2Proof.Machine

open Sys2Proof

theorem exec_irqEventHandshake (s : State) :
    exec .irqEventHandshake s = .next (s.updCom .tsu fun c => { c with irq := c.irq.drop 1 }) := rfl

section
variable {c : Common} {v : Nat}

theorem Common.raiseVector_of_not_mem (h : v ∉ c.irq) : c.raiseVector v = { c with irq := c.irq ++ [v] } :=
  if_neg h

theorem Common.raiseVector_of_mem (h : v ∈ c.irq) : c.raiseVector v = c :=
  if_pos h

end

/-- Settles O57: raising a vector asks only whether it waits already, and each answer gives one branch. -/
theorem interruptQueue : Obligations.InterruptQueue := by
  unfold Obligations.InterruptQueue
  exact ⟨exec_irqEventHandshake, fun _ _ => Common.raiseVector_of_not_mem, fun _ _ => Common.raiseVector_of_mem⟩

end Sys2Proof.Machine
end

section
/-! What each of the 275 commands leaves alone. One case split over the commands gathers what the frame lemmas say of
their meanings; the statements about every command and every step follow from it. -/

namespace Sys2Proof.Machine

open Sys2Proof

/-! ## Every command answers a next state -/

theorem exec_answers (c : Instr) (s : State) : ∃ t, exec c s = .next t := by
  cases c <;> exact ⟨_, rfl⟩

theorem State.after_of_exec {c : Instr} {s t : State} (h : exec c s = .next t) : s.after (exec c s) = t := by
  rw [h, State.after_next]

/-! ## What the commands that move a counter or the custody state leave alone -/

theorem Keeps.kept {s t : State} (h : Keeps s t) : t.gd.kept = s.gd.kept := h.gd.2

theorem Guards.kept {s t : State} (h : Guards s t) : t.gd.kept = s.gd.kept := by
  have hgd := h.gd
  simp only [Prod.mk.injEq] at hgd
  exact hgd.2.2.2

theorem Gd.ownerLock_of_kept {g h : Gd} (hk : h.kept = g.kept) : h.ownerLock = g.ownerLock := by
  simp only [Gd.kept, Prod.mk.injEq] at hk
  exact hk.1.2.1

/-- The time registers of a node belong to none of what `Gd.kept` names. -/
@[simp] theorem State.updTime_kept (n : Node) (f : TimeDom → TimeDom) (s : State) :
    (s.updTime n f).gd.kept = s.gd.kept := by cases n <;> rfl

theorem State.timeClockTick_kept (n : Node) (s : State) : (s.timeClockTick n).gd.kept = s.gd.kept := by
  cases n with
  | tsu => rw [(State.timeClockTick_apart rfl (.refl s)).gd]
  | gd =>
    have hend : Keeps (((s.cycleEnd .gd).bootMsLatch .gd).updTime .gd TimeDom.tick) (s.timeClockTick .gd) :=
      State.outputsTick_keeps (State.rootTick_keeps (.refl _))
    have hstart : Keeps s ((s.cycleEnd .gd).bootMsLatch .gd) := State.bootMsLatch_keeps (State.cycleEnd_keeps (.refl s))
    rw [hend.kept, State.updTime_kept, hstart.kept]

theorem State.pllLockLoss_kept (n : Node) (s : State) : (s.pllLockLoss n).gd.kept = s.gd.kept := by
  cases n <;> rfl

theorem State.pllRelock_kept (n : Node) (s : State) : (s.pllRelock n).gd.kept = s.gd.kept := by
  unfold State.pllRelock
  split
  · rfl
  · rw [(State.timeDomainReset_keeps (.refl _)).kept, State.updTime_kept]

theorem State.timeDomainPowerOn_kept (n : Node) (s : State) : (s.timeDomainPowerOn n).gd.kept = s.gd.kept := by
  cases n with
  | tsu => rw [(State.timeDomainPowerOn_apart rfl (.refl s)).gd]
  | gd =>
    unfold State.timeDomainPowerOn
    rw [(State.noteChange_keeps (.refl _)).kept, (State.updRef_keeps (.refl _)).kept]
    rfl

theorem execTimeDomainPowerOn_kept (n : Node) (s : State) :
    (s.after (execTimeDomainPowerOn n s)).gd.kept = s.gd.kept := by
  unfold execTimeDomainPowerOn
  rw [State.after_next]
  split <;> exact State.timeDomainPowerOn_kept n s

/-! ## The owner lock (R448) -/

/-- OWNER_LOCK changes only where the key seal is open. -/
def LockGuarded (s t : State) : Prop := t.gd.ownerLock ≠ s.gd.ownerLock → s.gd.sealSt = .opened

theorem LockGuarded.of_eq {s t : State} (h : t.gd.ownerLock = s.gd.ownerLock) : LockGuarded s t := fun hne => absurd h hne

/-- What moves neither the lock nor the seal may come before. -/
theorem LockGuarded.after {s t u : State} (h : LockGuarded t u) (k : Keeps s t) : LockGuarded s u := by
  have hkept := k.kept
  simp only [Gd.kept, Prod.mk.injEq] at hkept
  obtain ⟨⟨hseal, hlock, -⟩, -⟩ := hkept
  rw [LockGuarded, hseal, hlock] at h
  exact h

theorem execOwnerLockWrite_lockGuarded (acc : Access) (w : Word) (s : State) :
    LockGuarded s (s.after (execOwnerLockWrite acc w s)) := by
  unfold execOwnerLockWrite State.gdWrite
  rw [State.after_next]
  have herr : ∀ b off, LockGuarded s (s.updCom .gd fun c => c.accessErr b off) := fun _ _ => .of_eq rfl
  split
  · exact herr _ _
  split
  · exact .of_eq rfl
  split
  · exact herr _ _
  split
  · exact herr _ _
  split
  · exact .of_eq (State.custodyRefused_keeps (.refl s)).sound.ownerLock
  next hopen => exact fun _ => Classical.not_not.mp fun hseal => hopen ⟨rfl, hseal⟩

theorem execTreeWdataWrite_ownerLock (w : Word) (s : State) :
    (s.after (execTreeWdataWrite w s)).gd.ownerLock = s.gd.ownerLock := by
  unfold execTreeWdataWrite
  rw [State.after_next, State.updGd_gd]
  split <;> rfl

/-- An order that a word may carry, sound where it is carried. -/
theorem Sound.opt {f : State → State} {c : Prop} [Decidable c] {u s : State} (hf : ∀ x, Sound x (f x)) (h : Sound u s) :
    Sound u (if c then f s else s) :=
  .ite (h.trans (hf s)) h

/-- Of the orders of a written word, the pending-image data and OWNER_LOCK alone are not sound. -/
theorem State.mgmtOrder_sound (s : State) {off : Nat} (w : Word) (hdata : off ≠ 0x414) (howner : off ≠ 0xA20) :
    Sound s (s.mgmtOrder off w) := by
  unfold State.mgmtOrder
  refine .ite (State.mgmtPort_keeps (.refl s)).sound (.ite (.refl s) ?_)
  split
  · exact .opt (fun _ => (execErrlogClear_keeps (.refl _)).sound) (.opt (fun _ => (execErrlogPop_keeps (.refl _)).sound) (.refl s))
  · exact .opt (fun _ => (State.restep_keeps (.refl _)).sound) (.refl s)
  · exact (State.forceEntryWrite_keeps (.refl _)).sound
  · exact .opt (fun _ => (execOutRealign_keeps (.refl _)).sound) (.refl s)
  · exact (State.rfOffsetWrite_keeps (.refl _)).sound
  · exact (State.rfOffsetWrite_keeps (.refl _)).sound
  · exact .opt (fun _ => (execLoadBuf_keeps (.refl _)).sound)
      (.opt (fun _ => State.updCom_sound (fun _ => Common.accessErr_steady ..) (.refl _)) (.refl s))
  · exact absurd rfl hdata
  · exact (State.gdAbortGo_keeps (.refl _)).sound
  · exact (State.gdOrderGo_keeps (.refl _)).sound
  · exact (execDlatSnapshot_keeps (.refl _)).sound
  · exact (execSoftSnapshot_keeps (.refl _)).sound
  · exact .opt (fun _ => (execPolicyLoad_keeps (.refl _)).sound) (.opt (fun _ => (execPolicyCommit_keeps (.refl _)).sound) (.refl s))
  · exact .opt (fun _ => (execHealthClear_keeps (.refl _)).sound) (.refl s)
  · exact (execJournalFreeze_keeps (.refl _)).sound
  · exact (execJournalRead_keeps (.refl _)).sound
  · exact .opt (fun _ => execChipRst_sound (.refl _)) (.opt (fun _ => (State.domainRst_keeps (.refl _)).sound) (.refl s))
  · exact .opt (fun _ => (execFuseBlow_keeps (.refl _)).sound) (.refl s)
  · exact .opt (fun _ => execFwRevert_sound (.refl _)) (.opt (fun _ => (execFwCommit_keeps (.refl _)).sound)
      (.opt (fun _ => execFwActivate_sound (.refl _)) (.refl s)))
  · exact absurd rfl howner
  · exact .refl s

theorem State.mgmtOrder_data (s : State) (w : Word) :
    s.mgmtOrder 0x414 w = if s.gdAbsent 0x414 then s else s.after (execTreeWdataWrite w s) := rfl

theorem State.mgmtOrder_owner (s : State) (w : Word) :
    s.mgmtOrder 0xA20 w = if s.gdAbsent 0xA20 then s else s.after (execOwnerLockWrite mgmtAcc w s) := rfl

theorem State.mgmtOrder_lockGuarded (s : State) (off : Nat) (w : Word) : LockGuarded s (s.mgmtOrder off w) := by
  by_cases hdata : off = 0x414
  · rw [hdata, State.mgmtOrder_data]
    split
    · exact .of_eq rfl
    · exact .of_eq (execTreeWdataWrite_ownerLock w s)
  by_cases howner : off = 0xA20
  · rw [howner, State.mgmtOrder_owner]
    split
    · exact .of_eq rfl
    · exact execOwnerLockWrite_lockGuarded mgmtAcc w s
  · exact .of_eq (s.mgmtOrder_sound w hdata howner).ownerLock

theorem State.mgmtTransaction_lockGuarded (s : State) (off : Nat) (op : SpiOp) : LockGuarded s (s.mgmtTransaction off op) := by
  change LockGuarded s (s.mgmtAccess off op)
  cases op with
  | read => exact .of_eq (State.regRead_keeps (.refl s)).sound.ownerLock
  | write w =>
    change LockGuarded s (s.mgmtWrite off w)
    unfold State.mgmtWrite
    split
    · exact s.mgmtOrder_lockGuarded off w
    · exact (State.mgmtOrder_lockGuarded _ off w).after (State.regWrite_keeps (.refl s))

/-! ## The frame of a command -/

/-- The bits and clocks of a time domain that only the commands of `Instr.moves` change. -/
def TimeDom.clocks (t : TimeDom) : Time80 × Bool × Bool × Nat := (t.counter, t.standalone, t.pllLocked, t.aon)

theorem Keeps.clocks {s t : State} (h : Keeps s t) (n : Node) : (t.time n).clocks = (s.time n).clocks := by
  cases n with
  | tsu => exact h.tsu.1.1
  | gd => exact h.gd.1.1

/-- What acts at the distributor alone and not at its time leaves both time domains. -/
theorem Quiet.time_eq {m : Node} {s t : State} (h : Quiet m s t) (n : Node) : t.time n = s.time n := by
  cases m with
  | tsu => cases n with
    | tsu => exact h.time
    | gd => rw [State.time, State.com, h.apart.gd]; rfl
  | gd => cases n with
    | tsu => rw [State.time, State.com, h.apart.tsu]; rfl
    | gd => exact h.time

/-- What a command leaves alone, by the lists it stands in. -/
structure Framed (c : Instr) (s t : State) : Prop where
  apart : Apart c.part s t
  quiet : c.timed = false → Quiet c.part s t
  clocks : c.moves = false → ∀ n, (t.time n).clocks = (s.time n).clocks
  kept : c.custodial = false → t.gd.kept = s.gd.kept
  lock : LockGuarded s t
  ownerLock : c.writesOwnerLock = false → t.gd.ownerLock = s.gd.ownerLock
  formed : Formed s t

section
variable {c : Instr} {s t : State}

theorem Framed.ofKeeps (hk : Keeps s t) (ha : Apart c.part s t) (hq : c.timed = false → Quiet c.part s t) : Framed c s t where
  apart := ha
  quiet := hq
  clocks := fun _ => hk.clocks
  kept := fun _ => hk.kept
  lock := .of_eq hk.sound.ownerLock
  ownerLock := fun _ => hk.sound.ownerLock
  formed := hk.sound.formed

theorem Framed.ofQuiet (hq : Quiet c.part s t) (hk : Keeps s t) : Framed c s t := .ofKeeps hk hq.apart fun _ => hq

theorem Framed.ofTimed (htimed : c.timed = true) (ha : Apart c.part s t) (hk : Keeps s t) : Framed c s t :=
  .ofKeeps hk ha fun hfalse => absurd (htimed.symm.trans hfalse) (by decide)

/-- A command that may step a counter. -/
theorem Framed.ofMoved (htimed : c.timed = true) (hmoves : c.moves = true) (ha : Apart c.part s t)
    (hkept : t.gd.kept = s.gd.kept) (hf : Formed s t) : Framed c s t where
  apart := ha
  quiet := fun hfalse => absurd (htimed.symm.trans hfalse) (by decide)
  clocks := fun hfalse => absurd (hmoves.symm.trans hfalse) (by decide)
  kept := fun _ => hkept
  lock := .of_eq (Gd.ownerLock_of_kept hkept)
  ownerLock := fun _ => Gd.ownerLock_of_kept hkept
  formed := hf

theorem Framed.ofGuards (htimed : c.timed = true) (hmoves : c.moves = true) (ha : Apart c.part s t) (hg : Guards s t) :
    Framed c s t :=
  .ofMoved htimed hmoves ha hg.kept hg.formed

/-- A command that may start the distributor anew. -/
theorem Framed.ofSound (htimed : c.timed = true) (hmoves : c.moves = true) (hcust : c.custodial = true)
    (ha : Apart c.part s t) (hsound : Sound s t) : Framed c s t where
  apart := ha
  quiet := fun hfalse => absurd (htimed.symm.trans hfalse) (by decide)
  clocks := fun hfalse => absurd (hmoves.symm.trans hfalse) (by decide)
  kept := fun hfalse => absurd (hcust.symm.trans hfalse) (by decide)
  lock := .of_eq hsound.ownerLock
  ownerLock := fun _ => hsound.ownerLock
  formed := hsound.formed

/-- A command that may change the custody state or the pending-image buffer, and no time domain. -/
theorem Framed.ofCustodial (hcust : c.custodial = true) (hq : Quiet c.part s t)
    (hlock : LockGuarded s t) (howner : c.writesOwnerLock = false → t.gd.ownerLock = s.gd.ownerLock) (hf : Formed s t) :
    Framed c s t where
  apart := hq.apart
  quiet := fun _ => hq
  clocks := fun _ n => by rw [hq.time_eq n]
  kept := fun hfalse => absurd (hcust.symm.trans hfalse) (by decide)
  lock := hlock
  ownerLock := howner
  formed := hf

theorem Framed.ofSealed (hcust : c.custodial = true) (hq : Quiet c.part s t) (hsound : Sound s t) : Framed c s t :=
  .ofCustodial hcust hq (.of_eq hsound.ownerLock) (fun _ => hsound.ownerLock) hsound.formed

end

theorem exec_treeWdataWrite_framed (w : Word) (s : State) :
    Framed (.treeWdataWrite w) s (s.after (execTreeWdataWrite w s)) :=
  .ofCustodial rfl (execTreeWdataWrite_quiet rfl (.refl s)) (.of_eq (execTreeWdataWrite_ownerLock w s))
    (fun _ => execTreeWdataWrite_ownerLock w s) (execTreeWdataWrite_formed (.refl s))

theorem exec_ownerLockWrite_framed (acc : Access) (w : Word) (s : State) :
    Framed (.ownerLockWrite acc w) s (s.after (execOwnerLockWrite acc w s)) :=
  .ofCustodial rfl (execOwnerLockWrite_quiet rfl (.refl s)) (execOwnerLockWrite_lockGuarded acc w s) nofun
    (execOwnerLockWrite_formed (.refl s))

theorem exec_mgmtSpiTransaction_framed (off : Nat) (op : SpiOp) (s : State) :
    Framed (.mgmtSpiTransaction off op) s (s.after (execMgmtSpiTransaction off op s)) where
  apart := execMgmtSpiTransaction_apart rfl (.refl s)
  quiet := nofun
  clocks := nofun
  kept := nofun
  lock := s.mgmtTransaction_lockGuarded (off % 131072) op
  ownerLock := nofun
  formed := execMgmtSpiTransaction_formed (.refl s)

/-- Every command, by the frame lemmas of its meaning. -/
theorem exec_framed (c : Instr) (s : State) : Framed c s (s.after (exec c s)) := by
  cases c with
  | timeClockTick n => exact .ofMoved rfl rfl (execTimeClockTick_apart rfl (.refl s)) (State.timeClockTick_kept ..) (execTimeClockTick_formed (.refl s))
  | tdreset n => exact .ofGuards rfl rfl (execTdreset_apart rfl (.refl s)) (execTdreset_guards (.refl s))
  | standaloneWrite v => exact .ofMoved rfl rfl (execStandaloneWrite_apart rfl (.refl s)) (congrArg Gd.kept (execStandaloneWrite_apart rfl (.refl s)).gd) (execStandaloneWrite_formed (.refl s))
  | addendCommit w1 => exact .ofTimed rfl (execAddendCommit_apart rfl (.refl s)) (execAddendCommit_keeps (.refl s))
  | pllLockLoss n => exact .ofMoved rfl rfl (execPllLockLoss_apart rfl (.refl s)) (State.pllLockLoss_kept ..) (execPllLockLoss_formed (.refl s))
  | pllRelock n => exact .ofMoved rfl rfl (execPllRelock_apart rfl (.refl s)) (State.pllRelock_kept ..) (execPllRelock_formed (.refl s))
  | timeDomainPowerOn n => exact .ofMoved rfl rfl (execTimeDomainPowerOn_apart rfl (.refl s)) (execTimeDomainPowerOn_kept n s) (execTimeDomainPowerOn_formed (.refl s))
  | restep acc => exact .ofTimed rfl (execRestep_apart rfl (.refl s)) (execRestep_keeps (.refl s))
  | qualHoldMet n => exact .ofTimed rfl (execQualHoldMet_apart rfl (.refl s)) (execQualHoldMet_keeps (.refl s))
  | qualDropMet n => exact .ofTimed rfl (execQualDropMet_apart rfl (.refl s)) (execQualDropMet_keeps (.refl s))
  | flywheelLimit n => exact .ofTimed rfl (execFlywheelLimit_apart rfl (.refl s)) (execFlywheelLimit_keeps (.refl s))
  | leapSecondApply n => exact .ofTimed rfl (execLeapSecondApply_apart rfl (.refl s)) (execLeapSecondApply_keeps (.refl s))
  | timeFrameSend l stamp => exact .ofTimed rfl (execTimeFrameSend_apart rfl (.refl s)) (execTimeFrameSend_keeps (.refl s))
  | timeFrameRx l rx stamp => exact .ofGuards rfl rfl (execTimeFrameRx_apart rfl (.refl s)) (execTimeFrameRx_guards (.refl s))
  | delayMeasurementDone l => exact .ofTimed rfl (execDelayMeasurementDone_apart rfl (.refl s)) (execDelayMeasurementDone_keeps (.refl s))
  | delayRestart l => exact .ofQuiet (execDelayRestart_quiet rfl (.refl s)) (execDelayRestart_keeps (.refl s))
  | timeLoss l => exact .ofTimed rfl (execTimeLoss_apart rfl (.refl s)) (execTimeLoss_keeps (.refl s))
  | sourceSwitchBetter l => exact .ofTimed rfl (execSourceSwitchBetter_apart rfl (.refl s)) (execSourceSwitchBetter_keeps (.refl s))
  | refPpsEdge n stamp => exact .ofQuiet (execRefPpsEdge_quiet rfl (.refl s)) (execRefPpsEdge_keeps (.refl s))
  | todMessageRx n stamp second checksumOk utc => exact .ofTimed rfl (execTodMessageRx_apart rfl (.refl s)) (execTodMessageRx_keeps (.refl s))
  | ptpMessageRx n m => exact .ofTimed rfl (execPtpMessageRx_apart rfl (.refl s)) (execPtpMessageRx_keeps (.refl s))
  | esmcMessageRx n q => exact .ofQuiet (execEsmcMessageRx_quiet rfl (.refl s)) (execEsmcMessageRx_keeps (.refl s))
  | refLossTimeout s0 why => exact .ofQuiet (execRefLossTimeout_quiet rfl (.refl s)) (execRefLossTimeout_keeps (.refl s))
  | refQualified s0 => exact .ofQuiet (execRefQualified_quiet rfl (.refl s)) (execRefQualified_keeps (.refl s))
  | wtrExpiry i0 => exact .ofQuiet (execWtrExpiry_quiet rfl (.refl s)) (execWtrExpiry_keeps (.refl s))
  | forceEntryWrite acc w => exact .ofQuiet (execForceEntryWrite_quiet rfl (.refl s)) (execForceEntryWrite_keeps (.refl s))
  | ptpMasterSend n => exact .ofQuiet (execPtpMasterSend_quiet rfl (.refl s)) (execPtpMasterSend_keeps (.refl s))
  | repeaterSyncRx r ns32 frac rest => exact .ofQuiet (execRepeaterSyncRx_quiet rfl (.refl s)) (execRepeaterSyncRx_keeps (.refl s))
  | repeaterAddendRx r seq addend count rest => exact .ofQuiet (execRepeaterAddendRx_quiet rfl (.refl s)) (execRepeaterAddendRx_keeps (.refl s))
  | repeaterLaunchAtRx r seq t frac slot fence rest => exact .ofQuiet (execRepeaterLaunchAtRx_quiet rfl (.refl s)) (execRepeaterLaunchAtRx_keeps (.refl s))
  | repeaterCancelRx r seq slot rest => exact .ofQuiet (execRepeaterCancelRx_quiet rfl (.refl s)) (execRepeaterCancelRx_keeps (.refl s))
  | repeaterFchgAtRx r seq tf code rest => exact .ofQuiet (execRepeaterFchgAtRx_quiet rfl (.refl s)) (execRepeaterFchgAtRx_keeps (.refl s))
  | repeaterCalRx r roundTripTaps noise => exact .ofQuiet (execRepeaterCalRx_quiet rfl (.refl s)) (execRepeaterCalRx_keeps (.refl s))
  | tbusAckRx r seq => exact .ofQuiet (execTbusAckRx_quiet rfl (.refl s)) (execTbusAckRx_keeps (.refl s))
  | tbusResend r seq => exact .ofQuiet (execTbusResend_quiet rfl (.refl s)) (execTbusResend_keeps (.refl s))
  | tbusDeliveryLimit r seq => exact .ofQuiet (execTbusDeliveryLimit_quiet rfl (.refl s)) (execTbusDeliveryLimit_keeps (.refl s))
  | tbusCalDone r => exact .ofQuiet (execTbusCalDone_quiet rfl (.refl s)) (execTbusCalDone_keeps (.refl s))
  | launchAtSend arm => exact .ofQuiet (execLaunchAtSend_quiet rfl (.refl s)) (execLaunchAtSend_keeps (.refl s))
  | strobeFire r slot => exact .ofQuiet (execStrobeFire_quiet rfl (.refl s)) (execStrobeFire_keeps (.refl s))
  | regionWakeRaise r slot => exact .ofQuiet (execRegionWakeRaise_quiet rfl (.refl s)) (execRegionWakeRaise_keeps (.refl s))
  | pmFchgReq regions code => exact .ofQuiet (execPmFchgReq_quiet rfl (.refl s)) (execPmFchgReq_keeps (.refl s))
  | rgSwitch r => exact .ofQuiet (execRgSwitch_quiet rfl (.refl s)) (execRgSwitch_keeps (.refl s))
  | regionRateWindow r edges maxPeriod running => exact .ofQuiet (execRegionRateWindow_quiet rfl (.refl s)) (execRegionRateWindow_keeps (.refl s))
  | lpFenceDone port => exact .ofQuiet (execLpFenceDone_quiet rfl (.refl s)) (execLpFenceDone_keeps (.refl s))
  | fenceHung port => exact .ofQuiet (execFenceHung_quiet rfl (.refl s)) (execFenceHung_keeps (.refl s))
  | regionRst r => exact .ofQuiet (execRegionRst_quiet rfl (.refl s)) (execRegionRst_keeps (.refl s))
  | trainingAttempt l => exact .ofQuiet (execTrainingAttempt_quiet rfl (.refl s)) (execTrainingAttempt_keeps (.refl s))
  | attemptFail l => exact .ofQuiet (execAttemptFail_quiet rfl (.refl s)) (execAttemptFail_keeps (.refl s))
  | rateSearchSwitch l => exact .ofQuiet (execRateSearchSwitch_quiet rfl (.refl s)) (execRateSearchSwitch_keeps (.refl s))
  | rxLock l fallback => exact .ofQuiet (execRxLock_quiet rfl (.refl s)) (execRxLock_keeps (.refl s))
  | pmdConverged l => exact .ofQuiet (execPmdConverged_quiet rfl (.refl s)) (execPmdConverged_keeps (.refl s))
  | blockLockAcquired l => exact .ofQuiet (execBlockLockAcquired_quiet rfl (.refl s)) (execBlockLockAcquired_keeps (.refl s))
  | frameLockAcquired l => exact .ofQuiet (execFrameLockAcquired_quiet rfl (.refl s)) (execFrameLockAcquired_keeps (.refl s))
  | trainFrameRx l rx => exact .ofTimed rfl (execTrainFrameRx_apart rfl (.refl s)) (execTrainFrameRx_keeps (.refl s))
  | blockLockLoss l => exact .ofTimed rfl (execBlockLockLoss_apart rfl (.refl s)) (execBlockLockLoss_keeps (.refl s))
  | frameLockLoss l => exact .ofTimed rfl (execFrameLockLoss_apart rfl (.refl s)) (execFrameLockLoss_keeps (.refl s))
  | linkBerExceeded l => exact .ofTimed rfl (execLinkBerExceeded_apart rfl (.refl s)) (execLinkBerExceeded_keeps (.refl s))
  | laneEnWrite en => exact .ofTimed rfl (execLaneEnWrite_apart rfl (.refl s)) (execLaneEnWrite_keeps (.refl s))
  | retrain l => exact .ofTimed rfl (execRetrain_apart rfl (.refl s)) (execRetrain_keeps (.refl s))
  | cntClear l => exact .ofQuiet (execCntClear_quiet rfl (.refl s)) (execCntClear_keeps (.refl s))
  | redundancyLost n => exact .ofQuiet (execRedundancyLost_quiet rfl (.refl s)) (execRedundancyLost_keeps (.refl s))
  | dieAbsent port partnerAgrees => exact .ofQuiet (execDieAbsent_quiet rfl (.refl s)) (execDieAbsent_keeps (.refl s))
  | slotTransmit l => exact .ofTimed rfl (execSlotTransmit_apart rfl (.refl s)) (execSlotTransmit_keeps (.refl s))
  | uncorrectableSlot l timeSlot => exact .ofQuiet (execUncorrectableSlot_quiet rfl (.refl s)) (execUncorrectableSlot_keeps (.refl s))
  | linkctlRx l rx => exact .ofTimed rfl (execLinkctlRx_apart rfl (.refl s)) (execLinkctlRx_keeps (.refl s))
  | nakResend l => exact .ofQuiet (execNakResend_quiet rfl (.refl s)) (execNakResend_keeps (.refl s))
  | replayFailure l => exact .ofTimed rfl (execReplayFailure_apart rfl (.refl s)) (execReplayFailure_keeps (.refl s))
  | creditReturnDue l => exact .ofQuiet (execCreditReturnDue_quiet rfl (.refl s)) (execCreditReturnDue_keeps (.refl s))
  | linkctlKeepalive l => exact .ofQuiet (execLinkctlKeepalive_quiet rfl (.refl s)) (execLinkctlKeepalive_keeps (.refl s))
  | degradeLimitExceeded l => exact .ofQuiet (execDegradeLimitExceeded_quiet rfl (.refl s)) (execDegradeLimitExceeded_keeps (.refl s))
  | idleFrameRx l rx => exact .ofTimed rfl (execIdleFrameRx_apart rfl (.refl s)) (execIdleFrameRx_keeps (.refl s))
  | bulkOpenRx l rx => exact .ofTimed rfl (execBulkOpenRx_apart rfl (.refl s)) (execBulkOpenRx_keeps (.refl s))
  | bulkDataRx l rx => exact .ofTimed rfl (execBulkDataRx_apart rfl (.refl s)) (execBulkDataRx_keeps (.refl s))
  | bulkCloseRx l rx => exact .ofTimed rfl (execBulkCloseRx_apart rfl (.refl s)) (execBulkCloseRx_keeps (.refl s))
  | bulkChunkDrop object chunk port => exact .ofQuiet (execBulkChunkDrop_quiet rfl (.refl s)) (execBulkChunkDrop_keeps (.refl s))
  | bulkRxTimeout n object => exact .ofTimed rfl (execBulkRxTimeout_apart rfl (.refl s)) (execBulkRxTimeout_keeps (.refl s))
  | tumblerCreate slice binding => exact .ofQuiet (execTumblerCreate_quiet rfl (.refl s)) (execTumblerCreate_keeps (.refl s))
  | tumblerClose slice binding => exact .ofQuiet (execTumblerClose_quiet rfl (.refl s)) (execTumblerClose_keeps (.refl s))
  | tumblerFree entry => exact .ofQuiet (execTumblerFree_quiet rfl (.refl s)) (execTumblerFree_keeps (.refl s))
  | portArrival a => exact .ofQuiet (execPortArrival_quiet rfl (.refl s)) (execPortArrival_keeps (.refl s))
  | softwareArrive slice => exact .ofQuiet (execSoftwareArrive_quiet rfl (.refl s)) (execSoftwareArrive_keeps (.refl s))
  | heldArrivalRelease entry => exact .ofQuiet (execHeldArrivalRelease_quiet rfl (.refl s)) (execHeldArrivalRelease_keeps (.refl s))
  | readyMarkEnqueue n key => exact .ofQuiet (execReadyMarkEnqueue_quiet rfl (.refl s)) (execReadyMarkEnqueue_keeps (.refl s))
  | arriveRx l rx => exact .ofTimed rfl (execArriveRx_apart rfl (.refl s)) (execArriveRx_keeps (.refl s))
  | turnRx l rx => exact .ofTimed rfl (execTurnRx_apart rfl (.refl s)) (execTurnRx_keeps (.refl s))
  | turnForward l rx => exact .ofTimed rfl (execTurnForward_apart rfl (.refl s)) (execTurnForward_keeps (.refl s))
  | waitArm slice k => exact .ofQuiet (execWaitArm_quiet rfl (.refl s)) (execWaitArm_keeps (.refl s))
  | waitTimeout slice k => exact .ofQuiet (execWaitTimeout_quiet rfl (.refl s)) (execWaitTimeout_keeps (.refl s))
  | budgetReclaim port => exact .ofQuiet (execBudgetReclaim_quiet rfl (.refl s)) (execBudgetReclaim_keeps (.refl s))
  | tumblerSnapshot w => exact .ofQuiet (execTumblerSnapshot_quiet rfl (.refl s)) (execTumblerSnapshot_keeps (.refl s))
  | latencyRx l rx => exact .ofTimed rfl (execLatencyRx_apart rfl (.refl s)) (execLatencyRx_keeps (.refl s))
  | latencySend l tag => exact .ofQuiet (execLatencySend_quiet rfl (.refl s)) (execLatencySend_keeps (.refl s))
  | launchForward l rx => exact .ofTimed rfl (execLaunchForward_apart rfl (.refl s)) (execLaunchForward_keeps (.refl s))
  | launchFrameRx l rx => exact .ofTimed rfl (execLaunchFrameRx_apart rfl (.refl s)) (execLaunchFrameRx_keeps (.refl s))
  | stageResume ctx => exact .ofQuiet (execStageResume_quiet rfl (.refl s)) (execStageResume_keeps (.refl s))
  | portCapture port edge cmdReady => exact .ofQuiet (execPortCapture_quiet rfl (.refl s)) (execPortCapture_keeps (.refl s))
  | sliceAbortGo w => exact .ofQuiet (execSliceAbortGo_quiet rfl (.refl s)) (execSliceAbortGo_keeps (.refl s))
  | abortFrameRx l rx => exact .ofTimed rfl (execAbortFrameRx_apart rfl (.refl s)) (execAbortFrameRx_keeps (.refl s))
  | abortDoneRx l rx => exact .ofTimed rfl (execAbortDoneRx_apart rfl (.refl s)) (execAbortDoneRx_keeps (.refl s))
  | abortWaitExpiry tag => exact .ofQuiet (execAbortWaitExpiry_quiet rfl (.refl s)) (execAbortWaitExpiry_keeps (.refl s))
  | lpAbortAck port => exact .ofQuiet (execLpAbortAck_quiet rfl (.refl s)) (execLpAbortAck_keeps (.refl s))
  | engAbortLimitExpiry port => exact .ofQuiet (execEngAbortLimitExpiry_quiet rfl (.refl s)) (execEngAbortLimitExpiry_keeps (.refl s))
  | resultRead r => exact .ofQuiet (execResultRead_quiet rfl (.refl s)) (execResultRead_keeps (.refl s))
  | rollcallAskRx l rx => exact .ofTimed rfl (execRollcallAskRx_apart rfl (.refl s)) (execRollcallAskRx_keeps (.refl s))
  | rollcallAnsRx l rx => exact .ofTimed rfl (execRollcallAnsRx_apart rfl (.refl s)) (execRollcallAnsRx_keeps (.refl s))
  | rollWaitExpiry key => exact .ofQuiet (execRollWaitExpiry_quiet rfl (.refl s)) (execRollWaitExpiry_keeps (.refl s))
  | clauseRunaway ctx => exact .ofQuiet (execClauseRunaway_quiet rfl (.refl s)) (execClauseRunaway_keeps (.refl s))
  | imageLoad slice => exact .ofQuiet (execImageLoad_quiet rfl (.refl s)) (execImageLoad_keeps (.refl s))
  | imageUnload slice => exact .ofQuiet (execImageUnload_quiet rfl (.refl s)) (execImageUnload_keeps (.refl s))
  | scheduleImageCurrent slice => exact .ofQuiet (execScheduleImageCurrent_quiet rfl (.refl s)) (execScheduleImageCurrent_keeps (.refl s))
  | treeImageActivate n => exact .ofTimed rfl (execTreeImageActivate_apart rfl (.refl s)) (execTreeImageActivate_keeps (.refl s))
  | treeWdataWrite w => exact exec_treeWdataWrite_framed ..
  | treeLoadCard data => exact .ofTimed rfl (execTreeLoadCard_apart rfl (.refl s)) (execTreeLoadCard_keeps (.refl s))
  | rfOffsetWrite n frames w => exact .ofQuiet (execRfOffsetWrite_quiet rfl (.refl s)) (execRfOffsetWrite_keeps (.refl s))
  | rfOffsetApply n => exact .ofQuiet (execRfOffsetApply_quiet rfl (.refl s)) (execRfOffsetApply_keeps (.refl s))
  | calSelect slice w => exact .ofQuiet (execCalSelect_quiet rfl (.refl s)) (execCalSelect_keeps (.refl s))
  | calWrite slice => exact .ofQuiet (execCalWrite_quiet rfl (.refl s)) (execCalWrite_keeps (.refl s))
  | calHold entry => exact .ofQuiet (execCalHold_quiet rfl (.refl s)) (execCalHold_keeps (.refl s))
  | calTurn entry => exact .ofQuiet (execCalTurn_quiet rfl (.refl s)) (execCalTurn_keeps (.refl s))
  | calDoneCheck entry => exact .ofQuiet (execCalDoneCheck_quiet rfl (.refl s)) (execCalDoneCheck_keeps (.refl s))
  | calRelease port => exact .ofQuiet (execCalRelease_quiet rfl (.refl s)) (execCalRelease_keeps (.refl s))
  | deadlineMiss ctx => exact .ofQuiet (execDeadlineMiss_quiet rfl (.refl s)) (execDeadlineMiss_keeps (.refl s))
  | clauseTimeout ctx => exact .ofQuiet (execClauseTimeout_quiet rfl (.refl s)) (execClauseTimeout_keeps (.refl s))
  | sleepEnd ctx => exact .ofQuiet (execSleepEnd_quiet rfl (.refl s)) (execSleepEnd_keeps (.refl s))
  | contextSwapDone ok ns => exact .ofQuiet (execContextSwapDone_quiet rfl (.refl s)) (execContextSwapDone_keeps (.refl s))
  | seqOrderSubmit slice => exact .ofQuiet (execSeqOrderSubmit_quiet rfl (.refl s)) (execSeqOrderSubmit_keeps (.refl s))
  | serveCommit slice => exact .ofQuiet (execServeCommit_quiet rfl (.refl s)) (execServeCommit_keeps (.refl s))
  | listHeaderAck slice => exact .ofQuiet (execListHeaderAck_quiet rfl (.refl s)) (execListHeaderAck_keeps (.refl s))
  | orderAbort slice page => exact .ofQuiet (execOrderAbort_quiet rfl (.refl s)) (execOrderAbort_keeps (.refl s))
  | orderFence slice page => exact .ofQuiet (execOrderFence_quiet rfl (.refl s)) (execOrderFence_keeps (.refl s))
  | orderStop slice page => exact .ofQuiet (execOrderStop_quiet rfl (.refl s)) (execOrderStop_keeps (.refl s))
  | orderStart slice page => exact .ofQuiet (execOrderStart_quiet rfl (.refl s)) (execOrderStart_keeps (.refl s))
  | orderResume slice page => exact .ofQuiet (execOrderResume_quiet rfl (.refl s)) (execOrderResume_keeps (.refl s))
  | orderFrameRx l rx => exact .ofTimed rfl (execOrderFrameRx_apart rfl (.refl s)) (execOrderFrameRx_keeps (.refl s))
  | domainRequestGo slice => exact .ofQuiet (execDomainRequestGo_quiet rfl (.refl s)) (execDomainRequestGo_keeps (.refl s))
  | fenceComplete slice => exact .ofQuiet (execFenceComplete_quiet rfl (.refl s)) (execFenceComplete_keeps (.refl s))
  | crTailWrite slice w => exact .ofQuiet (execCrTailWrite_quiet rfl (.refl s)) (execCrTailWrite_keeps (.refl s))
  | crConfigWrite slice reg w => exact .ofQuiet (execCrConfigWrite_quiet rfl (.refl s)) (execCrConfigWrite_keeps (.refl s))
  | grantRetry resource => exact .ofQuiet (execGrantRetry_quiet rfl (.refl s)) (execGrantRetry_keeps (.refl s))
  | healthRx l rx => exact .ofTimed rfl (execHealthRx_apart rfl (.refl s)) (execHealthRx_keeps (.refl s))
  | expelReqRx l rx => exact .ofTimed rfl (execExpelReqRx_apart rfl (.refl s)) (execExpelReqRx_keeps (.refl s))
  | expelGrantRx l rx => exact .ofTimed rfl (execExpelGrantRx_apart rfl (.refl s)) (execExpelGrantRx_keeps (.refl s))
  | expelDenyRx l rx => exact .ofTimed rfl (execExpelDenyRx_apart rfl (.refl s)) (execExpelDenyRx_keeps (.refl s))
  | expelLimitRx l rx => exact .ofTimed rfl (execExpelLimitRx_apart rfl (.refl s)) (execExpelLimitRx_keeps (.refl s))
  | expelNoticeRx l rx => exact .ofTimed rfl (execExpelNoticeRx_apart rfl (.refl s)) (execExpelNoticeRx_keeps (.refl s))
  | expelReadmitRx l rx => exact .ofTimed rfl (execExpelReadmitRx_apart rfl (.refl s)) (execExpelReadmitRx_keeps (.refl s))
  | sideWaitExpiry child => exact .ofQuiet (execSideWaitExpiry_quiet rfl (.refl s)) (execSideWaitExpiry_keeps (.refl s))
  | sideTakeRx l rx => exact .ofTimed rfl (execSideTakeRx_apart rfl (.refl s)) (execSideTakeRx_keeps (.refl s))
  | sideReturnDue child => exact .ofQuiet (execSideReturnDue_quiet rfl (.refl s)) (execSideReturnDue_keeps (.refl s))
  | sideReturnRx l rx => exact .ofTimed rfl (execSideReturnRx_apart rfl (.refl s)) (execSideReturnRx_keeps (.refl s))
  | censusListRx l rx => exact .ofTimed rfl (execCensusListRx_apart rfl (.refl s)) (execCensusListRx_keeps (.refl s))
  | censusFetchRx l rx => exact .ofTimed rfl (execCensusFetchRx_apart rfl (.refl s)) (execCensusFetchRx_keeps (.refl s))
  | censusResendRx l rx => exact .ofTimed rfl (execCensusResendRx_apart rfl (.refl s)) (execCensusResendRx_keeps (.refl s))
  | censusAnsRx l rx => exact .ofTimed rfl (execCensusAnsRx_apart rfl (.refl s)) (execCensusAnsRx_keeps (.refl s))
  | fetchTimeout tag index => exact .ofQuiet (execFetchTimeout_quiet rfl (.refl s)) (execFetchTimeout_keeps (.refl s))
  | censusPortTimeout port => exact .ofQuiet (execCensusPortTimeout_quiet rfl (.refl s)) (execCensusPortTimeout_keeps (.refl s))
  | joinReqRx l rx => exact .ofTimed rfl (execJoinReqRx_apart rfl (.refl s)) (execJoinReqRx_keeps (.refl s))
  | joinAckRx l rx => exact .ofTimed rfl (execJoinAckRx_apart rfl (.refl s)) (execJoinAckRx_keeps (.refl s))
  | joinAbsentRx l rx => exact .ofTimed rfl (execJoinAbsentRx_apart rfl (.refl s)) (execJoinAbsentRx_keeps (.refl s))
  | joinRefuseRx l rx => exact .ofTimed rfl (execJoinRefuseRx_apart rfl (.refl s)) (execJoinRefuseRx_keeps (.refl s))
  | teardownRx l rx => exact .ofTimed rfl (execTeardownRx_apart rfl (.refl s)) (execTeardownRx_keeps (.refl s))
  | tornSend tag => exact .ofQuiet (execTornSend_quiet rfl (.refl s)) (execTornSend_keeps (.refl s))
  | tornRx l rx => exact .ofTimed rfl (execTornRx_apart rfl (.refl s)) (execTornRx_keeps (.refl s))
  | tornWaitExpiry tag => exact .ofQuiet (execTornWaitExpiry_quiet rfl (.refl s)) (execTornWaitExpiry_keeps (.refl s))
  | domainReleaseRx l rx => exact .ofTimed rfl (execDomainReleaseRx_apart rfl (.refl s)) (execDomainReleaseRx_keeps (.refl s))
  | domainReadyRx l rx => exact .ofTimed rfl (execDomainReadyRx_apart rfl (.refl s)) (execDomainReadyRx_keeps (.refl s))
  | domainOpenRx l rx => exact .ofTimed rfl (execDomainOpenRx_apart rfl (.refl s)) (execDomainOpenRx_keeps (.refl s))
  | domainReserve tag => exact .ofQuiet (execDomainReserve_quiet rfl (.refl s)) (execDomainReserve_keeps (.refl s))
  | journalFreeze w => exact .ofQuiet (execJournalFreeze_quiet rfl (.refl s)) (execJournalFreeze_keeps (.refl s))
  | journalRead w => exact .ofQuiet (execJournalRead_quiet rfl (.refl s)) (execJournalRead_keeps (.refl s))
  | bootPhasePass n => exact .ofTimed rfl (execBootPhasePass_apart rfl (.refl s)) (execBootPhasePass_keeps (.refl s))
  | bootPhaseTimeout n => exact .ofQuiet (execBootPhaseTimeout_quiet rfl (.refl s)) (execBootPhaseTimeout_keeps (.refl s))
  | powerGood rootSel sideSel => exact .ofSound rfl rfl rfl (execPowerGood_apart rfl (.refl s)) (execPowerGood_sound (.refl s))
  | bootStageEnd e code count detail => exact .ofSound rfl rfl rfl (execBootStageEnd_apart rfl (.refl s)) (execBootStageEnd_sound (.refl s))
  | portRst port => exact .ofQuiet (execPortRst_quiet rfl (.refl s)) (execPortRst_keeps (.refl s))
  | portResetEnd port => exact .ofQuiet (execPortResetEnd_quiet rfl (.refl s)) (execPortResetEnd_keeps (.refl s))
  | gdPortRst port => exact .ofTimed rfl (execGdPortRst_apart rfl (.refl s)) (execGdPortRst_keeps (.refl s))
  | domainRst tag => exact .ofQuiet (execDomainRst_quiet rfl (.refl s)) (execDomainRst_keeps (.refl s))
  | rateRetryTimer port => exact .ofTimed rfl (execRateRetryTimer_apart rfl (.refl s)) (execRateRetryTimer_keeps (.refl s))
  | rateRetry port => exact .ofTimed rfl (execRateRetry_apart rfl (.refl s)) (execRateRetry_keeps (.refl s))
  | portEnWrite port en => exact .ofTimed rfl (execPortEnWrite_apart rfl (.refl s)) (execPortEnWrite_keeps (.refl s))
  | scrubLine st key found => exact .ofSound rfl rfl rfl (execScrubLine_apart rfl (.refl s)) (execScrubLine_sound (.refl s))
  | rollCallRound object => exact .ofQuiet (execRollCallRound_quiet rfl (.refl s)) (execRollCallRound_keeps (.refl s))
  | bulkObjectExpiry n object => exact .ofQuiet (execBulkObjectExpiry_quiet rfl (.refl s)) (execBulkObjectExpiry_keeps (.refl s))
  | chunkCacheExpiry object => exact .ofQuiet (execChunkCacheExpiry_quiet rfl (.refl s)) (execChunkCacheExpiry_keeps (.refl s))
  | cardDetect data => exact .ofQuiet (execCardDetect_quiet rfl (.refl s)) (execCardDetect_keeps (.refl s))
  | fwLoadCard data => exact .ofQuiet (execFwLoadCard_quiet rfl (.refl s)) (execFwLoadCard_keeps (.refl s))
  | fwActivate acc => exact .ofSound rfl rfl rfl (execFwActivate_apart rfl (.refl s)) (execFwActivate_sound (.refl s))
  | fwctlRx l rx => exact .ofSound rfl rfl rfl (execFwctlRx_apart rfl (.refl s)) (execFwctlRx_sound (.refl s))
  | fwCommit acc => exact .ofQuiet (execFwCommit_quiet rfl (.refl s)) (execFwCommit_keeps (.refl s))
  | fwRevert acc => exact .ofSound rfl rfl rfl (execFwRevert_apart rfl (.refl s)) (execFwRevert_sound (.refl s))
  | keyswChange isOpen => exact .ofSealed rfl (execKeyswChange_quiet rfl (.refl s)) (execKeyswChange_sound (.refl s))
  | ownerLockWrite acc w => exact exec_ownerLockWrite_framed ..
  | fuseBlow acc => exact .ofQuiet (execFuseBlow_quiet rfl (.refl s)) (execFuseBlow_keeps (.refl s))
  | errlogPop n => exact .ofQuiet (execErrlogPop_quiet rfl (.refl s)) (execErrlogPop_keeps (.refl s))
  | errlogClear n => exact .ofQuiet (execErrlogClear_quiet rfl (.refl s)) (execErrlogClear_keeps (.refl s))
  | debugSnapshot slice w => exact .ofQuiet (execDebugSnapshot_quiet rfl (.refl s)) (execDebugSnapshot_keeps (.refl s))
  | lowWordLatchRead n acc offset => exact .ofQuiet (execLowWordLatchRead_quiet rfl (.refl s)) (execLowWordLatchRead_keeps (.refl s))
  | registerWrite n acc offset w => exact .ofTimed rfl (execRegisterWrite_apart rfl (.refl s)) (execRegisterWrite_keeps (.refl s))
  | softSnapshot w => exact .ofQuiet (execSoftSnapshot_quiet rfl (.refl s)) (execSoftSnapshot_keeps (.refl s))
  | dlatSnapshot w => exact .ofQuiet (execDlatSnapshot_quiet rfl (.refl s)) (execDlatSnapshot_keeps (.refl s))
  | ringBypassWrite v => exact .ofQuiet (execRingBypassWrite_quiet rfl (.refl s)) (execRingBypassWrite_keeps (.refl s))
  | gdAbortGo w => exact .ofQuiet (execGdAbortGo_quiet rfl (.refl s)) (execGdAbortGo_keeps (.refl s))
  | gdOrderGo w => exact .ofTimed rfl (execGdOrderGo_apart rfl (.refl s)) (execGdOrderGo_keeps (.refl s))
  | mgmtSpiTransaction offset op => exact exec_mgmtSpiTransaction_framed ..
  | resetNRelease rootSel sideSel => exact .ofQuiet (execResetNRelease_quiet rfl (.refl s)) (execResetNRelease_keeps (.refl s))
  | thermNAlarm celsius => exact .ofQuiet (execThermNAlarm_quiet rfl (.refl s)) (execThermNAlarm_keeps (.refl s))
  | nwWriteAck error => exact .ofQuiet (execNwWriteAck_quiet rfl (.refl s)) (execNwWriteAck_keeps (.refl s))
  | nwReadResponse data error => exact .ofQuiet (execNwReadResponse_quiet rfl (.refl s)) (execNwReadResponse_keeps (.refl s))
  | lpCmdTaken port stamp => exact .ofQuiet (execLpCmdTaken_quiet rfl (.refl s)) (execLpCmdTaken_keeps (.refl s))
  | childPositionAbsent child => exact .ofQuiet (execChildPositionAbsent_quiet rfl (.refl s)) (execChildPositionAbsent_keeps (.refl s))
  | refPcsLockLoss n => exact .ofQuiet (execRefPcsLockLoss_quiet rfl (.refl s)) (execRefPcsLockLoss_keeps (.refl s))
  | refFreqMeasure s0 deviationPpb => exact .ofQuiet (execRefFreqMeasure_quiet rfl (.refl s)) (execRefFreqMeasure_keeps (.refl s))
  | fwSlotWriteDone crcOk signatureOk writeOk => exact .ofQuiet (execFwSlotWriteDone_quiet rfl (.refl s)) (execFwSlotWriteDone_keeps (.refl s))
  | setCommit => exact .ofGuards rfl rfl (execSetCommit_apart rfl (.refl s)) (execSetCommit_guards (.refl s))
  | takeoverWaitExpiry => exact .ofTimed rfl (execTakeoverWaitExpiry_apart rfl (.refl s)) (execTakeoverWaitExpiry_keeps (.refl s))
  | filteredOffset => exact .ofGuards rfl rfl (execFilteredOffset_apart rfl (.refl s)) (execFilteredOffset_guards (.refl s))
  | firstRefWaitExpiry => exact .ofGuards rfl rfl (execFirstRefWaitExpiry_apart rfl (.refl s)) (execFirstRefWaitExpiry_guards (.refl s))
  | outputFirstAlign => exact .ofQuiet (execOutputFirstAlign_quiet rfl (.refl s)) (execOutputFirstAlign_keeps (.refl s))
  | outRealign => exact .ofQuiet (execOutRealign_quiet rfl (.refl s)) (execOutRealign_keeps (.refl s))
  | outRealignApply => exact .ofQuiet (execOutRealignApply_quiet rfl (.refl s)) (execOutRealignApply_keeps (.refl s))
  | rootClaim => exact .ofTimed rfl (execRootClaim_apart rfl (.refl s)) (execRootClaim_keeps (.refl s))
  | tbusSyncSend => exact .ofQuiet (execTbusSyncSend_quiet rfl (.refl s)) (execTbusSyncSend_keeps (.refl s))
  | recal => exact .ofQuiet (execRecal_quiet rfl (.refl s)) (execRecal_keeps (.refl s))
  | bgRecal => exact .ofQuiet (execBgRecal_quiet rfl (.refl s)) (execBgRecal_keeps (.refl s))
  | pmLendEvent => exact .ofQuiet (execPmLendEvent_quiet rfl (.refl s)) (execPmLendEvent_keeps (.refl s))
  | marginClear => exact .ofQuiet (execMarginClear_quiet rfl (.refl s)) (execMarginClear_keeps (.refl s))
  | resultWaitExpiry => exact .ofQuiet (execResultWaitExpiry_quiet rfl (.refl s)) (execResultWaitExpiry_keeps (.refl s))
  | policyCommit => exact .ofQuiet (execPolicyCommit_quiet rfl (.refl s)) (execPolicyCommit_keeps (.refl s))
  | policyLoad => exact .ofQuiet (execPolicyLoad_quiet rfl (.refl s)) (execPolicyLoad_keeps (.refl s))
  | clauseLaunch => exact .ofQuiet (execClauseLaunch_quiet rfl (.refl s)) (execClauseLaunch_keeps (.refl s))
  | clauseArrive => exact .ofQuiet (execClauseArrive_quiet rfl (.refl s)) (execClauseArrive_keeps (.refl s))
  | clauseWait => exact .ofQuiet (execClauseWait_quiet rfl (.refl s)) (execClauseWait_keeps (.refl s))
  | clauseReduce => exact .ofQuiet (execClauseReduce_quiet rfl (.refl s)) (execClauseReduce_keeps (.refl s))
  | clauseScan => exact .ofQuiet (execClauseScan_quiet rfl (.refl s)) (execClauseScan_keeps (.refl s))
  | clauseAlloc => exact .ofQuiet (execClauseAlloc_quiet rfl (.refl s)) (execClauseAlloc_keeps (.refl s))
  | clauseBranch => exact .ofQuiet (execClauseBranch_quiet rfl (.refl s)) (execClauseBranch_keeps (.refl s))
  | clauseMark => exact .ofQuiet (execClauseMark_quiet rfl (.refl s)) (execClauseMark_keeps (.refl s))
  | clauseYield => exact .ofQuiet (execClauseYield_quiet rfl (.refl s)) (execClauseYield_keeps (.refl s))
  | clauseAbort => exact .ofQuiet (execClauseAbort_quiet rfl (.refl s)) (execClauseAbort_keeps (.refl s))
  | clauseEnd => exact .ofQuiet (execClauseEnd_quiet rfl (.refl s)) (execClauseEnd_keeps (.refl s))
  | loadBuf => exact .ofTimed rfl (execLoadBuf_apart rfl (.refl s)) (execLoadBuf_keeps (.refl s))
  | contextSwap => exact .ofQuiet (execContextSwap_quiet rfl (.refl s)) (execContextSwap_keeps (.refl s))
  | sliceCreate => exact .ofQuiet (execSliceCreate_quiet rfl (.refl s)) (execSliceCreate_keeps (.refl s))
  | sliceReset => exact .ofQuiet (execSliceReset_quiet rfl (.refl s)) (execSliceReset_keeps (.refl s))
  | sliceDestroy => exact .ofQuiet (execSliceDestroy_quiet rfl (.refl s)) (execSliceDestroy_keeps (.refl s))
  | sliceBind => exact .ofQuiet (execSliceBind_quiet rfl (.refl s)) (execSliceBind_keeps (.refl s))
  | sliceUnbind => exact .ofQuiet (execSliceUnbind_quiet rfl (.refl s)) (execSliceUnbind_keeps (.refl s))
  | filterClr => exact .ofQuiet (execFilterClr_quiet rfl (.refl s)) (execFilterClr_keeps (.refl s))
  | conflictPop => exact .ofQuiet (execConflictPop_quiet rfl (.refl s)) (execConflictPop_keeps (.refl s))
  | healthDecay => exact .ofQuiet (execHealthDecay_quiet rfl (.refl s)) (execHealthDecay_keeps (.refl s))
  | expelWindowEnd => exact .ofQuiet (execExpelWindowEnd_quiet rfl (.refl s)) (execExpelWindowEnd_keeps (.refl s))
  | censusSlow => exact .ofQuiet (execCensusSlow_quiet rfl (.refl s)) (execCensusSlow_keeps (.refl s))
  | journalTriggerStop => exact .ofQuiet (execJournalTriggerStop_quiet rfl (.refl s)) (execJournalTriggerStop_keeps (.refl s))
  | journalRetrain => exact .ofTimed rfl (execJournalRetrain_apart rfl (.refl s)) (execJournalRetrain_keeps (.refl s))
  | dieResetRelease => exact .ofQuiet (execDieResetRelease_quiet rfl (.refl s)) (execDieResetRelease_keeps (.refl s))
  | unitRst => exact .ofQuiet (execUnitRst_quiet rfl (.refl s)) (execUnitRst_keeps (.refl s))
  | chipRst => exact .ofSound rfl rfl rfl (execChipRst_apart rfl (.refl s)) (execChipRst_sound (.refl s))
  | resetNAssert => exact .ofSound rfl rfl rfl (execResetNAssert_apart rfl (.refl s)) (execResetNAssert_sound (.refl s))
  | watchdogExpiry => exact .ofSound rfl rfl rfl (execWatchdogExpiry_apart rfl (.refl s)) (execWatchdogExpiry_sound (.refl s))
  | understudyBooted => exact .ofQuiet (execUnderstudyBooted_quiet rfl (.refl s)) (execUnderstudyBooted_keeps (.refl s))
  | understudyBootTimeout => exact .ofQuiet (execUnderstudyBootTimeout_quiet rfl (.refl s)) (execUnderstudyBootTimeout_keeps (.refl s))
  | activateCensusWait => exact .ofSound rfl rfl rfl (execActivateCensusWait_apart rfl (.refl s)) (execActivateCensusWait_sound (.refl s))
  | commitWaitExpiry => exact .ofQuiet (execCommitWaitExpiry_quiet rfl (.refl s)) (execCommitWaitExpiry_keeps (.refl s))
  | heartbeatMiss => exact .ofSound rfl rfl rfl (execHeartbeatMiss_apart rfl (.refl s)) (execHeartbeatMiss_sound (.refl s))
  | presencePress => exact .ofSealed rfl (execPresencePress_quiet rfl (.refl s)) (execPresencePress_sound (.refl s))
  | tamperLoopBreak => exact .ofSealed rfl (execTamperLoopBreak_quiet rfl (.refl s)) (execTamperLoopBreak_sound (.refl s))
  | tamperClear => exact .ofSealed rfl (execTamperClear_quiet rfl (.refl s)) (execTamperClear_sound (.refl s))
  | sealArmedExpiry => exact .ofSealed rfl (execSealArmedExpiry_quiet rfl (.refl s)) (execSealArmedExpiry_sound (.refl s))
  | sealMaxExpiry => exact .ofSealed rfl (execSealMaxExpiry_quiet rfl (.refl s)) (execSealMaxExpiry_sound (.refl s))
  | irqEventHandshake => exact .ofQuiet (execIrqEventHandshake_quiet rfl (.refl s)) (execIrqEventHandshake_keeps (.refl s))
  | healthClear => exact .ofQuiet (execHealthClear_quiet rfl (.refl s)) (execHealthClear_keeps (.refl s))
  | dieResetAssert => exact .ofQuiet (execDieResetAssert_quiet rfl (.refl s)) (execDieResetAssert_keeps (.refl s))
  | tdPorAssert => exact .ofMoved rfl rfl (execTdPorAssert_apart rfl (.refl s)) (State.timeDomainPowerOn_kept .tsu s) (execTdPorAssert_formed (.refl s))
  | powerGoodFall => exact .ofSound rfl rfl rfl (execPowerGoodFall_apart rfl (.refl s)) (execPowerGoodFall_sound (.refl s))

theorem Framed.of_exec {c : Instr} {s t : State} (h : exec c s = .next t) : Framed c s t :=
  State.after_of_exec h ▸ exec_framed c s

/-! ## A step -/

theorem step_of_empty {s : State} (h : s.pending = []) : step s = .next s := by simp only [step, h]

theorem step_of_cons {s : State} {c : Instr} {rest : List Instr} (h : s.pending = c :: rest) :
    step s = exec c { s with pending := rest } := by simp only [step, h]

/-- A step idles, or runs a command on the state with the rest of the queue. -/
theorem step_cases {s t : State} (h : step s = .next t) :
    t = s ∨ ∃ c rest, s.pending = c :: rest ∧ Framed c { s with pending := rest } t := by
  cases hq : s.pending with
  | nil => rw [step_of_empty hq] at h; exact .inl (Host.Outcome.next.inj h).symm
  | cons c rest => rw [step_of_cons hq] at h; exact .inr ⟨c, rest, rfl, .of_exec h⟩

/-! ## The statements about every command and every step -/

/-- Settles O4: every command is `Formed`. -/
theorem addendStaysClamped : Obligations.AddendStaysClamped := by
  unfold Obligations.AddendStaysClamped
  intro s t hclamped hstep
  obtain rfl | ⟨c, rest, -, hframe⟩ := step_cases hstep
  · exact hclamped
  · exact hframe.formed.clamped hclamped

/-- Settles O5: every command is `Formed`. -/
theorem bufferStaysWellFormed : Obligations.BufferStaysWellFormed := by
  unfold Obligations.BufferStaysWellFormed
  intro s t hwf hstep
  obtain rfl | ⟨c, rest, -, hframe⟩ := step_cases hstep
  · exact hwf
  · exact hframe.formed.buf hwf

/-- Settles O7: the counter and its bits are among the clocks that `Framed` names. -/
theorem countersMoveOnlyByName : Obligations.CountersMoveOnlyByName := by
  unfold Obligations.CountersMoveOnlyByName
  intro c s t hmoves hexec n
  have hclocks := (Framed.of_exec hexec).clocks hmoves n
  simp only [TimeDom.clocks, Prod.mk.injEq] at hclocks
  obtain ⟨hcounter, hstandalone, hpll, haon⟩ := hclocks
  exact ⟨hcounter, haon, hpll, hstandalone⟩

/-- Settles O8: the custody state and the pending-image buffer are among what `Gd.kept` names. -/
theorem custodyMovesOnlyByName : Obligations.CustodyMovesOnlyByName := by
  unfold Obligations.CustodyMovesOnlyByName
  intro c s t hcust hexec
  have hkept := (Framed.of_exec hexec).kept hcust
  simp only [Gd.kept, Prod.mk.injEq] at hkept
  obtain ⟨⟨hseal, hlock, hsealAt, hkeysw, hloop, hloopAt⟩, -, hbuf, -⟩ := hkept
  exact ⟨hseal, hlock, hsealAt, hkeysw, hloop, hloopAt, hbuf⟩

/-- Settles O9: a change of the lock meets the test of the seal in `State.gdWrite`, and no command outside the list
moves it. -/
theorem ownerLockNeedsOpenSeal : Obligations.OwnerLockNeedsOpenSeal := by
  unfold Obligations.OwnerLockNeedsOpenSeal
  intro c s t hexec hne
  have hframe := Framed.of_exec hexec
  exact ⟨hframe.lock hne, Classical.byContradiction fun hfalse => hne (hframe.ownerLock (Bool.eq_false_iff.mpr hfalse))⟩

/-- Settles O10: every command is `Apart`, at the part that `Instr.part` names. -/
theorem commandActsAtOnePart : Obligations.CommandActsAtOnePart := by
  unfold Obligations.CommandActsAtOnePart
  intro c s t hexec
  have hapart := (Framed.of_exec hexec).apart
  exact ⟨fun hpart => (hpart ▸ hapart).gd, fun hpart => (hpart ▸ hapart).tsu⟩

/-- Settles O11: a command outside the list is `Quiet` at its part and leaves the other part. -/
theorem timeDomainMovesOnlyByName : Obligations.TimeDomainMovesOnlyByName := by
  unfold Obligations.TimeDomainMovesOnlyByName
  intro c s t htimed hexec
  have htime := ((Framed.of_exec hexec).quiet htimed).time_eq
  exact ⟨htime .tsu, htime .gd⟩

/-- Settles O3: every command answers a next state and is `Formed`. -/
theorem stepKeepsQueue : Obligations.StepKeepsQueue := by
  unfold Obligations.StepKeepsQueue
  intro c rest s hqueue
  rw [step_of_cons hqueue]
  obtain ⟨t, ht⟩ := exec_answers c { s with pending := rest }
  exact ⟨t, ht, (Framed.of_exec ht).formed.pending⟩

/-- Settles O6: every command is `Formed`. -/
theorem fusesNeverChange : Obligations.FusesNeverChange := by
  unfold Obligations.FusesNeverChange
  intro s t hstep
  obtain rfl | ⟨c, rest, -, hframe⟩ := step_cases hstep
  · exact ⟨rfl, rfl, rfl, rfl⟩
  · have hfuses := hframe.formed.fuses
    simp only [Gd.fuses, Prod.mk.injEq] at hfuses
    exact hfuses

/-- Settles O2: the two branches of a step. -/
theorem stepRunsFront : Obligations.StepRunsFront := by
  unfold Obligations.StepRunsFront
  exact ⟨fun _ _ _ => step_of_cons rfl, fun _ => step_of_empty⟩

end Sys2Proof.Machine
end

section
/-! The order of contributions (R260): the key by which lanes and pairs are compared tells values apart, so a fold by it
does not depend on the order of its inputs. -/

namespace Sys2Proof

/-! ## Floating values are told apart by their key -/

/-- A magnitude with gradual underflow: fraction `f` below the hidden bit `M`, exponent field `e`. -/
def gradual (M e f : Nat) : Nat := if e = 0 then f else (M + f) * 2 ^ (e - 1)

theorem gradual_lt {M e f : Nat} (hf : f < M) : gradual M e f < M * 2 ^ e := by
  unfold gradual
  cases e with
  | zero => simpa using hf
  | succ k =>
    have hlt : (M + f) * 2 ^ k < (M + M) * 2 ^ k := (Nat.mul_lt_mul_right (Nat.two_pow_pos k)).mpr (by omega)
    simp only [Nat.succ_ne_zero, if_false, Nat.add_sub_cancel, Nat.pow_succ]
    calc (M + f) * 2 ^ k < (M + M) * 2 ^ k := hlt
      _ = M * (2 ^ k * 2) := by rw [← Nat.mul_two, Nat.mul_assoc, Nat.mul_comm 2]

theorem le_gradual {M e f : Nat} (he : e ≠ 0) : M * 2 ^ (e - 1) ≤ gradual M e f := by
  rw [gradual, if_neg he]
  exact Nat.mul_le_mul_right _ (Nat.le_add_right M f)

theorem gradual_lt_gradual {M e f e' f' : Nat} (hf : f < M) (he : e < e') : gradual M e f < gradual M e' f' :=
  calc gradual M e f < M * 2 ^ e := gradual_lt hf
    _ ≤ M * 2 ^ (e' - 1) := Nat.mul_le_mul_left M (Nat.pow_le_pow_right (by decide) (by omega))
    _ ≤ gradual M e' f' := le_gradual (by omega)

theorem gradual_inj {M e f e' f' : Nat} (hf : f < M) (hf' : f' < M) (h : gradual M e f = gradual M e' f') :
    e = e' ∧ f = f' := by
  obtain hlt | rfl | hgt := Nat.lt_trichotomy e e'
  · exact absurd h (Nat.ne_of_lt (gradual_lt_gradual hf hlt))
  · refine ⟨rfl, ?_⟩
    unfold gradual at h
    split at h
    · exact h
    · have := Nat.eq_of_mul_eq_mul_right (Nat.two_pow_pos _) h
      omega
  · exact absurd h.symm (Nat.ne_of_lt (gradual_lt_gradual hf' hgt))

/-- A value that is not NaN and stands in a binary32. -/
structure Fp.Small (a : Fp) : Prop where
  nan : a.nan = false
  mag : a.mag < 2 ^ 277
  inf : a.inf = true → a.mag = 0

/-- The unsigned part of a key. -/
def Fp.keyMag (a : Fp) : Nat := if a.inf then 2 ^ 300 else 2 * a.mag

theorem Fp.key_eq (a : Fp) : a.key = if a.neg then -(a.keyMag : Int) - 1 else a.keyMag := by
  unfold Fp.key Fp.keyMag
  cases a.inf <;> push_cast <;> rfl

theorem Fp.two_mul_mag_lt {a : Fp} (ha : a.Small) : 2 * a.mag < 2 ^ 300 :=
  calc 2 * a.mag < 2 * 2 ^ 277 := (Nat.mul_lt_mul_left (by decide)).mpr ha.mag
    _ = 2 ^ (277 + 1) := (Nat.pow_succ' ..).symm
    _ ≤ 2 ^ 300 := Nat.pow_le_pow_right (by decide) (by decide)

theorem Fp.keyMag_inj {a b : Fp} (ha : a.Small) (hb : b.Small) (h : a.keyMag = b.keyMag) : a.inf = b.inf ∧ a.mag = b.mag := by
  have hlta := Fp.two_mul_mag_lt ha
  have hltb := Fp.two_mul_mag_lt hb
  unfold Fp.keyMag at h
  generalize (2 : Nat) ^ 300 = top at h hlta hltb
  cases hai : a.inf <;> cases hbi : b.inf <;> simp only [hai, hbi, Bool.false_eq_true, if_false, if_true] at h
  · exact ⟨rfl, by omega⟩
  · omega
  · omega
  · exact ⟨rfl, (ha.inf hai).trans (hb.inf hbi).symm⟩

theorem Fp.key_inj {a b : Fp} (ha : a.Small) (hb : b.Small) (h : a.key = b.key) : a = b := by
  rw [Fp.key_eq, Fp.key_eq] at h
  have hsplit : a.neg = b.neg ∧ a.keyMag = b.keyMag := by
    cases hna : a.neg <;> cases hnb : b.neg <;> simp only [hna, hnb, Bool.false_eq_true, if_false, if_true] at h
    · exact ⟨rfl, by omega⟩
    · omega
    · omega
    · exact ⟨rfl, by omega⟩
  obtain ⟨hneg, hmag⟩ := hsplit
  obtain ⟨hinf, hmag⟩ := Fp.keyMag_inj ha hb hmag
  obtain ⟨an, ai, as, am⟩ := a
  obtain ⟨bn, bi, bs, bm⟩ := b
  simp only [Fp.mk.injEq]
  exact ⟨ha.nan.trans hb.nan.symm, hinf, hneg, hmag⟩

/-- A sign, an exponent and a fraction field make up a word. -/
theorem word32_eq_fields {v : Nat} (h : v < 2 ^ 32) :
    v = b2n (bitOf v 31) * 2147483648 + bitsOf v 30 23 * 8388608 + bitsOf v 22 0 := by
  simp only [b2n, bitOf, bitsOf, Nat.testBit_eq_decide_div_mod_eq, Nat.shiftRight_eq_div_pow, decide_eq_true_eq]
  split <;> omega

theorem word32_inj {v w : Nat} (hv : v < 2 ^ 32) (hw : w < 2 ^ 32) (hsign : bitOf v 31 = bitOf w 31)
    (hexp : bitsOf v 30 23 = bitsOf w 30 23) (hfrac : bitsOf v 22 0 = bitsOf w 22 0) : v = w := by
  rw [word32_eq_fields hv, word32_eq_fields hw, hsign, hexp, hfrac]

theorem bitsOf_lt (v hi lo : Nat) : bitsOf v hi lo < 2 ^ (hi + 1 - lo) := Nat.mod_lt _ (Nat.two_pow_pos _)

/-- A binary32 word is NaN, an infinity or a magnitude with gradual underflow. -/
theorem Fp.ofBits_eq (v : Nat) : Fp.ofBits v =
    if bitsOf v 30 23 = 255 then (if bitsOf v 22 0 = 0 then ⟨false, true, bitOf v 31, 0⟩ else Fp.nanV)
    else ⟨false, false, bitOf v 31, gradual 8388608 (bitsOf v 30 23) (bitsOf v 22 0)⟩ := by
  simp only [Fp.ofBits, gradual]
  split
  · rfl
  · split <;> rfl

theorem Fp.ofBits_nan (v : Nat) : (Fp.ofBits v).nan = decide (bitsOf v 30 23 = 255 ∧ bitsOf v 22 0 ≠ 0) := by
  rw [Fp.ofBits_eq]
  split
  · split <;> simp [*, Fp.nanV]
  · simp [*]

theorem Fp.ofBits_inj {v w : Nat} (hv : v < 2 ^ 32) (hw : w < 2 ^ 32) (hnan : (Fp.ofBits v).nan = false)
    (h : Fp.ofBits v = Fp.ofBits w) : v = w := by
  have hnan' : (Fp.ofBits w).nan = false := h ▸ hnan
  rw [Fp.ofBits_nan, decide_eq_false_iff_not] at hnan hnan'
  rw [Fp.ofBits_eq, Fp.ofBits_eq] at h
  by_cases hev : bitsOf v 30 23 = 255 <;> by_cases hew : bitsOf w 30 23 = 255
  · have hfv : bitsOf v 22 0 = 0 := Classical.byContradiction fun hne => hnan ⟨hev, hne⟩
    have hfw : bitsOf w 22 0 = 0 := Classical.byContradiction fun hne => hnan' ⟨hew, hne⟩
    simp only [if_pos, hev, hew, hfv, hfw, Fp.mk.injEq] at h
    exact word32_inj hv hw h.2.2.1 (hev.trans hew.symm) (hfv.trans hfw.symm)
  · have hfv : bitsOf v 22 0 = 0 := Classical.byContradiction fun hne => hnan ⟨hev, hne⟩
    simp [hev, hew, hfv] at h
  · have hfw : bitsOf w 22 0 = 0 := Classical.byContradiction fun hne => hnan' ⟨hew, hne⟩
    simp [hev, hew, hfw] at h
  · rw [if_neg hev, if_neg hew, Fp.mk.injEq] at h
    obtain ⟨-, -, hsign, hmag⟩ := h
    obtain ⟨hexp, hfrac⟩ := gradual_inj (bitsOf_lt v 22 0) (bitsOf_lt w 22 0) hmag
    exact word32_inj hv hw hsign hexp hfrac

theorem gradual_lt_two_pow {k e f n : Nat} (hf : f < 2 ^ k) (hn : k + e ≤ n) : gradual (2 ^ k) e f < 2 ^ n :=
  calc gradual (2 ^ k) e f < 2 ^ k * 2 ^ e := gradual_lt hf
    _ = 2 ^ (k + e) := (Nat.pow_add ..).symm
    _ ≤ 2 ^ n := Nat.pow_le_pow_right (by decide) hn

theorem Fp.ofBits_small {v : Nat} (hnan : (Fp.ofBits v).nan = false) : (Fp.ofBits v).Small := by
  have hfield : ¬ (bitsOf v 30 23 = 255 ∧ bitsOf v 22 0 ≠ 0) := by
    rwa [Fp.ofBits_nan, decide_eq_false_iff_not] at hnan
  by_cases hexp : bitsOf v 30 23 = 255
  · have hfrac : bitsOf v 22 0 = 0 := Classical.byContradiction fun hne => hfield ⟨hexp, hne⟩
    rw [Fp.ofBits_eq, if_pos hexp, if_pos hfrac]
    exact ⟨rfl, Nat.two_pow_pos _, fun _ => rfl⟩
  · have hlt : bitsOf v 30 23 < 256 := bitsOf_lt v 30 23
    rw [Fp.ofBits_eq, if_neg hexp]
    exact ⟨rfl, gradual_lt_two_pow (k := 23) (bitsOf_lt v 22 0) (by omega), nofun⟩

/-- A byte of an 8-bit format, as its fields: E4M3 and E5M2 are gradual magnitudes in larger units. -/
theorem toFp_e4m3 {fmt v : Nat} (h : fmtOf fmt = 5) : toFp fmt v =
    if bitsOf v 6 3 = 15 ∧ v % 8 = 7 then Fp.nanV
    else ⟨false, false, bitOf v 7, gradual 8 (bitsOf v 6 3) (v % 8) * 2 ^ 140⟩ := by
  have hraw : toFp fmt v = if bitsOf v 6 3 = 15 ∧ v % 8 = 7 then Fp.nanV else ⟨false, false, bitOf v 7,
      if bitsOf v 6 3 = 0 then v % 8 * 2 ^ 140 else (8 + v % 8) * 2 ^ (bitsOf v 6 3 + 139)⟩ := by
    unfold toFp; rw [h]; rfl
  rw [hraw, gradual]
  split
  · rfl
  · split
    · rfl
    · next hexp => rw [Nat.mul_assoc, ← Nat.pow_add, show bitsOf v 6 3 + 139 = bitsOf v 6 3 - 1 + 140 by omega]

theorem toFp_e5m2 {fmt v : Nat} (h : fmtOf fmt = 6) : toFp fmt v =
    if bitsOf v 6 2 = 31 then (if v % 4 = 0 then ⟨false, true, bitOf v 7, 0⟩ else Fp.nanV)
    else ⟨false, false, bitOf v 7, gradual 4 (bitsOf v 6 2) (v % 4) * 2 ^ 133⟩ := by
  have hraw : toFp fmt v = if bitsOf v 6 2 = 31 then (if v % 4 = 0 then ⟨false, true, bitOf v 7, 0⟩ else Fp.nanV)
      else ⟨false, false, bitOf v 7,
        if bitsOf v 6 2 = 0 then v % 4 * 2 ^ 133 else (4 + v % 4) * 2 ^ (bitsOf v 6 2 + 132)⟩ := by
    unfold toFp; rw [h]; rfl
  rw [hraw, gradual]
  split
  · rfl
  · split
    · rfl
    · next hexp => rw [Nat.mul_assoc, ← Nat.pow_add, show bitsOf v 6 2 + 132 = bitsOf v 6 2 - 1 + 133 by omega]

theorem toFp_binary32 {fmt : Nat} (v : Nat) (h : fmtOf fmt = 3) : toFp fmt v = Fp.ofBits v := by
  unfold toFp; rw [h]; rfl

theorem toFp_bfloat16 {fmt : Nat} (v : Nat) (h : fmtOf fmt = 4) : toFp fmt v = Fp.ofBits (v * 65536) := by
  unfold toFp; rw [h]; rfl

theorem isFloat_iff (fmt : Nat) :
    isFloat fmt = true ↔ fmtOf fmt = 3 ∨ fmtOf fmt = 4 ∨ fmtOf fmt = 5 ∨ fmtOf fmt = 6 := by
  simp only [isFloat, Bool.and_eq_true, decide_eq_true_eq]
  omega

theorem scaled_lt {M e f k n : Nat} (h : gradual M e f < 2 ^ k) (hn : k + n ≤ 277) : gradual M e f * 2 ^ n < 2 ^ 277 :=
  calc gradual M e f * 2 ^ n < 2 ^ k * 2 ^ n := (Nat.mul_lt_mul_right (Nat.two_pow_pos n)).mpr h
    _ = 2 ^ (k + n) := (Nat.pow_add ..).symm
    _ ≤ 2 ^ 277 := Nat.pow_le_pow_right (by decide) hn

theorem toFp_small {fmt v : Nat} (hfloat : isFloat fmt = true) (hnan : (toFp fmt v).nan = false) : (toFp fmt v).Small := by
  obtain h | h | h | h := (isFloat_iff fmt).mp hfloat
  · rw [toFp_binary32 v h] at hnan ⊢
    exact Fp.ofBits_small hnan
  · rw [toFp_bfloat16 v h] at hnan ⊢
    exact Fp.ofBits_small hnan
  · rw [toFp_e4m3 h] at hnan ⊢
    split at hnan
    · exact absurd hnan (by decide)
    next hfield =>
      rw [if_neg hfield]
      have hexp : bitsOf v 6 3 < 16 := bitsOf_lt v 6 3
      exact ⟨rfl, scaled_lt (gradual_lt_two_pow (k := 3) (n := 18) (Nat.mod_lt v (by decide)) (by omega)) (by decide), nofun⟩
  · rw [toFp_e5m2 h] at hnan ⊢
    split at hnan
    next hexp =>
      rw [if_pos hexp]
      split at hnan
      next hfrac => rw [if_pos hfrac]; exact ⟨rfl, Nat.two_pow_pos _, fun _ => rfl⟩
      next => exact absurd hnan (by decide)
    next hfield =>
      rw [if_neg hfield]
      have hexp : bitsOf v 6 2 < 32 := bitsOf_lt v 6 2
      exact ⟨rfl, scaled_lt (gradual_lt_two_pow (k := 2) (n := 33) (Nat.mod_lt v (by decide)) (by omega)) (by decide), nofun⟩

/-- The fields of a byte make it up. -/
theorem byte_e4m3_inj {v w : Nat} (hv : v < 256) (hw : w < 256) (hsign : bitOf v 7 = bitOf w 7)
    (hexp : bitsOf v 6 3 = bitsOf w 6 3) (hfrac : v % 8 = w % 8) : v = w := by
  simp only [bitOf, bitsOf, Nat.testBit_eq_decide_div_mod_eq, Nat.shiftRight_eq_div_pow, decide_eq_decide] at hsign hexp
  omega

theorem byte_e5m2_inj {v w : Nat} (hv : v < 256) (hw : w < 256) (hsign : bitOf v 7 = bitOf w 7)
    (hexp : bitsOf v 6 2 = bitsOf w 6 2) (hfrac : v % 4 = w % 4) : v = w := by
  simp only [bitOf, bitsOf, Nat.testBit_eq_decide_div_mod_eq, Nat.shiftRight_eq_div_pow, decide_eq_decide] at hsign hexp
  omega

theorem toFp_inj {fmt v w : Nat} (hfloat : isFloat fmt = true) (hv : v < 256 ^ laneBytes fmt) (hw : w < 256 ^ laneBytes fmt)
    (hnan : (toFp fmt v).nan = false) (h : toFp fmt v = toFp fmt w) : v = w := by
  obtain hf | hf | hf | hf := (isFloat_iff fmt).mp hfloat <;> simp only [laneBytes, hf] at hv hw
  · rw [toFp_binary32 v hf] at hnan h
    rw [toFp_binary32 w hf] at h
    exact Fp.ofBits_inj (by omega) (by omega) hnan h
  · rw [toFp_bfloat16 v hf] at hnan h
    rw [toFp_bfloat16 w hf] at h
    have := Fp.ofBits_inj (by omega) (by omega) hnan h
    omega
  · have hnan' : (toFp fmt w).nan = false := h ▸ hnan
    rw [toFp_e4m3 hf] at hnan hnan'
    rw [toFp_e4m3 hf, toFp_e4m3 hf] at h
    split at hnan
    · exact absurd hnan (by decide)
    split at hnan'
    · exact absurd hnan' (by decide)
    next hfv hfw =>
      rw [if_neg hfv, if_neg hfw, Fp.mk.injEq] at h
      obtain ⟨-, -, hsign, hmag⟩ := h
      obtain ⟨hexp, hfrac⟩ := gradual_inj (Nat.mod_lt v (by decide)) (Nat.mod_lt w (by decide))
        (Nat.eq_of_mul_eq_mul_right (Nat.two_pow_pos _) hmag)
      exact byte_e4m3_inj hv hw hsign hexp hfrac
  · have hnan' : (toFp fmt w).nan = false := h ▸ hnan
    rw [toFp_e5m2 hf] at hnan hnan'
    rw [toFp_e5m2 hf, toFp_e5m2 hf] at h
    by_cases hev : bitsOf v 6 2 = 31 <;> by_cases hew : bitsOf w 6 2 = 31
    · simp only [if_pos hev, if_pos hew] at hnan hnan' h
      split at hnan
      case isFalse => exact absurd hnan (by decide)
      split at hnan'
      case isFalse => exact absurd hnan' (by decide)
      next hfv hfw =>
        rw [if_pos hfv, if_pos hfw, Fp.mk.injEq] at h
        exact byte_e5m2_inj hv hw h.2.2.1 (hev.trans hew.symm) (hfv.trans hfw.symm)
    · rw [if_pos hev] at hnan h
      rw [if_neg hew] at h
      split at hnan
      next hfv => rw [if_pos hfv, Fp.mk.injEq] at h; exact absurd h.2.1 (by decide)
      next => exact absurd hnan (by decide)
    · rw [if_pos hew] at hnan' h
      rw [if_neg hev] at h
      split at hnan'
      next hfw => rw [if_pos hfw, Fp.mk.injEq] at h; exact absurd h.2.1 (by decide)
      next => exact absurd hnan' (by decide)
    · rw [if_neg hev, if_neg hew, Fp.mk.injEq] at h
      obtain ⟨-, -, hsign, hmag⟩ := h
      obtain ⟨hexp, hfrac⟩ := gradual_inj (Nat.mod_lt v (by decide)) (Nat.mod_lt w (by decide))
        (Nat.eq_of_mul_eq_mul_right (Nat.two_pow_pos _) hmag)
      exact byte_e5m2_inj hv hw hsign hexp hfrac

/-- A lane's value that is not NaN, of a width its format has. -/
structure LaneVal (fmt v : Nat) : Prop where
  lt : isFloat fmt = true ∨ fmtOf fmt = 1 → v < 256 ^ laneBytes fmt
  nan : laneNan fmt v = false

theorem laneKey_inj {fmt v w : Nat} (hv : LaneVal fmt v) (hw : LaneVal fmt w) (h : laneKey fmt v = laneKey fmt w) : v = w := by
  by_cases hfloat : isFloat fmt = true
  · have hnv : (toFp fmt v).nan = false := by simpa [laneNan, hfloat] using hv.nan
    have hnw : (toFp fmt w).nan = false := by simpa [laneNan, hfloat] using hw.nan
    simp only [laneKey, hfloat, if_true] at h
    exact toFp_inj hfloat (hv.lt (.inl hfloat)) (hw.lt (.inl hfloat)) hnv
      (Fp.key_inj (toFp_small hfloat hnv) (toFp_small hfloat hnw) h)
  · rw [laneKey, laneKey, if_neg hfloat, if_neg hfloat] at h
    by_cases hint : fmtOf fmt = 1
    · have hlv := hv.lt (.inr hint)
      have hlw := hw.lt (.inr hint)
      simp only [laneBytes, hint] at hlv hlw
      simp only [if_pos hint, sdiff] at h
      omega
    · rw [if_neg hint, if_neg hint] at h
      exact Int.ofNat.inj h

/-! ## VALUE of a pair -/

theorem Fp.bits_lt_and_not_nan {a : Fp} (ha : a.Small) : a.bits < 2 ^ 32 ∧ (Fp.ofBits a.bits).nan = false := by
  have hsign : b2n a.neg ≤ 1 := by unfold b2n; split <;> decide
  rw [Fp.ofBits_nan, decide_eq_false_iff_not]
  simp only [Fp.bits, ha.nan, Bool.false_eq_true, if_false, bitsOf, Nat.shiftRight_eq_div_pow]
  split
  · omega
  split
  · omega
  next hlarge =>
    have hpos : a.mag ≠ 0 := by omega
    have hlog : a.mag.log2 < 277 := (Nat.log2_lt hpos).mpr ha.mag
    have hlow : 23 ≤ a.mag.log2 := Nat.not_lt.mp fun hlt => hlarge ((Nat.log2_lt (k := 23) hpos).mp hlt)
    have hfrac : a.mag / 2 ^ (a.mag.log2 - 23) < 16777216 := by
      rw [Nat.div_lt_iff_lt_mul (Nat.two_pow_pos _), show (16777216 : Nat) = 2 ^ 24 from rfl, ← Nat.pow_add,
        show 24 + (a.mag.log2 - 23) = a.mag.log2 + 1 by omega]
      exact Nat.lt_log2_self
    generalize a.mag / 2 ^ (a.mag.log2 - 23) = m at hfrac
    generalize a.mag.log2 = k at hlog hlow
    omega

theorem pairFmt_of_float {fmt : Nat} (h : isFloat fmt = true) : pairFmt fmt = 3 := if_pos h

theorem pairFmt_of_not_float {fmt : Nat} (h : isFloat fmt = false) : pairFmt fmt = fmtOf fmt :=
  if_neg (Bool.eq_false_iff.mp h)

theorem fmtOf_fmtOf (fmt : Nat) : fmtOf (fmtOf fmt) = fmtOf fmt := Nat.mod_mod ..

theorem isFloat_fmtOf (fmt : Nat) : isFloat (fmtOf fmt) = isFloat fmt := by rw [isFloat, isFloat, fmtOf_fmtOf]

/-- A pair's VALUE stands in 4 bytes in its format. -/
theorem LaneVal.of_pair {fmt v : Nat} (hlt : v < 2 ^ 32) (hnan : laneNan (pairFmt fmt) v = false) : LaneVal (pairFmt fmt) v := by
  refine ⟨fun hwide => ?_, hnan⟩
  cases hfloat : isFloat fmt with
  | true => rw [pairFmt_of_float hfloat]; exact hlt
  | false =>
    rw [pairFmt_of_not_float hfloat] at hwide ⊢
    rw [isFloat_fmtOf, hfloat, fmtOf_fmtOf] at hwide
    have hint := hwide.resolve_left (by decide)
    rw [hint]
    exact hlt

theorem laneVal_pairValue {fmt v : Nat} (h : LaneVal fmt v) : LaneVal (pairFmt fmt) (pairValue fmt v) := by
  cases hfloat : isFloat fmt with
  | true =>
    have hnan : (toFp fmt v).nan = false := by simpa [laneNan, hfloat] using h.nan
    obtain ⟨hlt, hbits⟩ := Fp.bits_lt_and_not_nan (toFp_small hfloat hnan)
    rw [pairValue, if_pos hfloat]
    refine .of_pair hlt ?_
    rw [pairFmt_of_float hfloat, laneNan, toFp_binary32 _ rfl, hbits, Bool.and_false]
  | false =>
    rw [pairValue, if_neg (Bool.eq_false_iff.mp hfloat), pairFmt_of_not_float hfloat]
    refine ⟨fun hwide => ?_, by rw [laneNan, isFloat_fmtOf, hfloat, Bool.false_and]⟩
    rw [isFloat_fmtOf, fmtOf_fmtOf] at hwide
    simpa only [laneBytes, fmtOf_fmtOf] using h.lt hwide

/-! ## The bytes of a lane -/

theorem beNat_lt (l : List Byte) (i n : Nat) : beNat l i n < 256 ^ n := by
  induction n generalizing i with
  | zero => exact Nat.one_pos
  | succ n ih =>
    have hbyte : (byteAt l i).toNat + 1 ≤ 256 := (byteAt l i).isLt
    calc 256 ^ n * (byteAt l i).toNat + beNat l (i + 1) n
        < 256 ^ n * (byteAt l i).toNat + 256 ^ n := Nat.add_lt_add_left (ih (i + 1)) _
      _ = 256 ^ n * ((byteAt l i).toNat + 1) := (Nat.mul_succ ..).symm
      _ ≤ 256 ^ n * 256 := Nat.mul_le_mul_left _ hbyte

theorem laneVal_beNat {fmt : Nat} {l : List Byte} {i : Nat} (hnan : laneNan fmt (beNat l i (laneBytes fmt)) = false) :
    LaneVal fmt (beNat l i (laneBytes fmt)) :=
  ⟨fun _ => beNat_lt .., hnan⟩

/-! ## Folds of a lane -/

theorem column_perm (w : Nat) {xs ys : List Input} (h : xs.Perm ys) (i : Nat) : (column w xs i).Perm (column w ys i) := h.map _

/-- A SUM of integers wraps or saturates what the whole sum is (R255). -/
theorem sumLane_perm {fmt : Nat} (hint : fmtOf fmt = 1 ∨ fmtOf fmt = 2) {vs ws : List Nat} (h : vs.Perm ws) :
    sumLane fmt vs = sumLane fmt ws := by
  unfold sumLane
  rw [h.sum_nat]
  split
  · rfl
  · rw [if_pos (hint.resolve_left ‹_›), if_pos (hint.resolve_left ‹_›)]

/-- The lesser, or the greater, of two by a key, the first where they are equal. -/
def pick (isMax : Bool) (fmt m v : Nat) : Nat :=
  if (if isMax then laneKey fmt m < laneKey fmt v else laneKey fmt v < laneKey fmt m) then v else m

theorem pick_comm {isMax : Bool} {fmt v w : Nat} (hinj : laneKey fmt v = laneKey fmt w → v = w) (m : Nat) :
    pick isMax fmt (pick isMax fmt m v) w = pick isMax fmt (pick isMax fmt m w) v := by
  by_cases hkey : laneKey fmt v = laneKey fmt w
  · rw [hinj hkey]
  · cases isMax <;> simp only [pick, Bool.false_eq_true, if_false, if_true] <;> repeat' split
    all_goals omega

theorem minMaxLane_perm (isMax : Bool) {fmt : Nat} {vs ws : List Nat}
    (hval : ∀ v ∈ vs, laneNan fmt v = false → LaneVal fmt v) (h : vs.Perm ws) :
    minMaxLane isMax fmt vs = minMaxLane isMax fmt ws := by
  unfold minMaxLane
  rw [h.any_eq]
  split
  · rfl
  next hany =>
    rw [← h.any_eq, Bool.not_eq_true, List.any_eq_false] at hany
    have hlane : ∀ v ∈ vs, LaneVal fmt v := fun v hv => hval v hv (Bool.not_eq_true _ ▸ hany v hv)
    exact h.foldl_eq' (fun v hv w hw m => pick_comm (laneKey_inj (hlane v hv) (hlane w hw)) m) _

theorem and_swap (m v w : Nat) : m &&& v &&& w = m &&& w &&& v := by
  rw [Nat.and_assoc, Nat.and_comm v, Nat.and_assoc]

theorem or_swap (m v w : Nat) : m ||| v ||| w = m ||| w ||| v := by
  rw [Nat.or_assoc, Nat.or_comm v, Nat.or_assoc]

theorem xor_swap (m v w : Nat) : m ^^^ v ^^^ w = m ^^^ w ^^^ v := by
  rw [Nat.xor_assoc, Nat.xor_comm v, Nat.xor_assoc]

theorem bitLane_perm (op w : Nat) {vs ws : List Nat} (h : vs.Perm ws) : bitLane op w vs = bitLane op w ws := by
  unfold bitLane
  split
  · exact h.foldl_eq' (fun v _ w _ m => and_swap m v w) _
  · exact h.foldl_eq' (fun v _ w _ m => or_swap m v w) _
  · exact h.foldl_eq' (fun v _ w _ m => xor_swap m v w) _

/-! ## Rankings -/

theorem pairBefore_iff {fmt : Nat} {a b : Nat × Nat} : pairBefore fmt a b = true ↔
    laneKey (pairFmt fmt) b.1 < laneKey (pairFmt fmt) a.1
      ∨ laneKey (pairFmt fmt) a.1 = laneKey (pairFmt fmt) b.1 ∧ a.2 < b.2 := by
  simp only [pairBefore, Bool.or_eq_true, Bool.and_eq_true, decide_eq_true_eq]

theorem pairBefore_trans {fmt : Nat} {a b c : Nat × Nat} (hab : pairBefore fmt a b = true) (hbc : pairBefore fmt b c = true) :
    pairBefore fmt a c = true := by
  rw [pairBefore_iff] at *
  omega

theorem pairBefore_asymm {fmt : Nat} {a b : Nat × Nat} (hab : pairBefore fmt a b = true) : ¬ pairBefore fmt b a = true := by
  rw [pairBefore_iff] at *
  omega

/-- Two pairs of proper values are ranked, or they are one. -/
theorem pairBefore_total {fmt : Nat} {a b : Nat × Nat} (ha : LaneVal (pairFmt fmt) a.1) (hb : LaneVal (pairFmt fmt) b.1) :
    pairBefore fmt a b = true ∨ pairBefore fmt b a = true ∨ a = b := by
  rw [pairBefore_iff, pairBefore_iff]
  by_cases hkey : laneKey (pairFmt fmt) a.1 = laneKey (pairFmt fmt) b.1
  · by_cases hindex : a.2 = b.2
    · exact .inr (.inr (Prod.ext (laneKey_inj ha hb hkey) hindex))
    · omega
  · omega

theorem insertPair_comm_of_before {fmt : Nat} {p q : Nat × Nat} (h : pairBefore fmt p q = true) (l : List (Nat × Nat)) :
    insertPair fmt q (insertPair fmt p l) = insertPair fmt p (insertPair fmt q l) := by
  have hqp : ¬ pairBefore fmt q p = true := pairBefore_asymm h
  induction l with
  | nil => simp [insertPair, h, hqp]
  | cons x l ih =>
    by_cases hq : pairBefore fmt q x = true
    · have hp : pairBefore fmt p x = true := pairBefore_trans h hq
      simp [insertPair, h, hqp, hq, hp]
    · by_cases hp : pairBefore fmt p x = true
      · simp [insertPair, hqp, hq, hp]
      · simp [insertPair, hq, hp, ih]

theorem insertPair_comm {fmt : Nat} {p q : Nat × Nat} (hp : LaneVal (pairFmt fmt) p.1) (hq : LaneVal (pairFmt fmt) q.1)
    (l : List (Nat × Nat)) : insertPair fmt q (insertPair fmt p l) = insertPair fmt p (insertPair fmt q l) := by
  obtain h | h | rfl := pairBefore_total hp hq
  · exact insertPair_comm_of_before h l
  · exact (insertPair_comm_of_before h l).symm
  · rfl

theorem rankPairs_perm {fmt : Nat} (k : Nat) {ps qs : List (Nat × Nat)} (hval : ∀ p ∈ ps, LaneVal (pairFmt fmt) p.1)
    (h : ps.Perm qs) : rankPairs fmt k ps = rankPairs fmt k qs := by
  have hsorted : ps.foldl (fun l p => insertPair fmt p l) [] = qs.foldl (fun l p => insertPair fmt p l) [] :=
    h.foldl_eq' (fun p hp q hq l => insertPair_comm (hval p hp) (hval q hq) l) []
  simp only [rankPairs, hsorted]

/-! ## The folds of a TSU and of a distributor -/

theorem fmtOf_int_of_sum {op fmt lanes : Nat} (hop : op = 0x01 ∨ op = 0x0B) (hallow : descAllowed op fmt lanes = true)
    (hfloat : ¬ (isFloat fmt = true ∧ (op = 0x01 ∨ op = 0x0B))) : fmtOf fmt = 1 ∨ fmtOf fmt = 2 := by
  have hint : ¬ isFloat fmt = true := fun h => hfloat ⟨h, hop⟩
  rw [isFloat_iff] at hint
  have hany : 1 ≤ fmtOf fmt ∧ fmtOf fmt ≤ 6 := by
    obtain rfl | rfl := hop <;>
      simp only [descAllowed, Bool.and_eq_true, decide_eq_true_eq] at hallow <;>
      exact hallow.1.1.1
  omega

theorem lanes_congr {w lanes : Nat} {f g : Nat → Nat} (h : ∀ i, f i = g i) :
    packLanes w ((List.range lanes).map f) = packLanes w ((List.range lanes).map g) := by rw [funext h]

theorem mem_column {w i v : Nat} {xs : List Input} (h : v ∈ column w xs i) : ∃ x ∈ xs, beNat x.data (w * i) w = v :=
  List.mem_map.mp h

theorem laneVal_of_column {fmt i : Nat} {xs : List Input} :
    ∀ v ∈ column (laneBytes fmt) xs i, laneNan fmt v = false → LaneVal fmt v := by
  intro v hv hnan
  obtain ⟨x, -, rfl⟩ := mem_column hv
  exact laneVal_beNat hnan

theorem foldTsu_perm {op fmt lanes : Nat} {all all' : List Input} (hallow : descAllowed op fmt lanes = true)
    (hfloat : ¬ (isFloat fmt = true ∧ (op = 0x01 ∨ op = 0x0B))) (hperm : all.Perm all') :
    foldTsu op fmt lanes all = foldTsu op fmt lanes all' := by
  unfold foldTsu
  have h := hperm.filter fun x => !x.data.isEmpty
  generalize all.filter (fun x => !x.data.isEmpty) = xs at h
  generalize all'.filter (fun x => !x.data.isEmpty) = ys at h
  have hsum : op = 0x01 ∨ op = 0x0B → ∀ i,
      sumLane fmt (column (laneBytes fmt) xs i) = sumLane fmt (column (laneBytes fmt) ys i) :=
    fun hop i => sumLane_perm (fmtOf_int_of_sum hop hallow hfloat) (column_perm _ h i)
  split
  · exact lanes_congr (hsum (.inl rfl))
  · exact lanes_congr (hsum (.inr rfl))
  · exact lanes_congr fun i => by rw [(column_perm 2 h i).sum_nat]
  · exact lanes_congr fun i => minMaxLane_perm false laneVal_of_column (column_perm _ h i)
  · exact lanes_congr fun i => minMaxLane_perm true laneVal_of_column (column_perm _ h i)
  · exact lanes_congr fun i => bitLane_perm _ _ (column_perm _ h i)
  · exact lanes_congr fun i => bitLane_perm _ _ (column_perm _ h i)
  · exact lanes_congr fun i => bitLane_perm _ _ (column_perm _ h i)
  · exact lanes_congr fun i => by rw [((column_perm _ h i).filter _).length_eq]
  · exact lanes_congr fun k => by rw [(((h.flatMap_right _).filter _).filter _).length_eq]
  · refine congrArg packPairs (congrArg (List.flatMap · _) (funext fun i => rankPairs_perm 1 ?_ ((h.filter _).map _)))
    intro p hp
    obtain ⟨x, hx, rfl⟩ := List.mem_map.mp hp
    exact laneVal_pairValue (laneVal_beNat (by simpa using (List.mem_filter.mp hx).2))
  · refine congrArg packPairs (rankPairs_perm _ ?_ (h.flatMap_right _))
    intro p hp
    obtain ⟨x, -, hp⟩ := List.mem_flatMap.mp hp
    obtain ⟨i, hi, rfl⟩ := List.mem_map.mp hp
    exact laneVal_pairValue (laneVal_beNat (by simpa using (List.mem_filter.mp hi).2))
  · rfl

theorem foldGd_perm {op fmt lanes : Nat} {ps qs : List (List Byte)} (hallow : descAllowed op fmt lanes = true)
    (hfloat : ¬ (isFloat fmt = true ∧ (op = 0x01 ∨ op = 0x0B)))
    (hnan : ∀ d ∈ ps, ∀ i, laneNan (pairFmt fmt) (pairAt d i).1 = false) (hperm : ps.Perm qs) :
    foldGd op fmt lanes ps = foldGd op fmt lanes qs := by
  unfold foldGd
  have h : (ps.map fun d => (⟨0, 0, d⟩ : Input)).Perm (qs.map fun d => ⟨0, 0, d⟩) := hperm.map _
  have hpair : ∀ d ∈ ps, ∀ i, LaneVal (pairFmt fmt) (pairAt d i).1 := fun d hd i => .of_pair (beNat_lt ..) (hnan d hd i)
  have hsat : ∀ i, min 0xFFFFFFFF (column 4 (ps.map fun d => (⟨0, 0, d⟩ : Input)) i).sum
      = min 0xFFFFFFFF (column 4 (qs.map fun d => (⟨0, 0, d⟩ : Input)) i).sum :=
    fun i => by rw [(column_perm 4 h i).sum_nat]
  have hsum : op = 0x01 ∨ op = 0x0B → ∀ i,
      sumLane (if isFloat fmt then 3 else 1) (column 4 (ps.map fun d => (⟨0, 0, d⟩ : Input)) i)
        = sumLane (if isFloat fmt then 3 else 1) (column 4 (qs.map fun d => (⟨0, 0, d⟩ : Input)) i) := by
    intro hop i
    rw [if_neg fun hf => hfloat ⟨hf, hop⟩]
    exact sumLane_perm (.inl rfl) (column_perm 4 h i)
  have hhalf : ∀ i, sumLane 2 (column 2 (ps.map fun d => (⟨0, 0, d⟩ : Input)) i)
      = sumLane 2 (column 2 (qs.map fun d => (⟨0, 0, d⟩ : Input)) i) :=
    fun i => sumLane_perm (.inr rfl) (column_perm 2 h i)
  split
  · exact ite_congr rfl (fun _ => lanes_congr hhalf) fun _ => lanes_congr (hsum (.inl rfl))
  · exact ite_congr rfl (fun _ => lanes_congr hhalf) fun _ => lanes_congr (hsum (.inr rfl))
  · exact lanes_congr fun i => by rw [(column_perm 2 h i).sum_nat]
  · exact lanes_congr fun i => minMaxLane_perm false laneVal_of_column (column_perm _ h i)
  · exact lanes_congr fun i => minMaxLane_perm true laneVal_of_column (column_perm _ h i)
  · exact lanes_congr fun i => bitLane_perm _ _ (column_perm _ h i)
  · exact lanes_congr fun i => bitLane_perm _ _ (column_perm _ h i)
  · exact lanes_congr fun i => bitLane_perm _ _ (column_perm _ h i)
  · exact lanes_congr hsat
  · exact lanes_congr hsat
  · refine congrArg packPairs (congrArg (List.flatMap · _) (funext fun i => rankPairs_perm 1 ?_ (hperm.map _)))
    intro p hp
    obtain ⟨d, hd, rfl⟩ := List.mem_map.mp hp
    exact hpair d hd i
  · refine congrArg packPairs (rankPairs_perm _ ?_ (hperm.flatMap_right _))
    intro p hp
    obtain ⟨d, hd, hp⟩ := List.mem_flatMap.mp hp
    obtain ⟨i, -, rfl⟩ := List.mem_map.mp hp
    exact hpair d hd i
  · rfl

/-! ## A floating SUM -/

/-- The largest binary32 twice and its negative once: the sum overflows unless the negative comes second. -/
def overflowInputs (order : List Nat) : List Input := order.map fun v => ⟨0, 0, natBytes v 4⟩

theorem foldTsu_float_sum_order :
    foldTsu 0x01 3 1 (overflowInputs [0x7F7FFFFF, 0x7F7FFFFF, 0xFF7FFFFF])
      ≠ foldTsu 0x01 3 1 (overflowInputs [0x7F7FFFFF, 0xFF7FFFFF, 0x7F7FFFFF]) := by decide

/-- Settles O59: the key tells values apart, so the order of contributions is lost in sums of integers, in the least and
greatest by the key and in rankings; three values of the widest range show that a floating SUM keeps it. -/
theorem combineOrderFree : Obligations.CombineOrderFree := by
  unfold Obligations.CombineOrderFree
  refine ⟨fun _ _ _ _ _ => foldTsu_perm, fun _ _ _ _ _ => foldGd_perm, _, _, ?_, foldTsu_float_sum_order⟩
  exact ((List.Perm.swap _ _ _).cons _).map _

end Sys2Proof
end

section
/-! The commits of the counter and the addend, STANDALONE, and what starts a time domain anew (R44 to R48, R64, R65,
R509). -/

namespace Sys2Proof.Machine

open Sys2Proof

/-! ## Writes under the key seal -/

section
variable {s : State} {acc : Access} {off : Nat} (hwhole : acc.whole = true) (hmaster : acc.master ≠ 2)
  (hsame : acc.same = false) (habsent : s.gdAbsent off = false)
include hwhole hmaster hsame habsent

/-- A write of the lead or the management port, in a cycle of its own, goes on to the test of custody. -/
theorem State.gdWrite_of_alone (custody : Bool) (f : State → State) : s.gdWrite acc off custody f =
    if custody ∧ s.gd.sealSt ≠ .opened then s.custodyRefused off else f (s.noteWrite acc off) := by
  simp [State.gdWrite, State.lostToReset, State.collides, hwhole, hmaster, hsame, habsent]

theorem State.gdWrite_of_open (hseal : s.gd.sealSt = .opened) (custody : Bool) (f : State → State) :
    s.gdWrite acc off custody f = f (s.noteWrite acc off) := by
  rw [State.gdWrite_of_alone hwhole hmaster hsame habsent, if_neg fun h => h.2 hseal]

theorem State.gdWrite_of_sealed (hseal : s.gd.sealSt ≠ .opened) (f : State → State) :
    s.gdWrite acc off true f = s.custodyRefused off := by
  rw [State.gdWrite_of_alone hwhole hmaster hsame habsent, if_pos ⟨rfl, hseal⟩]

end

/-- The registers below 0x200 are there in every variant and role. -/
theorem State.gdAbsent_of_low (s : State) {off : Nat} (h : off < 0x200) : s.gdAbsent off = false := by
  have h200 : ¬ 0x200 ≤ off := by omega
  have h560 : ¬ 0x560 ≤ off := by omega
  have h800 : ¬ 0x800 ≤ off := by omega
  have hE00 : ¬ 0xE00 ≤ off := by omega
  have h10000 : ¬ 0x10000 ≤ off := by omega
  simp [State.gdAbsent, h200, h560, h800, hE00, h10000]

/-! ## A time domain under the operations beside it -/

theorem State.time_tsu (s : State) : s.time .tsu = s.tsu.com.time := rfl

theorem State.time_gd (s : State) : s.time .gd = s.gd.com.time := rfl

theorem State.noteChange_time (s : State) (c : Bool) (n : Node) : (s.noteChange c).time n = s.time n := by
  cases n with
  | tsu => unfold State.noteChange; split <;> rfl
  | gd => exact (State.noteChange_quiet (fun _ => rfl) (.refl s)).time

@[simp] theorem State.updTimeQ_time (s : State) (n : Node) (f : TimeDom → TimeDom) :
    (s.updTimeQ n f).time n = f (s.time n) := by
  rw [State.updTimeQ, State.noteChange_time, State.updTime_time]

@[simp] theorem State.updRef_time (s : State) (f : RefSel → RefSel) : (s.updRef f).time .gd = s.time .gd :=
  (State.updRef_quiet rfl (.refl s)).time

@[simp] theorem State.updRegions_time (s : State) (f : Region → Region) : (s.updRegions f).time .tsu = s.time .tsu :=
  (State.updRegions_quiet rfl (.refl s)).time

/-- A TSU time domain's quality is in no journal, so a change of it is a plain update. -/
theorem State.updTimeQ_tsu (s : State) (f : TimeDom → TimeDom) : s.updTimeQ .tsu f = s.updTime .tsu f := rfl

/-- What a time-domain reset makes of the time domain (R47). -/
def TimeDom.restarted (t : TimeDom) (trained : Bool) : TimeDom :=
  { t with stepped := false, upTq := .none, sel := none, inLimit := 0, outLimit := 0, switches := 0, flyAt := none,
           mode := .idle, launchOk := false, tq := if t.standalone then .loc else if trained then .acquiring else .unset }

theorem State.loseLaunchOk_time (s : State) (n : Node) : (s.loseLaunchOk n).time n = { s.time n with launchOk := false } := by
  cases n with
  | tsu => exact (State.dropDomainLaunches_quiet rfl (.refl _)).time
  | gd => rfl

theorem State.timeDomainReset_time (s : State) (n : Node) :
    (s.timeDomainReset n).time n = (s.time n).restarted (s.anyTrained n) := by
  cases n with
  | tsu => simp only [State.timeDomainReset, State.updRegions_time, State.loseLaunchOk_time, State.updTimeQ_time]; rfl
  | gd => simp only [State.timeDomainReset, State.updRef_time, State.loseLaunchOk_time, State.updTimeQ_time]; rfl

theorem State.timeDomainReset_gd (s : State) : (s.timeDomainReset .tsu).gd = s.gd :=
  (State.timeDomainReset_apart rfl (.refl s)).gd

theorem State.timeDomainReset_tsu (s : State) : (s.timeDomainReset .gd).tsu = s.tsu :=
  (State.timeDomainReset_apart rfl (.refl s)).tsu

/-! ## SET_COMMIT (R44, R65) -/

section
variable {s : State}

theorem State.setCommit_of_set (h : s.tsu.com.time.standalone = false ∨ s.tsu.com.time.stepped = true) :
    s.setCommit = (s.setEvt .tsu 0x11C 0x1000).logT .timeStepRefused :=
  if_pos (by simpa using h)

section
variable (hstandalone : s.tsu.com.time.standalone = true) (hstepped : s.tsu.com.time.stepped = false)
include hstandalone hstepped

theorem State.setCommit_of_free : s.setCommit =
    if !s.timeSet.valid then (s.setEvt .tsu 0x11C 0x1000).logT .timeInvalid else s.stepCounter .tsu s.timeSet :=
  if_neg (by simp [hstandalone, hstepped])

theorem State.setCommit_of_invalid (hns : 1000000000 ≤ s.timeSet.ns) :
    s.setCommit = (s.setEvt .tsu 0x11C 0x1000).logT .timeInvalid := by
  rw [State.setCommit_of_free hstandalone hstepped, if_pos (by simpa [Time80.valid] using hns)]

theorem State.setCommit_of_valid (hns : s.timeSet.ns < 1000000000) : s.setCommit = s.updTime .tsu fun t => t.step s.timeSet := by
  rw [State.setCommit_of_free hstandalone hstepped, if_neg (by simpa [Time80.valid] using hns)]
  rfl

end

/-! ## STANDALONE and the addend (R64, R65) -/

theorem State.standaloneWrite_set (htq : s.tsu.com.time.tq = .unset ∨ s.tsu.com.time.tq = .loc) :
    s.standaloneWrite true = s.updTime .tsu fun t =>
      { t with standalone := true, tq := .loc, mode := .idle, sel := none, upTq := .none } :=
  if_pos htq

theorem State.standaloneWrite_clear (htq : s.tsu.com.time.tq = .unset ∨ s.tsu.com.time.tq = .loc)
    (hstandalone : s.tsu.com.time.standalone = true) :
    s.standaloneWrite false = (s.updTime .tsu fun t => { t with standalone := false }).timeDomainReset .tsu :=
  (if_pos htq).trans (if_pos hstandalone)

theorem State.addendCommit_addend (w : Word) (h : s.tsu.com.time.standalone = true) :
    (s.addendCommit w).tsu.com.time.addend
      = clampAddend ((bitsOf w.toNat 3 0 : Nat) * 4294967296 + s.tsu.com.time.addendW0.toNat) := by
  rw [State.addendCommit, if_pos h, State.updTime_tsu_tsu]

theorem State.addendCommit_of_served (w : Word) (h : s.tsu.com.time.standalone = false) : s.addendCommit w = s :=
  if_neg (Bool.eq_false_iff.mp h)

end

theorem State.addendWord_of_same (s : State) : s.addendWord s.tsu.com.time.addend = s := if_pos rfl

theorem State.addendWord_time (s : State) (old : Nat) : (s.addendWord old).time .tsu = s.time .tsu :=
  (State.addendWord_quiet rfl (.refl s)).time

theorem State.addendWord_gd (s : State) (old : Nat) : (s.addendWord old).gd = s.gd :=
  (State.addendWord_quiet rfl (.refl s)).apart.gd

/-- Settles O13: each commit by the first test that holds of it, and the reset that clearing STANDALONE makes. -/
theorem counterCommands : Obligations.CounterCommands := by
  unfold Obligations.CounterCommands
  refine ⟨fun s hstandalone hstepped hns => ?_, fun s hset => ?_, fun s hstandalone hstepped hns => ?_, fun s htq => ?_,
    fun s htq hstandalone => ?_, fun s w hstandalone => ?_, fun s w hserved => ?_⟩
  · exact congrArg Host.Outcome.next (State.setCommit_of_valid hstandalone hstepped hns)
  · exact congrArg Host.Outcome.next (State.setCommit_of_set hset)
  · exact congrArg Host.Outcome.next (State.setCommit_of_invalid hstandalone hstepped hns)
  · exact congrArg Host.Outcome.next (State.standaloneWrite_set htq)
  · refine ⟨_, rfl, ?_⟩
    have htime := State.timeDomainReset_time (s.updTime .tsu fun t => { t with standalone := false }) .tsu
    rw [← State.standaloneWrite_clear htq hstandalone, State.updTime_time] at htime
    have hgd : (s.standaloneWrite false).gd = s.gd := (execStandaloneWrite_apart rfl (.refl s)).gd
    exact ⟨(congrArg TimeDom.standalone htime :), (congrArg TimeDom.stepped htime :), (congrArg TimeDom.counter htime :), hgd⟩
  · refine ⟨(s.addendCommit w).addendWord s.tsu.com.time.addend, rfl, ?_, ?_, ?_⟩
    · rw [← State.addendCommit_addend w hstandalone]
      exact (congrArg TimeDom.addend (State.addendWord_time ..) :)
    · exact (congrArg Prod.fst ((execAddendCommit_keeps (.refl s)).clocks .tsu) :)
    · exact (execAddendCommit_apart rfl (.refl s)).gd
  · refine congrArg Host.Outcome.next ?_
    rw [State.addendCommit_of_served w hserved, State.addendWord_of_same]

/-! ## Resets, power-on and PLL events (R46 to R48, R509) -/

theorem State.pllRelock_of_locked {s : State} {n : Node} (h : (s.time n).pllLocked = true) : s.pllRelock n = s := if_pos h

theorem State.pllRelock_of_unlocked {s : State} {n : Node} (h : (s.time n).pllLocked = false) :
    s.pllRelock n = (s.updTime n fun t => { t with pllLocked := true }).timeDomainReset n :=
  if_neg (Bool.eq_false_iff.mp h)

theorem State.dropDomainLaunches_time (s : State) (code : ErrCode) : (s.dropDomainLaunches code).time .tsu = s.time .tsu :=
  (State.dropDomainLaunches_quiet rfl (.refl s)).time

theorem State.timeDomainPowerOn_time (s : State) (n : Node) : (s.timeDomainPowerOn n).time n =
    { TimeDom.reset with aon := s.aon n, tq := if s.anyTrained n then .acquiring else .unset } := by
  cases n with
  | tsu =>
    simp only [State.timeDomainPowerOn, State.updRegions_time]
    change TimeDom.mk .. = _
    simp only [if_true, State.aon, ← State.dropDomainLaunches_time s .timeUnqualified]
    rfl
  | gd =>
    simp only [State.timeDomainPowerOn, State.noteChange_time, State.updRef_time]
    rfl

theorem exec_tdreset (b : Bool) (s : State) : exec (.tdreset b) s = .next (s.tdreset b) := rfl

theorem State.tdreset_commit_of_standalone {s : State} (h : s.tsu.com.time.standalone = true) :
    s.tdreset true = (s.tdreset false).updTime .tsu fun t => { t with commitDue := true } := by
  have hstandalone : (s.timeDomainReset .tsu).tsu.com.time.standalone = true :=
    (congrArg TimeDom.standalone (s.timeDomainReset_time .tsu)).trans h
  exact if_pos hstandalone

theorem State.tdreset_commit_of_served {s : State} (h : s.tsu.com.time.standalone = false) :
    s.tdreset true = (s.tdreset false).setCommit := by
  have hstandalone : (s.timeDomainReset .tsu).tsu.com.time.standalone = false :=
    (congrArg TimeDom.standalone (s.timeDomainReset_time .tsu)).trans h
  exact if_neg (Bool.eq_false_iff.mp hstandalone)

section
variable {s : State} {acc : Access} (hwhole : acc.whole = true) (hmaster : acc.master ≠ 2) (hsame : acc.same = false)
include hwhole hmaster hsame

theorem State.restep_of_open (hseal : s.gd.sealSt = .opened) : s.restep acc =
    ((s.noteWrite acc 0x124).timeDomainReset .gd).updTime .gd fun t => { t with epoch := t.epoch + 1, epochSet := true } :=
  State.gdWrite_of_open hwhole hmaster hsame (s.gdAbsent_of_low (by decide)) hseal ..

theorem State.restep_of_sealed (hseal : s.gd.sealSt ≠ .opened) : s.restep acc = s.custodyRefused 0x124 :=
  State.gdWrite_of_sealed hwhole hmaster hsame (s.gdAbsent_of_low (by decide)) hseal ..

end

theorem State.noteWrite_time (s : State) (acc : Access) (off : Nat) : (s.noteWrite acc off).time .gd = s.time .gd :=
  (State.noteWrite_quiet rfl (.refl s)).time

/-- Settles O14: a time-domain reset leaves `TimeDom.restarted`, a power-on the reset value with the always-on clock. -/
theorem timeDomainRules : Obligations.TimeDomainRules := by
  unfold Obligations.TimeDomainRules
  refine ⟨fun s => ?_, fun _ _ => rfl, fun n s hlocked => ?_, fun n s hunlocked => ?_, fun n s => ?_, fun s => ?_,
    fun s acc hwhole hmaster hsame hseal => ?_, fun s acc hwhole hmaster hsame hseal => ?_⟩
  · have htime : (s.tdreset false).time .tsu = (s.time .tsu).restarted (s.anyTrained .tsu) := s.timeDomainReset_time .tsu
    exact ⟨_, rfl, (congrArg TimeDom.counter htime :), (congrArg TimeDom.addend htime :), (congrArg TimeDom.stepped htime :),
      (congrArg TimeDom.launchOk htime :), (congrArg TimeDom.tq htime :),
      fun h => congrArg Host.Outcome.next (State.tdreset_commit_of_standalone h),
      fun h => congrArg Host.Outcome.next (State.tdreset_commit_of_served h)⟩
  · exact congrArg Host.Outcome.next (State.pllRelock_of_locked hlocked)
  · have htime := State.timeDomainReset_time (s.updTime n fun t => { t with pllLocked := true }) n
    rw [← State.pllRelock_of_unlocked hunlocked, State.updTime_time] at htime
    exact ⟨_, rfl, (congrArg TimeDom.counter htime :), (congrArg TimeDom.addend htime :), (congrArg TimeDom.pllLocked htime :),
      (congrArg TimeDom.stepped htime :), (congrArg TimeDom.launchOk htime :)⟩
  · have htime : (s.after (execTimeDomainPowerOn n s)).time n = (s.timeDomainPowerOn n).time n := by cases n <;> rfl
    rw [State.timeDomainPowerOn_time] at htime
    exact ⟨_, rfl, (congrArg TimeDom.counter htime :), (congrArg TimeDom.addend htime :), (congrArg TimeDom.stepped htime :),
      (congrArg TimeDom.launchOk htime :), (congrArg TimeDom.aon htime :), (congrArg TimeDom.tq htime :), fun hn => by subst hn; rfl⟩
  · have hgd : (s.timeDomainPowerOn .tsu).gd = s.gd := (State.timeDomainPowerOn_apart rfl (.refl s)).gd
    exact ⟨_, rfl, (congrArg TimeDom.counter (s.timeDomainPowerOn_time .tsu) :), rfl, hgd⟩
  · have htime := State.timeDomainReset_time (s.noteWrite acc 0x124) .gd
    rw [State.noteWrite_time, State.time_gd, State.time_gd] at htime
    refine ⟨s.restep acc, rfl, ?_, ?_, ?_, ?_, (execRestep_apart rfl (.refl s)).tsu⟩ <;>
      simp only [State.restep_of_open hwhole hmaster hsame hseal, State.now, State.time_gd, State.updTime_gd_gd, htime,
        TimeDom.restarted]
  · exact congrArg Host.Outcome.next (State.restep_of_sealed hwhole hmaster hsame hseal)

end Sys2Proof.Machine
end

section
/-! The transitions of the time quality and the leap second (R54 to R58, R85). -/

namespace Sys2Proof.Machine

open Sys2Proof

/-- An update of a time domain depends on the time domain it finds. -/
theorem State.updTime_congr {s : State} {n : Node} {f g : TimeDom → TimeDom} (h : f (s.time n) = g (s.time n)) :
    s.updTime n f = s.updTime n g := by
  cases n with
  | tsu => exact congrArg (fun t => { s with tsu := { s.tsu with com := { s.tsu.com with time := t } } }) h
  | gd => exact congrArg (fun t => { s with gd := { s.gd with com := { s.gd.com with time := t } } }) h

theorem State.updTime_now {s : State} {n : Node} {f : TimeDom → TimeDom} : (s.updTime n f).now n = (f (s.time n)).counter := by
  rw [State.now, State.updTime_time]

theorem State.qualify_time (s : State) (n : Node) (hnbr : n = .tsu → s.tsu.nbrMismatch = false) :
    (s.qualify n).time n = { s.time n with tq := .qualified, outLimit := 0, launchOk := true } := by
  cases n with
  | tsu =>
    have hmatch : (s.updTimeQ .tsu fun t => { t with tq := .qualified, outLimit := 0 }).tsu.nbrMismatch = false := hnbr rfl
    rw [State.qualify]
    simp only [hmatch, Bool.false_eq_true, if_false]
    rw [(State.launchOkGained_quiet rfl (.refl _)).time, State.updTime_time, State.updTimeQ_time]
  | gd => rw [State.qualify, State.updTime_time, State.updTimeQ_time]

theorem State.withdraw_time (s : State) (n : Node) : (s.withdraw n).time n =
    { s.time n with tq := .withdrawn, inLimit := 0, outLimit := 0, launchOk := false } := by
  have hlose : ((s.updTimeQ n fun t => { t with tq := .withdrawn, inLimit := 0, outLimit := 0 }).loseLaunchOk n).time n =
      { s.time n with tq := .withdrawn, inLimit := 0, outLimit := 0, launchOk := false } := by
    rw [State.loseLaunchOk_time, State.updTimeQ_time]
  rw [State.withdraw]
  split
  next hsend =>
    obtain ⟨rfl, -⟩ := hsend
    rw [(State.healthSendEv_quiet rfl (.refl _)).time, hlose]
  next => exact hlose

section
variable {s : State} {n : Node}

theorem State.qualHoldMet_of_met (hmet : s.qualMet n = true) (htq : (s.time n).tq = .settling ∨ (s.time n).tq = .withdrawn) :
    s.qualHoldMet n = s.qualify n := if_pos ⟨hmet, htq⟩

theorem State.qualDropMet_of_met (htq : (s.time n).tq = .qualified) (hout : s.qualDrop n ≤ (s.time n).outLimit)
    (hoff : (s.time n).offset.natAbs ≤ 65536000) :
    s.qualDropMet n = s.updTimeQ n fun t => { t with tq := .settling, inLimit := 0 } := if_pos ⟨htq, hout, hoff⟩

theorem State.flywheelLimit_of_flying {at0 : Time80} (htq : (s.time n).tq = .flywheel) (hat : (s.time n).flyAt = some at0) :
    s.flywheelLimit n = if at0.toNs16 + 100000000 * 65536 ≤ (s.now n).toNs16 then
      (s.updTime n fun t => { t with flyAt := none }).withdraw n else s := by
  simp only [State.flywheelLimit, htq, hat, State.now]
  rfl

theorem State.leapSecondApply_of_due (hleap : (s.time n).info.leap61 = true ∨ (s.time n).info.leap59 = true)
    (hdue : (s.time n).info.leapAt.toNs ≤ (s.now n).toNs) :
    s.leapSecondApply n = s.updTime n fun t =>
      { t with info := { t.info with utcOffset := t.info.utcNext, leap61 := false, leap59 := false } } :=
  State.updTime_congr (if_pos ⟨hleap, hdue⟩)

end

/-- Settles O15: each transition's test, and the time domain that `qualify` and `withdraw` leave. -/
theorem qualityRules : Obligations.QualityRules := by
  unfold Obligations.QualityRules
  refine ⟨fun n s hmet htq hnbr => ?_, fun n s htq hout hoff => ?_, fun n s at0 htq hat hlimit => ?_,
    fun n s at0 htq hat hbefore => ?_, fun n s hleap hdue => ?_⟩
  · have htime := s.qualify_time n hnbr
    rw [← State.qualHoldMet_of_met hmet htq] at htime
    exact ⟨s.qualHoldMet n, rfl, by rw [htime], by rw [htime], by rw [State.now, htime, State.now]⟩
  · have htime := s.updTimeQ_time n fun t => { t with tq := .settling, inLimit := 0 }
    rw [← State.qualDropMet_of_met htq hout hoff] at htime
    exact ⟨s.qualDropMet n, rfl, by rw [htime], by rw [htime], by rw [State.now, htime, State.now]⟩
  · have htime := State.withdraw_time (s.updTime n fun t => { t with flyAt := none }) n
    rw [State.updTime_time] at htime
    have heq := (State.flywheelLimit_of_flying htq hat).trans (if_pos hlimit)
    rw [← heq] at htime
    exact ⟨s.flywheelLimit n, rfl, by rw [htime], by rw [htime], by rw [htime], by rw [State.now, htime, State.now]⟩
  · exact congrArg Host.Outcome.next ((State.flywheelLimit_of_flying htq hat).trans (if_neg (Int.not_le.mpr hbefore)))
  · exact congrArg Host.Outcome.next (State.leapSecondApply_of_due hleap hdue)

end Sys2Proof.Machine
end

section
/-! A received time frame (R70, R75, R85, R162, R168). -/

namespace Sys2Proof.Machine

open Sys2Proof

/-! ## What a slot moves -/

@[simp] theorem State.updLink_aon (s : State) (l : LinkId) (f : Link → Link) (n : Node) : (s.updLink l f).aon n = s.aon n := by
  rw [State.aon, State.updLink_time, State.aon]

theorem State.updTime_updTime (s : State) (n : Node) (f g : TimeDom → TimeDom) :
    (s.updTime n f).updTime n g = s.updTime n fun t => g (f t) := by cases n <;> rfl

theorem State.updLink_congr {s : State} {l : LinkId} {f g : Link → Link} (h : f (s.link l) = g (s.link l)) :
    s.updLink l f = s.updLink l g := by
  obtain ⟨n, p⟩ := l
  cases n with
  | tsu => exact congrArg (fun k => { s with tsu := { s.tsu with com := { s.tsu.com with links := Tab.put s.tsu.com.links p k } } }) h
  | gd => exact congrArg (fun k => { s with gd := { s.gd with com := { s.gd.com with links := Tab.put s.gd.com.links p k } } }) h

theorem State.addendWord_of_addend {s t : State} (h : (t.time .tsu).addend = (s.time .tsu).addend) :
    t.addendWord s.tsu.com.time.addend = t := if_pos h

theorem State.addendWord_of_time {s t : State} (h : t.time .tsu = s.time .tsu) : t.addendWord s.tsu.com.time.addend = t :=
  State.addendWord_of_addend (congrArg TimeDom.addend h)

theorem State.log_time (s : State) (n : Node) (code : ErrCode) (source detail : Nat) (m : Node) :
    (s.log n code source detail).time m = s.time m := (State.log_quiet rfl (.refl s)).time_eq m

theorem State.malformed_time (s : State) (l : LinkId) (n : Node) : (s.malformed l).time n = s.time n := by
  rw [State.malformed, State.log_time, State.updLink_time]

section
variable {s : State} {l : LinkId} {rx : Rx}

theorem State.identUp_of_up (hup : (s.link l).state = .up) : s.identUp l rx = s :=
  if_neg fun h => absurd (hup.symm.trans h.1) (by decide)

theorem State.slotTaken_of_good (hgood : rx.check = .good) : s.slotTaken l rx = s.updLink l fun k => { k.slotIn with uncorrRun := 0 } := by
  simp only [State.slotTaken, hgood, reduceCtorEq, if_false]

theorem State.poisonSlot_of_up (hup : (s.link l).state = .up) : s.poisonSlot l =
    s.updLink l fun k => { k.slotIn with poisoned := min (k.poisoned + 1) 0xFFFF, uncorrRun := 0 } := by
  refine State.updLink_congr ?_
  simp only [hup, reduceCtorEq, if_false, Link.slotIn]

/-! ## The tests of a time frame -/

theorem State.timeFrameRx_of_poison {stamp : Int} (hup : (s.link l).state = .up) (hpoison : rx.check = .poison) :
    s.timeFrameRx l rx stamp = s.updLink l fun k =>
      { k.slotIn with poisoned := min (k.poisoned + 1) 0xFFFF, uncorrRun := 0 } := by
  simp only [State.timeFrameRx, State.identUp_of_up hup, hup, hpoison, State.poisonSlot_of_up hup, true_or, not_true,
    if_false]

theorem State.timeFrameRx_of_down {stamp : Int} (hup : (s.link l).state ≠ .up) (hident : (s.link l).state ≠ .ident) :
    s.timeFrameRx l rx stamp = s := by
  have hsame : s.identUp l rx = s := if_neg fun h => hident h.1
  simp only [State.timeFrameRx, hsame, hup, hident, or_false, not_false_iff, if_true]

theorem State.timeFrameRx_of_good {stamp : Int} (hup : (s.link l).state = .up) (hgood : rx.check = .good)
    (htype : rx.frame.type = 0x01) : s.timeFrameRx l rx stamp =
      let u := s.updLink l fun k => { k.slotIn with uncorrRun := 0 }
      if rx.frame.cls ≠ 0 ∨ rx.frame.ver.toNat ≠ (s.link l).arch then u.malformed l
      else if (s.link l).excluded then u
      else if !timeFrameValid rx.frame then u.log l.node .timeInvalid l.source
      else u.timeFrameTake l rx.frame stamp true := by
  simp only [State.timeFrameRx, State.identUp_of_up hup, hup, hgood, State.slotTaken_of_good hgood, htype, true_or, not_true,
    if_false, ne_eq, false_or, true_and, decide_true]

end

/-! ## A frame of the selected TSU lane without an echo -/

theorem State.rxCorr_updLink (s : State) (p : Nat) (f : Link → Link) (h : (f (s.link ⟨.tsu, p⟩)).fallback = (s.link ⟨.tsu, p⟩).fallback) :
    (s.updLink ⟨.tsu, p⟩ f).rxCorr ⟨.tsu, p⟩ = s.rxCorr ⟨.tsu, p⟩ := by
  simp only [State.rxCorr, State.updLink_src, State.updLink_link, h]
  rfl

theorem State.judgeSender_qualified (s : State) (n : Node) : s.judgeSender n .qualified = s.updTime n fun t => { t with upTq := .qualified } := by
  simp only [State.judgeSender]
  split <;> rfl

theorem State.takeInfo_qualified (s : State) (i : TimeInfo) :
    s.takeInfo .tsu i .qualified = s.updTime .tsu fun t => { t with info := i, upTq := .qualified } := by
  rw [State.takeInfo, State.judgeSender_qualified, State.updTime_updTime]

theorem State.exchange_of_no_echo {s : State} {l : LinkId} {f : Frame} {arr : Int} (h : bitOf (f.byte 35) 1 = false) :
    s.exchange l f arr = none :=
  if_neg fun hecho => Bool.eq_false_iff.mp h hecho.1

theorem State.loopback_tsu (s : State) (p : Nat) (f : Frame) : s.loopback ⟨.tsu, p⟩ f = false := by
  simp [State.loopback]

theorem State.rootSplit_tsu (s : State) (p : Nat) (f : Frame) : s.rootSplit ⟨.tsu, p⟩ f = s := by
  simp [State.rootSplit]

theorem State.timeFrameTake_of_selected {s : State} {p : Nat} {f : Frame} {stamp : Int} (hsel : (s.time .tsu).sel = some p)
    (hepoch : (s.time .tsu).stepped = false ∨ (s.time .tsu).epoch.toNat = f.byte 34) (hq : frameQuality f = .qualified)
    (hecho : bitOf (f.byte 35) 1 = false) : s.timeFrameTake ⟨.tsu, p⟩ f stamp true =
      (s.updSrc ⟨.tsu, p⟩ fun v =>
        { v with timeOk := true, lost := false, lastValid := s.aon .tsu, senderTq := .qualified, better := 0,
                 rxs := (⟨BitVec.ofNat 8 (f.byte 33), f.time.toNat * 65536 + f.nat 12 2,
                   correctStamp stamp (- s.rxCorr ⟨.tsu, p⟩)⟩ :: v.rxs).take 5,
                 senderEpoch := BitVec.ofNat 8 (f.byte 34), senderHops := f.byte 50, info := frameInfo f }).updTime .tsu fun t =>
          { t with info := frameInfo f, upTq := .qualified } := by
  have hkeep : ¬ ((s.time .tsu).stepped = true ∧ (s.time .tsu).epoch.toNat ≠ f.byte 34) := fun ⟨hs, he⟩ =>
    hepoch.elim (fun h => absurd (h.symm.trans hs) (by decide)) he
  simp only [State.timeFrameTake, reduceCtorEq, false_and, if_false, State.loopback_tsu, Bool.false_eq_true,
    State.rootSplit_tsu, State.updSrc_time, hsel, decide_true, true_and, if_true, if_neg hkeep, hq, ne_eq,
    not_true, State.takeInfo_qualified, State.exchange_of_no_echo hecho]

/-- Settles O17: each outcome by the first test that holds of the frame. -/
theorem timeFrameRxRules : Obligations.TimeFrameRxRules := by
  unfold Obligations.TimeFrameRxRules
  refine ⟨fun p rx stamp s hup hin hgood htype hcls hver hvalid hsel hepoch hq hecho => ?_,
    fun l rx stamp s hup hin hgood htype hcls hver hvalid => ?_, fun l rx stamp s hup hout hgood htype hcls hver => ?_,
    fun l rx stamp s hup hgood htype hver => ?_, fun l rx stamp s hup hin hgood htype hcls hver hvalid => ?_,
    fun l rx stamp s hup hpoison => ?_, fun l rx stamp s hup hident => ?_⟩ <;>
    refine congrArg Host.Outcome.next ?_
  · rw [State.timeFrameRx_of_good hup hgood htype]
    simp only [hcls, hver, ne_eq, not_true, or_self, if_false, hin, Bool.false_eq_true, hvalid, Bool.not_true]
    rw [State.timeFrameTake_of_selected ((State.updLink_time ..).symm ▸ hsel) ((State.updLink_time ..).symm ▸ hepoch) hq hecho, State.updLink_aon,
      State.rxCorr_updLink _ _ _ rfl]
    refine State.addendWord_of_addend ?_
    rw [State.updTime_time, State.updSrc_time, State.updLink_time]
  · rw [State.timeFrameRx_of_good hup hgood htype]
    simp only [hcls, hver, ne_eq, not_true, or_self, if_false, hin, Bool.false_eq_true, hvalid, Bool.not_true]
  · rw [State.timeFrameRx_of_good hup hgood htype]
    simp only [hcls, hver, ne_eq, not_true, or_self, if_false, hout, if_true]
    exact State.addendWord_of_time (State.updLink_time ..)
  · rw [State.timeFrameRx_of_good hup hgood htype]
    simp only [hver, ne_eq, not_false_iff, or_true, if_true]
    exact State.addendWord_of_time ((State.malformed_time ..).trans (State.updLink_time ..))
  · rw [State.timeFrameRx_of_good hup hgood htype]
    simp only [hcls, hver, ne_eq, not_true, or_self, if_false, hin, Bool.false_eq_true, hvalid, Bool.not_false, if_true]
    exact State.addendWord_of_time ((State.log_time ..).trans (State.updLink_time ..))
  · rw [State.timeFrameRx_of_poison hup hpoison]
    exact State.addendWord_of_time (State.updLink_time ..)
  · rw [State.timeFrameRx_of_down hup hident]
    exact State.addendWord_of_same s

end Sys2Proof.Machine
end

section
/-! What a record of the error log and an event bit move (R15, R189 to R193, R407, R456). -/

namespace Sys2Proof.Machine

open Sys2Proof

/-- `d` is `c` after records and events: the error log, the event words, the queue of vectors and the offset of the last
access error may differ, and nothing else. -/
def Common.Noted (c d : Common) : Prop :=
  ∃ log lost evt now irq acc,
    d = { c with log := log, logLost := lost, evt := evt, setNow := now, irq := irq, accAddr := acc }

section
variable {c d e : Common}

theorem Common.Noted.refl (c : Common) : c.Noted c := ⟨_, _, _, _, _, _, rfl⟩

theorem Common.Noted.trans (h : c.Noted d) (k : d.Noted e) : c.Noted e := by
  obtain ⟨_, _, _, _, _, _, rfl⟩ := h
  obtain ⟨_, _, _, _, _, _, rfl⟩ := k
  exact ⟨_, _, _, _, _, _, rfl⟩

theorem Common.Noted.time (h : c.Noted d) : d.time = c.time := by obtain ⟨_, _, _, _, _, _, rfl⟩ := h; rfl
theorem Common.Noted.links (h : c.Noted d) : d.links = c.links := by obtain ⟨_, _, _, _, _, _, rfl⟩ := h; rfl
theorem Common.Noted.srcs (h : c.Noted d) : d.srcs = c.srcs := by obtain ⟨_, _, _, _, _, _, rfl⟩ := h; rfl
theorem Common.Noted.rw (h : c.Noted d) : d.rw = c.rw := by obtain ⟨_, _, _, _, _, _, rfl⟩ := h; rfl
theorem Common.Noted.bulk (h : c.Noted d) : d.bulk = c.bulk := by obtain ⟨_, _, _, _, _, _, rfl⟩ := h; rfl

theorem Common.setEvt_noted (c : Common) (off : Nat) (m : Word) : c.Noted (c.setEvt off m) := ⟨_, _, _, _, _, _, rfl⟩

theorem Common.setIrq_noted (c : Common) (m : Word) : c.Noted (c.setIrq m) := by
  obtain ⟨q, hq⟩ := c.setIrq_eq_setEvt m
  rw [hq]
  exact ⟨_, _, _, _, _, _, rfl⟩

theorem Common.accessErr_noted (c : Common) (b off : Nat) : c.Noted (c.accessErr b off) := by
  obtain ⟨q, hq⟩ := c.accessErr_eq b off
  rw [hq]
  exact ⟨_, _, _, _, _, _, rfl⟩

theorem Common.record_noted (c : Common) (cap off : Nat) (ovf : Word) (code source detail : Nat) (slice : Option Nat) :
    c.Noted (c.record cap off ovf code source detail slice) := by
  have hlog : ∀ log lost, c.Noted { c with log := log, logLost := lost } := fun _ _ => ⟨_, _, _, _, _, _, rfl⟩
  rw [Common.record]
  split
  · exact (hlog _ _).trans (Common.setIrq_noted ..)
  · simp only []
    split
    · exact ((hlog _ _).trans (Common.setEvt_noted ..)).trans (Common.setIrq_noted ..)
    · exact (hlog _ _).trans (Common.setIrq_noted ..)

end

/-- A record of a TSU that concerns no slice. -/
theorem State.logT_eq (s : State) (code : ErrCode) (source detail : Nat) :
    ∃ d, s.tsu.com.Noted d ∧ s.logT code source detail = { s with tsu := { s.tsu with com := d } } := by
  rw [State.logT]
  cases codeEvt code with
  | none => exact ⟨_, Common.record_noted .., rfl⟩
  | some e => exact ⟨_, (Common.record_noted ..).trans (Common.setEvt_noted ..), rfl⟩

/-- A record of a TSU for a slice is noted in the slice too. -/
theorem State.logT_slice_eq (s : State) (code : ErrCode) (source detail n : Nat) :
    ∃ d, s.tsu.com.Noted d ∧ s.logT code source detail (some n) = { s with tsu := { s.tsu with
      com := d, slices := Tab.put s.tsu.slices n
        ((Tab.getD s.tsu.slices n Slice.reset).noteErr code.value (detail % 4294967296)) } } := by
  rw [State.logT]
  cases codeEvt code with
  | none => exact ⟨_, Common.record_noted .., rfl⟩
  | some e => exact ⟨_, (Common.record_noted ..).trans (Common.setEvt_noted ..), rfl⟩

theorem Gd.journalWrite_eq (g : Gd) (kind code source : Nat) (body : List Byte) :
    ∃ j, g.journalWrite kind code source body = { g with journal := j } := by
  unfold Gd.journalWrite
  simp only []
  repeat' split
  all_goals exact ⟨_, rfl⟩

theorem State.logRaw_eq (s : State) (code source detail : Nat) :
    ∃ d j, s.gd.com.Noted d ∧ s.logRaw code source detail = { s with gd := { s.gd with com := d, journal := j } } := by
  obtain ⟨j, hj⟩ := Gd.journalWrite_eq { s.gd with com := s.gd.com.record 128 0x80 0x100#32 code source (detail % 4294967296) none }
    1 code source (LogEntry.bytes ⟨code, source,
      (s.gd.com.record 128 0x80 0x100#32 code source (detail % 4294967296) none).time.counter.ns32, detail % 4294967296, 0, none,
      (s.gd.com.record 128 0x80 0x100#32 code source (detail % 4294967296) none).time.aon⟩)
  exact ⟨_, j, Common.record_noted .., congrArg (fun g => { s with gd := g }) hj⟩

/-- A record of a distributor enters its journal too. -/
theorem State.logG_eq (s : State) (code : ErrCode) (source detail : Nat) :
    ∃ d j, s.gd.com.Noted d ∧ s.logG code source detail = { s with gd := { s.gd with com := d, journal := j } } := by
  obtain ⟨d, j, hd, hlog⟩ := s.logRaw_eq code.value source detail
  rw [State.logG, hlog]
  cases codeEvtG code with
  | none => exact ⟨d, j, hd, rfl⟩
  | some e => exact ⟨_, j, hd.trans (Common.setEvt_noted ..), rfl⟩

section
variable (s : State) (n : Node) (code : ErrCode) (source detail : Nat)

theorem State.logG_tsu : (s.logG code source detail).tsu = s.tsu := (State.logG_quiet rfl (.refl s)).apart.tsu

theorem State.logT_gd (slice : Option Nat) : (s.logT code source detail slice).gd = s.gd :=
  (State.logT_quiet rfl (.refl s)).apart.gd

@[simp] theorem State.log_src (l : LinkId) : (s.log n code source detail).src l = s.src l := by
  obtain ⟨m, p⟩ := l
  cases n with
  | tsu =>
    obtain ⟨d, hd, hlog⟩ := s.logT_eq code source detail
    rw [State.log, hlog]
    cases m with
    | tsu => simp only [State.src, State.com, hd.srcs]
    | gd => rfl
  | gd =>
    obtain ⟨d, j, hd, hlog⟩ := s.logG_eq code source detail
    rw [State.log, hlog]
    cases m with
    | tsu => rfl
    | gd => simp only [State.src, State.com, hd.srcs]

@[simp] theorem State.log_link (l : LinkId) : (s.log n code source detail).link l = s.link l := by
  obtain ⟨m, p⟩ := l
  cases n with
  | tsu =>
    obtain ⟨d, hd, hlog⟩ := s.logT_eq code source detail
    rw [State.log, hlog]
    cases m with
    | tsu => simp only [State.link, State.com, hd.links]
    | gd => rfl
  | gd =>
    obtain ⟨d, j, hd, hlog⟩ := s.logG_eq code source detail
    rw [State.log, hlog]
    cases m with
    | tsu => rfl
    | gd => simp only [State.link, State.com, hd.links]

@[simp] theorem State.setEvt_src (off : Nat) (m : Word) (l : LinkId) : (s.setEvt n off m).src l = s.src l := by
  obtain ⟨k, p⟩ := l
  cases n <;> cases k <;> rfl

@[simp] theorem State.setEvt_link (off : Nat) (m : Word) (l : LinkId) : (s.setEvt n off m).link l = s.link l := by
  obtain ⟨k, p⟩ := l
  cases n <;> cases k <;> rfl

end

end Sys2Proof.Machine
end

section
/-! The delay measurement and the selection of a time source (R77, R78, R82, R83). -/

namespace Sys2Proof.Machine

open Sys2Proof

theorem State.acquire_sel (s : State) (l : LinkId) (n : Node) : ((s.acquire l).time n).sel = (s.time n).sel := by
  have hown : ((s.acquire l).time l.node).sel = (s.time l.node).sel := by
    rw [State.acquire, State.updTimeQ_time]
    split <;> rfl
  have hapart : Apart l.node s (s.acquire l) := State.acquire_apart rfl (.refl s)
  obtain ⟨m, p⟩ := l
  cases n <;> cases m
  · exact hown
  · rw [State.time_tsu, State.time_tsu, hapart.tsu]
  · rw [State.time_gd, State.time_gd, hapart.gd]
  · exact hown

section
variable {s : State} {l : LinkId}

theorem State.delayMeasurementDone_of_served (hvalid : (s.src l).delayValid = false) (hcount : 64 ≤ (s.src l).count)
    (hup : (s.link l).state = .up) (hold : (s.src l).oldMean = none) (hsel : (s.time l.node).sel = some l.port) :
    s.delayMeasurementDone l = ((s.updSrc l fun v =>
      { v with delayValid := true, measured := true, away := false, mean := ⟨(s.src l).sum, 6⟩, oldMean := none, count := 0,
               gated := 0, freqErr := firstIntegral v.thetaFirst v.theta }).acquire l).selectSource l.node := by
  simp only [State.delayMeasurementDone, hvalid, hup, hold, State.acquire_sel, State.updSrc_time, hsel, Bool.false_eq_true,
    ne_eq, not_true, or_false, Nat.not_lt.mpr hcount, if_false, reduceCtorEq, false_and]

theorem State.delayRestart_of_gated (hgated : 16 ≤ (s.src l).gated) (hvalid : (s.src l).delayValid = true) :
    s.delayRestart l = ((s.updSrc l fun v => { v with delayValid := false, count := 0, sum := 0, gated := 0 }).setEvt l.node
      (tstatOff l) 0x8).log l.node .pathChanged l.source := if_pos ⟨hgated, hvalid⟩

/-- A source lost for time, noted and recorded. -/
def State.lostForTime (s : State) (l : LinkId) : State :=
  ((s.updSrc l fun v => { v with lost := true, away := true }).setEvt l.node (tstatOff l) 0x4).log l.node .timeLoss l.source

theorem State.timeLoss_of_silent (htrained : s.trained l = true) (hlost : (s.src l).lost = false)
    (hsilent : (s.src l).lastValid + 16384 ≤ s.aon l.node) : s.timeLoss l =
      (if l.node = .tsu then (s.lostForTime l).healthSend .timeLoss else s.lostForTime l).srcInvalid l :=
  if_pos ⟨htrained, by simpa using hlost, hsilent⟩

/-- The loss of a distributor's port that no time comes from leaves its time domain. -/
theorem State.srcInvalid_of_unused {p : Nat} (hpartner : p ≠ s.gd.partnerPort) (hup0 : p ≠ 64) (hup1 : p ≠ 65)
    (hsel : (s.time .gd).sel ≠ some p) (htq : (s.time .gd).tq ≠ .acquiring) :
    s.srcInvalid ⟨.gd, p⟩ = s.updSrc ⟨.gd, p⟩ fun v => { v.remeasure with timeOk := false } := by
  have hpartner' : p ≠ (s.updSrc ⟨.gd, p⟩ fun v => { v.remeasure with timeOk := false }).gd.partnerPort := hpartner
  simp only [State.srcInvalid, hpartner', hup0, hup1, and_false, or_false, false_and, if_false, State.updSrc_time, hsel, htq]

theorem State.takeSource_time {n : Node} {p : Nat}
    (hepoch : (s.time n).stepped = false ∨ (s.src ⟨n, p⟩).senderEpoch = (s.time n).epoch) :
    (s.takeSource n (some p)).time n = { s.time n with
      sel := some p, selLane := p, upTq := (s.src ⟨n, p⟩).senderTq, info := (s.src ⟨n, p⟩).info,
      switches := if (s.time n).sel.isSome ∧ (s.time n).sel ≠ some p then min ((s.time n).switches + 1) 0xFF
        else (s.time n).switches } := by
  have hkeep : ¬ (((s.time n).stepped && decide ((s.src ⟨n, p⟩).senderEpoch ≠ (s.time n).epoch)) = true) := by
    rw [Bool.and_eq_true, decide_eq_true_eq]
    exact fun ⟨hs, he⟩ => hepoch.elim (fun h => absurd (h.symm.trans hs) (by decide)) he
  rw [State.takeSource]
  simp only [hkeep, Bool.false_eq_true, if_false]
  cases n with
  | tsu => simp only [State.updSrc_time, State.updTime_time]
  | gd =>
    simp only []
    rw [(State.noteTrace_quiet rfl (.refl _)).time]
    split <;> simp only [State.time_gd, State.updGd_gd] <;> simp only [← State.time_gd, State.updSrc_time, State.updTime_time]

theorem State.sourceSwitchBetter_of_better (hbetter : 16 ≤ (s.src l).better) (hcand : l.port ∈ s.candPorts l.node)
    (helig : s.eligible l = true) : s.sourceSwitchBetter l = s.takeSource l.node (some l.port) :=
  if_pos ⟨hbetter, hcand, helig⟩

end

/-- Settles O18: a measurement, a restart, a loss and a switch by the tests that hold of them. -/
theorem sourceRules : Obligations.SourceRules := by
  unfold Obligations.SourceRules
  refine ⟨fun l s hvalid hcount hup hold hsel => ?_, fun l s hgated hvalid => ?_, fun l s u htrained hlost hsilent hu => ?_,
    fun p s htrained hlost hsilent hpartner hup0 hup1 hsel htq => ?_, fun l s hbetter hcand helig hepoch => ?_⟩
  · exact congrArg (fun t : State => Host.Outcome.next (t.addendWord s.tsu.com.time.addend))
      (State.delayMeasurementDone_of_served hvalid hcount hup hold hsel)
  · exact congrArg Host.Outcome.next (State.delayRestart_of_gated hgated hvalid)
  · subst hu
    exact congrArg Host.Outcome.next (State.timeLoss_of_silent htrained hlost hsilent)
  · have hnoted : (s.lostForTime ⟨.gd, p⟩).time .gd = s.time .gd := by
      rw [State.lostForTime, State.log_time, State.setEvt_time, State.updSrc_time]
    have hsrc : (s.lostForTime ⟨.gd, p⟩).src ⟨.gd, p⟩ = { s.src ⟨.gd, p⟩ with lost := true, away := true } := by
      rw [State.lostForTime, State.log_src, State.setEvt_src, State.updSrc_src]
    have hport : (s.lostForTime ⟨.gd, p⟩).gd.partnerPort = s.gd.partnerPort := by
      obtain ⟨d, j, -, hlog⟩ := ((s.updSrc ⟨.gd, p⟩ fun v => { v with lost := true, away := true }).setEvt .gd
        (tstatOff ⟨.gd, p⟩) 0x4).logG_eq .timeLoss (LinkId.source ⟨.gd, p⟩) 0
      have hlost : s.lostForTime ⟨.gd, p⟩ = _ := hlog
      rw [hlost]
      rfl
    have heq : s.timeLoss ⟨.gd, p⟩ =
        (s.lostForTime ⟨.gd, p⟩).updSrc ⟨.gd, p⟩ fun v => { v.remeasure with timeOk := false } := by
      rw [State.timeLoss_of_silent htrained hlost hsilent, if_neg (by simp only [reduceCtorEq, not_false_iff])]
      exact State.srcInvalid_of_unused (hport ▸ hpartner) hup0 hup1 (hnoted ▸ hsel) (hnoted ▸ htq)
    refine ⟨s.timeLoss ⟨.gd, p⟩, rfl, ?_, ?_, (execTimeLoss_apart (l := ⟨.gd, p⟩) rfl (.refl s)).tsu⟩
    · rw [heq, State.updSrc_src, hsrc]
      rfl
    · rw [heq, ← State.time_gd, State.updSrc_time]
      exact hnoted
  · have htime := State.takeSource_time (p := l.port) hepoch
    rw [← State.sourceSwitchBetter_of_better hbetter hcand helig] at htime
    exact ⟨s.sourceSwitchBetter l, rfl, by rw [htime], by rw [htime], by rw [State.now, htime, State.now], by rw [htime]⟩

end Sys2Proof.Machine
end

section
/-! The reference sources of a distributor: what each input writes (R95 to R103). -/

namespace Sys2Proof.Machine

open Sys2Proof

section
variable (s : State)

theorem State.noteChange_eq (c : Bool) : ∃ j, s.noteChange c = { s with gd := { s.gd with journal := j } } := by
  rw [State.noteChange]
  split
  · obtain ⟨j, hj⟩ := s.gd.journalWrite_eq 6 0 (s.gd.locator.getD 0) (Config.noFrameBody s.gd.journal.recno)
    exact ⟨j, congrArg (fun g => { s with gd := g }) hj⟩
  · exact ⟨_, rfl⟩

/-- What a write of the selector's record moves: the record and the journal. -/
theorem State.updRef_eq (f : RefSel → RefSel) :
    ∃ j, s.updRef f = { s with gd := { s.gd with ref := f s.gd.ref, journal := j } } := by
  rw [State.updRef]
  exact State.noteChange_eq _ _

theorem State.updRefSrc_eq (i : Nat) (f : RefSrc → RefSrc) :
    ∃ j, s.updRefSrc i f = { s with gd := { s.gd with
      ref := { s.gd.ref with srcs := Tab.put s.gd.ref.srcs i (f (s.refSrc i)) }, journal := j } } := by
  rw [State.updRefSrc]
  exact State.noteChange_eq _ _

theorem State.refSrc_updRefSrc (i k : Nat) (f : RefSrc → RefSrc) :
    (s.updRefSrc i f).refSrc k = if k = i then f (s.refSrc i) else s.refSrc k := by
  obtain ⟨j, hj⟩ := s.updRefSrc_eq i f
  rw [hj]
  simp only [State.refSrc, Tab.getD_put, eq_comm]

@[simp] theorem State.setEvt_refSrc (n : Node) (off : Nat) (m : Word) (k : Nat) :
    (s.setEvt n off m).refSrc k = s.refSrc k := by cases n <;> rfl

@[simp] theorem State.logG_refSrc (code : ErrCode) (source detail k : Nat) :
    (s.logG code source detail).refSrc k = s.refSrc k := by
  obtain ⟨d, j, -, hlog⟩ := s.logG_eq code source detail
  rw [hlog]
  rfl

theorem State.updRef_refSrc {f : RefSel → RefSel} (hf : (f s.gd.ref).srcs = s.gd.ref.srcs) (k : Nat) :
    (s.updRef f).refSrc k = s.refSrc k := by
  obtain ⟨j, hj⟩ := s.updRef_eq f
  rw [hj, State.refSrc, State.refSrc, hf]

end

theorem RefSel.tickStart_srcs (r : RefSel) : r.tickStart.srcs = r.srcs := by rw [RefSel.tickStart]; split <;> rfl

theorem RefSel.keepTick_srcs (r : RefSel) (aon : Nat) : (r.keepTick aon).srcs = r.srcs := by
  rw [RefSel.keepTick]; split <;> rfl

theorem RefSel.unlocked_srcs (r : RefSel) (aon : Nat) : (r.unlocked aon).srcs = r.srcs := rfl

/-- A change of the selector's state begins the offsets of a source anew and leaves the rest of it. -/
theorem State.refStateUpdate_refSrc (s : State) (t f : Option Nat) (k : Nat) : ∃ o m num,
    (s.refStateUpdate t f).refSrc k = { s.refSrc k with filtered := o, sum := m, num := num } := by
  simp only [State.refStateUpdate]
  split
  · exact ⟨_, _, _, State.updRef_refSrc _ rfl k⟩
  · split
    · exact ⟨_, _, _, rfl⟩
    · split
      · split
        · exact ⟨_, _, _, rfl⟩
        · rw [State.updRef_refSrc _ rfl, State.refSrc_updRefSrc]
          split
          case isTrue h => exact h ▸ ⟨_, _, _, rfl⟩
          case isFalse => exact ⟨_, _, _, rfl⟩
      · split
        · exact ⟨_, _, _, rfl⟩
        · exact ⟨_, _, _, State.updRef_refSrc _ rfl k⟩
      · split
        · exact ⟨_, _, _, rfl⟩
        · exact ⟨_, _, _, (State.logG_refSrc ..).trans (State.updRef_refSrc _ rfl k)⟩

/-- The record of a tick of the selector, R99: it begins from what the tick held. -/
def State.tickRef (s : State) : RefSel := (s.gd.ref.keepTick s.gd.com.time.aon).tickStart

/-- The record with the entries the selector chooses, R99 and R100. -/
def State.selectedRef (s : State) : RefSel := { s.tickRef with
  timeEntry := s.selectEntry s.timeCand s.tickRef.timeEntry ((s.tickRef.hold.map (·.wtrs)).getD [])
  freqEntry := s.selectEntry s.freqCand s.tickRef.freqEntry ((s.tickRef.hold.map (·.wtrs)).getD []) }

theorem State.refSelect_eq (s : State) : s.refSelect =
    (s.updRef fun _ => s.selectedRef).refStateUpdate s.tickRef.timeEntry s.tickRef.freqEntry := rfl

theorem State.selectedRef_srcs (s : State) : s.selectedRef.srcs = s.gd.ref.srcs :=
  (RefSel.tickStart_srcs _).trans (RefSel.keepTick_srcs _ _)

theorem State.refSelect_refSrc (s : State) (k : Nat) : ∃ o m num,
    s.refSelect.refSrc k = { s.refSrc k with filtered := o, sum := m, num := num } := by
  rw [State.refSelect_eq, ← State.updRef_refSrc s (f := fun _ => s.selectedRef) s.selectedRef_srcs k]
  exact State.refStateUpdate_refSrc ..

theorem State.refSelect_state (s : State) (k : Nat) : (s.refSelect.refSrc k).state = (s.refSrc k).state := by
  obtain ⟨o, m, num, h⟩ := s.refSelect_refSrc k
  rw [h]

theorem State.refFault_state {s : State} {i : Nat} {m : Word} (hpres : s.refPresent i = true) :
    ((s.refFault i m).refSrc i).state = .failed := by
  have hsrc : ((s.updRefSrc i fun v => { v with state := .failed, goodSecs := 0 }).setEvt .gd (0x228 + 4 * (i - 1)) m).refSrc i
      = { s.refSrc i with state := .failed, goodSecs := 0 } := by
    rw [State.setEvt_refSrc, State.refSrc_updRefSrc, if_pos rfl]
  rw [State.refFault, if_pos hpres]
  simp only []
  rw [State.refSelect_state]
  split <;> simp only [State.logG_refSrc, hsrc]

theorem State.refPpsEdge.correctStamp'_eq : State.refPpsEdge.correctStamp' = correctStamp := rfl

section
variable {n : Nat} {stamp at0 e : Int} {s : State} {sec : Nat} {utc : BitVec 16} {leap : Option LeapNews}

theorem State.refPpsEdge_of_first (hn : n < 4) (hpres : s.refPresent (n + 1) = true) (hmode : s.refMode n = 1)
    (hlast : (s.refSrc (n + 1)).lastEdge = none)
    (hat : at0 = correctStamp stamp (- (BitVec.ofNat 32 (s.reg .gd (0x218 + 4 * n))).toInt)) :
    s.refPpsEdge n stamp = ((s.updRefSrc (n + 1) fun v => { v with lastPulse := some at0, lastSeen := s.aon .gd }).updRefSrc
      (n + 1) fun v => { v with lastEdge := some at0 }).refGood (n + 1) := by
  subst hat
  rw [State.refPpsEdge, if_pos ⟨hn, hpres, hmode⟩]
  simp only [hlast, Option.map_none, Bool.false_eq_true, if_false, State.refPpsEdge.correctStamp'_eq]
  rfl

theorem State.refPpsEdge_of_hit (hn : n < 4) (hpres : s.refPresent (n + 1) = true) (hmode : s.refMode n = 1)
    (hlast : (s.refSrc (n + 1)).lastEdge = some e)
    (hat : at0 = correctStamp stamp (- (BitVec.ofNat 32 (s.reg .gd (0x218 + 4 * n))).toInt))
    (hhit : 6553600 < (s.edgeFrom e at0).2.natAbs) :
    s.refPpsEdge n stamp = (s.updRefSrc (n + 1) fun v => { v with lastPulse := some at0, lastSeen := s.aon .gd }).refFault
      (n + 1) 0x10 := by
  subst hat
  rw [State.refPpsEdge, if_pos ⟨hn, hpres, hmode⟩]
  simp only [hlast, Option.map_some, State.refPpsEdge.correctStamp'_eq, decide_eq_true hhit, if_true]
  rfl

theorem State.todMessageRx_of_no_edge {ok : Bool} (hn : n < 4) (hpres : s.refPresent (n + 1) = true)
    (hmode : s.refMode n = 1) (hpulse : (s.refSrc (n + 1)).lastPulse = none) :
    s.todMessageRx n stamp sec ok utc leap = s.refFault (n + 1) 0x20 := by
  rw [State.todMessageRx, if_pos ⟨hn, hpres, hmode⟩]
  simp only [hpulse]

theorem State.todMessageRx_of_bad (hn : n < 4) (hpres : s.refPresent (n + 1) = true) (hmode : s.refMode n = 1)
    (hpulse : (s.refSrc (n + 1)).lastPulse = some e) :
    s.todMessageRx n stamp sec false utc leap
      = (s.updRefSrc (n + 1) fun v => { v with lastSec := none }).refFault (n + 1) 0x20 := by
  rw [State.todMessageRx, if_pos ⟨hn, hpres, hmode⟩]
  simp only [hpulse, Bool.not_false, true_or, if_true, Bool.false_eq_true, if_false]

theorem State.todMessageRx_of_good (hn : n < 4) (hpres : s.refPresent (n + 1) = true) (hmode : s.refMode n = 1)
    (hpulse : (s.refSrc (n + 1)).lastPulse = some e) (hnmea : bitOf (s.reg .gd 0x214) (8 * n + 2) = false)
    (hlate : 655360000000 ≤ stamp - e) (hearly : stamp - e ≤ 58982400000000)
    (hsec : (s.refSrc (n + 1)).lastSec = none ∨ (s.refSrc (n + 1)).lastSec = some (sec - 1) ∧ 1 ≤ sec) :
    s.todMessageRx n stamp sec true utc leap = (((s.updRefSrc (n + 1) fun v =>
      { v with lastSec := some sec, goodSecs := v.goodSecs + 1, sum := e - (sec : Int) * 65536000000000,
               num := if v.lastEdge = v.lastPulse then 1 else 0 }).takeUtc (some utc) leap).refGood (n + 1)) := by
  rw [State.todMessageRx, if_pos ⟨hn, hpres, hmode⟩]
  simp only [hpulse, hnmea, Bool.false_eq_true, if_false]
  rw [if_neg, Int.toNat_natCast]
  rintro (h | h | h | h | h)
  · exact absurd h (by decide)
  · omega
  · omega
  · obtain hnone | ⟨hlast, hpos⟩ := hsec
    · simp only [hnone, Bool.not_true, Bool.false_eq_true] at h
    · simp only [hlast, Bool.not_eq_true', decide_eq_false_iff_not] at h
      omega
  · omega

end

/-- What a loss timeout does when the loss it watches for has come. -/
theorem State.refLossTimeout_of_lost {s : State} {i : Nat} {why : RefLoss} (happ : s.lossApplies i why = true)
    (hstate : (s.refSrc i).state = .qualifying ∨ (s.refSrc i).state = .qualified)
    (hdue : (if (lossLimit why).2 then (s.refSrc i).lastAnn else (s.refSrc i).lastSeen) + (lossLimit why).1 ≤ s.aon .gd) :
    s.refLossTimeout i why = (s.updRefSrc i fun v => { v with lastEdge := none }).refFault i 0x8 :=
  if_pos ⟨happ, hstate, hdue⟩

theorem State.updRefSrc_reg (s : State) (i : Nat) (f : RefSrc → RefSrc) (off : Nat) :
    (s.updRefSrc i f).reg .gd off = s.reg .gd off := by
  obtain ⟨j, hj⟩ := s.updRefSrc_eq i f
  rw [hj]
  rfl

theorem State.noteRate_reg (s : State) (i : Nat) (dev : Int) (off : Nat) : (s.noteRate i dev).reg .gd off = s.reg .gd off := by
  simp only [State.noteRate]
  split
  · obtain ⟨j, hj⟩ := State.updRef_eq _ _
    rw [hj, ← State.updRefSrc_reg s i _ off]
    rfl
  · exact State.updRefSrc_reg ..

theorem State.refFreqMeasure_of_watched {s : State} {i : Nat} {dev : Int} (hi : i = 7 ∨ i = 8)
    (hpres : s.refPresent i = true) :
    s.refFreqMeasure i dev = if s.refFreqLimit < dev.natAbs
      then ((s.noteRate i dev).updRefSrc i fun v => { v with lastSeen := s.aon .gd }).refFault i 0x40
      else ((s.noteRate i dev).updRefSrc i fun v => { v with lastSeen := s.aon .gd }).refGood i := by
  rw [State.refFreqMeasure, if_pos ⟨decide_eq_true (Or.inr hi), hpres⟩]
  simp only [State.refFreqLimit, State.updRefSrc_reg, State.noteRate_reg]
  rfl

/-- The conditions under which a message of a PTP domain is heard, R96. -/
theorem State.ptpMessageRx_of_sync {n dom id : Nat} {t1 t2 t3 t4 : Int} {s : State} (hn : n < 2) (hptp : s.gd.hasPtp = true)
    (hrole : s.ptpRole n = 3) (hdom : dom = s.ptpDomain n) (hid : (s.refSrc (n + 5)).chosen = some id) :
    s.ptpMessageRx n (.sync dom id t1 t2 t3 t4) = (s.updRefSrc (n + 5) fun v =>
      { v with lastSeen := s.aon .gd, lastSec := some (t1 / 65536000000000).toNat,
               sum := v.sum + roundAway ((t2 - t1) - (t4 - t3)) 2, num := v.num + 1 }).refGood (n + 5) := by
  rw [State.ptpMessageRx, if_pos ⟨hn, hptp⟩]
  simp only []
  rw [if_pos ⟨hdom, decide_eq_true hrole, hid⟩]
  rfl

theorem State.ptpMessageRx_of_delayReq {n dom : Nat} {s : State} (hn : n < 2) (hptp : s.gd.hasPtp = true)
    (hrole : s.ptpRole n = 1) (hdom : dom = s.ptpDomain n) :
    s.ptpMessageRx n (.delayReq dom)
      = s.updGd fun g => { g with ptpOut := [⟨n, true, none, .other, s.gd.com.time.counter⟩] } := by
  rw [State.ptpMessageRx, if_pos ⟨hn, hptp⟩]
  exact if_pos ⟨hdom, hrole⟩

section
variable {n dom id cls rank : Nat} {leap : Option LeapNews} {s u : State}

theorem State.ptpMessageRx_of_announce (hn : n < 2) (hptp : s.gd.hasPtp = true) (hrole : s.ptpRole n = 3)
    (hdom : dom = s.ptpDomain n)
    (hu : u = (s.updRefSrc (n + 5) fun v => { v with
      masters := Tab.put v.masters id ⟨cls, rank, s.aon .gd⟩,
      chosen := { v with masters := Tab.put v.masters id ⟨cls, rank, s.aon .gd⟩ : RefSrc }.bestMaster (s.aon .gd) })) :
    s.ptpMessageRx n (.announce dom id cls rank leap) = if (u.refSrc (n + 5)).chosen = some id then
      (if ((u.updRefSrc (n + 5) fun v => { v with lastAnn := s.aon .gd, classRx := cls }).takeUtc none leap).ptpClassMax < cls
        then ((u.updRefSrc (n + 5) fun v => { v with lastAnn := s.aon .gd, classRx := cls }).takeUtc none leap).refFault (n + 5) 0x80
        else ((u.updRefSrc (n + 5) fun v => { v with lastAnn := s.aon .gd, classRx := cls }).takeUtc none leap).refGood (n + 5))
      else u := by
  subst hu
  rw [State.ptpMessageRx, if_pos ⟨hn, hptp⟩]
  simp only [hdom, decide_eq_true hrole, true_and, if_true]
  rfl

end

theorem State.takeUtc_reg (s : State) (utc : Option (BitVec 16)) (leap : Option LeapNews) (off : Nat) :
    (s.takeUtc utc leap).reg .gd off = s.reg .gd off := by
  unfold State.takeUtc
  split
  · cases utc <;> cases leap <;> rfl
  · rfl

/-- Settles O19: what each message, edge, measurement and timeout does where it is heard. -/
theorem referenceInputRules : Obligations.ReferenceInputRules := by
  unfold Obligations.ReferenceInputRules
  refine ⟨fun n stamp at0 s hn hpres hmode hlast hat => ?_, fun n stamp at0 e s hn hpres hmode hlast hat hhit => ?_,
    fun n stamp sec ok utc s hn hpres hmode hpulse => ?_, fun n stamp e sec utc s hn hpres hmode hpulse => ?_,
    fun n stamp e sec utc s hn hpres hmode hpulse hnmea hlate hearly hsec => ?_,
    fun n dom id t1 t2 t3 t4 s hn hptp hrole hdom hid => ?_,
    fun n dom id cls rank leap s u hn hptp hrole hdom hu => ⟨fun hother => ?_, fun hid hcls => ?_⟩,
    fun n dom s hn hptp hrole hdom => ?_, fun n q s hn hpres => ?_, fun n s hn hpres => ?_,
    fun i why s happ hstate hdue => ?_, fun i dev s u hi hpres hu => ?_, fun i m s hpres => ⟨?_, ?_⟩⟩
  · exact congrArg Host.Outcome.next (State.refPpsEdge_of_first hn hpres hmode hlast hat)
  · exact congrArg Host.Outcome.next (State.refPpsEdge_of_hit hn hpres hmode hlast hat hhit)
  · exact congrArg Host.Outcome.next (State.todMessageRx_of_no_edge hn hpres hmode hpulse)
  · exact congrArg Host.Outcome.next (State.todMessageRx_of_bad hn hpres hmode hpulse)
  · exact congrArg Host.Outcome.next (State.todMessageRx_of_good hn hpres hmode hpulse hnmea hlate hearly hsec)
  · exact congrArg Host.Outcome.next (State.ptpMessageRx_of_sync hn hptp hrole hdom hid)
  · refine congrArg Host.Outcome.next ((State.ptpMessageRx_of_announce hn hptp hrole hdom hu).trans ?_)
    rw [if_neg hother]
  · refine congrArg Host.Outcome.next ((State.ptpMessageRx_of_announce hn hptp hrole hdom hu).trans ?_)
    rw [if_pos hid, if_pos]
    rwa [State.ptpClassMax, State.takeUtc_reg, State.updRefSrc_reg, hu, State.updRefSrc_reg]
  · exact congrArg Host.Outcome.next (State.ptpMessageRx_of_delayReq hn hptp hrole hdom)
  · refine congrArg Host.Outcome.next ((if_pos ⟨hn, hpres⟩).trans ?_)
    cases q <;> rfl
  · exact congrArg Host.Outcome.next (if_pos ⟨hn, hpres⟩)
  · exact congrArg Host.Outcome.next (State.refLossTimeout_of_lost happ hstate hdue)
  · subst hu
    exact congrArg Host.Outcome.next (State.refFreqMeasure_of_watched hi hpres)
  · exact State.refFault_state hpres
  · exact (State.refFault_quiet (nd := .gd) rfl (.refl s)).time_eq .gd

end Sys2Proof.Machine
end

section
/-! The selector of a distributor, the waits of the time root and its election (R99 to R107, R384). -/

namespace Sys2Proof.Machine

open Sys2Proof

theorem Quiet.time_of_gd {s t : State} (h : Quiet .gd s t) : t.gd.com.time = s.gd.com.time := h.time
theorem Quiet.time_of_tsu {s t : State} (h : Quiet .tsu s t) : t.tsu.com.time = s.tsu.com.time := h.time

theorem State.now_tsu (s : State) : s.now .tsu = s.tsu.com.time.counter := rfl
theorem State.now_gd (s : State) : s.now .gd = s.gd.com.time.counter := rfl

/-! ## What the selector leaves alone -/

/-- `t` is `s` but for the selector's record, whose entries and root flags stand, the journal and the error log. -/
def State.Restated (s t : State) : Prop :=
  ∃ d j r, s.gd.com.Noted d ∧ t = { s with gd := { s.gd with com := d, journal := j, ref := r } }
    ∧ r.timeEntry = s.gd.ref.timeEntry ∧ r.freqEntry = s.gd.ref.freqEntry ∧ r.isRoot = s.gd.ref.isRoot
    ∧ r.elected = s.gd.ref.elected

section
variable {s t u : State}

theorem State.Restated.refl (s : State) : s.Restated s := ⟨_, _, _, .refl _, rfl, rfl, rfl, rfl, rfl⟩

theorem State.Restated.trans (h : s.Restated t) (k : t.Restated u) : s.Restated u := by
  obtain ⟨d, j, r, hd, rfl, ht, hf, hroot, hel⟩ := h
  obtain ⟨d', j', r', hd', rfl, ht', hf', hroot', hel'⟩ := k
  exact ⟨_, _, _, hd.trans hd', rfl, ht'.trans ht, hf'.trans hf, hroot'.trans hroot, hel'.trans hel⟩

theorem State.updRef_restated {f : RefSel → RefSel} (ht : (f s.gd.ref).timeEntry = s.gd.ref.timeEntry)
    (hf : (f s.gd.ref).freqEntry = s.gd.ref.freqEntry) (hroot : (f s.gd.ref).isRoot = s.gd.ref.isRoot)
    (hel : (f s.gd.ref).elected = s.gd.ref.elected) : s.Restated (s.updRef f) := by
  obtain ⟨j, hj⟩ := s.updRef_eq f
  exact ⟨_, _, _, .refl _, hj, ht, hf, hroot, hel⟩

theorem State.updRefSrc_restated (s : State) (i : Nat) (f : RefSrc → RefSrc) : s.Restated (s.updRefSrc i f) := by
  obtain ⟨j, hj⟩ := s.updRefSrc_eq i f
  exact ⟨_, _, _, .refl _, hj, rfl, rfl, rfl, rfl⟩

theorem State.logG_restated (s : State) (code : ErrCode) (source detail : Nat) :
    s.Restated (s.logG code source detail) := by
  obtain ⟨d, j, hd, hlog⟩ := s.logG_eq code source detail
  exact ⟨_, _, _, hd, hlog, rfl, rfl, rfl, rfl⟩

theorem State.refStateUpdate_restated (s : State) (e f : Option Nat) : s.Restated (s.refStateUpdate e f) := by
  simp only [State.refStateUpdate]
  split
  · exact State.updRef_restated rfl rfl rfl rfl
  · split
    · exact .refl s
    · split
      · split
        · exact .refl s
        · exact (State.updRefSrc_restated ..).trans (State.updRef_restated rfl rfl rfl rfl)
      · split
        · exact .refl s
        · exact State.updRef_restated rfl rfl rfl rfl
      · split
        · exact .refl s
        · exact (State.updRef_restated rfl rfl rfl rfl).trans (State.logG_restated ..)

theorem State.Restated.reg (h : s.Restated t) (off : Nat) : t.reg .gd off = s.reg .gd off := by
  obtain ⟨d, j, r, hd, rfl, -⟩ := h
  simp only [State.reg, State.com, Common.reg, hd.rw]

theorem State.Restated.entries (h : s.Restated t) :
    t.gd.ref.timeEntry = s.gd.ref.timeEntry ∧ t.gd.ref.freqEntry = s.gd.ref.freqEntry := by
  obtain ⟨d, j, r, hd, rfl, ht, hf, -⟩ := h
  exact ⟨ht, hf⟩

theorem State.Restated.roots (h : s.Restated t) :
    t.gd.ref.isRoot = s.gd.ref.isRoot ∧ t.gd.ref.elected = s.gd.ref.elected := by
  obtain ⟨d, j, r, hd, rfl, -, -, hroot, hel⟩ := h
  exact ⟨hroot, hel⟩

end

section
variable (s : State)

@[simp] theorem State.updRef_ref (f : RefSel → RefSel) : (s.updRef f).gd.ref = f s.gd.ref := by
  obtain ⟨j, hj⟩ := s.updRef_eq f
  rw [hj]

@[simp] theorem State.updRef_reg (f : RefSel → RefSel) (off : Nat) : (s.updRef f).reg .gd off = s.reg .gd off := by
  obtain ⟨j, hj⟩ := s.updRef_eq f
  rw [hj]
  rfl

theorem State.tickRef_roots : s.tickRef.isRoot = s.gd.ref.isRoot ∧ s.tickRef.elected = s.gd.ref.elected := by
  rw [State.tickRef, RefSel.tickStart, RefSel.keepTick]
  split <;> split <;> exact ⟨rfl, rfl⟩

/-- The entries after the selector has run. -/
theorem State.refSelect_entries : s.refSelect.gd.ref.timeEntry = s.selectedRef.timeEntry
    ∧ s.refSelect.gd.ref.freqEntry = s.selectedRef.freqEntry := by
  have h := (State.refStateUpdate_restated (s.updRef fun _ => s.selectedRef) s.tickRef.timeEntry s.tickRef.freqEntry).entries
  rwa [← State.refSelect_eq, State.updRef_ref] at h

theorem State.refSelect_roots : s.refSelect.gd.ref.isRoot = s.gd.ref.isRoot
    ∧ s.refSelect.gd.ref.elected = s.gd.ref.elected := by
  have h := (State.refStateUpdate_restated (s.updRef fun _ => s.selectedRef) s.tickRef.timeEntry s.tickRef.freqEntry).roots
  rw [← State.refSelect_eq, State.updRef_ref] at h
  exact ⟨h.1.trans s.tickRef_roots.1, h.2.trans s.tickRef_roots.2⟩

@[simp] theorem State.refSelect_reg (off : Nat) : s.refSelect.reg .gd off = s.reg .gd off := by
  rw [State.refSelect_eq, (State.refStateUpdate_restated ..).reg, State.updRef_reg]

theorem State.refSelect_time : s.refSelect.time .gd = s.time .gd := (State.refSelect_quiet rfl (.refl s)).time

theorem State.refSelect_tsu : s.refSelect.tsu = s.tsu := (State.refSelect_quiet rfl (.refl s)).apart.tsu

end

/-! ## The entries chosen -/

theorem State.selectEntry_of_forced {s : State} {cand : Nat → Bool} {cur : Option Nat} {wtrs : List Nat}
    (hforce : s.forced cand = true) : s.selectEntry cand cur wtrs = some (bitsOf (s.reg .gd 0x268) 2 0) := by
  rw [State.selectEntry, hforce, if_pos rfl]
  rw [State.forced, Bool.and_eq_true] at hforce
  exact if_pos hforce

/-- A better entry whose WTR has ended is taken, R100. -/
theorem State.selectEntry_of_revert {s : State} {cand : Nat → Bool} {c i : Nat} (hfree : bitOf (s.reg .gd 0x268) 3 = false)
    (hcand : cand c = true) (hrev : s.mayRevert cand (some c) i = true) : s.selectEntry cand (some c) [i] = some i := by
  have hpick : s.pickEntry cand (some c) = some c := by
    simp only [State.pickEntry, hfree, Bool.false_eq_true, false_and, if_false, hcand, if_true]
  rw [State.selectEntry, hpick, State.forced, hfree, Bool.false_and]
  exact if_pos hrev

/-! ## The end of a WTR and a write of FORCE_ENTRY -/

/-- The selector's record once the WTR of entry `i` has ended in a tick that held nothing yet. -/
def RefSel.heldFor (r : RefSel) (aon i : Nat) : RefSel :=
  { r with hold := some { aon, timeEntry := r.timeEntry, freqEntry := r.freqEntry, rstate := r.rstate, inRow := r.inRow,
                          outRow := r.outRow, tracked := r.tracked, traceAt := r.traceAt, allLost := r.allLost, wtrs := [i] } }

section
variable {s : State} {i : Nat}

theorem State.updRef_congr {f g : RefSel → RefSel} (h : f s.gd.ref = g s.gd.ref) : s.updRef f = s.updRef g := by
  have hgd : (s.updGd fun r => { r with ref := f r.ref }) = s.updGd fun r => { r with ref := g r.ref } := by
    simp only [State.updGd, h]
  rw [State.updRef, State.updRef, hgd]

theorem State.wtrExpiry_of_due (hhold : s.gd.ref.hold = none) (hdue : s.wtrEnd i ≤ s.gd.com.time.aon) :
    s.wtrExpiry i = (s.updRef fun r => r.heldFor s.gd.com.time.aon i).refSelect := by
  have hkeep : ({ s.gd.ref.keepTick s.gd.com.time.aon with
      hold := (s.gd.ref.keepTick s.gd.com.time.aon).hold.map fun h => { h with wtrs := h.wtrs ++ [i] } } : RefSel)
      = s.gd.ref.heldFor s.gd.com.time.aon i := by
    rw [RefSel.keepTick, if_neg (by simp [hhold])]
    rfl
  rw [State.wtrExpiry, if_pos hdue]
  exact congrArg State.refSelect (State.updRef_congr hkeep)

theorem RefSel.tick_of_heldFor (r : RefSel) (aon : Nat) : ((r.heldFor aon i).keepTick aon).tickStart = r.heldFor aon i := by
  rw [RefSel.keepTick, if_pos (by rfl)]
  rfl

theorem State.wtrExpiry_entries {c d : Nat} (hfree : bitOf (s.reg .gd 0x268) 3 = false) (hhold : s.gd.ref.hold = none)
    (hc : s.gd.ref.timeEntry = some c) (hd : s.gd.ref.freqEntry = some d) (hct : s.timeCand c = true)
    (hdf : s.freqCand d = true) (ht : s.mayRevert s.timeCand (some c) i = true)
    (hf : s.mayRevert s.freqCand (some d) i = true) :
    (s.wtrExpiry i).gd.ref.timeEntry = some i ∧ (s.wtrExpiry i).gd.ref.freqEntry = some i := by
  have hdue : s.wtrEnd i ≤ s.gd.com.time.aon := by
    simp only [State.mayRevert, Bool.and_eq_true, decide_eq_true_eq] at ht
    exact ht.1.2
  obtain ⟨j, hj⟩ := s.updRef_eq fun r => r.heldFor s.gd.com.time.aon i
  have htick : (s.updRef fun r => r.heldFor s.gd.com.time.aon i).tickRef = s.gd.ref.heldFor s.gd.com.time.aon i := by
    rw [hj]
    exact RefSel.tick_of_heldFor ..
  rw [State.wtrExpiry_of_due hhold hdue]
  obtain ⟨hte, hfe⟩ := (s.updRef fun r => r.heldFor s.gd.com.time.aon i).refSelect_entries
  rw [hte, hfe]
  simp only [State.selectedRef, htick]
  have hte' : (s.gd.ref.heldFor s.gd.com.time.aon i).timeEntry = some c := hc
  have hfe' : (s.gd.ref.heldFor s.gd.com.time.aon i).freqEntry = some d := hd
  have hwtrs : ((s.gd.ref.heldFor s.gd.com.time.aon i).hold.map (·.wtrs)).getD [] = [i] := rfl
  rw [hte', hfe', hwtrs]
  have hu : (s.updRef fun r => r.heldFor s.gd.com.time.aon i).mayRevert = s.mayRevert := by
    rw [hj]
    rfl
  have hut : (s.updRef fun r => r.heldFor s.gd.com.time.aon i).timeCand = s.timeCand := by
    rw [hj]
    rfl
  have huf : (s.updRef fun r => r.heldFor s.gd.com.time.aon i).freqCand = s.freqCand := by
    rw [hj]
    rfl
  exact ⟨State.selectEntry_of_revert (by rwa [State.updRef_reg]) (by rwa [hut]) (by rwa [hu, hut]),
    State.selectEntry_of_revert (by rwa [State.updRef_reg]) (by rwa [huf]) (by rwa [hu, huf])⟩

end

theorem State.setReg_reg (s : State) (off k : Nat) (w : Word) :
    (s.setReg .gd off w).reg .gd k = if off = k then w.toNat else s.reg .gd k := by
  simp only [State.setReg, State.reg, State.com, State.updCom, Common.reg, Tab.getD_put]
  split <;> rfl

theorem State.noteWrite_reg (s : State) (acc : Access) (off k : Nat) : (s.noteWrite acc off).reg .gd k = s.reg .gd k := by
  simp only [State.noteWrite, State.reg, State.com, State.updCom, Common.reg]
  split
  · rw [(Common.accessErr_noted ..).rw]
  · rfl

/-- Which entries are candidates rests on their words, the modes and roles, and what is known of their sources. -/
theorem State.timeCand_congr {s t : State} {i : Nat} (hprio : t.prioWord i = s.prioWord i)
    (hmode : t.reg .gd 0x214 = s.reg .gd 0x214) (hrole : ∀ n, t.ptpRole n = s.ptpRole n)
    (hfuse : t.gd.hasRef = s.gd.hasRef ∧ t.gd.hasPtp = s.gd.hasPtp) (hsrc : t.gd.ref = s.gd.ref) :
    t.timeCand i = s.timeCand i := by
  simp only [State.timeCand, State.freqCand, State.refPresent, State.refIsTime, State.refMode, State.refSrc,
    State.prioSource, hprio, hmode, hrole, hfuse.1, hfuse.2, hsrc]
  rfl

section
variable {s : State} {acc : Access} {w : Word}

theorem State.forceWrite_reg (k : Nat) : ((s.noteWrite acc 0x268).setReg .gd 0x268 w).reg .gd k =
    if 0x268 = k then w.toNat else s.reg .gd k := by
  rw [State.setReg_reg, State.noteWrite_reg]

theorem bitsOf_lt_eight (v : Nat) : bitsOf v 2 0 < 8 := Nat.mod_lt _ (by decide)

theorem forceWord_bits (w : Word) : bitOf (w &&& 0xF#32).toNat 3 = bitOf w.toNat 3
    ∧ bitsOf (w &&& 0xF#32).toNat 2 0 = bitsOf w.toNat 2 0 := by
  have hand : (w &&& 0xF#32).toNat = w.toNat % 2 ^ 4 := by
    rw [BitVec.toNat_and, show (0xF#32 : Word).toNat = 2 ^ 4 - 1 from rfl, Nat.and_two_pow_sub_one_eq_mod]
  constructor
  · rw [hand, bitOf, Nat.testBit_mod_two_pow]
    rfl
  · rw [hand, bitsOf, bitsOf, Nat.shiftRight_zero, Nat.shiftRight_zero]
    omega

theorem State.timeCand_forceWrite {i : Nat} (hi : i < 8) :
    ((s.noteWrite acc 0x268).setReg .gd 0x268 w).timeCand i = s.timeCand i := by
  refine State.timeCand_congr ?_ ?_ (fun n => ?_) ⟨rfl, rfl⟩ rfl
  · rw [State.prioWord, State.prioWord, State.forceWrite_reg, if_neg (by omega)]
  · rw [State.forceWrite_reg, if_neg (by decide)]
  · rw [State.ptpRole, State.ptpRole, State.forceWrite_reg, if_neg (by omega)]

theorem State.forceWrite_timeEntry (hbit : bitOf w.toNat 3 = true)
    (hcand : s.timeCand (bitsOf w.toNat 2 0) = true) :
    ((s.noteWrite acc 0x268).setReg .gd 0x268 (w &&& 0xF#32)).refSelect.gd.ref.timeEntry = some (bitsOf w.toNat 2 0) := by
  have hreg : ((s.noteWrite acc 0x268).setReg .gd 0x268 (w &&& 0xF#32)).reg .gd 0x268 = (w &&& 0xF#32).toNat := by
    rw [State.forceWrite_reg, if_pos rfl]
  have hforced : ((s.noteWrite acc 0x268).setReg .gd 0x268 (w &&& 0xF#32)).forced
      ((s.noteWrite acc 0x268).setReg .gd 0x268 (w &&& 0xF#32)).timeCand = true := by
    rw [State.forced, hreg, (forceWord_bits w).1, (forceWord_bits w).2, hbit,
      State.timeCand_forceWrite (bitsOf_lt_eight _), hcand]
    rfl
  rw [(State.refSelect_entries _).1]
  simp only [State.selectedRef]
  rw [State.selectEntry_of_forced hforced, hreg, (forceWord_bits w).2]

end

/-! ## Becoming the time root -/

section
variable (s : State)

theorem State.updTimeQ_ref (f : TimeDom → TimeDom) : (s.updTimeQ .gd f).gd.ref = s.gd.ref := by
  rw [State.updTimeQ]
  obtain ⟨j, hj⟩ := (s.updTime .gd f).noteChange_eq (Node.gd = .gd && (s.time .gd).tq ≠ ((s.updTime .gd f).time .gd).tq)
  rw [hj]
  rfl

theorem State.becomeRoot_time : s.becomeRoot.time .gd = { s.time .gd with
    sel := none, flyAt := none, upTq := .none, tq := if (s.time .gd).stepped then .qualified else (s.time .gd).tq,
    launchOk := (s.time .gd).stepped } := by
  simp only [State.becomeRoot, State.refSelect_time, State.updTimeQ_time, State.updRef_time]

theorem State.updTimeQ_sideB (f : TimeDom → TimeDom) : (s.updTimeQ .gd f).gd.sideB = s.gd.sideB := by
  rw [State.updTimeQ]
  obtain ⟨j, hj⟩ := (s.updTime .gd f).noteChange_eq (Node.gd = .gd && (s.time .gd).tq ≠ ((s.updTime .gd f).time .gd).tq)
  rw [hj]
  rfl

theorem State.updRef_sideB (f : RefSel → RefSel) : (s.updRef f).gd.sideB = s.gd.sideB := by
  obtain ⟨j, hj⟩ := s.updRef_eq f
  rw [hj]
  rfl

theorem State.refSelect_sideB : s.refSelect.gd.sideB = s.gd.sideB := by
  obtain ⟨d, j, r, -, h, -⟩ := State.refStateUpdate_restated (s.updRef fun _ => s.selectedRef) s.tickRef.timeEntry
    s.tickRef.freqEntry
  rw [State.refSelect_eq, h, ← s.updRef_sideB fun _ => s.selectedRef]
  rfl

theorem State.becomeRoot_isRoot : s.becomeRoot.gd.ref.isRoot = true := by
  simp only [State.becomeRoot, (State.refSelect_roots _).1, State.updTimeQ_ref, State.updRef_ref]

theorem State.becomeRoot_sideB : s.becomeRoot.gd.sideB = s.gd.sideB := by
  simp only [State.becomeRoot, State.refSelect_sideB, State.updTimeQ_sideB, State.updRef_sideB]

end

theorem State.logG_ref (s : State) (code : ErrCode) (source detail : Nat) : (s.logG code source detail).gd.ref = s.gd.ref := by
  obtain ⟨d, j, -, hlog⟩ := s.logG_eq code source detail
  rw [hlog]

theorem State.logG_actingTo (s : State) (code : ErrCode) (source detail : Nat) :
    (s.logG code source detail).gd.actingTo = s.gd.actingTo := by
  obtain ⟨d, j, -, hlog⟩ := s.logG_eq code source detail
  rw [hlog]

theorem State.logG_time (s : State) (code : ErrCode) (source detail : Nat) (n : Node) :
    (s.logG code source detail).time n = s.time n := State.log_time s .gd code source detail n

theorem State.updGd_time (s : State) {f : Gd → Gd} (hf : ∀ g, (f g).com = g.com) : (s.updGd f).time .gd = s.time .gd :=
  congrArg Common.time (hf s.gd)

theorem State.takeOver_time (s : State) : s.takeOver.time .gd = s.becomeRoot.time .gd := by
  rw [State.takeOver, State.logG_time]
  exact State.updGd_time _ fun _ => rfl

theorem State.stepCounter_time (s : State) (goal : Time80) :
    (s.stepCounter .gd goal).time .gd = (s.time .gd).step goal := by
  rw [State.stepCounter]
  simp only [(State.outputsStepped_quiet rfl (.refl _)).time, (State.refsStepped_quiet rfl (.refl _)).time, State.updTime_time]

section
variable {s : State} {at0 : Nat}

theorem State.takeoverWaitExpiry_of_due (hlost : s.gd.ref.partnerLostAt = some at0) (hrole : s.gd.role = some 3)
    (hroot : s.gd.ref.isRoot = false) (hstep : s.gd.com.time.stepped = true)
    (hsrc : (s.src ⟨.gd, s.gd.partnerPort⟩).lost = true) (hdue : at0 + s.takeoverWait ≤ s.aon .gd) :
    s.takeoverWaitExpiry = s.takeOver := by
  rw [State.takeoverWaitExpiry]
  simp only [hlost]
  exact if_pos ⟨hrole, by rw [hroot]; rfl, hstep, .inr hsrc, hdue⟩

theorem State.firstRefWaitExpiry_of_due (hrole : s.gd.role = some 3) (hstep : s.gd.com.time.stepped = false)
    (hsel : s.gd.com.time.sel = none) (hbest : s.bestEntry s.firstStepEntry = none)
    (hdue : s.gd.ref.powerAt + s.firstRefWait ≤ s.aon .gd) : s.firstRefWaitExpiry =
      (s.stepCounter .gd (Time80.ofNs (s.gd.journalTime.toNs + 1000000000))).becomeRoot :=
  if_pos ⟨hrole, by rw [hstep]; rfl, by rw [hsel]; rfl, by rw [hbest]; rfl, hdue⟩

theorem State.rootClaim_of_due (hlost : s.gd.ref.upLostAt = some at0) (hrole : s.gd.role = some 2)
    (hvar : s.gd.variant = .gd64x) (hlo : 2 ≤ s.rootIndex (s.gd.locator.getD 0)) (hhi : s.rootIndex (s.gd.locator.getD 0) ≤ 7)
    (hroot : s.gd.ref.isRoot = false) (hstep : s.gd.com.time.stepped = true)
    (hdue : at0 + s.electWait + (s.rootIndex (s.gd.locator.getD 0) - 2) * 5000000 ≤ s.aon .gd)
    (hseen : s.rootTimeSeen = false) :
    s.rootClaim = (s.becomeRoot.updRef fun r => { r with elected := true }).logG .rootElected := by
  simp only [State.rootClaim, hlost]
  exact if_pos ⟨hrole, hvar, hlo, hhi, by rw [hroot]; rfl, hstep, hdue, by rw [hseen]; rfl⟩

end

/-! ## The offsets of a root that pulls in -/

section
variable {e : Nat} {o : Int} {s u : State}

theorem State.filteredOffset_of_root (hu : u = [1, 2, 3, 4, 5, 6].foldl (fun x src => x.filterSource src) s)
    (hroot : u.gd.ref.isRoot = true) (hstep : u.gd.com.time.stepped = true) (hte : s.gd.ref.timeEntry = some e)
    (hue : u.gd.ref.timeEntry = some e) (hnum : (s.refSrc (s.prioSource e)).num ≠ 0)
    (hfilt : (s.refSrc (s.prioSource e)).filtered ≠ none) (hoff : (u.refSrc (u.prioSource e)).filtered = some o) :
    s.filteredOffset = u.rootOffset e false o := by
  have hfirst : (s.refSrc (s.prioSource e)).filtered.isNone = false := by
    rwa [Option.isNone_eq_false_iff, Option.isSome_iff_ne_none]
  simp only [State.filteredOffset, ← hu, hroot, hstep, hte, hue, hoff, and_self, if_true, Option.bind_some,
    Option.map_some, Option.getD_some, hnum, hfirst, ne_eq, not_false_iff, decide_true]

/-- On the 16th offset in a row within 5 ns the root is locked, R105. -/
theorem State.rootOffset_of_locking (hst : s.gd.ref.rstate = .pulling) (hrow : 15 ≤ s.gd.ref.inRow)
    (ho : o.natAbs ≤ 327680) : ∃ j, s.rootOffset e false o = { s with gd := { s.gd with journal := j, ref :=
      { s.gd.ref with offset := o, inRow := s.gd.ref.inRow + 1, outRow := 0, rstate := .locked, everTrace := true,
                      hold := none } } } := by
  obtain ⟨j1, h1⟩ := s.updRef_eq fun r => { r with offset := o }
  obtain ⟨j2, h2⟩ := (s.updRef fun r => { r with offset := o }).updRef_eq fun r => { r with
    inRow := r.inRow + 1, outRow := 0 }
  obtain ⟨j3, h3⟩ := ((s.updRef fun r => { r with offset := o }).updRef fun r => { r with
    inRow := r.inRow + 1, outRow := 0 }).updRef_eq fun r => { r with rstate := .locked, everTrace := true, hold := none }
  refine ⟨j3, ?_⟩
  simp only [State.rootOffset, Bool.false_eq_true, false_and, if_false, ho, decide_true, if_true, State.updRef_ref, hst,
    Nat.add_le_add_right hrow 1, h3]
  rw [h2, h1]

end

section
variable {s : State} {i at0 : Nat} {acc : Access} {w : Word}

theorem State.refQualified_of_due (hstate : (s.refSrc i).state = .qualifying)
    (hdue : (s.refSrc i).okSince + s.refQualTime ≤ s.aon .gd) :
    s.refQualified i = (s.updRefSrc i fun v => { v with state := .qualified, qualAt := s.aon .gd }).refSelect :=
  if_pos ⟨hstate, hdue⟩

/-- A source that has passed its time is QUALIFIED from this instant on. -/
theorem State.refQualified_refSrc (hstate : (s.refSrc i).state = .qualifying)
    (hdue : (s.refSrc i).okSince + s.refQualTime ≤ s.aon .gd) :
    ((s.refQualified i).refSrc i).state = .qualified ∧ ((s.refQualified i).refSrc i).qualAt = s.aon .gd := by
  obtain ⟨_, _, _, hsrc⟩ := State.refSelect_refSrc
    (s.updRefSrc i fun v => { v with state := .qualified, qualAt := s.aon .gd }) i
  rw [State.refSrc_updRefSrc, if_pos rfl] at hsrc
  rw [State.refQualified_of_due hstate hdue, hsrc]
  exact ⟨rfl, rfl⟩

theorem State.forceEntryWrite_of_open (hwhole : acc.whole = true) (hmaster : acc.master ≠ 2) (hsame : acc.same = false)
    (habsent : s.gdAbsent 0x268 = false) (hseal : s.gd.sealSt = .opened) :
    s.forceEntryWrite acc w = ((s.noteWrite acc 0x268).setReg .gd 0x268 (w &&& 0xF#32)).refSelect := by
  rw [State.forceEntryWrite, State.gdWrite_of_open hwhole hmaster hsame habsent hseal]

theorem State.forceEntryWrite_of_sealed (hwhole : acc.whole = true) (hmaster : acc.master ≠ 2) (hsame : acc.same = false)
    (habsent : s.gdAbsent 0x268 = false) (hseal : s.gd.sealSt ≠ .opened) :
    s.forceEntryWrite acc w = s.custodyRefused 0x268 := by
  rw [State.forceEntryWrite, State.gdWrite_of_sealed hwhole hmaster hsame habsent hseal]

theorem State.takeOver_actingTo (s : State) : s.takeOver.gd.actingTo = some s.gd.sideB := by
  rw [State.takeOver, State.logG_actingTo, ← s.becomeRoot_sideB]
  rfl

theorem State.takeOver_isRoot (s : State) : s.takeOver.gd.ref.isRoot = true := by
  rw [State.takeOver, State.logG_ref]
  exact s.becomeRoot_isRoot

theorem State.takeoverWaitExpiry_of_present (hlost : s.gd.ref.partnerLostAt = none) : s.takeoverWaitExpiry = s := by
  simp only [State.takeoverWaitExpiry, hlost]

/-- The time domain of a root that has stepped before. -/
theorem State.becomeRoot_of_stepped (hstep : (s.time .gd).stepped = true) : s.becomeRoot.time .gd =
    { s.time .gd with sel := none, flyAt := none, upTq := .none, tq := .qualified, launchOk := true } := by
  rw [State.becomeRoot_time, hstep, if_pos rfl]

/-- A root that had not stepped has the instant it is given. -/
theorem State.stepCounter_becomeRoot (s : State) (goal : Time80) :
    (s.stepCounter .gd goal).becomeRoot.now .gd = goal ∧ ((s.stepCounter .gd goal).becomeRoot.time .gd).stepped = true := by
  rw [State.now, State.becomeRoot_time, State.stepCounter_time]
  exact ⟨rfl, rfl⟩

/-- The state of a pod candidate that has claimed the time root. -/
def State.claimed (s : State) : State := (s.becomeRoot.updRef fun r => { r with elected := true }).logG .rootElected

theorem State.claimed_time (s : State) : s.claimed.time .gd = s.becomeRoot.time .gd := by
  rw [State.claimed, ← State.updRef_time s.becomeRoot fun r => { r with elected := true }]
  rw [State.logG_time]

theorem State.claimed_roots (s : State) : s.claimed.gd.ref.isRoot = true ∧ s.claimed.gd.ref.elected = true := by
  rw [State.claimed, State.logG_ref, State.updRef_ref]
  exact ⟨s.becomeRoot_isRoot, rfl⟩

end

/-- Settles O20: each wait and election at its end, the selector by the record it writes. -/
theorem selectorRules : Obligations.SelectorRules := by
  unfold Obligations.SelectorRules
  refine ⟨fun i s hstate hdue => ?_, fun i c d s hfree hhold hc hd hct hdf ht hf => ?_,
    fun acc w s hwhole hmaster hsame habsent hseal => ?_, fun acc w s hwhole hmaster hsame habsent hseal => ?_,
    fun at0 s hlost hrole hroot hstep hsrc hdue => ?_, fun s hlost => ?_,
    fun s hrole hstep hsel hbest hdue => ?_, fun at0 s hlost hrole hvar hlo hhi hroot hstep hdue hseen => ?_,
    fun e o s u hu hroot hstep hte hue hnum hfilt hoff hst hrow ho => ?_⟩
  · obtain ⟨hst, hat⟩ := State.refQualified_refSrc hstate hdue
    have hq := State.refQualified_quiet (src := i) rfl (.refl s)
    exact ⟨s.refQualified i, rfl, hst, hat, State.refQualified_of_due hstate hdue, hq.time_of_gd, hq.apart.tsu⟩
  · obtain ⟨hte, hfe⟩ := State.wtrExpiry_entries hfree hhold hc hd hct hdf ht hf
    have hq := State.wtrExpiry_quiet (i := i) rfl (.refl s)
    exact ⟨s.wtrExpiry i, rfl, hte, hfe, hq.time_of_gd, hq.apart.tsu⟩
  · have heq := State.forceEntryWrite_of_open (w := w) hwhole hmaster hsame habsent hseal
    have hq := State.forceEntryWrite_quiet (acc := acc) (w := w) rfl (.refl s)
    refine ⟨s.forceEntryWrite acc w, rfl, ?_, heq, fun _ hbit hcand => ?_, hq.time_of_gd, hq.apart.tsu⟩
    · rw [heq, State.refSelect_reg, State.setReg_reg, if_pos rfl]
    · rw [heq, State.forceWrite_timeEntry hbit hcand]
  · exact congrArg Host.Outcome.next (State.forceEntryWrite_of_sealed hwhole hmaster hsame habsent hseal)
  · have htime := s.takeOver_time.trans (State.becomeRoot_of_stepped hstep)
    have hnow : s.takeOver.now .gd = s.now .gd := by rw [State.now, htime, State.now]
    rw [State.time_gd, State.time_gd] at htime
    exact ⟨s.takeOver, congrArg Host.Outcome.next (State.takeoverWaitExpiry_of_due hlost hrole hroot hstep hsrc hdue), rfl,
      s.takeOver_isRoot, (congrArg TimeDom.launchOk htime :), (congrArg TimeDom.tq htime :),
      (congrArg TimeDom.sel htime :), hnow, s.takeOver_actingTo⟩
  · exact congrArg Host.Outcome.next (State.takeoverWaitExpiry_of_present hlost)
  · obtain ⟨hnow, hset⟩ := s.stepCounter_becomeRoot (Time80.ofNs (s.gd.journalTime.toNs + 1000000000))
    rw [State.time_gd] at hset
    exact ⟨(s.stepCounter .gd (Time80.ofNs (s.gd.journalTime.toNs + 1000000000))).becomeRoot,
      congrArg Host.Outcome.next (State.firstRefWaitExpiry_of_due hrole hstep hsel hbest hdue), rfl, hnow, hset,
      State.becomeRoot_isRoot _⟩
  · have htime := s.claimed_time.trans (State.becomeRoot_of_stepped hstep)
    have hnow : s.claimed.now .gd = s.now .gd := by rw [State.now, htime, State.now]
    rw [State.time_gd, State.time_gd] at htime
    exact ⟨s.claimed, congrArg Host.Outcome.next (State.rootClaim_of_due hlost hrole hvar hlo hhi hroot hstep hdue hseen), rfl,
      s.claimed_roots.1, s.claimed_roots.2, (congrArg TimeDom.tq htime :), hnow⟩
  · obtain ⟨j, hj⟩ := State.rootOffset_of_locking (e := e) hst hrow ho
    have heq := (State.filteredOffset_of_root hu hroot hstep hte hue hnum hfilt hoff).trans hj
    exact ⟨s.filteredOffset, rfl, by rw [heq], by rw [heq], by rw [heq], by rw [heq]⟩

end Sys2Proof.Machine
end

section
/-! The time outputs of a distributor (R96, R111, R114). -/

namespace Sys2Proof.Machine

open Sys2Proof

section
variable {s : State} {n : Nat} {o t : Time80}

theorem State.ptpMasterSend_of_master (hn : n < 2) (hptp : s.gd.hasPtp = true) (hrole : s.ptpRole n = 1) :
    s.ptpMasterSend n = s.updGd fun g =>
      { g with ptpOut := [⟨n, false, s.masterClass.1, s.masterClass.2, g.com.time.counter⟩],
               ref := { g.ref with classTx := Tab.put g.ref.classTx n (s.masterClass.1.getD 0xFF) } } :=
  if_pos ⟨hn, hptp, hrole⟩

theorem State.outputFirstAlign_of_due (hstep : s.gd.com.time.stepped = true) (hfree : s.gd.out.aligned = false)
    (hon : bitsOf (s.reg .gd 0x2A4) 2 0 ≠ 0) (hfirst : s.gd.out.firstAt = some t)
    (hdue : nextSecond t ≤ s.gd.com.time.counter.toNs) : s.outputFirstAlign = s.outputsAlign false := by
  simp only [State.outputFirstAlign, hfirst, State.outEnabled, decide_eq_true hon, hstep, hfree, Bool.not_false, hdue, and_self,
    if_true]

theorem State.outRealignApply_of_due (hord : s.gd.out.orderAt = some o)
    (hdue : boundaryAfter o ≤ s.gd.com.time.counter.toNs) : s.outRealignApply = s.outputsAlign true := by
  simp only [State.outRealignApply, hord, hdue, if_true]

theorem State.outRealignApply_of_early (hord : s.gd.out.orderAt = some o)
    (hearly : s.gd.com.time.counter.toNs < boundaryAfter o) : s.outRealignApply = s := by
  simp only [State.outRealignApply, hord, Int.not_le.mpr hearly, if_false]

end

/-- The boundary of an order: a whole second, at least 2 ms and less than 1.002 s after it. -/
theorem boundaryAfter_bounds (o : Time80) :
    o.toNs + 2000000 ≤ boundaryAfter o ∧ boundaryAfter o < o.toNs + 1002000000 ∧ boundaryAfter o % 1000000000 = 0 := by
  rw [boundaryAfter]
  generalize o.toNs = n
  omega

/-- Settles O21: what each output order writes, and when. -/
theorem outputRules : Obligations.OutputRules := by
  unfold Obligations.OutputRules
  refine ⟨fun n s hn hptp hrole => ?_, fun t s u hstep hfree hon hfirst hdue hu => ?_, fun s habsent => ?_,
    fun s habsent => ?_, fun o s u hord hdue hu => ?_, fun o s hord hearly => ?_, boundaryAfter_bounds⟩
  · exact congrArg Host.Outcome.next (State.ptpMasterSend_of_master hn hptp hrole)
  · subst hu
    exact congrArg Host.Outcome.next (State.outputFirstAlign_of_due hstep hfree hon hfirst hdue)
  · exact congrArg Host.Outcome.next (if_neg (Bool.eq_false_iff.mp habsent))
  · exact congrArg Host.Outcome.next (if_pos habsent)
  · subst hu
    exact congrArg Host.Outcome.next (State.outRealignApply_of_due hord hdue)
  · exact congrArg Host.Outcome.next (State.outRealignApply_of_early hord hearly)

end Sys2Proof.Machine
end

section
/-! The prefixes of SCAN and the acceptance and quotas of ALLOC (R268, R270, R275, R277). -/

namespace Sys2Proof.Machine

open Sys2Proof

theorem insertSlot_perm (r : Input) (l : List Input) : (insertSlot r l).Perm (r :: l) := by
  induction l with
  | nil => exact .refl _
  | cons x l ih =>
    rw [insertSlot]
    split
    · exact .refl _
    · exact (ih.cons x).trans (.swap ..)

theorem insertSlots_perm (rows l : List Input) : (rows.foldl (fun l r => insertSlot r l) l).Perm (rows ++ l) := by
  induction rows generalizing l with
  | nil => exact .refl _
  | cons r rows ih => exact (ih _).trans ((List.Perm.append_left _ (insertSlot_perm r l)).trans List.perm_middle)

/-- The rows of the lower slots fold to one value, in whatever order they came. -/
theorem scanPrefix_none {fmt lanes slot : Nat} {rows : List Input} (hint : isFloat fmt = false)
    (hallow : descAllowed 0x0B fmt lanes = true) : scanPrefix 0x0B fmt lanes rows none slot
      = foldTsu 0x0B fmt lanes (rows.filter fun r => r.slot < slot) := by
  have hperm := insertSlots_perm (rows.filter fun r => r.slot < slot) []
  rw [List.append_nil] at hperm
  exact foldTsu_perm hallow (fun h => Bool.false_ne_true (hint.symm.trans h.1)) hperm

/-- The base of a die is added once to the fold of its rows. -/
theorem scanPrefix_some (fmt lanes slot : Nat) (rows : List Input) (b : List Byte) :
    scanPrefix 0x0B fmt lanes rows (some b) slot = addResults fmt lanes b (scanPrefix 0x0B fmt lanes rows none slot) := rfl

/-! ## Acceptance -/

theorem getD_map_range {n e : Nat} (f : Nat → Nat) (he : e < n) : ((List.range n).map f).getD e 0 = f e := by
  simp [List.getD_eq_getElem?_getD, he]

theorem allocAccept_of_plain {rule experts e : Nat} {caps loads : List Nat} (hrule : rule ≠ 1) (he : e < loads.length) :
    (allocAccept rule experts caps loads true).getD e 0 = min (loads.getD e 0) (caps.getD e 0) := by
  rw [allocAccept, if_neg (fun h => hrule h.1), getD_map_range _ he]
  rfl

/-- First choices fill the capacity, second choices take what they leave, R275. -/
theorem allocAccept_of_spill {experts e : Nat} {caps loads : List Nat} (he : e < experts) :
    (allocAccept 1 experts caps loads true).getD e 0 = min (loads.getD e 0) (caps.getD e 0)
    ∧ (allocAccept 1 experts caps loads true).getD (experts + e) 0
      = min (loads.getD (experts + e) 0) (caps.getD e 0 - min (loads.getD e 0) (caps.getD e 0)) := by
  rw [allocAccept, if_pos ⟨rfl, rfl⟩]
  simp only [if_true]
  constructor
  · rw [List.getD_eq_getElem?_getD, List.getElem?_append_left (by simpa using he), ← List.getD_eq_getElem?_getD, getD_map_range _ he]
  · rw [List.getD_eq_getElem?_getD, List.getElem?_append_right (by simp), ← List.getD_eq_getElem?_getD]
    simp only [List.length_map, List.length_range, Nat.add_sub_cancel_left]
    rw [getD_map_range _ he, getD_map_range _ he]

theorem allocAccept_of_refused (rule experts e : Nat) (caps loads : List Nat) :
    (allocAccept rule experts caps loads false).getD e 0 = 0 := by
  rw [allocAccept, if_neg (fun h => Bool.false_ne_true h.2)]
  by_cases he : e < loads.length
  · rw [getD_map_range _ he]
    exact Nat.min_zero _
  · exact (List.getD_eq_getElem?_getD ..).trans (congrArg (·.getD 0) (List.getElem?_eq_none (by simpa using he)))

/-! ## Quotas and offsets -/

section
variable {rule experts j : Nat} {acc : List Nat}

theorem allocShare_of_first (h : rule ≠ 1 ∨ j < experts) (c p : Nat) :
    allocShare rule experts acc c p j = (min c (acc.getD j 0 - p), min p (acc.getD j 0)) :=
  if_neg fun ⟨hrule, hj⟩ => h.elim (fun h => h hrule) (fun h => Nat.not_le_of_lt h hj)

theorem sum_take_succ (cs : List Nat) (n : Nat) : (cs.take (n + 1)).sum = (cs.take n).sum + cs.getD n 0 := by
  rw [List.take_add_one, List.sum_append]
  cases h : cs[n]? <;> simp [List.getD_eq_getElem?_getD, h]

/-- The quotas of the first `n` participants tile what is accepted of their counts. -/
theorem sum_quotas (cs : List Nat) (a n : Nat) :
    ((List.range n).map fun k => min (cs.getD k 0) (a - (cs.take k).sum)).sum = min (cs.take n).sum a := by
  induction n with
  | zero => simp
  | succ n ih =>
    rw [List.range_succ, List.map_append, List.sum_append, ih, sum_take_succ]
    simp only [List.map_cons, List.map_nil, List.sum_cons, List.sum_nil]
    omega

theorem allocShare_tiles (h : rule ≠ 1 ∨ j < experts) (cs : List Nat) :
    ((List.range cs.length).map fun k => (allocShare rule experts acc (cs.getD k 0) (cs.take k).sum j).1).sum
      = min cs.sum (acc.getD j 0) := by
  simp only [allocShare_of_first h]
  rw [sum_quotas, List.take_length]

/-- The offsets of second choices begin behind the first choices accepted. -/
theorem allocShare_of_second (e c p : Nat) : allocShare 1 experts acc c p (experts + e)
    = (min c (acc.getD (experts + e) 0 - p), acc.getD e 0 + min p (acc.getD (experts + e) 0)) := by
  rw [allocShare, if_pos ⟨rfl, Nat.le_add_right ..⟩, Nat.add_sub_cancel_left]

end

/-- Settles O60: the fold of the lower rows by a permutation of them, the quotas by their running sums. -/
theorem allocRules : Obligations.AllocRules := by
  unfold Obligations.AllocRules
  refine ⟨fun fmt lanes slot rows hint hallow => ⟨scanPrefix_none hint hallow, fun b => by
      rw [scanPrefix_some, scanPrefix_none hint hallow]⟩,
    fun rule experts e caps loads hrule he => allocAccept_of_plain hrule he,
    fun experts e caps loads he => allocAccept_of_spill he, fun rule experts e caps loads => allocAccept_of_refused ..,
    fun rule experts j acc cs h => ⟨fun c => ?_, fun c p d => ?_, allocShare_tiles h cs⟩,
    fun experts e c p acc => allocShare_of_second e c p⟩
  · rw [allocShare_of_first h]
    exact Nat.zero_min _
  · rw [allocShare_of_first h, allocShare_of_first h]
    simp only []
    omega

end Sys2Proof.Machine
end

section
/-! The state after reset (R40, R149, R446). -/

namespace Sys2Proof.Machine

open Sys2Proof

theorem State.reset_clamped : State.reset.Clamped := by
  exact ⟨⟨by decide, by decide⟩, ⟨by decide, by decide⟩⟩

/-- Settles O1: the reset values of both parts. -/
theorem resetState : Obligations.ResetState := by
  unfold Obligations.ResetState
  refine ⟨fun n => ?_, fun l => ?_, fun _ => rfl, rfl, rfl, rfl, rfl, rfl, rfl, State.reset_clamped, ?_⟩
  · cases n <;> exact ⟨rfl, rfl, rfl, rfl, rfl⟩
  · obtain ⟨n, p⟩ := l
    cases n <;> rfl
  · exact ⟨List.Pairwise.nil, fun p hp => absurd hp List.not_mem_nil⟩

end Sys2Proof.Machine
end

section
/-! The words of the time buses and their calibration (R121 to R128). -/

namespace Sys2Proof.Machine

open Sys2Proof

/-! ## A region under the operations of its bus -/

section
variable {s : State} {r : Nat}

theorem State.updRegion_congr {f g : Region → Region} (h : f (s.region r) = g (s.region r)) :
    s.updRegion r f = s.updRegion r g :=
  congrArg (fun v => s.updTsu fun t => { t with regions := Tab.put t.regions r v }) h

theorem State.wordTaken_of_flight {w : BusItem} {rest : List BusItem} (h : (s.region r).flight = w :: rest) :
    s.wordTaken r = s.updRegion r fun g => { g with flight := rest } :=
  State.updRegion_congr (by rw [h, List.drop_one, List.tail_cons])

/-- A good word not seen before is acknowledged, noted and acted on, R124. -/
theorem State.wordGood_of_new {seq : Nat} {act : State → State} (h : seq ∉ (s.region r).seen) :
    s.wordGood r seq act = act (s.updRegion r fun g =>
      { g with acks := g.acks ++ [seq], seen := (seq :: g.seen).take 32 }) := by
  have hnew : (s.region r).seen.contains seq = false := by simpa using h
  simp only [State.wordGood, hnew, Bool.false_eq_true, if_false]

@[simp] theorem State.updateLead_region (s : State) (k : Nat) : s.updateLead.region k = s.region k := by
  simp only [State.updateLead]
  split <;> rfl

@[simp] theorem State.updateLead_com (s : State) : s.updateLead.tsu.com = s.tsu.com := by
  simp only [State.updateLead]
  split <;> rfl

@[simp] theorem State.updateLead_gd (s : State) : s.updateLead.gd = s.gd := by
  simp only [State.updateLead]
  split <;> rfl

@[simp] theorem State.logT_region (s : State) (code : ErrCode) (source detail k : Nat) :
    (s.logT code source detail).region k = s.region k := by
  obtain ⟨d, -, hlog⟩ := s.logT_eq code source detail
  rw [hlog]
  rfl

@[simp] theorem State.setEvt_region (s : State) (n : Node) (off : Nat) (m : Word) (k : Nat) :
    (s.setEvt n off m).region k = s.region k := by cases n <;> rfl

end

/-! ## A word received -/

section
variable {s : State} {r seq : Nat} {rest : List BusItem} {noise : BitVec 128}

/-- A first SYNC loads the repeater's count and asks for the addend, R128. -/
theorem State.repeaterSyncRx_of_first {c : Nat} (hflight : (s.region r).flight = ⟨seq, .sync c⟩ :: rest)
    (hcrc : crcOk noise = true) (hpres : (s.region r).present = true) (hfail : (s.region r).fail = false)
    (hcal : (s.region r).calibrated = true) (hload : (s.region r).loaded = false) (hact : (s.region r).calActive = false) :
    s.repeaterSyncRx r noise = ((s.updRegion r fun g => { g with flight := rest }).updRegion r fun g =>
      { g with count := (((c : Int) + delayUnits (s.region r).delay) % 18446744073709551616).toNat,
               applied := g.delay, loaded := true }).busSend r (.addend s.tsu.com.time.addend s.count64 (s.aon .tsu)) := by
  simp only [State.repeaterSyncRx, hflight, hcrc, hpres, hfail, hcal, hact, Bool.not_true, Bool.false_eq_true, false_and,
    or_self, if_false, State.wordTaken_of_flight hflight, State.syncTaken, State.updRegion_region, hload, Bool.not_false,
    if_true]
  rfl

theorem State.repeaterSyncRx_of_bad {c : Nat} (hflight : (s.region r).flight = ⟨seq, .sync c⟩ :: rest)
    (hcrc : crcOk noise = false) : s.repeaterSyncRx r noise = s.updRegion r fun g => { g with flight := rest } := by
  simp only [State.repeaterSyncRx, hflight, hcrc, Bool.not_false, true_or, if_true, State.wordTaken_of_flight hflight]

/-- The state after a good ADDEND of a calibrated repeater, R128. -/
theorem State.repeaterAddendRx_of_good {a b named : Nat} (hflight : (s.region r).flight = ⟨seq, .addend a b named⟩ :: rest)
    (hcrc : crcOk noise = true) (hpres : (s.region r).present = true) (hfail : (s.region r).fail = false)
    (hload : (s.region r).loaded = true) (hseen : seq ∉ (s.region r).seen) :
    s.repeaterAddendRx r noise = ((s.updRegion r fun g => { g with flight := rest }).updRegion r fun g =>
      { g with acks := g.acks ++ [seq], seen := (seq :: g.seen).take 32 }).addendTaken r a named := by
  simp only [State.repeaterAddendRx, hflight, hcrc, hpres, hfail, hload, Bool.not_true, Bool.or_true, Bool.false_eq_true,
    or_self, if_false, State.wordTaken_of_flight hflight]
  exact State.wordGood_of_new (by rwa [State.updRegion_region])

theorem State.repeaterAddendRx_of_bad {a b named : Nat} (hflight : (s.region r).flight = ⟨seq, .addend a b named⟩ :: rest)
    (hcrc : crcOk noise = false) : s.repeaterAddendRx r noise = s.updRegion r fun g => { g with flight := rest } := by
  simp only [State.repeaterAddendRx, hflight, hcrc, Bool.not_false, true_or, if_true, State.wordTaken_of_flight hflight]

theorem State.addendTaken_region {a named : Nat} (hcal : (s.region r).calibrated = true)
    (hact : (s.region r).calActive = false) : (s.addendTaken r a named).region r = { s.region r with
      count := (((s.region r).count + ((s.aon .tsu - named) / 2 : Nat) * ((a : Int) - (s.region r).addend))
        % 18446744073709551616).toNat,
      addend := a, ready := true, inReset := false } := by
  have hready : ((s.region r).ready || ((s.region r).calibrated
      && !((s.region r).calActive && !(s.region r).background))) = true := by
    rw [hcal, hact]
    exact Bool.or_true _
  simp only [State.addendTaken, hready, true_and]
  split
  · rw [State.updateLead_region, State.updRegion_region]
    rfl
  · rw [State.updRegion_region]
    rfl

theorem State.addendTaken_rest (s : State) (r a named : Nat) :
    (s.addendTaken r a named).gd = s.gd ∧ (s.addendTaken r a named).tsu.com = s.tsu.com := by
  simp only [State.addendTaken]
  split <;> simp only [State.updateLead_gd, State.updateLead_com, State.updRegion_gd, State.updRegion_com, and_self]

theorem State.repeaterLaunchAtRx_of_good {slot t : Nat} {fence : Bool}
    (hflight : (s.region r).flight = ⟨seq, .launchAt t slot fence⟩ :: rest) (hcrc : crcOk noise = true)
    (hready : (s.region r).ready = true) (hseen : seq ∉ (s.region r).seen)
    (hahead : sdiff 48 (s.region r).count48 (t - s.advance16 r) ≤ 0) :
    s.repeaterLaunchAtRx r noise = ((s.updRegion r fun g => { g with flight := rest }).updRegion r fun g =>
      { g with acks := g.acks ++ [seq], seen := (seq :: g.seen).take 32 }).updRegion r fun g =>
        { g with armed := (g.armed.filter fun a => a.slot ≠ slot) ++ [⟨slot, t, fence⟩] } := by
  simp only [State.repeaterLaunchAtRx, hflight, hcrc, hready, Bool.not_true, Bool.false_eq_true, or_self, if_false,
    State.wordTaken_of_flight hflight]
  rw [State.wordGood_of_new (by rwa [State.updRegion_region]), State.launchAtTaken, State.updRegion_region,
    State.updRegion_region]
  exact if_neg (Int.not_lt.mpr hahead)

theorem State.repeaterLaunchAtRx_of_bad {slot t : Nat} {fence : Bool}
    (hflight : (s.region r).flight = ⟨seq, .launchAt t slot fence⟩ :: rest) (hcrc : crcOk noise = false) :
    s.repeaterLaunchAtRx r noise = s.updRegion r fun g => { g with flight := rest } := by
  simp only [State.repeaterLaunchAtRx, hflight, hcrc, Bool.not_false, true_or, if_true, State.wordTaken_of_flight hflight]

theorem State.repeaterCancelRx_of_good {slot t : Nat} (hflight : (s.region r).flight = ⟨seq, .cancel slot t⟩ :: rest)
    (hcrc : crcOk noise = true) (hready : (s.region r).ready = true) (hseen : seq ∉ (s.region r).seen) :
    s.repeaterCancelRx r noise = ((s.updRegion r fun g => { g with flight := rest }).updRegion r fun g =>
      { g with acks := g.acks ++ [seq], seen := (seq :: g.seen).take 32 }).cancelTaken r slot t := by
  simp only [State.repeaterCancelRx, hflight, hcrc, hready, Bool.not_true, Bool.false_eq_true, or_self, if_false,
    State.wordTaken_of_flight hflight]
  exact State.wordGood_of_new (by rwa [State.updRegion_region])

theorem State.repeaterCancelRx_of_bad {slot t : Nat} (hflight : (s.region r).flight = ⟨seq, .cancel slot t⟩ :: rest)
    (hcrc : crcOk noise = false) : s.repeaterCancelRx r noise = s.updRegion r fun g => { g with flight := rest } := by
  simp only [State.repeaterCancelRx, hflight, hcrc, Bool.not_false, true_or, if_true, State.wordTaken_of_flight hflight]

/-- A CANCEL of the instant of a dropped launch that its slot has not reached, R130. -/
theorem State.cancelTaken_of_ahead {slot t i : Nat} {a : Arm} (harm : s.armOf r slot = some (i, a))
    (hdrop : a.cancel ≠ .none) (ht : stamp48 a.t.toNs16 = t) (hahead : sdiff 48 (s.region r).count48 t < 0) :
    s.cancelTaken r slot t = ((s.updRegion r fun g =>
      { g with armed := g.armed.filter fun a => a.slot ≠ slot }).slotCancelled r slot).wakeCheck r := by
  simp only [State.cancelTaken, harm, Option.map_some, Option.getD_some, ht, decide_true, Bool.and_true,
    decide_eq_true hdrop, hahead, and_self, if_true]

theorem State.cancelTaken_of_reached {slot t : Nat} (hpast : 0 ≤ sdiff 48 (s.region r).count48 t) :
    s.cancelTaken r slot t = s := by
  simp only [State.cancelTaken, Int.not_lt.mpr hpast, and_false, if_false]

theorem State.repeaterFchgAtRx_of_good {tf : Word} {code : Byte} (hflight : (s.region r).flight = ⟨seq, .fchgAt tf code⟩ :: rest)
    (hcrc : crcOk noise = true) (hready : (s.region r).ready = true) (hseen : seq ∉ (s.region r).seen) :
    s.repeaterFchgAtRx r noise = ((s.updRegion r fun g => { g with flight := rest }).updRegion r fun g =>
      { g with acks := g.acks ++ [seq], seen := (seq :: g.seen).take 32 }).updRegion r fun g =>
        { g with switch := some (tf, code) } := by
  simp only [State.repeaterFchgAtRx, hflight, hcrc, hready, Bool.not_true, Bool.false_eq_true, or_self, if_false,
    State.wordTaken_of_flight hflight]
  exact State.wordGood_of_new (by rwa [State.updRegion_region])

theorem State.repeaterFchgAtRx_of_bad {tf : Word} {code : Byte} (hflight : (s.region r).flight = ⟨seq, .fchgAt tf code⟩ :: rest)
    (hcrc : crcOk noise = false) : s.repeaterFchgAtRx r noise = s.updRegion r fun g => { g with flight := rest } := by
  simp only [State.repeaterFchgAtRx, hflight, hcrc, Bool.not_false, true_or, if_true, State.wordTaken_of_flight hflight]

theorem State.repeaterCalRx_of_active {taps : Nat} (hflight : (s.region r).flight = ⟨seq, .cal⟩ :: rest)
    (hact : (s.region r).calActive = true) (hcount : (s.region r).calCount < 64) :
    s.repeaterCalRx r taps noise = if crcOk noise then ((s.updRegion r fun g => { g with flight := rest }).updRegion r fun g =>
        { g with calCount := g.calCount + 1, calSum := g.calSum + taps })
      else (s.updRegion r fun g => { g with flight := rest }).updRegion r fun g => { g with calLeft := g.calLeft + 1 } := by
  simp only [State.repeaterCalRx, hflight, hact, Nat.not_le.mpr hcount, Bool.not_true, Bool.false_eq_true, or_self, if_false,
    State.wordTaken_of_flight hflight]
  cases crcOk noise <;> rfl

end

/-! ## Acknowledgements, words sent again, and lost words -/

section
variable {s : State} {r seq : Nat}

theorem State.tbusAckRx_of_waiting (hack : seq ∈ (s.region r).acks) : execTbusAckRx r seq s = .next (s.updRegion r fun g =>
    { g with acks := (s.region r).acks.erase seq, unacked := (s.region r).unacked.filter fun w => w.seq ≠ seq }) :=
  congrArg Host.Outcome.next (State.updRegion_congr (if_pos (by simpa using hack)))

theorem State.tbusResend_of_late {w : BusWord} (hfind : (s.region r).unacked.find? (fun w => w.seq = seq) = some w)
    (hresend : w.resends < 3) (hlost : w.lost = false) (hup : s.timeUp w = false) (hlate : w.sentAt + 24 ≤ s.aon .tsu)
    (hqueue : (s.region r).queue = []) : s.tbusResend r seq = s.updRegion r fun g =>
      { g with busRetry := min (g.busRetry + 1) 0xFF, queue := [⟨seq, w.body⟩],
               unacked := g.unacked.map fun v => if v.seq = seq then { v with resends := v.resends + 1 } else v } := by
  have haon : w.sentAt + 24 ≤ s.tsu.com.time.aon := hlate
  simp only [State.tbusResend, hfind, hresend, hlost, hup, haon, hqueue, List.any_nil, Bool.not_false, and_self, if_true]
  exact State.updRegion_congr (by simp only [hqueue, List.nil_append])

/-- An ADDEND sent four times without an acknowledgement is lost and its repeater unloaded, R124. -/
theorem State.tbusDeliveryLimit_of_addend {a b c sent : Nat}
    (hun : (s.region r).unacked = [⟨seq, .addend a b c, sent, 3, false⟩]) (hlate : sent + 24 ≤ s.aon .tsu) :
    s.tbusDeliveryLimit r seq = ((((s.updRegion r fun g => { g with unacked := g.unacked.map fun v =>
      if v.seq = seq then { v with lost := true } else v }).logT .tbusLost r).wordOver r seq).updRegion r fun g =>
        { g with loaded := false }) := by
  have haon : sent + 24 ≤ s.tsu.com.time.aon := hlate
  simp only [State.tbusDeliveryLimit, hun, List.find?_cons_of_pos, decide_true, Bool.false_eq_true, if_false, BusBody.time,
    and_self, or_true, haon, if_true, State.lostOutcome]

end

/-! ## The calibration -/

section
variable {s : State} {r : Nat} {d : Int}

/-- The state of a bus whose calibration has its 64 round trips. -/
def State.calEnded (s : State) (r : Nat) : State := s.updRegion r fun g =>
  { g with calActive := false, background := false, calCount := 0, calSum := 0, calLeft := 0, lastCal := s.aon .tsu }

theorem State.tbusCalDone_of_good (hact : (s.region r).calActive = true) (hcount : (s.region r).calCount = 64)
    (hback : (s.region r).background = false) (hd : d = 125 * (s.region r).calSum - 1024 * (s.region r).turnaround)
    (hlo : 1024000 ≤ d) (hhi : d ≤ 24576000) : s.tbusCalDone r =
      ((s.calEnded r).updRegion r fun g => { g with delay := d, calibrated := true, everCal := true }).updateLead := by
  subst hd
  simp only [State.tbusCalDone, hact, hcount, and_self, if_true, hback, Bool.false_eq_true, false_and, and_false, if_false,
    Int.not_lt.mpr hlo, Int.not_lt.mpr hhi, or_self, decide_false]
  rfl

theorem State.tbusCalDone_of_bad (hact : (s.region r).calActive = true) (hcount : (s.region r).calCount = 64)
    (hd : d = 125 * (s.region r).calSum - 1024 * (s.region r).turnaround) (hbad : d < 1024000 ∨ 24576000 < d) :
    s.tbusCalDone r = (((s.calEnded r).updRegion r fun g =>
      { g with ready := false, calibrated := false, loaded := false, inReset := false }).setEvt .tsu (0x200 + 0x20 * r)
        0x40).logT .tbusCal r := by
  subst hd
  simp only [State.tbusCalDone, hact, hcount, and_self, if_true, hbad, decide_true]
  rfl

theorem State.bgRecal_of_on (hon : bitOf (s.reg .tsu 0x1C0) 1 = true) : s.bgRecal = s.updRegions fun g =>
    if g.present ∧ g.calibrated ∧ !g.calActive ∧ g.lastCal + orOne (bitsOf (s.reg .tsu 0x1C0) 15 8) * 1000000 ≤ s.aon .tsu then
      { g with calActive := true, background := true, calCount := 0, calSum := 0, calLeft := 64 }
    else g := if_pos hon

theorem State.bgRecal_of_off (hoff : bitOf (s.reg .tsu 0x1C0) 1 = false) : s.bgRecal = s :=
  if_neg (Bool.eq_false_iff.mp hoff)

end

theorem execTbusSyncSend_of_due {s : State} (hdue : s.tsu.syncAt + 1024 ≤ s.aon .tsu) :
    execTbusSyncSend s = .next ((s.updRegions fun g =>
      if g.present then { g with queue := g.queue ++ [⟨0, .sync 0⟩] } else g).updTsu fun t => { t with syncAt := s.aon .tsu }) :=
  congrArg Host.Outcome.next (if_neg (Nat.not_lt.mpr hdue))

/-- Settles O22: a word by its kind and check, the calibration by its delay. -/
theorem timeBusRules : Obligations.TimeBusRules := by
  unfold Obligations.TimeBusRules
  refine ⟨⟨fun s hdue => execTbusSyncSend_of_due hdue,
    fun r c seq rest ns frac low s hflight hcrc hpres hfail hcal hload hact => ?_,
    fun r seq a b named rest sq ad ct low s hflight hcrc hpres hfail hload hseen hcal hact => ?_,
    fun r seq slot t fence rest sq ti fr sl fe low s hflight hcrc hready hseen hahead => ?_,
    fun r seq slot t rest sq sl low s u a i hflight hcrc hready hseen hu => ?_,
    fun r seq tf code rest sq ti co low s hflight hcrc hready hseen => ?_,
    fun r seq a b c slot t taps tf code fence rest s u hu => ?_,
    fun r seq s hack => State.tbusAckRx_of_waiting hack,
    fun r seq w s hfind hresend hlost hup hlate hqueue => ?_, fun r seq a b c sent s hun hlate => ?_⟩,
    fun s => rfl, fun r taps seq rest noise s hflight hcrc hact hcount => ?_,
    fun r d s hact hcount hback hd hlo hhi => ?_, fun r d s hact hcount hd hbad => ?_, fun s hon => ?_, fun s hoff => ?_⟩
  · exact congrArg Host.Outcome.next (State.repeaterSyncRx_of_first hflight hcrc hpres hfail hcal hload hact)
  · have heq := State.repeaterAddendRx_of_good hflight hcrc hpres hfail hload hseen
    have hreg := State.addendTaken_region (s := (s.updRegion r fun g => { g with flight := rest }).updRegion r fun g =>
      { g with acks := g.acks ++ [seq], seen := (seq :: g.seen).take 32 }) (r := r) (a := a) (named := named)
      (by rw [State.updRegion_region, State.updRegion_region]; exact hcal)
      (by rw [State.updRegion_region, State.updRegion_region]; exact hact)
    have hrest := State.addendTaken_rest ((s.updRegion r fun g => { g with flight := rest }).updRegion r fun g =>
      { g with acks := g.acks ++ [seq], seen := (seq :: g.seen).take 32 }) r a named
    rw [← heq] at hreg hrest
    rw [State.updRegion_region, State.updRegion_region] at hreg
    refine ⟨s.repeaterAddendRx r (sq ++ ad ++ ct ++ low), rfl, by rw [hreg], by rw [hreg], by rw [hreg]; rfl, by rw [hreg],
      by rw [hreg], hrest.1, hrest.2⟩
  · exact congrArg Host.Outcome.next (State.repeaterLaunchAtRx_of_good hflight hcrc hready hseen hahead)
  · have heq := State.repeaterCancelRx_of_good hflight hcrc hready hseen
    rw [← hu] at heq
    have hcount : (u.region r).count48 = (s.region r).count48 := by
      rw [hu, State.updRegion_region, State.updRegion_region]
      rfl
    exact ⟨fun harm hdrop ht hahead => congrArg Host.Outcome.next
        (heq.trans (State.cancelTaken_of_ahead harm hdrop ht (hcount ▸ hahead))),
      fun hpast => congrArg Host.Outcome.next (heq.trans (State.cancelTaken_of_reached (hcount ▸ hpast)))⟩
  · exact congrArg Host.Outcome.next (State.repeaterFchgAtRx_of_good hflight hcrc hready hseen)
  · subst hu
    refine ⟨fun ns frac low hflight hcrc => ?_, fun sq ad ct low hflight hcrc => ?_,
      fun sq ti fr sl fe low hflight hcrc => ?_, fun sq sl low hflight hcrc => ?_, fun sq ti co low hflight hcrc => ?_,
      fun noise hflight hact hcount hcrc => ?_⟩
    · exact congrArg Host.Outcome.next (State.repeaterSyncRx_of_bad hflight hcrc)
    · exact congrArg Host.Outcome.next (State.repeaterAddendRx_of_bad hflight hcrc)
    · exact congrArg Host.Outcome.next (State.repeaterLaunchAtRx_of_bad hflight hcrc)
    · exact congrArg Host.Outcome.next (State.repeaterCancelRx_of_bad hflight hcrc)
    · exact congrArg Host.Outcome.next (State.repeaterFchgAtRx_of_bad hflight hcrc)
    · exact congrArg Host.Outcome.next ((State.repeaterCalRx_of_active hflight hact hcount).trans
        (if_neg (Bool.eq_false_iff.mp hcrc)))
  · exact congrArg Host.Outcome.next (State.tbusResend_of_late hfind hresend hlost hup hlate hqueue)
  · have heq := State.tbusDeliveryLimit_of_addend hun hlate
    refine ⟨s.tbusDeliveryLimit r seq, rfl, ?_, ?_, ?_, ?_⟩
    · rw [heq, State.updRegion_region, State.wordOver, State.updRegion_region, State.logT_region, State.updRegion_region, hun]
      simp
    · rw [heq, State.updRegion_region]
    · exact (State.tbusDeliveryLimit_quiet rfl (.refl s)).apart.gd
    · exact (State.tbusDeliveryLimit_quiet rfl (.refl s)).time_of_tsu
  · exact congrArg Host.Outcome.next ((State.repeaterCalRx_of_active hflight hact hcount).trans (if_pos hcrc))
  · have heq := State.tbusCalDone_of_good hact hcount hback hd hlo hhi
    refine ⟨s.tbusCalDone r, rfl, ?_, ?_, ?_, ?_, ?_, ?_⟩
    · rw [heq, State.updateLead_region, State.updRegion_region]
    · rw [heq, State.updateLead_region, State.updRegion_region]
    · rw [heq, State.updateLead_region, State.updRegion_region, State.calEnded, State.updRegion_region]
    · rw [heq, State.updateLead_region, State.updRegion_region, State.calEnded, State.updRegion_region]
    · rw [heq, State.updateLead_gd]
      rfl
    · rw [heq, State.updateLead_com]
      rfl
  · have heq := State.tbusCalDone_of_bad hact hcount hd hbad
    refine ⟨s.tbusCalDone r, rfl, ?_, ?_, ?_⟩
    · rw [heq, State.logT_region, State.setEvt_region, State.updRegion_region]
    · rw [heq, State.logT_region, State.setEvt_region, State.updRegion_region]
    · rw [heq, State.logT_gd]
      rfl
  · exact congrArg Host.Outcome.next (State.bgRecal_of_on hon)
  · exact congrArg Host.Outcome.next (State.bgRecal_of_off hoff)

end Sys2Proof.Machine
end

section
/-! What a record to a completion ring moves (R365, R369, R456). -/

namespace Sys2Proof.Machine

open Sys2Proof

/-- `t` is `s` after records: the slices, the writes on the on-die network and the log of their pages, the error
log and the event words may differ, and nothing else. -/
def State.Recorded (s t : State) : Prop :=
  ∃ d sl w head pages, s.tsu.com.Noted d ∧ t = { s with tsu := { s.tsu with
    com := d, slices := sl, nwWrites := w, dlogHead := head, filter := pages } }

section
variable {s t u : State}

theorem State.Recorded.refl (s : State) : s.Recorded s := ⟨_, _, _, _, _, .refl _, rfl⟩

theorem State.Recorded.trans (h : s.Recorded t) (k : t.Recorded u) : s.Recorded u := by
  obtain ⟨_, _, _, _, _, hd, rfl⟩ := h
  obtain ⟨_, _, _, _, _, he, rfl⟩ := k
  exact ⟨_, _, _, _, _, hd.trans he, rfl⟩

theorem State.Recorded.gd (h : s.Recorded t) : t.gd = s.gd := by obtain ⟨_, _, _, _, _, _, rfl⟩ := h; rfl
theorem State.Recorded.ports (h : s.Recorded t) : t.tsu.ports = s.tsu.ports := by obtain ⟨_, _, _, _, _, _, rfl⟩ := h; rfl
theorem State.Recorded.port (h : s.Recorded t) (p : Nat) : t.port p = s.port p := by rw [State.port, h.ports, State.port]
theorem State.Recorded.regions (h : s.Recorded t) : t.tsu.regions = s.tsu.regions := by obtain ⟨_, _, _, _, _, _, rfl⟩ := h; rfl
theorem State.Recorded.region (h : s.Recorded t) (r : Nat) : t.region r = s.region r := by
  rw [State.region, h.regions, State.region]
theorem State.Recorded.tumbs (h : s.Recorded t) : t.tsu.tumb = s.tsu.tumb := by obtain ⟨_, _, _, _, _, _, rfl⟩ := h; rfl
theorem State.Recorded.contexts (h : s.Recorded t) : t.tsu.contexts = s.tsu.contexts := by
  obtain ⟨_, _, _, _, _, _, rfl⟩ := h; rfl
theorem State.Recorded.arms (h : s.Recorded t) : t.tsu.arms = s.tsu.arms := by obtain ⟨_, _, _, _, _, _, rfl⟩ := h; rfl
theorem State.Recorded.noted (h : s.Recorded t) : s.tsu.com.Noted t.tsu.com := by obtain ⟨_, _, _, _, _, hd, rfl⟩ := h; exact hd

theorem State.updSlice_recorded (s : State) (n : Nat) (f : Slice → Slice) : s.Recorded (s.updSlice n f) :=
  ⟨_, _, _, _, _, .refl _, rfl⟩

theorem State.setEvt_recorded (s : State) (off : Nat) (m : Word) : s.Recorded (s.setEvt .tsu off m) :=
  ⟨_, _, _, _, _, Common.setEvt_noted .., rfl⟩

theorem State.logT_recorded (s : State) (code : ErrCode) (source detail : Nat) (slice : Option Nat) :
    s.Recorded (s.logT code source detail slice) := by
  cases slice with
  | none =>
    obtain ⟨d, hd, hlog⟩ := s.logT_eq code source detail
    exact ⟨d, _, _, _, _, hd, hlog⟩
  | some n =>
    obtain ⟨d, hd, hlog⟩ := s.logT_slice_eq code source detail n
    exact ⟨d, _, _, _, _, hd, hlog⟩

theorem State.Recorded.foldl {α : Type} {f : State → α → State} (hf : ∀ (s : State) x, s.Recorded (f s x)) (l : List α)
    (s : State) :
    s.Recorded (l.foldl f s) := by
  induction l generalizing s with
  | nil => exact .refl s
  | cons x l ih => exact (hf s x).trans (ih _)

theorem State.pageLog_recorded (s : State) (n addr : Nat) : s.Recorded (s.pageLog n addr) := by
  simp only [State.pageLog]
  split
  · exact .refl s
  · split
    · exact State.logT_recorded ..
    · exact ⟨_, _, _, _, _, .refl _, rfl⟩

theorem State.sliceWrite_recorded (s : State) (n : Nat) (kind : NwKind) (addr : Nat) (data : List Byte) :
    s.Recorded (s.sliceWrite n kind addr data) :=
  State.Recorded.trans ⟨_, _, _, _, _, .refl _, rfl⟩ (State.Recorded.foldl (fun s _ => State.pageLog_recorded s n _) _ _)

theorem State.ringPut_recorded (s : State) (n : Nat) (r : Record) : s.Recorded (s.ringPut n r) :=
  (State.updSlice_recorded ..).trans (State.sliceWrite_recorded ..)

theorem State.writeRecord_recorded (s : State) (r : Record) : s.Recorded (s.writeRecord r) := by
  simp only [State.writeRecord]
  split
  · exact State.updSlice_recorded ..
  · split
    · exact State.ringPut_recorded ..
    · split
      · exact State.updSlice_recorded ..
      · split
        · exact .refl s
        · exact (State.updSlice_recorded ..).trans (State.logT_recorded ..)

end

end Sys2Proof.Machine
end

section
/-! Strobes, waking, frequency changes, fences and the reset of a region (R128 to R146, R421, R432). -/

namespace Sys2Proof.Machine

open Sys2Proof

section
variable {s : State} {r slot p : Nat} {a : ArmedSlot}

theorem State.strobeFire_of_armed (harm : (s.region r).armed.find? (fun a => a.slot = slot) = some a) :
    s.strobeFire r slot = if 0 ≤ sdiff 48 (s.region r).count48 (a.t - s.advance16 r) then
      ((s.updRegion r fun g => { g with armed := g.armed.filter fun b => b.slot ≠ slot }).strobe r slot a.t a.t
        false).wakeCheck r
      else s := by
  simp only [State.strobeFire, harm]

theorem State.regionWakeRaise_of_near (harm : (s.region r).armed.find? (fun a => a.slot = slot) = some a)
    (hnear : sdiff 48 a.t (s.region r).count48 ≤ s.wakeLead16) :
    s.regionWakeRaise r slot = s.updRegion r fun g => { g with wake := true } := by
  simp only [State.regionWakeRaise, harm, hnear, if_true]

theorem State.pmFchgReq_of_one {code : Byte} (hfree : (s.region 0).fchg = none) (hready : (s.region 0).ready = true) :
    s.pmFchgReq 1 code = (((s.pmAnswer (.ack s.fchgInstant)).updTsu fun t =>
      { t with fchgAt := s.fchgInstant }).updRegion 0 fun g => { g with fchg := some s.fchgInstant }).busSend 0
        (.fchgAt s.fchgInstant code) := by
  have hone : namedRegions 1 = [0] := by decide
  simp only [State.pmFchgReq, hone, List.any_cons, List.any_nil, hfree, hready, Option.isSome_none, Bool.not_true, Bool.or_self,
    Bool.false_eq_true, if_false, List.cons_ne_nil, List.foldl_cons, List.foldl_nil]

/-- The instant of a frequency change is the first multiple of 8 ns no earlier than its lead allows, R135. -/
theorem State.fchgInstant_bounds {start : Int}
    (hstart : start = s.tsu.com.time.counter.toUnits * 2048000 + s.fchgLead * 4294967296) :
    ∃ k : Int, s.fchgInstant = BitVec.ofInt 32 (8 * k) ∧ start ≤ 8 * k * (2048000 * 4294967296)
      ∧ 8 * k * (2048000 * 4294967296) < start + 8 * (2048000 * 4294967296) := by
  refine ⟨(start + (8 * 2048000 * 4294967296 - 1)) / (8 * 2048000 * 4294967296), ?_, ?_, ?_⟩
  · rw [Int.mul_comm, hstart]
    rfl
  · omega
  · omega

theorem State.rgSwitch_of_due {tf : Word} {code : Byte} (hsw : (s.region r).switch = some (tf, code))
    (hdue : 0 ≤ sdiff 48 (s.region r).count48 (tf.toNat * 65536 : Nat)) :
    s.rgSwitch r = s.updRegion r fun g => { g with switch := none, fchg := none, rgCode := some code } := by
  simp only [State.rgSwitch, hsw]
  exact if_pos hdue

end

/-! ## Fences -/

section
variable {s : State} {p : Nat} {f : Fired} {since : Int} {rest : List (Fired × Int)}

theorem State.updPort_port (s : State) (p k : Nat) (f : Port → Port) :
    (s.updPort p f).port k = if p = k then f (s.port p) else s.port k := by
  simp only [State.updPort, State.port, State.updTsu_tsu, Tab.getD_put]

@[simp] theorem State.updPort_region (s : State) (p r : Nat) (f : Port → Port) : (s.updPort p f).region r = s.region r := rfl

@[simp] theorem State.updRegion_port (s : State) (r p : Nat) (f : Region → Region) : (s.updRegion r f).port p = s.port p := rfl

theorem State.updArm_port (s : State) (id p : Nat) (f : Arm → Arm) : (s.updArm id f).port p = s.port p := rfl

theorem State.updArm_region (s : State) (id r : Nat) (f : Arm → Arm) : (s.updArm id f).region r = s.region r := rfl

/-- A launch record delivered clears what its commands owe, and leaves the commands. -/
theorem State.recordDone_port (s : State) (a : Arm) (p : Nat) :
    ((s.recordDone a).port p).fired.map (·.cmd) = (s.port p).fired.map (·.cmd)
    ∧ ((s.recordDone a).port p).fenceHeld.map (·.1.cmd) = (s.port p).fenceHeld.map (·.1.cmd)
    ∧ ((s.recordDone a).port p).fenceBusy = (s.port p).fenceBusy := by
  simp only [State.recordDone, State.port, State.updTsu_tsu, Tab.getD, Tab.get_map]
  cases Tab.get s.tsu.ports p with
  | none => exact ⟨rfl, rfl, rfl⟩
  | some q =>
    simp only [Option.map_some, Option.getD_some, List.map_map]
    refine ⟨List.map_congr_left fun f _ => ?_, List.map_congr_left fun x _ => ?_, trivial⟩
    · simp only [Function.comp]
      split <;> rfl
    · simp only [Function.comp]
      split <;> rfl

theorem State.recordDone_region (s : State) (a : Arm) (r : Nat) : (s.recordDone a).region r = s.region r := rfl

theorem State.noteCode_port (s : State) (f : Fired) (code : ErrCode) (p : Nat) :
    ((s.noteCode f code).port p).fired.map (·.cmd) = (s.port p).fired.map (·.cmd)
    ∧ ((s.noteCode f code).port p).fenceHeld.map (·.1.cmd) = (s.port p).fenceHeld.map (·.1.cmd)
    ∧ ((s.noteCode f code).port p).fenceBusy = (s.port p).fenceBusy := by
  simp only [State.noteCode]
  split
  · exact ⟨rfl, rfl, rfl⟩
  · split
    · split <;> exact ⟨rfl, rfl, rfl⟩
    · rw [← (State.writeRecord_recorded s _).port p]
      exact State.recordDone_port ..

theorem State.noteCode_region (s : State) (f : Fired) (code : ErrCode) (r : Nat) :
    (s.noteCode f code).region r = s.region r := by
  simp only [State.noteCode]
  split
  · rfl
  · split
    · split <;> rfl
    · exact (State.recordDone_region ..).trans ((State.writeRecord_recorded s _).region r)

theorem State.fenceTaken_of_none (hheld : (s.port p).fenceHeld = []) :
    s.fenceTaken p false = s.updPort p fun q => { q with fenceBusy := false } := by
  simp only [State.fenceTaken, hheld, Bool.false_eq_true, if_false]

theorem State.fenceTaken_of_hung (hheld : (s.port p).fenceHeld = (f, since) :: rest) :
    s.fenceTaken p true = if ((s.now .tsu).toNs16 - since) / 65536 < 20000 then s
      else ((s.logT .fenceHung (srcPort p) 0 (some f.cmd.slice)).healthSend .fenceHung).portReset p := by
  simp only [State.fenceTaken, hheld, if_true]

/-- A fence done takes the held launch, which has missed. -/
theorem State.fenceTaken_of_done (hheld : (s.port p).fenceHeld = (f, since) :: rest) :
    ((s.fenceTaken p false).port p).fenceHeld.map (·.1.cmd) = rest.map (·.1.cmd)
    ∧ ((s.fenceTaken p false).port p).fenceBusy = false
    ∧ ((s.fenceTaken p false).port p).fired.map (·.cmd) = (s.port p).fired.map (·.cmd) ++ [f.cmd]
    ∧ ((s.fenceTaken p false).region f.region).fenceMiss = min ((s.region f.region).fenceMiss + 1) 0xFF := by
  obtain ⟨hfired, hheld', hbusy⟩ := State.noteCode_port ((s.updRegion f.region fun g =>
    { g with fenceMiss := min (g.fenceMiss + 1) 0xFF }).updPort p fun q =>
      { q with fenceHeld := rest, fenceBusy := false, fired := q.fired ++ [f] }) f .fenceMiss p
  simp only [State.fenceTaken, hheld, Bool.false_eq_true, if_false, (State.writeRecord_recorded _ _).port,
    (State.writeRecord_recorded _ _).region, hfired, hheld', hbusy, State.noteCode_region, State.updPort_port, if_true,
    State.updPort_region, State.updRegion_region, State.updRegion_port, List.map_append, List.map_cons, List.map_nil, and_self]

end

/-! ## The reset of a region -/

/-- What a region reset leaves of a region, R421. -/
def Region.cleared (g : Region) : Region :=
  { g with armed := [], taken := [], switch := none, fchg := none, queue := [], flight := [], acks := [], seen := [],
           wake := false, ready := false, fail := false, slipAt := [], unacked := [], inReset := true }

theorem State.setReg_region (s : State) (n : Node) (off : Nat) (w : Word) (r : Nat) :
    (s.setReg n off w).region r = s.region r := by cases n <;> rfl

theorem State.regionRst_region {s : State} {r : Nat} (hr : r < 8) (hpres : (s.region r).present = true) :
    ∃ g : Region, (s.regionRst r).region r = g.cleared.startCal := by
  have hhere : ¬ (8 ≤ r ∨ (!(s.region r).present) = true) := by
    rw [hpres]
    simp only [Bool.not_true, Bool.false_eq_true, or_false]
    omega
  simp only [State.regionRst, State.setReg_region]
  rw [if_neg hhere]
  exact ⟨_, State.updRegion_region ..⟩

theorem Region.startCal_cleared (g : Region) : g.cleared.startCal = if g.present
    then { g.cleared with calActive := true, background := false, calCount := 0, calSum := 0, calLeft := 64, loaded := false }
    else g.cleared := rfl

/-- Settles O23: each event of a region by what it finds armed, held or asked. -/
theorem regionRules : Obligations.RegionRules := by
  unfold Obligations.RegionRules
  refine ⟨fun r slot a s harm hdue => ?_, fun r slot a s harm hearly => ?_, fun r slot a s harm hnear => ?_, fun code s => rfl,
    fun code s hfree hready => ?_, fun s start hstart => State.fchgInstant_bounds hstart,
    fun r tf code s hsw hdue => ?_, fun r e m run s => rfl, fun p s hheld => ?_, fun p f since rest s hheld => ?_,
    fun p f since rest s hheld hlate => ?_, fun p f since rest s hheld hearly => ?_, fun r s hr hpres => ?_⟩
  · exact congrArg Host.Outcome.next ((State.strobeFire_of_armed harm).trans (if_pos hdue))
  · exact congrArg Host.Outcome.next ((State.strobeFire_of_armed harm).trans (if_neg (Int.not_le.mpr hearly)))
  · exact congrArg Host.Outcome.next (State.regionWakeRaise_of_near harm hnear)
  · exact congrArg Host.Outcome.next (State.pmFchgReq_of_one hfree hready)
  · exact congrArg Host.Outcome.next (State.rgSwitch_of_due hsw hdue)
  · exact congrArg Host.Outcome.next (State.fenceTaken_of_none hheld)
  · obtain ⟨hrest, hbusy, hfired, hmiss⟩ := State.fenceTaken_of_done hheld
    have hq := State.fenceTaken_quiet (p := p) (hung := false) rfl (.refl s)
    exact ⟨s.fenceTaken p false, rfl, hrest, hbusy, hfired, hmiss, hq.apart.gd, hq.time_of_tsu⟩
  · exact congrArg Host.Outcome.next ((State.fenceTaken_of_hung hheld).trans (if_neg (Int.not_lt.mpr hlate)))
  · exact congrArg Host.Outcome.next ((State.fenceTaken_of_hung hheld).trans (if_pos hearly))
  · obtain ⟨g, hg⟩ := State.regionRst_region hr hpres
    have hq := State.regionRst_quiet (r := r) rfl (.refl s)
    rw [Region.startCal_cleared] at hg
    refine ⟨s.regionRst r, rfl, ?_⟩
    rw [hg]
    split <;> exact ⟨rfl, rfl, rfl, rfl, rfl, rfl, rfl, rfl, rfl, rfl, hq.apart.gd, hq.time_of_tsu⟩

end Sys2Proof.Machine
end

section
/-! The training and the loss of a link (R149 to R155, R171). -/

namespace Sys2Proof.Machine

open Sys2Proof

theorem Tab.put_put {α : Type} (t : Tab α) (i : Nat) (v w : α) : Tab.put (Tab.put t i v) i w = Tab.put t i w := by
  induction t with
  | nil => simp [Tab.put]
  | cons p t ih =>
    obtain ⟨k, x⟩ := p
    simp only [Tab.put]
    split
    case isTrue => simp [Tab.put]
    case isFalse hlt =>
      split
      case isTrue heq => simp [Tab.put]
      case isFalse hne => simp [Tab.put, hlt, hne, ih]

section
variable {s : State} {l : LinkId}

theorem State.updLink_updLink (f g : Link → Link) : (s.updLink l f).updLink l g = s.updLink l fun k => g (f k) := by
  obtain ⟨n, p⟩ := l
  cases n <;> simp only [State.updLink, State.updCom, Tab.put_put, Tab.getD_put, if_true]

/-! ## An attempt -/

theorem State.trainingAttempt_of_free {n : Nat} (hdown : (s.link l).state = .down) (hen : (s.link l).enabled = true)
    (hfuse : (s.link l).fused = false) (hleft : (s.link l).trainLeft = 0)
    (hage : (s.link l).tried = true → (s.link l).attemptAt + 20000000 ≤ s.aon l.node)
    (hn : n = if (s.link l).tried = true then ((s.link l).attempt + 1) % 6 else 0) :
    s.trainingAttempt l = s.updLink l fun k =>
      if upstreamEnd l then { k with tried := true, attempt := n, attemptAt := s.aon l.node, fallback := 3 ≤ n,
                                     state := if k.optical then .blockLock else .pmdTrain }
      else { k with attemptAt := s.aon l.node, searchFallback := false, searchAt := s.aon l.node } := by
  have hold : ¬ ((s.link l).tried = true ∧ s.aon l.node < (s.link l).attemptAt + 20000000) :=
    fun h => Nat.not_lt.mpr (hage h.1) h.2
  rw [State.trainingAttempt]
  refine State.updLink_congr ?_
  simp only [hdown, hen, hfuse, hleft, Bool.not_false, and_self, if_true, hold, if_false, hn]

theorem State.trainingAttempt_of_young (hup : upstreamEnd l = true) (htried : (s.link l).tried = true)
    (hyoung : s.aon l.node < (s.link l).attemptAt + 20000000) : s.trainingAttempt l = s.updLink l id := by
  rw [State.trainingAttempt]
  refine State.updLink_congr ?_
  simp only [hup, htried, hyoung, and_self, if_true, ite_self, id]

theorem State.rxLock_of_searching {fb : Bool} (hdown : (s.link l).state = .down) (hen : (s.link l).enabled = true)
    (hfuse : (s.link l).fused = false) (hleft : (s.link l).trainLeft = 0) (hend : upstreamEnd l = false) :
    s.rxLock l fb = s.updLink l fun k =>
      { k with fallback := fb, attemptAt := s.aon l.node, state := if k.optical then .blockLock else .pmdTrain } := by
  rw [State.rxLock]
  refine State.updLink_congr (if_pos ⟨hdown, hen, ?_, ?_, hleft⟩)
  · rw [hfuse]; rfl
  · rw [hend]; rfl

theorem State.attemptFail_of_up (hup : (s.link l).state = .up) : s.attemptFail l = s :=
  if_neg fun ⟨_, hnup, _⟩ => hnup hup

theorem State.attemptFail_of_old (hident : (s.link l).state = .ident) (harch : (s.link l).archStuck = false)
    (hold : (s.link l).attemptAt + 20000000 ≤ s.aon l.node) : s.attemptFail l = s.attemptOver l := by
  refine if_pos ⟨by rw [hident]; decide, by rw [hident]; decide, by rw [harch]; rfl, .inl ?_⟩
  omega

/-! ## A TRAIN frame -/

variable {rx : Rx}

/-- A good TRAIN frame of an UP link, R152. -/
theorem State.trainFrameRx_of_up (hup : (s.link l).state = .up) (hgood : rx.check = .good) (htype : rx.frame.type = 0x02)
    (hcls : rx.frame.cls = 0) : s.trainFrameRx l rx = if bitOf (rx.frame.byte 12) 3
      then s.updLink l fun k => { k with rxSlot := (rx.frame.nat 21 2 / 16 + 1) % 4096, uncorrRun := 0 }
      else (s.slotTaken l rx).linkDown l 5 := by
  simp only [State.trainFrameRx, hup, hgood, htype, hcls, ne_eq, reduceCtorEq, not_false_iff, not_true, and_false, if_false,
    or_self, if_true]
  split
  · rw [State.slotTaken_of_good hgood, State.updLink_updLink]
    rfl
  · rfl

theorem commonArch_zero {lo hi : Nat} (hlo : lo = 0) (hhi : hi < 3) : commonArch lo hi = some 0 := by
  rw [commonArch, if_pos ⟨by omega, by omega⟩, Nat.zero_min]

variable {p n : Nat} {ok : Bool} {u : State}

/-- What a good TRAIN frame without an assignment brings a TSU lane in IDENT, R153. -/
theorem State.trainFrameRx_of_ident (hident : (s.link ⟨.tsu, p⟩).state = .ident) (hgood : rx.check = .good)
    (htype : rx.frame.type = 0x02) (hcls : rx.frame.cls = 0) (hnone : (s.link ⟨.tsu, p⟩).assign = none)
    (hbit : bitOf (rx.frame.byte 20) 7 = false) (hn : n = min 8 ((s.link ⟨.tsu, p⟩).goodTrain + 1))
    (hok : ok = bitOf (rx.frame.byte 12) 3)
    (hu : u = (s.updLink ⟨.tsu, p⟩ fun k => { k with
      uncorrRun := 0, goodTrain := n, rxOk := ok, nbrLoc := rx.frame.nat 13 3 % 1048576,
      nbrPort := bitsOf (rx.frame.byte 16) 5 0, nbrValid := bitOf (rx.frame.byte 16) 7,
      rxSlot := (rx.frame.nat 21 2 / 16 + 1) % 4096, cr1 := rx.frame.byte 23, cr2 := rx.frame.byte 24,
      cr3 := rx.frame.byte 25, peerImage := BitVec.ofNat 32 (rx.frame.nat 26 4) })) :
    (n < 8 ∨ ok = false → s.trainFrameRx ⟨.tsu, p⟩ rx = u)
    ∧ (n = 8 → ok = true → bitsOf (rx.frame.byte 12) 7 6 = 0 → bitsOf (rx.frame.byte 12) 5 4 < 3 →
      s.trainFrameRx ⟨.tsu, p⟩ rx
        = (u.updLink ⟨.tsu, p⟩ fun k => { k with arch := 0, archStuck := false }).enterUp ⟨.tsu, p⟩) := by
  have htaken : (s.slotTaken ⟨.tsu, p⟩ rx).updLink ⟨.tsu, p⟩ (fun k =>
      { k with goodTrain := min 8 (k.goodTrain + 1), rxOk := bitOf (rx.frame.byte 12) 3, nbrLoc := rx.frame.nat 13 3 % 1048576,
               nbrPort := bitsOf (rx.frame.byte 16) 5 0, nbrValid := bitOf (rx.frame.byte 16) 7,
               assign := if bitOf (rx.frame.byte 20) 7 then some (rx.frame.nat 17 3 % 1048576) else k.assign,
               rxSlot := (rx.frame.nat 21 2 / 16 + 1) % 4096, cr1 := rx.frame.byte 23, cr2 := rx.frame.byte 24,
               cr3 := rx.frame.byte 25, peerImage := BitVec.ofNat 32 (rx.frame.nat 26 4) }) = u := by
    rw [State.slotTaken_of_good hgood, State.updLink_updLink, hu]
    refine State.updLink_congr ?_
    simp only [Link.slotIn, hbit, Bool.false_eq_true, if_false, hn, hok]
  have hlink : (u.link ⟨.tsu, p⟩).goodTrain = n ∧ (u.link ⟨.tsu, p⟩).rxOk = ok ∧ (u.link ⟨.tsu, p⟩).assign = none := by
    rw [hu, State.updLink_link]
    exact ⟨rfl, rfl, hnone⟩
  obtain ⟨htrain, hrx, hasg⟩ := hlink
  have hassign : u.takeAssign ⟨.tsu, p⟩ = u := by
    simp only [State.takeAssign, hasg, ite_self]
  have hcheck : u.neighborCheck ⟨.tsu, p⟩ = u := rfl
  simp only [State.trainFrameRx, hident, hgood, htype, hcls, ne_eq, reduceCtorEq, not_false_iff, not_true, false_and, if_false,
    or_self, htaken, hassign, hcheck, htrain, hrx]
  constructor
  · rintro (hfew | hbad)
    · exact if_neg fun h => Nat.not_le.mpr hfew h.1
    · exact if_neg fun h => absurd (hbad.symm.trans h.2) (by decide)
  · intro h8 hyes hlo hhi
    rw [if_pos ⟨Nat.le_of_eq h8.symm, hyes⟩, commonArch_zero hlo hhi]

end

/-! ## The loss of a link -/

section
variable {s : State} {l : LinkId}

theorem State.linkBerExceeded_of_many (hup : (s.link l).state = .up)
    (hmany : 16 ≤ ((s.link l).uncorrAt.filter fun t => s.aon l.node < t + 1000000).length) :
    s.linkBerExceeded l = (s.log l.node .linkBer l.source).linkDown l 3 := if_pos ⟨hup, hmany⟩

theorem State.retrain_of_up (hup : (s.link l).state = .up) : s.retrain l = s.linkDown l 6 := if_pos hup

theorem State.laneEnWrite_both (s : State) : s.laneEnWrite 3 = ((s.setReg .tsu 0x300 (BitVec.ofNat 32
    (s.reg .tsu 0x300 / 4 * 4 + 3))).linkOn ⟨.tsu, 0⟩).linkOn ⟨.tsu, 1⟩ := by
  have hzero : (3 : BitVec 2).getLsbD 0 = true := by decide
  have hone : (3 : BitVec 2).getLsbD 1 = true := by decide
  have hnat : (3 : BitVec 2).toNat = 3 := rfl
  simp only [State.laneEnWrite, List.foldl_cons, List.foldl_nil, hzero, hone, hnat, if_true]

theorem State.laneEnWrite_none (s : State) : s.laneEnWrite 0 = ((s.setReg .tsu 0x300 (BitVec.ofNat 32
    (s.reg .tsu 0x300 / 4 * 4 + 0))).linkOff ⟨.tsu, 0⟩).linkOff ⟨.tsu, 1⟩ := by
  have hzero : (0 : BitVec 2).getLsbD 0 = false := by decide
  have hone : (0 : BitVec 2).getLsbD 1 = false := by decide
  have hnat : (0 : BitVec 2).toNat = 0 := rfl
  simp only [State.laneEnWrite, List.foldl_cons, List.foldl_nil, hzero, hone, hnat, Bool.false_eq_true, if_false]

/-- The second lane of a TSU has been out of UP for its limit, R155. -/
theorem State.redundancyLost_of_second (hlost : s.tsu.com.redunLost = false) (hup : (s.link ⟨.tsu, 0⟩).state = .up)
    (hdown : (s.link ⟨.tsu, 1⟩).state = .down) (hdecl : (s.link ⟨.tsu, 1⟩).declared = true)
    (htimed : (s.link ⟨.tsu, 1⟩).enabled = true ∨ (s.link ⟨.tsu, 1⟩).everUp = true)
    (hold : (s.link ⟨.tsu, 1⟩).downAt + 120000000 ≤ s.aon .tsu) : s.redundancyLost .tsu =
      (((s.updCom .tsu fun c => { c with redunLost := true }).setEvt .tsu 0x304 0x8).logT .redundancyLost).healthSend
        .redundancyLost := by
  have hlinked : s.linkTimed ⟨.tsu, 1⟩ = true := by rwa [State.linkTimed, Bool.or_eq_true]
  refine if_pos ⟨by rw [State.com, hlost]; rfl, .inl ⟨decide_eq_true hup, ?_⟩⟩
  simp only [upPorts, List.getD_cons_succ, List.getD_cons_zero, hdown, hdecl, hlinked, ne_eq, reduceCtorEq, not_false_iff,
    decide_true, Bool.and_self, decide_eq_true hold]

end

/-- Settles O24: each event of the training and of the loss by the state it finds the link in. -/
theorem linkRules : Obligations.LinkRules := by
  unfold Obligations.LinkRules
  refine ⟨⟨fun l n s hdown hen hfuse hleft hage hn => ?_, fun l s hup htried hyoung => ?_,
    fun l fb s hdown hen hfuse hleft hend => ?_, fun l s hdown hen hend hdue => ?_, fun l s hst => ?_, fun l s hst => ?_,
    fun l s hst => ?_, fun l s hup => ⟨?_, ?_, ?_, ?_⟩, fun l s hident harch hold => ?_,
    fun rx p n ok s u hident hgood htype hcls hnone hbit hn hok hu => ?_, fun l rx s hup hgood htype hcls => ?_⟩,
    fun l s hup => ?_, fun l s hup => ?_, fun l s hmany => ?_, fun l s hfew => ?_, fun l s hup hmany => ?_,
    fun l s hnak hcount hslots => ?_, fun p s hup => ?_, fun p s hup habsent => ?_, fun p s habsent => ?_, fun p s => rfl,
    fun s => ⟨?_, ?_⟩, fun s hlost hup hdown hdecl htimed hold => ?_⟩
  · exact congrArg Host.Outcome.next (State.trainingAttempt_of_free hdown hen hfuse hleft hage hn)
  · exact congrArg Host.Outcome.next (State.trainingAttempt_of_young hup htried hyoung)
  · exact congrArg Host.Outcome.next (State.rxLock_of_searching hdown hen hfuse hleft hend)
  · exact congrArg Host.Outcome.next (State.updLink_congr (if_pos ⟨hdown, hen, by rw [hend]; rfl, hdue⟩))
  · exact congrArg Host.Outcome.next (State.updLink_congr (if_pos hst))
  · exact congrArg Host.Outcome.next (State.updLink_congr (if_pos hst))
  · exact congrArg Host.Outcome.next (State.updLink_congr (if_pos hst))
  · exact congrArg Host.Outcome.next (State.updLink_congr (if_neg (by rw [hup]; decide)))
  · exact congrArg Host.Outcome.next (State.updLink_congr (if_neg (by rw [hup]; decide)))
  · exact congrArg Host.Outcome.next (State.updLink_congr (if_neg (by rw [hup]; decide)))
  · exact congrArg Host.Outcome.next (State.attemptFail_of_up hup)
  · exact congrArg Host.Outcome.next (State.attemptFail_of_old hident harch hold)
  · obtain ⟨hstay, hgo⟩ := State.trainFrameRx_of_ident hident hgood htype hcls hnone hbit hn hok hu
    exact ⟨fun h => congrArg Host.Outcome.next (hstay h),
      fun h8 hyes hlo hhi => congrArg Host.Outcome.next (hgo h8 hyes hlo hhi)⟩
  · exact congrArg Host.Outcome.next (State.trainFrameRx_of_up hup hgood htype hcls)
  · exact congrArg Host.Outcome.next (if_pos hup)
  · exact congrArg Host.Outcome.next (if_neg hup)
  · exact congrArg Host.Outcome.next (if_pos hmany)
  · exact congrArg Host.Outcome.next (if_neg (Nat.not_le.mpr hfew))
  · exact congrArg Host.Outcome.next (State.linkBerExceeded_of_many hup hmany)
  · exact congrArg Host.Outcome.next (if_pos ⟨hnak, hcount, hslots⟩)
  · exact congrArg Host.Outcome.next (State.retrain_of_up hup)
  · exact congrArg Host.Outcome.next ((if_neg (Bool.eq_false_iff.mp habsent)).trans (State.retrain_of_up hup))
  · exact congrArg Host.Outcome.next (if_pos habsent)
  · exact congrArg Host.Outcome.next s.laneEnWrite_both
  · exact congrArg Host.Outcome.next s.laneEnWrite_none
  · exact congrArg Host.Outcome.next (State.redundancyLost_of_second hlost hup hdown hdecl htimed hold)

end Sys2Proof.Machine
end

section
/-! Slots, replay and credits of a link, and the frames it receives (R160 to R175). -/

namespace Sys2Proof.Machine

open Sys2Proof

/-! ## A slot -/

section
variable {k : Link} {f : Frame} {rest : List Frame}

theorem Link.timeDue_tokens (k : Link) (n : Nat) : { k with tokens := n }.timeDue = k.timeDue := rfl

/-- Nothing is due before a class-1 frame with a credit, R164. -/
theorem Link.choose_of_class1 (hup : k.state = .up) (hleft : k.trainLeft = 0) (hnak : k.oweNak = none)
    (hreplay : k.oweReplay = none) (hctl : k.oweCtl = false) (hresend : k.resend = []) (hq : k.q1 = f :: rest)
    (hcr : 0 < k.cr1) : k.choose = .class1 := by
  simp only [Link.choose, hup, hleft, hnak, hreplay, hctl, hresend, hq, hcr, ne_eq, not_true, Nat.lt_irrefl, or_self, if_false,
    Option.isSome_none, Bool.or_self, Bool.false_eq_true, false_and, List.isEmpty_nil, List.isEmpty_cons, Bool.not_true,
    Bool.not_false, and_self, if_true]

/-- A class-1 frame takes a credit and is kept for replay. -/
theorem Link.sendHead_class1 (hq : k.q1 = f :: rest) (hpoison : k.poisonNext = false) (htype : f.type ≠ 0x02) :
    (k.sendHead 1).q1 = rest ∧ (k.sendHead 1).cr1 = k.cr1 - 1
    ∧ (k.sendHead 1).line = some { f with ver := BitVec.ofNat 2 k.arch }
    ∧ (k.sendHead 1).replay.getLast? = some ⟨k.txSlot, { f with ver := BitVec.ofNat 2 k.arch }⟩
    ∧ (k.sendHead 1).txSlot = (k.txSlot + 1) % 4096 := by
  simp only [Link.sendHead, Link.queue, hq, hpoison, Bool.false_eq_true, if_false, Link.put, Link.setQueue, Link.slotOut, htype,
    if_true, List.getLast?_concat, and_self]

end

section
variable {s : State} {l : LinkId}

theorem State.slotTransmit_of_time (hup : (s.link l).state = .up) (hen : (s.link l).enabled = true)
    (hfuse : (s.link l).fused = false) (hdue : (s.link l).timeDue = true) :
    s.slotTransmit l = s.timeFrameSend l (s.now l.node).toNs16 := by
  simp only [State.slotTransmit, hup, hen, hfuse, hdue, Bool.not_true, Bool.false_eq_true, ne_eq, not_true, false_and, or_self,
    if_false, if_true]

theorem State.slotTransmit_of_class1 {f : Frame} {rest : List Frame} (hup : (s.link l).state = .up)
    (hen : (s.link l).enabled = true) (hfuse : (s.link l).fused = false) (hleft : (s.link l).trainLeft = 0)
    (hdue : (s.link l).timeDue = false) (hnak : (s.link l).oweNak = none) (hreplay : (s.link l).oweReplay = none)
    (hctl : (s.link l).oweCtl = false) (hresend : (s.link l).resend = []) (hq : (s.link l).q1 = f :: rest)
    (hcr : 0 < (s.link l).cr1) : s.slotTransmit l = (s.addTokens l).updLink l fun k => k.sendHead 1 := by
  have hchoose : ((s.addTokens l).link l).choose = .class1 := by
    rw [State.addTokens, State.updLink_link]
    exact Link.choose_of_class1 hup hleft hnak hreplay hctl hresend hq hcr
  simp only [State.slotTransmit, hup, hen, hfuse, hdue, Bool.not_true, Bool.false_eq_true, ne_eq, not_true, false_and, or_self,
    if_false, hchoose]

theorem State.uncorrectableSlot_of_up (hup : (s.link l).state = .up) : s.uncorrectableSlot l false = s.updLink l fun k =>
    { k.slotIn with uncorrFrames := min (k.uncorrFrames + 1) 0xFFFF, uncorrRun := k.uncorrRun + 1,
                    uncorrAt := (k.uncorrAt.filter fun t => s.aon l.node < t + 1000000) ++ [s.aon l.node],
                    nakSlot := some k.rxSlot, nakCount := 1, nakSlots := 0, oweNak := some k.rxSlot } := by
  rw [State.uncorrectableSlot]
  refine State.updLink_congr ?_
  simp only [hup, true_or, if_true, and_self, reduceCtorEq, if_false, Link.slotIn]

/-- A lost time frame is only counted, R68. -/
theorem State.uncorrectableSlot_of_time (hup : (s.link l).state = .up) : s.uncorrectableSlot l true = s.updLink l fun k =>
    { k.slotIn with uncorrFrames := min (k.uncorrFrames + 1) 0xFFFF, uncorrRun := k.uncorrRun + 1,
                    uncorrAt := (k.uncorrAt.filter fun t => s.aon l.node < t + 1000000) ++ [s.aon l.node] } := by
  rw [State.uncorrectableSlot]
  refine State.updLink_congr ?_
  simp only [hup, true_or, if_true, reduceCtorEq, and_false, if_false, Link.slotIn]

theorem State.degradeLimitExceeded_of_lane {p : Nat}
    (hmany : 10000 < ((s.link ⟨.tsu, p⟩).corrTimes.filter fun t => s.aon .tsu < t + 1000000000).length) :
    s.degradeLimitExceeded ⟨.tsu, p⟩
      = ((s.setEvt .tsu (lstatOff ⟨.tsu, p⟩) 0x1000).logT .linkDegraded (srcLane p)).healthSend .linkDegraded :=
  if_pos hmany

end

theorem Common.enqueueMark_of_none {c : Common} {key : Nat} (h : c.marks = []) : c.enqueueMark key = c := by
  simp only [Common.enqueueMark, h, List.find?_nil]

/-- The oldest mark of its port and class puts its frames behind the queue, R206. -/
theorem Common.enqueueMark_of_first {c : Common} {key : Nat} {m : ReadyMark} {rest : List ReadyMark} (hmarks : c.marks = m :: rest)
    (hkey : m.key = key) (hroom : ((Tab.getD c.links m.port Link.reset).queue m.cls).length + m.frames.length ≤ queueCap m.cls) :
    c.enqueueMark key = { c with
      marks := rest
      links := Tab.put c.links m.port ((Tab.getD c.links m.port Link.reset).setQueue m.cls
        ((Tab.getD c.links m.port Link.reset).queue m.cls ++ m.frames)) } := by
  simp only [Common.enqueueMark, hmarks, List.find?_cons_of_pos, hkey, decide_true, Bool.and_self, hroom, List.erase_cons_head]

/-- Settles O25: a slot by what is due on it. -/
theorem slotRules : Obligations.SlotRules := by
  unfold Obligations.SlotRules
  refine ⟨fun p f rest s hup hen hfuse hleft hdue hnak hreplay hctl hresend hq hcr hpoison htype => ?_,
    fun l s hup hen hfuse hdue => ?_, fun l s hup => ?_, fun l s hup => ?_, fun l s hnak hslots hcount => ?_,
    fun l s howe hslots => ?_, fun l s hup hsince => ?_, fun p s hmany => ?_, fun key m rest s hmarks hkey hcls hroom => ?_,
    fun n key s hmarks => ?_⟩
  · have heq := State.slotTransmit_of_class1 hup hen hfuse hleft hdue hnak hreplay hctl hresend hq hcr
    have hlink : (s.slotTransmit ⟨.tsu, p⟩).link ⟨.tsu, p⟩ =
        { s.link ⟨.tsu, p⟩ with tokens := min 256 ((s.link ⟨.tsu, p⟩).tokens + s.bulkShare ⟨.tsu, p⟩) }.sendHead 1 := by
      rw [heq, State.updLink_link, State.addTokens, State.updLink_link]
    obtain ⟨hq', hcr', hline, hlast, hslot⟩ := Link.sendHead_class1
      (k := { s.link ⟨.tsu, p⟩ with tokens := min 256 ((s.link ⟨.tsu, p⟩).tokens + s.bulkShare ⟨.tsu, p⟩) }) hq hpoison htype
    rw [← hlink] at hq' hcr' hline hlast hslot
    exact ⟨s.slotTransmit ⟨.tsu, p⟩, rfl, hq', hcr', hline, hlast, hslot, by rw [heq]; rfl⟩
  · exact congrArg Host.Outcome.next (State.slotTransmit_of_time hup hen hfuse hdue)
  · exact congrArg Host.Outcome.next (State.uncorrectableSlot_of_up hup)
  · exact congrArg Host.Outcome.next (State.uncorrectableSlot_of_time hup)
  · exact congrArg Host.Outcome.next (State.updLink_congr (if_pos ⟨hnak, hslots, hcount⟩))
  · exact congrArg Host.Outcome.next (State.updLink_congr (if_pos ⟨howe, hslots⟩))
  · exact congrArg Host.Outcome.next (State.updLink_congr (if_pos ⟨hup, hsince⟩))
  · exact congrArg Host.Outcome.next (State.degradeLimitExceeded_of_lane hmany)
  · have hq1 : (Tab.getD s.tsu.com.links m.port Link.reset).queue m.cls = (s.link ⟨.tsu, m.port⟩).q1 := by
      rw [hcls]
      rfl
    have heq := Common.enqueueMark_of_first hmarks hkey (by rwa [hq1, hcls])
    refine ⟨s.updCom .tsu fun c => c.enqueueMark key, rfl, ?_, ?_, rfl⟩
    · exact (congrArg Common.marks heq :)
    · simp only [State.link, State.com, State.updCom, heq, Tab.getD_put, if_true, hcls]
      rfl
  · refine congrArg Host.Outcome.next ?_
    cases n with
    | tsu => exact congrArg (fun c => { s with tsu := { s.tsu with com := c } }) (Common.enqueueMark_of_none hmarks)
    | gd => exact congrArg (fun c => { s with gd := { s.gd with com := c } }) (Common.enqueueMark_of_none hmarks)

/-! ## A frame received -/

section
variable {s : State} {l : LinkId} {rx : Rx} {type : Nat}

theorem State.receive_of_poison (hup : (s.link l).state = .up) (hpoison : rx.check = .poison) :
    s.receive l rx type = (s.updLink l fun k =>
      { k.slotIn with uncorrRun := 0, poisoned := min (k.poisoned + 1) 0xFFFF }, none) := by
  simp only [State.receive, State.identUp_of_up hup, hup, hpoison, State.poisonSlot_of_up hup, ne_eq, not_true, if_false]

theorem State.receive_of_uncorrectable (hup : (s.link l).state = .up) (hbad : rx.check = .uncorrectable) :
    s.receive l rx type = (s.uncorrectableSlot l false, none) := by
  simp only [State.receive, State.identUp_of_up hup, hup, hbad, ne_eq, not_true, if_false]

theorem State.receive_of_other (hup : (s.link l).state = .up) (hgood : rx.check = .good)
    (htype : rx.frame.type.toNat ≠ type) : s.receive l rx type = (((s.updLink l fun k => { k.slotIn with uncorrRun := 0 }).updLink l
      fun k => k.owe rx.frame.cls.toNat).malformed l, none) := by
  simp only [State.receive, State.identUp_of_up hup, hup, hgood, State.slotTaken_of_good hgood, htype, ne_eq, not_true,
    not_false_iff, true_or, if_false, if_true]

/-- A good frame of the expected TYPE, class and version while no replay is waited for. -/
theorem State.receive_of_good (hup : (s.link l).state = .up) (hgood : rx.check = .good) (htype : rx.frame.type.toNat = type)
    (hcls : typeClass type = some rx.frame.cls.toNat) (hver : rx.frame.ver.toNat = (s.link l).arch)
    (hnak : (s.link l).nakSlot = none) (hctl : type ≠ 0x04) : s.receive l rx type =
      let u := (s.updLink l fun k => { k.slotIn with uncorrRun := 0 }).updLink l fun k => k.owe rx.frame.cls.toNat
      if (u.link l).excluded then (u, none) else (u.breakChain l rx.frame, some rx.frame) := by
  have hslot : ((s.updLink l fun k => { k.slotIn with uncorrRun := 0 }).link l).arch = (s.link l).arch
      ∧ ((s.updLink l fun k => { k.slotIn with uncorrRun := 0 }).link l).nakSlot = none := by
    rw [State.updLink_link]
    exact ⟨rfl, hnak⟩
  simp only [State.receive, State.identUp_of_up hup, hup, hgood, State.slotTaken_of_good hgood, htype, hcls, hslot.1, hslot.2,
    hver, hctl, ne_eq, not_true, or_self, if_false, Option.isSome_none, Bool.false_eq_true, false_and]

theorem Link.owe_kept (k : Link) (cls : Nat) :
    (k.owe cls).excluded = k.excluded ∧ (k.owe cls).chain1 = k.chain1 ∧ (k.owe cls).chain2 = k.chain2 := by
  have hlast : ∀ k : Link, (if 8 ≤ k.owe1 ∨ 8 ≤ k.owe2 ∨ 8 ≤ k.owe3 then { k with oweCtl := true } else k).excluded = k.excluded
      ∧ (if 8 ≤ k.owe1 ∨ 8 ≤ k.owe2 ∨ 8 ≤ k.owe3 then { k with oweCtl := true } else k).chain1 = k.chain1
      ∧ (if 8 ≤ k.owe1 ∨ 8 ≤ k.owe2 ∨ 8 ≤ k.owe3 then { k with oweCtl := true } else k).chain2 = k.chain2 := fun k => by
    split <;> exact ⟨rfl, rfl, rfl⟩
  simp only [Link.owe, hlast]
  split <;> split <;> exact ⟨rfl, rfl, rfl⟩

theorem State.breakChain_of_free {f : Frame}
    (hfree : (s.link l).chainOf f.cls.toNat = [] ∨ f.cls = 0 ∨ f.cls = 3) : s.breakChain l f = s := by
  obtain hnil | hother := hfree
  · simp only [State.breakChain, hnil]
  · have hcls : f.cls.toNat ≠ 1 ∧ f.cls.toNat ≠ 2 := by
      obtain h | h := hother <;> rw [h] <;> decide
    simp only [State.breakChain]
    split
    · rfl
    · exact if_pos (.inl hcls)

/-- A frame that breaks no message is taken whole. -/
theorem State.receive_of_taken (hup : (s.link l).state = .up) (hgood : rx.check = .good) (htype : rx.frame.type.toNat = type)
    (hcls : typeClass type = some rx.frame.cls.toNat) (hver : rx.frame.ver.toNat = (s.link l).arch)
    (hnak : (s.link l).nakSlot = none) (hctl : type ≠ 0x04)
    (hfree : (s.link l).chainOf rx.frame.cls.toNat = [] ∨ rx.frame.cls = 0 ∨ rx.frame.cls = 3) :
    s.receive l rx type = ((s.updLink l fun k => { k.slotIn with uncorrRun := 0 }).updLink l fun k => k.owe rx.frame.cls.toNat,
      if (s.link l).excluded then none else some rx.frame) := by
  have hlink : ((s.updLink l fun k => { k.slotIn with uncorrRun := 0 }).updLink l fun k => k.owe rx.frame.cls.toNat).link l
      = ({ (s.link l).slotIn with uncorrRun := 0 } : Link).owe rx.frame.cls.toNat := by
    rw [State.updLink_link, State.updLink_link]
  obtain ⟨hex, hone, htwo⟩ := Link.owe_kept { (s.link l).slotIn with uncorrRun := 0 } rx.frame.cls.toNat
  have hchain : (((s.updLink l fun k => { k.slotIn with uncorrRun := 0 }).updLink l fun k =>
      k.owe rx.frame.cls.toNat).link l).chainOf rx.frame.cls.toNat = (s.link l).chainOf rx.frame.cls.toNat := by
    rw [hlink, Link.chainOf, hone, htwo]
    rfl
  rw [State.receive_of_good hup hgood htype hcls hver hnak hctl]
  have hex' : (({ (s.link l).slotIn with uncorrRun := 0 } : Link).owe rx.frame.cls.toNat).excluded = (s.link l).excluded := hex
  simp only [hlink, hex', State.breakChain_of_free (hchain ▸ hfree)]
  cases (s.link l).excluded <;> rfl

end

section
variable {s : State} {l : LinkId} {rx : Rx}

/-- A bit of a field of a word. -/
theorem bitOf_of_bitsOf {v i hi lo : Nat} (hlo : lo ≤ i) (hhi : i ≤ hi) : bitOf v i = (bitsOf v hi lo).testBit (i - lo) := by
  rw [bitOf, bitsOf, Nat.testBit_mod_two_pow, Nat.testBit_shiftRight, decide_eq_true (by omega), Bool.true_and,
    Nat.add_sub_cancel' hlo]

theorem State.idleFrameRx_of_good (hup : (s.link l).state = .up) (hgood : rx.check = .good)
    (hver : rx.frame.ver.toNat = (s.link l).arch) (htype : rx.frame.type = 0x00) (hcls : rx.frame.cls = 0)
    (hnak : (s.link l).nakSlot = none) :
    (s.receive l rx 0x00).1 = (s.updLink l fun k => { k.slotIn with uncorrRun := 0 }).updLink l fun k => k.owe 0 := by
  have hty : rx.frame.type.toNat = 0x00 := by rw [htype]; rfl
  have hcl : typeClass 0x00 = some rx.frame.cls.toNat := by rw [hcls]; rfl
  rw [State.receive_of_taken hup hgood hty hcl hver hnak (by decide) (.inr (.inl hcls)), hcls]
  rfl

theorem State.receive_of_linkctl (hup : (s.link l).state = .up) (hgood : rx.check = .good)
    (hver : rx.frame.ver.toNat = (s.link l).arch) (htype : rx.frame.type = 0x04) (hcls : rx.frame.cls = 1) :
    s.receive l rx 0x04 = (s.updLink l fun k => { k.slotIn with uncorrRun := 0 }, some rx.frame) := by
  have hty : rx.frame.type.toNat = 0x04 := by rw [htype]; rfl
  have hcl : typeClass 0x04 = some rx.frame.cls.toNat := by rw [hcls]; rfl
  have hslot : ((s.updLink l fun k => { k.slotIn with uncorrRun := 0 }).link l).arch = (s.link l).arch := by
    rw [State.updLink_link]
    rfl
  simp only [State.receive, State.identUp_of_up hup, hup, hgood, State.slotTaken_of_good hgood, hty, hcl, hslot, hver, ne_eq,
    not_true, or_self, if_false, and_false, if_true]

/-- A LINKCTL frame with neither a NAK nor a REPLAY gives credits only, R172. -/
theorem State.linkctlRx_of_credits (hup : (s.link l).state = .up) (hgood : rx.check = .good)
    (hver : rx.frame.ver.toNat = (s.link l).arch) (htype : rx.frame.type = 0x04) (hcls : rx.frame.cls = 1)
    (hbits : bitsOf (rx.frame.byte 12) 7 6 = 0) : s.linkctlRx l rx =
      (s.updLink l fun k => { k.slotIn with uncorrRun := 0 }).updLink l fun k =>
        k.takeCredits (rx.frame.byte 17) (rx.frame.byte 18) (rx.frame.byte 19) := by
  have hsix : bitOf (rx.frame.byte 12) 6 = false := by
    rw [bitOf_of_bitsOf (hi := 7) (lo := 6) (by decide) (by decide), hbits, Nat.zero_testBit]
  have hseven : bitOf (rx.frame.byte 12) 7 = false := by
    rw [bitOf_of_bitsOf (hi := 7) (lo := 6) (by decide) (by decide), hbits, Nat.zero_testBit]
  simp only [State.linkctlRx, State.receive_of_linkctl hup hgood hver htype hcls, hsix, hseven, Bool.false_eq_true, false_and,
    if_false]

end

/-- Settles O26: a received frame by its check and its header. -/
theorem receptionRules : Obligations.ReceptionRules := by
  unfold Obligations.ReceptionRules
  refine ⟨fun l rx type s hup hgood htype hcls hver hnak hctl hfree =>
      State.receive_of_taken hup hgood htype hcls hver hnak hctl hfree,
    fun l rx type s hup hpoison => State.receive_of_poison hup hpoison,
    fun l rx type s hup hbad => State.receive_of_uncorrectable hup hbad,
    fun l rx type s hup hgood htype => State.receive_of_other hup hgood htype,
    fun l rx s hup hgood hver => ⟨fun htype hcls hnak => ?_, fun htype hcls hbits => ?_⟩⟩
  · exact congrArg Host.Outcome.next (State.idleFrameRx_of_good hup hgood hver htype hcls hnak)
  · exact congrArg Host.Outcome.next (State.linkctlRx_of_credits hup hgood hver htype hcls hbits)

end Sys2Proof.Machine
end

section
/-! Bulk objects, roll call and the repair rounds (R175, R281 to R283, R430). -/

namespace Sys2Proof.Machine

open Sys2Proof

/-! ## The objects a part holds -/

section
variable {s : State} {n : Node} {o : Nat} {x : BulkRx}

@[simp] theorem State.bulk?_setBulk (s : State) (n : Node) (o : Nat) (x : BulkRx) : (s.setBulk n o x).bulk? n o = some x := by
  cases n <;> simp only [State.bulk?, State.setBulk, State.com, State.updCom, Tab.get_put, if_true]

/-- An object that lacks a chunk is not loaded. -/
theorem State.bulkTry_of_lacking (hheld : s.bulk? n o = some x) (hlacks : x.lacks ≠ []) : s.bulkTry n o = s := by
  simp only [State.bulkTry, hheld, hlacks, ne_eq, not_false_iff, or_true, if_true]

theorem State.updCom_of_fixed {f : Common → Common} (h : f (s.com n) = s.com n) : s.updCom n f = s := by
  cases n with
  | tsu => exact congrArg (fun c => { s with tsu := { s.tsu with com := c } }) h
  | gd => exact congrArg (fun c => { s with gd := { s.gd with com := c } }) h

theorem downLink_of_tsu {l : LinkId} (h : l.node = .tsu) : downLink l = true := decide_eq_true (.inl h)

theorem downLink_of_below {l : LinkId} (h : l.node = .gd) (hp : l.port < 64) : downLink l = false := by
  refine decide_eq_false ?_
  rw [h]
  rintro (h | h | h)
  · exact absurd h (by decide)
  · omega
  · omega

end

/-! ## The frames of an object -/

section
variable {l : LinkId} {rx : Rx} {s u : State} {f : Frame} {x : BulkRx}

theorem State.bulkOpenRx_of_scope (hnode : l.node = .tsu) (hrx : s.receive l rx 0x20 = (u, some f)) (hscope : f.byte 15 = 0)
    (hkind : 0 < f.byte 14) (hkind5 : f.byte 14 < 5) (hlen : 0 < f.nat 19 5)
    (hchunks : f.nat 24 3 = (f.nat 19 5 + 1279) / 1280) : s.bulkOpenRx l rx = u.setBulk .tsu (f.nat 12 2)
      (BulkRx.fresh (f.byte 14) 0 (f.nat 16 3 % 262144) f.domain (f.nat 19 5) (u.aon .tsu)) := by
  have hsize : ¬ ((BulkRx.fresh (f.byte 14) 0 (f.nat 16 3 % 262144) f.domain (f.nat 19 5) (u.aon .tsu)).length = 0
      ∨ (BulkRx.fresh (f.byte 14) 0 (f.nat 16 3 % 262144) f.domain (f.nat 19 5) (u.aon .tsu)).chunks ≠ f.nat 24 3) := by
    rintro (h | h)
    · exact Nat.ne_of_gt hlen h
    · exact h hchunks.symm
  have hgood : ¬ (f.byte 14 = 0 ∨ 5 < f.byte 14) := by omega
  have hhere : ¬ (f.byte 14 = 5 ∨ (0 = 2 ∧ u.tsu.dieId ≠ some (f.nat 16 3 % 262144))) := by omega
  simp only [State.bulkOpenRx, hrx, downLink_of_tsu hnode, hnode, hscope, Bool.not_true, Bool.false_eq_true, if_false,
    Nat.not_lt_zero, hsize, hgood, hhere]

theorem State.bulkOpenRx_of_reserved (hnode : l.node = .tsu) (hrx : s.receive l rx 0x20 = (u, some f))
    (hscope : 2 < f.byte 15) : s.bulkOpenRx l rx = u.tsuRefuse none (0x05, 0) := by
  simp only [State.bulkOpenRx, hrx, downLink_of_tsu hnode, Bool.not_true, Bool.false_eq_true, if_false, hscope, if_true,
    State.bulkRefuse, hnode]

theorem State.bulkOpenRx_of_below (hnode : l.node = .gd) (hport : l.port < 64) (hrx : s.receive l rx 0x20 = (u, some f)) :
    s.bulkOpenRx l rx = u.malformed l := by
  simp only [State.bulkOpenRx, hrx, downLink_of_below hnode hport, Bool.not_false, if_true]

/-- A frame of a chunk that stays incomplete is kept. -/
theorem State.bulkDataRx_of_held (hnode : l.node = .tsu) (hrx : s.receive l rx 0x21 = (u, some f))
    (hheld : Tab.get u.tsu.com.bulk (f.nat 12 2) = some x) (hchunk : f.nat 14 3 < x.chunks)
    (hmore : f.more = decide (f.byte 17 % 32 < 31)) (hnew : Tab.get x.arrived (f.nat 14 3) = none)
    (hpart : ((List.range 32).all fun k => (Tab.get (Tab.put x.frags (32 * f.nat 14 3 + f.byte 17 % 32)
      ((padTo 48 f.body).drop 8)) (32 * f.nat 14 3 + k)).isSome) = false) :
    s.bulkDataRx l rx = u.setBulk .tsu (f.nat 12 2) { x with
      lastAt := u.aon .tsu
      frags := Tab.put x.frags (32 * f.nat 14 3 + f.byte 17 % 32) ((padTo 48 f.body).drop 8) } := by
  have hobj : u.bulk? .tsu (f.nat 12 2) = some x := hheld
  have hwhole : x.whole (f.nat 14 3) = false := by rw [BulkRx.whole, hnew]; rfl
  simp only [State.bulkDataRx, hrx, downLink_of_tsu hnode, hnode, hobj, Nat.not_le.mpr hchunk, hmore, Bool.not_true,
    Bool.false_eq_true, if_false, ne_eq, not_true, or_self, State.bulkData, hwhole, hpart, Bool.or_self, false_and, reduceCtorEq]

theorem State.bulkDataRx_of_other (hnode : l.node = .tsu) (hrx : s.receive l rx 0x21 = (u, some f))
    (hheld : Tab.get u.tsu.com.bulk (f.nat 12 2) = none) : s.bulkDataRx l rx = u := by
  have hobj : u.bulk? .tsu (f.nat 12 2) = none := hheld
  simp only [State.bulkDataRx, hrx, downLink_of_tsu hnode, hnode, hobj, Bool.not_true, Bool.false_eq_true, if_false]

theorem State.bulkCloseRx_of_lacking (hnode : l.node = .tsu) (hrx : s.receive l rx 0x22 = (u, some f))
    (hheld : Tab.get u.tsu.com.bulk (f.nat 12 2) = some x) (hchunks : f.nat 14 3 = x.chunks) (hlacks : x.lacks ≠ []) :
    s.bulkCloseRx l rx = u.setBulk .tsu (f.nat 12 2)
      { x with closed := true, lastAt := u.aon .tsu, missing := some x.lacks } := by
  have hobj : u.bulk? .tsu (f.nat 12 2) = some x := hheld
  simp only [State.bulkCloseRx, hrx, downLink_of_tsu hnode, hnode, hobj, hchunks, Bool.not_true, Bool.false_eq_true, if_false,
    ne_eq, not_true, reduceCtorEq]
  exact State.bulkTry_of_lacking (State.bulk?_setBulk ..) hlacks

end

section
variable {s : State} {n : Node} {o : Nat} {x : BulkRx}

theorem execBulkRxTimeout_of_due (hheld : Tab.get s.tsu.com.bulk o = some x) (hmiss : x.missing = none)
    (hdue : x.lastAt + 1000000000 ≤ s.aon .tsu) (hlacks : x.lacks ≠ []) :
    execBulkRxTimeout .tsu o s = .next (s.setBulk .tsu o { x with missing := some x.lacks }) := by
  have hobj : s.bulk? .tsu o = some x := hheld
  have htry : (s.setBulk .tsu o { x with missing := some x.lacks }).bulkTry .tsu o
      = s.setBulk .tsu o { x with missing := some x.lacks } := State.bulkTry_of_lacking (State.bulk?_setBulk ..) hlacks
  have hopen : ¬ (x.missing.isSome = true ∨ s.aon .tsu < x.lastAt + 1000000000) := by
    rw [hmiss]
    simpa using hdue
  simp only [execBulkRxTimeout, hobj, hopen, if_false, htry]

theorem State.updLink_marks (s : State) (l : LinkId) (f : Link → Link) :
    ((s.updLink l f).com .gd).marks = s.gd.com.marks := by
  obtain ⟨n, p⟩ := l
  cases n <;> rfl

/-- A chunk that waited 100 ms at a port leaves its queue, R175. -/
theorem State.bulkChunkDrop_of_late {c p at0 : Nat} (hheld : Tab.get s.gd.com.bulk o = some x)
    (harr : Tab.get x.arrived c = some at0) (hlate : at0 + 100000000 ≤ s.aon .gd)
    (hq : (s.link ⟨.gd, p⟩).q3.any (isChunk o c) = true) (hmarks : s.gd.com.marks = []) :
    s.bulkChunkDrop o c p = (s.updLink ⟨.gd, p⟩ fun k =>
      { k with q3 := k.q3.filter fun f => !isChunk o c f }).logG .bulkDrop p := by
  have hobj : s.bulk? .gd o = some x := hheld
  have hgone : ∀ here : ReadyMark → Bool, (s.updLink ⟨.gd, p⟩ fun k =>
      { k with q3 := k.q3.filter fun f => !isChunk o c f }).updCom .gd (fun c => { c with marks := c.marks.filter here })
        = s.updLink ⟨.gd, p⟩ fun k => { k with q3 := k.q3.filter fun f => !isChunk o c f } := fun here => by
    refine State.updCom_of_fixed ?_
    have hnone := (s.updLink_marks ⟨.gd, p⟩ fun k => { k with q3 := k.q3.filter fun f => !isChunk o c f }).trans hmarks
    rw [hnone, List.filter_nil, ← hnone]
  have hold : (((s.bulk? .gd o).bind fun x => Tab.get x.arrived c).any fun t => decide (t + 100000000 ≤ s.aon .gd)) = true := by
    rw [hobj, Option.bind_some, harr, Option.any_some]
    exact decide_eq_true hlate
  simp only [State.bulkChunkDrop, hold, hq, true_or, and_self, if_true, hgone]

theorem execBulkObjectExpiry_of_due (hheld : Tab.get (s.com n).bulk o = some x) (hlacks : x.lacks ≠ [])
    (hdue : x.lastAt + 10000000000 ≤ s.aon n) : execBulkObjectExpiry n o s
      = .next ((s.updCom n fun c => { c with bulk := Tab.del c.bulk o }).log n .bulkIncomplete 0 x.lacks.length) := by
  have hobj : s.bulk? n o = some x := hheld
  simp only [execBulkObjectExpiry, hobj, hlacks, Nat.not_lt.mpr hdue, or_self, if_false, State.delBulk]

theorem execChunkCacheExpiry_of_due (hheld : Tab.get s.gd.com.bulk o = some x) (hdue : x.lastAt + 60000000000 ≤ s.aon .gd) :
    execChunkCacheExpiry o s = .next (s.updCom .gd fun c => { c with bulk := Tab.del c.bulk o }) := by
  have hobj : s.bulk? .gd o = some x := hheld
  simp only [execChunkCacheExpiry, hobj, Nat.not_lt.mpr hdue, if_false, State.delBulk]

end

/-- Settles O27: each frame and each limit of an object by what is held of it. -/
theorem bulkObjectRules : Obligations.BulkObjectRules := by
  unfold Obligations.BulkObjectRules
  refine ⟨fun l rx s u f hnode hrx hscope hkind hkind5 hlen hchunks => ?_, fun l rx s u f hnode hrx hscope => ?_,
    fun l rx s u f hnode hport hrx => ?_, fun l rx s u f x hnode hrx hheld hchunk hmore hnew hpart => ?_,
    fun l rx s u f hnode hrx hheld => ?_, fun l rx s u f x hnode hrx hheld hchunks hlacks => ?_,
    fun o x s hheld hmiss hdue hlacks => execBulkRxTimeout_of_due hheld hmiss hdue hlacks,
    fun o c p x at0 s hheld harr hlate hq hmarks => ?_,
    fun n o x s hheld hlacks hdue => execBulkObjectExpiry_of_due hheld hlacks hdue,
    fun o x s hheld hdue => execChunkCacheExpiry_of_due hheld hdue⟩
  · exact congrArg Host.Outcome.next (State.bulkOpenRx_of_scope hnode hrx hscope hkind hkind5 hlen hchunks)
  · exact congrArg Host.Outcome.next (State.bulkOpenRx_of_reserved hnode hrx hscope)
  · exact congrArg Host.Outcome.next (State.bulkOpenRx_of_below hnode hport hrx)
  · exact congrArg Host.Outcome.next (State.bulkDataRx_of_held hnode hrx hheld hchunk hmore hnew hpart)
  · exact congrArg Host.Outcome.next (State.bulkDataRx_of_other hnode hrx hheld)
  · exact congrArg Host.Outcome.next (State.bulkCloseRx_of_lacking hnode hrx hheld hchunks hlacks)
  · exact congrArg Host.Outcome.next (State.bulkChunkDrop_of_late hheld harr hlate hq hmarks)

/-! ## Roll call -/

section
variable {l : LinkId} {rx : Rx} {s u v : State} {f : Frame} {e : RollEntry}

theorem State.rollAskRx_of_scope (hnode : l.node = .tsu) (hrx : s.receive l rx 0x12 = (u, some f)) (hone : f.more = false)
    (hscope : f.byte 15 ≠ 2 ∨ u.tsu.dieId = some (f.nat 16 3 % 262144)) :
    s.rollAskRx l rx = u.send l 2 0 (ansMessage (u.now .tsu).ns32 f.domain (f.nat 12 2) (f.byte 14) (f.nat 19 3) 1 0 false
      (chunkBitmap (f.nat 22 3) (f.nat 19 3) fun c =>
        ((Tab.get u.tsu.com.bulk (f.nat 12 2)).map fun x => !x.whole c).getD true)) := by
  have hhere : ¬ (f.byte 15 = 2 ∧ u.tsu.dieId ≠ some (f.nat 16 3 % 262144)) :=
    fun h => hscope.elim (fun k => k h.1) (fun k => h.2 k)
  simp only [State.rollAskRx, hrx, downLink_of_tsu hnode, hnode, hone, Bool.not_true, Bool.false_eq_true, or_self, if_false, hhere]
  rfl

theorem State.rollAskRx_of_more (hrx : s.receive l rx 0x12 = (u, some f)) (hmore : f.more = true) :
    s.rollAskRx l rx = u.malformed l := by
  simp only [State.rollAskRx, hrx, hmore, or_true, if_true]

theorem State.resendOn_none (s : State) (o p : Nat) (x : BulkRx) (anew : Bool) : s.resendOn o x p anew [] = s := by
  simp only [State.resendOn, if_true]

/-- An EMPTY answer, not the last one, of an entry in its first rounds. -/
theorem State.rollCombine_of_empty {p : Nat} (hrolls : v.gd.rolls = [e]) (hround : e.round < 5)
    (hpart : e.asked.all (e.answered ++ [p]).contains = false) :
    v.rollCombine e p f (List.replicate 512 0) = v.updGd fun g => { g with rolls := [{ e with
      answered := e.answered ++ [p], responders := e.responders + f.nat 19 3 % 1048576,
      missing := e.missing + f.byte 22, incomplete := e.incomplete || f.f48,
      bitmap := orBytes e.bitmap (List.replicate 512 0) }] } := by
  simp only [State.rollCombine, hround, if_true, State.resendOn_none]
  cases v.objectOf e.object (decide (e.up = rollHere)) <;>
    simp only [hpart, Bool.false_eq_true, if_false, State.updGd, hrolls, List.map_cons, List.map_nil, if_true]

theorem State.rollAnsRx_of_empty (hnode : l.node = .gd) (hport : l.port < 64) (hrx : s.receive l rx 0x13 = (u, some f))
    (hchain : u.chain l f (fun f => if f.f49 then 1 else 11) = (v, .whole [f])) (hempty : f.f49 = true)
    (hrolls : v.gd.rolls = [e]) (hobj : e.object = f.nat 12 2) (hwin : e.window = f.nat 16 3) (hrnd : e.round = f.byte 14)
    (hask : e.asked.contains l.port = true) (hans : e.answered.contains l.port = false) :
    s.rollAnsRx l rx = v.rollCombine e l.port f (List.replicate 512 0) := by
  simp only [State.rollAnsRx, hnode, reduceCtorEq, if_false, hrx, Nat.not_le.mpr hport, hchain, List.headD_cons, hempty, if_true,
    hrolls, hobj, hwin, hrnd, decide_true, Bool.true_and, hask, hans, Bool.not_false, List.find?_cons_of_pos]

theorem execRollWaitExpiry_of_due {key : Nat} (hentry : s.gd.rolls[key]? = some e) (hdue : e.since + s.rollWait ≤ s.aon .gd)
    (hup : e.up ≠ rollHere) : execRollWaitExpiry key s
      = .next ((s.updGd fun g => { g with rolls := g.rolls.erase e }).send ⟨.gd, e.up⟩ 2 0
        (ansMessage (s.now .gd).ns32 e.domain e.object e.round e.window e.responders
          (e.missing + (e.asked.filter fun p => !e.answered.contains p).length)
          (e.incomplete || decide (0 < (e.asked.filter fun p => !e.answered.contains p).length)) e.bitmap)) := by
  simp only [execRollWaitExpiry, hentry, hdue, if_true, State.rollAnswer, hup, if_false]
  rfl

end

/-- A repair round of an object of one window on one port begins, R281. -/
theorem State.rollRound_of_due {o p : Nat} {x : Origin} {s : State} (horig : s.gd.origins = [x]) (hobj : x.object = o)
    (hleft : x.left = 0) (hdue : x.since + 2000000 ≤ s.aon .gd) (hpos : 0 < x.data.length) (hlen : x.data.length ≤ 1280)
    (hport : x.port = some p) (hrolls : s.gd.rolls = []) :
    s.rollRound o = (s.updGd fun g => { g with
      origins := [{ x with round := x.round + 1, left := 1, missing := [], incomplete := false }],
      rolls := [{ origin := s.gd.locator.getD 0, object := o, window := 0, round := x.round + 1, up := rollHere,
                  asked := [p], answered := [], responders := 0, missing := 0, bitmap := List.replicate 512 0,
                  incomplete := false, since := s.aon .gd, domain := x.domain }] }).send ⟨.gd, p⟩ 2 0
        [askRoll (s.now .gd).ns32 x.domain o (x.round + 1) x.scope x.dest 0 1 (s.gd.locator.getD 0)] := by
  have hchunks : x.object'.chunks = 1 := by
    have h : x.object'.chunks = (x.data.length + 1279) / 1280 := rfl
    omega
  have hwindows : List.range ((1 + 4095) / 4096) = [0] := rfl
  simp only [State.rollRound, horig, hobj, decide_true, List.find?_cons_of_pos, hleft, Nat.lt_irrefl, Nat.not_lt.mpr hdue, or_self,
    if_false, hport, hchunks, hwindows, List.foldl_cons, List.foldl_nil, State.rollOpen, List.map_cons, List.map_nil, if_true,
    State.updGd, hrolls, List.filter_nil, List.nil_append, reduceCtorEq]
  rfl

/-- Settles O28: a question and an answer by the entry they name, a repair round by its object. -/
theorem rollCallRules : Obligations.RollCallRules := by
  unfold Obligations.RollCallRules
  refine ⟨fun l rx s u f hnode hrx hone hscope => ?_, fun l rx s u f hrx hmore => ?_,
    fun l rx s u v f e hnode hport hrx hchain hempty hrolls hobj hwin hrnd hround hask hans hpart => ?_,
    fun key e s hentry hdue hup => execRollWaitExpiry_of_due hentry hdue hup,
    fun o p x s horig hobj hleft hdue hpos hlen hport hrolls => ?_⟩
  · exact congrArg Host.Outcome.next (State.rollAskRx_of_scope hnode hrx hone hscope)
  · exact congrArg Host.Outcome.next (State.rollAskRx_of_more hrx hmore)
  · exact congrArg Host.Outcome.next
      ((State.rollAnsRx_of_empty hnode hport hrx hchain hempty hrolls hobj hwin hrnd hask hans).trans
        (State.rollCombine_of_empty hrolls hround hpart))
  · exact congrArg Host.Outcome.next (State.rollRound_of_due horig hobj hleft hdue hpos hlen hport hrolls)

end Sys2Proof.Machine
end

section
/-! The tumbler store and the arrivals at a tumbler (R186 to R196, R208, R212). -/

namespace Sys2Proof.Machine

open Sys2Proof

/-! ## Slices and entries under their writes -/

section
variable (s : State)

theorem State.updTumb_tumb? (e x : Nat) (f : Tumbler → Tumbler) :
    (s.updTumb e f).tumb? x = if x = e then (s.tumb? x).map f else s.tumb? x := by
  simp only [State.tumb?, State.updTumb, State.updTsu_tsu, Tab.get_map]
  split
  · rfl
  · exact Option.map_id'

@[simp] theorem State.updTumb_gd (e : Nat) (f : Tumbler → Tumbler) : (s.updTumb e f).gd = s.gd := rfl

theorem State.updSlice_slice (n k : Nat) (f : Slice → Slice) :
    (s.updSlice n f).slice k = if n = k then f (s.slice n) else s.slice k := by
  simp only [State.slice, State.updSlice, State.updTsu_tsu, Tab.getD_put]

@[simp] theorem State.updSlice_tumb? (n e : Nat) (f : Slice → Slice) : (s.updSlice n f).tumb? e = s.tumb? e := rfl

end

/-! ## The page of a slice -/

section
variable {s : State} {n off : Nat} {f : State → State}

theorem State.spGuard_of_served (hn : n < 64) (hfree : (s.slice n).state ≠ .free) (hreset : (s.slice n).state ≠ .resetting) :
    s.spGuard n off f = f s := by
  simp only [State.spGuard, Nat.not_le.mpr hn, if_false]

theorem State.spGuard_of_active (hn : n < 64) (hact : (s.slice n).state = .active) : s.spGuard n off f = f s := by
  simp only [State.spGuard, Nat.not_le.mpr hn, if_false, hact]

theorem State.spGuard_of_free (hn : n < 64) (hfree : (s.slice n).state = .free) : s.spGuard n off f =
    (s.updCom .tsu fun c => c.accessErr 2 (0x10000 + 0x1000 * n + off)).logT .sliceState (srcSlice n) 0 (some n) := by
  simp only [State.spGuard, Nat.not_le.mpr hn, if_false, hfree]

end

/-! ## Creating and closing -/

section
variable {s : State} {n b e : Nat} {tag : BitVec 24} {d : TumbDesc}

theorem State.tumblerCreate_of_named (hn : n < 64) (hact : (s.slice n).state = .active)
    (hname : (s.slice n).nameTag (TumbDesc.ofBytes ((s.slice n).pageBytes 0x0C0 4)).dom b = some tag) :
    s.tumblerCreate n b = match s.createRefusal n tag (TumbDesc.ofBytes ((s.slice n).pageBytes 0x0C0 4)) with
      | some c => s.spCode n 0x0D0 c
      | none => (s.createTumb n tag (TumbDesc.ofBytes ((s.slice n).pageBytes 0x0C0 4)) false).spCode n 0x0D0 .none := by
  simp only [State.tumblerCreate, State.spGuard_of_active hn hact, hname] <;> rfl

theorem State.tumblerClose_of_named (hn : n < 64) (hact : (s.slice n).state = .active)
    (hname : (s.slice n).nameTag (TumbDesc.ofBytes ((s.slice n).pageBytes 0x0C0 4)).dom b = some tag) :
    s.tumblerClose n b = match s.findTumb n tag (TumbDesc.ofBytes ((s.slice n).pageBytes 0x0C0 4)).index with
      | none => s.spCode n 0x0D0 .noTumbler
      | some e => (s.closeTumb e).spCode n 0x0D0 .none := by
  simp only [State.tumblerClose, State.spGuard_of_active hn hact, hname, Option.bind_some] <;> rfl

theorem State.createRefusal_of_used (hused : s.findTumb n tag d.index = some e) : s.createRefusal n tag d = some .nameInUse := by
  simp only [State.createRefusal, hused, Option.isSome_some, if_true]

/-- The tumbler that a descriptor without a domain makes, R186. -/
def TumbDesc.tumbler (d : TumbDesc) (n : Nat) (fromImage : Bool) : Tumbler :=
  { index := d.index, slice := n, domain := 0, counted := d.counted, estate := .active, mask := d.mask,
    target := d.target, op := d.op, fmt := d.fmt, lanes := d.lanes, gen := 0, arrNow := 0, arrNext := 0,
    heldArv := [], release := false, count := 0, early := 0, shareDone := false, doneNs := 0, short := false,
    overflow := false, stale := 0, nowC := [], nextC := [], firstArv := none, firstNext := none, lastSrc := 0,
    lastSlot := 0, lastGen := 0, lastNs32 := 0, lastAon := 0, turnNs32 := 0, est := 0, turns := 0, result := none,
    shortDue := false, carry := none, mstate := .member, noJoin := false, bound := none, fromImage }

theorem State.createTumb_of_free {fromImage : Bool} (hfree : Tab.freeKey s.tsu.tumb 4096 = some e) :
    s.createTumb n 0 d fromImage = (s.updTsu fun x =>
      { x with tumb := Tab.put x.tumb e (d.tumbler n fromImage) }).emptyOpens e := by
  unfold State.createTumb
  rw [hfree]
  rfl

theorem State.putTumb_tumb? (s : State) (e x : Nat) (t : Tumbler) :
    (s.updTsu fun v => { v with tumb := Tab.put v.tumb e t }).tumb? x = if e = x then some t else s.tumb? x := by
  simp only [State.tumb?, State.updTsu_tsu, Tab.get_put]

/-- An entry of no domain: an empty one opens with its share done, R196. -/
theorem State.emptyOpens_of_local {t : Tumbler} (hheld : s.tumb? e = some t) (hact : t.estate = .active)
    (hmem : t.mstate = .member) (hdom : t.domain = 0) : s.emptyOpens e = if t.empty
      then s.updTumb e fun t => { t with shareDone := true, doneNs := (s.now .tsu).ns32 } else s := by
  simp only [State.emptyOpens, hheld, hact, hmem, hdom, true_or, and_self, and_true, if_true]

theorem State.createTumb_entry {fromImage : Bool} (hfree : Tab.freeKey s.tsu.tumb 4096 = some e) :
    ∃ ns, (s.createTumb n 0 d fromImage).tumb? e = some { d.tumbler n fromImage with
      shareDone := (d.tumbler n fromImage).empty, doneNs := ns } := by
  have hheld : (s.updTsu fun x => { x with tumb := Tab.put x.tumb e (d.tumbler n fromImage) }).tumb? e
      = some (d.tumbler n fromImage) := by
    rw [State.putTumb_tumb?, if_pos rfl]
  rw [State.createTumb_of_free hfree, State.emptyOpens_of_local hheld rfl rfl rfl]
  cases hempty : (d.tumbler n fromImage).empty with
  | true =>
    rw [if_pos rfl, State.updTumb_tumb?, if_pos rfl, hheld]
    exact ⟨_, rfl⟩
  | false =>
    rw [if_neg Bool.false_ne_true, hheld]
    exact ⟨_, rfl⟩

theorem State.createTumb_others {fromImage : Bool} (hfree : Tab.freeKey s.tsu.tumb 4096 = some e) :
    (s.createTumb n 0 d fromImage).gd = s.gd
    ∧ ∀ x, x ≠ e → (s.createTumb n 0 d fromImage).tumb? x = s.tumb? x := by
  have hheld : (s.updTsu fun x => { x with tumb := Tab.put x.tumb e (d.tumbler n fromImage) }).tumb? e
      = some (d.tumbler n fromImage) := by
    rw [State.putTumb_tumb?, if_pos rfl]
  rw [State.createTumb_of_free hfree, State.emptyOpens_of_local hheld rfl rfl rfl]
  split
  · exact ⟨rfl, fun x hx => by rw [State.updTumb_tumb?, if_neg hx, State.putTumb_tumb?, if_neg (Ne.symm hx)]⟩
  · exact ⟨rfl, fun x hx => by rw [State.putTumb_tumb?, if_neg (Ne.symm hx)]⟩

variable {t : Tumbler}

theorem State.freeTumb_of_closed (hheld : s.tumb? e = some t) (hst : t.estate = .closing) (hq : s.framesOf t = false) :
    s.freeTumb e = s.updTsu fun x => { x with tumb := Tab.del x.tumb e } := by
  simp only [State.freeTumb, hheld, hst, hq, Bool.not_false, and_self, if_true]

theorem State.freeTumb_of_open (hheld : s.tumb? e = some t) (hst : t.estate ≠ .closing) : s.freeTumb e = s := by
  simp only [State.freeTumb, hheld, hst, false_and, if_false]

end

theorem select_toNat (w : Word) : (w &&& 0xFFF#32).toNat = w.toNat % 4096 := by
  rw [BitVec.toNat_and, show (0xFFF#32 : Word).toNat = 2 ^ 12 - 1 from rfl, Nat.and_two_pow_sub_one_eq_mod]

theorem State.setReg_tsu_reg (s : State) (off : Nat) (w : Word) : (s.setReg .tsu off w).reg .tsu off = w.toNat := by
  simp only [State.setReg, State.reg, State.com, State.updCom, Common.reg, Tab.getD_put, if_true]

/-- Settles O29: a page operation by the name it gives, an entry by its descriptor. -/
theorem tumblerStoreRules : Obligations.TumblerStoreRules := by
  unfold Obligations.TumblerStoreRules
  refine ⟨fun n b tag s hn hact hname hok => ?_, fun n b tag c s hn hact hname hbad => ?_, fun n b s hn hfree => ?_,
    fun n e d fromImage s hfree => ?_, fun n e tag d s hused => State.createRefusal_of_used hused,
    fun n b e tag s hn hact hname hfind => ?_, fun n b tag s hn hact hname hfind => ?_, fun e t s hheld hst hq => ?_,
    fun e t s hheld hst => ?_, fun w s => ?_⟩
  · refine congrArg Host.Outcome.next ((State.tumblerCreate_of_named hn hact hname).trans ?_)
    rw [hok]
  · refine congrArg Host.Outcome.next ((State.tumblerCreate_of_named hn hact hname).trans ?_)
    rw [hbad]
  · exact congrArg Host.Outcome.next (State.spGuard_of_free hn hfree)
  · obtain ⟨ns, hentry⟩ := State.createTumb_entry (n := n) (d := d) (fromImage := fromImage) hfree
    obtain ⟨hgd, hothers⟩ := State.createTumb_others (n := n) (d := d) (fromImage := fromImage) hfree
    exact ⟨_, hentry, rfl, rfl, rfl, rfl, rfl, rfl, rfl, rfl, rfl, rfl, rfl, rfl, rfl, rfl, rfl, rfl, rfl, hgd, hothers⟩
  · refine congrArg Host.Outcome.next ((State.tumblerClose_of_named hn hact hname).trans ?_)
    rw [hfind]
  · refine congrArg Host.Outcome.next ((State.tumblerClose_of_named hn hact hname).trans ?_)
    rw [hfind]
  · exact congrArg Host.Outcome.next (State.freeTumb_of_closed hheld hst hq)
  · exact congrArg Host.Outcome.next (State.freeTumb_of_open hheld hst)
  · exact ⟨(s.setReg .tsu 0x408 (w &&& 0xFFF#32)).updTsu fun t => { t with tumbView := s.tumbWords (w.toNat % 4096) }, rfl, rfl,
      (State.setReg_tsu_reg s 0x408 _).trans (select_toNat w), rfl, rfl⟩

/-! ## Arrivals -/

section
variable {s : State} {e slot weight len n : Nat} {t : Tumbler}

/-- The judgement of an arrival of the right form at an entry of no domain, R188. -/
theorem State.arvJudge_of_local (hheld : s.tumb? e = some t) (hact : t.estate = .active) (hslice : t.slice = n)
    (hform : ¬ (t.counted = true ∧ weight = 0)) (hdom : t.domain = 0) (hmem : t.mstate = .member) (hbound : t.bound = none) :
    s.arvJudge e slot weight (arrivalLen t.op t.fmt t.lanes) n = if t.counted then
      (if t.count < t.target then .counted t.gen false
       else if t.early < t.target then .counted (t.gen + 1) true else .refused .overflow)
    else if !t.mask.getLsbD slot then .refused .notParticipant
    else if !t.arrNow.getLsbD slot then .counted t.gen false
    else if !t.arrNext.getLsbD slot then .counted (t.gen + 1) true
    else .held := by
  simp only [State.arvJudge, hheld, hact, hslice, reduceCtorEq, ne_eq, not_true, or_self, if_false, hform, hbound,
    Option.isSome_none, Bool.false_eq_true, hmem, hdom, false_and]

theorem State.arvJudge_of_unmasked (hheld : s.tumb? e = some t) (hact : t.estate = .active) (hslice : t.slice = n)
    (hnamed : t.counted = false) (hbound : t.bound = none) (hmask : t.mask.getLsbD slot = false) :
    s.arvJudge e slot weight (arrivalLen t.op t.fmt t.lanes) n = .refused .notParticipant := by
  simp only [State.arvJudge, hheld, hact, hslice, reduceCtorEq, ne_eq, not_true, or_self, if_false, hnamed, Bool.false_eq_true,
    false_and, hbound, Option.isSome_none, hmask, Bool.not_false, if_true, and_self, ite_self]

theorem State.arvJudge_of_invalid (hheld : s.tumb? e = some t) (hact : t.estate = .active) (hslice : t.slice = n)
    (hbad : (t.counted = true ∧ weight = 0) ∨ len ≠ arrivalLen t.op t.fmt t.lanes) :
    s.arvJudge e slot weight len n = .refused .arriveInvalid := by
  have hopen : ¬ (t.estate = .closing ∨ t.slice ≠ n) := by
    rw [hact, hslice]
    rintro (h | h)
    · exact absurd h (by decide)
    · exact h rfl
  simp only [State.arvJudge, hheld]
  rw [if_neg hopen, if_pos hbad]

theorem State.arvJudge_of_none (hnone : s.tumb? e = none) : s.arvJudge e slot weight len n = .refused .noTumbler := by
  simp only [State.arvJudge, hnone]

theorem padTo_length (n : Nat) (l : List Byte) : (padTo n l).length = n := by
  rw [padTo, List.length_append, List.length_take, List.length_replicate]
  omega

end

section
variable {s : State} {a : PortArv}

theorem execPortArrival_of_free (hport : a.port < 1024) (hslot : a.slot < 64) (hheld : (s.port a.port).held = none) :
    execPortArrival a s = .next ((s.portArrive a).startsWaiting s a.port) := by
  refine congrArg Host.Outcome.next (if_neg ?_)
  rw [hheld, Option.isSome_none]
  rintro (h | h | h)
  · omega
  · exact absurd h (by decide)
  · omega

theorem State.portArrive_of_stale (hstale : (s.slice a.slice).state = .free ∨ (s.slice a.slice).sgen ≠ a.sgen) :
    s.portArrive a = (((s.logT .sliceStale (srcPort a.port) 0 (some a.slice)).endPend a.port a.entry a.slot).engineDone a.port
      a.slice a.sgen).portRecord a.port a.slice a.sgen a.entry .sliceStale 0 := by
  rw [State.portArrive]
  exact if_pos hstale

/-- An arrival of an ACTIVE slice, of the right length, that counts. -/
theorem State.portArrive_of_counted {t : Tumbler} {g : BitVec 2} {early : Bool} (hact : (s.slice a.slice).state = .active)
    (hgen : (s.slice a.slice).sgen = a.sgen) (hpend : s.pendOf a.port a.entry a.slot = none) (hentry : s.tumb? a.entry = some t)
    (hbeats : a.beats = arrivalBeats t.op t.fmt t.lanes)
    (hjudge : s.arvJudge a.entry a.slot a.weight (arrivalLen t.op t.fmt t.lanes) a.slice = .counted g early) :
    s.portArrive a = ((((s.arvCount a.entry (srcPort a.port) a.slot a.weight (padTo (arrivalLen t.op t.fmt t.lanes) a.data)
      early).endPend a.port a.entry a.slot).engineDone a.port a.slice a.sgen).updPort a.port fun q =>
        { q with arvAt := q.arvAt ++ [(a.entry, g)] }) := by
  simp only [State.portArrive, hact, hgen, hpend, hentry, hbeats, reduceCtorEq, ne_eq, not_true, or_self, if_false, Option.map_none,
    Option.map_some, Option.getD_none, Option.getD_some, Bool.false_eq_true, false_and, and_false, State.arrive, padTo_length,
    hjudge]

end

section
variable {s : State} {n e : Nat}

theorem State.softwareArrive_of_counted {g : BitVec 2} {early : Bool} (hn : n < 64) (hact : (s.slice n).state = .active)
    (hbusy : (s.slice n).arvBusy = false) (hname : s.named n ((s.slice n).word 0x060) = some e)
    (haddr : (s.slice n).word 0x068 * 4294967296 + bitsOf ((s.slice n).word 0x064) 31 3 * 8 = 0)
    (hjudge : (s.updSlice n fun v => { v with arvBusy := false }).arvJudge e (bitsOf ((s.slice n).word 0x060) 22 17)
      (bitsOf ((s.slice n).word 0x060) 30 23) 0 n = .counted g early) :
    s.softwareArrive n = (((s.updSlice n fun v => { v with arvBusy := false }).arvCount e (srcSlice n)
      (bitsOf ((s.slice n).word 0x060) 22 17) (bitsOf ((s.slice n).word 0x060) 30 23) [] early).updSlice n fun v =>
        { v with arvGen := g, arvEarly := early }).spCode n 0x06C .none := by
  rw [State.softwareArrive, State.spGuard_of_active hn hact]
  simp only [hbusy, Bool.false_eq_true, if_false, hname, haddr, true_or, if_true, State.softArrive, State.arrive, List.length_nil,
    hjudge]

theorem State.softwareArrive_of_busy (hn : n < 64) (hact : (s.slice n).state = .active) (hbusy : (s.slice n).arvBusy = true) :
    s.softwareArrive n = s := by
  rw [State.softwareArrive, State.spGuard_of_active hn hact]
  exact if_pos hbusy

theorem execHeldArrivalRelease_of_none {t : Tumbler} (hheld : s.tumb? e = some t) (hrel : t.release = true)
    (hnone : t.heldArv = []) : execHeldArrivalRelease e s
      = .next ((s.updTumb e fun t => { t with heldArv := [], release := false }).shareComplete e) := by
  simp only [execHeldArrivalRelease, hheld, Option.map_some, Option.getD_some, hrel, if_true, State.releaseHeld, hnone,
    List.foldl_nil]

theorem execHeldArrivalRelease_of_kept {t : Tumbler} (hheld : s.tumb? e = some t) (hrel : t.release = false) :
    execHeldArrivalRelease e s = .next s := by
  simp only [execHeldArrivalRelease, hheld, Option.map_some, Option.getD_some, hrel, Bool.false_eq_true, if_false]

end

/-- Settles O30: an arrival by the entry's state, its slot, and the slice it comes from. -/
theorem arrivalRules : Obligations.ArrivalRules := by
  unfold Obligations.ArrivalRules
  refine ⟨fun e slot weight n t s hheld hact hslice hnamed hdom hmem hbound hmask => ?_,
    fun e slot weight n t s hheld hact hslice hnamed hbound hmask =>
      State.arvJudge_of_unmasked hheld hact hslice hnamed hbound hmask,
    fun e slot weight n t s hheld hact hslice hcount hweight hdom hmem hbound => ?_,
    fun e slot weight len n t s hheld hact hslice hbad => State.arvJudge_of_invalid hheld hact hslice hbad,
    fun e slot weight len n s hnone => State.arvJudge_of_none hnone,
    fun a t g early s hport hslot hheld hact hgen hpend hentry hbeats hjudge => ?_,
    fun a s hport hslot hheld hstale => ?_, fun a s hheld => ?_,
    fun n e g early s hn hact hbusy hname haddr hjudge => ?_, fun n s hn hact hbusy => ?_,
    fun e t s hheld hrel hnone => execHeldArrivalRelease_of_none hheld hrel hnone,
    fun e t s hheld hrel => execHeldArrivalRelease_of_kept hheld hrel⟩
  · rw [State.arvJudge_of_local hheld hact hslice (by rw [hnamed]; exact fun h => Bool.false_ne_true h.1) hdom hmem hbound, hnamed,
      hmask]
    rfl
  · rw [State.arvJudge_of_local hheld hact hslice (fun h => Nat.ne_of_gt hweight h.2) hdom hmem hbound, hcount]
    rfl
  · refine (execPortArrival_of_free hport hslot hheld).trans ?_
    rw [State.portArrive_of_counted hact hgen hpend hentry hbeats hjudge]
  · refine (execPortArrival_of_free hport hslot hheld).trans ?_
    rw [State.portArrive_of_stale hstale]
  · exact congrArg Host.Outcome.next (if_pos (.inr (.inl hheld)))
  · exact congrArg Host.Outcome.next (State.softwareArrive_of_counted hn hact hbusy hname haddr hjudge)
  · exact congrArg Host.Outcome.next (State.softwareArrive_of_busy hn hact hbusy)

end Sys2Proof.Machine
end

section
/-! Turns received, software waits and budget events (R197 to R206, R232 to R236). -/

namespace Sys2Proof.Machine

open Sys2Proof

/-! ## A down message -/

section
variable {l : LinkId} {rx : Rx} {s u : State} {f : Frame}

theorem State.downRx_of_one {launch : Bool} (hheld : (s.link l).chainOf (if launch then 1 else 2) = [])
    (hcount : downCount launch f = some 1) (hmore : f.more = false) : s.downRx l f launch =
      ((s.updLink l fun k => k.setChain (if launch then 1 else 2) []).downFirst (srcLane l.port) launch f).downFill
        launch f f 0 := by
  simp only [State.downRx, hheld, List.headD_nil, hcount, hmore, List.length_nil, Nat.zero_add, Nat.lt_irrefl, decide_false,
    ne_eq, not_true, if_false, Bool.false_eq_true, if_true]

theorem State.turnRx_of_one (hnode : l.node = .tsu) (hrx : s.receive l rx 0x11 = (u, some f)) (hheld : (u.link l).chain2 = [])
    (hcount : downCount false f = some 1) (hmore : f.more = false) : s.turnRx l rx =
      ((u.updLink l fun k => { k with chain2 := [] }).downFirst (srcLane l.port) false f).downFill false f f 0 := by
  simp only [State.turnRx, hnode, reduceCtorEq, if_false, hrx]
  exact State.downRx_of_one hheld hcount hmore

theorem State.launchFrameRx_of_one (hnode : l.node = .tsu) (hrx : s.receive l rx 0x08 = (u, some f))
    (hheld : (u.link l).chain1 = []) (hcount : downCount true f = some 1) (hmore : f.more = false) : s.launchFrameRx l rx =
      ((u.updLink l fun k => { k with chain1 := [] }).downFirst (srcLane l.port) true f).downFill true f f 0 := by
  simp only [State.launchFrameRx, hnode, reduceCtorEq, if_false, hrx]
  exact State.downRx_of_one hheld hcount hmore

theorem State.downFirst_of_unbound {src : Nat} {launch : Bool} (hslice : s.sliceOf f.domain = none) :
    s.downFirst src launch f = s.logT .domainStale src := by
  simp only [State.downFirst, hslice]

theorem gen_succ_ne (g : BitVec 2) : g + 1 ≠ g := by revert g; decide

theorem gen_ne_two_after (g : BitVec 2) : g ≠ g + 2 := by revert g; decide

/-- A turn of the current generation reaches a member whose share is done, R200. -/
theorem State.downFirst_of_member {launch : Bool} {src n e : Nat} {t : Tumbler} {b : Binding}
    (hslice : s.sliceOf f.domain = some n) (hfind : s.findTumb n f.domain f.fIndex = some e) (hheld : s.tumb? e = some t)
    (hmem : t.mstate = .member) (hbind : (s.slice n).bindings.find? (fun b => b.tag = f.domain) = some b)
    (hexp : b.expelAt = none) (hstep : sdiff 16 f.step16.toNat (b.step % 65536 : Nat) ≠ -32768) (hgen : f.gen = t.gen)
    (hdone : t.shareDone = true) :
    s.downFirst src launch f = (s.downResult launch false f n src).1.turnApply e (s.downResult launch false f n src).2 := by
  have hget : (some t).getD t = t := rfl
  have hstepOf : s.stepOf n f.domain = b.step := by
    rw [State.stepOf, hbind]
    rfl
  rw [← hstepOf] at hstep
  simp only [State.downFirst, hslice, hfind, Option.bind_some, hheld, Option.map_some, hbind, hexp, Option.map_none,
    Option.getD_none, Bool.false_eq_true, false_and, if_false, hget, hmem, reduceCtorEq, or_self, decide_false,
    if_neg hstep, hgen, gen_succ_ne, ne_eq, not_true, State.memberTurn, hdone, Bool.not_true]

end

/-! ## A turn with no waiters -/

section
variable {s : State} {e : Nat} {t : Tumbler} {r : Result}

/-- What a turn makes of its tumbler; `x` is the time from the first arrival to the turn, R201 and R210. -/
def Tumbler.turned (r : Result) (x : Int) (t : Tumbler) : Tumbler :=
  { t with result := some r, gen := r.gen + 1, arrNow := t.arrNext, arrNext := 0, count := t.early, early := 0,
           nowC := t.nextC, nextC := [], shareDone := false, shortDue := false, short := r.short,
           overflow := false, turnNs32 := BitVec.ofInt 32 (r.c / 65536), turns := t.turns + 1,
           est := if t.firstArv.isSome then ((t.est : Int) + (x - t.est) / 4).toNat else t.est,
           firstArv := t.firstNext, firstNext := none, release := true }

theorem State.carryUpdate_of_other (hheld : s.tumb? e = some t) (hop : t.op ≠ 0x0C) : s.carryUpdate e = s := by
  simp only [State.carryUpdate, hheld]
  split
  · rfl
  · rw [if_pos (.inl hop)]

theorem State.stepTurn_of_no_tree (htree : s.tsu.tree = none) : s.stepTurn t r = s := by
  have hdom : s.domRec t.domain = none := by rw [State.domRec, htree]; rfl
  simp only [State.stepTurn, hdom]

theorem State.serveTurn_of_free (hfree : (s.slice t.slice).state = .free) (hfin : (s.slice t.slice).serve.finEn = false) :
    s.serveTurn t r = s := by
  simp only [State.serveTurn, hfin, Bool.false_eq_true, false_and, if_false, hfree, or_true, if_true]

theorem State.emptyOpens_of_waiting (hheld : s.tumb? e = some t) (hempty : t.empty = false) : s.emptyOpens e = s := by
  simp only [State.emptyOpens, hheld, hempty, Bool.false_eq_true, false_and, if_false]

/-- Where nothing waits for a turn of a tumbler outside every domain, it moves that tumbler alone. -/
theorem State.turnApply_entry (hheld : s.tumb? e = some t) (hscan : t.op ≠ 0x0B) (halloc : t.op ≠ 0x0C)
    (hempty : t.empty = false) (htree : s.tsu.tree = none) (hfree : (s.slice t.slice).state = .free)
    (hfin : (s.slice t.slice).serve.finEn = false) (hctx : s.tsu.contexts = []) (hwait : s.tsu.waits = [])
    (hlaunch : s.tsu.launches = []) (hports : s.tsu.ports = []) :
    (s.turnApply e r).tumb? e
      = some (t.turned r ((s.now .tsu).toNs - t.firstArv.getD (s.now .tsu).toNs)) := by
  have hop : isScan t.op = false := by
    rw [isScan, decide_eq_false hscan, decide_eq_false halloc]
    rfl
  have hreclaim : s.reclaimFor e = s := by rw [State.reclaimFor, hports]; rfl
  have hturn : ∀ f : Tumbler → Tumbler, (f t).op = t.op → (f t).empty = false →
      ∀ u, u = (s.updTsu fun x => { x with ports := Tab.map x.ports fun _ q =>
        { q with arvAt := q.arvAt.filter fun y => y ≠ (e, r.gen) } }).updTumb e f →
      u.tumb? e = some (f t) ∧ u.stepTurn t r = u ∧ u.carryUpdate e = u ∧ u.serveTurn t r = u
        ∧ u.waitingCtxs e (some r.gen) = [] ∧ u.softWaits e (some r.gen) = [] ∧ u.tsu.launches = []
        ∧ u.emptyOpens e = u := by
    intro f hfop hfempty u hu
    have hentry : u.tumb? e = some (f t) := by
      rw [hu, State.updTumb_tumb?, if_pos rfl]
      exact congrArg (Option.map f) hheld
    subst hu
    refine ⟨hentry, State.stepTurn_of_no_tree htree, State.carryUpdate_of_other hentry (hfop ▸ halloc),
      State.serveTurn_of_free hfree hfin, ?_, ?_, hlaunch, State.emptyOpens_of_waiting hentry hfempty⟩
    · exact congrArg (List.filterMap _) hctx
    · exact congrArg (List.filterMap _) hwait
  obtain ⟨hentry, hstep, hcarry, hserve, hctxs, hwaits, hls, hopen⟩ := hturn
    (fun t' => t'.turned r ((s.now .tsu).toNs - t.firstArv.getD (s.now .tsu).toNs)) rfl hempty _ rfl
  simp only [State.turnApply, hheld, hop, Bool.false_eq_true, if_false, hreclaim]
  simp only [Tumbler.turned] at hentry hstep hcarry hserve hctxs hwaits hls hopen ⊢
  simp only [hstep, hcarry, hserve, hctxs, hwaits, hls, hopen, List.foldl_nil, List.filter_nil, hentry]

end

/-! ## Software waits and budgets -/

section
variable {s : State} {n k e : Nat}

/-- A wait of the current generation without a deadline, R204. -/
theorem State.waitArm_of_current {t : Tumbler} (hn : n < 64) (hk : k < 4) (hact : (s.slice n).state = .active)
    (hnone : Tab.get s.tsu.waits (4 * n + k) = none) (hname : s.named n ((s.slice n).word (0x080 + 0x10 * k)) = some e)
    (hheld : s.tumb? e = some t) (hdead : bitOf ((s.slice n).word (0x080 + 0x10 * k + 12)) 16 = false)
    (hgen : BitVec.ofNat 2 (bitsOf ((s.slice n).word (0x080 + 0x10 * k)) 18 17) = t.gen) :
    s.waitArm n k = s.updTsu fun x => { x with
      waits := Tab.put x.waits (4 * n + k) ⟨e, t.gen, none, s.tsu.order⟩, order := s.tsu.order + 1 } := by
  simp only [State.waitArm, Nat.not_le.mpr hk, if_false, State.spGuard_of_active hn hact, hnone, Option.isSome_none,
    Bool.false_eq_true, hname, Option.bind_some, hheld, Option.map_some, hgen, gen_ne_two_after, State.waitDeadline, hdead,
    Bool.not_false, if_true, gen_succ_ne]

theorem State.waitArm_of_full {w : SoftWait} (hn : n < 64) (hk : k < 4) (hact : (s.slice n).state = .active)
    (hheld : Tab.get s.tsu.waits (4 * n + k) = some w) : s.waitArm n k = s.waitRefused n
      (s.named n ((s.slice n).word (0x080 + 0x10 * k))) (bitsOf ((s.slice n).word (0x080 + 0x10 * k)) 11 0)
      (BitVec.ofNat 2 (bitsOf ((s.slice n).word (0x080 + 0x10 * k)) 18 17)) .waitFull true := by
  simp only [State.waitArm, Nat.not_le.mpr hk, if_false, State.spGuard_of_active hn hact, hheld, Option.isSome_some, if_true]

theorem State.waitTimeout_of_due {o : Nat} {g : BitVec 2} {d : Time80}
    (hheld : Tab.get s.tsu.waits (4 * n + k) = some ⟨e, g, some d, o⟩) (hdue : d.toNs16 ≤ (s.now .tsu).toNs16) :
    s.waitTimeout n k = (((s.updTsu fun t => { t with waits := Tab.del t.waits (4 * n + k) }).logT .waitTimeout
        (srcSlice ((4 * n + k) / 4)) 0 (some ((4 * n + k) / 4))).waitRecord ((4 * n + k) / 4) (srcSlice ((4 * n + k) / 4))
        (((s.updTsu fun t => { t with waits := Tab.del t.waits (4 * n + k) }).logT .waitTimeout
          (srcSlice ((4 * n + k) / 4)) 0 (some ((4 * n + k) / 4))).tumb? e) none g .waitTimeout) := by
  simp only [State.waitTimeout, hheld, hdue, if_true, State.endSoftWait, reduceCtorEq, if_false]

theorem State.reclaim_of_lent {p : Nat} {til : Word} (hlent : (s.port p).lent = some (til, e)) (hnone : s.tsu.lend = []) :
    s.reclaim p = (s.updPort p fun q => { q with lent := none }).updTsu fun t =>
      { t with lend := [⟨false, p, (s.now .tsu).ns32⟩] } := by
  have hlend : ∀ t : Tsu, t.lend = [] → t.com = s.tsu.com → (match dropLend p t.lend.reverse with
      | some l => { t with lend := l.reverse }
      | none => { t with lend := t.lend ++ [⟨false, p, t.com.time.counter.ns32⟩] })
        = { t with lend := [⟨false, p, (s.now .tsu).ns32⟩] } := fun t ht hcom => by
    rw [ht, hcom]
    rfl
  simp only [State.reclaim, hlent]
  exact congrArg (fun t => { s.updPort p (fun q => { q with lent := none }) with tsu := t })
    (hlend (s.updPort p fun q => { q with lent := none }).tsu hnone rfl)

theorem execBudgetReclaim_of_due {p : Nat} {til : Word} (hlent : (s.port p).lent = some (til, e))
    (hdue : 0 ≤ sdiff 32 (s.now .tsu).ns32.toNat til.toNat) : execBudgetReclaim p s = .next (s.reclaim p) := by
  simp only [execBudgetReclaim, hlent]
  exact congrArg Host.Outcome.next (if_pos hdue)

theorem execPmLendEvent_of_cons {v : LendEvent} {rest : List LendEvent} (h : s.tsu.lend = v :: rest) :
    execPmLendEvent s = .next (s.updTsu fun t => { t with lend := rest }) := by
  simp only [execPmLendEvent, State.updTsu, h, List.drop_succ_cons, List.drop_zero]

end

/-- Settles O31: a down message by the share it finds, a wait by its generation and its deadline. -/
theorem turnAndWaitRules : Obligations.TurnAndWaitRules := by
  unfold Obligations.TurnAndWaitRules
  refine ⟨fun l rx s u f hnode hrx hheld hcount hmore => ?_, fun l rx s u f hnode hrx hheld hcount hmore => ?_,
    fun src launch f s hslice => State.downFirst_of_unbound hslice,
    fun launch f src n e t b s hslice hfind hheld hmem hbind hexp hstep hgen hdone =>
      State.downFirst_of_member hslice hfind hheld hmem hbind hexp hstep hgen hdone,
    fun e r t s hheld hscan halloc hdom hempty htree hfree hfin hctx hwait hlaunch hports => ?_,
    fun n k e t s hn hk hact hnone hname hheld hdead hgen => ?_, fun n k w s hn hk hact hheld => ?_,
    fun n k e o g d s hk hheld hdue => ?_, fun p e til s hlent hnone hdue => ?_,
    fun v rest s h => execPmLendEvent_of_cons h⟩
  · exact congrArg Host.Outcome.next (State.turnRx_of_one hnode hrx hheld hcount hmore)
  · exact congrArg Host.Outcome.next (State.launchFrameRx_of_one hnode hrx hheld hcount hmore)
  · exact ⟨_, State.turnApply_entry hheld hscan halloc hempty htree hfree hfin hctx hwait hlaunch hports, rfl, rfl, rfl, rfl, rfl,
      rfl, rfl, rfl, rfl, rfl, rfl⟩
  · exact congrArg Host.Outcome.next (State.waitArm_of_current hn hk hact hnone hname hheld hdead hgen)
  · exact congrArg Host.Outcome.next (State.waitArm_of_full hn hk hact hheld)
  · exact congrArg Host.Outcome.next ((if_neg (Nat.not_le.mpr hk)).trans (State.waitTimeout_of_due hheld hdue))
  · refine ⟨s.reclaim p, execBudgetReclaim_of_due hlent hdue, ?_, ?_, ?_⟩
    · rw [State.reclaim_of_lent hlent hnone, State.port, State.updTsu_tsu, ← State.port, State.updPort_port, if_pos rfl]
    · rw [State.reclaim_of_lent hlent hnone]
      rfl
    · rw [State.reclaim_of_lent hlent hnone]
      rfl

end Sys2Proof.Machine
end

section
/-! Launches at the ports (R226 to R247). -/

namespace Sys2Proof.Machine

open Sys2Proof

section
variable {s : State} {id r slot : Nat} {a : Arm}

/-- The one region of an armed launch whose T is near enough is sent its word, R132. -/
theorem State.launchAtSend_of_near (harm : Tab.get s.tsu.arms id = some a) (hcancel : a.cancel = .none)
    (hlist : a.listWait = false) (hnear : a.t.toNs16 - (s.now .tsu).toNs16 ≤ 65536 * 65536) (hslots : a.slots = [(r, slot)])
    (hsent : a.sent = []) : s.launchAtSend id = if (s.region r).ready
      then (s.updArm id fun a => { a with sent := a.sent ++ [r] }).busSend r (.launchAt (stamp48 a.t.toNs16) slot a.fence)
      else (s.updArm id fun a => { a with sent := a.sent ++ [r] }).slotLost r slot .tbusLost := by
  have hgo : ¬ (a.cancel ≠ .none ∨ a.listWait = true ∨ 65536 * 65536 < a.t.toNs16 - (s.now .tsu).toNs16) := by
    rw [hcancel, hlist]
    rintro (h | h | h)
    · exact h rfl
    · exact Bool.false_ne_true h
    · exact Int.not_lt.mpr hnear h
  simp only [State.launchAtSend, harm]
  rw [if_neg hgo, hslots, hsent]
  rfl

theorem State.launchAtSend_of_far (harm : Tab.get s.tsu.arms id = some a)
    (hfar : 65536 * 65536 < a.t.toNs16 - (s.now .tsu).toNs16) : s.launchAtSend id = s := by
  simp only [State.launchAtSend, harm]
  exact if_pos (.inr (.inr hfar))

end

/-! ## Capturing and taking a command -/

section
variable {s : State} {p : Nat}

/-- Lending budget to a port leaves its commands alone. -/
theorem State.lendPort_port (s : State) (p k e : Nat) (g : BitVec 2) :
    ∃ lent, (s.lendPort p e g).port k = { s.port k with lent := lent } := by
  simp only [State.lendPort]
  split
  · exact ⟨_, rfl⟩
  · split
    · exact ⟨_, rfl⟩
    · split
      · exact ⟨_, rfl⟩
      · have hport : ∀ (u : State) (l : List LendEvent),
            (u.updTsu fun x => { x with lend := x.lend ++ l }).port k = u.port k := fun _ _ => rfl
        rw [hport, State.updPort_port]
        split
        case isTrue h => exact h ▸ ⟨_, rfl⟩
        case isFalse => exact ⟨_, rfl⟩

theorem State.startsWaiting_port (s before : State) (p k : Nat) :
    ∃ lent, (s.startsWaiting before p).port k = { s.port k with lent := lent } := by
  simp only [State.startsWaiting]
  split
  · exact ⟨_, rfl⟩
  · split
    · exact ⟨_, rfl⟩
    · exact State.lendPort_port ..

theorem State.portTaken_of_kept {f : Fired} (hcancel : f.cancel = .none) : s.portTaken p f = s.updPort p fun q => { q with
    fired := q.fired.drop 1, atEngine := q.atEngine ++ [(f.cmd.slice, f.cmd.sgen)],
    fenceBusy := q.fenceBusy || f.cmd.fence } := by
  simp only [State.portTaken, hcancel, reduceCtorEq, if_false]

variable {f : Fired} {rest : List Fired} {stamp : Int} {period : Nat} {ready : Bool}

/-- A command whose strobe has reached the port is presented, R233. -/
theorem State.portCapture_of_reached (hfired : (s.port p).fired = f :: rest) (hshown : f.shown = none)
    (hreset : (s.port p).resetAt = none) (hreach : 0 < sdiff 48 stamp f.reach) (hgated : f.gated = false)
    (hcancel : f.cancel = .none) : s.portCapture p stamp period ready =
      let u := s.updPort p fun q => { q with fired := { f with shown := some stamp } :: q.fired.drop 1,
                                             hold := q.hold.filter fun h => h.1 ≠ f.cmd.slice }
      let v := if f.late = true ∧ (period : Int) < sdiff 48 stamp f.t
        then u.firedRecord p f .launchLate (sdiff 48 stamp f.t / 65536) else u
      if ready then v.portTaken p f else v := by
  simp only [State.portCapture, hfired, hshown, hreset, Option.isSome_none, Bool.false_eq_true, false_or, Int.not_le.mpr hreach,
    if_false, hgated, hcancel, ne_eq, not_true]

theorem State.cmdTaken_of_shown {at0 : Int} (hfired : (s.port p).fired = f :: rest) (hshown : f.shown = some at0)
    (hcancel : f.cancel = .none) : s.cmdTaken p stamp =
      (s.firedRecord p f .queueStall ((stamp - at0) / 65536)).updPort p fun q => { q with
        fired := q.fired.drop 1, atEngine := q.atEngine ++ [(f.cmd.slice, f.cmd.sgen)],
        fenceBusy := q.fenceBusy || f.cmd.fence } := by
  simp only [State.cmdTaken, hfired, hshown, State.portTaken_of_kept hcancel]

theorem State.cmdTaken_of_none (hfired : (s.port p).fired = []) :
    s.cmdTaken p stamp = s.updPort p fun q => { q with direct := q.direct.drop 1 } := by
  simp only [State.cmdTaken, hfired]

end

/-! ## Aborts -/

section
variable {s : State} {w : Word} {p n at0 m : Nat} {rest : List Nat} {a : AbortRun}

theorem State.sliceAbortGo_of_view (hgo : bitOf w.toNat 6 = false) : s.sliceAbortGo w = s.setReg .tsu 0x518 (w &&& 0x3F#32) := by
  simp only [State.sliceAbortGo, hgo, Bool.not_false, if_true]

theorem State.setReg_slice (s : State) (off k : Nat) (w : Word) : (s.setReg .tsu off w).slice k = s.slice k := rfl

theorem State.sliceAbortGo_of_go (hgo : bitOf w.toNat 6 = true) (hheld : (s.slice (bitsOf w.toNat 5 0)).state ≠ .free) :
    s.sliceAbortGo w = ((s.setReg .tsu 0x518 (w &&& 0x3F#32)).updTsu fun t =>
      { t with hostSeq := (s.tsu.hostSeq + 1) % 65536 }).order (bitsOf w.toNat 5 0)
        { verb := 1, ctx := some 0, sentence := 0, rank := 2, src := srcHost, seq := (s.tsu.hostSeq + 1) % 65536 } := by
  simp only [State.sliceAbortGo, hgo, Bool.not_true, Bool.false_eq_true, if_false, State.setReg_slice, hheld]
  rfl

theorem State.abortCheck_of_busy (habort : (s.slice n).abort = some a) (hports : a.ports ≠ []) : s.abortCheck n = s := by
  simp only [State.abortCheck, habort, hports, ne_eq, not_false_iff, if_true]

/-- A port that acknowledges leaves an abort in which others are still asked. -/
theorem State.portAcked_of_more (habort : (s.slice n).abort = some a) (hmore : a.ports.filter (· ≠ p) = m :: rest) :
    s.portAcked p n = (s.updPort p fun q => { q with
      abort := q.abortDue.head?.map fun k => (k, s.aon .tsu), abortDue := q.abortDue.drop 1,
      atEngine := q.atEngine.filter fun x => x.1 ≠ n }).updSlice n fun v =>
        { v with abort := v.abort.map fun a => { a with ports := a.ports.filter (· ≠ p) } } := by
  refine State.abortCheck_of_busy (a := { a with ports := m :: rest }) ?_ (List.cons_ne_nil _ _)
  rw [State.updSlice_slice, if_pos rfl, ← hmore]
  exact congrArg (Option.map fun a : AbortRun => { a with ports := a.ports.filter (· ≠ p) }) habort

theorem State.engAbortLimit_of_due (habort : (s.port p).abort = some (n, at0)) (hnone : (s.port p).abortDue = [])
    (hdue : at0 + clampNat 1 8 (bitsOf (s.reg .tsu 0x500) 3 0) * 1000 ≤ s.aon .tsu) : s.engAbortLimit p =
      (((((s.logT .abortOverrun (srcPort p) 0 (some n)).healthSend .abortOverrun).portReset p).updSlice n fun v =>
        { v with abort := v.abort.map fun a => { a with ports := a.ports.filter (· ≠ p) } }).abortCheck n) := by
  have hgo : ¬ s.tsu.com.time.aon < at0 + clampNat 1 8 (bitsOf (s.reg .tsu 0x500) 3 0) * 1000 := Nat.not_lt.mpr hdue
  simp only [State.engAbortLimit, habort, hnone, hgo, if_false, List.foldl_cons, List.foldl_nil]

theorem State.engAbortLimit_of_early (habort : (s.port p).abort = some (n, at0))
    (hearly : s.aon .tsu < at0 + clampNat 1 8 (bitsOf (s.reg .tsu 0x500) 3 0) * 1000) : s.engAbortLimit p = s := by
  simp only [State.engAbortLimit, habort]
  exact if_pos hearly

end

theorem execLpAbortAck_of_asked {s : State} {p n at0 : Nat} (habort : (s.port p).abort = some (n, at0)) :
    execLpAbortAck p s = .next (s.portAcked p n) := by
  simp only [execLpAbortAck, habort]

theorem State.updPort_slice (s : State) (p n : Nat) (f : Port → Port) : (s.updPort p f).slice n = s.slice n := rfl

theorem State.updSlice_port (s : State) (n p : Nat) (f : Slice → Slice) : (s.updSlice n f).port p = s.port p := rfl

/-- Settles O32: a launch by its T, a command by its strobe and its engine, an abort by its ports. -/
theorem launchRules : Obligations.LaunchRules := by
  unfold Obligations.LaunchRules
  refine ⟨fun id r slot a s harm hcancel hlist hnear hslots hsent => ?_, fun id a s harm hfar => ?_,
    fun p e ready f rest s hfired hshown hreset hreach hlate hgated hcancel => ?_,
    fun p e f rest s hfired hshown hreset hreach hlate hlater hgated hcancel => ?_,
    fun p stamp at0 f rest s hfired hshown hcancel => ?_, fun p stamp s hfired => ?_, fun w s hgo => ?_,
    fun w s hgo hheld => ?_, fun p n at0 m rest a s hport habort hmore => ?_, fun p n at0 s habort hnone hdue => ?_,
    fun p n at0 s habort hearly => ?_, fun s => rfl⟩
  · exact congrArg Host.Outcome.next (State.launchAtSend_of_near harm hcancel hlist hnear hslots hsent)
  · exact congrArg Host.Outcome.next (State.launchAtSend_of_far harm hfar)
  · have heq := State.portCapture_of_reached (period := e.period) (ready := ready) hfired hshown hreset hreach hgated hcancel
    simp only [hlate, Bool.false_eq_true, false_and, if_false, State.portTaken_of_kept hcancel] at heq
    obtain ⟨lent, hport⟩ := State.startsWaiting_port (s.portCapture p e.stamp e.period ready) s p p
    refine ⟨(s.portCapture p e.stamp e.period ready).startsWaiting s p, rfl, ?_, ?_, ?_,
      (execPortCapture_quiet rfl (.refl s)).apart.gd⟩
    all_goals
      rw [hport, heq]
      cases ready <;>
        simp only [Bool.false_eq_true, if_false, if_true, State.updPort_port, hfired, hlate, List.drop_succ_cons, List.drop_zero]
  · have heq := State.portCapture_of_reached (period := e.period) (ready := false) hfired hshown hreset hreach hgated hcancel
    simp only [Bool.false_eq_true, if_false] at heq
    rw [if_pos ⟨hlate, hlater⟩] at heq
    exact congrArg (fun t : State => Host.Outcome.next (t.startsWaiting s p)) heq
  · exact congrArg (fun t : State => Host.Outcome.next (t.startsWaiting s p)) (State.cmdTaken_of_shown hfired hshown hcancel)
  · exact congrArg (fun t : State => Host.Outcome.next (t.startsWaiting s p)) (State.cmdTaken_of_none hfired)
  · exact congrArg Host.Outcome.next (State.sliceAbortGo_of_view hgo)
  · exact congrArg Host.Outcome.next (State.sliceAbortGo_of_go hgo hheld)
  · have heq := State.portAcked_of_more habort hmore
    refine ⟨s.portAcked p n, execLpAbortAck_of_asked hport, ?_, (State.portAcked_quiet rfl (.refl s)).apart.gd, ?_, ?_⟩
    · rw [heq, State.updSlice_slice, if_pos rfl, State.updPort_slice, habort, ← hmore]
      rfl
    · rw [heq, State.updSlice_port, State.updPort_port, if_pos rfl]
    · rw [heq, State.updSlice_port, State.updPort_port, if_pos rfl]
  · exact congrArg Host.Outcome.next (State.engAbortLimit_of_due habort hnone hdue)
  · exact congrArg Host.Outcome.next (State.engAbortLimit_of_early habort hearly)

end Sys2Proof.Machine
end

section
/-! The result read port, the acknowledgement of a list header and of a write of the on-die network (R266, R353, R365). -/

namespace Sys2Proof.Machine

open Sys2Proof

section
variable {s : State} {q : ResultRead} {t : Tumbler} {r : Result}

/-- Every byte of a whole result can be read, so part 0 answers the data, R265. -/
theorem Result.portByte_of_whole {b : Nat} (hlen : b < dataLen r.op r.fmt r.lanes) (hwhole : r.whole = true) (slot : Nat) :
    r.portByte t 0 slot b = some (byteAt r.data b) := by
  have hheld : r.holds b 1 = true := by simp only [Result.holds, hwhole, Bool.true_or]
  simp only [Result.portByte, hlen, if_true, hheld]

theorem State.portReply_of_turned (hformed : q.formed = true) (hentry : s.tumb? q.entry = some t) (hslice : t.slice = q.slice)
    (hsgen : (s.slice q.slice).sgen = q.sgen) (hgen : q.gen ≠ t.gen) (hresult : t.result = some r) (hturned : q.gen = r.gen)
    (hpart : q.part = 0) (hlen : q.byte + q.length ≤ dataLen r.op r.fmt r.lanes) (hwhole : r.whole = true) :
    s.portReply q = .data (beNat ((List.range q.length).map fun i => byteAt r.data (q.byte + i)) 0 q.length) := by
  have hbytes : ((List.range q.length).map fun i => r.portByte t q.part q.slot (q.byte + i))
      = (List.range q.length).map fun i => some (byteAt r.data (q.byte + i)) := by
    refine List.map_congr_left fun i hi => ?_
    rw [hpart]
    exact Result.portByte_of_whole (by have := List.mem_range.mp hi; omega) hwhole q.slot
  have hall : ((List.range q.length).map fun i => some (byteAt r.data (q.byte + i))).all Option.isSome = true := by
    simp only [List.all_map, List.all_eq_true, Function.comp_apply, Option.isSome_some, implies_true]
  have hside : ¬ ((q.part = 1 ∨ q.part = 2) ∧ (!t.mask.getLsbD q.slot) = true) := by
    rw [hpart]
    omega
  have hpast : r.gen ≠ t.gen := hturned ▸ hgen
  simp only [State.portReply, hformed, Bool.not_true, Bool.false_eq_true, if_false, hentry, hslice, ne_eq, not_true, hsgen, hpast,
    hresult, hturned]
  rw [if_neg hside, hbytes, if_pos hall, List.map_map]
  rfl

theorem State.portReply_of_foreign (hformed : q.formed = true) (hentry : s.tumb? q.entry = some t) (hslice : t.slice ≠ q.slice) :
    s.portReply q = .error .accessDenied 0 := by
  simp only [State.portReply, hformed, Bool.not_true, Bool.false_eq_true, if_false, hentry, ne_eq, hslice, not_false_iff, if_true]

theorem State.portReply_of_misformed (hformed : q.formed = false) : s.portReply q = .error .none 0 := by
  simp only [State.portReply, hformed, Bool.not_false, if_true]

theorem State.portReply_of_current (hformed : q.formed = true) (hentry : s.tumb? q.entry = some t) (hslice : t.slice = q.slice)
    (hsgen : (s.slice q.slice).sgen = q.sgen) (hgen : q.gen = t.gen) :
    s.portReply q = .stall (0x10000 + s.laneDetail t q) := by
  simp only [State.portReply, hformed, Bool.not_true, Bool.false_eq_true, if_false, hentry, hslice, ne_eq, not_true, hsgen, hgen,
    if_true]

/-- A stalled read that has waited RESULT_WAIT without its lanes answers 0 and an error, R266. -/
theorem State.resultWaitExpiry_of_stalled {since d : Nat} {rest : List (ResultRead × Nat)} (hstalls : s.tsu.stalls = (q, since) :: rest)
    (hdue : since + s.resultWait ≤ s.aon .tsu) (hreply : (s.updTsu fun t => { t with stalls := rest }).portReply q = .stall d) :
    s.resultWaitExpiry = (s.updTsu fun t => { t with stalls := rest }).portAnswer q (.error .resultIncomplete d) := by
  simp only [State.resultWaitExpiry, hstalls, Nat.not_lt.mpr hdue, if_false, hreply]

end

section
variable {s : State} {n id : Nat}

theorem State.headerAck_of_none (harms : s.tsu.arms.filter (fun p => p.2.slice = n && p.2.listWait) = []) :
    s.headerAck n = s.updSlice n fun v => { v with headers := v.headers.drop 1 } := by
  have hnone : s.tsu.arms.filter (fun p => p.2.slice = n && p.2.listWait
      && (s.slice n).headers.head? = some (p.2.domain, p.2.index, p.2.gen)) = [] := by
    refine List.filter_eq_nil_iff.mpr fun p hp hall => List.filter_eq_nil_iff.mp harms p hp ?_
    exact (Bool.and_eq_true_iff.mp hall).1
  exact congrArg (List.foldl _ (s.updSlice n fun v => { v with headers := v.headers.drop 1 })) hnone

/-- The launch that waits for the acknowledged header, in time for T less its lead, is held no longer, R353. -/
theorem State.headerAck_of_inTime {a : Arm} (harms : s.tsu.arms = [(id, a)]) (hslice : a.slice = n) (hwait : a.listWait = true)
    (hhead : (s.slice n).headers.head? = some (a.domain, a.index, a.gen)) (htime : (s.now .tsu).toNs16 ≤ s.onTimeLimit a.t) :
    s.headerAck n = (s.updSlice n fun v => { v with headers := v.headers.drop 1 }).updArm id fun a =>
      { a with listWait := false } := by
  have hone : s.tsu.arms.filter (fun p => p.2.slice = n && p.2.listWait
      && (s.slice n).headers.head? = some (p.2.domain, p.2.index, p.2.gen)) = [(id, a)] := by
    rw [harms]
    exact List.filter_cons_of_pos (by
      simp only [hslice, hwait, hhead, decide_true, Bool.and_self])
  refine (congrArg (List.foldl _ (s.updSlice n fun v => { v with headers := v.headers.drop 1 })) hone).trans ?_
  exact if_neg (Int.not_lt.mpr htime)

end

theorem State.writeAck_of_record {s : State} {e : Bool} {n pasid addr : Nat} {data : List Byte} {rest : List NwWrite}
    (hwrites : s.tsu.nwWrites = ⟨.record n, pasid, addr, data⟩ :: rest) :
    s.writeAck e = ((s.updTsu fun t => { t with nwWrites := rest }).updSlice n fun v =>
      { v with crHead := (v.crHead + 1) % 4294967296, inFlight := v.inFlight - 1 }).ringVector n := by
  simp only [State.writeAck, hwrites]

theorem State.writeAck_of_firmware {s : State} {pasid addr : Nat} {data : List Byte} {rest : List NwWrite}
    (hwrites : s.tsu.nwWrites = ⟨.firmware, pasid, addr, data⟩ :: rest) :
    s.writeAck false = (s.updTsu fun t => { t with nwWrites := rest }).setEvt .tsu 0x7EC 0x20000 := by
  simp only [State.writeAck, hwrites, Bool.false_eq_true, if_false]

theorem execResultRead_of_answered {s : State} {q : ResultRead} {a : PortReply} (hreply : s.portReply q = a)
    (hanswer : ∀ d, a ≠ .stall d) : execResultRead q s = .next (s.portAnswer q a) := by
  subst hreply
  unfold execResultRead
  split
  · exact absurd (by assumption) (hanswer _)
  · rfl

theorem execResultRead_of_stalled {s : State} {q : ResultRead} {d : Nat} (hreply : s.portReply q = .stall d) :
    execResultRead q s = .next
      (if s.tsu.stalls.length < 16 then s.updTsu fun x => { x with stalls := x.stalls ++ [(q, s.aon .tsu)] } else s) := by
  simp only [execResultRead, hreply]

/-- Settles O33: a read by what the port replies to it, an acknowledgement by what was written. -/
theorem resultPortRules : Obligations.ResultPortRules := by
  unfold Obligations.ResultPortRules
  refine ⟨fun q t r s hformed hentry hslice hsgen hgen hresult hturned hpart hlen hwhole => ?_,
    fun q t s hformed hentry hslice => ?_, fun q s hformed => ?_, fun q t s hformed hentry hslice hsgen hgen => ?_,
    fun q since d rest s hstalls hdue hreply => ?_, fun n s harms => ?_,
    fun n id a s harms hslice hwait hhead htime => ?_, fun e n pasid addr data rest s hwrites => ?_,
    fun pasid addr data rest s hwrites => ?_⟩
  · exact execResultRead_of_answered
      (State.portReply_of_turned hformed hentry hslice hsgen hgen hresult hturned hpart hlen hwhole) (by simp)
  · exact execResultRead_of_answered (State.portReply_of_foreign hformed hentry hslice) (by simp)
  · exact execResultRead_of_answered (State.portReply_of_misformed hformed) (by simp)
  · exact execResultRead_of_stalled (State.portReply_of_current hformed hentry hslice hsgen hgen)
  · exact congrArg Host.Outcome.next (State.resultWaitExpiry_of_stalled hstalls hdue hreply)
  · exact congrArg Host.Outcome.next (State.headerAck_of_none harms)
  · exact congrArg Host.Outcome.next (State.headerAck_of_inTime harms hslice hwait hhead htime)
  · exact congrArg Host.Outcome.next (State.writeAck_of_record hwrites)
  · exact congrArg Host.Outcome.next (State.writeAck_of_firmware hwrites)

end Sys2Proof.Machine
end

section
/-! Loading, reading, unloading and switching a schedule image (R306 to R308). -/

namespace Sys2Proof.Machine

open Sys2Proof

section
variable {s : State} {n : Nat}

theorem State.imageLoad_of_idle (hn : n < 64) (hact : (s.slice n).state = .active) (hbusy : (s.slice n).imgBusy = false)
    (hpend : (s.slice n).pending = .none) : s.imageLoad n = (s.updSlice n fun v => { v with imgBusy := true }).nwRead (.image n)
      (s.slice n).pasid ((s.slice n).word 0x144 * 4294967296 + bitsOf ((s.slice n).word 0x140) 31 4 * 16)
      (bitsOf ((s.slice n).word 0x148) 18 0) := by
  rw [State.imageLoad, State.spGuard_of_active hn hact]
  simp only [hbusy, hpend, Bool.false_eq_true, ne_eq, not_true, or_self, if_false]

theorem State.imageLoad_of_pending (hn : n < 64) (hact : (s.slice n).state = .active) (hpend : (s.slice n).pending ≠ .none) :
    s.imageLoad n = s.tsuRefuse (some n) (0x13, 0) := by
  rw [State.imageLoad, State.spGuard_of_active hn hact]
  exact if_pos (.inr hpend)

theorem State.imageUnload_of_active (hn : n < 64) (hact : (s.slice n).state = .active) : s.imageUnload n =
    if (s.slice n).imgBusy then s.tsuRefuse (some n) (0x13, 0) else s.updSlice n fun v => { v with pending := .removal } := by
  rw [State.imageUnload, State.spGuard_of_active hn hact]

/-! ## The answer of the on-die network -/

section
variable {r : NwReadReq} {data : List Byte} {error : Bool}

theorem State.readResponse_of_none (hreads : s.tsu.nwReads = []) : s.readResponse data error = s := by
  simp only [State.readResponse, hreads, List.find?_nil]

variable {pasid addr len : Nat}

theorem State.updTsu_nwReads_nil (hreads : s.tsu.nwReads = [r]) :
    (s.updTsu fun t => { t with nwReads := t.nwReads.erase r }) = s.updTsu fun t => { t with nwReads := [] } := by
  have herase : s.tsu.nwReads.erase r = [] := by rw [hreads, List.erase_cons_head]
  exact congrArg (fun l => s.updTsu fun t => { t with nwReads := l }) herase

theorem State.readResponse_of_image (hreads : s.tsu.nwReads = [⟨.image n, pasid, addr, len⟩]) :
    s.readResponse data error =
      let u := (s.updTsu fun t => { t with nwReads := [] }).updSlice n fun v => { v with imgBusy := false }
      if error then u.tsuRefuse (some n) (0x04, 0) else u.schedLoaded n (padTo len data) len false := by
  simp only [State.readResponse, hreads, List.find?_cons]
  rw [State.updTsu_nwReads_nil hreads]

/-- A read that faults ends a software arrival, R342. -/
theorem State.readResponse_of_arrivalFault (hreads : s.tsu.nwReads = [⟨.arrival n, pasid, addr, len⟩]) :
    s.readResponse data true = ((s.updTsu fun t => { t with nwReads := [] }).updSlice n fun v =>
      { v with arvBusy := false }).spCode n 0x06C .arriveInvalid 1 := by
  simp only [State.readResponse, hreads, List.find?_cons, if_true]
  rw [State.updTsu_nwReads_nil hreads]

end

section
variable {b : List Byte} {received : Nat} {inBand : Bool}

theorem State.schedLoaded_of_ok {m : SchedImage} (hpend : (s.slice n).pending = .none)
    (hcheck : s.schedCheck n b received inBand = .ok m) :
    s.schedLoaded n b received inBand = s.updSlice n fun v => { v with pending := .image m } := by
  simp only [State.schedLoaded, hpend, ne_eq, not_true, if_false, hcheck]

theorem State.schedLoaded_of_error {r : Refused} (hpend : (s.slice n).pending = .none)
    (hcheck : s.schedCheck n b received inBand = .error r) : s.schedLoaded n b received inBand =
      (if badDescriptor b received r then s.logT .combineUnsupported (srcSlice n) 0 (some n) else s).tsuRefuse (some n) r := by
  simp only [State.schedLoaded, hpend, ne_eq, not_true, if_false, hcheck]

end

/-- The end of the read of an image leaves its pending change as it is. -/
theorem State.imageRead_pending : (((s.updTsu fun t => { t with nwReads := [] }).updSlice n fun v =>
    { v with imgBusy := false }).slice n).pending = (s.slice n).pending := by
  rw [State.updSlice_slice, if_pos rfl]
  rfl

/-! ## The switch -/

/-- With no context, tumbler or declaration a switch only names the new image, R308. -/
theorem State.imageSwitch_of_bare {m : SchedImage} (htumb : s.tsu.tumb = []) (hdecl : m.tumblers = [])
    (hstart : m.contexts = []) : s.imageSwitch n (some m) =
      (s.dropContexts n).updSlice n fun v => { v with image := some m, pending := .none } := by
  have hdrop : (s.dropContexts n).tsu.tumb = [] := htumb
  simp only [State.imageSwitch, hdrop, List.filter_nil, List.foldl_nil, hdecl, hstart, List.zipIdx_nil]

theorem State.noneRuns_of_none (hctx : s.tsu.contexts = []) : s.noneRuns n = true := by
  simp only [State.noneRuns, hctx, List.all_nil]

end

/-- Settles O34: an image by what the network answers, the check of its bytes and the contexts that run. -/
theorem scheduleImageRules : Obligations.ScheduleImageRules := by
  unfold Obligations.ScheduleImageRules
  refine ⟨fun n s hn hact hbusy hpend => ?_, fun n s hn hact hpend => ?_, fun n s hn hact hbusy => ?_,
    fun n s hn hact hbusy => ?_, fun n pasid addr len data m s hreads hpend hcheck => ?_,
    fun n pasid addr len data r s u hreads hpend hu hcheck => ?_, fun n pasid addr len data s hreads => ?_,
    fun n pasid addr len data s hreads => ?_, fun data e s hreads => ?_,
    fun n m s hctx htumb hpend hdecl hstart => ?_, fun n s hruns hpend => ?_, fun n s hruns => ?_⟩
  · exact congrArg Host.Outcome.next (State.imageLoad_of_idle hn hact hbusy hpend)
  · exact congrArg Host.Outcome.next (State.imageLoad_of_pending hn hact hpend)
  · refine congrArg Host.Outcome.next ((State.imageUnload_of_active hn hact).trans ?_)
    rw [hbusy]
    rfl
  · refine congrArg Host.Outcome.next ((State.imageUnload_of_active hn hact).trans ?_)
    rw [hbusy]
    rfl
  · refine congrArg Host.Outcome.next ((State.readResponse_of_image hreads).trans ?_)
    exact State.schedLoaded_of_ok (State.imageRead_pending.trans hpend) hcheck
  · subst hu
    refine congrArg Host.Outcome.next ((State.readResponse_of_image hreads).trans ?_)
    exact State.schedLoaded_of_error (State.imageRead_pending.trans hpend) hcheck
  · exact congrArg Host.Outcome.next (State.readResponse_of_image hreads)
  · exact congrArg Host.Outcome.next (State.readResponse_of_arrivalFault hreads)
  · exact congrArg Host.Outcome.next (State.readResponse_of_none hreads)
  · have hexec : exec (.scheduleImageCurrent n) s = .next (s.imageSwitch n (some m)) := by
      simp only [exec, execScheduleImageCurrent, State.noneRuns_of_none hctx, hpend, Bool.not_true, Bool.false_eq_true, if_false]
    refine ⟨_, hexec, ?_, ?_, (State.imageSwitch_quiet rfl (.refl s)).apart.gd⟩ <;>
      rw [State.imageSwitch_of_bare htumb hdecl hstart, State.updSlice_slice, if_pos rfl]
  · simp only [exec, execScheduleImageCurrent, hruns, hpend, Bool.not_true, Bool.false_eq_true, if_false]
  · simp only [exec, execScheduleImageCurrent, hruns, Bool.not_false, if_true]

end Sys2Proof.Machine
end

section
/-! The buffer of tree images, their loading and activation, and the policy sets (R480, R310 to R318, R277). -/

namespace Sys2Proof.Machine

open Sys2Proof

/-- A word put into the image buffer is the one it reads there, R480. -/
theorem bufGet_bufPut (m : Tab Word) (k j : Nat) (w : Word) : bufGet (bufPut m k w) j = if k = j then w else bufGet m j := by
  unfold bufGet bufPut
  split
  case isTrue hzero =>
    rw [Tab.getD, Tab.get_del]
    simp only [eq_comm (a := j)]
    split
    · exact hzero.symm
    · rfl
  case isFalse => exact Tab.getD_put ..

section
variable {s : State} {b : List Byte} {fed : Bool} {r : Refused} {x p : TreeImage}

theorem State.rootLoad_of_root (hroot : s.gd.rootSel = true) : s.rootLoad b = s.treeTake b false := if_pos hroot

theorem State.rootLoad_of_lower (hroot : s.gd.rootSel = false) : s.rootLoad b = s.updCom .gd fun c => c.accessErr 4 0x40C :=
  if_neg (hroot ▸ Bool.false_ne_true)

theorem State.treeTake_of_error (hcheck : treeCheck b b.length s.gd.tree = .error r) : s.treeTake b fed = s.gdRefuse r := by
  simp only [State.treeTake, hcheck]

theorem State.treeTake_of_custody (hcheck : treeCheck b b.length s.gd.tree = .ok x) (hover : s.overHeld x = false)
    (hcustody : s.treeCustody x = true) : s.treeTake b fed = (s.gdRefuse (0x10, 0)).logG .custodyRequired := by
  simp only [State.treeTake, hcheck, hover, hcustody, Bool.false_eq_true, if_false, if_true]

theorem State.treeTake_of_clash (hcheck : treeCheck b b.length s.gd.tree = .ok x) (hover : s.overHeld x = false)
    (hcustody : s.treeCustody x = false) (hpend : s.gd.treePend = some p) (hprev : p.prev ≠ x.prev) :
    s.treeTake b fed = s.gdRefuse (0x13, 0) := by
  have hclash : pendingClash (some p) x = true := decide_eq_true hprev
  simp only [State.treeTake, hcheck, hover, hcustody, hpend, hclash, Bool.false_eq_true, if_false, if_true]

theorem State.activateDue_eq_false {n : Node} (hearly : (s.now n).toNs < x.activateAt.toNs) : s.activateDue n x = false :=
  decide_eq_false (Int.not_le.mpr hearly)

theorem State.pendTree_of_early (hearly : (s.now .gd).toNs < x.activateAt.toNs) :
    s.pendTree .gd x = s.updGd fun g => { g with treePend := some x } := by
  have hdue : (s.updGd fun g => { g with treePend := some x }).activateDue .gd x = false :=
    State.activateDue_eq_false hearly
  simp only [State.pendTree, hdue, Bool.not_false, if_true]

/-- An image that passes waits for its ACTIVATE_AT; a distributor without a role sends it on to nobody, R314. -/
theorem State.treeTake_of_waiting (hcheck : treeCheck b b.length s.gd.tree = .ok x) (hover : s.overHeld x = false)
    (hcustody : s.treeCustody x = false) (hpend : s.gd.treePend = none) (hbad : s.gd.badPorts = []) (htree : s.gd.tree = none)
    (hearly : (s.now .gd).toNs < x.activateAt.toNs) :
    s.treeTake b fed = s.updGd fun g => { g with image := b, leafSent := [], treePend := some x } := by
  have hclash : pendingClash none x = false := rfl
  have hearly' : ((s.updGd fun g => { g with image := b, leafSent := [] }).now .gd).toNs < x.activateAt.toNs := hearly
  have hrole : ((s.updGd fun g => { g with image := b, leafSent := [] }).updGd fun g =>
      { g with treePend := some x }).gd.hasRole = false := by
    have hnone : ((s.gd.tree.map fun t => s.gd.fits t).getD false) = false := by rw [htree]; rfl
    exact (congrArg (s.gd.locator.isSome && ·) hnone).trans (Bool.and_false _)
  simp only [State.treeTake, hcheck, hover, hcustody, hpend, hclash, hbad, List.filter_nil, List.foldl_nil, Bool.false_eq_true,
    if_false, State.pendTree_of_early hearly', hrole, Bool.not_false, if_true]
  rfl

/-- An extract without domains is in force at a TSU without one, R314. -/
theorem State.tsuActivate_of_bare (htree : s.tsu.tree = none) (hleaf : x.leaf = none) (hdoms : x.domains = []) :
    (s.tsuActivate x).tsu.tree = some x ∧ (s.tsuActivate x).tsu.treePend = none ∧ (s.tsuActivate x).tsu.com.treeId = x.id
      ∧ (s.tsuActivate x).tsu.slices = s.tsu.slices := by
  simp only [State.tsuActivate, htree, hleaf, hdoms, Option.map_none, Option.getD_none, List.filter_nil, List.foldl_nil]
  exact ⟨rfl, rfl, rfl, rfl⟩

theorem State.activateDue_eq_true {n : Node} (hdue : x.activateAt.toNs ≤ (s.now n).toNs) : s.activateDue n x = true :=
  decide_eq_true hdue

theorem State.policyDo_of_alloc {f : Nat → Gd → Gd} (halloc : s.gd.hasAlloc = true) :
    s.policyDo f = s.updGd (f (bitsOf (s.reg .gd 0x560) 3 0)) := if_pos halloc

theorem State.policyDo_of_absent {f : Nat → Gd → Gd} (halloc : s.gd.hasAlloc = false) :
    s.policyDo f = s.updCom .gd fun c => c.accessErr 1 0x568 := if_neg (halloc ▸ Bool.false_ne_true)

end

/-- Settles O35: the buffer word by word, an image by its check and its ACTIVATE_AT, a policy by the allocator and its rule. -/
theorem treeImageRules : Obligations.TreeImageRules := by
  unfold Obligations.TreeImageRules
  refine ⟨fun w s hroom => ?_, fun w s hfull => ?_, fun s hroot => ⟨?_, fun d => ?_⟩, fun d r s hroot hcheck => ?_,
    fun r s hroot hcheck => ?_, fun d x s hroot hcheck hover hcustody => ?_,
    fun x p s hroot hcheck hover hcustody hpend hprev => ?_,
    fun d x s hroot hcheck hover hcustody hpend hbad htree hearly => ?_,
    fun x s hroot hcheck hover hcustody hpend hbad htree hearly => ?_, fun x s hpend hearly => ?_,
    fun x s hpend hdue htree hleaf hdoms => ?_, fun x s hpend hdue => ?_, fun s halloc hrule => ?_,
    fun s halloc hrule => ?_, fun s halloc => ?_, fun s halloc => ⟨?_, ?_⟩⟩
  · have hexec : exec (.treeWdataWrite w) s = .next (s.updGd fun g =>
        { g with treeBuf := bufPut g.treeBuf (g.wptr / 4) w, wptr := g.wptr + 4 }) := by
      have hroom' : s.gd.wptr + 4 ≤ treeBufMax := hroom
      simp only [exec, execTreeWdataWrite, State.updGd, hroom', if_true]
    refine ⟨_, hexec, rfl, ?_, fun k hk => ?_, rfl⟩
    · exact (bufGet_bufPut ..).trans (if_pos rfl)
    · exact (bufGet_bufPut ..).trans (if_neg hk.symm)
  · have hfull' : ¬ s.gd.wptr + 4 ≤ treeBufMax := Nat.not_le.mpr hfull
    simp only [exec, execTreeWdataWrite, State.updGd, hfull', if_false]
  · exact congrArg Host.Outcome.next (State.rootLoad_of_lower hroot)
  · exact congrArg Host.Outcome.next (State.rootLoad_of_lower hroot)
  · exact congrArg Host.Outcome.next ((State.rootLoad_of_root hroot).trans (State.treeTake_of_error hcheck))
  · exact congrArg Host.Outcome.next ((State.rootLoad_of_root hroot).trans (State.treeTake_of_error hcheck))
  · exact congrArg Host.Outcome.next ((State.rootLoad_of_root hroot).trans (State.treeTake_of_custody hcheck hover hcustody))
  · exact congrArg Host.Outcome.next
      ((State.rootLoad_of_root hroot).trans (State.treeTake_of_clash hcheck hover hcustody hpend hprev))
  · exact congrArg Host.Outcome.next
      ((State.rootLoad_of_root hroot).trans (State.treeTake_of_waiting hcheck hover hcustody hpend hbad htree hearly))
  · exact congrArg Host.Outcome.next
      ((State.rootLoad_of_root hroot).trans (State.treeTake_of_waiting hcheck hover hcustody hpend hbad htree hearly))
  · simp only [exec, execTreeImageActivate, hpend, State.activateDue_eq_false hearly, Bool.false_eq_true, if_false]
  · have hexec : exec (.treeImageActivate .tsu) s = .next (s.tsuActivate x) := by
      simp only [exec, execTreeImageActivate, hpend, State.activateDue_eq_true hdue, if_true]
    obtain ⟨hnew, hnone, hid, hslices⟩ := State.tsuActivate_of_bare htree hleaf hdoms
    exact ⟨_, hexec, hnew, hnone, hid, hslices, (State.tsuActivate_quiet rfl (.refl s)).apart.gd⟩
  · simp only [exec, execTreeImageActivate, hpend, State.activateDue_eq_true hdue, if_true]
  · refine congrArg Host.Outcome.next ((if_neg fun h => hrule h.2).trans ?_)
    exact State.policyDo_of_alloc halloc
  · exact congrArg Host.Outcome.next (if_pos ⟨halloc, hrule⟩)
  · exact congrArg Host.Outcome.next (State.policyDo_of_alloc halloc)
  · refine congrArg Host.Outcome.next ((if_neg fun h => Bool.false_ne_true (halloc ▸ h.1)).trans ?_)
    exact State.policyDo_of_absent halloc
  · exact congrArg Host.Outcome.next (State.policyDo_of_absent halloc)

end Sys2Proof.Machine
end

section
/-! The step sequencer: which clause it carries out, and the runaway limit (R293 to R303). -/

namespace Sys2Proof.Machine

open Sys2Proof

section
variable {s : State} {c verb : Nat} {x : Ctx} {k : BitVec 128}

theorem State.begun_slice (s : State) (c n : Nat) : (s.begun c).slice n = s.slice n := rfl

theorem State.Issues.verb_eq (h : s.Issues c x k verb) : clauseBits k 127 124 = verb := h.2.2.1

/-- The clause of the chosen context is carried out where nothing stands before it, R301. -/
theorem State.issue_of_issues (h : s.Issues c x k verb) :
    s.issue verb = ((s.begun c).doVerb c x.begun k x.clause).runaway c := by
  obtain ⟨hpick, hclause, hverb, hbreak, hconj⟩ := h
  simp only [State.issue, hpick, hclause, hverb, ne_eq, not_true, if_false, hbreak, Bool.false_eq_true]
  rcases hconj with hlaunch | hnone
  · rw [if_pos hlaunch]
    rfl
  · have hnone' : ((s.begun c).slice x.slice).conjOf x.sentence k = none := hnone
    split
    · rfl
    · exact congrArg (fun t : State => t.runaway c) (by erw [hnone']; rfl)

theorem State.issue_of_idle (hpick : s.pickCtx = none) : s.issue verb = s := by
  simp only [State.issue, hpick]

theorem State.issue_of_otherVerb (hpick : s.pickCtx = some (c, x)) (hclause : (s.slice x.slice).clause x.sentence x.clause = some k)
    (hverb : clauseBits k 127 124 ≠ verb) : s.issue verb = s := by
  simp only [State.issue, hpick, hclause, ne_eq, hverb, not_false_iff, if_true]

theorem State.issue_of_break (hpick : s.pickCtx = some (c, x)) (hclause : (s.slice x.slice).clause x.sentence x.clause = some k)
    (hverb : clauseBits k 127 124 = verb) (hbreak : s.breakHit c x = true) :
    s.issue verb = (s.setEvt .tsu 0x888 0x40000000).ctxHalt c .none := by
  simp only [State.issue, hpick, hclause, hverb, ne_eq, not_true, if_false, hbreak, if_true]

theorem State.runaway_of_reached (hctx : Tab.get s.tsu.contexts c = some x) (hready : x.state = .ready)
    (hrun : orOne (bitsOf (s.reg .tsu 0x600) 15 0) ≤ x.run) : s.runaway c =
      (s.logT .clauseRunaway (srcCtx x.record) x.clause (some x.slice)).ctxHalt c .clauseRunaway := by
  simp only [State.runaway, hctx, hrun, hready, and_self, if_true]

theorem State.runaway_of_below (hctx : Tab.get s.tsu.contexts c = some x)
    (hrun : x.run < orOne (bitsOf (s.reg .tsu 0x600) 15 0)) : s.runaway c = s := by
  simp only [State.runaway, hctx, Nat.not_le.mpr hrun, false_and, if_false]

/-- What is carried out when a clause issues, from what its verb does. -/
theorem State.issue_of_verb {t : State} (h : s.Issues c x k verb) (hdo : (s.begun c).doVerb c x.begun k x.clause = t) :
    s.issue verb = t.runaway c := by
  rw [State.issue_of_issues h, hdo]

end

/-- Settles O36: every clause command is the one issue of the sequencer, and the verb of the clause chooses the operation. -/
theorem sequencerIssueRules : Obligations.SequencerIssueRules := by
  unfold Obligations.SequencerIssueRules
  refine ⟨fun c x k s => ⟨?_, ?_, ?_, ?_, ?_, ?_, ?_, ?_, ?_, ?_, ?_⟩, fun s hpick => ⟨?_, ?_, ?_, ?_, ?_⟩,
    fun c x k s hpick hclause hverb => ?_, fun c x k s hpick hclause hverb hbreak => ?_,
    fun c x s hctx hready hrun => ?_, fun c x s hctx hrun => ?_⟩
  case refine_1 | refine_2 | refine_3 | refine_4 | refine_5 | refine_6 | refine_7 | refine_8 | refine_9 | refine_10 | refine_11 =>
    exact fun h => congrArg Host.Outcome.next (State.issue_of_verb h (by simp only [State.doVerb, h.verb_eq]))
  case refine_12 | refine_13 | refine_14 | refine_15 | refine_16 => exact congrArg Host.Outcome.next (State.issue_of_idle hpick)
  · exact congrArg Host.Outcome.next (State.issue_of_otherVerb hpick hclause hverb)
  · exact congrArg Host.Outcome.next (State.issue_of_break hpick hclause hverb hbreak)
  · exact congrArg Host.Outcome.next (State.runaway_of_reached hctx hready hrun)
  · exact congrArg Host.Outcome.next (State.runaway_of_below hctx hrun)

end Sys2Proof.Machine
end

section
/-! The effect of a clause: END, BRANCH, YIELD, ABORT, WAIT and LAUNCH (R293 to R305, R226). -/

namespace Sys2Proof.Machine

open Sys2Proof

section
variable {s : State} {c : Nat} {x : Ctx} {k : BitVec 128}

theorem State.updCtx_get (s : State) (c : Nat) (f : Ctx → Ctx) :
    Tab.get (s.updCtx c f).tsu.contexts c = (Tab.get s.tsu.contexts c).map f := by
  refine (Tab.get_map s.tsu.contexts (fun k v => if k = c then f v else v) c).trans ?_
  simp only [if_true]

/-! ## END and BRANCH -/

theorem State.endClause_of_end (hnext : clauseBits k 95 88 = 0xFF) : s.endClause c k = s.ctxStop c := if_pos hnext

theorem State.endClause_of_sentence (hnext : clauseBits k 95 88 ≠ 0xFF) :
    s.endClause c k = s.ctxStart c (clauseBits k 95 88) := if_neg hnext

/-- The entry of a context that starts a sentence, R293. -/
theorem State.ctxStart_get {i : Nat} {y : Sentence} (hctx : Tab.get s.tsu.contexts c = some x)
    (hsen : (s.slice x.slice).sentence i = some y) : Tab.get (s.ctxStart c i).tsu.contexts c = some { x with
      state := .ready, sentence := i, clause := 0, loop1 := 0, loop2 := 0, loop3 := 0,
      dCtx := Time80.ofUnits ((s.now .tsu).toUnits + s.horizon y.dclass * 4294967296), missed := false, block := .none,
      topnd := none, altClause := none, run := if x.state = .ready then x.run else 0, yielded := false, stageNoted := false,
      farRefused := false } := by
  simp only [State.ctxStart, hctx, hsen, State.updCtx_get, Option.map_some, Option.getD_some]

theorem State.branch_of_plain (hctr : clauseBits k 87 86 = 0) : s.branch c x k = s.ctxGoto c (clauseBits k 95 88) := by
  simp only [State.branch, hctr, if_true]

theorem State.branch_of_last (hctr : clauseBits k 87 86 = 1) (hloop : x.loop1 = 1) :
    s.branch c x k = (s.updCtx c fun x => { x with loop1 := 0 }).ctxNext c := by
  simp only [State.branch, hctr, Ctx.loop, hloop, Nat.one_ne_zero, if_false, Nat.sub_self, ne_eq, not_true]
  rfl

theorem State.branch_of_fresh (hctr : clauseBits k 87 86 = 1) (hloop : x.loop1 = 0) (hcount : 1 < clauseBits k 85 70) :
    s.branch c x k = (s.updCtx c fun x => { x with loop1 := clauseBits k 85 70 - 1 }).ctxGoto c (clauseBits k 95 88) := by
  have hone : orOne (clauseBits k 85 70) = clauseBits k 85 70 := if_neg (by omega)
  have hleft : clauseBits k 85 70 - 1 ≠ 0 := by omega
  simp only [State.branch, hctr, Ctx.loop, hloop, Nat.one_ne_zero, if_false, if_true, hone, ne_eq, hleft, not_false_iff]
  rfl

theorem State.ctxGoto_of_past {i : Nat} {y : Sentence} (hctx : Tab.get s.tsu.contexts c = some x)
    (hsen : (s.slice x.slice).sentence x.sentence = some y) (hpast : y.ccnt ≤ i) :
    s.ctxGoto c i = (s.logT .clauseFault (srcCtx x.record) 1 (some x.slice)).ctxStop c := by
  simp only [State.ctxGoto, hctx, hsen, Option.map_some, Option.getD_some, hpast, if_true]

/-- The entry of a context that goes to a clause of its sentence. -/
theorem State.ctxGoto_get {i : Nat} {y : Sentence} (hctx : Tab.get s.tsu.contexts c = some x)
    (hsen : (s.slice x.slice).sentence x.sentence = some y) (hin : i < y.ccnt) (hrun : x.state ≠ .halted) :
    Tab.get (s.ctxGoto c i).tsu.contexts c = some { x with
      clause := i, block := .none, topnd := none, altClause := none, stageNoted := false, state := .ready } := by
  simp only [State.ctxGoto, hctx, hsen, Option.map_some, Option.getD_some, Nat.not_le.mpr hin, if_false, State.updCtx_get, hrun]

/-! ## YIELD, ABORT and WAIT -/

theorem State.issueYield_of_behind (hkind : clauseBits k 95 94 = 0) :
    s.issueYield c x k = (s.ctxNext c).updCtx c fun x => { x with yielded := true } := by
  simp only [State.issueYield, hkind]

theorem State.issueYield_of_park (hkind : clauseBits k 95 94 = 2) :
    s.issueYield c x k = s.updCtx c fun x => { x with state := .parked, run := 0 } := by
  simp only [State.issueYield, hkind]

theorem State.issueAbort_of_own (hown : clauseBits k 95 95 = 0) : s.issueAbort c x k =
    s.order x.slice { verb := 1, ctx := some 0, sentence := 0, rank := 1, src := srcCtx x.record, seq := 0 } := by
  simp only [State.issueAbort, hown, true_or, if_true]

theorem State.topnd_of_none {w : Nat} (hkind : w / 17179869184 = 0) : s.topnd x w = (s, none, false) := by
  have hdiv : w >>> 34 = 0 := (Nat.shiftRight_eq_div_pow w 34).trans hkind
  have hbits : bitsOf w 35 34 = 0 := congrArg (· % 2 ^ (35 + 1 - 34)) hdiv
  simp only [State.topnd, hbits]

variable {e : Nat} {t : Tumbler}

/-- A WAIT for the generation that is current blocks until its turn, R304. -/
theorem State.issueWait_of_current (htumb : s.clauseTumb x k = some e) (hheld : s.tumb? e = some t)
    (hgen : clauseBits k 95 94 = 0) (htop : clauseBits k 93 58 / 17179869184 = 0) : s.issueWait c x k =
      (s.ctxBlock c (.turn e t.gen (clauseBits k 57 46) x.lastSlot) none).boost x.slice e x.dCtx := by
  simp only [State.issueWait, htumb, Option.bind_some, hheld, Option.map_some, State.wgen, hgen, gen_succ_ne, gen_ne_two_after,
    if_false, State.topnd_of_none htop, Bool.false_eq_true]

theorem State.issueWait_of_turned (htumb : s.clauseTumb x k = some e) (hheld : s.tumb? e = some t)
    (hgen : clauseBits k 95 94 = 2) (hlast : x.lastArv = some (e, t.gen - 1)) :
    s.issueWait c x k = s.ctxResult c e (clauseBits k 57 46) x.lastSlot := by
  simp only [State.issueWait, htumb, Option.bind_some, hheld, Option.map_some, State.wgen, hgen, hlast, if_true,
    BitVec.sub_add_cancel]

theorem State.issueWait_of_unknown (htumb : s.clauseTumb x k = none) : s.issueWait c x k =
    ((s.logT .noTumbler (srcCtx x.record) 0 (some x.slice)).writeRecord
      { (s.logT .noTumbler (srcCtx x.record) 0 (some x.slice)).blankRec 3 x.slice with
          code := ErrCode.noTumbler.value, source := srcCtx x.record, index := clauseBits k 107 96 }).ctxNext c := by
  simp only [State.issueWait, htumb, Option.bind_none]

/-! ## LAUNCH -/

variable {i p r slot id : Nat}

theorem State.stageLaunch_of_unknown
    (hname : s.findTumb x.slice ((s.slice x.slice).imgTag (clauseBits k 108 108 = 1)) (clauseBits k 107 96) = none) :
    s.stageLaunch c x k i = s.launchRefused c x (clauseBits k 107 96) .noTumbler := by
  simp only [State.stageLaunch, hname, Option.bind_none]

theorem State.stageLaunch_of_foreignPort
    (hname : s.findTumb x.slice ((s.slice x.slice).imgTag (clauseBits k 108 108 = 1)) (clauseBits k 107 96) = some e)
    (hheld : s.tumb? e = some t) (hset : p ∈ (s.slice x.slice).portSet k) (hmask : p ∉ (s.slice x.slice).ports) :
    s.stageLaunch c x k i = s.launchRefused c x (clauseBits k 107 96) .noPort := by
  have hbad : ∀ l : List Nat, (((s.slice x.slice).portSet k ++ l).any fun p =>
      !s.isPort p || !(s.slice x.slice).ports.contains p) = true := fun l =>
    List.any_eq_true.mpr ⟨p, List.mem_append_left l hset, by simp [hmask]⟩
  simp only [State.stageLaunch, hname, Option.bind_some, hheld, Option.map_some, hbad, if_true]

theorem State.portRegions_nil (s : State) : s.portRegions [] = [] := by
  exact List.filter_eq_nil_iff.mpr fun _ _ => Bool.false_ne_true

/-- A LAUNCH that finds room at its one port, a slot and a launch entry is staged and waits for its turn, R226. -/
theorem State.stageLaunch_of_room
    (hname : s.findTumb x.slice ((s.slice x.slice).imgTag (clauseBits k 108 108 = 1)) (clauseBits k 107 96) = some e)
    (hheld : s.tumb? e = some t) (halt : clauseBits k 123 123 = 0) (hset : (s.slice x.slice).portSet k = [p])
    (hmask : p ∈ (s.slice x.slice).ports) (hport : s.isPort p = true) (hgen : clauseBits k 33 32 = 0)
    (hroom : (s.port p).staging.length < 4) (hslots : s.pickSlots (s.portRegions [p]) [] = some [(r, slot)])
    (hid : Tab.freeKey s.tsu.launches 4096 = some id) : s.stageLaunch c x k i =
      (((((s.stageClause id false x k [p] [(r, slot)]).updTsu fun y => { y with
        launches := Tab.put y.launches id ⟨x.slice, (s.slice x.slice).sgen, c, x.record, e, t.gen, x.sentence,
          ⟨i, [p], [(r, slot)], clauseBits k 75 75 = 1⟩, none, s.tsu.order, false⟩ }).startsWaiting s p).ctxBlock c
            (.launch id) none).boost x.slice e x.dCtx) := by
  have hmine : (s.slice x.slice).ports.contains p = true := List.contains_iff_mem.mpr hmask
  have hnone : s.pickSlots [] [(r, slot)] = some [] := rfl
  have hone : b2n ([p].contains p) + b2n (([] : List Nat).contains p) = 1 := by simp [b2n]
  have hfit : decide ((s.port p).staging.length + (b2n ([p].contains p) + b2n (([] : List Nat).contains p)) ≤ 4) = true :=
    decide_eq_true (by omega)
  have hwith : ¬ (clauseBits k 123 123 = 1 ∧ clauseBits k 116 109 ≠ i) := by omega
  simp only [State.stageLaunch, hname, Option.bind_some, hheld, Option.map_some, hset, hwith, if_false, Option.filter_none,
    Option.map_none, Option.getD_none, List.append_nil, List.any_cons, List.any_nil, hport, hmine, Bool.not_true, Bool.or_self,
    Bool.false_eq_true, State.wgen, hgen, gen_ne_two_after, List.all_cons, List.all_nil, hfit, Bool.and_self, hslots,
    State.portRegions_nil, hnone, hid, List.foldl_cons, List.foldl_nil, gen_succ_ne]

end

/-- Settles O37: each clause by the field that chooses its form. -/
theorem clauseEffectRules : Obligations.ClauseEffectRules := by
  unfold Obligations.ClauseEffectRules
  refine ⟨fun c k s hnext => State.endClause_of_end hnext, fun c x y k s hnext hctx hsen => ?_,
    fun c x k s hctr => State.branch_of_plain hctr, fun c x k s hctr hloop => State.branch_of_last hctr hloop,
    fun c x k s hctr hloop hcount => State.branch_of_fresh hctr hloop hcount,
    fun c i x y s hctx hsen hpast => State.ctxGoto_of_past hctx hsen hpast,
    fun c i x y s hctx hsen hin hrun => ⟨_, State.ctxGoto_get hctx hsen hin hrun, rfl, rfl, rfl, rfl, rfl⟩,
    fun c x k s hkind => State.issueYield_of_behind hkind, fun c x k s hkind => State.issueYield_of_park hkind,
    fun c x k s hown => State.issueAbort_of_own hown,
    fun c e t x k s htumb hheld hgen htop => State.issueWait_of_current htumb hheld hgen htop,
    fun c e t x k s htumb hheld hgen hlast => State.issueWait_of_turned htumb hheld hgen hlast,
    fun c x k s htumb => State.issueWait_of_unknown htumb, fun c i x k s hname => State.stageLaunch_of_unknown hname,
    fun c i e p t x k s hname hheld hset hmask => State.stageLaunch_of_foreignPort hname hheld hset hmask,
    fun c i e p r slot id t x k s hname hheld halt hset hmask hport hgen hroom hslots hid =>
      State.stageLaunch_of_room hname hheld halt hset hmask hport hgen hroom hslots hid⟩
  rw [State.endClause_of_sentence hnext]
  exact ⟨_, State.ctxStart_get hctx hsen, rfl, rfl, rfl, rfl, rfl, rfl, rfl⟩

end Sys2Proof.Machine
end

section
/-! Stalls, deadlines, sleeps and swaps of contexts (R226, R337 to R346, R367). -/

namespace Sys2Proof.Machine

open Sys2Proof

/-! ## Stalls and shared stores -/

section
variable {s : State} {n c tries : Nat} {o : SeqOrder}

theorem State.restage_of_staging {x : Ctx} {k : BitVec 128} (hctx : Tab.get s.tsu.contexts c = some x)
    (hblock : x.block = .staging) (hmain : x.altClause = none)
    (hclause : (s.slice x.slice).clause x.sentence x.clause = some k) : s.restage c = s.stageLaunch c x k x.clause := by
  simp only [State.restage, hctx, hblock, ne_eq, not_true, if_false, hmain, Option.getD_none, hclause]

theorem State.restage_of_other {x : Ctx} (hctx : Tab.get s.tsu.contexts c = some x) (hblock : x.block ≠ .staging) :
    s.restage c = s := by
  simp only [State.restage, hctx, ne_eq, hblock, not_false_iff, if_true]

/-- Of the numbers below `n`, one alone gives the element. -/
theorem flatMap_range_single {α : Type} (x : α) {i n : Nat} (hi : i < n) :
    ((List.range n).flatMap fun k => if k = i then [x] else []) = [x] := by
  induction n with
  | zero => exact absurd hi (Nat.not_lt_zero i)
  | succ n ih =>
    rw [List.range_succ, List.flatMap_append, List.flatMap_singleton]
    by_cases hlast : n = i
    · subst hlast
      have hnone : ((List.range n).flatMap fun k => if k = n then [x] else []) = [] :=
        List.flatMap_eq_nil_iff.mpr fun k hk => if_neg (Nat.ne_of_lt (List.mem_range.mp hk))
      rw [hnone, if_pos rfl, List.nil_append]
    · rw [ih (by omega), if_neg hlast, List.append_nil]

/-- One request stands in the order of grants once, wherever the round begins. -/
theorem grantOrder_singleton (ptr : Nat) {g : GrantReq} (hslice : g.slice < 64) : grantOrder ptr [g] = [g] := by
  have hturn : ∀ k ∈ List.range 64, [g].filter (fun g => g.slice = (ptr + k) % 64)
      = if k = (g.slice + 64 - ptr % 64) % 64 then [g] else [] := by
    intro k hk
    have hk := List.mem_range.mp hk
    have hiff : g.slice = (ptr + k) % 64 ↔ k = (g.slice + 64 - ptr % 64) % 64 := by omega
    simp only [List.filter_cons, List.filter_nil, decide_eq_true_eq, hiff]
  rw [grantOrder, List.flatMap_def, List.map_congr_left hturn, ← List.flatMap_def]
  exact flatMap_range_single g (Nat.mod_lt _ (by decide))

/-- A retry for the store of sequence orders that has one request, R367. -/
theorem State.grantRetry_of_one (hgrants : s.tsu.grants = [⟨3, n, c, tries, some o⟩]) (hn : n < 64) :
    s.grantRetry 3 =
      let u := s.updTsu fun t => { t with grants := [] }
      if 64 ≤ s.tsu.orders.length then
        if 8 ≤ tries + 1 then u.grantFail ⟨3, n, c, tries, some o⟩
        else u.updTsu fun t => { t with grants := [⟨3, n, c, tries + 1, some o⟩] }
      else u.updTsu fun t => { t with orders := insertOrder o t.orders, grantPtr := Tab.put t.grantPtr 3 ((n + 1) % 64) } := by
  have hmine : s.tsu.grants.filter (fun g => g.resource = 3) = [⟨3, n, c, tries, some o⟩] := by rw [hgrants]; rfl
  have hrest : (s.updTsu fun t => { t with grants := t.grants.filter fun g => g.resource ≠ 3 })
      = s.updTsu fun t => { t with grants := [] } := by
    have hnil : s.tsu.grants.filter (fun g => g.resource ≠ 3) = [] := by rw [hgrants]; rfl
    exact congrArg (fun l => s.updTsu fun t => { t with grants := l }) hnil
  rw [State.grantRetry, hmine, grantOrder_singleton _ hn, hrest, List.foldl_cons, List.foldl_nil]
  simp only [State.grantTry]
  by_cases hfull : 64 ≤ s.tsu.orders.length
  · have hfull' : 64 ≤ (s.updTsu fun t => { t with grants := [] }).tsu.orders.length := hfull
    simp only [hfull, hfull', if_true, Bool.false_eq_true, if_false]
    rfl
  · have hfull' : ¬ 64 ≤ (s.updTsu fun t => { t with grants := [] }).tsu.orders.length := hfull
    simp only [hfull, hfull', if_true, if_false]
    rfl

end

/-! ## Deadlines, waits and sleeps -/

section
variable {s : State} {c e sl d : Nat} {g : BitVec 2} {x : Ctx} {t : Time80}

/-- A radio context that waits for a turn past its D_ctx is recorded once, R338. -/
theorem State.deadlineMiss_of_radio {y : Sentence} (hctx : Tab.get s.tsu.contexts c = some x) (hblock : x.block = .turn e g d sl)
    (hstate : x.state = .blocked) (hmissed : x.missed = false) (hsen : (s.slice x.slice).sentence x.sentence = some y)
    (hclass : y.dclass = 0) (hdue : x.dCtx.toNs16 ≤ (s.now .tsu).toNs16) : s.deadlineMiss c =
      (s.updCtx c fun x => { x with missed := true }).missRecord x.slice (srcCtx x.record) .radioMiss := by
  simp only [State.deadlineMiss, hctx, hmissed, hstate, hblock, hsen, Option.map_some, Option.getD_some, hclass, Bool.false_eq_true,
    ne_eq, not_true, Bool.not_true, Int.not_lt.mpr hdue, if_true]
  rfl

theorem State.deadlineMiss_of_missed (hctx : Tab.get s.tsu.contexts c = some x) (hmissed : x.missed = true) :
    s.deadlineMiss c = s := by
  simp only [State.deadlineMiss, hctx]
  exact if_pos (.inl hmissed)

theorem State.clauseTimeout_of_due (hctx : Tab.get s.tsu.contexts c = some x) (hblock : x.block = .turn e g d sl)
    (hstate : x.state = .blocked) (htop : x.topnd = some t) (hdue : t.toNs16 ≤ (s.now .tsu).toNs16) :
    s.clauseTimeout c = s.ctxWaitEnds c e g .waitTimeout := by
  simp only [State.clauseTimeout, hctx, hblock, htop, hstate, ne_eq, not_true, Int.not_lt.mpr hdue, or_self, if_false]

theorem State.clauseTimeout_of_early (hctx : Tab.get s.tsu.contexts c = some x) (htop : x.topnd = some t)
    (hearly : (s.now .tsu).toNs16 < t.toNs16) : s.clauseTimeout c = s := by
  simp only [State.clauseTimeout, hctx, htop]
  split
  case h_1 _ u _ hu => exact if_pos (.inl (Option.some.inj hu ▸ hearly))
  case h_2 _ u _ hu => exact if_pos (.inl (Option.some.inj hu ▸ hearly))
  case h_3 => rfl

theorem State.sleepEnd_of_early (hctx : Tab.get s.tsu.contexts c = some x) (htop : x.topnd = some t)
    (hearly : (s.now .tsu).toNs16 < t.toNs16) : s.sleepEnd c = s := by
  simp only [State.sleepEnd, hctx, htop]
  exact if_neg fun h => Int.not_le.mpr hearly h.2

theorem State.sleepEnd_of_due (hctx : Tab.get s.tsu.contexts c = some x) (htop : x.topnd = some t) (hstate : x.state = .sleeping)
    (hdue : t.toNs16 ≤ (s.now .tsu).toNs16) : s.sleepEnd c = s.ctxGoto c (x.clause + 1) := by
  simp only [State.sleepEnd, hctx, htop, hstate, hdue, and_self, if_true, State.ctxNext]

end

/-! ## Swaps -/

section
variable {s : State} {c ns : Nat} {x : Ctx} {w : Swap}

/-- The one ready context without a resident slot takes slot 0, which is free, R343. -/
theorem State.contextSwap_of_one (hswap : s.tsu.swap = none) (hctxs : s.tsu.contexts = [(c, x)]) (hstate : x.state = .ready)
    (hout : x.resident = none) (hmax : 0 < (s.slice x.slice).resMax) : s.contextSwap =
      (s.updTsu fun t => { t with swap := some ⟨c, none, 0⟩ }).nwRead (.swapIn c) (s.slice x.slice).pasid (s.saveAddr x.slice c) 256 := by
  have hready : s.tsu.contexts.filter (fun p => p.2.state = .ready && p.2.resident.isNone) = [(c, x)] := by
    rw [hctxs]
    exact List.filter_cons_of_pos (by simp only [hstate, hout, decide_true, Option.isNone_none, Bool.and_self])
  have hres : ∀ m, s.residents m = [] := by
    intro m
    rw [State.residents, hctxs]
    exact List.filter_cons_of_neg (by simp only [hout, Option.isSome_none, Bool.false_and, Bool.false_eq_true, not_false_iff])
  have hfree : ((List.range 32).find? fun k => !(([] : List (Nat × Ctx)).any fun p => p.2.resident = some k)) = some 0 := rfl
  have hroom : (decide ((s.slice x.slice).resMax ≤ ([] : List (Nat × Ctx)).length)) = false :=
    decide_eq_false (Nat.not_le.mpr hmax)
  simp only [State.contextSwap, hswap, Option.isSome_none, Bool.false_eq_true, if_false, hready, List.foldl_cons, List.foldl_nil,
    hres, hfree, hroom, Bool.not_false, if_true, Option.bind_none]
  rfl

theorem State.contextSwap_of_running (hswap : s.tsu.swap = some w) : s.contextSwap = s := by
  simp only [State.contextSwap, hswap, Option.isSome_some, if_true]

theorem State.swapDone_of_ok (hswap : s.tsu.swap = some w) : s.swapDone true ns = (s.updTsu fun t => { t with
    swap := none, evictions := min (t.evictions + 1) 0xFFFF, swapLast := min ns 0xFFFF, swapMax := max t.swapMax (min ns 0xFFFF),
    nwReads := t.nwReads.filter fun r => r.kind ≠ .swapIn w.incoming }).updCtx w.incoming fun x =>
      { x with resident := some w.slot } := by
  simp only [State.swapDone, hswap, if_true]

theorem State.swapDone_of_fault (hswap : s.tsu.swap = some w) (hctx : Tab.get s.tsu.contexts w.incoming = some x) :
    s.swapDone false ns = ((s.updTsu fun t => { t with
      swap := none, evictions := min (t.evictions + 1) 0xFFFF, swapLast := min ns 0xFFFF, swapMax := max t.swapMax (min ns 0xFFFF),
      nwReads := t.nwReads.filter fun r => r.kind ≠ .swapIn w.incoming }).logT .swapFault (srcCtx x.record) 0
        (some x.slice)).ctxHalt w.incoming .swapFault := by
  have hctx' : Tab.get (s.updTsu fun t => { t with
      swap := none, evictions := min (t.evictions + 1) 0xFFFF, swapLast := min ns 0xFFFF, swapMax := max t.swapMax (min ns 0xFFFF),
      nwReads := t.nwReads.filter fun r => r.kind ≠ .swapIn w.incoming }).tsu.contexts w.incoming = some x := hctx
  simp only [State.swapDone, hswap, Bool.false_eq_true, if_false, hctx', Option.map_some, Option.getD_some]

theorem State.swapDone_of_none {ok : Bool} (hswap : s.tsu.swap = none) : s.swapDone ok ns = s := by
  simp only [State.swapDone, hswap]

end

/-- Settles O38: a context by its block, its state and the times of its entry. -/
theorem contextRules : Obligations.ContextRules := by
  unfold Obligations.ContextRules
  refine ⟨fun c x k s hctx hblock hmain hclause => ?_, fun c x s hctx hblock => ?_, fun n c tries o s hgrants hn hroom => ?_,
    fun n c tries o s hgrants hn hfull htries => ?_, fun n c o s hgrants hn hfull => ?_,
    fun c e sl d g x y s hctx hblock hstate hmissed hsen hclass hdue => ?_, fun c x s hctx hmissed => ?_,
    fun c e sl d g t x s hctx hblock hstate htop hdue => ?_, fun c t x s hctx htop hearly => ⟨?_, ?_⟩,
    fun c t x s hctx htop hstate hdue => ?_, fun c x s hswap hctxs hstate hout hmax => ?_, fun w s hswap => ?_,
    fun w ns s hswap => ?_, fun w ns x s hswap hctx => ?_, fun ns s hswap => ⟨?_, ?_⟩⟩
  · exact congrArg Host.Outcome.next (State.restage_of_staging hctx hblock hmain hclause)
  · exact congrArg Host.Outcome.next (State.restage_of_other hctx hblock)
  · refine congrArg Host.Outcome.next ((State.grantRetry_of_one hgrants hn).trans ?_)
    exact if_neg (Nat.not_le.mpr hroom)
  · refine congrArg Host.Outcome.next ((State.grantRetry_of_one hgrants hn).trans ?_)
    exact (if_pos hfull).trans (if_neg (by omega))
  · refine congrArg Host.Outcome.next ((State.grantRetry_of_one hgrants hn).trans ?_)
    exact (if_pos hfull).trans (if_pos (by omega))
  · exact congrArg Host.Outcome.next (State.deadlineMiss_of_radio hctx hblock hstate hmissed hsen hclass hdue)
  · exact congrArg Host.Outcome.next (State.deadlineMiss_of_missed hctx hmissed)
  · exact congrArg Host.Outcome.next (State.clauseTimeout_of_due hctx hblock hstate htop hdue)
  · exact congrArg Host.Outcome.next (State.clauseTimeout_of_early hctx htop hearly)
  · exact congrArg Host.Outcome.next (State.sleepEnd_of_early hctx htop hearly)
  · exact congrArg Host.Outcome.next (State.sleepEnd_of_due hctx htop hstate hdue)
  · exact congrArg Host.Outcome.next (State.contextSwap_of_one hswap hctxs hstate hout hmax)
  · exact congrArg Host.Outcome.next (State.contextSwap_of_running hswap)
  · have heq := State.swapDone_of_ok (ns := ns) hswap
    refine ⟨_, congrArg Host.Outcome.next heq, rfl, rfl, rfl, ?_, rfl⟩
    rw [State.updCtx_get, Option.map_map]
    rfl
  · exact congrArg Host.Outcome.next (State.swapDone_of_fault hswap hctx)
  · exact congrArg Host.Outcome.next (State.swapDone_of_none hswap)
  · exact congrArg Host.Outcome.next (State.swapDone_of_none hswap)

end Sys2Proof.Machine
end

section
/-! The radio frame offset and the slot calendar (R327 to R341). -/

namespace Sys2Proof.Machine

open Sys2Proof

/-! ## The frame offset -/

section
variable {s : State} {n : Node} {w : Word} {ns fr : Nat} {at0 : Time80}

theorem State.setReg_node_reg (s : State) (n : Node) (off k : Nat) (w : Word) :
    (s.setReg n off w).reg n k = if off = k then w.toNat else s.reg n k := by
  cases n <;> simp only [State.setReg, State.reg, State.com, State.updCom, Common.reg, Tab.getD_put] <;> split <;> rfl

theorem bitsOf_eq_div_mod (v hi lo : Nat) : bitsOf v hi lo = v / 2 ^ lo % 2 ^ (hi + 1 - lo) :=
  congrArg (· % 2 ^ (hi + 1 - lo)) (Nat.shiftRight_eq_div_pow v lo)

theorem bitsOf_from_zero (v hi : Nat) : bitsOf v hi 0 = v % 2 ^ (hi + 1) := by
  rw [bitsOf, Nat.shiftRight_zero, Nat.sub_zero]

theorem toNat_and_offset_mod (w : Word) : (w &&& 0xFFFFFF#32).toNat % 16777216 = w.toNat % 16777216 := by
  rw [BitVec.toNat_and, show (0xFFFFFF#32 : Word).toNat = 2 ^ 24 - 1 from rfl, Nat.and_two_pow_sub_one_eq_mod, Nat.mod_mod]

theorem toNat_and_frames_mod (w : Word) : (w &&& 0x3FF#32).toNat % 1024 = w.toNat % 1024 := by
  rw [BitVec.toNat_and, show (0x3FF#32 : Word).toNat = 2 ^ 10 - 1 from rfl, Nat.and_two_pow_sub_one_eq_mod, Nat.mod_mod]

/-- RF_OFFSET and RF_FRAMES written at a TSU wait together for their second boundary, R327. -/
theorem State.rfOffsetWrite_tsu (s : State) (w : Word) : s.rfOffsetWrite .tsu false w =
    (s.setReg .tsu 0x640 (w &&& 0xFFFFFF#32)).updCom .tsu fun c =>
      { c with rfPend := some (min 9999999 (w.toNat % 16777216), s.reg .tsu 0x644 % 1024, s.now .tsu) } := by
  have hoff : (s.setReg .tsu 0x640 (w &&& 0xFFFFFF#32)).reg .tsu 0x640 = (w &&& 0xFFFFFF#32).toNat :=
    (State.setReg_node_reg ..).trans (if_pos rfl)
  have hfr : (s.setReg .tsu 0x640 (w &&& 0xFFFFFF#32)).reg .tsu 0x644 = s.reg .tsu 0x644 :=
    (State.setReg_node_reg ..).trans (if_neg (by decide))
  simp only [State.rfOffsetWrite, reduceCtorEq, false_and, if_false, Bool.false_eq_true, Nat.add_zero, Nat.sub_zero, Nat.reduceAdd,
    hoff, hfr, toNat_and_offset_mod, bitsOf_from_zero, Nat.reducePow]
  rfl

theorem State.rfOffsetWrite_tsu_frames (s : State) (w : Word) : s.rfOffsetWrite .tsu true w =
    (s.setReg .tsu 0x644 (w &&& 0x3FF#32)).updCom .tsu fun c =>
      { c with rfPend := some (min 9999999 (s.reg .tsu 0x640 % 16777216), w.toNat % 1024, s.now .tsu) } := by
  have hoff : (s.setReg .tsu 0x644 (w &&& 0x3FF#32)).reg .tsu 0x640 = s.reg .tsu 0x640 :=
    (State.setReg_node_reg ..).trans (if_neg (by decide))
  have hfr : (s.setReg .tsu 0x644 (w &&& 0x3FF#32)).reg .tsu 0x644 = (w &&& 0x3FF#32).toNat :=
    (State.setReg_node_reg ..).trans (if_pos rfl)
  simp only [State.rfOffsetWrite, reduceCtorEq, false_and, if_false, if_true, Nat.reduceAdd,
    hoff, hfr, toNat_and_frames_mod, bitsOf_from_zero, Nat.reducePow]
  rfl

theorem State.rfOffsetWrite_gd (w : Word) (hheld : s.gdAbsent 0x2C0 = false) : s.rfOffsetWrite .gd false w =
    (s.setReg .gd 0x2C0 (w &&& 0xFFFFFF#32)).updCom .gd fun c =>
      { c with rfPend := some (min 9999999 (w.toNat % 16777216), s.reg .gd 0x2C4 % 1024, s.now .gd) } := by
  have hoff : (s.setReg .gd 0x2C0 (w &&& 0xFFFFFF#32)).reg .gd 0x2C0 = (w &&& 0xFFFFFF#32).toNat :=
    (State.setReg_node_reg ..).trans (if_pos rfl)
  have hfr : (s.setReg .gd 0x2C0 (w &&& 0xFFFFFF#32)).reg .gd 0x2C4 = s.reg .gd 0x2C4 :=
    (State.setReg_node_reg ..).trans (if_neg (by decide))
  simp only [State.rfOffsetWrite, true_and, if_false, Bool.false_eq_true, Nat.add_zero, Nat.sub_zero, Nat.reduceAdd,
    hheld, hoff, hfr, toNat_and_offset_mod, bitsOf_from_zero, Nat.reducePow]
  rfl

theorem State.gdAbsent_of_noReference (href : s.gd.variant ≠ .gd64x ∨ s.gd.hasRef = false) : s.gdAbsent 0x2C0 = true := by
  have habsent : s.gd.refAbsent 0x2C0 = true := by
    rcases href with hvar | hunit
    · have hvar' : (decide (s.gd.variant ≠ .gd64x)) = true := decide_eq_true hvar
      rw [Gd.refAbsent, hvar']
      rfl
    · rw [Gd.refAbsent, hunit]
      exact Bool.or_eq_true_iff.mpr (.inl (Bool.or_true _))
  rw [State.gdAbsent, habsent]
  rfl

theorem State.rfOffsetWrite_of_absent (w : Word) (habsent : s.gdAbsent 0x2C0 = true) :
    s.rfOffsetWrite .gd false w = s.updCom .gd fun c => c.accessErr 1 0x2C0 := by
  simp only [State.rfOffsetWrite, true_and, Bool.false_eq_true, if_false, Nat.add_zero, habsent, if_true]

theorem State.rfOffsetApply_of_none (hpend : (s.com n).rfPend = none) : s.rfOffsetApply n = s := by
  simp only [State.rfOffsetApply, hpend]

theorem State.rfOffsetApply_of_early (hpend : (s.com n).rfPend = some (ns, fr, at0))
    (hearly : (s.now n).toNs < boundaryAfter at0) : s.rfOffsetApply n = s := by
  simp only [State.rfOffsetApply, hpend, hearly, if_true]

/-- At its second boundary the pending offset becomes the one in force; with no calendar no slot is skipped, R327. -/
theorem State.rfOffsetApply_of_due (hpend : (s.com n).rfPend = some (ns, fr, at0)) (hdue : boundaryAfter at0 ≤ (s.now n).toNs)
    (hcal : s.tsu.calendar = []) :
    s.rfOffsetApply n = s.updCom n fun c => { c with rfNs := ns, rfFrames := fr, rfPend := none } := by
  simp only [State.rfOffsetApply, hpend, Int.not_lt.mpr hdue, if_false]
  cases n
  · have hcal' : (s.updCom .tsu fun c => { c with rfNs := ns, rfFrames := fr, rfPend := none }).tsu.calendar = [] := hcal
    rw [hcal']
    rfl
  · rfl

end

/-! ## The turn of a calendar entry -/

section
variable {s : State} {k : Nat} {e : CalEntry} {b : Int}

theorem State.calTurn_of_undue (hheld : Tab.get s.tsu.calendar k = some e) (hdue : s.calDue e = none) : s.calTurn k = s := by
  simp only [State.calTurn, hheld, hdue]

/-- What the one entry of a calendar does at its instant, R329 to R331. -/
theorem State.calTurn_of_due (hcal : s.tsu.calendar = [(k, e)]) (hdue : s.calDue e = some b) (hlast : e.lastB = none) :
    s.calTurn k =
      if s.tsu.calTick then s
      else if !s.tsu.com.time.launchOk then s.slotMissed k e b .timeUnqualified 0
      else if e.flag 4 ∧ !s.tsu.com.time.info.traceable then s.slotMissed k e b .slotMissed 1
      else if (s.slice e.slice).state = .halted then s.slotMissed k e b .slotMissed 2
      else (s.updTsu fun t => { t with calTick := true }).calFire k e b := by
  have hheld : Tab.get s.tsu.calendar k = some e := by rw [hcal]; exact if_pos rfl
  have hfirst : (s.tsu.calendar.any fun p => p.1 < k && (s.calDue p.2).isSome) = false := by
    rw [hcal]
    simp only [List.any_cons, List.any_nil, Nat.lt_irrefl, decide_false, Bool.false_and, Bool.or_false]
  simp only [State.calTurn, hheld, hdue, hfirst, Bool.false_eq_true, or_false, hlast, Option.map_none, Option.getD_none, if_false]

end

/-! ## The HOLD, the check of completion, and the release of a port -/

section
variable {s : State} {k p n : Nat} {e : CalEntry} {b : Int} {d : Word}

theorem State.updPort_updPort (s : State) (p : Nat) (f g : Port → Port) :
    (s.updPort p f).updPort p g = s.updPort p fun q => g (f q) := by
  simp only [State.updPort, State.updTsu, Tab.getD_put, if_true, Tab.put_put]

theorem State.updPort_congr {f g : Port → Port} (h : f (s.port p) = g (s.port p)) : s.updPort p f = s.updPort p g :=
  congrArg (fun q => s.updTsu fun t => { t with ports := Tab.put t.ports p q }) h

theorem State.reclaim_port_hold (s : State) (p : Nat) : ((s.reclaim p).port p).hold = (s.port p).hold := by
  simp only [State.reclaim]
  split
  · rfl
  · have hlend : ∀ (u : State) (f : Tsu → Tsu), (∀ t, (f t).ports = t.ports) → (u.updTsu f).port p = u.port p :=
      fun u f hf => congrArg (fun l => Tab.getD l p Port.reset) (hf u.tsu)
    rw [hlend _ _ fun t => by split <;> rfl, State.updPort_port, if_pos rfl]

theorem State.calHold_of_undue (hheld : Tab.get s.tsu.calendar k = some e) (hflag : e.flag 5 = false) : s.calHold k = s := by
  simp only [State.calHold, hheld, hflag, Bool.and_false, Bool.false_and, Bool.not_false, if_true]

theorem State.present_hold (s : State) (p n : Nat) (c : Command) (d : Word) :
    ((s.present p c).updPort p fun q => { q with hold := q.hold ++ [(n, d)] }) =
      (s.reclaim p).updPort p fun q => { q with direct := q.direct ++ [c], hold := q.hold ++ [(n, d)] } :=
  State.updPort_updPort ..

/-- A HOLD that is due goes to the one port of CLEAR_PORTSET, R334. -/
theorem State.calHold_of_due {m : SchedImage} (hheld : Tab.get s.tsu.calendar k = some e)
    (hb : s.slotBoundary e ((s.now .tsu).toNs + e.lead + s.clearLead) = b) (hvalid : e.flag 3 = true) (hhold : e.flag 5 = true)
    (hok : s.tsu.com.time.launchOk = true) (hfires : e.fires (s.slotName e b).2 = true) (hlast : e.lastHold = none)
    (hwrote : e.wrote ≤ b - e.lead - s.clearLead) (himage : (s.slice e.slice).image = some m)
    (hset : m.portsets[beNat e.bytes 36 1]? = some [p]) : s.calHold k =
      (((s.reclaim p).updPort p fun q => { q with
        direct := q.direct ++ [directCommand 0 (BitVec.ofInt 32 (b - e.lead)) e.slice (s.slice e.slice).sgen],
        hold := q.hold ++ [(e.slice, BitVec.ofInt 32 (b - e.lead))] }).updCal k fun e => { e with lastHold := some b }) := by
  have hwrote' : decide (e.wrote ≤ b - e.lead - s.clearLead) = true := decide_eq_true hwrote
  simp only [State.calHold, hheld, hb, hvalid, hhold, hok, hfires, hlast, Option.map_none, Option.getD_none, hwrote', Bool.and_self,
    Bool.not_true, Bool.false_eq_true, if_false, himage, Option.bind_some, hset, Option.getD_some, List.foldl_cons, List.foldl_nil,
    State.present_hold]

/-- The check of one slot's completion, R333. -/
theorem State.calDoneCheck_of_one {w : Word} {turns : Nat} (hcal : s.tsu.calendar = [(k, e)]) (hchecks : e.checks = [(b, w, turns)])
    (hdue : b + e.doneDl ≤ (s.now .tsu).toNs) : s.calDoneCheck k =
      let u := s.updCal k fun e => { e with checks := [] }
      if turns = (((s.findTumb e.slice 0 e.doneIx).bind s.tumb?).map (·.turns)).getD 0 then u.slotRecord 0x12 e b .radioMiss 0
      else u := by
  have hheld : Tab.get s.tsu.calendar k = some e := by rw [hcal]; exact if_pos rfl
  have hdue' : decide (b + e.doneDl ≤ (s.now .tsu).toNs) = true := decide_eq_true hdue
  have hcheck : (e.checks.filter fun c => decide (c.1 + e.doneDl ≤ (s.now .tsu).toNs)) = [(b, w, turns)] := by
    rw [hchecks]
    exact List.filter_cons_of_pos hdue'
  have hleft : (s.updCal k fun e => { e with checks := e.checks.filter fun c => !decide (c.1 + e.doneDl ≤ (s.now .tsu).toNs) })
      = s.updCal k fun e => { e with checks := [] } := by
    simp only [State.updCal, State.updTsu, hcal, Tab.map, List.map_cons, List.map_nil, if_true, hchecks, List.filter_cons, hdue',
      Bool.not_true, Bool.false_eq_true, if_false, List.filter_nil]
  simp only [State.calDoneCheck, hheld, hcheck, hleft, List.foldl_cons, List.foldl_nil]
  rfl

theorem State.calRelease_of_none (hhold : (s.port p).hold = []) : s.calRelease p = s := by
  simp only [State.calRelease, hhold, List.filter_nil, List.foldl_nil]

theorem State.calRelease_of_past (hhold : (s.port p).hold = [(n, d)]) (hfired : (s.port p).fired = [])
    (hpast : 0 ≤ sdiff 32 (s.now .tsu).ns32.toNat d.toNat) : s.calRelease p =
      (s.reclaim p).updPort p fun q => { q with hold := [], direct := q.direct ++ [directCommand 8 0 n 0] } := by
  have hone : s.calRelease p = s.release p n := by
    simp only [State.calRelease, hhold, hfired, List.any_nil, Bool.not_false, Bool.and_true, List.filter_cons, List.filter_nil,
      decide_eq_true hpast, if_true, List.foldl_cons, List.foldl_nil]
  rw [hone, State.release, State.present, State.updPort_updPort]
  refine State.updPort_congr ?_
  have hheld : ((s.reclaim p).port p).hold.filter (fun h => h.1 ≠ n) = [] := by
    rw [State.reclaim_port_hold, hhold]
    simp only [List.filter_cons, List.filter_nil, ne_eq, not_true, decide_false, Bool.false_eq_true, if_false]
  exact congrArg (fun l => { (s.reclaim p).port p with
    hold := l, direct := ((s.reclaim p).port p).direct ++ [directCommand 8 0 n 0] }) hheld

theorem State.calRelease_of_ahead (hhold : (s.port p).hold = [(n, d)])
    (hahead : sdiff 32 (s.now .tsu).ns32.toNat d.toNat < 0) : s.calRelease p = s := by
  simp only [State.calRelease, hhold, List.filter_cons, List.filter_nil, decide_eq_false (Int.not_le.mpr hahead), Bool.false_and,
    Bool.false_eq_true, if_false, List.foldl_nil]

end

/-- The fired entry misses nothing more and keeps its boundary; its completion is checked where it asks for it, R333. -/
def CalEntry.fired (b tt : Int) (turns : Nat) (e : CalEntry) : CalEntry :=
  { e with missed := 0, lastB := some b, checks := if e.flag 6 then e.checks ++ [(b, BitVec.ofInt 32 tt, turns)] else e.checks }

/-- Settles O39: a calendar entry by its instant and its flags, a port by its HOLD. -/
theorem radioCalendarRules : Obligations.RadioCalendarRules := by
  unfold Obligations.RadioCalendarRules
  refine ⟨fun w s => ?_, fun w s => ?_, fun w s hheld => ?_, fun w s href => ?_, fun n s hpend => ?_,
    fun n ns fr at0 s hpend hearly => ?_, fun n ns fr at0 s hpend hdue hcal => ?_, fun k s hnone => ⟨?_, ?_, ?_⟩,
    fun k e s hheld hdue => ?_, fun k e b s hcal hdue hlast => ?_, fun k i e b t s hfind hheld => ?_, fun k e s hheld hflag => ?_,
    fun k p e m b s hheld hb hvalid hhold hok hfires hlast hwrote himage hset => ?_,
    fun k b w turns e s hcal hchecks hdue hturns => ?_, fun k b w turns e s hcal hchecks hdue hturns => ?_, fun p s hhold => ?_,
    fun p n d s hhold hfired hpast => ?_, fun p n d s hhold hahead => ?_⟩
  · exact ⟨_, congrArg Host.Outcome.next (State.rfOffsetWrite_tsu s w), rfl, rfl, rfl, rfl⟩
  · exact ⟨_, congrArg Host.Outcome.next (State.rfOffsetWrite_tsu_frames s w), rfl, rfl⟩
  · exact ⟨_, congrArg Host.Outcome.next (State.rfOffsetWrite_gd w hheld), rfl, rfl⟩
  · exact congrArg Host.Outcome.next (State.rfOffsetWrite_of_absent w (State.gdAbsent_of_noReference href))
  · exact congrArg Host.Outcome.next (State.rfOffsetApply_of_none hpend)
  · exact congrArg Host.Outcome.next (State.rfOffsetApply_of_early hpend hearly)
  · exact congrArg Host.Outcome.next (State.rfOffsetApply_of_due hpend hdue hcal)
  · simp only [exec, execCalTurn, State.calTurn, hnone]
  · simp only [exec, execCalHold, State.calHold, hnone]
  · simp only [exec, execCalDoneCheck, State.calDoneCheck, hnone]
  · exact congrArg Host.Outcome.next (State.calTurn_of_undue hheld hdue)
  · have hexec : exec (.calTurn k) s = .next _ := congrArg Host.Outcome.next (State.calTurn_of_due hcal hdue hlast)
    refine ⟨fun htick => ?_, fun htick => ⟨fun hok => ?_, fun hok hreq htrace => ?_, fun hok hreq hhalt => ?_,
      fun hok hreq hrun => ?_⟩⟩ <;> refine hexec.trans (congrArg Host.Outcome.next ?_)
    · exact if_pos htick
    · simp only [htick, hok, Bool.false_eq_true, if_false, Bool.not_false, if_true]
    · simp only [htick, hok, hreq, htrace, Bool.false_eq_true, if_false, Bool.not_true, Bool.not_false, and_self, if_true]
    · simp only [htick, hok, hreq, hhalt, Bool.false_eq_true, if_false, Bool.not_true, false_and, if_true]
    · simp only [htick, hok, hreq, hrun, Bool.false_eq_true, if_false, Bool.not_true, false_and]
  · simp only [State.calFire, hfind, hheld]
    exact ⟨_, CalEntry.fired b (b - e.lead) _, rfl, rfl, rfl, rfl, rfl, rfl, rfl, rfl⟩
  · exact congrArg Host.Outcome.next (State.calHold_of_undue hheld hflag)
  · exact congrArg Host.Outcome.next (State.calHold_of_due hheld hb hvalid hhold hok hfires hlast hwrote himage hset)
  · exact congrArg Host.Outcome.next ((State.calDoneCheck_of_one hcal hchecks hdue).trans (if_pos hturns))
  · exact congrArg Host.Outcome.next ((State.calDoneCheck_of_one hcal hchecks hdue).trans (if_neg hturns))
  · exact congrArg Host.Outcome.next (State.calRelease_of_none hhold)
  · exact congrArg Host.Outcome.next (State.calRelease_of_past hhold hfired hpast)
  · exact congrArg Host.Outcome.next (State.calRelease_of_ahead hhold hahead)

end Sys2Proof.Machine
end

section
/-! Calendar entries, sequence-table orders and the serving descriptor of a slice page (R329, R348, R349). -/

namespace Sys2Proof.Machine

open Sys2Proof

/-! ## Calendar entries -/

section
variable {s : State} {n k off : Nat} {w : Word} {e : CalEntry}

/-- The calendar entry that a slice page has written, R329. -/
def State.pageEntry (s : State) (n : Nat) : CalEntry :=
  ⟨n, (s.slice n).pageBytes 0x190 12, 0, none, none, [], (s.now .tsu).toNs⟩

theorem State.calSelect_of_own (hn : n < 64) (hact : (s.slice n).state = .active)
    (hown : (s.slice n).ownsCal (w.toNat % 256) = true) (hheld : Tab.get s.tsu.calendar (w.toNat % 256) = some e) :
    s.calSelect n w = s.updSlice n fun v => Slice.setWords { v with page := Tab.put v.page 0x180 (BitVec.ofNat 32 (w.toNat % 256)) }
      0x190 (wordsOf (padTo 48 e.bytes) 12) := by
  rw [State.calSelect, State.spGuard_of_active hn hact]
  simp only [hown, if_true, hheld, Option.map_some, Option.getD_some, Bool.not_true, Bool.false_and, Bool.false_eq_true, if_false]

theorem State.calWrite_of_full (hn : n < 64) (hact : (s.slice n).state = .active) (hk : (s.slice n).word 0x180 % 256 = k)
    (hnew : Tab.get s.tsu.calendar k = none) (hfull : (s.slice n).calQ ≤ (s.tsu.calendar.filter fun p => p.2.slice = n).length) :
    s.calWrite n = s.spCode n 0x184 .calFull := by
  rw [State.calWrite, State.spGuard_of_active hn hact]
  subst hk
  simp only [hnew, Option.isNone_none, hfull, and_self, if_true]

theorem State.calWrite_of_foreign (hn : n < 64) (hact : (s.slice n).state = .active) (hk : (s.slice n).word 0x180 % 256 = k)
    (hroom : (s.tsu.calendar.filter fun p => p.2.slice = n).length < (s.slice n).calQ) (hown : (s.slice n).ownsCal k = false) :
    s.calWrite n = (s.denied n 0x184).updSlice n fun v =>
      { v with codes := Tab.put v.codes 0x184 ErrCode.accessDenied.value } := by
  rw [State.calWrite, State.spGuard_of_active hn hact]
  subst hk
  simp only [Nat.not_le.mpr hroom, and_false, if_false, hown, Bool.not_false, if_true]

theorem State.calWrite_of_invalid (hn : n < 64) (hact : (s.slice n).state = .active) (hk : (s.slice n).word 0x180 % 256 = k)
    (hroom : (s.tsu.calendar.filter fun p => p.2.slice = n).length < (s.slice n).calQ) (hown : (s.slice n).ownsCal k = true)
    (hbad : s.calInvalid n k (s.pageEntry n) = some off) : s.calWrite n = s.spCode n 0x184 .calInvalid off := by
  rw [State.pageEntry] at hbad
  rw [State.calWrite, State.spGuard_of_active hn hact]
  subst hk
  simp only [Nat.not_le.mpr hroom, and_false, if_false, hown, Bool.not_true, Bool.false_eq_true, hbad]

/-- The calendar with a new entry in it, and the entry's tumbler bound to it. -/
def State.calStored (s : State) (n k : Nat) : State :=
  let u := s.updTsu fun t => { t with calendar := Tab.put t.calendar k (s.pageEntry n),
                                      tumb := Tab.map t.tumb fun _ x => if x.bound = some k then { x with bound := none } else x }
  match u.findTumb n 0 (s.pageEntry n).tumbIx with
  | some i => u.updTumb i fun t => { t with bound := some k }
  | none => u

theorem State.calStored_calendar (s : State) (n k : Nat) :
    (s.calStored n k).tsu.calendar = Tab.put s.tsu.calendar k (s.pageEntry n) := by
  simp only [State.calStored]
  split <;> rfl

theorem State.calWrite_of_valid (hn : n < 64) (hact : (s.slice n).state = .active) (hk : (s.slice n).word 0x180 % 256 = k)
    (hroom : (s.tsu.calendar.filter fun p => p.2.slice = n).length < (s.slice n).calQ) (hown : (s.slice n).ownsCal k = true)
    (hnew : Tab.get s.tsu.calendar k = none) (hgood : s.calInvalid n k (s.pageEntry n) = none) :
    s.calWrite n = (s.calStored n k).spCode n 0x184 .none := by
  rw [State.pageEntry] at hgood
  rw [State.calWrite, State.spGuard_of_active hn hact]
  subst hk
  simp only [Nat.not_le.mpr hroom, and_false, if_false, hown, Bool.not_true, Bool.false_eq_true, hgood, hnew]
  rfl

theorem State.spCode_none (s : State) (n off d : Nat) : s.spCode n off .none d =
    s.updSlice n fun v => { v with codes := Tab.put v.codes off ErrCode.none.value } := by
  simp only [State.spCode, if_true]

theorem State.calInvalid_of_numerology (hmu : 4 < e.mu) : s.calInvalid n k e = some 2 := if_pos hmu

theorem State.calInvalid_of_pattern (hmu : e.mu ≤ 4) (hlen : beNat e.bytes 3 1 = 0) : s.calInvalid n k e = some 3 :=
  (if_neg (Nat.not_lt.mpr hmu)).trans (if_pos (.inl hlen))

theorem State.calInvalid_of_lead (hmu : e.mu ≤ 4) (hlen : beNat e.bytes 3 1 ≠ 0) (hfit : 10 * 2 ^ e.mu % beNat e.bytes 3 1 = 0)
    (hlead : 1000000 / 2 ^ e.mu ≤ e.lead) : s.calInvalid n k e = some 24 :=
  (if_neg (Nat.not_lt.mpr hmu)).trans ((if_neg fun h => h.elim hlen (· hfit)).trans (if_pos hlead))

end

/-! ## Orders of the sequence table -/

section
variable {o : SeqOrder} {l : List SeqOrder}

theorem insertOrder_of_last (hlast : ∀ x ∈ l, x.eff ≤ o.eff) : insertOrder o l = l ++ [o] := by
  induction l with
  | nil => rfl
  | cons x t ih =>
    rw [insertOrder, if_neg (Nat.not_lt.mpr (hlast x List.mem_cons_self)), ih fun y hy => hlast y (List.mem_cons_of_mem x hy)]
    rfl

theorem mem_insertOrder {y : SeqOrder} (hy : y ∈ insertOrder o l) : y = o ∨ y ∈ l := by
  induction l with
  | nil => exact .inl (List.mem_singleton.mp hy)
  | cons x t ih =>
    rw [insertOrder] at hy
    split at hy
    · exact List.mem_cons.mp hy
    · rcases List.mem_cons.mp hy with hx | hrest
      · exact .inr (hx ▸ List.mem_cons_self)
      · exact (ih hrest).imp_right (List.mem_cons_of_mem x)

/-- An order put in its place keeps the order of EFF_STEP, R348. -/
theorem insertOrder_pairwise (h : l.Pairwise fun a b => a.eff ≤ b.eff) :
    (insertOrder o l).Pairwise fun a b => a.eff ≤ b.eff := by
  induction l with
  | nil => exact List.pairwise_singleton _ _
  | cons x t ih =>
    obtain ⟨hx, ht⟩ := List.pairwise_cons.mp h
    rw [insertOrder]
    split
    case isTrue hlt =>
      refine List.pairwise_cons.mpr ⟨fun y hy => ?_, h⟩
      rcases List.mem_cons.mp hy with rfl | hrest
      · exact Nat.le_of_lt hlt
      · exact Nat.le_trans (Nat.le_of_lt hlt) (hx y hrest)
    case isFalse hge =>
      refine List.pairwise_cons.mpr ⟨fun y hy => ?_, ih ht⟩
      rcases mem_insertOrder hy with rfl | hrest
      · exact Nat.not_lt.mp hge
      · exact hx y hrest

end

section
variable {s : State} {n : Nat} {b : List Byte} {o : SeqOrder}

/-- What an order of an ACTIVE slice's page does, by its step and by the room of the queue, R348. -/
theorem State.seqOrderSubmit_of_active (hn : n < 64) (hact : (s.slice n).state = .active) (hbytes : (s.slice n).pageBytes 0x1C0 12 = b)
    (ho : o = ⟨n, beNat b 0 1, beNat b 2 2 % 8192, beNat b 4 8, b.drop 16⟩) : s.seqOrderSubmit n =
      let u := if o.eff ≤ s.serveStep n then s.logT .seqLate (srcSlice n) 0 (some n) else s
      if 64 ≤ u.tsu.orders.length then (u.spCode n 0x1F0 .none).grantAsk 3 n 0 (some o)
      else (u.updTsu fun t => { t with orders := insertOrder o t.orders }).spCode n 0x1F0 .none := by
  subst hbytes ho
  rw [State.seqOrderSubmit, State.spGuard_of_active hn hact]

/-! ## The serving descriptor -/

theorem State.serveCommit_of_active (hn : n < 64) (hact : (s.slice n).state = .active) : s.serveCommit n =
    if s.serveOk n (s.slice n).serveWords then (s.updSlice n fun v => { v with serve := (s.slice n).serveWords }).spCode n 0x214 .none
    else s.spCode n 0x214 .seqInvalid := by
  rw [State.serveCommit, State.spGuard_of_active hn hact]

theorem State.serveOk_of_outside {d : Serve} (hout : d.maxEntries = 0 ∨ 512 < d.maxEntries ∨ d.budget = 0 ∨ d.starve = 0) :
    s.serveOk n d = false := by
  refine Bool.eq_false_iff.mpr fun hok => ?_
  simp only [State.serveOk, Bool.and_eq_true, decide_eq_true_eq] at hok
  obtain ⟨⟨⟨⟨-, hlow⟩, hhigh⟩, hbudget⟩, hstarve⟩ := hok
  omega

end

theorem State.logT_orders (s : State) (c : ErrCode) (src d : Nat) (n : Option Nat) : (s.logT c src d n).tsu.orders = s.tsu.orders := by
  obtain ⟨_, _, _, _, _, -, hlog⟩ := State.logT_recorded s c src d n
  rw [hlog]

/-- Settles O40: a page operation by the words of the page and the room of its store. -/
theorem servingRules : Obligations.ServingRules := by
  unfold Obligations.ServingRules
  refine ⟨fun n w e s hn hact hown hheld => ?_, fun n k s hn hact hk hnew hfull => ?_, fun n k s hn hact hk hroom hown => ?_,
    fun n k off s hn hact hk hroom hown hbad => ?_, fun n k s hn hact hk hroom hown hnew hgood => ?_,
    fun e n k s hmu => State.calInvalid_of_numerology hmu, fun e n k s hmu hlen => State.calInvalid_of_pattern hmu hlen,
    fun e n k s hmu hlen hfit hlead => State.calInvalid_of_lead hmu hlen hfit hlead,
    fun n b o s hn hact hbytes ho => ⟨fun hroom hstep => ?_, fun hroom hstep => ?_, fun hfull hstep => ?_⟩,
    fun o l hlast => insertOrder_of_last hlast, fun o l hsorted => insertOrder_pairwise hsorted, fun n s hn hact hok => ?_,
    fun n s hn hact hok => ?_, fun n d s hout => State.serveOk_of_outside hout, fun n w s hn hfree c hc => ?_⟩
  · exact congrArg Host.Outcome.next (State.calSelect_of_own hn hact hown hheld)
  · exact congrArg Host.Outcome.next (State.calWrite_of_full hn hact hk hnew hfull)
  · exact congrArg Host.Outcome.next (State.calWrite_of_foreign hn hact hk hroom hown)
  · exact congrArg Host.Outcome.next (State.calWrite_of_invalid hn hact hk hroom hown hbad)
  · have heq := State.calWrite_of_valid hn hact hk hroom hown hnew hgood
    rw [State.spCode_none] at heq
    refine ⟨_, congrArg Host.Outcome.next heq, ?_, ?_, ?_⟩
    · exact (congrArg (Tab.get · k) (State.calStored_calendar s n k)).trans ((Tab.get_put ..).trans (if_pos rfl))
    · rw [State.updSlice_slice, if_pos rfl]
      exact (Tab.get_put ..).trans (if_pos rfl)
    · rw [← heq]
      exact (State.calWrite_quiet rfl (.refl s)).apart.gd
  · refine congrArg Host.Outcome.next ((State.seqOrderSubmit_of_active hn hact hbytes ho).trans ?_)
    simp only [Nat.not_le.mpr hstep, Nat.not_le.mpr hroom, if_false]
  · refine congrArg Host.Outcome.next ((State.seqOrderSubmit_of_active hn hact hbytes ho).trans ?_)
    simp only [hstep, if_true, State.logT_orders, Nat.not_le.mpr hroom, if_false]
  · refine congrArg Host.Outcome.next ((State.seqOrderSubmit_of_active hn hact hbytes ho).trans ?_)
    simp only [Nat.not_le.mpr hstep, hfull, if_false, if_true]
  · exact congrArg Host.Outcome.next ((State.serveCommit_of_active hn hact).trans (if_pos hok))
  · exact congrArg Host.Outcome.next ((State.serveCommit_of_active hn hact).trans (if_neg (hok ▸ Bool.false_ne_true)))
  · simp only [List.mem_cons, List.not_mem_nil, or_false] at hc
    rcases hc with rfl | rfl | rfl | rfl <;>
      exact ⟨_, _, congrArg Host.Outcome.next (State.spGuard_of_free hn hfree), rfl⟩

end Sys2Proof.Machine
end

section
/-! What an order that loses leaves of a slice: its ring, its error counters and the log move, nothing else does. -/

namespace Sys2Proof.Machine

open Sys2Proof

/-- `w` differs from `v` in the ring of records and the error counters alone. -/
def Slice.Filed (v w : Slice) : Prop :=
  ∃ lost stale code count detail flight held run, w = { v with
    ringLost := lost, staleDrops := stale, errCode := code, errCount := count, errDetail := detail, inFlight := flight,
    held := held, lostRun := run }

/-- `t` differs from `s` in the log, the conflicts, the writes of the network and what `Slice.Filed` lets move. -/
def State.Filed (s t : State) : Prop :=
  (∃ d sl w head pages confl, s.tsu.com.Noted d ∧ t = { s with tsu := { s.tsu with
    com := d, slices := sl, nwWrites := w, dlogHead := head, filter := pages, conflicts := confl } })
  ∧ ∀ n, (s.slice n).Filed (t.slice n)

theorem Slice.Filed.refl (v : Slice) : v.Filed v := ⟨_, _, _, _, _, _, _, _, rfl⟩

theorem Slice.Filed.trans {v w x : Slice} (h : v.Filed w) (k : w.Filed x) : v.Filed x := by
  obtain ⟨_, _, _, _, _, _, _, _, rfl⟩ := h
  obtain ⟨_, _, _, _, _, _, _, _, rfl⟩ := k
  exact ⟨_, _, _, _, _, _, _, _, rfl⟩

section
variable {s t u : State}

theorem State.Filed.refl (s : State) : s.Filed s := ⟨⟨_, _, _, _, _, _, .refl _, rfl⟩, fun _ => .refl _⟩

theorem State.Filed.trans (h : s.Filed t) (k : t.Filed u) : s.Filed u := by
  obtain ⟨⟨_, _, _, _, _, _, hd, rfl⟩, hs⟩ := h
  obtain ⟨⟨_, _, _, _, _, _, he, rfl⟩, ht⟩ := k
  exact ⟨⟨_, _, _, _, _, _, hd.trans he, rfl⟩, fun n => (hs n).trans (ht n)⟩

theorem State.Filed.foldl {α : Type} {f : State → α → State} (hf : ∀ (s : State) x, s.Filed (f s x)) (l : List α) (s : State) :
    s.Filed (l.foldl f s) := by
  induction l generalizing s with
  | nil => exact .refl s
  | cons x l ih => exact (hf s x).trans (ih _)

theorem State.updSlice_filed (s : State) (n : Nat) {f : Slice → Slice} (hf : ∀ v : Slice, v.Filed (f v)) :
    s.Filed (s.updSlice n f) := by
  refine ⟨⟨_, _, _, _, _, _, .refl _, rfl⟩, fun k => ?_⟩
  rw [State.updSlice_slice]
  split
  case isTrue h => exact h ▸ hf _
  case isFalse => exact .refl _

theorem State.setEvt_filed (s : State) (off : Nat) (m : Word) : s.Filed (s.setEvt .tsu off m) :=
  ⟨⟨_, _, _, _, _, _, Common.setEvt_noted .., rfl⟩, fun _ => .refl _⟩

theorem State.logT_filed (s : State) (code : ErrCode) (source detail : Nat) (slice : Option Nat) :
    s.Filed (s.logT code source detail slice) := by
  cases slice with
  | none =>
    obtain ⟨d, hd, hlog⟩ := s.logT_eq code source detail
    rw [hlog]
    exact ⟨⟨_, _, _, _, _, _, hd, rfl⟩, fun _ => .refl _⟩
  | some n =>
    obtain ⟨d, hd, hlog⟩ := s.logT_slice_eq code source detail n
    rw [hlog]
    refine ⟨⟨_, _, _, _, _, _, hd, rfl⟩, fun k => ?_⟩
    have hslice := State.updSlice_slice s n k fun v => v.noteErr code.value (detail % 4294967296)
    refine (congrArg (Slice.Filed (s.slice k)) hslice).mpr ?_
    split
    case isTrue h => exact h ▸ ⟨_, _, _, _, _, _, _, _, rfl⟩
    case isFalse => exact .refl _

theorem State.pageLog_filed (s : State) (n addr : Nat) : s.Filed (s.pageLog n addr) := by
  simp only [State.pageLog]
  split
  · exact .refl s
  · split
    · exact State.logT_filed ..
    · exact ⟨⟨_, _, _, _, _, _, .refl _, rfl⟩, fun _ => .refl _⟩

theorem State.nwWrite_filed (s : State) (kind : NwKind) (pasid addr : Nat) (data : List Byte) :
    s.Filed (s.nwWrite kind pasid addr data) :=
  ⟨⟨_, _, _, _, _, _, .refl _, rfl⟩, fun _ => .refl _⟩

theorem State.sliceWrite_filed (s : State) (n : Nat) (kind : NwKind) (addr : Nat) (data : List Byte) :
    s.Filed (s.sliceWrite n kind addr data) :=
  (State.nwWrite_filed ..).trans (State.Filed.foldl (fun s _ => State.pageLog_filed s n _) _ _)

theorem State.ringPut_filed (s : State) (n : Nat) (r : Record) : s.Filed (s.ringPut n r) :=
  (State.updSlice_filed s n fun _ => ⟨_, _, _, _, _, _, _, _, rfl⟩).trans (State.sliceWrite_filed ..)

theorem State.writeRecord_filed (s : State) (r : Record) : s.Filed (s.writeRecord r) := by
  simp only [State.writeRecord]
  split
  · exact State.updSlice_filed s _ fun _ => ⟨_, _, _, _, _, _, _, _, rfl⟩
  · split
    · exact State.ringPut_filed ..
    · split
      · exact State.updSlice_filed s _ fun _ => ⟨_, _, _, _, _, _, _, _, rfl⟩
      · split
        · exact .refl s
        · exact (State.updSlice_filed s _ fun _ => ⟨_, _, _, _, _, _, _, _, rfl⟩).trans (State.logT_filed ..)

theorem State.conflict_filed (s : State) (c : Conflict) : s.Filed (s.conflict c) := by
  rw [State.conflict]
  split
  · exact State.setEvt_filed ..
  · exact ⟨⟨_, _, _, _, _, _, .refl _, rfl⟩, fun _ => .refl _⟩

theorem State.orderLoses_filed (s : State) (n : Nat) (w o : Order) : s.Filed (s.orderLoses n w o) :=
  (State.conflict_filed ..).trans ((State.logT_filed ..).trans (State.writeRecord_filed ..))

end

/-! ## An abort of a slice with nothing under way -/

/-- Nothing that an abort of a slice would end is held: no launch, context, wait or tumbler. -/
structure State.Idle (s : State) : Prop where
  arms : s.tsu.arms = []
  launches : s.tsu.launches = []
  contexts : s.tsu.contexts = []
  waits : s.tsu.waits = []
  tumbs : s.tsu.tumb = []

theorem State.Idle.filed {s t : State} (h : s.Idle) (hf : s.Filed t) : t.Idle := by
  obtain ⟨⟨_, _, _, _, _, _, -, rfl⟩, -⟩ := hf
  exact ⟨h.arms, h.launches, h.contexts, h.waits, h.tumbs⟩

theorem State.Filed.ports {s t : State} (hf : s.Filed t) : t.tsu.ports = s.tsu.ports := by
  obtain ⟨⟨_, _, _, _, _, _, -, rfl⟩, -⟩ := hf
  rfl

theorem State.Filed.aon {s t : State} (hf : s.Filed t) : t.tsu.com.time.aon = s.tsu.com.time.aon := by
  obtain ⟨⟨_, _, _, _, _, _, ⟨_, _, _, _, _, _, rfl⟩, rfl⟩, -⟩ := hf
  rfl

section
variable {s : State} {n : Nat} {o : Order} {doms : List (BitVec 24 × Nat)} {quiet destroy : Bool}

/-- The abort begun on an idle slice, before its end is checked: `ports` are the ones still asked. -/
def State.abortBegun (s : State) (n : Nat) (o : Order) (doms : List (BitVec 24 × Nat)) (quiet destroy : Bool) (ports : List Nat) :
    State :=
  let s := s.updTsu fun t => { t with ports := Tab.map t.ports fun _ q => { q with pend := q.pend.filter fun r => r.slice ≠ n } }
  s.updSlice n fun v => { v with
    state := if quiet then .resetting else .halted, fence := none,
    abort := some { order := o, start := s.tsu.com.time.aon, ports, doms, quiet, destroy } }

/-- An idle slice's abort asks the ports that hold commands of it, and no more, R242. -/
theorem State.abortSteps_of_idle (h : s.Idle) : s.abortSteps n o doms quiet destroy =
    (((((s.tsu.ports.filter fun p => p.2.hasSlice n).map (·.1)).foldl (fun s p => s.raiseAbort n p)
      (s.updTsu fun t => { t with grants := t.grants.filter fun g => g.slice ≠ n })).abortBegun n o doms quiet destroy
        ((s.tsu.ports.filter fun p => p.2.hasSlice n).map (·.1))).abortCheck n) := by
  have harms : s.tsu.arms.filter (fun p => p.2.slice = n) = [] := by rw [h.arms, List.filter_nil]
  have hdrop : s.dropSliceStaged n (fun _ => true) none = s := by
    rw [State.dropSliceStaged, h.launches, List.filter_nil, List.foldl_nil]
  have hctxs : (s.updTsu fun t => { t with grants := t.grants.filter fun g => g.slice ≠ n }).tsu.contexts = [] := h.contexts
  have hwaits : (s.updTsu fun t => { t with grants := t.grants.filter fun g => g.slice ≠ n }).tsu.waits = [] := h.waits
  have htumbs : (s.updTsu fun t => { t with grants := t.grants.filter fun g => g.slice ≠ n }).tsu.tumb = [] := h.tumbs
  simp only [State.abortSteps, harms, List.foldl_nil, hdrop, hctxs, hwaits, htumbs, List.filter_nil]
  rfl

theorem State.abortBegun_slice (s : State) (n : Nat) (o : Order) (doms : List (BitVec 24 × Nat)) (quiet destroy : Bool)
    (ports : List Nat) : (s.abortBegun n o doms quiet destroy ports).slice n = { s.slice n with
      state := if quiet then .resetting else .halted, fence := none,
      abort := some { order := o, start := s.tsu.com.time.aon, ports, doms, quiet, destroy } } :=
  (State.updSlice_slice ..).trans (if_pos rfl)

end

end Sys2Proof.Machine
end

section
/-! Creation, reset, destruction and bindings of a slice (R357 to R374, R207). -/

namespace Sys2Proof.Machine

open Sys2Proof

/-! ## Creation -/

section
variable {s : State} {n : Nat}

theorem State.sliceCreate_of_held (hsel : s.selSlice = n) (hstate : (s.slice n).state ≠ .free) :
    s.sliceCreate = s.logT .sliceState (srcSlice n) 0 (some n) := by
  simp only [State.sliceCreate, hsel, ne_eq, hstate, not_false_iff, if_true]

theorem State.sliceCreate_of_usedPasid {x : Nat × Slice} (hsel : s.selSlice = n) (hstate : (s.slice n).state = .free)
    (hx : x ∈ s.tsu.slices) (hlive : x.2.state ≠ .free) (hpasid : x.2.pasid = bitsOf ((s.slice n).win 0x68C) 19 0) :
    s.sliceCreate = s.logT .pasidInUse (srcSlice n) 0 (some n) := by
  have hused : (s.liveSlices.any fun p => p.2.pasid = bitsOf ((s.slice n).win 0x68C) 19 0) = true :=
    List.any_eq_true.mpr ⟨x, List.mem_filter.mpr ⟨hx, decide_eq_true hlive⟩, decide_eq_true hpasid⟩
  simp only [State.sliceCreate, hsel, hstate, ne_eq, not_true, if_false, hused, if_true]

/-- With its state and its PASID in order the pools alone judge a CREATE, R357. -/
theorem State.sliceCreate_of_newPasid (hsel : s.selSlice = n) (hstate : (s.slice n).state = .free)
    (hnew : ∀ x ∈ s.tsu.slices, x.2.state ≠ .free → x.2.pasid ≠ bitsOf ((s.slice n).win 0x68C) 19 0) :
    s.sliceCreate = match s.poolCheck (s.slice n) with
      | .error i => s.logT .poolEmpty (srcSlice n) i (some n)
      | .ok (row, cal) => s.updSlice n fun v => { v with
        state := .active, sgen := (v.sgen + 1) % 256, pasid := bitsOf ((s.slice n).win 0x68C) 19 0,
        dlogEn := bitOf (v.win 0x68C) 20, tumbQ := (s.slice n).wanted.getD 0 0,
        rowQ := (s.slice n).wanted.getD 1 0, dirQ := (s.slice n).wanted.getD 2 0, calQ := (s.slice n).wanted.getD 3 0,
        pageQ := (s.slice n).wanted.getD 4 0, scanQ := (s.slice n).wanted.getD 5 0, carryQ := (s.slice n).wanted.getD 6 0,
        resMax := clampNat 1 32 (bitsOf (v.win 0x698) 21 16), ports := v.maskPorts, rowFirst := row, calFirst := cal,
        bindings := [], page := v.page.filter fun p => windowKey ≤ p.1, codes := [], image := none, pending := .none,
        imgBusy := false, refusal := 0, serve := Serve.reset, localStep := 0, held := [], abort := none, fence := none } := by
  have hfree : (s.liveSlices.any fun p => p.2.pasid = bitsOf ((s.slice n).win 0x68C) 19 0) = false := by
    refine Bool.eq_false_iff.mpr fun hany => ?_
    obtain ⟨x, hx, hpasid⟩ := List.any_eq_true.mp hany
    obtain ⟨hmem, hlive⟩ := List.mem_filter.mp hx
    exact hnew x hmem (of_decide_eq_true hlive) (of_decide_eq_true hpasid)
  simp only [State.sliceCreate, hsel, hstate, ne_eq, not_true, if_false, hfree, Bool.false_eq_true] <;> rfl

end

/-! ## Reset and destruction -/

/-- A slice as its reset leaves it, R364: the bindings, the window and the rings' registers stay. -/
def Slice.refreshed (v : Slice) : Slice :=
  { v with
    sgen := (v.sgen + 1) % 256, page := v.page.filter fun p => windowKey ≤ p.1, codes := [], arvBusy := false,
    arvEarly := false, arvGen := 0, image := none, pending := .none, imgBusy := false, refusal := 0, abort := none,
    fence := none, serve := Serve.reset, localStep := 0, lastList := [], finTurned := false, headers := [],
    held := [], lostRun := false, tumbView := [], view := (false, 0, []), state := .active }

/-- A slice as its destruction leaves it. -/
def Slice.freed (v : Slice) : Slice :=
  { v with
    state := .free, pasid := 0, dlogEn := false, tumbQ := 0, rowQ := 0, dirQ := 0, calQ := 0, pageQ := 0,
    scanQ := 0, carryQ := 0, resMax := 1, ports := [], rowFirst := 0, calFirst := 0, bindings := [] }

/-- The order that stands for a reset or a DESTROY among the orders of a tick. -/
def resetOrder : Order := { verb := 0, ctx := none, sentence := 0, rank := 2, src := srcHost, seq := 0 }

/-- The state in which the steps of a reset begin: the orders of this tick have lost to it. -/
def State.resetBegun (s : State) (n : Nat) : State :=
  let s := ((s.tsu.tickOrders.filter fun r => r.slice = n && r.order.verb ≠ 0).map (·.order)).foldl
    (fun (s : State) x => s.orderLoses n resetOrder x) s
  s.updTsu fun t => { t with tickOrders := (t.tickOrders.filter fun r => r.slice ≠ n) ++ [⟨n, resetOrder⟩] }

section
variable {s : State} {n : Nat} {destroy : Bool}

theorem State.resetBegun_slice (s : State) (n k : Nat) : (s.slice k).Filed ((s.resetBegun n).slice k) :=
  (State.Filed.foldl (fun (s : State) x => State.orderLoses_filed s n resetOrder x) _ s).2 k

theorem State.resetBegun_idle (h : s.Idle) : (s.resetBegun n).Idle := by
  have hidle := h.filed (State.Filed.foldl (fun (s : State) x => State.orderLoses_filed s n resetOrder x)
    ((s.tsu.tickOrders.filter fun r => r.slice = n && r.order.verb ≠ 0).map (·.order)) s)
  exact ⟨hidle.arms, hidle.launches, hidle.contexts, hidle.waits, hidle.tumbs⟩

theorem State.resetBegun_ports (s : State) (n : Nat) : (s.resetBegun n).tsu.ports = s.tsu.ports :=
  (State.Filed.foldl (fun (s : State) x => State.orderLoses_filed s n resetOrder x) _ s).ports

theorem State.resetBegun_aon (s : State) (n : Nat) : (s.resetBegun n).tsu.com.time.aon = s.tsu.com.time.aon :=
  (State.Filed.foldl (fun (s : State) x => State.orderLoses_filed s n resetOrder x) _ s).aon

theorem State.resetSlice_of_free (hstate : (s.slice n).state = .free) :
    s.resetSlice n destroy = s.logT .sliceState (srcSlice n) 0 (some n) := by
  simp only [State.resetSlice, hstate]

theorem State.resetSlice_of_resetting (hstate : (s.slice n).state = .resetting) :
    s.resetSlice n false = s.updTsu fun t => { t with absorbed := min (t.absorbed + 1) 0xFFFF } := by
  simp only [State.resetSlice, hstate, Bool.false_eq_true, if_false]

theorem State.resetSlice_of_active (hstate : (s.slice n).state = .active) (habort : (s.slice n).abort = none) :
    s.resetSlice n destroy = (s.resetBegun n).abortSteps n resetOrder [] true destroy := by
  simp only [State.resetSlice, hstate, habort, Option.map_none, Option.getD_none]
  rfl

theorem State.abortCheck_of_quiet {a : AbortRun} (habort : (s.slice n).abort = some a) (hports : a.ports = [])
    (hquiet : a.quiet = true) (hdoms : a.doms = []) :
    s.abortCheck n = (s.updSlice n fun v => { v with abort := none }).resetFinish n a.destroy := by
  simp only [State.abortCheck, habort, hports, ne_eq, not_true, if_false, hquiet, if_true, hdoms, List.foldl_nil]

theorem State.releaseAll_of_none (hports : s.tsu.ports = []) : s.releaseAll n = s := by
  simp only [State.releaseAll, hports, List.filter_nil, List.foldl_nil]

/-- The end of a reset with no port left to release, R364. -/
theorem State.resetFinish_slice (hports : s.tsu.ports = []) :
    (s.resetFinish n false).slice n = (s.slice n).refreshed := by
  simp only [State.resetFinish, State.releaseAll_of_none hports, Bool.false_eq_true, if_false]
  exact (State.updSlice_slice ..).trans (if_pos rfl)

theorem State.resetFinish_slice_of_destroy (hports : s.tsu.ports = []) (hbind : (s.slice n).bindings = []) :
    (s.resetFinish n true).slice n = (s.slice n).refreshed.freed := by
  simp only [State.resetFinish, State.releaseAll_of_none hports, if_true, hbind, List.foldl_nil]
  refine (State.updSlice_slice ..).trans ((if_pos rfl).trans (congrArg Slice.freed ?_))
  exact (State.updSlice_slice ..).trans (if_pos rfl)

/-- A reset with nothing at the ports is at its end when it begins. -/
theorem State.resetSlice_of_idle (hstate : (s.slice n).state = .active) (habort : (s.slice n).abort = none) (hidle : s.Idle)
    (hports : s.tsu.ports = []) : ∃ (u : State) (v : Slice), s.resetSlice n destroy = u.resetFinish n destroy ∧ u.tsu.ports = []
      ∧ (s.slice n).Filed v ∧ u.slice n = { v with state := .resetting, fence := none, abort := none } := by
  have hnone : (s.resetBegun n).tsu.ports = [] := (s.resetBegun_ports n).trans hports
  have hsteps := State.abortSteps_of_idle (n := n) (o := resetOrder) (doms := []) (quiet := true) (destroy := destroy)
    (State.resetBegun_idle (n := n) hidle)
  rw [hnone, List.filter_nil, List.map_nil, List.foldl_nil] at hsteps
  have hslice := State.abortBegun_slice ((s.resetBegun n).updTsu fun t => { t with grants := t.grants.filter fun g => g.slice ≠ n })
    n resetOrder [] true destroy []
  have hend := State.abortCheck_of_quiet (congrArg Slice.abort hslice) rfl rfl rfl
  refine ⟨_, (s.resetBegun n).slice n, (State.resetSlice_of_active hstate habort).trans (hsteps.trans hend), ?_,
    s.resetBegun_slice n n, ?_⟩
  · exact congrArg (fun l => Tab.map l fun _ q => { q with pend := q.pend.filter fun r => r.slice ≠ n }) hnone
  · rw [State.updSlice_slice, if_pos rfl, hslice]
    rfl

/-! ## A reset with a command at a port -/

theorem State.lendPort_slice (s : State) (p k e : Nat) (g : BitVec 2) : (s.lendPort p e g).slice k = s.slice k := by
  simp only [State.lendPort]
  repeat' split
  all_goals rfl

theorem State.startsWaiting_slice (s before : State) (p k : Nat) : (s.startsWaiting before p).slice k = s.slice k := by
  simp only [State.startsWaiting]
  split
  · rfl
  · split
    · rfl
    · exact State.lendPort_slice ..

/-- A port at which LP_ABORT rises for a slice at an instant, R243. -/
def Port.abortRaised (n aon : Nat) (q : Port) : Port :=
  let q := { q with fired := q.fired.filter fun f => f.cmd.slice ≠ n, pend := q.pend.filter fun r => r.slice ≠ n,
                    fenceHeld := q.fenceHeld.filter fun x => x.1.cmd.slice ≠ n }
  match q.abort with
  | none => { q with abort := some (n, aon) }
  | some x => if x.1 = n ∨ q.abortDue.contains n then q else { q with abortDue := q.abortDue ++ [n] }

theorem State.raiseAbort_eq (s : State) (n p : Nat) :
    s.raiseAbort n p = (s.updPort p (Port.abortRaised n s.tsu.com.time.aon)).startsWaiting s p := rfl

theorem State.raiseAbort_slice (s : State) (n p k : Nat) : (s.raiseAbort n p).slice k = s.slice k :=
  State.startsWaiting_slice ..

/-- LP_ABORT rises at a port that has none, and the commands of the slice leave it, R243. -/
theorem State.raiseAbort_port {p : Nat} {f : Fired} (hfired : (s.port p).fired = [f]) (hslice : f.cmd.slice = n)
    (habort : (s.port p).abort = none) : ((s.raiseAbort n p).port p).abort = some (n, s.tsu.com.time.aon)
      ∧ ((s.raiseAbort n p).port p).fired = [] := by
  have hgone : [f].filter (fun f => f.cmd.slice ≠ n) = [] := by
    simp only [List.filter_cons, hslice, ne_eq, not_true, decide_false, Bool.false_eq_true, if_false, List.filter_nil]
  obtain ⟨lent, hport⟩ := State.startsWaiting_port (s.updPort p (Port.abortRaised n s.tsu.com.time.aon)) s p p
  rw [State.raiseAbort_eq, hport, State.updPort_port, if_pos rfl]
  simp only [Port.abortRaised, habort, hfired, hgone, and_self]

/-- An abort that still asks a port is not at its end. -/
theorem State.abortCheck_of_asked {a : AbortRun} (habort : (s.slice n).abort = some a) (hports : a.ports ≠ []) :
    s.abortCheck n = s := State.abortCheck_of_busy habort hports

theorem State.tabGet_port {p : Nat} {q : Port} (hports : s.tsu.ports = [(p, q)]) : s.port p = q := by
  have hget : Tab.getD [(p, q)] p Port.reset = q := by
    simp only [Tab.getD, Tab.get, if_true, Option.getD_some]
  exact (congrArg (fun l => Tab.getD l p Port.reset) hports).trans hget

/-- A reset with one fired command at a port asks that port and waits, R364, R243. -/
theorem State.resetSlice_of_fired {p : Nat} {f : Fired} {q : Port} (hstate : (s.slice n).state = .active)
    (habort : (s.slice n).abort = none) (hidle : s.Idle) (hports : s.tsu.ports = [(p, q)]) (hfired : q.fired = [f])
    (hslice : f.cmd.slice = n) (hquiet : q.abort = none) :
    ((s.resetSlice n destroy).slice n).state = .resetting ∧ ((s.resetSlice n destroy).slice n).sgen = (s.slice n).sgen
      ∧ ((s.resetSlice n destroy).port p).abort = some (n, s.tsu.com.time.aon) ∧ ((s.resetSlice n destroy).port p).fired = [] := by
  have hbegun : (s.resetBegun n).tsu.ports = [(p, q)] := (s.resetBegun_ports n).trans hports
  have hasks : q.hasSlice n = true := by
    simp only [Port.hasSlice, hfired, List.any_cons, hslice, decide_true, Bool.true_or]
  have hmine : (s.resetBegun n).tsu.ports.filter (fun p => p.2.hasSlice n) = [(p, q)] := by
    rw [hbegun]
    exact List.filter_cons_of_pos hasks
  have hsteps := State.abortSteps_of_idle (n := n) (o := resetOrder) (doms := []) (quiet := true) (destroy := destroy)
    (State.resetBegun_idle (n := n) hidle)
  rw [hmine, List.map_cons, List.map_nil, List.foldl_cons, List.foldl_nil] at hsteps
  have hport : ((s.resetBegun n).updTsu fun t => { t with grants := t.grants.filter fun g => g.slice ≠ n }).port p = q :=
    State.tabGet_port hbegun
  obtain ⟨hraised, hgone⟩ := State.raiseAbort_port (n := n) ((congrArg Port.fired hport).trans hfired) hslice
    ((congrArg Port.abort hport).trans hquiet)
  obtain ⟨r, hr⟩ : ∃ r, r = ((s.resetBegun n).updTsu fun t =>
    { t with grants := t.grants.filter fun g => g.slice ≠ n }).raiseAbort n p := ⟨_, rfl⟩
  have hrslice : r.slice n = (s.resetBegun n).slice n := hr ▸ State.raiseAbort_slice ..
  rw [← hr] at hsteps hraised hgone
  have hbslice := r.abortBegun_slice n resetOrder [] true destroy [p]
  have hend := State.abortCheck_of_asked (congrArg Slice.abort hbslice) (List.cons_ne_nil p [])
  rw [State.resetSlice_of_active hstate habort, hsteps, hend, hbslice, hrslice]
  obtain ⟨_, _, _, _, _, _, _, _, hfiled⟩ := s.resetBegun_slice n n
  have hbport : (r.abortBegun n resetOrder [] true destroy [p]).port p = { r.port p with
      pend := (r.port p).pend.filter fun x => x.slice ≠ n } := by
    have hmap := Tab.get_map r.tsu.ports (fun _ q => { q with pend := q.pend.filter fun x => x.slice ≠ n }) p
    refine (congrArg (Option.getD · Port.reset) hmap).trans ?_
    rw [State.port, Tab.getD]
    cases Tab.get r.tsu.ports p <;> rfl
  refine ⟨rfl, ?_, ?_, ?_⟩
  · rw [hfiled]
  · rw [hbport]
    exact hraised.trans (congrArg (fun k => some (n, k)) (s.resetBegun_aon n))
  · rw [hbport]
    exact hgone

end

/-! ## Bindings -/

section
variable {s : State} {n m : Nat} {tag : BitVec 24}

theorem State.sliceBind_of_inactive (hsel : s.selSlice = n) (hstate : (s.slice n).state ≠ .active) :
    s.sliceBind = s.logT .bindRefused (srcSlice n) 4 (some n) := by
  simp only [State.sliceBind, hsel, ne_eq, hstate, not_false_iff, if_true]

theorem State.sliceBind_of_bound (hsel : s.selSlice = n) (hstate : (s.slice n).state = .active)
    (htag : BitVec.ofNat 24 (bitsOf (s.reg .tsu 0x69C) 23 0) = tag) (howner : s.sliceOf tag = some m) (hother : m ≠ n) :
    s.sliceBind = s.logT .bindRefused (srcSlice n) 1 (some n) := by
  simp only [State.sliceBind, hsel, hstate, ne_eq, not_true, if_false, htag, howner, Option.isSome_some, Option.some.injEq, hother,
    not_false_iff, and_self, if_true]

/-- BIND of a domain that no slice holds: its declaration, the room of the table, then the domain's own state, R366. -/
theorem State.sliceBind_of_loose (hsel : s.selSlice = n) (hstate : (s.slice n).state = .active)
    (htag : BitVec.ofNat 24 (bitsOf (s.reg .tsu 0x69C) 23 0) = tag) (howner : s.sliceOf tag = none) : s.sliceBind =
      if (s.domRec tag).isNone then s.logT .bindRefused (srcSlice n) 2 (some n)
      else if 16 ≤ (s.slice n).bindings.length then s.logT .bindRefused (srcSlice n) 3 (some n)
      else
        let m : MState := if s.tsu.shadowed.contains tag then .shadow else if s.tsu.opened.contains tag then .member else .waiting
        let u := s.updSlice n fun v => { v with bindings := v.bindings ++ [⟨tag, m, 0, 0, none, 0, 0, 0, 0, 0⟩] }
        if m = .shadow then u.joinSoon tag else u := by
  simp only [State.sliceBind, hsel, hstate, ne_eq, not_true, if_false, htag, howner, Option.isSome_none, Bool.false_eq_true,
    false_and, reduceCtorEq]

theorem State.sliceUnbind_of_unbound (hsel : s.selSlice = n) (hbind : (s.slice n).bindings = []) : s.sliceUnbind = s := by
  simp only [State.sliceUnbind, hsel, hbind, List.any_nil, Bool.false_eq_true, if_false]

theorem State.unbind_slice (htumb : s.tsu.tumb = []) : ((s.unbind n tag).slice n).bindings
    = (s.slice n).bindings.filter fun b => b.tag ≠ tag := by
  have hslice := State.updSlice_slice s n n fun v => { v with bindings := v.bindings.filter fun b => b.tag ≠ tag }
  simp only [State.unbind, htumb, List.filter_nil, List.foldl_nil]
  exact congrArg Slice.bindings (hslice.trans (if_pos rfl))

theorem State.sliceUnbind_of_bound {b : Binding} (hsel : s.selSlice = n)
    (htag : BitVec.ofNat 24 (bitsOf (s.reg .tsu 0x69C) 23 0) = tag) (hb : b ∈ (s.slice n).bindings) (hbtag : b.tag = tag) :
    s.sliceUnbind = s.unbind n tag := by
  have hany : ((s.slice n).bindings.any fun b => b.tag = tag) = true := List.any_eq_true.mpr ⟨b, hb, decide_eq_true hbtag⟩
  simp only [State.sliceUnbind, hsel, htag, hany, if_true]

end

/-- Settles O41: CREATE by the checks in their order, a reset by what is at the ports, BIND by its four causes. -/
theorem sliceRules : Obligations.SliceRules := by
  unfold Obligations.SliceRules
  refine ⟨fun n s hsel hstate => ?_, fun n x s hsel hstate hx hlive hpasid => ?_, fun n i s hsel hstate hnew hpool => ?_,
    fun n row cal s hsel hstate hnew hpool => ?_, fun n s hsel hstate => ⟨?_, ?_⟩, fun n s hsel hstate => ?_,
    fun n s hsel hstate habort harms hlaunches hctxs hwaits htumbs hports => ⟨?_, fun hbind => ?_⟩,
    fun n p f q s hsel hstate habort harms hlaunches hctxs hwaits htumbs hports hfired hslice hquiet => ?_,
    fun n s hsel hstate => ?_, fun n m tag s hsel hstate htag howner hother => ?_,
    fun n tag s hsel hstate htag howner => ⟨fun hrec => ?_, fun hrec hfull => ?_, fun hrec hroom hshadow => ?_,
      fun hrec hroom hshadow => ?_⟩, fun n tag b s hsel htag hb hbtag htumb => ?_, fun n s hsel hbind => ?_⟩
  · exact congrArg Host.Outcome.next (State.sliceCreate_of_held hsel hstate)
  · exact congrArg Host.Outcome.next (State.sliceCreate_of_usedPasid hsel hstate hx hlive hpasid)
  · refine congrArg Host.Outcome.next ((State.sliceCreate_of_newPasid hsel hstate hnew).trans ?_)
    rw [hpool]
  · have heq := State.sliceCreate_of_newPasid hsel hstate hnew
    rw [hpool] at heq
    refine ⟨_, congrArg Host.Outcome.next heq, ?_⟩
    rw [State.updSlice_slice, if_pos rfl]
    exact ⟨rfl, rfl, rfl, rfl, rfl, rfl, rfl, rfl, rfl, rfl, rfl⟩
  · exact congrArg Host.Outcome.next ((congrArg (s.resetSlice · false) hsel).trans (State.resetSlice_of_free hstate))
  · exact congrArg Host.Outcome.next ((congrArg (s.resetSlice · true) hsel).trans (State.resetSlice_of_free hstate))
  · exact congrArg Host.Outcome.next ((congrArg (s.resetSlice · false) hsel).trans (State.resetSlice_of_resetting hstate))
  · obtain ⟨u, v, hreset, huports, ⟨_, _, _, _, _, _, _, _, rfl⟩, huslice⟩ := State.resetSlice_of_idle (destroy := false)
      hstate habort ⟨harms, hlaunches, hctxs, hwaits, htumbs⟩ hports
    refine ⟨s.resetSlice n false, congrArg Host.Outcome.next (congrArg (s.resetSlice · false) hsel), ?_⟩
    have hgd := (State.resetSlice_quiet (n := n) (destroy := false) rfl (.refl s)).apart.gd
    rw [hreset] at hgd ⊢
    rw [State.resetFinish_slice huports, huslice]
    exact ⟨rfl, rfl, rfl, rfl, rfl, rfl, rfl, rfl, rfl, hgd⟩
  · obtain ⟨u, v, hreset, huports, ⟨_, _, _, _, _, _, _, _, rfl⟩, huslice⟩ := State.resetSlice_of_idle (destroy := true)
      hstate habort ⟨harms, hlaunches, hctxs, hwaits, htumbs⟩ hports
    refine ⟨s.resetSlice n true, congrArg Host.Outcome.next (congrArg (s.resetSlice · true) hsel), ?_⟩
    have hgd := (State.resetSlice_quiet (n := n) (destroy := true) rfl (.refl s)).apart.gd
    rw [hreset] at hgd ⊢
    rw [State.resetFinish_slice_of_destroy huports (huslice ▸ hbind), huslice]
    exact ⟨rfl, rfl, rfl, rfl, rfl, rfl, hgd⟩
  · obtain ⟨hresetting, hsgen, hraised, hgone⟩ := State.resetSlice_of_fired (destroy := false) hstate habort
      ⟨harms, hlaunches, hctxs, hwaits, htumbs⟩ hports hfired hslice hquiet
    exact ⟨_, congrArg Host.Outcome.next (congrArg (s.resetSlice · false) hsel), hresetting, hsgen, hraised, hgone,
      (State.resetSlice_quiet rfl (.refl s)).apart.gd⟩
  · exact congrArg Host.Outcome.next (State.sliceBind_of_inactive hsel hstate)
  · exact congrArg Host.Outcome.next (State.sliceBind_of_bound hsel hstate htag howner hother)
  · refine congrArg Host.Outcome.next ((State.sliceBind_of_loose hsel hstate htag howner).trans ?_)
    rw [hrec]
    rfl
  · refine congrArg Host.Outcome.next ((State.sliceBind_of_loose hsel hstate htag howner).trans ?_)
    rw [if_neg (by simpa using hrec), if_pos hfull]
  · refine congrArg Host.Outcome.next ((State.sliceBind_of_loose hsel hstate htag howner).trans ?_)
    have hloose : s.tsu.shadowed.contains tag = false := by simpa using hshadow
    rw [if_neg (by simpa using hrec), if_neg (Nat.not_le.mpr hroom)]
    simp only [hloose, Bool.false_eq_true, if_false]
    exact if_neg (by split <;> simp)
  · refine congrArg Host.Outcome.next ((State.sliceBind_of_loose hsel hstate htag howner).trans ?_)
    have hheld : s.tsu.shadowed.contains tag = true := by simpa using hshadow
    rw [if_neg (by simpa using hrec), if_neg (Nat.not_le.mpr hroom)]
    simp only [hheld, if_true]
  · refine ⟨s.unbind n tag, congrArg Host.Outcome.next (State.sliceUnbind_of_bound hsel htag hb hbtag), State.unbind_slice htumb, ?_⟩
    exact (State.unbind_quiet rfl (.refl s)).apart.gd
  · exact congrArg Host.Outcome.next (State.sliceUnbind_of_unbound hsel hbind)

end Sys2Proof.Machine
end

section
/-! Orders to a slice, their ranks and effects, and the registers of the completion ring (R369 to R372, R464, R454). -/

namespace Sys2Proof.Machine

open Sys2Proof

/-! ## Ranks -/

section
variable {a b : Order}

theorem Order.before_of_rank (hrank : a.rank < b.rank) : a.before b = true ∧ b.before a = false := by
  have hne : a.rank ≠ b.rank := Nat.ne_of_lt hrank
  simp only [Order.before, hne, hne.symm, false_and, if_false, ne_eq, not_false_iff, if_true, hrank, Nat.lt_asymm hrank,
    decide_true, decide_false, and_self]

theorem Order.before_of_verb (hrank : a.rank = b.rank) (hsrc : a.src ≠ b.src) (hverb : a.verb < b.verb) :
    a.before b = true ∧ b.before a = false := by
  have hne : a.verb ≠ b.verb := Nat.ne_of_lt hverb
  simp only [Order.before, hrank, hsrc, hsrc.symm, and_false, if_false, ne_eq, not_true, hne, hne.symm, not_false_iff, if_true,
    hverb, Nat.lt_asymm hverb, decide_true, decide_false, and_self]

end

/-! ## Giving an order -/

section
variable {s : State} {n v : Nat} {o w : Order}

theorem State.order_of_first (hnone : s.tsu.tickOrders = []) : s.order n o =
    if s.orderValid n (s.scoped n o) then
      (s.updTsu fun t => { t with tickOrders := [⟨n, s.scoped n o⟩] }).orderApply n (s.scoped n o) []
    else (s.logT .sliceState (s.scoped n o).src 0 (some n)).orderRecord n (s.scoped n o) .sliceState := by
  have hput : (s.updTsu fun t => { t with
      tickOrders := (t.tickOrders.filter fun r => !(r.slice = n && overlap r.order (s.scoped n o))) ++ [⟨n, s.scoped n o⟩] })
      = s.updTsu fun t => { t with tickOrders := [⟨n, s.scoped n o⟩] } := by
    simp only [State.updTsu, hnone, List.filter_nil, List.nil_append]
  simp only [State.order, hnone, List.filter_nil, List.find?_nil, List.foldl_nil, hput]
  cases s.orderValid n (s.scoped n o) <;> rfl

/-- An order that does not rank before the tick's order of its slice loses to it, R370. -/
theorem State.order_of_later (hone : s.tsu.tickOrders = [⟨n, w⟩]) (hover : overlap w (s.scoped n o) = true)
    (hlater : (s.scoped n o).before w = false) : s.order n o = s.orderLoses n w (s.scoped n o) := by
  have hrival : s.tsu.tickOrders.filter (fun r => r.slice = n && overlap r.order (s.scoped n o)) = [⟨n, w⟩] := by
    rw [hone]
    exact List.filter_cons_of_pos (by simp only [decide_true, hover, Bool.and_self])
  simp only [State.order, hrival, List.find?_cons, hlater, Bool.not_false, Bool.or_true, List.foldl_nil]

theorem State.regOrder_of_page (hn : n < 64) (hact : (s.slice n).state = .active) : s.regOrder n true v =
    (s.updSlice n fun x => { x with orderSeq := ((s.slice n).orderSeq + 1) % 65536 }).order n
      (orderOf v ((s.slice n).word 0x040) 4 (srcSlice n) (((s.slice n).orderSeq + 1) % 65536)) := by
  simp only [State.regOrder, if_true, State.pageOrder, State.spGuard_of_active hn hact]

theorem State.regOrder_of_driver {m : Nat} (hsel : s.selSlice = m) : s.regOrder n false v =
    if (s.slice m).state = .free then s.logT .sliceState srcHost 0 (some m)
    else (s.updTsu fun t => { t with hostSeq := (s.tsu.hostSeq + 1) % 65536 }).order m
      (orderOf v (s.reg .tsu 0x6A0) 2 srcHost ((s.tsu.hostSeq + 1) % 65536)) := by
  simp only [State.regOrder, State.hostOrder, hsel, Bool.false_eq_true, if_false]

/-- The command of an order of one verb is the order by that verb. -/
theorem exec_order {page : Bool} {c : Instr} (hc : (c, v) ∈ [(Instr.orderAbort n page, 1), (.orderFence n page, 2),
    (.orderStop n page, 3), (.orderStart n page, 4), (.orderResume n page, 5)]) : exec c s = .next (s.regOrder n page v) := by
  simp only [List.mem_cons, List.not_mem_nil, or_false, Prod.mk.injEq] at hc
  rcases hc with ⟨rfl, rfl⟩ | ⟨rfl, rfl⟩ | ⟨rfl, rfl⟩ | ⟨rfl, rfl⟩ | ⟨rfl, rfl⟩ <;> rfl

end

/-! ## The effect of an order -/

section
variable {s : State} {n c : Nat} {o : Order} {x : Ctx}

/-- ABORT of an idle slice with nothing at the ports ends at once in HALTED, R242. -/
theorem State.orderApply_abort (hverb : o.verb = 1) (hidle : s.Idle) (hports : s.tsu.ports = [])
    (hact : (s.slice n).state = .active) :
    ((s.orderApply n o []).slice n).state = .halted ∧ ((s.orderApply n o []).slice n).abort = none := by
  have hsteps := State.abortSteps_of_idle (n := n) (o := o) (doms := []) (quiet := false) (destroy := false) hidle
  rw [hports, List.filter_nil, List.map_nil, List.foldl_nil] at hsteps
  have hslice := (s.updTsu fun t => { t with grants := t.grants.filter fun g => g.slice ≠ n }).abortBegun_slice n o [] false false []
  obtain ⟨r, hr⟩ : ∃ r, r = (s.updTsu fun t => { t with grants := t.grants.filter fun g => g.slice ≠ n }).abortBegun n o [] false
    false [] := ⟨_, rfl⟩
  rw [← hr] at hsteps hslice
  have hend : ∃ (k : Nat) (y : Record), r.abortCheck n = (((r.updSlice n fun v => { v with abort := none }).updTsu fun t =>
      { t with lastAbortSlice := n, lastAbortNs := k }).writeRecord y) := by
    rw [State.abortCheck, congrArg Slice.abort hslice]
    exact ⟨_, _, rfl⟩
  obtain ⟨k, y, hend⟩ := hend
  have heq : s.orderApply n o [] = r.abortCheck n := by
    simp only [State.orderApply, hverb, hact, reduceCtorEq, if_false, hsteps]
  obtain ⟨_, _, _, _, _, _, _, _, hfiled⟩ := (State.writeRecord_filed ((r.updSlice n fun v => { v with abort := none }).updTsu fun t =>
    { t with lastAbortSlice := n, lastAbortNs := k }) y).2 n
  have hbase : ((r.updSlice n fun v => { v with abort := none }).updTsu fun t =>
      { t with lastAbortSlice := n, lastAbortNs := k }).slice n = { r.slice n with abort := none } := by
    have hput := State.updSlice_slice r n n fun v => { v with abort := none }
    rw [if_pos rfl] at hput
    exact hput
  rw [heq, hend, hfiled, hbase, hslice]
  exact ⟨rfl, rfl⟩

theorem State.dropSliceStaged_of_none {pick : Launch → Bool} {code : Option ErrCode} (hlaunches : s.tsu.launches = []) :
    s.dropSliceStaged n pick code = s := by
  rw [State.dropSliceStaged, hlaunches, List.filter_nil, List.foldl_nil]

/-- FENCE halts the one ready context of its slice and begins FENCING, R371. -/
theorem State.orderApply_fence (hverb : o.verb = 2) (hlaunches : s.tsu.launches = []) (hctxs : s.tsu.contexts = [(c, x)])
    (hslice : x.slice = n) (hready : x.state = .ready) : s.orderApply n o [] =
      (((s.ctxHalt c .none).withdrawHeld [c]).updTsu fun t => { t with grants := t.grants.filter fun g => g.slice ≠ n }).updSlice n
        fun v => { v with state := .fencing, fence := some o } := by
  have hmine : s.tsu.contexts.filter (fun p => p.2.slice = n && p.2.state ≠ .stopped && p.2.state ≠ .halted) = [(c, x)] := by
    rw [hctxs]
    exact List.filter_cons_of_pos (by simp only [hslice, hready, decide_true, ne_eq, reduceCtorEq, not_false_iff, Bool.and_self])
  have hnone : ((s.ctxHalt c .none).withdrawHeld [c]).tsu.launches = [] := hlaunches
  simp only [State.orderApply, hverb, hmine, List.map_cons, List.map_nil, List.foldl_cons, List.foldl_nil,
    State.dropSliceStaged_of_none hnone]

theorem State.orderApply_stop (hverb : o.verb = 3) (hlaunches : s.tsu.launches = []) (hctxs : s.tsu.contexts = [(c, x)])
    (hslice : x.slice = n) (hscope : o.ctx = none ∨ o.ctx = some x.record) : s.orderApply n o [] =
      (((s.updTsu fun t => { t with grants := t.grants.filter fun g => g.ctx ≠ c || g.slice ≠ n || g.resource = 3 }).ctxStop c).withdrawHeld
        [c]).orderRecord n o .none := by
  have hmine : s.tsu.contexts.filter (fun p => p.2.slice = n && (o.ctx = none || o.ctx = some p.2.record)) = [(c, x)] := by
    rw [hctxs]
    refine List.filter_cons_of_pos ?_
    rcases hscope with h | h <;> simp [hslice, h]
  have hgrants : (fun g : GrantReq => !([c] : List Nat).contains g.ctx || g.slice ≠ n || g.resource = 3)
      = fun g => g.ctx ≠ c || g.slice ≠ n || g.resource = 3 := by
    funext g
    simp
  simp only [State.orderApply, hverb, hmine, List.map_cons, List.map_nil, List.foldl_cons, List.foldl_nil,
    State.dropSliceStaged_of_none hlaunches]
  rw [hgrants]

theorem State.ctxOf_of_one {rec : Nat} (hctxs : s.tsu.contexts = [(c, x)]) (hslice : x.slice = n) (hrec : x.record = rec) :
    s.ctxOf n rec = some c := by
  simp only [State.ctxOf, hctxs, List.find?_cons, hslice, hrec, decide_true, Bool.and_self, Option.map_some]

theorem State.updCtx_contexts (hctxs : s.tsu.contexts = [(c, x)]) (f : Ctx → Ctx) :
    (s.updCtx c f).tsu.contexts = [(c, f x)] := by
  simp only [State.updCtx, State.updTsu, hctxs, Tab.map, List.map_cons, List.map_nil, if_true]

/-- START of a named context starts it at its sentence, R371. -/
theorem State.orderApply_start {rec : Nat} {m : SchedImage} (hverb : o.verb = 4) (himage : (s.slice n).image = some m)
    (hscope : o.ctx = some rec) (hctxs : s.tsu.contexts = [(c, x)]) (hslice : x.slice = n) (hrec : x.record = rec) :
    s.orderApply n o [] = (s.ctxStart c o.sentence).orderRecord n o .none := by
  have hset : s.startSet n o = [(rec, o.sentence)] := by simp only [State.startSet, himage, hscope]
  have hstart : s.startCtx n rec o.sentence = s.ctxStart c o.sentence := by
    simp only [State.startCtx, State.ctxOf_of_one hctxs hslice hrec]
  have hget : Tab.get s.tsu.contexts c = some x := by rw [hctxs]; exact if_pos rfl
  have hheld : (s.ctxStart c o.sentence).ctxOf n rec = some c := by
    simp only [State.ctxStart, hget]
    exact State.ctxOf_of_one (State.updCtx_contexts hctxs _) hslice hrec
  simp only [State.orderApply, hverb, hset, List.foldl_cons, List.foldl_nil, hstart, List.all_cons, List.all_nil, hheld,
    Option.isSome_some, Bool.and_self, if_true]

theorem State.orderApply_resume (hverb : o.verb = 5) (hhalt : (s.slice n).state = .halted) (hctxs : s.tsu.contexts = [(c, x)])
    (hslice : x.slice = n) : s.orderApply n o [] = ((s.resumeCtx c).updSlice n fun v =>
      { v with state := .active, fence := none }).orderRecord n o .none := by
  have hmine : s.tsu.contexts.filter (fun p => p.2.slice = n && ((s.slice n).state ≠ .active || o.ctx = some p.2.record))
      = [(c, x)] := by
    rw [hctxs]
    exact List.filter_cons_of_pos (by simp only [hslice, hhalt, ne_eq, reduceCtorEq, not_false_iff, decide_true, Bool.true_or,
      Bool.and_self])
  simp only [State.orderApply, hverb, hmine, List.map_cons, List.map_nil, List.foldl_cons, List.foldl_nil]

end

/-! ## Fences, requests to a domain, and the completion ring -/

section
variable {s : State} {n : Nat} {o : Order} {w : Word}

theorem State.fenceComplete_of_clear (hstate : (s.slice n).state = .fencing) (hfence : (s.slice n).fence = some o)
    (hclear : s.fenceClear n = true) : s.fenceComplete n = (s.updSlice n fun v =>
      { v with state := .fenced, fence := none }).orderRecord n o .none := by
  simp only [State.fenceComplete, hfence, hstate, ne_eq, not_true, hclear, Bool.not_true, Bool.false_eq_true, or_self, if_false]

theorem State.fenceComplete_of_busy (hbusy : s.fenceClear n = false ∨ (s.slice n).fence = none) : s.fenceComplete n = s := by
  simp only [State.fenceComplete]
  split
  case h_1 p hfence =>
    rcases hbusy with hclear | hnone
    · exact if_pos (.inr (by rw [hclear, Bool.not_false]))
    · exact absurd (hfence.symm.trans hnone) (Option.some_ne_none p)
  case h_2 => rfl

theorem State.domainRequestGo_of_bound {v : Nat} {b : Binding} (hn : n < 64) (hact : (s.slice n).state = .active)
    (hword : (s.slice n).word 0x040 = v) (hb : (s.slice n).bindings[bitsOf v 28 25]? = some b) (hlow : 0 < bitsOf v 2 0)
    (hhigh : bitsOf v 2 0 ≤ 5) : s.domainRequestGo n =
      (s.updSlice n fun x => { x with orderSeq := ((s.slice n).orderSeq + 1) % 65536 }).domainRequest n b.tag
        (orderOf (bitsOf v 2 0) v 4 (srcSlice n) (((s.slice n).orderSeq + 1) % 65536)) 2 := by
  have hverb : ¬ (bitsOf v 2 0 = 0 ∨ 5 < bitsOf v 2 0) := by omega
  rw [State.domainRequestGo, State.spGuard_of_active hn hact]
  simp only [hword, State.updSlice_slice, if_true, hb, hverb, if_false]

theorem State.crTailWrite_of_active (hn : n < 64) (hact : (s.slice n).state = .active) : s.crTailWrite n w =
    ((s.updSlice n fun v => { v with crTail := w.toNat }).ringFlush n).ringVector n :=
  State.spGuard_of_active hn hact

theorem State.crConfigWrite_of_active {off : Nat} (hn : n < 64) (hact : (s.slice n).state = .active)
    (hoff : off = 0x024 ∨ off = 0x028) : s.crConfigWrite n off w =
      if (s.slice n).crHead ≠ (s.slice n).crTail then s.logT .sliceState (srcSlice n) 0 (some n)
      else s.updSlice n fun v => match off with
        | 0x024 => { v with crBase := w.toNat * 4294967296 + v.crBase % 4294967296 }
        | _ => { v with crSize := w.toNat % 32 } := by
  rcases hoff with rfl | rfl <;>
    exact (if_neg (by decide)).trans (State.spGuard_of_active hn hact)

end

/-- Settles O42: an order by the orders of its tick and by its verb, the ring's registers by its two counts. -/
theorem sliceOrderRules : Obligations.SliceOrderRules := by
  unfold Obligations.SliceOrderRules
  refine ⟨fun n v c o u s hc hn hact hu ho => ⟨fun hnone hvalid => ?_, fun hnone hvalid => ?_, fun w hone hover hverb hlater => ?_⟩,
    fun n w v c s hc hsel => ⟨fun hfree => ?_, fun hheld => ?_⟩, fun a b hrank => Order.before_of_rank hrank,
    fun a b hrank hsrc hverb => Order.before_of_verb hrank hsrc hverb,
    fun n o s hverb harms hlaunches hctxs hwaits htumbs hports hact =>
      State.orderApply_abort hverb ⟨harms, hlaunches, hctxs, hwaits, htumbs⟩ hports hact,
    fun n c x o s hverb hlaunches hctxs hslice hready => ?_,
    fun n c x o s hverb hlaunches hctxs hslice hscope => State.orderApply_stop hverb hlaunches hctxs hslice hscope,
    fun n c rec x m o s hverb himage hscope hctxs hslice hrec => State.orderApply_start hverb himage hscope hctxs hslice hrec,
    fun n c x o s hverb hhalt hctxs hslice => State.orderApply_resume hverb hhalt hctxs hslice,
    fun n o s hstate hfence hclear => ?_, fun n s hbusy => ?_, fun n w b s hn hact hword hb hlow hhigh => ?_,
    fun n w s hn hact => ?_, fun n w s hn hact hused => ?_, fun n w s hn hact hempty => ⟨?_, ?_⟩, fun s => ⟨rfl, rfl⟩⟩
  · rw [exec_order hc, State.regOrder_of_page hn hact, ← hu]
    refine congrArg Host.Outcome.next ((State.order_of_first (hu ▸ hnone)).trans ?_)
    rw [← ho, if_pos hvalid]
  · rw [exec_order hc, State.regOrder_of_page hn hact, ← hu]
    refine congrArg Host.Outcome.next ((State.order_of_first (hu ▸ hnone)).trans ?_)
    rw [← ho, if_neg (hvalid ▸ Bool.false_ne_true)]
  · rw [exec_order hc, State.regOrder_of_page hn hact, ← hu]
    refine congrArg Host.Outcome.next ?_
    rw [ho] at hover hlater ⊢
    exact State.order_of_later (hu ▸ hone) hover hlater
  · rw [exec_order hc, State.regOrder_of_driver hsel, if_pos hfree]
  · rw [exec_order hc, State.regOrder_of_driver hsel, if_neg hheld]
  · have heq := State.orderApply_fence hverb hlaunches hctxs hslice hready
    refine ⟨?_, ?_, ?_⟩
    · rw [heq, State.updSlice_slice, if_pos rfl]
    · rw [heq, State.updSlice_slice, if_pos rfl]
    · have hget : Tab.get s.tsu.contexts c = some x := by rw [hctxs]; exact if_pos rfl
      have hhalt := State.updCtx_get s c fun x =>
        { x with state := .halted, block := .none, topnd := none, haltCode := .none, altClause := none }
      rw [hget, Option.map_some] at hhalt
      rw [heq]
      exact congrArg (Option.map (·.state)) hhalt
  · exact congrArg Host.Outcome.next (State.fenceComplete_of_clear hstate hfence hclear)
  · exact congrArg Host.Outcome.next (State.fenceComplete_of_busy hbusy)
  · exact congrArg Host.Outcome.next (State.domainRequestGo_of_bound hn hact hword hb hlow hhigh)
  · exact congrArg Host.Outcome.next (State.crTailWrite_of_active hn hact)
  · exact congrArg Host.Outcome.next ((State.crConfigWrite_of_active hn hact (.inr rfl)).trans (if_pos hused))
  · exact congrArg Host.Outcome.next ((State.crConfigWrite_of_active hn hact (.inr rfl)).trans (if_neg (not_not_intro hempty)))
  · exact congrArg Host.Outcome.next ((State.crConfigWrite_of_active hn hact (.inl rfl)).trans (if_neg (not_not_intro hempty)))

end Sys2Proof.Machine
end

section
/-! Messages of a domain at a distributor, and the latency reports (R199 to R206, R216 to R222, R255 to R263). -/

namespace Sys2Proof.Machine

open Sys2Proof

/-! ## The stores of domains and of soft tumblers -/

section
variable {s : State} {tag : BitVec 24} {index : Nat}

theorem State.updDom_dom? (s : State) (tag : BitVec 24) (f : GdDom → GdDom) :
    (s.updDom tag f).dom? tag = (s.dom? tag).map f := by
  cases hget : Tab.get s.gd.doms tag.toNat with
  | none => simp only [State.updDom, State.dom?, State.updGd_gd, hget, Option.map_none]
  | some d => simp only [State.updDom, State.dom?, State.updGd_gd, hget, Tab.get_put, if_true, Option.map_some]

theorem State.updSoft_soft? (s : State) (tag : BitVec 24) (index : Nat) (f : Soft → Soft) :
    (s.updSoft tag index f).soft? tag index = (s.soft? tag index).map f := by
  cases hget : Tab.get s.gd.softs (softKey tag index) with
  | none => simp only [State.updSoft, State.soft?, State.updGd_gd, hget, Option.map_none]
  | some e => simp only [State.updSoft, State.soft?, State.updGd_gd, hget, Tab.get_put, if_true, Option.map_some]

theorem State.updLink_dom? (s : State) (l : LinkId) (f : Link → Link) (tag : BitVec 24) :
    (s.updLink l f).dom? tag = s.dom? tag := by
  obtain ⟨n, p⟩ := l
  cases n <;> rfl

theorem State.openSoft_of_held {d : GdDom} {gen : BitVec 2} {e : Soft} (hsoft : s.soft? d.dr.tag index = some e) :
    s.openSoft d index gen = (s, e) := by
  simp only [State.openSoft, hsoft]

end

/-! ## Frames of a message -/

section
variable {s u : State} {l : LinkId} {rx : Rx} {type : Nat} {count : Frame → Nat} {code : ErrCode} {f h : Frame} {fs : List Frame}

theorem State.gdFrame_of_none (hrx : s.receive l rx type = (u, none)) : s.gdFrame l rx type count code = (u, .gone) := by
  simp only [State.gdFrame, hrx]

theorem State.gdFrame_of_roleless (hrx : s.receive l rx type = (u, some f)) (hrole : u.gd.hasRole = false) :
    s.gdFrame l rx type count code = (u, .gone) := by
  simp only [State.gdFrame, hrx, hrole, Bool.not_false, if_true]

/-- A frame that begins or goes on with a message this distributor takes is put to the chain as it came. -/
theorem State.gdFrame_of_counted (hrx : s.receive l rx type = (u, some f)) (hrole : u.gd.hasRole = true)
    (htaken : (u.link l).chainOf f.cls.toNat ≠ [] ∨ count f ≠ 0) : s.gdFrame l rx type count code = u.chain l f count := by
  simp only [State.gdFrame, hrx, hrole, Bool.not_true, Bool.false_eq_true, if_false, htaken, if_true]

theorem State.gdFrame_of_malformed (hrx : s.receive l rx type = (u, some f)) (hrole : u.gd.hasRole = true)
    (hchain : (u.link l).chainOf f.cls.toNat = []) (hcount : count f = 0) :
    s.gdFrame l rx type count .frameMalformed = (u.malformed l).chain l f count := by
  simp only [State.gdFrame, hrx, hrole, Bool.not_true, Bool.false_eq_true, if_false, hchain, hcount, ne_eq, not_true, or_self,
    if_true]

theorem State.malformed_chainOf (s : State) (l : LinkId) (cls : Nat) :
    ((s.malformed l).link l).chainOf cls = (s.link l).chainOf cls := by
  rw [State.malformed, State.log_link, State.updLink_link]
  rfl

theorem State.chain_of_single (hchain : (s.link l).chainOf f.cls.toNat = []) (hlast : f.more = false) (hcount : count f = 1) :
    s.chain l f count = (s.updLink l fun k => k.setChain f.cls.toNat [], .whole [f]) := by
  simp [State.chain, hchain, hlast, hcount]

theorem State.chain_of_refused (hchain : (s.link l).chainOf f.cls.toNat = []) (hlast : f.more = false) (hcount : count f = 0) :
    s.chain l f count = (s.updLink l fun k => k.setChain f.cls.toNat [], .gone) := by
  simp [State.chain, hchain, hlast, hcount]

/-- What a further frame does to a message under way, R263: MORE and the count agree, or the message breaks off. -/
theorem State.chain_of_further (hchain : (s.link l).chainOf f.cls.toNat = h :: fs) (hcount : count h ≠ 0) :
    s.chain l f count =
      if f.more ≠ decide (fs.length + 2 < count h) then
        (((s.updLink l fun k => k.setChain f.cls.toNat []).malformed l).chainLost l h, .gone)
      else if f.more then (s.updLink l fun k => k.setChain f.cls.toNat (h :: fs ++ [f]), .part (h :: fs ++ [f]))
      else (s.updLink l fun k => k.setChain f.cls.toNat [], .whole (h :: fs ++ [f])) := by
  have hlen : (h :: fs ++ [f]).length = fs.length + 2 := by
    rw [List.length_append, List.length_cons, List.length_singleton]
  simp only [State.chain, hchain]
  rw [hlen]
  simp only [List.cons_append, List.head?_cons, Option.getD_some, hcount, if_false]
  rfl

theorem State.gdMessage_of_gone (hframe : s.gdFrame l rx type count code = (u, .gone)) :
    s.gdMessage l rx type count code = (u, none) := by
  simp only [State.gdMessage, hframe]

theorem State.gdMessage_of_whole (hframe : s.gdFrame l rx type count code = (u, .whole (f :: fs))) :
    s.gdMessage l rx type count code = match u.dom? f.domain with
      | some d => (u, some (d, f :: fs))
      | none => (u.logG .domainStale l.port, none) := by
  simp only [State.gdMessage, hframe, List.head?_cons, Option.map_some, Option.getD_some] <;> rfl

end

/-! ## Messages upward -/

section
variable {s u v : State} {l : LinkId} {rx : Rx} {d : GdDom} {dr : DomRec} {p i c : Nat} {fs : List Frame} {f : Frame}
  {die : Option Nat} {copy : Bool} {e : Soft}

theorem State.upPart_of_foreign (hport : l.port < 64) (hmember : s.gd.childOfPort l.port ∉ s.gd.members dr) :
    s.upPart l dr c fs die = (s.logG .notParticipant l.port, none) := by
  have hout : (s.gd.members dr).contains (s.gd.childOfPort l.port) = false := by simpa using hmember
  simp only [State.upPart, State.upPlace, hport, if_true, hout, Bool.not_false]

theorem State.upPart_of_member (hport : l.port < 64) (hmember : s.gd.childOfPort l.port ∈ s.gd.members dr)
    (hdirect : (fs.head?.map (·.detour)).getD false = false) : s.upPart l dr c fs die =
      if s.acts dr then (s, some (s.gd.childOfPort l.port, false)) else (s.gdUp dr c 0 fs true l.port, none) := by
  have hin : (s.gd.members dr).contains (s.gd.childOfPort l.port) = true := by simpa using hmember
  simp only [State.upPart, State.upPlace, hport, if_true, hin, Bool.not_true, Bool.false_eq_true, if_false, hdirect, false_and]
  cases s.acts dr <;> rfl

theorem State.arriveRx_of_gone (hframe : s.gdFrame ⟨.gd, p⟩ rx 0x10 s.arriveCount .combineUnsupported = (u, .gone)) :
    s.arriveRx ⟨.gd, p⟩ rx = u := by
  simp only [State.arriveRx, reduceCtorEq, if_false, hframe]

theorem State.arriveRx_of_part (hframe : s.gdFrame ⟨.gd, p⟩ rx 0x10 s.arriveCount .combineUnsupported = (u, .part (f :: fs)))
    (hdom : u.dom? f.domain = some d) (hfree : u.heldOff ⟨.gd, p⟩ d.dr.tag = false)
    (hplace : u.upPlace ⟨.gd, p⟩ d.dr f.detour (some f.fDie) = .child i copy) :
    s.arriveRx ⟨.gd, p⟩ rx = u.gdUnderway d i (f :: fs) := by
  simp only [State.arriveRx, reduceCtorEq, if_false, hframe, List.headD_cons, hdom, hfree, Bool.false_eq_true, hplace]

/-- What becomes of a whole ARRIVE message by its domain, R255. -/
theorem State.arriveRx_of_whole (hframe : s.gdFrame ⟨.gd, p⟩ rx 0x10 s.arriveCount .combineUnsupported = (u, .whole (f :: fs))) :
    s.arriveRx ⟨.gd, p⟩ rx = match u.dom? f.domain with
      | none => u.logG .domainStale p
      | some d =>
        if u.heldOff ⟨.gd, p⟩ d.dr.tag then
          u.updGd fun g => { g with absorbed := min (g.absorbed + b2n (g.domRst.contains d.dr.tag)) 0xFFFF }
        else match u.upPart ⟨.gd, p⟩ d.dr 2 (f :: fs) (some f.fDie) with
          | (s, some (i, copy)) => s.gdArrive d p i copy (f :: fs)
          | (s, none) => s := by
  simp only [State.arriveRx, reduceCtorEq, if_false, hframe, List.headD_cons] <;> rfl

/-- An ARRIVE of one frame for an index that the domain has, by its generation, R259. -/
theorem State.gdArrive_of_held (hindex : f.fIndex < d.dr.tumblers) (hopen : d.waiting = false)
    (hsoft : s.soft? d.dr.tag f.fIndex = some e) (hin : i ∉ e.out) : s.gdArrive d p i copy [f] =
      if f.gen = e.lastGen + 1 then
        if i ∈ e.marks then s.dupArrive d.dr.tag f.fIndex
        else if e.desc.isSome ∧ e.desc ≠ some f.fDesc then (s.logG .combineMismatch p i).mismatched d i f.fIndex
        else
          let later : Bool := e.marks = [] || decide (0 < sdiff 32 f.fNs.toNat e.latestNs.toNat)
          let u := s.updSoft d.dr.tag f.fIndex fun y => { y.take i f.fDesc (arriveData [f]) 1 (s.aon .gd) with
            marks := y.marks ++ [i], members := (y.members + f.fMembers) % 524288, short := y.short || f.f49, step16 := f.step16,
            latestDie := if later then f.fDie else y.latestDie, latestNs := if later then f.fNs else y.latestNs }
          (if copy = false ∧ u.serves d.dr e = true then u.mirror 2 [f] else u).softCheck d.dr.tag f.fIndex
      else if f.gen = e.lastGen + 2 then s.logG .genSkip p
      else s.dupArrive d.dr.tag f.fIndex := by
  have hout : e.out.contains i = false := by simpa using hin
  simp only [State.gdArrive, Nat.not_le.mpr hindex, hopen, Bool.false_eq_true, or_self, if_false, State.openSoft_of_held hsoft, hout,
    List.contains_iff_mem, List.length_singleton, Bool.not_eq_true']

theorem State.softCheck_of_lacking {tag : BitVec 24} {index : Nat} (hdom : s.dom? tag = some d) (hsoft : s.soft? tag index = some e)
    (hlacks : ∃ i ∈ s.expected d.dr e, i ∉ e.marks) : s.softCheck tag index = s := by
  obtain ⟨i, hi, hmark⟩ := hlacks
  have hall : ((s.expected d.dr e).all e.marks.contains) = false :=
    List.all_eq_false.mpr ⟨i, hi, by simpa using hmark⟩
  simp only [State.softCheck, hdom, hsoft, hall, Bool.not_false, true_or, or_true, if_true]

end

/-! ## Messages downward -/

section
variable {s u : State} {rx : Rx} {d : GdDom} {p : Nat} {fs : List Frame} {f : Frame} {copy launch : Bool} {e : Soft}

theorem State.gdDownMsg_of_above (hport : p = 64 ∨ p = 65)
    (hmsg : s.gdMessage ⟨.gd, p⟩ rx (if launch then 0x08 else 0x11) (s.downFrames launch) (s.downCode rx) = (u, some (d, fs))) :
    s.gdDownMsg ⟨.gd, p⟩ rx launch = u.gdDownRx d p launch false fs := by
  have hlow : ¬ p < 64 := by omega
  have hup : p < 66 := by omega
  simp only [State.gdDownMsg, reduceCtorEq, if_false, hmsg, hlow, hup, if_true]

theorem State.gdDownRx_of_repeat (hindex : f.fIndex < d.dr.tumblers) (hopen : d.waiting = false)
    (hsoft : s.soft? d.dr.tag f.fIndex = some e) (hgen : f.gen = e.lastGen) : s.gdDownRx d p launch copy [f] = s := by
  simp only [State.gdDownRx, Nat.not_le.mpr hindex, hopen, Bool.false_eq_true, or_self, if_false, State.openSoft_of_held hsoft, hgen,
    if_true]

/-- The mirrored turn of the next generation is passed and goes no further, R200. -/
theorem State.gdDownRx_of_next (hindex : f.fIndex < d.dr.tumblers) (hopen : d.waiting = false) (hstep : d.dr.stepEn = false)
    (hsoft : s.soft? d.dr.tag f.fIndex = some e) (hgen : f.gen = e.lastGen + 1) : s.gdDownRx d p false true [f] =
      s.passTurn d f.fIndex f.gen (extendNs (s.now .gd) f.time) := by
  simp only [State.gdDownRx, Nat.not_le.mpr hindex, hopen, Bool.false_eq_true, or_self, if_false, State.openSoft_of_held hsoft, hgen,
    gen_succ_ne, if_true, State.journalTurn, hstep, false_and]

end

/-! ## Latency reports -/

section
variable {s u : State} {rx : Rx} {p i : Nat} {f : Frame} {tag : BitVec 24} {v : DlatIn} {d : GdDom}

theorem State.latencyRx_of_domain (hrx : s.receive ⟨.gd, p⟩ rx 0x0B = (u, some f)) (hrole : u.gd.hasRole = true)
    (hport : p < u.gd.fan) (hdomain : f.domain ≠ 0) : s.latencyRx ⟨.gd, p⟩ rx =
      u.dlatTake f.domain p ⟨f.nat 12 4, bitOf (f.byte 16) 0, bitOf (f.byte 16) 1, f.nat 17 3 % 262144⟩ := by
  simp only [State.latencyRx, reduceCtorEq, if_false, hrx, hrole, Bool.not_true, Bool.false_eq_true, Nat.not_le.mpr hport, or_self,
    hdomain]

theorem State.dlatTake_of_member (hdom : s.dom? tag = some d) (hmember : i ∈ s.gd.members d.dr) (hvalid : v.valid = true) :
    s.dlatTake tag i v = s.updDom tag fun x =>
      { x with dlat := Tab.put x.dlat i v, dlatOld := if x.dlatAt = s.aon .gd then x.dlatOld else x.dlat, dlatAt := s.aon .gd } := by
  have hin : (s.gd.members d.dr).contains i = true := by simpa using hmember
  simp only [State.dlatTake, hdom, hin, Bool.not_true, Bool.false_eq_true, if_false, State.updDom_dom?, Option.map_some, hvalid,
    and_false]

theorem State.tsuLatencySend_of_first (hp : p < 2) (hup : s.trained ⟨.tsu, p⟩ = true) (hnone : Tab.get s.tsu.sentDlat p = none) :
    s.tsuLatencySend p = (s.updTsu fun t => { t with sentDlat := Tab.put t.sentDlat p (s.laneDlat p, true, s.tsu.com.time.aon) }).send
      ⟨.tsu, p⟩ 1 0 [mkFrame 0x0B 1 0 0 0 0 (natBytes (s.laneDlat p) 4 ++ natBytes (1 + 2 * b2n (s.link ⟨.tsu, p⟩).fallback) 1
        ++ natBytes (s.tsu.dieId.getD 0) 3)] := by
  simp only [State.tsuLatencySend, hup, Bool.not_true, Bool.false_eq_true, Nat.not_le.mpr hp, or_self, if_false, hnone]
  rfl

/-- A report that stands within its period is not sent again, R217. -/
theorem State.tsuLatencySend_of_standing {at0 : Nat} (hsent : Tab.get s.tsu.sentDlat p = some (s.laneDlat p, true, at0))
    (hsoon : s.tsu.com.time.aon < at0 + 100000000) : s.tsuLatencySend p = s := by
  have hquiet : ((!true || decide (s.laneDlat p < s.laneDlat p) || decide (s.laneDlat p + 1000 < s.laneDlat p)
      || decide (at0 + 100000000 ≤ s.tsu.com.time.aon)) : Bool) = false := by
    rw [decide_eq_false (Nat.lt_irrefl _), decide_eq_false (by omega), decide_eq_false (Nat.not_le.mpr hsoon)]
    rfl
  simp only [State.tsuLatencySend, hsent, hquiet, Bool.not_false, if_true, ite_self]

end

/-- Settles O43: a message by its frames, its port and its domain, an arrival by its generation. -/
theorem domainMessageRules : Obligations.DomainMessageRules := by
  unfold Obligations.DomainMessageRules
  refine ⟨fun l rx T count code s u hrx => State.gdMessage_of_gone (State.gdFrame_of_none hrx),
    fun l rx T count code f s u hrx => ⟨fun hrole => State.gdMessage_of_gone (State.gdFrame_of_roleless hrx hrole),
      fun hrole hchain hlast hcount => ?_, fun hrole hchain hlast hcount hcode => ?_,
      fun h fs hrole hchain hcount => ⟨fun hmore hlen => ?_, fun hlast hlen => ?_, fun hmore hlen => ?_⟩⟩,
    fun l d c fs die s hport => ⟨fun hout => State.upPart_of_foreign hport hout, fun hin hdirect =>
      ⟨fun hacts => (State.upPart_of_member hport hin hdirect).trans (if_pos hacts),
        fun hacts => (State.upPart_of_member hport hin hdirect).trans (if_neg (hacts ▸ Bool.false_ne_true))⟩⟩,
    fun p rx s u hframe => ?_, fun p i copy rx d f fs s u hframe hdom hfree hplace => ?_,
    fun p rx f fs s u hframe => ⟨fun hdom => ?_, fun d hdom hheld => ?_, fun d v i copy hdom hfree hpart => ?_⟩,
    fun d p i e f copy s hindex hopen hsoft hin => ⟨fun u hgen hmark hdesc hmarks hu => ?_, fun hgen hmark hsome hdesc => ?_,
      fun hgen hmark => ?_, fun hgen => ?_, fun hgen => ?_, fun hgen => ?_⟩,
    fun tag index d e s hdom hsoft hlacks => State.softCheck_of_lacking hdom hsoft hlacks,
    fun p rx d fs s u hport => ⟨fun hmsg => ?_, fun hmsg => ?_⟩,
    fun d p e f copy launch s hindex hopen hsoft hgen => State.gdDownRx_of_repeat hindex hopen hsoft hgen,
    fun d p e f c s hindex hopen hstep hsoft hgen hc => ⟨?_, ?_⟩, fun p rx f s u hrx hrole hport hdomain => ?_,
    fun tag i v d s hdom htag hin hvalid => ?_, fun p tag s hp hup hnone => ?_, fun p at0 tag s hsent hsoon => ?_⟩
  · have hframe := (State.gdFrame_of_counted (code := code) hrx hrole (.inr (by rw [hcount]; exact Nat.one_ne_zero))).trans
      (State.chain_of_single hchain hlast hcount)
    have hmsg := State.gdMessage_of_whole hframe
    rw [State.updLink_dom?] at hmsg
    exact ⟨fun d hdom => hmsg.trans (by rw [hdom]), fun hdom => hmsg.trans (by rw [hdom])⟩
  · subst hcode
    refine State.gdMessage_of_gone ((State.gdFrame_of_malformed hrx hrole hchain hcount).trans ?_)
    exact State.chain_of_refused ((State.malformed_chainOf ..).trans hchain) hlast hcount
  · refine (State.gdFrame_of_counted hrx hrole (.inl (hchain ▸ List.cons_ne_nil h fs))).trans ?_
    rw [State.chain_of_further hchain hcount, hmore, decide_eq_true hlen, if_neg (not_not_intro rfl), if_pos rfl]
  · refine (State.gdFrame_of_counted hrx hrole (.inl (hchain ▸ List.cons_ne_nil h fs))).trans ?_
    rw [State.chain_of_further hchain hcount, hlast, decide_eq_false (by omega), if_neg (not_not_intro rfl), if_neg Bool.false_ne_true]
  · refine State.gdMessage_of_gone ((State.gdFrame_of_counted hrx hrole (.inl (hchain ▸ List.cons_ne_nil h fs))).trans ?_)
    rw [State.chain_of_further hchain hcount, hmore, decide_eq_false (Nat.not_lt.mpr hlen), if_pos (Ne.symm Bool.false_ne_true)]
  · exact congrArg (fun t : State => Host.Outcome.next (t.cutThrough s ⟨.gd, p⟩ rx)) (State.arriveRx_of_gone hframe)
  · exact congrArg (fun t : State => Host.Outcome.next (t.cutThrough s ⟨.gd, p⟩ rx))
      (State.arriveRx_of_part hframe hdom hfree hplace)
  · refine congrArg (fun t : State => Host.Outcome.next (t.cutThrough s ⟨.gd, p⟩ rx)) ((State.arriveRx_of_whole hframe).trans ?_)
    rw [hdom]
  · refine congrArg (fun t : State => Host.Outcome.next (t.cutThrough s ⟨.gd, p⟩ rx)) ((State.arriveRx_of_whole hframe).trans ?_)
    rw [hdom]
    exact if_pos hheld
  · refine congrArg (fun t : State => Host.Outcome.next (t.cutThrough s ⟨.gd, p⟩ rx)) ((State.arriveRx_of_whole hframe).trans ?_)
    rw [hdom]
    refine (if_neg (hfree ▸ Bool.false_ne_true)).trans ?_
    rw [hpart]
  · have hmatch : ¬ (e.desc.isSome ∧ e.desc ≠ some f.fDesc) := by
      rcases hdesc with h | h <;> simp [h]
    subst hu
    rw [State.gdArrive_of_held hindex hopen hsoft hin, if_pos hgen, if_neg hmark, if_neg hmatch]
    simp only [hmarks, decide_false, Bool.false_or, decide_eq_true_eq]
    rfl
  · rw [State.gdArrive_of_held hindex hopen hsoft hin, if_pos hgen, if_neg hmark,
      if_pos ⟨Option.isSome_iff_ne_none.mpr hsome, hdesc⟩]
  · rw [State.gdArrive_of_held hindex hopen hsoft hin, if_pos hgen, if_pos hmark]
  · have hne : f.gen ≠ e.lastGen + 1 ∧ f.gen ≠ e.lastGen + 2 := by rw [hgen]; generalize e.lastGen = g; revert g; decide
    rw [State.gdArrive_of_held hindex hopen hsoft hin, if_neg hne.1, if_neg hne.2]
  · have hne : f.gen ≠ e.lastGen + 1 := by rw [hgen]; generalize e.lastGen = g; revert g; decide
    rw [State.gdArrive_of_held hindex hopen hsoft hin, if_neg hne, if_pos hgen]
  · have hne : f.gen ≠ e.lastGen + 1 ∧ f.gen ≠ e.lastGen + 2 := by rw [hgen]; generalize e.lastGen = g; revert g; decide
    rw [State.gdArrive_of_held hindex hopen hsoft hin, if_neg hne.1, if_neg hne.2]
  · exact congrArg (fun t : State => Host.Outcome.next (t.cutThrough s ⟨.gd, p⟩ rx))
      (State.gdDownMsg_of_above (launch := false) hport hmsg)
  · exact congrArg (fun t : State => Host.Outcome.next (t.cutThrough s ⟨.gd, p⟩ rx))
      (State.gdDownMsg_of_above (launch := true) hport hmsg)
  · rw [hc]
    exact State.gdDownRx_of_next hindex hopen hstep hsoft hgen
  · rw [State.passTurn, State.updSoft_soft?, hsoft]
    exact ⟨_, rfl, rfl, rfl, rfl, rfl, rfl, rfl, rfl⟩
  · exact congrArg (fun t : State => Host.Outcome.next (t.cutThrough s ⟨.gd, p⟩ rx))
      (State.latencyRx_of_domain hrx hrole hport hdomain)
  · rw [State.dlatTake_of_member hdom hin hvalid, State.updDom_dom?, hdom]
    exact (Tab.get_put ..).trans (if_pos rfl)
  · exact congrArg Host.Outcome.next (State.tsuLatencySend_of_first hp hup hnone)
  · exact congrArg Host.Outcome.next (State.tsuLatencySend_of_standing hsent hsoon)

end Sys2Proof.Machine
end

section
/-! Domain aborts and orders at both parts (R243 to R246, R369, R370). -/

namespace Sys2Proof.Machine

open Sys2Proof

theorem State.cutThrough_of_tsu (u s : State) (p : Nat) (rx : Rx) : u.cutThrough s ⟨.tsu, p⟩ rx = u := by
  simp only [State.cutThrough, reduceCtorEq, false_and, if_false]

/-! ## At a TSU -/

section
variable {s u : State} {p n : Nat} {rx : Rx} {f : Frame}

theorem execAbortFrameRx_of_tsu (hrx : s.receive ⟨.tsu, p⟩ rx 0x09 = (u, some f)) (hmore : f.more = false) :
    execAbortFrameRx ⟨.tsu, p⟩ rx s = .next (u.tsuAbortRx ⟨.tsu, p⟩ f) := by
  simp only [execAbortFrameRx, hrx, hmore, Bool.false_eq_true, if_false, State.cutThrough_of_tsu]

theorem execOrderFrameRx_of_tsu (hrx : s.receive ⟨.tsu, p⟩ rx 0x0C = (u, some f)) (hmore : f.more = false) :
    execOrderFrameRx ⟨.tsu, p⟩ rx s = .next (u.tsuOrderRx ⟨.tsu, p⟩ f) := by
  simp only [execOrderFrameRx, hrx, hmore, Bool.false_eq_true, if_false, State.cutThrough_of_tsu]

theorem State.tsuAbortRx_of_bound {l : LinkId} (hslice : s.sliceOf f.domain = some n) (hdown : f.f49 = false) : s.tsuAbortRx l f =
    s.order n ⟨1, some 0, 0, 1, srcLane l.port, f.nat 12 2, false⟩ [(f.domain, f.nat 12 2)] := by
  simp only [State.tsuAbortRx, hslice, hdown, Bool.false_eq_true, if_false]

theorem State.tsuAbortRx_of_stale {l : LinkId} (hslice : s.sliceOf f.domain = none) :
    s.tsuAbortRx l f = s.logT .domainStale (srcLane l.port) := by
  simp only [State.tsuAbortRx, hslice]

theorem State.tsuOrderRx_of_bound {l : LinkId} (hslice : s.sliceOf f.domain = some n) (hdown : f.f49 = false) (hlow : 2 ≤ f.byte 17)
    (hhigh : f.byte 17 ≤ 5) : s.tsuOrderRx l f = s.order n ⟨f.byte 17, if bitOf (f.byte 18) 5 then none else some (f.byte 18 % 32),
      f.byte 19, if f.f48 then 2 else 3, srcLane l.port, f.nat 12 2, false⟩ := by
  simp only [State.tsuOrderRx, Nat.not_lt.mpr hlow, Nat.not_lt.mpr hhigh, hdown, Bool.false_eq_true, or_self, if_false, hslice]

theorem State.tsuOrderRx_of_badVerb {l : LinkId} (hverb : f.byte 17 < 2 ∨ 5 < f.byte 17) :
    s.tsuOrderRx l f = s.malformed l :=
  if_pos (hverb.elim .inl fun h => .inr (.inl h))

end

/-! ## Requests and broadcasts at a distributor -/

section
variable {s u v : State} {p i : Nat} {l : LinkId} {rx : Rx} {d x : GdDom} {f : Frame} {pod copy abort : Bool} {tag : BitVec 24}
  {w : Word}

theorem State.gdAbortRx_of_frame (hmsg : s.gdMessage l rx 0x09 (fun _ => 1) = (u, some (d, [f]))) :
    s.gdAbortRx l rx = if f.f49 then u.gdRequest l d f true else u.gdBroadcast l d f true := by
  simp only [State.gdAbortRx, hmsg]

theorem State.gdOrderRx_of_frame
    (hmsg : s.gdMessage l rx 0x0C (fun f => if 2 ≤ f.byte 17 ∧ f.byte 17 ≤ 5 then 1 else 0) = (u, some (d, [f]))) :
    s.gdOrderRx l rx = if f.f49 then u.gdRequest l d f false else u.gdBroadcast l d f false := by
  simp only [State.gdOrderRx, hmsg]

/-- A request is answered where requests of its domain are taken, R246. -/
theorem State.gdRequest_of_taken (hpart : u.upPart l d.dr 1 [f] none = (v, some (i, copy))) (htakes : v.takesRequests d = some pod) :
    u.gdRequest l d f abort = if abort then v.abortRequest d pod f.step16 (((padTo 48 f.body).drop 2).take 3) (f.byte 17)
      else v.orderRequest d pod f := by
  simp only [State.gdRequest, hpart, htakes]

theorem State.gdBroadcast_of_above (hport : p = 64 ∨ p = 65) (hpartner : p ≠ s.gd.partnerPort)
    (hnew : ¬ (d.abortOpen = true ∧ d.abortId = f.nat 12 2)) :
    s.gdBroadcast ⟨.gd, p⟩ d f true = s.abortStart d (f.nat 12 2) f f.detour := by
  have hup : ¬ (p < 64 ∨ (66 ≤ p ∧ p ≠ s.gd.partnerPort)) := by omega
  simp only [State.gdBroadcast, hup, hpartner, if_false, false_and, if_true, hnew]

theorem State.abortRequest_of_open {st : BitVec 16} {o : List Byte} {r : Nat} (hopen : d.abortOpen = true) :
    s.abortRequest d pod st o r = s := if_pos hopen

theorem State.abortRequest_of_closed {st : BitVec 16} {o : List Byte} {r : Nat} (hclosed : d.abortOpen = false) :
    s.abortRequest d false st o r = s.abortStart d ((d.abortId + 1) % 65536) (mkFrame 0x09 1 0 d.dr.tag st (s.now .gd).ns32
      (natBytes ((d.abortId + 1) % 65536) 2 ++ o ++ natBytes r 1)) false := by
  simp only [State.abortRequest, hclosed, nextId, Bool.false_eq_true, if_false]

theorem State.updDom_time (s : State) (tag : BitVec 24) (f : GdDom → GdDom) : (s.updDom tag f).time .gd = s.time .gd := by
  refine State.updGd_time s fun g => ?_
  split <;> rfl

theorem State.orderRequest_of_own : s.orderRequest d false f = (s.updDom d.dr.tag fun x =>
    { x with orderSeq := (d.orderSeq + 1) % 65536 }).broadcast d { f with
      f49 := false, time := (s.now .gd).ns32, body := natBytes ((d.orderSeq + 1) % 65536) 2 ++ (padTo 48 f.body).drop 2 } false := by
  simp only [State.orderRequest, nextId, Bool.false_eq_true, if_false, State.now, State.updDom_time]

/-! ## ABORT_DONE -/

/-- ABORT_DONE of a child of a domain that is held. -/
theorem State.gdAbortDone_of_child (hmsg : s.gdMessage l rx 0x0A (fun _ => 1) = (u, some (d, [f])))
    (hpart : u.upPart l d.dr 1 [f] (some (f.nat 24 3 % 262144)) = (v, some (i, false))) (hdom : v.dom? d.dr.tag = some x) :
    s.gdAbortDone l rx =
      if !x.abortOpen ∨ x.abortId ≠ f.nat 12 2 ∨ x.abortDone.contains i then v
      else
        let later : Bool := x.abortDone = [] || decide (0 < sdiff 32 (BitVec.ofNat 32 (f.nat 20 4)).toNat x.abLastNs.toNat)
        (v.updDom x.dr.tag fun y =>
          { y with abortDone := y.abortDone ++ [i], abDone := (y.abDone + f.nat 14 3 % 524288) % 524288,
                   abMiss := (y.abMiss + f.nat 17 3 % 524288) % 524288,
                   abLastNs := if later then BitVec.ofNat 32 (f.nat 20 4) else y.abLastNs,
                   abLastDie := if later then f.nat 24 3 % 262144 else y.abLastDie }).abortProgress x.dr.tag false := by
  simp only [State.gdAbortDone, hmsg, hpart, hdom]

theorem State.abortProgress_of_closed {expired : Bool} (hdom : s.dom? tag = some d) (hclosed : d.abortOpen = false) :
    s.abortProgress tag expired = s := by
  simp only [State.abortProgress, hdom, hclosed, Bool.not_false, if_true]

theorem State.abortProgress_of_open {expired : Bool} (hdom : s.dom? tag = some d) (hopen : d.abortOpen = true) :
    s.abortProgress tag expired = if (s.abortKids d).all d.abortDone.contains ∨ (expired ∧ d.abortAt + s.gd.abortWait ≤ s.aon .gd)
      then s.abortEnd d else s := by
  simp only [State.abortProgress, hdom, hopen, Bool.not_true, Bool.false_eq_true, if_false]

/-! ## GD_ABORT_CTRL and GD_ORDER_CTRL -/

theorem State.gdAbortGo_of_view (hgo : w.toNat.testBit 24 = false) : s.gdAbortGo w = s.setReg .gd 0x500 (w &&& 0xFFFFFF#32) := by
  have hbit : bitOf w.toNat 24 = false := hgo
  simp only [State.gdAbortGo, hbit, Bool.not_false, if_true]

theorem State.setReg_dom? (s : State) (off : Nat) (w : Word) (tag : BitVec 24) : (s.setReg .gd off w).dom? tag = s.dom? tag := rfl

theorem State.gdAbortGo_of_go (hgo : w.toNat.testBit 24 = true) (hdom : s.dom? (BitVec.ofNat 24 w.toNat) = some d)
    (htakes : (s.setReg .gd 0x500 (w &&& 0xFFFFFF#32)).takesRequests d = some false) : s.gdAbortGo w =
      (s.setReg .gd 0x500 (w &&& 0xFFFFFF#32)).abortRequest d false 0 (natBytes (s.gd.locator.getD 0) 3) 4 := by
  have hbit : bitOf w.toNat 24 = true := hgo
  simp only [State.gdAbortGo, hbit, Bool.not_true, Bool.false_eq_true, if_false, State.setReg_dom?, hdom, htakes]
  rfl

theorem State.gdOrderGo_of_badVerb (hgo : w.toNat.testBit 24 = true) (hverb : bitsOf w.toNat 2 0 < 2 ∨ 5 < bitsOf w.toNat 2 0) :
    s.gdOrderGo w = (s.setReg .gd 0x514 (w &&& 0xFF01FF#32)).updCom .gd fun c => c.accessErr 4 0x514 := by
  have hbit : bitOf w.toNat 24 = true := hgo
  simp only [State.gdOrderGo, hbit, Bool.not_true, Bool.false_eq_true, if_false, hverb, if_true]

theorem State.gdOrderGo_of_go (hgo : w.toNat.testBit 24 = true) (hlow : 2 ≤ bitsOf w.toNat 2 0) (hhigh : bitsOf w.toNat 2 0 ≤ 5)
    (hu : u = s.setReg .gd 0x514 (w &&& 0xFF01FF#32)) (hdom : u.dom? (BitVec.ofNat 24 (u.reg .gd 0x500)) = some d)
    (htakes : u.takesRequests d = some false) : s.gdOrderGo w = u.orderRequest d false
      { mkFrame 0x0C 1 0 (BitVec.ofNat 24 (u.reg .gd 0x500)) 0 (u.now .gd).ns32 (natBytes 0 2 ++ natBytes (u.gd.locator.getD 0) 3
        ++ natBytes (bitsOf w.toNat 2 0) 1 ++ natBytes (bitsOf w.toNat 7 3 + 32 * b2n (bitOf w.toNat 8)) 1
        ++ natBytes (bitsOf w.toNat 23 16) 1) with f49 := true, f48 := true } := by
  have hbit : bitOf w.toNat 24 = true := hgo
  simp only [State.gdOrderGo, hbit, Bool.not_true, Bool.false_eq_true, if_false, ← hu, Nat.not_lt.mpr hlow, Nat.not_lt.mpr hhigh,
    or_self, hdom, htakes]

end

/-- Settles O44: a frame by its receiver and the domain, a request where requests are taken. -/
theorem domainOrderRules : Obligations.DomainOrderRules := by
  unfold Obligations.DomainOrderRules
  refine ⟨fun p n rx f s u hmore hslice hdown => ⟨fun hrx => ?_, fun hrx hlow hhigh => ?_⟩,
    fun p rx f s u hmore hslice hrx => ?_, fun p rx f s u hmore hverb hrx => ?_,
    fun p i copy pod rx d f s u v hreq hpart htakes => ⟨fun hmsg => ?_, fun hmsg => ?_⟩,
    fun d pod st o r s hopen => State.abortRequest_of_open hopen,
    fun d st o r s hclosed => State.abortRequest_of_closed hclosed, fun d f s => State.orderRequest_of_own,
    fun p rx d f s u hmsg hdown hport hpartner hnew => ?_,
    fun p i rx d x f s u v hmsg hpart hdom => ⟨fun hother => ?_, fun hopen hid hfirst => ?_⟩,
    fun tag d s hdom => ⟨fun hclosed => ?_, fun hopen hdue => ?_, fun hopen hearly hlacks => ?_⟩,
    fun w s hgo => congrArg Host.Outcome.next (State.gdAbortGo_of_view hgo),
    fun w d s hgo hdom htakes => congrArg Host.Outcome.next (State.gdAbortGo_of_go hgo hdom htakes),
    fun w s hgo hverb => congrArg Host.Outcome.next (State.gdOrderGo_of_badVerb hgo hverb),
    fun w d u s hgo hlow hhigh hu hdom htakes => congrArg Host.Outcome.next (State.gdOrderGo_of_go hgo hlow hhigh hu hdom htakes)⟩
  · exact (execAbortFrameRx_of_tsu hrx hmore).trans (congrArg Host.Outcome.next (State.tsuAbortRx_of_bound hslice hdown))
  · exact (execOrderFrameRx_of_tsu hrx hmore).trans (congrArg Host.Outcome.next (State.tsuOrderRx_of_bound hslice hdown hlow hhigh))
  · exact (execAbortFrameRx_of_tsu hrx hmore).trans (congrArg Host.Outcome.next (State.tsuAbortRx_of_stale hslice))
  · exact (execOrderFrameRx_of_tsu hrx hmore).trans (congrArg Host.Outcome.next (State.tsuOrderRx_of_badVerb hverb))
  · refine congrArg (fun t : State => Host.Outcome.next (t.cutThrough s ⟨.gd, p⟩ rx)) ((State.gdAbortRx_of_frame hmsg).trans ?_)
    exact (if_pos hreq).trans (State.gdRequest_of_taken hpart htakes)
  · refine congrArg (fun t : State => Host.Outcome.next (t.cutThrough s ⟨.gd, p⟩ rx)) ((State.gdOrderRx_of_frame hmsg).trans ?_)
    exact (if_pos hreq).trans (State.gdRequest_of_taken hpart htakes)
  · refine congrArg (fun t : State => Host.Outcome.next (t.cutThrough s ⟨.gd, p⟩ rx)) ((State.gdAbortRx_of_frame hmsg).trans ?_)
    exact (if_neg (hdown ▸ Bool.false_ne_true)).trans (State.gdBroadcast_of_above hport hpartner hnew)
  · refine congrArg (fun t : State => Host.Outcome.next (t.cutThrough s ⟨.gd, p⟩ rx))
      ((State.gdAbortDone_of_child hmsg hpart hdom).trans (if_pos ?_))
    rcases hother with hclosed | hid | hdone
    · exact .inl (by rw [hclosed, Bool.not_false])
    · exact .inr (.inl hid)
    · exact .inr (.inr (List.contains_iff_mem.mpr hdone))
  · refine congrArg (fun t : State => Host.Outcome.next (t.cutThrough s ⟨.gd, p⟩ rx))
      ((State.gdAbortDone_of_child hmsg hpart hdom).trans ((if_neg ?_).trans ?_))
    · simp [hopen, hid, hfirst]
    · simp only [hfirst, decide_true, Bool.true_or, if_true]
  · exact congrArg Host.Outcome.next (State.abortProgress_of_closed hdom hclosed)
  · exact congrArg Host.Outcome.next ((State.abortProgress_of_open hdom hopen).trans (if_pos (.inr ⟨rfl, hdue⟩)))
  · refine congrArg Host.Outcome.next ((State.abortProgress_of_open hdom hopen).trans (if_neg ?_))
    obtain ⟨i, hi, hundone⟩ := hlacks
    rintro (hall | ⟨-, hdue⟩)
    · exact hundone (List.contains_iff_mem.mp (List.all_eq_true.mp hall i hi))
    · exact Nat.not_le.mpr hearly hdue

end Sys2Proof.Machine
end

section
/-! Teardown and start of a domain (R403 to R406). -/

namespace Sys2Proof.Machine

open Sys2Proof

/-- An entry whose key a filter refuses is not held after it. -/
theorem Tab.get_filter_of_refused {α : Type} (t : Tab α) (q : Nat → Bool) {i : Nat} (hq : q i = false) :
    Tab.get (List.filter (fun p => q p.1) t) i = none := by
  induction t with
  | nil => rfl
  | cons x t ih =>
    rw [List.filter_cons]
    split
    case isTrue hx =>
      have hne : x.1 ≠ i := fun h => Bool.false_ne_true (hq.symm.trans (h ▸ hx))
      exact (if_neg hne).trans ih
    case isFalse => exact ih

/-! ## At a distributor -/

section
variable {s u v : State} {p i : Nat} {rx : Rx} {f : Frame} {d x : GdDom} {tag : BitVec 24}

/-- A control frame from above of a domain that is held acts on it, R404. -/
theorem State.ctlDown_of_held (hport : p = 64 ∨ p = 65) (hrole : s.gd.hasRole = true) (hdom : s.dom? f.domain = some d) :
    s.ctlDown ⟨.gd, p⟩ f = (s, some (d, .parent)) := by
  simp only [State.ctlDown, hrole, Bool.not_true, Bool.false_eq_true, if_false, State.downPart, hport, if_true, hdom]

theorem State.ctlDown_of_stale (hport : p = 64 ∨ p = 65) (hrole : s.gd.hasRole = true) (hdom : s.dom? f.domain = none) :
    s.ctlDown ⟨.gd, p⟩ f = (s.logG .domainStale p, none) := by
  simp only [State.ctlDown, hrole, Bool.not_true, Bool.false_eq_true, if_false, State.downPart, hport, if_true, hdom]

theorem execTeardownRx_of_gd (hrx : s.recvOp ⟨.gd, p⟩ rx 0x19 1 = (u, some f)) : execTeardownRx ⟨.gd, p⟩ rx s =
    .next (State.cutThrough (match u.ctlDown ⟨.gd, p⟩ f with
      | (s, none) => s
      | (s, some (d, .copy)) => s.updDom d.dr.tag fun x => { x with tearing := true }
      | (s, some (d, p)) => s.tearDom d (p = .detour)) s ⟨.gd, p⟩ rx) := by
  simp only [execTeardownRx, hrx] <;> rfl

theorem execDomainReleaseRx_of_gd (hrx : s.recvOp ⟨.gd, p⟩ rx 0x19 3 = (u, some f)) : execDomainReleaseRx ⟨.gd, p⟩ rx s =
    .next (State.cutThrough (match u.ctlDown ⟨.gd, p⟩ f with
      | (s, none) => s
      | (s, some (d, .copy)) => s.freeDom d.dr.tag
      | (s, some (d, p)) => s.domRelease d (p = .detour)) s ⟨.gd, p⟩ rx) := by
  simp only [execDomainReleaseRx, hrx] <;> rfl

theorem execDomainOpenRx_of_gd (hrx : s.recvOp ⟨.gd, p⟩ rx 0x19 5 = (u, some f)) : execDomainOpenRx ⟨.gd, p⟩ rx s =
    .next (State.cutThrough (match u.ctlDown ⟨.gd, p⟩ f with
      | (s, none) => s
      | (s, some (d, .copy)) => s.updDom d.dr.tag fun x => { x with isOpen := true }
      | (s, some (d, p)) =>
        (s.updDom d.dr.tag fun x => { x with isOpen := true }).domDown d (domFrame 5 0 0 d.dr.tag (s.now .gd).ns32) (p = .detour))
      s ⟨.gd, p⟩ rx) := by
  simp only [execDomainOpenRx, hrx] <;> rfl

theorem State.tearDom_eq (s : State) (d : GdDom) (only : Bool) : s.tearDom d only =
    (s.updDom d.dr.tag fun y => { y with tearing := true, tornAt := some s.gd.com.time.aon }).domDown d
      (domFrame 1 0 0 d.dr.tag (s.now .gd).ns32) only := by
  have hnow := s.updDom_time d.dr.tag fun y => { y with tearing := true, tornAt := some (s.aon .gd) }
  simp only [State.tearDom, State.now, hnow]
  rfl

theorem State.freeDom_dom? (s : State) (tag : BitVec 24) : (s.freeDom tag).dom? tag = none :=
  (Tab.get_del ..).trans (if_pos rfl)

theorem State.freeDom_soft? (s : State) (tag : BitVec 24) {index : Nat} (hindex : index < 4096) :
    (s.freeDom tag).soft? tag index = none := by
  have hkey : softKey tag index / 4096 = tag.toNat := by
    rw [softKey]
    omega
  exact Tab.get_filter_of_refused s.gd.softs (fun k => k / 4096 ≠ tag.toNat) (decide_eq_false (not_not_intro hkey))

theorem execTornRx_of_gd (hrx : s.recvOp ⟨.gd, p⟩ rx 0x19 2 = (u, some f)) (hrole : u.gd.hasRole = true) :
    execTornRx ⟨.gd, p⟩ rx s = .next ((u.tornRx ⟨.gd, p⟩ f).cutThrough s ⟨.gd, p⟩ rx) := by
  simp only [execTornRx, reduceCtorEq, if_false, hrx, hrole, if_true]

/-- TORN of a member child is counted once, R405. -/
theorem State.tornRx_of_child (hdom : s.dom? f.domain = some d) (hpart : s.upPart ⟨.gd, p⟩ d.dr 2 [f] none = (v, some (i, false))) :
    s.tornRx ⟨.gd, p⟩ f = if i ∈ d.torn then v else (v.updDom d.dr.tag fun x =>
      { x with torn := x.torn ++ [i], doneSum := x.doneSum + f.nat 14 3 % 524288,
               missSum := x.missSum + f.nat 17 3 % 524288 }).tornCheck d.dr.tag false := by
  simp only [State.tornRx, hdom, hpart, List.contains_iff_mem]

theorem State.tornCheck_of_silent (hdom : s.dom? tag = some d)
    (hsilent : d.tearing = false ∨ d.tornSent = true ∨ s.acts d.dr = false) : s.tornCheck tag true = s := by
  simp only [State.tornCheck, hdom]
  refine if_pos ?_
  rcases hsilent with h | h | h <;> simp [h]

theorem State.tornCheck_of_early {t : Nat} (hdom : s.dom? tag = some d) (hat : d.tornAt = some t)
    (hleft : ∃ i ∈ s.gd.members d.dr, i ∉ d.torn) (hearly : s.gd.com.time.aon < t + s.gd.abortWait) : s.tornCheck tag true = s := by
  obtain ⟨i, hi, hout⟩ := hleft
  have hmore : (s.gd.members d.dr).filter (fun i => !d.torn.contains i) ≠ [] :=
    List.ne_nil_of_mem (List.mem_filter.mpr ⟨hi, by simpa using hout⟩)
  have hsoon : decide (t + s.gd.abortWait ≤ s.aon .gd) = false := decide_eq_false (Nat.not_le.mpr hearly)
  simp only [State.tornCheck, hdom]
  refine if_pos (.inr (.inr (.inr (.inr ⟨hmore, ?_⟩))))
  rw [hat, Option.map_some, Option.getD_some, hsoon]
  rfl

/-- After ABORT_WAIT a node that is not the top sends TORN up with what is missing, R405. -/
theorem State.tornCheck_of_late {t : Nat} (hdom : s.dom? tag = some d) (htear : d.tearing = true) (hsent : d.tornSent = false)
    (hacts : s.acts d.dr = true) (hat : d.tornAt = some t) (hlate : t + s.gd.abortWait ≤ s.gd.com.time.aon)
    (htop : s.gd.isTop d.dr = false) :
    s.tornCheck tag true =
      let miss := d.missSum + (((s.gd.members d.dr).filter fun i => !d.torn.contains i).map fun i =>
        d.dr.count (s.gd.childSpan i).1 (s.gd.childSpan i).2).sum
      (s.updDom tag fun x => { x with tornSent := true, missSum := miss }).gdUp d.dr 2 0
        [domFrame 2 (d.doneSum % 524288) (miss % 524288) tag (s.now .gd).ns32] false 99 := by
  have hdue : decide (t + s.gd.abortWait ≤ s.aon .gd) = true := decide_eq_true hlate
  have htop' : ∀ f : GdDom → GdDom, (s.updDom tag f).gd.isTop d.dr = false := fun f => by
    rw [← htop, State.updDom, State.updGd_gd]
    split <;> rfl
  simp only [State.tornCheck, hdom, htear, hat, hsent, hacts, Option.isNone_some, Option.map_some, Option.getD_some, hdue,
    Bool.and_self, Bool.not_true, Bool.false_eq_true, and_false, or_self, if_false, htop', State.now, State.updDom_time]

theorem execDomainReadyRx_of_child (hrx : s.recvOp ⟨.gd, p⟩ rx 0x19 4 = (u, some f)) (hrole : u.gd.hasRole = true)
    (hdom : u.dom? f.domain = some d) (hpart : u.upPart ⟨.gd, p⟩ d.dr 2 [f] none = (v, some (i, false))) :
    execDomainReadyRx ⟨.gd, p⟩ rx s = .next (((v.updDom d.dr.tag fun x => { x with
      ready := if x.ready.contains i then x.ready else x.ready ++ [i] }).readyCheck d.dr.tag).cutThrough s ⟨.gd, p⟩ rx) := by
  simp only [execDomainReadyRx, reduceCtorEq, if_false, hrx, hrole, Bool.not_true, Bool.false_eq_true, hdom, hpart]

theorem State.reserveDom_of_dom (hdom : s.dom? tag = some d) : s.reserveDom tag =
    if !d.waiting then s
    else if s.gd.roomFor d.dr then (s.updDom tag fun x => { x with waiting := false }).readyCheck tag
    else if d.waitNoted then s
    else (s.updDom tag fun x => { x with waitNoted := true }).logG .domainWait := by
  simp only [State.reserveDom, hdom]

end

/-! ## At a TSU -/

section
variable {s u : State} {p n : Nat} {rx : Rx} {f : Frame} {d : DomRec} {tag : BitVec 24} {x : Torn}

theorem execTeardownRx_of_tsu (hrx : s.recvOp ⟨.tsu, p⟩ rx 0x19 1 = (u, some f)) (hrec : u.domRec f.domain = some d) :
    execTeardownRx ⟨.tsu, p⟩ rx s = .next (u.tsuTear d true) := by
  simp only [execTeardownRx, hrx, State.cutThrough_of_tsu, State.teardownTsu, hrec]

theorem State.tsuTear_of_loose (hslice : s.sliceOf d.tag = none) (htop : d.topIsDie = false) :
    ∃ x : Torn, x.tag = d.tag ∧ x.asked = true ∧ x ∈ (s.tsuTear d true).tsu.tearing ∧ d.tag ∉ (s.tsuTear d true).tsu.opened := by
  simp only [State.tsuTear, hslice, htop, Bool.false_eq_true, if_false, Bool.true_or]
  exact ⟨_, rfl, rfl, List.mem_cons_self, fun h => of_decide_eq_true (List.mem_filter.mp h).2 rfl⟩

theorem execDomainReleaseRx_of_tsu (hrx : s.recvOp ⟨.tsu, p⟩ rx 0x19 3 = (u, some f)) : execDomainReleaseRx ⟨.tsu, p⟩ rx s =
    .next (u.updTsu fun t => { t with tearing := t.tearing.filter fun y => y.tag ≠ f.domain }) := by
  simp only [execDomainReleaseRx, hrx, State.cutThrough_of_tsu]

theorem State.tornSend_of_none (hnone : s.tsu.tearing = []) : s.tornSend tag = s := by
  simp only [State.tornSend, hnone, List.find?_nil]

/-- TORN is sent once it is asked for and every entry of the domain is free, R405. -/
theorem State.tornSend_of_one (hone : s.tsu.tearing = [x]) (htag : x.tag = tag) : s.tornSend tag =
    if !x.asked ∨ s.tsu.tumb.any (fun p => p.2.domain = tag) then s
    else (s.updTsu fun t => { t with tearing := [] }).tsuUp x.sideB x.fullRate 2 0 [domFrame 2 1 0 tag (s.now .tsu).ns32] := by
  have hgone : (s.updTsu fun t => { t with tearing := t.tearing.filter fun y => y.tag ≠ tag }) =
      s.updTsu fun t => { t with tearing := [] } := by
    have hnil : s.tsu.tearing.filter (fun y => y.tag ≠ tag) = [] := by
      rw [hone, List.filter_cons_of_neg (by simp [htag]), List.filter_nil]
    exact congrArg (fun l => s.updTsu fun t => { t with tearing := l }) hnil
  simp only [State.tornSend, hone, List.find?_cons, htag, decide_true, hgone]

theorem execDomainOpenRx_of_tsu (hrx : s.recvOp ⟨.tsu, p⟩ rx 0x19 5 = (u, some f)) : execDomainOpenRx ⟨.tsu, p⟩ rx s =
    .next (if (u.domRec f.domain).isSome then u.openTsu f.domain else u.logT .domainStale (srcLane p)) := by
  simp only [execDomainOpenRx, hrx, State.cutThrough_of_tsu]

/-- OPEN makes the waiting binding of the domain a member, R406. -/
theorem State.openTsu_of_waiting {b : Binding} (htumb : s.tsu.tumb = []) (hslice : s.sliceOf tag = some n)
    (hbind : (s.slice n).bindings = [b]) (htag : b.tag = tag) (hwait : b.mstate = .waiting) :
    ((s.openTsu tag).slice n).bindings = [{ b with mstate := .member }] ∧ tag ∈ (s.openTsu tag).tsu.opened := by
  obtain ⟨r, hr⟩ : ∃ r, r = s.updTsu fun t => { t with opened := if t.opened.contains tag then t.opened else t.opened ++ [tag] } :=
    ⟨_, rfl⟩
  have hrslice : r.sliceOf tag = some n := hr ▸ hslice
  have hrbind : (r.slice n).bindings = [b] := hr ▸ hbind
  have hrtumb : (r.updBinding n tag fun b => { b with mstate := .member }).tsu.tumb = [] := by rw [hr]; exact htumb
  have hropen : tag ∈ r.tsu.opened := by
    rw [hr, State.updTsu_tsu]
    dsimp only
    split
    case isTrue h => exact List.contains_iff_mem.mp h
    case isFalse => exact List.mem_append_right _ (List.mem_singleton.mpr rfl)
  have hwaits : (([b].find? fun b => b.tag = tag).any fun b => decide (b.mstate = .waiting)) = true := by
    simp [htag, hwait]
  have heq : s.openTsu tag = r.updBinding n tag fun b => { b with mstate := .member } := by
    simp only [State.openTsu, ← hr, hrslice, hrbind, hwaits, Bool.not_true, Bool.false_eq_true, if_false, hrtumb, List.filter_nil,
      List.map_nil, List.foldl_nil]
  rw [heq]
  refine ⟨?_, hropen⟩
  rw [State.updBinding, State.updSlice_slice, if_pos rfl, hrbind, List.map_cons, List.map_nil, if_pos htag]

end

/-- Settles O45: each frame of a domain's start and end by its receiver, the waits by what is still owed. -/
theorem domainStartRules : Obligations.DomainStartRules := by
  unfold Obligations.DomainStartRules
  refine ⟨fun p rx f d s u hport hrole hdom => ⟨fun hrx => ?_, fun hrx => ?_, fun hrx => ?_⟩,
    fun p rx f s u hport hrole hdom => ⟨fun hrx => ?_, fun hrx => ?_, fun hrx => ?_⟩,
    fun d x only s hdom => ⟨?_, State.tearDom_eq s d only⟩,
    fun tag s => ⟨State.freeDom_dom? s tag, fun index hindex => State.freeDom_soft? s tag hindex, rfl⟩,
    fun p rx f d s u hrx hrec => execTeardownRx_of_tsu hrx hrec, fun d s hslice htop => State.tsuTear_of_loose hslice htop,
    fun p rx f s u hrx => execDomainReleaseRx_of_tsu hrx,
    fun tag x s hone htag => ⟨fun hasked hfree => ?_, fun hasked => ?_, fun hheld => ?_⟩,
    fun tag s hnone => congrArg Host.Outcome.next (State.tornSend_of_none hnone),
    fun p i rx f d s u v hrx hrole hdom hpart => ⟨fun hin => ?_, fun hout => ?_⟩,
    fun tag d s hdom => ⟨fun hsilent => congrArg Host.Outcome.next (State.tornCheck_of_silent hdom hsilent),
      fun t hat hleft hearly => congrArg Host.Outcome.next (State.tornCheck_of_early hdom hat hleft hearly),
      fun t miss htear hsent hacts hat hlate htop hmiss => ?_⟩,
    fun p i rx f d s u v hrx hrole hdom hpart => execDomainReadyRx_of_child hrx hrole hdom hpart,
    fun tag d s hdom => ⟨fun hopen => ?_, fun hwait hroom => ?_, fun hwait hroom hnoted => ?_, fun hwait hroom hnoted => ?_⟩,
    fun p rx f s u hrx => ⟨fun hrec => ?_, fun hrec => ?_⟩,
    fun tag n b s htumb hslice hbind htag hwait => State.openTsu_of_waiting htumb hslice hbind htag hwait⟩
  · refine (execTeardownRx_of_gd hrx).trans ?_
    rw [State.ctlDown_of_held hport hrole hdom]
    rfl
  · refine (execDomainReleaseRx_of_gd hrx).trans ?_
    rw [State.ctlDown_of_held hport hrole hdom]
    rfl
  · refine (execDomainOpenRx_of_gd hrx).trans ?_
    rw [State.ctlDown_of_held hport hrole hdom]
    rfl
  · refine (execTeardownRx_of_gd hrx).trans ?_
    rw [State.ctlDown_of_stale hport hrole hdom]
  · refine (execDomainReleaseRx_of_gd hrx).trans ?_
    rw [State.ctlDown_of_stale hport hrole hdom]
  · refine (execDomainOpenRx_of_gd hrx).trans ?_
    rw [State.ctlDown_of_stale hport hrole hdom]
  · rw [State.updDom_dom?, hdom, Option.map_some]
  · refine congrArg Host.Outcome.next ((State.tornSend_of_one hone htag).trans (if_neg ?_))
    have hnone : s.tsu.tumb.any (fun p => p.2.domain = tag) = false :=
      List.any_eq_false.mpr fun p hp h => hfree p hp (of_decide_eq_true h)
    rw [hasked, hnone]
    simp
  · exact congrArg Host.Outcome.next ((State.tornSend_of_one hone htag).trans (if_pos (.inl (by rw [hasked, Bool.not_false]))))
  · obtain ⟨p, hp, hdomain⟩ := hheld
    refine congrArg Host.Outcome.next ((State.tornSend_of_one hone htag).trans (if_pos (.inr ?_)))
    exact List.any_eq_true.mpr ⟨p, hp, decide_eq_true hdomain⟩
  · refine (execTornRx_of_gd hrx hrole).trans (congrArg (fun t : State => Host.Outcome.next (t.cutThrough s ⟨.gd, p⟩ rx)) ?_)
    exact (State.tornRx_of_child hdom hpart).trans (if_pos hin)
  · refine (execTornRx_of_gd hrx hrole).trans (congrArg (fun t : State => Host.Outcome.next (t.cutThrough s ⟨.gd, p⟩ rx)) ?_)
    exact (State.tornRx_of_child hdom hpart).trans (if_neg hout)
  · subst hmiss
    exact congrArg Host.Outcome.next (State.tornCheck_of_late hdom htear hsent hacts hat hlate htop)
  · exact congrArg Host.Outcome.next ((State.reserveDom_of_dom hdom).trans (if_pos (by rw [hopen, Bool.not_false])))
  · refine congrArg Host.Outcome.next ((State.reserveDom_of_dom hdom).trans ?_)
    rw [hwait, hroom]
    rfl
  · refine congrArg Host.Outcome.next ((State.reserveDom_of_dom hdom).trans ?_)
    rw [hwait, hroom, hnoted]
    rfl
  · refine congrArg Host.Outcome.next ((State.reserveDom_of_dom hdom).trans ?_)
    rw [hwait, hroom, hnoted]
    rfl
  · exact (execDomainOpenRx_of_tsu hrx).trans (congrArg Host.Outcome.next (if_pos (Option.isSome_iff_ne_none.mpr hrec)))
  · exact (execDomainOpenRx_of_tsu hrx).trans (congrArg Host.Outcome.next (if_neg (by rw [hrec]; exact Bool.false_ne_true)))

end Sys2Proof.Machine
end

section
/-! Absent members and health scores (R391 to R397). -/

namespace Sys2Proof.Machine

open Sys2Proof

/-! ## Absence -/

section
variable {s : State} {p i : Nat} {agrees : Bool}

theorem State.dieAbsent_of_out (hrole : s.gd.hasRole = true) (hsled : s.gd.role = some 0) (hp : p < 8)
    (htimed : (s.link ⟨.gd, p⟩).enabled = true ∨ (s.link ⟨.gd, p⟩).everUp = true) (hstate : (s.link ⟨.gd, p⟩).state ≠ .up)
    (hlong : (s.link ⟨.gd, p⟩).downAt + (if (s.link ⟨.gd, p⟩).everUp then 120000000 else 240000000) ≤ s.gd.com.time.aon)
    (hagrees : agrees = true ∨ s.trained ⟨.gd, s.gd.partnerPort⟩ = false) : s.dieAbsent p agrees = s.markAbsent p := by
  have htimed' : s.linkTimed ⟨.gd, p⟩ = true := by
    rw [State.linkTimed]
    rcases htimed with h | h <;> simp [h]
  refine if_pos ⟨hrole, hsled, hp, htimed', hstate, hlong, hagrees.imp_right fun h => ?_⟩
  rw [h, Bool.not_false]

theorem State.dieAbsent_of_soon
    (hsoon : s.gd.com.time.aon < (s.link ⟨.gd, p⟩).downAt + (if (s.link ⟨.gd, p⟩).everUp then 120000000 else 240000000)) :
    s.dieAbsent p agrees = s :=
  if_neg fun h => Nat.not_le.mpr hsoon h.2.2.2.2.2.1

theorem State.dieAbsent_of_up (hstate : (s.link ⟨.gd, p⟩).state = .up) : s.dieAbsent p agrees = s :=
  if_neg fun h => h.2.2.2.2.1 hstate

theorem State.dieAbsent_of_disagreed (hagrees : agrees = false) (hpartner : s.trained ⟨.gd, s.gd.partnerPort⟩ = true) :
    s.dieAbsent p agrees = s := by
  refine if_neg fun h => ?_
  obtain ⟨-, -, -, -, -, -, hsaid | hout⟩ := h
  · exact Bool.false_ne_true (hagrees.symm.trans hsaid)
  · rw [hpartner] at hout
    exact Bool.false_ne_true hout

theorem State.childAbsent_of_out (hrole : s.gd.hasRole = true) (hhigh : s.gd.role ≠ some 0) (hi : i < s.gd.fan)
    (hstate : (s.link ⟨.gd, i⟩).state ≠ .up) (hlong : (s.link ⟨.gd, i⟩).downAt + 240000000 ≤ s.gd.com.time.aon)
    (hcross : s.gd.crossPort i = none) : s.childAbsent i = s.markAbsent i := by
  have hlate : (decide ((s.link ⟨.gd, i⟩).state ≠ .up) && decide ((s.link ⟨.gd, i⟩).downAt + 240000000 ≤ s.aon .gd)) = true :=
    Bool.and_eq_true_iff.mpr ⟨decide_eq_true hstate, decide_eq_true hlong⟩
  refine if_pos ⟨hrole, hhigh, hi, hlate, ?_⟩
  rw [hcross]
  rfl

theorem State.childAbsent_of_soon
    (hsoon : s.gd.com.time.aon < (s.link ⟨.gd, i⟩).downAt + 240000000 ∨ (s.link ⟨.gd, i⟩).state = .up) : s.childAbsent i = s := by
  refine if_neg fun h => ?_
  obtain ⟨-, -, -, hlate, -⟩ := h
  obtain ⟨hstate, hlong⟩ := Bool.and_eq_true_iff.mp hlate
  have hout : (s.link ⟨.gd, i⟩).state ≠ .up := by simpa using hstate
  exact hsoon.elim (fun h => Nat.not_le.mpr h (of_decide_eq_true hlong)) hout

theorem State.markAbsent_of_marked (habsent : i ∈ s.gd.absent) : s.markAbsent i = s :=
  if_pos (List.contains_iff_mem.mpr habsent)

/-- With no domain held an absence is the mark at the position and at its link alone. -/
theorem State.markAbsent_of_new (hnew : i ∉ s.gd.absent) (hdoms : s.gd.doms = []) : s.markAbsent i =
    (s.updGd fun g => { g with absent := g.absent ++ [i], returning := g.returning.filter (· ≠ i) }).updLink ⟨.gd, i⟩ fun k =>
      { k with absent := true } := by
  have hout : s.gd.absent.contains i = false := by simpa using hnew
  have hnone : ((s.updGd fun g => { g with absent := g.absent ++ [i], returning := g.returning.filter (· ≠ i) }).updLink ⟨.gd, i⟩
      fun k => { k with absent := true }).gd.doms = [] := hdoms
  simp only [State.markAbsent, hout, Bool.false_eq_true, if_false, State.absentAll, hnone, List.foldl_nil]

variable {tag : BitVec 24} {d : GdDom}

theorem State.absentFrom_of_allowed (hdom : s.dom? tag = some d) (hmember : i ∈ s.gd.members d.dr)
    (hallow : d.dr.allowAbsent = true) (hsofts : s.gd.softs = []) : ∃ x, (s.absentFrom tag i).dom? tag = some x ∧ i ∈ x.out := by
  have hin : (s.gd.members d.dr).contains i = true := List.contains_iff_mem.mpr hmember
  have hnone : ∀ f : GdDom → GdDom, (s.updDom tag f).gd.softs = [] := fun f => by
    rw [← hsofts, State.updDom, State.updGd_gd]
    split <;> rfl
  have hadd : i ∈ if d.out.contains i then d.out else d.out ++ [i] := by
    split
    case isTrue h => exact List.contains_iff_mem.mp h
    case isFalse => exact List.mem_append_right _ (List.mem_singleton.mpr rfl)
  simp only [State.absentFrom, hdom, hin, Bool.not_true, Bool.false_eq_true, if_false, hallow, if_true, hnone, List.filter_nil,
    List.map_nil, List.foldl_nil]
  exact ⟨_, (State.updDom_dom? ..).trans (congrArg (Option.map _) hdom), hadd⟩

theorem State.absentFrom_of_strict (hdom : s.dom? tag = some d) (hmember : i ∈ s.gd.members d.dr)
    (hstrict : d.dr.allowAbsent = false) :
    s.absentFrom tag i = if s.gd.isTop d.dr ∧ s.acts d.dr then s.logG .memberAbsent i else s := by
  have hin : (s.gd.members d.dr).contains i = true := List.contains_iff_mem.mpr hmember
  simp only [State.absentFrom, hdom, hin, Bool.not_true, Bool.false_eq_true, if_false, hstrict]

end

/-! ## Health scores -/

section
variable {s u : State} {p i : Nat} {rx : Rx} {f : Frame}

/-- A HEALTH frame at a sled's distributor, by its event and its port, R394. -/
theorem State.healthRx_of_sled (hrx : s.receive ⟨.gd, p⟩ rx 0x14 = (u, some f)) (hrole : u.gd.hasRole = true)
    (hsled : u.gd.role = some 0) (hport : 7 < f.byte 12 ∨ p < 8) : s.healthRx ⟨.gd, p⟩ rx =
      if 7 < f.byte 12 ∨ f.more then u.malformed ⟨.gd, p⟩ else (u.mirror 2 [f]).healthEvent p (f.byte 12) (f.byte 13) f := by
  simp only [State.healthRx, reduceCtorEq, if_false, hrx, hrole, hsled, Bool.not_true, Bool.false_eq_true, ne_eq, not_true, or_self]
  rcases hport with hev | hp
  · rw [if_pos (.inl hev), if_pos (.inl hev)]
  · rw [if_pos hp]

theorem State.updHealth_healthOf (s : State) (i : Nat) (f : Health → Health) : (s.updHealth i f).healthOf i = f (s.healthOf i) :=
  (Tab.getD_put ..).trans (if_pos rfl)

theorem State.expelAsk_of_quiet {again : Bool}
    (hquiet : (s.healthOf i).score < s.gd.theta ∨ (s.healthOf i).asked = true ∨ (s.healthOf i).expelled = true) :
    s.expelAsk i again = s := by
  refine if_pos (.inr (.inr (.inr ?_)))
  rcases hquiet with h | h | h
  · exact .inl h
  · exact .inr (.inl h)
  · exact .inr (.inr (.inl h))

/-- A score at the threshold asks the node above to expel the die, once, R395. -/
theorem State.expelAsk_of_reached {again : Bool} (hsled : s.gd.role = some 0) (hrole : s.gd.hasRole = true)
    (hspeaks : s.speaksFor i = true) (hscore : s.gd.theta ≤ (s.healthOf i).score) (hasked : (s.healthOf i).asked = false)
    (hin : (s.healthOf i).expelled = false) (hclear : (s.healthOf i).suspect = false ∨ again = true) :
    s.expelAsk i again = (s.updHealth i fun h => { h with asked := true }).gdUp s.gd.expelRec 2 0
      [expelFrame 1 (s.gd.dieAt i) s.gd.theta (s.now .gd).ns32 0] false 99 := by
  have hsuspect : ((s.healthOf i).suspect && !again) = false := by
    rcases hclear with h | h <;> simp [h]
  simp only [State.expelAsk, hsled, hrole, hspeaks, Nat.not_lt.mpr hscore, hasked, hin, hsuspect, ne_eq, not_true, Bool.not_true,
    Bool.false_eq_true, or_self, if_false]
  rfl

theorem State.readmitDue_of_none (hin : ∀ p ∈ s.gd.health, p.2.expelled = false) : s.readmitDue = s := by
  have hnone : s.gd.health.filter (fun p => p.2.expelled && 2 * p.2.score < s.gd.theta && s.speaksFor p.1) = [] :=
    List.filter_eq_nil_iff.mpr fun p hp h => by
      rw [hin p hp, Bool.false_and, Bool.false_and] at h
      exact Bool.false_ne_true h
  rw [State.readmitDue, hnone, List.foldl_nil]

/-- Decay of scores where no die is expelled, R396. -/
theorem execHealthDecay_of_in (hin : ∀ p ∈ s.gd.health, p.2.expelled = false) : execHealthDecay s = .next (s.updGd fun g =>
    { g with health := Tab.map g.health fun _ h => { h with score := h.score - beNat s.gd.healthRec 6 2 } }) := by
  refine congrArg Host.Outcome.next (State.readmitDue_of_none fun p hp => ?_)
  obtain ⟨q, hq, rfl⟩ := List.mem_map.mp hp
  exact hin q hq

theorem execHealthClear_of_roleless (hrole : s.gd.hasRole = false) : execHealthClear s = .next s :=
  congrArg Host.Outcome.next (if_pos (.inl (by rw [hrole, Bool.not_false])))

/-- The state after the score of a die is set back to what this tick has added to it. -/
def State.scoreCleared (s : State) (i left : Nat) : State :=
  let u := s.updHealth i fun h => { h with score := left, suspect := false }
  if (s.healthOf i).expelled then u.readmit i else u.mirror 2 [expelFrame 6 (s.gd.dieAt i) 0 (s.now .gd).ns32 0]

theorem execHealthClear_of_sled {left : Nat} (hi : bitsOf (s.reg .gd 0x700) 2 0 = i) (hrole : s.gd.hasRole = true)
    (hsled : s.gd.role = some 0)
    (hleft : left = if (s.healthOf i).addAt = s.gd.com.time.aon then min 65535 (s.healthOf i).added else 0) :
    execHealthClear s = .next (if 0 < left then (s.scoreCleared i left).expelAsk i false else s.scoreCleared i left) := by
  subst hi hleft
  simp only [execHealthClear, hrole, hsled, Bool.not_true, Bool.false_eq_true, ne_eq, not_true, or_self, if_false,
    State.updHealth_healthOf]
  rfl

end

/-- Settles O46: an absence by the time out of UP, a score by its events and the threshold. -/
theorem healthRules : Obligations.HealthRules := by
  unfold Obligations.HealthRules
  refine ⟨fun p agrees k s hk => ?_, fun i k s hk => ?_, fun i s habsent => State.markAbsent_of_marked habsent,
    fun i s hnew hdoms => ?_, fun tag i d s hdom hmember => ⟨fun hallow hsofts => State.absentFrom_of_allowed hdom hmember hallow hsofts,
      fun hstrict htop hacts => (State.absentFrom_of_strict hdom hmember hstrict).trans (if_pos ⟨htop, hacts⟩),
      fun hstrict htop => (State.absentFrom_of_strict hdom hmember hstrict).trans (if_neg fun h =>
        Bool.false_ne_true (htop.symm.trans h.1))⟩,
    fun p rx f s u hrx hrole hsled => ⟨fun hev => ?_, fun hev hmore hp => ?_⟩, fun i ev count w f u s hw hu => ?_,
    fun i again s => ⟨fun hquiet => State.expelAsk_of_quiet hquiet, fun hsled hrole hspeaks hscore hasked hin hclear =>
      State.expelAsk_of_reached hsled hrole hspeaks hscore hasked hin hclear⟩,
    fun s hin => ⟨_, execHealthDecay_of_in hin, rfl, rfl⟩, fun i left u v s hi hrole hsled hleft hu hv => ?_,
    fun s hrole => execHealthClear_of_roleless hrole⟩
  · subst hk
    exact ⟨fun hrole hsled hp htimed hstate hlong hagrees =>
        congrArg Host.Outcome.next (State.dieAbsent_of_out hrole hsled hp htimed hstate hlong hagrees),
      fun hsoon => congrArg Host.Outcome.next (State.dieAbsent_of_soon hsoon),
      fun hstate => congrArg Host.Outcome.next (State.dieAbsent_of_up hstate),
      fun hagrees hpartner => congrArg Host.Outcome.next (State.dieAbsent_of_disagreed hagrees hpartner)⟩
  · subst hk
    exact ⟨fun hrole hhigh hi hstate hlong hcross =>
        congrArg Host.Outcome.next (State.childAbsent_of_out hrole hhigh hi hstate hlong hcross),
      fun hsoon => congrArg Host.Outcome.next (State.childAbsent_of_soon hsoon)⟩
  · rw [State.markAbsent_of_new hnew hdoms, State.updLink_link]
    exact ⟨List.mem_append_right _ (List.mem_singleton.mpr rfl), rfl, rfl⟩
  · refine congrArg (fun t : State => Host.Outcome.next (t.cutThrough s ⟨.gd, p⟩ rx)) ?_
    exact (State.healthRx_of_sled hrx hrole hsled (.inl hev)).trans (if_pos (.inl hev))
  · refine congrArg (fun t : State => Host.Outcome.next (t.cutThrough s ⟨.gd, p⟩ rx)) ?_
    refine (State.healthRx_of_sled hrx hrole hsled (.inr hp)).trans (if_neg ?_)
    rw [hmore]
    exact fun h => h.elim (Nat.not_lt.mpr hev) Bool.false_ne_true
  · subst hw hu
    exact ⟨rfl, congrArg Health.score (State.updHealth_healthOf ..)⟩
  · subst hu
    have hclear : s.scoreCleared i left = v := hv.symm
    rw [← hclear]
    exact ⟨fun hzero => (execHealthClear_of_sled hi hrole hsled hleft).trans (congrArg Host.Outcome.next (if_neg (by omega))),
      fun hmore => (execHealthClear_of_sled hi hrole hsled hleft).trans (congrArg Host.Outcome.next (if_pos hmore))⟩

end Sys2Proof.Machine
end

section
/-! The acting side of a position and the rejoining of a die (R384, R385, R397 to R402). -/

namespace Sys2Proof.Machine

open Sys2Proof

/-! ## The acting side -/

section
variable {s u : State} {i p t : Nat} {b : Bool} {rx : Rx} {f : Frame}

theorem execSideWaitExpiry_of_decider (hrole : s.gd.hasRole = true) (hhigh : s.gd.role ≠ some 0) (hi : i < s.gd.fan) :
    execSideWaitExpiry i s = .next (match s.takeSide i with
      | some b => (s.sideSend i b (sideFrame 1 (s.gd.childSide i b) (s.now .gd).ns32 0)).childTaken i b
      | none => s) := by
  simp only [execSideWaitExpiry, hrole, Bool.not_true, Bool.false_eq_true, hhigh, Nat.not_le.mpr hi, or_self, if_false] <;> rfl

theorem State.takeSide_of_late (hacts : s.actsAt i s.gd.sideB = true) (hlate : s.sideLate i = true)
    (hpartner : s.trained ⟨.gd, s.gd.partnerPort⟩ = true) : s.takeSide i = some (!s.gd.sideB) :=
  if_pos ⟨hacts, hlate, .inl hpartner⟩

theorem State.sideLate_of_trained (hup : s.trained ⟨.gd, p⟩ = true) : s.sideLate p = false := by
  rw [State.sideLate, hup]
  rfl

theorem State.takeSide_of_reached (hup : s.trained ⟨.gd, i⟩ = true) (hpartner : s.trained ⟨.gd, s.gd.partnerPort⟩ = true) :
    s.takeSide i = none := by
  simp only [State.takeSide, State.sideLate_of_trained hup, State.sideLate_of_trained hpartner, Bool.false_eq_true, false_and,
    and_false, if_false]

/-- The decider's note of a TAKE, where nothing is held for the child. -/
def Gd.noteTaken (i : Nat) (b : Bool) (g : Gd) : Gd :=
  { g with childMoved := Tab.put g.childMoved i b, childReturn := Tab.del g.childReturn i, backSince := Tab.del g.backSince i }

theorem State.childTaken_of_none (hheld : s.gd.held = []) : s.childTaken i b = s.updGd (Gd.noteTaken i b) := by
  have hnone : Tab.get (s.updGd (Gd.noteTaken i b)).gd.held i = none := congrArg (Tab.get · i) hheld
  refine (congrArg (fun u : State => u.unhold i) (rfl : _ = s.updGd (Gd.noteTaken i b))).trans ?_
  rw [State.unhold, hnone]

variable {op : Nat} {mine : State → Frame → State} {child : State → Nat → Bool → Frame → State}

/-- A SIDE frame from above acts at the distributor it names alone, R384. -/
theorem State.sideRx_of_above (hport : p = 64 ∨ p = 65) (hrole : u.gd.hasRole = true)
    (hrx : s.recvOp ⟨.gd, p⟩ rx 0x1A op = (u, some f)) :
    s.sideRx ⟨.gd, p⟩ rx op mine child = if u.gd.locator = some (f.nat 13 3 % 1048576) then mine u f else u := by
  simp only [State.sideRx, reduceCtorEq, if_false, hrx, hrole, Bool.not_true, Bool.false_eq_true, hport, if_true]

theorem State.sideReturnDue_of_unmoved (hnone : Tab.get s.gd.childMoved i = none) : s.sideReturnDue i = s := by
  simp only [State.sideReturnDue, hnone]

theorem State.sideReturnDue_of_early (hmoved : Tab.get s.gd.childMoved i = some b) (hback : Tab.get s.gd.backSince i = some t)
    (hearly : s.gd.com.time.aon < t + 10000000000) : s.sideReturnDue i = s := by
  simp only [State.sideReturnDue, hmoved, hback]
  exact if_pos (.inr (.inr (.inr hearly)))

theorem State.sideReturnDue_of_due (hmoved : Tab.get s.gd.childMoved i = some b) (hback : Tab.get s.gd.backSince i = some t)
    (hrole : s.gd.hasRole = true) (hown : b = s.gd.sideB) (hfirst : Tab.get s.gd.childReturn i = none)
    (hdue : t + 10000000000 ≤ s.gd.com.time.aon) : s.sideReturnDue i =
      (((s.sideSend i false (sideFrame 2 (s.gd.childSide i false) (s.now .gd).ns32 (BitVec.ofInt 32 ((s.now .gd).toNs + 100000)))).sideSend
        i true (sideFrame 2 (s.gd.childSide i true) (s.now .gd).ns32 (BitVec.ofInt 32 ((s.now .gd).toNs + 100000)))).updGd fun g => { g with
          childReturn := Tab.put g.childReturn i ((s.now .gd).toNs + 100000) }).unhold i := by
  have hlong : ¬ s.aon .gd < t + 10000000000 := Nat.not_lt.mpr hdue
  simp only [State.sideReturnDue, hmoved, hback, hrole, Bool.not_true, Bool.false_eq_true, hown, decide_true, Bool.true_or, hfirst,
    Option.isSome_none, hlong, or_self, if_false]

end

/-! ## JOIN at a distributor -/

section
variable {s u v : State} {p i die : Nat} {rx : Rx} {f : Frame} {d : GdDom}

theorem State.joinReqRx_of_dom (hrx : s.recvOp ⟨.gd, p⟩ rx 0x18 1 = (u, some f)) (hrole : u.gd.hasRole = true)
    (hdomain : f.domain ≠ 0) (hdom : u.dom? f.domain = some d)
    (hpart : u.upPart ⟨.gd, p⟩ d.dr 2 [f] (some (f.nat 14 3 % 262144)) = (v, some (i, false))) :
    s.joinReqRx ⟨.gd, p⟩ rx = v.joinAsked d i (f.nat 14 3 % 262144) := by
  have hpart' : u.upPart ⟨.gd, p⟩ d.dr 2 [f] (some (dieField f)) = (v, some (i, false)) := hpart
  simp only [State.joinReqRx, reduceCtorEq, if_false, hrx, hrole, Bool.not_true, Bool.false_eq_true, hdomain, hdom, hpart']
  rfl

theorem State.joinReqRx_of_stale (hrx : s.recvOp ⟨.gd, p⟩ rx 0x18 1 = (u, some f)) (hrole : u.gd.hasRole = true)
    (hdomain : f.domain ≠ 0) (hdom : u.dom? f.domain = none) : s.joinReqRx ⟨.gd, p⟩ rx = u.logG .domainStale p := by
  simp only [State.joinReqRx, reduceCtorEq, if_false, hrx, hrole, Bool.not_true, Bool.false_eq_true, hdomain, hdom]

theorem State.joinReqRx_of_restart (hrx : s.recvOp ⟨.gd, p⟩ rx 0x18 1 = (u, some f)) (hrole : u.gd.hasRole = true)
    (hdomain : f.domain = 0) :
    s.joinReqRx ⟨.gd, p⟩ rx = if u.gd.role = some 0 ∧ p < 8 then u.restartNotice p else u.malformed ⟨.gd, p⟩ := by
  simp only [State.joinReqRx, reduceCtorEq, if_false, hrx, hrole, Bool.not_true, Bool.false_eq_true, hdomain, if_true]

theorem State.joinAsked_of_expelled (hout : i ∈ d.expelled) : s.joinAsked d i die =
    s.gdDown d.dr 2 [i] (fun _ => [joinFrame 4 1 die d.dr.tag (s.now .gd).ns32 0]) [joinFrame 4 1 die d.dr.tag (s.now .gd).ns32 0] :=
  if_pos (List.contains_iff_mem.mpr hout)

/-- A die that is out of the expected set is answered with JOIN_AT 100 us ahead, R398. -/
theorem State.joinAsked_of_out (hin : i ∉ d.expelled) (hout : i ∈ d.out) (hnew : d.joinAt = none) : s.joinAsked d i die =
    ((s.updDom d.dr.tag fun x => { x with joining := Tab.put x.joining i ((s.now .gd).toNs + 100000) }).mirror 2
      [joinFrame 2 0 die d.dr.tag (s.now .gd).ns32 (BitVec.ofInt 32 ((s.now .gd).toNs + 100000))]).gdDown d.dr 2 [i]
        (fun _ => [joinFrame 2 0 die d.dr.tag (s.now .gd).ns32 (BitVec.ofInt 32 ((s.now .gd).toNs + 100000))])
        [joinFrame 2 0 die d.dr.tag (s.now .gd).ns32 (BitVec.ofInt 32 ((s.now .gd).toNs + 100000))] := by
  have hin' : d.expelled.contains i = false := by simpa using hin
  simp only [State.joinAsked, hin', Bool.false_eq_true, if_false, List.contains_iff_mem.mpr hout, if_true, State.joinInstant, hnew]

theorem State.downPart_of_above (hport : p = 64 ∨ p = 65) : s.downPart ⟨.gd, p⟩ f = .parent := if_pos hport

theorem State.ackGd_of_above (hport : p = 64 ∨ p = 65) (hrole : s.gd.hasRole = true) : s.ackGd ⟨.gd, p⟩ f =
    s.updDom f.domain fun x => { x with joinAt := some (extendNs (s.now .gd) (BitVec.ofNat 32 (f.nat 20 4))) } := by
  simp only [State.ackGd, hrole, Bool.not_true, Bool.false_eq_true, if_false, State.downPart_of_above hport]

theorem State.absentGd_of_below (hrole : s.gd.hasRole = true) (h64 : p ≠ 64) (h65 : p ≠ 65) :
    s.absentGd ⟨.gd, p⟩ f = s.malformed ⟨.gd, p⟩ := by
  simp only [State.absentGd, hrole, Bool.not_true, Bool.false_eq_true, if_false, ne_eq, h64, h65, not_false_iff, and_self, if_true]

theorem execJoinAckRx_of_gd (hrx : s.recvOp ⟨.gd, p⟩ rx 0x18 2 = (u, some f)) :
    execJoinAckRx ⟨.gd, p⟩ rx s = .next ((u.ackGd ⟨.gd, p⟩ f).cutThrough s ⟨.gd, p⟩ rx) := by
  simp only [execJoinAckRx, hrx]

theorem execJoinAbsentRx_of_gd (hrx : s.recvOp ⟨.gd, p⟩ rx 0x18 3 = (u, some f)) :
    execJoinAbsentRx ⟨.gd, p⟩ rx s = .next ((u.absentGd ⟨.gd, p⟩ f).cutThrough s ⟨.gd, p⟩ rx) := by
  simp only [execJoinAbsentRx, hrx]

theorem execJoinRefuseRx_of_above (hport : p = 64 ∨ p = 65) (hrole : u.gd.hasRole = true)
    (hrx : s.recvOp ⟨.gd, p⟩ rx 0x18 4 = (u, some f)) :
    execJoinRefuseRx ⟨.gd, p⟩ rx s = .next ((u.logG .joinRefused p).cutThrough s ⟨.gd, p⟩ rx) := by
  simp only [execJoinRefuseRx, hrx, hrole, Bool.not_true, Bool.false_eq_true, if_false, State.downPart_of_above hport, reduceCtorEq]

end

/-! ## JOIN at a TSU -/

section
variable {s u : State} {p n : Nat} {l : LinkId} {rx : Rx} {f : Frame} {tag : BitVec 24} {at0 : Int} {b : Binding}

theorem execJoinAckRx_of_tsu (hrx : s.recvOp ⟨.tsu, p⟩ rx 0x18 2 = (u, some f)) : execJoinAckRx ⟨.tsu, p⟩ rx s =
    .next (u.ackTsu ⟨.tsu, p⟩ f.domain (extendNs (u.now .tsu) (BitVec.ofNat 32 (f.nat 20 4)))) := by
  simp only [execJoinAckRx, hrx, State.cutThrough_of_tsu]

theorem execJoinAbsentRx_of_tsu (hrx : s.recvOp ⟨.tsu, p⟩ rx 0x18 3 = (u, some f)) :
    execJoinAbsentRx ⟨.tsu, p⟩ rx s = .next (u.absentTsu f.domain) := by
  simp only [execJoinAbsentRx, hrx, State.cutThrough_of_tsu]

theorem State.updTsu_tumb_nil {one : Nat → Tumbler → Tumbler} (htumb : s.tsu.tumb = []) :
    (s.updTsu fun t => { t with tumb := Tab.map t.tumb one }) = s := by
  have hmap : Tab.map s.tsu.tumb one = s.tsu.tumb := by rw [htumb]; rfl
  exact congrArg (fun l => s.updTsu fun t => { t with tumb := l }) hmap

/-- A REFUSE keeps a joining binding in SHADOW. -/
def Binding.refused (b : Binding) : Binding :=
  { b with mstate := if b.mstate = .joining then .shadow else b.mstate }

/-- REFUSE at a TSU without tumblers, by the binding of its domain. -/
theorem execJoinRefuseRx_of_tsu (hrx : s.recvOp ⟨.tsu, p⟩ rx 0x18 4 = (u, some f)) (htumb : u.tsu.tumb = []) {v : State}
    (hv : (match u.sliceOf f.domain with
      | some n => u.updBinding n f.domain Binding.refused
      | none => u) = v) :
    execJoinRefuseRx ⟨.tsu, p⟩ rx s = .next (v.logT .joinRefused (srcLane p) 0 (v.sliceOf f.domain)) := by
  subst hv
  simp only [execJoinRefuseRx, hrx, State.cutThrough_of_tsu]
  refine congrArg (fun v : State => Host.Outcome.next (v.logT .joinRefused (srcLane p) 0 (v.sliceOf f.domain))) ?_
  cases u.sliceOf f.domain with
  | none => exact State.updTsu_tumb_nil htumb
  | some n => exact State.updTsu_tumb_nil (s := u.updBinding n f.domain Binding.refused) htumb

theorem State.ackTsu_of_stale (hslice : s.sliceOf tag = none) : s.ackTsu l tag at0 = s.logT .domainStale (srcLane l.port) := by
  simp only [State.ackTsu, hslice]

/-- A domain without shares is a member with the ACK itself, R398. -/
theorem State.ackTsu_of_shareless (hslice : s.sliceOf tag = some n) (hbind : (s.slice n).bindings = [b]) (htag : b.tag = tag)
    (hshadow : b.mstate = .shadow) (htumb : s.tsu.tumb = []) : s.ackTsu l tag at0 =
      (s.updBinding n tag fun b => { b with joinAt := at0, mstate := .member }).setEvt .tsu 0x780 0x10 := by
  have hfind : (((s.slice n).bindings.find? fun b => b.tag = tag).map fun b =>
      decide (b.mstate = .shadow ∨ b.mstate = .joining)).getD false = true := by
    rw [hbind]
    simp [htag, hshadow]
  simp only [State.ackTsu, hslice, hfind, Bool.not_true, Bool.false_eq_true, if_false, State.updTsu_tumb_nil htumb, htumb,
    List.any_nil, Bool.not_false, if_true]

theorem State.absentTsu_of_loose (hone : s.looseTags.filter (· = tag) = [tag]) (htag : tag ≠ 0) :
    s.absentTsu tag = s.shadowDomain tag := by
  simp only [State.absentTsu, htag, false_and, if_false, hone, List.foldl_cons, List.foldl_nil]

end

/-- Settles O48: each frame by its receiver, its port and the state of the domain or child it names. -/
theorem sideAndJoinRules : Obligations.SideAndJoinRules := by
  unfold Obligations.SideAndJoinRules
  refine ⟨fun i b s hrole hhigh hi => ⟨fun hside => ?_, fun hside => ?_⟩,
    fun i s hacts hlate hpartner => State.takeSide_of_late hacts hlate hpartner,
    fun i s hup hpartner => State.takeSide_of_reached hup hpartner,
    fun i b s hheld => ⟨Gd.noteTaken i b, State.childTaken_of_none hheld, (Tab.get_put ..).trans (if_pos rfl),
      (Tab.get_del ..).trans (if_pos rfl)⟩,
    fun p rx f s u hport hrole => ⟨fun hrx hmine => ?_, fun hrx hother => ?_, fun hrx hmine hacting => ?_⟩,
    fun i t b s hmoved hback => ⟨fun hearly => congrArg Host.Outcome.next (State.sideReturnDue_of_early hmoved hback hearly),
      fun at0 w hrole hown hfirst hdue hat hw => ?_⟩,
    fun i s hnone => congrArg Host.Outcome.next (State.sideReturnDue_of_unmoved hnone),
    fun p i rx f d s u v hrx hrole hdomain hdom hpart => congrArg (fun t : State => Host.Outcome.next (t.cutThrough s ⟨.gd, p⟩ rx))
      (State.joinReqRx_of_dom hrx hrole hdomain hdom hpart),
    fun p rx f s u hrx hrole hdomain => ⟨fun hsled hp => ?_, fun hhigh => ?_⟩,
    fun p rx f s u hrx hrole hdomain hdom => congrArg (fun t : State => Host.Outcome.next (t.cutThrough s ⟨.gd, p⟩ rx))
      (State.joinReqRx_of_stale hrx hrole hdomain hdom),
    fun d i die s => ⟨fun hout => State.joinAsked_of_expelled hout, fun at0 w hin hout hnew hat hw => ?_⟩,
    fun p rx f s u hrx => execJoinAckRx_of_tsu hrx, fun p rx f s u hport hrole hrx => ?_,
    fun l tag at0 s hslice => State.ackTsu_of_stale hslice, fun l tag n b at0 s hslice hbind htag hshadow htumb => ?_,
    fun p rx f s u hrx => execJoinAbsentRx_of_tsu hrx, fun tag s hmem hone htag => State.absentTsu_of_loose hone htag,
    fun p rx f s u h64 h65 hrole hrx => ?_, fun p rx f s u hrx htumb => ⟨fun hslice => ?_, fun n v hslice hv => ?_⟩,
    fun p rx f s u hport hrole hrx => execJoinRefuseRx_of_above hport hrole hrx⟩
  · refine (execSideWaitExpiry_of_decider hrole hhigh hi).trans ?_
    rw [hside]
  · refine (execSideWaitExpiry_of_decider hrole hhigh hi).trans ?_
    rw [hside]
  · exact congrArg (fun t : State => Host.Outcome.next (t.cutThrough s ⟨.gd, p⟩ rx))
      ((State.sideRx_of_above hport hrole hrx).trans (if_pos hmine))
  · exact congrArg (fun t : State => Host.Outcome.next (t.cutThrough s ⟨.gd, p⟩ rx))
      ((State.sideRx_of_above hport hrole hrx).trans (if_neg hother))
  · refine congrArg (fun t : State => Host.Outcome.next (t.cutThrough s ⟨.gd, p⟩ rx))
      ((State.sideRx_of_above hport hrole hrx).trans ((if_pos hmine).trans ?_))
    exact if_pos (Option.isSome_iff_ne_none.mpr hacting)
  · subst hat hw
    exact congrArg Host.Outcome.next (State.sideReturnDue_of_due hmoved hback hrole hown hfirst hdue)
  · exact congrArg (fun t : State => Host.Outcome.next (t.cutThrough s ⟨.gd, p⟩ rx))
      ((State.joinReqRx_of_restart hrx hrole hdomain).trans (if_pos ⟨hsled, hp⟩))
  · exact congrArg (fun t : State => Host.Outcome.next (t.cutThrough s ⟨.gd, p⟩ rx))
      ((State.joinReqRx_of_restart hrx hrole hdomain).trans (if_neg fun h => hhigh h.1))
  · subst hat hw
    exact State.joinAsked_of_out hin hout hnew
  · exact (execJoinAckRx_of_gd hrx).trans (congrArg (fun t : State => Host.Outcome.next (t.cutThrough s ⟨.gd, p⟩ rx))
      (State.ackGd_of_above hport hrole))
  · rw [State.ackTsu_of_shareless hslice hbind htag hshadow htumb]
    have hput := State.updSlice_slice s n n fun v => { v with bindings := v.bindings.map fun b =>
      if b.tag = tag then { b with joinAt := at0, mstate := .member } else b }
    rw [if_pos rfl] at hput
    refine (congrArg Slice.bindings hput).trans ?_
    rw [hbind, List.map_cons, List.map_nil, if_pos htag]
  · exact (execJoinAbsentRx_of_gd hrx).trans (congrArg (fun t : State => Host.Outcome.next (t.cutThrough s ⟨.gd, p⟩ rx))
      (State.absentGd_of_below hrole h64 h65))
  · refine (execJoinRefuseRx_of_tsu hrx htumb rfl).trans ?_
    rw [hslice]
    exact congrArg (fun o => Host.Outcome.next (u.logT .joinRefused (srcLane p) 0 o)) hslice
  · refine (execJoinRefuseRx_of_tsu hrx htumb rfl).trans ?_
    rw [hslice, hv]
    rfl

end Sys2Proof.Machine
end

section
/-! The census at both parts (R403 to R410). -/

namespace Sys2Proof.Machine

open Sys2Proof

/-! ## The ASK frames -/

section
variable {s u : State} {p q n e : Nat} {rx : Rx} {f : Frame} {d : GdDom} {c : Census} {t : Tumbler} {r : Result}

theorem execCensusListRx_of_tsu (hrx : s.askRx ⟨.tsu, p⟩ rx 0 = (u, some f)) : execCensusListRx ⟨.tsu, p⟩ rx s =
    .next ((ansFrames (f.nat 12 2) u.tsu.com.treeId (u.now .tsu).ns32 (u.tsuListGroups f.domain)).foldl
      (fun (s : State) x => s.send ⟨.tsu, p⟩ 2 0 [x]) u.askCounted) := by
  simp only [execCensusListRx, hrx, State.cutThrough_of_tsu]

theorem execCensusFetchRx_of_tsu (hrx : s.askRx ⟨.tsu, p⟩ rx 1 = (u, some f)) :
    execCensusFetchRx ⟨.tsu, p⟩ rx s = .next (u.tsuFetched ⟨.tsu, p⟩ f) := by
  simp only [execCensusFetchRx, hrx, State.cutThrough_of_tsu]

theorem State.askedTags_of_named (hdomain : f.domain ≠ 0) : s.askedTags f.domain = [f.domain] := if_pos hdomain

theorem execCensusResendRx_of_none_done (hrx : s.askRx ⟨.tsu, p⟩ rx 2 = (u, some f)) (hdomain : f.domain ≠ 0)
    (hnone : (u.sharesOf f.domain).filter (fun p => p.2.shareDone) = []) : execCensusResendRx ⟨.tsu, p⟩ rx s =
      .next (u.askCounted.send ⟨.tsu, p⟩ 2 0 [ansFrame (f.nat 12 2) u.tsu.com.treeId (u.now .tsu).ns32 f.domain 0 [] true]) := by
  simp only [execCensusResendRx, hrx, State.cutThrough_of_tsu, State.askedTags_of_named hdomain, List.flatMap_cons,
    List.flatMap_nil, List.append_nil, hnone, List.foldl_nil]
  rfl

theorem execCensusListRx_of_gd (hrx : s.askRx ⟨.gd, p⟩ rx 0 = (u, some f)) :
    execCensusListRx ⟨.gd, p⟩ rx s = .next ((u.gdAsked ⟨.gd, p⟩ f).cutThrough s ⟨.gd, p⟩ rx) := by
  simp only [execCensusListRx, hrx]

theorem execCensusFetchRx_of_gd (hrx : s.askRx ⟨.gd, p⟩ rx 1 = (u, some f)) :
    execCensusFetchRx ⟨.gd, p⟩ rx s = .next ((u.gdFetch ⟨.gd, p⟩ f).cutThrough s ⟨.gd, p⟩ rx) := by
  simp only [execCensusFetchRx, hrx]

theorem execCensusResendRx_of_gd (hrx : s.askRx ⟨.gd, p⟩ rx 2 = (u, some f)) :
    execCensusResendRx ⟨.gd, p⟩ rx s = .next ((u.gdAsked ⟨.gd, p⟩ f).cutThrough s ⟨.gd, p⟩ rx) := by
  simp only [execCensusResendRx, hrx]

theorem State.gdAsked_of_idle (hidle : s.gd.census = none) : s.gdAsked ⟨.gd, p⟩ f = s.gdAnswer f p := by
  simp only [State.gdAsked, hidle, Option.isSome_none, Bool.false_eq_true, if_false]

/-- A distributor with a census of its own holds the ASK, R406. -/
theorem State.gdAsked_of_running (hrun : s.gd.census = some c) :
    s.gdAsked ⟨.gd, p⟩ f = s.updGd fun g => { g with askHeld := g.askHeld ++ [⟨f, p, 1000⟩] } :=
  if_pos (Option.isSome_iff_exists.mpr ⟨c, hrun⟩)

theorem State.gdFetch_of_member (hdom : s.dom? f.domain = some d)
    (hfind : s.memberPorts.find? (fun p => (s.gd.members d.dr).contains (s.gd.childOfPort p)) = some q) : s.gdFetch ⟨.gd, p⟩ f =
      (s.updGd fun g => { g with askHeld := g.askHeld ++ [⟨f, p, q⟩] }).send ⟨.gd, q⟩ 2 0 [f] := by
  simp only [State.gdFetch, hdom, hfind]

variable (hslice : s.sliceOf f.domain = some n) (hfind : s.findTumb n f.domain (f.nat 15 2 % 4096) = some e)
  (htumb : s.tumb? e = some t) (hres : t.result = some r)
include hslice hfind htumb hres

theorem State.tsuFetched_of_kept (hgen : r.gen = BitVec.ofNat 2 (f.byte 17)) (hcal : r.calendar = false) :
    s.tsuFetched ⟨.tsu, p⟩ f = s.askCounted.send ⟨.tsu, p⟩ (if (t.keptTurn r).1 then 1 else 2) 0 (t.keptTurn r).2 := by
  simp only [State.tsuFetched, hslice, hfind, htumb, hres, Option.bind_some, hgen, hcal, ne_eq, not_true, Bool.false_eq_true,
    or_self, if_false]

theorem State.tsuFetched_of_other_gen (hgen : r.gen ≠ BitVec.ofNat 2 (f.byte 17)) : s.tsuFetched ⟨.tsu, p⟩ f = s := by
  simp only [State.tsuFetched, hslice, hfind, htumb, hres, Option.bind_some, hgen, ne_eq, not_false_iff, true_or, if_true]

end

/-! ## The answers -/

section
variable {s u : State} {p : Nat} {rx : Rx} {f : Frame} {c : Census} {l : LinkId}

theorem execCensusAnsRx_of_answer (hrx : s.receive ⟨.gd, p⟩ rx 0x17 = (u, some f)) (hp : p < 64) (hmore : f.more = false)
    (hcount : f.byte 14 ≤ 10) : execCensusAnsRx ⟨.gd, p⟩ rx s = .next (State.cutThrough (match u.gd.census with
      | some c => u.censusAns ⟨.gd, p⟩ c f
      | none => u) s ⟨.gd, p⟩ rx) := by
  simp only [execCensusAnsRx, reduceCtorEq, if_false, hrx, hmore, Nat.not_le.mpr hp, Nat.not_lt.mpr hcount, Bool.false_eq_true,
    or_self] <;> rfl

theorem State.censusAns_of_unasked (hother : l.port ∉ c.ports ∨ c.id ≠ f.nat 12 2) : s.censusAns l c f = s := by
  have hguard : (!c.ports.contains l.port) = true ∨ c.id ≠ f.nat 12 2 := hother.imp_left fun h => by simpa using h
  simp only [State.censusAns, if_pos hguard]

variable (hasked : l.port ∈ c.ports) (hid : c.id = f.nat 12 2)
include hasked hid

theorem State.censusAns_of_mismatch (himage : BitVec.ofNat 32 (f.nat 16 4) ≠ s.gd.com.treeId) : s.censusAns l c f =
    (((s.updLink l fun k => { k with excluded := true }).setEvt .gd 0x14 0x10).logG .topologyMismatch l.port).censusDrop l.port := by
  simp only [State.censusAns, List.contains_iff_mem.mpr hasked, Bool.not_true, Bool.false_eq_true, hid, ne_eq, not_true, or_self,
    if_false, himage, not_false_iff, if_true]

variable (himage : BitVec.ofNat 32 (f.nat 16 4) = s.gd.com.treeId) (hlast : bitOf (f.byte 15) 0 = true)
include himage hlast

/-- The last answer of a port that lists no share. -/
theorem State.censusAns_of_empty_list (hlist : c.resending = false) (hempty : f.byte 14 = 0) : s.censusAns l c f =
    (s.updCensus fun c => { c with listed := c.listed ++ [l.port] }).censusAdvance := by
  have hrecs : ansRecords f = [] := by
    rw [ansRecords, hempty]
    rfl
  simp only [State.censusAns, List.contains_iff_mem.mpr hasked, Bool.not_true, Bool.false_eq_true, hid, ne_eq, not_true, or_self,
    if_false, himage, hlist, hrecs, List.foldl_nil, hlast, if_true]

theorem State.censusAns_of_resent (hresend : c.resending = true) : s.censusAns l c f =
    (s.updCensus fun c => { c with resent := c.resent ++ [l.port] }).censusAdvance := by
  simp only [State.censusAns, List.contains_iff_mem.mpr hasked, Bool.not_true, Bool.false_eq_true, hid, ne_eq, not_true, or_self,
    if_false, himage, hresend, hlast, if_true]

end

/-! ## The waits of a census -/

section
variable {s : State} {c : Census} {x : Fetch} {tag : BitVec 24} {index p : Nat} {rest : List Nat} {upd : Census → Census}

theorem State.updCensus_of_running (hrun : s.gd.census = some c) :
    s.updCensus upd = s.updGd fun g => { g with census := some (upd c) } :=
  congrArg (fun o : Option Census => s.updGd fun g => { g with census := o }) (congrArg (Option.map upd) hrun)

/-- The one fetch that is out is the one the time-out names. -/
theorem Census.find_fetch (hfetch : c.fetches = [x]) (htag : x.tag = tag) (hindex : x.index = index) :
    c.fetches.find? (fun x => x.tag = tag && x.index = index) = some x := by
  rw [hfetch]
  exact List.find?_cons_of_pos (by simp [htag, hindex])

theorem State.fetchTimeout_of_early (hrun : s.gd.census = some c) (hfetch : c.fetches = [x]) (htag : x.tag = tag)
    (hindex : x.index = index) (hearly : s.gd.com.time.aon < x.since + 200000) : s.fetchTimeout tag index = s := by
  have hearly' : s.aon .gd < x.since + 200000 := hearly
  simp only [State.fetchTimeout, hrun, Option.bind_some, Census.find_fetch hfetch htag hindex, Option.map_some, hearly', if_true]

/-- The next candidate is asked 200 us later, R407. -/
theorem State.fetchTimeout_of_late (hrun : s.gd.census = some c) (hfetch : c.fetches = [x]) (htag : x.tag = tag)
    (hindex : x.index = index) (hlate : x.since + 200000 ≤ s.gd.com.time.aon) (hnext : x.next = p :: rest) :
    s.fetchTimeout tag index = (s.updGd fun g => { g with census := some { c with fetches := [{ x with
      port := p
      next := rest
      since := s.gd.com.time.aon }] } }).send ⟨.gd, p⟩ 2 0 [askFrame c.id 1 index x.gen.toNat tag (s.now .gd).ns32] := by
  have hlate' : ¬ s.aon .gd < x.since + 200000 := Nat.not_lt.mpr hlate
  simp only [State.fetchTimeout, hrun, Option.bind_some, Census.find_fetch hfetch htag hindex, Option.map_some, hlate', if_false,
    hnext, State.updCensus_of_running hrun]
  simp only [hfetch, List.map_cons, List.map_nil, htag, hindex, decide_true, Bool.and_true, if_true]
  rfl

theorem execCensusPortTimeout_of_running (hrun : s.gd.census = some c) : execCensusPortTimeout p s = .next (
    if !c.ports.contains p ∨ (if c.resending then c.resent else c.listed).contains p ∨ (c.built ∧ !c.resending) ∨
      s.aon .gd < c.askAt + 500000 then s else s.censusDrop p) := by
  simp only [execCensusPortTimeout, hrun]

theorem execCensusSlow_of_running (hrun : s.gd.census = some c) : execCensusSlow s = .next (
    if c.slowNoted ∨ s.gd.com.time.aon ≤ c.start + 2000000 then s
    else ((s.updCensus fun c => { c with slowNoted := true }).updGd fun g => { g with boot := { g.boot with slow := true } }).logG
      .censusSlow 0 (roundAway (s.gd.com.time.aon - c.start : Nat) 1000).toNat) := by
  simp only [execCensusSlow, hrun]
  rfl

end

/-- Settles O49: each frame and wait by its part and what its census says. -/
theorem censusRules : Obligations.CensusRules := by
  unfold Obligations.CensusRules
  refine ⟨fun p rx f s u => ⟨fun hrx => execCensusListRx_of_tsu hrx, fun hrx => execCensusFetchRx_of_tsu hrx,
      fun hrx hdomain hnone => execCensusResendRx_of_none_done hrx hdomain hnone⟩,
    fun p rx f s u hidle => ⟨fun hrx => ?_, fun hrx => ?_⟩, fun p rx c f s u hrun hrx => ?_, fun p rx f d s u hrx hdom q hfind => ?_,
    fun p n e f t r s hslice hfind htumb hres =>
      ⟨fun hgen hcal => State.tsuFetched_of_kept hslice hfind htumb hres hgen hcal,
        fun hgen => State.tsuFetched_of_other_gen hslice hfind htumb hres hgen⟩,
    fun p rx f s u hrx hp hmore hcount => ?_,
    fun tag index p rest c x s hrun hfetch htag hindex =>
      ⟨fun hearly => congrArg Host.Outcome.next (State.fetchTimeout_of_early hrun hfetch htag hindex hearly),
        fun hlate hnext => congrArg Host.Outcome.next (State.fetchTimeout_of_late hrun hfetch htag hindex hlate hnext)⟩,
    fun tag index s hidle => ⟨?_, ?_, ?_⟩,
    fun p c s hrun => ⟨fun hport hlist hbuilt hin hlate => ?_, fun hport hresend hin hlate => ?_, fun hnot => ?_⟩,
    fun c s hrun => ⟨fun hnew hlate => ?_, fun hnot => ?_⟩⟩
  · exact (execCensusListRx_of_gd hrx).trans
      (congrArg (fun t : State => Host.Outcome.next (t.cutThrough s ⟨.gd, p⟩ rx)) (State.gdAsked_of_idle hidle))
  · exact (execCensusResendRx_of_gd hrx).trans
      (congrArg (fun t : State => Host.Outcome.next (t.cutThrough s ⟨.gd, p⟩ rx)) (State.gdAsked_of_idle hidle))
  · exact (execCensusListRx_of_gd hrx).trans
      (congrArg (fun t : State => Host.Outcome.next (t.cutThrough s ⟨.gd, p⟩ rx)) (State.gdAsked_of_running hrun))
  · exact (execCensusFetchRx_of_gd hrx).trans
      (congrArg (fun t : State => Host.Outcome.next (t.cutThrough s ⟨.gd, p⟩ rx)) (State.gdFetch_of_member hdom hfind))
  · have hans : ∀ c, u.gd.census = some c →
        exec (.censusAnsRx ⟨.gd, p⟩ rx) s = .next ((u.censusAns ⟨.gd, p⟩ c f).cutThrough s ⟨.gd, p⟩ rx) := fun c hrun => by
      refine (execCensusAnsRx_of_answer hrx hp hmore hcount).trans ?_
      rw [hrun]
    refine ⟨fun hidle => ?_, fun c hrun hother => ?_, fun c hrun hport hid himage => ?_,
      fun c hrun hport hid himage hlist hempty hlast => ?_, fun c hrun hport hid himage hresend hlast => ?_⟩
    · refine (execCensusAnsRx_of_answer hrx hp hmore hcount).trans ?_
      rw [hidle]
    · rw [hans c hrun, State.censusAns_of_unasked hother]
    · rw [hans c hrun, State.censusAns_of_mismatch hport hid himage]
    · rw [hans c hrun, State.censusAns_of_empty_list hport hid himage hlast hlist hempty]
    · rw [hans c hrun, State.censusAns_of_resent hport hid himage hlast hresend]
  · show Host.Outcome.next (s.fetchTimeout tag index) = _
    simp only [State.fetchTimeout, hidle, Option.bind_none]
  · show execCensusPortTimeout index s = _
    simp only [execCensusPortTimeout, hidle]
  · show execCensusSlow s = _
    simp only [execCensusSlow, hidle]
  · refine (execCensusPortTimeout_of_running hrun).trans (congrArg Host.Outcome.next (if_neg ?_))
    rw [hlist, hbuilt]
    have hlate' : ¬ s.aon .gd < c.askAt + 500000 := Nat.not_lt.mpr hlate
    simp [hport, hin, hlate']
  · refine (execCensusPortTimeout_of_running hrun).trans (congrArg Host.Outcome.next (if_neg ?_))
    rw [hresend]
    have hlate' : ¬ s.aon .gd < c.askAt + 500000 := Nat.not_lt.mpr hlate
    simp [hport, hin, hlate']
  · refine (execCensusPortTimeout_of_running hrun).trans (congrArg Host.Outcome.next (if_pos ?_))
    rcases hnot with hearly | hport
    · exact .inr (.inr (.inr hearly))
    · exact .inl (by simpa using hport)
  · refine (execCensusSlow_of_running hrun).trans (congrArg Host.Outcome.next (if_neg ?_))
    rintro (h | h)
    · exact absurd h (by rw [hnew]; exact Bool.false_ne_true)
    · exact absurd hlate (Nat.not_lt.mpr h)
  · exact (execCensusSlow_of_running hrun).trans (congrArg Host.Outcome.next (if_pos hnot))

end Sys2Proof.Machine
end

section
/-! Supplies, the whole-unit reset and the chip reset (R28, R426, R432 to R436). -/

namespace Sys2Proof.Machine

open Sys2Proof

section
variable {s : State} {r v : Bool} {cause : Nat}

/-! ## The whole-unit reset -/

theorem State.unitReset_of_running (hrun : s.tsu.inReset = false) : s.unitReset = s.updTsu Tsu.unitReset :=
  if_neg (ne_true_of_eq_false hrun)

/-- A reset of a unit in reset is absorbed and counted, R432. -/
theorem State.unitReset_of_held (hheld : s.tsu.inReset = true) :
    s.unitReset = s.updTsu fun t => { t with absorbed := min (t.absorbed + 1) 0xFFFF } := if_pos hheld

/-- The unit once TSU_RST_N is high again. -/
def Tsu.started (t : Tsu) : Tsu :=
  { t with inReset := false
           boot := { t.boot with phase := 1, failed := false, startAt := t.com.time.aon, phaseAt := t.com.time.aon } }

theorem execDieResetRelease_of_held (hheld : s.tsu.inReset = true) : execDieResetRelease s = .next (s.updTsu Tsu.started) :=
  congrArg Host.Outcome.next (if_pos hheld)

theorem execDieResetRelease_of_running (hrun : s.tsu.inReset = false) : execDieResetRelease s = .next s :=
  congrArg Host.Outcome.next (if_neg (ne_true_of_eq_false hrun))

/-! ## Power-good and the chip reset -/

theorem strapLoc_eq : strapLoc r v = if r then some (mkLoc 3 0 + if v then 131072 else 0) else none := by
  cases v <;> rfl

theorem execPowerGood_of_powered (hpow : s.gd.powered = true) : execPowerGood r v s = .next s :=
  congrArg Host.Outcome.next (if_pos hpow)

/-- The distributor as its supplies come up. -/
def Gd.poweredUp (g : Gd) : Gd := { g.chipReset 0 with powered := true }

theorem execPowerGood_of_free (hpow : s.gd.powered = false) (hlow : s.gd.resetLow = false) :
    execPowerGood r v s = .next ((s.updGd Gd.poweredUp).powerGood r v) :=
  congrArg Host.Outcome.next ((if_neg (ne_true_of_eq_false hpow)).trans (if_neg (ne_true_of_eq_false hlow)))

/-- RESET_N low holds a distributor whose supplies come up. -/
theorem execPowerGood_of_low (hpow : s.gd.powered = false) (hlow : s.gd.resetLow = true) :
    execPowerGood r v s = .next (s.updGd Gd.poweredUp) :=
  congrArg Host.Outcome.next ((if_neg (ne_true_of_eq_false hpow)).trans (if_pos hlow))

/-- The distributor as RESET_N goes low. -/
def Gd.resetAsserted (g : Gd) : Gd := { (if g.powered && !g.resetLow then g.chipReset 1 else g) with resetLow := true }

/-- What RESET_N low leaves, whether it resets or not. -/
theorem Gd.resetAsserted_keeps (g : Gd) : g.resetAsserted.powered = g.powered ∧ g.resetAsserted.fw.slotA = g.fw.slotA
    ∧ g.resetAsserted.journal.lines = g.journal.lines := by
  unfold Gd.resetAsserted
  cases g.powered && !g.resetLow
  · exact ⟨rfl, rfl, rfl⟩
  · exact ⟨rfl, rfl, rfl⟩

theorem Gd.resetAsserted_of_running {g : Gd} (hpow : g.powered = true) (hlow : g.resetLow = false) :
    g.resetAsserted = { g.chipReset 1 with resetLow := true } := by
  rw [Gd.resetAsserted, hpow, hlow]
  rfl

theorem execResetNRelease_of_powered (hlow : s.gd.resetLow = true) (hpow : s.gd.powered = true) :
    execResetNRelease r v s = .next ((s.updGd fun g => { g with resetLow := false }).powerGood r v) :=
  congrArg Host.Outcome.next (if_pos (Bool.and_eq_true_iff.mpr ⟨hlow, hpow⟩))

theorem execResetNRelease_of_unpowered (hpow : s.gd.powered = false) :
    execResetNRelease r v s = .next (s.updGd fun g => { g with resetLow := false }) :=
  congrArg Host.Outcome.next (if_neg fun h => ne_true_of_eq_false hpow (Bool.and_eq_true_iff.mp h).2)

theorem State.chipReset_of_running (hpow : s.gd.powered = true) (hlow : s.gd.resetLow = false) :
    s.chipReset cause = (s.updGd fun g => g.chipReset cause).chipStart := by
  simp only [State.chipReset, hpow, hlow, Bool.not_true, Bool.false_eq_true, or_self, if_false]

theorem State.chipReset_of_held (hheld : s.gd.powered = false ∨ s.gd.resetLow = true) :
    s.chipReset cause = s.updGd fun g => { g with absorbed := min (g.absorbed + 1) 0xFFFF } :=
  if_pos (hheld.imp_left fun h => by rw [h]; rfl)

end

/-- Settles O50: each pin and reset by the state it finds, and the fields of the state it makes. -/
theorem powerAndResetRules : Obligations.PowerAndResetRules := by
  unfold Obligations.PowerAndResetRules
  refine ⟨fun s hrun => ⟨(s.updTsu Tsu.unitReset).updTsu fun t => { t with inReset := true }, ?_, rfl, rfl, rfl, rfl, rfl, rfl,
      rfl, rfl, rfl, rfl, rfl, rfl, rfl⟩,
    fun s hheld => ?_,
    fun s hheld => ⟨s.updTsu Tsu.started, execDieResetRelease_of_held hheld, rfl, rfl, rfl, rfl, rfl⟩,
    fun s hrun => execDieResetRelease_of_running hrun, fun r v s hpow => execPowerGood_of_powered hpow,
    fun r v s hpow hlow => ⟨(s.updGd Gd.poweredUp).powerGood r v, execPowerGood_of_free hpow hlow, rfl, rfl, rfl, rfl, rfl, rfl,
      strapLoc_eq, rfl⟩,
    fun r v s hpow hlow => ⟨s.updGd Gd.poweredUp, execPowerGood_of_low hpow hlow, rfl, hlow, rfl, rfl⟩,
    fun s => ⟨s.updGd fun g => { g.chipReset 0 with powered := false }, rfl, rfl, rfl, rfl, rfl, rfl, rfl, rfl, rfl⟩,
    fun s => ?_,
    fun r v s hlow hpow => ⟨(s.updGd fun g => { g with resetLow := false }).powerGood r v, execResetNRelease_of_powered hlow hpow,
      rfl, rfl, rfl, rfl, rfl⟩,
    fun r v s hpow => execResetNRelease_of_unpowered hpow,
    fun s hpow hlow => ⟨⟨(s.updGd fun g => g.chipReset 3).chipStart, congrArg Host.Outcome.next (State.chipReset_of_running hpow hlow),
        rfl, rfl, rfl, rfl, rfl, rfl, rfl, rfl, rfl, rfl, rfl, rfl, rfl⟩,
      (s.updGd fun g => g.chipReset 2).chipStart, congrArg Host.Outcome.next (State.chipReset_of_running hpow hlow), rfl, rfl, rfl⟩,
    fun s hheld => ⟨congrArg Host.Outcome.next (State.chipReset_of_held hheld),
      congrArg Host.Outcome.next (State.chipReset_of_held hheld)⟩⟩
  · exact congrArg (fun u : State => Host.Outcome.next (u.updTsu fun t => { t with inReset := true })) (State.unitReset_of_running hrun)
  · exact congrArg (fun u : State => Host.Outcome.next (u.updTsu fun t => { t with inReset := true })) (State.unitReset_of_held hheld)
  · obtain ⟨hpowered, hslot, hlines⟩ := s.gd.resetAsserted_keeps
    refine ⟨s.updGd Gd.resetAsserted, rfl, rfl, hpowered, hslot, hlines, rfl, fun hpow hlow => ?_⟩
    have hreset : (s.updGd Gd.resetAsserted).gd = { s.gd.chipReset 1 with resetLow := true } := Gd.resetAsserted_of_running hpow hlow
    rw [hreset]
    exact ⟨rfl, rfl, rfl⟩

end Sys2Proof.Machine
end

section
/-! Bring-up phases, stages and the journal's controls (R412 to R431, R440 to R445). -/

namespace Sys2Proof.Machine

open Sys2Proof

/-! ## Phases -/

section
variable {s : State} {n : Node} {lim stage code count : Nat} {d : Word}

/-- The report of a phase that passed. -/
def State.passReport (s : State) (n : Node) (stage code count : Nat) (d : Word) : Report :=
  ⟨match n with | .tsu => 1 | .gd => 2, stage, 0, code, count,
    (roundAway (s.aon n - (s.boot n).startAt : Nat) 1000).toNat, d⟩

/-- A line added to the reports of a part. -/
def State.reported (s : State) (n : Node) (r : Report) : State :=
  match n with
  | .tsu => s.updTsu fun t => { t with reports := (r :: t.reports).take 16 }
  | .gd => s.updGd fun g => { g with reports := (r :: g.reports).take 32 }

/-- A PASS is a line of the reports alone, R422. -/
theorem State.report_of_pass : s.report n stage 0 code count d = s.reported n (s.passReport n stage code count d) := by
  cases n <;> simp only [State.report, true_or, if_true] <;> rfl

theorem Gd.journalWrite_boot (g : Gd) (kind code source : Nat) (body : List Byte) :
    (g.journalWrite kind code source body).boot = g.boot := by
  obtain ⟨j, hj⟩ := g.journalWrite_eq kind code source body
  rw [hj]

theorem State.report_gd_boot {result : Nat} : (s.report .gd stage result code count d).gd.boot = s.gd.boot := by
  simp only [State.report]
  split
  · rfl
  · exact Gd.journalWrite_boot ..

theorem State.bootMsLatch_of_latched (hms : (s.boot n).bootMs ≠ none) : s.bootMsLatch n = s := by
  have hsome : (s.boot n).bootMs.isNone = false := by
    rw [Option.isNone_eq_false_iff]
    exact Option.isSome_iff_ne_none.mpr hms
  cases n with
  | tsu =>
    have hsome' : s.tsu.boot.bootMs.isNone = false := hsome
    simp only [State.bootMsLatch, hsome', Bool.false_eq_true, if_false, ite_self]
  | gd =>
    have hsome' : s.gd.boot.bootMs.isNone = false := hsome
    simp only [State.bootMsLatch, hsome', Bool.false_eq_true, if_false, ite_self]

/-- A part as its phase 3 gives way to phase 4. -/
def State.thirdPassed (s : State) (n : Node) : State :=
  (s.reported n (s.passReport n 3 0 (s.phaseOut n 3).1 (BitVec.ofNat 32 (s.phaseOut n 3).2))).updBoot n fun b =>
    { b with phase := 4, phaseAt := s.aon n }

/-- Phase 3 has no work of its own when it ends. -/
theorem State.phasePass_of_third (hphase : (s.boot n).phase = 3) (hms : (s.boot n).bootMs ≠ none) :
    s.phasePass n = s.thirdPassed n := by
  have hnext : (if n = .gd ∧ 3 = 6 then 15 else 3 + 1) = 4 := if_neg fun h => absurd h.2 (by decide)
  simp only [State.phasePass, hphase, hnext, State.report_of_pass]
  cases n with
  | tsu => exact State.bootMsLatch_of_latched (s := s.thirdPassed .tsu) hms
  | gd => exact State.bootMsLatch_of_latched (s := s.thirdPassed .gd) hms

theorem State.bootPhasePass_of_unmet (hunmet : s.phaseMet n = false) : s.bootPhasePass n = s := by
  simp only [State.bootPhasePass, hunmet, Bool.not_false, if_true]

theorem State.bootPhasePass_of_third (hmet : s.phaseMet n = true) (hphase : (s.boot n).phase = 3) (hms : (s.boot n).bootMs ≠ none) :
    s.bootPhasePass n = s.thirdPassed n := by
  have hfourth : ¬ (n = .tsu ∧ (s.thirdPassed n).tsu.boot.warm = true ∧
      ((s.thirdPassed n).tsu.boot.phase = 2 ∨ (s.thirdPassed n).tsu.boot.phase = 5)) := by
    rintro ⟨rfl, -, h⟩
    exact absurd h (by decide : ¬ (4 = 2 ∨ 4 = 5))
  simp only [State.bootPhasePass, hmet, Bool.not_true, Bool.false_eq_true, State.phasePass_of_third hphase hms, hfourth, if_false]

theorem State.phaseMet_of_unlocked (hphase : s.tsu.boot.phase = 2) (hcold : s.tsu.boot.warm = false)
    (hpll : s.tsu.com.time.pllLocked = false) : s.phaseMet .tsu = false := by
  simp only [State.phaseMet, State.boot, hphase, hcold, hpll, Bool.false_and, Bool.or_false, Bool.and_false]

theorem State.bootPhaseTimeout_of_early (hlim : phaseLimit n (s.boot n).phase = some lim)
    (hearly : s.aon n < (s.boot n).phaseAt + lim) : s.bootPhaseTimeout n = s := by
  simp only [State.bootPhaseTimeout, hlim, hearly, or_true, if_true]

theorem State.bootPhaseTimeout_of_failed (hfail : (s.boot n).failed = true) : s.bootPhaseTimeout n = s := by
  rw [State.bootPhaseTimeout]
  cases phaseLimit n (s.boot n).phase with
  | none => rfl
  | some lim => exact if_pos (Or.inl hfail)

/-- A phase past its limit fails, and a hall root keeps RING_BYPASS_N low, R416. -/
theorem State.bootPhaseTimeout_of_late (hlim : phaseLimit n (s.boot n).phase = some lim) (hfail : (s.boot n).failed = false)
    (hphased : s.phased n = true) (hlate : (s.boot n).phaseAt + lim ≤ s.aon n) : s.bootPhaseTimeout n =
      match n with
      | .tsu => (s.updBoot .tsu fun b => { b with failed := true }).report .tsu s.tsu.boot.phase 3 ErrCode.bootFail.value 0
        (BitVec.ofNat 32 s.tsu.boot.phase)
      | .gd => ((s.updBoot .gd fun b => { b with failed := true }).report .gd s.gd.boot.phase 3 ErrCode.bootFail.value 0
        (BitVec.ofNat 32 s.gd.boot.phase)).updGd fun g => { g with ringLow := true } := by
  simp only [State.bootPhaseTimeout, hlim, hfail, hphased, Bool.not_true, Bool.false_eq_true, Nat.not_lt.mpr hlate, or_self, if_false]
  cases n <;> rfl

end

/-! ## Stages -/

/-- The distributor as its stage 2 gives way to stage 3. -/
def State.secondPassed (s : State) (count : Nat) (d : Word) : State :=
  (s.reported .gd (s.passReport .gd 2 0 count d)).updBoot .gd fun b =>
    { b with phase := if b.phase = 8 then 15 else b.phase + 1, phaseAt := s.aon .gd }

theorem State.secondPassed_phase {s : State} {count : Nat} {d : Word} (hphase : s.gd.boot.phase = 2) :
    (s.secondPassed count d).gd.boot.phase = 3 := by
  show (if s.gd.boot.phase = 8 then 15 else s.gd.boot.phase + 1) = 3
  rw [hphase]
  rfl

section
variable {s : State} {e : StageEnd} {code count : Nat} {d : Word}

theorem State.bootStageEnd_of_unmet (hnot : s.gd.rootSel = true ∨ s.gd.boot.failed = true ∨ s.stageMet e = false) :
    s.bootStageEnd e code count d = s := by
  refine if_pos ?_
  rcases hnot with h | h | h
  · exact .inl h
  · exact .inr (.inr (.inr (.inl h)))
  · exact .inr (.inr (.inr (.inr (by rw [h]; rfl))))

variable (hroot : s.gd.rootSel = false) (hpow : s.gd.powered = true) (hlow : s.gd.resetLow = false)
  (hfail : s.gd.boot.failed = false)
include hroot hpow hlow hfail

theorem State.bootStageEnd_of_waiting (hmet : s.stageMet .waiting = true) :
    s.bootStageEnd .waiting code count d = s.report .gd s.gd.boot.phase 2 (code % 65536) count d := by
  simp only [State.bootStageEnd, hroot, hpow, hlow, hfail, hmet, Bool.not_true, Bool.false_eq_true, or_self, if_false]

theorem State.bootStageEnd_of_fail (hmet : s.stageMet .fail = true) : s.bootStageEnd .fail code count d =
    ((s.updBoot .gd fun b => { b with failed := true }).report .gd s.gd.boot.phase 3 ErrCode.bootFail.value count
      (BitVec.ofNat 32 s.gd.boot.phase)).fwRevert 4 := by
  simp only [State.bootStageEnd, hroot, hpow, hlow, hfail, hmet, Bool.not_true, Bool.false_eq_true, or_self, if_false]

/-- Stage 2 has no work of its own when it ends. -/
theorem State.bootStageEnd_of_second (hmet : s.stageMet .pass = true) (hphase : s.gd.boot.phase = 2)
    (hms : s.gd.boot.bootMs ≠ none) : s.bootStageEnd .pass code count d = s.secondPassed count d := by
  simp only [State.bootStageEnd, hroot, hpow, hlow, hfail, hmet, Bool.not_true, Bool.false_eq_true, or_self, if_false,
    hphase, State.stageWork, State.report_of_pass]
  exact State.bootMsLatch_of_latched (s := s.secondPassed count d) hms

end

theorem State.stageMet_of_unlocked {s : State} (hphase : s.gd.boot.phase = 2) (hpll : s.gd.com.time.pllLocked = false) :
    s.stageMet .pass = false := by
  simp only [State.stageMet, hphase, hpll]

theorem State.stageMet_of_untracked {s : State} (hphase : s.gd.boot.phase = 7) (hmode : s.gd.com.time.mode ≠ .track) :
    s.stageMet .pass = false := by
  simp only [State.stageMet, hphase, hmode, decide_false, Bool.false_and]

/-! ## The journal -/

section
variable {s : State} {off r : Nat} {w : Word} {l : List Byte} {f : Journal → Journal}

theorem State.journalDo_of_none (hnone : s.gd.hasJournal = false) :
    s.journalDo off f = s.updCom .gd fun c => c.accessErr 1 off := if_neg (ne_true_of_eq_false hnone)

theorem State.journalDo_of_stack (hhas : s.gd.hasJournal = true) :
    s.journalDo off f = s.updGd fun g => { g with journal := f g.journal } := if_pos hhas

theorem execJournalFreeze_of_none (hnone : s.gd.hasJournal = false) :
    execJournalFreeze w s = .next (s.updCom .gd fun c => c.accessErr 1 0x800) := by
  simp only [execJournalFreeze, hnone, Bool.false_eq_true, if_false, State.journalDo_of_none hnone]

theorem execJournalRead_of_none (hnone : s.gd.hasJournal = false) :
    execJournalRead w s = .next (s.updCom .gd fun c => c.accessErr 1 0x814) := by
  simp only [execJournalRead, hnone, Bool.false_eq_true, if_false, State.journalDo_of_none hnone]

theorem execJournalFreeze_of_stack (hhas : s.gd.hasJournal = true) : execJournalFreeze w s = .next
    ((s.setReg .gd 0x800 (w &&& 0xFFFF7FFF#32)).updGd fun g => { g with journal := g.journal.freeze (bitOf w.toNat 0) }) := by
  simp only [execJournalFreeze, hhas, if_true]
  exact congrArg Host.Outcome.next (State.journalDo_of_stack hhas)

theorem execJournalRead_of_stack (hhas : s.gd.hasJournal = true) (hr : w.toNat * 4294967296 + s.reg .gd 0x810 = r) :
    execJournalRead w s = .next ((s.setReg .gd 0x814 w).updGd fun g => { g with journal := g.journal.read r }) := by
  have hhigh : (s.setReg .gd 0x814 w).reg .gd 0x814 = w.toNat := (s.setReg_reg 0x814 0x814 w).trans (if_pos rfl)
  have hsame : (s.setReg .gd 0x814 w).reg .gd 0x810 = s.reg .gd 0x810 := (s.setReg_reg 0x814 0x810 w).trans (if_neg (by decide))
  simp only [execJournalRead, hhas, if_true, hhigh, hsame, hr]
  exact congrArg Host.Outcome.next (State.journalDo_of_stack hhas)

theorem Journal.freeze_frozen (j : Journal) (on : Bool) : (j.freeze on).frozen = on ∧ (on = false → (j.freeze on).triggered = false)
    ∧ (j.freeze on).lines = j.lines := by
  cases on
  · exact ⟨rfl, fun _ => rfl, rfl⟩
  · exact ⟨rfl, fun h => absurd h.symm Bool.false_ne_true, rfl⟩

theorem Journal.read_of_none {j : Journal} (hnone : Tab.get j.lines r = none) : j.read r = { j with view := none, viewStat := 5 } := by
  simp only [Journal.read, hnone]

theorem Journal.read_of_line {j : Journal} (hline : Tab.get j.lines r = some l) :
    j.read r = { j with view := some l, viewStat := if l = rsLine (l.take 60) then 1 else 3 } := by
  simp only [Journal.read, hline]

theorem Journal.retrain_of_running {j : Journal} (hrun : j.retraining = false) : j.retrain = { j with retraining := true } :=
  if_neg (ne_true_of_eq_false hrun)

theorem Journal.retrain_of_empty {j : Journal} (hre : j.retraining = true) (hwait : j.wait = []) :
    j.retrain = { j with retraining := false } := by
  simp only [Journal.retrain, hre, if_true, hwait, List.foldl_nil]

end

/-- Settles O51: phases, stages and journal controls by the case each clause names. -/
theorem bootAndJournalRules : Obligations.BootAndJournalRules := by
  unfold Obligations.BootAndJournalRules
  refine ⟨fun n s hunmet => congrArg Host.Outcome.next (State.bootPhasePass_of_unmet hunmet),
    fun s hmet _ hphase hms => ⟨_, s.passReport .tsu 3 0 (s.phaseOut .tsu 3).1 (BitVec.ofNat 32 (s.phaseOut .tsu 3).2),
      congrArg Host.Outcome.next (State.bootPhasePass_of_third hmet hphase hms),
      rfl, rfl, rfl, rfl, rfl, rfl, rfl, rfl⟩,
    fun s hmet hphase hms => ⟨_, s.passReport .gd 3 0 (s.phaseOut .gd 3).1 (BitVec.ofNat 32 (s.phaseOut .gd 3).2),
      congrArg Host.Outcome.next (State.bootPhasePass_of_third hmet hphase hms),
      rfl, rfl, rfl, rfl, rfl, rfl, rfl, rfl⟩,
    fun s hphase hcold hpll => State.phaseMet_of_unlocked hphase hcold hpll,
    fun n lim s hlim hearly => congrArg Host.Outcome.next (State.bootPhaseTimeout_of_early hlim hearly),
    fun n s hfail => congrArg Host.Outcome.next (State.bootPhaseTimeout_of_failed hfail),
    fun lim s hlim hfail hreset hlate => congrArg Host.Outcome.next
      (State.bootPhaseTimeout_of_late (n := .tsu) hlim hfail (by rw [State.phased, hreset]; rfl) hlate),
    fun lim s hlim hfail hroot hpow hlow hlate => ?_,
    fun e code count d s hnot => congrArg Host.Outcome.next (State.bootStageEnd_of_unmet hnot),
    fun code count d s hroot hpow hlow hfail =>
      ⟨fun hmet => congrArg Host.Outcome.next (State.bootStageEnd_of_waiting hroot hpow hlow hfail hmet),
        fun hmet => congrArg Host.Outcome.next (State.bootStageEnd_of_fail hroot hpow hlow hfail hmet),
        fun hmet hphase hms => ⟨_, congrArg Host.Outcome.next
          (State.bootStageEnd_of_second hroot hpow hlow hfail hmet hphase hms),
          State.secondPassed_phase hphase, rfl, rfl⟩⟩,
    fun s hphase hpll => State.stageMet_of_unlocked hphase hpll,
    fun s hphase hmode => State.stageMet_of_untracked hphase hmode,
    fun w s hnone => ⟨execJournalFreeze_of_none hnone, execJournalRead_of_none hnone,
      congrArg Host.Outcome.next (if_neg (ne_true_of_eq_false hnone))⟩,
    fun w s hhas => ?_, fun s => ⟨fun hpost hrun => ?_, fun hpost => ?_⟩,
    fun w r s hhas hr => ⟨fun hnone => ?_, fun l hline => ?_⟩,
    fun s hhas => ⟨fun hrun => ?_, fun hre hwait => ?_⟩⟩
  · have hphased : s.phased .gd = true := by rw [State.phased, hroot, hpow, hlow]; rfl
    refine ⟨_, congrArg Host.Outcome.next (State.bootPhaseTimeout_of_late (n := .gd) hlim hfail hphased hlate), ?_, rfl, ?_⟩
    · exact congrArg Boot.failed (State.report_gd_boot (s := s.updBoot .gd fun b => { b with failed := true }))
    · exact (State.report_quiet (stage := s.gd.boot.phase) (result := 3) (code := ErrCode.bootFail.value) (count := 0)
        (detail := BitVec.ofNat 32 s.gd.boot.phase) rfl
        (State.updBoot_quiet (f := fun b => { b with failed := true }) rfl (.refl s))).apart.tsu
  · obtain ⟨hfrozen, htrig, hlines⟩ := s.gd.journal.freeze_frozen (bitOf w.toNat 0)
    exact ⟨_, execJournalFreeze_of_stack hhas, hfrozen, htrig, hlines, rfl⟩
  · refine congrArg (fun j : Journal => Host.Outcome.next (s.updGd fun g => { g with journal := j })) (if_pos ⟨hpost, ?_⟩)
    rw [hrun]
    rfl
  · exact congrArg (fun j : Journal => Host.Outcome.next (s.updGd fun g => { g with journal := j })) (if_neg fun h => hpost h.1)
  · refine ⟨_, execJournalRead_of_stack hhas hr, ?_⟩
    have hread : ((s.setReg .gd 0x814 w).updGd fun g => { g with journal := g.journal.read r }).gd.journal =
        { s.gd.journal with view := none, viewStat := 5 } := Journal.read_of_none hnone
    rw [hread]
    exact ⟨rfl, rfl, rfl⟩
  · refine ⟨_, execJournalRead_of_stack hhas hr, ?_⟩
    have hread : ((s.setReg .gd 0x814 w).updGd fun g => { g with journal := g.journal.read r }).gd.journal =
        { s.gd.journal with view := some l, viewStat := if l = rsLine (l.take 60) then 1 else 3 } := Journal.read_of_line hline
    rw [hread]
    exact ⟨rfl, rfl, rfl⟩
  · exact congrArg Host.Outcome.next ((if_pos hhas).trans
      (congrArg (fun j : Journal => s.updGd fun g => { g with journal := j }) (Journal.retrain_of_running hrun)))
  · exact congrArg Host.Outcome.next ((if_pos hhas).trans
      (congrArg (fun j : Journal => s.updGd fun g => { g with journal := j }) (Journal.retrain_of_empty hre hwait)))

end Sys2Proof.Machine
end

section
/-! Partial resets, port control, the temperature pin and scrubbing (R150, R419, R433 to R439, R452 to R458). -/

namespace Sys2Proof.Machine

open Sys2Proof

/-! ## Launch ports and the unit -/

section
variable {s : State} {p at0 : Nat}

/-- The state once TSU_PORT_RST names its port. -/
def State.portNamed (s : State) (p : Nat) : State :=
  s.setReg .tsu 0x7C4 (BitVec.ofNat 32 (s.reg .tsu 0x7C4 / 1024 * 1024 + p % 1024))

theorem State.portRst_of_held (hheld : s.tsu.inReset = true ∨ (s.port p).resetAt ≠ none) :
    s.portRst p = (s.portNamed p).absorb .tsu := if_pos (hheld.imp_right Option.isSome_iff_ne_none.mpr)

variable (hrun : s.tsu.inReset = false) (hfree : (s.port p).resetAt = none)
include hrun hfree

theorem State.portRst_of_free : s.portRst p = if (s.portNamed p).isPort p then (s.portNamed p).portReset p else s.portNamed p := by
  refine if_neg ?_
  have hrun' : (s.portNamed p).tsu.inReset = false := hrun
  have hfree' : ((s.portNamed p).port p).resetAt = none := hfree
  rintro (h | h)
  · exact ne_true_of_eq_false hrun' h
  · have h' : ((s.portNamed p).port p).resetAt.isSome = true := h
    rw [hfree'] at h'
    exact Bool.false_ne_true h'

theorem State.portRst_of_port (hport : s.isPort p = true) : s.portRst p = (s.portNamed p).portReset p :=
  (State.portRst_of_free hrun hfree).trans (if_pos hport)

theorem State.portRst_of_other (hport : s.isPort p = false) : s.portRst p = s.portNamed p :=
  (State.portRst_of_free hrun hfree).trans (if_neg (ne_true_of_eq_false hport))

end

theorem execPortResetEnd_of_reset {s : State} {p at0 : Nat} (hreset : (s.port p).resetAt = some at0) : execPortResetEnd p s =
    .next (if at0 + 128 ≤ s.tsu.com.time.aon then s.updPort p fun q => { q with resetAt := none } else s) := by
  simp only [execPortResetEnd, hreset]
  rfl

/-! ## Ports of a distributor -/

section
variable {s : State} {p off : Nat} {f : State → State}

theorem State.portPage_of_absent (habsent : s.gd.portAbsent p = true) :
    s.portPage p off f = s.updCom .gd fun c => c.accessErr 1 (0x10000 + 0x100 * p + off) := if_pos habsent

theorem State.portPage_of_present (hhere : s.gd.portAbsent p = false) : s.portPage p off f = f s :=
  if_neg (ne_true_of_eq_false hhere)

theorem State.gdPortRst_of_held (hhere : s.gd.portAbsent p = false) (hheld : s.gd.powered = false ∨ s.gd.resetLow = true) :
    s.gdPortRst p = s.absorb .gd :=
  (State.portPage_of_present hhere).trans (if_pos (hheld.imp_left fun h => by rw [h]; rfl))

/-- A port reset with no class 3 frame to lose is a retrain, R435. -/
theorem State.gdPortRst_of_empty (hhere : s.gd.portAbsent p = false) (hpow : s.gd.powered = true) (hlow : s.gd.resetLow = false)
    (hmarks : s.gd.com.marks = []) (hq : (s.link ⟨.gd, p⟩).q3 = []) (hreplay : (s.link ⟨.gd, p⟩).replay = [])
    (hle : s.gd.absorbed ≤ 0xFFFF) : s.gdPortRst p = s.retrain ⟨.gd, p⟩ := by
  have hcount : (s.updGd fun g => { g with absorbed := min g.absorbed 0xFFFF }) = s :=
    congrArg (fun k : Nat => s.updGd fun g => { g with absorbed := k }) (Nat.min_eq_left hle)
  have hmarked : (s.updCom .gd fun c => { c with marks := c.marks.filter fun m => !(m.port = p && m.cls = 3) }) = s := by
    refine (congrArg (fun l => s.updCom .gd fun c => { c with marks := l })
      (?_ : (s.gd.com.marks.filter fun m => !(m.port = p && m.cls = 3)) = s.gd.com.marks)).trans rfl
    rw [hmarks]
    rfl
  refine (State.portPage_of_present hhere).trans ?_
  simp only [hpow, hlow, Bool.not_true, Bool.false_eq_true, or_self, if_false, hmarks, hq, hreplay, List.filter_nil, List.length_nil,
    Nat.add_zero]
  rw [hcount, hmarked]

end

/-! ## Domains, rates, the ring and the temperature pin -/

section
variable {s : State} {tag : BitVec 24} {d : GdDom} {p : Nat} {c : Int}

/-- The state once GD_DOM_RST names its domain. -/
def State.domNamed (s : State) (tag : BitVec 24) : State := s.setReg .gd 0x91C (BitVec.ofNat 32 tag.toNat)

theorem State.domainRst_of_held (hheld : s.gd.powered = false ∨ s.gd.resetLow = true ∨ tag ∈ s.gd.domRst) :
    s.domainRst tag = (s.domNamed tag).absorb .gd :=
  if_pos (hheld.imp (congrArg (!·)) fun h => h.imp_right List.contains_iff_mem.mpr)

variable (hpow : s.gd.powered = true) (hlow : s.gd.resetLow = false) (hnew : tag ∉ s.gd.domRst)
include hpow hlow hnew

theorem State.domainRst_of_running : s.domainRst tag = match s.dom? tag with
    | none => s.domNamed tag
    | some _ => ((s.domNamed tag).updGd fun g => { g with
      softs := g.softs.filter fun p => p.1 / 4096 ≠ tag.toNat
      domRst := g.domRst ++ [tag] }).fullCensus (some [tag]) false := by
  have hpow' : (s.domNamed tag).gd.powered = true := hpow
  have hlow' : (s.domNamed tag).gd.resetLow = false := hlow
  have hnew' : (s.domNamed tag).gd.domRst.contains tag = false := by
    rw [Bool.eq_false_iff]
    exact fun h => hnew (List.contains_iff_mem.mp h)
  refine (if_neg ?_).trans rfl
  rintro (h | h | h)
  · exact Bool.false_ne_true ((congrArg (!·) hpow').symm.trans h)
  · exact ne_true_of_eq_false hlow' h
  · exact ne_true_of_eq_false hnew' h

end

theorem execRingBypassWrite_of_clear {s : State} (hrole : s.gd.hasRole = true) (hon : s.gd.portsOn = true)
    (hfail : s.gd.boot.failed = false) (hgood : ∀ p ∈ s.gd.badPorts, p < 66) :
    execRingBypassWrite false s = .next (s.updGd fun g => { g with ringHeld := false, ringLow := false }) := by
  have hany : (s.gd.badPorts.any fun p => 66 ≤ p) = false :=
    List.any_eq_false.mpr fun p hp h => absurd (of_decide_eq_true h) (Nat.not_le.mpr (hgood p hp))
  have hlow : (false || !s.gd.hasRole || !s.gd.portsOn || s.gd.boot.failed || s.gd.badPorts.any fun p => 66 ≤ p) = false := by
    rw [hrole, hon, hfail, hany]
    rfl
  exact congrArg (fun b : Bool => Host.Outcome.next (s.updGd fun g => { g with ringHeld := false, ringLow := b })) hlow

theorem execThermNAlarm_eq {s : State} {c : Int} {b : Bool}
    (hb : (if 110 ≤ c then true else if c < 105 then false else s.gd.therm) = b) :
    execThermNAlarm c s = .next (s.updGd fun g => { g with therm := b }) :=
  congrArg (fun b : Bool => Host.Outcome.next (s.updGd fun g => { g with therm := b })) hb

/-! ## Lost tumblers -/

section
variable {s : State} {e : Nat} {t : Tumbler} (htumb : s.tumb? e = some t)
include htumb

theorem State.lostTumbler_of_closing (hclosing : t.estate = .closing) : s.lostTumbler e = s := by
  simp only [State.lostTumbler, htumb, hclosing, if_true]

theorem State.lostTumbler_of_local (hopen : t.estate ≠ .closing) (hlocal : t.domain = 0) :
    s.lostTumbler e = (s.failWaiters e .storeUncorr).closeTumb e := by
  simp only [State.lostTumbler, htumb, hopen, if_false, hlocal, if_true]

/-- A lost share of a domain goes through SHADOW and joins again, R455. -/
theorem State.lostTumbler_of_share (hopen : t.estate ≠ .closing) (hdomain : t.domain ≠ 0) (hin : t.mstate ≠ .expelled) :
    s.lostTumbler e = ((s.enterShadow e .shadow).updBinding t.slice t.domain fun b =>
      { b with mstate := if b.mstate = .expelled then .expelled else .shadow }).joinSoon t.domain := by
  simp only [State.lostTumbler, htumb, hopen, hdomain, hin, if_false]

end

/-- Settles O52: each reset, control and lost line by the state it finds. -/
theorem partialResetRules : Obligations.PartialResetRules := by
  unfold Obligations.PartialResetRules
  refine ⟨fun p u s hu => ?_, fun p at0 s hreset => ⟨fun hdone => ?_, fun hearly => ?_⟩,
    fun s => ⟨fun hrun => congrArg Host.Outcome.next (State.unitReset_of_running hrun),
      fun hheld => congrArg Host.Outcome.next (State.unitReset_of_held hheld)⟩,
    fun p s habsent => ⟨congrArg Host.Outcome.next (State.portPage_of_absent habsent),
      congrArg Host.Outcome.next (State.portPage_of_absent habsent),
      fun en => congrArg Host.Outcome.next (State.portPage_of_absent habsent)⟩,
    fun p s hhere => ⟨fun hheld => congrArg Host.Outcome.next (State.gdPortRst_of_held hhere hheld),
      fun hpow hlow hmarks hq hreplay hle =>
        congrArg Host.Outcome.next (State.gdPortRst_of_empty hhere hpow hlow hmarks hq hreplay hle),
      congrArg Host.Outcome.next (State.portPage_of_present hhere), congrArg Host.Outcome.next (State.portPage_of_present hhere),
      fun hdecl => congrArg Host.Outcome.next ((State.portPage_of_present hhere).trans (if_pos hdecl)),
      fun hdecl => congrArg Host.Outcome.next ((State.portPage_of_present hhere).trans (if_neg (ne_true_of_eq_false hdecl)))⟩,
    fun tag d u s hu => ?_,
    fun p s => ⟨fun hper hdue hp hup hfb hpath => congrArg Host.Outcome.next (if_pos ⟨hper, hdue, hp, hup, hfb, hpath⟩),
      fun hnot => congrArg Host.Outcome.next (if_neg ?_)⟩,
    fun s => rfl, fun s hrole hon hfail hgood => execRingBypassWrite_of_clear hrole hon hfail hgood,
    fun c s => ⟨fun hhot => execThermNAlarm_eq (if_pos hhot), fun hcold => ?_, fun hover hunder => ?_⟩,
    fun st key s => rfl, fun key s => ⟨rfl, rfl⟩, fun key s => ⟨rfl, rfl, rfl, rfl, rfl⟩,
    fun e t s htumb => ⟨fun hopen hlocal => State.lostTumbler_of_local htumb hopen hlocal,
      fun hclosing => State.lostTumbler_of_closing htumb hclosing,
      fun hopen hdomain hin => State.lostTumbler_of_share htumb hopen hdomain hin⟩⟩
  · subst hu
    exact ⟨fun hheld => congrArg Host.Outcome.next (State.portRst_of_held hheld),
      fun hrun hfree hport => congrArg Host.Outcome.next (State.portRst_of_port hrun hfree hport),
      fun hrun hfree hport => congrArg Host.Outcome.next (State.portRst_of_other hrun hfree hport)⟩
  · exact (execPortResetEnd_of_reset hreset).trans (congrArg Host.Outcome.next (if_pos hdone))
  · exact (execPortResetEnd_of_reset hreset).trans (congrArg Host.Outcome.next (if_neg (Nat.not_le.mpr hearly)))
  · subst hu
    refine ⟨fun hheld => congrArg Host.Outcome.next (State.domainRst_of_held hheld), fun hpow hlow hnew =>
      ⟨fun hnone => ?_, fun hdom => ?_⟩⟩
    · refine congrArg Host.Outcome.next ((State.domainRst_of_running hpow hlow hnew).trans ?_)
      rw [hnone]
      rfl
    · refine congrArg Host.Outcome.next ((State.domainRst_of_running hpow hlow hnew).trans ?_)
      rw [hdom]
      rfl
  · rintro ⟨hper, hdue, hp, -, hfb, hpath⟩
    rcases hnot with h | h | h | h | h
    · exact hper h
    · exact absurd hdue (Nat.not_le.mpr h)
    · exact absurd hp (Nat.not_lt.mpr h)
    · exact ne_true_of_eq_false h hfb
    · exact ne_true_of_eq_false h hpath
  · exact execThermNAlarm_eq ((if_neg (by omega)).trans (if_pos hcold))
  · exact (execThermNAlarm_eq (b := s.gd.therm) ((if_neg (by omega)).trans (if_neg (by omega)))).trans rfl

end Sys2Proof.Machine
end

section
/-! Firmware slots: load, activate, commit and revert (R434 to R449, R487). -/

namespace Sys2Proof.Machine

open Sys2Proof

/-! ## Slots -/

section
variable (f : Fw) (b c : Bool) (v : FwSlot)

theorem Fw.slot_setSlot_same : (f.setSlot b v).slot b = v := by cases b <;> rfl

theorem Fw.slot_setSlot_other : (f.setSlot b v).slot (!b) = f.slot (!b) := by cases b <;> rfl

theorem Fw.setSlot_trialCold : (f.setSlot b v).trialCold = f.trialCold := by cases b <;> rfl

theorem Fw.setSlot_floor : (f.setSlot b v).floor = f.floor := by cases b <;> rfl

end

/-- A record of a distributor leaves its firmware slots. -/
theorem State.logG_fw (s : State) (code : ErrCode) (source detail : Nat) : (s.logG code source detail).gd.fw = s.gd.fw := by
  obtain ⟨d, j, -, hlog⟩ := s.logG_eq code source detail
  rw [hlog]

theorem State.fwRollback_fw (s : State) (detail : Nat) : (s.fwRollback detail).gd.fw = s.gd.fw := s.logG_fw ..

theorem State.fwRollback_tsu (s : State) (detail : Nat) : (s.fwRollback detail).tsu = s.tsu := s.logG_tsu ..

/-! ## Loads -/

section
variable {s : State} {d : List Byte} {r : Refused} {v old : FwSlot} {n : Option Nat} {c b g : Bool}

theorem State.fwLoad_of_busy (hbusy : s.gd.fw.busy = true) : s.fwLoad d n = s.fwRefuse (0x13, 0) := if_pos hbusy

theorem State.fwLoad_of_bad (hfree : s.gd.fw.busy = false) (hbad : s.gd.fwHeader d n = .error r) : s.fwLoad d n = s.fwRefuse r := by
  simp only [State.fwLoad, hfree, Bool.false_eq_true, if_false, hbad]

/-- The slots as a load of image `v` begins. -/
def Fw.loading (v : FwSlot) (crc : Bool) (f : Fw) : Fw :=
  { f.setSlot (!f.active) { FwSlot.empty with state := .writing } with load := some (v, f.slot (!f.active), crc) }

theorem State.fwLoad_of_good (hfree : s.gd.fw.busy = false) (hgood : s.gd.fwHeader d n = .ok v) :
    ∃ crc, s.fwLoad d n = s.updFw (Fw.loading v crc) :=
  ⟨decide (beNat d 60 4 = crc32c ((d.take (beNat d 8 4)).take 60 ++ [0, 0, 0, 0] ++ (d.take (beNat d 8 4)).drop 64)), by
    simp only [State.fwLoad, hfree, Bool.false_eq_true, if_false, hgood]
    rfl⟩

theorem Fw.loading_target (v : FwSlot) (crc : Bool) (f : Fw) : ((f.loading v crc).slot (!f.active)).state = .writing :=
  congrArg FwSlot.state (f.slot_setSlot_same (!f.active) { FwSlot.empty with state := .writing })

theorem Fw.loading_active (v : FwSlot) (crc : Bool) (f : Fw) : (f.loading v crc).slot f.active = f.slot f.active := by
  have hother := f.slot_setSlot_other (!f.active) { FwSlot.empty with state := .writing }
  rw [Bool.not_not] at hother
  exact hother

/-- A load that ends with its slot holding `v`. -/
def Fw.loadDone (v : FwSlot) (f : Fw) : Fw := { f.setSlot (!f.active) v with load := none }

theorem State.fwWritten_of_none (hnone : s.gd.fw.load = none) : s.fwWritten c g b = s := by
  simp only [State.fwWritten, hnone]

theorem State.fwWritten_of_load (hload : s.gd.fw.load = some (v, old, b)) {w : Bool} : s.fwWritten c g w =
    if !w then (s.updFw (Fw.loadDone FwSlot.empty)).logG .fwSlotFault 0x8000
    else if !(c && b) then (s.updFw (Fw.loadDone old)).fwRefuse (0x03, 60)
    else if !g then (s.updFw (Fw.loadDone old)).fwRefuse (0x14, 0)
    else s.updFw (Fw.loadDone v) := by
  simp only [State.fwWritten, hload]
  rfl

end

/-! ## Custody of the firmware controls -/

section
variable {s : State} {acc : Access} {f : State → State}

/-- The registers of R487 are there in every variant and role. -/
theorem State.gdAbsent_fwCtl (s : State) : s.gdAbsent 0xA10 = false := by
  simp [State.gdAbsent]

theorem State.fwControl_of_understudy (hwhole : acc.whole = true) (hmaster : acc.master = 2) : s.fwControl acc f = s := by
  simp only [State.fwControl, State.gdWrite, hwhole, Bool.not_true, Bool.false_eq_true, if_false, hmaster, true_or, if_true]

variable (hwhole : acc.whole = true) (hmaster : acc.master ≠ 2) (hsame : acc.same = false)
include hwhole hmaster hsame

theorem State.fwControl_of_sealed (hcustody : s.gd.fwCustody = true) (hseal : s.gd.sealSt ≠ .opened) :
    s.fwControl acc f = s.custodyRefused 0xA10 := by
  rw [State.fwControl, hcustody]
  exact State.gdWrite_of_sealed hwhole hmaster hsame s.gdAbsent_fwCtl hseal f

theorem State.fwControl_of_free (hfree : s.gd.fwCustody = false ∨ s.gd.sealSt = .opened) :
    s.fwControl acc f = f (s.noteWrite acc 0xA10) := by
  refine (State.gdWrite_of_alone hwhole hmaster hsame s.gdAbsent_fwCtl ..).trans (if_neg ?_)
  rintro ⟨hcustody, hseal⟩
  exact hfree.elim (ne_false_of_eq_true hcustody) hseal

end

theorem State.noteWrite_aon (s : State) (acc : Access) (off : Nat) : (s.noteWrite acc off).aon .gd = s.aon .gd :=
  congrArg TimeDom.aon (s.noteWrite_time acc off)

/-! ## ACTIVATE -/

section
variable {s : State} {cold : Bool} {v : Option Word} {a : Nat}

theorem State.updFw_idle (hidle : s.gd.fw.act = .idle) : (s.updFw fun f => { f with act := .idle }) = s :=
  congrArg (fun x : FwAct => s.updFw fun f => { f with act := x }) hidle.symm

theorem State.fwActivate_of_first (hphase : s.gd.boot.phase = 1) : s.fwActivate cold v = s := if_pos hphase

variable (hphase : s.gd.boot.phase ≠ 1)
include hphase

theorem State.fwActivate_of_partner (hpartner : s.gd.fw.partnerBusy = true) : s.fwActivate cold v = s.logG .fwBusy 0x8000 1 :=
  (if_neg hphase).trans (if_pos hpartner)

variable (hpartner : s.gd.fw.partnerBusy = false)
include hpartner

theorem State.fwActivate_of_busy (hbusy : s.gd.fw.act ≠ .idle ∨ s.gd.fw.trial ≠ none) :
    s.fwActivate cold v = s.logG .fwBusy 0x8000 5 :=
  (if_neg hphase).trans ((if_neg (ne_true_of_eq_false hpartner)).trans (if_pos (hbusy.imp_right Option.isSome_iff_ne_none.mpr)))

variable (hact : s.gd.fw.act = .idle) (htrial : s.gd.fw.trial = none)
include hact htrial

theorem State.fwActivate_of_free : s.fwActivate cold v = if s.gd.census.isSome then
      if (s.gd.fw.slot (!s.gd.fw.active)).state ≠ .staged then s.logG .fwBusy 0x8000 3
      else s.updFw fun f => { f with act := .waiting (s.aon .gd) cold v }
    else s.fwBegin cold v := by
  simp only [State.fwActivate, hphase, if_false, hpartner, Bool.false_eq_true, hact, htrial, ne_eq, not_true, Option.isSome_none, or_self]
  rfl

theorem State.fwActivate_of_unstaged (hslot : (s.gd.fw.slot (!s.gd.fw.active)).state ≠ .staged) :
    s.fwActivate cold v = s.logG .fwBusy 0x8000 3 := by
  have hbegin : s.fwBegin cold v = s.logG .fwBusy 0x8000 3 := by
    rw [State.fwBegin, State.updFw_idle hact]
    exact if_pos (.inl hslot)
  rw [State.fwActivate_of_free hphase hpartner hact htrial, hbegin, if_pos hslot, ite_self]

/-- An activation waits for the end of a census, R441. -/
theorem State.fwActivate_of_census (hcensus : s.gd.census ≠ none) (hslot : (s.gd.fw.slot (!s.gd.fw.active)).state = .staged) :
    s.fwActivate cold v = s.updFw fun f => { f with act := .waiting (s.aon .gd) cold v } := by
  rw [State.fwActivate_of_free hphase hpartner hact htrial, if_pos (Option.isSome_iff_ne_none.mpr hcensus), if_neg (not_not_intro hslot)]

/-- A hitless activation with no version named. -/
theorem State.fwActivate_of_hitless (hcensus : s.gd.census = none) (hslot : (s.gd.fw.slot (!s.gd.fw.active)).state = .staged) :
    s.fwActivate false none = if (s.gd.fw.slot (!s.gd.fw.active)).handover ≠ (s.gd.fw.slot s.gd.fw.runB).handover
      then s.logG .fwBusy 0x8000 4 else s.updFw fun f => { f with act := .booting (s.aon .gd) } := by
  have hnone : ¬ s.gd.census.isSome = true := by
    rw [hcensus]
    exact Bool.false_ne_true
  rw [State.fwActivate_of_free hphase hpartner hact htrial, if_neg hnone, State.fwBegin, State.updFw_idle hact]
  simp only [hslot, ne_eq, not_true, Option.map_none, Option.getD_none, Bool.false_eq_true, or_self, if_false]
  rfl

end

/-! ## COMMIT -/

section
variable {s : State} {b : Bool}

/-- A commit of slot `b`: the trial becomes ACTIVE and the slot that was ACTIVE is STAGED, R443. -/
def Fw.committed (b high : Bool) (aon : Nat) (f : Fw) : Fw :=
  let old := { f.slot (!b) with state := if (f.slot (!b)).state = .active then .staged else (f.slot (!b)).state }
  let g := (f.setSlot (!b) old).setSlot b { f.slot b with state := .active }
  { g with
    undo := some (aon, f.slotA, f.slotB, f.floor)
    floor := if high then max f.floor (f.slot b).svn else f.floor
    act := .idle }

theorem State.fwCommit_of_none (hnone : s.gd.fw.trial = none) : s.fwCommit = s := by
  simp only [State.fwCommit, hnone]

theorem State.fwCommit_of_trial (htrial : s.gd.fw.trial = some b) : s.fwCommit =
    (s.updFw (Fw.committed b ((s.gd.heldRole.map fun r => decide (2 ≤ r)).getD false) (s.aon .gd))).fwEnded := by
  simp only [State.fwCommit, htrial]
  cases b <;> rfl

theorem Fw.committed_slots (f : Fw) (b high : Bool) (aon : Nat) : ((f.committed b high aon).slot b).state = .active
    ∧ ((f.slot (!b)).state = .active → ((f.committed b high aon).slot (!b)).state = .staged) := by
  refine ⟨congrArg FwSlot.state (Fw.slot_setSlot_same ..), fun h => ?_⟩
  refine (congrArg FwSlot.state ((Fw.slot_setSlot_other ..).trans (Fw.slot_setSlot_same ..))).trans ?_
  exact if_pos h

theorem Fw.committed_floor (f : Fw) (b high : Bool) (aon : Nat) : f.floor ≤ (f.committed b high aon).floor
    ∧ (high = true → (f.slot b).svn ≤ (f.committed b high aon).floor) := by
  cases high
  · exact ⟨Nat.le_refl _, fun h => absurd h Bool.false_ne_true⟩
  · exact ⟨Nat.le_max_left .., fun _ => Nat.le_max_right ..⟩

end

/-! ## REVERT -/

section
variable {s : State} {b : Bool} {detail : Nat} {v : Fw}

/-- A revert of the trial in slot `b`, R444. -/
def Fw.reverted (b : Bool) (f : Fw) : Fw :=
  { f.setSlot b { f.slot b with state := .failed } with runB := f.active, act := .idle }

/-- A warm trial is reverted without a reset. -/
theorem State.fwRevert_of_trial (htrial : s.gd.fw.trial = some b) (hwarm : s.gd.fw.trialCold = false) :
    s.fwRevert detail = (s.updFw (Fw.reverted b)).fwRollback detail := by
  have hcold : ((s.updFw (Fw.reverted b)).gd.fw).trialCold = false := (Fw.setSlot_trialCold ..).trans hwarm
  simp only [State.fwRevert, htrial, Option.isNone_some, Bool.false_eq_true, if_false]
  exact if_neg (ne_true_of_eq_false hcold)

/-- A revert with no trial undoes a commit of its tick first. -/
theorem State.fwRevert_of_none (htrial : s.gd.fw.trial = none) : s.fwRevert detail = match s.fwUndo.gd.fw.trial with
    | none => s.fwUndo
    | some _ => s.fwUndo.fwRevert detail := by
  have hnone : s.gd.fw.trial.isNone = true := by rw [htrial]; rfl
  cases hundo : s.fwUndo.gd.fw.trial with
  | none => simp only [State.fwRevert, hnone, if_true, hundo]
  | some b => simp only [State.fwRevert, hnone, if_true, hundo, Option.isNone_some, Bool.false_eq_true, if_false]

theorem State.fwUndo_of_none (hundo : s.gd.fw.undo = none) : s.fwUndo = s := by
  simp only [State.fwUndo, State.updFw, State.updGd, hundo]

theorem State.fwRevert_of_idle (htrial : s.gd.fw.trial = none) (hundo : s.gd.fw.undo = none) : s.fwRevert detail = s := by
  rw [State.fwRevert_of_none htrial, State.fwUndo_of_none hundo, htrial]

theorem State.fwUndo_of_same {a c : FwSlot} {n : Nat} (hundo : s.gd.fw.undo = some (s.aon .gd, a, c, n)) :
    s.fwUndo = s.updFw fun f => { f with slotA := a, slotB := c, floor := n, undo := none } := by
  simp only [State.fwUndo, State.updFw, State.updGd, hundo, if_true]

theorem Fw.reverted_fields (f : Fw) (b : Bool) : ((f.reverted b).slot b).state = .failed ∧ (f.reverted b).slot (!b) = f.slot (!b)
    ∧ (f.reverted b).floor = f.floor ∧ (f.reverted b).act = .idle :=
  ⟨congrArg FwSlot.state (Fw.slot_setSlot_same ..), Fw.slot_setSlot_other .., Fw.setSlot_floor .., rfl⟩

end

/-! ## The understudy -/

section
variable {s : State} {a : Nat}

/-- The slots as the understudy has booted slot `b`. -/
def Fw.booted (b : Bool) (aon : Nat) (f : Fw) : Fw :=
  { f.setSlot b { f.slot b with state := .trial } with runB := b, act := .idle, trialCold := false, trialAt := aon }

theorem Fw.booted_fields (f : Fw) (b : Bool) (aon : Nat) : (f.booted b aon).act = .idle ∧ ((f.booted b aon).slot b).state = .trial
    ∧ (f.booted b aon).runB = b ∧ (f.booted b aon).trialCold = false ∧ (f.booted b aon).trialAt = aon :=
  ⟨rfl, congrArg FwSlot.state (Fw.slot_setSlot_same ..), rfl, rfl, rfl⟩

/-- The slots and the other part after the record of an activation. -/
theorem State.activated_fields (t : State) (b : Bool) (aon : Nat) {v : State}
    (hv : v = ((t.updFw (Fw.booted b aon)).logG .fwActivated 0x8000).fwEnded) :
    v.gd.fw = t.gd.fw.booted b aon ∧ v.tsu = t.tsu := by
  subst hv
  exact ⟨State.logG_fw .., State.logG_tsu ..⟩

theorem State.understudyBooted_of_booting (hact : s.gd.fw.act = .booting a) : s.understudyBooted =
    (((s.settingsFor (s.gd.fw.slot (!s.gd.fw.active)).fmt).updFw (Fw.booted (!s.gd.fw.active) (s.aon .gd))).logG
      .fwActivated 0x8000).fwEnded := by
  simp only [State.understudyBooted, hact]
  rfl

theorem State.understudyBooted_of_idle (hact : s.gd.fw.act = .idle) : s.understudyBooted = s := by
  simp only [State.understudyBooted, hact]

theorem execUnderstudyBootTimeout_of_late (hact : s.gd.fw.act = .booting a) (hlate : a + 3000000000 ≤ s.aon .gd) :
    execUnderstudyBootTimeout s = .next ((s.updFw fun f => { f with act := .idle }).fwRollback 1) := by
  simp only [execUnderstudyBootTimeout, hact, hlate, if_true]

theorem execUnderstudyBootTimeout_of_early (hact : s.gd.fw.act = .booting a) (hearly : s.aon .gd < a + 3000000000) :
    execUnderstudyBootTimeout s = .next s := by
  simp only [execUnderstudyBootTimeout, hact, Nat.not_le.mpr hearly, if_false]

theorem execUnderstudyBootTimeout_of_idle (hact : s.gd.fw.act = .idle) : execUnderstudyBootTimeout s = .next s := by
  simp only [execUnderstudyBootTimeout, hact]

theorem execActivateCensusWait_of_idle (hact : s.gd.fw.act = .idle) : execActivateCensusWait s = .next s := by
  simp only [execActivateCensusWait, hact]

variable {cold : Bool} {v : Option Word} (hact : s.gd.fw.act = .waiting a cold v)
include hact

theorem execActivateCensusWait_of_ended (hcensus : s.gd.census = none) : execActivateCensusWait s = .next (s.fwBegin cold v) := by
  simp only [execActivateCensusWait, hact, hcensus, Option.isNone_none, if_true]

theorem execActivateCensusWait_of_early (hcensus : s.gd.census ≠ none) (hearly : s.aon .gd < a + 10000000000) :
    execActivateCensusWait s = .next s := by
  simp only [execActivateCensusWait, hact, Option.isNone_iff_eq_none, hcensus, if_false, Nat.not_le.mpr hearly]

theorem execActivateCensusWait_of_late (hcensus : s.gd.census ≠ none) (hlate : a + 10000000000 ≤ s.aon .gd) :
    execActivateCensusWait s = .next ((s.updFw fun f => { f with act := .idle }).logG .fwBusy 0x8000 2) := by
  simp only [execActivateCensusWait, hact, Option.isNone_iff_eq_none, hcensus, if_false, hlate, if_true]
  rfl

end

/-! ## FWCTL frames -/

section
variable {s u : State} {p : Nat} {rx : Rx} {f : Frame} (hrx : s.receive ⟨.gd, p⟩ rx 0x0D = (u, some f)) (hrole : u.gd.hasRole = true)
include hrx hrole

theorem State.fwctlRx_of_bad (hverb : f.byte 12 = 0 ∨ 3 < f.byte 12) : s.fwctlRx ⟨.gd, p⟩ rx = u.malformed ⟨.gd, p⟩ := by
  have hbad : f.more = true ∨ f.byte 12 = 0 ∨ 3 < f.byte 12 := .inr hverb
  simp only [State.fwctlRx, hrx, reduceCtorEq, hrole, Bool.not_true, Bool.false_eq_true, or_self, if_false, hbad, if_true]

variable (hmore : f.more = false) (hverb : 0 < f.byte 12) (hverb3 : f.byte 12 ≤ 3)
include hmore hverb hverb3

theorem State.fwctlRx_of_below (hp : p < 64) : s.fwctlRx ⟨.gd, p⟩ rx = u := by
  simp only [State.fwctlRx, hrx, reduceCtorEq, hrole, Bool.not_true, Bool.false_eq_true, or_self, if_false, hmore,
    Nat.pos_iff_ne_zero.mp hverb, Nat.not_lt.mpr hverb3, hp, if_true]

/-- An FWCTL frame acts at its TARGET alone, R446. -/
theorem State.fwctlRx_of_target (hp : 64 ≤ p) (htarget : u.gd.locator = some (f.nat 13 3 % 1048576)) :
    s.fwctlRx ⟨.gd, p⟩ rx = u.fwctlHere ⟨.gd, p⟩ f := by
  simp only [State.fwctlRx, hrx, reduceCtorEq, hrole, Bool.not_true, Bool.false_eq_true, or_self, if_false, hmore,
    Nat.pos_iff_ne_zero.mp hverb, Nat.not_lt.mpr hverb3, Nat.not_lt.mpr hp, htarget, if_true]

end

section
variable {u : State} {l : LinkId} {f : Frame}

theorem State.fwctlHere_of_sealed (hcustody : u.gd.fwCustody = true) (hseal : u.gd.sealSt ≠ .opened)
    (hgrant : u.grantHonoured l f = false) : u.fwctlHere l f = u.logG .custodyRequired l.port :=
  if_pos ⟨hcustody, hseal, by rw [hgrant]; rfl⟩

theorem State.fwctlHere_of_free (hfree : u.gd.fwCustody = false ∨ u.gd.sealSt = .opened ∨ u.grantHonoured l f = true) :
    u.fwctlHere l f = match f.byte 12 with
      | 1 => u.fwActivate (bitOf (f.byte 23) 0) (some (BitVec.ofNat 32 (f.nat 16 4)))
      | 2 => u.fwRevert 2
      | _ => u.fwCommit := by
  refine (if_neg ?_).trans rfl
  rintro ⟨hcustody, hseal, hgrant⟩
  rcases hfree with h | h | h
  · exact ne_true_of_eq_false h hcustody
  · exact hseal h
  · rw [h] at hgrant
    exact Bool.false_ne_true hgrant

end

/-! ## The controls at the registers -/

/-- COMMIT of a trial. -/
theorem State.fwCommit_fields {t : State} {b : Bool} (htrial : t.gd.fw.trial = some b) :
    (t.fwCommit.gd.fw.slot b).state = .active
    ∧ ((t.gd.fw.slot (!b)).state = .active → (t.fwCommit.gd.fw.slot (!b)).state = .staged) ∧ t.gd.fw.floor ≤ t.fwCommit.gd.fw.floor
    ∧ (t.gd.heldRole = some 2 ∨ t.gd.heldRole = some 3 → (t.gd.fw.slot b).svn ≤ t.fwCommit.gd.fw.floor) ∧ t.fwCommit.tsu = t.tsu := by
  rw [State.fwCommit_of_trial htrial]
  obtain ⟨hactive, hstaged⟩ := t.gd.fw.committed_slots b ((t.gd.heldRole.map fun r => decide (2 ≤ r)).getD false) (t.aon .gd)
  obtain ⟨hfloor, hsvn⟩ := t.gd.fw.committed_floor b ((t.gd.heldRole.map fun r => decide (2 ≤ r)).getD false) (t.aon .gd)
  refine ⟨hactive, hstaged, hfloor, fun hhigh => hsvn ?_, rfl⟩
  rcases hhigh with h | h <;> rw [h] <;> rfl

/-- REVERT of a warm trial. -/
theorem State.fwRevert_fields {t : State} {b : Bool} {detail : Nat} {w : Fw} (hfw : t.gd.fw = w) (htrial : w.trial = some b)
    (hwarm : w.trialCold = false) : ((t.fwRevert detail).gd.fw.slot b).state = .failed
    ∧ (t.fwRevert detail).gd.fw.slot (!b) = w.slot (!b) ∧ (t.fwRevert detail).gd.fw.floor = w.floor
    ∧ (t.fwRevert detail).gd.fw.act = .idle ∧ (t.fwRevert detail).tsu = t.tsu := by
  subst hfw
  rw [State.fwRevert_of_trial htrial hwarm, State.fwRollback_fw, State.fwRollback_tsu]
  obtain ⟨hfailed, hother, hfloor, hact⟩ := t.gd.fw.reverted_fields b
  exact ⟨hfailed, hother, hfloor, hact, rfl⟩

/-- Settles O53: each load, control and frame by what it finds in the slots. -/
theorem firmwareRules : Obligations.FirmwareRules := by
  unfold Obligations.FirmwareRules
  refine ⟨fun d s hbusy => congrArg Host.Outcome.next (State.fwLoad_of_busy hbusy),
    fun d r s hfree hbad => congrArg Host.Outcome.next (State.fwLoad_of_bad hfree hbad),
    fun d v s hfree hgood => ?_,
    fun d s hbit => congrArg Host.Outcome.next (if_pos hbit),
    fun d s hbit => congrArg Host.Outcome.next (if_neg (ne_true_of_eq_false hbit)),
    fun c g w s hnone => congrArg Host.Outcome.next (State.fwWritten_of_none hnone),
    fun v old s hload => ⟨congrArg Host.Outcome.next (State.fwWritten_of_load hload),
      congrArg Host.Outcome.next (State.fwWritten_of_load hload)⟩,
    fun v old c b g s hload => ⟨congrArg Host.Outcome.next (State.fwWritten_of_load hload), fun hbad => ?_⟩,
    fun acc s hwhole hmaster hsame hcustody hseal =>
      ⟨congrArg Host.Outcome.next (State.fwControl_of_sealed hwhole hmaster hsame hcustody hseal),
        congrArg Host.Outcome.next (State.fwControl_of_sealed hwhole hmaster hsame hcustody hseal),
        congrArg Host.Outcome.next (State.fwControl_of_sealed hwhole hmaster hsame hcustody hseal)⟩,
    fun acc s hwhole hmaster => ⟨congrArg Host.Outcome.next (State.fwControl_of_understudy hwhole hmaster),
      congrArg Host.Outcome.next (State.fwControl_of_understudy hwhole hmaster),
      congrArg Host.Outcome.next (State.fwControl_of_understudy hwhole hmaster)⟩,
    fun acc u s hwhole hmaster hsame hfree hu => ?_,
    fun a s hact => ⟨?_, fun hlate => execUnderstudyBootTimeout_of_late hact hlate,
      fun hearly => execUnderstudyBootTimeout_of_early hact hearly⟩,
    fun s hact => ⟨congrArg Host.Outcome.next (State.understudyBooted_of_idle hact), execUnderstudyBootTimeout_of_idle hact,
      execActivateCensusWait_of_idle hact⟩,
    fun a c v s hact => ⟨fun hcensus => execActivateCensusWait_of_ended hact hcensus,
      fun hcensus hearly => execActivateCensusWait_of_early hact hcensus hearly,
      fun hcensus hlate => execActivateCensusWait_of_late hact hcensus hlate⟩,
    fun s hlate => congrArg Host.Outcome.next (if_pos hlate),
    fun s hearly => congrArg Host.Outcome.next (if_neg (Nat.not_le.mpr hearly)),
    fun b s htrial hwarm => ?_, fun s htrial hundo => congrArg Host.Outcome.next (State.fwRevert_of_idle htrial hundo),
    fun p rx u s f hrx hrole => ⟨fun hverb => ?_, fun hmore hverb hverb3 hp => ?_,
      fun hmore hp htarget hcustody hseal hgrant hverb hverb3 => ?_, fun hmore hp htarget hfree => ?_⟩⟩
  · obtain ⟨crc, hload⟩ := State.fwLoad_of_good (n := none) hfree hgood
    exact ⟨s.updFw (Fw.loading v crc), crc, congrArg Host.Outcome.next hload, rfl, Fw.loading_target .., Fw.loading_active .., rfl⟩
  · refine congrArg Host.Outcome.next ((State.fwWritten_of_load hload).trans ?_)
    rw [hbad]
    rfl
  · have hactivate : exec (.fwActivate acc) s = .next (u.fwActivate (bitOf (s.reg .gd 0xA10) 3) none) := by
      refine (congrArg Host.Outcome.next (State.fwControl_of_free hwhole hmaster hsame hfree)).trans ?_
      rw [hu, State.noteWrite_reg]
    have hcommit : exec (.fwCommit acc) s = .next u.fwCommit := by
      rw [hu]
      exact congrArg Host.Outcome.next (State.fwControl_of_free hwhole hmaster hsame hfree)
    have hrevert : exec (.fwRevert acc) s = .next (u.fwRevert 2) := by
      rw [hu]
      exact congrArg Host.Outcome.next (State.fwControl_of_free hwhole hmaster hsame hfree)
    have haon : u.aon .gd = s.aon .gd := by rw [hu, State.noteWrite_aon]
    have hfw : u.gd.fw = s.gd.fw := by rw [hu]; rfl
    have hphase : u.gd.boot.phase = s.gd.boot.phase := by rw [hu]; rfl
    have hcensus : u.gd.census = s.gd.census := by rw [hu]; rfl
    have htsu : u.tsu = s.tsu := by rw [hu]; rfl
    have hheld : u.gd.heldRole = s.gd.heldRole := by rw [hu]; rfl
    rw [hactivate, hcommit, hrevert, ← haon, ← hphase, ← hcensus, ← htsu]
    rw [← hfw]
    refine ⟨fun hfirst => congrArg Host.Outcome.next (State.fwActivate_of_first hfirst),
      fun hphase hpartner => congrArg Host.Outcome.next (State.fwActivate_of_partner hphase hpartner),
      fun hphase hpartner hbusy => congrArg Host.Outcome.next (State.fwActivate_of_busy hphase hpartner hbusy),
      fun hphase hpartner hact htrial => ⟨fun hslot =>
        congrArg Host.Outcome.next (State.fwActivate_of_unstaged hphase hpartner hact htrial hslot),
        fun hcensus hslot hbit => ?_, fun hcensus hslot => ?_⟩,
      fun b htrial => ⟨u.fwCommit, rfl, ?_⟩, fun b htrial hwarm => ?_,
      fun htrial => ⟨congrArg Host.Outcome.next (State.fwCommit_of_none htrial),
        fun hundo => congrArg Host.Outcome.next (State.fwRevert_of_idle htrial hundo), fun a c n v b hundo hv hvtrial hwarm => ?_⟩⟩
    · have hbit' : bitOf (s.reg .gd 0xA10) 3 = false := hbit
      rw [hbit']
      have hhitless := State.fwActivate_of_hitless hphase hpartner hact htrial hcensus hslot
      exact ⟨fun hother => congrArg Host.Outcome.next (hhitless.trans (if_pos hother)),
        fun hsame => congrArg Host.Outcome.next (hhitless.trans (if_neg (not_not_intro hsame)))⟩
    · exact congrArg Host.Outcome.next (State.fwActivate_of_census hphase hpartner hact htrial hcensus hslot)
    · rw [← hheld]
      exact State.fwCommit_fields htrial
    · obtain ⟨hfailed, hother, hfloor, -, hsame⟩ := State.fwRevert_fields (detail := 2) rfl htrial hwarm
      exact ⟨u.fwRevert 2, rfl, hfailed, hother, hfloor, hsame⟩
    · have hundone := State.fwUndo_of_same hundo
      have hv' : u.fwUndo.gd.fw = v := by
        rw [hundone, hv]
        rfl
      have hrevert : u.fwRevert 2 = u.fwUndo.fwRevert 2 := by
        rw [State.fwRevert_of_none htrial, hv', hvtrial]
      obtain ⟨hfailed, hother, hfloor, -, hsame⟩ := State.fwRevert_fields (detail := 2) hv' hvtrial hwarm
      refine ⟨u.fwUndo.fwRevert 2, congrArg Host.Outcome.next hrevert, hfailed, hother, ?_, ?_⟩
      · rw [hfloor, hv]
      · rw [hsame, hundone]
        rfl
  · obtain ⟨hfw, htsu⟩ := State.activated_fields _ _ _ (State.understudyBooted_of_booting hact)
    obtain ⟨hidle, htrial, hrun, hwarm, hat⟩ := Fw.booted_fields (s.settingsFor (s.gd.fw.slot (!s.gd.fw.active)).fmt).gd.fw
      (!s.gd.fw.active) (s.aon .gd)
    rw [← hfw] at hidle htrial hrun hwarm hat
    exact ⟨s.understudyBooted, rfl, hidle, htrial, hrun, hwarm, hat, htsu.trans (State.settingsFor_quiet rfl (.refl s)).apart.tsu⟩
  · obtain ⟨hfailed, hother, -, hact, htsu⟩ := State.fwRevert_fields (detail := 3) rfl htrial hwarm
    exact ⟨s.fwRevert 3, rfl, hfailed, hother, hact, htsu⟩
  · exact congrArg (fun t : State => Host.Outcome.next (t.cutThrough s ⟨.gd, p⟩ rx)) (State.fwctlRx_of_bad hrx hrole hverb)
  · exact congrArg (fun t : State => Host.Outcome.next (t.cutThrough s ⟨.gd, p⟩ rx))
      (State.fwctlRx_of_below hrx hrole hmore hverb hverb3 hp)
  · exact congrArg (fun t : State => Host.Outcome.next (t.cutThrough s ⟨.gd, p⟩ rx))
      ((State.fwctlRx_of_target hrx hrole hmore hverb hverb3 hp htarget).trans (State.fwctlHere_of_sealed hcustody hseal hgrant))
  · have hhere : 0 < f.byte 12 → f.byte 12 ≤ 3 → exec (.fwctlRx ⟨.gd, p⟩ rx) s = .next (State.cutThrough (match f.byte 12 with
        | 1 => u.fwActivate (bitOf (f.byte 23) 0) (some (BitVec.ofNat 32 (f.nat 16 4)))
        | 2 => u.fwRevert 2
        | _ => u.fwCommit) s ⟨.gd, p⟩ rx) := fun hverb hverb3 =>
      congrArg (fun t : State => Host.Outcome.next (t.cutThrough s ⟨.gd, p⟩ rx))
        ((State.fwctlRx_of_target hrx hrole hmore hverb hverb3 hp htarget).trans (State.fwctlHere_of_free hfree))
    refine ⟨fun hverb => ?_, fun hverb => ?_, fun hverb => ?_⟩
    · rw [hhere (by omega) (by omega), hverb]
      rfl
    · rw [hhere (by omega) (by omega), hverb]
      rfl
    · rw [hhere (by omega) (by omega), hverb]
      rfl

end Sys2Proof.Machine
end

section
/-! The key seal, the owner lock and blowing a fuse (R418, R446, R448). -/

namespace Sys2Proof.Machine

open Sys2Proof

/-! ## The seal -/

section
variable {s : State} {st : SealState}

theorem State.sealTo_of_same (hsame : s.gd.sealSt = st) : s.sealTo st = s := if_pos hsame

/-- A change of the seal notes its instant, raises the interrupt and enters the journal. -/
theorem State.sealTo_of_other (hother : s.gd.sealSt ≠ st) : ∃ d j,
    s.sealTo st = { s with gd := { s.gd with sealSt := st, sealAt := s.gd.com.time.aon, com := d, journal := j } } := by
  obtain ⟨j, hj⟩ := Gd.journalWrite_eq { s.gd with sealSt := st, sealAt := s.gd.com.time.aon, com := s.gd.com.setIrq 0x10000 }
    Config.sealKind 0 (s.gd.locator.getD 0) (Config.noFrameBody s.gd.journal.recno)
  exact ⟨_, j, (if_neg hother).trans (congrArg (fun g => { s with gd := g }) hj)⟩

/-- What a change of the seal leaves. -/
theorem State.sealTo_fields (s : State) (st : SealState) : (s.sealTo st).gd.sealSt = st ∧ (s.sealTo st).gd.keysw = s.gd.keysw
    ∧ (s.sealTo st).gd.loopOk = s.gd.loopOk ∧ (s.sealTo st).gd.ownerLock = s.gd.ownerLock ∧ (s.sealTo st).tsu = s.tsu := by
  by_cases hsame : s.gd.sealSt = st
  · rw [State.sealTo_of_same hsame]
    exact ⟨hsame, rfl, rfl, rfl, rfl⟩
  · obtain ⟨d, j, hseal⟩ := State.sealTo_of_other hsame
    rw [hseal]
    exact ⟨rfl, rfl, rfl, rfl, rfl⟩

theorem State.sealTo_sealAt (hother : s.gd.sealSt ≠ st) : (s.sealTo st).gd.sealAt = s.gd.com.time.aon := by
  obtain ⟨d, j, hseal⟩ := State.sealTo_of_other hother
  rw [hseal]

/-- A record of a distributor leaves its seal. -/
theorem State.logG_seal (s : State) (code : ErrCode) (source detail : Nat) : (s.logG code source detail).gd.sealSt = s.gd.sealSt
    ∧ (s.logG code source detail).gd.loopOk = s.gd.loopOk ∧ (s.logG code source detail).gd.keysw = s.gd.keysw := by
  obtain ⟨d, j, -, hlog⟩ := s.logG_eq code source detail
  rw [hlog]
  exact ⟨rfl, rfl, rfl⟩

end

/-! ## The key switch and the tamper loop -/

section
variable {s : State} {b : Bool}

/-- The state with the key switch at `b`. -/
def State.switched (s : State) (b : Bool) : State := s.updGd fun g => { g with keysw := b }

theorem State.keyswChange_of_same (hsame : s.gd.keysw = b) : s.keyswChange b = s := if_pos hsame

theorem State.keyswChange_of_open (hshut : s.gd.keysw = false) : s.keyswChange true =
    if s.gd.sealSt = .locked ∧ s.gd.loopOk = true then (s.switched true).sealTo .armed else s.switched true := by
  have hdiff : ¬ s.gd.keysw = true := ne_true_of_eq_false hshut
  simp only [State.keyswChange, hdiff, if_true]
  rfl

theorem State.keyswChange_of_shut (hopen : s.gd.keysw = true) : s.keyswChange false =
    if s.gd.sealSt = .tampered then (s.switched false).tamperClear else (s.switched false).sealTo .locked := by
  have hdiff : ¬ s.gd.keysw = false := ne_false_of_eq_true hopen
  simp only [State.keyswChange, hdiff, if_false, Bool.false_eq_true]
  rfl

theorem State.tamperClear_of_clear (htamper : s.gd.sealSt = .tampered) (hloop : s.gd.loopOk = true)
    (hlong : s.gd.loopAt + 10000000000 ≤ s.aon .gd) (hkey : s.gd.keysw = false) : s.tamperClear = s.sealTo .locked :=
  if_pos ⟨htamper, hloop, hlong, by rw [hkey]; rfl⟩

theorem State.tamperClear_of_held (hheld : s.gd.sealSt ≠ .tampered ∨ s.gd.loopOk = false ∨ s.gd.keysw = true ∨
    s.aon .gd < s.gd.loopAt + 10000000000) : s.tamperClear = s := by
  refine if_neg ?_
  rintro ⟨htamper, hloop, hlong, hkey⟩
  rcases hheld with h | h | h | h
  · exact h htamper
  · exact ne_true_of_eq_false h hloop
  · rw [h] at hkey
    exact Bool.false_ne_true hkey
  · exact absurd hlong (Nat.not_le.mpr h)

end

theorem execSealMaxExpiry_eq (s : State) : execSealMaxExpiry s =
    .next (if s.gd.sealSt = .opened ∧ s.gd.sealAt + orOne (s.reg .gd 0xA1C / 65536 % 256) * 60000000000 ≤ s.aon .gd then
      s.sealTo .expired else s) := by
  have hmax : bitsOf (s.reg .gd 0xA1C) 23 16 = s.reg .gd 0xA1C / 65536 % 256 := bitsOf_eq_div_mod ..
  simp only [execSealMaxExpiry, hmax]

/-! ## Fuses -/

section
variable {s : State} {acc : Access}

theorem State.gdAbsent_owner (s : State) : s.gdAbsent 0xA20 = false := by simp [State.gdAbsent]

theorem State.gdAbsent_fuse (s : State) : s.gdAbsent 0x934 = false := by simp [State.gdAbsent]

theorem State.gdWrite_of_part {off : Nat} {custody : Bool} {f : State → State} (hpart : acc.whole = false) :
    s.gdWrite acc off custody f = s.updCom .gd fun c => c.accessErr 0 off := if_pos (by rw [hpart]; rfl)

theorem State.gdWrite_of_understudy {off : Nat} {custody : Bool} {f : State → State} (hwhole : acc.whole = true)
    (hmaster : acc.master = 2) : s.gdWrite acc off custody f = s :=
  (if_neg (by rw [hwhole]; exact Bool.false_ne_true)).trans (if_pos (.inl hmaster))

/-- The fuse GD_FUSE_BLOW and GD_FUSE_ARG name: its kind, index and die. -/
def State.fuseNamed (s : State) : Nat × Nat × Nat :=
  (s.reg .gd 0x934 % 4, s.reg .gd 0x934 / 256 % 128, s.reg .gd 0x938 % 1048576)

theorem State.fuseBlow_eq (s : State) : s.fuseBlow =
    (if s.reg .gd 0x934 % 4 = 3 ∧ 256 ≤ s.gd.repairs + (s.gd.blown.filter fun b => b.1 = 3).length then s
      else s.updGd fun g => { g with blown := g.blown ++ [s.fuseNamed] }).setEvt .gd 0x934 0x40000000 := by
  have hkind : bitsOf (s.reg .gd 0x934) 1 0 = s.reg .gd 0x934 % 4 := bitsOf_from_zero ..
  have hindex : bitsOf (s.reg .gd 0x934) 14 8 = s.reg .gd 0x934 / 256 % 128 := bitsOf_eq_div_mod ..
  have hdie : bitsOf (s.reg .gd 0x938) 19 0 = s.reg .gd 0x938 % 1048576 := bitsOf_from_zero ..
  simp only [State.fuseBlow, hkind, hindex, hdie]
  rfl

theorem State.noteWrite_fuseNamed (s : State) (off : Nat) : (s.noteWrite acc off).fuseNamed = s.fuseNamed := by
  simp only [State.fuseNamed, State.noteWrite_reg]

end

/-- Settles O54: each edge of the seal's table, and the writes its open state lets through. -/
theorem custodyRules : Obligations.CustodyRules := by
  unfold Obligations.CustodyRules
  refine ⟨fun s hshut hlocked hloop => ?_, fun s hshut hnot => ?_, fun s hopen hsound => ?_,
    fun s hopen htamper hloop hlong => ?_, fun s hopen htamper hheld => ?_,
    fun b s hsame => congrArg Host.Outcome.next (State.keyswChange_of_same hsame),
    fun s harmed hearly => ?_, fun s hnot => ?_, fun s harmed hlate => ?_, fun s hnot => ?_,
    fun s hopened hlate => ?_, fun s hnot => ?_, fun s hloop => ?_,
    fun s hloop => congrArg Host.Outcome.next (if_neg (ne_true_of_eq_false hloop)),
    fun s hloop => congrArg Host.Outcome.next (if_neg (ne_true_of_eq_false hloop)),
    fun s hloop htamper hkey hlong => ?_, fun s hloop hnot => ?_,
    fun acc w s hpart => ⟨congrArg Host.Outcome.next (State.gdWrite_of_part hpart),
      congrArg Host.Outcome.next (State.gdWrite_of_part hpart)⟩,
    fun acc w s hwhole hmaster => ⟨congrArg Host.Outcome.next (State.gdWrite_of_understudy hwhole hmaster),
      congrArg Host.Outcome.next (State.gdWrite_of_understudy hwhole hmaster)⟩,
    fun acc w s hwhole hmaster hsame hseal =>
      ⟨congrArg Host.Outcome.next (State.gdWrite_of_sealed hwhole hmaster hsame s.gdAbsent_owner hseal _),
        congrArg Host.Outcome.next (State.gdWrite_of_sealed hwhole hmaster hsame s.gdAbsent_fuse hseal _)⟩,
    fun acc w s hwhole hmaster hsame hseal =>
      congrArg Host.Outcome.next (State.gdWrite_of_open hwhole hmaster hsame s.gdAbsent_owner hseal ..),
    fun acc s hwhole hmaster hsame hseal hkind => ?_, fun acc s hwhole hmaster hsame hseal hkind hfull => ?_⟩
  · obtain ⟨hst, hkey, -, howner, htsu⟩ := (s.switched true).sealTo_fields .armed
    refine ⟨_, congrArg Host.Outcome.next ((State.keyswChange_of_open hshut).trans (if_pos ⟨hlocked, hloop⟩)), hkey, hst, ?_, howner, htsu⟩
    exact State.sealTo_sealAt (s := s.switched true) fun h => absurd (hlocked.symm.trans h) (by decide)
  · refine congrArg Host.Outcome.next ((State.keyswChange_of_open hshut).trans (if_neg ?_))
    rintro ⟨hlocked, hloop⟩
    exact hnot.elim (fun h => h hlocked) fun h => ne_true_of_eq_false h hloop
  · obtain ⟨hst, hkey, -, howner, htsu⟩ := (s.switched false).sealTo_fields .locked
    exact ⟨_, congrArg Host.Outcome.next ((State.keyswChange_of_shut hopen).trans (if_neg hsound)), hkey, hst, howner, htsu⟩
  · obtain ⟨hst, hkey, -, -, htsu⟩ := (s.switched false).sealTo_fields .locked
    have hclear : (s.switched false).tamperClear = (s.switched false).sealTo .locked :=
      State.tamperClear_of_clear htamper hloop hlong rfl
    exact ⟨_, congrArg Host.Outcome.next ((State.keyswChange_of_shut hopen).trans ((if_pos htamper).trans hclear)), hkey, hst, htsu⟩
  · have hstay : (s.switched false).tamperClear = s.switched false :=
      State.tamperClear_of_held (.inr (hheld.imp_right .inr))
    exact congrArg Host.Outcome.next ((State.keyswChange_of_shut hopen).trans ((if_pos htamper).trans hstay))
  · obtain ⟨hst, hkey, -, -, htsu⟩ := s.sealTo_fields .opened
    exact ⟨s.sealTo .opened, congrArg Host.Outcome.next (if_pos ⟨harmed, hearly⟩), hst,
      State.sealTo_sealAt fun h => absurd (harmed.symm.trans h) (by decide), hkey, htsu⟩
  · exact congrArg Host.Outcome.next (if_neg fun h => hnot.elim (fun k => k h.1) fun k => absurd h.2 (Nat.not_lt.mpr k))
  · obtain ⟨hst, -, -, -, htsu⟩ := s.sealTo_fields .expired
    exact ⟨(s.sealTo .expired).logG .sealTimeout 0x8000, congrArg Host.Outcome.next (if_pos ⟨harmed, hlate⟩),
      (State.logG_seal ..).1.trans hst, (State.logG_tsu ..).trans htsu⟩
  · exact congrArg Host.Outcome.next (if_neg fun h => hnot.elim (fun k => k h.1) fun k => absurd h.2 (Nat.not_le.mpr k))
  · obtain ⟨hst, -, -, -, htsu⟩ := s.sealTo_fields .expired
    exact ⟨s.sealTo .expired, (execSealMaxExpiry_eq s).trans (congrArg Host.Outcome.next (if_pos ⟨hopened, hlate⟩)), hst, htsu⟩
  · refine (execSealMaxExpiry_eq s).trans (congrArg Host.Outcome.next (if_neg ?_))
    exact fun h => hnot.elim (fun k => k h.1) fun k => absurd h.2 (Nat.not_le.mpr k)
  · obtain ⟨hst, hkey, hbroken, -, htsu⟩ := (s.updGd fun g => { g with loopOk := false }).sealTo_fields .tampered
    obtain ⟨hst', hloop', hkey'⟩ := State.logG_seal ((s.updGd fun g => { g with loopOk := false }).sealTo .tampered) .tamper 0x8000 0
    exact ⟨_, congrArg Host.Outcome.next (if_pos hloop), hloop'.trans hbroken, hst'.trans hst, hkey'.trans hkey,
      (State.logG_tsu ..).trans htsu⟩
  · obtain ⟨hst, -, -, -, htsu⟩ := s.sealTo_fields .locked
    exact ⟨_, congrArg Host.Outcome.next ((if_pos hloop).trans (State.tamperClear_of_clear htamper hloop hlong hkey)), hst, htsu⟩
  · exact congrArg Host.Outcome.next ((if_pos hloop).trans (State.tamperClear_of_held (hnot.imp_right .inr)))
  · refine congrArg Host.Outcome.next ((State.gdWrite_of_open hwhole hmaster hsame s.gdAbsent_fuse hseal ..).trans ?_)
    rw [State.fuseBlow_eq, State.noteWrite_reg, State.noteWrite_fuseNamed, if_neg fun h => hkind h.1]
    rfl
  · refine congrArg Host.Outcome.next ((State.gdWrite_of_open hwhole hmaster hsame s.gdAbsent_fuse hseal ..).trans ?_)
    rw [State.fuseBlow_eq, State.noteWrite_reg]
    exact congrArg (fun t : State => t.setEvt .gd 0x934 0x40000000) (if_pos ⟨hkind, hfull⟩)

end Sys2Proof.Machine
end

section
/-! Register writes and reads, views and the management port (R10 to R15, R455 to R459, R471, R477, R481, R482). -/

namespace Sys2Proof.Machine

open Sys2Proof

/-! ## Flags and stored words of a part -/

section
variable (c : Common) (n : Node) (off : Nat) (mask w : Word) (same : Bool)

theorem Common.setIrq_evtWord {o : Nat} (m : Word) (ho : 0x40 ≠ o) : (c.setIrq m).evtWord o = c.evtWord o := by
  obtain ⟨q, hq⟩ := c.setIrq_eq_setEvt m
  rw [hq]
  exact c.setEvt_evtWord_ne m ho

/-- A record moves the flag of a full log and the interrupt status alone. -/
theorem Common.record_evtWord {o : Nat} (cap : Nat) (ovf : Word) (code source detail : Nat) (slice : Option Nat) (ho : 0x40 ≠ o)
    (hoff : off ≠ o) : (c.record cap off ovf code source detail slice).evtWord o = c.evtWord o := by
  unfold Common.record
  simp only []
  split
  · exact Common.setIrq_evtWord _ _ ho
  · split
    · exact (Common.setIrq_evtWord _ _ ho).trans (Common.setEvt_evtWord_ne _ _ hoff)
    · exact Common.setIrq_evtWord _ _ ho

/-- The read-write bits `mask` of a register take a word, R12. -/
def Common.stored (c : Common) (n : Node) (off : Nat) (mask w : Word) : Common :=
  if mask = 0 then c
  else { c with rw := Tab.put c.rw off ((BitVec.ofNat 32 (c.reg n off) &&& ~~~ mask) ||| (w &&& mask)) }

/-- The write-1-to-clear bits `mask` of a register take a word, R15. -/
def Common.cleared (c : Common) (same : Bool) (off : Nat) (mask w : Word) : Common :=
  if mask = 0 then c else c.clearWritten same off (w &&& mask)

theorem State.storeBits_eq (s : State) : s.storeBits n off mask w = s.updCom n fun c => c.stored n off mask w := by
  by_cases hmask : mask = 0
  · simp only [State.storeBits, Common.stored, hmask, if_true]
    cases n <;> rfl
  · simp only [State.storeBits, Common.stored, hmask, if_false]
    cases n <;> rfl

theorem State.clearBits_eq (s : State) : s.clearBits n off mask w same = s.updCom n fun c => c.cleared same off mask w := by
  by_cases hmask : mask = 0
  · simp only [State.clearBits, Common.cleared, hmask, if_true]
    cases n <;> rfl
  · simp only [State.clearBits, Common.cleared, hmask, if_false]

theorem Common.stored_zero : c.stored n off 0 w = c := if_pos rfl

theorem Common.cleared_zero : c.cleared same off 0 w = c := if_pos rfl

theorem Common.stored_reg (hmask : mask ≠ 0) : (c.stored n off mask w).reg n off =
    ((BitVec.ofNat 32 (c.reg n off) &&& ~~~ mask) ||| (w &&& mask)).toNat := by
  simp only [Common.stored, hmask, if_false, Common.reg, Tab.getD_put_self]

theorem Common.stored_reg_ne {o : Nat} (ho : o ≠ off) : (c.stored n off mask w).reg n o = c.reg n o := by
  unfold Common.stored
  split
  · rfl
  · exact congrArg BitVec.toNat (Tab.getD_put_ne _ _ _ ho.symm)

theorem Common.stored_evtWord (o : Nat) : (c.stored n off mask w).evtWord o = c.evtWord o := by
  unfold Common.stored
  split <;> rfl

theorem Common.stored_setNow : (c.stored n off mask w).setNow = c.setNow := by
  unfold Common.stored
  split <;> rfl

theorem Common.cleared_rw : (c.cleared same off mask w).rw = c.rw := by
  unfold Common.cleared
  split <;> rfl

theorem Common.cleared_reg (o : Nat) : (c.cleared same off mask w).reg n o = c.reg n o := by
  rw [Common.reg, Common.cleared_rw, Common.reg]

theorem Common.cleared_evtWord : (c.cleared same off mask w).evtWord off =
    c.evtWord off &&& ~~~ (if same then w &&& mask &&& ~~~ Tab.getD c.setNow off 0 else w &&& mask) := by
  by_cases hmask : mask = 0
  · have hall : ∀ x : Word, x &&& 4294967295#32 = x := fun x => BitVec.and_allOnes
    subst hmask
    cases same <;> simp [Common.cleared, hall]
  · simp only [Common.cleared, hmask, if_false, Common.clearWritten, Common.clearEvt_evtWord]

theorem Common.cleared_evtWord_ne {o : Nat} (ho : o ≠ off) : (c.cleared same off mask w).evtWord o = c.evtWord o := by
  unfold Common.cleared
  split
  · rfl
  · exact Tab.getD_put_ne _ _ _ ho.symm

end

section
variable (s0 s : State) (n : Node)

/-- The edge of the interrupt output moves the queue of vectors alone. -/
theorem State.irqEdge_eq : ∃ q, State.irqEdge s0 s n = s.updCom n fun c => { c with irq := q } := by
  by_cases hrise : (s0.com n).irqActive = 0 ∧ (s.com n).irqActive ≠ 0
  · obtain ⟨q, hq⟩ := (s.com n).raiseVector_eq 0
    refine ⟨q, (if_pos hrise).trans ?_⟩
    cases n with
    | tsu => exact congrArg (fun c => s.updCom .tsu fun _ => c) hq
    | gd => exact congrArg (fun c => s.updCom .gd fun _ => c) hq
  · refine ⟨(s.com n).irq, (if_neg hrise).trans ?_⟩
    cases n <;> rfl

/-- The queue of vectors aside, a distributor is as before. -/
theorem State.updCom_irq (q : List Nat) : (s.updCom .gd fun c => { c with irq := q }).gd.com.rw = s.gd.com.rw
    ∧ (s.updCom .gd fun c => { c with irq := q }).tsu = s.tsu := ⟨rfl, rfl⟩

theorem State.irqEdge_self : State.irqEdge s s n = s := if_neg fun h => h.2 h.1

end

/-! ## Writes at a TSU -/

section
variable {s : State} {acc : Access} {off : Nat} {w : Word} (hwhole : acc.whole = true) (halign : off % 4 = 0)
include hwhole halign

theorem State.regWrite_gd : s.regWrite .gd acc off w =
    if acc.master = 2 ∨ s.lostToReset acc = true then s else s.irqEdge (s.gdPlain acc off w) .gd := by
  simp only [State.regWrite, hwhole, halign, Bool.not_true, Bool.false_eq_true, ne_eq, not_true, or_self, if_false]

theorem State.regWrite_tsu (hlow : off < 0x10000) : s.regWrite .tsu acc off w = s.irqEdge (s.tsuWrite off w acc.same) .tsu := by
  simp only [State.regWrite, hwhole, halign, Bool.not_true, Bool.false_eq_true, ne_eq, not_true, or_self, if_false,
    Nat.not_le.mpr hlow]

end

theorem State.tsuWrite_of_plain {s : State} {off : Nat} {w : Word} (hrange : off < 0x680 ∨ 0x780 ≤ off) (hadd : off ≠ 0x114)
    (same : Bool) : s.tsuWrite off w same = if s.tsuAbsent off then s else
    s.updCom .tsu fun c => (c.stored .tsu off (rwTsu off) w).cleared same off (w1cTsu off) w := by
  have hwindow : ¬ ((0x68C ≤ off ∧ off < 0x69C) ∨ (0x700 ≤ off ∧ off < 0x780)) := by omega
  refine (if_neg hwindow).trans ?_
  by_cases habsent : s.tsuAbsent off = true
  · exact (if_pos habsent).trans (if_pos habsent).symm
  · refine (if_neg habsent).trans (Eq.trans ?_ (if_neg habsent).symm)
    split
    · exact absurd rfl hadd
    · omega
    · omega
    · omega
    · rw [State.clearBits_eq, State.storeBits_eq]
      rfl

section
variable {s : State} {acc : Access} {off : Nat} {w : Word} (hwhole : acc.whole = true) (halign : off % 4 = 0)
  (hrange : off < 0x680 ∨ 0x780 ≤ off) (hlow : off < 0x10000) (hadd : off ≠ 0x114)
include hwhole halign hrange hlow hadd

/-- A write with nothing to store or to clear has no effect. -/
theorem State.regWrite_tsu_of_none (hnone : s.tsuAbsent off = true ∨ (rwTsu off = 0 ∧ w1cTsu off = 0)) :
    s.regWrite .tsu acc off w = s := by
  have hsame : s.tsuWrite off w acc.same = s := by
    rw [State.tsuWrite_of_plain hrange hadd]
    rcases hnone with habsent | ⟨hrw, hw1c⟩
    · exact if_pos habsent
    · rw [hrw, hw1c]
      simp only [Common.stored_zero, Common.cleared_zero]
      exact ite_self s
  rw [State.regWrite_tsu hwhole halign hlow, hsame, State.irqEdge_self]

theorem State.regWrite_tsu_of_here (hhere : s.tsuAbsent off = false) : ∃ q, s.regWrite .tsu acc off w = s.updCom .tsu fun c =>
    { (c.stored .tsu off (rwTsu off) w).cleared acc.same off (w1cTsu off) w with irq := q } := by
  obtain ⟨q, hq⟩ := State.irqEdge_eq s (s.tsuWrite off w acc.same) .tsu
  refine ⟨q, (State.regWrite_tsu hwhole halign hlow).trans (hq.trans ?_)⟩
  rw [State.tsuWrite_of_plain hrange hadd, if_neg (ne_true_of_eq_false hhere)]
  rfl

end

/-! ## Writes at a distributor -/

section
variable {s : State} {acc : Access} {off : Nat} {w : Word}

theorem State.noteWrite_rw (s : State) (acc : Access) (off : Nat) : (s.noteWrite acc off).gd.com.rw = s.gd.com.rw := by
  simp only [State.noteWrite, State.updCom]
  split
  · exact Common.accessErr_rw ..
  · rfl

theorem State.noteWrite_evtWord_of_alone (hsame : acc.same = false) (o : Nat) :
    (s.noteWrite acc off).gd.com.evtWord o = s.gd.com.evtWord o := by
  have hnot : ¬ (acc.same = true ∧ acc.master = 1 ∧ s.gd.com.lastWr = some (off, 0)) := fun h => ne_true_of_eq_false hsame h.1
  simp only [State.noteWrite, State.updCom, if_neg hnot]
  rfl

/-- The management port's write after the lead's of the cycle sets COLLIDE, R13. -/
theorem State.noteWrite_evtWord_of_second (hlead : s.gd.com.lastWr = some (off, 0)) :
    (s.noteWrite ⟨1, true, true⟩ off).gd.com.evtWord 0x50 = s.gd.com.evtWord 0x50 ||| 8 := by
  simp only [State.noteWrite, State.updCom, hlead, and_self, if_true]
  exact Common.accessErr_evtWord ..

theorem State.gdPlain_of_absent (habsent : s.gdAbsent off = true) :
    s.gdPlain acc off w = s.updCom .gd fun c => c.accessErr 1 off := if_pos habsent

theorem State.gdPlain_of_collision (hhere : s.gdAbsent off = false) (hcol : s.collides acc off = true) (hmask : rwGdMask off ≠ (0, 0)) :
    s.gdPlain acc off w = s.updCom .gd fun c => (c.cleared acc.same off (w1cGd off) w).accessErr 3 off := by
  simp only [State.gdPlain, hhere, Bool.false_eq_true, if_false, hcol, if_true, State.clearBits_eq, if_neg hmask]
  rfl

/-- The write of a register whose bits are all free of custody: GD_IRQ_EN. -/
theorem State.gdPlain_irqEn (hcol : s.collides acc 0x44 = false) : s.gdPlain acc 0x44 w =
    (s.noteWrite acc 0x44).updCom .gd fun c => c.stored .gd 0x44 0x3FFFF#32 w := by
  have hhere : s.gdAbsent 0x44 = false := s.gdAbsent_of_low (by decide)
  have hmask : rwGdMask 0x44 = (0x3FFFF, 0) := rfl
  have hw1c : w1cGd 0x44 = 0 := rfl
  have hcap : ¬ (0xE00 ≤ 0x44 ∧ 0x44 < 0x1000) := by decide
  have hptp : ¬ ((0x44 = 0x294 ∨ 0x44 = 0x298) ∧ w.toNat % 4 = 3 ∧ 8 ≤ s.rootIndex (s.gd.locator.getD 0)) := fun h =>
    absurd h.1 (by decide)
  rw [State.gdPlain, if_neg (ne_true_of_eq_false hhere), if_neg (ne_true_of_eq_false hcol), if_neg hcap, if_neg hptp, hmask, hw1c]
  simp only [State.storeBits_eq, State.clearBits_eq]
  rfl

theorem State.gdAbsent_refCustody (hvariant : s.gd.variant = .gd64x) : s.gdAbsent 0x210 = false := by
  simp [State.gdAbsent, Gd.refAbsent, hvariant]

/-- The write of a register whose bits are all in custody: GD_REF_ENABLE. -/
theorem State.gdPlain_refEnable (hvariant : s.gd.variant = .gd64x) (hcol : s.collides acc 0x210 = false) :
    s.gdPlain acc 0x210 w = if s.gd.sealSt ≠ .opened then (s.noteWrite acc 0x210).custodyRefused 0x210
      else (s.noteWrite acc 0x210).updCom .gd fun c => c.stored .gd 0x210 0xFFFF#32 w := by
  have hhere : s.gdAbsent 0x210 = false := State.gdAbsent_refCustody hvariant
  have hmask : rwGdMask 0x210 = (0, 0xFFFF) := rfl
  have hw1c : w1cGd 0x210 = 0 := rfl
  have hcap : ¬ (0xE00 ≤ 0x210 ∧ 0x210 < 0x1000) := by decide
  have hptp : ¬ ((0x210 = 0x294 ∨ 0x210 = 0x298) ∧ w.toNat % 4 = 3 ∧ 8 ≤ s.rootIndex (s.gd.locator.getD 0)) := fun h =>
    absurd h.1 (by decide)
  rw [State.gdPlain, if_neg (ne_true_of_eq_false hhere), if_neg (ne_true_of_eq_false hcol), if_neg hcap, if_neg hptp, hmask, hw1c]
  simp only [State.storeBits_eq, State.clearBits_eq]
  rfl

theorem State.custodyRefused_rw (s : State) (off : Nat) : (s.custodyRefused off).gd.com.rw = s.gd.com.rw := by
  obtain ⟨d, j, hd, hlog⟩ := (s.updCom .gd fun c => c.accessErr 2 off).logG_eq .custodyRequired 0 0
  rw [State.custodyRefused, hlog]
  exact hd.rw.trans (Common.accessErr_rw ..)

theorem State.custodyRefused_tsu (s : State) (off : Nat) : (s.custodyRefused off).tsu = s.tsu := State.logG_tsu ..

variable (hwhole : acc.whole = true) (halign : off % 4 = 0) (hmaster : acc.master ≠ 2) (hkept : s.lostToReset acc = false)
include hwhole halign hmaster hkept

/-- A write that reaches the distributor's registers. -/
theorem State.regWrite_gd_of_kept : ∃ q, s.regWrite .gd acc off w = (s.gdPlain acc off w).updCom .gd fun c => { c with irq := q } := by
  have hgo : ¬ (acc.master = 2 ∨ s.lostToReset acc = true) := fun h => h.elim hmaster (ne_true_of_eq_false hkept)
  obtain ⟨q, hq⟩ := State.irqEdge_eq s (s.gdPlain acc off w) .gd
  exact ⟨q, (State.regWrite_gd hwhole halign).trans ((if_neg hgo).trans hq)⟩

end

/-! ## Reads -/

section
variable {s : State} {n : Node} {m off low k : Nat}

theorem State.readBy_of_one (hone : wideOf n off = none) : s.readBy n m off = s.updCom n fun c => { c with rdata := s.readReg n off } := by
  simp only [State.readBy, hone]

theorem State.readBy_of_low (hwide : wideOf n off = some (off, 2)) : s.readBy n m off = s.updCom n fun c => { c with
    latch := Tab.put c.latch (latchKey m (off + 4)) (s.readReg n (off + 4)), rdata := s.readReg n off } := by
  simp only [State.readBy, hwide, if_true]
  cases n <;> rfl

theorem State.readBy_of_middle (hwide : wideOf n off = some (low, k)) (hlow : off ≠ low) (hhigh : off ≠ low + 4 * (k - 1)) :
    s.readBy n m off = s.updCom n fun c => { c with
      rdata := (Tab.get (s.com n).latch (latchKey m off)).getD (s.readReg n off) } := by
  simp only [State.readBy, hwide, hlow, hhigh, if_false]

theorem State.readBy_of_high (hwide : wideOf n (low + 4) = some (low, 2)) : s.readBy n m (low + 4) = s.updCom n fun c => { c with
    latch := Tab.del (Tab.del c.latch (latchKey m low)) (latchKey m (low + 4))
    rdata := (Tab.get (s.com n).latch (latchKey m (low + 4))).getD (s.readReg n (low + 4)) } := by
  have hne : ¬ low + 4 = low := by omega
  simp only [State.readBy, hwide, hne, if_false]
  cases n <;> rfl

theorem State.regRead_of_whole {acc : Access} (hwhole : acc.whole = true) (halign : off % 4 = 0) :
    s.regRead n acc off = s.readBy n acc.master off := if_pos ⟨hwhole, halign⟩

end

/-! ## Views -/

section
variable {s : State} {w : Word} {n o : Nat} {b : List Byte}

theorem viewSel_bits (w : Word) : bitsOf w.toNat 2 0 = w.toNat % 8 ∧ bitsOf w.toNat 28 16 = w.toNat / 65536 % 8192 :=
  ⟨bitsOf_from_zero .., bitsOf_eq_div_mod ..⟩

theorem State.debugSnapshot_none {e : Option (Nat × List Byte)} (he : s.dbgEntry (w.toNat % 8) (w.toNat / 65536 % 8192) = e) :
    s.debugSnapshot none w = (s.setReg .tsu 0x880 (w &&& 0x1FFF0007#32)).updTsu fun t =>
      { t with dbg := (e.map fun x => (true, x.1, padTo 64 x.2)).getD (false, 0, []) } := by
  obtain ⟨hstore, hindex⟩ := viewSel_bits w
  simp only [State.debugSnapshot, hstore, hindex, he]

/-- A slice whose page shows `view`. -/
def Slice.viewed (w : Word) (view : Bool × Nat × List Byte) (v : Slice) : Slice :=
  { v with page := Tab.put v.page 0x240 (w &&& 0x1FFF0007#32), view }

/-- A page sees the entries of its own slice alone, R463. -/
theorem State.debugSnapshot_page (hn : n < 64) (hact : (s.slice n).state = .active)
    (he : s.dbgEntry (w.toNat % 8) (w.toNat / 65536 % 8192) = some (o, b)) : s.debugSnapshot (some n) w =
      if o = n then s.updSlice n (Slice.viewed w (true, n, padTo 64 b))
      else (s.updSlice n (Slice.viewed w (false, 0, []))).denied n 0x240 := by
  obtain ⟨hstore, hindex⟩ := viewSel_bits w
  simp only [State.debugSnapshot, hstore, hindex, he, State.spGuard_of_active hn hact]
  rfl

/-- An access denied at a page keeps the view of its slice and sets ABSENT. -/
theorem State.denied_fields (s : State) (n off : Nat) : ((s.denied n off).slice n).view = (s.slice n).view
    ∧ (s.denied n off).tsu.com.evtWord 0x50 = s.tsu.com.evtWord 0x50 ||| 2 ∧ (s.denied n off).gd = s.gd := by
  refine ⟨?_, ?_, State.logT_gd ..⟩
  · obtain ⟨d, -, hlog⟩ := (s.updCom .tsu fun c => c.accessErr 1 (0x10000 + 0x1000 * n + off)).logT_slice_eq .accessDenied (srcSlice n) 0 n
    rw [State.denied, hlog]
    exact (congrArg Slice.view (Tab.getD_put_self ..)).trans rfl
  · exact (Common.record_evtWord _ _ _ _ _ _ _ _ (by decide) (by decide)).trans (Common.accessErr_evtWord ..)

theorem State.dlatWords_of_none {tag : BitVec 24} (hnone : s.dom? tag = none) : s.dlatWords tag = (s, [0, 0]) := by
  simp only [State.dlatWords, hnone]

end

/-! ## The management port -/

section
variable {s : State} {off : Nat} {op : SpiOp} {w : Word}

/-- The distributor with no access error of its own noted. -/
def State.unflagged (s : State) : State := s.updCom .gd fun c => c.clearEvt 0x50 0xFFFFFFFF#32

theorem State.unflagged_evtWord (s : State) : s.unflagged.gd.com.evtWord 0x50 = 0 := by
  refine (Common.clearEvt_evtWord ..).trans ?_
  exact (congrArg (s.gd.com.evtWord 0x50 &&& ·) (by decide : ~~~ 0xFFFFFFFF#32 = 0#32)).trans BitVec.and_zero

theorem State.mgmtTransaction_of_flag (hflag : (s.unflagged.mgmtAccess off op).gd.com.evtWord 0x50 ≠ 0) :
    s.mgmtTransaction off op = (s.mgmtAccess off op).updGd fun g => { g with spiStat := 0x5A } :=
  congrArg (fun v : Nat => (s.mgmtAccess off op).updGd fun g => { g with spiStat := v }) (if_pos (decide_eq_true hflag))

theorem State.mgmtTransaction_of_clean (hclean : (s.unflagged.mgmtAccess off op).gd.com.evtWord 0x50 = 0) :
    s.mgmtTransaction off op = (s.mgmtAccess off op).updGd fun g => { g with spiStat := 0xA5 } :=
  congrArg (fun v : Nat => (s.mgmtAccess off op).updGd fun g => { g with spiStat := v })
    (if_neg fun h => absurd hclean (of_decide_eq_true h))

theorem State.mgmtAccess_read_misaligned (halign : off % 4 ≠ 0) :
    s.mgmtAccess off .read = s.updCom .gd fun c => { c.accessErr 0 off with rdata := 0 } :=
  State.regRead_of_narrow_or_misaligned (.inr halign) s .gd

theorem State.mgmtAccess_read (halign : off % 4 = 0) (hone : wideOf .gd off = none) :
    s.mgmtAccess off .read = s.updCom .gd fun c => { c with rdata := s.readReg .gd off } :=
  (State.regRead_of_whole rfl halign).trans (State.readBy_of_one hone)

/-- GD_IRQ_EN orders nothing. -/
theorem State.mgmtOrder_irqEn : s.mgmtOrder 0x44 w = s := rfl

/-- A write of GD_IRQ_EN over the management port makes no order. -/
theorem State.mgmtAccess_irqEn : ∃ q, s.mgmtAccess 0x44 (.write w) =
    ((s.noteWrite mgmtAcc 0x44).updCom .gd fun c => c.stored .gd 0x44 0x3FFFF#32 w).updCom .gd fun c => { c with irq := q } := by
  obtain ⟨q, hq⟩ := State.regWrite_gd_of_kept (s := s) (acc := mgmtAcc) (off := 0x44) (w := w) rfl rfl (by decide) rfl
  have hplain : s.gdPlain mgmtAcc 0x44 w = _ := State.gdPlain_irqEn rfl
  rw [hplain] at hq
  have hreset : ¬ (0x44 = 0x918 ∧ bitOf w.toNat 0 = true) := fun h => absurd h.1 (by decide)
  refine ⟨q, ?_⟩
  rw [State.mgmtAccess, State.mgmtWrite, if_neg hreset, hq]
  exact State.mgmtOrder_irqEn

end

/-- Settles O58: each write, read, view and transaction by the register it names. -/
theorem registerRules : Obligations.RegisterRules := by
  unfold Obligations.RegisterRules
  refine ⟨fun acc off w s hwhole halign hmaster => ?_,
    fun acc off w s hwhole halign hrange hlow hadd => ⟨fun hnone =>
      congrArg Host.Outcome.next (State.regWrite_tsu_of_none hwhole halign hrange hlow hadd hnone), fun hhere => ?_⟩,
    fun acc off w s hwhole halign hlost => ?_, fun acc off w s hwhole halign hmaster hkept habsent => ?_,
    fun acc off w s hwhole halign hoff hsame hlead hlast hkept hhere hmask => ?_,
    fun w s hlast hkept => ?_, fun acc w s hwhole hmaster hsame hvariant => ?_,
    fun n acc off s hwhole halign hone => congrArg Host.Outcome.next
      ((State.regRead_of_whole hwhole halign).trans (State.readBy_of_one hone)),
    fun n acc off s hwhole halign hwide => congrArg Host.Outcome.next
      ((State.regRead_of_whole hwhole halign).trans (State.readBy_of_low hwide)),
    fun n acc low off k s hwhole halign hwide hlow hhigh => congrArg Host.Outcome.next
      ((State.regRead_of_whole hwhole halign).trans (State.readBy_of_middle hwide hlow hhigh)),
    fun n acc low s hwhole halign hwide => congrArg Host.Outcome.next
      ((State.regRead_of_whole hwhole (by omega)).trans (State.readBy_of_high hwide)),
    fun n s => ⟨rfl, rfl⟩,
    fun w s => ⟨fun hnone => congrArg Host.Outcome.next (State.debugSnapshot_none hnone),
      fun o b he => congrArg Host.Outcome.next (State.debugSnapshot_none he)⟩,
    fun n w s hn hact => ⟨fun b he => ?_, fun o b he hother => ?_⟩,
    fun w s => rfl, fun w s hnone => ?_, fun off s hoff halign => ?_, fun off s hoff halign hone => ?_, fun w s => ?_⟩
  · exact congrArg Host.Outcome.next ((State.regWrite_gd hwhole halign).trans (if_pos (.inl hmaster)))
  · obtain ⟨q, hq⟩ := State.regWrite_tsu_of_here (w := w) hwhole halign hrange hlow hadd hhere
    have hevt := ((s.tsu.com.stored .tsu off (rwTsu off) w).cleared_evtWord off (w1cTsu off) w acc.same)
    rw [Common.stored_evtWord, Common.stored_setNow] at hevt
    refine ⟨_, congrArg Host.Outcome.next hq, fun hmask => ?_, fun o ho => ?_, fun hsame => ?_, fun hsame => ?_, fun o ho => ?_, rfl, rfl⟩
    · exact (Common.cleared_reg ..).trans (Common.stored_reg _ _ _ _ _ hmask)
    · exact (Common.cleared_reg ..).trans (Common.stored_reg_ne _ _ _ _ _ ho)
    · exact hevt.trans (by rw [hsame]; rfl)
    · exact hevt.trans (by rw [hsame]; rfl)
    · exact (Common.cleared_evtWord_ne _ _ _ _ _ ho).trans (Common.stored_evtWord ..)
  · exact congrArg Host.Outcome.next ((State.regWrite_gd hwhole halign).trans (if_pos (.inr hlost)))
  · obtain ⟨q, hq⟩ := State.regWrite_gd_of_kept (w := w) hwhole halign hmaster hkept
    rw [State.gdPlain_of_absent habsent] at hq
    exact ⟨_, congrArg Host.Outcome.next hq, Common.accessErr_accAddr .., Common.accessErr_evtWord .., Common.accessErr_rw .., rfl⟩
  · have hcol : s.collides acc off = true := by
      rw [State.collides, hsame, hlead, hlast]
      simp
    obtain ⟨q, hq⟩ := State.regWrite_gd_of_kept (w := w) hwhole halign (by omega) hkept
    rw [State.gdPlain_of_collision hhere hcol hmask] at hq
    refine ⟨_, congrArg Host.Outcome.next hq, (Common.accessErr_rw ..).trans (Common.cleared_rw ..),
      (Common.accessErr_evtWord ..).trans ?_, rfl⟩
    rw [Common.cleared_evtWord_ne _ _ _ _ _ hoff.symm]
    rfl
  · obtain ⟨q, hq⟩ := State.regWrite_gd_of_kept (s := s) (acc := ⟨1, true, true⟩) (off := 0x44) (w := w) rfl rfl
      (by decide : (1 : Nat) ≠ 2) hkept
    rw [State.gdPlain_irqEn rfl] at hq
    refine ⟨_, congrArg Host.Outcome.next hq, ?_, ?_, ?_, rfl⟩
    · refine (Common.stored_reg _ _ _ _ _ (by decide)).trans ?_
      have hsame : (s.noteWrite ⟨1, true, true⟩ 0x44).gd.com.reg .gd 0x44 = s.reg .gd 0x44 := s.noteWrite_reg ..
      rw [hsame]
    · exact (Common.stored_evtWord ..).trans (State.noteWrite_evtWord_of_second hlast)
    · rfl
  · have hkept : s.lostToReset acc = false := by
      rw [State.lostToReset, hsame]
      rfl
    have hcol : s.collides acc 0x210 = false := by
      rw [State.collides, hsame]
      rfl
    obtain ⟨q, hq⟩ := State.regWrite_gd_of_kept (off := 0x210) (w := w) hwhole rfl hmaster hkept
    rw [State.gdPlain_refEnable hvariant hcol] at hq
    refine ⟨fun hseal => ?_, fun hseal => ?_⟩
    · rw [if_pos hseal] at hq
      obtain ⟨hrw, htsu⟩ := ((s.noteWrite acc 0x210).custodyRefused 0x210).updCom_irq q
      exact ⟨_, congrArg Host.Outcome.next hq, hrw.trans ((State.custodyRefused_rw ..).trans (s.noteWrite_rw ..)),
        htsu.trans ((State.custodyRefused_tsu ..).trans rfl)⟩
    · rw [if_neg (not_not_intro hseal)] at hq
      refine ⟨_, congrArg Host.Outcome.next hq, (Common.stored_reg _ _ _ _ _ (by decide)).trans ?_, rfl⟩
      have hreg : (s.noteWrite acc 0x210).gd.com.reg .gd 0x210 = s.reg .gd 0x210 := s.noteWrite_reg ..
      rw [hreg]
  · refine ⟨_, congrArg Host.Outcome.next ((State.debugSnapshot_page hn hact he).trans (if_pos rfl)), ?_, rfl, rfl⟩
    rw [State.updSlice_slice, if_pos rfl]
    rfl
  · obtain ⟨hview, hflag, hgd⟩ := (s.updSlice n (Slice.viewed w (false, 0, []))).denied_fields n 0x240
    refine ⟨_, congrArg Host.Outcome.next ((State.debugSnapshot_page hn hact he).trans (if_neg hother)), hview.trans ?_, hflag, hgd⟩
    rw [State.updSlice_slice, if_pos rfl]
    rfl
  · have hnone' : (s.setReg .gd 0x520 (w &&& 0xFFFFFF#32)).dom? (BitVec.ofNat 24 w.toNat) = none := hnone
    exact congrArg (fun x : State × List Word => Host.Outcome.next (x.1.updGd fun g => { g with dlatView := x.2 }))
      (State.dlatWords_of_none hnone')
  · have hflag : (s.unflagged.mgmtAccess off .read).gd.com.evtWord 0x50 ≠ 0 := by
      rw [State.mgmtAccess_read_misaligned halign]
      have hevt : (s.unflagged.gd.com.accessErr 0 off).evtWord 0x50 = s.unflagged.gd.com.evtWord 0x50 ||| 1 := Common.accessErr_evtWord ..
      rw [State.unflagged_evtWord] at hevt
      exact fun h => absurd (hevt.symm.trans h) (by decide)
    refine ⟨(s.mgmtAccess off .read).updGd fun g => { g with spiStat := 0x5A }, ?_, rfl, ?_, ?_, ?_⟩
    · show Host.Outcome.next (s.mgmtTransaction (off % 131072) .read) = _
      rw [Nat.mod_eq_of_lt hoff, State.mgmtTransaction_of_flag hflag]
    all_goals rw [State.mgmtAccess_read_misaligned halign]
    · rfl
    · exact Common.accessErr_rw ..
    · rfl
  · have hclean : (s.unflagged.mgmtAccess off .read).gd.com.evtWord 0x50 = 0 := by
      rw [State.mgmtAccess_read halign hone]
      exact s.unflagged_evtWord
    refine ⟨(s.mgmtAccess off .read).updGd fun g => { g with spiStat := 0xA5 }, ?_, rfl, ?_, ?_, ?_⟩
    · show Host.Outcome.next (s.mgmtTransaction (off % 131072) .read) = _
      rw [Nat.mod_eq_of_lt hoff, State.mgmtTransaction_of_clean hclean]
    all_goals rw [State.mgmtAccess_read halign hone]
    all_goals rfl
  · have hclean : (s.unflagged.mgmtAccess 0x44 (.write w)).gd.com.evtWord 0x50 = 0 := by
      obtain ⟨q, hq⟩ := State.mgmtAccess_irqEn (s := s.unflagged) (w := w)
      rw [hq]
      exact (Common.stored_evtWord ..).trans ((State.noteWrite_evtWord_of_alone rfl _).trans s.unflagged_evtWord)
    obtain ⟨q, hq⟩ := State.mgmtAccess_irqEn (s := s) (w := w)
    refine ⟨(s.mgmtAccess 0x44 (.write w)).updGd fun g => { g with spiStat := 0xA5 }, ?_, rfl, ?_, ?_⟩
    · exact congrArg Host.Outcome.next (State.mgmtTransaction_of_clean hclean)
    all_goals rw [hq]
    · refine (Common.stored_reg _ _ _ _ _ (by decide)).trans ?_
      have hreg : (s.noteWrite mgmtAcc 0x44).gd.com.reg .gd 0x44 = s.reg .gd 0x44 := s.noteWrite_reg ..
      rw [hreg]
    · rfl

end Sys2Proof.Machine
end
